-- ==== Sys2Proof/Word.lean ====
section
/-! DEFINITION. The byte and word types of the HKV-4480 register views (R11: 32-bit registers, little-endian). -/

namespace Sys2Proof

/-- One byte of a device-defined structure. -/
abbrev Byte := BitVec 8

/-- One 32-bit register word (R11). -/
abbrev Word := BitVec 32

/-- A string of bytes: a message, a stored structure, a signature. -/
abbrev Bytes := List Byte

end Sys2Proof
end

