-- ==== Sys2Proof/Syntax.lean ====
section
/-! DEFINITION. The commands of the block: one constructor of `Instr` per row of the table of operations and events.
A row that is a command carries its parameters (and, for a ring command, who asked); a row that is an event carries
what the outside world supplies with it (a measured value, a received frame, a check outcome). -/

namespace Sys2Proof

/-- The two command-ring sides (R393): the host over HSI, and the application cluster. -/
inductive Side where
  | host | cluster
  deriving DecidableEq, Repr, Inhabited

/-- Who issued a ring command: the side and the descriptor's TAG (R394). -/
structure Req where
  side : Side
  tag : Nat
  deriving DecidableEq, Repr, Inhabited

/-- What a lane's modulator delivers in one frame of the strobe (R48, R50), and the words that a fault strikes. -/
structure LaneInput where
  /-- The 128 modulator bits of the frame, bit 0 the first in time. -/
  bits : Nat
  /-- A word held in the FIR delay line fails its CRC-8 when the FIR verifies it (R68). -/
  firBad : Bool
  /-- A word held in the delay and interpolator line fails its CRC-8 when stage 4 verifies it (R68). -/
  dlyBad : Bool
  /-- The lane sample word formed now fails its CRC-8 when stage 5 verifies it (R68). -/
  rsBad : Bool
  deriving DecidableEq, Repr, Inhabited

/-- The faults that strike a phase group's data while an interval closes (R96, R99); none in a healthy device. -/
structure GroupFault where
  /-- A resampled word fails its CRC-8 as the MAC array consumes it. -/
  gridBad : Bool
  /-- Bits of the 64-byte interval result that flip before the sequencer verifies its CRC-16. -/
  flip : Nat
  /-- Bits of the harmonic record that flip before its CRC-16 is verified. -/
  flipHarm : Nat
  deriving DecidableEq, Repr, Inhabited

/-- A fault in the two copies of one accumulator of the closing outlet (R100). -/
structure AccFault where
  /-- 0–9 the quantities of R88, 9 + h the harmonic order h. -/
  q : Nat
  /-- Bits that flip in the primary copy and in the inverted shadow copy. -/
  flipA : Nat
  flipB : Nat
  /-- The copy's ECC syndrome is not clean. -/
  eccA : Bool
  eccB : Bool
  deriving DecidableEq, Repr, Inhabited

/-- What an interval close meets besides the words the device holds (R101). -/
structure IntervalInput where
  /-- One entry per phase group of the outlet, group 0 first; a group without an entry meets no fault. -/
  groups : List GroupFault
  /-- Accumulator faults found at this update (R100). -/
  accs : List AccFault
  deriving DecidableEq, Repr, Inhabited

/-- The LO registers of the BIL block that latch a HI register (R152). -/
inductive BilLo where
  | passAct | lastBnd | credit
  | timp (outlet tariff : Nat)
  | texp (outlet tariff : Nat)
  | mdTs (outlet tariff : Nat)
  deriving DecidableEq, Repr, Inhabited

/-- Voltages a weld check sees (R176), in mV. -/
structure WeldInput where
  /-- AC: the cycles of the check, at most 5; per phase group (VOLTAGE, VOLT_POST, RMS of their difference). -/
  cycles : List (List (Nat × Nat × Nat))
  /-- DC: (VOLT_PRE, VOLTAGE) over the first 100 ms, the first pair being the start of the check. -/
  first100 : List (Nat × Nat)
  /-- DC POST_OPEN: (VOLT_PRE, VOLTAGE) over the whole 500 ms. -/
  upTo500 : List (Nat × Nat)
  deriving DecidableEq, Repr, Inhabited

/-- Averages an isolation-monitor state ends with (R173), in mV: the last 100 ms and the 100 ms before. -/
structure IsoInput where
  vp : Int
  vn : Int
  vpPrev : Int
  vnPrev : Int
  deriving DecidableEq, Repr, Inhabited

/-- The frame interfaces with descriptor rings (R235, R253, R254, R407). -/
inductive Port where
  | vlk (o : Nat) | glk | eth | can (c : Nat)
  deriving DecidableEq, Repr, Inhabited

/-- Why SLAC times out on a link (R232). -/
inductive SlacTimeout where
  /-- 50 s in WAIT_PARM (row 1). -/
  | waitParm
  /-- 2 s without CM_START_ATTEN_CHAR.IND (row 2). -/
  | noStart
  /-- 10 s without CM_SLAC_MATCH.REQ (row 7). -/
  | noMatch
  /-- 12 s without the vehicle's join (row 7). -/
  | noJoin
  deriving DecidableEq, Repr, Inhabited

/-- Whether a frame came encrypted, and under which network key the modem decrypted it (R246, R253). -/
inductive FrameKey where
  | plain | current | previous
  deriving DecidableEq, Repr, Inhabited

/-- A PHY block of a grid-link MPDU (R244, R249): its place in the MSDU, whether its check holds, its payload. -/
structure RxPb where
  index : Nat
  ok : Bool
  data : Bytes
  deriving DecidableEq, Repr, Inhabited

/-- A grid-link MPDU (R249): sequence number and PB count of its MSDU, broadcast or multicast, the PBs it carries. -/
structure RxMpdu where
  seq : Nat
  total : Nat
  group : Bool
  pbs : List RxPb
  deriving DecidableEq, Repr, Inhabited

/-- How HSI_CS_N ends a transaction (R391): before the last CRC bit, right after it, or after further clocks. -/
inductive HsiStop where
  | short | exact | long
  deriving DecidableEq, Repr, Inhabited

/-- A transaction as the HSI receives it (R387). -/
structure HsiFrame where
  /-- HSI_CLK was above 80 MHz. -/
  fast : Bool
  opcode : Nat
  addr : Nat
  len : Nat
  /-- The data and the CRC of a write, as sent. -/
  data : Bytes
  crc : Nat
  stop : HsiStop
  /-- The data of a read was not ready within 255 wait bytes (R390). -/
  late : Bool
  deriving DecidableEq, Repr, Inhabited

/-- A frame as a port receives it (R236, R249, R253, R408). -/
structure RxFrame where
  /-- The frame without FCS; of an MPDU the PBs carry it instead. -/
  bytes : Bytes
  /-- A management message. -/
  mme : Bool
  /-- Decryption under the network key failed, or a block failed its check. -/
  bad : Bool
  /-- Received channel access priority, or CAN identifier word. -/
  cap : Nat
  /-- Source: TEI of the sending station (grid link) or 0. -/
  src : Nat
  /-- Start of the frame on the medium: 32-bit descriptor timestamp (R15). -/
  ts : Nat
  key : FrameKey
  /-- A sound frame: the station asks for a tone map towards this device (R248). -/
  sound : Bool
  mpdu : Option RxMpdu
  deriving DecidableEq, Repr, Inhabited

/-- A coordinator beacon as the modem decodes it (R246, R247, R250, R267). -/
structure Beacon where
  nid : Nat
  /-- The coordinator's TEI and MAC address. -/
  tei : Nat
  mac : Nat
  /-- Stations of the discover list: (TEI, MAC address). -/
  discover : List (Nat × Nat)
  /-- Beacon period, µs. -/
  period : Nat
  /-- The beacon's 32-bit beacon timestamp. -/
  bts : Nat
  /-- Time from the beacon period's start to the first own zero crossing in it, µs; none without a LOCKED crossing. -/
  crossing : Option Nat
  /-- The beacon schedules a new NEK; the own TEI is released by the coordinator. -/
  released : Bool
  deriving DecidableEq, Repr, Inhabited

/-- A selective acknowledgement of one MPDU (R249). -/
structure Sack where
  tei : Nat
  /-- One bit per PB of the MPDU, true when received. -/
  ok : List Bool
  /-- The tone-map region the MPDU was sent in, 0–5, and the offset of its first failed PB in the beacon period. -/
  region : Nat
  offset : Nat
  deriving DecidableEq, Repr, Inhabited

/-- Why a tone map falls back (R248 rows 4 and 7, or one request unanswered for 500 ms). -/
inductive ToneTimeout where
  | request | reestimation
  deriving DecidableEq, Repr, Inhabited

/-- What a fast-tap word is formed of (R61): its 8 modulator bits, bit 0 the first in time, and whether the word fails its
parity at FLT. -/
structure TapInput where
  bits : Nat
  parityBad : Bool
  deriving DecidableEq, Repr, Inhabited

/-- A tone map as a neighbour answers with it (R247, R248): PHY rate in 100 kbit/s, and per region its start and 533 bytes. -/
structure ToneMap where
  rate : Nat
  maps : List (Nat × Bytes)
  deriving DecidableEq, Repr, Inhabited

/-- A GLK_ZC.IND (R251): the sender's MAC address and the payload. -/
structure ZcMessage where
  mac : Nat
  payload : Bytes
  deriving DecidableEq, Repr, Inhabited

/-- A tag as the reader sequencer finds it in a full poll (R278–R282). -/
structure TagFound where
  /-- 1 type A, 2 type B, 3 ISO/IEC 15693. -/
  tech : Nat
  uid : Bytes
  /-- SAK, ATQB protocol byte or DSFID. -/
  param : Nat
  /-- The tag's answer to the READ command of the matching key record; none without an answer or on an error. -/
  answer : Option Bytes
  /-- Type B: the slot, 0–15, in which its PUPI answers when a collision leads to slot markers (R278, R280). -/
  slot : Nat
  /-- Supports ISO/IEC 14443-4. -/
  iso4 : Bool
  /-- Offers only unsupported options (R279). -/
  unsupported : Bool
  deriving DecidableEq, Repr, Inhabited

/-- What a full poll meets (R276, R278, R280). -/
structure PollInput where
  /-- A foreign field at NFC_RX before the reader's own. -/
  foreign : Bool
  /-- The tags in the field; UIDs in the order of transmission. -/
  tags : List TagFound
  /-- Frames discarded for parity, CRC or length. -/
  rxErr : Nat
  deriving DecidableEq, Repr, Inhabited

/-- What comes back for one transmission of an APDU to the held tag (R288): a response, nothing within the FWT, or a frame
with a framing or CRC error. -/
inductive XferTry where
  | answer (resp : Bytes)
  | silent
  | bad
  deriving DecidableEq, Repr, Inhabited

/-- Where in the steps of R296 a field collapse cuts a block write, or that it completes. -/
inductive WriteCut where
  | beforeErase
  /-- During erase and program: what the cells then hold. -/
  | duringErase (left : Bytes)
  | beforeCheck
  /-- During or after step 5: the block is valid, and no response reached the writer. -/
  | beforeResponse
  | complete
  deriving DecidableEq, Repr, Inhabited

/-- What a boot finds outside the state (R422). -/
structure BootInput where
  /-- RTC time at the boot, ns since the epoch; taken when the RTC has not been lost (R270). -/
  rtc : Nat
  /-- The checks of R82 pass for the metrology and Owl firmware. -/
  metOk : Bool
  owlOk : Bool
  /-- The DRBG's health tests fail (R329). -/
  rngFail : Bool
  /-- Levels of GD_IN as open bits, LIMP_N low, LH_IN, LOCK_FB (R163, R178, R191). -/
  guards : Nat
  limpLow : Bool
  lhIn : Nat
  lockFb : Nat
  /-- VLS group voltages, mV (R154). -/
  grpMv : List Nat
  /-- The microcode of the modems is ready within 1 s (R356). -/
  modemsOk : Bool
  /-- VHARV present at the start: the commissioning field (R295). -/
  field : Bool
  /-- Offsets in the metrology store (R111) whose CRC-32C fails at this boot. -/
  damage : List Nat
  /-- Copies of Owl's safety configuration that fail at load (R200): bit 0 copy A, bit 1 copy B. -/
  cfgDamage : Nat
  deriving DecidableEq, Repr, Inhabited

/-- What Badger's monitors read (R368). -/
structure MonitorInput where
  /-- Die temperatures 0–5, 0.1 °C. -/
  temps : List Int
  /-- Supplies 0–9, mV. -/
  supplies : List Nat
  /-- Supplies that stood outside the recommended range for the last 10 ms. -/
  outside : List Bool
  /-- XTAL_LF_IN missing for 2 ms. -/
  lfMissing : Bool
  deriving DecidableEq, Repr, Inhabited


/-- The commands and events of the HKV-4480, one constructor per row of the table. -/
inductive Instr where
  /-- SUPPLY_GOOD (R416): the rail that rose before one earlier in the order, and that one. -/
  | supplyGood (seqErr : Option (Nat × Nat))
  /-- BOOT (R422), with what the boot finds outside the state. -/
  | boot (b : BootInput)
  /-- CACHE_LOADED (R286). -/
  | cacheLoaded
  /-- WARREN_ACTIVATE (R41), a ring command. -/
  | warrenActivate (r : Req)
  /-- LANE_SAMPLE_WORD (R48). -/
  | laneSampleWord (lane : Nat) (inp : LaneInput)
  /-- LANE_STUCK (R54): the level at which the bitstream stuck. -/
  | laneStuck (lane : Nat) (high : Bool)
  /-- LANE_CLKERR (R69). -/
  | laneClkerr (lane : Nat)
  /-- RESAMPLER_CYCLE (R63), with the adjustment its phase control makes, open within ±0.5 Hz (log 33). -/
  | resamplerCycle (outlet adj : Nat)
  /-- DETECTOR_UPDATE (R65, R66): whether a half-cycle or 10 ms window closes with it, and whether the 1 ms of the envelope do. -/
  | detectorUpdate (lane : Nat) (window ms : Bool)
  /-- FIRDATA_WRITE (R57). -/
  | firdataWrite (lane : Nat) (w : Word)
  /-- FIR_SWAP (R57). -/
  | firSwap (lane : Nat)
  /-- LANE_TRIAL_WRITE (R58): the bit written to LANEn_CTL.TRIAL. -/
  | laneTrialWrite (lane : Nat) (set : Bool)
  /-- LANE_CAL_WRITE (R58): LANEn_DELAY when `delay`, else LANEn_GAIN. -/
  | laneCalWrite (lane : Nat) (delay : Bool) (w : Word)
  /-- LANE_SUSPECT (R71). -/
  | laneSuspect (lane : Nat)
  /-- WARMUP_DECISION (R74): which way the reported mean is rounded, and whether the 10 ms block still open at step 6 is
  compared; R73 leaves both open (log 33). -/
  | warmupDecision (spare : Nat) (up last : Bool)
  /-- LANE_SWAP (R72 step 8). -/
  | laneSwap (spare : Nat)
  /-- SPARE_FAILED (R70): the trigger found on an idle spare. -/
  | spareFailed (spare : Nat) (trigger : Nat)
  /-- LANE_FAILED (R76): the trigger that persisted or recurred. -/
  | laneFailed (lane : Nat) (trigger : Nat)
  /-- STRIKE_EXPIRY (R74). -/
  | strikeExpiry (lane : Nat)
  /-- LANE_RESTORE (R78), a ring command. -/
  | laneRestore (r : Req) (lane : Nat)
  /-- INTERVAL_CLOSE (R101). -/
  | intervalClose (outlet : Nat) (inp : IntervalInput)
  /-- SAVE_COMPLETE (R114). -/
  | saveComplete
  /-- SNAPSHOT_SIGNED (R107). -/
  | snapshotSigned
  /-- SRAM_SCRUB (R83): errors corrected by the pass. -/
  | sramScrub (corrected : Nat)
  /-- MET_CORE_RELOAD (R83). -/
  | metCoreReload
  /-- PULSE_TIMER (R108): the pulse output whose high or low time ended. -/
  | pulseTimer (p : Nat)
  /-- SNAPCTL_TAKE (R107): the word written to MET_SNAPCTL. -/
  | snapctlTake (w : Word)
  /-- CALCTL_START (R110): the word written to MET_CALCTL. -/
  | calctlStart (w : Word)
  /-- CALCTL_STOP (R110). -/
  | calctlStop
  /-- ENERGY_LO_READ (R94): the reading view, outlet and quantity. -/
  | energyLoRead (view : Side) (outlet q : Nat)
  /-- HARM_LO_READ (R94). -/
  | harmLoRead (view : Side)
  /-- CAL_ACC_LO_READ (R119): CALQ when `reactive`, else CALP. -/
  | calAccLoRead (view : Side) (outlet : Nat) (reactive : Bool)
  /-- LEGAL_EVENT_CONFIRM (R121): how many of the oldest staged entries Badger confirms. -/
  | legalEventConfirm (n : Nat)
  /-- BIL_LO_READ (R152). -/
  | bilLoRead (view : Side) (reg : BilLo)
  /-- CAL_LOAD (R127), a ring command: the calendar record. -/
  | calLoad (r : Req) (rec : Bytes)
  /-- TOKEN_ENTER (R146), a ring command: the token's ASCII digits. -/
  | tokenEnter (r : Req) (digits : Bytes)
  /-- BILL_SNAP_READ (R136), a ring command. -/
  | billSnapRead (r : Req) (index : Nat)
  /-- BILL_RESET (R151), a ring command. -/
  | billReset (r : Req)
  /-- LOAD_PROFILE_RECORD (R141). -/
  | loadProfileRecord
  /-- TOKEN_MIRROR_CONFIRM (R149): the highest journal SEQ confirmed in flash. -/
  | tokenMirrorConfirm (seq : Nat)
  /-- LS_DEMAND_CHANGE (R156, R157). -/
  | lsDemandChange (ch : Nat)
  /-- LS_OVERLOAD (R157 row 3): the current, mA, signed. -/
  | lsOverload (ch : Nat) (cur : Int)
  /-- LS_INRUSH_END (R157 row 5): the current, mA. -/
  | lsInrushEnd (ch : Nat) (cur : Int)
  /-- LS_RETRY_TIMER (R157 row 8). -/
  | lsRetryTimer (ch : Nat)
  /-- LS_RETRY_RESET (R157). -/
  | lsRetryReset (ch : Nat)
  /-- LS_THERMAL_LATCH (R157 row 1): the junction temperature, 0.1 °C. -/
  | lsThermalLatch (ch : Nat) (temp : Int)
  /-- LS_LATCH_AUTOCLEAR (R160 row 3): the junction temperature, 0.1 °C. -/
  | lsLatchAutoclear (ch : Nat) (temp : Int)
  /-- LS_UNDERVOLTAGE (R157 row 2): the group and its voltage, mV. -/
  | lsUndervoltage (grp : Nat) (mv : Nat)
  /-- LS_UV_RECOVER (R157 row 9). -/
  | lsUvRecover (grp : Nat) (mv : Nat)
  /-- LS_OPENLOAD_ON (R159): whether the current is low for 100 ms, or has risen above twice the level. -/
  | lsOpenloadOn (ch : Nat) (cur : Int)
  /-- LS_OPENLOAD_DIAG (R159): the output voltage under the diagnostic current, mV. -/
  | lsOpenloadDiag (ch : Nat) (mv : Nat)
  /-- PWR_CLEAR (R179), a ring command. -/
  | pwrClear (r : Req) (ch kind : Nat)
  /-- WELD_CLEAR (R179), a ring command. -/
  | weldClear (r : Req) (outlet : Nat)
  /-- LIMP_INPUT_CHANGE (R163): the debounced LIMP_N held low and LH_IN levels. -/
  | limpInputChange (limpLow : Bool) (lhIn : Nat)
  /-- FAST_TRIP (R167): the lane whose fast-tap word crosses, and the level by its place among those of its function. -/
  | fastTrip (lane level : Nat)
  /-- SUPERVISED_DELAY_EXPIRY (R189): the TRIP record by its place in the safety section, and the lane whose fast tap holds its
  level; in a warm-up the spare's may (R72). -/
  | supervisedDelayExpiry (trip lane : Nat)
  /-- RC_EVALUATE (R170): the RESIDUAL lane's sample words of the last 20 ms. -/
  | rcEvaluate (outlet : Nat) (words : List Int)
  /-- RC_TRIP (R171): the level row 0–5 whose hold time has passed. -/
  | rcTrip (outlet : Nat) (row : Nat)
  /-- ISO_STATE_SWITCH (R173). -/
  | isoStateSwitch (outlet : Nat) (inp : IsoInput)
  /-- ISO_UNKNOWN (R174 row 3): U in mV. -/
  | isoUnknown (outlet : Nat) (u : Int)
  /-- PRE_CLOSE_RESULT (R176). -/
  | preCloseResult (outlet : Nat) (inp : WeldInput)
  /-- POST_OPEN_RESULT (R176). -/
  | postOpenResult (outlet : Nat) (inp : WeldInput)
  /-- LOCK_FEEDBACK (R178): the debounced level, true for locked. -/
  | lockFeedback (outlet : Nat) (locked : Bool)
  /-- LOCK_TIMEOUT (R178). -/
  | lockTimeout (outlet : Nat)
  /-- LOCK_RETRY (R178 row 3). -/
  | lockRetry (outlet : Nat)
  /-- OWL_START_COMPLETE (R184 row 3). -/
  | owlStartComplete
  /-- OWL_DIAG_FAIL (R196): the diagnostic bit and its detail byte. -/
  | owlDiagFail (diag : Nat) (detail : Nat)
  /-- OWL_PERIODIC_DIAG (R196): the diagnostic that falls due and whether it passes. -/
  | owlPeriodicDiag (diag : Nat) (pass : Bool) (detail : Nat)
  /-- OWL_SAFE_TIMEOUT (R184 row 7). -/
  | owlSafeTimeout
  /-- OWL_WATCHDOG_EXPIRY (R185). -/
  | owlWatchdogExpiry
  /-- OWL_CYCLE (R186). -/
  | owlCycle
  /-- METER_OK_TIMEOUT (R98). -/
  | meterOkTimeout (outlet : Nat)
  /-- GUARD_INPUT_CHANGE (R191): the debounced state. -/
  | guardInputChange (input : Nat) (isOpen : Bool)
  /-- GUARD_DISAGREE (R191): the stage levels. -/
  | guardDisagree (input : Nat) (levels : Nat)
  /-- TRIP_AUTOCLEAR (R194): row 2 or 3, on an outlet. -/
  | tripAutoclear (outlet : Nat) (row : Nat)
  /-- AUTOCLR_EXPIRY (R194). -/
  | autoclrExpiry (outlet : Nat)
  /-- OWL_PW_PROVE (R202), a ring command. -/
  | owlPwProve (r : Req) (pw : Bytes)
  /-- OWL_PW_SET (R210), a ring command. -/
  | owlPwSet (r : Req) (old new : Bytes)
  /-- OWL_PW_END (R210), a ring command. -/
  | owlPwEnd (r : Req)
  /-- OWL_TRIP_CLEAR (R194), a ring command. -/
  | owlTripClear (r : Req) (outlet : Nat)
  /-- OWL_EFDOM_SET (R204), a ring command: the 24-byte record. -/
  | owlEfdomSet (r : Req) (rec : Bytes)
  /-- OWL_LOG_READ (R210), a ring command. -/
  | owlLogRead (r : Req) (index : Nat)
  /-- SAFETY_SESSION_EXPIRY (R202). -/
  | safetySessionExpiry
  /-- PW_LOCKOUT_END (R202). -/
  | pwLockoutEnd
  /-- EFDOM_TRANSMIT (R207). -/
  | efdomTransmit (conn : Nat)
  /-- EFDOM_FRAME_RECEIVE (R209): transport 1–4 and its payload. -/
  | efdomFrameReceive (transport : Nat) (payload : Bytes)
  /-- EFDOM_WATCHDOG_EXPIRY (R208). -/
  | efdomWatchdogExpiry (conn : Nat)
  /-- PILOT_STATE_ACCEPTED (R221): the plateau readings of the accepted state, mV (R219, R220). -/
  | pilotStateAccepted (outlet : Nat) (hi lo : Int)
  /-- PILOT_FAULT_HOLD (R223 row 2): onset after 1 s, or the end after 1 s of A or B. -/
  | pilotFaultHold (outlet : Nat) (onset : Bool)
  /-- PILOT_MODE_TRANSITION_END (R218). -/
  | pilotModeTransitionEnd (outlet : Nat)
  /-- VLK_PILOT_WRITE (R218). -/
  | vlkPilotWrite (outlet : Nat) (w : Word)
  /-- PROXIMITY_CODE (R224): the voltage at PP_INn of three equal readings, mV. -/
  | proximityCode (outlet : Nat) (mv : Nat)
  /-- VLK_START (R239), a ring command. -/
  | vlkStart (r : Req) (outlet : Nat)
  /-- VLK_STOP (R239), a ring command. -/
  | vlkStop (r : Req) (outlet reason : Nat)
  /-- VLK_UNLOCK (R239), a ring command. -/
  | vlkUnlock (r : Req) (outlet : Nat)
  /-- RELEASE_RETRY (R226). -/
  | releaseRetry (outlet : Nat)
  /-- PRECLOSE_RETRY (R226). -/
  | precloseRetry (outlet : Nat)
  /-- DC_CONTACTOR_OPEN (R227). -/
  | dcContactorOpen (outlet : Nat)
  /-- OVERDRAW (R227): the phase group and its current RMS, mA. -/
  | overdraw (outlet group cur : Nat)
  /-- CM_SLAC_PARM_REQ (R232 row 2): the RunID. -/
  | cmSlacParmReq (link : Nat) (runId : Nat)
  /-- CM_START_ATTEN_CHAR_IND (R232 row 2). -/
  | cmStartAttenCharInd (link : Nat) (runId : Nat)
  /-- CM_MNBC_SOUND_IND (R232 row 3): attenuation of the 58 groups, dB. -/
  | cmMnbcSoundInd (link : Nat) (runId : Nat) (atten : List Nat)
  /-- SOUNDING_WINDOW_END (R233). -/
  | soundingWindowEnd (link : Nat)
  /-- CM_ATTEN_CHAR_RSP (R232 row 4). -/
  | cmAttenCharRsp (link : Nat) (runId : Nat)
  /-- ATTEN_CHAR_RESEND (R232 row 4). -/
  | attenCharResend (link : Nat)
  /-- CM_VALIDATE_REQ (R234): the RunID and the count the vehicle requests. -/
  | cmValidateReq (link : Nat) (runId : Nat) (count : Nat)
  /-- VALIDATION_WINDOW_END (R234): the end of the 3,500 ms, or a dwell that has lasted beyond 400 ms. -/
  | validationWindowEnd (link : Nat) (late : Bool)
  /-- CM_SLAC_MATCH_REQ (R232 row 7). -/
  | cmSlacMatchReq (link : Nat) (runId : Nat)
  /-- SLAC_JOINED (R232 row 8). -/
  | slacJoined (link : Nat)
  /-- SLAC_TIMEOUT (R232). -/
  | slacTimeout (link : Nat) (why : SlacTimeout)
  /-- SLAC_LINK_LOST (R232 row 9). -/
  | slacLinkLost (link : Nat)
  /-- FRAME_TX_TAIL_WRITE (R236, R407): the word written to the transmit tail. -/
  | frameTxTailWrite (p : Port) (w : Word)
  /-- FRAME_RX_TAIL_WRITE (R236, R407). -/
  | frameRxTailWrite (p : Port) (w : Word)
  /-- FRAME_TRANSMITTED (R236): the start of the frame on the medium, 32-bit descriptor timestamp. -/
  | frameTransmitted (p : Port) (ts : Nat)
  /-- FRAME_TX_TIMEOUT (R236 row 4). -/
  | frameTxTimeout (p : Port)
  /-- FRAME_RECEIVED (R236). -/
  | frameReceived (p : Port) (f : RxFrame)
  /-- GLK_BEACON (R246). -/
  | glkBeacon (b : Beacon)
  /-- CC_ASSOC.CNF (R246 rows 4, 5): success, the TEI assigned and the lease. -/
  | ccAssocCnf (ok : Bool) (tei : Nat)
  /-- NEK_RECEIVED (R246 row 6). -/
  | nekReceived (nek : Bytes)
  /-- GLK_ASSOC_TIMEOUT (R246 rows 5, 7). -/
  | glkAssocTimeout
  /-- GLK_BACKOFF_EXPIRY (R246). -/
  | glkBackoffExpiry
  /-- GLK_BEACON_LOSS (R246 row 8): ten missed beacons, or the TEI released. -/
  | glkBeaconLoss
  /-- GLK_LEASE_RENEW (R246). -/
  | glkLeaseRenew
  /-- GLK_CFG_WRITE (R246): the word written to GLK_CFG. -/
  | glkCfgWrite (w : Word)
  /-- NEIGHBOUR_EXPIRY (R247). -/
  | neighbourExpiry (tei : Nat)
  /-- TONE_MAP_RECEIVED (R248): the neighbour and its map. -/
  | toneMapReceived (tei : Nat) (map : ToneMap)
  /-- TONE_MAP_TIMEOUT (R248). -/
  | toneMapTimeout (tei : Nat) (why : ToneTimeout)
  /-- TONE_MAP_REESTIMATE (R248 row 5). -/
  | toneMapReestimate (tei : Nat)
  /-- SACK_RECEIVED (R249). -/
  | sackReceived (s : Sack)
  /-- MSDU_LIFETIME_EXPIRY (R249). -/
  | msduLifetimeExpiry
  /-- REASSEMBLY_TIMEOUT (R249): the sending station. -/
  | reassemblyTimeout (tei : Nat)
  /-- GLK_ZC_IND_SEND (R250). -/
  | glkZcIndSend
  /-- GLK_ZC_IND (R250, R251): the sending station and its message. -/
  | glkZcInd (tei : Nat) (msg : ZcMessage)
  /-- GLK_WAKE_IND (R252): the payload. -/
  | glkWakeInd (payload : Bytes)
  /-- WAKE_INHIBIT_END (R252). -/
  | wakeInhibitEnd
  /-- ETH_LINK_POLL (R254): link up, 100 Mbit/s, full duplex. -/
  | ethLinkPoll (up fast full : Bool)
  /-- BACKHAUL_FAILOVER (R254). -/
  | backhaulFailover
  /-- ETH_MDIO_GO (R256): the word written to ETH_MDIO. -/
  | ethMdioGo (w : Word)
  /-- ETH_MDIO_DONE (R256): the data read from the PHY. -/
  | ethMdioDone (data : Nat)
  /-- SECOND_BOUNDARY (R266). -/
  | secondBoundary
  /-- DOMAIN_HOLDOVER_EXPIRY (R262). -/
  | domainHoldoverExpiry (d : Nat)
  /-- SLEW_COMPLETE (R264, R263): a domain's slew, or (`now`) NOW's convergence. -/
  | slewComplete (d : Nat) (now : Bool)
  /-- RTC_CALIBRATION (R270): the measured error, 0.01 ppm. -/
  | rtcCalibration (err : Int)
  /-- ALARM_FIRE (R271). -/
  | alarmFire
  /-- TIM_SET (R272), a ring command: domain and timestamp. -/
  | timSet (r : Req) (d ts : Nat)
  /-- TIM_OFFSET (R272), a ring command. -/
  | timOffset (r : Req) (d : Nat) (ns : Int)
  /-- TIM_SELECT (R272), a ring command. -/
  | timSelect (r : Req) (d : Nat)
  /-- TIM_INC_WRITE (R260). -/
  | timIncWrite (d : Nat) (w : Word)
  /-- TIM_ALARM_HI_WRITE (R271). -/
  | timAlarmHiWrite (w : Word)
  /-- TIM_PTPF_POP (R268). -/
  | timPtpfPop
  /-- TIM_NOW_LO_READ (R269). -/
  | timNowLoRead (view : Side)
  /-- TIM_DOM_TS_LO_READ (R273). -/
  | timDomTsLoRead (view : Side) (d : Nat)
  /-- TIM_BCN_TS_LO_READ (R268). -/
  | timBcnTsLoRead (view : Side)
  /-- TIM_STATUS_READ (R273). -/
  | timStatusRead (view : Side)
  /-- FIELD_DETECTION (R277). -/
  | fieldDetection
  /-- FULL_POLL (R278). -/
  | fullPoll (p : PollInput)
  /-- TAG_HOLD_EXPIRY (R288). -/
  | tagHoldExpiry
  /-- LIMP_HIT_EXPIRY (R285). -/
  | limpHitExpiry
  /-- TAG_XFER (R288), a ring command: the APDU and what each transmission meets, the first and two repeats. -/
  | tagXfer (r : Req) (apdu : Bytes) (tries : List XferTry)
  /-- TAG_RELEASE (R298), a ring command. -/
  | tagRelease (r : Req)
  /-- TAG_CACHE_PUT (R286), a ring command: entries of 14 bytes. -/
  | tagCachePut (r : Req) (entries : List Bytes)
  /-- TAG_CACHE_DEL (R286), a ring command: the 8-byte key. -/
  | tagCacheDel (r : Req) (key : Nat)
  /-- TAG_CACHE_GET (R298), a ring command. -/
  | tagCacheGet (r : Req) (key : Nat)
  /-- TAG_CACHE_CLEAR (R286), a ring command. -/
  | tagCacheClear (r : Req)
  /-- CACHE_MIRROR (R286). -/
  | cacheMirror
  /-- TAG_CT_SECURE (R298), a ring command. -/
  | tagCtSecure (r : Req)
  /-- TAG_CT_OPEN (R298), a ring command. -/
  | tagCtOpen (r : Req)
  /-- TAG_CT_PUBLISH (R298), a ring command. -/
  | tagCtPublish (r : Req) (data : Bytes)
  /-- TAG_CT_ADOPT (R297), a ring command. -/
  | tagCtAdopt (r : Req)
  /-- TAG_RPT_POP (R287). -/
  | tagRptPop
  /-- TAG_STATUS_READ (R299). -/
  | tagStatusRead (view : Side)
  /-- CT_READ_BLOCK (R291): first block and number of blocks. -/
  | ctReadBlock (block count : Nat)
  /-- CT_WRITE_SINGLE_BLOCK (R296): whether the reserve carries the write, and where the field may cut it. -/
  | ctWriteSingleBlock (block : Nat) (data : Bytes) (reserve : Bool) (cut : WriteCut)
  /-- CT_GET_CHALLENGE (R294). -/
  | ctGetChallenge
  /-- CT_AUTH_WRITE (R294): block, data, MAC; reserve and cut as for a plain write. -/
  | ctAuthWrite (block : Nat) (data mac : Bytes) (reserve : Bool) (cut : WriteCut)
  /-- CT_FIELD_CHANGE (R296): field present; at 1.0 A/m or more VHARV is connected; absent for 1 s (R294). -/
  | ctFieldChange (present harvest absent1s : Bool)
  /-- EPD_UPDATE (R308), a ring command: region, FLAGS, and the packed targets. -/
  | epdUpdate (r : Req) (region flags : Nat) (targets : Bytes)
  /-- EPD_FRAME (R309). -/
  | epdFrame
  /-- LEGAL_DWELL (R310). -/
  | legalDwell
  /-- EPD_TEMP_WRITE (R306). -/
  | epdTempWrite (w : Word)
  /-- EPD_STOP (R311). -/
  | epdStop
  /-- CRACK_LOOP_MEASURE (R314): the resistance, and whether EPD_CRK_IN follows the driven level. -/
  | crackLoopMeasure (ohms : Nat) (follows : Bool)
  /-- LED_STEP (R316): the step time, 0–3. -/
  | ledStep (step : Nat)
  /-- LED_OPEN (R315): onset, or the channel holds its current again. -/
  | ledOpen (ch : Nat) (isOpen : Bool)
  /-- KEY_UPDATE (R337), a ring command: the message. -/
  | keyUpdate (r : Req) (msg : Bytes)
  /-- KEY_ATTEST (R343), a ring command. -/
  | keyAttest (r : Req) (nonce : Bytes)
  /-- KEY_CERT_READ (R344), a ring command. -/
  | keyCertRead (r : Req)
  /-- KEY_CHALLENGE (R327), a ring command. -/
  | keyChallenge (r : Req)
  /-- KEY_MAINT_PROVE (R327), a ring command. -/
  | keyMaintProve (r : Req) (sig : Bytes)
  /-- KEY_ZEROISE (R341), a ring command. -/
  | keyZeroise (r : Req) (mask : Nat)
  /-- MAINT_GRANT_EXPIRY (R327). -/
  | maintGrantExpiry
  /-- MAINT_AUTHORITY_EXPIRY (R327): a side's authority, or (`challenge`) its challenge. -/
  | maintAuthorityExpiry (side : Side) (challenge : Bool)
  /-- TAMPER_DETECT (R341): the detector. -/
  | tamperDetect (detector : Nat)
  /-- KEY_CNT_LO_READ (R345). -/
  | keyCntLoRead (view : Side)
  /-- KEY_STATUS_READ (R345). -/
  | keyStatusRead (view : Side)
  /-- UPD_BEGIN (R351), a ring command: the header. -/
  | updBegin (r : Req) (header : Bytes)
  /-- UPD_DATA (R352), a ring command. -/
  | updData (r : Req) (offset : Nat) (data : Bytes)
  /-- UPD_END (R352), a ring command. -/
  | updEnd (r : Req)
  /-- UPD_ABORT (R361), a ring command. -/
  | updAbort (r : Req)
  /-- UPD_TRANSFER_TIMEOUT (R352). -/
  | updTransferTimeout
  /-- UPD_ACTIVATE (R354, R359), a ring command. -/
  | updActivate (r : Req) (kind : Nat)
  /-- UPD_CONFIRM (R361), a ring command. -/
  | updConfirm (r : Req)
  /-- TRIAL_PASS (R357). -/
  | trialPass
  /-- TRIAL_FAIL (R358): the criterion broken. -/
  | trialFail (criterion : Nat)
  /-- BADGER_WATCHDOG_EXPIRY (R365). -/
  | badgerWatchdogExpiry
  /-- APP_HEARTBEAT_TIMEOUT (R366): cause 0 heartbeat, 1 watchdog, 2 start. -/
  | appHeartbeatTimeout (cause : Nat)
  /-- MGT_AMB_HB_WRITE (R366). -/
  | mgtAmbHbWrite (w : Word)
  /-- MAILBOX_DOORBELL (R367): a side sets its doorbell to Badger. -/
  | mailboxDoorbell (side : Side)
  /-- MONITOR_EVALUATE (R368). -/
  | monitorEvaluate (m : MonitorInput)
  /-- CLOCK_FAIL (R368): a PLL unlocked, else XTAL_MAIN_IN out of range. -/
  | clockFail (pll : Bool)
  /-- LOG_ARCHIVE_FLUSH (R371): whether the write to Squirrel succeeds. -/
  | logArchiveFlush (ok : Bool)
  /-- MGT_LOG_READ (R373), a ring command. -/
  | mgtLogRead (r : Req) (start count : Nat)
  /-- MGT_LOG_ACK (R373), a ring command. -/
  | mgtLogAck (r : Req) (seq : Nat)
  /-- MGT_RESTART (R397), a ring command. -/
  | mgtRestart (r : Req)
  /-- SLEEP (R375), a ring command. -/
  | sleep (r : Req) (target : Nat)
  /-- SLEEP_VOTE_TIMEOUT (R376): voters that have answered REFUSE or not at all, beyond those R375 makes refuse. -/
  | sleepVoteTimeout (late : Nat)
  /-- SLEEP_COMMIT (R377 row 3). -/
  | sleepCommit
  /-- SLEEP_ARM (R377 row 5). -/
  | sleepArm
  /-- SLEEP_ENTER (R377 row 7). -/
  | sleepEnter
  /-- WAKE_EVENT (R379): the sources asserted, as bits of SYS_WAKESRC; `command`: a new ring command during entry. -/
  | wakeEvent (srcs : Nat) (command : Bool)
  /-- MODE_SET (R380), a ring command. -/
  | modeSet (r : Req) (target : Nat)
  /-- LIMP_EXIT (R374 row 5). -/
  | limpExit
  /-- SYS_WAKE_WRITE (R380). -/
  | sysWakeWrite (w : Word)
  /-- SYS_WAKESRC_READ (R383). -/
  | sysWakesrcRead (view : Side)
  /-- REGISTER_WRITE (R389): a view, the first offset, and the words of the burst. -/
  | registerWrite (view : Side) (addr : Nat) (words : List Word)
  /-- BUFFER_WRITE (R389): offset in the side's half of exchange memory, and the data. -/
  | bufferWrite (side : Side) (off : Nat) (data : Bytes)
  /-- HSI_TRANSACTION_ERROR (R390, R391): the transaction. -/
  | hsiTransactionError (f : HsiFrame)
  /-- HSI_FRAME_TIMEOUT (R391 row 6). -/
  | hsiFrameTimeout
  /-- CTAIL_WRITE (R395). -/
  | ctailWrite (side : Side) (w : Word)
  /-- HSI_RELEASE_WRITE (R400). -/
  | hsiReleaseWrite (side : Side) (w : Word)
  /-- RESULT_SLOT_READ (R400): a completed read of a slot header. -/
  | resultSlotRead (side : Side) (tag : Nat)
  /-- BADGER_COMMAND_TIMEOUT (R396): a command Badger has not taken within 100 ms. -/
  | badgerCommandTimeout (r : Req)
  /-- HSI_NOP (R397), a ring command. -/
  | hsiNop (r : Req) (params : Bytes)
  /-- CAN_STUCK (R409): dominant for 2 ms, or 11 recessive bits. -/
  | canStuck (c : Nat) (stuck : Bool)
  /-- CAN_BUSOFF_RECOVERY (R409): after 128 recessive sequences, or (`toggle`) by an EN toggle. -/
  | canBusoffRecovery (c : Nat) (toggle : Bool)
  /-- CAN_ERROR_STATE_CHANGE (R409): the controller's error counters. -/
  | canErrorStateChange (c tec rec : Nat)
  /-- POWER_FAIL_WARNING (R418, R423): the source is the VHOLD threshold (else PFAIL_N), VHOLD in mV, and the words
  received so far of the interval in progress of each outlet (R101). -/
  | powerFailWarning (vhold : Bool) (mv : Nat) (parts : List (Nat × IntervalInput))
  /-- HOLDUP_COMPLETE (R423 step 8): the time from the warning, 0.1 ms. -/
  | holdupComplete (duration : Nat)
  /-- RST_N_ASSERT (R419): low for 1 µs, or (`long`) for 10 s. -/
  | rstNAssert (long : Bool)
  /-- BROWNOUT (R419): the rail, as a bit number of PIN_BANK, 9 for VDDC. -/
  | brownout (rail : Nat)
  /-- VBAT_POR (R419). -/
  | vbatPor
  /-- SYS_RSTREQ_WRITE (R429). -/
  | sysRstreqWrite (w : Word)
  /-- REQUESTED_RESET (R421). -/
  | requestedReset
  /-- WARREN_ACTIVATION_COMPLETE (R42). -/
  | warrenActivationComplete
  /-- MET_FIRMWARE_RELOADED (R83). -/
  | metFirmwareReloaded
  /-- BADGER_READY (R365). -/
  | badgerReady
  /-- LED_OVERTEMP (R315): above 150 °C, or below 130 °C again. -/
  | ledOvertemp (ch : Nat) (hot : Bool)
  /-- FAST_TAP_WORD (R169): a 512 kS/s word of a lane. -/
  | fastTapWord (lane : Nat) (word : TapInput)
  /-- REDUCED_FIELD_MEASUREMENT (R277): the antenna amplitude. -/
  | reducedFieldMeasurement (amp : Nat)
  /-- MODULATOR_CLOCK_RETURN (R69). -/
  | modulatorClockReturn (lane : Nat)
  deriving DecidableEq, Repr

end Sys2Proof
end

