-- ==== Sys2Proof/Config.lean ====
section
/-! DEFINITION. What an implementation or a standard fixes and the spec does not compute: the free values, and the
cryptographic and standard functions as constants with no body. No proof can see a value of any of them. -/

namespace Sys2Proof.Config

/-! Free values: a fresh one per draw, by the state's draw counter (log 5). -/

/-- A free number. -/
opaque freeNat : Nat → Nat
/-- A free bit. -/
opaque freeBool : Nat → Bool
/-- A free string of bytes (random bytes, an undefined content). -/
opaque freeBytes : Nat → Bytes

/-! Cryptographic functions (R329). -/

/-- ECDSA verification: public key, message, signature (curve and hash by the key). -/
opaque verify : Bytes → Bytes → Bytes → Bool
/-- An ECDSA signature: private key, message, draw. -/
opaque sign : Bytes → Bytes → Nat → Bytes
/-- The public key of a private key, uncompressed. -/
opaque publicKey : Bytes → Bytes
/-- SHA-384. -/
opaque sha384 : Bytes → Bytes
/-- SHA-256. -/
opaque sha256 : Bytes → Bytes
/-- AES-256-GCM opening: key, IV, additional data, ciphertext, tag; none when the tag fails. -/
opaque gcmOpen : Bytes → Bytes → Bytes → Bytes → Bytes → Option Bytes
/-- AES-256-GCM sealing: key, IV, additional data, plaintext; the ciphertext and the 16-byte tag. -/
opaque gcmSeal : Bytes → Bytes → Bytes → Bytes → Bytes × Bytes
/-- HKDF-SHA-384: secret, info. -/
opaque hkdf : Bytes → Bytes → Bytes
/-- ECDH: private key, public key. -/
opaque ecdh : Bytes → Bytes → Bytes
/-- AES-CMAC: key, message. -/
opaque cmac : Bytes → Bytes → Bytes
/-- The password derivation of R201: salt, password. -/
opaque pbkdf2 : Bytes → Bytes → Bytes

/-! Prepayment tokens (R145): IEC 62055-41 as a function of the standard. -/

/-- The token class that the transposed class bits of a 66-bit token give. -/
opaque tokenClass : Nat → Nat
/-- A token opened with a decoder key and its PARAM: class, subclass, TID, amount in 0.1 kWh; none when the CRC-16 fails. -/
opaque tokenOpen : Bytes → Nat → Nat → Option (Nat × Nat × Nat × Nat)
/-- The base date that a decoder key's PARAM names: true for 2014, false for 1993. -/
opaque base2014 : Nat → Bool

/-! Signal processing whose coefficients the spec does not give. -/

/-- The 1,024-phase, 8-tap interpolator of stage 4 (R60): phase and the eight words, newest first. -/
opaque interpolate : Nat → List Int → Int
/-- The sum of the ±1 modulator bits over 2^20 clocks at the full-scale input (R53: 1,000 mV differential peak, R440). -/
opaque modFull : Nat
/-- The resampler's interpolation (R62, R68): grid rate in mHz (its cut-off is 0.45 × the grid rate), the instant before
the newest word in 1/65,536 sample, and the 16 words, newest first. -/
opaque resample : Nat → Nat → List Int → Int
/-- The two half-band stages of a DC lane (R64): the 16 words, newest first. -/
opaque halfBand : List Int → Int
/-- One step of the 200 Hz low-pass filter of the reference (R62): its memory, the output first, and the next word. -/
opaque refFilter : List Int → Int → List Int
/-- One step of the 2 kHz band limit of the AC residual current (R170): its memory, the output first, and the next word. -/
opaque bandLimit : List Int → Int → List Int

/-- The NID that IEEE 1901 derives from an NMK (R246). -/
opaque nidOf : Bytes → Nat

/-! Fixed at manufacture (R322–R324). -/

/-- The unique device secret. -/
opaque uds : Bytes
/-- The test root and the factory root. -/
opaque testRoot : Bytes
opaque factoryRoot : Bytes
/-- The device certificate (R323). -/
opaque certificate : Bytes
/-- The source MAC address of the frames Owl sends (R205 names none, log 37). -/
opaque ownMac : Bytes
/-- The manufacturer code in the commissioning tag's UID (R290). -/
opaque tagMaker : Nat

end Sys2Proof.Config
end

