-- ==== Sys2Proof/Machine/Bits.lean ====
section
/-! DEFINITION. Bit fields, byte order (R11), saturating and wrapping counters, check words (CRC-32C, CRC-16,
CRC-8) and list updates, shared by every block. -/

namespace Sys2Proof.Machine

/-- Field [hi:lo] of a register word held as a number. -/
def field (w hi lo : Nat) : Nat := w / 2 ^ lo % 2 ^ (hi - lo + 1)

/-- The number of ones among the lowest `n` bits. -/
def ones (n w : Nat) : Nat := (List.range n).countP fun i => w / 2 ^ i % 2 == 1

/-- Bit `n` of a register word held as a number. -/
def bitAt (w n : Nat) : Bool := w / 2 ^ n % 2 == 1

/-- A flag as a bit at position `n`. -/
def flagAt (b : Bool) (n : Nat) : Nat := if b then 2 ^ n else 0

/-- A word read as a signed number of `n` bits (two's complement). -/
def signedOf (n w : Nat) : Int :=
  if w % 2 ^ n < 2 ^ (n - 1) then (w % 2 ^ n : Nat) else (w % 2 ^ n : Nat) - (2 ^ n : Nat)

/-- The `n`-bit two's complement pattern of a number. -/
def unsignedOf (n : Nat) (x : Int) : Nat := (x % (2 ^ n : Nat)).toNat

/-- A counter of `n` bits that stops at its largest value. -/
def satInc (n c : Nat) : Nat := if c + 1 < 2 ^ n then c + 1 else 2 ^ n - 1

/-- Addition into a counter of `n` bits that stops at its largest value. -/
def satAdd (n c k : Nat) : Nat := if c + k < 2 ^ n then c + k else 2 ^ n - 1

/-- Signed saturation to `n` bits. -/
def satSigned (n : Nat) (x : Int) : Int :=
  if x > 2 ^ (n - 1) - 1 then 2 ^ (n - 1) - 1 else if x < -(2 ^ (n - 1)) then -(2 ^ (n - 1)) else x

/-- Rounding to nearest of `x / d`; where two are equally near, the upper when `up`. -/
def rnd (up : Bool) (x : Int) (d : Nat) : Int :=
  let r := x % (d : Int)
  let q := x / (d : Int)
  if 2 * r > d ∨ (2 * r = d ∧ up) then q + 1 else q

/-- A quotient whose rounding the spec leaves open: the integer below or, by the free bit, above. -/
def openQuot (up : Bool) (x : Int) (d : Nat) : Int := if up ∧ x % (d : Int) ≠ 0 then x / (d : Int) + 1 else x / (d : Int)

/-- Integer square root by bits, from bit `n` down. -/
def isqrtFrom : Nat → Nat → Nat → Nat
  | 0, _, r => r
  | n + 1, x, r => let t := r + 2 ^ n; if t * t ≤ x then isqrtFrom n x t else isqrtFrom n x r

/-- Integer square root of a number below 2^128. -/
def isqrt (x : Nat) : Nat := isqrtFrom 64 x 0

/-- Square root of a quotient, whose rounding the spec leaves open: the root below or, by the free bit, above (log 18). -/
def openSqrt (up : Bool) (x d : Nat) : Nat := let r := isqrt (x / d); if up && r * r * d != x then r + 1 else r

/-- `n` terms of the series of 2^60 · e^(−num/den), from term `j` of value `t`. -/
def expSeries : Nat → Nat → Nat → Nat → Int → Int
  | 0, _, _, _, _ => 0
  | n + 1, num, den, j, t => t + expSeries n num den (j + 1) (-(t * num) / (den * (j + 1) : Nat))

/-- 2^60 · e^(−num/den) for num ≤ den: the decay of a first-order filter over one step (log 32). -/
def expNeg (num den : Nat) : Nat := (expSeries 24 num den 0 (2 ^ 60)).toNat

/-- A number limited to a range. -/
def clamp (lo hi x : Int) : Int := if x < lo then lo else if x > hi then hi else x

/-- `n` little-endian bytes of a number (R11). -/
def leBytes : Nat → Nat → Bytes
  | 0, _ => []
  | n + 1, w => BitVec.ofNat 8 w :: leBytes n (w / 256)

/-- The number that little-endian bytes hold (R11). -/
def leNat : Bytes → Nat
  | [] => 0
  | b :: bs => b.toNat + 256 * leNat bs

/-- `n` bytes from offset `o`, fewer where the string ends. -/
def slice (o n : Nat) (bs : Bytes) : Bytes := (bs.drop o).take n

/-- The little-endian number in `n` bytes at offset `o`. -/
def leAt (o n : Nat) (bs : Bytes) : Nat := leNat (slice o n bs)

/-- One byte at offset `o`; 0 past the end. -/
def byteAt (o : Nat) (bs : Bytes) : Nat := (bs.getD o 0).toNat

/-- `n` big-endian bytes of a number (fields whose standard fixes that order, R11). -/
def beBytes (n w : Nat) : Bytes := (leBytes n w).reverse

/-- The number that big-endian bytes hold. -/
def beNat (bs : Bytes) : Nat := leNat bs.reverse

/-- `n` zero bytes. -/
def zeros (n : Nat) : Bytes := List.replicate n 0

/-- A string cut or zero-filled to exactly `n` bytes. -/
def fit (n : Nat) (bs : Bytes) : Bytes := bs.take n ++ zeros (n - bs.length)

/-- Replaces the bytes from offset `o`; the string keeps its length. -/
def overlay (o : Nat) (new bs : Bytes) : Bytes :=
  (bs.take o ++ new ++ bs.drop (o + new.length)).take bs.length

/-- One bit step of a reflected 32-bit CRC with polynomial `poly`. -/
def crc32Bit (poly c : Nat) : Nat := if c % 2 == 1 then Nat.xor (c / 2) poly else c / 2

/-- One byte of a reflected 32-bit CRC. -/
def crc32Byte (poly c : Nat) (b : Byte) : Nat :=
  let c0 := Nat.xor c b.toNat
  crc32Bit poly (crc32Bit poly (crc32Bit poly (crc32Bit poly
    (crc32Bit poly (crc32Bit poly (crc32Bit poly (crc32Bit poly c0)))))))

/-- CRC-32C (Castagnoli, reflected polynomial 0x82F6_3B78, initial and final value all ones). -/
def crc32c (bs : Bytes) : Nat := Nat.xor (bs.foldl (crc32Byte 0x82F63B78) 0xFFFFFFFF) 0xFFFFFFFF

/-- One bit step of a most-significant-bit-first CRC of `n` bits. -/
def crcMsbBit (n poly c : Nat) : Nat :=
  if c / 2 ^ (n - 1) % 2 == 1 then Nat.xor (2 * c % 2 ^ n) poly else 2 * c % 2 ^ n

/-- One byte of a most-significant-bit-first CRC of `n` bits. -/
def crcMsbByte (n poly c : Nat) (b : Byte) : Nat :=
  let c0 := Nat.xor c (b.toNat * 2 ^ (n - 8))
  crcMsbBit n poly (crcMsbBit n poly (crcMsbBit n poly (crcMsbBit n poly
    (crcMsbBit n poly (crcMsbBit n poly (crcMsbBit n poly (crcMsbBit n poly c0)))))))

/-- A most-significant-bit-first CRC of `n` bits over bytes. -/
def crcMsb (n poly init : Nat) (bs : Bytes) : Nat := bs.foldl (crcMsbByte n poly) init

/-- CRC-16 of R99 stage 3, with the polynomial 0x1021 and the start value 0xFFFF. -/
def crc16 (b : Bytes) : Nat := crcMsb 16 0x1021 0xFFFF b

/-- The last `n` elements of a list. -/
def keepLast {α : Type} (n : Nat) (l : List α) : List α := l.drop (l.length - n)

/-- Element `i` of a list of instances. -/
def nth {α : Type} [Inhabited α] (l : List α) (i : Nat) : α := l.getD i default

/-- Changes element `i` of a list of instances; out of range, nothing changes. -/
def upd {α : Type} (l : List α) (i : Nat) (f : α → α) : List α := l.modify i f

end Sys2Proof.Machine
end

