-- ==== Sys2Proof/Machine/State.lean ====
section
/-! DEFINITION. The state of the HKV-4480 as the spec gives it, block by block, as plain data; the reasons a step can
stop; and the state after a cold reset. Each field's comment names the register or the piece of state, its width, the
rule that names it, and its reset value. -/

namespace Sys2Proof.Machine

/-! ## Structure image records (R27, R31, R34) -/

/-- LANE record 0x0101 (R27). -/
structure LaneRec where
  lane : Nat
  /-- 0 OFF, 1 MEASURE, 2 SPARE. -/
  role : Nat
  /-- Quantity code (R28). -/
  qty : Nat
  cic : Nat
  outlet : Nat
  group : Nat
  fir : Nat
  deriving DecidableEq, Repr, Inhabited

/-- OUTLET record 0x0102 (R27). -/
structure OutletRec where
  outlet : Nat
  /-- 1 AC, 2 DC. -/
  kind : Nat
  groups : Nat
  unbilled : Bool
  nomMv : Nat
  nomMHz : Nat
  ratedMa : Nat
  deriving DecidableEq, Repr, Inhabited

/-- PHASE_GROUP record 0x0103 (R27). -/
structure GroupRec where
  outlet : Nat
  group : Nat
  phase : Nat
  vLane : Nat
  cLane : Nat
  deriving DecidableEq, Repr, Inhabited

/-- METER_CONST record 0x0104 (R27). -/
structure MeterRec where
  outlet : Nat
  pulse : Nat
  widthMs : Nat
  impPerKwh : Nat
  cableUohm : Nat
  deriving DecidableEq, Repr, Inhabited

/-- CAL record 0x0105 (R27). -/
structure CalRec where
  lane : Nat
  delay : Nat
  gain : Nat
  deriving DecidableEq, Repr, Inhabited

/-- FIR_SET record 0x0106 (R27). -/
structure FirRec where
  set : Nat
  taps : List Int
  deriving DecidableEq, Repr, Inhabited

/-- CONTACTOR record 0x0201 (R31). -/
structure ContactorRec where
  outlet : Nat
  channel : Nat
  pole : Nat
  deriving DecidableEq, Repr, Inhabited

/-- GATE_ENABLE record 0x0202 (R31). -/
structure GateRec where
  output : Nat
  outlet : Nat
  activeLow : Bool
  deriving DecidableEq, Repr, Inhabited

/-- GUARD record 0x0203 (R31). -/
structure GuardRec where
  input : Nat
  /-- 1 outlet lid, 2 service door, 3 emergency stop. -/
  kind : Nat
  mask : Nat
  polarity : Nat
  debounce : Nat
  deriving DecidableEq, Repr, Inhabited

/-- TRIP record 0x0204 (R31, R32). -/
structure TripRec where
  kind : Nat
  inst : Nat
  mask : Nat
  threshold : Int
  delay : Nat
  deriving DecidableEq, Repr, Inhabited

/-- LIMP_POLICY record 0x0205 (R31, R33). -/
structure LimpRec where
  outlet : Nat
  mode : Nat
  current : Nat
  deriving DecidableEq, Repr, Inhabited

/-- SWITCH record 0x0302 (R34). -/
structure SwitchRec where
  channel : Nat
  outlet : Nat
  func : Nat
  thermAutoclr : Bool
  openloadOn : Bool
  openloadOff : Bool
  inrushMs : Nat
  retries : Nat
  deriving DecidableEq, Repr, Inhabited

/-- LIMP_MAP record 0x0303 (R34). -/
structure LimpMapRec where
  input : Nat
  action : Nat
  mask : Nat
  deriving DecidableEq, Repr, Inhabited

/-- PINMUX record 0x0304 (R34). -/
structure PinmuxRec where
  ball : Nat
  func : Nat
  deriving DecidableEq, Repr, Inhabited

/-- DISPLAY_REGION record 0x0305 (R34). -/
structure RegionRec where
  region : Nat
  common : Nat
  segs : List Nat
  deriving DecidableEq, Repr, Inhabited

/-- LED record 0x0306 (R34). -/
structure LedRec where
  channel : Nat
  role : Nat
  outlet : Nat
  ma : Nat
  deriving DecidableEq, Repr, Inhabited

/-- GLK_NOTCH record 0x0307 (R34). -/
structure NotchRec where
  adds : Bool
  ranges : List (Nat × Nat)
  deriving DecidableEq, Repr, Inhabited

/-- The structure a Warren copy declares (R19): its records, section by section. -/
structure Struct where
  seq : Nat
  sealVer : Nat
  safeVer : Nat
  openVer : Nat
  lanes : List LaneRec
  outlets : List OutletRec
  groups : List GroupRec
  meters : List MeterRec
  cals : List CalRec
  firs : List FirRec
  metDigest : Bytes
  saveS : Nat
  contactors : List ContactorRec
  gates : List GateRec
  guards : List GuardRec
  trips : List TripRec
  limps : List LimpRec
  blocks : Nat
  switches : List SwitchRec
  limpMaps : List LimpMapRec
  pinmux : List PinmuxRec
  regions : List RegionRec
  leds : List LedRec
  notch : Option NotchRec
  deriving DecidableEq, Repr, Inhabited

/-- State word of a Warren selector block (R20). -/
inductive SelState where
  | empty | trial | committed
  deriving DecidableEq, Repr, Inhabited

/-- One copy of the Warren flash partition with its selector block (R20). A selector whose CRC-32C fails counts as
EMPTY, so it is held as empty. -/
structure WarrenCopy where
  bytes : Bytes
  sel : SelState
  selSeq : Nat
  deriving DecidableEq, Repr, Inhabited

/-- A running activation (R42, R43), from acceptance to its posted result. -/
structure Activation where
  req : Option Req
  /-- The copy being activated, 0 for A and 1 for B, and the side that asked. -/
  copy : Nat
  side : Side
  deriving DecidableEq, Repr, Inhabited

/-- The structure block: the Warren partition and the STR registers. -/
structure StrBlock where
  /-- Copy A and copy B of the Warren flash partition. [2 × 65,536 bytes, 2 selector blocks] (R20) kept by every reset; first: empty -/
  copies : List WarrenCopy
  /-- The structure in force; empty with NOSTRUCT = 1. [records] (R19, R38) rebuilt at every reset -/
  cur : Struct
  /-- STR_STATUS.COPY. [2] (R46) warm 0 until boot -/
  copyInUse : Nat
  /-- STR_STATUS.NOSTRUCT. [1] (R46) warm 0 until boot -/
  noStruct : Bool
  /-- STR_STATUS.FALLBACK. [1] (R46) warm 0 until boot -/
  fallback : Bool
  /-- STR_STATUS.LOCKED. [1] (R46) warm 0 until boot -/
  locked : Bool
  /-- STR_STATUS.LAST_RC. [8] (R46) warm 0 -/
  lastRc : Nat
  /-- STR_REJECT.ACT_REASON. [8] (R46) warm 0 -/
  actReason : Nat
  /-- STR_REJECT.A_REASON. [8] (R46) warm 0 until boot -/
  aReason : Nat
  /-- STR_REJECT.B_REASON. [8] (R46) warm 0 until boot -/
  bReason : Nat
  /-- STR_SEALCNT, loaded from the metrology store at every reset. [32] (R46) cold 0 -/
  sealCnt : Nat
  /-- STR_LANEn.SUBST, the lane carrying lane n's function. [40 × 8] (R46) warm 0 until boot -/
  subst : List Nat
  /-- STR_STATUS.ACT_BUSY with the running activation. [1] (R46, R42) warm: none -/
  act : Option Activation
  deriving DecidableEq, Repr, Inhabited

/-! ## Measurement lanes (R47–R80, R447) -/

/-- LANEn_STAT.HEALTH (R79); `absent` is a lane without a LANE record (R44), which reads 0. -/
inductive Health where
  | good | suspect | swapped | failed | idle | warming | serving | off | fused | absent
  deriving DecidableEq, Repr, Inhabited

/-- A word of the lane chain with the marks that travel with it (R67, R68). -/
structure LaneWord where
  val : Int
  /-- CRC-8 by R67. -/
  crc : Nat
  taint : Bool
  /-- The taint started at STUCK or CLKERR, so it passes without counting (R54). -/
  quiet : Bool
  /-- Stage code of the failed check at which the taint started; 0 without one. (R68) -/
  stage : Nat
  /-- A fault has struck the word since its check was formed, so the next stage finds its check failed. (R68) -/
  hit : Bool
  deriving DecidableEq, Repr, Inhabited

/-- Health triggers of R69. -/
inductive Trigger where
  | check | stuck | clkerr
  deriving DecidableEq, Repr, Inhabited

/-- One measurement lane. -/
structure Lane where
  /-- LANEn_STAT.HEALTH. [4] (R79) warm: from the structure -/
  health : Health
  /-- LANEn_STAT.PARTNER. [8] (R79) warm 0xFF -/
  partner : Nat
  /-- LANEn_STAT.STAGE. [4] (R79) warm 0 -/
  stage : Nat
  /-- LANEn_STAT.TRIAL and LANEn_CTL.TRIAL. [1] (R58, R79) warm 0 -/
  trial : Bool
  /-- Trial left; sealed values return at the next sample boundary. [1] (R58) warm 0 -/
  trialEnd : Bool
  /-- LANEn_STAT.BANK and FIRCTL.ACTIVE, true for bank B. [1] (R79) warm 0 -/
  bankB : Bool
  /-- LANEn_STAT.OVERLOAD. [1] (R54, R79) warm 0 -/
  overload : Bool
  /-- LANEn_STAT.STUCK. [1] (R54, R79) warm 0 -/
  stuck : Bool
  /-- The level of the stuck or overloaded bitstream's majority. [1] (R54) warm 0 -/
  high : Bool
  /-- The modulator bits of the last frame, for the density over 256 clocks. [128] (R54) warm 0 DESIGN CHOICE (log 3) -/
  bits : Nat
  /-- Integrators and combs of the CIC decimator, as many as its order. [2 × 5 × 64] (R55) warm 0 -/
  cicInt : List Nat
  cicComb : List Nat
  /-- Integrators and combs of the fast tap's order-2 CIC. [4 × 64] (R61) warm 0 -/
  tapInt : List Nat
  tapComb : List Nat
  /-- The latest fast-tap word and its parity bit. [16 + 1] (R61) warm 0 -/
  tap : Int
  tapParity : Bool
  /-- LANEn_STAT.CLKERR. [1] (R54, R79) warm 0 -/
  clkerr : Bool
  /-- LANEn_CTL.ENV_DECAY. [16] (R79) warm 100 -/
  envDecay : Nat
  /-- LANEn_GAIN. [24] (R79) warm: CAL record -/
  gain : Nat
  /-- LANEn_DELAY. [13] (R79) warm: CAL record -/
  delay : Nat
  /-- The CIC order in use. [3] (R55, R72) warm: LANE record -/
  cic : Nat
  /-- LANEn_FIRCTL.INDEX. [6] (R79) warm 0 -/
  firIndex : Nat
  /-- LANEn_FIRCTL.CRCERR. [1] (R79) warm 0 -/
  crcErr : Bool
  /-- LANEn_FIRCTL.SWAP. [1] (R57, R79) warm 0 -/
  swap : Bool
  /-- LANEn_FIRCRC. [32] (R79) warm 0 DESIGN CHOICE (log 3) -/
  firCrc : Nat
  /-- Coefficient banks A and B. [2 × 64 × 32] (R56) warm: A from the FIR set; B 0 DESIGN CHOICE (log 3) -/
  bankA : List Int
  bankBTaps : List Int
  /-- The FIR delay line, newest first. [64 words] (R56) warm: empty (filters refill) -/
  hist : List LaneWord
  /-- The gain output line for delay and interpolation, newest first. [12 words] (R60) warm: empty -/
  dly : List LaneWord
  /-- The last lane sample words, newest first, for stage 5. [16 words] (R68) warm: empty -/
  out : List LaneWord
  /-- LANEn_SAMPLE.SEQ. [2] (R79) warm 0 -/
  seq : Nat
  /-- LANEn_SAMPLE.VALUE with its taint. [24] (R79) warm 0 -/
  sample : LaneWord
  /-- Peak so far in the open window. [24] (R65) warm 0 -/
  peakAcc : Nat
  /-- The running envelope. [24] (R65) warm 0 -/
  envAcc : Nat
  /-- OVERLOAD seen in the open window, in the one before, and since the last envelope update. [3] (R65) warm 0 -/
  overWin : Bool
  overPrev : Bool
  overEnv : Bool
  /-- LANEn_PEAK, LANEn_RMS, LANEn_ENV. [3 × 25] (R79) warm 0 -/
  peak : Nat
  peakOver : Bool
  rms : Nat
  rmsOver : Bool
  env : Nat
  envOver : Bool
  /-- LANEn_DETGEN. [16] (R79) warm 0 -/
  detGen : Nat
  /-- LANEn_CNT.CHKERR. [16] (R79) cold 0 -/
  chkErr : Nat
  /-- LANEn_CNT.OVLD. [8] (R79) cold 0 -/
  ovld : Nat
  /-- LANEn_CNT.STRIKES. [2] (R79) cold 0 -/
  strikes : Nat
  /-- A health trigger raised and not yet acted on by Badger. [2] (R69) warm: none -/
  trig : Option Trigger
  /-- Tick of the last EV_LANE_OVERLOAD. (R80: at most one in 60 s) warm: none -/
  ovldLogged : Option Nat
  deriving DecidableEq, Repr, Inhabited

/-- A warm-up in progress (R72): spare, the lane whose function is concerned, and the suspect carrying it. -/
structure Warmup where
  spare : Nat
  lane : Nat
  suspect : Nat
  /-- A trigger of R69 on the spare, or a further one on the suspect, during warm-up (R74). -/
  spareTrig : Option Trigger
  suspectTrig : Bool
  /-- Lane sample words of the spare since it was connected. (R72 step 5) -/
  age : Nat
  /-- The open 10 ms block: words compared, sum of absolute differences, sum of squares, a tainted word seen. (R73) -/
  blockN : Nat
  blockAbs : Nat
  blockSq : Nat
  blockBad : Bool
  /-- Words and sum of absolute differences of the closed blocks, and the largest block sum of squares. (R73) -/
  words : Nat
  sumAbs : Nat
  worstSq : Nat
  /-- Decided for a swap, its substitution record written; takes effect at the next sample boundary. -/
  decided : Option (Nat × Nat)
  deriving DecidableEq, Repr, Inhabited

/-- LANE_RSo_STAT.STATE (R79). -/
inductive RsState where
  | absent | locked | slew | frange | nofund | dc
  deriving DecidableEq, Repr, Inhabited

/-- A resampled word (R67): value, grid index, CRC-8, and its taint with the stage code at which it started. -/
structure GridWord where
  val : Int
  idx : Nat
  crc : Nat
  taint : Bool
  /-- The taint started at STUCK or CLKERR (R54). -/
  quiet : Bool
  stage : Nat
  deriving DecidableEq, Repr, Inhabited

/-- The resampled words of one lane function on an outlet's grid, newest first, at most 256. -/
structure GridLine where
  lane : Nat
  words : List GridWord
  deriving DecidableEq, Repr, Inhabited

/-- One outlet's resampler grid (R62, R63) or ÷4 decimator (R64). -/
structure Resampler where
  /-- LANE_RSo_STAT.STATE. [3] (R79) warm: NOFUND or DC by the structure -/
  state : RsState
  /-- LANE_RSo_FREQ, the grid rate in mHz. [32] (R79) warm: nominal -/
  freq : Nat
  /-- LANE_RSo_CYCLES. [32] (R79) warm 0 -/
  cycles : Nat
  /-- Consecutive cycles outside 40–70 Hz. (R63 row 2) warm 0 -/
  outOf : Nat
  /-- Consecutive cycles in range at or above 20 % of nominal. (R63 row 3) warm 0 -/
  inRange : Nat
  /-- Grid index of the next grid point. [8] (R62, R64) warm 0 -/
  idx : Nat
  /-- Part of a grid interval passed since the last grid point, in 1/32,000,000; DC: samples since the last word. (R62, R64) warm 0 -/
  phase : Nat
  /-- Phase adjustment in force, in 1/32,000,000 grid interval per sample. (R63 row 3) warm 0 -/
  adj : Int
  /-- A grid point due: its index, and how far before the reference word it lies, in 1/65,536 sample. warm: none -/
  due : Option (Nat × Nat)
  /-- Grid points formed since the last close of an interval, at most 256. (R84) warm 0 -/
  fill : Nat
  /-- Reference words since the start. (R62) warm 0 -/
  samples : Nat
  /-- The 200 Hz low-pass filter's memory, its output first. (R62) warm: empty -/
  filt : List Int
  /-- The filtered reference less the mean, at the last word. (R62) warm: none -/
  prev : Option Int
  /-- Sum and number of filtered words in the running grid cycle, and the mean over the last complete one. (R62) warm 0 -/
  sum : Int
  count : Nat
  mean : Int
  /-- Instant of the last positive-going zero crossing, in 1/65,536 sample. (R62) warm: none -/
  cross : Option Nat
  /-- The measured frequency, mHz. (R62) warm 0 -/
  measured : Nat
  /-- Grid index 0 lay within 1 grid point of the last crossing. (R63) warm 0 -/
  aligned : Bool
  /-- The resampled words of each lane function of the outlet. (R62, R64) warm: empty -/
  lines : List GridLine
  deriving DecidableEq, Repr, Inhabited

/-- The measurement front end. -/
structure LaneBlock where
  /-- The 40 lanes. (R48) -/
  lanes : List Lane
  /-- The four outlets' resamplers. (R63) -/
  rs : List Resampler
  /-- Suspect lanes waiting for a spare, in order of entry. (R71, R76) warm: none -/
  queue : List Nat
  /-- Warm-ups in progress, at most four. (R71) warm: none -/
  warm : List Warmup
  deriving DecidableEq, Repr, Inhabited

/-! ## Event records (R369) -/

/-- Class of an event record (R369). -/
inductive EvClass where
  | legal | safety | security | power | comm | service
  deriving DecidableEq, Repr, Inhabited

/-- An event record before Badger numbers it (R369): everything but SEQ and the check word. -/
structure Event where
  time : Nat
  cls : EvClass
  block : Nat
  inst : Nat
  flags : Nat
  code : Nat
  data : Bytes
  deriving DecidableEq, Repr, Inhabited

/-! ## Metrology core and store (R81–R121) -/

/-- One interval's contribution of a phase group, in accumulator units of 2^−16 mWh (R93, R96). -/
structure Contribution where
  p : Int
  q : Int
  s : Nat
  harm : List Int
  loss : Nat
  pMw : Int
  qMvar : Int
  deriving DecidableEq, Repr, Inhabited

/-- A phase group as the metrology core follows it. -/
structure MetGroup where
  /-- The last usable contribution since reset. (R96) warm: none -/
  last : Option Contribution
  /-- The last 64 voltage words, for the quadrature product. (R89) warm: none -/
  vTail : List Int
  /-- Length in intervals and first stage code of the running run of estimated intervals. (R96) warm 0 -/
  runLen : Nat
  runStage : Nat
  deriving DecidableEq, Repr, Inhabited

/-- One outlet as the metrology core keeps it. -/
structure MetOutlet where
  /-- Accumulators q = 0–9 with LSB 2^−16 mWh. [10 × 80] (R93) loaded from the store at every reset; first 0 (R117) -/
  acc : List Nat
  /-- Harmonic accumulators, orders 1–63. [63 × 80 signed] (R93) loaded from the store; first 0 (R117) -/
  harm : List Int
  /-- The inverted shadow copies of both. [73 × 80] (R100) the complements -/
  accInv : List Nat
  harmInv : List Nat
  /-- Phase groups. (R96) -/
  groups : List MetGroup
  /-- MET_OUTo_STAT.NOMETER. [1] (R119) warm 0 -/
  nometer : Bool
  /-- MET_OUTo_STAT.ESTIMATED, CREEP, EXPORT, HARM_INVALID. [4] (R119) warm 0 -/
  estimated : Bool
  creep : Bool
  exporting : Bool
  harmInvalid : Bool
  /-- MET_OUTo_STAT.QUADRANT. [2] (R119) warm 0 -/
  quadrant : Nat
  /-- MET_OUTo_P and MET_OUTo_Q. [2 × 32 signed] (R119) warm 0 -/
  pMw : Int
  qMvar : Int
  /-- MET_OUTo_CALP and CALQ. [2 × 64 signed] (R110, R119) warm 0 -/
  calP : Int
  calQ : Int
  /-- Running time of the present run of estimated, and of usable, intervals, ns. (R97) warm 0 -/
  estNs : Nat
  goodNs : Nat
  /-- Fractions of a second towards the unmetered and trial seconds, ns. (R97, R110) warm 0 -/
  nomNs : Nat
  trialNs : Nat
  /-- The outlet was in trial when last looked at. (R110) warm 0 -/
  inTrial : Bool
  /-- ESTIMATED since this outlet's previous snapshot. [1] (R104) warm 0 -/
  estSince : Bool
  /-- Metering session number, current or last. [32] (R104) kept in the store; first 0 -/
  session : Nat
  /-- A SESSION_START snapshot due at this outlet's next boundary. [1] (R102) warm 0 -/
  startDue : Bool
  /-- The session whose SESSION_END snapshot is due at this outlet's next boundary. [32] (R102, R228) warm: none -/
  endDue : Option Nat
  deriving DecidableEq, Repr, Inhabited

/-- Level phase of a pulse output (R108). -/
inductive PulsePhase where
  | idle | high | low
  deriving DecidableEq, Repr, Inhabited

/-- One pulse output. -/
structure Pulse where
  /-- MET_PULSEp_STAT.LEVEL with the phase of the pulse. [1] (R119) warm low -/
  phase : PulsePhase
  /-- The remainder, in accumulator units times the impulse constant. [80] (R108) saved; first 0 -/
  rem : Nat
  /-- MET_PULSEp_STAT.BACKLOG. [8] (R119) saved; first 0 -/
  backlog : Nat
  /-- MET_PULSEp_STAT.OVF. [1] (R119) warm 0 -/
  ovf : Bool
  /-- Pulses are being discarded (onset of R109). warm 0 -/
  ovfOn : Bool
  deriving DecidableEq, Repr, Inhabited

/-- A stored record with its sequence number and whether its check word matches. -/
structure Stored (α : Type) where
  seq : Nat
  ok : Bool
  val : α
  deriving DecidableEq, Repr, Inhabited

/-- Two alternately written copies of a record (R112, R129, R111). -/
structure Twin (α : Type) where
  a : Stored α
  b : Stored α
  deriving DecidableEq, Repr, Inhabited

/-- The legal counters (R112). -/
structure LegalCounters where
  generation : Nat
  outages : Nat
  est : List Nat
  unmetered : List Nat
  trial : List Nat
  rollovers : List Nat
  outageS : Nat
  saveFallbacks : Nat
  accRestores : Nat
  timeSteps : Nat
  deriving DecidableEq, Repr, Inhabited

/-- A sealed record (R111). -/
structure SealedRec where
  count : Nat
  digest : Bytes
  deriving DecidableEq, Repr, Inhabited

/-- A substitution record (R72, R111). -/
structure SubstRec where
  lane : Nat
  spare : Nat
  digest : Bytes
  /-- Its CRC-32C matches. -/
  ok : Bool
  deriving DecidableEq, Repr, Inhabited

/-! ## Billing (R122–R153) -/

/-- A daylight-saving change (R125): month, week 1–5, weekday 0 = Sunday, hour. -/
structure DstRule where
  month : Nat
  week : Nat
  weekday : Nat
  hour : Nat
  deriving DecidableEq, Repr, Inhabited

/-- A season (R125): start month and day, day profiles Monday to Sunday. -/
structure Season where
  month : Nat
  day : Nat
  profiles : List Nat
  deriving DecidableEq, Repr, Inhabited

/-- A special day (R125); year 0 is every year. -/
structure SpecialDay where
  year : Nat
  month : Nat
  day : Nat
  profile : Nat
  deriving DecidableEq, Repr, Inhabited

/-- A tariff calendar (R125). -/
structure Calendar where
  seq : Nat
  activation : Nat
  stdOffset : Int
  dstOffset : Nat
  dstUsed : Bool
  dstStart : DstRule
  dstEnd : DstRule
  billDay : Nat
  billHour : Nat
  billMinute : Nat
  /-- 1 block, 2 sliding. -/
  method : Nat
  period : Nat
  sub : Nat
  defaultTariff : Nat
  prepay : Nat
  seasons : List Season
  /-- Day profiles 0–31 as their used switch points (minute, tariff). -/
  profiles : List (List (Nat × Nat))
  specials : List SpecialDay
  deriving DecidableEq, Repr, Inhabited

/-- A calendar slot (R128): the record as it was loaded, its fields, and whether its CRC-32C matches. -/
structure CalSlot where
  cal : Calendar
  bytes : Bytes
  ok : Bool
  deriving DecidableEq, Repr, Inhabited

/-- The billing control record (R129). -/
structure BillCtl where
  lastBoundary : Nat
  lastBill : Nat
  period : Nat
  snapNext : Nat
  snapCount : Nat
  /-- Slot 0 or 1; none is 0xFF. -/
  activeSlot : Option Nat
  passiveSlot : Option Nat
  activeSeq : Nat
  passiveSeq : Nat
  highestSeq : Nat
  tidFloor : Nat
  passiveAct : Nat
  mirroredSeq : Nat
  deriving DecidableEq, Repr, Inhabited

/-- Running demand state of an outlet (R133), with the flags of each sub-interval (R132). -/
structure Demand where
  start : Nat
  irregular : Bool
  outage : Bool
  notFull : Bool
  subIndex : Nat
  subsClosed : Nat
  subE : List Nat
  subIrr : List Bool
  subOut : List Bool
  deriving DecidableEq, Repr, Inhabited

/-- One outlet's billing state. -/
structure BilOutlet where
  /-- CIMP tariff registers 1–8. [8 × 64] (R123) from the ledger; first 0 -/
  timp : List Nat
  /-- CEXP tariff registers 1–8. [8 × 64] (R123) from the ledger; first 0 -/
  texp : List Nat
  /-- Maximum demand of tariffs 1–8 in mW with its timestamp. [8 × (32 + 64)] (R132) from the ledger; first 0 -/
  md : List (Nat × Nat)
  /-- The tariff in force. [4] (R124) from the ledger; first 1 -/
  tariff : Nat
  /-- Running demand state. (R133) from the save; first empty -/
  demand : Demand
  /-- Timestamp up to which this outlet's demand and tariff boundaries are processed. [64] (R137) warm: the restart -/
  seen : Nat
  /-- BIL_OUTo_DLAST and its flags. [32 + 2] (R152) warm 0 -/
  dlast : Nat
  dlastIrr : Bool
  dlastOut : Bool
  /-- CIMP, CEXP, QI, QIV integers at the last quarter hour. [4 × 64] (R141) kept (log 36); first 0 -/
  profBase : List Nat
  /-- ESTIMATED, NOMETER, IRREGULAR, OUTAGE since the last quarter hour. [4] (R141) kept (log 36); first 0 -/
  profFlags : Nat
  /-- Load-profile records waiting for Badger, oldest first, at most 96. (R142) warm: none -/
  profQueue : List Bytes
  /-- Records discarded from the queue. (R142) warm 0 -/
  profLost : Nat
  deriving DecidableEq, Repr, Inhabited

/-- State word of a billing ring slot (R136). -/
inductive RingState where
  | empty | captured | signed
  deriving DecidableEq, Repr, Inhabited

/-- A slot of the billing snapshot ring (R136). -/
structure RingSlot where
  state : RingState
  bytes : Bytes
  deriving DecidableEq, Repr, Inhabited

/-- A boundary journal entry (R139). -/
structure JournalEntry where
  pending : Bool
  kind : Nat
  outlets : Nat
  irregular : Bool
  outage : Bool
  time : Nat
  arg : Nat
  saveSeq : Nat
  /-- Its CRC-32C matches. -/
  ok : Bool
  deriving DecidableEq, Repr, Inhabited

/-- A token journal entry (R149). -/
structure TokenEntry where
  seq : Nat
  cls : Nat
  sub : Nat
  tid : Nat
  amount : Nat
  time : Nat
  /-- Its CRC-32C matches. -/
  ok : Bool
  deriving DecidableEq, Repr, Inhabited

/-- A replay table entry (R147). -/
structure ReplayEntry where
  tid : Nat
  sub : Nat
  cls : Nat
  deriving DecidableEq, Repr, Inhabited

/-- A step of NOW waiting to be applied at the next interval boundary (R140). -/
structure TimeStep where
  old : Nat
  new : Nat
  /-- Time became valid by it (row 2). -/
  atValid : Bool
  deriving DecidableEq, Repr, Inhabited

/-- The billing functions and the billing area of the metrology store. -/
structure BilBlock where
  /-- Billing control record, copies A and B. (R129) kept; first PERIOD 1, no calendar -/
  ctl : Twin BillCtl
  /-- Calendar slots 0 and 1. [2 × 2,868 bytes] (R128) kept; first: none -/
  cals : List (Option CalSlot)
  /-- The four outlets. -/
  outs : List BilOutlet
  /-- Billing snapshot ring. [24 × 1,440 bytes] (R136) kept; first EMPTY -/
  ring : List RingSlot
  /-- Boundary journal, at most 32 entries, oldest first. (R139) kept; first: none -/
  journal : List JournalEntry
  /-- The credit register. [64 signed] (R144) from the ledger; first 0 -/
  credit : Int
  /-- Token journal. [64 × 32 bytes] (R149) kept; first empty -/
  tokens : List TokenEntry
  /-- The next token journal SEQ. [32] (R149) kept; first 1 -/
  tokenNext : Nat
  /-- Replay table, at most 16,384 entries. (R147) rebuilt at every reset -/
  replay : List ReplayEntry
  /-- Badger's flash mirror of the replay table, copies A and B. (R147) kept; first empty -/
  mirror : Twin (List ReplayEntry)
  /-- The base date of the decoder key last installed: true for 2014. (R145, R148) kept; first: none -/
  baseDate : Option Bool
  /-- BIL_CALRC. [8 + 8] (R152) warm 0 -/
  calReason : Nat
  calRc : Nat
  /-- BIL_TOKSTAT.LAST_RC and REASON. [8 + 4] (R152) warm 0 -/
  tokRc : Nat
  tokReason : Nat
  /-- BIL_STATUS.EXHAUSTED as last evaluated. [1] (R144) warm: by the credit -/
  exhausted : Bool
  /-- NOW seconds at which the last token was accepted. (R153) kept with the journal; first 0 -/
  lastTokenS : Nat
  /-- BILL_RESET waits for the next boundary. [1] (R151) kept (log 36); first 0 -/
  resetDue : Bool
  /-- A step of NOW not yet applied. (R140) kept (log 36); first: none -/
  step : Option TimeStep
  /-- The time from which a backward step was made. [64] (R132, R140) warm 0 -/
  backFrom : Nat
  /-- BIL_TARIFF.DAYPROF, SEASON, SPECIAL and DST of the last selection. (R152) warm 0 -/
  dayProf : Nat
  season : Nat
  special : Bool
  dst : Bool
  /-- Timestamp up to which billing boundaries and activations are processed. [64] (R137) warm: the restart -/
  lastSeen : Nat
  /-- HI register latched per view (host, cluster). (R152) warm: none -/
  latch : List (Option (BilLo × Nat))
  /-- Load-profile records held in Squirrel, oldest first, outlets together. (R141) kept; first empty -/
  squirrel : List Bytes
  deriving DecidableEq, Repr, Inhabited

/-- A tariff ledger slot (R143). -/
structure Ledger where
  saveSeq : Nat
  tokenSeq : Nat
  tariffs : List Nat
  credit : Int
  timp : List (List Nat)
  texp : List (List Nat)
  md : List (List (Nat × Nat))
  deriving DecidableEq, Repr, Inhabited

/-- A save record (R113) with the ledger slot of the same number (R143). -/
structure SaveRec where
  seq : Nat
  time : Nat
  /-- 1 periodic, 2 hold-up, 3 pre-activation, 4 DORMANT entry. -/
  kind : Nat
  outlets : Nat
  kinds : List Nat
  digest : Bytes
  cycles : List Nat
  accs : List (List Nat)
  harms : List (List Int)
  demands : List Demand
  counters : LegalCounters
  /-- SEQ of the legal-counter record copied. -/
  countersSeq : Nat
  pulses : List (Nat × Nat)
  ledger : Ledger
  /-- CRC-32C written and correct, ledger included; a torn save has MAGIC and SAVE_SEQ only. -/
  ok : Bool
  deriving DecidableEq, Repr, Inhabited

/-- A captured snapshot waiting for its signature (R107): TYPE, outlet mask, generation, bytes up to the check word,
and the billing ring slot it belongs to. -/
structure Snapshot where
  type : Nat
  outlets : Nat
  gen : Nat
  body : Bytes
  slot : Option Nat
  deriving DecidableEq, Repr, Inhabited

/-- An entry of the LEGAL staging area (R111, R121): an event, or the EV_STAGING_OVF record by its code; and whether its
CRC-32C matches. -/
structure Staged where
  ev : Event
  ok : Bool
  deriving DecidableEq, Repr, Inhabited

/-- The LO registers of the MET block that latch a HI register (R94, R119). -/
inductive MetLo where
  | energy (outlet q : Nat)
  | harm
  | cal (outlet : Nat) (reactive : Bool)
  deriving DecidableEq, Repr, Inhabited

/-- The metrology core and the rest of the metrology store. -/
structure MetBlock where
  /-- MET_STATUS.RUN. [1] (R119) warm 0 until boot -/
  run : Bool
  /-- MET_STATUS.STORE_FAULT. [1] (R118) warm 0 -/
  storeFault : Bool
  /-- Accrual stopped for DORMANT. [1] (R116) warm 0 -/
  stopped : Bool
  /-- The four outlets. -/
  outs : List MetOutlet
  /-- Pulse outputs 0–3. (R108) -/
  pulses : List Pulse
  /-- Legal counters, copies A and B. [2 × 256 bytes] (R112) kept; first 0 -/
  legal : Twin LegalCounters
  /-- Sealed records A and B; `none` as long as none was written. [2 × 64 bytes] (R111) kept; first: none -/
  sealedRec : Twin (Option SealedRec)
  /-- Substitution records. [4 × 64 bytes] (R111) kept; first: none -/
  subst : List SubstRec
  /-- Save slots 0 and 1 with their ledgers. [2 × 4,096 bytes] (R113) kept; first empty -/
  slots : List (Option SaveRec)
  /-- The save being written and its slot. MET_STATUS.SAVE_BUSY. (R114) warm: none -/
  saving : Option (Nat × SaveRec)
  /-- MET_SAVESTAT.FALLBACK. [1] (R119) warm 0 -/
  fallback : Bool
  /-- Model tick of the last save. (R114) warm: the restart -/
  saveTick : Nat
  /-- MET_SNAPCTL.OUTLETS. [4] (R119) warm 0 DESIGN CHOICE (log 3) -/
  snapOutlets : Nat
  /-- MET_SNAPCTL.TAKE and MET_SNAPSTAT.PENDING. [1] (R119) warm 0 -/
  snapTake : Bool
  /-- MET_SNAPSTAT.LAST_RC. [8] (R119) warm 0 -/
  snapRc : Nat
  /-- Captured snapshots waiting for signing, at most 8. MET_SNAPSTAT.QUEUED. (R107) warm: none -/
  snapQueue : List Snapshot
  /-- Snapshots captured while 8 waited already, in order. (R107, log 35) warm: none -/
  snapWait : List Snapshot
  /-- MET_SNAPWIN. [4,096 bytes] (R106) warm 0 -/
  snapWin : Bytes
  /-- MET_SNAPGEN. [32] (R106) warm 0 -/
  snapGen : Nat
  /-- RESTART snapshot due, with the outage seconds of the restart. (R102, R117) warm: due -/
  restartDue : Option Nat
  /-- Session ring, 24 entries, oldest first. (R111) kept; first empty -/
  sessionRing : List Bytes
  /-- LEGAL staging, at most 64 entries, oldest first. [64 × 32 bytes] (R111, R121) kept; first empty -/
  staging : List Staged
  /-- MET_HARMSEL.OUTLET. [2] (R119) warm 0 DESIGN CHOICE (log 3) -/
  harmOutlet : Nat
  /-- MET_HARMSEL.ORDER. [6] (R119) warm 1 -/
  harmOrder : Nat
  /-- MET_CALCTL.CYCLES and OUTLET. [16 + 2] (R119) warm 0 DESIGN CHOICE (log 3) -/
  calCycles : Nat
  calOutlet : Nat
  /-- START and STOP waiting for the next boundary. [2] (R110) warm 0 -/
  calStart : Bool
  calStop : Bool
  /-- MET_CALSTAT.DONE_CYCLES, LAST_RC, DONE, RUN. [16 + 8 + 2] (R119) warm 0 -/
  calDone : Nat
  calRc : Nat
  calDoneFlag : Bool
  calRun : Bool
  /-- The HI word latched per view (host, cluster). (R94, R119) warm: none -/
  latch : List (Option (MetLo × Nat))
  deriving DecidableEq, Repr, Inhabited

/-! ## Power path and protection (R154–R181) -/

/-- State of a load-switch channel (R157). -/
inductive ChState where
  | absent | off | inrush | on | retryWait | uvOff | latched | fault
  deriving DecidableEq, Repr, Inhabited

/-- One load-switch channel. -/
structure Channel where
  /-- PWR_CHn_CTL.ON. [1] (R180) warm 0 DESIGN CHOICE (log 3) -/
  ctlOn : Bool
  /-- PWR_CHn_STAT.STATE. [3] (R157) warm OFF, or UV_OFF, once declared -/
  state : ChState
  /-- The outlet supervisor's demand, for a contactor or cable-lock channel. [1] (R156) warm 0 -/
  supDemand : Bool
  /-- PWR_CHn_STAT.OPENLOAD_ON and OPENLOAD_OFF. [2] (R159) warm 0 -/
  openOn : Bool
  openOff : Bool
  /-- PWR_CHn_STAT.RETRIES. [4] (R157) warm 0 -/
  retries : Nat
  /-- The declared retries were exceeded; a latch clears into FAULT. (R157 row 10) warm 0 -/
  exceeded : Bool
  /-- PWR_CHn_CUR, mA. [32 signed] (R180) warm 0 -/
  cur : Int
  /-- PWR_CHn_TEMP. [16 signed] (R180) warm 0 -/
  temp : Int
  /-- PWR_CHn_CNT. [16 + 8 + 8] (R180) cold 0 -/
  overloads : Nat
  thermal : Nat
  uvCount : Nat
  deriving DecidableEq, Repr, Inhabited

/-- Position of a cable lock (R178, R180). -/
inductive LockState where
  | none | unlocked | locking | locked | unlocking | lockFail | lockLost | lockStuck
  deriving DecidableEq, Repr, Inhabited

/-- One outlet's cable lock. -/
structure Lock where
  /-- PWR_LOCKo_STAT.STATE. [3] (R178) warm: from LOCK_FBo -/
  state : LockState
  /-- PWR_LOCKo_STAT.FB, debounced. [1] (R178) warm: the ball -/
  fb : Bool
  /-- The first reading since reset has been taken. (R178) warm 0 -/
  seen : Bool
  /-- Second attempt running; channel off for 1 s before it. (R178 row 3) warm 0 -/
  second : Bool
  pause : Bool
  deriving DecidableEq, Repr, Inhabited

/-- Load switches, limp-home inputs and cable locks. -/
structure PwrBlock where
  /-- Channels 0–11. -/
  ch : List Channel
  /-- PWR_GRPa_V, mV. [3 × 32] (R180) warm 0 until measured -/
  grpMv : List Nat
  /-- PWR_STATUS.GRP_UV. [3] (R180) warm: by the supplies -/
  grpUv : List Bool
  /-- PWR_STATUS.LIMP_N, debounced. [1] (R163) warm: the ball -/
  limpLow : Bool
  /-- PWR_STATUS.LH_IN, debounced. [4] (R163) warm: the balls -/
  lhIn : Nat
  /-- Cable locks of outlets 0–3. -/
  locks : List Lock
  deriving DecidableEq, Repr, Inhabited

/-- FLT_RCo: residual-current status of an AC outlet (R170, R171, R180). -/
structure Residual where
  /-- FLT_RCo_DC, µA. [32 signed] (R170) warm 0 -/
  idc : Int
  /-- FLT_RCo_AC, µA. [32] (R170) warm 0 -/
  iac : Nat
  /-- FLT_RCo_STAT.DC_TRIP and AC_TRIP. [2] (R180) warm 0 -/
  dcTrip : Bool
  acTrip : Bool
  /-- Milliseconds each of the six levels of R171 has been held. (R171) warm 0 -/
  held : List Nat
  /-- The 200 ms low-pass of the fast tap, b, in 2^−32 of a tap unit. (R165) warm 0 DESIGN CHOICE (log 3) -/
  base : Int
  deriving DecidableEq, Repr, Inhabited

/-- FLT_ISOo_STAT.STATE (R174). -/
inductive IsoState where
  | off | novolt | measuring | valid | unknown
  deriving DecidableEq, Repr, Inhabited

/-- Isolation monitor of a DC outlet. -/
structure Iso where
  /-- FLT_ISOo_STAT.STATE. [3] (R180) warm OFF, or NOVOLT on a DC outlet -/
  state : IsoState
  /-- FLT_ISOo_STAT.INJ: true in state N. [1] (R180) warm 0 -/
  injN : Bool
  /-- Latest settled averages (V_p, V_n) of states P and N, mV. (R173) warm: none -/
  avgP : Option (Int × Int)
  avgN : Option (Int × Int)
  /-- FLT_ISOo_RP, RN, RISO, Ω. [3 × 32] (R180) warm 0 -/
  rp : Nat
  rn : Nat
  riso : Nat
  deriving DecidableEq, Repr, Inhabited

/-- Result of a weld check (R176, R180). -/
inductive WeldResult where
  | none | isOpen | welded | inconclusive
  deriving DecidableEq, Repr, Inhabited

/-- FLT_WELDo_STAT, but for HELD, which Owl's configuration keeps (R177). -/
structure Weld where
  /-- RESULT. [2] (R180) warm none -/
  result : WeldResult
  /-- KIND, true for POST_OPEN. [1] (R180) warm 0 -/
  postOpen : Bool
  /-- INCONC. [2] (R180) warm 0 -/
  inconc : Nat
  /-- The last PRE_CLOSE was OPEN. (R179) warm 0 -/
  preOpen : Bool
  deriving DecidableEq, Repr, Inhabited

/-- FLT_TRIPSRC (R180). -/
structure TripSrc where
  kind : Nat
  inst : Nat
  level : Nat
  deriving DecidableEq, Repr, Inhabited

/-- Fault comparators, residual current, isolation, weld. -/
structure FltBlock where
  /-- FLT_TRIPSRC. [8 + 2 + 3] (R180) warm empty -/
  src : TripSrc
  /-- Levels above their code at the last word: (lane, level). (R168) warm: none -/
  above : List (Nat × Nat)
  /-- Residual-step levels above their code at the last word: (outlet, level). (R168) warm: none -/
  rcAbove : List (Nat × Nat)
  /-- Supervised level relations whose condition holds, by place in the TRIP records. (R169) warm: none -/
  supTrue : List Nat
  rc : List Residual
  iso : List Iso
  weld : List Weld
  deriving DecidableEq, Repr, Inhabited

/-! ## Owl (R182–R212) -/

/-- Owl's state (R184); `off` in DORMANT. -/
inductive OwlState where
  | start | run | safe | halt | off
  deriving DecidableEq, Repr, Inhabited

/-- The proof record in Dormouse retention (R193). -/
structure ProofRec where
  /-- CRC-32C matches and the record exists. -/
  ok : Bool
  seen : Nat
  causes : List Nat
  safeDigest : Bytes
  deriving DecidableEq, Repr, Inhabited

/-- An Efdom connection record (R204). -/
structure EfdomRec where
  /-- 0 off, 1 receive, 2 transmit. -/
  dir : Nat
  /-- 1 CAN0, 2 CAN1, 3 Ethernet, 4 grid link. -/
  transport : Nat
  mask : Nat
  peer : Nat
  period : Nat
  watchdog : Nat
  addr : Nat
  deriving DecidableEq, Repr, Inhabited

/-- The password verifier (R201). -/
structure Verifier where
  salt : Bytes
  hash : Bytes
  deriving DecidableEq, Repr, Inhabited

/-- Owl's safety configuration record (R199). -/
structure OwlCfg where
  verifier : Option Verifier
  fails : Nat
  /-- Length of the running or last lockout, s; 0 when no lockout since the last success. (R202) -/
  lockLen : Nat
  /-- Model tick at which the running lockout ends. (R199) -/
  lockEnd : Option Nat
  held : List Bool
  /-- Counted clearings in the last 24 h, per outlet. (R194) -/
  autoclr : List Nat
  efdom : List EfdomRec
  causes : List Nat
  deriving DecidableEq, Repr, Inhabited

/-- State of an Efdom connection (R208, R211). -/
inductive EfdomState where
  | off | wait | sync | valid | tx
  deriving DecidableEq, Repr, Inhabited

/-- One Efdom connection as Owl runs it. -/
structure EfdomConn where
  /-- OWL_EFDc_STAT.STATE. [3] (R211) warm OFF, then by the record -/
  state : EfdomState
  /-- OWL_EFDc_SEQ. [32] (R211) warm 0 -/
  lastSeq : Nat
  /-- OWL_EFDc_STAT.SAFE, the last SAFE_WORD. [32] (R211) warm 0 -/
  safeWord : Nat
  /-- Consecutive frames in SYNC, and consecutive discards by rows 10–11. (R208, R209) warm 0 -/
  inRow : Nat
  discards : Nat
  /-- Watchdog in force, ms: the lower of EXPECT and WATCHDOG. (R208) warm 0 -/
  watchdog : Nat
  /-- Frames sent since the connection started. (R207) warm 0 -/
  sent : Nat
  /-- OWL_EFDc_CNT: CRC, SEQERR, LOST, TIMEOUT. [4 × 8] (R211) cold 0 -/
  crc : Nat
  seqErr : Nat
  lost : Nat
  timeouts : Nat
  /-- OWL_EFDc_CNT2: LEN, FMT, ADDR, REPEAT. [4 × 8] (R211) cold 0 -/
  len : Nat
  fmt : Nat
  addr : Nat
  repeats : Nat
  deriving DecidableEq, Repr, Inhabited

/-- OWL_TRIPSRC (R211). -/
structure SupSrc where
  kind : Nat
  inst : Nat
  mask : Nat
  deriving DecidableEq, Repr, Inhabited

/-- An open safety session (R202): its side and the tick at which it ends. -/
structure Session where
  side : Side
  endTick : Nat
  deriving DecidableEq, Repr, Inhabited

/-- Owl. -/
structure OwlBlock where
  /-- OWL_STATUS.STATE. [2] (R184) warm START -/
  state : OwlState
  /-- A start-up diagnostic failed since the last warm or cold reset. (R184 row 4) warm 0 -/
  startFailed : Bool
  /-- OWL_DIAG.FAILED. [12] (R211) cold 0 -/
  diag : Nat
  /-- Tick of the last failure of each diagnostic. (R184 row 5) cold: none (log 37) -/
  diagTick : List (Option Nat)
  /-- Watchdog not served in its window. (R185) domain 0 -/
  watchdogBad : Bool
  /-- Oscillator and supply monitor faults. (R185) warm 0 -/
  oscBad : Bool
  supplyBad : Bool
  /-- OWL_STATUS.PFAIL. [1] (R186 bit 12, R211) warm 0 -/
  pfail : Bool
  /-- The release register, outlets 0–3. OWL_RELEASE.RELEASED. [4] (R186) warm 0 -/
  released : List Bool
  /-- OWL_RELEASE.REQUESTED. [4] (R187) warm 0 -/
  requested : List Bool
  /-- UNPROVEN, the complement of OWL_RELEASE.PROVEN. [4] (R192) from the proof record -/
  unproven : List Bool
  /-- Guard inputs still to be seen open for each outlet. [4 × 8] (R192) from the proof record -/
  need : List Nat
  /-- OWL_OUTo_STAT.WITHHOLD. [4 × 16] (R186) warm: bit 0 -/
  withhold : List Nat
  /-- METER_OK flag per outlet, and no flag for 100 ms. (R98) warm 0, lost -/
  meterOk : List Bool
  meterLost : List Bool
  /-- A POST_OPEN result other than WELDED since cold reset. [4] (R186 bit 4) cold 0 -/
  weldSeen : List Bool
  /-- OWL_OUTo_TRIP.CAUSES. [4 × 9] (R211) restored at every reset -/
  causes : List Nat
  /-- Trip latch bits that each cause of each outlet holds; FLT_TRIPLATCH is their union. [4 × 9 × 8] (R168, R194) warm 0, then restored -/
  hold : List (List Nat)
  /-- Owl has entered RUN since the last warm or cold reset; before it no channel's output conducts. [1] (R417) warm 0 -/
  ran : Bool
  /-- Tick at which the condition of each cause of each outlet was last true. [4 × 9] (R194: 100 ms for a level) warm: none -/
  lastTrue : List (List (Option Nat))
  /-- Supervised relations that have tripped and whose cause has not been cleared since. (R189) warm: none -/
  tripped : List TripRec
  /-- OWL_TRIPSRC. [8 + 8 + 3] (R211) warm empty -/
  src : SupSrc
  /-- OWL_GUARD.OPEN. [8] (R211) warm: the inputs -/
  guardOpen : Nat
  /-- OWL_GUARD.DISAGREE. [8] (R211) warm 0 -/
  guardDis : Nat
  /-- The proof record. [16 bytes] (R193) retention; lost by a cold reset -/
  proof : ProofRec
  /-- Safety configuration, copies A and B. [2 × 4 KiB] (R199) kept; first: no verifier -/
  cfg : Twin OwlCfg
  /-- Both configuration copies lost. (R200) warm: as found -/
  cfgLost : Bool
  /-- A cause or history change still to be written to the configuration, within 100 ms. (R195) warm: lost -/
  cfgDirty : Bool
  /-- Change log, newest first, at most 256 entries of 64 bytes. (R203) kept; first empty -/
  log : List Bytes
  /-- OWL_LOGSEQ. [32] (R211) kept; first 0 -/
  logSeq : Nat
  /-- The open safety session. OWL_STATUS.SESSION, OWL_PW. (R202) warm: none -/
  session : Option Session
  /-- Efdom connections 0–7. -/
  efd : List EfdomConn
  /-- Tick of the last EV_EFD_MASQ. (R209 row 5: at most one in 60 s) warm: none -/
  masqTick : Option Nat
  deriving DecidableEq, Repr, Inhabited

/-! ## Vehicle links (R213–R241, R448) -/

/-- Accepted pilot state (R220, R240). -/
inductive Cp where
  | none | a | b | c | d | e | f | invalid
  deriving DecidableEq, Repr, Inhabited

/-- Outlet supervisor state, VLKo_STAT.SUP (R240). -/
inductive Sup where
  | absent | idle | connected | locking | preparing | closed | paused | ended | faulted
  deriving DecidableEq, Repr, Inhabited

/-- Where within R225–R227 the supervisor is. -/
inductive Phase where
  /-- Nothing under way. -/
  | none
  /-- Step 3: waiting for C or D. -/
  | waitVehicle
  /-- Step 4: waiting for the SESSION_START capture. -/
  | waitStart
  /-- Step 5: release requested, or refused and to be requested again. -/
  | release
  /-- Step 7: PRE_CLOSE running. -/
  | preClose
  /-- PRE_CLOSE INCONCLUSIVE, to be repeated after 1 s. -/
  | preCloseWait
  /-- DC opening: gate enables off, contactor demand still on (R227). -/
  | gateOff
  /-- POST_OPEN running. -/
  | postOpen
  deriving DecidableEq, Repr, Inhabited

/-- What a running POST_OPEN belongs to (R176, R226, R227). -/
inductive OpenReason where
  | cold | pause | finish
  deriving DecidableEq, Repr, Inhabited

/-- SLAC state (R240). -/
inductive Slac where
  | off | waitParm | sounding | validating | joining | matched | failed | linkLost
  deriving DecidableEq, Repr, Inhabited

/-- A sound as one modem measured it: its RunID, when, and the attenuation of the 58 groups (R232 row 3, R233). -/
structure Sounding where
  runId : Nat
  tick : Nat
  atten : List Nat
  deriving DecidableEq, Repr, Inhabited

/-- A management message of SLAC as the modem sends it (R232, R234): kind, RunID, the count of a CM_VALIDATE.CNF, and its
random RunID check or its 58 group averages. -/
structure SlacMsg where
  kind : Nat
  runId : Nat
  count : Nat
  data : Bytes
  deriving DecidableEq, Repr, Inhabited

/-- A validation window (R234): changes requested, changes counted, and the tick of the last change. -/
structure ValWindow where
  want : Nat
  count : Nat
  mark : Option Nat
  deriving DecidableEq, Repr, Inhabited

/-- A ring pair of a frame port (R236, R407). -/
structure Rings where
  /-- TXBASE, TXTAIL, TXHEAD, RXBASE, RXTAIL, RXHEAD. [32, 7, 7, 32, 7, 7] (R240, R255, R412) warm 0 DESIGN CHOICE (log 3) -/
  txBase : Nat
  txTail : Nat
  txHead : Nat
  rxBase : Nat
  rxTail : Nat
  rxHead : Nat
  /-- Tick of the last RXDROP event and frames dropped since. (R241: at most one in 60 s) warm: none, 0 -/
  dropTick : Option Nat
  dropped : Nat
  /-- The last frame put on the medium, padded (R235, R254). warm: none -/
  wire : Bytes
  deriving DecidableEq, Repr, Inhabited

/-- One vehicle link with its outlet supervisor. -/
structure Link where
  /-- VLKo_STAT.CP and PREV. [4 + 4] (R240) warm none -/
  cp : Cp
  prev : Cp
  /-- VLKo_STAT.DIODE. [1] (R240) warm 0 -/
  diode : Bool
  /-- VLKo_CPV.HIGH and LOW, mV. [16 + 16] (R240) warm 0 -/
  cpHi : Int
  cpLo : Int
  /-- VLKo_CFG.DISC. [5] (R240) warm 6 -/
  disc : Nat
  /-- VLKo_CFG.BASIC_FALLBACK, VENT_OK, PP_MODE. [1 + 1 + 2] (R240) warm 0 DESIGN CHOICE (log 3) -/
  fallback : Bool
  ventOk : Bool
  ppMode : Nat
  /-- VLKo_PILOT.MODE. [2] (R240) warm 0 -/
  reqMode : Nat
  /-- VLKo_PILOT.CURRENT. [17] (R240) warm 0 DESIGN CHOICE (log 3) -/
  reqCur : Nat
  /-- MODE in force; passing through 3,000 ms of steady high towards it. (R218) warm 0 -/
  mode : Nat
  trans : Bool
  /-- VLKo_PP.CODE and OHMS. [4 + 20] (R240) warm 0 -/
  ppCode : Nat
  ppOhms : Nat
  /-- Lowest cable capacity seen in the running session, mA. (R224) warm: none -/
  sessCap : Option Nat
  /-- VLKo_STAT.SUP. [4] (R240) warm IDLE -/
  sup : Sup
  phase : Phase
  why : OpenReason
  /-- Release requests made, and PRE_CLOSE checks ended INCONCLUSIVE, in this sequence. (R226) warm 0 -/
  relTries : Nat
  preTries : Nat
  /-- The cause with which the running session ends. (R227, R241) warm 0 -/
  endCause : Nat
  /-- A metering session is open. (R225 step 4) warm 0 -/
  meterOpen : Bool
  /-- The gate enables' demand. (R225 step 6) warm 0 -/
  gate : Bool
  /-- The pause is a supply pause. (R226) warm 0 -/
  uvPause : Bool
  /-- VLKo_SESSION. [32] (R240) warm 0 -/
  session : Nat
  /-- A session start held back by a running activation; a pilot reading held back by it. (R42, R229) warm: none -/
  startHeld : Bool
  pilotHeld : Option (Int × Int)
  /-- A LIMP hit authorises the next start on this outlet. (R230, R285) warm 0 -/
  limpHit : Bool
  /-- Ticks of recent changes between B and C. (R223 row 5) warm: none -/
  bcTicks : List Nat
  /-- Row 3 of R223 counted in this connection; D logged in this session; B accepted since contactor closed. warm 0 -/
  row3Seen : Bool
  ventSeen : Bool
  /-- FAULTED held by R223 row 2; FAULTED until A by row 5. warm 0 -/
  faultHold : Bool
  faultUntilA : Bool
  /-- VLKo_STAT.SLAC. [4] (R240) warm OFF -/
  slac : Slac
  /-- The RunID current on the link, and that of the last CM_ATTEN_CHAR.IND. [64] (R232) warm: none -/
  runId : Option Nat
  attenRun : Option Nat
  /-- CM_ATTEN_CHAR.IND sent so far without a response. (R232 row 4) warm 0 -/
  attenSent : Nat
  /-- RunIDs of earlier matches and suppressed soundings. (R232 rows 5, 10) warm: none -/
  oldRuns : List Nat
  /-- What this modem measured, by RunID. (R233) warm: none -/
  heard : List Sounding
  /-- VLKo_SLAC: OWN, OTHER, SOUNDS, AMBIG, VALIDATED, SUPPRESSED. [8 + 8 + 8 + 3] (R240) warm 0 -/
  own : Nat
  other : Nat
  sounds : Nat
  ambig : Bool
  validated : Bool
  suppressed : Bool
  /-- The tick of the CM_START_ATTEN_CHAR.IND that opened the sounding window. (R233) warm 0 -/
  soundTick : Nat
  /-- A validation window. (R234) warm: none -/
  window : Option ValWindow
  /-- The network membership key. [128] (R232) warm: none -/
  nmk : Option Bytes
  /-- The last management message of SLAC that the modem sent. (R232) warm: none -/
  sent : Option SlacMsg
  /-- VLKo_CNT: RXLONG, RXDROP, RXDECRYPT, TXTIMEOUT. [4 × 8] (R240) cold 0 -/
  rxLong : Nat
  rxDrop : Nat
  rxDecrypt : Nat
  txTimeout : Nat
  /-- VLKo_CNT2: ILLEGAL, FMT, SLACFAIL, OVERDRAW. [4 × 8] (R240) cold 0 -/
  illegal : Nat
  fmt : Nat
  slacFail : Nat
  overdraw : Nat
  rings : Rings
  deriving DecidableEq, Repr, Inhabited

/-! ## Grid link and Ethernet (R242–R257) -/

/-- Membership state, GLK_STAT.ASSOC (R246, R256). -/
inductive Assoc where
  | off | search | assoc | auth | member | lost | noNmk
  deriving DecidableEq, Repr, Inhabited

/-- Tone-map state (R248, R256). -/
inductive ToneState where
  | none | estimating | active | robo
  deriving DecidableEq, Repr, Inhabited

/-- Decided phase of a neighbour (R250, R256). -/
inductive NbPhase where
  | unknown | same | plus120 | plus240 | inconsistent
  deriving DecidableEq, Repr, Inhabited

/-- One region of a transmit tone map: the outcomes of its last PBs, and Standard ROBO in force (R248 row 6). -/
structure Region where
  /-- Where the region begins in the beacon period, and its 533-byte map (R247). -/
  start : Nat
  map : Bytes
  recent : List Bool
  robo : Bool
  deriving DecidableEq, Repr, Inhabited

/-- A tone map for reception, as the device computed it and sent it to a station (R247, R248). -/
structure RxMap where
  tei : Nat
  maps : List Bytes
  deriving DecidableEq, Repr, Inhabited

/-- A received MSDU whose PBs are still coming in (R249): its frame, priority 0–3 or 4 for a group frame, sequence number, PB
count, and the PBs so far. -/
structure Reasm where
  frame : RxFrame
  prio : Nat
  seq : Nat
  total : Nat
  pbs : List (Nat × Bytes)
  deriving DecidableEq, Repr, Inhabited

/-- A neighbour table entry (R247). -/
structure Neighbour where
  tei : Nat
  mac : Nat
  cco : Bool
  tm : ToneState
  /-- PHY rate of the transmit tone map, 100 kbit/s; a new map waiting for the beacon boundary. -/
  rate : Nat
  newMap : Option ToneMap
  /-- Channel estimation requests sent without an answer. -/
  requests : Nat
  /-- Re-estimation under way; tick of the last failed estimation; tick the map was made. -/
  reest : Bool
  failTick : Option Nat
  madeTick : Nat
  /-- Tick of last use of the map, for the 32 cache slots. -/
  useTick : Nat
  regions : List Region
  /-- Consecutive MPDUs in which every PB failed; consecutive beacon periods with failures at one offset, the offset, and
  the last such period. -/
  allFailed : Nat
  sameOffset : Nat
  lastOffset : Nat
  lastPeriod : Nat
  /-- Outcome of the last 64 PBs sent, true when it failed; and whether it was a resend. -/
  pbFailed : List Bool
  pbResent : List Bool
  phase : NbPhase
  /-- Classes of the last 16 reports: 0 SAME, 1 +120°, 2 +240°, 3 unclassified. -/
  reports : List Nat
  heard : Nat
  /-- Sequence number of the last MSDU delivered from this station, for each priority 0–3 and for group frames, 4. (R249) -/
  lastMsdu : List (Nat × Nat)
  deriving DecidableEq, Repr, Inhabited

/-- The MSDU at the head of the grid-link transmit ring: destination TEI, per PB (times sent, acknowledged). -/
structure Msdu where
  tei : Nat
  pbs : List (Nat × Bool)
  deriving DecidableEq, Repr, Inhabited

/-- The grid-link modem. -/
structure GlkBlock where
  /-- GLK_STAT.ASSOC. [4] (R256) warm OFF -/
  assoc : Assoc
  /-- GLK_CFG.EN, BACKHAUL, NMKSLOT, ZCLANE, LIFETIME. [1 + 2 + 5 + 6 + 12] (R256) warm 0, 0, 0 DESIGN CHOICE (log 3), 0x3F, 2,000 -/
  en : Bool
  backhaul : Nat
  nmkSlot : Nat
  zcLane : Nat
  lifetime : Nat
  /-- GLK_ASSOC.TEI, CCO_TEI, NEKGEN. [8 + 8 + 8] (R256) warm 0; TEI and NEK in retention over WATCH -/
  tei : Nat
  ccoTei : Nat
  nekGen : Nat
  /-- NEK in force and the one before it, with the tick of the change. [128] (R246) retention -/
  nek : Option Bytes
  oldNek : Option (Bytes × Nat)
  /-- Tick at which the association lease ends. (R246) retention -/
  leaseEnd : Option Nat
  /-- Requests sent in ASSOC or AUTH; the backoff in s; waiting out the backoff. (R246) warm 0, 1, 0 -/
  requests : Nat
  backoff : Nat
  backingOff : Bool
  /-- GLK_STAT.BEACON_SYNC. [1] (R256) warm 0 -/
  sync : Bool
  /-- GLK_PHASE.PERIOD; own crossing offsets of the last 16 periods. [16] (R250) warm 0, none -/
  period : Nat
  offsets : List Nat
  /-- GLK_NBSEL. [8] (R256) warm 0 DESIGN CHOICE (log 3) -/
  nbSel : Nat
  /-- The neighbour table, at most 256 entries. (R247) warm: none -/
  nbs : List Neighbour
  /-- Tick of the last EV_GLK_NBFULL and stations not entered since. (R247) warm: none, 0 -/
  nbFullTick : Option Nat
  nbFullCount : Nat
  /-- GLK_WAKE, the last accepted WAKE_SEQ. [32] (R256) retention; cold 0 -/
  wakeSeq : Nat
  /-- GLK_STAT.WAKE_ARMED, WAKE_INHIBIT. [2] (R256) warm 0 -/
  wakeArmed : Bool
  wakeInhibit : Bool
  /-- Tick of the last wake; ticks of replayed wakes within 1 h; a wake to be checked by Badger (seq, reason). (R252) -/
  wakeTick : Option Nat
  replays : List Nat
  wakePend : Option (Nat × Nat)
  /-- GLK_CNT: RXLONG, RXDROP, RXDECRYPT, TXTIMEOUT. [4 × 8] (R256) cold 0 -/
  rxLong : Nat
  rxDrop : Nat
  rxDecrypt : Nat
  txTimeout : Nat
  /-- GLK_CNT2: LOST, FMT, WAKE, WAKEREJ. [4 × 8] (R256) cold 0 -/
  lostCnt : Nat
  fmt : Nat
  wakeCnt : Nat
  wakeRej : Nat
  rings : Rings
  /-- The MSDU in transmission. (R249) warm: none -/
  msdu : Option Msdu
  /-- MSDUs being reassembled, in order of their first PB. (R249) warm: none -/
  reasm : List Reasm
  /-- Tone maps for reception, at most 32, least recently used first. (R247, R248) warm: none -/
  rxMaps : List RxMap
  /-- Beacon periods begun since the reset: the clock of R249's split. (R249) warm 0 -/
  beacons : Nat
  /-- Management messages the modem has sent, newest first, the last few. (R246, R248, R250) warm: none -/
  sent : List (Nat × Bytes)
  /-- Owl's queue for this medium, at most 4 frames. (R253) warm: none -/
  efdom : List Bytes
  deriving DecidableEq, Repr, Inhabited

/-- The Ethernet MAC. -/
structure EthBlock where
  /-- ETH_CFG.EN, REFCLK_OUT, PHYADDR. [1 + 1 + 5] (R256) warm 0 DESIGN CHOICE (log 3) -/
  en : Bool
  refclk : Bool
  phyAddr : Nat
  /-- ETH_STAT.LINK, SPEED, DUPLEX, FAILOVER. [4] (R256) warm 0 -/
  link : Bool
  speed : Bool
  duplex : Bool
  failover : Bool
  /-- Tick of the last change of LINK. (R254) warm 0 -/
  linkTick : Nat
  /-- ETH_MDIO.GO, WRITE, ADDR, REG, DATA. [1 + 1 + 5 + 5 + 16] (R256) warm 0 DESIGN CHOICE (log 3) -/
  go : Bool
  wr : Bool
  addr : Nat
  reg : Nat
  data : Nat
  /-- ETH_CNT: FCSERR, RXLONG, RXDROP, TXTIMEOUT. [4 × 8] (R256) cold 0 -/
  fcsErr : Nat
  rxLong : Nat
  rxDrop : Nat
  txTimeout : Nat
  rings : Rings
  /-- Owl's queue for this medium, at most 4 frames. (R253) warm: none -/
  efdom : List Bytes
  deriving DecidableEq, Repr, Inhabited

/-! ## Time base (R258–R274) -/

/-- State of a domain (R262). -/
inductive DomState where
  | free | sync | holdover
  deriving DecidableEq, Repr, Inhabited

/-- One time domain. -/
structure Domain where
  /-- The counter, in 2^−28 ns since 2020-01-01. [64 or 34 + 30, and 28] (R259) from the RTC; 0 when lost -/
  t : Nat
  /-- TIM_DOMd_INC. [32] (R260) warm 0x8235_5555 -/
  inc : Nat
  /-- The offset still to be slewed, 2^−28 ns. TIM_DOMd_SLEW. [32] (R264) warm 0 -/
  slew : Int
  /-- TIM_DOMd_STAT.STATE. [2] (R262) warm HOLDOVER if VALID, else FREE -/
  state : DomState
  /-- TIM_DOMd_STAT.STEPS. [8] (R273) warm 0 -/
  steps : Nat
  /-- TIM_DOMd_OFS, ns. [32 signed] (R273) warm 0 -/
  ofs : Int
  deriving DecidableEq, Repr, Inhabited

/-- A PTP capture (R268). -/
structure PtpCapture where
  ts : Nat
  tx : Bool
  msgType : Nat
  domain : Nat
  seqId : Nat
  deriving DecidableEq, Repr, Inhabited

/-- The latched set of TIM_NOW_LO (R269): counter form HI, timestamp, NOW32. -/
structure NowLatch where
  hi : Nat
  ts : Nat
  now32 : Nat
  deriving DecidableEq, Repr, Inhabited

/-- The time base and the RTC with its alarm. -/
structure TimBlock where
  /-- DOM0 and DOM1. -/
  dom : List Domain
  /-- NOW, in 2^−28 ns since 2020-01-01. (R259) from the RTC -/
  now : Nat
  /-- TIM_NOW32's accumulator, in 2^−28 ns modulo 2^60. (R261) from NOW -/
  now32 : Nat
  /-- TIM_STATUS.SEL. [1] (R273) kept in retention; first 0 -/
  sel : Nat
  /-- TIM_STATUS.CONVERGING. [1] (R263) warm 0 -/
  converging : Bool
  /-- TIM_STATUS.SEL_PEND with the command waiting and its target. [1] (R272) warm: none -/
  selPend : Option (Req × Nat)
  /-- TIM_STEPGEN. [32] (R273) warm 0 -/
  stepGen : Nat
  /-- TIM_CTL.HOLDOVER. [17] (R273) warm 3,600 -/
  holdover : Nat
  /-- TIM_CTL.AUTO. [1] (R273) warm 1 -/
  auto : Bool
  /-- Row 4 of R266 held at the last boundary. (R266) warm 0 -/
  row4 : Bool
  /-- The RTC, ns since the epoch, as last copied. (R270) VBAT; lost 0 -/
  rtc : Nat
  /-- Each domain's offset from NOW, 2^−28 ns, and its VALID bit, in retention. (R270) -/
  retOfs : List Int
  retValid : List Bool
  /-- TIM_RTC.ERR, CAL, LOST. [16 + 1 + 1] (R273) cold 0 -/
  rtcErr : Int
  rtcCal : Bool
  rtcLost : Bool
  /-- TIM_ALARM, seconds and EN. [34 + 1] (R271) kept by every reset; lost with the RTC -/
  alarmS : Nat
  alarmEn : Bool
  /-- TIM_STATUS.ALARM. [1] (R273) warm 0 -/
  alarm : Bool
  /-- TIM_BCN_TS, BTS, GEN. [64 + 32 + 32] (R273) warm 0 -/
  bcnTs : Nat
  bcnBts : Nat
  bcnGen : Nat
  /-- PTP capture FIFO, oldest first, at most 16. (R268) warm: none -/
  ptp : List PtpCapture
  /-- TIM_PTPF_STAT.OVF. [1] (R273) warm 0 -/
  ptpOvf : Bool
  /-- Captures discarded since the last event; a discard run is on. (R268, R274) warm 0 -/
  ptpLost : Nat
  ptpOvfOn : Bool
  /-- Latched views (host, cluster): the NOW set, domain HI words, the beacon set. (R268, R269, R273) warm: none -/
  latchNow : List (Option NowLatch)
  latchDom : List (Option (Nat × Nat))
  latchBcn : List (Option (Nat × Nat × Nat))
  deriving DecidableEq, Repr, Inhabited

/-! ## Tags, reader and commissioning tag (R275–R300) -/

/-- An authorisation-cache entry (R283). -/
structure CacheEntry where
  key : Nat
  expiry : Nat
  /-- Byte 0x0C: OUTLETS, SIG_REQ, LIMP, BLOCKED, VALID. -/
  flags : Nat
  cls : Nat
  check : Nat
  deriving DecidableEq, Repr, Inhabited

/-- An originality key record (R281, R335). -/
structure OrigKey where
  tech : Nat
  value : Nat
  mask : Nat
  read : Bytes
  offset : Nat
  key : Bytes
  deriving DecidableEq, Repr, Inhabited

/-- TAG_STATUS.READER (R299). -/
inductive Reader where
  | off | reduced | polling | holding | yielding
  deriving DecidableEq, Repr, Inhabited

/-- A HIT waiting for an outlet in LIMP (R285). -/
structure LimpHit where
  outlets : Nat
  deriving DecidableEq, Repr, Inhabited

/-- Commissioning-tag state (R292). -/
inductive CtState where
  | isOpen | secured | locked
  deriving DecidableEq, Repr, Inhabited

/-- A block of the commissioning-tag array with its hidden check (R291). -/
structure CtBlock where
  data : Bytes
  ok : Bool
  deriving DecidableEq, Repr, Inhabited

/-- A tag seen by the reader (R278): technology, UID, the tick it was last seen, and whether a poll has missed it since. -/
structure SeenTag where
  tech : Nat
  uid : Bytes
  tick : Nat
  missed : Bool
  deriving DecidableEq, Repr, Inhabited

/-- The reader, the cache and the commissioning tag. -/
structure TagBlock where
  /-- TAG_STATUS.READER. [3] (R299) warm off until boot -/
  reader : Reader
  /-- TAG_STATUS.CACHE_LOADED. [1] (R299) warm 0 -/
  loaded : Bool
  /-- TAG_STATUS.LIMP_PEND and LIMP_OUT. [1 + 4] (R299) warm: none -/
  limpPend : Option LimpHit
  /-- TAG_STATUS.EXTFIELD and DETECT. [2] (R299) warm 0 -/
  extField : Bool
  detect : Bool
  /-- TAG_CTL: HOLD, POLL, DET_THR, TECH_V, TECH_B, TECH_A, EN. [11 + 10 + 4 + 4] (R299) warm 500, 250, 4, 1, 1, 1, 1 -/
  hold : Nat
  poll : Nat
  detThr : Nat
  techV : Bool
  techB : Bool
  techA : Bool
  en : Bool
  /-- TAG_RF.BASE, in 2^−32 of its unit (log 32), and LAST. [48 + 16] (R277, R299) warm 0 -/
  base : Nat
  last : Nat
  /-- Consecutive measurements off the baseline. (R277) warm 0 -/
  offBase : Nat
  /-- A detection waits for its full poll. (R277) warm 0 -/
  afterDetect : Bool
  /-- TAG_CNT: COLL, RXERR, TIMEOUT, FALSEDET. [4 × 8] (R299) cold 0 -/
  coll : Nat
  rxErr : Nat
  timeouts : Nat
  falseDet : Nat
  /-- The cache by place (bucket × 8 + slot), ascending. [16,384 × 16 bytes] (R283) reloaded after every reset -/
  cache : List (Nat × CacheEntry)
  /-- The flash mirror, copies A and B. (R286) kept; wiped by a root-class change -/
  mirror : Twin (List (Nat × CacheEntry))
  /-- TAG_CACHE_STAT.MIRROR_PEND and CHKERR. [1 + 8] (R299) warm 0 -/
  mirrorPend : Bool
  chkErr : Nat
  /-- Report FIFO, oldest first, at most 16. [16 × 32 bytes] (R287) warm: none -/
  reports : List Bytes
  /-- TAG_RPT_STAT.OVF; reports discarded since the last event; a discard run is on. [1] (R287) warm 0 -/
  rptOvf : Bool
  rptLost : Nat
  rptOvfOn : Bool
  /-- Tags seen and not yet gone for 500 ms. (R278) warm: none -/
  present : List SeenTag
  /-- Foreign fields met before an emission. (R276: counted; no register shows it) cold 0 DESIGN CHOICE (log 3) -/
  foreign : Nat
  /-- The tag held for the application. (R288) warm: none -/
  held : Option (Nat × Bytes)
  /-- The commissioning-tag array. [256 × 32 bytes] (R291) non-volatile; first 0 DESIGN CHOICE (log 3) -/
  ct : List CtBlock
  /-- TAG_CT_STAT.STATE. [2] (R292) set at every start -/
  ctState : CtState
  /-- SECURED by TAG_CT_SECURE outside SERVICE. (R292) non-volatile -/
  ctSecured : Bool
  /-- TAG_CT_STAT: FIELD, HARV, WRITING, ADOPTED, LASTERR, FAILS. [4 + 8 + 8] (R299) warm 0 -/
  field : Bool
  harv : Bool
  writing : Bool
  adopted : Bool
  lastErr : Nat
  fails : Nat
  /-- GET_CHALLENGE locked until the field has been absent for 1 s. (R294) warm 0 -/
  challengeLock : Bool
  /-- The challenge outstanding and the tick it was given. (R294) warm: none -/
  challenge : Option (Bytes × Nat)
  /-- What the tag answered last over the air: its error code (0 none) and data. (R291–R296) warm: none -/
  answer : Option (Nat × Bytes)
  /-- TAG_ADOPT_WIN. [8,192 bytes] (R299) warm 0 -/
  adoptWin : Bytes
  /-- TAG_CT_ADOPTSEQ. [32] (R299) cold: from block 3 -/
  adoptSeq : Nat
  /-- TAG_CT_CNT: WRITES, TORN, AUTHFAIL, RXERR. [4 × 8] (R299) cold 0 -/
  ctWrites : Nat
  ctTorn : Nat
  ctAuthFail : Nat
  ctRxErr : Nat
  deriving DecidableEq, Repr, Inhabited

/-! ## Display and status lights (R301–R320) -/

/-- What a segment in flight runs now (R305, R309, R313). -/
inductive Run where
  /-- A waveform from `old` (4 = UNKNOWN) to `new` in `band`, `frame` frames done. -/
  | wave (old new band frame : Nat)
  /-- `n` recovery frames still to drive, POS or NEG (R313 step 2), for the journalled waveform and its frames. -/
  | comp (pos : Bool) (n old new band frame : Nat)
  deriving DecidableEq, Repr, Inhabited

/-- One display segment. -/
structure Segment where
  /-- State 0–3, or none for UNKNOWN. [2 + 1] (R307) retention; cold UNKNOWN -/
  state : Option Nat
  /-- The waveform in flight. (R309) warm: none -/
  run : Option Run
  /-- Targets to run after it, in order: the clear and redraw of FULL or of recovery. (R309 row 4, R313) warm: none -/
  next : List Nat
  /-- The pending target, its FULL flag and the request that set it. (R309) warm: none -/
  pend : Option (Nat × Bool × Nat)
  /-- The request the running waveform serves. (R309) warm: none -/
  req : Option Nat
  deriving DecidableEq, Repr, Inhabited

/-- An accepted EPD_UPDATE still running (R309); `none` for the metrology core's own. -/
structure EpdReq where
  id : Nat
  req : Option Req
  left : Nat
  replaced : Nat
  deriving DecidableEq, Repr, Inhabited

/-- The display journal (R312): entries are (segment, frames completed, old, new, band). -/
structure EpdJournal where
  ok : Bool
  frames : Nat
  entries : List (Nat × Nat × Nat × Nat × Nat)
  clean : Bool
  deriving DecidableEq, Repr, Inhabited

/-- One LED channel (R315, R316). -/
structure Led where
  /-- EPD_LEDn_CTL.DIM, STEP. [8 + 2] (R319) warm 255, 0 DESIGN CHOICE (log 3) -/
  dim : Nat
  step : Nat
  /-- EPD_LEDn_PAT. [32] (R319) warm 0 -/
  pat : Nat
  /-- EPD_LEDn_STAT.OPEN, OVERTEMP. [2] (R319) warm 0 -/
  isOpen : Bool
  overTemp : Bool
  deriving DecidableEq, Repr, Inhabited

/-- The display engine and the LEDs. -/
structure EpdBlock where
  /-- EPD_STATUS.ON, RUN, STOPPED. [3] (R319) warm 0 until boot -/
  on : Bool
  run : Bool
  stopped : Bool
  /-- EPD_STATUS.RECOVERY. [1] (R319) warm 0 -/
  recovery : Bool
  /-- EPD_STATUS.BAND, TEMP_RANGE. [4 + 1] (R319) warm 0 -/
  band : Nat
  tempRange : Bool
  /-- The band at restart, in which recovery redraws. [3] (R313 step 4) warm none -/
  recBand : Option Nat
  /-- The waveform table in force, and one waiting. EPD_STATUS.TBL_VALID, TBL_PEND. [≤ 16,384 bytes] (R304, R305) kept in its bank -/
  table : Option Bytes
  tablePend : Option Bytes
  /-- EPD_CTL: LEGAL_DWELL, TSRC, EN. [8 + 1 + 1] (R319) warm 10, 0 DESIGN CHOICE (log 3), 1 -/
  legalDwell : Nat
  tsrc : Bool
  en : Bool
  /-- EPD_TEMP.TEMP and the tick of its write. [16 signed] (R319) warm 0 DESIGN CHOICE (log 3), none -/
  temp : Int
  tempTick : Option Nat
  /-- Segments 0–159. (R307) -/
  segs : List Segment
  /-- Requests in progress, and the next request number. (R309) warm: none -/
  reqs : List EpdReq
  nextReq : Nat
  /-- Frames since the engine started. [32] (R312) warm 0 -/
  frames : Nat
  /-- The display journal. (R312) retention; cold: lost -/
  journal : Option EpdJournal
  /-- The next legal item. (R310) warm 0 -/
  legalItem : Nat
  /-- EPD_CNT: STOPS, RECOVERIES, TEMPREF, SUPERSEDED. [4 × 8] (R319) cold 0 -/
  stops : Nat
  recoveries : Nat
  tempRef : Nat
  superseded : Nat
  /-- EPD_CRACK: SHORT, OPEN, OHMS; EPD_STATUS.CRACK; consecutive bad readings. [2 + 16 + 1] (R319) warm 0 -/
  crackShort : Bool
  crackOpen : Bool
  crackOhms : Nat
  crack : Bool
  crackBad : Nat
  /-- LED channels 0–11. -/
  leds : List Led
  /-- Shared step counters of the four step times. [4 × 5] (R316) warm 0 -/
  ledStep : List Nat
  deriving DecidableEq, Repr, Inhabited

/-! ## Keys, identity and life cycle (R321–R346) -/

/-- Life-cycle state (R324, R345). -/
inductive Lc where
  | blank | provisioned | service | maintenance | recovery | retired
  deriving DecidableEq, Repr, Inhabited

/-- The life-cycle record of the key store (R325). -/
structure LcRec where
  state : Lc
  wipePending : Bool
  owner : Bytes
  recovery : Bytes
  deriving DecidableEq, Repr, Inhabited

/-- A maintenance grant (R327): the key and the seconds that remain. -/
structure Grant where
  key : Bytes
  seconds : Nat
  deriving DecidableEq, Repr, Inhabited

/-- A working-key slot (R330, R331, R345). -/
structure KeySlot where
  ktype : Nat
  usage : Nat
  param : Nat
  cls : Nat
  derived : Bool
  loaded : Bool
  material : Bytes
  deriving DecidableEq, Repr, Inhabited

/-- One copy of a blob (R332). -/
structure Blob where
  slot : Nat
  ktype : Nat
  cls : Nat
  usage : Nat
  param : Nat
  counter : Nat
  /-- The blob seed under which it was wrapped. -/
  seed : Bytes
  /-- The IV drawn for it. [12 bytes] (R332) -/
  iv : Bytes
  material : Bytes
  /-- CRC-32C and GCM tag match. -/
  ok : Bool
  deriving DecidableEq, Repr, Inhabited

/-- The key engine, the key store and Hedgehog. -/
structure KeyBlock where
  /-- KEY_LC.STATE. [3] (R324, R345) decided at every reset; first BLANK -/
  lc : Lc
  /-- The life-cycle record, copies A and B. [2 × 32 bytes] (R325) kept; first BLANK -/
  lcRec : Twin LcRec
  /-- Fuses LEFT_BLANK and RETIRED. [2] (R325, R345) kept; first 0 -/
  leftBlank : Bool
  retiredFuse : Bool
  /-- The running maintenance grant. [65 bytes + 20] (R327) kept until its end; first none -/
  grant : Option Grant
  /-- A return to SERVICE that waits for a running activation. (R327) warm: as the grant says -/
  returnDue : Bool
  /-- KEY_MAINT.SIDE and AUTH_S: the authority's side and its end in ticks. [2 + 10] (R327, R345) warm: none -/
  authority : Option (Side × Nat)
  /-- Outstanding challenges of the host and of the cluster, with the tick each ends. (R327) warm: none -/
  challenges : List (Option (Bytes × Nat))
  /-- The metrology authority key. [97 bytes] (R328) kept; first none -/
  metro : Option Bytes
  /-- Slots 0–31. KEY_SLOTn, KEY_SLOTMAP. [32] (R330, R345) warm: derived and loaded at boot -/
  slots : List KeySlot
  /-- Blob copies A and B of slots 3–31. [29 × 2 × 160 bytes] (R332) kept; first empty -/
  blobA : List (Option Blob)
  blobB : List (Option Blob)
  /-- The blob seed; none when erased. [32 bytes] (R332, R342) kept; first none DESIGN CHOICE (log 3) -/
  seed : Option Bytes
  /-- KEY_COUNTER. [64] (R337) kept; first 0 DESIGN CHOICE (log 3) -/
  counter : Nat
  /-- KEY_TAMPCNT. [32] (R341, R345) kept; first 0 DESIGN CHOICE (log 3) -/
  tampCnt : Nat
  /-- Originality key records 0–7. (R281, R335) kept; first none -/
  orig : List (Option OrigKey)
  /-- KEY_STATUS.READY, UPD_BUSY, WIPE, ZEROISED, RNG_FAIL. [5] (R345) warm 0 -/
  ready : Bool
  busy : Bool
  wipe : Bool
  zeroised : Bool
  rngFail : Bool
  /-- KEY_TAMPER.ACTIVE and LATCHED. [7 + 7] (R340, R345) warm 0 -/
  active : Nat
  latched : Nat
  /-- Detections latched in the VBAT domain and not yet acted on. [7] (R340) VBAT; first 0 -/
  vbatLatch : Nat
  /-- A tamper since the last attestation statement. [1] (R343) kept; first 0 DESIGN CHOICE (log 3) -/
  tamperSince : Bool
  /-- Both copies of the device certificate fail. [1] (R323, R344) kept; first 0 -/
  certBad : Bool
  /-- Tick of the last EV_KEY_MISUSE of each slot. (R331: at most one in 60 s) warm: none -/
  misuse : List (Option Nat)
  /-- KEY_CNT_HI latched per view (host, cluster). (R345) warm: none -/
  latchCnt : List (Option Nat)
  deriving DecidableEq, Repr, Inhabited

/-! ## Firmware and image update (R347–R363) -/

/-- State of a flash bank (R362). -/
inductive BankState where
  | empty | receiving | staged | trial | active | previous | failed
  deriving DecidableEq, Repr, Inhabited

/-- One flash bank with what the activation record keeps of it (R350, R354). -/
structure Bank where
  state : BankState
  version : Nat
  secVersion : Nat
  /-- SETTINGS_FORMAT of the header (R349). -/
  format : Nat
  /-- PAYLOAD_DIGEST of the header (R349). -/
  digest : Bytes
  /-- The 512-byte header (R349). -/
  header : Bytes
  /-- The plaintext the key engine gives when it loads the image (R350). -/
  payload : Bytes
  /-- The content key that the activation record keeps for the image (R350). -/
  cek : Bytes
  deriving DecidableEq, Repr, Inhabited

/-- One image kind (R348, R362). -/
structure Kind where
  /-- Banks A and B. UPD_Kk_STAT, VER, ALT. [4 + 4, 32, 32] (R362) kept; first EMPTY DESIGN CHOICE (log 3) -/
  a : Bank
  b : Bank
  /-- UPD_Kk_STAT.ACTIVE. [1] (R362) kept; first 0 DESIGN CHOICE (log 3) -/
  activeB : Bool
  /-- UPD_Kk_FLOOR. [32] (R355) kept; first 0 DESIGN CHOICE (log 3) -/
  floor : Nat
  deriving DecidableEq, Repr, Inhabited

/-- The open transfer (R351, R352). -/
structure Transfer where
  kind : Nat
  header : Bytes
  data : Bytes
  /-- The content key, unwrapped at UPD_BEGIN (R350). -/
  cek : Bytes
  /-- Tick of the last update command (R352). -/
  tick : Nat
  deriving DecidableEq, Repr, Inhabited

/-- A running trial (R356). -/
structure Trial where
  /-- 1–9, or 10 for a manifest. -/
  kind : Nat
  /-- The kinds it carries. -/
  parts : List Nat
  seconds : Nat
  starts : Nat
  confirmed : Bool
  /-- A manifest that changed the sealed section: the mirror of R43 step 7 waits (R357). -/
  sealChange : Bool
  deriving DecidableEq, Repr, Inhabited

/-- The activation record of the key store (R350, R359). -/
structure ActRec where
  pending : Bool
  committed : Bool
  parts : List Nat
  sealDigest : Option Bytes
  /-- SHA-384 of the header of the Warren copy that it names (R22). -/
  warren : Option Bytes
  /-- A rollback recorded for the next reset (R359), and the criterion broken. -/
  rollback : Bool
  criterion : Nat
  deriving DecidableEq, Repr, Inhabited

/-- A settings area (R360): the format in force, a migrated copy, and writes made since the migration. -/
structure Settings where
  format : Nat
  data : Bytes
  migrated : Option (Nat × Bytes)
  writes : Nat
  deriving DecidableEq, Repr, Inhabited

/-- The update function. -/
structure UpdBlock where
  /-- Kinds 1–10, in order. -/
  kinds : List Kind
  /-- The open transfer. UPD_STATUS.XFER, XFER_KIND, UPD_XFER. [1 + 4 + 32] (R362) warm: none -/
  xfer : Option Transfer
  /-- The running trial. UPD_TRIAL, UPD_STATUS.TRIAL. [32] (R356, R362) retention; first none -/
  trial : Option Trial
  /-- UPD_STATUS.ACT_BUSY: a manifest activation between acceptance and its reset. [1] (R359, R362) warm 0 -/
  actBusy : Bool
  /-- The activation record. (R359) kept; first none pending -/
  act : ActRec
  /-- UPD_STATUS.LAST_RC. [8] (R362) kept over the reset of R359; warm 0 otherwise -/
  lastRc : Nat
  /-- UPD_REJECT.ROW and RC. [8 + 8] (R362) warm 0 -/
  rejectRow : Nat
  rejectRc : Nat
  /-- UPD_CFG.KEYSLOT. [5] (R362) warm 3 -/
  keySlot : Nat
  /-- Settings areas of APP and BADGER. (R360) kept; first empty -/
  settings : List Settings
  deriving DecidableEq, Repr, Inhabited

/-! ## Badger, log, modes and sleep (R364–R384) -/

/-- Operating mode (R9, R383). -/
inductive Mode where
  | dormant | watch | ready | session | limp | maintenance
  deriving DecidableEq, Repr, Inhabited

/-- How far a sleep entry has come (R377). -/
inductive SleepPoint where
  /-- PREPARE sent, A1 not complete. -/
  | prepare
  /-- Every voter at A1, COMMIT due. -/
  | a1
  /-- COMMIT sent: saving towards A2. -/
  | saving
  /-- A2 reached by all, wake sources armed, A3 next. -/
  | armed
  deriving DecidableEq, Repr, Inhabited

/-- A running sleep entry (R375, R377). -/
structure SleepEntry where
  req : Req
  target : Nat
  point : SleepPoint
  deriving DecidableEq, Repr, Inhabited

/-- SYS_SLEEP (R383). -/
structure SleepOutcome where
  mask : Nat
  wake : Bool
  target : Nat
  point : Nat
  rc : Nat
  deriving DecidableEq, Repr, Inhabited

/-- SYS_HOLDLAST (R427). -/
structure HoldLast where
  vwarn : Nat
  duration : Nat
  short : Bool
  source : Bool
  done : Nat
  deriving DecidableEq, Repr, Inhabited

/-- A reset in force: the device waits for its boot (R419). -/
structure ResetHold where
  cold : Bool
  /-- Cause bits of SYS_RSTCAUSE. -/
  causes : Nat
  /-- Held by RST_N low (R419). -/
  pin : Bool
  deriving DecidableEq, Repr, Inhabited

/-- A record of Badger's log: the event and its SEQ (R369, R371). -/
structure LogRec where
  seq : Nat
  ev : Event
  deriving DecidableEq, Repr, Inhabited

/-- Dormouse: modes, resets, supplies, hold-up. -/
structure SysBlock where
  /-- SYS_MODE.MODE. [3] (R383) warm: DORMANT until boot complete DESIGN CHOICE (log 3) -/
  mode : Mode
  /-- SYS_MODE.HOLDUP. [1] (R383) warm 0 -/
  holdup : Bool
  /-- SYS_MODE.ENTRY with the running sleep entry. [1] (R383) warm: none -/
  entry : Option SleepEntry
  /-- SYS_MODE.APP_DOWN and BADGER_DOWN. [2] (R383) warm 0 -/
  appDown : Bool
  badgerDown : Bool
  /-- SYS_SLEEP. [32] (R383) cold 0 -/
  sleep : SleepOutcome
  /-- SYS_WAKESRC. [7] (R383) cold 0 -/
  wakeSrc : Nat
  /-- A wake latched while a supply was absent. [7] (R379, R425 row 9) retention; first 0 -/
  latchedWake : Nat
  /-- Wake sources armed by a sleep entry. [7] (R377 row 5) warm 0 -/
  armed : Nat
  /-- SYS_RSTCAUSE. [16] (R427) cold; written at every reset -/
  rstCause : Nat
  /-- SYS_HOLDCFG.WARN_MV. [15] (R427) warm 10,500 -/
  warnMv : Nat
  /-- SYS_HOLDLAST. [32] (R427) cold 0 -/
  holdLast : HoldLast
  /-- SYS_DOMRST: OWL, MET, BADGER, APP. [4 × 8] (R427) cold 0 -/
  domOwl : Nat
  domMet : Nat
  domBadger : Nat
  domApp : Nat
  /-- A reset asserted and not yet followed by its boot. (R419) first: VBAT_POR, cold -/
  reset : Option ResetHold
  /-- Device held until the supplies have been good for 2 ms. (R416) first: held -/
  held : Bool
  /-- R416 order violated at the last power-up: the early and the late rail. (R416) cold: none -/
  seqErr : Option (Nat × Nat)
  /-- A requested reset waiting for its save: cold, and its cause bit. (R421) warm: none -/
  reqReset : Option (Bool × Nat)
  /-- The save before it has begun, or R359 has taken its own. (R421) warm 0 -/
  resetSaved : Bool
  /-- The power-fail warning, latched. [1] (R418) warm 0 -/
  pfail : Bool
  /-- Boot of R422 has reached step 8. (R425 row 2) warm 0 -/
  booted : Bool
  /-- The last boot follows a hold-up. (R427) kept in retention; first 0 -/
  afterHoldup : Bool
  /-- PIN_BANK [3:0] and, at bit 7, VDDC good; PIN_BANK [6:4] is the complement of GRP_UV. [5] (R414, R446) by the supplies; first not good -/
  rails : Nat
  /-- Retention log buffer, oldest first, at most 256. (R372) retention; cold empty -/
  retLog : List Event
  /-- A record was dropped from the retention buffer, so the next carries FLAGS[1]. (R372) retention; first 0 -/
  retLost : Bool
  deriving DecidableEq, Repr, Inhabited

/-- A mailbox of Badger (R367, R383). -/
structure Mailbox where
  /-- MGT_xMB_CTL.IN_BELL and OUT_BELL. [2] (R383) warm 0 -/
  inBell : Bool
  outBell : Bool
  /-- The windows. [2 × 64 bytes] (R383) warm 0 -/
  inWin : Bytes
  outWin : Bytes
  deriving DecidableEq, Repr, Inhabited

/-- Badger. -/
structure MgtBlock where
  /-- MGT_LOGSEQ: the newest SEQ. [32] (R383) kept; first 0 DESIGN CHOICE (log 3) -/
  seq : Nat
  /-- MGT_LOGACK. [32] (R383) kept; first 0 DESIGN CHOICE (log 3) -/
  ack : Nat
  /-- RAM ring, oldest first, at most 512, and how many of its newest wait for the archive. (R371) warm: empty -/
  ring : List LogRec
  waiting : Nat
  /-- Archive rings in Squirrel, oldest first: LEGAL, at most 65,536; general, at most 458,752. (R371) kept; first empty -/
  legal : List LogRec
  general : List LogRec
  /-- MGT_LOGCNT: LEGAL_LOST, DROPPED, CRCERR. [16 + 8 + 8] (R383) cold 0 -/
  legalLost : Nat
  dropped : Nat
  crcErr : Nat
  /-- Corrected errors of the metrology SRAM. (R83: counted in MGT; no register shows it) cold 0 DESIGN CHOICE (log 3) -/
  sramErr : Nat
  /-- Snapshots passed to Badger for the Squirrel archive, newest first. (R102) kept; first empty -/
  snapArchive : List Bytes
  /-- Onset of the loss of unacknowledged LEGAL records; watermark passed; a flush has failed. (R371, R375) warm 0 -/
  overOn : Bool
  watermark : Bool
  flushFailed : Bool
  /-- MGT_SLEEPCNT: ENTERED, REFUSED, ABANDONED, QLOST. [4 × 8] (R383) cold 0 -/
  entered : Nat
  refused : Nat
  abandoned : Nat
  qLost : Nat
  /-- MGT_SUPWARN. [10] (R383) warm 0 -/
  supWarn : Nat
  /-- MGT_TEMPs. [6 × 16 signed] (R383) warm 0 -/
  temps : List Int
  /-- MGT_SUPv. [10 × 32] (R383) warm 0 -/
  sups : List Nat
  /-- MGT_STATUS.THERM. [3] (R383) warm 0 -/
  therm : Nat
  /-- Evaluations at 145 °C or more, and below 125 °C, in a row. (R368) warm 0 -/
  hotRun : Nat
  coolRun : Nat
  /-- MGT_STATUS.VBAT_LOW and LFRC. [2] (R383) warm 0 -/
  vbatLow : Bool
  lfRc : Bool
  /-- MGT_STATUS.MBX_OVF. [8] (R383) warm 0 -/
  mbxOvf : Nat
  /-- Ticks of the Badger watchdog expiries, and of the cluster restarts, of the last hour. (R365, R366) warm: none -/
  wdtTicks : List Nat
  appTicks : List Nat
  /-- Badger, and the cluster, held in reset after the third. (R365, R366) warm 0 -/
  badgerHeld : Bool
  appHeld : Bool
  /-- Tick of the last heartbeat, and of the first after the last start. (R366, R374 row 5) warm: none -/
  hbTick : Option Nat
  hbSince : Option Nat
  /-- Mailboxes HMB and AMB. (R367) -/
  hmb : Mailbox
  amb : Mailbox
  deriving DecidableEq, Repr, Inhabited

/-! ## Host interface and CAN FD (R385–R412) -/

/-- A result slot (R399, R400). -/
structure Slot where
  sts : Nat
  ready : Bool
  running : Bool
  readCount : Nat
  code : Nat
  gen : Nat
  rlen : Nat
  detail : Nat
  ts : Nat
  roff : Nat
  rcap : Nat
  /-- FLAGS.IRQ of the descriptor (R394). -/
  irq : Bool
  /-- The range from `roff` of `rcap` bytes is claimed (R400). -/
  claimed : Bool
  deriving DecidableEq, Repr, Inhabited

/-- A command handed to its executor and not yet ended (R396). -/
structure Flight where
  tag : Nat
  code : Nat
  params : Bytes
  deriving DecidableEq, Repr, Inhabited

/-- One command ring (R393–R401). -/
structure Ring where
  /-- HSI_x_CTAIL and CHEAD. [8 + 8] (R404) warm 0 DESIGN CHOICE (log 3) -/
  tail : Nat
  head : Nat
  /-- HSI_x_RERR: COUNT, CAUSE, TAG, CODE. [6 + 2 + 7 + 16] (R404) warm 0 -/
  errCount : Nat
  errCause : Nat
  errTag : Nat
  errCode : Nat
  /-- HSI_x_IRQ_STAT.RERR, LINKERR, RESET, WAKE, SPACE. [5] (R404) warm 0, RESET set -/
  irqRerr : Bool
  irqLink : Bool
  irqReset : Bool
  irqWake : Bool
  irqSpace : Bool
  /-- HSI_x_IRQ_EN. [7] (R404) warm 0x3F -/
  irqEn : Nat
  /-- HSI_x_DONE0–3. [4 × 32] (R404) warm 0 -/
  done : List Nat
  /-- Descriptors. [128 × 32 bytes] (R394) warm 0 -/
  desc : List Bytes
  /-- Result slots by tag. [128 × 32 bytes] (R399) warm 0 -/
  slots : List Slot
  /-- Commands at their executors, in order of consumption. (R396) warm: none -/
  flight : List Flight
  /-- The ring was full at the last consumption. (R404 SPACE) warm 0 -/
  wasFull : Bool
  /-- The ring's half of exchange memory. [131,072 bytes] (R393) warm: wiped, 0 -/
  mem : List Host.Cell
  /-- Tick of the last EV_HSI_RING. (R395: at most one in 60 s) warm: none -/
  errTick : Option Nat
  deriving DecidableEq, Repr, Inhabited

/-- The host interface. -/
structure HsiBlock where
  /-- HSI_STATUS.H_READY and C_READY. [2] (R404) warm 0 until boot -/
  hReady : Bool
  cReady : Bool
  /-- HSI_CFG.DUMMY. [4] (R404) warm 8 -/
  dummy : Nat
  /-- HSI_LINKCNT: CRCERR, LENERR, ABORT, WAITERR. [4 × 8] (R404) cold 0 -/
  crcErr : Nat
  lenErr : Nat
  abort : Nat
  waitErr : Nat
  /-- Tick of the last EV_HSI_LINK. (R391: at most one in 60 s) warm: none -/
  linkTick : Option Nat
  /-- Ring H and ring C. -/
  h : Ring
  c : Ring
  deriving DecidableEq, Repr, Inhabited

/-- CANc_STAT.STATE (R410). -/
inductive CanState where
  | off | active | passive | busOff | stuck
  deriving DecidableEq, Repr, Inhabited

/-- One CAN FD controller. -/
structure Can where
  /-- CANc_STAT.STATE and TDCV. [3 + 7] (R410) warm off, 0 -/
  state : CanState
  tdcv : Nat
  /-- CANc_CFG: TXTO, AUTOREC, LISTEN, FD, EN. [12 + 4] (R410) warm 100, 1, 0, 0, 0 DESIGN CHOICE for the last three (log 3) -/
  txto : Nat
  autorec : Bool
  listen : Bool
  fd : Bool
  en : Bool
  /-- CANc_NBT and CANc_DBT. [32 + 32] (R410) warm 0 DESIGN CHOICE (log 3) -/
  nbt : Nat
  dbt : Nat
  /-- CANc_ERRC: TEC and REC. [8 + 8] (R410) warm 0 -/
  tec : Nat
  recCtr : Nat
  /-- CANc_CNT: RXLONG, RXDROP, BUSOFF, TXTIMEOUT. [4 × 8] (R410) cold 0 -/
  rxLong : Nat
  rxDrop : Nat
  busOffs : Nat
  txTimeout : Nat
  /-- CANc_FLTf_ID and MASK. [32 × (32 + 29)] (R410) warm 0 DESIGN CHOICE (log 3) -/
  filters : List (Nat × Nat)
  rings : Rings
  /-- Owl's queue for this controller, at most 4 frames. (R205, R407) warm: none -/
  efdom : List Bytes
  deriving DecidableEq, Repr, Inhabited

/-! ## The device -/

/-- What manufacture fixes (R1, R322). -/
structure Ident where
  /-- HKV-4280. -/
  small : Bool
  /-- E grade. -/
  gradeE : Bool
  /-- Device identity. [64] (R322) -/
  deviceId : Nat
  deriving DecidableEq, Repr, Inhabited

/-- What the last ring command answered (R399): the model's own record, kept also where no slot is RUNNING. -/
structure Result where
  req : Req
  sts : Nat
  detail : Nat
  bytes : Bytes
  deriving DecidableEq, Repr, Inhabited

/-- The state of the HKV-4480 and the queue of commands that wait. -/
structure State where
  /-- Variant, grade and identity. [1 + 1 + 64] (R1, R322) fixed -/
  ident : Ident
  str : StrBlock
  lane : LaneBlock
  met : MetBlock
  bil : BilBlock
  pwr : PwrBlock
  flt : FltBlock
  owl : OwlBlock
  vlk : List Link
  glk : GlkBlock
  eth : EthBlock
  tim : TimBlock
  tag : TagBlock
  epd : EpdBlock
  key : KeyBlock
  upd : UpdBlock
  sys : SysBlock
  mgt : MgtBlock
  hsi : HsiBlock
  can : List Can
  /-- Application SRAM. [4 MiB] (R4, R235) warm: wiped, 0 -/
  sram : List Host.Cell
  /-- Model's own: ticks of the 122.88 MHz time-base clock since the start; the clock of every duration. 0 DESIGN CHOICE (log 4) -/
  ticks : Nat
  /-- Model's own: draws from the free values made so far. 0 DESIGN CHOICE (log 5) -/
  freeCtr : Nat
  /-- Model's own: the last posted result. none (log 6) -/
  result : Option Result
  /-- Model's own: the word the last register read returned. 0 (log 6) -/
  rdata : Nat
  /-- Model's own: the commands that wait, first in, first out. empty -/
  pending : List Instr
  deriving DecidableEq, Repr

/-- Reasons for a stop by a fault. None: every command of the table has an effect the spec gives. -/
inductive Fault where
  /-- Raised by no meaning: kept so that the type names a fault at all. Safe: nothing answers with it. -/
  | none
  deriving DecidableEq, Repr

/-- Reasons for a refusal. -/
inductive Refusal where
  /-- Raised by an arm of `exec` whose command has no meaning yet, under its mnemonic. Safe. -/
  | notModelled (mnemonic : String)
  deriving DecidableEq, Repr

/-! ## Reset -/

/-- An empty structure (R38: NOSTRUCT). -/
def Struct.none : Struct :=
  { seq := 0, sealVer := 0, safeVer := 0, openVer := 0, lanes := [], outlets := [], groups := [], meters := [],
    cals := [], firs := [], metDigest := [], saveS := 0, contactors := [], gates := [], guards := [], trips := [],
    limps := [], blocks := 0, switches := [], limpMaps := [], pinmux := [], regions := [], leds := [], notch := .none }

/-- A clean word of value 0. -/
def LaneWord.zero : LaneWord := { val := 0, crc := 0, taint := false, quiet := false, stage := 0, hit := false }

/-- The reset values of a lane (R79). -/
def Lane.fresh : Lane :=
  { health := .absent, partner := 0xFF, stage := 0, trial := false, trialEnd := false, bankB := false,
    overload := false, stuck := false, high := false, bits := 0, cicInt := [], cicComb := [], tapInt := [0, 0],
    tapComb := [0, 0], tap := 0, tapParity := false, clkerr := false, envDecay := 100, gain := 0, delay := 0,
    cic := 0, firIndex := 0, crcErr := false, swap := false, firCrc := 0, bankA := [], bankBTaps := [], hist := [],
    dly := [], out := [], seq := 0, sample := LaneWord.zero, peakAcc := 0, envAcc := 0, overWin := false, overPrev := false,
    overEnv := false, peak := 0, peakOver := false, rms := 0, rmsOver := false, env := 0, envOver := false,
    detGen := 0, chkErr := 0, ovld := 0, strikes := 0, trig := .none, ovldLogged := .none }

/-- The reset values of a resampler (R79). -/
def Resampler.fresh : Resampler :=
  { state := .absent, freq := 0, cycles := 0, outOf := 0, inRange := 0, idx := 0, phase := 0, adj := 0, due := .none,
    fill := 0, samples := 0, filt := [], prev := .none, sum := 0, count := 0, mean := 0, cross := .none, measured := 0,
    aligned := false, lines := [] }

/-- Reset values of the metrology view of an outlet (R117, R119). -/
def MetOutlet.fresh : MetOutlet :=
  { acc := List.replicate 10 0, harm := List.replicate 63 0, accInv := List.replicate 10 (2 ^ 80 - 1),
    harmInv := List.replicate 63 (2 ^ 80 - 1), groups := [], nometer := false, estimated := false,
    creep := false, exporting := false, harmInvalid := false, quadrant := 0, pMw := 0, qMvar := 0, calP := 0,
    calQ := 0, estNs := 0, goodNs := 0, nomNs := 0, trialNs := 0, inTrial := false, estSince := false, session := 0,
    startDue := false, endDue := .none }

/-- Reset values of a pulse output (R108, R119). -/
def Pulse.fresh : Pulse := { phase := .idle, rem := 0, backlog := 0, ovf := false, ovfOn := false }

/-- The legal counters of a store never written (R112). -/
def LegalCounters.fresh : LegalCounters :=
  { generation := 0, outages := 0, est := [0, 0, 0, 0], unmetered := [0, 0, 0, 0], trial := [0, 0, 0, 0],
    rollovers := [0, 0, 0, 0], outageS := 0, saveFallbacks := 0, accRestores := 0, timeSteps := 0 }

/-- A record store holding `v` in both copies. -/
def Twin.both {α : Type} (v : α) : Twin α :=
  { a := { seq := 0, ok := true, val := v }, b := { seq := 0, ok := true, val := v } }

/-- Empty demand state (R133). -/
def Demand.fresh : Demand :=
  { start := 0, irregular := false, outage := false, notFull := true, subIndex := 0, subsClosed := 0, subE := [],
    subIrr := [], subOut := [] }

/-- Reset values of an outlet's billing state (R123, R124, R132). -/
def BilOutlet.fresh : BilOutlet :=
  { timp := List.replicate 8 0, texp := List.replicate 8 0, md := List.replicate 8 (0, 0), tariff := 1,
    demand := Demand.fresh, seen := 0, dlast := 0, dlastIrr := false, dlastOut := false, profBase := [0, 0, 0, 0],
    profFlags := 0, profQueue := [], profLost := 0 }

/-- The billing control record of a store never written (R129, R135). -/
def BillCtl.fresh : BillCtl :=
  { lastBoundary := 0, lastBill := 0, period := 1, snapNext := 0, snapCount := 0, activeSlot := .none,
    passiveSlot := .none, activeSeq := 0, passiveSeq := 0, highestSeq := 0, tidFloor := 0, passiveAct := 0,
    mirroredSeq := 0 }

/-- Reset values of a load-switch channel (R180). -/
def Channel.fresh : Channel :=
  { ctlOn := false, state := .absent, supDemand := false, openOn := false, openOff := false, retries := 0,
    exceeded := false, cur := 0, temp := 0, overloads := 0, thermal := 0, uvCount := 0 }

/-- Reset values of a cable lock (R178, R180). -/
def Lock.fresh : Lock := { state := .none, fb := false, seen := false, second := false, pause := false }

/-- Reset values of a residual-current monitor (R180). -/
def Residual.fresh : Residual :=
  { idc := 0, iac := 0, dcTrip := false, acTrip := false, held := List.replicate 6 0, base := 0 }

/-- Reset values of an isolation monitor (R174, R180). -/
def Iso.fresh : Iso :=
  { state := .off, injN := false, avgP := .none, avgN := .none, rp := 0, rn := 0, riso := 0 }

/-- Reset values of FLT_WELDo_STAT (R180). -/
def Weld.fresh : Weld := { result := .none, postOpen := false, inconc := 0, preOpen := false }

/-- Owl's configuration with no verifier, no connection and no cause (R199). -/
def OwlCfg.fresh : OwlCfg :=
  { verifier := .none, fails := 0, lockLen := 0, lockEnd := .none, held := List.replicate 4 false,
    autoclr := List.replicate 4 0,
    efdom := List.replicate 8 { dir := 0, transport := 0, mask := 0, peer := 0, period := 0, watchdog := 0, addr := 0 },
    causes := List.replicate 4 0 }

/-- Reset values of an Efdom connection (R211). -/
def EfdomConn.fresh : EfdomConn :=
  { state := .off, lastSeq := 0, safeWord := 0, inRow := 0, discards := 0, watchdog := 0, sent := 0, crc := 0,
    seqErr := 0, lost := 0, timeouts := 0, len := 0, fmt := 0, addr := 0, repeats := 0 }

/-- Reset values of a ring pair (R240). -/
def Rings.fresh : Rings :=
  { txBase := 0, txTail := 0, txHead := 0, rxBase := 0, rxTail := 0, rxHead := 0, dropTick := .none, dropped := 0, wire := [] }

/-- Reset values of a vehicle link (R240). -/
def Link.fresh : Link :=
  { cp := .none, prev := .none, diode := false, cpHi := 0, cpLo := 0, disc := 6, fallback := false, ventOk := false,
    ppMode := 0, reqMode := 0, reqCur := 0, mode := 0, trans := false, ppCode := 0, ppOhms := 0, sessCap := .none,
    sup := .absent, phase := .none, why := .cold, relTries := 0, preTries := 0, endCause := 0, meterOpen := false,
    gate := false, uvPause := false, session := 0, startHeld := false, pilotHeld := .none, limpHit := false, bcTicks := [],
    row3Seen := false, ventSeen := false, faultHold := false, faultUntilA := false, slac := .off, runId := .none,
    attenRun := .none, attenSent := 0, oldRuns := [], heard := [], own := 0, other := 0, sounds := 0, ambig := false,
    validated := false, suppressed := false, soundTick := 0, window := .none, nmk := .none, sent := .none, rxLong := 0, rxDrop := 0,
    rxDecrypt := 0, txTimeout := 0, illegal := 0, fmt := 0, slacFail := 0, overdraw := 0, rings := Rings.fresh }

/-- Reset values of a domain (R260, R262, R273). -/
def Domain.fresh : Domain :=
  { t := 0, inc := 0x82355555, slew := 0, state := .free, steps := 0, ofs := 0 }

/-- Reset values of a display segment: UNKNOWN (R307). -/
def Segment.fresh : Segment := { state := .none, run := .none, next := [], pend := .none, req := .none }

/-- Reset values of an LED channel (R319). -/
def Led.fresh : Led := { dim := 255, step := 0, pat := 0, isOpen := false, overTemp := false }

/-- An empty working-key slot (R345). -/
def KeySlot.fresh : KeySlot :=
  { ktype := 0, usage := 0, param := 0, cls := 0, derived := false, loaded := false, material := [] }

/-- An empty bank (R362). -/
def Bank.fresh : Bank :=
  { state := .empty, version := 0, secVersion := 0, format := 0, digest := [], header := [], payload := [], cek := [] }

/-- An image kind with both banks empty (R362). -/
def Kind.fresh : Kind := { a := Bank.fresh, b := Bank.fresh, activeB := false, floor := 0 }

/-- A free result slot (R400). -/
def Slot.fresh : Slot :=
  { sts := 0, ready := false, running := false, readCount := 0, code := 0, gen := 0, rlen := 0, detail := 0, ts := 0,
    roff := 0, rcap := 0, irq := false, claimed := false }

/-- Reset values of a command ring (R400, R404): every slot wiped; ring H's RESET cause is set. -/
def Ring.fresh (host : Bool) : Ring :=
  { tail := 0, head := 0, errCount := 0, errCause := 0, errTag := 0, errCode := 0, irqRerr := false, irqLink := false,
    irqReset := host, irqWake := false, irqSpace := false, irqEn := 0x3F, done := List.replicate 4 0,
    desc := List.replicate 128 (zeros 32), slots := List.replicate 128 Slot.fresh, flight := [], wasFull := false,
    mem := [], errTick := .none }

/-- Reset values of a CAN controller (R410). -/
def Can.fresh : Can :=
  { state := .off, tdcv := 0, txto := 100, autorec := true, listen := false, fd := false, en := false, nbt := 0,
    dbt := 0, tec := 0, recCtr := 0, rxLong := 0, rxDrop := 0, busOffs := 0, txTimeout := 0,
    filters := List.replicate 32 (0, 0), rings := Rings.fresh, efdom := [] }

/-- Reset values of a mailbox (R383). -/
def Mailbox.fresh : Mailbox := { inBell := false, outBell := false, inWin := zeros 64, outWin := zeros 64 }

/-- STR after reset (R46). -/
def StrBlock.fresh : StrBlock :=
  { copies := List.replicate 2 { bytes := [], sel := .empty, selSeq := 0 }, cur := Struct.none, copyInUse := 0,
    noStruct := false, fallback := false, locked := false, lastRc := 0, actReason := 0, aReason := 0, bReason := 0,
    sealCnt := 0, subst := List.range 40, act := .none }

/-- LANE after reset (R79). -/
def LaneBlock.fresh : LaneBlock :=
  { lanes := List.replicate 40 Lane.fresh, rs := List.replicate 4 Resampler.fresh, queue := [], warm := [] }

/-- MET and the metrology store after the first reset (R111–R119). -/
def MetBlock.fresh : MetBlock :=
  { run := false, storeFault := false, stopped := false, outs := List.replicate 4 MetOutlet.fresh,
    pulses := List.replicate 4 Pulse.fresh, legal := Twin.both LegalCounters.fresh, sealedRec := Twin.both .none,
    subst := [], slots := [.none, .none], saving := .none, fallback := false, saveTick := 0, snapOutlets := 0,
    snapTake := false, snapRc := 0, snapQueue := [], snapWait := [], snapWin := zeros 4096, snapGen := 0, restartDue := .none,
    sessionRing := [], staging := [], harmOutlet := 0, harmOrder := 1, calCycles := 0,
    calOutlet := 0, calStart := false, calStop := false, calDone := 0, calRc := 0, calDoneFlag := false,
    calRun := false, latch := [.none, .none] }

/-- BIL and the billing area after the first reset (R129–R152). -/
def BilBlock.fresh : BilBlock :=
  { ctl := Twin.both BillCtl.fresh, cals := [.none, .none], outs := List.replicate 4 BilOutlet.fresh,
    ring := List.replicate 24 { state := .empty, bytes := [] }, journal := [], credit := 0, tokens := [],
    tokenNext := 1, replay := [], mirror := Twin.both [], baseDate := .none, calReason := 0, calRc := 0, tokRc := 0, tokReason := 0,
    exhausted := false, lastTokenS := 0, resetDue := false, step := .none, backFrom := 0, dayProf := 0, season := 0,
    special := false, dst := false, lastSeen := 0, latch := [.none, .none], squirrel := [] }

/-- PWR after reset (R180). -/
def PwrBlock.fresh : PwrBlock :=
  { ch := List.replicate 12 Channel.fresh, grpMv := [0, 0, 0], grpUv := [false, false, false], limpLow := false,
    lhIn := 0, locks := List.replicate 4 Lock.fresh }

/-- FLT after reset (R180). -/
def FltBlock.fresh : FltBlock :=
  { src := { kind := 0, inst := 0, level := 0 }, above := [], rcAbove := [], supTrue := [],
    rc := List.replicate 4 Residual.fresh, iso := List.replicate 4 Iso.fresh, weld := List.replicate 4 Weld.fresh }

/-- OWL after the first reset (R184, R193, R199, R211). -/
def OwlBlock.fresh : OwlBlock :=
  { state := .start, startFailed := false, diag := 0, diagTick := List.replicate 12 .none, watchdogBad := false,
    oscBad := false, supplyBad := false, pfail := false, released := List.replicate 4 false,
    requested := List.replicate 4 false, unproven := List.replicate 4 true, need := List.replicate 4 0,
    withhold := List.replicate 4 1, meterOk := List.replicate 4 false, meterLost := List.replicate 4 true,
    weldSeen := List.replicate 4 false, causes := List.replicate 4 0,
    hold := List.replicate 4 (List.replicate 9 0), ran := false,
    lastTrue := List.replicate 4 (List.replicate 9 .none), tripped := [], src := { kind := 0, inst := 0, mask := 0 }, guardOpen := 0,
    guardDis := 0, proof := { ok := false, seen := 0, causes := [0, 0, 0, 0], safeDigest := [] },
    cfg := Twin.both OwlCfg.fresh, cfgLost := false, cfgDirty := false, log := [], logSeq := 0, session := .none,
    efd := List.replicate 8 EfdomConn.fresh, masqTick := .none }

/-- GLK's grid link after the first reset (R256). -/
def GlkBlock.fresh : GlkBlock :=
  { assoc := .off, en := false, backhaul := 0, nmkSlot := 0, zcLane := 0x3F, lifetime := 2000, tei := 0, ccoTei := 0,
    nekGen := 0, nek := .none, oldNek := .none, leaseEnd := .none, requests := 0, backoff := 1, backingOff := false,
    sync := false, period := 0, offsets := [], nbSel := 0, nbs := [], nbFullTick := .none, nbFullCount := 0,
    wakeSeq := 0, wakeArmed := false, wakeInhibit := false, wakeTick := .none, replays := [], wakePend := .none,
    rxLong := 0, rxDrop := 0, rxDecrypt := 0, txTimeout := 0, lostCnt := 0, fmt := 0, wakeCnt := 0, wakeRej := 0,
    rings := Rings.fresh, msdu := .none, reasm := [], rxMaps := [], beacons := 0, sent := [], efdom := [] }

/-- The Ethernet MAC after reset (R256). -/
def EthBlock.fresh : EthBlock :=
  { en := false, refclk := false, phyAddr := 0, link := false, speed := false, duplex := false, failover := false,
    linkTick := 0, go := false, wr := false, addr := 0, reg := 0, data := 0, fcsErr := 0, rxLong := 0, rxDrop := 0,
    txTimeout := 0, rings := Rings.fresh, efdom := [] }

/-- TIM after the first reset (R270, R273). -/
def TimBlock.fresh : TimBlock :=
  { dom := [Domain.fresh, Domain.fresh], now := 0, now32 := 0, sel := 0, converging := false, selPend := .none,
    stepGen := 0, holdover := 3600, auto := true, row4 := false, rtc := 0, retOfs := [0, 0],
    retValid := [false, false], rtcErr := 0, rtcCal := false, rtcLost := true, alarmS := 0, alarmEn := false,
    alarm := false, bcnTs := 0, bcnBts := 0, bcnGen := 0, ptp := [], ptpOvf := false, ptpLost := 0, ptpOvfOn := false,
    latchNow := [.none, .none], latchDom := [.none, .none], latchBcn := [.none, .none] }

/-- TAG after the first reset (R292, R299). -/
def TagBlock.fresh : TagBlock :=
  { reader := .off, loaded := false, limpPend := .none, extField := false, detect := false, hold := 500, poll := 250,
    detThr := 4, techV := true, techB := true, techA := true, en := true, base := 0, last := 0, offBase := 0,
    afterDetect := false, coll := 0, rxErr := 0, timeouts := 0, falseDet := 0, cache := [], mirror := Twin.both [],
    mirrorPend := false, chkErr := 0, reports := [], rptOvf := false, rptLost := 0, rptOvfOn := false, present := [], foreign := 0,
    held := .none, ct := List.replicate 256 { data := zeros 32, ok := true }, ctState := .isOpen, ctSecured := false,
    field := false, harv := false, writing := false, adopted := false, lastErr := 0, fails := 0,
    challengeLock := false, challenge := .none, answer := .none, adoptWin := zeros 8192, adoptSeq := 0, ctWrites := 0,
    ctTorn := 0, ctAuthFail := 0, ctRxErr := 0 }

/-- EPD after the first reset (R307, R319). -/
def EpdBlock.fresh : EpdBlock :=
  { on := false, run := false, stopped := false, recovery := false, band := 0, tempRange := false, recBand := .none, table := .none,
    tablePend := .none, legalDwell := 10, tsrc := false, en := true, temp := 0, tempTick := .none,
    segs := List.replicate 160 Segment.fresh, reqs := [], nextReq := 0, frames := 0, journal := .none, legalItem := 0,
    stops := 0, recoveries := 0, tempRef := 0, superseded := 0, crackShort := false, crackOpen := false,
    crackOhms := 0, crack := false, crackBad := 0, leds := List.replicate 12 Led.fresh, ledStep := [0, 0, 0, 0] }

/-- KEY after the first reset (R325, R345): a device in BLANK. -/
def KeyBlock.fresh : KeyBlock :=
  { lc := .blank, lcRec := Twin.both { state := .blank, wipePending := false, owner := [], recovery := [] },
    leftBlank := false, retiredFuse := false, grant := .none, returnDue := false, authority := .none,
    challenges := [.none, .none], metro := .none, slots := List.replicate 32 KeySlot.fresh,
    blobA := List.replicate 32 .none, blobB := List.replicate 32 .none, seed := .none, counter := 0, tampCnt := 0,
    orig := List.replicate 8 .none, ready := false, busy := false, wipe := false, zeroised := false, rngFail := false,
    active := 0, latched := 0, vbatLatch := 0, tamperSince := false, certBad := false,
    misuse := List.replicate 32 .none, latchCnt := [.none, .none] }

/-- UPD after the first reset (R362). -/
def UpdBlock.fresh : UpdBlock :=
  { kinds := List.replicate 10 Kind.fresh, xfer := .none, trial := .none, actBusy := false,
    act := { pending := false, committed := false, parts := [], sealDigest := .none, warren := .none, rollback := false, criterion := 0 },
    lastRc := 0,
    rejectRow := 0, rejectRc := 0, keySlot := 3,
    settings := List.replicate 2 { format := 0, data := [], migrated := .none, writes := 0 } }

/-- SYS at the first power-up (R383, R415, R419, R427): a VBAT_POR, held until the supplies are good. -/
def SysBlock.fresh : SysBlock :=
  { mode := .dormant, holdup := false, entry := .none, appDown := false, badgerDown := false,
    sleep := { mask := 0, wake := false, target := 0, point := 0, rc := 0 }, wakeSrc := 0, latchedWake := 0,
    armed := 0, rstCause := 0, warnMv := 10500,
    holdLast := { vwarn := 0, duration := 0, short := false, source := false, done := 0 }, domOwl := 0, domMet := 0,
    domBadger := 0, domApp := 0, reset := .some { cold := true, causes := 4, pin := false }, held := true,
    seqErr := .none, reqReset := .none, resetSaved := false, pfail := false, booted := false, afterHoldup := false, rails := 0,
    retLog := [], retLost := false }

/-- MGT after the first reset (R383). -/
def MgtBlock.fresh : MgtBlock :=
  { seq := 0, ack := 0, ring := [], waiting := 0, legal := [], general := [], legalLost := 0, dropped := 0,
    crcErr := 0, sramErr := 0, snapArchive := [], overOn := false, watermark := false, flushFailed := false, entered := 0, refused := 0,
    abandoned := 0, qLost := 0, supWarn := 0, temps := List.replicate 6 0, sups := List.replicate 10 0, therm := 0,
    hotRun := 0, coolRun := 0, vbatLow := false, lfRc := false, mbxOvf := 0, wdtTicks := [], appTicks := [],
    badgerHeld := false, appHeld := false, hbTick := .none, hbSince := .none, hmb := Mailbox.fresh,
    amb := Mailbox.fresh }

/-- HSI after reset (R404). -/
def HsiBlock.fresh : HsiBlock :=
  { hReady := false, cReady := false, dummy := 8, crcErr := 0, lenErr := 0, abort := 0, waitErr := 0,
    linkTick := .none, h := Ring.fresh true, c := Ring.fresh false }

/-- The HKV-4480 of S grade right after its first cold reset, before its boot (R419 VBAT_POR, R422): every register at
the value the spec gives for reset; where it gives none, at the value log 3 names. -/
def State.reset : State :=
  { ident := { small := false, gradeE := false, deviceId := 0 }, str := StrBlock.fresh, lane := LaneBlock.fresh,
    met := MetBlock.fresh, bil := BilBlock.fresh, pwr := PwrBlock.fresh, flt := FltBlock.fresh,
    owl := OwlBlock.fresh, vlk := List.replicate 4 Link.fresh, glk := GlkBlock.fresh, eth := EthBlock.fresh,
    tim := TimBlock.fresh, tag := TagBlock.fresh, epd := EpdBlock.fresh, key := KeyBlock.fresh, upd := UpdBlock.fresh,
    sys := SysBlock.fresh, mgt := MgtBlock.fresh, hsi := HsiBlock.fresh, can := List.replicate 2 Can.fresh, sram := [],
    ticks := 0, freeCtr := 0, result := .none, rdata := 0, pending := [] }

end Sys2Proof.Machine
end

