-- ==== Sys2Proof/Machine/Ops.lean ====
section
/-! DEFINITION. The named operations every block uses: status codes, memory, time, free values, the structure in
force, events and the log's entry, command results, mailbox notices and mode changes. -/

namespace Sys2Proof.Machine

/-! ## Status codes (R17) -/

def stsOk : Nat := 0
def stsPending : Nat := 1
def stsRefused : Nat := 2
def stsLengthRange : Nat := 3
def stsAuthFail : Nat := 4
def stsState : Nat := 5
def stsBusy : Nat := 6
def stsIntegrity : Nat := 7
def stsLifecycle : Nat := 8
def stsAbsent : Nat := 9
def stsTimeout : Nat := 0x0A
def stsVersion : Nat := 0x0B

/-- The first condition that fails decides (R18); STS_OK when none does. -/
def firstFail : List (Bool × Nat) → Nat
  | [] => stsOk
  | (bad, sts) :: rest => if bad then sts else firstFail rest

/-! ## Updates of one block -/

def onStr (f : StrBlock → StrBlock) (s : State) : State := { s with str := f s.str }
def onLaneBlk (f : LaneBlock → LaneBlock) (s : State) : State := { s with lane := f s.lane }
def onMet (f : MetBlock → MetBlock) (s : State) : State := { s with met := f s.met }
def onBil (f : BilBlock → BilBlock) (s : State) : State := { s with bil := f s.bil }
def onPwr (f : PwrBlock → PwrBlock) (s : State) : State := { s with pwr := f s.pwr }
def onFlt (f : FltBlock → FltBlock) (s : State) : State := { s with flt := f s.flt }
def onOwl (f : OwlBlock → OwlBlock) (s : State) : State := { s with owl := f s.owl }
def onGlk (f : GlkBlock → GlkBlock) (s : State) : State := { s with glk := f s.glk }
def onEth (f : EthBlock → EthBlock) (s : State) : State := { s with eth := f s.eth }
def onTim (f : TimBlock → TimBlock) (s : State) : State := { s with tim := f s.tim }
def onTag (f : TagBlock → TagBlock) (s : State) : State := { s with tag := f s.tag }
def onEpd (f : EpdBlock → EpdBlock) (s : State) : State := { s with epd := f s.epd }
def onKey (f : KeyBlock → KeyBlock) (s : State) : State := { s with key := f s.key }
def onUpd (f : UpdBlock → UpdBlock) (s : State) : State := { s with upd := f s.upd }
def onSys (f : SysBlock → SysBlock) (s : State) : State := { s with sys := f s.sys }
def onMgt (f : MgtBlock → MgtBlock) (s : State) : State := { s with mgt := f s.mgt }
def onHsi (f : HsiBlock → HsiBlock) (s : State) : State := { s with hsi := f s.hsi }

/-- One lane. -/
def onLane (n : Nat) (f : Lane → Lane) : State → State := onLaneBlk fun b => { b with lanes := upd b.lanes n f }
/-- One outlet as the metrology core keeps it. -/
def onMetOut (o : Nat) (f : MetOutlet → MetOutlet) : State → State := onMet fun b => { b with outs := upd b.outs o f }
/-- One outlet's billing state. -/
def onBilOut (o : Nat) (f : BilOutlet → BilOutlet) : State → State := onBil fun b => { b with outs := upd b.outs o f }
/-- One load-switch channel. -/
def onCh (n : Nat) (f : Channel → Channel) : State → State := onPwr fun b => { b with ch := upd b.ch n f }
/-- One cable lock. -/
def onLock (o : Nat) (f : Lock → Lock) : State → State := onPwr fun b => { b with locks := upd b.locks o f }
/-- One vehicle link. -/
def onLink (o : Nat) (f : Link → Link) (s : State) : State := { s with vlk := upd s.vlk o f }
/-- One CAN controller. -/
def onCan (c : Nat) (f : Can → Can) (s : State) : State := { s with can := upd s.can c f }
/-- Every vehicle link. -/
def onLinks (f : Link → Link) (s : State) : State := { s with vlk := s.vlk.map f }
/-- Every CAN controller. -/
def onCans (f : Can → Can) (s : State) : State := { s with can := s.can.map f }
/-- One time domain. -/
def onDom (d : Nat) (f : Domain → Domain) : State → State := onTim fun b => { b with dom := upd b.dom d f }

def laneOf (s : State) (n : Nat) : Lane := s.lane.lanes.getD n Lane.fresh
def metOutOf (s : State) (o : Nat) : MetOutlet := s.met.outs.getD o MetOutlet.fresh
def bilOutOf (s : State) (o : Nat) : BilOutlet := s.bil.outs.getD o BilOutlet.fresh
def chOf (s : State) (n : Nat) : Channel := s.pwr.ch.getD n Channel.fresh
def lockOf (s : State) (o : Nat) : Lock := s.pwr.locks.getD o Lock.fresh
def linkOf (s : State) (o : Nat) : Link := s.vlk.getD o Link.fresh
def canOf (s : State) (c : Nat) : Can := s.can.getD c Can.fresh
def domOf (s : State) (d : Nat) : Domain := s.tim.dom.getD d Domain.fresh

/-- Element `o` of a list of numbers kept per instance; 0 past its end. -/
def at0 (l : List Nat) (o : Nat) : Nat := l.getD o 0
/-- Element `o` of a list of flags kept per instance; false past its end. -/
def flag (l : List Bool) (o : Nat) : Bool := l.getD o false
/-- Sets element `o` of a list. -/
def put {α : Type} (l : List α) (o : Nat) (x : α) : List α := l.set o x

/-- The index of a side in the per-view lists: host 0, cluster 1. -/
def sideIx : Side → Nat
  | .host => 0
  | .cluster => 1

/-! ## Byte memories: sorted lists of the bytes that are not 0 -/

/-- One byte; an unlisted address reads 0 (wiped memory, R420). -/
def memRead : List Host.Cell → Nat → Byte
  | [], _ => 0
  | (k, v) :: r, a => if k = a then v else if a < k then 0 else memRead r a

/-- Writes one byte and keeps the list sorted and free of zeros. -/
def memWrite : List Host.Cell → Nat → Byte → List Host.Cell
  | [], a, b => if b = 0 then [] else [(a, b)]
  | (k, v) :: r, a, b =>
    if a < k then (if b = 0 then (k, v) :: r else (a, b) :: (k, v) :: r)
    else if a = k then (if b = 0 then r else (a, b) :: r)
    else (k, v) :: memWrite r a b

/-- `n` bytes from address `a`. -/
def memReadN (m : List Host.Cell) (a n : Nat) : Bytes := (List.range n).map fun i => memRead m (a + i)

/-- Writes bytes from address `a` upwards. -/
def memWriteN (m : List Host.Cell) (a : Nat) : Bytes → List Host.Cell
  | [] => m
  | b :: bs => memWriteN (memWrite m a b) (a + 1) bs

/-- Zeroes the `n` bytes from address `a`. -/
def memZero (m : List Host.Cell) (a n : Nat) : List Host.Cell :=
  m.filter fun c => decide (c.1 < a) || decide (a + n ≤ c.1)

/-- The canonical form: addresses strictly rising, no byte listed that is 0. -/
def memWf : List Host.Cell → Bool
  | [] => true
  | [(_, v)] => decide (v ≠ 0)
  | (a, v) :: (b, w) :: r => decide (v ≠ 0) && decide (a < b) && memWf ((b, w) :: r)

/-! ## Time (R15, R259, R261) -/

/-- NOW in nanoseconds since the epoch. -/
def nowNs (s : State) : Nat := s.tim.now / 2 ^ 28
/-- Whole seconds of NOW. -/
def nowSec (s : State) : Nat := nowNs s / 1000000000
/-- A timestamp (R15): seconds and nanoseconds. -/
def tsOfNs (ns : Nat) : Nat := ns / 1000000000 * 2 ^ 30 + ns % 1000000000
/-- Nanoseconds of a timestamp (R15). -/
def nsOfTs (ts : Nat) : Nat := ts / 2 ^ 30 * 1000000000 + ts % 2 ^ 30
/-- NOW as a timestamp. -/
def nowTs (s : State) : Nat := tsOfNs (nowNs s)
/-- The domain in use is VALID (R262). -/
def timeValid (s : State) : Bool := (domOf s s.tim.sel).state != .free
/-- The domain in use is SYNC (R262). -/
def timeSync (s : State) : Bool := (domOf s s.tim.sel).state == .sync
/-- Ticks of the time-base clock in `n` milliseconds (R259: 122.88 MHz). -/
def msTicks (n : Nat) : Nat := n * 122880
/-- Less than `n` milliseconds have passed since tick `t`. -/
def within (s : State) (t : Option Nat) (n : Nat) : Bool :=
  match t with
  | some t => decide (s.ticks < t + msTicks n)
  | none => false

/-! ## Free values -/

/-- Counts a draw from the free values. -/
def bump (s : State) : State := { s with freeCtr := s.freeCtr + 1 }
/-- The free number of the next draw. -/
def freeNat (s : State) : Nat := Config.freeNat s.freeCtr
/-- The free bit of the next draw. -/
def freeBit (s : State) : Bool := Config.freeBool s.freeCtr
/-- `n` free bytes of the next draw. -/
def freeBytes (s : State) (n : Nat) : Bytes := fit n (Config.freeBytes s.freeCtr)

/-! ## The structure in force (R38, R44) -/

def outletRec (s : State) (o : Nat) : Option OutletRec := s.str.cur.outlets.find? (·.outlet == o)
def laneRec (s : State) (n : Nat) : Option LaneRec := s.str.cur.lanes.find? (·.lane == n)
def meterRec (s : State) (o : Nat) : Option MeterRec := s.str.cur.meters.find? (·.outlet == o)
def switchRec (s : State) (n : Nat) : Option SwitchRec := s.str.cur.switches.find? (·.channel == n)
def limpRec (s : State) (o : Nat) : Option LimpRec := s.str.cur.limps.find? (·.outlet == o)
def guardRec (s : State) (i : Nat) : Option GuardRec := s.str.cur.guards.find? (·.input == i)
def groupsOf (s : State) (o : Nat) : List GroupRec := s.str.cur.groups.filter (·.outlet == o)
/-- The outlet is declared. -/
def declared (s : State) (o : Nat) : Bool := (outletRec s o).isSome
/-- A declared DC outlet. -/
def isDc (s : State) (o : Nat) : Bool := (outletRec s o).any (·.kind == 2)
/-- A declared AC outlet. -/
def isAc (s : State) (o : Nat) : Bool := (outletRec s o).any (·.kind == 1)
/-- A declared UNBILLED outlet. -/
def unbilled (s : State) (o : Nat) : Bool := (outletRec s o).any (·.unbilled)
/-- The declared outlets in ascending order. -/
def outletList (s : State) : List Nat := (List.range 4).filter (declared s)
/-- The mask of the declared outlets. -/
def outletMask (s : State) : Nat := (outletList s).foldl (fun m o => m + 2 ^ o) 0
/-- The lanes of a phase group are those its record names; the lane that carries a function (R39, STR_LANEn.SUBST). -/
def carrier (s : State) (n : Nat) : Nat := s.str.subst.getD n n
/-- Bit `b` of BLOCKS (R34). -/
def blockBit (s : State) (b : Nat) : Bool := bitAt s.str.cur.blocks b
/-- A ring command's outlet: out of range, or not declared (R18). -/
def outletChecks (s : State) (o : Nat) : List (Bool × Nat) :=
  [(decide (o < 4) && !declared s o, stsAbsent), (decide (3 < o), stsLengthRange)]

/-! ## Modes and their predicates -/

/-- Badger numbers and keeps the log (R371, R372). -/
def badgerUp (s : State) : Bool :=
  s.sys.booted && !s.sys.badgerDown && !s.sys.holdup && s.sys.mode != .watch && s.sys.mode != .dormant

/-- Code of a mode (R383). -/
def Mode.code : Mode → Nat
  | .dormant => 0 | .watch => 1 | .ready => 2 | .session => 3 | .limp => 4 | .maintenance => 5

/-- Code of a life-cycle state (R345). -/
def Lc.code : Lc → Nat
  | .blank => 0 | .provisioned => 1 | .service => 2 | .maintenance => 3 | .recovery => 4 | .retired => 5

/-- Root class of a life-cycle state (R324). -/
def Lc.cls : Lc → Nat
  | .blank => 1 | .provisioned => 2 | .service => 3 | .maintenance => 3 | .recovery => 4 | .retired => 0

/-- A side holds maintenance authority (R327). -/
def hasAuthority (s : State) (side : Side) : Bool :=
  s.key.authority.any fun a => a.1 == side && decide (s.ticks < a.2)

/-- The supervisor states that make a session (R374 row 9). -/
def Sup.active : Sup → Bool
  | .locking => true | .preparing => true | .closed => true | .paused => true
  | .absent => false | .idle => false | .connected => false | .ended => false | .faulted => false

/-- An outlet's supervisor is LOCKING, PREPARING, CLOSED or PAUSED. -/
def inSession (s : State) (o : Nat) : Bool := (linkOf s o).sup.active
/-- Some outlet has a session. -/
def anySession (s : State) : Bool := s.vlk.any (·.sup.active)

/-! ## Events (R369–R372) -/

/-- Data bytes packed little-endian, each item (size, value), zero-filled to 12 (R369). -/
def pack (l : List (Nat × Nat)) : Bytes := fit 12 (l.flatMap fun p => leBytes p.1 p.2)

/-- A record the retention buffer gives up first (R372). -/
def EvClass.ordinary : EvClass → Bool
  | .legal => false | .safety => false | .security => false
  | .power => true | .comm => true | .service => true

/-- Enters a record into the retention buffer (R372): at 256 the oldest ordinary record goes; with none, the new one. -/
def retain (e : Event) (s : State) : State :=
  let e := if s.sys.retLost then { e with flags := e.flags + 2 } else e
  if s.sys.retLog.length < 256 then onSys (fun b => { b with retLog := b.retLog ++ [e], retLost := false }) s
  else
    let s := onMgt (fun b => { b with dropped := satInc 8 b.dropped }) s
    match s.sys.retLog.findIdx? (·.cls.ordinary) with
    | some i => onSys (fun b => { b with retLog := b.retLog.eraseIdx i ++ [e], retLost := true }) s
    | none => onSys (fun b => { b with retLost := true }) s

/-- Badger numbers a record and puts it into its RAM ring (R371). -/
def enterLog (e : Event) (s : State) : State :=
  let n := s.mgt.seq + 1
  onMgt (fun b => { b with seq := n, ring := (b.ring ++ [({ seq := n, ev := e } : LogRec)]).drop (b.ring.length + 1 - 512),
                           waiting := min 512 (b.waiting + 1) }) s

/-- Sends a finished record to Badger, or to the retention buffer while Badger is down (R372). -/
def sendEvent (e : Event) (s : State) : State := if badgerUp s then enterLog e s else retain e s

/-- Raises an event: class, block raising it, instance (0xFF none), code (R370), data items (size, value). -/
def logEv (cls : EvClass) (block inst code : Nat) (data : List (Nat × Nat)) (s : State) : State :=
  sendEvent { time := nowTs s, cls := cls, block := block, inst := inst, flags := flagAt (!timeValid s) 0,
              code := code, data := pack data } s

/-! ## Two-copy stores (R112, R129, R325) -/

/-- The copy in force: the valid one with the higher sequence number. -/
def Twin.cur {α : Type} (t : Twin α) : Stored α :=
  if t.a.ok && (!t.b.ok || decide (t.b.seq ≤ t.a.seq)) then t.a else t.b
/-- The record in force. -/
def Twin.get {α : Type} (t : Twin α) : α := t.cur.val
/-- Neither copy is valid. -/
def Twin.lost {α : Type} (t : Twin α) : Bool := !t.a.ok && !t.b.ok
/-- Writes a record into the copy not in force, under the next sequence number. -/
def Twin.write {α : Type} (v : α) (t : Twin α) : Twin α :=
  let n : Stored α := { seq := t.cur.seq + 1, ok := true, val := v }
  if t.a.ok && (!t.b.ok || decide (t.b.seq ≤ t.a.seq)) then { t with b := n } else { t with a := n }
/-- Changes the record in force through a write. -/
def Twin.change {α : Type} (f : α → α) (t : Twin α) : Twin α := t.write (f t.get)

/-- A side holds the safety session (R202); with no verifier stored none does (R201). -/
def hasSession (s : State) (side : Side) : Bool :=
  s.owl.cfg.get.verifier.isSome && s.owl.session.any fun a => a.side == side && decide (s.ticks < a.endTick)

/-! ## Saves (R113, R114) -/

/-- The newest valid save. -/
def newestSave (s : State) : Option SaveRec :=
  s.met.slots.foldl (fun best r => match best, r with
    | some b, some x => if x.ok && decide (b.seq < x.seq) then some x else some b
    | none, some x => if x.ok then some x else none
    | b, none => b) none

/-! ## Command rings: results (R399, R400) -/

def ringOf (s : State) : Side → Ring
  | .host => s.hsi.h
  | .cluster => s.hsi.c

def onRing (side : Side) (f : Ring → Ring) : State → State :=
  onHsi fun b => match side with
    | .host => { b with h := f b.h }
    | .cluster => { b with c := f b.c }

/-- Completes a slot (R400): the result bytes, READY, the completion time; DONE when the descriptor asked for it. -/
def completeSlot (tag sts detail ts : Nat) (bytes : Bytes) (g : Ring) : Ring :=
  let sl := g.slots.getD tag Slot.fresh
  if sl.running then
    let out := bytes.take sl.rcap
    let g := { g with slots := put g.slots tag
                        { sl with sts := sts, ready := true, running := false, readCount := 0, rlen := out.length,
                                  detail := detail, ts := ts },
                      mem := memWriteN g.mem sl.roff out,
                      flight := g.flight.filter (·.tag != tag) }
    if sl.irq then { g with done := upd g.done (tag / 32) fun w => Nat.lor w (2 ^ (tag % 32)) } else g
  else g

/-- Posts a command's result: in its slot where that is RUNNING, and in the model's own record (log 6). -/
def post (r : Req) (sts detail : Nat) (bytes : Bytes) (s : State) : State :=
  { onRing r.side (completeSlot r.tag sts detail (nowTs s) bytes) s with
    result := some { req := r, sts := sts, detail := detail, bytes := bytes } }

/-- Posts a status alone. -/
def postSts (r : Req) (sts : Nat) (s : State) : State := post r sts 0 [] s

/-- A command accepted with STS_PENDING: its slot stays RUNNING (R399). -/
def pend (r : Req) (s : State) : State :=
  { s with result := some { req := r, sts := stsPending, detail := 0, bytes := [] } }

/-- Runs a command under its checks in the order of R18: the first that fails is posted and nothing else happens. -/
def guarded (r : Req) (checks : List (Bool × Nat)) (f : State → State) (s : State) : State :=
  let c := firstFail checks
  if c = stsOk then f s else postSts r c s

/-- A command to Badger: STS_TIMEOUT while Badger is down and does not take it (R382, R396). -/
def badgerCmd (r : Req) (f : State → State) (s : State) : State :=
  if s.sys.badgerDown then postSts r stsTimeout s else f s

/-- What a register read returned (log 6). -/
def returns (w : Nat) (s : State) : State := { s with rdata := w }

/-- A value latched for a view (R94): slot 0 the host's, slot 1 the cluster's. -/
def latch {α : Type} (view : Side) (x : α) (l : List (Option α)) : List (Option α) := put l (sideIx view) (some x)

/-! ## Mailboxes and modes (R367, R374) -/

/-- Badger writes a NOTICE into an outgoing window; a bell still set makes it count as ignored (R367). -/
def noticeTo (host : Bool) (code detail : Nat) (s : State) : State :=
  let m := if host then s.mgt.hmb else s.mgt.amb
  if m.outBell then onMgt (fun b => { b with mbxOvf := satInc 8 b.mbxOvf }) s
  else
    let m := { m with outBell := true,
                      outWin := fit 64 (leBytes 4 (1 + 5 * 256) ++ leBytes 1 code ++ leBytes 4 detail) }
    onMgt (fun b => if host then { b with hmb := m } else { b with amb := m }) s

/-- A NOTICE on both mailboxes; none while Badger is down. -/
def notice (code detail : Nat) (s : State) : State :=
  if s.sys.badgerDown then s else noticeTo false code detail (noticeTo true code detail s)

/-- Class of EV_MODE by the row of R374. -/
def modeClass (row : Nat) : EvClass := if row = 1 ∨ row = 2 ∨ row = 7 then .power else .service

/-- A mode change by a row of R374: NOTICE 1 on both mailboxes and EV_MODE. -/
def setMode (row : Nat) (m : Mode) (s : State) : State :=
  let old := s.sys.mode
  let s := logEv (modeClass row) (if s.sys.badgerDown then 0x1E else 0x14) 0xFF 0x1401
    [(1, old.code), (1, m.code), (1, row)] (onSys (fun b => { b with mode := m }) s)
  notice 1 m.code s

/-- Rows 9 and 10 of R374, evaluated by Badger at every change of a supervisor's state. -/
def evalMode (s : State) : State :=
  if s.sys.badgerDown then s
  else if s.sys.mode = .ready ∧ anySession s then setMode 9 .session s
  else if s.sys.mode = .session ∧ anySession s = false then setMode 10 .ready s
  else s

end Sys2Proof.Machine
end

