-- ==== Sys2Proof/Machine/Calendar.lean ====
section
/-! DEFINITION. Tariff calendars: dates and local time, the record of R125 and its checks (R126), the selection of a
tariff (R124), the times of demand and billing boundaries (R131, R134). -/

namespace Sys2Proof.Machine

/-! ## Dates: days counted from 0000-03-01, on which 2020-01-01 is day 737,730 -/

def epochDay : Nat := 737730

/-- Year, month and day of a day number. -/
def civil (z : Nat) : Nat × Nat × Nat :=
  let doe := z % 146097
  let yoe := (doe - doe / 1460 + doe / 36524 - doe / 146096) / 365
  let doy := doe - (365 * yoe + yoe / 4 - yoe / 100)
  let mp := (5 * doy + 2) / 153
  let m := if mp < 10 then mp + 3 else mp - 9
  (yoe + z / 146097 * 400 + (if m ≤ 2 then 1 else 0), m, doy - (153 * mp + 2) / 5 + 1)

/-- The day number of a date. -/
def dayNumber (y m d : Nat) : Nat :=
  let y' := if m ≤ 2 then y - 1 else y
  let yoe := y' % 400
  let mp := if m ≤ 2 then m + 9 else m - 3
  y' / 400 * 146097 + yoe * 365 + yoe / 4 - yoe / 100 + (153 * mp + 2) / 5 + d - 1

/-- Weekday of a day number, 0 = Sunday (2020-01-01 was a Wednesday). -/
def weekdayOf (z : Nat) : Nat := (z + 3) % 7

/-- Days of a month; February counts 29 where a date without a year is checked. -/
def monthDays (m : Nat) : Nat := if m = 2 then 29 else if m = 4 ∨ m = 6 ∨ m = 9 ∨ m = 11 then 30 else 31

/-- Day number of the `w`-th weekday `wd` of a month; week 5 is the last (R125). -/
def weekdayInMonth (y m w wd : Nat) : Nat :=
  let first := dayNumber y m 1
  let next := if m = 12 then dayNumber (y + 1) 1 1 else dayNumber y (m + 1) 1
  let d := first + (wd + 7 - weekdayOf first) % 7 + 7 * (w - 1)
  if w = 5 ∧ next ≤ d then d - 7 else d

/-! ## Local time: seconds counted from 0000-03-01 -/

/-- A UTC time in seconds since the epoch, moved by an offset in minutes and counted from 0000-03-01. -/
def shifted (sec : Nat) (minutes : Int) : Nat := (((epochDay * 86400 + sec : Nat) : Int) + minutes * 60).toNat

/-- Seconds since the epoch of a local day and second under an offset in minutes. -/
def unshift (day sec : Nat) (minutes : Int) : Int := ((day * 86400 + sec : Nat) : Int) - minutes * 60 - ((epochDay * 86400 : Nat) : Int)

/-- The UTC instants at which daylight saving starts and ends in a year. -/
def dstSpan (c : Calendar) (y : Nat) : Int × Int :=
  let at' (r : DstRule) (off : Int) : Int := unshift (weekdayInMonth y r.month r.week r.weekday) (r.hour * 3600) off
  (at' c.dstStart c.stdOffset, at' c.dstEnd (c.stdOffset + c.dstOffset))

/-- Daylight saving is in force at a UTC second. -/
def dstAt (c : Calendar) (sec : Nat) : Bool :=
  let (y, _, _) := civil (shifted sec c.stdOffset / 86400)
  let (a, b) := dstSpan c y
  let t : Int := sec
  c.dstUsed && (if a < b then decide (a ≤ t) && decide (t < b) else decide (a ≤ t) || decide (t < b))

/-- Minutes from UTC at a UTC second. -/
def offsetAt (c : Calendar) (sec : Nat) : Int := c.stdOffset + (if dstAt c sec then (c.dstOffset : Int) else 0)

/-- Local seconds at a UTC second. -/
def localAt (c : Calendar) (sec : Nat) : Nat := shifted sec (offsetAt c sec)

/-- Local seconds as the switch points see them: in the repeated hour they stand at the hour's end (R126). -/
def effectiveAt (c : Calendar) (sec : Nat) : Nat :=
  let l := localAt c sec
  let (y, _, _) := civil (l / 86400)
  let (_, e) := dstSpan c y
  if c.dstUsed && !dstAt c sec && decide (e ≤ sec) && decide ((sec : Int) < e + c.dstOffset * 60) then
    shifted e.toNat (c.stdOffset + c.dstOffset) - 1
  else l

/-! ## The record (R125) and its checks (R126, R127) -/

def dstRule (o : Nat) (b : Bytes) : DstRule :=
  { month := byteAt o b, week := byteAt (o + 1) b, weekday := byteAt (o + 2) b, hour := byteAt (o + 3) b }

/-- The fields of a calendar record. -/
def calendarOf (b : Bytes) : Calendar :=
  { seq := leAt 0x10 4 b, activation := leAt 0x18 8 b, stdOffset := signedOf 16 (leAt 0x20 2 b),
    dstOffset := byteAt 0x22 b, dstUsed := bitAt (byteAt 0x23 b) 0, dstStart := dstRule 0x24 b, dstEnd := dstRule 0x28 b,
    billDay := byteAt 0x2C b, billHour := byteAt 0x2D b, billMinute := byteAt 0x2E b, method := byteAt 0x30 b,
    period := byteAt 0x31 b, sub := byteAt 0x32 b, defaultTariff := byteAt 0x33 b, prepay := field (byteAt 0x34 b) 3 0,
    seasons := ((List.range 12).map fun i =>
      ({ month := byteAt (0x40 + 12 * i) b, day := byteAt (0x41 + 12 * i) b,
         profiles := (List.range 7).map fun k => byteAt (0x42 + 12 * i + k) b } : Season)).filter (·.month != 0),
    profiles := (List.range 32).map fun p => ((List.range 16).map fun i =>
      (leAt (0xD0 + 64 * p + 4 * i) 2 b, byteAt (0xD2 + 64 * p + 4 * i) b)).filter (·.1 != 0xFFFF),
    specials := ((List.range 64).map fun i =>
      ({ year := leAt (0x8D0 + 8 * i) 2 b, month := byteAt (0x8D2 + 8 * i) b, day := byteAt (0x8D3 + 8 * i) b,
         profile := byteAt (0x8D4 + 8 * i) b } : SpecialDay)).filter (·.month != 0) }

/-- Every byte of a range is 0. -/
def zeroAt (o n : Nat) (b : Bytes) : Bool := (slice o n b).all (· == 0)

/-- Used entries come first: after the first unused one no used one follows. -/
def usedFirst : List Bool → Bool
  | [] => true
  | true :: r => usedFirst r
  | false :: r => r.all (· == false)

/-- A list ascends strictly. -/
def ascends : List Nat → Bool
  | a :: b :: r => decide (a < b) && ascends (b :: r)
  | _ => true

def dstRuleOk (r : DstRule) : Bool :=
  decide (1 ≤ r.month) && decide (r.month ≤ 12) && decide (1 ≤ r.week) && decide (r.week ≤ 5) && decide (r.weekday ≤ 6)
    && decide (r.hour ≤ 23)

/-- A day profile that is named is well formed. -/
def profileOk (c : Calendar) (p : Nat) : Bool :=
  decide (p < 32) && ascends ((c.profiles.getD p []).map (·.1)) && (match c.profiles.getD p [] with
    | (0, _) :: _ => true
    | _ => false)

/-- Two special days name the same date. -/
def sameDate (a b : SpecialDay) : Bool :=
  a.month == b.month && a.day == b.day && (a.year == b.year || a.year == 0 || b.year == 0)

def noSameDate : List SpecialDay → Bool
  | [] => true
  | a :: r => r.all (fun b => !sameDate a b) && noSameDate r

/-- The field ranges of R125. -/
def calendarRanges (b : Bytes) : Bool :=
  let c := calendarOf b
  let day (m d : Nat) : Bool := decide (1 ≤ d) && decide (d ≤ monthDays m)
  leAt 6 2 b == 2868 && decide (1 ≤ c.seq) && decide (c.seq ≤ 0xFFFFFFFE) && zeroAt 0x14 4 b
    && decide (c.activation % 2 ^ 30 < 1000000000) && decide (c.activation / 2 ^ 30 < 198692 * 86400)
    && decide (-720 ≤ c.stdOffset) && decide (c.stdOffset ≤ 840) && decide (c.dstOffset ≤ 120)
    && decide (byteAt 0x23 b ≤ 1) && dstRuleOk c.dstStart && dstRuleOk c.dstEnd
    && decide (c.billDay ≤ 28) && decide (c.billHour ≤ 23) && decide (c.billMinute ≤ 59) && zeroAt 0x2F 1 b
    && (c.method == 1 || c.method == 2) && decide (1 ≤ c.defaultTariff) && decide (c.defaultTariff ≤ 8)
    && decide (byteAt 0x34 b < 16) && zeroAt 0x35 11 b
    && ((List.range 12).all fun i => zeroAt (0x49 + 12 * i) 3 b)
    && c.seasons.all (fun x => decide (x.month ≤ 12) && day x.month x.day && x.profiles.all fun p => decide (p < 32))
    && ((List.range 512).all fun i =>
      leAt (0xD0 + 4 * i) 2 b == 0xFFFF || (decide (leAt (0xD0 + 4 * i) 2 b ≤ 1439) && decide (1 ≤ byteAt (0xD2 + 4 * i) b)
        && decide (byteAt (0xD2 + 4 * i) b ≤ 8) && zeroAt (0xD3 + 4 * i) 1 b))
    && ((List.range 64).all fun i => zeroAt (0x8D5 + 8 * i) 3 b)
    && c.specials.all (fun x => (x.year == 0 || (decide (2020 ≤ x.year) && decide (x.year ≤ 2563))) && decide (x.month ≤ 12)
      && day x.month x.day && decide (x.profile < 32))

/-- The rules of R126; `mask` is the mask of declared outlets. -/
def calendarRules (mask : Nat) (b : Bytes) : Bool :=
  let c := calendarOf b
  let named := c.seasons.flatMap (·.profiles) ++ c.specials.map (·.profile)
  usedFirst ((List.range 12).map fun i => byteAt (0x40 + 12 * i) b != 0)
    && ascends (c.seasons.map fun x => x.month * 32 + x.day) && !c.seasons.isEmpty
    && named.all (fun p => profileOk c p && usedFirst ((List.range 16).map fun i => leAt (0xD0 + 64 * p + 4 * i) 2 b != 0xFFFF))
    && decide (1 ≤ c.period) && 60 % c.period == 0
    && (if c.method == 2 then decide (1 ≤ c.sub) && c.period % c.sub == 0 && decide (2 ≤ c.period / c.sub)
          && decide (c.period / c.sub ≤ 12)
        else c.sub == 0)
    && noSameDate c.specials && Nat.land c.prepay mask == c.prepay

/-! ## Selection of the tariff (R124) -/

/-- The season in force on a date: its place among the used seasons. -/
def seasonAt (c : Calendar) (m d : Nat) : Nat :=
  match (c.seasons.filter fun x => decide (x.month * 32 + x.day ≤ m * 32 + d)).length with
  | 0 => c.seasons.length - 1
  | n + 1 => n

/-- The selection at a UTC second: tariff, day profile, season, special day. -/
def selectAt (c : Calendar) (sec : Nat) : Nat × Nat × Nat × Bool :=
  let l := effectiveAt c sec
  let day := l / 86400
  let (y, m, d) := civil day
  let k := seasonAt c m d
  let sp := c.specials.find? fun x => (x.year == 0 || x.year == y) && x.month == m && x.day == d
  let p := match sp with
    | some x => x.profile
    | none => match c.seasons[k]? with
      | some x => at0 x.profiles ((weekdayOf day + 6) % 7)
      | none => 0
  let points := (c.profiles.getD p []).filter fun x => decide (x.1 ≤ l % 86400 / 60)
  ((points.getLast?.map (·.2)).getD 1, p, k, sp.isSome)

/-! ## Times of boundaries -/

/-- The first UTC second after `sec` whose local minute is divisible by `p` (R131). -/
def nextAligned (c : Calendar) (p sec : Nat) : Nat :=
  let l := localAt c sec
  (((l / (60 * p) + 1) * (60 * p) : Nat) - (l : Nat)) + sec

/-- The UTC second of the scheduled billing boundary of a month (R134): the first reading of the local time; a time
in the skipped hour falls at the transition. -/
def billingOf (c : Calendar) (y m : Nat) : Nat :=
  let day := dayNumber y m c.billDay
  let t := c.billHour * 3600 + c.billMinute * 60
  let u1 := (unshift day t (c.stdOffset + c.dstOffset)).toNat
  let u2 := (unshift day t c.stdOffset).toNat
  if c.dstUsed && dstAt c u1 then u1 else if dstAt c u2 then (dstSpan c y).1.toNat else u2

/-- Scheduled billing boundaries in (a, b], over `n` months from the one before `a`'s. -/
def billingMonths (c : Calendar) (a b : Nat) : Nat → Nat → Nat → List Nat
  | 0, _, _ => []
  | n + 1, y, m =>
    let u := billingOf c y m
    let r := billingMonths c a b n (if m = 12 then y + 1 else y) (if m = 12 then 1 else m + 1)
    if a < u ∧ u ≤ b then u :: r else r

/-- Scheduled billing boundaries in (a, b], in time order (R134); none without a billing day. -/
def billingIn (c : Calendar) (a b : Nat) : List Nat :=
  if c.billDay = 0 ∨ b ≤ a then []
  else
    let (y, m, _) := civil (shifted a c.stdOffset / 86400)
    billingMonths c a b ((b - a) / (28 * 86400) + 3) (if m = 1 then y - 1 else y) (if m = 1 then 12 else m - 1)

end Sys2Proof.Machine
end

