-- ==== Sys2Proof/Machine/Pins.lean ====
section
/-! DEFINITION. Balls and pin multiplexing (R430, R434–R436). -/

namespace Sys2Proof.Machine

/-- Ball index of a lane's P and N inputs (R430, R431). -/
def laneBalls (n : Nat) : List Nat :=
  if n < 19 then [285 + n, 304 + n] else if n < 38 then [304 + n, 323 + n] else [266 + 2 * (n - 38), 267 + 2 * (n - 38)]

/-- Ball index of multifunction ball m (R434). -/
def mfBall (m : Nat) : Nat := 326 + m / 2 + 19 * (m % 2)
/-- The lane of multifunction ball m (R434). -/
def mfLane (m : Nat) : Nat := 22 + m / 2
/-- Default function of a multifunction ball; 0 none (R434, R435). -/
def mfDefault (m : Nat) : Nat :=
  if m < 10 then 0x700 + m else if m < 14 then 0x600 + (m - 10) else if m < 18 then 0x500 + (m - 14) else 0
/-- Alternate functions of a multifunction ball (R434). -/
def mfAlternates (m : Nat) : List Nat :=
  [[], [], [], [], [], [], [], [], [], [], [0x300], [0x301], [0x402], [0x403], [0x302], [0x303], [0x400], [0x401],
   [0x100, 0x106], [0x101, 0x107], [0x102, 0x108], [0x103, 0x109], [0x104, 0x10A], [0x105, 0x10B],
   [0x200, 0x401], [0x201, 0x400], [0x202, 0x403], [0x203, 0x402]].getD m []
/-- The 28 multifunction balls. -/
def mfAll : List Nat := List.range 28

/-- Functions a structure declares in use (R436). -/
def functionsInUse (t : Struct) : List Nat :=
  t.leds.map (fun l => 0x100 + l.channel)
    ++ (t.switches.filter (fun x => x.func == 1 && decide (x.outlet < 4))).map (fun x => 0x200 + x.outlet)
    ++ t.limpMaps.map (fun l => 0x300 + l.input)
    ++ (t.outlets.filter (·.kind == 2)).map (fun o => 0x400 + o.outlet)
    ++ (t.meters.filter (fun m => decide (m.pulse < 4))).map (fun m => 0x500 + m.pulse)
    ++ (if bitAt t.blocks 6 then [0x600, 0x601] else []) ++ (if bitAt t.blocks 7 then [0x602, 0x603] else [])
    ++ (if bitAt t.blocks 5 then (List.range 10).map (0x700 + ·) else [])

/-- A lane has role MEASURE or SPARE in a structure. -/
def laneIn (t : Struct) (n : Nat) : Bool := t.lanes.any fun l => l.lane == n && l.role != 0

/-- The PINMUX record that names a multifunction ball. -/
def pinRec (t : Struct) (m : Nat) : Option PinmuxRec := t.pinmux.find? (·.ball == mfBall m)

/-- What a multifunction ball serves: function in force and rule of R436 (0 unused, 1 lane, 2 PINMUX, 3 default). -/
def ballServes (t : Struct) (m : Nat) : Nat × Nat :=
  if laneIn t (mfLane m) then (0, 1)
  else match pinRec t m with
    | some p => (if (functionsInUse t).contains p.func then p.func else 0, 2)
    | none =>
      if mfDefault m != 0 && (functionsInUse t).contains (mfDefault m) then (mfDefault m, 3) else (0, 0)

/-- PIN_MFm (R446). -/
def pinMf (t : Struct) (m : Nat) : Nat :=
  let b := ballServes t m
  b.1 * 2 ^ 16 + b.2 * 2 ^ 14 + mfBall m

/-- Some PINMUX record names a ball of a declared lane, or two records give the same function (R436, check 0x42). -/
def pinmuxClash (t : Struct) : Bool :=
  t.pinmux.any (fun p => t.lanes.any fun l => l.role != 0 && (laneBalls l.lane).contains p.ball)
    || decide ¬((t.pinmux.map (·.func)).filter (· != 0)).Nodup

/-- A PINMUX record names a ball of the multifunction set and a function offered there (R436). -/
def pinOffered (p : PinmuxRec) : Bool :=
  mfAll.any fun m => mfBall m == p.ball && (p.func == 0 || p.func == mfDefault m || (mfAlternates m).contains p.func)

/-- Check 0x4A passes (R436): balls in the multifunction set, codes offered, every function in use on a ball. -/
def pinmuxOk (t : Struct) : Bool :=
  t.pinmux.all pinOffered
    && (functionsInUse t).all (fun f => t.pinmux.any (·.func == f)
      || mfAll.any fun m => mfDefault m == f && !laneIn t (mfLane m) && (pinRec t m).isNone)

end Sys2Proof.Machine
end

