-- ==== Sys2Proof/Machine/Warren.lean ====
section
/-! DEFINITION. The Warren structure image (R19–R46): layout, records, validation, the key selection, the inactive
copy and what counts as changed. -/

namespace Sys2Proof.Machine

/-! ## Layout (R24–R26) -/

/-- Offset and length of section `k` (1 sealed, 2 safety, 3 open) by the header. -/
def secOff (img : Bytes) (k : Nat) : Nat := leAt (0x1C + 8 * (k - 1)) 4 img
def secLen (img : Bytes) (k : Nat) : Nat := leAt (0x20 + 8 * (k - 1)) 4 img
/-- The bytes of section `k`. -/
def imgSection (img : Bytes) (k : Nat) : Bytes := slice (secOff img k) (secLen img k) img

/-- Records of a section from a position: TYPE and body; none when they do not exactly fill the space (R26). -/
def recordsFrom : Nat → Nat → Bytes → Option (List (Nat × Bytes))
  | 0, _, _ => none
  | fuel + 1, prev, bs =>
    if bs.isEmpty then some []
    else
      let t := leAt 0 2 bs
      let n := leAt 2 2 bs
      if bs.length < 4 + n ∨ n % 4 ≠ 0 ∨ n < 4 ∨ 1024 < n ∨ t < prev then none
      else (recordsFrom fuel t (bs.drop (4 + n))).map fun r => (t, slice 4 n bs) :: r

/-- The records of a section (R25, R26). -/
def sectionRecords (sec : Bytes) : Option (List (Nat × Bytes)) :=
  recordsFrom 9000 0 (slice 0x10 (sec.length - 116) sec)

/-- The body size R27, R31 and R34 give a TYPE; none for a TYPE outside the section. -/
def bodySize (k t : Nat) (b : Bytes) : Option Nat :=
  if k = 1 then
    (if t = 0x101 ∨ t = 0x103 ∨ t = 0x105 then some 8 else if t = 0x102 then some 16 else if t = 0x104 then some 12
     else if t = 0x106 then some 260 else if t = 0x107 then some 48 else if t = 0x108 then some 4 else none)
  else if k = 2 then
    (if t = 0x201 ∨ t = 0x202 then some 4 else if t = 0x203 ∨ t = 0x205 then some 8
     else if t = 0x204 then some 12 else none)
  else
    (if t = 0x301 ∨ t = 0x303 ∨ t = 0x304 ∨ t = 0x306 then some 4 else if t = 0x302 then some 8
     else if t = 0x305 then some ((4 + 2 * leAt 2 2 b + 3) / 4 * 4)
     else if t = 0x307 then some (4 + 4 * byteAt 1 b) else none)

/-- A value lies in a closed range. -/
def inRange (lo hi x : Nat) : Bool := decide (lo ≤ x) && decide (x ≤ hi)
/-- An outlet number, or 0xFF for the post. -/
def outletOrPost (x : Nat) : Bool := decide (x < 4) || x == 0xFF

/-- Every field of a sealed record lies in its range (R27). A PHASE_GROUP phase may be 0–3 on any outlet: R27 gives 0 for DC
and no check names the outlet's kind with it (log 12). -/
def sealedRecOk (t : Nat) (b : Bytes) : Bool :=
  if t = 0x101 then
    decide (byteAt 0 b < 40) && decide (byteAt 1 b ≤ 2) && decide (byteAt 2 b ≤ 7)
      && (if byteAt 1 b = 1 then decide (1 ≤ byteAt 2 b) && inRange 3 5 (byteAt 3 b) else byteAt 3 b == 0)
      && decide (byteAt 4 b < 4) && decide (byteAt 5 b < 3) && decide (byteAt 6 b < 16) && byteAt 7 b == 0
  else if t = 0x102 then
    decide (byteAt 0 b < 4) && inRange 1 2 (byteAt 1 b)
      && (byteAt 2 b == 1 || (byteAt 1 b == 1 && byteAt 2 b == 3)) && decide (byteAt 3 b < 2)
      && (if byteAt 1 b = 1 then inRange 40000 70000 (leAt 8 4 b) else leAt 8 4 b == 0)
      && inRange 1 1000000 (leAt 12 4 b)
  else if t = 0x103 then
    decide (byteAt 0 b < 4) && decide (byteAt 1 b < 3) && decide (byteAt 2 b < 4) && decide (byteAt 3 b < 40)
      && decide (byteAt 4 b < 40) && leAt 5 3 b == 0
  else if t = 0x104 then
    decide (byteAt 0 b < 4) && (decide (byteAt 1 b < 4) || byteAt 1 b == 0xFF) && inRange 2 80 (byteAt 2 b)
      && byteAt 3 b == 0 && inRange 1 100000 (leAt 4 4 b)
  else if t = 0x105 then
    decide (byteAt 0 b < 40) && byteAt 1 b == 0 && decide (leAt 2 2 b ≤ 4096) && inRange 0x200000 0x7FFFFF (leAt 4 4 b)
  else if t = 0x106 then decide (byteAt 0 b < 16) && leAt 1 3 b == 0
  else if t = 0x107 then true
  else inRange 1 60 (byteAt 0 b) && leAt 1 3 b == 0

/-- Every field of a safety record lies in its range (R31). -/
def safetyRecOk (t : Nat) (b : Bytes) : Bool :=
  if t = 0x201 then
    decide (byteAt 0 b < 4) && inRange 8 11 (byteAt 1 b) && inRange 1 3 (byteAt 2 b) && byteAt 3 b == 0
  else if t = 0x202 then
    decide (byteAt 0 b < 4) && decide (byteAt 1 b < 4) && decide (byteAt 2 b < 2) && byteAt 3 b == 0
  else if t = 0x203 then
    decide (byteAt 0 b < 8) && inRange 1 3 (byteAt 1 b) && decide (byteAt 2 b < 16) && decide (byteAt 3 b < 2)
      && inRange 1 50 (byteAt 4 b) && leAt 5 3 b == 0
  else if t = 0x204 then inRange 1 5 (byteAt 0 b) && byteAt 3 b == 0 && decide (leAt 8 4 b ≤ 10000000)
  else decide (byteAt 0 b < 4) && decide (byteAt 1 b ≤ 2) && leAt 2 2 b == 0

/-- The 16-bit items of a body from offset 4. -/
def items16 (n : Nat) (b : Bytes) : List Nat := (List.range n).map fun i => leAt (4 + 2 * i) 2 b
/-- The 32-bit items of a body from offset 4. -/
def items32 (n : Nat) (b : Bytes) : List Nat := (List.range n).map fun i => leAt (4 + 4 * i) 4 b

/-- Every field of an open record lies in its range (R34). -/
def openRecOk (t : Nat) (b : Bytes) : Bool :=
  if t = 0x301 then decide (leAt 0 4 b < 2048)
  else if t = 0x302 then
    decide (byteAt 0 b < 12) && outletOrPost (byteAt 1 b) && inRange 1 5 (byteAt 2 b) && decide (byteAt 3 b < 8)
      && inRange 1 255 (byteAt 4 b) && decide (byteAt 5 b < 16) && leAt 6 2 b == 0
  else if t = 0x303 then decide (byteAt 0 b < 4) && inRange 1 2 (byteAt 1 b) && decide (leAt 2 2 b < 4096)
  else if t = 0x304 then decide (leAt 0 2 b ≤ 360)
  else if t = 0x305 then
    let n := leAt 2 2 b
    decide (byteAt 0 b < 16) && decide (byteAt 1 b < 2) && inRange 1 160 n && (items16 n b).all (fun x => decide (x < 160))
      && (b.drop (4 + 2 * n)).all (· == 0)
  else if t = 0x306 then
    decide (byteAt 0 b < 12) && inRange 1 5 (byteAt 1 b) && outletOrPost (byteAt 2 b) && inRange 1 40 (byteAt 3 b)
  else
    let n := byteAt 1 b
    decide (byteAt 0 b < 2) && decide (n ≤ 16) && leAt 2 2 b == 0
      && (items32 n b).all (fun x => inRange 82 1146 (x % 65536) && inRange 82 1146 (x / 65536)
           && decide (x % 65536 ≤ x / 65536))

/-- Every field of a record of section `k` lies in its range. -/
def recOk (k t : Nat) (b : Bytes) : Bool :=
  if k = 1 then sealedRecOk t b else if k = 2 then safetyRecOk t b else openRecOk t b

/-- The range check 0xs7 of a section: a METER_CONST of an AC outlet has cable resistance 0 besides. -/
def rangesOk (k : Nat) (recs : List (Nat × Bytes)) : List Bool :=
  recs.map fun r => recOk k r.1 r.2
    && !(r.1 == 0x104 && leAt 8 4 r.2 != 0
         && recs.any fun q => q.1 == 0x102 && byteAt 0 q.2 == byteAt 0 r.2 && byteAt 1 q.2 == 1)

/-! ## The structure an image declares -/

/-- The bodies of one TYPE. -/
def bodies (recs : List (Nat × Bytes)) (t : Nat) : List Bytes := (recs.filter (·.1 == t)).map (·.2)

/-- The structure of an image's records (R27, R31, R34). -/
def structOf (img : Bytes) (a b c : List (Nat × Bytes)) : Struct :=
  { seq := leAt 0x0C 4 img, sealVer := leAt 8 4 (imgSection img 1), safeVer := leAt 8 4 (imgSection img 2),
    openVer := leAt 8 4 (imgSection img 3),
    lanes := (bodies a 0x101).map fun x =>
      { lane := byteAt 0 x, role := byteAt 1 x, qty := byteAt 2 x, cic := byteAt 3 x, outlet := byteAt 4 x,
        group := byteAt 5 x, fir := byteAt 6 x },
    outlets := (bodies a 0x102).map fun x =>
      { outlet := byteAt 0 x, kind := byteAt 1 x, groups := byteAt 2 x, unbilled := byteAt 3 x == 1,
        nomMv := leAt 4 4 x, nomMHz := leAt 8 4 x, ratedMa := leAt 12 4 x },
    groups := (bodies a 0x103).map fun x =>
      { outlet := byteAt 0 x, group := byteAt 1 x, phase := byteAt 2 x, vLane := byteAt 3 x, cLane := byteAt 4 x },
    meters := (bodies a 0x104).map fun x =>
      { outlet := byteAt 0 x, pulse := byteAt 1 x, widthMs := byteAt 2 x, impPerKwh := leAt 4 4 x, cableUohm := leAt 8 4 x },
    cals := (bodies a 0x105).map fun x => { lane := byteAt 0 x, delay := leAt 2 2 x, gain := leAt 4 3 x },
    firs := (bodies a 0x106).map fun x => { set := byteAt 0 x, taps := (items32 64 x).map (signedOf 32) },
    metDigest := (bodies a 0x107).headD [],
    saveS := match bodies a 0x108 with
      | x :: _ => byteAt 0 x
      | [] => 1,
    contactors := (bodies b 0x201).map fun x => { outlet := byteAt 0 x, channel := byteAt 1 x, pole := byteAt 2 x },
    gates := (bodies b 0x202).map fun x => { output := byteAt 0 x, outlet := byteAt 1 x, activeLow := byteAt 2 x == 1 },
    guards := (bodies b 0x203).map fun x =>
      { input := byteAt 0 x, kind := byteAt 1 x, mask := byteAt 2 x, polarity := byteAt 3 x, debounce := byteAt 4 x },
    trips := (bodies b 0x204).map fun x =>
      { kind := byteAt 0 x, inst := byteAt 1 x, mask := byteAt 2 x, threshold := signedOf 32 (leAt 4 4 x), delay := leAt 8 4 x },
    limps := (bodies b 0x205).map fun x => { outlet := byteAt 0 x, mode := byteAt 1 x, current := leAt 4 4 x },
    blocks := leAt 0 4 ((bodies c 0x301).headD []),
    switches := (bodies c 0x302).map fun x =>
      { channel := byteAt 0 x, outlet := byteAt 1 x, func := byteAt 2 x, thermAutoclr := bitAt (byteAt 3 x) 0,
        openloadOn := bitAt (byteAt 3 x) 1, openloadOff := bitAt (byteAt 3 x) 2, inrushMs := byteAt 4 x, retries := byteAt 5 x },
    limpMaps := (bodies c 0x303).map fun x => { input := byteAt 0 x, action := byteAt 1 x, mask := leAt 2 2 x },
    pinmux := (bodies c 0x304).map fun x => { ball := leAt 0 2 x, func := leAt 2 2 x },
    regions := (bodies c 0x305).map fun x => { region := byteAt 0 x, common := byteAt 1 x, segs := items16 (leAt 2 2 x) x },
    leds := (bodies c 0x306).map fun x => { channel := byteAt 0 x, role := byteAt 1 x, outlet := byteAt 2 x, ma := byteAt 3 x },
    notch := ((bodies c 0x307).head?).map fun x =>
      { adds := byteAt 0 x == 1, ranges := (items32 (byteAt 1 x) x).map fun w => (w % 65536, w / 65536) } }

/-- The structure of an image whose records parse; the empty structure otherwise. -/
def imageStruct (img : Bytes) : Struct :=
  match sectionRecords (imgSection img 1), sectionRecords (imgSection img 2), sectionRecords (imgSection img 3) with
  | some a, some b, some c => structOf img a b c
  | _, _, _ => Struct.none

/-! ## Cross checks of R35 -/

def measures (t : Struct) (n : Nat) : Option LaneRec := t.lanes.find? fun l => l.lane == n && l.role == 1
def hasOutlet (t : Struct) (o : Nat) : Bool := t.outlets.any (·.outlet == o)
/-- MEASURE lanes of a quantity at an outlet and group. -/
def lanesAt (t : Struct) (o g q : Nat) : Nat := t.lanes.countP fun l => l.role == 1 && l.outlet == o && l.group == g && l.qty == q
/-- MEASURE lanes of a quantity at an outlet. -/
def lanesOf (t : Struct) (o q : Nat) : Nat := t.lanes.countP fun l => l.role == 1 && l.outlet == o && l.qty == q
/-- The mask of an outlet's contactor channels in a TRIP record. -/
def contactorMask (t : Struct) (o : Nat) : Nat :=
  (t.contactors.filter (·.outlet == o)).foldl (fun m c => Nat.lor m (2 ^ (c.channel - 8))) 0
/-- The mask of an outlet's gate enables in a TRIP record. -/
def gateMask (t : Struct) (o : Nat) : Nat :=
  (t.gates.filter (·.outlet == o)).foldl (fun m c => Nat.lor m (2 ^ (c.output + 4))) 0
def covers (m k : Nat) : Bool := Nat.land m k == k

/-- A LANE record of a fused lane or of a MEASURE lane without CAL, or a CAL record of another lane (check 0x41). -/
def laneFits (small : Bool) (t x : Struct) : Bool :=
  x.lanes.all (fun l => !(small && l.role != 0 && inRange 22 39 l.lane) && (l.role != 1 || t.cals.any (·.lane == l.lane)))
    && x.cals.all fun c => (measures t c.lane).isSome

/-- Check 0x41 (R2, R30). -/
def check41 (small : Bool) (t : Struct) : Bool :=
  laneFits small t t
    && decide (t.lanes.countP (·.role == 1) ≤ if small then 20 else 36)
    && decide (t.lanes.countP (·.role == 2) ≤ if small then 2 else 4)

/-- Check 0x42. -/
def check42 (t : Struct) (a c : List (Nat × Bytes)) : Bool :=
  decide (t.lanes.map (·.lane)).Nodup && decide (t.outlets.map (·.outlet)).Nodup
    && decide (t.groups.map fun g => (g.outlet, g.group)).Nodup
    && decide (t.switches.map (·.channel) ++ t.contactors.map (·.channel)).Nodup
    && decide (t.gates.map (·.output)).Nodup && decide (t.guards.map (·.input)).Nodup
    && decide (t.limpMaps.map (·.input)).Nodup && decide ((t.meters.map (·.pulse)).filter (· != 0xFF)).Nodup
    && decide (t.pinmux.map (·.ball)).Nodup && decide (t.leds.map (·.channel)).Nodup
    && decide (t.regions.map (·.region)).Nodup && decide (t.regions.flatMap (·.segs)).Nodup
    && decide (t.cals.map (·.lane)).Nodup && decide (t.firs.map (·.set)).Nodup
    && decide (t.meters.map (·.outlet)).Nodup && decide (t.limps.map (·.outlet)).Nodup
    && decide ((bodies c 0x301).length ≤ 1) && decide ((bodies a 0x108).length ≤ 1)
    && decide ((bodies a 0x107).length ≤ 1) && decide ((bodies c 0x307).length ≤ 1) && !pinmuxClash t

/-- Check 0x43: each outlet is complete. -/
def check43 (t : Struct) : Bool :=
  t.outlets.all fun r =>
    t.meters.countP (·.outlet == r.outlet) == 1
      && (List.range r.groups).all (fun g =>
           t.groups.any (fun p => p.outlet == r.outlet && p.group == g) && lanesAt t r.outlet g 2 == 1)
      && (if r.kind = 1 then
            lanesOf t r.outlet 3 == 1 && (List.range r.groups).all fun g => lanesAt t r.outlet g 5 == 1
          else lanesOf t r.outlet 4 == 1 && lanesOf t r.outlet 6 == 1 && lanesOf t r.outlet 7 == 1)

/-- One PHASE_GROUP record fits the lanes (R29). -/
def groupFits (t : Struct) (g : GroupRec) : Bool :=
  (measures t g.vLane).any (·.qty == 1)
    && (measures t g.cLane).any (fun l => l.qty == 2 && l.outlet == g.outlet && l.group == g.group)
    && t.groups.all fun h => h.vLane != g.vLane || h.phase == g.phase

/-- Check 0x44 (R29). -/
def check44 (t : Struct) : Bool := t.groups.all (groupFits t)

/-- Check 0x45. -/
def check45 (t : Struct) : Bool :=
  let n (o p : Nat) := t.contactors.countP fun c => c.outlet == o && c.pole == p
  t.outlets.all fun r => if r.kind = 1 then n r.outlet 1 == 1 else n r.outlet 2 == 1 && n r.outlet 3 == 1

/-- Check 0x46: mandatory trips. -/
def check46 (t : Struct) : Bool :=
  t.lanes.all (fun l => l.role != 1 || l.qty != 2 ||
      t.trips.any fun p => p.kind == 1 && p.inst == l.lane && covers p.mask (contactorMask t l.outlet))
    && t.outlets.all fun r =>
      t.trips.any (fun p => p.kind == (if r.kind = 1 then 2 else 5) && p.inst == r.outlet
        && covers p.mask (contactorMask t r.outlet))
      && t.guards.any (fun g => g.kind == 3 && bitAt g.mask r.outlet
           && t.trips.any fun p => p.kind == 4 && p.inst == g.input && covers p.mask (contactorMask t r.outlet))

/-- Relations of a source that share no level: each kind and instance needs one level per pair of threshold and delay,
4 on a lane, 2 on an AC outlet (R165). -/
def levelsOf (t : Struct) (kinds : List Nat) (inst : Nat) : List (Nat × Int × Nat) :=
  (t.trips.filter (fun p => kinds.contains p.kind && p.inst == inst)).foldl
    (fun l p => if l.contains (p.kind, p.threshold, p.delay) then l else l ++ [(p.kind, p.threshold, p.delay)]) []

/-- Every relation finds a free level of its source. -/
def levelsFit (t : Struct) : Bool :=
  (List.range 40).all (fun n => decide ((levelsOf t [1, 3] n).length ≤ 4))
    && (List.range 4).all (fun o => decide ((levelsOf t [2] o).length ≤ 2))

/-- One TRIP record names a declared source of its kind and declared outputs. -/
def tripFits (t : Struct) (p : TripRec) : Bool :=
  let outs := (t.contactors.map fun c => 2 ^ (c.channel - 8)) ++ (t.gates.map fun g => 2 ^ (g.output + 4))
  p.mask != 0 && covers (outs.foldl Nat.lor 0) p.mask
    && (match p.kind with
        | 1 => (measures t p.inst).any (·.qty == 2)
        | 2 => t.outlets.any fun r => r.outlet == p.inst && r.kind == 1
        | 3 => (measures t p.inst).any fun l => l.qty == 1 || l.qty == 4
        | 4 => t.guards.any (·.input == p.inst)
        | _ => t.outlets.any fun r => r.outlet == p.inst && r.kind == 2)

/-- Check 0x47. -/
def check47 (t : Struct) : Bool := levelsFit t && t.trips.all (tripFits t)

/-- One LIMP_POLICY record meets R33. -/
def limpFits (t : Struct) (l : LimpRec) : Bool :=
  l.mode == 0 ||
    (bitAt t.blocks l.outlet && t.outlets.any fun r => r.outlet == l.outlet && r.kind == 1
      && inRange 6000 (min r.ratedMa 80000) l.current)

/-- Check 0x48 (R33). -/
def check48 (t : Struct) : Bool := t.limps.all (limpFits t)

/-- One LIMP_MAP record names only channels declared by SWITCH. -/
def mapFits (t : Struct) (l : LimpMapRec) : Bool := covers (t.switches.foldl (fun m x => Nat.lor m (2 ^ x.channel)) 0) l.mask

/-- Check 0x49. -/
def check49 (t : Struct) : Bool := t.limpMaps.all (mapFits t)

/-- Every instance that the records of `x` reference exists in `t`. -/
def refsExist (small : Bool) (t x : Struct) : Bool :=
  let ok (o : Nat) := hasOutlet t o && !(small && decide (2 ≤ o))
  (List.range 4).all (fun n => !bitAt x.blocks n || ok n)
    && x.lanes.all (fun l => l.role != 1 || (t.firs.any (·.set == l.fir) && ok l.outlet))
    && (x.regions.isEmpty || bitAt t.blocks 9) && (x.leds.isEmpty || bitAt t.blocks 10)
    && (x.notch.isNone || bitAt t.blocks 4)
    && x.outlets.all (fun r => !(small && decide (2 ≤ r.outlet)))
    && x.groups.all (fun g => ok g.outlet) && x.meters.all (fun m => ok m.outlet)
    && x.contactors.all (fun c => ok c.outlet) && x.gates.all (fun g => ok g.outlet)
    && x.guards.all (fun g => (List.range 4).all fun o => !bitAt g.mask o || ok o)
    && x.limps.all (fun l => ok l.outlet)
    && x.switches.all (fun y => y.outlet == 0xFF || ok y.outlet)
    && x.leds.all (fun y => y.outlet == 0xFF || ok y.outlet)

/-- Check 0x4B: every referenced instance exists. -/
def check4B (small : Bool) (t : Struct) : Bool := refsExist small t t

/-! ## Keys (R36) -/

/-- The owner root and the recovery root in the key store. -/
def ownerRoot (s : State) : Bytes := s.key.lcRec.get.owner
def recoveryRoot (s : State) : Bytes := s.key.lcRec.get.recovery

/-- Key for headers, safety and open sections; none in RETIRED. It is the root in force (R324). -/
def headerKey (s : State) : Option Bytes :=
  match s.key.lc with
  | .blank => some Config.testRoot
  | .provisioned => some Config.factoryRoot
  | .service => some (ownerRoot s)
  | .maintenance => some (ownerRoot s)
  | .recovery => some (recoveryRoot s)
  | .retired => none

/-- Key for the sealed section and METFW headers (R328). -/
def sealedKey (s : State) : Option Bytes :=
  match s.key.lc with
  | .blank => some Config.testRoot
  | .retired => none
  | _ => s.key.metro

/-- A signature verifies under a key that exists. -/
def verifies (k : Option Bytes) (msg sig : Bytes) : Bool :=
  match k with
  | some k => Config.verify k msg sig
  | none => false

/-! ## The sealed record (R23, R111) -/

/-- The sealed digest recorded in the metrology store. -/
def sealedDigest (s : State) : Option Bytes := s.met.sealedRec.get.map (·.digest)
/-- A sealed section counts as recorded in PROVISIONED only when it was written outside BLANK: its count is not 0 (R37). -/
def sealedRecorded (s : State) : Bool := s.met.sealedRec.get.any fun r => r.count != 0
/-- R23 does not apply: BLANK, or PROVISIONED with none recorded. -/
def staleExempt (s : State) : Bool := s.key.lc == .blank || (s.key.lc == .provisioned && !sealedRecorded s)
/-- SHA-384 of an image's sealed section. -/
def imageSealDigest (img : Bytes) : Bytes := Config.sha384 (imgSection img 1)
/-- The active bank of an image kind. -/
def activeBank (s : State) (k : Nat) : Bank :=
  let x := s.upd.kinds.getD (k - 1) Kind.fresh
  if x.activeB then x.b else x.a
/-- The digest of the installed metrology firmware. -/
def installedMet (s : State) : Bytes := (activeBank s 2).digest

/-! ## Validation (R35) -/

/-- How an image is validated: at boot, by WARREN_ACTIVATE, or for a manifest's entry. -/
inductive Validation where
  | boot | activate | manifest
  deriving DecidableEq, Repr

/-- IMAGE_SEQ floor of check 0x09 (R37): that of the copy in use, or the highest of the COMMITTED copies. -/
def seqFloor (s : State) : Nat :=
  if s.str.noStruct then s.str.copies.foldl (fun m c => if c.sel = .committed then max m c.selSeq else m) 0
  else s.str.cur.seq

/-- A record has the size that its TYPE has in section `k` (0xs6). -/
def recSized (k : Nat) (r : Nat × Bytes) : Bool := bodySize k r.1 r.2 == some r.2.length

/-- Rows 0xs1–0xs7 of section k, each with its reason and whether it passes. The reserved bytes 0x01 and 0x0E of the section
header are judged with the framing, 0xs6: R35 names no row for them (log 12). -/
def sectionChecks (s : State) (img : Bytes) (k : Nat) : List (Nat × Bool) :=
  let sec := imgSection img k
  let n := sec.length
  let key := if k = 1 then sealedKey s else headerKey s
  let c := 16 * k
  [(c + 1, byteAt 0 sec == k), (c + 2, leAt 2 2 sec == 1), (c + 3, leAt 4 4 sec == secLen img k),
   (c + 4, leAt (n - 100) 4 sec == crc32c (slice 0 (n - 100) sec)),
   (c + 5, verifies key (slice 0 (n - 96) sec) (sec.drop (n - 96))),
   (c + 6, match sectionRecords sec with
      | some r => r.all (recSized k) && r.length == leAt 0x0C 2 sec
                    && byteAt 1 sec == 0 && leAt 0x0E 2 sec == 0
      | none => false),
   (c + 7, match sectionRecords sec with
      | some r => (rangesOk k r).all id
      | none => false)]

/-- Section locations follow R25 (check 0x08). -/
def locationsOk (img : Bytes) : Bool :=
  let l := leAt 8 4 img
  (List.range 3).all (fun i => decide (116 ≤ secLen img (i + 1)) && secLen img (i + 1) % 4 == 0)
    && secOff img 1 == 0xA0 && secOff img 2 == 0xA0 + secLen img 1 && secOff img 3 == secOff img 2 + secLen img 2
    && secOff img 3 + secLen img 3 == l && decide (l ≤ img.length)

/-- Checks 0x01–0x09 of R35. -/
def headerChecks (s : State) (v : Validation) (img : Bytes) : List (Nat × Bool) :=
  let l := leAt 8 4 img
  [(1, leAt 0 4 img == 0x57524E31), (2, leAt 4 2 img == 1),
   (3, leAt 6 2 img == 160 && inRange 160 65536 l && l % 4 == 0 && inRange 1 0xFFFFFFFE (leAt 0x0C 4 img) && leAt 0x12 2 img == 0),
   (4, leAt 0x3C 4 img == crc32c (slice 0 0x3C img)),
   (5, verifies (headerKey s) (slice 0 0x40 img) (slice 0x40 96 img)),
   (6, leAt 0x10 2 img == if s.ident.small then 0x4280 else 0x4480),
   (7, leAt 0x14 8 img == s.ident.deviceId || (leAt 0x14 8 img == 0 && s.key.lc == .blank)),
   (8, locationsOk img)]
    ++ (if v = .activate then [(9, decide (seqFloor s < leAt 0x0C 4 img))] else [])

/-- Checks 0x18–0x4B of R35; `metDigest` is the metrology firmware check 0x18 is made against. An image without a
MET_FW_DIGEST record fails 0x18: it equals no digest (log 12). -/
def crossChecks (s : State) (v : Validation) (metDigest img : Bytes) : List (Nat × Bool) :=
  let t := imageStruct img
  let recs (k : Nat) := (sectionRecords (imgSection img k)).getD []
  [(0x18, !t.metDigest.isEmpty && t.metDigest == metDigest)]
    ++ (if v = .boot then [(0x19, staleExempt s || sealedDigest s == some (imageSealDigest img))] else [])
    ++ [(0x41, check41 s.ident.small t), (0x42, check42 t (recs 1) (recs 3)), (0x43, check43 t), (0x44, check44 t),
        (0x45, check45 t), (0x46, check46 t), (0x47, check47 t), (0x48, check48 t), (0x49, check49 t),
        (0x4A, pinmuxOk t), (0x4B, check4B s.ident.small t)]

/-- The first check that fails, in the row order of R35; 0 when all pass. -/
def firstReason : List (Nat × Bool) → Nat
  | [] => 0
  | (c, ok) :: r => if ok then firstReason r else c

/-- Validation of an image: the reason code, 0 when it is accepted. -/
def validate (s : State) (v : Validation) (metDigest img : Bytes) : Nat :=
  firstReason (headerChecks s v img ++ sectionChecks s img 1 ++ sectionChecks s img 2 ++ sectionChecks s img 3
    ++ crossChecks s v metDigest img)

/-- A cross check that judges records one by one, on the record `x` alone of the structure `t`. -/
def recordFits (small : Bool) (reason : Nat) (t x : Struct) : Bool :=
  if reason = 0x41 then laneFits small t x
  else if reason = 0x44 then x.groups.all (groupFits t)
  else if reason = 0x47 then x.trips.all (tripFits t)
  else if reason = 0x48 then x.limps.all (limpFits t)
  else if reason = 0x49 then x.limpMaps.all (mapFits t)
  else if reason = 0x4A then x.pinmux.all pinOffered
  else reason != 0x4B || refsExist small t x

/-- The index within its section of the first record that fails a cross check; sealed, safety and open in turn. -/
def failedIn (small : Bool) (img : Bytes) (reason : Nat) : Nat :=
  let recs (k : Nat) := (sectionRecords (imgSection img k)).getD []
  let t := imageStruct img
  let first (l : List Struct) : Option Nat := l.findIdx? fun x => !recordFits small reason t x
  match first ((recs 1).map fun r => structOf img [r] [] []), first ((recs 2).map fun r => structOf img [] [r] []),
    first ((recs 3).map fun r => structOf img [] [] [r]) with
  | some i, _, _ => i
  | none, some i, _ => i
  | none, none, some i => i
  | none, none, none => 0xFFFF

/-- The record that a failed check concerns, by its index in its section; 0xFFFF for a check that concerns no single record
(log 12). -/
def failedRecord (small : Bool) (img : Bytes) (reason : Nat) : Nat :=
  let k := reason / 16
  if inRange 1 3 k then
    match sectionRecords (imgSection img k) with
    | some r =>
      if reason % 16 = 6 then (r.findIdx? fun x => !recSized k x).getD 0xFFFF
      else if reason % 16 = 7 then ((rangesOk k r).findIdx? (! ·)).getD 0xFFFF
      else 0xFFFF
    | none => 0xFFFF
  else failedIn small img reason

/-- Class of EV_WARREN_REJECT by reason (R35). -/
def rejectClass (reason : Nat) : EvClass :=
  if [0x05, 0x07, 0x09, 0x15, 0x25, 0x35].contains reason then .security
  else if reason = 0x18 ∨ reason = 0x19 then .legal
  else if inRange 0x45 0x49 reason then .safety
  else .service

/-- EV_WARREN_REJECT, raised by `block` for copy `c`. -/
def logReject (block c reason : Nat) (img : Bytes) (s : State) : State :=
  logEv (rejectClass reason) block 0xFF 0x0101 [(1, c), (1, reason), (2, failedRecord s.ident.small img reason)] s

/-- The result of WARREN_ACTIVATE for a failed check (R41 step 2). -/
def reasonSts (reason : Nat) : Nat :=
  if reason = 0x03 then stsLengthRange
  else if [0x05, 0x15, 0x25, 0x35].contains reason then stsAuthFail
  else if [0x02, 0x12, 0x22, 0x32].contains reason then stsVersion
  else if reason = 0x09 then stsRefused
  else stsIntegrity

/-! ## Copies (R20, R21, R37) -/

def copyOf (s : State) (c : Nat) : WarrenCopy := s.str.copies.getD c { bytes := [], sel := .empty, selSeq := 0 }

/-- The inactive copy: the one not in use; with none in use the one with the lower IMAGE_SEQ, B when equal. An EMPTY selector
carries no number and counts as 0 beside one that does (log 12). -/
def inactiveCopy (s : State) : Nat :=
  if s.str.copyInUse = 1 then 1 else if s.str.copyInUse = 2 then 0
  else
    let sq (c : WarrenCopy) := if c.sel = .empty then 0 else c.selSeq
    if sq (copyOf s 0) < sq (copyOf s 1) then 0 else 1

/-- Sections that count as changed against the copy in use (R37, R40): sealed, safety, open. -/
def changedSections (s : State) (img : Bytes) : Bool × Bool × Bool :=
  if s.str.noStruct ∨ s.str.copyInUse = 0 then (sealedDigest s != some (imageSealDigest img), true, true)
  else
    let old := (copyOf s (s.str.copyInUse - 1)).bytes
    (imgSection old 1 != imgSection img 1, imgSection old 2 != imgSection img 2, imgSection old 3 != imgSection img 3)

/-- The life-cycle states that allow a sealed change (R40). -/
def sealAllowed (s : State) : Bool :=
  s.key.lc == .blank || s.key.lc == .maintenance || (s.key.lc == .provisioned && !sealedRecorded s)

end Sys2Proof.Machine
end

