-- ==== Sys2Proof/Machine/Lanes.lean ====
section
/-! DEFINITION. Measurement lanes (R47–R80, R447): check words, health triggers, trial values and coefficient banks, spares
and the hot-spare swap. The signal chain itself is in Machine/Chain.lean. -/

namespace Sys2Proof.Machine

/-- Full scale as a lane word (R51). -/
def laneFs : Int := 0x7FFFFF
/-- Saturation to full scale (R55, R56, R59). -/
def satFs (x : Int) : Int := clamp (-laneFs) laneFs x

/-- CRC-8 of a lane sample word (R67). -/
def laneCrc (lane seq : Nat) (v : Int) : Nat :=
  crcMsb 8 0x2F 0xFF (leBytes 4 (unsignedOf 24 v + lane * 2 ^ 24 + seq % 4 * 2 ^ 30))
/-- CRC-8 of a resampled word (R67). -/
def gridCrc (lane idx : Nat) (v : Int) : Nat :=
  crcMsb 8 0x2F ((0x80 + lane) % 256) (leBytes 4 (unsignedOf 24 v + idx % 256 * 2 ^ 24))

/-- The active bank's taps. -/
def activeTaps (l : Lane) : List Int := if l.bankB then l.bankBTaps else l.bankA
/-- The inactive bank's taps. -/
def inactiveTaps (l : Lane) : List Int := if l.bankB then l.bankA else l.bankBTaps
/-- Exactly 64 taps. -/
def taps64 (t : List Int) : List Int := t.take 64 ++ List.replicate (64 - t.length) 0
/-- CRC-32C of 64 taps as 256 little-endian bytes (R57). -/
def tapsCrc (taps : List Int) : Nat := crc32c ((taps64 taps).flatMap fun t => leBytes 4 (unsignedOf 32 t))

/-! ## Health triggers (R69) -/

/-- Group delay of the CIC decimator in delay units (R55). -/
def cicUnits (order : Nat) : Nat := if order = 3 then 1524 else if order = 4 then 2032 else if order = 5 then 2540 else 0
/-- LANEn_LATENCY: CIC delay units + 32,256 + 3,072 + DELAY (R79). -/
def laneLatency (l : Lane) : Nat := (cicUnits l.cic + 32256 + 3072 + l.delay) % 2 ^ 16

/-- Code of a trigger in events (log 11). -/
def Trigger.code : Trigger → Nat
  | .check => 1 | .stuck => 2 | .clkerr => 3

/-- A trigger of R69: on a lane that serves it waits for Badger; on a lane in a warm-up it counts there (R74). -/
def raiseTrigger (n : Nat) (t : Trigger) (s : State) : State :=
  let s := onLane n (fun l => if l.trig.isNone then { l with trig := some t } else l) s
  onLaneBlk (fun b => { b with warm := b.warm.map fun w =>
    if w.spare = n then { w with spareTrig := some (w.spareTrig.getD t) }
    else if w.suspect = n then { w with suspectTrig := true } else w }) s

/-- A stage that found a failed or tainted input (R68): CHKERR counts, STAGE takes the failed check's code, CHECK. -/
def checkFail (n stage : Nat) (s : State) : State :=
  raiseTrigger n .check (onLane n (fun l => { l with chkErr := satInc 16 l.chkErr, stage := stage }) s)

/-! ## Reset values from the structure -/

/-- The taps of a FIR set. -/
def firTaps (t : Struct) (set : Nat) : List Int :=
  match t.firs.find? (·.set == set) with
  | some f => f.taps
  | none => []

/-- A lane whose filters start to fill again with a decimator of order `cic` (R72, R78). -/
def refill (cic : Nat) (l : Lane) : Lane :=
  { l with cic := cic, bits := 0, cicInt := List.replicate cic 0, cicComb := List.replicate cic 0, tapInt := [0, 0],
           tapComb := [0, 0], hist := [], dly := [], out := [] }

/-- A lane as a structure starts it (R2, R44, R56, R58): counters of the cold column are kept. -/
def startLane (small : Bool) (t : Struct) (n : Nat) (old : Lane) : Lane :=
  let base := { Lane.fresh with chkErr := old.chkErr, ovld := old.ovld, strikes := old.strikes }
  if small ∧ 22 ≤ n then { base with health := .fused }
  else match t.lanes.find? (·.lane == n) with
    | none => base
    | some r =>
      if r.role = 0 then { base with health := .off }
      else
        let cal := (t.cals.find? (·.lane == n)).getD { lane := n, delay := 0, gain := 0 }
        refill r.cic { base with health := if r.role = 2 then .idle else .good, gain := cal.gain, delay := cal.delay,
                                 bankA := firTaps t r.fir }

/-! ## Spares (R70–R78, R447) -/

/-- The idle spare with the lowest lane number (R71). -/
def idleSpare (s : State) : Option Nat := (List.range 40).find? fun n => (laneOf s n).health == .idle

/-- The lane whose function lane `n` carries. -/
def functionOf (s : State) (n : Nat) : Nat :=
  match (List.range 40).find? fun k => carrier s k == n && k != n with
  | some k => k
  | none => n

/-- A spare starts warming on a suspect's pins with its settings (R72 step 4). -/
def startWarmup (spare suspect : Nat) (s : State) : State :=
  let l := laneOf s suspect
  let s := onLane spare (fun m => { m with
    health := .warming, partner := functionOf s suspect, gain := l.gain, delay := l.delay,
    bankB := l.bankB, bankA := l.bankA, bankBTaps := l.bankBTaps, seq := l.seq, trig := none }) s
  let s := onLane spare (refill l.cic) s
  let s := onLane suspect (fun m => { m with partner := if m.health = .suspect ∨ m.health = .failed then spare else m.partner }) s
  onLaneBlk (fun b => { b with warm := b.warm ++
    [{ spare := spare, lane := functionOf s suspect, suspect := suspect, spareTrig := none, suspectTrig := false, age := 0,
       blockN := 0, blockAbs := 0, blockSq := 0, blockBad := false, words := 0, sumAbs := 0, worstSq := 0,
       decided := none }] }) s

/-- A suspect that waits gets the next idle spare (R71, R76): the first in the queue that is not in trial. A warm-up begun
here logs no further EV_LANE_SUSPECT: that event belongs to step 3 as the lane enters SUSPECT (log 33). -/
def serveQueue (s : State) : State :=
  match s.lane.queue.find? (fun n => !(laneOf s n).trial), idleSpare s with
  | some n, some m =>
    if s.lane.warm.length < 4 then startWarmup m n (onLaneBlk (fun b => { b with queue := b.queue.erase n }) s) else s
  | _, _ => s

/-- A lane carries a function: role MEASURE not swapped out, or a spare that serves (R69). -/
def serves (s : State) (n : Nat) : Bool := (laneOf s n).health == .good || (laneOf s n).health == .serving

/-- The role of a lane in the structure: 0 without a record. -/
def laneRole (s : State) (n : Nat) : Nat :=
  match laneRec s n with
  | some r => r.role
  | none => 0

/-- The outlet a lane is homed at: that of the function it carries; none for a spare that carries none (log 33). -/
def homeOutlet (s : State) (n : Nat) : Option Nat :=
  (s.str.cur.lanes.find? fun l => l.lane == functionOf s n && l.role == 1).map (·.outlet)

/-- The lane's home outlet has a session. -/
def homeSession (s : State) (n : Nat) : Bool := (homeOutlet s n).any (inSession s)

/-! ## Trial values and coefficient banks (R57, R58) -/

/-- TRIAL has been cleared: at this sample boundary the sealed values of the function carried and bank A return; an idle
spare takes its start values. A suspect that TRIAL held back may now be warmed (R58, R71). -/
def endTrial (n : Nat) (s : State) : State :=
  let t := s.str.cur
  let f := functionOf s n
  let cal := (t.cals.find? (·.lane == f)).getD { lane := f, delay := 0, gain := 0 }
  let set := ((laneRec s f).map (·.fir)).getD 0
  serveQueue (onLane n (fun l => { l with trial := false, trialEnd := false, gain := cal.gain, delay := cal.delay,
                                          bankA := firTaps t set, bankB := false }) s)

/-- FIRDATA_WRITE (R57): the inactive bank at INDEX, in trial only (R58). -/
def firdataWrite (lane w : Nat) (s : State) : State :=
  onLane lane (fun l =>
    if l.trial && !l.swap then
      let taps := taps64 (inactiveTaps l)
      let taps := put taps l.firIndex (signedOf 32 w)
      let l := { l with firIndex := (l.firIndex + 1) % 64 }
      if l.bankB then { l with bankA := taps } else { l with bankBTaps := taps }
    else l) s

def execFirdataWrite (lane : Nat) (w : Word) (s : State) : Host.Outcome State Fault Refusal :=
  .next (if laneIn s.str.cur lane then firdataWrite lane w.toNat s else s)

/-- The swap that FIRCTL.SWAP asks for, between two output samples (R57): the inactive bank becomes active when its CRC
matches; else CRCERR. -/
def firSwap (l : Lane) : Lane :=
  if l.swap = false then l
  else if tapsCrc (inactiveTaps l) = l.firCrc then { l with bankB := !l.bankB, swap := false }
  else { l with crcErr := true, swap := false }

/-- FIR_SWAP (R57): SWAP is set; the lane acts on it before its next output sample (log 15). -/
def execFirSwap (lane : Nat) (s : State) : Host.Outcome State Fault Refusal :=
  .next (if laneIn s.str.cur lane then onLane lane (fun l => { l with swap := true }) s else s)

/-- The lane is concerned by a warm-up, as suspect or as the lane whose function is meant. -/
def beingWarmed (s : State) (n : Nat) : Bool := s.lane.warm.any fun w => w.suspect == n || w.lane == n || w.spare == n

/-- LANE_TRIAL_WRITE (R58, R71). -/
def laneTrialWrite (lane : Nat) (set : Bool) (s : State) : State :=
  if set then
    if s.sys.mode = .maintenance ∧ homeSession s lane = false ∧ beingWarmed s lane = false then
      onLane lane (fun l => { l with trial := true, trialEnd := false }) s
    else s
  else onLane lane (fun l => if l.trial then { l with trialEnd := true } else l) s

def execLaneTrialWrite (lane : Nat) (set : Bool) (s : State) : Host.Outcome State Fault Refusal :=
  .next (if laneIn s.str.cur lane then laneTrialWrite lane set s else s)

/-- LANE_CAL_WRITE (R58): GAIN or DELAY, in trial only and within range. -/
def laneCalWrite (lane : Nat) (delay : Bool) (w : Nat) (s : State) : State :=
  onLane lane (fun l =>
    if l.trial then
      if delay then (if w % 2 ^ 13 ≤ 4096 then { l with delay := w % 2 ^ 13 } else l)
      else if inRange 0x200000 0x7FFFFF (w % 2 ^ 24) then { l with gain := w % 2 ^ 24 } else l
    else l) s

def execLaneCalWrite (lane : Nat) (delay : Bool) (w : Word) (s : State) : Host.Outcome State Fault Refusal :=
  .next (if laneIn s.str.cur lane then laneCalWrite lane delay w.toNat s else s)

/-! ## Suspicion, decision and swap (R71–R78, R447) -/

/-- LANE_SUSPECT (R71): a triggered lane enters SUSPECT and gets a spare, or a place in the queue. -/
def execLaneSuspect (lane : Nat) (s : State) : Host.Outcome State Fault Refusal :=
  .next (match (laneOf s lane).trig with
    | some t =>
      if serves s lane then
        let s := onLane lane (fun l => { l with health := .suspect, trig := none }) s
        let s := onLaneBlk (fun b => { b with queue := b.queue ++ [lane] }) s
        let s := serveQueue s
        let sp := match s.lane.warm.find? (·.suspect == lane) with
          | some w => w.spare
          | none => 0xFF
        logEv .service 0x14 lane 0x0201 [(1, lane), (1, t.code), (1, (laneOf s lane).stage), (1, sp)] s
      else onLane lane (fun l => { l with trig := none }) s
    | none => s)

/-- A spare goes back to IDLE. -/
def releaseSpare (m : Nat) (s : State) : State := onLane m (fun l => { l with health := .idle, partner := 0xFF, trig := none }) s

/-- Writes the substitution record of a lane's function (R72 step 7). -/
def writeSubst (k m : Nat) (s : State) : State :=
  let d := (sealedDigest s).getD []
  onMet (fun b => { b with subst := (b.subst.filter (·.lane != k)) ++ [({ lane := k, spare := m, digest := d, ok := true } : SubstRec)] }) s

/-- The block still open at step 6 is compared: R73 leaves it open (`last`, log 33), unless a word of it was tainted. -/
def lastCounts (last : Bool) (w : Warmup) : Bool := last && !w.blockBad

/-- The words compared and the sum of their absolute differences. -/
def compared (last : Bool) (w : Warmup) : Nat × Nat :=
  if lastCounts last w then (w.words + w.blockN, w.sumAbs + w.blockAbs) else (w.words, w.sumAbs)

/-- MISMATCH (R73): the mean difference exceeds 0.02 % of FS, or a block's RMS difference 0.1 % of FS. -/
def mismatch (last : Bool) (w : Warmup) : Bool :=
  decide ((compared last w).1 * 0x7FFFFF < (compared last w).2 * 5000)
    || decide (320 * 0x7FFFFF * 0x7FFFFF < w.worstSq * 10 ^ 6)
    || (lastCounts last w && decide (w.blockN * 0x7FFFFF * 0x7FFFFF < w.blockSq * 10 ^ 6))

/-- The mean difference in 0.001 % FS, as events carry it; its rounding is open. -/
def meanDiff (up last : Bool) (w : Warmup) : Nat :=
  (openQuot up ((compared last w).2 * 100000) ((compared last w).1 * 0x7FFFFF)).toNat

/-- WARMUP_DECISION (R74): the first row that holds. -/
def execWarmupDecision (spare : Nat) (up last : Bool) (s : State) : Host.Outcome State Fault Refusal :=
  .next (match s.lane.warm.find? (fun w => w.spare == spare && w.decided.isNone) with
    | none => s
    | some w =>
      let drop (s : State) : State := onLaneBlk (fun b => { b with warm := b.warm.filter (·.spare != spare) }) s
      let mean := meanDiff up last w
      let own := w.suspect == w.lane
      let back := if own then 0xFF else w.lane
      match w.spareTrig with
      | some t =>
        let s := onLane spare (fun l => { l with health := .failed, partner := 0xFF, trig := none }) (drop s)
        let s := logEv .service 0x14 spare 0x0204 [(1, spare), (1, t.code)] s
        let s := onLane w.suspect (fun l => { l with partner := back }) s
        serveQueue (onLaneBlk (fun b => { b with queue := w.suspect :: b.queue }) s)
      | none =>
        let reason := if w.suspectTrig then 1 else if 2 ≤ (laneOf s w.suspect).strikes then 2
          else if mismatch last w then 3 else 0
        if reason = 0 then
          let s := onLane w.suspect (fun l => { l with
            health := if own then .good else .serving, trig := none,
            partner := back, strikes := min 2 (l.strikes + 1) }) (drop s)
          let s := releaseSpare spare s
          let s := logEv .service 0x14 w.suspect 0x0202
            [(1, w.suspect), (1, spare), (4, mean), (1, (laneOf s w.suspect).strikes)] s
          serveQueue s
        else
          onLaneBlk (fun b => { b with warm := b.warm.map fun x =>
            if x.spare = spare then { x with decided := some (reason, mean) } else x }) (writeSubst w.lane spare s))

/-- LANE_SWAP (R72 step 8, R447): the spare takes over the function at this sample boundary. -/
def execLaneSwap (spare : Nat) (s : State) : Host.Outcome State Fault Refusal :=
  .next (match s.lane.warm.find? (·.spare == spare) with
    | none => s
    | some w =>
      match w.decided with
      | none => s
      | some (reason, mean) =>
        let s := onLaneBlk (fun b => { b with warm := b.warm.filter (·.spare != spare) }) s
        let s := onStr (fun b => { b with subst := put b.subst w.lane spare }) s
        let s := onLane spare (fun l => { l with health := .serving, partner := w.lane, trig := none }) s
        let s := if w.suspect = w.lane then
            onLane w.lane (fun l => { l with health := .swapped, partner := spare, trig := none }) s
          else
            onLane w.lane (fun l => { l with partner := spare })
              (onLane w.suspect (fun l => { l with health := .failed, partner := 0xFF, trig := none }) s)
        let rs := match laneRec s w.lane with
          | some r => s.lane.rs.getD r.outlet Resampler.fresh
          | none => Resampler.fresh
        logEv .legal 0x14 w.lane 0x0203
          [(1, w.lane), (1, spare), (1, reason), (4, mean), (1, rs.idx), (4, rs.cycles)] s)

/-- SPARE_FAILED (R70): an idle spare whose check failed. -/
def execSpareFailed (spare trigger : Nat) (s : State) : Host.Outcome State Fault Refusal :=
  .next (if (laneOf s spare).health = .idle then
    logEv .service 0x14 spare 0x0204 [(1, spare), (1, trigger)]
      (onLane spare (fun l => { l with health := .failed, trig := none }) s)
    else s)

/-- Lane `k` is a source lane of a TRIP relation: the relation's own lane, the RESIDUAL lane of a residual step's outlet, or
an ISO lane of an isolation relation's outlet (R32, R165, R174). -/
def tripSource (t : Struct) (p : TripRec) (k : Nat) : Bool :=
  ((p.kind == 1 || p.kind == 3) && p.inst == k)
    || t.lanes.any fun l => l.lane == k && l.role == 1 && l.outlet == p.inst
         && ((p.kind == 2 && l.qty == 3) || (p.kind == 5 && (l.qty == 6 || l.qty == 7)))

/-- Outlets whose permission a failed lane takes (R76): as source lane of a TRIP, or as RESIDUAL, ISO_P or ISO_N. -/
def laneBlocks (s : State) (n : Nat) (o : Nat) : Bool :=
  let t := s.str.cur
  let k := functionOf s n
  t.trips.any (fun p => tripSource t p k && Nat.land p.mask (contactorMask t o + gateMask t o) != 0)
    || t.lanes.any fun l => l.lane == k && l.role == 1 && l.outlet == o && (l.qty == 3 || l.qty == 6 || l.qty == 7)

/-- A FAILED lane of R76 bears on an outlet: one that still carries its function. -/
def failedLane (s : State) (o : Nat) : Bool :=
  (List.range 40).any fun n => (laneOf s n).health == .failed && carrier s (functionOf s n) == n
    && (s.str.cur.lanes.any fun l => l.lane == functionOf s n && l.role == 1) && laneBlocks s n o

/-- LANE_FAILED (R76): a suspect whose trigger persisted or recurred. -/
def execLaneFailed (lane trigger : Nat) (s : State) : Host.Outcome State Fault Refusal :=
  .next (if (laneOf s lane).health = .suspect then
    let outs := (List.range 4).foldl (fun m o => if laneBlocks s lane o then m + 2 ^ o else m) 0
    logEv .legal 0x14 lane 0x0205 [(1, lane), (1, trigger), (1, outs)]
      (onLane lane (fun l => { l with health := .failed }) s)
    else s)

/-- STRIKE_EXPIRY (R74): a strike is 24 h old. -/
def execStrikeExpiry (lane : Nat) (s : State) : Host.Outcome State Fault Refusal :=
  .next (onLane lane (fun l => { l with strikes := l.strikes - 1 }) s)

/-- Lane `k` takes its own function back: its filters refill, no record, no spare, no place in the queue. -/
def takeBack (k : Nat) (s : State) : State :=
  let m := carrier s k
  let s := onStr (fun b => { b with subst := put b.subst k k }) s
  let s := onMet (fun b => { b with subst := b.subst.filter (·.lane != k) }) s
  let s := onLaneBlk (fun b => { b with warm := b.warm.filter (·.lane != k), queue := (b.queue.erase k).erase m }) s
  onLane k (fun l => let l := { l with health := .good, partner := 0xFF, trig := none }
                     if m = k then l else refill ((laneRec s k).map (·.cic) |>.getD l.cic) l) s

/-- A spare warming for lane `k` goes back to IDLE. -/
def dropWarm (k : Nat) (s : State) : State :=
  match s.lane.warm.find? (·.lane == k) with
  | some w => releaseSpare w.spare s
  | none => s

/-- LANE_RESTORE's effect: the lane reconnected, its spare IDLE, the record erased. A FAILED spare goes back to IDLE, and a
function it still carries goes back to its lane (log 33). -/
def restoreLane (n : Nat) (s : State) : State :=
  let k := functionOf s n
  if laneRole s n = 2 then
    let s := if k = n then s else takeBack k (dropWarm k s)
    logEv .legal 0x14 n 0x0207 [(1, n), (1, n)]
      (releaseSpare n (onLaneBlk (fun b => { b with queue := b.queue.erase n }) s))
  else
    let m := carrier s n
    let sp := if m ≠ n then m else match s.lane.warm.find? (·.lane == n) with
      | some w => w.spare
      | none => 0xFF
    let s := dropWarm n (if m ≠ n then releaseSpare m s else s)
    logEv .legal 0x14 n 0x0207 [(1, n), (1, sp)] (takeBack n s)

/-- LANE_RESTORE (R78). -/
def execLaneRestore (r : Req) (lane : Nat) (s : State) : Host.Outcome State Fault Refusal :=
  let h := (laneOf s lane).health
  .next (badgerCmd r (guarded r [(decide (lane < 40) && !laneIn s.str.cur lane, stsAbsent), (decide (39 < lane), stsLengthRange),
      (s.sys.mode != .maintenance || homeSession s lane || (h != .failed && carrier s lane == lane), stsState)]
    (fun s => postSts r stsOk (serveQueue (restoreLane lane s)))) s)

end Sys2Proof.Machine
end

