-- ==== Sys2Proof/Machine/Chain.lean ====
section
/-! DEFINITION. The signal chain of a lane (R48–R73): density monitor, CIC decimator, FIR, gain and delay, fast tap,
line-locked resampler or DC decimator, check words with their taint, detectors, and the comparison of a warm-up. -/

namespace Sys2Proof.Machine

/-! ## Density monitor and CIC (R54, R55) -/

/-- The density monitor's OVERLOAD (R54), from the ones among the last 256 clocks. -/
def overloaded (n : Nat) : Bool := decide (240 < n) || decide (n < 16)

/-- A chain of 64-bit integrators, the first fed with `x`. -/
def integrate (x : Nat) : List Nat → List Nat
  | [] => []
  | a :: r => let y := (a + x) % 2 ^ 64; y :: integrate y r

/-- The integrators after one modulator bit, which counts +1 or −1. -/
def pushBit (acc : List Nat) (b : Bool) : List Nat := integrate (if b then 1 else 2 ^ 64 - 1) acc

/-- The integrators after the lowest `n` bits of a frame, bit 0 first. -/
def pushBits (n bits : Nat) (acc : List Nat) : List Nat := (List.range n).foldl (fun a i => pushBit a (bitAt bits i)) acc

/-- A chain of combs fed with `x`: its output and the combs after it. -/
def combs (x : Nat) : List Nat → Nat × List Nat
  | [] => (x, [])
  | c :: r => let (y, r') := combs ((x + 2 ^ 64 - c) % 2 ^ 64) r; (y, x :: r')

/-- Output of a CIC decimator after its integrators took a frame. -/
def cicOut (ints cs : List Nat) : Int × List Nat :=
  let (y, cs) := combs (ints.getLast?.getD 0) cs
  (signedOf 64 y, cs)

/-- Stage 2's output before saturation: the decimator's gain is 128^order, full scale is `Config.modFull` (R55). -/
def cicWord (up : Bool) (order : Nat) (y : Int) : Int := rnd up (y * (0x7FFFFF * 2 ^ 20 : Nat)) (128 ^ order * max 1 Config.modFull)

/-- The fast-tap word before its clamp: order-2 CIC by 8, times GAIN, rounded to 16 bits (R61). -/
def tapValue (up : Bool) (gain : Nat) (y : Int) : Int :=
  clamp (-0x7FFF) 0x7FFF (rnd up (y * (0x7FFF * 2 ^ 20 * gain : Nat)) (64 * max 1 Config.modFull * 0x400000))

/-- OVERLOAD changes: its onset counts; onset and end are logged, at most one record in 60 s per lane (R54, R80). -/
def overloadChange (n : Nat) (on : Bool) (s : State) : State :=
  let l := laneOf s n
  let s := onLane n (fun l => { l with overload := on, ovld := if on then satInc 8 l.ovld else l.ovld }) s
  if within s l.ovldLogged 60000 then s
  else logEv .service 0x02 n 0x0209 [(1, n), (1, if on then 1 else 0), (1, (laneOf s n).ovld)]
    (onLane n (fun l => { l with ovldLogged := some s.ticks }) s)

/-! ## FIR, gain and delay (R56–R60) -/

/-- Value of a delay-line word that has not arrived yet: 0. -/
def wordVal (l : List LaneWord) (i : Nat) : Int := (l.getD i LaneWord.zero).val

/-- The FIR's accumulator over 64 words: 56 bits wide, wrapping (R56, log 33). -/
def firSum (taps : List Int) (hist : List LaneWord) : Int :=
  let x := (List.range 64).foldl (fun a i => a + taps.getD i 0 * wordVal hist i) 0
  signedOf 56 (unsignedOf 56 x)

/-- The marks a stage's output takes from the words it used (R68): tainted, quiet, stage code, and whether the stage
counts a failed check. `code` is the stage code of the check the stage verifies. -/
structure RunMarks where
  taint : Bool
  quiet : Bool
  stage : Nat
  counts : Bool

def marksOf (code : Nat) (hit : Bool) (ws : List LaneWord) : RunMarks :=
  let loud := ws.find? fun w => w.taint && !w.quiet
  let own := hit || ws.any (·.hit)
  { taint := own || ws.any (·.taint), quiet := ws.any (·.taint) && loud.isNone && !own,
    stage := match loud with
      | some w => w.stage
      | none => if own then code else 0,
    counts := own || loud.isSome }

/-! ## Resampler and DC decimator (R62–R64, R67, R68) -/

/-- The lane functions resampled onto an outlet's grid: those its PHASE_GROUP records name, and the lanes homed at it. -/
def gridLanes (t : Struct) (o : Nat) : List Nat :=
  (((t.groups.filter (·.outlet == o)).flatMap fun g => [g.vLane, g.cLane])
    ++ (t.lanes.filter fun l => l.role == 1 && l.outlet == o).map (·.lane)).eraseDups

/-- The lane function that is an outlet's reference: the VOLTAGE lane of phase group 0. -/
def refFunction (t : Struct) (o : Nat) : Option Nat := (t.groups.find? fun g => g.outlet == o && g.group == 0).map (·.vLane)

/-- LANE_RSo_STAT.REFLANE: the lane that carries the reference; 0xFF for DC (R62, R79). -/
def refLane (s : State) (o : Nat) : Nat :=
  if isAc s o then ((refFunction s.str.cur o).map (carrier s)).getD 0xFF else 0xFF

/-- The outlet whose grid outlet `o` has: the lowest AC outlet with the same reference lane (R62). -/
def gridOwner (t : Struct) (o : Nat) : Nat :=
  let ac (p : Nat) : Bool := t.outlets.any fun r => r.outlet == p && r.kind == 1
  if ac o then ((List.range 4).find? fun p => ac p && refFunction t p == refFunction t o).getD o else o

/-- A resampler as a structure starts it (R63, R64): its lines empty. -/
def startResampler (t : Struct) (o : Nat) : Resampler :=
  let lines := (gridLanes t o).map fun n => { lane := n, words := [] : GridLine }
  match t.outlets.find? (·.outlet == o) with
  | none => Resampler.fresh
  | some r => if r.kind = 1 then { Resampler.fresh with state := .nofund, freq := r.nomMHz, lines := lines }
              else { Resampler.fresh with state := .dc, lines := lines }

/-- The line of a lane function on an outlet's grid. -/
def gridLine (s : State) (o k : Nat) : List GridWord :=
  match (s.lane.rs.getD o Resampler.fresh).lines.find? (·.lane == k) with
  | some l => l.words
  | none => []

/-- The resampled word a carrier's last 16 words give, with its CRC-8 and taint; the carrier counts a failed check. -/
def gridWord (dc : Bool) (freq k idx at' : Nat) (ws : List LaneWord) : GridWord × Bool :=
  let vals := (List.range 16).map (wordVal ws)
  let v := satFs (if dc then Config.halfBand vals else Config.resample freq at' vals)
  let m := marksOf 3 false (ws.take 16)
  ({ val := v, idx := idx, crc := gridCrc k idx v, taint := m.taint, quiet := m.quiet, stage := m.stage }, m.counts)

/-- One lane function's word of a grid point. -/
def formWord (o idx at' k : Nat) (s : State) : State :=
  let r := s.lane.rs.getD o Resampler.fresh
  let c := carrier s k
  let (w, bad) := gridWord (r.state == .dc) r.freq k idx at' (laneOf s c).out
  let s := onLaneBlk (fun b => { b with rs := upd b.rs o fun r => { r with
    lines := r.lines.map fun l => if l.lane = k then { l with words := (w :: l.words).take 256 } else l } }) s
  if bad then checkFail c 3 s else s

/-- The grid point that fell due at the last reference word is formed for every line of the outlet. -/
def formDue (o : Nat) (s : State) : State :=
  let r := s.lane.rs.getD o Resampler.fresh
  match r.due with
  | none => s
  | some (idx, at') =>
    let s := r.lines.foldl (fun s l => formWord o idx at' l.lane s) s
    onLaneBlk (fun b => { b with rs := upd b.rs o fun r => { r with due := none, fill := min 256 (r.fill + 1) } }) s

/-- The grid of a DC outlet after one more sample: every fourth gives a word (R64). -/
def dcAdvance (r : Resampler) : Resampler :=
  if r.phase + 1 < 4 then { r with phase := r.phase + 1 }
  else { r with phase := 0, due := some (r.idx, 0), idx := (r.idx + 1) % 256,
                cycles := if r.idx = 255 then (r.cycles + 1) % 2 ^ 32 else r.cycles }

/-- Width of a grid interval in the units of `phase`. -/
def gridUnit : Nat := 32000000

/-- The zero crossing that the filtered reference shows between the last two words, and what it measures (R62, R63). -/
def crossAt (up : Bool) (prev y : Int) (r : Resampler) : Resampler :=
  let back := openQuot up (y * 65536) (y - prev).toNat
  let t := r.samples * 65536 - back.toNat
  let f := match r.cross with
    | some t0 => (openQuot up (32000 * 1000 * 65536) (t - t0)).toNat
    | none => 0
  let pos := ((r.idx * gridUnit + r.phase : Nat) : Int) - gridUnit - (256 * r.freq * back) / 65536
  let p := (pos % (256 * gridUnit : Nat)).toNat
  { r with cross := some t, measured := f, aligned := decide (p ≤ gridUnit) || decide (255 * gridUnit ≤ p) }

/-- The reference measured (R62): filter, mean over the last complete grid cycle, positive-going crossing. -/
def trackRef (up : Bool) (x : Int) (r : Resampler) : Resampler :=
  let filt := Config.refFilter r.filt x
  let out := filt.headD 0
  let y := out - r.mean
  let r := match r.prev with
    | some p => if p < 0 ∧ 0 ≤ y then crossAt up p y r else r
    | none => r
  { r with filt := filt, prev := some y, sum := r.sum + out, count := r.count + 1 }

/-- The grid of an AC outlet after one more sample (R62): at most one grid point falls in it. -/
def acAdvance (up : Bool) (r : Resampler) : Resampler :=
  let step := ((256 * r.freq : Nat) : Int) + r.adj
  let ph := ((r.phase : Int) + step).toNat
  if ph < gridUnit then { r with phase := ph }
  else
    let past := ph - gridUnit
    let r := { r with phase := past, due := some (r.idx, past * 65536 / max 1 step.toNat), idx := (r.idx + 1) % 256 }
    if r.idx = 0 then { r with cycles := (r.cycles + 1) % 2 ^ 32, mean := openQuot up r.sum r.count, sum := 0, count := 0 }
    else r

/-- What an outlet that shares a reference lane takes from the owner of the grid (R62). -/
def shareGrid (p r : Resampler) : Resampler :=
  { r with freq := p.freq, idx := p.idx, phase := p.phase, adj := p.adj, due := p.due, samples := p.samples,
           filt := p.filt, prev := p.prev, sum := p.sum, count := p.count, mean := p.mean, cross := p.cross,
           measured := p.measured, aligned := p.aligned,
           cycles := if p.idx = 0 ∧ r.idx ≠ 0 then (r.cycles + 1) % 2 ^ 32 else r.cycles }

/-- An outlet's grid after one more reference word: DC, the owner of its grid, or a grid shared with outlet `p`'s. -/
def nextGrid (up : Bool) (x : Int) (own : Bool) (p r : Resampler) : Resampler :=
  if r.state = .dc then dcAdvance r
  else if own then trackRef up x (acAdvance up { r with samples := r.samples + 1 })
  else (shareGrid p r)

/-- One reference word of an outlet: the grid point due is formed, then the grid moves on. -/
def gridStep (o : Nat) (x : Int) (s : State) : State :=
  let s := formDue o s
  let p := gridOwner s.str.cur o
  onLaneBlk (fun b => { b with rs := upd b.rs o (nextGrid (freeBit s) x (p == o) (b.rs.getD p Resampler.fresh)) }) (bump s)

/-- The outlets whose grid a lane's word moves on. -/
def clocks (s : State) (n o : Nat) : Bool := declared s o && (refFunction s.str.cur o).any fun k => carrier s k == n

/-! ## The comparison of a warm-up (R72 step 5, R73) -/

/-- Words of the spare after which its filters are filled and the comparison and its fast tap start (4 ms, log 33). -/
def warmStart : Nat := 128

/-- One pair of words of the same instant; 320 make a block of 10 ms, which counts unless a word of it was tainted. -/
def comparePair (a b : LaneWord) (w : Warmup) : Warmup :=
  let d := (a.val - b.val).natAbs
  let w := { w with blockN := w.blockN + 1, blockAbs := w.blockAbs + d, blockSq := w.blockSq + d * d,
                    blockBad := w.blockBad || a.taint || b.taint }
  if w.blockN < 320 then w
  else
    let z := { w with blockN := 0, blockAbs := 0, blockSq := 0, blockBad := false }
    if w.blockBad then z
    else { z with words := w.words + 320, sumAbs := w.sumAbs + w.blockAbs, worstSq := max w.worstSq w.blockSq }

/-- A lane's word enters the warm-ups it takes part in: both lanes' words of one instant carry the same SEQ (R50, R72). -/
def compareWarm (n : Nat) (s : State) : State :=
  onLaneBlk (fun b => { b with warm := b.warm.map fun w =>
    if w.decided.isNone && (w.spare == n || w.suspect == n) then
      let w := if w.spare = n then { w with age := w.age + 1 } else w
      let x := b.lanes.getD w.spare Lane.fresh
      let y := b.lanes.getD w.suspect Lane.fresh
      if warmStart ≤ w.age ∧ x.seq = y.seq then comparePair x.sample y.sample w else w
    else w }) s

/-! ## One lane sample word (R48) -/

/-- The density monitor and the decimator take the frame's 128 bits: stage 2's word enters the FIR's line. -/
def stage2 (n : Nat) (inp : LaneInput) (s : State) : State :=
  let l := laneOf s n
  let count := ones 128 inp.bits + ones 128 l.bits
  let s := onLane n (fun l => { l with bits := inp.bits % 2 ^ 128, high := decide (128 ≤ count),
                                       stuck := l.stuck && (count == 0 || count == 256) }) s
  let ov := overloaded count || (laneOf s n).stuck
  let s := if ov != l.overload then overloadChange n ov s else s
  let l := laneOf s n
  let ints := pushBits 128 inp.bits l.cicInt
  let (y, cs) := cicOut ints l.cicComb
  let forced := l.stuck || l.clkerr
  let seq := (l.seq + 1) % 4
  let c := satFs (cicWord (freeBit s) l.cic y)
  let w : LaneWord := { val := c, crc := laneCrc n seq c, taint := forced, quiet := forced, stage := 0, hit := false }
  onLane n (fun l => { l with cicInt := ints, cicComb := cs, seq := seq, hist := (w :: l.hist).take 64 }) (bump s)

/-- Stages 3 and 4 with their checks, saturation, clamping and detector inputs: the lane sample word. -/
def stages34 (n : Nat) (inp : LaneInput) (s : State) : State :=
  let l := laneOf s n
  let f := rnd (freeBit s) (firSum (activeTaps l) l.hist) (2 ^ 30)
  let m3 := marksOf 1 inp.firBad l.hist
  let s := bump s
  let s := if m3.counts then checkFail n 1 s else s
  -- stage 4: gain, then delay and interpolation
  let g := rnd (freeBit s) (satFs f * l.gain) 0x400000
  let gw : LaneWord := { val := satFs g, crc := laneCrc n l.seq (satFs g), taint := m3.taint, quiet := m3.quiet,
                         stage := m3.stage, hit := false }
  let dly := (gw :: l.dly).take 12
  let used := (dly.drop (l.delay / 1024)).take 8
  let y := satFs (Config.interpolate (l.delay % 1024) ((List.range 8).map (wordVal used)))
  let m4 := marksOf 2 inp.dlyBad used
  let s := bump s
  let s := if m4.counts then checkFail n 2 s else s
  let sat := (if f = satFs f then 0 else 1) + (if g = satFs g then 0 else 1)
  let v := if l.clkerr then laneFs else if l.overload then (if l.high then laneFs else -laneFs) else y
  let forced := l.stuck || l.clkerr
  let w : LaneWord := { val := v, crc := laneCrc n l.seq v, taint := forced || m4.taint,
                        quiet := (forced || m4.quiet) && !m4.counts, stage := m4.stage, hit := inp.rsBad }
  onLane n (fun l => { l with
    dly := dly, sample := w, out := (w :: l.out).take 16, ovld := satAdd 8 l.ovld sat,
    peakAcc := max l.peakAcc v.natAbs, envAcc := max l.envAcc v.natAbs,
    overWin := l.overWin || l.overload, overEnv := l.overEnv || l.overload }) s

/-- One lane sample word: a boundary at which TRIAL's end and SWAP act, stages 2–4, the grids it clocks, the warm-ups. -/
def sampleLane (n : Nat) (inp : LaneInput) (s : State) : State :=
  let s := if (laneOf s n).trialEnd then endTrial n s else s
  let s := stages34 n inp (stage2 n inp (onLane n firSwap s))
  let x := (laneOf s n).sample.val
  compareWarm n ((List.range 4).foldl (fun s o => if clocks s n o then gridStep o x s else s) s)

/-- A lane that is powered and connected: declared, not swapped out, not a FAILED spare without a function (R72, R447). -/
def delivers (s : State) (n : Nat) : Bool :=
  let h := (laneOf s n).health
  laneIn s.str.cur n && h != .swapped && !(h == .failed && laneRole s n == 2 && functionOf s n == n)

/-- LANE_SAMPLE_WORD (R48): a connected lane delivers its word; another does nothing. -/
def execLaneSampleWord (lane : Nat) (inp : LaneInput) (s : State) : Host.Outcome State Fault Refusal :=
  .next (if delivers s lane then sampleLane lane inp s else s)

/-- LANE_STUCK (R54): the bitstream has been constant for 1,024 clocks. STUCK clears at the first sample word whose 256
clocks are not constant (log 33). -/
def execLaneStuck (lane : Nat) (high : Bool) (s : State) : Host.Outcome State Fault Refusal :=
  .next (if delivers s lane then
    let s := if (laneOf s lane).overload then s else overloadChange lane true s
    raiseTrigger lane .stuck (onLane lane (fun l => { l with stuck := true, high := high }) s)
    else s)

/-- LANE_CLKERR (R69): the modulator clock is missing for 2 µs. -/
def execLaneClkerr (lane : Nat) (s : State) : Host.Outcome State Fault Refusal :=
  .next (if delivers s lane then raiseTrigger lane .clkerr (onLane lane (fun l => { l with clkerr := true }) s)
    else s)

/-- MODULATOR_CLOCK_RETURN (R69): CLKERR clears. -/
def execModulatorClockReturn (lane : Nat) (s : State) : Host.Outcome State Fault Refusal :=
  .next (onLane lane (fun l => { l with clkerr := false }) s)

/-! ## Fast tap (R54, R61) -/

/-- The fast-tap word of 8 modulator bits: clamped to ±FS under OVERLOAD and STUCK, +FS under CLKERR. -/
def formTap (n bits : Nat) (s : State) : State :=
  let l := laneOf s n
  let ints := pushBits 8 bits l.tapInt
  let (y, cs) := cicOut ints l.tapComb
  let x := tapValue (freeBit s) l.gain y
  let v := if l.clkerr then 0x7FFF else if l.overload || l.stuck then (if l.high then 0x7FFF else -0x7FFF) else x
  onLane n (fun l => { l with tapInt := ints, tapComb := cs, tap := v, tapParity := ones 16 (unsignedOf 16 v) % 2 == 1 }) (bump s)

/-! ## Resampler states (R63) -/

/-- Code of a resampler state (R79). -/
def RsState.code : RsState → Nat
  | .absent => 0 | .locked => 1 | .slew => 2 | .frange => 3 | .nofund => 4 | .dc => 5

/-- A rate moved towards the measured frequency by at most `k` mHz. -/
def towards (rate freq k : Nat) : Nat := if rate < freq then min freq (rate + k) else max freq (rate - min k rate)

/-- What a cycle shows of the reference: RMS below 10 %, RMS at or above 20 % of nominal, no crossing for 50 ms. -/
structure CycleShow where
  low : Bool
  strong : Bool
  noCross : Bool

/-- The reference over the last cycle at the grid rate: its full scale is 2√2 × its home outlet's nominal voltage (R52). -/
def showCycle (nominal home : Nat) (ws : List GridWord) (r : Resampler) : CycleShow :=
  let sq := ws.foldl (fun a w => a + w.val * w.val) (0 : Int)
  let fs := 256 * 0x7FFFFF * 0x7FFFFF * nominal * nominal
  { low := decide (sq * (800 * home * home : Nat) < fs), strong := decide ((fs : Int) ≤ sq * (200 * home * home : Nat)),
    noCross := match r.cross with
      | some t => decide (t + 1600 * 65536 ≤ r.samples * 65536)
      | none => decide (1600 ≤ r.samples) }

/-- The rows of R63 for one cycle. -/
def rsCycle (nominal : Nat) (c : CycleShow) (r : Resampler) : Resampler :=
  let f := r.measured
  let out := decide (f < 40000) || decide (70000 < f)
  let outOf := if out then r.outOf + 1 else 0
  let inRg := if !out && c.strong then r.inRange + 1 else 0
  let r := { r with outOf := outOf, inRange := inRg }
  if c.low || c.noCross then { r with state := .nofund, freq := nominal }
  else if 2 ≤ outOf then { r with state := .frange, freq := if f < 55000 then 40000 else 70000 }
  else match r.state with
    | .locked => { r with freq := towards r.freq f (5000000 / max 1 r.freq) }
    | .slew =>
      let g := towards r.freq f 500
      if g = f ∧ r.aligned then { r with state := .locked, freq := g } else { r with freq := g }
    | _ => if 3 ≤ inRg then { r with state := .slew, freq := towards r.freq f 500 } else r

/-- The phase adjustment that brings or keeps index 0 on the crossing while the grid follows: at most 0.5 Hz, open within
that (log 33). -/
def phaseAdj (adj : Nat) (r : Resampler) : Int :=
  if r.state = .slew ∨ r.state = .locked then ((adj % 256001 : Nat) : Int) - 128000 else 0

/-! ## The own zero crossing of the grid link (R250) -/

/-- GLK_CFG.ZCLANE names an AC VOLTAGE lane whose resampler is LOCKED. -/
def zcLocked (s : State) : Bool :=
  s.glk.zcLane != 0x3F && (match laneRec s s.glk.zcLane with
    | some l => l.qty == 1 && isAc s l.outlet && (s.lane.rs.getD l.outlet Resampler.fresh).state == .locked
    | none => false)

/-- Without an own offset every neighbour's phase is UNKNOWN. -/
def forgetPhases : State → State :=
  onGlk fun b => { b with offsets := [], nbs := b.nbs.map fun n => { n with phase := .unknown, reports := [] } }

/-- A resampler may have left LOCKED: the own offset is invalid and every phase UNKNOWN (R250). -/
def zcCheck (s : State) : State := if zcLocked s then s else forgetPhases s

/-! ## A grid cycle -/

/-- RESAMPLER_CYCLE (R63) of an AC outlet; one that shares its reference lane keeps the owner's rate (R62). -/
def execResamplerCycle (outlet adj : Nat) (s : State) : Host.Outcome State Fault Refusal :=
  .next (match outletRec s outlet with
    | some rec =>
      if rec.kind = 1 then
        let old := s.lane.rs.getD outlet Resampler.fresh
        let k := (refFunction s.str.cur outlet).getD 0
        let home := (((laneRec s k).bind fun l => outletRec s l.outlet).map (·.nomMv)).getD rec.nomMv
        let show' := showCycle rec.nomMv home (gridLine s outlet k) old
        let own := gridOwner s.str.cur outlet == outlet
        let s := onLaneBlk (fun b => { b with rs := upd b.rs outlet fun r =>
          let r := rsCycle rec.nomMHz show' r
          if own then { r with adj := phaseAdj adj r } else { r with freq := old.freq } }) s
        let new := s.lane.rs.getD outlet Resampler.fresh
        if new.state = old.state then s
        else zcCheck (logEv .service 0x02 outlet 0x0208 [(1, outlet), (1, old.state.code), (1, new.state.code), (4, new.freq)] s)
      else s
    | none => s)

/-! ## Detectors (R65, R66) -/

/-- The RMS of a lane's resampled words over its window: a cycle of 256 on AC, 80 words on DC. -/
def windowRms (up dc : Bool) (ws : List GridWord) : Nat :=
  let ws := ws.take (if dc then 80 else 256)
  openSqrt up (ws.foldl (fun a w => a + w.val * w.val) (0 : Int)).toNat (max 1 ws.length)

/-- DETECTOR_UPDATE: what has fallen due goes to its registers in one cycle, with DETGEN. -/
def execDetectorUpdate (lane : Nat) (window ms : Bool) (s : State) : Host.Outcome State Fault Refusal :=
  let home := homeOutlet s lane
  let dc := home.any (isDc s)
  let rms := match home with
    | some o => windowRms (freeBit s) dc (gridLine s o (functionOf s lane))
    | none => 0
  .next (if laneIn s.str.cur lane then onLane lane (fun l =>
    let decayed := (openQuot (freeBit s) (l.envAcc * expNeg 1 (max 1 l.envDecay)) (2 ^ 60)).toNat
    let l := { l with detGen := (l.detGen + 1) % 2 ^ 16 }
    let l := if ms then { l with env := l.envAcc, envOver := l.overEnv, overEnv := false, envAcc := min l.envAcc decayed } else l
    if window then { l with peak := l.peakAcc, peakOver := l.overWin, peakAcc := 0, rms := min rms 0x7FFFFF,
                            rmsOver := l.overWin || (!dc && l.overPrev), overPrev := l.overWin, overWin := false }
    else l) (bump s)
    else s)

end Sys2Proof.Machine
end

