-- ==== Sys2Proof/Machine/Metstore.lean ====
section
/-! DEFINITION. The metrology store (R111–R118): LEGAL staging, legal counters, sealed record, snapshots (R102–R107), saves
with the tariff ledger (R113, R143), their layouts and their restoration, accumulators with their shadow copies (R100). -/

namespace Sys2Proof.Machine

/-! ## LEGAL staging (R121) -/

/-- A LEGAL event of this moment as the metrology core forms it. -/
def legalRecord (s : State) (block inst code : Nat) (data : List (Nat × Nat)) : Event :=
  { time := nowTs s, cls := .legal, block := block, inst := inst, flags := flagAt (!timeValid s) 0, code := code,
    data := pack data }

/-- The EV_STAGING_OVF record (R120) after one more event not staged: written anew, or rewritten from the one that stands. -/
def ovfEvent (s : State) (old : Option Event) : Event :=
  let (n, first) := match old with
    | some e => (satInc 32 (leAt 0 4 e.data), leAt 4 4 e.data)
    | none => (1, nowSec s)
  legalRecord s 0x04 0xFF 0x040C [(4, n), (4, first), (4, nowSec s)]

/-- The overflow record that is being kept: it stands last (R121). -/
def openOvf (l : List Staged) : Option Event := (l.getLast?.map (·.ev)).filter (·.code == 0x040C)

/-- A LEGAL event of the metrology core: staged; while 63 entries are unconfirmed it counts in the overflow record. -/
def legalEv (block inst code : Nat) (data : List (Nat × Nat)) (s : State) : State :=
  let l := s.met.staging
  let e := if l.length < 63 then legalRecord s block inst code data else ovfEvent s (openOvf l)
  let keep := if l.length < 63 ∨ (openOvf l).isNone then l else l.dropLast
  onMet (fun b => { b with staging := keep ++ [{ ev := e, ok := true }] }) s

/-- Puts a LEGAL record straight into the LEGAL ring in flash, overwriting the oldest of 65,536 (R371). -/
def archiveLegal (r : LogRec) (s : State) : State :=
  if s.mgt.legal.length < 65536 then onMgt (fun b => { b with legal := b.legal ++ [r] }) s
  else
    let oldest := match s.mgt.legal with
      | x :: _ => x.seq
      | [] => 0
    let lost := decide (s.mgt.ack < oldest)
    let s' := onMgt (fun b => { b with legal := b.legal.drop 1 ++ [r],
                                       legalLost := if lost then satInc 16 b.legalLost else b.legalLost, overOn := lost }) s
    if lost && !s.mgt.overOn then logEv .legal 0x14 0xFF 0x1408 [(4, oldest), (4, s.mgt.ack)] s' else s'

/-- More than 49,152 unacknowledged LEGAL records: NOTICE 2, once per onset (R371). -/
def checkWatermark (s : State) : State :=
  let n := s.mgt.legal.countP fun r => decide (s.mgt.ack < r.seq)
  let full := decide (49152 < n)
  let s' := onMgt (fun b => { b with watermark := full }) s
  if full && !s.mgt.watermark then notice 2 n s' else s'

/-- LEGAL_EVENT_CONFIRM (R121, R371): the oldest entries stand in the LEGAL ring, so their places are free. -/
def execLegalEventConfirm (n : Nat) (s : State) : Host.Outcome State Fault Refusal :=
  .next (if badgerUp s then
    let s' := (s.met.staging.take n).foldl (fun s e =>
      let q := s.mgt.seq + 1
      archiveLegal { seq := q, ev := e.ev } (onMgt (fun b => { b with seq := q }) s)) s
    checkWatermark (onMet (fun b => { b with staging := b.staging.drop n }) s')
    else s)

/-! ## Legal counters and the sealed record (R111, R112) -/

def counters (s : State) : LegalCounters := s.met.legal.get
/-- Changes the legal counters: written to the other copy. A store that has lost both stays lost (R118). -/
def onCounters (f : LegalCounters → LegalCounters) : State → State :=
  onMet fun b => { b with legal := if b.legal.lost then b.legal else b.legal.change f }
/-- A record's CRC-32C word: the one that matches, or one that does not. -/
def crcWord (ok : Bool) (b : Bytes) : Bytes := leBytes 4 (if ok then crc32c b else Nat.xor (crc32c b) 0xFFFFFFFF)
/-- Adds to a per-outlet counter of 32 bits. -/
def addAt (l : List Nat) (o k : Nat) : List Nat := upd l o (satAdd 32 · k)

/-- Bytes of the legal-counter record (R112). -/
def countersBytes (seq : Nat) (c : LegalCounters) : Bytes :=
  let l4 (l : List Nat) : Bytes := (List.range 4).flatMap fun o => leBytes 4 (at0 l o)
  let b := leBytes 4 0x4C434E54 ++ leBytes 4 seq ++ leBytes 4 c.generation ++ leBytes 4 c.outages ++ l4 c.est
    ++ l4 c.unmetered ++ l4 c.trial ++ l4 c.rollovers ++ leBytes 4 c.outageS ++ leBytes 4 c.saveFallbacks
    ++ leBytes 4 c.accRestores ++ leBytes 4 c.timeSteps ++ zeros 156
  b ++ leBytes 4 (crc32c b)

/-! ## Snapshots (R102–R107) -/

/-- An outlet is in trial while any lane homed at it has TRIAL (R58). -/
def outletTrial (s : State) (o : Nat) : Bool :=
  s.str.cur.lanes.any fun l => l.role == 1 && l.outlet == o && (laneOf s (carrier s l.lane)).trial

/-- A lane of the outlet is swapped. -/
def outletSwapped (s : State) (o : Nat) : Bool :=
  s.str.cur.lanes.any fun l => l.role == 1 && l.outlet == o && carrier s l.lane != l.lane

/-- An outlet block of a snapshot (R104). -/
def outletBlock (s : State) (o : Nat) : Bytes :=
  let m := metOutOf s o
  let c := counters s
  ((List.range 10).flatMap fun q => leBytes 8 (at0 m.acc q / 2 ^ 16)) ++ leBytes 4 (at0 c.est o)
    ++ leBytes 4 (at0 c.unmetered o) ++ leBytes 4 m.session
    ++ leBytes 1 o
    ++ leBytes 1 (flagAt m.nometer 0 + flagAt m.estSince 1 + flagAt m.harmInvalid 2 + flagAt (unbilled s o) 3 + flagAt (isDc s o) 4)
    ++ zeros 2

/-- Outlets of a mask in ascending order. -/
def maskList (m : Nat) : List Nat := (List.range 4).filter (bitAt m)

/-- A snapshot's bytes up to its check word (R103); `ts` is the boundary's timestamp. -/
def snapshotBody (s : State) (type outlets gen cause ts : Nat) (ext : Bytes) : Bytes :=
  let outs := maskList outlets
  let rec' := s.met.sealedRec.get
  let n := 64 + 96 * outs.length + ext.length + 68
  leBytes 4 0x534E5031 ++ leBytes 2 1 ++ leBytes 2 n ++ leBytes 4 gen ++ leBytes 1 type ++ leBytes 1 outlets
    ++ leBytes 2 ext.length ++ leBytes 8 s.ident.deviceId ++ leBytes 8 ts
    ++ leBytes 4 s.str.sealCnt ++ leBytes 4 s.str.cur.sealVer ++ leBytes 4 cause
    ++ leBytes 2 (flagAt (!timeSync s) 0 + flagAt (outs.any (outletSwapped s)) 1 + flagAt (outs.any (outletTrial s)) 2
         + flagAt s.met.storeFault 3) ++ zeros 2
    ++ fit 16 ((rec'.map (·.digest)).getD []) ++ outs.flatMap (outletBlock s) ++ ext

/-- A captured snapshot waits for its signature: at most 8 in the queue; a further one stands behind it (log 35). -/
def enqueue (x : Snapshot) (b : MetBlock) : MetBlock :=
  if b.snapQueue.length < 8 ∧ b.snapWait.isEmpty then { b with snapQueue := b.snapQueue ++ [x] }
  else { b with snapWait := b.snapWait ++ [x] }

/-- Captures a snapshot under a generation: values fixed, ESTIMATED marks of its outlets spent (R104, R106). -/
def captureAs (gen type outlets cause ts : Nat) (ext : Bytes) (slot : Option Nat) (s : State) : State :=
  let x : Snapshot := { type := type, outlets := outlets, gen := gen, body := snapshotBody s type outlets gen cause ts ext,
                        slot := slot }
  onMet (fun b => { enqueue x b with
    outs := b.outs.mapIdx fun o x => if bitAt outlets o then { x with estSince := false } else x }) s

/-- The generation `n` after the last one given: a counter of 32 bits (R106). -/
def genAfter (s : State) (n : Nat) : Nat := ((counters s).generation + n) % 2 ^ 32

/-- Gives the next `n` generations. -/
def takeGens (n : Nat) : State → State := onCounters fun c => { c with generation := (c.generation + n) % 2 ^ 32 }

/-- Captures a snapshot under the next generation. -/
def capture (type outlets cause ts : Nat) (ext : Bytes) (slot : Option Nat) (s : State) : State :=
  captureAs (genAfter s 1) type outlets cause ts ext slot (takeGens 1 s)

/-- The metering key: slot 0 (R105, R330). -/
def meterKey (s : State) : Option Bytes :=
  let k := s.key.slots.getD 0 KeySlot.fresh
  if k.loaded then some k.material else none

/-- Check word and signature of a captured body (R105). -/
def signBody (key body : Bytes) (draw : Nat) : Bytes :=
  let b := body ++ leBytes 4 (crc32c body)
  b ++ fit 64 (Config.sign key b draw)

/-- SNAPSHOT_SIGNED (R105–R107, R134 step 5): the oldest captured snapshot is signed, stored and shown. -/
def execSnapshotSigned (s : State) : Host.Outcome State Fault Refusal :=
  .next (match s.met.snapQueue, meterKey s with
    | sn :: rest, some key =>
      let bytes := signBody key sn.body s.freeCtr
      let s := bump s
      let s := onMet (fun b => { b with
        snapQueue := rest ++ b.snapWait.take 1, snapWait := b.snapWait.drop 1, snapWin := fit 4096 bytes, snapGen := sn.gen,
        snapRc := if sn.type = 1 then stsOk else b.snapRc,
        sessionRing := if sn.type = 2 ∨ sn.type = 3 then (b.sessionRing ++ [fit 256 bytes]).drop (b.sessionRing.length + 1 - 24)
                       else b.sessionRing }) s
      let s := onMgt (fun b => { b with snapArchive := bytes :: b.snapArchive }) s
      match sn.slot with
      | some k =>
        onBil (fun b => { b with
          ring := put b.ring k { state := .signed, bytes := bytes },
          ctl := b.ctl.change fun c => { c with snapNext := (k + 1) % 24, snapCount := min 24 (c.snapCount + 1) } }) s
      | none => s
    | _, _ => s)

/-- SNAPCTL_TAKE (R107): OUTLETS is written; TAKE requests, or merges with the request that waits. -/
def snapctlWrite (w : Nat) (s : State) : State :=
  onMet (fun b => { b with snapOutlets := field w 3 0, snapTake := b.snapTake || bitAt w 8 }) s

def execSnapctlTake (w : Word) (s : State) : Host.Outcome State Fault Refusal := .next (snapctlWrite w.toNat s)

/-- A REQUEST that waits is captured at this boundary: its outlets are declared and a place is free (R107). -/
def requestDue (s : State) : Bool :=
  s.met.snapTake && Nat.land s.met.snapOutlets (outletMask s) == s.met.snapOutlets && decide (s.met.snapQueue.length < 8)

/-- A pending REQUEST that names an absent outlet is dropped at the boundary (R107). -/
def dropRequest (s : State) : State :=
  if s.met.snapTake && Nat.land s.met.snapOutlets (outletMask s) != s.met.snapOutlets then
    onMet (fun b => { b with snapTake := false, snapRc := stsAbsent }) s
  else s

/-! ## Saves (R113–R116, R143) -/

/-- Bytes of the running demand state (R133): 64. -/
def demandBytes (d : Demand) : Bytes :=
  leBytes 8 d.start ++ leBytes 1 (flagAt d.irregular 0 + flagAt d.outage 1 + flagAt d.notFull 2) ++ leBytes 1 d.subIndex
    ++ leBytes 1 d.subsClosed ++ zeros 5 ++ (List.range 12).flatMap fun i => leBytes 4 (at0 d.subE i)

/-- The tariff ledger as it stands (R143). -/
def ledgerNow (s : State) (seq : Nat) : Ledger :=
  { saveSeq := seq, tokenSeq := s.bil.tokenNext - 1, tariffs := s.bil.outs.map (·.tariff), credit := s.bil.credit,
    timp := s.bil.outs.map (·.timp), texp := s.bil.outs.map (·.texp), md := s.bil.outs.map (·.md) }

/-- SAVE_SEQ of the next save: above every number in the slots. -/
def nextSaveSeq (s : State) : Nat :=
  s.met.slots.foldl (fun m r => match r with
    | some x => max m x.seq
    | none => m) 0 + 1

/-- The slot that does not hold the newest valid save. -/
def freeSlot (s : State) : Nat :=
  match newestSave s, s.met.slots.getD 0 none with
  | some n, some x => if x.ok && x.seq == n.seq then 1 else 0
  | _, _ => 0

/-- The save record of this moment (R113). -/
def saveNow (kind : Nat) (s : State) : SaveRec :=
  let seq := nextSaveSeq s
  { seq := seq, time := nowTs s, kind := kind, outlets := outletMask s,
    kinds := (List.range 4).map fun o => match outletRec s o with
      | some r => r.kind
      | none => 0,
    digest := ((s.met.sealedRec.get).map (·.digest)).getD [], cycles := s.lane.rs.map (·.cycles),
    accs := s.met.outs.map (·.acc), harms := s.met.outs.map (·.harm), demands := s.bil.outs.map (·.demand),
    counters := counters s, countersSeq := s.met.legal.cur.seq, pulses := s.met.pulses.map fun p => (p.rem, p.backlog), ledger := ledgerNow s seq, ok := true }

/-- Captures a periodic save and begins its write (R114). -/
def beginSave (kind : Nat) (s : State) : State :=
  let slot := freeSlot s
  let r := saveNow kind s
  onMet (fun b => { b with saving := some (slot, r), saveTick := s.ticks,
                           slots := put b.slots slot (some { r with ok := false }) }) s

/-- Writes a whole save at once: hold-up, pre-activation, DORMANT entry (R115, R116, R43). A save in progress is
abandoned first, so its slot fails its check. -/
def saveAtOnce (kind : Nat) (s : State) : State :=
  let slot := freeSlot s
  let r := saveNow kind s
  onMet (fun b => { b with saving := none, saveTick := s.ticks, slots := put b.slots slot (some r) }) s

/-- SAVE_COMPLETE (R114): the check word is written, so the save is valid. -/
def execSaveComplete (s : State) : Host.Outcome State Fault Refusal :=
  .next (match s.met.saving with
    | some (slot, r) => onMet (fun b => { b with saving := none, slots := put b.slots slot (some r) }) s
    | none => s)

/-! ## Layouts (R111, R113, R143) -/

/-- The 4,096 bytes of a save record (R113). -/
def saveBytes (r : SaveRec) : Bytes :=
  let out (f : Nat → Bytes) : Bytes := (List.range 4).flatMap f
  let b := leBytes 4 0x53415645 ++ leBytes 4 r.seq ++ leBytes 8 r.time ++ leBytes 1 r.kind ++ leBytes 1 r.outlets ++ zeros 2
    ++ fit 16 r.digest ++ out (fun o => leBytes 4 (at0 r.cycles o)) ++ zeros 12
    ++ out (fun o => ((List.range 10).flatMap fun q => leBytes 10 (at0 (r.accs.getD o []) q)) ++ zeros 12)
    ++ out (fun o => ((List.range 63).flatMap fun h => leBytes 10 (unsignedOf 80 ((r.harms.getD o []).getD h 0))) ++ zeros 2)
    ++ out (fun o => demandBytes (r.demands.getD o Demand.fresh)) ++ countersBytes r.countersSeq r.counters
    ++ out (fun p => let (rem, n) := r.pulses.getD p (0, 0); leBytes 10 rem ++ leBytes 1 n ++ zeros 5) ++ zeros 476
  b ++ crcWord r.ok b

/-- The 960 bytes of a tariff ledger slot (R143). -/
def ledgerBytes (ok : Bool) (l : Ledger) : Bytes :=
  let out (f : Nat → Bytes) : Bytes := (List.range 4).flatMap f
  let regs (x : List Nat) : Bytes := (List.range 8).flatMap fun t => leBytes 8 (at0 x t)
  let b := leBytes 4 0x4C444752 ++ leBytes 4 l.saveSeq ++ leBytes 4 l.tokenSeq ++ out (fun o => leBytes 1 (at0 l.tariffs o))
    ++ leBytes 8 (unsignedOf 64 l.credit) ++ zeros 8 ++ out (fun o => regs (l.timp.getD o []) ++ regs (l.texp.getD o []))
    ++ out (fun o => (List.range 8).flatMap fun t => let (v, ts) := (l.md.getD o []).getD t (0, 0); leBytes 4 v ++ leBytes 8 ts)
    ++ zeros 28
  b ++ crcWord ok b

/-- The 64 bytes of a sealed record (R111). -/
def sealedBytes (x : Stored (Option SealedRec)) : Bytes :=
  match x.val with
  | some r =>
    let b := leBytes 4 0x5345414C ++ leBytes 4 x.seq ++ leBytes 4 r.count ++ fit 48 r.digest
    b ++ crcWord x.ok b
  | none => zeros 64

/-- The 64 bytes of a substitution record (R111). -/
def substBytes (r : SubstRec) : Bytes :=
  let b := leBytes 1 r.lane ++ leBytes 1 r.spare ++ zeros 2 ++ fit 48 r.digest ++ zeros 8
  b ++ crcWord r.ok b

/-! ## Accumulators and their shadow copies (R93, R100) -/

/-- The display modulus: 10,000,000 kWh, at which 7 integer digits roll over (log 16). -/
def displayMod : Nat := 10 ^ 13

/-- The complement in 80 bits. -/
def invert (x : Nat) : Nat := 2 ^ 80 - 1 - x % 2 ^ 80

/-- Writes an outlet's accumulators with their inverted shadow copies. -/
def setAcc (acc : List Nat) (harm : List Int) (m : MetOutlet) : MetOutlet :=
  { m with acc := acc, harm := harm, accInv := acc.map invert, harmInv := harm.map fun x => invert (unsignedOf 80 x) }

/-- The two copies of one accumulator as a fault leaves them: the value kept, none for a restore (R100). -/
def resolveAcc (f : AccFault) (a inv : Nat) : Option Nat :=
  let x := Nat.xor a (f.flipA % 2 ^ 80)
  let y := invert (Nat.xor inv (f.flipB % 2 ^ 80))
  if f.eccA != f.eccB then some (if f.eccA then y else x)
  else if !f.eccA && x == y then some x
  else none

/-- What a fault leaves of the accumulator it names, after R100. -/
def resolveAt (m : MetOutlet) (f : AccFault) : Option Nat :=
  if f.q < 10 then resolveAcc f (at0 m.acc f.q) (at0 m.accInv f.q)
  else resolveAcc f (unsignedOf 80 (m.harm.getD (f.q - 10) 0)) (at0 m.harmInv (f.q - 10))

/-- Keeps the clean copy of the accumulator a fault names. -/
def keepAcc (f : AccFault) (m : MetOutlet) : MetOutlet :=
  match resolveAt m f with
  | some v => if f.q < 10 then setAcc (put m.acc f.q v) m.harm m else setAcc m.acc (put m.harm (f.q - 10) (signedOf 80 v)) m
  | none => m

/-! ## Restoration (R83, R100, R117) -/

/-- An outlet's accumulators from a save, and with them its tariff registers, so that their sum stays the public register
(R123, log 36). -/
def restoreAcc (r : SaveRec) (o : Nat) (s : State) : State :=
  onMetOut o (fun m => { setAcc (r.accs.getD o (List.replicate 10 0)) (r.harms.getD o (List.replicate 63 0)) m with estSince := true })
    (onBilOut o (fun x => { x with timp := r.ledger.timp.getD o (List.replicate 8 0),
                                   texp := r.ledger.texp.getD o (List.replicate 8 0) }) s)

/-- Intervals since a save, by the outlet's cycle count. -/
def intervalsLost (s : State) (r : SaveRec) (o : Nat) : Nat :=
  ((s.lane.rs.getD o Resampler.fresh).cycles + 2 ^ 32 - at0 r.cycles o) % 2 ^ 32

/-- R100: every accumulator of an outlet from the newest valid save, EV_ACC_RESTORE, the next snapshot ESTIMATED. -/
def accRestore (o : Nat) (s : State) : State :=
  match newestSave s with
  | some r =>
    let lost := intervalsLost s r o
    let s := onCounters (fun c => { c with accRestores := satInc 32 c.accRestores }) (restoreAcc r o s)
    legalEv 0x04 o 0x0403 [(1, o), (4, r.seq), (4, lost)] s
  | none =>
    let s := onMetOut o (fun m => { setAcc (List.replicate 10 0) (List.replicate 63 0) m with estSince := true }) s
    let s := onBilOut o (fun x => { x with timp := List.replicate 8 0, texp := List.replicate 8 0 }) s
    let s := onCounters (fun c => { c with accRestores := satInc 32 c.accRestores }) s
    legalEv 0x04 o 0x0403 [(1, o), (4, 0), (4, (s.lane.rs.getD o Resampler.fresh).cycles)] s

/-- The accumulators that faults struck are resolved as they are updated (R100). -/
def accCheck (o : Nat) (fs : List AccFault) (s : State) : State :=
  if fs.all fun f => (resolveAt (metOutOf s o) f).isSome then onMetOut o (fun m => fs.foldl (fun m f => keepAcc f m) m) s
  else accRestore o s

/-- The effect of a token on the credit (R145). -/
def tokenCredit (e : TokenEntry) (credit : Int) : Int := if e.cls = 0 then credit + (e.amount * 100000 : Nat) else 0

/-- The ledger and the token journal of a save into the billing state (R143, R149). -/
def restoreLedger (l : Ledger) (s : State) : State :=
  onBil (fun b => { b with
    credit := (b.tokens.filter (fun e => e.ok && decide (l.tokenSeq < e.seq))).foldl (fun c e => tokenCredit e c) l.credit,
    outs := b.outs.mapIdx fun o x => { x with
      timp := l.timp.getD o x.timp, texp := l.texp.getD o x.texp, md := l.md.getD o x.md, tariff := at0 l.tariffs o } }) s

/-- The running demand state of an outlet from a save. -/
def restoreDemand (r : SaveRec) (o : Nat) (s : State) : State :=
  onBilOut o (fun x => { x with demand := r.demands.getD o Demand.fresh }) s

/-! ## Reads (R94, R119) -/

/-- A read of a LO register of the MET block: its HI word is latched for the view until that HI or another LO is read there. -/
def loRead (view : Side) (reg : MetLo) (v : Nat) (s : State) : State :=
  returns (v % 2 ^ 32) (onMet (fun b => { b with latch := latch view (reg, v / 2 ^ 32) b.latch }) s)

/-- An energy register with its wrap count (R94); 0 for an absent outlet. -/
def energyValue (s : State) (outlet q : Nat) : Nat :=
  if declared s outlet then at0 (metOutOf s outlet).acc q / 2 ^ 16 % 2 ^ 64 else 0

/-- ENERGY_LO_READ (R94): latches the HI word of the same register in the reading view. -/
def execEnergyLoRead (view : Side) (outlet q : Nat) (s : State) : Host.Outcome State Fault Refusal :=
  .next (loRead view (.energy outlet q) (energyValue s outlet q) s)

/-- The selected harmonic register as 64 bits (R94, R119). -/
def harmValue (s : State) : Nat :=
  if isAc s s.met.harmOutlet then
    unsignedOf 64 ((metOutOf s s.met.harmOutlet).harm.getD (s.met.harmOrder - 1) 0 / 2 ^ 16)
  else 0

/-- HARM_LO_READ (R94). -/
def execHarmLoRead (view : Side) (s : State) : Host.Outcome State Fault Refusal :=
  .next (loRead view .harm (harmValue s) s)

/-- A calibration accumulator as 64 bits (R119); 0 for an absent outlet. -/
def calValue (s : State) (outlet : Nat) (reactive : Bool) : Nat :=
  if declared s outlet then unsignedOf 64 (if reactive then (metOutOf s outlet).calQ else (metOutOf s outlet).calP) else 0

/-- CAL_ACC_LO_READ (R119). -/
def execCalAccLoRead (view : Side) (outlet : Nat) (reactive : Bool) (s : State) : Host.Outcome State Fault Refusal :=
  .next (loRead view (.cal outlet reactive) (calValue s outlet reactive) s)

end Sys2Proof.Machine
end

