-- ==== Sys2Proof/Machine/Billing.lean ====
section
/-! DEFINITION. Billing (R122–R153): tariff registers, demand, billing boundaries, clock steps, the load profile,
prepayment tokens, and the commands of the BIL block. -/

namespace Sys2Proof.Machine

/-! ## The control record and the calendar in force (R129) -/

def billCtl (s : State) : BillCtl := s.bil.ctl.get
/-- Changes the control record: written to the other copy. -/
def onCtl (f : BillCtl → BillCtl) : State → State := onBil fun b => { b with ctl := b.ctl.change f }

/-- A calendar slot's content; a slot whose CRC-32C fails holds none. -/
def calSlot (s : State) (k : Option Nat) : Option Calendar :=
  (k.bind fun k => s.bil.cals.getD k none).bind fun x => if x.ok then some x.cal else none

def activeCal (s : State) : Option Calendar := calSlot s (billCtl s).activeSlot
def passiveCal (s : State) : Option Calendar := calSlot s (billCtl s).passiveSlot
/-- PREPAY_MASK of the active calendar. -/
def prepayMask (s : State) : Nat := ((activeCal s).map (·.prepay)).getD 0

/-- Seconds of a timestamp (R15). -/
def secOfTs (ts : Nat) : Nat := ts / 2 ^ 30
/-- The timestamp of a whole second. -/
def tsOfSec (sec : Nat) : Nat := sec * 2 ^ 30

/-! ## Credit (R144) -/

/-- Takes a credit; EV_CREDIT_EXHAUSTED at the onset of 0 or less. -/
def setCredit (c : Int) (s : State) : State :=
  let ex := decide (c ≤ 0)
  let onset := ex && !s.bil.exhausted
  let s := onBil (fun b => { b with credit := c, exhausted := ex }) s
  if onset then legalEv 0x06 0xFF 0x060A [(4, nowSec s - s.bil.lastTokenS), (1, prepayMask s)] s else s

/-! ## Accrual of an interval (R123, R131, R144) -/

/-- Integer increments of CIMP and CEXP into the tariff in force, the running demand and the credit. -/
def accrueTariff (o imp exp : Nat) (s : State) : State :=
  let t := (bilOutOf s o).tariff - 1
  let s := onBilOut o (fun x => { x with
    timp := upd x.timp t fun v => (v + imp) % 2 ^ 64, texp := upd x.texp t fun v => (v + exp) % 2 ^ 64,
    demand := if (activeCal s).isSome then { x.demand with subE := upd x.demand.subE x.demand.subIndex (· + imp) }
              else x.demand }) s
  setCredit (if bitAt (prepayMask s) o then s.bil.credit - imp else s.bil.credit) s

/-! ## Demand (R131–R133) -/

/-- Demand state that starts at a timestamp: an interval, or a sliding window not yet full. -/
def startDemand (ts : Nat) (irr out : Bool) : Demand :=
  { start := ts, irregular := irr, outage := out, notFull := true, subIndex := 0, subsClosed := 0,
    subE := List.replicate 12 0, subIrr := List.replicate 12 false, subOut := List.replicate 12 false }

/-- Starts an outlet's demand anew at a timestamp. -/
def restartDemand (o ts : Nat) (irr out : Bool) : State → State :=
  onBilOut o fun x => { x with demand := startDemand ts irr out, seen := ts }

/-- A demand value with its flags: the last value, and the maximum of the tariff in force when strictly greater. -/
def recordDemand (v ts : Nat) (irr out : Bool) (x : BilOutlet) : BilOutlet :=
  { x with dlast := v, dlastIrr := irr, dlastOut := out,
           md := upd x.md (x.tariff - 1) fun m => if m.1 < v then (v, ts) else m }

/-- Closes the interval (block) or sub-interval (sliding) of an outlet at `ts`, and begins the next. -/
def closeWith (c : Calendar) (ts back : Nat) (irr : Bool) (x : BilOutlet) : BilOutlet :=
  let d := x.demand
  let irr := irr || d.irregular || decide (ts ≤ back)
  if c.method = 1 then
    { recordDemand (at0 d.subE 0 * (60 / c.period)) ts irr d.outage x with demand := startDemand ts false false, seen := ts }
  else
    let n := c.period / c.sub
    let subIrr := put d.subIrr d.subIndex irr
    let subOut := put d.subOut d.subIndex d.outage
    let closed := min 12 (d.subsClosed + 1)
    let full := decide (n ≤ closed)
    let next := (d.subIndex + 1) % n
    let x' := if full then
        recordDemand ((List.range n).foldl (fun a k => a + at0 d.subE k) 0 * (60 / c.period)) ts
          ((List.range n).any (flag subIrr)) ((List.range n).any (flag subOut)) x
      else x
    { x' with seen := ts,
              demand := { d with irregular := false, outage := false, notFull := !full, subIndex := next,
                                 subsClosed := closed, subE := put d.subE next 0, subIrr := put subIrr next false,
                                 subOut := put subOut next false } }

/-- Closes an outlet's demand at a timestamp; without a calendar there is none. -/
def closeDemand (o ts : Nat) (irr : Bool) (s : State) : State :=
  match activeCal s with
  | some c => onBilOut o (closeWith c ts s.bil.backFrom irr) s
  | none => s

/-- The next scheduled end of an outlet's interval or sub-interval, as a timestamp. -/
def demandEnd (s : State) (o : Nat) : Option Nat :=
  (activeCal s).map fun c => tsOfSec (nextAligned c (if c.method = 1 then c.period else c.sub) (secOfTs (bilOutOf s o).seen))

/-- Closes an outlet's intervals or sub-intervals whose ends lie at or before `ts`, at most `n`, in time order. -/
def closeEnds (ts o : Nat) : Nat → State → State
  | 0, s => s
  | n + 1, s => match demandEnd s o with
    | some e => if e ≤ ts then closeEnds ts o n (closeDemand o e false s) else s
    | none => s

/-- Closes every interval or sub-interval of an outlet that ends at or before `ts` (R137): at most one in a minute. -/
def closeDue (ts o : Nat) (s : State) : State :=
  closeEnds ts o ((secOfTs ts - secOfTs (bilOutOf s o).seen) / 60 + 1) s

/-! ## Billing boundaries (R134–R136) -/

/-- The extension of a BILLING snapshot (R135). -/
def billingExt (s : State) : Bytes :=
  let c := billCtl s
  leBytes 4 c.period ++ leBytes 4 c.activeSeq ++ leBytes 8 c.lastBill ++ (outletList s).flatMap fun o =>
    let x := bilOutOf s o
    x.timp.flatMap (leBytes 8) ++ x.texp.flatMap (leBytes 8) ++ x.md.flatMap fun m => leBytes 4 m.1 ++ leBytes 8 m.2

/-- The ring slot of the next BILLING snapshot: SNAP_NEXT, past those still waiting for their signature. -/
def nextSnapSlot (s : State) : Nat :=
  ((billCtl s).snapNext + (s.met.snapQueue ++ s.met.snapWait).countP (·.slot.isSome)) % 24

/-- A billing boundary (R134) with its timestamp and cause (R153). -/
def billingBoundary (ts cause : Nat) (s : State) : State :=
  let p := (billCtl s).period
  let k := nextSnapSlot s
  let s := capture 4 (outletMask s) p ts (billingExt s) (some k) s
  let gen := (counters s).generation
  let body := (((s.met.snapQueue ++ s.met.snapWait).getLast?).map (·.body)).getD []
  let s := onBil (fun b => { b with
    ring := put b.ring k { state := .captured, bytes := body ++ leBytes 4 (crc32c body) ++ zeros 64 },
    outs := b.outs.map fun x => { x with md := List.replicate 8 (0, 0) },
    ctl := b.ctl.change fun c => { c with period := p + 1, lastBill := ts, lastBoundary := ts } }) s
  legalEv 0x06 0xFF 0x0604 [(4, p), (4, gen), (1, cause)] s

/-- What a newly declared outlet starts with at `ts` (R117 step 3, R124, R131): registers at zero, the tariff that the
active calendar selects, and a demand interval or window that starts then. -/
def startedOutlet (s : State) (ts : Nat) : BilOutlet :=
  let t := match activeCal s with
    | some c => if timeValid s then (selectAt c (secOfTs ts)).1 else 1
    | none => 1
  { BilOutlet.fresh with tariff := t, demand := startDemand ts false false, seen := ts }

/-! ## Activation and tariff switch (R124, R130) -/

/-- The passive calendar becomes active at `ts` (R130): the intervals in progress take DEFAULT_TARIFF, demand starts anew. -/
def activateCalendar (ts : Nat) (s : State) : State :=
  match passiveCal s with
  | some c =>
    let old := (billCtl s).activeSeq
    let s := onCtl (fun k => { k with activeSlot := k.passiveSlot, passiveSlot := none, activeSeq := c.seq, passiveSeq := 0,
                                      passiveAct := 0, lastBoundary := ts }) s
    let s := onBil (fun b => { b with outs := b.outs.map fun x =>
      { x with tariff := c.defaultTariff, demand := startDemand ts false false, seen := ts } }) s
    legalEv 0x06 0xFF 0x0603 [(4, old), (4, c.seq), (4, secOfTs ts)] s
  | none => s

/-- The timestamp of the passive calendar's activation where it falls due at `ts` (R130, R140). -/
def activationDue (ts : Nat) (s : State) : Option Nat :=
  let k := billCtl s
  if k.passiveSlot.isSome ∧ k.passiveAct ≤ ts ∧ k.lastBoundary < ts then some (if k.passiveAct = 0 then ts else k.passiveAct)
  else none

/-- The tariff of an outlet follows the calendar at `ts` (R124). -/
def switchTariff (ts o : Nat) (s : State) : State :=
  match activeCal s with
  | some c =>
    let (t, p, k, sp) := selectAt c (secOfTs ts)
    onBilOut o (fun x => { x with tariff := t })
      (onBil (fun b => { b with dayProf := p, season := k, special := sp, dst := dstAt c (secOfTs ts) }) s)
  | none => onBilOut o (fun x => { x with tariff := 1 }) s

/-! ## Clock steps (R140) -/

/-- Scheduled billing boundaries that a forward step crosses. -/
def stepCrosses (st : TimeStep) (s : State) : List Nat :=
  match activeCal s with
  | some c => if st.new < st.old then [] else billingIn c (secOfTs (max (billCtl s).lastBoundary st.old)) (secOfTs st.new)
  | none => []

/-- A step counts and is logged with the rows of R140 it meets, bit r for row r (log 36); a backward one marks the times it
repeats. -/
def noteStep (st : TimeStep) (s : State) : State :=
  let back := decide (st.new < st.old)
  let row := if back then 3 else if (stepCrosses st s).isEmpty then 4 else 5
  let s := onCounters (fun c => { c with timeSteps := satInc 32 c.timeSteps }) s
  let s := onBil (fun b => { b with
    step := none, backFrom := if back then st.old else b.backFrom, lastSeen := st.new,
    outs := b.outs.map fun x => { x with profFlags := Nat.lor x.profFlags 4 } }) s
  legalEv 0x06 0xFF 0x0607
    [(4, secOfTs st.old), (4, secOfTs st.new), (1, 2 ^ row + flagAt st.atValid 2)] s

/-- Applies a step of NOW at the first interval boundary after it. -/
def applyStep (st : TimeStep) (s : State) : State :=
  let crossed := stepCrosses st s
  let s := noteStep st s
  let s := (outletList s).foldl (fun s o => restartDemand o st.new true false (closeDemand o st.new true s)) s
  let act := activationDue st.new s
  let s := if crossed.isEmpty then s else billingBoundary st.new 2 s
  let s := match act with
    | some ts => restartAll ts (activateCalendar ts s)
    | none => s
  (outletList s).foldl (fun s o => switchTariff st.new o s) s
where
  /-- After an activation crossed by a step the windows stay IRREGULAR. -/
  restartAll (_ts : Nat) (s : State) : State :=
    (outletList s).foldl (fun s o => restartDemand o st.new true false s) s

/-! ## Boundary events of an interval boundary (R137) -/

/-- Step 5 of R101 for outlet `o` at timestamp `ts`: demand, billing, activation, tariff; nothing while time is not valid. -/
def boundaryEvents (o ts : Nat) (s : State) : State :=
  if timeValid s then
    let s := match s.bil.step with
      | some st => applyStep st s
      | none => s
    let due := match activeCal s with
      | some c => billingIn c (secOfTs (max (billCtl s).lastBoundary s.bil.lastSeen)) (secOfTs ts)
      | none => []
    let reset := s.bil.resetDue && decide ((billCtl s).lastBoundary < ts)
    let act := activationDue ts s
    let s := if due.isEmpty && !reset && act.isNone then closeDue ts o s
             else (outletList s).foldl (fun s o => closeDue ts o s) s
    let s := due.foldl (fun s u => billingBoundary (tsOfSec u) 1 s) s
    let s := if reset then onBil (fun b => { b with resetDue := false }) (billingBoundary ts 3 s) else s
    let s := match act with
      | some t => activateCalendar t s
      | none => s
    onBil (fun b => { b with lastSeen := ts }) (switchTariff ts o s)
  else s

/-! ## The boundary journal and the restart (R138, R139) -/

/-- The timestamp of the switch point in force at `ts`. -/
def switchTime (c : Calendar) (ts : Nat) : Nat :=
  let l := localAt c (secOfTs ts) % 86400
  let points := (c.profiles.getD (selectAt c (secOfTs ts)).2.1 []).filter fun x => decide (x.1 ≤ l / 60)
  tsOfSec (secOfTs ts - (l - ((points.getLast?.map (·.1)).getD 0) * 60))

/-- A journal entry still to be completed. -/
def pendingEntry (seq kind outlets time arg : Nat) (irr out : Bool) : JournalEntry :=
  { pending := true, kind := kind, outlets := outlets, irregular := irr, outage := out, time := time, arg := arg,
    saveSeq := seq, ok := true }

/-- The activation due at `ts` as an entry, and the tariff switches to the calendar then active (R137 steps 3 and 4): after
an activation every outlet has DEFAULT_TARIFF first. -/
def switchEntries (ts seq : Nat) (s : State) : List JournalEntry :=
  let act := activationDue ts s
  let cal := if act.isSome then passiveCal s else activeCal s
  (match act with
    | some t => [pendingEntry seq 3 (outletMask s) t (billCtl s).passiveSeq false false]
    | none => [])
  ++ (match cal with
    | some c =>
      let t := (selectAt c (secOfTs ts)).1
      (outletList s).filterMap fun o =>
        if t = (if act.isSome then c.defaultTariff else (bilOutOf s o).tariff) then none
        else some (pendingEntry seq 4 (2 ^ o) (switchTime c ts) t false false)
    | none => [])

/-- The demand close of outlet `o` at `e` as an entry, with the flags of the interval that it ends. -/
def closeEntry (seq e : Nat) (irr : Bool) (s : State) (o : Nat) : JournalEntry :=
  let d := (bilOutOf s o).demand
  pendingEntry seq 1 (2 ^ o) e 0 (irr || d.irregular || decide (e ≤ s.bil.backFrom)) d.outage

/-- The events of R137 due at `ts` and not yet complete, as journal entries after the save `seq`; a BILL_RESET that waits is
a billing boundary of this instant. -/
def dueEntries (ts seq : Nat) (s : State) : List JournalEntry :=
  let k := billCtl s
  let ends := (outletList s).filterMap fun o => match demandEnd s o with
    | some e => if e ≤ ts then some (closeEntry seq e false s o) else none
    | none => none
  let bills := match activeCal s with
    | some c => (billingIn c (secOfTs (max k.lastBoundary s.bil.lastSeen)) (secOfTs ts)).map tsOfSec
    | none => []
  let bills := bills ++ (if s.bil.resetDue && decide (k.lastBoundary < ts) then [ts] else [])
  ends ++ bills.mapIdx (fun i t => pendingEntry seq 2 (outletMask s) t (k.period + i) false false) ++ switchEntries ts seq s

/-- The events of a step that waits (R140), as journal entries: each stamped with the time stepped to. -/
def stepEntries (st : TimeStep) (seq : Nat) (s : State) : List JournalEntry :=
  (if (activeCal s).isSome then (outletList s).map (closeEntry seq st.new true s) else [])
    ++ (if (stepCrosses st s).isEmpty then [] else [pendingEntry seq 2 (outletMask s) st.new (billCtl s).period false false])
    ++ switchEntries st.new seq s

/-- Writes the due events into the journal at a power-fail warning (R138 row 1); EV_BOUNDARY_PENDING. A step that waits is
applied by its entries; a BILL_RESET that the journal holds waits no longer. -/
def journalPending (ts seq : Nat) (s : State) : State :=
  let es := if timeValid s then (match s.bil.step with
    | some st => stepEntries st seq s
    | none => dueEntries ts seq s) else []
  let s := match s.bil.step with
    | some st => if timeValid s then noteStep st s else s
    | none => s
  match es with
  | [] => s
  | e :: _ =>
    let s := onBil (fun b => { b with
      resetDue := b.resetDue && es.all (·.kind != 2),
      journal := (b.journal ++ es).drop (b.journal.length + es.length - 32) }) s
    legalEv 0x06 0xFF 0x0605 [(1, es.foldl (fun m x => Nat.lor m (2 ^ x.kind)) 0), (4, secOfTs e.time)] s

/-- Completes a journalled demand close of an outlet with the entry's own flags; one that a step caused leaves the interval
after it IRREGULAR. -/
def completeClose (e : JournalEntry) (s : State) (o : Nat) : State :=
  let stepped := e.irregular && demandEnd s o != some e.time
  let s := onBilOut o (fun x => { x with demand := { x.demand with irregular := e.irregular, outage := e.outage } }) s
  let s := closeDemand o e.time e.irregular s
  onBilOut o (fun x => { x with seen := e.time, demand := { x.demand with irregular := x.demand.irregular || stepped } }) s

/-- Completes one journal entry with its own timestamp (R138 row 3). -/
def completeEntry (restart : Nat) (e : JournalEntry) (s : State) : State :=
  let outs := maskList e.outlets
  let s := (match e.kind with
    | 1 => outs.foldl (completeClose e) s
    | 2 => billingBoundary e.time 4 s
    | 3 => activateCalendar e.time s
    | _ => outs.foldl (fun s o => onBilOut o (fun x => { x with tariff := e.arg }) s) s)
  legalEv 0x06 0xFF 0x0606 [(1, e.kind), (4, secOfTs e.time), (4, restart)] s

/-- CAPTURED ring slots as snapshots that wait for their signature, oldest first (R138). -/
def capturedWaiting (s : State) : List Snapshot :=
  let next := (billCtl s).snapNext
  (List.range 24).filterMap fun i =>
    let k := (next + i) % 24
    match s.bil.ring[k]? with
    | some r => match r.state with
      | .captured => some { type := 4, outlets := byteAt 0x0D r.bytes, gen := leAt 8 4 r.bytes,
                            body := r.bytes.take (r.bytes.length - 68), slot := some k }
      | .signed => none
      | .empty => none
    | none => none

/-- An entry whose CRC-32C fails counts as DONE: EV_STORE_INTEGRITY with the journal's offset (R139). -/
def badEntries (s : State) : State :=
  (s.bil.journal.filter fun e => e.pending && !e.ok).foldl (fun s _ => legalEv 0x06 0xFF 0x0408 [(4, 0x400), (1, 0)] s) s

/-- At restart the PENDING entries are completed in order and CAPTURED ring slots wait for their signature. -/
def completeJournal (restart : Nat) (s : State) : State :=
  let w := capturedWaiting s
  let s := badEntries (onMet (fun b => { b with snapQueue := w.take 8, snapWait := w.drop 8 }) s)
  let s := (s.bil.journal.filter fun e => e.pending && e.ok).foldl (fun s e => completeEntry restart e s) s
  onBil (fun b => { b with journal := b.journal.map fun e => { e with pending := false } }) s

/-- Closes an interval that was in progress at the cut, at its scheduled end, under the tariff of that time (R138 row 4). -/
def closeGap (ts o : Nat) (s : State) : State :=
  match activeCal s, demandEnd s o with
  | some c, some e =>
    if (bilOutOf s o).demand.outage ∧ e ≤ ts then
      closeDemand o e false (onBilOut o (fun x => { x with tariff := (selectAt c (secOfTs e - 1)).1 }) s)
    else s
  | _, _ => s

/-- The next billing boundary or activation missed in the gap: its timestamp, and whether it is the activation. -/
def nextMissed (from' till : Nat) (s : State) : Option (Nat × Bool) :=
  let k := billCtl s
  let bill := match activeCal s with
    | some c => ((billingIn c (secOfTs (max k.lastBoundary from')) (secOfTs till)).head?).map tsOfSec
    | none => none
  let act := if k.passiveSlot.isSome ∧ k.passiveAct ≠ 0 ∧ k.passiveAct ≤ till ∧ k.lastBoundary < k.passiveAct then some k.passiveAct
             else none
  match bill, act with
  | some b, some a => if b ≤ a then some (b, false) else some (a, true)
  | some b, none => some (b, false)
  | none, some a => some (a, true)
  | none, none => none

/-- Executes the missed boundaries in time order, each with its own timestamp (R138 row 4). -/
def executeMissed (restart : Nat) : Nat → Nat → Nat → State → State
  | 0, _, _, s => s
  | n + 1, from', till, s => match nextMissed from' till s with
    | some (t, isAct) =>
      let s := (outletList s).foldl (fun s o => closeGap t o s) s
      let s := if isAct then activateCalendar t s else billingBoundary t 4 s
      let s := legalEv 0x06 0xFF 0x0606 [(1, if isAct then 3 else 2), (4, secOfTs t), (4, restart)] s
      executeMissed restart n (max from' t) till s
    | none => s

/-- Billing at a restart at `ts`, the save having been captured at `saved` (R138). -/
def billRestart (saved ts : Nat) (s : State) : State :=
  let s := onBil (fun b => { b with lastSeen := ts, exhausted := decide (b.credit ≤ 0), outs := b.outs.map fun x =>
    { x with seen := saved } }) s
  let s := completeJournal (secOfTs ts) s
  let block := (activeCal s).any (·.method == 1)
  if timeValid s then
    let s := onBil (fun b => { b with outs := b.outs.map fun x => { x with demand := { x.demand with outage := true } } }) s
    let s := executeMissed (secOfTs ts) ((secOfTs ts - secOfTs saved) / (28 * 86400) + 4) saved ts s
    let s := (outletList s).foldl (fun s o => closeGap ts o s) s
    let s := (outletList s).foldl (fun s o =>
      if block && (bilOutOf s o).demand.outage then onBilOut o (fun x => { x with seen := ts }) s
      else restartDemand o ts false true s) s
    (outletList s).foldl (fun s o => switchTariff ts o s) s
  else
    (outletList s).foldl (fun s o =>
      if block then onBilOut o (fun x => { x with demand := { x.demand with outage := true } }) s
      else restartDemand o ts false true s) s

/-! ## Load profile (R141, R142) -/

/-- The integer parts of CIMP, CEXP, QI and QIV. -/
def profileNow (s : State) (o : Nat) : List Nat := [8, 9, 2, 5].map fun q => at0 (metOutOf s o).acc q / 2 ^ 16

/-- A 32-byte load-profile record. -/
def profileRecord (s : State) (o ts : Nat) : Bytes :=
  let x := bilOutOf s o
  let now := profileNow s o
  let b := leBytes 8 ts ++ leBytes 1 o ++ leBytes 1 (x.profFlags + flagAt (!timeValid s) 4) ++ leBytes 1 x.tariff ++ zeros 1
    ++ (List.range 4).flatMap fun i => leBytes 4 (at0 now i - at0 x.profBase i)
  b ++ leBytes 4 (crc32c b)

/-- Records that the load profile's half of Squirrel holds (log 7). -/
def squirrelHalf : Nat := 524288

/-- Records into Squirrel: its first half holds 524,288. -/
def toSquirrel (rs : List Bytes) : State → State :=
  onBil fun b => { b with squirrel := keepLast squirrelHalf (b.squirrel ++ rs) }

/-- One outlet's record: to Squirrel through Badger, or into the queue of 96, whose oldest goes when it is full. -/
def profileOf (ts o : Nat) (s : State) : State :=
  let r := profileRecord s o ts
  let s := onBilOut o (fun x => { x with profBase := profileNow s o, profFlags := 0 }) s
  if badgerUp s then toSquirrel [r] s
  else onBilOut o (fun x => { x with profQueue := (x.profQueue ++ [r]).drop (x.profQueue.length + 1 - 96),
                                     profLost := if x.profQueue.length < 96 then x.profLost else x.profLost + 1 }) s

/-- The load profile at a restart at `ts`, the save captured at `saved` (R141): the quarter hour in progress at the cut, when
it ended in the gap, gets its record with OUTAGE; the one in progress now carries OUTAGE. A total below the base that was
kept (energy lost since the save) starts the increments anew. -/
def profileRestart (saved ts : Nat) (s : State) : State :=
  let q := secOfTs saved / 900
  let cut := timeValid s && decide (secOfTs saved % 900 ≠ 0) && decide (q < secOfTs ts / 900)
  let s := (List.range 4).foldl (fun s o => onBilOut o (fun x => { x with
    profBase := List.zipWith min x.profBase (profileNow s o), profFlags := Nat.lor x.profFlags 8 }) s) s
  let s := if cut then (outletList s).foldl (fun s o => profileOf (tsOfSec ((q + 1) * 900)) o s) s else s
  onBil (fun b => { b with outs := b.outs.map fun x => { x with profFlags := Nat.lor x.profFlags 8 } }) s

/-- LOAD_PROFILE_RECORD (R141). -/
def execLoadProfileRecord (s : State) : Host.Outcome State Fault Refusal :=
  .next ((outletList s).foldl (fun s o => profileOf (tsOfSec (nowSec s / 900 * 900)) o s) s)

/-- When Badger returns the queues empty into Squirrel; EV_PROFILE_LOST per outlet that lost records (R142). -/
def flushProfile (s : State) : State :=
  (List.range 4).foldl (fun s o =>
    let x := bilOutOf s o
    let s := onBilOut o (fun x => { x with profQueue := [], profLost := 0 }) (toSquirrel x.profQueue s)
    if x.profLost = 0 then s else logEv .service 0x06 o 0x060B [(1, o), (4, x.profLost)] s) s

/-! ## CAL_LOAD (R127, R130) -/

/-- The rows of R127: reason, whether the row holds, its status, and the class under which it is logged. -/
def calRows (s : State) (b : Bytes) : List (Nat × Bool × Nat × Option EvClass) :=
  [(1, b.length != 2868, stsLengthRange, none),
   (2, s.key.lc == .retired, stsLifecycle, none),
   (3, leAt 0 4 b != 0x54415231, stsIntegrity, some .service),
   (4, leAt 0xAD0 4 b != crc32c (b.take 0xAD0), stsIntegrity, some .service),
   (5, !verifies (headerKey s) (b.take 0xAD4) (slice 0xAD4 96 b), stsAuthFail, some .security),
   (6, leAt 8 8 b != s.ident.deviceId, stsAuthFail, some .security),
   (7, leAt 4 2 b != 1, stsVersion, some .service),
   (8, s.bil.journal.any (·.pending), stsBusy, none),
   (9, decide (leAt 0x10 4 b ≤ (billCtl s).highestSeq), stsRefused, some .security),
   (0x0A, !(calendarRanges b && calendarRules (outletMask s) b), stsIntegrity, some .service)]

/-- An accepted calendar into the slot that is not active (R130). -/
def storeCalendar (c : Calendar) (bytes : Bytes) (s : State) : State :=
  let k := if (billCtl s).activeSlot = some 0 then 1 else 0
  let s := onCtl (fun x => { x with passiveSlot := none }) s
  let s := onBil (fun b => { b with cals := put b.cals k (some { cal := c, bytes := bytes, ok := true }) }) s
  onCtl (fun x => { x with passiveSlot := some k, passiveSeq := c.seq, passiveAct := c.activation, highestSeq := c.seq }) s

/-- A calendar refused by a row: its reason, its status, and its event where the row has one. -/
def calRefuse (r : Req) (rec : Bytes) (reason sts : Nat) (cls : Option EvClass) (s : State) : State :=
  let s := onBil (fun b => { b with calReason := reason, calRc := sts }) s
  let s := match cls with
    | some k => logEv k 0x06 0xFF 0x0602 [(1, reason), (4, leAt 0x10 4 rec)] s
    | none => s
  postSts r sts s

/-- CAL_LOAD (R127): the first row that holds decides. -/
def execCalLoad (r : Req) (rec : Bytes) (s : State) : Host.Outcome State Fault Refusal :=
  .next (match (calRows s rec).find? (·.2.1) with
    | some (reason, _, sts, cls) => calRefuse r rec reason sts cls s
    | none =>
      let c := calendarOf rec
      let s := storeCalendar c rec (onBil (fun b => { b with calReason := 0, calRc := stsOk }) s)
      postSts r stsOk (legalEv 0x06 0xFF 0x0601 [(4, c.seq), (4, secOfTs c.activation)] s))

/-! ## Tokens (R145–R149) -/

/-- The decoder key: an installed slot of type 6 with TOKEN for the metrology core (R331). -/
def decoderKey (s : State) : Option KeySlot :=
  s.key.slots.find? fun k => k.loaded && k.ktype == 6 && bitAt k.usage 6 && bitAt k.usage 10

/-- The replay table with one more entry; a full table gives up its lowest TID, which raises TID_FLOOR (R147, R148). -/
def replayAdd (e : ReplayEntry) (t : List ReplayEntry × Nat) : List ReplayEntry × Nat :=
  if t.1.length < 16384 then (t.1 ++ [e], t.2)
  else
    let low := t.1.foldl (fun m x => min m x.tid) (2 ^ 24)
    (t.1.eraseIdx (t.1.findIdx (·.tid == low)) ++ [e], max t.2 low)

/-- The lowest TID held. -/
def oldestTid (s : State) : Nat := match s.bil.replay with
  | [] => 0
  | e :: r => r.foldl (fun m x => min m x.tid) e.tid

/-- Journal entries not yet confirmed in flash (R149). -/
def unconfirmed (s : State) : List TokenEntry := s.bil.tokens.filter fun e => e.ok && decide ((billCtl s).mirroredSeq < e.seq)

/-- Minutes from the base date to the present time. -/
def minutesSince (s : State) (b2014 : Bool) : Nat := nowSec s / 60 + (if b2014 then 2191 else 9861) * 1440

/-- The number that 20 ASCII digits spell; none for anything else. -/
def tokenNumber (d : Bytes) : Option Nat :=
  if d.length = 20 ∧ d.all (fun b => decide (48 ≤ b.toNat) && decide (b.toNat ≤ 57)) = true then
    some (d.foldl (fun n b => n * 10 + (b.toNat - 48)) 0)
  else none

/-- Ends TOKEN_ENTER with a reason and a status; a logged rejection carries reason, class and TID. -/
def tokenEnd (r : Req) (reason sts : Nat) (log : Option (EvClass × Nat × Nat)) (s : State) : State :=
  let s := onBil (fun b => { b with tokRc := sts, tokReason := reason }) s
  let s := match log with
    | some (k, cls, tid) => logEv k 0x06 0xFF 0x0609 [(1, reason), (1, cls), (4, tid)] s
    | none => s
  postSts r sts s

/-- The credit after a token (R145). -/
def creditAfter (cls amount : Nat) (credit : Int) : Int := if cls = 0 then credit + (amount * 100000 : Nat) else 0

/-- TID, subclass and class in one word, as the replay table, the token journal and EV_TOKEN_ACCEPT hold them (R147, R149). -/
def tokenWord (cls sub tid : Nat) : Nat := tid % 2 ^ 24 + sub % 16 * 2 ^ 24 + cls % 4 * 2 ^ 28

/-- An accepted token: journal entry, replay table, TID_FLOOR, credit (R147–R149). -/
def acceptToken (r : Req) (cls sub tid amount : Nat) (s : State) : State :=
  let seq := s.bil.tokenNext
  let e : TokenEntry := { seq := seq, cls := cls, sub := sub, tid := tid, amount := if cls = 0 then amount else 0, time := nowTs s, ok := true }
  let (table, floor) := replayAdd { tid := tid, sub := sub, cls := cls } (s.bil.replay, (billCtl s).tidFloor)
  let s := onBil (fun b => { b with tokens := (b.tokens ++ [e]).drop (b.tokens.length + 1 - 64), tokenNext := seq + 1,
                                    replay := table, lastTokenS := nowSec s }) s
  let s := onCtl (fun c => { c with tidFloor := floor }) s
  let s := setCredit (creditAfter cls amount s.bil.credit) s
  let s := legalEv 0x06 0xFF 0x0608 [(4, tokenWord cls sub tid), (4, amount), (4, seq)] s
  tokenEnd r 0 stsOk none s

/-- The rows of R146 after decryption. -/
def tokenRows (r : Req) (b2014 : Bool) (cls sub tid amount : Nat) (s : State) : State :=
  let reject (k : EvClass) (reason sts : Nat) : State := tokenEnd r reason sts (some (k, cls, tid)) s
  if !((cls == 0 && sub == 0) || (cls == 2 && sub == 1)) then reject .service 8 stsVersion
  else if prepayMask s = 0 then reject .service 9 stsState
  else if 64 ≤ (unconfirmed s).length then tokenEnd r 10 stsBusy none s
  else if s.bil.replay.any (·.tid == tid) then reject .security 1 stsRefused
  else if tid ≤ (billCtl s).tidFloor ∨ (16384 ≤ s.bil.replay.length ∧ tid < oldestTid s) then reject .security 2 stsRefused
  else if timeValid s ∧ minutesSince s b2014 + 1440 < tid then reject .security 3 stsRefused
  else if 1000000000000 < creditAfter cls amount s.bil.credit then reject .service 4 stsRefused
  else acceptToken r cls sub tid amount s

/-- TOKEN_ENTER (R146). -/
def execTokenEnter (r : Req) (digits : Bytes) (s : State) : Host.Outcome State Fault Refusal :=
  .next (match tokenNumber digits with
    | none => tokenEnd r 7 stsLengthRange none s
    | some n =>
      if 2 ^ 66 ≤ n then tokenEnd r 7 stsLengthRange none s
      else if s.key.lc = .retired then tokenEnd r 0 stsLifecycle none s
      else match decoderKey s with
        | none => tokenEnd r 6 stsAuthFail (some (.service, Config.tokenClass n % 4, 0)) s
        | some k => match Config.tokenOpen k.material k.param n with
          | none => tokenEnd r 5 stsAuthFail (some (.security, Config.tokenClass n % 4, 0)) s
          | some (cls, sub, tid, amount) => tokenRows r (Config.base2014 k.param) cls sub (tid % 2 ^ 24) amount s)

/-- TOKEN_MIRROR_CONFIRM (R149): MIRRORED_SEQ is written; the flash mirror holds the table up to that entry. -/
def execTokenMirrorConfirm (seq : Nat) (s : State) : Host.Outcome State Fault Refusal :=
  .next (if (billCtl s).mirroredSeq < seq ∧ seq < s.bil.tokenNext then
    let later := (s.bil.tokens.filter fun e => decide (seq < e.seq)).map (·.tid)
    onCtl (fun c => { c with mirroredSeq := seq })
      (onBil (fun b => { b with mirror := b.mirror.write (b.replay.filter fun e => !later.contains e.tid) }) s)
    else s)

/-- What the flash mirror gives at a reset: the copy in force, nothing when both fail (R147, R148). -/
def mirrorTable (s : State) : List ReplayEntry := if s.bil.mirror.lost then [] else s.bil.mirror.get

/-- The replay table rebuilt from the mirror and the unconfirmed journal entries (R147–R149). -/
def rebuildReplay (s : State) : State :=
  let (t, floor) := (unconfirmed s).foldl (fun t e => replayAdd { tid := e.tid, sub := e.sub, cls := e.cls } t)
    (mirrorTable s, (billCtl s).tidFloor)
  let s := onBil (fun b => { b with replay := t }) s
  if floor = (billCtl s).tidFloor then s else onCtl (fun c => { c with tidFloor := floor }) s

/-- A decoder key with a different base date clears the replay table and sets TID_FLOOR to 0 (R145). -/
def clearReplay (s : State) : State :=
  onCtl (fun c => { c with tidFloor := 0 }) (onBil (fun b => { b with replay := [], mirror := Twin.both [] }) s)

/-! ## Snapshots and BILL_RESET (R136, R151) -/

/-- The ring slot `index` places older than the newest signed snapshot. -/
def snapAt (s : State) (index : Nat) : RingSlot :=
  s.bil.ring.getD (((billCtl s).snapNext + 23 - index) % 24) { state := .empty, bytes := [] }

/-- BILL_SNAP_READ (R136): the SIGNED snapshot `index` places older than the newest. An index whose slot a CAPTURED snapshot
has overwritten names none: STS_LENGTH_RANGE (log 36). -/
def execBillSnapRead (r : Req) (index : Nat) (s : State) : Host.Outcome State Fault Refusal :=
  .next (guarded r [(decide ((billCtl s).snapCount ≤ index) || (snapAt s index).state != .signed, stsLengthRange)]
    (fun s => post r stsOk 0 (snapAt s index).bytes s) s)

/-- BILL_RESET (R151): MAINTENANCE mode and a time later than LAST_BOUNDARY; executed at the next interval boundary. -/
def execBillReset (r : Req) (s : State) : Host.Outcome State Fault Refusal :=
  .next (guarded r [(s.sys.mode != .maintenance || decide (nowTs s ≤ (billCtl s).lastBoundary), stsState)]
    (fun s => postSts r stsOk (onBil (fun b => { b with resetDue := true }) s)) s)

/-! ## Reads (R152) -/

/-- The 64-bit value of a LO and HI pair; 0 for an absent outlet (R45). -/
def bilPair (s : State) : BilLo → Nat
  | .passAct => (billCtl s).passiveAct
  | .lastBnd => (billCtl s).lastBoundary
  | .credit => unsignedOf 64 s.bil.credit
  | .timp o t => if declared s o then at0 (bilOutOf s o).timp (t - 1) else 0
  | .texp o t => if declared s o then at0 (bilOutOf s o).texp (t - 1) else 0
  | .mdTs o t => if declared s o then ((bilOutOf s o).md.getD (t - 1) (0, 0)).2 else 0

/-- BIL_LO_READ (R152): latches the HI register of the pair in the reading view. -/
def execBilLoRead (view : Side) (reg : BilLo) (s : State) : Host.Outcome State Fault Refusal :=
  let v := bilPair s reg
  .next (returns (v % 2 ^ 32) (onBil (fun b => { b with latch := latch view (reg, v / 2 ^ 32) b.latch }) s))

end Sys2Proof.Machine
end

