-- ==== Sys2Proof/Machine/Energy.lean ====
section
/-! DEFINITION. The energy engine (R81–R101, R108–R110): interval results, accrual, hold-last, metering status, pulses, the
calibration gate and the reload of the metrology core. -/

namespace Sys2Proof.Machine

/-! ## Interval quantities (R84–R92) -/

/-- Nominal voltage (mV) and rated current (mA) that scale a phase group's lanes: those of each lane's home outlet (R52). -/
def groupScale (s : State) (g : GroupRec) : Nat × Nat :=
  let home (n : Nat) : Option OutletRec := match laneRec s n with
    | some l => outletRec s l.outlet
    | none => none
  (((home g.vLane).map (·.nomMv)).getD 0, ((home g.cLane).map (·.ratedMa)).getD 0)

/-- Sum of products of two word lists. -/
def dot (a b : List Int) : Int := (List.zipWith (· * ·) a b).foldl (· + ·) 0

/-- Square of the full-scale word. -/
def fs2 : Nat := 0x7FFFFF * 0x7FFFFF

/-- Numerator and denominator that turn a sum of word products into accumulator units (2^−16 mWh). AC (R86): the sum
is 256 times the mean over a cycle of the grid rate `f` in mHz; DC (R91): 125 µs per sample. -/
def energyScale (dc : Bool) (vn cn f : Nat) : Nat × Nat :=
  if dc then (4 * vn * cn * 65536 * 125, fs2 * 3600 * 10 ^ 9) else (8 * vn * cn * 65536, 256 * fs2 * 3600 * f)

/-- Numerator and denominator that turn a sum of `n` word products into mW. -/
def powerScale (dc : Bool) (vn cn n : Nat) : Nat × Nat := ((if dc then 4 else 8) * vn * cn, max 1 n * fs2 * 1000)

/-- The voltage words delayed by a quarter cycle (R89). -/
def delayed (tail v : List Int) : List Int := (tail ++ v).take v.length

/-- A contribution of nothing. -/
def Contribution.zero : Contribution :=
  { p := 0, q := 0, s := 0, harm := List.replicate 63 0, loss := 0, pMw := 0, qMvar := 0 }

/-! ## The 256-point FFT (R86, R89) -/

/-- cos(2πk/256) · 2^30, rounded to nearest, k = 0–64 (log 32). -/
def cosQuarter : List Nat :=
  [1073741824, 1073418433, 1072448455, 1070832474, 1068571464, 1065666786, 1062120190, 1057933813, 1053110176,
   1047652185, 1041563127, 1034846671, 1027506862, 1019548121, 1010975242, 1001793390, 992008094, 981625251,
   970651112, 959092290, 946955747, 934248793, 920979082, 907154608, 892783698, 877875009, 862437520,
   846480531, 830013654, 813046808, 795590213, 777654384, 759250125, 740388522, 721080937, 701339000,
   681174602, 660599890, 639627258, 618269338, 596538995, 574449320, 552013618, 529245404, 506158392,
   482766489, 459083786, 435124548, 410903207, 386434353, 361732726, 336813204, 311690799, 286380643,
   260897982, 235258165, 209476638, 183568930, 157550647, 131437462, 105245103, 78989349, 52686014,
   26350943, 0]

/-- cos(2πk/256) · 2^30. -/
def cos256 (k : Nat) : Int :=
  let k := k % 256
  if k ≤ 64 then (at0 cosQuarter k : Int) else if k ≤ 128 then -(at0 cosQuarter (128 - k) : Int)
  else if k ≤ 192 then -(at0 cosQuarter (k - 128) : Int) else (at0 cosQuarter (256 - k) : Int)

/-- Order-`h` FFT bin of an interval's words, times 2^30: real and imaginary part. Words that a closed part of an interval
lacks count as 0 (log 34). -/
def fftBin (h : Nat) (ws : List Int) : Int × Int :=
  ws.zipIdx.foldl (fun (re, im) (x, n) => (re + x * cos256 (h * n), im - x * cos256 (h * n + 192))) (0, 0)

/-- V_h · conj(I_h) of two bins scaled to RMS, as 256 times the power in word units: real and imaginary part. -/
def crossPower (up : Bool) (v i : Int × Int) : Int × Int :=
  (openQuot up (v.1 * i.1 + v.2 * i.2) (128 * 2 ^ 60), openQuot up (v.2 * i.1 - v.1 * i.2) (128 * 2 ^ 60))

/-! ## The interval result and its harmonic record (R99) -/

/-- What the MAC array sums over an interval of a phase group, in word units: 256 times P, Q and S of a cycle, the squares,
the cable-loss sum, the words summed, and the harmonic terms P_h and Q_h. -/
structure IntervalSums where
  p : Int
  q : Int
  s : Nat
  v2 : Nat
  i2 : Nat
  loss : Nat
  n : Nat
  harm : List (Int × Int)
  deriving DecidableEq, Repr, Inhabited

/-- The sums of an interval's words, oldest first: of an AC outlet Q by the method of R89, `locked` with the harmonic terms;
`up` decides the roundings the spec leaves open. -/
def sumsOf (up dc locked : Bool) (tail v i : List Int) : IntervalSums :=
  let v2 := (dot v v).toNat
  let i2 := (dot i i).toNat
  let harm := if locked && !dc then (List.range 63).map fun h => crossPower up (fftBin (h + 1) v) (fftBin (h + 1) i) else []
  { p := dot v i, q := if dc then 0 else if locked then (harm.headD (0, 0)).2 else dot (delayed tail v) i,
    s := if dc then 0 else openSqrt up (v2 * i2) 1, v2 := v2, i2 := i2, loss := if dc then i2 else 0, n := v.length,
    harm := harm }

/-- The 64-byte interval result: outlet, group, cycle count, flags ([0] LOCKED), words, then P, Q, S, V², I² and loss sums of
8 bytes each, and the CRC-16 over the first 62 bytes; the places within it are the model's (log 34). -/
def resultBytes (o g cycles : Nat) (locked : Bool) (x : IntervalSums) : Bytes :=
  let b := leBytes 1 o ++ leBytes 1 g ++ leBytes 4 cycles ++ leBytes 1 (flagAt locked 0) ++ leBytes 2 x.n ++ zeros 1
    ++ leBytes 8 (unsignedOf 64 x.p) ++ leBytes 8 (unsignedOf 64 x.q) ++ leBytes 8 x.s ++ leBytes 8 x.v2 ++ leBytes 8 x.i2
    ++ leBytes 8 x.loss ++ zeros 4
  b ++ leBytes 2 (crc16 b)

/-- The second record of a LOCKED interval: 126 harmonic terms of 8 bytes and its CRC-16. -/
def harmBytes (x : IntervalSums) : Bytes :=
  let b := x.harm.flatMap fun h => leBytes 8 (unsignedOf 64 h.1) ++ leBytes 8 (unsignedOf 64 h.2)
  b ++ leBytes 2 (crc16 b)

/-- A record whose bits a fault has flipped. -/
def flipBits (flip : Nat) (b : Bytes) : Bytes := leBytes b.length (Nat.xor (leNat b) flip)

/-- A record's CRC-16 matches, as the sequencer verifies it before accrual. -/
def crc16Ok (b : Bytes) : Bool := leAt (b.length - 2) 2 b == crc16 (b.take (b.length - 2))

/-- The sums that the sequencer reads from the two records. -/
def sumsRead (r h : Bytes) : IntervalSums :=
  let s64 (o : Nat) (b : Bytes) : Int := signedOf 64 (leAt o 8 b)
  { p := s64 10 r, q := s64 18 r, s := leAt 26 8 r, v2 := leAt 34 8 r, i2 := leAt 42 8 r, loss := leAt 50 8 r, n := leAt 7 2 r,
    harm := (List.range 63).map fun k => (s64 (16 * k) h, s64 (16 * k + 8) h) }

/-- The contribution of a phase group's verified sums (R86, R87, R89–R92). Below the creep threshold it is nothing. -/
def contributionOf (up dc locked : Bool) (o : OutletRec) (res vn cn f : Nat) (x : IntervalSums) : Contribution :=
  let k := if dc then 4 else 8
  if x.p.natAbs * k * vn * cn * 8000 < x.n * fs2 * o.nomMv * o.ratedMa then Contribution.zero
  else
    let e := energyScale dc vn cn f
    let pw := powerScale dc vn cn x.n
    let scale (y : Int) : Int := openQuot up (y * e.1) e.2
    { p := scale x.p, q := scale x.q, s := if dc then (scale x.p).natAbs else (scale x.s).toNat,
      harm := if locked && !dc then x.harm.map fun h => scale h.1 else List.replicate 63 0,
      loss := (openQuot up (x.loss * (4 * cn * cn * res * 65536 * 1250) : Nat) (fs2 * 36 * 10 ^ 18)).toNat,
      pMw := openQuot up (x.p * pw.1) pw.2, qMvar := openQuot up (x.q * pw.1) pw.2 }

/-- Duration of an interval in ns (R86): 256 grid points at the grid rate, or 256 samples at 8 kS/s. -/
def intervalNs (dc : Bool) (f : Nat) : Nat := if dc then 32000000 else 10 ^ 12 / f

/-! ## Hold-last (R96) -/

/-- The resampled words of the closing interval on a line, oldest first: those formed since the last close (R84). -/
def intervalWords (s : State) (o k : Nat) : List GridWord :=
  ((gridLine s o k).take (s.lane.rs.getD o Resampler.fresh).fill).reverse

/-- What makes an interval result unusable: the stage code of the failure that began it, and whether a trigger of stages 1–4
covers it already. -/
structure Unusable where
  stage : Nat
  covered : Bool
  deriving DecidableEq, Repr, Inhabited

/-- The first of an interval's words that is tainted, the two lanes' words of one grid point together. -/
def firstTaint (v i : List GridWord) : Option GridWord := ((List.zipWith (fun a b => [a, b]) v i).flatten).find? (·.taint)

/-- A resampled word of a line fails its CRC-8 (R67). -/
def wordBad (k : Nat) (w : GridWord) : Bool := w.crc != gridCrc k w.idx w.val

/-- Why a group's interval result is unusable (R96), none when it is usable. A taint that began without a failed check has no
stage code of its own; the one it is logged with is open within 1–3 (log 34). -/
def unusable (free : Nat) (g : GroupRec) (f : GroupFault) (v i : List GridWord) (recordsOk : Bool) : Option Unusable :=
  match firstTaint v i with
  | some w => some { stage := if w.stage = 0 then 1 + free % 3 else w.stage, covered := true }
  | none =>
    if f.gridBad || v.any (wordBad g.vLane) || i.any (wordBad g.cLane) then some { stage := 4, covered := false }
    else if recordsOk then none
    else some { stage := 5, covered := false }

/-- A phase group as the metrology core keeps it before its first interval. -/
def MetGroup.fresh : MetGroup := { last := none, vTail := [], runLen := 0, runStage := 0 }

/-- A group's part of a closing interval: its failure, its contribution, and the group after it. -/
structure GroupClose where
  g : GroupRec
  old : MetGroup
  bad : Option Unusable
  c : Contribution
  m : MetGroup

/-- The result of a phase group at an interval's close: the records as the MAC array forms them, as faults leave them, and
as the sequencer verifies them; usable sums contribute, else the last usable contribution is held. -/
def groupResult (s : State) (o : OutletRec) (g : GroupRec) (m : MetGroup) (f : GroupFault) : GroupClose :=
  let dc := o.kind == 2
  let rs := s.lane.rs.getD o.outlet Resampler.fresh
  let locked := rs.state == .locked
  let (vn, cn) := groupScale s g
  let res := ((meterRec s o.outlet).map (·.cableUohm)).getD 0
  let v := intervalWords s o.outlet g.vLane
  let i := intervalWords s o.outlet g.cLane
  let vw := v.map (·.val)
  let x := sumsOf (freeBit s) dc locked m.vTail vw (i.map (·.val))
  let r := flipBits f.flip (resultBytes o.outlet g.group rs.cycles locked x)
  let h := flipBits f.flipHarm (harmBytes x)
  let tail := keepLast 64 (m.vTail ++ vw)
  match unusable (freeNat s) g f v i (crc16Ok r && (crc16Ok h || !locked)) with
  | none =>
    let c := contributionOf (freeBit s) dc locked o res vn cn rs.freq (sumsRead r h)
    { g := g, old := m, bad := none, c := c, m := { last := some c, runLen := 0, runStage := 0, vTail := tail } }
  | some u =>
    { g := g, old := m, bad := some u, c := m.last.getD Contribution.zero,
      m := { m with runLen := m.runLen + 1, runStage := if m.runLen = 0 then u.stage else m.runStage, vTail := tail } }

/-- EV_HOLD_LAST at the first interval of a run and at its end, whatever the metering status; CHECK triggers on the lanes of
an uncovered failure. -/
def holdLastEvents (o : Nat) (x : GroupClose) (s : State) : State :=
  match x.bad with
  | some u =>
    let s := if x.old.runLen = 0 then legalEv 0x04 o 0x0401 [(1, o), (1, x.g.group), (1, u.stage), (1, 0), (4, 1)] s else s
    if u.covered then s else checkFail (carrier s x.g.cLane) u.stage (checkFail (carrier s x.g.vLane) u.stage s)
  | none =>
    if x.old.runLen ≠ 0 then
      legalEv 0x04 o 0x0401 [(1, o), (1, x.g.group), (1, x.old.runStage), (1, 1), (4, x.old.runLen)] s
    else s

/-! ## Accrual (R88, R92, R93, R95) -/

/-- The ten increments of R88 and R92 for an interval's totals. -/
def increments (dc : Bool) (res : Nat) (p q : Int) (sva loss : Nat) : List Nat :=
  let pos := decide (0 ≤ p)
  let a := p.natAbs
  let qa := q.natAbs
  let app := if dc then a else sva
  let comp := if dc && res != 0 then (if pos then a - loss else a + loss) else a
  let quad (imp lag : Bool) : Nat := if dc then 0 else if pos == imp && decide (q ≠ 0) && decide (0 < q) == lag then qa else 0
  [if pos then a else 0, if pos then 0 else a, quad true true, quad false true, quad false false, quad true false,
   if pos then app else 0, if pos then 0 else app, if pos then comp else 0, if pos then 0 else comp]

/-- Adds to a harmonic accumulator: 80 bits, two's complement (R93). -/
def addHarm (a b : Int) : Int := signedOf 80 (unsignedOf 80 (a + b))

/-- Adds the increments to the accumulators of an outlet; tariff registers, demand and credit take the integer parts. -/
def accrue (o : Nat) (inc : List Nat) (harm : List Int) (s : State) : State :=
  let old := (metOutOf s o).acc
  let new := (List.range 10).map fun q => (at0 old q + at0 inc q) % 2 ^ 80
  let int (l : List Nat) (q : Nat) : Nat := at0 l q / 2 ^ 16
  let s := onMetOut o (fun m => setAcc new (List.zipWith addHarm m.harm harm) m) s
  let s := accrueTariff o (int new 8 - int old 8) (int new 9 - int old 9) s
  if int old 8 / displayMod < int new 8 / displayMod then
    let s := onCounters (fun c => { c with rollovers := addAt c.rollovers o 1 }) s
    legalEv 0x04 o 0x0406 [(1, o), (4, at0 (counters s).rollovers o)] s
  else s

/-! ## Pulses (R108, R109) -/

/-- The pulse output of an outlet. -/
def pulseOf (s : State) (o : Nat) : Option (Nat × MeterRec) := match meterRec s o with
  | some m => if m.pulse < 4 then some (m.pulse, m) else none
  | none => none

/-- `n` pulses fall due: one starts on an idle output, the others wait, at most 255; the rest is discarded. An onset of
EV_PULSE_OVF ends when a pulse that waited starts, or pulses fall due and none is discarded (log 35). -/
def duePulses (n : Nat) (p : Pulse) : Pulse × Bool :=
  if n = 0 then (p, false)
  else
    let (start, n') := if p.phase = .idle then (PulsePhase.high, n - 1) else (p.phase, n)
    let past := decide (255 < p.backlog + n')
    ({ p with phase := start, backlog := min 255 (p.backlog + n'), ovf := p.ovf || past, ovfOn := past }, past && !p.ovfOn)

/-- Pulse accounting of `e` accumulator units of an outlet; EV_PULSE_OVF once per onset. -/
def accountPulses (o e : Nat) (s : State) : State :=
  match pulseOf s o with
  | some (k, m) =>
    let p := s.met.pulses.getD k Pulse.fresh
    let rem := p.rem + e * m.impPerKwh
    let (p', onset) := duePulses (rem / (65536 * 10 ^ 6)) { p with rem := rem % (65536 * 10 ^ 6) }
    let s := onMet (fun b => { b with pulses := put b.pulses k p' }) s
    if onset then logEv .service 0x04 0xFF 0x040B [(1, k), (1, o)] s else s
  | none => s

/-- An output that is idle or ends a low time: the next waiting pulse starts, where outputs may run. -/
def nextPulse (run : Bool) (x : Pulse) : Pulse :=
  if x.backlog = 0 ∨ run = false then { x with phase := .idle }
  else { x with phase := .high, backlog := x.backlog - 1, ovfOn := false }

/-- A pulse output may go high: named by METER_CONST, and the metrology core accrues (R108). -/
def pulseRuns (s : State) (p : Nat) : Bool := s.met.run && !s.met.stopped && s.str.cur.meters.any (·.pulse == p)

/-- PULSE_TIMER (R108): the high time ends in a low time; after the low time the next waiting pulse starts. -/
def execPulseTimer (p : Nat) (s : State) : Host.Outcome State Fault Refusal :=
  let run := pulseRuns s p
  .next (onMet (fun b => { b with pulses := upd b.pulses p fun x => match x.phase with
    | .high => { x with phase := .low }
    | .low => nextPulse run x
    | .idle => nextPulse run x }) s)

/-! ## Calibration gate (R110) -/

/-- Accrual in trial: held off for a gate yet to open, and after a gate has closed. -/
def calAccrues (s : State) (o : Nat) : Bool :=
  if s.met.calOutlet = o then !s.met.calStart && (s.met.calRun || !s.met.calDoneFlag) else true

/-- The gate at a boundary of its outlet: it counts the interval, closes, or opens. A STOP written before the gate opens has
no gate to close and is dropped (log 35). -/
def calGate (o : Nat) (s : State) : State :=
  if s.met.calOutlet ≠ o then s
  else if s.met.calStart then
    onMet (fun b => { b with calStart := false, calStop := false, calRun := true, calDone := 0, calDoneFlag := false }) s
  else if s.met.calRun then
    let n := s.met.calDone + 1
    let close := s.met.calStop || decide (s.met.calCycles ≤ n)
    onMet (fun b => { b with calDone := n, calRun := !close, calDoneFlag := close, calStop := false }) s
  else onMet (fun b => { b with calStop := false }) s

/-- CALCTL.START with its outlet and gate length: ignored for a length of 0 or an outlet not in trial. -/
def calStart (w : Nat) (s : State) : State :=
  let n := field w 23 8
  let o := field w 3 2
  let s := onMet (fun b => { b with calCycles := n, calOutlet := o }) s
  if n = 0 then s
  else if outletTrial s o = false then onMet (fun b => { b with calRc := stsState }) s
  else onMetOut o (fun m => { m with calP := 0, calQ := 0 })
    (onMet (fun b => { b with calRc := stsOk, calStart := true, calRun := false, calDoneFlag := false, calDone := 0 }) s)

/-- A write of MET_CALCTL: the fields, then START, then STOP. -/
def calctlWrite (w : Nat) (s : State) : State :=
  let s := if bitAt w 0 then calStart w s
           else onMet (fun b => { b with calCycles := field w 23 8, calOutlet := field w 3 2 }) s
  if bitAt w 1 then onMet (fun b => { b with calStop := true }) s else s

/-- CALCTL_START (R110). -/
def execCalctlStart (w : Word) (s : State) : Host.Outcome State Fault Refusal := .next (calStart w.toNat s)

/-- CALCTL_STOP (R110): the gate closes at the next boundary. -/
def execCalctlStop (s : State) : Host.Outcome State Fault Refusal := .next (onMet (fun b => { b with calStop := true }) s)

/-- An outlet that enters or leaves trial: EV_TRIAL (R110). -/
def trialChange (o : Nat) (s : State) : State :=
  let t := outletTrial s o
  if t = (metOutOf s o).inTrial then s
  else
    let s := onMetOut o (fun m => { m with inTrial := t }) s
    legalEv 0x04 o 0x0407 [(1, o), (1, if t then 0 else 1), (4, at0 (counters s).trial o)] s

/-! ## Seconds counters (R97, R110) -/

/-- Adds `ns` to a fraction; the whole seconds it completes, and the new fraction. -/
def wholeSeconds (frac ns : Nat) : Nat × Nat := ((frac + ns) / 10 ^ 9, (frac + ns) % 10 ^ 9)

/-- Unmetered and trial seconds of an outlet. -/
def countSeconds (o ns : Nat) (s : State) : State :=
  let m := metOutOf s o
  let (a, fa) := if m.nometer then wholeSeconds m.nomNs ns else (0, m.nomNs)
  let (b, fb) := if m.inTrial then wholeSeconds m.trialNs ns else (0, m.trialNs)
  let s := onMetOut o (fun x => { x with nomNs := fa, trialNs := fb }) s
  if a = 0 ∧ b = 0 then s
  else onCounters (fun c => { c with unmetered := addAt c.unmetered o a, trial := addAt c.trial o b }) s

/-! ## Metering status (R97, R98) -/

/-- The lanes that carry an outlet's metering functions. -/
def meteringLanes (s : State) (o : Nat) : List Nat := (groupsOf s o).flatMap fun g => [carrier s g.vLane, carrier s g.cLane]

def laneFailed (s : State) (n : Nat) : Bool := (laneOf s n).health == .failed
/-- GOOD, SUSPECT, or a spare that carries the function. -/
def laneUsable (s : State) (n : Nat) : Bool := match (laneOf s n).health with
  | .good => true | .suspect => true | .serving => true | .swapped => true
  | .failed => false | .idle => false | .warming => false | .off => false | .fused => false | .absent => false

/-- The row of R97 that changes an outlet's status: NOMETER (rows 1–3) or METERING (row 4). -/
def statusRow (s : State) (o : Nat) : Option (Nat × Bool) :=
  let m := metOutOf s o
  if s.met.run = false ∨ s.met.storeFault then some (1, true)
  else if (meteringLanes s o).any (laneFailed s) then some (2, true)
  else if 10 ^ 9 ≤ m.estNs then some (3, true)
  else if m.nometer ∧ (meteringLanes s o).all (laneUsable s) = true ∧ 10 ^ 9 ≤ m.goodNs then some (4, false)
  else none

/-- An outlet enters or leaves NOMETER; EV_NOMETER when the status changes. -/
def setNometer (o row : Nat) (n : Bool) (s : State) : State :=
  if (metOutOf s o).nometer = n then s
  else legalEv 0x04 o 0x0402 [(1, o), (1, if n then 0 else 1), (1, row)] (onMetOut o (fun m => { m with nometer := n }) s)

/-- Step 8 of R101: the status, and METER_OK to Owl (R98). -/
def meterStatus (o : Nat) (s : State) : State :=
  let s := match statusRow s o with
    | some (row, n) => setNometer o row n s
    | none => s
  let ok := !(metOutOf s o).nometer
  onOwl (fun b => { b with meterOk := put b.meterOk o ok, meterLost := put b.meterLost o false }) s

/-! ## Steps 1–4 of an interval's close (R101) -/

/-- The results of an outlet's phase groups, in order. -/
def groupResults (s : State) (o : OutletRec) (inp : IntervalInput) : List GroupClose :=
  (groupsOf s o.outlet).mapIdx fun k g =>
    groupResult s o g (((metOutOf s o.outlet).groups)[k]?.getD MetGroup.fresh)
      ((inp.groups)[k]?.getD { gridBad := false, flip := 0, flipHarm := 0 })

/-- The totals of an outlet's interval over its phase groups (R88). -/
def totals (gs : List GroupClose) : Contribution :=
  let sum (f : Contribution → Int) : Int := gs.foldl (fun a x => a + f x.c) 0
  { p := sum (·.p), q := sum (·.q), s := (sum (·.s)).toNat,
    harm := gs.foldl (fun a x => List.zipWith (· + ·) a x.c.harm) (List.replicate 63 0), loss := (sum (·.loss)).toNat,
    pMw := sum (·.pMw), qMvar := sum (·.qMvar) }

/-- A number in the two's complement range of `n` bits. -/
def wrapTo (n : Nat) (x : Int) : Int := signedOf n (unsignedOf n x)

/-- Accrual in trial (R110): the calibration accumulators and the pulse output move, no legal register does. -/
def accrueTrial (i : Nat) (c : Contribution) (s : State) : State :=
  if calAccrues s i then
    accountPulses i c.p.natAbs (onMetOut i (fun x => { x with calP := wrapTo 64 (x.calP + c.p), calQ := wrapTo 64 (x.calQ + c.q) }) s)
  else s

/-- Accrual, pulses and the registers of an interval of a METERING outlet (steps 1–4 of R101). -/
def accrueInterval (i : Nat) (dc locked est : Bool) (gs : List GroupClose) (s : State) : State :=
  let c := totals gs
  let res := ((meterRec s i).map (·.cableUohm)).getD 0
  let inc := increments dc res c.p c.q c.s c.loss
  let s := if est then onCounters (fun c => { c with est := addAt c.est i 1 }) s else s
  let s := if (metOutOf s i).inTrial then accrueTrial i c s
    else accountPulses i (at0 inc 8) (accrue i inc (if locked then c.harm else List.replicate 63 0) s)
  onMetOut i (fun x => { x with
    pMw := wrapTo 32 c.pMw, qMvar := wrapTo 32 c.qMvar, exporting := decide (c.p < 0),
    creep := gs.all fun y => y.c == Contribution.zero,
    quadrant := if 0 ≤ c.p then (if 0 ≤ c.q then 0 else 3) else (if 0 ≤ c.q then 1 else 2) }) s

/-- Accrual, pulses and registers of a closing interval: of 256 words, or of those a power-fail warning found (R101). -/
def closeSteps (o : OutletRec) (inp : IntervalInput) (s : State) : State :=
  let i := o.outlet
  let dc := o.kind == 2
  let rs := s.lane.rs.getD i Resampler.fresh
  let ns := intervalNs dc rs.freq * rs.fill / 256
  let s := trialChange i (accCheck i inp.accs s)
  let gs := groupResults s o inp
  let s := bump s
  let s := onLaneBlk (fun b => { b with rs := upd b.rs i fun r => { r with fill := 0 } }) s
  let est := gs.any fun x => x.bad.isSome
  let s := gs.foldl (fun s x => holdLastEvents i x s) s
  let m := metOutOf s i
  let s := onMetOut i (fun x => { x with
    groups := gs.map (·.m), estimated := est && !m.nometer, estSince := x.estSince || (est && !m.nometer),
    estNs := if est then x.estNs + ns else 0, goodNs := if est then 0 else x.goodNs + ns }) s
  let s := onBilOut i (fun x => { x with profFlags := Nat.lor x.profFlags (flagAt (est && !m.nometer) 0 + flagAt m.nometer 1) }) s
  let s := if m.nometer then s else accrueInterval i dc (rs.state == .locked) est gs s
  let s := onMetOut i (fun x => { x with harmInvalid := !dc && rs.state != .locked }) s
  calGate i (countSeconds i ns s)

/-! ## Steps 5–8 (R101, R102) -/

/-- Snapshots of TYPE 1–3 that step 6 will capture at this boundary of outlet `o`; their generations come before a BILLING
snapshot's (R106). -/
def earlyCaptures (o : Nat) (s : State) : Nat :=
  (if requestDue s then 1 else 0) + (if (metOutOf s o).startDue then 1 else 0)
    + (if (metOutOf s o).endDue.isSome then 1 else 0)

/-- The REQUEST snapshot due at this boundary, under generation `gen`. -/
def requestSnapshot (gen ts : Nat) (s : State) : State :=
  captureAs gen 1 s.met.snapOutlets 0 ts [] none (onMet (fun b => { b with snapTake := false }) s)

/-- The SESSION_START snapshot due at an outlet: its GENERATION becomes the session number (R102, R225 step 4). -/
def startSnapshot (gen o ts : Nat) (s : State) : State :=
  let s := onMetOut o (fun x => { x with startDue := false, session := gen }) s
  captureAs gen 2 (2 ^ o) gen ts [] none (onLink o (fun l => if l.meterOpen then { l with session := gen } else l) s)

/-- The SESSION_END snapshot of session `n` due at an outlet. -/
def endSnapshot (gen n o ts : Nat) (s : State) : State :=
  captureAs gen 3 (2 ^ o) n ts [] none (onMetOut o (fun x => { x with endDue := none }) s)

/-- Step 6 for TYPE 1–3, in TYPE order, under the generations that follow `gen`; `req`: the REQUEST is due. -/
def captureEarly (req : Bool) (gen o ts : Nat) (s : State) : State :=
  let g (n : Nat) : Nat := (gen + n) % 2 ^ 32
  let s := if req then requestSnapshot (g 1) ts s else dropRequest s
  let n := flagAt req 0
  let starts := (metOutOf s o).startDue
  let s := if starts then startSnapshot (g (n + 1)) o ts s else s
  match (metOutOf s o).endDue with
  | some k => endSnapshot (g (n + flagAt starts 0 + 1)) k o ts s
  | none => s

/-- The RESTART snapshot (R117): at the first boundary after a restart load at which no SESSION_END of an outlet is still
due (R228). -/
def restartSnapshot (ts : Nat) (s : State) : State :=
  match s.met.restartDue with
  | some outage =>
    if (outletList s).any fun o => (metOutOf s o).endDue.isSome then s
    else onMet (fun b => { b with restartDue := none }) (capture 7 (outletMask s) outage ts [] none s)
  | none => s

/-- Steps 5 and 6 at a boundary of outlet `o`: the boundary events, then the snapshots, with generations in TYPE order. -/
def boundarySteps (o ts : Nat) (s : State) : State :=
  let gen := (counters s).generation
  let req := requestDue s
  let s := boundaryEvents o ts (takeGens (earlyCaptures o s) s)
  restartSnapshot ts (captureEarly req gen o ts s)

/-- A periodic save falls due (R114). -/
def saveDue (s : State) : Bool :=
  s.met.saving.isNone && !s.met.storeFault && decide (s.met.saveTick + msTicks (1000 * s.str.cur.saveS) ≤ s.ticks)

/-- The close of an interval of outlet `o`, all eight steps. -/
def closeInterval (o : OutletRec) (inp : IntervalInput) (s : State) : State :=
  let s := closeSteps o inp s
  let s := boundarySteps o.outlet (nowTs s) s
  let asked := s.sys.reqReset.isSome && !s.sys.resetSaved && s.met.saving.isNone && !s.met.storeFault
  let s := if saveDue s || asked then beginSave 1 s else s
  let s := if asked then onSys (fun b => { b with resetSaved := true }) s else s
  meterStatus o.outlet s

/-- The metrology core closes intervals of this outlet. -/
def metRuns (s : State) : Bool := s.met.run && !s.met.stopped

/-! ## Scrubbing and reload (R83) -/

/-- SRAM_SCRUB (R83): corrected errors are counted. -/
def execSramScrub (corrected : Nat) (s : State) : Host.Outcome State Fault Refusal :=
  .next (if s.met.run then onMgt (fun b => { b with sramErr := b.sramErr + corrected }) s else s)

/-- An outlet's metrology SRAM, wiped. -/
def wipeOutlet (m : MetOutlet) : MetOutlet :=
  { MetOutlet.fresh with nometer := m.nometer, session := m.session, startDue := m.startDue, endDue := m.endDue,
                         inTrial := m.inTrial }

/-- MET_CORE_RELOAD (R83): an uncorrectable error resets the metrology core alone; every outlet is NOMETER. -/
def execMetCoreReload (s : State) : Host.Outcome State Fault Refusal :=
  .next (if s.met.run then
    let s := onMet (fun b => { b with run := false, outs := b.outs.map wipeOutlet, saving := none, snapQueue := [], snapWait := [],
                                      pulses := b.pulses.map fun p => { Pulse.fresh with ovf := p.ovf } }) s
    let s := onBil (fun b => { b with outs := b.outs.map fun x => { x with demand := Demand.fresh } }) s
    let s := onSys (fun b => { b with domMet := satInc 8 b.domMet }) s
    (outletList s).foldl (fun s o => setNometer o 1 true s) s
    else s)

/-- MET_FIRMWARE_RELOADED (R83): every declared outlet restored from the newest valid save by R100, the ledger, the
demand state and the token journal with it; METERING returns by R97. -/
def execMetFirmwareReloaded (s : State) : Host.Outcome State Fault Refusal :=
  .next (if s.met.run then s
    else
      let w := capturedWaiting s
      let s := onMet (fun b => { b with run := true, snapQueue := w.take 8, snapWait := w.drop 8, saveTick := s.ticks }) s
      let s := match newestSave s with
        | some r => (outletList s).foldl (fun s o => restoreDemand r o s) (restoreLedger r.ledger s)
        | none => s
      (outletList s).foldl (fun s o => accRestore o s) s)

end Sys2Proof.Machine
end

