-- ==== Sys2Proof/Machine/Pilot.lean ====
section
/-! DEFINITION. The pilot of an outlet as its state gives it (R217, R218): the offer, the waveform and duty in force, and SLAC
switched on and off with them (R230, R232). -/

namespace Sys2Proof.Machine

/-- The cable-lock channel of an outlet. -/
def lockChannel (s : State) (o : Nat) : Option Nat :=
  (s.str.cur.switches.find? fun x => x.func == 1 && x.outlet == o).map (·.channel)

/-! ## Offer and waveform (R217, R218) -/

/-- The vehicle link of an outlet exists (R214). -/
def linked (s : State) (o : Nat) : Bool := blockBit s o && declared s o

/-- LIMP_MODE and LIMP_CURRENT of an outlet (R33): mode 0 and no current without a record. -/
def limpMode (s : State) (o : Nat) : Nat := ((limpRec s o).map (·.mode)).getD 0
def limpCurrent (s : State) (o : Nat) : Nat := match limpRec s o with
  | some l => if l.mode = 0 then 0 else l.current
  | none => 0

/-- Cable capacity of a proximity code, mA; none for code 0 (R224). -/
def cableCapacity : Nat → Option Nat
  | 0 => none | 2 => some 13000 | 3 => some 20000 | 4 => some 32000 | 5 => some 63000 | _ => some 0

/-- The capacity that limits the offer: in a session the lowest seen in it (R224). -/
def capacityNow (l : Link) : Option Nat :=
  if l.ppMode = 1 then (if l.sup.active then l.sessCap else cableCapacity l.ppCode) else none

/-- The offered current and what set it: 0 VLKo_PILOT, 1 rated current, 2 cable, 3 LIMP_CURRENT (R217, R240). -/
def offerOf (s : State) (o : Nat) : Nat × Nat :=
  let l := linkOf s o
  let pick (a : Nat × Nat) (b : Option (Nat × Nat)) : Nat × Nat := match b with
    | some b => if b.1 < a.1 then b else a
    | none => a
  let a := pick (l.reqCur, 0) ((outletRec s o).map fun r => (r.ratedMa, 1))
  let a := pick a ((capacityNow l).map fun c => (c, 2))
  if s.sys.mode = .limp then pick a (some (limpCurrent s o, 3)) else a

/-- The outlet's cable-lock channel exists and its lock is not LOCKED. -/
def unlockedLock (s : State) (o : Nat) : Bool := (lockChannel s o).isSome && (lockOf s o).state != .locked

/-- The waveform at CP_OUTo: 0 steady high, 1 PWM at the offer, 2 PWM at 5.0 %, 3 steady low (R218, R230, R238). -/
def waveform (s : State) (o : Nat) : Nat :=
  let l := linkOf s o
  if s.sys.mode = .dormant ∨ s.sys.mode = .watch then 0
  else if s.owl.state ≠ .run ∨ (s.sys.mode = .limp ∧ limpMode s o = 0) then 3
  else if unlockedLock s o ∨ l.sup = .ended ∨ l.sup = .faulted ∨ l.trans then 0
  else if l.mode = 1 ∧ (offerOf s o).1 < 6000 then 0
  else l.mode

/-- Duty of an offered current in 0.1 % (R217). -/
def dutyOf (i : Nat) : Nat := if i ≤ 51000 then i / 60 else i / 250 + 640

/-- VLKo_DUTY.DUTY (R217, R240): 1,000 steady high, 0 steady low, 50 digital communication. -/
def dutyInForce (s : State) (o : Nat) : Nat :=
  match waveform s o with
  | 0 => 1000
  | 1 => dutyOf (offerOf s o).1
  | 2 => 50
  | _ => 0

/-- VLKo_DUTY.LIMIT (R217, R240): what set the offer; 4 where no current is offered by the duty (log 38). -/
def limitInForce (s : State) (o : Nat) : Nat := if waveform s o = 1 then (offerOf s o).2 else 4

/-- VLKo_STAT.PWM (R240). -/
def pwmOn (s : State) (o : Nat) : Bool := waveform s o == 1 || waveform s o == 2

/-! ## SLAC on and off (R230, R232) -/

/-- SLAC returns to OFF and the NMK is erased. -/
def slacOff (o : Nat) : State → State :=
  onLink o fun l => { l with slac := .off, nmk := none, runId := none, attenRun := none, attenSent := 0, window := none }

/-- SLAC may run: B, C or D at 5.0 % duty, the modem powered (R230, R232). -/
def slacAllowed (s : State) (o : Nat) : Bool :=
  let l := linkOf s o
  linked s o && s.sys.mode != .limp && s.mgt.therm != 4 && waveform s o == 2 && (l.cp == .b || l.cp == .c || l.cp == .d)

/-- Row 1 of R232, or the return to OFF. -/
def slacCheck (o : Nat) (s : State) : State :=
  if slacAllowed s o then
    (if (linkOf s o).slac = .off ∧ (linkOf s o).cp = .b then onLink o (fun l => { l with slac := .waitParm }) s else s)
  else if (linkOf s o).slac = .off then s else slacOff o s

/-- SLAC of every link, after a change that stops or starts 5.0 % duty on several. -/
def slacChecks (s : State) : State := (List.range 4).foldl (fun s o => slacCheck o s) s

end Sys2Proof.Machine
end

