-- ==== Sys2Proof/Machine/Protect.lean ====
section
/-! DEFINITION. What decides an output of the power path (R156, R163, R168, R185): trip latch, safe-state line, demand,
the state of a channel, the cable lock, and the levels of the fault comparators (R165, R166). -/

namespace Sys2Proof.Machine

/-! ## Latch, line and release (R168, R185, R156) -/

/-- FLT_TRIPLATCH: the union of what every latched cause holds. -/
def tripLatch (s : State) : Nat := s.owl.hold.foldl (fun m l => l.foldl Nat.lor m) 0

/-- The safe-state line is asserted (R185). -/
def safeLine (s : State) : Bool :=
  s.owl.state != .run || s.owl.watchdogBad || s.owl.oscBad || s.owl.supplyBad || s.sys.pfail

/-- The outlet of a contactor channel. -/
def contactorOutlet (s : State) (ch : Nat) : Option Nat := (s.str.cur.contactors.find? (·.channel == ch)).map (·.outlet)
/-- An outlet's contactor channels. -/
def contactorsOf (s : State) (o : Nat) : List Nat := (s.str.cur.contactors.filter (·.outlet == o)).map (·.channel)
/-- An outlet's gate-enable outputs. -/
def gatesOf (s : State) (o : Nat) : List Nat := (s.str.cur.gates.filter (·.outlet == o)).map (·.output)
/-- The outlet's outputs as bits of a trip mask. -/
def outputsOf (s : State) (o : Nat) : Nat := Nat.lor (contactorMask s.str.cur o) (gateMask s.str.cur o)
/-- The outlet of a cable-lock channel: SWITCH function 1. -/
def lockOutlet (s : State) (ch : Nat) : Option Nat := match switchRec s ch with
  | some x => if x.func = 1 then some x.outlet else none
  | none => none

/-- A channel exists (R154). -/
def chDeclared (s : State) (ch : Nat) : Bool := (switchRec s ch).isSome || (contactorOutlet s ch).isSome
/-- Supply group of a channel (R154). -/
def chGroup (ch : Nat) : Nat := ch / 4
/-- Rated current of a channel, mA (R154). -/
def chRated (ch : Nat) : Nat := if ch < 8 then 2000 else 5000
/-- Restart retries declared (R34, R161). -/
def chRetries (s : State) (ch : Nat) : Nat := match switchRec s ch with
  | some x => x.retries
  | none => 0

/-- A gate-enable output is active (R225): the release of its outlet and the supervisor's demand, no latch, no line. -/
def gateActive (s : State) (k : Nat) : Bool :=
  s.str.cur.gates.any (fun g => g.output == k && flag s.owl.released g.outlet && (linkOf s g.outlet).gate)
    && !bitAt (tripLatch s) (k + 4) && !safeLine s && s.owl.ran

/-! ## Demand (R156, R163) -/

/-- The limp-home map is active (R163). -/
def mapActive (s : State) : Bool := s.sys.mode != .dormant && (s.sys.mode == .limp || s.pwr.limpLow)

/-- LIMP_MAP entries asserted for a channel; bits that name a cable-lock channel are ignored (R164). -/
def limpEntries (s : State) (ch : Nat) : List LimpMapRec :=
  if (lockOutlet s ch).isSome then []
  else s.str.cur.limpMaps.filter fun l => bitAt l.mask ch && bitAt s.pwr.lhIn l.input

/-- The demand of a channel, row by row. -/
def demand (s : State) (ch : Nat) : Bool :=
  if chDeclared s ch = false then false
  else if 8 ≤ ch ∧ bitAt (tripLatch s) (ch - 8) then false
  else match contactorOutlet s ch with
    | some o => flag s.owl.released o && (chOf s ch).supDemand
    | none =>
      if s.sys.mode = .dormant then false
      else if (lockOutlet s ch).isSome then (chOf s ch).supDemand
      else if mapActive s ∧ limpEntries s ch ≠ [] then (limpEntries s ch).all (·.action != 2)
      else (chOf s ch).ctlOn

/-! ## Cable lock (R178 row 5) and channel changes -/

/-- The lock is lost: EV_LOCK_LOST, the pilot steady high and with it SLAC off (R218, R232). -/
def lockLost (o ch : Nat) (code : Nat) (s : State) : State :=
  slacCheck o (logEv .safety 0x08 o 0x080E [(1, o), (1, ch), (1, code)] (onLock o (fun l => { l with state := .lockLost }) s))

/-- Code of a channel state (R180). -/
def ChState.code : ChState → Nat
  | .absent => 0 | .off => 1 | .inrush => 2 | .on => 3 | .retryWait => 4 | .uvOff => 5 | .latched => 6 | .fault => 7

/-- The channel's output conducts. -/
def ChState.conducts : ChState → Bool
  | .inrush => true | .on => true
  | .absent => false | .off => false | .retryWait => false | .uvOff => false | .latched => false | .fault => false

/-- Row 5 of R178 on the channel's state: a LOCKED lock is lost when its channel does not conduct. -/
def lockWatch (ch : Nat) (s : State) : State :=
  match lockOutlet s ch with
  | some o =>
    if (lockOf s o).state = .locked ∧ (chOf s ch).state.conducts = false then lockLost o ch (chOf s ch).state.code s else s
  | none => s

/-- A measured output current, held at three times the rated current (R158). -/
def limited (ch : Nat) (cur : Int) : Int := min cur (3 * chRated ch : Nat)

/-- A channel takes a state; with its output off it carries no current (R180). -/
def setCh (ch : Nat) (st : ChState) (s : State) : State :=
  lockWatch ch (onCh ch (fun c => { c with state := st, cur := if st.conducts then c.cur else 0 }) s)

/-- Rows 4, 6 and 7 of R157 for the channel's demand; no output conducts before Owl's first RUN (R417). -/
def settleCh (ch : Nat) (s : State) : State :=
  let d := demand s ch
  match (chOf s ch).state with
  | .inrush => if d then s else setCh ch .off s
  | .on => if d then s else setCh ch .off s
  | .retryWait => if d then s else setCh ch .off s
  | .off => if d && s.owl.ran then setCh ch .inrush s else s
  | _ => s

/-- Every channel follows its demand. -/
def settleAll (s : State) : State := (List.range 12).foldl (fun s ch => settleCh ch s) s
/-- The contactor channels of an outlet follow their demand. -/
def settleContactors (o : Nat) (s : State) : State := (contactorsOf s o).foldl (fun s ch => settleCh ch s) s

/-- The supervisor's demand for the contactors of an outlet (R156 row 4). -/
def contactorDemand (o : Nat) (on : Bool) (s : State) : State :=
  settleContactors o ((contactorsOf s o).foldl (fun s ch => onCh ch (fun c => { c with supDemand := on }) s) s)

/-- The outlet's release, request and gate demand are given up, and its contactors follow. -/
def dropRelease (o : Nat) (s : State) : State :=
  let s := onOwl (fun b => { b with requested := put b.requested o false, released := put b.released o false }) s
  contactorDemand o false (onLink o (fun l => { l with gate := false }) s)

/-- Any contactor of the outlet is closed, or commanded to close. -/
def contactorClosed (s : State) (o : Nat) : Bool :=
  (contactorsOf s o).any fun ch => (chOf s ch).state.conducts || ((chOf s ch).supDemand && flag s.owl.released o)

/-- FLT_WELDo_STAT.HELD, kept by Owl's configuration (R177). -/
def held (s : State) (o : Nat) : Bool := flag s.owl.cfg.get.held o

/-- Every release and gate enable inactive: the safe-state line (R185). -/
def assertLine (s : State) : State :=
  settleAll (onOwl (fun b => { b with released := List.replicate 4 false }) s)

/-! ## Trips (R168, R189, R194) -/

/-- Sets entry (o, c) of a table kept per outlet and cause. -/
def putAt {α : Type} (l : List (List α)) (o c : Nat) (x : α) : List (List α) := upd l o (fun r => put r c x)

/-- Trip latch bits of a mask, held by cause `c` of every outlet whose outputs the mask names; the causes are recorded in the
proof record in the same cycle and in the configuration at the next Owl cycle (R195). -/
def latchTrip (c mask : Nat) (s : State) : State :=
  let hit (o : Nat) : Nat := Nat.land mask (outputsOf s o)
  let s := (List.range 4).foldl (fun s o =>
    if declared s o && hit o != 0 then
      onOwl (fun b => { b with
        causes := upd b.causes o (fun x => Nat.lor x (2 ^ c)),
        hold := upd b.hold o (fun l => upd l c (fun x => Nat.lor x (hit o))),
        lastTrue := putAt b.lastTrue o c (some s.ticks), cfgDirty := true }) s
    else s) s
  settleAll (onOwl (fun b => { b with proof := { b.proof with causes := List.zipWith Nat.lor b.proof.causes b.causes } }) s)

/-- FLT_TRIPSRC takes the first trip since the latch was wholly empty. -/
def recordSrc (kind inst level : Nat) (s : State) : State :=
  if s.flt.src.kind = 0 then onFlt (fun b => { b with src := { kind := kind, inst := inst, level := level } }) s else s

/-- The cause bit of a source kind (R211). -/
def kindCause : Nat → Nat
  | 1 => 0 | 2 => 1 | 3 => 2 | _ => 5

/-- Cause bit of a relation: guards by the guard's kind (R211). -/
def relationCause (s : State) (p : TripRec) : Nat :=
  if p.kind = 4 then 5 + ((guardRec s p.inst).map (·.kind)).getD 1 else kindCause p.kind

/-- Clears causes of an outlet with the latch bits they hold; the source registers empty with the last (R168, R211). -/
def clearCauses (o causes : Nat) (s : State) : State :=
  let s := onOwl (fun b => { b with
    causes := upd b.causes o (fun x => x - Nat.land x causes),
    tripped := b.tripped.filter fun p => !(bitAt causes (relationCause s p) && Nat.land p.mask (outputsOf s o) != 0),
    hold := upd b.hold o (fun l => l.mapIdx fun c x => if bitAt causes c then 0 else x),
    proof := { b.proof with causes := upd b.proof.causes o (fun x => x - Nat.land x causes) }, cfgDirty := true }) s
  let s := if bitAt causes 3 then onFlt (fun b => { b with rc := upd b.rc o fun r => { r with dcTrip := false } }) s else s
  let s := if bitAt causes 4 then onFlt (fun b => { b with rc := upd b.rc o fun r => { r with acTrip := false } }) s else s
  let s := if tripLatch s = 0 then onFlt (fun b => { b with src := { kind := 0, inst := 0, level := 0 } }) s else s
  let s := if s.owl.causes.all (· == 0) then onOwl (fun b => { b with src := { kind := 0, inst := 0, mask := 0 } }) s else s
  settleAll s

/-! ## Comparator levels (R165, R166) -/

/-- A comparator level: source kind, instance, threshold, delay and the union of its relations' masks. -/
structure Level where
  kind : Nat
  inst : Nat
  threshold : Int
  delay : Nat
  mask : Nat
  deriving DecidableEq, Repr, Inhabited

/-- The levels of a source in order: relations with equal threshold and delay share one. -/
def sourceLevels (t : Struct) (kinds : List Nat) (inst : Nat) : List Level :=
  (levelsOf t kinds inst).map fun l =>
    { kind := l.1, inst := inst, threshold := l.2.1, delay := l.2.2,
      mask := (t.trips.filter fun p => p.kind == l.1 && p.inst == inst && p.threshold == l.2.1 && p.delay == l.2.2).foldl
                (fun m p => Nat.lor m p.mask) 0 }

/-- Levels of a lane, k = 0–3. -/
def laneLevels (s : State) (n : Nat) : List Level := sourceLevels s.str.cur [1, 3] n
/-- Residual-step levels of an AC outlet, k = 0–1. -/
def residualLevels (s : State) (o : Nat) : List Level := sourceLevels s.str.cur [2] o

/-- floor(T × 32,767 / FS) for FS = N × √m with m = 1 or 8 (R52, R166), within 1 to 0x7FFF. -/
def codeOf (t n m : Nat) : Nat := max 1 (min 0x7FFF (isqrt (t * t * 32767 * 32767 / (m * n * n))))

/-- Full scale of a lane as N and m (R52): 2√2 × nominal or rated for AC, 2 × for DC. -/
def laneScale (s : State) (n : Nat) : Nat × Nat :=
  match laneRec s n with
  | some l => match outletRec s l.outlet with
    | some r => (max 1 (if l.qty = 2 then r.ratedMa else r.nomMv), if r.kind = 1 then 8 else 4)
    | none => (1, 8)
  | none => (1, 8)

/-- The code of a level (R166). -/
def levelCode (s : State) (l : Level) : Nat :=
  if l.kind = 2 then codeOf l.threshold.toNat 1000 1
  else let (n, m) := laneScale s l.inst; codeOf l.threshold.toNat n m

/-- A level on the fast path (R165). -/
def Level.fast (l : Level) : Bool := l.delay == 0

/-- The function whose levels a lane's fast tap meets: the one it carries, or the suspect's for a warming spare once its
filters are filled (R72 step 5, R166). -/
def tapFunction (s : State) (n : Nat) : Option Nat :=
  match s.lane.warm.find? (·.spare == n) with
  | some w => if warmStart ≤ w.age then some w.lane else none
  | none => if carrier s (functionOf s n) = n then some (functionOf s n) else none

end Sys2Proof.Machine
end

