-- ==== Sys2Proof/Machine/Supervisor.lean ====
section
/-! DEFINITION. The outlet supervisor (R215–R230): waveform changes, cable lock, the session sequence, pauses, the end of a
session and the entry into LIMP, as operations that the commands of several blocks share. -/

namespace Sys2Proof.Machine

/-! ## Waveform (R218) -/

/-- A requested MODE comes into force; between 1 and 2 through 3,000 ms of steady high (R218). -/
def enterMode (o m : Nat) (s : State) : State :=
  onLink o (fun l => { l with
    mode := m, trans := (l.trans && decide (l.mode = m)) || decide ((l.mode = 1 ∧ m = 2) ∨ (l.mode = 2 ∧ m = 1)) }) s

/-! ## State changes -/

/-- Code of a pilot state (R240). -/
def Cp.code : Cp → Nat
  | .none => 0 | .a => 1 | .b => 2 | .c => 3 | .d => 4 | .e => 5 | .f => 6 | .invalid => 7

/-- Code of a supervisor state (R240). -/
def Sup.code : Sup → Nat
  | .absent => 0 | .idle => 1 | .connected => 2 | .locking => 3 | .preparing => 4 | .closed => 5 | .paused => 6
  | .ended => 7 | .faulted => 8

/-- The supervisor takes a state, which may stop 5.0 % duty; Badger evaluates the mode (R374 rows 9, 10). -/
def setSup (o : Nat) (x : Sup) (s : State) : State := evalMode (slacCheck o (onLink o (fun l => { l with sup := x }) s))

/-- The pilot lets a session proceed: C, or D with VENT_OK, under an offer, and no validation runs (R223 row 3, R234); an
outlet without its link always (R215). -/
def ready (s : State) (o : Nat) : Bool :=
  let l := linkOf s o
  !linked s o || ((l.cp == .c || (l.cp == .d && l.ventOk)) && waveform s o != 0 && l.window.isNone)

/-! ## Lock requests (R178) -/

/-- The lock channel's demand. -/
def lockDemand (o : Nat) (on : Bool) (s : State) : State :=
  match lockChannel s o with
  | some ch => settleCh ch (onCh ch (fun c => { c with supDemand := on }) s)
  | none => s

/-- A lock request: failures clear, the channel's demand goes on, LOCKING; a feedback that reads locked locks at once. -/
def requestLock (o : Nat) (s : State) : State :=
  match lockChannel s o with
  | none => s
  | some ch =>
    if (lockOf s o).state = .locked then s
    else
      let s := lockDemand o true (onLock o (fun l => { l with state := .locking, second := false, pause := false }) s)
      if (lockOf s o).fb then lockWatch ch (onLock o (fun l => { l with state := .locked }) s) else s

/-- Row 1 of R178 refuses an unlock. -/
def unlockRefused (s : State) (o : Nat) : Bool := contactorClosed s o || held s o

/-- An unlock request: refused by row 1; else the channel goes off, and the lock is UNLOCKING until its feedback shows it. -/
def requestUnlock (o : Nat) (s : State) : State :=
  if unlockRefused s o || (lockChannel s o).isNone then s
  else
    let s := onLock o (fun l =>
      let l := { l with second := false, pause := false }
      match l.state with
      | .locked => { l with state := if l.fb then .unlocking else .unlocked }
      | .locking => { l with state := if l.fb then .unlocking else .unlocked }
      | _ => l) s
    slacCheck o (lockDemand o false s)

/-! ## The sequence (R225) -/

/-- Step 5: the release is requested, once the pilot is ready. -/
def requestRelease (o : Nat) (s : State) : State :=
  let go := ready s o
  let s := onLink o (fun l => { l with phase := .release, relTries := if go then 1 else 0, uvPause := l.uvPause && !go }) s
  if go then onOwl (fun b => { b with requested := put b.requested o true }) s else s

/-- Steps 3 and 4: with the pilot ready the metering session opens. -/
def advance (o : Nat) (s : State) : State :=
  let l := linkOf s o
  if ready s o = false then s
  else match l.sup, l.phase with
    | .preparing, .waitVehicle =>
      onMetOut o (fun m => { m with startDue := true })
        (onLink o (fun l => { l with phase := .waitStart, meterOpen := true }) s)
    | .preparing, .release => if flag s.owl.requested o || l.relTries != 0 then s else requestRelease o s
    | _, _ => s

/-- Step 2: LOCKED, or no lock to wait for. -/
def lockReached (o : Nat) (s : State) : State :=
  if (linkOf s o).sup = .locking then
    advance o (onLink o (fun l => { l with phase := .waitVehicle }) (setSup o .preparing s))
  else s

/-- Steps 1 and 2 of R225. -/
def runStart (o : Nat) (s : State) : State :=
  let s := onLink o (fun l => { l with
    startHeld := false, phase := .none, relTries := 0, preTries := 0, endCause := 0, ventSeen := false, session := 0,
    meterOpen := false, limpHit := false, uvPause := false, sessCap := cableCapacity l.ppCode }) s
  let s := requestLock o (setSup o .locking s)
  if unlockedLock s o then s else lockReached o s

/-- A WARREN_ACTIVATE or an accepted manifest activation runs (R42, R359). -/
def activating (s : State) : Bool := s.str.act.isSome || (s.upd.actBusy && !s.upd.act.rollback)

/-- A session start: held back while an activation runs (R42, R229, R359). -/
def startSession (o : Nat) (s : State) : State :=
  if activating s then onLink o (fun l => { l with startHeld := true }) s else runStart o s

/-- Steps 5 and following after the SESSION_START capture. -/
def afterCapture (o : Nat) (s : State) : State :=
  if (linkOf s o).phase = .waitStart ∧ (metOutOf s o).startDue = false then requestRelease o (onLink o (fun l => { l with relTries := 0 }) s)
  else s

/-- Steps 6 and 7: the release is granted, a DC outlet's gate enables go active, PRE_CLOSE begins. -/
def onGrant (o : Nat) (s : State) : State :=
  if (linkOf s o).phase = .release then
    onLink o (fun l => { l with phase := .preClose, gate := isDc s o, relTries := 0 }) s
  else s

/-- EV_VLK_SESSION: 0 close, 1 end. -/
def logSession (o kind cause : Nat) (s : State) : State :=
  logEv .service 0x0C o 0x0C01 [(1, o), (1, kind), (4, (linkOf s o).session), (1, cause)] s

/-- Step 8: the contactors close. -/
def closeContactors (o : Nat) (s : State) : State :=
  let s := contactorDemand o true (onLink o (fun l => { l with phase := .none, preTries := 0 }) s)
  logSession o 0 0 (setSup o .closed s)

/-! ## Opening and ending (R226, R227) -/

/-- POST_OPEN begins, for a pause or an end. -/
def beginPostOpen (o : Nat) (why : OpenReason) : State → State := onLink o fun l => { l with phase := .postOpen, why := why }

/-- The state after a session: FAULTED, IDLE with the lock opening on A, or ENDED (R221, R227). -/
def restState (o : Nat) (s : State) : State :=
  let l := linkOf s o
  if linked s o ∧ (l.cp = .e ∨ l.cp = .invalid ∨ l.faultHold ∨ l.faultUntilA) then setSup o .faulted s
  else if linked s o ∧ l.cp = .a then requestUnlock o (setSup o .idle s)
  else setSup o .ended s

/-- The contactor is reported open: SESSION_END falls due, EV_VLK_SESSION, and the session is over. -/
def closeSession (o : Nat) (s : State) : State :=
  let s := if (linkOf s o).meterOpen then onMetOut o (fun m => { m with endDue := some (linkOf s o).session }) s else s
  let s := logSession o 1 (linkOf s o).endCause s
  let s := onLink o (fun l => { l with phase := .none, meterOpen := false, session := 0, relTries := 0, preTries := 0,
                                       gate := false, sessCap := none }) s
  restState o s

/-- A session is ending: its outlet is being opened for good. -/
def Link.ending (l : Link) : Bool := (l.phase == .gateOff || l.phase == .postOpen) && l.why == .finish

/-- In LIMP no new session starts on an outlet in PREPAY_MASK without credit (R144). -/
def creditStops (s : State) (o : Nat) : Bool := s.sys.mode == .limp && s.bil.exhausted && bitAt (prepayMask s) o

/-- The conditions of VLK_START on the pilot and the supervisor (R239). -/
def Link.startable (l : Link) : Bool :=
  (l.sup == .connected || l.sup == .ended) && (l.cp == .b || l.cp == .c || l.cp == .d)

/-- In LIMP a connected outlet starts by itself, as if VLK_START had been accepted (R230): in mode 1, or in mode 2 after a
hit; without credit the start waits. -/
def limpStart (o : Nat) (s : State) : State :=
  let l := linkOf s o
  if s.sys.mode = .limp ∧ linked s o ∧ l.startable ∧ (limpMode s o = 1 ∨ (limpMode s o = 2 ∧ l.limpHit)) then
    if creditStops s o then onLink o (fun l => { l with startHeld := true }) s else startSession o s
  else s

/-- In LIMP with LIMP_MODE 1 or 2 the supervisor sets MODE 1 at LIMP_CURRENT (R230). -/
def limpPilot (o : Nat) (s : State) : State :=
  if s.sys.mode = .limp ∧ linked s o ∧ limpMode s o ≠ 0 then
    enterMode o 1 (onLink o (fun l => { l with reqMode := 1, reqCur := limpCurrent s o }) s)
  else s

/-- The end cause of LIMP entry: code 8 in events (log 8), apart from the reasons 0–255 of VLK_STOP. -/
def causeLimp : Nat := 256 + 8

/-- The session is over. One that LIMP entry ended, with the pilot at B, is followed by a new one under R230. -/
def finishSession (o : Nat) (s : State) : State :=
  let cause := (linkOf s o).endCause
  let s := closeSession o s
  if cause = causeLimp ∧ (linkOf s o).sup = .ended ∧ (linkOf s o).cp = .b then limpStart o (limpPilot o s) else s

/-- The session ends with a cause (log 8), the first one: AC opens at once; DC takes the gate enables off first; a session
whose contactors are open is over at once. -/
def endSession (o cause : Nat) (s : State) : State :=
  let l := linkOf s o
  if l.sup.active = false then onLink o (fun l => { l with startHeld := false }) s
  else
    let s := onLink o (fun l => { l with endCause := if l.ending then l.endCause else cause, startHeld := false }) s
    match l.sup, l.phase with
    | .closed, .none =>
      if isDc s o ∧ flag s.owl.released o then onLink o (fun l => { l with phase := .gateOff, why := .finish, gate := false }) s
      else beginPostOpen o .finish (dropRelease o s)
    | .closed, .postOpen => onLink o (fun l => { l with why := .finish }) s
    | .closed, .gateOff => onLink o (fun l => { l with why := .finish }) s
    | _, _ => finishSession o (dropRelease o s)

/-- A pause of a CLOSED outlet (R226): the contactor opens, POST_OPEN runs. -/
def pauseSession (o : Nat) (s : State) : State :=
  if (linkOf s o).sup = .closed ∧ (linkOf s o).phase = .none then beginPostOpen o .pause (dropRelease o s) else s

/-- A pause for a pilot state that leaves bit 10 clear (D not served): a DC outlet takes its gate enables off first (R227). -/
def pauseOrdered (o : Nat) (s : State) : State :=
  if isDc s o ∧ (linkOf s o).sup = .closed ∧ (linkOf s o).phase = .none ∧ flag s.owl.released o then
    onLink o (fun l => { l with phase := .gateOff, why := .pause, gate := false }) s
  else pauseSession o s

/-- A PAUSED outlet resumes with step 5 once the pilot is ready; after a supply pause, once its contactor channels are OFF
too (R226). -/
def tryResume (o : Nat) (s : State) : State :=
  let l := linkOf s o
  if l.sup = .paused ∧ (l.phase = .none ∨ (l.phase = .release ∧ l.relTries = 0)) ∧ ready s o
      ∧ (l.uvPause = false ∨ (contactorsOf s o).all (fun ch => (chOf s ch).state == .off)) then requestRelease o s
  else s

/-- The offer, the waveform or the validation window has changed: SLAC, and a session that waits for an offer (R225, R226). -/
def offerChanged (o : Nat) (s : State) : State := tryResume o (advance o (slacCheck o s))

/-! ## SLAC messages (R232, R234) -/

/-- Validation ends: the count goes out in CM_VALIDATE.CNF, a failure or the count (R234). -/
def endValidation (o : Nat) (failed : Bool) (s : State) : State :=
  let l := linkOf s o
  match l.window, l.attenRun with
  | some w, some r =>
    offerChanged o (onLink o (fun l => { l with
      slac := .sounding, window := none, validated := !failed && w.count == w.want,
      sent := some { kind := if failed then 6 else 5, runId := r, count := w.count, data := [] } }) s)
  | _, _ => s

/-- The pilot leaves C and D, or D is not served, before the contactors have closed: the request, the release and the gate
demand are cleared, and the sequence waits for the vehicle (R222, R225). -/
def withdrawRequest (o : Nat) (s : State) : State :=
  let s := dropRelease o s
  match (linkOf s o).phase with
  | .release => onLink o (fun l => { l with relTries := 0 }) s
  | .preClose => onLink o (fun l => { l with phase := .release, relTries := 0 }) s
  | .preCloseWait => onLink o (fun l => { l with phase := .release, relTries := 0 }) s
  | _ => s

/-- Supply pause (R161, R226): a contactor channel of the outlet has entered UV_OFF. -/
def supplyPause (o : Nat) (s : State) : State :=
  let s := contactorDemand o false s
  if (linkOf s o).sup = .closed then pauseSession o (onLink o (fun l => { l with uvPause := true }) s) else s

/-! ## LIMP (R230) -/

/-- An outlet that becomes CONNECTED in LIMP takes a hit that waits for it (R285). -/
def takeHit (o : Nat) (s : State) : State :=
  match s.tag.limpPend with
  | some h =>
    if s.sys.mode = .limp ∧ linked s o ∧ bitAt h.outlets o ∧ limpMode s o = 2 ∧ (linkOf s o).startable then
      onLink o (fun l => { l with limpHit := true }) (onTag (fun b => { b with limpPend := none }) s)
    else s
  | none => s

/-- B has been accepted: in LIMP the supervisor sets the waveform and may start by itself (R230, R285). -/
def acceptB (o : Nat) (s : State) : State := limpStart o (takeHit o (limpPilot o s))

/-- The supervisor is CONNECTED with B accepted. -/
def connect (o : Nat) (s : State) : State := acceptB o (setSup o .connected s)

/-- A start held back runs once nothing holds it any more (R42, R144, R229). -/
def releaseHeld (o : Nat) (s : State) : State :=
  let l := linkOf s o
  if l.startHeld ∧ activating s = false ∧ creditStops s o = false then
    (if l.sup.active then onLink o (fun l => { l with startHeld := false }) s else runStart o s)
  else s

/-- LIMP entry on one outlet. -/
def limpEnter (o : Nat) (s : State) : State :=
  if declared s o = false then s
  else if linked s o = false then endSession o causeLimp s
  else if limpMode s o = 0 then
    onLink o (fun l => { l with mode := 3, trans := false }) (endSession o causeLimp (slacOff o s))
  else
    let l := linkOf s o
    let s := slacOff o s
    if l.sup.active ∧ l.mode = 1 then
      onLink o (fun l => { l with reqCur := min l.reqCur (limpCurrent s o) }) s
    else
      let s := endSession o causeLimp s
      if (linkOf s o).cp = .b then acceptB o s else s

/-- LIMP entry: every supervisor acts for the application cluster (R230). -/
def limpEnterAll (s : State) : State := (List.range 4).foldl (fun s o => limpEnter o s) s

end Sys2Proof.Machine
end

