-- ==== Sys2Proof/Machine/Display.lean ====
section
/-! DEFINITION. The display engine and the status lights (R301–R320): waveform tables, temperature bands, updates, frames,
the legal region, the stop and recovery, and the LED channels. -/

namespace Sys2Proof.Machine

/-! ## Waveform tables (R304, R305) -/

def tblHz (t : Bytes) : Nat := byteAt 0x0C t
def tblBands (t : Bytes) : Nat := byteAt 0x0D t
def tblStates (t : Bytes) : Nat := byteAt 0x0E t
def tblVersion (t : Bytes) : Nat := leAt 8 4 t
def tblVh (t : Bytes) : Nat := leAt 0x22 2 t
/-- Band edge `b`, 0.1 °C. -/
def tblEdge (t : Bytes) (b : Nat) : Int := signedOf 16 (leAt (0x10 + 2 * b) 2 t)
/-- Data offset and frame count of a directory entry; old 4 is UNKNOWN. -/
def tblEntry (t : Bytes) (band old new : Nat) : Nat × Nat :=
  let a := 0x30 + 4 * ((band * 5 + old) * 4 + new)
  (leAt a 2 t, leAt (a + 2) 2 t)
/-- Code of a frame of the waveform at an offset. -/
def tblCode (t : Bytes) (off k : Nat) : Nat := byteAt (off + k / 4) t / 2 ^ (2 * (k % 4)) % 4
/-- POS less NEG frames among the first `n` frames of a waveform (R303, R313). -/
def tblNet (t : Bytes) (off n : Nat) : Int :=
  (List.range n).foldl (fun x k => if tblCode t off k = 1 then x + 1 else if tblCode t off k = 2 then x - 1 else x) 0

/-- The entries of a used band, with old and new below STATES, or old UNKNOWN. -/
def tblUsed (t : Bytes) : List (Nat × Nat × Nat) :=
  (List.range (tblBands t)).flatMap fun b => (List.range (tblStates t) ++ [4]).flatMap fun o =>
    (List.range (tblStates t)).map fun n => (b, o, n)

/-- Condition 1 of R305: the check word and the ranges. -/
def tblFields (t : Bytes) : Bool :=
  let n := leAt 6 2 t
  let edges := (List.range (tblBands t + 1)).map (tblEdge t)
  leAt 0 4 t == 0x57464D31 && leAt 4 2 t == 1 && n == t.length && inRange 0x2B4 16384 n && n % 4 == 0
    && leAt (n - 4) 4 t == crc32c (t.take (n - 4)) && inRange 50 100 (tblHz t) && inRange 1 8 (tblBands t)
    && (tblStates t == 2 || tblStates t == 4) && byteAt 0x0F t == 0
    && (edges.zip (edges.drop 1)).all (fun p => decide (p.1 < p.2))
    && ((List.range 9).filter (fun b => decide (tblBands t < b))).all (fun b => tblEdge t b == 0)
    && inRange 10000 15000 (tblVh t) && (slice 0x24 12 t).all (· == 0)

/-- The first condition of R305 that a table fails. -/
def tblFail (t : Bytes) : Option Nat :=
  let l := tblUsed t
  if tblFields t = false then some 1
  else if l.any (fun p => p.2.1 != p.2.2 && (tblEntry t p.1 p.2.1 p.2.2).2 == 0) then some 2
  else if l.any (fun p => let e := tblEntry t p.1 p.2.1 p.2.2
      e.2 != 0 && (decide (t.length - 4 < e.1 + (e.2 + 3) / 4) || decide (255 < e.2)
        || (List.range e.2).any fun k => tblCode t e.1 k == 3)) then some 3
  else if l.any (fun p => let e := tblEntry t p.1 p.2.1 p.2.2; tblNet t e.1 e.2 != 0) then some 4
  else none

/-- The display is declared (R302). -/
def epdThere (s : State) : Bool := blockBit s 9

/-- EV_EPD_TABLE: 1 accepted, 0 rejected. -/
def logTable (ok : Nat) (t : Bytes) (cond : Nat) : State → State :=
  logEv .service 0x11 0xFF 0x1101 [(1, ok), (4, tblVersion t), (1, cond)]

/-- A new table: rejected, or waiting for a frame boundary with no segment in flight (R305). With none in force no frame runs,
and it serves at once (DEDUCED, log 19). -/
def offerTable (t : Bytes) (s : State) : State :=
  match tblFail t with
  | some c => logTable 0 t c s
  | none =>
    logTable 1 t 0 (onEpd (fun b => if b.table.isNone then { b with table := some t } else { b with tablePend := some t }) s)

/-! ## Temperature bands (R306) -/

/-- EPD_TEMP was written within the last 60 s. -/
def tempFresh (s : State) : Bool := within s s.epd.tempTick 60000
/-- The firmware value serves. -/
def tempFirmware (s : State) : Bool := s.epd.tsrc && tempFresh s
/-- Six times the temperature that counts, 0.1 °C. -/
def temp6 (s : State) : Int := if tempFirmware s then 6 * s.epd.temp else s.mgt.temps.foldl (· + ·) 0

/-- The band of a temperature: the present band is left only 1.0 °C beyond its edge; none lies outside every band. -/
def bandOf (t : Bytes) (present : Option Nat) (x : Int) : Option Nat :=
  let stay := present.any fun b => decide (b < tblBands t) && decide (6 * tblEdge t b - 60 < x)
    && decide (x < 6 * tblEdge t (b + 1) + 60)
  if stay then present
  else (List.range (tblBands t)).find? fun b => decide (6 * tblEdge t b ≤ x) && decide (x < 6 * tblEdge t (b + 1))

/-- Evaluates the band; EV_EPD_TEMP once per onset of TEMP_RANGE. -/
def evalBand (s : State) : State :=
  match s.epd.table with
  | none => s
  | some t => match bandOf t (if s.epd.tempRange then none else some s.epd.band) (temp6 s) with
    | some b => onEpd (fun e => { e with band := b, tempRange := false }) s
    | none =>
      if s.epd.tempRange then s
      else
        let x := openQuot (freeBit s) (temp6 s) 6
        bump (logEv .service 0x11 0xFF 0x1102 [(2, unsignedOf 16 x), (1, if tempFirmware s then 1 else 0)]
          (onEpd (fun e => { e with tempRange := true }) s))

/-- EPD_TEMP_WRITE (R306). -/
def epdTempWrite (w : Nat) (s : State) : State :=
  if epdThere s then evalBand (onEpd (fun b => { b with temp := signedOf 16 w, tempTick := some s.ticks }) s) else s

def execEpdTempWrite (w : Word) (s : State) : Host.Outcome State Fault Refusal := .next (epdTempWrite w.toNat s)

/-! ## Segments and requests (R307–R309) -/

def segOf (s : State) (i : Nat) : Segment := s.epd.segs.getD i Segment.fresh
def onSeg (i : Nat) (f : Segment → Segment) : State → State := onEpd fun b => { b with segs := upd b.segs i f }
/-- In flight: a waveform runs, or follows at the next boundary. -/
def Segment.flying (g : Segment) : Bool := g.run.isSome || g.next != []
/-- Segments in flight. -/
def flyingCount (s : State) : Nat := (s.epd.segs.filter Segment.flying).length

/-- One segment of a request is accounted for: finished, or (`replaced`) its target was replaced. The last one completes the
request, with the number replaced as its result. -/
def settleReq (id : Option Nat) (replaced : Bool) (s : State) : State :=
  match id.bind fun i => s.epd.reqs.find? (·.id == i) with
  | none => s
  | some q =>
    let q := { q with left := q.left - 1, replaced := if replaced then q.replaced + 1 else q.replaced }
    let s := onEpd (fun b => { b with superseded := if replaced then satInc 8 b.superseded else b.superseded }) s
    if q.left = 0 then
      let s := onEpd (fun b => { b with reqs := b.reqs.filter (·.id != q.id) }) s
      match q.req with
      | some r => post r stsOk 0 (leBytes 4 q.replaced) s
      | none => s
    else onEpd (fun b => { b with reqs := b.reqs.map fun x => if x.id = q.id then q else x }) s

/-- A target for one segment (R309): an earlier waiting target is replaced; an equal one needs no drive. -/
def aim (full : Bool) (id : Nat) (s : State) (p : Nat × Nat) : State :=
  let g := segOf s p.1
  let s := match g.pend with
    | some old => settleReq (some old.2.2) true (onSeg p.1 (fun g => { g with pend := none }) s)
    | none => s
  if g.flying = false ∧ full = false ∧ g.state = some p.2 then settleReq (some id) false s
  else onSeg p.1 (fun g => { g with pend := some (p.2, full, id) }) s

/-- The region's record. -/
def regionRec (s : State) (r : Nat) : Option RegionRec := s.str.cur.regions.find? (·.region == r)

/-- A request for a region's segments, in record order. -/
def acceptUpdate (req : Option Req) (segs : List Nat) (full : Bool) (targets : List Nat) (s : State) : State :=
  let id := s.epd.nextReq
  let s := onEpd (fun b => { b with nextReq := id + 1, reqs := b.reqs ++ [{ id := id, req := req, left := segs.length + 1, replaced := 0 }] }) s
  settleReq (some id) false ((segs.zip targets).foldl (aim full id) s)

/-- The 2-bit targets, LSB first. -/
def targetsOf (n : Nat) (b : Bytes) : List Nat := (List.range n).map fun i => byteAt (i / 4) b / 2 ^ (2 * (i % 4)) % 4

/-- No table serves, or the temperature lies outside every band. -/
def epdRefuses (s : State) : Bool := s.epd.table.isNone || s.epd.tempRange

/-- EPD_UPDATE (R308): with no table in force the targets are not tested against STATES. In LIMP the engine serves the host
and the metrology core (R318); a request of the application cluster gets STS_STATE (DEDUCED, log 19). -/
def execEpdUpdate (r : Req) (region flags : Nat) (targets : Bytes) (s : State) : Host.Outcome State Fault Refusal :=
  let s := if epdThere s then evalBand s else s
  let segs := ((regionRec s region).map (·.segs)).getD []
  let n := segs.length
  let tl := targetsOf n targets
  .next (guarded r [(!epdThere s || (regionRec s region).isNone, stsAbsent),
      (decide (targets.length ≠ 4 * ((n + 15) / 16)) || s.epd.table.any (fun t => tl.any fun x => decide (tblStates t ≤ x)), stsLengthRange),
      (region == 15 || (s.sys.mode == .limp && r.side == .cluster), stsState)]
    (fun s => if epdRefuses s then postSts r stsState (onEpd (fun b => { b with tempRef := satInc 8 b.tempRef }) s)
      else acceptUpdate (some r) segs (bitAt flags 0) tl (pend r s)) s)

/-! ## Frames (R303, R305, R309, R312) -/

/-- Frames run: declared, on, EN, a table, not stopped, a powered mode with the display (R318). -/
def framesRun (s : State) : Bool :=
  epdThere s && s.epd.on && s.epd.en && s.epd.table.isSome && !s.epd.stopped && s.sys.mode != .watch && s.sys.mode != .dormant

/-- One frame completed on a segment; a completed waveform changes the state and serves its request. -/
def frameDone (t : Bytes) (s : State) (i : Nat) : State :=
  let g := segOf s i
  match g.run with
  | some (.wave old new band k) =>
    if k + 1 < (tblEntry t band old new).2 then onSeg i (fun g => { g with run := some (.wave old new band (k + 1)) }) s
    else
      let s := onSeg i (fun g => { g with run := none, state := some new, req := if g.next = [] then none else g.req }) s
      if g.next = [] then settleReq g.req false s else s
  | some (.comp pos n o w b k) => onSeg i (fun g => { g with run := if n ≤ 1 then none else some (.comp pos (n - 1) o w b k) }) s
  | none => s

/-- The band of a waveform that starts now (R306); recovery, which serves no request, redraws in the band at restart (R313). -/
def waveBand (t : Bytes) (req : Option Nat) (s : State) : Nat :=
  match req, s.epd.recBand with
  | none, some b => if b < tblBands t then b else s.epd.band
  | _, _ => s.epd.band

/-- Starts a waveform; one without frames is complete at once. -/
def startWave (t : Bytes) (i old new : Nat) (rest : List Nat) (req : Option Nat) (s : State) : State :=
  if (tblEntry t (waveBand t req s) old new).2 = 0 then
    let s := onSeg i (fun g => { g with run := none, state := some new, next := rest, req := if rest = [] then none else req }) s
    if rest = [] then settleReq req false s else s
  else onSeg i (fun g => { g with run := some (.wave old new (waveBand t req s) 0), next := rest, req := req }) s

/-- What a segment with no waveform running starts at a boundary. -/
def startSeg (t : Bytes) (s : State) (i : Nat) : State :=
  let g := segOf s i
  let old := g.state.getD 4
  if g.run.isSome then s
  else match g.next, g.pend with
    | n :: rest, _ => startWave t i old n rest g.req s
    | [], some (x, full, id) =>
      let s := onSeg i (fun g => { g with pend := none }) s
      if full then startWave t i 4 0 [x] (some id) s
      else if g.state = some x then settleReq (some id) false s
      else startWave t i old x [] (some id) s
    | [], none => s

/-- The journal entry of a segment: the waveform in flight and its frames completed. A segment still being compensated keeps
its waveform, with the most frames, up to those it had, whose net impulse is the one not yet compensated, so that a stop
leaves zero net DC (DEDUCED from R313, log 19). -/
def journalOf (t : Bytes) (s : State) (i : Nat) : Option (Nat × Nat × Nat × Nat × Nat) :=
  match (segOf s i).run with
  | some (.wave old new band k) => some (i, k, old, new, band)
  | some (.comp pos n old new band k) =>
    let due : Int := if pos then -(n : Int) else n
    let j := ((List.range (k + 1)).reverse.find? fun j => tblNet t (tblEntry t band old new).1 j == due).getD k
    some (i, j, old, new, band)
  | none => none

/-- The journal of this boundary (R312). -/
def keepJournal (t : Bytes) (clean : Bool) (s : State) : State :=
  let entry := journalOf t s
  onEpd (fun b => { b with journal := some { ok := true, frames := b.frames, entries := (List.range 160).filterMap entry, clean := clean } }) s

/-- Frames completed on every segment. -/
def framesDone (t : Bytes) (s : State) : State :=
  (List.range 160).foldl (frameDone t) (onEpd (fun b => { b with frames := (b.frames + 1) % 2 ^ 32 }) s)

/-- A waiting table takes effect at a boundary at which no waveform runs (R305). -/
def takeTable (s : State) : State :=
  if s.epd.segs.any (·.run.isSome) then s
  else onEpd (fun b => match b.tablePend with
    | some n => { b with table := some n, tablePend := none }
    | none => b) s

/-- EPD_FRAME (R303–R309): a frame boundary. No waveform starts out of every band, or while a table waits (R305, R306). -/
def execEpdFrame (s : State) : Host.Outcome State Fault Refusal :=
  .next (match s.epd.table with
    | none => s
    | some t =>
      if framesRun s = false ∨ s.sys.pfail then s
      else
        let s := evalBand (framesDone t (onEpd (fun b => { b with run := true }) s))
        let s := takeTable s
        let t := s.epd.table.getD t
        let s := if s.epd.tempRange ∨ s.epd.tablePend.isSome then s
          else (List.range 160).foldl (startSeg t) (onEpd (fun b => { b with recBand := some (b.recBand.getD b.band) }) s)
        keepJournal t false (onEpd (fun b => { b with recovery := b.recovery && b.segs.any fun g => g.flying && g.req.isNone }) s))

/-! ## Legal region (R310, R95) -/

/-- Segments a–g of a digit, the usual seven-segment shapes (PRESUMED); 10 is blank. -/
def digitShape (d : Nat) : List Bool :=
  ([[true, true, true, true, true, true, false], [false, true, true, false, false, false, false],
    [true, true, false, true, true, false, true], [true, true, true, true, false, false, true],
    [false, true, true, false, false, true, true], [true, false, true, true, false, true, true],
    [true, false, true, true, true, true, true], [true, true, true, false, false, false, false],
    [true, true, true, true, true, true, true], [true, true, true, true, false, true, true]]).getD d (List.replicate 7 false)

/-- Ten digits of a number, with zeros before position `keep` blank. -/
def tenDigits (keep v : Nat) : List Nat :=
  let d := (List.range 10).map fun i => v / 10 ^ (9 - i) % 10
  (List.range 10).map fun i => if i < keep ∧ (d.take (i + 1)).all (· == 0) then 10 else at0 d i

/-- The 76 segments of an item: digits, decimal point, outlet indicators, seal indicator. -/
def legalSegs (digits : List Nat) (point : Bool) (outlet : Option Nat) (lit : Bool) : List Nat :=
  (digits.flatMap digitShape ++ [point] ++ (List.range 4).map (fun o => outlet == some o) ++ [lit]).map fun b => if b then 3 else 0

/-- The legal display value of an outlet in Wh (R95). -/
def legalWh (s : State) (o : Nat) : Nat := at0 (metOutOf s o).acc 8 / 2 ^ 16 % displayMod / 1000

/-- The targets of the next item: each declared outlet in ascending order, then the seal counter. -/
def legalTargets (s : State) : List Nat :=
  match (outletList s)[s.epd.legalItem]? with
  | some o => legalSegs (tenDigits 6 (legalWh s o)) true (some o) false
  | none => legalSegs (tenDigits 9 (s.str.sealCnt % 10 ^ 10)) false none true

/-- LEGAL_DWELL (R310): refused for temperature or for want of a table, it tries again at the next dwell. -/
def execLegalDwell (s : State) : Host.Outcome State Fault Refusal :=
  .next (match regionRec s 15 with
    | none => s
    | some g =>
      if epdThere s = false ∨ s.met.run = false ∨ s.sys.mode = .watch ∨ s.sys.mode = .dormant ∨ s.epd.stopped then s
      else
        let s := evalBand s
        if epdRefuses s then onEpd (fun b => { b with tempRef := satInc 8 b.tempRef }) s
        else
          let n := (outletList s).length
          onEpd (fun b => { b with legalItem := if n ≤ b.legalItem then 0 else b.legalItem + 1 })
            (acceptUpdate none g.segs false (legalTargets s) s))

/-! ## Stop and recovery (R311, R313) -/

/-- EPD_STOP (R311): after a warning the frame in progress ends, and the journal is marked CLEAN. An engine that runs no
frame, for want of a table or of EN, has only the journal to mark. -/
def execEpdStop (s : State) : Host.Outcome State Fault Refusal :=
  .next (if (epdThere s && s.epd.on && !s.epd.stopped && s.sys.mode != .watch && s.sys.mode != .dormant) = false
      ∨ s.sys.pfail = false then s
      else
        let t := s.epd.table.getD []
        let s := keepJournal t true (if framesRun s then framesDone t s else s)
        let n := flyingCount s
        let s := logEv .power 0x11 0xFF 0x1103 [(1, n), (4, s.epd.frames)] s
        onSys (fun b => { b with holdLast := { b.holdLast with done := Nat.lor b.holdLast.done 8 } })
          (onEpd (fun b => { b with stopped := true, run := false, stops := satInc 8 b.stops }) s))

/-- Recovery of one journalled segment: |N| frames of the opposite code, the clear, the redraw. -/
def recoverSeg (t : Bytes) (s : State) (e : Nat × Nat × Nat × Nat × Nat) : State :=
  let n := tblNet t (tblEntry t e.2.2.2.2 e.2.2.1 e.2.2.2.1).1 e.2.1
  onSeg e.1 (fun g => { g with
    state := none, run := if n = 0 then none else some (.comp (decide (n < 0)) n.natAbs e.2.2.1 e.2.2.2.1 e.2.2.2.2 e.2.1), next := [0, e.2.2.2.1], pend := none,
    req := none }) s

/-- Every segment is UNKNOWN and at rest. -/
def unknownAll : State → State := onEpd fun b => { b with segs := List.replicate 160 Segment.fresh }

/-- The first start of the engine after a reset (R313). The journal's table has been loaded from its bank; with none, what was
in flight stands at the state it had (log 19). -/
def startEpd (s : State) : State :=
  if epdThere s = false then s
  else
    let s := evalBand (onEpd (fun b => { b with on := true, run := false, stopped := false, frames := 0 }) s)
    let s := onEpd (fun b => { b with recBand := if b.tempRange ∨ b.table.isNone then none else some b.band }) s
    match s.epd.journal with
    | none => unknownAll s
    | some j =>
      if j.ok = false then logEv .service 0x11 0xFF 0x1105 [(1, 2)] (unknownAll s)
      else match j.entries, s.epd.table with
        | _ :: _, some t =>
          let s := logEv .service 0x11 0xFF 0x1104 [(1, j.entries.length), (1, if j.clean then 1 else 0)]
            (onEpd (fun b => { b with recoveries := satInc 8 b.recoveries, recovery := true }) s)
          j.entries.foldl (recoverSeg t) s
        | _, _ => s

/-- A write of EPD_CTL (R319): LEGAL_DWELL outside 2–60 keeps its value. -/
def epdCtlWrite (w : Nat) (s : State) : State :=
  if epdThere s then
    onEpd (fun b => { b with legalDwell := if inRange 2 60 (field w 23 16) then field w 23 16 else b.legalDwell,
                             tsrc := bitAt w 1, en := bitAt w 0 }) s
  else s

/-! ## Crack loop (R314) -/

/-- A measurement: after three consecutive OPEN or SHORT ones EPD_CRACK sets the flag and EV_EPD_CRACK is logged, once for
each flag. Without a display there is no panel edge to measure (DEDUCED, log 19). -/
def crackMeasure (ohms : Nat) (follows : Bool) (s : State) : State :=
  if epdThere s = false then s else
  let bad := !follows || decide (2000 < ohms)
  let s := onEpd (fun b => { b with crackOhms := min 0xFFFF ohms, crackBad := if bad then min 3 (b.crackBad + 1) else 0 }) s
  if s.epd.crackBad < 3 then s
  else if (!follows && s.epd.crackShort) || (follows && s.epd.crackOpen) then s
  else
    logEv .security 0x11 0xFF 0x1106 [(1, if follows then 0 else 1), (2, min 0xFFFF ohms)]
      (onEpd (fun b => { b with crack := true, crackShort := b.crackShort || !follows, crackOpen := b.crackOpen || follows }) s)

/-! ## LEDs (R315–R318) -/

def ledRec (s : State) (n : Nat) : Option LedRec := s.str.cur.leds.find? (·.channel == n)
def ledOf (s : State) (n : Nat) : Led := s.epd.leds.getD n Led.fresh
def onLed (n : Nat) (f : Led → Led) : State → State := onEpd fun b => { b with leds := upd b.leds n f }
/-- A channel with a hardware pattern: role 1 or 2. -/
def ledHw (s : State) (n : Nat) : Bool := (ledRec s n).any fun l => l.role == 1 || l.role == 2
/-- LEDs run in the present mode. -/
def ledsOn (s : State) : Bool := s.sys.mode != .watch && s.sys.mode != .dormant

/-- State of an outlet as OWL_OUTo_STAT.STATE shows it (R211): 0 absent, 1 UNPROVEN, 2 BLOCKED, 3 READY, 4 RELEASED, 5 TRIPPED. -/
def outletState (s : State) (o : Nat) : Nat :=
  let w := at0 s.owl.withhold o
  if declared s o = false then 0
  else if bitAt w 2 then 5
  else if bitAt w 1 then 1
  else if w - Nat.land w 0x606 ≠ 0 then 2
  else if flag s.owl.released o then 4
  else 3

/-- Pattern and step time of a hardware channel (R317). On an outlet without a vehicle link the rows stand with their Owl
conditions alone, the READY of the fifth among them (DEDUCED, log 19). -/
def hwPattern (s : State) (l : LedRec) : Nat × Nat :=
  let st := outletState s l.outlet
  let v := linked s l.outlet
  let sup := (linkOf s l.outlet).sup
  if l.role = 1 then
    if st = 5 ∨ (v ∧ sup = .faulted) then (0x55555555, 2)
    else if st = 1 ∨ st = 2 then (1, 3)
    else if v ∧ sup = .closed then (0xFFFFFFFF, 0)
    else if v ∧ (sup = .connected ∨ sup = .locking ∨ sup = .preparing ∨ sup = .paused) then (0xFFFF, 2)
    else if st = 3 ∧ (!v || sup == .idle) then (3, 3)
    else (0, 0)
  else if s.owl.state ≠ .run then (0xFFFFFFFF, 0)
  else if (outletList s).any (fun o => outletState s o == 5) ∨ s.sys.mode = .limp then (0x55555555, 3)
  else (0, 0)

/-- Pattern and step time in force on a channel. -/
def ledPattern (s : State) (n : Nat) : Nat × Nat := match ledRec s n with
  | some l => if ledHw s n then hwPattern s l else ((ledOf s n).pat, (ledOf s n).step)
  | none => (0, 0)

/-- The channel is lit. -/
def ledLit (s : State) (n : Nat) : Bool :=
  (ledRec s n).isSome && ledsOn s && !(ledOf s n).overTemp && bitAt (ledPattern s n).1 (at0 s.epd.ledStep (ledPattern s n).2)

/-- LED_STEP (R316): the counter that the channels of a step time share. -/
def execLedStep (step : Nat) (s : State) : Host.Outcome State Fault Refusal :=
  .next (if ledsOn s ∧ step < 4 then
    onEpd (fun b => { b with ledStep := put b.ledStep step ((at0 b.ledStep step + 1) % 32) }) s
    else s)

/-- LED_OPEN (R315): logged at the onset. -/
def execLedOpen (ch : Nat) (isOpen : Bool) (s : State) : Host.Outcome State Fault Refusal :=
  .next (match ledRec s ch with
    | none => s
    | some l =>
      let was := (ledOf s ch).isOpen
      let s := onLed ch (fun x => { x with isOpen := isOpen }) s
      if isOpen && !was then logEv .service 0x11 ch 0x1107 [(1, ch), (1, l.role)] s else s)

/-- LED_OVERTEMP (R315). -/
def execLedOvertemp (ch : Nat) (hot : Bool) (s : State) : Host.Outcome State Fault Refusal :=
  .next (if (ledRec s ch).isSome then onLed ch (fun x => { x with overTemp := hot }) s else s)

/-- Writes of EPD_LEDn_CTL and EPD_LEDn_PAT (R317, R319): ignored on a hardware channel. -/
def ledCtlWrite (n w : Nat) (s : State) : State :=
  if (ledRec s n).isSome && !ledHw s n then onLed n (fun l => { l with dim := field w 23 16, step := field w 5 4 }) s else s
def ledPatWrite (n w : Nat) (s : State) : State :=
  if (ledRec s n).isSome && !ledHw s n then onLed n (fun l => { l with pat := w }) s else s

/-- The display refuses PREPARE (R318): a segment in flight or pending, or recovery. -/
def epdBusy (s : State) : Bool := epdThere s && (s.epd.recovery || s.epd.segs.any fun g => g.flying || g.pend.isSome)

end Sys2Proof.Machine
end

