-- ==== Sys2Proof/Machine/Owl.lean ====
section
/-! DEFINITION. Owl (R182–R203): its state, the permission table, guard inputs and proof, supervised trips, their clearing,
diagnostics, the safety password and the change log. -/

namespace Sys2Proof.Machine

/-! ## Safety configuration and change log (R199, R203) -/

def owlCfg (s : State) : OwlCfg := s.owl.cfg.get
/-- Owl writes its configuration to the other copy. -/
def onCfg (f : OwlCfg → OwlCfg) : State → State := onOwl fun b => { b with cfg := b.cfg.change f }

/-- The safety section in use. -/
def safetySection (s : State) : Bytes :=
  if s.str.copyInUse = 0 then [] else imgSection (copyOf s (s.str.copyInUse - 1)).bytes 2
/-- First 4 bytes of its digest (R193). -/
def safeDigest (s : State) : Bytes := (Config.sha384 (safetySection s)).take 4

/-- Code of a side in the change log and in OWL_PW (R203, R211). -/
def sideCode : Side → Nat
  | .host => 1 | .cluster => 2

/-- A change-log entry (R203), its CRC last, mirrored as EV_SAFETY_CHANGE. -/
def changeEntry (kind source old new : Nat) (digOld digNew : Bytes) (s : State) : State :=
  let n := s.owl.logSeq + 1
  let b := leBytes 4 n ++ leBytes 1 kind ++ leBytes 1 source ++ zeros 2 ++ leBytes 8 (nowTs s) ++ leBytes 4 old
    ++ leBytes 4 new ++ fit 16 digOld ++ fit 16 digNew ++ zeros 4
  let s := onOwl (fun x => { x with logSeq := n, log := ((b ++ leBytes 4 (crc32c b)) :: x.log).take 256 }) s
  logEv .safety 0x0A 0xFF 0x0A0A [(4, n), (1, kind), (1, source)] s

/-- Marks copies of the configuration bad and treats them by R200: one is rewritten from the other; with both lost every
outlet is HELD, with no verifier, no connection and no history. -/
def cfgCheck (badA badB : Bool) (s : State) : State :=
  if badA ∧ badB then
    let s := onOwl (fun b => { b with cfg := Twin.both { OwlCfg.fresh with held := List.replicate 4 true }, cfgLost := true,
                                      session := none, cfgDirty := true, diag := Nat.lor b.diag (2 ^ 11),
                                      efd := b.efd.map fun c => { c with state := .off, lastSeq := 0, safeWord := 0 } }) s
    changeEntry 8 3 0 0 [] [] (logEv .safety 0x0A 0xFF 0x0A09 [(1, 2)] s)
  else if badA ∨ badB then
    let s := onOwl (fun b => { b with cfg := if badA then { b.cfg with a := b.cfg.b } else { b.cfg with b := b.cfg.a } }) s
    logEv .safety 0x0A 0xFF 0x0A09 [(1, if badA then 0 else 1)] s
  else s

/-! ## Guards and proof (R191–R193) -/

/-- Guard inputs whose outlet mask includes an outlet. -/
def guardsOf (s : State) (o : Nat) : Nat :=
  (s.str.cur.guards.filter (fun g => bitAt g.mask o)).foldl (fun m g => Nat.lor m (2 ^ g.input)) 0

/-- Bits of `a` not in `b`. -/
def minus (a b : Nat) : Nat := a - Nat.land a b

/-- Guard inputs that read open count as seen: the proof record is written in the same cycle. -/
def seeGuards (s : State) : State :=
  onOwl (fun b => { b with proof := { b.proof with seen := Nat.lor b.proof.seen b.guardOpen },
                           need := b.need.map (fun n => minus n b.guardOpen) }) s

/-- Each outlet whose guards have all been seen leaves UNPROVEN: EV_GUARD_PROVEN. -/
def prove (s : State) : State :=
  (outletList s).foldl (fun s o =>
    if flag s.owl.unproven o ∧ at0 s.owl.need o = 0 then
      logEv .safety 0x0A o 0x0A06 [(1, o), (1, s.owl.proof.seen)] (onOwl (fun b => { b with unproven := put b.unproven o false }) s)
    else s) s

/-! ## Supervised relations (R174, R189) -/

/-- The ISOLATION condition of an outlet against a threshold (R174). -/
def isoTrue (s : State) (o : Nat) (threshold : Int) : Bool :=
  let m := s.flt.iso.getD o Iso.fresh
  match m.state with
  | .unknown => true
  | .valid => decide ((m.riso : Int) < threshold)
  | _ => false

/-- The condition of a supervised relation, the relation at place `i` of the TRIP records. -/
def relationTrue (s : State) (i : Nat) (p : TripRec) : Bool :=
  if p.kind = 4 then bitAt s.owl.guardOpen p.inst
  else if p.kind = 5 then isoTrue s p.inst p.threshold
  else s.flt.supTrue.contains i

/-- The relation has tripped, and no clearing since has taken its cause from an outlet its mask hits. -/
def latched (s : State) (p : TripRec) : Bool := s.owl.tripped.contains p

/-- A supervised trip: OWL_TRIPSRC, EV_SUP_TRIP, the latch bits of the mask. -/
def supTrip (p : TripRec) (value : Int) (s : State) : State :=
  let s := if s.owl.src.kind = 0 then onOwl (fun b => { b with src := { kind := p.kind, inst := p.inst, mask := p.mask } }) s else s
  let s := logEv .safety 0x0A 0xFF 0x0A03 [(1, p.kind), (1, p.inst), (1, p.mask), (4, unsignedOf 32 value)] s
  latchTrip (relationCause s p) p.mask (onOwl (fun b => { b with tripped := b.tripped ++ [p] }) s)

/-- The fast tap of the RESIDUAL lane of an outlet less its low-pass, in 2^−32 of a tap unit. -/
def residualStep (s : State) (o : Nat) : Int :=
  match s.str.cur.lanes.find? fun l => l.role == 1 && l.outlet == o && l.qty == 3 with
  | some l => (laneOf s (carrier s l.lane)).tap * 2 ^ 32 - (s.flt.rc.getD o Residual.fresh).base
  | none => 0

/-- The value a trip reports in its source's unit: mA or mV of the fast tap of `lane`, where it meets the relation's levels, mA of the residual step, the open level, RISO in
Ω. The rounding of a tap's value is open (log 18). -/
def relationValue (up : Bool) (s : State) (lane : Nat) (p : TripRec) : Int :=
  match p.kind with
  | 2 => openQuot up (residualStep s p.inst * 1000) (2 ^ 32 * 32767)
  | 4 => 1
  | 5 => (s.flt.iso.getD p.inst Iso.fresh).riso
  | _ =>
    let w := (laneOf s (if tapFunction s lane = some p.inst then lane else carrier s p.inst)).tap
    let (n, m) := laneScale s p.inst
    let v : Int := openSqrt up (w.natAbs * w.natAbs * n * n * m) (32767 * 32767)
    if w < 0 then -v else v

/-- GUARD and ISOLATION relations of delay 0 trip when true and not yet latched. -/
def immediateTrips (s : State) : State :=
  s.str.cur.trips.zipIdx.foldl (fun s x =>
    if 4 ≤ x.1.kind ∧ x.1.delay = 0 ∧ relationTrue s x.2 x.1 ∧ latched s x.1 = false then supTrip x.1 (relationValue false s x.1.inst x.1) s
    else s) s

/-- SUPERVISED_DELAY_EXPIRY (R189): the relation's condition has held for its delay. -/
def execSupervisedDelayExpiry (trip lane : Nat) (s : State) : Host.Outcome State Fault Refusal :=
  .next (match s.str.cur.trips[trip]? with
    | some p =>
      if s.owl.state = .run ∧ p.delay ≠ 0 ∧ relationTrue s trip p ∧ latched s p = false then
        supTrip p (relationValue (freeBit s) s lane p) (bump s)
      else s
    | none => s)

/-! ## Permission (R186, R187) -/

/-- Bit 11: a receive connection of the outlet is not VALID, or its SAFE_WORD has INHIBIT or PEER_FAULT set. -/
def efdomHolds (s : State) (o : Nat) : Bool :=
  (List.range 8).any fun c =>
    let r := (owlCfg s).efdom.getD c default
    let k := s.owl.efd.getD c EfdomConn.fresh
    r.dir == 1 && bitAt r.mask o && (k.state != .valid || k.safeWord % 4 != 0)

/-- WITHHOLD of an outlet, bit by bit. -/
def withholdOf (s : State) (o : Nat) : Nat :=
  let chs := contactorsOf s o
  flagAt (safeLine s) 0
    + flagAt (flag s.owl.unproven o) 1
    + flagAt (Nat.land (tripLatch s) (outputsOf s o) != 0 || at0 s.owl.causes o != 0) 2
    + flagAt (held s o) 3
    + flagAt (!flag s.owl.weldSeen o) 4
    + flagAt (chs.any fun ch => (chOf s ch).openOff) 5
    + flagAt (chs.any fun ch => (chOf s ch).state == .fault || (chOf s ch).state == .latched) 6
    + flagAt (failedLane s o) 7
    + flagAt ((!flag s.owl.meterOk o || flag s.owl.meterLost o) && !unbilled s o) 8
    + flagAt (unlockedLock s o) 9
    + flagAt (linked s o && !((linkOf s o).cp == .c || (linkOf s o).cp == .d)) 10
    + flagAt (efdomHolds s o) 11
    + flagAt s.owl.pfail 12

/-- OWL_OUTo_STAT.WITHHOLD of every declared outlet. -/
def refreshWithhold (s : State) : State :=
  let w := (List.range 4).map fun o => if declared s o then withholdOf s o else 0
  onOwl (fun b => { b with withhold := w }) s

/-- Owl withdraws a release (R187): the request is cleared, and the session ends. -/
def withdraw (o : Nat) (s : State) : State :=
  let s := logEv .safety 0x0A o 0x0A05 [(1, o), (2, at0 s.owl.withhold o)] s
  let s := onOwl (fun b => { b with released := put b.released o false, requested := put b.requested o false }) s
  endSession o 5 (settleContactors o s)

/-- One outlet's request and release against WITHHOLD: withdrawn, granted, or refused and not kept. -/
def decideRelease (o : Nat) (s : State) : State :=
  let w := at0 s.owl.withhold o
  if flag s.owl.released o then (if w = 0 then s else withdraw o s)
  else if flag s.owl.requested o then
    if w = 0 then onGrant o (onOwl (fun b => { b with released := put b.released o true }) s)
    else onOwl (fun b => { b with requested := put b.requested o false }) s
  else s

/-- A latched or cleared cause, or a counted clearing, goes into the configuration (R195). -/
def writeCauses (s : State) : State :=
  if s.owl.cfgDirty then
    onOwl (fun b => { b with cfgDirty := false }) (onCfg (fun c => { c with causes := s.owl.causes }) s)
  else s

/-- Owl's evaluation while in RUN. -/
def owlEvaluate (s : State) : State :=
  let s := refreshWithhold (prove (immediateTrips (seeGuards s)))
  let s := (outletList s).foldl (fun s o => decideRelease o s) s
  let s := refreshWithhold (writeCauses s)
  (outletList s).foldl (fun s o => releaseHeld o s) s

/-- The permission table evaluated: each 1 ms, and at every change of a hardwired input (R186). -/
def owlReact (s : State) : State := if s.owl.state = .run then owlEvaluate s else refreshWithhold s

/-- OWL_CYCLE (R186, R189). -/
def execOwlCycle (s : State) : Host.Outcome State Fault Refusal := .next (owlReact s)

/-- METER_OK_TIMEOUT (R98): Owl withholds billed outlets by bit 8. -/
def execMeterOkTimeout (outlet : Nat) (s : State) : Host.Outcome State Fault Refusal :=
  .next (onOwl (fun b => { b with meterLost := put b.meterLost outlet true }) s)

/-! ## Guard events (R191) -/

/-- GUARD_INPUT_CHANGE (R191, R192). -/
def execGuardInputChange (input : Nat) (isOpen : Bool) (s : State) : Host.Outcome State Fault Refusal :=
  .next (if (guardRec s input).isSome then
    owlReact (onOwl (fun b =>
      if isOpen then { b with guardOpen := Nat.lor b.guardOpen (2 ^ input) }
      else { b with guardOpen := minus b.guardOpen (2 ^ input), guardDis := minus b.guardDis (2 ^ input) }) s)
    else s)

/-- GUARD_DISAGREE (R191): the input counts as open; logged at the onset. -/
def execGuardDisagree (input levels : Nat) (s : State) : Host.Outcome State Fault Refusal :=
  .next (if (guardRec s input).isSome ∧ bitAt s.owl.guardDis input = false then
    let s := onOwl (fun b => { b with guardOpen := Nat.lor b.guardOpen (2 ^ input), guardDis := Nat.lor b.guardDis (2 ^ input) }) s
    owlReact (logEv .safety 0x0A 0xFF 0x0A07 [(1, input), (1, levels)] s)
    else s)

/-! ## Clearing (R194) -/

/-- The place of a relation's own level among the levels of its source (R165). -/
def levelIx (ls : List Level) (p : TripRec) : Option Nat :=
  ls.findIdx? fun l => l.kind == p.kind && l.threshold == p.threshold && l.delay == p.delay

/-- The relation's own level was at or above its code at the last word. -/
def levelAbove (s : State) (p : TripRec) : Bool :=
  if p.kind = 2 then (levelIx (residualLevels s p.inst) p).any fun k => s.flt.rcAbove.contains (p.inst, k)
  else (levelIx (laneLevels s p.inst) p).any fun k => s.flt.above.any fun y => y.2 == k && tapFunction s y.1 == some p.inst

/-- The condition of a latched cause is still true; a level must have been false for 100 ms. -/
def causeTrue (s : State) (o c : Nat) : Bool :=
  let hits (m : Nat) : Bool := Nat.land m (outputsOf s o) != 0
  let recent := within s ((s.owl.lastTrue.getD o []).getD c none) 100
  if c < 3 then
    recent || s.str.cur.trips.any fun p => p.kind == c + 1 && hits p.mask && levelAbove s p
  else if c < 5 then
    let r := s.flt.rc.getD o Residual.fresh
    !(decide (r.idc.natAbs < 3000) && decide (r.iac < 15000))
  else s.str.cur.trips.zipIdx.any fun x =>
    hits x.1.mask && relationCause s x.1 == c && (x.1.kind == 4 || x.1.kind == 5) && relationTrue s x.2 x.1

/-- Every contactor channel of the outlet is OFF. -/
def contactorsOff (s : State) (o : Nat) : Bool := (contactorsOf s o).all fun ch => (chOf s ch).state == .off

/-- Counted clearings of the last 24 h. -/
def autoclr (s : State) (o : Nat) : Nat := at0 (owlCfg s).autoclr o

/-- Causes of an outlet out of a list of bits. -/
def causesAmong (s : State) (o : Nat) (bits : List Nat) : Nat :=
  bits.foldl (fun m c => if bitAt (at0 s.owl.causes o) c then m + 2 ^ c else m) 0

/-- Clears causes by a row of R194: EV_TRIP_CLEAR. -/
def clearByRow (o causes row : Nat) (s : State) : State :=
  if causes = 0 then s
  else logEv .safety 0x0A o 0x0A04 [(1, o), (2, causes), (1, row), (1, autoclr s o)] (clearCauses o causes s)

/-- Counts a clearing by row 3. -/
def countClear (o : Nat) : State → State := onCfg fun c => { c with autoclr := upd c.autoclr o (· + 1) }

/-- Clearable causes: condition no longer true. -/
def clearable (s : State) (o : Nat) (bits : List Nat) : Nat := causesAmong s o (bits.filter fun c => !causeTrue s o c)

/-- TRIP_AUTOCLEAR (R194 rows 2, 3). -/
def execTripAutoclear (outlet row : Nat) (s : State) : Host.Outcome State Fault Refusal :=
  .next (if s.owl.state = .run ∧ declared s outlet ∧ contactorsOff s outlet then
    if row = 2 then clearByRow outlet (clearable s outlet [6, 7]) 2 s
    else if row = 3 ∧ linked s outlet ∧ (linkOf s outlet).cp = .a ∧ autoclr s outlet < 3 then
      let k := clearable s outlet [0, 1, 2, 3, 4, 5]
      if k = 0 then s else clearByRow outlet k 3 (countClear outlet s)
    else s
    else s)

/-- AUTOCLR_EXPIRY (R194): a counted clearing is 24 h old. -/
def execAutoclrExpiry (outlet : Nat) (s : State) : Host.Outcome State Fault Refusal :=
  .next (onCfg (fun c => { c with autoclr := upd c.autoclr outlet (· - 1) }) s)

/-- The clearing of OWL_TRIP_CLEAR, row by row. -/
def clearAll (r : Req) (o : Nat) (s : State) : State :=
  let open' := hasSession s r.side
  let row4 := decide (3 ≤ autoclr s o)
  let s := clearByRow o (causesAmong s o [8]) 1 s
  let s := clearByRow o (causesAmong s o [6, 7]) 2 s
  let k := causesAmong s o [0, 1, 2, 3, 4, 5]
  let s := if k = 0 then s
    else if row4 then clearByRow o k 4 s
    else clearByRow o k 3 (if open' then s else countClear o s)
  if open' then changeEntry 7 (sideCode r.side) o 0 [] [] s else s

/-- OWL_TRIP_CLEAR (R194, R210): every latched cause of the outlet together, or none. -/
def execOwlTripClear (r : Req) (outlet : Nat) (s : State) : Host.Outcome State Fault Refusal :=
  let k := at0 s.owl.causes outlet
  let row4 := causesAmong s outlet [0, 1, 2, 3, 4, 5] != 0 && decide (3 ≤ autoclr s outlet)
  .next (guarded r (outletChecks s outlet ++ [(s.key.lc == .retired, stsLifecycle), (row4 && !hasSession s r.side, stsAuthFail),
      (k == 0 || (List.range 9).any (fun c => bitAt k c && causeTrue s outlet c) || !contactorsOff s outlet, stsState)])
    (fun s => postSts r stsOk (clearAll r outlet s)) s)

/-! ## State (R184, R185, R195, R196) -/

/-- Code of Owl's state (R211). -/
def OwlState.code : OwlState → Nat
  | .start => 0 | .run => 1 | .safe => 2 | .halt => 3 | .off => 0

/-- EV_OWL_STATE. -/
def logOwlState (old new : OwlState) (row : Nat) (s : State) : State :=
  logEv .safety 0x0A 0xFF 0x0A01 [(1, old.code), (1, new.code), (1, row)] s

/-- Owl leaves RUN: the line drops every release, and the sessions end with it (R185, R187, R227). -/
def lineDrop (s : State) : State :=
  let s := refreshWithhold s
  let s := (outletList s).foldl (fun s o => if flag s.owl.released o then withdraw o s else s) s
  slacChecks (assertLine (onOwl (fun b => { b with requested := List.replicate 4 false }) s))

/-- A failed diagnostic (R184 rows 4–6). -/
def diagFail (diag detail : Nat) (s : State) : State :=
  let old := s.owl.state
  let again := if old = .start then s.owl.startFailed else within s (s.owl.diagTick.getD diag none) 3600000
  let s := logEv .safety 0x0A 0xFF 0x0A02 [(1, diag), (1, detail)] s
  let s := onOwl (fun b => { b with
    diag := Nat.lor b.diag (2 ^ diag), diagTick := put b.diagTick diag (some s.ticks),
    startFailed := b.startFailed || decide (old = .start), state := if again then .halt else .safe,
    oscBad := b.oscBad || decide (diag = 4), supplyBad := b.supplyBad || decide (diag = 5) }) s
  lineDrop (if again then logOwlState old .halt 5 s else s)

/-- The safety configuration at load, and when diagnostic 11 falls due (R196, R200): one bad copy is repaired; with both lost
the diagnostic has failed. -/
def cfgDiag (badA badB : Bool) (detail : Nat) (s : State) : State :=
  let s := cfgCheck badA badB s
  if badA && badB then diagFail 11 detail s else s

/-- OWL_DIAG_FAIL (R196): in START or RUN; diagnostic 11 fails with both copies of the configuration; a hardware monitor's
fault holds the line in any state. -/
def execOwlDiagFail (diag detail : Nat) (s : State) : Host.Outcome State Fault Refusal :=
  .next (if (s.owl.state = .start ∨ s.owl.state = .run) ∧ diag < 12 then
      (if diag = 11 then cfgDiag true true detail s else diagFail diag detail s)
    else onOwl (fun b => { b with oscBad := b.oscBad || decide (diag = 4), supplyBad := b.supplyBad || decide (diag = 5) }) s)

/-- OWL_PERIODIC_DIAG (R196): in RUN. Diagnostic 11 repairs one bad copy of the configuration (detail bit 0 copy A, bit 1
copy B) and fails with both (R200). -/
def execOwlPeriodicDiag (diag : Nat) (pass : Bool) (detail : Nat) (s : State) : Host.Outcome State Fault Refusal :=
  .next (if s.owl.state = .run ∧ diag < 12 then
    if pass then onOwl (fun b => { b with oscBad := b.oscBad && decide (diag ≠ 4), supplyBad := b.supplyBad && decide (diag ≠ 5) }) s
    else if diag = 11 then cfgDiag (bitAt detail 0) (bitAt detail 1) detail s
    else diagFail diag detail s
    else s)

/-- OWL_WATCHDOG_EXPIRY (R185): the line is asserted, and diagnostic 3 has failed. -/
def execOwlWatchdogExpiry (s : State) : Host.Outcome State Fault Refusal :=
  .next (if s.owl.state = .start ∨ s.owl.state = .run then diagFail 3 0 (onOwl (fun b => { b with watchdogBad := true }) s)
    else s)

/-- A reset of Owl's domain: its SRAM is wiped; proof record, configuration and trip latch stay. -/
def owlRestart (b : OwlBlock) : OwlBlock :=
  { b with state := .start, watchdogBad := false, released := List.replicate 4 false, requested := List.replicate 4 false,
           meterOk := List.replicate 4 false, meterLost := List.replicate 4 true, session := none, tripped := [],
           efd := b.efd.map fun c => { c with state := .off, lastSeq := 0, safeWord := 0, inRow := 0, discards := 0,
                                              watchdog := 0, sent := 0 } }

/-- OWL_SAFE_TIMEOUT (R184 row 7). -/
def execOwlSafeTimeout (s : State) : Host.Outcome State Fault Refusal :=
  .next (if s.owl.state = .safe then
    let s := onSys (fun b => { b with domOwl := satInc 8 b.domOwl }) (onOwl owlRestart s)
    logOwlState .safe .start 7 s
    else s)

/-! ## Start (R184 row 3, R193, R195) -/

/-- The proof record counts as empty (R193). -/
def proofEmpty (s : State) : Bool := !s.owl.proof.ok || s.owl.proof.safeDigest != safeDigest s

/-- The outputs that a restored cause holds: those its relations of the structure name, else all of the outlet. -/
def causeOutputs (s : State) (o c : Nat) : Nat :=
  let m := (s.str.cur.trips.filter fun p => relationCause s p == c).foldl (fun m p => Nat.lor m p.mask) 0
  let h := Nat.land m (outputsOf s o)
  if h = 0 then outputsOf s o else h

/-- Restores the latched causes beside those latched in START, their latch bits, and the proof (R195, R192). -/
def owlRestore (s : State) : State :=
  let empty := proofEmpty s
  let causes := List.zipWith Nat.lor (if empty then (owlCfg s).causes else s.owl.proof.causes) s.owl.causes
  let hold := (List.range 4).map fun o => (List.range 9).map fun c =>
    let h := (s.owl.hold.getD o []).getD c 0
    if bitAt (at0 causes o) c && h == 0 then causeOutputs s o c else h
  let seen := if empty then 0 else s.owl.proof.seen
  onOwl (fun b => { b with
    causes := causes, hold := hold, cfgDirty := b.cfgDirty || b.cfg.get.causes != causes,
    proof := { ok := true, seen := seen, causes := causes, safeDigest := safeDigest s },
    need := (List.range 4).map fun o => minus (guardsOf s o) seen,
    unproven := (List.range 4).map (fun o => declared s o && (empty || minus (guardsOf s o) seen != 0)) }) s

/-- State of a connection as Owl enters RUN, or as it is set (R204, R207, R208). -/
def startConn (s : State) (r : EfdomRec) (c : EfdomConn) : EfdomConn :=
  let there := match r.transport with
    | 1 => blockBit s 6 | 2 => blockBit s 7 | 3 => blockBit s 5 | 4 => blockBit s 4 | _ => false
  let c := { c with inRow := 0, discards := 0, safeWord := 0, sent := 0 }
  if r.dir = 0 ∨ there = false then { c with state := .off, lastSeq := 0 }
  else if r.dir = 1 then { c with state := .wait, lastSeq := 0, watchdog := r.watchdog }
  else { c with state := .tx, lastSeq := 0 }

/-- Cold-start POST_OPEN, and the lock of a HELD outlet (R176, R178). -/
def startOutlet (o : Nat) (s : State) : State :=
  let s := if flag s.owl.weldSeen o then s else if (linkOf s o).phase = .none then beginPostOpen o .cold s else s
  if held s o then requestLock o s else s

/-- OWL_START_COMPLETE (R184 row 3): causes restored, then RUN. -/
def execOwlStartComplete (s : State) : Host.Outcome State Fault Refusal :=
  .next (if s.owl.state = .start then
    let s := owlRestore s
    let s := onOwl (fun b => { b with
      state := .run, ran := true, oscBad := false, supplyBad := false, watchdogBad := false,
      efd := b.efd.mapIdx fun c x => startConn s (b.cfg.get.efdom.getD c default) x }) s
    let s := logOwlState .start .run 3 s
    let s := (outletList s).foldl (fun s o => startOutlet o s) s
    let s := settleAll s
    refreshWithhold ((outletList s).foldl (fun s o => offerChanged o s) s)
    else s)

/-! ## Password (R201, R202, R210) -/

/-- A lockout runs. -/
def lockedOut (s : State) : Bool := (owlCfg s).lockEnd.any fun t => decide (s.ticks < t)

/-- A password matches the verifier. -/
def pwMatches (s : State) (pw : Bytes) : Bool := (owlCfg s).verifier.any fun v => Config.pbkdf2 v.salt pw == v.hash

/-- A counted failure: EV_PW_FAIL, and from the fifth a lockout, doubled at each further one. -/
def pwFail (r : Req) (s : State) : State :=
  let n := satInc 8 (owlCfg s).fails
  let s := logEv .security 0x0A 0xFF 0x0A0B [(1, (sideCode r.side)), (1, n)] (onCfg (fun c => { c with fails := n }) s)
  if 5 ≤ n then
    let len := if (owlCfg s).lockLen = 0 then 60 else min 3600 (2 * (owlCfg s).lockLen)
    logEv .security 0x0A 0xFF 0x0A0C [(1, (sideCode r.side)), (2, len)]
      (onCfg (fun c => { c with lockLen := len, lockEnd := some (s.ticks + msTicks (1000 * len)) }) s)
  else s

/-- A success sets the count to 0. -/
def pwSuccess : State → State := onCfg fun c => { c with fails := 0, lockLen := 0, lockEnd := none }

def retired (s : State) : Bool := s.key.lc == .retired

/-- OWL_PW_PROVE (R202, R210). -/
def execOwlPwProve (r : Req) (pw : Bytes) (s : State) : Host.Outcome State Fault Refusal :=
  .next (guarded r [(!inRange 8 64 pw.length, stsLengthRange), (retired s, stsLifecycle),
      ((owlCfg s).verifier.isNone || lockedOut s, stsAuthFail)]
    (fun s => if pwMatches s pw then
        postSts r stsOk (onOwl (fun b => { b with session := some { side := r.side, endTick := s.ticks + msTicks 600000 } }) (pwSuccess s))
      else postSts r stsAuthFail (pwFail r s)) s)

/-- The new verifier: a fresh salt and its derivation. -/
def setVerifier (new : Bytes) (s : State) : State :=
  let salt := freeBytes s 16
  bump (onCfg (fun c => { c with verifier := some { salt := salt, hash := Config.pbkdf2 salt new } }) s)

/-- OWL_PW_SET (R210). -/
def execOwlPwSet (r : Req) (old new : Bytes) (s : State) : Host.Outcome State Fault Refusal :=
  let has := (owlCfg s).verifier.isSome
  .next (guarded r [(decide (64 < old.length) || !inRange 8 64 new.length, stsLengthRange), (retired s, stsLifecycle),
      (lockedOut s, stsAuthFail)]
    (fun s => if has ∧ pwMatches s old = false then postSts r stsAuthFail (pwFail r s)
      else postSts r stsOk (changeEntry (if has then 3 else 2) (sideCode r.side) 0 0 [] [] (setVerifier new (pwSuccess s)))) s)

/-- OWL_PW_END (R210). -/
def execOwlPwEnd (r : Req) (s : State) : Host.Outcome State Fault Refusal :=
  .next (guarded r [(retired s, stsLifecycle), (!hasSession s r.side, stsState)]
    (fun s => postSts r stsOk (onOwl (fun b => { b with session := none }) s)) s)

/-- SAFETY_SESSION_EXPIRY (R202). -/
def execSafetySessionExpiry (s : State) : Host.Outcome State Fault Refusal :=
  .next (onOwl (fun b => { b with session := none }) s)

/-- PW_LOCKOUT_END (R202): the next failure still doubles the lockout. -/
def execPwLockoutEnd (s : State) : Host.Outcome State Fault Refusal := .next (onCfg (fun c => { c with lockEnd := none }) s)

/-- OWL_LOG_READ (R203, R210). -/
def execOwlLogRead (r : Req) (index : Nat) (s : State) : Host.Outcome State Fault Refusal :=
  let e := s.owl.log.getD index []
  .next (guarded r [(decide (s.owl.log.length ≤ index), stsLengthRange), (leAt 60 4 e != crc32c (e.take 60), stsIntegrity)]
    (fun s => post r stsOk 0 e s) s)

end Sys2Proof.Machine
end

