-- ==== Sys2Proof/Machine/Efdom.lean ====
section
/-! DEFINITION. Efdom safe frames (R204–R209): frame layout and check, the receive rows, the transmit side, the watchdog
and the connection records. -/

namespace Sys2Proof.Machine

/-- FCRC (R206). -/
def fcrc (bs : Bytes) : Nat := Nat.xor (crcMsb 32 0x741B8CD7 0xFFFFFFFF bs) 0xFFFFFFFF

/-- Connection record `c` in the configuration, and the connection. -/
def connRec (s : State) (c : Nat) : EfdomRec := (owlCfg s).efdom.getD c default
def connOf (s : State) (c : Nat) : EfdomConn := s.owl.efd.getD c EfdomConn.fresh
def onConn (c : Nat) (f : EfdomConn → EfdomConn) : State → State := onOwl fun b => { b with efd := upd b.efd c f }

/-- Code of a connection state (R211). -/
def EfdomState.code : EfdomState → Nat
  | .off => 0 | .wait => 1 | .sync => 2 | .valid => 3 | .tx => 4

/-- A connection takes a state with EV_EFD_STATE; the cause is the row of R209, or 0 for the watchdog (log 8). -/
def setConn (c : Nat) (st : EfdomState) (cause : Nat) (s : State) : State :=
  let old := (connOf s c).state
  logEv .safety 0x0A 0xFF 0x0A0D [(1, c), (1, old.code), (1, st.code), (1, cause)] (onConn c (fun x => { x with state := st }) s)

/-- Receive connections set on a transport. -/
def receivers (s : State) (transport : Nat) : List Nat :=
  (List.range 8).filter fun c => (connRec s c).dir == 1 && (connRec s c).transport == transport && (connOf s c).state != .off

/-! ## Receiving (R209) -/

/-- A discard of rows 10 and 11; the fourth in a row sends the connection to WAIT. -/
def staleDiscard (c : Nat) : State → State := onConn c fun x =>
  if 4 ≤ x.discards + 1 then { x with seqErr := satInc 8 x.seqErr, discards := 0, state := .wait, inRow := 0 }
  else { x with seqErr := satInc 8 x.seqErr, discards := x.discards + 1 }

/-- A frame is accepted: SEQ, SAFE_WORD and the watchdog (R208). -/
def acceptFrame (c seq safe expect : Nat) (s : State) : State :=
  onConn c (fun x => { x with lastSeq := seq, safeWord := safe, discards := 0, watchdog := min expect (connRec s c).watchdog }) s

/-- Rows 6–13 for the frame of connection `c`. -/
def receiveOn (c : Nat) (f : Bytes) (s : State) : State :=
  let x := connOf s c
  let kind := byteAt 2 f
  let seq := leAt 4 4 f
  let expect := leAt 0x18 2 f
  let safe := leAt 0x1C 4 f
  let d := (seq + (2 ^ 32 - 1) - x.lastSeq % (2 ^ 32 - 1)) % (2 ^ 32 - 1)
  let fmt (s : State) : State := onConn c (fun x => { x with fmt := satInc 8 x.fmt }) s
  if inRange 10 1000 expect = false then fmt s
  else if x.state = .wait ∧ kind = 2 then fmt s
  else if x.state = .wait then
    setConn c .sync 8 (onConn c (fun x => { x with inRow := 1 }) (acceptFrame c seq safe expect s))
  else if d = 0 then onConn c (fun x => { x with repeats := satInc 8 x.repeats }) s
  else if 2 ^ 31 ≤ d then
    staleDiscard c (logEv .safety 0x0A 0xFF 0x0A0F [(1, c), (4, seq), (4, x.lastSeq)] s)
  else if 16 < d then staleDiscard c s
  else if 2 ≤ d then
    onConn c (fun x => { x with lost := satAdd 8 x.lost (d - 1), inRow := 1 }) (acceptFrame c seq safe expect s)
  else
    let s := onConn c (fun x => { x with inRow := x.inRow + 1 }) (acceptFrame c seq safe expect s)
    if x.state = .sync ∧ 2 ≤ x.inRow + 1 then setConn c .valid 13 s else s

/-- Row 1: the sizes and the padding. -/
def efdomSized (p : Bytes) : Bool :=
  let n := byteAt 3 p
  inRange 32 64 p.length && inRange 4 32 n && n % 4 == 0 && decide (32 + n ≤ p.length) && (p.drop (32 + n)).all (· == 0)

/-- Row 2. -/
def efdomFormat (p : Bytes) : Bool := byteAt 0 p == 0xEF && byteAt 1 p == 1 && inRange 1 2 (byteAt 2 p)

/-- Counts a frame that names no connection on one of the transport's receive connections; which one the spec leaves open
(a free choice among them). -/
def countAnon (transport : Nat) (f : EfdomConn → EfdomConn) (s : State) : State :=
  match receivers s transport with
  | [] => s
  | l => bump (onConn (l.getD (freeNat s % l.length) 0) f s)

/-- EFDOM_FRAME_RECEIVE (R209). -/
def efdomReceive (transport : Nat) (p : Bytes) (s : State) : State :=
  let n := byteAt 3 p
  if s.owl.state ≠ .run then s
  else if efdomSized p = false then countAnon transport (fun x => { x with len := satInc 8 x.len }) s
  else if efdomFormat p = false then countAnon transport (fun x => { x with fmt := satInc 8 x.fmt }) s
  else if beNat (slice (0x1C + n) 4 p) ≠ fcrc (p.take (0x1C + n)) then countAnon transport (fun x => { x with crc := satInc 8 x.crc }) s
  else if leAt 0x10 8 p ≠ s.ident.deviceId then countAnon transport (fun x => { x with addr := satInc 8 x.addr }) s
  else match (receivers s transport).find? fun c => (connRec s c).peer == leAt 8 8 p with
    | some c => receiveOn c p s
    | none =>
      let s := countAnon transport (fun x => { x with addr := satInc 8 x.addr }) s
      if within s s.owl.masqTick 60000 then s
      else logEv .safety 0x0A 0xFF 0x0A0E [(1, transport), (8, leAt 8 8 p)] (onOwl (fun b => { b with masqTick := some s.ticks }) s)

def execEfdomFrameReceive (transport : Nat) (payload : Bytes) (s : State) : Host.Outcome State Fault Refusal :=
  .next (efdomReceive transport payload s)

/-- EFDOM_WATCHDOG_EXPIRY (R208). -/
def execEfdomWatchdogExpiry (conn : Nat) (s : State) : Host.Outcome State Fault Refusal :=
  .next (if (connOf s conn).state = .sync ∨ (connOf s conn).state = .valid then
    setConn conn .wait 0 (onConn conn (fun x => { x with timeouts := satInc 8 x.timeouts, inRow := 0 }) s)
    else s)

/-! ## Transmitting (R207) -/

/-- The SAFE_WORD sent. -/
def safeWordOf (s : State) : Nat :=
  let stop := s.str.cur.guards.any (fun g => g.kind == 3 && bitAt s.owl.guardOpen g.input) || s.owl.causes.any (bitAt · 8)
  flagAt stop 0 + flagAt s.owl.cfgLost 1
    + (List.range 4).foldl (fun m o => m + flagAt (flag s.owl.released o) (4 + o) + flagAt (at0 s.owl.causes o != 0) (8 + o)) 0

/-- The next frame of a transmit connection, without padding. -/
def efdomFrame (s : State) (c seq : Nat) : Bytes :=
  let r := connRec s c
  let kind := if (connOf s c).sent % 64 = 0 then 1 else 2
  let b := leBytes 1 0xEF ++ leBytes 1 1 ++ leBytes 1 kind ++ leBytes 1 4 ++ leBytes 4 seq ++ leBytes 8 s.ident.deviceId
    ++ leBytes 8 r.peer ++ leBytes 2 (2 * r.period) ++ zeros 2 ++ leBytes 4 (safeWordOf s)
  b ++ beBytes 4 (fcrc b)

/-- Owl's queue for a medium takes a frame while it holds fewer than 4 (R253). -/
def queue4 (f : Bytes) (l : List Bytes) : List Bytes := if l.length < 4 then l ++ [f] else l

/-- The CAN FD frame of an Efdom frame, as a frame record (R205, R408): the configured identifier and format, FDF, the data
padded to the next permitted length. Whether its data phase switches the bit rate is open. -/
def efdomCan (brs : Bool) (addr : Nat) (f : Bytes) : Bytes :=
  leBytes 4 (addr % 2 ^ 29 + flagAt (bitAt addr 31) 29 + 2 ^ 31) ++ leBytes 1 48 ++ leBytes 1 (flagAt brs 0) ++ zeros 2 ++ fit 48 f

/-- The Ethernet frame of an Efdom frame (R205): the configured destination, EtherType 0x88B5, padded to 60 bytes. -/
def efdomEther (addr : Nat) (f : Bytes) : Bytes := beBytes 6 addr ++ fit 6 Config.ownMac ++ beBytes 2 0x88B5 ++ fit 46 f

/-- Hands a frame to its transport (R205). -/
def handOver (r : EfdomRec) (f : Bytes) (s : State) : State :=
  match r.transport with
  | 1 => bump (onCan 0 (fun x => { x with efdom := queue4 (efdomCan (freeBit s) r.addr f) x.efdom }) s)
  | 2 => bump (onCan 1 (fun x => { x with efdom := queue4 (efdomCan (freeBit s) r.addr f) x.efdom }) s)
  | 3 => onEth (fun x => { x with efdom := queue4 (efdomEther r.addr f) x.efdom }) s
  | 4 => onGlk (fun x => { x with efdom := queue4 (efdomEther r.addr f) x.efdom }) s
  | _ => s

/-- EFDOM_TRANSMIT (R207): SEQ starts at a random value. -/
def execEfdomTransmit (conn : Nat) (s : State) : Host.Outcome State Fault Refusal :=
  .next (if s.owl.state = .run ∧ (connOf s conn).state = .tx then
    let x := connOf s conn
    let seq := (if x.sent = 0 then freeNat s else x.lastSeq) % (2 ^ 32 - 1) + 1
    let s := bump s
    let f := efdomFrame s conn seq
    let w := safeWordOf s
    handOver (connRec s conn) f
      (onConn conn (fun x => { x with lastSeq := seq, sent := x.sent + 1, safeWord := w }) s)
    else s)

/-! ## Connection records (R204, R210) -/

/-- A record's fields lie in their ranges. -/
def efdomRecOk (b : Bytes) : Bool :=
  let dir := byteAt 1 b
  let tr := byteAt 2 b
  let addr := leAt 0x10 8 b
  b.length == 24 && decide (byteAt 0 b < 8) && decide (dir ≤ 2) && decide (byteAt 3 b < 16) && decide (tr ≤ 4)
    && (dir == 0 || (decide (1 ≤ tr)
         && (if dir = 1 then leAt 0x0C 2 b == 0 && inRange 20 1000 (leAt 0x0E 2 b)
             else inRange 10 500 (leAt 0x0C 2 b) && leAt 0x0E 2 b == 0)
         && (if tr ≤ 2 then addr % 2 ^ 31 == addr % 2 ^ 29 && decide (addr < 2 ^ 32) else decide (addr < 2 ^ 48))))

/-- The record that 24 bytes spell. -/
def efdomRecOf (b : Bytes) : EfdomRec :=
  { dir := byteAt 1 b, transport := byteAt 2 b, mask := byteAt 3 b, peer := leAt 4 8 b, period := leAt 0x0C 2 b,
    watchdog := leAt 0x0E 2 b, addr := leAt 0x10 8 b }

/-- The 24 bytes of a record. -/
def efdomRecBytes (c : Nat) (r : EfdomRec) : Bytes :=
  leBytes 1 c ++ leBytes 1 r.dir ++ leBytes 1 r.transport ++ leBytes 1 r.mask ++ leBytes 8 r.peer ++ leBytes 2 r.period
    ++ leBytes 2 r.watchdog ++ leBytes 8 r.addr

/-- The transport of a record is declared by BLOCKS. -/
def transportThere (s : State) : Nat → Bool
  | 1 => blockBit s 6 | 2 => blockBit s 7 | 3 => blockBit s 5 | 4 => blockBit s 4 | _ => false

/-- OWL_EFDOM_SET (R204, R210). -/
def execOwlEfdomSet (r : Req) (rec : Bytes) (s : State) : Host.Outcome State Fault Refusal :=
  let c := byteAt 0 rec
  let new := efdomRecOf rec
  let old := connRec s c
  let both := Nat.lor old.mask new.mask
  .next (guarded r [(rec.length == 24 && new.dir != 0 && inRange 1 4 new.transport && !transportThere s new.transport, stsAbsent),
      (!efdomRecOk rec, stsLengthRange), (retired s, stsLifecycle), (!hasSession s r.side, stsAuthFail),
      ((List.range 4).any (fun o => bitAt both o && flag s.owl.released o), stsState)]
    (fun s =>
      let s := onCfg (fun g => { g with efdom := put g.efdom c new }) s
      let s := onConn c (fun x => if s.owl.state = .run then startConn s new x else { x with state := .off }) s
      postSts r stsOk (changeEntry 5 (sideCode r.side) c 0 (Config.sha384 (efdomRecBytes c old)) (Config.sha384 rec) s)) s)

end Sys2Proof.Machine
end

