-- ==== Sys2Proof/Machine/Slac.lean ====
section
/-! DEFINITION. SLAC on the vehicle links (R231–R234): matching, the discrimination between the device's own modems, and
validation. The kinds of a sent message are 1 PARM.CNF, 2 ATTEN_CHAR.IND, 3 VALIDATE.CNF not required, 4 ready, 5 count,
6 failure, 7 MATCH.CNF. -/

namespace Sys2Proof.Machine

/-- Code of a SLAC state (R240). -/
def Slac.code : Slac → Nat
  | .off => 0 | .waitParm => 1 | .sounding => 2 | .validating => 3 | .joining => 4 | .matched => 5 | .failed => 6 | .linkLost => 7

/-- The first 4 bytes of a RunID, in the order of the medium. -/
def runHead (r : Nat) : Nat := leNat ((beBytes 8 r).take 4)

/-- The modem of a link is powered (R230, R238). -/
def modemOn (s : State) (o : Nat) : Bool := linked s o && s.sys.mode != .limp && s.sys.mode != .watch && s.sys.mode != .dormant

/-- A message with a RunID that is not current is discarded and counted (row 10). -/
def slacFmt (o : Nat) : State → State := onLink o fun l => if l.slac = .off then l else { l with fmt := satInc 8 l.fmt }

/-- EV_SLAC. -/
def logSlac (o : Nat) (s : State) : State :=
  let l := linkOf s o
  logEv .comm 0x0C o 0x0C0A [(1, o), (1, l.slac.code), (4, runHead (l.runId.getD 0)), (1, l.own), (1, l.other)] s

/-- Back to WAIT_PARM for a new RunID. -/
def toWaitParm (o : Nat) : State → State :=
  onLink o fun l => { l with slac := .waitParm, runId := none, attenRun := none, attenSent := 0, window := none }

/-- FAILED or LINK_LOST, counted and logged (rows 1, 7, 9). -/
def slacFail (o : Nat) (x : Slac) (s : State) : State :=
  let s := logSlac o (onLink o (fun l => { l with slac := x, slacFail := satInc 8 l.slacFail, window := none }) s)
  onLink o (fun l => { l with runId := none, attenRun := none, attenSent := 0 }) s

/-- A FAILED link with BASIC_FALLBACK changes to MODE 1. -/
def fallBack (o : Nat) (s : State) : State :=
  if (linkOf s o).fallback then slacCheck o (enterMode o 1 s) else s

/-- CM_SLAC_PARM_REQ (R232 row 2): the CNF carries a 16-byte random RunID check. -/
def execCmSlacParmReq (link runId : Nat) (s : State) : Host.Outcome State Fault Refusal :=
  let l := linkOf s link
  .next (if slacAllowed s link ∧ modemOn s link ∧ (l.slac = .waitParm ∨ l.slac = .failed ∨ l.slac = .linkLost) then
    if l.oldRuns.contains runId then slacFmt link s
    else
      let check := freeBytes s 16
      bump (onLink link (fun l => { l with slac := .waitParm, runId := some runId, attenRun := none, attenSent := 0,
                                           sent := some { kind := 1, runId := runId, count := 0, data := check } }) s)
    else if l.runId = some runId then s else slacFmt link s)

/-- CM_START_ATTEN_CHAR_IND (R232 row 2). -/
def execCmStartAttenCharInd (link runId : Nat) (s : State) : Host.Outcome State Fault Refusal :=
  let l := linkOf s link
  .next (if l.runId ≠ some runId then slacFmt link s
    else if l.slac = .waitParm then onLink link (fun l => { l with slac := .sounding, suppressed := false, ambig := false,
                                                                   validated := false, sounds := 0, soundTick := s.ticks }) s
    else s)

/-- Adds one sound to what a modem has heard; what is older than any window it could count in goes. -/
def addSound (tick runId : Nat) (atten : List Nat) (l : List Sounding) : List Sounding :=
  (l.filter fun x => decide (tick < x.tick + msTicks 2000)) ++ [{ runId := runId, tick := tick, atten := atten }]

/-- CM_MNBC_SOUND_IND (R232 row 3): every powered modem measures. -/
def execCmMnbcSoundInd (link runId : Nat) (atten : List Nat) (s : State) : Host.Outcome State Fault Refusal :=
  .next (if modemOn s link then
    let s := onLink link (fun l => { l with heard := addSound s.ticks runId atten l.heard }) s
    if (linkOf s link).runId ≠ some runId then slacFmt link s
    else onLink link (fun l => if l.slac = .sounding then { l with sounds := satInc 8 l.sounds } else l) s
    else s)

/-- The sounds of a RunID that a modem measured from `since` on. -/
def soundsOf (s : State) (o runId since : Nat) : List Sounding :=
  (linkOf s o).heard.filter fun x => x.runId == runId && decide (since ≤ x.tick)

/-- Total attenuation of some sounds over the 58 groups, and the divisor 58 × sounds. -/
def totalAtten (l : List Sounding) : Nat × Nat :=
  (l.foldl (fun a x => (List.range 58).foldl (fun a i => a + at0 x.atten i) a) 0, 58 * l.length)

/-- The average of the sounding window that ends now (R232 row 3); of a modem without a sound the spec leaves it open. -/
def attenuation (s : State) (o runId : Nat) : Nat × Nat :=
  match soundsOf s o runId (linkOf s o).soundTick with
  | [] => (freeNat s % 256, 1)
  | l => totalAtten l

/-- What the other modems measured for a RunID within 100 ms of the window that ends now (R233). -/
def otherModems (s : State) (o runId : Nat) : List (Nat × Nat) :=
  ((List.range 4).filter (fun k => k != o && modemOn s k)).filterMap fun k =>
    match soundsOf s k runId ((linkOf s o).soundTick - msTicks 100) with
    | [] => none
    | l => some (totalAtten l)

/-- The lowest of some averages. -/
def lowestAvg : List (Nat × Nat) → Option (Nat × Nat)
  | [] => none
  | a :: r => match lowestAvg r with
    | some b => if b.1 * a.2 < a.1 * b.2 then some b else some a
    | none => some a

/-- An average as a register shows it, dB. -/
def dbOf (up : Bool) (a : Nat × Nat) : Nat := min 255 (openQuot up a.1 a.2).toNat

/-- The average of each of the 58 groups over the sounds of the window, as CM_ATTEN_CHAR.IND carries it (R232 rows 3, 4); its
rounding the spec leaves open. -/
def attenProfile (up : Bool) (l : List Sounding) : Bytes :=
  (List.range 58).map fun i =>
    BitVec.ofNat 8 (openQuot up ((l.foldl (fun a x => a + at0 x.atten i) 0 : Nat) : Int) (max 1 l.length)).toNat

/-- CM_ATTEN_CHAR.IND of a RunID. -/
def attenInd (up : Bool) (s : State) (o runId : Nat) : SlacMsg :=
  { kind := 2, runId := runId, count := 0, data := attenProfile up (soundsOf s o runId (linkOf s o).soundTick) }

/-- SOUNDING_WINDOW_END (R233). -/
def execSoundingWindowEnd (link : Nat) (s : State) : Host.Outcome State Fault Refusal :=
  let l := linkOf s link
  .next (match l.slac, l.runId with
    | .sounding, some r =>
      let a := attenuation s link r
      let m := lowestAvg (otherModems s link r)
      let up := freeBit s
      let s := bump (onLink link (fun l => { l with own := dbOf up a, other := (m.map (dbOf up)).getD 0xFF }) s)
      let higher := m.any fun m => m.1 * a.2 + l.disc * m.2 * a.2 < a.1 * m.2
      let lowest := !(m.any fun m => m.1 * a.2 < a.1 * m.2)
      if higher then
        let s := onLink link (fun l => { l with suppressed := true, oldRuns := r :: l.oldRuns }) s
        let s := logEv .comm 0x0C link 0x0C0B [(1, link), (4, runHead r), (1, (linkOf s link).own), (1, (linkOf s link).other)] s
        toWaitParm link s
      else onLink link (fun l => { l with sent := some (attenInd up s link r), attenRun := some r, attenSent := 1, ambig := !lowest }) s
    | _, _ => s)

/-- CM_ATTEN_CHAR_RSP (R232 row 4). -/
def execCmAttenCharRsp (link runId : Nat) (s : State) : Host.Outcome State Fault Refusal :=
  .next (if (linkOf s link).attenRun = some runId then onLink link (fun l => { l with attenSent := 0 }) s else slacFmt link s)

/-- ATTEN_CHAR_RESEND (R232 row 4): twice at 200 ms; after the third without a response WAIT_PARM. -/
def execAttenCharResend (link : Nat) (s : State) : Host.Outcome State Fault Refusal :=
  let l := linkOf s link
  .next (if l.slac ≠ .sounding ∨ l.attenSent = 0 then s
    else if l.attenSent < 3 then
      bump (onLink link (fun l => { l with
        attenSent := l.attenSent + 1, sent := l.attenRun.map fun r => attenInd (freeBit s) s link r }) s)
    else toWaitParm link s)

/-- CM_VALIDATE_REQ (R234). -/
def execCmValidateReq (link runId count : Nat) (s : State) : Host.Outcome State Fault Refusal :=
  let l := linkOf s link
  .next (if l.attenRun ≠ some runId then slacFmt link s
    else if l.slac ≠ .sounding ∧ l.slac ≠ .validating then s
    else if l.ambig then
      onLink link (fun l => { l with slac := .validating, window := some { want := count, count := 0, mark := none },
                                     sent := some { kind := 4, runId := runId, count := 0, data := [] } }) s
    else onLink link (fun l => { l with sent := some { kind := 3, runId := runId, count := 0, data := [] } }) s)

/-- VALIDATION_WINDOW_END (R234): the count is reported; a dwell beyond 400 ms ends validation with a failure. -/
def execValidationWindowEnd (link : Nat) (late : Bool) (s : State) : Host.Outcome State Fault Refusal :=
  .next (endValidation link late s)

/-- CM_SLAC_MATCH_REQ (R232 row 7): a fresh NMK. -/
def execCmSlacMatchReq (link runId : Nat) (s : State) : Host.Outcome State Fault Refusal :=
  let l := linkOf s link
  .next (if l.attenRun ≠ some runId then slacFmt link s
    else if l.slac = .sounding ∨ l.slac = .validating then
      let k := freeBytes s 16
      bump (onLink link (fun l => { l with slac := .joining, nmk := some k, attenSent := 0, window := none,
                                           sent := some { kind := 7, runId := runId, count := 0, data := [] } }) s)
    else s)

/-- SLAC_JOINED (R232 row 8). -/
def execSlacJoined (link : Nat) (s : State) : Host.Outcome State Fault Refusal :=
  .next (if (linkOf s link).slac = .joining then
    logSlac link (onLink link (fun l => { l with slac := .matched, oldRuns := l.runId.toList ++ l.oldRuns }) s)
    else s)

/-- SLAC_TIMEOUT (R232 rows 1, 2, 7). -/
def execSlacTimeout (link : Nat) (why : SlacTimeout) (s : State) : Host.Outcome State Fault Refusal :=
  let l := linkOf s link
  .next (match why with
    | .waitParm => if l.slac = .waitParm then fallBack link (slacFail link .failed s) else s
    | .noStart => if l.slac = .waitParm then toWaitParm link s else s
    | .noMatch => if (l.slac = .sounding ∨ l.slac = .validating) ∧ l.attenRun.isSome then toWaitParm link s else s
    | .noJoin => if l.slac = .joining then fallBack link (slacFail link .failed s) else s)

/-- SLAC_LINK_LOST (R232 row 9): the NMK is erased. -/
def execSlacLinkLost (link : Nat) (s : State) : Host.Outcome State Fault Refusal :=
  .next (if (linkOf s link).slac = .matched then slacFail link .linkLost (onLink link (fun l => { l with nmk := none }) s) else s)

end Sys2Proof.Machine
end

