-- ==== Sys2Proof/Machine/Time.lean ====
section
/-! DEFINITION. The time base (R258–R274): domains, NOW, steps and slews, switching, captures, the RTC and the alarm. -/

namespace Sys2Proof.Machine

/-! ## Counters -/

/-- The slew a domain applies in one tick: at most INC / 2,000, the last tick exactly the remainder (R264). -/
def slewPart (d : Domain) : Int :=
  let q : Int := (d.inc / 2000 : Nat)
  if d.slew > q then q else if d.slew < -q then -q else d.slew

/-- One tick of a domain (R259, R264). -/
def tickDomain (d : Domain) : Domain :=
  let p := slewPart d
  { d with t := ((d.t : Int) + d.inc + p).toNat, slew := d.slew - p }

/-- The convergence NOW adds or removes in one tick (R263). -/
def convPart (inc : Nat) (diff : Int) : Int :=
  let q : Int := (inc / 2000 : Nat)
  if diff > 0 then q else if diff < 0 then -q else 0

/-- One tick of the time base (R259, R263): both domains, NOW and the descriptor accumulator advance. -/
def tickTim (b : TimBlock) : TimBlock :=
  let d := b.dom.getD b.sel Domain.fresh
  let conv := if b.converging then convPart d.inc ((d.t : Int) - b.now) else 0
  let adv := (d.inc : Int) + slewPart d + conv
  let now := ((b.now : Int) + adv).toNat
  let dom := b.dom.map tickDomain
  let diff := ((dom.getD b.sel Domain.fresh).t : Int) - now
  { b with dom := dom, now := now, now32 := ((b.now32 : Int) + adv).toNat % 2 ^ 60,
           converging := b.converging && decide (diff.natAbs > d.inc) }

/-- One tick of the 122.88 MHz clock (log 4): in DORMANT and while a reset holds the device no counter runs (R262). -/
def tick (s : State) : State :=
  let s := { s with ticks := s.ticks + 1 }
  if s.sys.mode = .dormant ∨ s.sys.reset.isSome then s else onTim tickTim s

/-! ## Domain states (R262) -/

/-- Code of a domain state (R273). -/
def DomState.code : DomState → Nat
  | .free => 0 | .sync => 1 | .holdover => 2

/-- A domain takes a state; a change is logged EV_TIM_SYNC. -/
def setDomState (d : Nat) (st : DomState) (s : State) : State :=
  let old := (domOf s d).state
  let s := onDom d (fun x => { x with state := st }) s
  if old = st then s else logEv .service 0x0F 0xFF 0x0F02 [(1, d), (1, old.code), (1, st.code)] s

/-- Largest nanosecond count of R16: before 2564-01-01T00:00:00Z, 198,692 days after the epoch. -/
def lastSecond : Nat := 198692 * 86400

/-- Seconds lie within R16. -/
def secInRange (sec : Nat) : Bool := decide (sec < lastSecond)

/-! ## Alarm (R271) -/

/-- The alarm fires: EN cleared, ALARM set. -/
def fireAlarm (s : State) : State := onTim (fun b => { b with alarmEn := false, alarm := true }) s

/-- A step forward across an armed alarm fires it at once. -/
def alarmAfterStep (old new : Nat) (s : State) : State :=
  let a := s.tim.alarmS * 1000000000
  if s.tim.alarmEn ∧ old < a ∧ a ≤ new then fireAlarm s else s

/-! ## Steps and slews (R264, R265) -/

/-- The metrology core gets the step from `old` to `new`, both in 2^−28 ns (R140): one that waits already keeps its start;
from a time that was not valid the old time is that of the last save. -/
def takeStep (old new : Nat) (wasValid : Bool) (s : State) : State :=
  let st : TimeStep := (match s.bil.step with
    | some st => { st with new := tsOfNs (new / 2 ^ 28), atValid := st.atValid || !wasValid }
    | none =>
      { old := if wasValid then tsOfNs (old / 2 ^ 28) else match newestSave s with
          | some r => r.time
          | none => 0,
        new := tsOfNs (new / 2 ^ 28), atValid := !wasValid })
  onBil (fun b => { b with step := some st }) s

/-- A step of NOW: TIM_STEPGEN counts, the metrology core gets the old and the new NOW (R265). -/
def stepNow (new : Nat) (wasValid : Bool) (s : State) : State :=
  let old := s.tim.now
  let s := onTim (fun b => { b with now := new, now32 := new % 2 ^ 60, stepGen := (b.stepGen + 1) % 2 ^ 32,
                                    converging := false }) s
  alarmAfterStep (old / 2 ^ 28) (new / 2 ^ 28) (takeStep old new wasValid s)

/-- A domain steps by an offset (2^−28 ns); the domain in use takes NOW with it, the other leaves NOW (R265). -/
def stepDomain (d : Nat) (ofs : Int) (s : State) : State :=
  let t := (((domOf s d).t : Int) + ofs).toNat
  let valid := timeValid s
  let s := onDom d (fun x => { x with t := t, slew := 0, steps := satInc 8 x.steps }) s
  if d = s.tim.sel then stepNow t valid s else s

/-- Half a second in 2^−28 ns: from here an offset steps (R264). -/
def stepLimit : Nat := 500000000 * 2 ^ 28

/-- An accepted correction of a domain: a step or a slew, and a discipline event (R262, R264). -/
def correct (d : Nat) (ofs : Int) (s : State) : State :=
  let s := if (domOf s d).state = .free ∨ ofs.natAbs ≥ stepLimit then stepDomain d ofs s
           else onDom d (fun x => { x with slew := ofs }) s
  setDomState d .sync s

/-- TIM_SET (R272): the offset is the target less the present value; any remaining slew is discarded. -/
def execTimSet (r : Req) (d ts : Nat) (s : State) : Host.Outcome State Fault Refusal :=
  .next (guarded r [(decide (1 < d) || decide (1000000000 ≤ ts % 2 ^ 30) || !secInRange (ts / 2 ^ 30), stsLengthRange)]
    (fun s => postSts r stsOk (correct d (((nsOfTs ts * 2 ^ 28 : Nat) : Int) - (domOf s d).t) s)) s)

/-- TIM_OFFSET (R272): the remaining slew is added to the offset. -/
def execTimOffset (r : Req) (d : Nat) (ns : Int) (s : State) : Host.Outcome State Fault Refusal :=
  let ofs := ns * 2 ^ 28 + (domOf s d).slew
  let result := ((domOf s d).t : Int) + ofs
  .next (guarded r [(decide (1 < d) || decide (result < 0) || !secInRange (result.toNat / 2 ^ 28 / 1000000000), stsLengthRange),
      (decide ((domOf s d).state = .free), stsState)]
    (fun s => postSts r stsOk (correct d ofs s)) s)

/-- TIM_SELECT (R272): pending until the next second boundary. -/
def execTimSelect (r : Req) (d : Nat) (s : State) : Host.Outcome State Fault Refusal :=
  .next (guarded r [(decide (1 < d), stsLengthRange), (decide (d = s.tim.sel) || s.tim.selPend.isSome, stsState)]
    (fun s => pend r (onTim (fun b => { b with selPend := some (r, d) }) s)) s)

/-! ## Switching (R266) -/

/-- EV_TIM_SWITCH. -/
def logSwitch (old new : Nat) (delta : Int) (row : Nat) (s : State) : State :=
  let ns := satSigned 32 (delta / 2 ^ 28)
  logEv .service 0x0F 0xFF 0x0F01 [(1, old), (1, new), (4, unsignedOf 32 ns), (1, row)] s

/-- The other domain comes into use: NOW takes its value when it lies within 1 µs, else converges. -/
def useDomain (d : Nat) (delta : Int) (s : State) : State :=
  if delta.natAbs ≤ 1000 * 2 ^ 28 then
    onTim (fun b => { b with sel := d, converging := false, now := ((b.now : Int) + delta).toNat,
                             now32 := ((b.now32 : Int) + delta).toNat % 2 ^ 60 }) s
  else onTim (fun b => { b with sel := d, converging := true }) s

/-- A switch; where the time becomes valid by it, the new time is a step from the last save (R140). -/
def switchTo (d : Nat) (delta : Int) (s : State) : State :=
  let valid := timeValid s
  let s := useDomain d delta s
  if !valid && timeValid s then takeStep s.tim.now s.tim.now false s else s

/-- The rows of R266 in order. -/
def switchRows (s : State) : State :=
  let delta (d : Nat) : Int := ((domOf s d).t : Int) - s.tim.now
  match s.tim.selPend with
  | some (r, d) =>
    let s' := onTim (fun b => { b with selPend := none, row4 := false }) s
    if (domOf s d).state = .free ∨ (delta d).natAbs ≥ stepLimit then
      postSts r stsState (logSwitch s.tim.sel d (delta d) 1 s')
    else postSts r stsOk (logSwitch s.tim.sel d (delta d) 2 (switchTo d (delta d) s'))
  | none =>
    let d := 1 - s.tim.sel
    if s.tim.auto ∧ timeSync s = false ∧ (domOf s d).state = .sync then
      if (delta d).natAbs < stepLimit then
        logSwitch s.tim.sel d (delta d) 3 (onTim (fun b => { b with row4 := false }) (switchTo d (delta d) s))
      else if s.tim.row4 then s
      else logSwitch s.tim.sel d (delta d) 4 (onTim (fun b => { b with row4 := true }) s)
    else onTim (fun b => { b with row4 := false }) s

/-- SECOND_BOUNDARY (R266): the offsets of R273 are taken, the rows evaluated, and an alarm at or before the present
second fires (R271). -/
def secondBoundary (s : State) : State :=
  let s := switchRows s
  let s := onTim (fun b => { b with dom := b.dom.map fun x =>
    { x with ofs := satSigned 32 (((x.t : Int) - b.now) / 2 ^ 28) } }) s
  if s.tim.alarmEn ∧ s.tim.alarmS ≤ nowSec s then fireAlarm s else s

/-- DOMAIN_HOLDOVER_EXPIRY (R262): no discipline event within HOLDOVER seconds. -/
def execDomainHoldoverExpiry (d : Nat) (s : State) : Host.Outcome State Fault Refusal :=
  .next (if (domOf s d).state = .sync then setDomState d .holdover s else s)

/-- SLEW_COMPLETE (R264, R263): the rest of the domain's slew is consumed, with NOW when it is in use; or NOW has
reached the domain. -/
def execSlewComplete (d : Nat) (now : Bool) (s : State) : Host.Outcome State Fault Refusal :=
  if now then
    let delta : Int := ((domOf s s.tim.sel).t : Int) - s.tim.now
    .next (if s.tim.converging then
      onTim (fun b => { b with converging := false, now := ((b.now : Int) + delta).toNat,
                               now32 := ((b.now32 : Int) + delta).toNat % 2 ^ 60 }) s
      else s)
  else
    let rest := (domOf s d).slew
    let s := onDom d (fun x => { x with t := ((x.t : Int) + rest).toNat, slew := 0 }) s
    .next (if d = s.tim.sel then
      onTim (fun b => { b with now := ((b.now : Int) + rest).toNat,
                               now32 := ((b.now32 : Int) + rest).toNat % 2 ^ 60 }) s
      else s)

/-- RTC_CALIBRATION (R270): a completed 64 s measurement. -/
def execRtcCalibration (err : Int) (s : State) : Host.Outcome State Fault Refusal :=
  .next (onTim (fun b => { b with rtcErr := satSigned 16 err, rtcCal := true }) s)

/-- TIM_INC_WRITE (R260, R262): a discipline event; outside ±1,000 ppm the write is ignored. -/
def timIncWrite (d : Nat) (w : Nat) (s : State) : State :=
  if 2182348800 ≤ w ∧ w ≤ 2186717866 then
    let s := onDom d (fun x => { x with inc := w }) s
    if (domOf s d).state = .holdover then setDomState d .sync s else s
  else s

def execTimIncWrite (d : Nat) (w : Word) (s : State) : Host.Outcome State Fault Refusal :=
  .next (timIncWrite d w.toNat s)

/-- TIM_ALARM_HI_WRITE (R271). -/
def timAlarmHiWrite (w : Nat) (s : State) : State :=
  onTim (fun b => { b with alarmS := w % 4 * 2 ^ 32 + b.alarmS % 2 ^ 32, alarmEn := bitAt w 31 }) s

def execTimAlarmHiWrite (w : Word) (s : State) : Host.Outcome State Fault Refusal :=
  .next (timAlarmHiWrite w.toNat s)

/-! ## Captures (R267, R268) -/

/-- A PTP capture; a full FIFO discards it, with an event once per onset. -/
def capturePtp (tx : Bool) (msgType domain seqId : Nat) (s : State) : State :=
  if s.tim.ptp.length < 16 then
    onTim (fun b => { b with ptp := b.ptp ++ [{ ts := tsOfNs ((b.dom.getD 1 Domain.fresh).t / 2 ^ 28), tx := tx,
                                                msgType := msgType, domain := domain, seqId := seqId }],
                             ptpOvfOn := false }) s
  else
    let lost := s.tim.ptpLost + 1
    let s' := onTim (fun b => { b with ptpOvf := true, ptpLost := lost, ptpOvfOn := true }) s
    if s.tim.ptpOvfOn then s'
    else logEv .comm 0x0F 0xFF 0x0F04 [(4, lost)] (onTim (fun b => { b with ptpLost := 0 }) s')

/-- A beacon capture in DOM0's timescale; a later beacon overwrites the set. -/
def captureBeacon (bts : Nat) (s : State) : State :=
  onTim (fun b => { b with bcnTs := tsOfNs ((b.dom.getD 0 Domain.fresh).t / 2 ^ 28), bcnBts := bts,
                           bcnGen := (b.bcnGen + 1) % 2 ^ 32 }) s

/-- TIM_PTPF_POP (R268): removes the head entry; ignored when the FIFO is empty. -/
def timPtpfPop (s : State) : State := onTim (fun b => { b with ptp := b.ptp.drop 1 }) s

def execTimPtpfPop (s : State) : Host.Outcome State Fault Refusal := .next (timPtpfPop s)

/-! ## Latching reads (R268, R269, R273) -/

/-- NOW in counter form: nanoseconds, or on the HKV-4280 the timestamp (R259). -/
def counterForm (s : State) (ns : Nat) : Nat := if s.ident.small then tsOfNs ns else ns

/-- TIM_NOW_LO_READ (R269): latches the set from one tick. -/
def execTimNowLoRead (view : Side) (s : State) : Host.Outcome State Fault Refusal :=
  let c := counterForm s (nowNs s)
  let set : NowLatch := { hi := c / 2 ^ 32 % 2 ^ 32, ts := nowTs s, now32 := s.tim.now32 / 2 ^ 28 % 2 ^ 32 }
  .next (returns (c % 2 ^ 32) (onTim (fun b => { b with latchNow := latch view set b.latchNow }) s))

/-- TIM_DOM_TS_LO_READ (R273): latches the domain's HI word. -/
def execTimDomTsLoRead (view : Side) (d : Nat) (s : State) : Host.Outcome State Fault Refusal :=
  let c := tsOfNs ((domOf s d).t / 2 ^ 28)
  .next (returns (c % 2 ^ 32)
    (onTim (fun b => { b with latchDom := latch view (d, c / 2 ^ 32 % 2 ^ 32) b.latchDom }) s))

/-- TIM_BCN_TS_LO_READ (R268): latches the HI word, the beacon timestamp and GEN of the same beacon. -/
def execTimBcnTsLoRead (view : Side) (s : State) : Host.Outcome State Fault Refusal :=
  let hi := s.tim.bcnTs / 2 ^ 32 % 2 ^ 32
  .next (returns (s.tim.bcnTs % 2 ^ 32)
    (onTim (fun b => { b with latchBcn := latch view (hi, b.bcnBts, b.bcnGen) b.latchBcn }) s))

/-- TIM_STATUS as it reads (R273). -/
def timStatus (s : State) : Nat :=
  flagAt (timeValid s) 0 + flagAt (timeSync s) 1 + flagAt (s.tim.sel == 1) 2 + flagAt s.tim.selPend.isSome 4
    + flagAt s.tim.converging 5 + flagAt s.tim.alarm 6 + flagAt s.ident.small 7

/-- TIM_STATUS_READ (R13, R273): returns the RS bit ALARM and clears it. -/
def execTimStatusRead (_view : Side) (s : State) : Host.Outcome State Fault Refusal :=
  .next (returns (timStatus s) (onTim (fun b => { b with alarm := false }) s))

/-! ## The RTC (R270) -/

/-- NOW into the RTC, each domain's offset and VALID bit into retention: at DORMANT entry and before every reset. -/
def saveRtc (s : State) : State :=
  onTim (fun b => { b with rtc := b.now / 2 ^ 28, retOfs := b.dom.map (fun d => (d.t : Int) - b.now),
                           retValid := b.dom.map (fun d => d.state != .free) }) s

/-- A domain as a reset restores it. -/
def restoreDomain (now : Nat) (ofs : Int) (valid : Bool) : Domain :=
  if valid then { Domain.fresh with t := ((now : Int) + ofs).toNat, state := .holdover }
  else { Domain.fresh with t := now }

/-- At wake and after every reset: NOW from the RTC, each VALID domain from NOW and its retained offset; a lost RTC
starts both domains and NOW at 0 in FREE. -/
def loadRtc (rtc : Nat) (b : TimBlock) : TimBlock :=
  let now := if b.rtcLost then 0 else rtc * 2 ^ 28
  let valid (d : Nat) : Bool := !b.rtcLost && b.retValid.getD d false
  { b with now := now, now32 := now % 2 ^ 60,
           dom := [restoreDomain now (b.retOfs.getD 0 0) (valid 0), restoreDomain now (b.retOfs.getD 1 0) (valid 1)] }

end Sys2Proof.Machine
end

