-- ==== Sys2Proof/Machine/Frames.lean ====
section
/-! DEFINITION. The frame ports (R235, R236, R253, R254, R407, R408): descriptor rings in application SRAM, transmitting,
receiving, the path to Owl, the PTP captures, the neighbours heard on the grid link, and the rings in LIMP. -/

namespace Sys2Proof.Machine

/-! ## Ports and their rings -/

def ringsOf (s : State) : Port → Rings
  | .vlk o => (linkOf s o).rings
  | .glk => s.glk.rings
  | .eth => s.eth.rings
  | .can c => (canOf s c).rings

def onRings (p : Port) (f : Rings → Rings) : State → State :=
  match p with
  | .vlk o => onLink o fun l => { l with rings := f l.rings }
  | .glk => onGlk fun b => { b with rings := f b.rings }
  | .eth => onEth fun b => { b with rings := f b.rings }
  | .can c => onCan c fun x => { x with rings := f x.rings }

/-- The port exists (R45, R214, R243, R405). -/
def portThere (s : State) : Port → Bool
  | .vlk o => linked s o
  | .glk => blockBit s 4
  | .eth => blockBit s 5
  | .can c => decide (c < 2) && blockBit s (6 + c)

/-- A CAN controller takes part in traffic: error active or error passive (R409). -/
def canOn (x : Can) : Bool := x.state == .active || x.state == .passive

/-- The port's rings are served: its modem, MAC or controller is powered, and the mode is not LIMP (R230, R253, R407). -/
def served (s : State) (p : Port) : Bool :=
  portThere s p && s.sys.mode != .limp && s.sys.mode != .watch && s.sys.mode != .dormant
    && (match p with
      | .vlk o => modemOn s o
      | .glk => true
      | .eth => true
      | .can _ => true)

/-- The bytes of application SRAM. -/
def sramAt (s : State) (a n : Nat) : Bytes := memReadN s.sram a n
def sramPut (a : Nat) (bs : Bytes) (s : State) : State := { s with sram := memWriteN s.sram a bs }

/-- Address of the descriptor at an index (R236: index modulo 64). -/
def descAt (base i : Nat) : Nat := base + 16 * (i % 64)
/-- The transmit and the receive descriptor at the head. -/
def txDesc (s : State) (p : Port) : Nat := descAt (ringsOf s p).txBase (ringsOf s p).txHead
def rxDesc (s : State) (p : Port) : Nat := descAt (ringsOf s p).rxBase (ringsOf s p).rxHead
/-- The descriptor at an address has OWN set. -/
def ownAt (s : State) (a : Nat) : Bool := bitAt (leNat (sramAt s (a + 6) 1)) 0
/-- The head descriptor has been handed over by the tail and is owned by the device. -/
def txOwned (s : State) (p : Port) : Bool := (ringsOf s p).txHead != (ringsOf s p).txTail && ownAt s (txDesc s p)
def rxOwned (s : State) (p : Port) : Bool := (ringsOf s p).rxHead != (ringsOf s p).rxTail && ownAt s (rxDesc s p)

/-- Length, buffer and flags of a descriptor (R235). -/
def descBuf (s : State) (a : Nat) : Nat := leNat (sramAt s a 4)
def descLen (s : State) (a : Nat) : Nat := leNat (sramAt s (a + 4) 2)
def descFlags (s : State) (a : Nat) : Nat := leNat (sramAt s (a + 6) 1)

/-- Writes a transmit descriptor back: STS, then OWN cleared last (R235); the head moves on. -/
def txDone (p : Port) (sts : Nat) (s : State) : State :=
  let a := txDesc s p
  let fl := descFlags s a
  let s := sramPut (a + 7) (leBytes 1 sts) s
  let s := sramPut (a + 6) (leBytes 1 (fl / 2 * 2)) s
  onRings p (fun r => { r with txHead := (r.txHead + 1) % 128 }) s

/-- Writes the TS field of the transmit descriptor at the head (R267): the start of the frame when TSREQ, else 0; 0 on CAN. -/
def txStamp (p : Port) (ts : Nat) (s : State) : State :=
  let a := txDesc s p
  let on := bitAt (descFlags s a) 1 && (match p with
    | .can _ => false
    | _ => true)
  sramPut (a + 8) (leBytes 4 (if on then ts else 0)) s

/-! ## Frames -/

/-- EtherType position and value, past an IEEE 802.1Q tag. -/
def etherPos (b : Bytes) : Nat := if beNat (slice 12 2 b) = 0x8100 then 16 else 12
def etherType (b : Bytes) : Nat := beNat (slice (etherPos b) 2 b)
/-- The payload behind the EtherType. -/
def etherPayload (b : Bytes) : Bytes := b.drop (etherPos b + 2)
/-- MMTYPE of a management message: little-endian behind the version byte (PRESUMED, IEEE 1901). -/
def mmType (b : Bytes) : Nat := leAt 1 2 (etherPayload b)
/-- Management messages carry EtherType 0x88E1 (PRESUMED, IEEE 1901). -/
def isMme (b : Bytes) : Bool := etherType b == 0x88E1
/-- A group destination address. -/
def isGroup (b : Bytes) : Bool := byteAt 0 b % 2 == 1

/-- Message type, domain and sequence number of an IEEE 1588 event message over Ethernet, UDP/IPv4 or UDP/IPv6 (R254);
offsets and UDP port 319 are the standards' (PRESUMED). -/
def ptpEvent (b : Bytes) : Option (Nat × Nat × Nat) :=
  let p := etherPayload b
  let hdr (h : Bytes) : Option (Nat × Nat × Nat) :=
    if byteAt 0 h % 16 < 4 ∧ 34 ≤ h.length then some (byteAt 0 h % 16, byteAt 4 h, beNat (slice 30 2 h)) else none
  let udp (h : Bytes) : Option (Nat × Nat × Nat) := if beNat (slice 2 2 h) = 319 then hdr (h.drop 8) else none
  if etherType b = 0x88F7 then hdr p
  else if etherType b = 0x0800 ∧ byteAt 9 p = 17 then udp (p.drop (byteAt 0 p % 16 * 4))
  else if etherType b = 0x86DD ∧ byteAt 6 p = 17 then udp (p.drop 40)
  else none

/-- A capture into the PTP FIFO, on the MAC alone (R267). -/
def ptpCapture (p : Port) (tx : Bool) (b : Bytes) (s : State) : State :=
  match p, ptpEvent b with
  | .eth, some (t, d, q) => capturePtp tx t d q s
  | _, _ => s

/-! ## Carriers (R244, R245) -/

/-- Frequency of a carrier, Hz. -/
def carrierHz (c : Nat) : Nat := 24414 * c

/-- The amateur radio bands of the built-in mask, kHz. -/
def amateurBands : List (Nat × Nat) :=
  [(1800, 2000), (3500, 4000), (7000, 7300), (10100, 10150), (14000, 14350), (18068, 18168), (21000, 21450), (24890, 24990)]

/-- The built-in mask turns a carrier off: within a band, or within one spacing of one. -/
def builtInOff (c : Nat) : Bool :=
  amateurBands.any fun b => decide (1000 * b.1 ≤ carrierHz c + 24414 ∧ carrierHz c ≤ 1000 * b.2 + 24414)

/-- The notch mask of a structure leaves a carrier on. -/
def carrierOn (t : Struct) (c : Nat) : Bool :=
  inRange 82 1146 c && (match t.notch with
    | none => !builtInOff c
    | some r => !(r.ranges.any fun b => inRange b.1 b.2 c) && !(r.adds && builtInOff c))

/-- Byte `j` of a region's map, 4 bits a carrier from carrier 82 on: no bits on a carrier that is off. -/
def maskByte (t : Struct) (j : Nat) (b : Byte) : Byte :=
  BitVec.ofNat 8 ((if carrierOn t (82 + 2 * j) then b.toNat % 16 else 0)
    + (if carrierOn t (83 + 2 * j) then b.toNat / 16 * 16 else 0))

/-- A region's map on the carriers that are on. -/
def maskMap (t : Struct) (m : Bytes) : Bytes := m.mapIdx (maskByte t)

/-! ## Neighbours (R247, R248 row 2) -/

def nbOf (s : State) (tei : Nat) : Option Neighbour := s.glk.nbs.find? (·.tei == tei)
/-- One neighbour entry. -/
def onNb (tei : Nat) (f : Neighbour → Neighbour) : State → State :=
  onGlk fun b => { b with nbs := b.nbs.map fun n => if n.tei = tei then f n else n }

/-- A new entry. -/
def freshNb (tick tei mac : Nat) (cco : Bool) : Neighbour :=
  { tei := tei, mac := mac, cco := cco, tm := .none, rate := 0, newMap := none, requests := 0, reest := false,
    failTick := none, madeTick := 0, useTick := 0, regions := [], allFailed := 0, sameOffset := 0, lastOffset := 0,
    lastPeriod := 0, pbFailed := [], pbResent := [], phase := .unknown, reports := [], heard := tick, lastMsdu := [] }

/-- The entry that a new station replaces in a full table: the least recently heard one that is neither the coordinator nor
ACTIVE. -/
def victim (l : List Neighbour) : Option Neighbour :=
  (l.filter fun n => !n.cco && n.tm != .active).foldl (fun best n => match best with
    | some b => if n.heard < b.heard then some n else some b
    | none => some n) none

/-- An entry is removed, and with it the tone map for reception from its station (R247, R248 row 1). -/
def removeNb (tei : Nat) : State → State :=
  onGlk fun b => { b with nbs := b.nbs.filter (·.tei != tei), rxMaps := b.rxMaps.filter (·.tei != tei) }

/-- A station is entered, if it is not (R247): its frame was decoded, or it stands in the discover list. -/
def enter (tei mac : Nat) (cco : Bool) (s : State) : State :=
  if s.glk.nbs.any (·.tei == tei) then s
  else
    let n := freshNb s.ticks tei mac cco
    if s.glk.nbs.length < 256 then onGlk (fun b => { b with nbs := b.nbs ++ [n] }) s
    else match victim s.glk.nbs with
      | some v => onGlk (fun b => { b with nbs := b.nbs ++ [n] }) (removeNb v.tei s)
      | none =>
        let c := s.glk.nbFullCount + 1
        if within s s.glk.nbFullTick 60000 then onGlk (fun b => { b with nbFullCount := c }) s
        else logEv .comm 0x0E 0xFF 0x0E02 [(1, tei), (4, c)]
          (onGlk (fun b => { b with nbFullTick := some s.ticks, nbFullCount := 0 }) s)

/-- A frame of a station is decoded: it is entered, and heard now. -/
def hear (tei : Nat) (mac : Option Nat) (cco : Bool) (s : State) : State :=
  onNb tei (fun n => { n with heard := s.ticks, mac := mac.getD n.mac, cco := cco || n.cco }) (enter tei (mac.getD 0) cco s)

/-- A management message the modem sends. -/
def glkSend (tei : Nat) (b : Bytes) : State → State := onGlk fun x => { x with sent := ((tei, b) :: x.sent).take 8 }

/-- A channel estimation request to a neighbour (R248). -/
def requestMap (tei : Nat) (s : State) : State :=
  glkSend tei [3] (onNb tei (fun n => { n with requests := n.requests + 1 }) s)

/-- Row 2 of R248: unicast traffic is queued for a neighbour. -/
def wantMap (tei : Nat) (s : State) : State :=
  match nbOf s tei with
  | some n =>
    if (n.tm = .none ∨ n.tm = .robo) ∧ within s n.failTick 30000 = false then
      requestMap tei (onNb tei (fun n => { n with tm := .estimating, requests := 0, reest := false }) s)
    else s
  | none => s

/-- The TEI of the neighbour with a MAC address; 0 for a station that is not entered. -/
def teiOfMac (s : State) (mac : Nat) : Nat := match s.glk.nbs.find? (·.mac == mac) with
  | some n => n.tei
  | none => 0

/-! ## Transmitting (R236 rows 1–4, R407 rows 1–4) -/

/-- Data lengths that an FD frame may have (R407). -/
def fdLengths : List Nat := [0, 1, 2, 3, 4, 5, 6, 7, 8, 12, 16, 20, 24, 32, 48, 64]

/-- Row 2 of R407 for a frame record of `len` bytes. -/
def canBad (f : Bytes) (len : Nat) : Bool :=
  let fdf := bitAt (leAt 0 4 f) 31
  let n := byteAt 4 f
  decide (len < 8) || decide (72 < len) || n != len - 8 || (!fdf && decide (8 < n)) || (fdf && !fdLengths.contains n)
    || (bitAt (leAt 0 4 f) 30 && fdf) || (bitAt (byteAt 5 f) 0 && !fdf)

/-- The status with which the frame at the head goes back without being sent, by rows 1–3; none when it may be sent. -/
def txRefusal (s : State) (p : Port) : Option Nat :=
  let a := txDesc s p
  let n := descLen s a
  let f := sramAt s (descBuf s a) n
  match p with
  | .can c =>
    let x := canOf s c
    if n = 0 then some stsOk
    else if canBad f n then some stsLengthRange
    else if (bitAt (leAt 0 4 f) 31 && !x.fd) || x.state == .busOff || x.state == .stuck || x.listen then some stsState
    else none
  | _ =>
    let down : Bool := (match p with
      | .vlk o => (linkOf s o).slac != .matched && !isMme f
      | .glk => s.glk.assoc != .member && !isMme f
      | .eth => !s.eth.link
      | .can _ => false)
    if n = 0 then some stsOk
    else if n < 14 ∨ 1518 < n then some stsLengthRange
    else if down then some stsState
    else none

/-- A unicast MSDU at the head of the grid link's ring asks for a tone map. -/
def queueHead (p : Port) (s : State) : State :=
  match p with
  | .glk =>
    let f := sramAt s (descBuf s (txDesc s .glk)) 6
    if isGroup f then s else wantMap (teiOfMac s (beNat f)) s
  | _ => s

/-- Takes frames from the head of a transmit ring until one may be sent. -/
def pumpTx (p : Port) : Nat → State → State
  | 0, s => s
  | n + 1, s =>
    if served s p && txOwned s p then
      match txRefusal s p with
      | some sts => pumpTx p n (txDone p sts s)
      | none => queueHead p s
    else s

/-- Evaluates a transmit ring. -/
def pump (p : Port) (s : State) : State := pumpTx p 128 s

/-- FRAME_TX_TAIL_WRITE (R236, R407). -/
def txTailWrite (p : Port) (w : Nat) (s : State) : State :=
  if portThere s p then pump p (onRings p (fun r => { r with txTail := w % 128 }) s) else s

def execFrameTxTailWrite (p : Port) (w : Word) (s : State) : Host.Outcome State Fault Refusal := .next (txTailWrite p w.toNat s)

/-- FRAME_RX_TAIL_WRITE (R236, R407). -/
def rxTailWrite (p : Port) (w : Nat) (s : State) : State :=
  if portThere s p then onRings p (fun r => { r with rxTail := w % 128 }) s else s

def execFrameRxTailWrite (p : Port) (w : Word) (s : State) : Host.Outcome State Fault Refusal := .next (rxTailWrite p w.toNat s)

/-- Owl's queue on a medium that runs (R253, R407); the frame at its head goes ahead of ring traffic. -/
def efdomQueued (s : State) : Port → Bool
  | .vlk _ => false
  | .glk => s.glk.efdom != [] && s.glk.assoc == .member
  | .eth => s.eth.efdom != [] && s.eth.link
  | .can c => (canOf s c).efdom != [] && canOn (canOf s c) && !(canOf s c).listen

/-- Owl's frame has been sent. -/
def efdomSent : Port → State → State
  | .vlk _, s => s
  | .glk, s => onGlk (fun b => { b with efdom := b.efdom.drop 1 }) s
  | .eth, s => onEth (fun b => { b with efdom := b.efdom.drop 1 }) s
  | .can c, s => onCan c (fun x => { x with efdom := x.efdom.drop 1 }) s

/-- A frame as it goes out: padded to 60 bytes but on CAN (R235, R254). -/
def padded (p : Port) (b : Bytes) : Bytes :=
  match p with
  | .can _ => b
  | .vlk _ => b ++ zeros (60 - b.length)
  | .glk => b ++ zeros (60 - b.length)
  | .eth => b ++ zeros (60 - b.length)

/-- What has been put on the medium. -/
def onWire (p : Port) (b : Bytes) : State → State := onRings p fun r => { r with wire := padded p b }

/-- The frame at the head of Owl's queue on a medium. -/
def efdomHead (s : State) : Port → Bytes
  | .vlk _ => []
  | .glk => s.glk.efdom.headD []
  | .eth => s.eth.efdom.headD []
  | .can c => (canOf s c).efdom.headD []

/-- A broadcast or multicast MSDU has been sent once, or a second time (R249). -/
def groupSent (s : State) : State :=
  if s.glk.msdu.isSome then pump .glk (txDone .glk stsOk (onGlk (fun b => { b with msdu := none }) s))
  else onGlk (fun b => { b with msdu := some { tei := 0xFF, pbs := [(1, false)] } }) s

/-- An MPDU of the unicast MSDU at the head of the grid link's ring has been sent (R249): each PB not yet acknowledged
counts one more sending. -/
def mpduSent (len tei : Nat) (s : State) : State :=
  let m := (s.glk.msdu).getD { tei := tei, pbs := List.replicate ((max len 60 + 511) / 512) (0, false) }
  onNb m.tei (fun n => { n with useTick := s.ticks })
    (onGlk (fun b => { b with msdu := some { m with pbs := m.pbs.map fun x => if x.2 then x else (x.1 + 1, false) } }) s)

/-- FRAME_TRANSMITTED (R236 row 8, R407, R249). With delay compensation on, a CAN controller has measured its transmitter's
delay: CANc_STAT.TDCV is free (R410, log 5). -/
def execFrameTransmitted (p : Port) (ts : Nat) (s : State) : Host.Outcome State Fault Refusal :=
  .next (if portThere s p = false ∨ s.sys.mode = .watch ∨ s.sys.mode = .dormant then s
    else if efdomQueued s p then efdomSent p (onWire p (efdomHead s p) s)
    else
      let s := pump p s
      if served s p && txOwned s p then
        let a := txDesc s p
        let f := sramAt s (descBuf s a) (descLen s a)
        let stamp := bitAt (descFlags s a) 1
        let again := (match p with
          | .glk => s.glk.msdu.isSome
          | _ => false)
        let s := onWire p f (if again then s else txStamp p ts s)
        match p with
        | .glk => if isGroup f then groupSent s else mpduSent (descLen s a) (teiOfMac s (beNat (f.take 6))) s
        | .can c =>
          let s := pump p (txDone p stsOk s)
          if bitAt (canOf s c).dbt 7 then bump (onCan c (fun x => { x with tdcv := freeNat s % 128 }) s) else s
        | _ => pump p (txDone p stsOk (if stamp then ptpCapture p true f s else s))
      else s)

/-- Counts a transmit timeout. -/
def countTimeout : Port → State → State
  | .vlk o, s => onLink o (fun l => { l with txTimeout := satInc 8 l.txTimeout }) s
  | .glk, s => onGlk (fun b => { b with txTimeout := satInc 8 b.txTimeout }) s
  | .eth, s => onEth (fun b => { b with txTimeout := satInc 8 b.txTimeout }) s
  | .can c, s => onCan c (fun x => { x with txTimeout := satInc 8 x.txTimeout }) s

/-- FRAME_TX_TIMEOUT (R236 row 4, R407 row 4): on the grid link for an MSDU that has not started. -/
def execFrameTxTimeout (p : Port) (s : State) : Host.Outcome State Fault Refusal :=
  .next (
    let s := pump p s
    let started := (match p with
      | .glk => s.glk.msdu.isSome
      | _ => false)
    if served s p && txOwned s p && !started then pump p (txDone p stsTimeout (countTimeout p (txStamp p 0 s))) else s)

/-! ## Receiving (R236 rows 5–8, R407 rows 5–6, R408) -/

/-- Counts a discarded frame by its row; the RXDROP event at most once in 60 s. -/
def rxDiscard (p : Port) (row : Nat) (s : State) : State :=
  let pick (long drop : Nat) : Nat × Nat := (if row = 5 then satInc 8 long else long, if row = 7 then satInc 8 drop else drop)
  let s := (match p with
    | .vlk o => onLink o (fun l => { l with rxLong := (pick l.rxLong l.rxDrop).1, rxDrop := (pick l.rxLong l.rxDrop).2,
                                            rxDecrypt := if row = 6 then satInc 8 l.rxDecrypt else l.rxDecrypt }) s
    | .glk => onGlk (fun l => { l with rxLong := (pick l.rxLong l.rxDrop).1, rxDrop := (pick l.rxLong l.rxDrop).2,
                                       rxDecrypt := if row = 6 then satInc 8 l.rxDecrypt else l.rxDecrypt }) s
    | .eth => onEth (fun l => { l with rxLong := (pick l.rxLong l.rxDrop).1, rxDrop := (pick l.rxLong l.rxDrop).2,
                                       fcsErr := if row = 6 then satInc 8 l.fcsErr else l.fcsErr }) s
    | .can c => onCan c (fun l => { l with rxLong := if row = 5 then satInc 8 l.rxLong else l.rxLong,
                                           rxDrop := if row = 6 then satInc 8 l.rxDrop else l.rxDrop }) s)
  let n := (ringsOf s p).dropped + 1
  let recent := (match p with
    | .glk => within s s.glk.rings.dropTick 60000 || within s s.eth.rings.dropTick 60000
    | .eth => within s s.glk.rings.dropTick 60000 || within s s.eth.rings.dropTick 60000
    | p => within s (ringsOf s p).dropTick 60000)
  if recent then onRings p (fun r => { r with dropped := n }) s
  else
    let s := onRings p (fun r => { r with dropped := 0, dropTick := some s.ticks }) s
    match p with
    | .vlk o => logEv .comm 0x0C o 0x0C0C [(1, o), (1, row), (4, n)] s
    | .glk => logEv .comm 0x0E 0xFF 0x0E04 [(1, 4), (1, row), (4, n)] s
    | .eth => logEv .comm 0x0E 0xFF 0x0E04 [(1, 3), (1, row), (4, n)] s
    | .can c => logEv .comm 0x17 c 0x1504 [(1, c), (1, row), (4, n)] s

/-- Delivers a frame into the descriptor at the head of the receive ring; OWN is cleared last. -/
def deliver (p : Port) (f : RxFrame) (s : State) : State :=
  let a := rxDesc s p
  let old := descFlags s a
  let isCan := (match p with
    | .can _ => true
    | _ => false)
  let enc := (match p with
    | .vlk _ => f.key != .plain
    | .glk => f.key != .plain
    | _ => false)
  let fl := flagAt (bitAt old 1) 1 + flagAt (f.mme && !isCan) 2 + flagAt enc 3
  let s := sramPut (descBuf s a) f.bytes s
  let s := sramPut (a + 4) (leBytes 2 f.bytes.length) s
  let s := sramPut (a + 7) (leBytes 1 stsOk) s
  let s := sramPut (a + 8) (leBytes 4 (if isCan then 0 else f.ts)) s
  let s := sramPut (a + 12) (leBytes 2 (if isCan then 0 else f.cap % 4)) s
  let s := sramPut (a + 6) (leBytes 1 fl) s
  onRings p (fun r => { r with rxHead := (r.rxHead + 1) % 128 }) s

/-- Rows 5–8 of R236, or rows 5 and 6 of R407: delivered, or discarded and counted. -/
def receiveRing (p : Port) (f : RxFrame) (bad : Bool) (s : State) : State :=
  let isCan := (match p with
    | .can _ => true
    | _ => false)
  let long := (!isCan && decide (1518 < f.bytes.length)) || (rxOwned s p && decide (descLen s (rxDesc s p) < f.bytes.length))
  if long then rxDiscard p 5 s
  else if bad then rxDiscard p 6 s
  else if rxOwned s p = false then rxDiscard p (if isCan then 6 else 7) s
  else deliver p f s

/-- A CAN frame carries the ADDR of an Efdom receive connection on this controller (R204, R408): the identifier, the format,
and FDF, in which Efdom travels (R205). -/
def efdomId (s : State) (c w : Nat) : Bool :=
  (receivers s (1 + c)).any fun k =>
    let a := (connRec s k).addr
    w % 2 ^ 29 == a % 2 ^ 29 && bitAt w 29 == bitAt a 31 && bitAt w 31

/-- A frame passes the filters of a controller (R408). -/
def canFiltered (x : Can) (w : Nat) : Bool :=
  let on := x.filters.filter fun f => bitAt f.1 31
  on == [] || on.any fun f => bitAt w 29 == bitAt f.1 30
    && Nat.land (w % 2 ^ 29) (f.2 % 2 ^ 29) == Nat.land (f.1 % 2 ^ 29) (f.2 % 2 ^ 29)

/-- A frame on a CAN controller. -/
def canReceive (c : Nat) (f : RxFrame) (s : State) : State :=
  let w := leAt 0 4 f.bytes
  if canOn (canOf s c) = false then s
  else if efdomId s c w then efdomReceive (1 + c) (f.bytes.drop 8) s
  else if served s (.can c) && canFiltered (canOf s c) w then receiveRing (.can c) f false s
  else s

/-- Decryption on the grid link fails (R246, R253): no NEK, or one retired more than 10 s ago, or data in the clear. -/
def nekFails (s : State) (f : RxFrame) : Bool :=
  match f.key with
  | .current => s.glk.nek.isNone
  | .previous => !within s (s.glk.oldNek.map (·.2)) 10000
  | .plain => !f.mme

/-- A whole frame on the grid link (R251–R253); the management messages of R251 have rows of their own. -/
def glkDeliver (f : RxFrame) (s : State) : State :=
  let bad := f.bad || nekFails s f || (!f.mme && s.glk.assoc != .member)
  if etherType f.bytes = 0x88B5 ∧ bad = false ∧ f.bytes.length ≤ 1518 then efdomReceive 4 (etherPayload f.bytes) s
  else if served s .glk = false then s
  else if f.mme ∧ bad = false ∧ (mmType f.bytes = 0xA0F0 ∨ mmType f.bytes = 0xA0F4) then s
  else receiveRing .glk f bad s

/-! ## Reassembly (R249) -/

/-- An MSDU of a station and priority has been delivered already: its sequence number, modulo 2^16, is not after the last. -/
def delivered (s : State) (tei prio seq : Nat) : Bool :=
  match (nbOf s tei).bind fun n => n.lastMsdu.find? (·.1 == prio) with
  | some (_, q) => decide ((q + 65536 - seq % 65536) % 65536 < 32768)
  | none => false

/-- A PB that repeats one already received is discarded and counted (R249, R256). -/
def countDup : State → State := onGlk fun b => { b with fmt := satInc 8 b.fmt }

/-- The PBs of an MPDU that stand: new ones join the MSDU, and how many repeat. -/
def takePbs (old : List (Nat × Bytes)) : List RxPb → List (Nat × Bytes) × Nat
  | [] => (old, 0)
  | p :: r =>
    if p.ok = false then takePbs old r
    else if old.any (·.1 == p.index) then ((takePbs old r).1, (takePbs old r).2 + 1)
    else takePbs (old ++ [(p.index, p.data)]) r

/-- Every PB is there. -/
def Reasm.complete (r : Reasm) : Bool := (List.range r.total).all fun i => r.pbs.any (·.1 == i)

/-- The complete MSDUs of a station and priority that no incomplete one comes before, and what stays. -/
def inOrder (tei prio : Nat) : List Reasm → List Reasm × List Reasm
  | [] => ([], [])
  | r :: rest =>
    if r.frame.src = tei ∧ r.prio = prio then
      if r.complete then (r :: (inOrder tei prio rest).1, (inOrder tei prio rest).2) else ([], r :: rest)
    else ((inOrder tei prio rest).1, r :: (inOrder tei prio rest).2)

/-- A complete MSDU is delivered. -/
def deliverMsdu (s : State) (r : Reasm) : State :=
  let bytes := (List.range r.total).flatMap fun i => ((r.pbs.find? (·.1 == i)).map (·.2)).getD []
  glkDeliver { r.frame with bytes := bytes }
    (onNb r.frame.src (fun n => { n with lastMsdu := (r.prio, r.seq % 65536) :: n.lastMsdu.filter (·.1 != r.prio) }) s)

/-- MSDUs are delivered in order for each neighbour and priority. -/
def releaseMsdus (tei prio : Nat) (s : State) : State :=
  let l := inOrder tei prio s.glk.reasm
  l.1.foldl deliverMsdu (onGlk (fun b => { b with reasm := l.2 }) s)

/-- An MPDU of a MEMBER (R249): acknowledged unless it is a group frame, its new PBs kept, what is complete delivered. -/
def takeMpdu (f : RxFrame) (m : RxMpdu) (s : State) : State :=
  let prio := if m.group then 4 else f.cap % 4
  let s := if m.group then s else glkSend f.src (4 :: m.pbs.map fun p => BitVec.ofNat 8 (flagAt p.ok 0)) s
  if delivered s f.src prio m.seq then
    (if m.group then s else (m.pbs.filter (·.ok)).foldl (fun s _ => countDup s) s)
  else
    let same (r : Reasm) : Bool := r.frame.src == f.src && r.prio == prio && r.seq == m.seq
    let old := (s.glk.reasm.find? same).getD
      { frame := { f with mpdu := none }, prio := prio, seq := m.seq, total := m.total, pbs := [] }
    let x := takePbs old.pbs m.pbs
    let r := { old with pbs := x.1 }
    let s := if m.group then s else (List.range x.2).foldl (fun s _ => countDup s) s
    releaseMsdus f.src prio (onGlk (fun b => { b with
      reasm := if b.reasm.any same then b.reasm.map fun y => if same y then r else y else b.reasm ++ [r] }) s)

/-- A tone map for reception among the 32 cached: the least recently used one goes. -/
def cacheMap (m : RxMap) (l : List RxMap) : List RxMap :=
  keepLast 32 (l.filter (fun x => x.tei != m.tei) ++ [m])

/-- A sound frame (R247, R248): the tone map for reception, whose bits the spec leaves open, is made, kept among 32 and sent to
the station. -/
def answerSound (tei : Nat) (s : State) : State :=
  let maps := (List.range 6).map fun k => maskMap s.str.cur (slice (533 * k) 533 (freeBytes s 3198))
  glkSend tei (5 :: maps.flatten) (bump (onGlk (fun b => { b with rxMaps := cacheMap { tei := tei, maps := maps } b.rxMaps }) s))

/-- The tone map for reception from a station is used. -/
def useRxMap (tei : Nat) : State → State :=
  onGlk fun b => { b with rxMaps := b.rxMaps.filter (·.tei != tei) ++ b.rxMaps.filter (·.tei == tei) }

/-- Source address of a whole frame. -/
def macOf (f : RxFrame) : Option Nat := if 12 ≤ f.bytes.length then some (beNat (slice 6 6 f.bytes)) else none

/-- A frame on the grid link (R247–R249): the station is heard; a sound frame is answered; an MPDU is put together. -/
def glkReceive (f : RxFrame) (s : State) : State :=
  if s.glk.assoc = .off ∨ s.glk.assoc = .noNmk then s
  else
    let s := useRxMap f.src (hear f.src (macOf f) false s)
    if f.sound then answerSound f.src s
    else match f.mpdu with
      | none => glkDeliver f s
      | some m =>
        if s.glk.assoc = .member then takeMpdu f m s
        else if served s .glk then rxDiscard .glk 6 s else s

/-- A frame on the MAC (R254); with its FCS a frame below 64 bytes is a runt. -/
def ethReceive (f : RxFrame) (s : State) : State :=
  if s.eth.en = false then s
  else if f.bytes.length < 60 then (if served s .eth then rxDiscard .eth 6 s else s)
  else if etherType f.bytes = 0x88B5 ∧ f.bad = false ∧ f.bytes.length ≤ 1518 then efdomReceive 3 (etherPayload f.bytes) s
  else if served s .eth = false then s
  else receiveRing .eth f f.bad (if f.bad then s else ptpCapture .eth false f.bytes s)

/-- MMTYPEs, without their two lowest bits, that the microcode handles (R231): CM_SET_KEY, CM_SLAC_PARM, CM_START_ATTEN_CHAR,
CM_ATTEN_CHAR, CM_MNBC_SOUND, CM_VALIDATE, CM_SLAC_MATCH (PRESUMED, HomePlug Green PHY). -/
def microcodeTypes : List Nat := [0x6008, 0x6064, 0x6068, 0x606C, 0x6074, 0x6078, 0x607C]

/-- Decryption on a vehicle link fails (R236 row 6, R237): no NMK, an earlier one, or data in the clear. -/
def nmkFails (s : State) (o : Nat) (f : RxFrame) : Bool :=
  match f.key with
  | .current => (linkOf s o).nmk.isNone
  | .previous => true
  | .plain => !f.mme

/-- A frame on a vehicle link (R231, R236, R237): the microcode keeps its own management messages; CM_AMP_MAP (MMTYPE 0x601C,
PRESUMED) is ignored; it and the messages the microcode does not know are counted. -/
def vlkReceive (o : Nat) (f : RxFrame) (s : State) : State :=
  let t := mmType f.bytes / 4 * 4
  let count (s : State) : State := onLink o (fun l => { l with fmt := satInc 8 l.fmt }) s
  if served s (.vlk o) = false then s
  else if f.mme ∧ t = 0x601C then count s
  else if f.mme ∧ microcodeTypes.contains t then s
  else receiveRing (.vlk o) f (f.bad || nmkFails s o f) (if f.mme then count s else s)

/-- FRAME_RECEIVED (R236, R253, R254, R407, R408). -/
def execFrameReceived (p : Port) (f : RxFrame) (s : State) : Host.Outcome State Fault Refusal :=
  .next (if portThere s p = false ∨ s.sys.mode = .watch ∨ s.sys.mode = .dormant then s
    else match p with
      | .vlk o => vlkReceive o f s
      | .glk => glkReceive f s
      | .eth => ethReceive f s
      | .can c => canReceive c f s)

/-! ## LIMP (R253, R407) -/

/-- Writes back what the device owns at the head of a receive ring. -/
def rxFlush (p : Port) : Nat → State → State
  | 0, s => s
  | n + 1, s =>
    if rxOwned s p then
      let a := rxDesc s p
      let fl := descFlags s a
      let s := sramPut (a + 7) (leBytes 1 stsState) s
      let s := sramPut (a + 6) (leBytes 1 (fl / 2 * 2)) s
      rxFlush p n (onRings p (fun r => { r with rxHead := (r.rxHead + 1) % 128 }) s)
    else s

/-- Writes back what the device owns in a transmit ring. -/
def txFlush (p : Port) : Nat → State → State
  | 0, s => s
  | n + 1, s => if txOwned s p then txFlush p n (txDone p stsState s) else s

/-- The ports whose rings stop in LIMP. -/
def limpPorts : List Port := [.glk, .eth, .can 0, .can 1]

/-- At LIMP entry the descriptors the device owns are written back STS_STATE. -/
def flushRings (s : State) : State :=
  limpPorts.foldl (fun s p => if portThere s p then rxFlush p 128 (txFlush p 128 s) else s)
    (onGlk (fun b => { b with msdu := none }) s)

/-- At the end of LIMP the rings are served again. -/
def resumeRings (s : State) : State := limpPorts.foldl (fun s p => pump p s) s

end Sys2Proof.Machine
end

