-- ==== Sys2Proof/Machine/Keystore.lean ====
section
/-! DEFINITION. Use of the working-key slots (R331): whether a slot serves an operation for a requester, and a misuse. -/

namespace Sys2Proof.Machine

def slotOf (s : State) (n : Nat) : KeySlot := s.key.slots.getD n KeySlot.fresh
def onSlot (n : Nat) (f : KeySlot → KeySlot) : State → State := onKey fun b => { b with slots := upd b.slots n f }

/-- A slot is loaded with a key type, and its USAGE names the operation (bit 0–7) and the requester (bit 8–13). -/
def keyServes (s : State) (n ktype op requester : Nat) : Bool :=
  let k := slotOf s n
  k.loaded && k.ktype == ktype && bitAt k.usage op && bitAt k.usage requester

/-- A request that the slot's USAGE does not name (R331): EV_KEY_MISUSE, at most once in 60 s per slot. -/
def keyMisuse (n requester op : Nat) (s : State) : State :=
  if within s (s.key.misuse.getD n none) 60000 then s
  else logEv .security 0x12 n 0x1205 [(1, n), (1, requester), (1, op)]
    (onKey (fun b => { b with misuse := put b.misuse n (some s.ticks) }) s)

/-- Asks a slot for an operation: served, or a misuse when the loaded key does not name it. -/
def askKey (n ktype op requester : Nat) (s : State) : State :=
  if (slotOf s n).loaded ∧ keyServes s n ktype op requester = false then keyMisuse n requester op s else s

end Sys2Proof.Machine
end

