-- ==== Sys2Proof/Machine/Grid.lean ====
section
/-! DEFINITION. The grid link (R242–R257) and the Ethernet MAC (R254, R256): membership, neighbours, tone maps, selective
resending, phase detection, the replay check of wake frames, link state and backhaul. The kinds of a sent message are
1 CC_ASSOC.REQ, 2 CM_GET_KEY.REQ, 3 a channel estimation request, and the bytes of a GLK_ZC.IND. -/

namespace Sys2Proof.Machine

/-! ## Membership (R246) -/

/-- Code of a membership state (R256). -/
def Assoc.code : Assoc → Nat
  | .off => 0 | .search => 1 | .assoc => 2 | .auth => 3 | .member => 4 | .lost => 5 | .noNmk => 6

/-- The modem is powered (R243, R252). -/
def glkOn (s : State) : Bool :=
  blockBit s 4 && s.glk.en && s.sys.mode != .watch && s.sys.mode != .dormant

/-- A grid NMK is in slot NMKSLOT (R331): type 1 with MODEM for the grid modem. -/
def hasNmk (s : State) : Bool := keyServes s s.glk.nmkSlot 1 7 12
/-- The NID of the network that the NMK names. -/
def ownNid (s : State) : Nat := Config.nidOf (slotOf s s.glk.nmkSlot).material

/-- EV_GLK_ASSOC. -/
def logAssoc (old new : Assoc) (row : Nat) (s : State) : State :=
  logEv .comm 0x0E 0xFF 0x0E01 [(1, old.code), (1, new.code), (1, row), (1, s.glk.ccoTei)] s

/-- The membership is given up: TEI, NEK and lease, and with the own offset the phases (R250). -/
def dropMember (a : Assoc) (s : State) : State :=
  onGlk (fun b => { b with assoc := a, tei := 0, ccoTei := 0, nek := none, oldNek := none, leaseEnd := none, requests := 0,
                           backingOff := false, sync := false, period := 0, reasm := [] }) (forgetPhases s)

/-- A dropped MSDU of a modem that leaves MEMBER goes back by row 3 of R236. -/
def abandonMsdu (s : State) : State := pump .glk (onGlk (fun b => { b with msdu := none }) s)

/-- Rows 1 and 2. -/
def glkGate (s : State) : State :=
  if blockBit s 4 = false then s
  else if s.glk.en = false ∨ s.sys.mode = .dormant ∨ s.mgt.therm = 4 then (if s.glk.assoc = .off then s else abandonMsdu (dropMember .off s))
  else
    let s := askKey s.glk.nmkSlot 1 7 12 s
    if hasNmk s = false then (if s.glk.assoc = .noNmk then s else abandonMsdu (dropMember .noNmk s))
    else if s.glk.assoc = .off ∨ s.glk.assoc = .noNmk then onGlk (fun b => { b with assoc := .search, backoff := 1 }) s
    else s

/-- An association request. -/
def requestAssoc (s : State) : State := glkSend s.glk.ccoTei [1] (onGlk (fun b => { b with requests := b.requests + 1 }) s)
/-- A request for the NEK. -/
def requestNek (s : State) : State := glkSend s.glk.ccoTei [2] (onGlk (fun b => { b with requests := b.requests + 1 }) s)

/-- Row 8: LOST, then SEARCH at once. -/
def loseMember (s : State) : State :=
  if s.glk.assoc = .member then
    let s := logAssoc .member .lost 8 (onGlk (fun b => { b with lostCnt := satInc 8 b.lostCnt }) s)
    abandonMsdu (dropMember .search s)
  else s

/-! ## Own zero crossing (R250) -/

/-- The own offset: the mean over the last 16 beacon periods, whose rounding the spec leaves open; none while invalid. -/
def ownOffset (s : State) : Option Nat :=
  if zcLocked s ∧ s.glk.offsets.length = 16 then
    some (openQuot (freeBit s) (s.glk.offsets.foldl (· + ·) 0 : Nat) 16).toNat
  else none

/-- The crossing of one beacon period. -/
def takeCrossing (c : Option Nat) (s : State) : State :=
  match c with
  | some x => if zcLocked s then onGlk (fun b => { b with offsets := (x :: b.offsets).take 16 }) s else forgetPhases s
  | none => forgetPhases s

/-! ## Beacons and association -/

/-- A received tone map comes into force: its regions leave Standard ROBO (R248). -/
def takeMap (t : Struct) (n : Neighbour) : Neighbour :=
  match n.newMap with
  | some m => { n with
      rate := m.rate, newMap := none, allFailed := 0, sameOffset := 0,
      regions := m.maps.map fun x => { start := x.1, map := maskMap t x.2, recent := [], robo := false } }
  | none => n

/-- New tone maps take effect at a beacon boundary (R248). -/
def applyMaps (s : State) : State :=
  onGlk (fun b => { b with beacons := b.beacons + 1, nbs := b.nbs.map (takeMap s.str.cur) }) s

/-- GLK_BEACON (R246, R247, R248, R250, R267). -/
def execGlkBeacon (b : Beacon) (s : State) : Host.Outcome State Fault Refusal :=
  .next (if glkOn s = false ∨ hasNmk s = false ∨ b.nid ≠ ownNid s ∨ s.glk.assoc = .off ∨ s.glk.assoc = .noNmk then s
    else
      let s := hear b.tei (some b.mac) true s
      let s := b.discover.foldl (fun s d => enter d.1 d.2 false s) s
      let s := onGlk (fun x => { x with sync := true, period := b.period }) s
      let s := takeCrossing b.crossing (applyMaps s)
      match s.glk.assoc with
      | .search => requestAssoc (onGlk (fun x => { x with assoc := .assoc, ccoTei := b.tei, requests := 0 }) s)
      | .member =>
        let s := captureBeacon b.bts s
        if b.released then loseMember s else s
      | _ => s)

/-- Seconds of the association lease. -/
def leaseTicks : Nat := msTicks 900000

/-- CC_ASSOC_CNF (R246 rows 4, 5); for a MEMBER it renews the lease. -/
def execCcAssocCnf (ok : Bool) (tei : Nat) (s : State) : Host.Outcome State Fault Refusal :=
  .next (match s.glk.assoc with
    | .assoc =>
      if s.glk.backingOff then s
      else if ok then
        requestNek (onGlk (fun b => { b with assoc := .auth, tei := tei, requests := 0, leaseEnd := some (s.ticks + leaseTicks) }) s)
      else onGlk (fun b => { b with backingOff := true }) s
    | .member => if ok then onGlk (fun b => { b with leaseEnd := some (s.ticks + leaseTicks) }) s else s
    | _ => s)

/-- A NEK comes into force; the one before it is accepted for 10 s more. -/
def takeNek (nek : Bytes) (s : State) : State :=
  if s.glk.nek = some nek then s
  else onGlk (fun b => { b with nek := some nek, oldNek := b.nek.map fun k => (k, s.ticks), nekGen := (b.nekGen + 1) % 256 }) s

/-- NEK_RECEIVED (R246 row 6). -/
def execNekReceived (nek : Bytes) (s : State) : Host.Outcome State Fault Refusal :=
  .next (match s.glk.assoc with
    | .auth =>
      if s.glk.backingOff then s
      else logAssoc .auth .member 6 (onGlk (fun b => { b with assoc := .member, backoff := 1, requests := 0 }) (takeNek nek s))
    | .member => takeNek nek s
    | _ => s)

/-- GLK_ASSOC_TIMEOUT (R246 rows 5, 7): three requests in all. -/
def execGlkAssocTimeout (s : State) : Host.Outcome State Fault Refusal :=
  .next (if s.glk.backingOff then s
    else match s.glk.assoc with
      | .assoc => if s.glk.requests < 3 then requestAssoc s else onGlk (fun b => { b with backingOff := true }) s
      | .auth => if s.glk.requests < 3 then requestNek s else onGlk (fun b => { b with backingOff := true }) s
      | _ => s)

/-- GLK_BACKOFF_EXPIRY (R246): SEARCH; the backoff doubles. -/
def execGlkBackoffExpiry (s : State) : Host.Outcome State Fault Refusal :=
  .next (if s.glk.backingOff then
    let s := logAssoc s.glk.assoc .search (if s.glk.assoc = .assoc then 5 else 7) s
    onGlk (fun b => { b with backoff := min 64 (2 * b.backoff) }) (dropMember .search s)
    else s)

/-- GLK_BEACON_LOSS (R246 row 8). -/
def execGlkBeaconLoss (s : State) : Host.Outcome State Fault Refusal := .next (loseMember s)

/-- A renewal of the lease is asked for (R246): at half its time, and at PREPARE. -/
def renewLease (s : State) : State := if s.glk.assoc = .member then glkSend s.glk.ccoTei [1] s else s

/-- GLK_LEASE_RENEW (R246). -/
def execGlkLeaseRenew (s : State) : Host.Outcome State Fault Refusal := .next (renewLease s)

/-- After WATCH: MEMBER again while the lease runs, else SEARCH (R246). -/
def glkAfterWatch (s : State) : State :=
  if blockBit s 4 = false ∨ s.glk.en = false then s
  else if s.glk.assoc = .member then
    (if s.glk.leaseEnd.any (fun e => decide (s.ticks < e)) then onGlk (fun b => { b with sync := false }) s
     else abandonMsdu (dropMember .search s))
  else s

/-! ## Backhaul (R254) -/

/-- The backhaul in use: 0 none, 1 grid link, 2 Ethernet. -/
def backhaulInUse (s : State) : Nat :=
  let grid := if blockBit s 4 && s.glk.en then 1 else 0
  let eth := if blockBit s 5 && s.eth.en then 2 else 0
  match s.glk.backhaul with
  | 0 => grid
  | 1 => eth
  | _ => if s.eth.failover then grid else eth

/-- EV_BACKHAUL on a change: cause 0 configuration, 1 link down, 2 link up. -/
def logBackhaul (old cause : Nat) (s : State) : State :=
  if backhaulInUse s = old then s else logEv .comm 0x0E 0xFF 0x0E07 [(1, old), (1, backhaulInUse s), (1, cause)] s

/-- BACKHAUL_FAILOVER (R254). -/
def execBackhaulFailover (s : State) : Host.Outcome State Fault Refusal :=
  let old := backhaulInUse s
  .next (if s.glk.backhaul ≠ 2 then s
    else if s.eth.failover = false ∧ s.eth.link = false then logBackhaul old 1 (onEth (fun b => { b with failover := true }) s)
    else if s.eth.failover ∧ s.eth.link then logBackhaul old 2 (onEth (fun b => { b with failover := false }) s)
    else s)

/-- GLK_CFG_WRITE (R256, R246): a field outside its range keeps its value. -/
def glkCfgWrite (w : Nat) (s : State) : State :=
  if blockBit s 4 = false then s
  else
    let old := backhaulInUse s
    let life := field w 31 20
    let zc := field w 19 14
    let zcOk := zc == 0x3F || (laneRec s zc).any fun l => l.qty == 1 && isAc s l.outlet
    let bh := field w 5 4
    let moved := zcOk && zc != s.glk.zcLane
    let s := onGlk (fun b => { b with
      lifetime := if 100 ≤ life ∧ life ≤ 4000 then life else b.lifetime, zcLane := if zcOk then zc else b.zcLane,
      nmkSlot := field w 12 8, backhaul := if bh = 3 then b.backhaul else bh, en := bitAt w 0 }) s
    let s := onEth (fun b => { b with failover := b.failover && s.glk.backhaul == 2 }) s
    logBackhaul old 0 (glkGate (if moved then forgetPhases s else s))

def execGlkCfgWrite (w : Word) (s : State) : Host.Outcome State Fault Refusal := .next (glkCfgWrite w.toNat s)

/-! ## Neighbours and tone maps (R247, R248) -/

/-- NEIGHBOUR_EXPIRY (R247). -/
def execNeighbourExpiry (tei : Nat) (s : State) : Host.Outcome State Fault Refusal :=
  .next (removeNb tei s)

/-- The ACTIVE neighbour whose map was used longest ago. -/
def leastUsed (l : List Neighbour) : Option Neighbour :=
  (l.filter (·.tm == .active)).foldl (fun best n => match best with
    | some b => if n.useTick < b.useTick then some n else some b
    | none => some n) none

/-- A neighbour's map falls to ROBO. -/
def toRobo (tick : Option Nat) (n : Neighbour) : Neighbour :=
  { n with tm := .robo, rate := 0, newMap := none, requests := 0, reest := false, failTick := tick }

/-- Frees one of the 32 cache slots when all are taken (R248 row 3). -/
def freeMapSlot (tei : Nat) (s : State) : State :=
  let others := s.glk.nbs.filter (·.tei != tei)
  if (others.filter (·.tm == .active)).length < 32 then s
  else match leastUsed others with
    | some v => onNb v.tei (fun n => toRobo n.failTick n) s
    | none => s

/-- TONE_MAP_RECEIVED (R248 rows 3, 5): in force from the next beacon boundary. -/
def execToneMapReceived (tei : Nat) (map : ToneMap) (s : State) : Host.Outcome State Fault Refusal :=
  .next (match nbOf s tei with
    | some n =>
      if n.tm = .estimating ∨ (n.tm = .active ∧ n.reest) then
        onNb tei (fun n => { n with
          tm := .active, newMap := some { rate := min map.rate 1744, maps := map.maps.take 6 }, requests := 0, reest := false,
          madeTick := s.ticks, useTick := s.ticks })
          (freeMapSlot tei s)
      else s
    | none => s)

/-- TONE_MAP_TIMEOUT (R248 rows 4, 7). -/
def execToneMapTimeout (tei : Nat) (why : ToneTimeout) (s : State) : Host.Outcome State Fault Refusal :=
  .next (match nbOf s tei, why with
    | some n, .request =>
      if n.tm = .estimating then
        (if n.requests < 3 then requestMap tei s else onNb tei (toRobo (some s.ticks)) s)
      else if n.tm = .active ∧ n.reest then requestMap tei s
      else s
    | some n, .reestimation => if n.tm = .active ∧ n.reest then onNb tei (toRobo (some s.ticks)) s else s
    | none, _ => s)

/-- Re-estimation begins; the map in force stays in use. -/
def reestimate (tei : Nat) (s : State) : State :=
  match nbOf s tei with
  | some n => if n.tm = .active ∧ n.reest = false then requestMap tei (onNb tei (fun n => { n with reest := true, requests := 0 }) s) else s
  | none => s

/-- TONE_MAP_REESTIMATE (R248 row 5). -/
def execToneMapReestimate (tei : Nat) (s : State) : Host.Outcome State Fault Refusal := .next (reestimate tei s)

/-- Every tone map is estimated anew, after a change of the notch mask (R245). -/
def reestimateAll (s : State) : State := s.glk.nbs.foldl (fun s n => reestimate n.tei s) s

/-! ## Selective resending (R249) -/

/-- Marks the PBs of an MPDU: those not yet acknowledged, in order. -/
def markPbs : List (Nat × Bool) → List Bool → List (Nat × Bool)
  | [], _ => []
  | (n, true) :: r, ok => (n, true) :: markPbs r ok
  | (n, false) :: r, [] => (n, false) :: markPbs r []
  | (n, false) :: r, k :: ok => (n, k) :: markPbs r ok

/-- Consecutive beacon periods with failures at one offset, after a failure in period `p` (R249). -/
def samePeriods (p offset : Nat) (n : Neighbour) : Nat :=
  if n.sameOffset ≠ 0 ∧ offset = n.lastOffset ∧ p = n.lastPeriod then n.sameOffset
  else if n.sameOffset ≠ 0 ∧ offset = n.lastOffset ∧ p = n.lastPeriod + 1 then n.sameOffset + 1
  else 1

/-- Counts the outcomes of an MPDU in beacon period `p` for its neighbour (R248 row 6, R249, R256). -/
def countPbs (p : Nat) (k : Sack) (resent : List Bool) (n : Neighbour) : Neighbour :=
  let bad := k.ok.map (!·)
  let all := k.ok != [] && k.ok.all (!·)
  let same := if bad.any id then samePeriods p k.offset n else n.sameOffset
  { n with pbFailed := (bad.reverse ++ n.pbFailed).take 64, pbResent := (resent.reverse ++ n.pbResent).take 64,
           allFailed := if all then n.allFailed + 1 else 0, sameOffset := same,
           lastOffset := if bad.any id then k.offset else n.lastOffset,
           lastPeriod := if bad.any id then p else n.lastPeriod,
           regions := upd n.regions k.region fun r => { r with recent := (bad.reverse ++ r.recent).take 64 } }

/-- More than 20 % of a region's last 64 PBs failed. -/
def regionBad (r : Region) : Bool := r.recent.length == 64 && decide (64 < 5 * (r.recent.filter id).length)

/-- The region split at the offset of the failures, the split part in Standard ROBO (R249); a seventh region there is not
(R247), so of six the whole region goes to ROBO (log 38). -/
def splitRegion (k : Sack) (l : List Region) : List Region :=
  if l.length < 6 then
    l ++ [{ start := k.offset, map := ((l[k.region]?).map (·.map)).getD [], recent := [], robo := true }]
  else upd l k.region fun r => { r with robo := true }

/-- Row 6 of R248 and the split of R249: the region, or the split part, goes to Standard ROBO until re-estimation. -/
def fallRobo (k : Sack) (s : State) : State :=
  match nbOf s k.tei with
  | some n =>
    if n.tm ≠ .active then s
    else if (n.regions[k.region]?).any regionBad ∨ 3 ≤ n.allFailed then
      reestimate k.tei (onNb k.tei (fun n => { n with regions := upd n.regions k.region fun r => { r with robo := true } }) s)
    else if 3 ≤ n.sameOffset then
      reestimate k.tei (onNb k.tei (fun n => { n with regions := splitRegion k n.regions, sameOffset := 0 }) s)
    else s
  | none => s

/-- Ends the MSDU at the head of the ring. -/
def endMsdu (sts : Nat) (s : State) : State :=
  let s := onGlk (fun b => { b with msdu := none }) s
  if txOwned s .glk then pump .glk (txDone .glk sts s) else s

/-- SACK_RECEIVED (R249): failed PBs are sent again, at most 8 times in all. -/
def execSackReceived (k : Sack) (s : State) : Host.Outcome State Fault Refusal :=
  .next (match s.glk.msdu with
    | some m =>
      if m.tei ≠ k.tei ∧ m.tei ≠ 0 then s
      else
        let resent := (m.pbs.filter fun x => !x.2).map fun x => decide (1 < x.1)
        let pbs := markPbs m.pbs k.ok
        let s := fallRobo k (onNb k.tei (countPbs s.glk.beacons k (resent.take k.ok.length)) s)
        let s := onGlk (fun b => { b with msdu := some { m with pbs := pbs } }) s
        if pbs.all (·.2) then endMsdu stsOk s
        else if pbs.any (fun x => !x.2 && decide (8 ≤ x.1)) then endMsdu stsTimeout s
        else s
    | none => s)

/-- MSDU_LIFETIME_EXPIRY (R249): dropped; one that had not started is row 4 of R236. -/
def execMsduLifetimeExpiry (s : State) : Host.Outcome State Fault Refusal :=
  if s.glk.msdu.isSome then .next (endMsdu stsTimeout s) else execFrameTxTimeout .glk s

/-- REASSEMBLY_TIMEOUT (R249): the station's oldest MSDU that is not complete is discarded whole; what waited behind it is
delivered. -/
def execReassemblyTimeout (tei : Nat) (s : State) : Host.Outcome State Fault Refusal :=
  .next (match s.glk.reasm.find? (·.frame.src == tei) with
    | some r => releaseMsdus tei r.prio (onGlk (fun b => { b with reasm := b.reasm.erase r }) s)
    | none => s)

/-! ## Phase detection (R250, R251) -/

/-- GLK_ZC_IND_SEND (R250, R251): the offset field of an invalid offset the spec leaves open. -/
def execGlkZcIndSend (s : State) : Host.Outcome State Fault Refusal :=
  .next (if s.glk.assoc = .member then
    let o := ownOffset s
    let v := o.getD (freeNat s)
    bump (glkSend 0xFF (leBytes 8 s.ident.deviceId ++ leBytes 4 v ++ leBytes 4 s.glk.period ++ leBytes 1 (flagAt o.isSome 0)
      ++ zeros 3) s)
    else s)

/-- Code of a phase (R256). -/
def NbPhase.code : NbPhase → Nat
  | .unknown => 0 | .same => 1 | .plus120 => 2 | .plus240 => 3 | .inconsistent => 4

/-- Class of twice a difference D against twice T: 0 SAME, 1 +120°, 2 +240°, 3 unclassified. -/
def phaseClass (d2 t2 : Nat) : Nat :=
  if 12 * d2 ≤ t2 ∨ 12 * (t2 - d2) ≤ t2 then 0
  else if 3 * t2 ≤ 12 * d2 ∧ 12 * d2 ≤ 5 * t2 then 1
  else if 7 * t2 ≤ 12 * d2 ∧ 12 * d2 ≤ 9 * t2 then 2
  else 3

/-- The decided phase after a report: 12 of the last 16 in one class; 16 without such a class are INCONSISTENT. -/
def decidePhase (old : NbPhase) (l : List Nat) : NbPhase :=
  if 12 ≤ (l.filter (· == 0)).length then .same
  else if 12 ≤ (l.filter (· == 1)).length then .plus120
  else if 12 ≤ (l.filter (· == 2)).length then .plus240
  else if l.length = 16 then .inconsistent
  else old

/-- GLK_ZC_IND (R247, R250, R251): its sender is entered. -/
def execGlkZcInd (tei : Nat) (msg : ZcMessage) (s : State) : Host.Outcome State Fault Refusal :=
  .next (if glkOn s = false ∨ s.glk.assoc ≠ .member then s
    else if msg.payload.length ≠ 20 then onGlk (fun b => { b with fmt := satInc 8 b.fmt }) s
    else
      let s := hear tei (some msg.mac) false s
      match nbOf s tei, ownOffset s with
      | some n, some own =>
        if bitAt (byteAt 16 msg.payload) 0 = false ∨ s.glk.period = 0 then
          bump (onNb tei (fun n => { n with phase := .unknown, reports := [] }) s)
        else
          let d2 := ((2 * ((leAt 8 4 msg.payload : Nat) : Int) - 2 * (own : Int)) % (s.glk.period : Int)).toNat
          let l := (phaseClass d2 s.glk.period :: n.reports).take 16
          let ph := decidePhase n.phase l
          let s := bump (onNb tei (fun n => { n with reports := l, phase := ph }) s)
          if ph = n.phase then s
          else logEv .service 0x0E 0xFF 0x0E03 [(1, tei), (1, n.phase.code), (1, ph.code), (4, d2 / 2)] s
      | some _, none => onNb tei (fun n => { n with phase := .unknown, reports := [] }) s
      | none, _ => s)

/-! ## Wake frames (R252) -/

/-- Badger's replay check after a wake: WAKE_SEQ against GLK_WAKE; the sixth replay within 1 h inhibits the detector. -/
def checkWake (s : State) : State :=
  match s.glk.wakePend with
  | none => s
  | some (seq, reason) =>
    let s := onGlk (fun b => { b with wakePend := none }) s
    if s.glk.wakeSeq < seq then
      logEv .power 0x14 0xFF 0x0E05 [(4, seq), (1, reason)]
        (onGlk (fun b => { b with wakeSeq := seq, wakeCnt := satInc 8 b.wakeCnt }) s)
    else
      let l := s.ticks :: s.glk.replays.filter fun t => decide (s.ticks < t + msTicks 3600000)
      let inhibit := decide (6 ≤ l.length)
      let held := s.glk.wakeSeq
      let s := onGlk (fun b => { b with wakeRej := satInc 8 b.wakeRej, replays := if inhibit then [] else l,
                                        wakeInhibit := b.wakeInhibit || inhibit }) s
      logEv .security 0x14 0xFF 0x0E06 [(4, seq), (4, held), (1, if inhibit then 1 else 0)] s

/-- WAKE_INHIBIT_END (R252). -/
def execWakeInhibitEnd (s : State) : Host.Outcome State Fault Refusal :=
  .next (onGlk (fun b => { b with wakeInhibit := false }) s)

/-! ## Ethernet (R254, R256) -/

/-- ETH_LINK_POLL (R254). -/
def execEthLinkPoll (up fast full : Bool) (s : State) : Host.Outcome State Fault Refusal :=
  .next (if blockBit s 5 = false ∨ s.eth.en = false ∨ s.sys.mode = .watch ∨ s.sys.mode = .dormant then s
    else
      let changed := up != s.eth.link
      let s := onEth (fun b => { b with link := up, speed := fast, duplex := full,
                                        linkTick := if changed then s.ticks else b.linkTick }) s
      if changed then pump .eth s else s)

/-- ETH_MDIO_GO (R256): writes are ignored while GO = 1. -/
def mdioWrite (w : Nat) (s : State) : State :=
  if blockBit s 5 = false ∨ s.eth.go then s
  else onEth (fun b => { b with go := bitAt w 31, wr := bitAt w 30, addr := field w 25 21, reg := field w 20 16,
                                data := field w 15 0 }) s

def execEthMdioGo (w : Word) (s : State) : Host.Outcome State Fault Refusal := .next (mdioWrite w.toNat s)

/-- ETH_MDIO_DONE (R256). -/
def execEthMdioDone (data : Nat) (s : State) : Host.Outcome State Fault Refusal :=
  .next (if s.eth.go then onEth (fun b => { b with go := false, data := if b.wr then b.data else data % 65536 }) s else s)

/-- A write of ETH_CFG (R256); a MAC switched off has no link. -/
def ethCfgWrite (w : Nat) (s : State) : State :=
  let old := backhaulInUse s
  let s := onEth (fun b => { b with en := bitAt w 0, refclk := bitAt w 1, phyAddr := field w 12 8,
                                    link := b.link && bitAt w 0,
                                    linkTick := if b.link && !bitAt w 0 then s.ticks else b.linkTick }) s
  logBackhaul old 0 (pump .eth s)

end Sys2Proof.Machine
end

