-- ==== Sys2Proof/Machine/Reset.lean ====
section
/-! DEFINITION. The assertion of a reset (R419, R421): its causes, the outputs it makes inactive, and the request of one
that waits for its save. What a reset wipes is done at the boot that follows it (Machine/Boot.lean). -/

namespace Sys2Proof.Machine

/-! Cause bits of SYS_RSTCAUSE (R427). -/

def causeVbatPor : Nat := 2
def causeRstn : Nat := 3
def causeRstnLong : Nat := 4
def causeBrownout : Nat := 5
def causeClockFail : Nat := 6
def causeSwreq : Nat := 7
def causeLifecycle : Nat := 8
def causeActivate : Nat := 9
def causeWake : Nat := 10
def causeHoldup : Nat := 11

/-- A channel whose output is off: absent stays absent, a latch stays a latch. -/
def channelOff (c : Channel) : Channel :=
  { c with supDemand := false, cur := 0, state := match c.state with
      | .absent => .absent | .latched => .latched | .fault => .fault | .uvOff => .uvOff | _ => .off }

/-- Every release, gate enable and channel output reaches its inactive level; Owl leaves RUN (R185, R417, R421). HALT is
left by the boot, which logs it (R184 row 8). -/
def outputsSafe (s : State) : State :=
  let s := onOwl (fun b => { b with
    state := if b.state = .halt then .halt else .start, ran := false, released := List.replicate 4 false, requested := List.replicate 4 false }) s
  let s := onPwr (fun b => { b with ch := b.ch.map channelOff }) s
  onLinks (fun l => { l with gate := false }) s

/-- A reset asserted: causes that coincide add up, cold if any is cold (R419). TIM leaves the instant in the RTC (R270). -/
def assertReset (cold : Bool) (causes : Nat) (pin : Bool) (s : State) : State :=
  let h : ResetHold := (match s.sys.reset with
    | some h => { cold := h.cold || cold, causes := Nat.lor h.causes causes, pin := h.pin || pin }
    | none => { cold := cold, causes := causes, pin := pin })
  let s := if s.sys.reset.isNone ∧ s.sys.mode ≠ .dormant then saveRtc s else s
  let s := onMet (fun b => { b with run := false }) (onHsi (fun b => { b with hReady := false, cReady := false }) s)
  onSys (fun b => { b with reset := some h, reqReset := none, booted := false, held := b.held || pin }) (outputsSafe s)

/-- A reset that waits for a periodic save at the next interval boundary; R359 has taken its own saves first (R421). -/
def requestReset (cold : Bool) (cause : Nat) (s : State) : State :=
  onSys (fun b => { b with resetSaved := (b.reqReset.isSome && b.resetSaved) || cause == causeActivate, reqReset := some (match b.reqReset with
    | some (c, m) => (c || cold, Nat.lor m (2 ^ cause))
    | none => (cold, 2 ^ cause)) }) s

end Sys2Proof.Machine
end

