-- ==== Sys2Proof/Machine/Tags.lean ====
section
/-! DEFINITION. The reader, the authorisation cache and the commissioning tag (R275–R300). -/

namespace Sys2Proof.Machine

/-! ## Reader (R276, R277) -/

/-- The reader is declared (R34). -/
def readerThere (s : State) : Bool := blockBit s 8
/-- The reader is powered and on. -/
def readerOn (s : State) : Bool := readerThere s && s.tag.en && s.sys.mode != .dormant && !s.sys.holdup && s.sys.reset.isNone
/-- The reader polls in the present mode. -/
def readerPolls (s : State) : Bool := readerOn s && s.sys.mode != .watch && s.tag.held.isNone

/-- Code of TAG_STATUS.READER (R299). -/
def Reader.code : Reader → Nat
  | .off => 0 | .reduced => 1 | .polling => 2 | .holding => 3 | .yielding => 4

/-- One step of the first-order filter of 8 s at a measurement a millisecond, in 2^−32 of a measurement unit (R277, log 32). -/
def trackBase (base amp : Nat) : Nat :=
  ((amp : Int) * 2 ^ 32 + ((base : Int) - (amp : Int) * 2 ^ 32) * expNeg 1 8000 / 2 ^ 60).toNat

/-- TAG_DET.BASE as it reads (R299). -/
def baseShown (base : Nat) : Nat := base / 2 ^ 32 % 65536

/-- Consecutive measurements off the baseline by DET_THR × 0.5 % or more, this one among them. -/
def offCount (b : TagBlock) (amp : Nat) : Nat :=
  if b.detThr * b.base ≤ 200 * (((amp % 65536 : Nat) : Int) * 2 ^ 32 - b.base).natAbs then min 3 (b.offBase + 1) else 0

/-- REDUCED_FIELD_MEASUREMENT (R277): a measurement off the baseline by DET_THR × 0.5 % or more counts, then the filter runs. -/
def execReducedFieldMeasurement (amp : Nat) (s : State) : Host.Outcome State Fault Refusal :=
  .next (if readerOn s ∧ s.tag.held = none ∧ (s.tag.reader ≠ .yielding ∨ s.sys.mode = .watch) then
    onTag (fun b => { b with
      last := amp % 65536, base := trackBase b.base (amp % 65536), offBase := offCount b amp }) s
    else s)

/-- A detection: three consecutive measurements off the baseline. -/
def detected (s : State) : Bool := readerOn s && s.tag.offBase == 3
/-- The detection is shown, and the full poll that follows is marked. -/
def takeDetection : State → State := onTag fun b => { b with detect := true, offBase := 0, afterDetect := true }

/-! ## Lookup (R282–R284) -/

/-- The 14 bytes of an entry before CHECK (R283). -/
def entryHead (e : CacheEntry) : Bytes := leBytes 8 e.key ++ leBytes 4 e.expiry ++ leBytes 1 e.flags ++ leBytes 1 e.cls
/-- The 16 bytes of an entry. -/
def entryBytes (e : CacheEntry) : Bytes := entryHead e ++ leBytes 2 e.check
/-- CHECK passes. -/
def entryOk (e : CacheEntry) : Bool := e.check == crc16 (entryHead e)
/-- VALID. -/
def entryValid (e : CacheEntry) : Bool := bitAt e.flags 7

/-- KEY of a tag (R283). -/
def tagKey (tech : Nat) (uid : Bytes) : Nat :=
  leNat ((Config.sha256 (leBytes 1 tech ++ leBytes 1 uid.length ++ uid)).take 8)

/-- The two buckets of a key. -/
def buckets (key : Nat) : List Nat := [key % 2048, key / 2048 % 2048]
/-- The places of a bucket. -/
def placesOf (b : Nat) : List Nat := (List.range 8).map fun i => b * 8 + i

/-- The VALID entry with a key, in one of its buckets. -/
def findEntry (key : Nat) (l : List (Nat × CacheEntry)) : Option (Nat × CacheEntry) :=
  l.find? fun p => entryValid p.2 && p.2.key == key && (buckets key).contains (p.1 / 8)

/-- An entry at a place; the table stays sorted by place. -/
def placeEntry (p : Nat) (e : CacheEntry) : List (Nat × CacheEntry) → List (Nat × CacheEntry)
  | [] => [(p, e)]
  | (k, x) :: r => if p < k then (p, e) :: (k, x) :: r else if p = k then (p, e) :: r else (k, x) :: placeEntry p e r
/-- A place without its entry. -/
def dropEntry (p : Nat) (l : List (Nat × CacheEntry)) : List (Nat × CacheEntry) := l.filter (·.1 != p)

/-- Signature results (R287): 0 NONE, 1 VALID, 2 INVALID, 3 UNREADABLE. -/
def signatureOf (s : State) (t : TagFound) : Nat :=
  match (s.key.orig.filterMap id).find? fun k => k.tech == t.tech && Nat.land t.param k.mask == Nat.land k.value k.mask with
  | none => 0
  | some k => match t.answer with
    | none => 3
    | some a =>
      if a.length < k.offset + 64 then 3
      else if Config.verify k.key (leBytes 1 t.uid.length ++ t.uid) (slice k.offset 64 a) then 1 else 2

/-- Row 3 of R284: a failing CHECK is mended from the mirror, or the entry is deleted and logged. -/
def mendEntry (key : Nat) (s : State) : State :=
  match findEntry key s.tag.cache with
  | some (p, e) =>
    if entryOk e then s
    else match s.tag.mirror.get.find? (·.1 == p) with
      | some (_, m) =>
        if entryOk m && m.key == key then onTag (fun b => { b with cache := placeEntry p m b.cache }) s
        else logEv .service 0x10 0xFF 0x1002 [(2, p / 8), (1, p % 8)]
          (onTag (fun b => { b with cache := dropEntry p b.cache, chkErr := satInc 8 b.chkErr, mirrorPend := true }) s)
      | none => logEv .service 0x10 0xFF 0x1002 [(2, p / 8), (1, p % 8)]
          (onTag (fun b => { b with cache := dropEntry p b.cache, chkErr := satInc 8 b.chkErr, mirrorPend := true }) s)
  | none => s

/-- Rows 1, 2 and 4–7 of R284: the result of a lookup, and the entry. Results: 0 MISS, 1 HIT, 2 BLOCKED, 3 EXPIRED,
4 SIGFAIL, 5 NOTLOADED (R287). -/
def lookup (s : State) (key sig : Nat) : Nat × Option CacheEntry :=
  if s.tag.loaded = false then (5, none)
  else match findEntry key s.tag.cache with
    | none => (0, none)
    | some (_, e) =>
      if bitAt e.flags 6 then (2, some e)
      else if e.expiry ≠ 0 ∧ (timeValid s = false ∨ e.expiry ≤ nowSec s) then (3, some e)
      else if bitAt e.flags 4 ∧ sig ≠ 1 then (4, some e)
      else (1, some e)

/-- A HIT in LIMP (R285): the lowest CONNECTED outlet of OUTLETS with LIMP_MODE 2, else it waits; a later HIT replaces it. -/
def limpHit (e : CacheEntry) (s : State) : State :=
  if s.sys.mode ≠ .limp ∨ bitAt e.flags 5 = false then s
  else match (List.range 4).find? fun o => bitAt e.flags o && declared s o && linked s o && limpMode s o == 2
      && (linkOf s o).sup == .connected with
    | some o => limpStart o (onLink o (fun l => { l with limpHit := true }) s)
    | none => onTag (fun b => { b with limpPend := some { outlets := e.flags % 16 } }) s

/-! ## Reports (R287) and the full poll (R278) -/

/-- A report enters the FIFO, or is discarded with OVF; the event once per onset. -/
def pushReport (b : Bytes) (s : State) : State :=
  if s.tag.reports.length < 16 then onTag (fun x => { x with reports := x.reports ++ [b], rptOvfOn := false }) s
  else
    let n := s.tag.rptLost + 1
    let s' := onTag (fun x => { x with rptOvf := true, rptLost := n, rptOvfOn := true }) s
    if s.tag.rptOvfOn then s' else logEv .service 0x10 0xFF 0x1003 [(4, n)] (onTag (fun x => { x with rptLost := 0 }) s')

/-- The 32 bytes of a report. -/
def reportBytes (s : State) (t : TagFound) (uid : Bytes) (sig result : Nat) (e : Option CacheEntry) (keep : Bool) : Bytes :=
  let hit (n : Nat) : Nat := if result = 1 then n else 0
  let b := leBytes 8 (nowTs s) ++ leBytes 1 t.tech ++ leBytes 1 uid.length ++ fit 10 uid ++ leBytes 1 sig ++ leBytes 1 result
    ++ leBytes 1 (hit ((e.map (·.flags)).getD 0)) ++ leBytes 1 (hit ((e.map (·.cls)).getD 0)) ++ leBytes 2 (t.param % 256)
    ++ leBytes 1 (if keep then 1 else 0) ++ zeros 1
  b ++ leBytes 4 (crc32c b)

/-- The technology is enabled in TAG_CTL. -/
def techOn (s : State) (tech : Nat) : Bool :=
  (tech == 1 && s.tag.techA) || (tech == 2 && s.tag.techB) || (tech == 3 && s.tag.techV)

/-- The record is of the tag. -/
def SeenTag.isOf (p : SeenTag) (t : TagFound) : Bool := p.tech == t.tech && p.uid == t.uid

/-- The tag was reported and has not left the field for 500 ms: no poll has missed it since, or it was seen within 500 ms
(log 20). -/
def stillThere (s : State) (t : TagFound) : Bool :=
  s.tag.present.any fun p => p.isOf t && (!p.missed || decide (s.ticks ≤ p.tick + msTicks 500))

/-- The tag is seen. -/
def seen (t : TagFound) (s : State) : State :=
  onTag (fun b => { b with present := b.present.filter (fun p => !p.isOf t)
    ++ [{ tech := t.tech, uid := t.uid, tick := s.ticks, missed := false }] }) s

/-- A record after a poll that found `found`: missed, or gone once away for 500 ms. -/
def SeenTag.after (found : List TagFound) (ticks : Nat) (p : SeenTag) : Option SeenTag :=
  if found.any p.isOf then some { p with missed := false }
  else if ticks ≤ p.tick + msTicks 500 then some { p with missed := true }
  else none

/-- The tags that a poll did not find: missed, and forgotten once they have been away for 500 ms. -/
def missTags (found : List TagFound) (s : State) : State :=
  onTag (fun b => { b with present := b.present.filterMap (SeenTag.after found s.ticks) }) s

/-- A tag of the poll: signature, lookup, the hit in LIMP, the report; the first with ISO/IEC 14443-4 is held (R288). A tag
with only unsupported options has UIDLEN 0 and is not looked up. -/
def serveTag (s : State) (t : TagFound) : State :=
  if stillThere s t then seen t s
  else
    let s := seen t s
    let keep := !t.unsupported && t.iso4 && s.tag.hold != 0 && s.tag.held.isNone
    let uid := if t.unsupported then [] else t.uid
    let sig := if t.unsupported then 0 else signatureOf s t
    let key := tagKey t.tech uid
    let s := if t.unsupported || !s.tag.loaded then s else mendEntry key s
    let r := if t.unsupported then (0, none) else lookup s key sig
    let s := if r.1 = 4 then
        logEv .security 0x10 0xFF 0x1001 [(1, t.tech), (1, uid.length), (8, leNat (uid.take 8)), (1, sig)] s
      else s
    let s := pushReport (reportBytes s t uid sig r.1 r.2 keep) s
    let s := if keep then onTag (fun b => { b with held := some (t.tech, uid), reader := .holding }) s else s
    match r with
    | (1, some e) => limpHit e s
    | _ => s

/-! ## Anticollision (R280) -/

/-- Bits in the order of transmission, least significant first. -/
def lsbBits (b : Bytes) : List Bool := b.flatMap fun x => (List.range 8).map fun i => bitAt x.toNat i

/-- A cascade level of type A: four bytes and their BCC. -/
def cascade (b : Bytes) : Bytes := fit 4 b ++ [(fit 4 b).foldl (· ^^^ ·) 0]

/-- The bits by which type A anticollision tells UIDs of 4, 7 and 10 bytes apart, level by level. -/
def typeABits (uid : Bytes) : List Bool :=
  lsbBits (if uid.length = 7 then cascade (0x88 :: uid.take 3) ++ cascade (uid.drop 3)
    else if uid.length = 10 then cascade (0x88 :: uid.take 3) ++ cascade (0x88 :: slice 3 3 uid) ++ cascade (uid.drop 6)
    else cascade uid)

/-- Tags of one collision domain from bit `pos` on, in the order they are completed: at a collided position the branch with 1
first, then that with 0. `n` collided positions came before; a 33rd stops anticollision (log 20). Tags that no bit tells apart
answer as one. -/
def resolveBits : Nat → Nat → List (List Bool × TagFound) → Nat → List TagFound × Nat
  | 0, _, l, n => ((l.head?.map (·.2)).toList, n)
  | fuel + 1, pos, l, n => match l with
    | [] => ([], n)
    | [x] => ([x.2], n)
    | _ =>
      let one := l.filter fun x => flag x.1 pos
      let zero := l.filter fun x => !flag x.1 pos
      if one.isEmpty ∨ zero.isEmpty then resolveBits fuel (pos + 1) l n
      else if 32 ≤ n then ([], 33)
      else
        let a := resolveBits fuel (pos + 1) one (n + 1)
        if 32 < a.2 then a
        else
          let b := resolveBits fuel (pos + 1) zero a.2
          (a.1 ++ b.1, b.2)

/-- Type B: a tag alone in the field answers the first REQB; else each that is alone in its slot is served, in slot order, and
the slots that collide wait for the next poll. -/
def typeBTags (l : List TagFound) : List TagFound := match l with
  | [t] => [t]
  | l => (List.range 16).flatMap fun k => match l.filter fun t => t.slot % 16 == k with
    | [t] => [t]
    | _ => []

/-- ISO/IEC 15693: the 16 slots of an INVENTORY by the low four UID bits; a slot that collides is resolved bit by bit. -/
def typeVTags (l : List TagFound) (n : Nat) : List TagFound × Nat :=
  (List.range 16).foldl (fun acc k =>
    let x := resolveBits 64 4 ((l.filter fun t => byteAt 0 t.uid % 16 == k).map fun t => (lsbBits t.uid, t)) acc.2
    (acc.1 ++ x.1, x.2)) ([], n)

/-- The tags that a poll completes, in order (R278, R280), and whether anticollision stopped after 32 collided positions. -/
def anticollide (s : State) (l : List TagFound) : List TagFound × Bool :=
  let on (k : Nat) : List TagFound := l.filter fun t => t.tech == k && techOn s k
  let a := resolveBits 120 0 ((on 1).map fun t => (typeABits t.uid, t)) 0
  let v := typeVTags (on 3) a.2
  (a.1 ++ typeBTags (on 2) ++ v.1, decide (32 < v.2))

/-- FULL_POLL (R276, R278, R280, R277). -/
def fullPoll (p : PollInput) (s : State) : State :=
  (if readerPolls s = false then s
    else if p.foreign then onTag (fun b => { b with extField := true, reader := .yielding, foreign := b.foreign + 1 }) s
    else
      let s := onTag (fun b => { b with reader := .reduced }) s
      let (l, stopped) := anticollide s p.tags
      let s := missTags l (l.foldl serveTag s)
      let s := onTag (fun b => { b with coll := if stopped then satInc 8 b.coll else b.coll, rxErr := satAdd 8 b.rxErr p.rxErr }) s
      if s.tag.afterDetect then
        onTag (fun b => { b with afterDetect := false, falseDet := if l.isEmpty then satInc 8 b.falseDet else b.falseDet,
                                 base := if l.isEmpty then b.last * 2 ^ 32 else b.base }) s
      else s)

/-- The held tag is released: DESELECT, polling resumes (R288). -/
def releaseTag : State → State := onTag fun b => { b with held := none, reader := .reduced }

/-- TAG_HOLD_EXPIRY (R288). -/
def execTagHoldExpiry (s : State) : Host.Outcome State Fault Refusal := .next (if s.tag.held.isSome then releaseTag s else s)

/-- LIMP_HIT_EXPIRY (R285). -/
def execLimpHitExpiry (s : State) : Host.Outcome State Fault Refusal := .next (onTag (fun b => { b with limpPend := none }) s)

/-- An APDU's transmissions in order, `n` still allowed: each silence counts an FWT expiry and each bad frame a discard; a
response ends them. The third failure releases the tag, with the status of its own kind (log 20). -/
def exchange (r : Req) : Nat → List XferTry → State → State
  | n, .answer resp :: _, s =>
    if resp.length ≤ 256 ∧ 0 < n then post r stsOk 0 resp s
    else postSts r stsIntegrity (releaseTag (onTag (fun b => { b with rxErr := satInc 8 b.rxErr }) s))
  | n, .bad :: l, s =>
    let s := onTag (fun b => { b with rxErr := satInc 8 b.rxErr }) s
    if n ≤ 1 then postSts r stsIntegrity (releaseTag s) else exchange r (n - 1) l s
  | n, .silent :: l, s =>
    let s := onTag (fun b => { b with timeouts := satInc 8 b.timeouts }) s
    if n ≤ 1 then postSts r stsTimeout (releaseTag s) else exchange r (n - 1) l s
  | n, [], s => postSts r stsTimeout (releaseTag (onTag (fun b => { b with timeouts := satAdd 8 b.timeouts n }) s))

/-- TAG_XFER (R288, R298): one transmission and two repeats. -/
def execTagXfer (r : Req) (apdu : Bytes) (tries : List XferTry) (s : State) : Host.Outcome State Fault Refusal :=
  .next (guarded r [(!readerThere s, stsAbsent), (!inRange 1 256 apdu.length, stsLengthRange), (s.tag.held.isNone, stsState)]
    (exchange r 3 tries) s)

/-- TAG_RELEASE (R298). -/
def execTagRelease (r : Req) (s : State) : Host.Outcome State Fault Refusal :=
  .next (guarded r [(!readerThere s, stsAbsent), (s.tag.held.isNone, stsState)] (fun s => postSts r stsOk (releaseTag s)) s)

/-! ## Cache commands (R286, R298) -/

/-- The entry that 14 bytes spell, with its CHECK. -/
def entryOf (b : Bytes) : CacheEntry :=
  let e : CacheEntry := { key := leAt 0 8 b, expiry := leAt 8 4 b, flags := byteAt 12 b, cls := byteAt 13 b, check := 0 }
  { e with check := crc16 (entryHead e) }

/-- A free place of a bucket: one without a VALID entry. -/
def freePlace (l : List (Nat × CacheEntry)) (b : Nat) : Option Nat :=
  (placesOf b).find? fun p => !(l.any fun x => x.1 == p && entryValid x.2)

/-- The other bucket of an entry. -/
def otherBucket (key b : Nat) : Nat := match buckets key with
  | [x, y] => if x = b then y else x
  | _ => b

/-- Moves resident entries of full buckets to their alternative buckets, up to `n` moves; which entry moves the spec leaves
open (free values from draw `k` on). -/
def makeRoom : Nat → Nat → CacheEntry → Nat → List (Nat × CacheEntry) → Option (List (Nat × CacheEntry))
  | 0, _, e, b, l => (freePlace l b).map fun p => placeEntry p e l
  | n + 1, k, e, b, l =>
    match freePlace l b with
    | some p => some (placeEntry p e l)
    | none =>
      let p := b * 8 + Config.freeNat k % 8
      match l.find? (·.1 == p) with
      | some (_, old) => makeRoom n (k + 1) old (otherBucket old.key b) (placeEntry p e l)
      | none => none

/-- Placement of one entry: it replaces the same key, takes a free slot of the first bucket, then of the second, then room is
made. An entry without VALID frees its key. -/
def insertEntry (k : Nat) (e : CacheEntry) (l : List (Nat × CacheEntry)) : Option (List (Nat × CacheEntry)) :=
  match findEntry e.key l with
  | some (p, _) => some (if entryValid e then placeEntry p e l else dropEntry p l)
  | none =>
    if entryValid e = false then some l
    else match (buckets e.key).findSome? (freePlace l) with
      | some p => some (placeEntry p e l)
      | none => makeRoom 64 k e ((buckets e.key).headD 0) l

/-- Entries in order up to the first that finds no place: how many were applied, and whether all were. -/
def putEntries : List Bytes → Nat → State → State × Nat × Bool
  | [], n, s => (s, n, true)
  | b :: r, n, s => match insertEntry s.freeCtr (entryOf b) s.tag.cache with
    | some l => putEntries r (n + 1) (onTag (fun x => { x with cache := l, mirrorPend := true }) { s with freeCtr := s.freeCtr + 64 })
    | none => (s, n, false)

/-- Only the application cluster changes the cache, and not in LIMP. -/
def cacheLocked (s : State) (r : Req) : Bool := r.side == .host || s.sys.mode == .limp

/-- TAG_CACHE_PUT: the count applied is the result. -/
def execTagCachePut (r : Req) (entries : List Bytes) (s : State) : Host.Outcome State Fault Refusal :=
  .next (guarded r [(!readerThere s, stsAbsent), (decide (64 < entries.length) || entries.any (·.length != 14), stsLengthRange),
      (cacheLocked s r, stsState)]
    (fun s => let x := putEntries entries 0 s
      post r (if x.2.2 then stsOk else stsRefused) 0 (leBytes 4 x.2.1) x.1) s)

/-- TAG_CACHE_DEL. -/
def execTagCacheDel (r : Req) (key : Nat) (s : State) : Host.Outcome State Fault Refusal :=
  .next (guarded r [(!readerThere s, stsAbsent), (cacheLocked s r, stsState)]
    (fun s => postSts r stsOk (match findEntry key s.tag.cache with
      | some (p, _) => onTag (fun b => { b with cache := dropEntry p b.cache, mirrorPend := true }) s
      | none => s)) s)

/-- TAG_CACHE_GET. -/
def execTagCacheGet (r : Req) (key : Nat) (s : State) : Host.Outcome State Fault Refusal :=
  .next (guarded r [(!readerThere s, stsAbsent)]
    (fun s => post r stsOk 0 (match findEntry key s.tag.cache with
      | some (_, e) => entryBytes e
      | none => zeros 16) s) s)

/-- TAG_CACHE_CLEAR. -/
def execTagCacheClear (r : Req) (s : State) : Host.Outcome State Fault Refusal :=
  .next (guarded r [(!readerThere s, stsAbsent), (cacheLocked s r, stsState)]
    (fun s => postSts r stsOk (onTag (fun b => { b with cache := [], mirrorPend := b.mirrorPend || b.cache != [] }) s)) s)

/-- CACHE_MIRROR (R286): Badger copies the table to flash. -/
def execCacheMirror (s : State) : Host.Outcome State Fault Refusal :=
  .next (if badgerUp s ∧ s.tag.mirrorPend then onTag (fun b => { b with mirror := b.mirror.write b.cache, mirrorPend := false }) s else s)

/-- CACHE_LOADED (R286): the table is reloaded from the newest mirror copy. -/
def execCacheLoaded (s : State) : Host.Outcome State Fault Refusal :=
  .next (if readerThere s ∧ s.tag.loaded = false ∧ s.sys.reset = none then onTag (fun b => { b with cache := b.mirror.get, loaded := true }) s else s)

/-- The settings partition is wiped, and the cache with it (R286, R339). -/
def wipeCache : State → State := onTag fun b => { b with cache := [], mirror := Twin.both [], mirrorPend := false }

/-- TAG_RPT_POP (R287): ignored when FILL = 0. -/
def rptPop : State → State := onTag fun b => { b with reports := b.reports.drop 1 }
def execTagRptPop (s : State) : Host.Outcome State Fault Refusal := .next (rptPop s)

/-- TAG_STATUS as it reads (R299). -/
def tagStatus (s : State) : Nat :=
  if readerThere s = false then 0
  else ((s.tag.limpPend.map (·.outlets)).getD 0) * 2 ^ 8 + s.tag.reader.code * 2 ^ 5 + flagAt s.tag.loaded 4
    + flagAt s.tag.limpPend.isSome 3 + flagAt s.tag.extField 2 + flagAt s.tag.detect 1 + flagAt (readerOn s) 0

/-- TAG_STATUS_READ (R13, R299): the RS bits EXTFIELD and DETECT are returned and cleared. -/
def execTagStatusRead (_view : Side) (s : State) : Host.Outcome State Fault Refusal :=
  .next (returns (tagStatus s) (onTag (fun b => { b with extField := false, detect := false }) s))

/-- A write of TAG_CTL (R299): ignored whole with a field out of range. -/
def tagCtlWrite (w : Nat) (s : State) : State :=
  if readerThere s ∧ field w 31 21 ≤ 2000 ∧ inRange 100 1000 (field w 20 11) ∧ 1 ≤ field w 10 7 then
    let s := onTag (fun b => { b with hold := field w 31 21, poll := field w 20 11, detThr := field w 10 7, techV := bitAt w 3,
                                      techB := bitAt w 2, techA := bitAt w 1, en := bitAt w 0 }) s
    if bitAt w 0 = false then onTag (fun b => { b with held := none, present := [], reader := .off }) s
    else if s.tag.reader = .off then onTag (fun b => { b with reader := .reduced }) s
    else s
  else s

/-! ## Commissioning tag: state (R290–R292) -/

/-- The slot of the tag access key (R331): type 1 with MAC for TAG. -/
def accessSlot (s : State) : Option Nat := (List.range 32).find? fun n => keyServes s n 1 4 13
/-- The tag access key. -/
def accessKey (s : State) : Option Bytes := (accessSlot s).map fun n => (slotOf s n).material

/-- The life-cycle states in which the tag may be OPEN. -/
def ctMayOpen (s : State) : Bool := s.key.lc != .service && s.key.lc != .retired

/-- Code of the tag's state (R299). -/
def CtState.code : CtState → Nat
  | .isOpen => 0 | .secured => 1 | .locked => 2

/-- The 8 bytes of the UID (R290). -/
def ctUid (s : State) : Bytes := leBytes 6 s.ident.deviceId ++ leBytes 1 Config.tagMaker ++ leBytes 1 0xE0

/-- Writes a block whole, with its check. -/
def putBlock (n : Nat) (d : Bytes) (ok : Bool) : State → State :=
  onTag fun b => { b with ct := put b.ct n { data := fit 32 d, ok := ok } }

/-- Blocks 0–3 as the device writes them (R291; their layout the spec leaves open, log 13). -/
def ctInfo (s : State) : List Bytes :=
  let ver (k : Nat) : Nat := let x := s.upd.kinds.getD k Kind.fresh; (if x.activeB then x.b else x.a).version
  [leBytes 8 s.ident.deviceId ++ leBytes 2 (if s.ident.small then 0x4280 else 0x4480) ++ leBytes 1 s.key.lc.code
      ++ leBytes 1 s.tag.ctState.code,
   (List.range 8).flatMap fun k => leBytes 4 (ver k),
   leBytes 4 s.str.sealCnt ++ leBytes 4 s.str.cur.seq,
   leBytes 4 s.tag.adoptSeq]

/-- The device rewrites blocks 0–3. -/
def ctPublishInfo (s : State) : State :=
  (List.range 4).foldl (fun x n => putBlock n ((ctInfo s).getD n []) true x) s

/-- The tag's state from the life-cycle state, the access key and TAG_CT_SECURE (R292). -/
def ctRefresh (s : State) : State :=
  let key := (accessSlot s).isSome
  let st : CtState := match s.key.lc with
    | .retired => .locked
    | .service => if key then .secured else .locked
    | _ => if key && s.tag.ctSecured then .secured else .isOpen
  ctPublishInfo (onTag (fun b => { b with ctState := st, ctSecured := b.ctSecured && key }) s)

/-! ## Commissioning tag: ring commands (R297, R298) -/

/-- TAG_CT_SECURE. -/
def execTagCtSecure (r : Req) (s : State) : Host.Outcome State Fault Refusal :=
  .next (guarded r [(s.key.lc == .retired, stsLifecycle), ((accessSlot s).isNone || s.tag.ctState == .secured, stsState)]
    (fun s => postSts r stsOk (ctRefresh (onTag (fun b => { b with ctSecured := true }) s))) s)

/-- TAG_CT_OPEN. -/
def execTagCtOpen (r : Req) (s : State) : Host.Outcome State Fault Refusal :=
  .next (guarded r [(!ctMayOpen s, stsLifecycle)]
    (fun s => postSts r stsOk (ctRefresh (onTag (fun b => { b with ctSecured := false }) s))) s)

/-- TAG_CT_PUBLISH: blocks 4–7, zero-padded. -/
def execTagCtPublish (r : Req) (data : Bytes) (s : State) : Host.Outcome State Fault Refusal :=
  .next (guarded r [(decide (128 < data.length), stsLengthRange), (s.tag.field, stsBusy)]
    (fun s => postSts r stsOk ((List.range 4).foldl (fun x i => putBlock (4 + i) (slice (32 * i) 32 data) true x) s)) s)

/-- A block of the array. -/
def ctBlock (s : State) (n : Nat) : CtBlock := s.tag.ct.getD n { data := zeros 32, ok := false }

/-- The header fields of block 8 (R291), 4 bytes each in the order of the table (log 13). -/
def areaLen (s : State) : Nat := leAt 4 4 (ctBlock s 8).data
def areaSeq (s : State) : Nat := leAt 8 4 (ctBlock s 8).data
/-- The area's blocks. -/
def areaBlocks (s : State) : List Nat := (List.range (areaLen s)).map (· + 9)
/-- The bytes of the area. -/
def areaBytes (s : State) : Bytes := (areaBlocks s).flatMap fun n => (ctBlock s n).data

/-- EV_CT_REJECT. -/
def ctReject (cls : EvClass) (row block : Nat) (s : State) : State :=
  logEv cls 0x10 0xFF 0x1005 [(1, row), (4, areaSeq s), (1, block)] s

/-- TAG_CT_ADOPT (R297). -/
def execTagCtAdopt (r : Req) (s : State) : Host.Outcome State Fault Refusal :=
  let badBlock := if (ctBlock s 8).ok = false then some 8 else (areaBlocks s).find? fun n => !(ctBlock s n).ok
  .next (if s.tag.field then postSts r stsBusy s
    else if leAt 0 4 (ctBlock s 8).data ≠ 0x41524541 ∨ inRange 1 247 (areaLen s) = false then
      postSts r stsIntegrity (ctReject .service 2 0xFF s)
    else match badBlock with
      | some n => postSts r stsIntegrity (ctReject .service 3 n s)
      | none =>
        if crc32c (areaBytes s) ≠ leAt 12 4 (ctBlock s 8).data then postSts r stsIntegrity (ctReject .service 4 0xFF s)
        else if areaSeq s ≤ s.tag.adoptSeq then postSts r stsRefused (ctReject .security 5 0xFF s)
        else
          let n := areaSeq s
          let s' := onTag (fun b => { b with adoptWin := fit 8192 (areaBytes s), adopted := true, adoptSeq := n }) s
          postSts r stsOk (logEv .service 0x10 0xFF 0x1004 [(4, n), (1, areaLen s)] (ctPublishInfo s')))

/-! ## Commissioning tag: over the air (R291–R296) -/

/-- The tag answers with an error code; any command ends an outstanding challenge (R294). -/
def ctError (code : Nat) : State → State :=
  onTag fun b => { b with challenge := none, lastErr := code, answer := some (code, []) }
/-- The tag answers with data. -/
def ctAnswer (d : Bytes) : State → State := onTag fun b => { b with challenge := none, answer := some (0, d) }

/-- CT_READ_BLOCK (R291): the first block that fails its check answers error 0xA1. -/
def execCtReadBlock (block count : Nat) (s : State) : Host.Outcome State Fault Refusal :=
  let l := (List.range count).map (block + ·)
  .next (if s.tag.field = false then s
    else if count = 0 ∨ 256 < block + count then ctError 0x10 s
    else if l.any (fun n => !(ctBlock s n).ok) then
      ctError 0xA1 (onTag (fun b => { b with ctTorn := satInc 8 b.ctTorn }) s)
    else ctAnswer (l.flatMap fun n => (ctBlock s n).data) s)

/-- The field collapses (R294, R296). -/
def ctCollapse : State → State :=
  onTag fun b => { b with field := false, harv := false, writing := false, challenge := none, fails := 0 }

/-- Steps 2–5 of a block write, and where the field cuts it (R296). -/
def ctWrite (block : Nat) (data : Bytes) (reserve : Bool) (cut : WriteCut) (s : State) : State :=
  if reserve = false then ctError 0xA4 s
  else match cut with
    | .beforeErase => ctCollapse s
    | .duringErase left => ctCollapse (putBlock block left false s)
    | .beforeCheck => ctCollapse (putBlock block data false s)
    | .beforeResponse => ctCollapse (putBlock block data true s)
    | .complete => ctAnswer [] (onTag (fun b => { b with ctWrites := satInc 8 b.ctWrites }) (putBlock block data true s))

/-- A request that is malformed is ignored and counted (R289). -/
def ctIgnored : State → State := onTag fun b => { b with challenge := none, ctRxErr := satInc 8 b.ctRxErr }

/-- CT_WRITE_SINGLE_BLOCK (R292, R296). -/
def execCtWriteSingleBlock (block : Nat) (data : Bytes) (reserve : Bool) (cut : WriteCut) (s : State) : Host.Outcome State Fault Refusal :=
  .next (if s.tag.field = false then s
    else if data.length ≠ 32 then ctIgnored s
    else if 255 < block then ctError 0x10 s
    else match s.tag.ctState with
      | .locked => ctError 0x12 s
      | .secured => ctError 0xA5 s
      | .isOpen => if block < 8 then ctError 0x12 s else ctWrite block data reserve cut s)

/-- CT_GET_CHALLENGE (R294). -/
def execCtGetChallenge (s : State) : Host.Outcome State Fault Refusal :=
  .next (if s.tag.field = false then s
    else if s.tag.challengeLock then ctError 0xA2 s
    else
      let c := freeBytes s 8
      bump (onTag (fun b => { b with challenge := some (c, s.ticks) }) (ctAnswer c s)))

/-- A failed MAC: the fourth in a field session locks GET_CHALLENGE. -/
def ctMacFail (s : State) : State :=
  ctError 0xA2 (onTag (fun b => { b with fails := satInc 8 b.fails, ctAuthFail := satInc 8 b.ctAuthFail,
                                         challengeLock := b.challengeLock || decide (4 ≤ b.fails + 1) }) s)

/-- CT_AUTH_WRITE (R292, R294): in OPEN the command is not one the state accepts (error 0x01, PRESUMED ISO/IEC 15693). -/
def execCtAuthWrite (block : Nat) (data mac : Bytes) (reserve : Bool) (cut : WriteCut) (s : State) : Host.Outcome State Fault Refusal :=
  .next (if s.tag.field = false then s
    else if data.length ≠ 32 ∨ mac.length ≠ 8 then ctIgnored s
    else match s.tag.ctState, s.tag.challenge, accessKey s with
      | .locked, _, _ => ctError 0x12 s
      | .isOpen, _, _ => ctError 0x01 s
      | .secured, some (c, t), some k =>
        if msTicks 1000 < s.ticks - t then ctError 0xA3 s
        else if (Config.cmac k (c ++ ctUid s ++ leBytes 1 block ++ data)).take 8 ≠ mac then ctMacFail s
        else if 255 < block then ctError 0x10 s
        else if block < 8 then ctError 0x12 s
        else ctWrite block data reserve cut s
      | .secured, none, _ => ctError 0xA3 s
      | .secured, some _, none => ctMacFail s)

/-- CT_FIELD_CHANGE (R294–R296). -/
def execCtFieldChange (present harvest absent1s : Bool) (s : State) : Host.Outcome State Fault Refusal :=
  .next (if present then onTag (fun b => { b with field := true, harv := harvest, fails := if b.field then b.fails else 0 }) s
    else onTag (fun b => { b with challengeLock := b.challengeLock && !absent1s }) (ctCollapse s))

end Sys2Proof.Machine
end

