-- ==== Sys2Proof/Machine/Keys.lean ====
section
/-! DEFINITION. Keys, identity and life cycle (R321–R346): derived slots, blobs, key-update messages, life-cycle
transitions with their wipes, maintenance authority, zeroisation and attestation. -/

namespace Sys2Proof.Machine

/-! ## Slots and blobs (R330–R333) -/

def ascii (l : List Nat) : Bytes := l.map (BitVec.ofNat 8)
/-- HKDF-SHA-384 from the UDS with the labels of R330: "HKV met", "HKV att", "HKV kag". -/
def derivedKey : Nat → Bytes
  | 0 => Config.hkdf Config.uds (ascii [0x48, 0x4B, 0x56, 0x20, 0x6D, 0x65, 0x74])
  | 1 => Config.hkdf Config.uds (ascii [0x48, 0x4B, 0x56, 0x20, 0x61, 0x74, 0x74])
  | _ => Config.hkdf Config.uds (ascii [0x48, 0x4B, 0x56, 0x20, 0x6B, 0x61, 0x67])

/-- A derived slot as loaded: type, operation and requester by R330. -/
def derivedSlot (n : Nat) : KeySlot :=
  { ktype := if n = 0 then 4 else 5, usage := if n = 0 then 1 + 2 ^ 10 else if n = 1 then 1 else 2, param := 0, cls := 0,
    derived := true, loaded := true, material := derivedKey n }

/-- A blob copy opens in a state of its class, under the seed it was wrapped with (R332, R333). -/
def blobValid (s : State) (n : Nat) (b : Option Blob) : Bool :=
  b.any fun x => x.ok && x.slot == n && x.cls == s.key.lc.cls && s.key.seed == some x.seed

def blobSlot (b : Blob) : KeySlot :=
  { ktype := b.ktype, usage := b.usage, param := b.param, cls := b.cls, derived := false, loaded := true, material := b.material }

/-- Loads slot `n` from the valid copy with the higher COUNTER (R333); a failing copy is rewritten from the other. An
erased pair of copies is an empty slot without a failure (log 10). -/
def loadSlot (n : Nat) (s : State) : State :=
  let a := s.key.blobA.getD n none
  let b := s.key.blobB.getD n none
  let va := blobValid s n a
  let vb := blobValid s n b
  let pick : Option Blob := if va && vb then (match a, b with
      | some x, some y => if x.counter < y.counter then some y else some x
      | _, _ => none)
    else if va then a else if vb then b else none
  match pick with
  | some x => onKey (fun k => { k with
      slots := put k.slots n (blobSlot x), blobA := if va then k.blobA else put k.blobA n (some x),
      blobB := if vb then k.blobB else put k.blobB n (some x) }) s
  | none =>
    let s := onKey (fun k => { k with slots := put k.slots n KeySlot.fresh }) s
    if a.isSome ∨ b.isSome then logEv .security 0x12 n 0x1204 [(1, n), (1, flagAt a.isSome 0 + flagAt b.isSome 1)] s else s

/-- Slots 3–31 loaded (R333). -/
def loadSlots (s : State) : State :=
  onKey (fun k => { k with ready := true }) ((List.range 29).foldl (fun s i => loadSlot (i + 3) s) s)

/-- Slots 0–2 derived, in every state but RETIRED (R330). -/
def deriveSlots (s : State) : State :=
  if s.key.lc = .retired then s
  else onKey (fun k => { k with slots := k.slots.mapIdx fun n x => if n < 3 then derivedSlot n else x }) s

/-- What follows a change of the slots or of the life cycle: the grid modem's NMK, the commissioning tag's state. -/
def slotsChanged (s : State) : State := ctRefresh (glkGate s)

/-- KEY_SLOTMAP (R345). -/
def slotMap (s : State) : Nat :=
  (List.range 32).foldl (fun m n => m + flagAt (slotOf s n).loaded n) 0

/-- A fresh random blob seed. -/
def freshSeed (s : State) : State :=
  let x := freeBytes s 32
  bump (onKey (fun k => { k with seed := some x }) s)

/-- Writes a key: blob copies A and B, and the slot (R335 INSTALL). Without a seed a fresh one is made (log 10). -/
def installKey (n : Nat) (x : KeySlot) (counter : Nat) (s : State) : State :=
  let s := if s.key.seed.isNone then freshSeed s else s
  let b : Blob := { slot := n, ktype := x.ktype, cls := x.cls, usage := x.usage, param := x.param, counter := counter,
                    seed := s.key.seed.getD [], iv := fit 12 (freeBytes s 12), material := x.material, ok := true }
  bump (onKey (fun k => { k with slots := put k.slots n x, blobA := put k.blobA n (some b), blobB := put k.blobB n (some b) }) s)

/-- Overwrites a slot and erases both blob copies (R341). -/
def eraseKey (n : Nat) : State → State := onKey fun k => { k with
  slots := put k.slots n KeySlot.fresh, blobA := put k.blobA n none, blobB := put k.blobB n none }

/-! ## Zeroisation (R341, R342) -/

/-- The zeroisation line: every slot, the seed, EV_ZEROISE with the cause (detector 0–6, command 7: log 10). -/
def zeroise (cause : Nat) (s : State) : State :=
  let m := slotMap s
  let s := onKey (fun k => { k with slots := List.replicate 32 KeySlot.fresh, seed := none, zeroised := true }) s
  slotsChanged (logEv .security 0x12 0xFF 0x1208 [(1, cause), (4, m)] s)

/-- The action on a detection by the life-cycle state (R341). -/
def tamperAct (d : Nat) (s : State) : State :=
  let s := onKey (fun k => { k with tampCnt := satInc 32 k.tampCnt, tamperSince := true, latched := Nat.lor k.latched (2 ^ d) }) s
  let s := logEv .security 0x12 0xFF 0x1207 [(1, d), (1, s.key.lc.code), (4, s.key.tampCnt)] s
  if s.key.lc = .provisioned ∨ s.key.lc = .service then zeroise d s else s

/-! ## Life-cycle transitions (R325, R326, R338, R339) -/

/-- EV_LC_CHANGE; causes 0 message, 1 record lost, 2 wipe completed, 3 grant expiry (log 10). -/
def logLc (old new : Lc) (op cause : Nat) : State → State :=
  logEv .security 0x12 0xFF 0x1201 [(1, old.code), (1, new.code), (1, op), (1, cause)]

/-- Step 3 of R338: the wipes of a root-class change, and of the entry to RETIRED. With the verifier a safety session ends
(R201). -/
def wipeClass (retire : Bool) (s : State) : State :=
  let s := if retire then onKey (fun k => { k with seed := none }) s else freshSeed s
  let s := onKey (fun k => { k with
    blobA := List.replicate 32 none, blobB := List.replicate 32 none, orig := List.replicate 8 none,
    slots := k.slots.mapIdx fun n x => if n < 3 then x else KeySlot.fresh }) s
  let s := onUpd (fun b => { b with settings := List.replicate 2 { format := 0, data := [], migrated := none, writes := 0 } }) s
  let had := (owlCfg s).verifier.isSome
  let s := onOwl (fun b => { b with session := none }) (onCfg (fun c => { c with verifier := none }) (wipeCache s))
  if had then changeEntry 4 3 0 0 [] [] s else s

/-- Step 2 of R338: the record with WIPE_PENDING, and the fuses R325 calls for. -/
def writeLc (new : Lc) (owner recovery : Bytes) (pending : Bool) (s : State) : State :=
  onKey (fun k => { k with
    lcRec := k.lcRec.write { state := new, wipePending := pending, owner := owner, recovery := recovery },
    leftBlank := k.leftBlank || new != .blank, retiredFuse := k.retiredFuse || new == .retired }) s

/-- Steps 2–6 of R338: record and fuses, wipes at a change of class, record again, EV_LC_CHANGE, warm reset to come. The
safety session ends (R202); the entry to RETIRED erases the roots (R339). -/
def transition (new : Lc) (owner recovery : Bytes) (op cause : Nat) (s : State) : State :=
  let old := s.key.lc
  let s := if new = .retired ∧ outletMask s ≠ 0 then capture 1 (outletMask s) 0 (nowTs s) [] none s else s
  let owner := if new = .retired then [] else owner
  let recovery := if new = .retired then [] else recovery
  let s := writeLc new owner recovery true s
  let s := if old.cls != new.cls then wipeClass (new == .retired) s else s
  let s := writeLc new owner recovery false s
  let s := if old = .maintenance then onKey (fun k => { k with grant := none, authority := none, returnDue := false }) s else s
  let s := onOwl (fun b => { b with session := none }) (onKey (fun k => { k with busy := true }) s)
  requestReset false causeLifecycle (logLc old new op cause s)

/-- The return from MAINTENANCE to SERVICE (R327). -/
def endMaintenance (op cause : Nat) (s : State) : State :=
  if s.key.lc = .maintenance then transition .service (ownerRoot s) (recoveryRoot s) op cause s else s

/-- A return that waited for an activation takes place (R327, R42). -/
def returnIfDue (s : State) : State :=
  if s.key.returnDue ∧ s.str.act.isNone then endMaintenance 0 3 s else s

/-- MAINT_GRANT_EXPIRY (R327): the return to SERVICE, at the first moment at which no WARREN_ACTIVATE runs. -/
def execMaintGrantExpiry (s : State) : Host.Outcome State Fault Refusal :=
  .next (if s.key.lc = .maintenance ∧ s.key.grant.isSome then
    returnIfDue (onKey (fun k => { k with returnDue := true, grant := k.grant.map fun g => { g with seconds := 0 } }) s)
    else s)

/-- MAINT_AUTHORITY_EXPIRY (R327): a side's authority, or its challenge, ends. -/
def execMaintAuthorityExpiry (side : Side) (challenge : Bool) (s : State) : Host.Outcome State Fault Refusal :=
  .next (if challenge then onKey (fun k => { k with challenges := put k.challenges (sideIx side) none }) s
    else if s.key.authority.any (·.1 == side) then onKey (fun k => { k with authority := none }) s else s)

/-! ## Key-update messages (R334–R337) -/

/-- The fields of a key-update message. -/
structure KeyMsg where
  format : Nat
  length : Nat
  device : Nat
  counter : Nat
  op : Nat
  slot : Nat
  ktype : Nat
  signer : Nat
  usage : Nat
  param : Nat
  plen : Nat

def keyMsgOf (m : Bytes) : KeyMsg :=
  { format := leAt 4 2 m, length := leAt 6 2 m, device := leAt 8 8 m, counter := leAt 0x10 8 m, op := byteAt 0x18 m,
    slot := byteAt 0x19 m, ktype := byteAt 0x1A m, signer := byteAt 0x1B m, usage := leAt 0x1C 4 m, param := leAt 0x20 8 m,
    plen := leAt 0x30 2 m }

/-- Material bytes of a KTYPE (R331). -/
def materialLen (ktype : Nat) : Nat := if ktype = 5 then 48 else if ktype = 1 ∨ ktype = 6 then 16 else 32

/-- Operations that suit a KTYPE (R331, log 10). -/
def suits : Nat → Nat
  | 1 => 0xBC | 2 => 0x2C | 3 => 0x30 | 4 => 0x23 | 5 => 0x23 | 6 => 0x40 | _ => 0

/-- A valid USAGE for a KTYPE (R331). -/
def usageOk (ktype usage : Nat) : Bool :=
  decide (usage < 2 ^ 14) && Nat.land usage (suits ktype) != 0 && field usage 13 8 != 0

/-- PLEN of an operation (R336). -/
def plenOf (op ktype : Nat) : Nat :=
  match op with
  | 1 => materialLen ktype | 4 => 84 | 5 => 100 | 6 => 100 | 7 => 72 | 10 => 200 | 13 => 100 | _ => 0

/-- The plaintext payload of a message; none when its GCM tag fails (R334), or while the key-agreement slot is cleared and
nothing can open it (R342; in RETIRED for good, R330; log 10). -/
def openPayload (m : Bytes) (k : KeyMsg) (s : State) : Option Bytes :=
  if k.plen = 0 then some []
  else if (slotOf s 2).loaded = false then none
  else
    let key := Config.hkdf (Config.ecdh (derivedKey 2) (slice 0x40 97 m))
      (ascii [0x48, 0x4B, 0x56, 0x20, 0x6B, 0x75, 0x70, 0x64] ++ slice 8 16 m)
    Config.gcmOpen key (slice 0xA4 12 m) (slice 0 0xB0 m) (slice 0xB0 k.plen m) (slice (0xB0 + k.plen) 16 m)

/-- Padding and ranges inside a payload (R335, R336). -/
def payloadOk (op : Nat) (p : Bytes) : Bool :=
  match op with
  | 4 => decide (byteAt 0 p < 8) && zeroAt 1 3 p && inRange 1 3 (byteAt 4 p) && inRange 1 4 (byteAt 7 p)
      && zeroAt (8 + byteAt 7 p) (4 - byteAt 7 p) p && zeroAt 14 2 p && zeroAt 81 3 p
  | 5 => zeroAt 97 3 p
  | 6 => zeroAt 97 3 p
  | 7 => zeroAt 65 3 p && inRange 600 604800 (leAt 68 4 p)
  | 10 => zeroAt 97 3 p && zeroAt 197 3 p
  | 13 => zeroAt 97 3 p
  | _ => true

/-- Row 1 of R337: lengths, ranges, suitability and padding. A payload that does not open shows no padding. -/
def msgRangeOk (m : Bytes) (s : State) : Bool :=
  let k := keyMsgOf m
  decide (288 ≤ m.length) && k.length == 288 + k.plen && k.length == m.length && inRange 1 13 k.op
    && decide (k.counter < 2 ^ 63)
    && (if k.op ≤ 3 then inRange 3 31 k.slot else k.slot == 0)
    && (if k.op = 1 then inRange 1 6 k.ktype else if k.op = 2 then inRange 4 5 k.ktype else k.ktype == 0)
    && (if k.op ≤ 2 then usageOk k.ktype k.usage else k.usage == 0)
    && k.plen == plenOf k.op k.ktype
    && (match openPayload m k s with
      | some p => payloadOk k.op p
      | none => true)

/-- Row 2 of R337: the states of an operation (R326, R335). -/
def opAllowed (lc : Lc) (op : Nat) : Bool :=
  lc != .retired && (match op with
    | 3 => lc == .blank || lc == .maintenance || lc == .recovery
    | 5 => lc == .service
    | 6 => lc == .service || lc == .recovery
    | 7 => lc == .service
    | 8 => lc == .maintenance
    | 9 => lc == .blank
    | 10 => lc == .provisioned || lc == .recovery
    | 11 => lc == .service || lc == .maintenance
    | 13 => lc == .blank || lc == .provisioned
    | _ => true)

/-- The root classes that may sign an operation (R326, R335). -/
def signers (lc : Lc) (op : Nat) : List Nat :=
  match op with
  | 6 => [4]
  | 11 => [4]
  | 12 => if lc.cls = 3 then [3, 4] else [lc.cls]
  | _ => [lc.cls]

def rootOf (s : State) (cls : Nat) : Bytes :=
  match cls with
  | 1 => Config.testRoot | 2 => Config.factoryRoot | 3 => ownerRoot s | _ => recoveryRoot s

/-- Row 3 of R337. -/
def msgSigned (m : Bytes) (s : State) : Bool :=
  let k := keyMsgOf m
  (signers s.key.lc k.op).contains k.signer && k.device == s.ident.deviceId
    && Config.verify (rootOf s k.signer) (m.take (m.length - 96)) (m.drop (m.length - 96))

/-- A life-cycle operation (R326). -/
def isLcOp (op : Nat) : Bool := inRange 7 12 op

/-- Row 5 of R337. -/
def msgStateBad (k : KeyMsg) (s : State) : Bool :=
  (k.op == 3 && !(slotOf s k.slot).loaded) || (k.op == 8 && s.key.grant.isNone)
    || (isLcOp k.op && (anySession s || s.str.act.isSome))

/-- EV_KEY_REJECT and the result of a failed row. -/
def keyReject (r : Req) (row sts : Nat) (cls : EvClass) (k : KeyMsg) (s : State) : State :=
  postSts r sts (logEv cls 0x12 0xFF 0x1203 [(1, row), (1, k.op), (4, k.counter)] s)

/-- An operation that needs random values, refused while the DRBG has failed (R329, log 10). -/
def needsRandom (s : State) (k : KeyMsg) : Bool :=
  s.key.rngFail && (k.op == 2 || k.op == 9 || k.op == 10 || k.op == 11 || (k.op == 1 && s.key.seed.isNone))

/-- EV_KEY_RNG (R329). -/
def logRng : State → State := logEv .security 0x12 0xFF 0x1206 [(1, 1)]

def origOf (p : Bytes) : OrigKey :=
  let n := byteAt 7 p
  { tech := byteAt 4 p, value := byteAt 5 p, mask := byteAt 6 p, read := slice 8 n p, offset := leAt 12 2 p, key := slice 16 65 p }

/-- A decoder key with another base date than the one installed before it, however that one went: replay table and TID_FLOOR
start anew (R145). -/
def newBaseDate (k : KeyMsg) (s : State) : State :=
  let b := Config.base2014 k.param
  if k.ktype = 6 then
    onBil (fun x => { x with baseDate := some b }) (if s.bil.baseDate.any (· != b) then clearReplay s else s)
  else s

/-- The effect of an accepted message (R335): the state, and the result bytes. -/
def keyEffect (k : KeyMsg) (p : Bytes) (s : State) : State × Bytes :=
  let own := ownerRoot s
  let recv := recoveryRoot s
  match k.op with
  | 1 => (slotsChanged (installKey k.slot
      { ktype := k.ktype, usage := k.usage, param := k.param, cls := s.key.lc.cls, derived := false, loaded := true,
        material := p.take (materialLen k.ktype) } k.counter (newBaseDate k s)), [])
  | 2 =>
    let x := freeBytes s (materialLen k.ktype)
    (slotsChanged (installKey k.slot
      { ktype := k.ktype, usage := k.usage, param := k.param, cls := s.key.lc.cls, derived := false, loaded := true,
        material := x } k.counter (bump s)), fit (if k.ktype = 4 then 65 else 97) (Config.publicKey x))
  | 3 => (slotsChanged (eraseKey k.slot s), [])
  | 4 => (onKey (fun b => { b with orig := put b.orig (byteAt 0 p) (some (origOf p)) }) s, [])
  | 5 => (onKey (fun b => { b with lcRec := b.lcRec.change fun l => { l with owner := slice 0 97 p } }) s, [])
  | 6 => (onKey (fun b => { b with lcRec := b.lcRec.change fun l => { l with recovery := slice 0 97 p } }) s, [])
  | 7 => (transition .maintenance own recv 7 0
      (onKey (fun b => { b with grant := some { key := slice 0 65 p, seconds := leAt 68 4 p } }) s), [])
  | 8 => (endMaintenance 8 0 s, [])
  | 9 => (transition .provisioned own recv 9 0 s, [])
  | 10 => (transition .service (slice 0 97 p) (if s.key.lc = .recovery ∧ zeroAt 100 97 p then recv else slice 100 97 p) 10 0 s, [])
  | 11 => (transition .recovery own recv 11 0 s, [])
  | 12 => (transition .retired own recv 12 0 s, [])
  | 13 => (onKey (fun b => { b with metro := some (slice 0 97 p) }) s, [])
  | _ => (s, [])

/-- KEY_UPDATE (R337): the rows in order; an accepted message commits KEY_COUNTER before its effect. -/
def execKeyUpdate (r : Req) (msg : Bytes) (s : State) : Host.Outcome State Fault Refusal :=
  let k := keyMsgOf msg
  .next (if msgRangeOk msg s = false then postSts r stsLengthRange s
    else if opAllowed s.key.lc k.op = false then keyReject r 2 stsLifecycle .security k s
    else if msgSigned msg s = false then keyReject r 3 stsAuthFail .security k s
    else if k.format ≠ 1 then keyReject r 4 stsVersion .service k s
    else if msgStateBad k s then postSts r stsState s
    else if s.key.busy then postSts r stsBusy s
    else if k.counter ≤ s.key.counter then keyReject r 7 stsRefused .security k s
    else match openPayload msg k s with
      | none => keyReject r 8 stsIntegrity .security k s
      | some p =>
        if needsRandom s k then postSts r stsIntegrity (logRng s)
        else
          let s := onKey (fun b => { b with counter := k.counter }) s
          let e := keyEffect k p s
          post r stsOk 0 e.2
            (logEv .security 0x12 0xFF 0x1202 [(1, k.op), (1, k.slot), (1, k.ktype), (4, k.counter)] e.1))

/-! ## Maintenance authority (R327) -/

/-- KEY_CHALLENGE (R344): 32 random bytes for 60 s; an earlier challenge of the same side is replaced. -/
def execKeyChallenge (r : Req) (s : State) : Host.Outcome State Fault Refusal :=
  .next (guarded r [(s.key.lc != .maintenance, stsLifecycle)]
    (fun s =>
      if s.key.rngFail then postSts r stsIntegrity (logRng s)
      else
        let c := freeBytes s 32
        post r stsOk 0 c (bump (onKey (fun k => { k with
          challenges := put k.challenges (sideIx r.side) (some (c, s.ticks + msTicks 60000)) }) s))) s)

/-- KEY_MAINT_PROVE (R327, R344): the maintenance key's signature over the own challenge and the device identity. -/
def execKeyMaintProve (r : Req) (sig : Bytes) (s : State) : Host.Outcome State Fault Refusal :=
  .next (guarded r [(sig.length != 64, stsLengthRange), (s.key.lc == .retired, stsLifecycle)]
    (fun s =>
      let c := s.key.challenges.getD (sideIx r.side) none
      let s := onKey (fun k => { k with challenges := put k.challenges (sideIx r.side) none }) s
      let ok := (match c, s.key.grant with
        | some (ch, e), some g => decide (s.ticks < e) && Config.verify g.key (ch ++ leBytes 8 s.ident.deviceId) sig
        | _, _ => false)
      if ok then postSts r stsOk (onKey (fun k => { k with authority := some (r.side, s.ticks + msTicks 600000) }) s)
      else postSts r stsAuthFail s) s)

/-- KEY_ZEROISE (R341): overwrites the masked slots and their blobs, or asserts the line in PROVISIONED and SERVICE. -/
def execKeyZeroise (r : Req) (mask : Nat) (s : State) : Host.Outcome State Fault Refusal :=
  let hedgehog := s.key.lc == .provisioned || s.key.lc == .service
  .next (guarded r [(field mask 2 0 != 0 || decide (2 ^ 32 ≤ mask), stsLengthRange),
      (s.key.lc == .retired || (hedgehog && mask != 0xFFFFFFF8), stsLifecycle),
      (s.key.lc == .maintenance && !hasAuthority s r.side, stsAuthFail)]
    (fun s =>
      if hedgehog then postSts r stsOk (zeroise 7 s)
      else if s.key.rngFail then postSts r stsIntegrity (logRng s)
      else postSts r stsOk
        (slotsChanged ((List.range 32).foldl (fun s n => if bitAt mask n then eraseKey n s else s) s))) s)

/-! ## Attestation and certificate (R343, R344) -/

/-- The root in force (R324); none in RETIRED. -/
def rootInForce (s : State) : Option Bytes := if s.key.lc = .retired then none else some (rootOf s s.key.lc.cls)

/-- The statement up to the signature. -/
def statement (s : State) (nonce : Bytes) : Bytes :=
  leBytes 4 0x41545354 ++ leBytes 2 1 ++ leBytes 2 440 ++ leBytes 8 s.ident.deviceId ++ fit 32 nonce ++ leBytes 8 (nowTs s)
    ++ leBytes 2 (if s.ident.small then 0x4280 else 0x4480) ++ leBytes 1 (flagAt s.ident.gradeE 0) ++ leBytes 1 s.key.lc.code
    ++ leBytes 4 (flagAt (!timeValid s) 0 + flagAt s.key.grant.isSome 1 + flagAt s.key.tamperSince 2)
    ++ (match rootInForce s with
      | some k => fit 16 (Config.sha384 k)
      | none => zeros 16)
    ++ leBytes 8 s.key.counter ++ leBytes 4 s.key.tampCnt ++ leBytes 4 s.str.sealCnt ++ leBytes 4 s.str.cur.seq
    ++ leBytes 4 (slotMap s) ++ ([1, 2, 3].flatMap fun k => fit 16 (activeBank s k).digest)
    ++ ([5, 6, 7, 8, 9].flatMap fun k => leBytes 4 (activeBank s k).version) ++ leBytes 4 s.str.cur.openVer
    ++ fit 65 (Config.publicKey (derivedKey 0)) ++ zeros 3 ++ fit 97 (Config.publicKey (derivedKey 2)) ++ zeros 3

/-- KEY_ATTEST (R343): the statement signed with the attestation key; the tamper flag starts anew. A slot cleared by a
zeroisation signs nothing until the next reset (log 10). -/
def execKeyAttest (r : Req) (nonce : Bytes) (s : State) : Host.Outcome State Fault Refusal :=
  .next (guarded r [(nonce.length != 32, stsLengthRange),
      (s.key.lc != .retired && !(slotOf s 1).loaded, stsIntegrity)]
    (fun s =>
      let b := statement s nonce
      let out := b ++ fit 96 (Config.sign (derivedKey 1) b s.freeCtr)
      post r stsOk 0 out (bump (onKey (fun k => { k with tamperSince := false }) s))) s)

/-- KEY_CERT_READ (R344). -/
def execKeyCertRead (r : Req) (s : State) : Host.Outcome State Fault Refusal :=
  .next (guarded r [(s.key.certBad, stsIntegrity)] (fun s => post r stsOk 0 (Config.certificate.take 1024) s) s)

/-! ## Registers (R345) -/

/-- KEY_CNT_LO_READ (R345): latches KEY_CNT_HI for the view. -/
def execKeyCntLoRead (view : Side) (s : State) : Host.Outcome State Fault Refusal :=
  .next (returns (s.key.counter % 2 ^ 32) (onKey (fun k => { k with latchCnt := latch view (s.key.counter / 2 ^ 32) k.latchCnt }) s))

/-- KEY_STATUS as it reads (R345). -/
def keyStatus (s : State) : Nat :=
  flagAt s.key.ready 0 + flagAt s.key.busy 4 + flagAt s.key.wipe 5 + flagAt s.key.zeroised 6 + flagAt s.key.rngFail 7

/-- KEY_STATUS_READ (R345): ZEROISED is returned and cleared. -/
def execKeyStatusRead (_view : Side) (s : State) : Host.Outcome State Fault Refusal :=
  .next (returns (keyStatus s) (onKey (fun k => { k with zeroised := false }) s))

end Sys2Proof.Machine
end

