-- ==== Sys2Proof/Machine/Update.lean ====
section
/-! DEFINITION. Firmware and image update (R347–R363): transfer, compatibility, activation one by one and by manifest,
trial, commit and rollback. -/

namespace Sys2Proof.Machine

/-! ## Kinds and banks (R348, R350) -/

def onKind (k : Nat) (f : Kind → Kind) : State → State := onUpd fun b => { b with kinds := upd b.kinds (k - 1) f }
def kindOf (s : State) (k : Nat) : Kind := s.upd.kinds.getD (k - 1) Kind.fresh
/-- The bank that is not in use; of WARREN the inactive copy (R37). True for bank B. -/
def otherIsB (s : State) (k : Nat) : Bool := if k = 4 then inactiveCopy s == 1 else !(kindOf s k).activeB
def otherBank (s : State) (k : Nat) : Bank := if otherIsB s k then (kindOf s k).b else (kindOf s k).a
def setBank (k : Nat) (isB : Bool) (x : Bank) : State → State := onKind k fun d => if isB then { d with b := x } else { d with a := x }
def markBank (k : Nat) (isB : Bool) (st : BankState) : State → State :=
  onKind k fun d => if isB then { d with b := { d.b with state := st } } else { d with a := { d.a with state := st } }

/-- Largest payload of a kind (R348). -/
def largest : Nat → Nat
  | 1 => 262144 | 2 => 196608 | 3 => 49152 | 4 => 65536 | 5 => 16777216 | 6 => 393216 | 7 => 524288 | 8 => 1048576
  | 9 => 16384 | 10 => 264 | _ => 0

/-- The class of the events of a kind (R357). -/
def kindClass (k : Nat) : EvClass := if k = 2 then .legal else if k = 3 then .safety else .service

/-- A COMPAT entry of a header for kind `k` includes version `v`; none constrains nothing (R349, R353). -/
def includesVersion (h : Bytes) (k v : Nat) : Bool :=
  (List.range 8).all fun i =>
    let o := 0xB0 + 12 * i
    byteAt o h != k || (decide (leAt (o + 4) 4 h ≤ v) && decide (v ≤ leAt (o + 8) 4 h))

/-- Two images of different kinds may run beside each other (R353). -/
def fitTogether (kx : Nat) (x : Bank) (ky : Nat) (y : Bank) : Bool :=
  includesVersion x.header ky y.version && includesVersion y.header kx x.version

/-- A running image. -/
def running (b : Bank) : Bool := b.state == .active || b.state == .trial

/-- The settings area of a kind: APP 0, BADGER 1 (R360). -/
def settingsIx (k : Nat) : Option Nat := if k = 5 then some 0 else if k = 6 then some 1 else none
def settingsOf (s : State) (i : Nat) : Settings := s.upd.settings.getD i default
def onSettings (i : Nat) (f : Settings → Settings) : State → State :=
  onUpd fun b => { b with settings := upd b.settings i f }

/-- The stored settings suit the image (R353, R354 row 3). -/
def settingsFit (s : State) (k : Nat) (x : Bank) : Bool :=
  match settingsIx k with
  | some i => includesVersion x.header 15 (settingsOf s i).format && decide ((settingsOf s i).format ≤ x.format)
  | none => true

/-- An image fits every running image of the kinds 1–9 that `but` does not name (R353). -/
def fitsRunning (s : State) (but : List Nat) (k : Nat) (x : Bank) : Bool :=
  [1, 2, 3, 4, 5, 6, 7, 8, 9].all fun y =>
    y == k || but.contains y || !running (activeBank s y) || fitTogether k x y (activeBank s y)

/-! ## Transfer (R351, R352) -/

/-- The update key (R350): KTYPE 2 with DECRYPT for Badger in the slot UPD_CFG names. -/
def updateKey (s : State) : Option Bytes := if keyServes s s.upd.keySlot 2 3 9 then some (slotOf s s.upd.keySlot).material else none

/-- The content key a header wraps; none without an update key or when CEK_TAG fails. -/
def unwrapCek (s : State) (h : Bytes) : Option Bytes :=
  match updateKey s with
  | some k => Config.gcmOpen k (slice 0x60 12 h) (slice 0 0x60 h) (slice 0x6C 32 h) (slice 0x8C 16 h)
  | none => none

/-- Any activation runs. -/
def anyActivation (s : State) : Bool := s.str.act.isSome || s.upd.actBusy

/-- UPD_REJECT keeps the row and the status of the last refusal. -/
def keepReject (row rc : Nat) : State → State := onUpd fun b => { b with rejectRow := row, rejectRc := rc }
/-- EV_UPD_REJECT. -/
def logUpdReject (cls : EvClass) (row : Nat) (h : Bytes) : State → State :=
  logEv cls 0x13 0xFF 0x1301 [(1, byteAt 8 h), (1, row), (4, leAt 0x0C 4 h), (4, leAt 0x18 4 h)]

/-- The rows of R351 as (row, condition, status, class of its event). Row 0 is the condition the table does not list: in LIMP
updates are refused, before row 1 (R18, R382, log 14). -/
def beginRows (s : State) (h : Bytes) : List (Nat × Bool × Nat × Option EvClass) :=
  let k := byteAt 8 h
  let pl := leAt 0x14 4 h
  let var := leAt 0x10 2 h
  let key := if k = 2 then sealedKey s else headerKey s
  [(0, s.sys.mode == .limp, stsState, none),
   (1, h.length != 512 || !inRange 1 10 k || !inRange 1 (largest k) pl || pl % 4 != 0, stsLengthRange, none),
   (2, s.key.lc == .retired, stsLifecycle, none),
   (3, leAt 0 4 h != 0x494D4731 || leAt 6 2 h != 0x200 || leAt 0x15C 4 h != crc32c (slice 0 0x15C h), stsIntegrity,
    some .service),
   (4, !verifies key (slice 0 0x160 h) (slice 0x160 96 h), stsAuthFail, some .security),
   (5, leAt 0x1C 8 h != 0 && leAt 0x1C 8 h != s.ident.deviceId, stsAuthFail, some .security),
   (6, (unwrapCek s h).isNone, stsAuthFail, some .security),
   (7, leAt 4 2 h != 1 || (var != 0xFFFF && var != if s.ident.small then 0x4280 else 0x4480), stsVersion, some .service),
   (8, s.upd.trial.any (fun t => t.kind == k || t.parts.contains k), stsState, none),
   (9, s.upd.xfer.isSome || anyActivation s, stsBusy, none),
   (10, decide (leAt 0x18 4 h < (kindOf s k).floor), stsRefused, some .security)]

/-- Erases the bank a transfer goes into; of WARREN the copy with its selector. -/
def eraseOther (k : Nat) (s : State) : State :=
  let isB := otherIsB s k
  let c := if isB then 1 else 0
  let s := setBank k isB Bank.fresh s
  if k = 4 then onStr (fun b => { b with copies := put b.copies c { bytes := [], sel := .empty, selSeq := 0 } }) s else s

/-- UPD_BEGIN (R351). -/
def updBegin (r : Req) (header : Bytes) (s : State) : State :=
  match (beginRows s header).find? (·.2.1) with
    | some (row, _, sts, cls) =>
      let s := keepReject row sts s
      let s := if row = 6 then askKey s.upd.keySlot 2 3 9 s else s
      postSts r sts (match cls with
        | some c => logUpdReject c row header s
        | none => s)
    | none =>
      let k := byteAt 8 header
      let s := eraseOther k s
      let s := setBank k (otherIsB s k) { Bank.fresh with
        state := .receiving, version := leAt 0x0C 4 header, secVersion := leAt 0x18 4 header, format := leAt 0x2C 2 header,
        digest := slice 0x30 48 header, header := header } s
      let cek := (unwrapCek s header).getD []
      postSts r stsOk (onUpd (fun b => { b with
        xfer := some { kind := k, header := header, data := [], cek := cek, tick := s.ticks } }) s)

/-- UPD_BEGIN (R351); STS_TIMEOUT while Badger is down. -/
def execUpdBegin (r : Req) (header : Bytes) (s : State) : Host.Outcome State Fault Refusal :=
  .next (badgerCmd r (updBegin r header) s)

/-- Closes the transfer and erases its bank. -/
def closeTransfer (s : State) : State :=
  match s.upd.xfer with
  | some x => onUpd (fun b => { b with xfer := none }) (eraseOther x.kind s)
  | none => s

/-- UPD_DATA (R352). Without a transfer: STS_STATE (log 14). -/
def updData (r : Req) (offset : Nat) (data : Bytes) (s : State) : State :=
  if 4096 < data.length then postSts r stsLengthRange s
    else if s.sys.mode = .limp then postSts r stsState s
    else if data.isEmpty then
      postSts r stsOk (onUpd (fun b => { b with xfer := b.xfer.map fun x => { x with tick := s.ticks } }) s)
    else match s.upd.xfer with
      | none => postSts r stsState s
      | some x =>
        if leAt 0x14 4 x.header + 16 < offset + data.length then postSts r stsLengthRange s
        else if offset ≠ x.data.length then postSts r stsState s
        else postSts r stsOk (onUpd (fun b => { b with xfer := some { x with data := x.data ++ data, tick := s.ticks } }) s)

/-- UPD_DATA (R352); STS_TIMEOUT while Badger is down. -/
def execUpdData (r : Req) (offset : Nat) (data : Bytes) (s : State) : Host.Outcome State Fault Refusal :=
  .next (badgerCmd r (updData r offset data) s)

/-- The plaintext of a complete transfer; none when the GCM tag or PAYLOAD_DIGEST fails. -/
def plaintext (x : Transfer) : Option Bytes :=
  let n := leAt 0x14 4 x.header
  match Config.gcmOpen x.cek (slice 0xA0 12 x.header) (slice 0 0x160 x.header) (slice 0 n x.data) (slice n 16 x.data) with
  | some p => if Config.sha384 p = slice 0x30 48 x.header then some p else none
  | none => none

/-- A MANIFEST payload has 8 + 64 × COUNT bytes for 1–4 entries (R359). -/
def manifestSized (p : Bytes) : Bool := inRange 1 4 (byteAt 4 p) && p.length == 8 + 64 * byteAt 4 p

/-- UPD_END (R352, R359). -/
def updEnd (r : Req) (s : State) : State :=
  match s.upd.xfer with
    | none => postSts r stsState s
    | some x =>
      if x.data.length < leAt 0x14 4 x.header + 16 then postSts r stsLengthRange s
      else if s.sys.mode = .limp then postSts r stsState s
      else match plaintext x with
        | none =>
          postSts r stsIntegrity (logUpdReject .security 0 x.header (keepReject 0 stsIntegrity (closeTransfer s)))
        | some p =>
          if x.kind = 10 ∧ manifestSized p = false then postSts r stsLengthRange s
          else
            let isB := otherIsB s x.kind
            let s := setBank x.kind isB { otherBank s x.kind with state := .staged, payload := p, cek := x.cek } s
            let s := if x.kind = 4 then
              onStr (fun b => { b with copies := put b.copies (if isB then 1 else 0) { bytes := p, sel := .empty, selSeq := 0 } }) s
              else s
            postSts r stsOk (logEv .service 0x13 0xFF 0x1302 [(1, x.kind), (1, flagAt isB 0), (4, leAt 0x0C 4 x.header)]
              (onUpd (fun b => { b with xfer := none }) s))

/-- UPD_END (R352, R359); STS_TIMEOUT while Badger is down. -/
def execUpdEnd (r : Req) (s : State) : Host.Outcome State Fault Refusal :=
  .next (badgerCmd r (updEnd r) s)

/-- UPD_ABORT (R361). -/
def updAbort (r : Req) (s : State) : State :=
  guarded r [(s.upd.xfer.isNone, stsState)] (fun s => postSts r stsOk (closeTransfer s)) s

/-- UPD_ABORT (R361); STS_TIMEOUT while Badger is down. -/
def execUpdAbort (r : Req) (s : State) : Host.Outcome State Fault Refusal :=
  .next (badgerCmd r (updAbort r) s)

/-- UPD_TRANSFER_TIMEOUT (R352). -/
def execUpdTransferTimeout (s : State) : Host.Outcome State Fault Refusal := .next (closeTransfer s)

/-! ## Starting images (R354) -/

/-- Both cores of the cluster reset into the active APP image; its SRAM is wiped (R354, R420). -/
def startCluster (s : State) : State :=
  onMgt (fun b => { b with hbTick := none, hbSince := none }) { s with sram := [] }

/-- Badger reset: its SRAM, the RAM ring and the mailboxes with it, is wiped; it is down until it is ready (R354, R365). -/
def stopBadger (s : State) : State :=
  onMgt (fun b => { b with ring := [], waiting := 0, hbTick := none, hbSince := none, hmb := Mailbox.fresh, amb := Mailbox.fresh, mbxOvf := 0 })
    (onSys (fun b => { b with badgerDown := true }) s)

/-- The image of a kind is started, or restarted after a rollback (R354). -/
def startKind (k : Nat) (s : State) : State :=
  match k with
  | 5 => startCluster s
  | 6 => stopBadger s
  | 7 => (List.range 4).foldl (fun s o => slacCheck o (slacOff o s)) s
  | 8 =>
    if s.glk.assoc = .off ∨ s.glk.assoc = .noNmk then s
    else if s.glk.assoc = .member then glkAfterWatch s
    else abandonMsdu (dropMember .search s)
  | _ => s

/-- The settings migration at the first start of an image with a higher format (R360): the converted area is the image's
own work, a free content (log 14). -/
def migrate (k : Nat) (x : Bank) (s : State) : State :=
  match settingsIx k with
  | some i =>
    if (settingsOf s i).format < x.format then
      let d := Config.freeBytes s.freeCtr
      bump (onSettings i (fun a => { a with migrated := some (x.format, d), writes := 0 }) s)
    else s
  | none => s

/-- EV_UPD_MIGRATE: 0 committed, 1 discarded (log 14). -/
def logMigrate (k old new fin writes : Nat) : State → State :=
  logEv .service 0x13 0xFF 0x1306 [(1, k), (2, old), (2, new), (1, fin), (4, writes)]

/-- The migrated copy comes into force, or is discarded (R357, R358, R360). -/
def endMigration (k : Nat) (keep : Bool) (s : State) : State :=
  match settingsIx k with
  | some i => match (settingsOf s i).migrated with
    | some (f, d) =>
      let a := settingsOf s i
      let s := onSettings i (fun a => if keep then { format := f, data := d, migrated := none, writes := 0 }
        else { a with migrated := none, writes := 0 }) s
      logMigrate k a.format f (if keep then 0 else 1) (if keep then 0 else a.writes) s
    | none => s
  | none => s

/-- The staged bank becomes TRIAL and is the one in use; the replaced bank is PREVIOUS (R354, R358, log 14). -/
def takeBank (k : Nat) (s : State) : State :=
  let isB := otherIsB s k
  let old := activeBank s k
  let s := if running old then markBank k (!isB) .previous s else s
  ctPublishInfo (onKind k (fun d => { d with activeB := isB }) (markBank k isB .trial s))

/-! ## Commit and rollback (R355, R357, R358) -/

/-- The TRIAL bank of a part becomes ACTIVE; its floor is raised; EV_UPD_COMMIT. -/
def commitPart (k : Nat) (s : State) : State :=
  let x := activeBank s k
  let s := markBank k (kindOf s k).activeB .active s
  let s := onKind k (fun d => { d with floor := max d.floor x.secVersion }) s
  let s := endMigration k true s
  logEv (kindClass k) 0x13 0xFF 0x1304 [(1, k), (4, x.version), (4, (kindOf s k).floor)] s

/-- The mirror of R43 step 7: the copy in use written into the other copy. -/
def mirrorCopy (s : State) : State :=
  if s.str.copyInUse = 0 then s
  else
    let i := s.str.copyInUse - 1
    let s := onStr (fun b => { b with copies := put b.copies (1 - i) (copyOf s i) }) s
    let k := kindOf s 4
    let act := if i = 1 then k.b else k.a
    setBank 4 (i == 0) { act with state := .previous } s

/-- The commit of a trial that has passed. -/
def commitTrial (t : Trial) (s : State) : State :=
  let s := t.parts.foldl (fun s k => commitPart k s) s
  let s := if t.kind = 10 then commitPart 10 s else s
  let s := if t.sealChange then mirrorCopy s else s
  onUpd (fun b => { b with trial := none, lastRc := stsOk }) s

/-- The replaced bank of a part comes back; the TRIAL bank is FAILED; EV_UPD_ROLLBACK. -/
def rollbackPart (criterion k : Nat) (s : State) : State :=
  let d := kindOf s k
  let failed := activeBank s k
  let back := if d.activeB then d.a else d.b
  let s := markBank k d.activeB .failed s
  let s := if back.state = .previous then onKind k (fun d => { d with activeB := !d.activeB }) (markBank k (!d.activeB) .active s) else s
  let s := ctPublishInfo (endMigration k false s)
  logEv (kindClass k) 0x13 0xFF 0x1305 [(1, k), (4, failed.version), (4, back.version), (1, criterion)] s

/-- A trial fails: one kind is rolled back at once; a manifest is recorded for the next reset (R358, R359). The status
LAST_RC takes is open among the codes of R17 (log 14). -/
def failTrial (criterion : Nat) (s : State) : State :=
  match s.upd.trial with
  | none => s
  | some t =>
    let rc := freeNat s % 12
    let s := bump (onUpd (fun b => { b with trial := none, lastRc := rc }) s)
    if t.kind = 10 then
      onUpd (fun b => { b with actBusy := true, act := { b.act with rollback := true, criterion := criterion, parts := t.parts } }) s
    else
      let s := rollbackPart criterion t.kind s
      if t.kind = 6 then s else startKind t.kind s

/-- A failed start of a running trial; the third fails it (R356, R366). -/
def countStart (s : State) : State :=
  match s.upd.trial with
  | none => s
  | some t =>
    let s := onUpd (fun b => { b with trial := some { t with starts := t.starts + 1 } }) s
    if 3 ≤ t.starts + 1 then failTrial (t.starts + 1) s else s

/-- TRIAL_PASS (R357): the 600 s have passed with the criterion held; an APP image has also confirmed itself. -/
def execTrialPass (s : State) : Host.Outcome State Fault Refusal :=
  .next (match s.upd.trial with
    | some t => if t.kind = 5 ∧ t.confirmed = false then s else commitTrial t s
    | none => s)

/-- TRIAL_FAIL (R358). -/
def execTrialFail (criterion : Nat) (s : State) : Host.Outcome State Fault Refusal := .next (failTrial criterion s)

/-- UPD_CONFIRM (R361). -/
def updConfirm (r : Req) (s : State) : State :=
  guarded r [(!s.upd.trial.any (·.kind == 5) || r.side == .host, stsState)]
    (fun s => postSts r stsOk (onUpd (fun b => { b with trial := b.trial.map fun t => { t with confirmed := true } }) s)) s

/-- UPD_CONFIRM (R361); STS_TIMEOUT while Badger is down. -/
def execUpdConfirm (r : Req) (s : State) : Host.Outcome State Fault Refusal :=
  .next (badgerCmd r (updConfirm r) s)

/-! ## Activation (R354, R359) -/

/-- EV_UPD_ACTIVATE: kind, old and new VERSION. -/
def logActivate (k old new : Nat) : State → State :=
  logEv (kindClass k) 0x13 0xFF 0x1303 [(1, k), (4, old), (4, new)]

/-- A refused activation. -/
def refuseActivate (r : Req) (row rc detail : Nat) (s : State) : State :=
  post r rc detail [] (onUpd (fun b => { b with rejectRow := row, rejectRc := rc, lastRc := rc }) s)

/-- A new waveform table (R305, R354): ACTIVE when accepted, FAILED when rejected; no trial. -/
def activateTable (s : State) : State :=
  let isB := otherIsB s 9
  let x := otherBank s 9
  let ok := (tblFail x.payload).isNone
  let s := offerTable x.payload s
  if ok then
    let s := if running (activeBank s 9) then markBank 9 (!isB) .previous s else s
    onKind 9 (fun d => { d with activeB := isB, floor := max d.floor x.secVersion }) (markBank 9 isB .active s)
  else markBank 9 isB .failed s

/-- Kinds 5–9, one by one, and kinds above 10 (R354). -/
def activateOne (r : Req) (k : Nat) (s : State) : State :=
  let x := otherBank s k
  let staged := x.state == .staged
  let busy := s.upd.trial.isSome || s.upd.xfer.isSome || anyActivation s
  if 10 < k then refuseActivate r 1 stsLengthRange 0 s
  else if s.key.lc = .retired then refuseActivate r 2 stsLifecycle 0 s
  else if staged ∧ (fitsRunning s [] k x && settingsFit s k x) = false then refuseActivate r 3 stsVersion 0 s
  else if staged = false ∨ (k ≤ 8 ∧ ((s.sys.mode ≠ .ready ∧ s.sys.mode ≠ .maintenance) ∨ anySession s))
      ∨ (k = 9 ∧ epdThere s = false) then refuseActivate r 4 stsState 0 s
  else if busy then refuseActivate r 5 stsBusy 0 s
  else
    let old := (activeBank s k).version
    let s := onUpd (fun b => { b with lastRc := stsOk }) (postSts r stsOk (logActivate k old x.version s))
    if k = 9 then activateTable s
    else
      let s := migrate k x (takeBank k s)
      let t : Trial := { kind := k, parts := [k], seconds := 600, starts := 0, confirmed := false, sealChange := false }
      startKind k (onUpd (fun b => { b with trial := some t }) s)

/-- The entries of a manifest: kind, VERSION, digest of the header (R359). -/
def manifestEntries (p : Bytes) : List (Nat × Nat × Bytes) :=
  (List.range (byteAt 4 p)).map fun i => (byteAt (8 + 64 * i) p, leAt (0x0C + 64 * i) 4 p, slice (0x10 + 64 * i) 48 p)

/-- The bank an entry names is STAGED with its header digest and VERSION. -/
def entryStaged (s : State) (e : Nat × Nat × Bytes) : Bool :=
  let b := otherBank s e.1
  inRange 1 4 e.1 && b.state == .staged && b.version == e.2.1 && Config.sha384 b.header == e.2.2

/-- The set fits itself and every running image it does not replace (R353). -/
def setFits (s : State) (ks : List Nat) : Bool :=
  ks.all fun k =>
    let x := otherBank s k
    fitsRunning s ks k x && ks.all fun j => j == k || fitTogether k x j (otherBank s j)

/-- Step 3 of R43: KIND 3 save, SEAL_BEFORE, the running demand intervals closed as irregular. -/
def sealBefore (s : State) : State :=
  let s := saveAtOnce 3 s
  let s := capture 5 (outletMask s) 0 (nowTs s) [] none s
  let ts := nowTs s
  (outletList s).foldl (fun s o => restartDemand o ts true false (closeDemand o ts true s)) s

/-- Step 4 of R43: the sealed record with the new digest and the counter plus 1, but for BLANK; EV_SEAL_CHANGE. A record
written in BLANK keeps count 0 (R37, log 5). A store that has lost both copies stays lost (R118). -/
def recordSeal (block : Nat) (digest : Bytes) (s : State) : State :=
  let n := if s.key.lc = .blank then s.str.sealCnt else s.str.sealCnt + 1
  let s := if s.met.sealedRec.lost then s
    else onMet (fun b => { b with sealedRec := b.sealedRec.write (some { count := n, digest := digest }) }) s
  let s := ctPublishInfo (onStr (fun b => { b with sealCnt := n }) s)
  legalEv block 0xFF 0x0104 [] s

/-- The metrology firmware a manifest's check 0x18 is made against. -/
def manifestMet (s : State) (ks : List Nat) : Bytes := if ks.contains 2 then (otherBank s 2).digest else installedMet s

/-- The manifest carries a changed sealed section. -/
def manifestSeals (s : State) (ks : List Nat) : Bool :=
  ks.contains 4 && (changedSections s (copyOf s (inactiveCopy s)).bytes).1

/-- Steps 2–4 of R359 after acceptance, up to the warm reset that follows. -/
def runManifest (ks : List Nat) (s : State) : State :=
  let c := inactiveCopy s
  let img := (copyOf s c).bytes
  let seals := manifestSeals s ks
  let dig := imageSealDigest img
  let a : ActRec :=
    { pending := true, committed := false, parts := ks, sealDigest := if seals then some dig else none,
      warren := if ks.contains 4 then some (Config.sha384 (img.take 160)) else none, rollback := false, criterion := 0 }
  let s := onUpd (fun b => { b with actBusy := true, lastRc := stsOk, act := a }) s
  let s := if ks.contains 4 then onStr (fun b => { b with copies := upd b.copies c fun x =>
    { x with sel := .trial, selSeq := leAt 0x0C 4 x.bytes } }) s else s
  let s := if seals then recordSeal 0x04 dig (sealBefore s)
    else onUpd (fun b => { b with act := { b.act with committed := true } }) s
  let s := logActivate 10 (activeBank s 10).version (otherBank s 10).version s
  requestReset false causeActivate s

/-- A manifest (R359). Without a staged one there is nothing to check: STS_STATE (log 14). -/
def activateManifest (r : Req) (s : State) : State :=
  let x := otherBank s 10
  if x.state ≠ .staged then refuseActivate r 0 stsState 0 s
  else
    let es := manifestEntries x.payload
    let ks := es.map (·.1)
    let img := (copyOf s (inactiveCopy s)).bytes
    let met := manifestMet s ks
    let legal := ks.contains 2 || manifestSeals s ks
    let reason := if ks.contains 4 then validate s .manifest met img else 0
    if (leAt 0 4 x.payload == 0x4D414E31 && manifestSized x.payload && es.all (entryStaged s) && decide ks.Nodup) = false then
      refuseActivate r 0 stsIntegrity 0 s
    else if s.key.lc = .retired ∨ (legal ∧ sealAllowed s = false) then refuseActivate r 0 stsLifecycle 0 s
    else if ks.contains 3 ∧ hasSession s r.side = false then refuseActivate r 0 stsAuthFail 0 s
    else if (ks.contains 2 && !ks.contains 4) || (ks.contains 4 && (imageStruct img).metDigest != met) || !setFits s ks then
      refuseActivate r 0 stsVersion 0 s
    else if reason ≠ 0 then refuseActivate r reason stsIntegrity reason s
    else if (if legal then s.sys.mode ≠ .maintenance else s.sys.mode ≠ .ready ∧ s.sys.mode ≠ .maintenance) ∨ anySession s then
      refuseActivate r 0 stsState 0 s
    else if s.upd.trial.isSome || s.upd.xfer.isSome || anyActivation s then refuseActivate r 0 stsBusy 0 s
    else runManifest ks (pend r s)

/-- UPD_ACTIVATE (R354, R359, R361). The conditions that no table lists come first (R18): a kind below 5, then LIMP (R382). -/
def updActivate (r : Req) (kind : Nat) (s : State) : State :=
  if kind < 5 then refuseActivate r 0 stsLengthRange 0 s
    else if s.sys.mode = .limp then refuseActivate r 0 stsState 0 s
    else if kind = 10 then activateManifest r s
    else activateOne r kind s

/-- UPD_ACTIVATE (R354, R359, R361); STS_TIMEOUT while Badger is down. -/
def execUpdActivate (r : Req) (kind : Nat) (s : State) : Host.Outcome State Fault Refusal :=
  .next (badgerCmd r (updActivate r kind) s)

end Sys2Proof.Machine
end

