-- ==== Sys2Proof/Machine/Badger.lean ====
section
/-! DEFINITION. Badger (R364–R373, R383): its watchdog and the cluster's, mailboxes, monitors, the event log, and the entry
into LIMP and the exit from it. -/

namespace Sys2Proof.Machine

/-! ## LIMP (R374, R382) -/

/-- LIMP entry: the mode, the supervisors acting for themselves (R230), the frame rings given back (R253). -/
def enterLimp (row : Nat) (s : State) : State :=
  flushRings (limpEnterAll (setMode row .limp s))

/-- Row 4 of R374: READY and SESSION go to LIMP; MAINTENANCE stays. -/
def clusterGone (s : State) : State :=
  if s.sys.mode = .ready ∨ s.sys.mode = .session then enterLimp 4 s else s

/-! ## Badger's watchdog (R365) -/

/-- Ticks of the last hour. -/
def lastHour (s : State) (l : List Nat) : List Nat := l.filter fun t => decide (s.ticks < t + msTicks 3600000)

/-- BADGER_WATCHDOG_EXPIRY (R365): Dormouse resets Badger's domain; the third within 1 h leaves it held; LIMP by row 3 of
R374. What Badger had under way, a transfer or a sleep entry, ends with its SRAM (R382, log 14); metering goes on (R10). -/
def execBadgerWatchdogExpiry (s : State) : Host.Outcome State Fault Refusal :=
  .next (if s.sys.booted = false ∨ s.sys.badgerDown ∨ s.sys.mode = .watch ∨ s.sys.mode = .dormant then s
    else
      let l := s.ticks :: lastHour s s.mgt.wdtTicks
      let s := stopBadger (closeTransfer s)
      let s := onSys (fun b => { b with domBadger := satInc 8 b.domBadger, entry := none, armed := 0 }) s
      let s := onMet (fun b => { b with stopped := false }) s
      let s := onMgt (fun b => { b with wdtTicks := l, badgerHeld := decide (3 ≤ l.length) }) s
      let s := logEv .service 0x1E 0xFF 0x1403 [(1, min 3 l.length)] s
      if s.sys.mode = .ready ∨ s.sys.mode = .session ∨ s.sys.mode = .maintenance then enterLimp 3 s else s)

/-- The retention buffer taken in order, each record numbered and marked (R372). -/
def drainRetention (s : State) : State :=
  let l := s.sys.retLog
  l.foldl (fun s e => enterLog { e with flags := e.flags + 4 } s) (onSys (fun b => { b with retLog := [] }) s)

/-! ## Cluster restarts (R366) -/

/-- A heartbeat: the cluster is available. -/
def heartbeat (s : State) : State :=
  if s.mgt.appHeld ∨ s.sys.badgerDown ∨ s.mgt.therm = 4 then s
  else
    onSys (fun b => { b with appDown := false })
      (onMgt (fun b => { b with hbTick := some s.ticks,
                                hbSince := if s.sys.appDown || b.hbSince.isNone then some s.ticks else b.hbSince }) s)

/-- MGT_AMB_HB_WRITE (R366). -/
def execMgtAmbHbWrite (_w : Word) (s : State) : Host.Outcome State Fault Refusal := .next (heartbeat s)

/-- APP_HEARTBEAT_TIMEOUT (R366): Badger restarts the cluster; after three restarts within 1 h it leaves it in reset. -/
def execAppHeartbeatTimeout (cause : Nat) (s : State) : Host.Outcome State Fault Refusal :=
  .next (if badgerUp s = false ∨ s.mgt.appHeld ∨ s.mgt.therm = 4 then s
    else
      let l := lastHour s s.mgt.appTicks
      let s := startCluster (onSys (fun b => { b with appDown := true }) s)
      let s := (if 3 ≤ l.length then onMgt (fun b => { b with appHeld := true }) s
        else
          let s := onMgt (fun b => { b with appTicks := s.ticks :: l }) s
          let s := onSys (fun b => { b with domApp := satInc 8 b.domApp }) s
          let s := logEv .service 0x14 0xFF 0x1404 [(1, cause), (1, min 3 (l.length + 1))] s
          countStart (notice 5 (l.length + 1) s))
      clusterGone s)

/-- MGT_RESTART (R397): from the host, the hold is released and the cluster restarts. -/
def execMgtRestart (r : Req) (s : State) : Host.Outcome State Fault Refusal :=
  .next (badgerCmd r (guarded r [(r.side == .cluster, stsState)]
    (fun s => postSts r stsOk (startCluster (onMgt (fun b => { b with appHeld := false }) s)))) s)

/-! ## Mailboxes (R367) -/

/-- Badger takes a message from a window and clears the doorbell; an unknown or overlong one is discarded whole. -/
def takeMessage (side : Side) (s : State) : State :=
  let m := if side = .host then s.mgt.hmb else s.mgt.amb
  let s := onMgt (fun b => match side with
    | .host => { b with hmb := { b.hmb with inBell := false } }
    | .cluster => { b with amb := { b.amb with inBell := false } }) s
  let ok := decide (byteAt 1 m.inWin ≤ 60) && leAt 2 2 m.inWin == 0
  if ok = false then s
  else match side, byteAt 0 m.inWin with
    | .host, 2 => noticeTo true 0 0 s
    | .cluster, 3 => heartbeat s
    | _, _ => s

/-- A doorbell to Badger: set while it is set, it is ignored and counted; Badger takes the message while it runs. -/
def doorbell (side : Side) (s : State) : State :=
  let m := if side = .host then s.mgt.hmb else s.mgt.amb
  if m.inBell then onMgt (fun b => { b with mbxOvf := satInc 8 b.mbxOvf }) s
  else
    let s := onMgt (fun b => match side with
      | .host => { b with hmb := { b.hmb with inBell := true } }
      | .cluster => { b with amb := { b.amb with inBell := true } }) s
    if badgerUp s then takeMessage side s else s

/-- MAILBOX_DOORBELL (R367). -/
def execMailboxDoorbell (side : Side) (s : State) : Host.Outcome State Fault Refusal := .next (doorbell side s)

/-- BADGER_READY (R365): the boot ROM has reloaded Badger; it takes the retention buffer, the queued load profile and
messages that wait. Held after the third expiry it does not come back. -/
def execBadgerReady (s : State) : Host.Outcome State Fault Refusal :=
  .next (if s.sys.badgerDown = false ∨ s.mgt.badgerHeld then s
    else
      let s := onSys (fun b => { b with badgerDown := false }) s
      let s := flushProfile (drainRetention s)
      let s := if s.mgt.hmb.inBell then takeMessage .host s else s
      if s.mgt.amb.inBell then takeMessage .cluster s else s)

/-! ## Monitors (R368) -/

/-- The temperature levels, 0.1 °C. -/
def thermLevels : List (Nat × Int) := [(1, 1150), (2, 1250), (3, 1350)]

/-- The level at a temperature, left 5 °C lower than reached. -/
def thermAt (old : Nat) (t : Int) : Nat :=
  thermLevels.foldl (fun l p => if t ≥ p.2 ∨ (p.1 ≤ old ∧ t > p.2 - 50) then max l p.1 else l) 0

/-- The hottest sensor and its temperature. -/
def hottest (temps : List Int) : Nat × Int :=
  (temps.zipIdx.foldl (fun m p => match m with
    | some (_, t) => if p.1 > t then some (p.2, p.1) else m
    | none => some (p.2, p.1)) (none : Option (Nat × Int))).getD (0, 0)

/-- The cluster and the modems are switched off, or come back (R368: 145 °C). -/
def hotChange (off : Bool) (s : State) : State :=
  if off then
    let s := startCluster (onSys (fun b => { b with appDown := true }) s)
    clusterGone (glkGate ((List.range 4).foldl (fun s o => slacOff o s) s))
  else slacChecks (glkGate s)

/-- The temperature part of an evaluation. -/
def evalTemps (temps : List Int) (s : State) : State :=
  let (sensor, t) := hottest temps
  let old := s.mgt.therm
  let hot := if t ≥ 1450 then s.mgt.hotRun + 1 else 0
  let cool := if t < 1250 then s.mgt.coolRun + 1 else 0
  let new := if 100 ≤ hot then 4 else if old = 4 ∧ cool < 6000 then 4 else thermAt (min 3 old) t
  let s := onMgt (fun b => { b with temps := temps.map (satSigned 16), hotRun := hot, coolRun := cool, therm := new }) s
  if new = old then s
  else
    let s := logEv .power 0x14 0xFF 0x1405 [(1, sensor), (2, unsignedOf 16 t), (1, old), (1, new)] s
    let s := notice 3 new s
    if new = 4 then hotChange true s else if old = 4 then hotChange false s else s

/-- EV_SUPPLY: 0 onset, 1 end. -/
def logSupply (v fin mv : Nat) : State → State := logEv .power 0x14 0xFF 0x1406 [(1, v), (1, fin), (4, mv)]

/-- One supply monitor. -/
def evalSupply (m : MonitorInput) (s : State) (v : Nat) : State :=
  let out := m.outside.getD v false
  let was := bitAt s.mgt.supWarn v
  let mv := m.supplies.getD v 0
  if out && !was then notice 4 v (logSupply v 0 mv (onMgt (fun b => { b with supWarn := b.supWarn + 2 ^ v }) s))
  else if !out && was then logSupply v 1 mv (onMgt (fun b => { b with supWarn := b.supWarn - 2 ^ v }) s)
  else s

/-- VBAT below 2.7 V, left 2 % higher. -/
def evalVbat (mv : Nat) (s : State) : State :=
  if mv < 2700 ∧ s.mgt.vbatLow = false then
    notice 4 5 (logSupply 5 0 mv (onMgt (fun b => { b with vbatLow := true }) s))
  else if 2754 ≤ mv ∧ s.mgt.vbatLow then logSupply 5 1 mv (onMgt (fun b => { b with vbatLow := false }) s)
  else s

/-- One evaluation of Badger's monitors (R368); the low-frequency crystal missing is clock 1, fault 0. -/
def monitor (m : MonitorInput) (s : State) : State :=
  if badgerUp s = false then s
  else
    let s := evalTemps m.temps s
    let s := (List.range 10).foldl (fun s v => evalSupply m s v) (onMgt (fun b => { b with sups := m.supplies }) s)
    let s := evalVbat (m.supplies.getD 5 0) s
    let s := if m.lfMissing && !s.mgt.lfRc then logEv .power 0x14 0xFF 0x1407 [(1, 1), (1, 0)] s else s
    onMgt (fun b => { b with lfRc := m.lfMissing }) s

/-- CLOCK_FAIL (R368, R419): a clock-fail reset; EV_CLOCK stands in the retention buffer: clock 0 XTAL_MAIN_IN, 2 PLL. -/
def execClockFail (pll : Bool) (s : State) : Host.Outcome State Fault Refusal :=
  .next (if s.sys.reset.isSome ∨ s.sys.mode = .dormant then s
    else logEv .power 0x1E 0xFF 0x1407 [(1, if pll then 2 else 0), (1, if pll then 1 else 0)]
      (assertReset false (2 ^ causeClockFail) false s))

/-! ## The event log (R369–R373) -/

/-- Class code (R369). -/
def EvClass.code : EvClass → Nat
  | .legal => 1 | .safety => 2 | .security => 3 | .power => 4 | .comm => 5 | .service => 6

/-- The 32 bytes of a record (R369). -/
def recordBytes (r : LogRec) : Bytes :=
  let b := leBytes 8 r.ev.time ++ leBytes 1 r.ev.cls.code ++ leBytes 1 r.ev.block ++ leBytes 1 r.ev.inst
    ++ leBytes 1 r.ev.flags ++ leBytes 2 r.ev.code ++ leBytes 2 r.seq ++ fit 12 r.ev.data
  b ++ leBytes 4 (crc32c b)

/-- A record goes to its archive ring (R371). -/
def archive (s : State) (r : LogRec) : State :=
  if r.ev.cls = .legal then archiveLegal r s
  else onMgt (fun b => { b with general := (b.general ++ [r]).drop (b.general.length + 1 - 458752) }) s

/-- LOG_ARCHIVE_FLUSH (R371): the waiting records go to Squirrel; a failed write leaves them waiting (R375 bit 13). -/
def flushLog (ok : Bool) (s : State) : State :=
  if ok = false then onMgt (fun b => { b with flushFailed := true }) s
  else
    let l := s.mgt.ring.drop (s.mgt.ring.length - s.mgt.waiting)
    checkWatermark (l.foldl archive (onMgt (fun b => { b with waiting := 0, flushFailed := false }) s))

def execLogArchiveFlush (ok : Bool) (s : State) : Host.Outcome State Fault Refusal :=
  .next (if badgerUp s then flushLog ok s else s)

/-- The first `n` records of two ascending lists, each SEQ once. -/
def mergeRecs : Nat → List LogRec → List LogRec → List LogRec
  | 0, _, _ => []
  | _, [], [] => []
  | n + 1, a :: as, [] => a :: mergeRecs n as []
  | n + 1, [], b :: bs => b :: mergeRecs n [] bs
  | n + 1, a :: as, b :: bs =>
    if a.seq < b.seq then a :: mergeRecs n as (b :: bs)
    else if b.seq < a.seq then b :: mergeRecs n (a :: as) bs
    else a :: mergeRecs n as bs

/-- The records from a SEQ on, at most `n`, out of the RAM ring and both archive rings (R373). -/
def recordsOn (s : State) (start n : Nat) : List LogRec :=
  let f (l : List LogRec) := l.filter fun r => decide (start ≤ r.seq)
  mergeRecs n (mergeRecs n (f s.mgt.legal) (f s.mgt.general)) (f s.mgt.ring)

/-- MGT_LOG_READ (R373, R397): SEQ of the first record, count, records; the start itself where none is held. -/
def execMgtLogRead (r : Req) (start count : Nat) (s : State) : Host.Outcome State Fault Refusal :=
  .next (badgerCmd r (guarded r [(!inRange 1 32 count, stsLengthRange)]
    (fun s =>
      let l := recordsOn s start count
      let first := match l with
        | x :: _ => x.seq
        | [] => start
      post r stsOk 0 (leBytes 4 first ++ leBytes 4 l.length ++ l.flatMap recordBytes) s)) s)

/-- MGT_LOG_ACK (R373): forward only. -/
def execMgtLogAck (r : Req) (seq : Nat) (s : State) : Host.Outcome State Fault Refusal :=
  .next (badgerCmd r (guarded r [(decide (s.mgt.seq < seq), stsLengthRange)]
    (fun s => postSts r stsOk (checkWatermark (onMgt (fun b => { b with ack := max b.ack seq }) s)))) s)

end Sys2Proof.Machine
end

