-- ==== Sys2Proof/Machine/Can.lean ====
section
/-! DEFINITION. The CAN FD controllers (R406–R410): fault confinement, STUCK, bus-off and the register writes. -/

namespace Sys2Proof.Machine

/-- Code of a controller state (R410). -/
def CanState.code : CanState → Nat
  | .off => 0 | .active => 1 | .passive => 2 | .busOff => 3 | .stuck => 4

/-- A controller takes a state: EV_CAN_STATE on a change; what waits in its ring is evaluated again (R407 row 3). -/
def setCan (c : Nat) (st : CanState) (s : State) : State :=
  let x := canOf s c
  if x.state = st then s
  else
    let s := onCan c (fun x => { x with state := st, busOffs := if st = .busOff then satInc 8 x.busOffs else x.busOffs }) s
    pump (.can c) (logEv .comm 0x17 c 0x1503 [(1, c), (1, x.state.code), (1, st.code), (1, x.tec), (1, x.recCtr)] s)

/-- The error state that the counters give (ISO 11898-1: passive from 128, bus-off above 255; PRESUMED). -/
def confined (tec rec : Nat) : CanState := if 255 < tec then .busOff else if 128 ≤ tec ∨ 128 ≤ rec then .passive else .active

/-- CAN_STUCK (R409). -/
def execCanStuck (c : Nat) (stuck : Bool) (s : State) : Host.Outcome State Fault Refusal :=
  let x := canOf s c
  .next (if portThere s (.can c) = false then s
    else if stuck then (if canOn x then setCan c .stuck s else s)
    else if x.state = .stuck then setCan c (confined x.tec x.recCtr) s
    else s)

/-- CAN_BUSOFF_RECOVERY (R409): after 128 recessive sequences with AUTOREC, or by EN written 0 and then 1. -/
def execCanBusoffRecovery (c : Nat) (toggle : Bool) (s : State) : Host.Outcome State Fault Refusal :=
  let x := canOf s c
  .next (if portThere s (.can c) ∧ x.state = .busOff ∧ (toggle ∨ x.autorec) then
    setCan c .active (onCan c (fun x => { x with tec := 0, recCtr := 0 }) s)
    else s)

/-- CAN_ERROR_STATE_CHANGE (R409). -/
def execCanErrorStateChange (c tec rec : Nat) (s : State) : Host.Outcome State Fault Refusal :=
  let x := canOf s c
  .next (if portThere s (.can c) = false ∨ x.state = .off ∨ x.state = .busOff then s
    else
      let s := onCan c (fun x => { x with tec := min 255 tec, recCtr := min 255 rec }) s
      if x.state = .stuck then s else setCan c (confined tec rec) s)

/-- A write of CANc_CFG (R406, R410): with EN = 1 only EN is taken; TXTO outside 1–1,000 ms keeps its value. -/
def canCfgWrite (c w : Nat) (s : State) : State :=
  let x := canOf s c
  let timeout := field w 31 20
  let en := bitAt w 0
  let s := if x.en then s else onCan c (fun x => { x with
    txto := if 1 ≤ timeout ∧ timeout ≤ 1000 then timeout else x.txto, autorec := bitAt w 3, listen := bitAt w 2, fd := bitAt w 1 }) s
  let s := onCan c (fun x => { x with en := en }) s
  if x.en = en then s
  else if en then pump (.can c) (onCan c (fun x => { x with state := .active, tec := 0, recCtr := 0 }) s)
  else if x.state = .active then onCan c (fun x => { x with state := .off }) s
  else setCan c .off s

/-- Writes of CANc_NBT and CANc_DBT (R406): ignored while EN = 1; reserved bits read 0. -/
def canNbtWrite (c w : Nat) : State → State :=
  onCan c fun x => if x.en then x else { x with nbt := w / 1024 * 1024 + w % 32 }
def canDbtWrite (c w : Nat) : State → State :=
  onCan c fun x => if x.en then x else { x with dbt := w / 2 ^ 19 * 2 ^ 19 + field w 15 7 * 128 + w % 32 }

/-- Writes of a filter (R410). -/
def canFilterWrite (c f : Nat) (mask : Bool) (w : Nat) : State → State :=
  onCan c fun x => { x with filters := upd x.filters f fun p =>
    if mask then (p.1, w % 2 ^ 29) else (w / 2 ^ 30 * 2 ^ 30 + w % 2 ^ 29, p.2) }

end Sys2Proof.Machine
end

