-- ==== Sys2Proof/Machine/Vehicle.lean ====
section
/-! DEFINITION. The vehicle link's pilot, proximity and session commands (R216–R230, R239). -/

namespace Sys2Proof.Machine

/-! ## Classification (R220) -/

/-- The band of a state, both edges included, mV; none for INVALID. -/
def bandEdges : Cp → Option (Int × Int)
  | .a => some (10500, 13500) | .b => some (7500, 10499) | .c => some (4500, 7499) | .d => some (1500, 4499)
  | .e => some (-1500, 1499) | .f => some (-13500, -10500) | .invalid => none | .none => none

/-- A reading lies in a band. -/
def inBand (x : Int) (st : Cp) : Bool := match bandEdges st with
  | some (lo, hi) => decide (lo ≤ x) && decide (x ≤ hi)
  | none => false

/-- The state of a high reading: the last band until an edge is crossed by 200 mV, else the band it lies in; INVALID too is
left 200 mV past an edge; F only while the device drives MODE 3. -/
def classifyHigh (last : Cp) (driving3 : Bool) (x : Int) : Cp :=
  let fresh := if driving3 && inBand x .f then .f
               else ([Cp.a, .b, .c, .d, .e].find? (inBand x)).getD .invalid
  match bandEdges last with
  | some (lo, hi) => if lo - 200 < x ∧ x < hi + 200 ∧ (last ≠ .f ∨ driving3 = true) then last else fresh
  | none =>
    if last = .invalid ∧ ((fresh = .a ∧ 13300 < x) ∨ (fresh = .e ∧ x < -1300) ∨ (fresh = .f ∧ (-10700 < x ∨ x < -13300)))
    then .invalid else fresh

/-- In PWM a low plateau outside −13,500 to −10,500 mV is a diode fault. -/
def diodeFault (wave : Nat) (lo : Int) : Bool := (wave == 1 || wave == 2) && !inBand lo .f

/-! ## Accepted states (R221–R223) -/

/-- EV_VLK_ILLEGAL with its count. -/
def illegal (o : Nat) (cls : EvClass) (old new : Cp) (row : Nat) (s : State) : State :=
  logEv cls 0x0C o 0x0C02 [(1, o), (1, old.code), (1, new.code), (1, row)]
    (onLink o (fun l => { l with illegal := satInc 8 l.illegal }) s)

/-- B, or D that is not served: the offer stays, a closed contactor pauses, a session on its way waits. -/
def pilotB (o : Nat) (bit10 : Bool) (s : State) : State :=
  let l := linkOf s o
  match l.sup with
  | .idle => connect o (limpPilot o s)
  | .faulted => if l.faultHold || l.faultUntilA then s else connect o (limpPilot o s)
  | .closed => if bit10 then pauseSession o s else pauseOrdered o s
  | .preparing => withdrawRequest o s
  | .paused => withdrawRequest o s
  | _ => acceptB o s

/-- C, or D that is served. -/
def pilotC (o : Nat) (s : State) : State :=
  let s := if (linkOf s o).sup = .idle then setSup o .connected s else s
  tryResume o (advance o s)

/-- D: as C with VENT_OK; else as B, logged once per session. -/
def pilotD (o : Nat) (s : State) : State :=
  let l := linkOf s o
  if l.ventOk then pilotC o s
  else
    let s := if l.ventSeen then s else logEv .service 0x0C o 0x0C06 [(1, o)] (onLink o (fun l => { l with ventSeen := true }) s)
    pilotB o false s

/-- A: the session ends, the lock opens, IDLE; a held FAULTED stays. -/
def pilotA (o : Nat) (s : State) : State :=
  let s := onLink o (fun l => { l with faultUntilA := false, row3Seen := false, bcTicks := [], limpHit := false, startHeld := false }) s
  if (linkOf s o).sup.active then endSession o 2 s
  else if (linkOf s o).faultHold then s
  else requestUnlock o (setSup o .idle s)

/-- E or INVALID: the session ends, FAULTED. -/
def pilotFault (o : Nat) (s : State) : State :=
  let s := onLink o (fun l => { l with startHeld := false }) s
  if (linkOf s o).sup.active then endSession o 2 s else setSup o .faulted s

/-- Row 1 of R223: C or D to A with the contactor closed. -/
def row1 (o : Nat) (old new : Cp) (s : State) : State :=
  if (old = .c ∨ old = .d) ∧ new = .a ∧ contactorClosed s o then illegal o .safety old new 1 s else s

/-- Rows 3 and 4 of R223, by the waveform at the moment of acceptance. -/
def rows34 (o wave : Nat) (old new : Cp) (s : State) : State :=
  if (new = .c ∨ new = .d) ∧ wave = 0 then
    (if (linkOf s o).row3Seen then onLink o (fun l => { l with illegal := satInc 8 l.illegal }) s
     else illegal o .service old new 3 (onLink o (fun l => { l with row3Seen := true }) s))
  else if old = .a ∧ (new = .c ∨ new = .d) ∧ (wave = 1 ∨ wave = 2) then
    slacCheck o (pilotB o true (onLink o (fun l => { l with cp := .b, prev := .a }) (illegal o .service old new 4 s)))
  else s

/-- Row 5 of R223: more than 10 changes between B and C within 10 s; the B of row 4 takes part in them. -/
def row5 (o : Nat) (old new : Cp) (s : State) : State :=
  let l := linkOf s o
  if (old = .b ∧ new = .c) ∨ (old = .c ∧ new = .b) then
    let ts := (s.ticks :: l.bcTicks).filter fun t => decide (s.ticks < t + msTicks 10000)
    if 10 < ts.length then
      let s := onLink o (fun l => { l with bcTicks := [], faultUntilA := true, illegal := satInc 8 l.illegal }) s
      let s := logEv .service 0x0C o 0x0C03 [(1, o), (1, ts.length)] s
      if (linkOf s o).sup.active then endSession o 3 s else setSup o .faulted s
    else onLink o (fun l => { l with bcTicks := ts }) s
  else s

/-- A dwell that ended now lasted 200–400 ms (R234). -/
def dwellOk (now mark : Nat) : Bool := decide (mark + msTicks 200 ≤ now ∧ now ≤ mark + msTicks 400)

/-- A change between B and C inside a validation window (R234): a dwell between two changes outside 200–400 ms ends
validation with failure; a change from B to C counts. -/
def countToggle (o : Nat) (old new : Cp) (s : State) : State :=
  if (old = .b ∧ new = .c) ∨ (old = .c ∧ new = .b) then
    match (linkOf s o).window with
    | none => s
    | some w =>
      if w.mark.all (dwellOk s.ticks) then
        onLink o (fun l => { l with window := some { w with count := if new = .c then w.count + 1 else w.count,
                                                            mark := some s.ticks } }) s
      else endValidation o true s
  else s

/-- R222: request, release and contactor demand are cleared; a DC outlet whose gate enables were going off is open with it. -/
def clearRequest (o : Nat) (s : State) : State :=
  let s := dropRelease o s
  if (linkOf s o).phase = .gateOff then beginPostOpen o (linkOf s o).why s else s

/-- The state sets bit 10 of WITHHOLD (R221). -/
def setsBit10 : Cp → Bool
  | .c => false | .d => false
  | .a => true | .b => true | .e => true | .f => true | .invalid => true | .none => true

/-- The action of an accepted state (R221), after R222 has cleared request and demand where bit 10 becomes set. -/
def actOn (o : Nat) (new : Cp) (lo : Int) (s : State) : State :=
  let s := if setsBit10 new then clearRequest o s else s
  match new with
  | .a => pilotA o s
  | .b => pilotB o true s
  | .c => pilotC o s
  | .d => pilotD o s
  | .f => if (linkOf s o).sup.active then endSession o 2 s else s
  | _ =>
    let s := if (linkOf s o).diode then logEv .safety 0x0C o 0x0C04 [(1, o), (2, unsignedOf 16 lo)] s else s
    pilotFault o s

/-- A newly classified state (R220–R223). -/
def acceptState (o : Nat) (hi lo : Int) (s : State) : State :=
  let wave := waveform s o
  let l := linkOf s o
  let diode := diodeFault wave lo
  let new := if diode then .invalid else classifyHigh l.cp (wave == 3) hi
  let s := onLink o (fun l => { l with cpHi := satSigned 16 hi, cpLo := if wave = 0 then 0 else satSigned 16 lo, diode := diode }) s
  if new = l.cp then s
  else
    let s := row1 o l.cp new s
    let s := rows34 o wave l.cp new s
    let old := (linkOf s o).cp
    let s := onLink o (fun x => { x with prev := x.cp, cp := new }) s
    let window := (linkOf s o).window.isSome
    let s := countToggle o old new s
    let s := actOn o new lo s
    slacCheck o (if window then s else row5 o old new s)

/-- An accepted pilot reading: held back while an activation runs (R42). -/
def pilotAccepted (o : Nat) (hi lo : Int) (s : State) : State :=
  if linked s o = false then s
  else if s.str.act.isSome then onLink o (fun l => { l with pilotHeld := some (hi, lo) }) s
  else acceptState o hi lo s

/-- PILOT_FAULT_HOLD (R223 row 2). -/
def execPilotFaultHold (outlet : Nat) (onset : Bool) (s : State) : Host.Outcome State Fault Refusal :=
  let l := linkOf s outlet
  .next (if linked s outlet = false then s
    else if onset then
      (if (l.cp = .e ∨ l.cp = .invalid) ∧ l.faultHold = false then
        let s := illegal outlet .safety l.prev l.cp 2 (onLink outlet (fun l => { l with faultHold := true }) s)
        if l.sup.active then s else setSup outlet .faulted s
      else s)
    else if l.faultHold ∧ (l.cp = .a ∨ l.cp = .b) then
      let s := onLink outlet (fun l => { l with faultHold := false }) s
      if l.sup ≠ .faulted then s
      else if l.cp = .a then requestUnlock outlet (setSup outlet .idle s)
      else if l.faultUntilA then s else connect outlet s
    else s)

/-- PILOT_MODE_TRANSITION_END (R218). -/
def execPilotModeTransitionEnd (outlet : Nat) (s : State) : Host.Outcome State Fault Refusal :=
  .next (if linked s outlet then offerChanged outlet (onLink outlet (fun l => { l with trans := false }) s) else s)

/-- VLK_PILOT_WRITE (R218, R230): MODE 1 with a current outside 6,000–80,000 mA is ignored whole; in LIMP the supervisor
alone sets the waveform. -/
def pilotWrite (o w : Nat) (s : State) : State :=
  let m := field w 31 30
  let i := field w 16 0
  if linked s o = false ∨ s.sys.mode = .limp ∨ (m = 1 ∧ inRange 6000 80000 i = false) then s
  else offerChanged o (enterMode o m (onLink o (fun l => { l with reqMode := m, reqCur := i }) s))

def execVlkPilotWrite (outlet : Nat) (w : Word) (s : State) : Host.Outcome State Fault Refusal :=
  .next (pilotWrite outlet w.toNat s)

/-! ## Proximity (R224) -/

/-- The coding resistance num / den lies in a range. -/
def ohmsIn (lo hi num den : Nat) : Bool := decide (lo * den ≤ num) && decide (num ≤ hi * den)

/-- The code of a coding resistance num / den. -/
def ppCodeOf (num den : Nat) : Nat :=
  if 4500 * den < num then 1 else if ohmsIn 1100 2460 num den then 2 else if ohmsIn 400 936 num den then 3
  else if ohmsIn 164 308 num den then 4 else if ohmsIn 80 140 num den then 5 else 6

/-- VLKo_PP.OHMS of a coding resistance, saturating; its rounding the spec leaves open. -/
def ppOhmsOf (up : Bool) (num den : Nat) : Nat := if den = 0 then 0xFFFFF else min 0xFFFFF (openQuot up num den).toNat

/-- The lower of two capacities, where none is no limit. -/
def lowerCap : Option Nat → Option Nat → Option Nat
  | some a, some b => some (min a b)
  | none, b => b
  | a, none => a

/-- PROXIMITY_CODE (R224): V at PP_INn in three equal readings gives 1,000 × V / (3,300 − V) Ω; with PP_MODE socket, and not
in WATCH (R238). -/
def execProximityCode (outlet mv : Nat) (s : State) : Host.Outcome State Fault Refusal :=
  let l := linkOf s outlet
  let new := if 3300 ≤ mv then 1 else ppCodeOf (1000 * mv) (3300 - mv)
  .next (if linked s outlet ∧ l.ppMode = 1 ∧ s.sys.mode ≠ .watch ∧ s.sys.mode ≠ .dormant then
    let up := freeBit s
    let s := bump (onLink outlet (fun l => { l with ppCode := new, ppOhms := ppOhmsOf up (1000 * mv) (3300 - mv) }) s)
    if new = l.ppCode ∨ l.sup.active = false then s
    else if new = 1 ∨ new = 6 then
      endSession outlet 4 (logEv .safety 0x0C outlet 0x0C05 [(1, outlet), (1, l.ppCode), (1, new)] s)
    else offerChanged outlet (onLink outlet (fun l => { l with sessCap := lowerCap l.sessCap (cableCapacity new) }) s)
    else s)

/-! ## Commands (R239) -/

/-- VLK_START (R215, R225, R239). -/
def execVlkStart (r : Req) (outlet : Nat) (s : State) : Host.Outcome State Fault Refusal :=
  let l := linkOf s outlet
  let bad :=
    if linked s outlet then
      !((l.sup == .connected || l.sup == .ended) && (l.cp == .b || l.cp == .c || l.cp == .d))
        || (isDc s outlet && !(l.mode == 2 && l.slac == .matched))
        || (isAc s outlet && l.mode == 2 && l.slac != .matched)
    else l.sup.active
  .next (guarded r (outletChecks s outlet ++ [(s.sys.mode == .limp || bad, stsState)])
    (fun s => startSession outlet (postSts r stsOk s)) s)

/-- VLK_STOP (R227, R239). -/
def execVlkStop (r : Req) (outlet reason : Nat) (s : State) : Host.Outcome State Fault Refusal :=
  .next (guarded r (outletChecks s outlet ++ [(!(linkOf s outlet).sup.active, stsState)])
    (fun s => endSession outlet (reason % 256) (postSts r stsOk s)) s)

/-- VLK_UNLOCK (R178 row 1, R227, R239). -/
def execVlkUnlock (r : Req) (outlet : Nat) (s : State) : Host.Outcome State Fault Refusal :=
  let l := linkOf s outlet
  .next (guarded r (outletChecks s outlet ++ [(!(l.sup == .ended || l.sup == .connected) || unlockRefused s outlet, stsState)])
    (fun s =>
      let s := requestUnlock outlet (postSts r stsOk s)
      if l.sup ≠ .ended then s
      else if linked s outlet = false then setSup outlet .idle s
      else if l.cp = .b then setSup outlet .connected s
      else s) s)

/-! ## The rest of the sequence -/

/-- RELEASE_RETRY (R226): the request again each second; after 30 s the session ends. -/
def execReleaseRetry (outlet : Nat) (s : State) : Host.Outcome State Fault Refusal :=
  let l := linkOf s outlet
  .next (if l.phase = .release ∧ flag s.owl.requested outlet = false ∧ l.relTries ≠ 0 ∧ ready s outlet then
    if 30 ≤ l.relTries then
      endSession outlet 6 (logEv .service 0x0C outlet 0x0C08 [(1, outlet), (2, at0 s.owl.withhold outlet)] s)
    else
      onOwl (fun b => { b with requested := put b.requested outlet true })
        (onLink outlet (fun l => { l with relTries := l.relTries + 1 }) s)
    else s)

/-- DC_CONTACTOR_OPEN (R227): below 1,000 mA, or 20 ms after the gate enables went off. -/
def execDcContactorOpen (outlet : Nat) (s : State) : Host.Outcome State Fault Refusal :=
  .next (if (linkOf s outlet).phase = .gateOff then beginPostOpen outlet (linkOf s outlet).why (dropRelease outlet s) else s)

/-- OVERDRAW (R227): a phase group above 1.1 × the offer + 1,000 mA for 10 s on a CLOSED AC outlet. -/
def execOverdraw (outlet group cur : Nat) (s : State) : Host.Outcome State Fault Refusal :=
  let l := linkOf s outlet
  let i := (offerOf s outlet).1
  .next (if linked s outlet ∧ isAc s outlet ∧ l.sup = .closed ∧ l.phase = .none ∧ 11 * i + 10000 < 10 * cur then
    let s := onLink outlet (fun l => { l with overdraw := satInc 8 l.overdraw }) s
    endSession outlet 7 (logEv .service 0x0C outlet 0x0C07 [(1, outlet), (1, group), (4, cur), (4, i)] s)
    else s)

end Sys2Proof.Machine
end

