-- ==== Sys2Proof/Machine/Wake.lean ====
section
/-! DEFINITION. Sleep and wake (R374–R380): votes, entry, the abort points, the wake from WATCH and from DORMANT, mode
commands, and the events that wake: alarms, pilot states, reader detections, tampers, supply events, wake frames. -/

namespace Sys2Proof.Machine

/-! ## Wake (R374 rows 2 and 6, R377, R379) -/

/-- Bits of SYS_WAKESRC (R383). -/
def srcHsi : Nat := 1
def srcAlarm : Nat := 2
def srcField : Nat := 4
def srcPilot : Nat := 8
def srcTamper : Nat := 16
def srcSupply : Nat := 32
def srcGrid : Nat := 64

/-- The core supplies are good: VDDIO_A, VDDIO_B, VDDA, VDDAH and VDDC (R416). -/
def railsGood (s : State) : Bool := Nat.land s.sys.rails 0x8F == 0x8F

/-- Ends a sleep entry with a result: SYS_SLEEP, EV_SLEEP, the slot (R377). The metrology core accrues again. -/
def endEntry (e : SleepEntry) (row mask point sts : Nat) (wake : Bool) (srcs : Nat) (s : State) : State :=
  let s := onSys (fun b => { b with
    entry := none, armed := 0, sleep := { mask := mask, wake := wake, target := e.target, point := point, rc := sts } }) s
  let s := onMet (fun b => { b with stopped := false }) s
  let s := onGlk (fun b => { b with wakeArmed := false }) s
  let s := logEv .service 0x14 0xFF 0x1402 [(1, e.target), (1, row), (2, mask), (1, point), (1, srcs)] s
  post e.req sts mask [] s

/-- A wake event during entry: the entry is abandoned at the next abort point (R377 rows 2, 4, 6). -/
def abandonSleep (e : SleepEntry) (srcs : Nat) (s : State) : State :=
  let s := onSys (fun b => { b with wakeSrc := if srcs = 0 then b.wakeSrc else srcs }) s
  let s := onMgt (fun b => { b with abandoned := satInc 8 b.abandoned }) s
  let (row, point) : Nat × Nat := (match e.point with
    | .prepare => (2, 1) | .a1 => (4, 2) | .saving => (4, 2) | .armed => (6, 2))
  endEntry e row 0 point stsRefused true srcs s

/-- The detections latched in the VBAT domain are acted on by the key engine (R340). -/
def actLatched (s : State) : State :=
  let l := s.key.vbatLatch
  (List.range 7).foldl (fun s d => if bitAt l d then tamperAct d s else s) (onKey (fun k => { k with vbatLatch := 0 }) s)

/-- The HSI and the rings are served again after a wake; WAKE is set on ring H (R401, R404). -/
def hsiWake (s : State) : State :=
  onHsi (fun b => { b with hReady := true, cReady := true, h := { b.h with irqWake := true } }) s

/-- WATCH ends (R374 row 6): READY, the slots loaded, Badger taking its retention buffer, the modem resuming. -/
def wakeFromWatch (srcs : Nat) (s : State) : State :=
  let s := onSys (fun b => { b with wakeSrc := srcs, armed := 0 }) s
  let s := onGlk (fun b => { b with wakeArmed := false, wakeTick := some s.ticks }) s
  let s := drainRetention (setMode 6 .ready s)
  let s := actLatched (loadSlots (deriveSlots s))
  let s := slotsChanged (glkAfterWatch s)
  let s := flushProfile (checkWake (hsiWake s))
  let s := onCans (fun x => if x.en then { x with state := .active } else x) s
  evalMode (slacChecks s)

/-- A wake event from sources and, during entry, from a new command (R377, R379). In DORMANT it boots the device, or is
latched while a supply is absent. -/
def wakeBy (srcs : Nat) (command : Bool) (s : State) : State :=
  match s.sys.entry with
  | some e => if srcs ≠ 0 ∨ command then abandonSleep e srcs s else s
  | none =>
    if s.sys.reset.isSome then s
    else match s.sys.mode with
      | .watch => if Nat.land srcs s.sys.armed = 0 then s else wakeFromWatch (Nat.land srcs s.sys.armed) s
      | .dormant =>
        let w := Nat.land srcs 0x3F
        if w = 0 then s
        else if railsGood s then
          onSys (fun b => { b with wakeSrc := w, reset := some { cold := false, causes := 2 ^ causeWake, pin := false } }) s
        else onSys (fun b => { b with latchedWake := Nat.lor b.latchedWake w }) s
      | _ => s

/-- WAKE_EVENT (R379). -/
def execWakeEvent (srcs : Nat) (command : Bool) (s : State) : Host.Outcome State Fault Refusal := .next (wakeBy srcs command s)

/-- SYS_WAKE_WRITE (R380): a wake in WATCH and DORMANT, and during a sleep entry (R377); else ignored. -/
def execSysWakeWrite (_w : Word) (s : State) : Host.Outcome State Fault Refusal := .next (wakeBy srcHsi false s)

/-- SYS_WAKESRC_READ (R383). -/
def execSysWakesrcRead (_view : Side) (s : State) : Host.Outcome State Fault Refusal :=
  .next (returns s.sys.wakeSrc (onSys (fun b => { b with wakeSrc := 0 }) s))

/-! ## Events that wake -/

/-- ALARM_FIRE (R271): the seconds of NOW, or of the RTC in DORMANT, reach TIM_ALARM; a wake event. -/
def execAlarmFire (s : State) : Host.Outcome State Fault Refusal :=
  .next (if s.tim.alarmEn then wakeBy srcAlarm false (fireAlarm s) else s)

/-- A second of the grant, outside DORMANT (R327), and of the trial, outside WATCH too (R356, log 14). -/
def countdown (s : State) : State :=
  if s.sys.mode = .dormant ∨ s.sys.reset.isSome then s
  else
    let s := onKey (fun k => { k with grant := k.grant.map fun g => { g with seconds := g.seconds - 1 } }) s
    if s.sys.mode = .watch then s
    else onUpd (fun b => { b with trial := b.trial.map fun t => { t with seconds := t.seconds - 1 } }) s

/-- SECOND_BOUNDARY (R266): an alarm that fires at it is a wake event. -/
def execSecondBoundary (s : State) : Host.Outcome State Fault Refusal :=
  let s' := countdown (secondBoundary s)
  .next (if s.tim.alarmEn && !s'.tim.alarmEn then wakeBy srcAlarm false s' else s')

/-- PILOT_STATE_ACCEPTED (R221, R238): held back while an activation runs (R42); a newly accepted state is a wake event in
WATCH and during entry, a fall below 10,500 mV in DORMANT. -/
def execPilotStateAccepted (outlet : Nat) (hi lo : Int) (s : State) : Host.Outcome State Fault Refusal :=
  .next (if s.sys.reset.isSome then s
    else if s.sys.mode = .dormant then (if linked s outlet ∧ hi < 10500 then wakeBy srcPilot false s else s)
    else
      let s' := pilotAccepted outlet hi lo s
      if (linkOf s' outlet).cp = (linkOf s outlet).cp then s' else slacCheck outlet (wakeBy srcPilot false s'))

/-- FIELD_DETECTION (R277): a full poll follows, and in WATCH or during entry a wake. -/
def execFieldDetection (s : State) : Host.Outcome State Fault Refusal :=
  .next (if detected s then wakeBy srcField false (takeDetection s) else s)

/-- FULL_POLL (R276, R278): a foreign-field change during a sleep entry is a wake event (R377). -/
def execFullPoll (p : PollInput) (s : State) : Host.Outcome State Fault Refusal :=
  let s' := fullPoll p s
  .next (if s'.tag.extField = s.tag.extField then s' else wakeBy 0 true s')

/-- A detection of Hedgehog (R340, R341): acted on while the key engine runs, else latched; a wake event. -/
def tamperDetect (d : Nat) (s : State) : State :=
  let s := onKey (fun k => { k with active := Nat.lor k.active (2 ^ d) }) s
  if s.sys.reset.isSome ∨ s.sys.mode = .dormant ∨ s.sys.mode = .watch then
    wakeBy srcTamper false (onKey (fun k => { k with vbatLatch := Nat.lor k.vbatLatch (2 ^ d) }) s)
  else wakeBy srcTamper false (tamperAct d s)

/-- TAMPER_DETECT (R341). -/
def execTamperDetect (detector : Nat) (s : State) : Host.Outcome State Fault Refusal :=
  .next (if detector < 7 then tamperDetect detector s else s)

/-- CRACK_LOOP_MEASURE (R314): a crack is the detection of detector 3. -/
def execCrackLoopMeasure (ohms : Nat) (follows : Bool) (s : State) : Host.Outcome State Fault Refusal :=
  let s' := crackMeasure ohms follows s
  .next (if s'.epd.crackShort = s.epd.crackShort ∧ s'.epd.crackOpen = s.epd.crackOpen then s' else tamperDetect 3 s')

/-- MONITOR_EVALUATE (R368): a supply event during a sleep entry is a wake event (R377). -/
def execMonitorEvaluate (m : MonitorInput) (s : State) : Host.Outcome State Fault Refusal :=
  let s' := monitor m s
  .next (if s'.mgt.supWarn = s.mgt.supWarn ∧ s'.mgt.vbatLow = s.mgt.vbatLow then s' else
    match s'.sys.entry with
    | some e => abandonSleep e srcSupply s'
    | none => s')

/-- GLK_WAKE_IND (R251, R252): in WATCH with the detector armed, not inhibited and 10 s after the last wake, a wake event
whose WAKE_SEQ Badger checks; in READY it only abandons a sleep entry. -/
def execGlkWakeInd (payload : Bytes) (s : State) : Host.Outcome State Fault Refusal :=
  let dev := leAt 0 8 payload
  .next (if blockBit s 4 = false then s
    else if payload.length ≠ 16 then onGlk (fun b => { b with fmt := satInc 8 b.fmt }) s
    else if dev ≠ 0 ∧ dev ≠ s.ident.deviceId then s
    else if s.sys.mode = .watch then
      (if s.glk.wakeArmed ∧ s.glk.wakeInhibit = false ∧ within s s.glk.wakeTick 10000 = false then
        wakeBy srcGrid false (onGlk (fun b => { b with wakePend := some (leAt 8 4 payload, byteAt 12 payload) }) s)
      else s)
    else if glkOn s then wakeBy (if s.sys.entry.isSome then srcGrid else 0) false s
    else s)

/-! ## Sleep (R375–R378) -/

/-- The voters that exist; an outlet declared without its vehicle link votes too (R215, R375). -/
def voters (s : State) : Nat :=
  flagAt true 0 + (List.range 4).foldl (fun m o => m + flagAt (declared s o) (1 + o)) 0 + flagAt (blockBit s 4) 5
    + flagAt (blockBit s 5) 6 + flagAt (blockBit s 6) 7 + flagAt (blockBit s 7) 8 + flagAt (readerThere s) 9
    + flagAt (epdThere s) 10 + 2 ^ 11 + 2 ^ 12 + 2 ^ 13

/-- The voters that refuse by R375, and those that `late` adds. -/
def refusers (late : Nat) (s : State) : Nat :=
  let own := flagAt (!within s s.mgt.hbTick 1000) 0
    + (List.range 4).foldl (fun m o => m + flagAt ((linkOf s o).sup != .idle || txOwned s (.vlk o)) (1 + o)) 0
    + flagAt (txOwned s .glk || s.glk.assoc == .assoc || s.glk.assoc == .auth) 5 + flagAt (txOwned s .eth) 6
    + flagAt (txOwned s (.can 0)) 7 + flagAt (txOwned s (.can 1)) 8 + flagAt s.tag.held.isSome 9 + flagAt (epdBusy s) 10
    + flagAt s.key.busy 11 + flagAt (s.upd.xfer.isSome || s.upd.trial.isSome) 12
    + flagAt (s.mgt.flushFailed && decide (256 < s.mgt.waiting)) 13
  Nat.land (voters s) (Nat.lor own late)

/-- SLEEP (R375): PREPARE to every voter. -/
def execSleep (r : Req) (target : Nat) (s : State) : Host.Outcome State Fault Refusal :=
  .next (badgerCmd r (guarded r [(target != 1 && target != 2, stsLengthRange),
      (s.sys.mode != .ready || s.sys.entry.isSome || (target == 1 && outletMask s == 0), stsState)]
    (fun s => pend r (onSys (fun b => { b with entry := some { req := r, target := target, point := .prepare } }) s))) s)

/-- SLEEP_VOTE_TIMEOUT (R376, R377 row 1): a refusal ends the entry; else every voter is at A1. -/
def execSleepVoteTimeout (late : Nat) (s : State) : Host.Outcome State Fault Refusal :=
  .next (match s.sys.entry with
    | some e =>
      if e.point ≠ .prepare then s
      else
        let m := refusers late s
        if m = 0 then onSys (fun b => { b with entry := some { e with point := .a1 } }) s
        else endEntry e 1 m 1 stsRefused false 0 (onMgt (fun b => { b with refused := satInc 8 b.refused }) s)
    | none => s)

/-- SLEEP_COMMIT (R377 row 3): the voters save; for DORMANT the metrology core saves and stops accrual (R116). -/
def execSleepCommit (s : State) : Host.Outcome State Fault Refusal :=
  .next (match s.sys.entry with
    | some e =>
      if e.point ≠ .a1 then s
      else
        let s := onSys (fun b => { b with entry := some { e with point := .saving } }) s
        let s := flushLog true (renewLease (saveRtc s))
        if e.target = 2 then onMet (fun b => { b with stopped := true }) (if s.met.run then saveAtOnce 4 s else s) else s
    | none => s)

/-- SLEEP_ARM (R377 row 5): A2 reached; Dormouse arms the wake sources; the wake detector only for WATCH from MEMBER. -/
def execSleepArm (s : State) : Host.Outcome State Fault Refusal :=
  .next (match s.sys.entry with
    | some e =>
      if e.point ≠ .saving then s
      else
        let grid := e.target == 1 && blockBit s 4 && s.glk.assoc == .member
        onGlk (fun b => { b with wakeArmed := grid }) (onSys (fun b => { b with
          entry := some { e with point := .armed }, armed := 0x3F + flagAt grid 6 }) s)
    | none => s)

/-- The domains that WATCH and DORMANT switch off: cluster, Badger, key engine, modems, MAC, CAN, HSI (R9, R377 row 7). -/
def powerOff (s : State) : State :=
  let s := startCluster s
  let s := onMgt (fun b => { b with ring := [], waiting := 0, hmb := Mailbox.fresh, amb := Mailbox.fresh }) s
  let s := onKey (fun k => { k with slots := List.replicate 32 KeySlot.fresh, ready := false, authority := none,
                                    challenges := [none, none] }) s
  let s := onHsi (fun b => { b with hReady := false, cReady := false, h := { Ring.fresh true with irqReset := b.h.irqReset },
                                    c := Ring.fresh false }) s
  let s := onGlk (fun b => { b with msdu := none, reasm := [], sync := false }) s
  let s := onEth (fun b => { b with link := false }) s
  let s := onEpd (fun b => { b with run := false }) s
  let s := onTag (fun b => { b with reader := if b.reader = .off then .off else .reduced, present := [], held := none }) s
  (List.range 4).foldl (fun s o => slacOff o s) (onCans (fun x => { x with state := .off }) s)

/-- SLEEP_ENTER (R377 row 7): A3 passed; the target mode begins. In DORMANT Owl and the metrology core are off too (R10), and
every pulse output is low (R108). -/
def execSleepEnter (s : State) : Host.Outcome State Fault Refusal :=
  .next (match s.sys.entry with
    | some e =>
      if e.point ≠ .armed then s
      else
        let s := flushLog true s
        let s := onSys (fun b => { b with entry := none,
                                          sleep := { mask := 0, wake := false, target := e.target, point := 3, rc := stsOk } }) s
        let s := onMgt (fun b => { b with entered := satInc 8 b.entered }) s
        if e.target = 1 then powerOff (setMode 7 .watch s)
        else
          let s := glkGate (powerOff (setMode 7 .dormant s))
          let s := onOwl (fun b => { b with state := .off }) (outputsSafe s)
          onSys (fun b => { b with booted := false, afterHoldup := false })
            (onMet (fun b => { b with run := false, pulses := b.pulses.map fun p => { p with phase := .idle } }) s)
    | none => s)

/-! ## Mode commands (R374, R380) -/

/-- MODE_SET (R380). -/
def execModeSet (r : Req) (target : Nat) (s : State) : Host.Outcome State Fault Refusal :=
  let maint := target == 5
  let lc := s.key.lc
  .next (badgerCmd r (guarded r [(target != 2 && target != 5, stsLengthRange),
      (maint && (lc == .service || lc == .retired || (lc == .maintenance && !hasAuthority s r.side)), stsLifecycle),
      ((maint && ((s.sys.mode != .ready && s.sys.mode != .session) || anySession s))
        || (!maint && (s.sys.mode != .maintenance || s.str.noStruct)), stsState)]
    (fun s => postSts r stsOk (if maint then setMode 8 .maintenance s else evalMode (setMode 13 .ready s)))) s)

/-- LIMP_EXIT (R374 row 5): Badger ready, the cluster heartbeating for 10 s, no 145 °C action: READY, then rows 9–10. -/
def execLimpExit (s : State) : Host.Outcome State Fault Refusal :=
  .next (if s.sys.mode = .limp ∧ s.sys.badgerDown = false ∧ s.sys.appDown = false ∧ s.mgt.therm ≠ 4
      ∧ s.mgt.hbSince.any (fun t => decide (t + msTicks 10000 ≤ s.ticks)) then
    slacChecks (resumeRings (evalMode (setMode 5 .ready s)))
    else s)

end Sys2Proof.Machine
end

