-- ==== Sys2Proof/Machine/Activate.lean ====
section
/-! DEFINITION. The structure coming into force (R38, R43 step 6), the metrology core's restart (R117), WARREN_ACTIVATE
and its completion, and the close of an interval with what follows it. -/

namespace Sys2Proof.Machine

/-! ## Instances started and stopped by a structure (R43 step 6, R44) -/

/-- What a structure says of a lane differs: its record, its calibration or its taps. -/
def laneChanged (a b : Struct) (n : Nat) : Bool :=
  a.lanes.find? (·.lane == n) != b.lanes.find? (·.lane == n) || a.cals.find? (·.lane == n) != b.cals.find? (·.lane == n)
    || ((b.lanes.find? (·.lane == n)).any fun r => firTaps a r.fir != firTaps b r.fir)

def outletIn (t : Struct) (o : Nat) : Option OutletRec := t.outlets.find? (·.outlet == o)
/-- The outlet stands in both structures with the same kind (R117 step 3). -/
def sameOutlet (a b : Struct) (o : Nat) : Bool := (outletIn a o).isSome && (outletIn a o).map (·.kind) == (outletIn b o).map (·.kind)

/-- A resampler under a new structure: it goes on while its outlet and its reference are the same, with the lines of the
lanes still resampled onto its grid; else it starts. -/
def nextResampler (a b : Struct) (o : Nat) (r : Resampler) : Resampler :=
  if outletIn a o == outletIn b o && refFunction a o == refFunction b o then
    { r with lines := (gridLanes b o).map fun n =>
        (r.lines.find? fun x => x.lane == n && !laneChanged a b n).getD { lane := n, words := [] } }
  else startResampler b o

/-- A warm-up in which a lane restarted ends: its spare, where it is the same, is IDLE again, its suspect waits again. -/
def cutWarm (a b : Struct) (w : Warmup) (s : State) : State :=
  if laneChanged a b w.spare || laneChanged a b w.suspect || laneChanged a b w.lane then
    let s := onLaneBlk (fun x => { x with warm := x.warm.filter (·.spare != w.spare) }) s
    let s := if laneChanged a b w.spare then s else releaseSpare w.spare s
    if laneChanged a b w.suspect then s else onLaneBlk (fun x => { x with queue := w.suspect :: x.queue }) s
  else s

/-- Lanes and resamplers. -/
def startLanes (a b : Struct) (s : State) : State :=
  let s := s.lane.warm.foldl (fun s w => cutWarm a b w s) s
  onLaneBlk (fun x => { x with
    lanes := x.lanes.mapIdx fun n l => if laneChanged a b n then startLane s.ident.small b n l else l,
    queue := x.queue.filter fun n => !laneChanged a b n,
    rs := x.rs.mapIdx fun o r => nextResampler a b o r }) s

/-- The outlet whose METER_CONST record names a pulse output. -/
def pulseNamed (t : Struct) (p : Nat) : Option Nat := (t.meters.find? (·.pulse == p)).map (·.outlet)

/-- Pulse outputs: one that its outlet does not name as before goes low and starts at zero. -/
def nextPulseOut (a b : Struct) (p : Nat) (x : Pulse) : Pulse :=
  if (pulseNamed b p).isSome && pulseNamed a p == pulseNamed b p then x else { Pulse.fresh with ovf := x.ovf }

/-- The metrology view of an outlet under a new structure. -/
def nextMetOutlet (a b : Struct) (o : Nat) (m : MetOutlet) : MetOutlet :=
  if sameOutlet a b o then
    (if a.groups.filter (·.outlet == o) = b.groups.filter (·.outlet == o) then m else { m with groups := [] })
  else { MetOutlet.fresh with session := m.session }

/-- Billing of an outlet under a new structure: one newly declared starts anew (R117 step 3, R124, R131); its profile base is
kept until the restart of the metrology core where no structure was in use. -/
def nextBilOutlet (a b : Struct) (start : BilOutlet) (o : Nat) (x : BilOutlet) : BilOutlet :=
  if sameOutlet a b o then x
  else if a.outlets.isEmpty then { start with profBase := x.profBase, profFlags := x.profFlags }
  else start

/-- Metering, billing, protection and the weld state of the outlets. -/
def startOutlets (a b : Struct) (s : State) : State :=
  let s := onMet (fun x => { x with outs := x.outs.mapIdx (nextMetOutlet a b), pulses := x.pulses.mapIdx (nextPulseOut a b) }) s
  let start := startedOutlet s (nowTs s)
  let s := onBil (fun x => { x with outs := x.outs.mapIdx (nextBilOutlet a b start) }) s
  let s := onFlt (fun x => { x with
    above := [], rcAbove := [], supTrue := [],
    rc := x.rc.mapIdx fun o r => if sameOutlet a b o then r else Residual.fresh,
    iso := x.iso.mapIdx fun o r => if sameOutlet a b o then r
      else { Iso.fresh with state := if (outletIn b o).any (·.kind == 2) then .novolt else .off },
    weld := x.weld.mapIdx fun o r => if sameOutlet a b o then r else Weld.fresh }) s
  onOwl (fun x => { x with weldSeen := x.weldSeen.mapIdx fun o w => w && sameOutlet a b o }) s

/-- A load-switch channel declared by a structure. -/
def channelIn (t : Struct) (n : Nat) : Bool := t.switches.any (·.channel == n) || t.contactors.any (·.channel == n)

/-- Load-switch channels and cable locks. -/
def startChannels (a b : Struct) (s : State) : State :=
  let s := onPwr (fun x => { x with
    ch := x.ch.mapIdx fun n c => if channelIn b n then
      (if channelIn a n then c
       else { c with state := if flag s.pwr.grpUv (chGroup n) then .uvOff else .off, ctlOn := false, supDemand := false })
    else { Channel.fresh with overloads := c.overloads, thermal := c.thermal, uvCount := c.uvCount } }) s
  onPwr (fun x => { x with
    locks := x.locks.mapIdx fun o l => if (lockChannel s o).isSome then
      (if l.state = .none then { l with state := if l.fb then .unlocking else .unlocked } else l)
    else { l with state := .none, second := false, pause := false } }) s

/-- Vehicle links and outlet supervisors. -/
def startLinks (a b : Struct) (s : State) : State :=
  { s with
    vlk := s.vlk.mapIdx fun o l => if sameOutlet a b o && (bitAt a.blocks o == bitAt b.blocks o) then l
    else
      { Link.fresh with sup := if (outletIn b o).isSome then .idle else .absent,
                        rxLong := l.rxLong, rxDrop := l.rxDrop, rxDecrypt := l.rxDecrypt, txTimeout := l.txTimeout,
                        illegal := l.illegal, fmt := l.fmt, slacFail := l.slacFail, overdraw := l.overdraw } }

/-- A block bit of BLOCKS went on, or off. -/
def appears (a b : Struct) (n : Nat) : Bool := !bitAt a.blocks n && bitAt b.blocks n
def vanishes (a b : Struct) (n : Nat) : Bool := bitAt a.blocks n && !bitAt b.blocks n

/-- Grid modem, MAC, CAN controllers, reader, display. -/
def startBlocks (a b : Struct) (s : State) : State :=
  let s := if vanishes a b 4 then onGlk (fun x => { x with msdu := none, nbs := [], rxMaps := [], rings := Rings.fresh }) (dropMember .off s) else s
  let s := if vanishes a b 5 then onEth (fun x => { EthBlock.fresh with
    fcsErr := x.fcsErr, rxLong := x.rxLong, rxDrop := x.rxDrop, txTimeout := x.txTimeout }) s else s
  let s := [0, 1].foldl (fun s c => if vanishes a b (6 + c) then onCan c (fun x => { Can.fresh with
    rxLong := x.rxLong, rxDrop := x.rxDrop, busOffs := x.busOffs, txTimeout := x.txTimeout }) s else s) s
  let s := if appears a b 8 then onTag (fun x => { x with reader := .reduced }) s
    else if vanishes a b 8 then onTag (fun x => { x with reader := .off, present := [], held := none }) s else s
  let s := if appears a b 9 then startEpd s
    else if vanishes a b 9 then onEpd (fun x => { x with on := false, run := false }) s else s
  let s := if vanishes a b 10 then onEpd (fun x => { x with leds := x.leds.map fun _ => Led.fresh, ledStep := [0, 0, 0, 0] }) s else s
  let s := if a.notch = b.notch then s else reestimateAll s
  let s := glkGate s
  onOwl (fun x => { x with efd := x.efd.mapIdx fun c y =>
    let r := x.cfg.get.efdom.getD c default
    let bit := if r.transport = 1 then 6 else if r.transport = 2 then 7 else if r.transport = 3 then 5 else 4
    if (appears a b bit || vanishes a b bit) && s.owl.state == .run then startConn s r y else y }) s

/-- The structure registers are written from a copy and locked; instances stop and start (R38, R43 step 6). -/
def installStruct (c : Nat) (t : Struct) (s : State) : State :=
  let old := s.str.cur
  let s := onStr (fun b => { b with cur := t, copyInUse := c + 1, noStruct := false, locked := true }) s
  let s := startOutlets old t (startLanes old t s)
  zcCheck (startBlocks old t (startLinks old t (startChannels old t s)))

/-! ## Substitutions (R77) -/

/-- The reason a substitution record does not hold: 1 sealed digest, or a record that fails its CRC-32C; 2 lane role; 3 spare
role or FAILED; 0 it holds (log 5). -/
def substReason (s : State) (r : SubstRec) : Nat :=
  let img := if s.str.copyInUse = 0 then [] else (copyOf s (s.str.copyInUse - 1)).bytes
  if !r.ok || r.digest != imageSealDigest img then 1
  else if laneRole s r.lane ≠ 1 then 2
  else if laneRole s r.spare ≠ 2 ∨ (laneOf s r.spare).health = .failed then 3
  else 0

/-- A swap that holds: the spare carries the lane's function with its calibration. -/
def connectSpare (r : SubstRec) (s : State) : State :=
  let k := laneOf s r.lane
  let s := onStr (fun b => { b with subst := put b.subst r.lane r.spare }) s
  let s := onLane r.spare (fun l => refill k.cic { l with health := .serving, partner := r.lane, gain := k.gain, delay := k.delay,
                                                          bankA := k.bankA, bankBTaps := k.bankBTaps, bankB := k.bankB }) s
  onLane r.lane (fun l => { l with health := .swapped, partner := r.spare }) s

/-- A lane started as the structure in force declares it. -/
def restartLane (n : Nat) (s : State) : State := onLane n (fun l => startLane s.ident.small s.str.cur n l) s

/-- A swap that ends, whatever the spare's health: record erased, a warm-up for the function ended, spare IDLE if it is still
a spare, the lane as declared, neither in the queue; EV_SUBST_DISCARD. -/
def discardSubst (r : SubstRec) (reason : Nat) (s : State) : State :=
  let s := onStr (fun b => { b with subst := put b.subst r.lane r.lane }) (dropWarm r.lane s)
  let s := onLaneBlk (fun b => { b with warm := b.warm.filter (·.lane != r.lane), queue := (b.queue.erase r.lane).erase r.spare }) s
  let s := restartLane r.spare (restartLane r.lane s)
  logEv .service 0x1F r.lane 0x0206 [(1, r.lane), (1, r.spare), (1, reason)]
    (onMet (fun b => { b with subst := b.subst.filter (·.lane != r.lane) }) s)

/-- Every substitution record judged: at boot those that hold are connected, at an activation they are already. A spare that
this frees serves the queue. -/
def judgeSwaps (boot : Bool) (s : State) : State :=
  serveQueue (s.met.subst.foldl (fun s r =>
    let c := substReason s r
    if c = 0 then (if boot then connectSpare r s else s) else discardSubst r c s) s)

/-! ## Restart of the metrology core (R117, R118) -/

/-- One copy of an area failed: rewritten from the other, EV_STORE_INTEGRITY (R118). -/
def repairTwin {α : Type} (area : Nat) (t : Twin α) (write : Twin α → State → State) (s : State) : State :=
  if t.a.ok && !t.b.ok then legalEv 0x04 0xFF 0x0408 [(4, area), (1, 1)] (write { t with b := t.a } s)
  else if t.b.ok && !t.a.ok then legalEv 0x04 0xFF 0x0408 [(4, area), (1, 0)] (write { t with a := t.b } s)
  else s

/-- The billing control record lost in both copies: the record of a store never written stands in its place, and
EV_STORE_LOST says so (log 36). -/
def ctlLost (s : State) : State :=
  if s.bil.ctl.lost then legalEv 0x04 0xFF 0x0409 [(4, 0x2800)] (onBil (fun b => { b with ctl := Twin.both BillCtl.fresh }) s) else s

/-- The two-copy areas checked (R118): lost legal counters are taken from the newest save. -/
def storeCheck (s : State) : State :=
  let s := repairTwin 0 s.met.legal (fun t => onMet fun b => { b with legal := t }) s
  let s := repairTwin 0x200 s.met.sealedRec (fun t => onMet fun b => { b with sealedRec := t }) s
  let s := ctlLost (repairTwin 0x2800 s.bil.ctl (fun t => onBil fun b => { b with ctl := t }) s)
  let s := if s.met.legal.lost = false then s else match newestSave s with
    | some r => onMet (fun b => { b with legal := Twin.both r.counters }) s
    | none => legalEv 0x04 0xFF 0x0409 [(4, 0)] (onMet (fun b => { b with storeFault := true }) s)
  if s.met.sealedRec.lost then legalEv 0x04 0xFF 0x0409 [(4, 0x200)] (onMet (fun b => { b with storeFault := true }) s) else s

/-- A torn save: a slot whose SAVE_SEQ is above that of the save used and whose check fails (R117 step 2). -/
def tornSave (s : State) (used : Nat) : Option SaveRec :=
  s.met.slots.findSome? fun x => x.bind fun r => if !r.ok && decide (used < r.seq) then some r else none

/-- The save restores the outlets that stand in it and in the structure with the same kind (R117 step 3, R133, R143). -/
def restoreOutlets (r : SaveRec) (s : State) : State :=
  let same (o : Nat) : Bool := bitAt r.outlets o && (outletRec s o).any (·.kind == at0 r.kinds o)
  let s := restoreLedger r.ledger s
  let s := onMet (fun b => { b with
    outs := b.outs.mapIdx fun o m => if same o then setAcc (r.accs.getD o m.acc) (r.harms.getD o m.harm) m else m,
    pulses := b.pulses.mapIdx fun p x => match r.pulses[p]? with
      | some (rem, back) => { x with rem := rem, backlog := back }
      | none => x }) s
  let start := startedOutlet s (nowTs s)
  onBil (fun b => { b with
    outs := b.outs.mapIdx fun o x => if same o then { x with demand := r.demands.getD o x.demand } else start }) s

/-- The ledger of a device without a valid save: zero, tariff 1 (R117 step 4, R149). -/
def noLedger : Ledger :=
  { saveSeq := 0, tokenSeq := 0, tariffs := [1, 1, 1, 1], credit := 0, timp := [], texp := [], md := [] }

/-- The generation of a SESSION_START in the session ring that no SESSION_END of its outlet follows (R228). -/
def openSession (s : State) (o : Nat) : Option Nat :=
  match (s.met.sessionRing.filter fun b => byteAt 0x0D b == 2 ^ o).getLast? with
  | some b => if byteAt 0x0C b = 2 then some (leAt 8 4 b) else none
  | none => none

/-- The SESSION_END of a session open at the reset falls due at the outlet's first boundary (R228). -/
def endOpenSessions (s : State) : State :=
  (outletList s).foldl (fun s o => match openSession s o with
    | some g => onMetOut o (fun m => { m with session := g, endDue := some g }) s
    | none => s) s

/-- The metrology core starts (R117): the save, the fallback, the outage, the billing restart, RESTART due. -/
def metStart (s : State) : State :=
  let s := storeCheck (onMet (fun b => { b with run := true, stopped := false, saving := none, saveTick := s.ticks }) s)
  let now := nowTs s
  let s := endOpenSessions s
  match newestSave s with
  | none =>
    let s := onBil (fun b => { b with outs := b.outs.map fun x => { x with profBase := [0, 0, 0, 0] } }) (restoreLedger noLedger s)
    billRestart now now (onMet (fun b => { b with restartDue := some 0 }) s)
  | some r =>
    let s := match tornSave s r.seq with
      | some x => legalEv 0x04 0xFF 0x0404 [(4, r.seq), (4, x.seq), (1, x.kind)]
          (onCounters (fun c => { c with saveFallbacks := satInc 32 c.saveFallbacks }) (onMet (fun b => { b with fallback := true }) s))
      | none => s
    let s := restoreOutlets r s
    let out := now / 2 ^ 30 - r.time / 2 ^ 30
    let s := onCounters (fun c => { c with outages := satInc 32 c.outages, outageS := satAdd 32 c.outageS out }) s
    let s := legalEv 0x04 0xFF 0x0405 [(4, r.time / 2 ^ 30), (4, out)] s
    profileRestart r.time now (billRestart r.time now (onMet (fun b => { b with restartDue := some out }) s))

/-! ## Safety changes (R40, R192, R193) -/

/-- Records that stand in one list only. -/
def differing {α : Type} [DecidableEq α] (a b : List α) : List α := a.filter (!b.contains ·) ++ b.filter (!a.contains ·)

/-- Outlets whose outputs meet a mask, in either structure. -/
def maskOutlets (a b : Struct) (m : Nat) : Nat :=
  (List.range 4).foldl (fun x o =>
    let outs := Nat.lor (Nat.lor (contactorMask a o) (gateMask a o)) (Nat.lor (contactorMask b o) (gateMask b o))
    x + flagAt (Nat.land m outs != 0) o) 0

/-- The outlets named by added, removed or altered safety records, and the guard inputs these name (R40, R192). A TRIP record
names the outlets of its output mask; its source instance names none (log 12). -/
def safetyNames (a b : Struct) : Nat × Nat :=
  let lorAll (l : List Nat) := l.foldl Nat.lor 0
  let g := differing a.guards b.guards
  let t := differing a.trips b.trips
  (lorAll [lorAll ((differing a.contactors b.contactors).map fun r => 2 ^ r.outlet),
      lorAll ((differing a.gates b.gates).map fun r => 2 ^ r.outlet), lorAll (g.map (·.mask)),
      lorAll (t.map fun r => maskOutlets a b r.mask), lorAll ((differing a.limps b.limps).map fun r => 2 ^ r.outlet)],
   Nat.lor (lorAll (g.map fun r => 2 ^ r.input)) (lorAll ((t.filter (·.kind == 4)).map fun r => 2 ^ r.inst)))

/-- Owl takes a changed safety section over: outlets UNPROVEN, the proof record rewritten, the change log. -/
def safetyChanged (old : Struct) (oldSec : Bytes) (side : Side) (s : State) : State :=
  let (outs, guards) := safetyNames old s.str.cur
  let s := onOwl (fun b => { b with
    unproven := b.unproven.mapIdx fun o u => declared s o && (u || bitAt outs o),
    need := b.need.mapIdx fun o n =>
      Nat.land (guardsOf s o) (Nat.lor n (if bitAt outs o then guards else 0)),
    proof := { b.proof with ok := true, seen := minus b.proof.seen guards, safeDigest := safeDigest s } }) s
  changeEntry 1 (sideCode side) old.safeVer s.str.cur.safeVer (Config.sha384 oldSec) (Config.sha384 (safetySection s)) s

/-! ## WARREN_ACTIVATE (R40–R43) -/

/-- Step 2 of R43: the validated copy's selector is written TRIAL. -/
def trialSelector (c : Nat) (s : State) : State :=
  onStr (fun b => { b with copies := upd b.copies c fun x => { x with sel := .trial, selSeq := leAt 0x0C 4 x.bytes } }) s

/-- Steps 3–7 of R43 with the validated copy `c`. -/
def activateCopy (c : Nat) (side : Side) (s : State) : State :=
  let img := (copyOf s c).bytes
  let t := imageStruct img
  let (seal', safety, _) := changedSections s img
  let old := s.str.cur
  let oldSec := safetySection s
  let was := s.str.noStruct
  let s := if seal' then recordSeal 0x04 (imageSealDigest img) (sealBefore s) else s
  let s := onStr (fun b => { b with copies := upd b.copies c fun x => { x with sel := .committed, selSeq := t.seq } }) s
  let s := installStruct c t s
  let s := judgeSwaps false s
  let s := if was then metStart s else s
  let s := if safety then safetyChanged old oldSec side s else s
  let s := if s.owl.state = .run then (outletList s).foldl (fun s o =>
    if sameOutlet old t o then s else startOutlet o s) s else s
  let s := settleAll (refreshWithhold s)
  let k := kindOf s 4
  let s := if c = 1 then onKind 4 (fun d => { d with activeB := true, b := { d.b with state := .active }, a := { d.a with
      state := if k.a.state = .active then .previous else d.a.state } }) s
    else onKind 4 (fun d => { d with activeB := false, a := { d.a with state := .active }, b := { d.b with
      state := if k.b.state = .active then .previous else d.b.state } }) s
  let s := if seal' then mirrorCopy (capture 6 (outletMask s) 0 (nowTs s) [] none s) else s
  slotsChanged s

/-- A refused WARREN_ACTIVATE. -/
def refuseWarren (r : Req) (sts : Nat) (s : State) : State := postSts r sts (onStr (fun b => { b with lastRc := sts }) s)

/-- The decision of R41. -/
def warrenActivate (r : Req) (s : State) : State :=
  if anyActivation s || !s.lane.warm.isEmpty then refuseWarren r stsBusy s
  else
    let c := inactiveCopy s
    let img := (copyOf s c).bytes
    let reason := validate s .activate (installedMet s) img
    let s := onStr (fun b => { b with actReason := reason }) s
    if reason ≠ 0 then refuseWarren r (reasonSts reason) (logReject 0x14 (c + 1) reason img s)
    else
      let (seal', safety, open') := changedSections s img
      let any := seal' || safety || open'
      if (seal' && !sealAllowed s) || (any && s.key.lc == .retired) then refuseWarren r stsLifecycle s
      else if safety && !hasSession s r.side then refuseWarren r stsAuthFail s
      else if any && ((if seal' then s.sys.mode != .maintenance else s.sys.mode != .ready && s.sys.mode != .maintenance)
          || anySession s) then refuseWarren r stsState s
      else pend r (onStr (fun b => { b with act := some { req := some r, copy := c, side := r.side } }) (trialSelector c s))

/-- WARREN_ACTIVATE (R41): decided in order; an accepted one writes the TRIAL selector, and its steps 3–8 complete within
50 ms as WARREN_ACTIVATION_COMPLETE. A power failure between the two leaves the TRIAL selector to R22. -/
def execWarrenActivate (r : Req) (s : State) : Host.Outcome State Fault Refusal :=
  .next (badgerCmd r (warrenActivate r) s)

/-- A pilot reading held back by the activation is acted on (R42). -/
def releasePilot (o : Nat) (s : State) : State :=
  match (linkOf s o).pilotHeld with
  | some (hi, lo) => acceptState o hi lo (onLink o (fun l => { l with pilotHeld := none }) s)
  | none => s

/-- WARREN_ACTIVATION_COMPLETE (R42, R43 steps 3–8): the new structure, the result, EV_WARREN_ACTIVATED, and what was held
back. -/
def execWarrenActivationComplete (s : State) : Host.Outcome State Fault Refusal :=
  .next (match s.str.act with
    | none => s
    | some a =>
      let s := onStr (fun b => { b with act := none, lastRc := stsOk }) (activateCopy a.copy a.side s)
      let s := match a.req with
        | some r => postSts r stsOk s
        | none => s
      let s := logEv .service 0x14 0xFF 0x0103 [] s
      let s := (List.range 4).foldl (fun s o => slacCheck o (releaseHeld o (releasePilot o s))) s
      returnIfDue s)

/-! ## INTERVAL_CLOSE (R101, R225) -/

/-- INTERVAL_CLOSE (R101): the eight steps; a SESSION_START captured lets the outlet's sequence go on. -/
def execIntervalClose (outlet : Nat) (inp : IntervalInput) (s : State) : Host.Outcome State Fault Refusal :=
  .next (match metRuns s, outletRec s outlet with
    | true, some o => afterCapture outlet (closeInterval o inp s)
    | _, _ => s)

end Sys2Proof.Machine
end

