-- ==== Sys2Proof/Machine/Supply.lean ====
section
/-! DEFINITION. Supplies, resets and the hold-up sequence (R413–R429): the rails becoming good, the power-fail warning with
the steps of R423, the assertion of each reset, and the requested reset. -/

namespace Sys2Proof.Machine

/-! ## Supplies (R414–R416) -/

/-- The bits of `rails` that R416 waits for: VDDIO_A, VDDIO_B, VDDA, VDDAH, and VDDC at bit 7. -/
def coreRails : Nat := 0x8F

/-- The boot that a wake brings (R374 row 2), beside whatever reset waits already. -/
def wakeBoot (s : State) : State :=
  let h : ResetHold := (match s.sys.reset with
    | some h => { h with causes := Nat.lor h.causes (2 ^ causeWake) }
    | none => { cold := false, causes := 2 ^ causeWake, pin := false })
  onSys (fun b => { b with reset := some h, wakeSrc := Nat.lor b.latchedWake srcSupply, latchedWake := 0 }) s

/-- SUPPLY_GOOD (R416): the core rails have been good for 2 ms with RST_N high. A device in DORMANT wakes (R374 row 2). -/
def execSupplyGood (seqErr : Option (Nat × Nat)) (s : State) : Host.Outcome State Fault Refusal :=
  let up := railsGood s && !s.sys.held
  let s := onSys (fun b => { b with
    rails := Nat.lor b.rails coreRails, held := false, seqErr := if up then b.seqErr else seqErr,
    reset := b.reset.map fun h => { h with pin := false } }) s
  .next (if up ∨ s.sys.holdup ∨ s.sys.mode ≠ .dormant ∨ s.sys.reset.isSome then s else wakeBoot s)

/-! ## SYS_HOLDLAST (R427) -/

/-- SYS_HOLDLAST as it reads. -/
def holdLastWord (h : HoldLast) : Nat :=
  h.vwarn * 2 ^ 16 + h.duration * 2 ^ 8 + flagAt h.short 7 + flagAt h.source 6 + h.done

/-- A step of R423 is done. -/
def stepDone (bit : Nat) : State → State :=
  onSys fun b => { b with holdLast := { b.holdLast with done := Nat.lor b.holdLast.done (2 ^ bit) } }

/-! ## Power-fail warning (R418, R423, R425) -/

/-- Every frame port. -/
def allPorts : List Port := [.vlk 0, .vlk 1, .vlk 2, .vlk 3, .glk, .eth, .can 0, .can 1]

/-- Step 2: releases, gate enables and contactor channels inactive, WITHHOLD bit 12, EV_HOLDUP_SAFE (R188). -/
def holdupSafe (s : State) : State :=
  let rel := (List.range 4).foldl (fun m o => m + flagAt (flag s.owl.released o) o) 0
  let s := onOwl (fun b => { b with
    pfail := true, released := List.replicate 4 false, requested := List.replicate 4 false }) s
  let s := onPwr (fun b => { b with ch := b.ch.mapIdx fun n c => if 8 ≤ n then channelOff c else c }) s
  let s := onLinks (fun l => { l with gate := false }) s
  stepDone 0 (logEv .safety 0x0A 0xFF 0x0A08 [(1, rel)] (refreshWithhold s))

/-- Step 3: the cluster, modems, reader, CAN controllers and MAC go off; descriptors go back STS_STATE. -/
def holdupPowerOff (s : State) : State :=
  let s := allPorts.foldl (fun s p => if portThere s p then rxFlush p 128 (txFlush p 128 s) else s)
    (onGlk (fun b => { b with msdu := none, sync := false }) s)
  let s := onTag (fun b => { b with present := [], held := none }) s
  let s := onEth (fun b => { b with link := false }) s
  let s := startCluster (onCans (fun x => { x with state := .off }) s)
  (List.range 4).foldl (fun s o => slacOff o s) s

/-- Snapshots not yet signed are abandoned and their generations given back; BILLING ones stay, and with them every
generation below theirs (R106, R107, R138, log 35). -/
def abandonSnapshots (s : State) : State :=
  let all := s.met.snapQueue ++ s.met.snapWait
  let keep := all.filter (·.type == 4)
  let drop := all.filter (·.type != 4)
  match drop with
  | [] => s
  | d :: _ =>
    let g := keep.foldl (fun m x => max m x.gen) (d.gen - 1)
    let s := onCounters (fun c => { c with generation := g })
      (onMet (fun b => { b with snapQueue := keep.take 8, snapWait := keep.drop 8 }) s)
    drop.foldl (fun s x => logEv .service 0x04 0xFF 0x040A [(1, x.type), (1, x.outlets)] s) s

/-- Steps 4 and 5: the interval in progress closed with the words received so far, the KIND 2 save, the boundary journal
(R101, R115, R138). -/
def holdupSave (parts : List (Nat × IntervalInput)) (s : State) : State :=
  if s.met.run = false then s
  else
    let s := if s.met.stopped then s else parts.foldl (fun s p => match outletRec s p.1 with
      | some o => closeSteps o p.2 s
      | none => s) s
    let s := onMet (fun b => { b with pulses := b.pulses.map fun p => { p with phase := .idle } }) s
    let s := saveAtOnce 2 (abandonSnapshots s)
    let seq := match newestSave s with
      | some r => r.seq
      | none => 0
    stepDone 2 (journalPending (nowTs s) seq (stepDone 1 s))

/-- Step 7: Badger's unwritten records into the retention buffer, LEGAL, SAFETY and SECURITY first (R372). -/
def holdupLog (s : State) : State :=
  if s.sys.badgerDown then s
  else
    let new := (s.mgt.ring.drop (s.mgt.ring.length - s.mgt.waiting)).map (·.ev)
    let s := (new.filter (fun e => !e.cls.ordinary) ++ new.filter (·.cls.ordinary)).foldl (fun s e => retain e s) s
    stepDone 4 (onMgt (fun b => { b with waiting := 0 }) s)

/-- EV_HOLDUP, with the row of R425 that held; 0 for none. -/
def logHoldup (row : Nat) (s : State) : State :=
  logEv .power 0x1E 0xFF 0x0004 [(4, holdLastWord s.sys.holdLast), (1, row)] s

/-- The row of R425 that a warning meets; 0 for none. -/
def holdupRow (s : State) : Nat :=
  if s.sys.reset.isSome then 2
  else if s.sys.mode = .watch then 3
  else if s.sys.entry.isSome then 4
  else if s.sys.reqReset.isSome then 5
  else if activating s then 6
  else if s.sys.badgerDown then 7
  else 0

/-- A sleep entry abandoned at once (R425 row 4): SYS_SLEEP records STS_STATE and the point reached. -/
def dropSleep (s : State) : State :=
  match s.sys.entry with
  | none => s
  | some e =>
    let point := match e.point with
      | .prepare => 0 | .a1 => 1 | .saving => 1 | .armed => 2
    let s := onSys (fun b => { b with
      entry := none, armed := 0, sleep := { mask := 0, wake := false, target := e.target, point := point, rc := stsState } }) s
    postSts e.req stsState s

/-- The warning in a running device (R423 steps 1–5 and 7). -/
def holdup (vhold : Bool) (mv : Nat) (parts : List (Nat × IntervalInput)) (s : State) : State :=
  let row := holdupRow s
  let s := onSys (fun b => { b with
    pfail := true, holdup := true, reqReset := none,
    holdLast := { vwarn := mv % 2 ^ 16, duration := 0, short := false, source := vhold, done := 0 } }) s
  let s := holdupSafe s
  if row = 2 then logHoldup 2 s
  else
    let s := dropSleep s
    let s := onLaneBlk (fun b => { b with warm := [], queue := [] }) s
    let s := holdupPowerOff s
    let s := holdupSave parts s
    let s := if framesRun s then s else stepDone 3 s
    logHoldup row (holdupLog s)

/-- POWER_FAIL_WARNING (R418, R423): ignored in DORMANT and once it is raised (R425 rows 1 and 8). VHOLD warns below WARN_MV. -/
def execPowerFailWarning (vhold : Bool) (mv : Nat) (parts : List (Nat × IntervalInput)) (s : State) :
    Host.Outcome State Fault Refusal :=
  .next (if s.sys.pfail ∨ (s.sys.mode = .dormant ∧ s.sys.reset.isNone) ∨ (vhold ∧ s.sys.warnMv ≤ mv) then s
    else holdup vhold mv parts s)

/-- HOLDUP_COMPLETE (R423 step 8), after the display has stopped: NOW into the RTC, SYS_HOLDLAST, DORMANT. With the supplies good the latched supply event
boots the device at once (R425 row 9); a boot that was abandoned waits for the supplies. -/
def execHoldupComplete (duration : Nat) (s : State) : Host.Outcome State Fault Refusal :=
  .next (if s.sys.holdup = false ∨ (s.sys.reset.isNone ∧ framesRun s) then s
    else
      let s := onSys (fun b => { b with holdLast := { b.holdLast with duration := min 0xFF duration } }) s
      let s := if s.sys.mode = .dormant then s
        else glkGate (powerOff (setMode 1 .dormant (if s.sys.reset.isSome then s else saveRtc s)))
      let s := onOwl (fun b => { b with state := .off }) (outputsSafe s)
      let s := onMet (fun b => { b with run := false, stopped := false }) s
      let s := onSys (fun b => { b with
        holdup := false, pfail := false, booted := false, afterHoldup := true, held := b.held || b.reset.isSome }) s
      if railsGood s ∧ s.sys.reset.all (fun h => !h.pin) then onSys (fun b => { b with held := false }) (wakeBoot s) else s)

/-! ## Resets (R415, R419, R421) -/

/-- RST_N_ASSERT (R419): low for 1 µs; at the 10 s mark (`long`) the reset is cold, as RSTN_LONG. -/
def execRstNAssert (long : Bool) (s : State) : Host.Outcome State Fault Refusal :=
  .next (if long then
    let s := assertReset true (2 ^ causeRstnLong) true s
    onSys (fun b => { b with reset := b.reset.map fun h =>
      { h with causes := if bitAt h.causes causeRstn then h.causes - 2 ^ causeRstn else h.causes } }) s
    else assertReset false (2 ^ causeRstn) true s)

/-- BROWNOUT (R414, R419): a rail stops being good. In DORMANT nothing runs on it; during the hold-up it ends the sequence
(R425 row 10). -/
def execBrownout (rail : Nat) (s : State) : Host.Outcome State Fault Refusal :=
  let bit := if rail = 9 then 7 else rail
  .next (if 4 ≤ bit ∧ bit ≠ 7 then s
    else
      let s := onSys (fun b => { b with rails := b.rails - Nat.land b.rails (2 ^ bit) }) s
      if s.sys.mode = .dormant ∧ s.sys.reset.isNone then s
      else
        let short := s.sys.holdup
        let s := assertReset false (2 ^ causeBrownout) false s
        onSys (fun b => { b with
          held := true, holdup := false, pfail := false, afterHoldup := b.afterHoldup || short,
          holdLast := if short then { b.holdLast with short := true } else b.holdLast }) s)

/-- VBAT_POR (R415, R419): VBAT and VDDIO_A both below the VBAT falling level; Dormouse loses retention and the RTC. -/
def execVbatPor (s : State) : Host.Outcome State Fault Refusal :=
  let s := assertReset true (2 ^ causeVbatPor) false s
  let s := onSys (fun b => { b with rails := b.rails - Nat.land b.rails 1, held := true, holdup := false, pfail := false }) s
  .next (onKey (fun b => { b with vbatLatch := 0 })
    (onTim (fun b => { b with rtc := 0, rtcLost := true, alarmEn := false }) s))

/-- A write of SYS_RSTREQ (R427, R429): without the KEY, with another KIND, or KIND 2 outside MAINTENANCE, it is ignored. -/
def rstreqWrite (w : Nat) (s : State) : State :=
  if field w 31 24 ≠ 0xA5 ∨ s.sys.booted = false ∨ s.sys.pfail then s
  else if field w 1 0 = 1 then requestReset false causeSwreq s
  else if field w 1 0 = 2 ∧ s.sys.mode = .maintenance then requestReset true causeSwreq s
  else s

/-- SYS_RSTREQ_WRITE (R429). -/
def execSysRstreqWrite (w : Word) (s : State) : Host.Outcome State Fault Refusal := .next (rstreqWrite w.toNat s)

/-- The save before a requested reset is complete (R421), or nothing can take it: the metrology core is down, closes no
interval, or may not write its store (log 23). -/
def resetReady (s : State) : Bool :=
  s.met.saving.isNone && (s.sys.resetSaved || !s.met.run || s.met.stopped || s.met.storeFault || (outletList s).isEmpty)

/-- REQUESTED_RESET (R421): the periodic save is complete, and the reset is asserted. -/
def execRequestedReset (s : State) : Host.Outcome State Fault Refusal :=
  .next (match s.sys.reqReset with
    | some (cold, causes) => if resetReady s then assertReset cold causes false s else s
    | none => s)

end Sys2Proof.Machine
end

