-- ==== Sys2Proof/Machine/Boot.lean ====
section
/-! DEFINITION. BOOT (R420, R422): the wipe by reset kind, the life-cycle record, the activation record, the Warren copies,
the structure, the metrology core's restart, the slots, and the mode the device comes up in. -/

namespace Sys2Proof.Machine

/-! ## What a reset leaves (R14, R420) -/

/-- Counters of the lanes; the lanes that the HKV-4280 fuses off read FUSED (R2). -/
def keepLanes (small cold : Bool) (b : LaneBlock) : LaneBlock :=
  { LaneBlock.fresh with
    lanes := b.lanes.mapIdx fun n l => { (if cold then Lane.fresh
      else { Lane.fresh with chkErr := l.chkErr, ovld := l.ovld, strikes := l.strikes }) with
      health := if small && inRange 22 39 n then .fused else .absent } }

/-- The metrology store stays (R111, R420). -/
def keepMet (b : MetBlock) : MetBlock :=
  { MetBlock.fresh with
    outs := b.outs.map fun m => { MetOutlet.fresh with session := m.session }, legal := b.legal, sealedRec := b.sealedRec,
    subst := b.subst, slots := b.slots, sessionRing := b.sessionRing, staging := b.staging }

/-- The billing area of the store, the mirror and Squirrel stay; with them what the running quarter hour, a step of NOW and a
BILL_RESET need to go on after the cut (log 36). -/
def keepBil (b : BilBlock) : BilBlock :=
  { BilBlock.fresh with
    ctl := b.ctl, cals := b.cals, ring := b.ring, journal := b.journal, tokens := b.tokens, tokenNext := b.tokenNext,
    mirror := b.mirror, lastTokenS := b.lastTokenS, squirrel := b.squirrel, baseDate := b.baseDate, resetDue := b.resetDue,
    step := b.step, backFrom := b.backFrom,
    outs := b.outs.map fun x => { BilOutlet.fresh with profBase := x.profBase, profFlags := x.profFlags } }

/-- Channel counters, and what the balls show at the boot. -/
def keepPwr (cold : Bool) (i : BootInput) (b : PwrBlock) : PwrBlock :=
  { ch := b.ch.map fun c => if cold then Channel.fresh
      else { Channel.fresh with overloads := c.overloads, thermal := c.thermal, uvCount := c.uvCount },
    grpMv := (List.range 3).map (at0 i.grpMv), grpUv := (List.range 3).map fun g => decide (at0 i.grpMv g < 8000),
    limpLow := i.limpLow, lhIn := i.lhIn % 16,
    locks := (List.range 4).map fun o => { Lock.fresh with fb := bitAt i.lockFb o, seen := true } }

/-- Owl's configuration and change log stay; the proof record, the weld history and the times of failed diagnostics but for a
cold reset (R193, R199, R184 row 5; log 37). -/
def keepOwl (cold : Bool) (b : OwlBlock) : OwlBlock :=
  let k := if cold then OwlBlock.fresh else b
  { OwlBlock.fresh with
    diag := k.diag, diagTick := k.diagTick, weldSeen := k.weldSeen, proof := k.proof, cfg := b.cfg, cfgLost := b.cfgLost, log := b.log,
    logSeq := b.logSeq,
    efd := k.efd.map fun c => { EfdomConn.fresh with crc := c.crc, seqErr := c.seqErr, lost := c.lost, timeouts := c.timeouts,
                                                     len := c.len, fmt := c.fmt, addr := c.addr, repeats := c.repeats } }

def keepLink (cold : Bool) (l : Link) : Link :=
  if cold then Link.fresh
  else { Link.fresh with rxLong := l.rxLong, rxDrop := l.rxDrop, rxDecrypt := l.rxDecrypt, txTimeout := l.txTimeout,
                         illegal := l.illegal, fmt := l.fmt, slacFail := l.slacFail, overdraw := l.overdraw }

/-- Counters, WAKE_SEQ, NEK and lease (R246, R252, R420). -/
def keepGlk (cold : Bool) (b : GlkBlock) : GlkBlock :=
  if cold then GlkBlock.fresh
  else { GlkBlock.fresh with
    nek := b.nek, leaseEnd := b.leaseEnd, wakeSeq := b.wakeSeq, rxLong := b.rxLong, rxDrop := b.rxDrop,
    rxDecrypt := b.rxDecrypt, txTimeout := b.txTimeout, lostCnt := b.lostCnt, fmt := b.fmt, wakeCnt := b.wakeCnt,
    wakeRej := b.wakeRej }

def keepEth (cold : Bool) (b : EthBlock) : EthBlock :=
  if cold then EthBlock.fresh
  else { EthBlock.fresh with fcsErr := b.fcsErr, rxLong := b.rxLong, rxDrop := b.rxDrop, txTimeout := b.txTimeout }

/-- The RTC and the alarm stay, and in retention the offsets and the domain in use (R270, R271); `lost`: VBAT was. -/
def keepTim (cold lost : Bool) (i : BootInput) (b : TimBlock) : TimBlock :=
  let k := if cold then TimBlock.fresh else b
  loadRtc i.rtc { TimBlock.fresh with
    rtc := b.rtc, retOfs := k.retOfs, retValid := k.retValid, rtcErr := k.rtcErr, rtcCal := k.rtcCal, rtcLost := lost,
    sel := k.sel, alarmS := if lost then 0 else b.alarmS, alarmEn := !lost && b.alarmEn }

/-- The cache mirror and the commissioning tag stay (R286, R291). -/
def keepTag (cold : Bool) (i : BootInput) (b : TagBlock) : TagBlock :=
  let k := if cold then TagBlock.fresh else b
  { TagBlock.fresh with
    coll := k.coll, rxErr := k.rxErr, timeouts := k.timeouts, falseDet := k.falseDet, foreign := k.foreign, mirror := b.mirror, ct := b.ct,
    ctSecured := b.ctSecured, field := i.field, ctWrites := k.ctWrites, ctTorn := k.ctTorn, ctAuthFail := k.ctAuthFail,
    ctRxErr := k.ctRxErr,
    adoptSeq := if cold then leAt 0 4 (b.ct.getD 3 { data := zeros 32, ok := true }).data else b.adoptSeq }

/-- The panel's states and the journal are in retention (R307, R312). -/
def keepEpd (cold : Bool) (table : Option Bytes) (b : EpdBlock) : EpdBlock :=
  if cold then { EpdBlock.fresh with table := table }
  else { EpdBlock.fresh with
    table := table, segs := b.segs.map (fun g => { Segment.fresh with state := g.state }), journal := b.journal,
    stops := b.stops, recoveries := b.recoveries, tempRef := b.tempRef, superseded := b.superseded }

/-- The key store and the fuses (R325, R332, R337). The blobs of an erased seed are erased (R339). -/
def keepKey (b : KeyBlock) : KeyBlock :=
  { KeyBlock.fresh with
    lcRec := b.lcRec, leftBlank := b.leftBlank, retiredFuse := b.retiredFuse, grant := b.grant, metro := b.metro,
    blobA := if b.seed.isSome then b.blobA else KeyBlock.fresh.blobA,
    blobB := if b.seed.isSome then b.blobB else KeyBlock.fresh.blobB,
    seed := b.seed, counter := b.counter, tampCnt := b.tampCnt, orig := b.orig, vbatLatch := b.vbatLatch,
    tamperSince := b.tamperSince, certBad := b.certBad }

/-- Banks, floors, the activation record, settings and the trial; LAST_RC over the reset of an activation (R359, R362). -/
def keepUpd (activate : Bool) (b : UpdBlock) : UpdBlock :=
  { UpdBlock.fresh with
    kinds := b.kinds, trial := b.trial, act := b.act, lastRc := if activate then b.lastRc else 0, settings := b.settings }

/-- Dormouse: retention and counters but for a cold reset; supplies as they are. -/
def keepSys (cold : Bool) (b : SysBlock) : SysBlock :=
  let k := if cold then SysBlock.fresh else b
  { SysBlock.fresh with
    sleep := k.sleep, wakeSrc := k.wakeSrc, latchedWake := k.latchedWake, holdLast := k.holdLast, domOwl := k.domOwl,
    domMet := k.domMet, domBadger := k.domBadger, domApp := k.domApp, retLog := k.retLog, retLost := k.retLost,
    reset := none, held := false, seqErr := none, rails := b.rails }

/-- The log archive and its numbers stay (R371). -/
def keepMgt (cold : Bool) (b : MgtBlock) : MgtBlock :=
  let k := if cold then MgtBlock.fresh else b
  { MgtBlock.fresh with
    seq := b.seq, ack := k.ack, legal := b.legal, general := b.general, snapArchive := b.snapArchive,
    legalLost := k.legalLost, dropped := k.dropped, crcErr := k.crcErr, sramErr := k.sramErr, entered := k.entered,
    refused := k.refused, abandoned := k.abandoned, qLost := k.qLost }

def keepHsi (cold : Bool) (b : HsiBlock) : HsiBlock :=
  if cold then HsiBlock.fresh
  else { HsiBlock.fresh with crcErr := b.crcErr, lenErr := b.lenErr, abort := b.abort, waitErr := b.waitErr }

def keepCan (cold : Bool) (x : Can) : Can :=
  if cold then Can.fresh
  else { Can.fresh with rxLong := x.rxLong, rxDrop := x.rxDrop, busOffs := x.busOffs, txTimeout := x.txTimeout }

/-- The waveform table of the active bank of kind 9, where it is accepted (R304). -/
def bankTable (s : State) : Option Bytes :=
  let x := activeBank s 9
  if running x && (tblFail x.payload).isNone then some x.payload else none

/-- The wipe of R420: every volatile memory, and each register by its reset column. -/
def wipe (cold : Bool) (causes : Nat) (i : BootInput) (s : State) : State :=
  { s with
    str := { StrBlock.fresh with copies := s.str.copies, sealCnt := (s.met.sealedRec.get.map (·.count)).getD 0 }, lane := keepLanes s.ident.small cold s.lane, met := keepMet s.met,
    bil := keepBil s.bil, pwr := keepPwr cold i s.pwr, flt := FltBlock.fresh, owl := keepOwl cold s.owl,
    vlk := s.vlk.map (keepLink cold), glk := keepGlk cold s.glk, eth := keepEth cold s.eth,
    tim := keepTim cold (bitAt causes causeVbatPor) i s.tim, tag := keepTag cold i s.tag,
    epd := keepEpd cold (bankTable s) s.epd, key := keepKey s.key, upd := keepUpd (bitAt causes causeActivate) s.upd,
    sys := keepSys cold s.sys, mgt := keepMgt cold s.mgt, hsi := keepHsi cold s.hsi, can := s.can.map (keepCan cold),
    sram := [] }

/-! ## Life-cycle record (R325) -/

/-- Blows the fuses of step 2 of R338 that the record's state calls for. -/
def blowFuses (st : Lc) (k : KeyBlock) : KeyBlock :=
  { k with lc := st, leftBlank := k.leftBlank || st != .blank, retiredFuse := k.retiredFuse || st == .retired }

/-- The state taken, by the first row of R325 that holds. A wipe cut short is completed (R338); entering MAINTENANCE has
none (log 10). -/
def decideLc (s : State) : State :=
  let r := s.key.lcRec.get
  if s.key.retiredFuse then onKey (fun k => { k with lc := .retired }) s
  else if s.key.lcRec.lost || (r.state == .blank && s.key.leftBlank) then
    logLc r.state .recovery 0 1 (onKey (fun k => { k with lc := .recovery }) s)
  else if r.wipePending then
    let s := onKey (blowFuses r.state) s
    let s := if r.state = .maintenance then s else wipeClass (r.state == .retired) s
    logLc r.state r.state 0 2 (writeLc r.state r.owner r.recovery false s)
  else onKey (fun k => { k with lc := r.state, returnDue := r.state == .maintenance && k.grant.any (·.seconds == 0) }) s

/-! ## Trial and activation record (R356, R359) -/

/-- A start during a trial: with retention lost the trial fails; after a hold-up the start does not count (R356, log 14). -/
def trialStart (cold afterHoldup : Bool) (s : State) : State :=
  if s.upd.trial.isNone then s
  else if cold then failTrial 4 s
  else if afterHoldup then s
  else countStart s

/-- The new bank of a part comes into use at the boot; of WARREN, the copy in TRIAL. -/
def adoptPart (k : Nat) (s : State) : State :=
  if k = 4 then
    let isB := (copyOf s 1).sel == .trial
    let d := kindOf s 4
    let old := if isB then d.a else d.b
    let s := if running old then markBank 4 (!isB) .previous s else s
    onKind 4 (fun d => { d with activeB := isB }) (markBank 4 isB .trial s)
  else takeBank k s

/-- A failed manifest trial: every part goes back together, a sealed change is itself reversed by a sealed change, and the
failed Warren copy's selector is EMPTY (R359). -/
def rollbackManifest (a : ActRec) (s : State) : State :=
  let failed := if (kindOf s 4).activeB then 1 else 0
  let s := (a.parts ++ [10]).foldl (fun s k => rollbackPart a.criterion k s) s
  if a.parts.contains 4 then
    let s := if a.sealDigest.isSome then recordSeal 0x1F (imageSealDigest (copyOf s (1 - failed)).bytes) s else s
    onStr (fun b => { b with copies := upd b.copies failed fun x => { x with sel := .empty } }) s
  else s

/-- The boot ROM resolves the activation record; answers whether it was adopted. A reverted one leaves LAST_RC free among the codes of R17 (log 14). -/
def resolveRecord (s : State) : State × Bool :=
  let a := s.upd.act
  let clear : ActRec := { a with pending := false, committed := false, rollback := false }
  if a.rollback then (onUpd (fun b => { b with act := clear }) (rollbackManifest a s), false)
  else if a.pending = false then (s, false)
  else if a.committed || a.sealDigest.any (fun d => sealedDigest s == some d) then
    let s := (a.parts ++ [10]).foldl (fun s k => adoptPart k s) s
    (onUpd (fun b => { b with
      act := { a with pending := false, committed := true },
      trial := some { kind := 10, parts := a.parts, seconds := 600, starts := 0, confirmed := false,
                      sealChange := a.sealDigest.isSome } }) s, true)
  else
    let rc := freeNat s % 12
    (bump (onUpd (fun b => { b with act := clear, lastRc := rc }) s), false)

/-! ## Warren copies (R20–R23, R38) -/

/-- A TRIAL copy is committed when its sealed change reached the store, or the adopted record names its header digest; else its
selector is erased (R22). -/
def settleTrials (adopted : Bool) (s : State) : State :=
  [0, 1].foldl (fun s c =>
    if (copyOf s c).sel = .trial then
      let d := imageSealDigest (copyOf s c).bytes
      let o := copyOf s (1 - c)
      let ok := (adopted && s.upd.act.warren == some (Config.sha384 ((copyOf s c).bytes.take 160))) || (sealedDigest s == some d && !(o.sel == .committed && imageSealDigest o.bytes == d))
      onStr (fun b => { b with copies := upd b.copies c fun x => { x with sel := if ok then .committed else .empty } }) s
    else s) s

/-- The COMMITTED copies, the preferred one first (R21). -/
def bootOrder (s : State) : List Nat :=
  let order := if (copyOf s 0).selSeq < (copyOf s 1).selSeq then [1, 0] else [0, 1]
  order.filter fun c => (copyOf s c).sel == .committed

/-- Validates copies in order until one passes; each failure is recorded and logged. Answers the copy that passed. -/
def examine : List Nat → State → State × Option Nat
  | [], s => (s, none)
  | c :: rest, s =>
    let img := (copyOf s c).bytes
    let r := validate s .boot (installedMet s) img
    let s := onStr (fun b => if c = 0 then { b with aReason := r } else { b with bReason := r }) s
    if r = 0 then (s, some c) else examine rest (logReject 0x1F (c + 1) r img s)

/-- EV_LIMP_IGNORED for each LIMP_MAP bit that names a cable-lock channel (R164). -/
def limpIgnored (s : State) : State :=
  s.str.cur.limpMaps.foldl (fun s l => (List.range 12).foldl (fun s ch =>
    if bitAt l.mask ch && (lockOutlet s ch).isSome then logEv .service 0x1F 0xFF 0x0807 [(1, l.input), (1, ch)] s else s) s) s

/-- Steps 6 and 7 of R422: the copy chosen, the structure locked, the substitutions reapplied; or NOSTRUCT (R38). -/
def bootStructure (adopted : Bool) (s : State) : State :=
  let s := settleTrials adopted s
  let first := (bootOrder s).head?
  match examine (bootOrder s) s with
  | (s, some c) =>
    let s := installStruct c (imageStruct (copyOf s c).bytes) s
    limpIgnored (judgeSwaps true (onStr (fun b => { b with fallback := first != some c }) s))
  | (s, none) => logEv .service 0x1F 0xFF 0x0102 [] (onStr (fun b => { b with noStruct := true }) s)

/-! ## The boot's record (R421, R427, R428) -/

/-- SYS_DOMRST as it reads (R427). -/
def domRst (s : State) : Nat := s.sys.domOwl * 2 ^ 24 + s.sys.domMet * 2 ^ 16 + s.sys.domBadger * 2 ^ 8 + s.sys.domApp

/-- Events of the boot: EV_HOLDUP_SHORT, EV_RESET_UNSAVED, EV_SEQ_ERR, EV_RESET, and the RTC's loss (R270). -/
def bootEvents (old : SysBlock) (unsaved : Option Nat) (lost : Bool) (s : State) : State :=
  let seq := match newestSave s with
    | some r => r.seq
    | none => 0
  let s := if old.afterHoldup && s.sys.holdLast.short then
      legalEv 0x00 0xFF 0x0005 [(1, s.sys.holdLast.done), (2, s.sys.holdLast.vwarn), (4, seq)] s else s
  let s := match unsaved with
    | some sec => legalEv 0x00 0xFF 0x0002 [(4, seq), (4, sec)] s
    | none => s
  let s := if lost then logEv .legal 0x0F 0xFF 0x0F03 [(4, 0)] s else s
  let s := match old.seqErr with
    | some (a, b) => logEv .power 0x1F 0xFF 0x0003 [(1, a), (1, b)] s
    | none => s
  logEv .power 0x1E 0xFF 0x0001 [(4, s.sys.rstCause), (4, domRst s)] s

/-- Seconds of metering lost to a reset that took no save, where the metrology core ran (R421). -/
def unsavedSeconds (h : ResetHold) (s : State) : Option Nat :=
  let mask := 2 ^ causeRstn + 2 ^ causeRstnLong + 2 ^ causeBrownout + 2 ^ causeClockFail
  if Nat.land h.causes mask = 0 ∨ s.sys.mode = .dormant ∨ s.sys.afterHoldup then none
  else (newestSave s).map fun r => s.tim.rtc / 10 ^ 9 - r.time / 2 ^ 30

/-! ## The metrology store as the boot finds it (R111, R128) -/

/-- A fault lies in the `n` bytes at `base`. -/
def struck (d : List Nat) (base n : Nat) : Bool := d.any fun x => decide (base ≤ x ∧ x < base + n)

/-- The check words of a two-copy area, `n` bytes a copy. -/
def damageTwin {α : Type} (d : List Nat) (base n : Nat) (t : Twin α) : Twin α :=
  { a := { t.a with ok := t.a.ok && !struck d base n }, b := { t.b with ok := t.b.ok && !struck d (base + n) n } }

/-- A save slot and its ledger slot stand or fall together (R113, R143). -/
def damageSave (d : List Nat) (k : Nat) (r : SaveRec) : SaveRec :=
  { r with ok := r.ok && !struck d (0x0800 + 4096 * k) 4096 && !struck d (0x2900 + 960 * k) 960 }

/-- The areas of the metrology core with a fault in them fail their check words; a snapshot that does is no snapshot (log 36). -/
def damageMet (d : List Nat) (b : MetBlock) : MetBlock :=
  { b with
    legal := damageTwin d 0 256 b.legal, sealedRec := damageTwin d 0x0200 64 b.sealedRec,
    subst := b.subst.mapIdx fun k r => { r with ok := r.ok && !struck d (0x0280 + 64 * k) 64 },
    slots := b.slots.mapIdx fun k x => x.map (damageSave d k),
    sessionRing := (b.sessionRing.zipIdx.filter fun x => !struck d (0xE000 + 256 * x.2) 256).map (·.1),
    staging := b.staging.mapIdx fun k e => { e with ok := e.ok && !struck d (0xF800 + 32 * k) 32 } }

/-- The same of the billing area and the boundary journal. -/
def damageBil (d : List Nat) (b : BilBlock) : BilBlock :=
  { b with
    ctl := damageTwin d 0x2800 128 b.ctl,
    journal := b.journal.mapIdx fun k e => { e with ok := e.ok && !struck d (0x0400 + 32 * k) 32 },
    tokens := b.tokens.mapIdx fun k e => { e with ok := e.ok && !struck d (0x3080 + 32 * k) 32 },
    cals := b.cals.mapIdx fun k x => x.map fun c => { c with ok := c.ok && !struck d (0x3880 + 2880 * k) 2868 },
    ring := b.ring.mapIdx fun k x => if struck d (0x5900 + 1440 * k) 1440 then { state := .empty, bytes := [] } else x }

/-- What the checks of the boot find of the store. -/
def damageStore (d : List Nat) (s : State) : State := onMet (damageMet d) (onBil (damageBil d) s)

/-- Owl loads its safety configuration (R196 bit 11, R200): the copies that fail are repaired; with both lost, Owl, where it
started, fails its start-up diagnostics. -/
def owlLoad (damage : Nat) (s : State) : State :=
  let badA := bitAt damage 0 || !s.owl.cfg.a.ok
  let badB := bitAt damage 1 || !s.owl.cfg.b.ok
  if s.owl.state = .start then cfgDiag badA badB 3 s else cfgCheck badA badB s

/-! ## BOOT (R422) -/

/-- Steps 3–8: wipe, life cycle, keys, activation record, structure, metrology core and Owl. -/
def bootCores (h : ResetHold) (i : BootInput) (s : State) : State :=
  let was := s.owl.state
  let follows := s.sys.afterHoldup
  let s := wipe h.cold h.causes i (damageStore i.damage (closeTransfer s))
  let s := if was = .halt then logOwlState .halt .start 8 s else s
  let s := decideLc s
  let s := if i.rngFail then logRng (onKey (fun k => { k with rngFail := true }) s) else s
  let s := actLatched (deriveSlots s)
  let (s, adopted) := resolveRecord (trialStart h.cold follows s)
  let seals := adopted && s.upd.act.sealDigest.isSome
  let s := bootStructure (adopted && s.upd.act.parts.contains 4) s
  let s := onOwl (fun b => { b with
    state := if i.owlOk then .start else .off,
    guardOpen := Nat.land i.guards (s.str.cur.guards.foldl (fun m g => Nat.lor m (2 ^ g.input)) 0) }) s
  let s := owlLoad i.cfgDamage s
  let s := rebuildReplay (if i.metOk && !s.str.noStruct then metStart s else s)
  if seals && s.met.run then capture 6 (outletMask s) 0 (nowTs s) [] none s else s

/-- Rows 11 and 12 of R374. -/
def bootMode (s : State) : State := evalMode (if s.str.noStruct then setMode 11 .maintenance s else setMode 12 .ready s)

/-- Steps 9–14: the HSI, the slots, Badger with its log, the modems, the mode. -/
def bootServices (old : SysBlock) (h : ResetHold) (unsaved : Option Nat) (i : BootInput) (s : State) : State :=
  let cause := Nat.lor h.causes (flagAt old.afterHoldup causeHoldup + flagAt unsaved.isSome 14 + flagAt old.seqErr.isSome 15
    + (if h.cold then 1 else 2))
  let s := onSys (fun b => { b with rstCause := cause }) s
  let s := onHsi (fun b => { b with
    hReady := true, cReady := true, h := { b.h with irqReset := true, irqWake := bitAt h.causes causeWake } }) s
  let s := bootEvents old unsaved (bitAt h.causes causeVbatPor) s
  let s := loadSlots s
  let s := drainRetention (onSys (fun b => { b with booted := true }) s)
  let s := slotsChanged (flushProfile (bootMode s))
  let bad := s.upd.trial.any fun t =>
    ((t.parts.contains 7 || t.parts.contains 8) && !i.modemsOk) || (t.parts.contains 2 && !i.metOk) || (t.parts.contains 3 && !i.owlOk)
  returnIfDue (if bad then failTrial 1 s else s)

/-- BOOT (R422): of a device in reset, released by R416. -/
def execBoot (b : BootInput) (s : State) : Host.Outcome State Fault Refusal :=
  .next (match s.sys.reset with
    | none => s
    | some h =>
      if s.sys.held ∨ h.pin ∨ s.sys.holdup then s
      else bootServices s.sys h (unsavedSeconds h s) b (bootCores h b s))

end Sys2Proof.Machine
end

