-- ==== Sys2Proof/Machine/Host.lean ====
section
/-! DEFINITION. The host interface (R387–R404): faulty transactions, the command rings with their dispatcher and
result slots, and the buffer writes into exchange memory. -/

namespace Sys2Proof.Machine

/-- Bytes of one ring's half of exchange memory (R393). -/
def halfSize : Nat := 0x20000

/-- The side's ring is served (R392, R404 H_READY and C_READY). -/
def sideReady (s : State) : Side → Bool
  | .host => s.hsi.hReady
  | .cluster => s.hsi.cReady

/-! ## The command table (R397) -/

/-- Who runs a command (R397). -/
inductive Executor where
  | badger | metrology | pwr | owl | supervisor | tim | tag | epd | keys | dispatcher
  deriving DecidableEq, Repr

/-- A row of R397: executor, fewest and most parameter bytes, largest result. -/
structure CmdRow where
  code : Nat
  who : Executor
  lo : Nat
  hi : Nat
  largest : Nat
  deriving DecidableEq, Repr

/-- Codes of the blocks WARREN to VLK. -/
def cmdTableLow : List CmdRow :=
  [⟨0x0101, .badger, 0, 0, 0⟩, ⟨0x0201, .badger, 1, 1, 0⟩, ⟨0x0601, .metrology, 2868, 2868, 0⟩,
   ⟨0x0602, .metrology, 20, 20, 0⟩, ⟨0x0603, .metrology, 1, 1, 1428⟩, ⟨0x0604, .metrology, 0, 0, 0⟩,
   ⟨0x0801, .pwr, 2, 2, 0⟩, ⟨0x0901, .owl, 1, 1, 0⟩, ⟨0x0A01, .owl, 8, 64, 0⟩, ⟨0x0A02, .owl, 10, 130, 0⟩,
   ⟨0x0A03, .owl, 0, 0, 0⟩, ⟨0x0A04, .owl, 1, 1, 0⟩, ⟨0x0A05, .owl, 24, 24, 0⟩, ⟨0x0A06, .owl, 1, 1, 64⟩,
   ⟨0x0C01, .supervisor, 1, 1, 0⟩, ⟨0x0C02, .supervisor, 2, 2, 0⟩, ⟨0x0C03, .supervisor, 1, 1, 0⟩]

/-- Codes of the blocks TIM to HSI; the two results that depend on the parameters are taken by `largestResult`. -/
def cmdTableHigh : List CmdRow :=
  [⟨0x0F01, .tim, 9, 9, 0⟩, ⟨0x0F02, .tim, 9, 9, 0⟩, ⟨0x0F03, .tim, 1, 1, 0⟩, ⟨0x1001, .tag, 1, 256, 256⟩,
   ⟨0x1002, .tag, 0, 0, 0⟩, ⟨0x1003, .tag, 0, 896, 4⟩, ⟨0x1004, .tag, 8, 8, 0⟩, ⟨0x1005, .tag, 8, 8, 16⟩,
   ⟨0x1006, .tag, 0, 0, 0⟩, ⟨0x1007, .tag, 0, 0, 0⟩, ⟨0x1008, .tag, 0, 0, 0⟩, ⟨0x1009, .tag, 0, 128, 0⟩,
   ⟨0x100A, .tag, 0, 0, 0⟩, ⟨0x1101, .epd, 8, 44, 4⟩, ⟨0x1201, .keys, 288, 928, 97⟩, ⟨0x1202, .keys, 32, 32, 440⟩,
   ⟨0x1203, .keys, 0, 0, 1024⟩, ⟨0x1204, .keys, 0, 0, 32⟩, ⟨0x1205, .keys, 64, 64, 0⟩, ⟨0x1206, .keys, 4, 4, 0⟩,
   ⟨0x1301, .badger, 512, 512, 0⟩, ⟨0x1302, .badger, 4, 4100, 0⟩, ⟨0x1303, .badger, 0, 0, 0⟩, ⟨0x1304, .badger, 0, 0, 0⟩,
   ⟨0x1305, .badger, 1, 1, 0⟩, ⟨0x1306, .badger, 0, 0, 0⟩, ⟨0x1401, .badger, 5, 5, 8⟩, ⟨0x1402, .badger, 4, 4, 0⟩,
   ⟨0x1403, .badger, 0, 0, 0⟩, ⟨0x1404, .badger, 1, 1, 0⟩, ⟨0x1405, .badger, 1, 1, 0⟩, ⟨0x1501, .dispatcher, 0, 8192, 0⟩]

/-- The row of a CODE. -/
def cmdRow (code : Nat) : Option CmdRow := (cmdTableLow ++ cmdTableHigh).find? (·.code == code)

/-- The largest result of a command (R397): MGT_LOG_READ 8 + 32 × count, HSI_NOP its parameters' length. -/
def largestResult (row : CmdRow) (params : Bytes) : Nat :=
  if row.code = 0x1401 then 8 + 32 * byteAt 4 params
  else if row.code = 0x1501 then params.length
  else row.largest

/-- The block a CODE belongs to is absent (R45, R398): no vehicle link, no reader, no display. -/
def blockAbsent (s : State) (code : Nat) : Bool :=
  if code / 256 = 0x0C then (s.str.cur.blocks % 16 == 0)
  else if inRange 0x1001 0x1006 code then !readerThere s
  else if code / 256 = 0x11 then !epdThere s
  else false

/-! ## Ring errors (R395) -/

/-- A ring error: HSI_x_RERR, its cause bit, and EV_HSI_RING at most once per 60 s. -/
def ringError (side : Side) (cause tag code : Nat) (s : State) : State :=
  let quiet := within s s.hsi.h.errTick 60000 || within s s.hsi.c.errTick 60000
  let s := onRing side (fun g => { g with
    errCount := satInc 6 g.errCount, errCause := cause, errTag := tag % 128, errCode := code, irqRerr := true }) s
  if quiet then s
  else logEv .comm 0x15 0xFF 0x1502 [(1, sideIx side), (1, cause), (1, tag % 128), (2, code)]
    (onRing side (fun g => { g with errTick := some s.ticks }) s)

/-! ## Descriptors and dispatch (R394, R396, R398, R400) -/

/-- A descriptor's fields (R394). -/
structure Desc where
  code : Nat
  tag : Nat
  flags : Nat
  ilen : Nat
  rsvd : Nat
  poff : Nat
  plen : Nat
  roff : Nat
  rcap : Nat
  arg : Bytes
  deriving DecidableEq, Repr

def readDesc (b : Bytes) : Desc :=
  { code := leAt 0 2 b, tag := byteAt 2 b, flags := byteAt 3 b, ilen := byteAt 4 b, rsvd := leAt 5 3 b, poff := leAt 8 4 b,
    plen := leAt 12 4 b, roff := leAt 16 4 b, rcap := leAt 20 4 b, arg := slice 24 8 b }

/-- Count of parameter bytes: ILEN of ARG, or PLEN at POFF (R394). -/
def Desc.count (d : Desc) : Nat := if d.plen = 0 then d.ilen else d.plen

/-- A claimed range other than that of `tag` overlaps [off, off + n). -/
def overlapsClaim (g : Ring) (tag off n : Nat) : Bool :=
  g.slots.zipIdx.any fun p =>
    p.2 != tag && p.1.claimed && decide (p.1.roff < off + n) && decide (off < p.1.roff + p.1.rcap)

/-- The dispatcher's checks before any byte moves (R398), the field ranges of R394 among them (DEDUCED, log 6). -/
def descStatus (s : State) (g : Ring) (d : Desc) : Nat :=
  if blockAbsent s d.code then stsAbsent
  else match cmdRow d.code with
    | none => stsLengthRange
    | some row =>
      let head := if d.plen = 0 then d.arg.take d.ilen else memReadN g.mem d.poff (min d.plen 8)
      let large := if d.code = 0x1501 then d.count else largestResult row head
      if 8 < d.ilen || (d.ilen != 0 && d.plen != 0) || d.rsvd != 0 || d.flags / 2 != 0
        || d.poff % 4 != 0 || d.roff % 4 != 0 || d.rcap % 4 != 0 || 8192 < d.plen || 8192 < d.rcap
        || halfSize < d.poff + d.plen || halfSize < d.roff + d.rcap || overlapsClaim g d.tag d.roff d.rcap
        || !inRange row.lo row.hi d.count || d.rcap < large then stsLengthRange
      else stsOk

/-- Acceptance (R400): the earlier result goes, GEN counts, the slot runs; an accepted command claims its zeroed range. -/
def acceptSlot (d : Desc) (ok : Bool) (params : Bytes) (g : Ring) : Ring :=
  let slot : Slot := { sts := stsPending, ready := false, running := true, readCount := 0, code := d.code,
                       gen := ((g.slots.getD d.tag Slot.fresh).gen + 1) % 65536, rlen := 0, detail := 0, ts := 0,
                       roff := d.roff, rcap := d.rcap, irq := bitAt d.flags 0, claimed := ok }
  { g with slots := put g.slots d.tag slot,
           mem := if ok then memZero g.mem d.roff d.rcap else g.mem,
           flight := if ok then g.flight ++ [{ tag := d.tag, code := d.code, params := params }] else g.flight }

/-- Consumes the descriptor at CHEAD (R395, R398): CHEAD moves on; a RUNNING tag is ring error 2; a command that fails at
dispatch is READY with its status. A tag above 127 names no slot, and the descriptor is discarded (DESIGN CHOICE, log 6). -/
def consumeDesc (side : Side) (s : State) : State :=
  let g := ringOf s side
  let d := readDesc (g.desc.getD (g.head % 128) [])
  let s := onRing side (fun g => { g with head := (g.head + 1) % 256 }) s
  if 127 < d.tag then s
  else if (g.slots.getD d.tag Slot.fresh).running then ringError side 2 d.tag d.code s
  else
    let sts := descStatus s g d
    if sts = stsOk then
      let params := if d.plen = 0 then d.arg.take d.ilen else memReadN g.mem d.poff d.plen
      wakeBy 0 true (onRing side (acceptSlot d true params) s)
    else onRing side (completeSlot d.tag sts 0 (nowTs s) []) (onRing side (acceptSlot d false []) s)

/-- Consumes `n` descriptors in index order. -/
def consumeDescs : Nat → Side → State → State
  | 0, _, s => s
  | n + 1, side, s => consumeDescs n side (consumeDesc side s)

/-- A ring that was full sets SPACE once 32 positions are free (R404). -/
def noteSpace (g : Ring) : Ring :=
  if g.wasFull && decide (32 ≤ 128 - (g.tail + 256 - g.head) % 256) then { g with wasFull := false, irqSpace := true } else g

/-- A write of HSI_x_CTAIL (R395): beyond 128 descriptors it is ignored, as ring error 1. -/
def ctailWrite (side : Side) (w : Nat) (s : State) : State :=
  let g := ringOf s side
  let n := (w % 256 + 256 - g.head) % 256
  if sideReady s side = false then s
  else if 128 < n then ringError side 1 0 0 s
  else
    let s := onRing side (fun g => { g with tail := w % 256, wasFull := g.wasFull || n == 128 }) s
    onRing side noteSpace (consumeDescs n side s)

/-- CTAIL_WRITE (R395, R398). -/
def execCtailWrite (side : Side) (w : Word) (s : State) : Host.Outcome State Fault Refusal := .next (ctailWrite side w.toNat s)

/-- A write of HSI_x_RELEASE (R400): the slot reads zero except GEN and TAG; a RUNNING slot is ring error 3. -/
def releaseWrite (side : Side) (w : Nat) (s : State) : State :=
  let tag := w % 128
  let sl := (ringOf s side).slots.getD tag Slot.fresh
  if sideReady s side = false then s
  else if sl.running then ringError side 3 tag sl.code s
  else onRing side (fun g => { g with slots := put g.slots tag { Slot.fresh with gen := sl.gen } }) s

/-- HSI_RELEASE_WRITE (R400). -/
def execHsiReleaseWrite (side : Side) (w : Word) (s : State) : Host.Outcome State Fault Refusal :=
  .next (releaseWrite side w.toNat s)

/-- The 32-byte header of a slot (R399). -/
def slotHeader (tag : Nat) (sl : Slot) : Bytes :=
  leBytes 1 sl.sts ++ leBytes 1 (flagAt sl.ready 0 + flagAt sl.running 1 + sl.readCount * 16) ++ leBytes 2 sl.code
    ++ leBytes 2 sl.gen ++ leBytes 1 tag ++ leBytes 1 0 ++ leBytes 4 sl.rlen ++ leBytes 4 sl.detail ++ leBytes 8 sl.ts
    ++ leBytes 4 sl.roff ++ leBytes 4 sl.rcap

/-- RESULT_SLOT_READ (R390, R400): the header; a READY one counts the read, up to 15. -/
def execResultSlotRead (side : Side) (tag : Nat) (s : State) : Host.Outcome State Fault Refusal :=
  let sl := (ringOf s side).slots.getD tag Slot.fresh
  .next (if 127 < tag ∨ sideReady s side = false then s
    else returns (leNat (slotHeader tag sl))
      (if sl.ready then onRing side (fun g => { g with slots := put g.slots tag { sl with readCount := satInc 4 sl.readCount } }) s
       else s))

/-! ## Exchange memory (R389, R393, R400) -/

/-- Words of a buffer write in address order; those in a claimed range are ignored. -/
def bufferWords (g : Ring) (off : Nat) : Nat → Bytes → Ring
  | 0, _ => g
  | n + 1, bs =>
    let g := if overlapsClaim g 128 off 4 then g else { g with mem := memWriteN g.mem off (bs.take 4) }
    bufferWords g (off + 4) n (bs.drop 4)

/-- BUFFER_WRITE (R389): a checked write into the side's half; one outside the limits of R387 or R391 row 3 stores nothing. -/
def execBufferWrite (side : Side) (off : Nat) (data : Bytes) (s : State) : Host.Outcome State Fault Refusal :=
  .next (if sideReady s side = false ∨ off % 4 ≠ 0 ∨ data.length % 4 ≠ 0 ∨ data.length = 0 ∨ 4096 < data.length
      ∨ halfSize < off + data.length then s
    else onRing side (fun g => bufferWords g off (data.length / 4) data) s)

/-! ## Faulty transactions (R390, R391) -/

/-- HSI_LINKCNT (R404). -/
def linkCnt (b : HsiBlock) : Nat := b.crcErr * 2 ^ 24 + b.lenErr * 2 ^ 16 + b.abort * 2 ^ 8 + b.waitErr

/-- A faulty transaction (R391): nothing is written; its counter, LINKERR, and EV_HSI_LINK at most once per 60 s. -/
def linkFault (row : Nat) (s : State) : State :=
  let s := onHsi (fun b =>
    if row = 4 then { b with crcErr := satInc 8 b.crcErr }
    else if row = 2 ∨ row = 3 then { b with lenErr := satInc 8 b.lenErr }
    else { b with abort := satInc 8 b.abort }) s
  let s := onRing .host (fun g => { g with irqLink := true }) s
  if within s s.hsi.linkTick 60000 then s
  else logEv .comm 0x15 0xFF 0x1501 [(4, linkCnt s.hsi), (1, row)] (onHsi (fun b => { b with linkTick := some s.ticks }) s)

/-- A write, by its opcode (R388). -/
def hsiWrites (f : HsiFrame) : Bool := [0x02, 0x38, 0x3A].contains f.opcode
/-- The CRC-16 over OPCODE, ADDRESS, LENGTH and DATA in the order sent, each MSB first (R387). -/
def hsiCrc (f : HsiFrame) : Nat := crc16 (beBytes 1 f.opcode ++ beBytes 3 f.addr ++ beBytes 2 f.len ++ f.data)

/-- The first row of R391 that holds, 1–5; 0 for none. The CRC is judged when all of it came. -/
def hsiRow (f : HsiFrame) : Nat :=
  let space := if f.opcode = 0x3A ∨ f.opcode = 0xEC then 0x20000 else 0x1000000
  if f.fast then 1
  else if [0x02, 0x0B, 0x38, 0xEB, 0x3A, 0xEC].contains f.opcode = false then 2
  else if f.len = 0 ∨ 4096 < f.len ∨ f.len % 4 ≠ 0 ∨ f.addr % 4 ≠ 0 ∨ space < f.addr + f.len then 3
  else if hsiWrites f ∧ f.stop ≠ .short ∧ hsiCrc f ≠ f.crc then 4
  else if f.stop ≠ .exact then 5
  else 0

/-- HSI_TRANSACTION_ERROR (R390, R391): by the first row that holds; a read without fault whose data came too late counts
WAITERR. -/
def execHsiTransactionError (f : HsiFrame) (s : State) : Host.Outcome State Fault Refusal :=
  .next (if s.hsi.hReady = false then s
    else if hsiRow f ≠ 0 then linkFault (hsiRow f) s
    else if f.late ∧ hsiWrites f = false then onHsi (fun b => { b with waitErr := satInc 8 b.waitErr }) s
    else s)

/-- HSI_FRAME_TIMEOUT (R391 row 6). -/
def execHsiFrameTimeout (s : State) : Host.Outcome State Fault Refusal :=
  .next (if s.hsi.hReady then linkFault 6 s else s)

/-! ## Commands of the dispatcher -/

/-- BADGER_COMMAND_TIMEOUT (R396): a waiting command whose executor is Badger completes with STS_TIMEOUT. -/
def execBadgerCommandTimeout (r : Req) (s : State) : Host.Outcome State Fault Refusal :=
  let waits := (ringOf s r.side).flight.any fun f =>
    f.tag == r.tag && (cmdRow f.code).any fun row => row.who == .badger
  .next (if waits then postSts r stsTimeout s else s)

/-- HSI_NOP (R397): returns its parameters unchanged. -/
def execHsiNop (r : Req) (params : Bytes) (s : State) : Host.Outcome State Fault Refusal :=
  .next (guarded r [(decide (8192 < params.length), stsLengthRange)] (post r stsOk 0 params) s)

end Sys2Proof.Machine
end

