-- ==== Sys2Proof/Machine/Power.lean ====
section
/-! DEFINITION. The power path and protection (R154–R181): load switches, fault comparators, residual current, isolation,
weld checks and cable locks. -/

namespace Sys2Proof.Machine

/-! ## Channel state machine (R157–R161) -/

/-- A channel with its group's under-voltage: row 2 of R157 outranks whatever follows but a latch. -/
def underGroup (s : State) (ch : Nat) : Bool := flag s.pwr.grpUv (chGroup ch)

/-- LS_DEMAND_CHANGE (R156, R157 rows 4, 6, 7). -/
def execLsDemandChange (ch : Nat) (s : State) : Host.Outcome State Fault Refusal := .next (settleCh ch s)

/-- LS_OVERLOAD (R157 row 3, R158): the current as the limit of 3 × I_R leaves it. -/
def execLsOverload (ch : Nat) (cur : Int) (s : State) : Host.Outcome State Fault Refusal :=
  .next (if (chOf s ch).state.conducts then
    let n := (chOf s ch).retries + 1
    let spent := decide (chRetries s ch < n)
    let cur := limited ch cur
    let s := onCh ch (fun c => { c with cur := cur, overloads := satInc 16 c.overloads, retries := min 15 n,
                                        exceeded := c.exceeded || spent }) s
    let s := logEv .power 0x08 ch 0x0801 [(1, ch), (4, unsignedOf 32 cur), (1, min 15 n)] s
    if spent then setCh ch .fault (logEv .power 0x08 ch 0x0802 [(1, ch), (1, min 15 n)] s) else setCh ch .retryWait s
    else s)

/-- LS_INRUSH_END (R157 row 5). -/
def execLsInrushEnd (ch : Nat) (cur : Int) (s : State) : Host.Outcome State Fault Refusal :=
  .next (if (chOf s ch).state = .inrush ∧ 10 * cur ≤ 13 * chRated ch then
    (if demand s ch then setCh ch .on (onCh ch (fun c => { c with cur := limited ch cur }) s) else setCh ch .off s)
    else s)

/-- LS_RETRY_TIMER (R157 rows 7, 8). -/
def execLsRetryTimer (ch : Nat) (s : State) : Host.Outcome State Fault Refusal :=
  .next (if (chOf s ch).state = .retryWait then setCh ch (if demand s ch then .inrush else .off) s else s)

/-- LS_RETRY_RESET (R157): 10 s of uninterrupted ON. -/
def execLsRetryReset (ch : Nat) (s : State) : Host.Outcome State Fault Refusal :=
  .next (if (chOf s ch).state = .on then onCh ch (fun c => { c with retries := 0, exceeded := false }) s else s)

/-- EV_LS_THERMAL: set 1 or cleared 0, the temperature, the cause of clearing (0 none, 1 automatic, 2 PWR_CLEAR). -/
def logThermal (ch onset : Nat) (temp : Int) (cause : Nat) : State → State :=
  logEv .power 0x08 ch 0x0803 [(1, ch), (1, onset), (2, unsignedOf 16 temp), (1, cause)]

/-- LS_THERMAL_LATCH (R157 row 1, R160 row 1): from 170 °C. -/
def execLsThermalLatch (ch : Nat) (temp : Int) (s : State) : Host.Outcome State Fault Refusal :=
  .next (if chDeclared s ch ∧ (chOf s ch).state ≠ .latched ∧ 1700 ≤ temp then
    setCh ch .latched (logThermal ch 1 temp 0
      (onCh ch (fun c => { c with temp := satSigned 16 temp, thermal := satInc 8 c.thermal }) s))
    else s)

/-- A cleared latch (R157 row 10): FAULT with the retries exhausted, else OFF, and from there INRUSH at once on demand; a group
under-voltage takes it to UV_OFF. -/
def unlatch (ch : Nat) (s : State) : State :=
  if underGroup s ch then onCh ch (fun c => { c with uvCount := satInc 8 c.uvCount }) (setCh ch .uvOff s)
  else if (chOf s ch).exceeded then setCh ch .fault s
  else settleCh ch (setCh ch .off s)

/-- LS_LATCH_AUTOCLEAR (R160 row 3). -/
def execLsLatchAutoclear (ch : Nat) (temp : Int) (s : State) : Host.Outcome State Fault Refusal :=
  .next (let s' := onCh ch (fun c => { c with temp := satSigned 16 temp }) s
    if (chOf s ch).state = .latched ∧ temp < 1500 ∧ (switchRec s ch).any (·.thermAutoclr) then
      unlatch ch (logThermal ch 0 temp 1 s')
    else s')

/-- Channels of a supply group. -/
def groupChannels (g : Nat) : List Nat := [4 * g, 4 * g + 1, 4 * g + 2, 4 * g + 3]

/-- One channel at the onset of its group's under-voltage (R157 row 2); a contactor's outlet pauses (R161). -/
def channelUv (s : State) (ch : Nat) : State :=
  let st := (chOf s ch).state
  if chDeclared s ch ∧ st ≠ .latched ∧ st ≠ .uvOff then
    let s := setCh ch .uvOff (onCh ch (fun c => { c with uvCount := satInc 8 c.uvCount }) s)
    match contactorOutlet s ch with
    | some o => supplyPause o s
    | none => s
  else s

/-- LS_UNDERVOLTAGE (R157 row 2): logged once per group onset. -/
def execLsUndervoltage (grp mv : Nat) (s : State) : Host.Outcome State Fault Refusal :=
  .next (let s' := onPwr (fun b => { b with grpMv := put b.grpMv grp mv }) s
    if grp < 3 ∧ flag s.pwr.grpUv grp = false ∧ mv < 8000 then
      let s := logEv .power 0x08 0xFF 0x0804 [(1, grp), (1, 0), (2, mv)]
        (onPwr (fun b => { b with grpUv := put b.grpUv grp true }) s')
      (groupChannels grp).foldl channelUv s
    else s')

/-- One channel at the group's recovery (R157 row 9). -/
def channelRecover (s : State) (ch : Nat) : State :=
  if (chOf s ch).state = .uvOff then
    setCh ch (if (switchRec s ch).isSome && demand s ch && s.owl.ran then .inrush else .off) s
  else s

/-- LS_UV_RECOVER (R157 row 9, R161): outlets paused by their supply may resume. -/
def execLsUvRecover (grp mv : Nat) (s : State) : Host.Outcome State Fault Refusal :=
  .next (let s' := onPwr (fun b => { b with grpMv := put b.grpMv grp mv }) s
    if flag s.pwr.grpUv grp ∧ 8500 ≤ mv then
      let s := logEv .power 0x08 0xFF 0x0804 [(1, grp), (1, 1), (2, mv)]
        (onPwr (fun b => { b with grpUv := put b.grpUv grp false }) s')
      let s := (groupChannels grp).foldl channelRecover s
      (outletList s).foldl (fun s o => tryResume o s) s
    else s')

/-- An open-load check runs on the channel: always on a contactor, by its flag on a SWITCH channel (R159). -/
def openloadOn (s : State) (ch : Nat) (on : Bool) : Bool :=
  (contactorOutlet s ch).isSome || (switchRec s ch).any fun x => if on then x.openloadOn else x.openloadOff

/-- EV_LS_OPENLOAD: 0 the check in ON, 1 the check with the output off. -/
def logOpenload (ch check : Nat) (s : State) : State :=
  logEv (if (contactorOutlet s ch).isSome then .safety else .service) 0x08 ch 0x0805 [(1, ch), (1, check)] s

/-- LS_OPENLOAD_ON (R159): below 10 or 30 mA for 100 ms, or above twice that. -/
def execLsOpenloadOn (ch : Nat) (cur : Int) (s : State) : Host.Outcome State Fault Refusal :=
  let lvl : Int := if ch < 8 then 10 else 30
  .next (if openloadOn s ch true ∧ (chOf s ch).state = .on then
    let s' := onCh ch (fun c => { c with cur := limited ch cur }) s
    if cur < lvl then
      (if (chOf s ch).openOn then s' else logOpenload ch 0 (onCh ch (fun c => { c with openOn := true }) s'))
    else if 2 * lvl < cur then onCh ch (fun c => { c with openOn := false }) s'
    else s'
    else s)

/-- States in which the diagnostic current is driven. -/
def diagDriven : ChState → Bool
  | .off => true | .retryWait => true | .latched => true | .fault => true
  | .absent => false | .inrush => false | .on => false | .uvOff => false

/-- LS_OPENLOAD_DIAG (R159): in OFF, RETRY_WAIT, LATCHED and FAULT; not in DORMANT. -/
def execLsOpenloadDiag (ch mv : Nat) (s : State) : Host.Outcome State Fault Refusal :=
  .next (if openloadOn s ch false ∧ diagDriven (chOf s ch).state = true ∧ s.sys.mode ≠ .dormant then
    if 3000 < mv then
      (if (chOf s ch).openOff then s else logOpenload ch 1 (onCh ch (fun c => { c with openOff := true }) s))
    else if mv < 3000 then onCh ch (fun c => { c with openOff := false }) s
    else s
    else s)

/-- PWR_CLEAR (R160, R179): kind 1 the thermal latch, kind 2 the fault. -/
def execPwrClear (r : Req) (ch kind : Nat) (s : State) : Host.Outcome State Fault Refusal :=
  let c := chOf s ch
  .next (guarded r [(decide (ch < 12) && !chDeclared s ch, stsAbsent), (decide (11 < ch) || !inRange 1 2 kind, stsLengthRange),
      (if kind = 1 then c.state != .latched || decide (1500 ≤ c.temp) else c.state != .fault, stsState)]
    (fun s =>
      let s := logEv .service 0x08 ch 0x0806 [(1, ch), (1, kind)] s
      postSts r stsOk (if kind = 1 then unlatch ch (logThermal ch 0 c.temp 2 s)
        else settleCh ch (setCh ch .off (onCh ch (fun c => { c with retries := 0, exceeded := false }) s)))) s)

/-- LIMP_INPUT_CHANGE (R163): the map's demand changes at once. -/
def execLimpInputChange (limpLow : Bool) (lhIn : Nat) (s : State) : Host.Outcome State Fault Refusal :=
  .next (settleAll (onPwr (fun b => { b with limpLow := limpLow, lhIn := lhIn % 16 }) s))

/-! ## Fast taps (R165–R169) -/

/-- The last true word of a level's cause on the outlets its mask hits (R194). -/
def noteTrue (c mask : Nat) (s : State) : State :=
  onOwl (fun b => { b with
    lastTrue := b.lastTrue.mapIdx fun o r =>
      if Nat.land mask (outputsOf s o) != 0 then put r c (some s.ticks) else r }) s

/-- Places of the relations that share a supervised level. -/
def levelRelations (s : State) (l : Level) : List Nat :=
  (s.str.cur.trips.zipIdx.filter fun x => x.1.kind == l.kind && x.1.inst == l.inst && x.1.threshold == l.threshold
    && x.1.delay == l.delay).map (·.2)

/-- A word at or above a level's code: a FAST level trips, its event once per onset; a supervised one becomes true. -/
def levelTrue (l : Level) (k : Nat) (word : Int) (onset : Bool) (s : State) : State :=
  if l.fast then
    let s := latchTrip (kindCause l.kind) l.mask (recordSrc l.kind l.inst k s)
    if onset then
      logEv .safety 0x09 0xFF 0x0808 [(1, l.kind), (1, l.inst), (1, k), (1, l.mask), (2, unsignedOf 16 word)] s
    else s
  else
    noteTrue (kindCause l.kind) l.mask (onFlt (fun b => { b with
      supTrue := b.supTrue ++ (levelRelations s l).filter fun i => !b.supTrue.contains i }) s)

/-- A word below a level's code; a warming spare's word does not end what the suspect's words hold. -/
def levelFalse (l : Level) (own : Bool) (s : State) : State :=
  if own && !l.fast then onFlt (fun b => { b with supTrue := b.supTrue.filter fun i => !(levelRelations s l).contains i }) s else s

/-- A level `l`, `k` in its place, of the function `f` against the tap word of lane `n`. -/
def tapLevel (n f : Nat) (s : State) (l : Level) (k : Nat) : State :=
  let word := (laneOf s n).tap
  let key := (n, k)
  if levelCode s l ≤ word.natAbs then
    let onset := !s.flt.above.contains key
    levelTrue l k word onset (onFlt (fun b => { b with above := if onset then b.above ++ [key] else b.above }) s)
  else levelFalse l (n == carrier s f) (onFlt (fun b => { b with above := b.above.filter (· != key) }) s)

/-- One step of the 200 ms first-order low-pass at 512 kS/s, in 2^−32 of a tap unit (R165, log 32). -/
def lowPass (b word : Int) : Int := word * 2 ^ 32 + (b - word * 2 ^ 32) * expNeg 1 102400 / 2 ^ 60

/-- The low-pass of an outlet takes a word of the lane that carries its RESIDUAL function. -/
def stepBase (n f : Nat) (word : Int) (s : State) : State :=
  match laneRec s f with
  | some r =>
    if r.qty = 3 ∧ n = carrier s f then
      onFlt (fun x => { x with rc := upd x.rc r.outlet fun y => { y with base := lowPass y.base word } }) s
    else s
  | none => s

/-- A residual-step level of outlet `o` against x − b (R165); a warming spare's word meets the b of the lane it follows
(log 33). -/
def residualLevel (n o : Nat) (own : Bool) (s : State) (l : Level) (k : Nat) : State :=
  let word := (laneOf s n).tap
  let b := (s.flt.rc.getD o Residual.fresh).base
  let key := (o, k)
  if levelCode s l * 2 ^ 32 ≤ (word * 2 ^ 32 - b).natAbs then
    let onset := !s.flt.rcAbove.contains key
    levelTrue l k word onset (onFlt (fun b => { b with rcAbove := if onset then b.rcAbove ++ [key] else b.rcAbove }) s)
  else levelFalse l own (onFlt (fun b => { b with rcAbove := b.rcAbove.filter (· != key) }) s)

/-- A lane's fast-tap word against those levels of the function it carries that `sel` picks, in order. -/
def compareTap (sel : Level → Nat → Bool) (n : Nat) (s : State) : State :=
  let pick (ls : List Level) : List (Level × Nat) := ls.zipIdx.filter fun x => sel x.1 x.2
  match tapFunction s n with
  | some f =>
    match laneRec s f with
    | some r => if r.role ≠ 1 then s
      else if r.qty = 3 then
        (if isAc s r.outlet then
          (pick (residualLevels s r.outlet)).foldl (fun s x => residualLevel n r.outlet (n == carrier s f) s x.1 x.2) s
         else s)
      else (pick (laneLevels s f)).foldl (fun s x => tapLevel n f s x.1 x.2) s
    | none => s
  | none => s

/-- FAST_TRIP (R167, R168): the lane's fast-tap word stands at or above a FAST level: latch, outputs, FLT_TRIPSRC and the
event of the crossing. -/
def execFastTrip (lane level : Nat) (s : State) : Host.Outcome State Fault Refusal :=
  .next (if delivers s lane then compareTap (fun l k => l.fast && k == level) lane s else s)

/-- A fast-tap word delivered to FLT; one whose parity fails is not compared, and diagnostic 8 has failed (R61, R196,
log 37). -/
def takeTap (lane : Nat) (parityBad : Bool) (s : State) : State :=
  if parityBad then
    (if s.owl.state = .start ∨ s.owl.state = .run then diagFail 8 lane s else s)
  else compareTap (fun _ _ => true) lane (stepBase lane (functionOf s lane) (laneOf s lane).tap s)

/-- FAST_TAP_WORD (R61, R169): the word is formed from eight modulator bits; it starts, keeps or ends what the levels hold. -/
def execFastTapWord (lane : Nat) (word : TapInput) (s : State) : Host.Outcome State Fault Refusal :=
  .next (if delivers s lane then takeTap lane word.parityBad (formTap lane word.bits s) else s)

/-! ## Residual current (R170, R171) -/

/-- Levels of R171 in µA, and their hold times in ms: rows 0–2 DC, 3–5 AC. -/
def rcLevels : List (Nat × Nat) := [(6000, 950), (60000, 60), (200000, 10), (30000, 60), (60000, 20), (150000, 1)]

/-- The words, oldest first, within the 2 kHz bandwidth of I_ac (R170): the filter's outputs. -/
def bandWords : List Int → List Int → List Int
  | _, [] => []
  | mem, w :: ws => let mem := Config.bandLimit mem w; mem.headD 0 :: bandWords mem ws

/-- RC_EVALUATE (R170): I_dc, I_ac, and how long each level of R171 has been held. -/
def execRcEvaluate (outlet : Nat) (words : List Int) (s : State) : Host.Outcome State Fault Refusal :=
  .next (if isAc s outlet ∧ words ≠ [] then
    let n := words.length
    let sum := words.foldl (· + ·) 0
    let sq := (bandWords [] words).foldl (fun (a w : Int) => a + ((n : Int) * w - sum) * ((n : Int) * w - sum)) (0 : Int)
    let idc := openQuot (freeBit s) (sum * 1000000) (n * 0x7FFFFF)
    let s := bump s
    let iac := openSqrt (freeBit s) (sq.toNat * 10 ^ 12) (n * n * n * fs2')
    let hold (l : List Nat) : List Nat := rcLevels.zipIdx.map fun x =>
      if x.1.1 ≤ (if x.2 < 3 then idc.natAbs else iac) then at0 l x.2 + 1 else 0
    onFlt (fun b => { b with rc := upd b.rc outlet fun r => { r with idc := idc, iac := iac, held := hold r.held } }) (bump s)
    else s)
where
  /-- The square of the full-scale word. -/
  fs2' : Nat := 0x7FFFFF * 0x7FFFFF

/-- RC_TRIP (R171): the level's hold time has passed; the outlet's contactors and gate enables trip. -/
def execRcTrip (outlet row : Nat) (s : State) : Host.Outcome State Fault Refusal :=
  let r := s.flt.rc.getD outlet Residual.fresh
  let dc := decide (row < 3)
  let hold := ((rcLevels[row]?).map (·.2)).getD (2 ^ 32)
  .next (if isAc s outlet ∧ hold ≤ at0 r.held row then
    let first := !(if dc then r.dcTrip else r.acTrip)
    let s := onFlt (fun b => { b with rc := upd b.rc outlet fun r =>
      if dc then { r with dcTrip := true } else { r with acTrip := true } }) s
    let s := latchTrip (if dc then 3 else 4) (outputsOf s outlet) (recordSrc (if dc then 4 else 5) outlet (row % 3) s)
    if first then
      logEv .safety 0x09 outlet 0x0809 [(1, outlet), (1, if dc then 0 else 1), (1, row), (4, unsignedOf 32 r.idc), (4, r.iac)] s
    else s
    else s)

/-! ## Isolation (R173, R174) -/

/-- An isolation quotient before clipping; over a zero denominator the spec gives no result: a free value. -/
def isoQuot (free : Nat) (up : Bool) (num den : Int) : Int :=
  if den = 0 then free else openQuot up (if den < 0 then -num else num) den.natAbs

/-- Clipping to 1,000–10,000,000 Ω. -/
def isoClip (x : Int) : Nat := (clamp 1000 10000000 x).toNat

/-- A new result from the settled averages of both states; R_m is 100,000 Ω (R175). -/
def isoResult (s : State) (p n : Int × Int) (m : Iso) : Iso :=
  let d := p.1 * n.2 - p.2 * n.1
  let q := isoQuot (freeNat s) (freeBit s)
  let rp := q (100000 * d) (-n.2 * (p.1 - p.2))
  let rn := q (100000 * d) (p.1 * (n.1 - n.2))
  { m with rp := isoClip rp, rn := isoClip rn, riso := isoClip (q (rp * rn) (rp + rn)), state := .valid }

/-- The end of a measuring state. -/
def isoSwitch (s : State) (i : IsoInput) (m : Iso) : Iso :=
  let u := (i.vp - i.vn).natAbs
  let next := !m.injN
  if u < 50000 then { m with state := .novolt, avgP := none, avgN := none, rp := 0, rn := 0, riso := 0, injN := next }
  else
    let settled := decide (100 * (i.vp - i.vpPrev).natAbs ≤ u) && decide (100 * (i.vn - i.vnPrev).natAbs ≤ u)
    let m := if settled then (if m.injN then { m with avgN := some (i.vp, i.vn) } else { m with avgP := some (i.vp, i.vn) }) else m
    let m : Iso := match settled, m.avgP, m.avgN with
      | true, some p, some n => isoResult s p n m
      | _, _, _ => if m.state == .novolt || m.state == .off then { m with state := .measuring } else m
    { m with injN := next }

/-- ISO_STATE_SWITCH (R173, R174). -/
def execIsoStateSwitch (outlet : Nat) (inp : IsoInput) (s : State) : Host.Outcome State Fault Refusal :=
  .next (if isDc s outlet then bump (onFlt (fun b => { b with iso := upd b.iso outlet (isoSwitch s inp) }) s) else s)

/-- ISO_UNKNOWN (R174 row 3): logged at the onset. -/
def execIsoUnknown (outlet : Nat) (u : Int) (s : State) : Host.Outcome State Fault Refusal :=
  .next (if isDc s outlet ∧ 50000 ≤ u.natAbs ∧ (s.flt.iso.getD outlet Iso.fresh).state ≠ .unknown then
    logEv .safety 0x09 outlet 0x080A [(1, outlet), (4, unsignedOf 32 u)]
      (onFlt (fun b => { b with iso := upd b.iso outlet fun m => { m with state := .unknown } }) s)
    else s)

/-! ## Weld checks (R176, R177) -/

/-- An AC PRE_CLOSE judged cycle by cycle: the result, with the group and voltages that decided it; none before the fifth. -/
def preCloseAc (nom : Nat) : Nat → List (List (Nat × Nat × Nat)) → Option (WeldResult × Nat × Nat × Nat)
  | 5, _ => some (.isOpen, 0, 0, 0)
  | _, [] => none
  | k, c :: rest =>
    match c.zipIdx.find? fun g => decide (2 * g.1.1 < nom) with
    | some g => some (.inconclusive, g.2, g.1.1, g.1.2.1)
    | none =>
      match c.zipIdx.find? fun g => decide (nom ≤ 10 * g.1.2.1) with
      | some g => some (.welded, g.2, g.1.1, g.1.2.1)
      | none => preCloseAc nom (k + 1) rest

/-- A DC PRE_CLOSE: pairs (VOLT_PRE, VOLTAGE). -/
def preCloseDc (l : List (Nat × Nat)) : WeldResult × Nat × Nat × Nat :=
  let f := l.headD (0, 0)
  let near (p : Nat × Nat) : Bool := decide (50 * ((p.1 : Int) - p.2).natAbs ≤ p.1)
  if f.1 < 50000 ∨ 50000 ≤ f.2 then (.inconclusive, 0, f.1, f.2)
  else match l.find? near with
    | some p => (.welded, 0, p.1, p.2)
    | none => (if l.all (fun p => decide (10 * p.2 < p.1)) then .isOpen else .inconclusive, 0, f.1, f.2)

/-- An AC POST_OPEN over five cycles; none with fewer. -/
def postOpenAc (nom : Nat) (l : List (List (Nat × Nat × Nat))) : Option (WeldResult × Nat × Nat × Nat) :=
  if l.length < 5 then none
  else
    let fifth := l.getD 4 []
    let stuck (g : Nat) : Bool := (l.take 5).all fun cell => match cell[g]? with
      | some x => decide (nom ≤ 2 * x.2.1) && decide (10 * x.2.2 < nom)
      | none => false
    match (List.range fifth.length).find? stuck with
    | some g => some (.welded, g, (fifth.getD g (0, 0, 0)).1, (fifth.getD g (0, 0, 0)).2.1)
    | none => some (if fifth.all (fun x => decide (10 * x.2.1 < nom)) then .isOpen else .inconclusive, 0, 0, 0)

/-- A DC POST_OPEN. -/
def postOpenDc (nom : Nat) (i : WeldInput) : WeldResult × Nat × Nat × Nat :=
  let f := i.first100.headD (0, 0)
  if f.2 < 50000 then (.inconclusive, 0, f.1, f.2)
  else if i.first100.all (fun p => decide (50 * ((p.1 : Int) - p.2).natAbs ≤ nom)) then (.welded, 0, f.1, f.2)
  else (if i.upTo500.any (fun p => decide (2 * p.1 < p.2)) then .isOpen else .inconclusive, 0, f.1, f.2)

/-- The result of a check. -/
def weldResult (s : State) (o : Nat) (post : Bool) (i : WeldInput) : Option (WeldResult × Nat × Nat × Nat) :=
  match outletRec s o with
  | none => none
  | some r =>
    if r.kind = 1 then (if post then postOpenAc r.nomMv i.cycles else preCloseAc r.nomMv 0 i.cycles)
    else if i.first100 = [] then none
    else some (if post then postOpenDc r.nomMv i else preCloseDc i.first100)

/-- FLT records a result; WELDED is held in Owl's configuration and logged (R177). -/
def recordWeld (o : Nat) (post : Bool) (x : WeldResult × Nat × Nat × Nat) (s : State) : State :=
  let s := onFlt (fun b => { b with weld := upd b.weld o fun w => { w with
    result := x.1, postOpen := post, preOpen := if post then w.preOpen else x.1 == .isOpen,
    inconc := if post then (if x.1 = .inconclusive then min 3 (w.inconc + 1) else 0) else w.inconc } }) s
  if x.1 = .welded then
    logEv .safety 0x09 o 0x080B [(1, o), (1, if post then 1 else 0), (1, x.2.1), (4, x.2.2.1), (4, x.2.2.2)]
      (onCfg (fun c => { c with held := put c.held o true }) s)
  else s

/-- PRE_CLOSE_RESULT (R176, R226): OPEN closes, but not while validation runs (R234), when the check is repeated (log 38);
WELDED and the third INCONCLUSIVE end the session. -/
def execPreCloseResult (outlet : Nat) (inp : WeldInput) (s : State) : Host.Outcome State Fault Refusal :=
  .next (match weldResult s outlet false inp with
    | none => s
    | some x =>
      let s := recordWeld outlet false x s
      if (linkOf s outlet).phase ≠ .preClose then s
      else match x.1 with
        | .isOpen =>
          if (linkOf s outlet).window.isSome then onLink outlet (fun l => { l with phase := .preCloseWait }) s
          else closeContactors outlet s
        | .inconclusive =>
          let n := (linkOf s outlet).preTries + 1
          let s := onLink outlet (fun l => { l with preTries := n, phase := .preCloseWait }) s
          if 3 ≤ n then endSession outlet 6 (logEv .service 0x0C outlet 0x0C09 [(1, outlet), (1, 3)] s) else s
        | _ => endSession outlet 6 s)

/-- PRECLOSE_RETRY (R226): 1 s after an INCONCLUSIVE the check runs again. -/
def execPrecloseRetry (outlet : Nat) (s : State) : Host.Outcome State Fault Refusal :=
  .next (if (linkOf s outlet).phase = .preCloseWait then onLink outlet (fun l => { l with phase := .preClose }) s else s)

/-- What the supervisor does once POST_OPEN has ended. -/
def afterPostOpen (o : Nat) (s : State) : State :=
  let l := linkOf s o
  if l.phase ≠ .postOpen then s
  else match l.why with
    | .cold => onLink o (fun l => { l with phase := .none }) s
    | .pause => tryResume o (setSup o .paused (onLink o (fun l => { l with phase := .none }) s))
    | .finish => finishSession o s

/-- POST_OPEN_RESULT (R176, R177, R227). -/
def execPostOpenResult (outlet : Nat) (inp : WeldInput) (s : State) : Host.Outcome State Fault Refusal :=
  .next (match weldResult s outlet true inp with
    | none => s
    | some x =>
      let old := (s.flt.weld.getD outlet Weld.fresh).inconc
      let s := recordWeld outlet true x s
      let s := if x.1 = .inconclusive ∧ old = 2 then logEv .safety 0x09 outlet 0x080C [(1, outlet)] s else s
      let s := if x.1 = .welded then s else onOwl (fun b => { b with weldSeen := put b.weldSeen outlet true }) s
      afterPostOpen outlet s)

/-- WELD_CLEAR (R177, R179): in MAINTENANCE, HELD, the last PRE_CLOSE OPEN. -/
def execWeldClear (r : Req) (outlet : Nat) (s : State) : Host.Outcome State Fault Refusal :=
  .next (guarded r (outletChecks s outlet ++ [(s.sys.mode != .maintenance || !held s outlet
        || !(s.flt.weld.getD outlet Weld.fresh).preOpen, stsState)])
    (fun s => postSts r stsOk (changeEntry 6 (sideCode r.side) outlet 0 [] []
      (onCfg (fun c => { c with held := put c.held outlet false }) s))) s)

/-! ## Cable lock (R178) -/

/-- A debounced reading of a lock's feedback (R178 rows 2, 5, 6, and the first reading after a reset). -/
def lockReading (outlet ch : Nat) (locked : Bool) (s : State) : State :=
  let s := onLock outlet (fun l => { l with fb := locked, seen := true }) s
  match (lockOf s outlet).state, locked with
  | .none, b => onLock outlet (fun l => { l with state := if b then .unlocking else .unlocked }) s
  | .locking, true =>
    let s := lockWatch ch (onLock outlet (fun l => { l with state := .locked, pause := false }) s)
    offerChanged outlet (if (lockOf s outlet).state = .locked then lockReached outlet s else s)
  | .locked, false => lockLost outlet ch (chOf s ch).state.code s
  | .unlocking, false => onLock outlet (fun l => { l with state := .unlocked }) s
  | _, _ => s

/-- LOCK_FEEDBACK (R178): the reading, and Owl's evaluation of a changed hardwired input (R186). -/
def execLockFeedback (outlet : Nat) (locked : Bool) (s : State) : Host.Outcome State Fault Refusal :=
  .next (match lockChannel s outlet with
    | none => s
    | some ch => owlReact (lockReading outlet ch locked s))

/-- LOCK_TIMEOUT (R178 rows 3, 4, 7). -/
def execLockTimeout (outlet : Nat) (s : State) : Host.Outcome State Fault Refusal :=
  .next (match lockChannel s outlet with
    | none => s
    | some ch =>
      let l := lockOf s outlet
      match l.state with
      | .locking =>
        if l.pause then s
        else if l.second then
          logEv .safety 0x08 outlet 0x080D [(1, outlet), (1, ch)]
            (onLock outlet (fun l => { l with state := .lockFail, second := false }) (lockDemand outlet false s))
        else onLock outlet (fun l => { l with pause := true }) (lockDemand outlet false s)
      | .unlocking =>
        logEv .service 0x08 outlet 0x080F [(1, outlet), (1, ch)] (onLock outlet (fun l => { l with state := .lockStuck }) s)
      | _ => s)

/-- LOCK_RETRY (R178 row 3): the second attempt. -/
def execLockRetry (outlet : Nat) (s : State) : Host.Outcome State Fault Refusal :=
  .next (if (lockOf s outlet).state = .locking ∧ (lockOf s outlet).pause then
    lockDemand outlet true (onLock outlet (fun l => { l with second := true, pause := false }) s)
    else s)

end Sys2Proof.Machine
end

