-- ==== Sys2Proof/Machine/Regs.lean ====
section
/-! DEFINITION. Register writes (R12, R13, R45, R389, R403): each word of a checked transaction reaches the register at its
offset, in address order, by its access type; what is absent, read-only or reserved ignores it. A register that has a row of
its own acts by that row's operation. -/

namespace Sys2Proof.Machine

/-! ## One operation per block -/

/-- SYS (R383, R427): SYS_WAKE is ignored in every mode that serves transactions (R383). -/
def sysRegWrite (a w : Nat) (s : State) : State :=
  if a = 0x0008 then rstreqWrite w s
  else if a = 0x000C then
    (if inRange 5000 24000 (field w 14 0) then onSys (fun b => { b with warnMv := field w 14 0 }) s else s)
  else s

/-- LANEn_CTL (R58, R79): ENV_DECAY within 1–1,000 ms; TRIAL by R58. -/
def laneCtlWrite (n w : Nat) (s : State) : State :=
  let d := field w 31 16
  laneTrialWrite n (bitAt w 0) (if inRange 1 1000 d then onLane n (fun l => { l with envDecay := d }) s else s)

/-- LANEn_FIRCTL (R57, R79): INDEX, which a running swap holds, CRCERR by writing 1, SWAP. -/
def firctlWrite (n w : Nat) : State → State :=
  onLane n fun l => { l with firIndex := if l.swap then l.firIndex else field w 13 8, crcErr := l.crcErr && !bitAt w 3,
                             swap := l.swap || bitAt w 1 }

/-- LANE (R79), offset within the block. -/
def laneRegWrite (a w : Nat) (s : State) : State :=
  let n := a / 0x200
  let r := a % 0x200
  if laneIn s.str.cur n = false then s
  else if r = 0x04 then laneCtlWrite n w s
  else if r = 0x08 then laneCalWrite n false w s
  else if r = 0x0C then laneCalWrite n true w s
  else if r = 0x14 then firctlWrite n w s
  else if r = 0x18 then firdataWrite n w s
  else if r = 0x1C then onLane n (fun l => if l.swap then l else { l with firCrc := w }) s
  else s

/-- MET (R119): ORDER 0 keeps MET_HARMSEL's order; a pulse output's OVF by writing 1. -/
def metRegWrite (a w : Nat) (s : State) : State :=
  if a = 0x08 then snapctlWrite w s
  else if a = 0x10 then
    onMet (fun b => { b with harmOutlet := field w 9 8, harmOrder := if field w 5 0 = 0 then b.harmOrder else field w 5 0 }) s
  else if a = 0x1C then calctlWrite w s
  else if 0x40 ≤ a ∧ a < 0x80 then
    (if bitAt w 2 then onMet (fun b => { b with pulses := upd b.pulses ((a - 0x40) / 4) fun p => { p with ovf := false } }) s
     else s)
  else s

/-- PWR (R156, R180): the firmware demand of a declared channel. -/
def pwrRegWrite (a w : Nat) (s : State) : State :=
  let n := (a - 0x100) / 0x20
  if 0x100 ≤ a ∧ a < 0x280 ∧ a % 0x20 = 0 ∧ chDeclared s n then settleCh n (onCh n (fun c => { c with ctlOn := bitAt w 0 }) s)
  else s

/-- VLKo_CFG (R240): ignored unless the supervisor is IDLE or CONNECTED; DISC within 1–20 dB. -/
def vlkCfgWrite (o w : Nat) (s : State) : State :=
  let d := field w 12 8
  if (linkOf s o).sup = .idle ∨ (linkOf s o).sup = .connected then
    onLink o (fun l => { l with disc := if inRange 1 20 d then d else l.disc, fallback := bitAt w 4,
                                ventOk := bitAt w 3, ppMode := field w 1 0,
                                ppCode := if field w 1 0 = 1 then l.ppCode else 0,
                                ppOhms := if field w 1 0 = 1 then l.ppOhms else 0 }) s
  else s

/-- The unit behind a port's rings is off (R236). -/
def portOff (s : State) : Port → Bool
  | .vlk o => !modemOn s o
  | .glk => !s.glk.en
  | .eth => !s.eth.en
  | .can c => !(canOf s c).en

/-- The ring registers of a port (R236, R240): a base is taken while its ring is empty or its unit off; its low ten bits stay
0 (1,024-byte aligned). -/
def ringRegWrite (p : Port) (r w : Nat) (s : State) : State :=
  let g := ringsOf s p
  let addr := w / 1024 * 1024
  if portThere s p = false then s
  else if r = 0x00 then (if g.txHead = g.txTail ∨ portOff s p then onRings p (fun g => { g with txBase := addr }) s else s)
  else if r = 0x04 then txTailWrite p w s
  else if r = 0x10 then (if g.rxHead = g.rxTail ∨ portOff s p then onRings p (fun g => { g with rxBase := addr }) s else s)
  else if r = 0x14 then rxTailWrite p w s
  else s

/-- VLK (R240), offset within the block. -/
def vlkRegWrite (a w : Nat) (s : State) : State :=
  let o := a / 0x4000
  let r := a % 0x4000
  if linked s o = false then s
  else if r = 0x04 then vlkCfgWrite o w s
  else if r = 0x08 then pilotWrite o w s
  else if 0x100 ≤ r ∧ r < 0x118 then ringRegWrite (.vlk o) (r - 0x100) w s
  else s

/-- GLK and ETH (R256). -/
def glkRegWrite (a w : Nat) (s : State) : State :=
  if a = 0x04 then glkCfgWrite w s
  else if a = 0x10 then (if blockBit s 4 then onGlk (fun b => { b with nbSel := field w 7 0 }) s else s)
  else if 0x100 ≤ a ∧ a < 0x118 then ringRegWrite .glk (a - 0x100) w s
  else if a = 0x8004 then (if blockBit s 5 then ethCfgWrite w s else s)
  else if a = 0x8008 then mdioWrite w s
  else if 0x8100 ≤ a ∧ a < 0x8118 then ringRegWrite .eth (a - 0x8100) w s
  else s

/-- TIM_CTL (R273): HOLDOVER within 60–86,400 s. -/
def timCtlWrite (w : Nat) (s : State) : State :=
  onTim (fun b => { b with holdover := if inRange 60 86400 (field w 31 15) then field w 31 15 else b.holdover,
                           auto := bitAt w 0 }) s

/-- TIM_PTPF_STAT (R273): OVF by writing 1; POP removes the head entry. -/
def ptpStatWrite (w : Nat) (s : State) : State :=
  let s := if bitAt w 8 then onTim (fun b => { b with ptpOvf := false }) s else s
  if bitAt w 16 then timPtpfPop s else s

/-- TIM (R273). -/
def timRegWrite (a w : Nat) (s : State) : State :=
  if a = 0x04 then timCtlWrite w s
  else if a = 0x28 then onTim (fun b => { b with alarmS := b.alarmS / 2 ^ 32 * 2 ^ 32 + w }) s
  else if a = 0x2C then timAlarmHiWrite w s
  else if a = 0x104 then timIncWrite 0 w s
  else if a = 0x124 then timIncWrite 1 w s
  else if a = 0x300 then ptpStatWrite w s
  else s

/-- TAG (R299). -/
def tagRegWrite (a w : Nat) (s : State) : State :=
  if readerThere s = false then s
  else if a = 0x04 then tagCtlWrite w s
  else if a = 0x14 then
    let s := if bitAt w 8 then onTag (fun b => { b with rptOvf := false }) s else s
    if bitAt w 16 then rptPop s else s
  else s

/-- EPD and the LED channels (R319). -/
def epdRegWrite (a w : Nat) (s : State) : State :=
  if a = 0x04 then epdCtlWrite w s
  else if a = 0x08 then epdTempWrite w s
  else if 0x1000 ≤ a ∧ a < 0x10C0 ∧ a % 0x10 = 0 then ledCtlWrite ((a - 0x1000) / 0x10) w s
  else if 0x1000 ≤ a ∧ a < 0x10C0 ∧ a % 0x10 = 4 then ledPatWrite ((a - 0x1000) / 0x10) w s
  else s

/-- UPD_CFG (R362): a key slot below 3 is ignored. -/
def updRegWrite (a w : Nat) (s : State) : State :=
  if a = 0x10 ∧ 3 ≤ field w 4 0 then onUpd (fun b => { b with keySlot := field w 4 0 }) s else s

/-- A doorbell register (R367, R383): OUT_BELL by writing 1; IN_BELL rings Badger. -/
def bellWrite (side : Side) (w : Nat) (s : State) : State :=
  let s := if bitAt w 1 then onMgt (fun b => match side with
      | .host => { b with hmb := { b.hmb with outBell := false } }
      | .cluster => { b with amb := { b.amb with outBell := false } }) s else s
  if bitAt w 0 then doorbell side s else s

/-- A word of an incoming mailbox window (R367). -/
def windowWrite (side : Side) (off w : Nat) : State → State :=
  onMgt fun b => match side with
    | .host => { b with hmb := { b.hmb with inWin := overlay off (leBytes 4 w) b.hmb.inWin } }
    | .cluster => { b with amb := { b.amb with inWin := overlay off (leBytes 4 w) b.amb.inWin } }

/-- MGT (R383). -/
def mgtRegWrite (a w : Nat) (s : State) : State :=
  if a = 0x18 then heartbeat s
  else if a = 0x100 then bellWrite .host w s
  else if 0x140 ≤ a ∧ a < 0x180 then windowWrite .host (a - 0x140) w s
  else if a = 0x200 then bellWrite .cluster w s
  else if 0x240 ≤ a ∧ a < 0x280 then windowWrite .cluster (a - 0x240) w s
  else s

/-- Clears the interrupt causes written as 1 (R404); NOTICE and DONE are read-only. -/
def irqClear (w : Nat) (g : Ring) : Ring :=
  { g with irqRerr := g.irqRerr && !bitAt w 1, irqLink := g.irqLink && !bitAt w 2, irqReset := g.irqReset && !bitAt w 4,
           irqWake := g.irqWake && !bitAt w 5, irqSpace := g.irqSpace && !bitAt w 6 }

/-- The registers of one ring in its own side's view (R404), offset from the ring's base. -/
def ringBlockWrite (side : Side) (r w : Nat) (s : State) : State :=
  if r = 0x10 then ctailWrite side w s
  else if r = 0x18 then releaseWrite side w s
  else if r = 0x20 then onRing side (irqClear w) s
  else if r = 0x24 then onRing side (fun g => { g with irqEn := field w 6 0 }) s
  else if 0x30 ≤ r ∧ r < 0x40 then
    onRing side (fun g => { g with done := upd g.done ((r - 0x30) / 4) fun d => d - Nat.land d w }) s
  else s

/-- A word of a descriptor (R394). -/
def descWrite (side : Side) (off w : Nat) : State → State :=
  onRing side fun g => { g with desc := upd g.desc (off / 32) (overlay (off % 32) (leBytes 4 w)) }

/-- HSI (R404): a ring's registers and descriptors are written in its own side's view alone (R393). -/
def hsiRegWrite (view : Side) (a w : Nat) (s : State) : State :=
  if a = 0x04 then (if 4 ≤ field w 3 0 then onHsi (fun b => { b with dummy := field w 3 0 }) s else s)
  else match view with
    | .host =>
      if a < 0x100 then ringBlockWrite .host a w s
      else if 0x1000 ≤ a ∧ a < 0x2000 then descWrite .host (a - 0x1000) w s
      else s
    | .cluster =>
      if 0x100 ≤ a ∧ a < 0x200 then ringBlockWrite .cluster (a - 0x100) w s
      else if 0x3000 ≤ a ∧ a < 0x4000 then descWrite .cluster (a - 0x3000) w s
      else s

/-- BUS (R410), offset within the block. -/
def busRegWrite (a w : Nat) (s : State) : State :=
  let c := a / 0x400
  let r := a % 0x400
  if portThere s (.can c) = false then s
  else if r = 0x04 then canCfgWrite c w s
  else if r = 0x08 then canNbtWrite c w s
  else if r = 0x0C then canDbtWrite c w s
  else if 0x100 ≤ r ∧ r < 0x118 then ringRegWrite (.can c) (r - 0x100) w s
  else if 0x200 ≤ r ∧ r < 0x300 then canFilterWrite c ((r - 0x200) / 8) (r % 8 == 4) w s
  else s

/-! ## The register space (R403) -/

/-- One word written at an offset of the register space in a view. -/
def regWrite (view : Side) (a w : Nat) (s : State) : State :=
  if a < 0x010000 then sysRegWrite a w s
  else if 0x020000 ≤ a ∧ a < 0x040000 then laneRegWrite (a - 0x020000) w s
  else if 0x040000 ≤ a ∧ a < 0x060000 then metRegWrite (a - 0x040000) w s
  else if 0x080000 ≤ a ∧ a < 0x090000 then pwrRegWrite (a - 0x080000) w s
  else if 0x0C0000 ≤ a ∧ a < 0x0E0000 then vlkRegWrite (a - 0x0C0000) w s
  else if 0x0E0000 ≤ a ∧ a < 0x0F0000 then glkRegWrite (a - 0x0E0000) w s
  else if 0x0F0000 ≤ a ∧ a < 0x100000 then timRegWrite (a - 0x0F0000) w s
  else if 0x100000 ≤ a ∧ a < 0x110000 then tagRegWrite (a - 0x100000) w s
  else if 0x110000 ≤ a ∧ a < 0x120000 then epdRegWrite (a - 0x110000) w s
  else if 0x130000 ≤ a ∧ a < 0x140000 then updRegWrite (a - 0x130000) w s
  else if 0x140000 ≤ a ∧ a < 0x150000 then mgtRegWrite (a - 0x140000) w s
  else if 0x150000 ≤ a ∧ a < 0x158000 then hsiRegWrite view (a - 0x150000) w s
  else if 0x158000 ≤ a ∧ a < 0x160000 then busRegWrite (a - 0x158000) w s
  else s

/-- The words of a burst in address order (R387, R389); a word is taken while its view is served. -/
def regWrites (view : Side) : Nat → List Word → State → State
  | _, [], s => s
  | a, w :: ws, s => regWrites view (a + 4) ws (if sideReady s view then regWrite view a w.toNat s else s)

/-- REGISTER_WRITE (R389): a transaction outside the limits of R387 or R391 row 3 writes nothing. -/
def execRegisterWrite (view : Side) (addr : Nat) (words : List Word) (s : State) : Host.Outcome State Fault Refusal :=
  .next (if addr % 4 ≠ 0 ∨ words = [] ∨ 1024 < words.length ∨ 0x1000000 < addr + 4 * words.length then s
    else regWrites view addr words s)

end Sys2Proof.Machine
end

