-- ==== Sys2Proof/Machine/Dispatch.lean ====
section
/-! DEFINITION. One arm per command: a direct call of its meaning. -/

namespace Sys2Proof.Machine

def exec (i : Instr) (s : State) : Host.Outcome State Fault Refusal :=
  match i with
  | .supplyGood a0 => Sys2Proof.Machine.execSupplyGood a0 s
  | .boot a0 => Sys2Proof.Machine.execBoot a0 s
  | .cacheLoaded => Sys2Proof.Machine.execCacheLoaded s
  | .warrenActivate a0 => Sys2Proof.Machine.execWarrenActivate a0 s
  | .laneSampleWord a0 a1 => Sys2Proof.Machine.execLaneSampleWord a0 a1 s
  | .laneStuck a0 a1 => Sys2Proof.Machine.execLaneStuck a0 a1 s
  | .laneClkerr a0 => Sys2Proof.Machine.execLaneClkerr a0 s
  | .resamplerCycle a0 a1 => Sys2Proof.Machine.execResamplerCycle a0 a1 s
  | .detectorUpdate a0 a1 a2 => Sys2Proof.Machine.execDetectorUpdate a0 a1 a2 s
  | .firdataWrite a0 a1 => Sys2Proof.Machine.execFirdataWrite a0 a1 s
  | .firSwap a0 => Sys2Proof.Machine.execFirSwap a0 s
  | .laneTrialWrite a0 a1 => Sys2Proof.Machine.execLaneTrialWrite a0 a1 s
  | .laneCalWrite a0 a1 a2 => Sys2Proof.Machine.execLaneCalWrite a0 a1 a2 s
  | .laneSuspect a0 => Sys2Proof.Machine.execLaneSuspect a0 s
  | .warmupDecision a0 a1 a2 => Sys2Proof.Machine.execWarmupDecision a0 a1 a2 s
  | .laneSwap a0 => Sys2Proof.Machine.execLaneSwap a0 s
  | .spareFailed a0 a1 => Sys2Proof.Machine.execSpareFailed a0 a1 s
  | .laneFailed a0 a1 => Sys2Proof.Machine.execLaneFailed a0 a1 s
  | .strikeExpiry a0 => Sys2Proof.Machine.execStrikeExpiry a0 s
  | .laneRestore a0 a1 => Sys2Proof.Machine.execLaneRestore a0 a1 s
  | .intervalClose a0 a1 => Sys2Proof.Machine.execIntervalClose a0 a1 s
  | .saveComplete => Sys2Proof.Machine.execSaveComplete s
  | .snapshotSigned => Sys2Proof.Machine.execSnapshotSigned s
  | .sramScrub a0 => Sys2Proof.Machine.execSramScrub a0 s
  | .metCoreReload => Sys2Proof.Machine.execMetCoreReload s
  | .pulseTimer a0 => Sys2Proof.Machine.execPulseTimer a0 s
  | .snapctlTake a0 => Sys2Proof.Machine.execSnapctlTake a0 s
  | .calctlStart a0 => Sys2Proof.Machine.execCalctlStart a0 s
  | .calctlStop => Sys2Proof.Machine.execCalctlStop s
  | .energyLoRead a0 a1 a2 => Sys2Proof.Machine.execEnergyLoRead a0 a1 a2 s
  | .harmLoRead a0 => Sys2Proof.Machine.execHarmLoRead a0 s
  | .calAccLoRead a0 a1 a2 => Sys2Proof.Machine.execCalAccLoRead a0 a1 a2 s
  | .legalEventConfirm a0 => Sys2Proof.Machine.execLegalEventConfirm a0 s
  | .bilLoRead a0 a1 => Sys2Proof.Machine.execBilLoRead a0 a1 s
  | .calLoad a0 a1 => Sys2Proof.Machine.execCalLoad a0 a1 s
  | .tokenEnter a0 a1 => Sys2Proof.Machine.execTokenEnter a0 a1 s
  | .billSnapRead a0 a1 => Sys2Proof.Machine.execBillSnapRead a0 a1 s
  | .billReset a0 => Sys2Proof.Machine.execBillReset a0 s
  | .loadProfileRecord => Sys2Proof.Machine.execLoadProfileRecord s
  | .tokenMirrorConfirm a0 => Sys2Proof.Machine.execTokenMirrorConfirm a0 s
  | .lsDemandChange a0 => Sys2Proof.Machine.execLsDemandChange a0 s
  | .lsOverload a0 a1 => Sys2Proof.Machine.execLsOverload a0 a1 s
  | .lsInrushEnd a0 a1 => Sys2Proof.Machine.execLsInrushEnd a0 a1 s
  | .lsRetryTimer a0 => Sys2Proof.Machine.execLsRetryTimer a0 s
  | .lsRetryReset a0 => Sys2Proof.Machine.execLsRetryReset a0 s
  | .lsThermalLatch a0 a1 => Sys2Proof.Machine.execLsThermalLatch a0 a1 s
  | .lsLatchAutoclear a0 a1 => Sys2Proof.Machine.execLsLatchAutoclear a0 a1 s
  | .lsUndervoltage a0 a1 => Sys2Proof.Machine.execLsUndervoltage a0 a1 s
  | .lsUvRecover a0 a1 => Sys2Proof.Machine.execLsUvRecover a0 a1 s
  | .lsOpenloadOn a0 a1 => Sys2Proof.Machine.execLsOpenloadOn a0 a1 s
  | .lsOpenloadDiag a0 a1 => Sys2Proof.Machine.execLsOpenloadDiag a0 a1 s
  | .pwrClear a0 a1 a2 => Sys2Proof.Machine.execPwrClear a0 a1 a2 s
  | .weldClear a0 a1 => Sys2Proof.Machine.execWeldClear a0 a1 s
  | .limpInputChange a0 a1 => Sys2Proof.Machine.execLimpInputChange a0 a1 s
  | .fastTrip a0 a1 => Sys2Proof.Machine.execFastTrip a0 a1 s
  | .supervisedDelayExpiry a0 a1 => Sys2Proof.Machine.execSupervisedDelayExpiry a0 a1 s
  | .rcEvaluate a0 a1 => Sys2Proof.Machine.execRcEvaluate a0 a1 s
  | .rcTrip a0 a1 => Sys2Proof.Machine.execRcTrip a0 a1 s
  | .isoStateSwitch a0 a1 => Sys2Proof.Machine.execIsoStateSwitch a0 a1 s
  | .isoUnknown a0 a1 => Sys2Proof.Machine.execIsoUnknown a0 a1 s
  | .preCloseResult a0 a1 => Sys2Proof.Machine.execPreCloseResult a0 a1 s
  | .postOpenResult a0 a1 => Sys2Proof.Machine.execPostOpenResult a0 a1 s
  | .lockFeedback a0 a1 => Sys2Proof.Machine.execLockFeedback a0 a1 s
  | .lockTimeout a0 => Sys2Proof.Machine.execLockTimeout a0 s
  | .lockRetry a0 => Sys2Proof.Machine.execLockRetry a0 s
  | .owlStartComplete => Sys2Proof.Machine.execOwlStartComplete s
  | .owlDiagFail a0 a1 => Sys2Proof.Machine.execOwlDiagFail a0 a1 s
  | .owlPeriodicDiag a0 a1 a2 => Sys2Proof.Machine.execOwlPeriodicDiag a0 a1 a2 s
  | .owlSafeTimeout => Sys2Proof.Machine.execOwlSafeTimeout s
  | .owlWatchdogExpiry => Sys2Proof.Machine.execOwlWatchdogExpiry s
  | .owlCycle => Sys2Proof.Machine.execOwlCycle s
  | .meterOkTimeout a0 => Sys2Proof.Machine.execMeterOkTimeout a0 s
  | .guardInputChange a0 a1 => Sys2Proof.Machine.execGuardInputChange a0 a1 s
  | .guardDisagree a0 a1 => Sys2Proof.Machine.execGuardDisagree a0 a1 s
  | .tripAutoclear a0 a1 => Sys2Proof.Machine.execTripAutoclear a0 a1 s
  | .autoclrExpiry a0 => Sys2Proof.Machine.execAutoclrExpiry a0 s
  | .owlPwProve a0 a1 => Sys2Proof.Machine.execOwlPwProve a0 a1 s
  | .owlPwSet a0 a1 a2 => Sys2Proof.Machine.execOwlPwSet a0 a1 a2 s
  | .owlPwEnd a0 => Sys2Proof.Machine.execOwlPwEnd a0 s
  | .owlTripClear a0 a1 => Sys2Proof.Machine.execOwlTripClear a0 a1 s
  | .owlEfdomSet a0 a1 => Sys2Proof.Machine.execOwlEfdomSet a0 a1 s
  | .owlLogRead a0 a1 => Sys2Proof.Machine.execOwlLogRead a0 a1 s
  | .safetySessionExpiry => Sys2Proof.Machine.execSafetySessionExpiry s
  | .pwLockoutEnd => Sys2Proof.Machine.execPwLockoutEnd s
  | .efdomTransmit a0 => Sys2Proof.Machine.execEfdomTransmit a0 s
  | .efdomFrameReceive a0 a1 => Sys2Proof.Machine.execEfdomFrameReceive a0 a1 s
  | .efdomWatchdogExpiry a0 => Sys2Proof.Machine.execEfdomWatchdogExpiry a0 s
  | .pilotStateAccepted a0 a1 a2 => Sys2Proof.Machine.execPilotStateAccepted a0 a1 a2 s
  | .pilotFaultHold a0 a1 => Sys2Proof.Machine.execPilotFaultHold a0 a1 s
  | .pilotModeTransitionEnd a0 => Sys2Proof.Machine.execPilotModeTransitionEnd a0 s
  | .vlkPilotWrite a0 a1 => Sys2Proof.Machine.execVlkPilotWrite a0 a1 s
  | .proximityCode a0 a1 => Sys2Proof.Machine.execProximityCode a0 a1 s
  | .vlkStart a0 a1 => Sys2Proof.Machine.execVlkStart a0 a1 s
  | .vlkStop a0 a1 a2 => Sys2Proof.Machine.execVlkStop a0 a1 a2 s
  | .vlkUnlock a0 a1 => Sys2Proof.Machine.execVlkUnlock a0 a1 s
  | .releaseRetry a0 => Sys2Proof.Machine.execReleaseRetry a0 s
  | .precloseRetry a0 => Sys2Proof.Machine.execPrecloseRetry a0 s
  | .dcContactorOpen a0 => Sys2Proof.Machine.execDcContactorOpen a0 s
  | .overdraw a0 a1 a2 => Sys2Proof.Machine.execOverdraw a0 a1 a2 s
  | .cmSlacParmReq a0 a1 => Sys2Proof.Machine.execCmSlacParmReq a0 a1 s
  | .cmStartAttenCharInd a0 a1 => Sys2Proof.Machine.execCmStartAttenCharInd a0 a1 s
  | .cmMnbcSoundInd a0 a1 a2 => Sys2Proof.Machine.execCmMnbcSoundInd a0 a1 a2 s
  | .soundingWindowEnd a0 => Sys2Proof.Machine.execSoundingWindowEnd a0 s
  | .cmAttenCharRsp a0 a1 => Sys2Proof.Machine.execCmAttenCharRsp a0 a1 s
  | .attenCharResend a0 => Sys2Proof.Machine.execAttenCharResend a0 s
  | .cmValidateReq a0 a1 a2 => Sys2Proof.Machine.execCmValidateReq a0 a1 a2 s
  | .validationWindowEnd a0 a1 => Sys2Proof.Machine.execValidationWindowEnd a0 a1 s
  | .cmSlacMatchReq a0 a1 => Sys2Proof.Machine.execCmSlacMatchReq a0 a1 s
  | .slacJoined a0 => Sys2Proof.Machine.execSlacJoined a0 s
  | .slacTimeout a0 a1 => Sys2Proof.Machine.execSlacTimeout a0 a1 s
  | .slacLinkLost a0 => Sys2Proof.Machine.execSlacLinkLost a0 s
  | .frameTxTailWrite a0 a1 => Sys2Proof.Machine.execFrameTxTailWrite a0 a1 s
  | .frameRxTailWrite a0 a1 => Sys2Proof.Machine.execFrameRxTailWrite a0 a1 s
  | .frameTransmitted a0 a1 => Sys2Proof.Machine.execFrameTransmitted a0 a1 s
  | .frameTxTimeout a0 => Sys2Proof.Machine.execFrameTxTimeout a0 s
  | .frameReceived a0 a1 => Sys2Proof.Machine.execFrameReceived a0 a1 s
  | .glkBeacon a0 => Sys2Proof.Machine.execGlkBeacon a0 s
  | .ccAssocCnf a0 a1 => Sys2Proof.Machine.execCcAssocCnf a0 a1 s
  | .nekReceived a0 => Sys2Proof.Machine.execNekReceived a0 s
  | .glkAssocTimeout => Sys2Proof.Machine.execGlkAssocTimeout s
  | .glkBackoffExpiry => Sys2Proof.Machine.execGlkBackoffExpiry s
  | .glkBeaconLoss => Sys2Proof.Machine.execGlkBeaconLoss s
  | .glkLeaseRenew => Sys2Proof.Machine.execGlkLeaseRenew s
  | .glkCfgWrite a0 => Sys2Proof.Machine.execGlkCfgWrite a0 s
  | .neighbourExpiry a0 => Sys2Proof.Machine.execNeighbourExpiry a0 s
  | .toneMapReceived a0 a1 => Sys2Proof.Machine.execToneMapReceived a0 a1 s
  | .toneMapTimeout a0 a1 => Sys2Proof.Machine.execToneMapTimeout a0 a1 s
  | .toneMapReestimate a0 => Sys2Proof.Machine.execToneMapReestimate a0 s
  | .sackReceived a0 => Sys2Proof.Machine.execSackReceived a0 s
  | .msduLifetimeExpiry => Sys2Proof.Machine.execMsduLifetimeExpiry s
  | .reassemblyTimeout a0 => Sys2Proof.Machine.execReassemblyTimeout a0 s
  | .glkZcIndSend => Sys2Proof.Machine.execGlkZcIndSend s
  | .glkZcInd a0 a1 => Sys2Proof.Machine.execGlkZcInd a0 a1 s
  | .glkWakeInd a0 => Sys2Proof.Machine.execGlkWakeInd a0 s
  | .wakeInhibitEnd => Sys2Proof.Machine.execWakeInhibitEnd s
  | .ethLinkPoll a0 a1 a2 => Sys2Proof.Machine.execEthLinkPoll a0 a1 a2 s
  | .backhaulFailover => Sys2Proof.Machine.execBackhaulFailover s
  | .ethMdioGo a0 => Sys2Proof.Machine.execEthMdioGo a0 s
  | .ethMdioDone a0 => Sys2Proof.Machine.execEthMdioDone a0 s
  | .secondBoundary => Sys2Proof.Machine.execSecondBoundary s
  | .domainHoldoverExpiry a0 => Sys2Proof.Machine.execDomainHoldoverExpiry a0 s
  | .slewComplete a0 a1 => Sys2Proof.Machine.execSlewComplete a0 a1 s
  | .rtcCalibration a0 => Sys2Proof.Machine.execRtcCalibration a0 s
  | .alarmFire => Sys2Proof.Machine.execAlarmFire s
  | .timSet a0 a1 a2 => Sys2Proof.Machine.execTimSet a0 a1 a2 s
  | .timOffset a0 a1 a2 => Sys2Proof.Machine.execTimOffset a0 a1 a2 s
  | .timSelect a0 a1 => Sys2Proof.Machine.execTimSelect a0 a1 s
  | .timIncWrite a0 a1 => Sys2Proof.Machine.execTimIncWrite a0 a1 s
  | .timAlarmHiWrite a0 => Sys2Proof.Machine.execTimAlarmHiWrite a0 s
  | .timPtpfPop => Sys2Proof.Machine.execTimPtpfPop s
  | .timNowLoRead a0 => Sys2Proof.Machine.execTimNowLoRead a0 s
  | .timDomTsLoRead a0 a1 => Sys2Proof.Machine.execTimDomTsLoRead a0 a1 s
  | .timBcnTsLoRead a0 => Sys2Proof.Machine.execTimBcnTsLoRead a0 s
  | .timStatusRead a0 => Sys2Proof.Machine.execTimStatusRead a0 s
  | .fieldDetection => Sys2Proof.Machine.execFieldDetection s
  | .fullPoll a0 => Sys2Proof.Machine.execFullPoll a0 s
  | .tagHoldExpiry => Sys2Proof.Machine.execTagHoldExpiry s
  | .limpHitExpiry => Sys2Proof.Machine.execLimpHitExpiry s
  | .tagXfer a0 a1 a2 => Sys2Proof.Machine.execTagXfer a0 a1 a2 s
  | .tagRelease a0 => Sys2Proof.Machine.execTagRelease a0 s
  | .tagCachePut a0 a1 => Sys2Proof.Machine.execTagCachePut a0 a1 s
  | .tagCacheDel a0 a1 => Sys2Proof.Machine.execTagCacheDel a0 a1 s
  | .tagCacheGet a0 a1 => Sys2Proof.Machine.execTagCacheGet a0 a1 s
  | .tagCacheClear a0 => Sys2Proof.Machine.execTagCacheClear a0 s
  | .cacheMirror => Sys2Proof.Machine.execCacheMirror s
  | .tagCtSecure a0 => Sys2Proof.Machine.execTagCtSecure a0 s
  | .tagCtOpen a0 => Sys2Proof.Machine.execTagCtOpen a0 s
  | .tagCtPublish a0 a1 => Sys2Proof.Machine.execTagCtPublish a0 a1 s
  | .tagCtAdopt a0 => Sys2Proof.Machine.execTagCtAdopt a0 s
  | .tagRptPop => Sys2Proof.Machine.execTagRptPop s
  | .tagStatusRead a0 => Sys2Proof.Machine.execTagStatusRead a0 s
  | .ctReadBlock a0 a1 => Sys2Proof.Machine.execCtReadBlock a0 a1 s
  | .ctWriteSingleBlock a0 a1 a2 a3 => Sys2Proof.Machine.execCtWriteSingleBlock a0 a1 a2 a3 s
  | .ctGetChallenge => Sys2Proof.Machine.execCtGetChallenge s
  | .ctAuthWrite a0 a1 a2 a3 a4 => Sys2Proof.Machine.execCtAuthWrite a0 a1 a2 a3 a4 s
  | .ctFieldChange a0 a1 a2 => Sys2Proof.Machine.execCtFieldChange a0 a1 a2 s
  | .epdUpdate a0 a1 a2 a3 => Sys2Proof.Machine.execEpdUpdate a0 a1 a2 a3 s
  | .epdFrame => Sys2Proof.Machine.execEpdFrame s
  | .legalDwell => Sys2Proof.Machine.execLegalDwell s
  | .epdTempWrite a0 => Sys2Proof.Machine.execEpdTempWrite a0 s
  | .epdStop => Sys2Proof.Machine.execEpdStop s
  | .crackLoopMeasure a0 a1 => Sys2Proof.Machine.execCrackLoopMeasure a0 a1 s
  | .ledStep a0 => Sys2Proof.Machine.execLedStep a0 s
  | .ledOpen a0 a1 => Sys2Proof.Machine.execLedOpen a0 a1 s
  | .keyUpdate a0 a1 => Sys2Proof.Machine.execKeyUpdate a0 a1 s
  | .keyAttest a0 a1 => Sys2Proof.Machine.execKeyAttest a0 a1 s
  | .keyCertRead a0 => Sys2Proof.Machine.execKeyCertRead a0 s
  | .keyChallenge a0 => Sys2Proof.Machine.execKeyChallenge a0 s
  | .keyMaintProve a0 a1 => Sys2Proof.Machine.execKeyMaintProve a0 a1 s
  | .keyZeroise a0 a1 => Sys2Proof.Machine.execKeyZeroise a0 a1 s
  | .maintGrantExpiry => Sys2Proof.Machine.execMaintGrantExpiry s
  | .maintAuthorityExpiry a0 a1 => Sys2Proof.Machine.execMaintAuthorityExpiry a0 a1 s
  | .tamperDetect a0 => Sys2Proof.Machine.execTamperDetect a0 s
  | .keyCntLoRead a0 => Sys2Proof.Machine.execKeyCntLoRead a0 s
  | .keyStatusRead a0 => Sys2Proof.Machine.execKeyStatusRead a0 s
  | .updBegin a0 a1 => Sys2Proof.Machine.execUpdBegin a0 a1 s
  | .updData a0 a1 a2 => Sys2Proof.Machine.execUpdData a0 a1 a2 s
  | .updEnd a0 => Sys2Proof.Machine.execUpdEnd a0 s
  | .updAbort a0 => Sys2Proof.Machine.execUpdAbort a0 s
  | .updTransferTimeout => Sys2Proof.Machine.execUpdTransferTimeout s
  | .updActivate a0 a1 => Sys2Proof.Machine.execUpdActivate a0 a1 s
  | .updConfirm a0 => Sys2Proof.Machine.execUpdConfirm a0 s
  | .trialPass => Sys2Proof.Machine.execTrialPass s
  | .trialFail a0 => Sys2Proof.Machine.execTrialFail a0 s
  | .badgerWatchdogExpiry => Sys2Proof.Machine.execBadgerWatchdogExpiry s
  | .appHeartbeatTimeout a0 => Sys2Proof.Machine.execAppHeartbeatTimeout a0 s
  | .mgtAmbHbWrite a0 => Sys2Proof.Machine.execMgtAmbHbWrite a0 s
  | .mailboxDoorbell a0 => Sys2Proof.Machine.execMailboxDoorbell a0 s
  | .monitorEvaluate a0 => Sys2Proof.Machine.execMonitorEvaluate a0 s
  | .clockFail a0 => Sys2Proof.Machine.execClockFail a0 s
  | .logArchiveFlush a0 => Sys2Proof.Machine.execLogArchiveFlush a0 s
  | .mgtLogRead a0 a1 a2 => Sys2Proof.Machine.execMgtLogRead a0 a1 a2 s
  | .mgtLogAck a0 a1 => Sys2Proof.Machine.execMgtLogAck a0 a1 s
  | .mgtRestart a0 => Sys2Proof.Machine.execMgtRestart a0 s
  | .sleep a0 a1 => Sys2Proof.Machine.execSleep a0 a1 s
  | .sleepVoteTimeout a0 => Sys2Proof.Machine.execSleepVoteTimeout a0 s
  | .sleepCommit => Sys2Proof.Machine.execSleepCommit s
  | .sleepArm => Sys2Proof.Machine.execSleepArm s
  | .sleepEnter => Sys2Proof.Machine.execSleepEnter s
  | .wakeEvent a0 a1 => Sys2Proof.Machine.execWakeEvent a0 a1 s
  | .modeSet a0 a1 => Sys2Proof.Machine.execModeSet a0 a1 s
  | .limpExit => Sys2Proof.Machine.execLimpExit s
  | .sysWakeWrite a0 => Sys2Proof.Machine.execSysWakeWrite a0 s
  | .sysWakesrcRead a0 => Sys2Proof.Machine.execSysWakesrcRead a0 s
  | .registerWrite a0 a1 a2 => Sys2Proof.Machine.execRegisterWrite a0 a1 a2 s
  | .bufferWrite a0 a1 a2 => Sys2Proof.Machine.execBufferWrite a0 a1 a2 s
  | .hsiTransactionError a0 => Sys2Proof.Machine.execHsiTransactionError a0 s
  | .hsiFrameTimeout => Sys2Proof.Machine.execHsiFrameTimeout s
  | .ctailWrite a0 a1 => Sys2Proof.Machine.execCtailWrite a0 a1 s
  | .hsiReleaseWrite a0 a1 => Sys2Proof.Machine.execHsiReleaseWrite a0 a1 s
  | .resultSlotRead a0 a1 => Sys2Proof.Machine.execResultSlotRead a0 a1 s
  | .badgerCommandTimeout a0 => Sys2Proof.Machine.execBadgerCommandTimeout a0 s
  | .hsiNop a0 a1 => Sys2Proof.Machine.execHsiNop a0 a1 s
  | .canStuck a0 a1 => Sys2Proof.Machine.execCanStuck a0 a1 s
  | .canBusoffRecovery a0 a1 => Sys2Proof.Machine.execCanBusoffRecovery a0 a1 s
  | .canErrorStateChange a0 a1 a2 => Sys2Proof.Machine.execCanErrorStateChange a0 a1 a2 s
  | .powerFailWarning a0 a1 a2 => Sys2Proof.Machine.execPowerFailWarning a0 a1 a2 s
  | .holdupComplete a0 => Sys2Proof.Machine.execHoldupComplete a0 s
  | .rstNAssert a0 => Sys2Proof.Machine.execRstNAssert a0 s
  | .brownout a0 => Sys2Proof.Machine.execBrownout a0 s
  | .vbatPor => Sys2Proof.Machine.execVbatPor s
  | .sysRstreqWrite a0 => Sys2Proof.Machine.execSysRstreqWrite a0 s
  | .requestedReset => Sys2Proof.Machine.execRequestedReset s
  | .warrenActivationComplete => Sys2Proof.Machine.execWarrenActivationComplete s
  | .metFirmwareReloaded => Sys2Proof.Machine.execMetFirmwareReloaded s
  | .badgerReady => Sys2Proof.Machine.execBadgerReady s
  | .ledOvertemp a0 a1 => Sys2Proof.Machine.execLedOvertemp a0 a1 s
  | .fastTapWord a0 a1 => Sys2Proof.Machine.execFastTapWord a0 a1 s
  | .reducedFieldMeasurement a0 => Sys2Proof.Machine.execReducedFieldMeasurement a0 s
  | .modulatorClockReturn a0 => Sys2Proof.Machine.execModulatorClockReturn a0 s

end Sys2Proof.Machine
end

