-- ==== Sys2Proof/Safety.lean ====
section
/-! DEFINITION. What claims use beside the machine itself: the invariant of every state (instance counts, the canonical form
of the byte memories, index and field ranges), the outputs made safe, the frames between two states, and a step that stops. -/

namespace Sys2Proof.Machine

/-! ## Instance counts -/

/-- 40 lanes and 4 resamplers (R79). -/
def LaneBlock.shape (b : LaneBlock) : List Nat := [b.lanes.length, b.rs.length]
/-- 4 outlets and 4 pulse outputs (R119). -/
def MetBlock.shape (b : MetBlock) : List Nat := [b.outs.length, b.pulses.length]
/-- 4 outlets (R152). -/
def BilBlock.shape (b : BilBlock) : List Nat := [b.outs.length]
/-- 12 channels and 4 cable locks (R180). -/
def PwrBlock.shape (b : PwrBlock) : List Nat := [b.ch.length, b.locks.length]
/-- Residual, isolation and weld monitors of 4 outlets (R180). -/
def FltBlock.shape (b : FltBlock) : List Nat := [b.rc.length, b.iso.length, b.weld.length]
/-- Owl's releases and requests of 4 outlets, and 8 Efdom connections (R211). -/
def OwlBlock.shape (b : OwlBlock) : List Nat := [b.released.length, b.requested.length, b.efd.length]
/-- 2 time domains (R273). -/
def TimBlock.shape (b : TimBlock) : List Nat := [b.dom.length]
/-- 256 blocks of the commissioning tag (R291). -/
def TagBlock.shape (b : TagBlock) : List Nat := [b.ct.length]
/-- 160 segments and 12 LED channels (R319). -/
def EpdBlock.shape (b : EpdBlock) : List Nat := [b.segs.length, b.leds.length]
/-- 32 key slots (R330). -/
def KeyBlock.shape (b : KeyBlock) : List Nat := [b.slots.length]
/-- 10 image kinds (R347). -/
def UpdBlock.shape (b : UpdBlock) : List Nat := [b.kinds.length]
/-- 128 result slots, 128 descriptors and 4 DONE registers (R393, R404). -/
def Ring.shape (g : Ring) : List Nat := [g.slots.length, g.desc.length, g.done.length]

/-! ## The invariant -/

/-- A command ring (R393–R395): its counts, 8-bit indices, and its half of exchange memory in canonical form. -/
abbrev Ring.Ok (g : Ring) : Prop :=
  g.shape = [128, 128, 4] ∧ g.head < 256 ∧ g.tail < 256 ∧ memWf g.mem = true

/-- HSI: both rings, and DUMMY within 4–15 cycles (R404). -/
abbrev HsiBlock.Ok (b : HsiBlock) : Prop := b.h.Ok ∧ b.c.Ok ∧ 4 ≤ b.dummy ∧ b.dummy ≤ 15

/-- MGT: at most 512 records in Badger's RAM ring and waiting for Squirrel (R371). -/
abbrev MgtBlock.Ok (b : MgtBlock) : Prop := b.ring.length ≤ 512 ∧ b.waiting ≤ 512

/-- SYS: at most 256 records in the retention buffer (R372); WARN_MV within 5,000–24,000 mV (R427). -/
abbrev SysBlock.Ok (b : SysBlock) : Prop := b.retLog.length ≤ 256 ∧ 5000 ≤ b.warnMv ∧ b.warnMv ≤ 24000

/-- What holds in every state: each array of instances has the count the spec gives, the byte memories are in canonical form,
and the bounded buffers, indices and fields stay within their ranges. -/
abbrev State.Inv (s : State) : Prop :=
  s.lane.shape = [40, 4] ∧ s.met.shape = [4, 4] ∧ s.bil.shape = [4] ∧ s.pwr.shape = [12, 4] ∧ s.flt.shape = [4, 4, 4]
    ∧ s.owl.shape = [4, 4, 8] ∧ s.vlk.length = 4 ∧ s.tim.shape = [2] ∧ s.tag.shape = [256] ∧ s.epd.shape = [160, 12]
    ∧ s.key.shape = [32] ∧ s.upd.shape = [10] ∧ s.can.length = 2 ∧ memWf s.sram = true ∧ s.hsi.Ok ∧ s.mgt.Ok ∧ s.sys.Ok

/-! ## Safe outputs -/

/-- No outlet is released by Owl and no channel conducts (R185, R420). -/
abbrev State.OutputsSafe (s : State) : Prop :=
  s.owl.released = List.replicate 4 false ∧ s.pwr.ch.all (fun c => !c.state.conducts) = true

/-! ## Frames -/

/-- The parts of the state, one for each field that an operation can write. -/
inductive Part where
  | str | lane | met | bil | pwr | flt | owl | vlk | glk | eth | tim | tag | epd | key | upd | sys | mgt | log | hsi | can | sram
  | ticks | freeCtr | result | rdata
  deriving DecidableEq, Repr

/-- The part that holds a port and its rings. -/
def portPart : Port → Part
  | .vlk _ => .vlk
  | .glk => .glk
  | .eth => .eth
  | .can _ => .can

/-- Two states agree in a part. -/
def samePart (q : Part) (a s : State) : Prop :=
  match q with
  | .str => s.str = a.str
  | .lane => s.lane = a.lane
  | .met => s.met = a.met
  | .bil => s.bil = a.bil
  | .pwr => s.pwr = a.pwr
  | .flt => s.flt = a.flt
  | .owl => s.owl = a.owl
  | .vlk => s.vlk = a.vlk
  | .glk => s.glk = a.glk
  | .eth => s.eth = a.eth
  | .tim => s.tim = a.tim
  | .tag => s.tag = a.tag
  | .epd => s.epd = a.epd
  | .key => s.key = a.key
  | .upd => s.upd = a.upd
  | .sys => { s.sys with retLog := [], retLost := false } = { a.sys with retLog := [], retLost := false }
  | .mgt => { s.mgt with seq := 0, ring := [], waiting := 0, dropped := 0 } = { a.mgt with seq := 0, ring := [], waiting := 0, dropped := 0 }
  | .log => (s.sys.retLog, s.sys.retLost, s.mgt.seq, s.mgt.ring, s.mgt.waiting, s.mgt.dropped)
      = (a.sys.retLog, a.sys.retLost, a.mgt.seq, a.mgt.ring, a.mgt.waiting, a.mgt.dropped)
  | .hsi => s.hsi = a.hsi
  | .can => s.can = a.can
  | .sram => s.sram = a.sram
  | .ticks => s.ticks = a.ticks
  | .freeCtr => s.freeCtr = a.freeCtr
  | .result => s.result = a.result
  | .rdata => s.rdata = a.rdata

/-- Nothing but the listed parts differs between `a` and `s`. -/
def OnlyIn (w : List Part) (a s : State) : Prop := ∀ q, q ∉ w → samePart q a s

/-! ## Steps -/

/-- A step that stops: a fault or a refusal. -/
def Stops {σ φ ρ : Type} : Host.Outcome σ φ ρ → Bool
  | .next _ => false
  | .fault _ => true
  | .refused _ => true

end Sys2Proof.Machine
end

