-- ==== Sys2Proof/WellFormed.lean ====
section
/-! DEFINITION. Which commands are well formed: every operand lies in the range that the spec gives it. A ring command's
parameter that the spec answers with a status when it is out of range is checked for its width only (R394, R397). A
command that is not well formed is still total in the machine: the checks say what a sender may send. -/

namespace Sys2Proof

/-- A number below a bound: an instance, a field of the given width. -/
def under (bound n : Nat) : Bool := decide (n < bound)

/-- A TAG names one of the 128 result slots (R394, R398). -/
def reqOk (r : Req) : Bool := under 128 r.tag

/-- A frame interface that the hardware has: four vehicle links, two CAN ports (R235, R407). -/
def portOk : Port → Bool
  | .vlk o => under 4 o
  | .glk => true
  | .eth => true
  | .can c => under 2 c

/-- A LO register of the billing block: outlet 0–3, tariff 0–7 (R126, R152). -/
def biloOk : BilLo → Bool
  | .passAct => true
  | .lastBnd => true
  | .credit => true
  | .timp o t => under 4 o && under 8 t
  | .texp o t => under 4 o && under 8 t
  | .mdTs o t => under 4 o && under 8 t

/-- A byte field of a fixed size. -/
def sized (n : Nat) (b : Bytes) : Bool := b.length == n

/-- The well-formed commands. -/
def Instr.wellFormed (c : Instr) : Bool :=
  match c with
  | .supplyGood _ => true
  | .boot b => under 4 b.cfgDamage && b.damage.all (under 65536)
  | .cacheLoaded => true
  | .warrenActivate r => reqOk r
  | .laneSampleWord lane inp => under 40 lane && under (2 ^ 128) inp.bits
  | .laneStuck lane _ => under 40 lane
  | .laneClkerr lane => under 40 lane
  | .resamplerCycle outlet adj => under 4 outlet && under 256001 adj
  | .detectorUpdate lane _ _ => under 40 lane
  | .firdataWrite lane _ => under 40 lane
  | .firSwap lane => under 40 lane
  | .laneTrialWrite lane _ => under 40 lane
  | .laneCalWrite lane _ _ => under 40 lane
  | .laneSuspect lane => under 40 lane
  | .warmupDecision spare _ _ => under 40 spare
  | .laneSwap spare => under 40 spare
  | .spareFailed spare trigger => under 40 spare && under 256 trigger
  | .laneFailed lane trigger => under 40 lane && under 256 trigger
  | .strikeExpiry lane => under 40 lane
  | .laneRestore r lane => reqOk r && under 256 lane
  | .intervalClose outlet inp => under 4 outlet && inp.accs.all fun f => under 73 f.q
  | .saveComplete => true
  | .snapshotSigned => true
  | .sramScrub _ => true
  | .metCoreReload => true
  | .pulseTimer p => under 4 p
  | .snapctlTake _ => true
  | .calctlStart _ => true
  | .calctlStop => true
  | .energyLoRead _ outlet q => under 4 outlet && under 10 q
  | .harmLoRead _ => true
  | .calAccLoRead _ outlet _ => under 4 outlet
  | .legalEventConfirm _ => true
  | .bilLoRead _ reg => biloOk reg
  | .calLoad r _ => reqOk r
  | .tokenEnter r _ => reqOk r
  | .billSnapRead r index => reqOk r && under 256 index
  | .billReset r => reqOk r
  | .loadProfileRecord => true
  | .tokenMirrorConfirm seq => under 4294967296 seq
  | .lsDemandChange ch => under 12 ch
  | .lsOverload ch _ => under 12 ch
  | .lsInrushEnd ch _ => under 12 ch
  | .lsRetryTimer ch => under 12 ch
  | .lsRetryReset ch => under 12 ch
  | .lsThermalLatch ch _ => under 12 ch
  | .lsLatchAutoclear ch _ => under 12 ch
  | .lsUndervoltage grp _ => under 3 grp
  | .lsUvRecover grp _ => under 3 grp
  | .lsOpenloadOn ch _ => under 12 ch
  | .lsOpenloadDiag ch _ => under 12 ch
  | .pwrClear r ch kind => reqOk r && under 256 ch && under 256 kind
  | .weldClear r outlet => reqOk r && under 256 outlet
  | .limpInputChange _ lhIn => under 256 lhIn
  | .fastTrip lane level => under 40 lane && under 4 level
  | .supervisedDelayExpiry _ lane => under 40 lane
  | .rcEvaluate outlet _ => under 4 outlet
  | .rcTrip outlet row => under 4 outlet && under 6 row
  | .isoStateSwitch outlet _ => under 4 outlet
  | .isoUnknown outlet _ => under 4 outlet
  | .preCloseResult outlet _ => under 4 outlet
  | .postOpenResult outlet _ => under 4 outlet
  | .lockFeedback outlet _ => under 4 outlet
  | .lockTimeout outlet => under 4 outlet
  | .lockRetry outlet => under 4 outlet
  | .owlStartComplete => true
  | .owlDiagFail diag detail => under 12 diag && under 256 detail
  | .owlPeriodicDiag diag _ detail => under 12 diag && under 256 detail
  | .owlSafeTimeout => true
  | .owlWatchdogExpiry => true
  | .owlCycle => true
  | .meterOkTimeout outlet => under 4 outlet
  | .guardInputChange input _ => under 8 input
  | .guardDisagree input levels => under 8 input && under 256 levels
  | .tripAutoclear outlet row => under 4 outlet && under 4 row
  | .autoclrExpiry outlet => under 4 outlet
  | .owlPwProve r _ => reqOk r
  | .owlPwSet r _ _ => reqOk r
  | .owlPwEnd r => reqOk r
  | .owlTripClear r outlet => reqOk r && under 256 outlet
  | .owlEfdomSet r rec => reqOk r && sized 24 rec
  | .owlLogRead r index => reqOk r && under 256 index
  | .safetySessionExpiry => true
  | .pwLockoutEnd => true
  | .efdomTransmit conn => under 8 conn
  | .efdomFrameReceive transport _ => under 5 transport
  | .efdomWatchdogExpiry conn => under 8 conn
  | .pilotStateAccepted outlet _ _ => under 4 outlet
  | .pilotFaultHold outlet _ => under 4 outlet
  | .pilotModeTransitionEnd outlet => under 4 outlet
  | .vlkPilotWrite outlet _ => under 4 outlet
  | .proximityCode outlet _ => under 4 outlet
  | .vlkStart r outlet => reqOk r && under 256 outlet
  | .vlkStop r outlet reason => reqOk r && under 256 outlet && under 256 reason
  | .vlkUnlock r outlet => reqOk r && under 256 outlet
  | .releaseRetry outlet => under 4 outlet
  | .precloseRetry outlet => under 4 outlet
  | .dcContactorOpen outlet => under 4 outlet
  | .overdraw outlet group _ => under 4 outlet && under 3 group
  | .cmSlacParmReq link runId => under 4 link && under 18446744073709551616 runId
  | .cmStartAttenCharInd link runId => under 4 link && under 18446744073709551616 runId
  | .cmMnbcSoundInd link runId _ => under 4 link && under 18446744073709551616 runId
  | .soundingWindowEnd link => under 4 link
  | .cmAttenCharRsp link runId => under 4 link && under 18446744073709551616 runId
  | .attenCharResend link => under 4 link
  | .cmValidateReq link runId _ => under 4 link && under 18446744073709551616 runId
  | .validationWindowEnd link _ => under 4 link
  | .cmSlacMatchReq link runId => under 4 link && under 18446744073709551616 runId
  | .slacJoined link => under 4 link
  | .slacTimeout link _ => under 4 link
  | .slacLinkLost link => under 4 link
  | .frameTxTailWrite p _ => portOk p
  | .frameRxTailWrite p _ => portOk p
  | .frameTransmitted p ts => portOk p && under 4294967296 ts
  | .frameTxTimeout p => portOk p
  | .frameReceived p _ => portOk p
  | .glkBeacon _ => true
  | .ccAssocCnf _ tei => under 256 tei
  | .nekReceived nek => sized 16 nek
  | .glkAssocTimeout => true
  | .glkBackoffExpiry => true
  | .glkBeaconLoss => true
  | .glkLeaseRenew => true
  | .glkCfgWrite _ => true
  | .neighbourExpiry tei => under 256 tei
  | .toneMapReceived tei m => under 256 tei && decide (m.maps.length ≤ 6) && m.maps.all fun x => x.2.length == 533
  | .toneMapTimeout tei _ => under 256 tei
  | .toneMapReestimate tei => under 256 tei
  | .sackReceived _ => true
  | .msduLifetimeExpiry => true
  | .reassemblyTimeout tei => under 256 tei
  | .glkZcIndSend => true
  | .glkZcInd tei x => under 256 tei && under (2 ^ 48) x.mac
  | .glkWakeInd _ => true
  | .wakeInhibitEnd => true
  | .ethLinkPoll _ _ _ => true
  | .backhaulFailover => true
  | .ethMdioGo _ => true
  | .ethMdioDone data => under 65536 data
  | .secondBoundary => true
  | .domainHoldoverExpiry d => under 2 d
  | .slewComplete d _ => under 2 d
  | .rtcCalibration _ => true
  | .alarmFire => true
  | .timSet r d ts => reqOk r && under 256 d && under 18446744073709551616 ts
  | .timOffset r d _ => reqOk r && under 256 d
  | .timSelect r d => reqOk r && under 256 d
  | .timIncWrite d _ => under 2 d
  | .timAlarmHiWrite _ => true
  | .timPtpfPop => true
  | .timNowLoRead _ => true
  | .timDomTsLoRead _ d => under 2 d
  | .timBcnTsLoRead _ => true
  | .timStatusRead _ => true
  | .fieldDetection => true
  | .fullPoll _ => true
  | .tagHoldExpiry => true
  | .limpHitExpiry => true
  | .tagXfer r _ _ => reqOk r
  | .tagRelease r => reqOk r
  | .tagCachePut r _ => reqOk r
  | .tagCacheDel r key => reqOk r && under 18446744073709551616 key
  | .tagCacheGet r key => reqOk r && under 18446744073709551616 key
  | .tagCacheClear r => reqOk r
  | .cacheMirror => true
  | .tagCtSecure r => reqOk r
  | .tagCtOpen r => reqOk r
  | .tagCtPublish r _ => reqOk r
  | .tagCtAdopt r => reqOk r
  | .tagRptPop => true
  | .tagStatusRead _ => true
  | .ctReadBlock block count => under 256 block && under 257 count
  | .ctWriteSingleBlock block _ _ _ => under 256 block
  | .ctGetChallenge => true
  | .ctAuthWrite block _ _ _ _ => under 256 block
  | .ctFieldChange _ _ _ => true
  | .epdUpdate r region flags _ => reqOk r && under 256 region && under 256 flags
  | .epdFrame => true
  | .legalDwell => true
  | .epdTempWrite _ => true
  | .epdStop => true
  | .crackLoopMeasure _ _ => true
  | .ledStep step => under 4 step
  | .ledOpen ch _ => under 12 ch
  | .keyUpdate r _ => reqOk r
  | .keyAttest r nonce => reqOk r && sized 32 nonce
  | .keyCertRead r => reqOk r
  | .keyChallenge r => reqOk r
  | .keyMaintProve r sig => reqOk r && sized 64 sig
  | .keyZeroise r mask => reqOk r && under 4294967296 mask
  | .maintGrantExpiry => true
  | .maintAuthorityExpiry _ _ => true
  | .tamperDetect detector => under 7 detector
  | .keyCntLoRead _ => true
  | .keyStatusRead _ => true
  | .updBegin r _ => reqOk r
  | .updData r offset _ => reqOk r && under 4294967296 offset
  | .updEnd r => reqOk r
  | .updAbort r => reqOk r
  | .updTransferTimeout => true
  | .updActivate r kind => reqOk r && under 256 kind
  | .updConfirm r => reqOk r
  | .trialPass => true
  | .trialFail criterion => under 256 criterion
  | .badgerWatchdogExpiry => true
  | .appHeartbeatTimeout cause => under 3 cause
  | .mgtAmbHbWrite _ => true
  | .mailboxDoorbell _ => true
  | .monitorEvaluate _ => true
  | .clockFail _ => true
  | .logArchiveFlush _ => true
  | .mgtLogRead r start count => reqOk r && under 4294967296 start && under 4294967296 count
  | .mgtLogAck r seq => reqOk r && under 4294967296 seq
  | .mgtRestart r => reqOk r
  | .sleep r target => reqOk r && under 256 target
  | .sleepVoteTimeout _ => true
  | .sleepCommit => true
  | .sleepArm => true
  | .sleepEnter => true
  | .wakeEvent _ _ => true
  | .modeSet r target => reqOk r && under 256 target
  | .limpExit => true
  | .sysWakeWrite _ => true
  | .sysWakesrcRead _ => true
  | .registerWrite _ addr _ => under 16777216 addr
  | .bufferWrite _ off _ => under 131072 off
  | .hsiTransactionError f => under 256 f.opcode && under 16777216 f.addr && under 65536 f.len && under 65536 f.crc
  | .hsiFrameTimeout => true
  | .ctailWrite _ _ => true
  | .hsiReleaseWrite _ _ => true
  | .resultSlotRead _ tag => under 128 tag
  | .badgerCommandTimeout r => reqOk r
  | .hsiNop r _ => reqOk r
  | .canStuck c _ => under 2 c
  | .canBusoffRecovery c _ => under 2 c
  | .canErrorStateChange c tec rec => under 2 c && under 65536 tec && under 65536 rec
  | .powerFailWarning _ mv _ => under 65536 mv
  | .holdupComplete _ => true
  | .rstNAssert _ => true
  | .brownout rail => under 10 rail
  | .vbatPor => true
  | .sysRstreqWrite _ => true
  | .requestedReset => true
  | .warrenActivationComplete => true
  | .metFirmwareReloaded => true
  | .badgerReady => true
  | .ledOvertemp ch _ => under 12 ch
  | .fastTapWord lane x => under 40 lane && under 256 x.bits
  | .reducedFieldMeasurement amp => under 65536 amp
  | .modulatorClockReturn lane => under 40 lane

end Sys2Proof
end

