-- ==== Sys2Proof/Certificates/Slice0/Obligations.lean ====
section
/-! DEFINITION. The statements about the model, for the provers. -/

namespace Sys2Proof.Machine

/-- The command answers a next state, of which `P` holds. -/
def Answers (c : Instr) (s : State) (P : State → Prop) : Prop := ∃ t, exec c s = .next t ∧ P t

/-- The newest record of Badger's RAM ring: its class, its CODE and its data bytes (R369, R371). -/
def Newest (t : State) (c : EvClass) (code : Nat) (data : List (Nat × Nat)) : Prop :=
  (t.mgt.ring.getLast?).map (fun r => (r.ev.cls, r.ev.code, r.ev.data)) = some (c, code, pack data)

/-- The result posted for a ring command: its status, and its bytes (R399). -/
def Posted (t : State) (r : Req) (sts : Nat) (bytes : Bytes) : Prop :=
  t.result = some { req := r, sts := sts, detail := 0, bytes := bytes }

end Sys2Proof.Machine


namespace Sys2Proof.Machine

/-- The frame passes every check of its port (R235, R236, R254, R407, R408), so that it goes to the receive ring; on the grid
link, a whole frame (R249). -/
def Passes (s : State) (f : RxFrame) : Port → Prop
  | .vlk o => (f.mme = true → mmType f.bytes / 4 * 4 ≠ 0x601C ∧ microcodeTypes.contains (mmType f.bytes / 4 * 4) = false)
      ∧ nmkFails s o f = false ∧ f.bad = false
  | .glk => s.glk.assoc = .member ∧ f.sound = false ∧ f.mpdu = none ∧ nekFails s f = false ∧ f.bad = false
      ∧ etherType f.bytes ≠ 0x88B5 ∧ (f.mme = true → mmType f.bytes ≠ 0xA0F0 ∧ mmType f.bytes ≠ 0xA0F4)
  | .eth => s.eth.en = true ∧ f.bad = false ∧ etherType f.bytes ≠ 0x88B5 ∧ 60 ≤ f.bytes.length
  | .can c => canOn (canOf s c) = true ∧ efdomId s c (leAt 0 4 f.bytes) = false
      ∧ canFiltered (canOf s c) (leAt 0 4 f.bytes) = true

end Sys2Proof.Machine

open Sys2Proof Sys2Proof.Machine

/-- A step takes the command at the front of the queue and runs it with the queue's rest (95_what_each_step_holds.md). -/
def Obligations.StepRunsTheFrontCommand : Prop :=
  ∀ (c : Instr) (l : List Instr) (s : State), s.pending = c :: l → step s = exec c { s with pending := l }

/-- On an empty queue one clock period passes (model choice, log 4): only the tick count and the time base change (R259, R260, R263). Where this statement rests on the model's choice and on no rule of the spec: that an idle step is one clock period (log 4). -/
def Obligations.AnIdleStepIsOneTick : Prop :=
  ∀ s : State, s.pending = [] → ∃ t, step s = .next t ∧ t.ticks = s.ticks + 1 ∧ OnlyIn [.tim, .ticks] s t
    ∧ t.pending = [] ∧ t.ident = s.ident
    ∧ (s.sys.mode = .dormant ∨ s.sys.reset.isSome = true → t.tim = s.tim)
    ∧ (s.sys.mode ≠ .dormant → s.sys.reset = none → ∀ d, d < s.tim.dom.length → (domOf s d).slew = 0 →
        domOf t d = { domOf s d with t := (domOf s d).t + (domOf s d).inc })

/-- Every command answers a next state in every state, and leaves the queue and the identity of the device (95_what_each_step_holds.md). -/
def Obligations.EveryCommandAnswersANextState : Prop :=
  ∀ (c : Instr) (s : State), ∃ t, exec c s = .next t ∧ t.pending = s.pending ∧ t.ident = s.ident

/-- The state after reset meets the invariant of every state, with safe outputs and an empty queue (R79, R119, R152, R180, R211, R273, R291, R330, R404). Where this statement rests on the model's choice and on no rule of the spec: the values at reset that no rule gives (log 3). -/
def Obligations.ResetMeetsTheInvariant : Prop :=
  State.reset.Inv ∧ State.reset.OutputsSafe ∧ State.reset.pending = []

/-- Every step keeps the invariant: instance counts, canonical memories, bounded buffers, indices and fields in range (R79, R119, R152, R180, R211, R273, R291, R330, R371, R372, R393, R404). Where this statement rests on the model's choice and on no rule of the spec: the bounds of queues and records that only the model keeps, and the canonical form of its stores (logs 3, 6 and 27). -/
def Obligations.EveryStepKeepsTheInvariant : Prop :=
  ∀ s t : State, s.Inv → step s = .next t → t.Inv

/-- No command but OWL_CYCLE and a change of a hardwired input releases an outlet, and no tick does (R187, R188, R225). -/
def Obligations.OnlyOwlsCycleReleasesAnOutlet : Prop :=
  (∀ (c : Instr) (s t : State), c ≠ .owlCycle → (∀ (o : Nat) (b : Bool), c ≠ .lockFeedback o b) →
    (∀ (g : Nat) (b : Bool), c ≠ .guardInputChange g b) → (∀ g k : Nat, c ≠ .guardDisagree g k) → exec c s = .next t →
    ∀ o, flag t.owl.released o = true → flag s.owl.released o = true)
  ∧ (∀ s t : State, s.pending = [] → step s = .next t → t.owl.released = s.owl.released)

/-- No step lowers a security floor, KEY_COUNTER or the record number, or takes back a life-cycle fuse (R325, R337, R355, R371). -/
def Obligations.SecurityMarksNeverFall : Prop :=
  ∀ s t : State, step s = .next t →
    s.mgt.seq ≤ t.mgt.seq ∧ s.key.counter ≤ t.key.counter
      ∧ (s.key.retiredFuse = true → t.key.retiredFuse = true) ∧ (s.key.leftBlank = true → t.key.leftBlank = true)
      ∧ ∀ k, (s.upd.kinds.getD k Kind.fresh).floor ≤ (t.upd.kinds.getD k Kind.fresh).floor

/-- BOOT ends the reset with its cause, safe outputs and the mode the structure allows (R38, R417, R420, R422, R427). Where this statement rests on the model's choice and on no rule of the spec: the order and the extent of the boot's effects where the rules leave them open (log 23). -/
def Obligations.BootComesUpSafe : Prop :=
  (∀ (s : State) (b : BootInput) (h : ResetHold), s.Inv → s.sys.reset = some h → h.pin = false → s.sys.held = false →
    s.sys.holdup = false →
    Answers (.boot b) s fun t => t.sys.reset = none ∧ t.sys.booted = true ∧ t.OutputsSafe ∧ t.sram = []
      ∧ bitAt t.sys.rstCause (if h.cold then 0 else 1) = true
      ∧ (t.str.noStruct = true → t.sys.mode = .maintenance)
      ∧ (t.str.noStruct = false → t.sys.mode = .ready ∨ t.sys.mode = .session))
  ∧ (∀ (s : State) (b : BootInput), s.sys.reset = none ∨ s.sys.held = true ∨ s.sys.holdup = true →
    exec (.boot b) s = .next s)

/-- A command to an absent outlet, lane or channel, or to Badger while it is down, posts its status and does nothing else (R2, R18, R45, R365, R398). Where this statement rests on the model's choice and on no rule of the spec: what is read back and the shape of a posted result are the model's record (log 6). -/
def Obligations.AbsentAndUnservedCommandsPostOnlyAStatus : Prop :=
  (∀ (s : State) (r : Req) (o k : Nat), o < 4 → declared s o = false →
    exec (.vlkStart r o) s = .next (postSts r stsAbsent s) ∧ exec (.vlkStop r o k) s = .next (postSts r stsAbsent s)
      ∧ exec (.vlkUnlock r o) s = .next (postSts r stsAbsent s) ∧ exec (.owlTripClear r o) s = .next (postSts r stsAbsent s)
      ∧ exec (.weldClear r o) s = .next (postSts r stsAbsent s))
  ∧ (∀ (s : State) (r : Req) (o k : Nat), 3 < o →
    exec (.vlkStart r o) s = .next (postSts r stsLengthRange s) ∧ exec (.vlkStop r o k) s = .next (postSts r stsLengthRange s)
      ∧ exec (.vlkUnlock r o) s = .next (postSts r stsLengthRange s)
      ∧ exec (.owlTripClear r o) s = .next (postSts r stsLengthRange s)
      ∧ exec (.weldClear r o) s = .next (postSts r stsLengthRange s))
  ∧ (∀ (s : State) (r : Req) (k x : Nat), (k < 12 → chDeclared s k = false →
      exec (.pwrClear r k x) s = .next (postSts r stsAbsent s))
    ∧ (11 < k → exec (.pwrClear r k x) s = .next (postSts r stsLengthRange s)))
  ∧ (∀ (s : State) (r : Req) (k x : Nat) (b : Bytes), s.sys.badgerDown = true →
    exec (.warrenActivate r) s = .next (postSts r stsTimeout s) ∧ exec (.laneRestore r k) s = .next (postSts r stsTimeout s)
      ∧ exec (.updBegin r b) s = .next (postSts r stsTimeout s) ∧ exec (.updData r k b) s = .next (postSts r stsTimeout s)
      ∧ exec (.updEnd r) s = .next (postSts r stsTimeout s) ∧ exec (.updAbort r) s = .next (postSts r stsTimeout s)
      ∧ exec (.updActivate r k) s = .next (postSts r stsTimeout s) ∧ exec (.updConfirm r) s = .next (postSts r stsTimeout s)
      ∧ exec (.mgtLogRead r k x) s = .next (postSts r stsTimeout s) ∧ exec (.mgtLogAck r k) s = .next (postSts r stsTimeout s)
      ∧ exec (.mgtRestart r) s = .next (postSts r stsTimeout s) ∧ exec (.sleep r k) s = .next (postSts r stsTimeout s)
      ∧ exec (.modeSet r k) s = .next (postSts r stsTimeout s))
  ∧ (∀ (s : State) (r : Req) (x d : Nat) (b : Bytes), OnlyIn [.hsi, .result] s (post r x d b s))

/-- Each command of a lane and its chain completes with the effect its rule gives the lane (R48, R54, R57, R58, R63, R66, R69). Where this statement rests on the model's choice and on no rule of the spec: what is read back and the shape of a posted result are the model's record (log 6); the choices about lane registers and the lane chain (logs 15, 32 and 33), the lane trigger's number in an event (log 11); an event command is trusted to come when its event happens (log 2). -/
def Obligations.LaneChainCommandsEffect : Prop :=
  (∀ (s : State) (n : Nat) (i : LaneInput), s.Inv → n < 40 →
    Answers (.laneSampleWord n i) s fun t =>
      (delivers s n = false → t = s)
        ∧ (delivers s n = true → (laneOf t n).sample.val.natAbs ≤ 0x7FFFFF
            ∧ (laneOf t n).sample.crc = laneCrc n (laneOf t n).seq (laneOf t n).sample.val
            ∧ ((laneOf s n).trialEnd = false → (laneOf t n).seq = ((laneOf s n).seq + 1) % 4
                ∧ ((laneOf s n).swap = true → (laneOf t n).swap = false
                    ∧ (tapsCrc (inactiveTaps (laneOf s n)) = (laneOf s n).firCrc → (laneOf t n).bankB = !(laneOf s n).bankB)
                    ∧ (tapsCrc (inactiveTaps (laneOf s n)) ≠ (laneOf s n).firCrc →
                        (laneOf t n).bankB = (laneOf s n).bankB ∧ (laneOf t n).crcErr = true)))))
  ∧ (∀ (s : State) (n : Nat) (h : Bool), s.Inv → n < 40 → delivers s n = true →
    Answers (.laneStuck n h) s fun t => (laneOf t n).stuck = true ∧ (laneOf t n).high = h
      ∧ (laneOf t n).overload = true ∧ (laneOf t n).trig.isSome = true)
  ∧ (∀ (s : State) (n : Nat), s.Inv → n < 40 → delivers s n = true →
    Answers (.laneClkerr n) s fun t => (laneOf t n).clkerr = true ∧ (laneOf t n).trig.isSome = true)
  ∧ (∀ (s : State) (n : Nat), s.Inv → n < 40 →
    Answers (.modulatorClockReturn n) s fun t => laneOf t n = { laneOf s n with clkerr := false })
  ∧ (∀ (s : State) (o a : Nat) (r : OutletRec), s.Inv → o < 4 → outletRec s o = some r → r.kind = 1 →
    gridOwner s.str.cur o = o →
    Answers (.resamplerCycle o a) s fun t =>
      let k := (refFunction s.str.cur o).getD 0
      let x := s.lane.rs.getD o Resampler.fresh
      let y := t.lane.rs.getD o Resampler.fresh
      let home := (((laneRec s k).bind fun l => outletRec s l.outlet).map (·.nomMv)).getD r.nomMv
      let c := showCycle r.nomMv home (gridLine s o k) x
      (c.low = true ∨ c.noCross = true → y.state = .nofund ∧ y.freq = r.nomMHz)
        ∧ (c.low = false → c.noCross = false → x.state = .locked → 40000 ≤ x.measured → x.measured ≤ 70000 →
            y.state = .locked ∧ y.freq = towards x.freq x.measured (5000000 / max 1 x.freq)))
  ∧ (∀ (s : State) (n : Nat) (w m : Bool), s.Inv → n < 40 → laneIn s.str.cur n = true →
    Answers (.detectorUpdate n w m) s fun t =>
      (laneOf t n).detGen = ((laneOf s n).detGen + 1) % 2 ^ 16
        ∧ (laneOf t n).env = (if m then (laneOf s n).envAcc else (laneOf s n).env)
        ∧ (w = true → (laneOf t n).peak = (laneOf s n).peakAcc
            ∧ ∀ o, homeOutlet s n = some o → (laneOf t n).rms
                = min (windowRms (freeBit s) (isDc s o) (gridLine s o (functionOf s n))) 0x7FFFFF)
        ∧ (w = false → (laneOf t n).peak = (laneOf s n).peak ∧ (laneOf t n).rms = (laneOf s n).rms))
  ∧ (∀ (s : State) (n : Nat) (w : Word), s.Inv → n < 40 → laneIn s.str.cur n = true → (laneOf s n).firIndex < 64 →
    Answers (.firdataWrite n w) s fun t =>
      ((laneOf s n).trial = true → (laneOf s n).swap = false → (laneOf t n).firIndex = ((laneOf s n).firIndex + 1) % 64
          ∧ activeTaps (laneOf t n) = activeTaps (laneOf s n)
          ∧ (inactiveTaps (laneOf t n)).getD (laneOf s n).firIndex 0 = signedOf 32 w.toNat)
        ∧ ((laneOf s n).trial = false ∨ (laneOf s n).swap = true → laneOf t n = laneOf s n))
  ∧ (∀ (s : State) (n : Nat), s.Inv → n < 40 → laneIn s.str.cur n = true →
    Answers (.firSwap n) s fun t => laneOf t n = { laneOf s n with swap := true })
  ∧ (∀ (s : State) (n : Nat), s.Inv → n < 40 → laneIn s.str.cur n = true →
    homeSession s n = false → s.sys.mode = .maintenance → beingWarmed s n = false →
    Answers (.laneTrialWrite n true) s fun t => laneOf t n = { laneOf s n with trial := true, trialEnd := false })
  ∧ (∀ (s : State) (n : Nat), s.Inv → n < 40 → laneIn s.str.cur n = true → (laneOf s n).trial = true →
    Answers (.laneTrialWrite n false) s fun t => laneOf t n = { laneOf s n with trialEnd := true })
  ∧ (∀ (s : State) (n : Nat) (w : Word), s.Inv → n < 40 → laneIn s.str.cur n = true →
    (laneOf s n).trial = true → 0x200000 ≤ w.toNat % 2 ^ 24 → w.toNat % 2 ^ 24 ≤ 0x7FFFFF →
    Answers (.laneCalWrite n false w) s fun t => laneOf t n = { laneOf s n with gain := w.toNat % 2 ^ 24 })
  ∧ (∀ (s : State) (n : Nat) (w : Word), s.Inv → n < 40 → laneIn s.str.cur n = true →
    (laneOf s n).trial = true → w.toNat % 2 ^ 13 ≤ 4096 →
    Answers (.laneCalWrite n true w) s fun t => laneOf t n = { laneOf s n with delay := w.toNat % 2 ^ 13 })
  ∧ (∀ (s : State) (n : Nat) (w : Word), s.Inv → n < 40 → laneIn s.str.cur n = true →
    w.toNat % 2 ^ 24 < 0x200000 → Answers (.laneCalWrite n false w) s fun t => laneOf t n = laneOf s n)

/-- Each command of the hot spares completes with the effect its rule gives lane and spare (R70, R71, R72, R74, R76, R78). Where this statement rests on the model's choice and on no rule of the spec: what is read back and the shape of a posted result are the model's record (log 6); the choices about spares (log 33). -/
def Obligations.LaneSpareCommandsEffect : Prop :=
  (∀ (s : State) (n : Nat) (k : Trigger), s.Inv → n < 40 → (laneOf s n).trig = some k → serves s n = true →
    Answers (.laneSuspect n) s fun t => (laneOf t n).health = .suspect ∧ (laneOf t n).trig = none)
  ∧ (∀ (s : State) (m : Nat) (u e : Bool) (w : Warmup), s.Inv → w.suspect < 40 →
    s.lane.warm.find? (fun w => w.spare == m && w.decided.isNone) = some w → w.spareTrig = none → w.suspectTrig = false →
    w.suspect = w.lane → w.suspect ≠ m → (laneOf s w.suspect).strikes < 2 → mismatch e w = false →
    Answers (.warmupDecision m u e) s fun t =>
      (laneOf t w.suspect).health = .good ∧ (laneOf t w.suspect).strikes = (laneOf s w.suspect).strikes + 1)
  ∧ (∀ (s : State) (m : Nat) (u e : Bool) (w : Warmup), s.Inv →
    s.lane.warm.find? (fun w => w.spare == m && w.decided.isNone) = some w → w.spareTrig = none → w.suspectTrig = false →
    (laneOf s w.suspect).strikes < 2 → mismatch e w = true →
    Answers (.warmupDecision m u e) s fun t =>
      (∃ x ∈ t.lane.warm, x.spare = m ∧ x.decided = some (3, meanDiff u e w))
        ∧ (∃ x ∈ t.met.subst, x.lane = w.lane ∧ x.spare = m ∧ x.ok = true))
  ∧ (∀ (s : State) (m reason mean : Nat) (w : Warmup), s.Inv → m < 40 → w.lane < s.str.subst.length →
    s.lane.warm.find? (fun w => w.spare == m) = some w → w.decided = some (reason, mean) → w.lane ≠ m → w.suspect ≠ m →
    Answers (.laneSwap m) s fun t => carrier t w.lane = m ∧ (laneOf t m).health = .serving)
  ∧ (∀ (s : State) (m k : Nat), s.Inv → m < 40 → (laneOf s m).health = .idle →
    Answers (.spareFailed m k) s fun t => (laneOf t m).health = .failed
      ∧ (badgerUp s = true → Newest t .service 0x0204 [(1, m), (1, k)]))
  ∧ (∀ (s : State) (n k : Nat), s.Inv → n < 40 → (laneOf s n).health = .suspect →
    Answers (.laneFailed n k) s fun t => laneOf t n = { laneOf s n with health := .failed })
  ∧ (∀ (s : State) (n : Nat), s.Inv → n < 40 →
    Answers (.strikeExpiry n) s fun t => laneOf t n = { laneOf s n with strikes := (laneOf s n).strikes - 1 })
  ∧ (∀ (s : State) (r : Req) (n : Nat), s.Inv → n < 40 → laneIn s.str.cur n = true → laneRole s n = 1 →
    n < s.str.subst.length → s.sys.badgerDown = false → s.sys.mode = .maintenance →
    homeSession s n = false → (laneOf s n).health = .failed →
    Answers (.laneRestore r n) s fun t => Posted t r stsOk [] ∧ (laneOf t n).health = .good ∧ carrier t n = n)
  ∧ (∀ (s : State) (r : Req) (n : Nat), s.Inv → n < 40 → laneIn s.str.cur n = true → laneRole s n = 2 →
    s.sys.badgerDown = false → s.sys.mode = .maintenance → homeSession s n = false → (laneOf s n).health = .failed →
    functionOf s n = n → s.lane.queue = [] →
    Answers (.laneRestore r n) s fun t => Posted t r stsOk [] ∧ (laneOf t n).health = .idle)

/-- Each command of the metrology core completes with the effect its rule gives (R83, R94, R98, R107, R108, R110, R114, R119, R121). Where this statement rests on the model's choice and on no rule of the spec: what is read back and the shape of a posted result are the model's record (log 6); the choices about the energy engine (logs 16, 34 and 35), the opaque signatures and the roundings (logs 17 and 18), the ring entry's moment (log 29); an event command is trusted to come when its event happens (log 2). -/
def Obligations.MeteringCommandsEffect : Prop :=
  (∀ (s : State) (p : Nat), s.Inv → p < 4 →
    Answers (.pulseTimer p) s fun t =>
      ((s.met.pulses.getD p Pulse.fresh).phase = .high → (t.met.pulses.getD p Pulse.fresh).phase = .low
          ∧ (t.met.pulses.getD p Pulse.fresh).backlog = (s.met.pulses.getD p Pulse.fresh).backlog)
        ∧ ((s.met.pulses.getD p Pulse.fresh).phase = .low → (s.met.pulses.getD p Pulse.fresh).backlog = 0 ∨ pulseRuns s p = false →
            (t.met.pulses.getD p Pulse.fresh).phase = .idle)
        ∧ ((s.met.pulses.getD p Pulse.fresh).phase = .low → 0 < (s.met.pulses.getD p Pulse.fresh).backlog →
            pulseRuns s p = true →
            (t.met.pulses.getD p Pulse.fresh).phase = .high
              ∧ (t.met.pulses.getD p Pulse.fresh).backlog + 1 = (s.met.pulses.getD p Pulse.fresh).backlog))
  ∧ (∀ (s : State) (w : Word), s.Inv → field w.toNat 23 8 ≠ 0 →
    Answers (.calctlStart w) s fun t =>
      t.met.calCycles = field w.toNat 23 8 ∧ t.met.calOutlet = field w.toNat 3 2
        ∧ (outletTrial s (field w.toNat 3 2) = true → t.met.calRc = stsOk ∧ t.met.calStart = true ∧ t.met.calDone = 0
            ∧ (field w.toNat 3 2 < 4 → (metOutOf t (field w.toNat 3 2)).calP = 0 ∧ (metOutOf t (field w.toNat 3 2)).calQ = 0))
        ∧ (outletTrial s (field w.toNat 3 2) = false → t.met.calRc = stsState ∧ t.met.calStart = s.met.calStart))
  ∧ (∀ s : State, exec .calctlStop s = .next { s with met := { s.met with calStop := true } })
  ∧ (∀ (s : State) (n : Nat), s.met.run = true →
    exec (.sramScrub n) s = .next { s with mgt := { s.mgt with sramErr := s.mgt.sramErr + n } })
  ∧ (∀ s : State, s.Inv → s.met.run = true →
    Answers .metCoreReload s fun t => t.met.run = false ∧ t.sys.domMet = satInc 8 s.sys.domMet ∧ t.met.saving = none
      ∧ t.met.snapQueue = [] ∧ t.met.snapWait = []
      ∧ ∀ o, (metOutOf t o).acc = MetOutlet.fresh.acc ∧ (metOutOf t o).harm = MetOutlet.fresh.harm)
  ∧ (∀ s : State, s.met.run = false → Answers .metFirmwareReloaded s fun t => t.met.run = true)
  ∧ (∀ (s : State) (n : Nat), badgerUp s = true →
    Answers (.legalEventConfirm n) s fun t =>
      t.met.staging = s.met.staging.drop n ∧ s.mgt.seq + min n s.met.staging.length ≤ t.mgt.seq)
  ∧ (∀ (s : State) (x : Snapshot) (l : List Snapshot) (k : Bytes), s.met.snapQueue = x :: l → meterKey s = some k →
    Answers .snapshotSigned s fun t =>
      t.met.snapQueue = l ++ s.met.snapWait.take 1 ∧ t.met.snapWait = s.met.snapWait.drop 1 ∧ t.met.snapGen = x.gen
        ∧ t.mgt.snapArchive = signBody k x.body s.freeCtr :: s.mgt.snapArchive
        ∧ t.met.snapWin = fit 4096 (signBody k x.body s.freeCtr))
  ∧ (∀ (s : State) (w : Word),
    exec (.snapctlTake w) s = .next { s with met := { s.met with
      snapOutlets := field w.toNat 3 0, snapTake := s.met.snapTake || bitAt w.toNat 8 } })
  ∧ (∀ (s : State) (k : Nat) (r : SaveRec), s.met.saving = some (k, r) →
    exec .saveComplete s = .next { s with met := { s.met with saving := none, slots := put s.met.slots k (some r) } })
  ∧ (∀ (s : State) (v : Side) (o q x : Nat),
    x = (if declared s o then at0 (metOutOf s o).acc q / 2 ^ 16 % 2 ^ 64 else 0) →
    exec (.energyLoRead v o q) s = .next { onMet (fun b => { b with
      latch := put b.latch (sideIx v) (some (.energy o q, x / 2 ^ 32)) }) s with rdata := x % 2 ^ 32 })
  ∧ (∀ (s : State) (v : Side) (x : Nat),
    x = (if isAc s s.met.harmOutlet then
      unsignedOf 64 ((metOutOf s s.met.harmOutlet).harm.getD (s.met.harmOrder - 1) 0 / 2 ^ 16) else 0) →
    exec (.harmLoRead v) s = .next { onMet (fun b => { b with
      latch := put b.latch (sideIx v) (some (.harm, x / 2 ^ 32)) }) s with rdata := x % 2 ^ 32 })
  ∧ (∀ (s : State) (v : Side) (o x : Nat) (b : Bool),
    x = (if declared s o then unsignedOf 64 (if b then (metOutOf s o).calQ else (metOutOf s o).calP) else 0) →
    exec (.calAccLoRead v o b) s = .next { onMet (fun m => { m with
      latch := put m.latch (sideIx v) (some (.cal o b, x / 2 ^ 32)) }) s with rdata := x % 2 ^ 32 })
  ∧ (∀ (s : State) (o : Nat) (i : IntervalInput), s.Inv → o < s.owl.meterOk.length → o < s.owl.meterLost.length →
    s.met.run = true → s.met.stopped = false → declared s o = true →
    Answers (.intervalClose o i) s fun t =>
      flag t.owl.meterOk o = !(metOutOf t o).nometer ∧ flag t.owl.meterLost o = false
        ∧ (t.lane.rs.getD o Resampler.fresh).fill = 0)
  ∧ (∀ (s : State) (o : Nat) (i : IntervalInput) (r : OutletRec) (c : Contribution), s.Inv → s.met.run = true →
    s.met.stopped = false → outletRec s o = some r → o < 4 → i.accs = [] → (metOutOf s o).nometer = false →
    (metOutOf s o).inTrial = false → outletTrial s o = false → c = totals (groupResults s r i) →
    Answers (.intervalClose o i) s fun t => (metOutOf t o).acc = (List.range 10).map fun q =>
      (at0 (metOutOf s o).acc q
        + at0 (increments (r.kind == 2) (((meterRec s o).map (·.cableUohm)).getD 0) c.p c.q c.s c.loss) q) % 2 ^ 80)

/-- Each billing command completes with the effect its rule gives (R127, R130, R136, R141, R142, R146, R147, R149, R151, R152). Where this statement rests on the model's choice and on no rule of the spec: what is read back and the shape of a posted result are the model's record (log 6); the choices about tariffs, billing and prepayment (logs 7 and 36), the opaque token functions (log 17); an event command is trusted to come when its event happens (log 2). -/
def Obligations.BillingCommandsEffect : Prop :=
  (∀ (s : State) (r : Req) (b : Bytes),
    Answers (.calLoad r b) s fun t =>
      match (calRows s b).find? (·.2.1) with
      | none => Posted t r stsOk [] ∧ (billCtl t).highestSeq = (calendarOf b).seq
          ∧ ((billCtl s).activeSlot ≠ some 0 → 0 < s.bil.cals.length → passiveCal t = some (calendarOf b))
      | some row => Posted t r row.2.2.1 [] ∧ t.bil.cals = s.bil.cals ∧ t.bil.ctl = s.bil.ctl)
  ∧ (∀ (s : State) (r : Req) (d : Bytes),
    Answers (.tokenEnter r d) s fun t =>
      Posted t r t.bil.tokRc []
        ∧ (t.bil.tokRc = stsOk → t.bil.tokenNext = s.bil.tokenNext + 1
            ∧ ∃ e, t.bil.tokens.getLast? = some e ∧ e.seq = s.bil.tokenNext)
        ∧ (t.bil.tokRc ≠ stsOk → t.bil.tokens = s.bil.tokens ∧ t.bil.tokenNext = s.bil.tokenNext
            ∧ t.bil.replay = s.bil.replay ∧ t.bil.credit = s.bil.credit))
  ∧ (∀ (s : State) (r : Req) (d : Bytes) (n cls sub tid amount : Nat) (k : KeySlot), tokenNumber d = some n → n < 2 ^ 66 →
    s.key.lc ≠ .retired → decoderKey s = some k → Config.tokenOpen k.material k.param n = some (cls, sub, tid, amount) →
    tid < 2 ^ 24 → (cls = 0 ∧ sub = 0) ∨ (cls = 2 ∧ sub = 1) → prepayMask s ≠ 0 → (unconfirmed s).length < 64 →
    s.bil.replay.any (·.tid == tid) = false → (billCtl s).tidFloor < tid →
    s.bil.replay.length < 16384 ∨ oldestTid s ≤ tid →
    timeValid s = false ∨ tid ≤ minutesSince s (Config.base2014 k.param) + 1440 →
    creditAfter cls amount s.bil.credit ≤ 1000000000000 →
    Answers (.tokenEnter r d) s fun t => Posted t r stsOk [] ∧ t.bil.tokRc = stsOk ∧ t.bil.tokReason = 0
      ∧ t.bil.credit = creditAfter cls amount s.bil.credit ∧ t.bil.tokenNext = s.bil.tokenNext + 1
      ∧ (∃ e, t.bil.tokens.getLast? = some e ∧ e.seq = s.bil.tokenNext ∧ e.cls = cls ∧ e.sub = sub ∧ e.tid = tid ∧ e.ok = true)
      ∧ t.bil.replay.getLast? = some { tid := tid, sub := sub, cls := cls }
      ∧ t.bil.lastTokenS = nowSec s)
  ∧ (∀ (s : State) (r : Req) (i : Nat) (x : RingSlot), i < (billCtl s).snapCount → x.state = .signed →
    s.bil.ring[((billCtl s).snapNext + 23 - i) % 24]? = some x →
    Answers (.billSnapRead r i) s fun t => Posted t r stsOk x.bytes ∧ t.bil = s.bil)
  ∧ (∀ (s : State) (r : Req), s.sys.mode = .maintenance → (billCtl s).lastBoundary < nowTs s →
    Answers (.billReset r) s fun t => Posted t r stsOk [] ∧ t.bil = { s.bil with resetDue := true })
  ∧ (∀ (s : State) (o : Nat), s.Inv → o < 4 → declared s o = true →
    Answers .loadProfileRecord s fun t =>
      (bilOutOf t o).profFlags = 0
        ∧ (badgerUp s = false → (bilOutOf t o).profQueue.length = min 96 ((bilOutOf s o).profQueue.length + 1)))
  ∧ (∀ (s : State) (k : Nat), (billCtl s).mirroredSeq < k → k < s.bil.tokenNext →
    Answers (.tokenMirrorConfirm k) s fun t =>
      (billCtl t).mirroredSeq = k
        ∧ t.bil.mirror = s.bil.mirror.write (s.bil.replay.filter fun e =>
            !((s.bil.tokens.filter fun x => decide (k < x.seq)).map (·.tid)).contains e.tid))
  ∧ (∀ (s : State) (v : Side) (g : BilLo),
    exec (.bilLoRead v g) s = .next { onBil (fun b => { b with
      latch := put b.latch (sideIx v) (some (g, bilPair s g / 2 ^ 32)) }) s with rdata := bilPair s g % 2 ^ 32 })

/-- Each command of a load-switch channel completes with the state change of its row (R156, R157, R158, R159, R160, R161). Where this statement rests on the model's choice and on no rule of the spec: what is read back and the shape of a posted result are the model's record (log 6); an event command is trusted to come when its event happens (log 2). -/
def Obligations.LoadSwitchCommandsEffect : Prop :=
  (∀ (s : State) (k : Nat), s.Inv → k < 12 →
    Answers (.lsDemandChange k) s fun t =>
      ((chOf s k).state = .off → (chOf t k).state = if demand s k && s.owl.ran then .inrush else .off)
        ∧ ((chOf s k).state.conducts = true ∨ (chOf s k).state = .retryWait →
            (chOf t k).state = if demand s k then (chOf s k).state else .off)
        ∧ ((chOf s k).state = .uvOff ∨ (chOf s k).state = .latched ∨ (chOf s k).state = .fault → t = s))
  ∧ (∀ (s : State) (k : Nat) (cur : Int), s.Inv → k < 12 → (chOf s k).state.conducts = true →
    Answers (.lsOverload k cur) s fun t =>
      (chOf t k).state = (if chRetries s k < (chOf s k).retries + 1 then .fault else .retryWait)
        ∧ (chOf t k).retries = min 15 ((chOf s k).retries + 1) ∧ (chOf t k).cur = 0
        ∧ (chOf t k).overloads = satInc 16 (chOf s k).overloads)
  ∧ (∀ (s : State) (k : Nat) (cur : Int), s.Inv → k < 12 → (chOf s k).state = .inrush →
    Answers (.lsInrushEnd k cur) s fun t =>
      (10 * cur ≤ 13 * chRated k → ((chOf t k).state = if demand s k then .on else .off)
            ∧ (demand s k = true → (chOf t k).cur = limited k cur))
        ∧ (13 * chRated k < 10 * cur → t = s))
  ∧ (∀ (s : State) (k : Nat), s.Inv → k < 12 → (chOf s k).state = .retryWait →
    Answers (.lsRetryTimer k) s fun t => (chOf t k).state = if demand s k then .inrush else .off)
  ∧ (∀ (s : State) (k : Nat), s.Inv → k < 12 → (chOf s k).state = .on →
    Answers (.lsRetryReset k) s fun t => chOf t k = { chOf s k with retries := 0, exceeded := false })
  ∧ (∀ (s : State) (k : Nat) (x : Int), s.Inv → k < 12 → chDeclared s k = true → (chOf s k).state ≠ .latched → 1700 ≤ x →
    Answers (.lsThermalLatch k x) s fun t =>
      chOf t k = { chOf s k with state := .latched, cur := 0, temp := satSigned 16 x,
                                    thermal := satInc 8 (chOf s k).thermal })
  ∧ (∀ (s : State) (k : Nat) (x : Int), s.Inv → k < 12 → (chOf s k).state = .latched →
    (switchRec s k).any (·.thermAutoclr) = true →
    Answers (.lsLatchAutoclear k x) s fun t =>
      (x < 1500 → (chOf t k).state = if underGroup s k then .uvOff else if (chOf s k).exceeded then .fault
        else if demand s k && s.owl.ran then .inrush else .off)
      ∧ (1500 ≤ x → (chOf t k).state = .latched ∧ (chOf t k).temp = satSigned 16 x))
  ∧ (∀ (s : State) (k : Nat) (cur : Int), s.Inv → k < 12 → openloadOn s k true = true → (chOf s k).state = .on →
    Answers (.lsOpenloadOn k cur) s fun t =>
      (chOf t k).openOn = if cur < (if k < 8 then 10 else 30) then true
        else if 2 * (if k < 8 then 10 else 30) < cur then false else (chOf s k).openOn)
  ∧ (∀ (s : State) (k mv : Nat), s.Inv → k < 12 → openloadOn s k false = true → diagDriven (chOf s k).state = true →
    s.sys.mode ≠ .dormant →
    Answers (.lsOpenloadDiag k mv) s fun t =>
      (chOf t k).openOff = if 3000 < mv then true else if mv < 3000 then false else (chOf s k).openOff)
  ∧ (∀ (s : State) (r : Req) (k : Nat), s.Inv → k < 12 → chDeclared s k = true → (chOf s k).state = .latched →
    (chOf s k).temp < 1500 →
    Answers (.pwrClear r k 1) s fun t => Posted t r stsOk [] ∧
      (chOf t k).state = if underGroup s k then .uvOff else if (chOf s k).exceeded then .fault
        else if demand s k && s.owl.ran then .inrush else .off)
  ∧ (∀ (s : State) (r : Req) (k : Nat), s.Inv → k < 12 → chDeclared s k = true → (chOf s k).state = .fault →
    Answers (.pwrClear r k 2) s fun t => Posted t r stsOk [] ∧ (chOf t k).retries = 0 ∧ (chOf t k).exceeded = false
      ∧ (chOf t k).state = if demand s k && s.owl.ran then .inrush else .off)

/-- A supply group in undervoltage turns its channels off, its recovery ends that, and limp inputs settle every channel (R157, R161, R163). Where this statement rests on the model's choice and on no rule of the spec: an event command is trusted to come when its event happens (log 2). -/
def Obligations.SupplyGroupAndLimpInputEffect : Prop :=
  (∀ (s : State) (g mv : Nat), s.Inv → g < 3 → g < s.pwr.grpUv.length → flag s.pwr.grpUv g = false → mv < 8000 →
    Answers (.lsUndervoltage g mv) s fun t => flag t.pwr.grpUv g = true ∧
      ∀ k, k < 12 → k / 4 = g → chDeclared s k = true → (chOf s k).state ≠ .latched → (chOf t k).state = .uvOff)
  ∧ (∀ (s : State) (g mv : Nat), s.Inv → g < 3 → flag s.pwr.grpUv g = true → 8500 ≤ mv →
    Answers (.lsUvRecover g mv) s fun t => flag t.pwr.grpUv g = false ∧
      ∀ k, k < 12 → k / 4 = g → (chOf t k).state ≠ .uvOff)
  ∧ (∀ (s : State) (low : Bool) (lh : Nat), s.Inv →
    Answers (.limpInputChange low lh) s fun t => t.pwr.limpLow = low ∧ t.pwr.lhIn = lh % 16 ∧
      ∀ k, k < 12 → ((chOf t k).state.conducts = true → demand t k = true)
        ∧ ((chOf t k).state = .off → demand t k = false ∨ t.owl.ran = false))

/-- Fast taps, residual current and isolation complete with the trip or the measurement their rules give (R165, R166, R168, R169, R170, R171, R173, R174). Where this statement rests on the model's choice and on no rule of the spec: what is read back and the shape of a posted result are the model's record (log 6); the tap words that are compared and the roundings (logs 18 and 37); an event command is trusted to come when its event happens (log 2). -/
def Obligations.ProtectionCommandsEffect : Prop :=
  (∀ (s : State) (n f k : Nat) (r : LaneRec) (l : Level) (o : Nat), s.Inv → delivers s n = true → tapFunction s n = some f →
    laneRec s f = some r → r.role = 1 → r.qty ≠ 3 → (laneLevels s f)[k]? = some l → l.fast = true →
    levelCode s l ≤ (laneOf s n).tap.natAbs →
    o < 4 → o < s.owl.causes.length → declared s o = true → Nat.land l.mask (outputsOf s o) ≠ 0 →
    Answers (.fastTrip n k) s fun t => bitAt (at0 t.owl.causes o) (kindCause l.kind) = true)
  ∧ (∀ (s : State) (n f b : Nat) (r : LaneRec) (l : Level) (o : Nat), s.Inv → n < 40 → delivers s n = true →
    tapFunction s n = some f →
    laneRec s f = some r → r.role = 1 → r.qty ≠ 3 → l ∈ laneLevels s f → l.fast = true →
    o < 4 → o < s.owl.causes.length → declared s o = true → Nat.land l.mask (outputsOf s o) ≠ 0 →
    Answers (.fastTapWord n { bits := b, parityBad := false }) s fun t => (laneOf t n).tap.natAbs ≤ 0x7FFF
      ∧ ((laneOf s n).clkerr = true → (laneOf t n).tap = 0x7FFF)
      ∧ ((laneOf s n).clkerr = false → (laneOf s n).overload = true ∨ (laneOf s n).stuck = true →
          (laneOf t n).tap = if (laneOf s n).high then 0x7FFF else -0x7FFF)
      ∧ (levelCode s l ≤ (laneOf t n).tap.natAbs → bitAt (at0 t.owl.causes o) (kindCause l.kind) = true))
  ∧ (∀ (s : State) (n f b : Nat) (r : LaneRec) (l : Level) (i : Nat), s.Inv → delivers s n = true → tapFunction s n = some f →
    laneRec s f = some r → r.role = 1 → r.qty ≠ 3 → l ∈ laneLevels s f → l.fast = false → i ∈ levelRelations s l →
    Answers (.fastTapWord n { bits := b, parityBad := false }) s fun t =>
      (levelCode s l ≤ (laneOf t n).tap.natAbs → i ∈ t.flt.supTrue)
        ∧ ((laneOf t n).tap.natAbs < levelCode s l → n = carrier s f → i ∉ t.flt.supTrue))
  ∧ (∀ (s : State) (o : Nat) (ws : List Int), s.Inv → o < 4 → isAc s o = true → ws ≠ [] →
    Answers (.rcEvaluate o ws) s fun t => ∀ x ∈ rcLevels.zipIdx,
      at0 (t.flt.rc.getD o Residual.fresh).held x.2 =
        if x.1.1 ≤ (if x.2 < 3 then (t.flt.rc.getD o Residual.fresh).idc.natAbs else (t.flt.rc.getD o Residual.fresh).iac)
        then at0 (s.flt.rc.getD o Residual.fresh).held x.2 + 1 else 0)
  ∧ (∀ (s : State) (o k c h : Nat), s.Inv → o < 4 → o < s.owl.causes.length → isAc s o = true → rcLevels[k]? = some (c, h) →
    h ≤ at0 (s.flt.rc.getD o Residual.fresh).held k → outputsOf s o ≠ 0 →
    Answers (.rcTrip o k) s fun t =>
      bitAt (at0 t.owl.causes o) (if k < 3 then 3 else 4) = true
        ∧ (if k < 3 then (t.flt.rc.getD o Residual.fresh).dcTrip else (t.flt.rc.getD o Residual.fresh).acTrip) = true)
  ∧ (∀ (s : State) (o : Nat) (i : IsoInput), s.Inv → o < 4 → isDc s o = true →
    Answers (.isoStateSwitch o i) s fun t =>
      (t.flt.iso.getD o Iso.fresh).injN = !(s.flt.iso.getD o Iso.fresh).injN
        ∧ ((i.vp - i.vn).natAbs < 50000 → (t.flt.iso.getD o Iso.fresh).state = .novolt
            ∧ (t.flt.iso.getD o Iso.fresh).riso = 0))
  ∧ (∀ (s : State) (o : Nat) (u : Int), s.Inv → o < 4 → isDc s o = true → 50000 ≤ u.natAbs →
    (s.flt.iso.getD o Iso.fresh).state ≠ .unknown →
    Answers (.isoUnknown o u) s fun t => (t.flt.iso.getD o Iso.fresh).state = .unknown
      ∧ (badgerUp s = true → Newest t .safety 0x080A [(1, o), (4, unsignedOf 32 u)]))

/-- The weld checks and the cable lock complete with the result or the state their rules give (R175, R176, R177, R178, R180). Where this statement rests on the model's choice and on no rule of the spec: what is read back and the shape of a posted result are the model's record (log 6); the check repeated in a validation window (log 38); an event command is trusted to come when its event happens (log 2). -/
def Obligations.WeldAndLockCommandsEffect : Prop :=
  (∀ (s : State) (o : Nat) (i : WeldInput) (x : WeldResult × Nat × Nat × Nat), s.Inv → o < 4 →
    o < s.owl.cfg.get.held.length → weldResult s o false i = some x →
    Answers (.preCloseResult o i) s fun t =>
      (t.flt.weld.getD o Weld.fresh).result = x.1 ∧ (t.flt.weld.getD o Weld.fresh).postOpen = false
        ∧ ((t.flt.weld.getD o Weld.fresh).preOpen = true ↔ x.1 = .isOpen) ∧ (x.1 = .welded → held t o = true))
  ∧ (∀ (s : State) (o : Nat), s.Inv → o < 4 → (linkOf s o).phase = .preCloseWait →
    Answers (.precloseRetry o) s fun t => (linkOf t o).phase = .preClose)
  ∧ (∀ (s : State) (o : Nat) (i : WeldInput) (x : WeldResult × Nat × Nat × Nat), s.Inv → o < 4 →
    o < s.owl.cfg.get.held.length → o < s.owl.weldSeen.length → weldResult s o true i = some x →
    Answers (.postOpenResult o i) s fun t =>
      (t.flt.weld.getD o Weld.fresh).result = x.1 ∧ (t.flt.weld.getD o Weld.fresh).postOpen = true
        ∧ (x.1 = .welded → held t o = true) ∧ (x.1 ≠ .welded → flag t.owl.weldSeen o = true))
  ∧ (∀ (s : State) (r : Req) (o : Nat), s.Inv → o < 4 → declared s o = true → s.sys.mode = .maintenance →
    held s o = true → (s.flt.weld.getD o Weld.fresh).preOpen = true →
    Answers (.weldClear r o) s fun t => Posted t r stsOk [] ∧ held t o = false)
  ∧ (∀ (s : State) (o k : Nat) (b : Bool), s.Inv → o < 4 → lockChannel s o = some k → (lockOf s o).state = .none →
    (s.owl.state = .run → (linkOf s o).startHeld = false ∧ (linkOf s o).ending = false) →
    Answers (.lockFeedback o b) s fun t => (lockOf t o).fb = b ∧ (lockOf t o).state = if b then .unlocking else .unlocked)
  ∧ (∀ (s : State) (o k : Nat), s.Inv → o < 4 → lockChannel s o = some k → (lockOf s o).state = .locked →
    (s.owl.state = .run → (linkOf s o).startHeld = false ∧ (linkOf s o).ending = false) →
    Answers (.lockFeedback o false) s fun t => (lockOf t o).fb = false ∧ (lockOf t o).state = .lockLost)
  ∧ (∀ (s : State) (o k : Nat), s.Inv → o < 4 → lockChannel s o = some k → (lockOf s o).state = .unlocking →
    (s.owl.state = .run → (linkOf s o).startHeld = false ∧ (linkOf s o).ending = false) →
    Answers (.lockFeedback o false) s fun t => (lockOf t o).fb = false ∧ (lockOf t o).state = .unlocked)
  ∧ (∀ (s : State) (o k : Nat), s.Inv → o < 4 → lockChannel s o = some k → (lockOf s o).state = .locking →
    (lockOf s o).pause = false →
    Answers (.lockTimeout o) s fun t =>
      ((lockOf s o).second = true → (lockOf t o).state = .lockFail)
        ∧ ((lockOf s o).second = false → (lockOf t o).state = .locking ∧ (lockOf t o).pause = true))
  ∧ (∀ (s : State) (o k : Nat), s.Inv → o < 4 → lockChannel s o = some k → (lockOf s o).state = .unlocking →
    Answers (.lockTimeout o) s fun t => (lockOf t o).state = .lockStuck)
  ∧ (∀ (s : State) (o : Nat), s.Inv → o < 4 → (lockOf s o).state = .locking → (lockOf s o).pause = true →
    Answers (.lockRetry o) s fun t => (lockOf t o).state = .locking ∧ (lockOf t o).second = true ∧ (lockOf t o).pause = false)

/-- Owl's cycle, trips, guards, diagnostics and states complete with the effect their rules give (R184, R185, R187, R188, R189, R191, R194, R195, R196). Where this statement rests on the model's choice and on no rule of the spec: the diagnosis number 3 of a watchdog cause and the other codes and orders the rules leave open (log 8); what is read back and the shape of a posted result are the model's record (log 6); an event command is trusted to come when its event happens (log 2). -/
def Obligations.OwlSafetyCommandsEffect : Prop :=
  (∀ (s : State) (k n o : Nat) (p : TripRec), s.Inv → s.str.cur.trips[k]? = some p → s.owl.state = .run →
    p.delay ≠ 0 → relationTrue s k p = true → latched s p = false → o < 4 → o < s.owl.causes.length → declared s o = true →
    Nat.land p.mask (outputsOf s o) ≠ 0 →
    Answers (.supervisedDelayExpiry k n) s fun t => bitAt (at0 t.owl.causes o) (relationCause s p) = true ∧ latched t p = true)
  ∧ (∀ s : State, s.Inv →
    Answers .owlCycle s fun t =>
      (s.owl.state = .run →
        (∀ g, bitAt s.owl.guardOpen g = true → bitAt t.owl.proof.seen g = true)
          ∧ (∀ o, flag t.owl.released o = true → flag s.owl.released o = true ∨ flag s.owl.requested o = true)
          ∧ (s.sys.pfail = true → ∀ o, declared s o = true → flag t.owl.released o = false))
        ∧ (s.owl.state ≠ .run → t.owl.released = s.owl.released))
  ∧ (∀ (s : State) (o : Nat), o < s.owl.meterLost.length →
    Answers (.meterOkTimeout o) s fun t => flag t.owl.meterLost o = true)
  ∧ (∀ (s : State) (g : Nat) (b : Bool), s.Inv → (guardRec s g).isSome = true →
    Answers (.guardInputChange g b) s fun t => bitAt t.owl.guardOpen g = b
      ∧ (b = false → bitAt t.owl.guardDis g = false)
      ∧ (b = true → s.owl.state = .run → bitAt t.owl.proof.seen g = true))
  ∧ (∀ (s : State) (g l : Nat), s.Inv → (guardRec s g).isSome = true → bitAt s.owl.guardDis g = false →
    Answers (.guardDisagree g l) s fun t => bitAt t.owl.guardOpen g = true ∧ bitAt t.owl.guardDis g = true)
  ∧ (∀ (s : State) (o : Nat), s.Inv → s.owl.state = .run → declared s o = true → contactorsOff s o = true →
    (Answers (.tripAutoclear o 2) s fun t => ∀ c, c = 6 ∨ c = 7 → causeTrue s o c = false →
        bitAt (at0 t.owl.causes o) c = false)
      ∧ (linked s o = true → (linkOf s o).cp = .a → autoclr s o < 3 →
          Answers (.tripAutoclear o 3) s fun t => ∀ c, c < 6 → causeTrue s o c = false →
            bitAt (at0 t.owl.causes o) c = false))
  ∧ (∀ (s : State) (o : Nat), s.Inv → Answers (.autoclrExpiry o) s fun t => autoclr t o = autoclr s o - 1)
  ∧ (∀ (s : State) (r : Req) (o : Nat), s.Inv → o < 4 → declared s o = true → s.key.lc ≠ .retired → autoclr s o < 3 →
    at0 s.owl.causes o ≠ 0 → (∀ c, c < 9 → causeTrue s o c = false) → contactorsOff s o = true →
    Answers (.owlTripClear r o) s fun t => Posted t r stsOk [] ∧ ∀ c, c < 9 → bitAt (at0 t.owl.causes o) c = false)
  ∧ (∀ (s : State) (d x : Nat), s.Inv → s.owl.state = .start ∨ s.owl.state = .run → d < 12 →
    Answers (.owlDiagFail d x) s fun t => (t.owl.state = .safe ∨ t.owl.state = .halt) ∧ bitAt t.owl.diag d = true
      ∧ ∀ o, flag t.owl.released o = false)
  ∧ (∀ (s : State) (d x : Nat), s.Inv → s.owl.state = .run → d < 12 →
    (Answers (.owlPeriodicDiag d true x) s fun t => t.owl.state = .run ∧ t.owl.released = s.owl.released
        ∧ t.owl.oscBad = (s.owl.oscBad && decide (d ≠ 4)) ∧ t.owl.supplyBad = (s.owl.supplyBad && decide (d ≠ 5)))
      ∧ (d ≠ 11 → Answers (.owlPeriodicDiag d false x) s fun t =>
          (t.owl.state = .safe ∨ t.owl.state = .halt) ∧ bitAt t.owl.diag d = true ∧ ∀ o, flag t.owl.released o = false)
      ∧ (bitAt x 0 = true → bitAt x 1 = true → Answers (.owlPeriodicDiag 11 false x) s fun t =>
          (t.owl.state = .safe ∨ t.owl.state = .halt) ∧ bitAt t.owl.diag 11 = true ∧ (∀ o, flag t.owl.released o = false)
            ∧ (∀ o, o < 4 → held t o = true) ∧ (owlCfg t).verifier = none))
  ∧ (∀ s : State, s.Inv → s.owl.state = .start ∨ s.owl.state = .run →
    Answers .owlWatchdogExpiry s fun t => (t.owl.state = .safe ∨ t.owl.state = .halt) ∧ t.owl.watchdogBad = true
      ∧ bitAt t.owl.diag 3 = true ∧ ∀ o, flag t.owl.released o = false)
  ∧ (∀ s : State, s.Inv → s.owl.state = .safe →
    Answers .owlSafeTimeout s fun t => t.owl.state = .start ∧ t.sys.domOwl = satInc 8 s.sys.domOwl
      ∧ t.owl.session = none ∧ ∀ o, flag t.owl.released o = false)
  ∧ (∀ s : State, s.Inv → s.owl.state = .start →
    Answers .owlStartComplete s fun t => t.owl.state = .run ∧ t.owl.ran = true ∧ t.owl.released = s.owl.released)

/-- The safety password, its session and the safety change log answer as their rules say (R199, R201, R202, R203, R210). Where this statement rests on the model's choice and on no rule of the spec: what is read back and the shape of a posted result are the model's record (log 6); the opaque check of a signature (log 17). -/
def Obligations.SafetyPasswordCommandsEffect : Prop :=
  (∀ (s : State) (r : Req) (pw : Bytes), 8 ≤ pw.length → pw.length ≤ 64 → s.key.lc ≠ .retired →
    (owlCfg s).verifier.isSome = true → lockedOut s = false →
    Answers (.owlPwProve r pw) s fun t =>
      (pwMatches s pw = true → Posted t r stsOk [] ∧ (owlCfg t).fails = 0 ∧
        t.owl.session = some { side := r.side, endTick := s.ticks + msTicks 600000 })
      ∧ (pwMatches s pw = false → Posted t r stsAuthFail [] ∧ t.owl.session = s.owl.session
        ∧ (owlCfg t).fails = satInc 8 (owlCfg s).fails))
  ∧ (∀ (s : State) (r : Req) (old new : Bytes), old.length ≤ 64 → 8 ≤ new.length → new.length ≤ 64 → s.key.lc ≠ .retired →
    (owlCfg s).verifier = none → lockedOut s = false →
    Answers (.owlPwSet r old new) s fun t => Posted t r stsOk [] ∧
      ∃ salt : Bytes, salt.length = 16 ∧ (owlCfg t).verifier = some { salt := salt, hash := Config.pbkdf2 salt new })
  ∧ (∀ (s : State) (r : Req) (old new : Bytes), old.length ≤ 64 → 8 ≤ new.length → new.length ≤ 64 → s.key.lc ≠ .retired →
    (owlCfg s).verifier.isSome = true → lockedOut s = false →
    Answers (.owlPwSet r old new) s fun t =>
      (pwMatches s old = true → Posted t r stsOk [] ∧
        ∃ salt : Bytes, (owlCfg t).verifier = some { salt := salt, hash := Config.pbkdf2 salt new })
      ∧ (pwMatches s old = false → Posted t r stsAuthFail [] ∧ (owlCfg t).verifier = (owlCfg s).verifier))
  ∧ (∀ (s : State) (r : Req), s.key.lc ≠ .retired → hasSession s r.side = true →
    Answers (.owlPwEnd r) s fun t => Posted t r stsOk [] ∧ t.owl.session = none)
  ∧ (∀ s : State, exec .safetySessionExpiry s = .next (onOwl (fun b => { b with session := none }) s))
  ∧ (∀ s : State, Answers .pwLockoutEnd s fun t => owlCfg t = { owlCfg s with lockEnd := none })
  ∧ (∀ (s : State) (r : Req) (i : Nat) (e : Bytes), s.owl.log[i]? = some e → leAt 60 4 e = crc32c (e.take 60) →
    Answers (.owlLogRead r i) s fun t => Posted t r stsOk e ∧ t.owl = s.owl)

/-- Efdom frames, watchdogs and connection records complete with the effect their rules give (R204, R205, R206, R207, R208, R209, R210). Where this statement rests on the model's choice and on no rule of the spec: what is read back and the shape of a posted result are the model's record (log 6); the codes and orders that the rules leave open (logs 8 and 37). -/
def Obligations.EfdomCommandsEffect : Prop :=
  (∀ (s : State) (k : Nat) (p : Bytes), s.Inv → s.owl.state = .run → efdomSized p = true → efdomFormat p = true →
    beNat (slice (0x1C + byteAt 3 p) 4 p) ≠ fcrc (p.take (0x1C + byteAt 3 p)) →
    Answers (.efdomFrameReceive k p) s fun t => ∀ c, (connOf t c).state = (connOf s c).state
      ∧ (connOf t c).lastSeq = (connOf s c).lastSeq ∧ (connOf t c).safeWord = (connOf s c).safeWord)
  ∧ (∀ (s : State) (k c : Nat) (p : Bytes), s.Inv → s.owl.state = .run → efdomSized p = true → efdomFormat p = true →
    beNat (slice (0x1C + byteAt 3 p) 4 p) = fcrc (p.take (0x1C + byteAt 3 p)) → leAt 0x10 8 p = s.ident.deviceId →
    (receivers s k).find? (fun c => (connRec s c).peer == leAt 8 8 p) = some c → inRange 10 1000 (leAt 0x18 2 p) = true →
    Answers (.efdomFrameReceive k p) s fun t =>
      ((connOf s c).state = .wait → byteAt 2 p = 1 →
        (connOf t c).state = .sync ∧ (connOf t c).lastSeq = leAt 4 4 p ∧ (connOf t c).safeWord = leAt 0x1C 4 p)
      ∧ ((connOf s c).state = .sync → (connOf s c).inRow = 1 → (connOf s c).lastSeq + 1 = leAt 4 4 p →
        (connOf t c).state = .valid ∧ (connOf t c).lastSeq = leAt 4 4 p ∧ (connOf t c).safeWord = leAt 0x1C 4 p))
  ∧ (∀ (s : State) (c : Nat), s.Inv → c < 8 → (connOf s c).state = .sync ∨ (connOf s c).state = .valid →
    Answers (.efdomWatchdogExpiry c) s fun t => (connOf t c).state = .wait
      ∧ (connOf t c).timeouts = satInc 8 (connOf s c).timeouts)
  ∧ (∀ (s : State) (c : Nat), s.Inv → c < 8 → s.owl.state = .run → (connOf s c).state = .tx →
    Answers (.efdomTransmit c) s fun t => 1 ≤ (connOf t c).lastSeq ∧ (connOf t c).lastSeq ≤ 2 ^ 32 - 1
      ∧ ((connOf s c).sent ≠ 0 → (connOf t c).lastSeq = (connOf s c).lastSeq % (2 ^ 32 - 1) + 1)
      ∧ (connOf t c).sent = (connOf s c).sent + 1 ∧ (connOf t c).safeWord = safeWordOf s)
  ∧ (∀ (s : State) (r : Req) (b : Bytes), s.Inv → efdomRecOk b = true → byteAt 0 b < (owlCfg s).efdom.length →
    (byteAt 1 b ≠ 0 → transportThere s (byteAt 2 b) = true) → s.key.lc ≠ .retired → hasSession s r.side = true →
    (∀ o, o < 4 → bitAt (Nat.lor (connRec s (byteAt 0 b)).mask (byteAt 3 b)) o = true → flag s.owl.released o = false) →
    Answers (.owlEfdomSet r b) s fun t => Posted t r stsOk [] ∧ connRec t (byteAt 0 b) = efdomRecOf b)

/-- Each command of the vehicle link and its session completes with the effect its rule gives (R217, R221, R223, R224, R225, R226, R227, R239). Where this statement rests on the model's choice and on no rule of the spec: the end causes 6 and 7 and the other codes and choices about links (logs 8 and 38); what is read back and the shape of a posted result are the model's record (log 6); an event command is trusted to come when its event happens (log 2). -/
def Obligations.VehicleLinkCommandsEffect : Prop :=
  (∀ (s : State) (o : Nat), s.Inv → o < 4 → linked s o = true →
    ((linkOf s o).cp = .e ∨ (linkOf s o).cp = .invalid → (linkOf s o).faultHold = false →
      Answers (.pilotFaultHold o true) s fun t => (linkOf t o).faultHold = true
        ∧ ((linkOf s o).sup.active = false → (linkOf t o).sup = .faulted))
    ∧ ((linkOf s o).cp = .a ∨ (linkOf s o).cp = .b → (linkOf s o).faultHold = true →
      Answers (.pilotFaultHold o false) s fun t => (linkOf t o).faultHold = false))
  ∧ (∀ (s : State) (o : Nat), s.Inv → o < 4 → linked s o = true →
    Answers (.pilotModeTransitionEnd o) s fun t => (linkOf t o).trans = false)
  ∧ (∀ (s : State) (o : Nat) (w : Word), s.Inv → o < 4 → linked s o = true → s.sys.mode ≠ .limp →
    field w.toNat 31 30 ≠ 1 ∨ inRange 6000 80000 (field w.toNat 16 0) = true →
    Answers (.vlkPilotWrite o w) s fun t => (linkOf t o).reqMode = field w.toNat 31 30
      ∧ (linkOf t o).reqCur = field w.toNat 16 0 ∧ (linkOf t o).mode = field w.toNat 31 30)
  ∧ (∀ (s : State) (o x : Nat), s.Inv → o < 4 → linked s o = true → (linkOf s o).ppMode = 1 → s.sys.mode ≠ .watch →
    s.sys.mode ≠ .dormant → (linkOf s o).sup.active = false →
    Answers (.proximityCode o x) s fun t => linkOf t o = { linkOf s o with
      ppCode := if 3300 ≤ x then 1 else ppCodeOf (1000 * x) (3300 - x),
      ppOhms := ppOhmsOf (freeBit s) (1000 * x) (3300 - x) })
  ∧ (∀ (s : State) (r : Req) (o : Nat), s.Inv → o < 4 → declared s o = true → s.sys.mode ≠ .limp →
    (linked s o = true →
      ((linkOf s o).sup = .connected ∨ (linkOf s o).sup = .ended)
        ∧ ((linkOf s o).cp = .b ∨ (linkOf s o).cp = .c ∨ (linkOf s o).cp = .d)
        ∧ (isDc s o = true → (linkOf s o).mode = 2 ∧ (linkOf s o).slac = .matched)
        ∧ (isAc s o = true → (linkOf s o).mode = 2 → (linkOf s o).slac = .matched)) →
    (linked s o = false → (linkOf s o).sup.active = false) →
    Answers (.vlkStart r o) s fun t => Posted t r stsOk []
      ∧ (activating s = true → (linkOf t o).startHeld = true ∧ (linkOf t o).sup = (linkOf s o).sup)
      ∧ (activating s = false → (linkOf t o).sup = .locking ∨ (linkOf t o).sup = .preparing))
  ∧ (∀ (s : State) (r : Req) (o k : Nat), s.Inv → o < 4 → declared s o = true → (linkOf s o).sup.active = true →
    Answers (.vlkStop r o k) s fun t => Posted t r stsOk [] ∧ 
      ((linkOf s o).ending = false → (linkOf t o).endCause = k % 256 ∧ (linkOf t o).startHeld = false)
      ∧ ((linkOf s o).ending = true → (linkOf s o).sup = .closed → (linkOf t o).endCause = (linkOf s o).endCause))
  ∧ (∀ (s : State) (r : Req) (o : Nat), s.Inv → o < 4 → declared s o = true →
    (linkOf s o).sup = .ended ∨ (linkOf s o).sup = .connected → unlockRefused s o = false →
    (lockChannel s o).isSome = true → (lockOf s o).state = .locked → (lockOf s o).fb = true →
    Answers (.vlkUnlock r o) s fun t => Posted t r stsOk [] ∧ (lockOf t o).state = .unlocking)
  ∧ (∀ (s : State) (o : Nat), s.Inv → o < 4 → (linkOf s o).phase = .release → flag s.owl.requested o = false →
    (linkOf s o).relTries ≠ 0 → ready s o = true →
    Answers (.releaseRetry o) s fun t =>
      ((linkOf s o).relTries < 30 → flag t.owl.requested o = true ∧ (linkOf t o).relTries = (linkOf s o).relTries + 1)
        ∧ (30 ≤ (linkOf s o).relTries → (linkOf s o).sup.active = true → (linkOf t o).endCause = 6))
  ∧ (∀ (s : State) (o : Nat), s.Inv → o < 4 → (linkOf s o).phase = .gateOff →
    Answers (.dcContactorOpen o) s fun t => (linkOf t o).phase = .postOpen ∧ (linkOf t o).gate = false
      ∧ flag t.owl.released o = false)
  ∧ (∀ (s : State) (o g c : Nat), s.Inv → o < 4 → linked s o = true → isAc s o = true → (linkOf s o).sup = .closed →
    (linkOf s o).phase = .none → 11 * (offerOf s o).1 + 10000 < 10 * c →
    Answers (.overdraw o g c) s fun t => (linkOf t o).overdraw = satInc 8 (linkOf s o).overdraw
      ∧ (linkOf t o).endCause = 7 ∧ (linkOf t o).phase = .postOpen ∧ flag t.owl.released o = false)

/-- Each SLAC message, window and timeout completes with the transition of its row (R231, R232, R233, R234). Where this statement rests on the model's choice and on no rule of the spec: what is read back and the shape of a posted result are the model's record (log 6); the choices about SLAC (log 30). -/
def Obligations.SlacCommandsEffect : Prop :=
  (∀ (s : State) (o r : Nat), s.Inv → o < 4 → slacAllowed s o = true → modemOn s o = true → (linkOf s o).slac = .waitParm →
    (linkOf s o).oldRuns.contains r = false →
    Answers (.cmSlacParmReq o r) s fun t => (linkOf t o).slac = .waitParm ∧ (linkOf t o).runId = some r
      ∧ ∃ c : Bytes, c.length = 16 ∧ (linkOf t o).sent = some { kind := 1, runId := r, count := 0, data := c })
  ∧ (∀ (s : State) (o r : Nat), s.Inv → o < 4 → (linkOf s o).runId = some r → (linkOf s o).slac = .waitParm →
    Answers (.cmStartAttenCharInd o r) s fun t => (linkOf t o).slac = .sounding ∧ (linkOf t o).sounds = 0)
  ∧ (∀ (s : State) (o r : Nat) (l : List Nat), s.Inv → o < 4 → modemOn s o = true → (linkOf s o).runId = some r →
    (linkOf s o).slac = .sounding →
    Answers (.cmMnbcSoundInd o r l) s fun t => (linkOf t o).sounds = satInc 8 (linkOf s o).sounds
      ∧ (linkOf t o).heard = addSound s.ticks r l (linkOf s o).heard)
  ∧ (∀ (s : State) (o r : Nat), s.Inv → o < 4 → (linkOf s o).runId = some r → (linkOf s o).slac = .sounding →
    Answers (.soundingWindowEnd o) s fun t =>
      ((linkOf t o).slac = .waitParm ∧ (linkOf t o).runId = none ∧ (linkOf t o).suppressed = true
          ∧ r ∈ (linkOf t o).oldRuns)
        ∨ ((linkOf t o).slac = .sounding ∧ (linkOf t o).attenRun = some r ∧ (linkOf t o).attenSent = 1
          ∧ (linkOf t o).sent = some (attenInd (freeBit s) s o r)))
  ∧ (∀ (s : State) (o r : Nat), s.Inv → o < 4 → (linkOf s o).attenRun = some r →
    Answers (.cmAttenCharRsp o r) s fun t => linkOf t o = { linkOf s o with attenSent := 0 })
  ∧ (∀ (s : State) (o : Nat), s.Inv → o < 4 → (linkOf s o).slac = .sounding → (linkOf s o).attenSent ≠ 0 →
    Answers (.attenCharResend o) s fun t =>
      ((linkOf s o).attenSent < 3 → (linkOf t o).attenSent = (linkOf s o).attenSent + 1 ∧ (linkOf t o).slac = .sounding)
        ∧ (3 ≤ (linkOf s o).attenSent → (linkOf t o).slac = .waitParm ∧ (linkOf t o).runId = none))
  ∧ (∀ (s : State) (o r n : Nat), s.Inv → o < 4 → (linkOf s o).attenRun = some r → (linkOf s o).slac = .sounding →
    Answers (.cmValidateReq o r n) s fun t =>
      ((linkOf s o).ambig = true → (linkOf t o).slac = .validating ∧ (linkOf t o).window = some { want := n, count := 0, mark := none }
          ∧ (linkOf t o).sent = some { kind := 4, runId := r, count := 0, data := [] })
        ∧ ((linkOf s o).ambig = false →
            linkOf t o = { linkOf s o with sent := some { kind := 3, runId := r, count := 0, data := [] } }))
  ∧ (∀ (s : State) (o r : Nat) (d : Bool) (w : ValWindow), s.Inv → o < 4 → (linkOf s o).attenRun = some r →
    (linkOf s o).window = some w →
    Answers (.validationWindowEnd o d) s fun t => (slacAllowed s o = true → (linkOf t o).slac = .sounding)
      ∧ (linkOf t o).window = none ∧ ((linkOf t o).validated = true ↔ d = false ∧ w.count = w.want)
      ∧ (linkOf t o).sent = some { kind := if d then 6 else 5, runId := r, count := w.count, data := [] })
  ∧ (∀ (s : State) (o r : Nat), s.Inv → o < 4 → (linkOf s o).attenRun = some r →
    (linkOf s o).slac = .sounding ∨ (linkOf s o).slac = .validating →
    Answers (.cmSlacMatchReq o r) s fun t => (linkOf t o).slac = .joining
      ∧ (∃ k : Bytes, k.length = 16 ∧ (linkOf t o).nmk = some k) ∧ (linkOf t o).sent = some { kind := 7, runId := r, count := 0, data := [] })
  ∧ (∀ (s : State) (o : Nat), s.Inv → o < 4 → (linkOf s o).slac = .joining →
    (Answers (.slacJoined o) s fun t => (linkOf t o).slac = .matched)
      ∧ Answers (.slacTimeout o .noJoin) s fun t => (linkOf t o).slac ≠ .joining
          ∧ (linkOf t o).slacFail = satInc 8 (linkOf s o).slacFail)
  ∧ (∀ (s : State) (o : Nat), s.Inv → o < 4 → (linkOf s o).slac = .waitParm →
    (Answers (.slacTimeout o .waitParm) s fun t => (linkOf t o).runId = none
          ∧ (linkOf t o).slacFail = satInc 8 (linkOf s o).slacFail)
      ∧ Answers (.slacTimeout o .noStart) s fun t => (linkOf t o).slac = .waitParm ∧ (linkOf t o).runId = none)
  ∧ (∀ (s : State) (o : Nat), s.Inv → o < 4 → (linkOf s o).slac = .matched →
    Answers (.slacLinkLost o) s fun t => (linkOf t o).slac = .linkLost ∧ (linkOf t o).nmk = none)

/-- Each command and read of the time base completes with the effect its rule gives (R262, R264, R265, R266, R268, R269, R270, R271). Where this statement rests on the model's choice and on no rule of the spec: what is read back and the shape of a posted result are the model's record (log 6); free values for what a rule leaves open (log 5) and the roundings (log 18); an event command is trusted to come when its event happens (log 2). -/
def Obligations.TimeBaseCommandsEffect : Prop :=
  (∀ (s : State) (r : Req) (d x : Nat), s.Inv → d < 2 → x % 2 ^ 30 < 1000000000 → secInRange (x / 2 ^ 30) = true →
    Answers (.timSet r d x) s fun t => Posted t r stsOk [] ∧ (domOf t d).state = .sync
      ∧ ((domOf s d).state = .free → (domOf t d).t = nsOfTs x * 2 ^ 28 ∧ (domOf t d).slew = 0)
      ∧ ((domOf s d).state ≠ .free → (((nsOfTs x * 2 ^ 28 : Nat) : Int) - (domOf s d).t).natAbs < stepLimit →
          (domOf t d).t = (domOf s d).t ∧ (domOf t d).slew = ((nsOfTs x * 2 ^ 28 : Nat) : Int) - (domOf s d).t))
  ∧ (∀ (s : State) (r : Req) (d : Nat) (x : Int), s.Inv → d < 2 → (domOf s d).state ≠ .free →
    0 ≤ (domOf s d).t + (x * 2 ^ 28 + (domOf s d).slew) →
    secInRange (((domOf s d).t + (x * 2 ^ 28 + (domOf s d).slew)).toNat / 2 ^ 28 / 1000000000) = true →
    (x * 2 ^ 28 + (domOf s d).slew).natAbs < stepLimit →
    Answers (.timOffset r d x) s fun t => Posted t r stsOk [] ∧ (domOf t d).state = .sync
      ∧ (domOf t d).t = (domOf s d).t ∧ (domOf t d).slew = x * 2 ^ 28 + (domOf s d).slew)
  ∧ (∀ (s : State) (r : Req) (d : Nat), d < 2 → d ≠ s.tim.sel → s.tim.selPend = none →
    Answers (.timSelect r d) s fun t => Posted t r stsPending [] ∧ t.tim = { s.tim with selPend := some (r, d) })
  ∧ (∀ (s : State) (d : Nat), s.Inv → d < 2 → (domOf s d).state = .sync →
    Answers (.domainHoldoverExpiry d) s fun t => domOf t d = { domOf s d with state := .holdover })
  ∧ (∀ (s : State) (d : Nat), s.Inv → d < 2 →
    Answers (.slewComplete d false) s fun t => (domOf t d).slew = 0
      ∧ (domOf t d).t = (((domOf s d).t : Int) + (domOf s d).slew).toNat)
  ∧ (∀ (s : State) (d : Nat), s.tim.converging = true →
    Answers (.slewComplete d true) s fun t => t.tim.converging = false ∧ t.tim.now = (domOf s s.tim.sel).t)
  ∧ (∀ (s : State) (x : Int),
    exec (.rtcCalibration x) s = .next { s with tim := { s.tim with rtcErr := satSigned 16 x, rtcCal := true } })
  ∧ (∀ (s : State) (w : Word),
    exec (.timAlarmHiWrite w) s = .next { s with tim := { s.tim with
      alarmS := w.toNat % 4 * 2 ^ 32 + s.tim.alarmS % 2 ^ 32, alarmEn := bitAt w.toNat 31 } })
  ∧ (∀ s : State, exec .timPtpfPop s = .next { s with tim := { s.tim with ptp := s.tim.ptp.drop 1 } })
  ∧ (∀ (s : State) (v : Side), Answers (.timNowLoRead v) s fun t => t.rdata = counterForm s (nowNs s) % 2 ^ 32)
  ∧ (∀ (s : State) (v : Side) (d : Nat), Answers (.timDomTsLoRead v d) s fun t =>
      t.rdata = tsOfNs ((domOf s d).t / 2 ^ 28) % 2 ^ 32)
  ∧ (∀ (s : State) (v : Side), Answers (.timBcnTsLoRead v) s fun t => t.rdata = s.tim.bcnTs % 2 ^ 32)
  ∧ (∀ (s : State) (v : Side),
    exec (.timStatusRead v) s = .next { s with tim := { s.tim with alarm := false }, rdata := timStatus s })
  ∧ (∀ s : State, s.Inv → s.tim.alarmEn = true → Answers .alarmFire s fun t => t.tim.alarm = true ∧ t.tim.alarmEn = false)
  ∧ (∀ s : State, s.Inv → s.sys.reset = none → s.sys.entry = none → s.sys.mode ≠ .dormant → s.sys.mode ≠ .watch →
    Answers .secondBoundary s fun t =>
      t.key.grant = s.key.grant.map (fun g => { g with seconds := g.seconds - 1 })
        ∧ t.upd.trial = s.upd.trial.map (fun x => { x with seconds := x.seconds - 1 })
        ∧ ∀ d, d < 2 → (domOf t d).ofs = satSigned 32 (((domOf t d).t - t.tim.now) / 2 ^ 28))

/-- An increment is accepted within 1,000 ppm, ignored outside, used from the next tick, and nominal after every reset (R260). -/
def Obligations.TickIncrementsAreBounded : Prop :=
  (3 * 0x82355555 + 1) * 122880000 = 3 * 10 ^ 9 * 2 ^ 28
  ∧ 15 * (3 * 0x82355555 + 1) ≤ 10 ^ 11 ∧ 10 ^ 11 < 16 * (3 * 0x82355555 + 1)
  ∧ (∀ (s : State) (d : Nat) (w : Word), s.Inv → d < 2 →
    (2182348800 ≤ w.toNat → w.toNat ≤ 2186717866 →
      Answers (.timIncWrite d w) s fun t => (domOf t d).inc = w.toNat ∧ (domOf t d).t = (domOf s d).t ∧
        (s.sys.mode ≠ .dormant → s.sys.reset = none →
          (domOf (tick t) d).t = (((domOf s d).t : Int) + w.toNat + slewPart (domOf t d)).toNat))
    ∧ (w.toNat < 2182348800 ∨ 2186717866 < w.toNat → exec (.timIncWrite d w) s = .next s))
  ∧ (∀ (s : State) (b : BootInput) (h : ResetHold) (d : Nat), s.Inv → d < 2 → s.sys.reset = some h → h.pin = false →
    s.sys.held = false → s.sys.holdup = false →
    Answers (.boot b) s fun t => (domOf t d).inc = 0x82355555)

/-- A time setting after 2563 is rejected with STS_LENGTH_RANGE, and the seconds field does not wrap before 2564 (R16). -/
def Obligations.TimeSettingsAreBounded : Prop :=
  (∀ n : Nat, n / 1000000000 < 198692 * 86400 → tsOfNs n < 2 ^ 64)
  ∧ 198692 = (544 * 365 + 544 / 4 - 4)
  ∧ (∀ (s : State) (r : Req) (d x : Nat), 198692 * 86400 ≤ x / 2 ^ 30 →
    Answers (.timSet r d x) s fun t => Posted t r stsLengthRange [] ∧ t.tim = s.tim)
  ∧ (∀ (s : State) (r : Req) (d : Nat) (x : Int),
    (domOf s d).t + (x * 2 ^ 28 + (domOf s d).slew) < 0
      ∨ 198692 * 86400 ≤ ((domOf s d).t + (x * 2 ^ 28 + (domOf s d).slew)).toNat / 2 ^ 28 / 1000000000 →
    Answers (.timOffset r d x) s fun t => Posted t r stsLengthRange [] ∧ t.tim = s.tim)
  ∧ (∀ (s : State) (r : Req) (d x : Nat), d < 2 → x % 2 ^ 30 < 1000000000 → x / 2 ^ 30 < 198692 * 86400 →
    Answers (.timSet r d x) s fun t => Posted t r stsOk [])

/-- Supplies, the power-fail warning and each reset complete with what their rules give, and leave the outputs safe (R415, R418, R419, R420, R421, R423, R427). Where this statement rests on the model's choice and on no rule of the spec: the choices about supplies, reset and hold-up (log 23); what is read back and the shape of a posted result are the model's record (log 6); an event command is trusted to come when its event happens (log 2). -/
def Obligations.SupplyAndResetCommandsEffect : Prop :=
  (∀ (s : State) (e : Option (Nat × Nat)),
    Answers (.supplyGood e) s fun t => t.sys.rails = Nat.lor s.sys.rails coreRails ∧ t.sys.held = false)
  ∧ (∀ (s : State) (v : Bool) (mv : Nat) (l : List (Nat × IntervalInput)), s.Inv → s.sys.pfail = false →
    s.sys.mode ≠ .dormant → v = false ∨ mv < s.sys.warnMv →
    Answers (.powerFailWarning v mv l) s fun t => t.sys.pfail = true ∧ t.sys.holdup = true ∧ t.sys.reqReset = none
      ∧ t.sys.holdLast.source = v ∧ t.sys.holdLast.vwarn = mv % 2 ^ 16 ∧ ∀ o, flag t.owl.released o = false)
  ∧ (∀ (s : State) (n : Nat), s.Inv → s.sys.holdup = true → s.sys.reset.isSome = true ∨ framesRun s = false →
    Answers (.holdupComplete n) s fun t => t.sys.holdup = false ∧ t.sys.pfail = false ∧ t.sys.booted = false
      ∧ t.sys.mode = .dormant ∧ t.sys.holdLast.duration = min 0xFF n ∧ t.OutputsSafe)
  ∧ (∀ s : State, s.Inv →
    (Answers (.rstNAssert true) s fun t => t.OutputsSafe ∧ t.sys.booted = false ∧
        ∃ h, t.sys.reset = some h ∧ h.cold = true ∧ h.pin = true ∧ bitAt h.causes causeRstnLong = true)
      ∧ Answers (.rstNAssert false) s fun t => t.OutputsSafe ∧ t.sys.booted = false ∧
          ∃ h, t.sys.reset = some h ∧ h.pin = true ∧ bitAt h.causes causeRstn = true
            ∧ (s.sys.reset = none → h.cold = false))
  ∧ (∀ (s : State) (k : Nat), s.Inv → k < 4 ∨ k = 7 ∨ k = 9 → s.sys.mode ≠ .dormant ∨ s.sys.reset.isSome = true →
    Answers (.brownout k) s fun t => t.OutputsSafe ∧ t.sys.held = true ∧ bitAt t.sys.rails (if k = 9 then 7 else k) = false
      ∧ ∃ h, t.sys.reset = some h ∧ bitAt h.causes causeBrownout = true)
  ∧ (∀ s : State, s.Inv →
    Answers .vbatPor s fun t => t.OutputsSafe ∧ t.sys.held = true ∧ t.tim.rtcLost = true ∧ t.tim.rtc = 0
      ∧ t.tim.alarmEn = false ∧ ∃ h, t.sys.reset = some h ∧ h.cold = true ∧ bitAt h.causes causeVbatPor = true)
  ∧ (∀ (s : State) (w : Word), field w.toNat 31 24 = 0xA5 → s.sys.booted = true → s.sys.pfail = false →
    s.sys.reqReset = none →
    (field w.toNat 1 0 = 1 → exec (.sysRstreqWrite w) s =
        .next { s with sys := { s.sys with reqReset := some (false, 2 ^ causeSwreq), resetSaved := false } })
      ∧ (field w.toNat 1 0 = 2 → s.sys.mode = .maintenance → exec (.sysRstreqWrite w) s =
          .next { s with sys := { s.sys with reqReset := some (true, 2 ^ causeSwreq), resetSaved := false } }))
  ∧ (∀ (s : State) (c : Bool) (k : Nat), s.Inv → s.sys.reqReset = some (c, k) → resetReady s = true → s.sys.reset = none →
    Answers .requestedReset s fun t => t.OutputsSafe ∧ t.sys.reqReset = none
      ∧ t.sys.reset = some { cold := c, causes := k, pin := false })

/-- A cold-reset request outside MAINTENANCE and a wrong KEY are ignored, and a cold reset clears retention as RSTN_LONG (R429). -/
def Obligations.RequestedColdResetIsConfined : Prop :=
  (∀ (s : State) (w : Word), field w.toNat 1 0 = 2 → s.sys.mode ≠ .maintenance → exec (.sysRstreqWrite w) s = .next s)
  ∧ (∀ (s : State) (w : Word), field w.toNat 31 24 ≠ 0xA5 → exec (.sysRstreqWrite w) s = .next s)
  ∧ (∀ (s : State) (k : Nat), s.Inv → s.sys.reqReset = some (true, k) → resetReady s = true →
    Answers .requestedReset s fun t => ∃ h, t.sys.reset = some h ∧ h.cold = true)
  ∧ (∀ s : State, s.Inv → Answers (.rstNAssert true) s fun t => ∃ h, t.sys.reset = some h ∧ h.cold = true)
  ∧ (∀ (s : State) (b : BootInput) (h : ResetHold), s.Inv → s.sys.reset = some h → h.cold = true → h.pin = false →
    s.sys.held = false → s.sys.holdup = false →
    Answers (.boot b) s fun t => t.owl.proof.ok = false ∧ ∀ n, (laneOf t n).strikes = 0)

/-- Each command of a frame ring completes with the descriptor, the bytes and the index its row gives, and no other byte (R235, R236, R253, R254, R407, R408). Where this statement rests on the model's choice and on no rule of the spec: what is read back and the shape of a posted result are the model's record (log 6); the choices about frame rings (log 9) and the PTP offsets (log 22); an event command is trusted to come when its event happens (log 2). -/
def Obligations.FrameRingCommandsEffect : Prop :=
  (∀ (s : State) (p : Port) (w : Word), s.Inv → portOk p = true → portThere s p = true →
    (Answers (.frameTxTailWrite p w) s fun t => (ringsOf t p).txTail = w.toNat % 128)
      ∧ Answers (.frameRxTailWrite p w) s fun t => (ringsOf t p).rxTail = w.toNat % 128 ∧ t.sram = s.sram)
  ∧ (∀ (s : State) (p : Port) (x : Nat), s.Inv → portOk p = true → p ≠ .glk → served s p = true → txOwned s p = true →
    txRefusal s p = none → (ringsOf s p).txTail = ((ringsOf s p).txHead + 1) % 128 →
    (efdomQueued s p = false →
      Answers (.frameTransmitted p x) s fun t => (ringsOf t p).txHead = ((ringsOf s p).txHead + 1) % 128
        ∧ ownAt t (txDesc s p) = false ∧ memRead t.sram (txDesc s p + 7) = 0
        ∧ (ringsOf t p).wire = padded p (sramAt s (descBuf s (txDesc s p)) (descLen s (txDesc s p)))
        ∧ ∀ a, a < txDesc s p + 6 ∨ txDesc s p + 12 ≤ a → memRead t.sram a = memRead s.sram a)
    ∧ Answers (.frameTxTimeout p) s fun t => (ringsOf t p).txHead = ((ringsOf s p).txHead + 1) % 128
        ∧ ownAt t (txDesc s p) = false ∧ memRead t.sram (txDesc s p + 7) = 0x0A
        ∧ ∀ a, a < txDesc s p + 6 ∨ txDesc s p + 12 ≤ a → memRead t.sram a = memRead s.sram a)
  ∧ (∀ (s : State) (x : Nat), s.Inv → served s .glk = true → txOwned s .glk = true → txRefusal s .glk = none →
    efdomQueued s .glk = false → isGroup (sramAt s (descBuf s (txDesc s .glk)) (descLen s (txDesc s .glk))) = false →
    Answers (.frameTransmitted .glk x) s fun t => t.glk.msdu.isSome = true ∧ (ringsOf t .glk).txHead = (ringsOf s .glk).txHead)
  ∧ (∀ (s : State) (x : Nat), s.Inv → served s .glk = true → txOwned s .glk = true → txRefusal s .glk = none →
    efdomQueued s .glk = false → isGroup (sramAt s (descBuf s (txDesc s .glk)) (descLen s (txDesc s .glk))) = true →
    isGroup (sramAt s (descBuf s (txDesc s .glk)) 6) = true → (ringsOf s .glk).txTail = ((ringsOf s .glk).txHead + 1) % 128 →
    Answers (.frameTransmitted .glk x) s fun t =>
      (s.glk.msdu = none → t.glk.msdu.isSome = true ∧ (ringsOf t .glk).txHead = (ringsOf s .glk).txHead)
        ∧ (s.glk.msdu.isSome = true → t.glk.msdu = none
            ∧ (ringsOf t .glk).txHead = ((ringsOf s .glk).txHead + 1) % 128))
  ∧ (∀ (s : State) (p : Port) (f : RxFrame), s.Inv → portOk p = true → served s p = true → Passes s f p →
    rxOwned s p = true → f.bytes.length ≤ 1518 → f.bytes.length ≤ descLen s (rxDesc s p) →
    descBuf s (rxDesc s p) + f.bytes.length ≤ rxDesc s p + 4 ∨ rxDesc s p + 14 ≤ descBuf s (rxDesc s p) →
    Answers (.frameReceived p f) s fun t => sramAt t (descBuf s (rxDesc s p)) f.bytes.length = f.bytes
      ∧ ownAt t (rxDesc s p) = false ∧ (ringsOf t p).rxHead = ((ringsOf s p).rxHead + 1) % 128
      ∧ ∀ a, (a < rxDesc s p + 4 ∨ rxDesc s p + 14 ≤ a) →
          (a < descBuf s (rxDesc s p) ∨ descBuf s (rxDesc s p) + f.bytes.length ≤ a) → memRead t.sram a = memRead s.sram a)
  ∧ (∀ (s : State) (p : Port) (f : RxFrame), s.Inv → portOk p = true → served s p = true → Passes s f p →
    rxOwned s p = false → f.bytes.length ≤ 1518 →
    Answers (.frameReceived p f) s fun t => t.sram = s.sram ∧ (ringsOf t p).rxHead = (ringsOf s p).rxHead)

/-- Each event of a CAN controller completes with the state of its row (R406, R409, R410). Where this statement rests on the model's choice and on no rule of the spec: the error confinement thresholds, which are the family's (log 21); what is read back and the shape of a posted result are the model's record (log 6). -/
def Obligations.CanControllerCommandsEffect : Prop :=
  (∀ (s : State) (c : Nat), s.Inv → portThere s (.can c) = true →
    (canOn (canOf s c) = true → Answers (.canStuck c true) s fun t => (canOf t c).state = .stuck)
      ∧ ((canOf s c).state = .stuck →
          Answers (.canStuck c false) s fun t => (canOf t c).state = confined (canOf s c).tec (canOf s c).recCtr))
  ∧ (∀ (s : State) (c : Nat) (b : Bool), s.Inv → portThere s (.can c) = true → (canOf s c).state = .busOff →
    b = true ∨ (canOf s c).autorec = true →
    Answers (.canBusoffRecovery c b) s fun t => (canOf t c).state = .active ∧ (canOf t c).tec = 0 ∧ (canOf t c).recCtr = 0)
  ∧ (∀ (s : State) (c x y : Nat), s.Inv → portThere s (.can c) = true → canOn (canOf s c) = true →
    Answers (.canErrorStateChange c x y) s fun t => (canOf t c).state = confined x y ∧ (canOf t c).tec = min 255 x
      ∧ (canOf t c).recCtr = min 255 y)

/-- Each command of the grid link completes with the membership, tone map or phase its rule gives (R243, R246, R247, R248, R249, R250, R251, R252). Where this statement rests on the model's choice and on no rule of the spec: what is read back and the shape of a posted result are the model's record (log 6); the choices about the grid link (logs 9 and 38) and the opaque keys and checks (log 17). -/
def Obligations.GridLinkCommandsEffect : Prop :=
  (∀ (s : State) (b : Beacon), glkOn s = true → hasNmk s = true → b.nid = ownNid s → s.glk.assoc = .search →
    Answers (.glkBeacon b) s fun t => t.glk.assoc = .assoc ∧ t.glk.ccoTei = b.tei ∧ t.glk.sync = true
      ∧ t.glk.period = b.period ∧ t.glk.requests = 1)
  ∧ (∀ (s : State) (n : Nat), s.glk.assoc = .assoc → s.glk.backingOff = false →
    (Answers (.ccAssocCnf true n) s fun t => t.glk.assoc = .auth ∧ t.glk.tei = n
        ∧ t.glk.leaseEnd = some (s.ticks + msTicks 900000))
      ∧ Answers (.ccAssocCnf false n) s fun t => t.glk = { s.glk with backingOff := true })
  ∧ (∀ (s : State) (k : Bytes), s.glk.assoc = .auth → s.glk.backingOff = false →
    Answers (.nekReceived k) s fun t => t.glk.assoc = .member ∧ t.glk.nek = some k ∧ t.glk.backoff = 1)
  ∧ (∀ s : State, s.glk.assoc = .assoc → s.glk.backingOff = false →
    Answers .glkAssocTimeout s fun t => if s.glk.requests < 3 then t.glk.requests = s.glk.requests + 1
      else t.glk.backingOff = true)
  ∧ (∀ s : State, s.glk.backingOff = true →
    Answers .glkBackoffExpiry s fun t => t.glk.assoc = .search ∧ t.glk.backingOff = false
      ∧ t.glk.backoff = min 64 (2 * s.glk.backoff))
  ∧ (∀ s : State, s.glk.assoc = .member →
    Answers .glkBeaconLoss s fun t => t.glk.assoc = .search ∧ t.glk.nek = none ∧ t.glk.lostCnt = satInc 8 s.glk.lostCnt)
  ∧ (∀ s : State, s.glk.assoc = .member →
    Answers .glkLeaseRenew s fun t => t.glk.sent.head? = some (s.glk.ccoTei, [1]))
  ∧ (∀ (s : State) (w : Word), blockBit s 4 = true →
    Answers (.glkCfgWrite w) s fun t => t.glk.en = bitAt w.toNat 0 ∧ t.glk.nmkSlot = field w.toNat 12 8
      ∧ t.glk.lifetime = (if inRange 100 4000 (field w.toNat 31 20) then field w.toNat 31 20 else s.glk.lifetime)
      ∧ t.glk.backhaul = if field w.toNat 5 4 = 3 then s.glk.backhaul else field w.toNat 5 4)
  ∧ (∀ (s : State) (n : Nat),
    exec (.neighbourExpiry n) s = .next { s with glk := { s.glk with
        nbs := s.glk.nbs.filter (·.tei != n), rxMaps := s.glk.rxMaps.filter (·.tei != n) } }
      ∧ (s.glk.reasm.find? (·.frame.src == n) = none → exec (.reassemblyTimeout n) s = .next s)
      ∧ (∀ r, s.glk.reasm.find? (·.frame.src == n) = some r →
          Answers (.reassemblyTimeout n) s fun t => ∀ x, x ∈ t.glk.reasm → x ∈ s.glk.reasm.erase r)
      ∧ exec .wakeInhibitEnd s = .next { s with glk := { s.glk with wakeInhibit := false } })
  ∧ (∀ (s : State) (e : Nat) (x : ToneMap) (n : Neighbour), nbOf s e = some n → n.tm = .estimating →
    (Answers (.toneMapReceived e x) s fun t =>
        ∃ m, nbOf t e = some m ∧ m.tm = .active ∧ m.newMap = some { rate := min x.rate 1744, maps := x.maps.take 6 }
          ∧ m.reest = false)
      ∧ Answers (.toneMapTimeout e .request) s fun t =>
          ∃ m, nbOf t e = some m ∧ if n.requests < 3 then m.requests = n.requests + 1 else m.tm = .robo ∧ m.rate = 0)
  ∧ (∀ (s : State) (e : Nat) (n : Neighbour), nbOf s e = some n → n.tm = .active → n.reest = false →
    Answers (.toneMapReestimate e) s fun t => ∃ m, nbOf t e = some m ∧ m.reest = true ∧ m.requests = 1)
  ∧ (∀ (s : State) (k : Sack) (m : Msdu), s.glk.msdu = some m → m.tei = k.tei →
    Answers (.sackReceived k) s fun t =>
      ((markPbs m.pbs k.ok).all (·.2) = true → t.glk.msdu = none)
        ∧ ((markPbs m.pbs k.ok).all (fun x => x.2 || decide (x.1 < 8)) = true → (markPbs m.pbs k.ok).all (·.2) = false →
            t.glk.msdu = some { m with pbs := markPbs m.pbs k.ok }))
  ∧ (∀ s : State, s.glk.msdu.isSome = true → Answers .msduLifetimeExpiry s fun t => t.glk.msdu = none)
  ∧ (∀ s : State, s.glk.assoc = .member →
    Answers .glkZcIndSend s fun t => ∃ b, t.glk.sent.head? = some (0xFF, b) ∧ b.length = 20)
  ∧ (∀ (s : State) (e a : Nat) (b : Bytes) (n : Neighbour), glkOn s = true → s.glk.assoc = .member → b.length = 20 →
    nbOf s e = some n →
    Answers (.glkZcInd e { mac := a, payload := b }) s fun t => ∃ m, nbOf t e = some m ∧ m.heard = s.ticks
      ∧ (bitAt (byteAt 16 b) 0 = false → m.phase = .unknown ∧ m.reports = [])
      ∧ (bitAt (byteAt 16 b) 0 = true → s.glk.period ≠ 0 → (ownOffset s).isSome = true →
          m.phase = decidePhase n.phase m.reports ∧ m.reports.length = min 16 (n.reports.length + 1)))
  ∧ (∀ (s : State) (f : RxFrame) (m : RxMpdu), portThere s .glk = true → s.sys.mode ≠ .watch → s.sys.mode ≠ .dormant →
    s.glk.assoc = .member → f.sound = false → f.mpdu = some m → m.group = false →
    Answers (.frameReceived .glk f) s fun t =>
      t.glk.sent.head? = some (f.src, 4 :: m.pbs.map fun p => BitVec.ofNat 8 (flagAt p.ok 0)))

/-- The Ethernet link, MDIO and the choice of backhaul complete with the effect their rules give (R254, R255, R256). Where this statement rests on the model's choice and on no rule of the spec: what is read back and the shape of a posted result are the model's record (log 6); the choices about the backhaul (log 9). -/
def Obligations.EthernetAndBackhaulCommandsEffect : Prop :=
  (∀ (s : State) (u f d : Bool), blockBit s 5 = true → s.eth.en = true → s.sys.mode ≠ .watch → s.sys.mode ≠ .dormant →
    Answers (.ethLinkPoll u f d) s fun t => t.eth.link = u ∧ t.eth.speed = f ∧ t.eth.duplex = d)
  ∧ (∀ (s : State) (w : Word), blockBit s 5 = true → s.eth.go = false →
    exec (.ethMdioGo w) s = .next (onEth (fun b => { b with
      go := bitAt w.toNat 31, wr := bitAt w.toNat 30, addr := field w.toNat 25 21, reg := field w.toNat 20 16,
      data := field w.toNat 15 0 }) s))
  ∧ (∀ (s : State) (x : Nat), s.eth.go = true →
    Answers (.ethMdioDone x) s fun t => t.eth.go = false ∧ t.eth.data = if s.eth.wr then s.eth.data else x % 65536)
  ∧ (∀ s : State, s.glk.backhaul = 2 →
    (s.eth.failover = false → s.eth.link = false → Answers .backhaulFailover s fun t => t.eth.failover = true)
      ∧ (s.eth.failover = true → s.eth.link = true → Answers .backhaulFailover s fun t => t.eth.failover = false))

/-- Each event of the reader and each command of the authorisation cache completes with the effect its rule gives (R276, R277, R278, R282, R286, R287, R288, R298). Where this statement rests on the model's choice and on no rule of the spec: what is read back and the shape of a posted result are the model's record (log 6); the choices about the reader and the cache (log 20); an event command is trusted to come when its event happens (log 2). -/
def Obligations.ReaderAndCacheCommandsEffect : Prop :=
  (∀ (s : State) (x : Nat), readerOn s = true → s.tag.held = none → s.tag.reader ≠ .yielding →
    Answers (.reducedFieldMeasurement x) s fun t => t.tag.last = x % 65536
      ∧ t.tag.offBase = (if s.tag.detThr * s.tag.base ≤ 200 * (((x % 65536 : Nat) : Int) * 2 ^ 32 - s.tag.base).natAbs
          then min 3 (s.tag.offBase + 1) else 0)
      ∧ t.tag.base = trackBase s.tag.base (x % 65536))
  ∧ (∀ s : State, readerOn s = true → s.tag.offBase = 3 →
    Answers .fieldDetection s fun t => t.tag.detect = true ∧ t.tag.offBase = 0)
  ∧ (∀ (s : State) (p : PollInput), readerPolls s = true → p.foreign = true →
    Answers (.fullPoll p) s fun t => t.tag.extField = true)
  ∧ (∀ (s : State) (p : PollInput) (g : TagFound), readerPolls s = true → p.foreign = false → p.tags = [g] →
    techOn s g.tech = true → stillThere s g = false → s.tag.reports.length < 16 →
    Answers (.fullPoll p) s fun t => t.tag.reports.length = s.tag.reports.length + 1)
  ∧ (∀ s : State, s.tag.held.isSome = true →
    Answers .tagHoldExpiry s fun t => t.tag.held = none ∧ t.tag.reader = .reduced)
  ∧ (∀ s : State, exec .limpHitExpiry s = .next (onTag (fun b => { b with limpPend := none }) s))
  ∧ (∀ (s : State) (r : Req) (a b : Bytes), readerThere s = true → 1 ≤ a.length → a.length ≤ 256 → s.tag.held.isSome = true →
    b.length ≤ 256 →
    (∀ l, Answers (.tagXfer r a (.answer b :: l)) s fun t => Posted t r stsOk b ∧ t.tag = s.tag)
      ∧ (∀ l, Answers (.tagXfer r a (.silent :: .bad :: .answer b :: l)) s fun t => Posted t r stsOk b
          ∧ t.tag = { s.tag with timeouts := satInc 8 s.tag.timeouts, rxErr := satInc 8 s.tag.rxErr })
      ∧ (∀ l, Answers (.tagXfer r a (.silent :: .silent :: .silent :: l)) s fun t => Posted t r stsTimeout [] ∧ t.tag.held = none
          ∧ t.tag.timeouts = satInc 8 (satInc 8 (satInc 8 s.tag.timeouts)))
      ∧ ∀ l, Answers (.tagXfer r a (.bad :: .bad :: .bad :: l)) s fun t => Posted t r stsIntegrity [] ∧ t.tag.held = none
          ∧ t.tag.rxErr = satInc 8 (satInc 8 (satInc 8 s.tag.rxErr)))
  ∧ (∀ (s : State) (r : Req), readerThere s = true → s.tag.held.isSome = true →
    Answers (.tagRelease r) s fun t => Posted t r stsOk [] ∧ t.tag.held = none)
  ∧ (∀ (s : State) (r : Req) (b : Bytes), readerThere s = true → r.side = .cluster → s.sys.mode ≠ .limp → b.length = 14 →
    Answers (.tagCachePut r [b]) s fun t =>
      match insertEntry s.freeCtr (entryOf b) s.tag.cache with
      | some l => t.tag.cache = l ∧ t.tag.mirrorPend = true ∧ Posted t r stsOk (leBytes 4 1)
      | none => t.tag = s.tag ∧ Posted t r stsRefused (leBytes 4 0))
  ∧ (∀ (s : State) (r : Req) (k : Nat), readerThere s = true → r.side = .cluster → s.sys.mode ≠ .limp →
    (Answers (.tagCacheDel r k) s fun t => Posted t r stsOk [] ∧
        ∀ p e, findEntry k s.tag.cache = some (p, e) → t.tag.cache = dropEntry p s.tag.cache)
      ∧ Answers (.tagCacheClear r) s fun t => Posted t r stsOk [] ∧ t.tag.cache = [])
  ∧ (∀ (s : State) (r : Req) (k : Nat), readerThere s = true →
    Answers (.tagCacheGet r k) s fun t => t.tag = s.tag ∧
      ((∀ p e, findEntry k s.tag.cache = some (p, e) → Posted t r stsOk (entryBytes e))
        ∧ (findEntry k s.tag.cache = none → Posted t r stsOk (zeros 16))))
  ∧ (∀ s : State, badgerUp s = true → s.tag.mirrorPend = true →
    Answers .cacheMirror s fun t => t.tag.mirror.get = s.tag.cache
      ∧ t.tag = { s.tag with mirror := s.tag.mirror.write s.tag.cache, mirrorPend := false })
  ∧ (∀ s : State, readerThere s = true → s.tag.loaded = false → s.sys.reset = none →
    Answers .cacheLoaded s fun t => t.tag = { s.tag with cache := s.tag.mirror.get, loaded := true })
  ∧ (∀ s : State, exec .tagRptPop s = .next (onTag (fun b => { b with reports := b.reports.drop 1 }) s))
  ∧ (∀ (s : State) (v : Side), Answers (.tagStatusRead v) s fun t => t.rdata = tagStatus s
      ∧ t.tag = { s.tag with extField := false, detect := false })

/-- Each command of the commissioning tag completes with the blocks, the answer or the error its rule gives (R290, R291, R292, R294, R295, R296, R297, R298). Where this statement rests on the model's choice and on no rule of the spec: what is read back and the shape of a posted result are the model's record (log 6); the layout of the tag's device blocks (log 13) and the choices about the tag (log 20). -/
def Obligations.CommissioningTagCommandsEffect : Prop :=
  (∀ (s : State) (r : Req), s.Inv → s.key.lc ≠ .retired → (accessSlot s).isSome = true → s.tag.ctState ≠ .secured →
    Answers (.tagCtSecure r) s fun t => Posted t r stsOk [] ∧ t.tag.ctState = .secured)
  ∧ (∀ (s : State) (r : Req), s.Inv → s.key.lc ≠ .service → s.key.lc ≠ .retired →
    Answers (.tagCtOpen r) s fun t => Posted t r stsOk [] ∧ t.tag.ctState = .isOpen)
  ∧ (∀ (s : State) (r : Req) (b : Bytes), s.Inv → b.length ≤ 128 → s.tag.field = false →
    Answers (.tagCtPublish r b) s fun t => Posted t r stsOk [] ∧
      (∀ i, i < 4 → ctBlock t (4 + i) = { data := fit 32 (slice (32 * i) 32 b), ok := true })
        ∧ ∀ n, n < 4 ∨ 8 ≤ n → ctBlock t n = ctBlock s n)
  ∧ (∀ (s : State) (r : Req), s.Inv → s.tag.field = false → leAt 0 4 (ctBlock s 8).data = 0x41524541 →
    1 ≤ areaLen s → areaLen s ≤ 247 → (ctBlock s 8).ok = true → (∀ n ∈ areaBlocks s, (ctBlock s n).ok = true) →
    crc32c (areaBytes s) = leAt 12 4 (ctBlock s 8).data → s.tag.adoptSeq < areaSeq s →
    Answers (.tagCtAdopt r) s fun t => Posted t r stsOk [] ∧ t.tag.adopted = true ∧ t.tag.adoptSeq = areaSeq s
      ∧ t.tag.adoptWin = fit 8192 (areaBytes s))
  ∧ (∀ (s : State) (a n : Nat), s.tag.field = true → n ≠ 0 → a + n ≤ 256 →
    (∀ k, a ≤ k → k < a + n → (ctBlock s k).ok = true) →
    Answers (.ctReadBlock a n) s fun t => t.tag.challenge = none
      ∧ t.tag.answer = some (0, ((List.range n).map (a + ·)).flatMap fun k => (ctBlock s k).data))
  ∧ (∀ (s : State) (a : Nat) (d l : Bytes), s.Inv → s.tag.field = true → d.length = 32 → 8 ≤ a → a ≤ 255 →
    (s.tag.ctState = .isOpen →
      (Answers (.ctWriteSingleBlock a d true .complete) s fun t => ctBlock t a = { data := fit 32 d, ok := true }
          ∧ t.tag.answer = some (0, []) ∧ t.tag.ctWrites = satInc 8 s.tag.ctWrites ∧ ∀ n, n ≠ a → ctBlock t n = ctBlock s n)
      ∧ (Answers (.ctWriteSingleBlock a d true (.duringErase l)) s fun t => ctBlock t a = { data := fit 32 l, ok := false }
          ∧ t.tag.field = false ∧ ∀ n, n ≠ a → ctBlock t n = ctBlock s n))
    ∧ (s.tag.ctState = .secured → Answers (.ctWriteSingleBlock a d true .complete) s fun t =>
          t.tag.answer = some (0xA5, []) ∧ t.tag.ct = s.tag.ct))
  ∧ (∀ s : State, s.tag.field = true → s.tag.challengeLock = false →
    Answers .ctGetChallenge s fun t => ∃ c : Bytes, c.length = 8 ∧ t.tag.challenge = some (c, s.ticks)
      ∧ t.tag.answer = some (0, c))
  ∧ (∀ (s : State) (a t0 : Nat) (d mac c k : Bytes), s.Inv → s.tag.field = true → d.length = 32 → mac.length = 8 →
    8 ≤ a → a ≤ 255 → s.tag.ctState = .secured → s.tag.challenge = some (c, t0) → accessKey s = some k →
    s.ticks - t0 ≤ msTicks 1000 →
    Answers (.ctAuthWrite a d mac true .complete) s fun t =>
      if (Config.cmac k (c ++ ctUid s ++ leBytes 1 a ++ d)).take 8 = mac then
        ctBlock t a = { data := fit 32 d, ok := true } ∧ t.tag.answer = some (0, [])
      else t.tag.ct = s.tag.ct ∧ t.tag.answer = some (0xA2, []) ∧ t.tag.fails = satInc 8 s.tag.fails)
  ∧ (∀ (s : State) (b c : Bool),
    (Answers (.ctFieldChange true b c) s fun t => t.tag.field = true ∧ t.tag.harv = b)
      ∧ Answers (.ctFieldChange false b c) s fun t => t.tag.field = false ∧ t.tag.challenge = none)

/-- Each command of the display engine and the status lights completes with the effect its rule gives (R303, R306, R307, R308, R310, R311, R314, R316, R317). Where this statement rests on the model's choice and on no rule of the spec: what is read back and the shape of a posted result are the model's record (log 6); the choices about the display and the LEDs (log 19); an event command is trusted to come when its event happens (log 2). -/
def Obligations.DisplayAndLedCommandsEffect : Prop :=
  (∀ (s : State) (w : Word), epdThere s = true →
    Answers (.epdTempWrite w) s fun t => t.epd.temp = signedOf 16 w.toNat ∧ t.epd.tempTick = some s.ticks)
  ∧ (∀ (s : State) (r : Req) (g fl : Nat) (b tbl : Bytes) (x : RegionRec) (k : Nat), s.Inv → epdThere s = true →
    regionRec s g = some x → g ≠ 15 → b.length = 4 * ((x.segs.length + 15) / 16) → s.epd.table = some tbl →
    (∀ y ∈ targetsOf x.segs.length b, y < tblStates tbl) →
    (s.sys.mode ≠ .limp ∨ r.side ≠ .cluster) →
    bandOf tbl (if s.epd.tempRange then none else some s.epd.band) (temp6 s) = some k → x.segs.Nodup →
    (∀ i ∈ x.segs, i < 160) →
    Answers (.epdUpdate r g fl b) s fun t => ∀ p ∈ x.segs.zip (targetsOf x.segs.length b),
      (segOf t p.1).pend.map (·.1) = some p.2 ∨ (segOf t p.1).state = some p.2)
  ∧ (∀ (s : State) (r : Req) (g fl : Nat) (b : Bytes) (x : RegionRec), epdThere s = true →
    regionRec s g = some x → g ≠ 15 → b.length = 4 * ((x.segs.length + 15) / 16) → s.epd.table = none →
    ((s.sys.mode ≠ .limp ∨ r.side ≠ .cluster) →
      Answers (.epdUpdate r g fl b) s fun t => Posted t r stsState [] ∧ t.epd.tempRef = satInc 8 s.epd.tempRef)
    ∧ (s.sys.mode = .limp → r.side = .cluster → Answers (.epdUpdate r g fl b) s fun t => Posted t r stsState [] ∧ t.epd = s.epd))
  ∧ (∀ s : State, framesRun s = true → s.sys.pfail = false →
    Answers .epdFrame s fun t => t.epd.frames = (s.epd.frames + 1) % 2 ^ 32
      ∧ (∃ j, t.epd.journal = some j ∧ j.ok = true ∧ j.clean = false ∧ j.frames = t.epd.frames)
      ∧ (t.epd.tablePend.isSome = true → ∀ i, (segOf s i).run = none → (segOf t i).run = none))
  ∧ (∀ (s : State) (g : RegionRec) (tbl : Bytes) (k : Nat), regionRec s 15 = some g → epdThere s = true → s.met.run = true →
    s.sys.mode ≠ .watch → s.sys.mode ≠ .dormant → s.epd.stopped = false → s.epd.table = some tbl →
    bandOf tbl (if s.epd.tempRange then none else some s.epd.band) (temp6 s) = some k →
    Answers .legalDwell s fun t =>
      t.epd.legalItem = if (outletList s).length ≤ s.epd.legalItem then 0 else s.epd.legalItem + 1)
  ∧ (∀ s : State, framesRun s = true → s.sys.pfail = true →
    Answers .epdStop s fun t => t.epd.stopped = true ∧ t.epd.run = false ∧ t.epd.stops = satInc 8 s.epd.stops
      ∧ bitAt t.sys.holdLast.done 3 = true ∧ ∃ j, t.epd.journal = some j ∧ j.clean = true)
  ∧ (∀ (s : State) (k : Nat), ledsOn s = true → k < 4 → k < s.epd.ledStep.length →
    Answers (.ledStep k) s fun t => at0 t.epd.ledStep k = (at0 s.epd.ledStep k + 1) % 32)
  ∧ (∀ (s : State) (n : Nat) (b : Bool), s.Inv → n < 12 → (ledRec s n).isSome = true →
    (Answers (.ledOpen n b) s fun t => (ledOf t n).isOpen = b)
      ∧ Answers (.ledOvertemp n b) s fun t => ledOf t n = { ledOf s n with overTemp := b })
  ∧ (∀ (s : State) (x : Nat) (f : Bool), epdThere s = false → exec (.crackLoopMeasure x f) s = .next s)
  ∧ (∀ (s : State) (x : Nat) (f : Bool), s.Inv → epdThere s = true →
    Answers (.crackLoopMeasure x f) s fun t => t.epd.crackOhms = min 0xFFFF x
      ∧ (f = true → x ≤ 2000 → t.epd.crackBad = 0)
      ∧ (f = false ∨ 2000 < x → 2 ≤ s.epd.crackBad → s.epd.crackShort = false → s.epd.crackOpen = false →
          t.epd.crack = true ∧ t.epd.crackShort = !f ∧ t.epd.crackOpen = f))

/-- Each key command answers by its first failing row, and when it is accepted has the effect its rule gives (R327, R331, R335, R337, R341, R342, R343, R344, R345). Where this statement rests on the model's choice and on no rule of the spec: what is read back and the shape of a posted result are the model's record (log 6); the choices about keys and life cycle (log 10) and the opaque cryptography (log 17). -/
def Obligations.KeyCommandsEffect : Prop :=
  (∀ (s : State) (r : Req) (m : Bytes), s.Inv →
    Answers (.keyUpdate r m) s fun t =>
      ((∃ b, Posted t r stsOk b) ∧ s.key.counter < (keyMsgOf m).counter ∧ t.key.counter = (keyMsgOf m).counter
        ∧ ((keyMsgOf m).op = 1 → (slotOf t (keyMsgOf m).slot).loaded = true
            ∧ (slotOf t (keyMsgOf m).slot).ktype = (keyMsgOf m).ktype ∧ (slotOf t (keyMsgOf m).slot).usage = (keyMsgOf m).usage)
        ∧ ((keyMsgOf m).op = 3 → (slotOf t (keyMsgOf m).slot).loaded = false))
      ∨ ((∃ e, e ≠ stsOk ∧ Posted t r e []) ∧ t.key = s.key))
  ∧ (∀ (s : State) (r : Req) (m p : Bytes) (k : KeyMsg), s.Inv → k = keyMsgOf m → msgRangeOk m s = true →
    opAllowed s.key.lc k.op = true → msgSigned m s = true → k.format = 1 → msgStateBad k s = false → s.key.busy = false →
    s.key.counter < k.counter → openPayload m k s = some p → needsRandom s k = false →
    Answers (.keyUpdate r m) s fun t => (∃ b, Posted t r stsOk b) ∧ t.key.counter = k.counter
      ∧ (k.op = 1 → slotOf t k.slot = {
          ktype := k.ktype, usage := k.usage, param := k.param, cls := s.key.lc.cls, derived := false, loaded := true, material := p.take (materialLen k.ktype) })
      ∧ (k.op = 2 → (slotOf t k.slot).loaded = true ∧ (slotOf t k.slot).ktype = k.ktype)
      ∧ (k.op = 3 → slotOf t k.slot = KeySlot.fresh ∧ t.key.blobA.getD k.slot none = none ∧ t.key.blobB.getD k.slot none = none)
      ∧ (k.op = 4 → t.key.orig = put s.key.orig (byteAt 0 p) (some (origOf p)))
      ∧ (k.op = 5 → t.key.lcRec.get.owner = slice 0 97 p) ∧ (k.op = 6 → t.key.lcRec.get.recovery = slice 0 97 p)
      ∧ (k.op = 7 → t.key.lcRec.get.state = .maintenance ∧ t.key.grant = some { key := slice 0 65 p, seconds := leAt 68 4 p })
      ∧ (k.op = 8 → t.key.lcRec.get.state = .service ∧ t.key.grant = none ∧ t.key.authority = none)
      ∧ (k.op = 9 → t.key.lcRec.get.state = .provisioned) ∧ (k.op = 10 → t.key.lcRec.get.state = .service)
      ∧ (k.op = 11 → t.key.lcRec.get.state = .recovery)
      ∧ (k.op = 12 → t.key.lcRec.get.state = .retired ∧ t.key.retiredFuse = true ∧ t.key.seed = none)
      ∧ (isLcOp k.op = true → t.key.busy = true ∧ t.sys.reqReset.isSome = true)
      ∧ (k.op = 13 → t.key.metro = some (slice 0 97 p)))
  ∧ (∀ (s : State) (r : Req), s.key.lc = .maintenance → s.key.rngFail = false → s.key.challenges.length = 2 →
    Answers (.keyChallenge r) s fun t => ∃ c : Bytes, c.length = 32 ∧ Posted t r stsOk c
      ∧ t.key.challenges.getD (sideIx r.side) none = some (c, s.ticks + msTicks 60000))
  ∧ (∀ (s : State) (r : Req) (b : Bytes), b.length = 64 → s.key.lc ≠ .retired →
    Answers (.keyMaintProve r b) s fun t => t.key.challenges.getD (sideIx r.side) none = none
      ∧ ((Posted t r stsOk [] ∧ t.key.authority = some (r.side, s.ticks + msTicks 600000))
        ∨ (Posted t r stsAuthFail [] ∧ t.key.authority = s.key.authority))
      ∧ (s.key.challenges.getD (sideIx r.side) none = none ∨ s.key.grant = none → Posted t r stsAuthFail []))
  ∧ (∀ (s : State) (r : Req) (b ch : Bytes) (e : Nat) (g : Grant), b.length = 64 → s.key.lc ≠ .retired →
    s.key.challenges.getD (sideIx r.side) none = some (ch, e) → s.ticks < e → s.key.grant = some g →
    Config.verify g.key (ch ++ leBytes 8 s.ident.deviceId) b = true →
    Answers (.keyMaintProve r b) s fun t => Posted t r stsOk [] ∧ t.key.challenges.getD (sideIx r.side) none = none
      ∧ t.key.authority = some (r.side, s.ticks + msTicks 600000))
  ∧ (∀ (s : State) (r : Req), s.key.lc = .provisioned ∨ s.key.lc = .service →
    Answers (.keyZeroise r 0xFFFFFFF8) s fun t => Posted t r stsOk [] ∧ t.key.seed = none ∧ t.key.zeroised = true
      ∧ ∀ n, (slotOf t n).loaded = false)
  ∧ (∀ (s : State) (r : Req) (m n : Nat), s.Inv → s.key.lc = .maintenance → hasAuthority s r.side = true →
    s.key.rngFail = false → m < 2 ^ 32 → field m 2 0 = 0 → n < 32 → bitAt m n = true →
    Answers (.keyZeroise r m) s fun t => Posted t r stsOk [] ∧ slotOf t n = KeySlot.fresh
      ∧ t.key.blobA.getD n none = none ∧ t.key.blobB.getD n none = none)
  ∧ (∀ (s : State) (r : Req) (b : Bytes), b.length = 32 → s.key.lc = .retired ∨ (slotOf s 1).loaded = true →
    Answers (.keyAttest r b) s fun t => t.key.tamperSince = false
      ∧ ∃ x : Bytes, x.length = 96 ∧ Posted t r stsOk (statement s b ++ x))
  ∧ (∀ (s : State) (r : Req), s.key.certBad = false →
    Answers (.keyCertRead r) s fun t => Posted t r stsOk (Config.certificate.take 1024) ∧ t.key = s.key)
  ∧ (∀ (s : State) (v : Side), Answers (.keyCntLoRead v) s fun t => t.rdata = s.key.counter % 2 ^ 32
      ∧ (s.key.latchCnt.length = 2 → t.key.latchCnt.getD (sideIx v) none = some (s.key.counter / 2 ^ 32)))
  ∧ (∀ (s : State) (v : Side), Answers (.keyStatusRead v) s fun t => t.key = { s.key with zeroised := false }
      ∧ t.rdata = flagAt s.key.ready 0 + flagAt s.key.busy 4 + flagAt s.key.wipe 5 + flagAt s.key.zeroised 6
          + flagAt s.key.rngFail 7)
  ∧ (∀ s : State, s.key.lc = .maintenance → s.key.grant.isSome = true →
    Answers .maintGrantExpiry s fun t =>
      (s.str.act = none → t.key.grant = none ∧ t.key.lcRec.get.state = .service ∧ t.sys.reqReset.isSome = true)
        ∧ (s.str.act.isSome = true → t.key.returnDue = true ∧ t.key.grant = s.key.grant.map (fun g => { g with seconds := 0 })))
  ∧ (∀ (s : State) (v : Side),
    (Answers (.maintAuthorityExpiry v true) s fun t => t.key.challenges.getD (sideIx v) none = none)
      ∧ (s.key.authority.any (·.1 == v) = true →
          Answers (.maintAuthorityExpiry v false) s fun t => t.key = { s.key with authority := none }))
  ∧ (∀ (s : State) (d : Nat), s.Inv → d < 7 → s.sys.reset = none → s.sys.mode ≠ .dormant → s.sys.mode ≠ .watch →
    Answers (.tamperDetect d) s fun t => t.key.tampCnt = satInc 32 s.key.tampCnt ∧ bitAt t.key.active d = true
      ∧ bitAt t.key.latched d = true
      ∧ (s.key.lc = .provisioned ∨ s.key.lc = .service → t.key.seed = none ∧ ∀ n, (slotOf t n).loaded = false))

/-- Each update command completes with the bank, the trial or the status its rule gives (R351, R352, R354, R355, R356, R357, R358, R359, R362). Where this statement rests on the model's choice and on no rule of the spec: what is read back and the shape of a posted result are the model's record (log 6); the choices about updates and trials (log 14) and the opaque checks (log 17). -/
def Obligations.UpdateCommandsEffect : Prop :=
  (∀ (s : State) (r : Req) (h : Bytes), s.Inv → s.sys.badgerDown = false →
    Answers (.updBegin r h) s fun t =>
      match (beginRows s h).find? (·.2.1) with
      | some row => Posted t r row.2.2.1 [] ∧ t.upd.xfer = s.upd.xfer ∧ t.upd.rejectRow = row.1
      | none => Posted t r stsOk [] ∧ ∃ x, t.upd.xfer = some x ∧ x.kind = byteAt 8 h ∧ x.data = [])
  ∧ (∀ (s : State) (r : Req) (b : Bytes) (x : Transfer), s.sys.badgerDown = false → s.upd.xfer = some x → b ≠ [] →
    b.length ≤ 4096 → x.data.length + b.length ≤ leAt 0x14 4 x.header + 16 → s.sys.mode ≠ .limp →
    Answers (.updData r x.data.length b) s fun t => Posted t r stsOk []
      ∧ t.upd.xfer = some { x with data := x.data ++ b, tick := s.ticks })
  ∧ (∀ (s : State) (r : Req) (x : Transfer), s.Inv → s.sys.badgerDown = false → s.upd.xfer = some x → 1 ≤ x.kind →
    x.kind < 10 → leAt 0x14 4 x.header + 16 ≤ x.data.length → s.sys.mode ≠ .limp →
    Answers (.updEnd r) s fun t => t.upd.xfer = none ∧
      match plaintext x with
      | none => Posted t r stsIntegrity []
      | some p => Posted t r stsOk [] ∧
          (if otherIsB s x.kind then (kindOf t x.kind).b else (kindOf t x.kind).a).state = .staged
            ∧ (if otherIsB s x.kind then (kindOf t x.kind).b else (kindOf t x.kind).a).payload = p)
  ∧ (∀ (s : State) (r : Req), s.sys.badgerDown = false → s.upd.xfer.isSome = true →
    (Answers (.updAbort r) s fun t => Posted t r stsOk [] ∧ t.upd.xfer = none)
      ∧ Answers .updTransferTimeout s fun t => t.upd.xfer = none)
  ∧ (∀ (s : State) (r : Req) (k : Nat), s.Inv → s.sys.badgerDown = false → 5 ≤ k → k ≤ 8 → s.key.lc ≠ .retired →
    (otherBank s k).state = .staged → fitsRunning s [] k (otherBank s k) = true → settingsFit s k (otherBank s k) = true →
    s.sys.mode = .ready ∨ s.sys.mode = .maintenance → anySession s = false → s.upd.trial = none → s.upd.xfer = none →
    anyActivation s = false →
    Answers (.updActivate r k) s fun t => Posted t r stsOk [] ∧ (kindOf t k).activeB = otherIsB s k
      ∧ ∃ x, t.upd.trial = some x ∧ x.kind = k ∧ x.parts = [k] ∧ x.seconds = 600 ∧ x.starts = 0)
  ∧ (∀ (s : State) (r : Req) (x : Trial), s.sys.badgerDown = false → s.upd.trial = some x → x.kind = 5 → r.side = .cluster →
    Answers (.updConfirm r) s fun t => Posted t r stsOk [] ∧ t.upd.trial = some { x with confirmed := true })
  ∧ (∀ (s : State) (x : Trial), s.Inv → s.upd.trial = some x → x.kind ≠ 5 ∨ x.confirmed = true →
    Answers .trialPass s fun t => t.upd.trial = none ∧ t.upd.lastRc = stsOk
      ∧ ∀ k ∈ x.parts, 1 ≤ k → k ≤ 10 → (activeBank s k).secVersion ≤ (kindOf t k).floor)
  ∧ (∀ (s : State) (c : Nat) (x : Trial), s.Inv → s.upd.trial = some x → 1 ≤ x.kind → x.kind ≤ 10 →
    Answers (.trialFail c) s fun t => t.upd.trial = none
      ∧ (x.kind = 10 → t.upd.actBusy = true ∧ t.upd.act.rollback = true)
      ∧ (x.kind ≠ 10 →
          (if (kindOf s x.kind).activeB then (kindOf s x.kind).a else (kindOf s x.kind).b).state = .previous →
          (kindOf t x.kind).activeB = !(kindOf s x.kind).activeB))

/-- WARREN_ACTIVATE is decided by its conditions in order, and its completion ends the activation (R35, R40, R41, R42, R43). Where this statement rests on the model's choice and on no rule of the spec: the choices about activation (log 15) and about the image checks (log 12). -/
def Obligations.WarrenActivationEffect : Prop :=
  (∀ (s : State) (r : Req), s.sys.badgerDown = false → anyActivation s = true ∨ s.lane.warm ≠ [] →
    Answers (.warrenActivate r) s fun t => Posted t r stsBusy [] ∧ t.str.cur = s.str.cur ∧ t.str.lastRc = stsBusy)
  ∧ (∀ (s : State) (r : Req), s.sys.badgerDown = false → anyActivation s = false → s.lane.warm = [] →
    Answers (.warrenActivate r) s fun t =>
      t.str.actReason = validate s .activate (installedMet s) (copyOf s (inactiveCopy s)).bytes
        ∧ (t.str.actReason ≠ 0 → Posted t r (reasonSts t.str.actReason) [] ∧ t.str.cur = s.str.cur)
        ∧ (t.str.actReason = 0 →
            changedSections s (copyOf s (inactiveCopy s)).bytes = (false, false, false) →
            Posted t r stsPending [] ∧ t.str.cur = s.str.cur ∧ t.str.act = some { req := some r, copy := inactiveCopy s, side := r.side }
              ∧ (s.Inv → (copyOf t (inactiveCopy s)).sel = .trial ∧
                  (copyOf t (inactiveCopy s)).bytes = (copyOf s (inactiveCopy s)).bytes)))
  ∧ (∀ (s : State) (a : Activation) (r : Req), s.Inv → a.copy < 2 → s.str.act = some a → a.req = some r →
    Answers .warrenActivationComplete s fun t => t.str.act = none ∧ t.str.lastRc = stsOk ∧ Posted t r stsOk []
      ∧ t.str.cur = imageStruct (copyOf s a.copy).bytes ∧ t.str.copyInUse = a.copy + 1 ∧ t.str.noStruct = false
      ∧ (copyOf t a.copy).sel = .committed)

/-- Badger's watchdogs, mailboxes, monitors and log complete with the effect their rules give (R365, R366, R367, R368, R370, R371, R373, R374, R383). Where this statement rests on the model's choice and on no rule of the spec: what is read back and the shape of a posted result are the model's record (log 6); the choices about Badger (log 14). -/
def Obligations.BadgerCommandsEffect : Prop :=
  (∀ s : State, s.Inv → s.sys.booted = true → s.sys.badgerDown = false → s.sys.mode ≠ .watch → s.sys.mode ≠ .dormant →
    Answers .badgerWatchdogExpiry s fun t => t.sys.badgerDown = true ∧ t.sys.domBadger = satInc 8 s.sys.domBadger
      ∧ t.upd.xfer = none
      ∧ (s.sys.mode = .ready ∨ s.sys.mode = .session ∨ s.sys.mode = .maintenance → t.sys.mode = .limp))
  ∧ (∀ (s : State) (w : Word), s.mgt.appHeld = false → s.sys.badgerDown = false → s.mgt.therm ≠ 4 →
    Answers (.mgtAmbHbWrite w) s fun t => t.mgt.hbTick = some s.ticks ∧ t.sys.appDown = false)
  ∧ (∀ (s : State) (c : Nat), s.Inv → badgerUp s = true → s.mgt.appHeld = false → s.mgt.therm ≠ 4 →
    Answers (.appHeartbeatTimeout c) s fun t => t.sys.appDown = true
      ∧ ((lastHour s s.mgt.appTicks).length < 3 → t.sys.domApp = satInc 8 s.sys.domApp)
      ∧ (3 ≤ (lastHour s s.mgt.appTicks).length → t.mgt.appHeld = true)
      ∧ (s.sys.mode = .ready ∨ s.sys.mode = .session → t.sys.mode = .limp))
  ∧ (∀ (s : State) (r : Req), s.sys.badgerDown = false → r.side = .host →
    Answers (.mgtRestart r) s fun t => Posted t r stsOk [] ∧ t.sram = [] ∧ t.mgt.appHeld = false)
  ∧ (∀ (s : State) (v : Side),
    Answers (.mailboxDoorbell v) s fun t =>
      ((if v = .host then s.mgt.hmb else s.mgt.amb).inBell = true → t.mgt.mbxOvf = satInc 8 s.mgt.mbxOvf)
        ∧ ((if v = .host then s.mgt.hmb else s.mgt.amb).inBell = false →
            (if v = .host then t.mgt.hmb else t.mgt.amb).inBell = !badgerUp s))
  ∧ (∀ s : State, s.sys.badgerDown = true → s.mgt.badgerHeld = false →
    Answers .badgerReady s fun t => t.sys.badgerDown = false)
  ∧ (∀ (s : State) (b : Bool), s.Inv → s.sys.reset = none → s.sys.mode ≠ .dormant →
    Answers (.clockFail b) s fun t => t.OutputsSafe ∧ t.sys.reset = some { cold := false, causes := 2 ^ causeClockFail, pin := false })
  ∧ (∀ (s : State) (m : MonitorInput), s.Inv → badgerUp s = true →
    Answers (.monitorEvaluate m) s fun t => t.mgt.temps = m.temps.map (satSigned 16) ∧ t.mgt.sups = m.supplies ∧ t.mgt.lfRc = m.lfMissing
      ∧ (1450 ≤ (hottest m.temps).2 → 99 ≤ s.mgt.hotRun → t.mgt.therm = 4))
  ∧ (∀ (s : State) (b : Bool), badgerUp s = true →
    Answers (.logArchiveFlush b) s fun t => t.mgt.flushFailed = !b
      ∧ ∀ x, b = true → s.mgt.waiting = 1 → s.mgt.ring.getLast? = some x → x.ev.cls ≠ .legal →
          t.mgt.general.getLast? = some x)
  ∧ (∀ (s : State) (r : Req) (a n : Nat), s.sys.badgerDown = false → 1 ≤ n → n ≤ 32 →
    Answers (.mgtLogRead r a n) s fun t => t.mgt = s.mgt ∧
      ∃ (f : Nat) (l : List LogRec), l.length ≤ n ∧ (∀ x ∈ l, a ≤ x.seq)
        ∧ Posted t r stsOk (leBytes 4 f ++ leBytes 4 l.length ++ l.flatMap recordBytes))
  ∧ (∀ (s : State) (r : Req) (n : Nat), s.sys.badgerDown = false → n ≤ s.mgt.seq →
    Answers (.mgtLogAck r n) s fun t => Posted t r stsOk [] ∧ t.mgt.ack = max s.mgt.ack n)

/-- Sleep entry, wakes and mode commands complete with the transition of their row (R374, R375, R376, R377, R378, R379, R380). Where this statement rests on the model's choice and on no rule of the spec: the choices about sleep and modes (log 14); what is read back and the shape of a posted result are the model's record (log 6); an event command is trusted to come when its event happens (log 2). -/
def Obligations.SleepAndModeCommandsEffect : Prop :=
  (∀ (s : State) (r : Req) (k : Nat), s.sys.badgerDown = false → k = 1 ∨ k = 2 → s.sys.mode = .ready → s.sys.entry = none →
    (k = 1 → outletMask s ≠ 0) →
    Answers (.sleep r k) s fun t => Posted t r stsPending []
      ∧ t.sys = { s.sys with entry := some { req := r, target := k, point := .prepare } })
  ∧ (∀ (s : State) (l : Nat) (e : SleepEntry), s.sys.entry = some e → e.point = .prepare →
    Answers (.sleepVoteTimeout l) s fun t =>
      (refusers l s = 0 → t.sys.entry = some { e with point := .a1 })
        ∧ (refusers l s ≠ 0 → t.sys.entry = none ∧ t.mgt.refused = satInc 8 s.mgt.refused
            ∧ t.result = some { req := e.req, sts := stsRefused, detail := refusers l s, bytes := [] }))
  ∧ (∀ (s : State) (e : SleepEntry), s.Inv → s.sys.entry = some e → e.point = .a1 →
    Answers .sleepCommit s fun t => t.sys.entry = some { e with point := .saving } ∧ (e.target = 2 → t.met.stopped = true))
  ∧ (∀ (s : State) (e : SleepEntry), s.sys.entry = some e → e.point = .saving →
    Answers .sleepArm s fun t => t.sys.entry = some { e with point := .armed } ∧ Nat.land t.sys.armed 0x3F = 0x3F)
  ∧ (∀ (s : State) (e : SleepEntry), s.Inv → s.sys.entry = some e → e.point = .armed →
    Answers .sleepEnter s fun t => t.sys.entry = none ∧ t.sys.sleep.rc = stsOk ∧ t.mgt.entered = satInc 8 s.mgt.entered
      ∧ (e.target = 1 → t.sys.mode = .watch) ∧ (e.target ≠ 1 → t.sys.mode = .dormant ∧ t.sys.booted = false ∧ t.OutputsSafe))
  ∧ (∀ (s : State) (e : SleepEntry) (w : Nat), s.sys.entry = some e → w ≠ 0 →
    Answers (.wakeEvent w false) s fun t => t.sys.entry = none ∧ t.mgt.abandoned = satInc 8 s.mgt.abandoned
      ∧ Posted t e.req stsRefused [])
  ∧ (∀ (s : State) (w : Nat) (b : Bool), s.Inv → s.sys.entry = none → s.sys.reset = none → s.sys.mode = .watch →
    Nat.land w s.sys.armed ≠ 0 →
    Answers (.wakeEvent w b) s fun t => (t.sys.mode = .ready ∨ t.sys.mode = .session)
      ∧ t.sys.wakeSrc = Nat.land w s.sys.armed)
  ∧ (∀ (s : State) (w : Nat) (b : Bool), s.sys.entry = none → s.sys.reset = none → s.sys.mode = .dormant →
    Nat.land w 0x3F ≠ 0 → railsGood s = true →
    Answers (.wakeEvent w b) s fun t => t.sys.wakeSrc = Nat.land w 0x3F
      ∧ t.sys.reset = some { cold := false, causes := 2 ^ causeWake, pin := false })
  ∧ (∀ (s : State) (w : Word), s.Inv → s.sys.entry = none → s.sys.reset = none → s.sys.mode = .watch →
    Nat.land srcHsi s.sys.armed ≠ 0 →
    Answers (.sysWakeWrite w) s fun t => t.sys.mode = .ready ∨ t.sys.mode = .session)
  ∧ (∀ (s : State) (v : Side),
    exec (.sysWakesrcRead v) s = .next { s with sys := { s.sys with wakeSrc := 0 }, rdata := s.sys.wakeSrc })
  ∧ (∀ (s : State) (b : Bytes), s.Inv → blockBit s 4 = true → b.length = 16 → leAt 0 8 b = 0 ∨ leAt 0 8 b = s.ident.deviceId →
    s.sys.mode = .watch → s.sys.entry = none → s.sys.reset = none → s.glk.wakeArmed = true → s.glk.wakeInhibit = false →
    s.glk.wakeTick = none → Nat.land srcGrid s.sys.armed ≠ 0 →
    Answers (.glkWakeInd b) s fun t => (t.sys.mode = .ready ∨ t.sys.mode = .session) ∧ t.glk.wakeArmed = false
      ∧ t.glk.wakePend = none)
  ∧ (∀ (s : State) (r : Req), s.sys.badgerDown = false → s.sys.mode = .ready ∨ s.sys.mode = .session → anySession s = false →
    s.key.lc = .blank ∨ s.key.lc = .provisioned ∨ s.key.lc = .recovery
      ∨ (s.key.lc = .maintenance ∧ hasAuthority s r.side = true) →
    Answers (.modeSet r 5) s fun t => Posted t r stsOk [] ∧ t.sys.mode = .maintenance)
  ∧ (∀ (s : State) (r : Req), s.sys.badgerDown = false → s.sys.mode = .maintenance → s.str.noStruct = false →
    Answers (.modeSet r 2) s fun t => Posted t r stsOk [] ∧ (t.sys.mode = .ready ∨ t.sys.mode = .session))
  ∧ (∀ (s : State) (k : Nat), s.Inv → s.sys.mode = .limp → s.sys.badgerDown = false → s.sys.appDown = false →
    s.mgt.therm ≠ 4 → s.mgt.hbSince = some k → k + msTicks 10000 ≤ s.ticks →
    Answers .limpExit s fun t => t.sys.mode = .ready ∨ t.sys.mode = .session)
  ∧ (∀ (s : State) (o : Nat) (hi lo : Int), s.Inv → o < 4 → s.sys.reset = none → s.sys.mode ≠ .dormant → linked s o = true →
    Answers (.pilotStateAccepted o hi lo) s fun t =>
      (s.str.act.isSome = true → (linkOf t o).pilotHeld = some (hi, lo))
        ∧ (s.str.act = none → (linkOf t o).cpHi = satSigned 16 hi
            ∧ (linkOf t o).cp = if diodeFault (waveform s o) lo then .invalid
                else classifyHigh (linkOf s o).cp (waveform s o == 3) hi))

/-- Each command of the host interface completes with the ring, slot, memory or counter its rule gives (R389, R390, R391, R393, R394, R395, R396, R398, R400, R404). Where this statement rests on the model's choice and on no rule of the spec: that the ring's messages are taken within the write of CTAIL (log 6); what is read back and the shape of a posted result are the model's record (log 6). -/
def Obligations.HostInterfaceCommandsEffect : Prop :=
  (∀ (s : State) (v : Side) (w : Word), s.Inv → sideReady s v = true →
    Answers (.ctailWrite v w) s fun t =>
      ((w.toNat % 256 + 256 - (ringOf s v).head) % 256 ≤ 128 →
        (ringOf t v).tail = w.toNat % 256 ∧ (ringOf t v).head = w.toNat % 256)
      ∧ (128 < (w.toNat % 256 + 256 - (ringOf s v).head) % 256 →
        (ringOf t v).errCause = 1 ∧ (ringOf t v).irqRerr = true ∧ (ringOf t v).head = (ringOf s v).head))
  ∧ (∀ (s : State) (v : Side) (w : Word) (d : Desc), s.Inv → sideReady s v = true → s.sys.entry = none →
    w.toNat % 256 = ((ringOf s v).head + 1) % 256 → d = readDesc ((ringOf s v).desc.getD ((ringOf s v).head % 128) []) →
    d.tag ≤ 127 → ((ringOf s v).slots.getD d.tag Slot.fresh).running = false → descStatus s (ringOf s v) d = stsOk →
    Answers (.ctailWrite v w) s fun t =>
      ((ringOf t v).slots.getD d.tag Slot.fresh).running = true ∧ ((ringOf t v).slots.getD d.tag Slot.fresh).code = d.code
        ∧ ((ringOf t v).slots.getD d.tag Slot.fresh).gen = (((ringOf s v).slots.getD d.tag Slot.fresh).gen + 1) % 65536
        ∧ ∃ f ∈ (ringOf t v).flight, f.tag = d.tag ∧ f.code = d.code)
  ∧ (∀ (s : State) (v : Side) (w : Word), s.Inv → sideReady s v = true →
    Answers (.hsiReleaseWrite v w) s fun t =>
      (((ringOf s v).slots.getD (w.toNat % 128) Slot.fresh).running = false →
        (ringOf t v).slots.getD (w.toNat % 128) Slot.fresh
          = { Slot.fresh with gen := ((ringOf s v).slots.getD (w.toNat % 128) Slot.fresh).gen })
      ∧ (((ringOf s v).slots.getD (w.toNat % 128) Slot.fresh).running = true → (ringOf t v).errCause = 3
          ∧ (ringOf t v).slots = (ringOf s v).slots))
  ∧ (∀ (s : State) (v : Side) (k : Nat), s.Inv → sideReady s v = true → k ≤ 127 →
    Answers (.resultSlotRead v k) s fun t =>
      t.rdata = leNat (slotHeader k ((ringOf s v).slots.getD k Slot.fresh))
        ∧ (((ringOf s v).slots.getD k Slot.fresh).ready = true → ((ringOf t v).slots.getD k Slot.fresh).readCount
            = satInc 4 ((ringOf s v).slots.getD k Slot.fresh).readCount))
  ∧ (∀ (s : State) (v : Side) (a : Nat) (b : Bytes), s.Inv → sideReady s v = true → a % 4 = 0 → b.length % 4 = 0 → b ≠ [] →
    b.length ≤ 4096 → a + b.length ≤ halfSize →
    Answers (.bufferWrite v a b) s fun t =>
      (∀ i, 4 * i < b.length → overlapsClaim (ringOf s v) 128 (a + 4 * i) 4 = false →
        memReadN (ringOf t v).mem (a + 4 * i) 4 = (b.drop (4 * i)).take 4)
      ∧ (∀ i, 4 * i < b.length → overlapsClaim (ringOf s v) 128 (a + 4 * i) 4 = true →
        memReadN (ringOf t v).mem (a + 4 * i) 4 = memReadN (ringOf s v).mem (a + 4 * i) 4)
      ∧ (∀ x, x < a ∨ a + b.length ≤ x → memRead (ringOf t v).mem x = memRead (ringOf s v).mem x))
  ∧ (∀ s : State, s.hsi.hReady = true →
    (∀ f, hsiRow f = 0 → f.late = true → hsiWrites f = false →
        Answers (.hsiTransactionError f) s fun t => t.hsi = { s.hsi with waitErr := satInc 8 s.hsi.waitErr })
      ∧ (∀ f, hsiRow f = 0 → f.late = false ∨ hsiWrites f = true → exec (.hsiTransactionError f) s = .next s)
      ∧ (∀ f, hsiRow f = 2 ∨ hsiRow f = 3 →
        Answers (.hsiTransactionError f) s fun t => t.hsi.lenErr = satInc 8 s.hsi.lenErr ∧ t.hsi.h.irqLink = true)
      ∧ (∀ f, hsiRow f = 4 →
        Answers (.hsiTransactionError f) s fun t => t.hsi.crcErr = satInc 8 s.hsi.crcErr ∧ t.hsi.h.irqLink = true)
      ∧ (∀ f, hsiRow f = 1 ∨ hsiRow f = 5 →
        Answers (.hsiTransactionError f) s fun t => t.hsi.abort = satInc 8 s.hsi.abort ∧ t.hsi.h.irqLink = true)
      ∧ Answers .hsiFrameTimeout s fun t => t.hsi.abort = satInc 8 s.hsi.abort ∧ t.hsi.h.irqLink = true)
  ∧ (∀ (s : State) (r : Req), ((ringOf s r.side).flight.any fun f =>
      f.tag == r.tag && (cmdRow f.code).any fun row => row.who == .badger) = true →
    Answers (.badgerCommandTimeout r) s fun t => Posted t r stsTimeout [])
  ∧ (∀ (s : State) (r : Req) (b : Bytes), b.length ≤ 8192 → Answers (.hsiNop r b) s fun t => Posted t r stsOk b)

/-- A register write reaches its field within range, ignores what is absent or reserved, and writes words in order (R12, R45, R387, R389, R403). Where this statement rests on the model's choice and on no rule of the spec: that a burst is written word by word and an unaligned write changes no field (log 31). -/
def Obligations.RegisterWritesReachTheirFields : Prop :=
  (∀ (s : State) (v : Side) (a : Nat) (w : Word) (l : List Word), sideReady s v = true → a % 4 = 0 → l.length < 1024 →
    a + 4 * (l.length + 1) ≤ 0x1000000 →
    exec (.registerWrite v a (w :: l)) s = .next (regWrites v (a + 4) l (regWrite v a w.toNat s)))
  ∧ (∀ (s : State) (v : Side) (w : Word), sideReady s v = true →
    Answers (.registerWrite v 0x00000C [w]) s fun t =>
      t.sys.warnMv = (if inRange 5000 24000 (field w.toNat 14 0) then field w.toNat 14 0 else s.sys.warnMv)
        ∧ OnlyIn [.sys] s t)
  ∧ (∀ (s : State) (v : Side) (w : Word), sideReady s v = true →
    Answers (.registerWrite v 0x130010 [w]) s fun t =>
      t.upd.keySlot = (if 3 ≤ field w.toNat 4 0 then field w.toNat 4 0 else s.upd.keySlot) ∧ OnlyIn [.upd] s t)
  ∧ (∀ (s : State) (v : Side) (w : Word), sideReady s v = true →
    Answers (.registerWrite v 0x0F0028 [w]) s fun t => t.tim.alarmS = s.tim.alarmS / 2 ^ 32 * 2 ^ 32 + w.toNat
      ∧ OnlyIn [.tim] s t)
  ∧ (∀ (s : State) (v : Side) (w : Word), sideReady s v = true →
    Answers (.registerWrite v 0x040010 [w]) s fun t => t.met.harmOutlet = field w.toNat 9 8
      ∧ t.met.harmOrder = (if field w.toNat 5 0 = 0 then s.met.harmOrder else field w.toNat 5 0) ∧ OnlyIn [.met] s t)
  ∧ (∀ (s : State) (v : Side) (k : Nat) (w : Word), s.Inv → sideReady s v = true → k < 12 → chDeclared s k = true →
    Answers (.registerWrite v (0x080100 + 0x20 * k) [w]) s fun t => (chOf t k).ctlOn = bitAt w.toNat 0)
  ∧ (∀ (s : State) (v : Side) (o : Nat) (w : Word), s.Inv → sideReady s v = true → o < 4 → linked s o = true →
    (linkOf s o).sup = .idle ∨ (linkOf s o).sup = .connected →
    Answers (.registerWrite v (0x0C0004 + 0x4000 * o) [w]) s fun t =>
      (linkOf t o).ppMode = field w.toNat 1 0 ∧ (linkOf t o).ventOk = bitAt w.toNat 3
        ∧ (linkOf t o).fallback = bitAt w.toNat 4
        ∧ (linkOf t o).disc = if inRange 1 20 (field w.toNat 12 8) then field w.toNat 12 8 else (linkOf s o).disc)
  ∧ (∀ (s : State) (v : Side) (a : Nat) (w : Word), 0x160000 ≤ a → exec (.registerWrite v a [w]) s = .next s)
  ∧ (∀ (s : State) (a : Nat) (w : Word), 0x151000 ≤ a → a < 0x152000 → exec (.registerWrite .cluster a [w]) s = .next s)
  ∧ (∀ (s : State) (v : Side) (a : Nat) (l : List Word), a % 4 ≠ 0 → exec (.registerWrite v a l) s = .next s)
  ∧ (∀ (s : State) (v : Side) (a : Nat) (w : Word), sideReady s v = false → exec (.registerWrite v a [w]) s = .next s)

/-- The commands of lanes change the blocks their clause lists and no other (R48, R54, R57, R63, R66, R69, R71, R72, R74, R78). Where this statement rests on the model's choice and on no rule of the spec: the grouping of the state into the parts of Sys2Proof/Safety.lean, and the record of results and events, which every command may extend (log 6). -/
def Obligations.LaneFrames : Prop :=
  ∀ s t : State,
    (∀ (a0 : Nat) (a1 : LaneInput), exec (.laneSampleWord a0 a1) s = .next t → OnlyIn [.lane, .log, .freeCtr] s t)
    ∧ (∀ (a0 : Nat) (a1 : Bool), exec (.laneStuck a0 a1) s = .next t → OnlyIn [.lane, .log] s t)
    ∧ (∀ (a0 : Nat), exec (.laneSuspect a0) s = .next t → OnlyIn [.lane, .log] s t)
    ∧ (∀ (a0 : Nat) (a1 : Nat), exec (.spareFailed a0 a1) s = .next t → OnlyIn [.lane, .log] s t)
    ∧ (∀ (a0 : Nat) (a1 : Nat), exec (.laneFailed a0 a1) s = .next t → OnlyIn [.lane, .log] s t)
    ∧ (∀ (a0 : Nat), exec (.laneClkerr a0) s = .next t → OnlyIn [.lane] s t)
    ∧ (∀ (a0 : Nat) (a1 : Word), exec (.firdataWrite a0 a1) s = .next t → OnlyIn [.lane] s t)
    ∧ (∀ (a0 : Nat), exec (.firSwap a0) s = .next t → OnlyIn [.lane] s t)
    ∧ (∀ (a0 : Nat) (a1 : Bool), exec (.laneTrialWrite a0 a1) s = .next t → OnlyIn [.lane] s t)
    ∧ (∀ (a0 : Nat) (a1 : Bool) (a2 : Word), exec (.laneCalWrite a0 a1 a2) s = .next t → OnlyIn [.lane] s t)
    ∧ (∀ (a0 : Nat), exec (.strikeExpiry a0) s = .next t → OnlyIn [.lane] s t)
    ∧ (∀ (a0 : Nat), exec (.modulatorClockReturn a0) s = .next t → OnlyIn [.lane] s t)
    ∧ (∀ (a0 : Nat) (a1 : Nat), exec (.resamplerCycle a0 a1) s = .next t → OnlyIn [.lane, .glk, .log] s t)
    ∧ (∀ (a0 : Nat) (a1 : Bool) (a2 : Bool), exec (.detectorUpdate a0 a1 a2) s = .next t → OnlyIn [.lane, .freeCtr] s t)
    ∧ (∀ (a0 : Nat) (a1 : Bool) (a2 : Bool), exec (.warmupDecision a0 a1 a2) s = .next t → OnlyIn [.lane, .met, .log] s t)
    ∧ (∀ (a0 : Nat), exec (.laneSwap a0) s = .next t → OnlyIn [.str, .lane, .log] s t)
    ∧ (∀ (a0 : Req) (a1 : Nat), exec (.laneRestore a0 a1) s = .next t → OnlyIn [.str, .lane, .met, .log, .hsi, .result] s t)

/-- The commands of metrology, stores and billing change the blocks their clause lists and no other (R83, R94, R107, R110, R114, R119, R127, R136, R141, R149, R151, R152). Where this statement rests on the model's choice and on no rule of the spec: the grouping of the state into the parts of Sys2Proof/Safety.lean, and the record of results and events, which every command may extend (log 6). -/
def Obligations.MetrologyAndBillingFrames : Prop :=
  ∀ s t : State,
    (exec .saveComplete s = .next t → OnlyIn [.met] s t)
    ∧ (∀ (a0 : Nat), exec (.pulseTimer a0) s = .next t → OnlyIn [.met] s t)
    ∧ (∀ (a0 : Word), exec (.snapctlTake a0) s = .next t → OnlyIn [.met] s t)
    ∧ (∀ (a0 : Word), exec (.calctlStart a0) s = .next t → OnlyIn [.met] s t)
    ∧ (exec .calctlStop s = .next t → OnlyIn [.met] s t)
    ∧ (exec .snapshotSigned s = .next t → OnlyIn [.met, .bil, .mgt, .freeCtr] s t)
    ∧ (∀ (a0 : Nat), exec (.sramScrub a0) s = .next t → OnlyIn [.mgt] s t)
    ∧ (exec .metCoreReload s = .next t → OnlyIn [.met, .bil, .sys] s t)
    ∧ (∀ (a0 : Side) (a1 : Nat) (a2 : Nat), exec (.energyLoRead a0 a1 a2) s = .next t → OnlyIn [.met, .rdata] s t)
    ∧ (∀ (a0 : Side), exec (.harmLoRead a0) s = .next t → OnlyIn [.met, .rdata] s t)
    ∧ (∀ (a0 : Side) (a1 : Nat) (a2 : Bool), exec (.calAccLoRead a0 a1 a2) s = .next t → OnlyIn [.met, .rdata] s t)
    ∧ (∀ (a0 : Nat), exec (.legalEventConfirm a0) s = .next t → OnlyIn [.met, .mgt, .log] s t)
    ∧ (∀ (a0 : Side) (a1 : BilLo), exec (.bilLoRead a0 a1) s = .next t → OnlyIn [.bil, .rdata] s t)
    ∧ (∀ (a0 : Req) (a1 : Bytes), exec (.calLoad a0 a1) s = .next t → OnlyIn [.met, .bil, .log, .hsi, .result] s t)
    ∧ (∀ (a0 : Req) (a1 : Bytes), exec (.tokenEnter a0 a1) s = .next t → OnlyIn [.met, .bil, .log, .hsi, .result] s t)
    ∧ (∀ (a0 : Req) (a1 : Nat), exec (.billSnapRead a0 a1) s = .next t → OnlyIn [.hsi, .result] s t)
    ∧ (∀ (a0 : Req), exec (.billReset a0) s = .next t → OnlyIn [.bil, .hsi, .result] s t)
    ∧ (exec .loadProfileRecord s = .next t → OnlyIn [.bil] s t)
    ∧ (∀ (a0 : Nat), exec (.tokenMirrorConfirm a0) s = .next t → OnlyIn [.bil] s t)
    ∧ (exec .metFirmwareReloaded s = .next t → OnlyIn [.met, .bil] s t)

/-- The commands of load switch, protection and locks change the blocks their clause lists and no other (R156, R157, R159, R163, R167, R169, R171, R173, R174, R178, R179, R226). Where this statement rests on the model's choice and on no rule of the spec: the grouping of the state into the parts of Sys2Proof/Safety.lean, and the record of results and events, which every command may extend (log 6). -/
def Obligations.PowerFrames : Prop :=
  ∀ s t : State,
    (∀ (a0 : Nat), exec (.lsDemandChange a0) s = .next t → OnlyIn [.pwr, .vlk, .log] s t)
    ∧ (∀ (a0 : Nat) (a1 : Int), exec (.lsOverload a0 a1) s = .next t → OnlyIn [.pwr, .vlk, .log] s t)
    ∧ (∀ (a0 : Nat) (a1 : Int), exec (.lsInrushEnd a0 a1) s = .next t → OnlyIn [.pwr, .vlk, .log] s t)
    ∧ (∀ (a0 : Nat), exec (.lsRetryTimer a0) s = .next t → OnlyIn [.pwr, .vlk, .log] s t)
    ∧ (∀ (a0 : Nat) (a1 : Int), exec (.lsThermalLatch a0 a1) s = .next t → OnlyIn [.pwr, .vlk, .log] s t)
    ∧ (∀ (a0 : Nat) (a1 : Int), exec (.lsLatchAutoclear a0 a1) s = .next t → OnlyIn [.pwr, .vlk, .log] s t)
    ∧ (∀ (a0 : Bool) (a1 : Nat), exec (.limpInputChange a0 a1) s = .next t → OnlyIn [.pwr, .vlk, .log] s t)
    ∧ (∀ (a0 : Nat), exec (.lockTimeout a0) s = .next t → OnlyIn [.pwr, .vlk, .log] s t)
    ∧ (∀ (a0 : Nat), exec (.lockRetry a0) s = .next t → OnlyIn [.pwr, .vlk, .log] s t)
    ∧ (∀ (a0 : Nat), exec (.lsRetryReset a0) s = .next t → OnlyIn [.pwr] s t)
    ∧ (∀ (a0 : Nat) (a1 : Nat), exec (.lsUndervoltage a0 a1) s = .next t → OnlyIn [.pwr, .owl, .vlk, .log] s t)
    ∧ (∀ (a0 : Nat) (a1 : Nat), exec (.lsUvRecover a0 a1) s = .next t → OnlyIn [.pwr, .owl, .vlk, .log] s t)
    ∧ (∀ (a0 : Nat) (a1 : Int), exec (.lsOpenloadOn a0 a1) s = .next t → OnlyIn [.pwr, .log] s t)
    ∧ (∀ (a0 : Nat) (a1 : Nat), exec (.lsOpenloadDiag a0 a1) s = .next t → OnlyIn [.pwr, .log] s t)
    ∧ (∀ (a0 : Req) (a1 : Nat) (a2 : Nat), exec (.pwrClear a0 a1 a2) s = .next t → OnlyIn [.pwr, .vlk, .log, .hsi, .result] s t)
    ∧ (∀ (a0 : Req) (a1 : Nat), exec (.weldClear a0 a1) s = .next t → OnlyIn [.owl, .log, .hsi, .result] s t)
    ∧ (∀ (a0 : Nat) (a1 : Nat), exec (.fastTrip a0 a1) s = .next t → OnlyIn [.pwr, .flt, .owl, .vlk, .log] s t)
    ∧ (∀ (a0 : Nat) (a1 : Nat), exec (.rcTrip a0 a1) s = .next t → OnlyIn [.pwr, .flt, .owl, .vlk, .log] s t)
    ∧ (∀ (a0 : Nat) (a1 : List Int), exec (.rcEvaluate a0 a1) s = .next t → OnlyIn [.flt, .freeCtr] s t)
    ∧ (∀ (a0 : Nat) (a1 : IsoInput), exec (.isoStateSwitch a0 a1) s = .next t → OnlyIn [.flt, .freeCtr] s t)
    ∧ (∀ (a0 : Nat) (a1 : Int), exec (.isoUnknown a0 a1) s = .next t → OnlyIn [.flt, .log] s t)
    ∧ (∀ (a0 : Nat) (a1 : WeldInput), exec (.preCloseResult a0 a1) s = .next t → OnlyIn [.met, .pwr, .flt, .owl, .vlk, .sys, .mgt, .log] s t)
    ∧ (∀ (a0 : Nat) (a1 : WeldInput), exec (.postOpenResult a0 a1) s = .next t → OnlyIn [.met, .pwr, .flt, .owl, .vlk, .sys, .mgt, .log] s t)
    ∧ (∀ (a0 : Nat) (a1 : Bool), exec (.lockFeedback a0 a1) s = .next t → OnlyIn [.met, .pwr, .owl, .vlk, .sys, .mgt, .log] s t)
    ∧ (∀ (a0 : Nat), exec (.precloseRetry a0) s = .next t → OnlyIn [.vlk] s t)
    ∧ (∀ (a0 : Nat) (a1 : TapInput), exec (.fastTapWord a0 a1) s = .next t → OnlyIn [.lane, .met, .pwr, .flt, .owl, .vlk, .sys, .mgt, .log, .freeCtr] s t)

/-- The commands of Owl and external safety frames change the blocks their clause lists and no other (R98, R184, R185, R189, R191, R194, R202, R204, R207, R209, R210). Where this statement rests on the model's choice and on no rule of the spec: the grouping of the state into the parts of Sys2Proof/Safety.lean, and the record of results and events, which every command may extend (log 6). -/
def Obligations.OwlFrames : Prop :=
  ∀ s t : State,
    (∀ (a0 : Nat) (a1 : Nat), exec (.supervisedDelayExpiry a0 a1) s = .next t → OnlyIn [.pwr, .owl, .vlk, .log, .freeCtr] s t)
    ∧ (exec .owlStartComplete s = .next t → OnlyIn [.met, .pwr, .owl, .vlk, .log] s t)
    ∧ (∀ (a0 : Nat) (a1 : Nat), exec (.owlDiagFail a0 a1) s = .next t → OnlyIn [.met, .pwr, .owl, .vlk, .sys, .mgt, .log] s t)
    ∧ (∀ (a0 : Nat) (a1 : Bool) (a2 : Nat), exec (.owlPeriodicDiag a0 a1 a2) s = .next t → OnlyIn [.met, .pwr, .owl, .vlk, .sys, .mgt, .log] s t)
    ∧ (exec .owlWatchdogExpiry s = .next t → OnlyIn [.met, .pwr, .owl, .vlk, .sys, .mgt, .log] s t)
    ∧ (exec .owlCycle s = .next t → OnlyIn [.met, .pwr, .owl, .vlk, .sys, .mgt, .log] s t)
    ∧ (∀ (a0 : Nat) (a1 : Bool), exec (.guardInputChange a0 a1) s = .next t → OnlyIn [.met, .pwr, .owl, .vlk, .sys, .mgt, .log] s t)
    ∧ (∀ (a0 : Nat) (a1 : Nat), exec (.guardDisagree a0 a1) s = .next t → OnlyIn [.met, .pwr, .owl, .vlk, .sys, .mgt, .log] s t)
    ∧ (exec .owlSafeTimeout s = .next t → OnlyIn [.owl, .sys, .log] s t)
    ∧ (∀ (a0 : Nat), exec (.meterOkTimeout a0) s = .next t → OnlyIn [.owl] s t)
    ∧ (∀ (a0 : Nat), exec (.autoclrExpiry a0) s = .next t → OnlyIn [.owl] s t)
    ∧ (exec .safetySessionExpiry s = .next t → OnlyIn [.owl] s t)
    ∧ (exec .pwLockoutEnd s = .next t → OnlyIn [.owl] s t)
    ∧ (∀ (a0 : Nat) (a1 : Nat), exec (.tripAutoclear a0 a1) s = .next t → OnlyIn [.pwr, .flt, .owl, .vlk, .log] s t)
    ∧ (∀ (a0 : Req) (a1 : Bytes), exec (.owlPwProve a0 a1) s = .next t → OnlyIn [.owl, .log, .hsi, .result] s t)
    ∧ (∀ (a0 : Req) (a1 : Bytes), exec (.owlEfdomSet a0 a1) s = .next t → OnlyIn [.owl, .log, .hsi, .result] s t)
    ∧ (∀ (a0 : Req) (a1 : Bytes) (a2 : Bytes), exec (.owlPwSet a0 a1 a2) s = .next t → OnlyIn [.owl, .log, .hsi, .freeCtr, .result] s t)
    ∧ (∀ (a0 : Req), exec (.owlPwEnd a0) s = .next t → OnlyIn [.owl, .hsi, .result] s t)
    ∧ (∀ (a0 : Req) (a1 : Nat), exec (.owlTripClear a0 a1) s = .next t → OnlyIn [.pwr, .flt, .owl, .vlk, .log, .hsi, .result] s t)
    ∧ (∀ (a0 : Req) (a1 : Nat), exec (.owlLogRead a0 a1) s = .next t → OnlyIn [.hsi, .result] s t)
    ∧ (∀ (a0 : Nat), exec (.efdomTransmit a0) s = .next t → OnlyIn [.owl, .glk, .eth, .can, .freeCtr] s t)
    ∧ (∀ (a0 : Nat) (a1 : Bytes), exec (.efdomFrameReceive a0 a1) s = .next t → OnlyIn [.owl, .log, .freeCtr] s t)
    ∧ (∀ (a0 : Nat), exec (.efdomWatchdogExpiry a0) s = .next t → OnlyIn [.owl, .log] s t)

/-- The commands of vehicle links change the blocks their clause lists and no other (R218, R223, R224, R226, R227, R232, R233, R234, R239). Where this statement rests on the model's choice and on no rule of the spec: the grouping of the state into the parts of Sys2Proof/Safety.lean, and the record of results and events, which every command may extend (log 6). -/
def Obligations.VehicleFrames : Prop :=
  ∀ s t : State,
    (∀ (a0 : Nat) (a1 : Bool), exec (.pilotFaultHold a0 a1) s = .next t → OnlyIn [.met, .pwr, .owl, .vlk, .tag, .sys, .mgt, .log] s t)
    ∧ (∀ (a0 : Nat), exec (.pilotModeTransitionEnd a0) s = .next t → OnlyIn [.met, .owl, .vlk] s t)
    ∧ (∀ (a0 : Nat) (a1 : Word), exec (.vlkPilotWrite a0 a1) s = .next t → OnlyIn [.met, .owl, .vlk] s t)
    ∧ (∀ (a0 : Nat) (a1 : Bool), exec (.validationWindowEnd a0 a1) s = .next t → OnlyIn [.met, .owl, .vlk] s t)
    ∧ (∀ (a0 : Nat) (a1 : Nat), exec (.proximityCode a0 a1) s = .next t → OnlyIn [.met, .pwr, .owl, .vlk, .sys, .mgt, .log, .freeCtr] s t)
    ∧ (∀ (a0 : Req) (a1 : Nat), exec (.vlkStart a0 a1) s = .next t → OnlyIn [.met, .pwr, .owl, .vlk, .sys, .mgt, .log, .hsi, .result] s t)
    ∧ (∀ (a0 : Req) (a1 : Nat) (a2 : Nat), exec (.vlkStop a0 a1 a2) s = .next t → OnlyIn [.met, .pwr, .owl, .vlk, .sys, .mgt, .log, .hsi, .result] s t)
    ∧ (∀ (a0 : Req) (a1 : Nat), exec (.vlkUnlock a0 a1) s = .next t → OnlyIn [.pwr, .vlk, .sys, .mgt, .log, .hsi, .result] s t)
    ∧ (∀ (a0 : Nat), exec (.releaseRetry a0) s = .next t → OnlyIn [.met, .pwr, .owl, .vlk, .sys, .mgt, .log] s t)
    ∧ (∀ (a0 : Nat) (a1 : Nat) (a2 : Nat), exec (.overdraw a0 a1 a2) s = .next t → OnlyIn [.met, .pwr, .owl, .vlk, .sys, .mgt, .log] s t)
    ∧ (∀ (a0 : Nat), exec (.dcContactorOpen a0) s = .next t → OnlyIn [.pwr, .owl, .vlk, .log] s t)
    ∧ (∀ (a0 : Nat) (a1 : Nat), exec (.cmSlacParmReq a0 a1) s = .next t → OnlyIn [.vlk, .freeCtr] s t)
    ∧ (∀ (a0 : Nat), exec (.attenCharResend a0) s = .next t → OnlyIn [.vlk, .freeCtr] s t)
    ∧ (∀ (a0 : Nat) (a1 : Nat), exec (.cmSlacMatchReq a0 a1) s = .next t → OnlyIn [.vlk, .freeCtr] s t)
    ∧ (∀ (a0 : Nat) (a1 : Nat), exec (.cmStartAttenCharInd a0 a1) s = .next t → OnlyIn [.vlk] s t)
    ∧ (∀ (a0 : Nat) (a1 : Nat) (a2 : List Nat), exec (.cmMnbcSoundInd a0 a1 a2) s = .next t → OnlyIn [.vlk] s t)
    ∧ (∀ (a0 : Nat) (a1 : Nat), exec (.cmAttenCharRsp a0 a1) s = .next t → OnlyIn [.vlk] s t)
    ∧ (∀ (a0 : Nat) (a1 : Nat) (a2 : Nat), exec (.cmValidateReq a0 a1 a2) s = .next t → OnlyIn [.vlk] s t)
    ∧ (∀ (a0 : Nat), exec (.soundingWindowEnd a0) s = .next t → OnlyIn [.vlk, .log, .freeCtr] s t)
    ∧ (∀ (a0 : Nat), exec (.slacJoined a0) s = .next t → OnlyIn [.vlk, .log] s t)
    ∧ (∀ (a0 : Nat) (a1 : SlacTimeout), exec (.slacTimeout a0 a1) s = .next t → OnlyIn [.vlk, .log] s t)
    ∧ (∀ (a0 : Nat), exec (.slacLinkLost a0) s = .next t → OnlyIn [.vlk, .log] s t)

/-- The commands of time base, supply and reset change the blocks their clause lists and no other (R260, R262, R264, R269, R270, R271, R273, R416, R419, R422, R423, R429). Where this statement rests on the model's choice and on no rule of the spec: the grouping of the state into the parts of Sys2Proof/Safety.lean, and the record of results and events, which every command may extend (log 6). -/
def Obligations.TimeSupplyAndResetFrames : Prop :=
  ∀ s t : State,
    (∀ (a0 : Option (Nat × Nat)), exec (.supplyGood a0) s = .next t → OnlyIn [.sys] s t)
    ∧ (∀ (a0 : Word), exec (.sysRstreqWrite a0) s = .next t → OnlyIn [.sys] s t)
    ∧ (∀ (a0 : BootInput), exec (.boot a0) s = .next t → OnlyIn [.str, .lane, .met, .bil, .pwr, .flt, .owl, .vlk, .glk, .eth, .tim, .tag, .epd, .key, .upd, .sys, .mgt, .log, .hsi, .can, .sram, .freeCtr] s t)
    ∧ (∀ (a0 : Nat), exec (.domainHoldoverExpiry a0) s = .next t → OnlyIn [.tim, .log] s t)
    ∧ (∀ (a0 : Nat) (a1 : Word), exec (.timIncWrite a0 a1) s = .next t → OnlyIn [.tim, .log] s t)
    ∧ (∀ (a0 : Nat) (a1 : Bool), exec (.slewComplete a0 a1) s = .next t → OnlyIn [.tim] s t)
    ∧ (∀ (a0 : Int), exec (.rtcCalibration a0) s = .next t → OnlyIn [.tim] s t)
    ∧ (∀ (a0 : Word), exec (.timAlarmHiWrite a0) s = .next t → OnlyIn [.tim] s t)
    ∧ (exec .timPtpfPop s = .next t → OnlyIn [.tim] s t)
    ∧ (∀ (a0 : Req) (a1 : Nat) (a2 : Nat), exec (.timSet a0 a1 a2) s = .next t → OnlyIn [.bil, .tim, .log, .hsi, .result] s t)
    ∧ (∀ (a0 : Req) (a1 : Nat) (a2 : Int), exec (.timOffset a0 a1 a2) s = .next t → OnlyIn [.bil, .tim, .log, .hsi, .result] s t)
    ∧ (∀ (a0 : Req) (a1 : Nat), exec (.timSelect a0 a1) s = .next t → OnlyIn [.tim, .hsi, .result] s t)
    ∧ (∀ (a0 : Side), exec (.timNowLoRead a0) s = .next t → OnlyIn [.tim, .rdata] s t)
    ∧ (∀ (a0 : Side) (a1 : Nat), exec (.timDomTsLoRead a0 a1) s = .next t → OnlyIn [.tim, .rdata] s t)
    ∧ (∀ (a0 : Side), exec (.timBcnTsLoRead a0) s = .next t → OnlyIn [.tim, .rdata] s t)
    ∧ (∀ (a0 : Side), exec (.timStatusRead a0) s = .next t → OnlyIn [.tim, .rdata] s t)
    ∧ (∀ (a0 : Bool) (a1 : Nat) (a2 : List (Nat × IntervalInput)), exec (.powerFailWarning a0 a1 a2) s = .next t → OnlyIn [.lane, .met, .bil, .pwr, .owl, .vlk, .glk, .eth, .tag, .sys, .mgt, .log, .hsi, .can, .sram, .freeCtr, .result] s t)
    ∧ (∀ (a0 : Nat), exec (.holdupComplete a0) s = .next t → OnlyIn [.met, .pwr, .owl, .vlk, .glk, .eth, .tim, .tag, .epd, .key, .sys, .mgt, .log, .hsi, .can, .sram] s t)
    ∧ (∀ (a0 : Bool), exec (.rstNAssert a0) s = .next t → OnlyIn [.met, .pwr, .owl, .vlk, .tim, .sys, .hsi] s t)
    ∧ (∀ (a0 : Nat), exec (.brownout a0) s = .next t → OnlyIn [.met, .pwr, .owl, .vlk, .tim, .sys, .hsi] s t)
    ∧ (exec .requestedReset s = .next t → OnlyIn [.met, .pwr, .owl, .vlk, .tim, .sys, .hsi] s t)
    ∧ (exec .vbatPor s = .next t → OnlyIn [.met, .pwr, .owl, .vlk, .tim, .key, .sys, .hsi] s t)

/-- The commands of frame rings, grid link, Ethernet and CAN change the blocks their clause lists and no other (R236, R246, R247, R248, R249, R250, R252, R254, R256, R409). Where this statement rests on the model's choice and on no rule of the spec: the grouping of the state into the parts of Sys2Proof/Safety.lean, and the record of results and events, which every command may extend (log 6). -/
def Obligations.PortFrames : Prop :=
  ∀ s t : State,
    (∀ (a0 : Port) (a1 : Word), exec (.frameTxTailWrite a0 a1) s = .next t → OnlyIn [portPart a0, .sram] s t)
    ∧ (∀ (a0 : Port), exec (.frameTxTimeout a0) s = .next t → OnlyIn [portPart a0, .sram] s t)
    ∧ (∀ (a0 : Port) (a1 : Word), exec (.frameRxTailWrite a0 a1) s = .next t → OnlyIn [portPart a0] s t)
    ∧ (∀ (a0 : Port) (a1 : Nat), exec (.frameTransmitted a0 a1) s = .next t → OnlyIn [portPart a0, .tim, .log, .sram, .freeCtr] s t)
    ∧ (∀ (a0 : Port) (a1 : RxFrame), exec (.frameReceived a0 a1) s = .next t → OnlyIn [portPart a0, .owl, .tim, .log, .sram, .freeCtr] s t)
    ∧ (∀ (a0 : Beacon), exec (.glkBeacon a0) s = .next t → OnlyIn [.glk, .tim, .log, .sram] s t)
    ∧ (∀ (a0 : Bool) (a1 : Nat), exec (.ccAssocCnf a0 a1) s = .next t → OnlyIn [.glk] s t)
    ∧ (exec .glkAssocTimeout s = .next t → OnlyIn [.glk] s t)
    ∧ (exec .glkLeaseRenew s = .next t → OnlyIn [.glk] s t)
    ∧ (∀ (a0 : Nat), exec (.neighbourExpiry a0) s = .next t → OnlyIn [.glk] s t)
    ∧ (∀ (a0 : Nat) (a1 : ToneMap), exec (.toneMapReceived a0 a1) s = .next t → OnlyIn [.glk] s t)
    ∧ (∀ (a0 : Nat) (a1 : ToneTimeout), exec (.toneMapTimeout a0 a1) s = .next t → OnlyIn [.glk] s t)
    ∧ (∀ (a0 : Nat), exec (.toneMapReestimate a0) s = .next t → OnlyIn [.glk] s t)
    ∧ (exec .wakeInhibitEnd s = .next t → OnlyIn [.glk] s t)
    ∧ (∀ (a0 : Bytes), exec (.nekReceived a0) s = .next t → OnlyIn [.glk, .log] s t)
    ∧ (exec .glkBackoffExpiry s = .next t → OnlyIn [.glk, .log] s t)
    ∧ (exec .glkBeaconLoss s = .next t → OnlyIn [.glk, .log, .sram] s t)
    ∧ (∀ (a0 : Word), exec (.glkCfgWrite a0) s = .next t → OnlyIn [.glk, .eth, .key, .log, .sram] s t)
    ∧ (∀ (a0 : Sack), exec (.sackReceived a0) s = .next t → OnlyIn [.glk, .sram] s t)
    ∧ (exec .msduLifetimeExpiry s = .next t → OnlyIn [.glk, .sram] s t)
    ∧ (∀ (a0 : Nat), exec (.reassemblyTimeout a0) s = .next t → OnlyIn [.owl, .glk, .log, .sram, .freeCtr] s t)
    ∧ (exec .glkZcIndSend s = .next t → OnlyIn [.glk, .freeCtr] s t)
    ∧ (∀ (a0 : Nat) (a1 : ZcMessage), exec (.glkZcInd a0 a1) s = .next t → OnlyIn [.glk, .log, .freeCtr] s t)
    ∧ (∀ (a0 : Bool) (a1 : Bool) (a2 : Bool), exec (.ethLinkPoll a0 a1 a2) s = .next t → OnlyIn [.eth, .sram] s t)
    ∧ (exec .backhaulFailover s = .next t → OnlyIn [.eth, .log] s t)
    ∧ (∀ (a0 : Word), exec (.ethMdioGo a0) s = .next t → OnlyIn [.eth] s t)
    ∧ (∀ (a0 : Nat), exec (.ethMdioDone a0) s = .next t → OnlyIn [.eth] s t)
    ∧ (∀ (a0 : Nat) (a1 : Bool), exec (.canStuck a0 a1) s = .next t → OnlyIn [.log, .can, .sram] s t)
    ∧ (∀ (a0 : Nat) (a1 : Bool), exec (.canBusoffRecovery a0 a1) s = .next t → OnlyIn [.log, .can, .sram] s t)
    ∧ (∀ (a0 : Nat) (a1 : Nat) (a2 : Nat), exec (.canErrorStateChange a0 a1 a2) s = .next t → OnlyIn [.log, .can, .sram] s t)

/-- The commands of reader, cache, tag, display and LEDs change the blocks their clause lists and no other (R277, R285, R286, R288, R291, R294, R297, R298, R299, R308, R309, R310). Where this statement rests on the model's choice and on no rule of the spec: the grouping of the state into the parts of Sys2Proof/Safety.lean, and the record of results and events, which every command may extend (log 6). -/
def Obligations.ReaderAndDisplayFrames : Prop :=
  ∀ s t : State,
    (exec .cacheLoaded s = .next t → OnlyIn [.tag] s t)
    ∧ (exec .tagHoldExpiry s = .next t → OnlyIn [.tag] s t)
    ∧ (exec .limpHitExpiry s = .next t → OnlyIn [.tag] s t)
    ∧ (exec .cacheMirror s = .next t → OnlyIn [.tag] s t)
    ∧ (exec .tagRptPop s = .next t → OnlyIn [.tag] s t)
    ∧ (∀ (a0 : Nat) (a1 : Nat), exec (.ctReadBlock a0 a1) s = .next t → OnlyIn [.tag] s t)
    ∧ (∀ (a0 : Nat) (a1 : Bytes) (a2 : Bool) (a3 : WriteCut), exec (.ctWriteSingleBlock a0 a1 a2 a3) s = .next t → OnlyIn [.tag] s t)
    ∧ (∀ (a0 : Nat) (a1 : Bytes) (a2 : Bytes) (a3 : Bool) (a4 : WriteCut), exec (.ctAuthWrite a0 a1 a2 a3 a4) s = .next t → OnlyIn [.tag] s t)
    ∧ (∀ (a0 : Bool) (a1 : Bool) (a2 : Bool), exec (.ctFieldChange a0 a1 a2) s = .next t → OnlyIn [.tag] s t)
    ∧ (∀ (a0 : Nat), exec (.reducedFieldMeasurement a0) s = .next t → OnlyIn [.tag] s t)
    ∧ (∀ (a0 : Req) (a1 : Bytes) (a2 : List XferTry), exec (.tagXfer a0 a1 a2) s = .next t → OnlyIn [.tag, .hsi, .result] s t)
    ∧ (∀ (a0 : Req), exec (.tagRelease a0) s = .next t → OnlyIn [.tag, .hsi, .result] s t)
    ∧ (∀ (a0 : Req) (a1 : Nat), exec (.tagCacheDel a0 a1) s = .next t → OnlyIn [.tag, .hsi, .result] s t)
    ∧ (∀ (a0 : Req), exec (.tagCacheClear a0) s = .next t → OnlyIn [.tag, .hsi, .result] s t)
    ∧ (∀ (a0 : Req), exec (.tagCtSecure a0) s = .next t → OnlyIn [.tag, .hsi, .result] s t)
    ∧ (∀ (a0 : Req), exec (.tagCtOpen a0) s = .next t → OnlyIn [.tag, .hsi, .result] s t)
    ∧ (∀ (a0 : Req) (a1 : Bytes), exec (.tagCtPublish a0 a1) s = .next t → OnlyIn [.tag, .hsi, .result] s t)
    ∧ (∀ (a0 : Req) (a1 : List Bytes), exec (.tagCachePut a0 a1) s = .next t → OnlyIn [.tag, .hsi, .freeCtr, .result] s t)
    ∧ (∀ (a0 : Req) (a1 : Nat), exec (.tagCacheGet a0 a1) s = .next t → OnlyIn [.hsi, .result] s t)
    ∧ (∀ (a0 : Req), exec (.tagCtAdopt a0) s = .next t → OnlyIn [.tag, .log, .hsi, .result] s t)
    ∧ (∀ (a0 : Side), exec (.tagStatusRead a0) s = .next t → OnlyIn [.tag, .rdata] s t)
    ∧ (exec .ctGetChallenge s = .next t → OnlyIn [.tag, .freeCtr] s t)
    ∧ (∀ (a0 : Req) (a1 : Nat) (a2 : Nat) (a3 : Bytes), exec (.epdUpdate a0 a1 a2 a3) s = .next t → OnlyIn [.epd, .log, .hsi, .freeCtr, .result] s t)
    ∧ (exec .epdFrame s = .next t → OnlyIn [.epd, .log, .hsi, .freeCtr, .result] s t)
    ∧ (exec .legalDwell s = .next t → OnlyIn [.epd, .log, .hsi, .freeCtr, .result] s t)
    ∧ (∀ (a0 : Word), exec (.epdTempWrite a0) s = .next t → OnlyIn [.epd, .log, .freeCtr] s t)
    ∧ (exec .epdStop s = .next t → OnlyIn [.epd, .sys, .log, .hsi, .result] s t)
    ∧ (∀ (a0 : Nat), exec (.ledStep a0) s = .next t → OnlyIn [.epd] s t)
    ∧ (∀ (a0 : Nat) (a1 : Bool), exec (.ledOvertemp a0 a1) s = .next t → OnlyIn [.epd] s t)
    ∧ (∀ (a0 : Nat) (a1 : Bool), exec (.ledOpen a0 a1) s = .next t → OnlyIn [.epd, .log] s t)

/-- The commands of keys, updates and Warren change the blocks their clause lists and no other (R41, R42, R101, R337, R341, R343, R345, R351, R352, R357, R358, R361). Where this statement rests on the model's choice and on no rule of the spec: the grouping of the state into the parts of Sys2Proof/Safety.lean, and the record of results and events, which every command may extend (log 6). -/
def Obligations.KeyUpdateAndWarrenFrames : Prop :=
  ∀ s t : State,
    (∀ (a0 : Req), exec (.warrenActivate a0) s = .next t → OnlyIn [.str, .log, .hsi, .result] s t)
    ∧ (∀ (a0 : Nat) (a1 : IntervalInput), exec (.intervalClose a0 a1) s = .next t → OnlyIn [.lane, .met, .bil, .owl, .vlk, .sys, .log, .freeCtr] s t)
    ∧ (∀ (a0 : Req) (a1 : Bytes), exec (.keyUpdate a0 a1) s = .next t → OnlyIn [.met, .bil, .owl, .glk, .tag, .key, .upd, .sys, .log, .hsi, .sram, .freeCtr, .result] s t)
    ∧ (∀ (a0 : Req) (a1 : Bytes), exec (.keyAttest a0 a1) s = .next t → OnlyIn [.key, .hsi, .freeCtr, .result] s t)
    ∧ (∀ (a0 : Req), exec (.keyCertRead a0) s = .next t → OnlyIn [.hsi, .result] s t)
    ∧ (∀ (a0 : Req), exec (.keyChallenge a0) s = .next t → OnlyIn [.key, .log, .hsi, .freeCtr, .result] s t)
    ∧ (∀ (a0 : Req) (a1 : Bytes), exec (.keyMaintProve a0 a1) s = .next t → OnlyIn [.key, .hsi, .result] s t)
    ∧ (∀ (a0 : Req) (a1 : Nat), exec (.keyZeroise a0 a1) s = .next t → OnlyIn [.glk, .tag, .key, .log, .hsi, .sram, .result] s t)
    ∧ (exec .maintGrantExpiry s = .next t → OnlyIn [.met, .owl, .tag, .key, .upd, .sys, .log, .freeCtr] s t)
    ∧ (∀ (a0 : Side) (a1 : Bool), exec (.maintAuthorityExpiry a0 a1) s = .next t → OnlyIn [.key] s t)
    ∧ (∀ (a0 : Side), exec (.keyCntLoRead a0) s = .next t → OnlyIn [.key, .rdata] s t)
    ∧ (∀ (a0 : Side), exec (.keyStatusRead a0) s = .next t → OnlyIn [.key, .rdata] s t)
    ∧ (∀ (a0 : Req) (a1 : Bytes), exec (.updBegin a0 a1) s = .next t → OnlyIn [.str, .key, .upd, .log, .hsi, .result] s t)
    ∧ (∀ (a0 : Req) (a1 : Nat) (a2 : Bytes), exec (.updData a0 a1 a2) s = .next t → OnlyIn [.upd, .hsi, .result] s t)
    ∧ (∀ (a0 : Req), exec (.updConfirm a0) s = .next t → OnlyIn [.upd, .hsi, .result] s t)
    ∧ (∀ (a0 : Req), exec (.updEnd a0) s = .next t → OnlyIn [.str, .upd, .log, .hsi, .result] s t)
    ∧ (∀ (a0 : Req), exec (.updAbort a0) s = .next t → OnlyIn [.str, .upd, .hsi, .result] s t)
    ∧ (exec .updTransferTimeout s = .next t → OnlyIn [.str, .upd] s t)
    ∧ (∀ (a0 : Req) (a1 : Nat), exec (.updActivate a0 a1) s = .next t → OnlyIn [.str, .met, .bil, .vlk, .glk, .tag, .epd, .upd, .sys, .mgt, .log, .hsi, .sram, .freeCtr, .result] s t)
    ∧ (exec .trialPass s = .next t → OnlyIn [.str, .upd, .log] s t)
    ∧ (∀ (a0 : Nat), exec (.trialFail a0) s = .next t → OnlyIn [.vlk, .glk, .tag, .upd, .sys, .mgt, .log, .sram, .freeCtr] s t)
    ∧ (exec .warrenActivationComplete s = .next t → OnlyIn [.str, .lane, .met, .bil, .pwr, .flt, .owl, .vlk, .glk, .eth, .tag, .epd, .key, .upd, .sys, .mgt, .log, .hsi, .can, .sram, .freeCtr, .result] s t)

/-- The commands of Badger, sleep and mode change the blocks their clause lists and no other (R221, R252, R266, R277, R278, R314, R365, R366, R367, R371, R373, R374). Where this statement rests on the model's choice and on no rule of the spec: the grouping of the state into the parts of Sys2Proof/Safety.lean, and the record of results and events, which every command may extend (log 6). -/
def Obligations.BadgerAndModeFrames : Prop :=
  ∀ s t : State,
    (∀ (a0 : Nat) (a1 : Int) (a2 : Int), exec (.pilotStateAccepted a0 a1 a2) s = .next t → OnlyIn [.met, .bil, .pwr, .owl, .vlk, .glk, .tag, .key, .sys, .mgt, .log, .hsi, .can, .sram, .result] s t)
    ∧ (∀ (a0 : PollInput), exec (.fullPoll a0) s = .next t → OnlyIn [.met, .bil, .pwr, .owl, .vlk, .glk, .tag, .key, .sys, .mgt, .log, .hsi, .can, .sram, .result] s t)
    ∧ (∀ (a0 : Bytes), exec (.glkWakeInd a0) s = .next t → OnlyIn [.met, .bil, .vlk, .glk, .tag, .key, .sys, .mgt, .log, .hsi, .can, .sram, .result] s t)
    ∧ (exec .fieldDetection s = .next t → OnlyIn [.met, .bil, .vlk, .glk, .tag, .key, .sys, .mgt, .log, .hsi, .can, .sram, .result] s t)
    ∧ (∀ (a0 : Nat), exec (.tamperDetect a0) s = .next t → OnlyIn [.met, .bil, .vlk, .glk, .tag, .key, .sys, .mgt, .log, .hsi, .can, .sram, .result] s t)
    ∧ (∀ (a0 : Nat) (a1 : Bool), exec (.wakeEvent a0 a1) s = .next t → OnlyIn [.met, .bil, .vlk, .glk, .tag, .key, .sys, .mgt, .log, .hsi, .can, .sram, .result] s t)
    ∧ (∀ (a0 : Word), exec (.sysWakeWrite a0) s = .next t → OnlyIn [.met, .bil, .vlk, .glk, .tag, .key, .sys, .mgt, .log, .hsi, .can, .sram, .result] s t)
    ∧ (exec .secondBoundary s = .next t → OnlyIn [.met, .bil, .vlk, .glk, .tim, .tag, .key, .upd, .sys, .mgt, .log, .hsi, .can, .sram, .result] s t)
    ∧ (exec .alarmFire s = .next t → OnlyIn [.met, .bil, .vlk, .glk, .tim, .tag, .key, .sys, .mgt, .log, .hsi, .can, .sram, .result] s t)
    ∧ (∀ (a0 : Nat) (a1 : Bool), exec (.crackLoopMeasure a0 a1) s = .next t → OnlyIn [.met, .bil, .vlk, .glk, .tag, .epd, .key, .sys, .mgt, .log, .hsi, .can, .sram, .result] s t)
    ∧ (exec .badgerWatchdogExpiry s = .next t → OnlyIn [.str, .met, .pwr, .owl, .vlk, .glk, .eth, .tag, .upd, .sys, .mgt, .log, .can, .sram] s t)
    ∧ (∀ (a0 : Nat), exec (.appHeartbeatTimeout a0) s = .next t → OnlyIn [.met, .pwr, .owl, .vlk, .glk, .eth, .tag, .upd, .sys, .mgt, .log, .can, .sram, .freeCtr] s t)
    ∧ (∀ (a0 : Word), exec (.mgtAmbHbWrite a0) s = .next t → OnlyIn [.sys, .mgt] s t)
    ∧ (∀ (a0 : Side), exec (.mailboxDoorbell a0) s = .next t → OnlyIn [.sys, .mgt] s t)
    ∧ (∀ (a0 : MonitorInput), exec (.monitorEvaluate a0) s = .next t → OnlyIn [.met, .pwr, .owl, .vlk, .glk, .eth, .tag, .key, .sys, .mgt, .log, .hsi, .can, .sram, .result] s t)
    ∧ (∀ (a0 : Bool), exec (.clockFail a0) s = .next t → OnlyIn [.met, .pwr, .owl, .vlk, .tim, .sys, .log, .hsi] s t)
    ∧ (∀ (a0 : Bool), exec (.logArchiveFlush a0) s = .next t → OnlyIn [.mgt, .log] s t)
    ∧ (∀ (a0 : Req) (a1 : Nat) (a2 : Nat), exec (.mgtLogRead a0 a1 a2) s = .next t → OnlyIn [.hsi, .result] s t)
    ∧ (∀ (a0 : Req) (a1 : Nat), exec (.mgtLogAck a0 a1) s = .next t → OnlyIn [.mgt, .hsi, .result] s t)
    ∧ (∀ (a0 : Req), exec (.mgtRestart a0) s = .next t → OnlyIn [.mgt, .hsi, .sram, .result] s t)
    ∧ (∀ (a0 : Req) (a1 : Nat), exec (.sleep a0 a1) s = .next t → OnlyIn [.sys, .hsi, .result] s t)
    ∧ (∀ (a0 : Nat), exec (.sleepVoteTimeout a0) s = .next t → OnlyIn [.met, .glk, .sys, .mgt, .log, .hsi, .result] s t)
    ∧ (exec .sleepCommit s = .next t → OnlyIn [.met, .glk, .tim, .sys, .mgt, .log] s t)
    ∧ (exec .sleepArm s = .next t → OnlyIn [.glk, .sys] s t)
    ∧ (exec .sleepEnter s = .next t → OnlyIn [.met, .pwr, .owl, .vlk, .glk, .eth, .tag, .epd, .key, .sys, .mgt, .log, .hsi, .can, .sram] s t)
    ∧ (∀ (a0 : Req) (a1 : Nat), exec (.modeSet a0 a1) s = .next t → OnlyIn [.sys, .mgt, .log, .hsi, .result] s t)
    ∧ (exec .limpExit s = .next t → OnlyIn [.vlk, .glk, .eth, .sys, .mgt, .log, .can, .sram] s t)
    ∧ (∀ (a0 : Side), exec (.sysWakesrcRead a0) s = .next t → OnlyIn [.sys, .rdata] s t)
    ∧ (exec .badgerReady s = .next t → OnlyIn [.bil, .sys, .mgt, .log] s t)

/-- The commands of host interface and registers change the blocks their clause lists and no other (R389, R391, R395, R396, R397, R400). Where this statement rests on the model's choice and on no rule of the spec: the grouping of the state into the parts of Sys2Proof/Safety.lean, and the record of results and events, which every command may extend (log 6). -/
def Obligations.HostFrames : Prop :=
  ∀ s t : State,
    (∀ (a0 : Side) (a1 : Nat) (a2 : List Word), exec (.registerWrite a0 a1 a2) s = .next t → OnlyIn [.lane, .met, .bil, .pwr, .owl, .vlk, .glk, .eth, .tim, .tag, .epd, .key, .upd, .sys, .mgt, .log, .hsi, .can, .sram, .freeCtr, .result] s t)
    ∧ (∀ (a0 : Side) (a1 : Nat) (a2 : Bytes), exec (.bufferWrite a0 a1 a2) s = .next t → OnlyIn [.hsi] s t)
    ∧ (∀ (a0 : HsiFrame), exec (.hsiTransactionError a0) s = .next t → OnlyIn [.log, .hsi] s t)
    ∧ (exec .hsiFrameTimeout s = .next t → OnlyIn [.log, .hsi] s t)
    ∧ (∀ (a0 : Side) (a1 : Word), exec (.hsiReleaseWrite a0 a1) s = .next t → OnlyIn [.log, .hsi] s t)
    ∧ (∀ (a0 : Side) (a1 : Word), exec (.ctailWrite a0 a1) s = .next t → OnlyIn [.met, .bil, .vlk, .glk, .tag, .key, .sys, .mgt, .log, .hsi, .can, .sram, .result] s t)
    ∧ (∀ (a0 : Side) (a1 : Nat), exec (.resultSlotRead a0 a1) s = .next t → OnlyIn [.hsi, .rdata] s t)
    ∧ (∀ (a0 : Req), exec (.badgerCommandTimeout a0) s = .next t → OnlyIn [.hsi, .result] s t)
    ∧ (∀ (a0 : Req) (a1 : Bytes), exec (.hsiNop a0 a1) s = .next t → OnlyIn [.hsi, .result] s t)

/-- A command of one lane leaves every other lane and the queue of suspects (R48, R54, R57, R58, R66, R69, R70, R74, R76). Where this statement rests on the model's choice and on no rule of the spec: the choices about lanes (logs 15 and 33). -/
def Obligations.OneLaneCommandsLeaveTheOtherLanes : Prop :=
  ∀ (s t : State) (n : Nat),
    ((∀ (h : Bool), exec (.laneStuck n h) s = .next t →
        (∀ m, m ≠ n → laneOf t m = laneOf s m) ∧ t.lane.queue = s.lane.queue ∧ t.lane.rs = s.lane.rs)
      ∧ (exec (.laneClkerr n) s = .next t →
        (∀ m, m ≠ n → laneOf t m = laneOf s m) ∧ t.lane.queue = s.lane.queue ∧ t.lane.rs = s.lane.rs)
      ∧ (exec (.modulatorClockReturn n) s = .next t →
        (∀ m, m ≠ n → laneOf t m = laneOf s m) ∧ t.lane.queue = s.lane.queue ∧ t.lane.rs = s.lane.rs)
      ∧ (∀ (x y : Bool), exec (.detectorUpdate n x y) s = .next t →
        (∀ m, m ≠ n → laneOf t m = laneOf s m) ∧ t.lane.queue = s.lane.queue ∧ t.lane.rs = s.lane.rs)
      ∧ (∀ (v : Word), exec (.firdataWrite n v) s = .next t →
        (∀ m, m ≠ n → laneOf t m = laneOf s m) ∧ t.lane.queue = s.lane.queue ∧ t.lane.rs = s.lane.rs)
      ∧ (exec (.firSwap n) s = .next t →
        (∀ m, m ≠ n → laneOf t m = laneOf s m) ∧ t.lane.queue = s.lane.queue ∧ t.lane.rs = s.lane.rs)
      ∧ (∀ (x : Bool), exec (.laneTrialWrite n x) s = .next t →
        (∀ m, m ≠ n → laneOf t m = laneOf s m) ∧ t.lane.queue = s.lane.queue ∧ t.lane.rs = s.lane.rs)
      ∧ (∀ (x : Bool) (v : Word), exec (.laneCalWrite n x v) s = .next t →
        (∀ m, m ≠ n → laneOf t m = laneOf s m) ∧ t.lane.queue = s.lane.queue ∧ t.lane.rs = s.lane.rs)
      ∧ (∀ (k : Nat), exec (.spareFailed n k) s = .next t →
        (∀ m, m ≠ n → laneOf t m = laneOf s m) ∧ t.lane.queue = s.lane.queue ∧ t.lane.rs = s.lane.rs)
      ∧ (∀ (k : Nat), exec (.laneFailed n k) s = .next t →
        (∀ m, m ≠ n → laneOf t m = laneOf s m) ∧ t.lane.queue = s.lane.queue ∧ t.lane.rs = s.lane.rs)
      ∧ (exec (.strikeExpiry n) s = .next t →
        (∀ m, m ≠ n → laneOf t m = laneOf s m) ∧ t.lane.queue = s.lane.queue ∧ t.lane.rs = s.lane.rs)
      ∧ (∀ i : LaneInput, (laneOf s n).trialEnd = false → exec (.laneSampleWord n i) s = .next t →
        t.lane.queue = s.lane.queue ∧ ∀ m, m ≠ n → laneOf t m = { laneOf s m with
          trig := (laneOf t m).trig, chkErr := (laneOf t m).chkErr, stage := (laneOf t m).stage }))

/-- A command of one load-switch channel leaves every other channel (R156, R157, R159, R160, R179). -/
def Obligations.OneChannelCommandsLeaveTheOtherChannels : Prop :=
  ∀ (s t : State) (n : Nat),
    ((exec (.lsDemandChange n) s = .next t →
        ∀ m, m ≠ n → chOf t m = chOf s m)
      ∧ (∀ (k : Int), exec (.lsOverload n k) s = .next t →
        ∀ m, m ≠ n → chOf t m = chOf s m)
      ∧ (∀ (k : Int), exec (.lsInrushEnd n k) s = .next t →
        ∀ m, m ≠ n → chOf t m = chOf s m)
      ∧ (exec (.lsRetryTimer n) s = .next t →
        ∀ m, m ≠ n → chOf t m = chOf s m)
      ∧ (exec (.lsRetryReset n) s = .next t →
        ∀ m, m ≠ n → chOf t m = chOf s m)
      ∧ (∀ (x : Int), exec (.lsThermalLatch n x) s = .next t →
        ∀ m, m ≠ n → chOf t m = chOf s m)
      ∧ (∀ (x : Int), exec (.lsLatchAutoclear n x) s = .next t →
        ∀ m, m ≠ n → chOf t m = chOf s m)
      ∧ (∀ (k : Int), exec (.lsOpenloadOn n k) s = .next t →
        ∀ m, m ≠ n → chOf t m = chOf s m)
      ∧ (∀ (k : Nat), exec (.lsOpenloadDiag n k) s = .next t →
        ∀ m, m ≠ n → chOf t m = chOf s m)
      ∧ (∀ (r : Req) (k : Nat), exec (.pwrClear r n k) s = .next t →
        ∀ m, m ≠ n → chOf t m = chOf s m))

/-- A command of one vehicle link, CAN controller or time domain leaves the other ones (R218, R232, R233, R262, R272, R409). Where this statement rests on the model's choice and on no rule of the spec: the choices about vehicle links and SLAC (logs 8, 30 and 38). -/
def Obligations.OneLinkCommandsLeaveTheOtherLinks : Prop :=
  ∀ (s t : State) (n : Nat),
    ((∀ (k : Nat), exec (.cmSlacParmReq n k) s = .next t →
        ∀ m, m ≠ n → linkOf t m = linkOf s m)
      ∧ (∀ (k : Nat), exec (.cmStartAttenCharInd n k) s = .next t →
        ∀ m, m ≠ n → linkOf t m = linkOf s m)
      ∧ (∀ (k : Nat) (l : List Nat), exec (.cmMnbcSoundInd n k l) s = .next t →
        ∀ m, m ≠ n → linkOf t m = linkOf s m)
      ∧ (exec (.soundingWindowEnd n) s = .next t →
        ∀ m, m ≠ n → linkOf t m = linkOf s m)
      ∧ (∀ (k : Nat), exec (.cmAttenCharRsp n k) s = .next t →
        ∀ m, m ≠ n → linkOf t m = linkOf s m)
      ∧ (exec (.attenCharResend n) s = .next t →
        ∀ m, m ≠ n → linkOf t m = linkOf s m)
      ∧ (∀ (k c : Nat), exec (.cmValidateReq n k c) s = .next t →
        ∀ m, m ≠ n → linkOf t m = linkOf s m)
      ∧ (∀ (x : Bool), exec (.validationWindowEnd n x) s = .next t →
        ∀ m, m ≠ n → linkOf t m = linkOf s m)
      ∧ (∀ (k : Nat), exec (.cmSlacMatchReq n k) s = .next t →
        ∀ m, m ≠ n → linkOf t m = linkOf s m)
      ∧ (exec (.slacJoined n) s = .next t →
        ∀ m, m ≠ n → linkOf t m = linkOf s m)
      ∧ (∀ (x : SlacTimeout), exec (.slacTimeout n x) s = .next t →
        ∀ m, m ≠ n → linkOf t m = linkOf s m)
      ∧ (exec (.slacLinkLost n) s = .next t →
        ∀ m, m ≠ n → linkOf t m = linkOf s m)
      ∧ (exec (.pilotModeTransitionEnd n) s = .next t →
        ∀ m, m ≠ n → linkOf t m = linkOf s m)
      ∧ (∀ (v : Word), exec (.vlkPilotWrite n v) s = .next t →
        ∀ m, m ≠ n → linkOf t m = linkOf s m)
      ∧ (∀ (x : Bool), exec (.canStuck n x) s = .next t →
        ∀ m, m ≠ n → canOf t m = canOf s m)
      ∧ (∀ (x : Bool), exec (.canBusoffRecovery n x) s = .next t →
        ∀ m, m ≠ n → canOf t m = canOf s m)
      ∧ (∀ (j k : Nat), exec (.canErrorStateChange n j k) s = .next t →
        ∀ m, m ≠ n → canOf t m = canOf s m)
      ∧ (exec (.domainHoldoverExpiry n) s = .next t → ∀ m, m ≠ n → domOf t m = domOf s m)
      ∧ (∀ (r : Req) (k : Nat), exec (.timSet r n k) s = .next t → ∀ m, m ≠ n → domOf t m = domOf s m)
      ∧ (∀ (r : Req) (k : Int), exec (.timOffset r n k) s = .next t → ∀ m, m ≠ n → domOf t m = domOf s m))

/-- Posting a result writes its slot, the bytes it returns at the slot's offset, and nothing else of the exchange memory (R390, R393, R394, R399). Where this statement rests on the model's choice and on no rule of the spec: where a result is posted and which counters it moves (log 6). -/
def Obligations.PostingAResultWritesOnlyItsSlotAndBuffer : Prop :=
  (∀ (s : State) (r : Req) (x d : Nat) (b : Bytes), s.Inv → r.tag ≤ 127 →
    ((ringOf s r.side).slots.getD r.tag Slot.fresh).running = true →
    let g := ringOf s r.side
    let u := ringOf (post r x d b s) r.side
    let sl := g.slots.getD r.tag Slot.fresh
    let n := min b.length sl.rcap
    u.slots.getD r.tag Slot.fresh = { sl with sts := x, ready := true, running := false, readCount := 0, rlen := n,
                                               detail := d, ts := nowTs s }
      ∧ (∀ k, k ≠ r.tag → u.slots.getD k Slot.fresh = g.slots.getD k Slot.fresh)
      ∧ (∀ i, i < n → memRead u.mem (sl.roff + i) = b.getD i 0)
      ∧ (∀ a, a < sl.roff ∨ sl.roff + n ≤ a → memRead u.mem a = memRead g.mem a)
      ∧ u.head = g.head ∧ u.tail = g.tail ∧ u.desc = g.desc ∧ (∀ f ∈ u.flight, f.tag ≠ r.tag)
      ∧ ∀ v, v ≠ r.side → ringOf (post r x d b s) v = ringOf s v)
  ∧ (∀ (s : State) (r : Req) (x d : Nat) (b : Bytes),
    ((ringOf s r.side).slots.getD r.tag Slot.fresh).running = false → (post r x d b s).hsi = s.hsi)
end

