-- ==== Sys2Proof/Laws/Same.lean ====
section
/-! SUPPORT. Which parts of the state an operation leaves as they are. `Same w a s` says that `s` differs from `a` in the parts
listed in `w` only; the lemmas `same_<operation>` of the files Frame* carry it through every operation, each with the list of
the parts that the operation writes. -/

set_option linter.unreachableTactic false
set_option linter.unusedTactic false

namespace Sys2Proof.Machine

/-- `s` agrees with `a` in every part that `w` does not list. -/
structure Same (w : List Part) (a s : State) : Prop where
  parts : ∀ q, w.contains q = false → samePart q a s

/-- Every part of the first list stands in the second one. -/
def listed (l w : List Part) : Bool := l.all fun q => w.contains q

variable {w : List Part} {a s : State}

theorem listed_trans {l k : List Part} (h : listed k w = true) (hl : listed l k = true) : listed l w = true := by
  simp only [listed, List.all_eq_true] at *
  intro q hq
  have := hl q hq
  simp only [List.contains_iff_mem] at this
  exact h q this

theorem listed_mem {l k : List Part} (h : listed k w = true) (hl : ∀ q ∈ l, q ∈ k) : listed l w = true := by
  simp only [listed, List.all_eq_true] at *
  exact fun q hq => h q (hl q hq)

@[simp] theorem portPart_vlk {o : Nat} : portPart (.vlk o) = .vlk := rfl
@[simp] theorem portPart_glk : portPart .glk = .glk := rfl
@[simp] theorem portPart_eth : portPart .eth = .eth := rfl
@[simp] theorem portPart_can {c : Nat} : portPart (.can c) = .can := rfl

theorem listed_self (w : List Part) : listed w w = true := by
  simp [listed]

theorem same_refl (w : List Part) (a : State) : Same w a a := by
  refine ⟨fun q _ => ?_⟩
  cases q <;> rfl

/-- Reading one part off. -/
theorem Same.part {q : Part} (h : Same w a s) (hq : w.contains q = false) : samePart q a s := h.parts q hq

/-- `Same` of what an outcome goes on to. -/
def SameO (w : List Part) (a : State) (o : Host.Outcome State Fault Refusal) : Prop := ∀ t, o = .next t → Same w a t

theorem sameO_next (h : Same w a s) : SameO w a (.next s) := by
  intro t ht
  cases ht
  exact h

/-- The frame of a command, read off the lemma of its meaning. -/
theorem onlyIn_of_sameO {o : Host.Outcome State Fault Refusal} {t : State} (h : SameO w a o) (ht : o = .next t) : OnlyIn w a t :=
  fun q hq => (h t ht).part (by simpa [List.contains_iff_mem] using hq)

theorem sameO_ite {c : Prop} [Decidable c] {x y : Host.Outcome State Fault Refusal} (hx : SameO w a x)
    (hy : SameO w a y) : SameO w a (if c then x else y) := by
  split
  · exact hx
  · exact hy

theorem same_ite {c : Prop} [Decidable c] {x y : State} (hx : Same w a x) (hy : Same w a y) :
    Same w a (if c then x else y) := by
  split
  · exact hx
  · exact hy

theorem same_foldl {α : Type} {f : State → α → State} {l : List α} (h : Same w a s)
    (hf : ∀ s x, Same w a s → Same w a (f s x)) : Same w a (l.foldl f s) := by
  induction l generalizing s with
  | nil => exact h
  | cons x l ih => exact ih (hf s x h)

/-- An operation that writes the one part `p`. -/
theorem same_write {p : Part} {t : State} (hw : listed [p] w = true) (h : Same w a s)
    (ht : ∀ q, q ≠ p → samePart q s t) : Same w a t := by
  refine ⟨fun q hq => ?_⟩
  have hp : q ≠ p := by
    rintro rfl
    simp [listed] at hw
    simp [hw] at hq
  have h1 := h.parts q hq
  have h2 := ht q hp
  cases q <;> exact Eq.trans h2 h1

/-! ## Updates of one part -/

theorem same_onStr (hw : listed [.str] w = true) (h : Same w a s) {f : StrBlock → StrBlock} : Same w a (onStr f s) :=
  same_write hw h fun q hq => by cases q <;> first | rfl | exact absurd rfl hq
theorem same_onGlk (hw : listed [.glk] w = true) (h : Same w a s) {f : GlkBlock → GlkBlock} : Same w a (onGlk f s) :=
  same_write hw h fun q hq => by cases q <;> first | rfl | exact absurd rfl hq
theorem same_onEth (hw : listed [.eth] w = true) (h : Same w a s) {f : EthBlock → EthBlock} : Same w a (onEth f s) :=
  same_write hw h fun q hq => by cases q <;> first | rfl | exact absurd rfl hq
theorem same_onLaneBlk (hw : listed [.lane] w = true) (h : Same w a s) {f : LaneBlock → LaneBlock} : Same w a (onLaneBlk f s) :=
  same_write hw h fun q hq => by cases q <;> first | rfl | exact absurd rfl hq
theorem same_onMet (hw : listed [.met] w = true) (h : Same w a s) {f : MetBlock → MetBlock} : Same w a (onMet f s) :=
  same_write hw h fun q hq => by cases q <;> first | rfl | exact absurd rfl hq
theorem same_onBil (hw : listed [.bil] w = true) (h : Same w a s) {f : BilBlock → BilBlock} : Same w a (onBil f s) :=
  same_write hw h fun q hq => by cases q <;> first | rfl | exact absurd rfl hq
theorem same_onPwr (hw : listed [.pwr] w = true) (h : Same w a s) {f : PwrBlock → PwrBlock} : Same w a (onPwr f s) :=
  same_write hw h fun q hq => by cases q <;> first | rfl | exact absurd rfl hq
theorem same_onFlt (hw : listed [.flt] w = true) (h : Same w a s) {f : FltBlock → FltBlock} : Same w a (onFlt f s) :=
  same_write hw h fun q hq => by cases q <;> first | rfl | exact absurd rfl hq
theorem same_onOwl (hw : listed [.owl] w = true) (h : Same w a s) {f : OwlBlock → OwlBlock} : Same w a (onOwl f s) :=
  same_write hw h fun q hq => by cases q <;> first | rfl | exact absurd rfl hq
theorem same_onTim (hw : listed [.tim] w = true) (h : Same w a s) {f : TimBlock → TimBlock} : Same w a (onTim f s) :=
  same_write hw h fun q hq => by cases q <;> first | rfl | exact absurd rfl hq
theorem same_onTag (hw : listed [.tag] w = true) (h : Same w a s) {f : TagBlock → TagBlock} : Same w a (onTag f s) :=
  same_write hw h fun q hq => by cases q <;> first | rfl | exact absurd rfl hq
theorem same_onEpd (hw : listed [.epd] w = true) (h : Same w a s) {f : EpdBlock → EpdBlock} : Same w a (onEpd f s) :=
  same_write hw h fun q hq => by cases q <;> first | rfl | exact absurd rfl hq
theorem same_onKey (hw : listed [.key] w = true) (h : Same w a s) {f : KeyBlock → KeyBlock} : Same w a (onKey f s) :=
  same_write hw h fun q hq => by cases q <;> first | rfl | exact absurd rfl hq
theorem same_onUpd (hw : listed [.upd] w = true) (h : Same w a s) {f : UpdBlock → UpdBlock} : Same w a (onUpd f s) :=
  same_write hw h fun q hq => by cases q <;> first | rfl | exact absurd rfl hq
theorem same_onSys (hw : listed [.sys] w = true) (h : Same w a s) {f : SysBlock → SysBlock}
    (hf : ∀ b, (f b).retLog = b.retLog ∧ (f b).retLost = b.retLost) : Same w a (onSys f s) :=
  same_write hw h fun q hq => by
    cases q <;> first | rfl | exact absurd rfl hq | skip
    simp only [samePart, onSys, hf]
theorem same_onMgt (hw : listed [.mgt] w = true) (h : Same w a s) {f : MgtBlock → MgtBlock}
    (hf : ∀ b, (f b).seq = b.seq ∧ (f b).ring = b.ring ∧ (f b).waiting = b.waiting ∧ (f b).dropped = b.dropped) :
    Same w a (onMgt f s) :=
  same_write hw h fun q hq => by
    cases q <;> first | rfl | exact absurd rfl hq | skip
    simp only [samePart, onMgt, hf]
/-- An update of the record buffers of Dormouse and nothing else of its block. -/
theorem same_onSys_log (hw : listed [.log] w = true) (h : Same w a s) {f : SysBlock → SysBlock}
    (hf : ∀ b, { f b with retLog := [], retLost := false } = { b with retLog := [], retLost := false }) :
    Same w a (onSys f s) :=
  same_write hw h fun q hq => by
    cases q <;> first | rfl | exact absurd rfl hq | exact hf _
/-- An update of the record buffers of Badger and nothing else of its block. -/
theorem same_onMgt_log (hw : listed [.log] w = true) (h : Same w a s) {f : MgtBlock → MgtBlock}
    (hf : ∀ b, { f b with seq := 0, ring := [], waiting := 0, dropped := 0 }
      = { b with seq := 0, ring := [], waiting := 0, dropped := 0 }) : Same w a (onMgt f s) :=
  same_write hw h fun q hq => by
    cases q <;> first | rfl | exact absurd rfl hq | exact hf _
/-- An update of Dormouse's block that also touches its record buffer. -/
theorem same_onSys_both (hw : listed [.sys, .log] w = true) (h : Same w a s) {f : SysBlock → SysBlock} :
    Same w a (onSys f s) := by
  have hs : listed [.sys] w = true := listed_trans hw rfl
  have hl : listed [.log] w = true := listed_trans hw rfl
  exact same_write hs (same_write (t := { s with sys := { s.sys with retLog := (f s.sys).retLog, retLost := (f s.sys).retLost } })
    hl h fun q hq => by cases q <;> first | rfl | exact absurd rfl hq) fun q hq => by
      cases q <;> first | rfl | exact absurd rfl hq
/-- An update of Badger's block that also touches its record ring. -/
theorem same_onMgt_both (hw : listed [.mgt, .log] w = true) (h : Same w a s) {f : MgtBlock → MgtBlock} :
    Same w a (onMgt f s) := by
  have hs : listed [.mgt] w = true := listed_trans hw rfl
  have hl : listed [.log] w = true := listed_trans hw rfl
  exact same_write hs (same_write (t := { s with mgt := { s.mgt with seq := (f s.mgt).seq, ring := (f s.mgt).ring, waiting := (f s.mgt).waiting, dropped := (f s.mgt).dropped } })
    hl h fun q hq => by cases q <;> first | rfl | exact absurd rfl hq) fun q hq => by
      cases q <;> first | rfl | exact absurd rfl hq
theorem same_onHsi (hw : listed [.hsi] w = true) (h : Same w a s) {f : HsiBlock → HsiBlock} : Same w a (onHsi f s) :=
  same_write hw h fun q hq => by cases q <;> first | rfl | exact absurd rfl hq
theorem same_onLink (hw : listed [.vlk] w = true) (h : Same w a s) {o : Nat} {f : Link → Link} : Same w a (onLink o f s) :=
  same_write hw h fun q hq => by cases q <;> first | rfl | exact absurd rfl hq
theorem same_onCan (hw : listed [.can] w = true) (h : Same w a s) {o : Nat} {f : Can → Can} : Same w a (onCan o f s) :=
  same_write hw h fun q hq => by cases q <;> first | rfl | exact absurd rfl hq
theorem same_onLinks (hw : listed [.vlk] w = true) (h : Same w a s) {f : Link → Link} : Same w a (onLinks f s) :=
  same_write hw h fun q hq => by cases q <;> first | rfl | exact absurd rfl hq
theorem same_onCans (hw : listed [.can] w = true) (h : Same w a s) {f : Can → Can} : Same w a (onCans f s) :=
  same_write hw h fun q hq => by cases q <;> first | rfl | exact absurd rfl hq
theorem same_sram (hw : listed [.sram] w = true) (h : Same w a s) {x : List Host.Cell} : Same w a { s with sram := x } :=
  same_write hw h fun q hq => by cases q <;> first | rfl | exact absurd rfl hq
theorem same_vlk (hw : listed [.vlk] w = true) (h : Same w a s) {x : List Link} : Same w a { s with vlk := x } :=
  same_write hw h fun q hq => by cases q <;> first | rfl | exact absurd rfl hq
theorem same_ticks (hw : listed [.ticks] w = true) (h : Same w a s) {x : Nat} : Same w a { s with ticks := x } :=
  same_write hw h fun q hq => by cases q <;> first | rfl | exact absurd rfl hq
theorem same_freeCtr (hw : listed [.freeCtr] w = true) (h : Same w a s) {x : Nat} : Same w a { s with freeCtr := x } :=
  same_write hw h fun q hq => by cases q <;> first | rfl | exact absurd rfl hq
theorem same_result (hw : listed [.result] w = true) (h : Same w a s) {x : Option Result} : Same w a { s with result := x } :=
  same_write hw h fun q hq => by cases q <;> first | rfl | exact absurd rfl hq
theorem same_rdata (hw : listed [.rdata] w = true) (h : Same w a s) {x : Nat} : Same w a { s with rdata := x } :=
  same_write hw h fun q hq => by cases q <;> first | rfl | exact absurd rfl hq

end Sys2Proof.Machine
end

