-- ==== Sys2Proof/Laws/FrameOps.lean ====
section
/-! SUPPORT. Which parts of the state the operations of Ops.lean write. -/

set_option linter.unusedVariables false
set_option linter.unreachableTactic false
set_option linter.unusedTactic false

namespace Sys2Proof.Machine

variable {w : List Part} {a s : State}

theorem same_onLane (a0 : ℕ) (a1 : Lane → Lane) (hw : listed [.lane] w = true) (h : Same w a s) :
    Same w a (onLane a0 a1 s) := by
  unfold onLane
  repeat' first
    | with_reducible assumption
    | (intro (s : State) (h : Same w a s))
    | (intro _ (s : State) (h : Same w a s))
    | (intro (h : Same w a _))
    | (intro (s' : State); refine_lift have h : Same w a s' := ?_; ?_; clear_value s')
    | lift_lets
    | with_reducible apply sameO_next
    | with_reducible apply same_ite
    | with_reducible apply same_onLaneBlk
    | exact listed_trans hw rfl
    | with_reducible refine same_foldl ?_ (fun s x h => ?_)
    | (intro x'; clear_value x')
    | intro _
    | dsimp only [s']
    | split

theorem same_onMetOut (a0 : ℕ) (a1 : MetOutlet → MetOutlet) (hw : listed [.met] w = true) (h : Same w a s) :
    Same w a (onMetOut a0 a1 s) := by
  unfold onMetOut
  repeat' first
    | with_reducible assumption
    | (intro (s : State) (h : Same w a s))
    | (intro _ (s : State) (h : Same w a s))
    | (intro (h : Same w a _))
    | (intro (s' : State); refine_lift have h : Same w a s' := ?_; ?_; clear_value s')
    | lift_lets
    | with_reducible apply sameO_next
    | with_reducible apply same_ite
    | with_reducible apply same_onMet
    | exact listed_trans hw rfl
    | with_reducible refine same_foldl ?_ (fun s x h => ?_)
    | (intro x'; clear_value x')
    | intro _
    | dsimp only [s']
    | split

theorem same_onBilOut (a0 : ℕ) (a1 : BilOutlet → BilOutlet) (hw : listed [.bil] w = true) (h : Same w a s) :
    Same w a (onBilOut a0 a1 s) := by
  unfold onBilOut
  repeat' first
    | with_reducible assumption
    | (intro (s : State) (h : Same w a s))
    | (intro _ (s : State) (h : Same w a s))
    | (intro (h : Same w a _))
    | (intro (s' : State); refine_lift have h : Same w a s' := ?_; ?_; clear_value s')
    | lift_lets
    | with_reducible apply sameO_next
    | with_reducible apply same_ite
    | with_reducible apply same_onBil
    | exact listed_trans hw rfl
    | with_reducible refine same_foldl ?_ (fun s x h => ?_)
    | (intro x'; clear_value x')
    | intro _
    | dsimp only [s']
    | split

theorem same_onCh (a0 : ℕ) (a1 : Channel → Channel) (hw : listed [.pwr] w = true) (h : Same w a s) :
    Same w a (onCh a0 a1 s) := by
  unfold onCh
  repeat' first
    | with_reducible assumption
    | (intro (s : State) (h : Same w a s))
    | (intro _ (s : State) (h : Same w a s))
    | (intro (h : Same w a _))
    | (intro (s' : State); refine_lift have h : Same w a s' := ?_; ?_; clear_value s')
    | lift_lets
    | with_reducible apply sameO_next
    | with_reducible apply same_ite
    | with_reducible apply same_onPwr
    | exact listed_trans hw rfl
    | with_reducible refine same_foldl ?_ (fun s x h => ?_)
    | (intro x'; clear_value x')
    | intro _
    | dsimp only [s']
    | split

theorem same_onLock (a0 : ℕ) (a1 : Lock → Lock) (hw : listed [.pwr] w = true) (h : Same w a s) :
    Same w a (onLock a0 a1 s) := by
  unfold onLock
  repeat' first
    | with_reducible assumption
    | (intro (s : State) (h : Same w a s))
    | (intro _ (s : State) (h : Same w a s))
    | (intro (h : Same w a _))
    | (intro (s' : State); refine_lift have h : Same w a s' := ?_; ?_; clear_value s')
    | lift_lets
    | with_reducible apply sameO_next
    | with_reducible apply same_ite
    | with_reducible apply same_onPwr
    | exact listed_trans hw rfl
    | with_reducible refine same_foldl ?_ (fun s x h => ?_)
    | (intro x'; clear_value x')
    | intro _
    | dsimp only [s']
    | split

theorem same_onDom (a0 : ℕ) (a1 : Domain → Domain) (hw : listed [.tim] w = true) (h : Same w a s) :
    Same w a (onDom a0 a1 s) := by
  unfold onDom
  repeat' first
    | with_reducible assumption
    | (intro (s : State) (h : Same w a s))
    | (intro _ (s : State) (h : Same w a s))
    | (intro (h : Same w a _))
    | (intro (s' : State); refine_lift have h : Same w a s' := ?_; ?_; clear_value s')
    | lift_lets
    | with_reducible apply sameO_next
    | with_reducible apply same_ite
    | with_reducible apply same_onTim
    | exact listed_trans hw rfl
    | with_reducible refine same_foldl ?_ (fun s x h => ?_)
    | (intro x'; clear_value x')
    | intro _
    | dsimp only [s']
    | split

theorem same_bump  (hw : listed [.freeCtr] w = true) (h : Same w a s) :
    Same w a (bump s) := by
  exact same_freeCtr hw h

theorem same_retain (a0 : Event) (hw : listed [.log] w = true) (h : Same w a s) :
    Same w a (retain a0 s) := by
  unfold retain
  repeat' first
    | with_reducible assumption
    | (intro (s : State) (h : Same w a s))
    | (intro _ (s : State) (h : Same w a s))
    | (intro (h : Same w a _))
    | (intro (s' : State); refine_lift have h : Same w a s' := ?_; ?_; clear_value s')
    | lift_lets
    | with_reducible apply sameO_next
    | with_reducible apply same_ite
    | (with_reducible refine same_onSys_log ?_ ?_ ?_
       rotate_left
       rotate_left
       · intro _; rfl)
    | (with_reducible refine same_onMgt_log ?_ ?_ ?_
       rotate_left
       rotate_left
       · intro _; rfl)
    | exact listed_trans hw rfl
    | with_reducible refine same_foldl ?_ (fun s x h => ?_)
    | (intro x'; clear_value x')
    | intro _
    | dsimp only [s']
    | split

theorem same_enterLog (a0 : Event) (hw : listed [.log] w = true) (h : Same w a s) :
    Same w a (enterLog a0 s) := by
  unfold enterLog
  repeat' first
    | with_reducible assumption
    | (intro (s : State) (h : Same w a s))
    | (intro _ (s : State) (h : Same w a s))
    | (intro (h : Same w a _))
    | (intro (s' : State); refine_lift have h : Same w a s' := ?_; ?_; clear_value s')
    | lift_lets
    | with_reducible apply sameO_next
    | with_reducible apply same_ite
    | (with_reducible refine same_onMgt_log ?_ ?_ ?_
       rotate_left
       rotate_left
       · intro _; rfl)
    | exact listed_trans hw rfl
    | with_reducible refine same_foldl ?_ (fun s x h => ?_)
    | (intro x'; clear_value x')
    | intro _
    | dsimp only [s']
    | split

theorem same_sendEvent (a0 : Event) (hw : listed [.log] w = true) (h : Same w a s) :
    Same w a (sendEvent a0 s) := by
  unfold sendEvent
  repeat' first
    | with_reducible assumption
    | (intro (s : State) (h : Same w a s))
    | (intro _ (s : State) (h : Same w a s))
    | (intro (h : Same w a _))
    | (intro (s' : State); refine_lift have h : Same w a s' := ?_; ?_; clear_value s')
    | lift_lets
    | with_reducible apply sameO_next
    | with_reducible apply same_ite
    | with_reducible apply same_enterLog
    | with_reducible apply same_retain
    | exact listed_trans hw rfl
    | with_reducible refine same_foldl ?_ (fun s x h => ?_)
    | (intro x'; clear_value x')
    | intro _
    | dsimp only [s']
    | split

theorem same_logEv (a0 : EvClass) (a1 : ℕ) (a2 : ℕ) (a3 : ℕ) (a4 : List (ℕ × ℕ)) (hw : listed [.log] w = true) (h : Same w a s) :
    Same w a (logEv a0 a1 a2 a3 a4 s) := by
  unfold logEv
  repeat' first
    | with_reducible assumption
    | (intro (s : State) (h : Same w a s))
    | (intro _ (s : State) (h : Same w a s))
    | (intro (h : Same w a _))
    | (intro (s' : State); refine_lift have h : Same w a s' := ?_; ?_; clear_value s')
    | lift_lets
    | with_reducible apply sameO_next
    | with_reducible apply same_ite
    | with_reducible apply same_sendEvent
    | exact listed_trans hw rfl
    | with_reducible refine same_foldl ?_ (fun s x h => ?_)
    | (intro x'; clear_value x')
    | intro _
    | dsimp only [s']
    | split

theorem same_onRing (a0 : Side) (a1 : Ring → Ring) (hw : listed [.hsi] w = true) (h : Same w a s) :
    Same w a (onRing a0 a1 s) := by
  unfold onRing
  repeat' first
    | with_reducible assumption
    | (intro (s : State) (h : Same w a s))
    | (intro _ (s : State) (h : Same w a s))
    | (intro (h : Same w a _))
    | (intro (s' : State); refine_lift have h : Same w a s' := ?_; ?_; clear_value s')
    | lift_lets
    | with_reducible apply sameO_next
    | with_reducible apply same_ite
    | with_reducible apply same_onHsi
    | exact listed_trans hw rfl
    | with_reducible refine same_foldl ?_ (fun s x h => ?_)
    | (intro x'; clear_value x')
    | intro _
    | dsimp only [s']
    | split

theorem same_post (a0 : Req) (a1 : ℕ) (a2 : ℕ) (a3 : Bytes) (hw : listed [.hsi, .result] w = true) (h : Same w a s) :
    Same w a (post a0 a1 a2 a3 s) := by
  exact same_result (listed_trans hw rfl) (same_onRing _ _ (listed_trans hw rfl) h)

theorem same_postSts (a0 : Req) (a1 : ℕ) (hw : listed [.hsi, .result] w = true) (h : Same w a s) :
    Same w a (postSts a0 a1 s) := by
  unfold postSts
  repeat' first
    | with_reducible assumption
    | (intro (s : State) (h : Same w a s))
    | (intro _ (s : State) (h : Same w a s))
    | (intro (h : Same w a _))
    | (intro (s' : State); refine_lift have h : Same w a s' := ?_; ?_; clear_value s')
    | lift_lets
    | with_reducible apply sameO_next
    | with_reducible apply same_ite
    | with_reducible apply same_post
    | exact listed_trans hw rfl
    | with_reducible refine same_foldl ?_ (fun s x h => ?_)
    | (intro x'; clear_value x')
    | intro _
    | dsimp only [s']
    | split

theorem same_pend (a0 : Req) (hw : listed [.result] w = true) (h : Same w a s) :
    Same w a (pend a0 s) := by
  exact same_result hw h

theorem same_guarded (a0 : Req) (a1 : List (Bool × ℕ)) (a2 : State → State) (hf2 : ∀ s, Same w a s → Same w a (a2 s)) (hw : listed [.hsi, .result] w = true) (h : Same w a s) :
    Same w a (guarded a0 a1 a2 s) := by
  unfold guarded
  repeat' first
    | with_reducible assumption
    | (intro (s : State) (h : Same w a s))
    | (intro _ (s : State) (h : Same w a s))
    | (intro (h : Same w a _))
    | (intro (s' : State); refine_lift have h : Same w a s' := ?_; ?_; clear_value s')
    | lift_lets
    | with_reducible apply sameO_next
    | with_reducible apply same_ite
    | with_reducible apply same_postSts
    | exact listed_trans hw rfl
    | with_reducible refine same_foldl ?_ (fun s x h => ?_)
    | apply hf2
    | (intro x'; clear_value x')
    | intro _
    | dsimp only [s']
    | split

theorem same_badgerCmd (a0 : Req) (a1 : State → State) (hf1 : ∀ s, Same w a s → Same w a (a1 s)) (hw : listed [.hsi, .result] w = true) (h : Same w a s) :
    Same w a (badgerCmd a0 a1 s) := by
  unfold badgerCmd
  repeat' first
    | with_reducible assumption
    | (intro (s : State) (h : Same w a s))
    | (intro _ (s : State) (h : Same w a s))
    | (intro (h : Same w a _))
    | (intro (s' : State); refine_lift have h : Same w a s' := ?_; ?_; clear_value s')
    | lift_lets
    | with_reducible apply sameO_next
    | with_reducible apply same_ite
    | with_reducible apply same_postSts
    | exact listed_trans hw rfl
    | with_reducible refine same_foldl ?_ (fun s x h => ?_)
    | apply hf1
    | (intro x'; clear_value x')
    | intro _
    | dsimp only [s']
    | split

theorem same_returns (a0 : ℕ) (hw : listed [.rdata] w = true) (h : Same w a s) :
    Same w a (returns a0 s) := by
  exact same_rdata hw h

theorem same_noticeTo (a0 : Bool) (a1 : ℕ) (a2 : ℕ) (hw : listed [.mgt] w = true) (h : Same w a s) :
    Same w a (noticeTo a0 a1 a2 s) := by
  unfold noticeTo
  repeat' first
    | with_reducible assumption
    | (intro (s : State) (h : Same w a s))
    | (intro _ (s : State) (h : Same w a s))
    | (intro (h : Same w a _))
    | (intro (s' : State); refine_lift have h : Same w a s' := ?_; ?_; clear_value s')
    | lift_lets
    | with_reducible apply sameO_next
    | with_reducible apply same_ite
    | (with_reducible refine same_onMgt ?_ ?_ ?_
       rotate_left
       rotate_left
       · intro _; first | exact ⟨rfl, rfl, rfl, rfl⟩ | (refine ⟨?_, ?_, ?_, ?_⟩ <;> split <;> rfl))
    | exact listed_trans hw rfl
    | with_reducible refine same_foldl ?_ (fun s x h => ?_)
    | (intro x'; clear_value x')
    | intro _
    | dsimp only [s']
    | split

theorem same_notice (a0 : ℕ) (a1 : ℕ) (hw : listed [.mgt] w = true) (h : Same w a s) :
    Same w a (notice a0 a1 s) := by
  unfold notice
  repeat' first
    | with_reducible assumption
    | (intro (s : State) (h : Same w a s))
    | (intro _ (s : State) (h : Same w a s))
    | (intro (h : Same w a _))
    | (intro (s' : State); refine_lift have h : Same w a s' := ?_; ?_; clear_value s')
    | lift_lets
    | with_reducible apply sameO_next
    | with_reducible apply same_ite
    | with_reducible apply same_noticeTo
    | exact listed_trans hw rfl
    | with_reducible refine same_foldl ?_ (fun s x h => ?_)
    | (intro x'; clear_value x')
    | intro _
    | dsimp only [s']
    | split

theorem same_setMode (a0 : ℕ) (a1 : Mode) (hw : listed [.sys, .mgt, .log] w = true) (h : Same w a s) :
    Same w a (setMode a0 a1 s) := by
  unfold setMode
  repeat' first
    | with_reducible assumption
    | (intro (s : State) (h : Same w a s))
    | (intro _ (s : State) (h : Same w a s))
    | (intro (h : Same w a _))
    | (intro (s' : State); refine_lift have h : Same w a s' := ?_; ?_; clear_value s')
    | lift_lets
    | with_reducible apply sameO_next
    | with_reducible apply same_ite
    | with_reducible apply same_logEv
    | (with_reducible refine same_onSys ?_ ?_ ?_
       rotate_left
       rotate_left
       · intro _; first | exact ⟨rfl, rfl⟩ | (constructor <;> split <;> rfl))
    | with_reducible apply same_notice
    | exact listed_trans hw rfl
    | with_reducible refine same_foldl ?_ (fun s x h => ?_)
    | (intro x'; clear_value x')
    | intro _
    | dsimp only [s']
    | split

theorem same_evalMode  (hw : listed [.sys, .mgt, .log] w = true) (h : Same w a s) :
    Same w a (evalMode s) := by
  unfold evalMode
  repeat' first
    | with_reducible assumption
    | (intro (s : State) (h : Same w a s))
    | (intro _ (s : State) (h : Same w a s))
    | (intro (h : Same w a _))
    | (intro (s' : State); refine_lift have h : Same w a s' := ?_; ?_; clear_value s')
    | lift_lets
    | with_reducible apply sameO_next
    | with_reducible apply same_ite
    | with_reducible apply same_setMode
    | exact listed_trans hw rfl
    | with_reducible refine same_foldl ?_ (fun s x h => ?_)
    | (intro x'; clear_value x')
    | intro _
    | dsimp only [s']
    | split

end Sys2Proof.Machine
end

