-- ==== Sys2Proof/Laws/FrameWarren.lean ====
section
/-! SUPPORT. Which parts of the state the operations of Warren.lean write. -/

set_option linter.unusedVariables false
set_option linter.unreachableTactic false
set_option linter.unusedTactic false

namespace Sys2Proof.Machine

variable {w : List Part} {a s : State}

theorem same_logReject (a0 : ℕ) (a1 : ℕ) (a2 : ℕ) (a3 : Bytes) (hw : listed [.log] w = true) (h : Same w a s) :
    Same w a (logReject a0 a1 a2 a3 s) := by
  unfold logReject
  repeat' first
    | with_reducible assumption
    | (intro (s : State) (h : Same w a s))
    | (intro _ (s : State) (h : Same w a s))
    | (intro (h : Same w a _))
    | (intro (s' : State); refine_lift have h : Same w a s' := ?_; ?_; clear_value s')
    | lift_lets
    | with_reducible apply sameO_next
    | with_reducible apply same_ite
    | with_reducible apply same_logEv
    | exact listed_trans hw rfl
    | with_reducible refine same_foldl ?_ (fun s x h => ?_)
    | (intro x'; clear_value x')
    | intro _
    | dsimp only [s']
    | split

end Sys2Proof.Machine
end

