-- ==== Sys2Proof/Laws/FrameLanes.lean ====
section
/-! SUPPORT. Which parts of the state the operations of Lanes.lean write. -/

set_option linter.unusedVariables false
set_option linter.unreachableTactic false
set_option linter.unusedTactic false

namespace Sys2Proof.Machine

variable {w : List Part} {a s : State}

theorem same_raiseTrigger (a0 : ℕ) (a1 : Trigger) (hw : listed [.lane] w = true) (h : Same w a s) :
    Same w a (raiseTrigger a0 a1 s) := by
  unfold raiseTrigger
  repeat' first
    | with_reducible assumption
    | (intro (s : State) (h : Same w a s))
    | (intro _ (s : State) (h : Same w a s))
    | (intro (h : Same w a _))
    | (intro (s' : State); refine_lift have h : Same w a s' := ?_; ?_; clear_value s')
    | lift_lets
    | with_reducible apply sameO_next
    | with_reducible apply same_ite
    | with_reducible apply same_onLane
    | with_reducible apply same_onLaneBlk
    | exact listed_trans hw rfl
    | with_reducible refine same_foldl ?_ (fun s x h => ?_)
    | (intro x'; clear_value x')
    | intro _
    | dsimp only [s']
    | split

theorem same_checkFail (a0 : ℕ) (a1 : ℕ) (hw : listed [.lane] w = true) (h : Same w a s) :
    Same w a (checkFail a0 a1 s) := by
  unfold checkFail
  repeat' first
    | with_reducible assumption
    | (intro (s : State) (h : Same w a s))
    | (intro _ (s : State) (h : Same w a s))
    | (intro (h : Same w a _))
    | (intro (s' : State); refine_lift have h : Same w a s' := ?_; ?_; clear_value s')
    | lift_lets
    | with_reducible apply sameO_next
    | with_reducible apply same_ite
    | with_reducible apply same_raiseTrigger
    | with_reducible apply same_onLane
    | exact listed_trans hw rfl
    | with_reducible refine same_foldl ?_ (fun s x h => ?_)
    | (intro x'; clear_value x')
    | intro _
    | dsimp only [s']
    | split

theorem same_startWarmup (a0 : ℕ) (a1 : ℕ) (hw : listed [.lane] w = true) (h : Same w a s) :
    Same w a (startWarmup a0 a1 s) := by
  unfold startWarmup
  repeat' first
    | with_reducible assumption
    | (intro (s : State) (h : Same w a s))
    | (intro _ (s : State) (h : Same w a s))
    | (intro (h : Same w a _))
    | (intro (s' : State); refine_lift have h : Same w a s' := ?_; ?_; clear_value s')
    | lift_lets
    | with_reducible apply sameO_next
    | with_reducible apply same_ite
    | with_reducible apply same_onLane
    | with_reducible apply same_onLaneBlk
    | exact listed_trans hw rfl
    | with_reducible refine same_foldl ?_ (fun s x h => ?_)
    | (intro x'; clear_value x')
    | intro _
    | dsimp only [s']
    | split

theorem same_serveQueue  (hw : listed [.lane] w = true) (h : Same w a s) :
    Same w a (serveQueue s) := by
  unfold serveQueue
  repeat' first
    | with_reducible assumption
    | (intro (s : State) (h : Same w a s))
    | (intro _ (s : State) (h : Same w a s))
    | (intro (h : Same w a _))
    | (intro (s' : State); refine_lift have h : Same w a s' := ?_; ?_; clear_value s')
    | lift_lets
    | with_reducible apply sameO_next
    | with_reducible apply same_ite
    | with_reducible apply same_startWarmup
    | with_reducible apply same_onLaneBlk
    | exact listed_trans hw rfl
    | with_reducible refine same_foldl ?_ (fun s x h => ?_)
    | (intro x'; clear_value x')
    | intro _
    | dsimp only [s']
    | split

theorem same_endTrial (a0 : ℕ) (hw : listed [.lane] w = true) (h : Same w a s) :
    Same w a (endTrial a0 s) := by
  unfold endTrial
  repeat' first
    | with_reducible assumption
    | (intro (s : State) (h : Same w a s))
    | (intro _ (s : State) (h : Same w a s))
    | (intro (h : Same w a _))
    | (intro (s' : State); refine_lift have h : Same w a s' := ?_; ?_; clear_value s')
    | lift_lets
    | with_reducible apply sameO_next
    | with_reducible apply same_ite
    | with_reducible apply same_serveQueue
    | with_reducible apply same_onLane
    | exact listed_trans hw rfl
    | with_reducible refine same_foldl ?_ (fun s x h => ?_)
    | (intro x'; clear_value x')
    | intro _
    | dsimp only [s']
    | split

theorem same_firdataWrite (a0 : ℕ) (a1 : ℕ) (hw : listed [.lane] w = true) (h : Same w a s) :
    Same w a (firdataWrite a0 a1 s) := by
  unfold firdataWrite
  repeat' first
    | with_reducible assumption
    | (intro (s : State) (h : Same w a s))
    | (intro _ (s : State) (h : Same w a s))
    | (intro (h : Same w a _))
    | (intro (s' : State); refine_lift have h : Same w a s' := ?_; ?_; clear_value s')
    | lift_lets
    | with_reducible apply sameO_next
    | with_reducible apply same_ite
    | with_reducible apply same_onLane
    | exact listed_trans hw rfl
    | with_reducible refine same_foldl ?_ (fun s x h => ?_)
    | (intro x'; clear_value x')
    | intro _
    | dsimp only [s']
    | split

theorem same_execFirdataWrite (a0 : ℕ) (a1 : Word) (hw : listed [.lane] w = true) (h : Same w a s) :
    SameO w a (execFirdataWrite a0 a1 s) := by
  unfold execFirdataWrite
  repeat' first
    | with_reducible assumption
    | (intro (s : State) (h : Same w a s))
    | (intro _ (s : State) (h : Same w a s))
    | (intro (h : Same w a _))
    | (intro (s' : State); refine_lift have h : Same w a s' := ?_; ?_; clear_value s')
    | lift_lets
    | with_reducible apply sameO_next
    | with_reducible apply same_ite
    | with_reducible apply sameO_ite
    | with_reducible apply same_firdataWrite
    | exact listed_trans hw rfl
    | with_reducible refine same_foldl ?_ (fun s x h => ?_)
    | (intro x'; clear_value x')
    | intro _
    | dsimp only [s']
    | split

theorem same_execFirSwap (a0 : ℕ) (hw : listed [.lane] w = true) (h : Same w a s) :
    SameO w a (execFirSwap a0 s) := by
  unfold execFirSwap
  repeat' first
    | with_reducible assumption
    | (intro (s : State) (h : Same w a s))
    | (intro _ (s : State) (h : Same w a s))
    | (intro (h : Same w a _))
    | (intro (s' : State); refine_lift have h : Same w a s' := ?_; ?_; clear_value s')
    | lift_lets
    | with_reducible apply sameO_next
    | with_reducible apply same_ite
    | with_reducible apply sameO_ite
    | with_reducible apply same_onLane
    | exact listed_trans hw rfl
    | with_reducible refine same_foldl ?_ (fun s x h => ?_)
    | (intro x'; clear_value x')
    | intro _
    | dsimp only [s']
    | split

theorem same_laneTrialWrite (a0 : ℕ) (a1 : Bool) (hw : listed [.lane] w = true) (h : Same w a s) :
    Same w a (laneTrialWrite a0 a1 s) := by
  unfold laneTrialWrite
  repeat' first
    | with_reducible assumption
    | (intro (s : State) (h : Same w a s))
    | (intro _ (s : State) (h : Same w a s))
    | (intro (h : Same w a _))
    | (intro (s' : State); refine_lift have h : Same w a s' := ?_; ?_; clear_value s')
    | lift_lets
    | with_reducible apply sameO_next
    | with_reducible apply same_ite
    | with_reducible apply same_onLane
    | exact listed_trans hw rfl
    | with_reducible refine same_foldl ?_ (fun s x h => ?_)
    | (intro x'; clear_value x')
    | intro _
    | dsimp only [s']
    | split

theorem same_execLaneTrialWrite (a0 : ℕ) (a1 : Bool) (hw : listed [.lane] w = true) (h : Same w a s) :
    SameO w a (execLaneTrialWrite a0 a1 s) := by
  unfold execLaneTrialWrite
  repeat' first
    | with_reducible assumption
    | (intro (s : State) (h : Same w a s))
    | (intro _ (s : State) (h : Same w a s))
    | (intro (h : Same w a _))
    | (intro (s' : State); refine_lift have h : Same w a s' := ?_; ?_; clear_value s')
    | lift_lets
    | with_reducible apply sameO_next
    | with_reducible apply same_ite
    | with_reducible apply sameO_ite
    | with_reducible apply same_laneTrialWrite
    | exact listed_trans hw rfl
    | with_reducible refine same_foldl ?_ (fun s x h => ?_)
    | (intro x'; clear_value x')
    | intro _
    | dsimp only [s']
    | split

theorem same_laneCalWrite (a0 : ℕ) (a1 : Bool) (a2 : ℕ) (hw : listed [.lane] w = true) (h : Same w a s) :
    Same w a (laneCalWrite a0 a1 a2 s) := by
  unfold laneCalWrite
  repeat' first
    | with_reducible assumption
    | (intro (s : State) (h : Same w a s))
    | (intro _ (s : State) (h : Same w a s))
    | (intro (h : Same w a _))
    | (intro (s' : State); refine_lift have h : Same w a s' := ?_; ?_; clear_value s')
    | lift_lets
    | with_reducible apply sameO_next
    | with_reducible apply same_ite
    | with_reducible apply same_onLane
    | exact listed_trans hw rfl
    | with_reducible refine same_foldl ?_ (fun s x h => ?_)
    | (intro x'; clear_value x')
    | intro _
    | dsimp only [s']
    | split

theorem same_execLaneCalWrite (a0 : ℕ) (a1 : Bool) (a2 : Word) (hw : listed [.lane] w = true) (h : Same w a s) :
    SameO w a (execLaneCalWrite a0 a1 a2 s) := by
  unfold execLaneCalWrite
  repeat' first
    | with_reducible assumption
    | (intro (s : State) (h : Same w a s))
    | (intro _ (s : State) (h : Same w a s))
    | (intro (h : Same w a _))
    | (intro (s' : State); refine_lift have h : Same w a s' := ?_; ?_; clear_value s')
    | lift_lets
    | with_reducible apply sameO_next
    | with_reducible apply same_ite
    | with_reducible apply sameO_ite
    | with_reducible apply same_laneCalWrite
    | exact listed_trans hw rfl
    | with_reducible refine same_foldl ?_ (fun s x h => ?_)
    | (intro x'; clear_value x')
    | intro _
    | dsimp only [s']
    | split

theorem same_execLaneSuspect (a0 : ℕ) (hw : listed [.lane, .log] w = true) (h : Same w a s) :
    SameO w a (execLaneSuspect a0 s) := by
  unfold execLaneSuspect
  repeat' first
    | with_reducible assumption
    | (intro (s : State) (h : Same w a s))
    | (intro _ (s : State) (h : Same w a s))
    | (intro (h : Same w a _))
    | (intro (s' : State); refine_lift have h : Same w a s' := ?_; ?_; clear_value s')
    | lift_lets
    | with_reducible apply sameO_next
    | with_reducible apply same_ite
    | with_reducible apply sameO_ite
    | with_reducible apply same_onLane
    | with_reducible apply same_onLaneBlk
    | with_reducible apply same_serveQueue
    | with_reducible apply same_logEv
    | exact listed_trans hw rfl
    | with_reducible refine same_foldl ?_ (fun s x h => ?_)
    | (intro x'; clear_value x')
    | intro _
    | dsimp only [s']
    | split

theorem same_releaseSpare (a0 : ℕ) (hw : listed [.lane] w = true) (h : Same w a s) :
    Same w a (releaseSpare a0 s) := by
  unfold releaseSpare
  repeat' first
    | with_reducible assumption
    | (intro (s : State) (h : Same w a s))
    | (intro _ (s : State) (h : Same w a s))
    | (intro (h : Same w a _))
    | (intro (s' : State); refine_lift have h : Same w a s' := ?_; ?_; clear_value s')
    | lift_lets
    | with_reducible apply sameO_next
    | with_reducible apply same_ite
    | with_reducible apply same_onLane
    | exact listed_trans hw rfl
    | with_reducible refine same_foldl ?_ (fun s x h => ?_)
    | (intro x'; clear_value x')
    | intro _
    | dsimp only [s']
    | split

theorem same_writeSubst (a0 : ℕ) (a1 : ℕ) (hw : listed [.met] w = true) (h : Same w a s) :
    Same w a (writeSubst a0 a1 s) := by
  unfold writeSubst
  repeat' first
    | with_reducible assumption
    | (intro (s : State) (h : Same w a s))
    | (intro _ (s : State) (h : Same w a s))
    | (intro (h : Same w a _))
    | (intro (s' : State); refine_lift have h : Same w a s' := ?_; ?_; clear_value s')
    | lift_lets
    | with_reducible apply sameO_next
    | with_reducible apply same_ite
    | with_reducible apply same_onMet
    | exact listed_trans hw rfl
    | with_reducible refine same_foldl ?_ (fun s x h => ?_)
    | (intro x'; clear_value x')
    | intro _
    | dsimp only [s']
    | split

theorem same_execWarmupDecision (a0 : ℕ) (a1 : Bool) (a2 : Bool) (hw : listed [.lane, .met, .log] w = true) (h : Same w a s) :
    SameO w a (execWarmupDecision a0 a1 a2 s) := by
  unfold execWarmupDecision
  repeat' first
    | with_reducible assumption
    | (intro (s : State) (h : Same w a s))
    | (intro _ (s : State) (h : Same w a s))
    | (intro (h : Same w a _))
    | (intro (s' : State); refine_lift have h : Same w a s' := ?_; ?_; clear_value s')
    | lift_lets
    | with_reducible apply sameO_next
    | with_reducible apply same_ite
    | with_reducible apply sameO_ite
    | with_reducible apply same_onLaneBlk
    | with_reducible apply same_onLane
    | with_reducible apply same_logEv
    | with_reducible apply same_serveQueue
    | with_reducible apply same_releaseSpare
    | with_reducible apply same_writeSubst
    | exact listed_trans hw rfl
    | with_reducible refine same_foldl ?_ (fun s x h => ?_)
    | (intro x'; clear_value x')
    | intro _
    | dsimp only [s']
    | split

theorem same_execLaneSwap (a0 : ℕ) (hw : listed [.str, .lane, .log] w = true) (h : Same w a s) :
    SameO w a (execLaneSwap a0 s) := by
  unfold execLaneSwap
  repeat' first
    | with_reducible assumption
    | (intro (s : State) (h : Same w a s))
    | (intro _ (s : State) (h : Same w a s))
    | (intro (h : Same w a _))
    | (intro (s' : State); refine_lift have h : Same w a s' := ?_; ?_; clear_value s')
    | lift_lets
    | with_reducible apply sameO_next
    | with_reducible apply same_ite
    | with_reducible apply sameO_ite
    | with_reducible apply same_onLaneBlk
    | with_reducible apply same_onStr
    | with_reducible apply same_onLane
    | with_reducible apply same_logEv
    | exact listed_trans hw rfl
    | with_reducible refine same_foldl ?_ (fun s x h => ?_)
    | (intro x'; clear_value x')
    | intro _
    | dsimp only [s']
    | split

theorem same_execSpareFailed (a0 : ℕ) (a1 : ℕ) (hw : listed [.lane, .log] w = true) (h : Same w a s) :
    SameO w a (execSpareFailed a0 a1 s) := by
  unfold execSpareFailed
  repeat' first
    | with_reducible assumption
    | (intro (s : State) (h : Same w a s))
    | (intro _ (s : State) (h : Same w a s))
    | (intro (h : Same w a _))
    | (intro (s' : State); refine_lift have h : Same w a s' := ?_; ?_; clear_value s')
    | lift_lets
    | with_reducible apply sameO_next
    | with_reducible apply same_ite
    | with_reducible apply sameO_ite
    | with_reducible apply same_logEv
    | with_reducible apply same_onLane
    | exact listed_trans hw rfl
    | with_reducible refine same_foldl ?_ (fun s x h => ?_)
    | (intro x'; clear_value x')
    | intro _
    | dsimp only [s']
    | split

theorem same_execLaneFailed (a0 : ℕ) (a1 : ℕ) (hw : listed [.lane, .log] w = true) (h : Same w a s) :
    SameO w a (execLaneFailed a0 a1 s) := by
  unfold execLaneFailed
  repeat' first
    | with_reducible assumption
    | (intro (s : State) (h : Same w a s))
    | (intro _ (s : State) (h : Same w a s))
    | (intro (h : Same w a _))
    | (intro (s' : State); refine_lift have h : Same w a s' := ?_; ?_; clear_value s')
    | lift_lets
    | with_reducible apply sameO_next
    | with_reducible apply same_ite
    | with_reducible apply sameO_ite
    | with_reducible apply same_logEv
    | with_reducible apply same_onLane
    | exact listed_trans hw rfl
    | with_reducible refine same_foldl ?_ (fun s x h => ?_)
    | (intro x'; clear_value x')
    | intro _
    | dsimp only [s']
    | split

theorem same_execStrikeExpiry (a0 : ℕ) (hw : listed [.lane] w = true) (h : Same w a s) :
    SameO w a (execStrikeExpiry a0 s) := by
  unfold execStrikeExpiry
  repeat' first
    | with_reducible assumption
    | (intro (s : State) (h : Same w a s))
    | (intro _ (s : State) (h : Same w a s))
    | (intro (h : Same w a _))
    | (intro (s' : State); refine_lift have h : Same w a s' := ?_; ?_; clear_value s')
    | lift_lets
    | with_reducible apply sameO_next
    | with_reducible apply same_ite
    | with_reducible apply sameO_ite
    | with_reducible apply same_onLane
    | exact listed_trans hw rfl
    | with_reducible refine same_foldl ?_ (fun s x h => ?_)
    | (intro x'; clear_value x')
    | intro _
    | dsimp only [s']
    | split

theorem same_takeBack (a0 : ℕ) (hw : listed [.str, .lane, .met] w = true) (h : Same w a s) :
    Same w a (takeBack a0 s) := by
  unfold takeBack
  repeat' first
    | with_reducible assumption
    | (intro (s : State) (h : Same w a s))
    | (intro _ (s : State) (h : Same w a s))
    | (intro (h : Same w a _))
    | (intro (s' : State); refine_lift have h : Same w a s' := ?_; ?_; clear_value s')
    | lift_lets
    | with_reducible apply sameO_next
    | with_reducible apply same_ite
    | with_reducible apply same_onStr
    | with_reducible apply same_onMet
    | with_reducible apply same_onLaneBlk
    | with_reducible apply same_onLane
    | exact listed_trans hw rfl
    | with_reducible refine same_foldl ?_ (fun s x h => ?_)
    | (intro x'; clear_value x')
    | intro _
    | dsimp only [s']
    | split

theorem same_dropWarm (a0 : ℕ) (hw : listed [.lane] w = true) (h : Same w a s) :
    Same w a (dropWarm a0 s) := by
  unfold dropWarm
  repeat' first
    | with_reducible assumption
    | (intro (s : State) (h : Same w a s))
    | (intro _ (s : State) (h : Same w a s))
    | (intro (h : Same w a _))
    | (intro (s' : State); refine_lift have h : Same w a s' := ?_; ?_; clear_value s')
    | lift_lets
    | with_reducible apply sameO_next
    | with_reducible apply same_ite
    | with_reducible apply same_releaseSpare
    | exact listed_trans hw rfl
    | with_reducible refine same_foldl ?_ (fun s x h => ?_)
    | (intro x'; clear_value x')
    | intro _
    | dsimp only [s']
    | split

theorem same_restoreLane (a0 : ℕ) (hw : listed [.str, .lane, .met, .log] w = true) (h : Same w a s) :
    Same w a (restoreLane a0 s) := by
  unfold restoreLane
  repeat' first
    | with_reducible assumption
    | (intro (s : State) (h : Same w a s))
    | (intro _ (s : State) (h : Same w a s))
    | (intro (h : Same w a _))
    | (intro (s' : State); refine_lift have h : Same w a s' := ?_; ?_; clear_value s')
    | lift_lets
    | with_reducible apply sameO_next
    | with_reducible apply same_ite
    | with_reducible apply same_takeBack
    | with_reducible apply same_dropWarm
    | with_reducible apply same_logEv
    | with_reducible apply same_releaseSpare
    | with_reducible apply same_onLaneBlk
    | exact listed_trans hw rfl
    | with_reducible refine same_foldl ?_ (fun s x h => ?_)
    | (intro x'; clear_value x')
    | intro _
    | dsimp only [s']
    | split

theorem same_execLaneRestore (a0 : Req) (a1 : ℕ) (hw : listed [.str, .lane, .met, .log, .hsi, .result] w = true) (h : Same w a s) :
    SameO w a (execLaneRestore a0 a1 s) := by
  unfold execLaneRestore
  repeat' first
    | with_reducible assumption
    | (intro (s : State) (h : Same w a s))
    | (intro _ (s : State) (h : Same w a s))
    | (intro (h : Same w a _))
    | (intro (s' : State); refine_lift have h : Same w a s' := ?_; ?_; clear_value s')
    | lift_lets
    | with_reducible apply sameO_next
    | with_reducible apply same_ite
    | with_reducible apply sameO_ite
    | with_reducible apply same_badgerCmd
    | with_reducible apply same_guarded
    | with_reducible apply same_postSts
    | with_reducible apply same_serveQueue
    | with_reducible apply same_restoreLane
    | exact listed_trans hw rfl
    | with_reducible refine same_foldl ?_ (fun s x h => ?_)
    | (intro x'; clear_value x')
    | intro _
    | dsimp only [s']
    | split

end Sys2Proof.Machine
end

