-- ==== Sys2Proof/Laws/FrameChain.lean ====
section
/-! SUPPORT. Which parts of the state the operations of Chain.lean write. -/

set_option linter.unusedVariables false
set_option linter.unreachableTactic false
set_option linter.unusedTactic false

namespace Sys2Proof.Machine

variable {w : List Part} {a s : State}

theorem same_overloadChange (a0 : ℕ) (a1 : Bool) (hw : listed [.lane, .log] w = true) (h : Same w a s) :
    Same w a (overloadChange a0 a1 s) := by
  unfold overloadChange
  repeat' first
    | with_reducible assumption
    | (intro (s : State) (h : Same w a s))
    | (intro _ (s : State) (h : Same w a s))
    | (intro (h : Same w a _))
    | (intro (s' : State); refine_lift have h : Same w a s' := ?_; ?_; clear_value s')
    | lift_lets
    | with_reducible apply sameO_next
    | with_reducible apply same_ite
    | with_reducible apply same_onLane
    | with_reducible apply same_logEv
    | exact listed_trans hw rfl
    | with_reducible refine same_foldl ?_ (fun s x h => ?_)
    | (intro x'; clear_value x')
    | intro _
    | dsimp only [s']
    | split

theorem same_formWord (a0 : ℕ) (a1 : ℕ) (a2 : ℕ) (a3 : ℕ) (hw : listed [.lane] w = true) (h : Same w a s) :
    Same w a (formWord a0 a1 a2 a3 s) := by
  unfold formWord
  repeat' first
    | with_reducible assumption
    | (intro (s : State) (h : Same w a s))
    | (intro _ (s : State) (h : Same w a s))
    | (intro (h : Same w a _))
    | (intro (s' : State); refine_lift have h : Same w a s' := ?_; ?_; clear_value s')
    | lift_lets
    | with_reducible apply sameO_next
    | with_reducible apply same_ite
    | with_reducible apply same_onLaneBlk
    | with_reducible apply same_checkFail
    | exact listed_trans hw rfl
    | with_reducible refine same_foldl ?_ (fun s x h => ?_)
    | (intro x'; clear_value x')
    | intro _
    | dsimp only [s']
    | split

theorem same_formDue (a0 : ℕ) (hw : listed [.lane] w = true) (h : Same w a s) :
    Same w a (formDue a0 s) := by
  unfold formDue
  repeat' first
    | with_reducible assumption
    | (intro (s : State) (h : Same w a s))
    | (intro _ (s : State) (h : Same w a s))
    | (intro (h : Same w a _))
    | (intro (s' : State); refine_lift have h : Same w a s' := ?_; ?_; clear_value s')
    | lift_lets
    | with_reducible apply sameO_next
    | with_reducible apply same_ite
    | with_reducible apply same_formWord
    | with_reducible apply same_onLaneBlk
    | exact listed_trans hw rfl
    | with_reducible refine same_foldl ?_ (fun s x h => ?_)
    | (intro x'; clear_value x')
    | intro _
    | dsimp only [s']
    | split

theorem same_gridStep (a0 : ℕ) (a1 : ℤ) (hw : listed [.lane, .freeCtr] w = true) (h : Same w a s) :
    Same w a (gridStep a0 a1 s) := by
  unfold gridStep
  repeat' first
    | with_reducible assumption
    | (intro (s : State) (h : Same w a s))
    | (intro _ (s : State) (h : Same w a s))
    | (intro (h : Same w a _))
    | (intro (s' : State); refine_lift have h : Same w a s' := ?_; ?_; clear_value s')
    | lift_lets
    | with_reducible apply sameO_next
    | with_reducible apply same_ite
    | with_reducible apply same_formDue
    | with_reducible apply same_onLaneBlk
    | with_reducible apply same_bump
    | exact listed_trans hw rfl
    | with_reducible refine same_foldl ?_ (fun s x h => ?_)
    | (intro x'; clear_value x')
    | intro _
    | dsimp only [s']
    | split

theorem same_compareWarm (a0 : ℕ) (hw : listed [.lane] w = true) (h : Same w a s) :
    Same w a (compareWarm a0 s) := by
  unfold compareWarm
  repeat' first
    | with_reducible assumption
    | (intro (s : State) (h : Same w a s))
    | (intro _ (s : State) (h : Same w a s))
    | (intro (h : Same w a _))
    | (intro (s' : State); refine_lift have h : Same w a s' := ?_; ?_; clear_value s')
    | lift_lets
    | with_reducible apply sameO_next
    | with_reducible apply same_ite
    | with_reducible apply same_onLaneBlk
    | exact listed_trans hw rfl
    | with_reducible refine same_foldl ?_ (fun s x h => ?_)
    | (intro x'; clear_value x')
    | intro _
    | dsimp only [s']
    | split

theorem same_stage2 (a0 : ℕ) (a1 : LaneInput) (hw : listed [.lane, .log, .freeCtr] w = true) (h : Same w a s) :
    Same w a (stage2 a0 a1 s) := by
  unfold stage2
  repeat' first
    | with_reducible assumption
    | (intro (s : State) (h : Same w a s))
    | (intro _ (s : State) (h : Same w a s))
    | (intro (h : Same w a _))
    | (intro (s' : State); refine_lift have h : Same w a s' := ?_; ?_; clear_value s')
    | lift_lets
    | with_reducible apply sameO_next
    | with_reducible apply same_ite
    | with_reducible apply same_onLane
    | with_reducible apply same_overloadChange
    | with_reducible apply same_bump
    | exact listed_trans hw rfl
    | with_reducible refine same_foldl ?_ (fun s x h => ?_)
    | (intro x'; clear_value x')
    | intro _
    | dsimp only [s']
    | split

theorem same_stages34 (a0 : ℕ) (a1 : LaneInput) (hw : listed [.lane, .freeCtr] w = true) (h : Same w a s) :
    Same w a (stages34 a0 a1 s) := by
  unfold stages34
  repeat' first
    | with_reducible assumption
    | (intro (s : State) (h : Same w a s))
    | (intro _ (s : State) (h : Same w a s))
    | (intro (h : Same w a _))
    | (intro (s' : State); refine_lift have h : Same w a s' := ?_; ?_; clear_value s')
    | lift_lets
    | with_reducible apply sameO_next
    | with_reducible apply same_ite
    | with_reducible apply same_bump
    | with_reducible apply same_checkFail
    | with_reducible apply same_onLane
    | exact listed_trans hw rfl
    | with_reducible refine same_foldl ?_ (fun s x h => ?_)
    | (intro x'; clear_value x')
    | intro _
    | dsimp only [s']
    | split

theorem same_sampleLane (a0 : ℕ) (a1 : LaneInput) (hw : listed [.lane, .log, .freeCtr] w = true) (h : Same w a s) :
    Same w a (sampleLane a0 a1 s) := by
  unfold sampleLane
  repeat' first
    | with_reducible assumption
    | (intro (s : State) (h : Same w a s))
    | (intro _ (s : State) (h : Same w a s))
    | (intro (h : Same w a _))
    | (intro (s' : State); refine_lift have h : Same w a s' := ?_; ?_; clear_value s')
    | lift_lets
    | with_reducible apply sameO_next
    | with_reducible apply same_ite
    | with_reducible apply same_endTrial
    | with_reducible apply same_stages34
    | with_reducible apply same_stage2
    | with_reducible apply same_onLane
    | with_reducible apply same_compareWarm
    | with_reducible apply same_gridStep
    | exact listed_trans hw rfl
    | with_reducible refine same_foldl ?_ (fun s x h => ?_)
    | (intro x'; clear_value x')
    | intro _
    | dsimp only [s']
    | split

theorem same_execLaneSampleWord (a0 : ℕ) (a1 : LaneInput) (hw : listed [.lane, .log, .freeCtr] w = true) (h : Same w a s) :
    SameO w a (execLaneSampleWord a0 a1 s) := by
  unfold execLaneSampleWord
  repeat' first
    | with_reducible assumption
    | (intro (s : State) (h : Same w a s))
    | (intro _ (s : State) (h : Same w a s))
    | (intro (h : Same w a _))
    | (intro (s' : State); refine_lift have h : Same w a s' := ?_; ?_; clear_value s')
    | lift_lets
    | with_reducible apply sameO_next
    | with_reducible apply same_ite
    | with_reducible apply sameO_ite
    | with_reducible apply same_sampleLane
    | exact listed_trans hw rfl
    | with_reducible refine same_foldl ?_ (fun s x h => ?_)
    | (intro x'; clear_value x')
    | intro _
    | dsimp only [s']
    | split

theorem same_execLaneStuck (a0 : ℕ) (a1 : Bool) (hw : listed [.lane, .log] w = true) (h : Same w a s) :
    SameO w a (execLaneStuck a0 a1 s) := by
  unfold execLaneStuck
  repeat' first
    | with_reducible assumption
    | (intro (s : State) (h : Same w a s))
    | (intro _ (s : State) (h : Same w a s))
    | (intro (h : Same w a _))
    | (intro (s' : State); refine_lift have h : Same w a s' := ?_; ?_; clear_value s')
    | lift_lets
    | with_reducible apply sameO_next
    | with_reducible apply same_ite
    | with_reducible apply sameO_ite
    | with_reducible apply same_overloadChange
    | with_reducible apply same_raiseTrigger
    | with_reducible apply same_onLane
    | exact listed_trans hw rfl
    | with_reducible refine same_foldl ?_ (fun s x h => ?_)
    | (intro x'; clear_value x')
    | intro _
    | dsimp only [s']
    | split

theorem same_execLaneClkerr (a0 : ℕ) (hw : listed [.lane] w = true) (h : Same w a s) :
    SameO w a (execLaneClkerr a0 s) := by
  unfold execLaneClkerr
  repeat' first
    | with_reducible assumption
    | (intro (s : State) (h : Same w a s))
    | (intro _ (s : State) (h : Same w a s))
    | (intro (h : Same w a _))
    | (intro (s' : State); refine_lift have h : Same w a s' := ?_; ?_; clear_value s')
    | lift_lets
    | with_reducible apply sameO_next
    | with_reducible apply same_ite
    | with_reducible apply sameO_ite
    | with_reducible apply same_raiseTrigger
    | with_reducible apply same_onLane
    | exact listed_trans hw rfl
    | with_reducible refine same_foldl ?_ (fun s x h => ?_)
    | (intro x'; clear_value x')
    | intro _
    | dsimp only [s']
    | split

theorem same_execModulatorClockReturn (a0 : ℕ) (hw : listed [.lane] w = true) (h : Same w a s) :
    SameO w a (execModulatorClockReturn a0 s) := by
  unfold execModulatorClockReturn
  repeat' first
    | with_reducible assumption
    | (intro (s : State) (h : Same w a s))
    | (intro _ (s : State) (h : Same w a s))
    | (intro (h : Same w a _))
    | (intro (s' : State); refine_lift have h : Same w a s' := ?_; ?_; clear_value s')
    | lift_lets
    | with_reducible apply sameO_next
    | with_reducible apply same_ite
    | with_reducible apply sameO_ite
    | with_reducible apply same_onLane
    | exact listed_trans hw rfl
    | with_reducible refine same_foldl ?_ (fun s x h => ?_)
    | (intro x'; clear_value x')
    | intro _
    | dsimp only [s']
    | split

theorem same_formTap (a0 : ℕ) (a1 : ℕ) (hw : listed [.lane, .freeCtr] w = true) (h : Same w a s) :
    Same w a (formTap a0 a1 s) := by
  unfold formTap
  repeat' first
    | with_reducible assumption
    | (intro (s : State) (h : Same w a s))
    | (intro _ (s : State) (h : Same w a s))
    | (intro (h : Same w a _))
    | (intro (s' : State); refine_lift have h : Same w a s' := ?_; ?_; clear_value s')
    | lift_lets
    | with_reducible apply sameO_next
    | with_reducible apply same_ite
    | with_reducible apply same_onLane
    | with_reducible apply same_bump
    | exact listed_trans hw rfl
    | with_reducible refine same_foldl ?_ (fun s x h => ?_)
    | (intro x'; clear_value x')
    | intro _
    | dsimp only [s']
    | split

theorem same_forgetPhases  (hw : listed [.glk] w = true) (h : Same w a s) :
    Same w a (forgetPhases s) := by
  unfold forgetPhases
  repeat' first
    | with_reducible assumption
    | (intro (s : State) (h : Same w a s))
    | (intro _ (s : State) (h : Same w a s))
    | (intro (h : Same w a _))
    | (intro (s' : State); refine_lift have h : Same w a s' := ?_; ?_; clear_value s')
    | lift_lets
    | with_reducible apply sameO_next
    | with_reducible apply same_ite
    | with_reducible apply same_onGlk
    | exact listed_trans hw rfl
    | with_reducible refine same_foldl ?_ (fun s x h => ?_)
    | (intro x'; clear_value x')
    | intro _
    | dsimp only [s']
    | split

theorem same_zcCheck  (hw : listed [.glk] w = true) (h : Same w a s) :
    Same w a (zcCheck s) := by
  unfold zcCheck
  repeat' first
    | with_reducible assumption
    | (intro (s : State) (h : Same w a s))
    | (intro _ (s : State) (h : Same w a s))
    | (intro (h : Same w a _))
    | (intro (s' : State); refine_lift have h : Same w a s' := ?_; ?_; clear_value s')
    | lift_lets
    | with_reducible apply sameO_next
    | with_reducible apply same_ite
    | with_reducible apply same_forgetPhases
    | exact listed_trans hw rfl
    | with_reducible refine same_foldl ?_ (fun s x h => ?_)
    | (intro x'; clear_value x')
    | intro _
    | dsimp only [s']
    | split

theorem same_execResamplerCycle (a0 : ℕ) (a1 : ℕ) (hw : listed [.lane, .glk, .log] w = true) (h : Same w a s) :
    SameO w a (execResamplerCycle a0 a1 s) := by
  unfold execResamplerCycle
  repeat' first
    | with_reducible assumption
    | (intro (s : State) (h : Same w a s))
    | (intro _ (s : State) (h : Same w a s))
    | (intro (h : Same w a _))
    | (intro (s' : State); refine_lift have h : Same w a s' := ?_; ?_; clear_value s')
    | lift_lets
    | with_reducible apply sameO_next
    | with_reducible apply same_ite
    | with_reducible apply sameO_ite
    | with_reducible apply same_onLaneBlk
    | with_reducible apply same_zcCheck
    | with_reducible apply same_logEv
    | exact listed_trans hw rfl
    | with_reducible refine same_foldl ?_ (fun s x h => ?_)
    | (intro x'; clear_value x')
    | intro _
    | dsimp only [s']
    | split

theorem same_execDetectorUpdate (a0 : ℕ) (a1 : Bool) (a2 : Bool) (hw : listed [.lane, .freeCtr] w = true) (h : Same w a s) :
    SameO w a (execDetectorUpdate a0 a1 a2 s) := by
  unfold execDetectorUpdate
  repeat' first
    | with_reducible assumption
    | (intro (s : State) (h : Same w a s))
    | (intro _ (s : State) (h : Same w a s))
    | (intro (h : Same w a _))
    | (intro (s' : State); refine_lift have h : Same w a s' := ?_; ?_; clear_value s')
    | lift_lets
    | with_reducible apply sameO_next
    | with_reducible apply same_ite
    | with_reducible apply sameO_ite
    | with_reducible apply same_onLane
    | with_reducible apply same_bump
    | exact listed_trans hw rfl
    | with_reducible refine same_foldl ?_ (fun s x h => ?_)
    | (intro x'; clear_value x')
    | intro _
    | dsimp only [s']
    | split

end Sys2Proof.Machine
end

