-- ==== Sys2Proof/Laws/FrameMetstore.lean ====
section
/-! SUPPORT. Which parts of the state the operations of Metstore.lean write. -/

set_option linter.unusedVariables false
set_option linter.unreachableTactic false
set_option linter.unusedTactic false

namespace Sys2Proof.Machine

variable {w : List Part} {a s : State}

theorem same_legalEv (a0 : ℕ) (a1 : ℕ) (a2 : ℕ) (a3 : List (ℕ × ℕ)) (hw : listed [.met] w = true) (h : Same w a s) :
    Same w a (legalEv a0 a1 a2 a3 s) := by
  unfold legalEv
  repeat' first
    | with_reducible assumption
    | (intro (s : State) (h : Same w a s))
    | (intro _ (s : State) (h : Same w a s))
    | (intro (h : Same w a _))
    | (intro (s' : State); refine_lift have h : Same w a s' := ?_; ?_; clear_value s')
    | lift_lets
    | with_reducible apply sameO_next
    | with_reducible apply same_ite
    | with_reducible apply same_onMet
    | exact listed_trans hw rfl
    | with_reducible refine same_foldl ?_ (fun s x h => ?_)
    | (intro x'; clear_value x')
    | intro _
    | dsimp only [s']
    | split

theorem same_archiveLegal (a0 : LogRec) (hw : listed [.mgt, .log] w = true) (h : Same w a s) :
    Same w a (archiveLegal a0 s) := by
  unfold archiveLegal
  repeat' first
    | with_reducible assumption
    | (intro (s : State) (h : Same w a s))
    | (intro _ (s : State) (h : Same w a s))
    | (intro (h : Same w a _))
    | (intro (s' : State); refine_lift have h : Same w a s' := ?_; ?_; clear_value s')
    | lift_lets
    | with_reducible apply sameO_next
    | with_reducible apply same_ite
    | (with_reducible refine same_onMgt ?_ ?_ ?_
       rotate_left
       rotate_left
       · intro _; first | exact ⟨rfl, rfl, rfl, rfl⟩ | (refine ⟨?_, ?_, ?_, ?_⟩ <;> split <;> rfl))
    | with_reducible apply same_logEv
    | exact listed_trans hw rfl
    | with_reducible refine same_foldl ?_ (fun s x h => ?_)
    | (intro x'; clear_value x')
    | intro _
    | dsimp only [s']
    | split

theorem same_checkWatermark  (hw : listed [.mgt] w = true) (h : Same w a s) :
    Same w a (checkWatermark s) := by
  unfold checkWatermark
  repeat' first
    | with_reducible assumption
    | (intro (s : State) (h : Same w a s))
    | (intro _ (s : State) (h : Same w a s))
    | (intro (h : Same w a _))
    | (intro (s' : State); refine_lift have h : Same w a s' := ?_; ?_; clear_value s')
    | lift_lets
    | with_reducible apply sameO_next
    | with_reducible apply same_ite
    | (with_reducible refine same_onMgt ?_ ?_ ?_
       rotate_left
       rotate_left
       · intro _; first | exact ⟨rfl, rfl, rfl, rfl⟩ | (refine ⟨?_, ?_, ?_, ?_⟩ <;> split <;> rfl))
    | with_reducible apply same_notice
    | exact listed_trans hw rfl
    | with_reducible refine same_foldl ?_ (fun s x h => ?_)
    | (intro x'; clear_value x')
    | intro _
    | dsimp only [s']
    | split

theorem same_execLegalEventConfirm (a0 : ℕ) (hw : listed [.met, .mgt, .log] w = true) (h : Same w a s) :
    SameO w a (execLegalEventConfirm a0 s) := by
  unfold execLegalEventConfirm
  repeat' first
    | with_reducible assumption
    | (intro (s : State) (h : Same w a s))
    | (intro _ (s : State) (h : Same w a s))
    | (intro (h : Same w a _))
    | (intro (s' : State); refine_lift have h : Same w a s' := ?_; ?_; clear_value s')
    | lift_lets
    | with_reducible apply sameO_next
    | with_reducible apply same_ite
    | with_reducible apply sameO_ite
    | with_reducible apply same_archiveLegal
    | (with_reducible refine same_onMgt_log ?_ ?_ ?_
       rotate_left
       rotate_left
       · intro _; rfl)
    | with_reducible apply same_checkWatermark
    | with_reducible apply same_onMet
    | exact listed_trans hw rfl
    | with_reducible refine same_foldl ?_ (fun s x h => ?_)
    | (intro x'; clear_value x')
    | intro _
    | dsimp only [s']
    | split

theorem same_onCounters (a0 : LegalCounters → LegalCounters) (hw : listed [.met] w = true) (h : Same w a s) :
    Same w a (onCounters a0 s) := by
  unfold onCounters
  repeat' first
    | with_reducible assumption
    | (intro (s : State) (h : Same w a s))
    | (intro _ (s : State) (h : Same w a s))
    | (intro (h : Same w a _))
    | (intro (s' : State); refine_lift have h : Same w a s' := ?_; ?_; clear_value s')
    | lift_lets
    | with_reducible apply sameO_next
    | with_reducible apply same_ite
    | with_reducible apply same_onMet
    | exact listed_trans hw rfl
    | with_reducible refine same_foldl ?_ (fun s x h => ?_)
    | (intro x'; clear_value x')
    | intro _
    | dsimp only [s']
    | split

theorem same_captureAs (a0 : ℕ) (a1 : ℕ) (a2 : ℕ) (a3 : ℕ) (a4 : ℕ) (a5 : Bytes) (a6 : Option ℕ) (hw : listed [.met] w = true) (h : Same w a s) :
    Same w a (captureAs a0 a1 a2 a3 a4 a5 a6 s) := by
  unfold captureAs
  repeat' first
    | with_reducible assumption
    | (intro (s : State) (h : Same w a s))
    | (intro _ (s : State) (h : Same w a s))
    | (intro (h : Same w a _))
    | (intro (s' : State); refine_lift have h : Same w a s' := ?_; ?_; clear_value s')
    | lift_lets
    | with_reducible apply sameO_next
    | with_reducible apply same_ite
    | with_reducible apply same_onMet
    | exact listed_trans hw rfl
    | with_reducible refine same_foldl ?_ (fun s x h => ?_)
    | (intro x'; clear_value x')
    | intro _
    | dsimp only [s']
    | split

theorem same_takeGens (a0 : ℕ) (hw : listed [.met] w = true) (h : Same w a s) :
    Same w a (takeGens a0 s) := by
  unfold takeGens
  repeat' first
    | with_reducible assumption
    | (intro (s : State) (h : Same w a s))
    | (intro _ (s : State) (h : Same w a s))
    | (intro (h : Same w a _))
    | (intro (s' : State); refine_lift have h : Same w a s' := ?_; ?_; clear_value s')
    | lift_lets
    | with_reducible apply sameO_next
    | with_reducible apply same_ite
    | with_reducible apply same_onCounters
    | exact listed_trans hw rfl
    | with_reducible refine same_foldl ?_ (fun s x h => ?_)
    | (intro x'; clear_value x')
    | intro _
    | dsimp only [s']
    | split

theorem same_capture (a0 : ℕ) (a1 : ℕ) (a2 : ℕ) (a3 : ℕ) (a4 : Bytes) (a5 : Option ℕ) (hw : listed [.met] w = true) (h : Same w a s) :
    Same w a (capture a0 a1 a2 a3 a4 a5 s) := by
  unfold capture
  repeat' first
    | with_reducible assumption
    | (intro (s : State) (h : Same w a s))
    | (intro _ (s : State) (h : Same w a s))
    | (intro (h : Same w a _))
    | (intro (s' : State); refine_lift have h : Same w a s' := ?_; ?_; clear_value s')
    | lift_lets
    | with_reducible apply sameO_next
    | with_reducible apply same_ite
    | with_reducible apply same_captureAs
    | with_reducible apply same_takeGens
    | exact listed_trans hw rfl
    | with_reducible refine same_foldl ?_ (fun s x h => ?_)
    | (intro x'; clear_value x')
    | intro _
    | dsimp only [s']
    | split

theorem same_execSnapshotSigned  (hw : listed [.met, .bil, .mgt, .freeCtr] w = true) (h : Same w a s) :
    SameO w a (execSnapshotSigned s) := by
  unfold execSnapshotSigned
  repeat' first
    | with_reducible assumption
    | (intro (s : State) (h : Same w a s))
    | (intro _ (s : State) (h : Same w a s))
    | (intro (h : Same w a _))
    | (intro (s' : State); refine_lift have h : Same w a s' := ?_; ?_; clear_value s')
    | lift_lets
    | with_reducible apply sameO_next
    | with_reducible apply same_ite
    | with_reducible apply sameO_ite
    | with_reducible apply same_bump
    | with_reducible apply same_onMet
    | (with_reducible refine same_onMgt ?_ ?_ ?_
       rotate_left
       rotate_left
       · intro _; first | exact ⟨rfl, rfl, rfl, rfl⟩ | (refine ⟨?_, ?_, ?_, ?_⟩ <;> split <;> rfl))
    | with_reducible apply same_onBil
    | exact listed_trans hw rfl
    | with_reducible refine same_foldl ?_ (fun s x h => ?_)
    | (intro x'; clear_value x')
    | intro _
    | dsimp only [s']
    | split

theorem same_snapctlWrite (a0 : ℕ) (hw : listed [.met] w = true) (h : Same w a s) :
    Same w a (snapctlWrite a0 s) := by
  unfold snapctlWrite
  repeat' first
    | with_reducible assumption
    | (intro (s : State) (h : Same w a s))
    | (intro _ (s : State) (h : Same w a s))
    | (intro (h : Same w a _))
    | (intro (s' : State); refine_lift have h : Same w a s' := ?_; ?_; clear_value s')
    | lift_lets
    | with_reducible apply sameO_next
    | with_reducible apply same_ite
    | with_reducible apply same_onMet
    | exact listed_trans hw rfl
    | with_reducible refine same_foldl ?_ (fun s x h => ?_)
    | (intro x'; clear_value x')
    | intro _
    | dsimp only [s']
    | split

theorem same_execSnapctlTake (a0 : Word) (hw : listed [.met] w = true) (h : Same w a s) :
    SameO w a (execSnapctlTake a0 s) := by
  unfold execSnapctlTake
  repeat' first
    | with_reducible assumption
    | (intro (s : State) (h : Same w a s))
    | (intro _ (s : State) (h : Same w a s))
    | (intro (h : Same w a _))
    | (intro (s' : State); refine_lift have h : Same w a s' := ?_; ?_; clear_value s')
    | lift_lets
    | with_reducible apply sameO_next
    | with_reducible apply same_ite
    | with_reducible apply sameO_ite
    | with_reducible apply same_snapctlWrite
    | exact listed_trans hw rfl
    | with_reducible refine same_foldl ?_ (fun s x h => ?_)
    | (intro x'; clear_value x')
    | intro _
    | dsimp only [s']
    | split

theorem same_dropRequest  (hw : listed [.met] w = true) (h : Same w a s) :
    Same w a (dropRequest s) := by
  unfold dropRequest
  repeat' first
    | with_reducible assumption
    | (intro (s : State) (h : Same w a s))
    | (intro _ (s : State) (h : Same w a s))
    | (intro (h : Same w a _))
    | (intro (s' : State); refine_lift have h : Same w a s' := ?_; ?_; clear_value s')
    | lift_lets
    | with_reducible apply sameO_next
    | with_reducible apply same_ite
    | with_reducible apply same_onMet
    | exact listed_trans hw rfl
    | with_reducible refine same_foldl ?_ (fun s x h => ?_)
    | (intro x'; clear_value x')
    | intro _
    | dsimp only [s']
    | split

theorem same_beginSave (a0 : ℕ) (hw : listed [.met] w = true) (h : Same w a s) :
    Same w a (beginSave a0 s) := by
  unfold beginSave
  repeat' first
    | with_reducible assumption
    | (intro (s : State) (h : Same w a s))
    | (intro _ (s : State) (h : Same w a s))
    | (intro (h : Same w a _))
    | (intro (s' : State); refine_lift have h : Same w a s' := ?_; ?_; clear_value s')
    | lift_lets
    | with_reducible apply sameO_next
    | with_reducible apply same_ite
    | with_reducible apply same_onMet
    | exact listed_trans hw rfl
    | with_reducible refine same_foldl ?_ (fun s x h => ?_)
    | (intro x'; clear_value x')
    | intro _
    | dsimp only [s']
    | split

theorem same_saveAtOnce (a0 : ℕ) (hw : listed [.met] w = true) (h : Same w a s) :
    Same w a (saveAtOnce a0 s) := by
  unfold saveAtOnce
  repeat' first
    | with_reducible assumption
    | (intro (s : State) (h : Same w a s))
    | (intro _ (s : State) (h : Same w a s))
    | (intro (h : Same w a _))
    | (intro (s' : State); refine_lift have h : Same w a s' := ?_; ?_; clear_value s')
    | lift_lets
    | with_reducible apply sameO_next
    | with_reducible apply same_ite
    | with_reducible apply same_onMet
    | exact listed_trans hw rfl
    | with_reducible refine same_foldl ?_ (fun s x h => ?_)
    | (intro x'; clear_value x')
    | intro _
    | dsimp only [s']
    | split

theorem same_execSaveComplete  (hw : listed [.met] w = true) (h : Same w a s) :
    SameO w a (execSaveComplete s) := by
  unfold execSaveComplete
  repeat' first
    | with_reducible assumption
    | (intro (s : State) (h : Same w a s))
    | (intro _ (s : State) (h : Same w a s))
    | (intro (h : Same w a _))
    | (intro (s' : State); refine_lift have h : Same w a s' := ?_; ?_; clear_value s')
    | lift_lets
    | with_reducible apply sameO_next
    | with_reducible apply same_ite
    | with_reducible apply sameO_ite
    | with_reducible apply same_onMet
    | exact listed_trans hw rfl
    | with_reducible refine same_foldl ?_ (fun s x h => ?_)
    | (intro x'; clear_value x')
    | intro _
    | dsimp only [s']
    | split

theorem same_restoreAcc (a0 : SaveRec) (a1 : ℕ) (hw : listed [.met, .bil] w = true) (h : Same w a s) :
    Same w a (restoreAcc a0 a1 s) := by
  unfold restoreAcc
  repeat' first
    | with_reducible assumption
    | (intro (s : State) (h : Same w a s))
    | (intro _ (s : State) (h : Same w a s))
    | (intro (h : Same w a _))
    | (intro (s' : State); refine_lift have h : Same w a s' := ?_; ?_; clear_value s')
    | lift_lets
    | with_reducible apply sameO_next
    | with_reducible apply same_ite
    | with_reducible apply same_onMetOut
    | with_reducible apply same_onBilOut
    | exact listed_trans hw rfl
    | with_reducible refine same_foldl ?_ (fun s x h => ?_)
    | (intro x'; clear_value x')
    | intro _
    | dsimp only [s']
    | split

theorem same_accRestore (a0 : ℕ) (hw : listed [.met, .bil] w = true) (h : Same w a s) :
    Same w a (accRestore a0 s) := by
  unfold accRestore
  repeat' first
    | with_reducible assumption
    | (intro (s : State) (h : Same w a s))
    | (intro _ (s : State) (h : Same w a s))
    | (intro (h : Same w a _))
    | (intro (s' : State); refine_lift have h : Same w a s' := ?_; ?_; clear_value s')
    | lift_lets
    | with_reducible apply sameO_next
    | with_reducible apply same_ite
    | with_reducible apply same_onCounters
    | with_reducible apply same_restoreAcc
    | with_reducible apply same_legalEv
    | with_reducible apply same_onMetOut
    | with_reducible apply same_onBilOut
    | exact listed_trans hw rfl
    | with_reducible refine same_foldl ?_ (fun s x h => ?_)
    | (intro x'; clear_value x')
    | intro _
    | dsimp only [s']
    | split

theorem same_accCheck (a0 : ℕ) (a1 : List AccFault) (hw : listed [.met, .bil] w = true) (h : Same w a s) :
    Same w a (accCheck a0 a1 s) := by
  unfold accCheck
  repeat' first
    | with_reducible assumption
    | (intro (s : State) (h : Same w a s))
    | (intro _ (s : State) (h : Same w a s))
    | (intro (h : Same w a _))
    | (intro (s' : State); refine_lift have h : Same w a s' := ?_; ?_; clear_value s')
    | lift_lets
    | with_reducible apply sameO_next
    | with_reducible apply same_ite
    | with_reducible apply same_onMetOut
    | with_reducible apply same_accRestore
    | exact listed_trans hw rfl
    | with_reducible refine same_foldl ?_ (fun s x h => ?_)
    | (intro x'; clear_value x')
    | intro _
    | dsimp only [s']
    | split

theorem same_restoreLedger (a0 : Ledger) (hw : listed [.bil] w = true) (h : Same w a s) :
    Same w a (restoreLedger a0 s) := by
  unfold restoreLedger
  repeat' first
    | with_reducible assumption
    | (intro (s : State) (h : Same w a s))
    | (intro _ (s : State) (h : Same w a s))
    | (intro (h : Same w a _))
    | (intro (s' : State); refine_lift have h : Same w a s' := ?_; ?_; clear_value s')
    | lift_lets
    | with_reducible apply sameO_next
    | with_reducible apply same_ite
    | with_reducible apply same_onBil
    | exact listed_trans hw rfl
    | with_reducible refine same_foldl ?_ (fun s x h => ?_)
    | (intro x'; clear_value x')
    | intro _
    | dsimp only [s']
    | split

theorem same_restoreDemand (a0 : SaveRec) (a1 : ℕ) (hw : listed [.bil] w = true) (h : Same w a s) :
    Same w a (restoreDemand a0 a1 s) := by
  unfold restoreDemand
  repeat' first
    | with_reducible assumption
    | (intro (s : State) (h : Same w a s))
    | (intro _ (s : State) (h : Same w a s))
    | (intro (h : Same w a _))
    | (intro (s' : State); refine_lift have h : Same w a s' := ?_; ?_; clear_value s')
    | lift_lets
    | with_reducible apply sameO_next
    | with_reducible apply same_ite
    | with_reducible apply same_onBilOut
    | exact listed_trans hw rfl
    | with_reducible refine same_foldl ?_ (fun s x h => ?_)
    | (intro x'; clear_value x')
    | intro _
    | dsimp only [s']
    | split

theorem same_loRead (a0 : Side) (a1 : MetLo) (a2 : ℕ) (hw : listed [.met, .rdata] w = true) (h : Same w a s) :
    Same w a (loRead a0 a1 a2 s) := by
  unfold loRead
  repeat' first
    | with_reducible assumption
    | (intro (s : State) (h : Same w a s))
    | (intro _ (s : State) (h : Same w a s))
    | (intro (h : Same w a _))
    | (intro (s' : State); refine_lift have h : Same w a s' := ?_; ?_; clear_value s')
    | lift_lets
    | with_reducible apply sameO_next
    | with_reducible apply same_ite
    | with_reducible apply same_returns
    | with_reducible apply same_onMet
    | exact listed_trans hw rfl
    | with_reducible refine same_foldl ?_ (fun s x h => ?_)
    | (intro x'; clear_value x')
    | intro _
    | dsimp only [s']
    | split

theorem same_execEnergyLoRead (a0 : Side) (a1 : ℕ) (a2 : ℕ) (hw : listed [.met, .rdata] w = true) (h : Same w a s) :
    SameO w a (execEnergyLoRead a0 a1 a2 s) := by
  unfold execEnergyLoRead
  repeat' first
    | with_reducible assumption
    | (intro (s : State) (h : Same w a s))
    | (intro _ (s : State) (h : Same w a s))
    | (intro (h : Same w a _))
    | (intro (s' : State); refine_lift have h : Same w a s' := ?_; ?_; clear_value s')
    | lift_lets
    | with_reducible apply sameO_next
    | with_reducible apply same_ite
    | with_reducible apply sameO_ite
    | with_reducible apply same_loRead
    | exact listed_trans hw rfl
    | with_reducible refine same_foldl ?_ (fun s x h => ?_)
    | (intro x'; clear_value x')
    | intro _
    | dsimp only [s']
    | split

theorem same_execHarmLoRead (a0 : Side) (hw : listed [.met, .rdata] w = true) (h : Same w a s) :
    SameO w a (execHarmLoRead a0 s) := by
  unfold execHarmLoRead
  repeat' first
    | with_reducible assumption
    | (intro (s : State) (h : Same w a s))
    | (intro _ (s : State) (h : Same w a s))
    | (intro (h : Same w a _))
    | (intro (s' : State); refine_lift have h : Same w a s' := ?_; ?_; clear_value s')
    | lift_lets
    | with_reducible apply sameO_next
    | with_reducible apply same_ite
    | with_reducible apply sameO_ite
    | with_reducible apply same_loRead
    | exact listed_trans hw rfl
    | with_reducible refine same_foldl ?_ (fun s x h => ?_)
    | (intro x'; clear_value x')
    | intro _
    | dsimp only [s']
    | split

theorem same_execCalAccLoRead (a0 : Side) (a1 : ℕ) (a2 : Bool) (hw : listed [.met, .rdata] w = true) (h : Same w a s) :
    SameO w a (execCalAccLoRead a0 a1 a2 s) := by
  unfold execCalAccLoRead
  repeat' first
    | with_reducible assumption
    | (intro (s : State) (h : Same w a s))
    | (intro _ (s : State) (h : Same w a s))
    | (intro (h : Same w a _))
    | (intro (s' : State); refine_lift have h : Same w a s' := ?_; ?_; clear_value s')
    | lift_lets
    | with_reducible apply sameO_next
    | with_reducible apply same_ite
    | with_reducible apply sameO_ite
    | with_reducible apply same_loRead
    | exact listed_trans hw rfl
    | with_reducible refine same_foldl ?_ (fun s x h => ?_)
    | (intro x'; clear_value x')
    | intro _
    | dsimp only [s']
    | split

end Sys2Proof.Machine
end

