-- ==== Sys2Proof/Laws/FrameBilling.lean ====
section
/-! SUPPORT. Which parts of the state the operations of Billing.lean write. -/

set_option linter.unusedVariables false
set_option linter.unreachableTactic false
set_option linter.unusedTactic false

namespace Sys2Proof.Machine

variable {w : List Part} {a s : State}

theorem same_onCtl (a0 : BillCtl → BillCtl) (hw : listed [.bil] w = true) (h : Same w a s) :
    Same w a (onCtl a0 s) := by
  unfold onCtl
  repeat' first
    | with_reducible assumption
    | (intro (s : State) (h : Same w a s))
    | (intro _ (s : State) (h : Same w a s))
    | (intro (h : Same w a _))
    | (intro (s' : State); refine_lift have h : Same w a s' := ?_; ?_; clear_value s')
    | lift_lets
    | with_reducible apply sameO_next
    | with_reducible apply same_ite
    | with_reducible apply same_onBil
    | exact listed_trans hw rfl
    | with_reducible refine same_foldl ?_ (fun s x h => ?_)
    | (intro x'; clear_value x')
    | intro _
    | dsimp only [s']
    | split

theorem same_setCredit (a0 : ℤ) (hw : listed [.met, .bil] w = true) (h : Same w a s) :
    Same w a (setCredit a0 s) := by
  unfold setCredit
  repeat' first
    | with_reducible assumption
    | (intro (s : State) (h : Same w a s))
    | (intro _ (s : State) (h : Same w a s))
    | (intro (h : Same w a _))
    | (intro (s' : State); refine_lift have h : Same w a s' := ?_; ?_; clear_value s')
    | lift_lets
    | with_reducible apply sameO_next
    | with_reducible apply same_ite
    | with_reducible apply same_onBil
    | with_reducible apply same_legalEv
    | exact listed_trans hw rfl
    | with_reducible refine same_foldl ?_ (fun s x h => ?_)
    | (intro x'; clear_value x')
    | intro _
    | dsimp only [s']
    | split

theorem same_accrueTariff (a0 : ℕ) (a1 : ℕ) (a2 : ℕ) (hw : listed [.met, .bil] w = true) (h : Same w a s) :
    Same w a (accrueTariff a0 a1 a2 s) := by
  unfold accrueTariff
  repeat' first
    | with_reducible assumption
    | (intro (s : State) (h : Same w a s))
    | (intro _ (s : State) (h : Same w a s))
    | (intro (h : Same w a _))
    | (intro (s' : State); refine_lift have h : Same w a s' := ?_; ?_; clear_value s')
    | lift_lets
    | with_reducible apply sameO_next
    | with_reducible apply same_ite
    | with_reducible apply same_onBilOut
    | with_reducible apply same_setCredit
    | exact listed_trans hw rfl
    | with_reducible refine same_foldl ?_ (fun s x h => ?_)
    | (intro x'; clear_value x')
    | intro _
    | dsimp only [s']
    | split

theorem same_restartDemand (a0 : ℕ) (a1 : ℕ) (a2 : Bool) (a3 : Bool) (hw : listed [.bil] w = true) (h : Same w a s) :
    Same w a (restartDemand a0 a1 a2 a3 s) := by
  unfold restartDemand
  repeat' first
    | with_reducible assumption
    | (intro (s : State) (h : Same w a s))
    | (intro _ (s : State) (h : Same w a s))
    | (intro (h : Same w a _))
    | (intro (s' : State); refine_lift have h : Same w a s' := ?_; ?_; clear_value s')
    | lift_lets
    | with_reducible apply sameO_next
    | with_reducible apply same_ite
    | with_reducible apply same_onBilOut
    | exact listed_trans hw rfl
    | with_reducible refine same_foldl ?_ (fun s x h => ?_)
    | (intro x'; clear_value x')
    | intro _
    | dsimp only [s']
    | split

theorem same_closeDemand (a0 : ℕ) (a1 : ℕ) (a2 : Bool) (hw : listed [.bil] w = true) (h : Same w a s) :
    Same w a (closeDemand a0 a1 a2 s) := by
  unfold closeDemand
  repeat' first
    | with_reducible assumption
    | (intro (s : State) (h : Same w a s))
    | (intro _ (s : State) (h : Same w a s))
    | (intro (h : Same w a _))
    | (intro (s' : State); refine_lift have h : Same w a s' := ?_; ?_; clear_value s')
    | lift_lets
    | with_reducible apply sameO_next
    | with_reducible apply same_ite
    | with_reducible apply same_onBilOut
    | exact listed_trans hw rfl
    | with_reducible refine same_foldl ?_ (fun s x h => ?_)
    | (intro x'; clear_value x')
    | intro _
    | dsimp only [s']
    | split

theorem same_closeEnds (a0 : ℕ) (a1 : ℕ) (a2 : ℕ) (hw : listed [.bil] w = true) (h : Same w a s) :
    Same w a (closeEnds a0 a1 a2 s) := by
  induction a2 generalizing  s with
  | zero => exact h
  | succ n ih =>
  simp only [closeEnds]
  repeat' first
    | with_reducible assumption
    | (intro (s : State) (h : Same w a s))
    | (intro _ (s : State) (h : Same w a s))
    | (intro (h : Same w a _))
    | (intro (s' : State); refine_lift have h : Same w a s' := ?_; ?_; clear_value s')
    | lift_lets
    | with_reducible apply sameO_next
    | with_reducible apply same_ite
    | with_reducible apply same_closeDemand
    | with_reducible apply ih
    | exact listed_trans hw rfl
    | with_reducible refine same_foldl ?_ (fun s x h => ?_)
    | (intro x'; clear_value x')
    | intro _
    | dsimp only [s']
    | split

theorem same_closeDue (a0 : ℕ) (a1 : ℕ) (hw : listed [.bil] w = true) (h : Same w a s) :
    Same w a (closeDue a0 a1 s) := by
  unfold closeDue
  repeat' first
    | with_reducible assumption
    | (intro (s : State) (h : Same w a s))
    | (intro _ (s : State) (h : Same w a s))
    | (intro (h : Same w a _))
    | (intro (s' : State); refine_lift have h : Same w a s' := ?_; ?_; clear_value s')
    | lift_lets
    | with_reducible apply sameO_next
    | with_reducible apply same_ite
    | with_reducible apply same_closeEnds
    | exact listed_trans hw rfl
    | with_reducible refine same_foldl ?_ (fun s x h => ?_)
    | (intro x'; clear_value x')
    | intro _
    | dsimp only [s']
    | split

theorem same_billingBoundary (a0 : ℕ) (a1 : ℕ) (hw : listed [.met, .bil] w = true) (h : Same w a s) :
    Same w a (billingBoundary a0 a1 s) := by
  unfold billingBoundary
  repeat' first
    | with_reducible assumption
    | (intro (s : State) (h : Same w a s))
    | (intro _ (s : State) (h : Same w a s))
    | (intro (h : Same w a _))
    | (intro (s' : State); refine_lift have h : Same w a s' := ?_; ?_; clear_value s')
    | lift_lets
    | with_reducible apply sameO_next
    | with_reducible apply same_ite
    | with_reducible apply same_capture
    | with_reducible apply same_onBil
    | with_reducible apply same_legalEv
    | exact listed_trans hw rfl
    | with_reducible refine same_foldl ?_ (fun s x h => ?_)
    | (intro x'; clear_value x')
    | intro _
    | dsimp only [s']
    | split

theorem same_activateCalendar (a0 : ℕ) (hw : listed [.met, .bil] w = true) (h : Same w a s) :
    Same w a (activateCalendar a0 s) := by
  unfold activateCalendar
  repeat' first
    | with_reducible assumption
    | (intro (s : State) (h : Same w a s))
    | (intro _ (s : State) (h : Same w a s))
    | (intro (h : Same w a _))
    | (intro (s' : State); refine_lift have h : Same w a s' := ?_; ?_; clear_value s')
    | lift_lets
    | with_reducible apply sameO_next
    | with_reducible apply same_ite
    | with_reducible apply same_onCtl
    | with_reducible apply same_onBil
    | with_reducible apply same_legalEv
    | exact listed_trans hw rfl
    | with_reducible refine same_foldl ?_ (fun s x h => ?_)
    | (intro x'; clear_value x')
    | intro _
    | dsimp only [s']
    | split

theorem same_switchTariff (a0 : ℕ) (a1 : ℕ) (hw : listed [.bil] w = true) (h : Same w a s) :
    Same w a (switchTariff a0 a1 s) := by
  unfold switchTariff
  repeat' first
    | with_reducible assumption
    | (intro (s : State) (h : Same w a s))
    | (intro _ (s : State) (h : Same w a s))
    | (intro (h : Same w a _))
    | (intro (s' : State); refine_lift have h : Same w a s' := ?_; ?_; clear_value s')
    | lift_lets
    | with_reducible apply sameO_next
    | with_reducible apply same_ite
    | with_reducible apply same_onBilOut
    | with_reducible apply same_onBil
    | exact listed_trans hw rfl
    | with_reducible refine same_foldl ?_ (fun s x h => ?_)
    | (intro x'; clear_value x')
    | intro _
    | dsimp only [s']
    | split

theorem same_noteStep (a0 : TimeStep) (hw : listed [.met, .bil] w = true) (h : Same w a s) :
    Same w a (noteStep a0 s) := by
  unfold noteStep
  repeat' first
    | with_reducible assumption
    | (intro (s : State) (h : Same w a s))
    | (intro _ (s : State) (h : Same w a s))
    | (intro (h : Same w a _))
    | (intro (s' : State); refine_lift have h : Same w a s' := ?_; ?_; clear_value s')
    | lift_lets
    | with_reducible apply sameO_next
    | with_reducible apply same_ite
    | with_reducible apply same_onCounters
    | with_reducible apply same_onBil
    | with_reducible apply same_legalEv
    | exact listed_trans hw rfl
    | with_reducible refine same_foldl ?_ (fun s x h => ?_)
    | (intro x'; clear_value x')
    | intro _
    | dsimp only [s']
    | split

theorem same_applyStep_restartAll (a0 : TimeStep) (a1 : ℕ) (hw : listed [.bil] w = true) (h : Same w a s) :
    Same w a (applyStep.restartAll a0 a1 s) := by
  unfold applyStep.restartAll
  repeat' first
    | with_reducible assumption
    | (intro (s : State) (h : Same w a s))
    | (intro _ (s : State) (h : Same w a s))
    | (intro (h : Same w a _))
    | (intro (s' : State); refine_lift have h : Same w a s' := ?_; ?_; clear_value s')
    | lift_lets
    | with_reducible apply sameO_next
    | with_reducible apply same_ite
    | with_reducible apply same_restartDemand
    | exact listed_trans hw rfl
    | with_reducible refine same_foldl ?_ (fun s x h => ?_)
    | (intro x'; clear_value x')
    | intro _
    | dsimp only [s']
    | split

theorem same_applyStep (a0 : TimeStep) (hw : listed [.met, .bil] w = true) (h : Same w a s) :
    Same w a (applyStep a0 s) := by
  unfold applyStep
  repeat' first
    | with_reducible assumption
    | (intro (s : State) (h : Same w a s))
    | (intro _ (s : State) (h : Same w a s))
    | (intro (h : Same w a _))
    | (intro (s' : State); refine_lift have h : Same w a s' := ?_; ?_; clear_value s')
    | lift_lets
    | with_reducible apply sameO_next
    | with_reducible apply same_ite
    | with_reducible apply same_noteStep
    | with_reducible apply same_restartDemand
    | with_reducible apply same_closeDemand
    | with_reducible apply same_billingBoundary
    | with_reducible apply same_applyStep_restartAll
    | with_reducible apply same_activateCalendar
    | with_reducible apply same_switchTariff
    | exact listed_trans hw rfl
    | with_reducible refine same_foldl ?_ (fun s x h => ?_)
    | (intro x'; clear_value x')
    | intro _
    | dsimp only [s']
    | split

theorem same_boundaryEvents (a0 : ℕ) (a1 : ℕ) (hw : listed [.met, .bil] w = true) (h : Same w a s) :
    Same w a (boundaryEvents a0 a1 s) := by
  unfold boundaryEvents
  repeat' first
    | with_reducible assumption
    | (intro (s : State) (h : Same w a s))
    | (intro _ (s : State) (h : Same w a s))
    | (intro (h : Same w a _))
    | (intro (s' : State); refine_lift have h : Same w a s' := ?_; ?_; clear_value s')
    | lift_lets
    | with_reducible apply sameO_next
    | with_reducible apply same_ite
    | with_reducible apply same_applyStep
    | with_reducible apply same_closeDue
    | with_reducible apply same_billingBoundary
    | with_reducible apply same_onBil
    | with_reducible apply same_activateCalendar
    | with_reducible apply same_switchTariff
    | exact listed_trans hw rfl
    | with_reducible refine same_foldl ?_ (fun s x h => ?_)
    | (intro x'; clear_value x')
    | intro _
    | dsimp only [s']
    | split

theorem same_journalPending (a0 : ℕ) (a1 : ℕ) (hw : listed [.met, .bil] w = true) (h : Same w a s) :
    Same w a (journalPending a0 a1 s) := by
  unfold journalPending
  repeat' first
    | with_reducible assumption
    | (intro (s : State) (h : Same w a s))
    | (intro _ (s : State) (h : Same w a s))
    | (intro (h : Same w a _))
    | (intro (s' : State); refine_lift have h : Same w a s' := ?_; ?_; clear_value s')
    | lift_lets
    | with_reducible apply sameO_next
    | with_reducible apply same_ite
    | with_reducible apply same_noteStep
    | with_reducible apply same_onBil
    | with_reducible apply same_legalEv
    | exact listed_trans hw rfl
    | with_reducible refine same_foldl ?_ (fun s x h => ?_)
    | (intro x'; clear_value x')
    | intro _
    | dsimp only [s']
    | split

theorem same_completeClose (a0 : JournalEntry) (a2 : ℕ) (hw : listed [.bil] w = true) (h : Same w a s) :
    Same w a (completeClose a0 s a2) := by
  unfold completeClose
  repeat' first
    | with_reducible assumption
    | (intro (s : State) (h : Same w a s))
    | (intro _ (s : State) (h : Same w a s))
    | (intro (h : Same w a _))
    | (intro (s' : State); refine_lift have h : Same w a s' := ?_; ?_; clear_value s')
    | lift_lets
    | with_reducible apply sameO_next
    | with_reducible apply same_ite
    | with_reducible apply same_onBilOut
    | with_reducible apply same_closeDemand
    | exact listed_trans hw rfl
    | with_reducible refine same_foldl ?_ (fun s x h => ?_)
    | (intro x'; clear_value x')
    | intro _
    | dsimp only [s']
    | split

theorem same_completeEntry (a0 : ℕ) (a1 : JournalEntry) (hw : listed [.met, .bil] w = true) (h : Same w a s) :
    Same w a (completeEntry a0 a1 s) := by
  unfold completeEntry
  repeat' first
    | with_reducible assumption
    | (intro (s : State) (h : Same w a s))
    | (intro _ (s : State) (h : Same w a s))
    | (intro (h : Same w a _))
    | (intro (s' : State); refine_lift have h : Same w a s' := ?_; ?_; clear_value s')
    | lift_lets
    | with_reducible apply sameO_next
    | with_reducible apply same_ite
    | with_reducible apply same_completeClose
    | with_reducible apply same_billingBoundary
    | with_reducible apply same_activateCalendar
    | with_reducible apply same_onBilOut
    | with_reducible apply same_legalEv
    | exact listed_trans hw rfl
    | with_reducible refine same_foldl ?_ (fun s x h => ?_)
    | (intro x'; clear_value x')
    | intro _
    | dsimp only [s']
    | split

theorem same_badEntries  (hw : listed [.met] w = true) (h : Same w a s) :
    Same w a (badEntries s) := by
  unfold badEntries
  repeat' first
    | with_reducible assumption
    | (intro (s : State) (h : Same w a s))
    | (intro _ (s : State) (h : Same w a s))
    | (intro (h : Same w a _))
    | (intro (s' : State); refine_lift have h : Same w a s' := ?_; ?_; clear_value s')
    | lift_lets
    | with_reducible apply sameO_next
    | with_reducible apply same_ite
    | with_reducible apply same_legalEv
    | exact listed_trans hw rfl
    | with_reducible refine same_foldl ?_ (fun s x h => ?_)
    | (intro x'; clear_value x')
    | intro _
    | dsimp only [s']
    | split

theorem same_completeJournal (a0 : ℕ) (hw : listed [.met, .bil] w = true) (h : Same w a s) :
    Same w a (completeJournal a0 s) := by
  unfold completeJournal
  repeat' first
    | with_reducible assumption
    | (intro (s : State) (h : Same w a s))
    | (intro _ (s : State) (h : Same w a s))
    | (intro (h : Same w a _))
    | (intro (s' : State); refine_lift have h : Same w a s' := ?_; ?_; clear_value s')
    | lift_lets
    | with_reducible apply sameO_next
    | with_reducible apply same_ite
    | with_reducible apply same_badEntries
    | with_reducible apply same_onMet
    | with_reducible apply same_completeEntry
    | with_reducible apply same_onBil
    | exact listed_trans hw rfl
    | with_reducible refine same_foldl ?_ (fun s x h => ?_)
    | (intro x'; clear_value x')
    | intro _
    | dsimp only [s']
    | split

theorem same_closeGap (a0 : ℕ) (a1 : ℕ) (hw : listed [.bil] w = true) (h : Same w a s) :
    Same w a (closeGap a0 a1 s) := by
  unfold closeGap
  repeat' first
    | with_reducible assumption
    | (intro (s : State) (h : Same w a s))
    | (intro _ (s : State) (h : Same w a s))
    | (intro (h : Same w a _))
    | (intro (s' : State); refine_lift have h : Same w a s' := ?_; ?_; clear_value s')
    | lift_lets
    | with_reducible apply sameO_next
    | with_reducible apply same_ite
    | with_reducible apply same_closeDemand
    | with_reducible apply same_onBilOut
    | exact listed_trans hw rfl
    | with_reducible refine same_foldl ?_ (fun s x h => ?_)
    | (intro x'; clear_value x')
    | intro _
    | dsimp only [s']
    | split

theorem same_executeMissed (a0 : ℕ) (a1 : ℕ) (a2 : ℕ) (a3 : ℕ) (hw : listed [.met, .bil] w = true) (h : Same w a s) :
    Same w a (executeMissed a0 a1 a2 a3 s) := by
  induction a1 generalizing a2 s with
  | zero => exact h
  | succ n ih =>
  simp only [executeMissed]
  repeat' first
    | with_reducible assumption
    | (intro (s : State) (h : Same w a s))
    | (intro _ (s : State) (h : Same w a s))
    | (intro (h : Same w a _))
    | (intro (s' : State); refine_lift have h : Same w a s' := ?_; ?_; clear_value s')
    | lift_lets
    | with_reducible apply sameO_next
    | with_reducible apply same_ite
    | with_reducible apply same_activateCalendar
    | with_reducible apply same_billingBoundary
    | with_reducible apply same_closeGap
    | with_reducible apply same_legalEv
    | with_reducible apply ih
    | exact listed_trans hw rfl
    | with_reducible refine same_foldl ?_ (fun s x h => ?_)
    | (intro x'; clear_value x')
    | intro _
    | dsimp only [s']
    | split

theorem same_billRestart (a0 : ℕ) (a1 : ℕ) (hw : listed [.met, .bil] w = true) (h : Same w a s) :
    Same w a (billRestart a0 a1 s) := by
  unfold billRestart
  repeat' first
    | with_reducible assumption
    | (intro (s : State) (h : Same w a s))
    | (intro _ (s : State) (h : Same w a s))
    | (intro (h : Same w a _))
    | (intro (s' : State); refine_lift have h : Same w a s' := ?_; ?_; clear_value s')
    | lift_lets
    | with_reducible apply sameO_next
    | with_reducible apply same_ite
    | with_reducible apply same_onBil
    | with_reducible apply same_completeJournal
    | with_reducible apply same_executeMissed
    | with_reducible apply same_closeGap
    | with_reducible apply same_onBilOut
    | with_reducible apply same_restartDemand
    | with_reducible apply same_switchTariff
    | exact listed_trans hw rfl
    | with_reducible refine same_foldl ?_ (fun s x h => ?_)
    | (intro x'; clear_value x')
    | intro _
    | dsimp only [s']
    | split

theorem same_toSquirrel (a0 : List Bytes) (hw : listed [.bil] w = true) (h : Same w a s) :
    Same w a (toSquirrel a0 s) := by
  unfold toSquirrel
  repeat' first
    | with_reducible assumption
    | (intro (s : State) (h : Same w a s))
    | (intro _ (s : State) (h : Same w a s))
    | (intro (h : Same w a _))
    | (intro (s' : State); refine_lift have h : Same w a s' := ?_; ?_; clear_value s')
    | lift_lets
    | with_reducible apply sameO_next
    | with_reducible apply same_ite
    | with_reducible apply same_onBil
    | exact listed_trans hw rfl
    | with_reducible refine same_foldl ?_ (fun s x h => ?_)
    | (intro x'; clear_value x')
    | intro _
    | dsimp only [s']
    | split

theorem same_profileOf (a0 : ℕ) (a1 : ℕ) (hw : listed [.bil] w = true) (h : Same w a s) :
    Same w a (profileOf a0 a1 s) := by
  unfold profileOf
  repeat' first
    | with_reducible assumption
    | (intro (s : State) (h : Same w a s))
    | (intro _ (s : State) (h : Same w a s))
    | (intro (h : Same w a _))
    | (intro (s' : State); refine_lift have h : Same w a s' := ?_; ?_; clear_value s')
    | lift_lets
    | with_reducible apply sameO_next
    | with_reducible apply same_ite
    | with_reducible apply same_onBilOut
    | with_reducible apply same_toSquirrel
    | exact listed_trans hw rfl
    | with_reducible refine same_foldl ?_ (fun s x h => ?_)
    | (intro x'; clear_value x')
    | intro _
    | dsimp only [s']
    | split

theorem same_profileRestart (a0 : ℕ) (a1 : ℕ) (hw : listed [.bil] w = true) (h : Same w a s) :
    Same w a (profileRestart a0 a1 s) := by
  unfold profileRestart
  repeat' first
    | with_reducible assumption
    | (intro (s : State) (h : Same w a s))
    | (intro _ (s : State) (h : Same w a s))
    | (intro (h : Same w a _))
    | (intro (s' : State); refine_lift have h : Same w a s' := ?_; ?_; clear_value s')
    | lift_lets
    | with_reducible apply sameO_next
    | with_reducible apply same_ite
    | with_reducible apply same_onBilOut
    | with_reducible apply same_profileOf
    | with_reducible apply same_onBil
    | exact listed_trans hw rfl
    | with_reducible refine same_foldl ?_ (fun s x h => ?_)
    | (intro x'; clear_value x')
    | intro _
    | dsimp only [s']
    | split

theorem same_execLoadProfileRecord  (hw : listed [.bil] w = true) (h : Same w a s) :
    SameO w a (execLoadProfileRecord s) := by
  unfold execLoadProfileRecord
  repeat' first
    | with_reducible assumption
    | (intro (s : State) (h : Same w a s))
    | (intro _ (s : State) (h : Same w a s))
    | (intro (h : Same w a _))
    | (intro (s' : State); refine_lift have h : Same w a s' := ?_; ?_; clear_value s')
    | lift_lets
    | with_reducible apply sameO_next
    | with_reducible apply same_ite
    | with_reducible apply sameO_ite
    | with_reducible apply same_profileOf
    | exact listed_trans hw rfl
    | with_reducible refine same_foldl ?_ (fun s x h => ?_)
    | (intro x'; clear_value x')
    | intro _
    | dsimp only [s']
    | split

theorem same_flushProfile  (hw : listed [.bil, .log] w = true) (h : Same w a s) :
    Same w a (flushProfile s) := by
  unfold flushProfile
  repeat' first
    | with_reducible assumption
    | (intro (s : State) (h : Same w a s))
    | (intro _ (s : State) (h : Same w a s))
    | (intro (h : Same w a _))
    | (intro (s' : State); refine_lift have h : Same w a s' := ?_; ?_; clear_value s')
    | lift_lets
    | with_reducible apply sameO_next
    | with_reducible apply same_ite
    | with_reducible apply same_onBilOut
    | with_reducible apply same_toSquirrel
    | with_reducible apply same_logEv
    | exact listed_trans hw rfl
    | with_reducible refine same_foldl ?_ (fun s x h => ?_)
    | (intro x'; clear_value x')
    | intro _
    | dsimp only [s']
    | split

theorem same_storeCalendar (a0 : Calendar) (a1 : Bytes) (hw : listed [.bil] w = true) (h : Same w a s) :
    Same w a (storeCalendar a0 a1 s) := by
  unfold storeCalendar
  repeat' first
    | with_reducible assumption
    | (intro (s : State) (h : Same w a s))
    | (intro _ (s : State) (h : Same w a s))
    | (intro (h : Same w a _))
    | (intro (s' : State); refine_lift have h : Same w a s' := ?_; ?_; clear_value s')
    | lift_lets
    | with_reducible apply sameO_next
    | with_reducible apply same_ite
    | with_reducible apply same_onCtl
    | with_reducible apply same_onBil
    | exact listed_trans hw rfl
    | with_reducible refine same_foldl ?_ (fun s x h => ?_)
    | (intro x'; clear_value x')
    | intro _
    | dsimp only [s']
    | split

theorem same_calRefuse (a0 : Req) (a1 : Bytes) (a2 : ℕ) (a3 : ℕ) (a4 : Option EvClass) (hw : listed [.bil, .log, .hsi, .result] w = true) (h : Same w a s) :
    Same w a (calRefuse a0 a1 a2 a3 a4 s) := by
  unfold calRefuse
  repeat' first
    | with_reducible assumption
    | (intro (s : State) (h : Same w a s))
    | (intro _ (s : State) (h : Same w a s))
    | (intro (h : Same w a _))
    | (intro (s' : State); refine_lift have h : Same w a s' := ?_; ?_; clear_value s')
    | lift_lets
    | with_reducible apply sameO_next
    | with_reducible apply same_ite
    | with_reducible apply same_onBil
    | with_reducible apply same_logEv
    | with_reducible apply same_postSts
    | exact listed_trans hw rfl
    | with_reducible refine same_foldl ?_ (fun s x h => ?_)
    | (intro x'; clear_value x')
    | intro _
    | dsimp only [s']
    | split

theorem same_execCalLoad (a0 : Req) (a1 : Bytes) (hw : listed [.met, .bil, .log, .hsi, .result] w = true) (h : Same w a s) :
    SameO w a (execCalLoad a0 a1 s) := by
  unfold execCalLoad
  repeat' first
    | with_reducible assumption
    | (intro (s : State) (h : Same w a s))
    | (intro _ (s : State) (h : Same w a s))
    | (intro (h : Same w a _))
    | (intro (s' : State); refine_lift have h : Same w a s' := ?_; ?_; clear_value s')
    | lift_lets
    | with_reducible apply sameO_next
    | with_reducible apply same_ite
    | with_reducible apply sameO_ite
    | with_reducible apply same_calRefuse
    | with_reducible apply same_storeCalendar
    | with_reducible apply same_onBil
    | with_reducible apply same_postSts
    | with_reducible apply same_legalEv
    | exact listed_trans hw rfl
    | with_reducible refine same_foldl ?_ (fun s x h => ?_)
    | (intro x'; clear_value x')
    | intro _
    | dsimp only [s']
    | split

theorem same_tokenEnd (a0 : Req) (a1 : ℕ) (a2 : ℕ) (a3 : Option (EvClass × ℕ × ℕ)) (hw : listed [.bil, .log, .hsi, .result] w = true) (h : Same w a s) :
    Same w a (tokenEnd a0 a1 a2 a3 s) := by
  unfold tokenEnd
  repeat' first
    | with_reducible assumption
    | (intro (s : State) (h : Same w a s))
    | (intro _ (s : State) (h : Same w a s))
    | (intro (h : Same w a _))
    | (intro (s' : State); refine_lift have h : Same w a s' := ?_; ?_; clear_value s')
    | lift_lets
    | with_reducible apply sameO_next
    | with_reducible apply same_ite
    | with_reducible apply same_onBil
    | with_reducible apply same_logEv
    | with_reducible apply same_postSts
    | exact listed_trans hw rfl
    | with_reducible refine same_foldl ?_ (fun s x h => ?_)
    | (intro x'; clear_value x')
    | intro _
    | dsimp only [s']
    | split

theorem same_acceptToken (a0 : Req) (a1 : ℕ) (a2 : ℕ) (a3 : ℕ) (a4 : ℕ) (hw : listed [.met, .bil, .log, .hsi, .result] w = true) (h : Same w a s) :
    Same w a (acceptToken a0 a1 a2 a3 a4 s) := by
  unfold acceptToken
  repeat' first
    | with_reducible assumption
    | (intro (s : State) (h : Same w a s))
    | (intro _ (s : State) (h : Same w a s))
    | (intro (h : Same w a _))
    | (intro (s' : State); refine_lift have h : Same w a s' := ?_; ?_; clear_value s')
    | lift_lets
    | with_reducible apply sameO_next
    | with_reducible apply same_ite
    | with_reducible apply same_onBil
    | with_reducible apply same_onCtl
    | with_reducible apply same_setCredit
    | with_reducible apply same_legalEv
    | with_reducible apply same_tokenEnd
    | exact listed_trans hw rfl
    | with_reducible refine same_foldl ?_ (fun s x h => ?_)
    | (intro x'; clear_value x')
    | intro _
    | dsimp only [s']
    | split

theorem same_tokenRows (a0 : Req) (a1 : Bool) (a2 : ℕ) (a3 : ℕ) (a4 : ℕ) (a5 : ℕ) (hw : listed [.met, .bil, .log, .hsi, .result] w = true) (h : Same w a s) :
    Same w a (tokenRows a0 a1 a2 a3 a4 a5 s) := by
  unfold tokenRows
  repeat' first
    | with_reducible assumption
    | (intro (s : State) (h : Same w a s))
    | (intro _ (s : State) (h : Same w a s))
    | (intro (h : Same w a _))
    | (intro (s' : State); refine_lift have h : Same w a s' := ?_; ?_; clear_value s')
    | lift_lets
    | with_reducible apply sameO_next
    | with_reducible apply same_ite
    | with_reducible apply same_tokenEnd
    | with_reducible apply same_acceptToken
    | exact listed_trans hw rfl
    | with_reducible refine same_foldl ?_ (fun s x h => ?_)
    | (intro x'; clear_value x')
    | intro _
    | dsimp only [s']
    | split

theorem same_execTokenEnter (a0 : Req) (a1 : Bytes) (hw : listed [.met, .bil, .log, .hsi, .result] w = true) (h : Same w a s) :
    SameO w a (execTokenEnter a0 a1 s) := by
  unfold execTokenEnter
  repeat' first
    | with_reducible assumption
    | (intro (s : State) (h : Same w a s))
    | (intro _ (s : State) (h : Same w a s))
    | (intro (h : Same w a _))
    | (intro (s' : State); refine_lift have h : Same w a s' := ?_; ?_; clear_value s')
    | lift_lets
    | with_reducible apply sameO_next
    | with_reducible apply same_ite
    | with_reducible apply sameO_ite
    | with_reducible apply same_tokenEnd
    | with_reducible apply same_tokenRows
    | exact listed_trans hw rfl
    | with_reducible refine same_foldl ?_ (fun s x h => ?_)
    | (intro x'; clear_value x')
    | intro _
    | dsimp only [s']
    | split

theorem same_execTokenMirrorConfirm (a0 : ℕ) (hw : listed [.bil] w = true) (h : Same w a s) :
    SameO w a (execTokenMirrorConfirm a0 s) := by
  unfold execTokenMirrorConfirm
  repeat' first
    | with_reducible assumption
    | (intro (s : State) (h : Same w a s))
    | (intro _ (s : State) (h : Same w a s))
    | (intro (h : Same w a _))
    | (intro (s' : State); refine_lift have h : Same w a s' := ?_; ?_; clear_value s')
    | lift_lets
    | with_reducible apply sameO_next
    | with_reducible apply same_ite
    | with_reducible apply sameO_ite
    | with_reducible apply same_onCtl
    | with_reducible apply same_onBil
    | exact listed_trans hw rfl
    | with_reducible refine same_foldl ?_ (fun s x h => ?_)
    | (intro x'; clear_value x')
    | intro _
    | dsimp only [s']
    | split

theorem same_rebuildReplay  (hw : listed [.bil] w = true) (h : Same w a s) :
    Same w a (rebuildReplay s) := by
  unfold rebuildReplay
  repeat' first
    | with_reducible assumption
    | (intro (s : State) (h : Same w a s))
    | (intro _ (s : State) (h : Same w a s))
    | (intro (h : Same w a _))
    | (intro (s' : State); refine_lift have h : Same w a s' := ?_; ?_; clear_value s')
    | lift_lets
    | with_reducible apply sameO_next
    | with_reducible apply same_ite
    | with_reducible apply same_onBil
    | with_reducible apply same_onCtl
    | exact listed_trans hw rfl
    | with_reducible refine same_foldl ?_ (fun s x h => ?_)
    | (intro x'; clear_value x')
    | intro _
    | dsimp only [s']
    | split

theorem same_clearReplay  (hw : listed [.bil] w = true) (h : Same w a s) :
    Same w a (clearReplay s) := by
  unfold clearReplay
  repeat' first
    | with_reducible assumption
    | (intro (s : State) (h : Same w a s))
    | (intro _ (s : State) (h : Same w a s))
    | (intro (h : Same w a _))
    | (intro (s' : State); refine_lift have h : Same w a s' := ?_; ?_; clear_value s')
    | lift_lets
    | with_reducible apply sameO_next
    | with_reducible apply same_ite
    | with_reducible apply same_onCtl
    | with_reducible apply same_onBil
    | exact listed_trans hw rfl
    | with_reducible refine same_foldl ?_ (fun s x h => ?_)
    | (intro x'; clear_value x')
    | intro _
    | dsimp only [s']
    | split

theorem same_execBillSnapRead (a0 : Req) (a1 : ℕ) (hw : listed [.hsi, .result] w = true) (h : Same w a s) :
    SameO w a (execBillSnapRead a0 a1 s) := by
  unfold execBillSnapRead
  repeat' first
    | with_reducible assumption
    | (intro (s : State) (h : Same w a s))
    | (intro _ (s : State) (h : Same w a s))
    | (intro (h : Same w a _))
    | (intro (s' : State); refine_lift have h : Same w a s' := ?_; ?_; clear_value s')
    | lift_lets
    | with_reducible apply sameO_next
    | with_reducible apply same_ite
    | with_reducible apply sameO_ite
    | with_reducible apply same_guarded
    | with_reducible apply same_post
    | exact listed_trans hw rfl
    | with_reducible refine same_foldl ?_ (fun s x h => ?_)
    | (intro x'; clear_value x')
    | intro _
    | dsimp only [s']
    | split

theorem same_execBillReset (a0 : Req) (hw : listed [.bil, .hsi, .result] w = true) (h : Same w a s) :
    SameO w a (execBillReset a0 s) := by
  unfold execBillReset
  repeat' first
    | with_reducible assumption
    | (intro (s : State) (h : Same w a s))
    | (intro _ (s : State) (h : Same w a s))
    | (intro (h : Same w a _))
    | (intro (s' : State); refine_lift have h : Same w a s' := ?_; ?_; clear_value s')
    | lift_lets
    | with_reducible apply sameO_next
    | with_reducible apply same_ite
    | with_reducible apply sameO_ite
    | with_reducible apply same_guarded
    | with_reducible apply same_postSts
    | with_reducible apply same_onBil
    | exact listed_trans hw rfl
    | with_reducible refine same_foldl ?_ (fun s x h => ?_)
    | (intro x'; clear_value x')
    | intro _
    | dsimp only [s']
    | split

theorem same_execBilLoRead (a0 : Side) (a1 : BilLo) (hw : listed [.bil, .rdata] w = true) (h : Same w a s) :
    SameO w a (execBilLoRead a0 a1 s) := by
  unfold execBilLoRead
  repeat' first
    | with_reducible assumption
    | (intro (s : State) (h : Same w a s))
    | (intro _ (s : State) (h : Same w a s))
    | (intro (h : Same w a _))
    | (intro (s' : State); refine_lift have h : Same w a s' := ?_; ?_; clear_value s')
    | lift_lets
    | with_reducible apply sameO_next
    | with_reducible apply same_ite
    | with_reducible apply sameO_ite
    | with_reducible apply same_returns
    | with_reducible apply same_onBil
    | exact listed_trans hw rfl
    | with_reducible refine same_foldl ?_ (fun s x h => ?_)
    | (intro x'; clear_value x')
    | intro _
    | dsimp only [s']
    | split

end Sys2Proof.Machine
end

