-- ==== Sys2Proof/Laws/FrameSupervisor.lean ====
section
/-! SUPPORT. Which parts of the state the operations of Supervisor.lean write. -/

set_option linter.unusedVariables false
set_option linter.unreachableTactic false
set_option linter.unusedTactic false

namespace Sys2Proof.Machine

variable {w : List Part} {a s : State}

theorem same_enterMode (a0 : ℕ) (a1 : ℕ) (hw : listed [.vlk] w = true) (h : Same w a s) :
    Same w a (enterMode a0 a1 s) := by
  unfold enterMode
  repeat' first
    | with_reducible assumption
    | (intro (s : State) (h : Same w a s))
    | (intro _ (s : State) (h : Same w a s))
    | (intro (h : Same w a _))
    | (intro (s' : State); refine_lift have h : Same w a s' := ?_; ?_; clear_value s')
    | lift_lets
    | with_reducible apply sameO_next
    | with_reducible apply same_ite
    | with_reducible apply same_onLink
    | exact listed_trans hw rfl
    | with_reducible refine same_foldl ?_ (fun s x h => ?_)
    | (intro x'; clear_value x')
    | intro _
    | dsimp only [s']
    | split

theorem same_setSup (a0 : ℕ) (a1 : Sup) (hw : listed [.vlk, .sys, .mgt, .log] w = true) (h : Same w a s) :
    Same w a (setSup a0 a1 s) := by
  unfold setSup
  repeat' first
    | with_reducible assumption
    | (intro (s : State) (h : Same w a s))
    | (intro _ (s : State) (h : Same w a s))
    | (intro (h : Same w a _))
    | (intro (s' : State); refine_lift have h : Same w a s' := ?_; ?_; clear_value s')
    | lift_lets
    | with_reducible apply sameO_next
    | with_reducible apply same_ite
    | with_reducible apply same_evalMode
    | with_reducible apply same_slacCheck
    | with_reducible apply same_onLink
    | exact listed_trans hw rfl
    | with_reducible refine same_foldl ?_ (fun s x h => ?_)
    | (intro x'; clear_value x')
    | intro _
    | dsimp only [s']
    | split

theorem same_lockDemand (a0 : ℕ) (a1 : Bool) (hw : listed [.pwr, .vlk, .log] w = true) (h : Same w a s) :
    Same w a (lockDemand a0 a1 s) := by
  unfold lockDemand
  repeat' first
    | with_reducible assumption
    | (intro (s : State) (h : Same w a s))
    | (intro _ (s : State) (h : Same w a s))
    | (intro (h : Same w a _))
    | (intro (s' : State); refine_lift have h : Same w a s' := ?_; ?_; clear_value s')
    | lift_lets
    | with_reducible apply sameO_next
    | with_reducible apply same_ite
    | with_reducible apply same_settleCh
    | with_reducible apply same_onCh
    | exact listed_trans hw rfl
    | with_reducible refine same_foldl ?_ (fun s x h => ?_)
    | (intro x'; clear_value x')
    | intro _
    | dsimp only [s']
    | split

theorem same_requestLock (a0 : ℕ) (hw : listed [.pwr, .vlk, .log] w = true) (h : Same w a s) :
    Same w a (requestLock a0 s) := by
  unfold requestLock
  repeat' first
    | with_reducible assumption
    | (intro (s : State) (h : Same w a s))
    | (intro _ (s : State) (h : Same w a s))
    | (intro (h : Same w a _))
    | (intro (s' : State); refine_lift have h : Same w a s' := ?_; ?_; clear_value s')
    | lift_lets
    | with_reducible apply sameO_next
    | with_reducible apply same_ite
    | with_reducible apply same_lockDemand
    | with_reducible apply same_onLock
    | with_reducible apply same_lockWatch
    | exact listed_trans hw rfl
    | with_reducible refine same_foldl ?_ (fun s x h => ?_)
    | (intro x'; clear_value x')
    | intro _
    | dsimp only [s']
    | split

theorem same_requestUnlock (a0 : ℕ) (hw : listed [.pwr, .vlk, .log] w = true) (h : Same w a s) :
    Same w a (requestUnlock a0 s) := by
  unfold requestUnlock
  repeat' first
    | with_reducible assumption
    | (intro (s : State) (h : Same w a s))
    | (intro _ (s : State) (h : Same w a s))
    | (intro (h : Same w a _))
    | (intro (s' : State); refine_lift have h : Same w a s' := ?_; ?_; clear_value s')
    | lift_lets
    | with_reducible apply sameO_next
    | with_reducible apply same_ite
    | with_reducible apply same_onLock
    | with_reducible apply same_slacCheck
    | with_reducible apply same_lockDemand
    | exact listed_trans hw rfl
    | with_reducible refine same_foldl ?_ (fun s x h => ?_)
    | (intro x'; clear_value x')
    | intro _
    | dsimp only [s']
    | split

theorem same_requestRelease (a0 : ℕ) (hw : listed [.owl, .vlk] w = true) (h : Same w a s) :
    Same w a (requestRelease a0 s) := by
  unfold requestRelease
  repeat' first
    | with_reducible assumption
    | (intro (s : State) (h : Same w a s))
    | (intro _ (s : State) (h : Same w a s))
    | (intro (h : Same w a _))
    | (intro (s' : State); refine_lift have h : Same w a s' := ?_; ?_; clear_value s')
    | lift_lets
    | with_reducible apply sameO_next
    | with_reducible apply same_ite
    | with_reducible apply same_onLink
    | with_reducible apply same_onOwl
    | exact listed_trans hw rfl
    | with_reducible refine same_foldl ?_ (fun s x h => ?_)
    | (intro x'; clear_value x')
    | intro _
    | dsimp only [s']
    | split

theorem same_advance (a0 : ℕ) (hw : listed [.met, .owl, .vlk] w = true) (h : Same w a s) :
    Same w a (advance a0 s) := by
  unfold advance
  repeat' first
    | with_reducible assumption
    | (intro (s : State) (h : Same w a s))
    | (intro _ (s : State) (h : Same w a s))
    | (intro (h : Same w a _))
    | (intro (s' : State); refine_lift have h : Same w a s' := ?_; ?_; clear_value s')
    | lift_lets
    | with_reducible apply sameO_next
    | with_reducible apply same_ite
    | with_reducible apply same_onMetOut
    | with_reducible apply same_onLink
    | with_reducible apply same_requestRelease
    | exact listed_trans hw rfl
    | with_reducible refine same_foldl ?_ (fun s x h => ?_)
    | (intro x'; clear_value x')
    | intro _
    | dsimp only [s']
    | split

theorem same_lockReached (a0 : ℕ) (hw : listed [.met, .owl, .vlk, .sys, .mgt, .log] w = true) (h : Same w a s) :
    Same w a (lockReached a0 s) := by
  unfold lockReached
  repeat' first
    | with_reducible assumption
    | (intro (s : State) (h : Same w a s))
    | (intro _ (s : State) (h : Same w a s))
    | (intro (h : Same w a _))
    | (intro (s' : State); refine_lift have h : Same w a s' := ?_; ?_; clear_value s')
    | lift_lets
    | with_reducible apply sameO_next
    | with_reducible apply same_ite
    | with_reducible apply same_advance
    | with_reducible apply same_onLink
    | with_reducible apply same_setSup
    | exact listed_trans hw rfl
    | with_reducible refine same_foldl ?_ (fun s x h => ?_)
    | (intro x'; clear_value x')
    | intro _
    | dsimp only [s']
    | split

theorem same_runStart (a0 : ℕ) (hw : listed [.met, .pwr, .owl, .vlk, .sys, .mgt, .log] w = true) (h : Same w a s) :
    Same w a (runStart a0 s) := by
  unfold runStart
  repeat' first
    | with_reducible assumption
    | (intro (s : State) (h : Same w a s))
    | (intro _ (s : State) (h : Same w a s))
    | (intro (h : Same w a _))
    | (intro (s' : State); refine_lift have h : Same w a s' := ?_; ?_; clear_value s')
    | lift_lets
    | with_reducible apply sameO_next
    | with_reducible apply same_ite
    | with_reducible apply same_onLink
    | with_reducible apply same_requestLock
    | with_reducible apply same_setSup
    | with_reducible apply same_lockReached
    | exact listed_trans hw rfl
    | with_reducible refine same_foldl ?_ (fun s x h => ?_)
    | (intro x'; clear_value x')
    | intro _
    | dsimp only [s']
    | split

theorem same_startSession (a0 : ℕ) (hw : listed [.met, .pwr, .owl, .vlk, .sys, .mgt, .log] w = true) (h : Same w a s) :
    Same w a (startSession a0 s) := by
  unfold startSession
  repeat' first
    | with_reducible assumption
    | (intro (s : State) (h : Same w a s))
    | (intro _ (s : State) (h : Same w a s))
    | (intro (h : Same w a _))
    | (intro (s' : State); refine_lift have h : Same w a s' := ?_; ?_; clear_value s')
    | lift_lets
    | with_reducible apply sameO_next
    | with_reducible apply same_ite
    | with_reducible apply same_onLink
    | with_reducible apply same_runStart
    | exact listed_trans hw rfl
    | with_reducible refine same_foldl ?_ (fun s x h => ?_)
    | (intro x'; clear_value x')
    | intro _
    | dsimp only [s']
    | split

theorem same_afterCapture (a0 : ℕ) (hw : listed [.owl, .vlk] w = true) (h : Same w a s) :
    Same w a (afterCapture a0 s) := by
  unfold afterCapture
  repeat' first
    | with_reducible assumption
    | (intro (s : State) (h : Same w a s))
    | (intro _ (s : State) (h : Same w a s))
    | (intro (h : Same w a _))
    | (intro (s' : State); refine_lift have h : Same w a s' := ?_; ?_; clear_value s')
    | lift_lets
    | with_reducible apply sameO_next
    | with_reducible apply same_ite
    | with_reducible apply same_requestRelease
    | with_reducible apply same_onLink
    | exact listed_trans hw rfl
    | with_reducible refine same_foldl ?_ (fun s x h => ?_)
    | (intro x'; clear_value x')
    | intro _
    | dsimp only [s']
    | split

theorem same_onGrant (a0 : ℕ) (hw : listed [.vlk] w = true) (h : Same w a s) :
    Same w a (onGrant a0 s) := by
  unfold onGrant
  repeat' first
    | with_reducible assumption
    | (intro (s : State) (h : Same w a s))
    | (intro _ (s : State) (h : Same w a s))
    | (intro (h : Same w a _))
    | (intro (s' : State); refine_lift have h : Same w a s' := ?_; ?_; clear_value s')
    | lift_lets
    | with_reducible apply sameO_next
    | with_reducible apply same_ite
    | with_reducible apply same_onLink
    | exact listed_trans hw rfl
    | with_reducible refine same_foldl ?_ (fun s x h => ?_)
    | (intro x'; clear_value x')
    | intro _
    | dsimp only [s']
    | split

theorem same_logSession (a0 : ℕ) (a1 : ℕ) (a2 : ℕ) (hw : listed [.log] w = true) (h : Same w a s) :
    Same w a (logSession a0 a1 a2 s) := by
  unfold logSession
  repeat' first
    | with_reducible assumption
    | (intro (s : State) (h : Same w a s))
    | (intro _ (s : State) (h : Same w a s))
    | (intro (h : Same w a _))
    | (intro (s' : State); refine_lift have h : Same w a s' := ?_; ?_; clear_value s')
    | lift_lets
    | with_reducible apply sameO_next
    | with_reducible apply same_ite
    | with_reducible apply same_logEv
    | exact listed_trans hw rfl
    | with_reducible refine same_foldl ?_ (fun s x h => ?_)
    | (intro x'; clear_value x')
    | intro _
    | dsimp only [s']
    | split

theorem same_closeContactors (a0 : ℕ) (hw : listed [.pwr, .vlk, .sys, .mgt, .log] w = true) (h : Same w a s) :
    Same w a (closeContactors a0 s) := by
  unfold closeContactors
  repeat' first
    | with_reducible assumption
    | (intro (s : State) (h : Same w a s))
    | (intro _ (s : State) (h : Same w a s))
    | (intro (h : Same w a _))
    | (intro (s' : State); refine_lift have h : Same w a s' := ?_; ?_; clear_value s')
    | lift_lets
    | with_reducible apply sameO_next
    | with_reducible apply same_ite
    | with_reducible apply same_contactorDemand
    | with_reducible apply same_onLink
    | with_reducible apply same_logSession
    | with_reducible apply same_setSup
    | exact listed_trans hw rfl
    | with_reducible refine same_foldl ?_ (fun s x h => ?_)
    | (intro x'; clear_value x')
    | intro _
    | dsimp only [s']
    | split

theorem same_beginPostOpen (a0 : ℕ) (a1 : OpenReason) (hw : listed [.vlk] w = true) (h : Same w a s) :
    Same w a (beginPostOpen a0 a1 s) := by
  unfold beginPostOpen
  repeat' first
    | with_reducible assumption
    | (intro (s : State) (h : Same w a s))
    | (intro _ (s : State) (h : Same w a s))
    | (intro (h : Same w a _))
    | (intro (s' : State); refine_lift have h : Same w a s' := ?_; ?_; clear_value s')
    | lift_lets
    | with_reducible apply sameO_next
    | with_reducible apply same_ite
    | with_reducible apply same_onLink
    | exact listed_trans hw rfl
    | with_reducible refine same_foldl ?_ (fun s x h => ?_)
    | (intro x'; clear_value x')
    | intro _
    | dsimp only [s']
    | split

theorem same_restState (a0 : ℕ) (hw : listed [.pwr, .vlk, .sys, .mgt, .log] w = true) (h : Same w a s) :
    Same w a (restState a0 s) := by
  unfold restState
  repeat' first
    | with_reducible assumption
    | (intro (s : State) (h : Same w a s))
    | (intro _ (s : State) (h : Same w a s))
    | (intro (h : Same w a _))
    | (intro (s' : State); refine_lift have h : Same w a s' := ?_; ?_; clear_value s')
    | lift_lets
    | with_reducible apply sameO_next
    | with_reducible apply same_ite
    | with_reducible apply same_setSup
    | with_reducible apply same_requestUnlock
    | exact listed_trans hw rfl
    | with_reducible refine same_foldl ?_ (fun s x h => ?_)
    | (intro x'; clear_value x')
    | intro _
    | dsimp only [s']
    | split

theorem same_closeSession (a0 : ℕ) (hw : listed [.met, .pwr, .vlk, .sys, .mgt, .log] w = true) (h : Same w a s) :
    Same w a (closeSession a0 s) := by
  unfold closeSession
  repeat' first
    | with_reducible assumption
    | (intro (s : State) (h : Same w a s))
    | (intro _ (s : State) (h : Same w a s))
    | (intro (h : Same w a _))
    | (intro (s' : State); refine_lift have h : Same w a s' := ?_; ?_; clear_value s')
    | lift_lets
    | with_reducible apply sameO_next
    | with_reducible apply same_ite
    | with_reducible apply same_onMetOut
    | with_reducible apply same_logSession
    | with_reducible apply same_onLink
    | with_reducible apply same_restState
    | exact listed_trans hw rfl
    | with_reducible refine same_foldl ?_ (fun s x h => ?_)
    | (intro x'; clear_value x')
    | intro _
    | dsimp only [s']
    | split

theorem same_limpStart (a0 : ℕ) (hw : listed [.met, .pwr, .owl, .vlk, .sys, .mgt, .log] w = true) (h : Same w a s) :
    Same w a (limpStart a0 s) := by
  unfold limpStart
  repeat' first
    | with_reducible assumption
    | (intro (s : State) (h : Same w a s))
    | (intro _ (s : State) (h : Same w a s))
    | (intro (h : Same w a _))
    | (intro (s' : State); refine_lift have h : Same w a s' := ?_; ?_; clear_value s')
    | lift_lets
    | with_reducible apply sameO_next
    | with_reducible apply same_ite
    | with_reducible apply same_onLink
    | with_reducible apply same_startSession
    | exact listed_trans hw rfl
    | with_reducible refine same_foldl ?_ (fun s x h => ?_)
    | (intro x'; clear_value x')
    | intro _
    | dsimp only [s']
    | split

theorem same_limpPilot (a0 : ℕ) (hw : listed [.vlk] w = true) (h : Same w a s) :
    Same w a (limpPilot a0 s) := by
  unfold limpPilot
  repeat' first
    | with_reducible assumption
    | (intro (s : State) (h : Same w a s))
    | (intro _ (s : State) (h : Same w a s))
    | (intro (h : Same w a _))
    | (intro (s' : State); refine_lift have h : Same w a s' := ?_; ?_; clear_value s')
    | lift_lets
    | with_reducible apply sameO_next
    | with_reducible apply same_ite
    | with_reducible apply same_enterMode
    | with_reducible apply same_onLink
    | exact listed_trans hw rfl
    | with_reducible refine same_foldl ?_ (fun s x h => ?_)
    | (intro x'; clear_value x')
    | intro _
    | dsimp only [s']
    | split

theorem same_finishSession (a0 : ℕ) (hw : listed [.met, .pwr, .owl, .vlk, .sys, .mgt, .log] w = true) (h : Same w a s) :
    Same w a (finishSession a0 s) := by
  unfold finishSession
  repeat' first
    | with_reducible assumption
    | (intro (s : State) (h : Same w a s))
    | (intro _ (s : State) (h : Same w a s))
    | (intro (h : Same w a _))
    | (intro (s' : State); refine_lift have h : Same w a s' := ?_; ?_; clear_value s')
    | lift_lets
    | with_reducible apply sameO_next
    | with_reducible apply same_ite
    | with_reducible apply same_closeSession
    | with_reducible apply same_limpStart
    | with_reducible apply same_limpPilot
    | exact listed_trans hw rfl
    | with_reducible refine same_foldl ?_ (fun s x h => ?_)
    | (intro x'; clear_value x')
    | intro _
    | dsimp only [s']
    | split

theorem same_endSession (a0 : ℕ) (a1 : ℕ) (hw : listed [.met, .pwr, .owl, .vlk, .sys, .mgt, .log] w = true) (h : Same w a s) :
    Same w a (endSession a0 a1 s) := by
  unfold endSession
  repeat' first
    | with_reducible assumption
    | (intro (s : State) (h : Same w a s))
    | (intro _ (s : State) (h : Same w a s))
    | (intro (h : Same w a _))
    | (intro (s' : State); refine_lift have h : Same w a s' := ?_; ?_; clear_value s')
    | lift_lets
    | with_reducible apply sameO_next
    | with_reducible apply same_ite
    | with_reducible apply same_onLink
    | with_reducible apply same_beginPostOpen
    | with_reducible apply same_dropRelease
    | with_reducible apply same_finishSession
    | exact listed_trans hw rfl
    | with_reducible refine same_foldl ?_ (fun s x h => ?_)
    | (intro x'; clear_value x')
    | intro _
    | dsimp only [s']
    | split

theorem same_pauseSession (a0 : ℕ) (hw : listed [.pwr, .owl, .vlk, .log] w = true) (h : Same w a s) :
    Same w a (pauseSession a0 s) := by
  unfold pauseSession
  repeat' first
    | with_reducible assumption
    | (intro (s : State) (h : Same w a s))
    | (intro _ (s : State) (h : Same w a s))
    | (intro (h : Same w a _))
    | (intro (s' : State); refine_lift have h : Same w a s' := ?_; ?_; clear_value s')
    | lift_lets
    | with_reducible apply sameO_next
    | with_reducible apply same_ite
    | with_reducible apply same_beginPostOpen
    | with_reducible apply same_dropRelease
    | exact listed_trans hw rfl
    | with_reducible refine same_foldl ?_ (fun s x h => ?_)
    | (intro x'; clear_value x')
    | intro _
    | dsimp only [s']
    | split

theorem same_pauseOrdered (a0 : ℕ) (hw : listed [.pwr, .owl, .vlk, .log] w = true) (h : Same w a s) :
    Same w a (pauseOrdered a0 s) := by
  unfold pauseOrdered
  repeat' first
    | with_reducible assumption
    | (intro (s : State) (h : Same w a s))
    | (intro _ (s : State) (h : Same w a s))
    | (intro (h : Same w a _))
    | (intro (s' : State); refine_lift have h : Same w a s' := ?_; ?_; clear_value s')
    | lift_lets
    | with_reducible apply sameO_next
    | with_reducible apply same_ite
    | with_reducible apply same_onLink
    | with_reducible apply same_pauseSession
    | exact listed_trans hw rfl
    | with_reducible refine same_foldl ?_ (fun s x h => ?_)
    | (intro x'; clear_value x')
    | intro _
    | dsimp only [s']
    | split

theorem same_tryResume (a0 : ℕ) (hw : listed [.owl, .vlk] w = true) (h : Same w a s) :
    Same w a (tryResume a0 s) := by
  unfold tryResume
  repeat' first
    | with_reducible assumption
    | (intro (s : State) (h : Same w a s))
    | (intro _ (s : State) (h : Same w a s))
    | (intro (h : Same w a _))
    | (intro (s' : State); refine_lift have h : Same w a s' := ?_; ?_; clear_value s')
    | lift_lets
    | with_reducible apply sameO_next
    | with_reducible apply same_ite
    | with_reducible apply same_requestRelease
    | exact listed_trans hw rfl
    | with_reducible refine same_foldl ?_ (fun s x h => ?_)
    | (intro x'; clear_value x')
    | intro _
    | dsimp only [s']
    | split

theorem same_offerChanged (a0 : ℕ) (hw : listed [.met, .owl, .vlk] w = true) (h : Same w a s) :
    Same w a (offerChanged a0 s) := by
  unfold offerChanged
  repeat' first
    | with_reducible assumption
    | (intro (s : State) (h : Same w a s))
    | (intro _ (s : State) (h : Same w a s))
    | (intro (h : Same w a _))
    | (intro (s' : State); refine_lift have h : Same w a s' := ?_; ?_; clear_value s')
    | lift_lets
    | with_reducible apply sameO_next
    | with_reducible apply same_ite
    | with_reducible apply same_tryResume
    | with_reducible apply same_advance
    | with_reducible apply same_slacCheck
    | exact listed_trans hw rfl
    | with_reducible refine same_foldl ?_ (fun s x h => ?_)
    | (intro x'; clear_value x')
    | intro _
    | dsimp only [s']
    | split

theorem same_endValidation (a0 : ℕ) (a1 : Bool) (hw : listed [.met, .owl, .vlk] w = true) (h : Same w a s) :
    Same w a (endValidation a0 a1 s) := by
  unfold endValidation
  repeat' first
    | with_reducible assumption
    | (intro (s : State) (h : Same w a s))
    | (intro _ (s : State) (h : Same w a s))
    | (intro (h : Same w a _))
    | (intro (s' : State); refine_lift have h : Same w a s' := ?_; ?_; clear_value s')
    | lift_lets
    | with_reducible apply sameO_next
    | with_reducible apply same_ite
    | with_reducible apply same_offerChanged
    | with_reducible apply same_onLink
    | exact listed_trans hw rfl
    | with_reducible refine same_foldl ?_ (fun s x h => ?_)
    | (intro x'; clear_value x')
    | intro _
    | dsimp only [s']
    | split

theorem same_withdrawRequest (a0 : ℕ) (hw : listed [.pwr, .owl, .vlk, .log] w = true) (h : Same w a s) :
    Same w a (withdrawRequest a0 s) := by
  unfold withdrawRequest
  repeat' first
    | with_reducible assumption
    | (intro (s : State) (h : Same w a s))
    | (intro _ (s : State) (h : Same w a s))
    | (intro (h : Same w a _))
    | (intro (s' : State); refine_lift have h : Same w a s' := ?_; ?_; clear_value s')
    | lift_lets
    | with_reducible apply sameO_next
    | with_reducible apply same_ite
    | with_reducible apply same_dropRelease
    | with_reducible apply same_onLink
    | exact listed_trans hw rfl
    | with_reducible refine same_foldl ?_ (fun s x h => ?_)
    | (intro x'; clear_value x')
    | intro _
    | dsimp only [s']
    | split

theorem same_supplyPause (a0 : ℕ) (hw : listed [.pwr, .owl, .vlk, .log] w = true) (h : Same w a s) :
    Same w a (supplyPause a0 s) := by
  unfold supplyPause
  repeat' first
    | with_reducible assumption
    | (intro (s : State) (h : Same w a s))
    | (intro _ (s : State) (h : Same w a s))
    | (intro (h : Same w a _))
    | (intro (s' : State); refine_lift have h : Same w a s' := ?_; ?_; clear_value s')
    | lift_lets
    | with_reducible apply sameO_next
    | with_reducible apply same_ite
    | with_reducible apply same_contactorDemand
    | with_reducible apply same_pauseSession
    | with_reducible apply same_onLink
    | exact listed_trans hw rfl
    | with_reducible refine same_foldl ?_ (fun s x h => ?_)
    | (intro x'; clear_value x')
    | intro _
    | dsimp only [s']
    | split

theorem same_takeHit (a0 : ℕ) (hw : listed [.vlk, .tag] w = true) (h : Same w a s) :
    Same w a (takeHit a0 s) := by
  unfold takeHit
  repeat' first
    | with_reducible assumption
    | (intro (s : State) (h : Same w a s))
    | (intro _ (s : State) (h : Same w a s))
    | (intro (h : Same w a _))
    | (intro (s' : State); refine_lift have h : Same w a s' := ?_; ?_; clear_value s')
    | lift_lets
    | with_reducible apply sameO_next
    | with_reducible apply same_ite
    | with_reducible apply same_onLink
    | with_reducible apply same_onTag
    | exact listed_trans hw rfl
    | with_reducible refine same_foldl ?_ (fun s x h => ?_)
    | (intro x'; clear_value x')
    | intro _
    | dsimp only [s']
    | split

theorem same_acceptB (a0 : ℕ) (hw : listed [.met, .pwr, .owl, .vlk, .tag, .sys, .mgt, .log] w = true) (h : Same w a s) :
    Same w a (acceptB a0 s) := by
  unfold acceptB
  repeat' first
    | with_reducible assumption
    | (intro (s : State) (h : Same w a s))
    | (intro _ (s : State) (h : Same w a s))
    | (intro (h : Same w a _))
    | (intro (s' : State); refine_lift have h : Same w a s' := ?_; ?_; clear_value s')
    | lift_lets
    | with_reducible apply sameO_next
    | with_reducible apply same_ite
    | with_reducible apply same_limpStart
    | with_reducible apply same_takeHit
    | with_reducible apply same_limpPilot
    | exact listed_trans hw rfl
    | with_reducible refine same_foldl ?_ (fun s x h => ?_)
    | (intro x'; clear_value x')
    | intro _
    | dsimp only [s']
    | split

theorem same_connect (a0 : ℕ) (hw : listed [.met, .pwr, .owl, .vlk, .tag, .sys, .mgt, .log] w = true) (h : Same w a s) :
    Same w a (connect a0 s) := by
  unfold connect
  repeat' first
    | with_reducible assumption
    | (intro (s : State) (h : Same w a s))
    | (intro _ (s : State) (h : Same w a s))
    | (intro (h : Same w a _))
    | (intro (s' : State); refine_lift have h : Same w a s' := ?_; ?_; clear_value s')
    | lift_lets
    | with_reducible apply sameO_next
    | with_reducible apply same_ite
    | with_reducible apply same_acceptB
    | with_reducible apply same_setSup
    | exact listed_trans hw rfl
    | with_reducible refine same_foldl ?_ (fun s x h => ?_)
    | (intro x'; clear_value x')
    | intro _
    | dsimp only [s']
    | split

theorem same_releaseHeld (a0 : ℕ) (hw : listed [.met, .pwr, .owl, .vlk, .sys, .mgt, .log] w = true) (h : Same w a s) :
    Same w a (releaseHeld a0 s) := by
  unfold releaseHeld
  repeat' first
    | with_reducible assumption
    | (intro (s : State) (h : Same w a s))
    | (intro _ (s : State) (h : Same w a s))
    | (intro (h : Same w a _))
    | (intro (s' : State); refine_lift have h : Same w a s' := ?_; ?_; clear_value s')
    | lift_lets
    | with_reducible apply sameO_next
    | with_reducible apply same_ite
    | with_reducible apply same_onLink
    | with_reducible apply same_runStart
    | exact listed_trans hw rfl
    | with_reducible refine same_foldl ?_ (fun s x h => ?_)
    | (intro x'; clear_value x')
    | intro _
    | dsimp only [s']
    | split

theorem same_limpEnter (a0 : ℕ) (hw : listed [.met, .pwr, .owl, .vlk, .tag, .sys, .mgt, .log] w = true) (h : Same w a s) :
    Same w a (limpEnter a0 s) := by
  unfold limpEnter
  repeat' first
    | with_reducible assumption
    | (intro (s : State) (h : Same w a s))
    | (intro _ (s : State) (h : Same w a s))
    | (intro (h : Same w a _))
    | (intro (s' : State); refine_lift have h : Same w a s' := ?_; ?_; clear_value s')
    | lift_lets
    | with_reducible apply sameO_next
    | with_reducible apply same_ite
    | with_reducible apply same_endSession
    | with_reducible apply same_onLink
    | with_reducible apply same_slacOff
    | with_reducible apply same_acceptB
    | exact listed_trans hw rfl
    | with_reducible refine same_foldl ?_ (fun s x h => ?_)
    | (intro x'; clear_value x')
    | intro _
    | dsimp only [s']
    | split

theorem same_limpEnterAll  (hw : listed [.met, .pwr, .owl, .vlk, .tag, .sys, .mgt, .log] w = true) (h : Same w a s) :
    Same w a (limpEnterAll s) := by
  unfold limpEnterAll
  repeat' first
    | with_reducible assumption
    | (intro (s : State) (h : Same w a s))
    | (intro _ (s : State) (h : Same w a s))
    | (intro (h : Same w a _))
    | (intro (s' : State); refine_lift have h : Same w a s' := ?_; ?_; clear_value s')
    | lift_lets
    | with_reducible apply sameO_next
    | with_reducible apply same_ite
    | with_reducible apply same_limpEnter
    | exact listed_trans hw rfl
    | with_reducible refine same_foldl ?_ (fun s x h => ?_)
    | (intro x'; clear_value x')
    | intro _
    | dsimp only [s']
    | split

end Sys2Proof.Machine
end

