-- ==== Sys2Proof/Laws/FrameOwl.lean ====
section
/-! SUPPORT. Which parts of the state the operations of Owl.lean write. -/

set_option linter.unusedVariables false
set_option linter.unreachableTactic false
set_option linter.unusedTactic false

namespace Sys2Proof.Machine

variable {w : List Part} {a s : State}

theorem same_onCfg (a0 : OwlCfg → OwlCfg) (hw : listed [.owl] w = true) (h : Same w a s) :
    Same w a (onCfg a0 s) := by
  unfold onCfg
  repeat' first
    | with_reducible assumption
    | (intro (s : State) (h : Same w a s))
    | (intro _ (s : State) (h : Same w a s))
    | (intro (h : Same w a _))
    | (intro (s' : State); refine_lift have h : Same w a s' := ?_; ?_; clear_value s')
    | lift_lets
    | with_reducible apply sameO_next
    | with_reducible apply same_ite
    | with_reducible apply same_onOwl
    | exact listed_trans hw rfl
    | with_reducible refine same_foldl ?_ (fun s x h => ?_)
    | (intro x'; clear_value x')
    | intro _
    | dsimp only [s']
    | split

theorem same_changeEntry (a0 : ℕ) (a1 : ℕ) (a2 : ℕ) (a3 : ℕ) (a4 : Bytes) (a5 : Bytes) (hw : listed [.owl, .log] w = true) (h : Same w a s) :
    Same w a (changeEntry a0 a1 a2 a3 a4 a5 s) := by
  unfold changeEntry
  repeat' first
    | with_reducible assumption
    | (intro (s : State) (h : Same w a s))
    | (intro _ (s : State) (h : Same w a s))
    | (intro (h : Same w a _))
    | (intro (s' : State); refine_lift have h : Same w a s' := ?_; ?_; clear_value s')
    | lift_lets
    | with_reducible apply sameO_next
    | with_reducible apply same_ite
    | with_reducible apply same_onOwl
    | with_reducible apply same_logEv
    | exact listed_trans hw rfl
    | with_reducible refine same_foldl ?_ (fun s x h => ?_)
    | (intro x'; clear_value x')
    | intro _
    | dsimp only [s']
    | split

theorem same_cfgCheck (a0 : Bool) (a1 : Bool) (hw : listed [.owl, .log] w = true) (h : Same w a s) :
    Same w a (cfgCheck a0 a1 s) := by
  unfold cfgCheck
  repeat' first
    | with_reducible assumption
    | (intro (s : State) (h : Same w a s))
    | (intro _ (s : State) (h : Same w a s))
    | (intro (h : Same w a _))
    | (intro (s' : State); refine_lift have h : Same w a s' := ?_; ?_; clear_value s')
    | lift_lets
    | with_reducible apply sameO_next
    | with_reducible apply same_ite
    | with_reducible apply same_onOwl
    | with_reducible apply same_changeEntry
    | with_reducible apply same_logEv
    | exact listed_trans hw rfl
    | with_reducible refine same_foldl ?_ (fun s x h => ?_)
    | (intro x'; clear_value x')
    | intro _
    | dsimp only [s']
    | split

theorem same_seeGuards  (hw : listed [.owl] w = true) (h : Same w a s) :
    Same w a (seeGuards s) := by
  unfold seeGuards
  repeat' first
    | with_reducible assumption
    | (intro (s : State) (h : Same w a s))
    | (intro _ (s : State) (h : Same w a s))
    | (intro (h : Same w a _))
    | (intro (s' : State); refine_lift have h : Same w a s' := ?_; ?_; clear_value s')
    | lift_lets
    | with_reducible apply sameO_next
    | with_reducible apply same_ite
    | with_reducible apply same_onOwl
    | exact listed_trans hw rfl
    | with_reducible refine same_foldl ?_ (fun s x h => ?_)
    | (intro x'; clear_value x')
    | intro _
    | dsimp only [s']
    | split

theorem same_prove  (hw : listed [.owl, .log] w = true) (h : Same w a s) :
    Same w a (prove s) := by
  unfold prove
  repeat' first
    | with_reducible assumption
    | (intro (s : State) (h : Same w a s))
    | (intro _ (s : State) (h : Same w a s))
    | (intro (h : Same w a _))
    | (intro (s' : State); refine_lift have h : Same w a s' := ?_; ?_; clear_value s')
    | lift_lets
    | with_reducible apply sameO_next
    | with_reducible apply same_ite
    | with_reducible apply same_logEv
    | with_reducible apply same_onOwl
    | exact listed_trans hw rfl
    | with_reducible refine same_foldl ?_ (fun s x h => ?_)
    | (intro x'; clear_value x')
    | intro _
    | dsimp only [s']
    | split

theorem same_supTrip (a0 : TripRec) (a1 : ℤ) (hw : listed [.pwr, .owl, .vlk, .log] w = true) (h : Same w a s) :
    Same w a (supTrip a0 a1 s) := by
  unfold supTrip
  repeat' first
    | with_reducible assumption
    | (intro (s : State) (h : Same w a s))
    | (intro _ (s : State) (h : Same w a s))
    | (intro (h : Same w a _))
    | (intro (s' : State); refine_lift have h : Same w a s' := ?_; ?_; clear_value s')
    | lift_lets
    | with_reducible apply sameO_next
    | with_reducible apply same_ite
    | with_reducible apply same_onOwl
    | with_reducible apply same_logEv
    | with_reducible apply same_latchTrip
    | exact listed_trans hw rfl
    | with_reducible refine same_foldl ?_ (fun s x h => ?_)
    | (intro x'; clear_value x')
    | intro _
    | dsimp only [s']
    | split

theorem same_immediateTrips  (hw : listed [.pwr, .owl, .vlk, .log] w = true) (h : Same w a s) :
    Same w a (immediateTrips s) := by
  unfold immediateTrips
  repeat' first
    | with_reducible assumption
    | (intro (s : State) (h : Same w a s))
    | (intro _ (s : State) (h : Same w a s))
    | (intro (h : Same w a _))
    | (intro (s' : State); refine_lift have h : Same w a s' := ?_; ?_; clear_value s')
    | lift_lets
    | with_reducible apply sameO_next
    | with_reducible apply same_ite
    | with_reducible apply same_supTrip
    | exact listed_trans hw rfl
    | with_reducible refine same_foldl ?_ (fun s x h => ?_)
    | (intro x'; clear_value x')
    | intro _
    | dsimp only [s']
    | split

theorem same_execSupervisedDelayExpiry (a0 : ℕ) (a1 : ℕ) (hw : listed [.pwr, .owl, .vlk, .log, .freeCtr] w = true) (h : Same w a s) :
    SameO w a (execSupervisedDelayExpiry a0 a1 s) := by
  unfold execSupervisedDelayExpiry
  repeat' first
    | with_reducible assumption
    | (intro (s : State) (h : Same w a s))
    | (intro _ (s : State) (h : Same w a s))
    | (intro (h : Same w a _))
    | (intro (s' : State); refine_lift have h : Same w a s' := ?_; ?_; clear_value s')
    | lift_lets
    | with_reducible apply sameO_next
    | with_reducible apply same_ite
    | with_reducible apply sameO_ite
    | with_reducible apply same_supTrip
    | with_reducible apply same_bump
    | exact listed_trans hw rfl
    | with_reducible refine same_foldl ?_ (fun s x h => ?_)
    | (intro x'; clear_value x')
    | intro _
    | dsimp only [s']
    | split

theorem same_refreshWithhold  (hw : listed [.owl] w = true) (h : Same w a s) :
    Same w a (refreshWithhold s) := by
  unfold refreshWithhold
  repeat' first
    | with_reducible assumption
    | (intro (s : State) (h : Same w a s))
    | (intro _ (s : State) (h : Same w a s))
    | (intro (h : Same w a _))
    | (intro (s' : State); refine_lift have h : Same w a s' := ?_; ?_; clear_value s')
    | lift_lets
    | with_reducible apply sameO_next
    | with_reducible apply same_ite
    | with_reducible apply same_onOwl
    | exact listed_trans hw rfl
    | with_reducible refine same_foldl ?_ (fun s x h => ?_)
    | (intro x'; clear_value x')
    | intro _
    | dsimp only [s']
    | split

theorem same_withdraw (a0 : ℕ) (hw : listed [.met, .pwr, .owl, .vlk, .sys, .mgt, .log] w = true) (h : Same w a s) :
    Same w a (withdraw a0 s) := by
  unfold withdraw
  repeat' first
    | with_reducible assumption
    | (intro (s : State) (h : Same w a s))
    | (intro _ (s : State) (h : Same w a s))
    | (intro (h : Same w a _))
    | (intro (s' : State); refine_lift have h : Same w a s' := ?_; ?_; clear_value s')
    | lift_lets
    | with_reducible apply sameO_next
    | with_reducible apply same_ite
    | with_reducible apply same_logEv
    | with_reducible apply same_onOwl
    | with_reducible apply same_endSession
    | with_reducible apply same_settleContactors
    | exact listed_trans hw rfl
    | with_reducible refine same_foldl ?_ (fun s x h => ?_)
    | (intro x'; clear_value x')
    | intro _
    | dsimp only [s']
    | split

theorem same_decideRelease (a0 : ℕ) (hw : listed [.met, .pwr, .owl, .vlk, .sys, .mgt, .log] w = true) (h : Same w a s) :
    Same w a (decideRelease a0 s) := by
  unfold decideRelease
  repeat' first
    | with_reducible assumption
    | (intro (s : State) (h : Same w a s))
    | (intro _ (s : State) (h : Same w a s))
    | (intro (h : Same w a _))
    | (intro (s' : State); refine_lift have h : Same w a s' := ?_; ?_; clear_value s')
    | lift_lets
    | with_reducible apply sameO_next
    | with_reducible apply same_ite
    | with_reducible apply same_withdraw
    | with_reducible apply same_onGrant
    | with_reducible apply same_onOwl
    | exact listed_trans hw rfl
    | with_reducible refine same_foldl ?_ (fun s x h => ?_)
    | (intro x'; clear_value x')
    | intro _
    | dsimp only [s']
    | split

theorem same_writeCauses  (hw : listed [.owl] w = true) (h : Same w a s) :
    Same w a (writeCauses s) := by
  unfold writeCauses
  repeat' first
    | with_reducible assumption
    | (intro (s : State) (h : Same w a s))
    | (intro _ (s : State) (h : Same w a s))
    | (intro (h : Same w a _))
    | (intro (s' : State); refine_lift have h : Same w a s' := ?_; ?_; clear_value s')
    | lift_lets
    | with_reducible apply sameO_next
    | with_reducible apply same_ite
    | with_reducible apply same_onOwl
    | with_reducible apply same_onCfg
    | exact listed_trans hw rfl
    | with_reducible refine same_foldl ?_ (fun s x h => ?_)
    | (intro x'; clear_value x')
    | intro _
    | dsimp only [s']
    | split

theorem same_owlEvaluate  (hw : listed [.met, .pwr, .owl, .vlk, .sys, .mgt, .log] w = true) (h : Same w a s) :
    Same w a (owlEvaluate s) := by
  unfold owlEvaluate
  repeat' first
    | with_reducible assumption
    | (intro (s : State) (h : Same w a s))
    | (intro _ (s : State) (h : Same w a s))
    | (intro (h : Same w a _))
    | (intro (s' : State); refine_lift have h : Same w a s' := ?_; ?_; clear_value s')
    | lift_lets
    | with_reducible apply sameO_next
    | with_reducible apply same_ite
    | with_reducible apply same_refreshWithhold
    | with_reducible apply same_prove
    | with_reducible apply same_immediateTrips
    | with_reducible apply same_seeGuards
    | with_reducible apply same_decideRelease
    | with_reducible apply same_writeCauses
    | with_reducible apply same_releaseHeld
    | exact listed_trans hw rfl
    | with_reducible refine same_foldl ?_ (fun s x h => ?_)
    | (intro x'; clear_value x')
    | intro _
    | dsimp only [s']
    | split

theorem same_owlReact  (hw : listed [.met, .pwr, .owl, .vlk, .sys, .mgt, .log] w = true) (h : Same w a s) :
    Same w a (owlReact s) := by
  unfold owlReact
  repeat' first
    | with_reducible assumption
    | (intro (s : State) (h : Same w a s))
    | (intro _ (s : State) (h : Same w a s))
    | (intro (h : Same w a _))
    | (intro (s' : State); refine_lift have h : Same w a s' := ?_; ?_; clear_value s')
    | lift_lets
    | with_reducible apply sameO_next
    | with_reducible apply same_ite
    | with_reducible apply same_owlEvaluate
    | with_reducible apply same_refreshWithhold
    | exact listed_trans hw rfl
    | with_reducible refine same_foldl ?_ (fun s x h => ?_)
    | (intro x'; clear_value x')
    | intro _
    | dsimp only [s']
    | split

theorem same_execOwlCycle  (hw : listed [.met, .pwr, .owl, .vlk, .sys, .mgt, .log] w = true) (h : Same w a s) :
    SameO w a (execOwlCycle s) := by
  unfold execOwlCycle
  repeat' first
    | with_reducible assumption
    | (intro (s : State) (h : Same w a s))
    | (intro _ (s : State) (h : Same w a s))
    | (intro (h : Same w a _))
    | (intro (s' : State); refine_lift have h : Same w a s' := ?_; ?_; clear_value s')
    | lift_lets
    | with_reducible apply sameO_next
    | with_reducible apply same_ite
    | with_reducible apply sameO_ite
    | with_reducible apply same_owlReact
    | exact listed_trans hw rfl
    | with_reducible refine same_foldl ?_ (fun s x h => ?_)
    | (intro x'; clear_value x')
    | intro _
    | dsimp only [s']
    | split

theorem same_execMeterOkTimeout (a0 : ℕ) (hw : listed [.owl] w = true) (h : Same w a s) :
    SameO w a (execMeterOkTimeout a0 s) := by
  unfold execMeterOkTimeout
  repeat' first
    | with_reducible assumption
    | (intro (s : State) (h : Same w a s))
    | (intro _ (s : State) (h : Same w a s))
    | (intro (h : Same w a _))
    | (intro (s' : State); refine_lift have h : Same w a s' := ?_; ?_; clear_value s')
    | lift_lets
    | with_reducible apply sameO_next
    | with_reducible apply same_ite
    | with_reducible apply sameO_ite
    | with_reducible apply same_onOwl
    | exact listed_trans hw rfl
    | with_reducible refine same_foldl ?_ (fun s x h => ?_)
    | (intro x'; clear_value x')
    | intro _
    | dsimp only [s']
    | split

theorem same_execGuardInputChange (a0 : ℕ) (a1 : Bool) (hw : listed [.met, .pwr, .owl, .vlk, .sys, .mgt, .log] w = true) (h : Same w a s) :
    SameO w a (execGuardInputChange a0 a1 s) := by
  unfold execGuardInputChange
  repeat' first
    | with_reducible assumption
    | (intro (s : State) (h : Same w a s))
    | (intro _ (s : State) (h : Same w a s))
    | (intro (h : Same w a _))
    | (intro (s' : State); refine_lift have h : Same w a s' := ?_; ?_; clear_value s')
    | lift_lets
    | with_reducible apply sameO_next
    | with_reducible apply same_ite
    | with_reducible apply sameO_ite
    | with_reducible apply same_owlReact
    | with_reducible apply same_onOwl
    | exact listed_trans hw rfl
    | with_reducible refine same_foldl ?_ (fun s x h => ?_)
    | (intro x'; clear_value x')
    | intro _
    | dsimp only [s']
    | split

theorem same_execGuardDisagree (a0 : ℕ) (a1 : ℕ) (hw : listed [.met, .pwr, .owl, .vlk, .sys, .mgt, .log] w = true) (h : Same w a s) :
    SameO w a (execGuardDisagree a0 a1 s) := by
  unfold execGuardDisagree
  repeat' first
    | with_reducible assumption
    | (intro (s : State) (h : Same w a s))
    | (intro _ (s : State) (h : Same w a s))
    | (intro (h : Same w a _))
    | (intro (s' : State); refine_lift have h : Same w a s' := ?_; ?_; clear_value s')
    | lift_lets
    | with_reducible apply sameO_next
    | with_reducible apply same_ite
    | with_reducible apply sameO_ite
    | with_reducible apply same_onOwl
    | with_reducible apply same_owlReact
    | with_reducible apply same_logEv
    | exact listed_trans hw rfl
    | with_reducible refine same_foldl ?_ (fun s x h => ?_)
    | (intro x'; clear_value x')
    | intro _
    | dsimp only [s']
    | split

theorem same_clearByRow (a0 : ℕ) (a1 : ℕ) (a2 : ℕ) (hw : listed [.pwr, .flt, .owl, .vlk, .log] w = true) (h : Same w a s) :
    Same w a (clearByRow a0 a1 a2 s) := by
  unfold clearByRow
  repeat' first
    | with_reducible assumption
    | (intro (s : State) (h : Same w a s))
    | (intro _ (s : State) (h : Same w a s))
    | (intro (h : Same w a _))
    | (intro (s' : State); refine_lift have h : Same w a s' := ?_; ?_; clear_value s')
    | lift_lets
    | with_reducible apply sameO_next
    | with_reducible apply same_ite
    | with_reducible apply same_logEv
    | with_reducible apply same_clearCauses
    | exact listed_trans hw rfl
    | with_reducible refine same_foldl ?_ (fun s x h => ?_)
    | (intro x'; clear_value x')
    | intro _
    | dsimp only [s']
    | split

theorem same_countClear (a0 : ℕ) (hw : listed [.owl] w = true) (h : Same w a s) :
    Same w a (countClear a0 s) := by
  unfold countClear
  repeat' first
    | with_reducible assumption
    | (intro (s : State) (h : Same w a s))
    | (intro _ (s : State) (h : Same w a s))
    | (intro (h : Same w a _))
    | (intro (s' : State); refine_lift have h : Same w a s' := ?_; ?_; clear_value s')
    | lift_lets
    | with_reducible apply sameO_next
    | with_reducible apply same_ite
    | with_reducible apply same_onCfg
    | exact listed_trans hw rfl
    | with_reducible refine same_foldl ?_ (fun s x h => ?_)
    | (intro x'; clear_value x')
    | intro _
    | dsimp only [s']
    | split

theorem same_execTripAutoclear (a0 : ℕ) (a1 : ℕ) (hw : listed [.pwr, .flt, .owl, .vlk, .log] w = true) (h : Same w a s) :
    SameO w a (execTripAutoclear a0 a1 s) := by
  unfold execTripAutoclear
  repeat' first
    | with_reducible assumption
    | (intro (s : State) (h : Same w a s))
    | (intro _ (s : State) (h : Same w a s))
    | (intro (h : Same w a _))
    | (intro (s' : State); refine_lift have h : Same w a s' := ?_; ?_; clear_value s')
    | lift_lets
    | with_reducible apply sameO_next
    | with_reducible apply same_ite
    | with_reducible apply sameO_ite
    | with_reducible apply same_clearByRow
    | with_reducible apply same_countClear
    | exact listed_trans hw rfl
    | with_reducible refine same_foldl ?_ (fun s x h => ?_)
    | (intro x'; clear_value x')
    | intro _
    | dsimp only [s']
    | split

theorem same_execAutoclrExpiry (a0 : ℕ) (hw : listed [.owl] w = true) (h : Same w a s) :
    SameO w a (execAutoclrExpiry a0 s) := by
  unfold execAutoclrExpiry
  repeat' first
    | with_reducible assumption
    | (intro (s : State) (h : Same w a s))
    | (intro _ (s : State) (h : Same w a s))
    | (intro (h : Same w a _))
    | (intro (s' : State); refine_lift have h : Same w a s' := ?_; ?_; clear_value s')
    | lift_lets
    | with_reducible apply sameO_next
    | with_reducible apply same_ite
    | with_reducible apply sameO_ite
    | with_reducible apply same_onCfg
    | exact listed_trans hw rfl
    | with_reducible refine same_foldl ?_ (fun s x h => ?_)
    | (intro x'; clear_value x')
    | intro _
    | dsimp only [s']
    | split

theorem same_clearAll (a0 : Req) (a1 : ℕ) (hw : listed [.pwr, .flt, .owl, .vlk, .log] w = true) (h : Same w a s) :
    Same w a (clearAll a0 a1 s) := by
  unfold clearAll
  repeat' first
    | with_reducible assumption
    | (intro (s : State) (h : Same w a s))
    | (intro _ (s : State) (h : Same w a s))
    | (intro (h : Same w a _))
    | (intro (s' : State); refine_lift have h : Same w a s' := ?_; ?_; clear_value s')
    | lift_lets
    | with_reducible apply sameO_next
    | with_reducible apply same_ite
    | with_reducible apply same_clearByRow
    | with_reducible apply same_countClear
    | with_reducible apply same_changeEntry
    | exact listed_trans hw rfl
    | with_reducible refine same_foldl ?_ (fun s x h => ?_)
    | (intro x'; clear_value x')
    | intro _
    | dsimp only [s']
    | split

theorem same_execOwlTripClear (a0 : Req) (a1 : ℕ) (hw : listed [.pwr, .flt, .owl, .vlk, .log, .hsi, .result] w = true) (h : Same w a s) :
    SameO w a (execOwlTripClear a0 a1 s) := by
  unfold execOwlTripClear
  repeat' first
    | with_reducible assumption
    | (intro (s : State) (h : Same w a s))
    | (intro _ (s : State) (h : Same w a s))
    | (intro (h : Same w a _))
    | (intro (s' : State); refine_lift have h : Same w a s' := ?_; ?_; clear_value s')
    | lift_lets
    | with_reducible apply sameO_next
    | with_reducible apply same_ite
    | with_reducible apply sameO_ite
    | with_reducible apply same_guarded
    | with_reducible apply same_postSts
    | with_reducible apply same_clearAll
    | exact listed_trans hw rfl
    | with_reducible refine same_foldl ?_ (fun s x h => ?_)
    | (intro x'; clear_value x')
    | intro _
    | dsimp only [s']
    | split

theorem same_logOwlState (a0 : OwlState) (a1 : OwlState) (a2 : ℕ) (hw : listed [.log] w = true) (h : Same w a s) :
    Same w a (logOwlState a0 a1 a2 s) := by
  unfold logOwlState
  repeat' first
    | with_reducible assumption
    | (intro (s : State) (h : Same w a s))
    | (intro _ (s : State) (h : Same w a s))
    | (intro (h : Same w a _))
    | (intro (s' : State); refine_lift have h : Same w a s' := ?_; ?_; clear_value s')
    | lift_lets
    | with_reducible apply sameO_next
    | with_reducible apply same_ite
    | with_reducible apply same_logEv
    | exact listed_trans hw rfl
    | with_reducible refine same_foldl ?_ (fun s x h => ?_)
    | (intro x'; clear_value x')
    | intro _
    | dsimp only [s']
    | split

theorem same_lineDrop  (hw : listed [.met, .pwr, .owl, .vlk, .sys, .mgt, .log] w = true) (h : Same w a s) :
    Same w a (lineDrop s) := by
  unfold lineDrop
  repeat' first
    | with_reducible assumption
    | (intro (s : State) (h : Same w a s))
    | (intro _ (s : State) (h : Same w a s))
    | (intro (h : Same w a _))
    | (intro (s' : State); refine_lift have h : Same w a s' := ?_; ?_; clear_value s')
    | lift_lets
    | with_reducible apply sameO_next
    | with_reducible apply same_ite
    | with_reducible apply same_refreshWithhold
    | with_reducible apply same_withdraw
    | with_reducible apply same_slacChecks
    | with_reducible apply same_assertLine
    | with_reducible apply same_onOwl
    | exact listed_trans hw rfl
    | with_reducible refine same_foldl ?_ (fun s x h => ?_)
    | (intro x'; clear_value x')
    | intro _
    | dsimp only [s']
    | split

theorem same_diagFail (a0 : ℕ) (a1 : ℕ) (hw : listed [.met, .pwr, .owl, .vlk, .sys, .mgt, .log] w = true) (h : Same w a s) :
    Same w a (diagFail a0 a1 s) := by
  unfold diagFail
  repeat' first
    | with_reducible assumption
    | (intro (s : State) (h : Same w a s))
    | (intro _ (s : State) (h : Same w a s))
    | (intro (h : Same w a _))
    | (intro (s' : State); refine_lift have h : Same w a s' := ?_; ?_; clear_value s')
    | lift_lets
    | with_reducible apply sameO_next
    | with_reducible apply same_ite
    | with_reducible apply same_logEv
    | with_reducible apply same_onOwl
    | with_reducible apply same_lineDrop
    | with_reducible apply same_logOwlState
    | exact listed_trans hw rfl
    | with_reducible refine same_foldl ?_ (fun s x h => ?_)
    | (intro x'; clear_value x')
    | intro _
    | dsimp only [s']
    | split

theorem same_cfgDiag (a0 : Bool) (a1 : Bool) (a2 : ℕ) (hw : listed [.met, .pwr, .owl, .vlk, .sys, .mgt, .log] w = true) (h : Same w a s) :
    Same w a (cfgDiag a0 a1 a2 s) := by
  unfold cfgDiag
  repeat' first
    | with_reducible assumption
    | (intro (s : State) (h : Same w a s))
    | (intro _ (s : State) (h : Same w a s))
    | (intro (h : Same w a _))
    | (intro (s' : State); refine_lift have h : Same w a s' := ?_; ?_; clear_value s')
    | lift_lets
    | with_reducible apply sameO_next
    | with_reducible apply same_ite
    | with_reducible apply same_cfgCheck
    | with_reducible apply same_diagFail
    | exact listed_trans hw rfl
    | with_reducible refine same_foldl ?_ (fun s x h => ?_)
    | (intro x'; clear_value x')
    | intro _
    | dsimp only [s']
    | split

theorem same_execOwlDiagFail (a0 : ℕ) (a1 : ℕ) (hw : listed [.met, .pwr, .owl, .vlk, .sys, .mgt, .log] w = true) (h : Same w a s) :
    SameO w a (execOwlDiagFail a0 a1 s) := by
  unfold execOwlDiagFail
  repeat' first
    | with_reducible assumption
    | (intro (s : State) (h : Same w a s))
    | (intro _ (s : State) (h : Same w a s))
    | (intro (h : Same w a _))
    | (intro (s' : State); refine_lift have h : Same w a s' := ?_; ?_; clear_value s')
    | lift_lets
    | with_reducible apply sameO_next
    | with_reducible apply same_ite
    | with_reducible apply sameO_ite
    | with_reducible apply same_cfgDiag
    | with_reducible apply same_diagFail
    | with_reducible apply same_onOwl
    | exact listed_trans hw rfl
    | with_reducible refine same_foldl ?_ (fun s x h => ?_)
    | (intro x'; clear_value x')
    | intro _
    | dsimp only [s']
    | split

theorem same_execOwlPeriodicDiag (a0 : ℕ) (a1 : Bool) (a2 : ℕ) (hw : listed [.met, .pwr, .owl, .vlk, .sys, .mgt, .log] w = true) (h : Same w a s) :
    SameO w a (execOwlPeriodicDiag a0 a1 a2 s) := by
  unfold execOwlPeriodicDiag
  repeat' first
    | with_reducible assumption
    | (intro (s : State) (h : Same w a s))
    | (intro _ (s : State) (h : Same w a s))
    | (intro (h : Same w a _))
    | (intro (s' : State); refine_lift have h : Same w a s' := ?_; ?_; clear_value s')
    | lift_lets
    | with_reducible apply sameO_next
    | with_reducible apply same_ite
    | with_reducible apply sameO_ite
    | with_reducible apply same_onOwl
    | with_reducible apply same_cfgDiag
    | with_reducible apply same_diagFail
    | exact listed_trans hw rfl
    | with_reducible refine same_foldl ?_ (fun s x h => ?_)
    | (intro x'; clear_value x')
    | intro _
    | dsimp only [s']
    | split

theorem same_execOwlWatchdogExpiry  (hw : listed [.met, .pwr, .owl, .vlk, .sys, .mgt, .log] w = true) (h : Same w a s) :
    SameO w a (execOwlWatchdogExpiry s) := by
  unfold execOwlWatchdogExpiry
  repeat' first
    | with_reducible assumption
    | (intro (s : State) (h : Same w a s))
    | (intro _ (s : State) (h : Same w a s))
    | (intro (h : Same w a _))
    | (intro (s' : State); refine_lift have h : Same w a s' := ?_; ?_; clear_value s')
    | lift_lets
    | with_reducible apply sameO_next
    | with_reducible apply same_ite
    | with_reducible apply sameO_ite
    | with_reducible apply same_diagFail
    | with_reducible apply same_onOwl
    | exact listed_trans hw rfl
    | with_reducible refine same_foldl ?_ (fun s x h => ?_)
    | (intro x'; clear_value x')
    | intro _
    | dsimp only [s']
    | split

theorem same_execOwlSafeTimeout  (hw : listed [.owl, .sys, .log] w = true) (h : Same w a s) :
    SameO w a (execOwlSafeTimeout s) := by
  unfold execOwlSafeTimeout
  repeat' first
    | with_reducible assumption
    | (intro (s : State) (h : Same w a s))
    | (intro _ (s : State) (h : Same w a s))
    | (intro (h : Same w a _))
    | (intro (s' : State); refine_lift have h : Same w a s' := ?_; ?_; clear_value s')
    | lift_lets
    | with_reducible apply sameO_next
    | with_reducible apply same_ite
    | with_reducible apply sameO_ite
    | (with_reducible refine same_onSys ?_ ?_ ?_
       rotate_left
       rotate_left
       · intro _; first | exact ⟨rfl, rfl⟩ | (constructor <;> split <;> rfl))
    | with_reducible apply same_onOwl
    | with_reducible apply same_logOwlState
    | exact listed_trans hw rfl
    | with_reducible refine same_foldl ?_ (fun s x h => ?_)
    | (intro x'; clear_value x')
    | intro _
    | dsimp only [s']
    | split

theorem same_owlRestore  (hw : listed [.owl] w = true) (h : Same w a s) :
    Same w a (owlRestore s) := by
  unfold owlRestore
  repeat' first
    | with_reducible assumption
    | (intro (s : State) (h : Same w a s))
    | (intro _ (s : State) (h : Same w a s))
    | (intro (h : Same w a _))
    | (intro (s' : State); refine_lift have h : Same w a s' := ?_; ?_; clear_value s')
    | lift_lets
    | with_reducible apply sameO_next
    | with_reducible apply same_ite
    | with_reducible apply same_onOwl
    | exact listed_trans hw rfl
    | with_reducible refine same_foldl ?_ (fun s x h => ?_)
    | (intro x'; clear_value x')
    | intro _
    | dsimp only [s']
    | split

theorem same_startOutlet (a0 : ℕ) (hw : listed [.pwr, .vlk, .log] w = true) (h : Same w a s) :
    Same w a (startOutlet a0 s) := by
  unfold startOutlet
  repeat' first
    | with_reducible assumption
    | (intro (s : State) (h : Same w a s))
    | (intro _ (s : State) (h : Same w a s))
    | (intro (h : Same w a _))
    | (intro (s' : State); refine_lift have h : Same w a s' := ?_; ?_; clear_value s')
    | lift_lets
    | with_reducible apply sameO_next
    | with_reducible apply same_ite
    | with_reducible apply same_beginPostOpen
    | with_reducible apply same_requestLock
    | exact listed_trans hw rfl
    | with_reducible refine same_foldl ?_ (fun s x h => ?_)
    | (intro x'; clear_value x')
    | intro _
    | dsimp only [s']
    | split

theorem same_execOwlStartComplete  (hw : listed [.met, .pwr, .owl, .vlk, .log] w = true) (h : Same w a s) :
    SameO w a (execOwlStartComplete s) := by
  unfold execOwlStartComplete
  repeat' first
    | with_reducible assumption
    | (intro (s : State) (h : Same w a s))
    | (intro _ (s : State) (h : Same w a s))
    | (intro (h : Same w a _))
    | (intro (s' : State); refine_lift have h : Same w a s' := ?_; ?_; clear_value s')
    | lift_lets
    | with_reducible apply sameO_next
    | with_reducible apply same_ite
    | with_reducible apply sameO_ite
    | with_reducible apply same_owlRestore
    | with_reducible apply same_onOwl
    | with_reducible apply same_logOwlState
    | with_reducible apply same_startOutlet
    | with_reducible apply same_settleAll
    | with_reducible apply same_refreshWithhold
    | with_reducible apply same_offerChanged
    | exact listed_trans hw rfl
    | with_reducible refine same_foldl ?_ (fun s x h => ?_)
    | (intro x'; clear_value x')
    | intro _
    | dsimp only [s']
    | split

theorem same_pwFail (a0 : Req) (hw : listed [.owl, .log] w = true) (h : Same w a s) :
    Same w a (pwFail a0 s) := by
  unfold pwFail
  repeat' first
    | with_reducible assumption
    | (intro (s : State) (h : Same w a s))
    | (intro _ (s : State) (h : Same w a s))
    | (intro (h : Same w a _))
    | (intro (s' : State); refine_lift have h : Same w a s' := ?_; ?_; clear_value s')
    | lift_lets
    | with_reducible apply sameO_next
    | with_reducible apply same_ite
    | with_reducible apply same_logEv
    | with_reducible apply same_onCfg
    | exact listed_trans hw rfl
    | with_reducible refine same_foldl ?_ (fun s x h => ?_)
    | (intro x'; clear_value x')
    | intro _
    | dsimp only [s']
    | split

theorem same_pwSuccess  (hw : listed [.owl] w = true) (h : Same w a s) :
    Same w a (pwSuccess s) := by
  unfold pwSuccess
  repeat' first
    | with_reducible assumption
    | (intro (s : State) (h : Same w a s))
    | (intro _ (s : State) (h : Same w a s))
    | (intro (h : Same w a _))
    | (intro (s' : State); refine_lift have h : Same w a s' := ?_; ?_; clear_value s')
    | lift_lets
    | with_reducible apply sameO_next
    | with_reducible apply same_ite
    | with_reducible apply same_onCfg
    | exact listed_trans hw rfl
    | with_reducible refine same_foldl ?_ (fun s x h => ?_)
    | (intro x'; clear_value x')
    | intro _
    | dsimp only [s']
    | split

theorem same_execOwlPwProve (a0 : Req) (a1 : Bytes) (hw : listed [.owl, .log, .hsi, .result] w = true) (h : Same w a s) :
    SameO w a (execOwlPwProve a0 a1 s) := by
  unfold execOwlPwProve
  repeat' first
    | with_reducible assumption
    | (intro (s : State) (h : Same w a s))
    | (intro _ (s : State) (h : Same w a s))
    | (intro (h : Same w a _))
    | (intro (s' : State); refine_lift have h : Same w a s' := ?_; ?_; clear_value s')
    | lift_lets
    | with_reducible apply sameO_next
    | with_reducible apply same_ite
    | with_reducible apply sameO_ite
    | with_reducible apply same_guarded
    | with_reducible apply same_postSts
    | with_reducible apply same_onOwl
    | with_reducible apply same_pwSuccess
    | with_reducible apply same_pwFail
    | exact listed_trans hw rfl
    | with_reducible refine same_foldl ?_ (fun s x h => ?_)
    | (intro x'; clear_value x')
    | intro _
    | dsimp only [s']
    | split

theorem same_setVerifier (a0 : Bytes) (hw : listed [.owl, .freeCtr] w = true) (h : Same w a s) :
    Same w a (setVerifier a0 s) := by
  unfold setVerifier
  repeat' first
    | with_reducible assumption
    | (intro (s : State) (h : Same w a s))
    | (intro _ (s : State) (h : Same w a s))
    | (intro (h : Same w a _))
    | (intro (s' : State); refine_lift have h : Same w a s' := ?_; ?_; clear_value s')
    | lift_lets
    | with_reducible apply sameO_next
    | with_reducible apply same_ite
    | with_reducible apply same_bump
    | with_reducible apply same_onCfg
    | exact listed_trans hw rfl
    | with_reducible refine same_foldl ?_ (fun s x h => ?_)
    | (intro x'; clear_value x')
    | intro _
    | dsimp only [s']
    | split

theorem same_execOwlPwSet (a0 : Req) (a1 : Bytes) (a2 : Bytes) (hw : listed [.owl, .log, .hsi, .freeCtr, .result] w = true) (h : Same w a s) :
    SameO w a (execOwlPwSet a0 a1 a2 s) := by
  unfold execOwlPwSet
  repeat' first
    | with_reducible assumption
    | (intro (s : State) (h : Same w a s))
    | (intro _ (s : State) (h : Same w a s))
    | (intro (h : Same w a _))
    | (intro (s' : State); refine_lift have h : Same w a s' := ?_; ?_; clear_value s')
    | lift_lets
    | with_reducible apply sameO_next
    | with_reducible apply same_ite
    | with_reducible apply sameO_ite
    | with_reducible apply same_guarded
    | with_reducible apply same_postSts
    | with_reducible apply same_pwFail
    | with_reducible apply same_changeEntry
    | with_reducible apply same_setVerifier
    | with_reducible apply same_pwSuccess
    | exact listed_trans hw rfl
    | with_reducible refine same_foldl ?_ (fun s x h => ?_)
    | (intro x'; clear_value x')
    | intro _
    | dsimp only [s']
    | split

theorem same_execOwlPwEnd (a0 : Req) (hw : listed [.owl, .hsi, .result] w = true) (h : Same w a s) :
    SameO w a (execOwlPwEnd a0 s) := by
  unfold execOwlPwEnd
  repeat' first
    | with_reducible assumption
    | (intro (s : State) (h : Same w a s))
    | (intro _ (s : State) (h : Same w a s))
    | (intro (h : Same w a _))
    | (intro (s' : State); refine_lift have h : Same w a s' := ?_; ?_; clear_value s')
    | lift_lets
    | with_reducible apply sameO_next
    | with_reducible apply same_ite
    | with_reducible apply sameO_ite
    | with_reducible apply same_guarded
    | with_reducible apply same_postSts
    | with_reducible apply same_onOwl
    | exact listed_trans hw rfl
    | with_reducible refine same_foldl ?_ (fun s x h => ?_)
    | (intro x'; clear_value x')
    | intro _
    | dsimp only [s']
    | split

theorem same_execSafetySessionExpiry  (hw : listed [.owl] w = true) (h : Same w a s) :
    SameO w a (execSafetySessionExpiry s) := by
  unfold execSafetySessionExpiry
  repeat' first
    | with_reducible assumption
    | (intro (s : State) (h : Same w a s))
    | (intro _ (s : State) (h : Same w a s))
    | (intro (h : Same w a _))
    | (intro (s' : State); refine_lift have h : Same w a s' := ?_; ?_; clear_value s')
    | lift_lets
    | with_reducible apply sameO_next
    | with_reducible apply same_ite
    | with_reducible apply sameO_ite
    | with_reducible apply same_onOwl
    | exact listed_trans hw rfl
    | with_reducible refine same_foldl ?_ (fun s x h => ?_)
    | (intro x'; clear_value x')
    | intro _
    | dsimp only [s']
    | split

theorem same_execPwLockoutEnd  (hw : listed [.owl] w = true) (h : Same w a s) :
    SameO w a (execPwLockoutEnd s) := by
  unfold execPwLockoutEnd
  repeat' first
    | with_reducible assumption
    | (intro (s : State) (h : Same w a s))
    | (intro _ (s : State) (h : Same w a s))
    | (intro (h : Same w a _))
    | (intro (s' : State); refine_lift have h : Same w a s' := ?_; ?_; clear_value s')
    | lift_lets
    | with_reducible apply sameO_next
    | with_reducible apply same_ite
    | with_reducible apply sameO_ite
    | with_reducible apply same_onCfg
    | exact listed_trans hw rfl
    | with_reducible refine same_foldl ?_ (fun s x h => ?_)
    | (intro x'; clear_value x')
    | intro _
    | dsimp only [s']
    | split

theorem same_execOwlLogRead (a0 : Req) (a1 : ℕ) (hw : listed [.hsi, .result] w = true) (h : Same w a s) :
    SameO w a (execOwlLogRead a0 a1 s) := by
  unfold execOwlLogRead
  repeat' first
    | with_reducible assumption
    | (intro (s : State) (h : Same w a s))
    | (intro _ (s : State) (h : Same w a s))
    | (intro (h : Same w a _))
    | (intro (s' : State); refine_lift have h : Same w a s' := ?_; ?_; clear_value s')
    | lift_lets
    | with_reducible apply sameO_next
    | with_reducible apply same_ite
    | with_reducible apply sameO_ite
    | with_reducible apply same_guarded
    | with_reducible apply same_post
    | exact listed_trans hw rfl
    | with_reducible refine same_foldl ?_ (fun s x h => ?_)
    | (intro x'; clear_value x')
    | intro _
    | dsimp only [s']
    | split

end Sys2Proof.Machine
end

