-- ==== Sys2Proof/Laws/FrameEfdom.lean ====
section
/-! SUPPORT. Which parts of the state the operations of Efdom.lean write. -/

set_option linter.unusedVariables false
set_option linter.unreachableTactic false
set_option linter.unusedTactic false

namespace Sys2Proof.Machine

variable {w : List Part} {a s : State}

theorem same_onConn (a0 : ℕ) (a1 : EfdomConn → EfdomConn) (hw : listed [.owl] w = true) (h : Same w a s) :
    Same w a (onConn a0 a1 s) := by
  unfold onConn
  repeat' first
    | with_reducible assumption
    | (intro (s : State) (h : Same w a s))
    | (intro _ (s : State) (h : Same w a s))
    | (intro (h : Same w a _))
    | (intro (s' : State); refine_lift have h : Same w a s' := ?_; ?_; clear_value s')
    | lift_lets
    | with_reducible apply sameO_next
    | with_reducible apply same_ite
    | with_reducible apply same_onOwl
    | exact listed_trans hw rfl
    | with_reducible refine same_foldl ?_ (fun s x h => ?_)
    | (intro x'; clear_value x')
    | intro _
    | dsimp only [s']
    | split

theorem same_setConn (a0 : ℕ) (a1 : EfdomState) (a2 : ℕ) (hw : listed [.owl, .log] w = true) (h : Same w a s) :
    Same w a (setConn a0 a1 a2 s) := by
  unfold setConn
  repeat' first
    | with_reducible assumption
    | (intro (s : State) (h : Same w a s))
    | (intro _ (s : State) (h : Same w a s))
    | (intro (h : Same w a _))
    | (intro (s' : State); refine_lift have h : Same w a s' := ?_; ?_; clear_value s')
    | lift_lets
    | with_reducible apply sameO_next
    | with_reducible apply same_ite
    | with_reducible apply same_logEv
    | with_reducible apply same_onConn
    | exact listed_trans hw rfl
    | with_reducible refine same_foldl ?_ (fun s x h => ?_)
    | (intro x'; clear_value x')
    | intro _
    | dsimp only [s']
    | split

theorem same_staleDiscard (a0 : ℕ) (hw : listed [.owl] w = true) (h : Same w a s) :
    Same w a (staleDiscard a0 s) := by
  unfold staleDiscard
  repeat' first
    | with_reducible assumption
    | (intro (s : State) (h : Same w a s))
    | (intro _ (s : State) (h : Same w a s))
    | (intro (h : Same w a _))
    | (intro (s' : State); refine_lift have h : Same w a s' := ?_; ?_; clear_value s')
    | lift_lets
    | with_reducible apply sameO_next
    | with_reducible apply same_ite
    | with_reducible apply same_onConn
    | exact listed_trans hw rfl
    | with_reducible refine same_foldl ?_ (fun s x h => ?_)
    | (intro x'; clear_value x')
    | intro _
    | dsimp only [s']
    | split

theorem same_acceptFrame (a0 : ℕ) (a1 : ℕ) (a2 : ℕ) (a3 : ℕ) (hw : listed [.owl] w = true) (h : Same w a s) :
    Same w a (acceptFrame a0 a1 a2 a3 s) := by
  unfold acceptFrame
  repeat' first
    | with_reducible assumption
    | (intro (s : State) (h : Same w a s))
    | (intro _ (s : State) (h : Same w a s))
    | (intro (h : Same w a _))
    | (intro (s' : State); refine_lift have h : Same w a s' := ?_; ?_; clear_value s')
    | lift_lets
    | with_reducible apply sameO_next
    | with_reducible apply same_ite
    | with_reducible apply same_onConn
    | exact listed_trans hw rfl
    | with_reducible refine same_foldl ?_ (fun s x h => ?_)
    | (intro x'; clear_value x')
    | intro _
    | dsimp only [s']
    | split

theorem same_receiveOn (a0 : ℕ) (a1 : Bytes) (hw : listed [.owl, .log] w = true) (h : Same w a s) :
    Same w a (receiveOn a0 a1 s) := by
  unfold receiveOn
  repeat' first
    | with_reducible assumption
    | (intro (s : State) (h : Same w a s))
    | (intro _ (s : State) (h : Same w a s))
    | (intro (h : Same w a _))
    | (intro (s' : State); refine_lift have h : Same w a s' := ?_; ?_; clear_value s')
    | lift_lets
    | with_reducible apply sameO_next
    | with_reducible apply same_ite
    | with_reducible apply same_onConn
    | with_reducible apply same_setConn
    | with_reducible apply same_acceptFrame
    | with_reducible apply same_staleDiscard
    | with_reducible apply same_logEv
    | exact listed_trans hw rfl
    | with_reducible refine same_foldl ?_ (fun s x h => ?_)
    | (intro x'; clear_value x')
    | intro _
    | dsimp only [s']
    | split

theorem same_countAnon (a0 : ℕ) (a1 : EfdomConn → EfdomConn) (hw : listed [.owl, .freeCtr] w = true) (h : Same w a s) :
    Same w a (countAnon a0 a1 s) := by
  unfold countAnon
  repeat' first
    | with_reducible assumption
    | (intro (s : State) (h : Same w a s))
    | (intro _ (s : State) (h : Same w a s))
    | (intro (h : Same w a _))
    | (intro (s' : State); refine_lift have h : Same w a s' := ?_; ?_; clear_value s')
    | lift_lets
    | with_reducible apply sameO_next
    | with_reducible apply same_ite
    | with_reducible apply same_bump
    | with_reducible apply same_onConn
    | exact listed_trans hw rfl
    | with_reducible refine same_foldl ?_ (fun s x h => ?_)
    | (intro x'; clear_value x')
    | intro _
    | dsimp only [s']
    | split

theorem same_efdomReceive (a0 : ℕ) (a1 : Bytes) (hw : listed [.owl, .log, .freeCtr] w = true) (h : Same w a s) :
    Same w a (efdomReceive a0 a1 s) := by
  unfold efdomReceive
  repeat' first
    | with_reducible assumption
    | (intro (s : State) (h : Same w a s))
    | (intro _ (s : State) (h : Same w a s))
    | (intro (h : Same w a _))
    | (intro (s' : State); refine_lift have h : Same w a s' := ?_; ?_; clear_value s')
    | lift_lets
    | with_reducible apply sameO_next
    | with_reducible apply same_ite
    | with_reducible apply same_countAnon
    | with_reducible apply same_receiveOn
    | with_reducible apply same_logEv
    | with_reducible apply same_onOwl
    | exact listed_trans hw rfl
    | with_reducible refine same_foldl ?_ (fun s x h => ?_)
    | (intro x'; clear_value x')
    | intro _
    | dsimp only [s']
    | split

theorem same_execEfdomFrameReceive (a0 : ℕ) (a1 : Bytes) (hw : listed [.owl, .log, .freeCtr] w = true) (h : Same w a s) :
    SameO w a (execEfdomFrameReceive a0 a1 s) := by
  unfold execEfdomFrameReceive
  repeat' first
    | with_reducible assumption
    | (intro (s : State) (h : Same w a s))
    | (intro _ (s : State) (h : Same w a s))
    | (intro (h : Same w a _))
    | (intro (s' : State); refine_lift have h : Same w a s' := ?_; ?_; clear_value s')
    | lift_lets
    | with_reducible apply sameO_next
    | with_reducible apply same_ite
    | with_reducible apply sameO_ite
    | with_reducible apply same_efdomReceive
    | exact listed_trans hw rfl
    | with_reducible refine same_foldl ?_ (fun s x h => ?_)
    | (intro x'; clear_value x')
    | intro _
    | dsimp only [s']
    | split

theorem same_execEfdomWatchdogExpiry (a0 : ℕ) (hw : listed [.owl, .log] w = true) (h : Same w a s) :
    SameO w a (execEfdomWatchdogExpiry a0 s) := by
  unfold execEfdomWatchdogExpiry
  repeat' first
    | with_reducible assumption
    | (intro (s : State) (h : Same w a s))
    | (intro _ (s : State) (h : Same w a s))
    | (intro (h : Same w a _))
    | (intro (s' : State); refine_lift have h : Same w a s' := ?_; ?_; clear_value s')
    | lift_lets
    | with_reducible apply sameO_next
    | with_reducible apply same_ite
    | with_reducible apply sameO_ite
    | with_reducible apply same_setConn
    | with_reducible apply same_onConn
    | exact listed_trans hw rfl
    | with_reducible refine same_foldl ?_ (fun s x h => ?_)
    | (intro x'; clear_value x')
    | intro _
    | dsimp only [s']
    | split

theorem same_handOver (a0 : EfdomRec) (a1 : Bytes) (hw : listed [.glk, .eth, .can, .freeCtr] w = true) (h : Same w a s) :
    Same w a (handOver a0 a1 s) := by
  unfold handOver
  repeat' first
    | with_reducible assumption
    | (intro (s : State) (h : Same w a s))
    | (intro _ (s : State) (h : Same w a s))
    | (intro (h : Same w a _))
    | (intro (s' : State); refine_lift have h : Same w a s' := ?_; ?_; clear_value s')
    | lift_lets
    | with_reducible apply sameO_next
    | with_reducible apply same_ite
    | with_reducible apply same_bump
    | with_reducible apply same_onCan
    | with_reducible apply same_onEth
    | with_reducible apply same_onGlk
    | exact listed_trans hw rfl
    | with_reducible refine same_foldl ?_ (fun s x h => ?_)
    | (intro x'; clear_value x')
    | intro _
    | dsimp only [s']
    | split

theorem same_execEfdomTransmit (a0 : ℕ) (hw : listed [.owl, .glk, .eth, .can, .freeCtr] w = true) (h : Same w a s) :
    SameO w a (execEfdomTransmit a0 s) := by
  unfold execEfdomTransmit
  repeat' first
    | with_reducible assumption
    | (intro (s : State) (h : Same w a s))
    | (intro _ (s : State) (h : Same w a s))
    | (intro (h : Same w a _))
    | (intro (s' : State); refine_lift have h : Same w a s' := ?_; ?_; clear_value s')
    | lift_lets
    | with_reducible apply sameO_next
    | with_reducible apply same_ite
    | with_reducible apply sameO_ite
    | with_reducible apply same_bump
    | with_reducible apply same_handOver
    | with_reducible apply same_onConn
    | exact listed_trans hw rfl
    | with_reducible refine same_foldl ?_ (fun s x h => ?_)
    | (intro x'; clear_value x')
    | intro _
    | dsimp only [s']
    | split

theorem same_execOwlEfdomSet (a0 : Req) (a1 : Bytes) (hw : listed [.owl, .log, .hsi, .result] w = true) (h : Same w a s) :
    SameO w a (execOwlEfdomSet a0 a1 s) := by
  unfold execOwlEfdomSet
  repeat' first
    | with_reducible assumption
    | (intro (s : State) (h : Same w a s))
    | (intro _ (s : State) (h : Same w a s))
    | (intro (h : Same w a _))
    | (intro (s' : State); refine_lift have h : Same w a s' := ?_; ?_; clear_value s')
    | lift_lets
    | with_reducible apply sameO_next
    | with_reducible apply same_ite
    | with_reducible apply sameO_ite
    | with_reducible apply same_guarded
    | with_reducible apply same_onCfg
    | with_reducible apply same_onConn
    | with_reducible apply same_postSts
    | with_reducible apply same_changeEntry
    | exact listed_trans hw rfl
    | with_reducible refine same_foldl ?_ (fun s x h => ?_)
    | (intro x'; clear_value x')
    | intro _
    | dsimp only [s']
    | split

end Sys2Proof.Machine
end

