-- ==== Sys2Proof/Laws/FrameFrames.lean ====
section
/-! SUPPORT. Which parts of the state the operations of Frames.lean write. -/

set_option linter.unusedVariables false
set_option linter.unreachableTactic false
set_option linter.unusedTactic false

namespace Sys2Proof.Machine

variable {w : List Part} {a s : State}

theorem same_onRings (a0 : Port) (a1 : Rings → Rings) (hw : listed [portPart a0] w = true) (h : Same w a s) :
    Same w a (onRings a0 a1 s) := by
  cases a0
  all_goals
   unfold onRings
  repeat' first
    | with_reducible assumption
    | (intro (s : State) (h : Same w a s))
    | (intro _ (s : State) (h : Same w a s))
    | (intro (h : Same w a _))
    | (intro (s' : State); refine_lift have h : Same w a s' := ?_; ?_; clear_value s')
    | lift_lets
    | with_reducible apply sameO_next
    | with_reducible apply same_ite
    | with_reducible apply same_onLink
    | with_reducible apply same_onGlk
    | with_reducible apply same_onEth
    | with_reducible apply same_onCan
    | exact listed_trans hw rfl
    | (refine listed_mem hw ?_; simp; done)
    | (cases x <;> exact listed_trans hw rfl)
    | with_reducible refine same_foldl ?_ (fun s x h => ?_)
    | (intro x'; clear_value x')
    | intro _
    | dsimp only [s']
    | split

theorem same_sramPut (a0 : ℕ) (a1 : Bytes) (hw : listed [.sram] w = true) (h : Same w a s) :
    Same w a (sramPut a0 a1 s) := by
  exact same_sram hw h

theorem same_txDone (a0 : Port) (a1 : ℕ) (hw : listed [portPart a0, .sram] w = true) (h : Same w a s) :
    Same w a (txDone a0 a1 s) := by
  unfold txDone
  repeat' first
    | with_reducible assumption
    | (intro (s : State) (h : Same w a s))
    | (intro _ (s : State) (h : Same w a s))
    | (intro (h : Same w a _))
    | (intro (s' : State); refine_lift have h : Same w a s' := ?_; ?_; clear_value s')
    | lift_lets
    | with_reducible apply sameO_next
    | with_reducible apply same_ite
    | with_reducible apply same_sramPut
    | with_reducible apply same_onRings
    | exact listed_trans hw rfl
    | (refine listed_mem hw ?_; simp; done)
    | (cases x <;> exact listed_trans hw rfl)
    | with_reducible refine same_foldl ?_ (fun s x h => ?_)
    | (intro x'; clear_value x')
    | intro _
    | dsimp only [s']
    | split

theorem same_txStamp (a0 : Port) (a1 : ℕ) (hw : listed [.sram] w = true) (h : Same w a s) :
    Same w a (txStamp a0 a1 s) := by
  unfold txStamp
  repeat' first
    | with_reducible assumption
    | (intro (s : State) (h : Same w a s))
    | (intro _ (s : State) (h : Same w a s))
    | (intro (h : Same w a _))
    | (intro (s' : State); refine_lift have h : Same w a s' := ?_; ?_; clear_value s')
    | lift_lets
    | with_reducible apply sameO_next
    | with_reducible apply same_ite
    | with_reducible apply same_sramPut
    | exact listed_trans hw rfl
    | with_reducible refine same_foldl ?_ (fun s x h => ?_)
    | (intro x'; clear_value x')
    | intro _
    | dsimp only [s']
    | split

theorem same_ptpCapture (a0 : Port) (a1 : Bool) (a2 : Bytes) (hw : listed [.tim, .log] w = true) (h : Same w a s) :
    Same w a (ptpCapture a0 a1 a2 s) := by
  unfold ptpCapture
  repeat' first
    | with_reducible assumption
    | (intro (s : State) (h : Same w a s))
    | (intro _ (s : State) (h : Same w a s))
    | (intro (h : Same w a _))
    | (intro (s' : State); refine_lift have h : Same w a s' := ?_; ?_; clear_value s')
    | lift_lets
    | with_reducible apply sameO_next
    | with_reducible apply same_ite
    | with_reducible apply same_capturePtp
    | exact listed_trans hw rfl
    | with_reducible refine same_foldl ?_ (fun s x h => ?_)
    | (intro x'; clear_value x')
    | intro _
    | dsimp only [s']
    | split

theorem same_onNb (a0 : ℕ) (a1 : Neighbour → Neighbour) (hw : listed [.glk] w = true) (h : Same w a s) :
    Same w a (onNb a0 a1 s) := by
  unfold onNb
  repeat' first
    | with_reducible assumption
    | (intro (s : State) (h : Same w a s))
    | (intro _ (s : State) (h : Same w a s))
    | (intro (h : Same w a _))
    | (intro (s' : State); refine_lift have h : Same w a s' := ?_; ?_; clear_value s')
    | lift_lets
    | with_reducible apply sameO_next
    | with_reducible apply same_ite
    | with_reducible apply same_onGlk
    | exact listed_trans hw rfl
    | with_reducible refine same_foldl ?_ (fun s x h => ?_)
    | (intro x'; clear_value x')
    | intro _
    | dsimp only [s']
    | split

theorem same_removeNb (a0 : ℕ) (hw : listed [.glk] w = true) (h : Same w a s) :
    Same w a (removeNb a0 s) := by
  unfold removeNb
  repeat' first
    | with_reducible assumption
    | (intro (s : State) (h : Same w a s))
    | (intro _ (s : State) (h : Same w a s))
    | (intro (h : Same w a _))
    | (intro (s' : State); refine_lift have h : Same w a s' := ?_; ?_; clear_value s')
    | lift_lets
    | with_reducible apply sameO_next
    | with_reducible apply same_ite
    | with_reducible apply same_onGlk
    | exact listed_trans hw rfl
    | with_reducible refine same_foldl ?_ (fun s x h => ?_)
    | (intro x'; clear_value x')
    | intro _
    | dsimp only [s']
    | split

theorem same_enter (a0 : ℕ) (a1 : ℕ) (a2 : Bool) (hw : listed [.glk, .log] w = true) (h : Same w a s) :
    Same w a (enter a0 a1 a2 s) := by
  unfold enter
  repeat' first
    | with_reducible assumption
    | (intro (s : State) (h : Same w a s))
    | (intro _ (s : State) (h : Same w a s))
    | (intro (h : Same w a _))
    | (intro (s' : State); refine_lift have h : Same w a s' := ?_; ?_; clear_value s')
    | lift_lets
    | with_reducible apply sameO_next
    | with_reducible apply same_ite
    | with_reducible apply same_onGlk
    | with_reducible apply same_removeNb
    | with_reducible apply same_logEv
    | exact listed_trans hw rfl
    | with_reducible refine same_foldl ?_ (fun s x h => ?_)
    | (intro x'; clear_value x')
    | intro _
    | dsimp only [s']
    | split

theorem same_hear (a0 : ℕ) (a1 : Option ℕ) (a2 : Bool) (hw : listed [.glk, .log] w = true) (h : Same w a s) :
    Same w a (hear a0 a1 a2 s) := by
  unfold hear
  repeat' first
    | with_reducible assumption
    | (intro (s : State) (h : Same w a s))
    | (intro _ (s : State) (h : Same w a s))
    | (intro (h : Same w a _))
    | (intro (s' : State); refine_lift have h : Same w a s' := ?_; ?_; clear_value s')
    | lift_lets
    | with_reducible apply sameO_next
    | with_reducible apply same_ite
    | with_reducible apply same_onNb
    | with_reducible apply same_enter
    | exact listed_trans hw rfl
    | with_reducible refine same_foldl ?_ (fun s x h => ?_)
    | (intro x'; clear_value x')
    | intro _
    | dsimp only [s']
    | split

theorem same_glkSend (a0 : ℕ) (a1 : Bytes) (hw : listed [.glk] w = true) (h : Same w a s) :
    Same w a (glkSend a0 a1 s) := by
  unfold glkSend
  repeat' first
    | with_reducible assumption
    | (intro (s : State) (h : Same w a s))
    | (intro _ (s : State) (h : Same w a s))
    | (intro (h : Same w a _))
    | (intro (s' : State); refine_lift have h : Same w a s' := ?_; ?_; clear_value s')
    | lift_lets
    | with_reducible apply sameO_next
    | with_reducible apply same_ite
    | with_reducible apply same_onGlk
    | exact listed_trans hw rfl
    | with_reducible refine same_foldl ?_ (fun s x h => ?_)
    | (intro x'; clear_value x')
    | intro _
    | dsimp only [s']
    | split

theorem same_requestMap (a0 : ℕ) (hw : listed [.glk] w = true) (h : Same w a s) :
    Same w a (requestMap a0 s) := by
  unfold requestMap
  repeat' first
    | with_reducible assumption
    | (intro (s : State) (h : Same w a s))
    | (intro _ (s : State) (h : Same w a s))
    | (intro (h : Same w a _))
    | (intro (s' : State); refine_lift have h : Same w a s' := ?_; ?_; clear_value s')
    | lift_lets
    | with_reducible apply sameO_next
    | with_reducible apply same_ite
    | with_reducible apply same_glkSend
    | with_reducible apply same_onNb
    | exact listed_trans hw rfl
    | with_reducible refine same_foldl ?_ (fun s x h => ?_)
    | (intro x'; clear_value x')
    | intro _
    | dsimp only [s']
    | split

theorem same_wantMap (a0 : ℕ) (hw : listed [.glk] w = true) (h : Same w a s) :
    Same w a (wantMap a0 s) := by
  unfold wantMap
  repeat' first
    | with_reducible assumption
    | (intro (s : State) (h : Same w a s))
    | (intro _ (s : State) (h : Same w a s))
    | (intro (h : Same w a _))
    | (intro (s' : State); refine_lift have h : Same w a s' := ?_; ?_; clear_value s')
    | lift_lets
    | with_reducible apply sameO_next
    | with_reducible apply same_ite
    | with_reducible apply same_requestMap
    | with_reducible apply same_onNb
    | exact listed_trans hw rfl
    | with_reducible refine same_foldl ?_ (fun s x h => ?_)
    | (intro x'; clear_value x')
    | intro _
    | dsimp only [s']
    | split

theorem same_queueHead (a0 : Port) (hw : listed [portPart a0] w = true) (h : Same w a s) :
    Same w a (queueHead a0 s) := by
  cases a0
  all_goals
   unfold queueHead
  repeat' first
    | with_reducible assumption
    | (intro (s : State) (h : Same w a s))
    | (intro _ (s : State) (h : Same w a s))
    | (intro (h : Same w a _))
    | (intro (s' : State); refine_lift have h : Same w a s' := ?_; ?_; clear_value s')
    | lift_lets
    | with_reducible apply sameO_next
    | with_reducible apply same_ite
    | with_reducible apply same_wantMap
    | exact listed_trans hw rfl
    | (refine listed_mem hw ?_; simp; done)
    | (cases x <;> exact listed_trans hw rfl)
    | with_reducible refine same_foldl ?_ (fun s x h => ?_)
    | (intro x'; clear_value x')
    | intro _
    | dsimp only [s']
    | split

theorem same_pumpTx (a0 : Port) (a1 : ℕ) (hw : listed [portPart a0, .sram] w = true) (h : Same w a s) :
    Same w a (pumpTx a0 a1 s) := by
  induction a1 generalizing  s with
  | zero => exact h
  | succ n ih =>
  simp only [pumpTx]
  repeat' first
    | with_reducible assumption
    | (intro (s : State) (h : Same w a s))
    | (intro _ (s : State) (h : Same w a s))
    | (intro (h : Same w a _))
    | (intro (s' : State); refine_lift have h : Same w a s' := ?_; ?_; clear_value s')
    | lift_lets
    | with_reducible apply sameO_next
    | with_reducible apply same_ite
    | with_reducible apply same_queueHead
    | with_reducible apply same_txDone
    | with_reducible apply ih
    | exact listed_trans hw rfl
    | (refine listed_mem hw ?_; simp; done)
    | (cases x <;> exact listed_trans hw rfl)
    | with_reducible refine same_foldl ?_ (fun s x h => ?_)
    | (intro x'; clear_value x')
    | intro _
    | dsimp only [s']
    | split

theorem same_pump (a0 : Port) (hw : listed [portPart a0, .sram] w = true) (h : Same w a s) :
    Same w a (pump a0 s) := by
  unfold pump
  repeat' first
    | with_reducible assumption
    | (intro (s : State) (h : Same w a s))
    | (intro _ (s : State) (h : Same w a s))
    | (intro (h : Same w a _))
    | (intro (s' : State); refine_lift have h : Same w a s' := ?_; ?_; clear_value s')
    | lift_lets
    | with_reducible apply sameO_next
    | with_reducible apply same_ite
    | with_reducible apply same_pumpTx
    | exact listed_trans hw rfl
    | (refine listed_mem hw ?_; simp; done)
    | (cases x <;> exact listed_trans hw rfl)
    | with_reducible refine same_foldl ?_ (fun s x h => ?_)
    | (intro x'; clear_value x')
    | intro _
    | dsimp only [s']
    | split

theorem same_txTailWrite (a0 : Port) (a1 : ℕ) (hw : listed [portPart a0, .sram] w = true) (h : Same w a s) :
    Same w a (txTailWrite a0 a1 s) := by
  unfold txTailWrite
  repeat' first
    | with_reducible assumption
    | (intro (s : State) (h : Same w a s))
    | (intro _ (s : State) (h : Same w a s))
    | (intro (h : Same w a _))
    | (intro (s' : State); refine_lift have h : Same w a s' := ?_; ?_; clear_value s')
    | lift_lets
    | with_reducible apply sameO_next
    | with_reducible apply same_ite
    | with_reducible apply same_pump
    | with_reducible apply same_onRings
    | exact listed_trans hw rfl
    | (refine listed_mem hw ?_; simp; done)
    | (cases x <;> exact listed_trans hw rfl)
    | with_reducible refine same_foldl ?_ (fun s x h => ?_)
    | (intro x'; clear_value x')
    | intro _
    | dsimp only [s']
    | split

theorem same_execFrameTxTailWrite (a0 : Port) (a1 : Word) (hw : listed [portPart a0, .sram] w = true) (h : Same w a s) :
    SameO w a (execFrameTxTailWrite a0 a1 s) := by
  unfold execFrameTxTailWrite
  repeat' first
    | with_reducible assumption
    | (intro (s : State) (h : Same w a s))
    | (intro _ (s : State) (h : Same w a s))
    | (intro (h : Same w a _))
    | (intro (s' : State); refine_lift have h : Same w a s' := ?_; ?_; clear_value s')
    | lift_lets
    | with_reducible apply sameO_next
    | with_reducible apply same_ite
    | with_reducible apply sameO_ite
    | with_reducible apply same_txTailWrite
    | exact listed_trans hw rfl
    | (refine listed_mem hw ?_; simp; done)
    | (cases x <;> exact listed_trans hw rfl)
    | with_reducible refine same_foldl ?_ (fun s x h => ?_)
    | (intro x'; clear_value x')
    | intro _
    | dsimp only [s']
    | split

theorem same_rxTailWrite (a0 : Port) (a1 : ℕ) (hw : listed [portPart a0] w = true) (h : Same w a s) :
    Same w a (rxTailWrite a0 a1 s) := by
  unfold rxTailWrite
  repeat' first
    | with_reducible assumption
    | (intro (s : State) (h : Same w a s))
    | (intro _ (s : State) (h : Same w a s))
    | (intro (h : Same w a _))
    | (intro (s' : State); refine_lift have h : Same w a s' := ?_; ?_; clear_value s')
    | lift_lets
    | with_reducible apply sameO_next
    | with_reducible apply same_ite
    | with_reducible apply same_onRings
    | exact listed_trans hw rfl
    | (refine listed_mem hw ?_; simp; done)
    | (cases x <;> exact listed_trans hw rfl)
    | with_reducible refine same_foldl ?_ (fun s x h => ?_)
    | (intro x'; clear_value x')
    | intro _
    | dsimp only [s']
    | split

theorem same_execFrameRxTailWrite (a0 : Port) (a1 : Word) (hw : listed [portPart a0] w = true) (h : Same w a s) :
    SameO w a (execFrameRxTailWrite a0 a1 s) := by
  unfold execFrameRxTailWrite
  repeat' first
    | with_reducible assumption
    | (intro (s : State) (h : Same w a s))
    | (intro _ (s : State) (h : Same w a s))
    | (intro (h : Same w a _))
    | (intro (s' : State); refine_lift have h : Same w a s' := ?_; ?_; clear_value s')
    | lift_lets
    | with_reducible apply sameO_next
    | with_reducible apply same_ite
    | with_reducible apply sameO_ite
    | with_reducible apply same_rxTailWrite
    | exact listed_trans hw rfl
    | (refine listed_mem hw ?_; simp; done)
    | (cases x <;> exact listed_trans hw rfl)
    | with_reducible refine same_foldl ?_ (fun s x h => ?_)
    | (intro x'; clear_value x')
    | intro _
    | dsimp only [s']
    | split

theorem same_efdomSent (a0 : Port) (hw : listed [portPart a0] w = true) (h : Same w a s) :
    Same w a (efdomSent a0 s) := by
  cases a0
  all_goals
   unfold efdomSent
  repeat' first
    | with_reducible assumption
    | (intro (s : State) (h : Same w a s))
    | (intro _ (s : State) (h : Same w a s))
    | (intro (h : Same w a _))
    | (intro (s' : State); refine_lift have h : Same w a s' := ?_; ?_; clear_value s')
    | lift_lets
    | with_reducible apply sameO_next
    | with_reducible apply same_ite
    | with_reducible apply same_onGlk
    | with_reducible apply same_onEth
    | with_reducible apply same_onCan
    | exact listed_trans hw rfl
    | (refine listed_mem hw ?_; simp; done)
    | (cases x <;> exact listed_trans hw rfl)
    | with_reducible refine same_foldl ?_ (fun s x h => ?_)
    | (intro x'; clear_value x')
    | intro _
    | dsimp only [s']
    | split

theorem same_onWire (a0 : Port) (a1 : Bytes) (hw : listed [portPart a0] w = true) (h : Same w a s) :
    Same w a (onWire a0 a1 s) := by
  unfold onWire
  repeat' first
    | with_reducible assumption
    | (intro (s : State) (h : Same w a s))
    | (intro _ (s : State) (h : Same w a s))
    | (intro (h : Same w a _))
    | (intro (s' : State); refine_lift have h : Same w a s' := ?_; ?_; clear_value s')
    | lift_lets
    | with_reducible apply sameO_next
    | with_reducible apply same_ite
    | with_reducible apply same_onRings
    | exact listed_trans hw rfl
    | (refine listed_mem hw ?_; simp; done)
    | (cases x <;> exact listed_trans hw rfl)
    | with_reducible refine same_foldl ?_ (fun s x h => ?_)
    | (intro x'; clear_value x')
    | intro _
    | dsimp only [s']
    | split

theorem same_groupSent  (hw : listed [.glk, .sram] w = true) (h : Same w a s) :
    Same w a (groupSent s) := by
  unfold groupSent
  repeat' first
    | with_reducible assumption
    | (intro (s : State) (h : Same w a s))
    | (intro _ (s : State) (h : Same w a s))
    | (intro (h : Same w a _))
    | (intro (s' : State); refine_lift have h : Same w a s' := ?_; ?_; clear_value s')
    | lift_lets
    | with_reducible apply sameO_next
    | with_reducible apply same_ite
    | with_reducible apply same_pump
    | with_reducible apply same_txDone
    | with_reducible apply same_onGlk
    | exact listed_trans hw rfl
    | (refine listed_mem hw ?_; simp; done)
    | (cases x <;> exact listed_trans hw rfl)
    | with_reducible refine same_foldl ?_ (fun s x h => ?_)
    | (intro x'; clear_value x')
    | intro _
    | dsimp only [s']
    | split

theorem same_mpduSent (a0 : ℕ) (a1 : ℕ) (hw : listed [.glk] w = true) (h : Same w a s) :
    Same w a (mpduSent a0 a1 s) := by
  unfold mpduSent
  repeat' first
    | with_reducible assumption
    | (intro (s : State) (h : Same w a s))
    | (intro _ (s : State) (h : Same w a s))
    | (intro (h : Same w a _))
    | (intro (s' : State); refine_lift have h : Same w a s' := ?_; ?_; clear_value s')
    | lift_lets
    | with_reducible apply sameO_next
    | with_reducible apply same_ite
    | with_reducible apply same_onNb
    | with_reducible apply same_onGlk
    | exact listed_trans hw rfl
    | with_reducible refine same_foldl ?_ (fun s x h => ?_)
    | (intro x'; clear_value x')
    | intro _
    | dsimp only [s']
    | split

theorem same_execFrameTransmitted (a0 : Port) (a1 : ℕ) (hw : listed [portPart a0, .tim, .log, .sram, .freeCtr] w = true) (h : Same w a s) :
    SameO w a (execFrameTransmitted a0 a1 s) := by
  cases a0
  all_goals
   unfold execFrameTransmitted
  repeat' first
    | with_reducible assumption
    | (intro (s : State) (h : Same w a s))
    | (intro _ (s : State) (h : Same w a s))
    | (intro (h : Same w a _))
    | (intro (s' : State); refine_lift have h : Same w a s' := ?_; ?_; clear_value s')
    | lift_lets
    | with_reducible apply sameO_next
    | with_reducible apply same_ite
    | with_reducible apply sameO_ite
    | with_reducible apply same_efdomSent
    | with_reducible apply same_onWire
    | with_reducible apply same_pump
    | with_reducible apply same_txStamp
    | with_reducible apply same_groupSent
    | with_reducible apply same_mpduSent
    | with_reducible apply same_txDone
    | with_reducible apply same_bump
    | with_reducible apply same_onCan
    | with_reducible apply same_ptpCapture
    | exact listed_trans hw rfl
    | (refine listed_mem hw ?_; simp; done)
    | (cases x <;> exact listed_trans hw rfl)
    | with_reducible refine same_foldl ?_ (fun s x h => ?_)
    | (intro x'; clear_value x')
    | intro _
    | dsimp only [s']
    | split

theorem same_countTimeout (a0 : Port) (hw : listed [portPart a0] w = true) (h : Same w a s) :
    Same w a (countTimeout a0 s) := by
  cases a0
  all_goals
   unfold countTimeout
  repeat' first
    | with_reducible assumption
    | (intro (s : State) (h : Same w a s))
    | (intro _ (s : State) (h : Same w a s))
    | (intro (h : Same w a _))
    | (intro (s' : State); refine_lift have h : Same w a s' := ?_; ?_; clear_value s')
    | lift_lets
    | with_reducible apply sameO_next
    | with_reducible apply same_ite
    | with_reducible apply same_onLink
    | with_reducible apply same_onGlk
    | with_reducible apply same_onEth
    | with_reducible apply same_onCan
    | exact listed_trans hw rfl
    | (refine listed_mem hw ?_; simp; done)
    | (cases x <;> exact listed_trans hw rfl)
    | with_reducible refine same_foldl ?_ (fun s x h => ?_)
    | (intro x'; clear_value x')
    | intro _
    | dsimp only [s']
    | split

theorem same_execFrameTxTimeout (a0 : Port) (hw : listed [portPart a0, .sram] w = true) (h : Same w a s) :
    SameO w a (execFrameTxTimeout a0 s) := by
  unfold execFrameTxTimeout
  repeat' first
    | with_reducible assumption
    | (intro (s : State) (h : Same w a s))
    | (intro _ (s : State) (h : Same w a s))
    | (intro (h : Same w a _))
    | (intro (s' : State); refine_lift have h : Same w a s' := ?_; ?_; clear_value s')
    | lift_lets
    | with_reducible apply sameO_next
    | with_reducible apply same_ite
    | with_reducible apply sameO_ite
    | with_reducible apply same_pump
    | with_reducible apply same_txDone
    | with_reducible apply same_countTimeout
    | with_reducible apply same_txStamp
    | exact listed_trans hw rfl
    | (refine listed_mem hw ?_; simp; done)
    | (cases x <;> exact listed_trans hw rfl)
    | with_reducible refine same_foldl ?_ (fun s x h => ?_)
    | (intro x'; clear_value x')
    | intro _
    | dsimp only [s']
    | split

theorem same_rxDiscard (a0 : Port) (a1 : ℕ) (hw : listed [portPart a0, .log] w = true) (h : Same w a s) :
    Same w a (rxDiscard a0 a1 s) := by
  cases a0
  all_goals
   unfold rxDiscard
  repeat' first
    | with_reducible assumption
    | (intro (s : State) (h : Same w a s))
    | (intro _ (s : State) (h : Same w a s))
    | (intro (h : Same w a _))
    | (intro (s' : State); refine_lift have h : Same w a s' := ?_; ?_; clear_value s')
    | lift_lets
    | with_reducible apply sameO_next
    | with_reducible apply same_ite
    | with_reducible apply same_onLink
    | with_reducible apply same_onGlk
    | with_reducible apply same_onEth
    | with_reducible apply same_onCan
    | with_reducible apply same_onRings
    | with_reducible apply same_logEv
    | exact listed_trans hw rfl
    | (refine listed_mem hw ?_; simp; done)
    | (cases x <;> exact listed_trans hw rfl)
    | with_reducible refine same_foldl ?_ (fun s x h => ?_)
    | (intro x'; clear_value x')
    | intro _
    | dsimp only [s']
    | split

theorem same_deliver (a0 : Port) (a1 : RxFrame) (hw : listed [portPart a0, .sram] w = true) (h : Same w a s) :
    Same w a (deliver a0 a1 s) := by
  unfold deliver
  repeat' first
    | with_reducible assumption
    | (intro (s : State) (h : Same w a s))
    | (intro _ (s : State) (h : Same w a s))
    | (intro (h : Same w a _))
    | (intro (s' : State); refine_lift have h : Same w a s' := ?_; ?_; clear_value s')
    | lift_lets
    | with_reducible apply sameO_next
    | with_reducible apply same_ite
    | with_reducible apply same_sramPut
    | with_reducible apply same_onRings
    | exact listed_trans hw rfl
    | (refine listed_mem hw ?_; simp; done)
    | (cases x <;> exact listed_trans hw rfl)
    | with_reducible refine same_foldl ?_ (fun s x h => ?_)
    | (intro x'; clear_value x')
    | intro _
    | dsimp only [s']
    | split

theorem same_receiveRing (a0 : Port) (a1 : RxFrame) (a2 : Bool) (hw : listed [portPart a0, .log, .sram] w = true) (h : Same w a s) :
    Same w a (receiveRing a0 a1 a2 s) := by
  unfold receiveRing
  repeat' first
    | with_reducible assumption
    | (intro (s : State) (h : Same w a s))
    | (intro _ (s : State) (h : Same w a s))
    | (intro (h : Same w a _))
    | (intro (s' : State); refine_lift have h : Same w a s' := ?_; ?_; clear_value s')
    | lift_lets
    | with_reducible apply sameO_next
    | with_reducible apply same_ite
    | with_reducible apply same_rxDiscard
    | with_reducible apply same_deliver
    | exact listed_trans hw rfl
    | (refine listed_mem hw ?_; simp; done)
    | (cases x <;> exact listed_trans hw rfl)
    | with_reducible refine same_foldl ?_ (fun s x h => ?_)
    | (intro x'; clear_value x')
    | intro _
    | dsimp only [s']
    | split

theorem same_canReceive (a0 : ℕ) (a1 : RxFrame) (hw : listed [.owl, .log, .can, .sram, .freeCtr] w = true) (h : Same w a s) :
    Same w a (canReceive a0 a1 s) := by
  unfold canReceive
  repeat' first
    | with_reducible assumption
    | (intro (s : State) (h : Same w a s))
    | (intro _ (s : State) (h : Same w a s))
    | (intro (h : Same w a _))
    | (intro (s' : State); refine_lift have h : Same w a s' := ?_; ?_; clear_value s')
    | lift_lets
    | with_reducible apply sameO_next
    | with_reducible apply same_ite
    | with_reducible apply same_efdomReceive
    | with_reducible apply same_receiveRing
    | exact listed_trans hw rfl
    | (refine listed_mem hw ?_; simp; done)
    | (cases x <;> exact listed_trans hw rfl)
    | with_reducible refine same_foldl ?_ (fun s x h => ?_)
    | (intro x'; clear_value x')
    | intro _
    | dsimp only [s']
    | split

theorem same_glkDeliver (a0 : RxFrame) (hw : listed [.owl, .glk, .log, .sram, .freeCtr] w = true) (h : Same w a s) :
    Same w a (glkDeliver a0 s) := by
  unfold glkDeliver
  repeat' first
    | with_reducible assumption
    | (intro (s : State) (h : Same w a s))
    | (intro _ (s : State) (h : Same w a s))
    | (intro (h : Same w a _))
    | (intro (s' : State); refine_lift have h : Same w a s' := ?_; ?_; clear_value s')
    | lift_lets
    | with_reducible apply sameO_next
    | with_reducible apply same_ite
    | with_reducible apply same_efdomReceive
    | with_reducible apply same_receiveRing
    | exact listed_trans hw rfl
    | (refine listed_mem hw ?_; simp; done)
    | (cases x <;> exact listed_trans hw rfl)
    | with_reducible refine same_foldl ?_ (fun s x h => ?_)
    | (intro x'; clear_value x')
    | intro _
    | dsimp only [s']
    | split

theorem same_countDup  (hw : listed [.glk] w = true) (h : Same w a s) :
    Same w a (countDup s) := by
  unfold countDup
  repeat' first
    | with_reducible assumption
    | (intro (s : State) (h : Same w a s))
    | (intro _ (s : State) (h : Same w a s))
    | (intro (h : Same w a _))
    | (intro (s' : State); refine_lift have h : Same w a s' := ?_; ?_; clear_value s')
    | lift_lets
    | with_reducible apply sameO_next
    | with_reducible apply same_ite
    | with_reducible apply same_onGlk
    | exact listed_trans hw rfl
    | with_reducible refine same_foldl ?_ (fun s x h => ?_)
    | (intro x'; clear_value x')
    | intro _
    | dsimp only [s']
    | split

theorem same_deliverMsdu (a1 : Reasm) (hw : listed [.owl, .glk, .log, .sram, .freeCtr] w = true) (h : Same w a s) :
    Same w a (deliverMsdu s a1) := by
  unfold deliverMsdu
  repeat' first
    | with_reducible assumption
    | (intro (s : State) (h : Same w a s))
    | (intro _ (s : State) (h : Same w a s))
    | (intro (h : Same w a _))
    | (intro (s' : State); refine_lift have h : Same w a s' := ?_; ?_; clear_value s')
    | lift_lets
    | with_reducible apply sameO_next
    | with_reducible apply same_ite
    | with_reducible apply same_glkDeliver
    | with_reducible apply same_onNb
    | exact listed_trans hw rfl
    | with_reducible refine same_foldl ?_ (fun s x h => ?_)
    | (intro x'; clear_value x')
    | intro _
    | dsimp only [s']
    | split

theorem same_releaseMsdus (a0 : ℕ) (a1 : ℕ) (hw : listed [.owl, .glk, .log, .sram, .freeCtr] w = true) (h : Same w a s) :
    Same w a (releaseMsdus a0 a1 s) := by
  unfold releaseMsdus
  repeat' first
    | with_reducible assumption
    | (intro (s : State) (h : Same w a s))
    | (intro _ (s : State) (h : Same w a s))
    | (intro (h : Same w a _))
    | (intro (s' : State); refine_lift have h : Same w a s' := ?_; ?_; clear_value s')
    | lift_lets
    | with_reducible apply sameO_next
    | with_reducible apply same_ite
    | with_reducible apply same_deliverMsdu
    | with_reducible apply same_onGlk
    | exact listed_trans hw rfl
    | with_reducible refine same_foldl ?_ (fun s x h => ?_)
    | (intro x'; clear_value x')
    | intro _
    | dsimp only [s']
    | split

theorem same_takeMpdu (a0 : RxFrame) (a1 : RxMpdu) (hw : listed [.owl, .glk, .log, .sram, .freeCtr] w = true) (h : Same w a s) :
    Same w a (takeMpdu a0 a1 s) := by
  unfold takeMpdu
  repeat' first
    | with_reducible assumption
    | (intro (s : State) (h : Same w a s))
    | (intro _ (s : State) (h : Same w a s))
    | (intro (h : Same w a _))
    | (intro (s' : State); refine_lift have h : Same w a s' := ?_; ?_; clear_value s')
    | lift_lets
    | with_reducible apply sameO_next
    | with_reducible apply same_ite
    | with_reducible apply same_glkSend
    | with_reducible apply same_countDup
    | with_reducible apply same_releaseMsdus
    | with_reducible apply same_onGlk
    | exact listed_trans hw rfl
    | with_reducible refine same_foldl ?_ (fun s x h => ?_)
    | (intro x'; clear_value x')
    | intro _
    | dsimp only [s']
    | split

theorem same_answerSound (a0 : ℕ) (hw : listed [.glk, .freeCtr] w = true) (h : Same w a s) :
    Same w a (answerSound a0 s) := by
  unfold answerSound
  repeat' first
    | with_reducible assumption
    | (intro (s : State) (h : Same w a s))
    | (intro _ (s : State) (h : Same w a s))
    | (intro (h : Same w a _))
    | (intro (s' : State); refine_lift have h : Same w a s' := ?_; ?_; clear_value s')
    | lift_lets
    | with_reducible apply sameO_next
    | with_reducible apply same_ite
    | with_reducible apply same_glkSend
    | with_reducible apply same_bump
    | with_reducible apply same_onGlk
    | exact listed_trans hw rfl
    | with_reducible refine same_foldl ?_ (fun s x h => ?_)
    | (intro x'; clear_value x')
    | intro _
    | dsimp only [s']
    | split

theorem same_useRxMap (a0 : ℕ) (hw : listed [.glk] w = true) (h : Same w a s) :
    Same w a (useRxMap a0 s) := by
  unfold useRxMap
  repeat' first
    | with_reducible assumption
    | (intro (s : State) (h : Same w a s))
    | (intro _ (s : State) (h : Same w a s))
    | (intro (h : Same w a _))
    | (intro (s' : State); refine_lift have h : Same w a s' := ?_; ?_; clear_value s')
    | lift_lets
    | with_reducible apply sameO_next
    | with_reducible apply same_ite
    | with_reducible apply same_onGlk
    | exact listed_trans hw rfl
    | with_reducible refine same_foldl ?_ (fun s x h => ?_)
    | (intro x'; clear_value x')
    | intro _
    | dsimp only [s']
    | split

theorem same_glkReceive (a0 : RxFrame) (hw : listed [.owl, .glk, .log, .sram, .freeCtr] w = true) (h : Same w a s) :
    Same w a (glkReceive a0 s) := by
  unfold glkReceive
  repeat' first
    | with_reducible assumption
    | (intro (s : State) (h : Same w a s))
    | (intro _ (s : State) (h : Same w a s))
    | (intro (h : Same w a _))
    | (intro (s' : State); refine_lift have h : Same w a s' := ?_; ?_; clear_value s')
    | lift_lets
    | with_reducible apply sameO_next
    | with_reducible apply same_ite
    | with_reducible apply same_useRxMap
    | with_reducible apply same_hear
    | with_reducible apply same_answerSound
    | with_reducible apply same_glkDeliver
    | with_reducible apply same_takeMpdu
    | with_reducible apply same_rxDiscard
    | exact listed_trans hw rfl
    | (refine listed_mem hw ?_; simp; done)
    | (cases x <;> exact listed_trans hw rfl)
    | with_reducible refine same_foldl ?_ (fun s x h => ?_)
    | (intro x'; clear_value x')
    | intro _
    | dsimp only [s']
    | split

theorem same_ethReceive (a0 : RxFrame) (hw : listed [.owl, .eth, .tim, .log, .sram, .freeCtr] w = true) (h : Same w a s) :
    Same w a (ethReceive a0 s) := by
  unfold ethReceive
  repeat' first
    | with_reducible assumption
    | (intro (s : State) (h : Same w a s))
    | (intro _ (s : State) (h : Same w a s))
    | (intro (h : Same w a _))
    | (intro (s' : State); refine_lift have h : Same w a s' := ?_; ?_; clear_value s')
    | lift_lets
    | with_reducible apply sameO_next
    | with_reducible apply same_ite
    | with_reducible apply same_rxDiscard
    | with_reducible apply same_efdomReceive
    | with_reducible apply same_receiveRing
    | with_reducible apply same_ptpCapture
    | exact listed_trans hw rfl
    | (refine listed_mem hw ?_; simp; done)
    | (cases x <;> exact listed_trans hw rfl)
    | with_reducible refine same_foldl ?_ (fun s x h => ?_)
    | (intro x'; clear_value x')
    | intro _
    | dsimp only [s']
    | split

theorem same_vlkReceive (a0 : ℕ) (a1 : RxFrame) (hw : listed [.vlk, .log, .sram] w = true) (h : Same w a s) :
    Same w a (vlkReceive a0 a1 s) := by
  unfold vlkReceive
  repeat' first
    | with_reducible assumption
    | (intro (s : State) (h : Same w a s))
    | (intro _ (s : State) (h : Same w a s))
    | (intro (h : Same w a _))
    | (intro (s' : State); refine_lift have h : Same w a s' := ?_; ?_; clear_value s')
    | lift_lets
    | with_reducible apply sameO_next
    | with_reducible apply same_ite
    | with_reducible apply same_onLink
    | with_reducible apply same_receiveRing
    | exact listed_trans hw rfl
    | (refine listed_mem hw ?_; simp; done)
    | (cases x <;> exact listed_trans hw rfl)
    | with_reducible refine same_foldl ?_ (fun s x h => ?_)
    | (intro x'; clear_value x')
    | intro _
    | dsimp only [s']
    | split

theorem same_execFrameReceived (a0 : Port) (a1 : RxFrame) (hw : listed [portPart a0, .owl, .tim, .log, .sram, .freeCtr] w = true) (h : Same w a s) :
    SameO w a (execFrameReceived a0 a1 s) := by
  cases a0
  all_goals
   unfold execFrameReceived
  repeat' first
    | with_reducible assumption
    | (intro (s : State) (h : Same w a s))
    | (intro _ (s : State) (h : Same w a s))
    | (intro (h : Same w a _))
    | (intro (s' : State); refine_lift have h : Same w a s' := ?_; ?_; clear_value s')
    | lift_lets
    | with_reducible apply sameO_next
    | with_reducible apply same_ite
    | with_reducible apply sameO_ite
    | with_reducible apply same_vlkReceive
    | with_reducible apply same_glkReceive
    | with_reducible apply same_ethReceive
    | with_reducible apply same_canReceive
    | exact listed_trans hw rfl
    | (refine listed_mem hw ?_; simp; done)
    | (cases x <;> exact listed_trans hw rfl)
    | with_reducible refine same_foldl ?_ (fun s x h => ?_)
    | (intro x'; clear_value x')
    | intro _
    | dsimp only [s']
    | split

theorem same_rxFlush (a0 : Port) (a1 : ℕ) (hw : listed [portPart a0, .sram] w = true) (h : Same w a s) :
    Same w a (rxFlush a0 a1 s) := by
  induction a1 generalizing  s with
  | zero => exact h
  | succ n ih =>
  simp only [rxFlush]
  repeat' first
    | with_reducible assumption
    | (intro (s : State) (h : Same w a s))
    | (intro _ (s : State) (h : Same w a s))
    | (intro (h : Same w a _))
    | (intro (s' : State); refine_lift have h : Same w a s' := ?_; ?_; clear_value s')
    | lift_lets
    | with_reducible apply sameO_next
    | with_reducible apply same_ite
    | with_reducible apply same_sramPut
    | with_reducible apply same_onRings
    | with_reducible apply ih
    | exact listed_trans hw rfl
    | (refine listed_mem hw ?_; simp; done)
    | (cases x <;> exact listed_trans hw rfl)
    | with_reducible refine same_foldl ?_ (fun s x h => ?_)
    | (intro x'; clear_value x')
    | intro _
    | dsimp only [s']
    | split

theorem same_txFlush (a0 : Port) (a1 : ℕ) (hw : listed [portPart a0, .sram] w = true) (h : Same w a s) :
    Same w a (txFlush a0 a1 s) := by
  induction a1 generalizing  s with
  | zero => exact h
  | succ n ih =>
  simp only [txFlush]
  repeat' first
    | with_reducible assumption
    | (intro (s : State) (h : Same w a s))
    | (intro _ (s : State) (h : Same w a s))
    | (intro (h : Same w a _))
    | (intro (s' : State); refine_lift have h : Same w a s' := ?_; ?_; clear_value s')
    | lift_lets
    | with_reducible apply sameO_next
    | with_reducible apply same_ite
    | with_reducible apply same_txDone
    | with_reducible apply ih
    | exact listed_trans hw rfl
    | (refine listed_mem hw ?_; simp; done)
    | (cases x <;> exact listed_trans hw rfl)
    | with_reducible refine same_foldl ?_ (fun s x h => ?_)
    | (intro x'; clear_value x')
    | intro _
    | dsimp only [s']
    | split

theorem same_flushRings  (hw : listed [.vlk, .glk, .eth, .can, .sram] w = true) (h : Same w a s) :
    Same w a (flushRings s) := by
  unfold flushRings
  repeat' first
    | with_reducible assumption
    | (intro (s : State) (h : Same w a s))
    | (intro _ (s : State) (h : Same w a s))
    | (intro (h : Same w a _))
    | (intro (s' : State); refine_lift have h : Same w a s' := ?_; ?_; clear_value s')
    | lift_lets
    | with_reducible apply sameO_next
    | with_reducible apply same_ite
    | with_reducible apply same_rxFlush
    | with_reducible apply same_txFlush
    | with_reducible apply same_onGlk
    | exact listed_trans hw rfl
    | (refine listed_mem hw ?_; simp; done)
    | (cases x <;> exact listed_trans hw rfl)
    | with_reducible refine same_foldl ?_ (fun s x h => ?_)
    | (intro x'; clear_value x')
    | intro _
    | dsimp only [s']
    | split

theorem same_resumeRings  (hw : listed [.vlk, .glk, .eth, .can, .sram] w = true) (h : Same w a s) :
    Same w a (resumeRings s) := by
  unfold resumeRings
  repeat' first
    | with_reducible assumption
    | (intro (s : State) (h : Same w a s))
    | (intro _ (s : State) (h : Same w a s))
    | (intro (h : Same w a _))
    | (intro (s' : State); refine_lift have h : Same w a s' := ?_; ?_; clear_value s')
    | lift_lets
    | with_reducible apply sameO_next
    | with_reducible apply same_ite
    | with_reducible apply same_pump
    | exact listed_trans hw rfl
    | (refine listed_mem hw ?_; simp; done)
    | (cases x <;> exact listed_trans hw rfl)
    | with_reducible refine same_foldl ?_ (fun s x h => ?_)
    | (intro x'; clear_value x')
    | intro _
    | dsimp only [s']
    | split

end Sys2Proof.Machine
end

