-- ==== Sys2Proof/Laws/FrameTags.lean ====
section
/-! SUPPORT. Which parts of the state the operations of Tags.lean write. -/

set_option linter.unusedVariables false
set_option linter.unreachableTactic false
set_option linter.unusedTactic false

namespace Sys2Proof.Machine

variable {w : List Part} {a s : State}

theorem same_execReducedFieldMeasurement (a0 : ℕ) (hw : listed [.tag] w = true) (h : Same w a s) :
    SameO w a (execReducedFieldMeasurement a0 s) := by
  unfold execReducedFieldMeasurement
  repeat' first
    | with_reducible assumption
    | (intro (s : State) (h : Same w a s))
    | (intro _ (s : State) (h : Same w a s))
    | (intro (h : Same w a _))
    | (intro (s' : State); refine_lift have h : Same w a s' := ?_; ?_; clear_value s')
    | lift_lets
    | with_reducible apply sameO_next
    | with_reducible apply same_ite
    | with_reducible apply sameO_ite
    | with_reducible apply same_onTag
    | exact listed_trans hw rfl
    | with_reducible refine same_foldl ?_ (fun s x h => ?_)
    | (intro x'; clear_value x')
    | intro _
    | dsimp only [s']
    | split

theorem same_takeDetection  (hw : listed [.tag] w = true) (h : Same w a s) :
    Same w a (takeDetection s) := by
  unfold takeDetection
  repeat' first
    | with_reducible assumption
    | (intro (s : State) (h : Same w a s))
    | (intro _ (s : State) (h : Same w a s))
    | (intro (h : Same w a _))
    | (intro (s' : State); refine_lift have h : Same w a s' := ?_; ?_; clear_value s')
    | lift_lets
    | with_reducible apply sameO_next
    | with_reducible apply same_ite
    | with_reducible apply same_onTag
    | exact listed_trans hw rfl
    | with_reducible refine same_foldl ?_ (fun s x h => ?_)
    | (intro x'; clear_value x')
    | intro _
    | dsimp only [s']
    | split

theorem same_mendEntry (a0 : ℕ) (hw : listed [.tag, .log] w = true) (h : Same w a s) :
    Same w a (mendEntry a0 s) := by
  unfold mendEntry
  repeat' first
    | with_reducible assumption
    | (intro (s : State) (h : Same w a s))
    | (intro _ (s : State) (h : Same w a s))
    | (intro (h : Same w a _))
    | (intro (s' : State); refine_lift have h : Same w a s' := ?_; ?_; clear_value s')
    | lift_lets
    | with_reducible apply sameO_next
    | with_reducible apply same_ite
    | with_reducible apply same_onTag
    | with_reducible apply same_logEv
    | exact listed_trans hw rfl
    | with_reducible refine same_foldl ?_ (fun s x h => ?_)
    | (intro x'; clear_value x')
    | intro _
    | dsimp only [s']
    | split

theorem same_limpHit (a0 : CacheEntry) (hw : listed [.met, .pwr, .owl, .vlk, .tag, .sys, .mgt, .log] w = true) (h : Same w a s) :
    Same w a (limpHit a0 s) := by
  unfold limpHit
  repeat' first
    | with_reducible assumption
    | (intro (s : State) (h : Same w a s))
    | (intro _ (s : State) (h : Same w a s))
    | (intro (h : Same w a _))
    | (intro (s' : State); refine_lift have h : Same w a s' := ?_; ?_; clear_value s')
    | lift_lets
    | with_reducible apply sameO_next
    | with_reducible apply same_ite
    | with_reducible apply same_limpStart
    | with_reducible apply same_onLink
    | with_reducible apply same_onTag
    | exact listed_trans hw rfl
    | with_reducible refine same_foldl ?_ (fun s x h => ?_)
    | (intro x'; clear_value x')
    | intro _
    | dsimp only [s']
    | split

theorem same_pushReport (a0 : Bytes) (hw : listed [.tag, .log] w = true) (h : Same w a s) :
    Same w a (pushReport a0 s) := by
  unfold pushReport
  repeat' first
    | with_reducible assumption
    | (intro (s : State) (h : Same w a s))
    | (intro _ (s : State) (h : Same w a s))
    | (intro (h : Same w a _))
    | (intro (s' : State); refine_lift have h : Same w a s' := ?_; ?_; clear_value s')
    | lift_lets
    | with_reducible apply sameO_next
    | with_reducible apply same_ite
    | with_reducible apply same_onTag
    | with_reducible apply same_logEv
    | exact listed_trans hw rfl
    | with_reducible refine same_foldl ?_ (fun s x h => ?_)
    | (intro x'; clear_value x')
    | intro _
    | dsimp only [s']
    | split

theorem same_seen (a0 : TagFound) (hw : listed [.tag] w = true) (h : Same w a s) :
    Same w a (seen a0 s) := by
  unfold seen
  repeat' first
    | with_reducible assumption
    | (intro (s : State) (h : Same w a s))
    | (intro _ (s : State) (h : Same w a s))
    | (intro (h : Same w a _))
    | (intro (s' : State); refine_lift have h : Same w a s' := ?_; ?_; clear_value s')
    | lift_lets
    | with_reducible apply sameO_next
    | with_reducible apply same_ite
    | with_reducible apply same_onTag
    | exact listed_trans hw rfl
    | with_reducible refine same_foldl ?_ (fun s x h => ?_)
    | (intro x'; clear_value x')
    | intro _
    | dsimp only [s']
    | split

theorem same_missTags (a0 : List TagFound) (hw : listed [.tag] w = true) (h : Same w a s) :
    Same w a (missTags a0 s) := by
  unfold missTags
  repeat' first
    | with_reducible assumption
    | (intro (s : State) (h : Same w a s))
    | (intro _ (s : State) (h : Same w a s))
    | (intro (h : Same w a _))
    | (intro (s' : State); refine_lift have h : Same w a s' := ?_; ?_; clear_value s')
    | lift_lets
    | with_reducible apply sameO_next
    | with_reducible apply same_ite
    | with_reducible apply same_onTag
    | exact listed_trans hw rfl
    | with_reducible refine same_foldl ?_ (fun s x h => ?_)
    | (intro x'; clear_value x')
    | intro _
    | dsimp only [s']
    | split

theorem same_serveTag (a1 : TagFound) (hw : listed [.met, .pwr, .owl, .vlk, .tag, .sys, .mgt, .log] w = true) (h : Same w a s) :
    Same w a (serveTag s a1) := by
  unfold serveTag
  repeat' first
    | with_reducible assumption
    | (intro (s : State) (h : Same w a s))
    | (intro _ (s : State) (h : Same w a s))
    | (intro (h : Same w a _))
    | (intro (s' : State); refine_lift have h : Same w a s' := ?_; ?_; clear_value s')
    | lift_lets
    | with_reducible apply sameO_next
    | with_reducible apply same_ite
    | with_reducible apply same_seen
    | with_reducible apply same_mendEntry
    | with_reducible apply same_logEv
    | with_reducible apply same_pushReport
    | with_reducible apply same_onTag
    | with_reducible apply same_limpHit
    | exact listed_trans hw rfl
    | with_reducible refine same_foldl ?_ (fun s x h => ?_)
    | (intro x'; clear_value x')
    | intro _
    | dsimp only [s']
    | split

theorem same_fullPoll (a0 : PollInput) (hw : listed [.met, .pwr, .owl, .vlk, .tag, .sys, .mgt, .log] w = true) (h : Same w a s) :
    Same w a (fullPoll a0 s) := by
  unfold fullPoll
  repeat' first
    | with_reducible assumption
    | (intro (s : State) (h : Same w a s))
    | (intro _ (s : State) (h : Same w a s))
    | (intro (h : Same w a _))
    | (intro (s' : State); refine_lift have h : Same w a s' := ?_; ?_; clear_value s')
    | lift_lets
    | with_reducible apply sameO_next
    | with_reducible apply same_ite
    | with_reducible apply same_onTag
    | with_reducible apply same_missTags
    | with_reducible apply same_serveTag
    | exact listed_trans hw rfl
    | with_reducible refine same_foldl ?_ (fun s x h => ?_)
    | (intro x'; clear_value x')
    | intro _
    | dsimp only [s']
    | split

theorem same_releaseTag  (hw : listed [.tag] w = true) (h : Same w a s) :
    Same w a (releaseTag s) := by
  unfold releaseTag
  repeat' first
    | with_reducible assumption
    | (intro (s : State) (h : Same w a s))
    | (intro _ (s : State) (h : Same w a s))
    | (intro (h : Same w a _))
    | (intro (s' : State); refine_lift have h : Same w a s' := ?_; ?_; clear_value s')
    | lift_lets
    | with_reducible apply sameO_next
    | with_reducible apply same_ite
    | with_reducible apply same_onTag
    | exact listed_trans hw rfl
    | with_reducible refine same_foldl ?_ (fun s x h => ?_)
    | (intro x'; clear_value x')
    | intro _
    | dsimp only [s']
    | split

theorem same_execTagHoldExpiry  (hw : listed [.tag] w = true) (h : Same w a s) :
    SameO w a (execTagHoldExpiry s) := by
  unfold execTagHoldExpiry
  repeat' first
    | with_reducible assumption
    | (intro (s : State) (h : Same w a s))
    | (intro _ (s : State) (h : Same w a s))
    | (intro (h : Same w a _))
    | (intro (s' : State); refine_lift have h : Same w a s' := ?_; ?_; clear_value s')
    | lift_lets
    | with_reducible apply sameO_next
    | with_reducible apply same_ite
    | with_reducible apply sameO_ite
    | with_reducible apply same_releaseTag
    | exact listed_trans hw rfl
    | with_reducible refine same_foldl ?_ (fun s x h => ?_)
    | (intro x'; clear_value x')
    | intro _
    | dsimp only [s']
    | split

theorem same_execLimpHitExpiry  (hw : listed [.tag] w = true) (h : Same w a s) :
    SameO w a (execLimpHitExpiry s) := by
  unfold execLimpHitExpiry
  repeat' first
    | with_reducible assumption
    | (intro (s : State) (h : Same w a s))
    | (intro _ (s : State) (h : Same w a s))
    | (intro (h : Same w a _))
    | (intro (s' : State); refine_lift have h : Same w a s' := ?_; ?_; clear_value s')
    | lift_lets
    | with_reducible apply sameO_next
    | with_reducible apply same_ite
    | with_reducible apply sameO_ite
    | with_reducible apply same_onTag
    | exact listed_trans hw rfl
    | with_reducible refine same_foldl ?_ (fun s x h => ?_)
    | (intro x'; clear_value x')
    | intro _
    | dsimp only [s']
    | split

theorem same_exchange (a0 : Req) (a1 : ℕ) (a2 : List XferTry) (hw : listed [.tag, .hsi, .result] w = true) (h : Same w a s) :
    Same w a (exchange a0 a1 a2 s) := by
  have hw1 : listed [.tag] w = true := listed_trans hw rfl
  induction a2 generalizing a1 s with
  | nil => exact same_postSts _ _ (listed_trans hw rfl) (same_releaseTag (listed_trans hw rfl) (same_onTag hw1 h))
  | cons t l ih =>
    cases t with
    | answer x =>
      exact same_ite (same_post _ _ _ _ (listed_trans hw rfl) h)
        (same_postSts _ _ (listed_trans hw rfl) (same_releaseTag (listed_trans hw rfl) (same_onTag hw1 h)))
    | bad =>
      exact same_ite (same_postSts _ _ (listed_trans hw rfl) (same_releaseTag (listed_trans hw rfl) (same_onTag hw1 h)))
        (ih _ (same_onTag hw1 h))
    | silent =>
      exact same_ite (same_postSts _ _ (listed_trans hw rfl) (same_releaseTag (listed_trans hw rfl) (same_onTag hw1 h)))
        (ih _ (same_onTag hw1 h))

theorem same_execTagXfer (a0 : Req) (a1 : Bytes) (a2 : List XferTry) (hw : listed [.tag, .hsi, .result] w = true) (h : Same w a s) :
    SameO w a (execTagXfer a0 a1 a2 s) := by
  unfold execTagXfer
  repeat' first
    | with_reducible assumption
    | (intro (s : State) (h : Same w a s))
    | (intro _ (s : State) (h : Same w a s))
    | (intro (h : Same w a _))
    | (intro (s' : State); refine_lift have h : Same w a s' := ?_; ?_; clear_value s')
    | lift_lets
    | with_reducible apply sameO_next
    | with_reducible apply same_ite
    | with_reducible apply sameO_ite
    | with_reducible apply same_guarded
    | with_reducible apply same_exchange
    | exact listed_trans hw rfl
    | with_reducible refine same_foldl ?_ (fun s x h => ?_)
    | (intro x'; clear_value x')
    | intro _
    | dsimp only [s']
    | split

theorem same_execTagRelease (a0 : Req) (hw : listed [.tag, .hsi, .result] w = true) (h : Same w a s) :
    SameO w a (execTagRelease a0 s) := by
  unfold execTagRelease
  repeat' first
    | with_reducible assumption
    | (intro (s : State) (h : Same w a s))
    | (intro _ (s : State) (h : Same w a s))
    | (intro (h : Same w a _))
    | (intro (s' : State); refine_lift have h : Same w a s' := ?_; ?_; clear_value s')
    | lift_lets
    | with_reducible apply sameO_next
    | with_reducible apply same_ite
    | with_reducible apply sameO_ite
    | with_reducible apply same_guarded
    | with_reducible apply same_postSts
    | with_reducible apply same_releaseTag
    | exact listed_trans hw rfl
    | with_reducible refine same_foldl ?_ (fun s x h => ?_)
    | (intro x'; clear_value x')
    | intro _
    | dsimp only [s']
    | split

theorem same_putEntries (a0 : List Bytes) (a1 : ℕ) (hw : listed [.tag, .freeCtr] w = true) (h : Same w a s) :
    Same w a ((putEntries a0 a1 s)).1 := by
  induction a0 generalizing a1 s with
  | nil => exact h
  | cons x l ih =>
  simp only [putEntries]
  repeat' first
    | with_reducible assumption
    | (intro (s : State) (h : Same w a s))
    | (intro _ (s : State) (h : Same w a s))
    | (intro (h : Same w a _))
    | (exact same_freeCtr (listed_trans hw rfl) h)
    | (intro (s' : State); refine_lift have h : Same w a s' := ?_; ?_; clear_value s')
    | lift_lets
    | with_reducible apply sameO_next
    | with_reducible apply same_ite
    | with_reducible apply same_onTag
    | with_reducible apply ih
    | exact listed_trans hw rfl
    | with_reducible refine same_foldl ?_ (fun s x h => ?_)
    | (intro x'; clear_value x')
    | intro _
    | dsimp only [s']
    | split

theorem same_execTagCachePut (a0 : Req) (a1 : List Bytes) (hw : listed [.tag, .hsi, .freeCtr, .result] w = true) (h : Same w a s) :
    SameO w a (execTagCachePut a0 a1 s) := by
  unfold execTagCachePut
  repeat' first
    | with_reducible assumption
    | (intro (s : State) (h : Same w a s))
    | (intro _ (s : State) (h : Same w a s))
    | (intro (h : Same w a _))
    | (intro (s' : State); refine_lift have h : Same w a s' := ?_; ?_; clear_value s')
    | lift_lets
    | with_reducible apply sameO_next
    | with_reducible apply same_ite
    | with_reducible apply sameO_ite
    | with_reducible apply same_guarded
    | with_reducible apply same_putEntries
    | with_reducible apply same_post
    | exact listed_trans hw rfl
    | with_reducible refine same_foldl ?_ (fun s x h => ?_)
    | (intro x'; clear_value x')
    | intro _
    | dsimp only [s']
    | split

theorem same_execTagCacheDel (a0 : Req) (a1 : ℕ) (hw : listed [.tag, .hsi, .result] w = true) (h : Same w a s) :
    SameO w a (execTagCacheDel a0 a1 s) := by
  unfold execTagCacheDel
  repeat' first
    | with_reducible assumption
    | (intro (s : State) (h : Same w a s))
    | (intro _ (s : State) (h : Same w a s))
    | (intro (h : Same w a _))
    | (intro (s' : State); refine_lift have h : Same w a s' := ?_; ?_; clear_value s')
    | lift_lets
    | with_reducible apply sameO_next
    | with_reducible apply same_ite
    | with_reducible apply sameO_ite
    | with_reducible apply same_guarded
    | with_reducible apply same_postSts
    | with_reducible apply same_onTag
    | exact listed_trans hw rfl
    | with_reducible refine same_foldl ?_ (fun s x h => ?_)
    | (intro x'; clear_value x')
    | intro _
    | dsimp only [s']
    | split

theorem same_execTagCacheGet (a0 : Req) (a1 : ℕ) (hw : listed [.hsi, .result] w = true) (h : Same w a s) :
    SameO w a (execTagCacheGet a0 a1 s) := by
  unfold execTagCacheGet
  repeat' first
    | with_reducible assumption
    | (intro (s : State) (h : Same w a s))
    | (intro _ (s : State) (h : Same w a s))
    | (intro (h : Same w a _))
    | (intro (s' : State); refine_lift have h : Same w a s' := ?_; ?_; clear_value s')
    | lift_lets
    | with_reducible apply sameO_next
    | with_reducible apply same_ite
    | with_reducible apply sameO_ite
    | with_reducible apply same_guarded
    | with_reducible apply same_post
    | exact listed_trans hw rfl
    | with_reducible refine same_foldl ?_ (fun s x h => ?_)
    | (intro x'; clear_value x')
    | intro _
    | dsimp only [s']
    | split

theorem same_execTagCacheClear (a0 : Req) (hw : listed [.tag, .hsi, .result] w = true) (h : Same w a s) :
    SameO w a (execTagCacheClear a0 s) := by
  unfold execTagCacheClear
  repeat' first
    | with_reducible assumption
    | (intro (s : State) (h : Same w a s))
    | (intro _ (s : State) (h : Same w a s))
    | (intro (h : Same w a _))
    | (intro (s' : State); refine_lift have h : Same w a s' := ?_; ?_; clear_value s')
    | lift_lets
    | with_reducible apply sameO_next
    | with_reducible apply same_ite
    | with_reducible apply sameO_ite
    | with_reducible apply same_guarded
    | with_reducible apply same_postSts
    | with_reducible apply same_onTag
    | exact listed_trans hw rfl
    | with_reducible refine same_foldl ?_ (fun s x h => ?_)
    | (intro x'; clear_value x')
    | intro _
    | dsimp only [s']
    | split

theorem same_execCacheMirror  (hw : listed [.tag] w = true) (h : Same w a s) :
    SameO w a (execCacheMirror s) := by
  unfold execCacheMirror
  repeat' first
    | with_reducible assumption
    | (intro (s : State) (h : Same w a s))
    | (intro _ (s : State) (h : Same w a s))
    | (intro (h : Same w a _))
    | (intro (s' : State); refine_lift have h : Same w a s' := ?_; ?_; clear_value s')
    | lift_lets
    | with_reducible apply sameO_next
    | with_reducible apply same_ite
    | with_reducible apply sameO_ite
    | with_reducible apply same_onTag
    | exact listed_trans hw rfl
    | with_reducible refine same_foldl ?_ (fun s x h => ?_)
    | (intro x'; clear_value x')
    | intro _
    | dsimp only [s']
    | split

theorem same_execCacheLoaded  (hw : listed [.tag] w = true) (h : Same w a s) :
    SameO w a (execCacheLoaded s) := by
  unfold execCacheLoaded
  repeat' first
    | with_reducible assumption
    | (intro (s : State) (h : Same w a s))
    | (intro _ (s : State) (h : Same w a s))
    | (intro (h : Same w a _))
    | (intro (s' : State); refine_lift have h : Same w a s' := ?_; ?_; clear_value s')
    | lift_lets
    | with_reducible apply sameO_next
    | with_reducible apply same_ite
    | with_reducible apply sameO_ite
    | with_reducible apply same_onTag
    | exact listed_trans hw rfl
    | with_reducible refine same_foldl ?_ (fun s x h => ?_)
    | (intro x'; clear_value x')
    | intro _
    | dsimp only [s']
    | split

theorem same_wipeCache  (hw : listed [.tag] w = true) (h : Same w a s) :
    Same w a (wipeCache s) := by
  unfold wipeCache
  repeat' first
    | with_reducible assumption
    | (intro (s : State) (h : Same w a s))
    | (intro _ (s : State) (h : Same w a s))
    | (intro (h : Same w a _))
    | (intro (s' : State); refine_lift have h : Same w a s' := ?_; ?_; clear_value s')
    | lift_lets
    | with_reducible apply sameO_next
    | with_reducible apply same_ite
    | with_reducible apply same_onTag
    | exact listed_trans hw rfl
    | with_reducible refine same_foldl ?_ (fun s x h => ?_)
    | (intro x'; clear_value x')
    | intro _
    | dsimp only [s']
    | split

theorem same_rptPop  (hw : listed [.tag] w = true) (h : Same w a s) :
    Same w a (rptPop s) := by
  unfold rptPop
  repeat' first
    | with_reducible assumption
    | (intro (s : State) (h : Same w a s))
    | (intro _ (s : State) (h : Same w a s))
    | (intro (h : Same w a _))
    | (intro (s' : State); refine_lift have h : Same w a s' := ?_; ?_; clear_value s')
    | lift_lets
    | with_reducible apply sameO_next
    | with_reducible apply same_ite
    | with_reducible apply same_onTag
    | exact listed_trans hw rfl
    | with_reducible refine same_foldl ?_ (fun s x h => ?_)
    | (intro x'; clear_value x')
    | intro _
    | dsimp only [s']
    | split

theorem same_execTagRptPop  (hw : listed [.tag] w = true) (h : Same w a s) :
    SameO w a (execTagRptPop s) := by
  unfold execTagRptPop
  repeat' first
    | with_reducible assumption
    | (intro (s : State) (h : Same w a s))
    | (intro _ (s : State) (h : Same w a s))
    | (intro (h : Same w a _))
    | (intro (s' : State); refine_lift have h : Same w a s' := ?_; ?_; clear_value s')
    | lift_lets
    | with_reducible apply sameO_next
    | with_reducible apply same_ite
    | with_reducible apply sameO_ite
    | with_reducible apply same_rptPop
    | exact listed_trans hw rfl
    | with_reducible refine same_foldl ?_ (fun s x h => ?_)
    | (intro x'; clear_value x')
    | intro _
    | dsimp only [s']
    | split

theorem same_execTagStatusRead (a0 : Side) (hw : listed [.tag, .rdata] w = true) (h : Same w a s) :
    SameO w a (execTagStatusRead a0 s) := by
  unfold execTagStatusRead
  repeat' first
    | with_reducible assumption
    | (intro (s : State) (h : Same w a s))
    | (intro _ (s : State) (h : Same w a s))
    | (intro (h : Same w a _))
    | (intro (s' : State); refine_lift have h : Same w a s' := ?_; ?_; clear_value s')
    | lift_lets
    | with_reducible apply sameO_next
    | with_reducible apply same_ite
    | with_reducible apply sameO_ite
    | with_reducible apply same_returns
    | with_reducible apply same_onTag
    | exact listed_trans hw rfl
    | with_reducible refine same_foldl ?_ (fun s x h => ?_)
    | (intro x'; clear_value x')
    | intro _
    | dsimp only [s']
    | split

theorem same_tagCtlWrite (a0 : ℕ) (hw : listed [.tag] w = true) (h : Same w a s) :
    Same w a (tagCtlWrite a0 s) := by
  unfold tagCtlWrite
  repeat' first
    | with_reducible assumption
    | (intro (s : State) (h : Same w a s))
    | (intro _ (s : State) (h : Same w a s))
    | (intro (h : Same w a _))
    | (intro (s' : State); refine_lift have h : Same w a s' := ?_; ?_; clear_value s')
    | lift_lets
    | with_reducible apply sameO_next
    | with_reducible apply same_ite
    | with_reducible apply same_onTag
    | exact listed_trans hw rfl
    | with_reducible refine same_foldl ?_ (fun s x h => ?_)
    | (intro x'; clear_value x')
    | intro _
    | dsimp only [s']
    | split

theorem same_putBlock (a0 : ℕ) (a1 : Bytes) (a2 : Bool) (hw : listed [.tag] w = true) (h : Same w a s) :
    Same w a (putBlock a0 a1 a2 s) := by
  unfold putBlock
  repeat' first
    | with_reducible assumption
    | (intro (s : State) (h : Same w a s))
    | (intro _ (s : State) (h : Same w a s))
    | (intro (h : Same w a _))
    | (intro (s' : State); refine_lift have h : Same w a s' := ?_; ?_; clear_value s')
    | lift_lets
    | with_reducible apply sameO_next
    | with_reducible apply same_ite
    | with_reducible apply same_onTag
    | exact listed_trans hw rfl
    | with_reducible refine same_foldl ?_ (fun s x h => ?_)
    | (intro x'; clear_value x')
    | intro _
    | dsimp only [s']
    | split

theorem same_ctPublishInfo  (hw : listed [.tag] w = true) (h : Same w a s) :
    Same w a (ctPublishInfo s) := by
  unfold ctPublishInfo
  repeat' first
    | with_reducible assumption
    | (intro (s : State) (h : Same w a s))
    | (intro _ (s : State) (h : Same w a s))
    | (intro (h : Same w a _))
    | (intro (s' : State); refine_lift have h : Same w a s' := ?_; ?_; clear_value s')
    | lift_lets
    | with_reducible apply sameO_next
    | with_reducible apply same_ite
    | with_reducible apply same_putBlock
    | exact listed_trans hw rfl
    | with_reducible refine same_foldl ?_ (fun s x h => ?_)
    | (intro x'; clear_value x')
    | intro _
    | dsimp only [s']
    | split

theorem same_ctRefresh  (hw : listed [.tag] w = true) (h : Same w a s) :
    Same w a (ctRefresh s) := by
  unfold ctRefresh
  repeat' first
    | with_reducible assumption
    | (intro (s : State) (h : Same w a s))
    | (intro _ (s : State) (h : Same w a s))
    | (intro (h : Same w a _))
    | (intro (s' : State); refine_lift have h : Same w a s' := ?_; ?_; clear_value s')
    | lift_lets
    | with_reducible apply sameO_next
    | with_reducible apply same_ite
    | with_reducible apply same_ctPublishInfo
    | with_reducible apply same_onTag
    | exact listed_trans hw rfl
    | with_reducible refine same_foldl ?_ (fun s x h => ?_)
    | (intro x'; clear_value x')
    | intro _
    | dsimp only [s']
    | split

theorem same_execTagCtSecure (a0 : Req) (hw : listed [.tag, .hsi, .result] w = true) (h : Same w a s) :
    SameO w a (execTagCtSecure a0 s) := by
  unfold execTagCtSecure
  repeat' first
    | with_reducible assumption
    | (intro (s : State) (h : Same w a s))
    | (intro _ (s : State) (h : Same w a s))
    | (intro (h : Same w a _))
    | (intro (s' : State); refine_lift have h : Same w a s' := ?_; ?_; clear_value s')
    | lift_lets
    | with_reducible apply sameO_next
    | with_reducible apply same_ite
    | with_reducible apply sameO_ite
    | with_reducible apply same_guarded
    | with_reducible apply same_postSts
    | with_reducible apply same_ctRefresh
    | with_reducible apply same_onTag
    | exact listed_trans hw rfl
    | with_reducible refine same_foldl ?_ (fun s x h => ?_)
    | (intro x'; clear_value x')
    | intro _
    | dsimp only [s']
    | split

theorem same_execTagCtOpen (a0 : Req) (hw : listed [.tag, .hsi, .result] w = true) (h : Same w a s) :
    SameO w a (execTagCtOpen a0 s) := by
  unfold execTagCtOpen
  repeat' first
    | with_reducible assumption
    | (intro (s : State) (h : Same w a s))
    | (intro _ (s : State) (h : Same w a s))
    | (intro (h : Same w a _))
    | (intro (s' : State); refine_lift have h : Same w a s' := ?_; ?_; clear_value s')
    | lift_lets
    | with_reducible apply sameO_next
    | with_reducible apply same_ite
    | with_reducible apply sameO_ite
    | with_reducible apply same_guarded
    | with_reducible apply same_postSts
    | with_reducible apply same_ctRefresh
    | with_reducible apply same_onTag
    | exact listed_trans hw rfl
    | with_reducible refine same_foldl ?_ (fun s x h => ?_)
    | (intro x'; clear_value x')
    | intro _
    | dsimp only [s']
    | split

theorem same_execTagCtPublish (a0 : Req) (a1 : Bytes) (hw : listed [.tag, .hsi, .result] w = true) (h : Same w a s) :
    SameO w a (execTagCtPublish a0 a1 s) := by
  unfold execTagCtPublish
  repeat' first
    | with_reducible assumption
    | (intro (s : State) (h : Same w a s))
    | (intro _ (s : State) (h : Same w a s))
    | (intro (h : Same w a _))
    | (intro (s' : State); refine_lift have h : Same w a s' := ?_; ?_; clear_value s')
    | lift_lets
    | with_reducible apply sameO_next
    | with_reducible apply same_ite
    | with_reducible apply sameO_ite
    | with_reducible apply same_guarded
    | with_reducible apply same_postSts
    | with_reducible apply same_putBlock
    | exact listed_trans hw rfl
    | with_reducible refine same_foldl ?_ (fun s x h => ?_)
    | (intro x'; clear_value x')
    | intro _
    | dsimp only [s']
    | split

theorem same_ctReject (a0 : EvClass) (a1 : ℕ) (a2 : ℕ) (hw : listed [.log] w = true) (h : Same w a s) :
    Same w a (ctReject a0 a1 a2 s) := by
  unfold ctReject
  repeat' first
    | with_reducible assumption
    | (intro (s : State) (h : Same w a s))
    | (intro _ (s : State) (h : Same w a s))
    | (intro (h : Same w a _))
    | (intro (s' : State); refine_lift have h : Same w a s' := ?_; ?_; clear_value s')
    | lift_lets
    | with_reducible apply sameO_next
    | with_reducible apply same_ite
    | with_reducible apply same_logEv
    | exact listed_trans hw rfl
    | with_reducible refine same_foldl ?_ (fun s x h => ?_)
    | (intro x'; clear_value x')
    | intro _
    | dsimp only [s']
    | split

theorem same_execTagCtAdopt (a0 : Req) (hw : listed [.tag, .log, .hsi, .result] w = true) (h : Same w a s) :
    SameO w a (execTagCtAdopt a0 s) := by
  unfold execTagCtAdopt
  repeat' first
    | with_reducible assumption
    | (intro (s : State) (h : Same w a s))
    | (intro _ (s : State) (h : Same w a s))
    | (intro (h : Same w a _))
    | (intro (s' : State); refine_lift have h : Same w a s' := ?_; ?_; clear_value s')
    | lift_lets
    | with_reducible apply sameO_next
    | with_reducible apply same_ite
    | with_reducible apply sameO_ite
    | with_reducible apply same_postSts
    | with_reducible apply same_ctReject
    | with_reducible apply same_onTag
    | with_reducible apply same_logEv
    | with_reducible apply same_ctPublishInfo
    | exact listed_trans hw rfl
    | with_reducible refine same_foldl ?_ (fun s x h => ?_)
    | (intro x'; clear_value x')
    | intro _
    | dsimp only [s']
    | split

theorem same_ctError (a0 : ℕ) (hw : listed [.tag] w = true) (h : Same w a s) :
    Same w a (ctError a0 s) := by
  unfold ctError
  repeat' first
    | with_reducible assumption
    | (intro (s : State) (h : Same w a s))
    | (intro _ (s : State) (h : Same w a s))
    | (intro (h : Same w a _))
    | (intro (s' : State); refine_lift have h : Same w a s' := ?_; ?_; clear_value s')
    | lift_lets
    | with_reducible apply sameO_next
    | with_reducible apply same_ite
    | with_reducible apply same_onTag
    | exact listed_trans hw rfl
    | with_reducible refine same_foldl ?_ (fun s x h => ?_)
    | (intro x'; clear_value x')
    | intro _
    | dsimp only [s']
    | split

theorem same_ctAnswer (a0 : Bytes) (hw : listed [.tag] w = true) (h : Same w a s) :
    Same w a (ctAnswer a0 s) := by
  unfold ctAnswer
  repeat' first
    | with_reducible assumption
    | (intro (s : State) (h : Same w a s))
    | (intro _ (s : State) (h : Same w a s))
    | (intro (h : Same w a _))
    | (intro (s' : State); refine_lift have h : Same w a s' := ?_; ?_; clear_value s')
    | lift_lets
    | with_reducible apply sameO_next
    | with_reducible apply same_ite
    | with_reducible apply same_onTag
    | exact listed_trans hw rfl
    | with_reducible refine same_foldl ?_ (fun s x h => ?_)
    | (intro x'; clear_value x')
    | intro _
    | dsimp only [s']
    | split

theorem same_execCtReadBlock (a0 : ℕ) (a1 : ℕ) (hw : listed [.tag] w = true) (h : Same w a s) :
    SameO w a (execCtReadBlock a0 a1 s) := by
  unfold execCtReadBlock
  repeat' first
    | with_reducible assumption
    | (intro (s : State) (h : Same w a s))
    | (intro _ (s : State) (h : Same w a s))
    | (intro (h : Same w a _))
    | (intro (s' : State); refine_lift have h : Same w a s' := ?_; ?_; clear_value s')
    | lift_lets
    | with_reducible apply sameO_next
    | with_reducible apply same_ite
    | with_reducible apply sameO_ite
    | with_reducible apply same_ctError
    | with_reducible apply same_onTag
    | with_reducible apply same_ctAnswer
    | exact listed_trans hw rfl
    | with_reducible refine same_foldl ?_ (fun s x h => ?_)
    | (intro x'; clear_value x')
    | intro _
    | dsimp only [s']
    | split

theorem same_ctCollapse  (hw : listed [.tag] w = true) (h : Same w a s) :
    Same w a (ctCollapse s) := by
  unfold ctCollapse
  repeat' first
    | with_reducible assumption
    | (intro (s : State) (h : Same w a s))
    | (intro _ (s : State) (h : Same w a s))
    | (intro (h : Same w a _))
    | (intro (s' : State); refine_lift have h : Same w a s' := ?_; ?_; clear_value s')
    | lift_lets
    | with_reducible apply sameO_next
    | with_reducible apply same_ite
    | with_reducible apply same_onTag
    | exact listed_trans hw rfl
    | with_reducible refine same_foldl ?_ (fun s x h => ?_)
    | (intro x'; clear_value x')
    | intro _
    | dsimp only [s']
    | split

theorem same_ctWrite (a0 : ℕ) (a1 : Bytes) (a2 : Bool) (a3 : WriteCut) (hw : listed [.tag] w = true) (h : Same w a s) :
    Same w a (ctWrite a0 a1 a2 a3 s) := by
  unfold ctWrite
  repeat' first
    | with_reducible assumption
    | (intro (s : State) (h : Same w a s))
    | (intro _ (s : State) (h : Same w a s))
    | (intro (h : Same w a _))
    | (intro (s' : State); refine_lift have h : Same w a s' := ?_; ?_; clear_value s')
    | lift_lets
    | with_reducible apply sameO_next
    | with_reducible apply same_ite
    | with_reducible apply same_ctError
    | with_reducible apply same_ctCollapse
    | with_reducible apply same_putBlock
    | with_reducible apply same_ctAnswer
    | with_reducible apply same_onTag
    | exact listed_trans hw rfl
    | with_reducible refine same_foldl ?_ (fun s x h => ?_)
    | (intro x'; clear_value x')
    | intro _
    | dsimp only [s']
    | split

theorem same_ctIgnored  (hw : listed [.tag] w = true) (h : Same w a s) :
    Same w a (ctIgnored s) := by
  unfold ctIgnored
  repeat' first
    | with_reducible assumption
    | (intro (s : State) (h : Same w a s))
    | (intro _ (s : State) (h : Same w a s))
    | (intro (h : Same w a _))
    | (intro (s' : State); refine_lift have h : Same w a s' := ?_; ?_; clear_value s')
    | lift_lets
    | with_reducible apply sameO_next
    | with_reducible apply same_ite
    | with_reducible apply same_onTag
    | exact listed_trans hw rfl
    | with_reducible refine same_foldl ?_ (fun s x h => ?_)
    | (intro x'; clear_value x')
    | intro _
    | dsimp only [s']
    | split

theorem same_execCtWriteSingleBlock (a0 : ℕ) (a1 : Bytes) (a2 : Bool) (a3 : WriteCut) (hw : listed [.tag] w = true) (h : Same w a s) :
    SameO w a (execCtWriteSingleBlock a0 a1 a2 a3 s) := by
  unfold execCtWriteSingleBlock
  repeat' first
    | with_reducible assumption
    | (intro (s : State) (h : Same w a s))
    | (intro _ (s : State) (h : Same w a s))
    | (intro (h : Same w a _))
    | (intro (s' : State); refine_lift have h : Same w a s' := ?_; ?_; clear_value s')
    | lift_lets
    | with_reducible apply sameO_next
    | with_reducible apply same_ite
    | with_reducible apply sameO_ite
    | with_reducible apply same_ctIgnored
    | with_reducible apply same_ctError
    | with_reducible apply same_ctWrite
    | exact listed_trans hw rfl
    | with_reducible refine same_foldl ?_ (fun s x h => ?_)
    | (intro x'; clear_value x')
    | intro _
    | dsimp only [s']
    | split

theorem same_execCtGetChallenge  (hw : listed [.tag, .freeCtr] w = true) (h : Same w a s) :
    SameO w a (execCtGetChallenge s) := by
  unfold execCtGetChallenge
  repeat' first
    | with_reducible assumption
    | (intro (s : State) (h : Same w a s))
    | (intro _ (s : State) (h : Same w a s))
    | (intro (h : Same w a _))
    | (intro (s' : State); refine_lift have h : Same w a s' := ?_; ?_; clear_value s')
    | lift_lets
    | with_reducible apply sameO_next
    | with_reducible apply same_ite
    | with_reducible apply sameO_ite
    | with_reducible apply same_ctError
    | with_reducible apply same_bump
    | with_reducible apply same_onTag
    | with_reducible apply same_ctAnswer
    | exact listed_trans hw rfl
    | with_reducible refine same_foldl ?_ (fun s x h => ?_)
    | (intro x'; clear_value x')
    | intro _
    | dsimp only [s']
    | split

theorem same_ctMacFail  (hw : listed [.tag] w = true) (h : Same w a s) :
    Same w a (ctMacFail s) := by
  unfold ctMacFail
  repeat' first
    | with_reducible assumption
    | (intro (s : State) (h : Same w a s))
    | (intro _ (s : State) (h : Same w a s))
    | (intro (h : Same w a _))
    | (intro (s' : State); refine_lift have h : Same w a s' := ?_; ?_; clear_value s')
    | lift_lets
    | with_reducible apply sameO_next
    | with_reducible apply same_ite
    | with_reducible apply same_ctError
    | with_reducible apply same_onTag
    | exact listed_trans hw rfl
    | with_reducible refine same_foldl ?_ (fun s x h => ?_)
    | (intro x'; clear_value x')
    | intro _
    | dsimp only [s']
    | split

theorem same_execCtAuthWrite (a0 : ℕ) (a1 : Bytes) (a2 : Bytes) (a3 : Bool) (a4 : WriteCut) (hw : listed [.tag] w = true) (h : Same w a s) :
    SameO w a (execCtAuthWrite a0 a1 a2 a3 a4 s) := by
  unfold execCtAuthWrite
  repeat' first
    | with_reducible assumption
    | (intro (s : State) (h : Same w a s))
    | (intro _ (s : State) (h : Same w a s))
    | (intro (h : Same w a _))
    | (intro (s' : State); refine_lift have h : Same w a s' := ?_; ?_; clear_value s')
    | lift_lets
    | with_reducible apply sameO_next
    | with_reducible apply same_ite
    | with_reducible apply sameO_ite
    | with_reducible apply same_ctIgnored
    | with_reducible apply same_ctError
    | with_reducible apply same_ctMacFail
    | with_reducible apply same_ctWrite
    | exact listed_trans hw rfl
    | with_reducible refine same_foldl ?_ (fun s x h => ?_)
    | (intro x'; clear_value x')
    | intro _
    | dsimp only [s']
    | split

theorem same_execCtFieldChange (a0 : Bool) (a1 : Bool) (a2 : Bool) (hw : listed [.tag] w = true) (h : Same w a s) :
    SameO w a (execCtFieldChange a0 a1 a2 s) := by
  unfold execCtFieldChange
  repeat' first
    | with_reducible assumption
    | (intro (s : State) (h : Same w a s))
    | (intro _ (s : State) (h : Same w a s))
    | (intro (h : Same w a _))
    | (intro (s' : State); refine_lift have h : Same w a s' := ?_; ?_; clear_value s')
    | lift_lets
    | with_reducible apply sameO_next
    | with_reducible apply same_ite
    | with_reducible apply sameO_ite
    | with_reducible apply same_onTag
    | with_reducible apply same_ctCollapse
    | exact listed_trans hw rfl
    | with_reducible refine same_foldl ?_ (fun s x h => ?_)
    | (intro x'; clear_value x')
    | intro _
    | dsimp only [s']
    | split

end Sys2Proof.Machine
end

