-- ==== Sys2Proof/Laws/FrameReset.lean ====
section
/-! SUPPORT. Which parts of the state the operations of Reset.lean write. -/

set_option linter.unusedVariables false
set_option linter.unreachableTactic false
set_option linter.unusedTactic false

namespace Sys2Proof.Machine

variable {w : List Part} {a s : State}

theorem same_outputsSafe  (hw : listed [.pwr, .owl, .vlk] w = true) (h : Same w a s) :
    Same w a (outputsSafe s) := by
  unfold outputsSafe
  repeat' first
    | with_reducible assumption
    | (intro (s : State) (h : Same w a s))
    | (intro _ (s : State) (h : Same w a s))
    | (intro (h : Same w a _))
    | (intro (s' : State); refine_lift have h : Same w a s' := ?_; ?_; clear_value s')
    | lift_lets
    | with_reducible apply sameO_next
    | with_reducible apply same_ite
    | with_reducible apply same_onOwl
    | with_reducible apply same_onPwr
    | with_reducible apply same_onLinks
    | exact listed_trans hw rfl
    | with_reducible refine same_foldl ?_ (fun s x h => ?_)
    | (intro x'; clear_value x')
    | intro _
    | dsimp only [s']
    | split

theorem same_assertReset (a0 : Bool) (a1 : ℕ) (a2 : Bool) (hw : listed [.met, .pwr, .owl, .vlk, .tim, .sys, .hsi] w = true) (h : Same w a s) :
    Same w a (assertReset a0 a1 a2 s) := by
  unfold assertReset
  repeat' first
    | with_reducible assumption
    | (intro (s : State) (h : Same w a s))
    | (intro _ (s : State) (h : Same w a s))
    | (intro (h : Same w a _))
    | (intro (s' : State); refine_lift have h : Same w a s' := ?_; ?_; clear_value s')
    | lift_lets
    | with_reducible apply sameO_next
    | with_reducible apply same_ite
    | with_reducible apply same_saveRtc
    | with_reducible apply same_onMet
    | with_reducible apply same_onHsi
    | (with_reducible refine same_onSys ?_ ?_ ?_
       rotate_left
       rotate_left
       · intro _; first | exact ⟨rfl, rfl⟩ | (constructor <;> split <;> rfl))
    | with_reducible apply same_outputsSafe
    | exact listed_trans hw rfl
    | with_reducible refine same_foldl ?_ (fun s x h => ?_)
    | (intro x'; clear_value x')
    | intro _
    | dsimp only [s']
    | split

theorem same_requestReset (a0 : Bool) (a1 : ℕ) (hw : listed [.sys] w = true) (h : Same w a s) :
    Same w a (requestReset a0 a1 s) := by
  unfold requestReset
  repeat' first
    | with_reducible assumption
    | (intro (s : State) (h : Same w a s))
    | (intro _ (s : State) (h : Same w a s))
    | (intro (h : Same w a _))
    | (intro (s' : State); refine_lift have h : Same w a s' := ?_; ?_; clear_value s')
    | lift_lets
    | with_reducible apply sameO_next
    | with_reducible apply same_ite
    | (with_reducible refine same_onSys ?_ ?_ ?_
       rotate_left
       rotate_left
       · intro _; first | exact ⟨rfl, rfl⟩ | (constructor <;> split <;> rfl))
    | exact listed_trans hw rfl
    | with_reducible refine same_foldl ?_ (fun s x h => ?_)
    | (intro x'; clear_value x')
    | intro _
    | dsimp only [s']
    | split

end Sys2Proof.Machine
end

