-- ==== Sys2Proof/Laws/FrameKeys.lean ====
section
/-! SUPPORT. Which parts of the state the operations of Keys.lean write. -/

set_option linter.unusedVariables false
set_option linter.unreachableTactic false
set_option linter.unusedTactic false

namespace Sys2Proof.Machine

variable {w : List Part} {a s : State}

theorem same_loadSlot (a0 : ℕ) (hw : listed [.key, .log] w = true) (h : Same w a s) :
    Same w a (loadSlot a0 s) := by
  unfold loadSlot
  repeat' first
    | with_reducible assumption
    | (intro (s : State) (h : Same w a s))
    | (intro _ (s : State) (h : Same w a s))
    | (intro (h : Same w a _))
    | (intro (s' : State); refine_lift have h : Same w a s' := ?_; ?_; clear_value s')
    | lift_lets
    | with_reducible apply sameO_next
    | with_reducible apply same_ite
    | with_reducible apply same_onKey
    | with_reducible apply same_logEv
    | exact listed_trans hw rfl
    | with_reducible refine same_foldl ?_ (fun s x h => ?_)
    | (intro x'; clear_value x')
    | intro _
    | dsimp only [s']
    | split

theorem same_loadSlots  (hw : listed [.key, .log] w = true) (h : Same w a s) :
    Same w a (loadSlots s) := by
  unfold loadSlots
  repeat' first
    | with_reducible assumption
    | (intro (s : State) (h : Same w a s))
    | (intro _ (s : State) (h : Same w a s))
    | (intro (h : Same w a _))
    | (intro (s' : State); refine_lift have h : Same w a s' := ?_; ?_; clear_value s')
    | lift_lets
    | with_reducible apply sameO_next
    | with_reducible apply same_ite
    | with_reducible apply same_onKey
    | with_reducible apply same_loadSlot
    | exact listed_trans hw rfl
    | with_reducible refine same_foldl ?_ (fun s x h => ?_)
    | (intro x'; clear_value x')
    | intro _
    | dsimp only [s']
    | split

theorem same_deriveSlots  (hw : listed [.key] w = true) (h : Same w a s) :
    Same w a (deriveSlots s) := by
  unfold deriveSlots
  repeat' first
    | with_reducible assumption
    | (intro (s : State) (h : Same w a s))
    | (intro _ (s : State) (h : Same w a s))
    | (intro (h : Same w a _))
    | (intro (s' : State); refine_lift have h : Same w a s' := ?_; ?_; clear_value s')
    | lift_lets
    | with_reducible apply sameO_next
    | with_reducible apply same_ite
    | with_reducible apply same_onKey
    | exact listed_trans hw rfl
    | with_reducible refine same_foldl ?_ (fun s x h => ?_)
    | (intro x'; clear_value x')
    | intro _
    | dsimp only [s']
    | split

theorem same_slotsChanged  (hw : listed [.glk, .tag, .key, .log, .sram] w = true) (h : Same w a s) :
    Same w a (slotsChanged s) := by
  unfold slotsChanged
  repeat' first
    | with_reducible assumption
    | (intro (s : State) (h : Same w a s))
    | (intro _ (s : State) (h : Same w a s))
    | (intro (h : Same w a _))
    | (intro (s' : State); refine_lift have h : Same w a s' := ?_; ?_; clear_value s')
    | lift_lets
    | with_reducible apply sameO_next
    | with_reducible apply same_ite
    | with_reducible apply same_ctRefresh
    | with_reducible apply same_glkGate
    | exact listed_trans hw rfl
    | with_reducible refine same_foldl ?_ (fun s x h => ?_)
    | (intro x'; clear_value x')
    | intro _
    | dsimp only [s']
    | split

theorem same_freshSeed  (hw : listed [.key, .freeCtr] w = true) (h : Same w a s) :
    Same w a (freshSeed s) := by
  unfold freshSeed
  repeat' first
    | with_reducible assumption
    | (intro (s : State) (h : Same w a s))
    | (intro _ (s : State) (h : Same w a s))
    | (intro (h : Same w a _))
    | (intro (s' : State); refine_lift have h : Same w a s' := ?_; ?_; clear_value s')
    | lift_lets
    | with_reducible apply sameO_next
    | with_reducible apply same_ite
    | with_reducible apply same_bump
    | with_reducible apply same_onKey
    | exact listed_trans hw rfl
    | with_reducible refine same_foldl ?_ (fun s x h => ?_)
    | (intro x'; clear_value x')
    | intro _
    | dsimp only [s']
    | split

theorem same_installKey (a0 : ℕ) (a1 : KeySlot) (a2 : ℕ) (hw : listed [.key, .freeCtr] w = true) (h : Same w a s) :
    Same w a (installKey a0 a1 a2 s) := by
  unfold installKey
  repeat' first
    | with_reducible assumption
    | (intro (s : State) (h : Same w a s))
    | (intro _ (s : State) (h : Same w a s))
    | (intro (h : Same w a _))
    | (intro (s' : State); refine_lift have h : Same w a s' := ?_; ?_; clear_value s')
    | lift_lets
    | with_reducible apply sameO_next
    | with_reducible apply same_ite
    | with_reducible apply same_freshSeed
    | with_reducible apply same_bump
    | with_reducible apply same_onKey
    | exact listed_trans hw rfl
    | with_reducible refine same_foldl ?_ (fun s x h => ?_)
    | (intro x'; clear_value x')
    | intro _
    | dsimp only [s']
    | split

theorem same_eraseKey (a0 : ℕ) (hw : listed [.key] w = true) (h : Same w a s) :
    Same w a (eraseKey a0 s) := by
  unfold eraseKey
  repeat' first
    | with_reducible assumption
    | (intro (s : State) (h : Same w a s))
    | (intro _ (s : State) (h : Same w a s))
    | (intro (h : Same w a _))
    | (intro (s' : State); refine_lift have h : Same w a s' := ?_; ?_; clear_value s')
    | lift_lets
    | with_reducible apply sameO_next
    | with_reducible apply same_ite
    | with_reducible apply same_onKey
    | exact listed_trans hw rfl
    | with_reducible refine same_foldl ?_ (fun s x h => ?_)
    | (intro x'; clear_value x')
    | intro _
    | dsimp only [s']
    | split

theorem same_zeroise (a0 : ℕ) (hw : listed [.glk, .tag, .key, .log, .sram] w = true) (h : Same w a s) :
    Same w a (zeroise a0 s) := by
  unfold zeroise
  repeat' first
    | with_reducible assumption
    | (intro (s : State) (h : Same w a s))
    | (intro _ (s : State) (h : Same w a s))
    | (intro (h : Same w a _))
    | (intro (s' : State); refine_lift have h : Same w a s' := ?_; ?_; clear_value s')
    | lift_lets
    | with_reducible apply sameO_next
    | with_reducible apply same_ite
    | with_reducible apply same_onKey
    | with_reducible apply same_slotsChanged
    | with_reducible apply same_logEv
    | exact listed_trans hw rfl
    | with_reducible refine same_foldl ?_ (fun s x h => ?_)
    | (intro x'; clear_value x')
    | intro _
    | dsimp only [s']
    | split

theorem same_tamperAct (a0 : ℕ) (hw : listed [.glk, .tag, .key, .log, .sram] w = true) (h : Same w a s) :
    Same w a (tamperAct a0 s) := by
  unfold tamperAct
  repeat' first
    | with_reducible assumption
    | (intro (s : State) (h : Same w a s))
    | (intro _ (s : State) (h : Same w a s))
    | (intro (h : Same w a _))
    | (intro (s' : State); refine_lift have h : Same w a s' := ?_; ?_; clear_value s')
    | lift_lets
    | with_reducible apply sameO_next
    | with_reducible apply same_ite
    | with_reducible apply same_onKey
    | with_reducible apply same_logEv
    | with_reducible apply same_zeroise
    | exact listed_trans hw rfl
    | with_reducible refine same_foldl ?_ (fun s x h => ?_)
    | (intro x'; clear_value x')
    | intro _
    | dsimp only [s']
    | split

theorem same_logLc (a0 : Lc) (a1 : Lc) (a2 : ℕ) (a3 : ℕ) (hw : listed [.log] w = true) (h : Same w a s) :
    Same w a (logLc a0 a1 a2 a3 s) := by
  unfold logLc
  repeat' first
    | with_reducible assumption
    | (intro (s : State) (h : Same w a s))
    | (intro _ (s : State) (h : Same w a s))
    | (intro (h : Same w a _))
    | (intro (s' : State); refine_lift have h : Same w a s' := ?_; ?_; clear_value s')
    | lift_lets
    | with_reducible apply sameO_next
    | with_reducible apply same_ite
    | with_reducible apply same_logEv
    | exact listed_trans hw rfl
    | with_reducible refine same_foldl ?_ (fun s x h => ?_)
    | (intro x'; clear_value x')
    | intro _
    | dsimp only [s']
    | split

theorem same_wipeClass (a0 : Bool) (hw : listed [.owl, .tag, .key, .upd, .log, .freeCtr] w = true) (h : Same w a s) :
    Same w a (wipeClass a0 s) := by
  unfold wipeClass
  repeat' first
    | with_reducible assumption
    | (intro (s : State) (h : Same w a s))
    | (intro _ (s : State) (h : Same w a s))
    | (intro (h : Same w a _))
    | (intro (s' : State); refine_lift have h : Same w a s' := ?_; ?_; clear_value s')
    | lift_lets
    | with_reducible apply sameO_next
    | with_reducible apply same_ite
    | with_reducible apply same_onKey
    | with_reducible apply same_freshSeed
    | with_reducible apply same_onUpd
    | with_reducible apply same_onOwl
    | with_reducible apply same_onCfg
    | with_reducible apply same_wipeCache
    | with_reducible apply same_changeEntry
    | exact listed_trans hw rfl
    | with_reducible refine same_foldl ?_ (fun s x h => ?_)
    | (intro x'; clear_value x')
    | intro _
    | dsimp only [s']
    | split

theorem same_writeLc (a0 : Lc) (a1 : Bytes) (a2 : Bytes) (a3 : Bool) (hw : listed [.key] w = true) (h : Same w a s) :
    Same w a (writeLc a0 a1 a2 a3 s) := by
  unfold writeLc
  repeat' first
    | with_reducible assumption
    | (intro (s : State) (h : Same w a s))
    | (intro _ (s : State) (h : Same w a s))
    | (intro (h : Same w a _))
    | (intro (s' : State); refine_lift have h : Same w a s' := ?_; ?_; clear_value s')
    | lift_lets
    | with_reducible apply sameO_next
    | with_reducible apply same_ite
    | with_reducible apply same_onKey
    | exact listed_trans hw rfl
    | with_reducible refine same_foldl ?_ (fun s x h => ?_)
    | (intro x'; clear_value x')
    | intro _
    | dsimp only [s']
    | split

theorem same_transition (a0 : Lc) (a1 : Bytes) (a2 : Bytes) (a3 : ℕ) (a4 : ℕ) (hw : listed [.met, .owl, .tag, .key, .upd, .sys, .log, .freeCtr] w = true) (h : Same w a s) :
    Same w a (transition a0 a1 a2 a3 a4 s) := by
  unfold transition
  repeat' first
    | with_reducible assumption
    | (intro (s : State) (h : Same w a s))
    | (intro _ (s : State) (h : Same w a s))
    | (intro (h : Same w a _))
    | (intro (s' : State); refine_lift have h : Same w a s' := ?_; ?_; clear_value s')
    | lift_lets
    | with_reducible apply sameO_next
    | with_reducible apply same_ite
    | with_reducible apply same_capture
    | with_reducible apply same_writeLc
    | with_reducible apply same_wipeClass
    | with_reducible apply same_onKey
    | with_reducible apply same_onOwl
    | with_reducible apply same_requestReset
    | with_reducible apply same_logLc
    | exact listed_trans hw rfl
    | with_reducible refine same_foldl ?_ (fun s x h => ?_)
    | (intro x'; clear_value x')
    | intro _
    | dsimp only [s']
    | split

theorem same_endMaintenance (a0 : ℕ) (a1 : ℕ) (hw : listed [.met, .owl, .tag, .key, .upd, .sys, .log, .freeCtr] w = true) (h : Same w a s) :
    Same w a (endMaintenance a0 a1 s) := by
  unfold endMaintenance
  repeat' first
    | with_reducible assumption
    | (intro (s : State) (h : Same w a s))
    | (intro _ (s : State) (h : Same w a s))
    | (intro (h : Same w a _))
    | (intro (s' : State); refine_lift have h : Same w a s' := ?_; ?_; clear_value s')
    | lift_lets
    | with_reducible apply sameO_next
    | with_reducible apply same_ite
    | with_reducible apply same_transition
    | exact listed_trans hw rfl
    | with_reducible refine same_foldl ?_ (fun s x h => ?_)
    | (intro x'; clear_value x')
    | intro _
    | dsimp only [s']
    | split

theorem same_returnIfDue  (hw : listed [.met, .owl, .tag, .key, .upd, .sys, .log, .freeCtr] w = true) (h : Same w a s) :
    Same w a (returnIfDue s) := by
  unfold returnIfDue
  repeat' first
    | with_reducible assumption
    | (intro (s : State) (h : Same w a s))
    | (intro _ (s : State) (h : Same w a s))
    | (intro (h : Same w a _))
    | (intro (s' : State); refine_lift have h : Same w a s' := ?_; ?_; clear_value s')
    | lift_lets
    | with_reducible apply sameO_next
    | with_reducible apply same_ite
    | with_reducible apply same_endMaintenance
    | exact listed_trans hw rfl
    | with_reducible refine same_foldl ?_ (fun s x h => ?_)
    | (intro x'; clear_value x')
    | intro _
    | dsimp only [s']
    | split

theorem same_execMaintGrantExpiry  (hw : listed [.met, .owl, .tag, .key, .upd, .sys, .log, .freeCtr] w = true) (h : Same w a s) :
    SameO w a (execMaintGrantExpiry s) := by
  unfold execMaintGrantExpiry
  repeat' first
    | with_reducible assumption
    | (intro (s : State) (h : Same w a s))
    | (intro _ (s : State) (h : Same w a s))
    | (intro (h : Same w a _))
    | (intro (s' : State); refine_lift have h : Same w a s' := ?_; ?_; clear_value s')
    | lift_lets
    | with_reducible apply sameO_next
    | with_reducible apply same_ite
    | with_reducible apply sameO_ite
    | with_reducible apply same_returnIfDue
    | with_reducible apply same_onKey
    | exact listed_trans hw rfl
    | with_reducible refine same_foldl ?_ (fun s x h => ?_)
    | (intro x'; clear_value x')
    | intro _
    | dsimp only [s']
    | split

theorem same_execMaintAuthorityExpiry (a0 : Side) (a1 : Bool) (hw : listed [.key] w = true) (h : Same w a s) :
    SameO w a (execMaintAuthorityExpiry a0 a1 s) := by
  unfold execMaintAuthorityExpiry
  repeat' first
    | with_reducible assumption
    | (intro (s : State) (h : Same w a s))
    | (intro _ (s : State) (h : Same w a s))
    | (intro (h : Same w a _))
    | (intro (s' : State); refine_lift have h : Same w a s' := ?_; ?_; clear_value s')
    | lift_lets
    | with_reducible apply sameO_next
    | with_reducible apply same_ite
    | with_reducible apply sameO_ite
    | with_reducible apply same_onKey
    | exact listed_trans hw rfl
    | with_reducible refine same_foldl ?_ (fun s x h => ?_)
    | (intro x'; clear_value x')
    | intro _
    | dsimp only [s']
    | split

theorem same_keyReject (a0 : Req) (a1 : ℕ) (a2 : ℕ) (a3 : EvClass) (a4 : KeyMsg) (hw : listed [.log, .hsi, .result] w = true) (h : Same w a s) :
    Same w a (keyReject a0 a1 a2 a3 a4 s) := by
  unfold keyReject
  repeat' first
    | with_reducible assumption
    | (intro (s : State) (h : Same w a s))
    | (intro _ (s : State) (h : Same w a s))
    | (intro (h : Same w a _))
    | (intro (s' : State); refine_lift have h : Same w a s' := ?_; ?_; clear_value s')
    | lift_lets
    | with_reducible apply sameO_next
    | with_reducible apply same_ite
    | with_reducible apply same_postSts
    | with_reducible apply same_logEv
    | exact listed_trans hw rfl
    | with_reducible refine same_foldl ?_ (fun s x h => ?_)
    | (intro x'; clear_value x')
    | intro _
    | dsimp only [s']
    | split

theorem same_logRng  (hw : listed [.log] w = true) (h : Same w a s) :
    Same w a (logRng s) := by
  unfold logRng
  repeat' first
    | with_reducible assumption
    | (intro (s : State) (h : Same w a s))
    | (intro _ (s : State) (h : Same w a s))
    | (intro (h : Same w a _))
    | (intro (s' : State); refine_lift have h : Same w a s' := ?_; ?_; clear_value s')
    | lift_lets
    | with_reducible apply sameO_next
    | with_reducible apply same_ite
    | with_reducible apply same_logEv
    | exact listed_trans hw rfl
    | with_reducible refine same_foldl ?_ (fun s x h => ?_)
    | (intro x'; clear_value x')
    | intro _
    | dsimp only [s']
    | split

theorem same_newBaseDate (a0 : KeyMsg) (hw : listed [.bil] w = true) (h : Same w a s) :
    Same w a (newBaseDate a0 s) := by
  unfold newBaseDate
  repeat' first
    | with_reducible assumption
    | (intro (s : State) (h : Same w a s))
    | (intro _ (s : State) (h : Same w a s))
    | (intro (h : Same w a _))
    | (intro (s' : State); refine_lift have h : Same w a s' := ?_; ?_; clear_value s')
    | lift_lets
    | with_reducible apply sameO_next
    | with_reducible apply same_ite
    | with_reducible apply same_onBil
    | with_reducible apply same_clearReplay
    | exact listed_trans hw rfl
    | with_reducible refine same_foldl ?_ (fun s x h => ?_)
    | (intro x'; clear_value x')
    | intro _
    | dsimp only [s']
    | split

theorem same_keyEffect (a0 : KeyMsg) (a1 : Bytes) (hw : listed [.met, .bil, .owl, .glk, .tag, .key, .upd, .sys, .log, .sram, .freeCtr] w = true) (h : Same w a s) :
    Same w a ((keyEffect a0 a1 s)).1 := by
  unfold keyEffect
  repeat' first
    | with_reducible assumption
    | (intro (s : State) (h : Same w a s))
    | (intro _ (s : State) (h : Same w a s))
    | (intro (h : Same w a _))
    | (intro (s' : State); refine_lift have h : Same w a s' := ?_; ?_; clear_value s')
    | lift_lets
    | with_reducible apply sameO_next
    | with_reducible apply same_ite
    | with_reducible apply same_slotsChanged
    | with_reducible apply same_installKey
    | with_reducible apply same_newBaseDate
    | with_reducible apply same_bump
    | with_reducible apply same_eraseKey
    | with_reducible apply same_onKey
    | with_reducible apply same_transition
    | with_reducible apply same_endMaintenance
    | exact listed_trans hw rfl
    | with_reducible refine same_foldl ?_ (fun s x h => ?_)
    | (intro x'; clear_value x')
    | intro _
    | dsimp only [s']
    | split

theorem same_execKeyUpdate (a0 : Req) (a1 : Bytes) (hw : listed [.met, .bil, .owl, .glk, .tag, .key, .upd, .sys, .log, .hsi, .sram, .freeCtr, .result] w = true) (h : Same w a s) :
    SameO w a (execKeyUpdate a0 a1 s) := by
  unfold execKeyUpdate
  repeat' first
    | with_reducible assumption
    | (intro (s : State) (h : Same w a s))
    | (intro _ (s : State) (h : Same w a s))
    | (intro (h : Same w a _))
    | (intro (s' : State); refine_lift have h : Same w a s' := ?_; ?_; clear_value s')
    | lift_lets
    | with_reducible apply sameO_next
    | with_reducible apply same_ite
    | with_reducible apply sameO_ite
    | with_reducible apply same_postSts
    | with_reducible apply same_keyReject
    | with_reducible apply same_logRng
    | with_reducible apply same_onKey
    | with_reducible apply same_keyEffect
    | with_reducible apply same_post
    | with_reducible apply same_logEv
    | exact listed_trans hw rfl
    | with_reducible refine same_foldl ?_ (fun s x h => ?_)
    | (intro x'; clear_value x')
    | intro _
    | dsimp only [s']
    | split

theorem same_execKeyChallenge (a0 : Req) (hw : listed [.key, .log, .hsi, .freeCtr, .result] w = true) (h : Same w a s) :
    SameO w a (execKeyChallenge a0 s) := by
  unfold execKeyChallenge
  repeat' first
    | with_reducible assumption
    | (intro (s : State) (h : Same w a s))
    | (intro _ (s : State) (h : Same w a s))
    | (intro (h : Same w a _))
    | (intro (s' : State); refine_lift have h : Same w a s' := ?_; ?_; clear_value s')
    | lift_lets
    | with_reducible apply sameO_next
    | with_reducible apply same_ite
    | with_reducible apply sameO_ite
    | with_reducible apply same_guarded
    | with_reducible apply same_postSts
    | with_reducible apply same_logRng
    | with_reducible apply same_post
    | with_reducible apply same_bump
    | with_reducible apply same_onKey
    | exact listed_trans hw rfl
    | with_reducible refine same_foldl ?_ (fun s x h => ?_)
    | (intro x'; clear_value x')
    | intro _
    | dsimp only [s']
    | split

theorem same_execKeyMaintProve (a0 : Req) (a1 : Bytes) (hw : listed [.key, .hsi, .result] w = true) (h : Same w a s) :
    SameO w a (execKeyMaintProve a0 a1 s) := by
  unfold execKeyMaintProve
  repeat' first
    | with_reducible assumption
    | (intro (s : State) (h : Same w a s))
    | (intro _ (s : State) (h : Same w a s))
    | (intro (h : Same w a _))
    | (intro (s' : State); refine_lift have h : Same w a s' := ?_; ?_; clear_value s')
    | lift_lets
    | with_reducible apply sameO_next
    | with_reducible apply same_ite
    | with_reducible apply sameO_ite
    | with_reducible apply same_guarded
    | with_reducible apply same_onKey
    | with_reducible apply same_postSts
    | exact listed_trans hw rfl
    | with_reducible refine same_foldl ?_ (fun s x h => ?_)
    | (intro x'; clear_value x')
    | intro _
    | dsimp only [s']
    | split

theorem same_execKeyZeroise (a0 : Req) (a1 : ℕ) (hw : listed [.glk, .tag, .key, .log, .hsi, .sram, .result] w = true) (h : Same w a s) :
    SameO w a (execKeyZeroise a0 a1 s) := by
  unfold execKeyZeroise
  repeat' first
    | with_reducible assumption
    | (intro (s : State) (h : Same w a s))
    | (intro _ (s : State) (h : Same w a s))
    | (intro (h : Same w a _))
    | (intro (s' : State); refine_lift have h : Same w a s' := ?_; ?_; clear_value s')
    | lift_lets
    | with_reducible apply sameO_next
    | with_reducible apply same_ite
    | with_reducible apply sameO_ite
    | with_reducible apply same_guarded
    | with_reducible apply same_postSts
    | with_reducible apply same_zeroise
    | with_reducible apply same_logRng
    | with_reducible apply same_slotsChanged
    | with_reducible apply same_eraseKey
    | exact listed_trans hw rfl
    | with_reducible refine same_foldl ?_ (fun s x h => ?_)
    | (intro x'; clear_value x')
    | intro _
    | dsimp only [s']
    | split

theorem same_execKeyAttest (a0 : Req) (a1 : Bytes) (hw : listed [.key, .hsi, .freeCtr, .result] w = true) (h : Same w a s) :
    SameO w a (execKeyAttest a0 a1 s) := by
  unfold execKeyAttest
  repeat' first
    | with_reducible assumption
    | (intro (s : State) (h : Same w a s))
    | (intro _ (s : State) (h : Same w a s))
    | (intro (h : Same w a _))
    | (intro (s' : State); refine_lift have h : Same w a s' := ?_; ?_; clear_value s')
    | lift_lets
    | with_reducible apply sameO_next
    | with_reducible apply same_ite
    | with_reducible apply sameO_ite
    | with_reducible apply same_guarded
    | with_reducible apply same_post
    | with_reducible apply same_bump
    | with_reducible apply same_onKey
    | exact listed_trans hw rfl
    | with_reducible refine same_foldl ?_ (fun s x h => ?_)
    | (intro x'; clear_value x')
    | intro _
    | dsimp only [s']
    | split

theorem same_execKeyCertRead (a0 : Req) (hw : listed [.hsi, .result] w = true) (h : Same w a s) :
    SameO w a (execKeyCertRead a0 s) := by
  unfold execKeyCertRead
  repeat' first
    | with_reducible assumption
    | (intro (s : State) (h : Same w a s))
    | (intro _ (s : State) (h : Same w a s))
    | (intro (h : Same w a _))
    | (intro (s' : State); refine_lift have h : Same w a s' := ?_; ?_; clear_value s')
    | lift_lets
    | with_reducible apply sameO_next
    | with_reducible apply same_ite
    | with_reducible apply sameO_ite
    | with_reducible apply same_guarded
    | with_reducible apply same_post
    | exact listed_trans hw rfl
    | with_reducible refine same_foldl ?_ (fun s x h => ?_)
    | (intro x'; clear_value x')
    | intro _
    | dsimp only [s']
    | split

theorem same_execKeyCntLoRead (a0 : Side) (hw : listed [.key, .rdata] w = true) (h : Same w a s) :
    SameO w a (execKeyCntLoRead a0 s) := by
  unfold execKeyCntLoRead
  repeat' first
    | with_reducible assumption
    | (intro (s : State) (h : Same w a s))
    | (intro _ (s : State) (h : Same w a s))
    | (intro (h : Same w a _))
    | (intro (s' : State); refine_lift have h : Same w a s' := ?_; ?_; clear_value s')
    | lift_lets
    | with_reducible apply sameO_next
    | with_reducible apply same_ite
    | with_reducible apply sameO_ite
    | with_reducible apply same_returns
    | with_reducible apply same_onKey
    | exact listed_trans hw rfl
    | with_reducible refine same_foldl ?_ (fun s x h => ?_)
    | (intro x'; clear_value x')
    | intro _
    | dsimp only [s']
    | split

theorem same_execKeyStatusRead (a0 : Side) (hw : listed [.key, .rdata] w = true) (h : Same w a s) :
    SameO w a (execKeyStatusRead a0 s) := by
  unfold execKeyStatusRead
  repeat' first
    | with_reducible assumption
    | (intro (s : State) (h : Same w a s))
    | (intro _ (s : State) (h : Same w a s))
    | (intro (h : Same w a _))
    | (intro (s' : State); refine_lift have h : Same w a s' := ?_; ?_; clear_value s')
    | lift_lets
    | with_reducible apply sameO_next
    | with_reducible apply same_ite
    | with_reducible apply sameO_ite
    | with_reducible apply same_returns
    | with_reducible apply same_onKey
    | exact listed_trans hw rfl
    | with_reducible refine same_foldl ?_ (fun s x h => ?_)
    | (intro x'; clear_value x')
    | intro _
    | dsimp only [s']
    | split

end Sys2Proof.Machine
end

