-- ==== Sys2Proof/Laws/FrameUpdate.lean ====
section
/-! SUPPORT. Which parts of the state the operations of Update.lean write. -/

set_option linter.unusedVariables false
set_option linter.unreachableTactic false
set_option linter.unusedTactic false

namespace Sys2Proof.Machine

variable {w : List Part} {a s : State}

theorem same_onKind (a0 : ℕ) (a1 : Kind → Kind) (hw : listed [.upd] w = true) (h : Same w a s) :
    Same w a (onKind a0 a1 s) := by
  unfold onKind
  repeat' first
    | with_reducible assumption
    | (intro (s : State) (h : Same w a s))
    | (intro _ (s : State) (h : Same w a s))
    | (intro (h : Same w a _))
    | (intro (s' : State); refine_lift have h : Same w a s' := ?_; ?_; clear_value s')
    | lift_lets
    | with_reducible apply sameO_next
    | with_reducible apply same_ite
    | with_reducible apply same_onUpd
    | exact listed_trans hw rfl
    | with_reducible refine same_foldl ?_ (fun s x h => ?_)
    | (intro x'; clear_value x')
    | intro _
    | dsimp only [s']
    | split

theorem same_setBank (a0 : ℕ) (a1 : Bool) (a2 : Bank) (hw : listed [.upd] w = true) (h : Same w a s) :
    Same w a (setBank a0 a1 a2 s) := by
  unfold setBank
  repeat' first
    | with_reducible assumption
    | (intro (s : State) (h : Same w a s))
    | (intro _ (s : State) (h : Same w a s))
    | (intro (h : Same w a _))
    | (intro (s' : State); refine_lift have h : Same w a s' := ?_; ?_; clear_value s')
    | lift_lets
    | with_reducible apply sameO_next
    | with_reducible apply same_ite
    | with_reducible apply same_onKind
    | exact listed_trans hw rfl
    | with_reducible refine same_foldl ?_ (fun s x h => ?_)
    | (intro x'; clear_value x')
    | intro _
    | dsimp only [s']
    | split

theorem same_markBank (a0 : ℕ) (a1 : Bool) (a2 : BankState) (hw : listed [.upd] w = true) (h : Same w a s) :
    Same w a (markBank a0 a1 a2 s) := by
  unfold markBank
  repeat' first
    | with_reducible assumption
    | (intro (s : State) (h : Same w a s))
    | (intro _ (s : State) (h : Same w a s))
    | (intro (h : Same w a _))
    | (intro (s' : State); refine_lift have h : Same w a s' := ?_; ?_; clear_value s')
    | lift_lets
    | with_reducible apply sameO_next
    | with_reducible apply same_ite
    | with_reducible apply same_onKind
    | exact listed_trans hw rfl
    | with_reducible refine same_foldl ?_ (fun s x h => ?_)
    | (intro x'; clear_value x')
    | intro _
    | dsimp only [s']
    | split

theorem same_onSettings (a0 : ℕ) (a1 : Settings → Settings) (hw : listed [.upd] w = true) (h : Same w a s) :
    Same w a (onSettings a0 a1 s) := by
  unfold onSettings
  repeat' first
    | with_reducible assumption
    | (intro (s : State) (h : Same w a s))
    | (intro _ (s : State) (h : Same w a s))
    | (intro (h : Same w a _))
    | (intro (s' : State); refine_lift have h : Same w a s' := ?_; ?_; clear_value s')
    | lift_lets
    | with_reducible apply sameO_next
    | with_reducible apply same_ite
    | with_reducible apply same_onUpd
    | exact listed_trans hw rfl
    | with_reducible refine same_foldl ?_ (fun s x h => ?_)
    | (intro x'; clear_value x')
    | intro _
    | dsimp only [s']
    | split

theorem same_keepReject (a0 : ℕ) (a1 : ℕ) (hw : listed [.upd] w = true) (h : Same w a s) :
    Same w a (keepReject a0 a1 s) := by
  unfold keepReject
  repeat' first
    | with_reducible assumption
    | (intro (s : State) (h : Same w a s))
    | (intro _ (s : State) (h : Same w a s))
    | (intro (h : Same w a _))
    | (intro (s' : State); refine_lift have h : Same w a s' := ?_; ?_; clear_value s')
    | lift_lets
    | with_reducible apply sameO_next
    | with_reducible apply same_ite
    | with_reducible apply same_onUpd
    | exact listed_trans hw rfl
    | with_reducible refine same_foldl ?_ (fun s x h => ?_)
    | (intro x'; clear_value x')
    | intro _
    | dsimp only [s']
    | split

theorem same_logUpdReject (a0 : EvClass) (a1 : ℕ) (a2 : Bytes) (hw : listed [.log] w = true) (h : Same w a s) :
    Same w a (logUpdReject a0 a1 a2 s) := by
  unfold logUpdReject
  repeat' first
    | with_reducible assumption
    | (intro (s : State) (h : Same w a s))
    | (intro _ (s : State) (h : Same w a s))
    | (intro (h : Same w a _))
    | (intro (s' : State); refine_lift have h : Same w a s' := ?_; ?_; clear_value s')
    | lift_lets
    | with_reducible apply sameO_next
    | with_reducible apply same_ite
    | with_reducible apply same_logEv
    | exact listed_trans hw rfl
    | with_reducible refine same_foldl ?_ (fun s x h => ?_)
    | (intro x'; clear_value x')
    | intro _
    | dsimp only [s']
    | split

theorem same_eraseOther (a0 : ℕ) (hw : listed [.str, .upd] w = true) (h : Same w a s) :
    Same w a (eraseOther a0 s) := by
  unfold eraseOther
  repeat' first
    | with_reducible assumption
    | (intro (s : State) (h : Same w a s))
    | (intro _ (s : State) (h : Same w a s))
    | (intro (h : Same w a _))
    | (intro (s' : State); refine_lift have h : Same w a s' := ?_; ?_; clear_value s')
    | lift_lets
    | with_reducible apply sameO_next
    | with_reducible apply same_ite
    | with_reducible apply same_setBank
    | with_reducible apply same_onStr
    | exact listed_trans hw rfl
    | with_reducible refine same_foldl ?_ (fun s x h => ?_)
    | (intro x'; clear_value x')
    | intro _
    | dsimp only [s']
    | split

theorem same_updBegin (a0 : Req) (a1 : Bytes) (hw : listed [.str, .key, .upd, .log, .hsi, .result] w = true) (h : Same w a s) :
    Same w a (updBegin a0 a1 s) := by
  unfold updBegin
  dsimp only
  repeat' first
    | with_reducible assumption
    | (intro (s : State) (h : Same w a s))
    | (intro _ (s : State) (h : Same w a s))
    | (intro (h : Same w a _))
    | (intro (s' : State); refine_lift have h : Same w a s' := ?_; ?_; clear_value s')
    | with_reducible apply sameO_next
    | with_reducible apply same_ite
    | with_reducible apply same_keepReject
    | with_reducible apply same_askKey
    | with_reducible apply same_postSts
    | with_reducible apply same_logUpdReject
    | with_reducible apply same_eraseOther
    | with_reducible apply same_setBank
    | with_reducible apply same_onUpd
    | exact listed_trans hw rfl
    | with_reducible refine same_foldl ?_ (fun s x h => ?_)
    | (intro x'; clear_value x')
    | intro _
    | dsimp only [s']
    | split

theorem same_execUpdBegin (a0 : Req) (a1 : Bytes) (hw : listed [.str, .key, .upd, .log, .hsi, .result] w = true) (h : Same w a s) :
    SameO w a (execUpdBegin a0 a1 s) := by
  unfold execUpdBegin
  repeat' first
    | with_reducible assumption
    | (intro (s : State) (h : Same w a s))
    | (intro _ (s : State) (h : Same w a s))
    | (intro (h : Same w a _))
    | (intro (s' : State); refine_lift have h : Same w a s' := ?_; ?_; clear_value s')
    | lift_lets
    | with_reducible apply sameO_next
    | with_reducible apply same_ite
    | with_reducible apply sameO_ite
    | with_reducible apply same_badgerCmd
    | with_reducible apply same_updBegin
    | exact listed_trans hw rfl
    | with_reducible refine same_foldl ?_ (fun s x h => ?_)
    | (intro x'; clear_value x')
    | intro _
    | dsimp only [s']
    | split

theorem same_closeTransfer  (hw : listed [.str, .upd] w = true) (h : Same w a s) :
    Same w a (closeTransfer s) := by
  unfold closeTransfer
  repeat' first
    | with_reducible assumption
    | (intro (s : State) (h : Same w a s))
    | (intro _ (s : State) (h : Same w a s))
    | (intro (h : Same w a _))
    | (intro (s' : State); refine_lift have h : Same w a s' := ?_; ?_; clear_value s')
    | lift_lets
    | with_reducible apply sameO_next
    | with_reducible apply same_ite
    | with_reducible apply same_onUpd
    | with_reducible apply same_eraseOther
    | exact listed_trans hw rfl
    | with_reducible refine same_foldl ?_ (fun s x h => ?_)
    | (intro x'; clear_value x')
    | intro _
    | dsimp only [s']
    | split

theorem same_updData (a0 : Req) (a1 : ℕ) (a2 : Bytes) (hw : listed [.upd, .hsi, .result] w = true) (h : Same w a s) :
    Same w a (updData a0 a1 a2 s) := by
  unfold updData
  repeat' first
    | with_reducible assumption
    | (intro (s : State) (h : Same w a s))
    | (intro _ (s : State) (h : Same w a s))
    | (intro (h : Same w a _))
    | (intro (s' : State); refine_lift have h : Same w a s' := ?_; ?_; clear_value s')
    | lift_lets
    | with_reducible apply sameO_next
    | with_reducible apply same_ite
    | with_reducible apply same_postSts
    | with_reducible apply same_onUpd
    | exact listed_trans hw rfl
    | with_reducible refine same_foldl ?_ (fun s x h => ?_)
    | (intro x'; clear_value x')
    | intro _
    | dsimp only [s']
    | split

theorem same_execUpdData (a0 : Req) (a1 : ℕ) (a2 : Bytes) (hw : listed [.upd, .hsi, .result] w = true) (h : Same w a s) :
    SameO w a (execUpdData a0 a1 a2 s) := by
  unfold execUpdData
  repeat' first
    | with_reducible assumption
    | (intro (s : State) (h : Same w a s))
    | (intro _ (s : State) (h : Same w a s))
    | (intro (h : Same w a _))
    | (intro (s' : State); refine_lift have h : Same w a s' := ?_; ?_; clear_value s')
    | lift_lets
    | with_reducible apply sameO_next
    | with_reducible apply same_ite
    | with_reducible apply sameO_ite
    | with_reducible apply same_badgerCmd
    | with_reducible apply same_updData
    | exact listed_trans hw rfl
    | with_reducible refine same_foldl ?_ (fun s x h => ?_)
    | (intro x'; clear_value x')
    | intro _
    | dsimp only [s']
    | split

theorem same_updEnd (a0 : Req) (hw : listed [.str, .upd, .log, .hsi, .result] w = true) (h : Same w a s) :
    Same w a (updEnd a0 s) := by
  unfold updEnd
  repeat' first
    | with_reducible assumption
    | (intro (s : State) (h : Same w a s))
    | (intro _ (s : State) (h : Same w a s))
    | (intro (h : Same w a _))
    | (intro (s' : State); refine_lift have h : Same w a s' := ?_; ?_; clear_value s')
    | lift_lets
    | with_reducible apply sameO_next
    | with_reducible apply same_ite
    | with_reducible apply same_postSts
    | with_reducible apply same_logUpdReject
    | with_reducible apply same_keepReject
    | with_reducible apply same_closeTransfer
    | with_reducible apply same_setBank
    | with_reducible apply same_onStr
    | with_reducible apply same_logEv
    | with_reducible apply same_onUpd
    | exact listed_trans hw rfl
    | with_reducible refine same_foldl ?_ (fun s x h => ?_)
    | (intro x'; clear_value x')
    | intro _
    | dsimp only [s']
    | split

theorem same_execUpdEnd (a0 : Req) (hw : listed [.str, .upd, .log, .hsi, .result] w = true) (h : Same w a s) :
    SameO w a (execUpdEnd a0 s) := by
  unfold execUpdEnd
  repeat' first
    | with_reducible assumption
    | (intro (s : State) (h : Same w a s))
    | (intro _ (s : State) (h : Same w a s))
    | (intro (h : Same w a _))
    | (intro (s' : State); refine_lift have h : Same w a s' := ?_; ?_; clear_value s')
    | lift_lets
    | with_reducible apply sameO_next
    | with_reducible apply same_ite
    | with_reducible apply sameO_ite
    | with_reducible apply same_badgerCmd
    | with_reducible apply same_updEnd
    | exact listed_trans hw rfl
    | with_reducible refine same_foldl ?_ (fun s x h => ?_)
    | (intro x'; clear_value x')
    | intro _
    | dsimp only [s']
    | split

theorem same_updAbort (a0 : Req) (hw : listed [.str, .upd, .hsi, .result] w = true) (h : Same w a s) :
    Same w a (updAbort a0 s) := by
  unfold updAbort
  repeat' first
    | with_reducible assumption
    | (intro (s : State) (h : Same w a s))
    | (intro _ (s : State) (h : Same w a s))
    | (intro (h : Same w a _))
    | (intro (s' : State); refine_lift have h : Same w a s' := ?_; ?_; clear_value s')
    | lift_lets
    | with_reducible apply sameO_next
    | with_reducible apply same_ite
    | with_reducible apply same_guarded
    | with_reducible apply same_postSts
    | with_reducible apply same_closeTransfer
    | exact listed_trans hw rfl
    | with_reducible refine same_foldl ?_ (fun s x h => ?_)
    | (intro x'; clear_value x')
    | intro _
    | dsimp only [s']
    | split

theorem same_execUpdAbort (a0 : Req) (hw : listed [.str, .upd, .hsi, .result] w = true) (h : Same w a s) :
    SameO w a (execUpdAbort a0 s) := by
  unfold execUpdAbort
  repeat' first
    | with_reducible assumption
    | (intro (s : State) (h : Same w a s))
    | (intro _ (s : State) (h : Same w a s))
    | (intro (h : Same w a _))
    | (intro (s' : State); refine_lift have h : Same w a s' := ?_; ?_; clear_value s')
    | lift_lets
    | with_reducible apply sameO_next
    | with_reducible apply same_ite
    | with_reducible apply sameO_ite
    | with_reducible apply same_badgerCmd
    | with_reducible apply same_updAbort
    | exact listed_trans hw rfl
    | with_reducible refine same_foldl ?_ (fun s x h => ?_)
    | (intro x'; clear_value x')
    | intro _
    | dsimp only [s']
    | split

theorem same_execUpdTransferTimeout  (hw : listed [.str, .upd] w = true) (h : Same w a s) :
    SameO w a (execUpdTransferTimeout s) := by
  unfold execUpdTransferTimeout
  repeat' first
    | with_reducible assumption
    | (intro (s : State) (h : Same w a s))
    | (intro _ (s : State) (h : Same w a s))
    | (intro (h : Same w a _))
    | (intro (s' : State); refine_lift have h : Same w a s' := ?_; ?_; clear_value s')
    | lift_lets
    | with_reducible apply sameO_next
    | with_reducible apply same_ite
    | with_reducible apply sameO_ite
    | with_reducible apply same_closeTransfer
    | exact listed_trans hw rfl
    | with_reducible refine same_foldl ?_ (fun s x h => ?_)
    | (intro x'; clear_value x')
    | intro _
    | dsimp only [s']
    | split

theorem same_startCluster  (hw : listed [.mgt, .sram] w = true) (h : Same w a s) :
    Same w a (startCluster s) := by
  unfold startCluster
  repeat' first
    | with_reducible assumption
    | (intro (s : State) (h : Same w a s))
    | (intro _ (s : State) (h : Same w a s))
    | (intro (h : Same w a _))
    | (exact same_sram (listed_trans hw rfl) h)
    | (intro (s' : State); refine_lift have h : Same w a s' := ?_; ?_; clear_value s')
    | lift_lets
    | with_reducible apply sameO_next
    | with_reducible apply same_ite
    | (with_reducible refine same_onMgt ?_ ?_ ?_
       rotate_left
       rotate_left
       · intro _; first | exact ⟨rfl, rfl, rfl, rfl⟩ | (refine ⟨?_, ?_, ?_, ?_⟩ <;> split <;> rfl))
    | exact listed_trans hw rfl
    | with_reducible refine same_foldl ?_ (fun s x h => ?_)
    | (intro x'; clear_value x')
    | intro _
    | dsimp only [s']
    | split

theorem same_stopBadger  (hw : listed [.sys, .mgt, .log] w = true) (h : Same w a s) :
    Same w a (stopBadger s) := by
  unfold stopBadger
  repeat' first
    | with_reducible assumption
    | (intro (s : State) (h : Same w a s))
    | (intro _ (s : State) (h : Same w a s))
    | (intro (h : Same w a _))
    | (intro (s' : State); refine_lift have h : Same w a s' := ?_; ?_; clear_value s')
    | lift_lets
    | with_reducible apply sameO_next
    | with_reducible apply same_ite
    | with_reducible apply same_onMgt_both
    | with_reducible apply same_onSys_both
    | exact listed_trans hw rfl
    | with_reducible refine same_foldl ?_ (fun s x h => ?_)
    | (intro x'; clear_value x')
    | intro _
    | dsimp only [s']
    | split

theorem same_startKind (a0 : ℕ) (hw : listed [.vlk, .glk, .sys, .mgt, .log, .sram] w = true) (h : Same w a s) :
    Same w a (startKind a0 s) := by
  unfold startKind
  repeat' first
    | with_reducible assumption
    | (intro (s : State) (h : Same w a s))
    | (intro _ (s : State) (h : Same w a s))
    | (intro (h : Same w a _))
    | (intro (s' : State); refine_lift have h : Same w a s' := ?_; ?_; clear_value s')
    | lift_lets
    | with_reducible apply sameO_next
    | with_reducible apply same_ite
    | with_reducible apply same_startCluster
    | with_reducible apply same_stopBadger
    | with_reducible apply same_slacCheck
    | with_reducible apply same_slacOff
    | with_reducible apply same_glkAfterWatch
    | with_reducible apply same_abandonMsdu
    | with_reducible apply same_dropMember
    | exact listed_trans hw rfl
    | with_reducible refine same_foldl ?_ (fun s x h => ?_)
    | (intro x'; clear_value x')
    | intro _
    | dsimp only [s']
    | split

theorem same_migrate (a0 : ℕ) (a1 : Bank) (hw : listed [.upd, .freeCtr] w = true) (h : Same w a s) :
    Same w a (migrate a0 a1 s) := by
  unfold migrate
  repeat' first
    | with_reducible assumption
    | (intro (s : State) (h : Same w a s))
    | (intro _ (s : State) (h : Same w a s))
    | (intro (h : Same w a _))
    | (intro (s' : State); refine_lift have h : Same w a s' := ?_; ?_; clear_value s')
    | lift_lets
    | with_reducible apply sameO_next
    | with_reducible apply same_ite
    | with_reducible apply same_bump
    | with_reducible apply same_onSettings
    | exact listed_trans hw rfl
    | with_reducible refine same_foldl ?_ (fun s x h => ?_)
    | (intro x'; clear_value x')
    | intro _
    | dsimp only [s']
    | split

theorem same_logMigrate (a0 : ℕ) (a1 : ℕ) (a2 : ℕ) (a3 : ℕ) (a4 : ℕ) (hw : listed [.log] w = true) (h : Same w a s) :
    Same w a (logMigrate a0 a1 a2 a3 a4 s) := by
  unfold logMigrate
  repeat' first
    | with_reducible assumption
    | (intro (s : State) (h : Same w a s))
    | (intro _ (s : State) (h : Same w a s))
    | (intro (h : Same w a _))
    | (intro (s' : State); refine_lift have h : Same w a s' := ?_; ?_; clear_value s')
    | lift_lets
    | with_reducible apply sameO_next
    | with_reducible apply same_ite
    | with_reducible apply same_logEv
    | exact listed_trans hw rfl
    | with_reducible refine same_foldl ?_ (fun s x h => ?_)
    | (intro x'; clear_value x')
    | intro _
    | dsimp only [s']
    | split

theorem same_endMigration (a0 : ℕ) (a1 : Bool) (hw : listed [.upd, .log] w = true) (h : Same w a s) :
    Same w a (endMigration a0 a1 s) := by
  unfold endMigration
  repeat' first
    | with_reducible assumption
    | (intro (s : State) (h : Same w a s))
    | (intro _ (s : State) (h : Same w a s))
    | (intro (h : Same w a _))
    | (intro (s' : State); refine_lift have h : Same w a s' := ?_; ?_; clear_value s')
    | lift_lets
    | with_reducible apply sameO_next
    | with_reducible apply same_ite
    | with_reducible apply same_onSettings
    | with_reducible apply same_logMigrate
    | exact listed_trans hw rfl
    | with_reducible refine same_foldl ?_ (fun s x h => ?_)
    | (intro x'; clear_value x')
    | intro _
    | dsimp only [s']
    | split

theorem same_takeBank (a0 : ℕ) (hw : listed [.tag, .upd] w = true) (h : Same w a s) :
    Same w a (takeBank a0 s) := by
  unfold takeBank
  repeat' first
    | with_reducible assumption
    | (intro (s : State) (h : Same w a s))
    | (intro _ (s : State) (h : Same w a s))
    | (intro (h : Same w a _))
    | (intro (s' : State); refine_lift have h : Same w a s' := ?_; ?_; clear_value s')
    | lift_lets
    | with_reducible apply sameO_next
    | with_reducible apply same_ite
    | with_reducible apply same_markBank
    | with_reducible apply same_ctPublishInfo
    | with_reducible apply same_onKind
    | exact listed_trans hw rfl
    | with_reducible refine same_foldl ?_ (fun s x h => ?_)
    | (intro x'; clear_value x')
    | intro _
    | dsimp only [s']
    | split

theorem same_commitPart (a0 : ℕ) (hw : listed [.upd, .log] w = true) (h : Same w a s) :
    Same w a (commitPart a0 s) := by
  unfold commitPart
  repeat' first
    | with_reducible assumption
    | (intro (s : State) (h : Same w a s))
    | (intro _ (s : State) (h : Same w a s))
    | (intro (h : Same w a _))
    | (intro (s' : State); refine_lift have h : Same w a s' := ?_; ?_; clear_value s')
    | lift_lets
    | with_reducible apply sameO_next
    | with_reducible apply same_ite
    | with_reducible apply same_markBank
    | with_reducible apply same_onKind
    | with_reducible apply same_endMigration
    | with_reducible apply same_logEv
    | exact listed_trans hw rfl
    | with_reducible refine same_foldl ?_ (fun s x h => ?_)
    | (intro x'; clear_value x')
    | intro _
    | dsimp only [s']
    | split

theorem same_mirrorCopy  (hw : listed [.str, .upd] w = true) (h : Same w a s) :
    Same w a (mirrorCopy s) := by
  unfold mirrorCopy
  repeat' first
    | with_reducible assumption
    | (intro (s : State) (h : Same w a s))
    | (intro _ (s : State) (h : Same w a s))
    | (intro (h : Same w a _))
    | (intro (s' : State); refine_lift have h : Same w a s' := ?_; ?_; clear_value s')
    | lift_lets
    | with_reducible apply sameO_next
    | with_reducible apply same_ite
    | with_reducible apply same_onStr
    | with_reducible apply same_setBank
    | exact listed_trans hw rfl
    | with_reducible refine same_foldl ?_ (fun s x h => ?_)
    | (intro x'; clear_value x')
    | intro _
    | dsimp only [s']
    | split

theorem same_commitTrial (a0 : Trial) (hw : listed [.str, .upd, .log] w = true) (h : Same w a s) :
    Same w a (commitTrial a0 s) := by
  unfold commitTrial
  repeat' first
    | with_reducible assumption
    | (intro (s : State) (h : Same w a s))
    | (intro _ (s : State) (h : Same w a s))
    | (intro (h : Same w a _))
    | (intro (s' : State); refine_lift have h : Same w a s' := ?_; ?_; clear_value s')
    | lift_lets
    | with_reducible apply sameO_next
    | with_reducible apply same_ite
    | with_reducible apply same_commitPart
    | with_reducible apply same_mirrorCopy
    | with_reducible apply same_onUpd
    | exact listed_trans hw rfl
    | with_reducible refine same_foldl ?_ (fun s x h => ?_)
    | (intro x'; clear_value x')
    | intro _
    | dsimp only [s']
    | split

theorem same_rollbackPart (a0 : ℕ) (a1 : ℕ) (hw : listed [.tag, .upd, .log] w = true) (h : Same w a s) :
    Same w a (rollbackPart a0 a1 s) := by
  unfold rollbackPart
  repeat' first
    | with_reducible assumption
    | (intro (s : State) (h : Same w a s))
    | (intro _ (s : State) (h : Same w a s))
    | (intro (h : Same w a _))
    | (intro (s' : State); refine_lift have h : Same w a s' := ?_; ?_; clear_value s')
    | lift_lets
    | with_reducible apply sameO_next
    | with_reducible apply same_ite
    | with_reducible apply same_markBank
    | with_reducible apply same_onKind
    | with_reducible apply same_ctPublishInfo
    | with_reducible apply same_endMigration
    | with_reducible apply same_logEv
    | exact listed_trans hw rfl
    | with_reducible refine same_foldl ?_ (fun s x h => ?_)
    | (intro x'; clear_value x')
    | intro _
    | dsimp only [s']
    | split

theorem same_failTrial (a0 : ℕ) (hw : listed [.vlk, .glk, .tag, .upd, .sys, .mgt, .log, .sram, .freeCtr] w = true) (h : Same w a s) :
    Same w a (failTrial a0 s) := by
  unfold failTrial
  repeat' first
    | with_reducible assumption
    | (intro (s : State) (h : Same w a s))
    | (intro _ (s : State) (h : Same w a s))
    | (intro (h : Same w a _))
    | (intro (s' : State); refine_lift have h : Same w a s' := ?_; ?_; clear_value s')
    | lift_lets
    | with_reducible apply sameO_next
    | with_reducible apply same_ite
    | with_reducible apply same_bump
    | with_reducible apply same_onUpd
    | with_reducible apply same_rollbackPart
    | with_reducible apply same_startKind
    | exact listed_trans hw rfl
    | with_reducible refine same_foldl ?_ (fun s x h => ?_)
    | (intro x'; clear_value x')
    | intro _
    | dsimp only [s']
    | split

theorem same_countStart  (hw : listed [.vlk, .glk, .tag, .upd, .sys, .mgt, .log, .sram, .freeCtr] w = true) (h : Same w a s) :
    Same w a (countStart s) := by
  unfold countStart
  repeat' first
    | with_reducible assumption
    | (intro (s : State) (h : Same w a s))
    | (intro _ (s : State) (h : Same w a s))
    | (intro (h : Same w a _))
    | (intro (s' : State); refine_lift have h : Same w a s' := ?_; ?_; clear_value s')
    | lift_lets
    | with_reducible apply sameO_next
    | with_reducible apply same_ite
    | with_reducible apply same_onUpd
    | with_reducible apply same_failTrial
    | exact listed_trans hw rfl
    | with_reducible refine same_foldl ?_ (fun s x h => ?_)
    | (intro x'; clear_value x')
    | intro _
    | dsimp only [s']
    | split

theorem same_execTrialPass  (hw : listed [.str, .upd, .log] w = true) (h : Same w a s) :
    SameO w a (execTrialPass s) := by
  unfold execTrialPass
  repeat' first
    | with_reducible assumption
    | (intro (s : State) (h : Same w a s))
    | (intro _ (s : State) (h : Same w a s))
    | (intro (h : Same w a _))
    | (intro (s' : State); refine_lift have h : Same w a s' := ?_; ?_; clear_value s')
    | lift_lets
    | with_reducible apply sameO_next
    | with_reducible apply same_ite
    | with_reducible apply sameO_ite
    | with_reducible apply same_commitTrial
    | exact listed_trans hw rfl
    | with_reducible refine same_foldl ?_ (fun s x h => ?_)
    | (intro x'; clear_value x')
    | intro _
    | dsimp only [s']
    | split

theorem same_execTrialFail (a0 : ℕ) (hw : listed [.vlk, .glk, .tag, .upd, .sys, .mgt, .log, .sram, .freeCtr] w = true) (h : Same w a s) :
    SameO w a (execTrialFail a0 s) := by
  unfold execTrialFail
  repeat' first
    | with_reducible assumption
    | (intro (s : State) (h : Same w a s))
    | (intro _ (s : State) (h : Same w a s))
    | (intro (h : Same w a _))
    | (intro (s' : State); refine_lift have h : Same w a s' := ?_; ?_; clear_value s')
    | lift_lets
    | with_reducible apply sameO_next
    | with_reducible apply same_ite
    | with_reducible apply sameO_ite
    | with_reducible apply same_failTrial
    | exact listed_trans hw rfl
    | with_reducible refine same_foldl ?_ (fun s x h => ?_)
    | (intro x'; clear_value x')
    | intro _
    | dsimp only [s']
    | split

theorem same_updConfirm (a0 : Req) (hw : listed [.upd, .hsi, .result] w = true) (h : Same w a s) :
    Same w a (updConfirm a0 s) := by
  unfold updConfirm
  repeat' first
    | with_reducible assumption
    | (intro (s : State) (h : Same w a s))
    | (intro _ (s : State) (h : Same w a s))
    | (intro (h : Same w a _))
    | (intro (s' : State); refine_lift have h : Same w a s' := ?_; ?_; clear_value s')
    | lift_lets
    | with_reducible apply sameO_next
    | with_reducible apply same_ite
    | with_reducible apply same_guarded
    | with_reducible apply same_postSts
    | with_reducible apply same_onUpd
    | exact listed_trans hw rfl
    | with_reducible refine same_foldl ?_ (fun s x h => ?_)
    | (intro x'; clear_value x')
    | intro _
    | dsimp only [s']
    | split

theorem same_execUpdConfirm (a0 : Req) (hw : listed [.upd, .hsi, .result] w = true) (h : Same w a s) :
    SameO w a (execUpdConfirm a0 s) := by
  unfold execUpdConfirm
  repeat' first
    | with_reducible assumption
    | (intro (s : State) (h : Same w a s))
    | (intro _ (s : State) (h : Same w a s))
    | (intro (h : Same w a _))
    | (intro (s' : State); refine_lift have h : Same w a s' := ?_; ?_; clear_value s')
    | lift_lets
    | with_reducible apply sameO_next
    | with_reducible apply same_ite
    | with_reducible apply sameO_ite
    | with_reducible apply same_badgerCmd
    | with_reducible apply same_updConfirm
    | exact listed_trans hw rfl
    | with_reducible refine same_foldl ?_ (fun s x h => ?_)
    | (intro x'; clear_value x')
    | intro _
    | dsimp only [s']
    | split

theorem same_logActivate (a0 : ℕ) (a1 : ℕ) (a2 : ℕ) (hw : listed [.log] w = true) (h : Same w a s) :
    Same w a (logActivate a0 a1 a2 s) := by
  unfold logActivate
  repeat' first
    | with_reducible assumption
    | (intro (s : State) (h : Same w a s))
    | (intro _ (s : State) (h : Same w a s))
    | (intro (h : Same w a _))
    | (intro (s' : State); refine_lift have h : Same w a s' := ?_; ?_; clear_value s')
    | lift_lets
    | with_reducible apply sameO_next
    | with_reducible apply same_ite
    | with_reducible apply same_logEv
    | exact listed_trans hw rfl
    | with_reducible refine same_foldl ?_ (fun s x h => ?_)
    | (intro x'; clear_value x')
    | intro _
    | dsimp only [s']
    | split

theorem same_refuseActivate (a0 : Req) (a1 : ℕ) (a2 : ℕ) (a3 : ℕ) (hw : listed [.upd, .hsi, .result] w = true) (h : Same w a s) :
    Same w a (refuseActivate a0 a1 a2 a3 s) := by
  unfold refuseActivate
  repeat' first
    | with_reducible assumption
    | (intro (s : State) (h : Same w a s))
    | (intro _ (s : State) (h : Same w a s))
    | (intro (h : Same w a _))
    | (intro (s' : State); refine_lift have h : Same w a s' := ?_; ?_; clear_value s')
    | lift_lets
    | with_reducible apply sameO_next
    | with_reducible apply same_ite
    | with_reducible apply same_post
    | with_reducible apply same_onUpd
    | exact listed_trans hw rfl
    | with_reducible refine same_foldl ?_ (fun s x h => ?_)
    | (intro x'; clear_value x')
    | intro _
    | dsimp only [s']
    | split

theorem same_activateTable  (hw : listed [.epd, .upd, .log] w = true) (h : Same w a s) :
    Same w a (activateTable s) := by
  unfold activateTable
  repeat' first
    | with_reducible assumption
    | (intro (s : State) (h : Same w a s))
    | (intro _ (s : State) (h : Same w a s))
    | (intro (h : Same w a _))
    | (intro (s' : State); refine_lift have h : Same w a s' := ?_; ?_; clear_value s')
    | lift_lets
    | with_reducible apply sameO_next
    | with_reducible apply same_ite
    | with_reducible apply same_offerTable
    | with_reducible apply same_markBank
    | with_reducible apply same_onKind
    | exact listed_trans hw rfl
    | with_reducible refine same_foldl ?_ (fun s x h => ?_)
    | (intro x'; clear_value x')
    | intro _
    | dsimp only [s']
    | split

theorem same_activateOne (a0 : Req) (a1 : ℕ) (hw : listed [.vlk, .glk, .tag, .epd, .upd, .sys, .mgt, .log, .hsi, .sram, .freeCtr, .result] w = true) (h : Same w a s) :
    Same w a (activateOne a0 a1 s) := by
  unfold activateOne
  repeat' first
    | with_reducible assumption
    | (intro (s : State) (h : Same w a s))
    | (intro _ (s : State) (h : Same w a s))
    | (intro (h : Same w a _))
    | (intro (s' : State); refine_lift have h : Same w a s' := ?_; ?_; clear_value s')
    | lift_lets
    | with_reducible apply sameO_next
    | with_reducible apply same_ite
    | with_reducible apply same_refuseActivate
    | with_reducible apply same_onUpd
    | with_reducible apply same_postSts
    | with_reducible apply same_logActivate
    | with_reducible apply same_activateTable
    | with_reducible apply same_migrate
    | with_reducible apply same_takeBank
    | with_reducible apply same_startKind
    | exact listed_trans hw rfl
    | with_reducible refine same_foldl ?_ (fun s x h => ?_)
    | (intro x'; clear_value x')
    | intro _
    | dsimp only [s']
    | split

theorem same_sealBefore  (hw : listed [.met, .bil] w = true) (h : Same w a s) :
    Same w a (sealBefore s) := by
  unfold sealBefore
  repeat' first
    | with_reducible assumption
    | (intro (s : State) (h : Same w a s))
    | (intro _ (s : State) (h : Same w a s))
    | (intro (h : Same w a _))
    | (intro (s' : State); refine_lift have h : Same w a s' := ?_; ?_; clear_value s')
    | lift_lets
    | with_reducible apply sameO_next
    | with_reducible apply same_ite
    | with_reducible apply same_saveAtOnce
    | with_reducible apply same_capture
    | with_reducible apply same_restartDemand
    | with_reducible apply same_closeDemand
    | exact listed_trans hw rfl
    | with_reducible refine same_foldl ?_ (fun s x h => ?_)
    | (intro x'; clear_value x')
    | intro _
    | dsimp only [s']
    | split

theorem same_recordSeal (a0 : ℕ) (a1 : Bytes) (hw : listed [.str, .met, .tag] w = true) (h : Same w a s) :
    Same w a (recordSeal a0 a1 s) := by
  unfold recordSeal
  repeat' first
    | with_reducible assumption
    | (intro (s : State) (h : Same w a s))
    | (intro _ (s : State) (h : Same w a s))
    | (intro (h : Same w a _))
    | (intro (s' : State); refine_lift have h : Same w a s' := ?_; ?_; clear_value s')
    | lift_lets
    | with_reducible apply sameO_next
    | with_reducible apply same_ite
    | with_reducible apply same_onMet
    | with_reducible apply same_ctPublishInfo
    | with_reducible apply same_onStr
    | with_reducible apply same_legalEv
    | exact listed_trans hw rfl
    | with_reducible refine same_foldl ?_ (fun s x h => ?_)
    | (intro x'; clear_value x')
    | intro _
    | dsimp only [s']
    | split

theorem same_runManifest (a0 : List ℕ) (hw : listed [.str, .met, .bil, .tag, .upd, .sys, .log] w = true) (h : Same w a s) :
    Same w a (runManifest a0 s) := by
  unfold runManifest
  repeat' first
    | with_reducible assumption
    | (intro (s : State) (h : Same w a s))
    | (intro _ (s : State) (h : Same w a s))
    | (intro (h : Same w a _))
    | (intro (s' : State); refine_lift have h : Same w a s' := ?_; ?_; clear_value s')
    | lift_lets
    | with_reducible apply sameO_next
    | with_reducible apply same_ite
    | with_reducible apply same_onUpd
    | with_reducible apply same_onStr
    | with_reducible apply same_recordSeal
    | with_reducible apply same_sealBefore
    | with_reducible apply same_logActivate
    | with_reducible apply same_requestReset
    | exact listed_trans hw rfl
    | with_reducible refine same_foldl ?_ (fun s x h => ?_)
    | (intro x'; clear_value x')
    | intro _
    | dsimp only [s']
    | split

theorem same_activateManifest (a0 : Req) (hw : listed [.str, .met, .bil, .tag, .upd, .sys, .log, .hsi, .result] w = true) (h : Same w a s) :
    Same w a (activateManifest a0 s) := by
  unfold activateManifest
  repeat' first
    | with_reducible assumption
    | (intro (s : State) (h : Same w a s))
    | (intro _ (s : State) (h : Same w a s))
    | (intro (h : Same w a _))
    | (intro (s' : State); refine_lift have h : Same w a s' := ?_; ?_; clear_value s')
    | lift_lets
    | with_reducible apply sameO_next
    | with_reducible apply same_ite
    | with_reducible apply same_refuseActivate
    | with_reducible apply same_runManifest
    | with_reducible apply same_pend
    | exact listed_trans hw rfl
    | with_reducible refine same_foldl ?_ (fun s x h => ?_)
    | (intro x'; clear_value x')
    | intro _
    | dsimp only [s']
    | split

theorem same_updActivate (a0 : Req) (a1 : ℕ) (hw : listed [.str, .met, .bil, .vlk, .glk, .tag, .epd, .upd, .sys, .mgt, .log, .hsi, .sram, .freeCtr, .result] w = true) (h : Same w a s) :
    Same w a (updActivate a0 a1 s) := by
  unfold updActivate
  repeat' first
    | with_reducible assumption
    | (intro (s : State) (h : Same w a s))
    | (intro _ (s : State) (h : Same w a s))
    | (intro (h : Same w a _))
    | (intro (s' : State); refine_lift have h : Same w a s' := ?_; ?_; clear_value s')
    | lift_lets
    | with_reducible apply sameO_next
    | with_reducible apply same_ite
    | with_reducible apply same_refuseActivate
    | with_reducible apply same_activateManifest
    | with_reducible apply same_activateOne
    | exact listed_trans hw rfl
    | with_reducible refine same_foldl ?_ (fun s x h => ?_)
    | (intro x'; clear_value x')
    | intro _
    | dsimp only [s']
    | split

theorem same_execUpdActivate (a0 : Req) (a1 : ℕ) (hw : listed [.str, .met, .bil, .vlk, .glk, .tag, .epd, .upd, .sys, .mgt, .log, .hsi, .sram, .freeCtr, .result] w = true) (h : Same w a s) :
    SameO w a (execUpdActivate a0 a1 s) := by
  unfold execUpdActivate
  repeat' first
    | with_reducible assumption
    | (intro (s : State) (h : Same w a s))
    | (intro _ (s : State) (h : Same w a s))
    | (intro (h : Same w a _))
    | (intro (s' : State); refine_lift have h : Same w a s' := ?_; ?_; clear_value s')
    | lift_lets
    | with_reducible apply sameO_next
    | with_reducible apply same_ite
    | with_reducible apply sameO_ite
    | with_reducible apply same_badgerCmd
    | with_reducible apply same_updActivate
    | exact listed_trans hw rfl
    | with_reducible refine same_foldl ?_ (fun s x h => ?_)
    | (intro x'; clear_value x')
    | intro _
    | dsimp only [s']
    | split

end Sys2Proof.Machine
end

