-- ==== Sys2Proof/Laws/FrameBadger.lean ====
section
/-! SUPPORT. Which parts of the state the operations of Badger.lean write. -/

set_option linter.unusedVariables false
set_option linter.unreachableTactic false
set_option linter.unusedTactic false

namespace Sys2Proof.Machine

variable {w : List Part} {a s : State}

theorem same_enterLimp (a0 : ℕ) (hw : listed [.met, .pwr, .owl, .vlk, .glk, .eth, .tag, .sys, .mgt, .log, .can, .sram] w = true) (h : Same w a s) :
    Same w a (enterLimp a0 s) := by
  unfold enterLimp
  repeat' first
    | with_reducible assumption
    | (intro (s : State) (h : Same w a s))
    | (intro _ (s : State) (h : Same w a s))
    | (intro (h : Same w a _))
    | (intro (s' : State); refine_lift have h : Same w a s' := ?_; ?_; clear_value s')
    | lift_lets
    | with_reducible apply sameO_next
    | with_reducible apply same_ite
    | with_reducible apply same_flushRings
    | with_reducible apply same_limpEnterAll
    | with_reducible apply same_setMode
    | exact listed_trans hw rfl
    | with_reducible refine same_foldl ?_ (fun s x h => ?_)
    | (intro x'; clear_value x')
    | intro _
    | dsimp only [s']
    | split

theorem same_clusterGone  (hw : listed [.met, .pwr, .owl, .vlk, .glk, .eth, .tag, .sys, .mgt, .log, .can, .sram] w = true) (h : Same w a s) :
    Same w a (clusterGone s) := by
  unfold clusterGone
  repeat' first
    | with_reducible assumption
    | (intro (s : State) (h : Same w a s))
    | (intro _ (s : State) (h : Same w a s))
    | (intro (h : Same w a _))
    | (intro (s' : State); refine_lift have h : Same w a s' := ?_; ?_; clear_value s')
    | lift_lets
    | with_reducible apply sameO_next
    | with_reducible apply same_ite
    | with_reducible apply same_enterLimp
    | exact listed_trans hw rfl
    | with_reducible refine same_foldl ?_ (fun s x h => ?_)
    | (intro x'; clear_value x')
    | intro _
    | dsimp only [s']
    | split

theorem same_execBadgerWatchdogExpiry  (hw : listed [.str, .met, .pwr, .owl, .vlk, .glk, .eth, .tag, .upd, .sys, .mgt, .log, .can, .sram] w = true) (h : Same w a s) :
    SameO w a (execBadgerWatchdogExpiry s) := by
  unfold execBadgerWatchdogExpiry
  repeat' first
    | with_reducible assumption
    | (intro (s : State) (h : Same w a s))
    | (intro _ (s : State) (h : Same w a s))
    | (intro (h : Same w a _))
    | (intro (s' : State); refine_lift have h : Same w a s' := ?_; ?_; clear_value s')
    | lift_lets
    | with_reducible apply sameO_next
    | with_reducible apply same_ite
    | with_reducible apply sameO_ite
    | with_reducible apply same_stopBadger
    | with_reducible apply same_closeTransfer
    | (with_reducible refine same_onSys ?_ ?_ ?_
       rotate_left
       rotate_left
       · intro _; first | exact ⟨rfl, rfl⟩ | (constructor <;> split <;> rfl))
    | with_reducible apply same_onMet
    | (with_reducible refine same_onMgt ?_ ?_ ?_
       rotate_left
       rotate_left
       · intro _; first | exact ⟨rfl, rfl, rfl, rfl⟩ | (refine ⟨?_, ?_, ?_, ?_⟩ <;> split <;> rfl))
    | with_reducible apply same_logEv
    | with_reducible apply same_enterLimp
    | exact listed_trans hw rfl
    | with_reducible refine same_foldl ?_ (fun s x h => ?_)
    | (intro x'; clear_value x')
    | intro _
    | dsimp only [s']
    | split

theorem same_drainRetention  (hw : listed [.log] w = true) (h : Same w a s) :
    Same w a (drainRetention s) := by
  unfold drainRetention
  repeat' first
    | with_reducible assumption
    | (intro (s : State) (h : Same w a s))
    | (intro _ (s : State) (h : Same w a s))
    | (intro (h : Same w a _))
    | (intro (s' : State); refine_lift have h : Same w a s' := ?_; ?_; clear_value s')
    | lift_lets
    | with_reducible apply sameO_next
    | with_reducible apply same_ite
    | with_reducible apply same_enterLog
    | (with_reducible refine same_onSys_log ?_ ?_ ?_
       rotate_left
       rotate_left
       · intro _; rfl)
    | exact listed_trans hw rfl
    | with_reducible refine same_foldl ?_ (fun s x h => ?_)
    | (intro x'; clear_value x')
    | intro _
    | dsimp only [s']
    | split

theorem same_heartbeat  (hw : listed [.sys, .mgt] w = true) (h : Same w a s) :
    Same w a (heartbeat s) := by
  unfold heartbeat
  repeat' first
    | with_reducible assumption
    | (intro (s : State) (h : Same w a s))
    | (intro _ (s : State) (h : Same w a s))
    | (intro (h : Same w a _))
    | (intro (s' : State); refine_lift have h : Same w a s' := ?_; ?_; clear_value s')
    | lift_lets
    | with_reducible apply sameO_next
    | with_reducible apply same_ite
    | (with_reducible refine same_onSys ?_ ?_ ?_
       rotate_left
       rotate_left
       · intro _; first | exact ⟨rfl, rfl⟩ | (constructor <;> split <;> rfl))
    | (with_reducible refine same_onMgt ?_ ?_ ?_
       rotate_left
       rotate_left
       · intro _; first | exact ⟨rfl, rfl, rfl, rfl⟩ | (refine ⟨?_, ?_, ?_, ?_⟩ <;> split <;> rfl))
    | exact listed_trans hw rfl
    | with_reducible refine same_foldl ?_ (fun s x h => ?_)
    | (intro x'; clear_value x')
    | intro _
    | dsimp only [s']
    | split

theorem same_execMgtAmbHbWrite (a0 : Word) (hw : listed [.sys, .mgt] w = true) (h : Same w a s) :
    SameO w a (execMgtAmbHbWrite a0 s) := by
  unfold execMgtAmbHbWrite
  repeat' first
    | with_reducible assumption
    | (intro (s : State) (h : Same w a s))
    | (intro _ (s : State) (h : Same w a s))
    | (intro (h : Same w a _))
    | (intro (s' : State); refine_lift have h : Same w a s' := ?_; ?_; clear_value s')
    | lift_lets
    | with_reducible apply sameO_next
    | with_reducible apply same_ite
    | with_reducible apply sameO_ite
    | with_reducible apply same_heartbeat
    | exact listed_trans hw rfl
    | with_reducible refine same_foldl ?_ (fun s x h => ?_)
    | (intro x'; clear_value x')
    | intro _
    | dsimp only [s']
    | split

theorem same_execAppHeartbeatTimeout (a0 : ℕ) (hw : listed [.met, .pwr, .owl, .vlk, .glk, .eth, .tag, .upd, .sys, .mgt, .log, .can, .sram, .freeCtr] w = true) (h : Same w a s) :
    SameO w a (execAppHeartbeatTimeout a0 s) := by
  unfold execAppHeartbeatTimeout
  repeat' first
    | with_reducible assumption
    | (intro (s : State) (h : Same w a s))
    | (intro _ (s : State) (h : Same w a s))
    | (intro (h : Same w a _))
    | (intro (s' : State); refine_lift have h : Same w a s' := ?_; ?_; clear_value s')
    | lift_lets
    | with_reducible apply sameO_next
    | with_reducible apply same_ite
    | with_reducible apply sameO_ite
    | with_reducible apply same_startCluster
    | (with_reducible refine same_onSys ?_ ?_ ?_
       rotate_left
       rotate_left
       · intro _; first | exact ⟨rfl, rfl⟩ | (constructor <;> split <;> rfl))
    | (with_reducible refine same_onMgt ?_ ?_ ?_
       rotate_left
       rotate_left
       · intro _; first | exact ⟨rfl, rfl, rfl, rfl⟩ | (refine ⟨?_, ?_, ?_, ?_⟩ <;> split <;> rfl))
    | with_reducible apply same_logEv
    | with_reducible apply same_countStart
    | with_reducible apply same_notice
    | with_reducible apply same_clusterGone
    | exact listed_trans hw rfl
    | with_reducible refine same_foldl ?_ (fun s x h => ?_)
    | (intro x'; clear_value x')
    | intro _
    | dsimp only [s']
    | split

theorem same_execMgtRestart (a0 : Req) (hw : listed [.mgt, .hsi, .sram, .result] w = true) (h : Same w a s) :
    SameO w a (execMgtRestart a0 s) := by
  unfold execMgtRestart
  repeat' first
    | with_reducible assumption
    | (intro (s : State) (h : Same w a s))
    | (intro _ (s : State) (h : Same w a s))
    | (intro (h : Same w a _))
    | (intro (s' : State); refine_lift have h : Same w a s' := ?_; ?_; clear_value s')
    | lift_lets
    | with_reducible apply sameO_next
    | with_reducible apply same_ite
    | with_reducible apply sameO_ite
    | with_reducible apply same_badgerCmd
    | with_reducible apply same_guarded
    | with_reducible apply same_postSts
    | with_reducible apply same_startCluster
    | (with_reducible refine same_onMgt ?_ ?_ ?_
       rotate_left
       rotate_left
       · intro _; first | exact ⟨rfl, rfl, rfl, rfl⟩ | (refine ⟨?_, ?_, ?_, ?_⟩ <;> split <;> rfl))
    | exact listed_trans hw rfl
    | with_reducible refine same_foldl ?_ (fun s x h => ?_)
    | (intro x'; clear_value x')
    | intro _
    | dsimp only [s']
    | split

theorem same_takeMessage (a0 : Side) (hw : listed [.sys, .mgt] w = true) (h : Same w a s) :
    Same w a (takeMessage a0 s) := by
  unfold takeMessage
  repeat' first
    | with_reducible assumption
    | (intro (s : State) (h : Same w a s))
    | (intro _ (s : State) (h : Same w a s))
    | (intro (h : Same w a _))
    | (intro (s' : State); refine_lift have h : Same w a s' := ?_; ?_; clear_value s')
    | lift_lets
    | with_reducible apply sameO_next
    | with_reducible apply same_ite
    | (with_reducible refine same_onMgt ?_ ?_ ?_
       rotate_left
       rotate_left
       · intro _; first | exact ⟨rfl, rfl, rfl, rfl⟩ | (refine ⟨?_, ?_, ?_, ?_⟩ <;> split <;> rfl))
    | with_reducible apply same_noticeTo
    | with_reducible apply same_heartbeat
    | exact listed_trans hw rfl
    | with_reducible refine same_foldl ?_ (fun s x h => ?_)
    | (intro x'; clear_value x')
    | intro _
    | dsimp only [s']
    | split

theorem same_doorbell (a0 : Side) (hw : listed [.sys, .mgt] w = true) (h : Same w a s) :
    Same w a (doorbell a0 s) := by
  unfold doorbell
  repeat' first
    | with_reducible assumption
    | (intro (s : State) (h : Same w a s))
    | (intro _ (s : State) (h : Same w a s))
    | (intro (h : Same w a _))
    | (intro (s' : State); refine_lift have h : Same w a s' := ?_; ?_; clear_value s')
    | lift_lets
    | with_reducible apply sameO_next
    | with_reducible apply same_ite
    | (with_reducible refine same_onMgt ?_ ?_ ?_
       rotate_left
       rotate_left
       · intro _; first | exact ⟨rfl, rfl, rfl, rfl⟩ | (refine ⟨?_, ?_, ?_, ?_⟩ <;> split <;> rfl))
    | with_reducible apply same_takeMessage
    | exact listed_trans hw rfl
    | with_reducible refine same_foldl ?_ (fun s x h => ?_)
    | (intro x'; clear_value x')
    | intro _
    | dsimp only [s']
    | split

theorem same_execMailboxDoorbell (a0 : Side) (hw : listed [.sys, .mgt] w = true) (h : Same w a s) :
    SameO w a (execMailboxDoorbell a0 s) := by
  unfold execMailboxDoorbell
  repeat' first
    | with_reducible assumption
    | (intro (s : State) (h : Same w a s))
    | (intro _ (s : State) (h : Same w a s))
    | (intro (h : Same w a _))
    | (intro (s' : State); refine_lift have h : Same w a s' := ?_; ?_; clear_value s')
    | lift_lets
    | with_reducible apply sameO_next
    | with_reducible apply same_ite
    | with_reducible apply sameO_ite
    | with_reducible apply same_doorbell
    | exact listed_trans hw rfl
    | with_reducible refine same_foldl ?_ (fun s x h => ?_)
    | (intro x'; clear_value x')
    | intro _
    | dsimp only [s']
    | split

theorem same_execBadgerReady  (hw : listed [.bil, .sys, .mgt, .log] w = true) (h : Same w a s) :
    SameO w a (execBadgerReady s) := by
  unfold execBadgerReady
  repeat' first
    | with_reducible assumption
    | (intro (s : State) (h : Same w a s))
    | (intro _ (s : State) (h : Same w a s))
    | (intro (h : Same w a _))
    | (intro (s' : State); refine_lift have h : Same w a s' := ?_; ?_; clear_value s')
    | lift_lets
    | with_reducible apply sameO_next
    | with_reducible apply same_ite
    | with_reducible apply sameO_ite
    | (with_reducible refine same_onSys ?_ ?_ ?_
       rotate_left
       rotate_left
       · intro _; first | exact ⟨rfl, rfl⟩ | (constructor <;> split <;> rfl))
    | with_reducible apply same_flushProfile
    | with_reducible apply same_drainRetention
    | with_reducible apply same_takeMessage
    | exact listed_trans hw rfl
    | with_reducible refine same_foldl ?_ (fun s x h => ?_)
    | (intro x'; clear_value x')
    | intro _
    | dsimp only [s']
    | split

theorem same_hotChange (a0 : Bool) (hw : listed [.met, .pwr, .owl, .vlk, .glk, .eth, .tag, .key, .sys, .mgt, .log, .can, .sram] w = true) (h : Same w a s) :
    Same w a (hotChange a0 s) := by
  unfold hotChange
  repeat' first
    | with_reducible assumption
    | (intro (s : State) (h : Same w a s))
    | (intro _ (s : State) (h : Same w a s))
    | (intro (h : Same w a _))
    | (intro (s' : State); refine_lift have h : Same w a s' := ?_; ?_; clear_value s')
    | lift_lets
    | with_reducible apply sameO_next
    | with_reducible apply same_ite
    | with_reducible apply same_startCluster
    | (with_reducible refine same_onSys ?_ ?_ ?_
       rotate_left
       rotate_left
       · intro _; first | exact ⟨rfl, rfl⟩ | (constructor <;> split <;> rfl))
    | with_reducible apply same_clusterGone
    | with_reducible apply same_glkGate
    | with_reducible apply same_slacOff
    | with_reducible apply same_slacChecks
    | exact listed_trans hw rfl
    | with_reducible refine same_foldl ?_ (fun s x h => ?_)
    | (intro x'; clear_value x')
    | intro _
    | dsimp only [s']
    | split

theorem same_evalTemps (a0 : List ℤ) (hw : listed [.met, .pwr, .owl, .vlk, .glk, .eth, .tag, .key, .sys, .mgt, .log, .can, .sram] w = true) (h : Same w a s) :
    Same w a (evalTemps a0 s) := by
  unfold evalTemps
  repeat' first
    | with_reducible assumption
    | (intro (s : State) (h : Same w a s))
    | (intro _ (s : State) (h : Same w a s))
    | (intro (h : Same w a _))
    | (intro (s' : State); refine_lift have h : Same w a s' := ?_; ?_; clear_value s')
    | lift_lets
    | with_reducible apply sameO_next
    | with_reducible apply same_ite
    | (with_reducible refine same_onMgt ?_ ?_ ?_
       rotate_left
       rotate_left
       · intro _; first | exact ⟨rfl, rfl, rfl, rfl⟩ | (refine ⟨?_, ?_, ?_, ?_⟩ <;> split <;> rfl))
    | with_reducible apply same_logEv
    | with_reducible apply same_notice
    | with_reducible apply same_hotChange
    | exact listed_trans hw rfl
    | with_reducible refine same_foldl ?_ (fun s x h => ?_)
    | (intro x'; clear_value x')
    | intro _
    | dsimp only [s']
    | split

theorem same_logSupply (a0 : ℕ) (a1 : ℕ) (a2 : ℕ) (hw : listed [.log] w = true) (h : Same w a s) :
    Same w a (logSupply a0 a1 a2 s) := by
  unfold logSupply
  repeat' first
    | with_reducible assumption
    | (intro (s : State) (h : Same w a s))
    | (intro _ (s : State) (h : Same w a s))
    | (intro (h : Same w a _))
    | (intro (s' : State); refine_lift have h : Same w a s' := ?_; ?_; clear_value s')
    | lift_lets
    | with_reducible apply sameO_next
    | with_reducible apply same_ite
    | with_reducible apply same_logEv
    | exact listed_trans hw rfl
    | with_reducible refine same_foldl ?_ (fun s x h => ?_)
    | (intro x'; clear_value x')
    | intro _
    | dsimp only [s']
    | split

theorem same_evalSupply (a0 : MonitorInput) (a2 : ℕ) (hw : listed [.mgt, .log] w = true) (h : Same w a s) :
    Same w a (evalSupply a0 s a2) := by
  unfold evalSupply
  repeat' first
    | with_reducible assumption
    | (intro (s : State) (h : Same w a s))
    | (intro _ (s : State) (h : Same w a s))
    | (intro (h : Same w a _))
    | (intro (s' : State); refine_lift have h : Same w a s' := ?_; ?_; clear_value s')
    | lift_lets
    | with_reducible apply sameO_next
    | with_reducible apply same_ite
    | with_reducible apply same_notice
    | with_reducible apply same_logSupply
    | (with_reducible refine same_onMgt ?_ ?_ ?_
       rotate_left
       rotate_left
       · intro _; first | exact ⟨rfl, rfl, rfl, rfl⟩ | (refine ⟨?_, ?_, ?_, ?_⟩ <;> split <;> rfl))
    | exact listed_trans hw rfl
    | with_reducible refine same_foldl ?_ (fun s x h => ?_)
    | (intro x'; clear_value x')
    | intro _
    | dsimp only [s']
    | split

theorem same_evalVbat (a0 : ℕ) (hw : listed [.mgt, .log] w = true) (h : Same w a s) :
    Same w a (evalVbat a0 s) := by
  unfold evalVbat
  repeat' first
    | with_reducible assumption
    | (intro (s : State) (h : Same w a s))
    | (intro _ (s : State) (h : Same w a s))
    | (intro (h : Same w a _))
    | (intro (s' : State); refine_lift have h : Same w a s' := ?_; ?_; clear_value s')
    | lift_lets
    | with_reducible apply sameO_next
    | with_reducible apply same_ite
    | with_reducible apply same_notice
    | with_reducible apply same_logSupply
    | (with_reducible refine same_onMgt ?_ ?_ ?_
       rotate_left
       rotate_left
       · intro _; first | exact ⟨rfl, rfl, rfl, rfl⟩ | (refine ⟨?_, ?_, ?_, ?_⟩ <;> split <;> rfl))
    | exact listed_trans hw rfl
    | with_reducible refine same_foldl ?_ (fun s x h => ?_)
    | (intro x'; clear_value x')
    | intro _
    | dsimp only [s']
    | split

theorem same_monitor (a0 : MonitorInput) (hw : listed [.met, .pwr, .owl, .vlk, .glk, .eth, .tag, .key, .sys, .mgt, .log, .can, .sram] w = true) (h : Same w a s) :
    Same w a (monitor a0 s) := by
  unfold monitor
  repeat' first
    | with_reducible assumption
    | (intro (s : State) (h : Same w a s))
    | (intro _ (s : State) (h : Same w a s))
    | (intro (h : Same w a _))
    | (intro (s' : State); refine_lift have h : Same w a s' := ?_; ?_; clear_value s')
    | lift_lets
    | with_reducible apply sameO_next
    | with_reducible apply same_ite
    | with_reducible apply same_evalTemps
    | with_reducible apply same_evalSupply
    | (with_reducible refine same_onMgt ?_ ?_ ?_
       rotate_left
       rotate_left
       · intro _; first | exact ⟨rfl, rfl, rfl, rfl⟩ | (refine ⟨?_, ?_, ?_, ?_⟩ <;> split <;> rfl))
    | with_reducible apply same_evalVbat
    | with_reducible apply same_logEv
    | exact listed_trans hw rfl
    | with_reducible refine same_foldl ?_ (fun s x h => ?_)
    | (intro x'; clear_value x')
    | intro _
    | dsimp only [s']
    | split

theorem same_execClockFail (a0 : Bool) (hw : listed [.met, .pwr, .owl, .vlk, .tim, .sys, .log, .hsi] w = true) (h : Same w a s) :
    SameO w a (execClockFail a0 s) := by
  unfold execClockFail
  repeat' first
    | with_reducible assumption
    | (intro (s : State) (h : Same w a s))
    | (intro _ (s : State) (h : Same w a s))
    | (intro (h : Same w a _))
    | (intro (s' : State); refine_lift have h : Same w a s' := ?_; ?_; clear_value s')
    | lift_lets
    | with_reducible apply sameO_next
    | with_reducible apply same_ite
    | with_reducible apply sameO_ite
    | with_reducible apply same_logEv
    | with_reducible apply same_assertReset
    | exact listed_trans hw rfl
    | with_reducible refine same_foldl ?_ (fun s x h => ?_)
    | (intro x'; clear_value x')
    | intro _
    | dsimp only [s']
    | split

theorem same_archive (a1 : LogRec) (hw : listed [.mgt, .log] w = true) (h : Same w a s) :
    Same w a (archive s a1) := by
  unfold archive
  repeat' first
    | with_reducible assumption
    | (intro (s : State) (h : Same w a s))
    | (intro _ (s : State) (h : Same w a s))
    | (intro (h : Same w a _))
    | (intro (s' : State); refine_lift have h : Same w a s' := ?_; ?_; clear_value s')
    | lift_lets
    | with_reducible apply sameO_next
    | with_reducible apply same_ite
    | with_reducible apply same_archiveLegal
    | (with_reducible refine same_onMgt ?_ ?_ ?_
       rotate_left
       rotate_left
       · intro _; first | exact ⟨rfl, rfl, rfl, rfl⟩ | (refine ⟨?_, ?_, ?_, ?_⟩ <;> split <;> rfl))
    | exact listed_trans hw rfl
    | with_reducible refine same_foldl ?_ (fun s x h => ?_)
    | (intro x'; clear_value x')
    | intro _
    | dsimp only [s']
    | split

theorem same_flushLog (a0 : Bool) (hw : listed [.mgt, .log] w = true) (h : Same w a s) :
    Same w a (flushLog a0 s) := by
  unfold flushLog
  repeat' first
    | with_reducible assumption
    | (intro (s : State) (h : Same w a s))
    | (intro _ (s : State) (h : Same w a s))
    | (intro (h : Same w a _))
    | (intro (s' : State); refine_lift have h : Same w a s' := ?_; ?_; clear_value s')
    | lift_lets
    | with_reducible apply sameO_next
    | with_reducible apply same_ite
    | with_reducible apply same_onMgt_both
    | with_reducible apply same_checkWatermark
    | with_reducible apply same_archive
    | exact listed_trans hw rfl
    | with_reducible refine same_foldl ?_ (fun s x h => ?_)
    | (intro x'; clear_value x')
    | intro _
    | dsimp only [s']
    | split

theorem same_execLogArchiveFlush (a0 : Bool) (hw : listed [.mgt, .log] w = true) (h : Same w a s) :
    SameO w a (execLogArchiveFlush a0 s) := by
  unfold execLogArchiveFlush
  repeat' first
    | with_reducible assumption
    | (intro (s : State) (h : Same w a s))
    | (intro _ (s : State) (h : Same w a s))
    | (intro (h : Same w a _))
    | (intro (s' : State); refine_lift have h : Same w a s' := ?_; ?_; clear_value s')
    | lift_lets
    | with_reducible apply sameO_next
    | with_reducible apply same_ite
    | with_reducible apply sameO_ite
    | with_reducible apply same_flushLog
    | exact listed_trans hw rfl
    | with_reducible refine same_foldl ?_ (fun s x h => ?_)
    | (intro x'; clear_value x')
    | intro _
    | dsimp only [s']
    | split

theorem same_execMgtLogRead (a0 : Req) (a1 : ℕ) (a2 : ℕ) (hw : listed [.hsi, .result] w = true) (h : Same w a s) :
    SameO w a (execMgtLogRead a0 a1 a2 s) := by
  unfold execMgtLogRead
  repeat' first
    | with_reducible assumption
    | (intro (s : State) (h : Same w a s))
    | (intro _ (s : State) (h : Same w a s))
    | (intro (h : Same w a _))
    | (intro (s' : State); refine_lift have h : Same w a s' := ?_; ?_; clear_value s')
    | lift_lets
    | with_reducible apply sameO_next
    | with_reducible apply same_ite
    | with_reducible apply sameO_ite
    | with_reducible apply same_badgerCmd
    | with_reducible apply same_guarded
    | with_reducible apply same_post
    | exact listed_trans hw rfl
    | with_reducible refine same_foldl ?_ (fun s x h => ?_)
    | (intro x'; clear_value x')
    | intro _
    | dsimp only [s']
    | split

theorem same_execMgtLogAck (a0 : Req) (a1 : ℕ) (hw : listed [.mgt, .hsi, .result] w = true) (h : Same w a s) :
    SameO w a (execMgtLogAck a0 a1 s) := by
  unfold execMgtLogAck
  repeat' first
    | with_reducible assumption
    | (intro (s : State) (h : Same w a s))
    | (intro _ (s : State) (h : Same w a s))
    | (intro (h : Same w a _))
    | (intro (s' : State); refine_lift have h : Same w a s' := ?_; ?_; clear_value s')
    | lift_lets
    | with_reducible apply sameO_next
    | with_reducible apply same_ite
    | with_reducible apply sameO_ite
    | with_reducible apply same_badgerCmd
    | with_reducible apply same_guarded
    | with_reducible apply same_postSts
    | with_reducible apply same_checkWatermark
    | (with_reducible refine same_onMgt ?_ ?_ ?_
       rotate_left
       rotate_left
       · intro _; first | exact ⟨rfl, rfl, rfl, rfl⟩ | (refine ⟨?_, ?_, ?_, ?_⟩ <;> split <;> rfl))
    | exact listed_trans hw rfl
    | with_reducible refine same_foldl ?_ (fun s x h => ?_)
    | (intro x'; clear_value x')
    | intro _
    | dsimp only [s']
    | split

end Sys2Proof.Machine
end

