-- ==== Sys2Proof/Laws/FrameVehicle.lean ====
section
/-! SUPPORT. Which parts of the state the operations of Vehicle.lean write. -/

set_option linter.unusedVariables false
set_option linter.unreachableTactic false
set_option linter.unusedTactic false

namespace Sys2Proof.Machine

variable {w : List Part} {a s : State}

theorem same_illegal (a0 : ℕ) (a1 : EvClass) (a2 : Cp) (a3 : Cp) (a4 : ℕ) (hw : listed [.vlk, .log] w = true) (h : Same w a s) :
    Same w a (illegal a0 a1 a2 a3 a4 s) := by
  unfold illegal
  repeat' first
    | with_reducible assumption
    | (intro (s : State) (h : Same w a s))
    | (intro _ (s : State) (h : Same w a s))
    | (intro (h : Same w a _))
    | (intro (s' : State); refine_lift have h : Same w a s' := ?_; ?_; clear_value s')
    | lift_lets
    | with_reducible apply sameO_next
    | with_reducible apply same_ite
    | with_reducible apply same_logEv
    | with_reducible apply same_onLink
    | exact listed_trans hw rfl
    | with_reducible refine same_foldl ?_ (fun s x h => ?_)
    | (intro x'; clear_value x')
    | intro _
    | dsimp only [s']
    | split

theorem same_pilotB (a0 : ℕ) (a1 : Bool) (hw : listed [.met, .pwr, .owl, .vlk, .tag, .sys, .mgt, .log] w = true) (h : Same w a s) :
    Same w a (pilotB a0 a1 s) := by
  unfold pilotB
  repeat' first
    | with_reducible assumption
    | (intro (s : State) (h : Same w a s))
    | (intro _ (s : State) (h : Same w a s))
    | (intro (h : Same w a _))
    | (intro (s' : State); refine_lift have h : Same w a s' := ?_; ?_; clear_value s')
    | lift_lets
    | with_reducible apply sameO_next
    | with_reducible apply same_ite
    | with_reducible apply same_connect
    | with_reducible apply same_limpPilot
    | with_reducible apply same_pauseSession
    | with_reducible apply same_pauseOrdered
    | with_reducible apply same_withdrawRequest
    | with_reducible apply same_acceptB
    | exact listed_trans hw rfl
    | with_reducible refine same_foldl ?_ (fun s x h => ?_)
    | (intro x'; clear_value x')
    | intro _
    | dsimp only [s']
    | split

theorem same_pilotC (a0 : ℕ) (hw : listed [.met, .owl, .vlk, .sys, .mgt, .log] w = true) (h : Same w a s) :
    Same w a (pilotC a0 s) := by
  unfold pilotC
  repeat' first
    | with_reducible assumption
    | (intro (s : State) (h : Same w a s))
    | (intro _ (s : State) (h : Same w a s))
    | (intro (h : Same w a _))
    | (intro (s' : State); refine_lift have h : Same w a s' := ?_; ?_; clear_value s')
    | lift_lets
    | with_reducible apply sameO_next
    | with_reducible apply same_ite
    | with_reducible apply same_setSup
    | with_reducible apply same_tryResume
    | with_reducible apply same_advance
    | exact listed_trans hw rfl
    | with_reducible refine same_foldl ?_ (fun s x h => ?_)
    | (intro x'; clear_value x')
    | intro _
    | dsimp only [s']
    | split

theorem same_pilotD (a0 : ℕ) (hw : listed [.met, .pwr, .owl, .vlk, .tag, .sys, .mgt, .log] w = true) (h : Same w a s) :
    Same w a (pilotD a0 s) := by
  unfold pilotD
  repeat' first
    | with_reducible assumption
    | (intro (s : State) (h : Same w a s))
    | (intro _ (s : State) (h : Same w a s))
    | (intro (h : Same w a _))
    | (intro (s' : State); refine_lift have h : Same w a s' := ?_; ?_; clear_value s')
    | lift_lets
    | with_reducible apply sameO_next
    | with_reducible apply same_ite
    | with_reducible apply same_pilotC
    | with_reducible apply same_logEv
    | with_reducible apply same_onLink
    | with_reducible apply same_pilotB
    | exact listed_trans hw rfl
    | with_reducible refine same_foldl ?_ (fun s x h => ?_)
    | (intro x'; clear_value x')
    | intro _
    | dsimp only [s']
    | split

theorem same_pilotA (a0 : ℕ) (hw : listed [.met, .pwr, .owl, .vlk, .sys, .mgt, .log] w = true) (h : Same w a s) :
    Same w a (pilotA a0 s) := by
  unfold pilotA
  repeat' first
    | with_reducible assumption
    | (intro (s : State) (h : Same w a s))
    | (intro _ (s : State) (h : Same w a s))
    | (intro (h : Same w a _))
    | (intro (s' : State); refine_lift have h : Same w a s' := ?_; ?_; clear_value s')
    | lift_lets
    | with_reducible apply sameO_next
    | with_reducible apply same_ite
    | with_reducible apply same_onLink
    | with_reducible apply same_endSession
    | with_reducible apply same_requestUnlock
    | with_reducible apply same_setSup
    | exact listed_trans hw rfl
    | with_reducible refine same_foldl ?_ (fun s x h => ?_)
    | (intro x'; clear_value x')
    | intro _
    | dsimp only [s']
    | split

theorem same_pilotFault (a0 : ℕ) (hw : listed [.met, .pwr, .owl, .vlk, .sys, .mgt, .log] w = true) (h : Same w a s) :
    Same w a (pilotFault a0 s) := by
  unfold pilotFault
  repeat' first
    | with_reducible assumption
    | (intro (s : State) (h : Same w a s))
    | (intro _ (s : State) (h : Same w a s))
    | (intro (h : Same w a _))
    | (intro (s' : State); refine_lift have h : Same w a s' := ?_; ?_; clear_value s')
    | lift_lets
    | with_reducible apply sameO_next
    | with_reducible apply same_ite
    | with_reducible apply same_onLink
    | with_reducible apply same_endSession
    | with_reducible apply same_setSup
    | exact listed_trans hw rfl
    | with_reducible refine same_foldl ?_ (fun s x h => ?_)
    | (intro x'; clear_value x')
    | intro _
    | dsimp only [s']
    | split

theorem same_row1 (a0 : ℕ) (a1 : Cp) (a2 : Cp) (hw : listed [.vlk, .log] w = true) (h : Same w a s) :
    Same w a (row1 a0 a1 a2 s) := by
  unfold row1
  repeat' first
    | with_reducible assumption
    | (intro (s : State) (h : Same w a s))
    | (intro _ (s : State) (h : Same w a s))
    | (intro (h : Same w a _))
    | (intro (s' : State); refine_lift have h : Same w a s' := ?_; ?_; clear_value s')
    | lift_lets
    | with_reducible apply sameO_next
    | with_reducible apply same_ite
    | with_reducible apply same_illegal
    | exact listed_trans hw rfl
    | with_reducible refine same_foldl ?_ (fun s x h => ?_)
    | (intro x'; clear_value x')
    | intro _
    | dsimp only [s']
    | split

theorem same_rows34 (a0 : ℕ) (a1 : ℕ) (a2 : Cp) (a3 : Cp) (hw : listed [.met, .pwr, .owl, .vlk, .tag, .sys, .mgt, .log] w = true) (h : Same w a s) :
    Same w a (rows34 a0 a1 a2 a3 s) := by
  unfold rows34
  repeat' first
    | with_reducible assumption
    | (intro (s : State) (h : Same w a s))
    | (intro _ (s : State) (h : Same w a s))
    | (intro (h : Same w a _))
    | (intro (s' : State); refine_lift have h : Same w a s' := ?_; ?_; clear_value s')
    | lift_lets
    | with_reducible apply sameO_next
    | with_reducible apply same_ite
    | with_reducible apply same_onLink
    | with_reducible apply same_illegal
    | with_reducible apply same_slacCheck
    | with_reducible apply same_pilotB
    | exact listed_trans hw rfl
    | with_reducible refine same_foldl ?_ (fun s x h => ?_)
    | (intro x'; clear_value x')
    | intro _
    | dsimp only [s']
    | split

theorem same_row5 (a0 : ℕ) (a1 : Cp) (a2 : Cp) (hw : listed [.met, .pwr, .owl, .vlk, .sys, .mgt, .log] w = true) (h : Same w a s) :
    Same w a (row5 a0 a1 a2 s) := by
  unfold row5
  repeat' first
    | with_reducible assumption
    | (intro (s : State) (h : Same w a s))
    | (intro _ (s : State) (h : Same w a s))
    | (intro (h : Same w a _))
    | (intro (s' : State); refine_lift have h : Same w a s' := ?_; ?_; clear_value s')
    | lift_lets
    | with_reducible apply sameO_next
    | with_reducible apply same_ite
    | with_reducible apply same_onLink
    | with_reducible apply same_logEv
    | with_reducible apply same_endSession
    | with_reducible apply same_setSup
    | exact listed_trans hw rfl
    | with_reducible refine same_foldl ?_ (fun s x h => ?_)
    | (intro x'; clear_value x')
    | intro _
    | dsimp only [s']
    | split

theorem same_countToggle (a0 : ℕ) (a1 : Cp) (a2 : Cp) (hw : listed [.met, .owl, .vlk] w = true) (h : Same w a s) :
    Same w a (countToggle a0 a1 a2 s) := by
  unfold countToggle
  repeat' first
    | with_reducible assumption
    | (intro (s : State) (h : Same w a s))
    | (intro _ (s : State) (h : Same w a s))
    | (intro (h : Same w a _))
    | (intro (s' : State); refine_lift have h : Same w a s' := ?_; ?_; clear_value s')
    | lift_lets
    | with_reducible apply sameO_next
    | with_reducible apply same_ite
    | with_reducible apply same_onLink
    | with_reducible apply same_endValidation
    | exact listed_trans hw rfl
    | with_reducible refine same_foldl ?_ (fun s x h => ?_)
    | (intro x'; clear_value x')
    | intro _
    | dsimp only [s']
    | split

theorem same_clearRequest (a0 : ℕ) (hw : listed [.pwr, .owl, .vlk, .log] w = true) (h : Same w a s) :
    Same w a (clearRequest a0 s) := by
  unfold clearRequest
  repeat' first
    | with_reducible assumption
    | (intro (s : State) (h : Same w a s))
    | (intro _ (s : State) (h : Same w a s))
    | (intro (h : Same w a _))
    | (intro (s' : State); refine_lift have h : Same w a s' := ?_; ?_; clear_value s')
    | lift_lets
    | with_reducible apply sameO_next
    | with_reducible apply same_ite
    | with_reducible apply same_dropRelease
    | with_reducible apply same_beginPostOpen
    | exact listed_trans hw rfl
    | with_reducible refine same_foldl ?_ (fun s x h => ?_)
    | (intro x'; clear_value x')
    | intro _
    | dsimp only [s']
    | split

theorem same_actOn (a0 : ℕ) (a1 : Cp) (a2 : ℤ) (hw : listed [.met, .pwr, .owl, .vlk, .tag, .sys, .mgt, .log] w = true) (h : Same w a s) :
    Same w a (actOn a0 a1 a2 s) := by
  unfold actOn
  repeat' first
    | with_reducible assumption
    | (intro (s : State) (h : Same w a s))
    | (intro _ (s : State) (h : Same w a s))
    | (intro (h : Same w a _))
    | (intro (s' : State); refine_lift have h : Same w a s' := ?_; ?_; clear_value s')
    | lift_lets
    | with_reducible apply sameO_next
    | with_reducible apply same_ite
    | with_reducible apply same_clearRequest
    | with_reducible apply same_pilotA
    | with_reducible apply same_pilotB
    | with_reducible apply same_pilotC
    | with_reducible apply same_pilotD
    | with_reducible apply same_endSession
    | with_reducible apply same_logEv
    | with_reducible apply same_pilotFault
    | exact listed_trans hw rfl
    | with_reducible refine same_foldl ?_ (fun s x h => ?_)
    | (intro x'; clear_value x')
    | intro _
    | dsimp only [s']
    | split

theorem same_acceptState (a0 : ℕ) (a1 : ℤ) (a2 : ℤ) (hw : listed [.met, .pwr, .owl, .vlk, .tag, .sys, .mgt, .log] w = true) (h : Same w a s) :
    Same w a (acceptState a0 a1 a2 s) := by
  unfold acceptState
  repeat' first
    | with_reducible assumption
    | (intro (s : State) (h : Same w a s))
    | (intro _ (s : State) (h : Same w a s))
    | (intro (h : Same w a _))
    | (intro (s' : State); refine_lift have h : Same w a s' := ?_; ?_; clear_value s')
    | lift_lets
    | with_reducible apply sameO_next
    | with_reducible apply same_ite
    | with_reducible apply same_onLink
    | with_reducible apply same_row1
    | with_reducible apply same_rows34
    | with_reducible apply same_countToggle
    | with_reducible apply same_actOn
    | with_reducible apply same_slacCheck
    | with_reducible apply same_row5
    | exact listed_trans hw rfl
    | with_reducible refine same_foldl ?_ (fun s x h => ?_)
    | (intro x'; clear_value x')
    | intro _
    | dsimp only [s']
    | split

theorem same_pilotAccepted (a0 : ℕ) (a1 : ℤ) (a2 : ℤ) (hw : listed [.met, .pwr, .owl, .vlk, .tag, .sys, .mgt, .log] w = true) (h : Same w a s) :
    Same w a (pilotAccepted a0 a1 a2 s) := by
  unfold pilotAccepted
  repeat' first
    | with_reducible assumption
    | (intro (s : State) (h : Same w a s))
    | (intro _ (s : State) (h : Same w a s))
    | (intro (h : Same w a _))
    | (intro (s' : State); refine_lift have h : Same w a s' := ?_; ?_; clear_value s')
    | lift_lets
    | with_reducible apply sameO_next
    | with_reducible apply same_ite
    | with_reducible apply same_onLink
    | with_reducible apply same_acceptState
    | exact listed_trans hw rfl
    | with_reducible refine same_foldl ?_ (fun s x h => ?_)
    | (intro x'; clear_value x')
    | intro _
    | dsimp only [s']
    | split

theorem same_execPilotFaultHold (a0 : ℕ) (a1 : Bool) (hw : listed [.met, .pwr, .owl, .vlk, .tag, .sys, .mgt, .log] w = true) (h : Same w a s) :
    SameO w a (execPilotFaultHold a0 a1 s) := by
  unfold execPilotFaultHold
  repeat' first
    | with_reducible assumption
    | (intro (s : State) (h : Same w a s))
    | (intro _ (s : State) (h : Same w a s))
    | (intro (h : Same w a _))
    | (intro (s' : State); refine_lift have h : Same w a s' := ?_; ?_; clear_value s')
    | lift_lets
    | with_reducible apply sameO_next
    | with_reducible apply same_ite
    | with_reducible apply sameO_ite
    | with_reducible apply same_illegal
    | with_reducible apply same_onLink
    | with_reducible apply same_setSup
    | with_reducible apply same_requestUnlock
    | with_reducible apply same_connect
    | exact listed_trans hw rfl
    | with_reducible refine same_foldl ?_ (fun s x h => ?_)
    | (intro x'; clear_value x')
    | intro _
    | dsimp only [s']
    | split

theorem same_execPilotModeTransitionEnd (a0 : ℕ) (hw : listed [.met, .owl, .vlk] w = true) (h : Same w a s) :
    SameO w a (execPilotModeTransitionEnd a0 s) := by
  unfold execPilotModeTransitionEnd
  repeat' first
    | with_reducible assumption
    | (intro (s : State) (h : Same w a s))
    | (intro _ (s : State) (h : Same w a s))
    | (intro (h : Same w a _))
    | (intro (s' : State); refine_lift have h : Same w a s' := ?_; ?_; clear_value s')
    | lift_lets
    | with_reducible apply sameO_next
    | with_reducible apply same_ite
    | with_reducible apply sameO_ite
    | with_reducible apply same_offerChanged
    | with_reducible apply same_onLink
    | exact listed_trans hw rfl
    | with_reducible refine same_foldl ?_ (fun s x h => ?_)
    | (intro x'; clear_value x')
    | intro _
    | dsimp only [s']
    | split

theorem same_pilotWrite (a0 : ℕ) (a1 : ℕ) (hw : listed [.met, .owl, .vlk] w = true) (h : Same w a s) :
    Same w a (pilotWrite a0 a1 s) := by
  unfold pilotWrite
  repeat' first
    | with_reducible assumption
    | (intro (s : State) (h : Same w a s))
    | (intro _ (s : State) (h : Same w a s))
    | (intro (h : Same w a _))
    | (intro (s' : State); refine_lift have h : Same w a s' := ?_; ?_; clear_value s')
    | lift_lets
    | with_reducible apply sameO_next
    | with_reducible apply same_ite
    | with_reducible apply same_offerChanged
    | with_reducible apply same_enterMode
    | with_reducible apply same_onLink
    | exact listed_trans hw rfl
    | with_reducible refine same_foldl ?_ (fun s x h => ?_)
    | (intro x'; clear_value x')
    | intro _
    | dsimp only [s']
    | split

theorem same_execVlkPilotWrite (a0 : ℕ) (a1 : Word) (hw : listed [.met, .owl, .vlk] w = true) (h : Same w a s) :
    SameO w a (execVlkPilotWrite a0 a1 s) := by
  unfold execVlkPilotWrite
  repeat' first
    | with_reducible assumption
    | (intro (s : State) (h : Same w a s))
    | (intro _ (s : State) (h : Same w a s))
    | (intro (h : Same w a _))
    | (intro (s' : State); refine_lift have h : Same w a s' := ?_; ?_; clear_value s')
    | lift_lets
    | with_reducible apply sameO_next
    | with_reducible apply same_ite
    | with_reducible apply sameO_ite
    | with_reducible apply same_pilotWrite
    | exact listed_trans hw rfl
    | with_reducible refine same_foldl ?_ (fun s x h => ?_)
    | (intro x'; clear_value x')
    | intro _
    | dsimp only [s']
    | split

theorem same_execProximityCode (a0 : ℕ) (a1 : ℕ) (hw : listed [.met, .pwr, .owl, .vlk, .sys, .mgt, .log, .freeCtr] w = true) (h : Same w a s) :
    SameO w a (execProximityCode a0 a1 s) := by
  unfold execProximityCode
  repeat' first
    | with_reducible assumption
    | (intro (s : State) (h : Same w a s))
    | (intro _ (s : State) (h : Same w a s))
    | (intro (h : Same w a _))
    | (intro (s' : State); refine_lift have h : Same w a s' := ?_; ?_; clear_value s')
    | lift_lets
    | with_reducible apply sameO_next
    | with_reducible apply same_ite
    | with_reducible apply sameO_ite
    | with_reducible apply same_bump
    | with_reducible apply same_onLink
    | with_reducible apply same_endSession
    | with_reducible apply same_logEv
    | with_reducible apply same_offerChanged
    | exact listed_trans hw rfl
    | with_reducible refine same_foldl ?_ (fun s x h => ?_)
    | (intro x'; clear_value x')
    | intro _
    | dsimp only [s']
    | split

theorem same_execVlkStart (a0 : Req) (a1 : ℕ) (hw : listed [.met, .pwr, .owl, .vlk, .sys, .mgt, .log, .hsi, .result] w = true) (h : Same w a s) :
    SameO w a (execVlkStart a0 a1 s) := by
  unfold execVlkStart
  repeat' first
    | with_reducible assumption
    | (intro (s : State) (h : Same w a s))
    | (intro _ (s : State) (h : Same w a s))
    | (intro (h : Same w a _))
    | (intro (s' : State); refine_lift have h : Same w a s' := ?_; ?_; clear_value s')
    | lift_lets
    | with_reducible apply sameO_next
    | with_reducible apply same_ite
    | with_reducible apply sameO_ite
    | with_reducible apply same_guarded
    | with_reducible apply same_startSession
    | with_reducible apply same_postSts
    | exact listed_trans hw rfl
    | with_reducible refine same_foldl ?_ (fun s x h => ?_)
    | (intro x'; clear_value x')
    | intro _
    | dsimp only [s']
    | split

theorem same_execVlkStop (a0 : Req) (a1 : ℕ) (a2 : ℕ) (hw : listed [.met, .pwr, .owl, .vlk, .sys, .mgt, .log, .hsi, .result] w = true) (h : Same w a s) :
    SameO w a (execVlkStop a0 a1 a2 s) := by
  unfold execVlkStop
  repeat' first
    | with_reducible assumption
    | (intro (s : State) (h : Same w a s))
    | (intro _ (s : State) (h : Same w a s))
    | (intro (h : Same w a _))
    | (intro (s' : State); refine_lift have h : Same w a s' := ?_; ?_; clear_value s')
    | lift_lets
    | with_reducible apply sameO_next
    | with_reducible apply same_ite
    | with_reducible apply sameO_ite
    | with_reducible apply same_guarded
    | with_reducible apply same_endSession
    | with_reducible apply same_postSts
    | exact listed_trans hw rfl
    | with_reducible refine same_foldl ?_ (fun s x h => ?_)
    | (intro x'; clear_value x')
    | intro _
    | dsimp only [s']
    | split

theorem same_execVlkUnlock (a0 : Req) (a1 : ℕ) (hw : listed [.pwr, .vlk, .sys, .mgt, .log, .hsi, .result] w = true) (h : Same w a s) :
    SameO w a (execVlkUnlock a0 a1 s) := by
  unfold execVlkUnlock
  repeat' first
    | with_reducible assumption
    | (intro (s : State) (h : Same w a s))
    | (intro _ (s : State) (h : Same w a s))
    | (intro (h : Same w a _))
    | (intro (s' : State); refine_lift have h : Same w a s' := ?_; ?_; clear_value s')
    | lift_lets
    | with_reducible apply sameO_next
    | with_reducible apply same_ite
    | with_reducible apply sameO_ite
    | with_reducible apply same_guarded
    | with_reducible apply same_requestUnlock
    | with_reducible apply same_postSts
    | with_reducible apply same_setSup
    | exact listed_trans hw rfl
    | with_reducible refine same_foldl ?_ (fun s x h => ?_)
    | (intro x'; clear_value x')
    | intro _
    | dsimp only [s']
    | split

theorem same_execReleaseRetry (a0 : ℕ) (hw : listed [.met, .pwr, .owl, .vlk, .sys, .mgt, .log] w = true) (h : Same w a s) :
    SameO w a (execReleaseRetry a0 s) := by
  unfold execReleaseRetry
  repeat' first
    | with_reducible assumption
    | (intro (s : State) (h : Same w a s))
    | (intro _ (s : State) (h : Same w a s))
    | (intro (h : Same w a _))
    | (intro (s' : State); refine_lift have h : Same w a s' := ?_; ?_; clear_value s')
    | lift_lets
    | with_reducible apply sameO_next
    | with_reducible apply same_ite
    | with_reducible apply sameO_ite
    | with_reducible apply same_endSession
    | with_reducible apply same_logEv
    | with_reducible apply same_onOwl
    | with_reducible apply same_onLink
    | exact listed_trans hw rfl
    | with_reducible refine same_foldl ?_ (fun s x h => ?_)
    | (intro x'; clear_value x')
    | intro _
    | dsimp only [s']
    | split

theorem same_execDcContactorOpen (a0 : ℕ) (hw : listed [.pwr, .owl, .vlk, .log] w = true) (h : Same w a s) :
    SameO w a (execDcContactorOpen a0 s) := by
  unfold execDcContactorOpen
  repeat' first
    | with_reducible assumption
    | (intro (s : State) (h : Same w a s))
    | (intro _ (s : State) (h : Same w a s))
    | (intro (h : Same w a _))
    | (intro (s' : State); refine_lift have h : Same w a s' := ?_; ?_; clear_value s')
    | lift_lets
    | with_reducible apply sameO_next
    | with_reducible apply same_ite
    | with_reducible apply sameO_ite
    | with_reducible apply same_beginPostOpen
    | with_reducible apply same_dropRelease
    | exact listed_trans hw rfl
    | with_reducible refine same_foldl ?_ (fun s x h => ?_)
    | (intro x'; clear_value x')
    | intro _
    | dsimp only [s']
    | split

theorem same_execOverdraw (a0 : ℕ) (a1 : ℕ) (a2 : ℕ) (hw : listed [.met, .pwr, .owl, .vlk, .sys, .mgt, .log] w = true) (h : Same w a s) :
    SameO w a (execOverdraw a0 a1 a2 s) := by
  unfold execOverdraw
  repeat' first
    | with_reducible assumption
    | (intro (s : State) (h : Same w a s))
    | (intro _ (s : State) (h : Same w a s))
    | (intro (h : Same w a _))
    | (intro (s' : State); refine_lift have h : Same w a s' := ?_; ?_; clear_value s')
    | lift_lets
    | with_reducible apply sameO_next
    | with_reducible apply same_ite
    | with_reducible apply sameO_ite
    | with_reducible apply same_onLink
    | with_reducible apply same_endSession
    | with_reducible apply same_logEv
    | exact listed_trans hw rfl
    | with_reducible refine same_foldl ?_ (fun s x h => ?_)
    | (intro x'; clear_value x')
    | intro _
    | dsimp only [s']
    | split

end Sys2Proof.Machine
end

