-- ==== Sys2Proof/Laws/FrameCan.lean ====
section
/-! SUPPORT. Which parts of the state the operations of Can.lean write. -/

set_option linter.unusedVariables false
set_option linter.unreachableTactic false
set_option linter.unusedTactic false

namespace Sys2Proof.Machine

variable {w : List Part} {a s : State}

theorem same_setCan (a0 : ℕ) (a1 : CanState) (hw : listed [.log, .can, .sram] w = true) (h : Same w a s) :
    Same w a (setCan a0 a1 s) := by
  unfold setCan
  repeat' first
    | with_reducible assumption
    | (intro (s : State) (h : Same w a s))
    | (intro _ (s : State) (h : Same w a s))
    | (intro (h : Same w a _))
    | (intro (s' : State); refine_lift have h : Same w a s' := ?_; ?_; clear_value s')
    | lift_lets
    | with_reducible apply sameO_next
    | with_reducible apply same_ite
    | with_reducible apply same_onCan
    | with_reducible apply same_pump
    | with_reducible apply same_logEv
    | exact listed_trans hw rfl
    | (refine listed_mem hw ?_; simp; done)
    | (cases x <;> exact listed_trans hw rfl)
    | with_reducible refine same_foldl ?_ (fun s x h => ?_)
    | (intro x'; clear_value x')
    | intro _
    | dsimp only [s']
    | split

theorem same_execCanStuck (a0 : ℕ) (a1 : Bool) (hw : listed [.log, .can, .sram] w = true) (h : Same w a s) :
    SameO w a (execCanStuck a0 a1 s) := by
  unfold execCanStuck
  repeat' first
    | with_reducible assumption
    | (intro (s : State) (h : Same w a s))
    | (intro _ (s : State) (h : Same w a s))
    | (intro (h : Same w a _))
    | (intro (s' : State); refine_lift have h : Same w a s' := ?_; ?_; clear_value s')
    | lift_lets
    | with_reducible apply sameO_next
    | with_reducible apply same_ite
    | with_reducible apply sameO_ite
    | with_reducible apply same_setCan
    | exact listed_trans hw rfl
    | with_reducible refine same_foldl ?_ (fun s x h => ?_)
    | (intro x'; clear_value x')
    | intro _
    | dsimp only [s']
    | split

theorem same_execCanBusoffRecovery (a0 : ℕ) (a1 : Bool) (hw : listed [.log, .can, .sram] w = true) (h : Same w a s) :
    SameO w a (execCanBusoffRecovery a0 a1 s) := by
  unfold execCanBusoffRecovery
  repeat' first
    | with_reducible assumption
    | (intro (s : State) (h : Same w a s))
    | (intro _ (s : State) (h : Same w a s))
    | (intro (h : Same w a _))
    | (intro (s' : State); refine_lift have h : Same w a s' := ?_; ?_; clear_value s')
    | lift_lets
    | with_reducible apply sameO_next
    | with_reducible apply same_ite
    | with_reducible apply sameO_ite
    | with_reducible apply same_setCan
    | with_reducible apply same_onCan
    | exact listed_trans hw rfl
    | with_reducible refine same_foldl ?_ (fun s x h => ?_)
    | (intro x'; clear_value x')
    | intro _
    | dsimp only [s']
    | split

theorem same_execCanErrorStateChange (a0 : ℕ) (a1 : ℕ) (a2 : ℕ) (hw : listed [.log, .can, .sram] w = true) (h : Same w a s) :
    SameO w a (execCanErrorStateChange a0 a1 a2 s) := by
  unfold execCanErrorStateChange
  repeat' first
    | with_reducible assumption
    | (intro (s : State) (h : Same w a s))
    | (intro _ (s : State) (h : Same w a s))
    | (intro (h : Same w a _))
    | (intro (s' : State); refine_lift have h : Same w a s' := ?_; ?_; clear_value s')
    | lift_lets
    | with_reducible apply sameO_next
    | with_reducible apply same_ite
    | with_reducible apply sameO_ite
    | with_reducible apply same_onCan
    | with_reducible apply same_setCan
    | exact listed_trans hw rfl
    | with_reducible refine same_foldl ?_ (fun s x h => ?_)
    | (intro x'; clear_value x')
    | intro _
    | dsimp only [s']
    | split

theorem same_canCfgWrite (a0 : ℕ) (a1 : ℕ) (hw : listed [.log, .can, .sram] w = true) (h : Same w a s) :
    Same w a (canCfgWrite a0 a1 s) := by
  unfold canCfgWrite
  repeat' first
    | with_reducible assumption
    | (intro (s : State) (h : Same w a s))
    | (intro _ (s : State) (h : Same w a s))
    | (intro (h : Same w a _))
    | (intro (s' : State); refine_lift have h : Same w a s' := ?_; ?_; clear_value s')
    | lift_lets
    | with_reducible apply sameO_next
    | with_reducible apply same_ite
    | with_reducible apply same_onCan
    | with_reducible apply same_pump
    | with_reducible apply same_setCan
    | exact listed_trans hw rfl
    | (refine listed_mem hw ?_; simp; done)
    | (cases x <;> exact listed_trans hw rfl)
    | with_reducible refine same_foldl ?_ (fun s x h => ?_)
    | (intro x'; clear_value x')
    | intro _
    | dsimp only [s']
    | split

theorem same_canNbtWrite (a0 : ℕ) (a1 : ℕ) (hw : listed [.can] w = true) (h : Same w a s) :
    Same w a (canNbtWrite a0 a1 s) := by
  unfold canNbtWrite
  repeat' first
    | with_reducible assumption
    | (intro (s : State) (h : Same w a s))
    | (intro _ (s : State) (h : Same w a s))
    | (intro (h : Same w a _))
    | (intro (s' : State); refine_lift have h : Same w a s' := ?_; ?_; clear_value s')
    | lift_lets
    | with_reducible apply sameO_next
    | with_reducible apply same_ite
    | with_reducible apply same_onCan
    | exact listed_trans hw rfl
    | with_reducible refine same_foldl ?_ (fun s x h => ?_)
    | (intro x'; clear_value x')
    | intro _
    | dsimp only [s']
    | split

theorem same_canDbtWrite (a0 : ℕ) (a1 : ℕ) (hw : listed [.can] w = true) (h : Same w a s) :
    Same w a (canDbtWrite a0 a1 s) := by
  unfold canDbtWrite
  repeat' first
    | with_reducible assumption
    | (intro (s : State) (h : Same w a s))
    | (intro _ (s : State) (h : Same w a s))
    | (intro (h : Same w a _))
    | (intro (s' : State); refine_lift have h : Same w a s' := ?_; ?_; clear_value s')
    | lift_lets
    | with_reducible apply sameO_next
    | with_reducible apply same_ite
    | with_reducible apply same_onCan
    | exact listed_trans hw rfl
    | with_reducible refine same_foldl ?_ (fun s x h => ?_)
    | (intro x'; clear_value x')
    | intro _
    | dsimp only [s']
    | split

theorem same_canFilterWrite (a0 : ℕ) (a1 : ℕ) (a2 : Bool) (a3 : ℕ) (hw : listed [.can] w = true) (h : Same w a s) :
    Same w a (canFilterWrite a0 a1 a2 a3 s) := by
  unfold canFilterWrite
  repeat' first
    | with_reducible assumption
    | (intro (s : State) (h : Same w a s))
    | (intro _ (s : State) (h : Same w a s))
    | (intro (h : Same w a _))
    | (intro (s' : State); refine_lift have h : Same w a s' := ?_; ?_; clear_value s')
    | lift_lets
    | with_reducible apply sameO_next
    | with_reducible apply same_ite
    | with_reducible apply same_onCan
    | exact listed_trans hw rfl
    | with_reducible refine same_foldl ?_ (fun s x h => ?_)
    | (intro x'; clear_value x')
    | intro _
    | dsimp only [s']
    | split

end Sys2Proof.Machine
end

