-- ==== Sys2Proof/Laws/FrameWake.lean ====
section
/-! SUPPORT. Which parts of the state the operations of Wake.lean write. -/

set_option linter.unusedVariables false
set_option linter.unreachableTactic false
set_option linter.unusedTactic false

namespace Sys2Proof.Machine

variable {w : List Part} {a s : State}

theorem same_endEntry (a0 : SleepEntry) (a1 : ℕ) (a2 : ℕ) (a3 : ℕ) (a4 : ℕ) (a5 : Bool) (a6 : ℕ) (hw : listed [.met, .glk, .sys, .log, .hsi, .result] w = true) (h : Same w a s) :
    Same w a (endEntry a0 a1 a2 a3 a4 a5 a6 s) := by
  unfold endEntry
  repeat' first
    | with_reducible assumption
    | (intro (s : State) (h : Same w a s))
    | (intro _ (s : State) (h : Same w a s))
    | (intro (h : Same w a _))
    | (intro (s' : State); refine_lift have h : Same w a s' := ?_; ?_; clear_value s')
    | lift_lets
    | with_reducible apply sameO_next
    | with_reducible apply same_ite
    | (with_reducible refine same_onSys ?_ ?_ ?_
       rotate_left
       rotate_left
       · intro _; first | exact ⟨rfl, rfl⟩ | (constructor <;> split <;> rfl))
    | with_reducible apply same_onMet
    | with_reducible apply same_onGlk
    | with_reducible apply same_logEv
    | with_reducible apply same_post
    | exact listed_trans hw rfl
    | with_reducible refine same_foldl ?_ (fun s x h => ?_)
    | (intro x'; clear_value x')
    | intro _
    | dsimp only [s']
    | split

theorem same_abandonSleep (a0 : SleepEntry) (a1 : ℕ) (hw : listed [.met, .glk, .sys, .mgt, .log, .hsi, .result] w = true) (h : Same w a s) :
    Same w a (abandonSleep a0 a1 s) := by
  unfold abandonSleep
  repeat' first
    | with_reducible assumption
    | (intro (s : State) (h : Same w a s))
    | (intro _ (s : State) (h : Same w a s))
    | (intro (h : Same w a _))
    | (intro (s' : State); refine_lift have h : Same w a s' := ?_; ?_; clear_value s')
    | lift_lets
    | with_reducible apply sameO_next
    | with_reducible apply same_ite
    | (with_reducible refine same_onSys ?_ ?_ ?_
       rotate_left
       rotate_left
       · intro _; first | exact ⟨rfl, rfl⟩ | (constructor <;> split <;> rfl))
    | (with_reducible refine same_onMgt ?_ ?_ ?_
       rotate_left
       rotate_left
       · intro _; first | exact ⟨rfl, rfl, rfl, rfl⟩ | (refine ⟨?_, ?_, ?_, ?_⟩ <;> split <;> rfl))
    | with_reducible apply same_endEntry
    | exact listed_trans hw rfl
    | with_reducible refine same_foldl ?_ (fun s x h => ?_)
    | (intro x'; clear_value x')
    | intro _
    | dsimp only [s']
    | split

theorem same_actLatched  (hw : listed [.glk, .tag, .key, .log, .sram] w = true) (h : Same w a s) :
    Same w a (actLatched s) := by
  unfold actLatched
  repeat' first
    | with_reducible assumption
    | (intro (s : State) (h : Same w a s))
    | (intro _ (s : State) (h : Same w a s))
    | (intro (h : Same w a _))
    | (intro (s' : State); refine_lift have h : Same w a s' := ?_; ?_; clear_value s')
    | lift_lets
    | with_reducible apply sameO_next
    | with_reducible apply same_ite
    | with_reducible apply same_tamperAct
    | with_reducible apply same_onKey
    | exact listed_trans hw rfl
    | with_reducible refine same_foldl ?_ (fun s x h => ?_)
    | (intro x'; clear_value x')
    | intro _
    | dsimp only [s']
    | split

theorem same_hsiWake  (hw : listed [.hsi] w = true) (h : Same w a s) :
    Same w a (hsiWake s) := by
  unfold hsiWake
  repeat' first
    | with_reducible assumption
    | (intro (s : State) (h : Same w a s))
    | (intro _ (s : State) (h : Same w a s))
    | (intro (h : Same w a _))
    | (intro (s' : State); refine_lift have h : Same w a s' := ?_; ?_; clear_value s')
    | lift_lets
    | with_reducible apply sameO_next
    | with_reducible apply same_ite
    | with_reducible apply same_onHsi
    | exact listed_trans hw rfl
    | with_reducible refine same_foldl ?_ (fun s x h => ?_)
    | (intro x'; clear_value x')
    | intro _
    | dsimp only [s']
    | split

theorem same_wakeFromWatch (a0 : ℕ) (hw : listed [.bil, .vlk, .glk, .tag, .key, .sys, .mgt, .log, .hsi, .can, .sram] w = true) (h : Same w a s) :
    Same w a (wakeFromWatch a0 s) := by
  unfold wakeFromWatch
  repeat' first
    | with_reducible assumption
    | (intro (s : State) (h : Same w a s))
    | (intro _ (s : State) (h : Same w a s))
    | (intro (h : Same w a _))
    | (intro (s' : State); refine_lift have h : Same w a s' := ?_; ?_; clear_value s')
    | lift_lets
    | with_reducible apply sameO_next
    | with_reducible apply same_ite
    | (with_reducible refine same_onSys ?_ ?_ ?_
       rotate_left
       rotate_left
       · intro _; first | exact ⟨rfl, rfl⟩ | (constructor <;> split <;> rfl))
    | with_reducible apply same_onGlk
    | with_reducible apply same_drainRetention
    | with_reducible apply same_setMode
    | with_reducible apply same_actLatched
    | with_reducible apply same_loadSlots
    | with_reducible apply same_deriveSlots
    | with_reducible apply same_slotsChanged
    | with_reducible apply same_glkAfterWatch
    | with_reducible apply same_flushProfile
    | with_reducible apply same_checkWake
    | with_reducible apply same_hsiWake
    | with_reducible apply same_onCans
    | with_reducible apply same_evalMode
    | with_reducible apply same_slacChecks
    | exact listed_trans hw rfl
    | with_reducible refine same_foldl ?_ (fun s x h => ?_)
    | (intro x'; clear_value x')
    | intro _
    | dsimp only [s']
    | split

theorem same_wakeBy (a0 : ℕ) (a1 : Bool) (hw : listed [.met, .bil, .vlk, .glk, .tag, .key, .sys, .mgt, .log, .hsi, .can, .sram, .result] w = true) (h : Same w a s) :
    Same w a (wakeBy a0 a1 s) := by
  unfold wakeBy
  repeat' first
    | with_reducible assumption
    | (intro (s : State) (h : Same w a s))
    | (intro _ (s : State) (h : Same w a s))
    | (intro (h : Same w a _))
    | (intro (s' : State); refine_lift have h : Same w a s' := ?_; ?_; clear_value s')
    | lift_lets
    | with_reducible apply sameO_next
    | with_reducible apply same_ite
    | with_reducible apply same_abandonSleep
    | with_reducible apply same_wakeFromWatch
    | (with_reducible refine same_onSys ?_ ?_ ?_
       rotate_left
       rotate_left
       · intro _; first | exact ⟨rfl, rfl⟩ | (constructor <;> split <;> rfl))
    | exact listed_trans hw rfl
    | with_reducible refine same_foldl ?_ (fun s x h => ?_)
    | (intro x'; clear_value x')
    | intro _
    | dsimp only [s']
    | split

theorem same_execWakeEvent (a0 : ℕ) (a1 : Bool) (hw : listed [.met, .bil, .vlk, .glk, .tag, .key, .sys, .mgt, .log, .hsi, .can, .sram, .result] w = true) (h : Same w a s) :
    SameO w a (execWakeEvent a0 a1 s) := by
  unfold execWakeEvent
  repeat' first
    | with_reducible assumption
    | (intro (s : State) (h : Same w a s))
    | (intro _ (s : State) (h : Same w a s))
    | (intro (h : Same w a _))
    | (intro (s' : State); refine_lift have h : Same w a s' := ?_; ?_; clear_value s')
    | lift_lets
    | with_reducible apply sameO_next
    | with_reducible apply same_ite
    | with_reducible apply sameO_ite
    | with_reducible apply same_wakeBy
    | exact listed_trans hw rfl
    | with_reducible refine same_foldl ?_ (fun s x h => ?_)
    | (intro x'; clear_value x')
    | intro _
    | dsimp only [s']
    | split

theorem same_execSysWakeWrite (a0 : Word) (hw : listed [.met, .bil, .vlk, .glk, .tag, .key, .sys, .mgt, .log, .hsi, .can, .sram, .result] w = true) (h : Same w a s) :
    SameO w a (execSysWakeWrite a0 s) := by
  unfold execSysWakeWrite
  repeat' first
    | with_reducible assumption
    | (intro (s : State) (h : Same w a s))
    | (intro _ (s : State) (h : Same w a s))
    | (intro (h : Same w a _))
    | (intro (s' : State); refine_lift have h : Same w a s' := ?_; ?_; clear_value s')
    | lift_lets
    | with_reducible apply sameO_next
    | with_reducible apply same_ite
    | with_reducible apply sameO_ite
    | with_reducible apply same_wakeBy
    | exact listed_trans hw rfl
    | with_reducible refine same_foldl ?_ (fun s x h => ?_)
    | (intro x'; clear_value x')
    | intro _
    | dsimp only [s']
    | split

theorem same_execSysWakesrcRead (a0 : Side) (hw : listed [.sys, .rdata] w = true) (h : Same w a s) :
    SameO w a (execSysWakesrcRead a0 s) := by
  unfold execSysWakesrcRead
  repeat' first
    | with_reducible assumption
    | (intro (s : State) (h : Same w a s))
    | (intro _ (s : State) (h : Same w a s))
    | (intro (h : Same w a _))
    | (intro (s' : State); refine_lift have h : Same w a s' := ?_; ?_; clear_value s')
    | lift_lets
    | with_reducible apply sameO_next
    | with_reducible apply same_ite
    | with_reducible apply sameO_ite
    | with_reducible apply same_returns
    | (with_reducible refine same_onSys ?_ ?_ ?_
       rotate_left
       rotate_left
       · intro _; first | exact ⟨rfl, rfl⟩ | (constructor <;> split <;> rfl))
    | exact listed_trans hw rfl
    | with_reducible refine same_foldl ?_ (fun s x h => ?_)
    | (intro x'; clear_value x')
    | intro _
    | dsimp only [s']
    | split

theorem same_execAlarmFire  (hw : listed [.met, .bil, .vlk, .glk, .tim, .tag, .key, .sys, .mgt, .log, .hsi, .can, .sram, .result] w = true) (h : Same w a s) :
    SameO w a (execAlarmFire s) := by
  unfold execAlarmFire
  repeat' first
    | with_reducible assumption
    | (intro (s : State) (h : Same w a s))
    | (intro _ (s : State) (h : Same w a s))
    | (intro (h : Same w a _))
    | (intro (s' : State); refine_lift have h : Same w a s' := ?_; ?_; clear_value s')
    | lift_lets
    | with_reducible apply sameO_next
    | with_reducible apply same_ite
    | with_reducible apply sameO_ite
    | with_reducible apply same_wakeBy
    | with_reducible apply same_fireAlarm
    | exact listed_trans hw rfl
    | with_reducible refine same_foldl ?_ (fun s x h => ?_)
    | (intro x'; clear_value x')
    | intro _
    | dsimp only [s']
    | split

theorem same_countdown  (hw : listed [.key, .upd] w = true) (h : Same w a s) :
    Same w a (countdown s) := by
  unfold countdown
  repeat' first
    | with_reducible assumption
    | (intro (s : State) (h : Same w a s))
    | (intro _ (s : State) (h : Same w a s))
    | (intro (h : Same w a _))
    | (intro (s' : State); refine_lift have h : Same w a s' := ?_; ?_; clear_value s')
    | lift_lets
    | with_reducible apply sameO_next
    | with_reducible apply same_ite
    | with_reducible apply same_onKey
    | with_reducible apply same_onUpd
    | exact listed_trans hw rfl
    | with_reducible refine same_foldl ?_ (fun s x h => ?_)
    | (intro x'; clear_value x')
    | intro _
    | dsimp only [s']
    | split

theorem same_execSecondBoundary  (hw : listed [.met, .bil, .vlk, .glk, .tim, .tag, .key, .upd, .sys, .mgt, .log, .hsi, .can, .sram, .result] w = true) (h : Same w a s) :
    SameO w a (execSecondBoundary s) := by
  unfold execSecondBoundary
  repeat' first
    | with_reducible assumption
    | (intro (s : State) (h : Same w a s))
    | (intro _ (s : State) (h : Same w a s))
    | (intro (h : Same w a _))
    | (intro (s' : State); refine_lift have h : Same w a s' := ?_; ?_; clear_value s')
    | lift_lets
    | with_reducible apply sameO_next
    | with_reducible apply same_ite
    | with_reducible apply sameO_ite
    | with_reducible apply same_countdown
    | with_reducible apply same_secondBoundary
    | with_reducible apply same_wakeBy
    | exact listed_trans hw rfl
    | with_reducible refine same_foldl ?_ (fun s x h => ?_)
    | (intro x'; clear_value x')
    | intro _
    | dsimp only [s']
    | split

theorem same_execPilotStateAccepted (a0 : ℕ) (a1 : ℤ) (a2 : ℤ) (hw : listed [.met, .bil, .pwr, .owl, .vlk, .glk, .tag, .key, .sys, .mgt, .log, .hsi, .can, .sram, .result] w = true) (h : Same w a s) :
    SameO w a (execPilotStateAccepted a0 a1 a2 s) := by
  unfold execPilotStateAccepted
  repeat' first
    | with_reducible assumption
    | (intro (s : State) (h : Same w a s))
    | (intro _ (s : State) (h : Same w a s))
    | (intro (h : Same w a _))
    | (intro (s' : State); refine_lift have h : Same w a s' := ?_; ?_; clear_value s')
    | lift_lets
    | with_reducible apply sameO_next
    | with_reducible apply same_ite
    | with_reducible apply sameO_ite
    | with_reducible apply same_wakeBy
    | with_reducible apply same_pilotAccepted
    | with_reducible apply same_slacCheck
    | exact listed_trans hw rfl
    | with_reducible refine same_foldl ?_ (fun s x h => ?_)
    | (intro x'; clear_value x')
    | intro _
    | dsimp only [s']
    | split

theorem same_execFieldDetection  (hw : listed [.met, .bil, .vlk, .glk, .tag, .key, .sys, .mgt, .log, .hsi, .can, .sram, .result] w = true) (h : Same w a s) :
    SameO w a (execFieldDetection s) := by
  unfold execFieldDetection
  repeat' first
    | with_reducible assumption
    | (intro (s : State) (h : Same w a s))
    | (intro _ (s : State) (h : Same w a s))
    | (intro (h : Same w a _))
    | (intro (s' : State); refine_lift have h : Same w a s' := ?_; ?_; clear_value s')
    | lift_lets
    | with_reducible apply sameO_next
    | with_reducible apply same_ite
    | with_reducible apply sameO_ite
    | with_reducible apply same_wakeBy
    | with_reducible apply same_takeDetection
    | exact listed_trans hw rfl
    | with_reducible refine same_foldl ?_ (fun s x h => ?_)
    | (intro x'; clear_value x')
    | intro _
    | dsimp only [s']
    | split

theorem same_execFullPoll (a0 : PollInput) (hw : listed [.met, .bil, .pwr, .owl, .vlk, .glk, .tag, .key, .sys, .mgt, .log, .hsi, .can, .sram, .result] w = true) (h : Same w a s) :
    SameO w a (execFullPoll a0 s) := by
  unfold execFullPoll
  repeat' first
    | with_reducible assumption
    | (intro (s : State) (h : Same w a s))
    | (intro _ (s : State) (h : Same w a s))
    | (intro (h : Same w a _))
    | (intro (s' : State); refine_lift have h : Same w a s' := ?_; ?_; clear_value s')
    | lift_lets
    | with_reducible apply sameO_next
    | with_reducible apply same_ite
    | with_reducible apply sameO_ite
    | with_reducible apply same_fullPoll
    | with_reducible apply same_wakeBy
    | exact listed_trans hw rfl
    | with_reducible refine same_foldl ?_ (fun s x h => ?_)
    | (intro x'; clear_value x')
    | intro _
    | dsimp only [s']
    | split

theorem same_tamperDetect (a0 : ℕ) (hw : listed [.met, .bil, .vlk, .glk, .tag, .key, .sys, .mgt, .log, .hsi, .can, .sram, .result] w = true) (h : Same w a s) :
    Same w a (tamperDetect a0 s) := by
  unfold tamperDetect
  repeat' first
    | with_reducible assumption
    | (intro (s : State) (h : Same w a s))
    | (intro _ (s : State) (h : Same w a s))
    | (intro (h : Same w a _))
    | (intro (s' : State); refine_lift have h : Same w a s' := ?_; ?_; clear_value s')
    | lift_lets
    | with_reducible apply sameO_next
    | with_reducible apply same_ite
    | with_reducible apply same_onKey
    | with_reducible apply same_wakeBy
    | with_reducible apply same_tamperAct
    | exact listed_trans hw rfl
    | with_reducible refine same_foldl ?_ (fun s x h => ?_)
    | (intro x'; clear_value x')
    | intro _
    | dsimp only [s']
    | split

theorem same_execTamperDetect (a0 : ℕ) (hw : listed [.met, .bil, .vlk, .glk, .tag, .key, .sys, .mgt, .log, .hsi, .can, .sram, .result] w = true) (h : Same w a s) :
    SameO w a (execTamperDetect a0 s) := by
  unfold execTamperDetect
  repeat' first
    | with_reducible assumption
    | (intro (s : State) (h : Same w a s))
    | (intro _ (s : State) (h : Same w a s))
    | (intro (h : Same w a _))
    | (intro (s' : State); refine_lift have h : Same w a s' := ?_; ?_; clear_value s')
    | lift_lets
    | with_reducible apply sameO_next
    | with_reducible apply same_ite
    | with_reducible apply sameO_ite
    | with_reducible apply same_tamperDetect
    | exact listed_trans hw rfl
    | with_reducible refine same_foldl ?_ (fun s x h => ?_)
    | (intro x'; clear_value x')
    | intro _
    | dsimp only [s']
    | split

theorem same_execCrackLoopMeasure (a0 : ℕ) (a1 : Bool) (hw : listed [.met, .bil, .vlk, .glk, .tag, .epd, .key, .sys, .mgt, .log, .hsi, .can, .sram, .result] w = true) (h : Same w a s) :
    SameO w a (execCrackLoopMeasure a0 a1 s) := by
  unfold execCrackLoopMeasure
  repeat' first
    | with_reducible assumption
    | (intro (s : State) (h : Same w a s))
    | (intro _ (s : State) (h : Same w a s))
    | (intro (h : Same w a _))
    | (intro (s' : State); refine_lift have h : Same w a s' := ?_; ?_; clear_value s')
    | lift_lets
    | with_reducible apply sameO_next
    | with_reducible apply same_ite
    | with_reducible apply sameO_ite
    | with_reducible apply same_crackMeasure
    | with_reducible apply same_tamperDetect
    | exact listed_trans hw rfl
    | with_reducible refine same_foldl ?_ (fun s x h => ?_)
    | (intro x'; clear_value x')
    | intro _
    | dsimp only [s']
    | split

theorem same_execMonitorEvaluate (a0 : MonitorInput) (hw : listed [.met, .pwr, .owl, .vlk, .glk, .eth, .tag, .key, .sys, .mgt, .log, .hsi, .can, .sram, .result] w = true) (h : Same w a s) :
    SameO w a (execMonitorEvaluate a0 s) := by
  unfold execMonitorEvaluate
  repeat' first
    | with_reducible assumption
    | (intro (s : State) (h : Same w a s))
    | (intro _ (s : State) (h : Same w a s))
    | (intro (h : Same w a _))
    | (intro (s' : State); refine_lift have h : Same w a s' := ?_; ?_; clear_value s')
    | lift_lets
    | with_reducible apply sameO_next
    | with_reducible apply same_ite
    | with_reducible apply sameO_ite
    | with_reducible apply same_monitor
    | with_reducible apply same_abandonSleep
    | exact listed_trans hw rfl
    | with_reducible refine same_foldl ?_ (fun s x h => ?_)
    | (intro x'; clear_value x')
    | intro _
    | dsimp only [s']
    | split

theorem same_execGlkWakeInd (a0 : Bytes) (hw : listed [.met, .bil, .vlk, .glk, .tag, .key, .sys, .mgt, .log, .hsi, .can, .sram, .result] w = true) (h : Same w a s) :
    SameO w a (execGlkWakeInd a0 s) := by
  unfold execGlkWakeInd
  repeat' first
    | with_reducible assumption
    | (intro (s : State) (h : Same w a s))
    | (intro _ (s : State) (h : Same w a s))
    | (intro (h : Same w a _))
    | (intro (s' : State); refine_lift have h : Same w a s' := ?_; ?_; clear_value s')
    | lift_lets
    | with_reducible apply sameO_next
    | with_reducible apply same_ite
    | with_reducible apply sameO_ite
    | with_reducible apply same_onGlk
    | with_reducible apply same_wakeBy
    | exact listed_trans hw rfl
    | with_reducible refine same_foldl ?_ (fun s x h => ?_)
    | (intro x'; clear_value x')
    | intro _
    | dsimp only [s']
    | split

theorem same_execSleep (a0 : Req) (a1 : ℕ) (hw : listed [.sys, .hsi, .result] w = true) (h : Same w a s) :
    SameO w a (execSleep a0 a1 s) := by
  unfold execSleep
  repeat' first
    | with_reducible assumption
    | (intro (s : State) (h : Same w a s))
    | (intro _ (s : State) (h : Same w a s))
    | (intro (h : Same w a _))
    | (intro (s' : State); refine_lift have h : Same w a s' := ?_; ?_; clear_value s')
    | lift_lets
    | with_reducible apply sameO_next
    | with_reducible apply same_ite
    | with_reducible apply sameO_ite
    | with_reducible apply same_badgerCmd
    | with_reducible apply same_guarded
    | with_reducible apply same_pend
    | (with_reducible refine same_onSys ?_ ?_ ?_
       rotate_left
       rotate_left
       · intro _; first | exact ⟨rfl, rfl⟩ | (constructor <;> split <;> rfl))
    | exact listed_trans hw rfl
    | with_reducible refine same_foldl ?_ (fun s x h => ?_)
    | (intro x'; clear_value x')
    | intro _
    | dsimp only [s']
    | split

theorem same_execSleepVoteTimeout (a0 : ℕ) (hw : listed [.met, .glk, .sys, .mgt, .log, .hsi, .result] w = true) (h : Same w a s) :
    SameO w a (execSleepVoteTimeout a0 s) := by
  unfold execSleepVoteTimeout
  repeat' first
    | with_reducible assumption
    | (intro (s : State) (h : Same w a s))
    | (intro _ (s : State) (h : Same w a s))
    | (intro (h : Same w a _))
    | (intro (s' : State); refine_lift have h : Same w a s' := ?_; ?_; clear_value s')
    | lift_lets
    | with_reducible apply sameO_next
    | with_reducible apply same_ite
    | with_reducible apply sameO_ite
    | (with_reducible refine same_onSys ?_ ?_ ?_
       rotate_left
       rotate_left
       · intro _; first | exact ⟨rfl, rfl⟩ | (constructor <;> split <;> rfl))
    | with_reducible apply same_endEntry
    | (with_reducible refine same_onMgt ?_ ?_ ?_
       rotate_left
       rotate_left
       · intro _; first | exact ⟨rfl, rfl, rfl, rfl⟩ | (refine ⟨?_, ?_, ?_, ?_⟩ <;> split <;> rfl))
    | exact listed_trans hw rfl
    | with_reducible refine same_foldl ?_ (fun s x h => ?_)
    | (intro x'; clear_value x')
    | intro _
    | dsimp only [s']
    | split

theorem same_execSleepCommit  (hw : listed [.met, .glk, .tim, .sys, .mgt, .log] w = true) (h : Same w a s) :
    SameO w a (execSleepCommit s) := by
  unfold execSleepCommit
  repeat' first
    | with_reducible assumption
    | (intro (s : State) (h : Same w a s))
    | (intro _ (s : State) (h : Same w a s))
    | (intro (h : Same w a _))
    | (intro (s' : State); refine_lift have h : Same w a s' := ?_; ?_; clear_value s')
    | lift_lets
    | with_reducible apply sameO_next
    | with_reducible apply same_ite
    | with_reducible apply sameO_ite
    | (with_reducible refine same_onSys ?_ ?_ ?_
       rotate_left
       rotate_left
       · intro _; first | exact ⟨rfl, rfl⟩ | (constructor <;> split <;> rfl))
    | with_reducible apply same_flushLog
    | with_reducible apply same_renewLease
    | with_reducible apply same_saveRtc
    | with_reducible apply same_onMet
    | with_reducible apply same_saveAtOnce
    | exact listed_trans hw rfl
    | with_reducible refine same_foldl ?_ (fun s x h => ?_)
    | (intro x'; clear_value x')
    | intro _
    | dsimp only [s']
    | split

theorem same_execSleepArm  (hw : listed [.glk, .sys] w = true) (h : Same w a s) :
    SameO w a (execSleepArm s) := by
  unfold execSleepArm
  repeat' first
    | with_reducible assumption
    | (intro (s : State) (h : Same w a s))
    | (intro _ (s : State) (h : Same w a s))
    | (intro (h : Same w a _))
    | (intro (s' : State); refine_lift have h : Same w a s' := ?_; ?_; clear_value s')
    | lift_lets
    | with_reducible apply sameO_next
    | with_reducible apply same_ite
    | with_reducible apply sameO_ite
    | with_reducible apply same_onGlk
    | (with_reducible refine same_onSys ?_ ?_ ?_
       rotate_left
       rotate_left
       · intro _; first | exact ⟨rfl, rfl⟩ | (constructor <;> split <;> rfl))
    | exact listed_trans hw rfl
    | with_reducible refine same_foldl ?_ (fun s x h => ?_)
    | (intro x'; clear_value x')
    | intro _
    | dsimp only [s']
    | split

theorem same_powerOff  (hw : listed [.vlk, .glk, .eth, .tag, .epd, .key, .mgt, .log, .hsi, .can, .sram] w = true) (h : Same w a s) :
    Same w a (powerOff s) := by
  unfold powerOff
  repeat' first
    | with_reducible assumption
    | (intro (s : State) (h : Same w a s))
    | (intro _ (s : State) (h : Same w a s))
    | (intro (h : Same w a _))
    | (intro (s' : State); refine_lift have h : Same w a s' := ?_; ?_; clear_value s')
    | lift_lets
    | with_reducible apply sameO_next
    | with_reducible apply same_ite
    | with_reducible apply same_startCluster
    | with_reducible apply same_onMgt_both
    | with_reducible apply same_onKey
    | with_reducible apply same_onHsi
    | with_reducible apply same_onGlk
    | with_reducible apply same_onEth
    | with_reducible apply same_onEpd
    | with_reducible apply same_onTag
    | with_reducible apply same_slacOff
    | with_reducible apply same_onCans
    | exact listed_trans hw rfl
    | with_reducible refine same_foldl ?_ (fun s x h => ?_)
    | (intro x'; clear_value x')
    | intro _
    | dsimp only [s']
    | split

theorem same_execSleepEnter  (hw : listed [.met, .pwr, .owl, .vlk, .glk, .eth, .tag, .epd, .key, .sys, .mgt, .log, .hsi, .can, .sram] w = true) (h : Same w a s) :
    SameO w a (execSleepEnter s) := by
  unfold execSleepEnter
  repeat' first
    | with_reducible assumption
    | (intro (s : State) (h : Same w a s))
    | (intro _ (s : State) (h : Same w a s))
    | (intro (h : Same w a _))
    | (intro (s' : State); refine_lift have h : Same w a s' := ?_; ?_; clear_value s')
    | lift_lets
    | with_reducible apply sameO_next
    | with_reducible apply same_ite
    | with_reducible apply sameO_ite
    | with_reducible apply same_flushLog
    | (with_reducible refine same_onSys ?_ ?_ ?_
       rotate_left
       rotate_left
       · intro _; first | exact ⟨rfl, rfl⟩ | (constructor <;> split <;> rfl))
    | (with_reducible refine same_onMgt ?_ ?_ ?_
       rotate_left
       rotate_left
       · intro _; first | exact ⟨rfl, rfl, rfl, rfl⟩ | (refine ⟨?_, ?_, ?_, ?_⟩ <;> split <;> rfl))
    | with_reducible apply same_powerOff
    | with_reducible apply same_setMode
    | with_reducible apply same_glkGate
    | with_reducible apply same_onOwl
    | with_reducible apply same_outputsSafe
    | with_reducible apply same_onMet
    | exact listed_trans hw rfl
    | with_reducible refine same_foldl ?_ (fun s x h => ?_)
    | (intro x'; clear_value x')
    | intro _
    | dsimp only [s']
    | split

theorem same_execModeSet (a0 : Req) (a1 : ℕ) (hw : listed [.sys, .mgt, .log, .hsi, .result] w = true) (h : Same w a s) :
    SameO w a (execModeSet a0 a1 s) := by
  unfold execModeSet
  repeat' first
    | with_reducible assumption
    | (intro (s : State) (h : Same w a s))
    | (intro _ (s : State) (h : Same w a s))
    | (intro (h : Same w a _))
    | (intro (s' : State); refine_lift have h : Same w a s' := ?_; ?_; clear_value s')
    | lift_lets
    | with_reducible apply sameO_next
    | with_reducible apply same_ite
    | with_reducible apply sameO_ite
    | with_reducible apply same_badgerCmd
    | with_reducible apply same_guarded
    | with_reducible apply same_postSts
    | with_reducible apply same_setMode
    | with_reducible apply same_evalMode
    | exact listed_trans hw rfl
    | with_reducible refine same_foldl ?_ (fun s x h => ?_)
    | (intro x'; clear_value x')
    | intro _
    | dsimp only [s']
    | split

theorem same_execLimpExit  (hw : listed [.vlk, .glk, .eth, .sys, .mgt, .log, .can, .sram] w = true) (h : Same w a s) :
    SameO w a (execLimpExit s) := by
  unfold execLimpExit
  repeat' first
    | with_reducible assumption
    | (intro (s : State) (h : Same w a s))
    | (intro _ (s : State) (h : Same w a s))
    | (intro (h : Same w a _))
    | (intro (s' : State); refine_lift have h : Same w a s' := ?_; ?_; clear_value s')
    | lift_lets
    | with_reducible apply sameO_next
    | with_reducible apply same_ite
    | with_reducible apply sameO_ite
    | with_reducible apply same_slacChecks
    | with_reducible apply same_resumeRings
    | with_reducible apply same_evalMode
    | with_reducible apply same_setMode
    | exact listed_trans hw rfl
    | with_reducible refine same_foldl ?_ (fun s x h => ?_)
    | (intro x'; clear_value x')
    | intro _
    | dsimp only [s']
    | split

end Sys2Proof.Machine
end

