-- ==== Sys2Proof/Laws/FrameEnergy.lean ====
section
/-! SUPPORT. Which parts of the state the operations of Energy.lean write. -/

set_option linter.unusedVariables false
set_option linter.unreachableTactic false
set_option linter.unusedTactic false

namespace Sys2Proof.Machine

variable {w : List Part} {a s : State}

theorem same_holdLastEvents (a0 : ℕ) (a1 : GroupClose) (hw : listed [.lane, .met] w = true) (h : Same w a s) :
    Same w a (holdLastEvents a0 a1 s) := by
  unfold holdLastEvents
  repeat' first
    | with_reducible assumption
    | (intro (s : State) (h : Same w a s))
    | (intro _ (s : State) (h : Same w a s))
    | (intro (h : Same w a _))
    | (intro (s' : State); refine_lift have h : Same w a s' := ?_; ?_; clear_value s')
    | lift_lets
    | with_reducible apply sameO_next
    | with_reducible apply same_ite
    | with_reducible apply same_legalEv
    | with_reducible apply same_checkFail
    | exact listed_trans hw rfl
    | with_reducible refine same_foldl ?_ (fun s x h => ?_)
    | (intro x'; clear_value x')
    | intro _
    | dsimp only [s']
    | split

theorem same_accrue (a0 : ℕ) (a1 : List ℕ) (a2 : List ℤ) (hw : listed [.met, .bil] w = true) (h : Same w a s) :
    Same w a (accrue a0 a1 a2 s) := by
  unfold accrue
  repeat' first
    | with_reducible assumption
    | (intro (s : State) (h : Same w a s))
    | (intro _ (s : State) (h : Same w a s))
    | (intro (h : Same w a _))
    | (intro (s' : State); refine_lift have h : Same w a s' := ?_; ?_; clear_value s')
    | lift_lets
    | with_reducible apply sameO_next
    | with_reducible apply same_ite
    | with_reducible apply same_onMetOut
    | with_reducible apply same_accrueTariff
    | with_reducible apply same_onCounters
    | with_reducible apply same_legalEv
    | exact listed_trans hw rfl
    | with_reducible refine same_foldl ?_ (fun s x h => ?_)
    | (intro x'; clear_value x')
    | intro _
    | dsimp only [s']
    | split

theorem same_accountPulses (a0 : ℕ) (a1 : ℕ) (hw : listed [.met, .log] w = true) (h : Same w a s) :
    Same w a (accountPulses a0 a1 s) := by
  unfold accountPulses
  dsimp only
  repeat' first
    | with_reducible assumption
    | (intro (s : State) (h : Same w a s))
    | (intro _ (s : State) (h : Same w a s))
    | (intro (h : Same w a _))
    | (intro (s' : State); refine_lift have h : Same w a s' := ?_; ?_; clear_value s')
    | with_reducible apply sameO_next
    | with_reducible apply same_ite
    | with_reducible apply same_onMet
    | with_reducible apply same_logEv
    | exact listed_trans hw rfl
    | with_reducible refine same_foldl ?_ (fun s x h => ?_)
    | (intro x'; clear_value x')
    | intro _
    | dsimp only [s']
    | split

theorem same_execPulseTimer (a0 : ℕ) (hw : listed [.met] w = true) (h : Same w a s) :
    SameO w a (execPulseTimer a0 s) := by
  unfold execPulseTimer
  repeat' first
    | with_reducible assumption
    | (intro (s : State) (h : Same w a s))
    | (intro _ (s : State) (h : Same w a s))
    | (intro (h : Same w a _))
    | (intro (s' : State); refine_lift have h : Same w a s' := ?_; ?_; clear_value s')
    | lift_lets
    | with_reducible apply sameO_next
    | with_reducible apply same_ite
    | with_reducible apply sameO_ite
    | with_reducible apply same_onMet
    | exact listed_trans hw rfl
    | with_reducible refine same_foldl ?_ (fun s x h => ?_)
    | (intro x'; clear_value x')
    | intro _
    | dsimp only [s']
    | split

theorem same_calGate (a0 : ℕ) (hw : listed [.met] w = true) (h : Same w a s) :
    Same w a (calGate a0 s) := by
  unfold calGate
  repeat' first
    | with_reducible assumption
    | (intro (s : State) (h : Same w a s))
    | (intro _ (s : State) (h : Same w a s))
    | (intro (h : Same w a _))
    | (intro (s' : State); refine_lift have h : Same w a s' := ?_; ?_; clear_value s')
    | lift_lets
    | with_reducible apply sameO_next
    | with_reducible apply same_ite
    | with_reducible apply same_onMet
    | exact listed_trans hw rfl
    | with_reducible refine same_foldl ?_ (fun s x h => ?_)
    | (intro x'; clear_value x')
    | intro _
    | dsimp only [s']
    | split

theorem same_calStart (a0 : ℕ) (hw : listed [.met] w = true) (h : Same w a s) :
    Same w a (calStart a0 s) := by
  unfold calStart
  repeat' first
    | with_reducible assumption
    | (intro (s : State) (h : Same w a s))
    | (intro _ (s : State) (h : Same w a s))
    | (intro (h : Same w a _))
    | (intro (s' : State); refine_lift have h : Same w a s' := ?_; ?_; clear_value s')
    | lift_lets
    | with_reducible apply sameO_next
    | with_reducible apply same_ite
    | with_reducible apply same_onMet
    | with_reducible apply same_onMetOut
    | exact listed_trans hw rfl
    | with_reducible refine same_foldl ?_ (fun s x h => ?_)
    | (intro x'; clear_value x')
    | intro _
    | dsimp only [s']
    | split

theorem same_calctlWrite (a0 : ℕ) (hw : listed [.met] w = true) (h : Same w a s) :
    Same w a (calctlWrite a0 s) := by
  unfold calctlWrite
  repeat' first
    | with_reducible assumption
    | (intro (s : State) (h : Same w a s))
    | (intro _ (s : State) (h : Same w a s))
    | (intro (h : Same w a _))
    | (intro (s' : State); refine_lift have h : Same w a s' := ?_; ?_; clear_value s')
    | lift_lets
    | with_reducible apply sameO_next
    | with_reducible apply same_ite
    | with_reducible apply same_calStart
    | with_reducible apply same_onMet
    | exact listed_trans hw rfl
    | with_reducible refine same_foldl ?_ (fun s x h => ?_)
    | (intro x'; clear_value x')
    | intro _
    | dsimp only [s']
    | split

theorem same_execCalctlStart (a0 : Word) (hw : listed [.met] w = true) (h : Same w a s) :
    SameO w a (execCalctlStart a0 s) := by
  unfold execCalctlStart
  repeat' first
    | with_reducible assumption
    | (intro (s : State) (h : Same w a s))
    | (intro _ (s : State) (h : Same w a s))
    | (intro (h : Same w a _))
    | (intro (s' : State); refine_lift have h : Same w a s' := ?_; ?_; clear_value s')
    | lift_lets
    | with_reducible apply sameO_next
    | with_reducible apply same_ite
    | with_reducible apply sameO_ite
    | with_reducible apply same_calStart
    | exact listed_trans hw rfl
    | with_reducible refine same_foldl ?_ (fun s x h => ?_)
    | (intro x'; clear_value x')
    | intro _
    | dsimp only [s']
    | split

theorem same_execCalctlStop  (hw : listed [.met] w = true) (h : Same w a s) :
    SameO w a (execCalctlStop s) := by
  unfold execCalctlStop
  repeat' first
    | with_reducible assumption
    | (intro (s : State) (h : Same w a s))
    | (intro _ (s : State) (h : Same w a s))
    | (intro (h : Same w a _))
    | (intro (s' : State); refine_lift have h : Same w a s' := ?_; ?_; clear_value s')
    | lift_lets
    | with_reducible apply sameO_next
    | with_reducible apply same_ite
    | with_reducible apply sameO_ite
    | with_reducible apply same_onMet
    | exact listed_trans hw rfl
    | with_reducible refine same_foldl ?_ (fun s x h => ?_)
    | (intro x'; clear_value x')
    | intro _
    | dsimp only [s']
    | split

theorem same_trialChange (a0 : ℕ) (hw : listed [.met] w = true) (h : Same w a s) :
    Same w a (trialChange a0 s) := by
  unfold trialChange
  repeat' first
    | with_reducible assumption
    | (intro (s : State) (h : Same w a s))
    | (intro _ (s : State) (h : Same w a s))
    | (intro (h : Same w a _))
    | (intro (s' : State); refine_lift have h : Same w a s' := ?_; ?_; clear_value s')
    | lift_lets
    | with_reducible apply sameO_next
    | with_reducible apply same_ite
    | with_reducible apply same_onMetOut
    | with_reducible apply same_legalEv
    | exact listed_trans hw rfl
    | with_reducible refine same_foldl ?_ (fun s x h => ?_)
    | (intro x'; clear_value x')
    | intro _
    | dsimp only [s']
    | split

theorem same_countSeconds (a0 : ℕ) (a1 : ℕ) (hw : listed [.met] w = true) (h : Same w a s) :
    Same w a (countSeconds a0 a1 s) := by
  unfold countSeconds
  repeat' first
    | with_reducible assumption
    | (intro (s : State) (h : Same w a s))
    | (intro _ (s : State) (h : Same w a s))
    | (intro (h : Same w a _))
    | (intro (s' : State); refine_lift have h : Same w a s' := ?_; ?_; clear_value s')
    | lift_lets
    | with_reducible apply sameO_next
    | with_reducible apply same_ite
    | with_reducible apply same_onMetOut
    | with_reducible apply same_onCounters
    | exact listed_trans hw rfl
    | with_reducible refine same_foldl ?_ (fun s x h => ?_)
    | (intro x'; clear_value x')
    | intro _
    | dsimp only [s']
    | split

theorem same_setNometer (a0 : ℕ) (a1 : ℕ) (a2 : Bool) (hw : listed [.met] w = true) (h : Same w a s) :
    Same w a (setNometer a0 a1 a2 s) := by
  unfold setNometer
  repeat' first
    | with_reducible assumption
    | (intro (s : State) (h : Same w a s))
    | (intro _ (s : State) (h : Same w a s))
    | (intro (h : Same w a _))
    | (intro (s' : State); refine_lift have h : Same w a s' := ?_; ?_; clear_value s')
    | lift_lets
    | with_reducible apply sameO_next
    | with_reducible apply same_ite
    | with_reducible apply same_legalEv
    | with_reducible apply same_onMetOut
    | exact listed_trans hw rfl
    | with_reducible refine same_foldl ?_ (fun s x h => ?_)
    | (intro x'; clear_value x')
    | intro _
    | dsimp only [s']
    | split

theorem same_meterStatus (a0 : ℕ) (hw : listed [.met, .owl] w = true) (h : Same w a s) :
    Same w a (meterStatus a0 s) := by
  unfold meterStatus
  repeat' first
    | with_reducible assumption
    | (intro (s : State) (h : Same w a s))
    | (intro _ (s : State) (h : Same w a s))
    | (intro (h : Same w a _))
    | (intro (s' : State); refine_lift have h : Same w a s' := ?_; ?_; clear_value s')
    | lift_lets
    | with_reducible apply sameO_next
    | with_reducible apply same_ite
    | with_reducible apply same_setNometer
    | with_reducible apply same_onOwl
    | exact listed_trans hw rfl
    | with_reducible refine same_foldl ?_ (fun s x h => ?_)
    | (intro x'; clear_value x')
    | intro _
    | dsimp only [s']
    | split

theorem same_accrueTrial (a0 : ℕ) (a1 : Contribution) (hw : listed [.met, .log] w = true) (h : Same w a s) :
    Same w a (accrueTrial a0 a1 s) := by
  unfold accrueTrial
  repeat' first
    | with_reducible assumption
    | (intro (s : State) (h : Same w a s))
    | (intro _ (s : State) (h : Same w a s))
    | (intro (h : Same w a _))
    | (intro (s' : State); refine_lift have h : Same w a s' := ?_; ?_; clear_value s')
    | lift_lets
    | with_reducible apply sameO_next
    | with_reducible apply same_ite
    | with_reducible apply same_accountPulses
    | with_reducible apply same_onMetOut
    | exact listed_trans hw rfl
    | with_reducible refine same_foldl ?_ (fun s x h => ?_)
    | (intro x'; clear_value x')
    | intro _
    | dsimp only [s']
    | split

theorem same_accrueInterval (a0 : ℕ) (a1 : Bool) (a2 : Bool) (a3 : Bool) (a4 : List GroupClose) (hw : listed [.met, .bil, .log] w = true) (h : Same w a s) :
    Same w a (accrueInterval a0 a1 a2 a3 a4 s) := by
  unfold accrueInterval
  repeat' first
    | with_reducible assumption
    | (intro (s : State) (h : Same w a s))
    | (intro _ (s : State) (h : Same w a s))
    | (intro (h : Same w a _))
    | (intro (s' : State); refine_lift have h : Same w a s' := ?_; ?_; clear_value s')
    | lift_lets
    | with_reducible apply sameO_next
    | with_reducible apply same_ite
    | with_reducible apply same_onCounters
    | with_reducible apply same_accrueTrial
    | with_reducible apply same_accountPulses
    | with_reducible apply same_accrue
    | with_reducible apply same_onMetOut
    | exact listed_trans hw rfl
    | with_reducible refine same_foldl ?_ (fun s x h => ?_)
    | (intro x'; clear_value x')
    | intro _
    | dsimp only [s']
    | split

theorem same_closeSteps (a0 : OutletRec) (a1 : IntervalInput) (hw : listed [.lane, .met, .bil, .log, .freeCtr] w = true) (h : Same w a s) :
    Same w a (closeSteps a0 a1 s) := by
  unfold closeSteps
  repeat' first
    | with_reducible assumption
    | (intro (s : State) (h : Same w a s))
    | (intro _ (s : State) (h : Same w a s))
    | (intro (h : Same w a _))
    | (intro (s' : State); refine_lift have h : Same w a s' := ?_; ?_; clear_value s')
    | lift_lets
    | with_reducible apply sameO_next
    | with_reducible apply same_ite
    | with_reducible apply same_trialChange
    | with_reducible apply same_accCheck
    | with_reducible apply same_bump
    | with_reducible apply same_onLaneBlk
    | with_reducible apply same_holdLastEvents
    | with_reducible apply same_onMetOut
    | with_reducible apply same_onBilOut
    | with_reducible apply same_accrueInterval
    | with_reducible apply same_calGate
    | with_reducible apply same_countSeconds
    | exact listed_trans hw rfl
    | with_reducible refine same_foldl ?_ (fun s x h => ?_)
    | (intro x'; clear_value x')
    | intro _
    | dsimp only [s']
    | split

theorem same_requestSnapshot (a0 : ℕ) (a1 : ℕ) (hw : listed [.met] w = true) (h : Same w a s) :
    Same w a (requestSnapshot a0 a1 s) := by
  unfold requestSnapshot
  repeat' first
    | with_reducible assumption
    | (intro (s : State) (h : Same w a s))
    | (intro _ (s : State) (h : Same w a s))
    | (intro (h : Same w a _))
    | (intro (s' : State); refine_lift have h : Same w a s' := ?_; ?_; clear_value s')
    | lift_lets
    | with_reducible apply sameO_next
    | with_reducible apply same_ite
    | with_reducible apply same_captureAs
    | with_reducible apply same_onMet
    | exact listed_trans hw rfl
    | with_reducible refine same_foldl ?_ (fun s x h => ?_)
    | (intro x'; clear_value x')
    | intro _
    | dsimp only [s']
    | split

theorem same_startSnapshot (a0 : ℕ) (a1 : ℕ) (a2 : ℕ) (hw : listed [.met, .vlk] w = true) (h : Same w a s) :
    Same w a (startSnapshot a0 a1 a2 s) := by
  unfold startSnapshot
  repeat' first
    | with_reducible assumption
    | (intro (s : State) (h : Same w a s))
    | (intro _ (s : State) (h : Same w a s))
    | (intro (h : Same w a _))
    | (intro (s' : State); refine_lift have h : Same w a s' := ?_; ?_; clear_value s')
    | lift_lets
    | with_reducible apply sameO_next
    | with_reducible apply same_ite
    | with_reducible apply same_onMetOut
    | with_reducible apply same_captureAs
    | with_reducible apply same_onLink
    | exact listed_trans hw rfl
    | with_reducible refine same_foldl ?_ (fun s x h => ?_)
    | (intro x'; clear_value x')
    | intro _
    | dsimp only [s']
    | split

theorem same_endSnapshot (a0 : ℕ) (a1 : ℕ) (a2 : ℕ) (a3 : ℕ) (hw : listed [.met] w = true) (h : Same w a s) :
    Same w a (endSnapshot a0 a1 a2 a3 s) := by
  unfold endSnapshot
  repeat' first
    | with_reducible assumption
    | (intro (s : State) (h : Same w a s))
    | (intro _ (s : State) (h : Same w a s))
    | (intro (h : Same w a _))
    | (intro (s' : State); refine_lift have h : Same w a s' := ?_; ?_; clear_value s')
    | lift_lets
    | with_reducible apply sameO_next
    | with_reducible apply same_ite
    | with_reducible apply same_captureAs
    | with_reducible apply same_onMetOut
    | exact listed_trans hw rfl
    | with_reducible refine same_foldl ?_ (fun s x h => ?_)
    | (intro x'; clear_value x')
    | intro _
    | dsimp only [s']
    | split

theorem same_captureEarly (a0 : Bool) (a1 : ℕ) (a2 : ℕ) (a3 : ℕ) (hw : listed [.met, .vlk] w = true) (h : Same w a s) :
    Same w a (captureEarly a0 a1 a2 a3 s) := by
  unfold captureEarly
  repeat' first
    | with_reducible assumption
    | (intro (s : State) (h : Same w a s))
    | (intro _ (s : State) (h : Same w a s))
    | (intro (h : Same w a _))
    | (intro (s' : State); refine_lift have h : Same w a s' := ?_; ?_; clear_value s')
    | lift_lets
    | with_reducible apply sameO_next
    | with_reducible apply same_ite
    | with_reducible apply same_requestSnapshot
    | with_reducible apply same_dropRequest
    | with_reducible apply same_startSnapshot
    | with_reducible apply same_endSnapshot
    | exact listed_trans hw rfl
    | with_reducible refine same_foldl ?_ (fun s x h => ?_)
    | (intro x'; clear_value x')
    | intro _
    | dsimp only [s']
    | split

theorem same_restartSnapshot (a0 : ℕ) (hw : listed [.met] w = true) (h : Same w a s) :
    Same w a (restartSnapshot a0 s) := by
  unfold restartSnapshot
  repeat' first
    | with_reducible assumption
    | (intro (s : State) (h : Same w a s))
    | (intro _ (s : State) (h : Same w a s))
    | (intro (h : Same w a _))
    | (intro (s' : State); refine_lift have h : Same w a s' := ?_; ?_; clear_value s')
    | lift_lets
    | with_reducible apply sameO_next
    | with_reducible apply same_ite
    | with_reducible apply same_onMet
    | with_reducible apply same_capture
    | exact listed_trans hw rfl
    | with_reducible refine same_foldl ?_ (fun s x h => ?_)
    | (intro x'; clear_value x')
    | intro _
    | dsimp only [s']
    | split

theorem same_boundarySteps (a0 : ℕ) (a1 : ℕ) (hw : listed [.met, .bil, .vlk] w = true) (h : Same w a s) :
    Same w a (boundarySteps a0 a1 s) := by
  unfold boundarySteps
  repeat' first
    | with_reducible assumption
    | (intro (s : State) (h : Same w a s))
    | (intro _ (s : State) (h : Same w a s))
    | (intro (h : Same w a _))
    | (intro (s' : State); refine_lift have h : Same w a s' := ?_; ?_; clear_value s')
    | lift_lets
    | with_reducible apply sameO_next
    | with_reducible apply same_ite
    | with_reducible apply same_boundaryEvents
    | with_reducible apply same_takeGens
    | with_reducible apply same_restartSnapshot
    | with_reducible apply same_captureEarly
    | exact listed_trans hw rfl
    | with_reducible refine same_foldl ?_ (fun s x h => ?_)
    | (intro x'; clear_value x')
    | intro _
    | dsimp only [s']
    | split

theorem same_closeInterval (a0 : OutletRec) (a1 : IntervalInput) (hw : listed [.lane, .met, .bil, .owl, .vlk, .sys, .log, .freeCtr] w = true) (h : Same w a s) :
    Same w a (closeInterval a0 a1 s) := by
  unfold closeInterval
  repeat' first
    | with_reducible assumption
    | (intro (s : State) (h : Same w a s))
    | (intro _ (s : State) (h : Same w a s))
    | (intro (h : Same w a _))
    | (intro (s' : State); refine_lift have h : Same w a s' := ?_; ?_; clear_value s')
    | lift_lets
    | with_reducible apply sameO_next
    | with_reducible apply same_ite
    | with_reducible apply same_closeSteps
    | with_reducible apply same_boundarySteps
    | with_reducible apply same_beginSave
    | (with_reducible refine same_onSys ?_ ?_ ?_
       rotate_left
       rotate_left
       · intro _; first | exact ⟨rfl, rfl⟩ | (constructor <;> split <;> rfl))
    | with_reducible apply same_meterStatus
    | exact listed_trans hw rfl
    | with_reducible refine same_foldl ?_ (fun s x h => ?_)
    | (intro x'; clear_value x')
    | intro _
    | dsimp only [s']
    | split

theorem same_execSramScrub (a0 : ℕ) (hw : listed [.mgt] w = true) (h : Same w a s) :
    SameO w a (execSramScrub a0 s) := by
  unfold execSramScrub
  repeat' first
    | with_reducible assumption
    | (intro (s : State) (h : Same w a s))
    | (intro _ (s : State) (h : Same w a s))
    | (intro (h : Same w a _))
    | (intro (s' : State); refine_lift have h : Same w a s' := ?_; ?_; clear_value s')
    | lift_lets
    | with_reducible apply sameO_next
    | with_reducible apply same_ite
    | with_reducible apply sameO_ite
    | (with_reducible refine same_onMgt ?_ ?_ ?_
       rotate_left
       rotate_left
       · intro _; first | exact ⟨rfl, rfl, rfl, rfl⟩ | (refine ⟨?_, ?_, ?_, ?_⟩ <;> split <;> rfl))
    | exact listed_trans hw rfl
    | with_reducible refine same_foldl ?_ (fun s x h => ?_)
    | (intro x'; clear_value x')
    | intro _
    | dsimp only [s']
    | split

theorem same_execMetCoreReload  (hw : listed [.met, .bil, .sys] w = true) (h : Same w a s) :
    SameO w a (execMetCoreReload s) := by
  unfold execMetCoreReload
  repeat' first
    | with_reducible assumption
    | (intro (s : State) (h : Same w a s))
    | (intro _ (s : State) (h : Same w a s))
    | (intro (h : Same w a _))
    | (intro (s' : State); refine_lift have h : Same w a s' := ?_; ?_; clear_value s')
    | lift_lets
    | with_reducible apply sameO_next
    | with_reducible apply same_ite
    | with_reducible apply sameO_ite
    | with_reducible apply same_onMet
    | with_reducible apply same_onBil
    | (with_reducible refine same_onSys ?_ ?_ ?_
       rotate_left
       rotate_left
       · intro _; first | exact ⟨rfl, rfl⟩ | (constructor <;> split <;> rfl))
    | with_reducible apply same_setNometer
    | exact listed_trans hw rfl
    | with_reducible refine same_foldl ?_ (fun s x h => ?_)
    | (intro x'; clear_value x')
    | intro _
    | dsimp only [s']
    | split

theorem same_execMetFirmwareReloaded  (hw : listed [.met, .bil] w = true) (h : Same w a s) :
    SameO w a (execMetFirmwareReloaded s) := by
  unfold execMetFirmwareReloaded
  repeat' first
    | with_reducible assumption
    | (intro (s : State) (h : Same w a s))
    | (intro _ (s : State) (h : Same w a s))
    | (intro (h : Same w a _))
    | (intro (s' : State); refine_lift have h : Same w a s' := ?_; ?_; clear_value s')
    | lift_lets
    | with_reducible apply sameO_next
    | with_reducible apply same_ite
    | with_reducible apply sameO_ite
    | with_reducible apply same_onMet
    | with_reducible apply same_restoreDemand
    | with_reducible apply same_restoreLedger
    | with_reducible apply same_accRestore
    | exact listed_trans hw rfl
    | with_reducible refine same_foldl ?_ (fun s x h => ?_)
    | (intro x'; clear_value x')
    | intro _
    | dsimp only [s']
    | split

end Sys2Proof.Machine
end

