-- ==== Sys2Proof/Laws/FrameActivate.lean ====
section
/-! SUPPORT. Which parts of the state the operations of Activate.lean write. -/

set_option linter.unusedVariables false
set_option linter.unreachableTactic false
set_option linter.unusedTactic false

namespace Sys2Proof.Machine

variable {w : List Part} {a s : State}

theorem same_cutWarm (a0 : Struct) (a1 : Struct) (a2 : Warmup) (hw : listed [.lane] w = true) (h : Same w a s) :
    Same w a (cutWarm a0 a1 a2 s) := by
  unfold cutWarm
  repeat' first
    | with_reducible assumption
    | (intro (s : State) (h : Same w a s))
    | (intro _ (s : State) (h : Same w a s))
    | (intro (h : Same w a _))
    | (intro (s' : State); refine_lift have h : Same w a s' := ?_; ?_; clear_value s')
    | lift_lets
    | with_reducible apply sameO_next
    | with_reducible apply same_ite
    | with_reducible apply same_onLaneBlk
    | with_reducible apply same_releaseSpare
    | exact listed_trans hw rfl
    | with_reducible refine same_foldl ?_ (fun s x h => ?_)
    | (intro x'; clear_value x')
    | intro _
    | dsimp only [s']
    | split

theorem same_startLanes (a0 : Struct) (a1 : Struct) (hw : listed [.lane] w = true) (h : Same w a s) :
    Same w a (startLanes a0 a1 s) := by
  unfold startLanes
  repeat' first
    | with_reducible assumption
    | (intro (s : State) (h : Same w a s))
    | (intro _ (s : State) (h : Same w a s))
    | (intro (h : Same w a _))
    | (intro (s' : State); refine_lift have h : Same w a s' := ?_; ?_; clear_value s')
    | lift_lets
    | with_reducible apply sameO_next
    | with_reducible apply same_ite
    | with_reducible apply same_cutWarm
    | with_reducible apply same_onLaneBlk
    | exact listed_trans hw rfl
    | with_reducible refine same_foldl ?_ (fun s x h => ?_)
    | (intro x'; clear_value x')
    | intro _
    | dsimp only [s']
    | split

theorem same_startOutlets (a0 : Struct) (a1 : Struct) (hw : listed [.met, .bil, .flt, .owl] w = true) (h : Same w a s) :
    Same w a (startOutlets a0 a1 s) := by
  unfold startOutlets
  repeat' first
    | with_reducible assumption
    | (intro (s : State) (h : Same w a s))
    | (intro _ (s : State) (h : Same w a s))
    | (intro (h : Same w a _))
    | (intro (s' : State); refine_lift have h : Same w a s' := ?_; ?_; clear_value s')
    | lift_lets
    | with_reducible apply sameO_next
    | with_reducible apply same_ite
    | with_reducible apply same_onMet
    | with_reducible apply same_onBil
    | with_reducible apply same_onFlt
    | with_reducible apply same_onOwl
    | exact listed_trans hw rfl
    | with_reducible refine same_foldl ?_ (fun s x h => ?_)
    | (intro x'; clear_value x')
    | intro _
    | dsimp only [s']
    | split

theorem same_startChannels (a0 : Struct) (a1 : Struct) (hw : listed [.pwr] w = true) (h : Same w a s) :
    Same w a (startChannels a0 a1 s) := by
  unfold startChannels
  repeat' first
    | with_reducible assumption
    | (intro (s : State) (h : Same w a s))
    | (intro _ (s : State) (h : Same w a s))
    | (intro (h : Same w a _))
    | (intro (s' : State); refine_lift have h : Same w a s' := ?_; ?_; clear_value s')
    | lift_lets
    | with_reducible apply sameO_next
    | with_reducible apply same_ite
    | with_reducible apply same_onPwr
    | exact listed_trans hw rfl
    | with_reducible refine same_foldl ?_ (fun s x h => ?_)
    | (intro x'; clear_value x')
    | intro _
    | dsimp only [s']
    | split

theorem same_startLinks (a0 : Struct) (a1 : Struct) (hw : listed [.vlk] w = true) (h : Same w a s) :
    Same w a (startLinks a0 a1 s) := by
  exact same_vlk hw h

theorem same_startBlocks (a0 : Struct) (a1 : Struct) (hw : listed [.owl, .glk, .eth, .tag, .epd, .key, .log, .can, .sram, .freeCtr] w = true) (h : Same w a s) :
    Same w a (startBlocks a0 a1 s) := by
  unfold startBlocks
  repeat' first
    | with_reducible assumption
    | (intro (s : State) (h : Same w a s))
    | (intro _ (s : State) (h : Same w a s))
    | (intro (h : Same w a _))
    | (intro (s' : State); refine_lift have h : Same w a s' := ?_; ?_; clear_value s')
    | lift_lets
    | with_reducible apply sameO_next
    | with_reducible apply same_ite
    | with_reducible apply same_onGlk
    | with_reducible apply same_dropMember
    | with_reducible apply same_onEth
    | with_reducible apply same_onCan
    | with_reducible apply same_onTag
    | with_reducible apply same_startEpd
    | with_reducible apply same_onEpd
    | with_reducible apply same_reestimateAll
    | with_reducible apply same_glkGate
    | with_reducible apply same_onOwl
    | exact listed_trans hw rfl
    | with_reducible refine same_foldl ?_ (fun s x h => ?_)
    | (intro x'; clear_value x')
    | intro _
    | dsimp only [s']
    | split

theorem same_installStruct (a0 : ℕ) (a1 : Struct) (hw : listed [.str, .lane, .met, .bil, .pwr, .flt, .owl, .vlk, .glk, .eth, .tag, .epd, .key, .log, .can, .sram, .freeCtr] w = true) (h : Same w a s) :
    Same w a (installStruct a0 a1 s) := by
  unfold installStruct
  repeat' first
    | with_reducible assumption
    | (intro (s : State) (h : Same w a s))
    | (intro _ (s : State) (h : Same w a s))
    | (intro (h : Same w a _))
    | (intro (s' : State); refine_lift have h : Same w a s' := ?_; ?_; clear_value s')
    | lift_lets
    | with_reducible apply sameO_next
    | with_reducible apply same_ite
    | with_reducible apply same_onStr
    | with_reducible apply same_startOutlets
    | with_reducible apply same_startLanes
    | with_reducible apply same_zcCheck
    | with_reducible apply same_startBlocks
    | with_reducible apply same_startLinks
    | with_reducible apply same_startChannels
    | exact listed_trans hw rfl
    | with_reducible refine same_foldl ?_ (fun s x h => ?_)
    | (intro x'; clear_value x')
    | intro _
    | dsimp only [s']
    | split

theorem same_connectSpare (a0 : SubstRec) (hw : listed [.str, .lane] w = true) (h : Same w a s) :
    Same w a (connectSpare a0 s) := by
  unfold connectSpare
  repeat' first
    | with_reducible assumption
    | (intro (s : State) (h : Same w a s))
    | (intro _ (s : State) (h : Same w a s))
    | (intro (h : Same w a _))
    | (intro (s' : State); refine_lift have h : Same w a s' := ?_; ?_; clear_value s')
    | lift_lets
    | with_reducible apply sameO_next
    | with_reducible apply same_ite
    | with_reducible apply same_onStr
    | with_reducible apply same_onLane
    | exact listed_trans hw rfl
    | with_reducible refine same_foldl ?_ (fun s x h => ?_)
    | (intro x'; clear_value x')
    | intro _
    | dsimp only [s']
    | split

theorem same_restartLane (a0 : ℕ) (hw : listed [.lane] w = true) (h : Same w a s) :
    Same w a (restartLane a0 s) := by
  unfold restartLane
  repeat' first
    | with_reducible assumption
    | (intro (s : State) (h : Same w a s))
    | (intro _ (s : State) (h : Same w a s))
    | (intro (h : Same w a _))
    | (intro (s' : State); refine_lift have h : Same w a s' := ?_; ?_; clear_value s')
    | lift_lets
    | with_reducible apply sameO_next
    | with_reducible apply same_ite
    | with_reducible apply same_onLane
    | exact listed_trans hw rfl
    | with_reducible refine same_foldl ?_ (fun s x h => ?_)
    | (intro x'; clear_value x')
    | intro _
    | dsimp only [s']
    | split

theorem same_discardSubst (a0 : SubstRec) (a1 : ℕ) (hw : listed [.str, .lane, .met, .log] w = true) (h : Same w a s) :
    Same w a (discardSubst a0 a1 s) := by
  unfold discardSubst
  repeat' first
    | with_reducible assumption
    | (intro (s : State) (h : Same w a s))
    | (intro _ (s : State) (h : Same w a s))
    | (intro (h : Same w a _))
    | (intro (s' : State); refine_lift have h : Same w a s' := ?_; ?_; clear_value s')
    | lift_lets
    | with_reducible apply sameO_next
    | with_reducible apply same_ite
    | with_reducible apply same_onStr
    | with_reducible apply same_dropWarm
    | with_reducible apply same_onLaneBlk
    | with_reducible apply same_restartLane
    | with_reducible apply same_logEv
    | with_reducible apply same_onMet
    | exact listed_trans hw rfl
    | with_reducible refine same_foldl ?_ (fun s x h => ?_)
    | (intro x'; clear_value x')
    | intro _
    | dsimp only [s']
    | split

theorem same_judgeSwaps (a0 : Bool) (hw : listed [.str, .lane, .met, .log] w = true) (h : Same w a s) :
    Same w a (judgeSwaps a0 s) := by
  unfold judgeSwaps
  repeat' first
    | with_reducible assumption
    | (intro (s : State) (h : Same w a s))
    | (intro _ (s : State) (h : Same w a s))
    | (intro (h : Same w a _))
    | (intro (s' : State); refine_lift have h : Same w a s' := ?_; ?_; clear_value s')
    | lift_lets
    | with_reducible apply sameO_next
    | with_reducible apply same_ite
    | with_reducible apply same_serveQueue
    | with_reducible apply same_connectSpare
    | with_reducible apply same_discardSubst
    | exact listed_trans hw rfl
    | with_reducible refine same_foldl ?_ (fun s x h => ?_)
    | (intro x'; clear_value x')
    | intro _
    | dsimp only [s']
    | split

theorem same_repairTwin {Tw : Type} (a1 : ℕ) (a2 : Twin Tw) (a3 : Twin Tw → State → State) (hf3 : ∀ x s, Same w a s → Same w a (a3 x s)) (hw : listed [.met] w = true) (h : Same w a s) :
    Same w a (repairTwin a1 a2 a3 s) := by
  unfold repairTwin
  repeat' first
    | with_reducible assumption
    | (intro (s : State) (h : Same w a s))
    | (intro _ (s : State) (h : Same w a s))
    | (intro (h : Same w a _))
    | (intro (s' : State); refine_lift have h : Same w a s' := ?_; ?_; clear_value s')
    | lift_lets
    | with_reducible apply sameO_next
    | with_reducible apply same_ite
    | with_reducible apply same_legalEv
    | exact listed_trans hw rfl
    | with_reducible refine same_foldl ?_ (fun s x h => ?_)
    | apply hf3
    | (intro x'; clear_value x')
    | intro _
    | dsimp only [s']
    | split

theorem same_ctlLost  (hw : listed [.met, .bil] w = true) (h : Same w a s) :
    Same w a (ctlLost s) := by
  unfold ctlLost
  repeat' first
    | with_reducible assumption
    | (intro (s : State) (h : Same w a s))
    | (intro _ (s : State) (h : Same w a s))
    | (intro (h : Same w a _))
    | (intro (s' : State); refine_lift have h : Same w a s' := ?_; ?_; clear_value s')
    | lift_lets
    | with_reducible apply sameO_next
    | with_reducible apply same_ite
    | with_reducible apply same_legalEv
    | with_reducible apply same_onBil
    | exact listed_trans hw rfl
    | with_reducible refine same_foldl ?_ (fun s x h => ?_)
    | (intro x'; clear_value x')
    | intro _
    | dsimp only [s']
    | split

theorem same_storeCheck  (hw : listed [.met, .bil] w = true) (h : Same w a s) :
    Same w a (storeCheck s) := by
  unfold storeCheck
  repeat' first
    | with_reducible assumption
    | (intro (s : State) (h : Same w a s))
    | (intro _ (s : State) (h : Same w a s))
    | (intro (h : Same w a _))
    | (intro (s' : State); refine_lift have h : Same w a s' := ?_; ?_; clear_value s')
    | lift_lets
    | with_reducible apply sameO_next
    | with_reducible apply same_ite
    | with_reducible apply same_repairTwin
    | with_reducible apply same_onMet
    | with_reducible apply same_ctlLost
    | with_reducible apply same_onBil
    | with_reducible apply same_legalEv
    | exact listed_trans hw rfl
    | with_reducible refine same_foldl ?_ (fun s x h => ?_)
    | (intro x'; clear_value x')
    | intro _
    | dsimp only [s']
    | split

theorem same_restoreOutlets (a0 : SaveRec) (hw : listed [.met, .bil] w = true) (h : Same w a s) :
    Same w a (restoreOutlets a0 s) := by
  unfold restoreOutlets
  repeat' first
    | with_reducible assumption
    | (intro (s : State) (h : Same w a s))
    | (intro _ (s : State) (h : Same w a s))
    | (intro (h : Same w a _))
    | (intro (s' : State); refine_lift have h : Same w a s' := ?_; ?_; clear_value s')
    | lift_lets
    | with_reducible apply sameO_next
    | with_reducible apply same_ite
    | with_reducible apply same_restoreLedger
    | with_reducible apply same_onMet
    | with_reducible apply same_onBil
    | exact listed_trans hw rfl
    | with_reducible refine same_foldl ?_ (fun s x h => ?_)
    | (intro x'; clear_value x')
    | intro _
    | dsimp only [s']
    | split

theorem same_endOpenSessions  (hw : listed [.met] w = true) (h : Same w a s) :
    Same w a (endOpenSessions s) := by
  unfold endOpenSessions
  repeat' first
    | with_reducible assumption
    | (intro (s : State) (h : Same w a s))
    | (intro _ (s : State) (h : Same w a s))
    | (intro (h : Same w a _))
    | (intro (s' : State); refine_lift have h : Same w a s' := ?_; ?_; clear_value s')
    | lift_lets
    | with_reducible apply sameO_next
    | with_reducible apply same_ite
    | with_reducible apply same_onMetOut
    | exact listed_trans hw rfl
    | with_reducible refine same_foldl ?_ (fun s x h => ?_)
    | (intro x'; clear_value x')
    | intro _
    | dsimp only [s']
    | split

theorem same_metStart  (hw : listed [.met, .bil] w = true) (h : Same w a s) :
    Same w a (metStart s) := by
  unfold metStart
  repeat' first
    | with_reducible assumption
    | (intro (s : State) (h : Same w a s))
    | (intro _ (s : State) (h : Same w a s))
    | (intro (h : Same w a _))
    | (intro (s' : State); refine_lift have h : Same w a s' := ?_; ?_; clear_value s')
    | lift_lets
    | with_reducible apply sameO_next
    | with_reducible apply same_ite
    | with_reducible apply same_storeCheck
    | with_reducible apply same_onMet
    | with_reducible apply same_endOpenSessions
    | with_reducible apply same_onBil
    | with_reducible apply same_restoreLedger
    | with_reducible apply same_billRestart
    | with_reducible apply same_legalEv
    | with_reducible apply same_onCounters
    | with_reducible apply same_restoreOutlets
    | with_reducible apply same_profileRestart
    | exact listed_trans hw rfl
    | with_reducible refine same_foldl ?_ (fun s x h => ?_)
    | (intro x'; clear_value x')
    | intro _
    | dsimp only [s']
    | split

theorem same_safetyChanged (a0 : Struct) (a1 : Bytes) (a2 : Side) (hw : listed [.owl, .log] w = true) (h : Same w a s) :
    Same w a (safetyChanged a0 a1 a2 s) := by
  unfold safetyChanged
  repeat' first
    | with_reducible assumption
    | (intro (s : State) (h : Same w a s))
    | (intro _ (s : State) (h : Same w a s))
    | (intro (h : Same w a _))
    | (intro (s' : State); refine_lift have h : Same w a s' := ?_; ?_; clear_value s')
    | lift_lets
    | with_reducible apply sameO_next
    | with_reducible apply same_ite
    | with_reducible apply same_onOwl
    | with_reducible apply same_changeEntry
    | exact listed_trans hw rfl
    | with_reducible refine same_foldl ?_ (fun s x h => ?_)
    | (intro x'; clear_value x')
    | intro _
    | dsimp only [s']
    | split

theorem same_trialSelector (a0 : ℕ) (hw : listed [.str] w = true) (h : Same w a s) :
    Same w a (trialSelector a0 s) := by
  unfold trialSelector
  repeat' first
    | with_reducible assumption
    | (intro (s : State) (h : Same w a s))
    | (intro _ (s : State) (h : Same w a s))
    | (intro (h : Same w a _))
    | (intro (s' : State); refine_lift have h : Same w a s' := ?_; ?_; clear_value s')
    | lift_lets
    | with_reducible apply sameO_next
    | with_reducible apply same_ite
    | with_reducible apply same_onStr
    | exact listed_trans hw rfl
    | with_reducible refine same_foldl ?_ (fun s x h => ?_)
    | (intro x'; clear_value x')
    | intro _
    | dsimp only [s']
    | split

theorem same_activateCopy (a0 : ℕ) (a1 : Side) (hw : listed [.str, .lane, .met, .bil, .pwr, .flt, .owl, .vlk, .glk, .eth, .tag, .epd, .key, .upd, .log, .can, .sram, .freeCtr] w = true) (h : Same w a s) :
    Same w a (activateCopy a0 a1 s) := by
  unfold activateCopy
  repeat' first
    | with_reducible assumption
    | (intro (s : State) (h : Same w a s))
    | (intro _ (s : State) (h : Same w a s))
    | (intro (h : Same w a _))
    | (intro (s' : State); refine_lift have h : Same w a s' := ?_; ?_; clear_value s')
    | lift_lets
    | with_reducible apply sameO_next
    | with_reducible apply same_ite
    | with_reducible apply same_recordSeal
    | with_reducible apply same_sealBefore
    | with_reducible apply same_onStr
    | with_reducible apply same_installStruct
    | with_reducible apply same_judgeSwaps
    | with_reducible apply same_metStart
    | with_reducible apply same_safetyChanged
    | with_reducible apply same_startOutlet
    | with_reducible apply same_settleAll
    | with_reducible apply same_refreshWithhold
    | with_reducible apply same_onKind
    | with_reducible apply same_mirrorCopy
    | with_reducible apply same_capture
    | with_reducible apply same_slotsChanged
    | exact listed_trans hw rfl
    | with_reducible refine same_foldl ?_ (fun s x h => ?_)
    | (intro x'; clear_value x')
    | intro _
    | dsimp only [s']
    | split

theorem same_refuseWarren (a0 : Req) (a1 : ℕ) (hw : listed [.str, .hsi, .result] w = true) (h : Same w a s) :
    Same w a (refuseWarren a0 a1 s) := by
  unfold refuseWarren
  repeat' first
    | with_reducible assumption
    | (intro (s : State) (h : Same w a s))
    | (intro _ (s : State) (h : Same w a s))
    | (intro (h : Same w a _))
    | (intro (s' : State); refine_lift have h : Same w a s' := ?_; ?_; clear_value s')
    | lift_lets
    | with_reducible apply sameO_next
    | with_reducible apply same_ite
    | with_reducible apply same_postSts
    | with_reducible apply same_onStr
    | exact listed_trans hw rfl
    | with_reducible refine same_foldl ?_ (fun s x h => ?_)
    | (intro x'; clear_value x')
    | intro _
    | dsimp only [s']
    | split

theorem same_warrenActivate (a0 : Req) (hw : listed [.str, .log, .hsi, .result] w = true) (h : Same w a s) :
    Same w a (warrenActivate a0 s) := by
  unfold warrenActivate
  repeat' first
    | with_reducible assumption
    | (intro (s : State) (h : Same w a s))
    | (intro _ (s : State) (h : Same w a s))
    | (intro (h : Same w a _))
    | (intro (s' : State); refine_lift have h : Same w a s' := ?_; ?_; clear_value s')
    | lift_lets
    | with_reducible apply sameO_next
    | with_reducible apply same_ite
    | with_reducible apply same_refuseWarren
    | with_reducible apply same_onStr
    | with_reducible apply same_logReject
    | with_reducible apply same_pend
    | with_reducible apply same_trialSelector
    | exact listed_trans hw rfl
    | with_reducible refine same_foldl ?_ (fun s x h => ?_)
    | (intro x'; clear_value x')
    | intro _
    | dsimp only [s']
    | split

theorem same_execWarrenActivate (a0 : Req) (hw : listed [.str, .log, .hsi, .result] w = true) (h : Same w a s) :
    SameO w a (execWarrenActivate a0 s) := by
  unfold execWarrenActivate
  repeat' first
    | with_reducible assumption
    | (intro (s : State) (h : Same w a s))
    | (intro _ (s : State) (h : Same w a s))
    | (intro (h : Same w a _))
    | (intro (s' : State); refine_lift have h : Same w a s' := ?_; ?_; clear_value s')
    | lift_lets
    | with_reducible apply sameO_next
    | with_reducible apply same_ite
    | with_reducible apply sameO_ite
    | with_reducible apply same_badgerCmd
    | with_reducible apply same_warrenActivate
    | exact listed_trans hw rfl
    | with_reducible refine same_foldl ?_ (fun s x h => ?_)
    | (intro x'; clear_value x')
    | intro _
    | dsimp only [s']
    | split

theorem same_releasePilot (a0 : ℕ) (hw : listed [.met, .pwr, .owl, .vlk, .tag, .sys, .mgt, .log] w = true) (h : Same w a s) :
    Same w a (releasePilot a0 s) := by
  unfold releasePilot
  repeat' first
    | with_reducible assumption
    | (intro (s : State) (h : Same w a s))
    | (intro _ (s : State) (h : Same w a s))
    | (intro (h : Same w a _))
    | (intro (s' : State); refine_lift have h : Same w a s' := ?_; ?_; clear_value s')
    | lift_lets
    | with_reducible apply sameO_next
    | with_reducible apply same_ite
    | with_reducible apply same_acceptState
    | with_reducible apply same_onLink
    | exact listed_trans hw rfl
    | with_reducible refine same_foldl ?_ (fun s x h => ?_)
    | (intro x'; clear_value x')
    | intro _
    | dsimp only [s']
    | split

theorem same_execWarrenActivationComplete  (hw : listed [.str, .lane, .met, .bil, .pwr, .flt, .owl, .vlk, .glk, .eth, .tag, .epd, .key, .upd, .sys, .mgt, .log, .hsi, .can, .sram, .freeCtr, .result] w = true) (h : Same w a s) :
    SameO w a (execWarrenActivationComplete s) := by
  unfold execWarrenActivationComplete
  repeat' first
    | with_reducible assumption
    | (intro (s : State) (h : Same w a s))
    | (intro _ (s : State) (h : Same w a s))
    | (intro (h : Same w a _))
    | (intro (s' : State); refine_lift have h : Same w a s' := ?_; ?_; clear_value s')
    | lift_lets
    | with_reducible apply sameO_next
    | with_reducible apply same_ite
    | with_reducible apply sameO_ite
    | with_reducible apply same_onStr
    | with_reducible apply same_activateCopy
    | with_reducible apply same_postSts
    | with_reducible apply same_logEv
    | with_reducible apply same_slacCheck
    | with_reducible apply same_releaseHeld
    | with_reducible apply same_releasePilot
    | with_reducible apply same_returnIfDue
    | exact listed_trans hw rfl
    | with_reducible refine same_foldl ?_ (fun s x h => ?_)
    | (intro x'; clear_value x')
    | intro _
    | dsimp only [s']
    | split

theorem same_execIntervalClose (a0 : ℕ) (a1 : IntervalInput) (hw : listed [.lane, .met, .bil, .owl, .vlk, .sys, .log, .freeCtr] w = true) (h : Same w a s) :
    SameO w a (execIntervalClose a0 a1 s) := by
  unfold execIntervalClose
  repeat' first
    | with_reducible assumption
    | (intro (s : State) (h : Same w a s))
    | (intro _ (s : State) (h : Same w a s))
    | (intro (h : Same w a _))
    | (intro (s' : State); refine_lift have h : Same w a s' := ?_; ?_; clear_value s')
    | lift_lets
    | with_reducible apply sameO_next
    | with_reducible apply same_ite
    | with_reducible apply sameO_ite
    | with_reducible apply same_afterCapture
    | with_reducible apply same_closeInterval
    | exact listed_trans hw rfl
    | with_reducible refine same_foldl ?_ (fun s x h => ?_)
    | (intro x'; clear_value x')
    | intro _
    | dsimp only [s']
    | split

end Sys2Proof.Machine
end

