-- ==== Sys2Proof/Laws/FrameSupply.lean ====
section
/-! SUPPORT. Which parts of the state the operations of Supply.lean write. -/

set_option linter.unusedVariables false
set_option linter.unreachableTactic false
set_option linter.unusedTactic false

namespace Sys2Proof.Machine

variable {w : List Part} {a s : State}

theorem same_wakeBoot  (hw : listed [.sys] w = true) (h : Same w a s) :
    Same w a (wakeBoot s) := by
  unfold wakeBoot
  repeat' first
    | with_reducible assumption
    | (intro (s : State) (h : Same w a s))
    | (intro _ (s : State) (h : Same w a s))
    | (intro (h : Same w a _))
    | (intro (s' : State); refine_lift have h : Same w a s' := ?_; ?_; clear_value s')
    | lift_lets
    | with_reducible apply sameO_next
    | with_reducible apply same_ite
    | (with_reducible refine same_onSys ?_ ?_ ?_
       rotate_left
       rotate_left
       · intro _; first | exact ⟨rfl, rfl⟩ | (constructor <;> split <;> rfl))
    | exact listed_trans hw rfl
    | with_reducible refine same_foldl ?_ (fun s x h => ?_)
    | (intro x'; clear_value x')
    | intro _
    | dsimp only [s']
    | split

theorem same_execSupplyGood (a0 : Option (ℕ × ℕ)) (hw : listed [.sys] w = true) (h : Same w a s) :
    SameO w a (execSupplyGood a0 s) := by
  unfold execSupplyGood
  repeat' first
    | with_reducible assumption
    | (intro (s : State) (h : Same w a s))
    | (intro _ (s : State) (h : Same w a s))
    | (intro (h : Same w a _))
    | (intro (s' : State); refine_lift have h : Same w a s' := ?_; ?_; clear_value s')
    | lift_lets
    | with_reducible apply sameO_next
    | with_reducible apply same_ite
    | with_reducible apply sameO_ite
    | (with_reducible refine same_onSys ?_ ?_ ?_
       rotate_left
       rotate_left
       · intro _; first | exact ⟨rfl, rfl⟩ | (constructor <;> split <;> rfl))
    | with_reducible apply same_wakeBoot
    | exact listed_trans hw rfl
    | with_reducible refine same_foldl ?_ (fun s x h => ?_)
    | (intro x'; clear_value x')
    | intro _
    | dsimp only [s']
    | split

theorem same_stepDone (a0 : ℕ) (hw : listed [.sys] w = true) (h : Same w a s) :
    Same w a (stepDone a0 s) := by
  unfold stepDone
  repeat' first
    | with_reducible assumption
    | (intro (s : State) (h : Same w a s))
    | (intro _ (s : State) (h : Same w a s))
    | (intro (h : Same w a _))
    | (intro (s' : State); refine_lift have h : Same w a s' := ?_; ?_; clear_value s')
    | lift_lets
    | with_reducible apply sameO_next
    | with_reducible apply same_ite
    | (with_reducible refine same_onSys ?_ ?_ ?_
       rotate_left
       rotate_left
       · intro _; first | exact ⟨rfl, rfl⟩ | (constructor <;> split <;> rfl))
    | exact listed_trans hw rfl
    | with_reducible refine same_foldl ?_ (fun s x h => ?_)
    | (intro x'; clear_value x')
    | intro _
    | dsimp only [s']
    | split

theorem same_holdupSafe  (hw : listed [.pwr, .owl, .vlk, .sys, .log] w = true) (h : Same w a s) :
    Same w a (holdupSafe s) := by
  unfold holdupSafe
  repeat' first
    | with_reducible assumption
    | (intro (s : State) (h : Same w a s))
    | (intro _ (s : State) (h : Same w a s))
    | (intro (h : Same w a _))
    | (intro (s' : State); refine_lift have h : Same w a s' := ?_; ?_; clear_value s')
    | lift_lets
    | with_reducible apply sameO_next
    | with_reducible apply same_ite
    | with_reducible apply same_onOwl
    | with_reducible apply same_onPwr
    | with_reducible apply same_onLinks
    | with_reducible apply same_stepDone
    | with_reducible apply same_logEv
    | with_reducible apply same_refreshWithhold
    | exact listed_trans hw rfl
    | with_reducible refine same_foldl ?_ (fun s x h => ?_)
    | (intro x'; clear_value x')
    | intro _
    | dsimp only [s']
    | split

theorem same_holdupPowerOff  (hw : listed [.vlk, .glk, .eth, .tag, .mgt, .can, .sram] w = true) (h : Same w a s) :
    Same w a (holdupPowerOff s) := by
  unfold holdupPowerOff
  repeat' first
    | with_reducible assumption
    | (intro (s : State) (h : Same w a s))
    | (intro _ (s : State) (h : Same w a s))
    | (intro (h : Same w a _))
    | (intro (s' : State); refine_lift have h : Same w a s' := ?_; ?_; clear_value s')
    | lift_lets
    | with_reducible apply sameO_next
    | with_reducible apply same_ite
    | with_reducible apply same_rxFlush
    | with_reducible apply same_txFlush
    | with_reducible apply same_onGlk
    | with_reducible apply same_onTag
    | with_reducible apply same_onEth
    | with_reducible apply same_startCluster
    | with_reducible apply same_onCans
    | with_reducible apply same_slacOff
    | exact listed_trans hw rfl
    | (refine listed_mem hw ?_; simp; done)
    | (cases x <;> exact listed_trans hw rfl)
    | with_reducible refine same_foldl ?_ (fun s x h => ?_)
    | (intro x'; clear_value x')
    | intro _
    | dsimp only [s']
    | split

theorem same_abandonSnapshots  (hw : listed [.met, .log] w = true) (h : Same w a s) :
    Same w a (abandonSnapshots s) := by
  unfold abandonSnapshots
  repeat' first
    | with_reducible assumption
    | (intro (s : State) (h : Same w a s))
    | (intro _ (s : State) (h : Same w a s))
    | (intro (h : Same w a _))
    | (intro (s' : State); refine_lift have h : Same w a s' := ?_; ?_; clear_value s')
    | lift_lets
    | with_reducible apply sameO_next
    | with_reducible apply same_ite
    | with_reducible apply same_onCounters
    | with_reducible apply same_onMet
    | with_reducible apply same_logEv
    | exact listed_trans hw rfl
    | with_reducible refine same_foldl ?_ (fun s x h => ?_)
    | (intro x'; clear_value x')
    | intro _
    | dsimp only [s']
    | split

theorem same_holdupSave (a0 : List (ℕ × IntervalInput)) (hw : listed [.lane, .met, .bil, .sys, .log, .freeCtr] w = true) (h : Same w a s) :
    Same w a (holdupSave a0 s) := by
  unfold holdupSave
  repeat' first
    | with_reducible assumption
    | (intro (s : State) (h : Same w a s))
    | (intro _ (s : State) (h : Same w a s))
    | (intro (h : Same w a _))
    | (intro (s' : State); refine_lift have h : Same w a s' := ?_; ?_; clear_value s')
    | lift_lets
    | with_reducible apply sameO_next
    | with_reducible apply same_ite
    | with_reducible apply same_closeSteps
    | with_reducible apply same_onMet
    | with_reducible apply same_saveAtOnce
    | with_reducible apply same_abandonSnapshots
    | with_reducible apply same_stepDone
    | with_reducible apply same_journalPending
    | exact listed_trans hw rfl
    | with_reducible refine same_foldl ?_ (fun s x h => ?_)
    | (intro x'; clear_value x')
    | intro _
    | dsimp only [s']
    | split

theorem same_holdupLog  (hw : listed [.sys, .log] w = true) (h : Same w a s) :
    Same w a (holdupLog s) := by
  unfold holdupLog
  repeat' first
    | with_reducible assumption
    | (intro (s : State) (h : Same w a s))
    | (intro _ (s : State) (h : Same w a s))
    | (intro (h : Same w a _))
    | (intro (s' : State); refine_lift have h : Same w a s' := ?_; ?_; clear_value s')
    | lift_lets
    | with_reducible apply sameO_next
    | with_reducible apply same_ite
    | with_reducible apply same_retain
    | with_reducible apply same_stepDone
    | (with_reducible refine same_onMgt_log ?_ ?_ ?_
       rotate_left
       rotate_left
       · intro _; rfl)
    | exact listed_trans hw rfl
    | with_reducible refine same_foldl ?_ (fun s x h => ?_)
    | (intro x'; clear_value x')
    | intro _
    | dsimp only [s']
    | split

theorem same_logHoldup (a0 : ℕ) (hw : listed [.log] w = true) (h : Same w a s) :
    Same w a (logHoldup a0 s) := by
  unfold logHoldup
  repeat' first
    | with_reducible assumption
    | (intro (s : State) (h : Same w a s))
    | (intro _ (s : State) (h : Same w a s))
    | (intro (h : Same w a _))
    | (intro (s' : State); refine_lift have h : Same w a s' := ?_; ?_; clear_value s')
    | lift_lets
    | with_reducible apply sameO_next
    | with_reducible apply same_ite
    | with_reducible apply same_logEv
    | exact listed_trans hw rfl
    | with_reducible refine same_foldl ?_ (fun s x h => ?_)
    | (intro x'; clear_value x')
    | intro _
    | dsimp only [s']
    | split

theorem same_dropSleep  (hw : listed [.sys, .hsi, .result] w = true) (h : Same w a s) :
    Same w a (dropSleep s) := by
  unfold dropSleep
  repeat' first
    | with_reducible assumption
    | (intro (s : State) (h : Same w a s))
    | (intro _ (s : State) (h : Same w a s))
    | (intro (h : Same w a _))
    | (intro (s' : State); refine_lift have h : Same w a s' := ?_; ?_; clear_value s')
    | lift_lets
    | with_reducible apply sameO_next
    | with_reducible apply same_ite
    | (with_reducible refine same_onSys ?_ ?_ ?_
       rotate_left
       rotate_left
       · intro _; first | exact ⟨rfl, rfl⟩ | (constructor <;> split <;> rfl))
    | with_reducible apply same_postSts
    | exact listed_trans hw rfl
    | with_reducible refine same_foldl ?_ (fun s x h => ?_)
    | (intro x'; clear_value x')
    | intro _
    | dsimp only [s']
    | split

theorem same_holdup (a0 : Bool) (a1 : ℕ) (a2 : List (ℕ × IntervalInput)) (hw : listed [.lane, .met, .bil, .pwr, .owl, .vlk, .glk, .eth, .tag, .sys, .mgt, .log, .hsi, .can, .sram, .freeCtr, .result] w = true) (h : Same w a s) :
    Same w a (holdup a0 a1 a2 s) := by
  unfold holdup
  repeat' first
    | with_reducible assumption
    | (intro (s : State) (h : Same w a s))
    | (intro _ (s : State) (h : Same w a s))
    | (intro (h : Same w a _))
    | (intro (s' : State); refine_lift have h : Same w a s' := ?_; ?_; clear_value s')
    | lift_lets
    | with_reducible apply sameO_next
    | with_reducible apply same_ite
    | (with_reducible refine same_onSys ?_ ?_ ?_
       rotate_left
       rotate_left
       · intro _; first | exact ⟨rfl, rfl⟩ | (constructor <;> split <;> rfl))
    | with_reducible apply same_holdupSafe
    | with_reducible apply same_logHoldup
    | with_reducible apply same_dropSleep
    | with_reducible apply same_onLaneBlk
    | with_reducible apply same_holdupPowerOff
    | with_reducible apply same_holdupSave
    | with_reducible apply same_stepDone
    | with_reducible apply same_holdupLog
    | exact listed_trans hw rfl
    | with_reducible refine same_foldl ?_ (fun s x h => ?_)
    | (intro x'; clear_value x')
    | intro _
    | dsimp only [s']
    | split

theorem same_execPowerFailWarning (a0 : Bool) (a1 : ℕ) (a2 : List (ℕ × IntervalInput)) (hw : listed [.lane, .met, .bil, .pwr, .owl, .vlk, .glk, .eth, .tag, .sys, .mgt, .log, .hsi, .can, .sram, .freeCtr, .result] w = true) (h : Same w a s) :
    SameO w a (execPowerFailWarning a0 a1 a2 s) := by
  unfold execPowerFailWarning
  repeat' first
    | with_reducible assumption
    | (intro (s : State) (h : Same w a s))
    | (intro _ (s : State) (h : Same w a s))
    | (intro (h : Same w a _))
    | (intro (s' : State); refine_lift have h : Same w a s' := ?_; ?_; clear_value s')
    | lift_lets
    | with_reducible apply sameO_next
    | with_reducible apply same_ite
    | with_reducible apply sameO_ite
    | with_reducible apply same_holdup
    | exact listed_trans hw rfl
    | with_reducible refine same_foldl ?_ (fun s x h => ?_)
    | (intro x'; clear_value x')
    | intro _
    | dsimp only [s']
    | split

theorem same_execHoldupComplete (a0 : ℕ) (hw : listed [.met, .pwr, .owl, .vlk, .glk, .eth, .tim, .tag, .epd, .key, .sys, .mgt, .log, .hsi, .can, .sram] w = true) (h : Same w a s) :
    SameO w a (execHoldupComplete a0 s) := by
  unfold execHoldupComplete
  repeat' first
    | with_reducible assumption
    | (intro (s : State) (h : Same w a s))
    | (intro _ (s : State) (h : Same w a s))
    | (intro (h : Same w a _))
    | (intro (s' : State); refine_lift have h : Same w a s' := ?_; ?_; clear_value s')
    | lift_lets
    | with_reducible apply sameO_next
    | with_reducible apply same_ite
    | with_reducible apply sameO_ite
    | (with_reducible refine same_onSys ?_ ?_ ?_
       rotate_left
       rotate_left
       · intro _; first | exact ⟨rfl, rfl⟩ | (constructor <;> split <;> rfl))
    | with_reducible apply same_glkGate
    | with_reducible apply same_powerOff
    | with_reducible apply same_setMode
    | with_reducible apply same_saveRtc
    | with_reducible apply same_onOwl
    | with_reducible apply same_outputsSafe
    | with_reducible apply same_onMet
    | with_reducible apply same_wakeBoot
    | exact listed_trans hw rfl
    | with_reducible refine same_foldl ?_ (fun s x h => ?_)
    | (intro x'; clear_value x')
    | intro _
    | dsimp only [s']
    | split

theorem same_execRstNAssert (a0 : Bool) (hw : listed [.met, .pwr, .owl, .vlk, .tim, .sys, .hsi] w = true) (h : Same w a s) :
    SameO w a (execRstNAssert a0 s) := by
  unfold execRstNAssert
  repeat' first
    | with_reducible assumption
    | (intro (s : State) (h : Same w a s))
    | (intro _ (s : State) (h : Same w a s))
    | (intro (h : Same w a _))
    | (intro (s' : State); refine_lift have h : Same w a s' := ?_; ?_; clear_value s')
    | lift_lets
    | with_reducible apply sameO_next
    | with_reducible apply same_ite
    | with_reducible apply sameO_ite
    | with_reducible apply same_assertReset
    | (with_reducible refine same_onSys ?_ ?_ ?_
       rotate_left
       rotate_left
       · intro _; first | exact ⟨rfl, rfl⟩ | (constructor <;> split <;> rfl))
    | exact listed_trans hw rfl
    | with_reducible refine same_foldl ?_ (fun s x h => ?_)
    | (intro x'; clear_value x')
    | intro _
    | dsimp only [s']
    | split

theorem same_execBrownout (a0 : ℕ) (hw : listed [.met, .pwr, .owl, .vlk, .tim, .sys, .hsi] w = true) (h : Same w a s) :
    SameO w a (execBrownout a0 s) := by
  unfold execBrownout
  repeat' first
    | with_reducible assumption
    | (intro (s : State) (h : Same w a s))
    | (intro _ (s : State) (h : Same w a s))
    | (intro (h : Same w a _))
    | (intro (s' : State); refine_lift have h : Same w a s' := ?_; ?_; clear_value s')
    | lift_lets
    | with_reducible apply sameO_next
    | with_reducible apply same_ite
    | with_reducible apply sameO_ite
    | (with_reducible refine same_onSys ?_ ?_ ?_
       rotate_left
       rotate_left
       · intro _; first | exact ⟨rfl, rfl⟩ | (constructor <;> split <;> rfl))
    | with_reducible apply same_assertReset
    | exact listed_trans hw rfl
    | with_reducible refine same_foldl ?_ (fun s x h => ?_)
    | (intro x'; clear_value x')
    | intro _
    | dsimp only [s']
    | split

theorem same_execVbatPor  (hw : listed [.met, .pwr, .owl, .vlk, .tim, .key, .sys, .hsi] w = true) (h : Same w a s) :
    SameO w a (execVbatPor s) := by
  unfold execVbatPor
  repeat' first
    | with_reducible assumption
    | (intro (s : State) (h : Same w a s))
    | (intro _ (s : State) (h : Same w a s))
    | (intro (h : Same w a _))
    | (intro (s' : State); refine_lift have h : Same w a s' := ?_; ?_; clear_value s')
    | lift_lets
    | with_reducible apply sameO_next
    | with_reducible apply same_ite
    | with_reducible apply sameO_ite
    | with_reducible apply same_assertReset
    | (with_reducible refine same_onSys ?_ ?_ ?_
       rotate_left
       rotate_left
       · intro _; first | exact ⟨rfl, rfl⟩ | (constructor <;> split <;> rfl))
    | with_reducible apply same_onKey
    | with_reducible apply same_onTim
    | exact listed_trans hw rfl
    | with_reducible refine same_foldl ?_ (fun s x h => ?_)
    | (intro x'; clear_value x')
    | intro _
    | dsimp only [s']
    | split

theorem same_rstreqWrite (a0 : ℕ) (hw : listed [.sys] w = true) (h : Same w a s) :
    Same w a (rstreqWrite a0 s) := by
  unfold rstreqWrite
  repeat' first
    | with_reducible assumption
    | (intro (s : State) (h : Same w a s))
    | (intro _ (s : State) (h : Same w a s))
    | (intro (h : Same w a _))
    | (intro (s' : State); refine_lift have h : Same w a s' := ?_; ?_; clear_value s')
    | lift_lets
    | with_reducible apply sameO_next
    | with_reducible apply same_ite
    | with_reducible apply same_requestReset
    | exact listed_trans hw rfl
    | with_reducible refine same_foldl ?_ (fun s x h => ?_)
    | (intro x'; clear_value x')
    | intro _
    | dsimp only [s']
    | split

theorem same_execSysRstreqWrite (a0 : Word) (hw : listed [.sys] w = true) (h : Same w a s) :
    SameO w a (execSysRstreqWrite a0 s) := by
  unfold execSysRstreqWrite
  repeat' first
    | with_reducible assumption
    | (intro (s : State) (h : Same w a s))
    | (intro _ (s : State) (h : Same w a s))
    | (intro (h : Same w a _))
    | (intro (s' : State); refine_lift have h : Same w a s' := ?_; ?_; clear_value s')
    | lift_lets
    | with_reducible apply sameO_next
    | with_reducible apply same_ite
    | with_reducible apply sameO_ite
    | with_reducible apply same_rstreqWrite
    | exact listed_trans hw rfl
    | with_reducible refine same_foldl ?_ (fun s x h => ?_)
    | (intro x'; clear_value x')
    | intro _
    | dsimp only [s']
    | split

theorem same_execRequestedReset  (hw : listed [.met, .pwr, .owl, .vlk, .tim, .sys, .hsi] w = true) (h : Same w a s) :
    SameO w a (execRequestedReset s) := by
  unfold execRequestedReset
  repeat' first
    | with_reducible assumption
    | (intro (s : State) (h : Same w a s))
    | (intro _ (s : State) (h : Same w a s))
    | (intro (h : Same w a _))
    | (intro (s' : State); refine_lift have h : Same w a s' := ?_; ?_; clear_value s')
    | lift_lets
    | with_reducible apply sameO_next
    | with_reducible apply same_ite
    | with_reducible apply sameO_ite
    | with_reducible apply same_assertReset
    | exact listed_trans hw rfl
    | with_reducible refine same_foldl ?_ (fun s x h => ?_)
    | (intro x'; clear_value x')
    | intro _
    | dsimp only [s']
    | split

end Sys2Proof.Machine
end

