-- ==== Sys2Proof/Laws/FrameBoot.lean ====
section
/-! SUPPORT. Which parts of the state the operations of Boot.lean write. -/

set_option linter.unusedVariables false
set_option linter.unreachableTactic false
set_option linter.unusedTactic false

namespace Sys2Proof.Machine

variable {w : List Part} {a s : State}

theorem same_wipe (a0 : Bool) (a1 : ℕ) (a2 : BootInput) (hw : listed [.str, .lane, .met, .bil, .pwr, .flt, .owl, .vlk, .glk, .eth, .tim, .tag, .epd, .key, .upd, .sys, .mgt, .log, .hsi, .can, .sram] w = true) (h : Same w a s) :
    Same w a (wipe a0 a1 a2 s) := by
  refine ⟨fun q hq => ?_⟩
  have h1 := h.parts q hq
  cases q
  case ticks | freeCtr | result | rdata => exact h1
  all_goals
    exfalso
    simp only [listed, List.all_cons, List.all_nil, Bool.and_eq_true] at hw
    simp_all

theorem same_decideLc  (hw : listed [.owl, .tag, .key, .upd, .log, .freeCtr] w = true) (h : Same w a s) :
    Same w a (decideLc s) := by
  unfold decideLc
  repeat' first
    | with_reducible assumption
    | (intro (s : State) (h : Same w a s))
    | (intro _ (s : State) (h : Same w a s))
    | (intro (h : Same w a _))
    | (intro (s' : State); refine_lift have h : Same w a s' := ?_; ?_; clear_value s')
    | lift_lets
    | with_reducible apply sameO_next
    | with_reducible apply same_ite
    | with_reducible apply same_onKey
    | with_reducible apply same_logLc
    | with_reducible apply same_wipeClass
    | with_reducible apply same_writeLc
    | exact listed_trans hw rfl
    | with_reducible refine same_foldl ?_ (fun s x h => ?_)
    | (intro x'; clear_value x')
    | intro _
    | dsimp only [s']
    | split

theorem same_trialStart (a0 : Bool) (a1 : Bool) (hw : listed [.vlk, .glk, .tag, .upd, .sys, .mgt, .log, .sram, .freeCtr] w = true) (h : Same w a s) :
    Same w a (trialStart a0 a1 s) := by
  unfold trialStart
  repeat' first
    | with_reducible assumption
    | (intro (s : State) (h : Same w a s))
    | (intro _ (s : State) (h : Same w a s))
    | (intro (h : Same w a _))
    | (intro (s' : State); refine_lift have h : Same w a s' := ?_; ?_; clear_value s')
    | lift_lets
    | with_reducible apply sameO_next
    | with_reducible apply same_ite
    | with_reducible apply same_failTrial
    | with_reducible apply same_countStart
    | exact listed_trans hw rfl
    | with_reducible refine same_foldl ?_ (fun s x h => ?_)
    | (intro x'; clear_value x')
    | intro _
    | dsimp only [s']
    | split

theorem same_adoptPart (a0 : ℕ) (hw : listed [.tag, .upd] w = true) (h : Same w a s) :
    Same w a (adoptPart a0 s) := by
  unfold adoptPart
  repeat' first
    | with_reducible assumption
    | (intro (s : State) (h : Same w a s))
    | (intro _ (s : State) (h : Same w a s))
    | (intro (h : Same w a _))
    | (intro (s' : State); refine_lift have h : Same w a s' := ?_; ?_; clear_value s')
    | lift_lets
    | with_reducible apply sameO_next
    | with_reducible apply same_ite
    | with_reducible apply same_markBank
    | with_reducible apply same_onKind
    | with_reducible apply same_takeBank
    | exact listed_trans hw rfl
    | with_reducible refine same_foldl ?_ (fun s x h => ?_)
    | (intro x'; clear_value x')
    | intro _
    | dsimp only [s']
    | split

theorem same_rollbackManifest (a0 : ActRec) (hw : listed [.str, .met, .tag, .upd, .log] w = true) (h : Same w a s) :
    Same w a (rollbackManifest a0 s) := by
  unfold rollbackManifest
  repeat' first
    | with_reducible assumption
    | (intro (s : State) (h : Same w a s))
    | (intro _ (s : State) (h : Same w a s))
    | (intro (h : Same w a _))
    | (intro (s' : State); refine_lift have h : Same w a s' := ?_; ?_; clear_value s')
    | lift_lets
    | with_reducible apply sameO_next
    | with_reducible apply same_ite
    | with_reducible apply same_rollbackPart
    | with_reducible apply same_recordSeal
    | with_reducible apply same_onStr
    | exact listed_trans hw rfl
    | with_reducible refine same_foldl ?_ (fun s x h => ?_)
    | (intro x'; clear_value x')
    | intro _
    | dsimp only [s']
    | split

theorem same_resolveRecord  (hw : listed [.str, .met, .tag, .upd, .log, .freeCtr] w = true) (h : Same w a s) :
    Same w a ((resolveRecord s)).1 := by
  unfold resolveRecord
  repeat' first
    | with_reducible assumption
    | (intro (s : State) (h : Same w a s))
    | (intro _ (s : State) (h : Same w a s))
    | (intro (h : Same w a _))
    | (intro (s' : State); refine_lift have h : Same w a s' := ?_; ?_; clear_value s')
    | lift_lets
    | with_reducible apply sameO_next
    | with_reducible apply same_ite
    | with_reducible apply same_onUpd
    | with_reducible apply same_rollbackManifest
    | with_reducible apply same_adoptPart
    | with_reducible apply same_bump
    | exact listed_trans hw rfl
    | with_reducible refine same_foldl ?_ (fun s x h => ?_)
    | (intro x'; clear_value x')
    | intro _
    | dsimp only [s']
    | split

theorem same_settleTrials (a0 : Bool) (hw : listed [.str] w = true) (h : Same w a s) :
    Same w a (settleTrials a0 s) := by
  unfold settleTrials
  repeat' first
    | with_reducible assumption
    | (intro (s : State) (h : Same w a s))
    | (intro _ (s : State) (h : Same w a s))
    | (intro (h : Same w a _))
    | (intro (s' : State); refine_lift have h : Same w a s' := ?_; ?_; clear_value s')
    | lift_lets
    | with_reducible apply sameO_next
    | with_reducible apply same_ite
    | with_reducible apply same_onStr
    | exact listed_trans hw rfl
    | with_reducible refine same_foldl ?_ (fun s x h => ?_)
    | (intro x'; clear_value x')
    | intro _
    | dsimp only [s']
    | split

theorem same_examine (a0 : List ℕ) (hw : listed [.str, .log] w = true) (h : Same w a s) :
    Same w a ((examine a0 s)).1 := by
  induction a0 generalizing  s with
  | nil => exact h
  | cons x l ih =>
  simp only [examine]
  repeat' first
    | with_reducible assumption
    | (intro (s : State) (h : Same w a s))
    | (intro _ (s : State) (h : Same w a s))
    | (intro (h : Same w a _))
    | (intro (s' : State); refine_lift have h : Same w a s' := ?_; ?_; clear_value s')
    | lift_lets
    | with_reducible apply sameO_next
    | with_reducible apply same_ite
    | with_reducible apply same_onStr
    | with_reducible apply same_logReject
    | with_reducible apply ih
    | exact listed_trans hw rfl
    | with_reducible refine same_foldl ?_ (fun s x h => ?_)
    | (intro x'; clear_value x')
    | intro _
    | dsimp only [s']
    | split

theorem same_limpIgnored  (hw : listed [.log] w = true) (h : Same w a s) :
    Same w a (limpIgnored s) := by
  unfold limpIgnored
  repeat' first
    | with_reducible assumption
    | (intro (s : State) (h : Same w a s))
    | (intro _ (s : State) (h : Same w a s))
    | (intro (h : Same w a _))
    | (intro (s' : State); refine_lift have h : Same w a s' := ?_; ?_; clear_value s')
    | lift_lets
    | with_reducible apply sameO_next
    | with_reducible apply same_ite
    | with_reducible apply same_logEv
    | exact listed_trans hw rfl
    | with_reducible refine same_foldl ?_ (fun s x h => ?_)
    | (intro x'; clear_value x')
    | intro _
    | dsimp only [s']
    | split

theorem same_bootStructure (a0 : Bool) (hw : listed [.str, .lane, .met, .bil, .pwr, .flt, .owl, .vlk, .glk, .eth, .tag, .epd, .key, .log, .can, .sram, .freeCtr] w = true) (h : Same w a s) :
    Same w a (bootStructure a0 s) := by
  unfold bootStructure
  dsimp only
  have hx := same_examine (bootOrder (settleTrials a0 s)) (listed_trans hw rfl) (same_settleTrials a0 (listed_trans hw rfl) h)
  split <;> rename_i heq <;> rw [heq] at hx
  · exact same_limpIgnored (listed_trans hw rfl) (same_judgeSwaps _ (listed_trans hw rfl)
      (same_onStr (listed_trans hw rfl) (same_installStruct _ _ (listed_trans hw rfl) hx)))
  · exact same_logEv _ _ _ _ _ (listed_trans hw rfl) (same_onStr (listed_trans hw rfl) hx)

theorem same_bootEvents (a0 : SysBlock) (a1 : Option ℕ) (a2 : Bool) (hw : listed [.met, .log] w = true) (h : Same w a s) :
    Same w a (bootEvents a0 a1 a2 s) := by
  unfold bootEvents
  repeat' first
    | with_reducible assumption
    | (intro (s : State) (h : Same w a s))
    | (intro _ (s : State) (h : Same w a s))
    | (intro (h : Same w a _))
    | (intro (s' : State); refine_lift have h : Same w a s' := ?_; ?_; clear_value s')
    | lift_lets
    | with_reducible apply sameO_next
    | with_reducible apply same_ite
    | with_reducible apply same_legalEv
    | with_reducible apply same_logEv
    | exact listed_trans hw rfl
    | with_reducible refine same_foldl ?_ (fun s x h => ?_)
    | (intro x'; clear_value x')
    | intro _
    | dsimp only [s']
    | split

theorem same_damageStore (a0 : List ℕ) (hw : listed [.met, .bil] w = true) (h : Same w a s) :
    Same w a (damageStore a0 s) := by
  unfold damageStore
  repeat' first
    | with_reducible assumption
    | (intro (s : State) (h : Same w a s))
    | (intro _ (s : State) (h : Same w a s))
    | (intro (h : Same w a _))
    | (intro (s' : State); refine_lift have h : Same w a s' := ?_; ?_; clear_value s')
    | lift_lets
    | with_reducible apply sameO_next
    | with_reducible apply same_ite
    | with_reducible apply same_onMet
    | with_reducible apply same_onBil
    | exact listed_trans hw rfl
    | with_reducible refine same_foldl ?_ (fun s x h => ?_)
    | (intro x'; clear_value x')
    | intro _
    | dsimp only [s']
    | split

theorem same_owlLoad (a0 : ℕ) (hw : listed [.met, .pwr, .owl, .vlk, .sys, .mgt, .log] w = true) (h : Same w a s) :
    Same w a (owlLoad a0 s) := by
  unfold owlLoad
  repeat' first
    | with_reducible assumption
    | (intro (s : State) (h : Same w a s))
    | (intro _ (s : State) (h : Same w a s))
    | (intro (h : Same w a _))
    | (intro (s' : State); refine_lift have h : Same w a s' := ?_; ?_; clear_value s')
    | lift_lets
    | with_reducible apply sameO_next
    | with_reducible apply same_ite
    | with_reducible apply same_cfgDiag
    | with_reducible apply same_cfgCheck
    | exact listed_trans hw rfl
    | with_reducible refine same_foldl ?_ (fun s x h => ?_)
    | (intro x'; clear_value x')
    | intro _
    | dsimp only [s']
    | split

theorem same_bootCores (a0 : ResetHold) (a1 : BootInput) (hw : listed [.str, .lane, .met, .bil, .pwr, .flt, .owl, .vlk, .glk, .eth, .tim, .tag, .epd, .key, .upd, .sys, .mgt, .log, .hsi, .can, .sram, .freeCtr] w = true) (h : Same w a s) :
    Same w a (bootCores a0 a1 s) := by
  unfold bootCores
  repeat' first
    | with_reducible assumption
    | (intro (s : State) (h : Same w a s))
    | (intro _ (s : State) (h : Same w a s))
    | (intro (h : Same w a _))
    | (intro (s' : State); refine_lift have h : Same w a s' := ?_; ?_; clear_value s')
    | lift_lets
    | with_reducible apply sameO_next
    | with_reducible apply same_ite
    | with_reducible apply same_wipe
    | with_reducible apply same_damageStore
    | with_reducible apply same_closeTransfer
    | with_reducible apply same_logOwlState
    | with_reducible apply same_decideLc
    | with_reducible apply same_logRng
    | with_reducible apply same_onKey
    | with_reducible apply same_actLatched
    | with_reducible apply same_deriveSlots
    | with_reducible apply same_resolveRecord
    | with_reducible apply same_trialStart
    | with_reducible apply same_bootStructure
    | with_reducible apply same_onOwl
    | with_reducible apply same_owlLoad
    | with_reducible apply same_rebuildReplay
    | with_reducible apply same_metStart
    | with_reducible apply same_capture
    | exact listed_trans hw rfl
    | with_reducible refine same_foldl ?_ (fun s x h => ?_)
    | (intro x'; clear_value x')
    | intro _
    | dsimp only [s']
    | split

theorem same_bootMode  (hw : listed [.sys, .mgt, .log] w = true) (h : Same w a s) :
    Same w a (bootMode s) := by
  unfold bootMode
  repeat' first
    | with_reducible assumption
    | (intro (s : State) (h : Same w a s))
    | (intro _ (s : State) (h : Same w a s))
    | (intro (h : Same w a _))
    | (intro (s' : State); refine_lift have h : Same w a s' := ?_; ?_; clear_value s')
    | lift_lets
    | with_reducible apply sameO_next
    | with_reducible apply same_ite
    | with_reducible apply same_evalMode
    | with_reducible apply same_setMode
    | exact listed_trans hw rfl
    | with_reducible refine same_foldl ?_ (fun s x h => ?_)
    | (intro x'; clear_value x')
    | intro _
    | dsimp only [s']
    | split

theorem same_bootServices (a0 : SysBlock) (a1 : ResetHold) (a2 : Option ℕ) (a3 : BootInput) (hw : listed [.met, .bil, .owl, .vlk, .glk, .tag, .key, .upd, .sys, .mgt, .log, .hsi, .sram, .freeCtr] w = true) (h : Same w a s) :
    Same w a (bootServices a0 a1 a2 a3 s) := by
  unfold bootServices
  repeat' first
    | with_reducible assumption
    | (intro (s : State) (h : Same w a s))
    | (intro _ (s : State) (h : Same w a s))
    | (intro (h : Same w a _))
    | (intro (s' : State); refine_lift have h : Same w a s' := ?_; ?_; clear_value s')
    | lift_lets
    | with_reducible apply sameO_next
    | with_reducible apply same_ite
    | (with_reducible refine same_onSys ?_ ?_ ?_
       rotate_left
       rotate_left
       · intro _; first | exact ⟨rfl, rfl⟩ | (constructor <;> split <;> rfl))
    | with_reducible apply same_onHsi
    | with_reducible apply same_bootEvents
    | with_reducible apply same_loadSlots
    | with_reducible apply same_drainRetention
    | with_reducible apply same_slotsChanged
    | with_reducible apply same_flushProfile
    | with_reducible apply same_bootMode
    | with_reducible apply same_returnIfDue
    | with_reducible apply same_failTrial
    | exact listed_trans hw rfl
    | with_reducible refine same_foldl ?_ (fun s x h => ?_)
    | (intro x'; clear_value x')
    | intro _
    | dsimp only [s']
    | split

theorem same_execBoot (a0 : BootInput) (hw : listed [.str, .lane, .met, .bil, .pwr, .flt, .owl, .vlk, .glk, .eth, .tim, .tag, .epd, .key, .upd, .sys, .mgt, .log, .hsi, .can, .sram, .freeCtr] w = true) (h : Same w a s) :
    SameO w a (execBoot a0 s) := by
  unfold execBoot
  repeat' first
    | with_reducible assumption
    | (intro (s : State) (h : Same w a s))
    | (intro _ (s : State) (h : Same w a s))
    | (intro (h : Same w a _))
    | (intro (s' : State); refine_lift have h : Same w a s' := ?_; ?_; clear_value s')
    | lift_lets
    | with_reducible apply sameO_next
    | with_reducible apply same_ite
    | with_reducible apply sameO_ite
    | with_reducible apply same_bootServices
    | with_reducible apply same_bootCores
    | exact listed_trans hw rfl
    | with_reducible refine same_foldl ?_ (fun s x h => ?_)
    | (intro x'; clear_value x')
    | intro _
    | dsimp only [s']
    | split

end Sys2Proof.Machine
end

