-- ==== Sys2Proof/Laws/FrameHost.lean ====
section
/-! SUPPORT. Which parts of the state the operations of Host.lean write. -/

set_option linter.unusedVariables false
set_option linter.unreachableTactic false
set_option linter.unusedTactic false

namespace Sys2Proof.Machine

variable {w : List Part} {a s : State}

theorem same_ringError (a0 : Side) (a1 : ℕ) (a2 : ℕ) (a3 : ℕ) (hw : listed [.log, .hsi] w = true) (h : Same w a s) :
    Same w a (ringError a0 a1 a2 a3 s) := by
  unfold ringError
  repeat' first
    | with_reducible assumption
    | (intro (s : State) (h : Same w a s))
    | (intro _ (s : State) (h : Same w a s))
    | (intro (h : Same w a _))
    | (intro (s' : State); refine_lift have h : Same w a s' := ?_; ?_; clear_value s')
    | lift_lets
    | with_reducible apply sameO_next
    | with_reducible apply same_ite
    | with_reducible apply same_onRing
    | with_reducible apply same_logEv
    | exact listed_trans hw rfl
    | with_reducible refine same_foldl ?_ (fun s x h => ?_)
    | (intro x'; clear_value x')
    | intro _
    | dsimp only [s']
    | split

theorem same_consumeDesc (a0 : Side) (hw : listed [.met, .bil, .vlk, .glk, .tag, .key, .sys, .mgt, .log, .hsi, .can, .sram, .result] w = true) (h : Same w a s) :
    Same w a (consumeDesc a0 s) := by
  unfold consumeDesc
  dsimp only
  repeat' first
    | with_reducible assumption
    | (intro (s : State) (h : Same w a s))
    | (intro _ (s : State) (h : Same w a s))
    | (intro (h : Same w a _))
    | (intro (s' : State); refine_lift have h : Same w a s' := ?_; ?_; clear_value s')
    | with_reducible apply sameO_next
    | with_reducible apply same_ite
    | with_reducible apply same_onRing
    | with_reducible apply same_ringError
    | with_reducible apply same_wakeBy
    | exact listed_trans hw rfl
    | with_reducible refine same_foldl ?_ (fun s x h => ?_)
    | (intro x'; clear_value x')
    | intro _
    | dsimp only [s']
    | split

theorem same_consumeDescs (a0 : ℕ) (a1 : Side) (hw : listed [.met, .bil, .vlk, .glk, .tag, .key, .sys, .mgt, .log, .hsi, .can, .sram, .result] w = true) (h : Same w a s) :
    Same w a (consumeDescs a0 a1 s) := by
  induction a0 generalizing  s with
  | zero => exact h
  | succ n ih =>
  simp only [consumeDescs]
  repeat' first
    | with_reducible assumption
    | (intro (s : State) (h : Same w a s))
    | (intro _ (s : State) (h : Same w a s))
    | (intro (h : Same w a _))
    | (intro (s' : State); refine_lift have h : Same w a s' := ?_; ?_; clear_value s')
    | lift_lets
    | with_reducible apply sameO_next
    | with_reducible apply same_ite
    | with_reducible apply same_consumeDesc
    | with_reducible apply ih
    | exact listed_trans hw rfl
    | with_reducible refine same_foldl ?_ (fun s x h => ?_)
    | (intro x'; clear_value x')
    | intro _
    | dsimp only [s']
    | split

theorem same_ctailWrite (a0 : Side) (a1 : ℕ) (hw : listed [.met, .bil, .vlk, .glk, .tag, .key, .sys, .mgt, .log, .hsi, .can, .sram, .result] w = true) (h : Same w a s) :
    Same w a (ctailWrite a0 a1 s) := by
  unfold ctailWrite
  repeat' first
    | with_reducible assumption
    | (intro (s : State) (h : Same w a s))
    | (intro _ (s : State) (h : Same w a s))
    | (intro (h : Same w a _))
    | (intro (s' : State); refine_lift have h : Same w a s' := ?_; ?_; clear_value s')
    | lift_lets
    | with_reducible apply sameO_next
    | with_reducible apply same_ite
    | with_reducible apply same_ringError
    | with_reducible apply same_onRing
    | with_reducible apply same_consumeDescs
    | exact listed_trans hw rfl
    | with_reducible refine same_foldl ?_ (fun s x h => ?_)
    | (intro x'; clear_value x')
    | intro _
    | dsimp only [s']
    | split

theorem same_execCtailWrite (a0 : Side) (a1 : Word) (hw : listed [.met, .bil, .vlk, .glk, .tag, .key, .sys, .mgt, .log, .hsi, .can, .sram, .result] w = true) (h : Same w a s) :
    SameO w a (execCtailWrite a0 a1 s) := by
  unfold execCtailWrite
  repeat' first
    | with_reducible assumption
    | (intro (s : State) (h : Same w a s))
    | (intro _ (s : State) (h : Same w a s))
    | (intro (h : Same w a _))
    | (intro (s' : State); refine_lift have h : Same w a s' := ?_; ?_; clear_value s')
    | lift_lets
    | with_reducible apply sameO_next
    | with_reducible apply same_ite
    | with_reducible apply sameO_ite
    | with_reducible apply same_ctailWrite
    | exact listed_trans hw rfl
    | with_reducible refine same_foldl ?_ (fun s x h => ?_)
    | (intro x'; clear_value x')
    | intro _
    | dsimp only [s']
    | split

theorem same_releaseWrite (a0 : Side) (a1 : ℕ) (hw : listed [.log, .hsi] w = true) (h : Same w a s) :
    Same w a (releaseWrite a0 a1 s) := by
  unfold releaseWrite
  repeat' first
    | with_reducible assumption
    | (intro (s : State) (h : Same w a s))
    | (intro _ (s : State) (h : Same w a s))
    | (intro (h : Same w a _))
    | (intro (s' : State); refine_lift have h : Same w a s' := ?_; ?_; clear_value s')
    | lift_lets
    | with_reducible apply sameO_next
    | with_reducible apply same_ite
    | with_reducible apply same_ringError
    | with_reducible apply same_onRing
    | exact listed_trans hw rfl
    | with_reducible refine same_foldl ?_ (fun s x h => ?_)
    | (intro x'; clear_value x')
    | intro _
    | dsimp only [s']
    | split

theorem same_execHsiReleaseWrite (a0 : Side) (a1 : Word) (hw : listed [.log, .hsi] w = true) (h : Same w a s) :
    SameO w a (execHsiReleaseWrite a0 a1 s) := by
  unfold execHsiReleaseWrite
  repeat' first
    | with_reducible assumption
    | (intro (s : State) (h : Same w a s))
    | (intro _ (s : State) (h : Same w a s))
    | (intro (h : Same w a _))
    | (intro (s' : State); refine_lift have h : Same w a s' := ?_; ?_; clear_value s')
    | lift_lets
    | with_reducible apply sameO_next
    | with_reducible apply same_ite
    | with_reducible apply sameO_ite
    | with_reducible apply same_releaseWrite
    | exact listed_trans hw rfl
    | with_reducible refine same_foldl ?_ (fun s x h => ?_)
    | (intro x'; clear_value x')
    | intro _
    | dsimp only [s']
    | split

theorem same_execResultSlotRead (a0 : Side) (a1 : ℕ) (hw : listed [.hsi, .rdata] w = true) (h : Same w a s) :
    SameO w a (execResultSlotRead a0 a1 s) := by
  unfold execResultSlotRead
  repeat' first
    | with_reducible assumption
    | (intro (s : State) (h : Same w a s))
    | (intro _ (s : State) (h : Same w a s))
    | (intro (h : Same w a _))
    | (intro (s' : State); refine_lift have h : Same w a s' := ?_; ?_; clear_value s')
    | lift_lets
    | with_reducible apply sameO_next
    | with_reducible apply same_ite
    | with_reducible apply sameO_ite
    | with_reducible apply same_returns
    | with_reducible apply same_onRing
    | exact listed_trans hw rfl
    | with_reducible refine same_foldl ?_ (fun s x h => ?_)
    | (intro x'; clear_value x')
    | intro _
    | dsimp only [s']
    | split

theorem same_execBufferWrite (a0 : Side) (a1 : ℕ) (a2 : Bytes) (hw : listed [.hsi] w = true) (h : Same w a s) :
    SameO w a (execBufferWrite a0 a1 a2 s) := by
  unfold execBufferWrite
  repeat' first
    | with_reducible assumption
    | (intro (s : State) (h : Same w a s))
    | (intro _ (s : State) (h : Same w a s))
    | (intro (h : Same w a _))
    | (intro (s' : State); refine_lift have h : Same w a s' := ?_; ?_; clear_value s')
    | lift_lets
    | with_reducible apply sameO_next
    | with_reducible apply same_ite
    | with_reducible apply sameO_ite
    | with_reducible apply same_onRing
    | exact listed_trans hw rfl
    | with_reducible refine same_foldl ?_ (fun s x h => ?_)
    | (intro x'; clear_value x')
    | intro _
    | dsimp only [s']
    | split

theorem same_linkFault (a0 : ℕ) (hw : listed [.log, .hsi] w = true) (h : Same w a s) :
    Same w a (linkFault a0 s) := by
  unfold linkFault
  repeat' first
    | with_reducible assumption
    | (intro (s : State) (h : Same w a s))
    | (intro _ (s : State) (h : Same w a s))
    | (intro (h : Same w a _))
    | (intro (s' : State); refine_lift have h : Same w a s' := ?_; ?_; clear_value s')
    | lift_lets
    | with_reducible apply sameO_next
    | with_reducible apply same_ite
    | with_reducible apply same_onHsi
    | with_reducible apply same_onRing
    | with_reducible apply same_logEv
    | exact listed_trans hw rfl
    | with_reducible refine same_foldl ?_ (fun s x h => ?_)
    | (intro x'; clear_value x')
    | intro _
    | dsimp only [s']
    | split

theorem same_execHsiTransactionError (a0 : HsiFrame) (hw : listed [.log, .hsi] w = true) (h : Same w a s) :
    SameO w a (execHsiTransactionError a0 s) := by
  unfold execHsiTransactionError
  repeat' first
    | with_reducible assumption
    | (intro (s : State) (h : Same w a s))
    | (intro _ (s : State) (h : Same w a s))
    | (intro (h : Same w a _))
    | (intro (s' : State); refine_lift have h : Same w a s' := ?_; ?_; clear_value s')
    | lift_lets
    | with_reducible apply sameO_next
    | with_reducible apply same_ite
    | with_reducible apply sameO_ite
    | with_reducible apply same_linkFault
    | with_reducible apply same_onHsi
    | exact listed_trans hw rfl
    | with_reducible refine same_foldl ?_ (fun s x h => ?_)
    | (intro x'; clear_value x')
    | intro _
    | dsimp only [s']
    | split

theorem same_execHsiFrameTimeout  (hw : listed [.log, .hsi] w = true) (h : Same w a s) :
    SameO w a (execHsiFrameTimeout s) := by
  unfold execHsiFrameTimeout
  repeat' first
    | with_reducible assumption
    | (intro (s : State) (h : Same w a s))
    | (intro _ (s : State) (h : Same w a s))
    | (intro (h : Same w a _))
    | (intro (s' : State); refine_lift have h : Same w a s' := ?_; ?_; clear_value s')
    | lift_lets
    | with_reducible apply sameO_next
    | with_reducible apply same_ite
    | with_reducible apply sameO_ite
    | with_reducible apply same_linkFault
    | exact listed_trans hw rfl
    | with_reducible refine same_foldl ?_ (fun s x h => ?_)
    | (intro x'; clear_value x')
    | intro _
    | dsimp only [s']
    | split

theorem same_execBadgerCommandTimeout (a0 : Req) (hw : listed [.hsi, .result] w = true) (h : Same w a s) :
    SameO w a (execBadgerCommandTimeout a0 s) := by
  unfold execBadgerCommandTimeout
  repeat' first
    | with_reducible assumption
    | (intro (s : State) (h : Same w a s))
    | (intro _ (s : State) (h : Same w a s))
    | (intro (h : Same w a _))
    | (intro (s' : State); refine_lift have h : Same w a s' := ?_; ?_; clear_value s')
    | lift_lets
    | with_reducible apply sameO_next
    | with_reducible apply same_ite
    | with_reducible apply sameO_ite
    | with_reducible apply same_postSts
    | exact listed_trans hw rfl
    | with_reducible refine same_foldl ?_ (fun s x h => ?_)
    | (intro x'; clear_value x')
    | intro _
    | dsimp only [s']
    | split

theorem same_execHsiNop (a0 : Req) (a1 : Bytes) (hw : listed [.hsi, .result] w = true) (h : Same w a s) :
    SameO w a (execHsiNop a0 a1 s) := by
  unfold execHsiNop
  repeat' first
    | with_reducible assumption
    | (intro (s : State) (h : Same w a s))
    | (intro _ (s : State) (h : Same w a s))
    | (intro (h : Same w a _))
    | (intro (s' : State); refine_lift have h : Same w a s' := ?_; ?_; clear_value s')
    | lift_lets
    | with_reducible apply sameO_next
    | with_reducible apply same_ite
    | with_reducible apply sameO_ite
    | with_reducible apply same_guarded
    | with_reducible apply same_post
    | exact listed_trans hw rfl
    | with_reducible refine same_foldl ?_ (fun s x h => ?_)
    | (intro x'; clear_value x')
    | intro _
    | dsimp only [s']
    | split

end Sys2Proof.Machine
end

