-- ==== Sys2Proof/Laws/FramePower.lean ====
section
/-! SUPPORT. Which parts of the state the operations of Power.lean write. -/

set_option linter.unusedVariables false
set_option linter.unreachableTactic false
set_option linter.unusedTactic false

namespace Sys2Proof.Machine

variable {w : List Part} {a s : State}

theorem same_execLsDemandChange (a0 : ℕ) (hw : listed [.pwr, .vlk, .log] w = true) (h : Same w a s) :
    SameO w a (execLsDemandChange a0 s) := by
  unfold execLsDemandChange
  repeat' first
    | with_reducible assumption
    | (intro (s : State) (h : Same w a s))
    | (intro _ (s : State) (h : Same w a s))
    | (intro (h : Same w a _))
    | (intro (s' : State); refine_lift have h : Same w a s' := ?_; ?_; clear_value s')
    | lift_lets
    | with_reducible apply sameO_next
    | with_reducible apply same_ite
    | with_reducible apply sameO_ite
    | with_reducible apply same_settleCh
    | exact listed_trans hw rfl
    | with_reducible refine same_foldl ?_ (fun s x h => ?_)
    | (intro x'; clear_value x')
    | intro _
    | dsimp only [s']
    | split

theorem same_execLsOverload (a0 : ℕ) (a1 : ℤ) (hw : listed [.pwr, .vlk, .log] w = true) (h : Same w a s) :
    SameO w a (execLsOverload a0 a1 s) := by
  unfold execLsOverload
  repeat' first
    | with_reducible assumption
    | (intro (s : State) (h : Same w a s))
    | (intro _ (s : State) (h : Same w a s))
    | (intro (h : Same w a _))
    | (intro (s' : State); refine_lift have h : Same w a s' := ?_; ?_; clear_value s')
    | lift_lets
    | with_reducible apply sameO_next
    | with_reducible apply same_ite
    | with_reducible apply sameO_ite
    | with_reducible apply same_onCh
    | with_reducible apply same_logEv
    | with_reducible apply same_setCh
    | exact listed_trans hw rfl
    | with_reducible refine same_foldl ?_ (fun s x h => ?_)
    | (intro x'; clear_value x')
    | intro _
    | dsimp only [s']
    | split

theorem same_execLsInrushEnd (a0 : ℕ) (a1 : ℤ) (hw : listed [.pwr, .vlk, .log] w = true) (h : Same w a s) :
    SameO w a (execLsInrushEnd a0 a1 s) := by
  unfold execLsInrushEnd
  repeat' first
    | with_reducible assumption
    | (intro (s : State) (h : Same w a s))
    | (intro _ (s : State) (h : Same w a s))
    | (intro (h : Same w a _))
    | (intro (s' : State); refine_lift have h : Same w a s' := ?_; ?_; clear_value s')
    | lift_lets
    | with_reducible apply sameO_next
    | with_reducible apply same_ite
    | with_reducible apply sameO_ite
    | with_reducible apply same_setCh
    | with_reducible apply same_onCh
    | exact listed_trans hw rfl
    | with_reducible refine same_foldl ?_ (fun s x h => ?_)
    | (intro x'; clear_value x')
    | intro _
    | dsimp only [s']
    | split

theorem same_execLsRetryTimer (a0 : ℕ) (hw : listed [.pwr, .vlk, .log] w = true) (h : Same w a s) :
    SameO w a (execLsRetryTimer a0 s) := by
  unfold execLsRetryTimer
  repeat' first
    | with_reducible assumption
    | (intro (s : State) (h : Same w a s))
    | (intro _ (s : State) (h : Same w a s))
    | (intro (h : Same w a _))
    | (intro (s' : State); refine_lift have h : Same w a s' := ?_; ?_; clear_value s')
    | lift_lets
    | with_reducible apply sameO_next
    | with_reducible apply same_ite
    | with_reducible apply sameO_ite
    | with_reducible apply same_setCh
    | exact listed_trans hw rfl
    | with_reducible refine same_foldl ?_ (fun s x h => ?_)
    | (intro x'; clear_value x')
    | intro _
    | dsimp only [s']
    | split

theorem same_execLsRetryReset (a0 : ℕ) (hw : listed [.pwr] w = true) (h : Same w a s) :
    SameO w a (execLsRetryReset a0 s) := by
  unfold execLsRetryReset
  repeat' first
    | with_reducible assumption
    | (intro (s : State) (h : Same w a s))
    | (intro _ (s : State) (h : Same w a s))
    | (intro (h : Same w a _))
    | (intro (s' : State); refine_lift have h : Same w a s' := ?_; ?_; clear_value s')
    | lift_lets
    | with_reducible apply sameO_next
    | with_reducible apply same_ite
    | with_reducible apply sameO_ite
    | with_reducible apply same_onCh
    | exact listed_trans hw rfl
    | with_reducible refine same_foldl ?_ (fun s x h => ?_)
    | (intro x'; clear_value x')
    | intro _
    | dsimp only [s']
    | split

theorem same_logThermal (a0 : ℕ) (a1 : ℕ) (a2 : ℤ) (a3 : ℕ) (hw : listed [.log] w = true) (h : Same w a s) :
    Same w a (logThermal a0 a1 a2 a3 s) := by
  unfold logThermal
  repeat' first
    | with_reducible assumption
    | (intro (s : State) (h : Same w a s))
    | (intro _ (s : State) (h : Same w a s))
    | (intro (h : Same w a _))
    | (intro (s' : State); refine_lift have h : Same w a s' := ?_; ?_; clear_value s')
    | lift_lets
    | with_reducible apply sameO_next
    | with_reducible apply same_ite
    | with_reducible apply same_logEv
    | exact listed_trans hw rfl
    | with_reducible refine same_foldl ?_ (fun s x h => ?_)
    | (intro x'; clear_value x')
    | intro _
    | dsimp only [s']
    | split

theorem same_execLsThermalLatch (a0 : ℕ) (a1 : ℤ) (hw : listed [.pwr, .vlk, .log] w = true) (h : Same w a s) :
    SameO w a (execLsThermalLatch a0 a1 s) := by
  unfold execLsThermalLatch
  repeat' first
    | with_reducible assumption
    | (intro (s : State) (h : Same w a s))
    | (intro _ (s : State) (h : Same w a s))
    | (intro (h : Same w a _))
    | (intro (s' : State); refine_lift have h : Same w a s' := ?_; ?_; clear_value s')
    | lift_lets
    | with_reducible apply sameO_next
    | with_reducible apply same_ite
    | with_reducible apply sameO_ite
    | with_reducible apply same_setCh
    | with_reducible apply same_logThermal
    | with_reducible apply same_onCh
    | exact listed_trans hw rfl
    | with_reducible refine same_foldl ?_ (fun s x h => ?_)
    | (intro x'; clear_value x')
    | intro _
    | dsimp only [s']
    | split

theorem same_unlatch (a0 : ℕ) (hw : listed [.pwr, .vlk, .log] w = true) (h : Same w a s) :
    Same w a (unlatch a0 s) := by
  unfold unlatch
  repeat' first
    | with_reducible assumption
    | (intro (s : State) (h : Same w a s))
    | (intro _ (s : State) (h : Same w a s))
    | (intro (h : Same w a _))
    | (intro (s' : State); refine_lift have h : Same w a s' := ?_; ?_; clear_value s')
    | lift_lets
    | with_reducible apply sameO_next
    | with_reducible apply same_ite
    | with_reducible apply same_onCh
    | with_reducible apply same_setCh
    | with_reducible apply same_settleCh
    | exact listed_trans hw rfl
    | with_reducible refine same_foldl ?_ (fun s x h => ?_)
    | (intro x'; clear_value x')
    | intro _
    | dsimp only [s']
    | split

theorem same_execLsLatchAutoclear (a0 : ℕ) (a1 : ℤ) (hw : listed [.pwr, .vlk, .log] w = true) (h : Same w a s) :
    SameO w a (execLsLatchAutoclear a0 a1 s) := by
  unfold execLsLatchAutoclear
  repeat' first
    | with_reducible assumption
    | (intro (s : State) (h : Same w a s))
    | (intro _ (s : State) (h : Same w a s))
    | (intro (h : Same w a _))
    | (intro (s' : State); refine_lift have h : Same w a s' := ?_; ?_; clear_value s')
    | lift_lets
    | with_reducible apply sameO_next
    | with_reducible apply same_ite
    | with_reducible apply sameO_ite
    | with_reducible apply same_onCh
    | with_reducible apply same_unlatch
    | with_reducible apply same_logThermal
    | exact listed_trans hw rfl
    | with_reducible refine same_foldl ?_ (fun s x h => ?_)
    | (intro x'; clear_value x')
    | intro _
    | dsimp only [s']
    | split

theorem same_channelUv (a1 : ℕ) (hw : listed [.pwr, .owl, .vlk, .log] w = true) (h : Same w a s) :
    Same w a (channelUv s a1) := by
  unfold channelUv
  repeat' first
    | with_reducible assumption
    | (intro (s : State) (h : Same w a s))
    | (intro _ (s : State) (h : Same w a s))
    | (intro (h : Same w a _))
    | (intro (s' : State); refine_lift have h : Same w a s' := ?_; ?_; clear_value s')
    | lift_lets
    | with_reducible apply sameO_next
    | with_reducible apply same_ite
    | with_reducible apply same_setCh
    | with_reducible apply same_onCh
    | with_reducible apply same_supplyPause
    | exact listed_trans hw rfl
    | with_reducible refine same_foldl ?_ (fun s x h => ?_)
    | (intro x'; clear_value x')
    | intro _
    | dsimp only [s']
    | split

theorem same_execLsUndervoltage (a0 : ℕ) (a1 : ℕ) (hw : listed [.pwr, .owl, .vlk, .log] w = true) (h : Same w a s) :
    SameO w a (execLsUndervoltage a0 a1 s) := by
  unfold execLsUndervoltage
  repeat' first
    | with_reducible assumption
    | (intro (s : State) (h : Same w a s))
    | (intro _ (s : State) (h : Same w a s))
    | (intro (h : Same w a _))
    | (intro (s' : State); refine_lift have h : Same w a s' := ?_; ?_; clear_value s')
    | lift_lets
    | with_reducible apply sameO_next
    | with_reducible apply same_ite
    | with_reducible apply sameO_ite
    | with_reducible apply same_onPwr
    | with_reducible apply same_logEv
    | with_reducible apply same_channelUv
    | exact listed_trans hw rfl
    | with_reducible refine same_foldl ?_ (fun s x h => ?_)
    | (intro x'; clear_value x')
    | intro _
    | dsimp only [s']
    | split

theorem same_channelRecover (a1 : ℕ) (hw : listed [.pwr, .vlk, .log] w = true) (h : Same w a s) :
    Same w a (channelRecover s a1) := by
  unfold channelRecover
  repeat' first
    | with_reducible assumption
    | (intro (s : State) (h : Same w a s))
    | (intro _ (s : State) (h : Same w a s))
    | (intro (h : Same w a _))
    | (intro (s' : State); refine_lift have h : Same w a s' := ?_; ?_; clear_value s')
    | lift_lets
    | with_reducible apply sameO_next
    | with_reducible apply same_ite
    | with_reducible apply same_setCh
    | exact listed_trans hw rfl
    | with_reducible refine same_foldl ?_ (fun s x h => ?_)
    | (intro x'; clear_value x')
    | intro _
    | dsimp only [s']
    | split

theorem same_execLsUvRecover (a0 : ℕ) (a1 : ℕ) (hw : listed [.pwr, .owl, .vlk, .log] w = true) (h : Same w a s) :
    SameO w a (execLsUvRecover a0 a1 s) := by
  unfold execLsUvRecover
  repeat' first
    | with_reducible assumption
    | (intro (s : State) (h : Same w a s))
    | (intro _ (s : State) (h : Same w a s))
    | (intro (h : Same w a _))
    | (intro (s' : State); refine_lift have h : Same w a s' := ?_; ?_; clear_value s')
    | lift_lets
    | with_reducible apply sameO_next
    | with_reducible apply same_ite
    | with_reducible apply sameO_ite
    | with_reducible apply same_onPwr
    | with_reducible apply same_logEv
    | with_reducible apply same_channelRecover
    | with_reducible apply same_tryResume
    | exact listed_trans hw rfl
    | with_reducible refine same_foldl ?_ (fun s x h => ?_)
    | (intro x'; clear_value x')
    | intro _
    | dsimp only [s']
    | split

theorem same_logOpenload (a0 : ℕ) (a1 : ℕ) (hw : listed [.log] w = true) (h : Same w a s) :
    Same w a (logOpenload a0 a1 s) := by
  unfold logOpenload
  repeat' first
    | with_reducible assumption
    | (intro (s : State) (h : Same w a s))
    | (intro _ (s : State) (h : Same w a s))
    | (intro (h : Same w a _))
    | (intro (s' : State); refine_lift have h : Same w a s' := ?_; ?_; clear_value s')
    | lift_lets
    | with_reducible apply sameO_next
    | with_reducible apply same_ite
    | with_reducible apply same_logEv
    | exact listed_trans hw rfl
    | with_reducible refine same_foldl ?_ (fun s x h => ?_)
    | (intro x'; clear_value x')
    | intro _
    | dsimp only [s']
    | split

theorem same_execLsOpenloadOn (a0 : ℕ) (a1 : ℤ) (hw : listed [.pwr, .log] w = true) (h : Same w a s) :
    SameO w a (execLsOpenloadOn a0 a1 s) := by
  unfold execLsOpenloadOn
  repeat' first
    | with_reducible assumption
    | (intro (s : State) (h : Same w a s))
    | (intro _ (s : State) (h : Same w a s))
    | (intro (h : Same w a _))
    | (intro (s' : State); refine_lift have h : Same w a s' := ?_; ?_; clear_value s')
    | lift_lets
    | with_reducible apply sameO_next
    | with_reducible apply same_ite
    | with_reducible apply sameO_ite
    | with_reducible apply same_onCh
    | with_reducible apply same_logOpenload
    | exact listed_trans hw rfl
    | with_reducible refine same_foldl ?_ (fun s x h => ?_)
    | (intro x'; clear_value x')
    | intro _
    | dsimp only [s']
    | split

theorem same_execLsOpenloadDiag (a0 : ℕ) (a1 : ℕ) (hw : listed [.pwr, .log] w = true) (h : Same w a s) :
    SameO w a (execLsOpenloadDiag a0 a1 s) := by
  unfold execLsOpenloadDiag
  repeat' first
    | with_reducible assumption
    | (intro (s : State) (h : Same w a s))
    | (intro _ (s : State) (h : Same w a s))
    | (intro (h : Same w a _))
    | (intro (s' : State); refine_lift have h : Same w a s' := ?_; ?_; clear_value s')
    | lift_lets
    | with_reducible apply sameO_next
    | with_reducible apply same_ite
    | with_reducible apply sameO_ite
    | with_reducible apply same_logOpenload
    | with_reducible apply same_onCh
    | exact listed_trans hw rfl
    | with_reducible refine same_foldl ?_ (fun s x h => ?_)
    | (intro x'; clear_value x')
    | intro _
    | dsimp only [s']
    | split

theorem same_execPwrClear (a0 : Req) (a1 : ℕ) (a2 : ℕ) (hw : listed [.pwr, .vlk, .log, .hsi, .result] w = true) (h : Same w a s) :
    SameO w a (execPwrClear a0 a1 a2 s) := by
  unfold execPwrClear
  repeat' first
    | with_reducible assumption
    | (intro (s : State) (h : Same w a s))
    | (intro _ (s : State) (h : Same w a s))
    | (intro (h : Same w a _))
    | (intro (s' : State); refine_lift have h : Same w a s' := ?_; ?_; clear_value s')
    | lift_lets
    | with_reducible apply sameO_next
    | with_reducible apply same_ite
    | with_reducible apply sameO_ite
    | with_reducible apply same_guarded
    | with_reducible apply same_logEv
    | with_reducible apply same_postSts
    | with_reducible apply same_unlatch
    | with_reducible apply same_logThermal
    | with_reducible apply same_settleCh
    | with_reducible apply same_setCh
    | with_reducible apply same_onCh
    | exact listed_trans hw rfl
    | with_reducible refine same_foldl ?_ (fun s x h => ?_)
    | (intro x'; clear_value x')
    | intro _
    | dsimp only [s']
    | split

theorem same_execLimpInputChange (a0 : Bool) (a1 : ℕ) (hw : listed [.pwr, .vlk, .log] w = true) (h : Same w a s) :
    SameO w a (execLimpInputChange a0 a1 s) := by
  unfold execLimpInputChange
  repeat' first
    | with_reducible assumption
    | (intro (s : State) (h : Same w a s))
    | (intro _ (s : State) (h : Same w a s))
    | (intro (h : Same w a _))
    | (intro (s' : State); refine_lift have h : Same w a s' := ?_; ?_; clear_value s')
    | lift_lets
    | with_reducible apply sameO_next
    | with_reducible apply same_ite
    | with_reducible apply sameO_ite
    | with_reducible apply same_settleAll
    | with_reducible apply same_onPwr
    | exact listed_trans hw rfl
    | with_reducible refine same_foldl ?_ (fun s x h => ?_)
    | (intro x'; clear_value x')
    | intro _
    | dsimp only [s']
    | split

theorem same_noteTrue (a0 : ℕ) (a1 : ℕ) (hw : listed [.owl] w = true) (h : Same w a s) :
    Same w a (noteTrue a0 a1 s) := by
  unfold noteTrue
  repeat' first
    | with_reducible assumption
    | (intro (s : State) (h : Same w a s))
    | (intro _ (s : State) (h : Same w a s))
    | (intro (h : Same w a _))
    | (intro (s' : State); refine_lift have h : Same w a s' := ?_; ?_; clear_value s')
    | lift_lets
    | with_reducible apply sameO_next
    | with_reducible apply same_ite
    | with_reducible apply same_onOwl
    | exact listed_trans hw rfl
    | with_reducible refine same_foldl ?_ (fun s x h => ?_)
    | (intro x'; clear_value x')
    | intro _
    | dsimp only [s']
    | split

theorem same_levelTrue (a0 : Level) (a1 : ℕ) (a2 : ℤ) (a3 : Bool) (hw : listed [.pwr, .flt, .owl, .vlk, .log] w = true) (h : Same w a s) :
    Same w a (levelTrue a0 a1 a2 a3 s) := by
  unfold levelTrue
  repeat' first
    | with_reducible assumption
    | (intro (s : State) (h : Same w a s))
    | (intro _ (s : State) (h : Same w a s))
    | (intro (h : Same w a _))
    | (intro (s' : State); refine_lift have h : Same w a s' := ?_; ?_; clear_value s')
    | lift_lets
    | with_reducible apply sameO_next
    | with_reducible apply same_ite
    | with_reducible apply same_latchTrip
    | with_reducible apply same_recordSrc
    | with_reducible apply same_logEv
    | with_reducible apply same_noteTrue
    | with_reducible apply same_onFlt
    | exact listed_trans hw rfl
    | with_reducible refine same_foldl ?_ (fun s x h => ?_)
    | (intro x'; clear_value x')
    | intro _
    | dsimp only [s']
    | split

theorem same_levelFalse (a0 : Level) (a1 : Bool) (hw : listed [.flt] w = true) (h : Same w a s) :
    Same w a (levelFalse a0 a1 s) := by
  unfold levelFalse
  repeat' first
    | with_reducible assumption
    | (intro (s : State) (h : Same w a s))
    | (intro _ (s : State) (h : Same w a s))
    | (intro (h : Same w a _))
    | (intro (s' : State); refine_lift have h : Same w a s' := ?_; ?_; clear_value s')
    | lift_lets
    | with_reducible apply sameO_next
    | with_reducible apply same_ite
    | with_reducible apply same_onFlt
    | exact listed_trans hw rfl
    | with_reducible refine same_foldl ?_ (fun s x h => ?_)
    | (intro x'; clear_value x')
    | intro _
    | dsimp only [s']
    | split

theorem same_tapLevel (a0 : ℕ) (a1 : ℕ) (a3 : Level) (a4 : ℕ) (hw : listed [.pwr, .flt, .owl, .vlk, .log] w = true) (h : Same w a s) :
    Same w a (tapLevel a0 a1 s a3 a4) := by
  unfold tapLevel
  repeat' first
    | with_reducible assumption
    | (intro (s : State) (h : Same w a s))
    | (intro _ (s : State) (h : Same w a s))
    | (intro (h : Same w a _))
    | (intro (s' : State); refine_lift have h : Same w a s' := ?_; ?_; clear_value s')
    | lift_lets
    | with_reducible apply sameO_next
    | with_reducible apply same_ite
    | with_reducible apply same_levelTrue
    | with_reducible apply same_onFlt
    | with_reducible apply same_levelFalse
    | exact listed_trans hw rfl
    | with_reducible refine same_foldl ?_ (fun s x h => ?_)
    | (intro x'; clear_value x')
    | intro _
    | dsimp only [s']
    | split

theorem same_stepBase (a0 : ℕ) (a1 : ℕ) (a2 : ℤ) (hw : listed [.flt] w = true) (h : Same w a s) :
    Same w a (stepBase a0 a1 a2 s) := by
  unfold stepBase
  repeat' first
    | with_reducible assumption
    | (intro (s : State) (h : Same w a s))
    | (intro _ (s : State) (h : Same w a s))
    | (intro (h : Same w a _))
    | (intro (s' : State); refine_lift have h : Same w a s' := ?_; ?_; clear_value s')
    | lift_lets
    | with_reducible apply sameO_next
    | with_reducible apply same_ite
    | with_reducible apply same_onFlt
    | exact listed_trans hw rfl
    | with_reducible refine same_foldl ?_ (fun s x h => ?_)
    | (intro x'; clear_value x')
    | intro _
    | dsimp only [s']
    | split

theorem same_residualLevel (a0 : ℕ) (a1 : ℕ) (a2 : Bool) (a4 : Level) (a5 : ℕ) (hw : listed [.pwr, .flt, .owl, .vlk, .log] w = true) (h : Same w a s) :
    Same w a (residualLevel a0 a1 a2 s a4 a5) := by
  unfold residualLevel
  repeat' first
    | with_reducible assumption
    | (intro (s : State) (h : Same w a s))
    | (intro _ (s : State) (h : Same w a s))
    | (intro (h : Same w a _))
    | (intro (s' : State); refine_lift have h : Same w a s' := ?_; ?_; clear_value s')
    | lift_lets
    | with_reducible apply sameO_next
    | with_reducible apply same_ite
    | with_reducible apply same_levelTrue
    | with_reducible apply same_onFlt
    | with_reducible apply same_levelFalse
    | exact listed_trans hw rfl
    | with_reducible refine same_foldl ?_ (fun s x h => ?_)
    | (intro x'; clear_value x')
    | intro _
    | dsimp only [s']
    | split

theorem same_compareTap (a0 : Level → ℕ → Bool) (a1 : ℕ) (hw : listed [.pwr, .flt, .owl, .vlk, .log] w = true) (h : Same w a s) :
    Same w a (compareTap a0 a1 s) := by
  unfold compareTap
  repeat' first
    | with_reducible assumption
    | (intro (s : State) (h : Same w a s))
    | (intro _ (s : State) (h : Same w a s))
    | (intro (h : Same w a _))
    | (intro (s' : State); refine_lift have h : Same w a s' := ?_; ?_; clear_value s')
    | lift_lets
    | with_reducible apply sameO_next
    | with_reducible apply same_ite
    | with_reducible apply same_residualLevel
    | with_reducible apply same_tapLevel
    | exact listed_trans hw rfl
    | with_reducible refine same_foldl ?_ (fun s x h => ?_)
    | (intro x'; clear_value x')
    | intro _
    | dsimp only [s']
    | split

theorem same_execFastTrip (a0 : ℕ) (a1 : ℕ) (hw : listed [.pwr, .flt, .owl, .vlk, .log] w = true) (h : Same w a s) :
    SameO w a (execFastTrip a0 a1 s) := by
  unfold execFastTrip
  repeat' first
    | with_reducible assumption
    | (intro (s : State) (h : Same w a s))
    | (intro _ (s : State) (h : Same w a s))
    | (intro (h : Same w a _))
    | (intro (s' : State); refine_lift have h : Same w a s' := ?_; ?_; clear_value s')
    | lift_lets
    | with_reducible apply sameO_next
    | with_reducible apply same_ite
    | with_reducible apply sameO_ite
    | with_reducible apply same_compareTap
    | exact listed_trans hw rfl
    | with_reducible refine same_foldl ?_ (fun s x h => ?_)
    | (intro x'; clear_value x')
    | intro _
    | dsimp only [s']
    | split

theorem same_takeTap (a0 : ℕ) (a1 : Bool) (hw : listed [.met, .pwr, .flt, .owl, .vlk, .sys, .mgt, .log] w = true) (h : Same w a s) :
    Same w a (takeTap a0 a1 s) := by
  unfold takeTap
  repeat' first
    | with_reducible assumption
    | (intro (s : State) (h : Same w a s))
    | (intro _ (s : State) (h : Same w a s))
    | (intro (h : Same w a _))
    | (intro (s' : State); refine_lift have h : Same w a s' := ?_; ?_; clear_value s')
    | lift_lets
    | with_reducible apply sameO_next
    | with_reducible apply same_ite
    | with_reducible apply same_diagFail
    | with_reducible apply same_compareTap
    | with_reducible apply same_stepBase
    | exact listed_trans hw rfl
    | with_reducible refine same_foldl ?_ (fun s x h => ?_)
    | (intro x'; clear_value x')
    | intro _
    | dsimp only [s']
    | split

theorem same_execFastTapWord (a0 : ℕ) (a1 : TapInput) (hw : listed [.lane, .met, .pwr, .flt, .owl, .vlk, .sys, .mgt, .log, .freeCtr] w = true) (h : Same w a s) :
    SameO w a (execFastTapWord a0 a1 s) := by
  unfold execFastTapWord
  repeat' first
    | with_reducible assumption
    | (intro (s : State) (h : Same w a s))
    | (intro _ (s : State) (h : Same w a s))
    | (intro (h : Same w a _))
    | (intro (s' : State); refine_lift have h : Same w a s' := ?_; ?_; clear_value s')
    | lift_lets
    | with_reducible apply sameO_next
    | with_reducible apply same_ite
    | with_reducible apply sameO_ite
    | with_reducible apply same_takeTap
    | with_reducible apply same_formTap
    | exact listed_trans hw rfl
    | with_reducible refine same_foldl ?_ (fun s x h => ?_)
    | (intro x'; clear_value x')
    | intro _
    | dsimp only [s']
    | split

theorem same_execRcEvaluate (a0 : ℕ) (a1 : List ℤ) (hw : listed [.flt, .freeCtr] w = true) (h : Same w a s) :
    SameO w a (execRcEvaluate a0 a1 s) := by
  unfold execRcEvaluate
  repeat' first
    | with_reducible assumption
    | (intro (s : State) (h : Same w a s))
    | (intro _ (s : State) (h : Same w a s))
    | (intro (h : Same w a _))
    | (intro (s' : State); refine_lift have h : Same w a s' := ?_; ?_; clear_value s')
    | lift_lets
    | with_reducible apply sameO_next
    | with_reducible apply same_ite
    | with_reducible apply sameO_ite
    | with_reducible apply same_bump
    | with_reducible apply same_onFlt
    | exact listed_trans hw rfl
    | with_reducible refine same_foldl ?_ (fun s x h => ?_)
    | (intro x'; clear_value x')
    | intro _
    | dsimp only [s']
    | split

theorem same_execRcTrip (a0 : ℕ) (a1 : ℕ) (hw : listed [.pwr, .flt, .owl, .vlk, .log] w = true) (h : Same w a s) :
    SameO w a (execRcTrip a0 a1 s) := by
  unfold execRcTrip
  repeat' first
    | with_reducible assumption
    | (intro (s : State) (h : Same w a s))
    | (intro _ (s : State) (h : Same w a s))
    | (intro (h : Same w a _))
    | (intro (s' : State); refine_lift have h : Same w a s' := ?_; ?_; clear_value s')
    | lift_lets
    | with_reducible apply sameO_next
    | with_reducible apply same_ite
    | with_reducible apply sameO_ite
    | with_reducible apply same_onFlt
    | with_reducible apply same_latchTrip
    | with_reducible apply same_recordSrc
    | with_reducible apply same_logEv
    | exact listed_trans hw rfl
    | with_reducible refine same_foldl ?_ (fun s x h => ?_)
    | (intro x'; clear_value x')
    | intro _
    | dsimp only [s']
    | split

theorem same_execIsoStateSwitch (a0 : ℕ) (a1 : IsoInput) (hw : listed [.flt, .freeCtr] w = true) (h : Same w a s) :
    SameO w a (execIsoStateSwitch a0 a1 s) := by
  unfold execIsoStateSwitch
  repeat' first
    | with_reducible assumption
    | (intro (s : State) (h : Same w a s))
    | (intro _ (s : State) (h : Same w a s))
    | (intro (h : Same w a _))
    | (intro (s' : State); refine_lift have h : Same w a s' := ?_; ?_; clear_value s')
    | lift_lets
    | with_reducible apply sameO_next
    | with_reducible apply same_ite
    | with_reducible apply sameO_ite
    | with_reducible apply same_bump
    | with_reducible apply same_onFlt
    | exact listed_trans hw rfl
    | with_reducible refine same_foldl ?_ (fun s x h => ?_)
    | (intro x'; clear_value x')
    | intro _
    | dsimp only [s']
    | split

theorem same_execIsoUnknown (a0 : ℕ) (a1 : ℤ) (hw : listed [.flt, .log] w = true) (h : Same w a s) :
    SameO w a (execIsoUnknown a0 a1 s) := by
  unfold execIsoUnknown
  repeat' first
    | with_reducible assumption
    | (intro (s : State) (h : Same w a s))
    | (intro _ (s : State) (h : Same w a s))
    | (intro (h : Same w a _))
    | (intro (s' : State); refine_lift have h : Same w a s' := ?_; ?_; clear_value s')
    | lift_lets
    | with_reducible apply sameO_next
    | with_reducible apply same_ite
    | with_reducible apply sameO_ite
    | with_reducible apply same_logEv
    | with_reducible apply same_onFlt
    | exact listed_trans hw rfl
    | with_reducible refine same_foldl ?_ (fun s x h => ?_)
    | (intro x'; clear_value x')
    | intro _
    | dsimp only [s']
    | split

theorem same_recordWeld (a0 : ℕ) (a1 : Bool) (a2 : WeldResult × ℕ × ℕ × ℕ) (hw : listed [.flt, .owl, .log] w = true) (h : Same w a s) :
    Same w a (recordWeld a0 a1 a2 s) := by
  unfold recordWeld
  repeat' first
    | with_reducible assumption
    | (intro (s : State) (h : Same w a s))
    | (intro _ (s : State) (h : Same w a s))
    | (intro (h : Same w a _))
    | (intro (s' : State); refine_lift have h : Same w a s' := ?_; ?_; clear_value s')
    | lift_lets
    | with_reducible apply sameO_next
    | with_reducible apply same_ite
    | with_reducible apply same_onFlt
    | with_reducible apply same_logEv
    | with_reducible apply same_onCfg
    | exact listed_trans hw rfl
    | with_reducible refine same_foldl ?_ (fun s x h => ?_)
    | (intro x'; clear_value x')
    | intro _
    | dsimp only [s']
    | split

theorem same_execPreCloseResult (a0 : ℕ) (a1 : WeldInput) (hw : listed [.met, .pwr, .flt, .owl, .vlk, .sys, .mgt, .log] w = true) (h : Same w a s) :
    SameO w a (execPreCloseResult a0 a1 s) := by
  unfold execPreCloseResult
  repeat' first
    | with_reducible assumption
    | (intro (s : State) (h : Same w a s))
    | (intro _ (s : State) (h : Same w a s))
    | (intro (h : Same w a _))
    | (intro (s' : State); refine_lift have h : Same w a s' := ?_; ?_; clear_value s')
    | lift_lets
    | with_reducible apply sameO_next
    | with_reducible apply same_ite
    | with_reducible apply sameO_ite
    | with_reducible apply same_recordWeld
    | with_reducible apply same_onLink
    | with_reducible apply same_closeContactors
    | with_reducible apply same_endSession
    | with_reducible apply same_logEv
    | exact listed_trans hw rfl
    | with_reducible refine same_foldl ?_ (fun s x h => ?_)
    | (intro x'; clear_value x')
    | intro _
    | dsimp only [s']
    | split

theorem same_execPrecloseRetry (a0 : ℕ) (hw : listed [.vlk] w = true) (h : Same w a s) :
    SameO w a (execPrecloseRetry a0 s) := by
  unfold execPrecloseRetry
  repeat' first
    | with_reducible assumption
    | (intro (s : State) (h : Same w a s))
    | (intro _ (s : State) (h : Same w a s))
    | (intro (h : Same w a _))
    | (intro (s' : State); refine_lift have h : Same w a s' := ?_; ?_; clear_value s')
    | lift_lets
    | with_reducible apply sameO_next
    | with_reducible apply same_ite
    | with_reducible apply sameO_ite
    | with_reducible apply same_onLink
    | exact listed_trans hw rfl
    | with_reducible refine same_foldl ?_ (fun s x h => ?_)
    | (intro x'; clear_value x')
    | intro _
    | dsimp only [s']
    | split

theorem same_afterPostOpen (a0 : ℕ) (hw : listed [.met, .pwr, .owl, .vlk, .sys, .mgt, .log] w = true) (h : Same w a s) :
    Same w a (afterPostOpen a0 s) := by
  unfold afterPostOpen
  repeat' first
    | with_reducible assumption
    | (intro (s : State) (h : Same w a s))
    | (intro _ (s : State) (h : Same w a s))
    | (intro (h : Same w a _))
    | (intro (s' : State); refine_lift have h : Same w a s' := ?_; ?_; clear_value s')
    | lift_lets
    | with_reducible apply sameO_next
    | with_reducible apply same_ite
    | with_reducible apply same_onLink
    | with_reducible apply same_tryResume
    | with_reducible apply same_setSup
    | with_reducible apply same_finishSession
    | exact listed_trans hw rfl
    | with_reducible refine same_foldl ?_ (fun s x h => ?_)
    | (intro x'; clear_value x')
    | intro _
    | dsimp only [s']
    | split

theorem same_execPostOpenResult (a0 : ℕ) (a1 : WeldInput) (hw : listed [.met, .pwr, .flt, .owl, .vlk, .sys, .mgt, .log] w = true) (h : Same w a s) :
    SameO w a (execPostOpenResult a0 a1 s) := by
  unfold execPostOpenResult
  repeat' first
    | with_reducible assumption
    | (intro (s : State) (h : Same w a s))
    | (intro _ (s : State) (h : Same w a s))
    | (intro (h : Same w a _))
    | (intro (s' : State); refine_lift have h : Same w a s' := ?_; ?_; clear_value s')
    | lift_lets
    | with_reducible apply sameO_next
    | with_reducible apply same_ite
    | with_reducible apply sameO_ite
    | with_reducible apply same_recordWeld
    | with_reducible apply same_logEv
    | with_reducible apply same_onOwl
    | with_reducible apply same_afterPostOpen
    | exact listed_trans hw rfl
    | with_reducible refine same_foldl ?_ (fun s x h => ?_)
    | (intro x'; clear_value x')
    | intro _
    | dsimp only [s']
    | split

theorem same_execWeldClear (a0 : Req) (a1 : ℕ) (hw : listed [.owl, .log, .hsi, .result] w = true) (h : Same w a s) :
    SameO w a (execWeldClear a0 a1 s) := by
  unfold execWeldClear
  repeat' first
    | with_reducible assumption
    | (intro (s : State) (h : Same w a s))
    | (intro _ (s : State) (h : Same w a s))
    | (intro (h : Same w a _))
    | (intro (s' : State); refine_lift have h : Same w a s' := ?_; ?_; clear_value s')
    | lift_lets
    | with_reducible apply sameO_next
    | with_reducible apply same_ite
    | with_reducible apply sameO_ite
    | with_reducible apply same_guarded
    | with_reducible apply same_postSts
    | with_reducible apply same_changeEntry
    | with_reducible apply same_onCfg
    | exact listed_trans hw rfl
    | with_reducible refine same_foldl ?_ (fun s x h => ?_)
    | (intro x'; clear_value x')
    | intro _
    | dsimp only [s']
    | split

theorem same_lockReading (a0 : ℕ) (a1 : ℕ) (a2 : Bool) (hw : listed [.met, .pwr, .owl, .vlk, .sys, .mgt, .log] w = true) (h : Same w a s) :
    Same w a (lockReading a0 a1 a2 s) := by
  unfold lockReading
  repeat' first
    | with_reducible assumption
    | (intro (s : State) (h : Same w a s))
    | (intro _ (s : State) (h : Same w a s))
    | (intro (h : Same w a _))
    | (intro (s' : State); refine_lift have h : Same w a s' := ?_; ?_; clear_value s')
    | lift_lets
    | with_reducible apply sameO_next
    | with_reducible apply same_ite
    | with_reducible apply same_onLock
    | with_reducible apply same_lockWatch
    | with_reducible apply same_offerChanged
    | with_reducible apply same_lockReached
    | with_reducible apply same_lockLost
    | exact listed_trans hw rfl
    | with_reducible refine same_foldl ?_ (fun s x h => ?_)
    | (intro x'; clear_value x')
    | intro _
    | dsimp only [s']
    | split

theorem same_execLockFeedback (a0 : ℕ) (a1 : Bool) (hw : listed [.met, .pwr, .owl, .vlk, .sys, .mgt, .log] w = true) (h : Same w a s) :
    SameO w a (execLockFeedback a0 a1 s) := by
  unfold execLockFeedback
  repeat' first
    | with_reducible assumption
    | (intro (s : State) (h : Same w a s))
    | (intro _ (s : State) (h : Same w a s))
    | (intro (h : Same w a _))
    | (intro (s' : State); refine_lift have h : Same w a s' := ?_; ?_; clear_value s')
    | lift_lets
    | with_reducible apply sameO_next
    | with_reducible apply same_ite
    | with_reducible apply sameO_ite
    | with_reducible apply same_owlReact
    | with_reducible apply same_lockReading
    | exact listed_trans hw rfl
    | with_reducible refine same_foldl ?_ (fun s x h => ?_)
    | (intro x'; clear_value x')
    | intro _
    | dsimp only [s']
    | split

theorem same_execLockTimeout (a0 : ℕ) (hw : listed [.pwr, .vlk, .log] w = true) (h : Same w a s) :
    SameO w a (execLockTimeout a0 s) := by
  unfold execLockTimeout
  repeat' first
    | with_reducible assumption
    | (intro (s : State) (h : Same w a s))
    | (intro _ (s : State) (h : Same w a s))
    | (intro (h : Same w a _))
    | (intro (s' : State); refine_lift have h : Same w a s' := ?_; ?_; clear_value s')
    | lift_lets
    | with_reducible apply sameO_next
    | with_reducible apply same_ite
    | with_reducible apply sameO_ite
    | with_reducible apply same_logEv
    | with_reducible apply same_onLock
    | with_reducible apply same_lockDemand
    | exact listed_trans hw rfl
    | with_reducible refine same_foldl ?_ (fun s x h => ?_)
    | (intro x'; clear_value x')
    | intro _
    | dsimp only [s']
    | split

theorem same_execLockRetry (a0 : ℕ) (hw : listed [.pwr, .vlk, .log] w = true) (h : Same w a s) :
    SameO w a (execLockRetry a0 s) := by
  unfold execLockRetry
  repeat' first
    | with_reducible assumption
    | (intro (s : State) (h : Same w a s))
    | (intro _ (s : State) (h : Same w a s))
    | (intro (h : Same w a _))
    | (intro (s' : State); refine_lift have h : Same w a s' := ?_; ?_; clear_value s')
    | lift_lets
    | with_reducible apply sameO_next
    | with_reducible apply same_ite
    | with_reducible apply sameO_ite
    | with_reducible apply same_lockDemand
    | with_reducible apply same_onLock
    | exact listed_trans hw rfl
    | with_reducible refine same_foldl ?_ (fun s x h => ?_)
    | (intro x'; clear_value x')
    | intro _
    | dsimp only [s']
    | split

end Sys2Proof.Machine
end

