-- ==== Sys2Proof/Laws/FrameRegs.lean ====
section
/-! SUPPORT. Which parts of the state the operations of Regs.lean write. -/

set_option linter.unusedVariables false
set_option linter.unreachableTactic false
set_option linter.unusedTactic false

namespace Sys2Proof.Machine

variable {w : List Part} {a s : State}

theorem same_sysRegWrite (a0 : ℕ) (a1 : ℕ) (hw : listed [.sys] w = true) (h : Same w a s) :
    Same w a (sysRegWrite a0 a1 s) := by
  unfold sysRegWrite
  repeat' first
    | with_reducible assumption
    | (intro (s : State) (h : Same w a s))
    | (intro _ (s : State) (h : Same w a s))
    | (intro (h : Same w a _))
    | (intro (s' : State); refine_lift have h : Same w a s' := ?_; ?_; clear_value s')
    | lift_lets
    | with_reducible apply sameO_next
    | with_reducible apply same_ite
    | with_reducible apply same_rstreqWrite
    | (with_reducible refine same_onSys ?_ ?_ ?_
       rotate_left
       rotate_left
       · intro _; first | exact ⟨rfl, rfl⟩ | (constructor <;> split <;> rfl))
    | exact listed_trans hw rfl
    | with_reducible refine same_foldl ?_ (fun s x h => ?_)
    | (intro x'; clear_value x')
    | intro _
    | dsimp only [s']
    | split

theorem same_laneCtlWrite (a0 : ℕ) (a1 : ℕ) (hw : listed [.lane] w = true) (h : Same w a s) :
    Same w a (laneCtlWrite a0 a1 s) := by
  unfold laneCtlWrite
  repeat' first
    | with_reducible assumption
    | (intro (s : State) (h : Same w a s))
    | (intro _ (s : State) (h : Same w a s))
    | (intro (h : Same w a _))
    | (intro (s' : State); refine_lift have h : Same w a s' := ?_; ?_; clear_value s')
    | lift_lets
    | with_reducible apply sameO_next
    | with_reducible apply same_ite
    | with_reducible apply same_laneTrialWrite
    | with_reducible apply same_onLane
    | exact listed_trans hw rfl
    | with_reducible refine same_foldl ?_ (fun s x h => ?_)
    | (intro x'; clear_value x')
    | intro _
    | dsimp only [s']
    | split

theorem same_firctlWrite (a0 : ℕ) (a1 : ℕ) (hw : listed [.lane] w = true) (h : Same w a s) :
    Same w a (firctlWrite a0 a1 s) := by
  unfold firctlWrite
  repeat' first
    | with_reducible assumption
    | (intro (s : State) (h : Same w a s))
    | (intro _ (s : State) (h : Same w a s))
    | (intro (h : Same w a _))
    | (intro (s' : State); refine_lift have h : Same w a s' := ?_; ?_; clear_value s')
    | lift_lets
    | with_reducible apply sameO_next
    | with_reducible apply same_ite
    | with_reducible apply same_onLane
    | exact listed_trans hw rfl
    | with_reducible refine same_foldl ?_ (fun s x h => ?_)
    | (intro x'; clear_value x')
    | intro _
    | dsimp only [s']
    | split

theorem same_laneRegWrite (a0 : ℕ) (a1 : ℕ) (hw : listed [.lane] w = true) (h : Same w a s) :
    Same w a (laneRegWrite a0 a1 s) := by
  unfold laneRegWrite
  repeat' first
    | with_reducible assumption
    | (intro (s : State) (h : Same w a s))
    | (intro _ (s : State) (h : Same w a s))
    | (intro (h : Same w a _))
    | (intro (s' : State); refine_lift have h : Same w a s' := ?_; ?_; clear_value s')
    | lift_lets
    | with_reducible apply sameO_next
    | with_reducible apply same_ite
    | with_reducible apply same_laneCtlWrite
    | with_reducible apply same_laneCalWrite
    | with_reducible apply same_firctlWrite
    | with_reducible apply same_firdataWrite
    | with_reducible apply same_onLane
    | exact listed_trans hw rfl
    | with_reducible refine same_foldl ?_ (fun s x h => ?_)
    | (intro x'; clear_value x')
    | intro _
    | dsimp only [s']
    | split

theorem same_metRegWrite (a0 : ℕ) (a1 : ℕ) (hw : listed [.met] w = true) (h : Same w a s) :
    Same w a (metRegWrite a0 a1 s) := by
  unfold metRegWrite
  repeat' first
    | with_reducible assumption
    | (intro (s : State) (h : Same w a s))
    | (intro _ (s : State) (h : Same w a s))
    | (intro (h : Same w a _))
    | (intro (s' : State); refine_lift have h : Same w a s' := ?_; ?_; clear_value s')
    | lift_lets
    | with_reducible apply sameO_next
    | with_reducible apply same_ite
    | with_reducible apply same_snapctlWrite
    | with_reducible apply same_onMet
    | with_reducible apply same_calctlWrite
    | exact listed_trans hw rfl
    | with_reducible refine same_foldl ?_ (fun s x h => ?_)
    | (intro x'; clear_value x')
    | intro _
    | dsimp only [s']
    | split

theorem same_pwrRegWrite (a0 : ℕ) (a1 : ℕ) (hw : listed [.pwr, .vlk, .log] w = true) (h : Same w a s) :
    Same w a (pwrRegWrite a0 a1 s) := by
  unfold pwrRegWrite
  repeat' first
    | with_reducible assumption
    | (intro (s : State) (h : Same w a s))
    | (intro _ (s : State) (h : Same w a s))
    | (intro (h : Same w a _))
    | (intro (s' : State); refine_lift have h : Same w a s' := ?_; ?_; clear_value s')
    | lift_lets
    | with_reducible apply sameO_next
    | with_reducible apply same_ite
    | with_reducible apply same_settleCh
    | with_reducible apply same_onCh
    | exact listed_trans hw rfl
    | with_reducible refine same_foldl ?_ (fun s x h => ?_)
    | (intro x'; clear_value x')
    | intro _
    | dsimp only [s']
    | split

theorem same_vlkCfgWrite (a0 : ℕ) (a1 : ℕ) (hw : listed [.vlk] w = true) (h : Same w a s) :
    Same w a (vlkCfgWrite a0 a1 s) := by
  unfold vlkCfgWrite
  repeat' first
    | with_reducible assumption
    | (intro (s : State) (h : Same w a s))
    | (intro _ (s : State) (h : Same w a s))
    | (intro (h : Same w a _))
    | (intro (s' : State); refine_lift have h : Same w a s' := ?_; ?_; clear_value s')
    | lift_lets
    | with_reducible apply sameO_next
    | with_reducible apply same_ite
    | with_reducible apply same_onLink
    | exact listed_trans hw rfl
    | with_reducible refine same_foldl ?_ (fun s x h => ?_)
    | (intro x'; clear_value x')
    | intro _
    | dsimp only [s']
    | split

theorem same_ringRegWrite (a0 : Port) (a1 : ℕ) (a2 : ℕ) (hw : listed [portPart a0, .sram] w = true) (h : Same w a s) :
    Same w a (ringRegWrite a0 a1 a2 s) := by
  unfold ringRegWrite
  repeat' first
    | with_reducible assumption
    | (intro (s : State) (h : Same w a s))
    | (intro _ (s : State) (h : Same w a s))
    | (intro (h : Same w a _))
    | (intro (s' : State); refine_lift have h : Same w a s' := ?_; ?_; clear_value s')
    | lift_lets
    | with_reducible apply sameO_next
    | with_reducible apply same_ite
    | with_reducible apply same_onRings
    | with_reducible apply same_txTailWrite
    | with_reducible apply same_rxTailWrite
    | exact listed_trans hw rfl
    | (refine listed_mem hw ?_; simp; done)
    | (cases x <;> exact listed_trans hw rfl)
    | with_reducible refine same_foldl ?_ (fun s x h => ?_)
    | (intro x'; clear_value x')
    | intro _
    | dsimp only [s']
    | split

theorem same_vlkRegWrite (a0 : ℕ) (a1 : ℕ) (hw : listed [.met, .owl, .vlk, .sram] w = true) (h : Same w a s) :
    Same w a (vlkRegWrite a0 a1 s) := by
  unfold vlkRegWrite
  repeat' first
    | with_reducible assumption
    | (intro (s : State) (h : Same w a s))
    | (intro _ (s : State) (h : Same w a s))
    | (intro (h : Same w a _))
    | (intro (s' : State); refine_lift have h : Same w a s' := ?_; ?_; clear_value s')
    | lift_lets
    | with_reducible apply sameO_next
    | with_reducible apply same_ite
    | with_reducible apply same_vlkCfgWrite
    | with_reducible apply same_pilotWrite
    | with_reducible apply same_ringRegWrite
    | exact listed_trans hw rfl
    | (refine listed_mem hw ?_; simp; done)
    | (cases x <;> exact listed_trans hw rfl)
    | with_reducible refine same_foldl ?_ (fun s x h => ?_)
    | (intro x'; clear_value x')
    | intro _
    | dsimp only [s']
    | split

theorem same_glkRegWrite (a0 : ℕ) (a1 : ℕ) (hw : listed [.glk, .eth, .key, .log, .sram] w = true) (h : Same w a s) :
    Same w a (glkRegWrite a0 a1 s) := by
  unfold glkRegWrite
  repeat' first
    | with_reducible assumption
    | (intro (s : State) (h : Same w a s))
    | (intro _ (s : State) (h : Same w a s))
    | (intro (h : Same w a _))
    | (intro (s' : State); refine_lift have h : Same w a s' := ?_; ?_; clear_value s')
    | lift_lets
    | with_reducible apply sameO_next
    | with_reducible apply same_ite
    | with_reducible apply same_glkCfgWrite
    | with_reducible apply same_onGlk
    | with_reducible apply same_ringRegWrite
    | with_reducible apply same_ethCfgWrite
    | with_reducible apply same_mdioWrite
    | exact listed_trans hw rfl
    | (refine listed_mem hw ?_; simp; done)
    | (cases x <;> exact listed_trans hw rfl)
    | with_reducible refine same_foldl ?_ (fun s x h => ?_)
    | (intro x'; clear_value x')
    | intro _
    | dsimp only [s']
    | split

theorem same_timCtlWrite (a0 : ℕ) (hw : listed [.tim] w = true) (h : Same w a s) :
    Same w a (timCtlWrite a0 s) := by
  unfold timCtlWrite
  repeat' first
    | with_reducible assumption
    | (intro (s : State) (h : Same w a s))
    | (intro _ (s : State) (h : Same w a s))
    | (intro (h : Same w a _))
    | (intro (s' : State); refine_lift have h : Same w a s' := ?_; ?_; clear_value s')
    | lift_lets
    | with_reducible apply sameO_next
    | with_reducible apply same_ite
    | with_reducible apply same_onTim
    | exact listed_trans hw rfl
    | with_reducible refine same_foldl ?_ (fun s x h => ?_)
    | (intro x'; clear_value x')
    | intro _
    | dsimp only [s']
    | split

theorem same_ptpStatWrite (a0 : ℕ) (hw : listed [.tim] w = true) (h : Same w a s) :
    Same w a (ptpStatWrite a0 s) := by
  unfold ptpStatWrite
  repeat' first
    | with_reducible assumption
    | (intro (s : State) (h : Same w a s))
    | (intro _ (s : State) (h : Same w a s))
    | (intro (h : Same w a _))
    | (intro (s' : State); refine_lift have h : Same w a s' := ?_; ?_; clear_value s')
    | lift_lets
    | with_reducible apply sameO_next
    | with_reducible apply same_ite
    | with_reducible apply same_onTim
    | with_reducible apply same_timPtpfPop
    | exact listed_trans hw rfl
    | with_reducible refine same_foldl ?_ (fun s x h => ?_)
    | (intro x'; clear_value x')
    | intro _
    | dsimp only [s']
    | split

theorem same_timRegWrite (a0 : ℕ) (a1 : ℕ) (hw : listed [.tim, .log] w = true) (h : Same w a s) :
    Same w a (timRegWrite a0 a1 s) := by
  unfold timRegWrite
  repeat' first
    | with_reducible assumption
    | (intro (s : State) (h : Same w a s))
    | (intro _ (s : State) (h : Same w a s))
    | (intro (h : Same w a _))
    | (intro (s' : State); refine_lift have h : Same w a s' := ?_; ?_; clear_value s')
    | lift_lets
    | with_reducible apply sameO_next
    | with_reducible apply same_ite
    | with_reducible apply same_timCtlWrite
    | with_reducible apply same_onTim
    | with_reducible apply same_timAlarmHiWrite
    | with_reducible apply same_timIncWrite
    | with_reducible apply same_ptpStatWrite
    | exact listed_trans hw rfl
    | with_reducible refine same_foldl ?_ (fun s x h => ?_)
    | (intro x'; clear_value x')
    | intro _
    | dsimp only [s']
    | split

theorem same_tagRegWrite (a0 : ℕ) (a1 : ℕ) (hw : listed [.tag] w = true) (h : Same w a s) :
    Same w a (tagRegWrite a0 a1 s) := by
  unfold tagRegWrite
  repeat' first
    | with_reducible assumption
    | (intro (s : State) (h : Same w a s))
    | (intro _ (s : State) (h : Same w a s))
    | (intro (h : Same w a _))
    | (intro (s' : State); refine_lift have h : Same w a s' := ?_; ?_; clear_value s')
    | lift_lets
    | with_reducible apply sameO_next
    | with_reducible apply same_ite
    | with_reducible apply same_tagCtlWrite
    | with_reducible apply same_onTag
    | with_reducible apply same_rptPop
    | exact listed_trans hw rfl
    | with_reducible refine same_foldl ?_ (fun s x h => ?_)
    | (intro x'; clear_value x')
    | intro _
    | dsimp only [s']
    | split

theorem same_epdRegWrite (a0 : ℕ) (a1 : ℕ) (hw : listed [.epd, .log, .freeCtr] w = true) (h : Same w a s) :
    Same w a (epdRegWrite a0 a1 s) := by
  unfold epdRegWrite
  repeat' first
    | with_reducible assumption
    | (intro (s : State) (h : Same w a s))
    | (intro _ (s : State) (h : Same w a s))
    | (intro (h : Same w a _))
    | (intro (s' : State); refine_lift have h : Same w a s' := ?_; ?_; clear_value s')
    | lift_lets
    | with_reducible apply sameO_next
    | with_reducible apply same_ite
    | with_reducible apply same_epdCtlWrite
    | with_reducible apply same_epdTempWrite
    | with_reducible apply same_ledCtlWrite
    | with_reducible apply same_ledPatWrite
    | exact listed_trans hw rfl
    | with_reducible refine same_foldl ?_ (fun s x h => ?_)
    | (intro x'; clear_value x')
    | intro _
    | dsimp only [s']
    | split

theorem same_updRegWrite (a0 : ℕ) (a1 : ℕ) (hw : listed [.upd] w = true) (h : Same w a s) :
    Same w a (updRegWrite a0 a1 s) := by
  unfold updRegWrite
  repeat' first
    | with_reducible assumption
    | (intro (s : State) (h : Same w a s))
    | (intro _ (s : State) (h : Same w a s))
    | (intro (h : Same w a _))
    | (intro (s' : State); refine_lift have h : Same w a s' := ?_; ?_; clear_value s')
    | lift_lets
    | with_reducible apply sameO_next
    | with_reducible apply same_ite
    | with_reducible apply same_onUpd
    | exact listed_trans hw rfl
    | with_reducible refine same_foldl ?_ (fun s x h => ?_)
    | (intro x'; clear_value x')
    | intro _
    | dsimp only [s']
    | split

theorem same_bellWrite (a0 : Side) (a1 : ℕ) (hw : listed [.sys, .mgt] w = true) (h : Same w a s) :
    Same w a (bellWrite a0 a1 s) := by
  unfold bellWrite
  repeat' first
    | with_reducible assumption
    | (intro (s : State) (h : Same w a s))
    | (intro _ (s : State) (h : Same w a s))
    | (intro (h : Same w a _))
    | (intro (s' : State); refine_lift have h : Same w a s' := ?_; ?_; clear_value s')
    | lift_lets
    | with_reducible apply sameO_next
    | with_reducible apply same_ite
    | (with_reducible refine same_onMgt ?_ ?_ ?_
       rotate_left
       rotate_left
       · intro _; first | exact ⟨rfl, rfl, rfl, rfl⟩ | (refine ⟨?_, ?_, ?_, ?_⟩ <;> split <;> rfl))
    | with_reducible apply same_doorbell
    | exact listed_trans hw rfl
    | with_reducible refine same_foldl ?_ (fun s x h => ?_)
    | (intro x'; clear_value x')
    | intro _
    | dsimp only [s']
    | split

theorem same_windowWrite (a0 : Side) (a1 : ℕ) (a2 : ℕ) (hw : listed [.mgt] w = true) (h : Same w a s) :
    Same w a (windowWrite a0 a1 a2 s) := by
  unfold windowWrite
  repeat' first
    | with_reducible assumption
    | (intro (s : State) (h : Same w a s))
    | (intro _ (s : State) (h : Same w a s))
    | (intro (h : Same w a _))
    | (intro (s' : State); refine_lift have h : Same w a s' := ?_; ?_; clear_value s')
    | lift_lets
    | with_reducible apply sameO_next
    | with_reducible apply same_ite
    | (with_reducible refine same_onMgt ?_ ?_ ?_
       rotate_left
       rotate_left
       · intro _; first | exact ⟨rfl, rfl, rfl, rfl⟩ | (refine ⟨?_, ?_, ?_, ?_⟩ <;> split <;> rfl))
    | exact listed_trans hw rfl
    | with_reducible refine same_foldl ?_ (fun s x h => ?_)
    | (intro x'; clear_value x')
    | intro _
    | dsimp only [s']
    | split

theorem same_mgtRegWrite (a0 : ℕ) (a1 : ℕ) (hw : listed [.sys, .mgt] w = true) (h : Same w a s) :
    Same w a (mgtRegWrite a0 a1 s) := by
  unfold mgtRegWrite
  repeat' first
    | with_reducible assumption
    | (intro (s : State) (h : Same w a s))
    | (intro _ (s : State) (h : Same w a s))
    | (intro (h : Same w a _))
    | (intro (s' : State); refine_lift have h : Same w a s' := ?_; ?_; clear_value s')
    | lift_lets
    | with_reducible apply sameO_next
    | with_reducible apply same_ite
    | with_reducible apply same_heartbeat
    | with_reducible apply same_bellWrite
    | with_reducible apply same_windowWrite
    | exact listed_trans hw rfl
    | with_reducible refine same_foldl ?_ (fun s x h => ?_)
    | (intro x'; clear_value x')
    | intro _
    | dsimp only [s']
    | split

theorem same_ringBlockWrite (a0 : Side) (a1 : ℕ) (a2 : ℕ) (hw : listed [.met, .bil, .vlk, .glk, .tag, .key, .sys, .mgt, .log, .hsi, .can, .sram, .result] w = true) (h : Same w a s) :
    Same w a (ringBlockWrite a0 a1 a2 s) := by
  unfold ringBlockWrite
  repeat' first
    | with_reducible assumption
    | (intro (s : State) (h : Same w a s))
    | (intro _ (s : State) (h : Same w a s))
    | (intro (h : Same w a _))
    | (intro (s' : State); refine_lift have h : Same w a s' := ?_; ?_; clear_value s')
    | lift_lets
    | with_reducible apply sameO_next
    | with_reducible apply same_ite
    | with_reducible apply same_ctailWrite
    | with_reducible apply same_releaseWrite
    | with_reducible apply same_onRing
    | exact listed_trans hw rfl
    | with_reducible refine same_foldl ?_ (fun s x h => ?_)
    | (intro x'; clear_value x')
    | intro _
    | dsimp only [s']
    | split

theorem same_descWrite (a0 : Side) (a1 : ℕ) (a2 : ℕ) (hw : listed [.hsi] w = true) (h : Same w a s) :
    Same w a (descWrite a0 a1 a2 s) := by
  unfold descWrite
  repeat' first
    | with_reducible assumption
    | (intro (s : State) (h : Same w a s))
    | (intro _ (s : State) (h : Same w a s))
    | (intro (h : Same w a _))
    | (intro (s' : State); refine_lift have h : Same w a s' := ?_; ?_; clear_value s')
    | lift_lets
    | with_reducible apply sameO_next
    | with_reducible apply same_ite
    | with_reducible apply same_onRing
    | exact listed_trans hw rfl
    | with_reducible refine same_foldl ?_ (fun s x h => ?_)
    | (intro x'; clear_value x')
    | intro _
    | dsimp only [s']
    | split

theorem same_hsiRegWrite (a0 : Side) (a1 : ℕ) (a2 : ℕ) (hw : listed [.met, .bil, .vlk, .glk, .tag, .key, .sys, .mgt, .log, .hsi, .can, .sram, .result] w = true) (h : Same w a s) :
    Same w a (hsiRegWrite a0 a1 a2 s) := by
  unfold hsiRegWrite
  repeat' first
    | with_reducible assumption
    | (intro (s : State) (h : Same w a s))
    | (intro _ (s : State) (h : Same w a s))
    | (intro (h : Same w a _))
    | (intro (s' : State); refine_lift have h : Same w a s' := ?_; ?_; clear_value s')
    | lift_lets
    | with_reducible apply sameO_next
    | with_reducible apply same_ite
    | with_reducible apply same_onHsi
    | with_reducible apply same_ringBlockWrite
    | with_reducible apply same_descWrite
    | exact listed_trans hw rfl
    | with_reducible refine same_foldl ?_ (fun s x h => ?_)
    | (intro x'; clear_value x')
    | intro _
    | dsimp only [s']
    | split

theorem same_busRegWrite (a0 : ℕ) (a1 : ℕ) (hw : listed [.log, .can, .sram] w = true) (h : Same w a s) :
    Same w a (busRegWrite a0 a1 s) := by
  unfold busRegWrite
  repeat' first
    | with_reducible assumption
    | (intro (s : State) (h : Same w a s))
    | (intro _ (s : State) (h : Same w a s))
    | (intro (h : Same w a _))
    | (intro (s' : State); refine_lift have h : Same w a s' := ?_; ?_; clear_value s')
    | lift_lets
    | with_reducible apply sameO_next
    | with_reducible apply same_ite
    | with_reducible apply same_canCfgWrite
    | with_reducible apply same_canNbtWrite
    | with_reducible apply same_canDbtWrite
    | with_reducible apply same_ringRegWrite
    | with_reducible apply same_canFilterWrite
    | exact listed_trans hw rfl
    | (refine listed_mem hw ?_; simp; done)
    | (cases x <;> exact listed_trans hw rfl)
    | with_reducible refine same_foldl ?_ (fun s x h => ?_)
    | (intro x'; clear_value x')
    | intro _
    | dsimp only [s']
    | split

theorem same_regWrite (a0 : Side) (a1 : ℕ) (a2 : ℕ) (hw : listed [.lane, .met, .bil, .pwr, .owl, .vlk, .glk, .eth, .tim, .tag, .epd, .key, .upd, .sys, .mgt, .log, .hsi, .can, .sram, .freeCtr, .result] w = true) (h : Same w a s) :
    Same w a (regWrite a0 a1 a2 s) := by
  unfold regWrite
  repeat' first
    | with_reducible assumption
    | (intro (s : State) (h : Same w a s))
    | (intro _ (s : State) (h : Same w a s))
    | (intro (h : Same w a _))
    | (intro (s' : State); refine_lift have h : Same w a s' := ?_; ?_; clear_value s')
    | lift_lets
    | with_reducible apply sameO_next
    | with_reducible apply same_ite
    | with_reducible apply same_sysRegWrite
    | with_reducible apply same_laneRegWrite
    | with_reducible apply same_metRegWrite
    | with_reducible apply same_pwrRegWrite
    | with_reducible apply same_vlkRegWrite
    | with_reducible apply same_glkRegWrite
    | with_reducible apply same_timRegWrite
    | with_reducible apply same_tagRegWrite
    | with_reducible apply same_epdRegWrite
    | with_reducible apply same_updRegWrite
    | with_reducible apply same_mgtRegWrite
    | with_reducible apply same_hsiRegWrite
    | with_reducible apply same_busRegWrite
    | exact listed_trans hw rfl
    | with_reducible refine same_foldl ?_ (fun s x h => ?_)
    | (intro x'; clear_value x')
    | intro _
    | dsimp only [s']
    | split

theorem same_regWrites (a0 : Side) (a1 : ℕ) (a2 : List Word) (hw : listed [.lane, .met, .bil, .pwr, .owl, .vlk, .glk, .eth, .tim, .tag, .epd, .key, .upd, .sys, .mgt, .log, .hsi, .can, .sram, .freeCtr, .result] w = true) (h : Same w a s) :
    Same w a (regWrites a0 a1 a2 s) := by
  induction a2 generalizing a1 s with
  | nil => exact h
  | cons x l ih =>
  simp only [regWrites]
  repeat' first
    | with_reducible assumption
    | (intro (s : State) (h : Same w a s))
    | (intro _ (s : State) (h : Same w a s))
    | (intro (h : Same w a _))
    | (intro (s' : State); refine_lift have h : Same w a s' := ?_; ?_; clear_value s')
    | lift_lets
    | with_reducible apply sameO_next
    | with_reducible apply same_ite
    | with_reducible apply same_regWrite
    | with_reducible apply ih
    | exact listed_trans hw rfl
    | with_reducible refine same_foldl ?_ (fun s x h => ?_)
    | (intro x'; clear_value x')
    | intro _
    | dsimp only [s']
    | split

theorem same_execRegisterWrite (a0 : Side) (a1 : ℕ) (a2 : List Word) (hw : listed [.lane, .met, .bil, .pwr, .owl, .vlk, .glk, .eth, .tim, .tag, .epd, .key, .upd, .sys, .mgt, .log, .hsi, .can, .sram, .freeCtr, .result] w = true) (h : Same w a s) :
    SameO w a (execRegisterWrite a0 a1 a2 s) := by
  unfold execRegisterWrite
  repeat' first
    | with_reducible assumption
    | (intro (s : State) (h : Same w a s))
    | (intro _ (s : State) (h : Same w a s))
    | (intro (h : Same w a _))
    | (intro (s' : State); refine_lift have h : Same w a s' := ?_; ?_; clear_value s')
    | lift_lets
    | with_reducible apply sameO_next
    | with_reducible apply same_ite
    | with_reducible apply sameO_ite
    | with_reducible apply same_regWrites
    | exact listed_trans hw rfl
    | with_reducible refine same_foldl ?_ (fun s x h => ?_)
    | (intro x'; clear_value x')
    | intro _
    | dsimp only [s']
    | split

end Sys2Proof.Machine
end

