-- ==== Sys2Proof/Machine/Readout.lean ====
section
/-! DEFINITION. Register reads (R12, R13, R45, R46, R79, R119, R152, R180, R211, R240, R256, R273, R299, R319, R345, R362, R383,
R393, R401, R403, R404, R410, R427, R446): the word that each register of the register space gives in a view, formed from the
state, and what a read of it changes. A register that has a read row of its own acts by that row; what is absent, write-only
or reserved reads 0. The remaining seconds of a running time are shown rounded up, and a nanosecond value of a finer counter
rounded down (log 6). -/

namespace Sys2Proof.Machine

/-! ## Words -/

/-- A field of a register: `v` in bits [hi:lo]. -/
def fld (hi lo v : Nat) : Nat := v % 2 ^ (hi - lo + 1) * 2 ^ lo

/-- A signed field. -/
def sfld (hi lo : Nat) (v : Int) : Nat := unsignedOf (hi - lo + 1) v * 2 ^ lo

/-- One bit per outlet. -/
def outBits (f : Nat → Bool) : Nat := (List.range 4).foldl (fun m o => m + flagAt (f o) o) 0

/-- Four 8-bit counters, the first in [31:24]. -/
def counts (a b c d : Nat) : Nat := fld 31 24 a + fld 23 16 b + fld 15 8 c + fld 7 0 d

/-- Seconds that remain until a tick, rounded up. -/
def secsLeft (s : State) (t : Nat) : Nat := (t - s.ticks + 122879999) / 122880000

/-- The HI word latched for a register in a view, or the present one. -/
def hiWord {α : Type} [BEq α] (view : Side) (reg : α) (l : List (Option (α × Nat))) (v : Nat) : Nat :=
  match l.getD (sideIx view) none with
  | some (r, w) => if r == reg then w else v / 2 ^ 32 % 2 ^ 32
  | none => v / 2 ^ 32 % 2 ^ 32

/-- A HI register's latch ends as it is read (R94). -/
def unlatchHi {α : Type} [BEq α] (view : Side) (reg : α) (l : List (Option (α × Nat))) : List (Option (α × Nat)) :=
  match l.getD (sideIx view) none with
  | some (r, _) => if r == reg then put l (sideIx view) none else l
  | none => l

/-! ## SYS (R383, R427) -/

def sysReg (a : Nat) (s : State) : Nat :=
  let b := s.sys
  if a = 0x04 then b.rstCause
  else if a = 0x0C then fld 14 0 b.warnMv
  else if a = 0x10 then
    flagAt b.badgerDown 11 + flagAt b.appDown 10 + flagAt b.entry.isSome 9 + flagAt b.holdup 8 + fld 2 0 b.mode.code
  else if a = 0x14 then
    fld 31 18 b.sleep.mask + flagAt b.sleep.wake 17 + fld 15 14 b.sleep.target + fld 13 11 b.sleep.point + fld 7 0 b.sleep.rc
  else if a = 0x1C then fld 6 0 b.wakeSrc
  else if a = 0x20 then holdLastWord b.holdLast
  else if a = 0x24 then counts b.domOwl b.domMet b.domBadger b.domApp
  else 0

/-! ## STR (R46) -/

/-- STR_LANEn: 0 without a LANE record; a fused lane shows ROLE 3 alone (R2, R44). -/
def strLane (n : Nat) (s : State) : Nat :=
  if s.ident.small ∧ 22 ≤ n then fld 13 12 3
  else match laneRec s n with
    | some r =>
      fld 31 24 (if r.role = 0 then n else carrier s n) + fld 23 20 r.fir + fld 17 16 (r.cic - 2) + fld 13 12 r.role
        + fld 11 8 r.qty + fld 5 4 r.group + fld 1 0 r.outlet
    | none => 0

/-- STR_OUTLETn. -/
def strOutlet (o : Nat) (s : State) : Nat := match outletRec s o with
  | some r =>
    fld 15 14 (limpMode s o) + fld 11 8 (contactorMask s.str.cur o) + flagAt r.unbilled 7 + fld 6 5 r.groups + fld 3 2 r.kind
  | none => 0

def strReg (a : Nat) (s : State) : Nat :=
  let b := s.str
  if a = 0x00 then
    fld 23 16 b.lastRc + fld 11 8 (outletMask s) + flagAt b.act.isSome 5 + flagAt b.noStruct 4 + fld 3 2 b.copyInUse
      + flagAt b.fallback 1 + flagAt b.locked 0
  else if a = 0x04 then fld 23 16 b.actReason + fld 15 8 b.bReason + fld 7 0 b.aReason
  else if a = 0x08 then fld 31 0 b.cur.seq
  else if a = 0x0C then fld 31 0 b.sealCnt
  else if a = 0x10 then fld 31 0 b.cur.sealVer
  else if a = 0x14 then fld 31 0 b.cur.safeVer
  else if a = 0x18 then fld 31 0 b.cur.openVer
  else if 0x100 ≤ a ∧ a < 0x1A0 then strLane ((a - 0x100) / 4) s
  else if 0x200 ≤ a ∧ a < 0x210 then strOutlet ((a - 0x200) / 4) s
  else if 0x220 ≤ a ∧ a < 0x230 then fld 16 0 (limpCurrent s ((a - 0x220) / 4))
  else 0

/-! ## LANE (R79) -/

/-- LANEn_STAT.HEALTH; a lane without a LANE record reads 0 (R44). -/
def Health.code : Health → Nat
  | .good => 0 | .suspect => 1 | .swapped => 2 | .failed => 3 | .idle => 4 | .warming => 5 | .serving => 6 | .off => 7
  | .fused => 8 | .absent => 0

/-- The declared spares in ascending lane number (LANE_SPARE). -/
def spareLanes (s : State) : List Nat := (List.range 40).filter fun n => laneRole s n == 2

/-- A slot of LANE_SPARE: the lane warmed for or served; 0xFD FAILED, 0xFE IDLE, 0xFF not declared. -/
def spareSlot (k : Nat) (s : State) : Nat := match (spareLanes s)[k]? with
  | some n => match (laneOf s n).health with
    | .failed => 0xFD
    | .warming => ((s.lane.warm.find? (·.spare == n)).map (·.lane)).getD 0xFE
    | .serving => functionOf s n
    | _ => if functionOf s n = n then 0xFE else functionOf s n
  | none => 0xFF

/-- A detector's word. -/
def detWord (isOver : Bool) (mag : Nat) : Nat := flagAt isOver 24 + fld 23 0 mag

/-- The registers of a lane, `r` within them; those of an absent lane read 0, but for HEALTH of an OFF or fused one. -/
def laneReg (n r : Nat) (s : State) : Nat :=
  let l := laneOf s n
  if l.health = .absent then 0
  else if l.health = .off ∨ l.health = .fused then (if r = 0 then l.health.code else 0)
  else if r = 0x00 then
    fld 31 24 l.partner + fld 19 16 l.stage + flagAt l.trial 11 + flagAt l.bankB 10 + flagAt l.overload 9 + flagAt l.stuck 8
      + flagAt l.clkerr 4 + l.health.code
  else if r = 0x04 then fld 31 16 l.envDecay + flagAt l.trial 0
  else if r = 0x08 then fld 23 0 l.gain
  else if r = 0x0C then fld 12 0 l.delay
  else if r = 0x10 then laneLatency l
  else if r = 0x14 then fld 13 8 l.firIndex + flagAt l.crcErr 3 + flagAt l.swap 1 + flagAt l.bankB 0
  else if r = 0x1C then fld 31 0 l.firCrc
  else if r = 0x20 then fld 25 24 l.seq + sfld 23 0 l.sample.val
  else if r = 0x24 then detWord l.peakOver l.peak
  else if r = 0x28 then detWord l.rmsOver l.rms
  else if r = 0x2C then detWord l.envOver l.env
  else if r = 0x30 then fld 15 0 l.detGen
  else if r = 0x34 then fld 31 16 l.chkErr + fld 15 8 l.ovld + fld 1 0 l.strikes
  else 0

/-- LANE_RSo; an absent outlet's read 0. -/
def rsReg (o r : Nat) (s : State) : Nat :=
  let x := s.lane.rs.getD o Resampler.fresh
  if declared s o = false then 0
  else if r = 0 then fld 15 8 (refLane s o) + x.state.code
  else if r = 4 then fld 31 0 x.freq
  else if r = 8 then fld 31 0 x.cycles
  else 0

def laneSpaceReg (a : Nat) (s : State) : Nat :=
  if a < 0x5000 then laneReg (a / 0x200) (a % 0x200) s
  else if 0x8000 ≤ a ∧ a < 0x8040 then rsReg ((a - 0x8000) / 0x10) (a % 0x10) s
  else if a = 0x9000 then counts (spareSlot 3 s) (spareSlot 2 s) (spareSlot 1 s) (spareSlot 0 s)
  else 0

/-! ## MET (R119) -/

/-- The slot of the newest valid save, MET_SAVESTAT.SLOT. -/
def saveSlot (s : State) : Nat := match newestSave s with
  | some r => if (s.met.slots.getD 1 none).any (·.seq == r.seq) then 1 else 0
  | none => 0

/-- Registers of outlet `o` behind its energy pairs, from 0x50. -/
def metOutReg (o r : Nat) (view : Side) (s : State) : Nat :=
  let x := metOutOf s o
  let c := counters s
  if declared s o = false then 0
  else if r = 0x50 then
    flagAt (unbilled s o) 7 + flagAt x.harmInvalid 6 + fld 5 4 x.quadrant + flagAt x.exporting 3 + flagAt x.creep 2
      + flagAt x.estimated 1 + flagAt x.nometer 0
  else if r = 0x54 then sfld 31 0 x.pMw
  else if r = 0x58 then sfld 31 0 x.qMvar
  else if r = 0x5C then fld 31 0 (at0 c.est o)
  else if r = 0x60 then fld 31 0 (at0 c.unmetered o)
  else if r = 0x64 then calValue s o false % 2 ^ 32
  else if r = 0x68 then hiWord view (.cal o false) s.met.latch (calValue s o false)
  else if r = 0x6C then calValue s o true % 2 ^ 32
  else if r = 0x70 then hiWord view (.cal o true) s.met.latch (calValue s o true)
  else 0

/-- An energy register: LO at `r` a multiple of 8, HI above it. -/
def metEnergyReg (o r : Nat) (view : Side) (s : State) : Nat :=
  let v := energyValue s o (r / 8)
  if r % 8 = 0 then v % 2 ^ 32 else if r % 8 = 4 then hiWord view (.energy o (r / 8)) s.met.latch v else 0

def metReg (a : Nat) (view : Side) (s : State) : Nat :=
  let b := s.met
  if a = 0x00 then
    fld 15 12 (outBits (outletTrial s)) + fld 11 8 (outBits fun o => (metOutOf s o).nometer) + flagAt b.storeFault 3
      + flagAt b.saving.isSome 2 + flagAt b.run 0
  else if a = 0x04 then
    (match newestSave s with
      | some r => fld 31 8 r.seq + fld 7 5 r.kind
      | none => 0) + flagAt b.fallback 3 + fld 1 1 (saveSlot s) + flagAt b.saving.isSome 0
  else if a = 0x08 then flagAt b.snapTake 8 + fld 3 0 b.snapOutlets
  else if a = 0x0C then fld 15 8 b.snapRc + fld 7 4 b.snapQueue.length + flagAt b.snapTake 0
  else if a = 0x10 then fld 9 8 b.harmOutlet + fld 5 0 b.harmOrder
  else if a = 0x14 then harmValue s % 2 ^ 32
  else if a = 0x18 then hiWord view .harm b.latch (harmValue s)
  else if a = 0x1C then fld 23 8 b.calCycles + fld 3 2 b.calOutlet + flagAt b.calStop 1 + flagAt b.calStart 0
  else if a = 0x20 then fld 31 16 b.calDone + fld 15 8 b.calRc + flagAt b.calDoneFlag 1 + flagAt b.calRun 0
  else if a = 0x24 then fld 31 0 b.snapGen
  else if 0x40 ≤ a ∧ a < 0x50 then
    let p := (a - 0x40) / 4
    let x := b.pulses.getD p Pulse.fresh
    fld 15 8 x.backlog + flagAt x.ovf 2 + flagAt (s.str.cur.meters.any fun m => m.pulse == p) 1 + flagAt (x.phase == .high) 0
  else if 0x100 ≤ a ∧ a < 0x500 then
    (if a % 0x100 < 0x50 then metEnergyReg ((a - 0x100) / 0x100) (a % 0x100) view s
     else metOutReg ((a - 0x100) / 0x100) (a % 0x100) view s)
  else if 0x1000 ≤ a ∧ a < 0x2000 then leAt (a - 0x1000) 4 b.snapWin
  else 0

/-! ## BIL (R152) -/

/-- BIL_STATUS's slot code. -/
def slotCode : Option Nat → Nat
  | some k => k
  | none => 3

/-- BIL_OUTo_DSTAT: METHOD, FULL of the sliding window, and the flags of the interval in progress and of the last value. -/
def demandStat (x : BilOutlet) (s : State) : Nat :=
  let m := ((activeCal s).map (·.method)).getD 0
  fld 7 6 m + flagAt (m == 2 && !x.demand.notFull) 5 + flagAt x.demand.outage 4 + flagAt x.demand.irregular 3
    + flagAt x.dlastOut 2 + flagAt x.dlastIrr 1

/-- Registers of outlet `o` from 0x1000 + 0x200 × o. -/
def bilOutReg (o r : Nat) (view : Side) (s : State) : Nat :=
  let x := bilOutOf s o
  let pair (reg : BilLo) (hi : Bool) : Nat :=
    if hi then hiWord view reg s.bil.latch (bilPair s reg) else bilPair s reg % 2 ^ 32
  let t := (r - 0x100) / 0x10
  if declared s o = false then 0
  else if r < 0x40 then pair (.timp o (r / 8 + 1)) (r % 8 == 4)
  else if r < 0x80 then pair (.texp o ((r - 0x40) / 8 + 1)) (r % 8 == 4)
  else if r = 0x80 then demandStat x s
  else if r = 0x84 then fld 31 0 x.dlast
  else if r = 0x88 then fld 31 0 (at0 x.demand.subE x.demand.subIndex)
  else if 0x100 ≤ r ∧ r < 0x180 then
    (if r % 0x10 = 0 then fld 31 0 (x.md.getD t (0, 0)).1
     else if r % 0x10 = 4 then pair (.mdTs o (t + 1)) false
     else if r % 0x10 = 8 then pair (.mdTs o (t + 1)) true
     else 0)
  else 0

/-- BIL_STATUS. A boundary is held while a calendar is in force and NOW has not passed LAST_BOUNDARY. -/
def bilStatus (s : State) : Nat :=
  let k := billCtl s
  fld 11 8 (prepayMask s) + flagAt s.bil.exhausted 7 + flagAt (!timeValid s && (k.activeSlot.isSome || k.passiveSlot.isSome)) 6
    + flagAt (timeValid s && decide (nowTs s ≤ k.lastBoundary) && (k.activeSlot.isSome || k.passiveSlot.isSome)) 5
    + flagAt (s.bil.journal.any (·.pending)) 4 + fld 3 2 (slotCode k.passiveSlot) + fld 1 0 (slotCode k.activeSlot)

/-- BIL_TARIFF. -/
def bilTariff (s : State) : Nat :=
  let t (o : Nat) : Nat := if declared s o then (bilOutOf s o).tariff else 0
  fld 26 22 s.bil.dayProf + fld 21 18 s.bil.season + flagAt s.bil.special 17 + flagAt s.bil.dst 16 + fld 15 12 (t 3)
    + fld 11 8 (t 2) + fld 7 4 (t 1) + fld 3 0 (t 0)

def bilReg (a : Nat) (view : Side) (s : State) : Nat :=
  let k := billCtl s
  let pair (reg : BilLo) (hi : Bool) : Nat :=
    if hi then hiWord view reg s.bil.latch (bilPair s reg) else bilPair s reg % 2 ^ 32
  if a = 0x00 then bilStatus s
  else if a = 0x04 then fld 31 0 k.activeSeq
  else if a = 0x08 then fld 31 0 k.passiveSeq
  else if a = 0x0C ∨ a = 0x10 then pair .passAct (a == 0x10)
  else if a = 0x14 ∨ a = 0x18 then pair .lastBnd (a == 0x18)
  else if a = 0x1C then fld 31 0 k.period
  else if a = 0x20 then fld 15 8 s.bil.calReason + fld 7 0 s.bil.calRc
  else if a = 0x24 then bilTariff s
  else if a = 0x28 ∨ a = 0x2C then pair .credit (a == 0x2C)
  else if a = 0x30 then fld 15 8 s.bil.tokRc + fld 7 4 s.bil.tokReason + flagAt (decoderKey s).isNone 3
  else if a = 0x34 then fld 22 16 (unconfirmed s).length + fld 14 0 s.bil.replay.length
  else if a = 0x38 then fld 23 0 k.tidFloor
  else if a = 0x3C then fld 23 0 (oldestTid s)
  else if 0x1000 ≤ a ∧ a < 0x1800 then bilOutReg ((a - 0x1000) / 0x200) (a % 0x200) view s
  else 0

/-! ## PWR and FLT (R180) -/

/-- PWR_CHn_STAT.ROLE: contactor, or the function of the SWITCH record. -/
def chRole (s : State) (n : Nat) : Nat :=
  if (contactorOutlet s n).isSome then 1 else match switchRec s n with
  | some x => x.func + 1
  | none => 0

def chReg (n r : Nat) (s : State) : Nat :=
  let c := chOf s n
  if chDeclared s n = false then 0
  else if r = 0x00 then flagAt c.ctlOn 0
  else if r = 0x04 then
    fld 23 20 c.retries + fld 19 16 (chRole s n) + flagAt (demand s n) 10 + flagAt c.openOff 9 + flagAt c.openOn 8 + c.state.code
  else if r = 0x08 then sfld 31 0 c.cur
  else if r = 0x0C then sfld 31 0 c.temp
  else if r = 0x10 then fld 31 16 c.overloads + fld 15 8 c.thermal + fld 7 0 c.uvCount
  else 0

/-- PWR_LOCKo_STAT.STATE. -/
def LockState.code : LockState → Nat
  | .none => 0 | .unlocked => 1 | .locking => 2 | .locked => 3 | .unlocking => 4 | .lockFail => 5 | .lockLost => 6 | .lockStuck => 7

def pwrReg (a : Nat) (s : State) : Nat :=
  let b := s.pwr
  if a = 0x00 then
    fld 10 8 ((List.range 3).foldl (fun m g => m + flagAt (flag b.grpUv g) g) 0) + flagAt b.limpLow 5 + flagAt (mapActive s) 4
      + fld 3 0 b.lhIn
  else if 0x10 ≤ a ∧ a < 0x1C then fld 31 0 (at0 b.grpMv ((a - 0x10) / 4))
  else if 0x100 ≤ a ∧ a < 0x280 then chReg ((a - 0x100) / 0x20) (a % 0x20) s
  else if 0x400 ≤ a ∧ a < 0x440 ∧ a % 0x10 = 0 then
    let o := (a - 0x400) / 0x10
    match lockChannel s o with
      | some ch => fld 11 8 ch + flagAt (lockOf s o).fb 7 + (lockOf s o).state.code
      | none => 0
  else 0

/-- FLT_LANEn_LVLk and FLT_RCo_LVLk. -/
def levelWord (l : Option Level) (s : State) : Nat := match l with
  | some l => fld 31 24 l.mask + flagAt l.fast 17 + flagAt true 16 + fld 14 0 (levelCode s l)
  | none => 0

def IsoState.code : IsoState → Nat
  | .off => 0 | .novolt => 1 | .measuring => 2 | .valid => 3 | .unknown => 4

def WeldResult.code : WeldResult → Nat
  | .none => 0 | .isOpen => 1 | .welded => 2 | .inconclusive => 3

/-- FLT_ISOo_STAT.COND: the ISOLATION condition of one of the outlet's relations holds. -/
def isoCond (s : State) (o : Nat) : Bool := s.str.cur.trips.any fun p => p.kind == 5 && p.inst == o && isoTrue s o p.threshold

/-- The registers of an outlet from 0x400 + 0x40 × o: residual current of an AC outlet, isolation of a DC one, weld check. -/
def fltOutReg (o r : Nat) (s : State) : Nat :=
  let x := s.flt.rc.getD o Residual.fresh
  let i := s.flt.iso.getD o Iso.fresh
  let w := s.flt.weld.getD o Weld.fresh
  if declared s o = false then 0
  else if r = 0x00 then
    (if isAc s o then flagAt x.acTrip 5 + flagAt x.dcTrip 4 + flagAt (decide (30000 ≤ x.iac)) 3
      + flagAt (decide (6000 ≤ x.idc.natAbs)) 2 + flagAt true 0 else 0)
  else if r = 0x04 then sfld 31 0 x.idc
  else if r = 0x08 then fld 31 0 x.iac
  else if r = 0x0C ∨ r = 0x10 then levelWord (residualLevels s o)[(r - 0x0C) / 4]? s
  else if r = 0x14 then fld 6 4 i.state.code + flagAt (isoCond s o) 3 + flagAt i.injN 2
  else if r = 0x18 then fld 31 0 i.rp
  else if r = 0x1C then fld 31 0 i.rn
  else if r = 0x20 then fld 31 0 i.riso
  else if r = 0x24 then fld 7 6 w.result.code + flagAt w.postOpen 5 + flagAt (flag (owlCfg s).held o) 4 + fld 1 0 w.inconc
  else 0

def fltReg (a : Nat) (s : State) : Nat :=
  if a = 0x00 then fld 7 0 (tripLatch s)
  else if a = 0x04 then fld 23 16 s.flt.src.inst + fld 9 8 s.flt.src.level + fld 2 0 s.flt.src.kind
  else if 0x100 ≤ a ∧ a < 0x380 then
    let n := (a - 0x100) / 0x10
    (if laneIn s.str.cur n then levelWord (laneLevels s n)[a % 0x10 / 4]? s else 0)
  else if 0x400 ≤ a ∧ a < 0x500 then fltOutReg ((a - 0x400) / 0x40) (a % 0x40) s
  else 0

/-! ## OWL (R211) -/

/-- OWL_EFDc_STAT and OWL_EFDc_SEQ of a connection that is not OFF; its counters always. OWL_EFDc_SEQ of a transmitting one is
0 until its first frame. -/
def efdReg (c r : Nat) (s : State) : Nat :=
  let x := connOf s c
  let k := connRec s c
  if r = 0x04 then counts x.crc x.seqErr x.lost x.timeouts
  else if r = 0x08 then counts x.len x.fmt x.addr x.repeats
  else if x.state = .off then 0
  else if r = 0x00 then fld 27 24 k.mask + fld 23 16 x.safeWord + fld 6 4 k.transport + x.state.code
  else if r = 0x0C then (if x.state = .tx ∧ x.sent = 0 then 0 else fld 31 0 x.lastSeq)
  else 0

/-- OWL_PW. -/
def owlPw (s : State) : Nat :=
  fld 31 20 (((owlCfg s).lockEnd.map (secsLeft s)).getD 0) + fld 19 10 ((s.owl.session.map fun x => secsLeft s x.endTick).getD 0)
    + fld 9 8 ((s.owl.session.map fun x => sideIx x.side + 1).getD 0) + fld 7 0 (min 255 (owlCfg s).fails)

def owlReg (a : Nat) (s : State) : Nat :=
  let b := s.owl
  let o := a / 0x10 % 4
  if a = 0x00 then
    flagAt (safeLine s) 11 + flagAt b.pfail 10 + flagAt b.session.isSome 9 + flagAt (owlCfg s).verifier.isNone 8 + b.state.code
  else if a = 0x04 then
    fld 11 8 (outBits fun o => declared s o && !flag b.unproven o) + fld 7 4 (outBits (flag b.requested))
      + fld 3 0 (outBits (flag b.released))
  else if a = 0x08 then
    counts b.proof.seen b.guardDis ((List.range 8).foldl (fun m i => m + flagAt (guardRec s i).isSome i) 0) b.guardOpen
  else if a = 0x0C then fld 23 16 b.src.inst + fld 15 8 b.src.mask + fld 2 0 b.src.kind
  else if a = 0x10 then fld 11 0 b.diag
  else if a = 0x14 then owlPw s
  else if a = 0x18 then fld 31 0 b.logSeq
  else if 0x100 ≤ a ∧ a < 0x140 ∧ declared s o then
    (if a % 0x10 = 0 then fld 23 8 (at0 b.withhold o) + outletState s o
     else if a % 0x10 = 4 then fld 25 24 (min 3 (autoclr s o)) + fld 8 0 (at0 b.causes o)
     else 0)
  else if 0x200 ≤ a ∧ a < 0x280 then efdReg ((a - 0x200) / 0x10) (a % 0x10) s
  else 0

/-! ## Rings (R240, R256, R410) -/

/-- TXBASE … RXHEAD of a port, from its TXBASE. -/
def ringReg (p : Port) (r : Nat) (s : State) : Nat :=
  let g := ringsOf s p
  if portThere s p = false then 0
  else if r = 0x00 then g.txBase
  else if r = 0x04 then fld 6 0 g.txTail
  else if r = 0x08 then fld 6 0 g.txHead
  else if r = 0x10 then g.rxBase
  else if r = 0x14 then fld 6 0 g.rxTail
  else if r = 0x18 then fld 6 0 g.rxHead
  else 0

/-! ## VLK (R240) -/

def vlkReg (a : Nat) (s : State) : Nat :=
  let o := a / 0x4000
  let r := a % 0x4000
  let l := linkOf s o
  if linked s o = false then 0
  else if r = 0x00 then
    fld 31 28 l.slac.code + fld 27 24 l.sup.code + fld 23 20 l.ppCode + flagAt l.diode 10 + flagAt (pwmOn s o) 9
      + fld 7 4 l.prev.code + fld 3 0 l.cp.code
  else if r = 0x04 then fld 12 8 l.disc + flagAt l.fallback 4 + flagAt l.ventOk 3 + fld 1 0 l.ppMode
  else if r = 0x08 then fld 31 30 l.reqMode + fld 16 0 l.reqCur
  else if r = 0x0C then fld 14 12 (limitInForce s o) + fld 9 0 (dutyInForce s o)
  else if r = 0x10 then sfld 31 16 l.cpHi + sfld 15 0 (if waveform s o = 0 then 0 else l.cpLo)
  else if r = 0x14 then fld 23 20 l.ppCode + fld 19 0 l.ppOhms
  else if r = 0x18 then fld 31 0 l.session
  else if r = 0x1C then
    fld 31 24 l.own + fld 23 16 l.other + fld 15 8 l.sounds + flagAt l.ambig 3 + flagAt l.validated 2 + flagAt l.suppressed 1
  else if r = 0x30 then counts l.rxLong l.rxDrop l.rxDecrypt l.txTimeout
  else if r = 0x34 then counts l.illegal l.fmt l.slacFail l.overdraw
  else if 0x100 ≤ r ∧ r < 0x11C then ringReg (.vlk o) (r - 0x100) s
  else 0

/-! ## GLK and ETH (R256) -/

def ToneState.code : ToneState → Nat
  | .none => 0 | .estimating => 1 | .active => 2 | .robo => 3

/-- GLK_NBINFO of an entry. -/
def nbInfo (n : Neighbour) (s : State) : Nat :=
  flagAt true 31 + flagAt n.cco 30 + fld 29 27 n.tm.code + fld 26 24 n.phase.code
    + fld 15 8 (min 255 ((s.ticks - n.heard) / 122880000)) + fld 7 0 n.tei

/-- GLK_NBLINK of an entry: PBERR in whole percent of the PBs recorded, rounded down (log 6). -/
def nbLink (n : Neighbour) : Nat :=
  fld 31 16 n.rate + fld 15 8 (n.pbFailed.countP id * 100 / max 1 n.pbFailed.length) + fld 7 0 (n.pbResent.countP id)

def glkReg (a : Nat) (s : State) : Nat :=
  let b := s.glk
  let nb := b.nbs[b.nbSel]?
  let ofNb (f : Neighbour → Nat) : Nat := (nb.map f).getD 0
  if blockBit s 4 = false then 0
  else if a = 0x00 then
    fld 31 28 b.assoc.code + fld 24 16 b.nbs.length + fld 15 10 (b.nbs.countP fun n => n.tm == .active)
      + fld 9 8 (backhaulInUse s) + flagAt b.wakeArmed 3 + flagAt b.wakeInhibit 2 + flagAt b.sync 1 + flagAt (glkOn s) 0
  else if a = 0x04 then
    fld 31 20 b.lifetime + fld 19 14 b.zcLane + fld 12 8 b.nmkSlot + fld 5 4 b.backhaul + flagAt b.en 0
  else if a = 0x08 then fld 31 24 b.ccoTei + fld 15 8 b.nekGen + fld 7 0 b.tei
  else if a = 0x0C then fld 31 16 (if b.sync then b.period else 0) + fld 15 0 ((ownOffset s).getD 0xFFFF)
  else if a = 0x10 then fld 7 0 b.nbSel
  else if a = 0x14 then ofNb fun n => nbInfo n s
  else if a = 0x18 then ofNb nbLink
  else if a = 0x1C then ofNb fun n => fld 31 0 n.mac
  else if a = 0x20 then ofNb fun n => fld 15 0 (n.mac / 2 ^ 32)
  else if a = 0x24 then fld 31 0 b.wakeSeq
  else if a = 0x30 then counts b.rxLong b.rxDrop b.rxDecrypt b.txTimeout
  else if a = 0x34 then counts b.lostCnt b.fmt b.wakeCnt b.wakeRej
  else if 0x100 ≤ a ∧ a < 0x11C then ringReg .glk (a - 0x100) s
  else 0

def ethReg (a : Nat) (s : State) : Nat :=
  let b := s.eth
  if blockBit s 5 = false then 0
  else if a = 0x00 then
    flagAt b.failover 5 + flagAt b.duplex 3 + flagAt b.speed 2 + flagAt b.link 1 + flagAt b.en 0
  else if a = 0x04 then fld 12 8 b.phyAddr + flagAt b.refclk 1 + flagAt b.en 0
  else if a = 0x08 then flagAt b.go 31 + flagAt b.wr 30 + fld 25 21 b.addr + fld 20 16 b.reg + fld 15 0 b.data
  else if a = 0x30 then counts b.fcsErr b.rxLong b.rxDrop b.txTimeout
  else if 0x100 ≤ a ∧ a < 0x11C then ringReg .eth (a - 0x100) s
  else 0

/-! ## TIM (R273) -/

/-- A register of domain `d`. -/
def domReg (d r : Nat) (view : Side) (s : State) : Nat :=
  let x := domOf s d
  let ts := tsOfNs (x.t / 2 ^ 28)
  if r = 0x00 then fld 15 8 x.steps + flagAt (s.tim.sel == d) 3 + flagAt (x.slew != 0) 2 + x.state.code
  else if r = 0x04 then fld 31 0 x.inc
  else if r = 0x08 then ts % 2 ^ 32
  else if r = 0x0C then hiWord view d s.tim.latchDom ts
  else if r = 0x10 then sfld 31 0 (satSigned 32 x.ofs)
  else if r = 0x14 then sfld 31 0 (x.slew / 2 ^ 28)
  else 0

/-- The set of TIM_NOW_LO in a view: latched, or the present one. -/
def nowSet (view : Side) (s : State) : NowLatch := (s.tim.latchNow.getD (sideIx view) none).getD
  { hi := counterForm s (nowNs s) / 2 ^ 32 % 2 ^ 32, ts := nowTs s, now32 := s.tim.now32 / 2 ^ 28 % 2 ^ 32 }

/-- HI word, beacon timestamp and GEN of the last beacon in a view. -/
def beaconSet (view : Side) (s : State) : Nat × Nat × Nat :=
  (s.tim.latchBcn.getD (sideIx view) none).getD (s.tim.bcnTs / 2 ^ 32 % 2 ^ 32, s.tim.bcnBts, s.tim.bcnGen)

def timReg (a : Nat) (view : Side) (s : State) : Nat :=
  let b := s.tim
  let head (f : PtpCapture → Nat) : Nat := (b.ptp.head?.map f).getD 0
  if a = 0x00 then timStatus s
  else if a = 0x04 then fld 31 15 b.holdover + flagAt b.auto 0
  else if a = 0x08 then fld 31 0 b.stepGen
  else if a = 0x0C then sfld 31 16 b.rtcErr + flagAt b.rtcCal 1 + flagAt b.rtcLost 0
  else if a = 0x10 then counterForm s (nowNs s) % 2 ^ 32
  else if a = 0x14 then (nowSet view s).hi
  else if a = 0x18 then (nowSet view s).ts % 2 ^ 32
  else if a = 0x1C then (nowSet view s).ts / 2 ^ 32 % 2 ^ 32
  else if a = 0x20 then (nowSet view s).now32
  else if a = 0x28 then fld 31 0 b.alarmS
  else if a = 0x2C then flagAt b.alarmEn 31 + fld 1 0 (b.alarmS / 2 ^ 32)
  else if 0x100 ≤ a ∧ a < 0x140 then domReg ((a - 0x100) / 0x20) (a % 0x20) view s
  else if a = 0x200 then b.bcnTs % 2 ^ 32
  else if a = 0x204 then (beaconSet view s).1
  else if a = 0x208 then fld 31 0 (beaconSet view s).2.1
  else if a = 0x20C then fld 31 0 (beaconSet view s).2.2
  else if a = 0x300 then flagAt b.ptpOvf 8 + fld 4 0 b.ptp.length
  else if a = 0x304 then head fun x => x.ts % 2 ^ 32
  else if a = 0x308 then head fun x => x.ts / 2 ^ 32 % 2 ^ 32
  else if a = 0x30C then head fun x => fld 31 16 x.seqId + fld 15 8 x.domain + fld 7 4 x.msgType + flagAt x.tx 0
  else 0

/-! ## TAG (R299) -/

/-- A word of TAG_CT_WIN: 0 in a block whose check fails. -/
def ctWinWord (off : Nat) (s : State) : Nat := match s.tag.ct[off / 0x20]? with
  | some b => if b.ok then leAt (off % 0x20) 4 b.data else 0
  | none => 0

/-- The reader's registers. -/
def readerReg (a : Nat) (s : State) : Nat :=
  let b := s.tag
  if a = 0x00 then tagStatus s
  else if a = 0x04 then
    fld 31 21 b.hold + fld 20 11 b.poll + fld 10 7 b.detThr + flagAt b.techV 3 + flagAt b.techB 2 + flagAt b.techA 1 + flagAt b.en 0
  else if a = 0x08 then fld 31 16 (baseShown b.base) + fld 15 0 b.last
  else if a = 0x0C then counts b.coll b.rxErr b.timeouts b.falseDet
  else if a = 0x10 then
    flagAt b.mirrorPend 31 + fld 30 16 (b.cache.countP fun e => entryValid e.2) + fld 15 8 b.chkErr
  else if a = 0x14 then flagAt b.rptOvf 8 + fld 4 0 b.reports.length
  else if 0x20 ≤ a ∧ a < 0x40 then leAt (a - 0x20) 4 (b.reports.headD [])
  else 0

def tagReg (a : Nat) (s : State) : Nat :=
  let b := s.tag
  if a < 0x100 then (if readerThere s then readerReg a s else 0)
  else if a = 0x100 then
    fld 31 24 b.fails + fld 15 8 b.lastErr + flagAt b.adopted 7 + flagAt b.writing 6 + flagAt b.field 5 + flagAt b.harv 4
      + b.ctState.code
  else if a = 0x104 then counts b.ctWrites b.ctTorn b.ctAuthFail b.ctRxErr
  else if a = 0x108 then fld 31 0 b.adoptSeq
  else if 0x8000 ≤ a ∧ a < 0xA000 then ctWinWord (a - 0x8000) s
  else if 0xA000 ≤ a ∧ a < 0xC000 then leAt (a - 0xA000) 4 b.adoptWin
  else 0

/-! ## EPD (R319) -/

/-- EPD_REGr_STAT. -/
def epdRegion (r : Nat) (s : State) : Nat := match regionRec s r with
  | some x =>
    let fl := x.segs.countP fun n => (segOf s n).flying
    let pe := x.segs.countP fun n => (segOf s n).pend.isSome
    fld 23 16 fl + fld 15 8 pe + flagAt (r == 15) 2 + flagAt (decide (0 < fl + pe)) 1 + flagAt true 0
  | none => 0

/-- A segment is named by a region. -/
def segDeclared (s : State) (n : Nat) : Bool := s.str.cur.regions.any fun r => r.segs.contains n

/-- EPD_PIXk: 0 for an UNKNOWN or undeclared segment. -/
def epdPix (k : Nat) (s : State) : Nat :=
  (List.range 16).foldl (fun m j =>
    m + (if segDeclared s (16 * k + j) then ((segOf s (16 * k + j)).state.getD 0) * 2 ^ (2 * j) else 0)) 0

/-- EPD_UNKk. -/
def epdUnk (k : Nat) (s : State) : Nat :=
  (List.range 32).foldl (fun m j => m + flagAt (segOf s (32 * k + j)).state.isNone j) 0

/-- The registers of an LED channel; a hardware channel shows the pattern, step time and DIM in force (R317; DEDUCED, log 19). -/
def ledReg (n r : Nat) (s : State) : Nat :=
  let l := ledOf s n
  let p := ledPattern s n
  match ledRec s n with
  | none => 0
  | some x =>
    if r = 0 then fld 23 16 (if ledHw s n then 255 else l.dim) + fld 13 8 x.ma + fld 5 4 p.2 + flagAt (ledHw s n) 0
    else if r = 4 then fld 31 0 p.1
    else if r = 8 then fld 7 3 (at0 s.epd.ledStep p.2) + flagAt l.isOpen 2 + flagAt l.overTemp 1 + flagAt (ledLit s n) 0
    else 0

def epdReg (a : Nat) (s : State) : Nat :=
  let b := s.epd
  let tbl (f : Bytes → Nat) : Nat := (b.table.map f).getD 0
  if 0x1000 ≤ a ∧ a < 0x10C0 then ledReg ((a - 0x1000) / 0x10) (a % 0x10) s
  else if epdThere s = false then 0
  else if a = 0x00 then
    fld 23 16 (flyingCount s) + flagAt b.recovery 11 + flagAt b.crack 10 + flagAt b.tempRange 9 + flagAt b.table.isSome 8
      + fld 7 4 b.band + flagAt b.tablePend.isSome 3 + flagAt b.stopped 2 + flagAt (b.run && framesRun s) 1 + flagAt (b.on && s.sys.mode != .watch && s.sys.mode != .dormant) 0
  else if a = 0x04 then fld 23 16 b.legalDwell + flagAt b.tsrc 1 + flagAt b.en 0
  else if a = 0x08 then flagAt (tempFresh s) 31 + sfld 15 0 b.temp
  else if a = 0x0C then tbl fun t => fld 31 16 (tblVh t) + fld 15 8 (tblHz t) + fld 7 4 (tblBands t) + fld 3 0 (tblStates t)
  else if a = 0x10 then tbl tblVersion
  else if a = 0x14 then counts b.stops b.recoveries b.tempRef b.superseded
  else if a = 0x18 then flagAt b.crackShort 17 + flagAt b.crackOpen 16 + fld 15 0 b.crackOhms
  else if 0x100 ≤ a ∧ a < 0x140 then epdRegion ((a - 0x100) / 4) s
  else if 0x200 ≤ a ∧ a < 0x228 then epdPix ((a - 0x200) / 4) s
  else if 0x280 ≤ a ∧ a < 0x294 then epdUnk ((a - 0x280) / 4) s
  else 0

/-! ## KEY (R345) -/

/-- KEY_SLOTn. -/
def keySlotWord (n : Nat) (s : State) : Nat :=
  let k := slotOf s n
  fld 31 16 k.usage + fld 15 12 k.ktype + fld 11 9 (if n < 3 then 0 else k.cls) + flagAt k.derived 8 + flagAt k.loaded 0

def keyReg (a : Nat) (view : Side) (s : State) : Nat :=
  let b := s.key
  if a = 0x00 then keyStatus s
  else if a = 0x04 then flagAt b.retiredFuse 17 + flagAt b.leftBlank 16 + fld 10 8 b.lc.cls + fld 2 0 b.lc.code
  else if a = 0x08 then s.ident.deviceId % 2 ^ 32
  else if a = 0x0C then s.ident.deviceId / 2 ^ 32 % 2 ^ 32
  else if a = 0x10 then b.counter % 2 ^ 32
  else if a = 0x14 then (b.latchCnt.getD (sideIx view) none).getD (b.counter / 2 ^ 32 % 2 ^ 32)
  else if a = 0x18 then slotMap s
  else if a = 0x1C then fld 22 16 b.latched + fld 6 0 b.active
  else if a = 0x20 then fld 31 0 b.tampCnt
  else if a = 0x24 then
    fld 31 12 ((b.grant.map fun g => min 0xFFFFF g.seconds).getD 0) + fld 11 2 ((b.authority.map fun x => secsLeft s x.2).getD 0)
      + fld 1 0 ((b.authority.map fun x => sideIx x.1 + 1).getD 0)
  else if 0x100 ≤ a ∧ a < 0x180 then keySlotWord ((a - 0x100) / 4) s
  else 0

/-! ## UPD (R362) -/

def BankState.code : BankState → Nat
  | .empty => 0 | .receiving => 1 | .staged => 2 | .trial => 3 | .active => 4 | .previous => 5 | .failed => 6

/-- The registers of kind `k`. -/
def kindReg (k r : Nat) (s : State) : Nat :=
  let x := kindOf s k
  if k = 0 ∨ 10 < k then 0
  else if r = 0x00 then fld 11 8 x.b.state.code + fld 7 4 x.a.state.code + flagAt x.activeB 0
  else if r = 0x04 then fld 31 0 (if x.activeB then x.b else x.a).version
  else if r = 0x08 then
    let y := if x.activeB then x.a else x.b
    (if y.state = .empty then 0 else fld 31 0 y.version)
  else if r = 0x0C then fld 31 0 x.floor
  else 0

def updReg (a : Nat) (s : State) : Nat :=
  let b := s.upd
  if a = 0x00 then
    fld 23 16 b.lastRc + fld 15 12 ((b.xfer.map (·.kind)).getD 0) + flagAt b.trial.isSome 3 + flagAt b.actBusy 2
      + flagAt b.xfer.isSome 1 + flagAt (updateKey s).isSome 0
  else if a = 0x04 then fld 15 8 b.rejectRow + fld 7 0 b.rejectRc
  else if a = 0x08 then fld 31 0 ((b.xfer.map (·.data.length)).getD 0)
  else if a = 0x0C then (b.trial.map fun t => fld 15 14 t.starts + fld 13 10 t.kind + fld 9 0 t.seconds).getD 0
  else if a = 0x10 then fld 4 0 b.keySlot
  else if 0x100 ≤ a ∧ a < 0x1B0 then kindReg ((a - 0x100) / 0x10) (a % 0x10) s
  else 0

/-! ## MGT (R383) -/

/-- A doorbell register. -/
def bellWord (m : Mailbox) : Nat := flagAt m.outBell 1 + flagAt m.inBell 0

def mgtReg (a : Nat) (s : State) : Nat :=
  let b := s.mgt
  let recent (l : List Nat) : Nat := min 3 (lastHour s l).length
  if a = 0x00 then
    fld 31 24 b.mbxOvf + fld 19 18 (recent b.wdtTicks) + fld 17 16 (recent b.appTicks) + flagAt b.vbatLow 7 + flagAt b.lfRc 6
      + fld 2 0 b.therm
  else if a = 0x04 then fld 9 0 b.supWarn
  else if a = 0x08 then fld 31 0 b.seq
  else if a = 0x0C then fld 31 0 b.ack
  else if a = 0x10 then fld 31 16 b.legalLost + fld 15 8 b.dropped + fld 7 0 b.crcErr
  else if a = 0x14 then counts b.entered b.refused b.abandoned b.qLost
  else if 0x20 ≤ a ∧ a < 0x38 then sfld 31 0 (b.temps.getD ((a - 0x20) / 4) 0)
  else if 0x40 ≤ a ∧ a < 0x68 then fld 31 0 (at0 b.sups ((a - 0x40) / 4))
  else if a = 0x100 then bellWord b.hmb
  else if 0x140 ≤ a ∧ a < 0x180 then leAt (a - 0x140) 4 b.hmb.inWin
  else if 0x180 ≤ a ∧ a < 0x1C0 then leAt (a - 0x180) 4 b.hmb.outWin
  else if a = 0x200 then bellWord b.amb
  else if 0x240 ≤ a ∧ a < 0x280 then leAt (a - 0x240) 4 b.amb.inWin
  else if 0x280 ≤ a ∧ a < 0x2C0 then leAt (a - 0x280) 4 b.amb.outWin
  else 0

/-! ## HSI (R393, R401, R404) -/

/-- HSI_x_IRQ_STAT; ring C shows neither WAKE, RESET nor LINKERR. -/
def irqStat (side : Side) (s : State) : Nat :=
  let g := ringOf s side
  let host := side == .host
  let bell := match side with
    | .host => s.mgt.hmb.outBell
    | .cluster => s.mgt.amb.outBell
  flagAt g.irqSpace 6 + flagAt (host && g.irqWake) 5 + flagAt (host && g.irqReset) 4 + flagAt bell 3
    + flagAt (host && g.irqLink) 2 + flagAt g.irqRerr 1 + flagAt (g.done.any (· != 0)) 0

/-- IRQ_N is asserted, or ring C's interrupt source (R401): a cause enabled and set; IRQ_N is released in WATCH and DORMANT. -/
def irqOn (side : Side) (s : State) : Bool :=
  Nat.land (irqStat side s) (ringOf s side).irqEn != 0
    && !(side == .host && (s.sys.mode == .watch || s.sys.mode == .dormant))

/-- Slots RUNNING of a ring. -/
def inFlight (g : Ring) : Nat := g.slots.countP (·.running)

/-- The registers of a ring, from its base. -/
def hsiRingReg (side : Side) (r : Nat) (s : State) : Nat :=
  let g := ringOf s side
  if r = 0x10 then fld 7 0 g.tail
  else if r = 0x14 then fld 7 0 g.head
  else if r = 0x1C then fld 31 16 g.errCode + fld 14 8 g.errTag + fld 7 6 g.errCause + fld 5 0 g.errCount
  else if r = 0x20 then irqStat side s
  else if r = 0x24 then fld 6 0 g.irqEn
  else if 0x30 ≤ r ∧ r < 0x40 then fld 31 0 (at0 g.done ((r - 0x30) / 4))
  else 0

/-- A ring's registers, descriptors and slot headers, in its own side's view (R393). -/
def hsiReg (a : Nat) (view : Side) (s : State) : Nat :=
  let g := ringOf s view
  let (base, desc) := match view with
    | .host => (0x0000, 0x1000)
    | .cluster => (0x0100, 0x3000)
  if a = 0x00 then
    fld 23 16 (inFlight s.hsi.c) + fld 15 8 (inFlight s.hsi.h) + flagAt s.hsi.cReady 2 + flagAt s.hsi.hReady 1
  else if a = 0x04 then fld 3 0 s.hsi.dummy
  else if a = 0x08 then counts s.hsi.crcErr s.hsi.lenErr s.hsi.abort s.hsi.waitErr
  else if base ≤ a ∧ a < base + 0x40 then hsiRingReg view (a - base) s
  else if desc ≤ a ∧ a < desc + 0x1000 then leAt (a % 0x20) 4 (g.desc.getD ((a - desc) / 0x20) [])
  else if desc + 0x1000 ≤ a ∧ a < desc + 0x2000 then
    let t := (a - desc - 0x1000) / 0x20
    leAt (a % 0x20) 4 (slotHeader t (g.slots.getD t Slot.fresh))
  else 0

/-! ## BUS (R410) and PIN (R446) -/

def busReg (a : Nat) (s : State) : Nat :=
  let c := a / 0x400
  let r := a % 0x400
  let x := canOf s c
  if portThere s (.can c) = false then 0
  else if r = 0x00 then fld 22 16 x.tdcv + x.state.code
  else if r = 0x04 then fld 31 20 x.txto + flagAt x.autorec 3 + flagAt x.listen 2 + flagAt x.fd 1 + flagAt x.en 0
  else if r = 0x08 then x.nbt
  else if r = 0x0C then x.dbt
  else if r = 0x10 then fld 15 8 x.recCtr + fld 7 0 x.tec
  else if r = 0x14 then counts x.rxLong x.rxDrop x.busOffs x.txTimeout
  else if 0x100 ≤ r ∧ r < 0x11C then ringReg (.can c) (r - 0x100) s
  else if 0x200 ≤ r ∧ r < 0x300 then
    let f := x.filters.getD ((r - 0x200) / 8) (0, 0)
    (if r % 8 = 0 then f.1 else f.2)
  else 0

/-- PIN_BANK: the supply bits; E while frames run at the table's VH (R311, R439; log 19); D_SRC by the voltages last measured,
the higher of VBAT and VDDIO_A (R415). -/
def pinBank (s : State) : Nat :=
  flagAt (decide (at0 s.mgt.sups 5 < at0 s.mgt.sups 1)) 8 + flagAt (s.epd.run && framesRun s) 7
    + (List.range 3).foldl (fun m g => m + flagAt (!flag s.pwr.grpUv g) (4 + g)) 0 + fld 3 0 s.sys.rails

def pinReg (a : Nat) (s : State) : Nat :=
  if a = 0x00 then pinBank s
  else if 0x100 ≤ a ∧ a < 0x170 then pinMf s.str.cur ((a - 0x100) / 4)
  else 0

/-! ## The register space (R403) -/

/-- The word at an offset of the register space in a view. -/
def regRead (view : Side) (a : Nat) (s : State) : Nat :=
  if a < 0x010000 then sysReg a s
  else if a < 0x020000 then strReg (a - 0x010000) s
  else if a < 0x040000 then laneSpaceReg (a - 0x020000) s
  else if a < 0x060000 then metReg (a - 0x040000) view s
  else if a < 0x080000 then bilReg (a - 0x060000) view s
  else if a < 0x090000 then pwrReg (a - 0x080000) s
  else if a < 0x0A0000 then fltReg (a - 0x090000) s
  else if a < 0x0C0000 then owlReg (a - 0x0A0000) s
  else if a < 0x0E0000 then vlkReg (a - 0x0C0000) s
  else if a < 0x0E8000 then glkReg (a - 0x0E0000) s
  else if a < 0x0F0000 then ethReg (a - 0x0E8000) s
  else if a < 0x100000 then timReg (a - 0x0F0000) view s
  else if a < 0x110000 then tagReg (a - 0x100000) s
  else if a < 0x120000 then epdReg (a - 0x110000) s
  else if a < 0x130000 then keyReg (a - 0x120000) view s
  else if a < 0x140000 then updReg (a - 0x130000) s
  else if a < 0x150000 then mgtReg (a - 0x140000) s
  else if a < 0x158000 then hsiReg (a - 0x150000) view s
  else if a < 0x160000 then busReg (a - 0x158000) s
  else if a < 0x170000 then pinReg (a - 0x160000) s
  else 0

/-- What a completed read of the HI word at an offset changes: its latch in the view ends (R94). The reads that latch, clear or
count are the rows ENERGY_LO_READ, HARM_LO_READ, CAL_ACC_LO_READ, BIL_LO_READ, TIM_NOW_LO_READ, TIM_DOM_TS_LO_READ,
TIM_BCN_TS_LO_READ, TIM_STATUS_READ, TAG_STATUS_READ, KEY_CNT_LO_READ, KEY_STATUS_READ, SYS_WAKESRC_READ and
RESULT_SLOT_READ; every other read changes nothing. -/
def hiRead (view : Side) (a : Nat) (s : State) : State :=
  let metHi (reg : MetLo) : State := onMet (fun b => { b with latch := unlatchHi view reg b.latch }) s
  let bilHi (reg : BilLo) : State := onBil (fun b => { b with latch := unlatchHi view reg b.latch }) s
  let m := a - 0x040000
  let b := a - 0x060000
  if a = 0x040018 then metHi .harm
  else if 0x040100 ≤ a ∧ a < 0x040500 then
    let o := (m - 0x100) / 0x100
    let r := m % 0x100
    (if r < 0x50 ∧ r % 8 = 4 then metHi (.energy o (r / 8))
     else if r = 0x68 then metHi (.cal o false)
     else if r = 0x70 then metHi (.cal o true)
     else s)
  else if a = 0x060010 then bilHi .passAct
  else if a = 0x060018 then bilHi .lastBnd
  else if a = 0x06002C then bilHi .credit
  else if 0x061000 ≤ a ∧ a < 0x061800 then
    let o := (b - 0x1000) / 0x200
    let r := b % 0x200
    (if r < 0x40 ∧ r % 8 = 4 then bilHi (.timp o (r / 8 + 1))
     else if 0x40 ≤ r ∧ r < 0x80 ∧ r % 8 = 4 then bilHi (.texp o ((r - 0x40) / 8 + 1))
     else if 0x100 ≤ r ∧ r < 0x180 ∧ r % 0x10 = 8 then bilHi (.mdTs o ((r - 0x100) / 0x10 + 1))
     else s)
  else s

end Sys2Proof.Machine
end

