-- ==== Sys2Proof/Laws/Memory.lean ====
section
/-! SUPPORT. The byte memories: reads after writes, and every memory operation keeps the canonical form. -/

namespace Sys2Proof.Machine

/-- Every address of a memory lies above `a`. -/
def MemAbove (a : Nat) (m : List Host.Cell) : Prop := ∀ c ∈ m, a < c.1

/-- The canonical form of a list with a head: the head is listed rightly and the rest is canonical above it. -/
theorem memWf_cons (a : Nat) (v : Byte) (m : List Host.Cell) :
    memWf ((a, v) :: m) = true ↔ v ≠ 0 ∧ MemAbove a m ∧ memWf m = true := by
  induction m generalizing a v with
  | nil => simp [memWf, MemAbove]
  | cons c r ih =>
    obtain ⟨b, w⟩ := c
    have hc := ih b w
    simp only [memWf, Bool.and_eq_true, decide_eq_true_eq] at hc ⊢
    constructor
    · rintro ⟨⟨hv, hab⟩, hr⟩
      refine ⟨hv, ?_, hr⟩
      intro x hx
      rcases List.mem_cons.mp hx with rfl | hx
      · exact hab
      · exact Nat.lt_trans hab ((hc.mp hr).2.1 x hx)
    · rintro ⟨hv, hall, hr⟩
      exact ⟨⟨hv, hall (b, w) (List.mem_cons_self ..)⟩, hr⟩

/-- A write lists no address that was not listed, but its own. -/
theorem memWrite_mem {m : List Host.Cell} {a : Nat} {b : Byte} {c : Host.Cell} (h : c ∈ memWrite m a b) :
    c ∈ m ∨ c.1 = a := by
  induction m with
  | nil => by_cases hb : b = 0 <;> simp_all [memWrite]
  | cons d r ih =>
    obtain ⟨k, v⟩ := d
    simp only [memWrite] at h
    split at h
    · split at h
      · exact .inl h
      · rcases List.mem_cons.mp h with rfl | h
        · exact .inr rfl
        · exact .inl h
    · split at h
      · split at h
        · exact .inl (List.mem_cons_of_mem _ h)
        · rcases List.mem_cons.mp h with rfl | h
          · exact .inr rfl
          · exact .inl (List.mem_cons_of_mem _ h)
      · rcases List.mem_cons.mp h with rfl | h
        · exact .inl (List.mem_cons_self ..)
        · exact (ih h).imp (List.mem_cons_of_mem _) id

/-- A write keeps the canonical form. -/
theorem memWf_write {m : List Host.Cell} (h : memWf m = true) (a : Nat) (b : Byte) : memWf (memWrite m a b) = true := by
  induction m with
  | nil =>
    by_cases hb : b = 0
    · simp only [memWrite]; rw [if_pos hb]; rfl
    · simp only [memWrite]; rw [if_neg hb]; simpa [memWf] using hb
  | cons d r ih =>
    obtain ⟨k, v⟩ := d
    have hk := (memWf_cons k v r).mp h
    simp only [memWrite]
    split
    · rename_i hak
      split
      · exact h
      · rename_i hb
        refine (memWf_cons a b _).mpr ⟨hb, ?_, h⟩
        intro c hc
        rcases List.mem_cons.mp hc with rfl | hc
        · exact hak
        · exact Nat.lt_trans hak (hk.2.1 c hc)
    · split
      · rename_i hne heq
        subst heq
        split
        · exact hk.2.2
        · rename_i hb
          exact (memWf_cons a b r).mpr ⟨hb, hk.2.1, hk.2.2⟩
      · rename_i h1 h2
        refine (memWf_cons k v _).mpr ⟨hk.1, ?_, ih hk.2.2⟩
        intro c hc
        rcases memWrite_mem hc with hc | hc
        · exact hk.2.1 c hc
        · omega

/-- A string of writes keeps the canonical form. -/
theorem memWf_writeN {m : List Host.Cell} (h : memWf m = true) (a : Nat) (bs : Bytes) :
    memWf (memWriteN m a bs) = true := by
  induction bs generalizing m a with
  | nil => exact h
  | cons b bs ih => exact ih (memWf_write h a b) (a + 1)

/-- Part of a canonical list is canonical. -/
theorem memWf_filter {m : List Host.Cell} (h : memWf m = true) (p : Host.Cell → Bool) : memWf (m.filter p) = true := by
  induction m with
  | nil => rfl
  | cons d r ih =>
    obtain ⟨k, v⟩ := d
    have hk := (memWf_cons k v r).mp h
    simp only [List.filter]
    split
    · exact (memWf_cons k v _).mpr ⟨hk.1, fun c hc => hk.2.1 c ((List.mem_filter.mp hc).1), ih hk.2.2⟩
    · exact ih hk.2.2

/-- Zeroing a range keeps the canonical form. -/
theorem memWf_zero {m : List Host.Cell} (h : memWf m = true) (a n : Nat) : memWf (memZero m a n) = true :=
  memWf_filter h _

/-- A byte below every listed address reads 0. -/
theorem memRead_above {m : List Host.Cell} {a x : Nat} (h : MemAbove a m) (hx : x ≤ a) : memRead m x = 0 := by
  cases m with
  | nil => rfl
  | cons d r =>
    obtain ⟨k, v⟩ := d
    have := h (k, v) (List.mem_cons_self ..)
    simp only [memRead]
    rw [if_neg (by simp at this; omega), if_pos (by simp at this; omega)]

/-- A read after a write to the same address gives the byte written. -/
theorem memRead_write_same {m : List Host.Cell} (h : memWf m = true) (a : Nat) (b : Byte) :
    memRead (memWrite m a b) a = b := by
  induction m with
  | nil =>
    by_cases hb : b = 0
    · simp only [memWrite]; rw [if_pos hb, hb]; rfl
    · simp only [memWrite]; rw [if_neg hb]; simp [memRead]
  | cons d r ih =>
    obtain ⟨k, v⟩ := d
    have hk := (memWf_cons k v r).mp h
    simp only [memWrite]
    split
    · rename_i hak
      split
      · rename_i hb
        simp only [memRead]
        rw [if_neg (by omega), if_pos hak, hb]
      · simp [memRead]
    · split
      · rename_i h1 heq
        subst heq
        split
        · rename_i hb; rw [hb]; exact memRead_above hk.2.1 (Nat.le_refl _)
        · simp [memRead]
      · rename_i h1 h2
        simp only [memRead]
        rw [if_neg (by omega), if_neg (by omega)]
        exact ih hk.2.2

/-- A write leaves every other address as it reads. -/
theorem memRead_write_other {m : List Host.Cell} (h : memWf m = true) {a x : Nat} (b : Byte) (hx : x ≠ a) :
    memRead (memWrite m a b) x = memRead m x := by
  induction m with
  | nil =>
    by_cases hb : b = 0
    · simp [memWrite, hb]
    · simp only [memWrite, if_neg hb, memRead]
      rw [if_neg (by omega)]
      simp
  | cons d r ih =>
    obtain ⟨k, v⟩ := d
    have hk := (memWf_cons k v r).mp h
    simp only [memWrite]
    split
    · rename_i hak
      split
      · rfl
      · simp only [memRead]
        rw [if_neg (by omega)]
        split
        · rename_i hxa
          rw [if_neg (by omega), if_pos (by omega)]
        · rfl
    · split
      · rename_i h1 heq
        subst heq
        have above : x < a → memRead r x = 0 := fun h => memRead_above hk.2.1 (by omega)
        split
        · simp only [memRead]
          rw [if_neg (Ne.symm hx)]
          split
          · rename_i hlt; exact above hlt
          · rfl
        · simp only [memRead]
          rw [if_neg (Ne.symm hx), if_neg (Ne.symm hx)]
      · simp only [memRead]
        split
        · rfl
        · split
          · rfl
          · exact ih hk.2.2

/-- A string of writes leaves every address outside it as it reads. -/
theorem memRead_writeN_other {m : List Host.Cell} (h : memWf m = true) {a x : Nat} (bs : Bytes)
    (hx : x < a ∨ a + bs.length ≤ x) : memRead (memWriteN m a bs) x = memRead m x := by
  induction bs generalizing m a with
  | nil => rfl
  | cons b bs ih =>
    simp only [List.length_cons] at hx
    rw [memWriteN, ih (memWf_write h a b) (by omega), memRead_write_other h b (by omega)]

/-- Bytes written read back. -/
theorem memRead_writeN_same {m : List Host.Cell} (h : memWf m = true) (a : Nat) (bs : Bytes) (i : Nat)
    (hi : i < bs.length) : memRead (memWriteN m a bs) (a + i) = bs.getD i 0 := by
  induction bs generalizing m a i with
  | nil => simp at hi
  | cons b bs ih =>
    rw [memWriteN]
    cases i with
    | zero =>
      rw [memRead_writeN_other (memWf_write h a b) bs (by omega)]
      simpa using memRead_write_same h a b
    | succ n =>
      have := ih (memWf_write h a b) (a + 1) n (by simpa using hi)
      rw [show a + (n + 1) = a + 1 + n by omega, this]
      simp

end Sys2Proof.Machine
end

