-- ==== Sys2Proof/Laws/Kept.lean ====
section
/-! SUPPORT. What every operation of the model keeps: the queue, the identity, and (where it holds) the invariant. `Kept` is
the property that the lemmas `kept_<operation>` of the files Kept* carry through every operation of the model. -/

namespace Sys2Proof.Machine

/-- The queue is `p`, the identity is `i`, and, where `b` asks for it, the invariant holds. -/
def Kept (b : Prop) (p : List Instr) (i : Ident) (s : State) : Prop := s.pending = p ∧ s.ident = i ∧ (b → s.Inv)

variable {b : Prop} {p : List Instr} {i : Ident} {s : State}

theorem kept_start (h : b → s.Inv) : Kept b s.pending s.ident s := ⟨rfl, rfl, h⟩

/-- `Kept` of what an outcome goes on to. -/
def KeptO (b : Prop) (p : List Instr) (i : Ident) (o : Host.Outcome State Fault Refusal) : Prop :=
  ∀ t, o = .next t → Kept b p i t

theorem keptO_next (h : Kept b p i s) : KeptO b p i (.next s) := by
  intro t ht
  cases ht
  exact h

theorem keptO_ite {c : Prop} [Decidable c] {x y : Host.Outcome State Fault Refusal} (hx : KeptO b p i x)
    (hy : KeptO b p i y) : KeptO b p i (if c then x else y) := by
  split
  · exact hx
  · exact hy

theorem kept_ite {c : Prop} [Decidable c] {x y : State} (hx : Kept b p i x) (hy : Kept b p i y) :
    Kept b p i (if c then x else y) := by
  split
  · exact hx
  · exact hy

theorem kept_foldl {α : Type} {f : State → α → State} {l : List α} (h : Kept b p i s)
    (hf : ∀ s a, Kept b p i s → Kept b p i (f s a)) : Kept b p i (l.foldl f s) := by
  induction l generalizing s with
  | nil => exact h
  | cons a l ih => exact ih (hf s a h)

/-! ## Updates of one block -/

theorem kept_onStr (h : Kept b p i s) {f : StrBlock → StrBlock} : Kept b p i (onStr f s) := h
theorem kept_onGlk (h : Kept b p i s) {f : GlkBlock → GlkBlock} : Kept b p i (onGlk f s) := h
theorem kept_onEth (h : Kept b p i s) {f : EthBlock → EthBlock} : Kept b p i (onEth f s) := h

theorem kept_onLaneBlk (h : Kept b p i s) {f : LaneBlock → LaneBlock}
    (hf : ∀ x : LaneBlock, x.shape = [40, 4] → (f x).shape = [40, 4]) : Kept b p i (onLaneBlk f s) := by
  refine ⟨h.1, h.2.1, fun hb => ?_⟩
  obtain ⟨h0, h1, h2, h3, h4, h5, h6, h7, h8, h9, h10, h11, h12, h13, h14, h15, h16⟩ := h.2.2 hb
  exact ⟨hf _ h0, h1, h2, h3, h4, h5, h6, h7, h8, h9, h10, h11, h12, h13, h14, h15, h16⟩

theorem kept_onMet (h : Kept b p i s) {f : MetBlock → MetBlock}
    (hf : ∀ x : MetBlock, x.shape = [4, 4] → (f x).shape = [4, 4]) : Kept b p i (onMet f s) := by
  refine ⟨h.1, h.2.1, fun hb => ?_⟩
  obtain ⟨h0, h1, h2, h3, h4, h5, h6, h7, h8, h9, h10, h11, h12, h13, h14, h15, h16⟩ := h.2.2 hb
  exact ⟨h0, hf _ h1, h2, h3, h4, h5, h6, h7, h8, h9, h10, h11, h12, h13, h14, h15, h16⟩

theorem kept_onBil (h : Kept b p i s) {f : BilBlock → BilBlock}
    (hf : ∀ x : BilBlock, x.shape = [4] → (f x).shape = [4]) : Kept b p i (onBil f s) := by
  refine ⟨h.1, h.2.1, fun hb => ?_⟩
  obtain ⟨h0, h1, h2, h3, h4, h5, h6, h7, h8, h9, h10, h11, h12, h13, h14, h15, h16⟩ := h.2.2 hb
  exact ⟨h0, h1, hf _ h2, h3, h4, h5, h6, h7, h8, h9, h10, h11, h12, h13, h14, h15, h16⟩

theorem kept_onPwr (h : Kept b p i s) {f : PwrBlock → PwrBlock}
    (hf : ∀ x : PwrBlock, x.shape = [12, 4] → (f x).shape = [12, 4]) : Kept b p i (onPwr f s) := by
  refine ⟨h.1, h.2.1, fun hb => ?_⟩
  obtain ⟨h0, h1, h2, h3, h4, h5, h6, h7, h8, h9, h10, h11, h12, h13, h14, h15, h16⟩ := h.2.2 hb
  exact ⟨h0, h1, h2, hf _ h3, h4, h5, h6, h7, h8, h9, h10, h11, h12, h13, h14, h15, h16⟩

theorem kept_onFlt (h : Kept b p i s) {f : FltBlock → FltBlock}
    (hf : ∀ x : FltBlock, x.shape = [4, 4, 4] → (f x).shape = [4, 4, 4]) : Kept b p i (onFlt f s) := by
  refine ⟨h.1, h.2.1, fun hb => ?_⟩
  obtain ⟨h0, h1, h2, h3, h4, h5, h6, h7, h8, h9, h10, h11, h12, h13, h14, h15, h16⟩ := h.2.2 hb
  exact ⟨h0, h1, h2, h3, hf _ h4, h5, h6, h7, h8, h9, h10, h11, h12, h13, h14, h15, h16⟩

theorem kept_onOwl (h : Kept b p i s) {f : OwlBlock → OwlBlock}
    (hf : ∀ x : OwlBlock, x.shape = [4, 4, 8] → (f x).shape = [4, 4, 8]) : Kept b p i (onOwl f s) := by
  refine ⟨h.1, h.2.1, fun hb => ?_⟩
  obtain ⟨h0, h1, h2, h3, h4, h5, h6, h7, h8, h9, h10, h11, h12, h13, h14, h15, h16⟩ := h.2.2 hb
  exact ⟨h0, h1, h2, h3, h4, hf _ h5, h6, h7, h8, h9, h10, h11, h12, h13, h14, h15, h16⟩

theorem kept_onTim (h : Kept b p i s) {f : TimBlock → TimBlock}
    (hf : ∀ x : TimBlock, x.shape = [2] → (f x).shape = [2]) : Kept b p i (onTim f s) := by
  refine ⟨h.1, h.2.1, fun hb => ?_⟩
  obtain ⟨h0, h1, h2, h3, h4, h5, h6, h7, h8, h9, h10, h11, h12, h13, h14, h15, h16⟩ := h.2.2 hb
  exact ⟨h0, h1, h2, h3, h4, h5, h6, hf _ h7, h8, h9, h10, h11, h12, h13, h14, h15, h16⟩

theorem kept_onTag (h : Kept b p i s) {f : TagBlock → TagBlock}
    (hf : ∀ x : TagBlock, x.shape = [256] → (f x).shape = [256]) : Kept b p i (onTag f s) := by
  refine ⟨h.1, h.2.1, fun hb => ?_⟩
  obtain ⟨h0, h1, h2, h3, h4, h5, h6, h7, h8, h9, h10, h11, h12, h13, h14, h15, h16⟩ := h.2.2 hb
  exact ⟨h0, h1, h2, h3, h4, h5, h6, h7, hf _ h8, h9, h10, h11, h12, h13, h14, h15, h16⟩

theorem kept_onEpd (h : Kept b p i s) {f : EpdBlock → EpdBlock}
    (hf : ∀ x : EpdBlock, x.shape = [160, 12] → (f x).shape = [160, 12]) : Kept b p i (onEpd f s) := by
  refine ⟨h.1, h.2.1, fun hb => ?_⟩
  obtain ⟨h0, h1, h2, h3, h4, h5, h6, h7, h8, h9, h10, h11, h12, h13, h14, h15, h16⟩ := h.2.2 hb
  exact ⟨h0, h1, h2, h3, h4, h5, h6, h7, h8, hf _ h9, h10, h11, h12, h13, h14, h15, h16⟩

theorem kept_onKey (h : Kept b p i s) {f : KeyBlock → KeyBlock}
    (hf : ∀ x : KeyBlock, x.shape = [32] → (f x).shape = [32]) : Kept b p i (onKey f s) := by
  refine ⟨h.1, h.2.1, fun hb => ?_⟩
  obtain ⟨h0, h1, h2, h3, h4, h5, h6, h7, h8, h9, h10, h11, h12, h13, h14, h15, h16⟩ := h.2.2 hb
  exact ⟨h0, h1, h2, h3, h4, h5, h6, h7, h8, h9, hf _ h10, h11, h12, h13, h14, h15, h16⟩

theorem kept_onUpd (h : Kept b p i s) {f : UpdBlock → UpdBlock}
    (hf : ∀ x : UpdBlock, x.shape = [10] → (f x).shape = [10]) : Kept b p i (onUpd f s) := by
  refine ⟨h.1, h.2.1, fun hb => ?_⟩
  obtain ⟨h0, h1, h2, h3, h4, h5, h6, h7, h8, h9, h10, h11, h12, h13, h14, h15, h16⟩ := h.2.2 hb
  exact ⟨h0, h1, h2, h3, h4, h5, h6, h7, h8, h9, h10, hf _ h11, h12, h13, h14, h15, h16⟩

theorem kept_onSys (h : Kept b p i s) {f : SysBlock → SysBlock}
    (hf : ∀ x : SysBlock, x.Ok → (f x).Ok) : Kept b p i (onSys f s) := by
  refine ⟨h.1, h.2.1, fun hb => ?_⟩
  obtain ⟨h0, h1, h2, h3, h4, h5, h6, h7, h8, h9, h10, h11, h12, h13, h14, h15, h16⟩ := h.2.2 hb
  exact ⟨h0, h1, h2, h3, h4, h5, h6, h7, h8, h9, h10, h11, h12, h13, h14, h15, hf _ h16⟩

theorem kept_onMgt (h : Kept b p i s) {f : MgtBlock → MgtBlock}
    (hf : ∀ x : MgtBlock, x.Ok → (f x).Ok) : Kept b p i (onMgt f s) := by
  refine ⟨h.1, h.2.1, fun hb => ?_⟩
  obtain ⟨h0, h1, h2, h3, h4, h5, h6, h7, h8, h9, h10, h11, h12, h13, h14, h15, h16⟩ := h.2.2 hb
  exact ⟨h0, h1, h2, h3, h4, h5, h6, h7, h8, h9, h10, h11, h12, h13, h14, hf _ h15, h16⟩

theorem kept_onHsi (h : Kept b p i s) {f : HsiBlock → HsiBlock}
    (hf : ∀ x : HsiBlock, x.Ok → (f x).Ok) : Kept b p i (onHsi f s) := by
  refine ⟨h.1, h.2.1, fun hb => ?_⟩
  obtain ⟨h0, h1, h2, h3, h4, h5, h6, h7, h8, h9, h10, h11, h12, h13, h14, h15, h16⟩ := h.2.2 hb
  exact ⟨h0, h1, h2, h3, h4, h5, h6, h7, h8, h9, h10, h11, h12, h13, hf _ h14, h15, h16⟩


/-! ## One instance -/

/-- `upd` keeps the number of instances. -/
@[simp] theorem upd_length {α : Type} (l : List α) (n : Nat) (f : α → α) : (upd l n f).length = l.length := by simp [upd]
/-- `put` keeps the number of instances. -/
@[simp] theorem put_length {α : Type} (l : List α) (n : Nat) (x : α) : (put l n x).length = l.length := by simp [put]

theorem kept_onLink (h : Kept b p i s) {o : Nat} {f : Link → Link} : Kept b p i (onLink o f s) := by
  refine ⟨h.1, h.2.1, fun hb => ?_⟩
  obtain ⟨h0, h1, h2, h3, h4, h5, h6, h7, h8, h9, h10, h11, h12, h13, h14, h15, h16⟩ := h.2.2 hb
  exact ⟨h0, h1, h2, h3, h4, h5, (upd_length _ _ _).trans h6, h7, h8, h9, h10, h11, h12, h13, h14, h15, h16⟩

theorem kept_onCan (h : Kept b p i s) {o : Nat} {f : Can → Can} : Kept b p i (onCan o f s) := by
  refine ⟨h.1, h.2.1, fun hb => ?_⟩
  obtain ⟨h0, h1, h2, h3, h4, h5, h6, h7, h8, h9, h10, h11, h12, h13, h14, h15, h16⟩ := h.2.2 hb
  exact ⟨h0, h1, h2, h3, h4, h5, h6, h7, h8, h9, h10, h11, (upd_length _ _ _).trans h12, h13, h14, h15, h16⟩

theorem kept_sram (h : Kept b p i s) {m : List Host.Cell} (hm : b → memWf s.sram = true → memWf m = true) :
    Kept b p i { s with sram := m } := by
  refine ⟨h.1, h.2.1, fun hb => ?_⟩
  obtain ⟨h0, h1, h2, h3, h4, h5, h6, h7, h8, h9, h10, h11, h12, h13, h14, h15, h16⟩ := h.2.2 hb
  exact ⟨h0, h1, h2, h3, h4, h5, h6, h7, h8, h9, h10, h11, h12, hm hb h13, h14, h15, h16⟩

theorem kept_vlk (h : Kept b p i s) {l : List Link} (hl : s.vlk.length = 4 → l.length = 4) :
    Kept b p i { s with vlk := l } := by
  refine ⟨h.1, h.2.1, fun hb => ?_⟩
  obtain ⟨h0, h1, h2, h3, h4, h5, h6, h7, h8, h9, h10, h11, h12, h13, h14, h15, h16⟩ := h.2.2 hb
  exact ⟨h0, h1, h2, h3, h4, h5, hl h6, h7, h8, h9, h10, h11, h12, h13, h14, h15, h16⟩

theorem kept_can (h : Kept b p i s) {l : List Can} (hl : s.can.length = 2 → l.length = 2) :
    Kept b p i { s with can := l } := by
  refine ⟨h.1, h.2.1, fun hb => ?_⟩
  obtain ⟨h0, h1, h2, h3, h4, h5, h6, h7, h8, h9, h10, h11, h12, h13, h14, h15, h16⟩ := h.2.2 hb
  exact ⟨h0, h1, h2, h3, h4, h5, h6, h7, h8, h9, h10, h11, hl h12, h13, h14, h15, h16⟩

theorem kept_onLinks (h : Kept b p i s) {f : Link → Link} : Kept b p i (onLinks f s) := kept_vlk h (by simp)
theorem kept_onCans (h : Kept b p i s) {f : Can → Can} : Kept b p i (onCans f s) := kept_can h (by simp)

/-- A ring at its reset values is in order. -/
theorem ringFresh_ok (host : Bool) : (Ring.fresh host).Ok :=
  ⟨by simp [Ring.shape, Ring.fresh], Nat.zero_lt_succ _, Nat.zero_lt_succ _, rfl⟩

end Sys2Proof.Machine
end

