-- ==== Sys2Proof/Laws/KeptOps.lean ====
section
/-! SUPPORT. What the operations of Ops.lean keep. -/

set_option linter.unusedSimpArgs false
set_option linter.unusedVariables false
set_option linter.unreachableTactic false
set_option linter.unusedTactic false

namespace Sys2Proof.Machine

variable {b : Prop} {p : List Instr} {i : Ident} {s : State}

theorem kept_onLane (a0 : ℕ) (a1 : Lane → Lane) (h : Kept b p i s) :
    Kept b p i (onLane a0 a1 s) := by
  unfold onLane
  repeat' first
    | with_reducible assumption
    | (intro (s : State) (h : Kept b p i s))
    | (intro _ (s : State) (h : Kept b p i s))
    | (intro (h : Kept b p i _))
    | (intro (s' : State); refine_lift have h : Kept b p i s' := ?_; ?_; clear_value s')
    | lift_lets
    | with_reducible apply keptO_next
    | with_reducible apply kept_ite
    | with_reducible apply kept_onLaneBlk
    | with_reducible refine kept_foldl ?_ (fun s a h => ?_)
    | (intro (x : LaneBlock) hx; first | (simp only [LaneBlock.shape] at hx ⊢; with_reducible exact hx) | (simp only [LaneBlock.shape, List.length_mapIdx, List.length_map, upd_length, put_length] at hx ⊢; with_reducible exact hx) | (simp_all [LaneBlock.shape]; done) | ((repeat' split) <;> first | exact hx | (simp_all [LaneBlock.shape]; done)))
    | (intro x'; clear_value x')
    | intro _
    | dsimp only [s']
    | split

theorem kept_onMetOut (a0 : ℕ) (a1 : MetOutlet → MetOutlet) (h : Kept b p i s) :
    Kept b p i (onMetOut a0 a1 s) := by
  unfold onMetOut
  repeat' first
    | with_reducible assumption
    | (intro (s : State) (h : Kept b p i s))
    | (intro _ (s : State) (h : Kept b p i s))
    | (intro (h : Kept b p i _))
    | (intro (s' : State); refine_lift have h : Kept b p i s' := ?_; ?_; clear_value s')
    | lift_lets
    | with_reducible apply keptO_next
    | with_reducible apply kept_ite
    | with_reducible apply kept_onMet
    | with_reducible refine kept_foldl ?_ (fun s a h => ?_)
    | (intro (x : MetBlock) hx; first | (simp only [MetBlock.shape] at hx ⊢; with_reducible exact hx) | (simp only [MetBlock.shape, List.length_mapIdx, List.length_map, upd_length, put_length] at hx ⊢; with_reducible exact hx) | (simp_all [MetBlock.shape]; done) | ((repeat' split) <;> first | exact hx | (simp_all [MetBlock.shape]; done)))
    | (intro x'; clear_value x')
    | intro _
    | dsimp only [s']
    | split

theorem kept_onBilOut (a0 : ℕ) (a1 : BilOutlet → BilOutlet) (h : Kept b p i s) :
    Kept b p i (onBilOut a0 a1 s) := by
  unfold onBilOut
  repeat' first
    | with_reducible assumption
    | (intro (s : State) (h : Kept b p i s))
    | (intro _ (s : State) (h : Kept b p i s))
    | (intro (h : Kept b p i _))
    | (intro (s' : State); refine_lift have h : Kept b p i s' := ?_; ?_; clear_value s')
    | lift_lets
    | with_reducible apply keptO_next
    | with_reducible apply kept_ite
    | with_reducible apply kept_onBil
    | with_reducible refine kept_foldl ?_ (fun s a h => ?_)
    | (intro (x : BilBlock) hx; first | (simp only [BilBlock.shape] at hx ⊢; with_reducible exact hx) | (simp only [BilBlock.shape, List.length_mapIdx, List.length_map, upd_length, put_length] at hx ⊢; with_reducible exact hx) | (simp_all [BilBlock.shape]; done) | ((repeat' split) <;> first | exact hx | (simp_all [BilBlock.shape]; done)))
    | (intro x'; clear_value x')
    | intro _
    | dsimp only [s']
    | split

theorem kept_onCh (a0 : ℕ) (a1 : Channel → Channel) (h : Kept b p i s) :
    Kept b p i (onCh a0 a1 s) := by
  unfold onCh
  repeat' first
    | with_reducible assumption
    | (intro (s : State) (h : Kept b p i s))
    | (intro _ (s : State) (h : Kept b p i s))
    | (intro (h : Kept b p i _))
    | (intro (s' : State); refine_lift have h : Kept b p i s' := ?_; ?_; clear_value s')
    | lift_lets
    | with_reducible apply keptO_next
    | with_reducible apply kept_ite
    | with_reducible apply kept_onPwr
    | with_reducible refine kept_foldl ?_ (fun s a h => ?_)
    | (intro (x : PwrBlock) hx; first | (simp only [PwrBlock.shape] at hx ⊢; with_reducible exact hx) | (simp only [PwrBlock.shape, List.length_mapIdx, List.length_map, upd_length, put_length] at hx ⊢; with_reducible exact hx) | (simp_all [PwrBlock.shape]; done) | ((repeat' split) <;> first | exact hx | (simp_all [PwrBlock.shape]; done)))
    | (intro x'; clear_value x')
    | intro _
    | dsimp only [s']
    | split

theorem kept_onLock (a0 : ℕ) (a1 : Lock → Lock) (h : Kept b p i s) :
    Kept b p i (onLock a0 a1 s) := by
  unfold onLock
  repeat' first
    | with_reducible assumption
    | (intro (s : State) (h : Kept b p i s))
    | (intro _ (s : State) (h : Kept b p i s))
    | (intro (h : Kept b p i _))
    | (intro (s' : State); refine_lift have h : Kept b p i s' := ?_; ?_; clear_value s')
    | lift_lets
    | with_reducible apply keptO_next
    | with_reducible apply kept_ite
    | with_reducible apply kept_onPwr
    | with_reducible refine kept_foldl ?_ (fun s a h => ?_)
    | (intro (x : PwrBlock) hx; first | (simp only [PwrBlock.shape] at hx ⊢; with_reducible exact hx) | (simp only [PwrBlock.shape, List.length_mapIdx, List.length_map, upd_length, put_length] at hx ⊢; with_reducible exact hx) | (simp_all [PwrBlock.shape]; done) | ((repeat' split) <;> first | exact hx | (simp_all [PwrBlock.shape]; done)))
    | (intro x'; clear_value x')
    | intro _
    | dsimp only [s']
    | split

theorem kept_onDom (a0 : ℕ) (a1 : Domain → Domain) (h : Kept b p i s) :
    Kept b p i (onDom a0 a1 s) := by
  unfold onDom
  repeat' first
    | with_reducible assumption
    | (intro (s : State) (h : Kept b p i s))
    | (intro _ (s : State) (h : Kept b p i s))
    | (intro (h : Kept b p i _))
    | (intro (s' : State); refine_lift have h : Kept b p i s' := ?_; ?_; clear_value s')
    | lift_lets
    | with_reducible apply keptO_next
    | with_reducible apply kept_ite
    | with_reducible apply kept_onTim
    | with_reducible refine kept_foldl ?_ (fun s a h => ?_)
    | (intro (x : TimBlock) hx; first | (simp only [TimBlock.shape] at hx ⊢; with_reducible exact hx) | (simp only [TimBlock.shape, List.length_mapIdx, List.length_map, upd_length, put_length] at hx ⊢; with_reducible exact hx) | (simp_all [TimBlock.shape]; done) | ((repeat' split) <;> first | exact hx | (simp_all [TimBlock.shape]; done)))
    | (intro x'; clear_value x')
    | intro _
    | dsimp only [s']
    | split

theorem kept_bump (h : Kept b p i s) : Kept b p i (bump s) := h

/-- A record added to a list that has room for it. -/
theorem kept_retLog {l : List Event} {x : Bool} (h : Kept b p i s) (hl : l.length ≤ 256) :
    Kept b p i (onSys (fun b => { b with retLog := l, retLost := x }) s) :=
  kept_onSys h fun _ hx => ⟨hl, hx.2⟩

theorem kept_retain (e : Event) (h : Kept b p i s) : Kept b p i (retain e s) := by
  unfold retain
  lift_lets
  intro e' s'
  have hs : Kept b p i s' := kept_onMgt h fun x hx => hx
  split
  · rename_i hlt
    refine ⟨h.1, h.2.1, fun hb => ?_⟩
    obtain ⟨h0, h1, h2, h3, h4, h5, h6, h7, h8, h9, h10, h11, h12, h13, h14, h15, h16⟩ := h.2.2 hb
    refine ⟨h0, h1, h2, h3, h4, h5, h6, h7, h8, h9, h10, h11, h12, h13, h14, h15, ?_, h16.2⟩
    simp only [onSys, List.length_append, List.length_cons, List.length_nil]; omega
  · clear_value s'
    split
    · rename_i k hk
      refine ⟨hs.1, hs.2.1, fun hb => ?_⟩
      obtain ⟨h0, h1, h2, h3, h4, h5, h6, h7, h8, h9, h10, h11, h12, h13, h14, h15, h16⟩ := hs.2.2 hb
      refine ⟨h0, h1, h2, h3, h4, h5, h6, h7, h8, h9, h10, h11, h12, h13, h14, h15, ?_, h16.2⟩
      have hk' : k < s'.sys.retLog.length := (List.findIdx?_eq_some_iff_findIdx_eq.mp hk).1
      simp only [onSys, List.length_append, List.length_cons, List.length_nil, List.length_eraseIdx, if_pos hk']
      omega
    · exact kept_onSys hs fun x hx => hx

theorem kept_enterLog (e : Event) (h : Kept b p i s) : Kept b p i (enterLog e s) := by
  unfold enterLog
  refine kept_onMgt h fun x hx => ⟨?_, ?_⟩
  · simp only [List.length_drop, List.length_append, List.length_cons, List.length_nil]; omega
  · exact Nat.min_le_left _ _

theorem kept_sendEvent (a0 : Event) (h : Kept b p i s) :
    Kept b p i (sendEvent a0 s) := by
  unfold sendEvent
  repeat' first
    | with_reducible assumption
    | (intro (s : State) (h : Kept b p i s))
    | (intro _ (s : State) (h : Kept b p i s))
    | (intro (h : Kept b p i _))
    | (intro (s' : State); refine_lift have h : Kept b p i s' := ?_; ?_; clear_value s')
    | lift_lets
    | with_reducible apply keptO_next
    | with_reducible apply kept_ite
    | with_reducible apply kept_enterLog
    | with_reducible apply kept_retain
    | with_reducible refine kept_foldl ?_ (fun s a h => ?_)
    | (intro x'; clear_value x')
    | intro _
    | dsimp only [s']
    | split

theorem kept_logEv (a0 : EvClass) (a1 : ℕ) (a2 : ℕ) (a3 : ℕ) (a4 : List (ℕ × ℕ)) (h : Kept b p i s) :
    Kept b p i (logEv a0 a1 a2 a3 a4 s) := by
  unfold logEv
  repeat' first
    | with_reducible assumption
    | (intro (s : State) (h : Kept b p i s))
    | (intro _ (s : State) (h : Kept b p i s))
    | (intro (h : Kept b p i _))
    | (intro (s' : State); refine_lift have h : Kept b p i s' := ?_; ?_; clear_value s')
    | lift_lets
    | with_reducible apply keptO_next
    | with_reducible apply kept_ite
    | with_reducible apply kept_sendEvent
    | with_reducible refine kept_foldl ?_ (fun s a h => ?_)
    | (intro x'; clear_value x')
    | intro _
    | dsimp only [s']
    | split

theorem kept_onRing (side : Side) (f : Ring → Ring) (hf : ∀ g : Ring, g.Ok → (f g).Ok) (h : Kept b p i s) :
    Kept b p i (onRing side f s) := by
  unfold onRing
  refine kept_onHsi h fun x hx => ?_
  split
  · exact ⟨hf _ hx.1, hx.2⟩
  · exact ⟨hx.1, hf _ hx.2.1, hx.2.2⟩

/-- Completing a slot keeps the ring's counts and its memory's form. -/
theorem completeSlot_ok (tag sts detail ts : Nat) (bytes : Bytes) (g : Ring) (h : g.Ok) :
    (completeSlot tag sts detail ts bytes g).Ok := by
  obtain ⟨h1, h2, h3, h4⟩ := h
  simp only [Ring.shape, List.cons.injEq, and_true] at h1
  unfold completeSlot
  lift_lets
  intro sl out g'
  split
  · split <;> exact ⟨by simp [Ring.shape, g', h1], h2, h3, memWf_writeN h4 _ _⟩
  · exact ⟨by simp [Ring.shape, h1], h2, h3, h4⟩

theorem kept_post (r : Req) (sts detail : Nat) (bytes : Bytes) (h : Kept b p i s) :
    Kept b p i (post r sts detail bytes s) :=
  kept_onRing r.side _ (fun g hg => completeSlot_ok _ _ _ _ _ g hg) h

theorem kept_postSts (a0 : Req) (a1 : ℕ) (h : Kept b p i s) :
    Kept b p i (postSts a0 a1 s) := by
  unfold postSts
  repeat' first
    | with_reducible assumption
    | (intro (s : State) (h : Kept b p i s))
    | (intro _ (s : State) (h : Kept b p i s))
    | (intro (h : Kept b p i _))
    | (intro (s' : State); refine_lift have h : Kept b p i s' := ?_; ?_; clear_value s')
    | lift_lets
    | with_reducible apply keptO_next
    | with_reducible apply kept_ite
    | with_reducible apply kept_post
    | with_reducible refine kept_foldl ?_ (fun s a h => ?_)
    | (intro x'; clear_value x')
    | intro _
    | dsimp only [s']
    | split

theorem kept_pend (r : Req) (h : Kept b p i s) : Kept b p i (pend r s) := h

theorem kept_guarded (r : Req) (checks : List (Bool × Nat)) (f : State → State) (hf : ∀ s, Kept b p i s → Kept b p i (f s))
    (h : Kept b p i s) : Kept b p i (guarded r checks f s) := by
  unfold guarded
  exact kept_ite (hf s h) (kept_postSts r _ h)

theorem kept_badgerCmd (r : Req) (f : State → State) (hf : ∀ s, Kept b p i s → Kept b p i (f s))
    (h : Kept b p i s) : Kept b p i (badgerCmd r f s) := by
  unfold badgerCmd
  exact kept_ite (kept_postSts r _ h) (hf s h)

theorem kept_returns (w : Nat) (h : Kept b p i s) : Kept b p i (returns w s) := h

theorem kept_noticeTo (a0 : Bool) (a1 : ℕ) (a2 : ℕ) (h : Kept b p i s) :
    Kept b p i (noticeTo a0 a1 a2 s) := by
  unfold noticeTo
  repeat' first
    | with_reducible assumption
    | (intro (s : State) (h : Kept b p i s))
    | (intro _ (s : State) (h : Kept b p i s))
    | (intro (h : Kept b p i _))
    | (intro (s' : State); refine_lift have h : Kept b p i s' := ?_; ?_; clear_value s')
    | lift_lets
    | with_reducible apply keptO_next
    | with_reducible apply kept_ite
    | with_reducible apply kept_onMgt
    | with_reducible refine kept_foldl ?_ (fun s a h => ?_)
    | (intro (x : MgtBlock) hx; first | exact hx | exact ⟨Nat.zero_le _, Nat.zero_le _⟩ | exact ⟨hx.1, Nat.zero_le _⟩)
    | (intro x'; clear_value x')
    | intro _
    | dsimp only [s']
    | split

theorem kept_notice (a0 : ℕ) (a1 : ℕ) (h : Kept b p i s) :
    Kept b p i (notice a0 a1 s) := by
  unfold notice
  repeat' first
    | with_reducible assumption
    | (intro (s : State) (h : Kept b p i s))
    | (intro _ (s : State) (h : Kept b p i s))
    | (intro (h : Kept b p i _))
    | (intro (s' : State); refine_lift have h : Kept b p i s' := ?_; ?_; clear_value s')
    | lift_lets
    | with_reducible apply keptO_next
    | with_reducible apply kept_ite
    | with_reducible apply kept_noticeTo
    | with_reducible refine kept_foldl ?_ (fun s a h => ?_)
    | (intro x'; clear_value x')
    | intro _
    | dsimp only [s']
    | split

theorem kept_setMode (a0 : ℕ) (a1 : Mode) (h : Kept b p i s) :
    Kept b p i (setMode a0 a1 s) := by
  unfold setMode
  repeat' first
    | with_reducible assumption
    | (intro (s : State) (h : Kept b p i s))
    | (intro _ (s : State) (h : Kept b p i s))
    | (intro (h : Kept b p i _))
    | (intro (s' : State); refine_lift have h : Kept b p i s' := ?_; ?_; clear_value s')
    | lift_lets
    | with_reducible apply keptO_next
    | with_reducible apply kept_ite
    | with_reducible apply kept_logEv
    | with_reducible apply kept_onSys
    | with_reducible apply kept_notice
    | with_reducible refine kept_foldl ?_ (fun s a h => ?_)
    | (intro (x : SysBlock) hx; first | exact hx | exact ⟨Nat.zero_le _, hx.2⟩)
    | (intro x'; clear_value x')
    | intro _
    | dsimp only [s']
    | split

theorem kept_evalMode  (h : Kept b p i s) :
    Kept b p i (evalMode s) := by
  unfold evalMode
  repeat' first
    | with_reducible assumption
    | (intro (s : State) (h : Kept b p i s))
    | (intro _ (s : State) (h : Kept b p i s))
    | (intro (h : Kept b p i _))
    | (intro (s' : State); refine_lift have h : Kept b p i s' := ?_; ?_; clear_value s')
    | lift_lets
    | with_reducible apply keptO_next
    | with_reducible apply kept_ite
    | with_reducible apply kept_setMode
    | with_reducible refine kept_foldl ?_ (fun s a h => ?_)
    | (intro x'; clear_value x')
    | intro _
    | dsimp only [s']
    | split

end Sys2Proof.Machine
end

