-- ==== Sys2Proof/Laws/KeptWarren.lean ====
section
/-! SUPPORT. What the operations of Warren.lean keep. -/

set_option linter.unusedSimpArgs false
set_option linter.unusedVariables false
set_option linter.unreachableTactic false
set_option linter.unusedTactic false

namespace Sys2Proof.Machine

variable {b : Prop} {p : List Instr} {i : Ident} {s : State}

theorem kept_logReject (a0 : ℕ) (a1 : ℕ) (a2 : ℕ) (a3 : Bytes) (h : Kept b p i s) :
    Kept b p i (logReject a0 a1 a2 a3 s) := by
  unfold logReject
  repeat' first
    | with_reducible assumption
    | (intro (s : State) (h : Kept b p i s))
    | (intro _ (s : State) (h : Kept b p i s))
    | (intro (h : Kept b p i _))
    | (intro (s' : State); refine_lift have h : Kept b p i s' := ?_; ?_; clear_value s')
    | lift_lets
    | with_reducible apply keptO_next
    | with_reducible apply kept_ite
    | with_reducible apply kept_logEv
    | with_reducible refine kept_foldl ?_ (fun s a h => ?_)
    | (intro x'; clear_value x')
    | intro _
    | dsimp only [s']
    | split

end Sys2Proof.Machine
end

