-- ==== Sys2Proof/Laws/KeptLanes.lean ====
section
/-! SUPPORT. What the operations of Lanes.lean keep. -/

set_option linter.unusedSimpArgs false
set_option linter.unusedVariables false
set_option linter.unreachableTactic false
set_option linter.unusedTactic false

namespace Sys2Proof.Machine

variable {b : Prop} {p : List Instr} {i : Ident} {s : State}

theorem kept_raiseTrigger (a0 : ℕ) (a1 : Trigger) (h : Kept b p i s) :
    Kept b p i (raiseTrigger a0 a1 s) := by
  unfold raiseTrigger
  repeat' first
    | with_reducible assumption
    | (intro (s : State) (h : Kept b p i s))
    | (intro _ (s : State) (h : Kept b p i s))
    | (intro (h : Kept b p i _))
    | (intro (s' : State); refine_lift have h : Kept b p i s' := ?_; ?_; clear_value s')
    | lift_lets
    | with_reducible apply keptO_next
    | with_reducible apply kept_ite
    | with_reducible apply kept_onLane
    | with_reducible apply kept_onLaneBlk
    | with_reducible refine kept_foldl ?_ (fun s a h => ?_)
    | (intro (x : LaneBlock) hx; first | (simp only [LaneBlock.shape] at hx ⊢; with_reducible exact hx) | (simp only [LaneBlock.shape, List.length_mapIdx, List.length_map, upd_length, put_length] at hx ⊢; with_reducible exact hx) | (simp_all [LaneBlock.shape]; done) | ((repeat' split) <;> first | exact hx | (simp_all [LaneBlock.shape]; done)))
    | (intro x'; clear_value x')
    | intro _
    | dsimp only [s']
    | split

theorem kept_checkFail (a0 : ℕ) (a1 : ℕ) (h : Kept b p i s) :
    Kept b p i (checkFail a0 a1 s) := by
  unfold checkFail
  repeat' first
    | with_reducible assumption
    | (intro (s : State) (h : Kept b p i s))
    | (intro _ (s : State) (h : Kept b p i s))
    | (intro (h : Kept b p i _))
    | (intro (s' : State); refine_lift have h : Kept b p i s' := ?_; ?_; clear_value s')
    | lift_lets
    | with_reducible apply keptO_next
    | with_reducible apply kept_ite
    | with_reducible apply kept_raiseTrigger
    | with_reducible apply kept_onLane
    | with_reducible refine kept_foldl ?_ (fun s a h => ?_)
    | (intro x'; clear_value x')
    | intro _
    | dsimp only [s']
    | split

theorem kept_startWarmup (a0 : ℕ) (a1 : ℕ) (h : Kept b p i s) :
    Kept b p i (startWarmup a0 a1 s) := by
  unfold startWarmup
  repeat' first
    | with_reducible assumption
    | (intro (s : State) (h : Kept b p i s))
    | (intro _ (s : State) (h : Kept b p i s))
    | (intro (h : Kept b p i _))
    | (intro (s' : State); refine_lift have h : Kept b p i s' := ?_; ?_; clear_value s')
    | lift_lets
    | with_reducible apply keptO_next
    | with_reducible apply kept_ite
    | with_reducible apply kept_onLane
    | with_reducible apply kept_onLaneBlk
    | with_reducible refine kept_foldl ?_ (fun s a h => ?_)
    | (intro (x : LaneBlock) hx; first | (simp only [LaneBlock.shape] at hx ⊢; with_reducible exact hx) | (simp only [LaneBlock.shape, List.length_mapIdx, List.length_map, upd_length, put_length] at hx ⊢; with_reducible exact hx) | (simp_all [LaneBlock.shape]; done) | ((repeat' split) <;> first | exact hx | (simp_all [LaneBlock.shape]; done)))
    | (intro x'; clear_value x')
    | intro _
    | dsimp only [s']
    | split

theorem kept_serveQueue  (h : Kept b p i s) :
    Kept b p i (serveQueue s) := by
  unfold serveQueue
  repeat' first
    | with_reducible assumption
    | (intro (s : State) (h : Kept b p i s))
    | (intro _ (s : State) (h : Kept b p i s))
    | (intro (h : Kept b p i _))
    | (intro (s' : State); refine_lift have h : Kept b p i s' := ?_; ?_; clear_value s')
    | lift_lets
    | with_reducible apply keptO_next
    | with_reducible apply kept_ite
    | with_reducible apply kept_startWarmup
    | with_reducible apply kept_onLaneBlk
    | with_reducible refine kept_foldl ?_ (fun s a h => ?_)
    | (intro (x : LaneBlock) hx; first | (simp only [LaneBlock.shape] at hx ⊢; with_reducible exact hx) | (simp only [LaneBlock.shape, List.length_mapIdx, List.length_map, upd_length, put_length] at hx ⊢; with_reducible exact hx) | (simp_all [LaneBlock.shape]; done) | ((repeat' split) <;> first | exact hx | (simp_all [LaneBlock.shape]; done)))
    | (intro x'; clear_value x')
    | intro _
    | dsimp only [s']
    | split

theorem kept_endTrial (a0 : ℕ) (h : Kept b p i s) :
    Kept b p i (endTrial a0 s) := by
  unfold endTrial
  repeat' first
    | with_reducible assumption
    | (intro (s : State) (h : Kept b p i s))
    | (intro _ (s : State) (h : Kept b p i s))
    | (intro (h : Kept b p i _))
    | (intro (s' : State); refine_lift have h : Kept b p i s' := ?_; ?_; clear_value s')
    | lift_lets
    | with_reducible apply keptO_next
    | with_reducible apply kept_ite
    | with_reducible apply kept_serveQueue
    | with_reducible apply kept_onLane
    | with_reducible refine kept_foldl ?_ (fun s a h => ?_)
    | (intro x'; clear_value x')
    | intro _
    | dsimp only [s']
    | split

theorem kept_firdataWrite (a0 : ℕ) (a1 : ℕ) (h : Kept b p i s) :
    Kept b p i (firdataWrite a0 a1 s) := by
  unfold firdataWrite
  repeat' first
    | with_reducible assumption
    | (intro (s : State) (h : Kept b p i s))
    | (intro _ (s : State) (h : Kept b p i s))
    | (intro (h : Kept b p i _))
    | (intro (s' : State); refine_lift have h : Kept b p i s' := ?_; ?_; clear_value s')
    | lift_lets
    | with_reducible apply keptO_next
    | with_reducible apply kept_ite
    | with_reducible apply kept_onLane
    | with_reducible refine kept_foldl ?_ (fun s a h => ?_)
    | (intro x'; clear_value x')
    | intro _
    | dsimp only [s']
    | split

theorem kept_execFirdataWrite (a0 : ℕ) (a1 : Word) (h : Kept b p i s) :
    KeptO b p i (execFirdataWrite a0 a1 s) := by
  unfold execFirdataWrite
  repeat' first
    | with_reducible assumption
    | (intro (s : State) (h : Kept b p i s))
    | (intro _ (s : State) (h : Kept b p i s))
    | (intro (h : Kept b p i _))
    | (intro (s' : State); refine_lift have h : Kept b p i s' := ?_; ?_; clear_value s')
    | lift_lets
    | with_reducible apply keptO_next
    | with_reducible apply kept_ite
    | with_reducible apply keptO_ite
    | with_reducible apply kept_firdataWrite
    | with_reducible refine kept_foldl ?_ (fun s a h => ?_)
    | (intro x'; clear_value x')
    | intro _
    | dsimp only [s']
    | split

theorem kept_execFirSwap (a0 : ℕ) (h : Kept b p i s) :
    KeptO b p i (execFirSwap a0 s) := by
  unfold execFirSwap
  repeat' first
    | with_reducible assumption
    | (intro (s : State) (h : Kept b p i s))
    | (intro _ (s : State) (h : Kept b p i s))
    | (intro (h : Kept b p i _))
    | (intro (s' : State); refine_lift have h : Kept b p i s' := ?_; ?_; clear_value s')
    | lift_lets
    | with_reducible apply keptO_next
    | with_reducible apply kept_ite
    | with_reducible apply keptO_ite
    | with_reducible apply kept_onLane
    | with_reducible refine kept_foldl ?_ (fun s a h => ?_)
    | (intro x'; clear_value x')
    | intro _
    | dsimp only [s']
    | split

theorem kept_laneTrialWrite (a0 : ℕ) (a1 : Bool) (h : Kept b p i s) :
    Kept b p i (laneTrialWrite a0 a1 s) := by
  unfold laneTrialWrite
  repeat' first
    | with_reducible assumption
    | (intro (s : State) (h : Kept b p i s))
    | (intro _ (s : State) (h : Kept b p i s))
    | (intro (h : Kept b p i _))
    | (intro (s' : State); refine_lift have h : Kept b p i s' := ?_; ?_; clear_value s')
    | lift_lets
    | with_reducible apply keptO_next
    | with_reducible apply kept_ite
    | with_reducible apply kept_onLane
    | with_reducible refine kept_foldl ?_ (fun s a h => ?_)
    | (intro x'; clear_value x')
    | intro _
    | dsimp only [s']
    | split

theorem kept_execLaneTrialWrite (a0 : ℕ) (a1 : Bool) (h : Kept b p i s) :
    KeptO b p i (execLaneTrialWrite a0 a1 s) := by
  unfold execLaneTrialWrite
  repeat' first
    | with_reducible assumption
    | (intro (s : State) (h : Kept b p i s))
    | (intro _ (s : State) (h : Kept b p i s))
    | (intro (h : Kept b p i _))
    | (intro (s' : State); refine_lift have h : Kept b p i s' := ?_; ?_; clear_value s')
    | lift_lets
    | with_reducible apply keptO_next
    | with_reducible apply kept_ite
    | with_reducible apply keptO_ite
    | with_reducible apply kept_laneTrialWrite
    | with_reducible refine kept_foldl ?_ (fun s a h => ?_)
    | (intro x'; clear_value x')
    | intro _
    | dsimp only [s']
    | split

theorem kept_laneCalWrite (a0 : ℕ) (a1 : Bool) (a2 : ℕ) (h : Kept b p i s) :
    Kept b p i (laneCalWrite a0 a1 a2 s) := by
  unfold laneCalWrite
  repeat' first
    | with_reducible assumption
    | (intro (s : State) (h : Kept b p i s))
    | (intro _ (s : State) (h : Kept b p i s))
    | (intro (h : Kept b p i _))
    | (intro (s' : State); refine_lift have h : Kept b p i s' := ?_; ?_; clear_value s')
    | lift_lets
    | with_reducible apply keptO_next
    | with_reducible apply kept_ite
    | with_reducible apply kept_onLane
    | with_reducible refine kept_foldl ?_ (fun s a h => ?_)
    | (intro x'; clear_value x')
    | intro _
    | dsimp only [s']
    | split

theorem kept_execLaneCalWrite (a0 : ℕ) (a1 : Bool) (a2 : Word) (h : Kept b p i s) :
    KeptO b p i (execLaneCalWrite a0 a1 a2 s) := by
  unfold execLaneCalWrite
  repeat' first
    | with_reducible assumption
    | (intro (s : State) (h : Kept b p i s))
    | (intro _ (s : State) (h : Kept b p i s))
    | (intro (h : Kept b p i _))
    | (intro (s' : State); refine_lift have h : Kept b p i s' := ?_; ?_; clear_value s')
    | lift_lets
    | with_reducible apply keptO_next
    | with_reducible apply kept_ite
    | with_reducible apply keptO_ite
    | with_reducible apply kept_laneCalWrite
    | with_reducible refine kept_foldl ?_ (fun s a h => ?_)
    | (intro x'; clear_value x')
    | intro _
    | dsimp only [s']
    | split

theorem kept_execLaneSuspect (a0 : ℕ) (h : Kept b p i s) :
    KeptO b p i (execLaneSuspect a0 s) := by
  unfold execLaneSuspect
  repeat' first
    | with_reducible assumption
    | (intro (s : State) (h : Kept b p i s))
    | (intro _ (s : State) (h : Kept b p i s))
    | (intro (h : Kept b p i _))
    | (intro (s' : State); refine_lift have h : Kept b p i s' := ?_; ?_; clear_value s')
    | lift_lets
    | with_reducible apply keptO_next
    | with_reducible apply kept_ite
    | with_reducible apply keptO_ite
    | with_reducible apply kept_onLane
    | with_reducible apply kept_onLaneBlk
    | with_reducible apply kept_serveQueue
    | with_reducible apply kept_logEv
    | with_reducible refine kept_foldl ?_ (fun s a h => ?_)
    | (intro (x : LaneBlock) hx; first | (simp only [LaneBlock.shape] at hx ⊢; with_reducible exact hx) | (simp only [LaneBlock.shape, List.length_mapIdx, List.length_map, upd_length, put_length] at hx ⊢; with_reducible exact hx) | (simp_all [LaneBlock.shape]; done) | ((repeat' split) <;> first | exact hx | (simp_all [LaneBlock.shape]; done)))
    | (intro x'; clear_value x')
    | intro _
    | dsimp only [s']
    | split

theorem kept_releaseSpare (a0 : ℕ) (h : Kept b p i s) :
    Kept b p i (releaseSpare a0 s) := by
  unfold releaseSpare
  repeat' first
    | with_reducible assumption
    | (intro (s : State) (h : Kept b p i s))
    | (intro _ (s : State) (h : Kept b p i s))
    | (intro (h : Kept b p i _))
    | (intro (s' : State); refine_lift have h : Kept b p i s' := ?_; ?_; clear_value s')
    | lift_lets
    | with_reducible apply keptO_next
    | with_reducible apply kept_ite
    | with_reducible apply kept_onLane
    | with_reducible refine kept_foldl ?_ (fun s a h => ?_)
    | (intro x'; clear_value x')
    | intro _
    | dsimp only [s']
    | split

theorem kept_writeSubst (a0 : ℕ) (a1 : ℕ) (h : Kept b p i s) :
    Kept b p i (writeSubst a0 a1 s) := by
  unfold writeSubst
  repeat' first
    | with_reducible assumption
    | (intro (s : State) (h : Kept b p i s))
    | (intro _ (s : State) (h : Kept b p i s))
    | (intro (h : Kept b p i _))
    | (intro (s' : State); refine_lift have h : Kept b p i s' := ?_; ?_; clear_value s')
    | lift_lets
    | with_reducible apply keptO_next
    | with_reducible apply kept_ite
    | with_reducible apply kept_onMet
    | with_reducible refine kept_foldl ?_ (fun s a h => ?_)
    | (intro (x : MetBlock) hx; first | (simp only [MetBlock.shape] at hx ⊢; with_reducible exact hx) | (simp only [MetBlock.shape, List.length_mapIdx, List.length_map, upd_length, put_length] at hx ⊢; with_reducible exact hx) | (simp_all [MetBlock.shape]; done) | ((repeat' split) <;> first | exact hx | (simp_all [MetBlock.shape]; done)))
    | (intro x'; clear_value x')
    | intro _
    | dsimp only [s']
    | split

theorem kept_execWarmupDecision (a0 : ℕ) (a1 : Bool) (a2 : Bool) (h : Kept b p i s) :
    KeptO b p i (execWarmupDecision a0 a1 a2 s) := by
  unfold execWarmupDecision
  repeat' first
    | with_reducible assumption
    | (intro (s : State) (h : Kept b p i s))
    | (intro _ (s : State) (h : Kept b p i s))
    | (intro (h : Kept b p i _))
    | (intro (s' : State); refine_lift have h : Kept b p i s' := ?_; ?_; clear_value s')
    | lift_lets
    | with_reducible apply keptO_next
    | with_reducible apply kept_ite
    | with_reducible apply keptO_ite
    | with_reducible apply kept_onLaneBlk
    | with_reducible apply kept_onLane
    | with_reducible apply kept_logEv
    | with_reducible apply kept_serveQueue
    | with_reducible apply kept_releaseSpare
    | with_reducible apply kept_writeSubst
    | with_reducible refine kept_foldl ?_ (fun s a h => ?_)
    | (intro (x : LaneBlock) hx; first | (simp only [LaneBlock.shape] at hx ⊢; with_reducible exact hx) | (simp only [LaneBlock.shape, List.length_mapIdx, List.length_map, upd_length, put_length] at hx ⊢; with_reducible exact hx) | (simp_all [LaneBlock.shape]; done) | ((repeat' split) <;> first | exact hx | (simp_all [LaneBlock.shape]; done)))
    | (intro x'; clear_value x')
    | intro _
    | dsimp only [s']
    | split

theorem kept_execLaneSwap (a0 : ℕ) (h : Kept b p i s) :
    KeptO b p i (execLaneSwap a0 s) := by
  unfold execLaneSwap
  repeat' first
    | with_reducible assumption
    | (intro (s : State) (h : Kept b p i s))
    | (intro _ (s : State) (h : Kept b p i s))
    | (intro (h : Kept b p i _))
    | (intro (s' : State); refine_lift have h : Kept b p i s' := ?_; ?_; clear_value s')
    | lift_lets
    | with_reducible apply keptO_next
    | with_reducible apply kept_ite
    | with_reducible apply keptO_ite
    | with_reducible apply kept_onLaneBlk
    | with_reducible apply kept_onStr
    | with_reducible apply kept_onLane
    | with_reducible apply kept_logEv
    | with_reducible refine kept_foldl ?_ (fun s a h => ?_)
    | (intro (x : LaneBlock) hx; first | (simp only [LaneBlock.shape] at hx ⊢; with_reducible exact hx) | (simp only [LaneBlock.shape, List.length_mapIdx, List.length_map, upd_length, put_length] at hx ⊢; with_reducible exact hx) | (simp_all [LaneBlock.shape]; done) | ((repeat' split) <;> first | exact hx | (simp_all [LaneBlock.shape]; done)))
    | (intro x'; clear_value x')
    | intro _
    | dsimp only [s']
    | split

theorem kept_execSpareFailed (a0 : ℕ) (a1 : ℕ) (h : Kept b p i s) :
    KeptO b p i (execSpareFailed a0 a1 s) := by
  unfold execSpareFailed
  repeat' first
    | with_reducible assumption
    | (intro (s : State) (h : Kept b p i s))
    | (intro _ (s : State) (h : Kept b p i s))
    | (intro (h : Kept b p i _))
    | (intro (s' : State); refine_lift have h : Kept b p i s' := ?_; ?_; clear_value s')
    | lift_lets
    | with_reducible apply keptO_next
    | with_reducible apply kept_ite
    | with_reducible apply keptO_ite
    | with_reducible apply kept_logEv
    | with_reducible apply kept_onLane
    | with_reducible refine kept_foldl ?_ (fun s a h => ?_)
    | (intro x'; clear_value x')
    | intro _
    | dsimp only [s']
    | split

theorem kept_execLaneFailed (a0 : ℕ) (a1 : ℕ) (h : Kept b p i s) :
    KeptO b p i (execLaneFailed a0 a1 s) := by
  unfold execLaneFailed
  repeat' first
    | with_reducible assumption
    | (intro (s : State) (h : Kept b p i s))
    | (intro _ (s : State) (h : Kept b p i s))
    | (intro (h : Kept b p i _))
    | (intro (s' : State); refine_lift have h : Kept b p i s' := ?_; ?_; clear_value s')
    | lift_lets
    | with_reducible apply keptO_next
    | with_reducible apply kept_ite
    | with_reducible apply keptO_ite
    | with_reducible apply kept_logEv
    | with_reducible apply kept_onLane
    | with_reducible refine kept_foldl ?_ (fun s a h => ?_)
    | (intro x'; clear_value x')
    | intro _
    | dsimp only [s']
    | split

theorem kept_execStrikeExpiry (a0 : ℕ) (h : Kept b p i s) :
    KeptO b p i (execStrikeExpiry a0 s) := by
  unfold execStrikeExpiry
  repeat' first
    | with_reducible assumption
    | (intro (s : State) (h : Kept b p i s))
    | (intro _ (s : State) (h : Kept b p i s))
    | (intro (h : Kept b p i _))
    | (intro (s' : State); refine_lift have h : Kept b p i s' := ?_; ?_; clear_value s')
    | lift_lets
    | with_reducible apply keptO_next
    | with_reducible apply kept_ite
    | with_reducible apply keptO_ite
    | with_reducible apply kept_onLane
    | with_reducible refine kept_foldl ?_ (fun s a h => ?_)
    | (intro x'; clear_value x')
    | intro _
    | dsimp only [s']
    | split

theorem kept_takeBack (a0 : ℕ) (h : Kept b p i s) :
    Kept b p i (takeBack a0 s) := by
  unfold takeBack
  repeat' first
    | with_reducible assumption
    | (intro (s : State) (h : Kept b p i s))
    | (intro _ (s : State) (h : Kept b p i s))
    | (intro (h : Kept b p i _))
    | (intro (s' : State); refine_lift have h : Kept b p i s' := ?_; ?_; clear_value s')
    | lift_lets
    | with_reducible apply keptO_next
    | with_reducible apply kept_ite
    | with_reducible apply kept_onStr
    | with_reducible apply kept_onMet
    | with_reducible apply kept_onLaneBlk
    | with_reducible apply kept_onLane
    | with_reducible refine kept_foldl ?_ (fun s a h => ?_)
    | (intro (x : LaneBlock) hx; first | (simp only [LaneBlock.shape] at hx ⊢; with_reducible exact hx) | (simp only [LaneBlock.shape, List.length_mapIdx, List.length_map, upd_length, put_length] at hx ⊢; with_reducible exact hx) | (simp_all [LaneBlock.shape]; done) | ((repeat' split) <;> first | exact hx | (simp_all [LaneBlock.shape]; done)))
    | (intro (x : MetBlock) hx; first | (simp only [MetBlock.shape] at hx ⊢; with_reducible exact hx) | (simp only [MetBlock.shape, List.length_mapIdx, List.length_map, upd_length, put_length] at hx ⊢; with_reducible exact hx) | (simp_all [MetBlock.shape]; done) | ((repeat' split) <;> first | exact hx | (simp_all [MetBlock.shape]; done)))
    | (intro x'; clear_value x')
    | intro _
    | dsimp only [s']
    | split

theorem kept_dropWarm (a0 : ℕ) (h : Kept b p i s) :
    Kept b p i (dropWarm a0 s) := by
  unfold dropWarm
  repeat' first
    | with_reducible assumption
    | (intro (s : State) (h : Kept b p i s))
    | (intro _ (s : State) (h : Kept b p i s))
    | (intro (h : Kept b p i _))
    | (intro (s' : State); refine_lift have h : Kept b p i s' := ?_; ?_; clear_value s')
    | lift_lets
    | with_reducible apply keptO_next
    | with_reducible apply kept_ite
    | with_reducible apply kept_releaseSpare
    | with_reducible refine kept_foldl ?_ (fun s a h => ?_)
    | (intro x'; clear_value x')
    | intro _
    | dsimp only [s']
    | split

theorem kept_restoreLane (a0 : ℕ) (h : Kept b p i s) :
    Kept b p i (restoreLane a0 s) := by
  unfold restoreLane
  repeat' first
    | with_reducible assumption
    | (intro (s : State) (h : Kept b p i s))
    | (intro _ (s : State) (h : Kept b p i s))
    | (intro (h : Kept b p i _))
    | (intro (s' : State); refine_lift have h : Kept b p i s' := ?_; ?_; clear_value s')
    | lift_lets
    | with_reducible apply keptO_next
    | with_reducible apply kept_ite
    | with_reducible apply kept_takeBack
    | with_reducible apply kept_dropWarm
    | with_reducible apply kept_logEv
    | with_reducible apply kept_releaseSpare
    | with_reducible apply kept_onLaneBlk
    | with_reducible refine kept_foldl ?_ (fun s a h => ?_)
    | (intro (x : LaneBlock) hx; first | (simp only [LaneBlock.shape] at hx ⊢; with_reducible exact hx) | (simp only [LaneBlock.shape, List.length_mapIdx, List.length_map, upd_length, put_length] at hx ⊢; with_reducible exact hx) | (simp_all [LaneBlock.shape]; done) | ((repeat' split) <;> first | exact hx | (simp_all [LaneBlock.shape]; done)))
    | (intro x'; clear_value x')
    | intro _
    | dsimp only [s']
    | split

theorem kept_execLaneRestore (a0 : Req) (a1 : ℕ) (h : Kept b p i s) :
    KeptO b p i (execLaneRestore a0 a1 s) := by
  unfold execLaneRestore
  repeat' first
    | with_reducible assumption
    | (intro (s : State) (h : Kept b p i s))
    | (intro _ (s : State) (h : Kept b p i s))
    | (intro (h : Kept b p i _))
    | (intro (s' : State); refine_lift have h : Kept b p i s' := ?_; ?_; clear_value s')
    | lift_lets
    | with_reducible apply keptO_next
    | with_reducible apply kept_ite
    | with_reducible apply keptO_ite
    | with_reducible apply kept_badgerCmd
    | with_reducible apply kept_guarded
    | with_reducible apply kept_postSts
    | with_reducible apply kept_serveQueue
    | with_reducible apply kept_restoreLane
    | with_reducible refine kept_foldl ?_ (fun s a h => ?_)
    | (intro x'; clear_value x')
    | intro _
    | dsimp only [s']
    | split

end Sys2Proof.Machine
end

