-- ==== Sys2Proof/Laws/KeptChain.lean ====
section
/-! SUPPORT. What the operations of Chain.lean keep. -/

set_option linter.unusedSimpArgs false
set_option linter.unusedVariables false
set_option linter.unreachableTactic false
set_option linter.unusedTactic false

namespace Sys2Proof.Machine

variable {b : Prop} {p : List Instr} {i : Ident} {s : State}

theorem kept_overloadChange (a0 : ℕ) (a1 : Bool) (h : Kept b p i s) :
    Kept b p i (overloadChange a0 a1 s) := by
  unfold overloadChange
  repeat' first
    | with_reducible assumption
    | (intro (s : State) (h : Kept b p i s))
    | (intro _ (s : State) (h : Kept b p i s))
    | (intro (h : Kept b p i _))
    | (intro (s' : State); refine_lift have h : Kept b p i s' := ?_; ?_; clear_value s')
    | lift_lets
    | with_reducible apply keptO_next
    | with_reducible apply kept_ite
    | with_reducible apply kept_onLane
    | with_reducible apply kept_logEv
    | with_reducible refine kept_foldl ?_ (fun s a h => ?_)
    | (intro x'; clear_value x')
    | intro _
    | dsimp only [s']
    | split

theorem kept_formWord (a0 : ℕ) (a1 : ℕ) (a2 : ℕ) (a3 : ℕ) (h : Kept b p i s) :
    Kept b p i (formWord a0 a1 a2 a3 s) := by
  unfold formWord
  repeat' first
    | with_reducible assumption
    | (intro (s : State) (h : Kept b p i s))
    | (intro _ (s : State) (h : Kept b p i s))
    | (intro (h : Kept b p i _))
    | (intro (s' : State); refine_lift have h : Kept b p i s' := ?_; ?_; clear_value s')
    | lift_lets
    | with_reducible apply keptO_next
    | with_reducible apply kept_ite
    | with_reducible apply kept_onLaneBlk
    | with_reducible apply kept_checkFail
    | with_reducible refine kept_foldl ?_ (fun s a h => ?_)
    | (intro (x : LaneBlock) hx; first | (simp only [LaneBlock.shape] at hx ⊢; with_reducible exact hx) | (simp only [LaneBlock.shape, List.length_mapIdx, List.length_map, upd_length, put_length] at hx ⊢; with_reducible exact hx) | (simp_all [LaneBlock.shape]; done) | ((repeat' split) <;> first | exact hx | (simp_all [LaneBlock.shape]; done)))
    | (intro x'; clear_value x')
    | intro _
    | dsimp only [s']
    | split

theorem kept_formDue (a0 : ℕ) (h : Kept b p i s) :
    Kept b p i (formDue a0 s) := by
  unfold formDue
  repeat' first
    | with_reducible assumption
    | (intro (s : State) (h : Kept b p i s))
    | (intro _ (s : State) (h : Kept b p i s))
    | (intro (h : Kept b p i _))
    | (intro (s' : State); refine_lift have h : Kept b p i s' := ?_; ?_; clear_value s')
    | lift_lets
    | with_reducible apply keptO_next
    | with_reducible apply kept_ite
    | with_reducible apply kept_formWord
    | with_reducible apply kept_onLaneBlk
    | with_reducible refine kept_foldl ?_ (fun s a h => ?_)
    | (intro (x : LaneBlock) hx; first | (simp only [LaneBlock.shape] at hx ⊢; with_reducible exact hx) | (simp only [LaneBlock.shape, List.length_mapIdx, List.length_map, upd_length, put_length] at hx ⊢; with_reducible exact hx) | (simp_all [LaneBlock.shape]; done) | ((repeat' split) <;> first | exact hx | (simp_all [LaneBlock.shape]; done)))
    | (intro x'; clear_value x')
    | intro _
    | dsimp only [s']
    | split

theorem kept_gridStep (a0 : ℕ) (a1 : ℤ) (h : Kept b p i s) :
    Kept b p i (gridStep a0 a1 s) := by
  unfold gridStep
  repeat' first
    | with_reducible assumption
    | (intro (s : State) (h : Kept b p i s))
    | (intro _ (s : State) (h : Kept b p i s))
    | (intro (h : Kept b p i _))
    | (intro (s' : State); refine_lift have h : Kept b p i s' := ?_; ?_; clear_value s')
    | lift_lets
    | with_reducible apply keptO_next
    | with_reducible apply kept_ite
    | with_reducible apply kept_formDue
    | with_reducible apply kept_onLaneBlk
    | with_reducible apply kept_bump
    | with_reducible refine kept_foldl ?_ (fun s a h => ?_)
    | (intro (x : LaneBlock) hx; first | (simp only [LaneBlock.shape] at hx ⊢; with_reducible exact hx) | (simp only [LaneBlock.shape, List.length_mapIdx, List.length_map, upd_length, put_length] at hx ⊢; with_reducible exact hx) | (simp_all [LaneBlock.shape]; done) | ((repeat' split) <;> first | exact hx | (simp_all [LaneBlock.shape]; done)))
    | (intro x'; clear_value x')
    | intro _
    | dsimp only [s']
    | split

theorem kept_compareWarm (a0 : ℕ) (h : Kept b p i s) :
    Kept b p i (compareWarm a0 s) := by
  unfold compareWarm
  repeat' first
    | with_reducible assumption
    | (intro (s : State) (h : Kept b p i s))
    | (intro _ (s : State) (h : Kept b p i s))
    | (intro (h : Kept b p i _))
    | (intro (s' : State); refine_lift have h : Kept b p i s' := ?_; ?_; clear_value s')
    | lift_lets
    | with_reducible apply keptO_next
    | with_reducible apply kept_ite
    | with_reducible apply kept_onLaneBlk
    | with_reducible refine kept_foldl ?_ (fun s a h => ?_)
    | (intro (x : LaneBlock) hx; first | (simp only [LaneBlock.shape] at hx ⊢; with_reducible exact hx) | (simp only [LaneBlock.shape, List.length_mapIdx, List.length_map, upd_length, put_length] at hx ⊢; with_reducible exact hx) | (simp_all [LaneBlock.shape]; done) | ((repeat' split) <;> first | exact hx | (simp_all [LaneBlock.shape]; done)))
    | (intro x'; clear_value x')
    | intro _
    | dsimp only [s']
    | split

theorem kept_stage2 (a0 : ℕ) (a1 : LaneInput) (h : Kept b p i s) :
    Kept b p i (stage2 a0 a1 s) := by
  unfold stage2
  repeat' first
    | with_reducible assumption
    | (intro (s : State) (h : Kept b p i s))
    | (intro _ (s : State) (h : Kept b p i s))
    | (intro (h : Kept b p i _))
    | (intro (s' : State); refine_lift have h : Kept b p i s' := ?_; ?_; clear_value s')
    | lift_lets
    | with_reducible apply keptO_next
    | with_reducible apply kept_ite
    | with_reducible apply kept_onLane
    | with_reducible apply kept_overloadChange
    | with_reducible apply kept_bump
    | with_reducible refine kept_foldl ?_ (fun s a h => ?_)
    | (intro x'; clear_value x')
    | intro _
    | dsimp only [s']
    | split

theorem kept_stages34 (a0 : ℕ) (a1 : LaneInput) (h : Kept b p i s) :
    Kept b p i (stages34 a0 a1 s) := by
  unfold stages34
  repeat' first
    | with_reducible assumption
    | (intro (s : State) (h : Kept b p i s))
    | (intro _ (s : State) (h : Kept b p i s))
    | (intro (h : Kept b p i _))
    | (intro (s' : State); refine_lift have h : Kept b p i s' := ?_; ?_; clear_value s')
    | lift_lets
    | with_reducible apply keptO_next
    | with_reducible apply kept_ite
    | with_reducible apply kept_bump
    | with_reducible apply kept_checkFail
    | with_reducible apply kept_onLane
    | with_reducible refine kept_foldl ?_ (fun s a h => ?_)
    | (intro x'; clear_value x')
    | intro _
    | dsimp only [s']
    | split

theorem kept_sampleLane (a0 : ℕ) (a1 : LaneInput) (h : Kept b p i s) :
    Kept b p i (sampleLane a0 a1 s) := by
  unfold sampleLane
  repeat' first
    | with_reducible assumption
    | (intro (s : State) (h : Kept b p i s))
    | (intro _ (s : State) (h : Kept b p i s))
    | (intro (h : Kept b p i _))
    | (intro (s' : State); refine_lift have h : Kept b p i s' := ?_; ?_; clear_value s')
    | lift_lets
    | with_reducible apply keptO_next
    | with_reducible apply kept_ite
    | with_reducible apply kept_endTrial
    | with_reducible apply kept_stages34
    | with_reducible apply kept_stage2
    | with_reducible apply kept_onLane
    | with_reducible apply kept_compareWarm
    | with_reducible apply kept_gridStep
    | with_reducible refine kept_foldl ?_ (fun s a h => ?_)
    | (intro x'; clear_value x')
    | intro _
    | dsimp only [s']
    | split

theorem kept_execLaneSampleWord (a0 : ℕ) (a1 : LaneInput) (h : Kept b p i s) :
    KeptO b p i (execLaneSampleWord a0 a1 s) := by
  unfold execLaneSampleWord
  repeat' first
    | with_reducible assumption
    | (intro (s : State) (h : Kept b p i s))
    | (intro _ (s : State) (h : Kept b p i s))
    | (intro (h : Kept b p i _))
    | (intro (s' : State); refine_lift have h : Kept b p i s' := ?_; ?_; clear_value s')
    | lift_lets
    | with_reducible apply keptO_next
    | with_reducible apply kept_ite
    | with_reducible apply keptO_ite
    | with_reducible apply kept_sampleLane
    | with_reducible refine kept_foldl ?_ (fun s a h => ?_)
    | (intro x'; clear_value x')
    | intro _
    | dsimp only [s']
    | split

theorem kept_execLaneStuck (a0 : ℕ) (a1 : Bool) (h : Kept b p i s) :
    KeptO b p i (execLaneStuck a0 a1 s) := by
  unfold execLaneStuck
  repeat' first
    | with_reducible assumption
    | (intro (s : State) (h : Kept b p i s))
    | (intro _ (s : State) (h : Kept b p i s))
    | (intro (h : Kept b p i _))
    | (intro (s' : State); refine_lift have h : Kept b p i s' := ?_; ?_; clear_value s')
    | lift_lets
    | with_reducible apply keptO_next
    | with_reducible apply kept_ite
    | with_reducible apply keptO_ite
    | with_reducible apply kept_overloadChange
    | with_reducible apply kept_raiseTrigger
    | with_reducible apply kept_onLane
    | with_reducible refine kept_foldl ?_ (fun s a h => ?_)
    | (intro x'; clear_value x')
    | intro _
    | dsimp only [s']
    | split

theorem kept_execLaneClkerr (a0 : ℕ) (h : Kept b p i s) :
    KeptO b p i (execLaneClkerr a0 s) := by
  unfold execLaneClkerr
  repeat' first
    | with_reducible assumption
    | (intro (s : State) (h : Kept b p i s))
    | (intro _ (s : State) (h : Kept b p i s))
    | (intro (h : Kept b p i _))
    | (intro (s' : State); refine_lift have h : Kept b p i s' := ?_; ?_; clear_value s')
    | lift_lets
    | with_reducible apply keptO_next
    | with_reducible apply kept_ite
    | with_reducible apply keptO_ite
    | with_reducible apply kept_raiseTrigger
    | with_reducible apply kept_onLane
    | with_reducible refine kept_foldl ?_ (fun s a h => ?_)
    | (intro x'; clear_value x')
    | intro _
    | dsimp only [s']
    | split

theorem kept_execModulatorClockReturn (a0 : ℕ) (h : Kept b p i s) :
    KeptO b p i (execModulatorClockReturn a0 s) := by
  unfold execModulatorClockReturn
  repeat' first
    | with_reducible assumption
    | (intro (s : State) (h : Kept b p i s))
    | (intro _ (s : State) (h : Kept b p i s))
    | (intro (h : Kept b p i _))
    | (intro (s' : State); refine_lift have h : Kept b p i s' := ?_; ?_; clear_value s')
    | lift_lets
    | with_reducible apply keptO_next
    | with_reducible apply kept_ite
    | with_reducible apply keptO_ite
    | with_reducible apply kept_onLane
    | with_reducible refine kept_foldl ?_ (fun s a h => ?_)
    | (intro x'; clear_value x')
    | intro _
    | dsimp only [s']
    | split

theorem kept_formTap (a0 : ℕ) (a1 : ℕ) (h : Kept b p i s) :
    Kept b p i (formTap a0 a1 s) := by
  unfold formTap
  repeat' first
    | with_reducible assumption
    | (intro (s : State) (h : Kept b p i s))
    | (intro _ (s : State) (h : Kept b p i s))
    | (intro (h : Kept b p i _))
    | (intro (s' : State); refine_lift have h : Kept b p i s' := ?_; ?_; clear_value s')
    | lift_lets
    | with_reducible apply keptO_next
    | with_reducible apply kept_ite
    | with_reducible apply kept_onLane
    | with_reducible apply kept_bump
    | with_reducible refine kept_foldl ?_ (fun s a h => ?_)
    | (intro x'; clear_value x')
    | intro _
    | dsimp only [s']
    | split

theorem kept_forgetPhases  (h : Kept b p i s) :
    Kept b p i (forgetPhases s) := by
  unfold forgetPhases
  repeat' first
    | with_reducible assumption
    | (intro (s : State) (h : Kept b p i s))
    | (intro _ (s : State) (h : Kept b p i s))
    | (intro (h : Kept b p i _))
    | (intro (s' : State); refine_lift have h : Kept b p i s' := ?_; ?_; clear_value s')
    | lift_lets
    | with_reducible apply keptO_next
    | with_reducible apply kept_ite
    | with_reducible apply kept_onGlk
    | with_reducible refine kept_foldl ?_ (fun s a h => ?_)
    | (intro x'; clear_value x')
    | intro _
    | dsimp only [s']
    | split

theorem kept_zcCheck  (h : Kept b p i s) :
    Kept b p i (zcCheck s) := by
  unfold zcCheck
  repeat' first
    | with_reducible assumption
    | (intro (s : State) (h : Kept b p i s))
    | (intro _ (s : State) (h : Kept b p i s))
    | (intro (h : Kept b p i _))
    | (intro (s' : State); refine_lift have h : Kept b p i s' := ?_; ?_; clear_value s')
    | lift_lets
    | with_reducible apply keptO_next
    | with_reducible apply kept_ite
    | with_reducible apply kept_forgetPhases
    | with_reducible refine kept_foldl ?_ (fun s a h => ?_)
    | (intro x'; clear_value x')
    | intro _
    | dsimp only [s']
    | split

theorem kept_execResamplerCycle (a0 : ℕ) (a1 : ℕ) (h : Kept b p i s) :
    KeptO b p i (execResamplerCycle a0 a1 s) := by
  unfold execResamplerCycle
  repeat' first
    | with_reducible assumption
    | (intro (s : State) (h : Kept b p i s))
    | (intro _ (s : State) (h : Kept b p i s))
    | (intro (h : Kept b p i _))
    | (intro (s' : State); refine_lift have h : Kept b p i s' := ?_; ?_; clear_value s')
    | lift_lets
    | with_reducible apply keptO_next
    | with_reducible apply kept_ite
    | with_reducible apply keptO_ite
    | with_reducible apply kept_onLaneBlk
    | with_reducible apply kept_zcCheck
    | with_reducible apply kept_logEv
    | with_reducible refine kept_foldl ?_ (fun s a h => ?_)
    | (intro (x : LaneBlock) hx; first | (simp only [LaneBlock.shape] at hx ⊢; with_reducible exact hx) | (simp only [LaneBlock.shape, List.length_mapIdx, List.length_map, upd_length, put_length] at hx ⊢; with_reducible exact hx) | (simp_all [LaneBlock.shape]; done) | ((repeat' split) <;> first | exact hx | (simp_all [LaneBlock.shape]; done)))
    | (intro x'; clear_value x')
    | intro _
    | dsimp only [s']
    | split

theorem kept_execDetectorUpdate (a0 : ℕ) (a1 : Bool) (a2 : Bool) (h : Kept b p i s) :
    KeptO b p i (execDetectorUpdate a0 a1 a2 s) := by
  unfold execDetectorUpdate
  repeat' first
    | with_reducible assumption
    | (intro (s : State) (h : Kept b p i s))
    | (intro _ (s : State) (h : Kept b p i s))
    | (intro (h : Kept b p i _))
    | (intro (s' : State); refine_lift have h : Kept b p i s' := ?_; ?_; clear_value s')
    | lift_lets
    | with_reducible apply keptO_next
    | with_reducible apply kept_ite
    | with_reducible apply keptO_ite
    | with_reducible apply kept_onLane
    | with_reducible apply kept_bump
    | with_reducible refine kept_foldl ?_ (fun s a h => ?_)
    | (intro x'; clear_value x')
    | intro _
    | dsimp only [s']
    | split

end Sys2Proof.Machine
end

