-- ==== Sys2Proof/Laws/KeptMetstore.lean ====
section
/-! SUPPORT. What the operations of Metstore.lean keep. -/

set_option linter.unusedSimpArgs false
set_option linter.unusedVariables false
set_option linter.unreachableTactic false
set_option linter.unusedTactic false

namespace Sys2Proof.Machine

variable {b : Prop} {p : List Instr} {i : Ident} {s : State}

theorem kept_legalEv (a0 : ℕ) (a1 : ℕ) (a2 : ℕ) (a3 : List (ℕ × ℕ)) (h : Kept b p i s) :
    Kept b p i (legalEv a0 a1 a2 a3 s) := by
  unfold legalEv
  repeat' first
    | with_reducible assumption
    | (intro (s : State) (h : Kept b p i s))
    | (intro _ (s : State) (h : Kept b p i s))
    | (intro (h : Kept b p i _))
    | (intro (s' : State); refine_lift have h : Kept b p i s' := ?_; ?_; clear_value s')
    | lift_lets
    | with_reducible apply keptO_next
    | with_reducible apply kept_ite
    | with_reducible apply kept_onMet
    | with_reducible refine kept_foldl ?_ (fun s a h => ?_)
    | (intro (x : MetBlock) hx; first | (simp only [MetBlock.shape] at hx ⊢; with_reducible exact hx) | (simp only [MetBlock.shape, List.length_mapIdx, List.length_map, upd_length, put_length] at hx ⊢; with_reducible exact hx) | (simp_all [MetBlock.shape]; done) | ((repeat' split) <;> first | exact hx | (simp_all [MetBlock.shape]; done)))
    | (intro x'; clear_value x')
    | intro _
    | dsimp only [s']
    | split

theorem kept_archiveLegal (a0 : LogRec) (h : Kept b p i s) :
    Kept b p i (archiveLegal a0 s) := by
  unfold archiveLegal
  repeat' first
    | with_reducible assumption
    | (intro (s : State) (h : Kept b p i s))
    | (intro _ (s : State) (h : Kept b p i s))
    | (intro (h : Kept b p i _))
    | (intro (s' : State); refine_lift have h : Kept b p i s' := ?_; ?_; clear_value s')
    | lift_lets
    | with_reducible apply keptO_next
    | with_reducible apply kept_ite
    | with_reducible apply kept_onMgt
    | with_reducible apply kept_logEv
    | with_reducible refine kept_foldl ?_ (fun s a h => ?_)
    | (intro (x : MgtBlock) hx; first | exact hx | exact ⟨Nat.zero_le _, Nat.zero_le _⟩ | exact ⟨hx.1, Nat.zero_le _⟩)
    | (intro x'; clear_value x')
    | intro _
    | dsimp only [s']
    | split

theorem kept_checkWatermark  (h : Kept b p i s) :
    Kept b p i (checkWatermark s) := by
  unfold checkWatermark
  repeat' first
    | with_reducible assumption
    | (intro (s : State) (h : Kept b p i s))
    | (intro _ (s : State) (h : Kept b p i s))
    | (intro (h : Kept b p i _))
    | (intro (s' : State); refine_lift have h : Kept b p i s' := ?_; ?_; clear_value s')
    | lift_lets
    | with_reducible apply keptO_next
    | with_reducible apply kept_ite
    | with_reducible apply kept_onMgt
    | with_reducible apply kept_notice
    | with_reducible refine kept_foldl ?_ (fun s a h => ?_)
    | (intro (x : MgtBlock) hx; first | exact hx | exact ⟨Nat.zero_le _, Nat.zero_le _⟩ | exact ⟨hx.1, Nat.zero_le _⟩)
    | (intro x'; clear_value x')
    | intro _
    | dsimp only [s']
    | split

theorem kept_execLegalEventConfirm (a0 : ℕ) (h : Kept b p i s) :
    KeptO b p i (execLegalEventConfirm a0 s) := by
  unfold execLegalEventConfirm
  repeat' first
    | with_reducible assumption
    | (intro (s : State) (h : Kept b p i s))
    | (intro _ (s : State) (h : Kept b p i s))
    | (intro (h : Kept b p i _))
    | (intro (s' : State); refine_lift have h : Kept b p i s' := ?_; ?_; clear_value s')
    | lift_lets
    | with_reducible apply keptO_next
    | with_reducible apply kept_ite
    | with_reducible apply keptO_ite
    | with_reducible apply kept_archiveLegal
    | with_reducible apply kept_onMgt
    | with_reducible apply kept_checkWatermark
    | with_reducible apply kept_onMet
    | with_reducible refine kept_foldl ?_ (fun s a h => ?_)
    | (intro (x : MetBlock) hx; first | (simp only [MetBlock.shape] at hx ⊢; with_reducible exact hx) | (simp only [MetBlock.shape, List.length_mapIdx, List.length_map, upd_length, put_length] at hx ⊢; with_reducible exact hx) | (simp_all [MetBlock.shape]; done) | ((repeat' split) <;> first | exact hx | (simp_all [MetBlock.shape]; done)))
    | (intro (x : MgtBlock) hx; first | exact hx | exact ⟨Nat.zero_le _, Nat.zero_le _⟩ | exact ⟨hx.1, Nat.zero_le _⟩)
    | (intro x'; clear_value x')
    | intro _
    | dsimp only [s']
    | split

theorem kept_onCounters (a0 : LegalCounters → LegalCounters) (h : Kept b p i s) :
    Kept b p i (onCounters a0 s) := by
  unfold onCounters
  repeat' first
    | with_reducible assumption
    | (intro (s : State) (h : Kept b p i s))
    | (intro _ (s : State) (h : Kept b p i s))
    | (intro (h : Kept b p i _))
    | (intro (s' : State); refine_lift have h : Kept b p i s' := ?_; ?_; clear_value s')
    | lift_lets
    | with_reducible apply keptO_next
    | with_reducible apply kept_ite
    | with_reducible apply kept_onMet
    | with_reducible refine kept_foldl ?_ (fun s a h => ?_)
    | (intro (x : MetBlock) hx; first | (simp only [MetBlock.shape] at hx ⊢; with_reducible exact hx) | (simp only [MetBlock.shape, List.length_mapIdx, List.length_map, upd_length, put_length] at hx ⊢; with_reducible exact hx) | (simp_all [MetBlock.shape]; done) | ((repeat' split) <;> first | exact hx | (simp_all [MetBlock.shape]; done)))
    | (intro x'; clear_value x')
    | intro _
    | dsimp only [s']
    | split

theorem kept_captureAs (a0 : ℕ) (a1 : ℕ) (a2 : ℕ) (a3 : ℕ) (a4 : ℕ) (a5 : Bytes) (a6 : Option ℕ) (h : Kept b p i s) :
    Kept b p i (captureAs a0 a1 a2 a3 a4 a5 a6 s) := by
  unfold captureAs
  refine kept_onMet h fun x hx => ?_
  unfold enqueue
  split <;> simpa [MetBlock.shape] using hx

theorem kept_takeGens (a0 : ℕ) (h : Kept b p i s) :
    Kept b p i (takeGens a0 s) := by
  unfold takeGens
  repeat' first
    | with_reducible assumption
    | (intro (s : State) (h : Kept b p i s))
    | (intro _ (s : State) (h : Kept b p i s))
    | (intro (h : Kept b p i _))
    | (intro (s' : State); refine_lift have h : Kept b p i s' := ?_; ?_; clear_value s')
    | lift_lets
    | with_reducible apply keptO_next
    | with_reducible apply kept_ite
    | with_reducible apply kept_onCounters
    | with_reducible refine kept_foldl ?_ (fun s a h => ?_)
    | (intro x'; clear_value x')
    | intro _
    | dsimp only [s']
    | split

theorem kept_capture (a0 : ℕ) (a1 : ℕ) (a2 : ℕ) (a3 : ℕ) (a4 : Bytes) (a5 : Option ℕ) (h : Kept b p i s) :
    Kept b p i (capture a0 a1 a2 a3 a4 a5 s) := by
  unfold capture
  repeat' first
    | with_reducible assumption
    | (intro (s : State) (h : Kept b p i s))
    | (intro _ (s : State) (h : Kept b p i s))
    | (intro (h : Kept b p i _))
    | (intro (s' : State); refine_lift have h : Kept b p i s' := ?_; ?_; clear_value s')
    | lift_lets
    | with_reducible apply keptO_next
    | with_reducible apply kept_ite
    | with_reducible apply kept_captureAs
    | with_reducible apply kept_takeGens
    | with_reducible refine kept_foldl ?_ (fun s a h => ?_)
    | (intro x'; clear_value x')
    | intro _
    | dsimp only [s']
    | split

theorem kept_execSnapshotSigned  (h : Kept b p i s) :
    KeptO b p i (execSnapshotSigned s) := by
  unfold execSnapshotSigned
  repeat' first
    | with_reducible assumption
    | (intro (s : State) (h : Kept b p i s))
    | (intro _ (s : State) (h : Kept b p i s))
    | (intro (h : Kept b p i _))
    | (intro (s' : State); refine_lift have h : Kept b p i s' := ?_; ?_; clear_value s')
    | lift_lets
    | with_reducible apply keptO_next
    | with_reducible apply kept_ite
    | with_reducible apply keptO_ite
    | with_reducible apply kept_bump
    | with_reducible apply kept_onMet
    | with_reducible apply kept_onMgt
    | with_reducible apply kept_onBil
    | with_reducible refine kept_foldl ?_ (fun s a h => ?_)
    | (intro (x : MetBlock) hx; first | (simp only [MetBlock.shape] at hx ⊢; with_reducible exact hx) | (simp only [MetBlock.shape, List.length_mapIdx, List.length_map, upd_length, put_length] at hx ⊢; with_reducible exact hx) | (simp_all [MetBlock.shape]; done) | ((repeat' split) <;> first | exact hx | (simp_all [MetBlock.shape]; done)))
    | (intro (x : BilBlock) hx; first | (simp only [BilBlock.shape] at hx ⊢; with_reducible exact hx) | (simp only [BilBlock.shape, List.length_mapIdx, List.length_map, upd_length, put_length] at hx ⊢; with_reducible exact hx) | (simp_all [BilBlock.shape]; done) | ((repeat' split) <;> first | exact hx | (simp_all [BilBlock.shape]; done)))
    | (intro (x : MgtBlock) hx; first | exact hx | exact ⟨Nat.zero_le _, Nat.zero_le _⟩ | exact ⟨hx.1, Nat.zero_le _⟩)
    | (intro x'; clear_value x')
    | intro _
    | dsimp only [s']
    | split

theorem kept_snapctlWrite (a0 : ℕ) (h : Kept b p i s) :
    Kept b p i (snapctlWrite a0 s) := by
  unfold snapctlWrite
  repeat' first
    | with_reducible assumption
    | (intro (s : State) (h : Kept b p i s))
    | (intro _ (s : State) (h : Kept b p i s))
    | (intro (h : Kept b p i _))
    | (intro (s' : State); refine_lift have h : Kept b p i s' := ?_; ?_; clear_value s')
    | lift_lets
    | with_reducible apply keptO_next
    | with_reducible apply kept_ite
    | with_reducible apply kept_onMet
    | with_reducible refine kept_foldl ?_ (fun s a h => ?_)
    | (intro (x : MetBlock) hx; first | (simp only [MetBlock.shape] at hx ⊢; with_reducible exact hx) | (simp only [MetBlock.shape, List.length_mapIdx, List.length_map, upd_length, put_length] at hx ⊢; with_reducible exact hx) | (simp_all [MetBlock.shape]; done) | ((repeat' split) <;> first | exact hx | (simp_all [MetBlock.shape]; done)))
    | (intro x'; clear_value x')
    | intro _
    | dsimp only [s']
    | split

theorem kept_execSnapctlTake (a0 : Word) (h : Kept b p i s) :
    KeptO b p i (execSnapctlTake a0 s) := by
  unfold execSnapctlTake
  repeat' first
    | with_reducible assumption
    | (intro (s : State) (h : Kept b p i s))
    | (intro _ (s : State) (h : Kept b p i s))
    | (intro (h : Kept b p i _))
    | (intro (s' : State); refine_lift have h : Kept b p i s' := ?_; ?_; clear_value s')
    | lift_lets
    | with_reducible apply keptO_next
    | with_reducible apply kept_ite
    | with_reducible apply keptO_ite
    | with_reducible apply kept_snapctlWrite
    | with_reducible refine kept_foldl ?_ (fun s a h => ?_)
    | (intro x'; clear_value x')
    | intro _
    | dsimp only [s']
    | split

theorem kept_dropRequest  (h : Kept b p i s) :
    Kept b p i (dropRequest s) := by
  unfold dropRequest
  repeat' first
    | with_reducible assumption
    | (intro (s : State) (h : Kept b p i s))
    | (intro _ (s : State) (h : Kept b p i s))
    | (intro (h : Kept b p i _))
    | (intro (s' : State); refine_lift have h : Kept b p i s' := ?_; ?_; clear_value s')
    | lift_lets
    | with_reducible apply keptO_next
    | with_reducible apply kept_ite
    | with_reducible apply kept_onMet
    | with_reducible refine kept_foldl ?_ (fun s a h => ?_)
    | (intro (x : MetBlock) hx; first | (simp only [MetBlock.shape] at hx ⊢; with_reducible exact hx) | (simp only [MetBlock.shape, List.length_mapIdx, List.length_map, upd_length, put_length] at hx ⊢; with_reducible exact hx) | (simp_all [MetBlock.shape]; done) | ((repeat' split) <;> first | exact hx | (simp_all [MetBlock.shape]; done)))
    | (intro x'; clear_value x')
    | intro _
    | dsimp only [s']
    | split

theorem kept_beginSave (a0 : ℕ) (h : Kept b p i s) :
    Kept b p i (beginSave a0 s) := by
  unfold beginSave
  repeat' first
    | with_reducible assumption
    | (intro (s : State) (h : Kept b p i s))
    | (intro _ (s : State) (h : Kept b p i s))
    | (intro (h : Kept b p i _))
    | (intro (s' : State); refine_lift have h : Kept b p i s' := ?_; ?_; clear_value s')
    | lift_lets
    | with_reducible apply keptO_next
    | with_reducible apply kept_ite
    | with_reducible apply kept_onMet
    | with_reducible refine kept_foldl ?_ (fun s a h => ?_)
    | (intro (x : MetBlock) hx; first | (simp only [MetBlock.shape] at hx ⊢; with_reducible exact hx) | (simp only [MetBlock.shape, List.length_mapIdx, List.length_map, upd_length, put_length] at hx ⊢; with_reducible exact hx) | (simp_all [MetBlock.shape]; done) | ((repeat' split) <;> first | exact hx | (simp_all [MetBlock.shape]; done)))
    | (intro x'; clear_value x')
    | intro _
    | dsimp only [s']
    | split

theorem kept_saveAtOnce (a0 : ℕ) (h : Kept b p i s) :
    Kept b p i (saveAtOnce a0 s) := by
  unfold saveAtOnce
  repeat' first
    | with_reducible assumption
    | (intro (s : State) (h : Kept b p i s))
    | (intro _ (s : State) (h : Kept b p i s))
    | (intro (h : Kept b p i _))
    | (intro (s' : State); refine_lift have h : Kept b p i s' := ?_; ?_; clear_value s')
    | lift_lets
    | with_reducible apply keptO_next
    | with_reducible apply kept_ite
    | with_reducible apply kept_onMet
    | with_reducible refine kept_foldl ?_ (fun s a h => ?_)
    | (intro (x : MetBlock) hx; first | (simp only [MetBlock.shape] at hx ⊢; with_reducible exact hx) | (simp only [MetBlock.shape, List.length_mapIdx, List.length_map, upd_length, put_length] at hx ⊢; with_reducible exact hx) | (simp_all [MetBlock.shape]; done) | ((repeat' split) <;> first | exact hx | (simp_all [MetBlock.shape]; done)))
    | (intro x'; clear_value x')
    | intro _
    | dsimp only [s']
    | split

theorem kept_execSaveComplete  (h : Kept b p i s) :
    KeptO b p i (execSaveComplete s) := by
  unfold execSaveComplete
  repeat' first
    | with_reducible assumption
    | (intro (s : State) (h : Kept b p i s))
    | (intro _ (s : State) (h : Kept b p i s))
    | (intro (h : Kept b p i _))
    | (intro (s' : State); refine_lift have h : Kept b p i s' := ?_; ?_; clear_value s')
    | lift_lets
    | with_reducible apply keptO_next
    | with_reducible apply kept_ite
    | with_reducible apply keptO_ite
    | with_reducible apply kept_onMet
    | with_reducible refine kept_foldl ?_ (fun s a h => ?_)
    | (intro (x : MetBlock) hx; first | (simp only [MetBlock.shape] at hx ⊢; with_reducible exact hx) | (simp only [MetBlock.shape, List.length_mapIdx, List.length_map, upd_length, put_length] at hx ⊢; with_reducible exact hx) | (simp_all [MetBlock.shape]; done) | ((repeat' split) <;> first | exact hx | (simp_all [MetBlock.shape]; done)))
    | (intro x'; clear_value x')
    | intro _
    | dsimp only [s']
    | split

theorem kept_restoreAcc (a0 : SaveRec) (a1 : ℕ) (h : Kept b p i s) :
    Kept b p i (restoreAcc a0 a1 s) := by
  unfold restoreAcc
  repeat' first
    | with_reducible assumption
    | (intro (s : State) (h : Kept b p i s))
    | (intro _ (s : State) (h : Kept b p i s))
    | (intro (h : Kept b p i _))
    | (intro (s' : State); refine_lift have h : Kept b p i s' := ?_; ?_; clear_value s')
    | lift_lets
    | with_reducible apply keptO_next
    | with_reducible apply kept_ite
    | with_reducible apply kept_onMetOut
    | with_reducible apply kept_onBilOut
    | with_reducible refine kept_foldl ?_ (fun s a h => ?_)
    | (intro x'; clear_value x')
    | intro _
    | dsimp only [s']
    | split

theorem kept_accRestore (a0 : ℕ) (h : Kept b p i s) :
    Kept b p i (accRestore a0 s) := by
  unfold accRestore
  repeat' first
    | with_reducible assumption
    | (intro (s : State) (h : Kept b p i s))
    | (intro _ (s : State) (h : Kept b p i s))
    | (intro (h : Kept b p i _))
    | (intro (s' : State); refine_lift have h : Kept b p i s' := ?_; ?_; clear_value s')
    | lift_lets
    | with_reducible apply keptO_next
    | with_reducible apply kept_ite
    | with_reducible apply kept_onCounters
    | with_reducible apply kept_restoreAcc
    | with_reducible apply kept_legalEv
    | with_reducible apply kept_onMetOut
    | with_reducible apply kept_onBilOut
    | with_reducible refine kept_foldl ?_ (fun s a h => ?_)
    | (intro x'; clear_value x')
    | intro _
    | dsimp only [s']
    | split

theorem kept_accCheck (a0 : ℕ) (a1 : List AccFault) (h : Kept b p i s) :
    Kept b p i (accCheck a0 a1 s) := by
  unfold accCheck
  repeat' first
    | with_reducible assumption
    | (intro (s : State) (h : Kept b p i s))
    | (intro _ (s : State) (h : Kept b p i s))
    | (intro (h : Kept b p i _))
    | (intro (s' : State); refine_lift have h : Kept b p i s' := ?_; ?_; clear_value s')
    | lift_lets
    | with_reducible apply keptO_next
    | with_reducible apply kept_ite
    | with_reducible apply kept_onMetOut
    | with_reducible apply kept_accRestore
    | with_reducible refine kept_foldl ?_ (fun s a h => ?_)
    | (intro x'; clear_value x')
    | intro _
    | dsimp only [s']
    | split

theorem kept_restoreLedger (a0 : Ledger) (h : Kept b p i s) :
    Kept b p i (restoreLedger a0 s) := by
  unfold restoreLedger
  repeat' first
    | with_reducible assumption
    | (intro (s : State) (h : Kept b p i s))
    | (intro _ (s : State) (h : Kept b p i s))
    | (intro (h : Kept b p i _))
    | (intro (s' : State); refine_lift have h : Kept b p i s' := ?_; ?_; clear_value s')
    | lift_lets
    | with_reducible apply keptO_next
    | with_reducible apply kept_ite
    | with_reducible apply kept_onBil
    | with_reducible refine kept_foldl ?_ (fun s a h => ?_)
    | (intro (x : BilBlock) hx; first | (simp only [BilBlock.shape] at hx ⊢; with_reducible exact hx) | (simp only [BilBlock.shape, List.length_mapIdx, List.length_map, upd_length, put_length] at hx ⊢; with_reducible exact hx) | (simp_all [BilBlock.shape]; done) | ((repeat' split) <;> first | exact hx | (simp_all [BilBlock.shape]; done)))
    | (intro x'; clear_value x')
    | intro _
    | dsimp only [s']
    | split

theorem kept_restoreDemand (a0 : SaveRec) (a1 : ℕ) (h : Kept b p i s) :
    Kept b p i (restoreDemand a0 a1 s) := by
  unfold restoreDemand
  repeat' first
    | with_reducible assumption
    | (intro (s : State) (h : Kept b p i s))
    | (intro _ (s : State) (h : Kept b p i s))
    | (intro (h : Kept b p i _))
    | (intro (s' : State); refine_lift have h : Kept b p i s' := ?_; ?_; clear_value s')
    | lift_lets
    | with_reducible apply keptO_next
    | with_reducible apply kept_ite
    | with_reducible apply kept_onBilOut
    | with_reducible refine kept_foldl ?_ (fun s a h => ?_)
    | (intro x'; clear_value x')
    | intro _
    | dsimp only [s']
    | split

theorem kept_loRead (a0 : Side) (a1 : MetLo) (a2 : ℕ) (h : Kept b p i s) :
    Kept b p i (loRead a0 a1 a2 s) := by
  unfold loRead
  repeat' first
    | with_reducible assumption
    | (intro (s : State) (h : Kept b p i s))
    | (intro _ (s : State) (h : Kept b p i s))
    | (intro (h : Kept b p i _))
    | (intro (s' : State); refine_lift have h : Kept b p i s' := ?_; ?_; clear_value s')
    | lift_lets
    | with_reducible apply keptO_next
    | with_reducible apply kept_ite
    | with_reducible apply kept_returns
    | with_reducible apply kept_onMet
    | with_reducible refine kept_foldl ?_ (fun s a h => ?_)
    | (intro (x : MetBlock) hx; first | (simp only [MetBlock.shape] at hx ⊢; with_reducible exact hx) | (simp only [MetBlock.shape, List.length_mapIdx, List.length_map, upd_length, put_length] at hx ⊢; with_reducible exact hx) | (simp_all [MetBlock.shape]; done) | ((repeat' split) <;> first | exact hx | (simp_all [MetBlock.shape]; done)))
    | (intro x'; clear_value x')
    | intro _
    | dsimp only [s']
    | split

theorem kept_execEnergyLoRead (a0 : Side) (a1 : ℕ) (a2 : ℕ) (h : Kept b p i s) :
    KeptO b p i (execEnergyLoRead a0 a1 a2 s) := by
  unfold execEnergyLoRead
  repeat' first
    | with_reducible assumption
    | (intro (s : State) (h : Kept b p i s))
    | (intro _ (s : State) (h : Kept b p i s))
    | (intro (h : Kept b p i _))
    | (intro (s' : State); refine_lift have h : Kept b p i s' := ?_; ?_; clear_value s')
    | lift_lets
    | with_reducible apply keptO_next
    | with_reducible apply kept_ite
    | with_reducible apply keptO_ite
    | with_reducible apply kept_loRead
    | with_reducible refine kept_foldl ?_ (fun s a h => ?_)
    | (intro x'; clear_value x')
    | intro _
    | dsimp only [s']
    | split

theorem kept_execHarmLoRead (a0 : Side) (h : Kept b p i s) :
    KeptO b p i (execHarmLoRead a0 s) := by
  unfold execHarmLoRead
  repeat' first
    | with_reducible assumption
    | (intro (s : State) (h : Kept b p i s))
    | (intro _ (s : State) (h : Kept b p i s))
    | (intro (h : Kept b p i _))
    | (intro (s' : State); refine_lift have h : Kept b p i s' := ?_; ?_; clear_value s')
    | lift_lets
    | with_reducible apply keptO_next
    | with_reducible apply kept_ite
    | with_reducible apply keptO_ite
    | with_reducible apply kept_loRead
    | with_reducible refine kept_foldl ?_ (fun s a h => ?_)
    | (intro x'; clear_value x')
    | intro _
    | dsimp only [s']
    | split

theorem kept_execCalAccLoRead (a0 : Side) (a1 : ℕ) (a2 : Bool) (h : Kept b p i s) :
    KeptO b p i (execCalAccLoRead a0 a1 a2 s) := by
  unfold execCalAccLoRead
  repeat' first
    | with_reducible assumption
    | (intro (s : State) (h : Kept b p i s))
    | (intro _ (s : State) (h : Kept b p i s))
    | (intro (h : Kept b p i _))
    | (intro (s' : State); refine_lift have h : Kept b p i s' := ?_; ?_; clear_value s')
    | lift_lets
    | with_reducible apply keptO_next
    | with_reducible apply kept_ite
    | with_reducible apply keptO_ite
    | with_reducible apply kept_loRead
    | with_reducible refine kept_foldl ?_ (fun s a h => ?_)
    | (intro x'; clear_value x')
    | intro _
    | dsimp only [s']
    | split

end Sys2Proof.Machine
end

