-- ==== Sys2Proof/Laws/KeptProtect.lean ====
section
/-! SUPPORT. What the operations of Protect.lean keep. -/

set_option linter.unusedSimpArgs false
set_option linter.unusedVariables false
set_option linter.unreachableTactic false
set_option linter.unusedTactic false

namespace Sys2Proof.Machine

variable {b : Prop} {p : List Instr} {i : Ident} {s : State}

theorem kept_lockLost (a0 : ℕ) (a1 : ℕ) (a2 : ℕ) (h : Kept b p i s) :
    Kept b p i (lockLost a0 a1 a2 s) := by
  unfold lockLost
  repeat' first
    | with_reducible assumption
    | (intro (s : State) (h : Kept b p i s))
    | (intro _ (s : State) (h : Kept b p i s))
    | (intro (h : Kept b p i _))
    | (intro (s' : State); refine_lift have h : Kept b p i s' := ?_; ?_; clear_value s')
    | lift_lets
    | with_reducible apply keptO_next
    | with_reducible apply kept_ite
    | with_reducible apply kept_slacCheck
    | with_reducible apply kept_logEv
    | with_reducible apply kept_onLock
    | with_reducible refine kept_foldl ?_ (fun s a h => ?_)
    | (intro x'; clear_value x')
    | intro _
    | dsimp only [s']
    | split

theorem kept_lockWatch (a0 : ℕ) (h : Kept b p i s) :
    Kept b p i (lockWatch a0 s) := by
  unfold lockWatch
  repeat' first
    | with_reducible assumption
    | (intro (s : State) (h : Kept b p i s))
    | (intro _ (s : State) (h : Kept b p i s))
    | (intro (h : Kept b p i _))
    | (intro (s' : State); refine_lift have h : Kept b p i s' := ?_; ?_; clear_value s')
    | lift_lets
    | with_reducible apply keptO_next
    | with_reducible apply kept_ite
    | with_reducible apply kept_lockLost
    | with_reducible refine kept_foldl ?_ (fun s a h => ?_)
    | (intro x'; clear_value x')
    | intro _
    | dsimp only [s']
    | split

theorem kept_setCh (a0 : ℕ) (a1 : ChState) (h : Kept b p i s) :
    Kept b p i (setCh a0 a1 s) := by
  unfold setCh
  repeat' first
    | with_reducible assumption
    | (intro (s : State) (h : Kept b p i s))
    | (intro _ (s : State) (h : Kept b p i s))
    | (intro (h : Kept b p i _))
    | (intro (s' : State); refine_lift have h : Kept b p i s' := ?_; ?_; clear_value s')
    | lift_lets
    | with_reducible apply keptO_next
    | with_reducible apply kept_ite
    | with_reducible apply kept_lockWatch
    | with_reducible apply kept_onCh
    | with_reducible refine kept_foldl ?_ (fun s a h => ?_)
    | (intro x'; clear_value x')
    | intro _
    | dsimp only [s']
    | split

theorem kept_settleCh (a0 : ℕ) (h : Kept b p i s) :
    Kept b p i (settleCh a0 s) := by
  unfold settleCh
  repeat' first
    | with_reducible assumption
    | (intro (s : State) (h : Kept b p i s))
    | (intro _ (s : State) (h : Kept b p i s))
    | (intro (h : Kept b p i _))
    | (intro (s' : State); refine_lift have h : Kept b p i s' := ?_; ?_; clear_value s')
    | lift_lets
    | with_reducible apply keptO_next
    | with_reducible apply kept_ite
    | with_reducible apply kept_setCh
    | with_reducible refine kept_foldl ?_ (fun s a h => ?_)
    | (intro x'; clear_value x')
    | intro _
    | dsimp only [s']
    | split

theorem kept_settleAll  (h : Kept b p i s) :
    Kept b p i (settleAll s) := by
  unfold settleAll
  repeat' first
    | with_reducible assumption
    | (intro (s : State) (h : Kept b p i s))
    | (intro _ (s : State) (h : Kept b p i s))
    | (intro (h : Kept b p i _))
    | (intro (s' : State); refine_lift have h : Kept b p i s' := ?_; ?_; clear_value s')
    | lift_lets
    | with_reducible apply keptO_next
    | with_reducible apply kept_ite
    | with_reducible apply kept_settleCh
    | with_reducible refine kept_foldl ?_ (fun s a h => ?_)
    | (intro x'; clear_value x')
    | intro _
    | dsimp only [s']
    | split

theorem kept_settleContactors (a0 : ℕ) (h : Kept b p i s) :
    Kept b p i (settleContactors a0 s) := by
  unfold settleContactors
  repeat' first
    | with_reducible assumption
    | (intro (s : State) (h : Kept b p i s))
    | (intro _ (s : State) (h : Kept b p i s))
    | (intro (h : Kept b p i _))
    | (intro (s' : State); refine_lift have h : Kept b p i s' := ?_; ?_; clear_value s')
    | lift_lets
    | with_reducible apply keptO_next
    | with_reducible apply kept_ite
    | with_reducible apply kept_settleCh
    | with_reducible refine kept_foldl ?_ (fun s a h => ?_)
    | (intro x'; clear_value x')
    | intro _
    | dsimp only [s']
    | split

theorem kept_contactorDemand (a0 : ℕ) (a1 : Bool) (h : Kept b p i s) :
    Kept b p i (contactorDemand a0 a1 s) := by
  unfold contactorDemand
  repeat' first
    | with_reducible assumption
    | (intro (s : State) (h : Kept b p i s))
    | (intro _ (s : State) (h : Kept b p i s))
    | (intro (h : Kept b p i _))
    | (intro (s' : State); refine_lift have h : Kept b p i s' := ?_; ?_; clear_value s')
    | lift_lets
    | with_reducible apply keptO_next
    | with_reducible apply kept_ite
    | with_reducible apply kept_settleContactors
    | with_reducible apply kept_onCh
    | with_reducible refine kept_foldl ?_ (fun s a h => ?_)
    | (intro x'; clear_value x')
    | intro _
    | dsimp only [s']
    | split

theorem kept_dropRelease (a0 : ℕ) (h : Kept b p i s) :
    Kept b p i (dropRelease a0 s) := by
  unfold dropRelease
  repeat' first
    | with_reducible assumption
    | (intro (s : State) (h : Kept b p i s))
    | (intro _ (s : State) (h : Kept b p i s))
    | (intro (h : Kept b p i _))
    | (intro (s' : State); refine_lift have h : Kept b p i s' := ?_; ?_; clear_value s')
    | lift_lets
    | with_reducible apply keptO_next
    | with_reducible apply kept_ite
    | with_reducible apply kept_onOwl
    | with_reducible apply kept_contactorDemand
    | with_reducible apply kept_onLink
    | with_reducible refine kept_foldl ?_ (fun s a h => ?_)
    | (intro (x : OwlBlock) hx; first | (simp only [OwlBlock.shape] at hx ⊢; with_reducible exact hx) | (simp only [OwlBlock.shape, List.length_mapIdx, List.length_map, upd_length, put_length] at hx ⊢; with_reducible exact hx) | (simp_all [OwlBlock.shape]; done) | ((repeat' split) <;> first | exact hx | (simp_all [OwlBlock.shape]; done)))
    | (intro x'; clear_value x')
    | intro _
    | dsimp only [s']
    | split

theorem kept_assertLine  (h : Kept b p i s) :
    Kept b p i (assertLine s) := by
  unfold assertLine
  repeat' first
    | with_reducible assumption
    | (intro (s : State) (h : Kept b p i s))
    | (intro _ (s : State) (h : Kept b p i s))
    | (intro (h : Kept b p i _))
    | (intro (s' : State); refine_lift have h : Kept b p i s' := ?_; ?_; clear_value s')
    | lift_lets
    | with_reducible apply keptO_next
    | with_reducible apply kept_ite
    | with_reducible apply kept_settleAll
    | with_reducible apply kept_onOwl
    | with_reducible refine kept_foldl ?_ (fun s a h => ?_)
    | (intro (x : OwlBlock) hx; first | (simp only [OwlBlock.shape] at hx ⊢; with_reducible exact hx) | (simp only [OwlBlock.shape, List.length_mapIdx, List.length_map, upd_length, put_length] at hx ⊢; with_reducible exact hx) | (simp_all [OwlBlock.shape]; done) | ((repeat' split) <;> first | exact hx | (simp_all [OwlBlock.shape]; done)))
    | (intro x'; clear_value x')
    | intro _
    | dsimp only [s']
    | split

theorem kept_latchTrip (a0 : ℕ) (a1 : ℕ) (h : Kept b p i s) :
    Kept b p i (latchTrip a0 a1 s) := by
  unfold latchTrip
  repeat' first
    | with_reducible assumption
    | (intro (s : State) (h : Kept b p i s))
    | (intro _ (s : State) (h : Kept b p i s))
    | (intro (h : Kept b p i _))
    | (intro (s' : State); refine_lift have h : Kept b p i s' := ?_; ?_; clear_value s')
    | lift_lets
    | with_reducible apply keptO_next
    | with_reducible apply kept_ite
    | with_reducible apply kept_onOwl
    | with_reducible apply kept_settleAll
    | with_reducible refine kept_foldl ?_ (fun s a h => ?_)
    | (intro (x : OwlBlock) hx; first | (simp only [OwlBlock.shape] at hx ⊢; with_reducible exact hx) | (simp only [OwlBlock.shape, List.length_mapIdx, List.length_map, upd_length, put_length] at hx ⊢; with_reducible exact hx) | (simp_all [OwlBlock.shape]; done) | ((repeat' split) <;> first | exact hx | (simp_all [OwlBlock.shape]; done)))
    | (intro x'; clear_value x')
    | intro _
    | dsimp only [s']
    | split

theorem kept_recordSrc (a0 : ℕ) (a1 : ℕ) (a2 : ℕ) (h : Kept b p i s) :
    Kept b p i (recordSrc a0 a1 a2 s) := by
  unfold recordSrc
  repeat' first
    | with_reducible assumption
    | (intro (s : State) (h : Kept b p i s))
    | (intro _ (s : State) (h : Kept b p i s))
    | (intro (h : Kept b p i _))
    | (intro (s' : State); refine_lift have h : Kept b p i s' := ?_; ?_; clear_value s')
    | lift_lets
    | with_reducible apply keptO_next
    | with_reducible apply kept_ite
    | with_reducible apply kept_onFlt
    | with_reducible refine kept_foldl ?_ (fun s a h => ?_)
    | (intro (x : FltBlock) hx; first | (simp only [FltBlock.shape] at hx ⊢; with_reducible exact hx) | (simp only [FltBlock.shape, List.length_mapIdx, List.length_map, upd_length, put_length] at hx ⊢; with_reducible exact hx) | (simp_all [FltBlock.shape]; done) | ((repeat' split) <;> first | exact hx | (simp_all [FltBlock.shape]; done)))
    | (intro x'; clear_value x')
    | intro _
    | dsimp only [s']
    | split

theorem kept_clearCauses (a0 : ℕ) (a1 : ℕ) (h : Kept b p i s) :
    Kept b p i (clearCauses a0 a1 s) := by
  unfold clearCauses
  repeat' first
    | with_reducible assumption
    | (intro (s : State) (h : Kept b p i s))
    | (intro _ (s : State) (h : Kept b p i s))
    | (intro (h : Kept b p i _))
    | (intro (s' : State); refine_lift have h : Kept b p i s' := ?_; ?_; clear_value s')
    | lift_lets
    | with_reducible apply keptO_next
    | with_reducible apply kept_ite
    | with_reducible apply kept_onOwl
    | with_reducible apply kept_onFlt
    | with_reducible apply kept_settleAll
    | with_reducible refine kept_foldl ?_ (fun s a h => ?_)
    | (intro (x : FltBlock) hx; first | (simp only [FltBlock.shape] at hx ⊢; with_reducible exact hx) | (simp only [FltBlock.shape, List.length_mapIdx, List.length_map, upd_length, put_length] at hx ⊢; with_reducible exact hx) | (simp_all [FltBlock.shape]; done) | ((repeat' split) <;> first | exact hx | (simp_all [FltBlock.shape]; done)))
    | (intro (x : OwlBlock) hx; first | (simp only [OwlBlock.shape] at hx ⊢; with_reducible exact hx) | (simp only [OwlBlock.shape, List.length_mapIdx, List.length_map, upd_length, put_length] at hx ⊢; with_reducible exact hx) | (simp_all [OwlBlock.shape]; done) | ((repeat' split) <;> first | exact hx | (simp_all [OwlBlock.shape]; done)))
    | (intro x'; clear_value x')
    | intro _
    | dsimp only [s']
    | split

end Sys2Proof.Machine
end

