-- ==== Sys2Proof/Laws/KeptBilling.lean ====
section
/-! SUPPORT. What the operations of Billing.lean keep. -/

set_option linter.unusedSimpArgs false
set_option linter.unusedVariables false
set_option linter.unreachableTactic false
set_option linter.unusedTactic false

namespace Sys2Proof.Machine

variable {b : Prop} {p : List Instr} {i : Ident} {s : State}

theorem kept_onCtl (a0 : BillCtl → BillCtl) (h : Kept b p i s) :
    Kept b p i (onCtl a0 s) := by
  unfold onCtl
  repeat' first
    | with_reducible assumption
    | (intro (s : State) (h : Kept b p i s))
    | (intro _ (s : State) (h : Kept b p i s))
    | (intro (h : Kept b p i _))
    | (intro (s' : State); refine_lift have h : Kept b p i s' := ?_; ?_; clear_value s')
    | lift_lets
    | with_reducible apply keptO_next
    | with_reducible apply kept_ite
    | with_reducible apply kept_onBil
    | with_reducible refine kept_foldl ?_ (fun s a h => ?_)
    | (intro (x : BilBlock) hx; first | (simp only [BilBlock.shape] at hx ⊢; with_reducible exact hx) | (simp only [BilBlock.shape, List.length_mapIdx, List.length_map, upd_length, put_length] at hx ⊢; with_reducible exact hx) | (simp_all [BilBlock.shape]; done) | ((repeat' split) <;> first | exact hx | (simp_all [BilBlock.shape]; done)))
    | (intro x'; clear_value x')
    | intro _
    | dsimp only [s']
    | split

theorem kept_setCredit (a0 : ℤ) (h : Kept b p i s) :
    Kept b p i (setCredit a0 s) := by
  unfold setCredit
  repeat' first
    | with_reducible assumption
    | (intro (s : State) (h : Kept b p i s))
    | (intro _ (s : State) (h : Kept b p i s))
    | (intro (h : Kept b p i _))
    | (intro (s' : State); refine_lift have h : Kept b p i s' := ?_; ?_; clear_value s')
    | lift_lets
    | with_reducible apply keptO_next
    | with_reducible apply kept_ite
    | with_reducible apply kept_onBil
    | with_reducible apply kept_legalEv
    | with_reducible refine kept_foldl ?_ (fun s a h => ?_)
    | (intro (x : BilBlock) hx; first | (simp only [BilBlock.shape] at hx ⊢; with_reducible exact hx) | (simp only [BilBlock.shape, List.length_mapIdx, List.length_map, upd_length, put_length] at hx ⊢; with_reducible exact hx) | (simp_all [BilBlock.shape]; done) | ((repeat' split) <;> first | exact hx | (simp_all [BilBlock.shape]; done)))
    | (intro x'; clear_value x')
    | intro _
    | dsimp only [s']
    | split

theorem kept_accrueTariff (a0 : ℕ) (a1 : ℕ) (a2 : ℕ) (h : Kept b p i s) :
    Kept b p i (accrueTariff a0 a1 a2 s) := by
  unfold accrueTariff
  repeat' first
    | with_reducible assumption
    | (intro (s : State) (h : Kept b p i s))
    | (intro _ (s : State) (h : Kept b p i s))
    | (intro (h : Kept b p i _))
    | (intro (s' : State); refine_lift have h : Kept b p i s' := ?_; ?_; clear_value s')
    | lift_lets
    | with_reducible apply keptO_next
    | with_reducible apply kept_ite
    | with_reducible apply kept_onBilOut
    | with_reducible apply kept_setCredit
    | with_reducible refine kept_foldl ?_ (fun s a h => ?_)
    | (intro x'; clear_value x')
    | intro _
    | dsimp only [s']
    | split

theorem kept_restartDemand (a0 : ℕ) (a1 : ℕ) (a2 : Bool) (a3 : Bool) (h : Kept b p i s) :
    Kept b p i (restartDemand a0 a1 a2 a3 s) := by
  unfold restartDemand
  repeat' first
    | with_reducible assumption
    | (intro (s : State) (h : Kept b p i s))
    | (intro _ (s : State) (h : Kept b p i s))
    | (intro (h : Kept b p i _))
    | (intro (s' : State); refine_lift have h : Kept b p i s' := ?_; ?_; clear_value s')
    | lift_lets
    | with_reducible apply keptO_next
    | with_reducible apply kept_ite
    | with_reducible apply kept_onBilOut
    | with_reducible refine kept_foldl ?_ (fun s a h => ?_)
    | (intro x'; clear_value x')
    | intro _
    | dsimp only [s']
    | split

theorem kept_closeDemand (a0 : ℕ) (a1 : ℕ) (a2 : Bool) (h : Kept b p i s) :
    Kept b p i (closeDemand a0 a1 a2 s) := by
  unfold closeDemand
  repeat' first
    | with_reducible assumption
    | (intro (s : State) (h : Kept b p i s))
    | (intro _ (s : State) (h : Kept b p i s))
    | (intro (h : Kept b p i _))
    | (intro (s' : State); refine_lift have h : Kept b p i s' := ?_; ?_; clear_value s')
    | lift_lets
    | with_reducible apply keptO_next
    | with_reducible apply kept_ite
    | with_reducible apply kept_onBilOut
    | with_reducible refine kept_foldl ?_ (fun s a h => ?_)
    | (intro x'; clear_value x')
    | intro _
    | dsimp only [s']
    | split

theorem kept_closeEnds (a0 : ℕ) (a1 : ℕ) (a2 : ℕ) (h : Kept b p i s) :
    Kept b p i (closeEnds a0 a1 a2 s) := by
  induction a2 generalizing  s with
  | zero => exact h
  | succ n ih =>
  simp only [closeEnds]
  repeat' first
    | with_reducible assumption
    | (intro (s : State) (h : Kept b p i s))
    | (intro _ (s : State) (h : Kept b p i s))
    | (intro (h : Kept b p i _))
    | (intro (s' : State); refine_lift have h : Kept b p i s' := ?_; ?_; clear_value s')
    | lift_lets
    | with_reducible apply keptO_next
    | with_reducible apply kept_ite
    | with_reducible apply kept_closeDemand
    | with_reducible apply ih
    | with_reducible refine kept_foldl ?_ (fun s a h => ?_)
    | (intro x'; clear_value x')
    | intro _
    | dsimp only [s']
    | split

theorem kept_closeDue (a0 : ℕ) (a1 : ℕ) (h : Kept b p i s) :
    Kept b p i (closeDue a0 a1 s) := by
  unfold closeDue
  repeat' first
    | with_reducible assumption
    | (intro (s : State) (h : Kept b p i s))
    | (intro _ (s : State) (h : Kept b p i s))
    | (intro (h : Kept b p i _))
    | (intro (s' : State); refine_lift have h : Kept b p i s' := ?_; ?_; clear_value s')
    | lift_lets
    | with_reducible apply keptO_next
    | with_reducible apply kept_ite
    | with_reducible apply kept_closeEnds
    | with_reducible refine kept_foldl ?_ (fun s a h => ?_)
    | (intro x'; clear_value x')
    | intro _
    | dsimp only [s']
    | split

theorem kept_billingBoundary (a0 : ℕ) (a1 : ℕ) (h : Kept b p i s) :
    Kept b p i (billingBoundary a0 a1 s) := by
  unfold billingBoundary
  repeat' first
    | with_reducible assumption
    | (intro (s : State) (h : Kept b p i s))
    | (intro _ (s : State) (h : Kept b p i s))
    | (intro (h : Kept b p i _))
    | (intro (s' : State); refine_lift have h : Kept b p i s' := ?_; ?_; clear_value s')
    | lift_lets
    | with_reducible apply keptO_next
    | with_reducible apply kept_ite
    | with_reducible apply kept_capture
    | with_reducible apply kept_onBil
    | with_reducible apply kept_legalEv
    | with_reducible refine kept_foldl ?_ (fun s a h => ?_)
    | (intro (x : BilBlock) hx; first | (simp only [BilBlock.shape] at hx ⊢; with_reducible exact hx) | (simp only [BilBlock.shape, List.length_mapIdx, List.length_map, upd_length, put_length] at hx ⊢; with_reducible exact hx) | (simp_all [BilBlock.shape]; done) | ((repeat' split) <;> first | exact hx | (simp_all [BilBlock.shape]; done)))
    | (intro x'; clear_value x')
    | intro _
    | dsimp only [s']
    | split

theorem kept_activateCalendar (a0 : ℕ) (h : Kept b p i s) :
    Kept b p i (activateCalendar a0 s) := by
  unfold activateCalendar
  repeat' first
    | with_reducible assumption
    | (intro (s : State) (h : Kept b p i s))
    | (intro _ (s : State) (h : Kept b p i s))
    | (intro (h : Kept b p i _))
    | (intro (s' : State); refine_lift have h : Kept b p i s' := ?_; ?_; clear_value s')
    | lift_lets
    | with_reducible apply keptO_next
    | with_reducible apply kept_ite
    | with_reducible apply kept_onCtl
    | with_reducible apply kept_onBil
    | with_reducible apply kept_legalEv
    | with_reducible refine kept_foldl ?_ (fun s a h => ?_)
    | (intro (x : BilBlock) hx; first | (simp only [BilBlock.shape] at hx ⊢; with_reducible exact hx) | (simp only [BilBlock.shape, List.length_mapIdx, List.length_map, upd_length, put_length] at hx ⊢; with_reducible exact hx) | (simp_all [BilBlock.shape]; done) | ((repeat' split) <;> first | exact hx | (simp_all [BilBlock.shape]; done)))
    | (intro x'; clear_value x')
    | intro _
    | dsimp only [s']
    | split

theorem kept_switchTariff (a0 : ℕ) (a1 : ℕ) (h : Kept b p i s) :
    Kept b p i (switchTariff a0 a1 s) := by
  unfold switchTariff
  repeat' first
    | with_reducible assumption
    | (intro (s : State) (h : Kept b p i s))
    | (intro _ (s : State) (h : Kept b p i s))
    | (intro (h : Kept b p i _))
    | (intro (s' : State); refine_lift have h : Kept b p i s' := ?_; ?_; clear_value s')
    | lift_lets
    | with_reducible apply keptO_next
    | with_reducible apply kept_ite
    | with_reducible apply kept_onBilOut
    | with_reducible apply kept_onBil
    | with_reducible refine kept_foldl ?_ (fun s a h => ?_)
    | (intro (x : BilBlock) hx; first | (simp only [BilBlock.shape] at hx ⊢; with_reducible exact hx) | (simp only [BilBlock.shape, List.length_mapIdx, List.length_map, upd_length, put_length] at hx ⊢; with_reducible exact hx) | (simp_all [BilBlock.shape]; done) | ((repeat' split) <;> first | exact hx | (simp_all [BilBlock.shape]; done)))
    | (intro x'; clear_value x')
    | intro _
    | dsimp only [s']
    | split

theorem kept_noteStep (a0 : TimeStep) (h : Kept b p i s) :
    Kept b p i (noteStep a0 s) := by
  unfold noteStep
  repeat' first
    | with_reducible assumption
    | (intro (s : State) (h : Kept b p i s))
    | (intro _ (s : State) (h : Kept b p i s))
    | (intro (h : Kept b p i _))
    | (intro (s' : State); refine_lift have h : Kept b p i s' := ?_; ?_; clear_value s')
    | lift_lets
    | with_reducible apply keptO_next
    | with_reducible apply kept_ite
    | with_reducible apply kept_onCounters
    | with_reducible apply kept_onBil
    | with_reducible apply kept_legalEv
    | with_reducible refine kept_foldl ?_ (fun s a h => ?_)
    | (intro (x : BilBlock) hx; first | (simp only [BilBlock.shape] at hx ⊢; with_reducible exact hx) | (simp only [BilBlock.shape, List.length_mapIdx, List.length_map, upd_length, put_length] at hx ⊢; with_reducible exact hx) | (simp_all [BilBlock.shape]; done) | ((repeat' split) <;> first | exact hx | (simp_all [BilBlock.shape]; done)))
    | (intro x'; clear_value x')
    | intro _
    | dsimp only [s']
    | split

theorem kept_applyStep_restartAll (a0 : TimeStep) (a1 : ℕ) (h : Kept b p i s) :
    Kept b p i (applyStep.restartAll a0 a1 s) := by
  unfold applyStep.restartAll
  repeat' first
    | with_reducible assumption
    | (intro (s : State) (h : Kept b p i s))
    | (intro _ (s : State) (h : Kept b p i s))
    | (intro (h : Kept b p i _))
    | (intro (s' : State); refine_lift have h : Kept b p i s' := ?_; ?_; clear_value s')
    | lift_lets
    | with_reducible apply keptO_next
    | with_reducible apply kept_ite
    | with_reducible apply kept_restartDemand
    | with_reducible refine kept_foldl ?_ (fun s a h => ?_)
    | (intro x'; clear_value x')
    | intro _
    | dsimp only [s']
    | split

theorem kept_applyStep (a0 : TimeStep) (h : Kept b p i s) :
    Kept b p i (applyStep a0 s) := by
  unfold applyStep
  repeat' first
    | with_reducible assumption
    | (intro (s : State) (h : Kept b p i s))
    | (intro _ (s : State) (h : Kept b p i s))
    | (intro (h : Kept b p i _))
    | (intro (s' : State); refine_lift have h : Kept b p i s' := ?_; ?_; clear_value s')
    | lift_lets
    | with_reducible apply keptO_next
    | with_reducible apply kept_ite
    | with_reducible apply kept_noteStep
    | with_reducible apply kept_restartDemand
    | with_reducible apply kept_closeDemand
    | with_reducible apply kept_billingBoundary
    | with_reducible apply kept_applyStep_restartAll
    | with_reducible apply kept_activateCalendar
    | with_reducible apply kept_switchTariff
    | with_reducible refine kept_foldl ?_ (fun s a h => ?_)
    | (intro x'; clear_value x')
    | intro _
    | dsimp only [s']
    | split

theorem kept_boundaryEvents (a0 : ℕ) (a1 : ℕ) (h : Kept b p i s) :
    Kept b p i (boundaryEvents a0 a1 s) := by
  unfold boundaryEvents
  repeat' first
    | with_reducible assumption
    | (intro (s : State) (h : Kept b p i s))
    | (intro _ (s : State) (h : Kept b p i s))
    | (intro (h : Kept b p i _))
    | (intro (s' : State); refine_lift have h : Kept b p i s' := ?_; ?_; clear_value s')
    | lift_lets
    | with_reducible apply keptO_next
    | with_reducible apply kept_ite
    | with_reducible apply kept_applyStep
    | with_reducible apply kept_closeDue
    | with_reducible apply kept_billingBoundary
    | with_reducible apply kept_onBil
    | with_reducible apply kept_activateCalendar
    | with_reducible apply kept_switchTariff
    | with_reducible refine kept_foldl ?_ (fun s a h => ?_)
    | (intro (x : BilBlock) hx; first | (simp only [BilBlock.shape] at hx ⊢; with_reducible exact hx) | (simp only [BilBlock.shape, List.length_mapIdx, List.length_map, upd_length, put_length] at hx ⊢; with_reducible exact hx) | (simp_all [BilBlock.shape]; done) | ((repeat' split) <;> first | exact hx | (simp_all [BilBlock.shape]; done)))
    | (intro x'; clear_value x')
    | intro _
    | dsimp only [s']
    | split

theorem kept_journalPending (ts seq : Nat) (h : Kept b p i s) : Kept b p i (journalPending ts seq s) := by
  unfold journalPending
  lift_lets
  intro es s'
  have hs : Kept b p i s' := by
    show Kept b p i (match s.bil.step with
      | some st => if timeValid s then noteStep st s else s
      | none => s)
    split
    · exact kept_ite (kept_noteStep _ h) h
    · exact h
  clear_value es s'
  cases es
  · exact hs
  · exact kept_legalEv _ _ _ _ (kept_onBil hs fun x hx => by simpa only [BilBlock.shape] using hx)

theorem kept_completeClose (a0 : JournalEntry) (a2 : ℕ) (h : Kept b p i s) :
    Kept b p i (completeClose a0 s a2) := by
  unfold completeClose
  repeat' first
    | with_reducible assumption
    | (intro (s : State) (h : Kept b p i s))
    | (intro _ (s : State) (h : Kept b p i s))
    | (intro (h : Kept b p i _))
    | (intro (s' : State); refine_lift have h : Kept b p i s' := ?_; ?_; clear_value s')
    | lift_lets
    | with_reducible apply keptO_next
    | with_reducible apply kept_ite
    | with_reducible apply kept_onBilOut
    | with_reducible apply kept_closeDemand
    | with_reducible refine kept_foldl ?_ (fun s a h => ?_)
    | (intro x'; clear_value x')
    | intro _
    | dsimp only [s']
    | split

theorem kept_completeEntry (a0 : ℕ) (a1 : JournalEntry) (h : Kept b p i s) :
    Kept b p i (completeEntry a0 a1 s) := by
  unfold completeEntry
  repeat' first
    | with_reducible assumption
    | (intro (s : State) (h : Kept b p i s))
    | (intro _ (s : State) (h : Kept b p i s))
    | (intro (h : Kept b p i _))
    | (intro (s' : State); refine_lift have h : Kept b p i s' := ?_; ?_; clear_value s')
    | lift_lets
    | with_reducible apply keptO_next
    | with_reducible apply kept_ite
    | with_reducible apply kept_completeClose
    | with_reducible apply kept_billingBoundary
    | with_reducible apply kept_activateCalendar
    | with_reducible apply kept_onBilOut
    | with_reducible apply kept_legalEv
    | with_reducible refine kept_foldl ?_ (fun s a h => ?_)
    | (intro x'; clear_value x')
    | intro _
    | dsimp only [s']
    | split

theorem kept_badEntries  (h : Kept b p i s) :
    Kept b p i (badEntries s) := by
  unfold badEntries
  repeat' first
    | with_reducible assumption
    | (intro (s : State) (h : Kept b p i s))
    | (intro _ (s : State) (h : Kept b p i s))
    | (intro (h : Kept b p i _))
    | (intro (s' : State); refine_lift have h : Kept b p i s' := ?_; ?_; clear_value s')
    | lift_lets
    | with_reducible apply keptO_next
    | with_reducible apply kept_ite
    | with_reducible apply kept_legalEv
    | with_reducible refine kept_foldl ?_ (fun s a h => ?_)
    | (intro x'; clear_value x')
    | intro _
    | dsimp only [s']
    | split

theorem kept_completeJournal (a0 : ℕ) (h : Kept b p i s) :
    Kept b p i (completeJournal a0 s) := by
  unfold completeJournal
  repeat' first
    | with_reducible assumption
    | (intro (s : State) (h : Kept b p i s))
    | (intro _ (s : State) (h : Kept b p i s))
    | (intro (h : Kept b p i _))
    | (intro (s' : State); refine_lift have h : Kept b p i s' := ?_; ?_; clear_value s')
    | lift_lets
    | with_reducible apply keptO_next
    | with_reducible apply kept_ite
    | with_reducible apply kept_badEntries
    | with_reducible apply kept_onMet
    | with_reducible apply kept_completeEntry
    | with_reducible apply kept_onBil
    | with_reducible refine kept_foldl ?_ (fun s a h => ?_)
    | (intro (x : MetBlock) hx; first | (simp only [MetBlock.shape] at hx ⊢; with_reducible exact hx) | (simp only [MetBlock.shape, List.length_mapIdx, List.length_map, upd_length, put_length] at hx ⊢; with_reducible exact hx) | (simp_all [MetBlock.shape]; done) | ((repeat' split) <;> first | exact hx | (simp_all [MetBlock.shape]; done)))
    | (intro (x : BilBlock) hx; first | (simp only [BilBlock.shape] at hx ⊢; with_reducible exact hx) | (simp only [BilBlock.shape, List.length_mapIdx, List.length_map, upd_length, put_length] at hx ⊢; with_reducible exact hx) | (simp_all [BilBlock.shape]; done) | ((repeat' split) <;> first | exact hx | (simp_all [BilBlock.shape]; done)))
    | (intro x'; clear_value x')
    | intro _
    | dsimp only [s']
    | split

theorem kept_closeGap (a0 : ℕ) (a1 : ℕ) (h : Kept b p i s) :
    Kept b p i (closeGap a0 a1 s) := by
  unfold closeGap
  repeat' first
    | with_reducible assumption
    | (intro (s : State) (h : Kept b p i s))
    | (intro _ (s : State) (h : Kept b p i s))
    | (intro (h : Kept b p i _))
    | (intro (s' : State); refine_lift have h : Kept b p i s' := ?_; ?_; clear_value s')
    | lift_lets
    | with_reducible apply keptO_next
    | with_reducible apply kept_ite
    | with_reducible apply kept_closeDemand
    | with_reducible apply kept_onBilOut
    | with_reducible refine kept_foldl ?_ (fun s a h => ?_)
    | (intro x'; clear_value x')
    | intro _
    | dsimp only [s']
    | split

theorem kept_executeMissed (restart n a c : Nat) (h : Kept b p i s) :
    Kept b p i (executeMissed restart n a c s) := by
  induction n generalizing a s with
  | zero => exact h
  | succ n ih =>
    simp only [executeMissed]
    split
    · refine ih _ (kept_legalEv _ _ _ _ (kept_ite (kept_activateCalendar _ ?_) (kept_billingBoundary _ _ ?_)))
      all_goals exact kept_foldl h fun s o hs => kept_closeGap _ _ hs
    · exact h

theorem kept_billRestart (a0 : ℕ) (a1 : ℕ) (h : Kept b p i s) :
    Kept b p i (billRestart a0 a1 s) := by
  unfold billRestart
  repeat' first
    | with_reducible assumption
    | (intro (s : State) (h : Kept b p i s))
    | (intro _ (s : State) (h : Kept b p i s))
    | (intro (h : Kept b p i _))
    | (intro (s' : State); refine_lift have h : Kept b p i s' := ?_; ?_; clear_value s')
    | lift_lets
    | with_reducible apply keptO_next
    | with_reducible apply kept_ite
    | with_reducible apply kept_onBil
    | with_reducible apply kept_completeJournal
    | with_reducible apply kept_executeMissed
    | with_reducible apply kept_closeGap
    | with_reducible apply kept_onBilOut
    | with_reducible apply kept_restartDemand
    | with_reducible apply kept_switchTariff
    | with_reducible refine kept_foldl ?_ (fun s a h => ?_)
    | (intro (x : BilBlock) hx; first | (simp only [BilBlock.shape] at hx ⊢; with_reducible exact hx) | (simp only [BilBlock.shape, List.length_mapIdx, List.length_map, upd_length, put_length] at hx ⊢; with_reducible exact hx) | (simp_all [BilBlock.shape]; done) | ((repeat' split) <;> first | exact hx | (simp_all [BilBlock.shape]; done)))
    | (intro x'; clear_value x')
    | intro _
    | dsimp only [s']
    | split

theorem kept_squirrel {g : BilBlock → List Bytes} (h : Kept b p i s) :
    Kept b p i (onBil (fun b => { b with squirrel := g b }) s) :=
  kept_onBil h fun x hx => by simpa only [BilBlock.shape] using hx

theorem kept_toSquirrel (rs : List Bytes) (h : Kept b p i s) : Kept b p i (toSquirrel rs s) := kept_squirrel h

theorem kept_profileOf (a0 : ℕ) (a1 : ℕ) (h : Kept b p i s) :
    Kept b p i (profileOf a0 a1 s) := by
  unfold profileOf
  repeat' first
    | with_reducible assumption
    | (intro (s : State) (h : Kept b p i s))
    | (intro _ (s : State) (h : Kept b p i s))
    | (intro (h : Kept b p i _))
    | (intro (s' : State); refine_lift have h : Kept b p i s' := ?_; ?_; clear_value s')
    | lift_lets
    | with_reducible apply keptO_next
    | with_reducible apply kept_ite
    | with_reducible apply kept_onBilOut
    | with_reducible apply kept_toSquirrel
    | with_reducible refine kept_foldl ?_ (fun s a h => ?_)
    | (intro x'; clear_value x')
    | intro _
    | dsimp only [s']
    | split

theorem kept_profileRestart (a0 : ℕ) (a1 : ℕ) (h : Kept b p i s) :
    Kept b p i (profileRestart a0 a1 s) := by
  unfold profileRestart
  repeat' first
    | with_reducible assumption
    | (intro (s : State) (h : Kept b p i s))
    | (intro _ (s : State) (h : Kept b p i s))
    | (intro (h : Kept b p i _))
    | (intro (s' : State); refine_lift have h : Kept b p i s' := ?_; ?_; clear_value s')
    | lift_lets
    | with_reducible apply keptO_next
    | with_reducible apply kept_ite
    | with_reducible apply kept_onBilOut
    | with_reducible apply kept_profileOf
    | with_reducible apply kept_onBil
    | with_reducible refine kept_foldl ?_ (fun s a h => ?_)
    | (intro (x : BilBlock) hx; first | (simp only [BilBlock.shape] at hx ⊢; with_reducible exact hx) | (simp only [BilBlock.shape, List.length_mapIdx, List.length_map, upd_length, put_length] at hx ⊢; with_reducible exact hx) | (simp_all [BilBlock.shape]; done) | ((repeat' split) <;> first | exact hx | (simp_all [BilBlock.shape]; done)))
    | (intro x'; clear_value x')
    | intro _
    | dsimp only [s']
    | split

theorem kept_execLoadProfileRecord  (h : Kept b p i s) :
    KeptO b p i (execLoadProfileRecord s) := by
  unfold execLoadProfileRecord
  repeat' first
    | with_reducible assumption
    | (intro (s : State) (h : Kept b p i s))
    | (intro _ (s : State) (h : Kept b p i s))
    | (intro (h : Kept b p i _))
    | (intro (s' : State); refine_lift have h : Kept b p i s' := ?_; ?_; clear_value s')
    | lift_lets
    | with_reducible apply keptO_next
    | with_reducible apply kept_ite
    | with_reducible apply keptO_ite
    | with_reducible apply kept_profileOf
    | with_reducible refine kept_foldl ?_ (fun s a h => ?_)
    | (intro x'; clear_value x')
    | intro _
    | dsimp only [s']
    | split

theorem kept_flushProfile  (h : Kept b p i s) :
    Kept b p i (flushProfile s) := by
  unfold flushProfile
  repeat' first
    | with_reducible assumption
    | (intro (s : State) (h : Kept b p i s))
    | (intro _ (s : State) (h : Kept b p i s))
    | (intro (h : Kept b p i _))
    | (intro (s' : State); refine_lift have h : Kept b p i s' := ?_; ?_; clear_value s')
    | lift_lets
    | with_reducible apply keptO_next
    | with_reducible apply kept_ite
    | with_reducible apply kept_onBilOut
    | with_reducible apply kept_toSquirrel
    | with_reducible apply kept_logEv
    | with_reducible refine kept_foldl ?_ (fun s a h => ?_)
    | (intro x'; clear_value x')
    | intro _
    | dsimp only [s']
    | split

theorem kept_storeCalendar (a0 : Calendar) (a1 : Bytes) (h : Kept b p i s) :
    Kept b p i (storeCalendar a0 a1 s) := by
  unfold storeCalendar
  repeat' first
    | with_reducible assumption
    | (intro (s : State) (h : Kept b p i s))
    | (intro _ (s : State) (h : Kept b p i s))
    | (intro (h : Kept b p i _))
    | (intro (s' : State); refine_lift have h : Kept b p i s' := ?_; ?_; clear_value s')
    | lift_lets
    | with_reducible apply keptO_next
    | with_reducible apply kept_ite
    | with_reducible apply kept_onCtl
    | with_reducible apply kept_onBil
    | with_reducible refine kept_foldl ?_ (fun s a h => ?_)
    | (intro (x : BilBlock) hx; first | (simp only [BilBlock.shape] at hx ⊢; with_reducible exact hx) | (simp only [BilBlock.shape, List.length_mapIdx, List.length_map, upd_length, put_length] at hx ⊢; with_reducible exact hx) | (simp_all [BilBlock.shape]; done) | ((repeat' split) <;> first | exact hx | (simp_all [BilBlock.shape]; done)))
    | (intro x'; clear_value x')
    | intro _
    | dsimp only [s']
    | split

theorem kept_calRefuse (a0 : Req) (a1 : Bytes) (a2 : ℕ) (a3 : ℕ) (a4 : Option EvClass) (h : Kept b p i s) :
    Kept b p i (calRefuse a0 a1 a2 a3 a4 s) := by
  unfold calRefuse
  repeat' first
    | with_reducible assumption
    | (intro (s : State) (h : Kept b p i s))
    | (intro _ (s : State) (h : Kept b p i s))
    | (intro (h : Kept b p i _))
    | (intro (s' : State); refine_lift have h : Kept b p i s' := ?_; ?_; clear_value s')
    | lift_lets
    | with_reducible apply keptO_next
    | with_reducible apply kept_ite
    | with_reducible apply kept_onBil
    | with_reducible apply kept_logEv
    | with_reducible apply kept_postSts
    | with_reducible refine kept_foldl ?_ (fun s a h => ?_)
    | (intro (x : BilBlock) hx; first | (simp only [BilBlock.shape] at hx ⊢; with_reducible exact hx) | (simp only [BilBlock.shape, List.length_mapIdx, List.length_map, upd_length, put_length] at hx ⊢; with_reducible exact hx) | (simp_all [BilBlock.shape]; done) | ((repeat' split) <;> first | exact hx | (simp_all [BilBlock.shape]; done)))
    | (intro x'; clear_value x')
    | intro _
    | dsimp only [s']
    | split

theorem kept_execCalLoad (a0 : Req) (a1 : Bytes) (h : Kept b p i s) :
    KeptO b p i (execCalLoad a0 a1 s) := by
  unfold execCalLoad
  repeat' first
    | with_reducible assumption
    | (intro (s : State) (h : Kept b p i s))
    | (intro _ (s : State) (h : Kept b p i s))
    | (intro (h : Kept b p i _))
    | (intro (s' : State); refine_lift have h : Kept b p i s' := ?_; ?_; clear_value s')
    | lift_lets
    | with_reducible apply keptO_next
    | with_reducible apply kept_ite
    | with_reducible apply keptO_ite
    | with_reducible apply kept_calRefuse
    | with_reducible apply kept_storeCalendar
    | with_reducible apply kept_onBil
    | with_reducible apply kept_postSts
    | with_reducible apply kept_legalEv
    | with_reducible refine kept_foldl ?_ (fun s a h => ?_)
    | (intro (x : BilBlock) hx; first | (simp only [BilBlock.shape] at hx ⊢; with_reducible exact hx) | (simp only [BilBlock.shape, List.length_mapIdx, List.length_map, upd_length, put_length] at hx ⊢; with_reducible exact hx) | (simp_all [BilBlock.shape]; done) | ((repeat' split) <;> first | exact hx | (simp_all [BilBlock.shape]; done)))
    | (intro x'; clear_value x')
    | intro _
    | dsimp only [s']
    | split

theorem kept_tokenEnd (a0 : Req) (a1 : ℕ) (a2 : ℕ) (a3 : Option (EvClass × ℕ × ℕ)) (h : Kept b p i s) :
    Kept b p i (tokenEnd a0 a1 a2 a3 s) := by
  unfold tokenEnd
  repeat' first
    | with_reducible assumption
    | (intro (s : State) (h : Kept b p i s))
    | (intro _ (s : State) (h : Kept b p i s))
    | (intro (h : Kept b p i _))
    | (intro (s' : State); refine_lift have h : Kept b p i s' := ?_; ?_; clear_value s')
    | lift_lets
    | with_reducible apply keptO_next
    | with_reducible apply kept_ite
    | with_reducible apply kept_onBil
    | with_reducible apply kept_logEv
    | with_reducible apply kept_postSts
    | with_reducible refine kept_foldl ?_ (fun s a h => ?_)
    | (intro (x : BilBlock) hx; first | (simp only [BilBlock.shape] at hx ⊢; with_reducible exact hx) | (simp only [BilBlock.shape, List.length_mapIdx, List.length_map, upd_length, put_length] at hx ⊢; with_reducible exact hx) | (simp_all [BilBlock.shape]; done) | ((repeat' split) <;> first | exact hx | (simp_all [BilBlock.shape]; done)))
    | (intro x'; clear_value x')
    | intro _
    | dsimp only [s']
    | split

theorem kept_acceptToken (a0 : Req) (a1 : ℕ) (a2 : ℕ) (a3 : ℕ) (a4 : ℕ) (h : Kept b p i s) :
    Kept b p i (acceptToken a0 a1 a2 a3 a4 s) := by
  unfold acceptToken
  repeat' first
    | with_reducible assumption
    | (intro (s : State) (h : Kept b p i s))
    | (intro _ (s : State) (h : Kept b p i s))
    | (intro (h : Kept b p i _))
    | (intro (s' : State); refine_lift have h : Kept b p i s' := ?_; ?_; clear_value s')
    | lift_lets
    | with_reducible apply keptO_next
    | with_reducible apply kept_ite
    | with_reducible apply kept_onBil
    | with_reducible apply kept_onCtl
    | with_reducible apply kept_setCredit
    | with_reducible apply kept_legalEv
    | with_reducible apply kept_tokenEnd
    | with_reducible refine kept_foldl ?_ (fun s a h => ?_)
    | (intro (x : BilBlock) hx; first | (simp only [BilBlock.shape] at hx ⊢; with_reducible exact hx) | (simp only [BilBlock.shape, List.length_mapIdx, List.length_map, upd_length, put_length] at hx ⊢; with_reducible exact hx) | (simp_all [BilBlock.shape]; done) | ((repeat' split) <;> first | exact hx | (simp_all [BilBlock.shape]; done)))
    | (intro x'; clear_value x')
    | intro _
    | dsimp only [s']
    | split

theorem kept_tokenRows (a0 : Req) (a1 : Bool) (a2 : ℕ) (a3 : ℕ) (a4 : ℕ) (a5 : ℕ) (h : Kept b p i s) :
    Kept b p i (tokenRows a0 a1 a2 a3 a4 a5 s) := by
  unfold tokenRows
  repeat' first
    | with_reducible assumption
    | (intro (s : State) (h : Kept b p i s))
    | (intro _ (s : State) (h : Kept b p i s))
    | (intro (h : Kept b p i _))
    | (intro (s' : State); refine_lift have h : Kept b p i s' := ?_; ?_; clear_value s')
    | lift_lets
    | with_reducible apply keptO_next
    | with_reducible apply kept_ite
    | with_reducible apply kept_tokenEnd
    | with_reducible apply kept_acceptToken
    | with_reducible refine kept_foldl ?_ (fun s a h => ?_)
    | (intro x'; clear_value x')
    | intro _
    | dsimp only [s']
    | split

theorem kept_execTokenEnter (a0 : Req) (a1 : Bytes) (h : Kept b p i s) :
    KeptO b p i (execTokenEnter a0 a1 s) := by
  unfold execTokenEnter
  repeat' first
    | with_reducible assumption
    | (intro (s : State) (h : Kept b p i s))
    | (intro _ (s : State) (h : Kept b p i s))
    | (intro (h : Kept b p i _))
    | (intro (s' : State); refine_lift have h : Kept b p i s' := ?_; ?_; clear_value s')
    | lift_lets
    | with_reducible apply keptO_next
    | with_reducible apply kept_ite
    | with_reducible apply keptO_ite
    | with_reducible apply kept_tokenEnd
    | with_reducible apply kept_tokenRows
    | with_reducible refine kept_foldl ?_ (fun s a h => ?_)
    | (intro x'; clear_value x')
    | intro _
    | dsimp only [s']
    | split

theorem kept_execTokenMirrorConfirm (a0 : ℕ) (h : Kept b p i s) :
    KeptO b p i (execTokenMirrorConfirm a0 s) := by
  unfold execTokenMirrorConfirm
  repeat' first
    | with_reducible assumption
    | (intro (s : State) (h : Kept b p i s))
    | (intro _ (s : State) (h : Kept b p i s))
    | (intro (h : Kept b p i _))
    | (intro (s' : State); refine_lift have h : Kept b p i s' := ?_; ?_; clear_value s')
    | lift_lets
    | with_reducible apply keptO_next
    | with_reducible apply kept_ite
    | with_reducible apply keptO_ite
    | with_reducible apply kept_onCtl
    | with_reducible apply kept_onBil
    | with_reducible refine kept_foldl ?_ (fun s a h => ?_)
    | (intro (x : BilBlock) hx; first | (simp only [BilBlock.shape] at hx ⊢; with_reducible exact hx) | (simp only [BilBlock.shape, List.length_mapIdx, List.length_map, upd_length, put_length] at hx ⊢; with_reducible exact hx) | (simp_all [BilBlock.shape]; done) | ((repeat' split) <;> first | exact hx | (simp_all [BilBlock.shape]; done)))
    | (intro x'; clear_value x')
    | intro _
    | dsimp only [s']
    | split

theorem kept_rebuildReplay  (h : Kept b p i s) :
    Kept b p i (rebuildReplay s) := by
  unfold rebuildReplay
  repeat' first
    | with_reducible assumption
    | (intro (s : State) (h : Kept b p i s))
    | (intro _ (s : State) (h : Kept b p i s))
    | (intro (h : Kept b p i _))
    | (intro (s' : State); refine_lift have h : Kept b p i s' := ?_; ?_; clear_value s')
    | lift_lets
    | with_reducible apply keptO_next
    | with_reducible apply kept_ite
    | with_reducible apply kept_onBil
    | with_reducible apply kept_onCtl
    | with_reducible refine kept_foldl ?_ (fun s a h => ?_)
    | (intro (x : BilBlock) hx; first | (simp only [BilBlock.shape] at hx ⊢; with_reducible exact hx) | (simp only [BilBlock.shape, List.length_mapIdx, List.length_map, upd_length, put_length] at hx ⊢; with_reducible exact hx) | (simp_all [BilBlock.shape]; done) | ((repeat' split) <;> first | exact hx | (simp_all [BilBlock.shape]; done)))
    | (intro x'; clear_value x')
    | intro _
    | dsimp only [s']
    | split

theorem kept_clearReplay  (h : Kept b p i s) :
    Kept b p i (clearReplay s) := by
  unfold clearReplay
  repeat' first
    | with_reducible assumption
    | (intro (s : State) (h : Kept b p i s))
    | (intro _ (s : State) (h : Kept b p i s))
    | (intro (h : Kept b p i _))
    | (intro (s' : State); refine_lift have h : Kept b p i s' := ?_; ?_; clear_value s')
    | lift_lets
    | with_reducible apply keptO_next
    | with_reducible apply kept_ite
    | with_reducible apply kept_onCtl
    | with_reducible apply kept_onBil
    | with_reducible refine kept_foldl ?_ (fun s a h => ?_)
    | (intro (x : BilBlock) hx; first | (simp only [BilBlock.shape] at hx ⊢; with_reducible exact hx) | (simp only [BilBlock.shape, List.length_mapIdx, List.length_map, upd_length, put_length] at hx ⊢; with_reducible exact hx) | (simp_all [BilBlock.shape]; done) | ((repeat' split) <;> first | exact hx | (simp_all [BilBlock.shape]; done)))
    | (intro x'; clear_value x')
    | intro _
    | dsimp only [s']
    | split

theorem kept_execBillSnapRead (a0 : Req) (a1 : ℕ) (h : Kept b p i s) :
    KeptO b p i (execBillSnapRead a0 a1 s) := by
  unfold execBillSnapRead
  repeat' first
    | with_reducible assumption
    | (intro (s : State) (h : Kept b p i s))
    | (intro _ (s : State) (h : Kept b p i s))
    | (intro (h : Kept b p i _))
    | (intro (s' : State); refine_lift have h : Kept b p i s' := ?_; ?_; clear_value s')
    | lift_lets
    | with_reducible apply keptO_next
    | with_reducible apply kept_ite
    | with_reducible apply keptO_ite
    | with_reducible apply kept_guarded
    | with_reducible apply kept_post
    | with_reducible refine kept_foldl ?_ (fun s a h => ?_)
    | (intro x'; clear_value x')
    | intro _
    | dsimp only [s']
    | split

theorem kept_execBillReset (a0 : Req) (h : Kept b p i s) :
    KeptO b p i (execBillReset a0 s) := by
  unfold execBillReset
  repeat' first
    | with_reducible assumption
    | (intro (s : State) (h : Kept b p i s))
    | (intro _ (s : State) (h : Kept b p i s))
    | (intro (h : Kept b p i _))
    | (intro (s' : State); refine_lift have h : Kept b p i s' := ?_; ?_; clear_value s')
    | lift_lets
    | with_reducible apply keptO_next
    | with_reducible apply kept_ite
    | with_reducible apply keptO_ite
    | with_reducible apply kept_guarded
    | with_reducible apply kept_postSts
    | with_reducible apply kept_onBil
    | with_reducible refine kept_foldl ?_ (fun s a h => ?_)
    | (intro (x : BilBlock) hx; first | (simp only [BilBlock.shape] at hx ⊢; with_reducible exact hx) | (simp only [BilBlock.shape, List.length_mapIdx, List.length_map, upd_length, put_length] at hx ⊢; with_reducible exact hx) | (simp_all [BilBlock.shape]; done) | ((repeat' split) <;> first | exact hx | (simp_all [BilBlock.shape]; done)))
    | (intro x'; clear_value x')
    | intro _
    | dsimp only [s']
    | split

theorem kept_execBilLoRead (a0 : Side) (a1 : BilLo) (h : Kept b p i s) :
    KeptO b p i (execBilLoRead a0 a1 s) := by
  unfold execBilLoRead
  repeat' first
    | with_reducible assumption
    | (intro (s : State) (h : Kept b p i s))
    | (intro _ (s : State) (h : Kept b p i s))
    | (intro (h : Kept b p i _))
    | (intro (s' : State); refine_lift have h : Kept b p i s' := ?_; ?_; clear_value s')
    | lift_lets
    | with_reducible apply keptO_next
    | with_reducible apply kept_ite
    | with_reducible apply keptO_ite
    | with_reducible apply kept_returns
    | with_reducible apply kept_onBil
    | with_reducible refine kept_foldl ?_ (fun s a h => ?_)
    | (intro (x : BilBlock) hx; first | (simp only [BilBlock.shape] at hx ⊢; with_reducible exact hx) | (simp only [BilBlock.shape, List.length_mapIdx, List.length_map, upd_length, put_length] at hx ⊢; with_reducible exact hx) | (simp_all [BilBlock.shape]; done) | ((repeat' split) <;> first | exact hx | (simp_all [BilBlock.shape]; done)))
    | (intro x'; clear_value x')
    | intro _
    | dsimp only [s']
    | split

end Sys2Proof.Machine
end

