-- ==== Sys2Proof/Laws/KeptOwl.lean ====
section
/-! SUPPORT. What the operations of Owl.lean keep. -/

set_option linter.unusedSimpArgs false
set_option linter.unusedVariables false
set_option linter.unreachableTactic false
set_option linter.unusedTactic false

namespace Sys2Proof.Machine

variable {b : Prop} {p : List Instr} {i : Ident} {s : State}

theorem kept_onCfg (a0 : OwlCfg → OwlCfg) (h : Kept b p i s) :
    Kept b p i (onCfg a0 s) := by
  unfold onCfg
  repeat' first
    | with_reducible assumption
    | (intro (s : State) (h : Kept b p i s))
    | (intro _ (s : State) (h : Kept b p i s))
    | (intro (h : Kept b p i _))
    | (intro (s' : State); refine_lift have h : Kept b p i s' := ?_; ?_; clear_value s')
    | lift_lets
    | with_reducible apply keptO_next
    | with_reducible apply kept_ite
    | with_reducible apply kept_onOwl
    | with_reducible refine kept_foldl ?_ (fun s a h => ?_)
    | (intro (x : OwlBlock) hx; first | (simp only [OwlBlock.shape] at hx ⊢; with_reducible exact hx) | (simp only [OwlBlock.shape, List.length_mapIdx, List.length_map, upd_length, put_length] at hx ⊢; with_reducible exact hx) | (simp_all [OwlBlock.shape]; done) | ((repeat' split) <;> first | exact hx | (simp_all [OwlBlock.shape]; done)))
    | (intro x'; clear_value x')
    | intro _
    | dsimp only [s']
    | split

theorem kept_changeEntry (a0 : ℕ) (a1 : ℕ) (a2 : ℕ) (a3 : ℕ) (a4 : Bytes) (a5 : Bytes) (h : Kept b p i s) :
    Kept b p i (changeEntry a0 a1 a2 a3 a4 a5 s) := by
  unfold changeEntry
  repeat' first
    | with_reducible assumption
    | (intro (s : State) (h : Kept b p i s))
    | (intro _ (s : State) (h : Kept b p i s))
    | (intro (h : Kept b p i _))
    | (intro (s' : State); refine_lift have h : Kept b p i s' := ?_; ?_; clear_value s')
    | lift_lets
    | with_reducible apply keptO_next
    | with_reducible apply kept_ite
    | with_reducible apply kept_onOwl
    | with_reducible apply kept_logEv
    | with_reducible refine kept_foldl ?_ (fun s a h => ?_)
    | (intro (x : OwlBlock) hx; first | (simp only [OwlBlock.shape] at hx ⊢; with_reducible exact hx) | (simp only [OwlBlock.shape, List.length_mapIdx, List.length_map, upd_length, put_length] at hx ⊢; with_reducible exact hx) | (simp_all [OwlBlock.shape]; done) | ((repeat' split) <;> first | exact hx | (simp_all [OwlBlock.shape]; done)))
    | (intro x'; clear_value x')
    | intro _
    | dsimp only [s']
    | split

theorem kept_cfgCheck (a0 : Bool) (a1 : Bool) (h : Kept b p i s) :
    Kept b p i (cfgCheck a0 a1 s) := by
  unfold cfgCheck
  repeat' first
    | with_reducible assumption
    | (intro (s : State) (h : Kept b p i s))
    | (intro _ (s : State) (h : Kept b p i s))
    | (intro (h : Kept b p i _))
    | (intro (s' : State); refine_lift have h : Kept b p i s' := ?_; ?_; clear_value s')
    | lift_lets
    | with_reducible apply keptO_next
    | with_reducible apply kept_ite
    | with_reducible apply kept_onOwl
    | with_reducible apply kept_changeEntry
    | with_reducible apply kept_logEv
    | with_reducible refine kept_foldl ?_ (fun s a h => ?_)
    | (intro (x : OwlBlock) hx; first | (simp only [OwlBlock.shape] at hx ⊢; with_reducible exact hx) | (simp only [OwlBlock.shape, List.length_mapIdx, List.length_map, upd_length, put_length] at hx ⊢; with_reducible exact hx) | (simp_all [OwlBlock.shape]; done) | ((repeat' split) <;> first | exact hx | (simp_all [OwlBlock.shape]; done)))
    | (intro x'; clear_value x')
    | intro _
    | dsimp only [s']
    | split

theorem kept_seeGuards  (h : Kept b p i s) :
    Kept b p i (seeGuards s) := by
  unfold seeGuards
  repeat' first
    | with_reducible assumption
    | (intro (s : State) (h : Kept b p i s))
    | (intro _ (s : State) (h : Kept b p i s))
    | (intro (h : Kept b p i _))
    | (intro (s' : State); refine_lift have h : Kept b p i s' := ?_; ?_; clear_value s')
    | lift_lets
    | with_reducible apply keptO_next
    | with_reducible apply kept_ite
    | with_reducible apply kept_onOwl
    | with_reducible refine kept_foldl ?_ (fun s a h => ?_)
    | (intro (x : OwlBlock) hx; first | (simp only [OwlBlock.shape] at hx ⊢; with_reducible exact hx) | (simp only [OwlBlock.shape, List.length_mapIdx, List.length_map, upd_length, put_length] at hx ⊢; with_reducible exact hx) | (simp_all [OwlBlock.shape]; done) | ((repeat' split) <;> first | exact hx | (simp_all [OwlBlock.shape]; done)))
    | (intro x'; clear_value x')
    | intro _
    | dsimp only [s']
    | split

theorem kept_prove  (h : Kept b p i s) :
    Kept b p i (prove s) := by
  unfold prove
  repeat' first
    | with_reducible assumption
    | (intro (s : State) (h : Kept b p i s))
    | (intro _ (s : State) (h : Kept b p i s))
    | (intro (h : Kept b p i _))
    | (intro (s' : State); refine_lift have h : Kept b p i s' := ?_; ?_; clear_value s')
    | lift_lets
    | with_reducible apply keptO_next
    | with_reducible apply kept_ite
    | with_reducible apply kept_logEv
    | with_reducible apply kept_onOwl
    | with_reducible refine kept_foldl ?_ (fun s a h => ?_)
    | (intro (x : OwlBlock) hx; first | (simp only [OwlBlock.shape] at hx ⊢; with_reducible exact hx) | (simp only [OwlBlock.shape, List.length_mapIdx, List.length_map, upd_length, put_length] at hx ⊢; with_reducible exact hx) | (simp_all [OwlBlock.shape]; done) | ((repeat' split) <;> first | exact hx | (simp_all [OwlBlock.shape]; done)))
    | (intro x'; clear_value x')
    | intro _
    | dsimp only [s']
    | split

theorem kept_supTrip (a0 : TripRec) (a1 : ℤ) (h : Kept b p i s) :
    Kept b p i (supTrip a0 a1 s) := by
  unfold supTrip
  repeat' first
    | with_reducible assumption
    | (intro (s : State) (h : Kept b p i s))
    | (intro _ (s : State) (h : Kept b p i s))
    | (intro (h : Kept b p i _))
    | (intro (s' : State); refine_lift have h : Kept b p i s' := ?_; ?_; clear_value s')
    | lift_lets
    | with_reducible apply keptO_next
    | with_reducible apply kept_ite
    | with_reducible apply kept_onOwl
    | with_reducible apply kept_logEv
    | with_reducible apply kept_latchTrip
    | with_reducible refine kept_foldl ?_ (fun s a h => ?_)
    | (intro (x : OwlBlock) hx; first | (simp only [OwlBlock.shape] at hx ⊢; with_reducible exact hx) | (simp only [OwlBlock.shape, List.length_mapIdx, List.length_map, upd_length, put_length] at hx ⊢; with_reducible exact hx) | (simp_all [OwlBlock.shape]; done) | ((repeat' split) <;> first | exact hx | (simp_all [OwlBlock.shape]; done)))
    | (intro x'; clear_value x')
    | intro _
    | dsimp only [s']
    | split

theorem kept_immediateTrips  (h : Kept b p i s) :
    Kept b p i (immediateTrips s) := by
  unfold immediateTrips
  repeat' first
    | with_reducible assumption
    | (intro (s : State) (h : Kept b p i s))
    | (intro _ (s : State) (h : Kept b p i s))
    | (intro (h : Kept b p i _))
    | (intro (s' : State); refine_lift have h : Kept b p i s' := ?_; ?_; clear_value s')
    | lift_lets
    | with_reducible apply keptO_next
    | with_reducible apply kept_ite
    | with_reducible apply kept_supTrip
    | with_reducible refine kept_foldl ?_ (fun s a h => ?_)
    | (intro x'; clear_value x')
    | intro _
    | dsimp only [s']
    | split

theorem kept_execSupervisedDelayExpiry (a0 : ℕ) (a1 : ℕ) (h : Kept b p i s) :
    KeptO b p i (execSupervisedDelayExpiry a0 a1 s) := by
  unfold execSupervisedDelayExpiry
  repeat' first
    | with_reducible assumption
    | (intro (s : State) (h : Kept b p i s))
    | (intro _ (s : State) (h : Kept b p i s))
    | (intro (h : Kept b p i _))
    | (intro (s' : State); refine_lift have h : Kept b p i s' := ?_; ?_; clear_value s')
    | lift_lets
    | with_reducible apply keptO_next
    | with_reducible apply kept_ite
    | with_reducible apply keptO_ite
    | with_reducible apply kept_supTrip
    | with_reducible apply kept_bump
    | with_reducible refine kept_foldl ?_ (fun s a h => ?_)
    | (intro x'; clear_value x')
    | intro _
    | dsimp only [s']
    | split

theorem kept_refreshWithhold  (h : Kept b p i s) :
    Kept b p i (refreshWithhold s) := by
  unfold refreshWithhold
  repeat' first
    | with_reducible assumption
    | (intro (s : State) (h : Kept b p i s))
    | (intro _ (s : State) (h : Kept b p i s))
    | (intro (h : Kept b p i _))
    | (intro (s' : State); refine_lift have h : Kept b p i s' := ?_; ?_; clear_value s')
    | lift_lets
    | with_reducible apply keptO_next
    | with_reducible apply kept_ite
    | with_reducible apply kept_onOwl
    | with_reducible refine kept_foldl ?_ (fun s a h => ?_)
    | (intro (x : OwlBlock) hx; first | (simp only [OwlBlock.shape] at hx ⊢; with_reducible exact hx) | (simp only [OwlBlock.shape, List.length_mapIdx, List.length_map, upd_length, put_length] at hx ⊢; with_reducible exact hx) | (simp_all [OwlBlock.shape]; done) | ((repeat' split) <;> first | exact hx | (simp_all [OwlBlock.shape]; done)))
    | (intro x'; clear_value x')
    | intro _
    | dsimp only [s']
    | split

theorem kept_withdraw (a0 : ℕ) (h : Kept b p i s) :
    Kept b p i (withdraw a0 s) := by
  unfold withdraw
  repeat' first
    | with_reducible assumption
    | (intro (s : State) (h : Kept b p i s))
    | (intro _ (s : State) (h : Kept b p i s))
    | (intro (h : Kept b p i _))
    | (intro (s' : State); refine_lift have h : Kept b p i s' := ?_; ?_; clear_value s')
    | lift_lets
    | with_reducible apply keptO_next
    | with_reducible apply kept_ite
    | with_reducible apply kept_logEv
    | with_reducible apply kept_onOwl
    | with_reducible apply kept_endSession
    | with_reducible apply kept_settleContactors
    | with_reducible refine kept_foldl ?_ (fun s a h => ?_)
    | (intro (x : OwlBlock) hx; first | (simp only [OwlBlock.shape] at hx ⊢; with_reducible exact hx) | (simp only [OwlBlock.shape, List.length_mapIdx, List.length_map, upd_length, put_length] at hx ⊢; with_reducible exact hx) | (simp_all [OwlBlock.shape]; done) | ((repeat' split) <;> first | exact hx | (simp_all [OwlBlock.shape]; done)))
    | (intro x'; clear_value x')
    | intro _
    | dsimp only [s']
    | split

theorem kept_decideRelease (a0 : ℕ) (h : Kept b p i s) :
    Kept b p i (decideRelease a0 s) := by
  unfold decideRelease
  repeat' first
    | with_reducible assumption
    | (intro (s : State) (h : Kept b p i s))
    | (intro _ (s : State) (h : Kept b p i s))
    | (intro (h : Kept b p i _))
    | (intro (s' : State); refine_lift have h : Kept b p i s' := ?_; ?_; clear_value s')
    | lift_lets
    | with_reducible apply keptO_next
    | with_reducible apply kept_ite
    | with_reducible apply kept_withdraw
    | with_reducible apply kept_onGrant
    | with_reducible apply kept_onOwl
    | with_reducible refine kept_foldl ?_ (fun s a h => ?_)
    | (intro (x : OwlBlock) hx; first | (simp only [OwlBlock.shape] at hx ⊢; with_reducible exact hx) | (simp only [OwlBlock.shape, List.length_mapIdx, List.length_map, upd_length, put_length] at hx ⊢; with_reducible exact hx) | (simp_all [OwlBlock.shape]; done) | ((repeat' split) <;> first | exact hx | (simp_all [OwlBlock.shape]; done)))
    | (intro x'; clear_value x')
    | intro _
    | dsimp only [s']
    | split

theorem kept_writeCauses  (h : Kept b p i s) :
    Kept b p i (writeCauses s) := by
  unfold writeCauses
  repeat' first
    | with_reducible assumption
    | (intro (s : State) (h : Kept b p i s))
    | (intro _ (s : State) (h : Kept b p i s))
    | (intro (h : Kept b p i _))
    | (intro (s' : State); refine_lift have h : Kept b p i s' := ?_; ?_; clear_value s')
    | lift_lets
    | with_reducible apply keptO_next
    | with_reducible apply kept_ite
    | with_reducible apply kept_onOwl
    | with_reducible apply kept_onCfg
    | with_reducible refine kept_foldl ?_ (fun s a h => ?_)
    | (intro (x : OwlBlock) hx; first | (simp only [OwlBlock.shape] at hx ⊢; with_reducible exact hx) | (simp only [OwlBlock.shape, List.length_mapIdx, List.length_map, upd_length, put_length] at hx ⊢; with_reducible exact hx) | (simp_all [OwlBlock.shape]; done) | ((repeat' split) <;> first | exact hx | (simp_all [OwlBlock.shape]; done)))
    | (intro x'; clear_value x')
    | intro _
    | dsimp only [s']
    | split

theorem kept_owlEvaluate  (h : Kept b p i s) :
    Kept b p i (owlEvaluate s) := by
  unfold owlEvaluate
  repeat' first
    | with_reducible assumption
    | (intro (s : State) (h : Kept b p i s))
    | (intro _ (s : State) (h : Kept b p i s))
    | (intro (h : Kept b p i _))
    | (intro (s' : State); refine_lift have h : Kept b p i s' := ?_; ?_; clear_value s')
    | lift_lets
    | with_reducible apply keptO_next
    | with_reducible apply kept_ite
    | with_reducible apply kept_refreshWithhold
    | with_reducible apply kept_prove
    | with_reducible apply kept_immediateTrips
    | with_reducible apply kept_seeGuards
    | with_reducible apply kept_decideRelease
    | with_reducible apply kept_writeCauses
    | with_reducible apply kept_releaseHeld
    | with_reducible refine kept_foldl ?_ (fun s a h => ?_)
    | (intro x'; clear_value x')
    | intro _
    | dsimp only [s']
    | split

theorem kept_owlReact  (h : Kept b p i s) :
    Kept b p i (owlReact s) := by
  unfold owlReact
  repeat' first
    | with_reducible assumption
    | (intro (s : State) (h : Kept b p i s))
    | (intro _ (s : State) (h : Kept b p i s))
    | (intro (h : Kept b p i _))
    | (intro (s' : State); refine_lift have h : Kept b p i s' := ?_; ?_; clear_value s')
    | lift_lets
    | with_reducible apply keptO_next
    | with_reducible apply kept_ite
    | with_reducible apply kept_owlEvaluate
    | with_reducible apply kept_refreshWithhold
    | with_reducible refine kept_foldl ?_ (fun s a h => ?_)
    | (intro x'; clear_value x')
    | intro _
    | dsimp only [s']
    | split

theorem kept_execOwlCycle  (h : Kept b p i s) :
    KeptO b p i (execOwlCycle s) := by
  unfold execOwlCycle
  repeat' first
    | with_reducible assumption
    | (intro (s : State) (h : Kept b p i s))
    | (intro _ (s : State) (h : Kept b p i s))
    | (intro (h : Kept b p i _))
    | (intro (s' : State); refine_lift have h : Kept b p i s' := ?_; ?_; clear_value s')
    | lift_lets
    | with_reducible apply keptO_next
    | with_reducible apply kept_ite
    | with_reducible apply keptO_ite
    | with_reducible apply kept_owlReact
    | with_reducible refine kept_foldl ?_ (fun s a h => ?_)
    | (intro x'; clear_value x')
    | intro _
    | dsimp only [s']
    | split

theorem kept_execMeterOkTimeout (a0 : ℕ) (h : Kept b p i s) :
    KeptO b p i (execMeterOkTimeout a0 s) := by
  unfold execMeterOkTimeout
  repeat' first
    | with_reducible assumption
    | (intro (s : State) (h : Kept b p i s))
    | (intro _ (s : State) (h : Kept b p i s))
    | (intro (h : Kept b p i _))
    | (intro (s' : State); refine_lift have h : Kept b p i s' := ?_; ?_; clear_value s')
    | lift_lets
    | with_reducible apply keptO_next
    | with_reducible apply kept_ite
    | with_reducible apply keptO_ite
    | with_reducible apply kept_onOwl
    | with_reducible refine kept_foldl ?_ (fun s a h => ?_)
    | (intro (x : OwlBlock) hx; first | (simp only [OwlBlock.shape] at hx ⊢; with_reducible exact hx) | (simp only [OwlBlock.shape, List.length_mapIdx, List.length_map, upd_length, put_length] at hx ⊢; with_reducible exact hx) | (simp_all [OwlBlock.shape]; done) | ((repeat' split) <;> first | exact hx | (simp_all [OwlBlock.shape]; done)))
    | (intro x'; clear_value x')
    | intro _
    | dsimp only [s']
    | split

theorem kept_execGuardInputChange (a0 : ℕ) (a1 : Bool) (h : Kept b p i s) :
    KeptO b p i (execGuardInputChange a0 a1 s) := by
  unfold execGuardInputChange
  repeat' first
    | with_reducible assumption
    | (intro (s : State) (h : Kept b p i s))
    | (intro _ (s : State) (h : Kept b p i s))
    | (intro (h : Kept b p i _))
    | (intro (s' : State); refine_lift have h : Kept b p i s' := ?_; ?_; clear_value s')
    | lift_lets
    | with_reducible apply keptO_next
    | with_reducible apply kept_ite
    | with_reducible apply keptO_ite
    | with_reducible apply kept_owlReact
    | with_reducible apply kept_onOwl
    | with_reducible refine kept_foldl ?_ (fun s a h => ?_)
    | (intro (x : OwlBlock) hx; first | (simp only [OwlBlock.shape] at hx ⊢; with_reducible exact hx) | (simp only [OwlBlock.shape, List.length_mapIdx, List.length_map, upd_length, put_length] at hx ⊢; with_reducible exact hx) | (simp_all [OwlBlock.shape]; done) | ((repeat' split) <;> first | exact hx | (simp_all [OwlBlock.shape]; done)))
    | (intro x'; clear_value x')
    | intro _
    | dsimp only [s']
    | split

theorem kept_execGuardDisagree (a0 : ℕ) (a1 : ℕ) (h : Kept b p i s) :
    KeptO b p i (execGuardDisagree a0 a1 s) := by
  unfold execGuardDisagree
  repeat' first
    | with_reducible assumption
    | (intro (s : State) (h : Kept b p i s))
    | (intro _ (s : State) (h : Kept b p i s))
    | (intro (h : Kept b p i _))
    | (intro (s' : State); refine_lift have h : Kept b p i s' := ?_; ?_; clear_value s')
    | lift_lets
    | with_reducible apply keptO_next
    | with_reducible apply kept_ite
    | with_reducible apply keptO_ite
    | with_reducible apply kept_onOwl
    | with_reducible apply kept_owlReact
    | with_reducible apply kept_logEv
    | with_reducible refine kept_foldl ?_ (fun s a h => ?_)
    | (intro (x : OwlBlock) hx; first | (simp only [OwlBlock.shape] at hx ⊢; with_reducible exact hx) | (simp only [OwlBlock.shape, List.length_mapIdx, List.length_map, upd_length, put_length] at hx ⊢; with_reducible exact hx) | (simp_all [OwlBlock.shape]; done) | ((repeat' split) <;> first | exact hx | (simp_all [OwlBlock.shape]; done)))
    | (intro x'; clear_value x')
    | intro _
    | dsimp only [s']
    | split

theorem kept_clearByRow (a0 : ℕ) (a1 : ℕ) (a2 : ℕ) (h : Kept b p i s) :
    Kept b p i (clearByRow a0 a1 a2 s) := by
  unfold clearByRow
  repeat' first
    | with_reducible assumption
    | (intro (s : State) (h : Kept b p i s))
    | (intro _ (s : State) (h : Kept b p i s))
    | (intro (h : Kept b p i _))
    | (intro (s' : State); refine_lift have h : Kept b p i s' := ?_; ?_; clear_value s')
    | lift_lets
    | with_reducible apply keptO_next
    | with_reducible apply kept_ite
    | with_reducible apply kept_logEv
    | with_reducible apply kept_clearCauses
    | with_reducible refine kept_foldl ?_ (fun s a h => ?_)
    | (intro x'; clear_value x')
    | intro _
    | dsimp only [s']
    | split

theorem kept_countClear (a0 : ℕ) (h : Kept b p i s) :
    Kept b p i (countClear a0 s) := by
  unfold countClear
  repeat' first
    | with_reducible assumption
    | (intro (s : State) (h : Kept b p i s))
    | (intro _ (s : State) (h : Kept b p i s))
    | (intro (h : Kept b p i _))
    | (intro (s' : State); refine_lift have h : Kept b p i s' := ?_; ?_; clear_value s')
    | lift_lets
    | with_reducible apply keptO_next
    | with_reducible apply kept_ite
    | with_reducible apply kept_onCfg
    | with_reducible refine kept_foldl ?_ (fun s a h => ?_)
    | (intro x'; clear_value x')
    | intro _
    | dsimp only [s']
    | split

theorem kept_execTripAutoclear (a0 : ℕ) (a1 : ℕ) (h : Kept b p i s) :
    KeptO b p i (execTripAutoclear a0 a1 s) := by
  unfold execTripAutoclear
  repeat' first
    | with_reducible assumption
    | (intro (s : State) (h : Kept b p i s))
    | (intro _ (s : State) (h : Kept b p i s))
    | (intro (h : Kept b p i _))
    | (intro (s' : State); refine_lift have h : Kept b p i s' := ?_; ?_; clear_value s')
    | lift_lets
    | with_reducible apply keptO_next
    | with_reducible apply kept_ite
    | with_reducible apply keptO_ite
    | with_reducible apply kept_clearByRow
    | with_reducible apply kept_countClear
    | with_reducible refine kept_foldl ?_ (fun s a h => ?_)
    | (intro x'; clear_value x')
    | intro _
    | dsimp only [s']
    | split

theorem kept_execAutoclrExpiry (a0 : ℕ) (h : Kept b p i s) :
    KeptO b p i (execAutoclrExpiry a0 s) := by
  unfold execAutoclrExpiry
  repeat' first
    | with_reducible assumption
    | (intro (s : State) (h : Kept b p i s))
    | (intro _ (s : State) (h : Kept b p i s))
    | (intro (h : Kept b p i _))
    | (intro (s' : State); refine_lift have h : Kept b p i s' := ?_; ?_; clear_value s')
    | lift_lets
    | with_reducible apply keptO_next
    | with_reducible apply kept_ite
    | with_reducible apply keptO_ite
    | with_reducible apply kept_onCfg
    | with_reducible refine kept_foldl ?_ (fun s a h => ?_)
    | (intro x'; clear_value x')
    | intro _
    | dsimp only [s']
    | split

theorem kept_clearAll (a0 : Req) (a1 : ℕ) (h : Kept b p i s) :
    Kept b p i (clearAll a0 a1 s) := by
  unfold clearAll
  repeat' first
    | with_reducible assumption
    | (intro (s : State) (h : Kept b p i s))
    | (intro _ (s : State) (h : Kept b p i s))
    | (intro (h : Kept b p i _))
    | (intro (s' : State); refine_lift have h : Kept b p i s' := ?_; ?_; clear_value s')
    | lift_lets
    | with_reducible apply keptO_next
    | with_reducible apply kept_ite
    | with_reducible apply kept_clearByRow
    | with_reducible apply kept_countClear
    | with_reducible apply kept_changeEntry
    | with_reducible refine kept_foldl ?_ (fun s a h => ?_)
    | (intro x'; clear_value x')
    | intro _
    | dsimp only [s']
    | split

theorem kept_execOwlTripClear (a0 : Req) (a1 : ℕ) (h : Kept b p i s) :
    KeptO b p i (execOwlTripClear a0 a1 s) := by
  unfold execOwlTripClear
  repeat' first
    | with_reducible assumption
    | (intro (s : State) (h : Kept b p i s))
    | (intro _ (s : State) (h : Kept b p i s))
    | (intro (h : Kept b p i _))
    | (intro (s' : State); refine_lift have h : Kept b p i s' := ?_; ?_; clear_value s')
    | lift_lets
    | with_reducible apply keptO_next
    | with_reducible apply kept_ite
    | with_reducible apply keptO_ite
    | with_reducible apply kept_guarded
    | with_reducible apply kept_postSts
    | with_reducible apply kept_clearAll
    | with_reducible refine kept_foldl ?_ (fun s a h => ?_)
    | (intro x'; clear_value x')
    | intro _
    | dsimp only [s']
    | split

theorem kept_logOwlState (a0 : OwlState) (a1 : OwlState) (a2 : ℕ) (h : Kept b p i s) :
    Kept b p i (logOwlState a0 a1 a2 s) := by
  unfold logOwlState
  repeat' first
    | with_reducible assumption
    | (intro (s : State) (h : Kept b p i s))
    | (intro _ (s : State) (h : Kept b p i s))
    | (intro (h : Kept b p i _))
    | (intro (s' : State); refine_lift have h : Kept b p i s' := ?_; ?_; clear_value s')
    | lift_lets
    | with_reducible apply keptO_next
    | with_reducible apply kept_ite
    | with_reducible apply kept_logEv
    | with_reducible refine kept_foldl ?_ (fun s a h => ?_)
    | (intro x'; clear_value x')
    | intro _
    | dsimp only [s']
    | split

theorem kept_lineDrop  (h : Kept b p i s) :
    Kept b p i (lineDrop s) := by
  unfold lineDrop
  repeat' first
    | with_reducible assumption
    | (intro (s : State) (h : Kept b p i s))
    | (intro _ (s : State) (h : Kept b p i s))
    | (intro (h : Kept b p i _))
    | (intro (s' : State); refine_lift have h : Kept b p i s' := ?_; ?_; clear_value s')
    | lift_lets
    | with_reducible apply keptO_next
    | with_reducible apply kept_ite
    | with_reducible apply kept_refreshWithhold
    | with_reducible apply kept_withdraw
    | with_reducible apply kept_slacChecks
    | with_reducible apply kept_assertLine
    | with_reducible apply kept_onOwl
    | with_reducible refine kept_foldl ?_ (fun s a h => ?_)
    | (intro (x : OwlBlock) hx; first | (simp only [OwlBlock.shape] at hx ⊢; with_reducible exact hx) | (simp only [OwlBlock.shape, List.length_mapIdx, List.length_map, upd_length, put_length] at hx ⊢; with_reducible exact hx) | (simp_all [OwlBlock.shape]; done) | ((repeat' split) <;> first | exact hx | (simp_all [OwlBlock.shape]; done)))
    | (intro x'; clear_value x')
    | intro _
    | dsimp only [s']
    | split

theorem kept_diagFail (a0 : ℕ) (a1 : ℕ) (h : Kept b p i s) :
    Kept b p i (diagFail a0 a1 s) := by
  unfold diagFail
  repeat' first
    | with_reducible assumption
    | (intro (s : State) (h : Kept b p i s))
    | (intro _ (s : State) (h : Kept b p i s))
    | (intro (h : Kept b p i _))
    | (intro (s' : State); refine_lift have h : Kept b p i s' := ?_; ?_; clear_value s')
    | lift_lets
    | with_reducible apply keptO_next
    | with_reducible apply kept_ite
    | with_reducible apply kept_logEv
    | with_reducible apply kept_onOwl
    | with_reducible apply kept_lineDrop
    | with_reducible apply kept_logOwlState
    | with_reducible refine kept_foldl ?_ (fun s a h => ?_)
    | (intro (x : OwlBlock) hx; first | (simp only [OwlBlock.shape] at hx ⊢; with_reducible exact hx) | (simp only [OwlBlock.shape, List.length_mapIdx, List.length_map, upd_length, put_length] at hx ⊢; with_reducible exact hx) | (simp_all [OwlBlock.shape]; done) | ((repeat' split) <;> first | exact hx | (simp_all [OwlBlock.shape]; done)))
    | (intro x'; clear_value x')
    | intro _
    | dsimp only [s']
    | split

theorem kept_cfgDiag (a0 : Bool) (a1 : Bool) (a2 : ℕ) (h : Kept b p i s) :
    Kept b p i (cfgDiag a0 a1 a2 s) := by
  unfold cfgDiag
  repeat' first
    | with_reducible assumption
    | (intro (s : State) (h : Kept b p i s))
    | (intro _ (s : State) (h : Kept b p i s))
    | (intro (h : Kept b p i _))
    | (intro (s' : State); refine_lift have h : Kept b p i s' := ?_; ?_; clear_value s')
    | lift_lets
    | with_reducible apply keptO_next
    | with_reducible apply kept_ite
    | with_reducible apply kept_cfgCheck
    | with_reducible apply kept_diagFail
    | with_reducible refine kept_foldl ?_ (fun s a h => ?_)
    | (intro x'; clear_value x')
    | intro _
    | dsimp only [s']
    | split

theorem kept_execOwlDiagFail (a0 : ℕ) (a1 : ℕ) (h : Kept b p i s) :
    KeptO b p i (execOwlDiagFail a0 a1 s) := by
  unfold execOwlDiagFail
  repeat' first
    | with_reducible assumption
    | (intro (s : State) (h : Kept b p i s))
    | (intro _ (s : State) (h : Kept b p i s))
    | (intro (h : Kept b p i _))
    | (intro (s' : State); refine_lift have h : Kept b p i s' := ?_; ?_; clear_value s')
    | lift_lets
    | with_reducible apply keptO_next
    | with_reducible apply kept_ite
    | with_reducible apply keptO_ite
    | with_reducible apply kept_cfgDiag
    | with_reducible apply kept_diagFail
    | with_reducible apply kept_onOwl
    | with_reducible refine kept_foldl ?_ (fun s a h => ?_)
    | (intro (x : OwlBlock) hx; first | (simp only [OwlBlock.shape] at hx ⊢; with_reducible exact hx) | (simp only [OwlBlock.shape, List.length_mapIdx, List.length_map, upd_length, put_length] at hx ⊢; with_reducible exact hx) | (simp_all [OwlBlock.shape]; done) | ((repeat' split) <;> first | exact hx | (simp_all [OwlBlock.shape]; done)))
    | (intro x'; clear_value x')
    | intro _
    | dsimp only [s']
    | split

theorem kept_execOwlPeriodicDiag (a0 : ℕ) (a1 : Bool) (a2 : ℕ) (h : Kept b p i s) :
    KeptO b p i (execOwlPeriodicDiag a0 a1 a2 s) := by
  unfold execOwlPeriodicDiag
  repeat' first
    | with_reducible assumption
    | (intro (s : State) (h : Kept b p i s))
    | (intro _ (s : State) (h : Kept b p i s))
    | (intro (h : Kept b p i _))
    | (intro (s' : State); refine_lift have h : Kept b p i s' := ?_; ?_; clear_value s')
    | lift_lets
    | with_reducible apply keptO_next
    | with_reducible apply kept_ite
    | with_reducible apply keptO_ite
    | with_reducible apply kept_onOwl
    | with_reducible apply kept_cfgDiag
    | with_reducible apply kept_diagFail
    | with_reducible refine kept_foldl ?_ (fun s a h => ?_)
    | (intro (x : OwlBlock) hx; first | (simp only [OwlBlock.shape] at hx ⊢; with_reducible exact hx) | (simp only [OwlBlock.shape, List.length_mapIdx, List.length_map, upd_length, put_length] at hx ⊢; with_reducible exact hx) | (simp_all [OwlBlock.shape]; done) | ((repeat' split) <;> first | exact hx | (simp_all [OwlBlock.shape]; done)))
    | (intro x'; clear_value x')
    | intro _
    | dsimp only [s']
    | split

theorem kept_execOwlWatchdogExpiry  (h : Kept b p i s) :
    KeptO b p i (execOwlWatchdogExpiry s) := by
  unfold execOwlWatchdogExpiry
  repeat' first
    | with_reducible assumption
    | (intro (s : State) (h : Kept b p i s))
    | (intro _ (s : State) (h : Kept b p i s))
    | (intro (h : Kept b p i _))
    | (intro (s' : State); refine_lift have h : Kept b p i s' := ?_; ?_; clear_value s')
    | lift_lets
    | with_reducible apply keptO_next
    | with_reducible apply kept_ite
    | with_reducible apply keptO_ite
    | with_reducible apply kept_diagFail
    | with_reducible apply kept_onOwl
    | with_reducible refine kept_foldl ?_ (fun s a h => ?_)
    | (intro (x : OwlBlock) hx; first | (simp only [OwlBlock.shape] at hx ⊢; with_reducible exact hx) | (simp only [OwlBlock.shape, List.length_mapIdx, List.length_map, upd_length, put_length] at hx ⊢; with_reducible exact hx) | (simp_all [OwlBlock.shape]; done) | ((repeat' split) <;> first | exact hx | (simp_all [OwlBlock.shape]; done)))
    | (intro x'; clear_value x')
    | intro _
    | dsimp only [s']
    | split

theorem kept_execOwlSafeTimeout  (h : Kept b p i s) :
    KeptO b p i (execOwlSafeTimeout s) := by
  unfold execOwlSafeTimeout
  repeat' first
    | with_reducible assumption
    | (intro (s : State) (h : Kept b p i s))
    | (intro _ (s : State) (h : Kept b p i s))
    | (intro (h : Kept b p i _))
    | (intro (s' : State); refine_lift have h : Kept b p i s' := ?_; ?_; clear_value s')
    | lift_lets
    | with_reducible apply keptO_next
    | with_reducible apply kept_ite
    | with_reducible apply keptO_ite
    | with_reducible apply kept_onSys
    | with_reducible apply kept_onOwl
    | with_reducible apply kept_logOwlState
    | with_reducible refine kept_foldl ?_ (fun s a h => ?_)
    | (intro (x : OwlBlock) hx; first | (simp only [OwlBlock.shape, owlRestart] at hx ⊢; with_reducible exact hx) | (simp only [OwlBlock.shape, owlRestart, List.length_mapIdx, List.length_map, upd_length, put_length] at hx ⊢; with_reducible exact hx) | (simp_all [OwlBlock.shape, owlRestart]; done) | ((repeat' split) <;> first | exact hx | (simp_all [OwlBlock.shape, owlRestart]; done)))
    | (intro (x : SysBlock) hx; first | exact hx | exact ⟨Nat.zero_le _, hx.2⟩)
    | (intro x'; clear_value x')
    | intro _
    | dsimp only [s']
    | split

theorem kept_owlRestore  (h : Kept b p i s) :
    Kept b p i (owlRestore s) := by
  unfold owlRestore
  repeat' first
    | with_reducible assumption
    | (intro (s : State) (h : Kept b p i s))
    | (intro _ (s : State) (h : Kept b p i s))
    | (intro (h : Kept b p i _))
    | (intro (s' : State); refine_lift have h : Kept b p i s' := ?_; ?_; clear_value s')
    | lift_lets
    | with_reducible apply keptO_next
    | with_reducible apply kept_ite
    | with_reducible apply kept_onOwl
    | with_reducible refine kept_foldl ?_ (fun s a h => ?_)
    | (intro (x : OwlBlock) hx; first | (simp only [OwlBlock.shape] at hx ⊢; with_reducible exact hx) | (simp only [OwlBlock.shape, List.length_mapIdx, List.length_map, upd_length, put_length] at hx ⊢; with_reducible exact hx) | (simp_all [OwlBlock.shape]; done) | ((repeat' split) <;> first | exact hx | (simp_all [OwlBlock.shape]; done)))
    | (intro x'; clear_value x')
    | intro _
    | dsimp only [s']
    | split

theorem kept_startOutlet (a0 : ℕ) (h : Kept b p i s) :
    Kept b p i (startOutlet a0 s) := by
  unfold startOutlet
  repeat' first
    | with_reducible assumption
    | (intro (s : State) (h : Kept b p i s))
    | (intro _ (s : State) (h : Kept b p i s))
    | (intro (h : Kept b p i _))
    | (intro (s' : State); refine_lift have h : Kept b p i s' := ?_; ?_; clear_value s')
    | lift_lets
    | with_reducible apply keptO_next
    | with_reducible apply kept_ite
    | with_reducible apply kept_beginPostOpen
    | with_reducible apply kept_requestLock
    | with_reducible refine kept_foldl ?_ (fun s a h => ?_)
    | (intro x'; clear_value x')
    | intro _
    | dsimp only [s']
    | split

theorem kept_execOwlStartComplete  (h : Kept b p i s) :
    KeptO b p i (execOwlStartComplete s) := by
  unfold execOwlStartComplete
  repeat' first
    | with_reducible assumption
    | (intro (s : State) (h : Kept b p i s))
    | (intro _ (s : State) (h : Kept b p i s))
    | (intro (h : Kept b p i _))
    | (intro (s' : State); refine_lift have h : Kept b p i s' := ?_; ?_; clear_value s')
    | lift_lets
    | with_reducible apply keptO_next
    | with_reducible apply kept_ite
    | with_reducible apply keptO_ite
    | with_reducible apply kept_owlRestore
    | with_reducible apply kept_onOwl
    | with_reducible apply kept_logOwlState
    | with_reducible apply kept_startOutlet
    | with_reducible apply kept_settleAll
    | with_reducible apply kept_refreshWithhold
    | with_reducible apply kept_offerChanged
    | with_reducible refine kept_foldl ?_ (fun s a h => ?_)
    | (intro (x : OwlBlock) hx; first | (simp only [OwlBlock.shape] at hx ⊢; with_reducible exact hx) | (simp only [OwlBlock.shape, List.length_mapIdx, List.length_map, upd_length, put_length] at hx ⊢; with_reducible exact hx) | (simp_all [OwlBlock.shape]; done) | ((repeat' split) <;> first | exact hx | (simp_all [OwlBlock.shape]; done)))
    | (intro x'; clear_value x')
    | intro _
    | dsimp only [s']
    | split

theorem kept_pwFail (a0 : Req) (h : Kept b p i s) :
    Kept b p i (pwFail a0 s) := by
  unfold pwFail
  repeat' first
    | with_reducible assumption
    | (intro (s : State) (h : Kept b p i s))
    | (intro _ (s : State) (h : Kept b p i s))
    | (intro (h : Kept b p i _))
    | (intro (s' : State); refine_lift have h : Kept b p i s' := ?_; ?_; clear_value s')
    | lift_lets
    | with_reducible apply keptO_next
    | with_reducible apply kept_ite
    | with_reducible apply kept_logEv
    | with_reducible apply kept_onCfg
    | with_reducible refine kept_foldl ?_ (fun s a h => ?_)
    | (intro x'; clear_value x')
    | intro _
    | dsimp only [s']
    | split

theorem kept_pwSuccess  (h : Kept b p i s) :
    Kept b p i (pwSuccess s) := by
  unfold pwSuccess
  repeat' first
    | with_reducible assumption
    | (intro (s : State) (h : Kept b p i s))
    | (intro _ (s : State) (h : Kept b p i s))
    | (intro (h : Kept b p i _))
    | (intro (s' : State); refine_lift have h : Kept b p i s' := ?_; ?_; clear_value s')
    | lift_lets
    | with_reducible apply keptO_next
    | with_reducible apply kept_ite
    | with_reducible apply kept_onCfg
    | with_reducible refine kept_foldl ?_ (fun s a h => ?_)
    | (intro x'; clear_value x')
    | intro _
    | dsimp only [s']
    | split

theorem kept_execOwlPwProve (a0 : Req) (a1 : Bytes) (h : Kept b p i s) :
    KeptO b p i (execOwlPwProve a0 a1 s) := by
  unfold execOwlPwProve
  repeat' first
    | with_reducible assumption
    | (intro (s : State) (h : Kept b p i s))
    | (intro _ (s : State) (h : Kept b p i s))
    | (intro (h : Kept b p i _))
    | (intro (s' : State); refine_lift have h : Kept b p i s' := ?_; ?_; clear_value s')
    | lift_lets
    | with_reducible apply keptO_next
    | with_reducible apply kept_ite
    | with_reducible apply keptO_ite
    | with_reducible apply kept_guarded
    | with_reducible apply kept_postSts
    | with_reducible apply kept_onOwl
    | with_reducible apply kept_pwSuccess
    | with_reducible apply kept_pwFail
    | with_reducible refine kept_foldl ?_ (fun s a h => ?_)
    | (intro (x : OwlBlock) hx; first | (simp only [OwlBlock.shape] at hx ⊢; with_reducible exact hx) | (simp only [OwlBlock.shape, List.length_mapIdx, List.length_map, upd_length, put_length] at hx ⊢; with_reducible exact hx) | (simp_all [OwlBlock.shape]; done) | ((repeat' split) <;> first | exact hx | (simp_all [OwlBlock.shape]; done)))
    | (intro x'; clear_value x')
    | intro _
    | dsimp only [s']
    | split

theorem kept_setVerifier (a0 : Bytes) (h : Kept b p i s) :
    Kept b p i (setVerifier a0 s) := by
  unfold setVerifier
  repeat' first
    | with_reducible assumption
    | (intro (s : State) (h : Kept b p i s))
    | (intro _ (s : State) (h : Kept b p i s))
    | (intro (h : Kept b p i _))
    | (intro (s' : State); refine_lift have h : Kept b p i s' := ?_; ?_; clear_value s')
    | lift_lets
    | with_reducible apply keptO_next
    | with_reducible apply kept_ite
    | with_reducible apply kept_bump
    | with_reducible apply kept_onCfg
    | with_reducible refine kept_foldl ?_ (fun s a h => ?_)
    | (intro x'; clear_value x')
    | intro _
    | dsimp only [s']
    | split

theorem kept_execOwlPwSet (a0 : Req) (a1 : Bytes) (a2 : Bytes) (h : Kept b p i s) :
    KeptO b p i (execOwlPwSet a0 a1 a2 s) := by
  unfold execOwlPwSet
  repeat' first
    | with_reducible assumption
    | (intro (s : State) (h : Kept b p i s))
    | (intro _ (s : State) (h : Kept b p i s))
    | (intro (h : Kept b p i _))
    | (intro (s' : State); refine_lift have h : Kept b p i s' := ?_; ?_; clear_value s')
    | lift_lets
    | with_reducible apply keptO_next
    | with_reducible apply kept_ite
    | with_reducible apply keptO_ite
    | with_reducible apply kept_guarded
    | with_reducible apply kept_postSts
    | with_reducible apply kept_pwFail
    | with_reducible apply kept_changeEntry
    | with_reducible apply kept_setVerifier
    | with_reducible apply kept_pwSuccess
    | with_reducible refine kept_foldl ?_ (fun s a h => ?_)
    | (intro x'; clear_value x')
    | intro _
    | dsimp only [s']
    | split

theorem kept_execOwlPwEnd (a0 : Req) (h : Kept b p i s) :
    KeptO b p i (execOwlPwEnd a0 s) := by
  unfold execOwlPwEnd
  repeat' first
    | with_reducible assumption
    | (intro (s : State) (h : Kept b p i s))
    | (intro _ (s : State) (h : Kept b p i s))
    | (intro (h : Kept b p i _))
    | (intro (s' : State); refine_lift have h : Kept b p i s' := ?_; ?_; clear_value s')
    | lift_lets
    | with_reducible apply keptO_next
    | with_reducible apply kept_ite
    | with_reducible apply keptO_ite
    | with_reducible apply kept_guarded
    | with_reducible apply kept_postSts
    | with_reducible apply kept_onOwl
    | with_reducible refine kept_foldl ?_ (fun s a h => ?_)
    | (intro (x : OwlBlock) hx; first | (simp only [OwlBlock.shape] at hx ⊢; with_reducible exact hx) | (simp only [OwlBlock.shape, List.length_mapIdx, List.length_map, upd_length, put_length] at hx ⊢; with_reducible exact hx) | (simp_all [OwlBlock.shape]; done) | ((repeat' split) <;> first | exact hx | (simp_all [OwlBlock.shape]; done)))
    | (intro x'; clear_value x')
    | intro _
    | dsimp only [s']
    | split

theorem kept_execSafetySessionExpiry  (h : Kept b p i s) :
    KeptO b p i (execSafetySessionExpiry s) := by
  unfold execSafetySessionExpiry
  repeat' first
    | with_reducible assumption
    | (intro (s : State) (h : Kept b p i s))
    | (intro _ (s : State) (h : Kept b p i s))
    | (intro (h : Kept b p i _))
    | (intro (s' : State); refine_lift have h : Kept b p i s' := ?_; ?_; clear_value s')
    | lift_lets
    | with_reducible apply keptO_next
    | with_reducible apply kept_ite
    | with_reducible apply keptO_ite
    | with_reducible apply kept_onOwl
    | with_reducible refine kept_foldl ?_ (fun s a h => ?_)
    | (intro (x : OwlBlock) hx; first | (simp only [OwlBlock.shape] at hx ⊢; with_reducible exact hx) | (simp only [OwlBlock.shape, List.length_mapIdx, List.length_map, upd_length, put_length] at hx ⊢; with_reducible exact hx) | (simp_all [OwlBlock.shape]; done) | ((repeat' split) <;> first | exact hx | (simp_all [OwlBlock.shape]; done)))
    | (intro x'; clear_value x')
    | intro _
    | dsimp only [s']
    | split

theorem kept_execPwLockoutEnd  (h : Kept b p i s) :
    KeptO b p i (execPwLockoutEnd s) := by
  unfold execPwLockoutEnd
  repeat' first
    | with_reducible assumption
    | (intro (s : State) (h : Kept b p i s))
    | (intro _ (s : State) (h : Kept b p i s))
    | (intro (h : Kept b p i _))
    | (intro (s' : State); refine_lift have h : Kept b p i s' := ?_; ?_; clear_value s')
    | lift_lets
    | with_reducible apply keptO_next
    | with_reducible apply kept_ite
    | with_reducible apply keptO_ite
    | with_reducible apply kept_onCfg
    | with_reducible refine kept_foldl ?_ (fun s a h => ?_)
    | (intro x'; clear_value x')
    | intro _
    | dsimp only [s']
    | split

theorem kept_execOwlLogRead (a0 : Req) (a1 : ℕ) (h : Kept b p i s) :
    KeptO b p i (execOwlLogRead a0 a1 s) := by
  unfold execOwlLogRead
  repeat' first
    | with_reducible assumption
    | (intro (s : State) (h : Kept b p i s))
    | (intro _ (s : State) (h : Kept b p i s))
    | (intro (h : Kept b p i _))
    | (intro (s' : State); refine_lift have h : Kept b p i s' := ?_; ?_; clear_value s')
    | lift_lets
    | with_reducible apply keptO_next
    | with_reducible apply kept_ite
    | with_reducible apply keptO_ite
    | with_reducible apply kept_guarded
    | with_reducible apply kept_post
    | with_reducible refine kept_foldl ?_ (fun s a h => ?_)
    | (intro x'; clear_value x')
    | intro _
    | dsimp only [s']
    | split

end Sys2Proof.Machine
end

