-- ==== Sys2Proof/Laws/KeptEfdom.lean ====
section
/-! SUPPORT. What the operations of Efdom.lean keep. -/

set_option linter.unusedSimpArgs false
set_option linter.unusedVariables false
set_option linter.unreachableTactic false
set_option linter.unusedTactic false

namespace Sys2Proof.Machine

variable {b : Prop} {p : List Instr} {i : Ident} {s : State}

theorem kept_onConn (a0 : ℕ) (a1 : EfdomConn → EfdomConn) (h : Kept b p i s) :
    Kept b p i (onConn a0 a1 s) := by
  unfold onConn
  repeat' first
    | with_reducible assumption
    | (intro (s : State) (h : Kept b p i s))
    | (intro _ (s : State) (h : Kept b p i s))
    | (intro (h : Kept b p i _))
    | (intro (s' : State); refine_lift have h : Kept b p i s' := ?_; ?_; clear_value s')
    | lift_lets
    | with_reducible apply keptO_next
    | with_reducible apply kept_ite
    | with_reducible apply kept_onOwl
    | with_reducible refine kept_foldl ?_ (fun s a h => ?_)
    | (intro (x : OwlBlock) hx; first | (simp only [OwlBlock.shape] at hx ⊢; with_reducible exact hx) | (simp only [OwlBlock.shape, List.length_mapIdx, List.length_map, upd_length, put_length] at hx ⊢; with_reducible exact hx) | (simp_all [OwlBlock.shape]; done) | ((repeat' split) <;> first | exact hx | (simp_all [OwlBlock.shape]; done)))
    | (intro x'; clear_value x')
    | intro _
    | dsimp only [s']
    | split

theorem kept_setConn (a0 : ℕ) (a1 : EfdomState) (a2 : ℕ) (h : Kept b p i s) :
    Kept b p i (setConn a0 a1 a2 s) := by
  unfold setConn
  repeat' first
    | with_reducible assumption
    | (intro (s : State) (h : Kept b p i s))
    | (intro _ (s : State) (h : Kept b p i s))
    | (intro (h : Kept b p i _))
    | (intro (s' : State); refine_lift have h : Kept b p i s' := ?_; ?_; clear_value s')
    | lift_lets
    | with_reducible apply keptO_next
    | with_reducible apply kept_ite
    | with_reducible apply kept_logEv
    | with_reducible apply kept_onConn
    | with_reducible refine kept_foldl ?_ (fun s a h => ?_)
    | (intro x'; clear_value x')
    | intro _
    | dsimp only [s']
    | split

theorem kept_staleDiscard (a0 : ℕ) (h : Kept b p i s) :
    Kept b p i (staleDiscard a0 s) := by
  unfold staleDiscard
  repeat' first
    | with_reducible assumption
    | (intro (s : State) (h : Kept b p i s))
    | (intro _ (s : State) (h : Kept b p i s))
    | (intro (h : Kept b p i _))
    | (intro (s' : State); refine_lift have h : Kept b p i s' := ?_; ?_; clear_value s')
    | lift_lets
    | with_reducible apply keptO_next
    | with_reducible apply kept_ite
    | with_reducible apply kept_onConn
    | with_reducible refine kept_foldl ?_ (fun s a h => ?_)
    | (intro x'; clear_value x')
    | intro _
    | dsimp only [s']
    | split

theorem kept_acceptFrame (a0 : ℕ) (a1 : ℕ) (a2 : ℕ) (a3 : ℕ) (h : Kept b p i s) :
    Kept b p i (acceptFrame a0 a1 a2 a3 s) := by
  unfold acceptFrame
  repeat' first
    | with_reducible assumption
    | (intro (s : State) (h : Kept b p i s))
    | (intro _ (s : State) (h : Kept b p i s))
    | (intro (h : Kept b p i _))
    | (intro (s' : State); refine_lift have h : Kept b p i s' := ?_; ?_; clear_value s')
    | lift_lets
    | with_reducible apply keptO_next
    | with_reducible apply kept_ite
    | with_reducible apply kept_onConn
    | with_reducible refine kept_foldl ?_ (fun s a h => ?_)
    | (intro x'; clear_value x')
    | intro _
    | dsimp only [s']
    | split

theorem kept_receiveOn (a0 : ℕ) (a1 : Bytes) (h : Kept b p i s) :
    Kept b p i (receiveOn a0 a1 s) := by
  unfold receiveOn
  repeat' first
    | with_reducible assumption
    | (intro (s : State) (h : Kept b p i s))
    | (intro _ (s : State) (h : Kept b p i s))
    | (intro (h : Kept b p i _))
    | (intro (s' : State); refine_lift have h : Kept b p i s' := ?_; ?_; clear_value s')
    | lift_lets
    | with_reducible apply keptO_next
    | with_reducible apply kept_ite
    | with_reducible apply kept_onConn
    | with_reducible apply kept_setConn
    | with_reducible apply kept_acceptFrame
    | with_reducible apply kept_staleDiscard
    | with_reducible apply kept_logEv
    | with_reducible refine kept_foldl ?_ (fun s a h => ?_)
    | (intro x'; clear_value x')
    | intro _
    | dsimp only [s']
    | split

theorem kept_countAnon (a0 : ℕ) (a1 : EfdomConn → EfdomConn) (h : Kept b p i s) :
    Kept b p i (countAnon a0 a1 s) := by
  unfold countAnon
  repeat' first
    | with_reducible assumption
    | (intro (s : State) (h : Kept b p i s))
    | (intro _ (s : State) (h : Kept b p i s))
    | (intro (h : Kept b p i _))
    | (intro (s' : State); refine_lift have h : Kept b p i s' := ?_; ?_; clear_value s')
    | lift_lets
    | with_reducible apply keptO_next
    | with_reducible apply kept_ite
    | with_reducible apply kept_bump
    | with_reducible apply kept_onConn
    | with_reducible refine kept_foldl ?_ (fun s a h => ?_)
    | (intro x'; clear_value x')
    | intro _
    | dsimp only [s']
    | split

theorem kept_efdomReceive (a0 : ℕ) (a1 : Bytes) (h : Kept b p i s) :
    Kept b p i (efdomReceive a0 a1 s) := by
  unfold efdomReceive
  repeat' first
    | with_reducible assumption
    | (intro (s : State) (h : Kept b p i s))
    | (intro _ (s : State) (h : Kept b p i s))
    | (intro (h : Kept b p i _))
    | (intro (s' : State); refine_lift have h : Kept b p i s' := ?_; ?_; clear_value s')
    | lift_lets
    | with_reducible apply keptO_next
    | with_reducible apply kept_ite
    | with_reducible apply kept_countAnon
    | with_reducible apply kept_receiveOn
    | with_reducible apply kept_logEv
    | with_reducible apply kept_onOwl
    | with_reducible refine kept_foldl ?_ (fun s a h => ?_)
    | (intro (x : OwlBlock) hx; first | (simp only [OwlBlock.shape] at hx ⊢; with_reducible exact hx) | (simp only [OwlBlock.shape, List.length_mapIdx, List.length_map, upd_length, put_length] at hx ⊢; with_reducible exact hx) | (simp_all [OwlBlock.shape]; done) | ((repeat' split) <;> first | exact hx | (simp_all [OwlBlock.shape]; done)))
    | (intro x'; clear_value x')
    | intro _
    | dsimp only [s']
    | split

theorem kept_execEfdomFrameReceive (a0 : ℕ) (a1 : Bytes) (h : Kept b p i s) :
    KeptO b p i (execEfdomFrameReceive a0 a1 s) := by
  unfold execEfdomFrameReceive
  repeat' first
    | with_reducible assumption
    | (intro (s : State) (h : Kept b p i s))
    | (intro _ (s : State) (h : Kept b p i s))
    | (intro (h : Kept b p i _))
    | (intro (s' : State); refine_lift have h : Kept b p i s' := ?_; ?_; clear_value s')
    | lift_lets
    | with_reducible apply keptO_next
    | with_reducible apply kept_ite
    | with_reducible apply keptO_ite
    | with_reducible apply kept_efdomReceive
    | with_reducible refine kept_foldl ?_ (fun s a h => ?_)
    | (intro x'; clear_value x')
    | intro _
    | dsimp only [s']
    | split

theorem kept_execEfdomWatchdogExpiry (a0 : ℕ) (h : Kept b p i s) :
    KeptO b p i (execEfdomWatchdogExpiry a0 s) := by
  unfold execEfdomWatchdogExpiry
  repeat' first
    | with_reducible assumption
    | (intro (s : State) (h : Kept b p i s))
    | (intro _ (s : State) (h : Kept b p i s))
    | (intro (h : Kept b p i _))
    | (intro (s' : State); refine_lift have h : Kept b p i s' := ?_; ?_; clear_value s')
    | lift_lets
    | with_reducible apply keptO_next
    | with_reducible apply kept_ite
    | with_reducible apply keptO_ite
    | with_reducible apply kept_setConn
    | with_reducible apply kept_onConn
    | with_reducible refine kept_foldl ?_ (fun s a h => ?_)
    | (intro x'; clear_value x')
    | intro _
    | dsimp only [s']
    | split

theorem kept_handOver (a0 : EfdomRec) (a1 : Bytes) (h : Kept b p i s) :
    Kept b p i (handOver a0 a1 s) := by
  unfold handOver
  repeat' first
    | with_reducible assumption
    | (intro (s : State) (h : Kept b p i s))
    | (intro _ (s : State) (h : Kept b p i s))
    | (intro (h : Kept b p i _))
    | (intro (s' : State); refine_lift have h : Kept b p i s' := ?_; ?_; clear_value s')
    | lift_lets
    | with_reducible apply keptO_next
    | with_reducible apply kept_ite
    | with_reducible apply kept_bump
    | with_reducible apply kept_onCan
    | with_reducible apply kept_onEth
    | with_reducible apply kept_onGlk
    | with_reducible refine kept_foldl ?_ (fun s a h => ?_)
    | (intro x'; clear_value x')
    | intro _
    | dsimp only [s']
    | split

theorem kept_execEfdomTransmit (a0 : ℕ) (h : Kept b p i s) :
    KeptO b p i (execEfdomTransmit a0 s) := by
  unfold execEfdomTransmit
  repeat' first
    | with_reducible assumption
    | (intro (s : State) (h : Kept b p i s))
    | (intro _ (s : State) (h : Kept b p i s))
    | (intro (h : Kept b p i _))
    | (intro (s' : State); refine_lift have h : Kept b p i s' := ?_; ?_; clear_value s')
    | lift_lets
    | with_reducible apply keptO_next
    | with_reducible apply kept_ite
    | with_reducible apply keptO_ite
    | with_reducible apply kept_bump
    | with_reducible apply kept_handOver
    | with_reducible apply kept_onConn
    | with_reducible refine kept_foldl ?_ (fun s a h => ?_)
    | (intro x'; clear_value x')
    | intro _
    | dsimp only [s']
    | split

theorem kept_execOwlEfdomSet (a0 : Req) (a1 : Bytes) (h : Kept b p i s) :
    KeptO b p i (execOwlEfdomSet a0 a1 s) := by
  unfold execOwlEfdomSet
  repeat' first
    | with_reducible assumption
    | (intro (s : State) (h : Kept b p i s))
    | (intro _ (s : State) (h : Kept b p i s))
    | (intro (h : Kept b p i _))
    | (intro (s' : State); refine_lift have h : Kept b p i s' := ?_; ?_; clear_value s')
    | lift_lets
    | with_reducible apply keptO_next
    | with_reducible apply kept_ite
    | with_reducible apply keptO_ite
    | with_reducible apply kept_guarded
    | with_reducible apply kept_onCfg
    | with_reducible apply kept_onConn
    | with_reducible apply kept_postSts
    | with_reducible apply kept_changeEntry
    | with_reducible refine kept_foldl ?_ (fun s a h => ?_)
    | (intro x'; clear_value x')
    | intro _
    | dsimp only [s']
    | split

end Sys2Proof.Machine
end

