-- ==== Sys2Proof/Laws/KeptTime.lean ====
section
/-! SUPPORT. What the operations of Time.lean keep. -/

set_option linter.unusedSimpArgs false
set_option linter.unusedVariables false
set_option linter.unreachableTactic false
set_option linter.unusedTactic false

namespace Sys2Proof.Machine

variable {b : Prop} {p : List Instr} {i : Ident} {s : State}

theorem kept_tick  (h : Kept b p i s) :
    Kept b p i (tick s) := by
  unfold tick
  repeat' first
    | with_reducible assumption
    | (intro (s : State) (h : Kept b p i s))
    | (intro _ (s : State) (h : Kept b p i s))
    | (intro (h : Kept b p i _))
    | (exact h)
    | (intro (s' : State); refine_lift have h : Kept b p i s' := ?_; ?_; clear_value s')
    | lift_lets
    | with_reducible apply keptO_next
    | with_reducible apply kept_ite
    | with_reducible apply kept_onTim
    | with_reducible refine kept_foldl ?_ (fun s a h => ?_)
    | (intro (x : TimBlock) hx; first | (simp only [TimBlock.shape, tickTim] at hx ⊢; with_reducible exact hx) | (simp only [TimBlock.shape, tickTim, List.length_mapIdx, List.length_map, upd_length, put_length] at hx ⊢; with_reducible exact hx) | (simp_all [TimBlock.shape, tickTim]; done) | ((repeat' split) <;> first | exact hx | (simp_all [TimBlock.shape, tickTim]; done)))
    | (intro x'; clear_value x')
    | intro _
    | dsimp only [s']
    | split

theorem kept_setDomState (a0 : ℕ) (a1 : DomState) (h : Kept b p i s) :
    Kept b p i (setDomState a0 a1 s) := by
  unfold setDomState
  repeat' first
    | with_reducible assumption
    | (intro (s : State) (h : Kept b p i s))
    | (intro _ (s : State) (h : Kept b p i s))
    | (intro (h : Kept b p i _))
    | (intro (s' : State); refine_lift have h : Kept b p i s' := ?_; ?_; clear_value s')
    | lift_lets
    | with_reducible apply keptO_next
    | with_reducible apply kept_ite
    | with_reducible apply kept_onDom
    | with_reducible apply kept_logEv
    | with_reducible refine kept_foldl ?_ (fun s a h => ?_)
    | (intro x'; clear_value x')
    | intro _
    | dsimp only [s']
    | split

theorem kept_fireAlarm  (h : Kept b p i s) :
    Kept b p i (fireAlarm s) := by
  unfold fireAlarm
  repeat' first
    | with_reducible assumption
    | (intro (s : State) (h : Kept b p i s))
    | (intro _ (s : State) (h : Kept b p i s))
    | (intro (h : Kept b p i _))
    | (intro (s' : State); refine_lift have h : Kept b p i s' := ?_; ?_; clear_value s')
    | lift_lets
    | with_reducible apply keptO_next
    | with_reducible apply kept_ite
    | with_reducible apply kept_onTim
    | with_reducible refine kept_foldl ?_ (fun s a h => ?_)
    | (intro (x : TimBlock) hx; first | (simp only [TimBlock.shape] at hx ⊢; with_reducible exact hx) | (simp only [TimBlock.shape, List.length_mapIdx, List.length_map, upd_length, put_length] at hx ⊢; with_reducible exact hx) | (simp_all [TimBlock.shape]; done) | ((repeat' split) <;> first | exact hx | (simp_all [TimBlock.shape]; done)))
    | (intro x'; clear_value x')
    | intro _
    | dsimp only [s']
    | split

theorem kept_alarmAfterStep (a0 : ℕ) (a1 : ℕ) (h : Kept b p i s) :
    Kept b p i (alarmAfterStep a0 a1 s) := by
  unfold alarmAfterStep
  repeat' first
    | with_reducible assumption
    | (intro (s : State) (h : Kept b p i s))
    | (intro _ (s : State) (h : Kept b p i s))
    | (intro (h : Kept b p i _))
    | (intro (s' : State); refine_lift have h : Kept b p i s' := ?_; ?_; clear_value s')
    | lift_lets
    | with_reducible apply keptO_next
    | with_reducible apply kept_ite
    | with_reducible apply kept_fireAlarm
    | with_reducible refine kept_foldl ?_ (fun s a h => ?_)
    | (intro x'; clear_value x')
    | intro _
    | dsimp only [s']
    | split

theorem kept_takeStep (a0 : ℕ) (a1 : ℕ) (a2 : Bool) (h : Kept b p i s) :
    Kept b p i (takeStep a0 a1 a2 s) := by
  unfold takeStep
  repeat' first
    | with_reducible assumption
    | (intro (s : State) (h : Kept b p i s))
    | (intro _ (s : State) (h : Kept b p i s))
    | (intro (h : Kept b p i _))
    | (intro (s' : State); refine_lift have h : Kept b p i s' := ?_; ?_; clear_value s')
    | lift_lets
    | with_reducible apply keptO_next
    | with_reducible apply kept_ite
    | with_reducible apply kept_onBil
    | with_reducible refine kept_foldl ?_ (fun s a h => ?_)
    | (intro (x : BilBlock) hx; first | (simp only [BilBlock.shape] at hx ⊢; with_reducible exact hx) | (simp only [BilBlock.shape, List.length_mapIdx, List.length_map, upd_length, put_length] at hx ⊢; with_reducible exact hx) | (simp_all [BilBlock.shape]; done) | ((repeat' split) <;> first | exact hx | (simp_all [BilBlock.shape]; done)))
    | (intro x'; clear_value x')
    | intro _
    | dsimp only [s']
    | split

theorem kept_stepNow (a0 : ℕ) (a1 : Bool) (h : Kept b p i s) :
    Kept b p i (stepNow a0 a1 s) := by
  unfold stepNow
  repeat' first
    | with_reducible assumption
    | (intro (s : State) (h : Kept b p i s))
    | (intro _ (s : State) (h : Kept b p i s))
    | (intro (h : Kept b p i _))
    | (intro (s' : State); refine_lift have h : Kept b p i s' := ?_; ?_; clear_value s')
    | lift_lets
    | with_reducible apply keptO_next
    | with_reducible apply kept_ite
    | with_reducible apply kept_onTim
    | with_reducible apply kept_alarmAfterStep
    | with_reducible apply kept_takeStep
    | with_reducible refine kept_foldl ?_ (fun s a h => ?_)
    | (intro (x : TimBlock) hx; first | (simp only [TimBlock.shape] at hx ⊢; with_reducible exact hx) | (simp only [TimBlock.shape, List.length_mapIdx, List.length_map, upd_length, put_length] at hx ⊢; with_reducible exact hx) | (simp_all [TimBlock.shape]; done) | ((repeat' split) <;> first | exact hx | (simp_all [TimBlock.shape]; done)))
    | (intro x'; clear_value x')
    | intro _
    | dsimp only [s']
    | split

theorem kept_stepDomain (a0 : ℕ) (a1 : ℤ) (h : Kept b p i s) :
    Kept b p i (stepDomain a0 a1 s) := by
  unfold stepDomain
  repeat' first
    | with_reducible assumption
    | (intro (s : State) (h : Kept b p i s))
    | (intro _ (s : State) (h : Kept b p i s))
    | (intro (h : Kept b p i _))
    | (intro (s' : State); refine_lift have h : Kept b p i s' := ?_; ?_; clear_value s')
    | lift_lets
    | with_reducible apply keptO_next
    | with_reducible apply kept_ite
    | with_reducible apply kept_onDom
    | with_reducible apply kept_stepNow
    | with_reducible refine kept_foldl ?_ (fun s a h => ?_)
    | (intro x'; clear_value x')
    | intro _
    | dsimp only [s']
    | split

theorem kept_correct (a0 : ℕ) (a1 : ℤ) (h : Kept b p i s) :
    Kept b p i (correct a0 a1 s) := by
  unfold correct
  repeat' first
    | with_reducible assumption
    | (intro (s : State) (h : Kept b p i s))
    | (intro _ (s : State) (h : Kept b p i s))
    | (intro (h : Kept b p i _))
    | (intro (s' : State); refine_lift have h : Kept b p i s' := ?_; ?_; clear_value s')
    | lift_lets
    | with_reducible apply keptO_next
    | with_reducible apply kept_ite
    | with_reducible apply kept_stepDomain
    | with_reducible apply kept_onDom
    | with_reducible apply kept_setDomState
    | with_reducible refine kept_foldl ?_ (fun s a h => ?_)
    | (intro x'; clear_value x')
    | intro _
    | dsimp only [s']
    | split

theorem kept_execTimSet (a0 : Req) (a1 : ℕ) (a2 : ℕ) (h : Kept b p i s) :
    KeptO b p i (execTimSet a0 a1 a2 s) := by
  unfold execTimSet
  repeat' first
    | with_reducible assumption
    | (intro (s : State) (h : Kept b p i s))
    | (intro _ (s : State) (h : Kept b p i s))
    | (intro (h : Kept b p i _))
    | (intro (s' : State); refine_lift have h : Kept b p i s' := ?_; ?_; clear_value s')
    | lift_lets
    | with_reducible apply keptO_next
    | with_reducible apply kept_ite
    | with_reducible apply keptO_ite
    | with_reducible apply kept_guarded
    | with_reducible apply kept_postSts
    | with_reducible apply kept_correct
    | with_reducible refine kept_foldl ?_ (fun s a h => ?_)
    | (intro x'; clear_value x')
    | intro _
    | dsimp only [s']
    | split

theorem kept_execTimOffset (a0 : Req) (a1 : ℕ) (a2 : ℤ) (h : Kept b p i s) :
    KeptO b p i (execTimOffset a0 a1 a2 s) := by
  unfold execTimOffset
  repeat' first
    | with_reducible assumption
    | (intro (s : State) (h : Kept b p i s))
    | (intro _ (s : State) (h : Kept b p i s))
    | (intro (h : Kept b p i _))
    | (intro (s' : State); refine_lift have h : Kept b p i s' := ?_; ?_; clear_value s')
    | lift_lets
    | with_reducible apply keptO_next
    | with_reducible apply kept_ite
    | with_reducible apply keptO_ite
    | with_reducible apply kept_guarded
    | with_reducible apply kept_postSts
    | with_reducible apply kept_correct
    | with_reducible refine kept_foldl ?_ (fun s a h => ?_)
    | (intro x'; clear_value x')
    | intro _
    | dsimp only [s']
    | split

theorem kept_execTimSelect (a0 : Req) (a1 : ℕ) (h : Kept b p i s) :
    KeptO b p i (execTimSelect a0 a1 s) := by
  unfold execTimSelect
  repeat' first
    | with_reducible assumption
    | (intro (s : State) (h : Kept b p i s))
    | (intro _ (s : State) (h : Kept b p i s))
    | (intro (h : Kept b p i _))
    | (intro (s' : State); refine_lift have h : Kept b p i s' := ?_; ?_; clear_value s')
    | lift_lets
    | with_reducible apply keptO_next
    | with_reducible apply kept_ite
    | with_reducible apply keptO_ite
    | with_reducible apply kept_guarded
    | with_reducible apply kept_pend
    | with_reducible apply kept_onTim
    | with_reducible refine kept_foldl ?_ (fun s a h => ?_)
    | (intro (x : TimBlock) hx; first | (simp only [TimBlock.shape] at hx ⊢; with_reducible exact hx) | (simp only [TimBlock.shape, List.length_mapIdx, List.length_map, upd_length, put_length] at hx ⊢; with_reducible exact hx) | (simp_all [TimBlock.shape]; done) | ((repeat' split) <;> first | exact hx | (simp_all [TimBlock.shape]; done)))
    | (intro x'; clear_value x')
    | intro _
    | dsimp only [s']
    | split

theorem kept_logSwitch (a0 : ℕ) (a1 : ℕ) (a2 : ℤ) (a3 : ℕ) (h : Kept b p i s) :
    Kept b p i (logSwitch a0 a1 a2 a3 s) := by
  unfold logSwitch
  repeat' first
    | with_reducible assumption
    | (intro (s : State) (h : Kept b p i s))
    | (intro _ (s : State) (h : Kept b p i s))
    | (intro (h : Kept b p i _))
    | (intro (s' : State); refine_lift have h : Kept b p i s' := ?_; ?_; clear_value s')
    | lift_lets
    | with_reducible apply keptO_next
    | with_reducible apply kept_ite
    | with_reducible apply kept_logEv
    | with_reducible refine kept_foldl ?_ (fun s a h => ?_)
    | (intro x'; clear_value x')
    | intro _
    | dsimp only [s']
    | split

theorem kept_useDomain (a0 : ℕ) (a1 : ℤ) (h : Kept b p i s) :
    Kept b p i (useDomain a0 a1 s) := by
  unfold useDomain
  repeat' first
    | with_reducible assumption
    | (intro (s : State) (h : Kept b p i s))
    | (intro _ (s : State) (h : Kept b p i s))
    | (intro (h : Kept b p i _))
    | (intro (s' : State); refine_lift have h : Kept b p i s' := ?_; ?_; clear_value s')
    | lift_lets
    | with_reducible apply keptO_next
    | with_reducible apply kept_ite
    | with_reducible apply kept_onTim
    | with_reducible refine kept_foldl ?_ (fun s a h => ?_)
    | (intro (x : TimBlock) hx; first | (simp only [TimBlock.shape] at hx ⊢; with_reducible exact hx) | (simp only [TimBlock.shape, List.length_mapIdx, List.length_map, upd_length, put_length] at hx ⊢; with_reducible exact hx) | (simp_all [TimBlock.shape]; done) | ((repeat' split) <;> first | exact hx | (simp_all [TimBlock.shape]; done)))
    | (intro x'; clear_value x')
    | intro _
    | dsimp only [s']
    | split

theorem kept_switchTo (a0 : ℕ) (a1 : ℤ) (h : Kept b p i s) :
    Kept b p i (switchTo a0 a1 s) := by
  unfold switchTo
  repeat' first
    | with_reducible assumption
    | (intro (s : State) (h : Kept b p i s))
    | (intro _ (s : State) (h : Kept b p i s))
    | (intro (h : Kept b p i _))
    | (intro (s' : State); refine_lift have h : Kept b p i s' := ?_; ?_; clear_value s')
    | lift_lets
    | with_reducible apply keptO_next
    | with_reducible apply kept_ite
    | with_reducible apply kept_useDomain
    | with_reducible apply kept_takeStep
    | with_reducible refine kept_foldl ?_ (fun s a h => ?_)
    | (intro x'; clear_value x')
    | intro _
    | dsimp only [s']
    | split

theorem kept_switchRows  (h : Kept b p i s) :
    Kept b p i (switchRows s) := by
  unfold switchRows
  repeat' first
    | with_reducible assumption
    | (intro (s : State) (h : Kept b p i s))
    | (intro _ (s : State) (h : Kept b p i s))
    | (intro (h : Kept b p i _))
    | (intro (s' : State); refine_lift have h : Kept b p i s' := ?_; ?_; clear_value s')
    | lift_lets
    | with_reducible apply keptO_next
    | with_reducible apply kept_ite
    | with_reducible apply kept_onTim
    | with_reducible apply kept_postSts
    | with_reducible apply kept_logSwitch
    | with_reducible apply kept_switchTo
    | with_reducible refine kept_foldl ?_ (fun s a h => ?_)
    | (intro (x : TimBlock) hx; first | (simp only [TimBlock.shape] at hx ⊢; with_reducible exact hx) | (simp only [TimBlock.shape, List.length_mapIdx, List.length_map, upd_length, put_length] at hx ⊢; with_reducible exact hx) | (simp_all [TimBlock.shape]; done) | ((repeat' split) <;> first | exact hx | (simp_all [TimBlock.shape]; done)))
    | (intro x'; clear_value x')
    | intro _
    | dsimp only [s']
    | split

theorem kept_secondBoundary  (h : Kept b p i s) :
    Kept b p i (secondBoundary s) := by
  unfold secondBoundary
  repeat' first
    | with_reducible assumption
    | (intro (s : State) (h : Kept b p i s))
    | (intro _ (s : State) (h : Kept b p i s))
    | (intro (h : Kept b p i _))
    | (intro (s' : State); refine_lift have h : Kept b p i s' := ?_; ?_; clear_value s')
    | lift_lets
    | with_reducible apply keptO_next
    | with_reducible apply kept_ite
    | with_reducible apply kept_switchRows
    | with_reducible apply kept_onTim
    | with_reducible apply kept_fireAlarm
    | with_reducible refine kept_foldl ?_ (fun s a h => ?_)
    | (intro (x : TimBlock) hx; first | (simp only [TimBlock.shape] at hx ⊢; with_reducible exact hx) | (simp only [TimBlock.shape, List.length_mapIdx, List.length_map, upd_length, put_length] at hx ⊢; with_reducible exact hx) | (simp_all [TimBlock.shape]; done) | ((repeat' split) <;> first | exact hx | (simp_all [TimBlock.shape]; done)))
    | (intro x'; clear_value x')
    | intro _
    | dsimp only [s']
    | split

theorem kept_execDomainHoldoverExpiry (a0 : ℕ) (h : Kept b p i s) :
    KeptO b p i (execDomainHoldoverExpiry a0 s) := by
  unfold execDomainHoldoverExpiry
  repeat' first
    | with_reducible assumption
    | (intro (s : State) (h : Kept b p i s))
    | (intro _ (s : State) (h : Kept b p i s))
    | (intro (h : Kept b p i _))
    | (intro (s' : State); refine_lift have h : Kept b p i s' := ?_; ?_; clear_value s')
    | lift_lets
    | with_reducible apply keptO_next
    | with_reducible apply kept_ite
    | with_reducible apply keptO_ite
    | with_reducible apply kept_setDomState
    | with_reducible refine kept_foldl ?_ (fun s a h => ?_)
    | (intro x'; clear_value x')
    | intro _
    | dsimp only [s']
    | split

theorem kept_execSlewComplete (a0 : ℕ) (a1 : Bool) (h : Kept b p i s) :
    KeptO b p i (execSlewComplete a0 a1 s) := by
  unfold execSlewComplete
  repeat' first
    | with_reducible assumption
    | (intro (s : State) (h : Kept b p i s))
    | (intro _ (s : State) (h : Kept b p i s))
    | (intro (h : Kept b p i _))
    | (intro (s' : State); refine_lift have h : Kept b p i s' := ?_; ?_; clear_value s')
    | lift_lets
    | with_reducible apply keptO_next
    | with_reducible apply kept_ite
    | with_reducible apply keptO_ite
    | with_reducible apply kept_onTim
    | with_reducible apply kept_onDom
    | with_reducible refine kept_foldl ?_ (fun s a h => ?_)
    | (intro (x : TimBlock) hx; first | (simp only [TimBlock.shape] at hx ⊢; with_reducible exact hx) | (simp only [TimBlock.shape, List.length_mapIdx, List.length_map, upd_length, put_length] at hx ⊢; with_reducible exact hx) | (simp_all [TimBlock.shape]; done) | ((repeat' split) <;> first | exact hx | (simp_all [TimBlock.shape]; done)))
    | (intro x'; clear_value x')
    | intro _
    | dsimp only [s']
    | split

theorem kept_execRtcCalibration (a0 : ℤ) (h : Kept b p i s) :
    KeptO b p i (execRtcCalibration a0 s) := by
  unfold execRtcCalibration
  repeat' first
    | with_reducible assumption
    | (intro (s : State) (h : Kept b p i s))
    | (intro _ (s : State) (h : Kept b p i s))
    | (intro (h : Kept b p i _))
    | (intro (s' : State); refine_lift have h : Kept b p i s' := ?_; ?_; clear_value s')
    | lift_lets
    | with_reducible apply keptO_next
    | with_reducible apply kept_ite
    | with_reducible apply keptO_ite
    | with_reducible apply kept_onTim
    | with_reducible refine kept_foldl ?_ (fun s a h => ?_)
    | (intro (x : TimBlock) hx; first | (simp only [TimBlock.shape] at hx ⊢; with_reducible exact hx) | (simp only [TimBlock.shape, List.length_mapIdx, List.length_map, upd_length, put_length] at hx ⊢; with_reducible exact hx) | (simp_all [TimBlock.shape]; done) | ((repeat' split) <;> first | exact hx | (simp_all [TimBlock.shape]; done)))
    | (intro x'; clear_value x')
    | intro _
    | dsimp only [s']
    | split

theorem kept_timIncWrite (a0 : ℕ) (a1 : ℕ) (h : Kept b p i s) :
    Kept b p i (timIncWrite a0 a1 s) := by
  unfold timIncWrite
  repeat' first
    | with_reducible assumption
    | (intro (s : State) (h : Kept b p i s))
    | (intro _ (s : State) (h : Kept b p i s))
    | (intro (h : Kept b p i _))
    | (intro (s' : State); refine_lift have h : Kept b p i s' := ?_; ?_; clear_value s')
    | lift_lets
    | with_reducible apply keptO_next
    | with_reducible apply kept_ite
    | with_reducible apply kept_onDom
    | with_reducible apply kept_setDomState
    | with_reducible refine kept_foldl ?_ (fun s a h => ?_)
    | (intro x'; clear_value x')
    | intro _
    | dsimp only [s']
    | split

theorem kept_execTimIncWrite (a0 : ℕ) (a1 : Word) (h : Kept b p i s) :
    KeptO b p i (execTimIncWrite a0 a1 s) := by
  unfold execTimIncWrite
  repeat' first
    | with_reducible assumption
    | (intro (s : State) (h : Kept b p i s))
    | (intro _ (s : State) (h : Kept b p i s))
    | (intro (h : Kept b p i _))
    | (intro (s' : State); refine_lift have h : Kept b p i s' := ?_; ?_; clear_value s')
    | lift_lets
    | with_reducible apply keptO_next
    | with_reducible apply kept_ite
    | with_reducible apply keptO_ite
    | with_reducible apply kept_timIncWrite
    | with_reducible refine kept_foldl ?_ (fun s a h => ?_)
    | (intro x'; clear_value x')
    | intro _
    | dsimp only [s']
    | split

theorem kept_timAlarmHiWrite (a0 : ℕ) (h : Kept b p i s) :
    Kept b p i (timAlarmHiWrite a0 s) := by
  unfold timAlarmHiWrite
  repeat' first
    | with_reducible assumption
    | (intro (s : State) (h : Kept b p i s))
    | (intro _ (s : State) (h : Kept b p i s))
    | (intro (h : Kept b p i _))
    | (intro (s' : State); refine_lift have h : Kept b p i s' := ?_; ?_; clear_value s')
    | lift_lets
    | with_reducible apply keptO_next
    | with_reducible apply kept_ite
    | with_reducible apply kept_onTim
    | with_reducible refine kept_foldl ?_ (fun s a h => ?_)
    | (intro (x : TimBlock) hx; first | (simp only [TimBlock.shape] at hx ⊢; with_reducible exact hx) | (simp only [TimBlock.shape, List.length_mapIdx, List.length_map, upd_length, put_length] at hx ⊢; with_reducible exact hx) | (simp_all [TimBlock.shape]; done) | ((repeat' split) <;> first | exact hx | (simp_all [TimBlock.shape]; done)))
    | (intro x'; clear_value x')
    | intro _
    | dsimp only [s']
    | split

theorem kept_execTimAlarmHiWrite (a0 : Word) (h : Kept b p i s) :
    KeptO b p i (execTimAlarmHiWrite a0 s) := by
  unfold execTimAlarmHiWrite
  repeat' first
    | with_reducible assumption
    | (intro (s : State) (h : Kept b p i s))
    | (intro _ (s : State) (h : Kept b p i s))
    | (intro (h : Kept b p i _))
    | (intro (s' : State); refine_lift have h : Kept b p i s' := ?_; ?_; clear_value s')
    | lift_lets
    | with_reducible apply keptO_next
    | with_reducible apply kept_ite
    | with_reducible apply keptO_ite
    | with_reducible apply kept_timAlarmHiWrite
    | with_reducible refine kept_foldl ?_ (fun s a h => ?_)
    | (intro x'; clear_value x')
    | intro _
    | dsimp only [s']
    | split

theorem kept_capturePtp (a0 : Bool) (a1 : ℕ) (a2 : ℕ) (a3 : ℕ) (h : Kept b p i s) :
    Kept b p i (capturePtp a0 a1 a2 a3 s) := by
  unfold capturePtp
  repeat' first
    | with_reducible assumption
    | (intro (s : State) (h : Kept b p i s))
    | (intro _ (s : State) (h : Kept b p i s))
    | (intro (h : Kept b p i _))
    | (intro (s' : State); refine_lift have h : Kept b p i s' := ?_; ?_; clear_value s')
    | lift_lets
    | with_reducible apply keptO_next
    | with_reducible apply kept_ite
    | with_reducible apply kept_onTim
    | with_reducible apply kept_logEv
    | with_reducible refine kept_foldl ?_ (fun s a h => ?_)
    | (intro (x : TimBlock) hx; first | (simp only [TimBlock.shape] at hx ⊢; with_reducible exact hx) | (simp only [TimBlock.shape, List.length_mapIdx, List.length_map, upd_length, put_length] at hx ⊢; with_reducible exact hx) | (simp_all [TimBlock.shape]; done) | ((repeat' split) <;> first | exact hx | (simp_all [TimBlock.shape]; done)))
    | (intro x'; clear_value x')
    | intro _
    | dsimp only [s']
    | split

theorem kept_captureBeacon (a0 : ℕ) (h : Kept b p i s) :
    Kept b p i (captureBeacon a0 s) := by
  unfold captureBeacon
  repeat' first
    | with_reducible assumption
    | (intro (s : State) (h : Kept b p i s))
    | (intro _ (s : State) (h : Kept b p i s))
    | (intro (h : Kept b p i _))
    | (intro (s' : State); refine_lift have h : Kept b p i s' := ?_; ?_; clear_value s')
    | lift_lets
    | with_reducible apply keptO_next
    | with_reducible apply kept_ite
    | with_reducible apply kept_onTim
    | with_reducible refine kept_foldl ?_ (fun s a h => ?_)
    | (intro (x : TimBlock) hx; first | (simp only [TimBlock.shape] at hx ⊢; with_reducible exact hx) | (simp only [TimBlock.shape, List.length_mapIdx, List.length_map, upd_length, put_length] at hx ⊢; with_reducible exact hx) | (simp_all [TimBlock.shape]; done) | ((repeat' split) <;> first | exact hx | (simp_all [TimBlock.shape]; done)))
    | (intro x'; clear_value x')
    | intro _
    | dsimp only [s']
    | split

theorem kept_timPtpfPop  (h : Kept b p i s) :
    Kept b p i (timPtpfPop s) := by
  unfold timPtpfPop
  repeat' first
    | with_reducible assumption
    | (intro (s : State) (h : Kept b p i s))
    | (intro _ (s : State) (h : Kept b p i s))
    | (intro (h : Kept b p i _))
    | (intro (s' : State); refine_lift have h : Kept b p i s' := ?_; ?_; clear_value s')
    | lift_lets
    | with_reducible apply keptO_next
    | with_reducible apply kept_ite
    | with_reducible apply kept_onTim
    | with_reducible refine kept_foldl ?_ (fun s a h => ?_)
    | (intro (x : TimBlock) hx; first | (simp only [TimBlock.shape] at hx ⊢; with_reducible exact hx) | (simp only [TimBlock.shape, List.length_mapIdx, List.length_map, upd_length, put_length] at hx ⊢; with_reducible exact hx) | (simp_all [TimBlock.shape]; done) | ((repeat' split) <;> first | exact hx | (simp_all [TimBlock.shape]; done)))
    | (intro x'; clear_value x')
    | intro _
    | dsimp only [s']
    | split

theorem kept_execTimPtpfPop  (h : Kept b p i s) :
    KeptO b p i (execTimPtpfPop s) := by
  unfold execTimPtpfPop
  repeat' first
    | with_reducible assumption
    | (intro (s : State) (h : Kept b p i s))
    | (intro _ (s : State) (h : Kept b p i s))
    | (intro (h : Kept b p i _))
    | (intro (s' : State); refine_lift have h : Kept b p i s' := ?_; ?_; clear_value s')
    | lift_lets
    | with_reducible apply keptO_next
    | with_reducible apply kept_ite
    | with_reducible apply keptO_ite
    | with_reducible apply kept_timPtpfPop
    | with_reducible refine kept_foldl ?_ (fun s a h => ?_)
    | (intro x'; clear_value x')
    | intro _
    | dsimp only [s']
    | split

theorem kept_execTimNowLoRead (a0 : Side) (h : Kept b p i s) :
    KeptO b p i (execTimNowLoRead a0 s) := by
  unfold execTimNowLoRead
  repeat' first
    | with_reducible assumption
    | (intro (s : State) (h : Kept b p i s))
    | (intro _ (s : State) (h : Kept b p i s))
    | (intro (h : Kept b p i _))
    | (intro (s' : State); refine_lift have h : Kept b p i s' := ?_; ?_; clear_value s')
    | lift_lets
    | with_reducible apply keptO_next
    | with_reducible apply kept_ite
    | with_reducible apply keptO_ite
    | with_reducible apply kept_returns
    | with_reducible apply kept_onTim
    | with_reducible refine kept_foldl ?_ (fun s a h => ?_)
    | (intro (x : TimBlock) hx; first | (simp only [TimBlock.shape] at hx ⊢; with_reducible exact hx) | (simp only [TimBlock.shape, List.length_mapIdx, List.length_map, upd_length, put_length] at hx ⊢; with_reducible exact hx) | (simp_all [TimBlock.shape]; done) | ((repeat' split) <;> first | exact hx | (simp_all [TimBlock.shape]; done)))
    | (intro x'; clear_value x')
    | intro _
    | dsimp only [s']
    | split

theorem kept_execTimDomTsLoRead (a0 : Side) (a1 : ℕ) (h : Kept b p i s) :
    KeptO b p i (execTimDomTsLoRead a0 a1 s) := by
  unfold execTimDomTsLoRead
  repeat' first
    | with_reducible assumption
    | (intro (s : State) (h : Kept b p i s))
    | (intro _ (s : State) (h : Kept b p i s))
    | (intro (h : Kept b p i _))
    | (intro (s' : State); refine_lift have h : Kept b p i s' := ?_; ?_; clear_value s')
    | lift_lets
    | with_reducible apply keptO_next
    | with_reducible apply kept_ite
    | with_reducible apply keptO_ite
    | with_reducible apply kept_returns
    | with_reducible apply kept_onTim
    | with_reducible refine kept_foldl ?_ (fun s a h => ?_)
    | (intro (x : TimBlock) hx; first | (simp only [TimBlock.shape] at hx ⊢; with_reducible exact hx) | (simp only [TimBlock.shape, List.length_mapIdx, List.length_map, upd_length, put_length] at hx ⊢; with_reducible exact hx) | (simp_all [TimBlock.shape]; done) | ((repeat' split) <;> first | exact hx | (simp_all [TimBlock.shape]; done)))
    | (intro x'; clear_value x')
    | intro _
    | dsimp only [s']
    | split

theorem kept_execTimBcnTsLoRead (a0 : Side) (h : Kept b p i s) :
    KeptO b p i (execTimBcnTsLoRead a0 s) := by
  unfold execTimBcnTsLoRead
  repeat' first
    | with_reducible assumption
    | (intro (s : State) (h : Kept b p i s))
    | (intro _ (s : State) (h : Kept b p i s))
    | (intro (h : Kept b p i _))
    | (intro (s' : State); refine_lift have h : Kept b p i s' := ?_; ?_; clear_value s')
    | lift_lets
    | with_reducible apply keptO_next
    | with_reducible apply kept_ite
    | with_reducible apply keptO_ite
    | with_reducible apply kept_returns
    | with_reducible apply kept_onTim
    | with_reducible refine kept_foldl ?_ (fun s a h => ?_)
    | (intro (x : TimBlock) hx; first | (simp only [TimBlock.shape] at hx ⊢; with_reducible exact hx) | (simp only [TimBlock.shape, List.length_mapIdx, List.length_map, upd_length, put_length] at hx ⊢; with_reducible exact hx) | (simp_all [TimBlock.shape]; done) | ((repeat' split) <;> first | exact hx | (simp_all [TimBlock.shape]; done)))
    | (intro x'; clear_value x')
    | intro _
    | dsimp only [s']
    | split

theorem kept_execTimStatusRead (a0 : Side) (h : Kept b p i s) :
    KeptO b p i (execTimStatusRead a0 s) := by
  unfold execTimStatusRead
  repeat' first
    | with_reducible assumption
    | (intro (s : State) (h : Kept b p i s))
    | (intro _ (s : State) (h : Kept b p i s))
    | (intro (h : Kept b p i _))
    | (intro (s' : State); refine_lift have h : Kept b p i s' := ?_; ?_; clear_value s')
    | lift_lets
    | with_reducible apply keptO_next
    | with_reducible apply kept_ite
    | with_reducible apply keptO_ite
    | with_reducible apply kept_returns
    | with_reducible apply kept_onTim
    | with_reducible refine kept_foldl ?_ (fun s a h => ?_)
    | (intro (x : TimBlock) hx; first | (simp only [TimBlock.shape] at hx ⊢; with_reducible exact hx) | (simp only [TimBlock.shape, List.length_mapIdx, List.length_map, upd_length, put_length] at hx ⊢; with_reducible exact hx) | (simp_all [TimBlock.shape]; done) | ((repeat' split) <;> first | exact hx | (simp_all [TimBlock.shape]; done)))
    | (intro x'; clear_value x')
    | intro _
    | dsimp only [s']
    | split

theorem kept_saveRtc  (h : Kept b p i s) :
    Kept b p i (saveRtc s) := by
  unfold saveRtc
  repeat' first
    | with_reducible assumption
    | (intro (s : State) (h : Kept b p i s))
    | (intro _ (s : State) (h : Kept b p i s))
    | (intro (h : Kept b p i _))
    | (intro (s' : State); refine_lift have h : Kept b p i s' := ?_; ?_; clear_value s')
    | lift_lets
    | with_reducible apply keptO_next
    | with_reducible apply kept_ite
    | with_reducible apply kept_onTim
    | with_reducible refine kept_foldl ?_ (fun s a h => ?_)
    | (intro (x : TimBlock) hx; first | (simp only [TimBlock.shape] at hx ⊢; with_reducible exact hx) | (simp only [TimBlock.shape, List.length_mapIdx, List.length_map, upd_length, put_length] at hx ⊢; with_reducible exact hx) | (simp_all [TimBlock.shape]; done) | ((repeat' split) <;> first | exact hx | (simp_all [TimBlock.shape]; done)))
    | (intro x'; clear_value x')
    | intro _
    | dsimp only [s']
    | split

end Sys2Proof.Machine
end

