-- ==== Sys2Proof/Laws/KeptKeystore.lean ====
section
/-! SUPPORT. What the operations of Keystore.lean keep. -/

set_option linter.unusedSimpArgs false
set_option linter.unusedVariables false
set_option linter.unreachableTactic false
set_option linter.unusedTactic false

namespace Sys2Proof.Machine

variable {b : Prop} {p : List Instr} {i : Ident} {s : State}

theorem kept_onSlot (a0 : ℕ) (a1 : KeySlot → KeySlot) (h : Kept b p i s) :
    Kept b p i (onSlot a0 a1 s) := by
  unfold onSlot
  repeat' first
    | with_reducible assumption
    | (intro (s : State) (h : Kept b p i s))
    | (intro _ (s : State) (h : Kept b p i s))
    | (intro (h : Kept b p i _))
    | (intro (s' : State); refine_lift have h : Kept b p i s' := ?_; ?_; clear_value s')
    | lift_lets
    | with_reducible apply keptO_next
    | with_reducible apply kept_ite
    | with_reducible apply kept_onKey
    | with_reducible refine kept_foldl ?_ (fun s a h => ?_)
    | (intro (x : KeyBlock) hx; first | (simp only [KeyBlock.shape] at hx ⊢; with_reducible exact hx) | (simp only [KeyBlock.shape, List.length_mapIdx, List.length_map, upd_length, put_length] at hx ⊢; with_reducible exact hx) | (simp_all [KeyBlock.shape]; done) | ((repeat' split) <;> first | exact hx | (simp_all [KeyBlock.shape]; done)))
    | (intro x'; clear_value x')
    | intro _
    | dsimp only [s']
    | split

theorem kept_keyMisuse (a0 : ℕ) (a1 : ℕ) (a2 : ℕ) (h : Kept b p i s) :
    Kept b p i (keyMisuse a0 a1 a2 s) := by
  unfold keyMisuse
  repeat' first
    | with_reducible assumption
    | (intro (s : State) (h : Kept b p i s))
    | (intro _ (s : State) (h : Kept b p i s))
    | (intro (h : Kept b p i _))
    | (intro (s' : State); refine_lift have h : Kept b p i s' := ?_; ?_; clear_value s')
    | lift_lets
    | with_reducible apply keptO_next
    | with_reducible apply kept_ite
    | with_reducible apply kept_logEv
    | with_reducible apply kept_onKey
    | with_reducible refine kept_foldl ?_ (fun s a h => ?_)
    | (intro (x : KeyBlock) hx; first | (simp only [KeyBlock.shape] at hx ⊢; with_reducible exact hx) | (simp only [KeyBlock.shape, List.length_mapIdx, List.length_map, upd_length, put_length] at hx ⊢; with_reducible exact hx) | (simp_all [KeyBlock.shape]; done) | ((repeat' split) <;> first | exact hx | (simp_all [KeyBlock.shape]; done)))
    | (intro x'; clear_value x')
    | intro _
    | dsimp only [s']
    | split

theorem kept_askKey (a0 : ℕ) (a1 : ℕ) (a2 : ℕ) (a3 : ℕ) (h : Kept b p i s) :
    Kept b p i (askKey a0 a1 a2 a3 s) := by
  unfold askKey
  repeat' first
    | with_reducible assumption
    | (intro (s : State) (h : Kept b p i s))
    | (intro _ (s : State) (h : Kept b p i s))
    | (intro (h : Kept b p i _))
    | (intro (s' : State); refine_lift have h : Kept b p i s' := ?_; ?_; clear_value s')
    | lift_lets
    | with_reducible apply keptO_next
    | with_reducible apply kept_ite
    | with_reducible apply kept_keyMisuse
    | with_reducible refine kept_foldl ?_ (fun s a h => ?_)
    | (intro x'; clear_value x')
    | intro _
    | dsimp only [s']
    | split

end Sys2Proof.Machine
end

