-- ==== Sys2Proof/Laws/KeptTags.lean ====
section
/-! SUPPORT. What the operations of Tags.lean keep. -/

set_option linter.unusedSimpArgs false
set_option linter.unusedVariables false
set_option linter.unreachableTactic false
set_option linter.unusedTactic false

namespace Sys2Proof.Machine

variable {b : Prop} {p : List Instr} {i : Ident} {s : State}

theorem kept_execReducedFieldMeasurement (a0 : ℕ) (h : Kept b p i s) :
    KeptO b p i (execReducedFieldMeasurement a0 s) := by
  unfold execReducedFieldMeasurement
  exact keptO_next (kept_ite (kept_onTag h fun x hx => (show [x.ct.length] = [256] from hx)) h)

theorem kept_takeDetection  (h : Kept b p i s) :
    Kept b p i (takeDetection s) := by
  unfold takeDetection
  repeat' first
    | with_reducible assumption
    | (intro (s : State) (h : Kept b p i s))
    | (intro _ (s : State) (h : Kept b p i s))
    | (intro (h : Kept b p i _))
    | (intro (s' : State); refine_lift have h : Kept b p i s' := ?_; ?_; clear_value s')
    | lift_lets
    | with_reducible apply keptO_next
    | with_reducible apply kept_ite
    | with_reducible apply kept_onTag
    | with_reducible refine kept_foldl ?_ (fun s a h => ?_)
    | (intro (x : TagBlock) hx; first | (simp only [TagBlock.shape] at hx ⊢; with_reducible exact hx) | (simp only [TagBlock.shape, List.length_mapIdx, List.length_map, upd_length, put_length] at hx ⊢; with_reducible exact hx) | (simp_all [TagBlock.shape]; done) | ((repeat' split) <;> first | exact hx | (simp_all [TagBlock.shape]; done)))
    | (intro x'; clear_value x')
    | intro _
    | dsimp only [s']
    | split

theorem kept_mendEntry (a0 : ℕ) (h : Kept b p i s) :
    Kept b p i (mendEntry a0 s) := by
  unfold mendEntry
  repeat' first
    | with_reducible assumption
    | (intro (s : State) (h : Kept b p i s))
    | (intro _ (s : State) (h : Kept b p i s))
    | (intro (h : Kept b p i _))
    | (intro (s' : State); refine_lift have h : Kept b p i s' := ?_; ?_; clear_value s')
    | lift_lets
    | with_reducible apply keptO_next
    | with_reducible apply kept_ite
    | with_reducible apply kept_onTag
    | with_reducible apply kept_logEv
    | with_reducible refine kept_foldl ?_ (fun s a h => ?_)
    | (intro (x : TagBlock) hx; first | (simp only [TagBlock.shape] at hx ⊢; with_reducible exact hx) | (simp only [TagBlock.shape, List.length_mapIdx, List.length_map, upd_length, put_length] at hx ⊢; with_reducible exact hx) | (simp_all [TagBlock.shape]; done) | ((repeat' split) <;> first | exact hx | (simp_all [TagBlock.shape]; done)))
    | (intro x'; clear_value x')
    | intro _
    | dsimp only [s']
    | split

theorem kept_limpHit (a0 : CacheEntry) (h : Kept b p i s) :
    Kept b p i (limpHit a0 s) := by
  unfold limpHit
  repeat' first
    | with_reducible assumption
    | (intro (s : State) (h : Kept b p i s))
    | (intro _ (s : State) (h : Kept b p i s))
    | (intro (h : Kept b p i _))
    | (intro (s' : State); refine_lift have h : Kept b p i s' := ?_; ?_; clear_value s')
    | lift_lets
    | with_reducible apply keptO_next
    | with_reducible apply kept_ite
    | with_reducible apply kept_limpStart
    | with_reducible apply kept_onLink
    | with_reducible apply kept_onTag
    | with_reducible refine kept_foldl ?_ (fun s a h => ?_)
    | (intro (x : TagBlock) hx; first | (simp only [TagBlock.shape] at hx ⊢; with_reducible exact hx) | (simp only [TagBlock.shape, List.length_mapIdx, List.length_map, upd_length, put_length] at hx ⊢; with_reducible exact hx) | (simp_all [TagBlock.shape]; done) | ((repeat' split) <;> first | exact hx | (simp_all [TagBlock.shape]; done)))
    | (intro x'; clear_value x')
    | intro _
    | dsimp only [s']
    | split

theorem kept_pushReport (a0 : Bytes) (h : Kept b p i s) :
    Kept b p i (pushReport a0 s) := by
  unfold pushReport
  repeat' first
    | with_reducible assumption
    | (intro (s : State) (h : Kept b p i s))
    | (intro _ (s : State) (h : Kept b p i s))
    | (intro (h : Kept b p i _))
    | (intro (s' : State); refine_lift have h : Kept b p i s' := ?_; ?_; clear_value s')
    | lift_lets
    | with_reducible apply keptO_next
    | with_reducible apply kept_ite
    | with_reducible apply kept_onTag
    | with_reducible apply kept_logEv
    | with_reducible refine kept_foldl ?_ (fun s a h => ?_)
    | (intro (x : TagBlock) hx; first | (simp only [TagBlock.shape] at hx ⊢; with_reducible exact hx) | (simp only [TagBlock.shape, List.length_mapIdx, List.length_map, upd_length, put_length] at hx ⊢; with_reducible exact hx) | (simp_all [TagBlock.shape]; done) | ((repeat' split) <;> first | exact hx | (simp_all [TagBlock.shape]; done)))
    | (intro x'; clear_value x')
    | intro _
    | dsimp only [s']
    | split

theorem kept_seen (a0 : TagFound) (h : Kept b p i s) :
    Kept b p i (seen a0 s) := by
  unfold seen
  repeat' first
    | with_reducible assumption
    | (intro (s : State) (h : Kept b p i s))
    | (intro _ (s : State) (h : Kept b p i s))
    | (intro (h : Kept b p i _))
    | (intro (s' : State); refine_lift have h : Kept b p i s' := ?_; ?_; clear_value s')
    | lift_lets
    | with_reducible apply keptO_next
    | with_reducible apply kept_ite
    | with_reducible apply kept_onTag
    | with_reducible refine kept_foldl ?_ (fun s a h => ?_)
    | (intro (x : TagBlock) hx; first | (simp only [TagBlock.shape] at hx ⊢; with_reducible exact hx) | (simp only [TagBlock.shape, List.length_mapIdx, List.length_map, upd_length, put_length] at hx ⊢; with_reducible exact hx) | (simp_all [TagBlock.shape]; done) | ((repeat' split) <;> first | exact hx | (simp_all [TagBlock.shape]; done)))
    | (intro x'; clear_value x')
    | intro _
    | dsimp only [s']
    | split

theorem kept_missTags (a0 : List TagFound) (h : Kept b p i s) :
    Kept b p i (missTags a0 s) := by
  unfold missTags
  repeat' first
    | with_reducible assumption
    | (intro (s : State) (h : Kept b p i s))
    | (intro _ (s : State) (h : Kept b p i s))
    | (intro (h : Kept b p i _))
    | (intro (s' : State); refine_lift have h : Kept b p i s' := ?_; ?_; clear_value s')
    | lift_lets
    | with_reducible apply keptO_next
    | with_reducible apply kept_ite
    | with_reducible apply kept_onTag
    | with_reducible refine kept_foldl ?_ (fun s a h => ?_)
    | (intro (x : TagBlock) hx; first | (simp only [TagBlock.shape] at hx ⊢; with_reducible exact hx) | (simp only [TagBlock.shape, List.length_mapIdx, List.length_map, upd_length, put_length] at hx ⊢; with_reducible exact hx) | (simp_all [TagBlock.shape]; done) | ((repeat' split) <;> first | exact hx | (simp_all [TagBlock.shape]; done)))
    | (intro x'; clear_value x')
    | intro _
    | dsimp only [s']
    | split

theorem kept_serveTag (a1 : TagFound) (h : Kept b p i s) :
    Kept b p i (serveTag s a1) := by
  unfold serveTag
  repeat' first
    | with_reducible assumption
    | (intro (s : State) (h : Kept b p i s))
    | (intro _ (s : State) (h : Kept b p i s))
    | (intro (h : Kept b p i _))
    | (intro (s' : State); refine_lift have h : Kept b p i s' := ?_; ?_; clear_value s')
    | lift_lets
    | with_reducible apply keptO_next
    | with_reducible apply kept_ite
    | with_reducible apply kept_seen
    | with_reducible apply kept_mendEntry
    | with_reducible apply kept_logEv
    | with_reducible apply kept_pushReport
    | with_reducible apply kept_onTag
    | with_reducible apply kept_limpHit
    | with_reducible refine kept_foldl ?_ (fun s a h => ?_)
    | (intro (x : TagBlock) hx; first | (simp only [TagBlock.shape] at hx ⊢; with_reducible exact hx) | (simp only [TagBlock.shape, List.length_mapIdx, List.length_map, upd_length, put_length] at hx ⊢; with_reducible exact hx) | (simp_all [TagBlock.shape]; done) | ((repeat' split) <;> first | exact hx | (simp_all [TagBlock.shape]; done)))
    | (intro x'; clear_value x')
    | intro _
    | dsimp only [s']
    | split

theorem kept_fullPoll (a0 : PollInput) (h : Kept b p i s) :
    Kept b p i (fullPoll a0 s) := by
  unfold fullPoll
  repeat' first
    | with_reducible assumption
    | (intro (s : State) (h : Kept b p i s))
    | (intro _ (s : State) (h : Kept b p i s))
    | (intro (h : Kept b p i _))
    | (intro (s' : State); refine_lift have h : Kept b p i s' := ?_; ?_; clear_value s')
    | lift_lets
    | with_reducible apply keptO_next
    | with_reducible apply kept_ite
    | with_reducible apply kept_onTag
    | with_reducible apply kept_missTags
    | with_reducible apply kept_serveTag
    | with_reducible refine kept_foldl ?_ (fun s a h => ?_)
    | (intro (x : TagBlock) hx; first | (simp only [TagBlock.shape] at hx ⊢; with_reducible exact hx) | (simp only [TagBlock.shape, List.length_mapIdx, List.length_map, upd_length, put_length] at hx ⊢; with_reducible exact hx) | (simp_all [TagBlock.shape]; done) | ((repeat' split) <;> first | exact hx | (simp_all [TagBlock.shape]; done)))
    | (intro x'; clear_value x')
    | intro _
    | dsimp only [s']
    | split

theorem kept_releaseTag  (h : Kept b p i s) :
    Kept b p i (releaseTag s) := by
  unfold releaseTag
  repeat' first
    | with_reducible assumption
    | (intro (s : State) (h : Kept b p i s))
    | (intro _ (s : State) (h : Kept b p i s))
    | (intro (h : Kept b p i _))
    | (intro (s' : State); refine_lift have h : Kept b p i s' := ?_; ?_; clear_value s')
    | lift_lets
    | with_reducible apply keptO_next
    | with_reducible apply kept_ite
    | with_reducible apply kept_onTag
    | with_reducible refine kept_foldl ?_ (fun s a h => ?_)
    | (intro (x : TagBlock) hx; first | (simp only [TagBlock.shape] at hx ⊢; with_reducible exact hx) | (simp only [TagBlock.shape, List.length_mapIdx, List.length_map, upd_length, put_length] at hx ⊢; with_reducible exact hx) | (simp_all [TagBlock.shape]; done) | ((repeat' split) <;> first | exact hx | (simp_all [TagBlock.shape]; done)))
    | (intro x'; clear_value x')
    | intro _
    | dsimp only [s']
    | split

theorem kept_execTagHoldExpiry  (h : Kept b p i s) :
    KeptO b p i (execTagHoldExpiry s) := by
  unfold execTagHoldExpiry
  repeat' first
    | with_reducible assumption
    | (intro (s : State) (h : Kept b p i s))
    | (intro _ (s : State) (h : Kept b p i s))
    | (intro (h : Kept b p i _))
    | (intro (s' : State); refine_lift have h : Kept b p i s' := ?_; ?_; clear_value s')
    | lift_lets
    | with_reducible apply keptO_next
    | with_reducible apply kept_ite
    | with_reducible apply keptO_ite
    | with_reducible apply kept_releaseTag
    | with_reducible refine kept_foldl ?_ (fun s a h => ?_)
    | (intro x'; clear_value x')
    | intro _
    | dsimp only [s']
    | split

theorem kept_execLimpHitExpiry  (h : Kept b p i s) :
    KeptO b p i (execLimpHitExpiry s) := by
  unfold execLimpHitExpiry
  repeat' first
    | with_reducible assumption
    | (intro (s : State) (h : Kept b p i s))
    | (intro _ (s : State) (h : Kept b p i s))
    | (intro (h : Kept b p i _))
    | (intro (s' : State); refine_lift have h : Kept b p i s' := ?_; ?_; clear_value s')
    | lift_lets
    | with_reducible apply keptO_next
    | with_reducible apply kept_ite
    | with_reducible apply keptO_ite
    | with_reducible apply kept_onTag
    | with_reducible refine kept_foldl ?_ (fun s a h => ?_)
    | (intro (x : TagBlock) hx; first | (simp only [TagBlock.shape] at hx ⊢; with_reducible exact hx) | (simp only [TagBlock.shape, List.length_mapIdx, List.length_map, upd_length, put_length] at hx ⊢; with_reducible exact hx) | (simp_all [TagBlock.shape]; done) | ((repeat' split) <;> first | exact hx | (simp_all [TagBlock.shape]; done)))
    | (intro x'; clear_value x')
    | intro _
    | dsimp only [s']
    | split

theorem kept_exchange (a0 : Req) (a1 : ℕ) (a2 : List XferTry) (h : Kept b p i s) : Kept b p i (exchange a0 a1 a2 s) := by
  have hc : ∀ (s : State) (f : TagBlock → TagBlock), (∀ x : TagBlock, x.shape = [256] → (f x).shape = [256]) → Kept b p i s →
      Kept b p i (onTag f s) := fun s f hf hs => kept_onTag hs hf
  induction a2 generalizing a1 s with
  | nil => exact kept_postSts _ _ (kept_releaseTag (hc _ _ (fun _ hx => hx) h))
  | cons t l ih =>
    cases t with
    | answer x => exact kept_ite (kept_post _ _ _ _ h) (kept_postSts _ _ (kept_releaseTag (hc _ _ (fun _ hx => hx) h)))
    | bad =>
      have hs := hc s (fun b => { b with rxErr := satInc 8 b.rxErr }) (fun _ hx => hx) h
      exact kept_ite (kept_postSts _ _ (kept_releaseTag hs)) (ih _ hs)
    | silent =>
      have hs := hc s (fun b => { b with timeouts := satInc 8 b.timeouts }) (fun _ hx => hx) h
      exact kept_ite (kept_postSts _ _ (kept_releaseTag hs)) (ih _ hs)

theorem kept_execTagXfer (a0 : Req) (a1 : Bytes) (a2 : List XferTry) (h : Kept b p i s) :
    KeptO b p i (execTagXfer a0 a1 a2 s) := by
  unfold execTagXfer
  repeat' first
    | with_reducible assumption
    | (intro (s : State) (h : Kept b p i s))
    | (intro _ (s : State) (h : Kept b p i s))
    | (intro (h : Kept b p i _))
    | (intro (s' : State); refine_lift have h : Kept b p i s' := ?_; ?_; clear_value s')
    | lift_lets
    | with_reducible apply keptO_next
    | with_reducible apply kept_ite
    | with_reducible apply keptO_ite
    | with_reducible apply kept_guarded
    | with_reducible apply kept_exchange
    | with_reducible refine kept_foldl ?_ (fun s a h => ?_)
    | (intro x'; clear_value x')
    | intro _
    | dsimp only [s']
    | split

theorem kept_execTagRelease (a0 : Req) (h : Kept b p i s) :
    KeptO b p i (execTagRelease a0 s) := by
  unfold execTagRelease
  repeat' first
    | with_reducible assumption
    | (intro (s : State) (h : Kept b p i s))
    | (intro _ (s : State) (h : Kept b p i s))
    | (intro (h : Kept b p i _))
    | (intro (s' : State); refine_lift have h : Kept b p i s' := ?_; ?_; clear_value s')
    | lift_lets
    | with_reducible apply keptO_next
    | with_reducible apply kept_ite
    | with_reducible apply keptO_ite
    | with_reducible apply kept_guarded
    | with_reducible apply kept_postSts
    | with_reducible apply kept_releaseTag
    | with_reducible refine kept_foldl ?_ (fun s a h => ?_)
    | (intro x'; clear_value x')
    | intro _
    | dsimp only [s']
    | split

theorem kept_putEntries (a0 : List Bytes) (a1 : ℕ) (h : Kept b p i s) :
    Kept b p i ((putEntries a0 a1 s)).1 := by
  induction a0 generalizing a1 s with
  | nil => exact h
  | cons x l ih =>
  simp only [putEntries]
  repeat' first
    | with_reducible assumption
    | (intro (s : State) (h : Kept b p i s))
    | (intro _ (s : State) (h : Kept b p i s))
    | (intro (h : Kept b p i _))
    | (exact h)
    | (intro (s' : State); refine_lift have h : Kept b p i s' := ?_; ?_; clear_value s')
    | lift_lets
    | with_reducible apply keptO_next
    | with_reducible apply kept_ite
    | with_reducible apply kept_onTag
    | with_reducible apply ih
    | with_reducible refine kept_foldl ?_ (fun s a h => ?_)
    | (intro (x : TagBlock) hx; first | (simp only [TagBlock.shape] at hx ⊢; with_reducible exact hx) | (simp only [TagBlock.shape, List.length_mapIdx, List.length_map, upd_length, put_length] at hx ⊢; with_reducible exact hx) | (simp_all [TagBlock.shape]; done) | ((repeat' split) <;> first | exact hx | (simp_all [TagBlock.shape]; done)))
    | (intro x'; clear_value x')
    | intro _
    | dsimp only [s']
    | split

theorem kept_execTagCachePut (a0 : Req) (a1 : List Bytes) (h : Kept b p i s) :
    KeptO b p i (execTagCachePut a0 a1 s) := by
  unfold execTagCachePut
  repeat' first
    | with_reducible assumption
    | (intro (s : State) (h : Kept b p i s))
    | (intro _ (s : State) (h : Kept b p i s))
    | (intro (h : Kept b p i _))
    | (intro (s' : State); refine_lift have h : Kept b p i s' := ?_; ?_; clear_value s')
    | lift_lets
    | with_reducible apply keptO_next
    | with_reducible apply kept_ite
    | with_reducible apply keptO_ite
    | with_reducible apply kept_guarded
    | with_reducible apply kept_putEntries
    | with_reducible apply kept_post
    | with_reducible refine kept_foldl ?_ (fun s a h => ?_)
    | (intro x'; clear_value x')
    | intro _
    | dsimp only [s']
    | split

theorem kept_execTagCacheDel (a0 : Req) (a1 : ℕ) (h : Kept b p i s) :
    KeptO b p i (execTagCacheDel a0 a1 s) := by
  unfold execTagCacheDel
  repeat' first
    | with_reducible assumption
    | (intro (s : State) (h : Kept b p i s))
    | (intro _ (s : State) (h : Kept b p i s))
    | (intro (h : Kept b p i _))
    | (intro (s' : State); refine_lift have h : Kept b p i s' := ?_; ?_; clear_value s')
    | lift_lets
    | with_reducible apply keptO_next
    | with_reducible apply kept_ite
    | with_reducible apply keptO_ite
    | with_reducible apply kept_guarded
    | with_reducible apply kept_postSts
    | with_reducible apply kept_onTag
    | with_reducible refine kept_foldl ?_ (fun s a h => ?_)
    | (intro (x : TagBlock) hx; first | (simp only [TagBlock.shape] at hx ⊢; with_reducible exact hx) | (simp only [TagBlock.shape, List.length_mapIdx, List.length_map, upd_length, put_length] at hx ⊢; with_reducible exact hx) | (simp_all [TagBlock.shape]; done) | ((repeat' split) <;> first | exact hx | (simp_all [TagBlock.shape]; done)))
    | (intro x'; clear_value x')
    | intro _
    | dsimp only [s']
    | split

theorem kept_execTagCacheGet (a0 : Req) (a1 : ℕ) (h : Kept b p i s) :
    KeptO b p i (execTagCacheGet a0 a1 s) := by
  unfold execTagCacheGet
  repeat' first
    | with_reducible assumption
    | (intro (s : State) (h : Kept b p i s))
    | (intro _ (s : State) (h : Kept b p i s))
    | (intro (h : Kept b p i _))
    | (intro (s' : State); refine_lift have h : Kept b p i s' := ?_; ?_; clear_value s')
    | lift_lets
    | with_reducible apply keptO_next
    | with_reducible apply kept_ite
    | with_reducible apply keptO_ite
    | with_reducible apply kept_guarded
    | with_reducible apply kept_post
    | with_reducible refine kept_foldl ?_ (fun s a h => ?_)
    | (intro x'; clear_value x')
    | intro _
    | dsimp only [s']
    | split

theorem kept_execTagCacheClear (a0 : Req) (h : Kept b p i s) :
    KeptO b p i (execTagCacheClear a0 s) := by
  unfold execTagCacheClear
  repeat' first
    | with_reducible assumption
    | (intro (s : State) (h : Kept b p i s))
    | (intro _ (s : State) (h : Kept b p i s))
    | (intro (h : Kept b p i _))
    | (intro (s' : State); refine_lift have h : Kept b p i s' := ?_; ?_; clear_value s')
    | lift_lets
    | with_reducible apply keptO_next
    | with_reducible apply kept_ite
    | with_reducible apply keptO_ite
    | with_reducible apply kept_guarded
    | with_reducible apply kept_postSts
    | with_reducible apply kept_onTag
    | with_reducible refine kept_foldl ?_ (fun s a h => ?_)
    | (intro (x : TagBlock) hx; first | (simp only [TagBlock.shape] at hx ⊢; with_reducible exact hx) | (simp only [TagBlock.shape, List.length_mapIdx, List.length_map, upd_length, put_length] at hx ⊢; with_reducible exact hx) | (simp_all [TagBlock.shape]; done) | ((repeat' split) <;> first | exact hx | (simp_all [TagBlock.shape]; done)))
    | (intro x'; clear_value x')
    | intro _
    | dsimp only [s']
    | split

theorem kept_execCacheMirror  (h : Kept b p i s) :
    KeptO b p i (execCacheMirror s) := by
  unfold execCacheMirror
  repeat' first
    | with_reducible assumption
    | (intro (s : State) (h : Kept b p i s))
    | (intro _ (s : State) (h : Kept b p i s))
    | (intro (h : Kept b p i _))
    | (intro (s' : State); refine_lift have h : Kept b p i s' := ?_; ?_; clear_value s')
    | lift_lets
    | with_reducible apply keptO_next
    | with_reducible apply kept_ite
    | with_reducible apply keptO_ite
    | with_reducible apply kept_onTag
    | with_reducible refine kept_foldl ?_ (fun s a h => ?_)
    | (intro (x : TagBlock) hx; first | (simp only [TagBlock.shape] at hx ⊢; with_reducible exact hx) | (simp only [TagBlock.shape, List.length_mapIdx, List.length_map, upd_length, put_length] at hx ⊢; with_reducible exact hx) | (simp_all [TagBlock.shape]; done) | ((repeat' split) <;> first | exact hx | (simp_all [TagBlock.shape]; done)))
    | (intro x'; clear_value x')
    | intro _
    | dsimp only [s']
    | split

theorem kept_execCacheLoaded  (h : Kept b p i s) :
    KeptO b p i (execCacheLoaded s) := by
  unfold execCacheLoaded
  repeat' first
    | with_reducible assumption
    | (intro (s : State) (h : Kept b p i s))
    | (intro _ (s : State) (h : Kept b p i s))
    | (intro (h : Kept b p i _))
    | (intro (s' : State); refine_lift have h : Kept b p i s' := ?_; ?_; clear_value s')
    | lift_lets
    | with_reducible apply keptO_next
    | with_reducible apply kept_ite
    | with_reducible apply keptO_ite
    | with_reducible apply kept_onTag
    | with_reducible refine kept_foldl ?_ (fun s a h => ?_)
    | (intro (x : TagBlock) hx; first | (simp only [TagBlock.shape] at hx ⊢; with_reducible exact hx) | (simp only [TagBlock.shape, List.length_mapIdx, List.length_map, upd_length, put_length] at hx ⊢; with_reducible exact hx) | (simp_all [TagBlock.shape]; done) | ((repeat' split) <;> first | exact hx | (simp_all [TagBlock.shape]; done)))
    | (intro x'; clear_value x')
    | intro _
    | dsimp only [s']
    | split

theorem kept_wipeCache  (h : Kept b p i s) :
    Kept b p i (wipeCache s) := by
  unfold wipeCache
  repeat' first
    | with_reducible assumption
    | (intro (s : State) (h : Kept b p i s))
    | (intro _ (s : State) (h : Kept b p i s))
    | (intro (h : Kept b p i _))
    | (intro (s' : State); refine_lift have h : Kept b p i s' := ?_; ?_; clear_value s')
    | lift_lets
    | with_reducible apply keptO_next
    | with_reducible apply kept_ite
    | with_reducible apply kept_onTag
    | with_reducible refine kept_foldl ?_ (fun s a h => ?_)
    | (intro (x : TagBlock) hx; first | (simp only [TagBlock.shape] at hx ⊢; with_reducible exact hx) | (simp only [TagBlock.shape, List.length_mapIdx, List.length_map, upd_length, put_length] at hx ⊢; with_reducible exact hx) | (simp_all [TagBlock.shape]; done) | ((repeat' split) <;> first | exact hx | (simp_all [TagBlock.shape]; done)))
    | (intro x'; clear_value x')
    | intro _
    | dsimp only [s']
    | split

theorem kept_rptPop  (h : Kept b p i s) :
    Kept b p i (rptPop s) := by
  unfold rptPop
  repeat' first
    | with_reducible assumption
    | (intro (s : State) (h : Kept b p i s))
    | (intro _ (s : State) (h : Kept b p i s))
    | (intro (h : Kept b p i _))
    | (intro (s' : State); refine_lift have h : Kept b p i s' := ?_; ?_; clear_value s')
    | lift_lets
    | with_reducible apply keptO_next
    | with_reducible apply kept_ite
    | with_reducible apply kept_onTag
    | with_reducible refine kept_foldl ?_ (fun s a h => ?_)
    | (intro (x : TagBlock) hx; first | (simp only [TagBlock.shape] at hx ⊢; with_reducible exact hx) | (simp only [TagBlock.shape, List.length_mapIdx, List.length_map, upd_length, put_length] at hx ⊢; with_reducible exact hx) | (simp_all [TagBlock.shape]; done) | ((repeat' split) <;> first | exact hx | (simp_all [TagBlock.shape]; done)))
    | (intro x'; clear_value x')
    | intro _
    | dsimp only [s']
    | split

theorem kept_execTagRptPop  (h : Kept b p i s) :
    KeptO b p i (execTagRptPop s) := by
  unfold execTagRptPop
  repeat' first
    | with_reducible assumption
    | (intro (s : State) (h : Kept b p i s))
    | (intro _ (s : State) (h : Kept b p i s))
    | (intro (h : Kept b p i _))
    | (intro (s' : State); refine_lift have h : Kept b p i s' := ?_; ?_; clear_value s')
    | lift_lets
    | with_reducible apply keptO_next
    | with_reducible apply kept_ite
    | with_reducible apply keptO_ite
    | with_reducible apply kept_rptPop
    | with_reducible refine kept_foldl ?_ (fun s a h => ?_)
    | (intro x'; clear_value x')
    | intro _
    | dsimp only [s']
    | split

theorem kept_execTagStatusRead (a0 : Side) (h : Kept b p i s) :
    KeptO b p i (execTagStatusRead a0 s) := by
  unfold execTagStatusRead
  repeat' first
    | with_reducible assumption
    | (intro (s : State) (h : Kept b p i s))
    | (intro _ (s : State) (h : Kept b p i s))
    | (intro (h : Kept b p i _))
    | (intro (s' : State); refine_lift have h : Kept b p i s' := ?_; ?_; clear_value s')
    | lift_lets
    | with_reducible apply keptO_next
    | with_reducible apply kept_ite
    | with_reducible apply keptO_ite
    | with_reducible apply kept_returns
    | with_reducible apply kept_onTag
    | with_reducible refine kept_foldl ?_ (fun s a h => ?_)
    | (intro (x : TagBlock) hx; first | (simp only [TagBlock.shape] at hx ⊢; with_reducible exact hx) | (simp only [TagBlock.shape, List.length_mapIdx, List.length_map, upd_length, put_length] at hx ⊢; with_reducible exact hx) | (simp_all [TagBlock.shape]; done) | ((repeat' split) <;> first | exact hx | (simp_all [TagBlock.shape]; done)))
    | (intro x'; clear_value x')
    | intro _
    | dsimp only [s']
    | split

theorem kept_tagCtlWrite (a0 : ℕ) (h : Kept b p i s) :
    Kept b p i (tagCtlWrite a0 s) := by
  unfold tagCtlWrite
  repeat' first
    | with_reducible assumption
    | (intro (s : State) (h : Kept b p i s))
    | (intro _ (s : State) (h : Kept b p i s))
    | (intro (h : Kept b p i _))
    | (intro (s' : State); refine_lift have h : Kept b p i s' := ?_; ?_; clear_value s')
    | lift_lets
    | with_reducible apply keptO_next
    | with_reducible apply kept_ite
    | with_reducible apply kept_onTag
    | with_reducible refine kept_foldl ?_ (fun s a h => ?_)
    | (intro (x : TagBlock) hx; first | (simp only [TagBlock.shape] at hx ⊢; with_reducible exact hx) | (simp only [TagBlock.shape, List.length_mapIdx, List.length_map, upd_length, put_length] at hx ⊢; with_reducible exact hx) | (simp_all [TagBlock.shape]; done) | ((repeat' split) <;> first | exact hx | (simp_all [TagBlock.shape]; done)))
    | (intro x'; clear_value x')
    | intro _
    | dsimp only [s']
    | split

theorem kept_putBlock (a0 : ℕ) (a1 : Bytes) (a2 : Bool) (h : Kept b p i s) :
    Kept b p i (putBlock a0 a1 a2 s) := by
  unfold putBlock
  repeat' first
    | with_reducible assumption
    | (intro (s : State) (h : Kept b p i s))
    | (intro _ (s : State) (h : Kept b p i s))
    | (intro (h : Kept b p i _))
    | (intro (s' : State); refine_lift have h : Kept b p i s' := ?_; ?_; clear_value s')
    | lift_lets
    | with_reducible apply keptO_next
    | with_reducible apply kept_ite
    | with_reducible apply kept_onTag
    | with_reducible refine kept_foldl ?_ (fun s a h => ?_)
    | (intro (x : TagBlock) hx; first | (simp only [TagBlock.shape] at hx ⊢; with_reducible exact hx) | (simp only [TagBlock.shape, List.length_mapIdx, List.length_map, upd_length, put_length] at hx ⊢; with_reducible exact hx) | (simp_all [TagBlock.shape]; done) | ((repeat' split) <;> first | exact hx | (simp_all [TagBlock.shape]; done)))
    | (intro x'; clear_value x')
    | intro _
    | dsimp only [s']
    | split

theorem kept_ctPublishInfo  (h : Kept b p i s) :
    Kept b p i (ctPublishInfo s) := by
  unfold ctPublishInfo
  repeat' first
    | with_reducible assumption
    | (intro (s : State) (h : Kept b p i s))
    | (intro _ (s : State) (h : Kept b p i s))
    | (intro (h : Kept b p i _))
    | (intro (s' : State); refine_lift have h : Kept b p i s' := ?_; ?_; clear_value s')
    | lift_lets
    | with_reducible apply keptO_next
    | with_reducible apply kept_ite
    | with_reducible apply kept_putBlock
    | with_reducible refine kept_foldl ?_ (fun s a h => ?_)
    | (intro x'; clear_value x')
    | intro _
    | dsimp only [s']
    | split

theorem kept_ctRefresh  (h : Kept b p i s) :
    Kept b p i (ctRefresh s) := by
  unfold ctRefresh
  repeat' first
    | with_reducible assumption
    | (intro (s : State) (h : Kept b p i s))
    | (intro _ (s : State) (h : Kept b p i s))
    | (intro (h : Kept b p i _))
    | (intro (s' : State); refine_lift have h : Kept b p i s' := ?_; ?_; clear_value s')
    | lift_lets
    | with_reducible apply keptO_next
    | with_reducible apply kept_ite
    | with_reducible apply kept_ctPublishInfo
    | with_reducible apply kept_onTag
    | with_reducible refine kept_foldl ?_ (fun s a h => ?_)
    | (intro (x : TagBlock) hx; first | (simp only [TagBlock.shape] at hx ⊢; with_reducible exact hx) | (simp only [TagBlock.shape, List.length_mapIdx, List.length_map, upd_length, put_length] at hx ⊢; with_reducible exact hx) | (simp_all [TagBlock.shape]; done) | ((repeat' split) <;> first | exact hx | (simp_all [TagBlock.shape]; done)))
    | (intro x'; clear_value x')
    | intro _
    | dsimp only [s']
    | split

theorem kept_execTagCtSecure (a0 : Req) (h : Kept b p i s) :
    KeptO b p i (execTagCtSecure a0 s) := by
  unfold execTagCtSecure
  repeat' first
    | with_reducible assumption
    | (intro (s : State) (h : Kept b p i s))
    | (intro _ (s : State) (h : Kept b p i s))
    | (intro (h : Kept b p i _))
    | (intro (s' : State); refine_lift have h : Kept b p i s' := ?_; ?_; clear_value s')
    | lift_lets
    | with_reducible apply keptO_next
    | with_reducible apply kept_ite
    | with_reducible apply keptO_ite
    | with_reducible apply kept_guarded
    | with_reducible apply kept_postSts
    | with_reducible apply kept_ctRefresh
    | with_reducible apply kept_onTag
    | with_reducible refine kept_foldl ?_ (fun s a h => ?_)
    | (intro (x : TagBlock) hx; first | (simp only [TagBlock.shape] at hx ⊢; with_reducible exact hx) | (simp only [TagBlock.shape, List.length_mapIdx, List.length_map, upd_length, put_length] at hx ⊢; with_reducible exact hx) | (simp_all [TagBlock.shape]; done) | ((repeat' split) <;> first | exact hx | (simp_all [TagBlock.shape]; done)))
    | (intro x'; clear_value x')
    | intro _
    | dsimp only [s']
    | split

theorem kept_execTagCtOpen (a0 : Req) (h : Kept b p i s) :
    KeptO b p i (execTagCtOpen a0 s) := by
  unfold execTagCtOpen
  repeat' first
    | with_reducible assumption
    | (intro (s : State) (h : Kept b p i s))
    | (intro _ (s : State) (h : Kept b p i s))
    | (intro (h : Kept b p i _))
    | (intro (s' : State); refine_lift have h : Kept b p i s' := ?_; ?_; clear_value s')
    | lift_lets
    | with_reducible apply keptO_next
    | with_reducible apply kept_ite
    | with_reducible apply keptO_ite
    | with_reducible apply kept_guarded
    | with_reducible apply kept_postSts
    | with_reducible apply kept_ctRefresh
    | with_reducible apply kept_onTag
    | with_reducible refine kept_foldl ?_ (fun s a h => ?_)
    | (intro (x : TagBlock) hx; first | (simp only [TagBlock.shape] at hx ⊢; with_reducible exact hx) | (simp only [TagBlock.shape, List.length_mapIdx, List.length_map, upd_length, put_length] at hx ⊢; with_reducible exact hx) | (simp_all [TagBlock.shape]; done) | ((repeat' split) <;> first | exact hx | (simp_all [TagBlock.shape]; done)))
    | (intro x'; clear_value x')
    | intro _
    | dsimp only [s']
    | split

theorem kept_execTagCtPublish (a0 : Req) (a1 : Bytes) (h : Kept b p i s) :
    KeptO b p i (execTagCtPublish a0 a1 s) := by
  unfold execTagCtPublish
  repeat' first
    | with_reducible assumption
    | (intro (s : State) (h : Kept b p i s))
    | (intro _ (s : State) (h : Kept b p i s))
    | (intro (h : Kept b p i _))
    | (intro (s' : State); refine_lift have h : Kept b p i s' := ?_; ?_; clear_value s')
    | lift_lets
    | with_reducible apply keptO_next
    | with_reducible apply kept_ite
    | with_reducible apply keptO_ite
    | with_reducible apply kept_guarded
    | with_reducible apply kept_postSts
    | with_reducible apply kept_putBlock
    | with_reducible refine kept_foldl ?_ (fun s a h => ?_)
    | (intro x'; clear_value x')
    | intro _
    | dsimp only [s']
    | split

theorem kept_ctReject (a0 : EvClass) (a1 : ℕ) (a2 : ℕ) (h : Kept b p i s) :
    Kept b p i (ctReject a0 a1 a2 s) := by
  unfold ctReject
  repeat' first
    | with_reducible assumption
    | (intro (s : State) (h : Kept b p i s))
    | (intro _ (s : State) (h : Kept b p i s))
    | (intro (h : Kept b p i _))
    | (intro (s' : State); refine_lift have h : Kept b p i s' := ?_; ?_; clear_value s')
    | lift_lets
    | with_reducible apply keptO_next
    | with_reducible apply kept_ite
    | with_reducible apply kept_logEv
    | with_reducible refine kept_foldl ?_ (fun s a h => ?_)
    | (intro x'; clear_value x')
    | intro _
    | dsimp only [s']
    | split

theorem kept_execTagCtAdopt (a0 : Req) (h : Kept b p i s) :
    KeptO b p i (execTagCtAdopt a0 s) := by
  unfold execTagCtAdopt
  repeat' first
    | with_reducible assumption
    | (intro (s : State) (h : Kept b p i s))
    | (intro _ (s : State) (h : Kept b p i s))
    | (intro (h : Kept b p i _))
    | (intro (s' : State); refine_lift have h : Kept b p i s' := ?_; ?_; clear_value s')
    | lift_lets
    | with_reducible apply keptO_next
    | with_reducible apply kept_ite
    | with_reducible apply keptO_ite
    | with_reducible apply kept_postSts
    | with_reducible apply kept_ctReject
    | with_reducible apply kept_onTag
    | with_reducible apply kept_logEv
    | with_reducible apply kept_ctPublishInfo
    | with_reducible refine kept_foldl ?_ (fun s a h => ?_)
    | (intro (x : TagBlock) hx; first | (simp only [TagBlock.shape] at hx ⊢; with_reducible exact hx) | (simp only [TagBlock.shape, List.length_mapIdx, List.length_map, upd_length, put_length] at hx ⊢; with_reducible exact hx) | (simp_all [TagBlock.shape]; done) | ((repeat' split) <;> first | exact hx | (simp_all [TagBlock.shape]; done)))
    | (intro x'; clear_value x')
    | intro _
    | dsimp only [s']
    | split

theorem kept_ctError (a0 : ℕ) (h : Kept b p i s) :
    Kept b p i (ctError a0 s) := by
  unfold ctError
  repeat' first
    | with_reducible assumption
    | (intro (s : State) (h : Kept b p i s))
    | (intro _ (s : State) (h : Kept b p i s))
    | (intro (h : Kept b p i _))
    | (intro (s' : State); refine_lift have h : Kept b p i s' := ?_; ?_; clear_value s')
    | lift_lets
    | with_reducible apply keptO_next
    | with_reducible apply kept_ite
    | with_reducible apply kept_onTag
    | with_reducible refine kept_foldl ?_ (fun s a h => ?_)
    | (intro (x : TagBlock) hx; first | (simp only [TagBlock.shape] at hx ⊢; with_reducible exact hx) | (simp only [TagBlock.shape, List.length_mapIdx, List.length_map, upd_length, put_length] at hx ⊢; with_reducible exact hx) | (simp_all [TagBlock.shape]; done) | ((repeat' split) <;> first | exact hx | (simp_all [TagBlock.shape]; done)))
    | (intro x'; clear_value x')
    | intro _
    | dsimp only [s']
    | split

theorem kept_ctAnswer (a0 : Bytes) (h : Kept b p i s) :
    Kept b p i (ctAnswer a0 s) := by
  unfold ctAnswer
  repeat' first
    | with_reducible assumption
    | (intro (s : State) (h : Kept b p i s))
    | (intro _ (s : State) (h : Kept b p i s))
    | (intro (h : Kept b p i _))
    | (intro (s' : State); refine_lift have h : Kept b p i s' := ?_; ?_; clear_value s')
    | lift_lets
    | with_reducible apply keptO_next
    | with_reducible apply kept_ite
    | with_reducible apply kept_onTag
    | with_reducible refine kept_foldl ?_ (fun s a h => ?_)
    | (intro (x : TagBlock) hx; first | (simp only [TagBlock.shape] at hx ⊢; with_reducible exact hx) | (simp only [TagBlock.shape, List.length_mapIdx, List.length_map, upd_length, put_length] at hx ⊢; with_reducible exact hx) | (simp_all [TagBlock.shape]; done) | ((repeat' split) <;> first | exact hx | (simp_all [TagBlock.shape]; done)))
    | (intro x'; clear_value x')
    | intro _
    | dsimp only [s']
    | split

theorem kept_execCtReadBlock (a0 : ℕ) (a1 : ℕ) (h : Kept b p i s) :
    KeptO b p i (execCtReadBlock a0 a1 s) := by
  unfold execCtReadBlock
  repeat' first
    | with_reducible assumption
    | (intro (s : State) (h : Kept b p i s))
    | (intro _ (s : State) (h : Kept b p i s))
    | (intro (h : Kept b p i _))
    | (intro (s' : State); refine_lift have h : Kept b p i s' := ?_; ?_; clear_value s')
    | lift_lets
    | with_reducible apply keptO_next
    | with_reducible apply kept_ite
    | with_reducible apply keptO_ite
    | with_reducible apply kept_ctError
    | with_reducible apply kept_onTag
    | with_reducible apply kept_ctAnswer
    | with_reducible refine kept_foldl ?_ (fun s a h => ?_)
    | (intro (x : TagBlock) hx; first | (simp only [TagBlock.shape] at hx ⊢; with_reducible exact hx) | (simp only [TagBlock.shape, List.length_mapIdx, List.length_map, upd_length, put_length] at hx ⊢; with_reducible exact hx) | (simp_all [TagBlock.shape]; done) | ((repeat' split) <;> first | exact hx | (simp_all [TagBlock.shape]; done)))
    | (intro x'; clear_value x')
    | intro _
    | dsimp only [s']
    | split

theorem kept_ctCollapse  (h : Kept b p i s) :
    Kept b p i (ctCollapse s) := by
  unfold ctCollapse
  repeat' first
    | with_reducible assumption
    | (intro (s : State) (h : Kept b p i s))
    | (intro _ (s : State) (h : Kept b p i s))
    | (intro (h : Kept b p i _))
    | (intro (s' : State); refine_lift have h : Kept b p i s' := ?_; ?_; clear_value s')
    | lift_lets
    | with_reducible apply keptO_next
    | with_reducible apply kept_ite
    | with_reducible apply kept_onTag
    | with_reducible refine kept_foldl ?_ (fun s a h => ?_)
    | (intro (x : TagBlock) hx; first | (simp only [TagBlock.shape] at hx ⊢; with_reducible exact hx) | (simp only [TagBlock.shape, List.length_mapIdx, List.length_map, upd_length, put_length] at hx ⊢; with_reducible exact hx) | (simp_all [TagBlock.shape]; done) | ((repeat' split) <;> first | exact hx | (simp_all [TagBlock.shape]; done)))
    | (intro x'; clear_value x')
    | intro _
    | dsimp only [s']
    | split

theorem kept_ctWrite (a0 : ℕ) (a1 : Bytes) (a2 : Bool) (a3 : WriteCut) (h : Kept b p i s) :
    Kept b p i (ctWrite a0 a1 a2 a3 s) := by
  unfold ctWrite
  repeat' first
    | with_reducible assumption
    | (intro (s : State) (h : Kept b p i s))
    | (intro _ (s : State) (h : Kept b p i s))
    | (intro (h : Kept b p i _))
    | (intro (s' : State); refine_lift have h : Kept b p i s' := ?_; ?_; clear_value s')
    | lift_lets
    | with_reducible apply keptO_next
    | with_reducible apply kept_ite
    | with_reducible apply kept_ctError
    | with_reducible apply kept_ctCollapse
    | with_reducible apply kept_putBlock
    | with_reducible apply kept_ctAnswer
    | with_reducible apply kept_onTag
    | with_reducible refine kept_foldl ?_ (fun s a h => ?_)
    | (intro (x : TagBlock) hx; first | (simp only [TagBlock.shape] at hx ⊢; with_reducible exact hx) | (simp only [TagBlock.shape, List.length_mapIdx, List.length_map, upd_length, put_length] at hx ⊢; with_reducible exact hx) | (simp_all [TagBlock.shape]; done) | ((repeat' split) <;> first | exact hx | (simp_all [TagBlock.shape]; done)))
    | (intro x'; clear_value x')
    | intro _
    | dsimp only [s']
    | split

theorem kept_ctIgnored  (h : Kept b p i s) :
    Kept b p i (ctIgnored s) := by
  unfold ctIgnored
  repeat' first
    | with_reducible assumption
    | (intro (s : State) (h : Kept b p i s))
    | (intro _ (s : State) (h : Kept b p i s))
    | (intro (h : Kept b p i _))
    | (intro (s' : State); refine_lift have h : Kept b p i s' := ?_; ?_; clear_value s')
    | lift_lets
    | with_reducible apply keptO_next
    | with_reducible apply kept_ite
    | with_reducible apply kept_onTag
    | with_reducible refine kept_foldl ?_ (fun s a h => ?_)
    | (intro (x : TagBlock) hx; first | (simp only [TagBlock.shape] at hx ⊢; with_reducible exact hx) | (simp only [TagBlock.shape, List.length_mapIdx, List.length_map, upd_length, put_length] at hx ⊢; with_reducible exact hx) | (simp_all [TagBlock.shape]; done) | ((repeat' split) <;> first | exact hx | (simp_all [TagBlock.shape]; done)))
    | (intro x'; clear_value x')
    | intro _
    | dsimp only [s']
    | split

theorem kept_execCtWriteSingleBlock (a0 : ℕ) (a1 : Bytes) (a2 : Bool) (a3 : WriteCut) (h : Kept b p i s) :
    KeptO b p i (execCtWriteSingleBlock a0 a1 a2 a3 s) := by
  unfold execCtWriteSingleBlock
  repeat' first
    | with_reducible assumption
    | (intro (s : State) (h : Kept b p i s))
    | (intro _ (s : State) (h : Kept b p i s))
    | (intro (h : Kept b p i _))
    | (intro (s' : State); refine_lift have h : Kept b p i s' := ?_; ?_; clear_value s')
    | lift_lets
    | with_reducible apply keptO_next
    | with_reducible apply kept_ite
    | with_reducible apply keptO_ite
    | with_reducible apply kept_ctIgnored
    | with_reducible apply kept_ctError
    | with_reducible apply kept_ctWrite
    | with_reducible refine kept_foldl ?_ (fun s a h => ?_)
    | (intro x'; clear_value x')
    | intro _
    | dsimp only [s']
    | split

theorem kept_execCtGetChallenge  (h : Kept b p i s) :
    KeptO b p i (execCtGetChallenge s) := by
  unfold execCtGetChallenge
  repeat' first
    | with_reducible assumption
    | (intro (s : State) (h : Kept b p i s))
    | (intro _ (s : State) (h : Kept b p i s))
    | (intro (h : Kept b p i _))
    | (intro (s' : State); refine_lift have h : Kept b p i s' := ?_; ?_; clear_value s')
    | lift_lets
    | with_reducible apply keptO_next
    | with_reducible apply kept_ite
    | with_reducible apply keptO_ite
    | with_reducible apply kept_ctError
    | with_reducible apply kept_bump
    | with_reducible apply kept_onTag
    | with_reducible apply kept_ctAnswer
    | with_reducible refine kept_foldl ?_ (fun s a h => ?_)
    | (intro (x : TagBlock) hx; first | (simp only [TagBlock.shape] at hx ⊢; with_reducible exact hx) | (simp only [TagBlock.shape, List.length_mapIdx, List.length_map, upd_length, put_length] at hx ⊢; with_reducible exact hx) | (simp_all [TagBlock.shape]; done) | ((repeat' split) <;> first | exact hx | (simp_all [TagBlock.shape]; done)))
    | (intro x'; clear_value x')
    | intro _
    | dsimp only [s']
    | split

theorem kept_ctMacFail  (h : Kept b p i s) :
    Kept b p i (ctMacFail s) := by
  unfold ctMacFail
  repeat' first
    | with_reducible assumption
    | (intro (s : State) (h : Kept b p i s))
    | (intro _ (s : State) (h : Kept b p i s))
    | (intro (h : Kept b p i _))
    | (intro (s' : State); refine_lift have h : Kept b p i s' := ?_; ?_; clear_value s')
    | lift_lets
    | with_reducible apply keptO_next
    | with_reducible apply kept_ite
    | with_reducible apply kept_ctError
    | with_reducible apply kept_onTag
    | with_reducible refine kept_foldl ?_ (fun s a h => ?_)
    | (intro (x : TagBlock) hx; first | (simp only [TagBlock.shape] at hx ⊢; with_reducible exact hx) | (simp only [TagBlock.shape, List.length_mapIdx, List.length_map, upd_length, put_length] at hx ⊢; with_reducible exact hx) | (simp_all [TagBlock.shape]; done) | ((repeat' split) <;> first | exact hx | (simp_all [TagBlock.shape]; done)))
    | (intro x'; clear_value x')
    | intro _
    | dsimp only [s']
    | split

theorem kept_execCtAuthWrite (a0 : ℕ) (a1 : Bytes) (a2 : Bytes) (a3 : Bool) (a4 : WriteCut) (h : Kept b p i s) :
    KeptO b p i (execCtAuthWrite a0 a1 a2 a3 a4 s) := by
  unfold execCtAuthWrite
  repeat' first
    | with_reducible assumption
    | (intro (s : State) (h : Kept b p i s))
    | (intro _ (s : State) (h : Kept b p i s))
    | (intro (h : Kept b p i _))
    | (intro (s' : State); refine_lift have h : Kept b p i s' := ?_; ?_; clear_value s')
    | lift_lets
    | with_reducible apply keptO_next
    | with_reducible apply kept_ite
    | with_reducible apply keptO_ite
    | with_reducible apply kept_ctIgnored
    | with_reducible apply kept_ctError
    | with_reducible apply kept_ctMacFail
    | with_reducible apply kept_ctWrite
    | with_reducible refine kept_foldl ?_ (fun s a h => ?_)
    | (intro x'; clear_value x')
    | intro _
    | dsimp only [s']
    | split

theorem kept_execCtFieldChange (a0 : Bool) (a1 : Bool) (a2 : Bool) (h : Kept b p i s) :
    KeptO b p i (execCtFieldChange a0 a1 a2 s) := by
  unfold execCtFieldChange
  repeat' first
    | with_reducible assumption
    | (intro (s : State) (h : Kept b p i s))
    | (intro _ (s : State) (h : Kept b p i s))
    | (intro (h : Kept b p i _))
    | (intro (s' : State); refine_lift have h : Kept b p i s' := ?_; ?_; clear_value s')
    | lift_lets
    | with_reducible apply keptO_next
    | with_reducible apply kept_ite
    | with_reducible apply keptO_ite
    | with_reducible apply kept_onTag
    | with_reducible apply kept_ctCollapse
    | with_reducible refine kept_foldl ?_ (fun s a h => ?_)
    | (intro (x : TagBlock) hx; first | (simp only [TagBlock.shape] at hx ⊢; with_reducible exact hx) | (simp only [TagBlock.shape, List.length_mapIdx, List.length_map, upd_length, put_length] at hx ⊢; with_reducible exact hx) | (simp_all [TagBlock.shape]; done) | ((repeat' split) <;> first | exact hx | (simp_all [TagBlock.shape]; done)))
    | (intro x'; clear_value x')
    | intro _
    | dsimp only [s']
    | split

end Sys2Proof.Machine
end

