-- ==== Sys2Proof/Laws/KeptReset.lean ====
section
/-! SUPPORT. What the operations of Reset.lean keep. -/

set_option linter.unusedSimpArgs false
set_option linter.unusedVariables false
set_option linter.unreachableTactic false
set_option linter.unusedTactic false

namespace Sys2Proof.Machine

variable {b : Prop} {p : List Instr} {i : Ident} {s : State}

theorem kept_outputsSafe  (h : Kept b p i s) :
    Kept b p i (outputsSafe s) := by
  unfold outputsSafe
  repeat' first
    | with_reducible assumption
    | (intro (s : State) (h : Kept b p i s))
    | (intro _ (s : State) (h : Kept b p i s))
    | (intro (h : Kept b p i _))
    | (intro (s' : State); refine_lift have h : Kept b p i s' := ?_; ?_; clear_value s')
    | lift_lets
    | with_reducible apply keptO_next
    | with_reducible apply kept_ite
    | with_reducible apply kept_onOwl
    | with_reducible apply kept_onPwr
    | with_reducible apply kept_onLinks
    | with_reducible refine kept_foldl ?_ (fun s a h => ?_)
    | (intro (x : PwrBlock) hx; first | (simp only [PwrBlock.shape] at hx ⊢; with_reducible exact hx) | (simp only [PwrBlock.shape, List.length_mapIdx, List.length_map, upd_length, put_length] at hx ⊢; with_reducible exact hx) | (simp_all [PwrBlock.shape]; done) | ((repeat' split) <;> first | exact hx | (simp_all [PwrBlock.shape]; done)))
    | (intro (x : OwlBlock) hx; first | (simp only [OwlBlock.shape] at hx ⊢; with_reducible exact hx) | (simp only [OwlBlock.shape, List.length_mapIdx, List.length_map, upd_length, put_length] at hx ⊢; with_reducible exact hx) | (simp_all [OwlBlock.shape]; done) | ((repeat' split) <;> first | exact hx | (simp_all [OwlBlock.shape]; done)))
    | (intro x'; clear_value x')
    | intro _
    | dsimp only [s']
    | split

theorem kept_assertReset (a0 : Bool) (a1 : ℕ) (a2 : Bool) (h : Kept b p i s) :
    Kept b p i (assertReset a0 a1 a2 s) := by
  unfold assertReset
  repeat' first
    | with_reducible assumption
    | (intro (s : State) (h : Kept b p i s))
    | (intro _ (s : State) (h : Kept b p i s))
    | (intro (h : Kept b p i _))
    | (intro (s' : State); refine_lift have h : Kept b p i s' := ?_; ?_; clear_value s')
    | lift_lets
    | with_reducible apply keptO_next
    | with_reducible apply kept_ite
    | with_reducible apply kept_saveRtc
    | with_reducible apply kept_onMet
    | with_reducible apply kept_onHsi
    | with_reducible apply kept_onSys
    | with_reducible apply kept_outputsSafe
    | with_reducible refine kept_foldl ?_ (fun s a h => ?_)
    | (intro (x : MetBlock) hx; first | (simp only [MetBlock.shape] at hx ⊢; with_reducible exact hx) | (simp only [MetBlock.shape, List.length_mapIdx, List.length_map, upd_length, put_length] at hx ⊢; with_reducible exact hx) | (simp_all [MetBlock.shape]; done) | ((repeat' split) <;> first | exact hx | (simp_all [MetBlock.shape]; done)))
    | (intro (x : SysBlock) hx; first | exact hx | exact ⟨Nat.zero_le _, hx.2⟩)
    | (intro (x : HsiBlock) hx; exact hx)
    | (intro x'; clear_value x')
    | intro _
    | dsimp only [s']
    | split

theorem kept_requestReset (a0 : Bool) (a1 : ℕ) (h : Kept b p i s) :
    Kept b p i (requestReset a0 a1 s) := by
  unfold requestReset
  repeat' first
    | with_reducible assumption
    | (intro (s : State) (h : Kept b p i s))
    | (intro _ (s : State) (h : Kept b p i s))
    | (intro (h : Kept b p i _))
    | (intro (s' : State); refine_lift have h : Kept b p i s' := ?_; ?_; clear_value s')
    | lift_lets
    | with_reducible apply keptO_next
    | with_reducible apply kept_ite
    | with_reducible apply kept_onSys
    | with_reducible refine kept_foldl ?_ (fun s a h => ?_)
    | (intro (x : SysBlock) hx; first | exact hx | exact ⟨Nat.zero_le _, hx.2⟩)
    | (intro x'; clear_value x')
    | intro _
    | dsimp only [s']
    | split

end Sys2Proof.Machine
end

