-- ==== Sys2Proof/Laws/KeptKeys.lean ====
section
/-! SUPPORT. What the operations of Keys.lean keep. -/

set_option linter.unusedSimpArgs false
set_option linter.unusedVariables false
set_option linter.unreachableTactic false
set_option linter.unusedTactic false

namespace Sys2Proof.Machine

variable {b : Prop} {p : List Instr} {i : Ident} {s : State}

theorem kept_loadSlot (a0 : ℕ) (h : Kept b p i s) :
    Kept b p i (loadSlot a0 s) := by
  unfold loadSlot
  repeat' first
    | with_reducible assumption
    | (intro (s : State) (h : Kept b p i s))
    | (intro _ (s : State) (h : Kept b p i s))
    | (intro (h : Kept b p i _))
    | (intro (s' : State); refine_lift have h : Kept b p i s' := ?_; ?_; clear_value s')
    | lift_lets
    | with_reducible apply keptO_next
    | with_reducible apply kept_ite
    | with_reducible apply kept_onKey
    | with_reducible apply kept_logEv
    | with_reducible refine kept_foldl ?_ (fun s a h => ?_)
    | (intro (x : KeyBlock) hx; first | (simp only [KeyBlock.shape] at hx ⊢; with_reducible exact hx) | (simp only [KeyBlock.shape, List.length_mapIdx, List.length_map, upd_length, put_length] at hx ⊢; with_reducible exact hx) | (simp_all [KeyBlock.shape]; done) | ((repeat' split) <;> first | exact hx | (simp_all [KeyBlock.shape]; done)))
    | (intro x'; clear_value x')
    | intro _
    | dsimp only [s']
    | split

theorem kept_loadSlots  (h : Kept b p i s) :
    Kept b p i (loadSlots s) := by
  unfold loadSlots
  repeat' first
    | with_reducible assumption
    | (intro (s : State) (h : Kept b p i s))
    | (intro _ (s : State) (h : Kept b p i s))
    | (intro (h : Kept b p i _))
    | (intro (s' : State); refine_lift have h : Kept b p i s' := ?_; ?_; clear_value s')
    | lift_lets
    | with_reducible apply keptO_next
    | with_reducible apply kept_ite
    | with_reducible apply kept_onKey
    | with_reducible apply kept_loadSlot
    | with_reducible refine kept_foldl ?_ (fun s a h => ?_)
    | (intro (x : KeyBlock) hx; first | (simp only [KeyBlock.shape] at hx ⊢; with_reducible exact hx) | (simp only [KeyBlock.shape, List.length_mapIdx, List.length_map, upd_length, put_length] at hx ⊢; with_reducible exact hx) | (simp_all [KeyBlock.shape]; done) | ((repeat' split) <;> first | exact hx | (simp_all [KeyBlock.shape]; done)))
    | (intro x'; clear_value x')
    | intro _
    | dsimp only [s']
    | split

theorem kept_deriveSlots  (h : Kept b p i s) :
    Kept b p i (deriveSlots s) := by
  unfold deriveSlots
  repeat' first
    | with_reducible assumption
    | (intro (s : State) (h : Kept b p i s))
    | (intro _ (s : State) (h : Kept b p i s))
    | (intro (h : Kept b p i _))
    | (intro (s' : State); refine_lift have h : Kept b p i s' := ?_; ?_; clear_value s')
    | lift_lets
    | with_reducible apply keptO_next
    | with_reducible apply kept_ite
    | with_reducible apply kept_onKey
    | with_reducible refine kept_foldl ?_ (fun s a h => ?_)
    | (intro (x : KeyBlock) hx; first | (simp only [KeyBlock.shape] at hx ⊢; with_reducible exact hx) | (simp only [KeyBlock.shape, List.length_mapIdx, List.length_map, upd_length, put_length] at hx ⊢; with_reducible exact hx) | (simp_all [KeyBlock.shape]; done) | ((repeat' split) <;> first | exact hx | (simp_all [KeyBlock.shape]; done)))
    | (intro x'; clear_value x')
    | intro _
    | dsimp only [s']
    | split

theorem kept_slotsChanged  (h : Kept b p i s) :
    Kept b p i (slotsChanged s) := by
  unfold slotsChanged
  repeat' first
    | with_reducible assumption
    | (intro (s : State) (h : Kept b p i s))
    | (intro _ (s : State) (h : Kept b p i s))
    | (intro (h : Kept b p i _))
    | (intro (s' : State); refine_lift have h : Kept b p i s' := ?_; ?_; clear_value s')
    | lift_lets
    | with_reducible apply keptO_next
    | with_reducible apply kept_ite
    | with_reducible apply kept_ctRefresh
    | with_reducible apply kept_glkGate
    | with_reducible refine kept_foldl ?_ (fun s a h => ?_)
    | (intro x'; clear_value x')
    | intro _
    | dsimp only [s']
    | split

theorem kept_freshSeed  (h : Kept b p i s) :
    Kept b p i (freshSeed s) := by
  unfold freshSeed
  repeat' first
    | with_reducible assumption
    | (intro (s : State) (h : Kept b p i s))
    | (intro _ (s : State) (h : Kept b p i s))
    | (intro (h : Kept b p i _))
    | (intro (s' : State); refine_lift have h : Kept b p i s' := ?_; ?_; clear_value s')
    | lift_lets
    | with_reducible apply keptO_next
    | with_reducible apply kept_ite
    | with_reducible apply kept_bump
    | with_reducible apply kept_onKey
    | with_reducible refine kept_foldl ?_ (fun s a h => ?_)
    | (intro (x : KeyBlock) hx; first | (simp only [KeyBlock.shape] at hx ⊢; with_reducible exact hx) | (simp only [KeyBlock.shape, List.length_mapIdx, List.length_map, upd_length, put_length] at hx ⊢; with_reducible exact hx) | (simp_all [KeyBlock.shape]; done) | ((repeat' split) <;> first | exact hx | (simp_all [KeyBlock.shape]; done)))
    | (intro x'; clear_value x')
    | intro _
    | dsimp only [s']
    | split

theorem kept_installKey (a0 : ℕ) (a1 : KeySlot) (a2 : ℕ) (h : Kept b p i s) :
    Kept b p i (installKey a0 a1 a2 s) := by
  unfold installKey
  repeat' first
    | with_reducible assumption
    | (intro (s : State) (h : Kept b p i s))
    | (intro _ (s : State) (h : Kept b p i s))
    | (intro (h : Kept b p i _))
    | (intro (s' : State); refine_lift have h : Kept b p i s' := ?_; ?_; clear_value s')
    | lift_lets
    | with_reducible apply keptO_next
    | with_reducible apply kept_ite
    | with_reducible apply kept_freshSeed
    | with_reducible apply kept_bump
    | with_reducible apply kept_onKey
    | with_reducible refine kept_foldl ?_ (fun s a h => ?_)
    | (intro (x : KeyBlock) hx; first | (simp only [KeyBlock.shape] at hx ⊢; with_reducible exact hx) | (simp only [KeyBlock.shape, List.length_mapIdx, List.length_map, upd_length, put_length] at hx ⊢; with_reducible exact hx) | (simp_all [KeyBlock.shape]; done) | ((repeat' split) <;> first | exact hx | (simp_all [KeyBlock.shape]; done)))
    | (intro x'; clear_value x')
    | intro _
    | dsimp only [s']
    | split

theorem kept_eraseKey (a0 : ℕ) (h : Kept b p i s) :
    Kept b p i (eraseKey a0 s) := by
  unfold eraseKey
  repeat' first
    | with_reducible assumption
    | (intro (s : State) (h : Kept b p i s))
    | (intro _ (s : State) (h : Kept b p i s))
    | (intro (h : Kept b p i _))
    | (intro (s' : State); refine_lift have h : Kept b p i s' := ?_; ?_; clear_value s')
    | lift_lets
    | with_reducible apply keptO_next
    | with_reducible apply kept_ite
    | with_reducible apply kept_onKey
    | with_reducible refine kept_foldl ?_ (fun s a h => ?_)
    | (intro (x : KeyBlock) hx; first | (simp only [KeyBlock.shape] at hx ⊢; with_reducible exact hx) | (simp only [KeyBlock.shape, List.length_mapIdx, List.length_map, upd_length, put_length] at hx ⊢; with_reducible exact hx) | (simp_all [KeyBlock.shape]; done) | ((repeat' split) <;> first | exact hx | (simp_all [KeyBlock.shape]; done)))
    | (intro x'; clear_value x')
    | intro _
    | dsimp only [s']
    | split

theorem kept_zeroise (a0 : ℕ) (h : Kept b p i s) :
    Kept b p i (zeroise a0 s) := by
  unfold zeroise
  repeat' first
    | with_reducible assumption
    | (intro (s : State) (h : Kept b p i s))
    | (intro _ (s : State) (h : Kept b p i s))
    | (intro (h : Kept b p i _))
    | (intro (s' : State); refine_lift have h : Kept b p i s' := ?_; ?_; clear_value s')
    | lift_lets
    | with_reducible apply keptO_next
    | with_reducible apply kept_ite
    | with_reducible apply kept_onKey
    | with_reducible apply kept_slotsChanged
    | with_reducible apply kept_logEv
    | with_reducible refine kept_foldl ?_ (fun s a h => ?_)
    | (intro (x : KeyBlock) hx; first | (simp only [KeyBlock.shape] at hx ⊢; with_reducible exact hx) | (simp only [KeyBlock.shape, List.length_mapIdx, List.length_map, upd_length, put_length] at hx ⊢; with_reducible exact hx) | (simp_all [KeyBlock.shape]; done) | ((repeat' split) <;> first | exact hx | (simp_all [KeyBlock.shape]; done)))
    | (intro x'; clear_value x')
    | intro _
    | dsimp only [s']
    | split

theorem kept_tamperAct (a0 : ℕ) (h : Kept b p i s) :
    Kept b p i (tamperAct a0 s) := by
  unfold tamperAct
  repeat' first
    | with_reducible assumption
    | (intro (s : State) (h : Kept b p i s))
    | (intro _ (s : State) (h : Kept b p i s))
    | (intro (h : Kept b p i _))
    | (intro (s' : State); refine_lift have h : Kept b p i s' := ?_; ?_; clear_value s')
    | lift_lets
    | with_reducible apply keptO_next
    | with_reducible apply kept_ite
    | with_reducible apply kept_onKey
    | with_reducible apply kept_logEv
    | with_reducible apply kept_zeroise
    | with_reducible refine kept_foldl ?_ (fun s a h => ?_)
    | (intro (x : KeyBlock) hx; first | (simp only [KeyBlock.shape] at hx ⊢; with_reducible exact hx) | (simp only [KeyBlock.shape, List.length_mapIdx, List.length_map, upd_length, put_length] at hx ⊢; with_reducible exact hx) | (simp_all [KeyBlock.shape]; done) | ((repeat' split) <;> first | exact hx | (simp_all [KeyBlock.shape]; done)))
    | (intro x'; clear_value x')
    | intro _
    | dsimp only [s']
    | split

theorem kept_logLc (a0 : Lc) (a1 : Lc) (a2 : ℕ) (a3 : ℕ) (h : Kept b p i s) :
    Kept b p i (logLc a0 a1 a2 a3 s) := by
  unfold logLc
  repeat' first
    | with_reducible assumption
    | (intro (s : State) (h : Kept b p i s))
    | (intro _ (s : State) (h : Kept b p i s))
    | (intro (h : Kept b p i _))
    | (intro (s' : State); refine_lift have h : Kept b p i s' := ?_; ?_; clear_value s')
    | lift_lets
    | with_reducible apply keptO_next
    | with_reducible apply kept_ite
    | with_reducible apply kept_logEv
    | with_reducible refine kept_foldl ?_ (fun s a h => ?_)
    | (intro x'; clear_value x')
    | intro _
    | dsimp only [s']
    | split

theorem kept_wipeClass (a0 : Bool) (h : Kept b p i s) :
    Kept b p i (wipeClass a0 s) := by
  unfold wipeClass
  repeat' first
    | with_reducible assumption
    | (intro (s : State) (h : Kept b p i s))
    | (intro _ (s : State) (h : Kept b p i s))
    | (intro (h : Kept b p i _))
    | (intro (s' : State); refine_lift have h : Kept b p i s' := ?_; ?_; clear_value s')
    | lift_lets
    | with_reducible apply keptO_next
    | with_reducible apply kept_ite
    | with_reducible apply kept_onKey
    | with_reducible apply kept_freshSeed
    | with_reducible apply kept_onUpd
    | with_reducible apply kept_onOwl
    | with_reducible apply kept_onCfg
    | with_reducible apply kept_wipeCache
    | with_reducible apply kept_changeEntry
    | with_reducible refine kept_foldl ?_ (fun s a h => ?_)
    | (intro (x : OwlBlock) hx; first | (simp only [OwlBlock.shape] at hx ⊢; with_reducible exact hx) | (simp only [OwlBlock.shape, List.length_mapIdx, List.length_map, upd_length, put_length] at hx ⊢; with_reducible exact hx) | (simp_all [OwlBlock.shape]; done) | ((repeat' split) <;> first | exact hx | (simp_all [OwlBlock.shape]; done)))
    | (intro (x : KeyBlock) hx; first | (simp only [KeyBlock.shape] at hx ⊢; with_reducible exact hx) | (simp only [KeyBlock.shape, List.length_mapIdx, List.length_map, upd_length, put_length] at hx ⊢; with_reducible exact hx) | (simp_all [KeyBlock.shape]; done) | ((repeat' split) <;> first | exact hx | (simp_all [KeyBlock.shape]; done)))
    | (intro (x : UpdBlock) hx; first | (simp only [UpdBlock.shape] at hx ⊢; with_reducible exact hx) | (simp only [UpdBlock.shape, List.length_mapIdx, List.length_map, upd_length, put_length] at hx ⊢; with_reducible exact hx) | (simp_all [UpdBlock.shape]; done) | ((repeat' split) <;> first | exact hx | (simp_all [UpdBlock.shape]; done)))
    | (intro x'; clear_value x')
    | intro _
    | dsimp only [s']
    | split

theorem kept_writeLc (a0 : Lc) (a1 : Bytes) (a2 : Bytes) (a3 : Bool) (h : Kept b p i s) :
    Kept b p i (writeLc a0 a1 a2 a3 s) := by
  unfold writeLc
  repeat' first
    | with_reducible assumption
    | (intro (s : State) (h : Kept b p i s))
    | (intro _ (s : State) (h : Kept b p i s))
    | (intro (h : Kept b p i _))
    | (intro (s' : State); refine_lift have h : Kept b p i s' := ?_; ?_; clear_value s')
    | lift_lets
    | with_reducible apply keptO_next
    | with_reducible apply kept_ite
    | with_reducible apply kept_onKey
    | with_reducible refine kept_foldl ?_ (fun s a h => ?_)
    | (intro (x : KeyBlock) hx; first | (simp only [KeyBlock.shape] at hx ⊢; with_reducible exact hx) | (simp only [KeyBlock.shape, List.length_mapIdx, List.length_map, upd_length, put_length] at hx ⊢; with_reducible exact hx) | (simp_all [KeyBlock.shape]; done) | ((repeat' split) <;> first | exact hx | (simp_all [KeyBlock.shape]; done)))
    | (intro x'; clear_value x')
    | intro _
    | dsimp only [s']
    | split

theorem kept_transition (a0 : Lc) (a1 : Bytes) (a2 : Bytes) (a3 : ℕ) (a4 : ℕ) (h : Kept b p i s) :
    Kept b p i (transition a0 a1 a2 a3 a4 s) := by
  unfold transition
  repeat' first
    | with_reducible assumption
    | (intro (s : State) (h : Kept b p i s))
    | (intro _ (s : State) (h : Kept b p i s))
    | (intro (h : Kept b p i _))
    | (intro (s' : State); refine_lift have h : Kept b p i s' := ?_; ?_; clear_value s')
    | lift_lets
    | with_reducible apply keptO_next
    | with_reducible apply kept_ite
    | with_reducible apply kept_capture
    | with_reducible apply kept_writeLc
    | with_reducible apply kept_wipeClass
    | with_reducible apply kept_onKey
    | with_reducible apply kept_onOwl
    | with_reducible apply kept_requestReset
    | with_reducible apply kept_logLc
    | with_reducible refine kept_foldl ?_ (fun s a h => ?_)
    | (intro (x : OwlBlock) hx; first | (simp only [OwlBlock.shape] at hx ⊢; with_reducible exact hx) | (simp only [OwlBlock.shape, List.length_mapIdx, List.length_map, upd_length, put_length] at hx ⊢; with_reducible exact hx) | (simp_all [OwlBlock.shape]; done) | ((repeat' split) <;> first | exact hx | (simp_all [OwlBlock.shape]; done)))
    | (intro (x : KeyBlock) hx; first | (simp only [KeyBlock.shape] at hx ⊢; with_reducible exact hx) | (simp only [KeyBlock.shape, List.length_mapIdx, List.length_map, upd_length, put_length] at hx ⊢; with_reducible exact hx) | (simp_all [KeyBlock.shape]; done) | ((repeat' split) <;> first | exact hx | (simp_all [KeyBlock.shape]; done)))
    | (intro x'; clear_value x')
    | intro _
    | dsimp only [s']
    | split

theorem kept_endMaintenance (a0 : ℕ) (a1 : ℕ) (h : Kept b p i s) :
    Kept b p i (endMaintenance a0 a1 s) := by
  unfold endMaintenance
  repeat' first
    | with_reducible assumption
    | (intro (s : State) (h : Kept b p i s))
    | (intro _ (s : State) (h : Kept b p i s))
    | (intro (h : Kept b p i _))
    | (intro (s' : State); refine_lift have h : Kept b p i s' := ?_; ?_; clear_value s')
    | lift_lets
    | with_reducible apply keptO_next
    | with_reducible apply kept_ite
    | with_reducible apply kept_transition
    | with_reducible refine kept_foldl ?_ (fun s a h => ?_)
    | (intro x'; clear_value x')
    | intro _
    | dsimp only [s']
    | split

theorem kept_returnIfDue  (h : Kept b p i s) :
    Kept b p i (returnIfDue s) := by
  unfold returnIfDue
  repeat' first
    | with_reducible assumption
    | (intro (s : State) (h : Kept b p i s))
    | (intro _ (s : State) (h : Kept b p i s))
    | (intro (h : Kept b p i _))
    | (intro (s' : State); refine_lift have h : Kept b p i s' := ?_; ?_; clear_value s')
    | lift_lets
    | with_reducible apply keptO_next
    | with_reducible apply kept_ite
    | with_reducible apply kept_endMaintenance
    | with_reducible refine kept_foldl ?_ (fun s a h => ?_)
    | (intro x'; clear_value x')
    | intro _
    | dsimp only [s']
    | split

theorem kept_execMaintGrantExpiry  (h : Kept b p i s) :
    KeptO b p i (execMaintGrantExpiry s) := by
  unfold execMaintGrantExpiry
  repeat' first
    | with_reducible assumption
    | (intro (s : State) (h : Kept b p i s))
    | (intro _ (s : State) (h : Kept b p i s))
    | (intro (h : Kept b p i _))
    | (intro (s' : State); refine_lift have h : Kept b p i s' := ?_; ?_; clear_value s')
    | lift_lets
    | with_reducible apply keptO_next
    | with_reducible apply kept_ite
    | with_reducible apply keptO_ite
    | with_reducible apply kept_returnIfDue
    | with_reducible apply kept_onKey
    | with_reducible refine kept_foldl ?_ (fun s a h => ?_)
    | (intro (x : KeyBlock) hx; first | (simp only [KeyBlock.shape] at hx ⊢; with_reducible exact hx) | (simp only [KeyBlock.shape, List.length_mapIdx, List.length_map, upd_length, put_length] at hx ⊢; with_reducible exact hx) | (simp_all [KeyBlock.shape]; done) | ((repeat' split) <;> first | exact hx | (simp_all [KeyBlock.shape]; done)))
    | (intro x'; clear_value x')
    | intro _
    | dsimp only [s']
    | split

theorem kept_execMaintAuthorityExpiry (a0 : Side) (a1 : Bool) (h : Kept b p i s) :
    KeptO b p i (execMaintAuthorityExpiry a0 a1 s) := by
  unfold execMaintAuthorityExpiry
  repeat' first
    | with_reducible assumption
    | (intro (s : State) (h : Kept b p i s))
    | (intro _ (s : State) (h : Kept b p i s))
    | (intro (h : Kept b p i _))
    | (intro (s' : State); refine_lift have h : Kept b p i s' := ?_; ?_; clear_value s')
    | lift_lets
    | with_reducible apply keptO_next
    | with_reducible apply kept_ite
    | with_reducible apply keptO_ite
    | with_reducible apply kept_onKey
    | with_reducible refine kept_foldl ?_ (fun s a h => ?_)
    | (intro (x : KeyBlock) hx; first | (simp only [KeyBlock.shape] at hx ⊢; with_reducible exact hx) | (simp only [KeyBlock.shape, List.length_mapIdx, List.length_map, upd_length, put_length] at hx ⊢; with_reducible exact hx) | (simp_all [KeyBlock.shape]; done) | ((repeat' split) <;> first | exact hx | (simp_all [KeyBlock.shape]; done)))
    | (intro x'; clear_value x')
    | intro _
    | dsimp only [s']
    | split

theorem kept_keyReject (a0 : Req) (a1 : ℕ) (a2 : ℕ) (a3 : EvClass) (a4 : KeyMsg) (h : Kept b p i s) :
    Kept b p i (keyReject a0 a1 a2 a3 a4 s) := by
  unfold keyReject
  repeat' first
    | with_reducible assumption
    | (intro (s : State) (h : Kept b p i s))
    | (intro _ (s : State) (h : Kept b p i s))
    | (intro (h : Kept b p i _))
    | (intro (s' : State); refine_lift have h : Kept b p i s' := ?_; ?_; clear_value s')
    | lift_lets
    | with_reducible apply keptO_next
    | with_reducible apply kept_ite
    | with_reducible apply kept_postSts
    | with_reducible apply kept_logEv
    | with_reducible refine kept_foldl ?_ (fun s a h => ?_)
    | (intro x'; clear_value x')
    | intro _
    | dsimp only [s']
    | split

theorem kept_logRng  (h : Kept b p i s) :
    Kept b p i (logRng s) := by
  unfold logRng
  repeat' first
    | with_reducible assumption
    | (intro (s : State) (h : Kept b p i s))
    | (intro _ (s : State) (h : Kept b p i s))
    | (intro (h : Kept b p i _))
    | (intro (s' : State); refine_lift have h : Kept b p i s' := ?_; ?_; clear_value s')
    | lift_lets
    | with_reducible apply keptO_next
    | with_reducible apply kept_ite
    | with_reducible apply kept_logEv
    | with_reducible refine kept_foldl ?_ (fun s a h => ?_)
    | (intro x'; clear_value x')
    | intro _
    | dsimp only [s']
    | split

theorem kept_newBaseDate (a0 : KeyMsg) (h : Kept b p i s) :
    Kept b p i (newBaseDate a0 s) := by
  unfold newBaseDate
  repeat' first
    | with_reducible assumption
    | (intro (s : State) (h : Kept b p i s))
    | (intro _ (s : State) (h : Kept b p i s))
    | (intro (h : Kept b p i _))
    | (intro (s' : State); refine_lift have h : Kept b p i s' := ?_; ?_; clear_value s')
    | lift_lets
    | with_reducible apply keptO_next
    | with_reducible apply kept_ite
    | with_reducible apply kept_onBil
    | with_reducible apply kept_clearReplay
    | with_reducible refine kept_foldl ?_ (fun s a h => ?_)
    | (intro (x : BilBlock) hx; first | (simp only [BilBlock.shape] at hx ⊢; with_reducible exact hx) | (simp only [BilBlock.shape, List.length_mapIdx, List.length_map, upd_length, put_length] at hx ⊢; with_reducible exact hx) | (simp_all [BilBlock.shape]; done) | ((repeat' split) <;> first | exact hx | (simp_all [BilBlock.shape]; done)))
    | (intro x'; clear_value x')
    | intro _
    | dsimp only [s']
    | split

theorem kept_keyEffect (a0 : KeyMsg) (a1 : Bytes) (h : Kept b p i s) :
    Kept b p i ((keyEffect a0 a1 s)).1 := by
  unfold keyEffect
  repeat' first
    | with_reducible assumption
    | (intro (s : State) (h : Kept b p i s))
    | (intro _ (s : State) (h : Kept b p i s))
    | (intro (h : Kept b p i _))
    | (intro (s' : State); refine_lift have h : Kept b p i s' := ?_; ?_; clear_value s')
    | lift_lets
    | with_reducible apply keptO_next
    | with_reducible apply kept_ite
    | with_reducible apply kept_slotsChanged
    | with_reducible apply kept_installKey
    | with_reducible apply kept_newBaseDate
    | with_reducible apply kept_bump
    | with_reducible apply kept_eraseKey
    | with_reducible apply kept_onKey
    | with_reducible apply kept_transition
    | with_reducible apply kept_endMaintenance
    | with_reducible refine kept_foldl ?_ (fun s a h => ?_)
    | (intro (x : KeyBlock) hx; first | (simp only [KeyBlock.shape] at hx ⊢; with_reducible exact hx) | (simp only [KeyBlock.shape, List.length_mapIdx, List.length_map, upd_length, put_length] at hx ⊢; with_reducible exact hx) | (simp_all [KeyBlock.shape]; done) | ((repeat' split) <;> first | exact hx | (simp_all [KeyBlock.shape]; done)))
    | (intro x'; clear_value x')
    | intro _
    | dsimp only [s']
    | split

theorem kept_execKeyUpdate (a0 : Req) (a1 : Bytes) (h : Kept b p i s) :
    KeptO b p i (execKeyUpdate a0 a1 s) := by
  unfold execKeyUpdate
  repeat' first
    | with_reducible assumption
    | (intro (s : State) (h : Kept b p i s))
    | (intro _ (s : State) (h : Kept b p i s))
    | (intro (h : Kept b p i _))
    | (intro (s' : State); refine_lift have h : Kept b p i s' := ?_; ?_; clear_value s')
    | lift_lets
    | with_reducible apply keptO_next
    | with_reducible apply kept_ite
    | with_reducible apply keptO_ite
    | with_reducible apply kept_postSts
    | with_reducible apply kept_keyReject
    | with_reducible apply kept_logRng
    | with_reducible apply kept_onKey
    | with_reducible apply kept_keyEffect
    | with_reducible apply kept_post
    | with_reducible apply kept_logEv
    | with_reducible refine kept_foldl ?_ (fun s a h => ?_)
    | (intro (x : KeyBlock) hx; first | (simp only [KeyBlock.shape] at hx ⊢; with_reducible exact hx) | (simp only [KeyBlock.shape, List.length_mapIdx, List.length_map, upd_length, put_length] at hx ⊢; with_reducible exact hx) | (simp_all [KeyBlock.shape]; done) | ((repeat' split) <;> first | exact hx | (simp_all [KeyBlock.shape]; done)))
    | (intro x'; clear_value x')
    | intro _
    | dsimp only [s']
    | split

theorem kept_execKeyChallenge (a0 : Req) (h : Kept b p i s) :
    KeptO b p i (execKeyChallenge a0 s) := by
  unfold execKeyChallenge
  repeat' first
    | with_reducible assumption
    | (intro (s : State) (h : Kept b p i s))
    | (intro _ (s : State) (h : Kept b p i s))
    | (intro (h : Kept b p i _))
    | (intro (s' : State); refine_lift have h : Kept b p i s' := ?_; ?_; clear_value s')
    | lift_lets
    | with_reducible apply keptO_next
    | with_reducible apply kept_ite
    | with_reducible apply keptO_ite
    | with_reducible apply kept_guarded
    | with_reducible apply kept_postSts
    | with_reducible apply kept_logRng
    | with_reducible apply kept_post
    | with_reducible apply kept_bump
    | with_reducible apply kept_onKey
    | with_reducible refine kept_foldl ?_ (fun s a h => ?_)
    | (intro (x : KeyBlock) hx; first | (simp only [KeyBlock.shape] at hx ⊢; with_reducible exact hx) | (simp only [KeyBlock.shape, List.length_mapIdx, List.length_map, upd_length, put_length] at hx ⊢; with_reducible exact hx) | (simp_all [KeyBlock.shape]; done) | ((repeat' split) <;> first | exact hx | (simp_all [KeyBlock.shape]; done)))
    | (intro x'; clear_value x')
    | intro _
    | dsimp only [s']
    | split

theorem kept_execKeyMaintProve (a0 : Req) (a1 : Bytes) (h : Kept b p i s) :
    KeptO b p i (execKeyMaintProve a0 a1 s) := by
  unfold execKeyMaintProve
  repeat' first
    | with_reducible assumption
    | (intro (s : State) (h : Kept b p i s))
    | (intro _ (s : State) (h : Kept b p i s))
    | (intro (h : Kept b p i _))
    | (intro (s' : State); refine_lift have h : Kept b p i s' := ?_; ?_; clear_value s')
    | lift_lets
    | with_reducible apply keptO_next
    | with_reducible apply kept_ite
    | with_reducible apply keptO_ite
    | with_reducible apply kept_guarded
    | with_reducible apply kept_onKey
    | with_reducible apply kept_postSts
    | with_reducible refine kept_foldl ?_ (fun s a h => ?_)
    | (intro (x : KeyBlock) hx; first | (simp only [KeyBlock.shape] at hx ⊢; with_reducible exact hx) | (simp only [KeyBlock.shape, List.length_mapIdx, List.length_map, upd_length, put_length] at hx ⊢; with_reducible exact hx) | (simp_all [KeyBlock.shape]; done) | ((repeat' split) <;> first | exact hx | (simp_all [KeyBlock.shape]; done)))
    | (intro x'; clear_value x')
    | intro _
    | dsimp only [s']
    | split

theorem kept_execKeyZeroise (a0 : Req) (a1 : ℕ) (h : Kept b p i s) :
    KeptO b p i (execKeyZeroise a0 a1 s) := by
  unfold execKeyZeroise
  repeat' first
    | with_reducible assumption
    | (intro (s : State) (h : Kept b p i s))
    | (intro _ (s : State) (h : Kept b p i s))
    | (intro (h : Kept b p i _))
    | (intro (s' : State); refine_lift have h : Kept b p i s' := ?_; ?_; clear_value s')
    | lift_lets
    | with_reducible apply keptO_next
    | with_reducible apply kept_ite
    | with_reducible apply keptO_ite
    | with_reducible apply kept_guarded
    | with_reducible apply kept_postSts
    | with_reducible apply kept_zeroise
    | with_reducible apply kept_logRng
    | with_reducible apply kept_slotsChanged
    | with_reducible apply kept_eraseKey
    | with_reducible refine kept_foldl ?_ (fun s a h => ?_)
    | (intro x'; clear_value x')
    | intro _
    | dsimp only [s']
    | split

theorem kept_execKeyAttest (a0 : Req) (a1 : Bytes) (h : Kept b p i s) :
    KeptO b p i (execKeyAttest a0 a1 s) := by
  unfold execKeyAttest
  repeat' first
    | with_reducible assumption
    | (intro (s : State) (h : Kept b p i s))
    | (intro _ (s : State) (h : Kept b p i s))
    | (intro (h : Kept b p i _))
    | (intro (s' : State); refine_lift have h : Kept b p i s' := ?_; ?_; clear_value s')
    | lift_lets
    | with_reducible apply keptO_next
    | with_reducible apply kept_ite
    | with_reducible apply keptO_ite
    | with_reducible apply kept_guarded
    | with_reducible apply kept_post
    | with_reducible apply kept_bump
    | with_reducible apply kept_onKey
    | with_reducible refine kept_foldl ?_ (fun s a h => ?_)
    | (intro (x : KeyBlock) hx; first | (simp only [KeyBlock.shape] at hx ⊢; with_reducible exact hx) | (simp only [KeyBlock.shape, List.length_mapIdx, List.length_map, upd_length, put_length] at hx ⊢; with_reducible exact hx) | (simp_all [KeyBlock.shape]; done) | ((repeat' split) <;> first | exact hx | (simp_all [KeyBlock.shape]; done)))
    | (intro x'; clear_value x')
    | intro _
    | dsimp only [s']
    | split

theorem kept_execKeyCertRead (a0 : Req) (h : Kept b p i s) :
    KeptO b p i (execKeyCertRead a0 s) := by
  unfold execKeyCertRead
  repeat' first
    | with_reducible assumption
    | (intro (s : State) (h : Kept b p i s))
    | (intro _ (s : State) (h : Kept b p i s))
    | (intro (h : Kept b p i _))
    | (intro (s' : State); refine_lift have h : Kept b p i s' := ?_; ?_; clear_value s')
    | lift_lets
    | with_reducible apply keptO_next
    | with_reducible apply kept_ite
    | with_reducible apply keptO_ite
    | with_reducible apply kept_guarded
    | with_reducible apply kept_post
    | with_reducible refine kept_foldl ?_ (fun s a h => ?_)
    | (intro x'; clear_value x')
    | intro _
    | dsimp only [s']
    | split

theorem kept_execKeyCntLoRead (a0 : Side) (h : Kept b p i s) :
    KeptO b p i (execKeyCntLoRead a0 s) := by
  unfold execKeyCntLoRead
  repeat' first
    | with_reducible assumption
    | (intro (s : State) (h : Kept b p i s))
    | (intro _ (s : State) (h : Kept b p i s))
    | (intro (h : Kept b p i _))
    | (intro (s' : State); refine_lift have h : Kept b p i s' := ?_; ?_; clear_value s')
    | lift_lets
    | with_reducible apply keptO_next
    | with_reducible apply kept_ite
    | with_reducible apply keptO_ite
    | with_reducible apply kept_returns
    | with_reducible apply kept_onKey
    | with_reducible refine kept_foldl ?_ (fun s a h => ?_)
    | (intro (x : KeyBlock) hx; first | (simp only [KeyBlock.shape] at hx ⊢; with_reducible exact hx) | (simp only [KeyBlock.shape, List.length_mapIdx, List.length_map, upd_length, put_length] at hx ⊢; with_reducible exact hx) | (simp_all [KeyBlock.shape]; done) | ((repeat' split) <;> first | exact hx | (simp_all [KeyBlock.shape]; done)))
    | (intro x'; clear_value x')
    | intro _
    | dsimp only [s']
    | split

theorem kept_execKeyStatusRead (a0 : Side) (h : Kept b p i s) :
    KeptO b p i (execKeyStatusRead a0 s) := by
  unfold execKeyStatusRead
  repeat' first
    | with_reducible assumption
    | (intro (s : State) (h : Kept b p i s))
    | (intro _ (s : State) (h : Kept b p i s))
    | (intro (h : Kept b p i _))
    | (intro (s' : State); refine_lift have h : Kept b p i s' := ?_; ?_; clear_value s')
    | lift_lets
    | with_reducible apply keptO_next
    | with_reducible apply kept_ite
    | with_reducible apply keptO_ite
    | with_reducible apply kept_returns
    | with_reducible apply kept_onKey
    | with_reducible refine kept_foldl ?_ (fun s a h => ?_)
    | (intro (x : KeyBlock) hx; first | (simp only [KeyBlock.shape] at hx ⊢; with_reducible exact hx) | (simp only [KeyBlock.shape, List.length_mapIdx, List.length_map, upd_length, put_length] at hx ⊢; with_reducible exact hx) | (simp_all [KeyBlock.shape]; done) | ((repeat' split) <;> first | exact hx | (simp_all [KeyBlock.shape]; done)))
    | (intro x'; clear_value x')
    | intro _
    | dsimp only [s']
    | split

end Sys2Proof.Machine
end

