-- ==== Sys2Proof/Laws/KeptDisplay.lean ====
section
/-! SUPPORT. What the operations of Display.lean keep. -/

set_option linter.unusedSimpArgs false
set_option linter.unusedVariables false
set_option linter.unreachableTactic false
set_option linter.unusedTactic false

namespace Sys2Proof.Machine

variable {b : Prop} {p : List Instr} {i : Ident} {s : State}

theorem kept_logTable (a0 : ℕ) (a1 : Bytes) (a2 : ℕ) (h : Kept b p i s) :
    Kept b p i (logTable a0 a1 a2 s) := by
  unfold logTable
  repeat' first
    | with_reducible assumption
    | (intro (s : State) (h : Kept b p i s))
    | (intro _ (s : State) (h : Kept b p i s))
    | (intro (h : Kept b p i _))
    | (intro (s' : State); refine_lift have h : Kept b p i s' := ?_; ?_; clear_value s')
    | lift_lets
    | with_reducible apply keptO_next
    | with_reducible apply kept_ite
    | with_reducible apply kept_logEv
    | with_reducible refine kept_foldl ?_ (fun s a h => ?_)
    | (intro x'; clear_value x')
    | intro _
    | dsimp only [s']
    | split

theorem kept_offerTable (a0 : Bytes) (h : Kept b p i s) :
    Kept b p i (offerTable a0 s) := by
  unfold offerTable
  repeat' first
    | with_reducible assumption
    | (intro (s : State) (h : Kept b p i s))
    | (intro _ (s : State) (h : Kept b p i s))
    | (intro (h : Kept b p i _))
    | (intro (s' : State); refine_lift have h : Kept b p i s' := ?_; ?_; clear_value s')
    | lift_lets
    | with_reducible apply keptO_next
    | with_reducible apply kept_ite
    | with_reducible apply kept_logTable
    | with_reducible apply kept_onEpd
    | with_reducible refine kept_foldl ?_ (fun s a h => ?_)
    | (intro (x : EpdBlock) hx; first | (simp only [EpdBlock.shape] at hx ⊢; with_reducible exact hx) | (simp only [EpdBlock.shape, List.length_mapIdx, List.length_map, upd_length, put_length] at hx ⊢; with_reducible exact hx) | (simp_all [EpdBlock.shape]; done) | ((repeat' split) <;> first | exact hx | (simp_all [EpdBlock.shape]; done)))
    | (intro x'; clear_value x')
    | intro _
    | dsimp only [s']
    | split

theorem kept_evalBand  (h : Kept b p i s) :
    Kept b p i (evalBand s) := by
  unfold evalBand
  repeat' first
    | with_reducible assumption
    | (intro (s : State) (h : Kept b p i s))
    | (intro _ (s : State) (h : Kept b p i s))
    | (intro (h : Kept b p i _))
    | (intro (s' : State); refine_lift have h : Kept b p i s' := ?_; ?_; clear_value s')
    | lift_lets
    | with_reducible apply keptO_next
    | with_reducible apply kept_ite
    | with_reducible apply kept_onEpd
    | with_reducible apply kept_bump
    | with_reducible apply kept_logEv
    | with_reducible refine kept_foldl ?_ (fun s a h => ?_)
    | (intro (x : EpdBlock) hx; first | (simp only [EpdBlock.shape] at hx ⊢; with_reducible exact hx) | (simp only [EpdBlock.shape, List.length_mapIdx, List.length_map, upd_length, put_length] at hx ⊢; with_reducible exact hx) | (simp_all [EpdBlock.shape]; done) | ((repeat' split) <;> first | exact hx | (simp_all [EpdBlock.shape]; done)))
    | (intro x'; clear_value x')
    | intro _
    | dsimp only [s']
    | split

theorem kept_epdTempWrite (a0 : ℕ) (h : Kept b p i s) :
    Kept b p i (epdTempWrite a0 s) := by
  unfold epdTempWrite
  repeat' first
    | with_reducible assumption
    | (intro (s : State) (h : Kept b p i s))
    | (intro _ (s : State) (h : Kept b p i s))
    | (intro (h : Kept b p i _))
    | (intro (s' : State); refine_lift have h : Kept b p i s' := ?_; ?_; clear_value s')
    | lift_lets
    | with_reducible apply keptO_next
    | with_reducible apply kept_ite
    | with_reducible apply kept_evalBand
    | with_reducible apply kept_onEpd
    | with_reducible refine kept_foldl ?_ (fun s a h => ?_)
    | (intro (x : EpdBlock) hx; first | (simp only [EpdBlock.shape] at hx ⊢; with_reducible exact hx) | (simp only [EpdBlock.shape, List.length_mapIdx, List.length_map, upd_length, put_length] at hx ⊢; with_reducible exact hx) | (simp_all [EpdBlock.shape]; done) | ((repeat' split) <;> first | exact hx | (simp_all [EpdBlock.shape]; done)))
    | (intro x'; clear_value x')
    | intro _
    | dsimp only [s']
    | split

theorem kept_execEpdTempWrite (a0 : Word) (h : Kept b p i s) :
    KeptO b p i (execEpdTempWrite a0 s) := by
  unfold execEpdTempWrite
  repeat' first
    | with_reducible assumption
    | (intro (s : State) (h : Kept b p i s))
    | (intro _ (s : State) (h : Kept b p i s))
    | (intro (h : Kept b p i _))
    | (intro (s' : State); refine_lift have h : Kept b p i s' := ?_; ?_; clear_value s')
    | lift_lets
    | with_reducible apply keptO_next
    | with_reducible apply kept_ite
    | with_reducible apply keptO_ite
    | with_reducible apply kept_epdTempWrite
    | with_reducible refine kept_foldl ?_ (fun s a h => ?_)
    | (intro x'; clear_value x')
    | intro _
    | dsimp only [s']
    | split

theorem kept_onSeg (a0 : ℕ) (a1 : Segment → Segment) (h : Kept b p i s) :
    Kept b p i (onSeg a0 a1 s) := by
  unfold onSeg
  repeat' first
    | with_reducible assumption
    | (intro (s : State) (h : Kept b p i s))
    | (intro _ (s : State) (h : Kept b p i s))
    | (intro (h : Kept b p i _))
    | (intro (s' : State); refine_lift have h : Kept b p i s' := ?_; ?_; clear_value s')
    | lift_lets
    | with_reducible apply keptO_next
    | with_reducible apply kept_ite
    | with_reducible apply kept_onEpd
    | with_reducible refine kept_foldl ?_ (fun s a h => ?_)
    | (intro (x : EpdBlock) hx; first | (simp only [EpdBlock.shape] at hx ⊢; with_reducible exact hx) | (simp only [EpdBlock.shape, List.length_mapIdx, List.length_map, upd_length, put_length] at hx ⊢; with_reducible exact hx) | (simp_all [EpdBlock.shape]; done) | ((repeat' split) <;> first | exact hx | (simp_all [EpdBlock.shape]; done)))
    | (intro x'; clear_value x')
    | intro _
    | dsimp only [s']
    | split

theorem kept_settleReq (a0 : Option ℕ) (a1 : Bool) (h : Kept b p i s) :
    Kept b p i (settleReq a0 a1 s) := by
  unfold settleReq
  repeat' first
    | with_reducible assumption
    | (intro (s : State) (h : Kept b p i s))
    | (intro _ (s : State) (h : Kept b p i s))
    | (intro (h : Kept b p i _))
    | (intro (s' : State); refine_lift have h : Kept b p i s' := ?_; ?_; clear_value s')
    | lift_lets
    | with_reducible apply keptO_next
    | with_reducible apply kept_ite
    | with_reducible apply kept_onEpd
    | with_reducible apply kept_post
    | with_reducible refine kept_foldl ?_ (fun s a h => ?_)
    | (intro (x : EpdBlock) hx; first | (simp only [EpdBlock.shape] at hx ⊢; with_reducible exact hx) | (simp only [EpdBlock.shape, List.length_mapIdx, List.length_map, upd_length, put_length] at hx ⊢; with_reducible exact hx) | (simp_all [EpdBlock.shape]; done) | ((repeat' split) <;> first | exact hx | (simp_all [EpdBlock.shape]; done)))
    | (intro x'; clear_value x')
    | intro _
    | dsimp only [s']
    | split

theorem kept_aim (a0 : Bool) (a1 : ℕ) (a3 : ℕ × ℕ) (h : Kept b p i s) :
    Kept b p i (aim a0 a1 s a3) := by
  unfold aim
  repeat' first
    | with_reducible assumption
    | (intro (s : State) (h : Kept b p i s))
    | (intro _ (s : State) (h : Kept b p i s))
    | (intro (h : Kept b p i _))
    | (intro (s' : State); refine_lift have h : Kept b p i s' := ?_; ?_; clear_value s')
    | lift_lets
    | with_reducible apply keptO_next
    | with_reducible apply kept_ite
    | with_reducible apply kept_settleReq
    | with_reducible apply kept_onSeg
    | with_reducible refine kept_foldl ?_ (fun s a h => ?_)
    | (intro x'; clear_value x')
    | intro _
    | dsimp only [s']
    | split

theorem kept_acceptUpdate (a0 : Option Req) (a1 : List ℕ) (a2 : Bool) (a3 : List ℕ) (h : Kept b p i s) :
    Kept b p i (acceptUpdate a0 a1 a2 a3 s) := by
  unfold acceptUpdate
  repeat' first
    | with_reducible assumption
    | (intro (s : State) (h : Kept b p i s))
    | (intro _ (s : State) (h : Kept b p i s))
    | (intro (h : Kept b p i _))
    | (intro (s' : State); refine_lift have h : Kept b p i s' := ?_; ?_; clear_value s')
    | lift_lets
    | with_reducible apply keptO_next
    | with_reducible apply kept_ite
    | with_reducible apply kept_onEpd
    | with_reducible apply kept_settleReq
    | with_reducible apply kept_aim
    | with_reducible refine kept_foldl ?_ (fun s a h => ?_)
    | (intro (x : EpdBlock) hx; first | (simp only [EpdBlock.shape] at hx ⊢; with_reducible exact hx) | (simp only [EpdBlock.shape, List.length_mapIdx, List.length_map, upd_length, put_length] at hx ⊢; with_reducible exact hx) | (simp_all [EpdBlock.shape]; done) | ((repeat' split) <;> first | exact hx | (simp_all [EpdBlock.shape]; done)))
    | (intro x'; clear_value x')
    | intro _
    | dsimp only [s']
    | split

theorem kept_execEpdUpdate (a0 : Req) (a1 : ℕ) (a2 : ℕ) (a3 : Bytes) (h : Kept b p i s) :
    KeptO b p i (execEpdUpdate a0 a1 a2 a3 s) := by
  unfold execEpdUpdate
  repeat' first
    | with_reducible assumption
    | (intro (s : State) (h : Kept b p i s))
    | (intro _ (s : State) (h : Kept b p i s))
    | (intro (h : Kept b p i _))
    | (intro (s' : State); refine_lift have h : Kept b p i s' := ?_; ?_; clear_value s')
    | lift_lets
    | with_reducible apply keptO_next
    | with_reducible apply kept_ite
    | with_reducible apply keptO_ite
    | with_reducible apply kept_evalBand
    | with_reducible apply kept_guarded
    | with_reducible apply kept_postSts
    | with_reducible apply kept_onEpd
    | with_reducible apply kept_acceptUpdate
    | with_reducible apply kept_pend
    | with_reducible refine kept_foldl ?_ (fun s a h => ?_)
    | (intro (x : EpdBlock) hx; first | (simp only [EpdBlock.shape] at hx ⊢; with_reducible exact hx) | (simp only [EpdBlock.shape, List.length_mapIdx, List.length_map, upd_length, put_length] at hx ⊢; with_reducible exact hx) | (simp_all [EpdBlock.shape]; done) | ((repeat' split) <;> first | exact hx | (simp_all [EpdBlock.shape]; done)))
    | (intro x'; clear_value x')
    | intro _
    | dsimp only [s']
    | split

theorem kept_frameDone (a0 : Bytes) (a2 : ℕ) (h : Kept b p i s) :
    Kept b p i (frameDone a0 s a2) := by
  unfold frameDone
  dsimp only
  repeat' first
    | with_reducible assumption
    | (intro (s : State) (h : Kept b p i s))
    | (intro _ (s : State) (h : Kept b p i s))
    | (intro (h : Kept b p i _))
    | (intro (s' : State); refine_lift have h : Kept b p i s' := ?_; ?_; clear_value s')
    | with_reducible apply keptO_next
    | with_reducible apply kept_ite
    | with_reducible apply kept_onSeg
    | with_reducible apply kept_settleReq
    | with_reducible refine kept_foldl ?_ (fun s a h => ?_)
    | (intro x'; clear_value x')
    | intro _
    | dsimp only [s']
    | split

theorem kept_startWave (a0 : Bytes) (a1 : ℕ) (a2 : ℕ) (a3 : ℕ) (a4 : List ℕ) (a5 : Option ℕ) (h : Kept b p i s) :
    Kept b p i (startWave a0 a1 a2 a3 a4 a5 s) := by
  unfold startWave
  repeat' first
    | with_reducible assumption
    | (intro (s : State) (h : Kept b p i s))
    | (intro _ (s : State) (h : Kept b p i s))
    | (intro (h : Kept b p i _))
    | (intro (s' : State); refine_lift have h : Kept b p i s' := ?_; ?_; clear_value s')
    | lift_lets
    | with_reducible apply keptO_next
    | with_reducible apply kept_ite
    | with_reducible apply kept_onSeg
    | with_reducible apply kept_settleReq
    | with_reducible refine kept_foldl ?_ (fun s a h => ?_)
    | (intro x'; clear_value x')
    | intro _
    | dsimp only [s']
    | split

theorem kept_startSeg (a0 : Bytes) (a2 : ℕ) (h : Kept b p i s) :
    Kept b p i (startSeg a0 s a2) := by
  unfold startSeg
  repeat' first
    | with_reducible assumption
    | (intro (s : State) (h : Kept b p i s))
    | (intro _ (s : State) (h : Kept b p i s))
    | (intro (h : Kept b p i _))
    | (intro (s' : State); refine_lift have h : Kept b p i s' := ?_; ?_; clear_value s')
    | lift_lets
    | with_reducible apply keptO_next
    | with_reducible apply kept_ite
    | with_reducible apply kept_startWave
    | with_reducible apply kept_onSeg
    | with_reducible apply kept_settleReq
    | with_reducible refine kept_foldl ?_ (fun s a h => ?_)
    | (intro x'; clear_value x')
    | intro _
    | dsimp only [s']
    | split

theorem kept_keepJournal (a0 : Bytes) (a1 : Bool) (h : Kept b p i s) :
    Kept b p i (keepJournal a0 a1 s) := by
  unfold keepJournal
  repeat' first
    | with_reducible assumption
    | (intro (s : State) (h : Kept b p i s))
    | (intro _ (s : State) (h : Kept b p i s))
    | (intro (h : Kept b p i _))
    | (intro (s' : State); refine_lift have h : Kept b p i s' := ?_; ?_; clear_value s')
    | lift_lets
    | with_reducible apply keptO_next
    | with_reducible apply kept_ite
    | with_reducible apply kept_onEpd
    | with_reducible refine kept_foldl ?_ (fun s a h => ?_)
    | (intro (x : EpdBlock) hx; first | (simp only [EpdBlock.shape] at hx ⊢; with_reducible exact hx) | (simp only [EpdBlock.shape, List.length_mapIdx, List.length_map, upd_length, put_length] at hx ⊢; with_reducible exact hx) | (simp_all [EpdBlock.shape]; done) | ((repeat' split) <;> first | exact hx | (simp_all [EpdBlock.shape]; done)))
    | (intro x'; clear_value x')
    | intro _
    | dsimp only [s']
    | split

theorem kept_framesDone (a0 : Bytes) (h : Kept b p i s) :
    Kept b p i (framesDone a0 s) := by
  unfold framesDone
  repeat' first
    | with_reducible assumption
    | (intro (s : State) (h : Kept b p i s))
    | (intro _ (s : State) (h : Kept b p i s))
    | (intro (h : Kept b p i _))
    | (intro (s' : State); refine_lift have h : Kept b p i s' := ?_; ?_; clear_value s')
    | lift_lets
    | with_reducible apply keptO_next
    | with_reducible apply kept_ite
    | with_reducible apply kept_frameDone
    | with_reducible apply kept_onEpd
    | with_reducible refine kept_foldl ?_ (fun s a h => ?_)
    | (intro (x : EpdBlock) hx; first | (simp only [EpdBlock.shape] at hx ⊢; with_reducible exact hx) | (simp only [EpdBlock.shape, List.length_mapIdx, List.length_map, upd_length, put_length] at hx ⊢; with_reducible exact hx) | (simp_all [EpdBlock.shape]; done) | ((repeat' split) <;> first | exact hx | (simp_all [EpdBlock.shape]; done)))
    | (intro x'; clear_value x')
    | intro _
    | dsimp only [s']
    | split

theorem kept_takeTable  (h : Kept b p i s) :
    Kept b p i (takeTable s) := by
  unfold takeTable
  repeat' first
    | with_reducible assumption
    | (intro (s : State) (h : Kept b p i s))
    | (intro _ (s : State) (h : Kept b p i s))
    | (intro (h : Kept b p i _))
    | (intro (s' : State); refine_lift have h : Kept b p i s' := ?_; ?_; clear_value s')
    | lift_lets
    | with_reducible apply keptO_next
    | with_reducible apply kept_ite
    | with_reducible apply kept_onEpd
    | with_reducible refine kept_foldl ?_ (fun s a h => ?_)
    | (intro (x : EpdBlock) hx; first | (simp only [EpdBlock.shape] at hx ⊢; with_reducible exact hx) | (simp only [EpdBlock.shape, List.length_mapIdx, List.length_map, upd_length, put_length] at hx ⊢; with_reducible exact hx) | (simp_all [EpdBlock.shape]; done) | ((repeat' split) <;> first | exact hx | (simp_all [EpdBlock.shape]; done)))
    | (intro x'; clear_value x')
    | intro _
    | dsimp only [s']
    | split

theorem kept_execEpdFrame  (h : Kept b p i s) :
    KeptO b p i (execEpdFrame s) := by
  unfold execEpdFrame
  repeat' first
    | with_reducible assumption
    | (intro (s : State) (h : Kept b p i s))
    | (intro _ (s : State) (h : Kept b p i s))
    | (intro (h : Kept b p i _))
    | (intro (s' : State); refine_lift have h : Kept b p i s' := ?_; ?_; clear_value s')
    | lift_lets
    | with_reducible apply keptO_next
    | with_reducible apply kept_ite
    | with_reducible apply keptO_ite
    | with_reducible apply kept_evalBand
    | with_reducible apply kept_framesDone
    | with_reducible apply kept_onEpd
    | with_reducible apply kept_takeTable
    | with_reducible apply kept_startSeg
    | with_reducible apply kept_keepJournal
    | with_reducible refine kept_foldl ?_ (fun s a h => ?_)
    | (intro (x : EpdBlock) hx; first | (simp only [EpdBlock.shape] at hx ⊢; with_reducible exact hx) | (simp only [EpdBlock.shape, List.length_mapIdx, List.length_map, upd_length, put_length] at hx ⊢; with_reducible exact hx) | (simp_all [EpdBlock.shape]; done) | ((repeat' split) <;> first | exact hx | (simp_all [EpdBlock.shape]; done)))
    | (intro x'; clear_value x')
    | intro _
    | dsimp only [s']
    | split

theorem kept_execLegalDwell  (h : Kept b p i s) :
    KeptO b p i (execLegalDwell s) := by
  unfold execLegalDwell
  repeat' first
    | with_reducible assumption
    | (intro (s : State) (h : Kept b p i s))
    | (intro _ (s : State) (h : Kept b p i s))
    | (intro (h : Kept b p i _))
    | (intro (s' : State); refine_lift have h : Kept b p i s' := ?_; ?_; clear_value s')
    | lift_lets
    | with_reducible apply keptO_next
    | with_reducible apply kept_ite
    | with_reducible apply keptO_ite
    | with_reducible apply kept_evalBand
    | with_reducible apply kept_onEpd
    | with_reducible apply kept_acceptUpdate
    | with_reducible refine kept_foldl ?_ (fun s a h => ?_)
    | (intro (x : EpdBlock) hx; first | (simp only [EpdBlock.shape] at hx ⊢; with_reducible exact hx) | (simp only [EpdBlock.shape, List.length_mapIdx, List.length_map, upd_length, put_length] at hx ⊢; with_reducible exact hx) | (simp_all [EpdBlock.shape]; done) | ((repeat' split) <;> first | exact hx | (simp_all [EpdBlock.shape]; done)))
    | (intro x'; clear_value x')
    | intro _
    | dsimp only [s']
    | split

theorem kept_execEpdStop  (h : Kept b p i s) :
    KeptO b p i (execEpdStop s) := by
  unfold execEpdStop
  repeat' first
    | with_reducible assumption
    | (intro (s : State) (h : Kept b p i s))
    | (intro _ (s : State) (h : Kept b p i s))
    | (intro (h : Kept b p i _))
    | (intro (s' : State); refine_lift have h : Kept b p i s' := ?_; ?_; clear_value s')
    | lift_lets
    | with_reducible apply keptO_next
    | with_reducible apply kept_ite
    | with_reducible apply keptO_ite
    | with_reducible apply kept_keepJournal
    | with_reducible apply kept_framesDone
    | with_reducible apply kept_logEv
    | with_reducible apply kept_onSys
    | with_reducible apply kept_onEpd
    | with_reducible refine kept_foldl ?_ (fun s a h => ?_)
    | (intro (x : EpdBlock) hx; first | (simp only [EpdBlock.shape] at hx ⊢; with_reducible exact hx) | (simp only [EpdBlock.shape, List.length_mapIdx, List.length_map, upd_length, put_length] at hx ⊢; with_reducible exact hx) | (simp_all [EpdBlock.shape]; done) | ((repeat' split) <;> first | exact hx | (simp_all [EpdBlock.shape]; done)))
    | (intro (x : SysBlock) hx; first | exact hx | exact ⟨Nat.zero_le _, hx.2⟩)
    | (intro x'; clear_value x')
    | intro _
    | dsimp only [s']
    | split

theorem kept_recoverSeg (a0 : Bytes) (a2 : ℕ × ℕ × ℕ × ℕ × ℕ) (h : Kept b p i s) :
    Kept b p i (recoverSeg a0 s a2) := by
  unfold recoverSeg
  repeat' first
    | with_reducible assumption
    | (intro (s : State) (h : Kept b p i s))
    | (intro _ (s : State) (h : Kept b p i s))
    | (intro (h : Kept b p i _))
    | (intro (s' : State); refine_lift have h : Kept b p i s' := ?_; ?_; clear_value s')
    | lift_lets
    | with_reducible apply keptO_next
    | with_reducible apply kept_ite
    | with_reducible apply kept_onSeg
    | with_reducible refine kept_foldl ?_ (fun s a h => ?_)
    | (intro x'; clear_value x')
    | intro _
    | dsimp only [s']
    | split

theorem kept_unknownAll (h : Kept b p i s) : Kept b p i (unknownAll s) := by
  unfold unknownAll
  refine kept_onEpd h fun x hx => ?_
  simp only [EpdBlock.shape, List.length_replicate, List.cons.injEq, and_true] at hx ⊢
  exact ⟨trivial, hx.2⟩

theorem kept_startEpd  (h : Kept b p i s) :
    Kept b p i (startEpd s) := by
  unfold startEpd
  repeat' first
    | with_reducible assumption
    | (intro (s : State) (h : Kept b p i s))
    | (intro _ (s : State) (h : Kept b p i s))
    | (intro (h : Kept b p i _))
    | (intro (s' : State); refine_lift have h : Kept b p i s' := ?_; ?_; clear_value s')
    | lift_lets
    | with_reducible apply keptO_next
    | with_reducible apply kept_ite
    | with_reducible apply kept_evalBand
    | with_reducible apply kept_onEpd
    | with_reducible apply kept_unknownAll
    | with_reducible apply kept_logEv
    | with_reducible apply kept_recoverSeg
    | with_reducible refine kept_foldl ?_ (fun s a h => ?_)
    | (intro (x : EpdBlock) hx; first | (simp only [EpdBlock.shape] at hx ⊢; with_reducible exact hx) | (simp only [EpdBlock.shape, List.length_mapIdx, List.length_map, upd_length, put_length] at hx ⊢; with_reducible exact hx) | (simp_all [EpdBlock.shape]; done) | ((repeat' split) <;> first | exact hx | (simp_all [EpdBlock.shape]; done)))
    | (intro x'; clear_value x')
    | intro _
    | dsimp only [s']
    | split

theorem kept_epdCtlWrite (a0 : ℕ) (h : Kept b p i s) :
    Kept b p i (epdCtlWrite a0 s) := by
  unfold epdCtlWrite
  repeat' first
    | with_reducible assumption
    | (intro (s : State) (h : Kept b p i s))
    | (intro _ (s : State) (h : Kept b p i s))
    | (intro (h : Kept b p i _))
    | (intro (s' : State); refine_lift have h : Kept b p i s' := ?_; ?_; clear_value s')
    | lift_lets
    | with_reducible apply keptO_next
    | with_reducible apply kept_ite
    | with_reducible apply kept_onEpd
    | with_reducible refine kept_foldl ?_ (fun s a h => ?_)
    | (intro (x : EpdBlock) hx; first | (simp only [EpdBlock.shape] at hx ⊢; with_reducible exact hx) | (simp only [EpdBlock.shape, List.length_mapIdx, List.length_map, upd_length, put_length] at hx ⊢; with_reducible exact hx) | (simp_all [EpdBlock.shape]; done) | ((repeat' split) <;> first | exact hx | (simp_all [EpdBlock.shape]; done)))
    | (intro x'; clear_value x')
    | intro _
    | dsimp only [s']
    | split

theorem kept_crackMeasure (a0 : ℕ) (a1 : Bool) (h : Kept b p i s) :
    Kept b p i (crackMeasure a0 a1 s) := by
  unfold crackMeasure
  repeat' first
    | with_reducible assumption
    | (intro (s : State) (h : Kept b p i s))
    | (intro _ (s : State) (h : Kept b p i s))
    | (intro (h : Kept b p i _))
    | (intro (s' : State); refine_lift have h : Kept b p i s' := ?_; ?_; clear_value s')
    | lift_lets
    | with_reducible apply keptO_next
    | with_reducible apply kept_ite
    | with_reducible apply kept_onEpd
    | with_reducible apply kept_logEv
    | with_reducible refine kept_foldl ?_ (fun s a h => ?_)
    | (intro (x : EpdBlock) hx; first | (simp only [EpdBlock.shape] at hx ⊢; with_reducible exact hx) | (simp only [EpdBlock.shape, List.length_mapIdx, List.length_map, upd_length, put_length] at hx ⊢; with_reducible exact hx) | (simp_all [EpdBlock.shape]; done) | ((repeat' split) <;> first | exact hx | (simp_all [EpdBlock.shape]; done)))
    | (intro x'; clear_value x')
    | intro _
    | dsimp only [s']
    | split

theorem kept_onLed (a0 : ℕ) (a1 : Led → Led) (h : Kept b p i s) :
    Kept b p i (onLed a0 a1 s) := by
  unfold onLed
  repeat' first
    | with_reducible assumption
    | (intro (s : State) (h : Kept b p i s))
    | (intro _ (s : State) (h : Kept b p i s))
    | (intro (h : Kept b p i _))
    | (intro (s' : State); refine_lift have h : Kept b p i s' := ?_; ?_; clear_value s')
    | lift_lets
    | with_reducible apply keptO_next
    | with_reducible apply kept_ite
    | with_reducible apply kept_onEpd
    | with_reducible refine kept_foldl ?_ (fun s a h => ?_)
    | (intro (x : EpdBlock) hx; first | (simp only [EpdBlock.shape] at hx ⊢; with_reducible exact hx) | (simp only [EpdBlock.shape, List.length_mapIdx, List.length_map, upd_length, put_length] at hx ⊢; with_reducible exact hx) | (simp_all [EpdBlock.shape]; done) | ((repeat' split) <;> first | exact hx | (simp_all [EpdBlock.shape]; done)))
    | (intro x'; clear_value x')
    | intro _
    | dsimp only [s']
    | split

theorem kept_execLedStep (a0 : ℕ) (h : Kept b p i s) :
    KeptO b p i (execLedStep a0 s) := by
  unfold execLedStep
  repeat' first
    | with_reducible assumption
    | (intro (s : State) (h : Kept b p i s))
    | (intro _ (s : State) (h : Kept b p i s))
    | (intro (h : Kept b p i _))
    | (intro (s' : State); refine_lift have h : Kept b p i s' := ?_; ?_; clear_value s')
    | lift_lets
    | with_reducible apply keptO_next
    | with_reducible apply kept_ite
    | with_reducible apply keptO_ite
    | with_reducible apply kept_onEpd
    | with_reducible refine kept_foldl ?_ (fun s a h => ?_)
    | (intro (x : EpdBlock) hx; first | (simp only [EpdBlock.shape] at hx ⊢; with_reducible exact hx) | (simp only [EpdBlock.shape, List.length_mapIdx, List.length_map, upd_length, put_length] at hx ⊢; with_reducible exact hx) | (simp_all [EpdBlock.shape]; done) | ((repeat' split) <;> first | exact hx | (simp_all [EpdBlock.shape]; done)))
    | (intro x'; clear_value x')
    | intro _
    | dsimp only [s']
    | split

theorem kept_execLedOpen (a0 : ℕ) (a1 : Bool) (h : Kept b p i s) :
    KeptO b p i (execLedOpen a0 a1 s) := by
  unfold execLedOpen
  repeat' first
    | with_reducible assumption
    | (intro (s : State) (h : Kept b p i s))
    | (intro _ (s : State) (h : Kept b p i s))
    | (intro (h : Kept b p i _))
    | (intro (s' : State); refine_lift have h : Kept b p i s' := ?_; ?_; clear_value s')
    | lift_lets
    | with_reducible apply keptO_next
    | with_reducible apply kept_ite
    | with_reducible apply keptO_ite
    | with_reducible apply kept_onLed
    | with_reducible apply kept_logEv
    | with_reducible refine kept_foldl ?_ (fun s a h => ?_)
    | (intro x'; clear_value x')
    | intro _
    | dsimp only [s']
    | split

theorem kept_execLedOvertemp (a0 : ℕ) (a1 : Bool) (h : Kept b p i s) :
    KeptO b p i (execLedOvertemp a0 a1 s) := by
  unfold execLedOvertemp
  repeat' first
    | with_reducible assumption
    | (intro (s : State) (h : Kept b p i s))
    | (intro _ (s : State) (h : Kept b p i s))
    | (intro (h : Kept b p i _))
    | (intro (s' : State); refine_lift have h : Kept b p i s' := ?_; ?_; clear_value s')
    | lift_lets
    | with_reducible apply keptO_next
    | with_reducible apply kept_ite
    | with_reducible apply keptO_ite
    | with_reducible apply kept_onLed
    | with_reducible refine kept_foldl ?_ (fun s a h => ?_)
    | (intro x'; clear_value x')
    | intro _
    | dsimp only [s']
    | split

theorem kept_ledCtlWrite (a0 : ℕ) (a1 : ℕ) (h : Kept b p i s) :
    Kept b p i (ledCtlWrite a0 a1 s) := by
  unfold ledCtlWrite
  repeat' first
    | with_reducible assumption
    | (intro (s : State) (h : Kept b p i s))
    | (intro _ (s : State) (h : Kept b p i s))
    | (intro (h : Kept b p i _))
    | (intro (s' : State); refine_lift have h : Kept b p i s' := ?_; ?_; clear_value s')
    | lift_lets
    | with_reducible apply keptO_next
    | with_reducible apply kept_ite
    | with_reducible apply kept_onLed
    | with_reducible refine kept_foldl ?_ (fun s a h => ?_)
    | (intro x'; clear_value x')
    | intro _
    | dsimp only [s']
    | split

theorem kept_ledPatWrite (a0 : ℕ) (a1 : ℕ) (h : Kept b p i s) :
    Kept b p i (ledPatWrite a0 a1 s) := by
  unfold ledPatWrite
  repeat' first
    | with_reducible assumption
    | (intro (s : State) (h : Kept b p i s))
    | (intro _ (s : State) (h : Kept b p i s))
    | (intro (h : Kept b p i _))
    | (intro (s' : State); refine_lift have h : Kept b p i s' := ?_; ?_; clear_value s')
    | lift_lets
    | with_reducible apply keptO_next
    | with_reducible apply kept_ite
    | with_reducible apply kept_onLed
    | with_reducible refine kept_foldl ?_ (fun s a h => ?_)
    | (intro x'; clear_value x')
    | intro _
    | dsimp only [s']
    | split

end Sys2Proof.Machine
end

