-- ==== Sys2Proof/Laws/KeptUpdate.lean ====
section
/-! SUPPORT. What the operations of Update.lean keep. -/

set_option linter.unusedSimpArgs false
set_option linter.unusedVariables false
set_option linter.unreachableTactic false
set_option linter.unusedTactic false

namespace Sys2Proof.Machine

variable {b : Prop} {p : List Instr} {i : Ident} {s : State}

theorem kept_onKind (a0 : ℕ) (a1 : Kind → Kind) (h : Kept b p i s) :
    Kept b p i (onKind a0 a1 s) := by
  unfold onKind
  repeat' first
    | with_reducible assumption
    | (intro (s : State) (h : Kept b p i s))
    | (intro _ (s : State) (h : Kept b p i s))
    | (intro (h : Kept b p i _))
    | (intro (s' : State); refine_lift have h : Kept b p i s' := ?_; ?_; clear_value s')
    | lift_lets
    | with_reducible apply keptO_next
    | with_reducible apply kept_ite
    | with_reducible apply kept_onUpd
    | with_reducible refine kept_foldl ?_ (fun s a h => ?_)
    | (intro (x : UpdBlock) hx; first | (simp only [UpdBlock.shape] at hx ⊢; with_reducible exact hx) | (simp only [UpdBlock.shape, List.length_mapIdx, List.length_map, upd_length, put_length] at hx ⊢; with_reducible exact hx) | (simp_all [UpdBlock.shape]; done) | ((repeat' split) <;> first | exact hx | (simp_all [UpdBlock.shape]; done)))
    | (intro x'; clear_value x')
    | intro _
    | dsimp only [s']
    | split

theorem kept_setBank (a0 : ℕ) (a1 : Bool) (a2 : Bank) (h : Kept b p i s) :
    Kept b p i (setBank a0 a1 a2 s) := by
  unfold setBank
  repeat' first
    | with_reducible assumption
    | (intro (s : State) (h : Kept b p i s))
    | (intro _ (s : State) (h : Kept b p i s))
    | (intro (h : Kept b p i _))
    | (intro (s' : State); refine_lift have h : Kept b p i s' := ?_; ?_; clear_value s')
    | lift_lets
    | with_reducible apply keptO_next
    | with_reducible apply kept_ite
    | with_reducible apply kept_onKind
    | with_reducible refine kept_foldl ?_ (fun s a h => ?_)
    | (intro x'; clear_value x')
    | intro _
    | dsimp only [s']
    | split

theorem kept_markBank (a0 : ℕ) (a1 : Bool) (a2 : BankState) (h : Kept b p i s) :
    Kept b p i (markBank a0 a1 a2 s) := by
  unfold markBank
  repeat' first
    | with_reducible assumption
    | (intro (s : State) (h : Kept b p i s))
    | (intro _ (s : State) (h : Kept b p i s))
    | (intro (h : Kept b p i _))
    | (intro (s' : State); refine_lift have h : Kept b p i s' := ?_; ?_; clear_value s')
    | lift_lets
    | with_reducible apply keptO_next
    | with_reducible apply kept_ite
    | with_reducible apply kept_onKind
    | with_reducible refine kept_foldl ?_ (fun s a h => ?_)
    | (intro x'; clear_value x')
    | intro _
    | dsimp only [s']
    | split

theorem kept_onSettings (a0 : ℕ) (a1 : Settings → Settings) (h : Kept b p i s) :
    Kept b p i (onSettings a0 a1 s) := by
  unfold onSettings
  repeat' first
    | with_reducible assumption
    | (intro (s : State) (h : Kept b p i s))
    | (intro _ (s : State) (h : Kept b p i s))
    | (intro (h : Kept b p i _))
    | (intro (s' : State); refine_lift have h : Kept b p i s' := ?_; ?_; clear_value s')
    | lift_lets
    | with_reducible apply keptO_next
    | with_reducible apply kept_ite
    | with_reducible apply kept_onUpd
    | with_reducible refine kept_foldl ?_ (fun s a h => ?_)
    | (intro (x : UpdBlock) hx; first | (simp only [UpdBlock.shape] at hx ⊢; with_reducible exact hx) | (simp only [UpdBlock.shape, List.length_mapIdx, List.length_map, upd_length, put_length] at hx ⊢; with_reducible exact hx) | (simp_all [UpdBlock.shape]; done) | ((repeat' split) <;> first | exact hx | (simp_all [UpdBlock.shape]; done)))
    | (intro x'; clear_value x')
    | intro _
    | dsimp only [s']
    | split

theorem kept_keepReject (a0 : ℕ) (a1 : ℕ) (h : Kept b p i s) :
    Kept b p i (keepReject a0 a1 s) := by
  unfold keepReject
  repeat' first
    | with_reducible assumption
    | (intro (s : State) (h : Kept b p i s))
    | (intro _ (s : State) (h : Kept b p i s))
    | (intro (h : Kept b p i _))
    | (intro (s' : State); refine_lift have h : Kept b p i s' := ?_; ?_; clear_value s')
    | lift_lets
    | with_reducible apply keptO_next
    | with_reducible apply kept_ite
    | with_reducible apply kept_onUpd
    | with_reducible refine kept_foldl ?_ (fun s a h => ?_)
    | (intro (x : UpdBlock) hx; first | (simp only [UpdBlock.shape] at hx ⊢; with_reducible exact hx) | (simp only [UpdBlock.shape, List.length_mapIdx, List.length_map, upd_length, put_length] at hx ⊢; with_reducible exact hx) | (simp_all [UpdBlock.shape]; done) | ((repeat' split) <;> first | exact hx | (simp_all [UpdBlock.shape]; done)))
    | (intro x'; clear_value x')
    | intro _
    | dsimp only [s']
    | split

theorem kept_logUpdReject (a0 : EvClass) (a1 : ℕ) (a2 : Bytes) (h : Kept b p i s) :
    Kept b p i (logUpdReject a0 a1 a2 s) := by
  unfold logUpdReject
  repeat' first
    | with_reducible assumption
    | (intro (s : State) (h : Kept b p i s))
    | (intro _ (s : State) (h : Kept b p i s))
    | (intro (h : Kept b p i _))
    | (intro (s' : State); refine_lift have h : Kept b p i s' := ?_; ?_; clear_value s')
    | lift_lets
    | with_reducible apply keptO_next
    | with_reducible apply kept_ite
    | with_reducible apply kept_logEv
    | with_reducible refine kept_foldl ?_ (fun s a h => ?_)
    | (intro x'; clear_value x')
    | intro _
    | dsimp only [s']
    | split

theorem kept_eraseOther (a0 : ℕ) (h : Kept b p i s) :
    Kept b p i (eraseOther a0 s) := by
  unfold eraseOther
  repeat' first
    | with_reducible assumption
    | (intro (s : State) (h : Kept b p i s))
    | (intro _ (s : State) (h : Kept b p i s))
    | (intro (h : Kept b p i _))
    | (intro (s' : State); refine_lift have h : Kept b p i s' := ?_; ?_; clear_value s')
    | lift_lets
    | with_reducible apply keptO_next
    | with_reducible apply kept_ite
    | with_reducible apply kept_setBank
    | with_reducible apply kept_onStr
    | with_reducible refine kept_foldl ?_ (fun s a h => ?_)
    | (intro x'; clear_value x')
    | intro _
    | dsimp only [s']
    | split

theorem kept_updBegin (a0 : Req) (a1 : Bytes) (h : Kept b p i s) :
    Kept b p i (updBegin a0 a1 s) := by
  unfold updBegin
  dsimp only
  repeat' first
    | with_reducible assumption
    | (intro (s : State) (h : Kept b p i s))
    | (intro _ (s : State) (h : Kept b p i s))
    | (intro (h : Kept b p i _))
    | (intro (s' : State); refine_lift have h : Kept b p i s' := ?_; ?_; clear_value s')
    | with_reducible apply keptO_next
    | with_reducible apply kept_ite
    | with_reducible apply kept_keepReject
    | with_reducible apply kept_askKey
    | with_reducible apply kept_postSts
    | with_reducible apply kept_logUpdReject
    | with_reducible apply kept_eraseOther
    | with_reducible apply kept_setBank
    | with_reducible apply kept_onUpd
    | with_reducible refine kept_foldl ?_ (fun s a h => ?_)
    | (intro (x : UpdBlock) hx; first | (simp only [UpdBlock.shape] at hx ⊢; with_reducible exact hx) | (simp only [UpdBlock.shape, List.length_mapIdx, List.length_map, upd_length, put_length] at hx ⊢; with_reducible exact hx) | (simp_all [UpdBlock.shape]; done) | ((repeat' split) <;> first | exact hx | (simp_all [UpdBlock.shape]; done)))
    | (intro x'; clear_value x')
    | intro _
    | dsimp only [s']
    | split

theorem kept_execUpdBegin (a0 : Req) (a1 : Bytes) (h : Kept b p i s) :
    KeptO b p i (execUpdBegin a0 a1 s) := by
  unfold execUpdBegin
  repeat' first
    | with_reducible assumption
    | (intro (s : State) (h : Kept b p i s))
    | (intro _ (s : State) (h : Kept b p i s))
    | (intro (h : Kept b p i _))
    | (intro (s' : State); refine_lift have h : Kept b p i s' := ?_; ?_; clear_value s')
    | lift_lets
    | with_reducible apply keptO_next
    | with_reducible apply kept_ite
    | with_reducible apply keptO_ite
    | with_reducible apply kept_badgerCmd
    | with_reducible apply kept_updBegin
    | with_reducible refine kept_foldl ?_ (fun s a h => ?_)
    | (intro x'; clear_value x')
    | intro _
    | dsimp only [s']
    | split

theorem kept_closeTransfer  (h : Kept b p i s) :
    Kept b p i (closeTransfer s) := by
  unfold closeTransfer
  repeat' first
    | with_reducible assumption
    | (intro (s : State) (h : Kept b p i s))
    | (intro _ (s : State) (h : Kept b p i s))
    | (intro (h : Kept b p i _))
    | (intro (s' : State); refine_lift have h : Kept b p i s' := ?_; ?_; clear_value s')
    | lift_lets
    | with_reducible apply keptO_next
    | with_reducible apply kept_ite
    | with_reducible apply kept_onUpd
    | with_reducible apply kept_eraseOther
    | with_reducible refine kept_foldl ?_ (fun s a h => ?_)
    | (intro (x : UpdBlock) hx; first | (simp only [UpdBlock.shape] at hx ⊢; with_reducible exact hx) | (simp only [UpdBlock.shape, List.length_mapIdx, List.length_map, upd_length, put_length] at hx ⊢; with_reducible exact hx) | (simp_all [UpdBlock.shape]; done) | ((repeat' split) <;> first | exact hx | (simp_all [UpdBlock.shape]; done)))
    | (intro x'; clear_value x')
    | intro _
    | dsimp only [s']
    | split

theorem kept_updData (a0 : Req) (a1 : ℕ) (a2 : Bytes) (h : Kept b p i s) :
    Kept b p i (updData a0 a1 a2 s) := by
  unfold updData
  repeat' first
    | with_reducible assumption
    | (intro (s : State) (h : Kept b p i s))
    | (intro _ (s : State) (h : Kept b p i s))
    | (intro (h : Kept b p i _))
    | (intro (s' : State); refine_lift have h : Kept b p i s' := ?_; ?_; clear_value s')
    | lift_lets
    | with_reducible apply keptO_next
    | with_reducible apply kept_ite
    | with_reducible apply kept_postSts
    | with_reducible apply kept_onUpd
    | with_reducible refine kept_foldl ?_ (fun s a h => ?_)
    | (intro (x : UpdBlock) hx; first | (simp only [UpdBlock.shape] at hx ⊢; with_reducible exact hx) | (simp only [UpdBlock.shape, List.length_mapIdx, List.length_map, upd_length, put_length] at hx ⊢; with_reducible exact hx) | (simp_all [UpdBlock.shape]; done) | ((repeat' split) <;> first | exact hx | (simp_all [UpdBlock.shape]; done)))
    | (intro x'; clear_value x')
    | intro _
    | dsimp only [s']
    | split

theorem kept_execUpdData (a0 : Req) (a1 : ℕ) (a2 : Bytes) (h : Kept b p i s) :
    KeptO b p i (execUpdData a0 a1 a2 s) := by
  unfold execUpdData
  repeat' first
    | with_reducible assumption
    | (intro (s : State) (h : Kept b p i s))
    | (intro _ (s : State) (h : Kept b p i s))
    | (intro (h : Kept b p i _))
    | (intro (s' : State); refine_lift have h : Kept b p i s' := ?_; ?_; clear_value s')
    | lift_lets
    | with_reducible apply keptO_next
    | with_reducible apply kept_ite
    | with_reducible apply keptO_ite
    | with_reducible apply kept_badgerCmd
    | with_reducible apply kept_updData
    | with_reducible refine kept_foldl ?_ (fun s a h => ?_)
    | (intro x'; clear_value x')
    | intro _
    | dsimp only [s']
    | split

theorem kept_updEnd (a0 : Req) (h : Kept b p i s) :
    Kept b p i (updEnd a0 s) := by
  unfold updEnd
  repeat' first
    | with_reducible assumption
    | (intro (s : State) (h : Kept b p i s))
    | (intro _ (s : State) (h : Kept b p i s))
    | (intro (h : Kept b p i _))
    | (intro (s' : State); refine_lift have h : Kept b p i s' := ?_; ?_; clear_value s')
    | lift_lets
    | with_reducible apply keptO_next
    | with_reducible apply kept_ite
    | with_reducible apply kept_postSts
    | with_reducible apply kept_logUpdReject
    | with_reducible apply kept_keepReject
    | with_reducible apply kept_closeTransfer
    | with_reducible apply kept_setBank
    | with_reducible apply kept_onStr
    | with_reducible apply kept_logEv
    | with_reducible apply kept_onUpd
    | with_reducible refine kept_foldl ?_ (fun s a h => ?_)
    | (intro (x : UpdBlock) hx; first | (simp only [UpdBlock.shape] at hx ⊢; with_reducible exact hx) | (simp only [UpdBlock.shape, List.length_mapIdx, List.length_map, upd_length, put_length] at hx ⊢; with_reducible exact hx) | (simp_all [UpdBlock.shape]; done) | ((repeat' split) <;> first | exact hx | (simp_all [UpdBlock.shape]; done)))
    | (intro x'; clear_value x')
    | intro _
    | dsimp only [s']
    | split

theorem kept_execUpdEnd (a0 : Req) (h : Kept b p i s) :
    KeptO b p i (execUpdEnd a0 s) := by
  unfold execUpdEnd
  repeat' first
    | with_reducible assumption
    | (intro (s : State) (h : Kept b p i s))
    | (intro _ (s : State) (h : Kept b p i s))
    | (intro (h : Kept b p i _))
    | (intro (s' : State); refine_lift have h : Kept b p i s' := ?_; ?_; clear_value s')
    | lift_lets
    | with_reducible apply keptO_next
    | with_reducible apply kept_ite
    | with_reducible apply keptO_ite
    | with_reducible apply kept_badgerCmd
    | with_reducible apply kept_updEnd
    | with_reducible refine kept_foldl ?_ (fun s a h => ?_)
    | (intro x'; clear_value x')
    | intro _
    | dsimp only [s']
    | split

theorem kept_updAbort (a0 : Req) (h : Kept b p i s) :
    Kept b p i (updAbort a0 s) := by
  unfold updAbort
  repeat' first
    | with_reducible assumption
    | (intro (s : State) (h : Kept b p i s))
    | (intro _ (s : State) (h : Kept b p i s))
    | (intro (h : Kept b p i _))
    | (intro (s' : State); refine_lift have h : Kept b p i s' := ?_; ?_; clear_value s')
    | lift_lets
    | with_reducible apply keptO_next
    | with_reducible apply kept_ite
    | with_reducible apply kept_guarded
    | with_reducible apply kept_postSts
    | with_reducible apply kept_closeTransfer
    | with_reducible refine kept_foldl ?_ (fun s a h => ?_)
    | (intro x'; clear_value x')
    | intro _
    | dsimp only [s']
    | split

theorem kept_execUpdAbort (a0 : Req) (h : Kept b p i s) :
    KeptO b p i (execUpdAbort a0 s) := by
  unfold execUpdAbort
  repeat' first
    | with_reducible assumption
    | (intro (s : State) (h : Kept b p i s))
    | (intro _ (s : State) (h : Kept b p i s))
    | (intro (h : Kept b p i _))
    | (intro (s' : State); refine_lift have h : Kept b p i s' := ?_; ?_; clear_value s')
    | lift_lets
    | with_reducible apply keptO_next
    | with_reducible apply kept_ite
    | with_reducible apply keptO_ite
    | with_reducible apply kept_badgerCmd
    | with_reducible apply kept_updAbort
    | with_reducible refine kept_foldl ?_ (fun s a h => ?_)
    | (intro x'; clear_value x')
    | intro _
    | dsimp only [s']
    | split

theorem kept_execUpdTransferTimeout  (h : Kept b p i s) :
    KeptO b p i (execUpdTransferTimeout s) := by
  unfold execUpdTransferTimeout
  repeat' first
    | with_reducible assumption
    | (intro (s : State) (h : Kept b p i s))
    | (intro _ (s : State) (h : Kept b p i s))
    | (intro (h : Kept b p i _))
    | (intro (s' : State); refine_lift have h : Kept b p i s' := ?_; ?_; clear_value s')
    | lift_lets
    | with_reducible apply keptO_next
    | with_reducible apply kept_ite
    | with_reducible apply keptO_ite
    | with_reducible apply kept_closeTransfer
    | with_reducible refine kept_foldl ?_ (fun s a h => ?_)
    | (intro x'; clear_value x')
    | intro _
    | dsimp only [s']
    | split

theorem kept_startCluster  (h : Kept b p i s) :
    Kept b p i (startCluster s) := by
  unfold startCluster
  repeat' first
    | with_reducible assumption
    | (intro (s : State) (h : Kept b p i s))
    | (intro _ (s : State) (h : Kept b p i s))
    | (intro (h : Kept b p i _))
    | (exact kept_sram h fun _ _ => rfl)
    | (intro (s' : State); refine_lift have h : Kept b p i s' := ?_; ?_; clear_value s')
    | lift_lets
    | with_reducible apply keptO_next
    | with_reducible apply kept_ite
    | with_reducible apply kept_onMgt
    | with_reducible refine kept_foldl ?_ (fun s a h => ?_)
    | (intro (x : MgtBlock) hx; first | exact hx | exact ⟨Nat.zero_le _, Nat.zero_le _⟩ | exact ⟨hx.1, Nat.zero_le _⟩)
    | (intro x'; clear_value x')
    | intro _
    | dsimp only [s']
    | split

theorem kept_stopBadger  (h : Kept b p i s) :
    Kept b p i (stopBadger s) := by
  unfold stopBadger
  repeat' first
    | with_reducible assumption
    | (intro (s : State) (h : Kept b p i s))
    | (intro _ (s : State) (h : Kept b p i s))
    | (intro (h : Kept b p i _))
    | (intro (s' : State); refine_lift have h : Kept b p i s' := ?_; ?_; clear_value s')
    | lift_lets
    | with_reducible apply keptO_next
    | with_reducible apply kept_ite
    | with_reducible apply kept_onMgt
    | with_reducible apply kept_onSys
    | with_reducible refine kept_foldl ?_ (fun s a h => ?_)
    | (intro (x : SysBlock) hx; first | exact hx | exact ⟨Nat.zero_le _, hx.2⟩)
    | (intro (x : MgtBlock) hx; first | exact hx | exact ⟨Nat.zero_le _, Nat.zero_le _⟩ | exact ⟨hx.1, Nat.zero_le _⟩)
    | (intro x'; clear_value x')
    | intro _
    | dsimp only [s']
    | split

theorem kept_startKind (a0 : ℕ) (h : Kept b p i s) :
    Kept b p i (startKind a0 s) := by
  unfold startKind
  repeat' first
    | with_reducible assumption
    | (intro (s : State) (h : Kept b p i s))
    | (intro _ (s : State) (h : Kept b p i s))
    | (intro (h : Kept b p i _))
    | (intro (s' : State); refine_lift have h : Kept b p i s' := ?_; ?_; clear_value s')
    | lift_lets
    | with_reducible apply keptO_next
    | with_reducible apply kept_ite
    | with_reducible apply kept_startCluster
    | with_reducible apply kept_stopBadger
    | with_reducible apply kept_slacCheck
    | with_reducible apply kept_slacOff
    | with_reducible apply kept_glkAfterWatch
    | with_reducible apply kept_abandonMsdu
    | with_reducible apply kept_dropMember
    | with_reducible refine kept_foldl ?_ (fun s a h => ?_)
    | (intro x'; clear_value x')
    | intro _
    | dsimp only [s']
    | split

theorem kept_migrate (a0 : ℕ) (a1 : Bank) (h : Kept b p i s) :
    Kept b p i (migrate a0 a1 s) := by
  unfold migrate
  repeat' first
    | with_reducible assumption
    | (intro (s : State) (h : Kept b p i s))
    | (intro _ (s : State) (h : Kept b p i s))
    | (intro (h : Kept b p i _))
    | (intro (s' : State); refine_lift have h : Kept b p i s' := ?_; ?_; clear_value s')
    | lift_lets
    | with_reducible apply keptO_next
    | with_reducible apply kept_ite
    | with_reducible apply kept_bump
    | with_reducible apply kept_onSettings
    | with_reducible refine kept_foldl ?_ (fun s a h => ?_)
    | (intro x'; clear_value x')
    | intro _
    | dsimp only [s']
    | split

theorem kept_logMigrate (a0 : ℕ) (a1 : ℕ) (a2 : ℕ) (a3 : ℕ) (a4 : ℕ) (h : Kept b p i s) :
    Kept b p i (logMigrate a0 a1 a2 a3 a4 s) := by
  unfold logMigrate
  repeat' first
    | with_reducible assumption
    | (intro (s : State) (h : Kept b p i s))
    | (intro _ (s : State) (h : Kept b p i s))
    | (intro (h : Kept b p i _))
    | (intro (s' : State); refine_lift have h : Kept b p i s' := ?_; ?_; clear_value s')
    | lift_lets
    | with_reducible apply keptO_next
    | with_reducible apply kept_ite
    | with_reducible apply kept_logEv
    | with_reducible refine kept_foldl ?_ (fun s a h => ?_)
    | (intro x'; clear_value x')
    | intro _
    | dsimp only [s']
    | split

theorem kept_endMigration (a0 : ℕ) (a1 : Bool) (h : Kept b p i s) :
    Kept b p i (endMigration a0 a1 s) := by
  unfold endMigration
  repeat' first
    | with_reducible assumption
    | (intro (s : State) (h : Kept b p i s))
    | (intro _ (s : State) (h : Kept b p i s))
    | (intro (h : Kept b p i _))
    | (intro (s' : State); refine_lift have h : Kept b p i s' := ?_; ?_; clear_value s')
    | lift_lets
    | with_reducible apply keptO_next
    | with_reducible apply kept_ite
    | with_reducible apply kept_onSettings
    | with_reducible apply kept_logMigrate
    | with_reducible refine kept_foldl ?_ (fun s a h => ?_)
    | (intro x'; clear_value x')
    | intro _
    | dsimp only [s']
    | split

theorem kept_takeBank (a0 : ℕ) (h : Kept b p i s) :
    Kept b p i (takeBank a0 s) := by
  unfold takeBank
  repeat' first
    | with_reducible assumption
    | (intro (s : State) (h : Kept b p i s))
    | (intro _ (s : State) (h : Kept b p i s))
    | (intro (h : Kept b p i _))
    | (intro (s' : State); refine_lift have h : Kept b p i s' := ?_; ?_; clear_value s')
    | lift_lets
    | with_reducible apply keptO_next
    | with_reducible apply kept_ite
    | with_reducible apply kept_markBank
    | with_reducible apply kept_ctPublishInfo
    | with_reducible apply kept_onKind
    | with_reducible refine kept_foldl ?_ (fun s a h => ?_)
    | (intro x'; clear_value x')
    | intro _
    | dsimp only [s']
    | split

theorem kept_commitPart (a0 : ℕ) (h : Kept b p i s) :
    Kept b p i (commitPart a0 s) := by
  unfold commitPart
  repeat' first
    | with_reducible assumption
    | (intro (s : State) (h : Kept b p i s))
    | (intro _ (s : State) (h : Kept b p i s))
    | (intro (h : Kept b p i _))
    | (intro (s' : State); refine_lift have h : Kept b p i s' := ?_; ?_; clear_value s')
    | lift_lets
    | with_reducible apply keptO_next
    | with_reducible apply kept_ite
    | with_reducible apply kept_markBank
    | with_reducible apply kept_onKind
    | with_reducible apply kept_endMigration
    | with_reducible apply kept_logEv
    | with_reducible refine kept_foldl ?_ (fun s a h => ?_)
    | (intro x'; clear_value x')
    | intro _
    | dsimp only [s']
    | split

theorem kept_mirrorCopy  (h : Kept b p i s) :
    Kept b p i (mirrorCopy s) := by
  unfold mirrorCopy
  repeat' first
    | with_reducible assumption
    | (intro (s : State) (h : Kept b p i s))
    | (intro _ (s : State) (h : Kept b p i s))
    | (intro (h : Kept b p i _))
    | (intro (s' : State); refine_lift have h : Kept b p i s' := ?_; ?_; clear_value s')
    | lift_lets
    | with_reducible apply keptO_next
    | with_reducible apply kept_ite
    | with_reducible apply kept_onStr
    | with_reducible apply kept_setBank
    | with_reducible refine kept_foldl ?_ (fun s a h => ?_)
    | (intro x'; clear_value x')
    | intro _
    | dsimp only [s']
    | split

theorem kept_commitTrial (a0 : Trial) (h : Kept b p i s) :
    Kept b p i (commitTrial a0 s) := by
  unfold commitTrial
  repeat' first
    | with_reducible assumption
    | (intro (s : State) (h : Kept b p i s))
    | (intro _ (s : State) (h : Kept b p i s))
    | (intro (h : Kept b p i _))
    | (intro (s' : State); refine_lift have h : Kept b p i s' := ?_; ?_; clear_value s')
    | lift_lets
    | with_reducible apply keptO_next
    | with_reducible apply kept_ite
    | with_reducible apply kept_commitPart
    | with_reducible apply kept_mirrorCopy
    | with_reducible apply kept_onUpd
    | with_reducible refine kept_foldl ?_ (fun s a h => ?_)
    | (intro (x : UpdBlock) hx; first | (simp only [UpdBlock.shape] at hx ⊢; with_reducible exact hx) | (simp only [UpdBlock.shape, List.length_mapIdx, List.length_map, upd_length, put_length] at hx ⊢; with_reducible exact hx) | (simp_all [UpdBlock.shape]; done) | ((repeat' split) <;> first | exact hx | (simp_all [UpdBlock.shape]; done)))
    | (intro x'; clear_value x')
    | intro _
    | dsimp only [s']
    | split

theorem kept_rollbackPart (a0 : ℕ) (a1 : ℕ) (h : Kept b p i s) :
    Kept b p i (rollbackPart a0 a1 s) := by
  unfold rollbackPart
  repeat' first
    | with_reducible assumption
    | (intro (s : State) (h : Kept b p i s))
    | (intro _ (s : State) (h : Kept b p i s))
    | (intro (h : Kept b p i _))
    | (intro (s' : State); refine_lift have h : Kept b p i s' := ?_; ?_; clear_value s')
    | lift_lets
    | with_reducible apply keptO_next
    | with_reducible apply kept_ite
    | with_reducible apply kept_markBank
    | with_reducible apply kept_onKind
    | with_reducible apply kept_ctPublishInfo
    | with_reducible apply kept_endMigration
    | with_reducible apply kept_logEv
    | with_reducible refine kept_foldl ?_ (fun s a h => ?_)
    | (intro x'; clear_value x')
    | intro _
    | dsimp only [s']
    | split

theorem kept_failTrial (a0 : ℕ) (h : Kept b p i s) :
    Kept b p i (failTrial a0 s) := by
  unfold failTrial
  repeat' first
    | with_reducible assumption
    | (intro (s : State) (h : Kept b p i s))
    | (intro _ (s : State) (h : Kept b p i s))
    | (intro (h : Kept b p i _))
    | (intro (s' : State); refine_lift have h : Kept b p i s' := ?_; ?_; clear_value s')
    | lift_lets
    | with_reducible apply keptO_next
    | with_reducible apply kept_ite
    | with_reducible apply kept_bump
    | with_reducible apply kept_onUpd
    | with_reducible apply kept_rollbackPart
    | with_reducible apply kept_startKind
    | with_reducible refine kept_foldl ?_ (fun s a h => ?_)
    | (intro (x : UpdBlock) hx; first | (simp only [UpdBlock.shape] at hx ⊢; with_reducible exact hx) | (simp only [UpdBlock.shape, List.length_mapIdx, List.length_map, upd_length, put_length] at hx ⊢; with_reducible exact hx) | (simp_all [UpdBlock.shape]; done) | ((repeat' split) <;> first | exact hx | (simp_all [UpdBlock.shape]; done)))
    | (intro x'; clear_value x')
    | intro _
    | dsimp only [s']
    | split

theorem kept_countStart  (h : Kept b p i s) :
    Kept b p i (countStart s) := by
  unfold countStart
  repeat' first
    | with_reducible assumption
    | (intro (s : State) (h : Kept b p i s))
    | (intro _ (s : State) (h : Kept b p i s))
    | (intro (h : Kept b p i _))
    | (intro (s' : State); refine_lift have h : Kept b p i s' := ?_; ?_; clear_value s')
    | lift_lets
    | with_reducible apply keptO_next
    | with_reducible apply kept_ite
    | with_reducible apply kept_onUpd
    | with_reducible apply kept_failTrial
    | with_reducible refine kept_foldl ?_ (fun s a h => ?_)
    | (intro (x : UpdBlock) hx; first | (simp only [UpdBlock.shape] at hx ⊢; with_reducible exact hx) | (simp only [UpdBlock.shape, List.length_mapIdx, List.length_map, upd_length, put_length] at hx ⊢; with_reducible exact hx) | (simp_all [UpdBlock.shape]; done) | ((repeat' split) <;> first | exact hx | (simp_all [UpdBlock.shape]; done)))
    | (intro x'; clear_value x')
    | intro _
    | dsimp only [s']
    | split

theorem kept_execTrialPass  (h : Kept b p i s) :
    KeptO b p i (execTrialPass s) := by
  unfold execTrialPass
  repeat' first
    | with_reducible assumption
    | (intro (s : State) (h : Kept b p i s))
    | (intro _ (s : State) (h : Kept b p i s))
    | (intro (h : Kept b p i _))
    | (intro (s' : State); refine_lift have h : Kept b p i s' := ?_; ?_; clear_value s')
    | lift_lets
    | with_reducible apply keptO_next
    | with_reducible apply kept_ite
    | with_reducible apply keptO_ite
    | with_reducible apply kept_commitTrial
    | with_reducible refine kept_foldl ?_ (fun s a h => ?_)
    | (intro x'; clear_value x')
    | intro _
    | dsimp only [s']
    | split

theorem kept_execTrialFail (a0 : ℕ) (h : Kept b p i s) :
    KeptO b p i (execTrialFail a0 s) := by
  unfold execTrialFail
  repeat' first
    | with_reducible assumption
    | (intro (s : State) (h : Kept b p i s))
    | (intro _ (s : State) (h : Kept b p i s))
    | (intro (h : Kept b p i _))
    | (intro (s' : State); refine_lift have h : Kept b p i s' := ?_; ?_; clear_value s')
    | lift_lets
    | with_reducible apply keptO_next
    | with_reducible apply kept_ite
    | with_reducible apply keptO_ite
    | with_reducible apply kept_failTrial
    | with_reducible refine kept_foldl ?_ (fun s a h => ?_)
    | (intro x'; clear_value x')
    | intro _
    | dsimp only [s']
    | split

theorem kept_updConfirm (a0 : Req) (h : Kept b p i s) :
    Kept b p i (updConfirm a0 s) := by
  unfold updConfirm
  repeat' first
    | with_reducible assumption
    | (intro (s : State) (h : Kept b p i s))
    | (intro _ (s : State) (h : Kept b p i s))
    | (intro (h : Kept b p i _))
    | (intro (s' : State); refine_lift have h : Kept b p i s' := ?_; ?_; clear_value s')
    | lift_lets
    | with_reducible apply keptO_next
    | with_reducible apply kept_ite
    | with_reducible apply kept_guarded
    | with_reducible apply kept_postSts
    | with_reducible apply kept_onUpd
    | with_reducible refine kept_foldl ?_ (fun s a h => ?_)
    | (intro (x : UpdBlock) hx; first | (simp only [UpdBlock.shape] at hx ⊢; with_reducible exact hx) | (simp only [UpdBlock.shape, List.length_mapIdx, List.length_map, upd_length, put_length] at hx ⊢; with_reducible exact hx) | (simp_all [UpdBlock.shape]; done) | ((repeat' split) <;> first | exact hx | (simp_all [UpdBlock.shape]; done)))
    | (intro x'; clear_value x')
    | intro _
    | dsimp only [s']
    | split

theorem kept_execUpdConfirm (a0 : Req) (h : Kept b p i s) :
    KeptO b p i (execUpdConfirm a0 s) := by
  unfold execUpdConfirm
  repeat' first
    | with_reducible assumption
    | (intro (s : State) (h : Kept b p i s))
    | (intro _ (s : State) (h : Kept b p i s))
    | (intro (h : Kept b p i _))
    | (intro (s' : State); refine_lift have h : Kept b p i s' := ?_; ?_; clear_value s')
    | lift_lets
    | with_reducible apply keptO_next
    | with_reducible apply kept_ite
    | with_reducible apply keptO_ite
    | with_reducible apply kept_badgerCmd
    | with_reducible apply kept_updConfirm
    | with_reducible refine kept_foldl ?_ (fun s a h => ?_)
    | (intro x'; clear_value x')
    | intro _
    | dsimp only [s']
    | split

theorem kept_logActivate (a0 : ℕ) (a1 : ℕ) (a2 : ℕ) (h : Kept b p i s) :
    Kept b p i (logActivate a0 a1 a2 s) := by
  unfold logActivate
  repeat' first
    | with_reducible assumption
    | (intro (s : State) (h : Kept b p i s))
    | (intro _ (s : State) (h : Kept b p i s))
    | (intro (h : Kept b p i _))
    | (intro (s' : State); refine_lift have h : Kept b p i s' := ?_; ?_; clear_value s')
    | lift_lets
    | with_reducible apply keptO_next
    | with_reducible apply kept_ite
    | with_reducible apply kept_logEv
    | with_reducible refine kept_foldl ?_ (fun s a h => ?_)
    | (intro x'; clear_value x')
    | intro _
    | dsimp only [s']
    | split

theorem kept_refuseActivate (a0 : Req) (a1 : ℕ) (a2 : ℕ) (a3 : ℕ) (h : Kept b p i s) :
    Kept b p i (refuseActivate a0 a1 a2 a3 s) := by
  unfold refuseActivate
  repeat' first
    | with_reducible assumption
    | (intro (s : State) (h : Kept b p i s))
    | (intro _ (s : State) (h : Kept b p i s))
    | (intro (h : Kept b p i _))
    | (intro (s' : State); refine_lift have h : Kept b p i s' := ?_; ?_; clear_value s')
    | lift_lets
    | with_reducible apply keptO_next
    | with_reducible apply kept_ite
    | with_reducible apply kept_post
    | with_reducible apply kept_onUpd
    | with_reducible refine kept_foldl ?_ (fun s a h => ?_)
    | (intro (x : UpdBlock) hx; first | (simp only [UpdBlock.shape] at hx ⊢; with_reducible exact hx) | (simp only [UpdBlock.shape, List.length_mapIdx, List.length_map, upd_length, put_length] at hx ⊢; with_reducible exact hx) | (simp_all [UpdBlock.shape]; done) | ((repeat' split) <;> first | exact hx | (simp_all [UpdBlock.shape]; done)))
    | (intro x'; clear_value x')
    | intro _
    | dsimp only [s']
    | split

theorem kept_activateTable  (h : Kept b p i s) :
    Kept b p i (activateTable s) := by
  unfold activateTable
  repeat' first
    | with_reducible assumption
    | (intro (s : State) (h : Kept b p i s))
    | (intro _ (s : State) (h : Kept b p i s))
    | (intro (h : Kept b p i _))
    | (intro (s' : State); refine_lift have h : Kept b p i s' := ?_; ?_; clear_value s')
    | lift_lets
    | with_reducible apply keptO_next
    | with_reducible apply kept_ite
    | with_reducible apply kept_offerTable
    | with_reducible apply kept_markBank
    | with_reducible apply kept_onKind
    | with_reducible refine kept_foldl ?_ (fun s a h => ?_)
    | (intro x'; clear_value x')
    | intro _
    | dsimp only [s']
    | split

theorem kept_activateOne (a0 : Req) (a1 : ℕ) (h : Kept b p i s) :
    Kept b p i (activateOne a0 a1 s) := by
  unfold activateOne
  repeat' first
    | with_reducible assumption
    | (intro (s : State) (h : Kept b p i s))
    | (intro _ (s : State) (h : Kept b p i s))
    | (intro (h : Kept b p i _))
    | (intro (s' : State); refine_lift have h : Kept b p i s' := ?_; ?_; clear_value s')
    | lift_lets
    | with_reducible apply keptO_next
    | with_reducible apply kept_ite
    | with_reducible apply kept_refuseActivate
    | with_reducible apply kept_onUpd
    | with_reducible apply kept_postSts
    | with_reducible apply kept_logActivate
    | with_reducible apply kept_activateTable
    | with_reducible apply kept_migrate
    | with_reducible apply kept_takeBank
    | with_reducible apply kept_startKind
    | with_reducible refine kept_foldl ?_ (fun s a h => ?_)
    | (intro (x : UpdBlock) hx; first | (simp only [UpdBlock.shape] at hx ⊢; with_reducible exact hx) | (simp only [UpdBlock.shape, List.length_mapIdx, List.length_map, upd_length, put_length] at hx ⊢; with_reducible exact hx) | (simp_all [UpdBlock.shape]; done) | ((repeat' split) <;> first | exact hx | (simp_all [UpdBlock.shape]; done)))
    | (intro x'; clear_value x')
    | intro _
    | dsimp only [s']
    | split

theorem kept_sealBefore  (h : Kept b p i s) :
    Kept b p i (sealBefore s) := by
  unfold sealBefore
  repeat' first
    | with_reducible assumption
    | (intro (s : State) (h : Kept b p i s))
    | (intro _ (s : State) (h : Kept b p i s))
    | (intro (h : Kept b p i _))
    | (intro (s' : State); refine_lift have h : Kept b p i s' := ?_; ?_; clear_value s')
    | lift_lets
    | with_reducible apply keptO_next
    | with_reducible apply kept_ite
    | with_reducible apply kept_saveAtOnce
    | with_reducible apply kept_capture
    | with_reducible apply kept_restartDemand
    | with_reducible apply kept_closeDemand
    | with_reducible refine kept_foldl ?_ (fun s a h => ?_)
    | (intro x'; clear_value x')
    | intro _
    | dsimp only [s']
    | split

theorem kept_recordSeal (a0 : ℕ) (a1 : Bytes) (h : Kept b p i s) :
    Kept b p i (recordSeal a0 a1 s) := by
  unfold recordSeal
  repeat' first
    | with_reducible assumption
    | (intro (s : State) (h : Kept b p i s))
    | (intro _ (s : State) (h : Kept b p i s))
    | (intro (h : Kept b p i _))
    | (intro (s' : State); refine_lift have h : Kept b p i s' := ?_; ?_; clear_value s')
    | lift_lets
    | with_reducible apply keptO_next
    | with_reducible apply kept_ite
    | with_reducible apply kept_onMet
    | with_reducible apply kept_ctPublishInfo
    | with_reducible apply kept_onStr
    | with_reducible apply kept_legalEv
    | with_reducible refine kept_foldl ?_ (fun s a h => ?_)
    | (intro (x : MetBlock) hx; first | (simp only [MetBlock.shape] at hx ⊢; with_reducible exact hx) | (simp only [MetBlock.shape, List.length_mapIdx, List.length_map, upd_length, put_length] at hx ⊢; with_reducible exact hx) | (simp_all [MetBlock.shape]; done) | ((repeat' split) <;> first | exact hx | (simp_all [MetBlock.shape]; done)))
    | (intro x'; clear_value x')
    | intro _
    | dsimp only [s']
    | split

theorem kept_runManifest (a0 : List ℕ) (h : Kept b p i s) :
    Kept b p i (runManifest a0 s) := by
  unfold runManifest
  repeat' first
    | with_reducible assumption
    | (intro (s : State) (h : Kept b p i s))
    | (intro _ (s : State) (h : Kept b p i s))
    | (intro (h : Kept b p i _))
    | (intro (s' : State); refine_lift have h : Kept b p i s' := ?_; ?_; clear_value s')
    | lift_lets
    | with_reducible apply keptO_next
    | with_reducible apply kept_ite
    | with_reducible apply kept_onUpd
    | with_reducible apply kept_onStr
    | with_reducible apply kept_recordSeal
    | with_reducible apply kept_sealBefore
    | with_reducible apply kept_logActivate
    | with_reducible apply kept_requestReset
    | with_reducible refine kept_foldl ?_ (fun s a h => ?_)
    | (intro (x : UpdBlock) hx; first | (simp only [UpdBlock.shape] at hx ⊢; with_reducible exact hx) | (simp only [UpdBlock.shape, List.length_mapIdx, List.length_map, upd_length, put_length] at hx ⊢; with_reducible exact hx) | (simp_all [UpdBlock.shape]; done) | ((repeat' split) <;> first | exact hx | (simp_all [UpdBlock.shape]; done)))
    | (intro x'; clear_value x')
    | intro _
    | dsimp only [s']
    | split

theorem kept_activateManifest (a0 : Req) (h : Kept b p i s) :
    Kept b p i (activateManifest a0 s) := by
  unfold activateManifest
  repeat' first
    | with_reducible assumption
    | (intro (s : State) (h : Kept b p i s))
    | (intro _ (s : State) (h : Kept b p i s))
    | (intro (h : Kept b p i _))
    | (intro (s' : State); refine_lift have h : Kept b p i s' := ?_; ?_; clear_value s')
    | lift_lets
    | with_reducible apply keptO_next
    | with_reducible apply kept_ite
    | with_reducible apply kept_refuseActivate
    | with_reducible apply kept_runManifest
    | with_reducible apply kept_pend
    | with_reducible refine kept_foldl ?_ (fun s a h => ?_)
    | (intro x'; clear_value x')
    | intro _
    | dsimp only [s']
    | split

theorem kept_updActivate (a0 : Req) (a1 : ℕ) (h : Kept b p i s) :
    Kept b p i (updActivate a0 a1 s) := by
  unfold updActivate
  repeat' first
    | with_reducible assumption
    | (intro (s : State) (h : Kept b p i s))
    | (intro _ (s : State) (h : Kept b p i s))
    | (intro (h : Kept b p i _))
    | (intro (s' : State); refine_lift have h : Kept b p i s' := ?_; ?_; clear_value s')
    | lift_lets
    | with_reducible apply keptO_next
    | with_reducible apply kept_ite
    | with_reducible apply kept_refuseActivate
    | with_reducible apply kept_activateManifest
    | with_reducible apply kept_activateOne
    | with_reducible refine kept_foldl ?_ (fun s a h => ?_)
    | (intro x'; clear_value x')
    | intro _
    | dsimp only [s']
    | split

theorem kept_execUpdActivate (a0 : Req) (a1 : ℕ) (h : Kept b p i s) :
    KeptO b p i (execUpdActivate a0 a1 s) := by
  unfold execUpdActivate
  repeat' first
    | with_reducible assumption
    | (intro (s : State) (h : Kept b p i s))
    | (intro _ (s : State) (h : Kept b p i s))
    | (intro (h : Kept b p i _))
    | (intro (s' : State); refine_lift have h : Kept b p i s' := ?_; ?_; clear_value s')
    | lift_lets
    | with_reducible apply keptO_next
    | with_reducible apply kept_ite
    | with_reducible apply keptO_ite
    | with_reducible apply kept_badgerCmd
    | with_reducible apply kept_updActivate
    | with_reducible refine kept_foldl ?_ (fun s a h => ?_)
    | (intro x'; clear_value x')
    | intro _
    | dsimp only [s']
    | split

end Sys2Proof.Machine
end

