-- ==== Sys2Proof/Laws/KeptBadger.lean ====
section
/-! SUPPORT. What the operations of Badger.lean keep. -/

set_option linter.unusedSimpArgs false
set_option linter.unusedVariables false
set_option linter.unreachableTactic false
set_option linter.unusedTactic false

namespace Sys2Proof.Machine

variable {b : Prop} {p : List Instr} {i : Ident} {s : State}

theorem kept_enterLimp (a0 : ℕ) (h : Kept b p i s) :
    Kept b p i (enterLimp a0 s) := by
  unfold enterLimp
  repeat' first
    | with_reducible assumption
    | (intro (s : State) (h : Kept b p i s))
    | (intro _ (s : State) (h : Kept b p i s))
    | (intro (h : Kept b p i _))
    | (intro (s' : State); refine_lift have h : Kept b p i s' := ?_; ?_; clear_value s')
    | lift_lets
    | with_reducible apply keptO_next
    | with_reducible apply kept_ite
    | with_reducible apply kept_flushRings
    | with_reducible apply kept_limpEnterAll
    | with_reducible apply kept_setMode
    | with_reducible refine kept_foldl ?_ (fun s a h => ?_)
    | (intro x'; clear_value x')
    | intro _
    | dsimp only [s']
    | split

theorem kept_clusterGone  (h : Kept b p i s) :
    Kept b p i (clusterGone s) := by
  unfold clusterGone
  repeat' first
    | with_reducible assumption
    | (intro (s : State) (h : Kept b p i s))
    | (intro _ (s : State) (h : Kept b p i s))
    | (intro (h : Kept b p i _))
    | (intro (s' : State); refine_lift have h : Kept b p i s' := ?_; ?_; clear_value s')
    | lift_lets
    | with_reducible apply keptO_next
    | with_reducible apply kept_ite
    | with_reducible apply kept_enterLimp
    | with_reducible refine kept_foldl ?_ (fun s a h => ?_)
    | (intro x'; clear_value x')
    | intro _
    | dsimp only [s']
    | split

theorem kept_execBadgerWatchdogExpiry  (h : Kept b p i s) :
    KeptO b p i (execBadgerWatchdogExpiry s) := by
  unfold execBadgerWatchdogExpiry
  repeat' first
    | with_reducible assumption
    | (intro (s : State) (h : Kept b p i s))
    | (intro _ (s : State) (h : Kept b p i s))
    | (intro (h : Kept b p i _))
    | (intro (s' : State); refine_lift have h : Kept b p i s' := ?_; ?_; clear_value s')
    | lift_lets
    | with_reducible apply keptO_next
    | with_reducible apply kept_ite
    | with_reducible apply keptO_ite
    | with_reducible apply kept_stopBadger
    | with_reducible apply kept_closeTransfer
    | with_reducible apply kept_onSys
    | with_reducible apply kept_onMet
    | with_reducible apply kept_onMgt
    | with_reducible apply kept_logEv
    | with_reducible apply kept_enterLimp
    | with_reducible refine kept_foldl ?_ (fun s a h => ?_)
    | (intro (x : MetBlock) hx; first | (simp only [MetBlock.shape] at hx ⊢; with_reducible exact hx) | (simp only [MetBlock.shape, List.length_mapIdx, List.length_map, upd_length, put_length] at hx ⊢; with_reducible exact hx) | (simp_all [MetBlock.shape]; done) | ((repeat' split) <;> first | exact hx | (simp_all [MetBlock.shape]; done)))
    | (intro (x : SysBlock) hx; first | exact hx | exact ⟨Nat.zero_le _, hx.2⟩)
    | (intro (x : MgtBlock) hx; first | exact hx | exact ⟨Nat.zero_le _, Nat.zero_le _⟩ | exact ⟨hx.1, Nat.zero_le _⟩)
    | (intro x'; clear_value x')
    | intro _
    | dsimp only [s']
    | split

theorem kept_drainRetention  (h : Kept b p i s) :
    Kept b p i (drainRetention s) := by
  unfold drainRetention
  repeat' first
    | with_reducible assumption
    | (intro (s : State) (h : Kept b p i s))
    | (intro _ (s : State) (h : Kept b p i s))
    | (intro (h : Kept b p i _))
    | (intro (s' : State); refine_lift have h : Kept b p i s' := ?_; ?_; clear_value s')
    | lift_lets
    | with_reducible apply keptO_next
    | with_reducible apply kept_ite
    | with_reducible apply kept_enterLog
    | with_reducible apply kept_onSys
    | with_reducible refine kept_foldl ?_ (fun s a h => ?_)
    | (intro (x : SysBlock) hx; first | exact hx | exact ⟨Nat.zero_le _, hx.2⟩)
    | (intro x'; clear_value x')
    | intro _
    | dsimp only [s']
    | split

theorem kept_heartbeat  (h : Kept b p i s) :
    Kept b p i (heartbeat s) := by
  unfold heartbeat
  repeat' first
    | with_reducible assumption
    | (intro (s : State) (h : Kept b p i s))
    | (intro _ (s : State) (h : Kept b p i s))
    | (intro (h : Kept b p i _))
    | (intro (s' : State); refine_lift have h : Kept b p i s' := ?_; ?_; clear_value s')
    | lift_lets
    | with_reducible apply keptO_next
    | with_reducible apply kept_ite
    | with_reducible apply kept_onSys
    | with_reducible apply kept_onMgt
    | with_reducible refine kept_foldl ?_ (fun s a h => ?_)
    | (intro (x : SysBlock) hx; first | exact hx | exact ⟨Nat.zero_le _, hx.2⟩)
    | (intro (x : MgtBlock) hx; first | exact hx | exact ⟨Nat.zero_le _, Nat.zero_le _⟩ | exact ⟨hx.1, Nat.zero_le _⟩)
    | (intro x'; clear_value x')
    | intro _
    | dsimp only [s']
    | split

theorem kept_execMgtAmbHbWrite (a0 : Word) (h : Kept b p i s) :
    KeptO b p i (execMgtAmbHbWrite a0 s) := by
  unfold execMgtAmbHbWrite
  repeat' first
    | with_reducible assumption
    | (intro (s : State) (h : Kept b p i s))
    | (intro _ (s : State) (h : Kept b p i s))
    | (intro (h : Kept b p i _))
    | (intro (s' : State); refine_lift have h : Kept b p i s' := ?_; ?_; clear_value s')
    | lift_lets
    | with_reducible apply keptO_next
    | with_reducible apply kept_ite
    | with_reducible apply keptO_ite
    | with_reducible apply kept_heartbeat
    | with_reducible refine kept_foldl ?_ (fun s a h => ?_)
    | (intro x'; clear_value x')
    | intro _
    | dsimp only [s']
    | split

theorem kept_execAppHeartbeatTimeout (a0 : ℕ) (h : Kept b p i s) :
    KeptO b p i (execAppHeartbeatTimeout a0 s) := by
  unfold execAppHeartbeatTimeout
  repeat' first
    | with_reducible assumption
    | (intro (s : State) (h : Kept b p i s))
    | (intro _ (s : State) (h : Kept b p i s))
    | (intro (h : Kept b p i _))
    | (intro (s' : State); refine_lift have h : Kept b p i s' := ?_; ?_; clear_value s')
    | lift_lets
    | with_reducible apply keptO_next
    | with_reducible apply kept_ite
    | with_reducible apply keptO_ite
    | with_reducible apply kept_startCluster
    | with_reducible apply kept_onSys
    | with_reducible apply kept_onMgt
    | with_reducible apply kept_logEv
    | with_reducible apply kept_countStart
    | with_reducible apply kept_notice
    | with_reducible apply kept_clusterGone
    | with_reducible refine kept_foldl ?_ (fun s a h => ?_)
    | (intro (x : SysBlock) hx; first | exact hx | exact ⟨Nat.zero_le _, hx.2⟩)
    | (intro (x : MgtBlock) hx; first | exact hx | exact ⟨Nat.zero_le _, Nat.zero_le _⟩ | exact ⟨hx.1, Nat.zero_le _⟩)
    | (intro x'; clear_value x')
    | intro _
    | dsimp only [s']
    | split

theorem kept_execMgtRestart (a0 : Req) (h : Kept b p i s) :
    KeptO b p i (execMgtRestart a0 s) := by
  unfold execMgtRestart
  repeat' first
    | with_reducible assumption
    | (intro (s : State) (h : Kept b p i s))
    | (intro _ (s : State) (h : Kept b p i s))
    | (intro (h : Kept b p i _))
    | (intro (s' : State); refine_lift have h : Kept b p i s' := ?_; ?_; clear_value s')
    | lift_lets
    | with_reducible apply keptO_next
    | with_reducible apply kept_ite
    | with_reducible apply keptO_ite
    | with_reducible apply kept_badgerCmd
    | with_reducible apply kept_guarded
    | with_reducible apply kept_postSts
    | with_reducible apply kept_startCluster
    | with_reducible apply kept_onMgt
    | with_reducible refine kept_foldl ?_ (fun s a h => ?_)
    | (intro (x : MgtBlock) hx; first | exact hx | exact ⟨Nat.zero_le _, Nat.zero_le _⟩ | exact ⟨hx.1, Nat.zero_le _⟩)
    | (intro x'; clear_value x')
    | intro _
    | dsimp only [s']
    | split

theorem kept_takeMessage (a0 : Side) (h : Kept b p i s) :
    Kept b p i (takeMessage a0 s) := by
  unfold takeMessage
  repeat' first
    | with_reducible assumption
    | (intro (s : State) (h : Kept b p i s))
    | (intro _ (s : State) (h : Kept b p i s))
    | (intro (h : Kept b p i _))
    | (intro (s' : State); refine_lift have h : Kept b p i s' := ?_; ?_; clear_value s')
    | lift_lets
    | with_reducible apply keptO_next
    | with_reducible apply kept_ite
    | with_reducible apply kept_onMgt
    | with_reducible apply kept_noticeTo
    | with_reducible apply kept_heartbeat
    | with_reducible refine kept_foldl ?_ (fun s a h => ?_)
    | (intro (x : MgtBlock) hx; first | exact hx | exact ⟨Nat.zero_le _, Nat.zero_le _⟩ | exact ⟨hx.1, Nat.zero_le _⟩)
    | (intro x'; clear_value x')
    | intro _
    | dsimp only [s']
    | split

theorem kept_doorbell (a0 : Side) (h : Kept b p i s) :
    Kept b p i (doorbell a0 s) := by
  unfold doorbell
  repeat' first
    | with_reducible assumption
    | (intro (s : State) (h : Kept b p i s))
    | (intro _ (s : State) (h : Kept b p i s))
    | (intro (h : Kept b p i _))
    | (intro (s' : State); refine_lift have h : Kept b p i s' := ?_; ?_; clear_value s')
    | lift_lets
    | with_reducible apply keptO_next
    | with_reducible apply kept_ite
    | with_reducible apply kept_onMgt
    | with_reducible apply kept_takeMessage
    | with_reducible refine kept_foldl ?_ (fun s a h => ?_)
    | (intro (x : MgtBlock) hx; first | exact hx | exact ⟨Nat.zero_le _, Nat.zero_le _⟩ | exact ⟨hx.1, Nat.zero_le _⟩)
    | (intro x'; clear_value x')
    | intro _
    | dsimp only [s']
    | split

theorem kept_execMailboxDoorbell (a0 : Side) (h : Kept b p i s) :
    KeptO b p i (execMailboxDoorbell a0 s) := by
  unfold execMailboxDoorbell
  repeat' first
    | with_reducible assumption
    | (intro (s : State) (h : Kept b p i s))
    | (intro _ (s : State) (h : Kept b p i s))
    | (intro (h : Kept b p i _))
    | (intro (s' : State); refine_lift have h : Kept b p i s' := ?_; ?_; clear_value s')
    | lift_lets
    | with_reducible apply keptO_next
    | with_reducible apply kept_ite
    | with_reducible apply keptO_ite
    | with_reducible apply kept_doorbell
    | with_reducible refine kept_foldl ?_ (fun s a h => ?_)
    | (intro x'; clear_value x')
    | intro _
    | dsimp only [s']
    | split

theorem kept_execBadgerReady  (h : Kept b p i s) :
    KeptO b p i (execBadgerReady s) := by
  unfold execBadgerReady
  repeat' first
    | with_reducible assumption
    | (intro (s : State) (h : Kept b p i s))
    | (intro _ (s : State) (h : Kept b p i s))
    | (intro (h : Kept b p i _))
    | (intro (s' : State); refine_lift have h : Kept b p i s' := ?_; ?_; clear_value s')
    | lift_lets
    | with_reducible apply keptO_next
    | with_reducible apply kept_ite
    | with_reducible apply keptO_ite
    | with_reducible apply kept_onSys
    | with_reducible apply kept_flushProfile
    | with_reducible apply kept_drainRetention
    | with_reducible apply kept_takeMessage
    | with_reducible refine kept_foldl ?_ (fun s a h => ?_)
    | (intro (x : SysBlock) hx; first | exact hx | exact ⟨Nat.zero_le _, hx.2⟩)
    | (intro x'; clear_value x')
    | intro _
    | dsimp only [s']
    | split

theorem kept_hotChange (a0 : Bool) (h : Kept b p i s) :
    Kept b p i (hotChange a0 s) := by
  unfold hotChange
  repeat' first
    | with_reducible assumption
    | (intro (s : State) (h : Kept b p i s))
    | (intro _ (s : State) (h : Kept b p i s))
    | (intro (h : Kept b p i _))
    | (intro (s' : State); refine_lift have h : Kept b p i s' := ?_; ?_; clear_value s')
    | lift_lets
    | with_reducible apply keptO_next
    | with_reducible apply kept_ite
    | with_reducible apply kept_startCluster
    | with_reducible apply kept_onSys
    | with_reducible apply kept_clusterGone
    | with_reducible apply kept_glkGate
    | with_reducible apply kept_slacOff
    | with_reducible apply kept_slacChecks
    | with_reducible refine kept_foldl ?_ (fun s a h => ?_)
    | (intro (x : SysBlock) hx; first | exact hx | exact ⟨Nat.zero_le _, hx.2⟩)
    | (intro x'; clear_value x')
    | intro _
    | dsimp only [s']
    | split

theorem kept_evalTemps (a0 : List ℤ) (h : Kept b p i s) :
    Kept b p i (evalTemps a0 s) := by
  unfold evalTemps
  repeat' first
    | with_reducible assumption
    | (intro (s : State) (h : Kept b p i s))
    | (intro _ (s : State) (h : Kept b p i s))
    | (intro (h : Kept b p i _))
    | (intro (s' : State); refine_lift have h : Kept b p i s' := ?_; ?_; clear_value s')
    | lift_lets
    | with_reducible apply keptO_next
    | with_reducible apply kept_ite
    | with_reducible apply kept_onMgt
    | with_reducible apply kept_logEv
    | with_reducible apply kept_notice
    | with_reducible apply kept_hotChange
    | with_reducible refine kept_foldl ?_ (fun s a h => ?_)
    | (intro (x : MgtBlock) hx; first | exact hx | exact ⟨Nat.zero_le _, Nat.zero_le _⟩ | exact ⟨hx.1, Nat.zero_le _⟩)
    | (intro x'; clear_value x')
    | intro _
    | dsimp only [s']
    | split

theorem kept_logSupply (a0 : ℕ) (a1 : ℕ) (a2 : ℕ) (h : Kept b p i s) :
    Kept b p i (logSupply a0 a1 a2 s) := by
  unfold logSupply
  repeat' first
    | with_reducible assumption
    | (intro (s : State) (h : Kept b p i s))
    | (intro _ (s : State) (h : Kept b p i s))
    | (intro (h : Kept b p i _))
    | (intro (s' : State); refine_lift have h : Kept b p i s' := ?_; ?_; clear_value s')
    | lift_lets
    | with_reducible apply keptO_next
    | with_reducible apply kept_ite
    | with_reducible apply kept_logEv
    | with_reducible refine kept_foldl ?_ (fun s a h => ?_)
    | (intro x'; clear_value x')
    | intro _
    | dsimp only [s']
    | split

theorem kept_evalSupply (a0 : MonitorInput) (a2 : ℕ) (h : Kept b p i s) :
    Kept b p i (evalSupply a0 s a2) := by
  unfold evalSupply
  repeat' first
    | with_reducible assumption
    | (intro (s : State) (h : Kept b p i s))
    | (intro _ (s : State) (h : Kept b p i s))
    | (intro (h : Kept b p i _))
    | (intro (s' : State); refine_lift have h : Kept b p i s' := ?_; ?_; clear_value s')
    | lift_lets
    | with_reducible apply keptO_next
    | with_reducible apply kept_ite
    | with_reducible apply kept_notice
    | with_reducible apply kept_logSupply
    | with_reducible apply kept_onMgt
    | with_reducible refine kept_foldl ?_ (fun s a h => ?_)
    | (intro (x : MgtBlock) hx; first | exact hx | exact ⟨Nat.zero_le _, Nat.zero_le _⟩ | exact ⟨hx.1, Nat.zero_le _⟩)
    | (intro x'; clear_value x')
    | intro _
    | dsimp only [s']
    | split

theorem kept_evalVbat (a0 : ℕ) (h : Kept b p i s) :
    Kept b p i (evalVbat a0 s) := by
  unfold evalVbat
  repeat' first
    | with_reducible assumption
    | (intro (s : State) (h : Kept b p i s))
    | (intro _ (s : State) (h : Kept b p i s))
    | (intro (h : Kept b p i _))
    | (intro (s' : State); refine_lift have h : Kept b p i s' := ?_; ?_; clear_value s')
    | lift_lets
    | with_reducible apply keptO_next
    | with_reducible apply kept_ite
    | with_reducible apply kept_notice
    | with_reducible apply kept_logSupply
    | with_reducible apply kept_onMgt
    | with_reducible refine kept_foldl ?_ (fun s a h => ?_)
    | (intro (x : MgtBlock) hx; first | exact hx | exact ⟨Nat.zero_le _, Nat.zero_le _⟩ | exact ⟨hx.1, Nat.zero_le _⟩)
    | (intro x'; clear_value x')
    | intro _
    | dsimp only [s']
    | split

theorem kept_monitor (a0 : MonitorInput) (h : Kept b p i s) :
    Kept b p i (monitor a0 s) := by
  unfold monitor
  repeat' first
    | with_reducible assumption
    | (intro (s : State) (h : Kept b p i s))
    | (intro _ (s : State) (h : Kept b p i s))
    | (intro (h : Kept b p i _))
    | (intro (s' : State); refine_lift have h : Kept b p i s' := ?_; ?_; clear_value s')
    | lift_lets
    | with_reducible apply keptO_next
    | with_reducible apply kept_ite
    | with_reducible apply kept_evalTemps
    | with_reducible apply kept_evalSupply
    | with_reducible apply kept_onMgt
    | with_reducible apply kept_evalVbat
    | with_reducible apply kept_logEv
    | with_reducible refine kept_foldl ?_ (fun s a h => ?_)
    | (intro (x : MgtBlock) hx; first | exact hx | exact ⟨Nat.zero_le _, Nat.zero_le _⟩ | exact ⟨hx.1, Nat.zero_le _⟩)
    | (intro x'; clear_value x')
    | intro _
    | dsimp only [s']
    | split

theorem kept_execClockFail (a0 : Bool) (h : Kept b p i s) :
    KeptO b p i (execClockFail a0 s) := by
  unfold execClockFail
  repeat' first
    | with_reducible assumption
    | (intro (s : State) (h : Kept b p i s))
    | (intro _ (s : State) (h : Kept b p i s))
    | (intro (h : Kept b p i _))
    | (intro (s' : State); refine_lift have h : Kept b p i s' := ?_; ?_; clear_value s')
    | lift_lets
    | with_reducible apply keptO_next
    | with_reducible apply kept_ite
    | with_reducible apply keptO_ite
    | with_reducible apply kept_logEv
    | with_reducible apply kept_assertReset
    | with_reducible refine kept_foldl ?_ (fun s a h => ?_)
    | (intro x'; clear_value x')
    | intro _
    | dsimp only [s']
    | split

theorem kept_archive (a1 : LogRec) (h : Kept b p i s) :
    Kept b p i (archive s a1) := by
  unfold archive
  repeat' first
    | with_reducible assumption
    | (intro (s : State) (h : Kept b p i s))
    | (intro _ (s : State) (h : Kept b p i s))
    | (intro (h : Kept b p i _))
    | (intro (s' : State); refine_lift have h : Kept b p i s' := ?_; ?_; clear_value s')
    | lift_lets
    | with_reducible apply keptO_next
    | with_reducible apply kept_ite
    | with_reducible apply kept_archiveLegal
    | with_reducible apply kept_onMgt
    | with_reducible refine kept_foldl ?_ (fun s a h => ?_)
    | (intro (x : MgtBlock) hx; first | exact hx | exact ⟨Nat.zero_le _, Nat.zero_le _⟩ | exact ⟨hx.1, Nat.zero_le _⟩)
    | (intro x'; clear_value x')
    | intro _
    | dsimp only [s']
    | split

theorem kept_flushLog (a0 : Bool) (h : Kept b p i s) :
    Kept b p i (flushLog a0 s) := by
  unfold flushLog
  repeat' first
    | with_reducible assumption
    | (intro (s : State) (h : Kept b p i s))
    | (intro _ (s : State) (h : Kept b p i s))
    | (intro (h : Kept b p i _))
    | (intro (s' : State); refine_lift have h : Kept b p i s' := ?_; ?_; clear_value s')
    | lift_lets
    | with_reducible apply keptO_next
    | with_reducible apply kept_ite
    | with_reducible apply kept_onMgt
    | with_reducible apply kept_checkWatermark
    | with_reducible apply kept_archive
    | with_reducible refine kept_foldl ?_ (fun s a h => ?_)
    | (intro (x : MgtBlock) hx; first | exact hx | exact ⟨Nat.zero_le _, Nat.zero_le _⟩ | exact ⟨hx.1, Nat.zero_le _⟩)
    | (intro x'; clear_value x')
    | intro _
    | dsimp only [s']
    | split

theorem kept_execLogArchiveFlush (a0 : Bool) (h : Kept b p i s) :
    KeptO b p i (execLogArchiveFlush a0 s) := by
  unfold execLogArchiveFlush
  repeat' first
    | with_reducible assumption
    | (intro (s : State) (h : Kept b p i s))
    | (intro _ (s : State) (h : Kept b p i s))
    | (intro (h : Kept b p i _))
    | (intro (s' : State); refine_lift have h : Kept b p i s' := ?_; ?_; clear_value s')
    | lift_lets
    | with_reducible apply keptO_next
    | with_reducible apply kept_ite
    | with_reducible apply keptO_ite
    | with_reducible apply kept_flushLog
    | with_reducible refine kept_foldl ?_ (fun s a h => ?_)
    | (intro x'; clear_value x')
    | intro _
    | dsimp only [s']
    | split

theorem kept_execMgtLogRead (a0 : Req) (a1 : ℕ) (a2 : ℕ) (h : Kept b p i s) :
    KeptO b p i (execMgtLogRead a0 a1 a2 s) := by
  unfold execMgtLogRead
  repeat' first
    | with_reducible assumption
    | (intro (s : State) (h : Kept b p i s))
    | (intro _ (s : State) (h : Kept b p i s))
    | (intro (h : Kept b p i _))
    | (intro (s' : State); refine_lift have h : Kept b p i s' := ?_; ?_; clear_value s')
    | lift_lets
    | with_reducible apply keptO_next
    | with_reducible apply kept_ite
    | with_reducible apply keptO_ite
    | with_reducible apply kept_badgerCmd
    | with_reducible apply kept_guarded
    | with_reducible apply kept_post
    | with_reducible refine kept_foldl ?_ (fun s a h => ?_)
    | (intro x'; clear_value x')
    | intro _
    | dsimp only [s']
    | split

theorem kept_execMgtLogAck (a0 : Req) (a1 : ℕ) (h : Kept b p i s) :
    KeptO b p i (execMgtLogAck a0 a1 s) := by
  unfold execMgtLogAck
  repeat' first
    | with_reducible assumption
    | (intro (s : State) (h : Kept b p i s))
    | (intro _ (s : State) (h : Kept b p i s))
    | (intro (h : Kept b p i _))
    | (intro (s' : State); refine_lift have h : Kept b p i s' := ?_; ?_; clear_value s')
    | lift_lets
    | with_reducible apply keptO_next
    | with_reducible apply kept_ite
    | with_reducible apply keptO_ite
    | with_reducible apply kept_badgerCmd
    | with_reducible apply kept_guarded
    | with_reducible apply kept_postSts
    | with_reducible apply kept_checkWatermark
    | with_reducible apply kept_onMgt
    | with_reducible refine kept_foldl ?_ (fun s a h => ?_)
    | (intro (x : MgtBlock) hx; first | exact hx | exact ⟨Nat.zero_le _, Nat.zero_le _⟩ | exact ⟨hx.1, Nat.zero_le _⟩)
    | (intro x'; clear_value x')
    | intro _
    | dsimp only [s']
    | split

end Sys2Proof.Machine
end

