-- ==== Sys2Proof/Laws/KeptVehicle.lean ====
section
/-! SUPPORT. What the operations of Vehicle.lean keep. -/

set_option linter.unusedSimpArgs false
set_option linter.unusedVariables false
set_option linter.unreachableTactic false
set_option linter.unusedTactic false

namespace Sys2Proof.Machine

variable {b : Prop} {p : List Instr} {i : Ident} {s : State}

theorem kept_illegal (a0 : ℕ) (a1 : EvClass) (a2 : Cp) (a3 : Cp) (a4 : ℕ) (h : Kept b p i s) :
    Kept b p i (illegal a0 a1 a2 a3 a4 s) := by
  unfold illegal
  repeat' first
    | with_reducible assumption
    | (intro (s : State) (h : Kept b p i s))
    | (intro _ (s : State) (h : Kept b p i s))
    | (intro (h : Kept b p i _))
    | (intro (s' : State); refine_lift have h : Kept b p i s' := ?_; ?_; clear_value s')
    | lift_lets
    | with_reducible apply keptO_next
    | with_reducible apply kept_ite
    | with_reducible apply kept_logEv
    | with_reducible apply kept_onLink
    | with_reducible refine kept_foldl ?_ (fun s a h => ?_)
    | (intro x'; clear_value x')
    | intro _
    | dsimp only [s']
    | split

theorem kept_pilotB (a0 : ℕ) (a1 : Bool) (h : Kept b p i s) :
    Kept b p i (pilotB a0 a1 s) := by
  unfold pilotB
  repeat' first
    | with_reducible assumption
    | (intro (s : State) (h : Kept b p i s))
    | (intro _ (s : State) (h : Kept b p i s))
    | (intro (h : Kept b p i _))
    | (intro (s' : State); refine_lift have h : Kept b p i s' := ?_; ?_; clear_value s')
    | lift_lets
    | with_reducible apply keptO_next
    | with_reducible apply kept_ite
    | with_reducible apply kept_connect
    | with_reducible apply kept_limpPilot
    | with_reducible apply kept_pauseSession
    | with_reducible apply kept_pauseOrdered
    | with_reducible apply kept_withdrawRequest
    | with_reducible apply kept_acceptB
    | with_reducible refine kept_foldl ?_ (fun s a h => ?_)
    | (intro x'; clear_value x')
    | intro _
    | dsimp only [s']
    | split

theorem kept_pilotC (a0 : ℕ) (h : Kept b p i s) :
    Kept b p i (pilotC a0 s) := by
  unfold pilotC
  repeat' first
    | with_reducible assumption
    | (intro (s : State) (h : Kept b p i s))
    | (intro _ (s : State) (h : Kept b p i s))
    | (intro (h : Kept b p i _))
    | (intro (s' : State); refine_lift have h : Kept b p i s' := ?_; ?_; clear_value s')
    | lift_lets
    | with_reducible apply keptO_next
    | with_reducible apply kept_ite
    | with_reducible apply kept_setSup
    | with_reducible apply kept_tryResume
    | with_reducible apply kept_advance
    | with_reducible refine kept_foldl ?_ (fun s a h => ?_)
    | (intro x'; clear_value x')
    | intro _
    | dsimp only [s']
    | split

theorem kept_pilotD (a0 : ℕ) (h : Kept b p i s) :
    Kept b p i (pilotD a0 s) := by
  unfold pilotD
  repeat' first
    | with_reducible assumption
    | (intro (s : State) (h : Kept b p i s))
    | (intro _ (s : State) (h : Kept b p i s))
    | (intro (h : Kept b p i _))
    | (intro (s' : State); refine_lift have h : Kept b p i s' := ?_; ?_; clear_value s')
    | lift_lets
    | with_reducible apply keptO_next
    | with_reducible apply kept_ite
    | with_reducible apply kept_pilotC
    | with_reducible apply kept_logEv
    | with_reducible apply kept_onLink
    | with_reducible apply kept_pilotB
    | with_reducible refine kept_foldl ?_ (fun s a h => ?_)
    | (intro x'; clear_value x')
    | intro _
    | dsimp only [s']
    | split

theorem kept_pilotA (a0 : ℕ) (h : Kept b p i s) :
    Kept b p i (pilotA a0 s) := by
  unfold pilotA
  repeat' first
    | with_reducible assumption
    | (intro (s : State) (h : Kept b p i s))
    | (intro _ (s : State) (h : Kept b p i s))
    | (intro (h : Kept b p i _))
    | (intro (s' : State); refine_lift have h : Kept b p i s' := ?_; ?_; clear_value s')
    | lift_lets
    | with_reducible apply keptO_next
    | with_reducible apply kept_ite
    | with_reducible apply kept_onLink
    | with_reducible apply kept_endSession
    | with_reducible apply kept_requestUnlock
    | with_reducible apply kept_setSup
    | with_reducible refine kept_foldl ?_ (fun s a h => ?_)
    | (intro x'; clear_value x')
    | intro _
    | dsimp only [s']
    | split

theorem kept_pilotFault (a0 : ℕ) (h : Kept b p i s) :
    Kept b p i (pilotFault a0 s) := by
  unfold pilotFault
  repeat' first
    | with_reducible assumption
    | (intro (s : State) (h : Kept b p i s))
    | (intro _ (s : State) (h : Kept b p i s))
    | (intro (h : Kept b p i _))
    | (intro (s' : State); refine_lift have h : Kept b p i s' := ?_; ?_; clear_value s')
    | lift_lets
    | with_reducible apply keptO_next
    | with_reducible apply kept_ite
    | with_reducible apply kept_onLink
    | with_reducible apply kept_endSession
    | with_reducible apply kept_setSup
    | with_reducible refine kept_foldl ?_ (fun s a h => ?_)
    | (intro x'; clear_value x')
    | intro _
    | dsimp only [s']
    | split

theorem kept_row1 (a0 : ℕ) (a1 : Cp) (a2 : Cp) (h : Kept b p i s) :
    Kept b p i (row1 a0 a1 a2 s) := by
  unfold row1
  repeat' first
    | with_reducible assumption
    | (intro (s : State) (h : Kept b p i s))
    | (intro _ (s : State) (h : Kept b p i s))
    | (intro (h : Kept b p i _))
    | (intro (s' : State); refine_lift have h : Kept b p i s' := ?_; ?_; clear_value s')
    | lift_lets
    | with_reducible apply keptO_next
    | with_reducible apply kept_ite
    | with_reducible apply kept_illegal
    | with_reducible refine kept_foldl ?_ (fun s a h => ?_)
    | (intro x'; clear_value x')
    | intro _
    | dsimp only [s']
    | split

theorem kept_rows34 (a0 : ℕ) (a1 : ℕ) (a2 : Cp) (a3 : Cp) (h : Kept b p i s) :
    Kept b p i (rows34 a0 a1 a2 a3 s) := by
  unfold rows34
  repeat' first
    | with_reducible assumption
    | (intro (s : State) (h : Kept b p i s))
    | (intro _ (s : State) (h : Kept b p i s))
    | (intro (h : Kept b p i _))
    | (intro (s' : State); refine_lift have h : Kept b p i s' := ?_; ?_; clear_value s')
    | lift_lets
    | with_reducible apply keptO_next
    | with_reducible apply kept_ite
    | with_reducible apply kept_onLink
    | with_reducible apply kept_illegal
    | with_reducible apply kept_slacCheck
    | with_reducible apply kept_pilotB
    | with_reducible refine kept_foldl ?_ (fun s a h => ?_)
    | (intro x'; clear_value x')
    | intro _
    | dsimp only [s']
    | split

theorem kept_row5 (a0 : ℕ) (a1 : Cp) (a2 : Cp) (h : Kept b p i s) :
    Kept b p i (row5 a0 a1 a2 s) := by
  unfold row5
  repeat' first
    | with_reducible assumption
    | (intro (s : State) (h : Kept b p i s))
    | (intro _ (s : State) (h : Kept b p i s))
    | (intro (h : Kept b p i _))
    | (intro (s' : State); refine_lift have h : Kept b p i s' := ?_; ?_; clear_value s')
    | lift_lets
    | with_reducible apply keptO_next
    | with_reducible apply kept_ite
    | with_reducible apply kept_onLink
    | with_reducible apply kept_logEv
    | with_reducible apply kept_endSession
    | with_reducible apply kept_setSup
    | with_reducible refine kept_foldl ?_ (fun s a h => ?_)
    | (intro x'; clear_value x')
    | intro _
    | dsimp only [s']
    | split

theorem kept_countToggle (a0 : ℕ) (a1 : Cp) (a2 : Cp) (h : Kept b p i s) :
    Kept b p i (countToggle a0 a1 a2 s) := by
  unfold countToggle
  repeat' first
    | with_reducible assumption
    | (intro (s : State) (h : Kept b p i s))
    | (intro _ (s : State) (h : Kept b p i s))
    | (intro (h : Kept b p i _))
    | (intro (s' : State); refine_lift have h : Kept b p i s' := ?_; ?_; clear_value s')
    | lift_lets
    | with_reducible apply keptO_next
    | with_reducible apply kept_ite
    | with_reducible apply kept_onLink
    | with_reducible apply kept_endValidation
    | with_reducible refine kept_foldl ?_ (fun s a h => ?_)
    | (intro x'; clear_value x')
    | intro _
    | dsimp only [s']
    | split

theorem kept_clearRequest (a0 : ℕ) (h : Kept b p i s) :
    Kept b p i (clearRequest a0 s) := by
  unfold clearRequest
  repeat' first
    | with_reducible assumption
    | (intro (s : State) (h : Kept b p i s))
    | (intro _ (s : State) (h : Kept b p i s))
    | (intro (h : Kept b p i _))
    | (intro (s' : State); refine_lift have h : Kept b p i s' := ?_; ?_; clear_value s')
    | lift_lets
    | with_reducible apply keptO_next
    | with_reducible apply kept_ite
    | with_reducible apply kept_dropRelease
    | with_reducible apply kept_beginPostOpen
    | with_reducible refine kept_foldl ?_ (fun s a h => ?_)
    | (intro x'; clear_value x')
    | intro _
    | dsimp only [s']
    | split

theorem kept_actOn (a0 : ℕ) (a1 : Cp) (a2 : ℤ) (h : Kept b p i s) :
    Kept b p i (actOn a0 a1 a2 s) := by
  unfold actOn
  repeat' first
    | with_reducible assumption
    | (intro (s : State) (h : Kept b p i s))
    | (intro _ (s : State) (h : Kept b p i s))
    | (intro (h : Kept b p i _))
    | (intro (s' : State); refine_lift have h : Kept b p i s' := ?_; ?_; clear_value s')
    | lift_lets
    | with_reducible apply keptO_next
    | with_reducible apply kept_ite
    | with_reducible apply kept_clearRequest
    | with_reducible apply kept_pilotA
    | with_reducible apply kept_pilotB
    | with_reducible apply kept_pilotC
    | with_reducible apply kept_pilotD
    | with_reducible apply kept_endSession
    | with_reducible apply kept_logEv
    | with_reducible apply kept_pilotFault
    | with_reducible refine kept_foldl ?_ (fun s a h => ?_)
    | (intro x'; clear_value x')
    | intro _
    | dsimp only [s']
    | split

theorem kept_acceptState (a0 : ℕ) (a1 : ℤ) (a2 : ℤ) (h : Kept b p i s) :
    Kept b p i (acceptState a0 a1 a2 s) := by
  unfold acceptState
  repeat' first
    | with_reducible assumption
    | (intro (s : State) (h : Kept b p i s))
    | (intro _ (s : State) (h : Kept b p i s))
    | (intro (h : Kept b p i _))
    | (intro (s' : State); refine_lift have h : Kept b p i s' := ?_; ?_; clear_value s')
    | lift_lets
    | with_reducible apply keptO_next
    | with_reducible apply kept_ite
    | with_reducible apply kept_onLink
    | with_reducible apply kept_row1
    | with_reducible apply kept_rows34
    | with_reducible apply kept_countToggle
    | with_reducible apply kept_actOn
    | with_reducible apply kept_slacCheck
    | with_reducible apply kept_row5
    | with_reducible refine kept_foldl ?_ (fun s a h => ?_)
    | (intro x'; clear_value x')
    | intro _
    | dsimp only [s']
    | split

theorem kept_pilotAccepted (a0 : ℕ) (a1 : ℤ) (a2 : ℤ) (h : Kept b p i s) :
    Kept b p i (pilotAccepted a0 a1 a2 s) := by
  unfold pilotAccepted
  repeat' first
    | with_reducible assumption
    | (intro (s : State) (h : Kept b p i s))
    | (intro _ (s : State) (h : Kept b p i s))
    | (intro (h : Kept b p i _))
    | (intro (s' : State); refine_lift have h : Kept b p i s' := ?_; ?_; clear_value s')
    | lift_lets
    | with_reducible apply keptO_next
    | with_reducible apply kept_ite
    | with_reducible apply kept_onLink
    | with_reducible apply kept_acceptState
    | with_reducible refine kept_foldl ?_ (fun s a h => ?_)
    | (intro x'; clear_value x')
    | intro _
    | dsimp only [s']
    | split

theorem kept_execPilotFaultHold (a0 : ℕ) (a1 : Bool) (h : Kept b p i s) :
    KeptO b p i (execPilotFaultHold a0 a1 s) := by
  unfold execPilotFaultHold
  repeat' first
    | with_reducible assumption
    | (intro (s : State) (h : Kept b p i s))
    | (intro _ (s : State) (h : Kept b p i s))
    | (intro (h : Kept b p i _))
    | (intro (s' : State); refine_lift have h : Kept b p i s' := ?_; ?_; clear_value s')
    | lift_lets
    | with_reducible apply keptO_next
    | with_reducible apply kept_ite
    | with_reducible apply keptO_ite
    | with_reducible apply kept_illegal
    | with_reducible apply kept_onLink
    | with_reducible apply kept_setSup
    | with_reducible apply kept_requestUnlock
    | with_reducible apply kept_connect
    | with_reducible refine kept_foldl ?_ (fun s a h => ?_)
    | (intro x'; clear_value x')
    | intro _
    | dsimp only [s']
    | split

theorem kept_execPilotModeTransitionEnd (a0 : ℕ) (h : Kept b p i s) :
    KeptO b p i (execPilotModeTransitionEnd a0 s) := by
  unfold execPilotModeTransitionEnd
  repeat' first
    | with_reducible assumption
    | (intro (s : State) (h : Kept b p i s))
    | (intro _ (s : State) (h : Kept b p i s))
    | (intro (h : Kept b p i _))
    | (intro (s' : State); refine_lift have h : Kept b p i s' := ?_; ?_; clear_value s')
    | lift_lets
    | with_reducible apply keptO_next
    | with_reducible apply kept_ite
    | with_reducible apply keptO_ite
    | with_reducible apply kept_offerChanged
    | with_reducible apply kept_onLink
    | with_reducible refine kept_foldl ?_ (fun s a h => ?_)
    | (intro x'; clear_value x')
    | intro _
    | dsimp only [s']
    | split

theorem kept_pilotWrite (a0 : ℕ) (a1 : ℕ) (h : Kept b p i s) :
    Kept b p i (pilotWrite a0 a1 s) := by
  unfold pilotWrite
  repeat' first
    | with_reducible assumption
    | (intro (s : State) (h : Kept b p i s))
    | (intro _ (s : State) (h : Kept b p i s))
    | (intro (h : Kept b p i _))
    | (intro (s' : State); refine_lift have h : Kept b p i s' := ?_; ?_; clear_value s')
    | lift_lets
    | with_reducible apply keptO_next
    | with_reducible apply kept_ite
    | with_reducible apply kept_offerChanged
    | with_reducible apply kept_enterMode
    | with_reducible apply kept_onLink
    | with_reducible refine kept_foldl ?_ (fun s a h => ?_)
    | (intro x'; clear_value x')
    | intro _
    | dsimp only [s']
    | split

theorem kept_execVlkPilotWrite (a0 : ℕ) (a1 : Word) (h : Kept b p i s) :
    KeptO b p i (execVlkPilotWrite a0 a1 s) := by
  unfold execVlkPilotWrite
  repeat' first
    | with_reducible assumption
    | (intro (s : State) (h : Kept b p i s))
    | (intro _ (s : State) (h : Kept b p i s))
    | (intro (h : Kept b p i _))
    | (intro (s' : State); refine_lift have h : Kept b p i s' := ?_; ?_; clear_value s')
    | lift_lets
    | with_reducible apply keptO_next
    | with_reducible apply kept_ite
    | with_reducible apply keptO_ite
    | with_reducible apply kept_pilotWrite
    | with_reducible refine kept_foldl ?_ (fun s a h => ?_)
    | (intro x'; clear_value x')
    | intro _
    | dsimp only [s']
    | split

theorem kept_execProximityCode (a0 : ℕ) (a1 : ℕ) (h : Kept b p i s) :
    KeptO b p i (execProximityCode a0 a1 s) := by
  unfold execProximityCode
  repeat' first
    | with_reducible assumption
    | (intro (s : State) (h : Kept b p i s))
    | (intro _ (s : State) (h : Kept b p i s))
    | (intro (h : Kept b p i _))
    | (intro (s' : State); refine_lift have h : Kept b p i s' := ?_; ?_; clear_value s')
    | lift_lets
    | with_reducible apply keptO_next
    | with_reducible apply kept_ite
    | with_reducible apply keptO_ite
    | with_reducible apply kept_bump
    | with_reducible apply kept_onLink
    | with_reducible apply kept_endSession
    | with_reducible apply kept_logEv
    | with_reducible apply kept_offerChanged
    | with_reducible refine kept_foldl ?_ (fun s a h => ?_)
    | (intro x'; clear_value x')
    | intro _
    | dsimp only [s']
    | split

theorem kept_execVlkStart (a0 : Req) (a1 : ℕ) (h : Kept b p i s) :
    KeptO b p i (execVlkStart a0 a1 s) := by
  unfold execVlkStart
  repeat' first
    | with_reducible assumption
    | (intro (s : State) (h : Kept b p i s))
    | (intro _ (s : State) (h : Kept b p i s))
    | (intro (h : Kept b p i _))
    | (intro (s' : State); refine_lift have h : Kept b p i s' := ?_; ?_; clear_value s')
    | lift_lets
    | with_reducible apply keptO_next
    | with_reducible apply kept_ite
    | with_reducible apply keptO_ite
    | with_reducible apply kept_guarded
    | with_reducible apply kept_startSession
    | with_reducible apply kept_postSts
    | with_reducible refine kept_foldl ?_ (fun s a h => ?_)
    | (intro x'; clear_value x')
    | intro _
    | dsimp only [s']
    | split

theorem kept_execVlkStop (a0 : Req) (a1 : ℕ) (a2 : ℕ) (h : Kept b p i s) :
    KeptO b p i (execVlkStop a0 a1 a2 s) := by
  unfold execVlkStop
  repeat' first
    | with_reducible assumption
    | (intro (s : State) (h : Kept b p i s))
    | (intro _ (s : State) (h : Kept b p i s))
    | (intro (h : Kept b p i _))
    | (intro (s' : State); refine_lift have h : Kept b p i s' := ?_; ?_; clear_value s')
    | lift_lets
    | with_reducible apply keptO_next
    | with_reducible apply kept_ite
    | with_reducible apply keptO_ite
    | with_reducible apply kept_guarded
    | with_reducible apply kept_endSession
    | with_reducible apply kept_postSts
    | with_reducible refine kept_foldl ?_ (fun s a h => ?_)
    | (intro x'; clear_value x')
    | intro _
    | dsimp only [s']
    | split

theorem kept_execVlkUnlock (a0 : Req) (a1 : ℕ) (h : Kept b p i s) :
    KeptO b p i (execVlkUnlock a0 a1 s) := by
  unfold execVlkUnlock
  repeat' first
    | with_reducible assumption
    | (intro (s : State) (h : Kept b p i s))
    | (intro _ (s : State) (h : Kept b p i s))
    | (intro (h : Kept b p i _))
    | (intro (s' : State); refine_lift have h : Kept b p i s' := ?_; ?_; clear_value s')
    | lift_lets
    | with_reducible apply keptO_next
    | with_reducible apply kept_ite
    | with_reducible apply keptO_ite
    | with_reducible apply kept_guarded
    | with_reducible apply kept_requestUnlock
    | with_reducible apply kept_postSts
    | with_reducible apply kept_setSup
    | with_reducible refine kept_foldl ?_ (fun s a h => ?_)
    | (intro x'; clear_value x')
    | intro _
    | dsimp only [s']
    | split

theorem kept_execReleaseRetry (a0 : ℕ) (h : Kept b p i s) :
    KeptO b p i (execReleaseRetry a0 s) := by
  unfold execReleaseRetry
  repeat' first
    | with_reducible assumption
    | (intro (s : State) (h : Kept b p i s))
    | (intro _ (s : State) (h : Kept b p i s))
    | (intro (h : Kept b p i _))
    | (intro (s' : State); refine_lift have h : Kept b p i s' := ?_; ?_; clear_value s')
    | lift_lets
    | with_reducible apply keptO_next
    | with_reducible apply kept_ite
    | with_reducible apply keptO_ite
    | with_reducible apply kept_endSession
    | with_reducible apply kept_logEv
    | with_reducible apply kept_onOwl
    | with_reducible apply kept_onLink
    | with_reducible refine kept_foldl ?_ (fun s a h => ?_)
    | (intro (x : OwlBlock) hx; first | (simp only [OwlBlock.shape] at hx ⊢; with_reducible exact hx) | (simp only [OwlBlock.shape, List.length_mapIdx, List.length_map, upd_length, put_length] at hx ⊢; with_reducible exact hx) | (simp_all [OwlBlock.shape]; done) | ((repeat' split) <;> first | exact hx | (simp_all [OwlBlock.shape]; done)))
    | (intro x'; clear_value x')
    | intro _
    | dsimp only [s']
    | split

theorem kept_execDcContactorOpen (a0 : ℕ) (h : Kept b p i s) :
    KeptO b p i (execDcContactorOpen a0 s) := by
  unfold execDcContactorOpen
  repeat' first
    | with_reducible assumption
    | (intro (s : State) (h : Kept b p i s))
    | (intro _ (s : State) (h : Kept b p i s))
    | (intro (h : Kept b p i _))
    | (intro (s' : State); refine_lift have h : Kept b p i s' := ?_; ?_; clear_value s')
    | lift_lets
    | with_reducible apply keptO_next
    | with_reducible apply kept_ite
    | with_reducible apply keptO_ite
    | with_reducible apply kept_beginPostOpen
    | with_reducible apply kept_dropRelease
    | with_reducible refine kept_foldl ?_ (fun s a h => ?_)
    | (intro x'; clear_value x')
    | intro _
    | dsimp only [s']
    | split

theorem kept_execOverdraw (a0 : ℕ) (a1 : ℕ) (a2 : ℕ) (h : Kept b p i s) :
    KeptO b p i (execOverdraw a0 a1 a2 s) := by
  unfold execOverdraw
  repeat' first
    | with_reducible assumption
    | (intro (s : State) (h : Kept b p i s))
    | (intro _ (s : State) (h : Kept b p i s))
    | (intro (h : Kept b p i _))
    | (intro (s' : State); refine_lift have h : Kept b p i s' := ?_; ?_; clear_value s')
    | lift_lets
    | with_reducible apply keptO_next
    | with_reducible apply kept_ite
    | with_reducible apply keptO_ite
    | with_reducible apply kept_onLink
    | with_reducible apply kept_endSession
    | with_reducible apply kept_logEv
    | with_reducible refine kept_foldl ?_ (fun s a h => ?_)
    | (intro x'; clear_value x')
    | intro _
    | dsimp only [s']
    | split

end Sys2Proof.Machine
end

