-- ==== Sys2Proof/Laws/KeptWake.lean ====
section
/-! SUPPORT. What the operations of Wake.lean keep. -/

set_option linter.unusedSimpArgs false
set_option linter.unusedVariables false
set_option linter.unreachableTactic false
set_option linter.unusedTactic false

namespace Sys2Proof.Machine

variable {b : Prop} {p : List Instr} {i : Ident} {s : State}

theorem kept_endEntry (a0 : SleepEntry) (a1 : ℕ) (a2 : ℕ) (a3 : ℕ) (a4 : ℕ) (a5 : Bool) (a6 : ℕ) (h : Kept b p i s) :
    Kept b p i (endEntry a0 a1 a2 a3 a4 a5 a6 s) := by
  unfold endEntry
  repeat' first
    | with_reducible assumption
    | (intro (s : State) (h : Kept b p i s))
    | (intro _ (s : State) (h : Kept b p i s))
    | (intro (h : Kept b p i _))
    | (intro (s' : State); refine_lift have h : Kept b p i s' := ?_; ?_; clear_value s')
    | lift_lets
    | with_reducible apply keptO_next
    | with_reducible apply kept_ite
    | with_reducible apply kept_onSys
    | with_reducible apply kept_onMet
    | with_reducible apply kept_onGlk
    | with_reducible apply kept_logEv
    | with_reducible apply kept_post
    | with_reducible refine kept_foldl ?_ (fun s a h => ?_)
    | (intro (x : MetBlock) hx; first | (simp only [MetBlock.shape] at hx ⊢; with_reducible exact hx) | (simp only [MetBlock.shape, List.length_mapIdx, List.length_map, upd_length, put_length] at hx ⊢; with_reducible exact hx) | (simp_all [MetBlock.shape]; done) | ((repeat' split) <;> first | exact hx | (simp_all [MetBlock.shape]; done)))
    | (intro (x : SysBlock) hx; first | exact hx | exact ⟨Nat.zero_le _, hx.2⟩)
    | (intro x'; clear_value x')
    | intro _
    | dsimp only [s']
    | split

theorem kept_abandonSleep (a0 : SleepEntry) (a1 : ℕ) (h : Kept b p i s) :
    Kept b p i (abandonSleep a0 a1 s) := by
  unfold abandonSleep
  repeat' first
    | with_reducible assumption
    | (intro (s : State) (h : Kept b p i s))
    | (intro _ (s : State) (h : Kept b p i s))
    | (intro (h : Kept b p i _))
    | (intro (s' : State); refine_lift have h : Kept b p i s' := ?_; ?_; clear_value s')
    | lift_lets
    | with_reducible apply keptO_next
    | with_reducible apply kept_ite
    | with_reducible apply kept_onSys
    | with_reducible apply kept_onMgt
    | with_reducible apply kept_endEntry
    | with_reducible refine kept_foldl ?_ (fun s a h => ?_)
    | (intro (x : SysBlock) hx; first | exact hx | exact ⟨Nat.zero_le _, hx.2⟩)
    | (intro (x : MgtBlock) hx; first | exact hx | exact ⟨Nat.zero_le _, Nat.zero_le _⟩ | exact ⟨hx.1, Nat.zero_le _⟩)
    | (intro x'; clear_value x')
    | intro _
    | dsimp only [s']
    | split

theorem kept_actLatched  (h : Kept b p i s) :
    Kept b p i (actLatched s) := by
  unfold actLatched
  repeat' first
    | with_reducible assumption
    | (intro (s : State) (h : Kept b p i s))
    | (intro _ (s : State) (h : Kept b p i s))
    | (intro (h : Kept b p i _))
    | (intro (s' : State); refine_lift have h : Kept b p i s' := ?_; ?_; clear_value s')
    | lift_lets
    | with_reducible apply keptO_next
    | with_reducible apply kept_ite
    | with_reducible apply kept_tamperAct
    | with_reducible apply kept_onKey
    | with_reducible refine kept_foldl ?_ (fun s a h => ?_)
    | (intro (x : KeyBlock) hx; first | (simp only [KeyBlock.shape] at hx ⊢; with_reducible exact hx) | (simp only [KeyBlock.shape, List.length_mapIdx, List.length_map, upd_length, put_length] at hx ⊢; with_reducible exact hx) | (simp_all [KeyBlock.shape]; done) | ((repeat' split) <;> first | exact hx | (simp_all [KeyBlock.shape]; done)))
    | (intro x'; clear_value x')
    | intro _
    | dsimp only [s']
    | split

theorem kept_hsiWake (h : Kept b p i s) : Kept b p i (hsiWake s) :=
  kept_onHsi h fun _ hx => hx

theorem kept_wakeFromWatch (a0 : ℕ) (h : Kept b p i s) :
    Kept b p i (wakeFromWatch a0 s) := by
  unfold wakeFromWatch
  repeat' first
    | with_reducible assumption
    | (intro (s : State) (h : Kept b p i s))
    | (intro _ (s : State) (h : Kept b p i s))
    | (intro (h : Kept b p i _))
    | (intro (s' : State); refine_lift have h : Kept b p i s' := ?_; ?_; clear_value s')
    | lift_lets
    | with_reducible apply keptO_next
    | with_reducible apply kept_ite
    | with_reducible apply kept_onSys
    | with_reducible apply kept_onGlk
    | with_reducible apply kept_drainRetention
    | with_reducible apply kept_setMode
    | with_reducible apply kept_actLatched
    | with_reducible apply kept_loadSlots
    | with_reducible apply kept_deriveSlots
    | with_reducible apply kept_slotsChanged
    | with_reducible apply kept_glkAfterWatch
    | with_reducible apply kept_flushProfile
    | with_reducible apply kept_checkWake
    | with_reducible apply kept_hsiWake
    | with_reducible apply kept_onCans
    | with_reducible apply kept_evalMode
    | with_reducible apply kept_slacChecks
    | with_reducible refine kept_foldl ?_ (fun s a h => ?_)
    | (intro (x : SysBlock) hx; first | exact hx | exact ⟨Nat.zero_le _, hx.2⟩)
    | (intro x'; clear_value x')
    | intro _
    | dsimp only [s']
    | split

theorem kept_wakeBy (a0 : ℕ) (a1 : Bool) (h : Kept b p i s) :
    Kept b p i (wakeBy a0 a1 s) := by
  unfold wakeBy
  repeat' first
    | with_reducible assumption
    | (intro (s : State) (h : Kept b p i s))
    | (intro _ (s : State) (h : Kept b p i s))
    | (intro (h : Kept b p i _))
    | (intro (s' : State); refine_lift have h : Kept b p i s' := ?_; ?_; clear_value s')
    | lift_lets
    | with_reducible apply keptO_next
    | with_reducible apply kept_ite
    | with_reducible apply kept_abandonSleep
    | with_reducible apply kept_wakeFromWatch
    | with_reducible apply kept_onSys
    | with_reducible refine kept_foldl ?_ (fun s a h => ?_)
    | (intro (x : SysBlock) hx; first | exact hx | exact ⟨Nat.zero_le _, hx.2⟩)
    | (intro x'; clear_value x')
    | intro _
    | dsimp only [s']
    | split

theorem kept_execWakeEvent (a0 : ℕ) (a1 : Bool) (h : Kept b p i s) :
    KeptO b p i (execWakeEvent a0 a1 s) := by
  unfold execWakeEvent
  repeat' first
    | with_reducible assumption
    | (intro (s : State) (h : Kept b p i s))
    | (intro _ (s : State) (h : Kept b p i s))
    | (intro (h : Kept b p i _))
    | (intro (s' : State); refine_lift have h : Kept b p i s' := ?_; ?_; clear_value s')
    | lift_lets
    | with_reducible apply keptO_next
    | with_reducible apply kept_ite
    | with_reducible apply keptO_ite
    | with_reducible apply kept_wakeBy
    | with_reducible refine kept_foldl ?_ (fun s a h => ?_)
    | (intro x'; clear_value x')
    | intro _
    | dsimp only [s']
    | split

theorem kept_execSysWakeWrite (a0 : Word) (h : Kept b p i s) :
    KeptO b p i (execSysWakeWrite a0 s) := by
  unfold execSysWakeWrite
  repeat' first
    | with_reducible assumption
    | (intro (s : State) (h : Kept b p i s))
    | (intro _ (s : State) (h : Kept b p i s))
    | (intro (h : Kept b p i _))
    | (intro (s' : State); refine_lift have h : Kept b p i s' := ?_; ?_; clear_value s')
    | lift_lets
    | with_reducible apply keptO_next
    | with_reducible apply kept_ite
    | with_reducible apply keptO_ite
    | with_reducible apply kept_wakeBy
    | with_reducible refine kept_foldl ?_ (fun s a h => ?_)
    | (intro x'; clear_value x')
    | intro _
    | dsimp only [s']
    | split

theorem kept_execSysWakesrcRead (a0 : Side) (h : Kept b p i s) :
    KeptO b p i (execSysWakesrcRead a0 s) := by
  unfold execSysWakesrcRead
  repeat' first
    | with_reducible assumption
    | (intro (s : State) (h : Kept b p i s))
    | (intro _ (s : State) (h : Kept b p i s))
    | (intro (h : Kept b p i _))
    | (intro (s' : State); refine_lift have h : Kept b p i s' := ?_; ?_; clear_value s')
    | lift_lets
    | with_reducible apply keptO_next
    | with_reducible apply kept_ite
    | with_reducible apply keptO_ite
    | with_reducible apply kept_returns
    | with_reducible apply kept_onSys
    | with_reducible refine kept_foldl ?_ (fun s a h => ?_)
    | (intro (x : SysBlock) hx; first | exact hx | exact ⟨Nat.zero_le _, hx.2⟩)
    | (intro x'; clear_value x')
    | intro _
    | dsimp only [s']
    | split

theorem kept_execAlarmFire  (h : Kept b p i s) :
    KeptO b p i (execAlarmFire s) := by
  unfold execAlarmFire
  repeat' first
    | with_reducible assumption
    | (intro (s : State) (h : Kept b p i s))
    | (intro _ (s : State) (h : Kept b p i s))
    | (intro (h : Kept b p i _))
    | (intro (s' : State); refine_lift have h : Kept b p i s' := ?_; ?_; clear_value s')
    | lift_lets
    | with_reducible apply keptO_next
    | with_reducible apply kept_ite
    | with_reducible apply keptO_ite
    | with_reducible apply kept_wakeBy
    | with_reducible apply kept_fireAlarm
    | with_reducible refine kept_foldl ?_ (fun s a h => ?_)
    | (intro x'; clear_value x')
    | intro _
    | dsimp only [s']
    | split

theorem kept_countdown  (h : Kept b p i s) :
    Kept b p i (countdown s) := by
  unfold countdown
  repeat' first
    | with_reducible assumption
    | (intro (s : State) (h : Kept b p i s))
    | (intro _ (s : State) (h : Kept b p i s))
    | (intro (h : Kept b p i _))
    | (intro (s' : State); refine_lift have h : Kept b p i s' := ?_; ?_; clear_value s')
    | lift_lets
    | with_reducible apply keptO_next
    | with_reducible apply kept_ite
    | with_reducible apply kept_onKey
    | with_reducible apply kept_onUpd
    | with_reducible refine kept_foldl ?_ (fun s a h => ?_)
    | (intro (x : KeyBlock) hx; first | (simp only [KeyBlock.shape] at hx ⊢; with_reducible exact hx) | (simp only [KeyBlock.shape, List.length_mapIdx, List.length_map, upd_length, put_length] at hx ⊢; with_reducible exact hx) | (simp_all [KeyBlock.shape]; done) | ((repeat' split) <;> first | exact hx | (simp_all [KeyBlock.shape]; done)))
    | (intro (x : UpdBlock) hx; first | (simp only [UpdBlock.shape] at hx ⊢; with_reducible exact hx) | (simp only [UpdBlock.shape, List.length_mapIdx, List.length_map, upd_length, put_length] at hx ⊢; with_reducible exact hx) | (simp_all [UpdBlock.shape]; done) | ((repeat' split) <;> first | exact hx | (simp_all [UpdBlock.shape]; done)))
    | (intro x'; clear_value x')
    | intro _
    | dsimp only [s']
    | split

theorem kept_execSecondBoundary  (h : Kept b p i s) :
    KeptO b p i (execSecondBoundary s) := by
  unfold execSecondBoundary
  repeat' first
    | with_reducible assumption
    | (intro (s : State) (h : Kept b p i s))
    | (intro _ (s : State) (h : Kept b p i s))
    | (intro (h : Kept b p i _))
    | (intro (s' : State); refine_lift have h : Kept b p i s' := ?_; ?_; clear_value s')
    | lift_lets
    | with_reducible apply keptO_next
    | with_reducible apply kept_ite
    | with_reducible apply keptO_ite
    | with_reducible apply kept_countdown
    | with_reducible apply kept_secondBoundary
    | with_reducible apply kept_wakeBy
    | with_reducible refine kept_foldl ?_ (fun s a h => ?_)
    | (intro x'; clear_value x')
    | intro _
    | dsimp only [s']
    | split

theorem kept_execPilotStateAccepted (a0 : ℕ) (a1 : ℤ) (a2 : ℤ) (h : Kept b p i s) :
    KeptO b p i (execPilotStateAccepted a0 a1 a2 s) := by
  unfold execPilotStateAccepted
  repeat' first
    | with_reducible assumption
    | (intro (s : State) (h : Kept b p i s))
    | (intro _ (s : State) (h : Kept b p i s))
    | (intro (h : Kept b p i _))
    | (intro (s' : State); refine_lift have h : Kept b p i s' := ?_; ?_; clear_value s')
    | lift_lets
    | with_reducible apply keptO_next
    | with_reducible apply kept_ite
    | with_reducible apply keptO_ite
    | with_reducible apply kept_wakeBy
    | with_reducible apply kept_pilotAccepted
    | with_reducible apply kept_slacCheck
    | with_reducible refine kept_foldl ?_ (fun s a h => ?_)
    | (intro x'; clear_value x')
    | intro _
    | dsimp only [s']
    | split

theorem kept_execFieldDetection  (h : Kept b p i s) :
    KeptO b p i (execFieldDetection s) := by
  unfold execFieldDetection
  repeat' first
    | with_reducible assumption
    | (intro (s : State) (h : Kept b p i s))
    | (intro _ (s : State) (h : Kept b p i s))
    | (intro (h : Kept b p i _))
    | (intro (s' : State); refine_lift have h : Kept b p i s' := ?_; ?_; clear_value s')
    | lift_lets
    | with_reducible apply keptO_next
    | with_reducible apply kept_ite
    | with_reducible apply keptO_ite
    | with_reducible apply kept_wakeBy
    | with_reducible apply kept_takeDetection
    | with_reducible refine kept_foldl ?_ (fun s a h => ?_)
    | (intro x'; clear_value x')
    | intro _
    | dsimp only [s']
    | split

theorem kept_execFullPoll (a0 : PollInput) (h : Kept b p i s) :
    KeptO b p i (execFullPoll a0 s) := by
  unfold execFullPoll
  repeat' first
    | with_reducible assumption
    | (intro (s : State) (h : Kept b p i s))
    | (intro _ (s : State) (h : Kept b p i s))
    | (intro (h : Kept b p i _))
    | (intro (s' : State); refine_lift have h : Kept b p i s' := ?_; ?_; clear_value s')
    | lift_lets
    | with_reducible apply keptO_next
    | with_reducible apply kept_ite
    | with_reducible apply keptO_ite
    | with_reducible apply kept_fullPoll
    | with_reducible apply kept_wakeBy
    | with_reducible refine kept_foldl ?_ (fun s a h => ?_)
    | (intro x'; clear_value x')
    | intro _
    | dsimp only [s']
    | split

theorem kept_tamperDetect (a0 : ℕ) (h : Kept b p i s) :
    Kept b p i (tamperDetect a0 s) := by
  unfold tamperDetect
  repeat' first
    | with_reducible assumption
    | (intro (s : State) (h : Kept b p i s))
    | (intro _ (s : State) (h : Kept b p i s))
    | (intro (h : Kept b p i _))
    | (intro (s' : State); refine_lift have h : Kept b p i s' := ?_; ?_; clear_value s')
    | lift_lets
    | with_reducible apply keptO_next
    | with_reducible apply kept_ite
    | with_reducible apply kept_onKey
    | with_reducible apply kept_wakeBy
    | with_reducible apply kept_tamperAct
    | with_reducible refine kept_foldl ?_ (fun s a h => ?_)
    | (intro (x : KeyBlock) hx; first | (simp only [KeyBlock.shape] at hx ⊢; with_reducible exact hx) | (simp only [KeyBlock.shape, List.length_mapIdx, List.length_map, upd_length, put_length] at hx ⊢; with_reducible exact hx) | (simp_all [KeyBlock.shape]; done) | ((repeat' split) <;> first | exact hx | (simp_all [KeyBlock.shape]; done)))
    | (intro x'; clear_value x')
    | intro _
    | dsimp only [s']
    | split

theorem kept_execTamperDetect (a0 : ℕ) (h : Kept b p i s) :
    KeptO b p i (execTamperDetect a0 s) := by
  unfold execTamperDetect
  repeat' first
    | with_reducible assumption
    | (intro (s : State) (h : Kept b p i s))
    | (intro _ (s : State) (h : Kept b p i s))
    | (intro (h : Kept b p i _))
    | (intro (s' : State); refine_lift have h : Kept b p i s' := ?_; ?_; clear_value s')
    | lift_lets
    | with_reducible apply keptO_next
    | with_reducible apply kept_ite
    | with_reducible apply keptO_ite
    | with_reducible apply kept_tamperDetect
    | with_reducible refine kept_foldl ?_ (fun s a h => ?_)
    | (intro x'; clear_value x')
    | intro _
    | dsimp only [s']
    | split

theorem kept_execCrackLoopMeasure (a0 : ℕ) (a1 : Bool) (h : Kept b p i s) :
    KeptO b p i (execCrackLoopMeasure a0 a1 s) := by
  unfold execCrackLoopMeasure
  repeat' first
    | with_reducible assumption
    | (intro (s : State) (h : Kept b p i s))
    | (intro _ (s : State) (h : Kept b p i s))
    | (intro (h : Kept b p i _))
    | (intro (s' : State); refine_lift have h : Kept b p i s' := ?_; ?_; clear_value s')
    | lift_lets
    | with_reducible apply keptO_next
    | with_reducible apply kept_ite
    | with_reducible apply keptO_ite
    | with_reducible apply kept_crackMeasure
    | with_reducible apply kept_tamperDetect
    | with_reducible refine kept_foldl ?_ (fun s a h => ?_)
    | (intro x'; clear_value x')
    | intro _
    | dsimp only [s']
    | split

theorem kept_execMonitorEvaluate (a0 : MonitorInput) (h : Kept b p i s) :
    KeptO b p i (execMonitorEvaluate a0 s) := by
  unfold execMonitorEvaluate
  repeat' first
    | with_reducible assumption
    | (intro (s : State) (h : Kept b p i s))
    | (intro _ (s : State) (h : Kept b p i s))
    | (intro (h : Kept b p i _))
    | (intro (s' : State); refine_lift have h : Kept b p i s' := ?_; ?_; clear_value s')
    | lift_lets
    | with_reducible apply keptO_next
    | with_reducible apply kept_ite
    | with_reducible apply keptO_ite
    | with_reducible apply kept_monitor
    | with_reducible apply kept_abandonSleep
    | with_reducible refine kept_foldl ?_ (fun s a h => ?_)
    | (intro x'; clear_value x')
    | intro _
    | dsimp only [s']
    | split

theorem kept_execGlkWakeInd (a0 : Bytes) (h : Kept b p i s) :
    KeptO b p i (execGlkWakeInd a0 s) := by
  unfold execGlkWakeInd
  repeat' first
    | with_reducible assumption
    | (intro (s : State) (h : Kept b p i s))
    | (intro _ (s : State) (h : Kept b p i s))
    | (intro (h : Kept b p i _))
    | (intro (s' : State); refine_lift have h : Kept b p i s' := ?_; ?_; clear_value s')
    | lift_lets
    | with_reducible apply keptO_next
    | with_reducible apply kept_ite
    | with_reducible apply keptO_ite
    | with_reducible apply kept_onGlk
    | with_reducible apply kept_wakeBy
    | with_reducible refine kept_foldl ?_ (fun s a h => ?_)
    | (intro x'; clear_value x')
    | intro _
    | dsimp only [s']
    | split

theorem kept_execSleep (a0 : Req) (a1 : ℕ) (h : Kept b p i s) :
    KeptO b p i (execSleep a0 a1 s) := by
  unfold execSleep
  repeat' first
    | with_reducible assumption
    | (intro (s : State) (h : Kept b p i s))
    | (intro _ (s : State) (h : Kept b p i s))
    | (intro (h : Kept b p i _))
    | (intro (s' : State); refine_lift have h : Kept b p i s' := ?_; ?_; clear_value s')
    | lift_lets
    | with_reducible apply keptO_next
    | with_reducible apply kept_ite
    | with_reducible apply keptO_ite
    | with_reducible apply kept_badgerCmd
    | with_reducible apply kept_guarded
    | with_reducible apply kept_pend
    | with_reducible apply kept_onSys
    | with_reducible refine kept_foldl ?_ (fun s a h => ?_)
    | (intro (x : SysBlock) hx; first | exact hx | exact ⟨Nat.zero_le _, hx.2⟩)
    | (intro x'; clear_value x')
    | intro _
    | dsimp only [s']
    | split

theorem kept_execSleepVoteTimeout (a0 : ℕ) (h : Kept b p i s) :
    KeptO b p i (execSleepVoteTimeout a0 s) := by
  unfold execSleepVoteTimeout
  repeat' first
    | with_reducible assumption
    | (intro (s : State) (h : Kept b p i s))
    | (intro _ (s : State) (h : Kept b p i s))
    | (intro (h : Kept b p i _))
    | (intro (s' : State); refine_lift have h : Kept b p i s' := ?_; ?_; clear_value s')
    | lift_lets
    | with_reducible apply keptO_next
    | with_reducible apply kept_ite
    | with_reducible apply keptO_ite
    | with_reducible apply kept_onSys
    | with_reducible apply kept_endEntry
    | with_reducible apply kept_onMgt
    | with_reducible refine kept_foldl ?_ (fun s a h => ?_)
    | (intro (x : SysBlock) hx; first | exact hx | exact ⟨Nat.zero_le _, hx.2⟩)
    | (intro (x : MgtBlock) hx; first | exact hx | exact ⟨Nat.zero_le _, Nat.zero_le _⟩ | exact ⟨hx.1, Nat.zero_le _⟩)
    | (intro x'; clear_value x')
    | intro _
    | dsimp only [s']
    | split

theorem kept_execSleepCommit  (h : Kept b p i s) :
    KeptO b p i (execSleepCommit s) := by
  unfold execSleepCommit
  repeat' first
    | with_reducible assumption
    | (intro (s : State) (h : Kept b p i s))
    | (intro _ (s : State) (h : Kept b p i s))
    | (intro (h : Kept b p i _))
    | (intro (s' : State); refine_lift have h : Kept b p i s' := ?_; ?_; clear_value s')
    | lift_lets
    | with_reducible apply keptO_next
    | with_reducible apply kept_ite
    | with_reducible apply keptO_ite
    | with_reducible apply kept_onSys
    | with_reducible apply kept_flushLog
    | with_reducible apply kept_renewLease
    | with_reducible apply kept_saveRtc
    | with_reducible apply kept_onMet
    | with_reducible apply kept_saveAtOnce
    | with_reducible refine kept_foldl ?_ (fun s a h => ?_)
    | (intro (x : MetBlock) hx; first | (simp only [MetBlock.shape] at hx ⊢; with_reducible exact hx) | (simp only [MetBlock.shape, List.length_mapIdx, List.length_map, upd_length, put_length] at hx ⊢; with_reducible exact hx) | (simp_all [MetBlock.shape]; done) | ((repeat' split) <;> first | exact hx | (simp_all [MetBlock.shape]; done)))
    | (intro (x : SysBlock) hx; first | exact hx | exact ⟨Nat.zero_le _, hx.2⟩)
    | (intro x'; clear_value x')
    | intro _
    | dsimp only [s']
    | split

theorem kept_execSleepArm  (h : Kept b p i s) :
    KeptO b p i (execSleepArm s) := by
  unfold execSleepArm
  repeat' first
    | with_reducible assumption
    | (intro (s : State) (h : Kept b p i s))
    | (intro _ (s : State) (h : Kept b p i s))
    | (intro (h : Kept b p i _))
    | (intro (s' : State); refine_lift have h : Kept b p i s' := ?_; ?_; clear_value s')
    | lift_lets
    | with_reducible apply keptO_next
    | with_reducible apply kept_ite
    | with_reducible apply keptO_ite
    | with_reducible apply kept_onGlk
    | with_reducible apply kept_onSys
    | with_reducible refine kept_foldl ?_ (fun s a h => ?_)
    | (intro (x : SysBlock) hx; first | exact hx | exact ⟨Nat.zero_le _, hx.2⟩)
    | (intro x'; clear_value x')
    | intro _
    | dsimp only [s']
    | split

theorem kept_powerOff  (h : Kept b p i s) :
    Kept b p i (powerOff s) := by
  unfold powerOff
  repeat' first
    | with_reducible assumption
    | (intro (s : State) (h : Kept b p i s))
    | (intro _ (s : State) (h : Kept b p i s))
    | (intro (h : Kept b p i _))
    | (intro (x : HsiBlock) hx; exact ⟨ringFresh_ok _, ringFresh_ok _, hx.2.2⟩)
    | (intro (s' : State); refine_lift have h : Kept b p i s' := ?_; ?_; clear_value s')
    | lift_lets
    | with_reducible apply keptO_next
    | with_reducible apply kept_ite
    | with_reducible apply kept_startCluster
    | with_reducible apply kept_onMgt
    | with_reducible apply kept_onKey
    | with_reducible apply kept_onHsi
    | with_reducible apply kept_onGlk
    | with_reducible apply kept_onEth
    | with_reducible apply kept_onEpd
    | with_reducible apply kept_onTag
    | with_reducible apply kept_slacOff
    | with_reducible apply kept_onCans
    | with_reducible refine kept_foldl ?_ (fun s a h => ?_)
    | (intro (x : TagBlock) hx; first | (simp only [TagBlock.shape] at hx ⊢; with_reducible exact hx) | (simp only [TagBlock.shape, List.length_mapIdx, List.length_map, upd_length, put_length] at hx ⊢; with_reducible exact hx) | (simp_all [TagBlock.shape]; done) | ((repeat' split) <;> first | exact hx | (simp_all [TagBlock.shape]; done)))
    | (intro (x : EpdBlock) hx; first | (simp only [EpdBlock.shape] at hx ⊢; with_reducible exact hx) | (simp only [EpdBlock.shape, List.length_mapIdx, List.length_map, upd_length, put_length] at hx ⊢; with_reducible exact hx) | (simp_all [EpdBlock.shape]; done) | ((repeat' split) <;> first | exact hx | (simp_all [EpdBlock.shape]; done)))
    | (intro (x : KeyBlock) hx; first | (simp only [KeyBlock.shape] at hx ⊢; with_reducible exact hx) | (simp only [KeyBlock.shape, List.length_mapIdx, List.length_map, upd_length, put_length] at hx ⊢; with_reducible exact hx) | (simp_all [KeyBlock.shape]; done) | ((repeat' split) <;> first | exact hx | (simp_all [KeyBlock.shape]; done)))
    | (intro (x : MgtBlock) hx; first | exact hx | exact ⟨Nat.zero_le _, Nat.zero_le _⟩ | exact ⟨hx.1, Nat.zero_le _⟩)
    | (intro (x : HsiBlock) hx; exact hx)
    | (intro x'; clear_value x')
    | intro _
    | dsimp only [s']
    | split

theorem kept_execSleepEnter  (h : Kept b p i s) :
    KeptO b p i (execSleepEnter s) := by
  unfold execSleepEnter
  repeat' first
    | with_reducible assumption
    | (intro (s : State) (h : Kept b p i s))
    | (intro _ (s : State) (h : Kept b p i s))
    | (intro (h : Kept b p i _))
    | (intro (s' : State); refine_lift have h : Kept b p i s' := ?_; ?_; clear_value s')
    | lift_lets
    | with_reducible apply keptO_next
    | with_reducible apply kept_ite
    | with_reducible apply keptO_ite
    | with_reducible apply kept_flushLog
    | with_reducible apply kept_onSys
    | with_reducible apply kept_onMgt
    | with_reducible apply kept_powerOff
    | with_reducible apply kept_setMode
    | with_reducible apply kept_glkGate
    | with_reducible apply kept_onOwl
    | with_reducible apply kept_outputsSafe
    | with_reducible apply kept_onMet
    | with_reducible refine kept_foldl ?_ (fun s a h => ?_)
    | (intro (x : MetBlock) hx; first | (simp only [MetBlock.shape] at hx ⊢; with_reducible exact hx) | (simp only [MetBlock.shape, List.length_mapIdx, List.length_map, upd_length, put_length] at hx ⊢; with_reducible exact hx) | (simp_all [MetBlock.shape]; done) | ((repeat' split) <;> first | exact hx | (simp_all [MetBlock.shape]; done)))
    | (intro (x : OwlBlock) hx; first | (simp only [OwlBlock.shape] at hx ⊢; with_reducible exact hx) | (simp only [OwlBlock.shape, List.length_mapIdx, List.length_map, upd_length, put_length] at hx ⊢; with_reducible exact hx) | (simp_all [OwlBlock.shape]; done) | ((repeat' split) <;> first | exact hx | (simp_all [OwlBlock.shape]; done)))
    | (intro (x : SysBlock) hx; first | exact hx | exact ⟨Nat.zero_le _, hx.2⟩)
    | (intro (x : MgtBlock) hx; first | exact hx | exact ⟨Nat.zero_le _, Nat.zero_le _⟩ | exact ⟨hx.1, Nat.zero_le _⟩)
    | (intro x'; clear_value x')
    | intro _
    | dsimp only [s']
    | split

theorem kept_execModeSet (a0 : Req) (a1 : ℕ) (h : Kept b p i s) :
    KeptO b p i (execModeSet a0 a1 s) := by
  unfold execModeSet
  repeat' first
    | with_reducible assumption
    | (intro (s : State) (h : Kept b p i s))
    | (intro _ (s : State) (h : Kept b p i s))
    | (intro (h : Kept b p i _))
    | (intro (s' : State); refine_lift have h : Kept b p i s' := ?_; ?_; clear_value s')
    | lift_lets
    | with_reducible apply keptO_next
    | with_reducible apply kept_ite
    | with_reducible apply keptO_ite
    | with_reducible apply kept_badgerCmd
    | with_reducible apply kept_guarded
    | with_reducible apply kept_postSts
    | with_reducible apply kept_setMode
    | with_reducible apply kept_evalMode
    | with_reducible refine kept_foldl ?_ (fun s a h => ?_)
    | (intro x'; clear_value x')
    | intro _
    | dsimp only [s']
    | split

theorem kept_execLimpExit  (h : Kept b p i s) :
    KeptO b p i (execLimpExit s) := by
  unfold execLimpExit
  repeat' first
    | with_reducible assumption
    | (intro (s : State) (h : Kept b p i s))
    | (intro _ (s : State) (h : Kept b p i s))
    | (intro (h : Kept b p i _))
    | (intro (s' : State); refine_lift have h : Kept b p i s' := ?_; ?_; clear_value s')
    | lift_lets
    | with_reducible apply keptO_next
    | with_reducible apply kept_ite
    | with_reducible apply keptO_ite
    | with_reducible apply kept_slacChecks
    | with_reducible apply kept_resumeRings
    | with_reducible apply kept_evalMode
    | with_reducible apply kept_setMode
    | with_reducible refine kept_foldl ?_ (fun s a h => ?_)
    | (intro x'; clear_value x')
    | intro _
    | dsimp only [s']
    | split

end Sys2Proof.Machine
end

