-- ==== Sys2Proof/Laws/KeptActivate.lean ====
section
/-! SUPPORT. What the operations of Activate.lean keep. -/

set_option linter.unusedSimpArgs false
set_option linter.unusedVariables false
set_option linter.unreachableTactic false
set_option linter.unusedTactic false

namespace Sys2Proof.Machine

variable {b : Prop} {p : List Instr} {i : Ident} {s : State}

theorem kept_cutWarm (a0 : Struct) (a1 : Struct) (a2 : Warmup) (h : Kept b p i s) :
    Kept b p i (cutWarm a0 a1 a2 s) := by
  unfold cutWarm
  repeat' first
    | with_reducible assumption
    | (intro (s : State) (h : Kept b p i s))
    | (intro _ (s : State) (h : Kept b p i s))
    | (intro (h : Kept b p i _))
    | (intro (s' : State); refine_lift have h : Kept b p i s' := ?_; ?_; clear_value s')
    | lift_lets
    | with_reducible apply keptO_next
    | with_reducible apply kept_ite
    | with_reducible apply kept_onLaneBlk
    | with_reducible apply kept_releaseSpare
    | with_reducible refine kept_foldl ?_ (fun s a h => ?_)
    | (intro (x : LaneBlock) hx; first | (simp only [LaneBlock.shape] at hx ⊢; with_reducible exact hx) | (simp only [LaneBlock.shape, List.length_mapIdx, List.length_map, upd_length, put_length] at hx ⊢; with_reducible exact hx) | (simp_all [LaneBlock.shape]; done) | ((repeat' split) <;> first | exact hx | (simp_all [LaneBlock.shape]; done)))
    | (intro x'; clear_value x')
    | intro _
    | dsimp only [s']
    | split

theorem kept_startLanes (a0 : Struct) (a1 : Struct) (h : Kept b p i s) :
    Kept b p i (startLanes a0 a1 s) := by
  unfold startLanes
  repeat' first
    | with_reducible assumption
    | (intro (s : State) (h : Kept b p i s))
    | (intro _ (s : State) (h : Kept b p i s))
    | (intro (h : Kept b p i _))
    | (intro (s' : State); refine_lift have h : Kept b p i s' := ?_; ?_; clear_value s')
    | lift_lets
    | with_reducible apply keptO_next
    | with_reducible apply kept_ite
    | with_reducible apply kept_cutWarm
    | with_reducible apply kept_onLaneBlk
    | with_reducible refine kept_foldl ?_ (fun s a h => ?_)
    | (intro (x : LaneBlock) hx; first | (simp only [LaneBlock.shape] at hx ⊢; with_reducible exact hx) | (simp only [LaneBlock.shape, List.length_mapIdx, List.length_map, upd_length, put_length] at hx ⊢; with_reducible exact hx) | (simp_all [LaneBlock.shape]; done) | ((repeat' split) <;> first | exact hx | (simp_all [LaneBlock.shape]; done)))
    | (intro x'; clear_value x')
    | intro _
    | dsimp only [s']
    | split

theorem kept_startOutlets (a0 : Struct) (a1 : Struct) (h : Kept b p i s) :
    Kept b p i (startOutlets a0 a1 s) := by
  unfold startOutlets
  repeat' first
    | with_reducible assumption
    | (intro (s : State) (h : Kept b p i s))
    | (intro _ (s : State) (h : Kept b p i s))
    | (intro (h : Kept b p i _))
    | (intro (s' : State); refine_lift have h : Kept b p i s' := ?_; ?_; clear_value s')
    | lift_lets
    | with_reducible apply keptO_next
    | with_reducible apply kept_ite
    | with_reducible apply kept_onMet
    | with_reducible apply kept_onBil
    | with_reducible apply kept_onFlt
    | with_reducible apply kept_onOwl
    | with_reducible refine kept_foldl ?_ (fun s a h => ?_)
    | (intro (x : MetBlock) hx; first | (simp only [MetBlock.shape] at hx ⊢; with_reducible exact hx) | (simp only [MetBlock.shape, List.length_mapIdx, List.length_map, upd_length, put_length] at hx ⊢; with_reducible exact hx) | (simp_all [MetBlock.shape]; done) | ((repeat' split) <;> first | exact hx | (simp_all [MetBlock.shape]; done)))
    | (intro (x : BilBlock) hx; first | (simp only [BilBlock.shape] at hx ⊢; with_reducible exact hx) | (simp only [BilBlock.shape, List.length_mapIdx, List.length_map, upd_length, put_length] at hx ⊢; with_reducible exact hx) | (simp_all [BilBlock.shape]; done) | ((repeat' split) <;> first | exact hx | (simp_all [BilBlock.shape]; done)))
    | (intro (x : FltBlock) hx; first | (simp only [FltBlock.shape] at hx ⊢; with_reducible exact hx) | (simp only [FltBlock.shape, List.length_mapIdx, List.length_map, upd_length, put_length] at hx ⊢; with_reducible exact hx) | (simp_all [FltBlock.shape]; done) | ((repeat' split) <;> first | exact hx | (simp_all [FltBlock.shape]; done)))
    | (intro (x : OwlBlock) hx; first | (simp only [OwlBlock.shape] at hx ⊢; with_reducible exact hx) | (simp only [OwlBlock.shape, List.length_mapIdx, List.length_map, upd_length, put_length] at hx ⊢; with_reducible exact hx) | (simp_all [OwlBlock.shape]; done) | ((repeat' split) <;> first | exact hx | (simp_all [OwlBlock.shape]; done)))
    | (intro x'; clear_value x')
    | intro _
    | dsimp only [s']
    | split

theorem kept_startChannels (a0 : Struct) (a1 : Struct) (h : Kept b p i s) :
    Kept b p i (startChannels a0 a1 s) := by
  unfold startChannels
  repeat' first
    | with_reducible assumption
    | (intro (s : State) (h : Kept b p i s))
    | (intro _ (s : State) (h : Kept b p i s))
    | (intro (h : Kept b p i _))
    | (intro (s' : State); refine_lift have h : Kept b p i s' := ?_; ?_; clear_value s')
    | lift_lets
    | with_reducible apply keptO_next
    | with_reducible apply kept_ite
    | with_reducible apply kept_onPwr
    | with_reducible refine kept_foldl ?_ (fun s a h => ?_)
    | (intro (x : PwrBlock) hx; first | (simp only [PwrBlock.shape] at hx ⊢; with_reducible exact hx) | (simp only [PwrBlock.shape, List.length_mapIdx, List.length_map, upd_length, put_length] at hx ⊢; with_reducible exact hx) | (simp_all [PwrBlock.shape]; done) | ((repeat' split) <;> first | exact hx | (simp_all [PwrBlock.shape]; done)))
    | (intro x'; clear_value x')
    | intro _
    | dsimp only [s']
    | split

theorem kept_startLinks (x y : Struct) (h : Kept b p i s) : Kept b p i (startLinks x y s) := kept_vlk h (by simp)

theorem kept_startBlocks (a0 : Struct) (a1 : Struct) (h : Kept b p i s) :
    Kept b p i (startBlocks a0 a1 s) := by
  unfold startBlocks
  repeat' first
    | with_reducible assumption
    | (intro (s : State) (h : Kept b p i s))
    | (intro _ (s : State) (h : Kept b p i s))
    | (intro (h : Kept b p i _))
    | (intro (s' : State); refine_lift have h : Kept b p i s' := ?_; ?_; clear_value s')
    | lift_lets
    | with_reducible apply keptO_next
    | with_reducible apply kept_ite
    | with_reducible apply kept_onGlk
    | with_reducible apply kept_dropMember
    | with_reducible apply kept_onEth
    | with_reducible apply kept_onCan
    | with_reducible apply kept_onTag
    | with_reducible apply kept_startEpd
    | with_reducible apply kept_onEpd
    | with_reducible apply kept_reestimateAll
    | with_reducible apply kept_glkGate
    | with_reducible apply kept_onOwl
    | with_reducible refine kept_foldl ?_ (fun s a h => ?_)
    | (intro (x : OwlBlock) hx; first | (simp only [OwlBlock.shape] at hx ⊢; with_reducible exact hx) | (simp only [OwlBlock.shape, List.length_mapIdx, List.length_map, upd_length, put_length] at hx ⊢; with_reducible exact hx) | (simp_all [OwlBlock.shape]; done) | ((repeat' split) <;> first | exact hx | (simp_all [OwlBlock.shape]; done)))
    | (intro (x : TagBlock) hx; first | (simp only [TagBlock.shape] at hx ⊢; with_reducible exact hx) | (simp only [TagBlock.shape, List.length_mapIdx, List.length_map, upd_length, put_length] at hx ⊢; with_reducible exact hx) | (simp_all [TagBlock.shape]; done) | ((repeat' split) <;> first | exact hx | (simp_all [TagBlock.shape]; done)))
    | (intro (x : EpdBlock) hx; first | (simp only [EpdBlock.shape] at hx ⊢; with_reducible exact hx) | (simp only [EpdBlock.shape, List.length_mapIdx, List.length_map, upd_length, put_length] at hx ⊢; with_reducible exact hx) | (simp_all [EpdBlock.shape]; done) | ((repeat' split) <;> first | exact hx | (simp_all [EpdBlock.shape]; done)))
    | (intro x'; clear_value x')
    | intro _
    | dsimp only [s']
    | split

theorem kept_installStruct (a0 : ℕ) (a1 : Struct) (h : Kept b p i s) :
    Kept b p i (installStruct a0 a1 s) := by
  unfold installStruct
  repeat' first
    | with_reducible assumption
    | (intro (s : State) (h : Kept b p i s))
    | (intro _ (s : State) (h : Kept b p i s))
    | (intro (h : Kept b p i _))
    | (intro (s' : State); refine_lift have h : Kept b p i s' := ?_; ?_; clear_value s')
    | lift_lets
    | with_reducible apply keptO_next
    | with_reducible apply kept_ite
    | with_reducible apply kept_onStr
    | with_reducible apply kept_startOutlets
    | with_reducible apply kept_startLanes
    | with_reducible apply kept_zcCheck
    | with_reducible apply kept_startBlocks
    | with_reducible apply kept_startLinks
    | with_reducible apply kept_startChannels
    | with_reducible refine kept_foldl ?_ (fun s a h => ?_)
    | (intro x'; clear_value x')
    | intro _
    | dsimp only [s']
    | split

theorem kept_connectSpare (a0 : SubstRec) (h : Kept b p i s) :
    Kept b p i (connectSpare a0 s) := by
  unfold connectSpare
  repeat' first
    | with_reducible assumption
    | (intro (s : State) (h : Kept b p i s))
    | (intro _ (s : State) (h : Kept b p i s))
    | (intro (h : Kept b p i _))
    | (intro (s' : State); refine_lift have h : Kept b p i s' := ?_; ?_; clear_value s')
    | lift_lets
    | with_reducible apply keptO_next
    | with_reducible apply kept_ite
    | with_reducible apply kept_onStr
    | with_reducible apply kept_onLane
    | with_reducible refine kept_foldl ?_ (fun s a h => ?_)
    | (intro x'; clear_value x')
    | intro _
    | dsimp only [s']
    | split

theorem kept_restartLane (a0 : ℕ) (h : Kept b p i s) :
    Kept b p i (restartLane a0 s) := by
  unfold restartLane
  repeat' first
    | with_reducible assumption
    | (intro (s : State) (h : Kept b p i s))
    | (intro _ (s : State) (h : Kept b p i s))
    | (intro (h : Kept b p i _))
    | (intro (s' : State); refine_lift have h : Kept b p i s' := ?_; ?_; clear_value s')
    | lift_lets
    | with_reducible apply keptO_next
    | with_reducible apply kept_ite
    | with_reducible apply kept_onLane
    | with_reducible refine kept_foldl ?_ (fun s a h => ?_)
    | (intro x'; clear_value x')
    | intro _
    | dsimp only [s']
    | split

theorem kept_discardSubst (a0 : SubstRec) (a1 : ℕ) (h : Kept b p i s) :
    Kept b p i (discardSubst a0 a1 s) := by
  unfold discardSubst
  repeat' first
    | with_reducible assumption
    | (intro (s : State) (h : Kept b p i s))
    | (intro _ (s : State) (h : Kept b p i s))
    | (intro (h : Kept b p i _))
    | (intro (s' : State); refine_lift have h : Kept b p i s' := ?_; ?_; clear_value s')
    | lift_lets
    | with_reducible apply keptO_next
    | with_reducible apply kept_ite
    | with_reducible apply kept_onStr
    | with_reducible apply kept_dropWarm
    | with_reducible apply kept_onLaneBlk
    | with_reducible apply kept_restartLane
    | with_reducible apply kept_logEv
    | with_reducible apply kept_onMet
    | with_reducible refine kept_foldl ?_ (fun s a h => ?_)
    | (intro (x : LaneBlock) hx; first | (simp only [LaneBlock.shape] at hx ⊢; with_reducible exact hx) | (simp only [LaneBlock.shape, List.length_mapIdx, List.length_map, upd_length, put_length] at hx ⊢; with_reducible exact hx) | (simp_all [LaneBlock.shape]; done) | ((repeat' split) <;> first | exact hx | (simp_all [LaneBlock.shape]; done)))
    | (intro (x : MetBlock) hx; first | (simp only [MetBlock.shape] at hx ⊢; with_reducible exact hx) | (simp only [MetBlock.shape, List.length_mapIdx, List.length_map, upd_length, put_length] at hx ⊢; with_reducible exact hx) | (simp_all [MetBlock.shape]; done) | ((repeat' split) <;> first | exact hx | (simp_all [MetBlock.shape]; done)))
    | (intro x'; clear_value x')
    | intro _
    | dsimp only [s']
    | split

theorem kept_judgeSwaps (a0 : Bool) (h : Kept b p i s) :
    Kept b p i (judgeSwaps a0 s) := by
  unfold judgeSwaps
  repeat' first
    | with_reducible assumption
    | (intro (s : State) (h : Kept b p i s))
    | (intro _ (s : State) (h : Kept b p i s))
    | (intro (h : Kept b p i _))
    | (intro (s' : State); refine_lift have h : Kept b p i s' := ?_; ?_; clear_value s')
    | lift_lets
    | with_reducible apply keptO_next
    | with_reducible apply kept_ite
    | with_reducible apply kept_serveQueue
    | with_reducible apply kept_connectSpare
    | with_reducible apply kept_discardSubst
    | with_reducible refine kept_foldl ?_ (fun s a h => ?_)
    | (intro x'; clear_value x')
    | intro _
    | dsimp only [s']
    | split

theorem kept_repairTwin {α : Type} (area : Nat) (t : Twin α) (write : Twin α → State → State)
    (hf : ∀ x s, Kept b p i s → Kept b p i (write x s)) (h : Kept b p i s) : Kept b p i (repairTwin area t write s) := by
  unfold repairTwin
  exact kept_ite (kept_legalEv _ _ _ _ (hf _ _ h)) (kept_ite (kept_legalEv _ _ _ _ (hf _ _ h)) h)

theorem kept_ctlLost  (h : Kept b p i s) :
    Kept b p i (ctlLost s) := by
  unfold ctlLost
  repeat' first
    | with_reducible assumption
    | (intro (s : State) (h : Kept b p i s))
    | (intro _ (s : State) (h : Kept b p i s))
    | (intro (h : Kept b p i _))
    | (intro (s' : State); refine_lift have h : Kept b p i s' := ?_; ?_; clear_value s')
    | lift_lets
    | with_reducible apply keptO_next
    | with_reducible apply kept_ite
    | with_reducible apply kept_legalEv
    | with_reducible apply kept_onBil
    | with_reducible refine kept_foldl ?_ (fun s a h => ?_)
    | (intro (x : BilBlock) hx; first | (simp only [BilBlock.shape] at hx ⊢; with_reducible exact hx) | (simp only [BilBlock.shape, List.length_mapIdx, List.length_map, upd_length, put_length] at hx ⊢; with_reducible exact hx) | (simp_all [BilBlock.shape]; done) | ((repeat' split) <;> first | exact hx | (simp_all [BilBlock.shape]; done)))
    | (intro x'; clear_value x')
    | intro _
    | dsimp only [s']
    | split

theorem kept_storeCheck  (h : Kept b p i s) :
    Kept b p i (storeCheck s) := by
  unfold storeCheck
  repeat' first
    | with_reducible assumption
    | (intro (s : State) (h : Kept b p i s))
    | (intro _ (s : State) (h : Kept b p i s))
    | (intro (h : Kept b p i _))
    | (intro (s' : State); refine_lift have h : Kept b p i s' := ?_; ?_; clear_value s')
    | lift_lets
    | with_reducible apply keptO_next
    | with_reducible apply kept_ite
    | with_reducible apply kept_repairTwin
    | with_reducible apply kept_onMet
    | with_reducible apply kept_ctlLost
    | with_reducible apply kept_onBil
    | with_reducible apply kept_legalEv
    | with_reducible refine kept_foldl ?_ (fun s a h => ?_)
    | (intro (x : MetBlock) hx; first | (simp only [MetBlock.shape] at hx ⊢; with_reducible exact hx) | (simp only [MetBlock.shape, List.length_mapIdx, List.length_map, upd_length, put_length] at hx ⊢; with_reducible exact hx) | (simp_all [MetBlock.shape]; done) | ((repeat' split) <;> first | exact hx | (simp_all [MetBlock.shape]; done)))
    | (intro (x : BilBlock) hx; first | (simp only [BilBlock.shape] at hx ⊢; with_reducible exact hx) | (simp only [BilBlock.shape, List.length_mapIdx, List.length_map, upd_length, put_length] at hx ⊢; with_reducible exact hx) | (simp_all [BilBlock.shape]; done) | ((repeat' split) <;> first | exact hx | (simp_all [BilBlock.shape]; done)))
    | (intro x'; clear_value x')
    | intro _
    | dsimp only [s']
    | split

theorem kept_restoreOutlets (a0 : SaveRec) (h : Kept b p i s) :
    Kept b p i (restoreOutlets a0 s) := by
  unfold restoreOutlets
  repeat' first
    | with_reducible assumption
    | (intro (s : State) (h : Kept b p i s))
    | (intro _ (s : State) (h : Kept b p i s))
    | (intro (h : Kept b p i _))
    | (intro (s' : State); refine_lift have h : Kept b p i s' := ?_; ?_; clear_value s')
    | lift_lets
    | with_reducible apply keptO_next
    | with_reducible apply kept_ite
    | with_reducible apply kept_restoreLedger
    | with_reducible apply kept_onMet
    | with_reducible apply kept_onBil
    | with_reducible refine kept_foldl ?_ (fun s a h => ?_)
    | (intro (x : MetBlock) hx; first | (simp only [MetBlock.shape] at hx ⊢; with_reducible exact hx) | (simp only [MetBlock.shape, List.length_mapIdx, List.length_map, upd_length, put_length] at hx ⊢; with_reducible exact hx) | (simp_all [MetBlock.shape]; done) | ((repeat' split) <;> first | exact hx | (simp_all [MetBlock.shape]; done)))
    | (intro (x : BilBlock) hx; first | (simp only [BilBlock.shape] at hx ⊢; with_reducible exact hx) | (simp only [BilBlock.shape, List.length_mapIdx, List.length_map, upd_length, put_length] at hx ⊢; with_reducible exact hx) | (simp_all [BilBlock.shape]; done) | ((repeat' split) <;> first | exact hx | (simp_all [BilBlock.shape]; done)))
    | (intro x'; clear_value x')
    | intro _
    | dsimp only [s']
    | split

theorem kept_endOpenSessions  (h : Kept b p i s) :
    Kept b p i (endOpenSessions s) := by
  unfold endOpenSessions
  repeat' first
    | with_reducible assumption
    | (intro (s : State) (h : Kept b p i s))
    | (intro _ (s : State) (h : Kept b p i s))
    | (intro (h : Kept b p i _))
    | (intro (s' : State); refine_lift have h : Kept b p i s' := ?_; ?_; clear_value s')
    | lift_lets
    | with_reducible apply keptO_next
    | with_reducible apply kept_ite
    | with_reducible apply kept_onMetOut
    | with_reducible refine kept_foldl ?_ (fun s a h => ?_)
    | (intro x'; clear_value x')
    | intro _
    | dsimp only [s']
    | split

theorem kept_metStart  (h : Kept b p i s) :
    Kept b p i (metStart s) := by
  unfold metStart
  repeat' first
    | with_reducible assumption
    | (intro (s : State) (h : Kept b p i s))
    | (intro _ (s : State) (h : Kept b p i s))
    | (intro (h : Kept b p i _))
    | (intro (s' : State); refine_lift have h : Kept b p i s' := ?_; ?_; clear_value s')
    | lift_lets
    | with_reducible apply keptO_next
    | with_reducible apply kept_ite
    | with_reducible apply kept_storeCheck
    | with_reducible apply kept_onMet
    | with_reducible apply kept_endOpenSessions
    | with_reducible apply kept_onBil
    | with_reducible apply kept_restoreLedger
    | with_reducible apply kept_billRestart
    | with_reducible apply kept_legalEv
    | with_reducible apply kept_onCounters
    | with_reducible apply kept_restoreOutlets
    | with_reducible apply kept_profileRestart
    | with_reducible refine kept_foldl ?_ (fun s a h => ?_)
    | (intro (x : MetBlock) hx; first | (simp only [MetBlock.shape] at hx ⊢; with_reducible exact hx) | (simp only [MetBlock.shape, List.length_mapIdx, List.length_map, upd_length, put_length] at hx ⊢; with_reducible exact hx) | (simp_all [MetBlock.shape]; done) | ((repeat' split) <;> first | exact hx | (simp_all [MetBlock.shape]; done)))
    | (intro (x : BilBlock) hx; first | (simp only [BilBlock.shape] at hx ⊢; with_reducible exact hx) | (simp only [BilBlock.shape, List.length_mapIdx, List.length_map, upd_length, put_length] at hx ⊢; with_reducible exact hx) | (simp_all [BilBlock.shape]; done) | ((repeat' split) <;> first | exact hx | (simp_all [BilBlock.shape]; done)))
    | (intro x'; clear_value x')
    | intro _
    | dsimp only [s']
    | split

theorem kept_safetyChanged (a0 : Struct) (a1 : Bytes) (a2 : Side) (h : Kept b p i s) :
    Kept b p i (safetyChanged a0 a1 a2 s) := by
  unfold safetyChanged
  repeat' first
    | with_reducible assumption
    | (intro (s : State) (h : Kept b p i s))
    | (intro _ (s : State) (h : Kept b p i s))
    | (intro (h : Kept b p i _))
    | (intro (s' : State); refine_lift have h : Kept b p i s' := ?_; ?_; clear_value s')
    | lift_lets
    | with_reducible apply keptO_next
    | with_reducible apply kept_ite
    | with_reducible apply kept_onOwl
    | with_reducible apply kept_changeEntry
    | with_reducible refine kept_foldl ?_ (fun s a h => ?_)
    | (intro (x : OwlBlock) hx; first | (simp only [OwlBlock.shape] at hx ⊢; with_reducible exact hx) | (simp only [OwlBlock.shape, List.length_mapIdx, List.length_map, upd_length, put_length] at hx ⊢; with_reducible exact hx) | (simp_all [OwlBlock.shape]; done) | ((repeat' split) <;> first | exact hx | (simp_all [OwlBlock.shape]; done)))
    | (intro x'; clear_value x')
    | intro _
    | dsimp only [s']
    | split

theorem kept_trialSelector (a0 : ℕ) (h : Kept b p i s) :
    Kept b p i (trialSelector a0 s) := by
  unfold trialSelector
  repeat' first
    | with_reducible assumption
    | (intro (s : State) (h : Kept b p i s))
    | (intro _ (s : State) (h : Kept b p i s))
    | (intro (h : Kept b p i _))
    | (intro (s' : State); refine_lift have h : Kept b p i s' := ?_; ?_; clear_value s')
    | lift_lets
    | with_reducible apply keptO_next
    | with_reducible apply kept_ite
    | with_reducible apply kept_onStr
    | with_reducible refine kept_foldl ?_ (fun s a h => ?_)
    | (intro x'; clear_value x')
    | intro _
    | dsimp only [s']
    | split

theorem kept_activateCopy (a0 : ℕ) (a1 : Side) (h : Kept b p i s) :
    Kept b p i (activateCopy a0 a1 s) := by
  unfold activateCopy
  repeat' first
    | with_reducible assumption
    | (intro (s : State) (h : Kept b p i s))
    | (intro _ (s : State) (h : Kept b p i s))
    | (intro (h : Kept b p i _))
    | (intro (s' : State); refine_lift have h : Kept b p i s' := ?_; ?_; clear_value s')
    | lift_lets
    | with_reducible apply keptO_next
    | with_reducible apply kept_ite
    | with_reducible apply kept_recordSeal
    | with_reducible apply kept_sealBefore
    | with_reducible apply kept_onStr
    | with_reducible apply kept_installStruct
    | with_reducible apply kept_judgeSwaps
    | with_reducible apply kept_metStart
    | with_reducible apply kept_safetyChanged
    | with_reducible apply kept_startOutlet
    | with_reducible apply kept_settleAll
    | with_reducible apply kept_refreshWithhold
    | with_reducible apply kept_onKind
    | with_reducible apply kept_mirrorCopy
    | with_reducible apply kept_capture
    | with_reducible apply kept_slotsChanged
    | with_reducible refine kept_foldl ?_ (fun s a h => ?_)
    | (intro x'; clear_value x')
    | intro _
    | dsimp only [s']
    | split

theorem kept_refuseWarren (a0 : Req) (a1 : ℕ) (h : Kept b p i s) :
    Kept b p i (refuseWarren a0 a1 s) := by
  unfold refuseWarren
  repeat' first
    | with_reducible assumption
    | (intro (s : State) (h : Kept b p i s))
    | (intro _ (s : State) (h : Kept b p i s))
    | (intro (h : Kept b p i _))
    | (intro (s' : State); refine_lift have h : Kept b p i s' := ?_; ?_; clear_value s')
    | lift_lets
    | with_reducible apply keptO_next
    | with_reducible apply kept_ite
    | with_reducible apply kept_postSts
    | with_reducible apply kept_onStr
    | with_reducible refine kept_foldl ?_ (fun s a h => ?_)
    | (intro x'; clear_value x')
    | intro _
    | dsimp only [s']
    | split

theorem kept_warrenActivate (a0 : Req) (h : Kept b p i s) :
    Kept b p i (warrenActivate a0 s) := by
  unfold warrenActivate
  repeat' first
    | with_reducible assumption
    | (intro (s : State) (h : Kept b p i s))
    | (intro _ (s : State) (h : Kept b p i s))
    | (intro (h : Kept b p i _))
    | (intro (s' : State); refine_lift have h : Kept b p i s' := ?_; ?_; clear_value s')
    | lift_lets
    | with_reducible apply keptO_next
    | with_reducible apply kept_ite
    | with_reducible apply kept_refuseWarren
    | with_reducible apply kept_onStr
    | with_reducible apply kept_logReject
    | with_reducible apply kept_pend
    | with_reducible apply kept_trialSelector
    | with_reducible refine kept_foldl ?_ (fun s a h => ?_)
    | (intro x'; clear_value x')
    | intro _
    | dsimp only [s']
    | split

theorem kept_execWarrenActivate (a0 : Req) (h : Kept b p i s) :
    KeptO b p i (execWarrenActivate a0 s) := by
  unfold execWarrenActivate
  repeat' first
    | with_reducible assumption
    | (intro (s : State) (h : Kept b p i s))
    | (intro _ (s : State) (h : Kept b p i s))
    | (intro (h : Kept b p i _))
    | (intro (s' : State); refine_lift have h : Kept b p i s' := ?_; ?_; clear_value s')
    | lift_lets
    | with_reducible apply keptO_next
    | with_reducible apply kept_ite
    | with_reducible apply keptO_ite
    | with_reducible apply kept_badgerCmd
    | with_reducible apply kept_warrenActivate
    | with_reducible refine kept_foldl ?_ (fun s a h => ?_)
    | (intro x'; clear_value x')
    | intro _
    | dsimp only [s']
    | split

theorem kept_releasePilot (a0 : ℕ) (h : Kept b p i s) :
    Kept b p i (releasePilot a0 s) := by
  unfold releasePilot
  repeat' first
    | with_reducible assumption
    | (intro (s : State) (h : Kept b p i s))
    | (intro _ (s : State) (h : Kept b p i s))
    | (intro (h : Kept b p i _))
    | (intro (s' : State); refine_lift have h : Kept b p i s' := ?_; ?_; clear_value s')
    | lift_lets
    | with_reducible apply keptO_next
    | with_reducible apply kept_ite
    | with_reducible apply kept_acceptState
    | with_reducible apply kept_onLink
    | with_reducible refine kept_foldl ?_ (fun s a h => ?_)
    | (intro x'; clear_value x')
    | intro _
    | dsimp only [s']
    | split

theorem kept_execWarrenActivationComplete  (h : Kept b p i s) :
    KeptO b p i (execWarrenActivationComplete s) := by
  unfold execWarrenActivationComplete
  repeat' first
    | with_reducible assumption
    | (intro (s : State) (h : Kept b p i s))
    | (intro _ (s : State) (h : Kept b p i s))
    | (intro (h : Kept b p i _))
    | (intro (s' : State); refine_lift have h : Kept b p i s' := ?_; ?_; clear_value s')
    | lift_lets
    | with_reducible apply keptO_next
    | with_reducible apply kept_ite
    | with_reducible apply keptO_ite
    | with_reducible apply kept_onStr
    | with_reducible apply kept_activateCopy
    | with_reducible apply kept_postSts
    | with_reducible apply kept_logEv
    | with_reducible apply kept_slacCheck
    | with_reducible apply kept_releaseHeld
    | with_reducible apply kept_releasePilot
    | with_reducible apply kept_returnIfDue
    | with_reducible refine kept_foldl ?_ (fun s a h => ?_)
    | (intro x'; clear_value x')
    | intro _
    | dsimp only [s']
    | split

theorem kept_execIntervalClose (a0 : ℕ) (a1 : IntervalInput) (h : Kept b p i s) :
    KeptO b p i (execIntervalClose a0 a1 s) := by
  unfold execIntervalClose
  repeat' first
    | with_reducible assumption
    | (intro (s : State) (h : Kept b p i s))
    | (intro _ (s : State) (h : Kept b p i s))
    | (intro (h : Kept b p i _))
    | (intro (s' : State); refine_lift have h : Kept b p i s' := ?_; ?_; clear_value s')
    | lift_lets
    | with_reducible apply keptO_next
    | with_reducible apply kept_ite
    | with_reducible apply keptO_ite
    | with_reducible apply kept_afterCapture
    | with_reducible apply kept_closeInterval
    | with_reducible refine kept_foldl ?_ (fun s a h => ?_)
    | (intro x'; clear_value x')
    | intro _
    | dsimp only [s']
    | split

end Sys2Proof.Machine
end

