-- ==== Sys2Proof/Laws/KeptBoot.lean ====
section
/-! SUPPORT. What the operations of Boot.lean keep. -/

set_option linter.unusedSimpArgs false
set_option linter.unusedVariables false
set_option linter.unreachableTactic false
set_option linter.unusedTactic false

namespace Sys2Proof.Machine

variable {b : Prop} {p : List Instr} {i : Ident} {s : State}

theorem kept_wipe (cold : Bool) (causes : Nat) (x : BootInput) (h : Kept b p i s) : Kept b p i (wipe cold causes x s) := by
  refine ⟨h.1, h.2.1, fun hb => ?_⟩
  obtain ⟨h0, h1, h2, h3, h4, h5, h6, h7, h8, h9, h10, h11, h12, h13, h14, h15, h16⟩ := h.2.2 hb
  refine ⟨?_, ?_, ?_, ?_, rfl, ?_, ?_, ?_, ?_, ?_, rfl, h11, ?_, rfl, ?_, ?_, ?_⟩
  · show (keepLanes s.ident.small cold s.lane).shape = _
    simp_all [keepLanes, LaneBlock.shape, LaneBlock.fresh]
  · show (keepMet s.met).shape = _
    simp_all [keepMet, MetBlock.shape, MetBlock.fresh]
  · show (keepBil s.bil).shape = _
    simpa [keepBil, BilBlock.shape] using h2
  · show (keepPwr cold x s.pwr).shape = _
    simp_all [keepPwr, PwrBlock.shape]
  · show (keepOwl cold s.owl).shape = _
    unfold keepOwl
    cases cold <;> simp_all [OwlBlock.shape, OwlBlock.fresh]
  · exact (List.length_map _).trans h6
  · show (keepTim cold _ x s.tim).shape = _
    simp [keepTim, loadRtc, TimBlock.shape, TimBlock.fresh]
  · show (keepTag cold x s.tag).shape = _
    simpa [keepTag, TagBlock.shape] using h8
  · show (keepEpd cold _ s.epd).shape = _
    unfold keepEpd
    simp only [EpdBlock.shape, List.cons.injEq, and_true] at h9 ⊢
    split
    · exact ⟨List.length_replicate, List.length_replicate⟩
    · exact ⟨(List.length_map _).trans h9.1, List.length_replicate⟩
  · exact (List.length_map _).trans h12
  · show (keepHsi cold s.hsi).Ok
    unfold keepHsi
    split <;> exact ⟨ringFresh_ok true, ringFresh_ok false, by simp [HsiBlock.fresh], by simp [HsiBlock.fresh]⟩
  · exact ⟨Nat.zero_le _, Nat.zero_le _⟩
  · show (keepSys cold s.sys).Ok
    unfold keepSys
    refine ⟨?_, by simp [SysBlock.fresh], by simp [SysBlock.fresh]⟩
    cases cold
    · exact h16.1
    · exact Nat.zero_le _

theorem kept_decideLc  (h : Kept b p i s) :
    Kept b p i (decideLc s) := by
  unfold decideLc
  repeat' first
    | with_reducible assumption
    | (intro (s : State) (h : Kept b p i s))
    | (intro _ (s : State) (h : Kept b p i s))
    | (intro (h : Kept b p i _))
    | (intro (s' : State); refine_lift have h : Kept b p i s' := ?_; ?_; clear_value s')
    | lift_lets
    | with_reducible apply keptO_next
    | with_reducible apply kept_ite
    | with_reducible apply kept_onKey
    | with_reducible apply kept_logLc
    | with_reducible apply kept_wipeClass
    | with_reducible apply kept_writeLc
    | with_reducible refine kept_foldl ?_ (fun s a h => ?_)
    | (intro (x : KeyBlock) hx; first | (simp only [KeyBlock.shape] at hx ⊢; with_reducible exact hx) | (simp only [KeyBlock.shape, List.length_mapIdx, List.length_map, upd_length, put_length] at hx ⊢; with_reducible exact hx) | (simp_all [KeyBlock.shape]; done) | ((repeat' split) <;> first | exact hx | (simp_all [KeyBlock.shape]; done)))
    | (intro x'; clear_value x')
    | intro _
    | dsimp only [s']
    | split

theorem kept_trialStart (a0 : Bool) (a1 : Bool) (h : Kept b p i s) :
    Kept b p i (trialStart a0 a1 s) := by
  unfold trialStart
  repeat' first
    | with_reducible assumption
    | (intro (s : State) (h : Kept b p i s))
    | (intro _ (s : State) (h : Kept b p i s))
    | (intro (h : Kept b p i _))
    | (intro (s' : State); refine_lift have h : Kept b p i s' := ?_; ?_; clear_value s')
    | lift_lets
    | with_reducible apply keptO_next
    | with_reducible apply kept_ite
    | with_reducible apply kept_failTrial
    | with_reducible apply kept_countStart
    | with_reducible refine kept_foldl ?_ (fun s a h => ?_)
    | (intro x'; clear_value x')
    | intro _
    | dsimp only [s']
    | split

theorem kept_adoptPart (a0 : ℕ) (h : Kept b p i s) :
    Kept b p i (adoptPart a0 s) := by
  unfold adoptPart
  repeat' first
    | with_reducible assumption
    | (intro (s : State) (h : Kept b p i s))
    | (intro _ (s : State) (h : Kept b p i s))
    | (intro (h : Kept b p i _))
    | (intro (s' : State); refine_lift have h : Kept b p i s' := ?_; ?_; clear_value s')
    | lift_lets
    | with_reducible apply keptO_next
    | with_reducible apply kept_ite
    | with_reducible apply kept_markBank
    | with_reducible apply kept_onKind
    | with_reducible apply kept_takeBank
    | with_reducible refine kept_foldl ?_ (fun s a h => ?_)
    | (intro x'; clear_value x')
    | intro _
    | dsimp only [s']
    | split

theorem kept_rollbackManifest (a0 : ActRec) (h : Kept b p i s) :
    Kept b p i (rollbackManifest a0 s) := by
  unfold rollbackManifest
  repeat' first
    | with_reducible assumption
    | (intro (s : State) (h : Kept b p i s))
    | (intro _ (s : State) (h : Kept b p i s))
    | (intro (h : Kept b p i _))
    | (intro (s' : State); refine_lift have h : Kept b p i s' := ?_; ?_; clear_value s')
    | lift_lets
    | with_reducible apply keptO_next
    | with_reducible apply kept_ite
    | with_reducible apply kept_rollbackPart
    | with_reducible apply kept_recordSeal
    | with_reducible apply kept_onStr
    | with_reducible refine kept_foldl ?_ (fun s a h => ?_)
    | (intro x'; clear_value x')
    | intro _
    | dsimp only [s']
    | split

theorem kept_resolveRecord  (h : Kept b p i s) :
    Kept b p i ((resolveRecord s)).1 := by
  unfold resolveRecord
  repeat' first
    | with_reducible assumption
    | (intro (s : State) (h : Kept b p i s))
    | (intro _ (s : State) (h : Kept b p i s))
    | (intro (h : Kept b p i _))
    | (intro (s' : State); refine_lift have h : Kept b p i s' := ?_; ?_; clear_value s')
    | lift_lets
    | with_reducible apply keptO_next
    | with_reducible apply kept_ite
    | with_reducible apply kept_onUpd
    | with_reducible apply kept_rollbackManifest
    | with_reducible apply kept_adoptPart
    | with_reducible apply kept_bump
    | with_reducible refine kept_foldl ?_ (fun s a h => ?_)
    | (intro (x : UpdBlock) hx; first | (simp only [UpdBlock.shape] at hx ⊢; with_reducible exact hx) | (simp only [UpdBlock.shape, List.length_mapIdx, List.length_map, upd_length, put_length] at hx ⊢; with_reducible exact hx) | (simp_all [UpdBlock.shape]; done) | ((repeat' split) <;> first | exact hx | (simp_all [UpdBlock.shape]; done)))
    | (intro x'; clear_value x')
    | intro _
    | dsimp only [s']
    | split

theorem kept_settleTrials (a0 : Bool) (h : Kept b p i s) :
    Kept b p i (settleTrials a0 s) := by
  unfold settleTrials
  repeat' first
    | with_reducible assumption
    | (intro (s : State) (h : Kept b p i s))
    | (intro _ (s : State) (h : Kept b p i s))
    | (intro (h : Kept b p i _))
    | (intro (s' : State); refine_lift have h : Kept b p i s' := ?_; ?_; clear_value s')
    | lift_lets
    | with_reducible apply keptO_next
    | with_reducible apply kept_ite
    | with_reducible apply kept_onStr
    | with_reducible refine kept_foldl ?_ (fun s a h => ?_)
    | (intro x'; clear_value x')
    | intro _
    | dsimp only [s']
    | split

theorem kept_examine (a0 : List ℕ) (h : Kept b p i s) :
    Kept b p i ((examine a0 s)).1 := by
  induction a0 generalizing  s with
  | nil => exact h
  | cons x l ih =>
  simp only [examine]
  repeat' first
    | with_reducible assumption
    | (intro (s : State) (h : Kept b p i s))
    | (intro _ (s : State) (h : Kept b p i s))
    | (intro (h : Kept b p i _))
    | (intro (s' : State); refine_lift have h : Kept b p i s' := ?_; ?_; clear_value s')
    | lift_lets
    | with_reducible apply keptO_next
    | with_reducible apply kept_ite
    | with_reducible apply kept_onStr
    | with_reducible apply kept_logReject
    | with_reducible apply ih
    | with_reducible refine kept_foldl ?_ (fun s a h => ?_)
    | (intro x'; clear_value x')
    | intro _
    | dsimp only [s']
    | split

theorem kept_limpIgnored  (h : Kept b p i s) :
    Kept b p i (limpIgnored s) := by
  unfold limpIgnored
  repeat' first
    | with_reducible assumption
    | (intro (s : State) (h : Kept b p i s))
    | (intro _ (s : State) (h : Kept b p i s))
    | (intro (h : Kept b p i _))
    | (intro (s' : State); refine_lift have h : Kept b p i s' := ?_; ?_; clear_value s')
    | lift_lets
    | with_reducible apply keptO_next
    | with_reducible apply kept_ite
    | with_reducible apply kept_logEv
    | with_reducible refine kept_foldl ?_ (fun s a h => ?_)
    | (intro x'; clear_value x')
    | intro _
    | dsimp only [s']
    | split

theorem kept_bootStructure (adopted : Bool) (h : Kept b p i s) : Kept b p i (bootStructure adopted s) := by
  unfold bootStructure
  dsimp only
  have hx := kept_examine (bootOrder (settleTrials adopted s)) (kept_settleTrials adopted h)
  split <;> rename_i heq <;> rw [heq] at hx
  · exact kept_limpIgnored (kept_judgeSwaps _ (kept_onStr (kept_installStruct _ _ hx)))
  · exact kept_logEv _ _ _ _ _ (kept_onStr hx)

theorem kept_bootEvents (a0 : SysBlock) (a1 : Option ℕ) (a2 : Bool) (h : Kept b p i s) :
    Kept b p i (bootEvents a0 a1 a2 s) := by
  unfold bootEvents
  repeat' first
    | with_reducible assumption
    | (intro (s : State) (h : Kept b p i s))
    | (intro _ (s : State) (h : Kept b p i s))
    | (intro (h : Kept b p i _))
    | (intro (s' : State); refine_lift have h : Kept b p i s' := ?_; ?_; clear_value s')
    | lift_lets
    | with_reducible apply keptO_next
    | with_reducible apply kept_ite
    | with_reducible apply kept_legalEv
    | with_reducible apply kept_logEv
    | with_reducible refine kept_foldl ?_ (fun s a h => ?_)
    | (intro x'; clear_value x')
    | intro _
    | dsimp only [s']
    | split

theorem kept_damageStore (a0 : List ℕ) (h : Kept b p i s) :
    Kept b p i (damageStore a0 s) := by
  unfold damageStore
  repeat' first
    | with_reducible assumption
    | (intro (s : State) (h : Kept b p i s))
    | (intro _ (s : State) (h : Kept b p i s))
    | (intro (h : Kept b p i _))
    | (intro (s' : State); refine_lift have h : Kept b p i s' := ?_; ?_; clear_value s')
    | lift_lets
    | with_reducible apply keptO_next
    | with_reducible apply kept_ite
    | with_reducible apply kept_onMet
    | with_reducible apply kept_onBil
    | with_reducible refine kept_foldl ?_ (fun s a h => ?_)
    | (intro (x : MetBlock) hx; first | (simp only [MetBlock.shape] at hx ⊢; with_reducible exact hx) | (simp only [MetBlock.shape, List.length_mapIdx, List.length_map, upd_length, put_length] at hx ⊢; with_reducible exact hx) | (simp_all [MetBlock.shape]; done) | ((repeat' split) <;> first | exact hx | (simp_all [MetBlock.shape]; done)))
    | (intro (x : BilBlock) hx; first | (simp only [BilBlock.shape] at hx ⊢; with_reducible exact hx) | (simp only [BilBlock.shape, List.length_mapIdx, List.length_map, upd_length, put_length] at hx ⊢; with_reducible exact hx) | (simp_all [BilBlock.shape]; done) | ((repeat' split) <;> first | exact hx | (simp_all [BilBlock.shape]; done)))
    | (intro x'; clear_value x')
    | intro _
    | dsimp only [s']
    | split

theorem kept_owlLoad (a0 : ℕ) (h : Kept b p i s) :
    Kept b p i (owlLoad a0 s) := by
  unfold owlLoad
  repeat' first
    | with_reducible assumption
    | (intro (s : State) (h : Kept b p i s))
    | (intro _ (s : State) (h : Kept b p i s))
    | (intro (h : Kept b p i _))
    | (intro (s' : State); refine_lift have h : Kept b p i s' := ?_; ?_; clear_value s')
    | lift_lets
    | with_reducible apply keptO_next
    | with_reducible apply kept_ite
    | with_reducible apply kept_cfgDiag
    | with_reducible apply kept_cfgCheck
    | with_reducible refine kept_foldl ?_ (fun s a h => ?_)
    | (intro x'; clear_value x')
    | intro _
    | dsimp only [s']
    | split

theorem kept_bootCores (a0 : ResetHold) (a1 : BootInput) (h : Kept b p i s) :
    Kept b p i (bootCores a0 a1 s) := by
  unfold bootCores
  repeat' first
    | with_reducible assumption
    | (intro (s : State) (h : Kept b p i s))
    | (intro _ (s : State) (h : Kept b p i s))
    | (intro (h : Kept b p i _))
    | (intro (s' : State); refine_lift have h : Kept b p i s' := ?_; ?_; clear_value s')
    | lift_lets
    | with_reducible apply keptO_next
    | with_reducible apply kept_ite
    | with_reducible apply kept_wipe
    | with_reducible apply kept_damageStore
    | with_reducible apply kept_closeTransfer
    | with_reducible apply kept_logOwlState
    | with_reducible apply kept_decideLc
    | with_reducible apply kept_logRng
    | with_reducible apply kept_onKey
    | with_reducible apply kept_actLatched
    | with_reducible apply kept_deriveSlots
    | with_reducible apply kept_resolveRecord
    | with_reducible apply kept_trialStart
    | with_reducible apply kept_bootStructure
    | with_reducible apply kept_onOwl
    | with_reducible apply kept_owlLoad
    | with_reducible apply kept_rebuildReplay
    | with_reducible apply kept_metStart
    | with_reducible apply kept_capture
    | with_reducible refine kept_foldl ?_ (fun s a h => ?_)
    | (intro (x : OwlBlock) hx; first | (simp only [OwlBlock.shape] at hx ⊢; with_reducible exact hx) | (simp only [OwlBlock.shape, List.length_mapIdx, List.length_map, upd_length, put_length] at hx ⊢; with_reducible exact hx) | (simp_all [OwlBlock.shape]; done) | ((repeat' split) <;> first | exact hx | (simp_all [OwlBlock.shape]; done)))
    | (intro (x : KeyBlock) hx; first | (simp only [KeyBlock.shape] at hx ⊢; with_reducible exact hx) | (simp only [KeyBlock.shape, List.length_mapIdx, List.length_map, upd_length, put_length] at hx ⊢; with_reducible exact hx) | (simp_all [KeyBlock.shape]; done) | ((repeat' split) <;> first | exact hx | (simp_all [KeyBlock.shape]; done)))
    | (intro x'; clear_value x')
    | intro _
    | dsimp only [s']
    | split

theorem kept_bootMode  (h : Kept b p i s) :
    Kept b p i (bootMode s) := by
  unfold bootMode
  repeat' first
    | with_reducible assumption
    | (intro (s : State) (h : Kept b p i s))
    | (intro _ (s : State) (h : Kept b p i s))
    | (intro (h : Kept b p i _))
    | (intro (s' : State); refine_lift have h : Kept b p i s' := ?_; ?_; clear_value s')
    | lift_lets
    | with_reducible apply keptO_next
    | with_reducible apply kept_ite
    | with_reducible apply kept_evalMode
    | with_reducible apply kept_setMode
    | with_reducible refine kept_foldl ?_ (fun s a h => ?_)
    | (intro x'; clear_value x')
    | intro _
    | dsimp only [s']
    | split

theorem kept_bootServices (a0 : SysBlock) (a1 : ResetHold) (a2 : Option ℕ) (a3 : BootInput) (h : Kept b p i s) :
    Kept b p i (bootServices a0 a1 a2 a3 s) := by
  unfold bootServices
  repeat' first
    | with_reducible assumption
    | (intro (s : State) (h : Kept b p i s))
    | (intro _ (s : State) (h : Kept b p i s))
    | (intro (h : Kept b p i _))
    | (intro (x : HsiBlock) hx; exact hx)
    | (intro (s' : State); refine_lift have h : Kept b p i s' := ?_; ?_; clear_value s')
    | lift_lets
    | with_reducible apply keptO_next
    | with_reducible apply kept_ite
    | with_reducible apply kept_onSys
    | with_reducible apply kept_onHsi
    | with_reducible apply kept_bootEvents
    | with_reducible apply kept_loadSlots
    | with_reducible apply kept_drainRetention
    | with_reducible apply kept_slotsChanged
    | with_reducible apply kept_flushProfile
    | with_reducible apply kept_bootMode
    | with_reducible apply kept_returnIfDue
    | with_reducible apply kept_failTrial
    | with_reducible refine kept_foldl ?_ (fun s a h => ?_)
    | (intro (x : SysBlock) hx; first | exact hx | exact ⟨Nat.zero_le _, hx.2⟩)
    | (intro (x : HsiBlock) hx; exact hx)
    | (intro x'; clear_value x')
    | intro _
    | dsimp only [s']
    | split

theorem kept_execBoot (a0 : BootInput) (h : Kept b p i s) :
    KeptO b p i (execBoot a0 s) := by
  unfold execBoot
  repeat' first
    | with_reducible assumption
    | (intro (s : State) (h : Kept b p i s))
    | (intro _ (s : State) (h : Kept b p i s))
    | (intro (h : Kept b p i _))
    | (intro (s' : State); refine_lift have h : Kept b p i s' := ?_; ?_; clear_value s')
    | lift_lets
    | with_reducible apply keptO_next
    | with_reducible apply kept_ite
    | with_reducible apply keptO_ite
    | with_reducible apply kept_bootServices
    | with_reducible apply kept_bootCores
    | with_reducible refine kept_foldl ?_ (fun s a h => ?_)
    | (intro x'; clear_value x')
    | intro _
    | dsimp only [s']
    | split

end Sys2Proof.Machine
end

