-- ==== Sys2Proof/Laws/KeptHost.lean ====
section
/-! SUPPORT. What the operations of Host.lean keep. -/

set_option linter.unusedSimpArgs false
set_option linter.unusedVariables false
set_option linter.unreachableTactic false
set_option linter.unusedTactic false

namespace Sys2Proof.Machine

variable {b : Prop} {p : List Instr} {i : Ident} {s : State}

/-- Acceptance keeps the ring in order. -/
theorem acceptSlot_ok {g : Ring} (d : Desc) (ok : Bool) (ps : Bytes) (h : g.Ok) : (acceptSlot d ok ps g).Ok := by
  obtain ⟨h1, h2, h3, h4⟩ := h
  refine ⟨by simpa [acceptSlot, Ring.shape] using h1, h2, h3, ?_⟩
  unfold acceptSlot
  cases ok
  · exact h4
  · exact memWf_zero h4 _ _

theorem noteSpace_ok {g : Ring} (h : g.Ok) : (noteSpace g).Ok := by
  unfold noteSpace
  split <;> exact h

/-- A buffer write keeps the ring in order. -/
theorem bufferWords_ok {g : Ring} (off n : Nat) (bs : Bytes) (h : g.Ok) : (bufferWords g off n bs).Ok := by
  induction n generalizing g off bs with
  | zero => exact h
  | succ n ih =>
    simp only [bufferWords]
    refine ih _ _ ?_
    split
    · exact h
    · exact ⟨h.1, h.2.1, h.2.2.1, memWf_writeN h.2.2.2 _ _⟩

theorem kept_ringError (a0 : Side) (a1 : ℕ) (a2 : ℕ) (a3 : ℕ) (h : Kept b p i s) :
    Kept b p i (ringError a0 a1 a2 a3 s) := by
  unfold ringError
  repeat' first
    | with_reducible assumption
    | (intro (s : State) (h : Kept b p i s))
    | (intro _ (s : State) (h : Kept b p i s))
    | (intro (h : Kept b p i _))
    | (intro (s' : State); refine_lift have h : Kept b p i s' := ?_; ?_; clear_value s')
    | lift_lets
    | with_reducible apply keptO_next
    | with_reducible apply kept_ite
    | with_reducible apply kept_onRing
    | with_reducible apply kept_logEv
    | with_reducible refine kept_foldl ?_ (fun s a h => ?_)
    | (intro (x : Ring) hx; first | exact hx | exact ⟨hx.1, Nat.mod_lt _ (by decide), hx.2.2⟩ | exact ⟨hx.1, hx.2.1, Nat.mod_lt _ (by decide), hx.2.2.2⟩ | exact ⟨by simpa [Ring.shape] using hx.1, hx.2⟩ | exact acceptSlot_ok _ _ _ hx | exact noteSpace_ok hx | exact completeSlot_ok _ _ _ _ _ _ hx | exact bufferWords_ok _ _ _ hx)
    | (intro x'; clear_value x')
    | intro _
    | dsimp only [s']
    | split

theorem kept_consumeDesc (a0 : Side) (h : Kept b p i s) :
    Kept b p i (consumeDesc a0 s) := by
  unfold consumeDesc
  dsimp only
  repeat' first
    | with_reducible assumption
    | (intro (s : State) (h : Kept b p i s))
    | (intro _ (s : State) (h : Kept b p i s))
    | (intro (h : Kept b p i _))
    | (intro (s' : State); refine_lift have h : Kept b p i s' := ?_; ?_; clear_value s')
    | with_reducible apply keptO_next
    | with_reducible apply kept_ite
    | with_reducible apply kept_onRing
    | with_reducible apply kept_ringError
    | with_reducible apply kept_wakeBy
    | with_reducible refine kept_foldl ?_ (fun s a h => ?_)
    | (intro (x : Ring) hx; first | exact hx | exact ⟨hx.1, Nat.mod_lt _ (by decide), hx.2.2⟩ | exact ⟨hx.1, hx.2.1, Nat.mod_lt _ (by decide), hx.2.2.2⟩ | exact ⟨by simpa [Ring.shape] using hx.1, hx.2⟩ | exact acceptSlot_ok _ _ _ hx | exact noteSpace_ok hx | exact completeSlot_ok _ _ _ _ _ _ hx | exact bufferWords_ok _ _ _ hx)
    | (intro x'; clear_value x')
    | intro _
    | dsimp only [s']
    | split

theorem kept_consumeDescs (a0 : ℕ) (a1 : Side) (h : Kept b p i s) :
    Kept b p i (consumeDescs a0 a1 s) := by
  induction a0 generalizing  s with
  | zero => exact h
  | succ n ih =>
  simp only [consumeDescs]
  repeat' first
    | with_reducible assumption
    | (intro (s : State) (h : Kept b p i s))
    | (intro _ (s : State) (h : Kept b p i s))
    | (intro (h : Kept b p i _))
    | (intro (s' : State); refine_lift have h : Kept b p i s' := ?_; ?_; clear_value s')
    | lift_lets
    | with_reducible apply keptO_next
    | with_reducible apply kept_ite
    | with_reducible apply kept_consumeDesc
    | with_reducible apply ih
    | with_reducible refine kept_foldl ?_ (fun s a h => ?_)
    | (intro x'; clear_value x')
    | intro _
    | dsimp only [s']
    | split

theorem kept_ctailWrite (a0 : Side) (a1 : ℕ) (h : Kept b p i s) :
    Kept b p i (ctailWrite a0 a1 s) := by
  unfold ctailWrite
  repeat' first
    | with_reducible assumption
    | (intro (s : State) (h : Kept b p i s))
    | (intro _ (s : State) (h : Kept b p i s))
    | (intro (h : Kept b p i _))
    | (intro (s' : State); refine_lift have h : Kept b p i s' := ?_; ?_; clear_value s')
    | lift_lets
    | with_reducible apply keptO_next
    | with_reducible apply kept_ite
    | with_reducible apply kept_ringError
    | with_reducible apply kept_onRing
    | with_reducible apply kept_consumeDescs
    | with_reducible refine kept_foldl ?_ (fun s a h => ?_)
    | (intro (x : Ring) hx; first | exact hx | exact ⟨hx.1, Nat.mod_lt _ (by decide), hx.2.2⟩ | exact ⟨hx.1, hx.2.1, Nat.mod_lt _ (by decide), hx.2.2.2⟩ | exact ⟨by simpa [Ring.shape] using hx.1, hx.2⟩ | exact acceptSlot_ok _ _ _ hx | exact noteSpace_ok hx | exact completeSlot_ok _ _ _ _ _ _ hx | exact bufferWords_ok _ _ _ hx)
    | (intro x'; clear_value x')
    | intro _
    | dsimp only [s']
    | split

theorem kept_execCtailWrite (a0 : Side) (a1 : Word) (h : Kept b p i s) :
    KeptO b p i (execCtailWrite a0 a1 s) := by
  unfold execCtailWrite
  repeat' first
    | with_reducible assumption
    | (intro (s : State) (h : Kept b p i s))
    | (intro _ (s : State) (h : Kept b p i s))
    | (intro (h : Kept b p i _))
    | (intro (s' : State); refine_lift have h : Kept b p i s' := ?_; ?_; clear_value s')
    | lift_lets
    | with_reducible apply keptO_next
    | with_reducible apply kept_ite
    | with_reducible apply keptO_ite
    | with_reducible apply kept_ctailWrite
    | with_reducible refine kept_foldl ?_ (fun s a h => ?_)
    | (intro x'; clear_value x')
    | intro _
    | dsimp only [s']
    | split

theorem kept_releaseWrite (a0 : Side) (a1 : ℕ) (h : Kept b p i s) :
    Kept b p i (releaseWrite a0 a1 s) := by
  unfold releaseWrite
  repeat' first
    | with_reducible assumption
    | (intro (s : State) (h : Kept b p i s))
    | (intro _ (s : State) (h : Kept b p i s))
    | (intro (h : Kept b p i _))
    | (intro (s' : State); refine_lift have h : Kept b p i s' := ?_; ?_; clear_value s')
    | lift_lets
    | with_reducible apply keptO_next
    | with_reducible apply kept_ite
    | with_reducible apply kept_ringError
    | with_reducible apply kept_onRing
    | with_reducible refine kept_foldl ?_ (fun s a h => ?_)
    | (intro (x : Ring) hx; first | exact hx | exact ⟨hx.1, Nat.mod_lt _ (by decide), hx.2.2⟩ | exact ⟨hx.1, hx.2.1, Nat.mod_lt _ (by decide), hx.2.2.2⟩ | exact ⟨by simpa [Ring.shape] using hx.1, hx.2⟩ | exact acceptSlot_ok _ _ _ hx | exact noteSpace_ok hx | exact completeSlot_ok _ _ _ _ _ _ hx | exact bufferWords_ok _ _ _ hx)
    | (intro x'; clear_value x')
    | intro _
    | dsimp only [s']
    | split

theorem kept_execHsiReleaseWrite (a0 : Side) (a1 : Word) (h : Kept b p i s) :
    KeptO b p i (execHsiReleaseWrite a0 a1 s) := by
  unfold execHsiReleaseWrite
  repeat' first
    | with_reducible assumption
    | (intro (s : State) (h : Kept b p i s))
    | (intro _ (s : State) (h : Kept b p i s))
    | (intro (h : Kept b p i _))
    | (intro (s' : State); refine_lift have h : Kept b p i s' := ?_; ?_; clear_value s')
    | lift_lets
    | with_reducible apply keptO_next
    | with_reducible apply kept_ite
    | with_reducible apply keptO_ite
    | with_reducible apply kept_releaseWrite
    | with_reducible refine kept_foldl ?_ (fun s a h => ?_)
    | (intro x'; clear_value x')
    | intro _
    | dsimp only [s']
    | split

theorem kept_execResultSlotRead (a0 : Side) (a1 : ℕ) (h : Kept b p i s) :
    KeptO b p i (execResultSlotRead a0 a1 s) := by
  unfold execResultSlotRead
  repeat' first
    | with_reducible assumption
    | (intro (s : State) (h : Kept b p i s))
    | (intro _ (s : State) (h : Kept b p i s))
    | (intro (h : Kept b p i _))
    | (intro (s' : State); refine_lift have h : Kept b p i s' := ?_; ?_; clear_value s')
    | lift_lets
    | with_reducible apply keptO_next
    | with_reducible apply kept_ite
    | with_reducible apply keptO_ite
    | with_reducible apply kept_returns
    | with_reducible apply kept_onRing
    | with_reducible refine kept_foldl ?_ (fun s a h => ?_)
    | (intro (x : Ring) hx; first | exact hx | exact ⟨hx.1, Nat.mod_lt _ (by decide), hx.2.2⟩ | exact ⟨hx.1, hx.2.1, Nat.mod_lt _ (by decide), hx.2.2.2⟩ | exact ⟨by simpa [Ring.shape] using hx.1, hx.2⟩ | exact acceptSlot_ok _ _ _ hx | exact noteSpace_ok hx | exact completeSlot_ok _ _ _ _ _ _ hx | exact bufferWords_ok _ _ _ hx)
    | (intro x'; clear_value x')
    | intro _
    | dsimp only [s']
    | split

theorem kept_execBufferWrite (a0 : Side) (a1 : ℕ) (a2 : Bytes) (h : Kept b p i s) :
    KeptO b p i (execBufferWrite a0 a1 a2 s) := by
  unfold execBufferWrite
  repeat' first
    | with_reducible assumption
    | (intro (s : State) (h : Kept b p i s))
    | (intro _ (s : State) (h : Kept b p i s))
    | (intro (h : Kept b p i _))
    | (intro (s' : State); refine_lift have h : Kept b p i s' := ?_; ?_; clear_value s')
    | lift_lets
    | with_reducible apply keptO_next
    | with_reducible apply kept_ite
    | with_reducible apply keptO_ite
    | with_reducible apply kept_onRing
    | with_reducible refine kept_foldl ?_ (fun s a h => ?_)
    | (intro (x : Ring) hx; first | exact hx | exact ⟨hx.1, Nat.mod_lt _ (by decide), hx.2.2⟩ | exact ⟨hx.1, hx.2.1, Nat.mod_lt _ (by decide), hx.2.2.2⟩ | exact ⟨by simpa [Ring.shape] using hx.1, hx.2⟩ | exact acceptSlot_ok _ _ _ hx | exact noteSpace_ok hx | exact completeSlot_ok _ _ _ _ _ _ hx | exact bufferWords_ok _ _ _ hx)
    | (intro x'; clear_value x')
    | intro _
    | dsimp only [s']
    | split

theorem kept_linkFault (a0 : ℕ) (h : Kept b p i s) :
    Kept b p i (linkFault a0 s) := by
  unfold linkFault
  repeat' first
    | with_reducible assumption
    | (intro (s : State) (h : Kept b p i s))
    | (intro _ (s : State) (h : Kept b p i s))
    | (intro (h : Kept b p i _))
    | (intro (s' : State); refine_lift have h : Kept b p i s' := ?_; ?_; clear_value s')
    | lift_lets
    | with_reducible apply keptO_next
    | with_reducible apply kept_ite
    | with_reducible apply kept_onHsi
    | with_reducible apply kept_onRing
    | with_reducible apply kept_logEv
    | with_reducible refine kept_foldl ?_ (fun s a h => ?_)
    | (intro (x : HsiBlock) hx; exact hx)
    | (intro (x : Ring) hx; first | exact hx | exact ⟨hx.1, Nat.mod_lt _ (by decide), hx.2.2⟩ | exact ⟨hx.1, hx.2.1, Nat.mod_lt _ (by decide), hx.2.2.2⟩ | exact ⟨by simpa [Ring.shape] using hx.1, hx.2⟩ | exact acceptSlot_ok _ _ _ hx | exact noteSpace_ok hx | exact completeSlot_ok _ _ _ _ _ _ hx | exact bufferWords_ok _ _ _ hx)
    | (intro x'; clear_value x')
    | intro _
    | dsimp only [s']
    | split

theorem kept_execHsiTransactionError (a0 : HsiFrame) (h : Kept b p i s) :
    KeptO b p i (execHsiTransactionError a0 s) := by
  unfold execHsiTransactionError
  repeat' first
    | with_reducible assumption
    | (intro (s : State) (h : Kept b p i s))
    | (intro _ (s : State) (h : Kept b p i s))
    | (intro (h : Kept b p i _))
    | (intro (s' : State); refine_lift have h : Kept b p i s' := ?_; ?_; clear_value s')
    | lift_lets
    | with_reducible apply keptO_next
    | with_reducible apply kept_ite
    | with_reducible apply keptO_ite
    | with_reducible apply kept_linkFault
    | with_reducible apply kept_onHsi
    | with_reducible refine kept_foldl ?_ (fun s a h => ?_)
    | (intro (x : HsiBlock) hx; exact hx)
    | (intro x'; clear_value x')
    | intro _
    | dsimp only [s']
    | split

theorem kept_execHsiFrameTimeout  (h : Kept b p i s) :
    KeptO b p i (execHsiFrameTimeout s) := by
  unfold execHsiFrameTimeout
  repeat' first
    | with_reducible assumption
    | (intro (s : State) (h : Kept b p i s))
    | (intro _ (s : State) (h : Kept b p i s))
    | (intro (h : Kept b p i _))
    | (intro (s' : State); refine_lift have h : Kept b p i s' := ?_; ?_; clear_value s')
    | lift_lets
    | with_reducible apply keptO_next
    | with_reducible apply kept_ite
    | with_reducible apply keptO_ite
    | with_reducible apply kept_linkFault
    | with_reducible refine kept_foldl ?_ (fun s a h => ?_)
    | (intro x'; clear_value x')
    | intro _
    | dsimp only [s']
    | split

theorem kept_execBadgerCommandTimeout (a0 : Req) (h : Kept b p i s) :
    KeptO b p i (execBadgerCommandTimeout a0 s) := by
  unfold execBadgerCommandTimeout
  repeat' first
    | with_reducible assumption
    | (intro (s : State) (h : Kept b p i s))
    | (intro _ (s : State) (h : Kept b p i s))
    | (intro (h : Kept b p i _))
    | (intro (s' : State); refine_lift have h : Kept b p i s' := ?_; ?_; clear_value s')
    | lift_lets
    | with_reducible apply keptO_next
    | with_reducible apply kept_ite
    | with_reducible apply keptO_ite
    | with_reducible apply kept_postSts
    | with_reducible refine kept_foldl ?_ (fun s a h => ?_)
    | (intro x'; clear_value x')
    | intro _
    | dsimp only [s']
    | split

theorem kept_execHsiNop (a0 : Req) (a1 : Bytes) (h : Kept b p i s) :
    KeptO b p i (execHsiNop a0 a1 s) := by
  unfold execHsiNop
  repeat' first
    | with_reducible assumption
    | (intro (s : State) (h : Kept b p i s))
    | (intro _ (s : State) (h : Kept b p i s))
    | (intro (h : Kept b p i _))
    | (intro (s' : State); refine_lift have h : Kept b p i s' := ?_; ?_; clear_value s')
    | lift_lets
    | with_reducible apply keptO_next
    | with_reducible apply kept_ite
    | with_reducible apply keptO_ite
    | with_reducible apply kept_guarded
    | with_reducible apply kept_post
    | with_reducible refine kept_foldl ?_ (fun s a h => ?_)
    | (intro x'; clear_value x')
    | intro _
    | dsimp only [s']
    | split

end Sys2Proof.Machine
end

