-- ==== Sys2Proof/Laws/KeptPower.lean ====
section
/-! SUPPORT. What the operations of Power.lean keep. -/

set_option linter.unusedSimpArgs false
set_option linter.unusedVariables false
set_option linter.unreachableTactic false
set_option linter.unusedTactic false

namespace Sys2Proof.Machine

variable {b : Prop} {p : List Instr} {i : Ident} {s : State}

theorem kept_execLsDemandChange (a0 : ℕ) (h : Kept b p i s) :
    KeptO b p i (execLsDemandChange a0 s) := by
  unfold execLsDemandChange
  repeat' first
    | with_reducible assumption
    | (intro (s : State) (h : Kept b p i s))
    | (intro _ (s : State) (h : Kept b p i s))
    | (intro (h : Kept b p i _))
    | (intro (s' : State); refine_lift have h : Kept b p i s' := ?_; ?_; clear_value s')
    | lift_lets
    | with_reducible apply keptO_next
    | with_reducible apply kept_ite
    | with_reducible apply keptO_ite
    | with_reducible apply kept_settleCh
    | with_reducible refine kept_foldl ?_ (fun s a h => ?_)
    | (intro x'; clear_value x')
    | intro _
    | dsimp only [s']
    | split

theorem kept_execLsOverload (a0 : ℕ) (a1 : ℤ) (h : Kept b p i s) :
    KeptO b p i (execLsOverload a0 a1 s) := by
  unfold execLsOverload
  repeat' first
    | with_reducible assumption
    | (intro (s : State) (h : Kept b p i s))
    | (intro _ (s : State) (h : Kept b p i s))
    | (intro (h : Kept b p i _))
    | (intro (s' : State); refine_lift have h : Kept b p i s' := ?_; ?_; clear_value s')
    | lift_lets
    | with_reducible apply keptO_next
    | with_reducible apply kept_ite
    | with_reducible apply keptO_ite
    | with_reducible apply kept_onCh
    | with_reducible apply kept_logEv
    | with_reducible apply kept_setCh
    | with_reducible refine kept_foldl ?_ (fun s a h => ?_)
    | (intro x'; clear_value x')
    | intro _
    | dsimp only [s']
    | split

theorem kept_execLsInrushEnd (a0 : ℕ) (a1 : ℤ) (h : Kept b p i s) :
    KeptO b p i (execLsInrushEnd a0 a1 s) := by
  unfold execLsInrushEnd
  repeat' first
    | with_reducible assumption
    | (intro (s : State) (h : Kept b p i s))
    | (intro _ (s : State) (h : Kept b p i s))
    | (intro (h : Kept b p i _))
    | (intro (s' : State); refine_lift have h : Kept b p i s' := ?_; ?_; clear_value s')
    | lift_lets
    | with_reducible apply keptO_next
    | with_reducible apply kept_ite
    | with_reducible apply keptO_ite
    | with_reducible apply kept_setCh
    | with_reducible apply kept_onCh
    | with_reducible refine kept_foldl ?_ (fun s a h => ?_)
    | (intro x'; clear_value x')
    | intro _
    | dsimp only [s']
    | split

theorem kept_execLsRetryTimer (a0 : ℕ) (h : Kept b p i s) :
    KeptO b p i (execLsRetryTimer a0 s) := by
  unfold execLsRetryTimer
  repeat' first
    | with_reducible assumption
    | (intro (s : State) (h : Kept b p i s))
    | (intro _ (s : State) (h : Kept b p i s))
    | (intro (h : Kept b p i _))
    | (intro (s' : State); refine_lift have h : Kept b p i s' := ?_; ?_; clear_value s')
    | lift_lets
    | with_reducible apply keptO_next
    | with_reducible apply kept_ite
    | with_reducible apply keptO_ite
    | with_reducible apply kept_setCh
    | with_reducible refine kept_foldl ?_ (fun s a h => ?_)
    | (intro x'; clear_value x')
    | intro _
    | dsimp only [s']
    | split

theorem kept_execLsRetryReset (a0 : ℕ) (h : Kept b p i s) :
    KeptO b p i (execLsRetryReset a0 s) := by
  unfold execLsRetryReset
  repeat' first
    | with_reducible assumption
    | (intro (s : State) (h : Kept b p i s))
    | (intro _ (s : State) (h : Kept b p i s))
    | (intro (h : Kept b p i _))
    | (intro (s' : State); refine_lift have h : Kept b p i s' := ?_; ?_; clear_value s')
    | lift_lets
    | with_reducible apply keptO_next
    | with_reducible apply kept_ite
    | with_reducible apply keptO_ite
    | with_reducible apply kept_onCh
    | with_reducible refine kept_foldl ?_ (fun s a h => ?_)
    | (intro x'; clear_value x')
    | intro _
    | dsimp only [s']
    | split

theorem kept_logThermal (a0 : ℕ) (a1 : ℕ) (a2 : ℤ) (a3 : ℕ) (h : Kept b p i s) :
    Kept b p i (logThermal a0 a1 a2 a3 s) := by
  unfold logThermal
  repeat' first
    | with_reducible assumption
    | (intro (s : State) (h : Kept b p i s))
    | (intro _ (s : State) (h : Kept b p i s))
    | (intro (h : Kept b p i _))
    | (intro (s' : State); refine_lift have h : Kept b p i s' := ?_; ?_; clear_value s')
    | lift_lets
    | with_reducible apply keptO_next
    | with_reducible apply kept_ite
    | with_reducible apply kept_logEv
    | with_reducible refine kept_foldl ?_ (fun s a h => ?_)
    | (intro x'; clear_value x')
    | intro _
    | dsimp only [s']
    | split

theorem kept_execLsThermalLatch (a0 : ℕ) (a1 : ℤ) (h : Kept b p i s) :
    KeptO b p i (execLsThermalLatch a0 a1 s) := by
  unfold execLsThermalLatch
  repeat' first
    | with_reducible assumption
    | (intro (s : State) (h : Kept b p i s))
    | (intro _ (s : State) (h : Kept b p i s))
    | (intro (h : Kept b p i _))
    | (intro (s' : State); refine_lift have h : Kept b p i s' := ?_; ?_; clear_value s')
    | lift_lets
    | with_reducible apply keptO_next
    | with_reducible apply kept_ite
    | with_reducible apply keptO_ite
    | with_reducible apply kept_setCh
    | with_reducible apply kept_logThermal
    | with_reducible apply kept_onCh
    | with_reducible refine kept_foldl ?_ (fun s a h => ?_)
    | (intro x'; clear_value x')
    | intro _
    | dsimp only [s']
    | split

theorem kept_unlatch (a0 : ℕ) (h : Kept b p i s) :
    Kept b p i (unlatch a0 s) := by
  unfold unlatch
  repeat' first
    | with_reducible assumption
    | (intro (s : State) (h : Kept b p i s))
    | (intro _ (s : State) (h : Kept b p i s))
    | (intro (h : Kept b p i _))
    | (intro (s' : State); refine_lift have h : Kept b p i s' := ?_; ?_; clear_value s')
    | lift_lets
    | with_reducible apply keptO_next
    | with_reducible apply kept_ite
    | with_reducible apply kept_onCh
    | with_reducible apply kept_setCh
    | with_reducible apply kept_settleCh
    | with_reducible refine kept_foldl ?_ (fun s a h => ?_)
    | (intro x'; clear_value x')
    | intro _
    | dsimp only [s']
    | split

theorem kept_execLsLatchAutoclear (a0 : ℕ) (a1 : ℤ) (h : Kept b p i s) :
    KeptO b p i (execLsLatchAutoclear a0 a1 s) := by
  unfold execLsLatchAutoclear
  repeat' first
    | with_reducible assumption
    | (intro (s : State) (h : Kept b p i s))
    | (intro _ (s : State) (h : Kept b p i s))
    | (intro (h : Kept b p i _))
    | (intro (s' : State); refine_lift have h : Kept b p i s' := ?_; ?_; clear_value s')
    | lift_lets
    | with_reducible apply keptO_next
    | with_reducible apply kept_ite
    | with_reducible apply keptO_ite
    | with_reducible apply kept_onCh
    | with_reducible apply kept_unlatch
    | with_reducible apply kept_logThermal
    | with_reducible refine kept_foldl ?_ (fun s a h => ?_)
    | (intro x'; clear_value x')
    | intro _
    | dsimp only [s']
    | split

theorem kept_channelUv (a1 : ℕ) (h : Kept b p i s) :
    Kept b p i (channelUv s a1) := by
  unfold channelUv
  repeat' first
    | with_reducible assumption
    | (intro (s : State) (h : Kept b p i s))
    | (intro _ (s : State) (h : Kept b p i s))
    | (intro (h : Kept b p i _))
    | (intro (s' : State); refine_lift have h : Kept b p i s' := ?_; ?_; clear_value s')
    | lift_lets
    | with_reducible apply keptO_next
    | with_reducible apply kept_ite
    | with_reducible apply kept_setCh
    | with_reducible apply kept_onCh
    | with_reducible apply kept_supplyPause
    | with_reducible refine kept_foldl ?_ (fun s a h => ?_)
    | (intro x'; clear_value x')
    | intro _
    | dsimp only [s']
    | split

theorem kept_execLsUndervoltage (a0 : ℕ) (a1 : ℕ) (h : Kept b p i s) :
    KeptO b p i (execLsUndervoltage a0 a1 s) := by
  unfold execLsUndervoltage
  repeat' first
    | with_reducible assumption
    | (intro (s : State) (h : Kept b p i s))
    | (intro _ (s : State) (h : Kept b p i s))
    | (intro (h : Kept b p i _))
    | (intro (s' : State); refine_lift have h : Kept b p i s' := ?_; ?_; clear_value s')
    | lift_lets
    | with_reducible apply keptO_next
    | with_reducible apply kept_ite
    | with_reducible apply keptO_ite
    | with_reducible apply kept_onPwr
    | with_reducible apply kept_logEv
    | with_reducible apply kept_channelUv
    | with_reducible refine kept_foldl ?_ (fun s a h => ?_)
    | (intro (x : PwrBlock) hx; first | (simp only [PwrBlock.shape] at hx ⊢; with_reducible exact hx) | (simp only [PwrBlock.shape, List.length_mapIdx, List.length_map, upd_length, put_length] at hx ⊢; with_reducible exact hx) | (simp_all [PwrBlock.shape]; done) | ((repeat' split) <;> first | exact hx | (simp_all [PwrBlock.shape]; done)))
    | (intro x'; clear_value x')
    | intro _
    | dsimp only [s']
    | split

theorem kept_channelRecover (a1 : ℕ) (h : Kept b p i s) :
    Kept b p i (channelRecover s a1) := by
  unfold channelRecover
  repeat' first
    | with_reducible assumption
    | (intro (s : State) (h : Kept b p i s))
    | (intro _ (s : State) (h : Kept b p i s))
    | (intro (h : Kept b p i _))
    | (intro (s' : State); refine_lift have h : Kept b p i s' := ?_; ?_; clear_value s')
    | lift_lets
    | with_reducible apply keptO_next
    | with_reducible apply kept_ite
    | with_reducible apply kept_setCh
    | with_reducible refine kept_foldl ?_ (fun s a h => ?_)
    | (intro x'; clear_value x')
    | intro _
    | dsimp only [s']
    | split

theorem kept_execLsUvRecover (a0 : ℕ) (a1 : ℕ) (h : Kept b p i s) :
    KeptO b p i (execLsUvRecover a0 a1 s) := by
  unfold execLsUvRecover
  repeat' first
    | with_reducible assumption
    | (intro (s : State) (h : Kept b p i s))
    | (intro _ (s : State) (h : Kept b p i s))
    | (intro (h : Kept b p i _))
    | (intro (s' : State); refine_lift have h : Kept b p i s' := ?_; ?_; clear_value s')
    | lift_lets
    | with_reducible apply keptO_next
    | with_reducible apply kept_ite
    | with_reducible apply keptO_ite
    | with_reducible apply kept_onPwr
    | with_reducible apply kept_logEv
    | with_reducible apply kept_channelRecover
    | with_reducible apply kept_tryResume
    | with_reducible refine kept_foldl ?_ (fun s a h => ?_)
    | (intro (x : PwrBlock) hx; first | (simp only [PwrBlock.shape] at hx ⊢; with_reducible exact hx) | (simp only [PwrBlock.shape, List.length_mapIdx, List.length_map, upd_length, put_length] at hx ⊢; with_reducible exact hx) | (simp_all [PwrBlock.shape]; done) | ((repeat' split) <;> first | exact hx | (simp_all [PwrBlock.shape]; done)))
    | (intro x'; clear_value x')
    | intro _
    | dsimp only [s']
    | split

theorem kept_logOpenload (a0 : ℕ) (a1 : ℕ) (h : Kept b p i s) :
    Kept b p i (logOpenload a0 a1 s) := by
  unfold logOpenload
  repeat' first
    | with_reducible assumption
    | (intro (s : State) (h : Kept b p i s))
    | (intro _ (s : State) (h : Kept b p i s))
    | (intro (h : Kept b p i _))
    | (intro (s' : State); refine_lift have h : Kept b p i s' := ?_; ?_; clear_value s')
    | lift_lets
    | with_reducible apply keptO_next
    | with_reducible apply kept_ite
    | with_reducible apply kept_logEv
    | with_reducible refine kept_foldl ?_ (fun s a h => ?_)
    | (intro x'; clear_value x')
    | intro _
    | dsimp only [s']
    | split

theorem kept_execLsOpenloadOn (a0 : ℕ) (a1 : ℤ) (h : Kept b p i s) :
    KeptO b p i (execLsOpenloadOn a0 a1 s) := by
  unfold execLsOpenloadOn
  repeat' first
    | with_reducible assumption
    | (intro (s : State) (h : Kept b p i s))
    | (intro _ (s : State) (h : Kept b p i s))
    | (intro (h : Kept b p i _))
    | (intro (s' : State); refine_lift have h : Kept b p i s' := ?_; ?_; clear_value s')
    | lift_lets
    | with_reducible apply keptO_next
    | with_reducible apply kept_ite
    | with_reducible apply keptO_ite
    | with_reducible apply kept_onCh
    | with_reducible apply kept_logOpenload
    | with_reducible refine kept_foldl ?_ (fun s a h => ?_)
    | (intro x'; clear_value x')
    | intro _
    | dsimp only [s']
    | split

theorem kept_execLsOpenloadDiag (a0 : ℕ) (a1 : ℕ) (h : Kept b p i s) :
    KeptO b p i (execLsOpenloadDiag a0 a1 s) := by
  unfold execLsOpenloadDiag
  repeat' first
    | with_reducible assumption
    | (intro (s : State) (h : Kept b p i s))
    | (intro _ (s : State) (h : Kept b p i s))
    | (intro (h : Kept b p i _))
    | (intro (s' : State); refine_lift have h : Kept b p i s' := ?_; ?_; clear_value s')
    | lift_lets
    | with_reducible apply keptO_next
    | with_reducible apply kept_ite
    | with_reducible apply keptO_ite
    | with_reducible apply kept_logOpenload
    | with_reducible apply kept_onCh
    | with_reducible refine kept_foldl ?_ (fun s a h => ?_)
    | (intro x'; clear_value x')
    | intro _
    | dsimp only [s']
    | split

theorem kept_execPwrClear (a0 : Req) (a1 : ℕ) (a2 : ℕ) (h : Kept b p i s) :
    KeptO b p i (execPwrClear a0 a1 a2 s) := by
  unfold execPwrClear
  repeat' first
    | with_reducible assumption
    | (intro (s : State) (h : Kept b p i s))
    | (intro _ (s : State) (h : Kept b p i s))
    | (intro (h : Kept b p i _))
    | (intro (s' : State); refine_lift have h : Kept b p i s' := ?_; ?_; clear_value s')
    | lift_lets
    | with_reducible apply keptO_next
    | with_reducible apply kept_ite
    | with_reducible apply keptO_ite
    | with_reducible apply kept_guarded
    | with_reducible apply kept_logEv
    | with_reducible apply kept_postSts
    | with_reducible apply kept_unlatch
    | with_reducible apply kept_logThermal
    | with_reducible apply kept_settleCh
    | with_reducible apply kept_setCh
    | with_reducible apply kept_onCh
    | with_reducible refine kept_foldl ?_ (fun s a h => ?_)
    | (intro x'; clear_value x')
    | intro _
    | dsimp only [s']
    | split

theorem kept_execLimpInputChange (a0 : Bool) (a1 : ℕ) (h : Kept b p i s) :
    KeptO b p i (execLimpInputChange a0 a1 s) := by
  unfold execLimpInputChange
  repeat' first
    | with_reducible assumption
    | (intro (s : State) (h : Kept b p i s))
    | (intro _ (s : State) (h : Kept b p i s))
    | (intro (h : Kept b p i _))
    | (intro (s' : State); refine_lift have h : Kept b p i s' := ?_; ?_; clear_value s')
    | lift_lets
    | with_reducible apply keptO_next
    | with_reducible apply kept_ite
    | with_reducible apply keptO_ite
    | with_reducible apply kept_settleAll
    | with_reducible apply kept_onPwr
    | with_reducible refine kept_foldl ?_ (fun s a h => ?_)
    | (intro (x : PwrBlock) hx; first | (simp only [PwrBlock.shape] at hx ⊢; with_reducible exact hx) | (simp only [PwrBlock.shape, List.length_mapIdx, List.length_map, upd_length, put_length] at hx ⊢; with_reducible exact hx) | (simp_all [PwrBlock.shape]; done) | ((repeat' split) <;> first | exact hx | (simp_all [PwrBlock.shape]; done)))
    | (intro x'; clear_value x')
    | intro _
    | dsimp only [s']
    | split

theorem kept_noteTrue (a0 : ℕ) (a1 : ℕ) (h : Kept b p i s) :
    Kept b p i (noteTrue a0 a1 s) := by
  unfold noteTrue
  repeat' first
    | with_reducible assumption
    | (intro (s : State) (h : Kept b p i s))
    | (intro _ (s : State) (h : Kept b p i s))
    | (intro (h : Kept b p i _))
    | (intro (s' : State); refine_lift have h : Kept b p i s' := ?_; ?_; clear_value s')
    | lift_lets
    | with_reducible apply keptO_next
    | with_reducible apply kept_ite
    | with_reducible apply kept_onOwl
    | with_reducible refine kept_foldl ?_ (fun s a h => ?_)
    | (intro (x : OwlBlock) hx; first | (simp only [OwlBlock.shape] at hx ⊢; with_reducible exact hx) | (simp only [OwlBlock.shape, List.length_mapIdx, List.length_map, upd_length, put_length] at hx ⊢; with_reducible exact hx) | (simp_all [OwlBlock.shape]; done) | ((repeat' split) <;> first | exact hx | (simp_all [OwlBlock.shape]; done)))
    | (intro x'; clear_value x')
    | intro _
    | dsimp only [s']
    | split

theorem kept_levelTrue (a0 : Level) (a1 : ℕ) (a2 : ℤ) (a3 : Bool) (h : Kept b p i s) :
    Kept b p i (levelTrue a0 a1 a2 a3 s) := by
  unfold levelTrue
  repeat' first
    | with_reducible assumption
    | (intro (s : State) (h : Kept b p i s))
    | (intro _ (s : State) (h : Kept b p i s))
    | (intro (h : Kept b p i _))
    | (intro (s' : State); refine_lift have h : Kept b p i s' := ?_; ?_; clear_value s')
    | lift_lets
    | with_reducible apply keptO_next
    | with_reducible apply kept_ite
    | with_reducible apply kept_latchTrip
    | with_reducible apply kept_recordSrc
    | with_reducible apply kept_logEv
    | with_reducible apply kept_noteTrue
    | with_reducible apply kept_onFlt
    | with_reducible refine kept_foldl ?_ (fun s a h => ?_)
    | (intro (x : FltBlock) hx; first | (simp only [FltBlock.shape] at hx ⊢; with_reducible exact hx) | (simp only [FltBlock.shape, List.length_mapIdx, List.length_map, upd_length, put_length] at hx ⊢; with_reducible exact hx) | (simp_all [FltBlock.shape]; done) | ((repeat' split) <;> first | exact hx | (simp_all [FltBlock.shape]; done)))
    | (intro x'; clear_value x')
    | intro _
    | dsimp only [s']
    | split

theorem kept_levelFalse (a0 : Level) (a1 : Bool) (h : Kept b p i s) :
    Kept b p i (levelFalse a0 a1 s) := by
  unfold levelFalse
  repeat' first
    | with_reducible assumption
    | (intro (s : State) (h : Kept b p i s))
    | (intro _ (s : State) (h : Kept b p i s))
    | (intro (h : Kept b p i _))
    | (intro (s' : State); refine_lift have h : Kept b p i s' := ?_; ?_; clear_value s')
    | lift_lets
    | with_reducible apply keptO_next
    | with_reducible apply kept_ite
    | with_reducible apply kept_onFlt
    | with_reducible refine kept_foldl ?_ (fun s a h => ?_)
    | (intro (x : FltBlock) hx; first | (simp only [FltBlock.shape] at hx ⊢; with_reducible exact hx) | (simp only [FltBlock.shape, List.length_mapIdx, List.length_map, upd_length, put_length] at hx ⊢; with_reducible exact hx) | (simp_all [FltBlock.shape]; done) | ((repeat' split) <;> first | exact hx | (simp_all [FltBlock.shape]; done)))
    | (intro x'; clear_value x')
    | intro _
    | dsimp only [s']
    | split

theorem kept_tapLevel (a0 : ℕ) (a1 : ℕ) (a3 : Level) (a4 : ℕ) (h : Kept b p i s) :
    Kept b p i (tapLevel a0 a1 s a3 a4) := by
  unfold tapLevel
  repeat' first
    | with_reducible assumption
    | (intro (s : State) (h : Kept b p i s))
    | (intro _ (s : State) (h : Kept b p i s))
    | (intro (h : Kept b p i _))
    | (intro (s' : State); refine_lift have h : Kept b p i s' := ?_; ?_; clear_value s')
    | lift_lets
    | with_reducible apply keptO_next
    | with_reducible apply kept_ite
    | with_reducible apply kept_levelTrue
    | with_reducible apply kept_onFlt
    | with_reducible apply kept_levelFalse
    | with_reducible refine kept_foldl ?_ (fun s a h => ?_)
    | (intro (x : FltBlock) hx; first | (simp only [FltBlock.shape] at hx ⊢; with_reducible exact hx) | (simp only [FltBlock.shape, List.length_mapIdx, List.length_map, upd_length, put_length] at hx ⊢; with_reducible exact hx) | (simp_all [FltBlock.shape]; done) | ((repeat' split) <;> first | exact hx | (simp_all [FltBlock.shape]; done)))
    | (intro x'; clear_value x')
    | intro _
    | dsimp only [s']
    | split

theorem kept_stepBase (a0 : ℕ) (a1 : ℕ) (a2 : ℤ) (h : Kept b p i s) :
    Kept b p i (stepBase a0 a1 a2 s) := by
  unfold stepBase
  repeat' first
    | with_reducible assumption
    | (intro (s : State) (h : Kept b p i s))
    | (intro _ (s : State) (h : Kept b p i s))
    | (intro (h : Kept b p i _))
    | (intro (s' : State); refine_lift have h : Kept b p i s' := ?_; ?_; clear_value s')
    | lift_lets
    | with_reducible apply keptO_next
    | with_reducible apply kept_ite
    | with_reducible apply kept_onFlt
    | with_reducible refine kept_foldl ?_ (fun s a h => ?_)
    | (intro (x : FltBlock) hx; first | (simp only [FltBlock.shape] at hx ⊢; with_reducible exact hx) | (simp only [FltBlock.shape, List.length_mapIdx, List.length_map, upd_length, put_length] at hx ⊢; with_reducible exact hx) | (simp_all [FltBlock.shape]; done) | ((repeat' split) <;> first | exact hx | (simp_all [FltBlock.shape]; done)))
    | (intro x'; clear_value x')
    | intro _
    | dsimp only [s']
    | split

theorem kept_residualLevel (a0 : ℕ) (a1 : ℕ) (a2 : Bool) (a4 : Level) (a5 : ℕ) (h : Kept b p i s) :
    Kept b p i (residualLevel a0 a1 a2 s a4 a5) := by
  unfold residualLevel
  repeat' first
    | with_reducible assumption
    | (intro (s : State) (h : Kept b p i s))
    | (intro _ (s : State) (h : Kept b p i s))
    | (intro (h : Kept b p i _))
    | (intro (s' : State); refine_lift have h : Kept b p i s' := ?_; ?_; clear_value s')
    | lift_lets
    | with_reducible apply keptO_next
    | with_reducible apply kept_ite
    | with_reducible apply kept_levelTrue
    | with_reducible apply kept_onFlt
    | with_reducible apply kept_levelFalse
    | with_reducible refine kept_foldl ?_ (fun s a h => ?_)
    | (intro (x : FltBlock) hx; first | (simp only [FltBlock.shape] at hx ⊢; with_reducible exact hx) | (simp only [FltBlock.shape, List.length_mapIdx, List.length_map, upd_length, put_length] at hx ⊢; with_reducible exact hx) | (simp_all [FltBlock.shape]; done) | ((repeat' split) <;> first | exact hx | (simp_all [FltBlock.shape]; done)))
    | (intro x'; clear_value x')
    | intro _
    | dsimp only [s']
    | split

theorem kept_compareTap (a0 : Level → ℕ → Bool) (a1 : ℕ) (h : Kept b p i s) :
    Kept b p i (compareTap a0 a1 s) := by
  unfold compareTap
  repeat' first
    | with_reducible assumption
    | (intro (s : State) (h : Kept b p i s))
    | (intro _ (s : State) (h : Kept b p i s))
    | (intro (h : Kept b p i _))
    | (intro (s' : State); refine_lift have h : Kept b p i s' := ?_; ?_; clear_value s')
    | lift_lets
    | with_reducible apply keptO_next
    | with_reducible apply kept_ite
    | with_reducible apply kept_residualLevel
    | with_reducible apply kept_tapLevel
    | with_reducible refine kept_foldl ?_ (fun s a h => ?_)
    | (intro x'; clear_value x')
    | intro _
    | dsimp only [s']
    | split

theorem kept_execFastTrip (a0 : ℕ) (a1 : ℕ) (h : Kept b p i s) :
    KeptO b p i (execFastTrip a0 a1 s) := by
  unfold execFastTrip
  repeat' first
    | with_reducible assumption
    | (intro (s : State) (h : Kept b p i s))
    | (intro _ (s : State) (h : Kept b p i s))
    | (intro (h : Kept b p i _))
    | (intro (s' : State); refine_lift have h : Kept b p i s' := ?_; ?_; clear_value s')
    | lift_lets
    | with_reducible apply keptO_next
    | with_reducible apply kept_ite
    | with_reducible apply keptO_ite
    | with_reducible apply kept_compareTap
    | with_reducible refine kept_foldl ?_ (fun s a h => ?_)
    | (intro x'; clear_value x')
    | intro _
    | dsimp only [s']
    | split

theorem kept_takeTap (a0 : ℕ) (a1 : Bool) (h : Kept b p i s) :
    Kept b p i (takeTap a0 a1 s) := by
  unfold takeTap
  repeat' first
    | with_reducible assumption
    | (intro (s : State) (h : Kept b p i s))
    | (intro _ (s : State) (h : Kept b p i s))
    | (intro (h : Kept b p i _))
    | (intro (s' : State); refine_lift have h : Kept b p i s' := ?_; ?_; clear_value s')
    | lift_lets
    | with_reducible apply keptO_next
    | with_reducible apply kept_ite
    | with_reducible apply kept_diagFail
    | with_reducible apply kept_compareTap
    | with_reducible apply kept_stepBase
    | with_reducible refine kept_foldl ?_ (fun s a h => ?_)
    | (intro x'; clear_value x')
    | intro _
    | dsimp only [s']
    | split

theorem kept_execFastTapWord (a0 : ℕ) (a1 : TapInput) (h : Kept b p i s) :
    KeptO b p i (execFastTapWord a0 a1 s) := by
  unfold execFastTapWord
  repeat' first
    | with_reducible assumption
    | (intro (s : State) (h : Kept b p i s))
    | (intro _ (s : State) (h : Kept b p i s))
    | (intro (h : Kept b p i _))
    | (intro (s' : State); refine_lift have h : Kept b p i s' := ?_; ?_; clear_value s')
    | lift_lets
    | with_reducible apply keptO_next
    | with_reducible apply kept_ite
    | with_reducible apply keptO_ite
    | with_reducible apply kept_takeTap
    | with_reducible apply kept_formTap
    | with_reducible refine kept_foldl ?_ (fun s a h => ?_)
    | (intro x'; clear_value x')
    | intro _
    | dsimp only [s']
    | split

theorem kept_execRcEvaluate (a0 : ℕ) (a1 : List ℤ) (h : Kept b p i s) :
    KeptO b p i (execRcEvaluate a0 a1 s) := by
  unfold execRcEvaluate
  repeat' first
    | with_reducible assumption
    | (intro (s : State) (h : Kept b p i s))
    | (intro _ (s : State) (h : Kept b p i s))
    | (intro (h : Kept b p i _))
    | (intro (s' : State); refine_lift have h : Kept b p i s' := ?_; ?_; clear_value s')
    | lift_lets
    | with_reducible apply keptO_next
    | with_reducible apply kept_ite
    | with_reducible apply keptO_ite
    | with_reducible apply kept_bump
    | with_reducible apply kept_onFlt
    | with_reducible refine kept_foldl ?_ (fun s a h => ?_)
    | (intro (x : FltBlock) hx; first | (simp only [FltBlock.shape] at hx ⊢; with_reducible exact hx) | (simp only [FltBlock.shape, List.length_mapIdx, List.length_map, upd_length, put_length] at hx ⊢; with_reducible exact hx) | (simp_all [FltBlock.shape]; done) | ((repeat' split) <;> first | exact hx | (simp_all [FltBlock.shape]; done)))
    | (intro x'; clear_value x')
    | intro _
    | dsimp only [s']
    | split

theorem kept_execRcTrip (a0 : ℕ) (a1 : ℕ) (h : Kept b p i s) :
    KeptO b p i (execRcTrip a0 a1 s) := by
  unfold execRcTrip
  repeat' first
    | with_reducible assumption
    | (intro (s : State) (h : Kept b p i s))
    | (intro _ (s : State) (h : Kept b p i s))
    | (intro (h : Kept b p i _))
    | (intro (s' : State); refine_lift have h : Kept b p i s' := ?_; ?_; clear_value s')
    | lift_lets
    | with_reducible apply keptO_next
    | with_reducible apply kept_ite
    | with_reducible apply keptO_ite
    | with_reducible apply kept_onFlt
    | with_reducible apply kept_latchTrip
    | with_reducible apply kept_recordSrc
    | with_reducible apply kept_logEv
    | with_reducible refine kept_foldl ?_ (fun s a h => ?_)
    | (intro (x : FltBlock) hx; first | (simp only [FltBlock.shape] at hx ⊢; with_reducible exact hx) | (simp only [FltBlock.shape, List.length_mapIdx, List.length_map, upd_length, put_length] at hx ⊢; with_reducible exact hx) | (simp_all [FltBlock.shape]; done) | ((repeat' split) <;> first | exact hx | (simp_all [FltBlock.shape]; done)))
    | (intro x'; clear_value x')
    | intro _
    | dsimp only [s']
    | split

theorem kept_execIsoStateSwitch (a0 : ℕ) (a1 : IsoInput) (h : Kept b p i s) :
    KeptO b p i (execIsoStateSwitch a0 a1 s) := by
  unfold execIsoStateSwitch
  repeat' first
    | with_reducible assumption
    | (intro (s : State) (h : Kept b p i s))
    | (intro _ (s : State) (h : Kept b p i s))
    | (intro (h : Kept b p i _))
    | (intro (s' : State); refine_lift have h : Kept b p i s' := ?_; ?_; clear_value s')
    | lift_lets
    | with_reducible apply keptO_next
    | with_reducible apply kept_ite
    | with_reducible apply keptO_ite
    | with_reducible apply kept_bump
    | with_reducible apply kept_onFlt
    | with_reducible refine kept_foldl ?_ (fun s a h => ?_)
    | (intro (x : FltBlock) hx; first | (simp only [FltBlock.shape] at hx ⊢; with_reducible exact hx) | (simp only [FltBlock.shape, List.length_mapIdx, List.length_map, upd_length, put_length] at hx ⊢; with_reducible exact hx) | (simp_all [FltBlock.shape]; done) | ((repeat' split) <;> first | exact hx | (simp_all [FltBlock.shape]; done)))
    | (intro x'; clear_value x')
    | intro _
    | dsimp only [s']
    | split

theorem kept_execIsoUnknown (a0 : ℕ) (a1 : ℤ) (h : Kept b p i s) :
    KeptO b p i (execIsoUnknown a0 a1 s) := by
  unfold execIsoUnknown
  repeat' first
    | with_reducible assumption
    | (intro (s : State) (h : Kept b p i s))
    | (intro _ (s : State) (h : Kept b p i s))
    | (intro (h : Kept b p i _))
    | (intro (s' : State); refine_lift have h : Kept b p i s' := ?_; ?_; clear_value s')
    | lift_lets
    | with_reducible apply keptO_next
    | with_reducible apply kept_ite
    | with_reducible apply keptO_ite
    | with_reducible apply kept_logEv
    | with_reducible apply kept_onFlt
    | with_reducible refine kept_foldl ?_ (fun s a h => ?_)
    | (intro (x : FltBlock) hx; first | (simp only [FltBlock.shape] at hx ⊢; with_reducible exact hx) | (simp only [FltBlock.shape, List.length_mapIdx, List.length_map, upd_length, put_length] at hx ⊢; with_reducible exact hx) | (simp_all [FltBlock.shape]; done) | ((repeat' split) <;> first | exact hx | (simp_all [FltBlock.shape]; done)))
    | (intro x'; clear_value x')
    | intro _
    | dsimp only [s']
    | split

theorem kept_recordWeld (a0 : ℕ) (a1 : Bool) (a2 : WeldResult × ℕ × ℕ × ℕ) (h : Kept b p i s) :
    Kept b p i (recordWeld a0 a1 a2 s) := by
  unfold recordWeld
  repeat' first
    | with_reducible assumption
    | (intro (s : State) (h : Kept b p i s))
    | (intro _ (s : State) (h : Kept b p i s))
    | (intro (h : Kept b p i _))
    | (intro (s' : State); refine_lift have h : Kept b p i s' := ?_; ?_; clear_value s')
    | lift_lets
    | with_reducible apply keptO_next
    | with_reducible apply kept_ite
    | with_reducible apply kept_onFlt
    | with_reducible apply kept_logEv
    | with_reducible apply kept_onCfg
    | with_reducible refine kept_foldl ?_ (fun s a h => ?_)
    | (intro (x : FltBlock) hx; first | (simp only [FltBlock.shape] at hx ⊢; with_reducible exact hx) | (simp only [FltBlock.shape, List.length_mapIdx, List.length_map, upd_length, put_length] at hx ⊢; with_reducible exact hx) | (simp_all [FltBlock.shape]; done) | ((repeat' split) <;> first | exact hx | (simp_all [FltBlock.shape]; done)))
    | (intro x'; clear_value x')
    | intro _
    | dsimp only [s']
    | split

theorem kept_execPreCloseResult (a0 : ℕ) (a1 : WeldInput) (h : Kept b p i s) :
    KeptO b p i (execPreCloseResult a0 a1 s) := by
  unfold execPreCloseResult
  repeat' first
    | with_reducible assumption
    | (intro (s : State) (h : Kept b p i s))
    | (intro _ (s : State) (h : Kept b p i s))
    | (intro (h : Kept b p i _))
    | (intro (s' : State); refine_lift have h : Kept b p i s' := ?_; ?_; clear_value s')
    | lift_lets
    | with_reducible apply keptO_next
    | with_reducible apply kept_ite
    | with_reducible apply keptO_ite
    | with_reducible apply kept_recordWeld
    | with_reducible apply kept_onLink
    | with_reducible apply kept_closeContactors
    | with_reducible apply kept_endSession
    | with_reducible apply kept_logEv
    | with_reducible refine kept_foldl ?_ (fun s a h => ?_)
    | (intro x'; clear_value x')
    | intro _
    | dsimp only [s']
    | split

theorem kept_execPrecloseRetry (a0 : ℕ) (h : Kept b p i s) :
    KeptO b p i (execPrecloseRetry a0 s) := by
  unfold execPrecloseRetry
  repeat' first
    | with_reducible assumption
    | (intro (s : State) (h : Kept b p i s))
    | (intro _ (s : State) (h : Kept b p i s))
    | (intro (h : Kept b p i _))
    | (intro (s' : State); refine_lift have h : Kept b p i s' := ?_; ?_; clear_value s')
    | lift_lets
    | with_reducible apply keptO_next
    | with_reducible apply kept_ite
    | with_reducible apply keptO_ite
    | with_reducible apply kept_onLink
    | with_reducible refine kept_foldl ?_ (fun s a h => ?_)
    | (intro x'; clear_value x')
    | intro _
    | dsimp only [s']
    | split

theorem kept_afterPostOpen (a0 : ℕ) (h : Kept b p i s) :
    Kept b p i (afterPostOpen a0 s) := by
  unfold afterPostOpen
  repeat' first
    | with_reducible assumption
    | (intro (s : State) (h : Kept b p i s))
    | (intro _ (s : State) (h : Kept b p i s))
    | (intro (h : Kept b p i _))
    | (intro (s' : State); refine_lift have h : Kept b p i s' := ?_; ?_; clear_value s')
    | lift_lets
    | with_reducible apply keptO_next
    | with_reducible apply kept_ite
    | with_reducible apply kept_onLink
    | with_reducible apply kept_tryResume
    | with_reducible apply kept_setSup
    | with_reducible apply kept_finishSession
    | with_reducible refine kept_foldl ?_ (fun s a h => ?_)
    | (intro x'; clear_value x')
    | intro _
    | dsimp only [s']
    | split

theorem kept_execPostOpenResult (a0 : ℕ) (a1 : WeldInput) (h : Kept b p i s) :
    KeptO b p i (execPostOpenResult a0 a1 s) := by
  unfold execPostOpenResult
  repeat' first
    | with_reducible assumption
    | (intro (s : State) (h : Kept b p i s))
    | (intro _ (s : State) (h : Kept b p i s))
    | (intro (h : Kept b p i _))
    | (intro (s' : State); refine_lift have h : Kept b p i s' := ?_; ?_; clear_value s')
    | lift_lets
    | with_reducible apply keptO_next
    | with_reducible apply kept_ite
    | with_reducible apply keptO_ite
    | with_reducible apply kept_recordWeld
    | with_reducible apply kept_logEv
    | with_reducible apply kept_onOwl
    | with_reducible apply kept_afterPostOpen
    | with_reducible refine kept_foldl ?_ (fun s a h => ?_)
    | (intro (x : OwlBlock) hx; first | (simp only [OwlBlock.shape] at hx ⊢; with_reducible exact hx) | (simp only [OwlBlock.shape, List.length_mapIdx, List.length_map, upd_length, put_length] at hx ⊢; with_reducible exact hx) | (simp_all [OwlBlock.shape]; done) | ((repeat' split) <;> first | exact hx | (simp_all [OwlBlock.shape]; done)))
    | (intro x'; clear_value x')
    | intro _
    | dsimp only [s']
    | split

theorem kept_execWeldClear (a0 : Req) (a1 : ℕ) (h : Kept b p i s) :
    KeptO b p i (execWeldClear a0 a1 s) := by
  unfold execWeldClear
  repeat' first
    | with_reducible assumption
    | (intro (s : State) (h : Kept b p i s))
    | (intro _ (s : State) (h : Kept b p i s))
    | (intro (h : Kept b p i _))
    | (intro (s' : State); refine_lift have h : Kept b p i s' := ?_; ?_; clear_value s')
    | lift_lets
    | with_reducible apply keptO_next
    | with_reducible apply kept_ite
    | with_reducible apply keptO_ite
    | with_reducible apply kept_guarded
    | with_reducible apply kept_postSts
    | with_reducible apply kept_changeEntry
    | with_reducible apply kept_onCfg
    | with_reducible refine kept_foldl ?_ (fun s a h => ?_)
    | (intro x'; clear_value x')
    | intro _
    | dsimp only [s']
    | split

theorem kept_lockReading (a0 : ℕ) (a1 : ℕ) (a2 : Bool) (h : Kept b p i s) :
    Kept b p i (lockReading a0 a1 a2 s) := by
  unfold lockReading
  repeat' first
    | with_reducible assumption
    | (intro (s : State) (h : Kept b p i s))
    | (intro _ (s : State) (h : Kept b p i s))
    | (intro (h : Kept b p i _))
    | (intro (s' : State); refine_lift have h : Kept b p i s' := ?_; ?_; clear_value s')
    | lift_lets
    | with_reducible apply keptO_next
    | with_reducible apply kept_ite
    | with_reducible apply kept_onLock
    | with_reducible apply kept_lockWatch
    | with_reducible apply kept_offerChanged
    | with_reducible apply kept_lockReached
    | with_reducible apply kept_lockLost
    | with_reducible refine kept_foldl ?_ (fun s a h => ?_)
    | (intro x'; clear_value x')
    | intro _
    | dsimp only [s']
    | split

theorem kept_execLockFeedback (a0 : ℕ) (a1 : Bool) (h : Kept b p i s) :
    KeptO b p i (execLockFeedback a0 a1 s) := by
  unfold execLockFeedback
  repeat' first
    | with_reducible assumption
    | (intro (s : State) (h : Kept b p i s))
    | (intro _ (s : State) (h : Kept b p i s))
    | (intro (h : Kept b p i _))
    | (intro (s' : State); refine_lift have h : Kept b p i s' := ?_; ?_; clear_value s')
    | lift_lets
    | with_reducible apply keptO_next
    | with_reducible apply kept_ite
    | with_reducible apply keptO_ite
    | with_reducible apply kept_owlReact
    | with_reducible apply kept_lockReading
    | with_reducible refine kept_foldl ?_ (fun s a h => ?_)
    | (intro x'; clear_value x')
    | intro _
    | dsimp only [s']
    | split

theorem kept_execLockTimeout (a0 : ℕ) (h : Kept b p i s) :
    KeptO b p i (execLockTimeout a0 s) := by
  unfold execLockTimeout
  repeat' first
    | with_reducible assumption
    | (intro (s : State) (h : Kept b p i s))
    | (intro _ (s : State) (h : Kept b p i s))
    | (intro (h : Kept b p i _))
    | (intro (s' : State); refine_lift have h : Kept b p i s' := ?_; ?_; clear_value s')
    | lift_lets
    | with_reducible apply keptO_next
    | with_reducible apply kept_ite
    | with_reducible apply keptO_ite
    | with_reducible apply kept_logEv
    | with_reducible apply kept_onLock
    | with_reducible apply kept_lockDemand
    | with_reducible refine kept_foldl ?_ (fun s a h => ?_)
    | (intro x'; clear_value x')
    | intro _
    | dsimp only [s']
    | split

theorem kept_execLockRetry (a0 : ℕ) (h : Kept b p i s) :
    KeptO b p i (execLockRetry a0 s) := by
  unfold execLockRetry
  repeat' first
    | with_reducible assumption
    | (intro (s : State) (h : Kept b p i s))
    | (intro _ (s : State) (h : Kept b p i s))
    | (intro (h : Kept b p i _))
    | (intro (s' : State); refine_lift have h : Kept b p i s' := ?_; ?_; clear_value s')
    | lift_lets
    | with_reducible apply keptO_next
    | with_reducible apply kept_ite
    | with_reducible apply keptO_ite
    | with_reducible apply kept_lockDemand
    | with_reducible apply kept_onLock
    | with_reducible refine kept_foldl ?_ (fun s a h => ?_)
    | (intro x'; clear_value x')
    | intro _
    | dsimp only [s']
    | split

end Sys2Proof.Machine
end

