-- ==== Sys2Proof/Laws/KeptRegs.lean ====
section
/-! SUPPORT. What the operations of Regs.lean keep. -/

set_option linter.unusedSimpArgs false
set_option linter.unusedVariables false
set_option linter.unreachableTactic false
set_option linter.unusedTactic false

namespace Sys2Proof.Machine

variable {b : Prop} {p : List Instr} {i : Ident} {s : State}

theorem kept_sysRegWrite (a w : Nat) (h : Kept b p i s) : Kept b p i (sysRegWrite a w s) := by
  unfold sysRegWrite
  refine kept_ite (kept_rstreqWrite _ h) (kept_ite ?_ h)
  split
  · rename_i hr
    simp only [inRange, Bool.and_eq_true, decide_eq_true_eq] at hr
    exact kept_onSys h fun _ hx => ⟨hx.1, hr.1, hr.2⟩
  · exact h

theorem kept_laneCtlWrite (a0 : ℕ) (a1 : ℕ) (h : Kept b p i s) :
    Kept b p i (laneCtlWrite a0 a1 s) := by
  unfold laneCtlWrite
  repeat' first
    | with_reducible assumption
    | (intro (s : State) (h : Kept b p i s))
    | (intro _ (s : State) (h : Kept b p i s))
    | (intro (h : Kept b p i _))
    | (intro (s' : State); refine_lift have h : Kept b p i s' := ?_; ?_; clear_value s')
    | lift_lets
    | with_reducible apply keptO_next
    | with_reducible apply kept_ite
    | with_reducible apply kept_laneTrialWrite
    | with_reducible apply kept_onLane
    | with_reducible refine kept_foldl ?_ (fun s a h => ?_)
    | (intro x'; clear_value x')
    | intro _
    | dsimp only [s']
    | split

theorem kept_firctlWrite (a0 : ℕ) (a1 : ℕ) (h : Kept b p i s) :
    Kept b p i (firctlWrite a0 a1 s) := by
  unfold firctlWrite
  repeat' first
    | with_reducible assumption
    | (intro (s : State) (h : Kept b p i s))
    | (intro _ (s : State) (h : Kept b p i s))
    | (intro (h : Kept b p i _))
    | (intro (s' : State); refine_lift have h : Kept b p i s' := ?_; ?_; clear_value s')
    | lift_lets
    | with_reducible apply keptO_next
    | with_reducible apply kept_ite
    | with_reducible apply kept_onLane
    | with_reducible refine kept_foldl ?_ (fun s a h => ?_)
    | (intro x'; clear_value x')
    | intro _
    | dsimp only [s']
    | split

theorem kept_laneRegWrite (a0 : ℕ) (a1 : ℕ) (h : Kept b p i s) :
    Kept b p i (laneRegWrite a0 a1 s) := by
  unfold laneRegWrite
  repeat' first
    | with_reducible assumption
    | (intro (s : State) (h : Kept b p i s))
    | (intro _ (s : State) (h : Kept b p i s))
    | (intro (h : Kept b p i _))
    | (intro (s' : State); refine_lift have h : Kept b p i s' := ?_; ?_; clear_value s')
    | lift_lets
    | with_reducible apply keptO_next
    | with_reducible apply kept_ite
    | with_reducible apply kept_laneCtlWrite
    | with_reducible apply kept_laneCalWrite
    | with_reducible apply kept_firctlWrite
    | with_reducible apply kept_firdataWrite
    | with_reducible apply kept_onLane
    | with_reducible refine kept_foldl ?_ (fun s a h => ?_)
    | (intro x'; clear_value x')
    | intro _
    | dsimp only [s']
    | split

theorem kept_metRegWrite (a0 : ℕ) (a1 : ℕ) (h : Kept b p i s) :
    Kept b p i (metRegWrite a0 a1 s) := by
  unfold metRegWrite
  repeat' first
    | with_reducible assumption
    | (intro (s : State) (h : Kept b p i s))
    | (intro _ (s : State) (h : Kept b p i s))
    | (intro (h : Kept b p i _))
    | (intro (s' : State); refine_lift have h : Kept b p i s' := ?_; ?_; clear_value s')
    | lift_lets
    | with_reducible apply keptO_next
    | with_reducible apply kept_ite
    | with_reducible apply kept_snapctlWrite
    | with_reducible apply kept_onMet
    | with_reducible apply kept_calctlWrite
    | with_reducible refine kept_foldl ?_ (fun s a h => ?_)
    | (intro (x : MetBlock) hx; first | (simp only [MetBlock.shape] at hx ⊢; with_reducible exact hx) | (simp only [MetBlock.shape, List.length_mapIdx, List.length_map, upd_length, put_length] at hx ⊢; with_reducible exact hx) | (simp_all [MetBlock.shape]; done) | ((repeat' split) <;> first | exact hx | (simp_all [MetBlock.shape]; done)))
    | (intro x'; clear_value x')
    | intro _
    | dsimp only [s']
    | split

theorem kept_pwrRegWrite (a0 : ℕ) (a1 : ℕ) (h : Kept b p i s) :
    Kept b p i (pwrRegWrite a0 a1 s) := by
  unfold pwrRegWrite
  repeat' first
    | with_reducible assumption
    | (intro (s : State) (h : Kept b p i s))
    | (intro _ (s : State) (h : Kept b p i s))
    | (intro (h : Kept b p i _))
    | (intro (s' : State); refine_lift have h : Kept b p i s' := ?_; ?_; clear_value s')
    | lift_lets
    | with_reducible apply keptO_next
    | with_reducible apply kept_ite
    | with_reducible apply kept_settleCh
    | with_reducible apply kept_onCh
    | with_reducible refine kept_foldl ?_ (fun s a h => ?_)
    | (intro x'; clear_value x')
    | intro _
    | dsimp only [s']
    | split

theorem kept_vlkCfgWrite (a0 : ℕ) (a1 : ℕ) (h : Kept b p i s) :
    Kept b p i (vlkCfgWrite a0 a1 s) := by
  unfold vlkCfgWrite
  repeat' first
    | with_reducible assumption
    | (intro (s : State) (h : Kept b p i s))
    | (intro _ (s : State) (h : Kept b p i s))
    | (intro (h : Kept b p i _))
    | (intro (s' : State); refine_lift have h : Kept b p i s' := ?_; ?_; clear_value s')
    | lift_lets
    | with_reducible apply keptO_next
    | with_reducible apply kept_ite
    | with_reducible apply kept_onLink
    | with_reducible refine kept_foldl ?_ (fun s a h => ?_)
    | (intro x'; clear_value x')
    | intro _
    | dsimp only [s']
    | split

theorem kept_ringRegWrite (a0 : Port) (a1 : ℕ) (a2 : ℕ) (h : Kept b p i s) :
    Kept b p i (ringRegWrite a0 a1 a2 s) := by
  unfold ringRegWrite
  repeat' first
    | with_reducible assumption
    | (intro (s : State) (h : Kept b p i s))
    | (intro _ (s : State) (h : Kept b p i s))
    | (intro (h : Kept b p i _))
    | (intro (s' : State); refine_lift have h : Kept b p i s' := ?_; ?_; clear_value s')
    | lift_lets
    | with_reducible apply keptO_next
    | with_reducible apply kept_ite
    | with_reducible apply kept_onRings
    | with_reducible apply kept_txTailWrite
    | with_reducible apply kept_rxTailWrite
    | with_reducible refine kept_foldl ?_ (fun s a h => ?_)
    | (intro x'; clear_value x')
    | intro _
    | dsimp only [s']
    | split

theorem kept_vlkRegWrite (a0 : ℕ) (a1 : ℕ) (h : Kept b p i s) :
    Kept b p i (vlkRegWrite a0 a1 s) := by
  unfold vlkRegWrite
  repeat' first
    | with_reducible assumption
    | (intro (s : State) (h : Kept b p i s))
    | (intro _ (s : State) (h : Kept b p i s))
    | (intro (h : Kept b p i _))
    | (intro (s' : State); refine_lift have h : Kept b p i s' := ?_; ?_; clear_value s')
    | lift_lets
    | with_reducible apply keptO_next
    | with_reducible apply kept_ite
    | with_reducible apply kept_vlkCfgWrite
    | with_reducible apply kept_pilotWrite
    | with_reducible apply kept_ringRegWrite
    | with_reducible refine kept_foldl ?_ (fun s a h => ?_)
    | (intro x'; clear_value x')
    | intro _
    | dsimp only [s']
    | split

theorem kept_glkRegWrite (a0 : ℕ) (a1 : ℕ) (h : Kept b p i s) :
    Kept b p i (glkRegWrite a0 a1 s) := by
  unfold glkRegWrite
  repeat' first
    | with_reducible assumption
    | (intro (s : State) (h : Kept b p i s))
    | (intro _ (s : State) (h : Kept b p i s))
    | (intro (h : Kept b p i _))
    | (intro (s' : State); refine_lift have h : Kept b p i s' := ?_; ?_; clear_value s')
    | lift_lets
    | with_reducible apply keptO_next
    | with_reducible apply kept_ite
    | with_reducible apply kept_glkCfgWrite
    | with_reducible apply kept_onGlk
    | with_reducible apply kept_ringRegWrite
    | with_reducible apply kept_ethCfgWrite
    | with_reducible apply kept_mdioWrite
    | with_reducible refine kept_foldl ?_ (fun s a h => ?_)
    | (intro x'; clear_value x')
    | intro _
    | dsimp only [s']
    | split

theorem kept_timCtlWrite (a0 : ℕ) (h : Kept b p i s) :
    Kept b p i (timCtlWrite a0 s) := by
  unfold timCtlWrite
  repeat' first
    | with_reducible assumption
    | (intro (s : State) (h : Kept b p i s))
    | (intro _ (s : State) (h : Kept b p i s))
    | (intro (h : Kept b p i _))
    | (intro (s' : State); refine_lift have h : Kept b p i s' := ?_; ?_; clear_value s')
    | lift_lets
    | with_reducible apply keptO_next
    | with_reducible apply kept_ite
    | with_reducible apply kept_onTim
    | with_reducible refine kept_foldl ?_ (fun s a h => ?_)
    | (intro (x : TimBlock) hx; first | (simp only [TimBlock.shape] at hx ⊢; with_reducible exact hx) | (simp only [TimBlock.shape, List.length_mapIdx, List.length_map, upd_length, put_length] at hx ⊢; with_reducible exact hx) | (simp_all [TimBlock.shape]; done) | ((repeat' split) <;> first | exact hx | (simp_all [TimBlock.shape]; done)))
    | (intro x'; clear_value x')
    | intro _
    | dsimp only [s']
    | split

theorem kept_ptpStatWrite (a0 : ℕ) (h : Kept b p i s) :
    Kept b p i (ptpStatWrite a0 s) := by
  unfold ptpStatWrite
  repeat' first
    | with_reducible assumption
    | (intro (s : State) (h : Kept b p i s))
    | (intro _ (s : State) (h : Kept b p i s))
    | (intro (h : Kept b p i _))
    | (intro (s' : State); refine_lift have h : Kept b p i s' := ?_; ?_; clear_value s')
    | lift_lets
    | with_reducible apply keptO_next
    | with_reducible apply kept_ite
    | with_reducible apply kept_onTim
    | with_reducible apply kept_timPtpfPop
    | with_reducible refine kept_foldl ?_ (fun s a h => ?_)
    | (intro (x : TimBlock) hx; first | (simp only [TimBlock.shape] at hx ⊢; with_reducible exact hx) | (simp only [TimBlock.shape, List.length_mapIdx, List.length_map, upd_length, put_length] at hx ⊢; with_reducible exact hx) | (simp_all [TimBlock.shape]; done) | ((repeat' split) <;> first | exact hx | (simp_all [TimBlock.shape]; done)))
    | (intro x'; clear_value x')
    | intro _
    | dsimp only [s']
    | split

theorem kept_timRegWrite (a0 : ℕ) (a1 : ℕ) (h : Kept b p i s) :
    Kept b p i (timRegWrite a0 a1 s) := by
  unfold timRegWrite
  repeat' first
    | with_reducible assumption
    | (intro (s : State) (h : Kept b p i s))
    | (intro _ (s : State) (h : Kept b p i s))
    | (intro (h : Kept b p i _))
    | (intro (s' : State); refine_lift have h : Kept b p i s' := ?_; ?_; clear_value s')
    | lift_lets
    | with_reducible apply keptO_next
    | with_reducible apply kept_ite
    | with_reducible apply kept_timCtlWrite
    | with_reducible apply kept_onTim
    | with_reducible apply kept_timAlarmHiWrite
    | with_reducible apply kept_timIncWrite
    | with_reducible apply kept_ptpStatWrite
    | with_reducible refine kept_foldl ?_ (fun s a h => ?_)
    | (intro (x : TimBlock) hx; first | (simp only [TimBlock.shape] at hx ⊢; with_reducible exact hx) | (simp only [TimBlock.shape, List.length_mapIdx, List.length_map, upd_length, put_length] at hx ⊢; with_reducible exact hx) | (simp_all [TimBlock.shape]; done) | ((repeat' split) <;> first | exact hx | (simp_all [TimBlock.shape]; done)))
    | (intro x'; clear_value x')
    | intro _
    | dsimp only [s']
    | split

theorem kept_tagRegWrite (a0 : ℕ) (a1 : ℕ) (h : Kept b p i s) :
    Kept b p i (tagRegWrite a0 a1 s) := by
  unfold tagRegWrite
  repeat' first
    | with_reducible assumption
    | (intro (s : State) (h : Kept b p i s))
    | (intro _ (s : State) (h : Kept b p i s))
    | (intro (h : Kept b p i _))
    | (intro (s' : State); refine_lift have h : Kept b p i s' := ?_; ?_; clear_value s')
    | lift_lets
    | with_reducible apply keptO_next
    | with_reducible apply kept_ite
    | with_reducible apply kept_tagCtlWrite
    | with_reducible apply kept_onTag
    | with_reducible apply kept_rptPop
    | with_reducible refine kept_foldl ?_ (fun s a h => ?_)
    | (intro (x : TagBlock) hx; first | (simp only [TagBlock.shape] at hx ⊢; with_reducible exact hx) | (simp only [TagBlock.shape, List.length_mapIdx, List.length_map, upd_length, put_length] at hx ⊢; with_reducible exact hx) | (simp_all [TagBlock.shape]; done) | ((repeat' split) <;> first | exact hx | (simp_all [TagBlock.shape]; done)))
    | (intro x'; clear_value x')
    | intro _
    | dsimp only [s']
    | split

theorem kept_epdRegWrite (a0 : ℕ) (a1 : ℕ) (h : Kept b p i s) :
    Kept b p i (epdRegWrite a0 a1 s) := by
  unfold epdRegWrite
  repeat' first
    | with_reducible assumption
    | (intro (s : State) (h : Kept b p i s))
    | (intro _ (s : State) (h : Kept b p i s))
    | (intro (h : Kept b p i _))
    | (intro (s' : State); refine_lift have h : Kept b p i s' := ?_; ?_; clear_value s')
    | lift_lets
    | with_reducible apply keptO_next
    | with_reducible apply kept_ite
    | with_reducible apply kept_epdCtlWrite
    | with_reducible apply kept_epdTempWrite
    | with_reducible apply kept_ledCtlWrite
    | with_reducible apply kept_ledPatWrite
    | with_reducible refine kept_foldl ?_ (fun s a h => ?_)
    | (intro x'; clear_value x')
    | intro _
    | dsimp only [s']
    | split

theorem kept_updRegWrite (a0 : ℕ) (a1 : ℕ) (h : Kept b p i s) :
    Kept b p i (updRegWrite a0 a1 s) := by
  unfold updRegWrite
  repeat' first
    | with_reducible assumption
    | (intro (s : State) (h : Kept b p i s))
    | (intro _ (s : State) (h : Kept b p i s))
    | (intro (h : Kept b p i _))
    | (intro (s' : State); refine_lift have h : Kept b p i s' := ?_; ?_; clear_value s')
    | lift_lets
    | with_reducible apply keptO_next
    | with_reducible apply kept_ite
    | with_reducible apply kept_onUpd
    | with_reducible refine kept_foldl ?_ (fun s a h => ?_)
    | (intro (x : UpdBlock) hx; first | (simp only [UpdBlock.shape] at hx ⊢; with_reducible exact hx) | (simp only [UpdBlock.shape, List.length_mapIdx, List.length_map, upd_length, put_length] at hx ⊢; with_reducible exact hx) | (simp_all [UpdBlock.shape]; done) | ((repeat' split) <;> first | exact hx | (simp_all [UpdBlock.shape]; done)))
    | (intro x'; clear_value x')
    | intro _
    | dsimp only [s']
    | split

theorem kept_bellWrite (a0 : Side) (a1 : ℕ) (h : Kept b p i s) :
    Kept b p i (bellWrite a0 a1 s) := by
  unfold bellWrite
  repeat' first
    | with_reducible assumption
    | (intro (s : State) (h : Kept b p i s))
    | (intro _ (s : State) (h : Kept b p i s))
    | (intro (h : Kept b p i _))
    | (intro (s' : State); refine_lift have h : Kept b p i s' := ?_; ?_; clear_value s')
    | lift_lets
    | with_reducible apply keptO_next
    | with_reducible apply kept_ite
    | with_reducible apply kept_onMgt
    | with_reducible apply kept_doorbell
    | with_reducible refine kept_foldl ?_ (fun s a h => ?_)
    | (intro (x : MgtBlock) hx; first | exact hx | exact ⟨Nat.zero_le _, Nat.zero_le _⟩ | exact ⟨hx.1, Nat.zero_le _⟩)
    | (intro x'; clear_value x')
    | intro _
    | dsimp only [s']
    | split

theorem kept_windowWrite (a0 : Side) (a1 : ℕ) (a2 : ℕ) (h : Kept b p i s) :
    Kept b p i (windowWrite a0 a1 a2 s) := by
  unfold windowWrite
  repeat' first
    | with_reducible assumption
    | (intro (s : State) (h : Kept b p i s))
    | (intro _ (s : State) (h : Kept b p i s))
    | (intro (h : Kept b p i _))
    | (intro (s' : State); refine_lift have h : Kept b p i s' := ?_; ?_; clear_value s')
    | lift_lets
    | with_reducible apply keptO_next
    | with_reducible apply kept_ite
    | with_reducible apply kept_onMgt
    | with_reducible refine kept_foldl ?_ (fun s a h => ?_)
    | (intro (x : MgtBlock) hx; first | exact hx | exact ⟨Nat.zero_le _, Nat.zero_le _⟩ | exact ⟨hx.1, Nat.zero_le _⟩)
    | (intro x'; clear_value x')
    | intro _
    | dsimp only [s']
    | split

theorem kept_mgtRegWrite (a0 : ℕ) (a1 : ℕ) (h : Kept b p i s) :
    Kept b p i (mgtRegWrite a0 a1 s) := by
  unfold mgtRegWrite
  repeat' first
    | with_reducible assumption
    | (intro (s : State) (h : Kept b p i s))
    | (intro _ (s : State) (h : Kept b p i s))
    | (intro (h : Kept b p i _))
    | (intro (s' : State); refine_lift have h : Kept b p i s' := ?_; ?_; clear_value s')
    | lift_lets
    | with_reducible apply keptO_next
    | with_reducible apply kept_ite
    | with_reducible apply kept_heartbeat
    | with_reducible apply kept_bellWrite
    | with_reducible apply kept_windowWrite
    | with_reducible refine kept_foldl ?_ (fun s a h => ?_)
    | (intro x'; clear_value x')
    | intro _
    | dsimp only [s']
    | split

theorem kept_ringBlockWrite (a0 : Side) (a1 : ℕ) (a2 : ℕ) (h : Kept b p i s) :
    Kept b p i (ringBlockWrite a0 a1 a2 s) := by
  unfold ringBlockWrite
  repeat' first
    | with_reducible assumption
    | (intro (s : State) (h : Kept b p i s))
    | (intro _ (s : State) (h : Kept b p i s))
    | (intro (h : Kept b p i _))
    | (intro (s' : State); refine_lift have h : Kept b p i s' := ?_; ?_; clear_value s')
    | lift_lets
    | with_reducible apply keptO_next
    | with_reducible apply kept_ite
    | with_reducible apply kept_ctailWrite
    | with_reducible apply kept_releaseWrite
    | with_reducible apply kept_onRing
    | with_reducible refine kept_foldl ?_ (fun s a h => ?_)
    | (intro (x : Ring) hx; first | exact hx | exact ⟨hx.1, Nat.mod_lt _ (by decide), hx.2.2⟩ | exact ⟨hx.1, hx.2.1, Nat.mod_lt _ (by decide), hx.2.2.2⟩ | exact ⟨by simpa [Ring.shape] using hx.1, hx.2⟩ | exact acceptSlot_ok _ _ _ hx | exact noteSpace_ok hx | exact completeSlot_ok _ _ _ _ _ _ hx | exact bufferWords_ok _ _ _ hx)
    | (intro x'; clear_value x')
    | intro _
    | dsimp only [s']
    | split

theorem kept_descWrite (a0 : Side) (a1 : ℕ) (a2 : ℕ) (h : Kept b p i s) :
    Kept b p i (descWrite a0 a1 a2 s) := by
  unfold descWrite
  repeat' first
    | with_reducible assumption
    | (intro (s : State) (h : Kept b p i s))
    | (intro _ (s : State) (h : Kept b p i s))
    | (intro (h : Kept b p i _))
    | (intro (s' : State); refine_lift have h : Kept b p i s' := ?_; ?_; clear_value s')
    | lift_lets
    | with_reducible apply keptO_next
    | with_reducible apply kept_ite
    | with_reducible apply kept_onRing
    | with_reducible refine kept_foldl ?_ (fun s a h => ?_)
    | (intro (x : Ring) hx; first | exact hx | exact ⟨hx.1, Nat.mod_lt _ (by decide), hx.2.2⟩ | exact ⟨hx.1, hx.2.1, Nat.mod_lt _ (by decide), hx.2.2.2⟩ | exact ⟨by simpa [Ring.shape] using hx.1, hx.2⟩ | exact acceptSlot_ok _ _ _ hx | exact noteSpace_ok hx | exact completeSlot_ok _ _ _ _ _ _ hx | exact bufferWords_ok _ _ _ hx)
    | (intro x'; clear_value x')
    | intro _
    | dsimp only [s']
    | split

theorem kept_hsiRegWrite (view : Side) (a w : Nat) (h : Kept b p i s) : Kept b p i (hsiRegWrite view a w s) := by
  unfold hsiRegWrite
  refine kept_ite ?_ ?_
  · split
    · rename_i hr
      have : field w 3 0 < 16 := Nat.mod_lt _ (by decide)
      exact kept_onHsi h fun _ hx => ⟨hx.1, hx.2.1, hr, by show field w 3 0 ≤ 15; omega⟩
    · exact h
  · cases view
    · exact kept_ite (kept_ringBlockWrite _ _ _ h) (kept_ite (kept_descWrite _ _ _ h) h)
    · exact kept_ite (kept_ringBlockWrite _ _ _ h) (kept_ite (kept_descWrite _ _ _ h) h)

theorem kept_busRegWrite (a0 : ℕ) (a1 : ℕ) (h : Kept b p i s) :
    Kept b p i (busRegWrite a0 a1 s) := by
  unfold busRegWrite
  repeat' first
    | with_reducible assumption
    | (intro (s : State) (h : Kept b p i s))
    | (intro _ (s : State) (h : Kept b p i s))
    | (intro (h : Kept b p i _))
    | (intro (s' : State); refine_lift have h : Kept b p i s' := ?_; ?_; clear_value s')
    | lift_lets
    | with_reducible apply keptO_next
    | with_reducible apply kept_ite
    | with_reducible apply kept_canCfgWrite
    | with_reducible apply kept_canNbtWrite
    | with_reducible apply kept_canDbtWrite
    | with_reducible apply kept_ringRegWrite
    | with_reducible apply kept_canFilterWrite
    | with_reducible refine kept_foldl ?_ (fun s a h => ?_)
    | (intro x'; clear_value x')
    | intro _
    | dsimp only [s']
    | split

theorem kept_regWrite (a0 : Side) (a1 : ℕ) (a2 : ℕ) (h : Kept b p i s) :
    Kept b p i (regWrite a0 a1 a2 s) := by
  unfold regWrite
  repeat' first
    | with_reducible assumption
    | (intro (s : State) (h : Kept b p i s))
    | (intro _ (s : State) (h : Kept b p i s))
    | (intro (h : Kept b p i _))
    | (intro (s' : State); refine_lift have h : Kept b p i s' := ?_; ?_; clear_value s')
    | lift_lets
    | with_reducible apply keptO_next
    | with_reducible apply kept_ite
    | with_reducible apply kept_sysRegWrite
    | with_reducible apply kept_laneRegWrite
    | with_reducible apply kept_metRegWrite
    | with_reducible apply kept_pwrRegWrite
    | with_reducible apply kept_vlkRegWrite
    | with_reducible apply kept_glkRegWrite
    | with_reducible apply kept_timRegWrite
    | with_reducible apply kept_tagRegWrite
    | with_reducible apply kept_epdRegWrite
    | with_reducible apply kept_updRegWrite
    | with_reducible apply kept_mgtRegWrite
    | with_reducible apply kept_hsiRegWrite
    | with_reducible apply kept_busRegWrite
    | with_reducible refine kept_foldl ?_ (fun s a h => ?_)
    | (intro x'; clear_value x')
    | intro _
    | dsimp only [s']
    | split

theorem kept_regWrites (a0 : Side) (a1 : ℕ) (a2 : List Word) (h : Kept b p i s) :
    Kept b p i (regWrites a0 a1 a2 s) := by
  induction a2 generalizing a1 s with
  | nil => exact h
  | cons x l ih =>
  simp only [regWrites]
  repeat' first
    | with_reducible assumption
    | (intro (s : State) (h : Kept b p i s))
    | (intro _ (s : State) (h : Kept b p i s))
    | (intro (h : Kept b p i _))
    | (intro (s' : State); refine_lift have h : Kept b p i s' := ?_; ?_; clear_value s')
    | lift_lets
    | with_reducible apply keptO_next
    | with_reducible apply kept_ite
    | with_reducible apply kept_regWrite
    | with_reducible apply ih
    | with_reducible refine kept_foldl ?_ (fun s a h => ?_)
    | (intro x'; clear_value x')
    | intro _
    | dsimp only [s']
    | split

theorem kept_execRegisterWrite (a0 : Side) (a1 : ℕ) (a2 : List Word) (h : Kept b p i s) :
    KeptO b p i (execRegisterWrite a0 a1 a2 s) := by
  unfold execRegisterWrite
  repeat' first
    | with_reducible assumption
    | (intro (s : State) (h : Kept b p i s))
    | (intro _ (s : State) (h : Kept b p i s))
    | (intro (h : Kept b p i _))
    | (intro (s' : State); refine_lift have h : Kept b p i s' := ?_; ?_; clear_value s')
    | lift_lets
    | with_reducible apply keptO_next
    | with_reducible apply kept_ite
    | with_reducible apply keptO_ite
    | with_reducible apply kept_regWrites
    | with_reducible refine kept_foldl ?_ (fun s a h => ?_)
    | (intro x'; clear_value x')
    | intro _
    | dsimp only [s']
    | split

end Sys2Proof.Machine
end

