-- ==== Sys2Proof/Laws/Marked.lean ====
section
/-! SUPPORT. Marks that no operation takes back: record numbers, KEY_COUNTER, the life-cycle fuses, the security floors, and the
releases that nobody but Owl's cycle grants. `Marked` is carried through every operation by the lemmas `marked_<operation>`. -/

set_option linter.unreachableTactic false
set_option linter.unusedTactic false

namespace Sys2Proof.Machine

/-- The marks of a state. -/
structure Marks where
  seq : Nat
  counter : Nat
  retired : Bool
  left : Bool
  floors : Nat → Nat
  released : Nat → Prop

/-- The floor of an image kind (R355). -/
def floorOf (b : UpdBlock) (k : Nat) : Nat := (b.kinds.getD k Kind.fresh).floor

def MgtMarked (m : Marks) (b : MgtBlock) : Prop := m.seq ≤ b.seq
def KeyMarked (m : Marks) (b : KeyBlock) : Prop :=
  m.counter ≤ b.counter ∧ (m.retired = true → b.retiredFuse = true) ∧ (m.left = true → b.leftBlank = true)
structure UpdMarked (m : Marks) (b : UpdBlock) : Prop where
  floors : ∀ k, m.floors k ≤ floorOf b k

structure OwlMarked (m : Marks) (b : OwlBlock) : Prop where
  released : ∀ o, flag b.released o = true → m.released o


/-- A state lies at or above the marks, and releases at most what they release. -/
def Marked (m : Marks) (s : State) : Prop := MgtMarked m s.mgt ∧ KeyMarked m s.key ∧ UpdMarked m s.upd ∧ OwlMarked m s.owl

variable {m : Marks} {s : State}

/-- `Marked` of what an outcome goes on to. -/
def MarkedO (m : Marks) (o : Host.Outcome State Fault Refusal) : Prop := ∀ t, o = .next t → Marked m t

theorem markedO_next (h : Marked m s) : MarkedO m (.next s) := by
  intro t ht
  cases ht
  exact h

theorem markedO_ite {c : Prop} [Decidable c] {x y : Host.Outcome State Fault Refusal} (hx : MarkedO m x)
    (hy : MarkedO m y) : MarkedO m (if c then x else y) := by
  split
  · exact hx
  · exact hy

theorem marked_ite {c : Prop} [Decidable c] {x y : State} (hx : Marked m x) (hy : Marked m y) :
    Marked m (if c then x else y) := by
  split
  · exact hx
  · exact hy

theorem marked_foldl {α : Type} {f : State → α → State} {l : List α} (h : Marked m s)
    (hf : ∀ s a, Marked m s → Marked m (f s a)) : Marked m (l.foldl f s) := by
  induction l generalizing s with
  | nil => exact h
  | cons a l ih => exact ih (hf s a h)

/-! ## Updates of one block -/

theorem marked_onStr (h : Marked m s) {f : StrBlock → StrBlock} : Marked m (onStr f s) := h
theorem marked_onGlk (h : Marked m s) {f : GlkBlock → GlkBlock} : Marked m (onGlk f s) := h
theorem marked_onEth (h : Marked m s) {f : EthBlock → EthBlock} : Marked m (onEth f s) := h
theorem marked_onLaneBlk (h : Marked m s) {f : LaneBlock → LaneBlock} : Marked m (onLaneBlk f s) := h
theorem marked_onMet (h : Marked m s) {f : MetBlock → MetBlock} : Marked m (onMet f s) := h
theorem marked_onBil (h : Marked m s) {f : BilBlock → BilBlock} : Marked m (onBil f s) := h
theorem marked_onPwr (h : Marked m s) {f : PwrBlock → PwrBlock} : Marked m (onPwr f s) := h
theorem marked_onFlt (h : Marked m s) {f : FltBlock → FltBlock} : Marked m (onFlt f s) := h
theorem marked_onTim (h : Marked m s) {f : TimBlock → TimBlock} : Marked m (onTim f s) := h
theorem marked_onTag (h : Marked m s) {f : TagBlock → TagBlock} : Marked m (onTag f s) := h
theorem marked_onEpd (h : Marked m s) {f : EpdBlock → EpdBlock} : Marked m (onEpd f s) := h
theorem marked_onSys (h : Marked m s) {f : SysBlock → SysBlock} : Marked m (onSys f s) := h
theorem marked_onHsi (h : Marked m s) {f : HsiBlock → HsiBlock} : Marked m (onHsi f s) := h
theorem marked_onLink (h : Marked m s) {o : Nat} {f : Link → Link} : Marked m (onLink o f s) := h
theorem marked_onCan (h : Marked m s) {o : Nat} {f : Can → Can} : Marked m (onCan o f s) := h
theorem marked_onLinks (h : Marked m s) {f : Link → Link} : Marked m (onLinks f s) := h
theorem marked_onCans (h : Marked m s) {f : Can → Can} : Marked m (onCans f s) := h

theorem marked_onMgt (h : Marked m s) {f : MgtBlock → MgtBlock} (hf : ∀ x, MgtMarked m x → MgtMarked m (f x)) :
    Marked m (onMgt f s) := ⟨hf _ h.1, h.2⟩
theorem marked_onKey (h : Marked m s) {f : KeyBlock → KeyBlock} (hf : ∀ x, KeyMarked m x → KeyMarked m (f x)) :
    Marked m (onKey f s) := ⟨h.1, hf _ h.2.1, h.2.2⟩
theorem marked_onUpd (h : Marked m s) {f : UpdBlock → UpdBlock} (hf : ∀ x, UpdMarked m x → UpdMarked m (f x)) :
    Marked m (onUpd f s) := ⟨h.1, h.2.1, hf _ h.2.2.1, h.2.2.2⟩
theorem marked_onOwl (h : Marked m s) {f : OwlBlock → OwlBlock} (hf : ∀ x, OwlMarked m x → OwlMarked m (f x)) :
    Marked m (onOwl f s) := ⟨h.1, h.2.1, h.2.2.1, hf _ h.2.2.2⟩

/-- No release is made by one that is given up. -/
theorem flag_put_false {l : List Bool} {o k : Nat} (h : flag (put l o false) k = true) : flag l k = true := by
  simp only [flag, put, List.getD_eq_getElem?_getD, List.getElem?_set] at h ⊢
  split at h
  · split at h <;> simp at h
  · exact h

theorem flag_none {n k : Nat} (h : flag (List.replicate n false) k = true) : False := by
  simp only [flag, List.getD_eq_getElem?_getD, List.getElem?_replicate] at h
  split at h <;> simp at h

end Sys2Proof.Machine
end

