-- ==== Sys2Proof/Laws/MarkedOps.lean ====
section
/-! SUPPORT. The operations of Ops.lean take no mark back. -/

set_option linter.unusedVariables false
set_option linter.unreachableTactic false
set_option linter.unusedTactic false

namespace Sys2Proof.Machine

variable {m : Marks} {s : State}

theorem marked_onLane (a0 : ℕ) (a1 : Lane → Lane) (h : Marked m s) :
    Marked m (onLane a0 a1 s) := by
  unfold onLane
  repeat' first
    | with_reducible assumption
    | (intro (s : State) (h : Marked m s))
    | (intro _ (s : State) (h : Marked m s))
    | (intro (h : Marked m _))
    | (intro (s' : State); refine_lift have h : Marked m s' := ?_; ?_; clear_value s')
    | lift_lets
    | with_reducible apply markedO_next
    | with_reducible apply marked_ite
    | with_reducible apply marked_onLaneBlk
    | with_reducible refine marked_foldl ?_ (fun s x h => ?_)
    | (intro x'; clear_value x')
    | intro _
    | dsimp only [s']
    | split

theorem marked_onMetOut (a0 : ℕ) (a1 : MetOutlet → MetOutlet) (h : Marked m s) :
    Marked m (onMetOut a0 a1 s) := by
  unfold onMetOut
  repeat' first
    | with_reducible assumption
    | (intro (s : State) (h : Marked m s))
    | (intro _ (s : State) (h : Marked m s))
    | (intro (h : Marked m _))
    | (intro (s' : State); refine_lift have h : Marked m s' := ?_; ?_; clear_value s')
    | lift_lets
    | with_reducible apply markedO_next
    | with_reducible apply marked_ite
    | with_reducible apply marked_onMet
    | with_reducible refine marked_foldl ?_ (fun s x h => ?_)
    | (intro x'; clear_value x')
    | intro _
    | dsimp only [s']
    | split

theorem marked_onBilOut (a0 : ℕ) (a1 : BilOutlet → BilOutlet) (h : Marked m s) :
    Marked m (onBilOut a0 a1 s) := by
  unfold onBilOut
  repeat' first
    | with_reducible assumption
    | (intro (s : State) (h : Marked m s))
    | (intro _ (s : State) (h : Marked m s))
    | (intro (h : Marked m _))
    | (intro (s' : State); refine_lift have h : Marked m s' := ?_; ?_; clear_value s')
    | lift_lets
    | with_reducible apply markedO_next
    | with_reducible apply marked_ite
    | with_reducible apply marked_onBil
    | with_reducible refine marked_foldl ?_ (fun s x h => ?_)
    | (intro x'; clear_value x')
    | intro _
    | dsimp only [s']
    | split

theorem marked_onCh (a0 : ℕ) (a1 : Channel → Channel) (h : Marked m s) :
    Marked m (onCh a0 a1 s) := by
  unfold onCh
  repeat' first
    | with_reducible assumption
    | (intro (s : State) (h : Marked m s))
    | (intro _ (s : State) (h : Marked m s))
    | (intro (h : Marked m _))
    | (intro (s' : State); refine_lift have h : Marked m s' := ?_; ?_; clear_value s')
    | lift_lets
    | with_reducible apply markedO_next
    | with_reducible apply marked_ite
    | with_reducible apply marked_onPwr
    | with_reducible refine marked_foldl ?_ (fun s x h => ?_)
    | (intro x'; clear_value x')
    | intro _
    | dsimp only [s']
    | split

theorem marked_onLock (a0 : ℕ) (a1 : Lock → Lock) (h : Marked m s) :
    Marked m (onLock a0 a1 s) := by
  unfold onLock
  repeat' first
    | with_reducible assumption
    | (intro (s : State) (h : Marked m s))
    | (intro _ (s : State) (h : Marked m s))
    | (intro (h : Marked m _))
    | (intro (s' : State); refine_lift have h : Marked m s' := ?_; ?_; clear_value s')
    | lift_lets
    | with_reducible apply markedO_next
    | with_reducible apply marked_ite
    | with_reducible apply marked_onPwr
    | with_reducible refine marked_foldl ?_ (fun s x h => ?_)
    | (intro x'; clear_value x')
    | intro _
    | dsimp only [s']
    | split

theorem marked_onDom (a0 : ℕ) (a1 : Domain → Domain) (h : Marked m s) :
    Marked m (onDom a0 a1 s) := by
  unfold onDom
  repeat' first
    | with_reducible assumption
    | (intro (s : State) (h : Marked m s))
    | (intro _ (s : State) (h : Marked m s))
    | (intro (h : Marked m _))
    | (intro (s' : State); refine_lift have h : Marked m s' := ?_; ?_; clear_value s')
    | lift_lets
    | with_reducible apply markedO_next
    | with_reducible apply marked_ite
    | with_reducible apply marked_onTim
    | with_reducible refine marked_foldl ?_ (fun s x h => ?_)
    | (intro x'; clear_value x')
    | intro _
    | dsimp only [s']
    | split

theorem marked_bump  (h : Marked m s) :
    Marked m (bump s) := by
  exact h

theorem marked_retain (a0 : Event) (h : Marked m s) :
    Marked m (retain a0 s) := by
  unfold retain
  repeat' first
    | with_reducible assumption
    | (intro (s : State) (h : Marked m s))
    | (intro _ (s : State) (h : Marked m s))
    | (intro (h : Marked m _))
    | (intro (x : MgtBlock) hx; first | (show m.seq ≤ _; exact (hx : m.seq ≤ x.seq)) | (split <;> exact hx) | (dsimp only; repeat' split <;> exact hx))
    | (intro (s' : State); refine_lift have h : Marked m s' := ?_; ?_; clear_value s')
    | lift_lets
    | with_reducible apply markedO_next
    | with_reducible apply marked_ite
    | with_reducible apply marked_onSys
    | with_reducible apply marked_onMgt
    | with_reducible refine marked_foldl ?_ (fun s x h => ?_)
    | (intro x'; clear_value x')
    | intro _
    | dsimp only [s']
    | split

theorem marked_enterLog (a0 : Event) (h : Marked m s) :
    Marked m (enterLog a0 s) := by
  exact ⟨Nat.le_succ_of_le h.1, h.2⟩

theorem marked_sendEvent (a0 : Event) (h : Marked m s) :
    Marked m (sendEvent a0 s) := by
  unfold sendEvent
  repeat' first
    | with_reducible assumption
    | (intro (s : State) (h : Marked m s))
    | (intro _ (s : State) (h : Marked m s))
    | (intro (h : Marked m _))
    | (intro (s' : State); refine_lift have h : Marked m s' := ?_; ?_; clear_value s')
    | lift_lets
    | with_reducible apply markedO_next
    | with_reducible apply marked_ite
    | with_reducible apply marked_enterLog
    | with_reducible apply marked_retain
    | with_reducible refine marked_foldl ?_ (fun s x h => ?_)
    | (intro x'; clear_value x')
    | intro _
    | dsimp only [s']
    | split

theorem marked_logEv (a0 : EvClass) (a1 : ℕ) (a2 : ℕ) (a3 : ℕ) (a4 : List (ℕ × ℕ)) (h : Marked m s) :
    Marked m (logEv a0 a1 a2 a3 a4 s) := by
  unfold logEv
  repeat' first
    | with_reducible assumption
    | (intro (s : State) (h : Marked m s))
    | (intro _ (s : State) (h : Marked m s))
    | (intro (h : Marked m _))
    | (intro (s' : State); refine_lift have h : Marked m s' := ?_; ?_; clear_value s')
    | lift_lets
    | with_reducible apply markedO_next
    | with_reducible apply marked_ite
    | with_reducible apply marked_sendEvent
    | with_reducible refine marked_foldl ?_ (fun s x h => ?_)
    | (intro x'; clear_value x')
    | intro _
    | dsimp only [s']
    | split

theorem marked_onRing (a0 : Side) (a1 : Ring → Ring) (h : Marked m s) :
    Marked m (onRing a0 a1 s) := by
  unfold onRing
  repeat' first
    | with_reducible assumption
    | (intro (s : State) (h : Marked m s))
    | (intro _ (s : State) (h : Marked m s))
    | (intro (h : Marked m _))
    | (intro (s' : State); refine_lift have h : Marked m s' := ?_; ?_; clear_value s')
    | lift_lets
    | with_reducible apply markedO_next
    | with_reducible apply marked_ite
    | with_reducible apply marked_onHsi
    | with_reducible refine marked_foldl ?_ (fun s x h => ?_)
    | (intro x'; clear_value x')
    | intro _
    | dsimp only [s']
    | split

theorem marked_post (a0 : Req) (a1 : ℕ) (a2 : ℕ) (a3 : Bytes) (h : Marked m s) :
    Marked m (post a0 a1 a2 a3 s) := by
  exact marked_onRing (s := s) a0.side (completeSlot a0.tag a1 a2 (nowTs s) a3) h

theorem marked_postSts (a0 : Req) (a1 : ℕ) (h : Marked m s) :
    Marked m (postSts a0 a1 s) := by
  unfold postSts
  repeat' first
    | with_reducible assumption
    | (intro (s : State) (h : Marked m s))
    | (intro _ (s : State) (h : Marked m s))
    | (intro (h : Marked m _))
    | (intro (s' : State); refine_lift have h : Marked m s' := ?_; ?_; clear_value s')
    | lift_lets
    | with_reducible apply markedO_next
    | with_reducible apply marked_ite
    | with_reducible apply marked_post
    | with_reducible refine marked_foldl ?_ (fun s x h => ?_)
    | (intro x'; clear_value x')
    | intro _
    | dsimp only [s']
    | split

theorem marked_pend (a0 : Req) (h : Marked m s) :
    Marked m (pend a0 s) := by
  exact h

theorem marked_guarded (a0 : Req) (a1 : List (Bool × ℕ)) (a2 : State → State) (hf2 : ∀ s, Marked m s → Marked m (a2 s)) (h : Marked m s) :
    Marked m (guarded a0 a1 a2 s) := by
  unfold guarded
  repeat' first
    | with_reducible assumption
    | (intro (s : State) (h : Marked m s))
    | (intro _ (s : State) (h : Marked m s))
    | (intro (h : Marked m _))
    | (intro (s' : State); refine_lift have h : Marked m s' := ?_; ?_; clear_value s')
    | lift_lets
    | with_reducible apply markedO_next
    | with_reducible apply marked_ite
    | with_reducible apply marked_postSts
    | with_reducible refine marked_foldl ?_ (fun s x h => ?_)
    | apply hf2
    | (intro x'; clear_value x')
    | intro _
    | dsimp only [s']
    | split

theorem marked_badgerCmd (a0 : Req) (a1 : State → State) (hf1 : ∀ s, Marked m s → Marked m (a1 s)) (h : Marked m s) :
    Marked m (badgerCmd a0 a1 s) := by
  unfold badgerCmd
  repeat' first
    | with_reducible assumption
    | (intro (s : State) (h : Marked m s))
    | (intro _ (s : State) (h : Marked m s))
    | (intro (h : Marked m _))
    | (intro (s' : State); refine_lift have h : Marked m s' := ?_; ?_; clear_value s')
    | lift_lets
    | with_reducible apply markedO_next
    | with_reducible apply marked_ite
    | with_reducible apply marked_postSts
    | with_reducible refine marked_foldl ?_ (fun s x h => ?_)
    | apply hf1
    | (intro x'; clear_value x')
    | intro _
    | dsimp only [s']
    | split

theorem marked_returns (a0 : ℕ) (h : Marked m s) :
    Marked m (returns a0 s) := by
  exact h

theorem marked_noticeTo (a0 : Bool) (a1 : ℕ) (a2 : ℕ) (h : Marked m s) :
    Marked m (noticeTo a0 a1 a2 s) := by
  unfold noticeTo
  repeat' first
    | with_reducible assumption
    | (intro (s : State) (h : Marked m s))
    | (intro _ (s : State) (h : Marked m s))
    | (intro (h : Marked m _))
    | (intro (x : MgtBlock) hx; first | (show m.seq ≤ _; exact (hx : m.seq ≤ x.seq)) | (split <;> exact hx) | (dsimp only; repeat' split <;> exact hx))
    | (intro (s' : State); refine_lift have h : Marked m s' := ?_; ?_; clear_value s')
    | lift_lets
    | with_reducible apply markedO_next
    | with_reducible apply marked_ite
    | with_reducible apply marked_onMgt
    | with_reducible refine marked_foldl ?_ (fun s x h => ?_)
    | (intro x'; clear_value x')
    | intro _
    | dsimp only [s']
    | split

theorem marked_notice (a0 : ℕ) (a1 : ℕ) (h : Marked m s) :
    Marked m (notice a0 a1 s) := by
  unfold notice
  repeat' first
    | with_reducible assumption
    | (intro (s : State) (h : Marked m s))
    | (intro _ (s : State) (h : Marked m s))
    | (intro (h : Marked m _))
    | (intro (s' : State); refine_lift have h : Marked m s' := ?_; ?_; clear_value s')
    | lift_lets
    | with_reducible apply markedO_next
    | with_reducible apply marked_ite
    | with_reducible apply marked_noticeTo
    | with_reducible refine marked_foldl ?_ (fun s x h => ?_)
    | (intro x'; clear_value x')
    | intro _
    | dsimp only [s']
    | split

theorem marked_setMode (a0 : ℕ) (a1 : Mode) (h : Marked m s) :
    Marked m (setMode a0 a1 s) := by
  unfold setMode
  repeat' first
    | with_reducible assumption
    | (intro (s : State) (h : Marked m s))
    | (intro _ (s : State) (h : Marked m s))
    | (intro (h : Marked m _))
    | (intro (s' : State); refine_lift have h : Marked m s' := ?_; ?_; clear_value s')
    | lift_lets
    | with_reducible apply markedO_next
    | with_reducible apply marked_ite
    | with_reducible apply marked_logEv
    | with_reducible apply marked_onSys
    | with_reducible apply marked_notice
    | with_reducible refine marked_foldl ?_ (fun s x h => ?_)
    | (intro x'; clear_value x')
    | intro _
    | dsimp only [s']
    | split

theorem marked_evalMode  (h : Marked m s) :
    Marked m (evalMode s) := by
  unfold evalMode
  repeat' first
    | with_reducible assumption
    | (intro (s : State) (h : Marked m s))
    | (intro _ (s : State) (h : Marked m s))
    | (intro (h : Marked m _))
    | (intro (s' : State); refine_lift have h : Marked m s' := ?_; ?_; clear_value s')
    | lift_lets
    | with_reducible apply markedO_next
    | with_reducible apply marked_ite
    | with_reducible apply marked_setMode
    | with_reducible refine marked_foldl ?_ (fun s x h => ?_)
    | (intro x'; clear_value x')
    | intro _
    | dsimp only [s']
    | split

end Sys2Proof.Machine
end

