-- ==== Sys2Proof/Laws/MarkedWarren.lean ====
section
/-! SUPPORT. The operations of Warren.lean take no mark back. -/

set_option linter.unusedVariables false
set_option linter.unreachableTactic false
set_option linter.unusedTactic false

namespace Sys2Proof.Machine

variable {m : Marks} {s : State}

theorem marked_logReject (a0 : ℕ) (a1 : ℕ) (a2 : ℕ) (a3 : Bytes) (h : Marked m s) :
    Marked m (logReject a0 a1 a2 a3 s) := by
  unfold logReject
  repeat' first
    | with_reducible assumption
    | (intro (s : State) (h : Marked m s))
    | (intro _ (s : State) (h : Marked m s))
    | (intro (h : Marked m _))
    | (intro (s' : State); refine_lift have h : Marked m s' := ?_; ?_; clear_value s')
    | lift_lets
    | with_reducible apply markedO_next
    | with_reducible apply marked_ite
    | with_reducible apply marked_logEv
    | with_reducible refine marked_foldl ?_ (fun s x h => ?_)
    | (intro x'; clear_value x')
    | intro _
    | dsimp only [s']
    | split

end Sys2Proof.Machine
end

