-- ==== Sys2Proof/Laws/MarkedLanes.lean ====
section
/-! SUPPORT. The operations of Lanes.lean take no mark back. -/

set_option linter.unusedVariables false
set_option linter.unreachableTactic false
set_option linter.unusedTactic false

namespace Sys2Proof.Machine

variable {m : Marks} {s : State}

theorem marked_raiseTrigger (a0 : ℕ) (a1 : Trigger) (h : Marked m s) :
    Marked m (raiseTrigger a0 a1 s) := by
  unfold raiseTrigger
  repeat' first
    | with_reducible assumption
    | (intro (s : State) (h : Marked m s))
    | (intro _ (s : State) (h : Marked m s))
    | (intro (h : Marked m _))
    | (intro (s' : State); refine_lift have h : Marked m s' := ?_; ?_; clear_value s')
    | lift_lets
    | with_reducible apply markedO_next
    | with_reducible apply marked_ite
    | with_reducible apply marked_onLane
    | with_reducible apply marked_onLaneBlk
    | with_reducible refine marked_foldl ?_ (fun s x h => ?_)
    | (intro x'; clear_value x')
    | intro _
    | dsimp only [s']
    | split

theorem marked_checkFail (a0 : ℕ) (a1 : ℕ) (h : Marked m s) :
    Marked m (checkFail a0 a1 s) := by
  unfold checkFail
  repeat' first
    | with_reducible assumption
    | (intro (s : State) (h : Marked m s))
    | (intro _ (s : State) (h : Marked m s))
    | (intro (h : Marked m _))
    | (intro (s' : State); refine_lift have h : Marked m s' := ?_; ?_; clear_value s')
    | lift_lets
    | with_reducible apply markedO_next
    | with_reducible apply marked_ite
    | with_reducible apply marked_raiseTrigger
    | with_reducible apply marked_onLane
    | with_reducible refine marked_foldl ?_ (fun s x h => ?_)
    | (intro x'; clear_value x')
    | intro _
    | dsimp only [s']
    | split

theorem marked_startWarmup (a0 : ℕ) (a1 : ℕ) (h : Marked m s) :
    Marked m (startWarmup a0 a1 s) := by
  unfold startWarmup
  repeat' first
    | with_reducible assumption
    | (intro (s : State) (h : Marked m s))
    | (intro _ (s : State) (h : Marked m s))
    | (intro (h : Marked m _))
    | (intro (s' : State); refine_lift have h : Marked m s' := ?_; ?_; clear_value s')
    | lift_lets
    | with_reducible apply markedO_next
    | with_reducible apply marked_ite
    | with_reducible apply marked_onLane
    | with_reducible apply marked_onLaneBlk
    | with_reducible refine marked_foldl ?_ (fun s x h => ?_)
    | (intro x'; clear_value x')
    | intro _
    | dsimp only [s']
    | split

theorem marked_serveQueue  (h : Marked m s) :
    Marked m (serveQueue s) := by
  unfold serveQueue
  repeat' first
    | with_reducible assumption
    | (intro (s : State) (h : Marked m s))
    | (intro _ (s : State) (h : Marked m s))
    | (intro (h : Marked m _))
    | (intro (s' : State); refine_lift have h : Marked m s' := ?_; ?_; clear_value s')
    | lift_lets
    | with_reducible apply markedO_next
    | with_reducible apply marked_ite
    | with_reducible apply marked_startWarmup
    | with_reducible apply marked_onLaneBlk
    | with_reducible refine marked_foldl ?_ (fun s x h => ?_)
    | (intro x'; clear_value x')
    | intro _
    | dsimp only [s']
    | split

theorem marked_endTrial (a0 : ℕ) (h : Marked m s) :
    Marked m (endTrial a0 s) := by
  unfold endTrial
  repeat' first
    | with_reducible assumption
    | (intro (s : State) (h : Marked m s))
    | (intro _ (s : State) (h : Marked m s))
    | (intro (h : Marked m _))
    | (intro (s' : State); refine_lift have h : Marked m s' := ?_; ?_; clear_value s')
    | lift_lets
    | with_reducible apply markedO_next
    | with_reducible apply marked_ite
    | with_reducible apply marked_serveQueue
    | with_reducible apply marked_onLane
    | with_reducible refine marked_foldl ?_ (fun s x h => ?_)
    | (intro x'; clear_value x')
    | intro _
    | dsimp only [s']
    | split

theorem marked_firdataWrite (a0 : ℕ) (a1 : ℕ) (h : Marked m s) :
    Marked m (firdataWrite a0 a1 s) := by
  unfold firdataWrite
  repeat' first
    | with_reducible assumption
    | (intro (s : State) (h : Marked m s))
    | (intro _ (s : State) (h : Marked m s))
    | (intro (h : Marked m _))
    | (intro (s' : State); refine_lift have h : Marked m s' := ?_; ?_; clear_value s')
    | lift_lets
    | with_reducible apply markedO_next
    | with_reducible apply marked_ite
    | with_reducible apply marked_onLane
    | with_reducible refine marked_foldl ?_ (fun s x h => ?_)
    | (intro x'; clear_value x')
    | intro _
    | dsimp only [s']
    | split

theorem marked_execFirdataWrite (a0 : ℕ) (a1 : Word) (h : Marked m s) :
    MarkedO m (execFirdataWrite a0 a1 s) := by
  unfold execFirdataWrite
  repeat' first
    | with_reducible assumption
    | (intro (s : State) (h : Marked m s))
    | (intro _ (s : State) (h : Marked m s))
    | (intro (h : Marked m _))
    | (intro (s' : State); refine_lift have h : Marked m s' := ?_; ?_; clear_value s')
    | lift_lets
    | with_reducible apply markedO_next
    | with_reducible apply marked_ite
    | with_reducible apply markedO_ite
    | with_reducible apply marked_firdataWrite
    | with_reducible refine marked_foldl ?_ (fun s x h => ?_)
    | (intro x'; clear_value x')
    | intro _
    | dsimp only [s']
    | split

theorem marked_execFirSwap (a0 : ℕ) (h : Marked m s) :
    MarkedO m (execFirSwap a0 s) := by
  unfold execFirSwap
  repeat' first
    | with_reducible assumption
    | (intro (s : State) (h : Marked m s))
    | (intro _ (s : State) (h : Marked m s))
    | (intro (h : Marked m _))
    | (intro (s' : State); refine_lift have h : Marked m s' := ?_; ?_; clear_value s')
    | lift_lets
    | with_reducible apply markedO_next
    | with_reducible apply marked_ite
    | with_reducible apply markedO_ite
    | with_reducible apply marked_onLane
    | with_reducible refine marked_foldl ?_ (fun s x h => ?_)
    | (intro x'; clear_value x')
    | intro _
    | dsimp only [s']
    | split

theorem marked_laneTrialWrite (a0 : ℕ) (a1 : Bool) (h : Marked m s) :
    Marked m (laneTrialWrite a0 a1 s) := by
  unfold laneTrialWrite
  repeat' first
    | with_reducible assumption
    | (intro (s : State) (h : Marked m s))
    | (intro _ (s : State) (h : Marked m s))
    | (intro (h : Marked m _))
    | (intro (s' : State); refine_lift have h : Marked m s' := ?_; ?_; clear_value s')
    | lift_lets
    | with_reducible apply markedO_next
    | with_reducible apply marked_ite
    | with_reducible apply marked_onLane
    | with_reducible refine marked_foldl ?_ (fun s x h => ?_)
    | (intro x'; clear_value x')
    | intro _
    | dsimp only [s']
    | split

theorem marked_execLaneTrialWrite (a0 : ℕ) (a1 : Bool) (h : Marked m s) :
    MarkedO m (execLaneTrialWrite a0 a1 s) := by
  unfold execLaneTrialWrite
  repeat' first
    | with_reducible assumption
    | (intro (s : State) (h : Marked m s))
    | (intro _ (s : State) (h : Marked m s))
    | (intro (h : Marked m _))
    | (intro (s' : State); refine_lift have h : Marked m s' := ?_; ?_; clear_value s')
    | lift_lets
    | with_reducible apply markedO_next
    | with_reducible apply marked_ite
    | with_reducible apply markedO_ite
    | with_reducible apply marked_laneTrialWrite
    | with_reducible refine marked_foldl ?_ (fun s x h => ?_)
    | (intro x'; clear_value x')
    | intro _
    | dsimp only [s']
    | split

theorem marked_laneCalWrite (a0 : ℕ) (a1 : Bool) (a2 : ℕ) (h : Marked m s) :
    Marked m (laneCalWrite a0 a1 a2 s) := by
  unfold laneCalWrite
  repeat' first
    | with_reducible assumption
    | (intro (s : State) (h : Marked m s))
    | (intro _ (s : State) (h : Marked m s))
    | (intro (h : Marked m _))
    | (intro (s' : State); refine_lift have h : Marked m s' := ?_; ?_; clear_value s')
    | lift_lets
    | with_reducible apply markedO_next
    | with_reducible apply marked_ite
    | with_reducible apply marked_onLane
    | with_reducible refine marked_foldl ?_ (fun s x h => ?_)
    | (intro x'; clear_value x')
    | intro _
    | dsimp only [s']
    | split

theorem marked_execLaneCalWrite (a0 : ℕ) (a1 : Bool) (a2 : Word) (h : Marked m s) :
    MarkedO m (execLaneCalWrite a0 a1 a2 s) := by
  unfold execLaneCalWrite
  repeat' first
    | with_reducible assumption
    | (intro (s : State) (h : Marked m s))
    | (intro _ (s : State) (h : Marked m s))
    | (intro (h : Marked m _))
    | (intro (s' : State); refine_lift have h : Marked m s' := ?_; ?_; clear_value s')
    | lift_lets
    | with_reducible apply markedO_next
    | with_reducible apply marked_ite
    | with_reducible apply markedO_ite
    | with_reducible apply marked_laneCalWrite
    | with_reducible refine marked_foldl ?_ (fun s x h => ?_)
    | (intro x'; clear_value x')
    | intro _
    | dsimp only [s']
    | split

theorem marked_execLaneSuspect (a0 : ℕ) (h : Marked m s) :
    MarkedO m (execLaneSuspect a0 s) := by
  unfold execLaneSuspect
  repeat' first
    | with_reducible assumption
    | (intro (s : State) (h : Marked m s))
    | (intro _ (s : State) (h : Marked m s))
    | (intro (h : Marked m _))
    | (intro (s' : State); refine_lift have h : Marked m s' := ?_; ?_; clear_value s')
    | lift_lets
    | with_reducible apply markedO_next
    | with_reducible apply marked_ite
    | with_reducible apply markedO_ite
    | with_reducible apply marked_onLane
    | with_reducible apply marked_onLaneBlk
    | with_reducible apply marked_serveQueue
    | with_reducible apply marked_logEv
    | with_reducible refine marked_foldl ?_ (fun s x h => ?_)
    | (intro x'; clear_value x')
    | intro _
    | dsimp only [s']
    | split

theorem marked_releaseSpare (a0 : ℕ) (h : Marked m s) :
    Marked m (releaseSpare a0 s) := by
  unfold releaseSpare
  repeat' first
    | with_reducible assumption
    | (intro (s : State) (h : Marked m s))
    | (intro _ (s : State) (h : Marked m s))
    | (intro (h : Marked m _))
    | (intro (s' : State); refine_lift have h : Marked m s' := ?_; ?_; clear_value s')
    | lift_lets
    | with_reducible apply markedO_next
    | with_reducible apply marked_ite
    | with_reducible apply marked_onLane
    | with_reducible refine marked_foldl ?_ (fun s x h => ?_)
    | (intro x'; clear_value x')
    | intro _
    | dsimp only [s']
    | split

theorem marked_writeSubst (a0 : ℕ) (a1 : ℕ) (h : Marked m s) :
    Marked m (writeSubst a0 a1 s) := by
  unfold writeSubst
  repeat' first
    | with_reducible assumption
    | (intro (s : State) (h : Marked m s))
    | (intro _ (s : State) (h : Marked m s))
    | (intro (h : Marked m _))
    | (intro (s' : State); refine_lift have h : Marked m s' := ?_; ?_; clear_value s')
    | lift_lets
    | with_reducible apply markedO_next
    | with_reducible apply marked_ite
    | with_reducible apply marked_onMet
    | with_reducible refine marked_foldl ?_ (fun s x h => ?_)
    | (intro x'; clear_value x')
    | intro _
    | dsimp only [s']
    | split

theorem marked_execWarmupDecision (a0 : ℕ) (a1 : Bool) (a2 : Bool) (h : Marked m s) :
    MarkedO m (execWarmupDecision a0 a1 a2 s) := by
  unfold execWarmupDecision
  repeat' first
    | with_reducible assumption
    | (intro (s : State) (h : Marked m s))
    | (intro _ (s : State) (h : Marked m s))
    | (intro (h : Marked m _))
    | (intro (s' : State); refine_lift have h : Marked m s' := ?_; ?_; clear_value s')
    | lift_lets
    | with_reducible apply markedO_next
    | with_reducible apply marked_ite
    | with_reducible apply markedO_ite
    | with_reducible apply marked_onLaneBlk
    | with_reducible apply marked_onLane
    | with_reducible apply marked_logEv
    | with_reducible apply marked_serveQueue
    | with_reducible apply marked_releaseSpare
    | with_reducible apply marked_writeSubst
    | with_reducible refine marked_foldl ?_ (fun s x h => ?_)
    | (intro x'; clear_value x')
    | intro _
    | dsimp only [s']
    | split

theorem marked_execLaneSwap (a0 : ℕ) (h : Marked m s) :
    MarkedO m (execLaneSwap a0 s) := by
  unfold execLaneSwap
  repeat' first
    | with_reducible assumption
    | (intro (s : State) (h : Marked m s))
    | (intro _ (s : State) (h : Marked m s))
    | (intro (h : Marked m _))
    | (intro (s' : State); refine_lift have h : Marked m s' := ?_; ?_; clear_value s')
    | lift_lets
    | with_reducible apply markedO_next
    | with_reducible apply marked_ite
    | with_reducible apply markedO_ite
    | with_reducible apply marked_onLaneBlk
    | with_reducible apply marked_onStr
    | with_reducible apply marked_onLane
    | with_reducible apply marked_logEv
    | with_reducible refine marked_foldl ?_ (fun s x h => ?_)
    | (intro x'; clear_value x')
    | intro _
    | dsimp only [s']
    | split

theorem marked_execSpareFailed (a0 : ℕ) (a1 : ℕ) (h : Marked m s) :
    MarkedO m (execSpareFailed a0 a1 s) := by
  unfold execSpareFailed
  repeat' first
    | with_reducible assumption
    | (intro (s : State) (h : Marked m s))
    | (intro _ (s : State) (h : Marked m s))
    | (intro (h : Marked m _))
    | (intro (s' : State); refine_lift have h : Marked m s' := ?_; ?_; clear_value s')
    | lift_lets
    | with_reducible apply markedO_next
    | with_reducible apply marked_ite
    | with_reducible apply markedO_ite
    | with_reducible apply marked_logEv
    | with_reducible apply marked_onLane
    | with_reducible refine marked_foldl ?_ (fun s x h => ?_)
    | (intro x'; clear_value x')
    | intro _
    | dsimp only [s']
    | split

theorem marked_execLaneFailed (a0 : ℕ) (a1 : ℕ) (h : Marked m s) :
    MarkedO m (execLaneFailed a0 a1 s) := by
  unfold execLaneFailed
  repeat' first
    | with_reducible assumption
    | (intro (s : State) (h : Marked m s))
    | (intro _ (s : State) (h : Marked m s))
    | (intro (h : Marked m _))
    | (intro (s' : State); refine_lift have h : Marked m s' := ?_; ?_; clear_value s')
    | lift_lets
    | with_reducible apply markedO_next
    | with_reducible apply marked_ite
    | with_reducible apply markedO_ite
    | with_reducible apply marked_logEv
    | with_reducible apply marked_onLane
    | with_reducible refine marked_foldl ?_ (fun s x h => ?_)
    | (intro x'; clear_value x')
    | intro _
    | dsimp only [s']
    | split

theorem marked_execStrikeExpiry (a0 : ℕ) (h : Marked m s) :
    MarkedO m (execStrikeExpiry a0 s) := by
  unfold execStrikeExpiry
  repeat' first
    | with_reducible assumption
    | (intro (s : State) (h : Marked m s))
    | (intro _ (s : State) (h : Marked m s))
    | (intro (h : Marked m _))
    | (intro (s' : State); refine_lift have h : Marked m s' := ?_; ?_; clear_value s')
    | lift_lets
    | with_reducible apply markedO_next
    | with_reducible apply marked_ite
    | with_reducible apply markedO_ite
    | with_reducible apply marked_onLane
    | with_reducible refine marked_foldl ?_ (fun s x h => ?_)
    | (intro x'; clear_value x')
    | intro _
    | dsimp only [s']
    | split

theorem marked_takeBack (a0 : ℕ) (h : Marked m s) :
    Marked m (takeBack a0 s) := by
  unfold takeBack
  repeat' first
    | with_reducible assumption
    | (intro (s : State) (h : Marked m s))
    | (intro _ (s : State) (h : Marked m s))
    | (intro (h : Marked m _))
    | (intro (s' : State); refine_lift have h : Marked m s' := ?_; ?_; clear_value s')
    | lift_lets
    | with_reducible apply markedO_next
    | with_reducible apply marked_ite
    | with_reducible apply marked_onStr
    | with_reducible apply marked_onMet
    | with_reducible apply marked_onLaneBlk
    | with_reducible apply marked_onLane
    | with_reducible refine marked_foldl ?_ (fun s x h => ?_)
    | (intro x'; clear_value x')
    | intro _
    | dsimp only [s']
    | split

theorem marked_dropWarm (a0 : ℕ) (h : Marked m s) :
    Marked m (dropWarm a0 s) := by
  unfold dropWarm
  repeat' first
    | with_reducible assumption
    | (intro (s : State) (h : Marked m s))
    | (intro _ (s : State) (h : Marked m s))
    | (intro (h : Marked m _))
    | (intro (s' : State); refine_lift have h : Marked m s' := ?_; ?_; clear_value s')
    | lift_lets
    | with_reducible apply markedO_next
    | with_reducible apply marked_ite
    | with_reducible apply marked_releaseSpare
    | with_reducible refine marked_foldl ?_ (fun s x h => ?_)
    | (intro x'; clear_value x')
    | intro _
    | dsimp only [s']
    | split

theorem marked_restoreLane (a0 : ℕ) (h : Marked m s) :
    Marked m (restoreLane a0 s) := by
  unfold restoreLane
  repeat' first
    | with_reducible assumption
    | (intro (s : State) (h : Marked m s))
    | (intro _ (s : State) (h : Marked m s))
    | (intro (h : Marked m _))
    | (intro (s' : State); refine_lift have h : Marked m s' := ?_; ?_; clear_value s')
    | lift_lets
    | with_reducible apply markedO_next
    | with_reducible apply marked_ite
    | with_reducible apply marked_takeBack
    | with_reducible apply marked_dropWarm
    | with_reducible apply marked_logEv
    | with_reducible apply marked_releaseSpare
    | with_reducible apply marked_onLaneBlk
    | with_reducible refine marked_foldl ?_ (fun s x h => ?_)
    | (intro x'; clear_value x')
    | intro _
    | dsimp only [s']
    | split

theorem marked_execLaneRestore (a0 : Req) (a1 : ℕ) (h : Marked m s) :
    MarkedO m (execLaneRestore a0 a1 s) := by
  unfold execLaneRestore
  repeat' first
    | with_reducible assumption
    | (intro (s : State) (h : Marked m s))
    | (intro _ (s : State) (h : Marked m s))
    | (intro (h : Marked m _))
    | (intro (s' : State); refine_lift have h : Marked m s' := ?_; ?_; clear_value s')
    | lift_lets
    | with_reducible apply markedO_next
    | with_reducible apply marked_ite
    | with_reducible apply markedO_ite
    | with_reducible apply marked_badgerCmd
    | with_reducible apply marked_guarded
    | with_reducible apply marked_postSts
    | with_reducible apply marked_serveQueue
    | with_reducible apply marked_restoreLane
    | with_reducible refine marked_foldl ?_ (fun s x h => ?_)
    | (intro x'; clear_value x')
    | intro _
    | dsimp only [s']
    | split

end Sys2Proof.Machine
end

