-- ==== Sys2Proof/Laws/MarkedChain.lean ====
section
/-! SUPPORT. The operations of Chain.lean take no mark back. -/

set_option linter.unusedVariables false
set_option linter.unreachableTactic false
set_option linter.unusedTactic false

namespace Sys2Proof.Machine

variable {m : Marks} {s : State}

theorem marked_overloadChange (a0 : ℕ) (a1 : Bool) (h : Marked m s) :
    Marked m (overloadChange a0 a1 s) := by
  unfold overloadChange
  repeat' first
    | with_reducible assumption
    | (intro (s : State) (h : Marked m s))
    | (intro _ (s : State) (h : Marked m s))
    | (intro (h : Marked m _))
    | (intro (s' : State); refine_lift have h : Marked m s' := ?_; ?_; clear_value s')
    | lift_lets
    | with_reducible apply markedO_next
    | with_reducible apply marked_ite
    | with_reducible apply marked_onLane
    | with_reducible apply marked_logEv
    | with_reducible refine marked_foldl ?_ (fun s x h => ?_)
    | (intro x'; clear_value x')
    | intro _
    | dsimp only [s']
    | split

theorem marked_formWord (a0 : ℕ) (a1 : ℕ) (a2 : ℕ) (a3 : ℕ) (h : Marked m s) :
    Marked m (formWord a0 a1 a2 a3 s) := by
  unfold formWord
  repeat' first
    | with_reducible assumption
    | (intro (s : State) (h : Marked m s))
    | (intro _ (s : State) (h : Marked m s))
    | (intro (h : Marked m _))
    | (intro (s' : State); refine_lift have h : Marked m s' := ?_; ?_; clear_value s')
    | lift_lets
    | with_reducible apply markedO_next
    | with_reducible apply marked_ite
    | with_reducible apply marked_onLaneBlk
    | with_reducible apply marked_checkFail
    | with_reducible refine marked_foldl ?_ (fun s x h => ?_)
    | (intro x'; clear_value x')
    | intro _
    | dsimp only [s']
    | split

theorem marked_formDue (a0 : ℕ) (h : Marked m s) :
    Marked m (formDue a0 s) := by
  unfold formDue
  repeat' first
    | with_reducible assumption
    | (intro (s : State) (h : Marked m s))
    | (intro _ (s : State) (h : Marked m s))
    | (intro (h : Marked m _))
    | (intro (s' : State); refine_lift have h : Marked m s' := ?_; ?_; clear_value s')
    | lift_lets
    | with_reducible apply markedO_next
    | with_reducible apply marked_ite
    | with_reducible apply marked_formWord
    | with_reducible apply marked_onLaneBlk
    | with_reducible refine marked_foldl ?_ (fun s x h => ?_)
    | (intro x'; clear_value x')
    | intro _
    | dsimp only [s']
    | split

theorem marked_gridStep (a0 : ℕ) (a1 : ℤ) (h : Marked m s) :
    Marked m (gridStep a0 a1 s) := by
  unfold gridStep
  repeat' first
    | with_reducible assumption
    | (intro (s : State) (h : Marked m s))
    | (intro _ (s : State) (h : Marked m s))
    | (intro (h : Marked m _))
    | (intro (s' : State); refine_lift have h : Marked m s' := ?_; ?_; clear_value s')
    | lift_lets
    | with_reducible apply markedO_next
    | with_reducible apply marked_ite
    | with_reducible apply marked_formDue
    | with_reducible apply marked_onLaneBlk
    | with_reducible apply marked_bump
    | with_reducible refine marked_foldl ?_ (fun s x h => ?_)
    | (intro x'; clear_value x')
    | intro _
    | dsimp only [s']
    | split

theorem marked_compareWarm (a0 : ℕ) (h : Marked m s) :
    Marked m (compareWarm a0 s) := by
  unfold compareWarm
  repeat' first
    | with_reducible assumption
    | (intro (s : State) (h : Marked m s))
    | (intro _ (s : State) (h : Marked m s))
    | (intro (h : Marked m _))
    | (intro (s' : State); refine_lift have h : Marked m s' := ?_; ?_; clear_value s')
    | lift_lets
    | with_reducible apply markedO_next
    | with_reducible apply marked_ite
    | with_reducible apply marked_onLaneBlk
    | with_reducible refine marked_foldl ?_ (fun s x h => ?_)
    | (intro x'; clear_value x')
    | intro _
    | dsimp only [s']
    | split

theorem marked_stage2 (a0 : ℕ) (a1 : LaneInput) (h : Marked m s) :
    Marked m (stage2 a0 a1 s) := by
  unfold stage2
  repeat' first
    | with_reducible assumption
    | (intro (s : State) (h : Marked m s))
    | (intro _ (s : State) (h : Marked m s))
    | (intro (h : Marked m _))
    | (intro (s' : State); refine_lift have h : Marked m s' := ?_; ?_; clear_value s')
    | lift_lets
    | with_reducible apply markedO_next
    | with_reducible apply marked_ite
    | with_reducible apply marked_onLane
    | with_reducible apply marked_overloadChange
    | with_reducible apply marked_bump
    | with_reducible refine marked_foldl ?_ (fun s x h => ?_)
    | (intro x'; clear_value x')
    | intro _
    | dsimp only [s']
    | split

theorem marked_stages34 (a0 : ℕ) (a1 : LaneInput) (h : Marked m s) :
    Marked m (stages34 a0 a1 s) := by
  unfold stages34
  repeat' first
    | with_reducible assumption
    | (intro (s : State) (h : Marked m s))
    | (intro _ (s : State) (h : Marked m s))
    | (intro (h : Marked m _))
    | (intro (s' : State); refine_lift have h : Marked m s' := ?_; ?_; clear_value s')
    | lift_lets
    | with_reducible apply markedO_next
    | with_reducible apply marked_ite
    | with_reducible apply marked_bump
    | with_reducible apply marked_checkFail
    | with_reducible apply marked_onLane
    | with_reducible refine marked_foldl ?_ (fun s x h => ?_)
    | (intro x'; clear_value x')
    | intro _
    | dsimp only [s']
    | split

theorem marked_sampleLane (a0 : ℕ) (a1 : LaneInput) (h : Marked m s) :
    Marked m (sampleLane a0 a1 s) := by
  unfold sampleLane
  repeat' first
    | with_reducible assumption
    | (intro (s : State) (h : Marked m s))
    | (intro _ (s : State) (h : Marked m s))
    | (intro (h : Marked m _))
    | (intro (s' : State); refine_lift have h : Marked m s' := ?_; ?_; clear_value s')
    | lift_lets
    | with_reducible apply markedO_next
    | with_reducible apply marked_ite
    | with_reducible apply marked_endTrial
    | with_reducible apply marked_stages34
    | with_reducible apply marked_stage2
    | with_reducible apply marked_onLane
    | with_reducible apply marked_compareWarm
    | with_reducible apply marked_gridStep
    | with_reducible refine marked_foldl ?_ (fun s x h => ?_)
    | (intro x'; clear_value x')
    | intro _
    | dsimp only [s']
    | split

theorem marked_execLaneSampleWord (a0 : ℕ) (a1 : LaneInput) (h : Marked m s) :
    MarkedO m (execLaneSampleWord a0 a1 s) := by
  unfold execLaneSampleWord
  repeat' first
    | with_reducible assumption
    | (intro (s : State) (h : Marked m s))
    | (intro _ (s : State) (h : Marked m s))
    | (intro (h : Marked m _))
    | (intro (s' : State); refine_lift have h : Marked m s' := ?_; ?_; clear_value s')
    | lift_lets
    | with_reducible apply markedO_next
    | with_reducible apply marked_ite
    | with_reducible apply markedO_ite
    | with_reducible apply marked_sampleLane
    | with_reducible refine marked_foldl ?_ (fun s x h => ?_)
    | (intro x'; clear_value x')
    | intro _
    | dsimp only [s']
    | split

theorem marked_execLaneStuck (a0 : ℕ) (a1 : Bool) (h : Marked m s) :
    MarkedO m (execLaneStuck a0 a1 s) := by
  unfold execLaneStuck
  repeat' first
    | with_reducible assumption
    | (intro (s : State) (h : Marked m s))
    | (intro _ (s : State) (h : Marked m s))
    | (intro (h : Marked m _))
    | (intro (s' : State); refine_lift have h : Marked m s' := ?_; ?_; clear_value s')
    | lift_lets
    | with_reducible apply markedO_next
    | with_reducible apply marked_ite
    | with_reducible apply markedO_ite
    | with_reducible apply marked_overloadChange
    | with_reducible apply marked_raiseTrigger
    | with_reducible apply marked_onLane
    | with_reducible refine marked_foldl ?_ (fun s x h => ?_)
    | (intro x'; clear_value x')
    | intro _
    | dsimp only [s']
    | split

theorem marked_execLaneClkerr (a0 : ℕ) (h : Marked m s) :
    MarkedO m (execLaneClkerr a0 s) := by
  unfold execLaneClkerr
  repeat' first
    | with_reducible assumption
    | (intro (s : State) (h : Marked m s))
    | (intro _ (s : State) (h : Marked m s))
    | (intro (h : Marked m _))
    | (intro (s' : State); refine_lift have h : Marked m s' := ?_; ?_; clear_value s')
    | lift_lets
    | with_reducible apply markedO_next
    | with_reducible apply marked_ite
    | with_reducible apply markedO_ite
    | with_reducible apply marked_raiseTrigger
    | with_reducible apply marked_onLane
    | with_reducible refine marked_foldl ?_ (fun s x h => ?_)
    | (intro x'; clear_value x')
    | intro _
    | dsimp only [s']
    | split

theorem marked_execModulatorClockReturn (a0 : ℕ) (h : Marked m s) :
    MarkedO m (execModulatorClockReturn a0 s) := by
  unfold execModulatorClockReturn
  repeat' first
    | with_reducible assumption
    | (intro (s : State) (h : Marked m s))
    | (intro _ (s : State) (h : Marked m s))
    | (intro (h : Marked m _))
    | (intro (s' : State); refine_lift have h : Marked m s' := ?_; ?_; clear_value s')
    | lift_lets
    | with_reducible apply markedO_next
    | with_reducible apply marked_ite
    | with_reducible apply markedO_ite
    | with_reducible apply marked_onLane
    | with_reducible refine marked_foldl ?_ (fun s x h => ?_)
    | (intro x'; clear_value x')
    | intro _
    | dsimp only [s']
    | split

theorem marked_formTap (a0 : ℕ) (a1 : ℕ) (h : Marked m s) :
    Marked m (formTap a0 a1 s) := by
  unfold formTap
  repeat' first
    | with_reducible assumption
    | (intro (s : State) (h : Marked m s))
    | (intro _ (s : State) (h : Marked m s))
    | (intro (h : Marked m _))
    | (intro (s' : State); refine_lift have h : Marked m s' := ?_; ?_; clear_value s')
    | lift_lets
    | with_reducible apply markedO_next
    | with_reducible apply marked_ite
    | with_reducible apply marked_onLane
    | with_reducible apply marked_bump
    | with_reducible refine marked_foldl ?_ (fun s x h => ?_)
    | (intro x'; clear_value x')
    | intro _
    | dsimp only [s']
    | split

theorem marked_forgetPhases  (h : Marked m s) :
    Marked m (forgetPhases s) := by
  unfold forgetPhases
  repeat' first
    | with_reducible assumption
    | (intro (s : State) (h : Marked m s))
    | (intro _ (s : State) (h : Marked m s))
    | (intro (h : Marked m _))
    | (intro (s' : State); refine_lift have h : Marked m s' := ?_; ?_; clear_value s')
    | lift_lets
    | with_reducible apply markedO_next
    | with_reducible apply marked_ite
    | with_reducible apply marked_onGlk
    | with_reducible refine marked_foldl ?_ (fun s x h => ?_)
    | (intro x'; clear_value x')
    | intro _
    | dsimp only [s']
    | split

theorem marked_zcCheck  (h : Marked m s) :
    Marked m (zcCheck s) := by
  unfold zcCheck
  repeat' first
    | with_reducible assumption
    | (intro (s : State) (h : Marked m s))
    | (intro _ (s : State) (h : Marked m s))
    | (intro (h : Marked m _))
    | (intro (s' : State); refine_lift have h : Marked m s' := ?_; ?_; clear_value s')
    | lift_lets
    | with_reducible apply markedO_next
    | with_reducible apply marked_ite
    | with_reducible apply marked_forgetPhases
    | with_reducible refine marked_foldl ?_ (fun s x h => ?_)
    | (intro x'; clear_value x')
    | intro _
    | dsimp only [s']
    | split

theorem marked_execResamplerCycle (a0 : ℕ) (a1 : ℕ) (h : Marked m s) :
    MarkedO m (execResamplerCycle a0 a1 s) := by
  unfold execResamplerCycle
  repeat' first
    | with_reducible assumption
    | (intro (s : State) (h : Marked m s))
    | (intro _ (s : State) (h : Marked m s))
    | (intro (h : Marked m _))
    | (intro (s' : State); refine_lift have h : Marked m s' := ?_; ?_; clear_value s')
    | lift_lets
    | with_reducible apply markedO_next
    | with_reducible apply marked_ite
    | with_reducible apply markedO_ite
    | with_reducible apply marked_onLaneBlk
    | with_reducible apply marked_zcCheck
    | with_reducible apply marked_logEv
    | with_reducible refine marked_foldl ?_ (fun s x h => ?_)
    | (intro x'; clear_value x')
    | intro _
    | dsimp only [s']
    | split

theorem marked_execDetectorUpdate (a0 : ℕ) (a1 : Bool) (a2 : Bool) (h : Marked m s) :
    MarkedO m (execDetectorUpdate a0 a1 a2 s) := by
  unfold execDetectorUpdate
  repeat' first
    | with_reducible assumption
    | (intro (s : State) (h : Marked m s))
    | (intro _ (s : State) (h : Marked m s))
    | (intro (h : Marked m _))
    | (intro (s' : State); refine_lift have h : Marked m s' := ?_; ?_; clear_value s')
    | lift_lets
    | with_reducible apply markedO_next
    | with_reducible apply marked_ite
    | with_reducible apply markedO_ite
    | with_reducible apply marked_onLane
    | with_reducible apply marked_bump
    | with_reducible refine marked_foldl ?_ (fun s x h => ?_)
    | (intro x'; clear_value x')
    | intro _
    | dsimp only [s']
    | split

end Sys2Proof.Machine
end

