-- ==== Sys2Proof/Laws/MarkedMetstore.lean ====
section
/-! SUPPORT. The operations of Metstore.lean take no mark back. -/

set_option linter.unusedVariables false
set_option linter.unreachableTactic false
set_option linter.unusedTactic false

namespace Sys2Proof.Machine

variable {m : Marks} {s : State}

/-- The next number is no step back. -/
theorem marked_seq (h : Marked m s) : Marked m (onMgt (fun b => { b with seq := s.mgt.seq + 1 }) s) :=
  ⟨Nat.le_succ_of_le h.1, h.2⟩

theorem marked_legalEv (a0 : ℕ) (a1 : ℕ) (a2 : ℕ) (a3 : List (ℕ × ℕ)) (h : Marked m s) :
    Marked m (legalEv a0 a1 a2 a3 s) := by
  unfold legalEv
  repeat' first
    | with_reducible assumption
    | (intro (s : State) (h : Marked m s))
    | (intro _ (s : State) (h : Marked m s))
    | (intro (h : Marked m _))
    | (intro (s' : State); refine_lift have h : Marked m s' := ?_; ?_; clear_value s')
    | lift_lets
    | with_reducible apply markedO_next
    | with_reducible apply marked_ite
    | with_reducible apply marked_onMet
    | with_reducible refine marked_foldl ?_ (fun s x h => ?_)
    | (intro x'; clear_value x')
    | intro _
    | dsimp only [s']
    | split

theorem marked_archiveLegal (a0 : LogRec) (h : Marked m s) :
    Marked m (archiveLegal a0 s) := by
  unfold archiveLegal
  repeat' first
    | with_reducible assumption
    | (intro (s : State) (h : Marked m s))
    | (intro _ (s : State) (h : Marked m s))
    | (intro (h : Marked m _))
    | (intro (x : MgtBlock) hx; first | (show m.seq ≤ _; exact (hx : m.seq ≤ x.seq)) | (split <;> exact hx) | (dsimp only; repeat' split <;> exact hx))
    | (intro (s' : State); refine_lift have h : Marked m s' := ?_; ?_; clear_value s')
    | lift_lets
    | with_reducible apply markedO_next
    | with_reducible apply marked_ite
    | with_reducible apply marked_onMgt
    | with_reducible apply marked_logEv
    | with_reducible refine marked_foldl ?_ (fun s x h => ?_)
    | (intro x'; clear_value x')
    | intro _
    | dsimp only [s']
    | split

theorem marked_checkWatermark  (h : Marked m s) :
    Marked m (checkWatermark s) := by
  unfold checkWatermark
  repeat' first
    | with_reducible assumption
    | (intro (s : State) (h : Marked m s))
    | (intro _ (s : State) (h : Marked m s))
    | (intro (h : Marked m _))
    | (intro (x : MgtBlock) hx; first | (show m.seq ≤ _; exact (hx : m.seq ≤ x.seq)) | (split <;> exact hx) | (dsimp only; repeat' split <;> exact hx))
    | (intro (s' : State); refine_lift have h : Marked m s' := ?_; ?_; clear_value s')
    | lift_lets
    | with_reducible apply markedO_next
    | with_reducible apply marked_ite
    | with_reducible apply marked_onMgt
    | with_reducible apply marked_notice
    | with_reducible refine marked_foldl ?_ (fun s x h => ?_)
    | (intro x'; clear_value x')
    | intro _
    | dsimp only [s']
    | split

theorem marked_execLegalEventConfirm (a0 : ℕ) (h : Marked m s) :
    MarkedO m (execLegalEventConfirm a0 s) := by
  unfold execLegalEventConfirm
  repeat' first
    | with_reducible assumption
    | (intro (s : State) (h : Marked m s))
    | (intro _ (s : State) (h : Marked m s))
    | (intro (h : Marked m _))
    | (intro (x : MgtBlock) hx; first | (show m.seq ≤ _; exact (hx : m.seq ≤ x.seq)) | (split <;> exact hx) | (dsimp only; repeat' split <;> exact hx))
    | (exact marked_seq h)
    | (intro (s' : State); refine_lift have h : Marked m s' := ?_; ?_; clear_value s')
    | lift_lets
    | with_reducible apply markedO_next
    | with_reducible apply marked_ite
    | with_reducible apply markedO_ite
    | with_reducible apply marked_archiveLegal
    | with_reducible apply marked_onMgt
    | with_reducible apply marked_checkWatermark
    | with_reducible apply marked_onMet
    | with_reducible refine marked_foldl ?_ (fun s x h => ?_)
    | (intro x'; clear_value x')
    | intro _
    | dsimp only [s']
    | split

theorem marked_onCounters (a0 : LegalCounters → LegalCounters) (h : Marked m s) :
    Marked m (onCounters a0 s) := by
  unfold onCounters
  repeat' first
    | with_reducible assumption
    | (intro (s : State) (h : Marked m s))
    | (intro _ (s : State) (h : Marked m s))
    | (intro (h : Marked m _))
    | (intro (s' : State); refine_lift have h : Marked m s' := ?_; ?_; clear_value s')
    | lift_lets
    | with_reducible apply markedO_next
    | with_reducible apply marked_ite
    | with_reducible apply marked_onMet
    | with_reducible refine marked_foldl ?_ (fun s x h => ?_)
    | (intro x'; clear_value x')
    | intro _
    | dsimp only [s']
    | split

theorem marked_captureAs (a0 : ℕ) (a1 : ℕ) (a2 : ℕ) (a3 : ℕ) (a4 : ℕ) (a5 : Bytes) (a6 : Option ℕ) (h : Marked m s) :
    Marked m (captureAs a0 a1 a2 a3 a4 a5 a6 s) := by
  unfold captureAs
  repeat' first
    | with_reducible assumption
    | (intro (s : State) (h : Marked m s))
    | (intro _ (s : State) (h : Marked m s))
    | (intro (h : Marked m _))
    | (intro (s' : State); refine_lift have h : Marked m s' := ?_; ?_; clear_value s')
    | lift_lets
    | with_reducible apply markedO_next
    | with_reducible apply marked_ite
    | with_reducible apply marked_onMet
    | with_reducible refine marked_foldl ?_ (fun s x h => ?_)
    | (intro x'; clear_value x')
    | intro _
    | dsimp only [s']
    | split

theorem marked_takeGens (a0 : ℕ) (h : Marked m s) :
    Marked m (takeGens a0 s) := by
  unfold takeGens
  repeat' first
    | with_reducible assumption
    | (intro (s : State) (h : Marked m s))
    | (intro _ (s : State) (h : Marked m s))
    | (intro (h : Marked m _))
    | (intro (s' : State); refine_lift have h : Marked m s' := ?_; ?_; clear_value s')
    | lift_lets
    | with_reducible apply markedO_next
    | with_reducible apply marked_ite
    | with_reducible apply marked_onCounters
    | with_reducible refine marked_foldl ?_ (fun s x h => ?_)
    | (intro x'; clear_value x')
    | intro _
    | dsimp only [s']
    | split

theorem marked_capture (a0 : ℕ) (a1 : ℕ) (a2 : ℕ) (a3 : ℕ) (a4 : Bytes) (a5 : Option ℕ) (h : Marked m s) :
    Marked m (capture a0 a1 a2 a3 a4 a5 s) := by
  unfold capture
  repeat' first
    | with_reducible assumption
    | (intro (s : State) (h : Marked m s))
    | (intro _ (s : State) (h : Marked m s))
    | (intro (h : Marked m _))
    | (intro (s' : State); refine_lift have h : Marked m s' := ?_; ?_; clear_value s')
    | lift_lets
    | with_reducible apply markedO_next
    | with_reducible apply marked_ite
    | with_reducible apply marked_captureAs
    | with_reducible apply marked_takeGens
    | with_reducible refine marked_foldl ?_ (fun s x h => ?_)
    | (intro x'; clear_value x')
    | intro _
    | dsimp only [s']
    | split

theorem marked_execSnapshotSigned  (h : Marked m s) :
    MarkedO m (execSnapshotSigned s) := by
  unfold execSnapshotSigned
  repeat' first
    | with_reducible assumption
    | (intro (s : State) (h : Marked m s))
    | (intro _ (s : State) (h : Marked m s))
    | (intro (h : Marked m _))
    | (intro (x : MgtBlock) hx; first | (show m.seq ≤ _; exact (hx : m.seq ≤ x.seq)) | (split <;> exact hx) | (dsimp only; repeat' split <;> exact hx))
    | (intro (s' : State); refine_lift have h : Marked m s' := ?_; ?_; clear_value s')
    | lift_lets
    | with_reducible apply markedO_next
    | with_reducible apply marked_ite
    | with_reducible apply markedO_ite
    | with_reducible apply marked_bump
    | with_reducible apply marked_onMet
    | with_reducible apply marked_onMgt
    | with_reducible apply marked_onBil
    | with_reducible refine marked_foldl ?_ (fun s x h => ?_)
    | (intro x'; clear_value x')
    | intro _
    | dsimp only [s']
    | split

theorem marked_snapctlWrite (a0 : ℕ) (h : Marked m s) :
    Marked m (snapctlWrite a0 s) := by
  unfold snapctlWrite
  repeat' first
    | with_reducible assumption
    | (intro (s : State) (h : Marked m s))
    | (intro _ (s : State) (h : Marked m s))
    | (intro (h : Marked m _))
    | (intro (s' : State); refine_lift have h : Marked m s' := ?_; ?_; clear_value s')
    | lift_lets
    | with_reducible apply markedO_next
    | with_reducible apply marked_ite
    | with_reducible apply marked_onMet
    | with_reducible refine marked_foldl ?_ (fun s x h => ?_)
    | (intro x'; clear_value x')
    | intro _
    | dsimp only [s']
    | split

theorem marked_execSnapctlTake (a0 : Word) (h : Marked m s) :
    MarkedO m (execSnapctlTake a0 s) := by
  unfold execSnapctlTake
  repeat' first
    | with_reducible assumption
    | (intro (s : State) (h : Marked m s))
    | (intro _ (s : State) (h : Marked m s))
    | (intro (h : Marked m _))
    | (intro (s' : State); refine_lift have h : Marked m s' := ?_; ?_; clear_value s')
    | lift_lets
    | with_reducible apply markedO_next
    | with_reducible apply marked_ite
    | with_reducible apply markedO_ite
    | with_reducible apply marked_snapctlWrite
    | with_reducible refine marked_foldl ?_ (fun s x h => ?_)
    | (intro x'; clear_value x')
    | intro _
    | dsimp only [s']
    | split

theorem marked_dropRequest  (h : Marked m s) :
    Marked m (dropRequest s) := by
  unfold dropRequest
  repeat' first
    | with_reducible assumption
    | (intro (s : State) (h : Marked m s))
    | (intro _ (s : State) (h : Marked m s))
    | (intro (h : Marked m _))
    | (intro (s' : State); refine_lift have h : Marked m s' := ?_; ?_; clear_value s')
    | lift_lets
    | with_reducible apply markedO_next
    | with_reducible apply marked_ite
    | with_reducible apply marked_onMet
    | with_reducible refine marked_foldl ?_ (fun s x h => ?_)
    | (intro x'; clear_value x')
    | intro _
    | dsimp only [s']
    | split

theorem marked_beginSave (a0 : ℕ) (h : Marked m s) :
    Marked m (beginSave a0 s) := by
  unfold beginSave
  repeat' first
    | with_reducible assumption
    | (intro (s : State) (h : Marked m s))
    | (intro _ (s : State) (h : Marked m s))
    | (intro (h : Marked m _))
    | (intro (s' : State); refine_lift have h : Marked m s' := ?_; ?_; clear_value s')
    | lift_lets
    | with_reducible apply markedO_next
    | with_reducible apply marked_ite
    | with_reducible apply marked_onMet
    | with_reducible refine marked_foldl ?_ (fun s x h => ?_)
    | (intro x'; clear_value x')
    | intro _
    | dsimp only [s']
    | split

theorem marked_saveAtOnce (a0 : ℕ) (h : Marked m s) :
    Marked m (saveAtOnce a0 s) := by
  unfold saveAtOnce
  repeat' first
    | with_reducible assumption
    | (intro (s : State) (h : Marked m s))
    | (intro _ (s : State) (h : Marked m s))
    | (intro (h : Marked m _))
    | (intro (s' : State); refine_lift have h : Marked m s' := ?_; ?_; clear_value s')
    | lift_lets
    | with_reducible apply markedO_next
    | with_reducible apply marked_ite
    | with_reducible apply marked_onMet
    | with_reducible refine marked_foldl ?_ (fun s x h => ?_)
    | (intro x'; clear_value x')
    | intro _
    | dsimp only [s']
    | split

theorem marked_execSaveComplete  (h : Marked m s) :
    MarkedO m (execSaveComplete s) := by
  unfold execSaveComplete
  repeat' first
    | with_reducible assumption
    | (intro (s : State) (h : Marked m s))
    | (intro _ (s : State) (h : Marked m s))
    | (intro (h : Marked m _))
    | (intro (s' : State); refine_lift have h : Marked m s' := ?_; ?_; clear_value s')
    | lift_lets
    | with_reducible apply markedO_next
    | with_reducible apply marked_ite
    | with_reducible apply markedO_ite
    | with_reducible apply marked_onMet
    | with_reducible refine marked_foldl ?_ (fun s x h => ?_)
    | (intro x'; clear_value x')
    | intro _
    | dsimp only [s']
    | split

theorem marked_restoreAcc (a0 : SaveRec) (a1 : ℕ) (h : Marked m s) :
    Marked m (restoreAcc a0 a1 s) := by
  unfold restoreAcc
  repeat' first
    | with_reducible assumption
    | (intro (s : State) (h : Marked m s))
    | (intro _ (s : State) (h : Marked m s))
    | (intro (h : Marked m _))
    | (intro (s' : State); refine_lift have h : Marked m s' := ?_; ?_; clear_value s')
    | lift_lets
    | with_reducible apply markedO_next
    | with_reducible apply marked_ite
    | with_reducible apply marked_onMetOut
    | with_reducible apply marked_onBilOut
    | with_reducible refine marked_foldl ?_ (fun s x h => ?_)
    | (intro x'; clear_value x')
    | intro _
    | dsimp only [s']
    | split

theorem marked_accRestore (a0 : ℕ) (h : Marked m s) :
    Marked m (accRestore a0 s) := by
  unfold accRestore
  repeat' first
    | with_reducible assumption
    | (intro (s : State) (h : Marked m s))
    | (intro _ (s : State) (h : Marked m s))
    | (intro (h : Marked m _))
    | (intro (s' : State); refine_lift have h : Marked m s' := ?_; ?_; clear_value s')
    | lift_lets
    | with_reducible apply markedO_next
    | with_reducible apply marked_ite
    | with_reducible apply marked_onCounters
    | with_reducible apply marked_restoreAcc
    | with_reducible apply marked_legalEv
    | with_reducible apply marked_onMetOut
    | with_reducible apply marked_onBilOut
    | with_reducible refine marked_foldl ?_ (fun s x h => ?_)
    | (intro x'; clear_value x')
    | intro _
    | dsimp only [s']
    | split

theorem marked_accCheck (a0 : ℕ) (a1 : List AccFault) (h : Marked m s) :
    Marked m (accCheck a0 a1 s) := by
  unfold accCheck
  repeat' first
    | with_reducible assumption
    | (intro (s : State) (h : Marked m s))
    | (intro _ (s : State) (h : Marked m s))
    | (intro (h : Marked m _))
    | (intro (s' : State); refine_lift have h : Marked m s' := ?_; ?_; clear_value s')
    | lift_lets
    | with_reducible apply markedO_next
    | with_reducible apply marked_ite
    | with_reducible apply marked_onMetOut
    | with_reducible apply marked_accRestore
    | with_reducible refine marked_foldl ?_ (fun s x h => ?_)
    | (intro x'; clear_value x')
    | intro _
    | dsimp only [s']
    | split

theorem marked_restoreLedger (a0 : Ledger) (h : Marked m s) :
    Marked m (restoreLedger a0 s) := by
  unfold restoreLedger
  repeat' first
    | with_reducible assumption
    | (intro (s : State) (h : Marked m s))
    | (intro _ (s : State) (h : Marked m s))
    | (intro (h : Marked m _))
    | (intro (s' : State); refine_lift have h : Marked m s' := ?_; ?_; clear_value s')
    | lift_lets
    | with_reducible apply markedO_next
    | with_reducible apply marked_ite
    | with_reducible apply marked_onBil
    | with_reducible refine marked_foldl ?_ (fun s x h => ?_)
    | (intro x'; clear_value x')
    | intro _
    | dsimp only [s']
    | split

theorem marked_restoreDemand (a0 : SaveRec) (a1 : ℕ) (h : Marked m s) :
    Marked m (restoreDemand a0 a1 s) := by
  unfold restoreDemand
  repeat' first
    | with_reducible assumption
    | (intro (s : State) (h : Marked m s))
    | (intro _ (s : State) (h : Marked m s))
    | (intro (h : Marked m _))
    | (intro (s' : State); refine_lift have h : Marked m s' := ?_; ?_; clear_value s')
    | lift_lets
    | with_reducible apply markedO_next
    | with_reducible apply marked_ite
    | with_reducible apply marked_onBilOut
    | with_reducible refine marked_foldl ?_ (fun s x h => ?_)
    | (intro x'; clear_value x')
    | intro _
    | dsimp only [s']
    | split

theorem marked_loRead (a0 : Side) (a1 : MetLo) (a2 : ℕ) (h : Marked m s) :
    Marked m (loRead a0 a1 a2 s) := by
  unfold loRead
  repeat' first
    | with_reducible assumption
    | (intro (s : State) (h : Marked m s))
    | (intro _ (s : State) (h : Marked m s))
    | (intro (h : Marked m _))
    | (intro (s' : State); refine_lift have h : Marked m s' := ?_; ?_; clear_value s')
    | lift_lets
    | with_reducible apply markedO_next
    | with_reducible apply marked_ite
    | with_reducible apply marked_returns
    | with_reducible apply marked_onMet
    | with_reducible refine marked_foldl ?_ (fun s x h => ?_)
    | (intro x'; clear_value x')
    | intro _
    | dsimp only [s']
    | split

theorem marked_execEnergyLoRead (a0 : Side) (a1 : ℕ) (a2 : ℕ) (h : Marked m s) :
    MarkedO m (execEnergyLoRead a0 a1 a2 s) := by
  unfold execEnergyLoRead
  repeat' first
    | with_reducible assumption
    | (intro (s : State) (h : Marked m s))
    | (intro _ (s : State) (h : Marked m s))
    | (intro (h : Marked m _))
    | (intro (s' : State); refine_lift have h : Marked m s' := ?_; ?_; clear_value s')
    | lift_lets
    | with_reducible apply markedO_next
    | with_reducible apply marked_ite
    | with_reducible apply markedO_ite
    | with_reducible apply marked_loRead
    | with_reducible refine marked_foldl ?_ (fun s x h => ?_)
    | (intro x'; clear_value x')
    | intro _
    | dsimp only [s']
    | split

theorem marked_execHarmLoRead (a0 : Side) (h : Marked m s) :
    MarkedO m (execHarmLoRead a0 s) := by
  unfold execHarmLoRead
  repeat' first
    | with_reducible assumption
    | (intro (s : State) (h : Marked m s))
    | (intro _ (s : State) (h : Marked m s))
    | (intro (h : Marked m _))
    | (intro (s' : State); refine_lift have h : Marked m s' := ?_; ?_; clear_value s')
    | lift_lets
    | with_reducible apply markedO_next
    | with_reducible apply marked_ite
    | with_reducible apply markedO_ite
    | with_reducible apply marked_loRead
    | with_reducible refine marked_foldl ?_ (fun s x h => ?_)
    | (intro x'; clear_value x')
    | intro _
    | dsimp only [s']
    | split

theorem marked_execCalAccLoRead (a0 : Side) (a1 : ℕ) (a2 : Bool) (h : Marked m s) :
    MarkedO m (execCalAccLoRead a0 a1 a2 s) := by
  unfold execCalAccLoRead
  repeat' first
    | with_reducible assumption
    | (intro (s : State) (h : Marked m s))
    | (intro _ (s : State) (h : Marked m s))
    | (intro (h : Marked m _))
    | (intro (s' : State); refine_lift have h : Marked m s' := ?_; ?_; clear_value s')
    | lift_lets
    | with_reducible apply markedO_next
    | with_reducible apply marked_ite
    | with_reducible apply markedO_ite
    | with_reducible apply marked_loRead
    | with_reducible refine marked_foldl ?_ (fun s x h => ?_)
    | (intro x'; clear_value x')
    | intro _
    | dsimp only [s']
    | split

end Sys2Proof.Machine
end

