-- ==== Sys2Proof/Laws/MarkedProtect.lean ====
section
/-! SUPPORT. The operations of Protect.lean take no mark back. -/

set_option linter.unusedVariables false
set_option linter.unreachableTactic false
set_option linter.unusedTactic false

namespace Sys2Proof.Machine

variable {m : Marks} {s : State}

theorem marked_lockLost (a0 : ℕ) (a1 : ℕ) (a2 : ℕ) (h : Marked m s) :
    Marked m (lockLost a0 a1 a2 s) := by
  unfold lockLost
  repeat' first
    | with_reducible assumption
    | (intro (s : State) (h : Marked m s))
    | (intro _ (s : State) (h : Marked m s))
    | (intro (h : Marked m _))
    | (intro (s' : State); refine_lift have h : Marked m s' := ?_; ?_; clear_value s')
    | lift_lets
    | with_reducible apply markedO_next
    | with_reducible apply marked_ite
    | with_reducible apply marked_slacCheck
    | with_reducible apply marked_logEv
    | with_reducible apply marked_onLock
    | with_reducible refine marked_foldl ?_ (fun s x h => ?_)
    | (intro x'; clear_value x')
    | intro _
    | dsimp only [s']
    | split

theorem marked_lockWatch (a0 : ℕ) (h : Marked m s) :
    Marked m (lockWatch a0 s) := by
  unfold lockWatch
  repeat' first
    | with_reducible assumption
    | (intro (s : State) (h : Marked m s))
    | (intro _ (s : State) (h : Marked m s))
    | (intro (h : Marked m _))
    | (intro (s' : State); refine_lift have h : Marked m s' := ?_; ?_; clear_value s')
    | lift_lets
    | with_reducible apply markedO_next
    | with_reducible apply marked_ite
    | with_reducible apply marked_lockLost
    | with_reducible refine marked_foldl ?_ (fun s x h => ?_)
    | (intro x'; clear_value x')
    | intro _
    | dsimp only [s']
    | split

theorem marked_setCh (a0 : ℕ) (a1 : ChState) (h : Marked m s) :
    Marked m (setCh a0 a1 s) := by
  unfold setCh
  repeat' first
    | with_reducible assumption
    | (intro (s : State) (h : Marked m s))
    | (intro _ (s : State) (h : Marked m s))
    | (intro (h : Marked m _))
    | (intro (s' : State); refine_lift have h : Marked m s' := ?_; ?_; clear_value s')
    | lift_lets
    | with_reducible apply markedO_next
    | with_reducible apply marked_ite
    | with_reducible apply marked_lockWatch
    | with_reducible apply marked_onCh
    | with_reducible refine marked_foldl ?_ (fun s x h => ?_)
    | (intro x'; clear_value x')
    | intro _
    | dsimp only [s']
    | split

theorem marked_settleCh (a0 : ℕ) (h : Marked m s) :
    Marked m (settleCh a0 s) := by
  unfold settleCh
  repeat' first
    | with_reducible assumption
    | (intro (s : State) (h : Marked m s))
    | (intro _ (s : State) (h : Marked m s))
    | (intro (h : Marked m _))
    | (intro (s' : State); refine_lift have h : Marked m s' := ?_; ?_; clear_value s')
    | lift_lets
    | with_reducible apply markedO_next
    | with_reducible apply marked_ite
    | with_reducible apply marked_setCh
    | with_reducible refine marked_foldl ?_ (fun s x h => ?_)
    | (intro x'; clear_value x')
    | intro _
    | dsimp only [s']
    | split

theorem marked_settleAll  (h : Marked m s) :
    Marked m (settleAll s) := by
  unfold settleAll
  repeat' first
    | with_reducible assumption
    | (intro (s : State) (h : Marked m s))
    | (intro _ (s : State) (h : Marked m s))
    | (intro (h : Marked m _))
    | (intro (s' : State); refine_lift have h : Marked m s' := ?_; ?_; clear_value s')
    | lift_lets
    | with_reducible apply markedO_next
    | with_reducible apply marked_ite
    | with_reducible apply marked_settleCh
    | with_reducible refine marked_foldl ?_ (fun s x h => ?_)
    | (intro x'; clear_value x')
    | intro _
    | dsimp only [s']
    | split

theorem marked_settleContactors (a0 : ℕ) (h : Marked m s) :
    Marked m (settleContactors a0 s) := by
  unfold settleContactors
  repeat' first
    | with_reducible assumption
    | (intro (s : State) (h : Marked m s))
    | (intro _ (s : State) (h : Marked m s))
    | (intro (h : Marked m _))
    | (intro (s' : State); refine_lift have h : Marked m s' := ?_; ?_; clear_value s')
    | lift_lets
    | with_reducible apply markedO_next
    | with_reducible apply marked_ite
    | with_reducible apply marked_settleCh
    | with_reducible refine marked_foldl ?_ (fun s x h => ?_)
    | (intro x'; clear_value x')
    | intro _
    | dsimp only [s']
    | split

theorem marked_contactorDemand (a0 : ℕ) (a1 : Bool) (h : Marked m s) :
    Marked m (contactorDemand a0 a1 s) := by
  unfold contactorDemand
  repeat' first
    | with_reducible assumption
    | (intro (s : State) (h : Marked m s))
    | (intro _ (s : State) (h : Marked m s))
    | (intro (h : Marked m _))
    | (intro (s' : State); refine_lift have h : Marked m s' := ?_; ?_; clear_value s')
    | lift_lets
    | with_reducible apply markedO_next
    | with_reducible apply marked_ite
    | with_reducible apply marked_settleContactors
    | with_reducible apply marked_onCh
    | with_reducible refine marked_foldl ?_ (fun s x h => ?_)
    | (intro x'; clear_value x')
    | intro _
    | dsimp only [s']
    | split

theorem marked_dropRelease (a0 : ℕ) (h : Marked m s) :
    Marked m (dropRelease a0 s) := by
  unfold dropRelease
  repeat' first
    | with_reducible assumption
    | (intro (s : State) (h : Marked m s))
    | (intro _ (s : State) (h : Marked m s))
    | (intro (h : Marked m _))
    | (intro (x : OwlBlock) hx; first | exact ⟨hx.1⟩ | (split <;> exact ⟨hx.1⟩) | exact ⟨fun o ho => hx.1 o (flag_put_false ho)⟩ | exact ⟨fun o ho => (flag_none ho).elim⟩)
    | (intro (s' : State); refine_lift have h : Marked m s' := ?_; ?_; clear_value s')
    | lift_lets
    | with_reducible apply markedO_next
    | with_reducible apply marked_ite
    | with_reducible apply marked_onOwl
    | with_reducible apply marked_contactorDemand
    | with_reducible apply marked_onLink
    | with_reducible refine marked_foldl ?_ (fun s x h => ?_)
    | (intro x'; clear_value x')
    | intro _
    | dsimp only [s']
    | split

theorem marked_assertLine  (h : Marked m s) :
    Marked m (assertLine s) := by
  unfold assertLine
  repeat' first
    | with_reducible assumption
    | (intro (s : State) (h : Marked m s))
    | (intro _ (s : State) (h : Marked m s))
    | (intro (h : Marked m _))
    | (intro (x : OwlBlock) hx; first | exact ⟨hx.1⟩ | (split <;> exact ⟨hx.1⟩) | exact ⟨fun o ho => hx.1 o (flag_put_false ho)⟩ | exact ⟨fun o ho => (flag_none ho).elim⟩)
    | (intro (s' : State); refine_lift have h : Marked m s' := ?_; ?_; clear_value s')
    | lift_lets
    | with_reducible apply markedO_next
    | with_reducible apply marked_ite
    | with_reducible apply marked_settleAll
    | with_reducible apply marked_onOwl
    | with_reducible refine marked_foldl ?_ (fun s x h => ?_)
    | (intro x'; clear_value x')
    | intro _
    | dsimp only [s']
    | split

theorem marked_latchTrip (a0 : ℕ) (a1 : ℕ) (h : Marked m s) :
    Marked m (latchTrip a0 a1 s) := by
  unfold latchTrip
  repeat' first
    | with_reducible assumption
    | (intro (s : State) (h : Marked m s))
    | (intro _ (s : State) (h : Marked m s))
    | (intro (h : Marked m _))
    | (intro (x : OwlBlock) hx; first | exact ⟨hx.1⟩ | (split <;> exact ⟨hx.1⟩) | exact ⟨fun o ho => hx.1 o (flag_put_false ho)⟩ | exact ⟨fun o ho => (flag_none ho).elim⟩)
    | (intro (s' : State); refine_lift have h : Marked m s' := ?_; ?_; clear_value s')
    | lift_lets
    | with_reducible apply markedO_next
    | with_reducible apply marked_ite
    | with_reducible apply marked_onOwl
    | with_reducible apply marked_settleAll
    | with_reducible refine marked_foldl ?_ (fun s x h => ?_)
    | (intro x'; clear_value x')
    | intro _
    | dsimp only [s']
    | split

theorem marked_recordSrc (a0 : ℕ) (a1 : ℕ) (a2 : ℕ) (h : Marked m s) :
    Marked m (recordSrc a0 a1 a2 s) := by
  unfold recordSrc
  repeat' first
    | with_reducible assumption
    | (intro (s : State) (h : Marked m s))
    | (intro _ (s : State) (h : Marked m s))
    | (intro (h : Marked m _))
    | (intro (s' : State); refine_lift have h : Marked m s' := ?_; ?_; clear_value s')
    | lift_lets
    | with_reducible apply markedO_next
    | with_reducible apply marked_ite
    | with_reducible apply marked_onFlt
    | with_reducible refine marked_foldl ?_ (fun s x h => ?_)
    | (intro x'; clear_value x')
    | intro _
    | dsimp only [s']
    | split

theorem marked_clearCauses (a0 : ℕ) (a1 : ℕ) (h : Marked m s) :
    Marked m (clearCauses a0 a1 s) := by
  unfold clearCauses
  repeat' first
    | with_reducible assumption
    | (intro (s : State) (h : Marked m s))
    | (intro _ (s : State) (h : Marked m s))
    | (intro (h : Marked m _))
    | (intro (x : OwlBlock) hx; first | exact ⟨hx.1⟩ | (split <;> exact ⟨hx.1⟩) | exact ⟨fun o ho => hx.1 o (flag_put_false ho)⟩ | exact ⟨fun o ho => (flag_none ho).elim⟩)
    | (intro (s' : State); refine_lift have h : Marked m s' := ?_; ?_; clear_value s')
    | lift_lets
    | with_reducible apply markedO_next
    | with_reducible apply marked_ite
    | with_reducible apply marked_onOwl
    | with_reducible apply marked_onFlt
    | with_reducible apply marked_settleAll
    | with_reducible refine marked_foldl ?_ (fun s x h => ?_)
    | (intro x'; clear_value x')
    | intro _
    | dsimp only [s']
    | split

end Sys2Proof.Machine
end

