-- ==== Sys2Proof/Laws/MarkedBilling.lean ====
section
/-! SUPPORT. The operations of Billing.lean take no mark back. -/

set_option linter.unusedVariables false
set_option linter.unreachableTactic false
set_option linter.unusedTactic false

namespace Sys2Proof.Machine

variable {m : Marks} {s : State}

theorem marked_onCtl (a0 : BillCtl → BillCtl) (h : Marked m s) :
    Marked m (onCtl a0 s) := by
  unfold onCtl
  repeat' first
    | with_reducible assumption
    | (intro (s : State) (h : Marked m s))
    | (intro _ (s : State) (h : Marked m s))
    | (intro (h : Marked m _))
    | (intro (s' : State); refine_lift have h : Marked m s' := ?_; ?_; clear_value s')
    | lift_lets
    | with_reducible apply markedO_next
    | with_reducible apply marked_ite
    | with_reducible apply marked_onBil
    | with_reducible refine marked_foldl ?_ (fun s x h => ?_)
    | (intro x'; clear_value x')
    | intro _
    | dsimp only [s']
    | split

theorem marked_setCredit (a0 : ℤ) (h : Marked m s) :
    Marked m (setCredit a0 s) := by
  unfold setCredit
  repeat' first
    | with_reducible assumption
    | (intro (s : State) (h : Marked m s))
    | (intro _ (s : State) (h : Marked m s))
    | (intro (h : Marked m _))
    | (intro (s' : State); refine_lift have h : Marked m s' := ?_; ?_; clear_value s')
    | lift_lets
    | with_reducible apply markedO_next
    | with_reducible apply marked_ite
    | with_reducible apply marked_onBil
    | with_reducible apply marked_legalEv
    | with_reducible refine marked_foldl ?_ (fun s x h => ?_)
    | (intro x'; clear_value x')
    | intro _
    | dsimp only [s']
    | split

theorem marked_accrueTariff (a0 : ℕ) (a1 : ℕ) (a2 : ℕ) (h : Marked m s) :
    Marked m (accrueTariff a0 a1 a2 s) := by
  unfold accrueTariff
  repeat' first
    | with_reducible assumption
    | (intro (s : State) (h : Marked m s))
    | (intro _ (s : State) (h : Marked m s))
    | (intro (h : Marked m _))
    | (intro (s' : State); refine_lift have h : Marked m s' := ?_; ?_; clear_value s')
    | lift_lets
    | with_reducible apply markedO_next
    | with_reducible apply marked_ite
    | with_reducible apply marked_onBilOut
    | with_reducible apply marked_setCredit
    | with_reducible refine marked_foldl ?_ (fun s x h => ?_)
    | (intro x'; clear_value x')
    | intro _
    | dsimp only [s']
    | split

theorem marked_restartDemand (a0 : ℕ) (a1 : ℕ) (a2 : Bool) (a3 : Bool) (h : Marked m s) :
    Marked m (restartDemand a0 a1 a2 a3 s) := by
  unfold restartDemand
  repeat' first
    | with_reducible assumption
    | (intro (s : State) (h : Marked m s))
    | (intro _ (s : State) (h : Marked m s))
    | (intro (h : Marked m _))
    | (intro (s' : State); refine_lift have h : Marked m s' := ?_; ?_; clear_value s')
    | lift_lets
    | with_reducible apply markedO_next
    | with_reducible apply marked_ite
    | with_reducible apply marked_onBilOut
    | with_reducible refine marked_foldl ?_ (fun s x h => ?_)
    | (intro x'; clear_value x')
    | intro _
    | dsimp only [s']
    | split

theorem marked_closeDemand (a0 : ℕ) (a1 : ℕ) (a2 : Bool) (h : Marked m s) :
    Marked m (closeDemand a0 a1 a2 s) := by
  unfold closeDemand
  repeat' first
    | with_reducible assumption
    | (intro (s : State) (h : Marked m s))
    | (intro _ (s : State) (h : Marked m s))
    | (intro (h : Marked m _))
    | (intro (s' : State); refine_lift have h : Marked m s' := ?_; ?_; clear_value s')
    | lift_lets
    | with_reducible apply markedO_next
    | with_reducible apply marked_ite
    | with_reducible apply marked_onBilOut
    | with_reducible refine marked_foldl ?_ (fun s x h => ?_)
    | (intro x'; clear_value x')
    | intro _
    | dsimp only [s']
    | split

theorem marked_closeEnds (a0 : ℕ) (a1 : ℕ) (a2 : ℕ) (h : Marked m s) :
    Marked m (closeEnds a0 a1 a2 s) := by
  induction a2 generalizing  s with
  | zero => exact h
  | succ n ih =>
  simp only [closeEnds]
  repeat' first
    | with_reducible assumption
    | (intro (s : State) (h : Marked m s))
    | (intro _ (s : State) (h : Marked m s))
    | (intro (h : Marked m _))
    | (intro (s' : State); refine_lift have h : Marked m s' := ?_; ?_; clear_value s')
    | lift_lets
    | with_reducible apply markedO_next
    | with_reducible apply marked_ite
    | with_reducible apply marked_closeDemand
    | with_reducible apply ih
    | with_reducible refine marked_foldl ?_ (fun s x h => ?_)
    | (intro x'; clear_value x')
    | intro _
    | dsimp only [s']
    | split

theorem marked_closeDue (a0 : ℕ) (a1 : ℕ) (h : Marked m s) :
    Marked m (closeDue a0 a1 s) := by
  unfold closeDue
  repeat' first
    | with_reducible assumption
    | (intro (s : State) (h : Marked m s))
    | (intro _ (s : State) (h : Marked m s))
    | (intro (h : Marked m _))
    | (intro (s' : State); refine_lift have h : Marked m s' := ?_; ?_; clear_value s')
    | lift_lets
    | with_reducible apply markedO_next
    | with_reducible apply marked_ite
    | with_reducible apply marked_closeEnds
    | with_reducible refine marked_foldl ?_ (fun s x h => ?_)
    | (intro x'; clear_value x')
    | intro _
    | dsimp only [s']
    | split

theorem marked_billingBoundary (a0 : ℕ) (a1 : ℕ) (h : Marked m s) :
    Marked m (billingBoundary a0 a1 s) := by
  unfold billingBoundary
  repeat' first
    | with_reducible assumption
    | (intro (s : State) (h : Marked m s))
    | (intro _ (s : State) (h : Marked m s))
    | (intro (h : Marked m _))
    | (intro (s' : State); refine_lift have h : Marked m s' := ?_; ?_; clear_value s')
    | lift_lets
    | with_reducible apply markedO_next
    | with_reducible apply marked_ite
    | with_reducible apply marked_capture
    | with_reducible apply marked_onBil
    | with_reducible apply marked_legalEv
    | with_reducible refine marked_foldl ?_ (fun s x h => ?_)
    | (intro x'; clear_value x')
    | intro _
    | dsimp only [s']
    | split

theorem marked_activateCalendar (a0 : ℕ) (h : Marked m s) :
    Marked m (activateCalendar a0 s) := by
  unfold activateCalendar
  repeat' first
    | with_reducible assumption
    | (intro (s : State) (h : Marked m s))
    | (intro _ (s : State) (h : Marked m s))
    | (intro (h : Marked m _))
    | (intro (s' : State); refine_lift have h : Marked m s' := ?_; ?_; clear_value s')
    | lift_lets
    | with_reducible apply markedO_next
    | with_reducible apply marked_ite
    | with_reducible apply marked_onCtl
    | with_reducible apply marked_onBil
    | with_reducible apply marked_legalEv
    | with_reducible refine marked_foldl ?_ (fun s x h => ?_)
    | (intro x'; clear_value x')
    | intro _
    | dsimp only [s']
    | split

theorem marked_switchTariff (a0 : ℕ) (a1 : ℕ) (h : Marked m s) :
    Marked m (switchTariff a0 a1 s) := by
  unfold switchTariff
  repeat' first
    | with_reducible assumption
    | (intro (s : State) (h : Marked m s))
    | (intro _ (s : State) (h : Marked m s))
    | (intro (h : Marked m _))
    | (intro (s' : State); refine_lift have h : Marked m s' := ?_; ?_; clear_value s')
    | lift_lets
    | with_reducible apply markedO_next
    | with_reducible apply marked_ite
    | with_reducible apply marked_onBilOut
    | with_reducible apply marked_onBil
    | with_reducible refine marked_foldl ?_ (fun s x h => ?_)
    | (intro x'; clear_value x')
    | intro _
    | dsimp only [s']
    | split

theorem marked_noteStep (a0 : TimeStep) (h : Marked m s) :
    Marked m (noteStep a0 s) := by
  unfold noteStep
  repeat' first
    | with_reducible assumption
    | (intro (s : State) (h : Marked m s))
    | (intro _ (s : State) (h : Marked m s))
    | (intro (h : Marked m _))
    | (intro (s' : State); refine_lift have h : Marked m s' := ?_; ?_; clear_value s')
    | lift_lets
    | with_reducible apply markedO_next
    | with_reducible apply marked_ite
    | with_reducible apply marked_onCounters
    | with_reducible apply marked_onBil
    | with_reducible apply marked_legalEv
    | with_reducible refine marked_foldl ?_ (fun s x h => ?_)
    | (intro x'; clear_value x')
    | intro _
    | dsimp only [s']
    | split

theorem marked_applyStep_restartAll (a0 : TimeStep) (a1 : ℕ) (h : Marked m s) :
    Marked m (applyStep.restartAll a0 a1 s) := by
  unfold applyStep.restartAll
  repeat' first
    | with_reducible assumption
    | (intro (s : State) (h : Marked m s))
    | (intro _ (s : State) (h : Marked m s))
    | (intro (h : Marked m _))
    | (intro (s' : State); refine_lift have h : Marked m s' := ?_; ?_; clear_value s')
    | lift_lets
    | with_reducible apply markedO_next
    | with_reducible apply marked_ite
    | with_reducible apply marked_restartDemand
    | with_reducible refine marked_foldl ?_ (fun s x h => ?_)
    | (intro x'; clear_value x')
    | intro _
    | dsimp only [s']
    | split

theorem marked_applyStep (a0 : TimeStep) (h : Marked m s) :
    Marked m (applyStep a0 s) := by
  unfold applyStep
  repeat' first
    | with_reducible assumption
    | (intro (s : State) (h : Marked m s))
    | (intro _ (s : State) (h : Marked m s))
    | (intro (h : Marked m _))
    | (intro (s' : State); refine_lift have h : Marked m s' := ?_; ?_; clear_value s')
    | lift_lets
    | with_reducible apply markedO_next
    | with_reducible apply marked_ite
    | with_reducible apply marked_noteStep
    | with_reducible apply marked_restartDemand
    | with_reducible apply marked_closeDemand
    | with_reducible apply marked_billingBoundary
    | with_reducible apply marked_applyStep_restartAll
    | with_reducible apply marked_activateCalendar
    | with_reducible apply marked_switchTariff
    | with_reducible refine marked_foldl ?_ (fun s x h => ?_)
    | (intro x'; clear_value x')
    | intro _
    | dsimp only [s']
    | split

theorem marked_boundaryEvents (a0 : ℕ) (a1 : ℕ) (h : Marked m s) :
    Marked m (boundaryEvents a0 a1 s) := by
  unfold boundaryEvents
  repeat' first
    | with_reducible assumption
    | (intro (s : State) (h : Marked m s))
    | (intro _ (s : State) (h : Marked m s))
    | (intro (h : Marked m _))
    | (intro (s' : State); refine_lift have h : Marked m s' := ?_; ?_; clear_value s')
    | lift_lets
    | with_reducible apply markedO_next
    | with_reducible apply marked_ite
    | with_reducible apply marked_applyStep
    | with_reducible apply marked_closeDue
    | with_reducible apply marked_billingBoundary
    | with_reducible apply marked_onBil
    | with_reducible apply marked_activateCalendar
    | with_reducible apply marked_switchTariff
    | with_reducible refine marked_foldl ?_ (fun s x h => ?_)
    | (intro x'; clear_value x')
    | intro _
    | dsimp only [s']
    | split

theorem marked_journalPending (a0 : ℕ) (a1 : ℕ) (h : Marked m s) :
    Marked m (journalPending a0 a1 s) := by
  unfold journalPending
  repeat' first
    | with_reducible assumption
    | (intro (s : State) (h : Marked m s))
    | (intro _ (s : State) (h : Marked m s))
    | (intro (h : Marked m _))
    | (intro (s' : State); refine_lift have h : Marked m s' := ?_; ?_; clear_value s')
    | lift_lets
    | with_reducible apply markedO_next
    | with_reducible apply marked_ite
    | with_reducible apply marked_noteStep
    | with_reducible apply marked_onBil
    | with_reducible apply marked_legalEv
    | with_reducible refine marked_foldl ?_ (fun s x h => ?_)
    | (intro x'; clear_value x')
    | intro _
    | dsimp only [s']
    | split

theorem marked_completeClose (a0 : JournalEntry) (a2 : ℕ) (h : Marked m s) :
    Marked m (completeClose a0 s a2) := by
  unfold completeClose
  repeat' first
    | with_reducible assumption
    | (intro (s : State) (h : Marked m s))
    | (intro _ (s : State) (h : Marked m s))
    | (intro (h : Marked m _))
    | (intro (s' : State); refine_lift have h : Marked m s' := ?_; ?_; clear_value s')
    | lift_lets
    | with_reducible apply markedO_next
    | with_reducible apply marked_ite
    | with_reducible apply marked_onBilOut
    | with_reducible apply marked_closeDemand
    | with_reducible refine marked_foldl ?_ (fun s x h => ?_)
    | (intro x'; clear_value x')
    | intro _
    | dsimp only [s']
    | split

theorem marked_completeEntry (a0 : ℕ) (a1 : JournalEntry) (h : Marked m s) :
    Marked m (completeEntry a0 a1 s) := by
  unfold completeEntry
  repeat' first
    | with_reducible assumption
    | (intro (s : State) (h : Marked m s))
    | (intro _ (s : State) (h : Marked m s))
    | (intro (h : Marked m _))
    | (intro (s' : State); refine_lift have h : Marked m s' := ?_; ?_; clear_value s')
    | lift_lets
    | with_reducible apply markedO_next
    | with_reducible apply marked_ite
    | with_reducible apply marked_completeClose
    | with_reducible apply marked_billingBoundary
    | with_reducible apply marked_activateCalendar
    | with_reducible apply marked_onBilOut
    | with_reducible apply marked_legalEv
    | with_reducible refine marked_foldl ?_ (fun s x h => ?_)
    | (intro x'; clear_value x')
    | intro _
    | dsimp only [s']
    | split

theorem marked_badEntries  (h : Marked m s) :
    Marked m (badEntries s) := by
  unfold badEntries
  repeat' first
    | with_reducible assumption
    | (intro (s : State) (h : Marked m s))
    | (intro _ (s : State) (h : Marked m s))
    | (intro (h : Marked m _))
    | (intro (s' : State); refine_lift have h : Marked m s' := ?_; ?_; clear_value s')
    | lift_lets
    | with_reducible apply markedO_next
    | with_reducible apply marked_ite
    | with_reducible apply marked_legalEv
    | with_reducible refine marked_foldl ?_ (fun s x h => ?_)
    | (intro x'; clear_value x')
    | intro _
    | dsimp only [s']
    | split

theorem marked_completeJournal (a0 : ℕ) (h : Marked m s) :
    Marked m (completeJournal a0 s) := by
  unfold completeJournal
  repeat' first
    | with_reducible assumption
    | (intro (s : State) (h : Marked m s))
    | (intro _ (s : State) (h : Marked m s))
    | (intro (h : Marked m _))
    | (intro (s' : State); refine_lift have h : Marked m s' := ?_; ?_; clear_value s')
    | lift_lets
    | with_reducible apply markedO_next
    | with_reducible apply marked_ite
    | with_reducible apply marked_badEntries
    | with_reducible apply marked_onMet
    | with_reducible apply marked_completeEntry
    | with_reducible apply marked_onBil
    | with_reducible refine marked_foldl ?_ (fun s x h => ?_)
    | (intro x'; clear_value x')
    | intro _
    | dsimp only [s']
    | split

theorem marked_closeGap (a0 : ℕ) (a1 : ℕ) (h : Marked m s) :
    Marked m (closeGap a0 a1 s) := by
  unfold closeGap
  repeat' first
    | with_reducible assumption
    | (intro (s : State) (h : Marked m s))
    | (intro _ (s : State) (h : Marked m s))
    | (intro (h : Marked m _))
    | (intro (s' : State); refine_lift have h : Marked m s' := ?_; ?_; clear_value s')
    | lift_lets
    | with_reducible apply markedO_next
    | with_reducible apply marked_ite
    | with_reducible apply marked_closeDemand
    | with_reducible apply marked_onBilOut
    | with_reducible refine marked_foldl ?_ (fun s x h => ?_)
    | (intro x'; clear_value x')
    | intro _
    | dsimp only [s']
    | split

theorem marked_executeMissed (a0 : ℕ) (a1 : ℕ) (a2 : ℕ) (a3 : ℕ) (h : Marked m s) :
    Marked m (executeMissed a0 a1 a2 a3 s) := by
  induction a1 generalizing a2 s with
  | zero => exact h
  | succ n ih =>
  simp only [executeMissed]
  repeat' first
    | with_reducible assumption
    | (intro (s : State) (h : Marked m s))
    | (intro _ (s : State) (h : Marked m s))
    | (intro (h : Marked m _))
    | (intro (s' : State); refine_lift have h : Marked m s' := ?_; ?_; clear_value s')
    | lift_lets
    | with_reducible apply markedO_next
    | with_reducible apply marked_ite
    | with_reducible apply marked_activateCalendar
    | with_reducible apply marked_billingBoundary
    | with_reducible apply marked_closeGap
    | with_reducible apply marked_legalEv
    | with_reducible apply ih
    | with_reducible refine marked_foldl ?_ (fun s x h => ?_)
    | (intro x'; clear_value x')
    | intro _
    | dsimp only [s']
    | split

theorem marked_billRestart (a0 : ℕ) (a1 : ℕ) (h : Marked m s) :
    Marked m (billRestart a0 a1 s) := by
  unfold billRestart
  repeat' first
    | with_reducible assumption
    | (intro (s : State) (h : Marked m s))
    | (intro _ (s : State) (h : Marked m s))
    | (intro (h : Marked m _))
    | (intro (s' : State); refine_lift have h : Marked m s' := ?_; ?_; clear_value s')
    | lift_lets
    | with_reducible apply markedO_next
    | with_reducible apply marked_ite
    | with_reducible apply marked_onBil
    | with_reducible apply marked_completeJournal
    | with_reducible apply marked_executeMissed
    | with_reducible apply marked_closeGap
    | with_reducible apply marked_onBilOut
    | with_reducible apply marked_restartDemand
    | with_reducible apply marked_switchTariff
    | with_reducible refine marked_foldl ?_ (fun s x h => ?_)
    | (intro x'; clear_value x')
    | intro _
    | dsimp only [s']
    | split

theorem marked_toSquirrel (a0 : List Bytes) (h : Marked m s) :
    Marked m (toSquirrel a0 s) := by
  unfold toSquirrel
  repeat' first
    | with_reducible assumption
    | (intro (s : State) (h : Marked m s))
    | (intro _ (s : State) (h : Marked m s))
    | (intro (h : Marked m _))
    | (intro (s' : State); refine_lift have h : Marked m s' := ?_; ?_; clear_value s')
    | lift_lets
    | with_reducible apply markedO_next
    | with_reducible apply marked_ite
    | with_reducible apply marked_onBil
    | with_reducible refine marked_foldl ?_ (fun s x h => ?_)
    | (intro x'; clear_value x')
    | intro _
    | dsimp only [s']
    | split

theorem marked_profileOf (a0 : ℕ) (a1 : ℕ) (h : Marked m s) :
    Marked m (profileOf a0 a1 s) := by
  unfold profileOf
  repeat' first
    | with_reducible assumption
    | (intro (s : State) (h : Marked m s))
    | (intro _ (s : State) (h : Marked m s))
    | (intro (h : Marked m _))
    | (intro (s' : State); refine_lift have h : Marked m s' := ?_; ?_; clear_value s')
    | lift_lets
    | with_reducible apply markedO_next
    | with_reducible apply marked_ite
    | with_reducible apply marked_onBilOut
    | with_reducible apply marked_toSquirrel
    | with_reducible refine marked_foldl ?_ (fun s x h => ?_)
    | (intro x'; clear_value x')
    | intro _
    | dsimp only [s']
    | split

theorem marked_profileRestart (a0 : ℕ) (a1 : ℕ) (h : Marked m s) :
    Marked m (profileRestart a0 a1 s) := by
  unfold profileRestart
  repeat' first
    | with_reducible assumption
    | (intro (s : State) (h : Marked m s))
    | (intro _ (s : State) (h : Marked m s))
    | (intro (h : Marked m _))
    | (intro (s' : State); refine_lift have h : Marked m s' := ?_; ?_; clear_value s')
    | lift_lets
    | with_reducible apply markedO_next
    | with_reducible apply marked_ite
    | with_reducible apply marked_onBilOut
    | with_reducible apply marked_profileOf
    | with_reducible apply marked_onBil
    | with_reducible refine marked_foldl ?_ (fun s x h => ?_)
    | (intro x'; clear_value x')
    | intro _
    | dsimp only [s']
    | split

theorem marked_execLoadProfileRecord  (h : Marked m s) :
    MarkedO m (execLoadProfileRecord s) := by
  unfold execLoadProfileRecord
  repeat' first
    | with_reducible assumption
    | (intro (s : State) (h : Marked m s))
    | (intro _ (s : State) (h : Marked m s))
    | (intro (h : Marked m _))
    | (intro (s' : State); refine_lift have h : Marked m s' := ?_; ?_; clear_value s')
    | lift_lets
    | with_reducible apply markedO_next
    | with_reducible apply marked_ite
    | with_reducible apply markedO_ite
    | with_reducible apply marked_profileOf
    | with_reducible refine marked_foldl ?_ (fun s x h => ?_)
    | (intro x'; clear_value x')
    | intro _
    | dsimp only [s']
    | split

theorem marked_flushProfile  (h : Marked m s) :
    Marked m (flushProfile s) := by
  unfold flushProfile
  repeat' first
    | with_reducible assumption
    | (intro (s : State) (h : Marked m s))
    | (intro _ (s : State) (h : Marked m s))
    | (intro (h : Marked m _))
    | (intro (s' : State); refine_lift have h : Marked m s' := ?_; ?_; clear_value s')
    | lift_lets
    | with_reducible apply markedO_next
    | with_reducible apply marked_ite
    | with_reducible apply marked_onBilOut
    | with_reducible apply marked_toSquirrel
    | with_reducible apply marked_logEv
    | with_reducible refine marked_foldl ?_ (fun s x h => ?_)
    | (intro x'; clear_value x')
    | intro _
    | dsimp only [s']
    | split

theorem marked_storeCalendar (a0 : Calendar) (a1 : Bytes) (h : Marked m s) :
    Marked m (storeCalendar a0 a1 s) := by
  unfold storeCalendar
  repeat' first
    | with_reducible assumption
    | (intro (s : State) (h : Marked m s))
    | (intro _ (s : State) (h : Marked m s))
    | (intro (h : Marked m _))
    | (intro (s' : State); refine_lift have h : Marked m s' := ?_; ?_; clear_value s')
    | lift_lets
    | with_reducible apply markedO_next
    | with_reducible apply marked_ite
    | with_reducible apply marked_onCtl
    | with_reducible apply marked_onBil
    | with_reducible refine marked_foldl ?_ (fun s x h => ?_)
    | (intro x'; clear_value x')
    | intro _
    | dsimp only [s']
    | split

theorem marked_calRefuse (a0 : Req) (a1 : Bytes) (a2 : ℕ) (a3 : ℕ) (a4 : Option EvClass) (h : Marked m s) :
    Marked m (calRefuse a0 a1 a2 a3 a4 s) := by
  unfold calRefuse
  repeat' first
    | with_reducible assumption
    | (intro (s : State) (h : Marked m s))
    | (intro _ (s : State) (h : Marked m s))
    | (intro (h : Marked m _))
    | (intro (s' : State); refine_lift have h : Marked m s' := ?_; ?_; clear_value s')
    | lift_lets
    | with_reducible apply markedO_next
    | with_reducible apply marked_ite
    | with_reducible apply marked_onBil
    | with_reducible apply marked_logEv
    | with_reducible apply marked_postSts
    | with_reducible refine marked_foldl ?_ (fun s x h => ?_)
    | (intro x'; clear_value x')
    | intro _
    | dsimp only [s']
    | split

theorem marked_execCalLoad (a0 : Req) (a1 : Bytes) (h : Marked m s) :
    MarkedO m (execCalLoad a0 a1 s) := by
  unfold execCalLoad
  repeat' first
    | with_reducible assumption
    | (intro (s : State) (h : Marked m s))
    | (intro _ (s : State) (h : Marked m s))
    | (intro (h : Marked m _))
    | (intro (s' : State); refine_lift have h : Marked m s' := ?_; ?_; clear_value s')
    | lift_lets
    | with_reducible apply markedO_next
    | with_reducible apply marked_ite
    | with_reducible apply markedO_ite
    | with_reducible apply marked_calRefuse
    | with_reducible apply marked_storeCalendar
    | with_reducible apply marked_onBil
    | with_reducible apply marked_postSts
    | with_reducible apply marked_legalEv
    | with_reducible refine marked_foldl ?_ (fun s x h => ?_)
    | (intro x'; clear_value x')
    | intro _
    | dsimp only [s']
    | split

theorem marked_tokenEnd (a0 : Req) (a1 : ℕ) (a2 : ℕ) (a3 : Option (EvClass × ℕ × ℕ)) (h : Marked m s) :
    Marked m (tokenEnd a0 a1 a2 a3 s) := by
  unfold tokenEnd
  repeat' first
    | with_reducible assumption
    | (intro (s : State) (h : Marked m s))
    | (intro _ (s : State) (h : Marked m s))
    | (intro (h : Marked m _))
    | (intro (s' : State); refine_lift have h : Marked m s' := ?_; ?_; clear_value s')
    | lift_lets
    | with_reducible apply markedO_next
    | with_reducible apply marked_ite
    | with_reducible apply marked_onBil
    | with_reducible apply marked_logEv
    | with_reducible apply marked_postSts
    | with_reducible refine marked_foldl ?_ (fun s x h => ?_)
    | (intro x'; clear_value x')
    | intro _
    | dsimp only [s']
    | split

theorem marked_acceptToken (a0 : Req) (a1 : ℕ) (a2 : ℕ) (a3 : ℕ) (a4 : ℕ) (h : Marked m s) :
    Marked m (acceptToken a0 a1 a2 a3 a4 s) := by
  unfold acceptToken
  repeat' first
    | with_reducible assumption
    | (intro (s : State) (h : Marked m s))
    | (intro _ (s : State) (h : Marked m s))
    | (intro (h : Marked m _))
    | (intro (s' : State); refine_lift have h : Marked m s' := ?_; ?_; clear_value s')
    | lift_lets
    | with_reducible apply markedO_next
    | with_reducible apply marked_ite
    | with_reducible apply marked_onBil
    | with_reducible apply marked_onCtl
    | with_reducible apply marked_setCredit
    | with_reducible apply marked_legalEv
    | with_reducible apply marked_tokenEnd
    | with_reducible refine marked_foldl ?_ (fun s x h => ?_)
    | (intro x'; clear_value x')
    | intro _
    | dsimp only [s']
    | split

theorem marked_tokenRows (a0 : Req) (a1 : Bool) (a2 : ℕ) (a3 : ℕ) (a4 : ℕ) (a5 : ℕ) (h : Marked m s) :
    Marked m (tokenRows a0 a1 a2 a3 a4 a5 s) := by
  unfold tokenRows
  repeat' first
    | with_reducible assumption
    | (intro (s : State) (h : Marked m s))
    | (intro _ (s : State) (h : Marked m s))
    | (intro (h : Marked m _))
    | (intro (s' : State); refine_lift have h : Marked m s' := ?_; ?_; clear_value s')
    | lift_lets
    | with_reducible apply markedO_next
    | with_reducible apply marked_ite
    | with_reducible apply marked_tokenEnd
    | with_reducible apply marked_acceptToken
    | with_reducible refine marked_foldl ?_ (fun s x h => ?_)
    | (intro x'; clear_value x')
    | intro _
    | dsimp only [s']
    | split

theorem marked_execTokenEnter (a0 : Req) (a1 : Bytes) (h : Marked m s) :
    MarkedO m (execTokenEnter a0 a1 s) := by
  unfold execTokenEnter
  repeat' first
    | with_reducible assumption
    | (intro (s : State) (h : Marked m s))
    | (intro _ (s : State) (h : Marked m s))
    | (intro (h : Marked m _))
    | (intro (s' : State); refine_lift have h : Marked m s' := ?_; ?_; clear_value s')
    | lift_lets
    | with_reducible apply markedO_next
    | with_reducible apply marked_ite
    | with_reducible apply markedO_ite
    | with_reducible apply marked_tokenEnd
    | with_reducible apply marked_tokenRows
    | with_reducible refine marked_foldl ?_ (fun s x h => ?_)
    | (intro x'; clear_value x')
    | intro _
    | dsimp only [s']
    | split

theorem marked_execTokenMirrorConfirm (a0 : ℕ) (h : Marked m s) :
    MarkedO m (execTokenMirrorConfirm a0 s) := by
  unfold execTokenMirrorConfirm
  repeat' first
    | with_reducible assumption
    | (intro (s : State) (h : Marked m s))
    | (intro _ (s : State) (h : Marked m s))
    | (intro (h : Marked m _))
    | (intro (s' : State); refine_lift have h : Marked m s' := ?_; ?_; clear_value s')
    | lift_lets
    | with_reducible apply markedO_next
    | with_reducible apply marked_ite
    | with_reducible apply markedO_ite
    | with_reducible apply marked_onCtl
    | with_reducible apply marked_onBil
    | with_reducible refine marked_foldl ?_ (fun s x h => ?_)
    | (intro x'; clear_value x')
    | intro _
    | dsimp only [s']
    | split

theorem marked_rebuildReplay  (h : Marked m s) :
    Marked m (rebuildReplay s) := by
  unfold rebuildReplay
  repeat' first
    | with_reducible assumption
    | (intro (s : State) (h : Marked m s))
    | (intro _ (s : State) (h : Marked m s))
    | (intro (h : Marked m _))
    | (intro (s' : State); refine_lift have h : Marked m s' := ?_; ?_; clear_value s')
    | lift_lets
    | with_reducible apply markedO_next
    | with_reducible apply marked_ite
    | with_reducible apply marked_onBil
    | with_reducible apply marked_onCtl
    | with_reducible refine marked_foldl ?_ (fun s x h => ?_)
    | (intro x'; clear_value x')
    | intro _
    | dsimp only [s']
    | split

theorem marked_clearReplay  (h : Marked m s) :
    Marked m (clearReplay s) := by
  unfold clearReplay
  repeat' first
    | with_reducible assumption
    | (intro (s : State) (h : Marked m s))
    | (intro _ (s : State) (h : Marked m s))
    | (intro (h : Marked m _))
    | (intro (s' : State); refine_lift have h : Marked m s' := ?_; ?_; clear_value s')
    | lift_lets
    | with_reducible apply markedO_next
    | with_reducible apply marked_ite
    | with_reducible apply marked_onCtl
    | with_reducible apply marked_onBil
    | with_reducible refine marked_foldl ?_ (fun s x h => ?_)
    | (intro x'; clear_value x')
    | intro _
    | dsimp only [s']
    | split

theorem marked_execBillSnapRead (a0 : Req) (a1 : ℕ) (h : Marked m s) :
    MarkedO m (execBillSnapRead a0 a1 s) := by
  unfold execBillSnapRead
  repeat' first
    | with_reducible assumption
    | (intro (s : State) (h : Marked m s))
    | (intro _ (s : State) (h : Marked m s))
    | (intro (h : Marked m _))
    | (intro (s' : State); refine_lift have h : Marked m s' := ?_; ?_; clear_value s')
    | lift_lets
    | with_reducible apply markedO_next
    | with_reducible apply marked_ite
    | with_reducible apply markedO_ite
    | with_reducible apply marked_guarded
    | with_reducible apply marked_post
    | with_reducible refine marked_foldl ?_ (fun s x h => ?_)
    | (intro x'; clear_value x')
    | intro _
    | dsimp only [s']
    | split

theorem marked_execBillReset (a0 : Req) (h : Marked m s) :
    MarkedO m (execBillReset a0 s) := by
  unfold execBillReset
  repeat' first
    | with_reducible assumption
    | (intro (s : State) (h : Marked m s))
    | (intro _ (s : State) (h : Marked m s))
    | (intro (h : Marked m _))
    | (intro (s' : State); refine_lift have h : Marked m s' := ?_; ?_; clear_value s')
    | lift_lets
    | with_reducible apply markedO_next
    | with_reducible apply marked_ite
    | with_reducible apply markedO_ite
    | with_reducible apply marked_guarded
    | with_reducible apply marked_postSts
    | with_reducible apply marked_onBil
    | with_reducible refine marked_foldl ?_ (fun s x h => ?_)
    | (intro x'; clear_value x')
    | intro _
    | dsimp only [s']
    | split

theorem marked_execBilLoRead (a0 : Side) (a1 : BilLo) (h : Marked m s) :
    MarkedO m (execBilLoRead a0 a1 s) := by
  unfold execBilLoRead
  repeat' first
    | with_reducible assumption
    | (intro (s : State) (h : Marked m s))
    | (intro _ (s : State) (h : Marked m s))
    | (intro (h : Marked m _))
    | (intro (s' : State); refine_lift have h : Marked m s' := ?_; ?_; clear_value s')
    | lift_lets
    | with_reducible apply markedO_next
    | with_reducible apply marked_ite
    | with_reducible apply markedO_ite
    | with_reducible apply marked_returns
    | with_reducible apply marked_onBil
    | with_reducible refine marked_foldl ?_ (fun s x h => ?_)
    | (intro x'; clear_value x')
    | intro _
    | dsimp only [s']
    | split

end Sys2Proof.Machine
end

