-- ==== Sys2Proof/Laws/MarkedOwl.lean ====
section
/-! SUPPORT. The operations of Owl.lean take no mark back. -/

set_option linter.unusedVariables false
set_option linter.unreachableTactic false
set_option linter.unusedTactic false

namespace Sys2Proof.Machine

variable {m : Marks} {s : State}

theorem marked_onCfg (a0 : OwlCfg → OwlCfg) (h : Marked m s) :
    Marked m (onCfg a0 s) := by
  unfold onCfg
  repeat' first
    | with_reducible assumption
    | (intro (s : State) (h : Marked m s))
    | (intro _ (s : State) (h : Marked m s))
    | (intro (h : Marked m _))
    | (intro (x : OwlBlock) hx; first | exact ⟨hx.1⟩ | (split <;> exact ⟨hx.1⟩) | exact ⟨fun o ho => hx.1 o (flag_put_false ho)⟩ | exact ⟨fun o ho => (flag_none ho).elim⟩)
    | (intro (s' : State); refine_lift have h : Marked m s' := ?_; ?_; clear_value s')
    | lift_lets
    | with_reducible apply markedO_next
    | with_reducible apply marked_ite
    | with_reducible apply marked_onOwl
    | with_reducible refine marked_foldl ?_ (fun s x h => ?_)
    | (intro x'; clear_value x')
    | intro _
    | dsimp only [s']
    | split

theorem marked_changeEntry (a0 : ℕ) (a1 : ℕ) (a2 : ℕ) (a3 : ℕ) (a4 : Bytes) (a5 : Bytes) (h : Marked m s) :
    Marked m (changeEntry a0 a1 a2 a3 a4 a5 s) := by
  unfold changeEntry
  repeat' first
    | with_reducible assumption
    | (intro (s : State) (h : Marked m s))
    | (intro _ (s : State) (h : Marked m s))
    | (intro (h : Marked m _))
    | (intro (x : OwlBlock) hx; first | exact ⟨hx.1⟩ | (split <;> exact ⟨hx.1⟩) | exact ⟨fun o ho => hx.1 o (flag_put_false ho)⟩ | exact ⟨fun o ho => (flag_none ho).elim⟩)
    | (intro (s' : State); refine_lift have h : Marked m s' := ?_; ?_; clear_value s')
    | lift_lets
    | with_reducible apply markedO_next
    | with_reducible apply marked_ite
    | with_reducible apply marked_onOwl
    | with_reducible apply marked_logEv
    | with_reducible refine marked_foldl ?_ (fun s x h => ?_)
    | (intro x'; clear_value x')
    | intro _
    | dsimp only [s']
    | split

theorem marked_cfgCheck (a0 : Bool) (a1 : Bool) (h : Marked m s) :
    Marked m (cfgCheck a0 a1 s) := by
  unfold cfgCheck
  repeat' first
    | with_reducible assumption
    | (intro (s : State) (h : Marked m s))
    | (intro _ (s : State) (h : Marked m s))
    | (intro (h : Marked m _))
    | (intro (x : OwlBlock) hx; first | exact ⟨hx.1⟩ | (split <;> exact ⟨hx.1⟩) | exact ⟨fun o ho => hx.1 o (flag_put_false ho)⟩ | exact ⟨fun o ho => (flag_none ho).elim⟩)
    | (intro (s' : State); refine_lift have h : Marked m s' := ?_; ?_; clear_value s')
    | lift_lets
    | with_reducible apply markedO_next
    | with_reducible apply marked_ite
    | with_reducible apply marked_onOwl
    | with_reducible apply marked_changeEntry
    | with_reducible apply marked_logEv
    | with_reducible refine marked_foldl ?_ (fun s x h => ?_)
    | (intro x'; clear_value x')
    | intro _
    | dsimp only [s']
    | split

theorem marked_seeGuards  (h : Marked m s) :
    Marked m (seeGuards s) := by
  unfold seeGuards
  repeat' first
    | with_reducible assumption
    | (intro (s : State) (h : Marked m s))
    | (intro _ (s : State) (h : Marked m s))
    | (intro (h : Marked m _))
    | (intro (x : OwlBlock) hx; first | exact ⟨hx.1⟩ | (split <;> exact ⟨hx.1⟩) | exact ⟨fun o ho => hx.1 o (flag_put_false ho)⟩ | exact ⟨fun o ho => (flag_none ho).elim⟩)
    | (intro (s' : State); refine_lift have h : Marked m s' := ?_; ?_; clear_value s')
    | lift_lets
    | with_reducible apply markedO_next
    | with_reducible apply marked_ite
    | with_reducible apply marked_onOwl
    | with_reducible refine marked_foldl ?_ (fun s x h => ?_)
    | (intro x'; clear_value x')
    | intro _
    | dsimp only [s']
    | split

theorem marked_prove  (h : Marked m s) :
    Marked m (prove s) := by
  unfold prove
  repeat' first
    | with_reducible assumption
    | (intro (s : State) (h : Marked m s))
    | (intro _ (s : State) (h : Marked m s))
    | (intro (h : Marked m _))
    | (intro (x : OwlBlock) hx; first | exact ⟨hx.1⟩ | (split <;> exact ⟨hx.1⟩) | exact ⟨fun o ho => hx.1 o (flag_put_false ho)⟩ | exact ⟨fun o ho => (flag_none ho).elim⟩)
    | (intro (s' : State); refine_lift have h : Marked m s' := ?_; ?_; clear_value s')
    | lift_lets
    | with_reducible apply markedO_next
    | with_reducible apply marked_ite
    | with_reducible apply marked_logEv
    | with_reducible apply marked_onOwl
    | with_reducible refine marked_foldl ?_ (fun s x h => ?_)
    | (intro x'; clear_value x')
    | intro _
    | dsimp only [s']
    | split

theorem marked_supTrip (a0 : TripRec) (a1 : ℤ) (h : Marked m s) :
    Marked m (supTrip a0 a1 s) := by
  unfold supTrip
  repeat' first
    | with_reducible assumption
    | (intro (s : State) (h : Marked m s))
    | (intro _ (s : State) (h : Marked m s))
    | (intro (h : Marked m _))
    | (intro (x : OwlBlock) hx; first | exact ⟨hx.1⟩ | (split <;> exact ⟨hx.1⟩) | exact ⟨fun o ho => hx.1 o (flag_put_false ho)⟩ | exact ⟨fun o ho => (flag_none ho).elim⟩)
    | (intro (s' : State); refine_lift have h : Marked m s' := ?_; ?_; clear_value s')
    | lift_lets
    | with_reducible apply markedO_next
    | with_reducible apply marked_ite
    | with_reducible apply marked_onOwl
    | with_reducible apply marked_logEv
    | with_reducible apply marked_latchTrip
    | with_reducible refine marked_foldl ?_ (fun s x h => ?_)
    | (intro x'; clear_value x')
    | intro _
    | dsimp only [s']
    | split

theorem marked_immediateTrips  (h : Marked m s) :
    Marked m (immediateTrips s) := by
  unfold immediateTrips
  repeat' first
    | with_reducible assumption
    | (intro (s : State) (h : Marked m s))
    | (intro _ (s : State) (h : Marked m s))
    | (intro (h : Marked m _))
    | (intro (s' : State); refine_lift have h : Marked m s' := ?_; ?_; clear_value s')
    | lift_lets
    | with_reducible apply markedO_next
    | with_reducible apply marked_ite
    | with_reducible apply marked_supTrip
    | with_reducible refine marked_foldl ?_ (fun s x h => ?_)
    | (intro x'; clear_value x')
    | intro _
    | dsimp only [s']
    | split

theorem marked_execSupervisedDelayExpiry (a0 : ℕ) (a1 : ℕ) (h : Marked m s) :
    MarkedO m (execSupervisedDelayExpiry a0 a1 s) := by
  unfold execSupervisedDelayExpiry
  repeat' first
    | with_reducible assumption
    | (intro (s : State) (h : Marked m s))
    | (intro _ (s : State) (h : Marked m s))
    | (intro (h : Marked m _))
    | (intro (s' : State); refine_lift have h : Marked m s' := ?_; ?_; clear_value s')
    | lift_lets
    | with_reducible apply markedO_next
    | with_reducible apply marked_ite
    | with_reducible apply markedO_ite
    | with_reducible apply marked_supTrip
    | with_reducible apply marked_bump
    | with_reducible refine marked_foldl ?_ (fun s x h => ?_)
    | (intro x'; clear_value x')
    | intro _
    | dsimp only [s']
    | split

theorem marked_refreshWithhold  (h : Marked m s) :
    Marked m (refreshWithhold s) := by
  unfold refreshWithhold
  repeat' first
    | with_reducible assumption
    | (intro (s : State) (h : Marked m s))
    | (intro _ (s : State) (h : Marked m s))
    | (intro (h : Marked m _))
    | (intro (x : OwlBlock) hx; first | exact ⟨hx.1⟩ | (split <;> exact ⟨hx.1⟩) | exact ⟨fun o ho => hx.1 o (flag_put_false ho)⟩ | exact ⟨fun o ho => (flag_none ho).elim⟩)
    | (intro (s' : State); refine_lift have h : Marked m s' := ?_; ?_; clear_value s')
    | lift_lets
    | with_reducible apply markedO_next
    | with_reducible apply marked_ite
    | with_reducible apply marked_onOwl
    | with_reducible refine marked_foldl ?_ (fun s x h => ?_)
    | (intro x'; clear_value x')
    | intro _
    | dsimp only [s']
    | split

theorem marked_withdraw (a0 : ℕ) (h : Marked m s) :
    Marked m (withdraw a0 s) := by
  unfold withdraw
  repeat' first
    | with_reducible assumption
    | (intro (s : State) (h : Marked m s))
    | (intro _ (s : State) (h : Marked m s))
    | (intro (h : Marked m _))
    | (intro (x : OwlBlock) hx; first | exact ⟨hx.1⟩ | (split <;> exact ⟨hx.1⟩) | exact ⟨fun o ho => hx.1 o (flag_put_false ho)⟩ | exact ⟨fun o ho => (flag_none ho).elim⟩)
    | (intro (s' : State); refine_lift have h : Marked m s' := ?_; ?_; clear_value s')
    | lift_lets
    | with_reducible apply markedO_next
    | with_reducible apply marked_ite
    | with_reducible apply marked_logEv
    | with_reducible apply marked_onOwl
    | with_reducible apply marked_endSession
    | with_reducible apply marked_settleContactors
    | with_reducible refine marked_foldl ?_ (fun s x h => ?_)
    | (intro x'; clear_value x')
    | intro _
    | dsimp only [s']
    | split

theorem marked_decideRelease (a0 : ℕ) (hg : ∀ o, m.released o) (h : Marked m s) :
    Marked m (decideRelease a0 s) := by
  unfold decideRelease
  repeat' first
    | with_reducible assumption
    | (intro (s : State) (h : Marked m s))
    | (intro _ (s : State) (h : Marked m s))
    | (intro (h : Marked m _))
    | (intro (x : OwlBlock) hx; first | exact ⟨hx.1⟩ | (split <;> exact ⟨hx.1⟩) | exact ⟨fun o ho => hx.1 o (flag_put_false ho)⟩ | exact ⟨fun o ho => (flag_none ho).elim⟩)
    | (exact fun _ _ => ⟨fun o _ => hg o⟩)
    | (intro (s' : State); refine_lift have h : Marked m s' := ?_; ?_; clear_value s')
    | lift_lets
    | with_reducible apply markedO_next
    | with_reducible apply marked_ite
    | with_reducible apply marked_withdraw
    | with_reducible apply marked_onGrant
    | with_reducible apply marked_onOwl
    | with_reducible refine marked_foldl ?_ (fun s x h => ?_)
    | (intro x'; clear_value x')
    | intro _
    | dsimp only [s']
    | split

theorem marked_writeCauses  (h : Marked m s) :
    Marked m (writeCauses s) := by
  unfold writeCauses
  repeat' first
    | with_reducible assumption
    | (intro (s : State) (h : Marked m s))
    | (intro _ (s : State) (h : Marked m s))
    | (intro (h : Marked m _))
    | (intro (x : OwlBlock) hx; first | exact ⟨hx.1⟩ | (split <;> exact ⟨hx.1⟩) | exact ⟨fun o ho => hx.1 o (flag_put_false ho)⟩ | exact ⟨fun o ho => (flag_none ho).elim⟩)
    | (intro (s' : State); refine_lift have h : Marked m s' := ?_; ?_; clear_value s')
    | lift_lets
    | with_reducible apply markedO_next
    | with_reducible apply marked_ite
    | with_reducible apply marked_onOwl
    | with_reducible apply marked_onCfg
    | with_reducible refine marked_foldl ?_ (fun s x h => ?_)
    | (intro x'; clear_value x')
    | intro _
    | dsimp only [s']
    | split

theorem marked_owlEvaluate  (hg : ∀ o, m.released o) (h : Marked m s) :
    Marked m (owlEvaluate s) := by
  unfold owlEvaluate
  repeat' first
    | with_reducible assumption
    | (intro (s : State) (h : Marked m s))
    | (intro _ (s : State) (h : Marked m s))
    | (intro (h : Marked m _))
    | (intro (s' : State); refine_lift have h : Marked m s' := ?_; ?_; clear_value s')
    | lift_lets
    | with_reducible apply markedO_next
    | with_reducible apply marked_ite
    | with_reducible apply marked_refreshWithhold
    | with_reducible apply marked_prove
    | with_reducible apply marked_immediateTrips
    | with_reducible apply marked_seeGuards
    | with_reducible apply marked_decideRelease
    | with_reducible apply marked_writeCauses
    | with_reducible apply marked_releaseHeld
    | with_reducible refine marked_foldl ?_ (fun s x h => ?_)
    | (intro x'; clear_value x')
    | intro _
    | dsimp only [s']
    | split

theorem marked_owlReact  (hg : ∀ o, m.released o) (h : Marked m s) :
    Marked m (owlReact s) := by
  unfold owlReact
  repeat' first
    | with_reducible assumption
    | (intro (s : State) (h : Marked m s))
    | (intro _ (s : State) (h : Marked m s))
    | (intro (h : Marked m _))
    | (intro (s' : State); refine_lift have h : Marked m s' := ?_; ?_; clear_value s')
    | lift_lets
    | with_reducible apply markedO_next
    | with_reducible apply marked_ite
    | with_reducible apply marked_owlEvaluate
    | with_reducible apply marked_refreshWithhold
    | with_reducible refine marked_foldl ?_ (fun s x h => ?_)
    | (intro x'; clear_value x')
    | intro _
    | dsimp only [s']
    | split

theorem marked_execOwlCycle  (hg : ∀ o, m.released o) (h : Marked m s) :
    MarkedO m (execOwlCycle s) := by
  unfold execOwlCycle
  repeat' first
    | with_reducible assumption
    | (intro (s : State) (h : Marked m s))
    | (intro _ (s : State) (h : Marked m s))
    | (intro (h : Marked m _))
    | (intro (s' : State); refine_lift have h : Marked m s' := ?_; ?_; clear_value s')
    | lift_lets
    | with_reducible apply markedO_next
    | with_reducible apply marked_ite
    | with_reducible apply markedO_ite
    | with_reducible apply marked_owlReact
    | with_reducible refine marked_foldl ?_ (fun s x h => ?_)
    | (intro x'; clear_value x')
    | intro _
    | dsimp only [s']
    | split

theorem marked_execMeterOkTimeout (a0 : ℕ) (h : Marked m s) :
    MarkedO m (execMeterOkTimeout a0 s) := by
  unfold execMeterOkTimeout
  repeat' first
    | with_reducible assumption
    | (intro (s : State) (h : Marked m s))
    | (intro _ (s : State) (h : Marked m s))
    | (intro (h : Marked m _))
    | (intro (x : OwlBlock) hx; first | exact ⟨hx.1⟩ | (split <;> exact ⟨hx.1⟩) | exact ⟨fun o ho => hx.1 o (flag_put_false ho)⟩ | exact ⟨fun o ho => (flag_none ho).elim⟩)
    | (intro (s' : State); refine_lift have h : Marked m s' := ?_; ?_; clear_value s')
    | lift_lets
    | with_reducible apply markedO_next
    | with_reducible apply marked_ite
    | with_reducible apply markedO_ite
    | with_reducible apply marked_onOwl
    | with_reducible refine marked_foldl ?_ (fun s x h => ?_)
    | (intro x'; clear_value x')
    | intro _
    | dsimp only [s']
    | split

theorem marked_execGuardInputChange (a0 : ℕ) (a1 : Bool) (hg : ∀ o, m.released o) (h : Marked m s) :
    MarkedO m (execGuardInputChange a0 a1 s) := by
  unfold execGuardInputChange
  repeat' first
    | with_reducible assumption
    | (intro (s : State) (h : Marked m s))
    | (intro _ (s : State) (h : Marked m s))
    | (intro (h : Marked m _))
    | (intro (x : OwlBlock) hx; first | exact ⟨hx.1⟩ | (split <;> exact ⟨hx.1⟩) | exact ⟨fun o ho => hx.1 o (flag_put_false ho)⟩ | exact ⟨fun o ho => (flag_none ho).elim⟩)
    | (intro (s' : State); refine_lift have h : Marked m s' := ?_; ?_; clear_value s')
    | lift_lets
    | with_reducible apply markedO_next
    | with_reducible apply marked_ite
    | with_reducible apply markedO_ite
    | with_reducible apply marked_owlReact
    | with_reducible apply marked_onOwl
    | with_reducible refine marked_foldl ?_ (fun s x h => ?_)
    | (intro x'; clear_value x')
    | intro _
    | dsimp only [s']
    | split

theorem marked_execGuardDisagree (a0 : ℕ) (a1 : ℕ) (hg : ∀ o, m.released o) (h : Marked m s) :
    MarkedO m (execGuardDisagree a0 a1 s) := by
  unfold execGuardDisagree
  repeat' first
    | with_reducible assumption
    | (intro (s : State) (h : Marked m s))
    | (intro _ (s : State) (h : Marked m s))
    | (intro (h : Marked m _))
    | (intro (x : OwlBlock) hx; first | exact ⟨hx.1⟩ | (split <;> exact ⟨hx.1⟩) | exact ⟨fun o ho => hx.1 o (flag_put_false ho)⟩ | exact ⟨fun o ho => (flag_none ho).elim⟩)
    | (intro (s' : State); refine_lift have h : Marked m s' := ?_; ?_; clear_value s')
    | lift_lets
    | with_reducible apply markedO_next
    | with_reducible apply marked_ite
    | with_reducible apply markedO_ite
    | with_reducible apply marked_onOwl
    | with_reducible apply marked_owlReact
    | with_reducible apply marked_logEv
    | with_reducible refine marked_foldl ?_ (fun s x h => ?_)
    | (intro x'; clear_value x')
    | intro _
    | dsimp only [s']
    | split

theorem marked_clearByRow (a0 : ℕ) (a1 : ℕ) (a2 : ℕ) (h : Marked m s) :
    Marked m (clearByRow a0 a1 a2 s) := by
  unfold clearByRow
  repeat' first
    | with_reducible assumption
    | (intro (s : State) (h : Marked m s))
    | (intro _ (s : State) (h : Marked m s))
    | (intro (h : Marked m _))
    | (intro (s' : State); refine_lift have h : Marked m s' := ?_; ?_; clear_value s')
    | lift_lets
    | with_reducible apply markedO_next
    | with_reducible apply marked_ite
    | with_reducible apply marked_logEv
    | with_reducible apply marked_clearCauses
    | with_reducible refine marked_foldl ?_ (fun s x h => ?_)
    | (intro x'; clear_value x')
    | intro _
    | dsimp only [s']
    | split

theorem marked_countClear (a0 : ℕ) (h : Marked m s) :
    Marked m (countClear a0 s) := by
  unfold countClear
  repeat' first
    | with_reducible assumption
    | (intro (s : State) (h : Marked m s))
    | (intro _ (s : State) (h : Marked m s))
    | (intro (h : Marked m _))
    | (intro (s' : State); refine_lift have h : Marked m s' := ?_; ?_; clear_value s')
    | lift_lets
    | with_reducible apply markedO_next
    | with_reducible apply marked_ite
    | with_reducible apply marked_onCfg
    | with_reducible refine marked_foldl ?_ (fun s x h => ?_)
    | (intro x'; clear_value x')
    | intro _
    | dsimp only [s']
    | split

theorem marked_execTripAutoclear (a0 : ℕ) (a1 : ℕ) (h : Marked m s) :
    MarkedO m (execTripAutoclear a0 a1 s) := by
  unfold execTripAutoclear
  repeat' first
    | with_reducible assumption
    | (intro (s : State) (h : Marked m s))
    | (intro _ (s : State) (h : Marked m s))
    | (intro (h : Marked m _))
    | (intro (s' : State); refine_lift have h : Marked m s' := ?_; ?_; clear_value s')
    | lift_lets
    | with_reducible apply markedO_next
    | with_reducible apply marked_ite
    | with_reducible apply markedO_ite
    | with_reducible apply marked_clearByRow
    | with_reducible apply marked_countClear
    | with_reducible refine marked_foldl ?_ (fun s x h => ?_)
    | (intro x'; clear_value x')
    | intro _
    | dsimp only [s']
    | split

theorem marked_execAutoclrExpiry (a0 : ℕ) (h : Marked m s) :
    MarkedO m (execAutoclrExpiry a0 s) := by
  unfold execAutoclrExpiry
  repeat' first
    | with_reducible assumption
    | (intro (s : State) (h : Marked m s))
    | (intro _ (s : State) (h : Marked m s))
    | (intro (h : Marked m _))
    | (intro (s' : State); refine_lift have h : Marked m s' := ?_; ?_; clear_value s')
    | lift_lets
    | with_reducible apply markedO_next
    | with_reducible apply marked_ite
    | with_reducible apply markedO_ite
    | with_reducible apply marked_onCfg
    | with_reducible refine marked_foldl ?_ (fun s x h => ?_)
    | (intro x'; clear_value x')
    | intro _
    | dsimp only [s']
    | split

theorem marked_clearAll (a0 : Req) (a1 : ℕ) (h : Marked m s) :
    Marked m (clearAll a0 a1 s) := by
  unfold clearAll
  repeat' first
    | with_reducible assumption
    | (intro (s : State) (h : Marked m s))
    | (intro _ (s : State) (h : Marked m s))
    | (intro (h : Marked m _))
    | (intro (s' : State); refine_lift have h : Marked m s' := ?_; ?_; clear_value s')
    | lift_lets
    | with_reducible apply markedO_next
    | with_reducible apply marked_ite
    | with_reducible apply marked_clearByRow
    | with_reducible apply marked_countClear
    | with_reducible apply marked_changeEntry
    | with_reducible refine marked_foldl ?_ (fun s x h => ?_)
    | (intro x'; clear_value x')
    | intro _
    | dsimp only [s']
    | split

theorem marked_execOwlTripClear (a0 : Req) (a1 : ℕ) (h : Marked m s) :
    MarkedO m (execOwlTripClear a0 a1 s) := by
  unfold execOwlTripClear
  repeat' first
    | with_reducible assumption
    | (intro (s : State) (h : Marked m s))
    | (intro _ (s : State) (h : Marked m s))
    | (intro (h : Marked m _))
    | (intro (s' : State); refine_lift have h : Marked m s' := ?_; ?_; clear_value s')
    | lift_lets
    | with_reducible apply markedO_next
    | with_reducible apply marked_ite
    | with_reducible apply markedO_ite
    | with_reducible apply marked_guarded
    | with_reducible apply marked_postSts
    | with_reducible apply marked_clearAll
    | with_reducible refine marked_foldl ?_ (fun s x h => ?_)
    | (intro x'; clear_value x')
    | intro _
    | dsimp only [s']
    | split

theorem marked_logOwlState (a0 : OwlState) (a1 : OwlState) (a2 : ℕ) (h : Marked m s) :
    Marked m (logOwlState a0 a1 a2 s) := by
  unfold logOwlState
  repeat' first
    | with_reducible assumption
    | (intro (s : State) (h : Marked m s))
    | (intro _ (s : State) (h : Marked m s))
    | (intro (h : Marked m _))
    | (intro (s' : State); refine_lift have h : Marked m s' := ?_; ?_; clear_value s')
    | lift_lets
    | with_reducible apply markedO_next
    | with_reducible apply marked_ite
    | with_reducible apply marked_logEv
    | with_reducible refine marked_foldl ?_ (fun s x h => ?_)
    | (intro x'; clear_value x')
    | intro _
    | dsimp only [s']
    | split

theorem marked_lineDrop  (h : Marked m s) :
    Marked m (lineDrop s) := by
  unfold lineDrop
  repeat' first
    | with_reducible assumption
    | (intro (s : State) (h : Marked m s))
    | (intro _ (s : State) (h : Marked m s))
    | (intro (h : Marked m _))
    | (intro (x : OwlBlock) hx; first | exact ⟨hx.1⟩ | (split <;> exact ⟨hx.1⟩) | exact ⟨fun o ho => hx.1 o (flag_put_false ho)⟩ | exact ⟨fun o ho => (flag_none ho).elim⟩)
    | (intro (s' : State); refine_lift have h : Marked m s' := ?_; ?_; clear_value s')
    | lift_lets
    | with_reducible apply markedO_next
    | with_reducible apply marked_ite
    | with_reducible apply marked_refreshWithhold
    | with_reducible apply marked_withdraw
    | with_reducible apply marked_slacChecks
    | with_reducible apply marked_assertLine
    | with_reducible apply marked_onOwl
    | with_reducible refine marked_foldl ?_ (fun s x h => ?_)
    | (intro x'; clear_value x')
    | intro _
    | dsimp only [s']
    | split

theorem marked_diagFail (a0 : ℕ) (a1 : ℕ) (h : Marked m s) :
    Marked m (diagFail a0 a1 s) := by
  unfold diagFail
  repeat' first
    | with_reducible assumption
    | (intro (s : State) (h : Marked m s))
    | (intro _ (s : State) (h : Marked m s))
    | (intro (h : Marked m _))
    | (intro (x : OwlBlock) hx; first | exact ⟨hx.1⟩ | (split <;> exact ⟨hx.1⟩) | exact ⟨fun o ho => hx.1 o (flag_put_false ho)⟩ | exact ⟨fun o ho => (flag_none ho).elim⟩)
    | (intro (s' : State); refine_lift have h : Marked m s' := ?_; ?_; clear_value s')
    | lift_lets
    | with_reducible apply markedO_next
    | with_reducible apply marked_ite
    | with_reducible apply marked_logEv
    | with_reducible apply marked_onOwl
    | with_reducible apply marked_lineDrop
    | with_reducible apply marked_logOwlState
    | with_reducible refine marked_foldl ?_ (fun s x h => ?_)
    | (intro x'; clear_value x')
    | intro _
    | dsimp only [s']
    | split

theorem marked_cfgDiag (a0 : Bool) (a1 : Bool) (a2 : ℕ) (h : Marked m s) :
    Marked m (cfgDiag a0 a1 a2 s) := by
  unfold cfgDiag
  repeat' first
    | with_reducible assumption
    | (intro (s : State) (h : Marked m s))
    | (intro _ (s : State) (h : Marked m s))
    | (intro (h : Marked m _))
    | (intro (s' : State); refine_lift have h : Marked m s' := ?_; ?_; clear_value s')
    | lift_lets
    | with_reducible apply markedO_next
    | with_reducible apply marked_ite
    | with_reducible apply marked_cfgCheck
    | with_reducible apply marked_diagFail
    | with_reducible refine marked_foldl ?_ (fun s x h => ?_)
    | (intro x'; clear_value x')
    | intro _
    | dsimp only [s']
    | split

theorem marked_execOwlDiagFail (a0 : ℕ) (a1 : ℕ) (h : Marked m s) :
    MarkedO m (execOwlDiagFail a0 a1 s) := by
  unfold execOwlDiagFail
  repeat' first
    | with_reducible assumption
    | (intro (s : State) (h : Marked m s))
    | (intro _ (s : State) (h : Marked m s))
    | (intro (h : Marked m _))
    | (intro (x : OwlBlock) hx; first | exact ⟨hx.1⟩ | (split <;> exact ⟨hx.1⟩) | exact ⟨fun o ho => hx.1 o (flag_put_false ho)⟩ | exact ⟨fun o ho => (flag_none ho).elim⟩)
    | (intro (s' : State); refine_lift have h : Marked m s' := ?_; ?_; clear_value s')
    | lift_lets
    | with_reducible apply markedO_next
    | with_reducible apply marked_ite
    | with_reducible apply markedO_ite
    | with_reducible apply marked_cfgDiag
    | with_reducible apply marked_diagFail
    | with_reducible apply marked_onOwl
    | with_reducible refine marked_foldl ?_ (fun s x h => ?_)
    | (intro x'; clear_value x')
    | intro _
    | dsimp only [s']
    | split

theorem marked_execOwlPeriodicDiag (a0 : ℕ) (a1 : Bool) (a2 : ℕ) (h : Marked m s) :
    MarkedO m (execOwlPeriodicDiag a0 a1 a2 s) := by
  unfold execOwlPeriodicDiag
  repeat' first
    | with_reducible assumption
    | (intro (s : State) (h : Marked m s))
    | (intro _ (s : State) (h : Marked m s))
    | (intro (h : Marked m _))
    | (intro (x : OwlBlock) hx; first | exact ⟨hx.1⟩ | (split <;> exact ⟨hx.1⟩) | exact ⟨fun o ho => hx.1 o (flag_put_false ho)⟩ | exact ⟨fun o ho => (flag_none ho).elim⟩)
    | (intro (s' : State); refine_lift have h : Marked m s' := ?_; ?_; clear_value s')
    | lift_lets
    | with_reducible apply markedO_next
    | with_reducible apply marked_ite
    | with_reducible apply markedO_ite
    | with_reducible apply marked_onOwl
    | with_reducible apply marked_cfgDiag
    | with_reducible apply marked_diagFail
    | with_reducible refine marked_foldl ?_ (fun s x h => ?_)
    | (intro x'; clear_value x')
    | intro _
    | dsimp only [s']
    | split

theorem marked_execOwlWatchdogExpiry  (h : Marked m s) :
    MarkedO m (execOwlWatchdogExpiry s) := by
  unfold execOwlWatchdogExpiry
  repeat' first
    | with_reducible assumption
    | (intro (s : State) (h : Marked m s))
    | (intro _ (s : State) (h : Marked m s))
    | (intro (h : Marked m _))
    | (intro (x : OwlBlock) hx; first | exact ⟨hx.1⟩ | (split <;> exact ⟨hx.1⟩) | exact ⟨fun o ho => hx.1 o (flag_put_false ho)⟩ | exact ⟨fun o ho => (flag_none ho).elim⟩)
    | (intro (s' : State); refine_lift have h : Marked m s' := ?_; ?_; clear_value s')
    | lift_lets
    | with_reducible apply markedO_next
    | with_reducible apply marked_ite
    | with_reducible apply markedO_ite
    | with_reducible apply marked_diagFail
    | with_reducible apply marked_onOwl
    | with_reducible refine marked_foldl ?_ (fun s x h => ?_)
    | (intro x'; clear_value x')
    | intro _
    | dsimp only [s']
    | split

theorem marked_execOwlSafeTimeout  (h : Marked m s) :
    MarkedO m (execOwlSafeTimeout s) := by
  unfold execOwlSafeTimeout
  repeat' first
    | with_reducible assumption
    | (intro (s : State) (h : Marked m s))
    | (intro _ (s : State) (h : Marked m s))
    | (intro (h : Marked m _))
    | (intro (x : OwlBlock) hx; first | exact ⟨hx.1⟩ | (split <;> exact ⟨hx.1⟩) | exact ⟨fun o ho => hx.1 o (flag_put_false ho)⟩ | exact ⟨fun o ho => (flag_none ho).elim⟩)
    | (intro (s' : State); refine_lift have h : Marked m s' := ?_; ?_; clear_value s')
    | lift_lets
    | with_reducible apply markedO_next
    | with_reducible apply marked_ite
    | with_reducible apply markedO_ite
    | with_reducible apply marked_onSys
    | with_reducible apply marked_onOwl
    | with_reducible apply marked_logOwlState
    | with_reducible refine marked_foldl ?_ (fun s x h => ?_)
    | (intro x'; clear_value x')
    | intro _
    | dsimp only [s']
    | split

theorem marked_owlRestore  (h : Marked m s) :
    Marked m (owlRestore s) := by
  unfold owlRestore
  repeat' first
    | with_reducible assumption
    | (intro (s : State) (h : Marked m s))
    | (intro _ (s : State) (h : Marked m s))
    | (intro (h : Marked m _))
    | (intro (x : OwlBlock) hx; first | exact ⟨hx.1⟩ | (split <;> exact ⟨hx.1⟩) | exact ⟨fun o ho => hx.1 o (flag_put_false ho)⟩ | exact ⟨fun o ho => (flag_none ho).elim⟩)
    | (intro (s' : State); refine_lift have h : Marked m s' := ?_; ?_; clear_value s')
    | lift_lets
    | with_reducible apply markedO_next
    | with_reducible apply marked_ite
    | with_reducible apply marked_onOwl
    | with_reducible refine marked_foldl ?_ (fun s x h => ?_)
    | (intro x'; clear_value x')
    | intro _
    | dsimp only [s']
    | split

theorem marked_startOutlet (a0 : ℕ) (h : Marked m s) :
    Marked m (startOutlet a0 s) := by
  unfold startOutlet
  repeat' first
    | with_reducible assumption
    | (intro (s : State) (h : Marked m s))
    | (intro _ (s : State) (h : Marked m s))
    | (intro (h : Marked m _))
    | (intro (s' : State); refine_lift have h : Marked m s' := ?_; ?_; clear_value s')
    | lift_lets
    | with_reducible apply markedO_next
    | with_reducible apply marked_ite
    | with_reducible apply marked_beginPostOpen
    | with_reducible apply marked_requestLock
    | with_reducible refine marked_foldl ?_ (fun s x h => ?_)
    | (intro x'; clear_value x')
    | intro _
    | dsimp only [s']
    | split

theorem marked_execOwlStartComplete  (h : Marked m s) :
    MarkedO m (execOwlStartComplete s) := by
  unfold execOwlStartComplete
  repeat' first
    | with_reducible assumption
    | (intro (s : State) (h : Marked m s))
    | (intro _ (s : State) (h : Marked m s))
    | (intro (h : Marked m _))
    | (intro (x : OwlBlock) hx; first | exact ⟨hx.1⟩ | (split <;> exact ⟨hx.1⟩) | exact ⟨fun o ho => hx.1 o (flag_put_false ho)⟩ | exact ⟨fun o ho => (flag_none ho).elim⟩)
    | (intro (s' : State); refine_lift have h : Marked m s' := ?_; ?_; clear_value s')
    | lift_lets
    | with_reducible apply markedO_next
    | with_reducible apply marked_ite
    | with_reducible apply markedO_ite
    | with_reducible apply marked_owlRestore
    | with_reducible apply marked_onOwl
    | with_reducible apply marked_logOwlState
    | with_reducible apply marked_startOutlet
    | with_reducible apply marked_settleAll
    | with_reducible apply marked_refreshWithhold
    | with_reducible apply marked_offerChanged
    | with_reducible refine marked_foldl ?_ (fun s x h => ?_)
    | (intro x'; clear_value x')
    | intro _
    | dsimp only [s']
    | split

theorem marked_pwFail (a0 : Req) (h : Marked m s) :
    Marked m (pwFail a0 s) := by
  unfold pwFail
  repeat' first
    | with_reducible assumption
    | (intro (s : State) (h : Marked m s))
    | (intro _ (s : State) (h : Marked m s))
    | (intro (h : Marked m _))
    | (intro (s' : State); refine_lift have h : Marked m s' := ?_; ?_; clear_value s')
    | lift_lets
    | with_reducible apply markedO_next
    | with_reducible apply marked_ite
    | with_reducible apply marked_logEv
    | with_reducible apply marked_onCfg
    | with_reducible refine marked_foldl ?_ (fun s x h => ?_)
    | (intro x'; clear_value x')
    | intro _
    | dsimp only [s']
    | split

theorem marked_pwSuccess  (h : Marked m s) :
    Marked m (pwSuccess s) := by
  unfold pwSuccess
  repeat' first
    | with_reducible assumption
    | (intro (s : State) (h : Marked m s))
    | (intro _ (s : State) (h : Marked m s))
    | (intro (h : Marked m _))
    | (intro (s' : State); refine_lift have h : Marked m s' := ?_; ?_; clear_value s')
    | lift_lets
    | with_reducible apply markedO_next
    | with_reducible apply marked_ite
    | with_reducible apply marked_onCfg
    | with_reducible refine marked_foldl ?_ (fun s x h => ?_)
    | (intro x'; clear_value x')
    | intro _
    | dsimp only [s']
    | split

theorem marked_execOwlPwProve (a0 : Req) (a1 : Bytes) (h : Marked m s) :
    MarkedO m (execOwlPwProve a0 a1 s) := by
  unfold execOwlPwProve
  repeat' first
    | with_reducible assumption
    | (intro (s : State) (h : Marked m s))
    | (intro _ (s : State) (h : Marked m s))
    | (intro (h : Marked m _))
    | (intro (x : OwlBlock) hx; first | exact ⟨hx.1⟩ | (split <;> exact ⟨hx.1⟩) | exact ⟨fun o ho => hx.1 o (flag_put_false ho)⟩ | exact ⟨fun o ho => (flag_none ho).elim⟩)
    | (intro (s' : State); refine_lift have h : Marked m s' := ?_; ?_; clear_value s')
    | lift_lets
    | with_reducible apply markedO_next
    | with_reducible apply marked_ite
    | with_reducible apply markedO_ite
    | with_reducible apply marked_guarded
    | with_reducible apply marked_postSts
    | with_reducible apply marked_onOwl
    | with_reducible apply marked_pwSuccess
    | with_reducible apply marked_pwFail
    | with_reducible refine marked_foldl ?_ (fun s x h => ?_)
    | (intro x'; clear_value x')
    | intro _
    | dsimp only [s']
    | split

theorem marked_setVerifier (a0 : Bytes) (h : Marked m s) :
    Marked m (setVerifier a0 s) := by
  unfold setVerifier
  repeat' first
    | with_reducible assumption
    | (intro (s : State) (h : Marked m s))
    | (intro _ (s : State) (h : Marked m s))
    | (intro (h : Marked m _))
    | (intro (s' : State); refine_lift have h : Marked m s' := ?_; ?_; clear_value s')
    | lift_lets
    | with_reducible apply markedO_next
    | with_reducible apply marked_ite
    | with_reducible apply marked_bump
    | with_reducible apply marked_onCfg
    | with_reducible refine marked_foldl ?_ (fun s x h => ?_)
    | (intro x'; clear_value x')
    | intro _
    | dsimp only [s']
    | split

theorem marked_execOwlPwSet (a0 : Req) (a1 : Bytes) (a2 : Bytes) (h : Marked m s) :
    MarkedO m (execOwlPwSet a0 a1 a2 s) := by
  unfold execOwlPwSet
  repeat' first
    | with_reducible assumption
    | (intro (s : State) (h : Marked m s))
    | (intro _ (s : State) (h : Marked m s))
    | (intro (h : Marked m _))
    | (intro (s' : State); refine_lift have h : Marked m s' := ?_; ?_; clear_value s')
    | lift_lets
    | with_reducible apply markedO_next
    | with_reducible apply marked_ite
    | with_reducible apply markedO_ite
    | with_reducible apply marked_guarded
    | with_reducible apply marked_postSts
    | with_reducible apply marked_pwFail
    | with_reducible apply marked_changeEntry
    | with_reducible apply marked_setVerifier
    | with_reducible apply marked_pwSuccess
    | with_reducible refine marked_foldl ?_ (fun s x h => ?_)
    | (intro x'; clear_value x')
    | intro _
    | dsimp only [s']
    | split

theorem marked_execOwlPwEnd (a0 : Req) (h : Marked m s) :
    MarkedO m (execOwlPwEnd a0 s) := by
  unfold execOwlPwEnd
  repeat' first
    | with_reducible assumption
    | (intro (s : State) (h : Marked m s))
    | (intro _ (s : State) (h : Marked m s))
    | (intro (h : Marked m _))
    | (intro (x : OwlBlock) hx; first | exact ⟨hx.1⟩ | (split <;> exact ⟨hx.1⟩) | exact ⟨fun o ho => hx.1 o (flag_put_false ho)⟩ | exact ⟨fun o ho => (flag_none ho).elim⟩)
    | (intro (s' : State); refine_lift have h : Marked m s' := ?_; ?_; clear_value s')
    | lift_lets
    | with_reducible apply markedO_next
    | with_reducible apply marked_ite
    | with_reducible apply markedO_ite
    | with_reducible apply marked_guarded
    | with_reducible apply marked_postSts
    | with_reducible apply marked_onOwl
    | with_reducible refine marked_foldl ?_ (fun s x h => ?_)
    | (intro x'; clear_value x')
    | intro _
    | dsimp only [s']
    | split

theorem marked_execSafetySessionExpiry  (h : Marked m s) :
    MarkedO m (execSafetySessionExpiry s) := by
  unfold execSafetySessionExpiry
  repeat' first
    | with_reducible assumption
    | (intro (s : State) (h : Marked m s))
    | (intro _ (s : State) (h : Marked m s))
    | (intro (h : Marked m _))
    | (intro (x : OwlBlock) hx; first | exact ⟨hx.1⟩ | (split <;> exact ⟨hx.1⟩) | exact ⟨fun o ho => hx.1 o (flag_put_false ho)⟩ | exact ⟨fun o ho => (flag_none ho).elim⟩)
    | (intro (s' : State); refine_lift have h : Marked m s' := ?_; ?_; clear_value s')
    | lift_lets
    | with_reducible apply markedO_next
    | with_reducible apply marked_ite
    | with_reducible apply markedO_ite
    | with_reducible apply marked_onOwl
    | with_reducible refine marked_foldl ?_ (fun s x h => ?_)
    | (intro x'; clear_value x')
    | intro _
    | dsimp only [s']
    | split

theorem marked_execPwLockoutEnd  (h : Marked m s) :
    MarkedO m (execPwLockoutEnd s) := by
  unfold execPwLockoutEnd
  repeat' first
    | with_reducible assumption
    | (intro (s : State) (h : Marked m s))
    | (intro _ (s : State) (h : Marked m s))
    | (intro (h : Marked m _))
    | (intro (s' : State); refine_lift have h : Marked m s' := ?_; ?_; clear_value s')
    | lift_lets
    | with_reducible apply markedO_next
    | with_reducible apply marked_ite
    | with_reducible apply markedO_ite
    | with_reducible apply marked_onCfg
    | with_reducible refine marked_foldl ?_ (fun s x h => ?_)
    | (intro x'; clear_value x')
    | intro _
    | dsimp only [s']
    | split

theorem marked_execOwlLogRead (a0 : Req) (a1 : ℕ) (h : Marked m s) :
    MarkedO m (execOwlLogRead a0 a1 s) := by
  unfold execOwlLogRead
  repeat' first
    | with_reducible assumption
    | (intro (s : State) (h : Marked m s))
    | (intro _ (s : State) (h : Marked m s))
    | (intro (h : Marked m _))
    | (intro (s' : State); refine_lift have h : Marked m s' := ?_; ?_; clear_value s')
    | lift_lets
    | with_reducible apply markedO_next
    | with_reducible apply marked_ite
    | with_reducible apply markedO_ite
    | with_reducible apply marked_guarded
    | with_reducible apply marked_post
    | with_reducible refine marked_foldl ?_ (fun s x h => ?_)
    | (intro x'; clear_value x')
    | intro _
    | dsimp only [s']
    | split

end Sys2Proof.Machine
end

