-- ==== Sys2Proof/Laws/MarkedEfdom.lean ====
section
/-! SUPPORT. The operations of Efdom.lean take no mark back. -/

set_option linter.unusedVariables false
set_option linter.unreachableTactic false
set_option linter.unusedTactic false

namespace Sys2Proof.Machine

variable {m : Marks} {s : State}

theorem marked_onConn (a0 : ℕ) (a1 : EfdomConn → EfdomConn) (h : Marked m s) :
    Marked m (onConn a0 a1 s) := by
  unfold onConn
  repeat' first
    | with_reducible assumption
    | (intro (s : State) (h : Marked m s))
    | (intro _ (s : State) (h : Marked m s))
    | (intro (h : Marked m _))
    | (intro (x : OwlBlock) hx; first | exact ⟨hx.1⟩ | (split <;> exact ⟨hx.1⟩) | exact ⟨fun o ho => hx.1 o (flag_put_false ho)⟩ | exact ⟨fun o ho => (flag_none ho).elim⟩)
    | (intro (s' : State); refine_lift have h : Marked m s' := ?_; ?_; clear_value s')
    | lift_lets
    | with_reducible apply markedO_next
    | with_reducible apply marked_ite
    | with_reducible apply marked_onOwl
    | with_reducible refine marked_foldl ?_ (fun s x h => ?_)
    | (intro x'; clear_value x')
    | intro _
    | dsimp only [s']
    | split

theorem marked_setConn (a0 : ℕ) (a1 : EfdomState) (a2 : ℕ) (h : Marked m s) :
    Marked m (setConn a0 a1 a2 s) := by
  unfold setConn
  repeat' first
    | with_reducible assumption
    | (intro (s : State) (h : Marked m s))
    | (intro _ (s : State) (h : Marked m s))
    | (intro (h : Marked m _))
    | (intro (s' : State); refine_lift have h : Marked m s' := ?_; ?_; clear_value s')
    | lift_lets
    | with_reducible apply markedO_next
    | with_reducible apply marked_ite
    | with_reducible apply marked_logEv
    | with_reducible apply marked_onConn
    | with_reducible refine marked_foldl ?_ (fun s x h => ?_)
    | (intro x'; clear_value x')
    | intro _
    | dsimp only [s']
    | split

theorem marked_staleDiscard (a0 : ℕ) (h : Marked m s) :
    Marked m (staleDiscard a0 s) := by
  unfold staleDiscard
  repeat' first
    | with_reducible assumption
    | (intro (s : State) (h : Marked m s))
    | (intro _ (s : State) (h : Marked m s))
    | (intro (h : Marked m _))
    | (intro (s' : State); refine_lift have h : Marked m s' := ?_; ?_; clear_value s')
    | lift_lets
    | with_reducible apply markedO_next
    | with_reducible apply marked_ite
    | with_reducible apply marked_onConn
    | with_reducible refine marked_foldl ?_ (fun s x h => ?_)
    | (intro x'; clear_value x')
    | intro _
    | dsimp only [s']
    | split

theorem marked_acceptFrame (a0 : ℕ) (a1 : ℕ) (a2 : ℕ) (a3 : ℕ) (h : Marked m s) :
    Marked m (acceptFrame a0 a1 a2 a3 s) := by
  unfold acceptFrame
  repeat' first
    | with_reducible assumption
    | (intro (s : State) (h : Marked m s))
    | (intro _ (s : State) (h : Marked m s))
    | (intro (h : Marked m _))
    | (intro (s' : State); refine_lift have h : Marked m s' := ?_; ?_; clear_value s')
    | lift_lets
    | with_reducible apply markedO_next
    | with_reducible apply marked_ite
    | with_reducible apply marked_onConn
    | with_reducible refine marked_foldl ?_ (fun s x h => ?_)
    | (intro x'; clear_value x')
    | intro _
    | dsimp only [s']
    | split

theorem marked_receiveOn (a0 : ℕ) (a1 : Bytes) (h : Marked m s) :
    Marked m (receiveOn a0 a1 s) := by
  unfold receiveOn
  repeat' first
    | with_reducible assumption
    | (intro (s : State) (h : Marked m s))
    | (intro _ (s : State) (h : Marked m s))
    | (intro (h : Marked m _))
    | (intro (s' : State); refine_lift have h : Marked m s' := ?_; ?_; clear_value s')
    | lift_lets
    | with_reducible apply markedO_next
    | with_reducible apply marked_ite
    | with_reducible apply marked_onConn
    | with_reducible apply marked_setConn
    | with_reducible apply marked_acceptFrame
    | with_reducible apply marked_staleDiscard
    | with_reducible apply marked_logEv
    | with_reducible refine marked_foldl ?_ (fun s x h => ?_)
    | (intro x'; clear_value x')
    | intro _
    | dsimp only [s']
    | split

theorem marked_countAnon (a0 : ℕ) (a1 : EfdomConn → EfdomConn) (h : Marked m s) :
    Marked m (countAnon a0 a1 s) := by
  unfold countAnon
  repeat' first
    | with_reducible assumption
    | (intro (s : State) (h : Marked m s))
    | (intro _ (s : State) (h : Marked m s))
    | (intro (h : Marked m _))
    | (intro (s' : State); refine_lift have h : Marked m s' := ?_; ?_; clear_value s')
    | lift_lets
    | with_reducible apply markedO_next
    | with_reducible apply marked_ite
    | with_reducible apply marked_bump
    | with_reducible apply marked_onConn
    | with_reducible refine marked_foldl ?_ (fun s x h => ?_)
    | (intro x'; clear_value x')
    | intro _
    | dsimp only [s']
    | split

theorem marked_efdomReceive (a0 : ℕ) (a1 : Bytes) (h : Marked m s) :
    Marked m (efdomReceive a0 a1 s) := by
  unfold efdomReceive
  repeat' first
    | with_reducible assumption
    | (intro (s : State) (h : Marked m s))
    | (intro _ (s : State) (h : Marked m s))
    | (intro (h : Marked m _))
    | (intro (x : OwlBlock) hx; first | exact ⟨hx.1⟩ | (split <;> exact ⟨hx.1⟩) | exact ⟨fun o ho => hx.1 o (flag_put_false ho)⟩ | exact ⟨fun o ho => (flag_none ho).elim⟩)
    | (intro (s' : State); refine_lift have h : Marked m s' := ?_; ?_; clear_value s')
    | lift_lets
    | with_reducible apply markedO_next
    | with_reducible apply marked_ite
    | with_reducible apply marked_countAnon
    | with_reducible apply marked_receiveOn
    | with_reducible apply marked_logEv
    | with_reducible apply marked_onOwl
    | with_reducible refine marked_foldl ?_ (fun s x h => ?_)
    | (intro x'; clear_value x')
    | intro _
    | dsimp only [s']
    | split

theorem marked_execEfdomFrameReceive (a0 : ℕ) (a1 : Bytes) (h : Marked m s) :
    MarkedO m (execEfdomFrameReceive a0 a1 s) := by
  unfold execEfdomFrameReceive
  repeat' first
    | with_reducible assumption
    | (intro (s : State) (h : Marked m s))
    | (intro _ (s : State) (h : Marked m s))
    | (intro (h : Marked m _))
    | (intro (s' : State); refine_lift have h : Marked m s' := ?_; ?_; clear_value s')
    | lift_lets
    | with_reducible apply markedO_next
    | with_reducible apply marked_ite
    | with_reducible apply markedO_ite
    | with_reducible apply marked_efdomReceive
    | with_reducible refine marked_foldl ?_ (fun s x h => ?_)
    | (intro x'; clear_value x')
    | intro _
    | dsimp only [s']
    | split

theorem marked_execEfdomWatchdogExpiry (a0 : ℕ) (h : Marked m s) :
    MarkedO m (execEfdomWatchdogExpiry a0 s) := by
  unfold execEfdomWatchdogExpiry
  repeat' first
    | with_reducible assumption
    | (intro (s : State) (h : Marked m s))
    | (intro _ (s : State) (h : Marked m s))
    | (intro (h : Marked m _))
    | (intro (s' : State); refine_lift have h : Marked m s' := ?_; ?_; clear_value s')
    | lift_lets
    | with_reducible apply markedO_next
    | with_reducible apply marked_ite
    | with_reducible apply markedO_ite
    | with_reducible apply marked_setConn
    | with_reducible apply marked_onConn
    | with_reducible refine marked_foldl ?_ (fun s x h => ?_)
    | (intro x'; clear_value x')
    | intro _
    | dsimp only [s']
    | split

theorem marked_handOver (a0 : EfdomRec) (a1 : Bytes) (h : Marked m s) :
    Marked m (handOver a0 a1 s) := by
  unfold handOver
  repeat' first
    | with_reducible assumption
    | (intro (s : State) (h : Marked m s))
    | (intro _ (s : State) (h : Marked m s))
    | (intro (h : Marked m _))
    | (intro (s' : State); refine_lift have h : Marked m s' := ?_; ?_; clear_value s')
    | lift_lets
    | with_reducible apply markedO_next
    | with_reducible apply marked_ite
    | with_reducible apply marked_bump
    | with_reducible apply marked_onCan
    | with_reducible apply marked_onEth
    | with_reducible apply marked_onGlk
    | with_reducible refine marked_foldl ?_ (fun s x h => ?_)
    | (intro x'; clear_value x')
    | intro _
    | dsimp only [s']
    | split

theorem marked_execEfdomTransmit (a0 : ℕ) (h : Marked m s) :
    MarkedO m (execEfdomTransmit a0 s) := by
  unfold execEfdomTransmit
  repeat' first
    | with_reducible assumption
    | (intro (s : State) (h : Marked m s))
    | (intro _ (s : State) (h : Marked m s))
    | (intro (h : Marked m _))
    | (intro (s' : State); refine_lift have h : Marked m s' := ?_; ?_; clear_value s')
    | lift_lets
    | with_reducible apply markedO_next
    | with_reducible apply marked_ite
    | with_reducible apply markedO_ite
    | with_reducible apply marked_bump
    | with_reducible apply marked_handOver
    | with_reducible apply marked_onConn
    | with_reducible refine marked_foldl ?_ (fun s x h => ?_)
    | (intro x'; clear_value x')
    | intro _
    | dsimp only [s']
    | split

theorem marked_execOwlEfdomSet (a0 : Req) (a1 : Bytes) (h : Marked m s) :
    MarkedO m (execOwlEfdomSet a0 a1 s) := by
  unfold execOwlEfdomSet
  repeat' first
    | with_reducible assumption
    | (intro (s : State) (h : Marked m s))
    | (intro _ (s : State) (h : Marked m s))
    | (intro (h : Marked m _))
    | (intro (s' : State); refine_lift have h : Marked m s' := ?_; ?_; clear_value s')
    | lift_lets
    | with_reducible apply markedO_next
    | with_reducible apply marked_ite
    | with_reducible apply markedO_ite
    | with_reducible apply marked_guarded
    | with_reducible apply marked_onCfg
    | with_reducible apply marked_onConn
    | with_reducible apply marked_postSts
    | with_reducible apply marked_changeEntry
    | with_reducible refine marked_foldl ?_ (fun s x h => ?_)
    | (intro x'; clear_value x')
    | intro _
    | dsimp only [s']
    | split

end Sys2Proof.Machine
end

