-- ==== Sys2Proof/Laws/MarkedReset.lean ====
section
/-! SUPPORT. The operations of Reset.lean take no mark back. -/

set_option linter.unusedVariables false
set_option linter.unreachableTactic false
set_option linter.unusedTactic false

namespace Sys2Proof.Machine

variable {m : Marks} {s : State}

theorem marked_outputsSafe  (h : Marked m s) :
    Marked m (outputsSafe s) := by
  unfold outputsSafe
  repeat' first
    | with_reducible assumption
    | (intro (s : State) (h : Marked m s))
    | (intro _ (s : State) (h : Marked m s))
    | (intro (h : Marked m _))
    | (intro (x : OwlBlock) hx; first | exact ⟨hx.1⟩ | (split <;> exact ⟨hx.1⟩) | exact ⟨fun o ho => hx.1 o (flag_put_false ho)⟩ | exact ⟨fun o ho => (flag_none ho).elim⟩)
    | (intro (s' : State); refine_lift have h : Marked m s' := ?_; ?_; clear_value s')
    | lift_lets
    | with_reducible apply markedO_next
    | with_reducible apply marked_ite
    | with_reducible apply marked_onOwl
    | with_reducible apply marked_onPwr
    | with_reducible apply marked_onLinks
    | with_reducible refine marked_foldl ?_ (fun s x h => ?_)
    | (intro x'; clear_value x')
    | intro _
    | dsimp only [s']
    | split

theorem marked_assertReset (a0 : Bool) (a1 : ℕ) (a2 : Bool) (h : Marked m s) :
    Marked m (assertReset a0 a1 a2 s) := by
  unfold assertReset
  repeat' first
    | with_reducible assumption
    | (intro (s : State) (h : Marked m s))
    | (intro _ (s : State) (h : Marked m s))
    | (intro (h : Marked m _))
    | (intro (s' : State); refine_lift have h : Marked m s' := ?_; ?_; clear_value s')
    | lift_lets
    | with_reducible apply markedO_next
    | with_reducible apply marked_ite
    | with_reducible apply marked_saveRtc
    | with_reducible apply marked_onMet
    | with_reducible apply marked_onHsi
    | with_reducible apply marked_onSys
    | with_reducible apply marked_outputsSafe
    | with_reducible refine marked_foldl ?_ (fun s x h => ?_)
    | (intro x'; clear_value x')
    | intro _
    | dsimp only [s']
    | split

theorem marked_requestReset (a0 : Bool) (a1 : ℕ) (h : Marked m s) :
    Marked m (requestReset a0 a1 s) := by
  unfold requestReset
  repeat' first
    | with_reducible assumption
    | (intro (s : State) (h : Marked m s))
    | (intro _ (s : State) (h : Marked m s))
    | (intro (h : Marked m _))
    | (intro (s' : State); refine_lift have h : Marked m s' := ?_; ?_; clear_value s')
    | lift_lets
    | with_reducible apply markedO_next
    | with_reducible apply marked_ite
    | with_reducible apply marked_onSys
    | with_reducible refine marked_foldl ?_ (fun s x h => ?_)
    | (intro x'; clear_value x')
    | intro _
    | dsimp only [s']
    | split

end Sys2Proof.Machine
end

