-- ==== Sys2Proof/Laws/MarkedKeys.lean ====
section
/-! SUPPORT. The operations of Keys.lean take no mark back. -/

set_option linter.unusedVariables false
set_option linter.unreachableTactic false
set_option linter.unusedTactic false

namespace Sys2Proof.Machine

variable {m : Marks} {s : State}

theorem marked_loadSlot (a0 : ℕ) (h : Marked m s) :
    Marked m (loadSlot a0 s) := by
  unfold loadSlot
  repeat' first
    | with_reducible assumption
    | (intro (s : State) (h : Marked m s))
    | (intro _ (s : State) (h : Marked m s))
    | (intro (h : Marked m _))
    | (intro (x : KeyBlock) hx; first | exact hx | (split <;> exact hx))
    | (intro (s' : State); refine_lift have h : Marked m s' := ?_; ?_; clear_value s')
    | lift_lets
    | with_reducible apply markedO_next
    | with_reducible apply marked_ite
    | with_reducible apply marked_onKey
    | with_reducible apply marked_logEv
    | with_reducible refine marked_foldl ?_ (fun s x h => ?_)
    | (intro x'; clear_value x')
    | intro _
    | dsimp only [s']
    | split

theorem marked_loadSlots  (h : Marked m s) :
    Marked m (loadSlots s) := by
  unfold loadSlots
  repeat' first
    | with_reducible assumption
    | (intro (s : State) (h : Marked m s))
    | (intro _ (s : State) (h : Marked m s))
    | (intro (h : Marked m _))
    | (intro (x : KeyBlock) hx; first | exact hx | (split <;> exact hx))
    | (intro (s' : State); refine_lift have h : Marked m s' := ?_; ?_; clear_value s')
    | lift_lets
    | with_reducible apply markedO_next
    | with_reducible apply marked_ite
    | with_reducible apply marked_onKey
    | with_reducible apply marked_loadSlot
    | with_reducible refine marked_foldl ?_ (fun s x h => ?_)
    | (intro x'; clear_value x')
    | intro _
    | dsimp only [s']
    | split

theorem marked_deriveSlots  (h : Marked m s) :
    Marked m (deriveSlots s) := by
  unfold deriveSlots
  repeat' first
    | with_reducible assumption
    | (intro (s : State) (h : Marked m s))
    | (intro _ (s : State) (h : Marked m s))
    | (intro (h : Marked m _))
    | (intro (x : KeyBlock) hx; first | exact hx | (split <;> exact hx))
    | (intro (s' : State); refine_lift have h : Marked m s' := ?_; ?_; clear_value s')
    | lift_lets
    | with_reducible apply markedO_next
    | with_reducible apply marked_ite
    | with_reducible apply marked_onKey
    | with_reducible refine marked_foldl ?_ (fun s x h => ?_)
    | (intro x'; clear_value x')
    | intro _
    | dsimp only [s']
    | split

theorem marked_slotsChanged  (h : Marked m s) :
    Marked m (slotsChanged s) := by
  unfold slotsChanged
  repeat' first
    | with_reducible assumption
    | (intro (s : State) (h : Marked m s))
    | (intro _ (s : State) (h : Marked m s))
    | (intro (h : Marked m _))
    | (intro (s' : State); refine_lift have h : Marked m s' := ?_; ?_; clear_value s')
    | lift_lets
    | with_reducible apply markedO_next
    | with_reducible apply marked_ite
    | with_reducible apply marked_ctRefresh
    | with_reducible apply marked_glkGate
    | with_reducible refine marked_foldl ?_ (fun s x h => ?_)
    | (intro x'; clear_value x')
    | intro _
    | dsimp only [s']
    | split

theorem marked_freshSeed  (h : Marked m s) :
    Marked m (freshSeed s) := by
  unfold freshSeed
  repeat' first
    | with_reducible assumption
    | (intro (s : State) (h : Marked m s))
    | (intro _ (s : State) (h : Marked m s))
    | (intro (h : Marked m _))
    | (intro (x : KeyBlock) hx; first | exact hx | (split <;> exact hx))
    | (intro (s' : State); refine_lift have h : Marked m s' := ?_; ?_; clear_value s')
    | lift_lets
    | with_reducible apply markedO_next
    | with_reducible apply marked_ite
    | with_reducible apply marked_bump
    | with_reducible apply marked_onKey
    | with_reducible refine marked_foldl ?_ (fun s x h => ?_)
    | (intro x'; clear_value x')
    | intro _
    | dsimp only [s']
    | split

theorem marked_installKey (a0 : ℕ) (a1 : KeySlot) (a2 : ℕ) (h : Marked m s) :
    Marked m (installKey a0 a1 a2 s) := by
  unfold installKey
  repeat' first
    | with_reducible assumption
    | (intro (s : State) (h : Marked m s))
    | (intro _ (s : State) (h : Marked m s))
    | (intro (h : Marked m _))
    | (intro (x : KeyBlock) hx; first | exact hx | (split <;> exact hx))
    | (intro (s' : State); refine_lift have h : Marked m s' := ?_; ?_; clear_value s')
    | lift_lets
    | with_reducible apply markedO_next
    | with_reducible apply marked_ite
    | with_reducible apply marked_freshSeed
    | with_reducible apply marked_bump
    | with_reducible apply marked_onKey
    | with_reducible refine marked_foldl ?_ (fun s x h => ?_)
    | (intro x'; clear_value x')
    | intro _
    | dsimp only [s']
    | split

theorem marked_eraseKey (a0 : ℕ) (h : Marked m s) :
    Marked m (eraseKey a0 s) := by
  unfold eraseKey
  repeat' first
    | with_reducible assumption
    | (intro (s : State) (h : Marked m s))
    | (intro _ (s : State) (h : Marked m s))
    | (intro (h : Marked m _))
    | (intro (x : KeyBlock) hx; first | exact hx | (split <;> exact hx))
    | (intro (s' : State); refine_lift have h : Marked m s' := ?_; ?_; clear_value s')
    | lift_lets
    | with_reducible apply markedO_next
    | with_reducible apply marked_ite
    | with_reducible apply marked_onKey
    | with_reducible refine marked_foldl ?_ (fun s x h => ?_)
    | (intro x'; clear_value x')
    | intro _
    | dsimp only [s']
    | split

theorem marked_zeroise (a0 : ℕ) (h : Marked m s) :
    Marked m (zeroise a0 s) := by
  unfold zeroise
  repeat' first
    | with_reducible assumption
    | (intro (s : State) (h : Marked m s))
    | (intro _ (s : State) (h : Marked m s))
    | (intro (h : Marked m _))
    | (intro (x : KeyBlock) hx; first | exact hx | (split <;> exact hx))
    | (intro (s' : State); refine_lift have h : Marked m s' := ?_; ?_; clear_value s')
    | lift_lets
    | with_reducible apply markedO_next
    | with_reducible apply marked_ite
    | with_reducible apply marked_onKey
    | with_reducible apply marked_slotsChanged
    | with_reducible apply marked_logEv
    | with_reducible refine marked_foldl ?_ (fun s x h => ?_)
    | (intro x'; clear_value x')
    | intro _
    | dsimp only [s']
    | split

theorem marked_tamperAct (a0 : ℕ) (h : Marked m s) :
    Marked m (tamperAct a0 s) := by
  unfold tamperAct
  repeat' first
    | with_reducible assumption
    | (intro (s : State) (h : Marked m s))
    | (intro _ (s : State) (h : Marked m s))
    | (intro (h : Marked m _))
    | (intro (x : KeyBlock) hx; first | exact hx | (split <;> exact hx))
    | (intro (s' : State); refine_lift have h : Marked m s' := ?_; ?_; clear_value s')
    | lift_lets
    | with_reducible apply markedO_next
    | with_reducible apply marked_ite
    | with_reducible apply marked_onKey
    | with_reducible apply marked_logEv
    | with_reducible apply marked_zeroise
    | with_reducible refine marked_foldl ?_ (fun s x h => ?_)
    | (intro x'; clear_value x')
    | intro _
    | dsimp only [s']
    | split

theorem marked_logLc (a0 : Lc) (a1 : Lc) (a2 : ℕ) (a3 : ℕ) (h : Marked m s) :
    Marked m (logLc a0 a1 a2 a3 s) := by
  unfold logLc
  repeat' first
    | with_reducible assumption
    | (intro (s : State) (h : Marked m s))
    | (intro _ (s : State) (h : Marked m s))
    | (intro (h : Marked m _))
    | (intro (s' : State); refine_lift have h : Marked m s' := ?_; ?_; clear_value s')
    | lift_lets
    | with_reducible apply markedO_next
    | with_reducible apply marked_ite
    | with_reducible apply marked_logEv
    | with_reducible refine marked_foldl ?_ (fun s x h => ?_)
    | (intro x'; clear_value x')
    | intro _
    | dsimp only [s']
    | split

theorem marked_wipeClass (a0 : Bool) (h : Marked m s) :
    Marked m (wipeClass a0 s) := by
  unfold wipeClass
  repeat' first
    | with_reducible assumption
    | (intro (s : State) (h : Marked m s))
    | (intro _ (s : State) (h : Marked m s))
    | (intro (h : Marked m _))
    | (intro (x : KeyBlock) hx; first | exact hx | (split <;> exact hx))
    | (intro (x : UpdBlock) hx; first | exact ⟨hx.1⟩ | (split <;> exact ⟨hx.1⟩))
    | (intro (x : OwlBlock) hx; first | exact ⟨hx.1⟩ | (split <;> exact ⟨hx.1⟩) | exact ⟨fun o ho => hx.1 o (flag_put_false ho)⟩ | exact ⟨fun o ho => (flag_none ho).elim⟩)
    | (intro (s' : State); refine_lift have h : Marked m s' := ?_; ?_; clear_value s')
    | lift_lets
    | with_reducible apply markedO_next
    | with_reducible apply marked_ite
    | with_reducible apply marked_onKey
    | with_reducible apply marked_freshSeed
    | with_reducible apply marked_onUpd
    | with_reducible apply marked_onOwl
    | with_reducible apply marked_onCfg
    | with_reducible apply marked_wipeCache
    | with_reducible apply marked_changeEntry
    | with_reducible refine marked_foldl ?_ (fun s x h => ?_)
    | (intro x'; clear_value x')
    | intro _
    | dsimp only [s']
    | split

theorem marked_writeLc (a0 : Lc) (a1 : Bytes) (a2 : Bytes) (a3 : Bool) (h : Marked m s) :
    Marked m (writeLc a0 a1 a2 a3 s) := by
  unfold writeLc
  repeat' first
    | with_reducible assumption
    | (intro (s : State) (h : Marked m s))
    | (intro _ (s : State) (h : Marked m s))
    | (intro (h : Marked m _))
    | (intro (x : KeyBlock) hx; first | exact hx | (split <;> exact hx))
    | (exact fun _ hx => ⟨hx.1, fun hr => by simp [hx.2.1 hr], fun hl => by simp [hx.2.2 hl]⟩)
    | (intro (s' : State); refine_lift have h : Marked m s' := ?_; ?_; clear_value s')
    | lift_lets
    | with_reducible apply markedO_next
    | with_reducible apply marked_ite
    | with_reducible apply marked_onKey
    | with_reducible refine marked_foldl ?_ (fun s x h => ?_)
    | (intro x'; clear_value x')
    | intro _
    | dsimp only [s']
    | split

theorem marked_transition (a0 : Lc) (a1 : Bytes) (a2 : Bytes) (a3 : ℕ) (a4 : ℕ) (h : Marked m s) :
    Marked m (transition a0 a1 a2 a3 a4 s) := by
  unfold transition
  repeat' first
    | with_reducible assumption
    | (intro (s : State) (h : Marked m s))
    | (intro _ (s : State) (h : Marked m s))
    | (intro (h : Marked m _))
    | (intro (x : KeyBlock) hx; first | exact hx | (split <;> exact hx))
    | (intro (x : OwlBlock) hx; first | exact ⟨hx.1⟩ | (split <;> exact ⟨hx.1⟩) | exact ⟨fun o ho => hx.1 o (flag_put_false ho)⟩ | exact ⟨fun o ho => (flag_none ho).elim⟩)
    | (intro (s' : State); refine_lift have h : Marked m s' := ?_; ?_; clear_value s')
    | lift_lets
    | with_reducible apply markedO_next
    | with_reducible apply marked_ite
    | with_reducible apply marked_capture
    | with_reducible apply marked_writeLc
    | with_reducible apply marked_wipeClass
    | with_reducible apply marked_onKey
    | with_reducible apply marked_onOwl
    | with_reducible apply marked_requestReset
    | with_reducible apply marked_logLc
    | with_reducible refine marked_foldl ?_ (fun s x h => ?_)
    | (intro x'; clear_value x')
    | intro _
    | dsimp only [s']
    | split

theorem marked_endMaintenance (a0 : ℕ) (a1 : ℕ) (h : Marked m s) :
    Marked m (endMaintenance a0 a1 s) := by
  unfold endMaintenance
  repeat' first
    | with_reducible assumption
    | (intro (s : State) (h : Marked m s))
    | (intro _ (s : State) (h : Marked m s))
    | (intro (h : Marked m _))
    | (intro (s' : State); refine_lift have h : Marked m s' := ?_; ?_; clear_value s')
    | lift_lets
    | with_reducible apply markedO_next
    | with_reducible apply marked_ite
    | with_reducible apply marked_transition
    | with_reducible refine marked_foldl ?_ (fun s x h => ?_)
    | (intro x'; clear_value x')
    | intro _
    | dsimp only [s']
    | split

theorem marked_returnIfDue  (h : Marked m s) :
    Marked m (returnIfDue s) := by
  unfold returnIfDue
  repeat' first
    | with_reducible assumption
    | (intro (s : State) (h : Marked m s))
    | (intro _ (s : State) (h : Marked m s))
    | (intro (h : Marked m _))
    | (intro (s' : State); refine_lift have h : Marked m s' := ?_; ?_; clear_value s')
    | lift_lets
    | with_reducible apply markedO_next
    | with_reducible apply marked_ite
    | with_reducible apply marked_endMaintenance
    | with_reducible refine marked_foldl ?_ (fun s x h => ?_)
    | (intro x'; clear_value x')
    | intro _
    | dsimp only [s']
    | split

theorem marked_execMaintGrantExpiry  (h : Marked m s) :
    MarkedO m (execMaintGrantExpiry s) := by
  unfold execMaintGrantExpiry
  repeat' first
    | with_reducible assumption
    | (intro (s : State) (h : Marked m s))
    | (intro _ (s : State) (h : Marked m s))
    | (intro (h : Marked m _))
    | (intro (x : KeyBlock) hx; first | exact hx | (split <;> exact hx))
    | (intro (s' : State); refine_lift have h : Marked m s' := ?_; ?_; clear_value s')
    | lift_lets
    | with_reducible apply markedO_next
    | with_reducible apply marked_ite
    | with_reducible apply markedO_ite
    | with_reducible apply marked_returnIfDue
    | with_reducible apply marked_onKey
    | with_reducible refine marked_foldl ?_ (fun s x h => ?_)
    | (intro x'; clear_value x')
    | intro _
    | dsimp only [s']
    | split

theorem marked_execMaintAuthorityExpiry (a0 : Side) (a1 : Bool) (h : Marked m s) :
    MarkedO m (execMaintAuthorityExpiry a0 a1 s) := by
  unfold execMaintAuthorityExpiry
  repeat' first
    | with_reducible assumption
    | (intro (s : State) (h : Marked m s))
    | (intro _ (s : State) (h : Marked m s))
    | (intro (h : Marked m _))
    | (intro (x : KeyBlock) hx; first | exact hx | (split <;> exact hx))
    | (intro (s' : State); refine_lift have h : Marked m s' := ?_; ?_; clear_value s')
    | lift_lets
    | with_reducible apply markedO_next
    | with_reducible apply marked_ite
    | with_reducible apply markedO_ite
    | with_reducible apply marked_onKey
    | with_reducible refine marked_foldl ?_ (fun s x h => ?_)
    | (intro x'; clear_value x')
    | intro _
    | dsimp only [s']
    | split

theorem marked_keyReject (a0 : Req) (a1 : ℕ) (a2 : ℕ) (a3 : EvClass) (a4 : KeyMsg) (h : Marked m s) :
    Marked m (keyReject a0 a1 a2 a3 a4 s) := by
  unfold keyReject
  repeat' first
    | with_reducible assumption
    | (intro (s : State) (h : Marked m s))
    | (intro _ (s : State) (h : Marked m s))
    | (intro (h : Marked m _))
    | (intro (s' : State); refine_lift have h : Marked m s' := ?_; ?_; clear_value s')
    | lift_lets
    | with_reducible apply markedO_next
    | with_reducible apply marked_ite
    | with_reducible apply marked_postSts
    | with_reducible apply marked_logEv
    | with_reducible refine marked_foldl ?_ (fun s x h => ?_)
    | (intro x'; clear_value x')
    | intro _
    | dsimp only [s']
    | split

theorem marked_logRng  (h : Marked m s) :
    Marked m (logRng s) := by
  unfold logRng
  repeat' first
    | with_reducible assumption
    | (intro (s : State) (h : Marked m s))
    | (intro _ (s : State) (h : Marked m s))
    | (intro (h : Marked m _))
    | (intro (s' : State); refine_lift have h : Marked m s' := ?_; ?_; clear_value s')
    | lift_lets
    | with_reducible apply markedO_next
    | with_reducible apply marked_ite
    | with_reducible apply marked_logEv
    | with_reducible refine marked_foldl ?_ (fun s x h => ?_)
    | (intro x'; clear_value x')
    | intro _
    | dsimp only [s']
    | split

theorem marked_newBaseDate (a0 : KeyMsg) (h : Marked m s) :
    Marked m (newBaseDate a0 s) := by
  unfold newBaseDate
  repeat' first
    | with_reducible assumption
    | (intro (s : State) (h : Marked m s))
    | (intro _ (s : State) (h : Marked m s))
    | (intro (h : Marked m _))
    | (intro (s' : State); refine_lift have h : Marked m s' := ?_; ?_; clear_value s')
    | lift_lets
    | with_reducible apply markedO_next
    | with_reducible apply marked_ite
    | with_reducible apply marked_onBil
    | with_reducible apply marked_clearReplay
    | with_reducible refine marked_foldl ?_ (fun s x h => ?_)
    | (intro x'; clear_value x')
    | intro _
    | dsimp only [s']
    | split

theorem marked_keyEffect (a0 : KeyMsg) (a1 : Bytes) (h : Marked m s) :
    Marked m ((keyEffect a0 a1 s)).1 := by
  unfold keyEffect
  repeat' first
    | with_reducible assumption
    | (intro (s : State) (h : Marked m s))
    | (intro _ (s : State) (h : Marked m s))
    | (intro (h : Marked m _))
    | (intro (x : KeyBlock) hx; first | exact hx | (split <;> exact hx))
    | (intro (s' : State); refine_lift have h : Marked m s' := ?_; ?_; clear_value s')
    | lift_lets
    | with_reducible apply markedO_next
    | with_reducible apply marked_ite
    | with_reducible apply marked_slotsChanged
    | with_reducible apply marked_installKey
    | with_reducible apply marked_newBaseDate
    | with_reducible apply marked_bump
    | with_reducible apply marked_eraseKey
    | with_reducible apply marked_onKey
    | with_reducible apply marked_transition
    | with_reducible apply marked_endMaintenance
    | with_reducible refine marked_foldl ?_ (fun s x h => ?_)
    | (intro x'; clear_value x')
    | intro _
    | dsimp only [s']
    | split

theorem marked_execKeyUpdate (a0 : Req) (a1 : Bytes) (h : Marked m s) :
    MarkedO m (execKeyUpdate a0 a1 s) := by
  unfold execKeyUpdate
  repeat' first
    | with_reducible assumption
    | (intro (s : State) (h : Marked m s))
    | (intro _ (s : State) (h : Marked m s))
    | (intro (h : Marked m _))
    | (intro (x : KeyBlock) hx; first | exact hx | (split <;> exact hx))
    | (exact ⟨h.1, ⟨Nat.le_trans h.2.1.1 (Nat.le_of_lt (Nat.lt_of_not_le (by assumption))), h.2.1.2⟩, h.2.2⟩)
    | split
    | (intro (s' : State); refine_lift have h : Marked m s' := ?_; ?_; clear_value s')
    | lift_lets
    | with_reducible apply markedO_next
    | with_reducible apply marked_ite
    | with_reducible apply markedO_ite
    | with_reducible apply marked_postSts
    | with_reducible apply marked_keyReject
    | with_reducible apply marked_logRng
    | with_reducible apply marked_onKey
    | with_reducible apply marked_keyEffect
    | with_reducible apply marked_post
    | with_reducible apply marked_logEv
    | with_reducible refine marked_foldl ?_ (fun s x h => ?_)
    | (intro x'; clear_value x')
    | intro _
    | dsimp only [s']
    | split

theorem marked_execKeyChallenge (a0 : Req) (h : Marked m s) :
    MarkedO m (execKeyChallenge a0 s) := by
  unfold execKeyChallenge
  repeat' first
    | with_reducible assumption
    | (intro (s : State) (h : Marked m s))
    | (intro _ (s : State) (h : Marked m s))
    | (intro (h : Marked m _))
    | (intro (x : KeyBlock) hx; first | exact hx | (split <;> exact hx))
    | (intro (s' : State); refine_lift have h : Marked m s' := ?_; ?_; clear_value s')
    | lift_lets
    | with_reducible apply markedO_next
    | with_reducible apply marked_ite
    | with_reducible apply markedO_ite
    | with_reducible apply marked_guarded
    | with_reducible apply marked_postSts
    | with_reducible apply marked_logRng
    | with_reducible apply marked_post
    | with_reducible apply marked_bump
    | with_reducible apply marked_onKey
    | with_reducible refine marked_foldl ?_ (fun s x h => ?_)
    | (intro x'; clear_value x')
    | intro _
    | dsimp only [s']
    | split

theorem marked_execKeyMaintProve (a0 : Req) (a1 : Bytes) (h : Marked m s) :
    MarkedO m (execKeyMaintProve a0 a1 s) := by
  unfold execKeyMaintProve
  repeat' first
    | with_reducible assumption
    | (intro (s : State) (h : Marked m s))
    | (intro _ (s : State) (h : Marked m s))
    | (intro (h : Marked m _))
    | (intro (x : KeyBlock) hx; first | exact hx | (split <;> exact hx))
    | (intro (s' : State); refine_lift have h : Marked m s' := ?_; ?_; clear_value s')
    | lift_lets
    | with_reducible apply markedO_next
    | with_reducible apply marked_ite
    | with_reducible apply markedO_ite
    | with_reducible apply marked_guarded
    | with_reducible apply marked_onKey
    | with_reducible apply marked_postSts
    | with_reducible refine marked_foldl ?_ (fun s x h => ?_)
    | (intro x'; clear_value x')
    | intro _
    | dsimp only [s']
    | split

theorem marked_execKeyZeroise (a0 : Req) (a1 : ℕ) (h : Marked m s) :
    MarkedO m (execKeyZeroise a0 a1 s) := by
  unfold execKeyZeroise
  repeat' first
    | with_reducible assumption
    | (intro (s : State) (h : Marked m s))
    | (intro _ (s : State) (h : Marked m s))
    | (intro (h : Marked m _))
    | (intro (s' : State); refine_lift have h : Marked m s' := ?_; ?_; clear_value s')
    | lift_lets
    | with_reducible apply markedO_next
    | with_reducible apply marked_ite
    | with_reducible apply markedO_ite
    | with_reducible apply marked_guarded
    | with_reducible apply marked_postSts
    | with_reducible apply marked_zeroise
    | with_reducible apply marked_logRng
    | with_reducible apply marked_slotsChanged
    | with_reducible apply marked_eraseKey
    | with_reducible refine marked_foldl ?_ (fun s x h => ?_)
    | (intro x'; clear_value x')
    | intro _
    | dsimp only [s']
    | split

theorem marked_execKeyAttest (a0 : Req) (a1 : Bytes) (h : Marked m s) :
    MarkedO m (execKeyAttest a0 a1 s) := by
  unfold execKeyAttest
  repeat' first
    | with_reducible assumption
    | (intro (s : State) (h : Marked m s))
    | (intro _ (s : State) (h : Marked m s))
    | (intro (h : Marked m _))
    | (intro (x : KeyBlock) hx; first | exact hx | (split <;> exact hx))
    | (intro (s' : State); refine_lift have h : Marked m s' := ?_; ?_; clear_value s')
    | lift_lets
    | with_reducible apply markedO_next
    | with_reducible apply marked_ite
    | with_reducible apply markedO_ite
    | with_reducible apply marked_guarded
    | with_reducible apply marked_post
    | with_reducible apply marked_bump
    | with_reducible apply marked_onKey
    | with_reducible refine marked_foldl ?_ (fun s x h => ?_)
    | (intro x'; clear_value x')
    | intro _
    | dsimp only [s']
    | split

theorem marked_execKeyCertRead (a0 : Req) (h : Marked m s) :
    MarkedO m (execKeyCertRead a0 s) := by
  unfold execKeyCertRead
  repeat' first
    | with_reducible assumption
    | (intro (s : State) (h : Marked m s))
    | (intro _ (s : State) (h : Marked m s))
    | (intro (h : Marked m _))
    | (intro (s' : State); refine_lift have h : Marked m s' := ?_; ?_; clear_value s')
    | lift_lets
    | with_reducible apply markedO_next
    | with_reducible apply marked_ite
    | with_reducible apply markedO_ite
    | with_reducible apply marked_guarded
    | with_reducible apply marked_post
    | with_reducible refine marked_foldl ?_ (fun s x h => ?_)
    | (intro x'; clear_value x')
    | intro _
    | dsimp only [s']
    | split

theorem marked_execKeyCntLoRead (a0 : Side) (h : Marked m s) :
    MarkedO m (execKeyCntLoRead a0 s) := by
  unfold execKeyCntLoRead
  repeat' first
    | with_reducible assumption
    | (intro (s : State) (h : Marked m s))
    | (intro _ (s : State) (h : Marked m s))
    | (intro (h : Marked m _))
    | (intro (x : KeyBlock) hx; first | exact hx | (split <;> exact hx))
    | (intro (s' : State); refine_lift have h : Marked m s' := ?_; ?_; clear_value s')
    | lift_lets
    | with_reducible apply markedO_next
    | with_reducible apply marked_ite
    | with_reducible apply markedO_ite
    | with_reducible apply marked_returns
    | with_reducible apply marked_onKey
    | with_reducible refine marked_foldl ?_ (fun s x h => ?_)
    | (intro x'; clear_value x')
    | intro _
    | dsimp only [s']
    | split

theorem marked_execKeyStatusRead (a0 : Side) (h : Marked m s) :
    MarkedO m (execKeyStatusRead a0 s) := by
  unfold execKeyStatusRead
  repeat' first
    | with_reducible assumption
    | (intro (s : State) (h : Marked m s))
    | (intro _ (s : State) (h : Marked m s))
    | (intro (h : Marked m _))
    | (intro (x : KeyBlock) hx; first | exact hx | (split <;> exact hx))
    | (intro (s' : State); refine_lift have h : Marked m s' := ?_; ?_; clear_value s')
    | lift_lets
    | with_reducible apply markedO_next
    | with_reducible apply marked_ite
    | with_reducible apply markedO_ite
    | with_reducible apply marked_returns
    | with_reducible apply marked_onKey
    | with_reducible refine marked_foldl ?_ (fun s x h => ?_)
    | (intro x'; clear_value x')
    | intro _
    | dsimp only [s']
    | split

end Sys2Proof.Machine
end

