-- ==== Sys2Proof/Laws/MarkedUpdate.lean ====
section
/-! SUPPORT. The operations of Update.lean take no mark back. -/

set_option linter.unusedVariables false
set_option linter.unreachableTactic false
set_option linter.unusedTactic false

namespace Sys2Proof.Machine

variable {m : Marks} {s : State}

/-- An image kind's floor stays or rises when each kind's floor does. -/
theorem floors_upd {b : UpdBlock} {n : Nat} {f : Kind → Kind} (hf : ∀ d : Kind, d.floor ≤ (f d).floor) (hx : UpdMarked m b) :
    UpdMarked m { b with kinds := upd b.kinds n f } := by
  refine ⟨fun k => Nat.le_trans (hx.1 k) ?_⟩
  simp only [floorOf, upd, List.getD_eq_getElem?_getD, List.getElem?_modify]
  cases h : b.kinds[k]? with
  | none => simp
  | some d =>
    by_cases hk : n = k
    · simpa [hk] using hf d
    · simp [hk]

theorem marked_onKind (a0 : Nat) (a1 : Kind → Kind) (hf : ∀ d : Kind, d.floor ≤ (a1 d).floor) (h : Marked m s) :
    Marked m (onKind a0 a1 s) := marked_onUpd h fun _ hx => floors_upd hf hx

theorem marked_setBank (a0 : ℕ) (a1 : Bool) (a2 : Bank) (h : Marked m s) :
    Marked m (setBank a0 a1 a2 s) := by
  unfold setBank
  repeat' first
    | with_reducible assumption
    | (intro (s : State) (h : Marked m s))
    | (intro _ (s : State) (h : Marked m s))
    | (intro (h : Marked m _))
    | (intro (s' : State); refine_lift have h : Marked m s' := ?_; ?_; clear_value s')
    | lift_lets
    | with_reducible apply markedO_next
    | with_reducible apply marked_ite
    | with_reducible apply marked_onKind
    | with_reducible refine marked_foldl ?_ (fun s x h => ?_)
    | (intro (d : Kind); first | exact Nat.le_refl _ | exact Nat.le_max_left _ _ | (split <;> exact Nat.le_refl _))
    | (intro x'; clear_value x')
    | intro _
    | dsimp only [s']
    | split

theorem marked_markBank (a0 : ℕ) (a1 : Bool) (a2 : BankState) (h : Marked m s) :
    Marked m (markBank a0 a1 a2 s) := by
  unfold markBank
  repeat' first
    | with_reducible assumption
    | (intro (s : State) (h : Marked m s))
    | (intro _ (s : State) (h : Marked m s))
    | (intro (h : Marked m _))
    | (intro (s' : State); refine_lift have h : Marked m s' := ?_; ?_; clear_value s')
    | lift_lets
    | with_reducible apply markedO_next
    | with_reducible apply marked_ite
    | with_reducible apply marked_onKind
    | with_reducible refine marked_foldl ?_ (fun s x h => ?_)
    | (intro (d : Kind); first | exact Nat.le_refl _ | exact Nat.le_max_left _ _ | (split <;> exact Nat.le_refl _))
    | (intro x'; clear_value x')
    | intro _
    | dsimp only [s']
    | split

theorem marked_onSettings (a0 : ℕ) (a1 : Settings → Settings) (h : Marked m s) :
    Marked m (onSettings a0 a1 s) := by
  unfold onSettings
  repeat' first
    | with_reducible assumption
    | (intro (s : State) (h : Marked m s))
    | (intro _ (s : State) (h : Marked m s))
    | (intro (h : Marked m _))
    | (intro (x : UpdBlock) hx; first | exact ⟨hx.1⟩ | (split <;> exact ⟨hx.1⟩))
    | (intro (s' : State); refine_lift have h : Marked m s' := ?_; ?_; clear_value s')
    | lift_lets
    | with_reducible apply markedO_next
    | with_reducible apply marked_ite
    | with_reducible apply marked_onUpd
    | with_reducible refine marked_foldl ?_ (fun s x h => ?_)
    | (intro x'; clear_value x')
    | intro _
    | dsimp only [s']
    | split

theorem marked_keepReject (a0 : ℕ) (a1 : ℕ) (h : Marked m s) :
    Marked m (keepReject a0 a1 s) := by
  unfold keepReject
  repeat' first
    | with_reducible assumption
    | (intro (s : State) (h : Marked m s))
    | (intro _ (s : State) (h : Marked m s))
    | (intro (h : Marked m _))
    | (intro (x : UpdBlock) hx; first | exact ⟨hx.1⟩ | (split <;> exact ⟨hx.1⟩))
    | (intro (s' : State); refine_lift have h : Marked m s' := ?_; ?_; clear_value s')
    | lift_lets
    | with_reducible apply markedO_next
    | with_reducible apply marked_ite
    | with_reducible apply marked_onUpd
    | with_reducible refine marked_foldl ?_ (fun s x h => ?_)
    | (intro x'; clear_value x')
    | intro _
    | dsimp only [s']
    | split

theorem marked_logUpdReject (a0 : EvClass) (a1 : ℕ) (a2 : Bytes) (h : Marked m s) :
    Marked m (logUpdReject a0 a1 a2 s) := by
  unfold logUpdReject
  repeat' first
    | with_reducible assumption
    | (intro (s : State) (h : Marked m s))
    | (intro _ (s : State) (h : Marked m s))
    | (intro (h : Marked m _))
    | (intro (s' : State); refine_lift have h : Marked m s' := ?_; ?_; clear_value s')
    | lift_lets
    | with_reducible apply markedO_next
    | with_reducible apply marked_ite
    | with_reducible apply marked_logEv
    | with_reducible refine marked_foldl ?_ (fun s x h => ?_)
    | (intro x'; clear_value x')
    | intro _
    | dsimp only [s']
    | split

theorem marked_eraseOther (a0 : ℕ) (h : Marked m s) :
    Marked m (eraseOther a0 s) := by
  unfold eraseOther
  repeat' first
    | with_reducible assumption
    | (intro (s : State) (h : Marked m s))
    | (intro _ (s : State) (h : Marked m s))
    | (intro (h : Marked m _))
    | (intro (s' : State); refine_lift have h : Marked m s' := ?_; ?_; clear_value s')
    | lift_lets
    | with_reducible apply markedO_next
    | with_reducible apply marked_ite
    | with_reducible apply marked_setBank
    | with_reducible apply marked_onStr
    | with_reducible refine marked_foldl ?_ (fun s x h => ?_)
    | (intro x'; clear_value x')
    | intro _
    | dsimp only [s']
    | split

theorem marked_updBegin (a0 : Req) (a1 : Bytes) (h : Marked m s) :
    Marked m (updBegin a0 a1 s) := by
  unfold updBegin
  dsimp only
  repeat' first
    | with_reducible assumption
    | (intro (s : State) (h : Marked m s))
    | (intro _ (s : State) (h : Marked m s))
    | (intro (h : Marked m _))
    | (intro (x : UpdBlock) hx; first | exact ⟨hx.1⟩ | (split <;> exact ⟨hx.1⟩))
    | (intro (s' : State); refine_lift have h : Marked m s' := ?_; ?_; clear_value s')
    | with_reducible apply markedO_next
    | with_reducible apply marked_ite
    | with_reducible apply marked_keepReject
    | with_reducible apply marked_askKey
    | with_reducible apply marked_postSts
    | with_reducible apply marked_logUpdReject
    | with_reducible apply marked_eraseOther
    | with_reducible apply marked_setBank
    | with_reducible apply marked_onUpd
    | with_reducible refine marked_foldl ?_ (fun s x h => ?_)
    | (intro x'; clear_value x')
    | intro _
    | dsimp only [s']
    | split

theorem marked_execUpdBegin (a0 : Req) (a1 : Bytes) (h : Marked m s) :
    MarkedO m (execUpdBegin a0 a1 s) := by
  unfold execUpdBegin
  repeat' first
    | with_reducible assumption
    | (intro (s : State) (h : Marked m s))
    | (intro _ (s : State) (h : Marked m s))
    | (intro (h : Marked m _))
    | (intro (s' : State); refine_lift have h : Marked m s' := ?_; ?_; clear_value s')
    | lift_lets
    | with_reducible apply markedO_next
    | with_reducible apply marked_ite
    | with_reducible apply markedO_ite
    | with_reducible apply marked_badgerCmd
    | with_reducible apply marked_updBegin
    | with_reducible refine marked_foldl ?_ (fun s x h => ?_)
    | (intro x'; clear_value x')
    | intro _
    | dsimp only [s']
    | split

theorem marked_closeTransfer  (h : Marked m s) :
    Marked m (closeTransfer s) := by
  unfold closeTransfer
  repeat' first
    | with_reducible assumption
    | (intro (s : State) (h : Marked m s))
    | (intro _ (s : State) (h : Marked m s))
    | (intro (h : Marked m _))
    | (intro (x : UpdBlock) hx; first | exact ⟨hx.1⟩ | (split <;> exact ⟨hx.1⟩))
    | (intro (s' : State); refine_lift have h : Marked m s' := ?_; ?_; clear_value s')
    | lift_lets
    | with_reducible apply markedO_next
    | with_reducible apply marked_ite
    | with_reducible apply marked_onUpd
    | with_reducible apply marked_eraseOther
    | with_reducible refine marked_foldl ?_ (fun s x h => ?_)
    | (intro x'; clear_value x')
    | intro _
    | dsimp only [s']
    | split

theorem marked_updData (a0 : Req) (a1 : ℕ) (a2 : Bytes) (h : Marked m s) :
    Marked m (updData a0 a1 a2 s) := by
  unfold updData
  repeat' first
    | with_reducible assumption
    | (intro (s : State) (h : Marked m s))
    | (intro _ (s : State) (h : Marked m s))
    | (intro (h : Marked m _))
    | (intro (x : UpdBlock) hx; first | exact ⟨hx.1⟩ | (split <;> exact ⟨hx.1⟩))
    | (intro (s' : State); refine_lift have h : Marked m s' := ?_; ?_; clear_value s')
    | lift_lets
    | with_reducible apply markedO_next
    | with_reducible apply marked_ite
    | with_reducible apply marked_postSts
    | with_reducible apply marked_onUpd
    | with_reducible refine marked_foldl ?_ (fun s x h => ?_)
    | (intro x'; clear_value x')
    | intro _
    | dsimp only [s']
    | split

theorem marked_execUpdData (a0 : Req) (a1 : ℕ) (a2 : Bytes) (h : Marked m s) :
    MarkedO m (execUpdData a0 a1 a2 s) := by
  unfold execUpdData
  repeat' first
    | with_reducible assumption
    | (intro (s : State) (h : Marked m s))
    | (intro _ (s : State) (h : Marked m s))
    | (intro (h : Marked m _))
    | (intro (s' : State); refine_lift have h : Marked m s' := ?_; ?_; clear_value s')
    | lift_lets
    | with_reducible apply markedO_next
    | with_reducible apply marked_ite
    | with_reducible apply markedO_ite
    | with_reducible apply marked_badgerCmd
    | with_reducible apply marked_updData
    | with_reducible refine marked_foldl ?_ (fun s x h => ?_)
    | (intro x'; clear_value x')
    | intro _
    | dsimp only [s']
    | split

theorem marked_updEnd (a0 : Req) (h : Marked m s) :
    Marked m (updEnd a0 s) := by
  unfold updEnd
  repeat' first
    | with_reducible assumption
    | (intro (s : State) (h : Marked m s))
    | (intro _ (s : State) (h : Marked m s))
    | (intro (h : Marked m _))
    | (intro (x : UpdBlock) hx; first | exact ⟨hx.1⟩ | (split <;> exact ⟨hx.1⟩))
    | (intro (s' : State); refine_lift have h : Marked m s' := ?_; ?_; clear_value s')
    | lift_lets
    | with_reducible apply markedO_next
    | with_reducible apply marked_ite
    | with_reducible apply marked_postSts
    | with_reducible apply marked_logUpdReject
    | with_reducible apply marked_keepReject
    | with_reducible apply marked_closeTransfer
    | with_reducible apply marked_setBank
    | with_reducible apply marked_onStr
    | with_reducible apply marked_logEv
    | with_reducible apply marked_onUpd
    | with_reducible refine marked_foldl ?_ (fun s x h => ?_)
    | (intro x'; clear_value x')
    | intro _
    | dsimp only [s']
    | split

theorem marked_execUpdEnd (a0 : Req) (h : Marked m s) :
    MarkedO m (execUpdEnd a0 s) := by
  unfold execUpdEnd
  repeat' first
    | with_reducible assumption
    | (intro (s : State) (h : Marked m s))
    | (intro _ (s : State) (h : Marked m s))
    | (intro (h : Marked m _))
    | (intro (s' : State); refine_lift have h : Marked m s' := ?_; ?_; clear_value s')
    | lift_lets
    | with_reducible apply markedO_next
    | with_reducible apply marked_ite
    | with_reducible apply markedO_ite
    | with_reducible apply marked_badgerCmd
    | with_reducible apply marked_updEnd
    | with_reducible refine marked_foldl ?_ (fun s x h => ?_)
    | (intro x'; clear_value x')
    | intro _
    | dsimp only [s']
    | split

theorem marked_updAbort (a0 : Req) (h : Marked m s) :
    Marked m (updAbort a0 s) := by
  unfold updAbort
  repeat' first
    | with_reducible assumption
    | (intro (s : State) (h : Marked m s))
    | (intro _ (s : State) (h : Marked m s))
    | (intro (h : Marked m _))
    | (intro (s' : State); refine_lift have h : Marked m s' := ?_; ?_; clear_value s')
    | lift_lets
    | with_reducible apply markedO_next
    | with_reducible apply marked_ite
    | with_reducible apply marked_guarded
    | with_reducible apply marked_postSts
    | with_reducible apply marked_closeTransfer
    | with_reducible refine marked_foldl ?_ (fun s x h => ?_)
    | (intro x'; clear_value x')
    | intro _
    | dsimp only [s']
    | split

theorem marked_execUpdAbort (a0 : Req) (h : Marked m s) :
    MarkedO m (execUpdAbort a0 s) := by
  unfold execUpdAbort
  repeat' first
    | with_reducible assumption
    | (intro (s : State) (h : Marked m s))
    | (intro _ (s : State) (h : Marked m s))
    | (intro (h : Marked m _))
    | (intro (s' : State); refine_lift have h : Marked m s' := ?_; ?_; clear_value s')
    | lift_lets
    | with_reducible apply markedO_next
    | with_reducible apply marked_ite
    | with_reducible apply markedO_ite
    | with_reducible apply marked_badgerCmd
    | with_reducible apply marked_updAbort
    | with_reducible refine marked_foldl ?_ (fun s x h => ?_)
    | (intro x'; clear_value x')
    | intro _
    | dsimp only [s']
    | split

theorem marked_execUpdTransferTimeout  (h : Marked m s) :
    MarkedO m (execUpdTransferTimeout s) := by
  unfold execUpdTransferTimeout
  repeat' first
    | with_reducible assumption
    | (intro (s : State) (h : Marked m s))
    | (intro _ (s : State) (h : Marked m s))
    | (intro (h : Marked m _))
    | (intro (s' : State); refine_lift have h : Marked m s' := ?_; ?_; clear_value s')
    | lift_lets
    | with_reducible apply markedO_next
    | with_reducible apply marked_ite
    | with_reducible apply markedO_ite
    | with_reducible apply marked_closeTransfer
    | with_reducible refine marked_foldl ?_ (fun s x h => ?_)
    | (intro x'; clear_value x')
    | intro _
    | dsimp only [s']
    | split

theorem marked_startCluster  (h : Marked m s) :
    Marked m (startCluster s) := by
  unfold startCluster
  repeat' first
    | with_reducible assumption
    | (intro (s : State) (h : Marked m s))
    | (intro _ (s : State) (h : Marked m s))
    | (intro (h : Marked m _))
    | (intro (x : MgtBlock) hx; first | (show m.seq ≤ _; exact (hx : m.seq ≤ x.seq)) | (split <;> exact hx) | (dsimp only; repeat' split <;> exact hx))
    | (exact h)
    | (intro (s' : State); refine_lift have h : Marked m s' := ?_; ?_; clear_value s')
    | lift_lets
    | with_reducible apply markedO_next
    | with_reducible apply marked_ite
    | with_reducible apply marked_onMgt
    | with_reducible refine marked_foldl ?_ (fun s x h => ?_)
    | (intro x'; clear_value x')
    | intro _
    | dsimp only [s']
    | split

theorem marked_stopBadger  (h : Marked m s) :
    Marked m (stopBadger s) := by
  unfold stopBadger
  repeat' first
    | with_reducible assumption
    | (intro (s : State) (h : Marked m s))
    | (intro _ (s : State) (h : Marked m s))
    | (intro (h : Marked m _))
    | (intro (x : MgtBlock) hx; first | (show m.seq ≤ _; exact (hx : m.seq ≤ x.seq)) | (split <;> exact hx) | (dsimp only; repeat' split <;> exact hx))
    | (intro (s' : State); refine_lift have h : Marked m s' := ?_; ?_; clear_value s')
    | lift_lets
    | with_reducible apply markedO_next
    | with_reducible apply marked_ite
    | with_reducible apply marked_onMgt
    | with_reducible apply marked_onSys
    | with_reducible refine marked_foldl ?_ (fun s x h => ?_)
    | (intro x'; clear_value x')
    | intro _
    | dsimp only [s']
    | split

theorem marked_startKind (a0 : ℕ) (h : Marked m s) :
    Marked m (startKind a0 s) := by
  unfold startKind
  repeat' first
    | with_reducible assumption
    | (intro (s : State) (h : Marked m s))
    | (intro _ (s : State) (h : Marked m s))
    | (intro (h : Marked m _))
    | (intro (s' : State); refine_lift have h : Marked m s' := ?_; ?_; clear_value s')
    | lift_lets
    | with_reducible apply markedO_next
    | with_reducible apply marked_ite
    | with_reducible apply marked_startCluster
    | with_reducible apply marked_stopBadger
    | with_reducible apply marked_slacCheck
    | with_reducible apply marked_slacOff
    | with_reducible apply marked_glkAfterWatch
    | with_reducible apply marked_abandonMsdu
    | with_reducible apply marked_dropMember
    | with_reducible refine marked_foldl ?_ (fun s x h => ?_)
    | (intro x'; clear_value x')
    | intro _
    | dsimp only [s']
    | split

theorem marked_migrate (a0 : ℕ) (a1 : Bank) (h : Marked m s) :
    Marked m (migrate a0 a1 s) := by
  unfold migrate
  repeat' first
    | with_reducible assumption
    | (intro (s : State) (h : Marked m s))
    | (intro _ (s : State) (h : Marked m s))
    | (intro (h : Marked m _))
    | (intro (s' : State); refine_lift have h : Marked m s' := ?_; ?_; clear_value s')
    | lift_lets
    | with_reducible apply markedO_next
    | with_reducible apply marked_ite
    | with_reducible apply marked_bump
    | with_reducible apply marked_onSettings
    | with_reducible refine marked_foldl ?_ (fun s x h => ?_)
    | (intro x'; clear_value x')
    | intro _
    | dsimp only [s']
    | split

theorem marked_logMigrate (a0 : ℕ) (a1 : ℕ) (a2 : ℕ) (a3 : ℕ) (a4 : ℕ) (h : Marked m s) :
    Marked m (logMigrate a0 a1 a2 a3 a4 s) := by
  unfold logMigrate
  repeat' first
    | with_reducible assumption
    | (intro (s : State) (h : Marked m s))
    | (intro _ (s : State) (h : Marked m s))
    | (intro (h : Marked m _))
    | (intro (s' : State); refine_lift have h : Marked m s' := ?_; ?_; clear_value s')
    | lift_lets
    | with_reducible apply markedO_next
    | with_reducible apply marked_ite
    | with_reducible apply marked_logEv
    | with_reducible refine marked_foldl ?_ (fun s x h => ?_)
    | (intro x'; clear_value x')
    | intro _
    | dsimp only [s']
    | split

theorem marked_endMigration (a0 : ℕ) (a1 : Bool) (h : Marked m s) :
    Marked m (endMigration a0 a1 s) := by
  unfold endMigration
  repeat' first
    | with_reducible assumption
    | (intro (s : State) (h : Marked m s))
    | (intro _ (s : State) (h : Marked m s))
    | (intro (h : Marked m _))
    | (intro (s' : State); refine_lift have h : Marked m s' := ?_; ?_; clear_value s')
    | lift_lets
    | with_reducible apply markedO_next
    | with_reducible apply marked_ite
    | with_reducible apply marked_onSettings
    | with_reducible apply marked_logMigrate
    | with_reducible refine marked_foldl ?_ (fun s x h => ?_)
    | (intro x'; clear_value x')
    | intro _
    | dsimp only [s']
    | split

theorem marked_takeBank (a0 : ℕ) (h : Marked m s) :
    Marked m (takeBank a0 s) := by
  unfold takeBank
  repeat' first
    | with_reducible assumption
    | (intro (s : State) (h : Marked m s))
    | (intro _ (s : State) (h : Marked m s))
    | (intro (h : Marked m _))
    | (intro (s' : State); refine_lift have h : Marked m s' := ?_; ?_; clear_value s')
    | lift_lets
    | with_reducible apply markedO_next
    | with_reducible apply marked_ite
    | with_reducible apply marked_markBank
    | with_reducible apply marked_ctPublishInfo
    | with_reducible apply marked_onKind
    | with_reducible refine marked_foldl ?_ (fun s x h => ?_)
    | (intro (d : Kind); first | exact Nat.le_refl _ | exact Nat.le_max_left _ _ | (split <;> exact Nat.le_refl _))
    | (intro x'; clear_value x')
    | intro _
    | dsimp only [s']
    | split

theorem marked_commitPart (a0 : ℕ) (h : Marked m s) :
    Marked m (commitPart a0 s) := by
  unfold commitPart
  repeat' first
    | with_reducible assumption
    | (intro (s : State) (h : Marked m s))
    | (intro _ (s : State) (h : Marked m s))
    | (intro (h : Marked m _))
    | (intro (s' : State); refine_lift have h : Marked m s' := ?_; ?_; clear_value s')
    | lift_lets
    | with_reducible apply markedO_next
    | with_reducible apply marked_ite
    | with_reducible apply marked_markBank
    | with_reducible apply marked_onKind
    | with_reducible apply marked_endMigration
    | with_reducible apply marked_logEv
    | with_reducible refine marked_foldl ?_ (fun s x h => ?_)
    | (intro (d : Kind); first | exact Nat.le_refl _ | exact Nat.le_max_left _ _ | (split <;> exact Nat.le_refl _))
    | (intro x'; clear_value x')
    | intro _
    | dsimp only [s']
    | split

theorem marked_mirrorCopy  (h : Marked m s) :
    Marked m (mirrorCopy s) := by
  unfold mirrorCopy
  repeat' first
    | with_reducible assumption
    | (intro (s : State) (h : Marked m s))
    | (intro _ (s : State) (h : Marked m s))
    | (intro (h : Marked m _))
    | (intro (s' : State); refine_lift have h : Marked m s' := ?_; ?_; clear_value s')
    | lift_lets
    | with_reducible apply markedO_next
    | with_reducible apply marked_ite
    | with_reducible apply marked_onStr
    | with_reducible apply marked_setBank
    | with_reducible refine marked_foldl ?_ (fun s x h => ?_)
    | (intro x'; clear_value x')
    | intro _
    | dsimp only [s']
    | split

theorem marked_commitTrial (a0 : Trial) (h : Marked m s) :
    Marked m (commitTrial a0 s) := by
  unfold commitTrial
  repeat' first
    | with_reducible assumption
    | (intro (s : State) (h : Marked m s))
    | (intro _ (s : State) (h : Marked m s))
    | (intro (h : Marked m _))
    | (intro (x : UpdBlock) hx; first | exact ⟨hx.1⟩ | (split <;> exact ⟨hx.1⟩))
    | (intro (s' : State); refine_lift have h : Marked m s' := ?_; ?_; clear_value s')
    | lift_lets
    | with_reducible apply markedO_next
    | with_reducible apply marked_ite
    | with_reducible apply marked_commitPart
    | with_reducible apply marked_mirrorCopy
    | with_reducible apply marked_onUpd
    | with_reducible refine marked_foldl ?_ (fun s x h => ?_)
    | (intro x'; clear_value x')
    | intro _
    | dsimp only [s']
    | split

theorem marked_rollbackPart (a0 : ℕ) (a1 : ℕ) (h : Marked m s) :
    Marked m (rollbackPart a0 a1 s) := by
  unfold rollbackPart
  repeat' first
    | with_reducible assumption
    | (intro (s : State) (h : Marked m s))
    | (intro _ (s : State) (h : Marked m s))
    | (intro (h : Marked m _))
    | (intro (s' : State); refine_lift have h : Marked m s' := ?_; ?_; clear_value s')
    | lift_lets
    | with_reducible apply markedO_next
    | with_reducible apply marked_ite
    | with_reducible apply marked_markBank
    | with_reducible apply marked_onKind
    | with_reducible apply marked_ctPublishInfo
    | with_reducible apply marked_endMigration
    | with_reducible apply marked_logEv
    | with_reducible refine marked_foldl ?_ (fun s x h => ?_)
    | (intro (d : Kind); first | exact Nat.le_refl _ | exact Nat.le_max_left _ _ | (split <;> exact Nat.le_refl _))
    | (intro x'; clear_value x')
    | intro _
    | dsimp only [s']
    | split

theorem marked_failTrial (a0 : ℕ) (h : Marked m s) :
    Marked m (failTrial a0 s) := by
  unfold failTrial
  repeat' first
    | with_reducible assumption
    | (intro (s : State) (h : Marked m s))
    | (intro _ (s : State) (h : Marked m s))
    | (intro (h : Marked m _))
    | (intro (x : UpdBlock) hx; first | exact ⟨hx.1⟩ | (split <;> exact ⟨hx.1⟩))
    | (intro (s' : State); refine_lift have h : Marked m s' := ?_; ?_; clear_value s')
    | lift_lets
    | with_reducible apply markedO_next
    | with_reducible apply marked_ite
    | with_reducible apply marked_bump
    | with_reducible apply marked_onUpd
    | with_reducible apply marked_rollbackPart
    | with_reducible apply marked_startKind
    | with_reducible refine marked_foldl ?_ (fun s x h => ?_)
    | (intro x'; clear_value x')
    | intro _
    | dsimp only [s']
    | split

theorem marked_countStart  (h : Marked m s) :
    Marked m (countStart s) := by
  unfold countStart
  repeat' first
    | with_reducible assumption
    | (intro (s : State) (h : Marked m s))
    | (intro _ (s : State) (h : Marked m s))
    | (intro (h : Marked m _))
    | (intro (x : UpdBlock) hx; first | exact ⟨hx.1⟩ | (split <;> exact ⟨hx.1⟩))
    | (intro (s' : State); refine_lift have h : Marked m s' := ?_; ?_; clear_value s')
    | lift_lets
    | with_reducible apply markedO_next
    | with_reducible apply marked_ite
    | with_reducible apply marked_onUpd
    | with_reducible apply marked_failTrial
    | with_reducible refine marked_foldl ?_ (fun s x h => ?_)
    | (intro x'; clear_value x')
    | intro _
    | dsimp only [s']
    | split

theorem marked_execTrialPass  (h : Marked m s) :
    MarkedO m (execTrialPass s) := by
  unfold execTrialPass
  repeat' first
    | with_reducible assumption
    | (intro (s : State) (h : Marked m s))
    | (intro _ (s : State) (h : Marked m s))
    | (intro (h : Marked m _))
    | (intro (s' : State); refine_lift have h : Marked m s' := ?_; ?_; clear_value s')
    | lift_lets
    | with_reducible apply markedO_next
    | with_reducible apply marked_ite
    | with_reducible apply markedO_ite
    | with_reducible apply marked_commitTrial
    | with_reducible refine marked_foldl ?_ (fun s x h => ?_)
    | (intro x'; clear_value x')
    | intro _
    | dsimp only [s']
    | split

theorem marked_execTrialFail (a0 : ℕ) (h : Marked m s) :
    MarkedO m (execTrialFail a0 s) := by
  unfold execTrialFail
  repeat' first
    | with_reducible assumption
    | (intro (s : State) (h : Marked m s))
    | (intro _ (s : State) (h : Marked m s))
    | (intro (h : Marked m _))
    | (intro (s' : State); refine_lift have h : Marked m s' := ?_; ?_; clear_value s')
    | lift_lets
    | with_reducible apply markedO_next
    | with_reducible apply marked_ite
    | with_reducible apply markedO_ite
    | with_reducible apply marked_failTrial
    | with_reducible refine marked_foldl ?_ (fun s x h => ?_)
    | (intro x'; clear_value x')
    | intro _
    | dsimp only [s']
    | split

theorem marked_updConfirm (a0 : Req) (h : Marked m s) :
    Marked m (updConfirm a0 s) := by
  unfold updConfirm
  repeat' first
    | with_reducible assumption
    | (intro (s : State) (h : Marked m s))
    | (intro _ (s : State) (h : Marked m s))
    | (intro (h : Marked m _))
    | (intro (x : UpdBlock) hx; first | exact ⟨hx.1⟩ | (split <;> exact ⟨hx.1⟩))
    | (intro (s' : State); refine_lift have h : Marked m s' := ?_; ?_; clear_value s')
    | lift_lets
    | with_reducible apply markedO_next
    | with_reducible apply marked_ite
    | with_reducible apply marked_guarded
    | with_reducible apply marked_postSts
    | with_reducible apply marked_onUpd
    | with_reducible refine marked_foldl ?_ (fun s x h => ?_)
    | (intro x'; clear_value x')
    | intro _
    | dsimp only [s']
    | split

theorem marked_execUpdConfirm (a0 : Req) (h : Marked m s) :
    MarkedO m (execUpdConfirm a0 s) := by
  unfold execUpdConfirm
  repeat' first
    | with_reducible assumption
    | (intro (s : State) (h : Marked m s))
    | (intro _ (s : State) (h : Marked m s))
    | (intro (h : Marked m _))
    | (intro (s' : State); refine_lift have h : Marked m s' := ?_; ?_; clear_value s')
    | lift_lets
    | with_reducible apply markedO_next
    | with_reducible apply marked_ite
    | with_reducible apply markedO_ite
    | with_reducible apply marked_badgerCmd
    | with_reducible apply marked_updConfirm
    | with_reducible refine marked_foldl ?_ (fun s x h => ?_)
    | (intro x'; clear_value x')
    | intro _
    | dsimp only [s']
    | split

theorem marked_logActivate (a0 : ℕ) (a1 : ℕ) (a2 : ℕ) (h : Marked m s) :
    Marked m (logActivate a0 a1 a2 s) := by
  unfold logActivate
  repeat' first
    | with_reducible assumption
    | (intro (s : State) (h : Marked m s))
    | (intro _ (s : State) (h : Marked m s))
    | (intro (h : Marked m _))
    | (intro (s' : State); refine_lift have h : Marked m s' := ?_; ?_; clear_value s')
    | lift_lets
    | with_reducible apply markedO_next
    | with_reducible apply marked_ite
    | with_reducible apply marked_logEv
    | with_reducible refine marked_foldl ?_ (fun s x h => ?_)
    | (intro x'; clear_value x')
    | intro _
    | dsimp only [s']
    | split

theorem marked_refuseActivate (a0 : Req) (a1 : ℕ) (a2 : ℕ) (a3 : ℕ) (h : Marked m s) :
    Marked m (refuseActivate a0 a1 a2 a3 s) := by
  unfold refuseActivate
  repeat' first
    | with_reducible assumption
    | (intro (s : State) (h : Marked m s))
    | (intro _ (s : State) (h : Marked m s))
    | (intro (h : Marked m _))
    | (intro (x : UpdBlock) hx; first | exact ⟨hx.1⟩ | (split <;> exact ⟨hx.1⟩))
    | (intro (s' : State); refine_lift have h : Marked m s' := ?_; ?_; clear_value s')
    | lift_lets
    | with_reducible apply markedO_next
    | with_reducible apply marked_ite
    | with_reducible apply marked_post
    | with_reducible apply marked_onUpd
    | with_reducible refine marked_foldl ?_ (fun s x h => ?_)
    | (intro x'; clear_value x')
    | intro _
    | dsimp only [s']
    | split

theorem marked_activateTable  (h : Marked m s) :
    Marked m (activateTable s) := by
  unfold activateTable
  repeat' first
    | with_reducible assumption
    | (intro (s : State) (h : Marked m s))
    | (intro _ (s : State) (h : Marked m s))
    | (intro (h : Marked m _))
    | (intro (s' : State); refine_lift have h : Marked m s' := ?_; ?_; clear_value s')
    | lift_lets
    | with_reducible apply markedO_next
    | with_reducible apply marked_ite
    | with_reducible apply marked_offerTable
    | with_reducible apply marked_markBank
    | with_reducible apply marked_onKind
    | with_reducible refine marked_foldl ?_ (fun s x h => ?_)
    | (intro (d : Kind); first | exact Nat.le_refl _ | exact Nat.le_max_left _ _ | (split <;> exact Nat.le_refl _))
    | (intro x'; clear_value x')
    | intro _
    | dsimp only [s']
    | split

theorem marked_activateOne (a0 : Req) (a1 : ℕ) (h : Marked m s) :
    Marked m (activateOne a0 a1 s) := by
  unfold activateOne
  repeat' first
    | with_reducible assumption
    | (intro (s : State) (h : Marked m s))
    | (intro _ (s : State) (h : Marked m s))
    | (intro (h : Marked m _))
    | (intro (x : UpdBlock) hx; first | exact ⟨hx.1⟩ | (split <;> exact ⟨hx.1⟩))
    | (intro (s' : State); refine_lift have h : Marked m s' := ?_; ?_; clear_value s')
    | lift_lets
    | with_reducible apply markedO_next
    | with_reducible apply marked_ite
    | with_reducible apply marked_refuseActivate
    | with_reducible apply marked_onUpd
    | with_reducible apply marked_postSts
    | with_reducible apply marked_logActivate
    | with_reducible apply marked_activateTable
    | with_reducible apply marked_migrate
    | with_reducible apply marked_takeBank
    | with_reducible apply marked_startKind
    | with_reducible refine marked_foldl ?_ (fun s x h => ?_)
    | (intro x'; clear_value x')
    | intro _
    | dsimp only [s']
    | split

theorem marked_sealBefore  (h : Marked m s) :
    Marked m (sealBefore s) := by
  unfold sealBefore
  repeat' first
    | with_reducible assumption
    | (intro (s : State) (h : Marked m s))
    | (intro _ (s : State) (h : Marked m s))
    | (intro (h : Marked m _))
    | (intro (s' : State); refine_lift have h : Marked m s' := ?_; ?_; clear_value s')
    | lift_lets
    | with_reducible apply markedO_next
    | with_reducible apply marked_ite
    | with_reducible apply marked_saveAtOnce
    | with_reducible apply marked_capture
    | with_reducible apply marked_restartDemand
    | with_reducible apply marked_closeDemand
    | with_reducible refine marked_foldl ?_ (fun s x h => ?_)
    | (intro x'; clear_value x')
    | intro _
    | dsimp only [s']
    | split

theorem marked_recordSeal (a0 : ℕ) (a1 : Bytes) (h : Marked m s) :
    Marked m (recordSeal a0 a1 s) := by
  unfold recordSeal
  repeat' first
    | with_reducible assumption
    | (intro (s : State) (h : Marked m s))
    | (intro _ (s : State) (h : Marked m s))
    | (intro (h : Marked m _))
    | (intro (s' : State); refine_lift have h : Marked m s' := ?_; ?_; clear_value s')
    | lift_lets
    | with_reducible apply markedO_next
    | with_reducible apply marked_ite
    | with_reducible apply marked_onMet
    | with_reducible apply marked_ctPublishInfo
    | with_reducible apply marked_onStr
    | with_reducible apply marked_legalEv
    | with_reducible refine marked_foldl ?_ (fun s x h => ?_)
    | (intro x'; clear_value x')
    | intro _
    | dsimp only [s']
    | split

theorem marked_runManifest (a0 : List ℕ) (h : Marked m s) :
    Marked m (runManifest a0 s) := by
  unfold runManifest
  repeat' first
    | with_reducible assumption
    | (intro (s : State) (h : Marked m s))
    | (intro _ (s : State) (h : Marked m s))
    | (intro (h : Marked m _))
    | (intro (x : UpdBlock) hx; first | exact ⟨hx.1⟩ | (split <;> exact ⟨hx.1⟩))
    | (intro (s' : State); refine_lift have h : Marked m s' := ?_; ?_; clear_value s')
    | lift_lets
    | with_reducible apply markedO_next
    | with_reducible apply marked_ite
    | with_reducible apply marked_onUpd
    | with_reducible apply marked_onStr
    | with_reducible apply marked_recordSeal
    | with_reducible apply marked_sealBefore
    | with_reducible apply marked_logActivate
    | with_reducible apply marked_requestReset
    | with_reducible refine marked_foldl ?_ (fun s x h => ?_)
    | (intro x'; clear_value x')
    | intro _
    | dsimp only [s']
    | split

theorem marked_activateManifest (a0 : Req) (h : Marked m s) :
    Marked m (activateManifest a0 s) := by
  unfold activateManifest
  repeat' first
    | with_reducible assumption
    | (intro (s : State) (h : Marked m s))
    | (intro _ (s : State) (h : Marked m s))
    | (intro (h : Marked m _))
    | (intro (s' : State); refine_lift have h : Marked m s' := ?_; ?_; clear_value s')
    | lift_lets
    | with_reducible apply markedO_next
    | with_reducible apply marked_ite
    | with_reducible apply marked_refuseActivate
    | with_reducible apply marked_runManifest
    | with_reducible apply marked_pend
    | with_reducible refine marked_foldl ?_ (fun s x h => ?_)
    | (intro x'; clear_value x')
    | intro _
    | dsimp only [s']
    | split

theorem marked_updActivate (a0 : Req) (a1 : ℕ) (h : Marked m s) :
    Marked m (updActivate a0 a1 s) := by
  unfold updActivate
  repeat' first
    | with_reducible assumption
    | (intro (s : State) (h : Marked m s))
    | (intro _ (s : State) (h : Marked m s))
    | (intro (h : Marked m _))
    | (intro (s' : State); refine_lift have h : Marked m s' := ?_; ?_; clear_value s')
    | lift_lets
    | with_reducible apply markedO_next
    | with_reducible apply marked_ite
    | with_reducible apply marked_refuseActivate
    | with_reducible apply marked_activateManifest
    | with_reducible apply marked_activateOne
    | with_reducible refine marked_foldl ?_ (fun s x h => ?_)
    | (intro x'; clear_value x')
    | intro _
    | dsimp only [s']
    | split

theorem marked_execUpdActivate (a0 : Req) (a1 : ℕ) (h : Marked m s) :
    MarkedO m (execUpdActivate a0 a1 s) := by
  unfold execUpdActivate
  repeat' first
    | with_reducible assumption
    | (intro (s : State) (h : Marked m s))
    | (intro _ (s : State) (h : Marked m s))
    | (intro (h : Marked m _))
    | (intro (s' : State); refine_lift have h : Marked m s' := ?_; ?_; clear_value s')
    | lift_lets
    | with_reducible apply markedO_next
    | with_reducible apply marked_ite
    | with_reducible apply markedO_ite
    | with_reducible apply marked_badgerCmd
    | with_reducible apply marked_updActivate
    | with_reducible refine marked_foldl ?_ (fun s x h => ?_)
    | (intro x'; clear_value x')
    | intro _
    | dsimp only [s']
    | split

end Sys2Proof.Machine
end

