-- ==== Sys2Proof/Laws/MarkedBadger.lean ====
section
/-! SUPPORT. The operations of Badger.lean take no mark back. -/

set_option linter.unusedVariables false
set_option linter.unreachableTactic false
set_option linter.unusedTactic false

namespace Sys2Proof.Machine

variable {m : Marks} {s : State}

theorem marked_enterLimp (a0 : ℕ) (h : Marked m s) :
    Marked m (enterLimp a0 s) := by
  unfold enterLimp
  repeat' first
    | with_reducible assumption
    | (intro (s : State) (h : Marked m s))
    | (intro _ (s : State) (h : Marked m s))
    | (intro (h : Marked m _))
    | (intro (s' : State); refine_lift have h : Marked m s' := ?_; ?_; clear_value s')
    | lift_lets
    | with_reducible apply markedO_next
    | with_reducible apply marked_ite
    | with_reducible apply marked_flushRings
    | with_reducible apply marked_limpEnterAll
    | with_reducible apply marked_setMode
    | with_reducible refine marked_foldl ?_ (fun s x h => ?_)
    | (intro x'; clear_value x')
    | intro _
    | dsimp only [s']
    | split

theorem marked_clusterGone  (h : Marked m s) :
    Marked m (clusterGone s) := by
  unfold clusterGone
  repeat' first
    | with_reducible assumption
    | (intro (s : State) (h : Marked m s))
    | (intro _ (s : State) (h : Marked m s))
    | (intro (h : Marked m _))
    | (intro (s' : State); refine_lift have h : Marked m s' := ?_; ?_; clear_value s')
    | lift_lets
    | with_reducible apply markedO_next
    | with_reducible apply marked_ite
    | with_reducible apply marked_enterLimp
    | with_reducible refine marked_foldl ?_ (fun s x h => ?_)
    | (intro x'; clear_value x')
    | intro _
    | dsimp only [s']
    | split

theorem marked_execBadgerWatchdogExpiry  (h : Marked m s) :
    MarkedO m (execBadgerWatchdogExpiry s) := by
  unfold execBadgerWatchdogExpiry
  repeat' first
    | with_reducible assumption
    | (intro (s : State) (h : Marked m s))
    | (intro _ (s : State) (h : Marked m s))
    | (intro (h : Marked m _))
    | (intro (x : MgtBlock) hx; first | (show m.seq ≤ _; exact (hx : m.seq ≤ x.seq)) | (split <;> exact hx) | (dsimp only; repeat' split <;> exact hx))
    | (intro (s' : State); refine_lift have h : Marked m s' := ?_; ?_; clear_value s')
    | lift_lets
    | with_reducible apply markedO_next
    | with_reducible apply marked_ite
    | with_reducible apply markedO_ite
    | with_reducible apply marked_stopBadger
    | with_reducible apply marked_closeTransfer
    | with_reducible apply marked_onSys
    | with_reducible apply marked_onMet
    | with_reducible apply marked_onMgt
    | with_reducible apply marked_logEv
    | with_reducible apply marked_enterLimp
    | with_reducible refine marked_foldl ?_ (fun s x h => ?_)
    | (intro x'; clear_value x')
    | intro _
    | dsimp only [s']
    | split

theorem marked_drainRetention  (h : Marked m s) :
    Marked m (drainRetention s) := by
  unfold drainRetention
  repeat' first
    | with_reducible assumption
    | (intro (s : State) (h : Marked m s))
    | (intro _ (s : State) (h : Marked m s))
    | (intro (h : Marked m _))
    | (intro (s' : State); refine_lift have h : Marked m s' := ?_; ?_; clear_value s')
    | lift_lets
    | with_reducible apply markedO_next
    | with_reducible apply marked_ite
    | with_reducible apply marked_enterLog
    | with_reducible apply marked_onSys
    | with_reducible refine marked_foldl ?_ (fun s x h => ?_)
    | (intro x'; clear_value x')
    | intro _
    | dsimp only [s']
    | split

theorem marked_heartbeat  (h : Marked m s) :
    Marked m (heartbeat s) := by
  unfold heartbeat
  repeat' first
    | with_reducible assumption
    | (intro (s : State) (h : Marked m s))
    | (intro _ (s : State) (h : Marked m s))
    | (intro (h : Marked m _))
    | (intro (x : MgtBlock) hx; first | (show m.seq ≤ _; exact (hx : m.seq ≤ x.seq)) | (split <;> exact hx) | (dsimp only; repeat' split <;> exact hx))
    | (intro (s' : State); refine_lift have h : Marked m s' := ?_; ?_; clear_value s')
    | lift_lets
    | with_reducible apply markedO_next
    | with_reducible apply marked_ite
    | with_reducible apply marked_onSys
    | with_reducible apply marked_onMgt
    | with_reducible refine marked_foldl ?_ (fun s x h => ?_)
    | (intro x'; clear_value x')
    | intro _
    | dsimp only [s']
    | split

theorem marked_execMgtAmbHbWrite (a0 : Word) (h : Marked m s) :
    MarkedO m (execMgtAmbHbWrite a0 s) := by
  unfold execMgtAmbHbWrite
  repeat' first
    | with_reducible assumption
    | (intro (s : State) (h : Marked m s))
    | (intro _ (s : State) (h : Marked m s))
    | (intro (h : Marked m _))
    | (intro (s' : State); refine_lift have h : Marked m s' := ?_; ?_; clear_value s')
    | lift_lets
    | with_reducible apply markedO_next
    | with_reducible apply marked_ite
    | with_reducible apply markedO_ite
    | with_reducible apply marked_heartbeat
    | with_reducible refine marked_foldl ?_ (fun s x h => ?_)
    | (intro x'; clear_value x')
    | intro _
    | dsimp only [s']
    | split

theorem marked_execAppHeartbeatTimeout (a0 : ℕ) (h : Marked m s) :
    MarkedO m (execAppHeartbeatTimeout a0 s) := by
  unfold execAppHeartbeatTimeout
  repeat' first
    | with_reducible assumption
    | (intro (s : State) (h : Marked m s))
    | (intro _ (s : State) (h : Marked m s))
    | (intro (h : Marked m _))
    | (intro (x : MgtBlock) hx; first | (show m.seq ≤ _; exact (hx : m.seq ≤ x.seq)) | (split <;> exact hx) | (dsimp only; repeat' split <;> exact hx))
    | (intro (s' : State); refine_lift have h : Marked m s' := ?_; ?_; clear_value s')
    | lift_lets
    | with_reducible apply markedO_next
    | with_reducible apply marked_ite
    | with_reducible apply markedO_ite
    | with_reducible apply marked_startCluster
    | with_reducible apply marked_onSys
    | with_reducible apply marked_onMgt
    | with_reducible apply marked_logEv
    | with_reducible apply marked_countStart
    | with_reducible apply marked_notice
    | with_reducible apply marked_clusterGone
    | with_reducible refine marked_foldl ?_ (fun s x h => ?_)
    | (intro x'; clear_value x')
    | intro _
    | dsimp only [s']
    | split

theorem marked_execMgtRestart (a0 : Req) (h : Marked m s) :
    MarkedO m (execMgtRestart a0 s) := by
  unfold execMgtRestart
  repeat' first
    | with_reducible assumption
    | (intro (s : State) (h : Marked m s))
    | (intro _ (s : State) (h : Marked m s))
    | (intro (h : Marked m _))
    | (intro (x : MgtBlock) hx; first | (show m.seq ≤ _; exact (hx : m.seq ≤ x.seq)) | (split <;> exact hx) | (dsimp only; repeat' split <;> exact hx))
    | (intro (s' : State); refine_lift have h : Marked m s' := ?_; ?_; clear_value s')
    | lift_lets
    | with_reducible apply markedO_next
    | with_reducible apply marked_ite
    | with_reducible apply markedO_ite
    | with_reducible apply marked_badgerCmd
    | with_reducible apply marked_guarded
    | with_reducible apply marked_postSts
    | with_reducible apply marked_startCluster
    | with_reducible apply marked_onMgt
    | with_reducible refine marked_foldl ?_ (fun s x h => ?_)
    | (intro x'; clear_value x')
    | intro _
    | dsimp only [s']
    | split

theorem marked_takeMessage (a0 : Side) (h : Marked m s) :
    Marked m (takeMessage a0 s) := by
  unfold takeMessage
  repeat' first
    | with_reducible assumption
    | (intro (s : State) (h : Marked m s))
    | (intro _ (s : State) (h : Marked m s))
    | (intro (h : Marked m _))
    | (intro (x : MgtBlock) hx; first | (show m.seq ≤ _; exact (hx : m.seq ≤ x.seq)) | (split <;> exact hx) | (dsimp only; repeat' split <;> exact hx))
    | (intro (s' : State); refine_lift have h : Marked m s' := ?_; ?_; clear_value s')
    | lift_lets
    | with_reducible apply markedO_next
    | with_reducible apply marked_ite
    | with_reducible apply marked_onMgt
    | with_reducible apply marked_noticeTo
    | with_reducible apply marked_heartbeat
    | with_reducible refine marked_foldl ?_ (fun s x h => ?_)
    | (intro x'; clear_value x')
    | intro _
    | dsimp only [s']
    | split

theorem marked_doorbell (a0 : Side) (h : Marked m s) :
    Marked m (doorbell a0 s) := by
  unfold doorbell
  repeat' first
    | with_reducible assumption
    | (intro (s : State) (h : Marked m s))
    | (intro _ (s : State) (h : Marked m s))
    | (intro (h : Marked m _))
    | (intro (x : MgtBlock) hx; first | (show m.seq ≤ _; exact (hx : m.seq ≤ x.seq)) | (split <;> exact hx) | (dsimp only; repeat' split <;> exact hx))
    | (intro (s' : State); refine_lift have h : Marked m s' := ?_; ?_; clear_value s')
    | lift_lets
    | with_reducible apply markedO_next
    | with_reducible apply marked_ite
    | with_reducible apply marked_onMgt
    | with_reducible apply marked_takeMessage
    | with_reducible refine marked_foldl ?_ (fun s x h => ?_)
    | (intro x'; clear_value x')
    | intro _
    | dsimp only [s']
    | split

theorem marked_execMailboxDoorbell (a0 : Side) (h : Marked m s) :
    MarkedO m (execMailboxDoorbell a0 s) := by
  unfold execMailboxDoorbell
  repeat' first
    | with_reducible assumption
    | (intro (s : State) (h : Marked m s))
    | (intro _ (s : State) (h : Marked m s))
    | (intro (h : Marked m _))
    | (intro (s' : State); refine_lift have h : Marked m s' := ?_; ?_; clear_value s')
    | lift_lets
    | with_reducible apply markedO_next
    | with_reducible apply marked_ite
    | with_reducible apply markedO_ite
    | with_reducible apply marked_doorbell
    | with_reducible refine marked_foldl ?_ (fun s x h => ?_)
    | (intro x'; clear_value x')
    | intro _
    | dsimp only [s']
    | split

theorem marked_execBadgerReady  (h : Marked m s) :
    MarkedO m (execBadgerReady s) := by
  unfold execBadgerReady
  repeat' first
    | with_reducible assumption
    | (intro (s : State) (h : Marked m s))
    | (intro _ (s : State) (h : Marked m s))
    | (intro (h : Marked m _))
    | (intro (s' : State); refine_lift have h : Marked m s' := ?_; ?_; clear_value s')
    | lift_lets
    | with_reducible apply markedO_next
    | with_reducible apply marked_ite
    | with_reducible apply markedO_ite
    | with_reducible apply marked_onSys
    | with_reducible apply marked_flushProfile
    | with_reducible apply marked_drainRetention
    | with_reducible apply marked_takeMessage
    | with_reducible refine marked_foldl ?_ (fun s x h => ?_)
    | (intro x'; clear_value x')
    | intro _
    | dsimp only [s']
    | split

theorem marked_hotChange (a0 : Bool) (h : Marked m s) :
    Marked m (hotChange a0 s) := by
  unfold hotChange
  repeat' first
    | with_reducible assumption
    | (intro (s : State) (h : Marked m s))
    | (intro _ (s : State) (h : Marked m s))
    | (intro (h : Marked m _))
    | (intro (s' : State); refine_lift have h : Marked m s' := ?_; ?_; clear_value s')
    | lift_lets
    | with_reducible apply markedO_next
    | with_reducible apply marked_ite
    | with_reducible apply marked_startCluster
    | with_reducible apply marked_onSys
    | with_reducible apply marked_clusterGone
    | with_reducible apply marked_glkGate
    | with_reducible apply marked_slacOff
    | with_reducible apply marked_slacChecks
    | with_reducible refine marked_foldl ?_ (fun s x h => ?_)
    | (intro x'; clear_value x')
    | intro _
    | dsimp only [s']
    | split

theorem marked_evalTemps (a0 : List ℤ) (h : Marked m s) :
    Marked m (evalTemps a0 s) := by
  unfold evalTemps
  repeat' first
    | with_reducible assumption
    | (intro (s : State) (h : Marked m s))
    | (intro _ (s : State) (h : Marked m s))
    | (intro (h : Marked m _))
    | (intro (x : MgtBlock) hx; first | (show m.seq ≤ _; exact (hx : m.seq ≤ x.seq)) | (split <;> exact hx) | (dsimp only; repeat' split <;> exact hx))
    | (intro (s' : State); refine_lift have h : Marked m s' := ?_; ?_; clear_value s')
    | lift_lets
    | with_reducible apply markedO_next
    | with_reducible apply marked_ite
    | with_reducible apply marked_onMgt
    | with_reducible apply marked_logEv
    | with_reducible apply marked_notice
    | with_reducible apply marked_hotChange
    | with_reducible refine marked_foldl ?_ (fun s x h => ?_)
    | (intro x'; clear_value x')
    | intro _
    | dsimp only [s']
    | split

theorem marked_logSupply (a0 : ℕ) (a1 : ℕ) (a2 : ℕ) (h : Marked m s) :
    Marked m (logSupply a0 a1 a2 s) := by
  unfold logSupply
  repeat' first
    | with_reducible assumption
    | (intro (s : State) (h : Marked m s))
    | (intro _ (s : State) (h : Marked m s))
    | (intro (h : Marked m _))
    | (intro (s' : State); refine_lift have h : Marked m s' := ?_; ?_; clear_value s')
    | lift_lets
    | with_reducible apply markedO_next
    | with_reducible apply marked_ite
    | with_reducible apply marked_logEv
    | with_reducible refine marked_foldl ?_ (fun s x h => ?_)
    | (intro x'; clear_value x')
    | intro _
    | dsimp only [s']
    | split

theorem marked_evalSupply (a0 : MonitorInput) (a2 : ℕ) (h : Marked m s) :
    Marked m (evalSupply a0 s a2) := by
  unfold evalSupply
  repeat' first
    | with_reducible assumption
    | (intro (s : State) (h : Marked m s))
    | (intro _ (s : State) (h : Marked m s))
    | (intro (h : Marked m _))
    | (intro (x : MgtBlock) hx; first | (show m.seq ≤ _; exact (hx : m.seq ≤ x.seq)) | (split <;> exact hx) | (dsimp only; repeat' split <;> exact hx))
    | (intro (s' : State); refine_lift have h : Marked m s' := ?_; ?_; clear_value s')
    | lift_lets
    | with_reducible apply markedO_next
    | with_reducible apply marked_ite
    | with_reducible apply marked_notice
    | with_reducible apply marked_logSupply
    | with_reducible apply marked_onMgt
    | with_reducible refine marked_foldl ?_ (fun s x h => ?_)
    | (intro x'; clear_value x')
    | intro _
    | dsimp only [s']
    | split

theorem marked_evalVbat (a0 : ℕ) (h : Marked m s) :
    Marked m (evalVbat a0 s) := by
  unfold evalVbat
  repeat' first
    | with_reducible assumption
    | (intro (s : State) (h : Marked m s))
    | (intro _ (s : State) (h : Marked m s))
    | (intro (h : Marked m _))
    | (intro (x : MgtBlock) hx; first | (show m.seq ≤ _; exact (hx : m.seq ≤ x.seq)) | (split <;> exact hx) | (dsimp only; repeat' split <;> exact hx))
    | (intro (s' : State); refine_lift have h : Marked m s' := ?_; ?_; clear_value s')
    | lift_lets
    | with_reducible apply markedO_next
    | with_reducible apply marked_ite
    | with_reducible apply marked_notice
    | with_reducible apply marked_logSupply
    | with_reducible apply marked_onMgt
    | with_reducible refine marked_foldl ?_ (fun s x h => ?_)
    | (intro x'; clear_value x')
    | intro _
    | dsimp only [s']
    | split

theorem marked_monitor (a0 : MonitorInput) (h : Marked m s) :
    Marked m (monitor a0 s) := by
  unfold monitor
  repeat' first
    | with_reducible assumption
    | (intro (s : State) (h : Marked m s))
    | (intro _ (s : State) (h : Marked m s))
    | (intro (h : Marked m _))
    | (intro (x : MgtBlock) hx; first | (show m.seq ≤ _; exact (hx : m.seq ≤ x.seq)) | (split <;> exact hx) | (dsimp only; repeat' split <;> exact hx))
    | (intro (s' : State); refine_lift have h : Marked m s' := ?_; ?_; clear_value s')
    | lift_lets
    | with_reducible apply markedO_next
    | with_reducible apply marked_ite
    | with_reducible apply marked_evalTemps
    | with_reducible apply marked_evalSupply
    | with_reducible apply marked_onMgt
    | with_reducible apply marked_evalVbat
    | with_reducible apply marked_logEv
    | with_reducible refine marked_foldl ?_ (fun s x h => ?_)
    | (intro x'; clear_value x')
    | intro _
    | dsimp only [s']
    | split

theorem marked_execClockFail (a0 : Bool) (h : Marked m s) :
    MarkedO m (execClockFail a0 s) := by
  unfold execClockFail
  repeat' first
    | with_reducible assumption
    | (intro (s : State) (h : Marked m s))
    | (intro _ (s : State) (h : Marked m s))
    | (intro (h : Marked m _))
    | (intro (s' : State); refine_lift have h : Marked m s' := ?_; ?_; clear_value s')
    | lift_lets
    | with_reducible apply markedO_next
    | with_reducible apply marked_ite
    | with_reducible apply markedO_ite
    | with_reducible apply marked_logEv
    | with_reducible apply marked_assertReset
    | with_reducible refine marked_foldl ?_ (fun s x h => ?_)
    | (intro x'; clear_value x')
    | intro _
    | dsimp only [s']
    | split

/-- A change of Badger's block that leaves SEQ. -/
theorem marked_sameSeq (h : Marked m s) {f : MgtBlock → MgtBlock} (hf : ∀ x, (f x).seq = x.seq) : Marked m (onMgt f s) :=
  marked_onMgt h fun x hx => by unfold MgtMarked; rw [hf]; exact hx

theorem marked_archive (a1 : LogRec) (h : Marked m s) : Marked m (archive s a1) := by
  unfold archive
  exact marked_ite (marked_archiveLegal _ h) (marked_sameSeq h fun _ => rfl)

theorem marked_flushLog (a0 : Bool) (h : Marked m s) :
    Marked m (flushLog a0 s) := by
  unfold flushLog
  repeat' first
    | with_reducible assumption
    | (intro (s : State) (h : Marked m s))
    | (intro _ (s : State) (h : Marked m s))
    | (intro (h : Marked m _))
    | (intro (x : MgtBlock) hx; first | (show m.seq ≤ _; exact (hx : m.seq ≤ x.seq)) | (split <;> exact hx) | (dsimp only; repeat' split <;> exact hx))
    | (intro (s' : State); refine_lift have h : Marked m s' := ?_; ?_; clear_value s')
    | lift_lets
    | with_reducible apply markedO_next
    | with_reducible apply marked_ite
    | with_reducible apply marked_onMgt
    | with_reducible apply marked_checkWatermark
    | with_reducible apply marked_archive
    | with_reducible refine marked_foldl ?_ (fun s x h => ?_)
    | (intro x'; clear_value x')
    | intro _
    | dsimp only [s']
    | split

theorem marked_execLogArchiveFlush (a0 : Bool) (h : Marked m s) :
    MarkedO m (execLogArchiveFlush a0 s) := by
  unfold execLogArchiveFlush
  repeat' first
    | with_reducible assumption
    | (intro (s : State) (h : Marked m s))
    | (intro _ (s : State) (h : Marked m s))
    | (intro (h : Marked m _))
    | (intro (s' : State); refine_lift have h : Marked m s' := ?_; ?_; clear_value s')
    | lift_lets
    | with_reducible apply markedO_next
    | with_reducible apply marked_ite
    | with_reducible apply markedO_ite
    | with_reducible apply marked_flushLog
    | with_reducible refine marked_foldl ?_ (fun s x h => ?_)
    | (intro x'; clear_value x')
    | intro _
    | dsimp only [s']
    | split

theorem marked_execMgtLogRead (a0 : Req) (a1 : ℕ) (a2 : ℕ) (h : Marked m s) :
    MarkedO m (execMgtLogRead a0 a1 a2 s) := by
  unfold execMgtLogRead
  repeat' first
    | with_reducible assumption
    | (intro (s : State) (h : Marked m s))
    | (intro _ (s : State) (h : Marked m s))
    | (intro (h : Marked m _))
    | (intro (s' : State); refine_lift have h : Marked m s' := ?_; ?_; clear_value s')
    | lift_lets
    | with_reducible apply markedO_next
    | with_reducible apply marked_ite
    | with_reducible apply markedO_ite
    | with_reducible apply marked_badgerCmd
    | with_reducible apply marked_guarded
    | with_reducible apply marked_post
    | with_reducible refine marked_foldl ?_ (fun s x h => ?_)
    | (intro x'; clear_value x')
    | intro _
    | dsimp only [s']
    | split

theorem marked_execMgtLogAck (a0 : Req) (a1 : ℕ) (h : Marked m s) :
    MarkedO m (execMgtLogAck a0 a1 s) := by
  unfold execMgtLogAck
  repeat' first
    | with_reducible assumption
    | (intro (s : State) (h : Marked m s))
    | (intro _ (s : State) (h : Marked m s))
    | (intro (h : Marked m _))
    | (intro (x : MgtBlock) hx; first | (show m.seq ≤ _; exact (hx : m.seq ≤ x.seq)) | (split <;> exact hx) | (dsimp only; repeat' split <;> exact hx))
    | (intro (s' : State); refine_lift have h : Marked m s' := ?_; ?_; clear_value s')
    | lift_lets
    | with_reducible apply markedO_next
    | with_reducible apply marked_ite
    | with_reducible apply markedO_ite
    | with_reducible apply marked_badgerCmd
    | with_reducible apply marked_guarded
    | with_reducible apply marked_postSts
    | with_reducible apply marked_checkWatermark
    | with_reducible apply marked_onMgt
    | with_reducible refine marked_foldl ?_ (fun s x h => ?_)
    | (intro x'; clear_value x')
    | intro _
    | dsimp only [s']
    | split

end Sys2Proof.Machine
end

