-- ==== Sys2Proof/Laws/MarkedVehicle.lean ====
section
/-! SUPPORT. The operations of Vehicle.lean take no mark back. -/

set_option linter.unusedVariables false
set_option linter.unreachableTactic false
set_option linter.unusedTactic false

namespace Sys2Proof.Machine

variable {m : Marks} {s : State}

theorem marked_illegal (a0 : ℕ) (a1 : EvClass) (a2 : Cp) (a3 : Cp) (a4 : ℕ) (h : Marked m s) :
    Marked m (illegal a0 a1 a2 a3 a4 s) := by
  unfold illegal
  repeat' first
    | with_reducible assumption
    | (intro (s : State) (h : Marked m s))
    | (intro _ (s : State) (h : Marked m s))
    | (intro (h : Marked m _))
    | (intro (s' : State); refine_lift have h : Marked m s' := ?_; ?_; clear_value s')
    | lift_lets
    | with_reducible apply markedO_next
    | with_reducible apply marked_ite
    | with_reducible apply marked_logEv
    | with_reducible apply marked_onLink
    | with_reducible refine marked_foldl ?_ (fun s x h => ?_)
    | (intro x'; clear_value x')
    | intro _
    | dsimp only [s']
    | split

theorem marked_pilotB (a0 : ℕ) (a1 : Bool) (h : Marked m s) :
    Marked m (pilotB a0 a1 s) := by
  unfold pilotB
  repeat' first
    | with_reducible assumption
    | (intro (s : State) (h : Marked m s))
    | (intro _ (s : State) (h : Marked m s))
    | (intro (h : Marked m _))
    | (intro (s' : State); refine_lift have h : Marked m s' := ?_; ?_; clear_value s')
    | lift_lets
    | with_reducible apply markedO_next
    | with_reducible apply marked_ite
    | with_reducible apply marked_connect
    | with_reducible apply marked_limpPilot
    | with_reducible apply marked_pauseSession
    | with_reducible apply marked_pauseOrdered
    | with_reducible apply marked_withdrawRequest
    | with_reducible apply marked_acceptB
    | with_reducible refine marked_foldl ?_ (fun s x h => ?_)
    | (intro x'; clear_value x')
    | intro _
    | dsimp only [s']
    | split

theorem marked_pilotC (a0 : ℕ) (h : Marked m s) :
    Marked m (pilotC a0 s) := by
  unfold pilotC
  repeat' first
    | with_reducible assumption
    | (intro (s : State) (h : Marked m s))
    | (intro _ (s : State) (h : Marked m s))
    | (intro (h : Marked m _))
    | (intro (s' : State); refine_lift have h : Marked m s' := ?_; ?_; clear_value s')
    | lift_lets
    | with_reducible apply markedO_next
    | with_reducible apply marked_ite
    | with_reducible apply marked_setSup
    | with_reducible apply marked_tryResume
    | with_reducible apply marked_advance
    | with_reducible refine marked_foldl ?_ (fun s x h => ?_)
    | (intro x'; clear_value x')
    | intro _
    | dsimp only [s']
    | split

theorem marked_pilotD (a0 : ℕ) (h : Marked m s) :
    Marked m (pilotD a0 s) := by
  unfold pilotD
  repeat' first
    | with_reducible assumption
    | (intro (s : State) (h : Marked m s))
    | (intro _ (s : State) (h : Marked m s))
    | (intro (h : Marked m _))
    | (intro (s' : State); refine_lift have h : Marked m s' := ?_; ?_; clear_value s')
    | lift_lets
    | with_reducible apply markedO_next
    | with_reducible apply marked_ite
    | with_reducible apply marked_pilotC
    | with_reducible apply marked_logEv
    | with_reducible apply marked_onLink
    | with_reducible apply marked_pilotB
    | with_reducible refine marked_foldl ?_ (fun s x h => ?_)
    | (intro x'; clear_value x')
    | intro _
    | dsimp only [s']
    | split

theorem marked_pilotA (a0 : ℕ) (h : Marked m s) :
    Marked m (pilotA a0 s) := by
  unfold pilotA
  repeat' first
    | with_reducible assumption
    | (intro (s : State) (h : Marked m s))
    | (intro _ (s : State) (h : Marked m s))
    | (intro (h : Marked m _))
    | (intro (s' : State); refine_lift have h : Marked m s' := ?_; ?_; clear_value s')
    | lift_lets
    | with_reducible apply markedO_next
    | with_reducible apply marked_ite
    | with_reducible apply marked_onLink
    | with_reducible apply marked_endSession
    | with_reducible apply marked_requestUnlock
    | with_reducible apply marked_setSup
    | with_reducible refine marked_foldl ?_ (fun s x h => ?_)
    | (intro x'; clear_value x')
    | intro _
    | dsimp only [s']
    | split

theorem marked_pilotFault (a0 : ℕ) (h : Marked m s) :
    Marked m (pilotFault a0 s) := by
  unfold pilotFault
  repeat' first
    | with_reducible assumption
    | (intro (s : State) (h : Marked m s))
    | (intro _ (s : State) (h : Marked m s))
    | (intro (h : Marked m _))
    | (intro (s' : State); refine_lift have h : Marked m s' := ?_; ?_; clear_value s')
    | lift_lets
    | with_reducible apply markedO_next
    | with_reducible apply marked_ite
    | with_reducible apply marked_onLink
    | with_reducible apply marked_endSession
    | with_reducible apply marked_setSup
    | with_reducible refine marked_foldl ?_ (fun s x h => ?_)
    | (intro x'; clear_value x')
    | intro _
    | dsimp only [s']
    | split

theorem marked_row1 (a0 : ℕ) (a1 : Cp) (a2 : Cp) (h : Marked m s) :
    Marked m (row1 a0 a1 a2 s) := by
  unfold row1
  repeat' first
    | with_reducible assumption
    | (intro (s : State) (h : Marked m s))
    | (intro _ (s : State) (h : Marked m s))
    | (intro (h : Marked m _))
    | (intro (s' : State); refine_lift have h : Marked m s' := ?_; ?_; clear_value s')
    | lift_lets
    | with_reducible apply markedO_next
    | with_reducible apply marked_ite
    | with_reducible apply marked_illegal
    | with_reducible refine marked_foldl ?_ (fun s x h => ?_)
    | (intro x'; clear_value x')
    | intro _
    | dsimp only [s']
    | split

theorem marked_rows34 (a0 : ℕ) (a1 : ℕ) (a2 : Cp) (a3 : Cp) (h : Marked m s) :
    Marked m (rows34 a0 a1 a2 a3 s) := by
  unfold rows34
  repeat' first
    | with_reducible assumption
    | (intro (s : State) (h : Marked m s))
    | (intro _ (s : State) (h : Marked m s))
    | (intro (h : Marked m _))
    | (intro (s' : State); refine_lift have h : Marked m s' := ?_; ?_; clear_value s')
    | lift_lets
    | with_reducible apply markedO_next
    | with_reducible apply marked_ite
    | with_reducible apply marked_onLink
    | with_reducible apply marked_illegal
    | with_reducible apply marked_slacCheck
    | with_reducible apply marked_pilotB
    | with_reducible refine marked_foldl ?_ (fun s x h => ?_)
    | (intro x'; clear_value x')
    | intro _
    | dsimp only [s']
    | split

theorem marked_row5 (a0 : ℕ) (a1 : Cp) (a2 : Cp) (h : Marked m s) :
    Marked m (row5 a0 a1 a2 s) := by
  unfold row5
  repeat' first
    | with_reducible assumption
    | (intro (s : State) (h : Marked m s))
    | (intro _ (s : State) (h : Marked m s))
    | (intro (h : Marked m _))
    | (intro (s' : State); refine_lift have h : Marked m s' := ?_; ?_; clear_value s')
    | lift_lets
    | with_reducible apply markedO_next
    | with_reducible apply marked_ite
    | with_reducible apply marked_onLink
    | with_reducible apply marked_logEv
    | with_reducible apply marked_endSession
    | with_reducible apply marked_setSup
    | with_reducible refine marked_foldl ?_ (fun s x h => ?_)
    | (intro x'; clear_value x')
    | intro _
    | dsimp only [s']
    | split

theorem marked_countToggle (a0 : ℕ) (a1 : Cp) (a2 : Cp) (h : Marked m s) :
    Marked m (countToggle a0 a1 a2 s) := by
  unfold countToggle
  repeat' first
    | with_reducible assumption
    | (intro (s : State) (h : Marked m s))
    | (intro _ (s : State) (h : Marked m s))
    | (intro (h : Marked m _))
    | (intro (s' : State); refine_lift have h : Marked m s' := ?_; ?_; clear_value s')
    | lift_lets
    | with_reducible apply markedO_next
    | with_reducible apply marked_ite
    | with_reducible apply marked_onLink
    | with_reducible apply marked_endValidation
    | with_reducible refine marked_foldl ?_ (fun s x h => ?_)
    | (intro x'; clear_value x')
    | intro _
    | dsimp only [s']
    | split

theorem marked_clearRequest (a0 : ℕ) (h : Marked m s) :
    Marked m (clearRequest a0 s) := by
  unfold clearRequest
  repeat' first
    | with_reducible assumption
    | (intro (s : State) (h : Marked m s))
    | (intro _ (s : State) (h : Marked m s))
    | (intro (h : Marked m _))
    | (intro (s' : State); refine_lift have h : Marked m s' := ?_; ?_; clear_value s')
    | lift_lets
    | with_reducible apply markedO_next
    | with_reducible apply marked_ite
    | with_reducible apply marked_dropRelease
    | with_reducible apply marked_beginPostOpen
    | with_reducible refine marked_foldl ?_ (fun s x h => ?_)
    | (intro x'; clear_value x')
    | intro _
    | dsimp only [s']
    | split

theorem marked_actOn (a0 : ℕ) (a1 : Cp) (a2 : ℤ) (h : Marked m s) :
    Marked m (actOn a0 a1 a2 s) := by
  unfold actOn
  repeat' first
    | with_reducible assumption
    | (intro (s : State) (h : Marked m s))
    | (intro _ (s : State) (h : Marked m s))
    | (intro (h : Marked m _))
    | (intro (s' : State); refine_lift have h : Marked m s' := ?_; ?_; clear_value s')
    | lift_lets
    | with_reducible apply markedO_next
    | with_reducible apply marked_ite
    | with_reducible apply marked_clearRequest
    | with_reducible apply marked_pilotA
    | with_reducible apply marked_pilotB
    | with_reducible apply marked_pilotC
    | with_reducible apply marked_pilotD
    | with_reducible apply marked_endSession
    | with_reducible apply marked_logEv
    | with_reducible apply marked_pilotFault
    | with_reducible refine marked_foldl ?_ (fun s x h => ?_)
    | (intro x'; clear_value x')
    | intro _
    | dsimp only [s']
    | split

theorem marked_acceptState (a0 : ℕ) (a1 : ℤ) (a2 : ℤ) (h : Marked m s) :
    Marked m (acceptState a0 a1 a2 s) := by
  unfold acceptState
  repeat' first
    | with_reducible assumption
    | (intro (s : State) (h : Marked m s))
    | (intro _ (s : State) (h : Marked m s))
    | (intro (h : Marked m _))
    | (intro (s' : State); refine_lift have h : Marked m s' := ?_; ?_; clear_value s')
    | lift_lets
    | with_reducible apply markedO_next
    | with_reducible apply marked_ite
    | with_reducible apply marked_onLink
    | with_reducible apply marked_row1
    | with_reducible apply marked_rows34
    | with_reducible apply marked_countToggle
    | with_reducible apply marked_actOn
    | with_reducible apply marked_slacCheck
    | with_reducible apply marked_row5
    | with_reducible refine marked_foldl ?_ (fun s x h => ?_)
    | (intro x'; clear_value x')
    | intro _
    | dsimp only [s']
    | split

theorem marked_pilotAccepted (a0 : ℕ) (a1 : ℤ) (a2 : ℤ) (h : Marked m s) :
    Marked m (pilotAccepted a0 a1 a2 s) := by
  unfold pilotAccepted
  repeat' first
    | with_reducible assumption
    | (intro (s : State) (h : Marked m s))
    | (intro _ (s : State) (h : Marked m s))
    | (intro (h : Marked m _))
    | (intro (s' : State); refine_lift have h : Marked m s' := ?_; ?_; clear_value s')
    | lift_lets
    | with_reducible apply markedO_next
    | with_reducible apply marked_ite
    | with_reducible apply marked_onLink
    | with_reducible apply marked_acceptState
    | with_reducible refine marked_foldl ?_ (fun s x h => ?_)
    | (intro x'; clear_value x')
    | intro _
    | dsimp only [s']
    | split

theorem marked_execPilotFaultHold (a0 : ℕ) (a1 : Bool) (h : Marked m s) :
    MarkedO m (execPilotFaultHold a0 a1 s) := by
  unfold execPilotFaultHold
  repeat' first
    | with_reducible assumption
    | (intro (s : State) (h : Marked m s))
    | (intro _ (s : State) (h : Marked m s))
    | (intro (h : Marked m _))
    | (intro (s' : State); refine_lift have h : Marked m s' := ?_; ?_; clear_value s')
    | lift_lets
    | with_reducible apply markedO_next
    | with_reducible apply marked_ite
    | with_reducible apply markedO_ite
    | with_reducible apply marked_illegal
    | with_reducible apply marked_onLink
    | with_reducible apply marked_setSup
    | with_reducible apply marked_requestUnlock
    | with_reducible apply marked_connect
    | with_reducible refine marked_foldl ?_ (fun s x h => ?_)
    | (intro x'; clear_value x')
    | intro _
    | dsimp only [s']
    | split

theorem marked_execPilotModeTransitionEnd (a0 : ℕ) (h : Marked m s) :
    MarkedO m (execPilotModeTransitionEnd a0 s) := by
  unfold execPilotModeTransitionEnd
  repeat' first
    | with_reducible assumption
    | (intro (s : State) (h : Marked m s))
    | (intro _ (s : State) (h : Marked m s))
    | (intro (h : Marked m _))
    | (intro (s' : State); refine_lift have h : Marked m s' := ?_; ?_; clear_value s')
    | lift_lets
    | with_reducible apply markedO_next
    | with_reducible apply marked_ite
    | with_reducible apply markedO_ite
    | with_reducible apply marked_offerChanged
    | with_reducible apply marked_onLink
    | with_reducible refine marked_foldl ?_ (fun s x h => ?_)
    | (intro x'; clear_value x')
    | intro _
    | dsimp only [s']
    | split

theorem marked_pilotWrite (a0 : ℕ) (a1 : ℕ) (h : Marked m s) :
    Marked m (pilotWrite a0 a1 s) := by
  unfold pilotWrite
  repeat' first
    | with_reducible assumption
    | (intro (s : State) (h : Marked m s))
    | (intro _ (s : State) (h : Marked m s))
    | (intro (h : Marked m _))
    | (intro (s' : State); refine_lift have h : Marked m s' := ?_; ?_; clear_value s')
    | lift_lets
    | with_reducible apply markedO_next
    | with_reducible apply marked_ite
    | with_reducible apply marked_offerChanged
    | with_reducible apply marked_enterMode
    | with_reducible apply marked_onLink
    | with_reducible refine marked_foldl ?_ (fun s x h => ?_)
    | (intro x'; clear_value x')
    | intro _
    | dsimp only [s']
    | split

theorem marked_execVlkPilotWrite (a0 : ℕ) (a1 : Word) (h : Marked m s) :
    MarkedO m (execVlkPilotWrite a0 a1 s) := by
  unfold execVlkPilotWrite
  repeat' first
    | with_reducible assumption
    | (intro (s : State) (h : Marked m s))
    | (intro _ (s : State) (h : Marked m s))
    | (intro (h : Marked m _))
    | (intro (s' : State); refine_lift have h : Marked m s' := ?_; ?_; clear_value s')
    | lift_lets
    | with_reducible apply markedO_next
    | with_reducible apply marked_ite
    | with_reducible apply markedO_ite
    | with_reducible apply marked_pilotWrite
    | with_reducible refine marked_foldl ?_ (fun s x h => ?_)
    | (intro x'; clear_value x')
    | intro _
    | dsimp only [s']
    | split

theorem marked_execProximityCode (a0 : ℕ) (a1 : ℕ) (h : Marked m s) :
    MarkedO m (execProximityCode a0 a1 s) := by
  unfold execProximityCode
  repeat' first
    | with_reducible assumption
    | (intro (s : State) (h : Marked m s))
    | (intro _ (s : State) (h : Marked m s))
    | (intro (h : Marked m _))
    | (intro (s' : State); refine_lift have h : Marked m s' := ?_; ?_; clear_value s')
    | lift_lets
    | with_reducible apply markedO_next
    | with_reducible apply marked_ite
    | with_reducible apply markedO_ite
    | with_reducible apply marked_bump
    | with_reducible apply marked_onLink
    | with_reducible apply marked_endSession
    | with_reducible apply marked_logEv
    | with_reducible apply marked_offerChanged
    | with_reducible refine marked_foldl ?_ (fun s x h => ?_)
    | (intro x'; clear_value x')
    | intro _
    | dsimp only [s']
    | split

theorem marked_execVlkStart (a0 : Req) (a1 : ℕ) (h : Marked m s) :
    MarkedO m (execVlkStart a0 a1 s) := by
  unfold execVlkStart
  repeat' first
    | with_reducible assumption
    | (intro (s : State) (h : Marked m s))
    | (intro _ (s : State) (h : Marked m s))
    | (intro (h : Marked m _))
    | (intro (s' : State); refine_lift have h : Marked m s' := ?_; ?_; clear_value s')
    | lift_lets
    | with_reducible apply markedO_next
    | with_reducible apply marked_ite
    | with_reducible apply markedO_ite
    | with_reducible apply marked_guarded
    | with_reducible apply marked_startSession
    | with_reducible apply marked_postSts
    | with_reducible refine marked_foldl ?_ (fun s x h => ?_)
    | (intro x'; clear_value x')
    | intro _
    | dsimp only [s']
    | split

theorem marked_execVlkStop (a0 : Req) (a1 : ℕ) (a2 : ℕ) (h : Marked m s) :
    MarkedO m (execVlkStop a0 a1 a2 s) := by
  unfold execVlkStop
  repeat' first
    | with_reducible assumption
    | (intro (s : State) (h : Marked m s))
    | (intro _ (s : State) (h : Marked m s))
    | (intro (h : Marked m _))
    | (intro (s' : State); refine_lift have h : Marked m s' := ?_; ?_; clear_value s')
    | lift_lets
    | with_reducible apply markedO_next
    | with_reducible apply marked_ite
    | with_reducible apply markedO_ite
    | with_reducible apply marked_guarded
    | with_reducible apply marked_endSession
    | with_reducible apply marked_postSts
    | with_reducible refine marked_foldl ?_ (fun s x h => ?_)
    | (intro x'; clear_value x')
    | intro _
    | dsimp only [s']
    | split

theorem marked_execVlkUnlock (a0 : Req) (a1 : ℕ) (h : Marked m s) :
    MarkedO m (execVlkUnlock a0 a1 s) := by
  unfold execVlkUnlock
  repeat' first
    | with_reducible assumption
    | (intro (s : State) (h : Marked m s))
    | (intro _ (s : State) (h : Marked m s))
    | (intro (h : Marked m _))
    | (intro (s' : State); refine_lift have h : Marked m s' := ?_; ?_; clear_value s')
    | lift_lets
    | with_reducible apply markedO_next
    | with_reducible apply marked_ite
    | with_reducible apply markedO_ite
    | with_reducible apply marked_guarded
    | with_reducible apply marked_requestUnlock
    | with_reducible apply marked_postSts
    | with_reducible apply marked_setSup
    | with_reducible refine marked_foldl ?_ (fun s x h => ?_)
    | (intro x'; clear_value x')
    | intro _
    | dsimp only [s']
    | split

theorem marked_execReleaseRetry (a0 : ℕ) (h : Marked m s) :
    MarkedO m (execReleaseRetry a0 s) := by
  unfold execReleaseRetry
  repeat' first
    | with_reducible assumption
    | (intro (s : State) (h : Marked m s))
    | (intro _ (s : State) (h : Marked m s))
    | (intro (h : Marked m _))
    | (intro (x : OwlBlock) hx; first | exact ⟨hx.1⟩ | (split <;> exact ⟨hx.1⟩) | exact ⟨fun o ho => hx.1 o (flag_put_false ho)⟩ | exact ⟨fun o ho => (flag_none ho).elim⟩)
    | (intro (s' : State); refine_lift have h : Marked m s' := ?_; ?_; clear_value s')
    | lift_lets
    | with_reducible apply markedO_next
    | with_reducible apply marked_ite
    | with_reducible apply markedO_ite
    | with_reducible apply marked_endSession
    | with_reducible apply marked_logEv
    | with_reducible apply marked_onOwl
    | with_reducible apply marked_onLink
    | with_reducible refine marked_foldl ?_ (fun s x h => ?_)
    | (intro x'; clear_value x')
    | intro _
    | dsimp only [s']
    | split

theorem marked_execDcContactorOpen (a0 : ℕ) (h : Marked m s) :
    MarkedO m (execDcContactorOpen a0 s) := by
  unfold execDcContactorOpen
  repeat' first
    | with_reducible assumption
    | (intro (s : State) (h : Marked m s))
    | (intro _ (s : State) (h : Marked m s))
    | (intro (h : Marked m _))
    | (intro (s' : State); refine_lift have h : Marked m s' := ?_; ?_; clear_value s')
    | lift_lets
    | with_reducible apply markedO_next
    | with_reducible apply marked_ite
    | with_reducible apply markedO_ite
    | with_reducible apply marked_beginPostOpen
    | with_reducible apply marked_dropRelease
    | with_reducible refine marked_foldl ?_ (fun s x h => ?_)
    | (intro x'; clear_value x')
    | intro _
    | dsimp only [s']
    | split

theorem marked_execOverdraw (a0 : ℕ) (a1 : ℕ) (a2 : ℕ) (h : Marked m s) :
    MarkedO m (execOverdraw a0 a1 a2 s) := by
  unfold execOverdraw
  repeat' first
    | with_reducible assumption
    | (intro (s : State) (h : Marked m s))
    | (intro _ (s : State) (h : Marked m s))
    | (intro (h : Marked m _))
    | (intro (s' : State); refine_lift have h : Marked m s' := ?_; ?_; clear_value s')
    | lift_lets
    | with_reducible apply markedO_next
    | with_reducible apply marked_ite
    | with_reducible apply markedO_ite
    | with_reducible apply marked_onLink
    | with_reducible apply marked_endSession
    | with_reducible apply marked_logEv
    | with_reducible refine marked_foldl ?_ (fun s x h => ?_)
    | (intro x'; clear_value x')
    | intro _
    | dsimp only [s']
    | split

end Sys2Proof.Machine
end

