-- ==== Sys2Proof/Laws/MarkedWake.lean ====
section
/-! SUPPORT. The operations of Wake.lean take no mark back. -/

set_option linter.unusedVariables false
set_option linter.unreachableTactic false
set_option linter.unusedTactic false

namespace Sys2Proof.Machine

variable {m : Marks} {s : State}

theorem marked_endEntry (a0 : SleepEntry) (a1 : ℕ) (a2 : ℕ) (a3 : ℕ) (a4 : ℕ) (a5 : Bool) (a6 : ℕ) (h : Marked m s) :
    Marked m (endEntry a0 a1 a2 a3 a4 a5 a6 s) := by
  unfold endEntry
  repeat' first
    | with_reducible assumption
    | (intro (s : State) (h : Marked m s))
    | (intro _ (s : State) (h : Marked m s))
    | (intro (h : Marked m _))
    | (intro (s' : State); refine_lift have h : Marked m s' := ?_; ?_; clear_value s')
    | lift_lets
    | with_reducible apply markedO_next
    | with_reducible apply marked_ite
    | with_reducible apply marked_onSys
    | with_reducible apply marked_onMet
    | with_reducible apply marked_onGlk
    | with_reducible apply marked_logEv
    | with_reducible apply marked_post
    | with_reducible refine marked_foldl ?_ (fun s x h => ?_)
    | (intro x'; clear_value x')
    | intro _
    | dsimp only [s']
    | split

theorem marked_abandonSleep (a0 : SleepEntry) (a1 : ℕ) (h : Marked m s) :
    Marked m (abandonSleep a0 a1 s) := by
  unfold abandonSleep
  repeat' first
    | with_reducible assumption
    | (intro (s : State) (h : Marked m s))
    | (intro _ (s : State) (h : Marked m s))
    | (intro (h : Marked m _))
    | (intro (x : MgtBlock) hx; first | (show m.seq ≤ _; exact (hx : m.seq ≤ x.seq)) | (split <;> exact hx) | (dsimp only; repeat' split <;> exact hx))
    | (intro (s' : State); refine_lift have h : Marked m s' := ?_; ?_; clear_value s')
    | lift_lets
    | with_reducible apply markedO_next
    | with_reducible apply marked_ite
    | with_reducible apply marked_onSys
    | with_reducible apply marked_onMgt
    | with_reducible apply marked_endEntry
    | with_reducible refine marked_foldl ?_ (fun s x h => ?_)
    | (intro x'; clear_value x')
    | intro _
    | dsimp only [s']
    | split

theorem marked_actLatched  (h : Marked m s) :
    Marked m (actLatched s) := by
  unfold actLatched
  repeat' first
    | with_reducible assumption
    | (intro (s : State) (h : Marked m s))
    | (intro _ (s : State) (h : Marked m s))
    | (intro (h : Marked m _))
    | (intro (x : KeyBlock) hx; first | exact hx | (split <;> exact hx))
    | (intro (s' : State); refine_lift have h : Marked m s' := ?_; ?_; clear_value s')
    | lift_lets
    | with_reducible apply markedO_next
    | with_reducible apply marked_ite
    | with_reducible apply marked_tamperAct
    | with_reducible apply marked_onKey
    | with_reducible refine marked_foldl ?_ (fun s x h => ?_)
    | (intro x'; clear_value x')
    | intro _
    | dsimp only [s']
    | split

theorem marked_hsiWake  (h : Marked m s) :
    Marked m (hsiWake s) := by
  unfold hsiWake
  repeat' first
    | with_reducible assumption
    | (intro (s : State) (h : Marked m s))
    | (intro _ (s : State) (h : Marked m s))
    | (intro (h : Marked m _))
    | (intro (s' : State); refine_lift have h : Marked m s' := ?_; ?_; clear_value s')
    | lift_lets
    | with_reducible apply markedO_next
    | with_reducible apply marked_ite
    | with_reducible apply marked_onHsi
    | with_reducible refine marked_foldl ?_ (fun s x h => ?_)
    | (intro x'; clear_value x')
    | intro _
    | dsimp only [s']
    | split

theorem marked_wakeFromWatch (a0 : ℕ) (h : Marked m s) :
    Marked m (wakeFromWatch a0 s) := by
  unfold wakeFromWatch
  repeat' first
    | with_reducible assumption
    | (intro (s : State) (h : Marked m s))
    | (intro _ (s : State) (h : Marked m s))
    | (intro (h : Marked m _))
    | (intro (s' : State); refine_lift have h : Marked m s' := ?_; ?_; clear_value s')
    | lift_lets
    | with_reducible apply markedO_next
    | with_reducible apply marked_ite
    | with_reducible apply marked_onSys
    | with_reducible apply marked_onGlk
    | with_reducible apply marked_drainRetention
    | with_reducible apply marked_setMode
    | with_reducible apply marked_actLatched
    | with_reducible apply marked_loadSlots
    | with_reducible apply marked_deriveSlots
    | with_reducible apply marked_slotsChanged
    | with_reducible apply marked_glkAfterWatch
    | with_reducible apply marked_flushProfile
    | with_reducible apply marked_checkWake
    | with_reducible apply marked_hsiWake
    | with_reducible apply marked_onCans
    | with_reducible apply marked_evalMode
    | with_reducible apply marked_slacChecks
    | with_reducible refine marked_foldl ?_ (fun s x h => ?_)
    | (intro x'; clear_value x')
    | intro _
    | dsimp only [s']
    | split

theorem marked_wakeBy (a0 : ℕ) (a1 : Bool) (h : Marked m s) :
    Marked m (wakeBy a0 a1 s) := by
  unfold wakeBy
  repeat' first
    | with_reducible assumption
    | (intro (s : State) (h : Marked m s))
    | (intro _ (s : State) (h : Marked m s))
    | (intro (h : Marked m _))
    | (intro (s' : State); refine_lift have h : Marked m s' := ?_; ?_; clear_value s')
    | lift_lets
    | with_reducible apply markedO_next
    | with_reducible apply marked_ite
    | with_reducible apply marked_abandonSleep
    | with_reducible apply marked_wakeFromWatch
    | with_reducible apply marked_onSys
    | with_reducible refine marked_foldl ?_ (fun s x h => ?_)
    | (intro x'; clear_value x')
    | intro _
    | dsimp only [s']
    | split

theorem marked_execWakeEvent (a0 : ℕ) (a1 : Bool) (h : Marked m s) :
    MarkedO m (execWakeEvent a0 a1 s) := by
  unfold execWakeEvent
  repeat' first
    | with_reducible assumption
    | (intro (s : State) (h : Marked m s))
    | (intro _ (s : State) (h : Marked m s))
    | (intro (h : Marked m _))
    | (intro (s' : State); refine_lift have h : Marked m s' := ?_; ?_; clear_value s')
    | lift_lets
    | with_reducible apply markedO_next
    | with_reducible apply marked_ite
    | with_reducible apply markedO_ite
    | with_reducible apply marked_wakeBy
    | with_reducible refine marked_foldl ?_ (fun s x h => ?_)
    | (intro x'; clear_value x')
    | intro _
    | dsimp only [s']
    | split

theorem marked_execSysWakeWrite (a0 : Word) (h : Marked m s) :
    MarkedO m (execSysWakeWrite a0 s) := by
  unfold execSysWakeWrite
  repeat' first
    | with_reducible assumption
    | (intro (s : State) (h : Marked m s))
    | (intro _ (s : State) (h : Marked m s))
    | (intro (h : Marked m _))
    | (intro (s' : State); refine_lift have h : Marked m s' := ?_; ?_; clear_value s')
    | lift_lets
    | with_reducible apply markedO_next
    | with_reducible apply marked_ite
    | with_reducible apply markedO_ite
    | with_reducible apply marked_wakeBy
    | with_reducible refine marked_foldl ?_ (fun s x h => ?_)
    | (intro x'; clear_value x')
    | intro _
    | dsimp only [s']
    | split

theorem marked_execSysWakesrcRead (a0 : Side) (h : Marked m s) :
    MarkedO m (execSysWakesrcRead a0 s) := by
  unfold execSysWakesrcRead
  repeat' first
    | with_reducible assumption
    | (intro (s : State) (h : Marked m s))
    | (intro _ (s : State) (h : Marked m s))
    | (intro (h : Marked m _))
    | (intro (s' : State); refine_lift have h : Marked m s' := ?_; ?_; clear_value s')
    | lift_lets
    | with_reducible apply markedO_next
    | with_reducible apply marked_ite
    | with_reducible apply markedO_ite
    | with_reducible apply marked_returns
    | with_reducible apply marked_onSys
    | with_reducible refine marked_foldl ?_ (fun s x h => ?_)
    | (intro x'; clear_value x')
    | intro _
    | dsimp only [s']
    | split

theorem marked_execAlarmFire  (h : Marked m s) :
    MarkedO m (execAlarmFire s) := by
  unfold execAlarmFire
  repeat' first
    | with_reducible assumption
    | (intro (s : State) (h : Marked m s))
    | (intro _ (s : State) (h : Marked m s))
    | (intro (h : Marked m _))
    | (intro (s' : State); refine_lift have h : Marked m s' := ?_; ?_; clear_value s')
    | lift_lets
    | with_reducible apply markedO_next
    | with_reducible apply marked_ite
    | with_reducible apply markedO_ite
    | with_reducible apply marked_wakeBy
    | with_reducible apply marked_fireAlarm
    | with_reducible refine marked_foldl ?_ (fun s x h => ?_)
    | (intro x'; clear_value x')
    | intro _
    | dsimp only [s']
    | split

theorem marked_countdown  (h : Marked m s) :
    Marked m (countdown s) := by
  unfold countdown
  repeat' first
    | with_reducible assumption
    | (intro (s : State) (h : Marked m s))
    | (intro _ (s : State) (h : Marked m s))
    | (intro (h : Marked m _))
    | (intro (x : KeyBlock) hx; first | exact hx | (split <;> exact hx))
    | (intro (x : UpdBlock) hx; first | exact ⟨hx.1⟩ | (split <;> exact ⟨hx.1⟩))
    | (intro (s' : State); refine_lift have h : Marked m s' := ?_; ?_; clear_value s')
    | lift_lets
    | with_reducible apply markedO_next
    | with_reducible apply marked_ite
    | with_reducible apply marked_onKey
    | with_reducible apply marked_onUpd
    | with_reducible refine marked_foldl ?_ (fun s x h => ?_)
    | (intro x'; clear_value x')
    | intro _
    | dsimp only [s']
    | split

theorem marked_execSecondBoundary  (h : Marked m s) :
    MarkedO m (execSecondBoundary s) := by
  unfold execSecondBoundary
  repeat' first
    | with_reducible assumption
    | (intro (s : State) (h : Marked m s))
    | (intro _ (s : State) (h : Marked m s))
    | (intro (h : Marked m _))
    | (intro (s' : State); refine_lift have h : Marked m s' := ?_; ?_; clear_value s')
    | lift_lets
    | with_reducible apply markedO_next
    | with_reducible apply marked_ite
    | with_reducible apply markedO_ite
    | with_reducible apply marked_countdown
    | with_reducible apply marked_secondBoundary
    | with_reducible apply marked_wakeBy
    | with_reducible refine marked_foldl ?_ (fun s x h => ?_)
    | (intro x'; clear_value x')
    | intro _
    | dsimp only [s']
    | split

theorem marked_execPilotStateAccepted (a0 : ℕ) (a1 : ℤ) (a2 : ℤ) (h : Marked m s) :
    MarkedO m (execPilotStateAccepted a0 a1 a2 s) := by
  unfold execPilotStateAccepted
  repeat' first
    | with_reducible assumption
    | (intro (s : State) (h : Marked m s))
    | (intro _ (s : State) (h : Marked m s))
    | (intro (h : Marked m _))
    | (intro (s' : State); refine_lift have h : Marked m s' := ?_; ?_; clear_value s')
    | lift_lets
    | with_reducible apply markedO_next
    | with_reducible apply marked_ite
    | with_reducible apply markedO_ite
    | with_reducible apply marked_wakeBy
    | with_reducible apply marked_pilotAccepted
    | with_reducible apply marked_slacCheck
    | with_reducible refine marked_foldl ?_ (fun s x h => ?_)
    | (intro x'; clear_value x')
    | intro _
    | dsimp only [s']
    | split

theorem marked_execFieldDetection  (h : Marked m s) :
    MarkedO m (execFieldDetection s) := by
  unfold execFieldDetection
  repeat' first
    | with_reducible assumption
    | (intro (s : State) (h : Marked m s))
    | (intro _ (s : State) (h : Marked m s))
    | (intro (h : Marked m _))
    | (intro (s' : State); refine_lift have h : Marked m s' := ?_; ?_; clear_value s')
    | lift_lets
    | with_reducible apply markedO_next
    | with_reducible apply marked_ite
    | with_reducible apply markedO_ite
    | with_reducible apply marked_wakeBy
    | with_reducible apply marked_takeDetection
    | with_reducible refine marked_foldl ?_ (fun s x h => ?_)
    | (intro x'; clear_value x')
    | intro _
    | dsimp only [s']
    | split

theorem marked_execFullPoll (a0 : PollInput) (h : Marked m s) :
    MarkedO m (execFullPoll a0 s) := by
  unfold execFullPoll
  repeat' first
    | with_reducible assumption
    | (intro (s : State) (h : Marked m s))
    | (intro _ (s : State) (h : Marked m s))
    | (intro (h : Marked m _))
    | (intro (s' : State); refine_lift have h : Marked m s' := ?_; ?_; clear_value s')
    | lift_lets
    | with_reducible apply markedO_next
    | with_reducible apply marked_ite
    | with_reducible apply markedO_ite
    | with_reducible apply marked_fullPoll
    | with_reducible apply marked_wakeBy
    | with_reducible refine marked_foldl ?_ (fun s x h => ?_)
    | (intro x'; clear_value x')
    | intro _
    | dsimp only [s']
    | split

theorem marked_tamperDetect (a0 : ℕ) (h : Marked m s) :
    Marked m (tamperDetect a0 s) := by
  unfold tamperDetect
  repeat' first
    | with_reducible assumption
    | (intro (s : State) (h : Marked m s))
    | (intro _ (s : State) (h : Marked m s))
    | (intro (h : Marked m _))
    | (intro (x : KeyBlock) hx; first | exact hx | (split <;> exact hx))
    | (intro (s' : State); refine_lift have h : Marked m s' := ?_; ?_; clear_value s')
    | lift_lets
    | with_reducible apply markedO_next
    | with_reducible apply marked_ite
    | with_reducible apply marked_onKey
    | with_reducible apply marked_wakeBy
    | with_reducible apply marked_tamperAct
    | with_reducible refine marked_foldl ?_ (fun s x h => ?_)
    | (intro x'; clear_value x')
    | intro _
    | dsimp only [s']
    | split

theorem marked_execTamperDetect (a0 : ℕ) (h : Marked m s) :
    MarkedO m (execTamperDetect a0 s) := by
  unfold execTamperDetect
  repeat' first
    | with_reducible assumption
    | (intro (s : State) (h : Marked m s))
    | (intro _ (s : State) (h : Marked m s))
    | (intro (h : Marked m _))
    | (intro (s' : State); refine_lift have h : Marked m s' := ?_; ?_; clear_value s')
    | lift_lets
    | with_reducible apply markedO_next
    | with_reducible apply marked_ite
    | with_reducible apply markedO_ite
    | with_reducible apply marked_tamperDetect
    | with_reducible refine marked_foldl ?_ (fun s x h => ?_)
    | (intro x'; clear_value x')
    | intro _
    | dsimp only [s']
    | split

theorem marked_execCrackLoopMeasure (a0 : ℕ) (a1 : Bool) (h : Marked m s) :
    MarkedO m (execCrackLoopMeasure a0 a1 s) := by
  unfold execCrackLoopMeasure
  repeat' first
    | with_reducible assumption
    | (intro (s : State) (h : Marked m s))
    | (intro _ (s : State) (h : Marked m s))
    | (intro (h : Marked m _))
    | (intro (s' : State); refine_lift have h : Marked m s' := ?_; ?_; clear_value s')
    | lift_lets
    | with_reducible apply markedO_next
    | with_reducible apply marked_ite
    | with_reducible apply markedO_ite
    | with_reducible apply marked_crackMeasure
    | with_reducible apply marked_tamperDetect
    | with_reducible refine marked_foldl ?_ (fun s x h => ?_)
    | (intro x'; clear_value x')
    | intro _
    | dsimp only [s']
    | split

theorem marked_execMonitorEvaluate (a0 : MonitorInput) (h : Marked m s) :
    MarkedO m (execMonitorEvaluate a0 s) := by
  unfold execMonitorEvaluate
  repeat' first
    | with_reducible assumption
    | (intro (s : State) (h : Marked m s))
    | (intro _ (s : State) (h : Marked m s))
    | (intro (h : Marked m _))
    | (intro (s' : State); refine_lift have h : Marked m s' := ?_; ?_; clear_value s')
    | lift_lets
    | with_reducible apply markedO_next
    | with_reducible apply marked_ite
    | with_reducible apply markedO_ite
    | with_reducible apply marked_monitor
    | with_reducible apply marked_abandonSleep
    | with_reducible refine marked_foldl ?_ (fun s x h => ?_)
    | (intro x'; clear_value x')
    | intro _
    | dsimp only [s']
    | split

theorem marked_execGlkWakeInd (a0 : Bytes) (h : Marked m s) :
    MarkedO m (execGlkWakeInd a0 s) := by
  unfold execGlkWakeInd
  repeat' first
    | with_reducible assumption
    | (intro (s : State) (h : Marked m s))
    | (intro _ (s : State) (h : Marked m s))
    | (intro (h : Marked m _))
    | (intro (s' : State); refine_lift have h : Marked m s' := ?_; ?_; clear_value s')
    | lift_lets
    | with_reducible apply markedO_next
    | with_reducible apply marked_ite
    | with_reducible apply markedO_ite
    | with_reducible apply marked_onGlk
    | with_reducible apply marked_wakeBy
    | with_reducible refine marked_foldl ?_ (fun s x h => ?_)
    | (intro x'; clear_value x')
    | intro _
    | dsimp only [s']
    | split

theorem marked_execSleep (a0 : Req) (a1 : ℕ) (h : Marked m s) :
    MarkedO m (execSleep a0 a1 s) := by
  unfold execSleep
  repeat' first
    | with_reducible assumption
    | (intro (s : State) (h : Marked m s))
    | (intro _ (s : State) (h : Marked m s))
    | (intro (h : Marked m _))
    | (intro (s' : State); refine_lift have h : Marked m s' := ?_; ?_; clear_value s')
    | lift_lets
    | with_reducible apply markedO_next
    | with_reducible apply marked_ite
    | with_reducible apply markedO_ite
    | with_reducible apply marked_badgerCmd
    | with_reducible apply marked_guarded
    | with_reducible apply marked_pend
    | with_reducible apply marked_onSys
    | with_reducible refine marked_foldl ?_ (fun s x h => ?_)
    | (intro x'; clear_value x')
    | intro _
    | dsimp only [s']
    | split

theorem marked_execSleepVoteTimeout (a0 : ℕ) (h : Marked m s) :
    MarkedO m (execSleepVoteTimeout a0 s) := by
  unfold execSleepVoteTimeout
  repeat' first
    | with_reducible assumption
    | (intro (s : State) (h : Marked m s))
    | (intro _ (s : State) (h : Marked m s))
    | (intro (h : Marked m _))
    | (intro (x : MgtBlock) hx; first | (show m.seq ≤ _; exact (hx : m.seq ≤ x.seq)) | (split <;> exact hx) | (dsimp only; repeat' split <;> exact hx))
    | (intro (s' : State); refine_lift have h : Marked m s' := ?_; ?_; clear_value s')
    | lift_lets
    | with_reducible apply markedO_next
    | with_reducible apply marked_ite
    | with_reducible apply markedO_ite
    | with_reducible apply marked_onSys
    | with_reducible apply marked_endEntry
    | with_reducible apply marked_onMgt
    | with_reducible refine marked_foldl ?_ (fun s x h => ?_)
    | (intro x'; clear_value x')
    | intro _
    | dsimp only [s']
    | split

theorem marked_execSleepCommit  (h : Marked m s) :
    MarkedO m (execSleepCommit s) := by
  unfold execSleepCommit
  repeat' first
    | with_reducible assumption
    | (intro (s : State) (h : Marked m s))
    | (intro _ (s : State) (h : Marked m s))
    | (intro (h : Marked m _))
    | (intro (s' : State); refine_lift have h : Marked m s' := ?_; ?_; clear_value s')
    | lift_lets
    | with_reducible apply markedO_next
    | with_reducible apply marked_ite
    | with_reducible apply markedO_ite
    | with_reducible apply marked_onSys
    | with_reducible apply marked_flushLog
    | with_reducible apply marked_renewLease
    | with_reducible apply marked_saveRtc
    | with_reducible apply marked_onMet
    | with_reducible apply marked_saveAtOnce
    | with_reducible refine marked_foldl ?_ (fun s x h => ?_)
    | (intro x'; clear_value x')
    | intro _
    | dsimp only [s']
    | split

theorem marked_execSleepArm  (h : Marked m s) :
    MarkedO m (execSleepArm s) := by
  unfold execSleepArm
  repeat' first
    | with_reducible assumption
    | (intro (s : State) (h : Marked m s))
    | (intro _ (s : State) (h : Marked m s))
    | (intro (h : Marked m _))
    | (intro (s' : State); refine_lift have h : Marked m s' := ?_; ?_; clear_value s')
    | lift_lets
    | with_reducible apply markedO_next
    | with_reducible apply marked_ite
    | with_reducible apply markedO_ite
    | with_reducible apply marked_onGlk
    | with_reducible apply marked_onSys
    | with_reducible refine marked_foldl ?_ (fun s x h => ?_)
    | (intro x'; clear_value x')
    | intro _
    | dsimp only [s']
    | split

theorem marked_powerOff  (h : Marked m s) :
    Marked m (powerOff s) := by
  unfold powerOff
  repeat' first
    | with_reducible assumption
    | (intro (s : State) (h : Marked m s))
    | (intro _ (s : State) (h : Marked m s))
    | (intro (h : Marked m _))
    | (intro (x : MgtBlock) hx; first | (show m.seq ≤ _; exact (hx : m.seq ≤ x.seq)) | (split <;> exact hx) | (dsimp only; repeat' split <;> exact hx))
    | (intro (x : KeyBlock) hx; first | exact hx | (split <;> exact hx))
    | (intro (s' : State); refine_lift have h : Marked m s' := ?_; ?_; clear_value s')
    | lift_lets
    | with_reducible apply markedO_next
    | with_reducible apply marked_ite
    | with_reducible apply marked_startCluster
    | with_reducible apply marked_onMgt
    | with_reducible apply marked_onKey
    | with_reducible apply marked_onHsi
    | with_reducible apply marked_onGlk
    | with_reducible apply marked_onEth
    | with_reducible apply marked_onEpd
    | with_reducible apply marked_onTag
    | with_reducible apply marked_slacOff
    | with_reducible apply marked_onCans
    | with_reducible refine marked_foldl ?_ (fun s x h => ?_)
    | (intro x'; clear_value x')
    | intro _
    | dsimp only [s']
    | split

theorem marked_execSleepEnter  (h : Marked m s) :
    MarkedO m (execSleepEnter s) := by
  unfold execSleepEnter
  repeat' first
    | with_reducible assumption
    | (intro (s : State) (h : Marked m s))
    | (intro _ (s : State) (h : Marked m s))
    | (intro (h : Marked m _))
    | (intro (x : MgtBlock) hx; first | (show m.seq ≤ _; exact (hx : m.seq ≤ x.seq)) | (split <;> exact hx) | (dsimp only; repeat' split <;> exact hx))
    | (intro (x : OwlBlock) hx; first | exact ⟨hx.1⟩ | (split <;> exact ⟨hx.1⟩) | exact ⟨fun o ho => hx.1 o (flag_put_false ho)⟩ | exact ⟨fun o ho => (flag_none ho).elim⟩)
    | (intro (s' : State); refine_lift have h : Marked m s' := ?_; ?_; clear_value s')
    | lift_lets
    | with_reducible apply markedO_next
    | with_reducible apply marked_ite
    | with_reducible apply markedO_ite
    | with_reducible apply marked_flushLog
    | with_reducible apply marked_onSys
    | with_reducible apply marked_onMgt
    | with_reducible apply marked_powerOff
    | with_reducible apply marked_setMode
    | with_reducible apply marked_glkGate
    | with_reducible apply marked_onOwl
    | with_reducible apply marked_outputsSafe
    | with_reducible apply marked_onMet
    | with_reducible refine marked_foldl ?_ (fun s x h => ?_)
    | (intro x'; clear_value x')
    | intro _
    | dsimp only [s']
    | split

theorem marked_execModeSet (a0 : Req) (a1 : ℕ) (h : Marked m s) :
    MarkedO m (execModeSet a0 a1 s) := by
  unfold execModeSet
  repeat' first
    | with_reducible assumption
    | (intro (s : State) (h : Marked m s))
    | (intro _ (s : State) (h : Marked m s))
    | (intro (h : Marked m _))
    | (intro (s' : State); refine_lift have h : Marked m s' := ?_; ?_; clear_value s')
    | lift_lets
    | with_reducible apply markedO_next
    | with_reducible apply marked_ite
    | with_reducible apply markedO_ite
    | with_reducible apply marked_badgerCmd
    | with_reducible apply marked_guarded
    | with_reducible apply marked_postSts
    | with_reducible apply marked_setMode
    | with_reducible apply marked_evalMode
    | with_reducible refine marked_foldl ?_ (fun s x h => ?_)
    | (intro x'; clear_value x')
    | intro _
    | dsimp only [s']
    | split

theorem marked_execLimpExit  (h : Marked m s) :
    MarkedO m (execLimpExit s) := by
  unfold execLimpExit
  repeat' first
    | with_reducible assumption
    | (intro (s : State) (h : Marked m s))
    | (intro _ (s : State) (h : Marked m s))
    | (intro (h : Marked m _))
    | (intro (s' : State); refine_lift have h : Marked m s' := ?_; ?_; clear_value s')
    | lift_lets
    | with_reducible apply markedO_next
    | with_reducible apply marked_ite
    | with_reducible apply markedO_ite
    | with_reducible apply marked_slacChecks
    | with_reducible apply marked_resumeRings
    | with_reducible apply marked_evalMode
    | with_reducible apply marked_setMode
    | with_reducible refine marked_foldl ?_ (fun s x h => ?_)
    | (intro x'; clear_value x')
    | intro _
    | dsimp only [s']
    | split

end Sys2Proof.Machine
end

