-- ==== Sys2Proof/Laws/MarkedActivate.lean ====
section
/-! SUPPORT. The operations of Activate.lean take no mark back. -/

set_option linter.unusedVariables false
set_option linter.unreachableTactic false
set_option linter.unusedTactic false

namespace Sys2Proof.Machine

variable {m : Marks} {s : State}

theorem marked_cutWarm (a0 : Struct) (a1 : Struct) (a2 : Warmup) (h : Marked m s) :
    Marked m (cutWarm a0 a1 a2 s) := by
  unfold cutWarm
  repeat' first
    | with_reducible assumption
    | (intro (s : State) (h : Marked m s))
    | (intro _ (s : State) (h : Marked m s))
    | (intro (h : Marked m _))
    | (intro (s' : State); refine_lift have h : Marked m s' := ?_; ?_; clear_value s')
    | lift_lets
    | with_reducible apply markedO_next
    | with_reducible apply marked_ite
    | with_reducible apply marked_onLaneBlk
    | with_reducible apply marked_releaseSpare
    | with_reducible refine marked_foldl ?_ (fun s x h => ?_)
    | (intro x'; clear_value x')
    | intro _
    | dsimp only [s']
    | split

theorem marked_startLanes (a0 : Struct) (a1 : Struct) (h : Marked m s) :
    Marked m (startLanes a0 a1 s) := by
  unfold startLanes
  repeat' first
    | with_reducible assumption
    | (intro (s : State) (h : Marked m s))
    | (intro _ (s : State) (h : Marked m s))
    | (intro (h : Marked m _))
    | (intro (s' : State); refine_lift have h : Marked m s' := ?_; ?_; clear_value s')
    | lift_lets
    | with_reducible apply markedO_next
    | with_reducible apply marked_ite
    | with_reducible apply marked_cutWarm
    | with_reducible apply marked_onLaneBlk
    | with_reducible refine marked_foldl ?_ (fun s x h => ?_)
    | (intro x'; clear_value x')
    | intro _
    | dsimp only [s']
    | split

theorem marked_startOutlets (a0 : Struct) (a1 : Struct) (h : Marked m s) :
    Marked m (startOutlets a0 a1 s) := by
  unfold startOutlets
  repeat' first
    | with_reducible assumption
    | (intro (s : State) (h : Marked m s))
    | (intro _ (s : State) (h : Marked m s))
    | (intro (h : Marked m _))
    | (intro (x : OwlBlock) hx; first | exact ⟨hx.1⟩ | (split <;> exact ⟨hx.1⟩) | exact ⟨fun o ho => hx.1 o (flag_put_false ho)⟩ | exact ⟨fun o ho => (flag_none ho).elim⟩)
    | (intro (s' : State); refine_lift have h : Marked m s' := ?_; ?_; clear_value s')
    | lift_lets
    | with_reducible apply markedO_next
    | with_reducible apply marked_ite
    | with_reducible apply marked_onMet
    | with_reducible apply marked_onBil
    | with_reducible apply marked_onFlt
    | with_reducible apply marked_onOwl
    | with_reducible refine marked_foldl ?_ (fun s x h => ?_)
    | (intro x'; clear_value x')
    | intro _
    | dsimp only [s']
    | split

theorem marked_startChannels (a0 : Struct) (a1 : Struct) (h : Marked m s) :
    Marked m (startChannels a0 a1 s) := by
  unfold startChannels
  repeat' first
    | with_reducible assumption
    | (intro (s : State) (h : Marked m s))
    | (intro _ (s : State) (h : Marked m s))
    | (intro (h : Marked m _))
    | (intro (s' : State); refine_lift have h : Marked m s' := ?_; ?_; clear_value s')
    | lift_lets
    | with_reducible apply markedO_next
    | with_reducible apply marked_ite
    | with_reducible apply marked_onPwr
    | with_reducible refine marked_foldl ?_ (fun s x h => ?_)
    | (intro x'; clear_value x')
    | intro _
    | dsimp only [s']
    | split

theorem marked_startLinks (a0 : Struct) (a1 : Struct) (h : Marked m s) :
    Marked m (startLinks a0 a1 s) := by
  exact h

theorem marked_startBlocks (a0 : Struct) (a1 : Struct) (h : Marked m s) :
    Marked m (startBlocks a0 a1 s) := by
  unfold startBlocks
  repeat' first
    | with_reducible assumption
    | (intro (s : State) (h : Marked m s))
    | (intro _ (s : State) (h : Marked m s))
    | (intro (h : Marked m _))
    | (intro (x : OwlBlock) hx; first | exact ⟨hx.1⟩ | (split <;> exact ⟨hx.1⟩) | exact ⟨fun o ho => hx.1 o (flag_put_false ho)⟩ | exact ⟨fun o ho => (flag_none ho).elim⟩)
    | (intro (s' : State); refine_lift have h : Marked m s' := ?_; ?_; clear_value s')
    | lift_lets
    | with_reducible apply markedO_next
    | with_reducible apply marked_ite
    | with_reducible apply marked_onGlk
    | with_reducible apply marked_dropMember
    | with_reducible apply marked_onEth
    | with_reducible apply marked_onCan
    | with_reducible apply marked_onTag
    | with_reducible apply marked_startEpd
    | with_reducible apply marked_onEpd
    | with_reducible apply marked_reestimateAll
    | with_reducible apply marked_glkGate
    | with_reducible apply marked_onOwl
    | with_reducible refine marked_foldl ?_ (fun s x h => ?_)
    | (intro x'; clear_value x')
    | intro _
    | dsimp only [s']
    | split

theorem marked_installStruct (a0 : ℕ) (a1 : Struct) (h : Marked m s) :
    Marked m (installStruct a0 a1 s) := by
  unfold installStruct
  repeat' first
    | with_reducible assumption
    | (intro (s : State) (h : Marked m s))
    | (intro _ (s : State) (h : Marked m s))
    | (intro (h : Marked m _))
    | (intro (s' : State); refine_lift have h : Marked m s' := ?_; ?_; clear_value s')
    | lift_lets
    | with_reducible apply markedO_next
    | with_reducible apply marked_ite
    | with_reducible apply marked_onStr
    | with_reducible apply marked_startOutlets
    | with_reducible apply marked_startLanes
    | with_reducible apply marked_zcCheck
    | with_reducible apply marked_startBlocks
    | with_reducible apply marked_startLinks
    | with_reducible apply marked_startChannels
    | with_reducible refine marked_foldl ?_ (fun s x h => ?_)
    | (intro x'; clear_value x')
    | intro _
    | dsimp only [s']
    | split

theorem marked_connectSpare (a0 : SubstRec) (h : Marked m s) :
    Marked m (connectSpare a0 s) := by
  unfold connectSpare
  repeat' first
    | with_reducible assumption
    | (intro (s : State) (h : Marked m s))
    | (intro _ (s : State) (h : Marked m s))
    | (intro (h : Marked m _))
    | (intro (s' : State); refine_lift have h : Marked m s' := ?_; ?_; clear_value s')
    | lift_lets
    | with_reducible apply markedO_next
    | with_reducible apply marked_ite
    | with_reducible apply marked_onStr
    | with_reducible apply marked_onLane
    | with_reducible refine marked_foldl ?_ (fun s x h => ?_)
    | (intro x'; clear_value x')
    | intro _
    | dsimp only [s']
    | split

theorem marked_restartLane (a0 : ℕ) (h : Marked m s) :
    Marked m (restartLane a0 s) := by
  unfold restartLane
  repeat' first
    | with_reducible assumption
    | (intro (s : State) (h : Marked m s))
    | (intro _ (s : State) (h : Marked m s))
    | (intro (h : Marked m _))
    | (intro (s' : State); refine_lift have h : Marked m s' := ?_; ?_; clear_value s')
    | lift_lets
    | with_reducible apply markedO_next
    | with_reducible apply marked_ite
    | with_reducible apply marked_onLane
    | with_reducible refine marked_foldl ?_ (fun s x h => ?_)
    | (intro x'; clear_value x')
    | intro _
    | dsimp only [s']
    | split

theorem marked_discardSubst (a0 : SubstRec) (a1 : ℕ) (h : Marked m s) :
    Marked m (discardSubst a0 a1 s) := by
  unfold discardSubst
  repeat' first
    | with_reducible assumption
    | (intro (s : State) (h : Marked m s))
    | (intro _ (s : State) (h : Marked m s))
    | (intro (h : Marked m _))
    | (intro (s' : State); refine_lift have h : Marked m s' := ?_; ?_; clear_value s')
    | lift_lets
    | with_reducible apply markedO_next
    | with_reducible apply marked_ite
    | with_reducible apply marked_onStr
    | with_reducible apply marked_dropWarm
    | with_reducible apply marked_onLaneBlk
    | with_reducible apply marked_restartLane
    | with_reducible apply marked_logEv
    | with_reducible apply marked_onMet
    | with_reducible refine marked_foldl ?_ (fun s x h => ?_)
    | (intro x'; clear_value x')
    | intro _
    | dsimp only [s']
    | split

theorem marked_judgeSwaps (a0 : Bool) (h : Marked m s) :
    Marked m (judgeSwaps a0 s) := by
  unfold judgeSwaps
  repeat' first
    | with_reducible assumption
    | (intro (s : State) (h : Marked m s))
    | (intro _ (s : State) (h : Marked m s))
    | (intro (h : Marked m _))
    | (intro (s' : State); refine_lift have h : Marked m s' := ?_; ?_; clear_value s')
    | lift_lets
    | with_reducible apply markedO_next
    | with_reducible apply marked_ite
    | with_reducible apply marked_serveQueue
    | with_reducible apply marked_connectSpare
    | with_reducible apply marked_discardSubst
    | with_reducible refine marked_foldl ?_ (fun s x h => ?_)
    | (intro x'; clear_value x')
    | intro _
    | dsimp only [s']
    | split

theorem marked_repairTwin {Tw : Type} (a1 : ℕ) (a2 : Twin Tw) (a3 : Twin Tw → State → State) (hf3 : ∀ x s, Marked m s → Marked m (a3 x s)) (h : Marked m s) :
    Marked m (repairTwin a1 a2 a3 s) := by
  unfold repairTwin
  repeat' first
    | with_reducible assumption
    | (intro (s : State) (h : Marked m s))
    | (intro _ (s : State) (h : Marked m s))
    | (intro (h : Marked m _))
    | (intro (s' : State); refine_lift have h : Marked m s' := ?_; ?_; clear_value s')
    | lift_lets
    | with_reducible apply markedO_next
    | with_reducible apply marked_ite
    | with_reducible apply marked_legalEv
    | with_reducible refine marked_foldl ?_ (fun s x h => ?_)
    | apply hf3
    | (intro x'; clear_value x')
    | intro _
    | dsimp only [s']
    | split

theorem marked_ctlLost  (h : Marked m s) :
    Marked m (ctlLost s) := by
  unfold ctlLost
  repeat' first
    | with_reducible assumption
    | (intro (s : State) (h : Marked m s))
    | (intro _ (s : State) (h : Marked m s))
    | (intro (h : Marked m _))
    | (intro (s' : State); refine_lift have h : Marked m s' := ?_; ?_; clear_value s')
    | lift_lets
    | with_reducible apply markedO_next
    | with_reducible apply marked_ite
    | with_reducible apply marked_legalEv
    | with_reducible apply marked_onBil
    | with_reducible refine marked_foldl ?_ (fun s x h => ?_)
    | (intro x'; clear_value x')
    | intro _
    | dsimp only [s']
    | split

theorem marked_storeCheck  (h : Marked m s) :
    Marked m (storeCheck s) := by
  unfold storeCheck
  repeat' first
    | with_reducible assumption
    | (intro (s : State) (h : Marked m s))
    | (intro _ (s : State) (h : Marked m s))
    | (intro (h : Marked m _))
    | (intro (s' : State); refine_lift have h : Marked m s' := ?_; ?_; clear_value s')
    | lift_lets
    | with_reducible apply markedO_next
    | with_reducible apply marked_ite
    | with_reducible apply marked_repairTwin
    | with_reducible apply marked_onMet
    | with_reducible apply marked_ctlLost
    | with_reducible apply marked_onBil
    | with_reducible apply marked_legalEv
    | with_reducible refine marked_foldl ?_ (fun s x h => ?_)
    | (intro x'; clear_value x')
    | intro _
    | dsimp only [s']
    | split

theorem marked_restoreOutlets (a0 : SaveRec) (h : Marked m s) :
    Marked m (restoreOutlets a0 s) := by
  unfold restoreOutlets
  repeat' first
    | with_reducible assumption
    | (intro (s : State) (h : Marked m s))
    | (intro _ (s : State) (h : Marked m s))
    | (intro (h : Marked m _))
    | (intro (s' : State); refine_lift have h : Marked m s' := ?_; ?_; clear_value s')
    | lift_lets
    | with_reducible apply markedO_next
    | with_reducible apply marked_ite
    | with_reducible apply marked_restoreLedger
    | with_reducible apply marked_onMet
    | with_reducible apply marked_onBil
    | with_reducible refine marked_foldl ?_ (fun s x h => ?_)
    | (intro x'; clear_value x')
    | intro _
    | dsimp only [s']
    | split

theorem marked_endOpenSessions  (h : Marked m s) :
    Marked m (endOpenSessions s) := by
  unfold endOpenSessions
  repeat' first
    | with_reducible assumption
    | (intro (s : State) (h : Marked m s))
    | (intro _ (s : State) (h : Marked m s))
    | (intro (h : Marked m _))
    | (intro (s' : State); refine_lift have h : Marked m s' := ?_; ?_; clear_value s')
    | lift_lets
    | with_reducible apply markedO_next
    | with_reducible apply marked_ite
    | with_reducible apply marked_onMetOut
    | with_reducible refine marked_foldl ?_ (fun s x h => ?_)
    | (intro x'; clear_value x')
    | intro _
    | dsimp only [s']
    | split

theorem marked_metStart  (h : Marked m s) :
    Marked m (metStart s) := by
  unfold metStart
  repeat' first
    | with_reducible assumption
    | (intro (s : State) (h : Marked m s))
    | (intro _ (s : State) (h : Marked m s))
    | (intro (h : Marked m _))
    | (intro (s' : State); refine_lift have h : Marked m s' := ?_; ?_; clear_value s')
    | lift_lets
    | with_reducible apply markedO_next
    | with_reducible apply marked_ite
    | with_reducible apply marked_storeCheck
    | with_reducible apply marked_onMet
    | with_reducible apply marked_endOpenSessions
    | with_reducible apply marked_onBil
    | with_reducible apply marked_restoreLedger
    | with_reducible apply marked_billRestart
    | with_reducible apply marked_legalEv
    | with_reducible apply marked_onCounters
    | with_reducible apply marked_restoreOutlets
    | with_reducible apply marked_profileRestart
    | with_reducible refine marked_foldl ?_ (fun s x h => ?_)
    | (intro x'; clear_value x')
    | intro _
    | dsimp only [s']
    | split

theorem marked_safetyChanged (a0 : Struct) (a1 : Bytes) (a2 : Side) (h : Marked m s) :
    Marked m (safetyChanged a0 a1 a2 s) := by
  unfold safetyChanged
  repeat' first
    | with_reducible assumption
    | (intro (s : State) (h : Marked m s))
    | (intro _ (s : State) (h : Marked m s))
    | (intro (h : Marked m _))
    | (intro (x : OwlBlock) hx; first | exact ⟨hx.1⟩ | (split <;> exact ⟨hx.1⟩) | exact ⟨fun o ho => hx.1 o (flag_put_false ho)⟩ | exact ⟨fun o ho => (flag_none ho).elim⟩)
    | (intro (s' : State); refine_lift have h : Marked m s' := ?_; ?_; clear_value s')
    | lift_lets
    | with_reducible apply markedO_next
    | with_reducible apply marked_ite
    | with_reducible apply marked_onOwl
    | with_reducible apply marked_changeEntry
    | with_reducible refine marked_foldl ?_ (fun s x h => ?_)
    | (intro x'; clear_value x')
    | intro _
    | dsimp only [s']
    | split

theorem marked_trialSelector (a0 : ℕ) (h : Marked m s) :
    Marked m (trialSelector a0 s) := by
  unfold trialSelector
  repeat' first
    | with_reducible assumption
    | (intro (s : State) (h : Marked m s))
    | (intro _ (s : State) (h : Marked m s))
    | (intro (h : Marked m _))
    | (intro (s' : State); refine_lift have h : Marked m s' := ?_; ?_; clear_value s')
    | lift_lets
    | with_reducible apply markedO_next
    | with_reducible apply marked_ite
    | with_reducible apply marked_onStr
    | with_reducible refine marked_foldl ?_ (fun s x h => ?_)
    | (intro x'; clear_value x')
    | intro _
    | dsimp only [s']
    | split

theorem marked_activateCopy (a0 : ℕ) (a1 : Side) (h : Marked m s) :
    Marked m (activateCopy a0 a1 s) := by
  unfold activateCopy
  repeat' first
    | with_reducible assumption
    | (intro (s : State) (h : Marked m s))
    | (intro _ (s : State) (h : Marked m s))
    | (intro (h : Marked m _))
    | (intro (s' : State); refine_lift have h : Marked m s' := ?_; ?_; clear_value s')
    | lift_lets
    | with_reducible apply markedO_next
    | with_reducible apply marked_ite
    | with_reducible apply marked_recordSeal
    | with_reducible apply marked_sealBefore
    | with_reducible apply marked_onStr
    | with_reducible apply marked_installStruct
    | with_reducible apply marked_judgeSwaps
    | with_reducible apply marked_metStart
    | with_reducible apply marked_safetyChanged
    | with_reducible apply marked_startOutlet
    | with_reducible apply marked_settleAll
    | with_reducible apply marked_refreshWithhold
    | with_reducible apply marked_onKind
    | with_reducible apply marked_mirrorCopy
    | with_reducible apply marked_capture
    | with_reducible apply marked_slotsChanged
    | with_reducible refine marked_foldl ?_ (fun s x h => ?_)
    | (intro (d : Kind); first | exact Nat.le_refl _ | exact Nat.le_max_left _ _ | (split <;> exact Nat.le_refl _))
    | (intro x'; clear_value x')
    | intro _
    | dsimp only [s']
    | split

theorem marked_refuseWarren (a0 : Req) (a1 : ℕ) (h : Marked m s) :
    Marked m (refuseWarren a0 a1 s) := by
  unfold refuseWarren
  repeat' first
    | with_reducible assumption
    | (intro (s : State) (h : Marked m s))
    | (intro _ (s : State) (h : Marked m s))
    | (intro (h : Marked m _))
    | (intro (s' : State); refine_lift have h : Marked m s' := ?_; ?_; clear_value s')
    | lift_lets
    | with_reducible apply markedO_next
    | with_reducible apply marked_ite
    | with_reducible apply marked_postSts
    | with_reducible apply marked_onStr
    | with_reducible refine marked_foldl ?_ (fun s x h => ?_)
    | (intro x'; clear_value x')
    | intro _
    | dsimp only [s']
    | split

theorem marked_warrenActivate (a0 : Req) (h : Marked m s) :
    Marked m (warrenActivate a0 s) := by
  unfold warrenActivate
  repeat' first
    | with_reducible assumption
    | (intro (s : State) (h : Marked m s))
    | (intro _ (s : State) (h : Marked m s))
    | (intro (h : Marked m _))
    | (intro (s' : State); refine_lift have h : Marked m s' := ?_; ?_; clear_value s')
    | lift_lets
    | with_reducible apply markedO_next
    | with_reducible apply marked_ite
    | with_reducible apply marked_refuseWarren
    | with_reducible apply marked_onStr
    | with_reducible apply marked_logReject
    | with_reducible apply marked_pend
    | with_reducible apply marked_trialSelector
    | with_reducible refine marked_foldl ?_ (fun s x h => ?_)
    | (intro x'; clear_value x')
    | intro _
    | dsimp only [s']
    | split

theorem marked_execWarrenActivate (a0 : Req) (h : Marked m s) :
    MarkedO m (execWarrenActivate a0 s) := by
  unfold execWarrenActivate
  repeat' first
    | with_reducible assumption
    | (intro (s : State) (h : Marked m s))
    | (intro _ (s : State) (h : Marked m s))
    | (intro (h : Marked m _))
    | (intro (s' : State); refine_lift have h : Marked m s' := ?_; ?_; clear_value s')
    | lift_lets
    | with_reducible apply markedO_next
    | with_reducible apply marked_ite
    | with_reducible apply markedO_ite
    | with_reducible apply marked_badgerCmd
    | with_reducible apply marked_warrenActivate
    | with_reducible refine marked_foldl ?_ (fun s x h => ?_)
    | (intro x'; clear_value x')
    | intro _
    | dsimp only [s']
    | split

theorem marked_releasePilot (a0 : ℕ) (h : Marked m s) :
    Marked m (releasePilot a0 s) := by
  unfold releasePilot
  repeat' first
    | with_reducible assumption
    | (intro (s : State) (h : Marked m s))
    | (intro _ (s : State) (h : Marked m s))
    | (intro (h : Marked m _))
    | (intro (s' : State); refine_lift have h : Marked m s' := ?_; ?_; clear_value s')
    | lift_lets
    | with_reducible apply markedO_next
    | with_reducible apply marked_ite
    | with_reducible apply marked_acceptState
    | with_reducible apply marked_onLink
    | with_reducible refine marked_foldl ?_ (fun s x h => ?_)
    | (intro x'; clear_value x')
    | intro _
    | dsimp only [s']
    | split

theorem marked_execWarrenActivationComplete  (h : Marked m s) :
    MarkedO m (execWarrenActivationComplete s) := by
  unfold execWarrenActivationComplete
  repeat' first
    | with_reducible assumption
    | (intro (s : State) (h : Marked m s))
    | (intro _ (s : State) (h : Marked m s))
    | (intro (h : Marked m _))
    | (intro (s' : State); refine_lift have h : Marked m s' := ?_; ?_; clear_value s')
    | lift_lets
    | with_reducible apply markedO_next
    | with_reducible apply marked_ite
    | with_reducible apply markedO_ite
    | with_reducible apply marked_onStr
    | with_reducible apply marked_activateCopy
    | with_reducible apply marked_postSts
    | with_reducible apply marked_logEv
    | with_reducible apply marked_slacCheck
    | with_reducible apply marked_releaseHeld
    | with_reducible apply marked_releasePilot
    | with_reducible apply marked_returnIfDue
    | with_reducible refine marked_foldl ?_ (fun s x h => ?_)
    | (intro x'; clear_value x')
    | intro _
    | dsimp only [s']
    | split

theorem marked_execIntervalClose (a0 : ℕ) (a1 : IntervalInput) (h : Marked m s) :
    MarkedO m (execIntervalClose a0 a1 s) := by
  unfold execIntervalClose
  repeat' first
    | with_reducible assumption
    | (intro (s : State) (h : Marked m s))
    | (intro _ (s : State) (h : Marked m s))
    | (intro (h : Marked m _))
    | (intro (s' : State); refine_lift have h : Marked m s' := ?_; ?_; clear_value s')
    | lift_lets
    | with_reducible apply markedO_next
    | with_reducible apply marked_ite
    | with_reducible apply markedO_ite
    | with_reducible apply marked_afterCapture
    | with_reducible apply marked_closeInterval
    | with_reducible refine marked_foldl ?_ (fun s x h => ?_)
    | (intro x'; clear_value x')
    | intro _
    | dsimp only [s']
    | split

end Sys2Proof.Machine
end

