-- ==== Sys2Proof/Laws/MarkedBoot.lean ====
section
/-! SUPPORT. The operations of Boot.lean take no mark back. -/

set_option linter.unusedVariables false
set_option linter.unreachableTactic false
set_option linter.unusedTactic false

namespace Sys2Proof.Machine

variable {m : Marks} {s : State}

/-- Blowing fuses unblows none. -/
theorem marked_blown {st : Lc} (h : Marked m s) : Marked m (onKey (blowFuses st) s) :=
  marked_onKey h fun _ hx => ⟨hx.1, fun hr => by simp [blowFuses, hx.2.1 hr], fun hl => by simp [blowFuses, hx.2.2 hl]⟩

theorem marked_wipe (a0 : Bool) (a1 : ℕ) (a2 : BootInput) (h : Marked m s) :
    Marked m (wipe a0 a1 a2 s) := by
  refine ⟨?_, ?_, ⟨h.2.2.1.1⟩, ⟨fun o ho => ?_⟩⟩
  · show m.seq ≤ (keepMgt a0 s.mgt).seq
    exact h.1
  · exact h.2.1
  · have ho : flag (keepOwl a0 s.owl).released o = true := ho
    exact (flag_none (n := 4) (k := o) ho).elim

theorem marked_decideLc  (h : Marked m s) :
    Marked m (decideLc s) := by
  unfold decideLc
  repeat' first
    | with_reducible assumption
    | (intro (s : State) (h : Marked m s))
    | (intro _ (s : State) (h : Marked m s))
    | (intro (h : Marked m _))
    | (intro (x : KeyBlock) hx; first | exact hx | (split <;> exact hx))
    | (exact fun _ hx => ⟨hx.1, fun hr => by simp [blowFuses, hx.2.1 hr], fun hl => by simp [blowFuses, hx.2.2 hl]⟩)
    | (exact marked_blown h)
    | (intro (s' : State); refine_lift have h : Marked m s' := ?_; ?_; clear_value s')
    | lift_lets
    | with_reducible apply markedO_next
    | with_reducible apply marked_ite
    | with_reducible apply marked_onKey
    | with_reducible apply marked_logLc
    | with_reducible apply marked_wipeClass
    | with_reducible apply marked_writeLc
    | with_reducible refine marked_foldl ?_ (fun s x h => ?_)
    | (intro x'; clear_value x')
    | intro _
    | dsimp only [s']
    | split

theorem marked_trialStart (a0 : Bool) (a1 : Bool) (h : Marked m s) :
    Marked m (trialStart a0 a1 s) := by
  unfold trialStart
  repeat' first
    | with_reducible assumption
    | (intro (s : State) (h : Marked m s))
    | (intro _ (s : State) (h : Marked m s))
    | (intro (h : Marked m _))
    | (intro (s' : State); refine_lift have h : Marked m s' := ?_; ?_; clear_value s')
    | lift_lets
    | with_reducible apply markedO_next
    | with_reducible apply marked_ite
    | with_reducible apply marked_failTrial
    | with_reducible apply marked_countStart
    | with_reducible refine marked_foldl ?_ (fun s x h => ?_)
    | (intro x'; clear_value x')
    | intro _
    | dsimp only [s']
    | split

theorem marked_adoptPart (a0 : ℕ) (h : Marked m s) :
    Marked m (adoptPart a0 s) := by
  unfold adoptPart
  repeat' first
    | with_reducible assumption
    | (intro (s : State) (h : Marked m s))
    | (intro _ (s : State) (h : Marked m s))
    | (intro (h : Marked m _))
    | (intro (s' : State); refine_lift have h : Marked m s' := ?_; ?_; clear_value s')
    | lift_lets
    | with_reducible apply markedO_next
    | with_reducible apply marked_ite
    | with_reducible apply marked_markBank
    | with_reducible apply marked_onKind
    | with_reducible apply marked_takeBank
    | with_reducible refine marked_foldl ?_ (fun s x h => ?_)
    | (intro (d : Kind); first | exact Nat.le_refl _ | exact Nat.le_max_left _ _ | (split <;> exact Nat.le_refl _))
    | (intro x'; clear_value x')
    | intro _
    | dsimp only [s']
    | split

theorem marked_rollbackManifest (a0 : ActRec) (h : Marked m s) :
    Marked m (rollbackManifest a0 s) := by
  unfold rollbackManifest
  repeat' first
    | with_reducible assumption
    | (intro (s : State) (h : Marked m s))
    | (intro _ (s : State) (h : Marked m s))
    | (intro (h : Marked m _))
    | (intro (s' : State); refine_lift have h : Marked m s' := ?_; ?_; clear_value s')
    | lift_lets
    | with_reducible apply markedO_next
    | with_reducible apply marked_ite
    | with_reducible apply marked_rollbackPart
    | with_reducible apply marked_recordSeal
    | with_reducible apply marked_onStr
    | with_reducible refine marked_foldl ?_ (fun s x h => ?_)
    | (intro x'; clear_value x')
    | intro _
    | dsimp only [s']
    | split

theorem marked_resolveRecord  (h : Marked m s) :
    Marked m ((resolveRecord s)).1 := by
  unfold resolveRecord
  repeat' first
    | with_reducible assumption
    | (intro (s : State) (h : Marked m s))
    | (intro _ (s : State) (h : Marked m s))
    | (intro (h : Marked m _))
    | (intro (x : UpdBlock) hx; first | exact ⟨hx.1⟩ | (split <;> exact ⟨hx.1⟩))
    | (intro (s' : State); refine_lift have h : Marked m s' := ?_; ?_; clear_value s')
    | lift_lets
    | with_reducible apply markedO_next
    | with_reducible apply marked_ite
    | with_reducible apply marked_onUpd
    | with_reducible apply marked_rollbackManifest
    | with_reducible apply marked_adoptPart
    | with_reducible apply marked_bump
    | with_reducible refine marked_foldl ?_ (fun s x h => ?_)
    | (intro x'; clear_value x')
    | intro _
    | dsimp only [s']
    | split

theorem marked_settleTrials (a0 : Bool) (h : Marked m s) :
    Marked m (settleTrials a0 s) := by
  unfold settleTrials
  repeat' first
    | with_reducible assumption
    | (intro (s : State) (h : Marked m s))
    | (intro _ (s : State) (h : Marked m s))
    | (intro (h : Marked m _))
    | (intro (s' : State); refine_lift have h : Marked m s' := ?_; ?_; clear_value s')
    | lift_lets
    | with_reducible apply markedO_next
    | with_reducible apply marked_ite
    | with_reducible apply marked_onStr
    | with_reducible refine marked_foldl ?_ (fun s x h => ?_)
    | (intro x'; clear_value x')
    | intro _
    | dsimp only [s']
    | split

theorem marked_examine (a0 : List ℕ) (h : Marked m s) :
    Marked m ((examine a0 s)).1 := by
  induction a0 generalizing  s with
  | nil => exact h
  | cons x l ih =>
  simp only [examine]
  repeat' first
    | with_reducible assumption
    | (intro (s : State) (h : Marked m s))
    | (intro _ (s : State) (h : Marked m s))
    | (intro (h : Marked m _))
    | (intro (s' : State); refine_lift have h : Marked m s' := ?_; ?_; clear_value s')
    | lift_lets
    | with_reducible apply markedO_next
    | with_reducible apply marked_ite
    | with_reducible apply marked_onStr
    | with_reducible apply marked_logReject
    | with_reducible apply ih
    | with_reducible refine marked_foldl ?_ (fun s x h => ?_)
    | (intro x'; clear_value x')
    | intro _
    | dsimp only [s']
    | split

theorem marked_limpIgnored  (h : Marked m s) :
    Marked m (limpIgnored s) := by
  unfold limpIgnored
  repeat' first
    | with_reducible assumption
    | (intro (s : State) (h : Marked m s))
    | (intro _ (s : State) (h : Marked m s))
    | (intro (h : Marked m _))
    | (intro (s' : State); refine_lift have h : Marked m s' := ?_; ?_; clear_value s')
    | lift_lets
    | with_reducible apply markedO_next
    | with_reducible apply marked_ite
    | with_reducible apply marked_logEv
    | with_reducible refine marked_foldl ?_ (fun s x h => ?_)
    | (intro x'; clear_value x')
    | intro _
    | dsimp only [s']
    | split

theorem marked_bootStructure (a0 : Bool) (h : Marked m s) :
    Marked m (bootStructure a0 s) := by
  unfold bootStructure
  dsimp only
  have hx := marked_examine (bootOrder (settleTrials a0 s)) (marked_settleTrials a0 h)
  split <;> rename_i heq <;> rw [heq] at hx
  · exact marked_limpIgnored (marked_judgeSwaps _ (marked_onStr (marked_installStruct _ _ hx)))
  · exact marked_logEv _ _ _ _ _ (marked_onStr hx)

theorem marked_bootEvents (a0 : SysBlock) (a1 : Option ℕ) (a2 : Bool) (h : Marked m s) :
    Marked m (bootEvents a0 a1 a2 s) := by
  unfold bootEvents
  repeat' first
    | with_reducible assumption
    | (intro (s : State) (h : Marked m s))
    | (intro _ (s : State) (h : Marked m s))
    | (intro (h : Marked m _))
    | (intro (s' : State); refine_lift have h : Marked m s' := ?_; ?_; clear_value s')
    | lift_lets
    | with_reducible apply markedO_next
    | with_reducible apply marked_ite
    | with_reducible apply marked_legalEv
    | with_reducible apply marked_logEv
    | with_reducible refine marked_foldl ?_ (fun s x h => ?_)
    | (intro x'; clear_value x')
    | intro _
    | dsimp only [s']
    | split

theorem marked_damageStore (a0 : List ℕ) (h : Marked m s) :
    Marked m (damageStore a0 s) := by
  unfold damageStore
  repeat' first
    | with_reducible assumption
    | (intro (s : State) (h : Marked m s))
    | (intro _ (s : State) (h : Marked m s))
    | (intro (h : Marked m _))
    | (intro (s' : State); refine_lift have h : Marked m s' := ?_; ?_; clear_value s')
    | lift_lets
    | with_reducible apply markedO_next
    | with_reducible apply marked_ite
    | with_reducible apply marked_onMet
    | with_reducible apply marked_onBil
    | with_reducible refine marked_foldl ?_ (fun s x h => ?_)
    | (intro x'; clear_value x')
    | intro _
    | dsimp only [s']
    | split

theorem marked_owlLoad (a0 : ℕ) (h : Marked m s) :
    Marked m (owlLoad a0 s) := by
  unfold owlLoad
  repeat' first
    | with_reducible assumption
    | (intro (s : State) (h : Marked m s))
    | (intro _ (s : State) (h : Marked m s))
    | (intro (h : Marked m _))
    | (intro (s' : State); refine_lift have h : Marked m s' := ?_; ?_; clear_value s')
    | lift_lets
    | with_reducible apply markedO_next
    | with_reducible apply marked_ite
    | with_reducible apply marked_cfgDiag
    | with_reducible apply marked_cfgCheck
    | with_reducible refine marked_foldl ?_ (fun s x h => ?_)
    | (intro x'; clear_value x')
    | intro _
    | dsimp only [s']
    | split

theorem marked_bootCores (a0 : ResetHold) (a1 : BootInput) (h : Marked m s) :
    Marked m (bootCores a0 a1 s) := by
  unfold bootCores
  repeat' first
    | with_reducible assumption
    | (intro (s : State) (h : Marked m s))
    | (intro _ (s : State) (h : Marked m s))
    | (intro (h : Marked m _))
    | (intro (x : KeyBlock) hx; first | exact hx | (split <;> exact hx))
    | (intro (x : OwlBlock) hx; first | exact ⟨hx.1⟩ | (split <;> exact ⟨hx.1⟩) | exact ⟨fun o ho => hx.1 o (flag_put_false ho)⟩ | exact ⟨fun o ho => (flag_none ho).elim⟩)
    | (intro (s' : State); refine_lift have h : Marked m s' := ?_; ?_; clear_value s')
    | lift_lets
    | with_reducible apply markedO_next
    | with_reducible apply marked_ite
    | with_reducible apply marked_wipe
    | with_reducible apply marked_damageStore
    | with_reducible apply marked_closeTransfer
    | with_reducible apply marked_logOwlState
    | with_reducible apply marked_decideLc
    | with_reducible apply marked_logRng
    | with_reducible apply marked_onKey
    | with_reducible apply marked_actLatched
    | with_reducible apply marked_deriveSlots
    | with_reducible apply marked_resolveRecord
    | with_reducible apply marked_trialStart
    | with_reducible apply marked_bootStructure
    | with_reducible apply marked_onOwl
    | with_reducible apply marked_owlLoad
    | with_reducible apply marked_rebuildReplay
    | with_reducible apply marked_metStart
    | with_reducible apply marked_capture
    | with_reducible refine marked_foldl ?_ (fun s x h => ?_)
    | (intro x'; clear_value x')
    | intro _
    | dsimp only [s']
    | split

theorem marked_bootMode  (h : Marked m s) :
    Marked m (bootMode s) := by
  unfold bootMode
  repeat' first
    | with_reducible assumption
    | (intro (s : State) (h : Marked m s))
    | (intro _ (s : State) (h : Marked m s))
    | (intro (h : Marked m _))
    | (intro (s' : State); refine_lift have h : Marked m s' := ?_; ?_; clear_value s')
    | lift_lets
    | with_reducible apply markedO_next
    | with_reducible apply marked_ite
    | with_reducible apply marked_evalMode
    | with_reducible apply marked_setMode
    | with_reducible refine marked_foldl ?_ (fun s x h => ?_)
    | (intro x'; clear_value x')
    | intro _
    | dsimp only [s']
    | split

theorem marked_bootServices (a0 : SysBlock) (a1 : ResetHold) (a2 : Option ℕ) (a3 : BootInput) (h : Marked m s) :
    Marked m (bootServices a0 a1 a2 a3 s) := by
  unfold bootServices
  repeat' first
    | with_reducible assumption
    | (intro (s : State) (h : Marked m s))
    | (intro _ (s : State) (h : Marked m s))
    | (intro (h : Marked m _))
    | (intro (s' : State); refine_lift have h : Marked m s' := ?_; ?_; clear_value s')
    | lift_lets
    | with_reducible apply markedO_next
    | with_reducible apply marked_ite
    | with_reducible apply marked_onSys
    | with_reducible apply marked_onHsi
    | with_reducible apply marked_bootEvents
    | with_reducible apply marked_loadSlots
    | with_reducible apply marked_drainRetention
    | with_reducible apply marked_slotsChanged
    | with_reducible apply marked_flushProfile
    | with_reducible apply marked_bootMode
    | with_reducible apply marked_returnIfDue
    | with_reducible apply marked_failTrial
    | with_reducible refine marked_foldl ?_ (fun s x h => ?_)
    | (intro x'; clear_value x')
    | intro _
    | dsimp only [s']
    | split

theorem marked_execBoot (a0 : BootInput) (h : Marked m s) :
    MarkedO m (execBoot a0 s) := by
  unfold execBoot
  repeat' first
    | with_reducible assumption
    | (intro (s : State) (h : Marked m s))
    | (intro _ (s : State) (h : Marked m s))
    | (intro (h : Marked m _))
    | (intro (s' : State); refine_lift have h : Marked m s' := ?_; ?_; clear_value s')
    | lift_lets
    | with_reducible apply markedO_next
    | with_reducible apply marked_ite
    | with_reducible apply markedO_ite
    | with_reducible apply marked_bootServices
    | with_reducible apply marked_bootCores
    | with_reducible refine marked_foldl ?_ (fun s x h => ?_)
    | (intro x'; clear_value x')
    | intro _
    | dsimp only [s']
    | split

end Sys2Proof.Machine
end

