-- ==== Sys2Proof/Laws/MarkedRegs.lean ====
section
/-! SUPPORT. The operations of Regs.lean take no mark back. -/

set_option linter.unusedVariables false
set_option linter.unreachableTactic false
set_option linter.unusedTactic false

namespace Sys2Proof.Machine

variable {m : Marks} {s : State}

theorem marked_sysRegWrite (a0 : ℕ) (a1 : ℕ) (h : Marked m s) :
    Marked m (sysRegWrite a0 a1 s) := by
  unfold sysRegWrite
  repeat' first
    | with_reducible assumption
    | (intro (s : State) (h : Marked m s))
    | (intro _ (s : State) (h : Marked m s))
    | (intro (h : Marked m _))
    | (intro (s' : State); refine_lift have h : Marked m s' := ?_; ?_; clear_value s')
    | lift_lets
    | with_reducible apply markedO_next
    | with_reducible apply marked_ite
    | with_reducible apply marked_rstreqWrite
    | with_reducible apply marked_onSys
    | with_reducible refine marked_foldl ?_ (fun s x h => ?_)
    | (intro x'; clear_value x')
    | intro _
    | dsimp only [s']
    | split

theorem marked_laneCtlWrite (a0 : ℕ) (a1 : ℕ) (h : Marked m s) :
    Marked m (laneCtlWrite a0 a1 s) := by
  unfold laneCtlWrite
  repeat' first
    | with_reducible assumption
    | (intro (s : State) (h : Marked m s))
    | (intro _ (s : State) (h : Marked m s))
    | (intro (h : Marked m _))
    | (intro (s' : State); refine_lift have h : Marked m s' := ?_; ?_; clear_value s')
    | lift_lets
    | with_reducible apply markedO_next
    | with_reducible apply marked_ite
    | with_reducible apply marked_laneTrialWrite
    | with_reducible apply marked_onLane
    | with_reducible refine marked_foldl ?_ (fun s x h => ?_)
    | (intro x'; clear_value x')
    | intro _
    | dsimp only [s']
    | split

theorem marked_firctlWrite (a0 : ℕ) (a1 : ℕ) (h : Marked m s) :
    Marked m (firctlWrite a0 a1 s) := by
  unfold firctlWrite
  repeat' first
    | with_reducible assumption
    | (intro (s : State) (h : Marked m s))
    | (intro _ (s : State) (h : Marked m s))
    | (intro (h : Marked m _))
    | (intro (s' : State); refine_lift have h : Marked m s' := ?_; ?_; clear_value s')
    | lift_lets
    | with_reducible apply markedO_next
    | with_reducible apply marked_ite
    | with_reducible apply marked_onLane
    | with_reducible refine marked_foldl ?_ (fun s x h => ?_)
    | (intro x'; clear_value x')
    | intro _
    | dsimp only [s']
    | split

theorem marked_laneRegWrite (a0 : ℕ) (a1 : ℕ) (h : Marked m s) :
    Marked m (laneRegWrite a0 a1 s) := by
  unfold laneRegWrite
  repeat' first
    | with_reducible assumption
    | (intro (s : State) (h : Marked m s))
    | (intro _ (s : State) (h : Marked m s))
    | (intro (h : Marked m _))
    | (intro (s' : State); refine_lift have h : Marked m s' := ?_; ?_; clear_value s')
    | lift_lets
    | with_reducible apply markedO_next
    | with_reducible apply marked_ite
    | with_reducible apply marked_laneCtlWrite
    | with_reducible apply marked_laneCalWrite
    | with_reducible apply marked_firctlWrite
    | with_reducible apply marked_firdataWrite
    | with_reducible apply marked_onLane
    | with_reducible refine marked_foldl ?_ (fun s x h => ?_)
    | (intro x'; clear_value x')
    | intro _
    | dsimp only [s']
    | split

theorem marked_metRegWrite (a0 : ℕ) (a1 : ℕ) (h : Marked m s) :
    Marked m (metRegWrite a0 a1 s) := by
  unfold metRegWrite
  repeat' first
    | with_reducible assumption
    | (intro (s : State) (h : Marked m s))
    | (intro _ (s : State) (h : Marked m s))
    | (intro (h : Marked m _))
    | (intro (s' : State); refine_lift have h : Marked m s' := ?_; ?_; clear_value s')
    | lift_lets
    | with_reducible apply markedO_next
    | with_reducible apply marked_ite
    | with_reducible apply marked_snapctlWrite
    | with_reducible apply marked_onMet
    | with_reducible apply marked_calctlWrite
    | with_reducible refine marked_foldl ?_ (fun s x h => ?_)
    | (intro x'; clear_value x')
    | intro _
    | dsimp only [s']
    | split

theorem marked_pwrRegWrite (a0 : ℕ) (a1 : ℕ) (h : Marked m s) :
    Marked m (pwrRegWrite a0 a1 s) := by
  unfold pwrRegWrite
  repeat' first
    | with_reducible assumption
    | (intro (s : State) (h : Marked m s))
    | (intro _ (s : State) (h : Marked m s))
    | (intro (h : Marked m _))
    | (intro (s' : State); refine_lift have h : Marked m s' := ?_; ?_; clear_value s')
    | lift_lets
    | with_reducible apply markedO_next
    | with_reducible apply marked_ite
    | with_reducible apply marked_settleCh
    | with_reducible apply marked_onCh
    | with_reducible refine marked_foldl ?_ (fun s x h => ?_)
    | (intro x'; clear_value x')
    | intro _
    | dsimp only [s']
    | split

theorem marked_vlkCfgWrite (a0 : ℕ) (a1 : ℕ) (h : Marked m s) :
    Marked m (vlkCfgWrite a0 a1 s) := by
  unfold vlkCfgWrite
  repeat' first
    | with_reducible assumption
    | (intro (s : State) (h : Marked m s))
    | (intro _ (s : State) (h : Marked m s))
    | (intro (h : Marked m _))
    | (intro (s' : State); refine_lift have h : Marked m s' := ?_; ?_; clear_value s')
    | lift_lets
    | with_reducible apply markedO_next
    | with_reducible apply marked_ite
    | with_reducible apply marked_onLink
    | with_reducible refine marked_foldl ?_ (fun s x h => ?_)
    | (intro x'; clear_value x')
    | intro _
    | dsimp only [s']
    | split

theorem marked_ringRegWrite (a0 : Port) (a1 : ℕ) (a2 : ℕ) (h : Marked m s) :
    Marked m (ringRegWrite a0 a1 a2 s) := by
  unfold ringRegWrite
  repeat' first
    | with_reducible assumption
    | (intro (s : State) (h : Marked m s))
    | (intro _ (s : State) (h : Marked m s))
    | (intro (h : Marked m _))
    | (intro (s' : State); refine_lift have h : Marked m s' := ?_; ?_; clear_value s')
    | lift_lets
    | with_reducible apply markedO_next
    | with_reducible apply marked_ite
    | with_reducible apply marked_onRings
    | with_reducible apply marked_txTailWrite
    | with_reducible apply marked_rxTailWrite
    | with_reducible refine marked_foldl ?_ (fun s x h => ?_)
    | (intro x'; clear_value x')
    | intro _
    | dsimp only [s']
    | split

theorem marked_vlkRegWrite (a0 : ℕ) (a1 : ℕ) (h : Marked m s) :
    Marked m (vlkRegWrite a0 a1 s) := by
  unfold vlkRegWrite
  repeat' first
    | with_reducible assumption
    | (intro (s : State) (h : Marked m s))
    | (intro _ (s : State) (h : Marked m s))
    | (intro (h : Marked m _))
    | (intro (s' : State); refine_lift have h : Marked m s' := ?_; ?_; clear_value s')
    | lift_lets
    | with_reducible apply markedO_next
    | with_reducible apply marked_ite
    | with_reducible apply marked_vlkCfgWrite
    | with_reducible apply marked_pilotWrite
    | with_reducible apply marked_ringRegWrite
    | with_reducible refine marked_foldl ?_ (fun s x h => ?_)
    | (intro x'; clear_value x')
    | intro _
    | dsimp only [s']
    | split

theorem marked_glkRegWrite (a0 : ℕ) (a1 : ℕ) (h : Marked m s) :
    Marked m (glkRegWrite a0 a1 s) := by
  unfold glkRegWrite
  repeat' first
    | with_reducible assumption
    | (intro (s : State) (h : Marked m s))
    | (intro _ (s : State) (h : Marked m s))
    | (intro (h : Marked m _))
    | (intro (s' : State); refine_lift have h : Marked m s' := ?_; ?_; clear_value s')
    | lift_lets
    | with_reducible apply markedO_next
    | with_reducible apply marked_ite
    | with_reducible apply marked_glkCfgWrite
    | with_reducible apply marked_onGlk
    | with_reducible apply marked_ringRegWrite
    | with_reducible apply marked_ethCfgWrite
    | with_reducible apply marked_mdioWrite
    | with_reducible refine marked_foldl ?_ (fun s x h => ?_)
    | (intro x'; clear_value x')
    | intro _
    | dsimp only [s']
    | split

theorem marked_timCtlWrite (a0 : ℕ) (h : Marked m s) :
    Marked m (timCtlWrite a0 s) := by
  unfold timCtlWrite
  repeat' first
    | with_reducible assumption
    | (intro (s : State) (h : Marked m s))
    | (intro _ (s : State) (h : Marked m s))
    | (intro (h : Marked m _))
    | (intro (s' : State); refine_lift have h : Marked m s' := ?_; ?_; clear_value s')
    | lift_lets
    | with_reducible apply markedO_next
    | with_reducible apply marked_ite
    | with_reducible apply marked_onTim
    | with_reducible refine marked_foldl ?_ (fun s x h => ?_)
    | (intro x'; clear_value x')
    | intro _
    | dsimp only [s']
    | split

theorem marked_ptpStatWrite (a0 : ℕ) (h : Marked m s) :
    Marked m (ptpStatWrite a0 s) := by
  unfold ptpStatWrite
  repeat' first
    | with_reducible assumption
    | (intro (s : State) (h : Marked m s))
    | (intro _ (s : State) (h : Marked m s))
    | (intro (h : Marked m _))
    | (intro (s' : State); refine_lift have h : Marked m s' := ?_; ?_; clear_value s')
    | lift_lets
    | with_reducible apply markedO_next
    | with_reducible apply marked_ite
    | with_reducible apply marked_onTim
    | with_reducible apply marked_timPtpfPop
    | with_reducible refine marked_foldl ?_ (fun s x h => ?_)
    | (intro x'; clear_value x')
    | intro _
    | dsimp only [s']
    | split

theorem marked_timRegWrite (a0 : ℕ) (a1 : ℕ) (h : Marked m s) :
    Marked m (timRegWrite a0 a1 s) := by
  unfold timRegWrite
  repeat' first
    | with_reducible assumption
    | (intro (s : State) (h : Marked m s))
    | (intro _ (s : State) (h : Marked m s))
    | (intro (h : Marked m _))
    | (intro (s' : State); refine_lift have h : Marked m s' := ?_; ?_; clear_value s')
    | lift_lets
    | with_reducible apply markedO_next
    | with_reducible apply marked_ite
    | with_reducible apply marked_timCtlWrite
    | with_reducible apply marked_onTim
    | with_reducible apply marked_timAlarmHiWrite
    | with_reducible apply marked_timIncWrite
    | with_reducible apply marked_ptpStatWrite
    | with_reducible refine marked_foldl ?_ (fun s x h => ?_)
    | (intro x'; clear_value x')
    | intro _
    | dsimp only [s']
    | split

theorem marked_tagRegWrite (a0 : ℕ) (a1 : ℕ) (h : Marked m s) :
    Marked m (tagRegWrite a0 a1 s) := by
  unfold tagRegWrite
  repeat' first
    | with_reducible assumption
    | (intro (s : State) (h : Marked m s))
    | (intro _ (s : State) (h : Marked m s))
    | (intro (h : Marked m _))
    | (intro (s' : State); refine_lift have h : Marked m s' := ?_; ?_; clear_value s')
    | lift_lets
    | with_reducible apply markedO_next
    | with_reducible apply marked_ite
    | with_reducible apply marked_tagCtlWrite
    | with_reducible apply marked_onTag
    | with_reducible apply marked_rptPop
    | with_reducible refine marked_foldl ?_ (fun s x h => ?_)
    | (intro x'; clear_value x')
    | intro _
    | dsimp only [s']
    | split

theorem marked_epdRegWrite (a0 : ℕ) (a1 : ℕ) (h : Marked m s) :
    Marked m (epdRegWrite a0 a1 s) := by
  unfold epdRegWrite
  repeat' first
    | with_reducible assumption
    | (intro (s : State) (h : Marked m s))
    | (intro _ (s : State) (h : Marked m s))
    | (intro (h : Marked m _))
    | (intro (s' : State); refine_lift have h : Marked m s' := ?_; ?_; clear_value s')
    | lift_lets
    | with_reducible apply markedO_next
    | with_reducible apply marked_ite
    | with_reducible apply marked_epdCtlWrite
    | with_reducible apply marked_epdTempWrite
    | with_reducible apply marked_ledCtlWrite
    | with_reducible apply marked_ledPatWrite
    | with_reducible refine marked_foldl ?_ (fun s x h => ?_)
    | (intro x'; clear_value x')
    | intro _
    | dsimp only [s']
    | split

theorem marked_updRegWrite (a0 : ℕ) (a1 : ℕ) (h : Marked m s) :
    Marked m (updRegWrite a0 a1 s) := by
  unfold updRegWrite
  repeat' first
    | with_reducible assumption
    | (intro (s : State) (h : Marked m s))
    | (intro _ (s : State) (h : Marked m s))
    | (intro (h : Marked m _))
    | (intro (x : UpdBlock) hx; first | exact ⟨hx.1⟩ | (split <;> exact ⟨hx.1⟩))
    | (intro (s' : State); refine_lift have h : Marked m s' := ?_; ?_; clear_value s')
    | lift_lets
    | with_reducible apply markedO_next
    | with_reducible apply marked_ite
    | with_reducible apply marked_onUpd
    | with_reducible refine marked_foldl ?_ (fun s x h => ?_)
    | (intro x'; clear_value x')
    | intro _
    | dsimp only [s']
    | split

theorem marked_bellWrite (a0 : Side) (a1 : ℕ) (h : Marked m s) :
    Marked m (bellWrite a0 a1 s) := by
  unfold bellWrite
  repeat' first
    | with_reducible assumption
    | (intro (s : State) (h : Marked m s))
    | (intro _ (s : State) (h : Marked m s))
    | (intro (h : Marked m _))
    | (intro (x : MgtBlock) hx; first | (show m.seq ≤ _; exact (hx : m.seq ≤ x.seq)) | (split <;> exact hx) | (dsimp only; repeat' split <;> exact hx))
    | (intro (s' : State); refine_lift have h : Marked m s' := ?_; ?_; clear_value s')
    | lift_lets
    | with_reducible apply markedO_next
    | with_reducible apply marked_ite
    | with_reducible apply marked_onMgt
    | with_reducible apply marked_doorbell
    | with_reducible refine marked_foldl ?_ (fun s x h => ?_)
    | (intro x'; clear_value x')
    | intro _
    | dsimp only [s']
    | split

theorem marked_windowWrite (a0 : Side) (a1 : ℕ) (a2 : ℕ) (h : Marked m s) :
    Marked m (windowWrite a0 a1 a2 s) := by
  unfold windowWrite
  repeat' first
    | with_reducible assumption
    | (intro (s : State) (h : Marked m s))
    | (intro _ (s : State) (h : Marked m s))
    | (intro (h : Marked m _))
    | (intro (x : MgtBlock) hx; first | (show m.seq ≤ _; exact (hx : m.seq ≤ x.seq)) | (split <;> exact hx) | (dsimp only; repeat' split <;> exact hx))
    | (intro (s' : State); refine_lift have h : Marked m s' := ?_; ?_; clear_value s')
    | lift_lets
    | with_reducible apply markedO_next
    | with_reducible apply marked_ite
    | with_reducible apply marked_onMgt
    | with_reducible refine marked_foldl ?_ (fun s x h => ?_)
    | (intro x'; clear_value x')
    | intro _
    | dsimp only [s']
    | split

theorem marked_mgtRegWrite (a0 : ℕ) (a1 : ℕ) (h : Marked m s) :
    Marked m (mgtRegWrite a0 a1 s) := by
  unfold mgtRegWrite
  repeat' first
    | with_reducible assumption
    | (intro (s : State) (h : Marked m s))
    | (intro _ (s : State) (h : Marked m s))
    | (intro (h : Marked m _))
    | (intro (s' : State); refine_lift have h : Marked m s' := ?_; ?_; clear_value s')
    | lift_lets
    | with_reducible apply markedO_next
    | with_reducible apply marked_ite
    | with_reducible apply marked_heartbeat
    | with_reducible apply marked_bellWrite
    | with_reducible apply marked_windowWrite
    | with_reducible refine marked_foldl ?_ (fun s x h => ?_)
    | (intro x'; clear_value x')
    | intro _
    | dsimp only [s']
    | split

theorem marked_ringBlockWrite (a0 : Side) (a1 : ℕ) (a2 : ℕ) (h : Marked m s) :
    Marked m (ringBlockWrite a0 a1 a2 s) := by
  unfold ringBlockWrite
  repeat' first
    | with_reducible assumption
    | (intro (s : State) (h : Marked m s))
    | (intro _ (s : State) (h : Marked m s))
    | (intro (h : Marked m _))
    | (intro (s' : State); refine_lift have h : Marked m s' := ?_; ?_; clear_value s')
    | lift_lets
    | with_reducible apply markedO_next
    | with_reducible apply marked_ite
    | with_reducible apply marked_ctailWrite
    | with_reducible apply marked_releaseWrite
    | with_reducible apply marked_onRing
    | with_reducible refine marked_foldl ?_ (fun s x h => ?_)
    | (intro x'; clear_value x')
    | intro _
    | dsimp only [s']
    | split

theorem marked_descWrite (a0 : Side) (a1 : ℕ) (a2 : ℕ) (h : Marked m s) :
    Marked m (descWrite a0 a1 a2 s) := by
  unfold descWrite
  repeat' first
    | with_reducible assumption
    | (intro (s : State) (h : Marked m s))
    | (intro _ (s : State) (h : Marked m s))
    | (intro (h : Marked m _))
    | (intro (s' : State); refine_lift have h : Marked m s' := ?_; ?_; clear_value s')
    | lift_lets
    | with_reducible apply markedO_next
    | with_reducible apply marked_ite
    | with_reducible apply marked_onRing
    | with_reducible refine marked_foldl ?_ (fun s x h => ?_)
    | (intro x'; clear_value x')
    | intro _
    | dsimp only [s']
    | split

theorem marked_hsiRegWrite (a0 : Side) (a1 : ℕ) (a2 : ℕ) (h : Marked m s) :
    Marked m (hsiRegWrite a0 a1 a2 s) := by
  unfold hsiRegWrite
  repeat' first
    | with_reducible assumption
    | (intro (s : State) (h : Marked m s))
    | (intro _ (s : State) (h : Marked m s))
    | (intro (h : Marked m _))
    | (intro (s' : State); refine_lift have h : Marked m s' := ?_; ?_; clear_value s')
    | lift_lets
    | with_reducible apply markedO_next
    | with_reducible apply marked_ite
    | with_reducible apply marked_onHsi
    | with_reducible apply marked_ringBlockWrite
    | with_reducible apply marked_descWrite
    | with_reducible refine marked_foldl ?_ (fun s x h => ?_)
    | (intro x'; clear_value x')
    | intro _
    | dsimp only [s']
    | split

theorem marked_busRegWrite (a0 : ℕ) (a1 : ℕ) (h : Marked m s) :
    Marked m (busRegWrite a0 a1 s) := by
  unfold busRegWrite
  repeat' first
    | with_reducible assumption
    | (intro (s : State) (h : Marked m s))
    | (intro _ (s : State) (h : Marked m s))
    | (intro (h : Marked m _))
    | (intro (s' : State); refine_lift have h : Marked m s' := ?_; ?_; clear_value s')
    | lift_lets
    | with_reducible apply markedO_next
    | with_reducible apply marked_ite
    | with_reducible apply marked_canCfgWrite
    | with_reducible apply marked_canNbtWrite
    | with_reducible apply marked_canDbtWrite
    | with_reducible apply marked_ringRegWrite
    | with_reducible apply marked_canFilterWrite
    | with_reducible refine marked_foldl ?_ (fun s x h => ?_)
    | (intro x'; clear_value x')
    | intro _
    | dsimp only [s']
    | split

theorem marked_regWrite (a0 : Side) (a1 : ℕ) (a2 : ℕ) (h : Marked m s) :
    Marked m (regWrite a0 a1 a2 s) := by
  unfold regWrite
  repeat' first
    | with_reducible assumption
    | (intro (s : State) (h : Marked m s))
    | (intro _ (s : State) (h : Marked m s))
    | (intro (h : Marked m _))
    | (intro (s' : State); refine_lift have h : Marked m s' := ?_; ?_; clear_value s')
    | lift_lets
    | with_reducible apply markedO_next
    | with_reducible apply marked_ite
    | with_reducible apply marked_sysRegWrite
    | with_reducible apply marked_laneRegWrite
    | with_reducible apply marked_metRegWrite
    | with_reducible apply marked_pwrRegWrite
    | with_reducible apply marked_vlkRegWrite
    | with_reducible apply marked_glkRegWrite
    | with_reducible apply marked_timRegWrite
    | with_reducible apply marked_tagRegWrite
    | with_reducible apply marked_epdRegWrite
    | with_reducible apply marked_updRegWrite
    | with_reducible apply marked_mgtRegWrite
    | with_reducible apply marked_hsiRegWrite
    | with_reducible apply marked_busRegWrite
    | with_reducible refine marked_foldl ?_ (fun s x h => ?_)
    | (intro x'; clear_value x')
    | intro _
    | dsimp only [s']
    | split

theorem marked_regWrites (a0 : Side) (a1 : ℕ) (a2 : List Word) (h : Marked m s) :
    Marked m (regWrites a0 a1 a2 s) := by
  induction a2 generalizing a1 s with
  | nil => exact h
  | cons x l ih =>
  simp only [regWrites]
  repeat' first
    | with_reducible assumption
    | (intro (s : State) (h : Marked m s))
    | (intro _ (s : State) (h : Marked m s))
    | (intro (h : Marked m _))
    | (intro (s' : State); refine_lift have h : Marked m s' := ?_; ?_; clear_value s')
    | lift_lets
    | with_reducible apply markedO_next
    | with_reducible apply marked_ite
    | with_reducible apply marked_regWrite
    | with_reducible apply ih
    | with_reducible refine marked_foldl ?_ (fun s x h => ?_)
    | (intro x'; clear_value x')
    | intro _
    | dsimp only [s']
    | split

theorem marked_execRegisterWrite (a0 : Side) (a1 : ℕ) (a2 : List Word) (h : Marked m s) :
    MarkedO m (execRegisterWrite a0 a1 a2 s) := by
  unfold execRegisterWrite
  repeat' first
    | with_reducible assumption
    | (intro (s : State) (h : Marked m s))
    | (intro _ (s : State) (h : Marked m s))
    | (intro (h : Marked m _))
    | (intro (s' : State); refine_lift have h : Marked m s' := ?_; ?_; clear_value s')
    | lift_lets
    | with_reducible apply markedO_next
    | with_reducible apply marked_ite
    | with_reducible apply markedO_ite
    | with_reducible apply marked_regWrites
    | with_reducible refine marked_foldl ?_ (fun s x h => ?_)
    | (intro x'; clear_value x')
    | intro _
    | dsimp only [s']
    | split

end Sys2Proof.Machine
end

