-- ==== Sys2Proof/Laws/State.lean ====
section
/-! SUPPORT. What an update of one block leaves in every field of the state: one equation per field and update, each true by
unfolding, so that no later proof unfolds a record update. -/

namespace Sys2Proof.Machine

variable {s : State}

/-! ## onStr -/

@[simp] theorem onStr_ident {f : StrBlock → StrBlock} : (onStr f s).ident = s.ident := rfl
@[simp] theorem onStr_str {f : StrBlock → StrBlock} : (onStr f s).str = f s.str := rfl
@[simp] theorem onStr_lane {f : StrBlock → StrBlock} : (onStr f s).lane = s.lane := rfl
@[simp] theorem onStr_met {f : StrBlock → StrBlock} : (onStr f s).met = s.met := rfl
@[simp] theorem onStr_bil {f : StrBlock → StrBlock} : (onStr f s).bil = s.bil := rfl
@[simp] theorem onStr_pwr {f : StrBlock → StrBlock} : (onStr f s).pwr = s.pwr := rfl
@[simp] theorem onStr_flt {f : StrBlock → StrBlock} : (onStr f s).flt = s.flt := rfl
@[simp] theorem onStr_owl {f : StrBlock → StrBlock} : (onStr f s).owl = s.owl := rfl
@[simp] theorem onStr_vlk {f : StrBlock → StrBlock} : (onStr f s).vlk = s.vlk := rfl
@[simp] theorem onStr_glk {f : StrBlock → StrBlock} : (onStr f s).glk = s.glk := rfl
@[simp] theorem onStr_eth {f : StrBlock → StrBlock} : (onStr f s).eth = s.eth := rfl
@[simp] theorem onStr_tim {f : StrBlock → StrBlock} : (onStr f s).tim = s.tim := rfl
@[simp] theorem onStr_tag {f : StrBlock → StrBlock} : (onStr f s).tag = s.tag := rfl
@[simp] theorem onStr_epd {f : StrBlock → StrBlock} : (onStr f s).epd = s.epd := rfl
@[simp] theorem onStr_key {f : StrBlock → StrBlock} : (onStr f s).key = s.key := rfl
@[simp] theorem onStr_upd {f : StrBlock → StrBlock} : (onStr f s).upd = s.upd := rfl
@[simp] theorem onStr_sys {f : StrBlock → StrBlock} : (onStr f s).sys = s.sys := rfl
@[simp] theorem onStr_mgt {f : StrBlock → StrBlock} : (onStr f s).mgt = s.mgt := rfl
@[simp] theorem onStr_hsi {f : StrBlock → StrBlock} : (onStr f s).hsi = s.hsi := rfl
@[simp] theorem onStr_can {f : StrBlock → StrBlock} : (onStr f s).can = s.can := rfl
@[simp] theorem onStr_sram {f : StrBlock → StrBlock} : (onStr f s).sram = s.sram := rfl
@[simp] theorem onStr_ticks {f : StrBlock → StrBlock} : (onStr f s).ticks = s.ticks := rfl
@[simp] theorem onStr_freeCtr {f : StrBlock → StrBlock} : (onStr f s).freeCtr = s.freeCtr := rfl
@[simp] theorem onStr_result {f : StrBlock → StrBlock} : (onStr f s).result = s.result := rfl
@[simp] theorem onStr_rdata {f : StrBlock → StrBlock} : (onStr f s).rdata = s.rdata := rfl
@[simp] theorem onStr_pending {f : StrBlock → StrBlock} : (onStr f s).pending = s.pending := rfl

/-! ## onLaneBlk -/

@[simp] theorem onLaneBlk_ident {f : LaneBlock → LaneBlock} : (onLaneBlk f s).ident = s.ident := rfl
@[simp] theorem onLaneBlk_str {f : LaneBlock → LaneBlock} : (onLaneBlk f s).str = s.str := rfl
@[simp] theorem onLaneBlk_lane {f : LaneBlock → LaneBlock} : (onLaneBlk f s).lane = f s.lane := rfl
@[simp] theorem onLaneBlk_met {f : LaneBlock → LaneBlock} : (onLaneBlk f s).met = s.met := rfl
@[simp] theorem onLaneBlk_bil {f : LaneBlock → LaneBlock} : (onLaneBlk f s).bil = s.bil := rfl
@[simp] theorem onLaneBlk_pwr {f : LaneBlock → LaneBlock} : (onLaneBlk f s).pwr = s.pwr := rfl
@[simp] theorem onLaneBlk_flt {f : LaneBlock → LaneBlock} : (onLaneBlk f s).flt = s.flt := rfl
@[simp] theorem onLaneBlk_owl {f : LaneBlock → LaneBlock} : (onLaneBlk f s).owl = s.owl := rfl
@[simp] theorem onLaneBlk_vlk {f : LaneBlock → LaneBlock} : (onLaneBlk f s).vlk = s.vlk := rfl
@[simp] theorem onLaneBlk_glk {f : LaneBlock → LaneBlock} : (onLaneBlk f s).glk = s.glk := rfl
@[simp] theorem onLaneBlk_eth {f : LaneBlock → LaneBlock} : (onLaneBlk f s).eth = s.eth := rfl
@[simp] theorem onLaneBlk_tim {f : LaneBlock → LaneBlock} : (onLaneBlk f s).tim = s.tim := rfl
@[simp] theorem onLaneBlk_tag {f : LaneBlock → LaneBlock} : (onLaneBlk f s).tag = s.tag := rfl
@[simp] theorem onLaneBlk_epd {f : LaneBlock → LaneBlock} : (onLaneBlk f s).epd = s.epd := rfl
@[simp] theorem onLaneBlk_key {f : LaneBlock → LaneBlock} : (onLaneBlk f s).key = s.key := rfl
@[simp] theorem onLaneBlk_upd {f : LaneBlock → LaneBlock} : (onLaneBlk f s).upd = s.upd := rfl
@[simp] theorem onLaneBlk_sys {f : LaneBlock → LaneBlock} : (onLaneBlk f s).sys = s.sys := rfl
@[simp] theorem onLaneBlk_mgt {f : LaneBlock → LaneBlock} : (onLaneBlk f s).mgt = s.mgt := rfl
@[simp] theorem onLaneBlk_hsi {f : LaneBlock → LaneBlock} : (onLaneBlk f s).hsi = s.hsi := rfl
@[simp] theorem onLaneBlk_can {f : LaneBlock → LaneBlock} : (onLaneBlk f s).can = s.can := rfl
@[simp] theorem onLaneBlk_sram {f : LaneBlock → LaneBlock} : (onLaneBlk f s).sram = s.sram := rfl
@[simp] theorem onLaneBlk_ticks {f : LaneBlock → LaneBlock} : (onLaneBlk f s).ticks = s.ticks := rfl
@[simp] theorem onLaneBlk_freeCtr {f : LaneBlock → LaneBlock} : (onLaneBlk f s).freeCtr = s.freeCtr := rfl
@[simp] theorem onLaneBlk_result {f : LaneBlock → LaneBlock} : (onLaneBlk f s).result = s.result := rfl
@[simp] theorem onLaneBlk_rdata {f : LaneBlock → LaneBlock} : (onLaneBlk f s).rdata = s.rdata := rfl
@[simp] theorem onLaneBlk_pending {f : LaneBlock → LaneBlock} : (onLaneBlk f s).pending = s.pending := rfl

/-! ## onMet -/

@[simp] theorem onMet_ident {f : MetBlock → MetBlock} : (onMet f s).ident = s.ident := rfl
@[simp] theorem onMet_str {f : MetBlock → MetBlock} : (onMet f s).str = s.str := rfl
@[simp] theorem onMet_lane {f : MetBlock → MetBlock} : (onMet f s).lane = s.lane := rfl
@[simp] theorem onMet_met {f : MetBlock → MetBlock} : (onMet f s).met = f s.met := rfl
@[simp] theorem onMet_bil {f : MetBlock → MetBlock} : (onMet f s).bil = s.bil := rfl
@[simp] theorem onMet_pwr {f : MetBlock → MetBlock} : (onMet f s).pwr = s.pwr := rfl
@[simp] theorem onMet_flt {f : MetBlock → MetBlock} : (onMet f s).flt = s.flt := rfl
@[simp] theorem onMet_owl {f : MetBlock → MetBlock} : (onMet f s).owl = s.owl := rfl
@[simp] theorem onMet_vlk {f : MetBlock → MetBlock} : (onMet f s).vlk = s.vlk := rfl
@[simp] theorem onMet_glk {f : MetBlock → MetBlock} : (onMet f s).glk = s.glk := rfl
@[simp] theorem onMet_eth {f : MetBlock → MetBlock} : (onMet f s).eth = s.eth := rfl
@[simp] theorem onMet_tim {f : MetBlock → MetBlock} : (onMet f s).tim = s.tim := rfl
@[simp] theorem onMet_tag {f : MetBlock → MetBlock} : (onMet f s).tag = s.tag := rfl
@[simp] theorem onMet_epd {f : MetBlock → MetBlock} : (onMet f s).epd = s.epd := rfl
@[simp] theorem onMet_key {f : MetBlock → MetBlock} : (onMet f s).key = s.key := rfl
@[simp] theorem onMet_upd {f : MetBlock → MetBlock} : (onMet f s).upd = s.upd := rfl
@[simp] theorem onMet_sys {f : MetBlock → MetBlock} : (onMet f s).sys = s.sys := rfl
@[simp] theorem onMet_mgt {f : MetBlock → MetBlock} : (onMet f s).mgt = s.mgt := rfl
@[simp] theorem onMet_hsi {f : MetBlock → MetBlock} : (onMet f s).hsi = s.hsi := rfl
@[simp] theorem onMet_can {f : MetBlock → MetBlock} : (onMet f s).can = s.can := rfl
@[simp] theorem onMet_sram {f : MetBlock → MetBlock} : (onMet f s).sram = s.sram := rfl
@[simp] theorem onMet_ticks {f : MetBlock → MetBlock} : (onMet f s).ticks = s.ticks := rfl
@[simp] theorem onMet_freeCtr {f : MetBlock → MetBlock} : (onMet f s).freeCtr = s.freeCtr := rfl
@[simp] theorem onMet_result {f : MetBlock → MetBlock} : (onMet f s).result = s.result := rfl
@[simp] theorem onMet_rdata {f : MetBlock → MetBlock} : (onMet f s).rdata = s.rdata := rfl
@[simp] theorem onMet_pending {f : MetBlock → MetBlock} : (onMet f s).pending = s.pending := rfl

/-! ## onBil -/

@[simp] theorem onBil_ident {f : BilBlock → BilBlock} : (onBil f s).ident = s.ident := rfl
@[simp] theorem onBil_str {f : BilBlock → BilBlock} : (onBil f s).str = s.str := rfl
@[simp] theorem onBil_lane {f : BilBlock → BilBlock} : (onBil f s).lane = s.lane := rfl
@[simp] theorem onBil_met {f : BilBlock → BilBlock} : (onBil f s).met = s.met := rfl
@[simp] theorem onBil_bil {f : BilBlock → BilBlock} : (onBil f s).bil = f s.bil := rfl
@[simp] theorem onBil_pwr {f : BilBlock → BilBlock} : (onBil f s).pwr = s.pwr := rfl
@[simp] theorem onBil_flt {f : BilBlock → BilBlock} : (onBil f s).flt = s.flt := rfl
@[simp] theorem onBil_owl {f : BilBlock → BilBlock} : (onBil f s).owl = s.owl := rfl
@[simp] theorem onBil_vlk {f : BilBlock → BilBlock} : (onBil f s).vlk = s.vlk := rfl
@[simp] theorem onBil_glk {f : BilBlock → BilBlock} : (onBil f s).glk = s.glk := rfl
@[simp] theorem onBil_eth {f : BilBlock → BilBlock} : (onBil f s).eth = s.eth := rfl
@[simp] theorem onBil_tim {f : BilBlock → BilBlock} : (onBil f s).tim = s.tim := rfl
@[simp] theorem onBil_tag {f : BilBlock → BilBlock} : (onBil f s).tag = s.tag := rfl
@[simp] theorem onBil_epd {f : BilBlock → BilBlock} : (onBil f s).epd = s.epd := rfl
@[simp] theorem onBil_key {f : BilBlock → BilBlock} : (onBil f s).key = s.key := rfl
@[simp] theorem onBil_upd {f : BilBlock → BilBlock} : (onBil f s).upd = s.upd := rfl
@[simp] theorem onBil_sys {f : BilBlock → BilBlock} : (onBil f s).sys = s.sys := rfl
@[simp] theorem onBil_mgt {f : BilBlock → BilBlock} : (onBil f s).mgt = s.mgt := rfl
@[simp] theorem onBil_hsi {f : BilBlock → BilBlock} : (onBil f s).hsi = s.hsi := rfl
@[simp] theorem onBil_can {f : BilBlock → BilBlock} : (onBil f s).can = s.can := rfl
@[simp] theorem onBil_sram {f : BilBlock → BilBlock} : (onBil f s).sram = s.sram := rfl
@[simp] theorem onBil_ticks {f : BilBlock → BilBlock} : (onBil f s).ticks = s.ticks := rfl
@[simp] theorem onBil_freeCtr {f : BilBlock → BilBlock} : (onBil f s).freeCtr = s.freeCtr := rfl
@[simp] theorem onBil_result {f : BilBlock → BilBlock} : (onBil f s).result = s.result := rfl
@[simp] theorem onBil_rdata {f : BilBlock → BilBlock} : (onBil f s).rdata = s.rdata := rfl
@[simp] theorem onBil_pending {f : BilBlock → BilBlock} : (onBil f s).pending = s.pending := rfl

/-! ## onPwr -/

@[simp] theorem onPwr_ident {f : PwrBlock → PwrBlock} : (onPwr f s).ident = s.ident := rfl
@[simp] theorem onPwr_str {f : PwrBlock → PwrBlock} : (onPwr f s).str = s.str := rfl
@[simp] theorem onPwr_lane {f : PwrBlock → PwrBlock} : (onPwr f s).lane = s.lane := rfl
@[simp] theorem onPwr_met {f : PwrBlock → PwrBlock} : (onPwr f s).met = s.met := rfl
@[simp] theorem onPwr_bil {f : PwrBlock → PwrBlock} : (onPwr f s).bil = s.bil := rfl
@[simp] theorem onPwr_pwr {f : PwrBlock → PwrBlock} : (onPwr f s).pwr = f s.pwr := rfl
@[simp] theorem onPwr_flt {f : PwrBlock → PwrBlock} : (onPwr f s).flt = s.flt := rfl
@[simp] theorem onPwr_owl {f : PwrBlock → PwrBlock} : (onPwr f s).owl = s.owl := rfl
@[simp] theorem onPwr_vlk {f : PwrBlock → PwrBlock} : (onPwr f s).vlk = s.vlk := rfl
@[simp] theorem onPwr_glk {f : PwrBlock → PwrBlock} : (onPwr f s).glk = s.glk := rfl
@[simp] theorem onPwr_eth {f : PwrBlock → PwrBlock} : (onPwr f s).eth = s.eth := rfl
@[simp] theorem onPwr_tim {f : PwrBlock → PwrBlock} : (onPwr f s).tim = s.tim := rfl
@[simp] theorem onPwr_tag {f : PwrBlock → PwrBlock} : (onPwr f s).tag = s.tag := rfl
@[simp] theorem onPwr_epd {f : PwrBlock → PwrBlock} : (onPwr f s).epd = s.epd := rfl
@[simp] theorem onPwr_key {f : PwrBlock → PwrBlock} : (onPwr f s).key = s.key := rfl
@[simp] theorem onPwr_upd {f : PwrBlock → PwrBlock} : (onPwr f s).upd = s.upd := rfl
@[simp] theorem onPwr_sys {f : PwrBlock → PwrBlock} : (onPwr f s).sys = s.sys := rfl
@[simp] theorem onPwr_mgt {f : PwrBlock → PwrBlock} : (onPwr f s).mgt = s.mgt := rfl
@[simp] theorem onPwr_hsi {f : PwrBlock → PwrBlock} : (onPwr f s).hsi = s.hsi := rfl
@[simp] theorem onPwr_can {f : PwrBlock → PwrBlock} : (onPwr f s).can = s.can := rfl
@[simp] theorem onPwr_sram {f : PwrBlock → PwrBlock} : (onPwr f s).sram = s.sram := rfl
@[simp] theorem onPwr_ticks {f : PwrBlock → PwrBlock} : (onPwr f s).ticks = s.ticks := rfl
@[simp] theorem onPwr_freeCtr {f : PwrBlock → PwrBlock} : (onPwr f s).freeCtr = s.freeCtr := rfl
@[simp] theorem onPwr_result {f : PwrBlock → PwrBlock} : (onPwr f s).result = s.result := rfl
@[simp] theorem onPwr_rdata {f : PwrBlock → PwrBlock} : (onPwr f s).rdata = s.rdata := rfl
@[simp] theorem onPwr_pending {f : PwrBlock → PwrBlock} : (onPwr f s).pending = s.pending := rfl

/-! ## onFlt -/

@[simp] theorem onFlt_ident {f : FltBlock → FltBlock} : (onFlt f s).ident = s.ident := rfl
@[simp] theorem onFlt_str {f : FltBlock → FltBlock} : (onFlt f s).str = s.str := rfl
@[simp] theorem onFlt_lane {f : FltBlock → FltBlock} : (onFlt f s).lane = s.lane := rfl
@[simp] theorem onFlt_met {f : FltBlock → FltBlock} : (onFlt f s).met = s.met := rfl
@[simp] theorem onFlt_bil {f : FltBlock → FltBlock} : (onFlt f s).bil = s.bil := rfl
@[simp] theorem onFlt_pwr {f : FltBlock → FltBlock} : (onFlt f s).pwr = s.pwr := rfl
@[simp] theorem onFlt_flt {f : FltBlock → FltBlock} : (onFlt f s).flt = f s.flt := rfl
@[simp] theorem onFlt_owl {f : FltBlock → FltBlock} : (onFlt f s).owl = s.owl := rfl
@[simp] theorem onFlt_vlk {f : FltBlock → FltBlock} : (onFlt f s).vlk = s.vlk := rfl
@[simp] theorem onFlt_glk {f : FltBlock → FltBlock} : (onFlt f s).glk = s.glk := rfl
@[simp] theorem onFlt_eth {f : FltBlock → FltBlock} : (onFlt f s).eth = s.eth := rfl
@[simp] theorem onFlt_tim {f : FltBlock → FltBlock} : (onFlt f s).tim = s.tim := rfl
@[simp] theorem onFlt_tag {f : FltBlock → FltBlock} : (onFlt f s).tag = s.tag := rfl
@[simp] theorem onFlt_epd {f : FltBlock → FltBlock} : (onFlt f s).epd = s.epd := rfl
@[simp] theorem onFlt_key {f : FltBlock → FltBlock} : (onFlt f s).key = s.key := rfl
@[simp] theorem onFlt_upd {f : FltBlock → FltBlock} : (onFlt f s).upd = s.upd := rfl
@[simp] theorem onFlt_sys {f : FltBlock → FltBlock} : (onFlt f s).sys = s.sys := rfl
@[simp] theorem onFlt_mgt {f : FltBlock → FltBlock} : (onFlt f s).mgt = s.mgt := rfl
@[simp] theorem onFlt_hsi {f : FltBlock → FltBlock} : (onFlt f s).hsi = s.hsi := rfl
@[simp] theorem onFlt_can {f : FltBlock → FltBlock} : (onFlt f s).can = s.can := rfl
@[simp] theorem onFlt_sram {f : FltBlock → FltBlock} : (onFlt f s).sram = s.sram := rfl
@[simp] theorem onFlt_ticks {f : FltBlock → FltBlock} : (onFlt f s).ticks = s.ticks := rfl
@[simp] theorem onFlt_freeCtr {f : FltBlock → FltBlock} : (onFlt f s).freeCtr = s.freeCtr := rfl
@[simp] theorem onFlt_result {f : FltBlock → FltBlock} : (onFlt f s).result = s.result := rfl
@[simp] theorem onFlt_rdata {f : FltBlock → FltBlock} : (onFlt f s).rdata = s.rdata := rfl
@[simp] theorem onFlt_pending {f : FltBlock → FltBlock} : (onFlt f s).pending = s.pending := rfl

/-! ## onOwl -/

@[simp] theorem onOwl_ident {f : OwlBlock → OwlBlock} : (onOwl f s).ident = s.ident := rfl
@[simp] theorem onOwl_str {f : OwlBlock → OwlBlock} : (onOwl f s).str = s.str := rfl
@[simp] theorem onOwl_lane {f : OwlBlock → OwlBlock} : (onOwl f s).lane = s.lane := rfl
@[simp] theorem onOwl_met {f : OwlBlock → OwlBlock} : (onOwl f s).met = s.met := rfl
@[simp] theorem onOwl_bil {f : OwlBlock → OwlBlock} : (onOwl f s).bil = s.bil := rfl
@[simp] theorem onOwl_pwr {f : OwlBlock → OwlBlock} : (onOwl f s).pwr = s.pwr := rfl
@[simp] theorem onOwl_flt {f : OwlBlock → OwlBlock} : (onOwl f s).flt = s.flt := rfl
@[simp] theorem onOwl_owl {f : OwlBlock → OwlBlock} : (onOwl f s).owl = f s.owl := rfl
@[simp] theorem onOwl_vlk {f : OwlBlock → OwlBlock} : (onOwl f s).vlk = s.vlk := rfl
@[simp] theorem onOwl_glk {f : OwlBlock → OwlBlock} : (onOwl f s).glk = s.glk := rfl
@[simp] theorem onOwl_eth {f : OwlBlock → OwlBlock} : (onOwl f s).eth = s.eth := rfl
@[simp] theorem onOwl_tim {f : OwlBlock → OwlBlock} : (onOwl f s).tim = s.tim := rfl
@[simp] theorem onOwl_tag {f : OwlBlock → OwlBlock} : (onOwl f s).tag = s.tag := rfl
@[simp] theorem onOwl_epd {f : OwlBlock → OwlBlock} : (onOwl f s).epd = s.epd := rfl
@[simp] theorem onOwl_key {f : OwlBlock → OwlBlock} : (onOwl f s).key = s.key := rfl
@[simp] theorem onOwl_upd {f : OwlBlock → OwlBlock} : (onOwl f s).upd = s.upd := rfl
@[simp] theorem onOwl_sys {f : OwlBlock → OwlBlock} : (onOwl f s).sys = s.sys := rfl
@[simp] theorem onOwl_mgt {f : OwlBlock → OwlBlock} : (onOwl f s).mgt = s.mgt := rfl
@[simp] theorem onOwl_hsi {f : OwlBlock → OwlBlock} : (onOwl f s).hsi = s.hsi := rfl
@[simp] theorem onOwl_can {f : OwlBlock → OwlBlock} : (onOwl f s).can = s.can := rfl
@[simp] theorem onOwl_sram {f : OwlBlock → OwlBlock} : (onOwl f s).sram = s.sram := rfl
@[simp] theorem onOwl_ticks {f : OwlBlock → OwlBlock} : (onOwl f s).ticks = s.ticks := rfl
@[simp] theorem onOwl_freeCtr {f : OwlBlock → OwlBlock} : (onOwl f s).freeCtr = s.freeCtr := rfl
@[simp] theorem onOwl_result {f : OwlBlock → OwlBlock} : (onOwl f s).result = s.result := rfl
@[simp] theorem onOwl_rdata {f : OwlBlock → OwlBlock} : (onOwl f s).rdata = s.rdata := rfl
@[simp] theorem onOwl_pending {f : OwlBlock → OwlBlock} : (onOwl f s).pending = s.pending := rfl

/-! ## onGlk -/

@[simp] theorem onGlk_ident {f : GlkBlock → GlkBlock} : (onGlk f s).ident = s.ident := rfl
@[simp] theorem onGlk_str {f : GlkBlock → GlkBlock} : (onGlk f s).str = s.str := rfl
@[simp] theorem onGlk_lane {f : GlkBlock → GlkBlock} : (onGlk f s).lane = s.lane := rfl
@[simp] theorem onGlk_met {f : GlkBlock → GlkBlock} : (onGlk f s).met = s.met := rfl
@[simp] theorem onGlk_bil {f : GlkBlock → GlkBlock} : (onGlk f s).bil = s.bil := rfl
@[simp] theorem onGlk_pwr {f : GlkBlock → GlkBlock} : (onGlk f s).pwr = s.pwr := rfl
@[simp] theorem onGlk_flt {f : GlkBlock → GlkBlock} : (onGlk f s).flt = s.flt := rfl
@[simp] theorem onGlk_owl {f : GlkBlock → GlkBlock} : (onGlk f s).owl = s.owl := rfl
@[simp] theorem onGlk_vlk {f : GlkBlock → GlkBlock} : (onGlk f s).vlk = s.vlk := rfl
@[simp] theorem onGlk_glk {f : GlkBlock → GlkBlock} : (onGlk f s).glk = f s.glk := rfl
@[simp] theorem onGlk_eth {f : GlkBlock → GlkBlock} : (onGlk f s).eth = s.eth := rfl
@[simp] theorem onGlk_tim {f : GlkBlock → GlkBlock} : (onGlk f s).tim = s.tim := rfl
@[simp] theorem onGlk_tag {f : GlkBlock → GlkBlock} : (onGlk f s).tag = s.tag := rfl
@[simp] theorem onGlk_epd {f : GlkBlock → GlkBlock} : (onGlk f s).epd = s.epd := rfl
@[simp] theorem onGlk_key {f : GlkBlock → GlkBlock} : (onGlk f s).key = s.key := rfl
@[simp] theorem onGlk_upd {f : GlkBlock → GlkBlock} : (onGlk f s).upd = s.upd := rfl
@[simp] theorem onGlk_sys {f : GlkBlock → GlkBlock} : (onGlk f s).sys = s.sys := rfl
@[simp] theorem onGlk_mgt {f : GlkBlock → GlkBlock} : (onGlk f s).mgt = s.mgt := rfl
@[simp] theorem onGlk_hsi {f : GlkBlock → GlkBlock} : (onGlk f s).hsi = s.hsi := rfl
@[simp] theorem onGlk_can {f : GlkBlock → GlkBlock} : (onGlk f s).can = s.can := rfl
@[simp] theorem onGlk_sram {f : GlkBlock → GlkBlock} : (onGlk f s).sram = s.sram := rfl
@[simp] theorem onGlk_ticks {f : GlkBlock → GlkBlock} : (onGlk f s).ticks = s.ticks := rfl
@[simp] theorem onGlk_freeCtr {f : GlkBlock → GlkBlock} : (onGlk f s).freeCtr = s.freeCtr := rfl
@[simp] theorem onGlk_result {f : GlkBlock → GlkBlock} : (onGlk f s).result = s.result := rfl
@[simp] theorem onGlk_rdata {f : GlkBlock → GlkBlock} : (onGlk f s).rdata = s.rdata := rfl
@[simp] theorem onGlk_pending {f : GlkBlock → GlkBlock} : (onGlk f s).pending = s.pending := rfl

/-! ## onEth -/

@[simp] theorem onEth_ident {f : EthBlock → EthBlock} : (onEth f s).ident = s.ident := rfl
@[simp] theorem onEth_str {f : EthBlock → EthBlock} : (onEth f s).str = s.str := rfl
@[simp] theorem onEth_lane {f : EthBlock → EthBlock} : (onEth f s).lane = s.lane := rfl
@[simp] theorem onEth_met {f : EthBlock → EthBlock} : (onEth f s).met = s.met := rfl
@[simp] theorem onEth_bil {f : EthBlock → EthBlock} : (onEth f s).bil = s.bil := rfl
@[simp] theorem onEth_pwr {f : EthBlock → EthBlock} : (onEth f s).pwr = s.pwr := rfl
@[simp] theorem onEth_flt {f : EthBlock → EthBlock} : (onEth f s).flt = s.flt := rfl
@[simp] theorem onEth_owl {f : EthBlock → EthBlock} : (onEth f s).owl = s.owl := rfl
@[simp] theorem onEth_vlk {f : EthBlock → EthBlock} : (onEth f s).vlk = s.vlk := rfl
@[simp] theorem onEth_glk {f : EthBlock → EthBlock} : (onEth f s).glk = s.glk := rfl
@[simp] theorem onEth_eth {f : EthBlock → EthBlock} : (onEth f s).eth = f s.eth := rfl
@[simp] theorem onEth_tim {f : EthBlock → EthBlock} : (onEth f s).tim = s.tim := rfl
@[simp] theorem onEth_tag {f : EthBlock → EthBlock} : (onEth f s).tag = s.tag := rfl
@[simp] theorem onEth_epd {f : EthBlock → EthBlock} : (onEth f s).epd = s.epd := rfl
@[simp] theorem onEth_key {f : EthBlock → EthBlock} : (onEth f s).key = s.key := rfl
@[simp] theorem onEth_upd {f : EthBlock → EthBlock} : (onEth f s).upd = s.upd := rfl
@[simp] theorem onEth_sys {f : EthBlock → EthBlock} : (onEth f s).sys = s.sys := rfl
@[simp] theorem onEth_mgt {f : EthBlock → EthBlock} : (onEth f s).mgt = s.mgt := rfl
@[simp] theorem onEth_hsi {f : EthBlock → EthBlock} : (onEth f s).hsi = s.hsi := rfl
@[simp] theorem onEth_can {f : EthBlock → EthBlock} : (onEth f s).can = s.can := rfl
@[simp] theorem onEth_sram {f : EthBlock → EthBlock} : (onEth f s).sram = s.sram := rfl
@[simp] theorem onEth_ticks {f : EthBlock → EthBlock} : (onEth f s).ticks = s.ticks := rfl
@[simp] theorem onEth_freeCtr {f : EthBlock → EthBlock} : (onEth f s).freeCtr = s.freeCtr := rfl
@[simp] theorem onEth_result {f : EthBlock → EthBlock} : (onEth f s).result = s.result := rfl
@[simp] theorem onEth_rdata {f : EthBlock → EthBlock} : (onEth f s).rdata = s.rdata := rfl
@[simp] theorem onEth_pending {f : EthBlock → EthBlock} : (onEth f s).pending = s.pending := rfl

/-! ## onTim -/

@[simp] theorem onTim_ident {f : TimBlock → TimBlock} : (onTim f s).ident = s.ident := rfl
@[simp] theorem onTim_str {f : TimBlock → TimBlock} : (onTim f s).str = s.str := rfl
@[simp] theorem onTim_lane {f : TimBlock → TimBlock} : (onTim f s).lane = s.lane := rfl
@[simp] theorem onTim_met {f : TimBlock → TimBlock} : (onTim f s).met = s.met := rfl
@[simp] theorem onTim_bil {f : TimBlock → TimBlock} : (onTim f s).bil = s.bil := rfl
@[simp] theorem onTim_pwr {f : TimBlock → TimBlock} : (onTim f s).pwr = s.pwr := rfl
@[simp] theorem onTim_flt {f : TimBlock → TimBlock} : (onTim f s).flt = s.flt := rfl
@[simp] theorem onTim_owl {f : TimBlock → TimBlock} : (onTim f s).owl = s.owl := rfl
@[simp] theorem onTim_vlk {f : TimBlock → TimBlock} : (onTim f s).vlk = s.vlk := rfl
@[simp] theorem onTim_glk {f : TimBlock → TimBlock} : (onTim f s).glk = s.glk := rfl
@[simp] theorem onTim_eth {f : TimBlock → TimBlock} : (onTim f s).eth = s.eth := rfl
@[simp] theorem onTim_tim {f : TimBlock → TimBlock} : (onTim f s).tim = f s.tim := rfl
@[simp] theorem onTim_tag {f : TimBlock → TimBlock} : (onTim f s).tag = s.tag := rfl
@[simp] theorem onTim_epd {f : TimBlock → TimBlock} : (onTim f s).epd = s.epd := rfl
@[simp] theorem onTim_key {f : TimBlock → TimBlock} : (onTim f s).key = s.key := rfl
@[simp] theorem onTim_upd {f : TimBlock → TimBlock} : (onTim f s).upd = s.upd := rfl
@[simp] theorem onTim_sys {f : TimBlock → TimBlock} : (onTim f s).sys = s.sys := rfl
@[simp] theorem onTim_mgt {f : TimBlock → TimBlock} : (onTim f s).mgt = s.mgt := rfl
@[simp] theorem onTim_hsi {f : TimBlock → TimBlock} : (onTim f s).hsi = s.hsi := rfl
@[simp] theorem onTim_can {f : TimBlock → TimBlock} : (onTim f s).can = s.can := rfl
@[simp] theorem onTim_sram {f : TimBlock → TimBlock} : (onTim f s).sram = s.sram := rfl
@[simp] theorem onTim_ticks {f : TimBlock → TimBlock} : (onTim f s).ticks = s.ticks := rfl
@[simp] theorem onTim_freeCtr {f : TimBlock → TimBlock} : (onTim f s).freeCtr = s.freeCtr := rfl
@[simp] theorem onTim_result {f : TimBlock → TimBlock} : (onTim f s).result = s.result := rfl
@[simp] theorem onTim_rdata {f : TimBlock → TimBlock} : (onTim f s).rdata = s.rdata := rfl
@[simp] theorem onTim_pending {f : TimBlock → TimBlock} : (onTim f s).pending = s.pending := rfl

/-! ## onTag -/

@[simp] theorem onTag_ident {f : TagBlock → TagBlock} : (onTag f s).ident = s.ident := rfl
@[simp] theorem onTag_str {f : TagBlock → TagBlock} : (onTag f s).str = s.str := rfl
@[simp] theorem onTag_lane {f : TagBlock → TagBlock} : (onTag f s).lane = s.lane := rfl
@[simp] theorem onTag_met {f : TagBlock → TagBlock} : (onTag f s).met = s.met := rfl
@[simp] theorem onTag_bil {f : TagBlock → TagBlock} : (onTag f s).bil = s.bil := rfl
@[simp] theorem onTag_pwr {f : TagBlock → TagBlock} : (onTag f s).pwr = s.pwr := rfl
@[simp] theorem onTag_flt {f : TagBlock → TagBlock} : (onTag f s).flt = s.flt := rfl
@[simp] theorem onTag_owl {f : TagBlock → TagBlock} : (onTag f s).owl = s.owl := rfl
@[simp] theorem onTag_vlk {f : TagBlock → TagBlock} : (onTag f s).vlk = s.vlk := rfl
@[simp] theorem onTag_glk {f : TagBlock → TagBlock} : (onTag f s).glk = s.glk := rfl
@[simp] theorem onTag_eth {f : TagBlock → TagBlock} : (onTag f s).eth = s.eth := rfl
@[simp] theorem onTag_tim {f : TagBlock → TagBlock} : (onTag f s).tim = s.tim := rfl
@[simp] theorem onTag_tag {f : TagBlock → TagBlock} : (onTag f s).tag = f s.tag := rfl
@[simp] theorem onTag_epd {f : TagBlock → TagBlock} : (onTag f s).epd = s.epd := rfl
@[simp] theorem onTag_key {f : TagBlock → TagBlock} : (onTag f s).key = s.key := rfl
@[simp] theorem onTag_upd {f : TagBlock → TagBlock} : (onTag f s).upd = s.upd := rfl
@[simp] theorem onTag_sys {f : TagBlock → TagBlock} : (onTag f s).sys = s.sys := rfl
@[simp] theorem onTag_mgt {f : TagBlock → TagBlock} : (onTag f s).mgt = s.mgt := rfl
@[simp] theorem onTag_hsi {f : TagBlock → TagBlock} : (onTag f s).hsi = s.hsi := rfl
@[simp] theorem onTag_can {f : TagBlock → TagBlock} : (onTag f s).can = s.can := rfl
@[simp] theorem onTag_sram {f : TagBlock → TagBlock} : (onTag f s).sram = s.sram := rfl
@[simp] theorem onTag_ticks {f : TagBlock → TagBlock} : (onTag f s).ticks = s.ticks := rfl
@[simp] theorem onTag_freeCtr {f : TagBlock → TagBlock} : (onTag f s).freeCtr = s.freeCtr := rfl
@[simp] theorem onTag_result {f : TagBlock → TagBlock} : (onTag f s).result = s.result := rfl
@[simp] theorem onTag_rdata {f : TagBlock → TagBlock} : (onTag f s).rdata = s.rdata := rfl
@[simp] theorem onTag_pending {f : TagBlock → TagBlock} : (onTag f s).pending = s.pending := rfl

/-! ## onEpd -/

@[simp] theorem onEpd_ident {f : EpdBlock → EpdBlock} : (onEpd f s).ident = s.ident := rfl
@[simp] theorem onEpd_str {f : EpdBlock → EpdBlock} : (onEpd f s).str = s.str := rfl
@[simp] theorem onEpd_lane {f : EpdBlock → EpdBlock} : (onEpd f s).lane = s.lane := rfl
@[simp] theorem onEpd_met {f : EpdBlock → EpdBlock} : (onEpd f s).met = s.met := rfl
@[simp] theorem onEpd_bil {f : EpdBlock → EpdBlock} : (onEpd f s).bil = s.bil := rfl
@[simp] theorem onEpd_pwr {f : EpdBlock → EpdBlock} : (onEpd f s).pwr = s.pwr := rfl
@[simp] theorem onEpd_flt {f : EpdBlock → EpdBlock} : (onEpd f s).flt = s.flt := rfl
@[simp] theorem onEpd_owl {f : EpdBlock → EpdBlock} : (onEpd f s).owl = s.owl := rfl
@[simp] theorem onEpd_vlk {f : EpdBlock → EpdBlock} : (onEpd f s).vlk = s.vlk := rfl
@[simp] theorem onEpd_glk {f : EpdBlock → EpdBlock} : (onEpd f s).glk = s.glk := rfl
@[simp] theorem onEpd_eth {f : EpdBlock → EpdBlock} : (onEpd f s).eth = s.eth := rfl
@[simp] theorem onEpd_tim {f : EpdBlock → EpdBlock} : (onEpd f s).tim = s.tim := rfl
@[simp] theorem onEpd_tag {f : EpdBlock → EpdBlock} : (onEpd f s).tag = s.tag := rfl
@[simp] theorem onEpd_epd {f : EpdBlock → EpdBlock} : (onEpd f s).epd = f s.epd := rfl
@[simp] theorem onEpd_key {f : EpdBlock → EpdBlock} : (onEpd f s).key = s.key := rfl
@[simp] theorem onEpd_upd {f : EpdBlock → EpdBlock} : (onEpd f s).upd = s.upd := rfl
@[simp] theorem onEpd_sys {f : EpdBlock → EpdBlock} : (onEpd f s).sys = s.sys := rfl
@[simp] theorem onEpd_mgt {f : EpdBlock → EpdBlock} : (onEpd f s).mgt = s.mgt := rfl
@[simp] theorem onEpd_hsi {f : EpdBlock → EpdBlock} : (onEpd f s).hsi = s.hsi := rfl
@[simp] theorem onEpd_can {f : EpdBlock → EpdBlock} : (onEpd f s).can = s.can := rfl
@[simp] theorem onEpd_sram {f : EpdBlock → EpdBlock} : (onEpd f s).sram = s.sram := rfl
@[simp] theorem onEpd_ticks {f : EpdBlock → EpdBlock} : (onEpd f s).ticks = s.ticks := rfl
@[simp] theorem onEpd_freeCtr {f : EpdBlock → EpdBlock} : (onEpd f s).freeCtr = s.freeCtr := rfl
@[simp] theorem onEpd_result {f : EpdBlock → EpdBlock} : (onEpd f s).result = s.result := rfl
@[simp] theorem onEpd_rdata {f : EpdBlock → EpdBlock} : (onEpd f s).rdata = s.rdata := rfl
@[simp] theorem onEpd_pending {f : EpdBlock → EpdBlock} : (onEpd f s).pending = s.pending := rfl

/-! ## onKey -/

@[simp] theorem onKey_ident {f : KeyBlock → KeyBlock} : (onKey f s).ident = s.ident := rfl
@[simp] theorem onKey_str {f : KeyBlock → KeyBlock} : (onKey f s).str = s.str := rfl
@[simp] theorem onKey_lane {f : KeyBlock → KeyBlock} : (onKey f s).lane = s.lane := rfl
@[simp] theorem onKey_met {f : KeyBlock → KeyBlock} : (onKey f s).met = s.met := rfl
@[simp] theorem onKey_bil {f : KeyBlock → KeyBlock} : (onKey f s).bil = s.bil := rfl
@[simp] theorem onKey_pwr {f : KeyBlock → KeyBlock} : (onKey f s).pwr = s.pwr := rfl
@[simp] theorem onKey_flt {f : KeyBlock → KeyBlock} : (onKey f s).flt = s.flt := rfl
@[simp] theorem onKey_owl {f : KeyBlock → KeyBlock} : (onKey f s).owl = s.owl := rfl
@[simp] theorem onKey_vlk {f : KeyBlock → KeyBlock} : (onKey f s).vlk = s.vlk := rfl
@[simp] theorem onKey_glk {f : KeyBlock → KeyBlock} : (onKey f s).glk = s.glk := rfl
@[simp] theorem onKey_eth {f : KeyBlock → KeyBlock} : (onKey f s).eth = s.eth := rfl
@[simp] theorem onKey_tim {f : KeyBlock → KeyBlock} : (onKey f s).tim = s.tim := rfl
@[simp] theorem onKey_tag {f : KeyBlock → KeyBlock} : (onKey f s).tag = s.tag := rfl
@[simp] theorem onKey_epd {f : KeyBlock → KeyBlock} : (onKey f s).epd = s.epd := rfl
@[simp] theorem onKey_key {f : KeyBlock → KeyBlock} : (onKey f s).key = f s.key := rfl
@[simp] theorem onKey_upd {f : KeyBlock → KeyBlock} : (onKey f s).upd = s.upd := rfl
@[simp] theorem onKey_sys {f : KeyBlock → KeyBlock} : (onKey f s).sys = s.sys := rfl
@[simp] theorem onKey_mgt {f : KeyBlock → KeyBlock} : (onKey f s).mgt = s.mgt := rfl
@[simp] theorem onKey_hsi {f : KeyBlock → KeyBlock} : (onKey f s).hsi = s.hsi := rfl
@[simp] theorem onKey_can {f : KeyBlock → KeyBlock} : (onKey f s).can = s.can := rfl
@[simp] theorem onKey_sram {f : KeyBlock → KeyBlock} : (onKey f s).sram = s.sram := rfl
@[simp] theorem onKey_ticks {f : KeyBlock → KeyBlock} : (onKey f s).ticks = s.ticks := rfl
@[simp] theorem onKey_freeCtr {f : KeyBlock → KeyBlock} : (onKey f s).freeCtr = s.freeCtr := rfl
@[simp] theorem onKey_result {f : KeyBlock → KeyBlock} : (onKey f s).result = s.result := rfl
@[simp] theorem onKey_rdata {f : KeyBlock → KeyBlock} : (onKey f s).rdata = s.rdata := rfl
@[simp] theorem onKey_pending {f : KeyBlock → KeyBlock} : (onKey f s).pending = s.pending := rfl

/-! ## onUpd -/

@[simp] theorem onUpd_ident {f : UpdBlock → UpdBlock} : (onUpd f s).ident = s.ident := rfl
@[simp] theorem onUpd_str {f : UpdBlock → UpdBlock} : (onUpd f s).str = s.str := rfl
@[simp] theorem onUpd_lane {f : UpdBlock → UpdBlock} : (onUpd f s).lane = s.lane := rfl
@[simp] theorem onUpd_met {f : UpdBlock → UpdBlock} : (onUpd f s).met = s.met := rfl
@[simp] theorem onUpd_bil {f : UpdBlock → UpdBlock} : (onUpd f s).bil = s.bil := rfl
@[simp] theorem onUpd_pwr {f : UpdBlock → UpdBlock} : (onUpd f s).pwr = s.pwr := rfl
@[simp] theorem onUpd_flt {f : UpdBlock → UpdBlock} : (onUpd f s).flt = s.flt := rfl
@[simp] theorem onUpd_owl {f : UpdBlock → UpdBlock} : (onUpd f s).owl = s.owl := rfl
@[simp] theorem onUpd_vlk {f : UpdBlock → UpdBlock} : (onUpd f s).vlk = s.vlk := rfl
@[simp] theorem onUpd_glk {f : UpdBlock → UpdBlock} : (onUpd f s).glk = s.glk := rfl
@[simp] theorem onUpd_eth {f : UpdBlock → UpdBlock} : (onUpd f s).eth = s.eth := rfl
@[simp] theorem onUpd_tim {f : UpdBlock → UpdBlock} : (onUpd f s).tim = s.tim := rfl
@[simp] theorem onUpd_tag {f : UpdBlock → UpdBlock} : (onUpd f s).tag = s.tag := rfl
@[simp] theorem onUpd_epd {f : UpdBlock → UpdBlock} : (onUpd f s).epd = s.epd := rfl
@[simp] theorem onUpd_key {f : UpdBlock → UpdBlock} : (onUpd f s).key = s.key := rfl
@[simp] theorem onUpd_upd {f : UpdBlock → UpdBlock} : (onUpd f s).upd = f s.upd := rfl
@[simp] theorem onUpd_sys {f : UpdBlock → UpdBlock} : (onUpd f s).sys = s.sys := rfl
@[simp] theorem onUpd_mgt {f : UpdBlock → UpdBlock} : (onUpd f s).mgt = s.mgt := rfl
@[simp] theorem onUpd_hsi {f : UpdBlock → UpdBlock} : (onUpd f s).hsi = s.hsi := rfl
@[simp] theorem onUpd_can {f : UpdBlock → UpdBlock} : (onUpd f s).can = s.can := rfl
@[simp] theorem onUpd_sram {f : UpdBlock → UpdBlock} : (onUpd f s).sram = s.sram := rfl
@[simp] theorem onUpd_ticks {f : UpdBlock → UpdBlock} : (onUpd f s).ticks = s.ticks := rfl
@[simp] theorem onUpd_freeCtr {f : UpdBlock → UpdBlock} : (onUpd f s).freeCtr = s.freeCtr := rfl
@[simp] theorem onUpd_result {f : UpdBlock → UpdBlock} : (onUpd f s).result = s.result := rfl
@[simp] theorem onUpd_rdata {f : UpdBlock → UpdBlock} : (onUpd f s).rdata = s.rdata := rfl
@[simp] theorem onUpd_pending {f : UpdBlock → UpdBlock} : (onUpd f s).pending = s.pending := rfl

/-! ## onSys -/

@[simp] theorem onSys_ident {f : SysBlock → SysBlock} : (onSys f s).ident = s.ident := rfl
@[simp] theorem onSys_str {f : SysBlock → SysBlock} : (onSys f s).str = s.str := rfl
@[simp] theorem onSys_lane {f : SysBlock → SysBlock} : (onSys f s).lane = s.lane := rfl
@[simp] theorem onSys_met {f : SysBlock → SysBlock} : (onSys f s).met = s.met := rfl
@[simp] theorem onSys_bil {f : SysBlock → SysBlock} : (onSys f s).bil = s.bil := rfl
@[simp] theorem onSys_pwr {f : SysBlock → SysBlock} : (onSys f s).pwr = s.pwr := rfl
@[simp] theorem onSys_flt {f : SysBlock → SysBlock} : (onSys f s).flt = s.flt := rfl
@[simp] theorem onSys_owl {f : SysBlock → SysBlock} : (onSys f s).owl = s.owl := rfl
@[simp] theorem onSys_vlk {f : SysBlock → SysBlock} : (onSys f s).vlk = s.vlk := rfl
@[simp] theorem onSys_glk {f : SysBlock → SysBlock} : (onSys f s).glk = s.glk := rfl
@[simp] theorem onSys_eth {f : SysBlock → SysBlock} : (onSys f s).eth = s.eth := rfl
@[simp] theorem onSys_tim {f : SysBlock → SysBlock} : (onSys f s).tim = s.tim := rfl
@[simp] theorem onSys_tag {f : SysBlock → SysBlock} : (onSys f s).tag = s.tag := rfl
@[simp] theorem onSys_epd {f : SysBlock → SysBlock} : (onSys f s).epd = s.epd := rfl
@[simp] theorem onSys_key {f : SysBlock → SysBlock} : (onSys f s).key = s.key := rfl
@[simp] theorem onSys_upd {f : SysBlock → SysBlock} : (onSys f s).upd = s.upd := rfl
@[simp] theorem onSys_sys {f : SysBlock → SysBlock} : (onSys f s).sys = f s.sys := rfl
@[simp] theorem onSys_mgt {f : SysBlock → SysBlock} : (onSys f s).mgt = s.mgt := rfl
@[simp] theorem onSys_hsi {f : SysBlock → SysBlock} : (onSys f s).hsi = s.hsi := rfl
@[simp] theorem onSys_can {f : SysBlock → SysBlock} : (onSys f s).can = s.can := rfl
@[simp] theorem onSys_sram {f : SysBlock → SysBlock} : (onSys f s).sram = s.sram := rfl
@[simp] theorem onSys_ticks {f : SysBlock → SysBlock} : (onSys f s).ticks = s.ticks := rfl
@[simp] theorem onSys_freeCtr {f : SysBlock → SysBlock} : (onSys f s).freeCtr = s.freeCtr := rfl
@[simp] theorem onSys_result {f : SysBlock → SysBlock} : (onSys f s).result = s.result := rfl
@[simp] theorem onSys_rdata {f : SysBlock → SysBlock} : (onSys f s).rdata = s.rdata := rfl
@[simp] theorem onSys_pending {f : SysBlock → SysBlock} : (onSys f s).pending = s.pending := rfl

/-! ## onMgt -/

@[simp] theorem onMgt_ident {f : MgtBlock → MgtBlock} : (onMgt f s).ident = s.ident := rfl
@[simp] theorem onMgt_str {f : MgtBlock → MgtBlock} : (onMgt f s).str = s.str := rfl
@[simp] theorem onMgt_lane {f : MgtBlock → MgtBlock} : (onMgt f s).lane = s.lane := rfl
@[simp] theorem onMgt_met {f : MgtBlock → MgtBlock} : (onMgt f s).met = s.met := rfl
@[simp] theorem onMgt_bil {f : MgtBlock → MgtBlock} : (onMgt f s).bil = s.bil := rfl
@[simp] theorem onMgt_pwr {f : MgtBlock → MgtBlock} : (onMgt f s).pwr = s.pwr := rfl
@[simp] theorem onMgt_flt {f : MgtBlock → MgtBlock} : (onMgt f s).flt = s.flt := rfl
@[simp] theorem onMgt_owl {f : MgtBlock → MgtBlock} : (onMgt f s).owl = s.owl := rfl
@[simp] theorem onMgt_vlk {f : MgtBlock → MgtBlock} : (onMgt f s).vlk = s.vlk := rfl
@[simp] theorem onMgt_glk {f : MgtBlock → MgtBlock} : (onMgt f s).glk = s.glk := rfl
@[simp] theorem onMgt_eth {f : MgtBlock → MgtBlock} : (onMgt f s).eth = s.eth := rfl
@[simp] theorem onMgt_tim {f : MgtBlock → MgtBlock} : (onMgt f s).tim = s.tim := rfl
@[simp] theorem onMgt_tag {f : MgtBlock → MgtBlock} : (onMgt f s).tag = s.tag := rfl
@[simp] theorem onMgt_epd {f : MgtBlock → MgtBlock} : (onMgt f s).epd = s.epd := rfl
@[simp] theorem onMgt_key {f : MgtBlock → MgtBlock} : (onMgt f s).key = s.key := rfl
@[simp] theorem onMgt_upd {f : MgtBlock → MgtBlock} : (onMgt f s).upd = s.upd := rfl
@[simp] theorem onMgt_sys {f : MgtBlock → MgtBlock} : (onMgt f s).sys = s.sys := rfl
@[simp] theorem onMgt_mgt {f : MgtBlock → MgtBlock} : (onMgt f s).mgt = f s.mgt := rfl
@[simp] theorem onMgt_hsi {f : MgtBlock → MgtBlock} : (onMgt f s).hsi = s.hsi := rfl
@[simp] theorem onMgt_can {f : MgtBlock → MgtBlock} : (onMgt f s).can = s.can := rfl
@[simp] theorem onMgt_sram {f : MgtBlock → MgtBlock} : (onMgt f s).sram = s.sram := rfl
@[simp] theorem onMgt_ticks {f : MgtBlock → MgtBlock} : (onMgt f s).ticks = s.ticks := rfl
@[simp] theorem onMgt_freeCtr {f : MgtBlock → MgtBlock} : (onMgt f s).freeCtr = s.freeCtr := rfl
@[simp] theorem onMgt_result {f : MgtBlock → MgtBlock} : (onMgt f s).result = s.result := rfl
@[simp] theorem onMgt_rdata {f : MgtBlock → MgtBlock} : (onMgt f s).rdata = s.rdata := rfl
@[simp] theorem onMgt_pending {f : MgtBlock → MgtBlock} : (onMgt f s).pending = s.pending := rfl

/-! ## onHsi -/

@[simp] theorem onHsi_ident {f : HsiBlock → HsiBlock} : (onHsi f s).ident = s.ident := rfl
@[simp] theorem onHsi_str {f : HsiBlock → HsiBlock} : (onHsi f s).str = s.str := rfl
@[simp] theorem onHsi_lane {f : HsiBlock → HsiBlock} : (onHsi f s).lane = s.lane := rfl
@[simp] theorem onHsi_met {f : HsiBlock → HsiBlock} : (onHsi f s).met = s.met := rfl
@[simp] theorem onHsi_bil {f : HsiBlock → HsiBlock} : (onHsi f s).bil = s.bil := rfl
@[simp] theorem onHsi_pwr {f : HsiBlock → HsiBlock} : (onHsi f s).pwr = s.pwr := rfl
@[simp] theorem onHsi_flt {f : HsiBlock → HsiBlock} : (onHsi f s).flt = s.flt := rfl
@[simp] theorem onHsi_owl {f : HsiBlock → HsiBlock} : (onHsi f s).owl = s.owl := rfl
@[simp] theorem onHsi_vlk {f : HsiBlock → HsiBlock} : (onHsi f s).vlk = s.vlk := rfl
@[simp] theorem onHsi_glk {f : HsiBlock → HsiBlock} : (onHsi f s).glk = s.glk := rfl
@[simp] theorem onHsi_eth {f : HsiBlock → HsiBlock} : (onHsi f s).eth = s.eth := rfl
@[simp] theorem onHsi_tim {f : HsiBlock → HsiBlock} : (onHsi f s).tim = s.tim := rfl
@[simp] theorem onHsi_tag {f : HsiBlock → HsiBlock} : (onHsi f s).tag = s.tag := rfl
@[simp] theorem onHsi_epd {f : HsiBlock → HsiBlock} : (onHsi f s).epd = s.epd := rfl
@[simp] theorem onHsi_key {f : HsiBlock → HsiBlock} : (onHsi f s).key = s.key := rfl
@[simp] theorem onHsi_upd {f : HsiBlock → HsiBlock} : (onHsi f s).upd = s.upd := rfl
@[simp] theorem onHsi_sys {f : HsiBlock → HsiBlock} : (onHsi f s).sys = s.sys := rfl
@[simp] theorem onHsi_mgt {f : HsiBlock → HsiBlock} : (onHsi f s).mgt = s.mgt := rfl
@[simp] theorem onHsi_hsi {f : HsiBlock → HsiBlock} : (onHsi f s).hsi = f s.hsi := rfl
@[simp] theorem onHsi_can {f : HsiBlock → HsiBlock} : (onHsi f s).can = s.can := rfl
@[simp] theorem onHsi_sram {f : HsiBlock → HsiBlock} : (onHsi f s).sram = s.sram := rfl
@[simp] theorem onHsi_ticks {f : HsiBlock → HsiBlock} : (onHsi f s).ticks = s.ticks := rfl
@[simp] theorem onHsi_freeCtr {f : HsiBlock → HsiBlock} : (onHsi f s).freeCtr = s.freeCtr := rfl
@[simp] theorem onHsi_result {f : HsiBlock → HsiBlock} : (onHsi f s).result = s.result := rfl
@[simp] theorem onHsi_rdata {f : HsiBlock → HsiBlock} : (onHsi f s).rdata = s.rdata := rfl
@[simp] theorem onHsi_pending {f : HsiBlock → HsiBlock} : (onHsi f s).pending = s.pending := rfl

/-! ## onLink -/

@[simp] theorem onLink_ident {o : Nat} {f : Link → Link} : (onLink o f s).ident = s.ident := rfl
@[simp] theorem onLink_str {o : Nat} {f : Link → Link} : (onLink o f s).str = s.str := rfl
@[simp] theorem onLink_lane {o : Nat} {f : Link → Link} : (onLink o f s).lane = s.lane := rfl
@[simp] theorem onLink_met {o : Nat} {f : Link → Link} : (onLink o f s).met = s.met := rfl
@[simp] theorem onLink_bil {o : Nat} {f : Link → Link} : (onLink o f s).bil = s.bil := rfl
@[simp] theorem onLink_pwr {o : Nat} {f : Link → Link} : (onLink o f s).pwr = s.pwr := rfl
@[simp] theorem onLink_flt {o : Nat} {f : Link → Link} : (onLink o f s).flt = s.flt := rfl
@[simp] theorem onLink_owl {o : Nat} {f : Link → Link} : (onLink o f s).owl = s.owl := rfl
@[simp] theorem onLink_vlk {o : Nat} {f : Link → Link} : (onLink o f s).vlk = upd s.vlk o f := rfl
@[simp] theorem onLink_glk {o : Nat} {f : Link → Link} : (onLink o f s).glk = s.glk := rfl
@[simp] theorem onLink_eth {o : Nat} {f : Link → Link} : (onLink o f s).eth = s.eth := rfl
@[simp] theorem onLink_tim {o : Nat} {f : Link → Link} : (onLink o f s).tim = s.tim := rfl
@[simp] theorem onLink_tag {o : Nat} {f : Link → Link} : (onLink o f s).tag = s.tag := rfl
@[simp] theorem onLink_epd {o : Nat} {f : Link → Link} : (onLink o f s).epd = s.epd := rfl
@[simp] theorem onLink_key {o : Nat} {f : Link → Link} : (onLink o f s).key = s.key := rfl
@[simp] theorem onLink_upd {o : Nat} {f : Link → Link} : (onLink o f s).upd = s.upd := rfl
@[simp] theorem onLink_sys {o : Nat} {f : Link → Link} : (onLink o f s).sys = s.sys := rfl
@[simp] theorem onLink_mgt {o : Nat} {f : Link → Link} : (onLink o f s).mgt = s.mgt := rfl
@[simp] theorem onLink_hsi {o : Nat} {f : Link → Link} : (onLink o f s).hsi = s.hsi := rfl
@[simp] theorem onLink_can {o : Nat} {f : Link → Link} : (onLink o f s).can = s.can := rfl
@[simp] theorem onLink_sram {o : Nat} {f : Link → Link} : (onLink o f s).sram = s.sram := rfl
@[simp] theorem onLink_ticks {o : Nat} {f : Link → Link} : (onLink o f s).ticks = s.ticks := rfl
@[simp] theorem onLink_freeCtr {o : Nat} {f : Link → Link} : (onLink o f s).freeCtr = s.freeCtr := rfl
@[simp] theorem onLink_result {o : Nat} {f : Link → Link} : (onLink o f s).result = s.result := rfl
@[simp] theorem onLink_rdata {o : Nat} {f : Link → Link} : (onLink o f s).rdata = s.rdata := rfl
@[simp] theorem onLink_pending {o : Nat} {f : Link → Link} : (onLink o f s).pending = s.pending := rfl

/-! ## onCan -/

@[simp] theorem onCan_ident {o : Nat} {f : Can → Can} : (onCan o f s).ident = s.ident := rfl
@[simp] theorem onCan_str {o : Nat} {f : Can → Can} : (onCan o f s).str = s.str := rfl
@[simp] theorem onCan_lane {o : Nat} {f : Can → Can} : (onCan o f s).lane = s.lane := rfl
@[simp] theorem onCan_met {o : Nat} {f : Can → Can} : (onCan o f s).met = s.met := rfl
@[simp] theorem onCan_bil {o : Nat} {f : Can → Can} : (onCan o f s).bil = s.bil := rfl
@[simp] theorem onCan_pwr {o : Nat} {f : Can → Can} : (onCan o f s).pwr = s.pwr := rfl
@[simp] theorem onCan_flt {o : Nat} {f : Can → Can} : (onCan o f s).flt = s.flt := rfl
@[simp] theorem onCan_owl {o : Nat} {f : Can → Can} : (onCan o f s).owl = s.owl := rfl
@[simp] theorem onCan_vlk {o : Nat} {f : Can → Can} : (onCan o f s).vlk = s.vlk := rfl
@[simp] theorem onCan_glk {o : Nat} {f : Can → Can} : (onCan o f s).glk = s.glk := rfl
@[simp] theorem onCan_eth {o : Nat} {f : Can → Can} : (onCan o f s).eth = s.eth := rfl
@[simp] theorem onCan_tim {o : Nat} {f : Can → Can} : (onCan o f s).tim = s.tim := rfl
@[simp] theorem onCan_tag {o : Nat} {f : Can → Can} : (onCan o f s).tag = s.tag := rfl
@[simp] theorem onCan_epd {o : Nat} {f : Can → Can} : (onCan o f s).epd = s.epd := rfl
@[simp] theorem onCan_key {o : Nat} {f : Can → Can} : (onCan o f s).key = s.key := rfl
@[simp] theorem onCan_upd {o : Nat} {f : Can → Can} : (onCan o f s).upd = s.upd := rfl
@[simp] theorem onCan_sys {o : Nat} {f : Can → Can} : (onCan o f s).sys = s.sys := rfl
@[simp] theorem onCan_mgt {o : Nat} {f : Can → Can} : (onCan o f s).mgt = s.mgt := rfl
@[simp] theorem onCan_hsi {o : Nat} {f : Can → Can} : (onCan o f s).hsi = s.hsi := rfl
@[simp] theorem onCan_can {o : Nat} {f : Can → Can} : (onCan o f s).can = upd s.can o f := rfl
@[simp] theorem onCan_sram {o : Nat} {f : Can → Can} : (onCan o f s).sram = s.sram := rfl
@[simp] theorem onCan_ticks {o : Nat} {f : Can → Can} : (onCan o f s).ticks = s.ticks := rfl
@[simp] theorem onCan_freeCtr {o : Nat} {f : Can → Can} : (onCan o f s).freeCtr = s.freeCtr := rfl
@[simp] theorem onCan_result {o : Nat} {f : Can → Can} : (onCan o f s).result = s.result := rfl
@[simp] theorem onCan_rdata {o : Nat} {f : Can → Can} : (onCan o f s).rdata = s.rdata := rfl
@[simp] theorem onCan_pending {o : Nat} {f : Can → Can} : (onCan o f s).pending = s.pending := rfl

/-! ## onLane -/

@[simp] theorem onLane_ident {o : Nat} {f : Lane → Lane} : (onLane o f s).ident = s.ident := rfl
@[simp] theorem onLane_str {o : Nat} {f : Lane → Lane} : (onLane o f s).str = s.str := rfl
@[simp] theorem onLane_met {o : Nat} {f : Lane → Lane} : (onLane o f s).met = s.met := rfl
@[simp] theorem onLane_bil {o : Nat} {f : Lane → Lane} : (onLane o f s).bil = s.bil := rfl
@[simp] theorem onLane_pwr {o : Nat} {f : Lane → Lane} : (onLane o f s).pwr = s.pwr := rfl
@[simp] theorem onLane_flt {o : Nat} {f : Lane → Lane} : (onLane o f s).flt = s.flt := rfl
@[simp] theorem onLane_owl {o : Nat} {f : Lane → Lane} : (onLane o f s).owl = s.owl := rfl
@[simp] theorem onLane_vlk {o : Nat} {f : Lane → Lane} : (onLane o f s).vlk = s.vlk := rfl
@[simp] theorem onLane_glk {o : Nat} {f : Lane → Lane} : (onLane o f s).glk = s.glk := rfl
@[simp] theorem onLane_eth {o : Nat} {f : Lane → Lane} : (onLane o f s).eth = s.eth := rfl
@[simp] theorem onLane_tim {o : Nat} {f : Lane → Lane} : (onLane o f s).tim = s.tim := rfl
@[simp] theorem onLane_tag {o : Nat} {f : Lane → Lane} : (onLane o f s).tag = s.tag := rfl
@[simp] theorem onLane_epd {o : Nat} {f : Lane → Lane} : (onLane o f s).epd = s.epd := rfl
@[simp] theorem onLane_key {o : Nat} {f : Lane → Lane} : (onLane o f s).key = s.key := rfl
@[simp] theorem onLane_upd {o : Nat} {f : Lane → Lane} : (onLane o f s).upd = s.upd := rfl
@[simp] theorem onLane_sys {o : Nat} {f : Lane → Lane} : (onLane o f s).sys = s.sys := rfl
@[simp] theorem onLane_mgt {o : Nat} {f : Lane → Lane} : (onLane o f s).mgt = s.mgt := rfl
@[simp] theorem onLane_hsi {o : Nat} {f : Lane → Lane} : (onLane o f s).hsi = s.hsi := rfl
@[simp] theorem onLane_can {o : Nat} {f : Lane → Lane} : (onLane o f s).can = s.can := rfl
@[simp] theorem onLane_sram {o : Nat} {f : Lane → Lane} : (onLane o f s).sram = s.sram := rfl
@[simp] theorem onLane_ticks {o : Nat} {f : Lane → Lane} : (onLane o f s).ticks = s.ticks := rfl
@[simp] theorem onLane_freeCtr {o : Nat} {f : Lane → Lane} : (onLane o f s).freeCtr = s.freeCtr := rfl
@[simp] theorem onLane_result {o : Nat} {f : Lane → Lane} : (onLane o f s).result = s.result := rfl
@[simp] theorem onLane_rdata {o : Nat} {f : Lane → Lane} : (onLane o f s).rdata = s.rdata := rfl
@[simp] theorem onLane_pending {o : Nat} {f : Lane → Lane} : (onLane o f s).pending = s.pending := rfl

/-! ## onMetOut -/

@[simp] theorem onMetOut_ident {o : Nat} {f : MetOutlet → MetOutlet} : (onMetOut o f s).ident = s.ident := rfl
@[simp] theorem onMetOut_str {o : Nat} {f : MetOutlet → MetOutlet} : (onMetOut o f s).str = s.str := rfl
@[simp] theorem onMetOut_lane {o : Nat} {f : MetOutlet → MetOutlet} : (onMetOut o f s).lane = s.lane := rfl
@[simp] theorem onMetOut_bil {o : Nat} {f : MetOutlet → MetOutlet} : (onMetOut o f s).bil = s.bil := rfl
@[simp] theorem onMetOut_pwr {o : Nat} {f : MetOutlet → MetOutlet} : (onMetOut o f s).pwr = s.pwr := rfl
@[simp] theorem onMetOut_flt {o : Nat} {f : MetOutlet → MetOutlet} : (onMetOut o f s).flt = s.flt := rfl
@[simp] theorem onMetOut_owl {o : Nat} {f : MetOutlet → MetOutlet} : (onMetOut o f s).owl = s.owl := rfl
@[simp] theorem onMetOut_vlk {o : Nat} {f : MetOutlet → MetOutlet} : (onMetOut o f s).vlk = s.vlk := rfl
@[simp] theorem onMetOut_glk {o : Nat} {f : MetOutlet → MetOutlet} : (onMetOut o f s).glk = s.glk := rfl
@[simp] theorem onMetOut_eth {o : Nat} {f : MetOutlet → MetOutlet} : (onMetOut o f s).eth = s.eth := rfl
@[simp] theorem onMetOut_tim {o : Nat} {f : MetOutlet → MetOutlet} : (onMetOut o f s).tim = s.tim := rfl
@[simp] theorem onMetOut_tag {o : Nat} {f : MetOutlet → MetOutlet} : (onMetOut o f s).tag = s.tag := rfl
@[simp] theorem onMetOut_epd {o : Nat} {f : MetOutlet → MetOutlet} : (onMetOut o f s).epd = s.epd := rfl
@[simp] theorem onMetOut_key {o : Nat} {f : MetOutlet → MetOutlet} : (onMetOut o f s).key = s.key := rfl
@[simp] theorem onMetOut_upd {o : Nat} {f : MetOutlet → MetOutlet} : (onMetOut o f s).upd = s.upd := rfl
@[simp] theorem onMetOut_sys {o : Nat} {f : MetOutlet → MetOutlet} : (onMetOut o f s).sys = s.sys := rfl
@[simp] theorem onMetOut_mgt {o : Nat} {f : MetOutlet → MetOutlet} : (onMetOut o f s).mgt = s.mgt := rfl
@[simp] theorem onMetOut_hsi {o : Nat} {f : MetOutlet → MetOutlet} : (onMetOut o f s).hsi = s.hsi := rfl
@[simp] theorem onMetOut_can {o : Nat} {f : MetOutlet → MetOutlet} : (onMetOut o f s).can = s.can := rfl
@[simp] theorem onMetOut_sram {o : Nat} {f : MetOutlet → MetOutlet} : (onMetOut o f s).sram = s.sram := rfl
@[simp] theorem onMetOut_ticks {o : Nat} {f : MetOutlet → MetOutlet} : (onMetOut o f s).ticks = s.ticks := rfl
@[simp] theorem onMetOut_freeCtr {o : Nat} {f : MetOutlet → MetOutlet} : (onMetOut o f s).freeCtr = s.freeCtr := rfl
@[simp] theorem onMetOut_result {o : Nat} {f : MetOutlet → MetOutlet} : (onMetOut o f s).result = s.result := rfl
@[simp] theorem onMetOut_rdata {o : Nat} {f : MetOutlet → MetOutlet} : (onMetOut o f s).rdata = s.rdata := rfl
@[simp] theorem onMetOut_pending {o : Nat} {f : MetOutlet → MetOutlet} : (onMetOut o f s).pending = s.pending := rfl

/-! ## onBilOut -/

@[simp] theorem onBilOut_ident {o : Nat} {f : BilOutlet → BilOutlet} : (onBilOut o f s).ident = s.ident := rfl
@[simp] theorem onBilOut_str {o : Nat} {f : BilOutlet → BilOutlet} : (onBilOut o f s).str = s.str := rfl
@[simp] theorem onBilOut_lane {o : Nat} {f : BilOutlet → BilOutlet} : (onBilOut o f s).lane = s.lane := rfl
@[simp] theorem onBilOut_met {o : Nat} {f : BilOutlet → BilOutlet} : (onBilOut o f s).met = s.met := rfl
@[simp] theorem onBilOut_pwr {o : Nat} {f : BilOutlet → BilOutlet} : (onBilOut o f s).pwr = s.pwr := rfl
@[simp] theorem onBilOut_flt {o : Nat} {f : BilOutlet → BilOutlet} : (onBilOut o f s).flt = s.flt := rfl
@[simp] theorem onBilOut_owl {o : Nat} {f : BilOutlet → BilOutlet} : (onBilOut o f s).owl = s.owl := rfl
@[simp] theorem onBilOut_vlk {o : Nat} {f : BilOutlet → BilOutlet} : (onBilOut o f s).vlk = s.vlk := rfl
@[simp] theorem onBilOut_glk {o : Nat} {f : BilOutlet → BilOutlet} : (onBilOut o f s).glk = s.glk := rfl
@[simp] theorem onBilOut_eth {o : Nat} {f : BilOutlet → BilOutlet} : (onBilOut o f s).eth = s.eth := rfl
@[simp] theorem onBilOut_tim {o : Nat} {f : BilOutlet → BilOutlet} : (onBilOut o f s).tim = s.tim := rfl
@[simp] theorem onBilOut_tag {o : Nat} {f : BilOutlet → BilOutlet} : (onBilOut o f s).tag = s.tag := rfl
@[simp] theorem onBilOut_epd {o : Nat} {f : BilOutlet → BilOutlet} : (onBilOut o f s).epd = s.epd := rfl
@[simp] theorem onBilOut_key {o : Nat} {f : BilOutlet → BilOutlet} : (onBilOut o f s).key = s.key := rfl
@[simp] theorem onBilOut_upd {o : Nat} {f : BilOutlet → BilOutlet} : (onBilOut o f s).upd = s.upd := rfl
@[simp] theorem onBilOut_sys {o : Nat} {f : BilOutlet → BilOutlet} : (onBilOut o f s).sys = s.sys := rfl
@[simp] theorem onBilOut_mgt {o : Nat} {f : BilOutlet → BilOutlet} : (onBilOut o f s).mgt = s.mgt := rfl
@[simp] theorem onBilOut_hsi {o : Nat} {f : BilOutlet → BilOutlet} : (onBilOut o f s).hsi = s.hsi := rfl
@[simp] theorem onBilOut_can {o : Nat} {f : BilOutlet → BilOutlet} : (onBilOut o f s).can = s.can := rfl
@[simp] theorem onBilOut_sram {o : Nat} {f : BilOutlet → BilOutlet} : (onBilOut o f s).sram = s.sram := rfl
@[simp] theorem onBilOut_ticks {o : Nat} {f : BilOutlet → BilOutlet} : (onBilOut o f s).ticks = s.ticks := rfl
@[simp] theorem onBilOut_freeCtr {o : Nat} {f : BilOutlet → BilOutlet} : (onBilOut o f s).freeCtr = s.freeCtr := rfl
@[simp] theorem onBilOut_result {o : Nat} {f : BilOutlet → BilOutlet} : (onBilOut o f s).result = s.result := rfl
@[simp] theorem onBilOut_rdata {o : Nat} {f : BilOutlet → BilOutlet} : (onBilOut o f s).rdata = s.rdata := rfl
@[simp] theorem onBilOut_pending {o : Nat} {f : BilOutlet → BilOutlet} : (onBilOut o f s).pending = s.pending := rfl

/-! ## onCh -/

@[simp] theorem onCh_ident {o : Nat} {f : Channel → Channel} : (onCh o f s).ident = s.ident := rfl
@[simp] theorem onCh_str {o : Nat} {f : Channel → Channel} : (onCh o f s).str = s.str := rfl
@[simp] theorem onCh_lane {o : Nat} {f : Channel → Channel} : (onCh o f s).lane = s.lane := rfl
@[simp] theorem onCh_met {o : Nat} {f : Channel → Channel} : (onCh o f s).met = s.met := rfl
@[simp] theorem onCh_bil {o : Nat} {f : Channel → Channel} : (onCh o f s).bil = s.bil := rfl
@[simp] theorem onCh_flt {o : Nat} {f : Channel → Channel} : (onCh o f s).flt = s.flt := rfl
@[simp] theorem onCh_owl {o : Nat} {f : Channel → Channel} : (onCh o f s).owl = s.owl := rfl
@[simp] theorem onCh_vlk {o : Nat} {f : Channel → Channel} : (onCh o f s).vlk = s.vlk := rfl
@[simp] theorem onCh_glk {o : Nat} {f : Channel → Channel} : (onCh o f s).glk = s.glk := rfl
@[simp] theorem onCh_eth {o : Nat} {f : Channel → Channel} : (onCh o f s).eth = s.eth := rfl
@[simp] theorem onCh_tim {o : Nat} {f : Channel → Channel} : (onCh o f s).tim = s.tim := rfl
@[simp] theorem onCh_tag {o : Nat} {f : Channel → Channel} : (onCh o f s).tag = s.tag := rfl
@[simp] theorem onCh_epd {o : Nat} {f : Channel → Channel} : (onCh o f s).epd = s.epd := rfl
@[simp] theorem onCh_key {o : Nat} {f : Channel → Channel} : (onCh o f s).key = s.key := rfl
@[simp] theorem onCh_upd {o : Nat} {f : Channel → Channel} : (onCh o f s).upd = s.upd := rfl
@[simp] theorem onCh_sys {o : Nat} {f : Channel → Channel} : (onCh o f s).sys = s.sys := rfl
@[simp] theorem onCh_mgt {o : Nat} {f : Channel → Channel} : (onCh o f s).mgt = s.mgt := rfl
@[simp] theorem onCh_hsi {o : Nat} {f : Channel → Channel} : (onCh o f s).hsi = s.hsi := rfl
@[simp] theorem onCh_can {o : Nat} {f : Channel → Channel} : (onCh o f s).can = s.can := rfl
@[simp] theorem onCh_sram {o : Nat} {f : Channel → Channel} : (onCh o f s).sram = s.sram := rfl
@[simp] theorem onCh_ticks {o : Nat} {f : Channel → Channel} : (onCh o f s).ticks = s.ticks := rfl
@[simp] theorem onCh_freeCtr {o : Nat} {f : Channel → Channel} : (onCh o f s).freeCtr = s.freeCtr := rfl
@[simp] theorem onCh_result {o : Nat} {f : Channel → Channel} : (onCh o f s).result = s.result := rfl
@[simp] theorem onCh_rdata {o : Nat} {f : Channel → Channel} : (onCh o f s).rdata = s.rdata := rfl
@[simp] theorem onCh_pending {o : Nat} {f : Channel → Channel} : (onCh o f s).pending = s.pending := rfl

/-! ## onLock -/

@[simp] theorem onLock_ident {o : Nat} {f : Lock → Lock} : (onLock o f s).ident = s.ident := rfl
@[simp] theorem onLock_str {o : Nat} {f : Lock → Lock} : (onLock o f s).str = s.str := rfl
@[simp] theorem onLock_lane {o : Nat} {f : Lock → Lock} : (onLock o f s).lane = s.lane := rfl
@[simp] theorem onLock_met {o : Nat} {f : Lock → Lock} : (onLock o f s).met = s.met := rfl
@[simp] theorem onLock_bil {o : Nat} {f : Lock → Lock} : (onLock o f s).bil = s.bil := rfl
@[simp] theorem onLock_flt {o : Nat} {f : Lock → Lock} : (onLock o f s).flt = s.flt := rfl
@[simp] theorem onLock_owl {o : Nat} {f : Lock → Lock} : (onLock o f s).owl = s.owl := rfl
@[simp] theorem onLock_vlk {o : Nat} {f : Lock → Lock} : (onLock o f s).vlk = s.vlk := rfl
@[simp] theorem onLock_glk {o : Nat} {f : Lock → Lock} : (onLock o f s).glk = s.glk := rfl
@[simp] theorem onLock_eth {o : Nat} {f : Lock → Lock} : (onLock o f s).eth = s.eth := rfl
@[simp] theorem onLock_tim {o : Nat} {f : Lock → Lock} : (onLock o f s).tim = s.tim := rfl
@[simp] theorem onLock_tag {o : Nat} {f : Lock → Lock} : (onLock o f s).tag = s.tag := rfl
@[simp] theorem onLock_epd {o : Nat} {f : Lock → Lock} : (onLock o f s).epd = s.epd := rfl
@[simp] theorem onLock_key {o : Nat} {f : Lock → Lock} : (onLock o f s).key = s.key := rfl
@[simp] theorem onLock_upd {o : Nat} {f : Lock → Lock} : (onLock o f s).upd = s.upd := rfl
@[simp] theorem onLock_sys {o : Nat} {f : Lock → Lock} : (onLock o f s).sys = s.sys := rfl
@[simp] theorem onLock_mgt {o : Nat} {f : Lock → Lock} : (onLock o f s).mgt = s.mgt := rfl
@[simp] theorem onLock_hsi {o : Nat} {f : Lock → Lock} : (onLock o f s).hsi = s.hsi := rfl
@[simp] theorem onLock_can {o : Nat} {f : Lock → Lock} : (onLock o f s).can = s.can := rfl
@[simp] theorem onLock_sram {o : Nat} {f : Lock → Lock} : (onLock o f s).sram = s.sram := rfl
@[simp] theorem onLock_ticks {o : Nat} {f : Lock → Lock} : (onLock o f s).ticks = s.ticks := rfl
@[simp] theorem onLock_freeCtr {o : Nat} {f : Lock → Lock} : (onLock o f s).freeCtr = s.freeCtr := rfl
@[simp] theorem onLock_result {o : Nat} {f : Lock → Lock} : (onLock o f s).result = s.result := rfl
@[simp] theorem onLock_rdata {o : Nat} {f : Lock → Lock} : (onLock o f s).rdata = s.rdata := rfl
@[simp] theorem onLock_pending {o : Nat} {f : Lock → Lock} : (onLock o f s).pending = s.pending := rfl

/-! ## onDom -/

@[simp] theorem onDom_ident {o : Nat} {f : Domain → Domain} : (onDom o f s).ident = s.ident := rfl
@[simp] theorem onDom_str {o : Nat} {f : Domain → Domain} : (onDom o f s).str = s.str := rfl
@[simp] theorem onDom_lane {o : Nat} {f : Domain → Domain} : (onDom o f s).lane = s.lane := rfl
@[simp] theorem onDom_met {o : Nat} {f : Domain → Domain} : (onDom o f s).met = s.met := rfl
@[simp] theorem onDom_bil {o : Nat} {f : Domain → Domain} : (onDom o f s).bil = s.bil := rfl
@[simp] theorem onDom_pwr {o : Nat} {f : Domain → Domain} : (onDom o f s).pwr = s.pwr := rfl
@[simp] theorem onDom_flt {o : Nat} {f : Domain → Domain} : (onDom o f s).flt = s.flt := rfl
@[simp] theorem onDom_owl {o : Nat} {f : Domain → Domain} : (onDom o f s).owl = s.owl := rfl
@[simp] theorem onDom_vlk {o : Nat} {f : Domain → Domain} : (onDom o f s).vlk = s.vlk := rfl
@[simp] theorem onDom_glk {o : Nat} {f : Domain → Domain} : (onDom o f s).glk = s.glk := rfl
@[simp] theorem onDom_eth {o : Nat} {f : Domain → Domain} : (onDom o f s).eth = s.eth := rfl
@[simp] theorem onDom_tag {o : Nat} {f : Domain → Domain} : (onDom o f s).tag = s.tag := rfl
@[simp] theorem onDom_epd {o : Nat} {f : Domain → Domain} : (onDom o f s).epd = s.epd := rfl
@[simp] theorem onDom_key {o : Nat} {f : Domain → Domain} : (onDom o f s).key = s.key := rfl
@[simp] theorem onDom_upd {o : Nat} {f : Domain → Domain} : (onDom o f s).upd = s.upd := rfl
@[simp] theorem onDom_sys {o : Nat} {f : Domain → Domain} : (onDom o f s).sys = s.sys := rfl
@[simp] theorem onDom_mgt {o : Nat} {f : Domain → Domain} : (onDom o f s).mgt = s.mgt := rfl
@[simp] theorem onDom_hsi {o : Nat} {f : Domain → Domain} : (onDom o f s).hsi = s.hsi := rfl
@[simp] theorem onDom_can {o : Nat} {f : Domain → Domain} : (onDom o f s).can = s.can := rfl
@[simp] theorem onDom_sram {o : Nat} {f : Domain → Domain} : (onDom o f s).sram = s.sram := rfl
@[simp] theorem onDom_ticks {o : Nat} {f : Domain → Domain} : (onDom o f s).ticks = s.ticks := rfl
@[simp] theorem onDom_freeCtr {o : Nat} {f : Domain → Domain} : (onDom o f s).freeCtr = s.freeCtr := rfl
@[simp] theorem onDom_result {o : Nat} {f : Domain → Domain} : (onDom o f s).result = s.result := rfl
@[simp] theorem onDom_rdata {o : Nat} {f : Domain → Domain} : (onDom o f s).rdata = s.rdata := rfl
@[simp] theorem onDom_pending {o : Nat} {f : Domain → Domain} : (onDom o f s).pending = s.pending := rfl

end Sys2Proof.Machine
end

