-- ==== Sys2Proof/Laws/Read.lean ====
section
/-! SUPPORT. Reading one instance after an update, and what a logged event, a posted result and a notice leave. -/

namespace Sys2Proof.Machine

variable {s : State}

/-! ## One instance of a list -/

theorem upd_getD_self {α : Type} {l : List α} {n : Nat} {f : α → α} {d : α} (h : n < l.length) :
    (upd l n f).getD n d = f (l.getD n d) := by
  simp [upd, List.getD_eq_getElem?_getD, h]

theorem upd_getD_ne {α : Type} {l : List α} {n m : Nat} {f : α → α} {d : α} (h : m ≠ n) :
    (upd l n f).getD m d = l.getD m d := by
  simp [upd, List.getD_eq_getElem?_getD, Ne.symm h]

theorem put_getD_self {α : Type} {l : List α} {n : Nat} {x d : α} (h : n < l.length) : (put l n x).getD n d = x := by
  simp [put, List.getD_eq_getElem?_getD, h]

theorem put_getD_ne {α : Type} {l : List α} {n m : Nat} {x d : α} (h : m ≠ n) : (put l n x).getD m d = l.getD m d := by
  simp [put, List.getD_eq_getElem?_getD, Ne.symm h]

theorem laneOf_onLane_self {n : Nat} {f : Lane → Lane} (h : n < s.lane.lanes.length) : laneOf (onLane n f s) n = f (laneOf s n) := upd_getD_self h
theorem laneOf_onLane_ne {n m : Nat} {f : Lane → Lane} (h : m ≠ n) : laneOf (onLane n f s) m = laneOf s m := upd_getD_ne h

theorem metOutOf_onMetOut_self {n : Nat} {f : MetOutlet → MetOutlet} (h : n < s.met.outs.length) : metOutOf (onMetOut n f s) n = f (metOutOf s n) := upd_getD_self h
theorem metOutOf_onMetOut_ne {n m : Nat} {f : MetOutlet → MetOutlet} (h : m ≠ n) : metOutOf (onMetOut n f s) m = metOutOf s m := upd_getD_ne h

theorem bilOutOf_onBilOut_self {n : Nat} {f : BilOutlet → BilOutlet} (h : n < s.bil.outs.length) : bilOutOf (onBilOut n f s) n = f (bilOutOf s n) := upd_getD_self h
theorem bilOutOf_onBilOut_ne {n m : Nat} {f : BilOutlet → BilOutlet} (h : m ≠ n) : bilOutOf (onBilOut n f s) m = bilOutOf s m := upd_getD_ne h

theorem chOf_onCh_self {n : Nat} {f : Channel → Channel} (h : n < s.pwr.ch.length) : chOf (onCh n f s) n = f (chOf s n) := upd_getD_self h
theorem chOf_onCh_ne {n m : Nat} {f : Channel → Channel} (h : m ≠ n) : chOf (onCh n f s) m = chOf s m := upd_getD_ne h

theorem lockOf_onLock_self {n : Nat} {f : Lock → Lock} (h : n < s.pwr.locks.length) : lockOf (onLock n f s) n = f (lockOf s n) := upd_getD_self h
theorem lockOf_onLock_ne {n m : Nat} {f : Lock → Lock} (h : m ≠ n) : lockOf (onLock n f s) m = lockOf s m := upd_getD_ne h

theorem linkOf_onLink_self {n : Nat} {f : Link → Link} (h : n < s.vlk.length) : linkOf (onLink n f s) n = f (linkOf s n) := upd_getD_self h
theorem linkOf_onLink_ne {n m : Nat} {f : Link → Link} (h : m ≠ n) : linkOf (onLink n f s) m = linkOf s m := upd_getD_ne h

theorem canOf_onCan_self {n : Nat} {f : Can → Can} (h : n < s.can.length) : canOf (onCan n f s) n = f (canOf s n) := upd_getD_self h
theorem canOf_onCan_ne {n m : Nat} {f : Can → Can} (h : m ≠ n) : canOf (onCan n f s) m = canOf s m := upd_getD_ne h

theorem domOf_onDom_self {n : Nat} {f : Domain → Domain} (h : n < s.tim.dom.length) : domOf (onDom n f s) n = f (domOf s n) := upd_getD_self h
theorem domOf_onDom_ne {n m : Nat} {f : Domain → Domain} (h : m ≠ n) : domOf (onDom n f s) m = domOf s m := upd_getD_ne h

/-! ## A logged event -/

/-- Dormouse's block as it was, its record buffer too. -/
theorem same_sys_eq {w : List Part} {a t : State} (h : Same w a t) (hs : w.contains .sys = false)
    (hl : w.contains .log = false) : t.sys = a.sys := by
  have h1 := h.part hs
  have h2 := h.part hl
  simp only [samePart, Prod.mk.injEq] at h1 h2
  obtain ⟨h3, h4, -⟩ := h2
  calc t.sys = { { t.sys with retLog := [], retLost := false } with retLog := t.sys.retLog, retLost := t.sys.retLost } := rfl
    _ = { { a.sys with retLog := [], retLost := false } with retLog := t.sys.retLog, retLost := t.sys.retLost } := by rw [h1]
    _ = a.sys := by rw [h3, h4]

/-- Badger's block as it was, its record ring too. -/
theorem same_mgt_eq {w : List Part} {a t : State} (h : Same w a t) (hs : w.contains .mgt = false)
    (hl : w.contains .log = false) : t.mgt = a.mgt := by
  have h1 := h.part hs
  have h2 := h.part hl
  simp only [samePart, Prod.mk.injEq] at h1 h2
  obtain ⟨-, -, h3, h4, h5, h6⟩ := h2
  calc t.mgt = { { t.mgt with seq := 0, ring := [], waiting := 0, dropped := 0 } with
                   seq := t.mgt.seq, ring := t.mgt.ring, waiting := t.mgt.waiting, dropped := t.mgt.dropped } := rfl
    _ = { { a.mgt with seq := 0, ring := [], waiting := 0, dropped := 0 } with
            seq := t.mgt.seq, ring := t.mgt.ring, waiting := t.mgt.waiting, dropped := t.mgt.dropped } := by rw [h1]
    _ = a.mgt := by rw [h3, h4, h5, h6]


@[simp] theorem logEv_str {c : EvClass} {b i k : Nat} {d : List (Nat × Nat)} : (logEv c b i k d s).str = s.str :=
  (same_logEv c b i k d rfl (same_refl [.log] s)).part (q := .str) rfl
@[simp] theorem logEv_lane {c : EvClass} {b i k : Nat} {d : List (Nat × Nat)} : (logEv c b i k d s).lane = s.lane :=
  (same_logEv c b i k d rfl (same_refl [.log] s)).part (q := .lane) rfl
@[simp] theorem logEv_met {c : EvClass} {b i k : Nat} {d : List (Nat × Nat)} : (logEv c b i k d s).met = s.met :=
  (same_logEv c b i k d rfl (same_refl [.log] s)).part (q := .met) rfl
@[simp] theorem logEv_bil {c : EvClass} {b i k : Nat} {d : List (Nat × Nat)} : (logEv c b i k d s).bil = s.bil :=
  (same_logEv c b i k d rfl (same_refl [.log] s)).part (q := .bil) rfl
@[simp] theorem logEv_pwr {c : EvClass} {b i k : Nat} {d : List (Nat × Nat)} : (logEv c b i k d s).pwr = s.pwr :=
  (same_logEv c b i k d rfl (same_refl [.log] s)).part (q := .pwr) rfl
@[simp] theorem logEv_flt {c : EvClass} {b i k : Nat} {d : List (Nat × Nat)} : (logEv c b i k d s).flt = s.flt :=
  (same_logEv c b i k d rfl (same_refl [.log] s)).part (q := .flt) rfl
@[simp] theorem logEv_owl {c : EvClass} {b i k : Nat} {d : List (Nat × Nat)} : (logEv c b i k d s).owl = s.owl :=
  (same_logEv c b i k d rfl (same_refl [.log] s)).part (q := .owl) rfl
@[simp] theorem logEv_vlk {c : EvClass} {b i k : Nat} {d : List (Nat × Nat)} : (logEv c b i k d s).vlk = s.vlk :=
  (same_logEv c b i k d rfl (same_refl [.log] s)).part (q := .vlk) rfl
@[simp] theorem logEv_glk {c : EvClass} {b i k : Nat} {d : List (Nat × Nat)} : (logEv c b i k d s).glk = s.glk :=
  (same_logEv c b i k d rfl (same_refl [.log] s)).part (q := .glk) rfl
@[simp] theorem logEv_eth {c : EvClass} {b i k : Nat} {d : List (Nat × Nat)} : (logEv c b i k d s).eth = s.eth :=
  (same_logEv c b i k d rfl (same_refl [.log] s)).part (q := .eth) rfl
@[simp] theorem logEv_tim {c : EvClass} {b i k : Nat} {d : List (Nat × Nat)} : (logEv c b i k d s).tim = s.tim :=
  (same_logEv c b i k d rfl (same_refl [.log] s)).part (q := .tim) rfl
@[simp] theorem logEv_tag {c : EvClass} {b i k : Nat} {d : List (Nat × Nat)} : (logEv c b i k d s).tag = s.tag :=
  (same_logEv c b i k d rfl (same_refl [.log] s)).part (q := .tag) rfl
@[simp] theorem logEv_epd {c : EvClass} {b i k : Nat} {d : List (Nat × Nat)} : (logEv c b i k d s).epd = s.epd :=
  (same_logEv c b i k d rfl (same_refl [.log] s)).part (q := .epd) rfl
@[simp] theorem logEv_key {c : EvClass} {b i k : Nat} {d : List (Nat × Nat)} : (logEv c b i k d s).key = s.key :=
  (same_logEv c b i k d rfl (same_refl [.log] s)).part (q := .key) rfl
@[simp] theorem logEv_upd {c : EvClass} {b i k : Nat} {d : List (Nat × Nat)} : (logEv c b i k d s).upd = s.upd :=
  (same_logEv c b i k d rfl (same_refl [.log] s)).part (q := .upd) rfl
@[simp] theorem logEv_hsi {c : EvClass} {b i k : Nat} {d : List (Nat × Nat)} : (logEv c b i k d s).hsi = s.hsi :=
  (same_logEv c b i k d rfl (same_refl [.log] s)).part (q := .hsi) rfl
@[simp] theorem logEv_can {c : EvClass} {b i k : Nat} {d : List (Nat × Nat)} : (logEv c b i k d s).can = s.can :=
  (same_logEv c b i k d rfl (same_refl [.log] s)).part (q := .can) rfl
@[simp] theorem logEv_sram {c : EvClass} {b i k : Nat} {d : List (Nat × Nat)} : (logEv c b i k d s).sram = s.sram :=
  (same_logEv c b i k d rfl (same_refl [.log] s)).part (q := .sram) rfl
@[simp] theorem logEv_ticks {c : EvClass} {b i k : Nat} {d : List (Nat × Nat)} : (logEv c b i k d s).ticks = s.ticks :=
  (same_logEv c b i k d rfl (same_refl [.log] s)).part (q := .ticks) rfl
@[simp] theorem logEv_freeCtr {c : EvClass} {b i k : Nat} {d : List (Nat × Nat)} : (logEv c b i k d s).freeCtr = s.freeCtr :=
  (same_logEv c b i k d rfl (same_refl [.log] s)).part (q := .freeCtr) rfl
@[simp] theorem logEv_result {c : EvClass} {b i k : Nat} {d : List (Nat × Nat)} : (logEv c b i k d s).result = s.result :=
  (same_logEv c b i k d rfl (same_refl [.log] s)).part (q := .result) rfl
@[simp] theorem logEv_rdata {c : EvClass} {b i k : Nat} {d : List (Nat × Nat)} : (logEv c b i k d s).rdata = s.rdata :=
  (same_logEv c b i k d rfl (same_refl [.log] s)).part (q := .rdata) rfl
@[simp] theorem logEv_ident {c : EvClass} {b i k : Nat} {d : List (Nat × Nat)} : (logEv c b i k d s).ident = s.ident :=
  (kept_logEv c b i k d (kept_start (b := False) (s := s) False.elim)).2.1
@[simp] theorem logEv_pending {c : EvClass} {b i k : Nat} {d : List (Nat × Nat)} : (logEv c b i k d s).pending = s.pending :=
  (kept_logEv c b i k d (kept_start (b := False) (s := s) False.elim)).1

/-! ## A LEGAL event -/

@[simp] theorem legalEv_str {b i k : Nat} {d : List (Nat × Nat)} : (legalEv b i k d s).str = s.str :=
  (same_legalEv b i k d rfl (same_refl [.met] s)).part (q := .str) rfl
@[simp] theorem legalEv_lane {b i k : Nat} {d : List (Nat × Nat)} : (legalEv b i k d s).lane = s.lane :=
  (same_legalEv b i k d rfl (same_refl [.met] s)).part (q := .lane) rfl
@[simp] theorem legalEv_bil {b i k : Nat} {d : List (Nat × Nat)} : (legalEv b i k d s).bil = s.bil :=
  (same_legalEv b i k d rfl (same_refl [.met] s)).part (q := .bil) rfl
@[simp] theorem legalEv_pwr {b i k : Nat} {d : List (Nat × Nat)} : (legalEv b i k d s).pwr = s.pwr :=
  (same_legalEv b i k d rfl (same_refl [.met] s)).part (q := .pwr) rfl
@[simp] theorem legalEv_flt {b i k : Nat} {d : List (Nat × Nat)} : (legalEv b i k d s).flt = s.flt :=
  (same_legalEv b i k d rfl (same_refl [.met] s)).part (q := .flt) rfl
@[simp] theorem legalEv_owl {b i k : Nat} {d : List (Nat × Nat)} : (legalEv b i k d s).owl = s.owl :=
  (same_legalEv b i k d rfl (same_refl [.met] s)).part (q := .owl) rfl
@[simp] theorem legalEv_vlk {b i k : Nat} {d : List (Nat × Nat)} : (legalEv b i k d s).vlk = s.vlk :=
  (same_legalEv b i k d rfl (same_refl [.met] s)).part (q := .vlk) rfl
@[simp] theorem legalEv_glk {b i k : Nat} {d : List (Nat × Nat)} : (legalEv b i k d s).glk = s.glk :=
  (same_legalEv b i k d rfl (same_refl [.met] s)).part (q := .glk) rfl
@[simp] theorem legalEv_eth {b i k : Nat} {d : List (Nat × Nat)} : (legalEv b i k d s).eth = s.eth :=
  (same_legalEv b i k d rfl (same_refl [.met] s)).part (q := .eth) rfl
@[simp] theorem legalEv_tim {b i k : Nat} {d : List (Nat × Nat)} : (legalEv b i k d s).tim = s.tim :=
  (same_legalEv b i k d rfl (same_refl [.met] s)).part (q := .tim) rfl
@[simp] theorem legalEv_tag {b i k : Nat} {d : List (Nat × Nat)} : (legalEv b i k d s).tag = s.tag :=
  (same_legalEv b i k d rfl (same_refl [.met] s)).part (q := .tag) rfl
@[simp] theorem legalEv_epd {b i k : Nat} {d : List (Nat × Nat)} : (legalEv b i k d s).epd = s.epd :=
  (same_legalEv b i k d rfl (same_refl [.met] s)).part (q := .epd) rfl
@[simp] theorem legalEv_key {b i k : Nat} {d : List (Nat × Nat)} : (legalEv b i k d s).key = s.key :=
  (same_legalEv b i k d rfl (same_refl [.met] s)).part (q := .key) rfl
@[simp] theorem legalEv_upd {b i k : Nat} {d : List (Nat × Nat)} : (legalEv b i k d s).upd = s.upd :=
  (same_legalEv b i k d rfl (same_refl [.met] s)).part (q := .upd) rfl
@[simp] theorem legalEv_sys {b i k : Nat} {d : List (Nat × Nat)} : (legalEv b i k d s).sys = s.sys :=
  same_sys_eq (same_legalEv b i k d rfl (same_refl [.met] s)) rfl rfl
@[simp] theorem legalEv_mgt {b i k : Nat} {d : List (Nat × Nat)} : (legalEv b i k d s).mgt = s.mgt :=
  same_mgt_eq (same_legalEv b i k d rfl (same_refl [.met] s)) rfl rfl
@[simp] theorem legalEv_hsi {b i k : Nat} {d : List (Nat × Nat)} : (legalEv b i k d s).hsi = s.hsi :=
  (same_legalEv b i k d rfl (same_refl [.met] s)).part (q := .hsi) rfl
@[simp] theorem legalEv_can {b i k : Nat} {d : List (Nat × Nat)} : (legalEv b i k d s).can = s.can :=
  (same_legalEv b i k d rfl (same_refl [.met] s)).part (q := .can) rfl
@[simp] theorem legalEv_sram {b i k : Nat} {d : List (Nat × Nat)} : (legalEv b i k d s).sram = s.sram :=
  (same_legalEv b i k d rfl (same_refl [.met] s)).part (q := .sram) rfl
@[simp] theorem legalEv_ticks {b i k : Nat} {d : List (Nat × Nat)} : (legalEv b i k d s).ticks = s.ticks :=
  (same_legalEv b i k d rfl (same_refl [.met] s)).part (q := .ticks) rfl
@[simp] theorem legalEv_freeCtr {b i k : Nat} {d : List (Nat × Nat)} : (legalEv b i k d s).freeCtr = s.freeCtr :=
  (same_legalEv b i k d rfl (same_refl [.met] s)).part (q := .freeCtr) rfl
@[simp] theorem legalEv_result {b i k : Nat} {d : List (Nat × Nat)} : (legalEv b i k d s).result = s.result :=
  (same_legalEv b i k d rfl (same_refl [.met] s)).part (q := .result) rfl
@[simp] theorem legalEv_rdata {b i k : Nat} {d : List (Nat × Nat)} : (legalEv b i k d s).rdata = s.rdata :=
  (same_legalEv b i k d rfl (same_refl [.met] s)).part (q := .rdata) rfl
@[simp] theorem legalEv_ident {b i k : Nat} {d : List (Nat × Nat)} : (legalEv b i k d s).ident = s.ident :=
  (kept_legalEv b i k d (kept_start (b := False) (s := s) False.elim)).2.1
@[simp] theorem legalEv_pending {b i k : Nat} {d : List (Nat × Nat)} : (legalEv b i k d s).pending = s.pending :=
  (kept_legalEv b i k d (kept_start (b := False) (s := s) False.elim)).1

/-! ## A posted result -/

@[simp] theorem post_str {r : Req} {sts detail : Nat} {bs : Bytes} : (post r sts detail bs s).str = s.str :=
  (same_post r sts detail bs rfl (same_refl [.hsi, .result] s)).part (q := .str) rfl
@[simp] theorem post_lane {r : Req} {sts detail : Nat} {bs : Bytes} : (post r sts detail bs s).lane = s.lane :=
  (same_post r sts detail bs rfl (same_refl [.hsi, .result] s)).part (q := .lane) rfl
@[simp] theorem post_met {r : Req} {sts detail : Nat} {bs : Bytes} : (post r sts detail bs s).met = s.met :=
  (same_post r sts detail bs rfl (same_refl [.hsi, .result] s)).part (q := .met) rfl
@[simp] theorem post_bil {r : Req} {sts detail : Nat} {bs : Bytes} : (post r sts detail bs s).bil = s.bil :=
  (same_post r sts detail bs rfl (same_refl [.hsi, .result] s)).part (q := .bil) rfl
@[simp] theorem post_pwr {r : Req} {sts detail : Nat} {bs : Bytes} : (post r sts detail bs s).pwr = s.pwr :=
  (same_post r sts detail bs rfl (same_refl [.hsi, .result] s)).part (q := .pwr) rfl
@[simp] theorem post_flt {r : Req} {sts detail : Nat} {bs : Bytes} : (post r sts detail bs s).flt = s.flt :=
  (same_post r sts detail bs rfl (same_refl [.hsi, .result] s)).part (q := .flt) rfl
@[simp] theorem post_owl {r : Req} {sts detail : Nat} {bs : Bytes} : (post r sts detail bs s).owl = s.owl :=
  (same_post r sts detail bs rfl (same_refl [.hsi, .result] s)).part (q := .owl) rfl
@[simp] theorem post_vlk {r : Req} {sts detail : Nat} {bs : Bytes} : (post r sts detail bs s).vlk = s.vlk :=
  (same_post r sts detail bs rfl (same_refl [.hsi, .result] s)).part (q := .vlk) rfl
@[simp] theorem post_glk {r : Req} {sts detail : Nat} {bs : Bytes} : (post r sts detail bs s).glk = s.glk :=
  (same_post r sts detail bs rfl (same_refl [.hsi, .result] s)).part (q := .glk) rfl
@[simp] theorem post_eth {r : Req} {sts detail : Nat} {bs : Bytes} : (post r sts detail bs s).eth = s.eth :=
  (same_post r sts detail bs rfl (same_refl [.hsi, .result] s)).part (q := .eth) rfl
@[simp] theorem post_tim {r : Req} {sts detail : Nat} {bs : Bytes} : (post r sts detail bs s).tim = s.tim :=
  (same_post r sts detail bs rfl (same_refl [.hsi, .result] s)).part (q := .tim) rfl
@[simp] theorem post_tag {r : Req} {sts detail : Nat} {bs : Bytes} : (post r sts detail bs s).tag = s.tag :=
  (same_post r sts detail bs rfl (same_refl [.hsi, .result] s)).part (q := .tag) rfl
@[simp] theorem post_epd {r : Req} {sts detail : Nat} {bs : Bytes} : (post r sts detail bs s).epd = s.epd :=
  (same_post r sts detail bs rfl (same_refl [.hsi, .result] s)).part (q := .epd) rfl
@[simp] theorem post_key {r : Req} {sts detail : Nat} {bs : Bytes} : (post r sts detail bs s).key = s.key :=
  (same_post r sts detail bs rfl (same_refl [.hsi, .result] s)).part (q := .key) rfl
@[simp] theorem post_upd {r : Req} {sts detail : Nat} {bs : Bytes} : (post r sts detail bs s).upd = s.upd :=
  (same_post r sts detail bs rfl (same_refl [.hsi, .result] s)).part (q := .upd) rfl
@[simp] theorem post_sys {r : Req} {sts detail : Nat} {bs : Bytes} : (post r sts detail bs s).sys = s.sys :=
  same_sys_eq (same_post r sts detail bs rfl (same_refl [.hsi, .result] s)) rfl rfl
@[simp] theorem post_mgt {r : Req} {sts detail : Nat} {bs : Bytes} : (post r sts detail bs s).mgt = s.mgt :=
  same_mgt_eq (same_post r sts detail bs rfl (same_refl [.hsi, .result] s)) rfl rfl
@[simp] theorem post_can {r : Req} {sts detail : Nat} {bs : Bytes} : (post r sts detail bs s).can = s.can :=
  (same_post r sts detail bs rfl (same_refl [.hsi, .result] s)).part (q := .can) rfl
@[simp] theorem post_sram {r : Req} {sts detail : Nat} {bs : Bytes} : (post r sts detail bs s).sram = s.sram :=
  (same_post r sts detail bs rfl (same_refl [.hsi, .result] s)).part (q := .sram) rfl
@[simp] theorem post_ticks {r : Req} {sts detail : Nat} {bs : Bytes} : (post r sts detail bs s).ticks = s.ticks :=
  (same_post r sts detail bs rfl (same_refl [.hsi, .result] s)).part (q := .ticks) rfl
@[simp] theorem post_freeCtr {r : Req} {sts detail : Nat} {bs : Bytes} : (post r sts detail bs s).freeCtr = s.freeCtr :=
  (same_post r sts detail bs rfl (same_refl [.hsi, .result] s)).part (q := .freeCtr) rfl
@[simp] theorem post_rdata {r : Req} {sts detail : Nat} {bs : Bytes} : (post r sts detail bs s).rdata = s.rdata :=
  (same_post r sts detail bs rfl (same_refl [.hsi, .result] s)).part (q := .rdata) rfl
@[simp] theorem post_ident {r : Req} {sts detail : Nat} {bs : Bytes} : (post r sts detail bs s).ident = s.ident :=
  (kept_post r sts detail bs (kept_start (b := False) (s := s) False.elim)).2.1
@[simp] theorem post_pending {r : Req} {sts detail : Nat} {bs : Bytes} : (post r sts detail bs s).pending = s.pending :=
  (kept_post r sts detail bs (kept_start (b := False) (s := s) False.elim)).1

@[simp] theorem postSts_str {r : Req} {sts : Nat} : (postSts r sts s).str = s.str :=
  (same_postSts r sts rfl (same_refl [.hsi, .result] s)).part (q := .str) rfl
@[simp] theorem postSts_lane {r : Req} {sts : Nat} : (postSts r sts s).lane = s.lane :=
  (same_postSts r sts rfl (same_refl [.hsi, .result] s)).part (q := .lane) rfl
@[simp] theorem postSts_met {r : Req} {sts : Nat} : (postSts r sts s).met = s.met :=
  (same_postSts r sts rfl (same_refl [.hsi, .result] s)).part (q := .met) rfl
@[simp] theorem postSts_bil {r : Req} {sts : Nat} : (postSts r sts s).bil = s.bil :=
  (same_postSts r sts rfl (same_refl [.hsi, .result] s)).part (q := .bil) rfl
@[simp] theorem postSts_pwr {r : Req} {sts : Nat} : (postSts r sts s).pwr = s.pwr :=
  (same_postSts r sts rfl (same_refl [.hsi, .result] s)).part (q := .pwr) rfl
@[simp] theorem postSts_flt {r : Req} {sts : Nat} : (postSts r sts s).flt = s.flt :=
  (same_postSts r sts rfl (same_refl [.hsi, .result] s)).part (q := .flt) rfl
@[simp] theorem postSts_owl {r : Req} {sts : Nat} : (postSts r sts s).owl = s.owl :=
  (same_postSts r sts rfl (same_refl [.hsi, .result] s)).part (q := .owl) rfl
@[simp] theorem postSts_vlk {r : Req} {sts : Nat} : (postSts r sts s).vlk = s.vlk :=
  (same_postSts r sts rfl (same_refl [.hsi, .result] s)).part (q := .vlk) rfl
@[simp] theorem postSts_glk {r : Req} {sts : Nat} : (postSts r sts s).glk = s.glk :=
  (same_postSts r sts rfl (same_refl [.hsi, .result] s)).part (q := .glk) rfl
@[simp] theorem postSts_eth {r : Req} {sts : Nat} : (postSts r sts s).eth = s.eth :=
  (same_postSts r sts rfl (same_refl [.hsi, .result] s)).part (q := .eth) rfl
@[simp] theorem postSts_tim {r : Req} {sts : Nat} : (postSts r sts s).tim = s.tim :=
  (same_postSts r sts rfl (same_refl [.hsi, .result] s)).part (q := .tim) rfl
@[simp] theorem postSts_tag {r : Req} {sts : Nat} : (postSts r sts s).tag = s.tag :=
  (same_postSts r sts rfl (same_refl [.hsi, .result] s)).part (q := .tag) rfl
@[simp] theorem postSts_epd {r : Req} {sts : Nat} : (postSts r sts s).epd = s.epd :=
  (same_postSts r sts rfl (same_refl [.hsi, .result] s)).part (q := .epd) rfl
@[simp] theorem postSts_key {r : Req} {sts : Nat} : (postSts r sts s).key = s.key :=
  (same_postSts r sts rfl (same_refl [.hsi, .result] s)).part (q := .key) rfl
@[simp] theorem postSts_upd {r : Req} {sts : Nat} : (postSts r sts s).upd = s.upd :=
  (same_postSts r sts rfl (same_refl [.hsi, .result] s)).part (q := .upd) rfl
@[simp] theorem postSts_sys {r : Req} {sts : Nat} : (postSts r sts s).sys = s.sys :=
  same_sys_eq (same_postSts r sts rfl (same_refl [.hsi, .result] s)) rfl rfl
@[simp] theorem postSts_mgt {r : Req} {sts : Nat} : (postSts r sts s).mgt = s.mgt :=
  same_mgt_eq (same_postSts r sts rfl (same_refl [.hsi, .result] s)) rfl rfl
@[simp] theorem postSts_can {r : Req} {sts : Nat} : (postSts r sts s).can = s.can :=
  (same_postSts r sts rfl (same_refl [.hsi, .result] s)).part (q := .can) rfl
@[simp] theorem postSts_sram {r : Req} {sts : Nat} : (postSts r sts s).sram = s.sram :=
  (same_postSts r sts rfl (same_refl [.hsi, .result] s)).part (q := .sram) rfl
@[simp] theorem postSts_ticks {r : Req} {sts : Nat} : (postSts r sts s).ticks = s.ticks :=
  (same_postSts r sts rfl (same_refl [.hsi, .result] s)).part (q := .ticks) rfl
@[simp] theorem postSts_freeCtr {r : Req} {sts : Nat} : (postSts r sts s).freeCtr = s.freeCtr :=
  (same_postSts r sts rfl (same_refl [.hsi, .result] s)).part (q := .freeCtr) rfl
@[simp] theorem postSts_rdata {r : Req} {sts : Nat} : (postSts r sts s).rdata = s.rdata :=
  (same_postSts r sts rfl (same_refl [.hsi, .result] s)).part (q := .rdata) rfl
@[simp] theorem postSts_ident {r : Req} {sts : Nat} : (postSts r sts s).ident = s.ident :=
  (kept_postSts r sts (kept_start (b := False) (s := s) False.elim)).2.1
@[simp] theorem postSts_pending {r : Req} {sts : Nat} : (postSts r sts s).pending = s.pending :=
  (kept_postSts r sts (kept_start (b := False) (s := s) False.elim)).1

/-! ## A notice -/

@[simp] theorem notice_str {c d : Nat} : (notice c d s).str = s.str :=
  (same_notice c d rfl (same_refl [.mgt] s)).part (q := .str) rfl
@[simp] theorem notice_lane {c d : Nat} : (notice c d s).lane = s.lane :=
  (same_notice c d rfl (same_refl [.mgt] s)).part (q := .lane) rfl
@[simp] theorem notice_met {c d : Nat} : (notice c d s).met = s.met :=
  (same_notice c d rfl (same_refl [.mgt] s)).part (q := .met) rfl
@[simp] theorem notice_bil {c d : Nat} : (notice c d s).bil = s.bil :=
  (same_notice c d rfl (same_refl [.mgt] s)).part (q := .bil) rfl
@[simp] theorem notice_pwr {c d : Nat} : (notice c d s).pwr = s.pwr :=
  (same_notice c d rfl (same_refl [.mgt] s)).part (q := .pwr) rfl
@[simp] theorem notice_flt {c d : Nat} : (notice c d s).flt = s.flt :=
  (same_notice c d rfl (same_refl [.mgt] s)).part (q := .flt) rfl
@[simp] theorem notice_owl {c d : Nat} : (notice c d s).owl = s.owl :=
  (same_notice c d rfl (same_refl [.mgt] s)).part (q := .owl) rfl
@[simp] theorem notice_vlk {c d : Nat} : (notice c d s).vlk = s.vlk :=
  (same_notice c d rfl (same_refl [.mgt] s)).part (q := .vlk) rfl
@[simp] theorem notice_glk {c d : Nat} : (notice c d s).glk = s.glk :=
  (same_notice c d rfl (same_refl [.mgt] s)).part (q := .glk) rfl
@[simp] theorem notice_eth {c d : Nat} : (notice c d s).eth = s.eth :=
  (same_notice c d rfl (same_refl [.mgt] s)).part (q := .eth) rfl
@[simp] theorem notice_tim {c d : Nat} : (notice c d s).tim = s.tim :=
  (same_notice c d rfl (same_refl [.mgt] s)).part (q := .tim) rfl
@[simp] theorem notice_tag {c d : Nat} : (notice c d s).tag = s.tag :=
  (same_notice c d rfl (same_refl [.mgt] s)).part (q := .tag) rfl
@[simp] theorem notice_epd {c d : Nat} : (notice c d s).epd = s.epd :=
  (same_notice c d rfl (same_refl [.mgt] s)).part (q := .epd) rfl
@[simp] theorem notice_key {c d : Nat} : (notice c d s).key = s.key :=
  (same_notice c d rfl (same_refl [.mgt] s)).part (q := .key) rfl
@[simp] theorem notice_upd {c d : Nat} : (notice c d s).upd = s.upd :=
  (same_notice c d rfl (same_refl [.mgt] s)).part (q := .upd) rfl
@[simp] theorem notice_sys {c d : Nat} : (notice c d s).sys = s.sys :=
  same_sys_eq (same_notice c d rfl (same_refl [.mgt] s)) rfl rfl
@[simp] theorem notice_hsi {c d : Nat} : (notice c d s).hsi = s.hsi :=
  (same_notice c d rfl (same_refl [.mgt] s)).part (q := .hsi) rfl
@[simp] theorem notice_can {c d : Nat} : (notice c d s).can = s.can :=
  (same_notice c d rfl (same_refl [.mgt] s)).part (q := .can) rfl
@[simp] theorem notice_sram {c d : Nat} : (notice c d s).sram = s.sram :=
  (same_notice c d rfl (same_refl [.mgt] s)).part (q := .sram) rfl
@[simp] theorem notice_ticks {c d : Nat} : (notice c d s).ticks = s.ticks :=
  (same_notice c d rfl (same_refl [.mgt] s)).part (q := .ticks) rfl
@[simp] theorem notice_freeCtr {c d : Nat} : (notice c d s).freeCtr = s.freeCtr :=
  (same_notice c d rfl (same_refl [.mgt] s)).part (q := .freeCtr) rfl
@[simp] theorem notice_result {c d : Nat} : (notice c d s).result = s.result :=
  (same_notice c d rfl (same_refl [.mgt] s)).part (q := .result) rfl
@[simp] theorem notice_rdata {c d : Nat} : (notice c d s).rdata = s.rdata :=
  (same_notice c d rfl (same_refl [.mgt] s)).part (q := .rdata) rfl
@[simp] theorem notice_ident {c d : Nat} : (notice c d s).ident = s.ident :=
  (kept_notice c d (kept_start (b := False) (s := s) False.elim)).2.1
@[simp] theorem notice_pending {c d : Nat} : (notice c d s).pending = s.pending :=
  (kept_notice c d (kept_start (b := False) (s := s) False.elim)).1

/-- A logged event is the newest record while Badger is up. -/
theorem logEv_last {c : EvClass} {b i k : Nat} {d : List (Nat × Nat)} (h : badgerUp s = true) :
    ((logEv c b i k d s).mgt.ring.getLast?).map (fun r => (r.ev.cls, r.ev.code, r.ev.data)) = some (c, k, pack d) := by
  unfold logEv sendEvent
  rw [if_pos h]
  unfold enterLog
  simp only [onMgt_mgt]
  have hl : ∀ (l : List LogRec) (x : LogRec), ((l ++ [x]).drop (l.length + 1 - 512)).getLast? = some x := by
    intro l x
    rw [List.getLast?_drop]
    simp
  rw [hl]
  rfl

/-- Only the retention buffer of the system block changes. -/
theorem logEv_sysWith {c : EvClass} {b i k : Nat} {d : List (Nat × Nat)} :
    ∃ l x, (logEv c b i k d s).sys = { s.sys with retLog := l, retLost := x } := by
  unfold logEv sendEvent retain
  split
  · exact ⟨_, _, rfl⟩
  · lift_lets
    intro e s'
    split
    · exact ⟨_, _, rfl⟩
    · split <;> exact ⟨_, _, rfl⟩

@[simp] theorem logEv_sys_mode {c : EvClass} {b i k : Nat} {d : List (Nat × Nat)} : (logEv c b i k d s).sys.mode = s.sys.mode := by
  obtain ⟨l, x, h⟩ := logEv_sysWith (s := s) (c := c) (b := b) (i := i) (k := k) (d := d)
  rw [h]
@[simp] theorem logEv_sys_holdup {c : EvClass} {b i k : Nat} {d : List (Nat × Nat)} : (logEv c b i k d s).sys.holdup = s.sys.holdup := by
  obtain ⟨l, x, h⟩ := logEv_sysWith (s := s) (c := c) (b := b) (i := i) (k := k) (d := d)
  rw [h]
@[simp] theorem logEv_sys_entry {c : EvClass} {b i k : Nat} {d : List (Nat × Nat)} : (logEv c b i k d s).sys.entry = s.sys.entry := by
  obtain ⟨l, x, h⟩ := logEv_sysWith (s := s) (c := c) (b := b) (i := i) (k := k) (d := d)
  rw [h]
@[simp] theorem logEv_sys_booted {c : EvClass} {b i k : Nat} {d : List (Nat × Nat)} : (logEv c b i k d s).sys.booted = s.sys.booted := by
  obtain ⟨l, x, h⟩ := logEv_sysWith (s := s) (c := c) (b := b) (i := i) (k := k) (d := d)
  rw [h]
@[simp] theorem logEv_sys_badgerDown {c : EvClass} {b i k : Nat} {d : List (Nat × Nat)} : (logEv c b i k d s).sys.badgerDown = s.sys.badgerDown := by
  obtain ⟨l, x, h⟩ := logEv_sysWith (s := s) (c := c) (b := b) (i := i) (k := k) (d := d)
  rw [h]
@[simp] theorem logEv_sys_appDown {c : EvClass} {b i k : Nat} {d : List (Nat × Nat)} : (logEv c b i k d s).sys.appDown = s.sys.appDown := by
  obtain ⟨l, x, h⟩ := logEv_sysWith (s := s) (c := c) (b := b) (i := i) (k := k) (d := d)
  rw [h]
@[simp] theorem logEv_sys_reset {c : EvClass} {b i k : Nat} {d : List (Nat × Nat)} : (logEv c b i k d s).sys.reset = s.sys.reset := by
  obtain ⟨l, x, h⟩ := logEv_sysWith (s := s) (c := c) (b := b) (i := i) (k := k) (d := d)
  rw [h]
@[simp] theorem logEv_sys_sleep {c : EvClass} {b i k : Nat} {d : List (Nat × Nat)} : (logEv c b i k d s).sys.sleep = s.sys.sleep := by
  obtain ⟨l, x, h⟩ := logEv_sysWith (s := s) (c := c) (b := b) (i := i) (k := k) (d := d)
  rw [h]
@[simp] theorem logEv_sys_wakeSrc {c : EvClass} {b i k : Nat} {d : List (Nat × Nat)} : (logEv c b i k d s).sys.wakeSrc = s.sys.wakeSrc := by
  obtain ⟨l, x, h⟩ := logEv_sysWith (s := s) (c := c) (b := b) (i := i) (k := k) (d := d)
  rw [h]
@[simp] theorem logEv_sys_reqReset {c : EvClass} {b i k : Nat} {d : List (Nat × Nat)} : (logEv c b i k d s).sys.reqReset = s.sys.reqReset := by
  obtain ⟨l, x, h⟩ := logEv_sysWith (s := s) (c := c) (b := b) (i := i) (k := k) (d := d)
  rw [h]
@[simp] theorem logEv_sys_pfail {c : EvClass} {b i k : Nat} {d : List (Nat × Nat)} : (logEv c b i k d s).sys.pfail = s.sys.pfail := by
  obtain ⟨l, x, h⟩ := logEv_sysWith (s := s) (c := c) (b := b) (i := i) (k := k) (d := d)
  rw [h]

@[simp] theorem post_result {r : Req} {sts detail : Nat} {bs : Bytes} :
    (post r sts detail bs s).result = some { req := r, sts := sts, detail := detail, bytes := bs } := rfl
@[simp] theorem postSts_result {r : Req} {sts : Nat} :
    (postSts r sts s).result = some { req := r, sts := sts, detail := 0, bytes := [] } := rfl

/-- Every check holds: the command runs. -/
theorem guarded_ok {r : Req} {l : List (Bool × Nat)} {f : State → State} (h : firstFail l = stsOk) : guarded r l f s = f s := by
  unfold guarded
  exact if_pos h

/-- A check fails: its status is posted, and nothing else happens. -/
theorem guarded_fails {r : Req} {l : List (Bool × Nat)} {f : State → State} (h : firstFail l ≠ stsOk) :
    guarded r l f s = postSts r (firstFail l) s := by
  unfold guarded
  exact if_neg h

/-- Badger takes a command while it is up. -/
theorem badgerCmd_up {r : Req} {f : State → State} (h : s.sys.badgerDown = false) : badgerCmd r f s = f s := by
  simp [badgerCmd, h]

end Sys2Proof.Machine
end

