-- ==== Sys2Proof/Machine/Image.lean ====
section
/-! DEFINITION. The 64 KiB of the metrology store as its areas lay them out (R111, R112, R113, R121, R128, R129, R136, R139,
R143, R149). A record whose check word failed shows a wrong one; a ring whose places the spec leaves open shows its entries
oldest first from place 0 (log 36); a staged event has no SEQ yet and shows 0. -/

namespace Sys2Proof.Machine

/-- The two copies of a record, laid out by `f` with the copy's SEQ. -/
def twinBytes {α : Type} (f : Stored α → Bytes) (t : Twin α) : Bytes := f t.a ++ f t.b

/-- The 256 bytes of a copy of the legal counters (R112), with its check word as it stands. -/
def legalCopy (x : Stored LegalCounters) : Bytes :=
  let b := (countersBytes x.seq x.val).take 252
  b ++ crcWord x.ok b

/-- The 128 bytes of a copy of the billing control record (R129). -/
def ctlBytes (x : Stored BillCtl) : Bytes :=
  let c := x.val
  let slot (k : Option Nat) : Bytes := leBytes 1 (k.getD 0xFF)
  let b := leBytes 4 0x42494C31 ++ leBytes 4 x.seq ++ leBytes 8 c.lastBoundary ++ leBytes 8 c.lastBill ++ leBytes 4 c.period
    ++ leBytes 1 c.snapNext ++ leBytes 1 c.snapCount ++ slot c.activeSlot ++ slot c.passiveSlot ++ leBytes 4 c.activeSeq
    ++ leBytes 4 c.passiveSeq ++ leBytes 4 c.highestSeq ++ leBytes 4 c.tidFloor ++ leBytes 8 c.passiveAct
    ++ leBytes 4 c.mirroredSeq ++ zeros 64
  b ++ crcWord x.ok b

/-- The 32 bytes of a boundary journal entry (R139): its CRC-32C leaves STATE out. -/
def journalBytes (e : JournalEntry) : Bytes :=
  let b := leBytes 1 e.kind ++ leBytes 1 e.outlets ++ leBytes 2 (flagAt e.irregular 0 + flagAt e.outage 1) ++ leBytes 8 e.time
    ++ leBytes 4 e.arg ++ leBytes 4 e.saveSeq ++ zeros 4
  leBytes 4 (if e.pending then 0x504E4447 else 0x444F4E45) ++ b ++ crcWord e.ok b

/-- The 160 bytes of a blob copy (R332): the material sealed under a key from the UDS, the blob seed and the class. -/
def blobBytes (b : Blob) : Bytes :=
  let key := Config.hkdf (Config.uds ++ b.seed) (ascii [0x48, 0x4B, 0x56, 0x20, 0x62, 0x6C, 0x6F, 0x62] ++ leBytes 1 b.cls)
  let head := leBytes 4 0x4B424C31 ++ leBytes 2 1 ++ leBytes 2 160 ++ leBytes 1 b.slot ++ leBytes 1 b.ktype ++ leBytes 1 b.cls
    ++ zeros 1 ++ leBytes 4 b.usage ++ leBytes 8 b.param ++ leBytes 8 b.counter ++ fit 12 b.iv ++ zeros 4
  let c := Config.gcmSeal key b.iv head (fit 64 b.material)
  let body := head ++ fit 64 c.1 ++ fit 16 c.2 ++ zeros 28
  body ++ crcWord b.ok body

/-- The display journal in retention (R312). -/
def epdJournalBytes (j : EpdJournal) : Bytes :=
  let head := leBytes 4 0x4550444A ++ leBytes 4 j.frames ++ leBytes 2 j.entries.length ++ leBytes 2 (flagAt j.clean 0)
  let body := j.entries.flatMap fun e => leBytes 1 e.1 ++ leBytes 1 e.2.1 ++ leBytes 1 e.2.2.1 ++ leBytes 1 (e.2.2.2.1 % 4 + 4 * e.2.2.2.2)
  head ++ crcWord j.ok (head ++ body) ++ body

/-- The 32 bytes of a token journal entry (R149). -/
def tokenBytes (e : TokenEntry) : Bytes :=
  let b := leBytes 4 e.seq ++ leBytes 4 (e.tid % 2 ^ 24 + e.sub % 16 * 2 ^ 24 + e.cls % 4 * 2 ^ 28) ++ leBytes 4 e.amount ++ zeros 4
    ++ leBytes 8 e.time ++ zeros 4
  b ++ crcWord e.ok b

/-- The 1,440 bytes of a billing ring slot (R136). -/
def ringSlotBytes (x : RingSlot) : Bytes :=
  fit 0x59C x.bytes ++ leBytes 4 (match x.state with
    | .empty => 0
    | .captured => 0x43415054
    | .signed => 0x5349474E)

/-- The 32 bytes of a staged LEGAL event (R121, R369). -/
def stagedBytes (x : Staged) : Bytes :=
  let b := (recordBytes { seq := 0, ev := x.ev }).take 28
  b ++ crcWord x.ok b

/-- The metrology store (R111, R128): 65,536 bytes. -/
def storeImage (s : State) : Bytes :=
  let m := s.met
  let b := s.bil
  twinBytes legalCopy m.legal ++ twinBytes sealedBytes m.sealedRec ++ fit 256 (m.subst.flatMap substBytes) ++ zeros 128
    ++ fit 1024 (b.journal.flatMap journalBytes)
    ++ (List.range 2).flatMap (fun k => ((m.slots.getD k none).map saveBytes).getD (zeros 4096))
    ++ twinBytes ctlBytes b.ctl
    ++ (List.range 2).flatMap (fun k => ((m.slots.getD k none).map fun r => ledgerBytes r.ok r.ledger).getD (zeros 960))
    ++ fit 2048 (b.tokens.flatMap tokenBytes)
    ++ (List.range 2).flatMap (fun k => fit 2880 (((b.cals.getD k none).map (·.bytes)).getD []))
    ++ zeros 2560 ++ fit 34560 (b.ring.flatMap ringSlotBytes)
    ++ fit 6144 (m.sessionRing.flatMap (fit 256)) ++ fit 2048 (m.staging.flatMap stagedBytes)

end Sys2Proof.Machine
end

