-- ==== Sys2Proof/Tests/Slice0.lean ====
section
/-! SUPPORT. Own tests: the checks of WellFormed refuse ill-formed commands; each hypothesis of a statement is met by a small
state (named after the statement); single steps against values the spec gives. -/

namespace Sys2Proof.Tests

set_option Elab.async false
set_option linter.unusedVariables false

open Sys2Proof Sys2Proof.Machine

/-! ## Helper states -/

/-- A structure with an AC outlet 3 and a DC outlet 0, every block, lane 39 on outlet 3, and one record of each kind. -/
def tiny : Struct :=
  { seq := 1, sealVer := 1, safeVer := 1, openVer := 1,
    lanes := [{ lane := 39, role := 1, qty := 1, cic := 0, outlet := 3, group := 0, fir := 0 },
              { lane := 38, role := 1, qty := 2, cic := 0, outlet := 3, group := 0, fir := 0 },
              { lane := 0, role := 2, qty := 0, cic := 0, outlet := 0xFF, group := 0, fir := 0 }],
    outlets := [{ outlet := 0, kind := 2, groups := 1, unbilled := false, nomMv := 400000, nomMHz := 0, ratedMa := 32000 },
                { outlet := 3, kind := 1, groups := 1, unbilled := false, nomMv := 230000, nomMHz := 50000, ratedMa := 32000 }],
    groups := [{ outlet := 3, group := 0, phase := 0, vLane := 38, cLane := 39 }],
    meters := [], cals := [], firs := [], metDigest := [], saveS := 60,
    contactors := [{ outlet := 3, channel := 11, pole := 0 }, { outlet := 0, channel := 10, pole := 0 }], gates := [],
    guards := [{ input := 7, kind := 3, mask := 0x8, polarity := 0, debounce := 10 }],
    trips := [{ kind := 1, inst := 39, mask := 0x8, threshold := 1000, delay := 0 },
              { kind := 1, inst := 39, mask := 0x8, threshold := 500, delay := 100 },
              { kind := 4, inst := 7, mask := 0x8, threshold := 0, delay := 50 }],
    limps := [], blocks := 0x7FF,
    switches := [{ channel := 7, outlet := 3, func := 1, thermAutoclr := true, openloadOn := true, openloadOff := true, inrushMs := 10, retries := 3 },
                 { channel := 6, outlet := 0xFF, func := 0, thermAutoclr := true, openloadOn := true, openloadOff := true, inrushMs := 10, retries := 3 }],
    limpMaps := [], pinmux := [], regions := [{ region := 15, common := 0, segs := [0, 1, 2, 3, 4, 5, 6] },
      { region := 0, common := 0, segs := [8] }], leds := [{ channel := 11, role := 1, outlet := 3, ma := 10 }],
    notch := none }

/-- The device up and in READY with `tiny` in force. -/
def up : State :=
  { State.reset with
    str := { StrBlock.fresh with cur := tiny, subst := List.range 40 },
    sys := { SysBlock.fresh with mode := .ready, reset := none, held := false, booted := true, rails := 0x8F },
    hsi := { HsiBlock.fresh with hReady := true, cReady := true } }

/-- Reset with the rails good and nothing holding the device. -/
def risen : State := onSys (fun b => { b with held := false, rails := 0x8F }) State.reset

/-- What the boot finds: nothing wrong. -/
def bootIn : BootInput :=
  { rtc := 0, metOk := true, owlOk := true, rngFail := false, guards := 0, limpLow := false, lhIn := 0, lockFb := 0,
    grpMv := [12000, 12000, 12000], modemsOk := true, field := false, damage := [],
    cfgDamage := 0 }

/-- An Efdom frame to this device without its check: version 1, four payload bytes, a period of 10 ms. -/
def efFrame : Bytes := [0xEF, 1, 1, 4] ++ zeros 20 ++ [10, 0] ++ zeros 6

/-- The MAC up, with one 14-byte frame to send at 0x100 and one 2,048-byte buffer at 0x4000 to receive into. -/
def wire : State :=
  onEth (fun b => { b with en := true, link := true, rings := { b.rings with txTail := 1, rxBase := 0x1000, rxTail := 1 } })
    { up with sram := memWriteN (memWriteN [] 0 [0, 1, 0, 0, 14, 0, 1, 0]) 0x1000 [0, 0x40, 0, 0, 0, 8, 1, 0] }

/-- A member of the grid network of key slot 3 that searches. -/
def member : State :=
  onKey (fun b => { b with slots := put b.slots 3 { KeySlot.fresh with ktype := 1, usage := 0x1080, loaded := true } })
    (onGlk (fun b => { b with en := true, assoc := .search, nmkSlot := 3 }) up)

/-- The head block of an area of one block of zeros, number 1. -/
def areaHead : Bytes := [0x41, 0x45, 0x52, 0x41, 1, 0, 0, 0, 1, 0, 0, 0] ++ leBytes 4 (crc32c (zeros 32)) ++ zeros 16

/-- An area of one block, written while the tag is OPEN, with the CRC over its bytes. -/
def area : State :=
  onTag (fun b => { b with adoptSeq := 0, ct := put (put b.ct 8 { data := areaHead, ok := true }) 9 { data := zeros 32, ok := true } }) up

/-- A commissioning tag in the reader's field with every block intact. -/
def intact : State := onTag (fun b => { b with field := true, ct := List.replicate 256 { data := zeros 32, ok := true } }) up

theorem intact_ok : ∀ k, k < 256 → (ctBlock intact k).ok = true := by decide +kernel

/-- A waveform table of one band from -40 to 85 °C with 4 states. -/
def table : Bytes := zeros 13 ++ [1, 4, 0, 0x70, 0xFE, 0x52, 0x03] ++ zeros 200

/-- A command of the host with tag 127. -/
def rq : Req := { side := .host, tag := 127 }

/-- A command of the application cluster with tag 0. -/
def rqc : Req := { side := .cluster, tag := 0 }

/-- A decoder key, and a calendar in force whose prepayment mask names outlet 3. -/
def tokenKey : KeySlot := { KeySlot.fresh with ktype := 6, usage := 0x440, loaded := true, material := [1] }
def prepaid : State :=
  onCtl (fun c => { c with activeSlot := some 0 })
    (onBil (fun b => { b with cals := [some { (default : CalSlot) with cal := { (default : Calendar) with prepay := 8 }, ok := true }] })
      (onKey (fun b => { b with slots := put b.slots 6 tokenKey }) up))

/-- The fixed part of an erasure message for slot 31, counter 1, from the test root; and a BLANK device it concerns. -/
def eraseMsg : Bytes := zeros 4 ++ leBytes 2 1 ++ leBytes 2 288 ++ zeros 8 ++ leBytes 8 1 ++ [3, 31, 0, 1] ++ zeros 260
def keyed : State :=
  onKey (fun b => { b with lc := .blank, slots := put b.slots 31 { KeySlot.fresh with ktype := 1, usage := 0x2010, loaded := true, material := [1] } }) up

/-- A read of four bytes whose data came too late. -/
def readFrame : HsiFrame := { fast := false, opcode := 0x0B, addr := 0, len := 4, data := [], crc := 0, stop := .exact, late := true }

/-! ## WellFormed: each check refuses an ill-formed command, and takes the last value it allows -/

/-- A TAG beyond the result slots. -/
def badReq : Req := { side := .host, tag := 128 }

/-- Every command of the list is refused. -/
def refusesAll (l : List Instr) : Bool := l.all fun c => !c.wellFormed

theorem test_wf_refuses_0 : refusesAll [.warrenActivate badReq,
    .laneSampleWord 40 default,
    .laneStuck 40 false,
    .laneClkerr 40,
    .resamplerCycle 4 0,
    .resamplerCycle 0 256001,
    .detectorUpdate 40 false false,
    .firdataWrite 40 0,
    .firSwap 40,
    .laneTrialWrite 40 false,
    .laneCalWrite 40 false 0,
    .laneSuspect 40,
    .warmupDecision 40 false false,
    .laneSwap 40,
    .spareFailed 40 0,
    .spareFailed 0 256,
    .laneFailed 40 0,
    .laneFailed 0 256,
    .strikeExpiry 40,
    .laneRestore badReq 0,
    .laneRestore rq 256,
    .intervalClose 4 default,
    .pulseTimer 4,
    .energyLoRead .host 4 0,
    .energyLoRead .host 0 10,
    .calAccLoRead .host 4 false,
    .bilLoRead .host (.timp 0 8),
    .calLoad badReq [],
    .tokenEnter badReq [],
    .billSnapRead badReq 0] = true := by decide +kernel

theorem test_wf_refuses_1 : refusesAll [.billSnapRead rq 256,
    .billReset badReq,
    .tokenMirrorConfirm 4294967296,
    .lsDemandChange 12,
    .lsOverload 12 0,
    .lsInrushEnd 12 0,
    .lsRetryTimer 12,
    .lsRetryReset 12,
    .lsThermalLatch 12 0,
    .lsLatchAutoclear 12 0,
    .lsUndervoltage 3 0,
    .lsUvRecover 3 0,
    .lsOpenloadOn 12 0,
    .lsOpenloadDiag 12 0,
    .pwrClear badReq 0 0,
    .pwrClear rq 256 0,
    .pwrClear rq 0 256,
    .weldClear badReq 0,
    .weldClear rq 256,
    .limpInputChange false 256,
    .fastTrip 40 0,
    .fastTrip 0 4,
    .supervisedDelayExpiry 0 40,
    .rcEvaluate 4 [],
    .rcTrip 4 0,
    .rcTrip 0 6,
    .isoStateSwitch 4 default,
    .isoUnknown 4 0,
    .preCloseResult 4 default,
    .postOpenResult 4 default] = true := by decide +kernel

theorem test_wf_refuses_2 : refusesAll [.lockFeedback 4 false,
    .lockTimeout 4,
    .lockRetry 4,
    .owlDiagFail 12 0,
    .owlDiagFail 0 256,
    .owlPeriodicDiag 12 false 0,
    .owlPeriodicDiag 0 false 256,
    .meterOkTimeout 4,
    .guardInputChange 8 false,
    .guardDisagree 8 0,
    .guardDisagree 0 256,
    .tripAutoclear 4 0,
    .tripAutoclear 0 4,
    .autoclrExpiry 4,
    .owlPwProve badReq [],
    .owlPwSet badReq [] [],
    .owlPwEnd badReq,
    .owlTripClear badReq 0,
    .owlTripClear rq 256,
    .owlEfdomSet badReq (zeros 24),
    .owlEfdomSet rq (zeros 25),
    .owlLogRead badReq 0,
    .owlLogRead rq 256,
    .efdomTransmit 8,
    .efdomFrameReceive 5 [],
    .efdomWatchdogExpiry 8,
    .pilotStateAccepted 4 0 0,
    .pilotFaultHold 4 false,
    .pilotModeTransitionEnd 4,
    .vlkPilotWrite 4 0] = true := by decide +kernel

theorem test_wf_refuses_3 : refusesAll [.proximityCode 4 0,
    .vlkStart badReq 0,
    .vlkStart rq 256,
    .vlkStop badReq 0 0,
    .vlkStop rq 256 0,
    .vlkStop rq 0 256,
    .vlkUnlock badReq 0,
    .vlkUnlock rq 256,
    .releaseRetry 4,
    .precloseRetry 4,
    .dcContactorOpen 4,
    .overdraw 4 0 0,
    .overdraw 0 3 0,
    .cmSlacParmReq 4 0,
    .cmSlacParmReq 0 18446744073709551616,
    .cmStartAttenCharInd 4 0,
    .cmStartAttenCharInd 0 18446744073709551616,
    .cmMnbcSoundInd 4 0 [],
    .cmMnbcSoundInd 0 18446744073709551616 [],
    .soundingWindowEnd 4,
    .cmAttenCharRsp 4 0,
    .cmAttenCharRsp 0 18446744073709551616,
    .attenCharResend 4,
    .cmValidateReq 4 0 0,
    .cmValidateReq 0 18446744073709551616 0,
    .validationWindowEnd 4 false,
    .cmSlacMatchReq 4 0,
    .cmSlacMatchReq 0 18446744073709551616,
    .slacJoined 4,
    .slacTimeout 4 default] = true := by decide +kernel

theorem test_wf_refuses_4 : refusesAll [.slacLinkLost 4,
    .frameTxTailWrite (.can 2) 0,
    .frameRxTailWrite (.can 2) 0,
    .frameTransmitted (.can 2) 0,
    .frameTransmitted .glk 4294967296,
    .frameTxTimeout (.can 2),
    .frameReceived (.can 2) default,
    .ccAssocCnf false 256,
    .nekReceived (zeros 17),
    .neighbourExpiry 256,
    .toneMapReceived 256 default,
    .toneMapTimeout 256 default,
    .toneMapReestimate 256,
    .reassemblyTimeout 256,
    .glkZcInd 256 default,
    .ethMdioDone 65536,
    .domainHoldoverExpiry 2,
    .slewComplete 2 false,
    .timSet badReq 0 0,
    .timSet rq 256 0,
    .timSet rq 0 18446744073709551616,
    .timOffset badReq 0 0,
    .timOffset rq 256 0,
    .timSelect badReq 0,
    .timSelect rq 256,
    .timIncWrite 2 0,
    .timDomTsLoRead .host 2,
    .tagXfer badReq [] [],
    .tagRelease badReq,
    .tagCachePut badReq []] = true := by decide +kernel

theorem test_wf_refuses_5 : refusesAll [.tagCacheDel badReq 0,
    .tagCacheDel rq 18446744073709551616,
    .tagCacheGet badReq 0,
    .tagCacheGet rq 18446744073709551616,
    .tagCacheClear badReq,
    .tagCtSecure badReq,
    .tagCtOpen badReq,
    .tagCtPublish badReq [],
    .tagCtAdopt badReq,
    .ctReadBlock 256 0,
    .ctReadBlock 0 257,
    .ctWriteSingleBlock 256 [] false default,
    .ctAuthWrite 256 [] [] false default,
    .epdUpdate badReq 0 0 [],
    .epdUpdate rq 256 0 [],
    .epdUpdate rq 0 256 [],
    .ledStep 4,
    .ledOpen 12 false,
    .keyUpdate badReq [],
    .keyAttest badReq (zeros 32),
    .keyAttest rq (zeros 33),
    .keyCertRead badReq,
    .keyChallenge badReq,
    .keyMaintProve badReq (zeros 64),
    .keyMaintProve rq (zeros 65),
    .keyZeroise badReq 0,
    .keyZeroise rq 4294967296,
    .tamperDetect 7,
    .updBegin badReq [],
    .updData badReq 0 []] = true := by decide +kernel

theorem test_wf_refuses_6 : refusesAll [.updData rq 4294967296 [],
    .updEnd badReq,
    .updAbort badReq,
    .updActivate badReq 0,
    .updActivate rq 256,
    .updConfirm badReq,
    .trialFail 256,
    .appHeartbeatTimeout 3,
    .mgtLogRead badReq 0 0,
    .mgtLogRead rq 4294967296 0,
    .mgtLogRead rq 0 4294967296,
    .mgtLogAck badReq 0,
    .mgtLogAck rq 4294967296,
    .mgtRestart badReq,
    .sleep badReq 0,
    .sleep rq 256,
    .modeSet badReq 0,
    .modeSet rq 256,
    .registerWrite .host 16777216 [],
    .bufferWrite .host 131072 [],
    .resultSlotRead .host 128,
    .badgerCommandTimeout badReq,
    .hsiNop badReq [],
    .canStuck 2 false,
    .canBusoffRecovery 2 false,
    .canErrorStateChange 2 0 0,
    .canErrorStateChange 0 65536 0,
    .canErrorStateChange 0 0 65536,
    .powerFailWarning false 65536 [],
    .brownout 10] = true := by decide +kernel

theorem test_wf_refuses_7 : refusesAll [.ledOvertemp 12 false,
    .fastTapWord 40 default,
    .reducedFieldMeasurement 65536,
    .modulatorClockReturn 40,
    .hsiTransactionError { fast := false, opcode := 256, addr := 0, len := 0, data := [], crc := 0, stop := .exact, late := false },
    .hsiTransactionError { fast := false, opcode := 0, addr := 16777216, len := 0, data := [], crc := 0, stop := .exact, late := false },
    .hsiTransactionError { fast := false, opcode := 0, addr := 0, len := 65536, data := [], crc := 0, stop := .exact, late := false },
    .hsiTransactionError { fast := false, opcode := 0, addr := 0, len := 0, data := [], crc := 65536, stop := .exact, late := false },
    .boot { rtc := 0, metOk := true, owlOk := true, rngFail := false, guards := 0, limpLow := false, lhIn := 0, lockFb := 0, grpMv := [], modemsOk := true, field := false, damage := [0], cfgDamage := 4 },
    .boot { rtc := 0, metOk := true, owlOk := true, rngFail := false, guards := 0, limpLow := false, lhIn := 0, lockFb := 0, grpMv := [], modemsOk := true, field := false, damage := [65536], cfgDamage := 0 },
    .laneSampleWord 39 { bits := 2 ^ 128, firBad := false, dlyBad := false, rsBad := false },
    .intervalClose 3 { groups := [], accs := [{ (default : AccFault) with q := 73 }] },
    .toneMapReceived 3 { rate := 0, maps := List.replicate 7 (0, zeros 533) },
    .toneMapReceived 3 { rate := 0, maps := [(0, zeros 532)] },
    .glkZcInd 3 { mac := 2 ^ 48, payload := [] },
    .fastTapWord 39 { bits := 256, parityBad := false }] = true := by decide +kernel

theorem test_wf_takes_0 : ([.laneSampleWord 39 default,
    .laneStuck 39 false,
    .laneClkerr 39,
    .resamplerCycle 3 256000,
    .detectorUpdate 39 false false,
    .firdataWrite 39 0,
    .firSwap 39,
    .laneTrialWrite 39 false,
    .laneCalWrite 39 false 0,
    .laneSuspect 39,
    .warmupDecision 39 false false,
    .laneSwap 39,
    .spareFailed 39 255,
    .laneFailed 39 255,
    .strikeExpiry 39,
    .laneRestore rq 255,
    .intervalClose 3 default,
    .pulseTimer 3,
    .energyLoRead .host 3 9,
    .calAccLoRead .host 3 false,
    .billSnapRead rq 255,
    .tokenMirrorConfirm 4294967295,
    .lsDemandChange 11,
    .lsOverload 11 0,
    .lsInrushEnd 11 0,
    .lsRetryTimer 11,
    .lsRetryReset 11,
    .lsThermalLatch 11 0,
    .lsLatchAutoclear 11 0,
    .lsUndervoltage 2 0,
    .lsUvRecover 2 0,
    .lsOpenloadOn 11 0,
    .lsOpenloadDiag 11 0,
    .pwrClear rq 255 255,
    .weldClear rq 255,
    .limpInputChange false 255,
    .fastTrip 39 3,
    .supervisedDelayExpiry 0 39,
    .rcEvaluate 3 [],
    .rcTrip 3 5] : List Instr).all Instr.wellFormed = true := by decide +kernel

theorem test_wf_takes_1 : ([.isoStateSwitch 3 default,
    .isoUnknown 3 0,
    .preCloseResult 3 default,
    .postOpenResult 3 default,
    .lockFeedback 3 false,
    .lockTimeout 3,
    .lockRetry 3,
    .owlDiagFail 11 255,
    .owlPeriodicDiag 11 false 255,
    .meterOkTimeout 3,
    .guardInputChange 7 false,
    .guardDisagree 7 255,
    .tripAutoclear 3 3,
    .autoclrExpiry 3,
    .owlTripClear rq 255,
    .owlLogRead rq 255,
    .efdomTransmit 7,
    .efdomFrameReceive 4 [],
    .efdomWatchdogExpiry 7,
    .pilotStateAccepted 3 0 0,
    .pilotFaultHold 3 false,
    .pilotModeTransitionEnd 3,
    .vlkPilotWrite 3 0,
    .proximityCode 3 0,
    .vlkStart rq 255,
    .vlkStop rq 255 255,
    .vlkUnlock rq 255,
    .releaseRetry 3,
    .precloseRetry 3,
    .dcContactorOpen 3,
    .overdraw 3 2 0,
    .cmSlacParmReq 3 18446744073709551615,
    .cmStartAttenCharInd 3 18446744073709551615,
    .cmMnbcSoundInd 3 18446744073709551615 [],
    .soundingWindowEnd 3,
    .cmAttenCharRsp 3 18446744073709551615,
    .attenCharResend 3,
    .cmValidateReq 3 18446744073709551615 0,
    .validationWindowEnd 3 false,
    .cmSlacMatchReq 3 18446744073709551615] : List Instr).all Instr.wellFormed = true := by decide +kernel

theorem test_wf_takes_2 : ([.slacJoined 3,
    .slacTimeout 3 default,
    .slacLinkLost 3,
    .frameTransmitted .glk 4294967295,
    .ccAssocCnf false 255,
    .neighbourExpiry 255,
    .toneMapReceived 255 default,
    .toneMapTimeout 255 default,
    .toneMapReestimate 255,
    .reassemblyTimeout 255,
    .glkZcInd 255 default,
    .ethMdioDone 65535,
    .domainHoldoverExpiry 1,
    .slewComplete 1 false,
    .timSet rq 255 18446744073709551615,
    .timOffset rq 255 0,
    .timSelect rq 255,
    .timIncWrite 1 0,
    .timDomTsLoRead .host 1,
    .tagCacheDel rq 18446744073709551615,
    .tagCacheGet rq 18446744073709551615,
    .ctReadBlock 255 256,
    .ctWriteSingleBlock 255 [] false default,
    .ctAuthWrite 255 [] [] false default,
    .epdUpdate rq 255 255 [],
    .ledStep 3,
    .ledOpen 11 false,
    .keyZeroise rq 4294967295,
    .tamperDetect 6,
    .updData rq 4294967295 [],
    .updActivate rq 255,
    .trialFail 255,
    .appHeartbeatTimeout 2,
    .mgtLogRead rq 4294967295 4294967295,
    .mgtLogAck rq 4294967295,
    .sleep rq 255,
    .modeSet rq 255,
    .registerWrite .host 16777215 [],
    .bufferWrite .host 131071 [],
    .resultSlotRead .host 127] : List Instr).all Instr.wellFormed = true := by decide +kernel

theorem test_wf_takes_3 : ([.canStuck 1 false,
    .canBusoffRecovery 1 false,
    .canErrorStateChange 1 65535 65535,
    .powerFailWarning false 65535 [],
    .brownout 9,
    .ledOvertemp 11 false,
    .fastTapWord 39 default,
    .reducedFieldMeasurement 65535,
    .modulatorClockReturn 39,
    .hsiTransactionError { fast := false, opcode := 255, addr := 16777215, len := 65535, data := [], crc := 65535, stop := .exact, late := false },
    .boot { rtc := 0, metOk := true, owlOk := true, rngFail := false, guards := 0, limpLow := false, lhIn := 0, lockFb := 0, grpMv := [], modemsOk := true, field := false, damage := [65535], cfgDamage := 3 },
    .laneSampleWord 39 { bits := 2 ^ 128 - 1, firBad := false, dlyBad := false, rsBad := false },
    .intervalClose 3 { groups := [], accs := [{ (default : AccFault) with q := 72 }] },
    .toneMapReceived 3 { rate := 0, maps := List.replicate 6 (0, zeros 533) },
    .glkZcInd 3 { mac := 2 ^ 48 - 1, payload := [] },
    .fastTapWord 39 { bits := 255, parityBad := false }] : List Instr).all Instr.wellFormed = true := by decide +kernel

/-! ## Every statement's hypotheses are met -/

theorem test_hyp_StepRunsTheFrontCommand :
    ∃ (c : Instr) (l : List Instr) (s : State), s.pending = c :: l :=
  ⟨.calctlStop, [.timPtpfPop], { up with pending := [.calctlStop, .timPtpfPop] }, by decide +kernel⟩

theorem test_hyp_AnIdleStepIsOneTick :
    ∃ (s : State), s.pending = [] :=
  ⟨up, by decide +kernel⟩

theorem test_hyp_BootComesUpSafe :
    (∃ (s : State) (b : BootInput) (h : ResetHold), s.Inv ∧ s.sys.reset = some h ∧ h.pin = false ∧ s.sys.held = false ∧ s.sys.holdup = false)
    ∧ (∃ (s : State) (b : BootInput), (s.sys.reset = none ∨ s.sys.held = true ∨ s.sys.holdup = true)) :=
  ⟨⟨risen, bootIn, { cold := true, causes := 4, pin := false }, by decide +kernel⟩,
    ⟨State.reset, bootIn, by decide +kernel⟩⟩

theorem test_hyp_AbsentAndUnservedCommandsPostOnlyAStatus :
    (∃ (s : State) (r : Req) (o k : Nat), o < 4 ∧ declared s o = false)
    ∧ (∃ (s : State) (r : Req) (o k : Nat), 3 < o)
    ∧ (∃ (s : State) (r : Req) (k x : Nat) (b : Bytes), s.sys.badgerDown = true) :=
  ⟨⟨up, rq, 2, 0, by decide +kernel⟩,
    ⟨up, rq, 4, 0, by decide +kernel⟩,
    ⟨(onSys (fun b => { b with badgerDown := true }) up), rq, 0, 0, [], by decide +kernel⟩⟩

theorem test_hyp_LaneChainCommandsEffect :
    (∃ (s : State) (n : Nat) (i : LaneInput), s.Inv ∧ n < 40)
    ∧ (∃ (s : State) (n : Nat) (h : Bool), s.Inv ∧ n < 40 ∧ delivers s n = true)
    ∧ (∃ (s : State) (n : Nat), s.Inv ∧ n < 40 ∧ delivers s n = true)
    ∧ (∃ (s : State) (n : Nat), s.Inv ∧ n < 40)
    ∧ (∃ (s : State) (o a : Nat) (r : OutletRec), s.Inv ∧ o < 4 ∧ outletRec s o = some r ∧ r.kind = 1 ∧ gridOwner s.str.cur o = o)
    ∧ (∃ (s : State) (n : Nat) (w m : Bool), s.Inv ∧ n < 40 ∧ laneIn s.str.cur n = true)
    ∧ (∃ (s : State) (n : Nat) (w : Word), s.Inv ∧ n < 40 ∧ laneIn s.str.cur n = true ∧ (laneOf s n).firIndex < 64)
    ∧ (∃ (s : State) (n : Nat), s.Inv ∧ n < 40 ∧ laneIn s.str.cur n = true)
    ∧ (∃ (s : State) (n : Nat), s.Inv ∧ n < 40 ∧ laneIn s.str.cur n = true ∧ homeSession s n = false ∧ s.sys.mode = .maintenance ∧ beingWarmed s n = false)
    ∧ (∃ (s : State) (n : Nat), s.Inv ∧ n < 40 ∧ laneIn s.str.cur n = true ∧ (laneOf s n).trial = true)
    ∧ (∃ (s : State) (n : Nat) (w : Word), s.Inv ∧ n < 40 ∧ laneIn s.str.cur n = true ∧ (laneOf s n).trial = true ∧ 0x200000 ≤ w.toNat % 2 ^ 24 ∧ w.toNat % 2 ^ 24 ≤ 0x7FFFFF)
    ∧ (∃ (s : State) (n : Nat) (w : Word), s.Inv ∧ n < 40 ∧ laneIn s.str.cur n = true ∧ (laneOf s n).trial = true ∧ w.toNat % 2 ^ 13 ≤ 4096)
    ∧ (∃ (s : State) (n : Nat) (w : Word), s.Inv ∧ n < 40 ∧ laneIn s.str.cur n = true ∧ w.toNat % 2 ^ 24 < 0x200000) :=
  ⟨⟨up, 39, { bits := 2 ^ 128 - 1, firBad := false, dlyBad := false, rsBad := false }, by decide +kernel⟩,
    ⟨up, 39, true, by decide +kernel⟩,
    ⟨up, 39, by decide +kernel⟩,
    ⟨up, 39, by decide +kernel⟩,
    ⟨up, 3, 0, { outlet := 3, kind := 1, groups := 1, unbilled := false, nomMv := 230000, nomMHz := 50000, ratedMa := 32000 }, by decide +kernel⟩,
    ⟨up, 39, true, true, by decide +kernel⟩,
    ⟨(onLane 39 (fun l => { l with trial := true, firIndex := 63 }) up), 39, 0, by decide +kernel⟩,
    ⟨up, 39, by decide +kernel⟩,
    ⟨(onSys (fun b => { b with mode := .maintenance }) up), 39, by decide +kernel⟩,
    ⟨(onLane 39 (fun l => { l with trial := true }) up), 39, by decide +kernel⟩,
    ⟨(onLane 39 (fun l => { l with trial := true }) up), 39, 0x200000, by decide +kernel⟩,
    ⟨(onLane 39 (fun l => { l with trial := true }) up), 39, 4096, by decide +kernel⟩,
    ⟨(onLane 39 (fun l => { l with trial := true }) up), 39, 0x1FFFFF, by decide +kernel⟩⟩

theorem test_hyp_LaneSpareCommandsEffect :
    (∃ (s : State) (n : Nat) (k : Trigger), s.Inv ∧ n < 40 ∧ (laneOf s n).trig = some k ∧ serves s n = true)
    ∧ (∃ (s : State) (m : Nat) (u e : Bool) (w : Warmup), s.Inv ∧ w.suspect < 40 ∧ s.lane.warm.find? (fun w => w.spare == m && w.decided.isNone) = some w ∧ w.spareTrig = none ∧ w.suspectTrig = false ∧ w.suspect = w.lane ∧ w.suspect ≠ m ∧ (laneOf s w.suspect).strikes < 2 ∧ mismatch e w = false)
    ∧ (∃ (s : State) (m : Nat) (u e : Bool) (w : Warmup), s.Inv ∧ s.lane.warm.find? (fun w => w.spare == m && w.decided.isNone) = some w ∧ w.spareTrig = none ∧ w.suspectTrig = false ∧ (laneOf s w.suspect).strikes < 2 ∧ mismatch e w = true)
    ∧ (∃ (s : State) (m reason mean : Nat) (w : Warmup), s.Inv ∧ m < 40 ∧ w.lane < s.str.subst.length ∧ s.lane.warm.find? (fun w => w.spare == m) = some w ∧ w.decided = some (reason, mean) ∧ w.lane ≠ m ∧ w.suspect ≠ m)
    ∧ (∃ (s : State) (m k : Nat), s.Inv ∧ m < 40 ∧ (laneOf s m).health = .idle)
    ∧ (∃ (s : State) (n k : Nat), s.Inv ∧ n < 40 ∧ (laneOf s n).health = .suspect)
    ∧ (∃ (s : State) (n : Nat), s.Inv ∧ n < 40)
    ∧ (∃ (s : State) (r : Req) (n : Nat), s.Inv ∧ n < 40 ∧ laneIn s.str.cur n = true ∧ laneRole s n = 1 ∧ n < s.str.subst.length ∧ s.sys.badgerDown = false ∧ s.sys.mode = .maintenance ∧ homeSession s n = false ∧ (laneOf s n).health = .failed)
    ∧ (∃ (s : State) (r : Req) (n : Nat), s.Inv ∧ n < 40 ∧ laneIn s.str.cur n = true ∧ laneRole s n = 2 ∧ s.sys.badgerDown = false ∧ s.sys.mode = .maintenance ∧ homeSession s n = false ∧ (laneOf s n).health = .failed ∧ functionOf s n = n ∧ s.lane.queue = []) :=
  ⟨⟨(onLane 39 (fun l => { l with trig := some .check, health := .good }) up), 39, .check, by decide +kernel⟩,
    ⟨(onLaneBlk (fun b => { b with warm := [{ (default : Warmup) with spare := 0, lane := 39, suspect := 39, words := 1, sumAbs := 1677 }] }) up), 0, false, false, { (default : Warmup) with spare := 0, lane := 39, suspect := 39, words := 1, sumAbs := 1677 }, by decide +kernel⟩,
    ⟨(onLaneBlk (fun b => { b with warm := [{ (default : Warmup) with spare := 0, lane := 39, suspect := 39, words := 1, sumAbs := 1678 }] }) up), 0, false, false, { (default : Warmup) with spare := 0, lane := 39, suspect := 39, words := 1, sumAbs := 1678 }, by decide +kernel⟩,
    ⟨(onLaneBlk (fun b => { b with warm := [{ (default : Warmup) with spare := 0, lane := 39, suspect := 39, words := 1, decided := some (3, 20) }] }) up), 0, 3, 20, { (default : Warmup) with spare := 0, lane := 39, suspect := 39, words := 1, decided := some (3, 20) }, by decide +kernel⟩,
    ⟨(onLane 39 (fun l => { l with health := .idle }) up), 39, 0, by decide +kernel⟩,
    ⟨(onLane 39 (fun l => { l with health := .suspect }) up), 39, 0, by decide +kernel⟩,
    ⟨up, 39, by decide +kernel⟩,
    ⟨(onLane 39 (fun l => { l with health := .failed }) (onSys (fun b => { b with mode := .maintenance }) up)), rq, 39, by decide +kernel⟩,
    ⟨(onLane 0 (fun l => { l with health := .failed }) (onSys (fun b => { b with mode := .maintenance }) up)), rq, 0, by decide +kernel⟩⟩

theorem test_hyp_MeteringCommandsEffect :
    (∃ (s : State) (p : Nat), s.Inv ∧ p < 4)
    ∧ (∃ (s : State) (w : Word), s.Inv ∧ field w.toNat 23 8 ≠ 0)
    ∧ (∃ (s : State) (n : Nat), s.met.run = true)
    ∧ (∃ (s : State), s.Inv ∧ s.met.run = true)
    ∧ (∃ (s : State), s.met.run = false)
    ∧ (∃ (s : State) (n : Nat), badgerUp s = true)
    ∧ (∃ (s : State) (x : Snapshot) (l : List Snapshot) (k : Bytes), s.met.snapQueue = x :: l ∧ meterKey s = some k)
    ∧ (∃ (s : State) (k : Nat) (r : SaveRec), s.met.saving = some (k, r))
    ∧ (∃ (s : State) (v : Side) (o q x : Nat), x = (if declared s o then at0 (metOutOf s o).acc q / 2 ^ 16 % 2 ^ 64 else 0))
    ∧ (∃ (s : State) (v : Side) (x : Nat), x = (if isAc s s.met.harmOutlet then unsignedOf 64 ((metOutOf s s.met.harmOutlet).harm.getD (s.met.harmOrder - 1) 0 / 2 ^ 16) else 0))
    ∧ (∃ (s : State) (v : Side) (o x : Nat) (b : Bool), x = (if declared s o then unsignedOf 64 (if b then (metOutOf s o).calQ else (metOutOf s o).calP) else 0))
    ∧ (∃ (s : State) (o : Nat) (i : IntervalInput), s.Inv ∧ o < s.owl.meterOk.length ∧ o < s.owl.meterLost.length ∧ s.met.run = true ∧ s.met.stopped = false ∧ declared s o = true)
    ∧ (∃ (s : State) (o : Nat) (i : IntervalInput) (r : OutletRec) (c : Contribution), s.Inv ∧ s.met.run = true ∧ s.met.stopped = false ∧ outletRec s o = some r ∧ o < 4 ∧ i.accs = [] ∧ (metOutOf s o).nometer = false ∧ (metOutOf s o).inTrial = false ∧ outletTrial s o = false ∧ c = totals (groupResults s r i)) :=
  ⟨⟨up, 3, by decide +kernel⟩,
    ⟨up, 0x100, by decide +kernel⟩,
    ⟨(onMet (fun b => { b with run := true, stopped := false }) up), 0, by decide +kernel⟩,
    ⟨(onMet (fun b => { b with run := true, stopped := false }) up), by decide +kernel⟩,
    ⟨(onMet (fun b => { b with run := false }) up), by decide +kernel⟩,
    ⟨up, 0, by decide +kernel⟩,
    ⟨(onMet (fun b => { b with snapQueue := [{ type := 0, outlets := 8, gen := 0, body := [], slot := none }] }) (onKey (fun b => { b with slots := put b.slots 0 { ktype := 1, usage := 0xFF, param := 0, cls := 0, derived := false, loaded := true, material := [1] } }) up)), { type := 0, outlets := 8, gen := 0, body := [], slot := none }, [], [1], by decide +kernel⟩,
    ⟨(onMet (fun b => { b with saving := some (0, default) }) up), 0, default, by decide +kernel⟩,
    ⟨up, .host, 3, 0, 0, by decide +kernel⟩,
    ⟨up, .host, 0, by decide +kernel⟩,
    ⟨up, .host, 3, 0, true, by decide +kernel⟩,
    ⟨(onMet (fun b => { b with run := true, stopped := false }) up), 3, { groups := [], accs := [] }, by decide +kernel⟩,
    ⟨(onMet (fun b => { b with run := true, stopped := false }) up), 3, { groups := [], accs := [] }, { outlet := 3, kind := 1, groups := 1, unbilled := false, nomMv := 230000, nomMHz := 50000, ratedMa := 32000 }, (totals (groupResults (onMet (fun b => { b with run := true, stopped := false }) up) { outlet := 3, kind := 1, groups := 1, unbilled := false, nomMv := 230000, nomMHz := 50000, ratedMa := 32000 } { groups := [], accs := [] })), ⟨by decide +kernel, by decide +kernel, by decide +kernel, by decide +kernel, by decide +kernel, rfl, by decide +kernel, by decide +kernel, by decide +kernel, rfl⟩⟩⟩

theorem test_hyp_BillingCommandsEffect :
    (∃ (s : State) (r : Req) (i : Nat) (x : RingSlot), i < (billCtl s).snapCount ∧ x.state = .signed ∧ s.bil.ring[((billCtl s).snapNext + 23 - i) % 24]? = some x)
    ∧ (∃ (s : State) (r : Req), s.sys.mode = .maintenance ∧ (billCtl s).lastBoundary < nowTs s)
    ∧ (∃ (s : State) (o : Nat), s.Inv ∧ o < 4 ∧ declared s o = true)
    ∧ (∃ (s : State) (k : Nat), (billCtl s).mirroredSeq < k ∧ k < s.bil.tokenNext) :=
  ⟨⟨(onCtl (fun c => { c with snapCount := 1, snapNext := 1 }) (onBil (fun b => { b with ring := List.replicate 24 { state := .signed, bytes := [] } }) up)), rq, 0, { state := .signed, bytes := [] }, by decide +kernel⟩,
    ⟨(onTim (fun b => { b with now := 10 ^ 27 }) (onSys (fun b => { b with mode := .maintenance }) up)), rq, by decide +kernel⟩,
    ⟨up, 3, by decide +kernel⟩,
    ⟨(onBil (fun b => { b with tokenNext := 3 }) up), 2, by decide +kernel⟩⟩

theorem test_hyp_LoadSwitchCommandsEffect :
    (∃ (s : State) (k : Nat), s.Inv ∧ k < 12)
    ∧ (∃ (s : State) (k : Nat) (cur : Int), s.Inv ∧ k < 12 ∧ (chOf s k).state.conducts = true)
    ∧ (∃ (s : State) (k : Nat) (cur : Int), s.Inv ∧ k < 12 ∧ (chOf s k).state = .inrush)
    ∧ (∃ (s : State) (k : Nat), s.Inv ∧ k < 12 ∧ (chOf s k).state = .retryWait)
    ∧ (∃ (s : State) (k : Nat), s.Inv ∧ k < 12 ∧ (chOf s k).state = .on)
    ∧ (∃ (s : State) (k : Nat) (x : Int), s.Inv ∧ k < 12 ∧ chDeclared s k = true ∧ (chOf s k).state ≠ .latched ∧ 1700 ≤ x)
    ∧ (∃ (s : State) (k : Nat) (x : Int), s.Inv ∧ k < 12 ∧ (chOf s k).state = .latched ∧ (switchRec s k).any (·.thermAutoclr) = true)
    ∧ (∃ (s : State) (k : Nat) (cur : Int), s.Inv ∧ k < 12 ∧ openloadOn s k true = true ∧ (chOf s k).state = .on)
    ∧ (∃ (s : State) (k mv : Nat), s.Inv ∧ k < 12 ∧ openloadOn s k false = true ∧ diagDriven (chOf s k).state = true ∧ s.sys.mode ≠ .dormant)
    ∧ (∃ (s : State) (r : Req) (k : Nat), s.Inv ∧ k < 12 ∧ chDeclared s k = true ∧ (chOf s k).state = .latched ∧ (chOf s k).temp < 1500)
    ∧ (∃ (s : State) (r : Req) (k : Nat), s.Inv ∧ k < 12 ∧ chDeclared s k = true ∧ (chOf s k).state = .fault) :=
  ⟨⟨up, 11, by decide +kernel⟩,
    ⟨(onCh 11 (fun c => { c with state := .inrush }) up), 11, 6500, by decide +kernel⟩,
    ⟨(onCh 11 (fun c => { c with state := .inrush }) up), 11, 6500, by decide +kernel⟩,
    ⟨(onCh 7 (fun c => { c with state := .retryWait }) up), 7, by decide +kernel⟩,
    ⟨(onCh 7 (fun c => { c with state := .on }) up), 7, by decide +kernel⟩,
    ⟨up, 7, 1700, by decide +kernel⟩,
    ⟨(onCh 7 (fun c => { c with state := .latched }) up), 7, 1499, by decide +kernel⟩,
    ⟨(onCh 7 (fun c => { c with state := .on }) up), 7, 9, by decide +kernel⟩,
    ⟨(onCh 7 (fun c => { c with state := .off }) up), 7, 3001, by decide +kernel⟩,
    ⟨(onCh 7 (fun c => { c with state := .latched, temp := 1499 }) up), rq, 7, by decide +kernel⟩,
    ⟨(onCh 7 (fun c => { c with state := .fault }) up), rq, 7, by decide +kernel⟩⟩

theorem test_hyp_SupplyGroupAndLimpInputEffect :
    (∃ (s : State) (g mv : Nat), s.Inv ∧ g < 3 ∧ g < s.pwr.grpUv.length ∧ flag s.pwr.grpUv g = false ∧ mv < 8000)
    ∧ (∃ (s : State) (g mv : Nat), s.Inv ∧ g < 3 ∧ flag s.pwr.grpUv g = true ∧ 8500 ≤ mv)
    ∧ (∃ (s : State) (low : Bool) (lh : Nat), s.Inv) :=
  ⟨⟨(onPwr (fun b => { b with grpUv := [false, false, false] }) up), 2, 7999, by decide +kernel⟩,
    ⟨(onPwr (fun b => { b with grpUv := [false, false, true] }) up), 2, 8500, by decide +kernel⟩,
    ⟨up, true, 0, by decide +kernel⟩⟩

theorem test_hyp_ProtectionCommandsEffect :
    (∃ (s : State) (n f k : Nat) (r : LaneRec) (l : Level) (o : Nat), s.Inv ∧ delivers s n = true ∧ tapFunction s n = some f ∧ laneRec s f = some r ∧ r.role = 1 ∧ r.qty ≠ 3 ∧ (laneLevels s f)[k]? = some l ∧ l.fast = true ∧ levelCode s l ≤ (laneOf s n).tap.natAbs ∧ o < 4 ∧ o < s.owl.causes.length ∧ declared s o = true ∧ Nat.land l.mask (outputsOf s o) ≠ 0)
    ∧ (∃ (s : State) (n f b : Nat) (r : LaneRec) (l : Level) (o : Nat), s.Inv ∧ n < 40 ∧ delivers s n = true ∧ tapFunction s n = some f ∧ laneRec s f = some r ∧ r.role = 1 ∧ r.qty ≠ 3 ∧ l ∈ laneLevels s f ∧ l.fast = true ∧ o < 4 ∧ o < s.owl.causes.length ∧ declared s o = true ∧ Nat.land l.mask (outputsOf s o) ≠ 0)
    ∧ (∃ (s : State) (n f b : Nat) (r : LaneRec) (l : Level) (i : Nat), s.Inv ∧ delivers s n = true ∧ tapFunction s n = some f ∧ laneRec s f = some r ∧ r.role = 1 ∧ r.qty ≠ 3 ∧ l ∈ laneLevels s f ∧ l.fast = false ∧ i ∈ levelRelations s l)
    ∧ (∃ (s : State) (o : Nat) (ws : List Int), s.Inv ∧ o < 4 ∧ isAc s o = true ∧ ws ≠ [])
    ∧ (∃ (s : State) (o k c h : Nat), s.Inv ∧ o < 4 ∧ o < s.owl.causes.length ∧ isAc s o = true ∧ rcLevels[k]? = some (c, h) ∧ h ≤ at0 (s.flt.rc.getD o Residual.fresh).held k ∧ outputsOf s o ≠ 0)
    ∧ (∃ (s : State) (o : Nat) (i : IsoInput), s.Inv ∧ o < 4 ∧ isDc s o = true)
    ∧ (∃ (s : State) (o : Nat) (u : Int), s.Inv ∧ o < 4 ∧ isDc s o = true ∧ 50000 ≤ u.natAbs ∧ (s.flt.iso.getD o Iso.fresh).state ≠ .unknown) :=
  ⟨⟨(onLane 39 (fun l => { l with tap := 0x7FFF }) (onOwl (fun b => { b with causes := [0, 0, 0, 0] }) up)), 39, 39, 0, { lane := 39, role := 1, qty := 1, cic := 0, outlet := 3, group := 0, fir := 0 }, { kind := 1, inst := 39, threshold := 1000, delay := 0, mask := 8 }, 3, by decide +kernel⟩,
    ⟨(onOwl (fun b => { b with causes := [0, 0, 0, 0] }) up), 39, 39, 0, { lane := 39, role := 1, qty := 1, cic := 0, outlet := 3, group := 0, fir := 0 }, { kind := 1, inst := 39, threshold := 1000, delay := 0, mask := 8 }, 3, by decide +kernel⟩,
    ⟨(onOwl (fun b => { b with causes := [0, 0, 0, 0] }) up), 39, 39, 0, { lane := 39, role := 1, qty := 1, cic := 0, outlet := 3, group := 0, fir := 0 }, { kind := 1, inst := 39, threshold := 500, delay := 100, mask := 8 }, 1, by decide +kernel⟩,
    ⟨(onOwl (fun b => { b with causes := [0, 0, 0, 0] }) up), 3, [0], by decide +kernel⟩,
    ⟨(onFlt (fun b => { b with rc := put b.rc 3 { Residual.fresh with held := [9999, 9999, 9999] } }) (onOwl (fun b => { b with causes := [0, 0, 0, 0] }) up)), 3, 2, 200000, 10, by decide +kernel⟩,
    ⟨(onOwl (fun b => { b with causes := [0, 0, 0, 0] }) up), 0, { vp := 0, vn := 0, vpPrev := 0, vnPrev := 0 }, by decide +kernel⟩,
    ⟨(onFlt (fun b => { b with iso := put b.iso 0 { Iso.fresh with state := .valid } }) (onOwl (fun b => { b with causes := [0, 0, 0, 0] }) up)), 0, -50000, by decide +kernel⟩⟩

theorem test_hyp_WeldAndLockCommandsEffect :
    (∃ (s : State) (o : Nat) (i : WeldInput) (x : WeldResult × Nat × Nat × Nat), s.Inv ∧ o < 4 ∧ o < s.owl.cfg.get.held.length ∧ weldResult s o false i = some x)
    ∧ (∃ (s : State) (o : Nat), s.Inv ∧ o < 4 ∧ (linkOf s o).phase = .preCloseWait)
    ∧ (∃ (s : State) (o : Nat) (i : WeldInput) (x : WeldResult × Nat × Nat × Nat), s.Inv ∧ o < 4 ∧ o < s.owl.cfg.get.held.length ∧ o < s.owl.weldSeen.length ∧ weldResult s o true i = some x)
    ∧ (∃ (s : State) (r : Req) (o : Nat), s.Inv ∧ o < 4 ∧ declared s o = true ∧ s.sys.mode = .maintenance ∧ held s o = true ∧ (s.flt.weld.getD o Weld.fresh).preOpen = true)
    ∧ (∃ (s : State) (o k : Nat) (b : Bool), s.Inv ∧ o < 4 ∧ lockChannel s o = some k ∧ (lockOf s o).state = .none ∧ ((s.owl.state = .run → (linkOf s o).startHeld = false ∧ (linkOf s o).ending = false)))
    ∧ (∃ (s : State) (o k : Nat), s.Inv ∧ o < 4 ∧ lockChannel s o = some k ∧ (lockOf s o).state = .locked ∧ ((s.owl.state = .run → (linkOf s o).startHeld = false ∧ (linkOf s o).ending = false)))
    ∧ (∃ (s : State) (o k : Nat), s.Inv ∧ o < 4 ∧ lockChannel s o = some k ∧ (lockOf s o).state = .unlocking ∧ ((s.owl.state = .run → (linkOf s o).startHeld = false ∧ (linkOf s o).ending = false)))
    ∧ (∃ (s : State) (o k : Nat), s.Inv ∧ o < 4 ∧ lockChannel s o = some k ∧ (lockOf s o).state = .locking ∧ (lockOf s o).pause = false)
    ∧ (∃ (s : State) (o k : Nat), s.Inv ∧ o < 4 ∧ lockChannel s o = some k ∧ (lockOf s o).state = .unlocking)
    ∧ (∃ (s : State) (o : Nat), s.Inv ∧ o < 4 ∧ (lockOf s o).state = .locking ∧ (lockOf s o).pause = true) :=
  ⟨⟨(onOwl (fun b => { b with weldSeen := List.replicate 4 false, cfg := b.cfg.change fun c => { c with held := [true, false, false, true], autoclr := [0, 0, 0, 0], efdom := List.replicate 8 default } }) up), 0, { cycles := [], first100 := [(0, 0)], upTo500 := [(0, 0)] }, (.inconclusive, 0, 0, 0), by decide +kernel⟩,
    ⟨(onLink 3 (fun l => { l with phase := .preCloseWait }) up), 3, by decide +kernel⟩,
    ⟨(onOwl (fun b => { b with weldSeen := List.replicate 4 false, cfg := b.cfg.change fun c => { c with held := [true, false, false, true], autoclr := [0, 0, 0, 0], efdom := List.replicate 8 default } }) up), 0, { cycles := [], first100 := [(0, 0)], upTo500 := [(0, 0)] }, (.inconclusive, 0, 0, 0), by decide +kernel⟩,
    ⟨(onFlt (fun b => { b with weld := put b.weld 3 { Weld.fresh with preOpen := true } }) (onSys (fun b => { b with mode := .maintenance }) (onOwl (fun b => { b with weldSeen := List.replicate 4 false, cfg := b.cfg.change fun c => { c with held := [true, false, false, true], autoclr := [0, 0, 0, 0], efdom := List.replicate 8 default } }) up))), rq, 3, by decide +kernel⟩,
    ⟨(onLock 3 (fun l => { l with state := .none }) (onOwl (fun b => { b with state := .run, causes := [0, 0, 0, 0], meterLost := [false, false, false, false] }) up)), 3, 7, true, by decide +kernel⟩,
    ⟨(onLock 3 (fun l => { l with state := .locked }) (onOwl (fun b => { b with state := .run, causes := [0, 0, 0, 0], meterLost := [false, false, false, false] }) up)), 3, 7, by decide +kernel⟩,
    ⟨(onLock 3 (fun l => { l with state := .unlocking }) (onOwl (fun b => { b with state := .run, causes := [0, 0, 0, 0], meterLost := [false, false, false, false] }) up)), 3, 7, by decide +kernel⟩,
    ⟨(onLock 3 (fun l => { l with state := .locking, pause := false }) up), 3, 7, by decide +kernel⟩,
    ⟨(onLock 3 (fun l => { l with state := .unlocking }) up), 3, 7, by decide +kernel⟩,
    ⟨(onLock 3 (fun l => { l with state := .locking, pause := true }) up), 3, by decide +kernel⟩⟩

theorem test_hyp_OwlSafetyCommandsEffect :
    (∃ (s : State) (k n o : Nat) (p : TripRec), s.Inv ∧ s.str.cur.trips[k]? = some p ∧ s.owl.state = .run ∧ p.delay ≠ 0 ∧ relationTrue s k p = true ∧ latched s p = false ∧ o < 4 ∧ o < s.owl.causes.length ∧ declared s o = true ∧ Nat.land p.mask (outputsOf s o) ≠ 0)
    ∧ (∃ (s : State), s.Inv)
    ∧ (∃ (s : State) (o : Nat), o < s.owl.meterLost.length)
    ∧ (∃ (s : State) (g : Nat) (b : Bool), s.Inv ∧ (guardRec s g).isSome = true)
    ∧ (∃ (s : State) (g l : Nat), s.Inv ∧ (guardRec s g).isSome = true ∧ bitAt s.owl.guardDis g = false)
    ∧ (∃ (s : State) (o : Nat), s.Inv ∧ s.owl.state = .run ∧ declared s o = true ∧ contactorsOff s o = true)
    ∧ (∃ (s : State) (o : Nat), s.Inv)
    ∧ (∃ (s : State) (r : Req) (o : Nat), s.Inv ∧ o < 4 ∧ declared s o = true ∧ s.key.lc ≠ .retired ∧ autoclr s o < 3 ∧ at0 s.owl.causes o ≠ 0 ∧ ((∀ c, c < 9 → causeTrue s o c = false)) ∧ contactorsOff s o = true)
    ∧ (∃ (s : State) (d x : Nat), s.Inv ∧ (s.owl.state = .start ∨ s.owl.state = .run) ∧ d < 12)
    ∧ (∃ (s : State) (d x : Nat), s.Inv ∧ s.owl.state = .run ∧ d < 12)
    ∧ (∃ (s : State), s.Inv ∧ (s.owl.state = .start ∨ s.owl.state = .run))
    ∧ (∃ (s : State), s.Inv ∧ s.owl.state = .safe)
    ∧ (∃ (s : State), s.Inv ∧ s.owl.state = .start) :=
  ⟨⟨(onOwl (fun b => { b with state := .run, causes := [0, 0, 0, 0], guardOpen := 0x80 }) up), 2, 0, 3, { kind := 4, inst := 7, mask := 0x8, threshold := 0, delay := 50 }, by decide +kernel⟩,
    ⟨(onOwl (fun b => { b with state := .run, causes := [0, 0, 0, 0], meterLost := [false, false, false, false] }) up), by decide +kernel⟩,
    ⟨(onOwl (fun b => { b with state := .run, causes := [0, 0, 0, 0], meterLost := [false, false, false, false] }) up), 3, by decide +kernel⟩,
    ⟨(onOwl (fun b => { b with state := .run, causes := [0, 0, 0, 0], meterLost := [false, false, false, false] }) up), 7, true, by decide +kernel⟩,
    ⟨(onOwl (fun b => { b with state := .run, causes := [0, 0, 0, 0], meterLost := [false, false, false, false] }) up), 7, 0, by decide +kernel⟩,
    ⟨(onCh 11 (fun c => { c with state := .off }) (onOwl (fun b => { b with state := .run, causes := [0, 0, 0, 0], meterLost := [false, false, false, false] }) up)), 3, by decide +kernel⟩,
    ⟨up, 3, by decide +kernel⟩,
    ⟨(onOwl (fun b => { b with weldSeen := List.replicate 4 false, cfg := b.cfg.change fun c => { c with held := [true, false, false, true], autoclr := [0, 0, 0, 0], efdom := List.replicate 8 default } }) (onCh 11 (fun c => { c with state := .off }) (onOwl (fun b => { b with state := .run, causes := [0, 0, 0, 1], guardOpen := 0 }) up))), rq, 3, by decide +kernel⟩,
    ⟨(onOwl (fun b => { b with state := .run, causes := [0, 0, 0, 0], meterLost := [false, false, false, false] }) up), 11, 0, by decide +kernel⟩,
    ⟨(onOwl (fun b => { b with state := .run, causes := [0, 0, 0, 0], meterLost := [false, false, false, false] }) up), 11, 0, by decide +kernel⟩,
    ⟨(onOwl (fun b => { b with state := .run, causes := [0, 0, 0, 0], meterLost := [false, false, false, false] }) up), by decide +kernel⟩,
    ⟨(onOwl (fun b => { b with state := .safe }) up), by decide +kernel⟩,
    ⟨(onOwl (fun b => { b with state := .start }) up), by decide +kernel⟩⟩

theorem test_hyp_SafetyPasswordCommandsEffect :
    (∃ (s : State) (r : Req) (pw : Bytes), 8 ≤ pw.length ∧ pw.length ≤ 64 ∧ s.key.lc ≠ .retired ∧ (owlCfg s).verifier.isSome = true ∧ lockedOut s = false)
    ∧ (∃ (s : State) (r : Req) (old new : Bytes), old.length ≤ 64 ∧ 8 ≤ new.length ∧ new.length ≤ 64 ∧ s.key.lc ≠ .retired ∧ (owlCfg s).verifier = none ∧ lockedOut s = false)
    ∧ (∃ (s : State) (r : Req) (old new : Bytes), old.length ≤ 64 ∧ 8 ≤ new.length ∧ new.length ≤ 64 ∧ s.key.lc ≠ .retired ∧ (owlCfg s).verifier.isSome = true ∧ lockedOut s = false)
    ∧ (∃ (s : State) (r : Req), s.key.lc ≠ .retired ∧ hasSession s r.side = true)
    ∧ (∃ (s : State) (r : Req) (i : Nat) (e : Bytes), s.owl.log[i]? = some e ∧ leAt 60 4 e = crc32c (e.take 60)) :=
  ⟨⟨(onOwl (fun b => { b with cfg := b.cfg.change fun c => { c with verifier := some { salt := [], hash := [] } } }) up), rq, (List.replicate 8 0), by decide +kernel⟩,
    ⟨up, rq, (List.replicate 64 0), (List.replicate 64 0), by decide +kernel⟩,
    ⟨(onOwl (fun b => { b with cfg := b.cfg.change fun c => { c with verifier := some { salt := [], hash := [] } } }) up), rq, (List.replicate 8 0), (List.replicate 8 0), by decide +kernel⟩,
    ⟨(onOwl (fun b => { b with session := some { side := .host, endTick := 1 } }) (onOwl (fun b => { b with cfg := b.cfg.change fun c => { c with verifier := some { salt := [], hash := [] } } }) up)), rq, by decide +kernel⟩,
    ⟨(onOwl (fun b => { b with log := [zeros 60 ++ leBytes 4 (crc32c (zeros 60))] }) up), rq, 0, (zeros 60 ++ leBytes 4 (crc32c (zeros 60))), by decide +kernel⟩⟩

theorem test_hyp_EfdomCommandsEffect :
    (∃ (s : State) (k : Nat) (p : Bytes), s.Inv ∧ s.owl.state = .run ∧ efdomSized p = true ∧ efdomFormat p = true ∧ beNat (slice (0x1C + byteAt 3 p) 4 p) ≠ fcrc (p.take (0x1C + byteAt 3 p)))
    ∧ (∃ (s : State) (k c : Nat) (p : Bytes), s.Inv ∧ s.owl.state = .run ∧ efdomSized p = true ∧ efdomFormat p = true ∧ beNat (slice (0x1C + byteAt 3 p) 4 p) = fcrc (p.take (0x1C + byteAt 3 p)) ∧ leAt 0x10 8 p = s.ident.deviceId ∧ (receivers s k).find? (fun c => (connRec s c).peer == leAt 8 8 p) = some c ∧ inRange 10 1000 (leAt 0x18 2 p) = true)
    ∧ (∃ (s : State) (c : Nat), s.Inv ∧ c < 8 ∧ ((connOf s c).state = .sync ∨ (connOf s c).state = .valid))
    ∧ (∃ (s : State) (c : Nat), s.Inv ∧ c < 8 ∧ s.owl.state = .run ∧ (connOf s c).state = .tx)
    ∧ (∃ (s : State) (r : Req) (b : Bytes), s.Inv ∧ efdomRecOk b = true ∧ byteAt 0 b < (owlCfg s).efdom.length ∧ ((byteAt 1 b ≠ 0 → transportThere s (byteAt 2 b) = true)) ∧ s.key.lc ≠ .retired ∧ hasSession s r.side = true ∧ ((∀ o, o < 4 → bitAt (Nat.lor (connRec s (byteAt 0 b)).mask (byteAt 3 b)) o = true → flag s.owl.released o = false))) :=
  ⟨⟨(onOwl (fun b => { b with efd := List.replicate 8 { EfdomConn.fresh with state := .sync }, state := .run, session := some { side := .host, endTick := 1 }, released := [false, false, false, false], cfg := b.cfg.change fun c => { c with efdom := List.replicate 8 { (default : EfdomRec) with dir := 1, transport := 4 }, verifier := some { salt := [], hash := [] } } }) up), 4, (efFrame ++ [0, 0, 0, 0]), by decide +kernel⟩,
    ⟨(onOwl (fun b => { b with efd := List.replicate 8 { EfdomConn.fresh with state := .sync }, state := .run, session := some { side := .host, endTick := 1 }, released := [false, false, false, false], cfg := b.cfg.change fun c => { c with efdom := List.replicate 8 { (default : EfdomRec) with dir := 1, transport := 4 }, verifier := some { salt := [], hash := [] } } }) up), 4, 0, (efFrame ++ beBytes 4 (fcrc efFrame)), by decide +kernel⟩,
    ⟨(onOwl (fun b => { b with efd := List.replicate 8 { EfdomConn.fresh with state := .sync }, state := .run, session := some { side := .host, endTick := 1 }, released := [false, false, false, false], cfg := b.cfg.change fun c => { c with efdom := List.replicate 8 { (default : EfdomRec) with dir := 1, transport := 4 }, verifier := some { salt := [], hash := [] } } }) up), 7, by decide +kernel⟩,
    ⟨(onOwl (fun b => { b with efd := List.replicate 8 { EfdomConn.fresh with state := .tx }, state := .run, session := some { side := .host, endTick := 1 }, released := [false, false, false, false], cfg := b.cfg.change fun c => { c with efdom := List.replicate 8 { (default : EfdomRec) with dir := 1, transport := 4 }, verifier := some { salt := [], hash := [] } } }) up), 7, by decide +kernel⟩,
    ⟨(onOwl (fun b => { b with efd := List.replicate 8 { EfdomConn.fresh with state := .sync }, state := .run, session := some { side := .host, endTick := 1 }, released := [false, false, false, false], cfg := b.cfg.change fun c => { c with efdom := List.replicate 8 { (default : EfdomRec) with dir := 1, transport := 4 }, verifier := some { salt := [], hash := [] } } }) up), rq, ([7, 1, 4, 8] ++ List.replicate 10 0 ++ [20, 0] ++ List.replicate 8 0), by decide +kernel⟩⟩

theorem test_hyp_VehicleLinkCommandsEffect :
    (∃ (s : State) (o : Nat), s.Inv ∧ o < 4 ∧ linked s o = true)
    ∧ (∃ (s : State) (o : Nat), s.Inv ∧ o < 4 ∧ linked s o = true)
    ∧ (∃ (s : State) (o : Nat) (w : Word), s.Inv ∧ o < 4 ∧ linked s o = true ∧ s.sys.mode ≠ .limp ∧ (field w.toNat 31 30 ≠ 1 ∨ inRange 6000 80000 (field w.toNat 16 0) = true))
    ∧ (∃ (s : State) (o x : Nat), s.Inv ∧ o < 4 ∧ linked s o = true ∧ (linkOf s o).ppMode = 1 ∧ s.sys.mode ≠ .watch ∧ s.sys.mode ≠ .dormant ∧ (linkOf s o).sup.active = false)
    ∧ (∃ (s : State) (r : Req) (o : Nat), s.Inv ∧ o < 4 ∧ declared s o = true ∧ s.sys.mode ≠ .limp ∧ ((linked s o = true → ((linkOf s o).sup = .connected ∨ (linkOf s o).sup = .ended) ∧ ((linkOf s o).cp = .b ∨ (linkOf s o).cp = .c ∨ (linkOf s o).cp = .d) ∧ (isDc s o = true → (linkOf s o).mode = 2 ∧ (linkOf s o).slac = .matched) ∧ (isAc s o = true → (linkOf s o).mode = 2 → (linkOf s o).slac = .matched))) ∧ ((linked s o = false → (linkOf s o).sup.active = false)))
    ∧ (∃ (s : State) (r : Req) (o k : Nat), s.Inv ∧ o < 4 ∧ declared s o = true ∧ (linkOf s o).sup.active = true)
    ∧ (∃ (s : State) (r : Req) (o : Nat), s.Inv ∧ o < 4 ∧ declared s o = true ∧ ((linkOf s o).sup = .ended ∨ (linkOf s o).sup = .connected) ∧ unlockRefused s o = false ∧ (lockChannel s o).isSome = true ∧ (lockOf s o).state = .locked ∧ (lockOf s o).fb = true)
    ∧ (∃ (s : State) (o : Nat), s.Inv ∧ o < 4 ∧ (linkOf s o).phase = .release ∧ flag s.owl.requested o = false ∧ (linkOf s o).relTries ≠ 0 ∧ ready s o = true)
    ∧ (∃ (s : State) (o : Nat), s.Inv ∧ o < 4 ∧ (linkOf s o).phase = .gateOff)
    ∧ (∃ (s : State) (o g c : Nat), s.Inv ∧ o < 4 ∧ linked s o = true ∧ isAc s o = true ∧ (linkOf s o).sup = .closed ∧ (linkOf s o).phase = .none ∧ 11 * (offerOf s o).1 + 10000 < 10 * c) :=
  ⟨⟨up, 3, by decide +kernel⟩,
    ⟨up, 3, by decide +kernel⟩,
    ⟨up, 3, 0x40013880, by decide +kernel⟩,
    ⟨(onLink 3 (fun l => { l with ppMode := 1 }) up), 3, 0, by decide +kernel⟩,
    ⟨(onLink 3 (fun l => { l with sup := .connected, cp := .b, mode := 1 }) up), rq, 3, ⟨by decide +kernel, by decide +kernel, by decide +kernel, by decide +kernel, fun _ => ⟨by decide +kernel, by decide +kernel, by decide +kernel, by decide +kernel⟩, by decide +kernel⟩⟩,
    ⟨(onLink 3 (fun l => { l with sup := .paused }) up), rq, 3, 0, by decide +kernel⟩,
    ⟨(onLink 3 (fun l => { l with sup := .ended }) (onLock 3 (fun l => { l with state := .locked, fb := true }) (onOwl (fun b => { b with state := .run, causes := [0, 0, 0, 0], meterLost := [false, false, false, false] }) up))), rq, 3, by decide +kernel⟩,
    ⟨(onLink 3 (fun l => { l with phase := .release, relTries := 1, cp := .c, mode := 2, sup := .closed }) (onOwl (fun b => { b with requested := [false, false, false, false] }) (onLock 3 (fun l => { l with state := .locked, fb := true }) (onOwl (fun b => { b with state := .run, causes := [0, 0, 0, 0], meterLost := [false, false, false, false] }) up)))), 3, by decide +kernel⟩,
    ⟨(onLink 0 (fun l => { l with phase := .gateOff }) up), 0, by decide +kernel⟩,
    ⟨(onLink 3 (fun l => { l with sup := .closed, phase := .none }) up), 3, 0, 40000, by decide +kernel⟩⟩

theorem test_hyp_SlacCommandsEffect :
    (∃ (s : State) (o r : Nat), s.Inv ∧ o < 4 ∧ slacAllowed s o = true ∧ modemOn s o = true ∧ (linkOf s o).slac = .waitParm ∧ (linkOf s o).oldRuns.contains r = false)
    ∧ (∃ (s : State) (o r : Nat), s.Inv ∧ o < 4 ∧ (linkOf s o).runId = some r ∧ (linkOf s o).slac = .waitParm)
    ∧ (∃ (s : State) (o r : Nat) (l : List Nat), s.Inv ∧ o < 4 ∧ modemOn s o = true ∧ (linkOf s o).runId = some r ∧ (linkOf s o).slac = .sounding)
    ∧ (∃ (s : State) (o r : Nat), s.Inv ∧ o < 4 ∧ (linkOf s o).runId = some r ∧ (linkOf s o).slac = .sounding)
    ∧ (∃ (s : State) (o r : Nat), s.Inv ∧ o < 4 ∧ (linkOf s o).attenRun = some r)
    ∧ (∃ (s : State) (o : Nat), s.Inv ∧ o < 4 ∧ (linkOf s o).slac = .sounding ∧ (linkOf s o).attenSent ≠ 0)
    ∧ (∃ (s : State) (o r n : Nat), s.Inv ∧ o < 4 ∧ (linkOf s o).attenRun = some r ∧ (linkOf s o).slac = .sounding)
    ∧ (∃ (s : State) (o r : Nat) (d : Bool) (w : ValWindow), s.Inv ∧ o < 4 ∧ (linkOf s o).attenRun = some r ∧ (linkOf s o).window = some w)
    ∧ (∃ (s : State) (o r : Nat), s.Inv ∧ o < 4 ∧ (linkOf s o).attenRun = some r ∧ ((linkOf s o).slac = .sounding ∨ (linkOf s o).slac = .validating))
    ∧ (∃ (s : State) (o : Nat), s.Inv ∧ o < 4 ∧ (linkOf s o).slac = .joining)
    ∧ (∃ (s : State) (o : Nat), s.Inv ∧ o < 4 ∧ (linkOf s o).slac = .waitParm)
    ∧ (∃ (s : State) (o : Nat), s.Inv ∧ o < 4 ∧ (linkOf s o).slac = .matched) :=
  ⟨⟨(onLink 3 (fun l => { l with cp := .b, mode := 2, runId := some 9, attenRun := some 9, slac := .waitParm }) (onLock 3 (fun l => { l with state := .locked, fb := true }) (onOwl (fun b => { b with state := .run, causes := [0, 0, 0, 0], meterLost := [false, false, false, false] }) up))), 3, 8, by decide +kernel⟩,
    ⟨(onLink 3 (fun l => { l with cp := .b, mode := 2, runId := some 9, attenRun := some 9, slac := .waitParm }) (onLock 3 (fun l => { l with state := .locked, fb := true }) (onOwl (fun b => { b with state := .run, causes := [0, 0, 0, 0], meterLost := [false, false, false, false] }) up))), 3, 9, by decide +kernel⟩,
    ⟨(onLink 3 (fun l => { l with cp := .b, mode := 2, runId := some 9, attenRun := some 9, slac := .sounding }) (onLock 3 (fun l => { l with state := .locked, fb := true }) (onOwl (fun b => { b with state := .run, causes := [0, 0, 0, 0], meterLost := [false, false, false, false] }) up))), 3, 9, [], by decide +kernel⟩,
    ⟨(onLink 3 (fun l => { l with cp := .b, mode := 2, runId := some 9, attenRun := some 9, slac := .sounding }) (onLock 3 (fun l => { l with state := .locked, fb := true }) (onOwl (fun b => { b with state := .run, causes := [0, 0, 0, 0], meterLost := [false, false, false, false] }) up))), 3, 9, by decide +kernel⟩,
    ⟨(onLink 3 (fun l => { l with cp := .b, mode := 2, runId := some 9, attenRun := some 9, slac := .sounding }) (onLock 3 (fun l => { l with state := .locked, fb := true }) (onOwl (fun b => { b with state := .run, causes := [0, 0, 0, 0], meterLost := [false, false, false, false] }) up))), 3, 9, by decide +kernel⟩,
    ⟨(onLink 3 (fun l => { l with cp := .b, mode := 2, runId := some 9, attenRun := some 9, slac := .sounding, attenSent := 3 }) (onLock 3 (fun l => { l with state := .locked, fb := true }) (onOwl (fun b => { b with state := .run, causes := [0, 0, 0, 0], meterLost := [false, false, false, false] }) up))), 3, by decide +kernel⟩,
    ⟨(onLink 3 (fun l => { l with cp := .b, mode := 2, runId := some 9, attenRun := some 9, slac := .sounding }) (onLock 3 (fun l => { l with state := .locked, fb := true }) (onOwl (fun b => { b with state := .run, causes := [0, 0, 0, 0], meterLost := [false, false, false, false] }) up))), 3, 9, 3, by decide +kernel⟩,
    ⟨(onLink 3 (fun l => { l with cp := .b, mode := 2, runId := some 9, attenRun := some 9, slac := .validating, window := some { want := 3, count := 3, mark := none } }) (onLock 3 (fun l => { l with state := .locked, fb := true }) (onOwl (fun b => { b with state := .run, causes := [0, 0, 0, 0], meterLost := [false, false, false, false] }) up))), 3, 9, false, { want := 3, count := 3, mark := none }, by decide +kernel⟩,
    ⟨(onLink 3 (fun l => { l with cp := .b, mode := 2, runId := some 9, attenRun := some 9, slac := .validating }) (onLock 3 (fun l => { l with state := .locked, fb := true }) (onOwl (fun b => { b with state := .run, causes := [0, 0, 0, 0], meterLost := [false, false, false, false] }) up))), 3, 9, by decide +kernel⟩,
    ⟨(onLink 3 (fun l => { l with cp := .b, mode := 2, runId := some 9, attenRun := some 9, slac := .joining }) (onLock 3 (fun l => { l with state := .locked, fb := true }) (onOwl (fun b => { b with state := .run, causes := [0, 0, 0, 0], meterLost := [false, false, false, false] }) up))), 3, by decide +kernel⟩,
    ⟨(onLink 3 (fun l => { l with cp := .b, mode := 2, runId := some 9, attenRun := some 9, slac := .waitParm }) (onLock 3 (fun l => { l with state := .locked, fb := true }) (onOwl (fun b => { b with state := .run, causes := [0, 0, 0, 0], meterLost := [false, false, false, false] }) up))), 3, by decide +kernel⟩,
    ⟨(onLink 3 (fun l => { l with cp := .b, mode := 2, runId := some 9, attenRun := some 9, slac := .matched }) (onLock 3 (fun l => { l with state := .locked, fb := true }) (onOwl (fun b => { b with state := .run, causes := [0, 0, 0, 0], meterLost := [false, false, false, false] }) up))), 3, by decide +kernel⟩⟩

theorem test_hyp_TimeBaseCommandsEffect :
    (∃ (s : State) (r : Req) (d x : Nat), s.Inv ∧ d < 2 ∧ x % 2 ^ 30 < 1000000000 ∧ secInRange (x / 2 ^ 30) = true)
    ∧ (∃ (s : State) (r : Req) (d : Nat) (x : Int), s.Inv ∧ d < 2 ∧ (domOf s d).state ≠ .free ∧ 0 ≤ (domOf s d).t + (x * 2 ^ 28 + (domOf s d).slew) ∧ secInRange (((domOf s d).t + (x * 2 ^ 28 + (domOf s d).slew)).toNat / 2 ^ 28 / 1000000000) = true ∧ (x * 2 ^ 28 + (domOf s d).slew).natAbs < stepLimit)
    ∧ (∃ (s : State) (r : Req) (d : Nat), d < 2 ∧ d ≠ s.tim.sel ∧ s.tim.selPend = none)
    ∧ (∃ (s : State) (d : Nat), s.Inv ∧ d < 2 ∧ (domOf s d).state = .sync)
    ∧ (∃ (s : State) (d : Nat), s.Inv ∧ d < 2)
    ∧ (∃ (s : State) (d : Nat), s.tim.converging = true)
    ∧ (∃ (s : State), s.Inv ∧ s.tim.alarmEn = true)
    ∧ (∃ (s : State), s.Inv ∧ s.sys.reset = none ∧ s.sys.entry = none ∧ s.sys.mode ≠ .dormant ∧ s.sys.mode ≠ .watch) :=
  ⟨⟨up, rq, 1, 999999999, by decide +kernel⟩,
    ⟨(onDom 1 (fun d => { d with state := .sync }) up), rq, 1, 1, by decide +kernel⟩,
    ⟨up, rq, 1, by decide +kernel⟩,
    ⟨(onDom 1 (fun d => { d with state := .sync }) up), 1, by decide +kernel⟩,
    ⟨(onDom 1 (fun d => { d with state := .sync }) up), 1, by decide +kernel⟩,
    ⟨(onTim (fun b => { b with converging := true }) up), 0, by decide +kernel⟩,
    ⟨(onTim (fun b => { b with alarmEn := true }) up), by decide +kernel⟩,
    ⟨up, by decide +kernel⟩⟩

theorem test_hyp_TickIncrementsAreBounded :
    (∃ (s : State) (d : Nat) (w : Word), s.Inv ∧ d < 2)
    ∧ (∃ (s : State) (b : BootInput) (h : ResetHold) (d : Nat), s.Inv ∧ d < 2 ∧ s.sys.reset = some h ∧ h.pin = false ∧ s.sys.held = false ∧ s.sys.holdup = false) :=
  ⟨⟨up, 1, 2186717866, by decide +kernel⟩,
    ⟨risen, bootIn, { cold := true, causes := 4, pin := false }, 1, by decide +kernel⟩⟩

theorem test_hyp_TimeSettingsAreBounded :
    (∃ (n : Nat), n / 1000000000 < 198692 * 86400)
    ∧ (∃ (s : State) (r : Req) (d x : Nat), 198692 * 86400 ≤ x / 2 ^ 30)
    ∧ (∃ (s : State) (r : Req) (d : Nat) (x : Int), ((domOf s d).t + (x * 2 ^ 28 + (domOf s d).slew) < 0 ∨ 198692 * 86400 ≤ ((domOf s d).t + (x * 2 ^ 28 + (domOf s d).slew)).toNat / 2 ^ 28 / 1000000000))
    ∧ (∃ (s : State) (r : Req) (d x : Nat), d < 2 ∧ x % 2 ^ 30 < 1000000000 ∧ x / 2 ^ 30 < 198692 * 86400) :=
  ⟨⟨(198692 * 86400 * 1000000000 - 1), by decide +kernel⟩,
    ⟨up, rq, 0, (198692 * 86400 * 2 ^ 30), by decide +kernel⟩,
    ⟨up, rq, 1, (-1), by decide +kernel⟩,
    ⟨up, rq, 1, ((198692 * 86400 - 1) * 2 ^ 30 + 999999999), by decide +kernel⟩⟩

theorem test_hyp_SupplyAndResetCommandsEffect :
    (∃ (s : State) (v : Bool) (mv : Nat) (l : List (Nat × IntervalInput)), s.Inv ∧ s.sys.pfail = false ∧ s.sys.mode ≠ .dormant ∧ (v = false ∨ mv < s.sys.warnMv))
    ∧ (∃ (s : State) (n : Nat), s.Inv ∧ s.sys.holdup = true ∧ (s.sys.reset.isSome = true ∨ framesRun s = false))
    ∧ (∃ (s : State), s.Inv)
    ∧ (∃ (s : State) (k : Nat), s.Inv ∧ (k < 4 ∨ k = 7 ∨ k = 9) ∧ (s.sys.mode ≠ .dormant ∨ s.sys.reset.isSome = true))
    ∧ (∃ (s : State), s.Inv)
    ∧ (∃ (s : State) (w : Word), field w.toNat 31 24 = 0xA5 ∧ s.sys.booted = true ∧ s.sys.pfail = false ∧ s.sys.reqReset = none)
    ∧ (∃ (s : State) (c : Bool) (k : Nat), s.Inv ∧ s.sys.reqReset = some (c, k) ∧ resetReady s = true ∧ s.sys.reset = none) :=
  ⟨⟨up, false, 0, [], by decide +kernel⟩,
    ⟨(onSys (fun b => { b with holdup := true }) up), 0, by decide +kernel⟩,
    ⟨up, by decide +kernel⟩,
    ⟨up, 9, by decide +kernel⟩,
    ⟨up, by decide +kernel⟩,
    ⟨up, 0xA5000001, by decide +kernel⟩,
    ⟨(onSys (fun b => { b with reqReset := some (true, 0) }) up), true, 0, by decide +kernel⟩⟩

theorem test_hyp_RequestedColdResetIsConfined :
    (∃ (s : State) (w : Word), field w.toNat 1 0 = 2 ∧ s.sys.mode ≠ .maintenance)
    ∧ (∃ (s : State) (w : Word), field w.toNat 31 24 ≠ 0xA5)
    ∧ (∃ (s : State) (k : Nat), s.Inv ∧ s.sys.reqReset = some (true, k) ∧ resetReady s = true)
    ∧ (∃ (s : State), s.Inv)
    ∧ (∃ (s : State) (b : BootInput) (h : ResetHold), s.Inv ∧ s.sys.reset = some h ∧ h.cold = true ∧ h.pin = false ∧ s.sys.held = false ∧ s.sys.holdup = false) :=
  ⟨⟨up, 0xA5000002, by decide +kernel⟩,
    ⟨up, 0x5A000001, by decide +kernel⟩,
    ⟨(onSys (fun b => { b with reqReset := some (true, 0) }) up), 0, by decide +kernel⟩,
    ⟨up, by decide +kernel⟩,
    ⟨risen, bootIn, { cold := true, causes := 4, pin := false }, by decide +kernel⟩⟩

theorem test_hyp_FrameRingCommandsEffect :
    (∃ (s : State) (p : Port) (w : Word), s.Inv ∧ portOk p = true ∧ portThere s p = true)
    ∧ (∃ (s : State) (p : Port) (x : Nat), s.Inv ∧ portOk p = true ∧ p ≠ .glk ∧ served s p = true ∧ txOwned s p = true ∧ txRefusal s p = none ∧ (ringsOf s p).txTail = ((ringsOf s p).txHead + 1) % 128)
    ∧ (∃ (s : State) (x : Nat), s.Inv ∧ served s .glk = true ∧ txOwned s .glk = true ∧ txRefusal s .glk = none ∧ efdomQueued s .glk = false ∧ isGroup (sramAt s (descBuf s (txDesc s .glk)) (descLen s (txDesc s .glk))) = false)
    ∧ (∃ (s : State) (x : Nat), s.Inv ∧ served s .glk = true ∧ txOwned s .glk = true ∧ txRefusal s .glk = none ∧ efdomQueued s .glk = false ∧ isGroup (sramAt s (descBuf s (txDesc s .glk)) (descLen s (txDesc s .glk))) = true ∧ isGroup (sramAt s (descBuf s (txDesc s .glk)) 6) = true ∧ (ringsOf s .glk).txTail = ((ringsOf s .glk).txHead + 1) % 128)
    ∧ (∃ (s : State) (p : Port) (f : RxFrame), s.Inv ∧ portOk p = true ∧ served s p = true ∧ Passes s f p ∧ rxOwned s p = true ∧ f.bytes.length ≤ 1518 ∧ f.bytes.length ≤ descLen s (rxDesc s p) ∧ (descBuf s (rxDesc s p) + f.bytes.length ≤ rxDesc s p + 4 ∨ rxDesc s p + 14 ≤ descBuf s (rxDesc s p)))
    ∧ (∃ (s : State) (p : Port) (f : RxFrame), s.Inv ∧ portOk p = true ∧ served s p = true ∧ Passes s f p ∧ rxOwned s p = false ∧ f.bytes.length ≤ 1518) :=
  ⟨⟨up, (.can 1), 127, by decide +kernel⟩,
    ⟨wire, .eth, 0, by decide +kernel⟩,
    ⟨(onGlk (fun b => { b with assoc := .member, en := true, rings := { b.rings with txTail := 1 } }) { up with sram := memWriteN [] 0 [0, 1, 0, 0, 14, 0, 1, 0] }), 0, by decide +kernel⟩,
    ⟨(onGlk (fun b => { b with assoc := .member, en := true, rings := { b.rings with txTail := 1 } }) { up with sram := memWriteN [] 0 ([0, 1, 0, 0, 14, 0, 1, 0] ++ (zeros 248) ++ (List.replicate 6 255)) }), 0, by decide +kernel⟩,
    ⟨wire, .eth, { bytes := List.replicate 60 0, mme := false, bad := false, cap := 0, src := 0, ts := 0, key := .plain, sound := false, mpdu := none }, by unfold Passes; decide +kernel⟩,
    ⟨(onEth (fun b => { b with rings := { b.rings with rxTail := 0 } }) wire), .eth, { bytes := List.replicate 60 0, mme := false, bad := false, cap := 0, src := 0, ts := 0, key := .plain, sound := false, mpdu := none }, by unfold Passes; decide +kernel⟩⟩

theorem test_hyp_CanControllerCommandsEffect :
    (∃ (s : State) (c : Nat), s.Inv ∧ portThere s (.can c) = true)
    ∧ (∃ (s : State) (c : Nat) (b : Bool), s.Inv ∧ portThere s (.can c) = true ∧ (canOf s c).state = .busOff ∧ (b = true ∨ (canOf s c).autorec = true))
    ∧ (∃ (s : State) (c x y : Nat), s.Inv ∧ portThere s (.can c) = true ∧ canOn (canOf s c) = true) :=
  ⟨⟨(onCan 1 (fun x => { x with state := .active }) up), 1, by decide +kernel⟩,
    ⟨(onCan 1 (fun x => { x with state := .busOff }) up), 1, true, by decide +kernel⟩,
    ⟨(onCan 1 (fun x => { x with state := .passive }) up), 1, 128, 0, by decide +kernel⟩⟩

theorem test_hyp_GridLinkCommandsEffect :
    (∃ (s : State) (b : Beacon), glkOn s = true ∧ hasNmk s = true ∧ b.nid = ownNid s ∧ s.glk.assoc = .search)
    ∧ (∃ (s : State) (n : Nat), s.glk.assoc = .assoc ∧ s.glk.backingOff = false)
    ∧ (∃ (s : State) (k : Bytes), s.glk.assoc = .auth ∧ s.glk.backingOff = false)
    ∧ (∃ (s : State), s.glk.assoc = .assoc ∧ s.glk.backingOff = false)
    ∧ (∃ (s : State), s.glk.backingOff = true)
    ∧ (∃ (s : State), s.glk.assoc = .member)
    ∧ (∃ (s : State), s.glk.assoc = .member)
    ∧ (∃ (s : State) (w : Word), blockBit s 4 = true)
    ∧ (∃ (s : State) (e : Nat) (x : ToneMap) (n : Neighbour), nbOf s e = some n ∧ n.tm = .estimating)
    ∧ (∃ (s : State) (e : Nat) (n : Neighbour), nbOf s e = some n ∧ n.tm = .active ∧ n.reest = false)
    ∧ (∃ (s : State) (k : Sack) (m : Msdu), s.glk.msdu = some m ∧ m.tei = k.tei)
    ∧ (∃ (s : State), s.glk.msdu.isSome = true)
    ∧ (∃ (s : State), s.glk.assoc = .member)
    ∧ (∃ (s : State) (e a : Nat) (b : Bytes) (n : Neighbour), glkOn s = true ∧ s.glk.assoc = .member ∧ b.length = 20 ∧ nbOf s e = some n)
    ∧ (∃ (s : State) (f : RxFrame) (m : RxMpdu), portThere s .glk = true ∧ s.sys.mode ≠ .watch ∧ s.sys.mode ≠ .dormant ∧ s.glk.assoc = .member ∧ f.sound = false ∧ f.mpdu = some m ∧ m.group = false) :=
  ⟨⟨member, { nid := ownNid member, tei := 1, mac := 0, discover := [], period := 0, bts := 0, crossing := none, released := false }, ⟨by decide +kernel, by decide +kernel, rfl, by decide +kernel⟩⟩,
    ⟨(onGlk (fun b => { b with assoc := .assoc, backingOff := false }) up), 255, by decide +kernel⟩,
    ⟨(onGlk (fun b => { b with assoc := .auth, backingOff := false }) up), [], by decide +kernel⟩,
    ⟨(onGlk (fun b => { b with assoc := .assoc, backingOff := false }) up), by decide +kernel⟩,
    ⟨(onGlk (fun b => { b with backingOff := true }) up), by decide +kernel⟩,
    ⟨(onGlk (fun b => { b with assoc := .member }) up), by decide +kernel⟩,
    ⟨(onGlk (fun b => { b with assoc := .member }) up), by decide +kernel⟩,
    ⟨up, 0, by decide +kernel⟩,
    ⟨(onGlk (fun b => { b with nbs := [{ (default : Neighbour) with tei := 255, tm := .estimating }] }) up), 255, { rate := 0, maps := [] }, { (default : Neighbour) with tei := 255, tm := .estimating }, by decide +kernel⟩,
    ⟨(onGlk (fun b => { b with nbs := [{ (default : Neighbour) with tei := 255, tm := .active }] }) up), 255, { (default : Neighbour) with tei := 255, tm := .active }, by decide +kernel⟩,
    ⟨(onGlk (fun b => { b with msdu := some { tei := 255, pbs := [(1, false)] } }) up), { tei := 255, ok := [true], region := 0, offset := 0 }, { tei := 255, pbs := [(1, false)] }, by decide +kernel⟩,
    ⟨(onGlk (fun b => { b with msdu := some { tei := 255, pbs := [(1, false)] } }) up), by decide +kernel⟩,
    ⟨(onGlk (fun b => { b with assoc := .member }) up), by decide +kernel⟩,
    ⟨(onGlk (fun b => { b with en := true, assoc := .member, nbs := [{ (default : Neighbour) with tei := 255, tm := .active }] }) up), 255, 0, (List.replicate 20 0), { (default : Neighbour) with tei := 255, tm := .active }, by decide +kernel⟩,
    ⟨(onGlk (fun b => { b with assoc := .member }) up), { bytes := [], mme := false, bad := false, cap := 0, src := 7, ts := 0, key := .current, sound := false, mpdu := some { seq := 0, total := 1, group := false, pbs := [] } }, { seq := 0, total := 1, group := false, pbs := [] }, by decide +kernel⟩⟩

theorem test_hyp_EthernetAndBackhaulCommandsEffect :
    (∃ (s : State) (u f d : Bool), blockBit s 5 = true ∧ s.eth.en = true ∧ s.sys.mode ≠ .watch ∧ s.sys.mode ≠ .dormant)
    ∧ (∃ (s : State) (w : Word), blockBit s 5 = true ∧ s.eth.go = false)
    ∧ (∃ (s : State) (x : Nat), s.eth.go = true)
    ∧ (∃ (s : State), s.glk.backhaul = 2) :=
  ⟨⟨(onEth (fun b => { b with en := true }) up), true, true, true, by decide +kernel⟩,
    ⟨(onEth (fun b => { b with go := false }) up), 0, by decide +kernel⟩,
    ⟨(onEth (fun b => { b with go := true }) up), 0xFFFF, by decide +kernel⟩,
    ⟨(onGlk (fun b => { b with backhaul := 2 }) up), by decide +kernel⟩⟩

theorem test_hyp_ReaderAndCacheCommandsEffect :
    (∃ (s : State) (x : Nat), readerOn s = true ∧ s.tag.held = none ∧ s.tag.reader ≠ .yielding)
    ∧ (∃ (s : State), readerOn s = true ∧ s.tag.offBase = 3)
    ∧ (∃ (s : State) (p : PollInput), readerPolls s = true ∧ p.foreign = true)
    ∧ (∃ (s : State) (p : PollInput) (g : TagFound), readerPolls s = true ∧ p.foreign = false ∧ p.tags = [g] ∧ techOn s g.tech = true ∧ stillThere s g = false ∧ s.tag.reports.length < 16)
    ∧ (∃ (s : State), s.tag.held.isSome = true)
    ∧ (∃ (s : State) (r : Req), readerThere s = true ∧ s.tag.held.isSome = true)
    ∧ (∃ (s : State) (r : Req) (b : Bytes), readerThere s = true ∧ r.side = .cluster ∧ s.sys.mode ≠ .limp ∧ b.length = 14)
    ∧ (∃ (s : State) (r : Req) (k : Nat), readerThere s = true ∧ r.side = .cluster ∧ s.sys.mode ≠ .limp)
    ∧ (∃ (s : State) (r : Req) (k : Nat), readerThere s = true)
    ∧ (∃ (s : State), badgerUp s = true ∧ s.tag.mirrorPend = true)
    ∧ (∃ (s : State), readerThere s = true ∧ s.tag.loaded = false ∧ s.sys.reset = none) :=
  ⟨⟨(onTag (fun b => { b with en := true, held := none }) up), 0, by decide +kernel⟩,
    ⟨(onTag (fun b => { b with en := true, held := none, offBase := 3 }) up), by decide +kernel⟩,
    ⟨(onTag (fun b => { b with en := true, held := none }) up), { foreign := true, tags := [], rxErr := 0 }, by decide +kernel⟩,
    ⟨(onTag (fun b => { b with en := true, held := none, techV := true }) up), { foreign := false, tags := [{ tech := 3, uid := [1, 2, 3, 4, 5, 6, 7, 8], param := 0, answer := none, slot := 0, iso4 := false, unsupported := false }], rxErr := 0 }, { tech := 3, uid := [1, 2, 3, 4, 5, 6, 7, 8], param := 0, answer := none, slot := 0, iso4 := false, unsupported := false }, by decide +kernel⟩,
    ⟨(onTag (fun b => { b with held := some (3, [1]) }) up), by decide +kernel⟩,
    ⟨(onTag (fun b => { b with held := some (3, [1]) }) up), rq, by decide +kernel⟩,
    ⟨up, rqc, (List.replicate 14 0), by decide +kernel⟩,
    ⟨up, rqc, 0, by decide +kernel⟩,
    ⟨up, rq, 0, by decide +kernel⟩,
    ⟨(onTag (fun b => { b with mirrorPend := true }) up), by decide +kernel⟩,
    ⟨(onTag (fun b => { b with loaded := false }) up), by decide +kernel⟩⟩

theorem test_hyp_CommissioningTagCommandsEffect :
    (∃ (s : State) (r : Req), s.Inv ∧ s.key.lc ≠ .retired ∧ (accessSlot s).isSome = true ∧ s.tag.ctState ≠ .secured)
    ∧ (∃ (s : State) (r : Req), s.Inv ∧ s.key.lc ≠ .service ∧ s.key.lc ≠ .retired)
    ∧ (∃ (s : State) (r : Req) (b : Bytes), s.Inv ∧ b.length ≤ 128 ∧ s.tag.field = false)
    ∧ (∃ (s : State) (r : Req), s.Inv ∧ s.tag.field = false ∧ leAt 0 4 (ctBlock s 8).data = 0x41524541 ∧ 1 ≤ areaLen s ∧ areaLen s ≤ 247 ∧ (ctBlock s 8).ok = true ∧ ((∀ n ∈ areaBlocks s, (ctBlock s n).ok = true)) ∧ crc32c (areaBytes s) = leAt 12 4 (ctBlock s 8).data ∧ s.tag.adoptSeq < areaSeq s)
    ∧ (∃ (s : State) (a n : Nat), s.tag.field = true ∧ n ≠ 0 ∧ a + n ≤ 256 ∧ ((∀ k, a ≤ k → k < a + n → (ctBlock s k).ok = true)))
    ∧ (∃ (s : State) (a : Nat) (d l : Bytes), s.Inv ∧ s.tag.field = true ∧ d.length = 32 ∧ 8 ≤ a ∧ a ≤ 255)
    ∧ (∃ (s : State), s.tag.field = true ∧ s.tag.challengeLock = false)
    ∧ (∃ (s : State) (a t0 : Nat) (d mac c k : Bytes), s.Inv ∧ s.tag.field = true ∧ d.length = 32 ∧ mac.length = 8 ∧ 8 ≤ a ∧ a ≤ 255 ∧ s.tag.ctState = .secured ∧ s.tag.challenge = some (c, t0) ∧ accessKey s = some k ∧ s.ticks - t0 ≤ msTicks 1000) :=
  ⟨⟨(onKey (fun b => { b with slots := put b.slots 31 { KeySlot.fresh with ktype := 1, usage := 0x2010, loaded := true, material := [1] } }) up), rq, by decide +kernel⟩,
    ⟨up, rq, by decide +kernel⟩,
    ⟨up, rq, (List.replicate 128 0), by decide +kernel⟩,
    ⟨area, rq, by decide +kernel⟩,
    ⟨intact, 0, 256, ⟨by decide +kernel, by decide +kernel, by decide +kernel, by intro k h1 h2; exact intact_ok k h2⟩⟩,
    ⟨(onTag (fun b => { b with field := true }) up), 255, (List.replicate 32 0), [], by decide +kernel⟩,
    ⟨(onTag (fun b => { b with field := true, challengeLock := false }) up), by decide +kernel⟩,
    ⟨(onTag (fun b => { b with field := true, ctState := .secured, challenge := some ([9], 0) }) (onKey (fun b => { b with slots := put b.slots 31 { KeySlot.fresh with ktype := 1, usage := 0x2010, loaded := true, material := [1] } }) up)), 255, 0, (List.replicate 32 0), (List.replicate 8 0), [9], [1], by decide +kernel⟩⟩

theorem test_hyp_DisplayAndLedCommandsEffect :
    (∃ (s : State) (w : Word), epdThere s = true)
    ∧ (∃ (s : State) (r : Req) (g fl : Nat) (b tbl : Bytes) (x : RegionRec) (k : Nat), s.Inv ∧ epdThere s = true ∧ regionRec s g = some x ∧ g ≠ 15 ∧ b.length = 4 * ((x.segs.length + 15) / 16) ∧ s.epd.table = some tbl ∧ ((∀ y ∈ targetsOf x.segs.length b, y < tblStates tbl)) ∧ ((s.sys.mode ≠ .limp ∨ r.side ≠ .cluster)) ∧ bandOf tbl (if s.epd.tempRange then none else some s.epd.band) (temp6 s) = some k ∧ x.segs.Nodup ∧ ((∀ i ∈ x.segs, i < 160)))
    ∧ (∃ (s : State) (r : Req) (g fl : Nat) (b : Bytes) (x : RegionRec), epdThere s = true ∧ regionRec s g = some x ∧ g ≠ 15 ∧ b.length = 4 * ((x.segs.length + 15) / 16) ∧ s.epd.table = none)
    ∧ (∃ (s : State), framesRun s = true ∧ s.sys.pfail = false)
    ∧ (∃ (s : State) (g : RegionRec) (tbl : Bytes) (k : Nat), regionRec s 15 = some g ∧ epdThere s = true ∧ s.met.run = true ∧ s.sys.mode ≠ .watch ∧ s.sys.mode ≠ .dormant ∧ s.epd.stopped = false ∧ s.epd.table = some tbl ∧ bandOf tbl (if s.epd.tempRange then none else some s.epd.band) (temp6 s) = some k)
    ∧ (∃ (s : State), framesRun s = true ∧ s.sys.pfail = true)
    ∧ (∃ (s : State) (k : Nat), ledsOn s = true ∧ k < 4 ∧ k < s.epd.ledStep.length)
    ∧ (∃ (s : State) (n : Nat) (b : Bool), s.Inv ∧ n < 12 ∧ (ledRec s n).isSome = true)
    ∧ (∃ (s : State) (x : Nat) (f : Bool), epdThere s = false)
    ∧ (∃ (s : State) (x : Nat) (f : Bool), s.Inv ∧ epdThere s = true) :=
  ⟨⟨up, 0xFFFF, by decide +kernel⟩,
    ⟨(onEpd (fun b => { b with on := true, en := true, stopped := false, table := some table }) (onMet (fun b => { b with run := true, stopped := false }) up)), rq, 0, 0, [1, 0, 0, 0], table, { region := 0, common := 0, segs := [8] }, 0, by decide +kernel⟩,
    ⟨(onEpd (fun b => { b with table := none }) up), rq, 0, 0, [1, 0, 0, 0], { region := 0, common := 0, segs := [8] }, by decide +kernel⟩,
    ⟨(onSys (fun b => { b with pfail := false }) (onEpd (fun b => { b with on := true, en := true, stopped := false, table := some table }) (onMet (fun b => { b with run := true, stopped := false }) up))), by decide +kernel⟩,
    ⟨(onEpd (fun b => { b with on := true, en := true, stopped := false, table := some table }) (onMet (fun b => { b with run := true, stopped := false }) up)), { region := 15, common := 0, segs := [0, 1, 2, 3, 4, 5, 6] }, table, 0, by decide +kernel⟩,
    ⟨(onSys (fun b => { b with pfail := true }) (onEpd (fun b => { b with on := true, en := true, stopped := false, table := some table }) (onMet (fun b => { b with run := true, stopped := false }) up))), by decide +kernel⟩,
    ⟨(onEpd (fun b => { b with ledStep := [0, 0, 0, 0] }) up), 3, by decide +kernel⟩,
    ⟨up, 11, true, by decide +kernel⟩,
    ⟨State.reset, 0, false, by decide +kernel⟩,
    ⟨up, 0, false, by decide +kernel⟩⟩

theorem test_hyp_KeyCommandsEffect :
    (∃ (s : State) (r : Req) (m : Bytes), s.Inv)
    ∧ (∃ (s : State) (r : Req), s.key.lc = .maintenance ∧ s.key.rngFail = false ∧ s.key.challenges.length = 2)
    ∧ (∃ (s : State) (r : Req) (b : Bytes), b.length = 64 ∧ s.key.lc ≠ .retired)
    ∧ (∃ (s : State) (r : Req), (s.key.lc = .provisioned ∨ s.key.lc = .service))
    ∧ (∃ (s : State) (r : Req) (m n : Nat), s.Inv ∧ s.key.lc = .maintenance ∧ hasAuthority s r.side = true ∧ s.key.rngFail = false ∧ m < 2 ^ 32 ∧ field m 2 0 = 0 ∧ n < 32 ∧ bitAt m n = true)
    ∧ (∃ (s : State) (r : Req) (b : Bytes), b.length = 32 ∧ (s.key.lc = .retired ∨ (slotOf s 1).loaded = true))
    ∧ (∃ (s : State) (r : Req), s.key.certBad = false)
    ∧ (∃ (s : State), s.key.lc = .maintenance ∧ s.key.grant.isSome = true)
    ∧ (∃ (s : State) (d : Nat), s.Inv ∧ d < 7 ∧ s.sys.reset = none ∧ s.sys.mode ≠ .dormant ∧ s.sys.mode ≠ .watch) :=
  ⟨⟨up, rq, [], by decide +kernel⟩,
    ⟨(onKey (fun b => { b with lc := .maintenance, challenges := [none, none] }) up), rq, by decide +kernel⟩,
    ⟨up, rq, (zeros 64), by decide +kernel⟩,
    ⟨(onKey (fun b => { b with lc := .service }) up), rq, by decide +kernel⟩,
    ⟨(onKey (fun b => { b with lc := .maintenance, authority := some (.host, 1) }) up), rq, 0x80000000, 31, by decide +kernel⟩,
    ⟨(onKey (fun b => { b with lc := .retired }) up), rq, (zeros 32), by decide +kernel⟩,
    ⟨up, rq, by decide +kernel⟩,
    ⟨(onKey (fun b => { b with lc := .maintenance, grant := some { key := [], seconds := 1 } }) up), by decide +kernel⟩,
    ⟨up, 6, by decide +kernel⟩⟩

theorem test_hyp_UpdateCommandsEffect :
    (∃ (s : State) (r : Req) (h : Bytes), s.Inv ∧ s.sys.badgerDown = false)
    ∧ (∃ (s : State) (r : Req) (b : Bytes) (x : Transfer), s.sys.badgerDown = false ∧ s.upd.xfer = some x ∧ b ≠ [] ∧ b.length ≤ 4096 ∧ x.data.length + b.length ≤ leAt 0x14 4 x.header + 16 ∧ s.sys.mode ≠ .limp)
    ∧ (∃ (s : State) (r : Req) (x : Transfer), s.Inv ∧ s.sys.badgerDown = false ∧ s.upd.xfer = some x ∧ 1 ≤ x.kind ∧ x.kind < 10 ∧ leAt 0x14 4 x.header + 16 ≤ x.data.length ∧ s.sys.mode ≠ .limp)
    ∧ (∃ (s : State) (r : Req), s.sys.badgerDown = false ∧ s.upd.xfer.isSome = true)
    ∧ (∃ (s : State) (r : Req) (k : Nat), s.Inv ∧ s.sys.badgerDown = false ∧ 5 ≤ k ∧ k ≤ 8 ∧ s.key.lc ≠ .retired ∧ (otherBank s k).state = .staged ∧ fitsRunning s [] k (otherBank s k) = true ∧ settingsFit s k (otherBank s k) = true ∧ (s.sys.mode = .ready ∨ s.sys.mode = .maintenance) ∧ anySession s = false ∧ s.upd.trial = none ∧ s.upd.xfer = none ∧ anyActivation s = false)
    ∧ (∃ (s : State) (r : Req) (x : Trial), s.sys.badgerDown = false ∧ s.upd.trial = some x ∧ x.kind = 5 ∧ r.side = .cluster)
    ∧ (∃ (s : State) (x : Trial), s.Inv ∧ s.upd.trial = some x ∧ (x.kind ≠ 5 ∨ x.confirmed = true))
    ∧ (∃ (s : State) (c : Nat) (x : Trial), s.Inv ∧ s.upd.trial = some x ∧ 1 ≤ x.kind ∧ x.kind ≤ 10) :=
  ⟨⟨up, rq, [], by decide +kernel⟩,
    ⟨(onUpd (fun b => { b with xfer := some { kind := 9, header := [], data := [], cek := [], tick := 0 } }) up), rq, (zeros 16), { kind := 9, header := [], data := [], cek := [], tick := 0 }, by decide +kernel⟩,
    ⟨(onUpd (fun b => { b with xfer := some { kind := 9, header := [], data := zeros 16, cek := [], tick := 0 } }) up), rq, { kind := 9, header := [], data := zeros 16, cek := [], tick := 0 }, by decide +kernel⟩,
    ⟨(onUpd (fun b => { b with xfer := some { kind := 9, header := [], data := [], cek := [], tick := 0 } }) up), rq, by decide +kernel⟩,
    ⟨(onKind 8 (fun d => { d with b := { Bank.fresh with state := .staged } }) up), rq, 8, by decide +kernel⟩,
    ⟨(onUpd (fun b => { b with trial := some { kind := 5, parts := [], seconds := 0, starts := 0, confirmed := false, sealChange := false } }) up), rqc, { kind := 5, parts := [], seconds := 0, starts := 0, confirmed := false, sealChange := false }, by decide +kernel⟩,
    ⟨(onUpd (fun b => { b with trial := some { kind := 10, parts := [], seconds := 0, starts := 0, confirmed := false, sealChange := false } }) up), { kind := 10, parts := [], seconds := 0, starts := 0, confirmed := false, sealChange := false }, by decide +kernel⟩,
    ⟨(onUpd (fun b => { b with trial := some { kind := 10, parts := [], seconds := 0, starts := 0, confirmed := false, sealChange := false } }) up), 0, { kind := 10, parts := [], seconds := 0, starts := 0, confirmed := false, sealChange := false }, by decide +kernel⟩⟩

theorem test_hyp_WarrenActivationEffect :
    (∃ (s : State) (r : Req), s.sys.badgerDown = false ∧ (anyActivation s = true ∨ s.lane.warm ≠ []))
    ∧ (∃ (s : State) (r : Req), s.sys.badgerDown = false ∧ anyActivation s = false ∧ s.lane.warm = [])
    ∧ (∃ (s : State) (a : Activation) (r : Req), s.Inv ∧ a.copy < 2 ∧ s.str.act = some a ∧ a.req = some r) :=
  ⟨⟨(onUpd (fun b => { b with actBusy := true }) up), rq, by decide +kernel⟩,
    ⟨up, rq, by decide +kernel⟩,
    ⟨(onStr (fun b => { b with act := some { req := some rq, copy := 1, side := .host } }) up), { req := some rq, copy := 1, side := .host }, rq, by decide +kernel⟩⟩

theorem test_hyp_BadgerCommandsEffect :
    (∃ (s : State), s.Inv ∧ s.sys.booted = true ∧ s.sys.badgerDown = false ∧ s.sys.mode ≠ .watch ∧ s.sys.mode ≠ .dormant)
    ∧ (∃ (s : State) (w : Word), s.mgt.appHeld = false ∧ s.sys.badgerDown = false ∧ s.mgt.therm ≠ 4)
    ∧ (∃ (s : State) (c : Nat), s.Inv ∧ badgerUp s = true ∧ s.mgt.appHeld = false ∧ s.mgt.therm ≠ 4)
    ∧ (∃ (s : State) (r : Req), s.sys.badgerDown = false ∧ r.side = .host)
    ∧ (∃ (s : State), s.sys.badgerDown = true ∧ s.mgt.badgerHeld = false)
    ∧ (∃ (s : State) (b : Bool), s.Inv ∧ s.sys.reset = none ∧ s.sys.mode ≠ .dormant)
    ∧ (∃ (s : State) (m : MonitorInput), s.Inv ∧ badgerUp s = true)
    ∧ (∃ (s : State) (b : Bool), badgerUp s = true)
    ∧ (∃ (s : State) (r : Req) (a n : Nat), s.sys.badgerDown = false ∧ 1 ≤ n ∧ n ≤ 32)
    ∧ (∃ (s : State) (r : Req) (n : Nat), s.sys.badgerDown = false ∧ n ≤ s.mgt.seq) :=
  ⟨⟨up, by decide +kernel⟩,
    ⟨up, 0, by decide +kernel⟩,
    ⟨up, 0, by decide +kernel⟩,
    ⟨up, rq, by decide +kernel⟩,
    ⟨(onSys (fun b => { b with badgerDown := true }) up), by decide +kernel⟩,
    ⟨up, true, by decide +kernel⟩,
    ⟨up, { temps := [], supplies := [], outside := [], lfMissing := false }, by decide +kernel⟩,
    ⟨up, true, by decide +kernel⟩,
    ⟨up, rq, 0, 32, by decide +kernel⟩,
    ⟨(onMgt (fun b => { b with seq := 5 }) up), rq, 5, by decide +kernel⟩⟩

theorem test_hyp_SleepAndModeCommandsEffect :
    (∃ (s : State) (r : Req) (k : Nat), s.sys.badgerDown = false ∧ (k = 1 ∨ k = 2) ∧ s.sys.mode = .ready ∧ s.sys.entry = none ∧ ((k = 1 → outletMask s ≠ 0)))
    ∧ (∃ (s : State) (l : Nat) (e : SleepEntry), s.sys.entry = some e ∧ e.point = .prepare)
    ∧ (∃ (s : State) (e : SleepEntry), s.Inv ∧ s.sys.entry = some e ∧ e.point = .a1)
    ∧ (∃ (s : State) (e : SleepEntry), s.sys.entry = some e ∧ e.point = .saving)
    ∧ (∃ (s : State) (e : SleepEntry), s.Inv ∧ s.sys.entry = some e ∧ e.point = .armed)
    ∧ (∃ (s : State) (e : SleepEntry) (w : Nat), s.sys.entry = some e ∧ w ≠ 0)
    ∧ (∃ (s : State) (w : Nat) (b : Bool), s.Inv ∧ s.sys.entry = none ∧ s.sys.reset = none ∧ s.sys.mode = .watch ∧ Nat.land w s.sys.armed ≠ 0)
    ∧ (∃ (s : State) (w : Nat) (b : Bool), s.sys.entry = none ∧ s.sys.reset = none ∧ s.sys.mode = .dormant ∧ Nat.land w 0x3F ≠ 0 ∧ railsGood s = true)
    ∧ (∃ (s : State) (w : Word), s.Inv ∧ s.sys.entry = none ∧ s.sys.reset = none ∧ s.sys.mode = .watch ∧ Nat.land srcHsi s.sys.armed ≠ 0)
    ∧ (∃ (s : State) (b : Bytes), s.Inv ∧ blockBit s 4 = true ∧ b.length = 16 ∧ (leAt 0 8 b = 0 ∨ leAt 0 8 b = s.ident.deviceId) ∧ s.sys.mode = .watch ∧ s.sys.entry = none ∧ s.sys.reset = none ∧ s.glk.wakeArmed = true ∧ s.glk.wakeInhibit = false ∧ s.glk.wakeTick = none ∧ Nat.land srcGrid s.sys.armed ≠ 0)
    ∧ (∃ (s : State) (r : Req), s.sys.badgerDown = false ∧ (s.sys.mode = .ready ∨ s.sys.mode = .session) ∧ anySession s = false ∧ (s.key.lc = .blank ∨ s.key.lc = .provisioned ∨ s.key.lc = .recovery ∨ (s.key.lc = .maintenance ∧ hasAuthority s r.side = true)))
    ∧ (∃ (s : State) (r : Req), s.sys.badgerDown = false ∧ s.sys.mode = .maintenance ∧ s.str.noStruct = false)
    ∧ (∃ (s : State) (k : Nat), s.Inv ∧ s.sys.mode = .limp ∧ s.sys.badgerDown = false ∧ s.sys.appDown = false ∧ s.mgt.therm ≠ 4 ∧ s.mgt.hbSince = some k ∧ k + msTicks 10000 ≤ s.ticks)
    ∧ (∃ (s : State) (o : Nat) (hi lo : Int), s.Inv ∧ o < 4 ∧ s.sys.reset = none ∧ s.sys.mode ≠ .dormant ∧ linked s o = true) :=
  ⟨⟨up, rq, 1, by decide +kernel⟩,
    ⟨(onSys (fun b => { b with entry := some { req := rq, target := 2, point := .prepare } }) up), 0, { req := rq, target := 2, point := .prepare }, by decide +kernel⟩,
    ⟨(onSys (fun b => { b with entry := some { req := rq, target := 2, point := .a1 } }) up), { req := rq, target := 2, point := .a1 }, by decide +kernel⟩,
    ⟨(onSys (fun b => { b with entry := some { req := rq, target := 2, point := .saving } }) up), { req := rq, target := 2, point := .saving }, by decide +kernel⟩,
    ⟨(onSys (fun b => { b with entry := some { req := rq, target := 2, point := .armed } }) up), { req := rq, target := 2, point := .armed }, by decide +kernel⟩,
    ⟨(onSys (fun b => { b with entry := some { req := rq, target := 2, point := .prepare } }) up), { req := rq, target := 2, point := .prepare }, 1, by decide +kernel⟩,
    ⟨(onSys (fun b => { b with mode := .watch, armed := 0xFFFF }) up), 1, false, by decide +kernel⟩,
    ⟨(onSys (fun b => { b with mode := .dormant }) up), 0x20, true, by decide +kernel⟩,
    ⟨(onSys (fun b => { b with mode := .watch, armed := 0xFFFF }) up), 0, by decide +kernel⟩,
    ⟨(onSys (fun b => { b with mode := .watch, armed := 0xFFFF }) (onGlk (fun b => { b with wakeArmed := true }) up)), (zeros 16), by decide +kernel⟩,
    ⟨up, rq, by decide +kernel⟩,
    ⟨(onSys (fun b => { b with mode := .maintenance }) up), rq, by decide +kernel⟩,
    ⟨(onMgt (fun b => { b with hbSince := some 0 }) (onSys (fun b => { b with mode := .limp }) { up with ticks := msTicks 10000 })), 0, by decide +kernel⟩,
    ⟨up, 3, 0, 0, by decide +kernel⟩⟩

theorem test_hyp_HostInterfaceCommandsEffect :
    (∃ (s : State) (v : Side) (w : Word), s.Inv ∧ sideReady s v = true)
    ∧ (∃ (s : State) (v : Side) (w : Word) (d : Desc), s.Inv ∧ sideReady s v = true ∧ s.sys.entry = none ∧ w.toNat % 256 = ((ringOf s v).head + 1) % 256 ∧ d = readDesc ((ringOf s v).desc.getD ((ringOf s v).head % 128) []) ∧ d.tag ≤ 127 ∧ ((ringOf s v).slots.getD d.tag Slot.fresh).running = false ∧ descStatus s (ringOf s v) d = stsOk)
    ∧ (∃ (s : State) (v : Side) (w : Word), s.Inv ∧ sideReady s v = true)
    ∧ (∃ (s : State) (v : Side) (k : Nat), s.Inv ∧ sideReady s v = true ∧ k ≤ 127)
    ∧ (∃ (s : State) (v : Side) (a : Nat) (b : Bytes), s.Inv ∧ sideReady s v = true ∧ a % 4 = 0 ∧ b.length % 4 = 0 ∧ b ≠ [] ∧ b.length ≤ 4096 ∧ a + b.length ≤ halfSize)
    ∧ (∃ (s : State) (r : Req), ((ringOf s r.side).flight.any fun f => f.tag == r.tag && (cmdRow f.code).any fun row => row.who == .badger) = true)
    ∧ (∃ (s : State) (r : Req) (b : Bytes), b.length ≤ 8192) :=
  ⟨⟨up, .cluster, 128, by decide +kernel⟩,
    ⟨(onHsi (fun b => { b with h := { b.h with desc := put b.h.desc 0 ([4, 6, 127] ++ zeros 29) } }) up), .host, 1, (readDesc ([4, 6, 127] ++ zeros 29)), by decide +kernel⟩,
    ⟨up, .cluster, 127, by decide +kernel⟩,
    ⟨up, .host, 127, by decide +kernel⟩,
    ⟨up, .host, (halfSize - 4096), (zeros 4096), by decide +kernel⟩,
    ⟨(onHsi (fun b => { b with h := { b.h with flight := [{ tag := 127, code := 0x0101, params := [] }] } }) up), rq, by decide +kernel⟩,
    ⟨up, rq, (zeros 8192), by decide +kernel⟩⟩

theorem test_hyp_RegisterWritesReachTheirFields :
    (∃ (s : State) (v : Side) (a : Nat) (w : Word) (l : List Word), sideReady s v = true ∧ a % 4 = 0 ∧ l.length < 1024 ∧ a + 4 * (l.length + 1) ≤ 0x1000000)
    ∧ (∃ (s : State) (v : Side) (w : Word), sideReady s v = true)
    ∧ (∃ (s : State) (v : Side) (w : Word), sideReady s v = true)
    ∧ (∃ (s : State) (v : Side) (w : Word), sideReady s v = true)
    ∧ (∃ (s : State) (v : Side) (w : Word), sideReady s v = true)
    ∧ (∃ (s : State) (v : Side) (k : Nat) (w : Word), s.Inv ∧ sideReady s v = true ∧ k < 12 ∧ chDeclared s k = true)
    ∧ (∃ (s : State) (v : Side) (o : Nat) (w : Word), s.Inv ∧ sideReady s v = true ∧ o < 4 ∧ linked s o = true ∧ ((linkOf s o).sup = .idle ∨ (linkOf s o).sup = .connected))
    ∧ (∃ (s : State) (v : Side) (a : Nat) (w : Word), 0x160000 ≤ a)
    ∧ (∃ (s : State) (a : Nat) (w : Word), 0x151000 ≤ a ∧ a < 0x152000)
    ∧ (∃ (s : State) (v : Side) (a : Nat) (l : List Word), a % 4 ≠ 0)
    ∧ (∃ (s : State) (v : Side) (a : Nat) (w : Word), sideReady s v = false) :=
  ⟨⟨up, .host, 0xFFFFFC, 0, [], by decide +kernel⟩,
    ⟨up, .host, 0, by decide +kernel⟩,
    ⟨up, .host, 0, by decide +kernel⟩,
    ⟨up, .host, 0, by decide +kernel⟩,
    ⟨up, .host, 0, by decide +kernel⟩,
    ⟨up, .cluster, 7, 0, by decide +kernel⟩,
    ⟨(onLink 3 (fun l => { l with sup := .idle }) up), .cluster, 3, 0, by decide +kernel⟩,
    ⟨up, .host, 0x160000, 0, by decide +kernel⟩,
    ⟨up, 0x151FFC, 0, by decide +kernel⟩,
    ⟨up, .host, 2, [], by decide +kernel⟩,
    ⟨State.reset, .host, 0, 0, by decide +kernel⟩⟩

theorem test_hyp_PostingAResultWritesOnlyItsSlotAndBuffer :
    (∃ (s : State) (r : Req) (x d : Nat) (b : Bytes), s.Inv ∧ r.tag ≤ 127 ∧ ((ringOf s r.side).slots.getD r.tag Slot.fresh).running = true)
    ∧ (∃ (s : State) (r : Req) (x d : Nat) (b : Bytes), ((ringOf s r.side).slots.getD r.tag Slot.fresh).running = false) :=
  ⟨⟨(onHsi (fun b => { b with h := { b.h with slots := put b.h.slots 127 { Slot.fresh with running := true, rcap := 4 } } }) up), rq, 0, 0, [1, 2, 3, 4, 5], by decide +kernel⟩,
    ⟨up, rq, 0, 0, [], by decide +kernel⟩⟩

theorem test_hyp_EveryStepKeepsTheInvariant : up.Inv ∧ ∃ t, step { up with pending := [.laneStuck 39 true] } = .next t :=
  ⟨by decide +kernel, _, rfl⟩

theorem test_hyp_OnlyOwlsCycleReleasesAnOutlet :
    (∃ (c : Instr) (s t : State), c ≠ .owlCycle ∧ (∀ (o : Nat) (b : Bool), c ≠ .lockFeedback o b)
      ∧ (∀ (g : Nat) (b : Bool), c ≠ .guardInputChange g b) ∧ (∀ g k : Nat, c ≠ .guardDisagree g k) ∧ exec c s = .next t
      ∧ flag t.owl.released 3 = true)
    ∧ ∃ t, up.pending = [] ∧ step up = .next t :=
  ⟨⟨.calctlStop, onOwl (fun b => { b with released := List.replicate 4 true }) up, _, nofun, nofun, nofun, nofun, rfl, rfl⟩, _, rfl, rfl⟩

theorem test_hyp_SecurityMarksNeverFall :
    ∃ t, step { onKey (fun b => { b with retiredFuse := true, leftBlank := true }) up with pending := [.calctlStop] } = .next t
      ∧ t.key.retiredFuse = true ∧ t.key.leftBlank = true :=
  ⟨_, rfl, rfl, rfl⟩

theorem test_hyp_LaneFrames : ∃ t, exec (.laneStuck 39 true) up = .next t := ⟨_, rfl⟩

theorem test_hyp_MetrologyAndBillingFrames : ∃ t, exec (.calctlStop) up = .next t := ⟨_, rfl⟩

theorem test_hyp_PowerFrames : ∃ t, exec (.lsOverload 11 9000) up = .next t := ⟨_, rfl⟩

theorem test_hyp_OwlFrames : ∃ t, exec (.owlWatchdogExpiry) up = .next t := ⟨_, rfl⟩

theorem test_hyp_VehicleFrames : ∃ t, exec (.vlkStart rq 3) up = .next t := ⟨_, rfl⟩

theorem test_hyp_TimeSupplyAndResetFrames : ∃ t, exec (.rstNAssert true) up = .next t := ⟨_, rfl⟩

theorem test_hyp_PortFrames : ∃ t, exec (.frameTxTailWrite (.can 1) 127) up = .next t := ⟨_, rfl⟩

theorem test_hyp_ReaderAndDisplayFrames : ∃ t, exec (.tagRelease rq) up = .next t := ⟨_, rfl⟩

theorem test_hyp_KeyUpdateAndWarrenFrames : ∃ t, exec (.keyZeroise rq 0xFFFFFFF8) up = .next t := ⟨_, rfl⟩

theorem test_hyp_BadgerAndModeFrames : ∃ t, exec (.sleep rq 1) up = .next t := ⟨_, rfl⟩

theorem test_hyp_HostFrames : ∃ t, exec (.hsiReleaseWrite .host 127) up = .next t := ⟨_, rfl⟩

theorem test_hyp_OneLaneCommandsLeaveTheOtherLanes : (∃ t, exec (.laneStuck 39 true) up = .next t) ∧ (38 : Nat) ≠ 39 :=
  ⟨⟨_, rfl⟩, by decide⟩

theorem test_hyp_OneChannelCommandsLeaveTheOtherChannels : (∃ t, exec (.lsOverload 11 9000) up = .next t) ∧ (7 : Nat) ≠ 11 :=
  ⟨⟨_, rfl⟩, by decide⟩

theorem test_hyp_OneLinkCommandsLeaveTheOtherLinks :
    (∃ t, exec (.slacLinkLost 3) up = .next t) ∧ (∃ t, exec (.canStuck 1 true) up = .next t)
    ∧ (∃ t, exec (.timSet rq 1 0) up = .next t) ∧ (0 : Nat) ≠ 3 ∧ (0 : Nat) ≠ 1 :=
  ⟨⟨_, rfl⟩, ⟨_, rfl⟩, ⟨_, rfl⟩, by decide⟩

theorem test_hyp_BillingCommandsEffect_token (tid amount : Nat) (h : 0 < tid) (h' : tid < 2 ^ 24)
    (ho : Config.tokenOpen [1] 0 11111111111111111111 = some (2, 1, tid, amount)) :
    ∃ (s : State) (d : Bytes) (n cls sub : Nat) (k : KeySlot), tokenNumber d = some n ∧ n < 2 ^ 66 ∧ s.key.lc ≠ .retired
      ∧ decoderKey s = some k ∧ Config.tokenOpen k.material k.param n = some (cls, sub, tid, amount) ∧ tid < 2 ^ 24
      ∧ ((cls = 0 ∧ sub = 0) ∨ (cls = 2 ∧ sub = 1)) ∧ prepayMask s ≠ 0 ∧ (unconfirmed s).length < 64
      ∧ s.bil.replay.any (·.tid == tid) = false ∧ (billCtl s).tidFloor < tid
      ∧ (s.bil.replay.length < 16384 ∨ oldestTid s ≤ tid) ∧ timeValid s = false
      ∧ creditAfter cls amount s.bil.credit ≤ 1000000000000 :=
  ⟨prepaid, List.replicate 20 0x31, 11111111111111111111, 2, 1, tokenKey, by decide +kernel, by decide, by decide +kernel,
    by decide +kernel, ho, h', by decide, by decide +kernel, by decide +kernel, rfl, h, .inl (by decide +kernel), by decide +kernel,
    show (0 : Int) ≤ 1000000000000 by decide⟩

theorem test_hyp_KeyCommandsEffect_update
    (hv : Config.verify Config.testRoot (eraseMsg.take (eraseMsg.length - 96)) (eraseMsg.drop (eraseMsg.length - 96)) = true) :
    ∃ (s : State) (m p : Bytes) (k : KeyMsg), s.Inv ∧ k = keyMsgOf m ∧ msgRangeOk m s = true ∧ opAllowed s.key.lc k.op = true
      ∧ msgSigned m s = true ∧ k.format = 1 ∧ msgStateBad k s = false ∧ s.key.busy = false ∧ s.key.counter < k.counter
      ∧ openPayload m k s = some p ∧ needsRandom s k = false := by
  refine ⟨keyed, eraseMsg, [], keyMsgOf eraseMsg, by decide +kernel, rfl, by decide +kernel, by decide +kernel, ?_,
    by decide +kernel, by decide +kernel, by decide +kernel, by decide +kernel, by decide +kernel, by decide +kernel⟩
  have h : (signers keyed.key.lc (keyMsgOf eraseMsg).op).contains (keyMsgOf eraseMsg).signer
      && (keyMsgOf eraseMsg).device == keyed.ident.deviceId := by decide +kernel
  have r : rootOf keyed (keyMsgOf eraseMsg).signer = Config.testRoot := by
    have q : (keyMsgOf eraseMsg).signer = 1 := by decide +kernel
    rw [q]; rfl
  simp only [msgSigned, r, hv, h, Bool.and_true]

theorem test_hyp_KeyCommandsEffect_prove (key b : Bytes) (h : b.length = 64)
    (hv : Config.verify key (zeros 32 ++ leBytes 8 0) b = true) :
    ∃ (s : State) (r : Req) (ch : Bytes) (e : Nat) (g : Grant), b.length = 64 ∧ s.key.lc ≠ .retired
      ∧ s.key.challenges.getD (sideIx r.side) none = some (ch, e) ∧ s.ticks < e ∧ s.key.grant = some g
      ∧ Config.verify g.key (ch ++ leBytes 8 s.ident.deviceId) b = true :=
  ⟨onKey (fun k => { k with challenges := [some (zeros 32, 1), none], grant := some { key := key, seconds := 1 } }) up, rq,
    zeros 32, 1, { key := key, seconds := 1 }, h, nofun, rfl, Nat.one_pos, rfl, hv⟩

theorem test_hyp_ReaderAndCacheCommandsEffect_xfer :
    ∃ (s : State) (a b : Bytes), readerThere s = true ∧ 1 ≤ a.length ∧ a.length ≤ 256 ∧ s.tag.held.isSome = true
      ∧ b.length ≤ 256 :=
  ⟨onTag (fun b => { b with en := true, held := some (3, [1]) }) up, zeros 256, zeros 256, by decide +kernel⟩

theorem test_hyp_HostInterfaceCommandsEffect_frames :
    ∃ s : State, s.hsi.hReady = true
      ∧ (∃ f, hsiRow f = 0 ∧ f.late = true ∧ hsiWrites f = false) ∧ (∃ f, hsiRow f = 0 ∧ f.late = false)
      ∧ (∃ f, hsiRow f = 2) ∧ (∃ f, hsiRow f = 3) ∧ (∃ f, hsiRow f = 4) ∧ (∃ f, hsiRow f = 1) ∧ ∃ f, hsiRow f = 5 :=
  ⟨up, rfl, ⟨readFrame, by decide +kernel⟩, ⟨{ readFrame with late := false }, by decide +kernel⟩,
    ⟨{ readFrame with opcode := 0x99 }, by decide +kernel⟩, ⟨{ readFrame with addr := 0xFFFFFC, len := 8 }, by decide +kernel⟩,
    ⟨{ readFrame with opcode := 0x02, data := zeros 4, crc := 0xFFFF }, by decide +kernel⟩,
    ⟨{ readFrame with fast := true }, by decide +kernel⟩, ⟨{ readFrame with stop := .long }, by decide +kernel⟩⟩

theorem test_hyp_GridLinkCommandsEffect_reassembly :
    ∃ (s : State) (n : Nat) (r : Reasm), s.glk.reasm.find? (·.frame.src == n) = some r :=
  ⟨onGlk (fun b => { b with reasm := [{ (default : Reasm) with frame := { (default : RxFrame) with src := 7 } }] }) up, 7, _, rfl⟩

/-! ## Single steps and functions against values the spec gives -/

/-- The state a command goes on to. -/
def after (c : Instr) (s : State) : State :=
  match exec c s with
  | .next t => t
  | .fault _ => s
  | .refused _ => s

/-- R16's example: 2024-01-01T00:00:00.5Z, 126,230,400 s after the epoch. -/
theorem test_timestamp_example : tsOfNs (126230400 * 1000000000 + 500000000) = 0x1E187E01DCD6500 := by decide +kernel

/-- R217's examples: 16,000 mA gives 266, 63,000 mA gives 892; 51,000 mA is the last of the first row. -/
theorem test_pilot_duty : dutyOf 16000 = 266 ∧ dutyOf 63000 = 892 ∧ dutyOf 51000 = 850 ∧ dutyOf 51001 = 844 := by decide

/-- R157: an overload of a channel that is ON goes to RETRY_WAIT and counts the retry. -/
theorem test_overload_retries : (chOf (after (.lsOverload 7 9000) (onCh 7 (fun c => { c with state := .on }) up)) 7).state = .retryWait
    ∧ (chOf (after (.lsOverload 7 9000) (onCh 7 (fun c => { c with state := .on }) up)) 7).retries = 1 := by decide +kernel

/-- R157, R161: the overload after the last declared retry (3) is FAULT. -/
theorem test_overload_faults :
    (chOf (after (.lsOverload 7 9000) (onCh 7 (fun c => { c with state := .on, retries := 3 }) up)) 7).state = .fault := by decide +kernel

/-- R160: 170.0 °C latches the channel, 169.9 °C does not. -/
theorem test_thermal_latch : (chOf (after (.lsThermalLatch 7 1700) up) 7).state = .latched
    ∧ (chOf (after (.lsThermalLatch 7 1699) up) 7).state ≠ .latched := by decide +kernel

/-- R18: outlet 4 can never name an instance; outlet 1 is in range and not declared. -/
theorem test_absent_outlet : (after (.vlkStart rq 4) up).result.map (·.sts) = some 3
    ∧ (after (.vlkStart rq 1) up).result.map (·.sts) = some 9 := by decide +kernel

/-- R429: a request without the key 0xA5 does nothing; a cold reset is taken in MAINTENANCE only. -/
theorem test_reset_request : (after (.sysRstreqWrite 0x5A000001) up).sys.reqReset = none
    ∧ (after (.sysRstreqWrite 0xA5000002) up).sys.reqReset = none
    ∧ (after (.sysRstreqWrite 0xA5000001) up).sys.reqReset.isSome = true := by decide +kernel

/-- R427: SYS_WARN takes 5,000–24,000 mV; another value is ignored. -/
theorem test_warn_register : (after (.registerWrite .host 0x00000C [5000]) up).sys.warnMv = 5000
    ∧ (after (.registerWrite .host 0x00000C [4999]) up).sys.warnMv = 10500 := by decide +kernel

/-- R54: a density held at a rail marks its own lane STUCK and no other lane. -/
theorem test_lane_stuck : (laneOf (after (.laneStuck 39 true) up) 39).stuck = true
    ∧ (laneOf (after (.laneStuck 39 true) up) 38).stuck = false := by decide +kernel

/-- R57: a tap goes into the inactive bank in TRIAL, and the index wraps from 63 to 0. -/
theorem test_tap_write :
    let s := onLane 39 (fun l => { l with trial := true, bankB := false, firIndex := 63 }) up
    (laneOf (after (.firdataWrite 39 0xFFFFFFFF) s) 39).bankBTaps.getD 63 0 = -1
      ∧ (laneOf (after (.firdataWrite 39 0xFFFFFFFF) s) 39).firIndex = 0 := by decide +kernel

/-- R58: outside TRIAL the gain does not change. -/
theorem test_gain_needs_trial : (laneOf (after (.laneCalWrite 39 false 0x3FC6DB) up) 39).gain = (laneOf up 39).gain
    ∧ (laneOf (after (.laneCalWrite 39 false 0x3FC6DB) (onLane 39 (fun l => { l with trial := true }) up)) 39).gain = 0x3FC6DB := by
  decide +kernel

/-- R262: a synchronised domain whose time runs out is in HOLDOVER. -/
theorem test_holdover : (domOf (after (.domainHoldoverExpiry 1) (onDom 1 (fun d => { d with state := .sync }) up)) 1).state = .holdover := by
  decide +kernel

/-- R16, R272: 2564-01-01 is refused, its eve is taken. -/
theorem test_time_set_range : (after (.timSet rq 1 (198692 * 86400 * 2 ^ 30)) up).result.map (·.sts) = some 3
    ∧ (after (.timSet rq 1 ((198692 * 86400 - 1) * 2 ^ 30)) up).result.map (·.sts) = some 0 := by decide +kernel

/-- R260: one tick adds the increment to a domain, 0x82355555 in units of 2^-28 ns. -/
theorem test_idle_tick : (match step up with
    | .next t => (domOf t 0).t
    | .fault _ => 0
    | .refused _ => 0) = 0x82355555 := by decide +kernel

/-- A step takes the front command and leaves the rest. -/
theorem test_queue_order : (match step { up with pending := [.calctlStop, .timPtpfPop] } with
    | .next t => t.pending
    | .fault _ => []
    | .refused _ => []) = [.timPtpfPop] := by decide +kernel

/-- R185: after Owl's watchdog expires no outlet is released. -/
theorem test_owl_watchdog :
    let s := onOwl (fun b => { b with state := .run, released := [true, false, false, true] }) up
    (after .owlWatchdogExpiry s).owl.released = [false, false, false, false] := by decide +kernel

/-- R210: OWL_PW_END ends the safety session. -/
theorem test_password_end :
    (after (.owlPwEnd rq) (onOwl (fun b => { b with session := some { side := .host, endTick := 1 }, cfg := b.cfg.change fun c => { c with verifier := some { salt := [], hash := [] } } }) up)).owl.session = none := by
  decide +kernel

/-- R232: CM_SLAC_MATCH.REQ is answered from SOUNDING, and the link joins. -/
theorem test_slac_match :
    let s := onLink 3 (fun l => { l with slac := .sounding, attenRun := some 9 }) up
    (linkOf (after (.cmSlacMatchReq 3 9) s) 3).slac = .joining ∧ (linkOf (after (.cmSlacMatchReq 3 8) s) 3).slac = .sounding := by
  decide +kernel

/-- R246: a lost beacon sends a member back to SEARCH. -/
theorem test_beacon_loss : (after .glkBeaconLoss (onGlk (fun b => { b with assoc := .member }) up)).glk.assoc = .search := by decide +kernel

/-- R409: an error counter of 128 is error passive. -/
theorem test_can_passive : (canOf (after (.canErrorStateChange 1 128 0) (onCan 1 (fun x => { x with state := .active }) up)) 1).state = .passive := by
  decide +kernel

/-- R236: a frame for a descriptor of the MAC lands in its buffer at 0x4000, and OWN is cleared. -/
theorem test_frame_lands :
    let t := after (.frameReceived .eth { bytes := List.replicate 60 7, mme := false, bad := false, cap := 0, src := 0, ts := 0, key := .plain, sound := false, mpdu := none }) wire
    memRead t.sram 0x403B = 7 ∧ memRead t.sram 0x403C = 0 ∧ ownAt t 0x1000 = false := by decide +kernel

/-- R298: the held tag goes at TAG_RELEASE. -/
theorem test_tag_release : (after (.tagRelease rq) (onTag (fun b => { b with held := some (3, [1]) }) up)).tag.held = none := by decide +kernel

/-- R291: a read beyond block 255 leaves the tag's blocks as they are. -/
theorem test_ct_read_outside : (after (.ctReadBlock 255 2) intact).tag.ct = intact.tag.ct := by decide +kernel

/-- R315: an open LED is seen. -/
theorem test_led_open : (ledOf (after (.ledOpen 11 true) up) 11).isOpen = true := by decide +kernel

/-- R337: a message whose length is no message's is refused and KEY_COUNTER stays. -/
theorem test_key_update_length : (after (.keyUpdate rq []) up).key.counter = up.key.counter := by decide +kernel

/-- R352: data without a transfer is refused; the status STS_STATE is the model's choice (log 14). -/
theorem test_upd_data_without_begin : (after (.updData rq 0 (zeros 16)) up).result.map (·.sts) = some 5 := by decide +kernel

/-- R41: WARREN_ACTIVATE during another activation is STS_BUSY. -/
theorem test_activate_busy : (after (.warrenActivate rq) (onUpd (fun b => { b with actBusy := true }) up)).result.map (·.sts) = some 6 := by
  decide +kernel

/-- R365: with Badger down its commands time out. -/
theorem test_badger_down : (after (.mgtLogRead rq 0 1) (onSys (fun b => { b with badgerDown := true }) up)).result.map (·.sts) = some 0x0A := by
  decide +kernel

/-- R375: SLEEP(WATCH) answers STS_PENDING and prepares. -/
theorem test_sleep_pending : (after (.sleep rq 1) up).result.map (·.sts) = some 1 ∧ (after (.sleep rq 1) up).sys.entry.isSome = true := by
  decide +kernel

/-- R397, R399: HSI_NOP returns its parameters, cut to the slot's capacity in the slot. -/
theorem test_nop :
    let s := onHsi (fun b => { b with h := { b.h with slots := put b.h.slots 127 { Slot.fresh with running := true, rcap := 4 } } }) up
    let sl := (ringOf (after (.hsiNop rq [1, 2, 3, 4, 5]) s) .host).slots.getD 127 Slot.fresh
    sl.rlen = 4 ∧ sl.ready = true ∧ memRead (ringOf (after (.hsiNop rq [1, 2, 3, 4, 5]) s) .host).mem 3 = 4
      ∧ memRead (ringOf (after (.hsiNop rq [1, 2, 3, 4, 5]) s) .host).mem 4 = 0 := by decide +kernel

/-- R395: a tail more than 128 past the head is a ring error with cause 1. -/
theorem test_ring_error : (ringOf (after (.ctailWrite .host 129) up) .host).errCause = 1 := by decide +kernel

/-- R423: the warning marks the power failure. -/
theorem test_power_fail : (after (.powerFailWarning false 10400 []) up).sys.pfail = true := by decide +kernel

/-- R419, R420: after RST_N no outlet is released and no channel conducts. -/
theorem test_reset_pin : (after (.rstNAssert true) (onCh 11 (fun c => { c with state := .on }) up)).OutputsSafe := by decide +kernel

/-- R151: BILL_RESET outside MAINTENANCE changes no billing state. -/
theorem test_bill_reset_mode : (after (.billReset rq) up).bil = up.bil := by decide +kernel

/-- R110: a calibration run takes its number of cycles from the register write. -/
theorem test_calibration_start : (after (.calctlStart 0x100) up).met.calCycles = 1 := by decide +kernel

/-- R166, the worked table: the codes of lanes 3, 18 and 17 and of outlet 0's residual step. -/
theorem test_level_codes : codeOf 56600 32000 8 = 20490 ∧ codeOf 150000 125000 4 = 19660 ∧ codeOf 550000 500000 4 = 18021
    ∧ codeOf 30 1000 1 = 983 := by decide +kernel

/-- R60, the worked example: LATENCY of lanes 0 and 3. -/
theorem test_latency : laneLatency { Lane.fresh with cic := 3, delay := 1018 } = 37870
    ∧ laneLatency { Lane.fresh with cic := 4, delay := 801 } = 38161 := by decide +kernel

/-- R436, the worked register: PIN_MF18 with LED0 on ball 335. -/
theorem test_pin_mf :
    pinMf { tiny with pinmux := [{ ball := 335, func := 0x0100 }], leds := [{ channel := 0, role := 1, outlet := 3, ma := 10 }] } 18
      = 0x0100814F := by decide +kernel


end Sys2Proof.Tests
end

section
/-! PROOFS. The statements of 00_scope.md: the first failing check of a ring command posts its status alone (R18), time
settings stay before 2564 (R16), and register writes reach the field at their offset (R12, R389, R403). -/

namespace Sys2Proof.Machine

variable {s : State}

/-! ## Commands that post a status alone (R2, R18, R365) -/

/-- A check that fails comes before every later one. -/
theorem firstFail_cons_true {b : Bool} {sts : Nat} {l : List (Bool × Nat)} (h : b = true) :
    firstFail ((b, sts) :: l) = sts := if_pos h

/-- A check that holds leaves the decision to the later ones. -/
theorem firstFail_cons_false {b : Bool} {sts : Nat} {l : List (Bool × Nat)} (h : b = false) :
    firstFail ((b, sts) :: l) = firstFail l := if_neg (by simp [h])

/-- The decision of the checks, where it is not STS_OK, is what a guarded command posts. -/
theorem guarded_posts {r : Req} {l : List (Bool × Nat)} {f : State → State} {sts : Nat} (h : firstFail l = sts)
    (hs : sts ≠ stsOk) : guarded r l f s = postSts r sts s := by
  subst h
  exact guarded_fails hs

/-- An outlet in range that no record declares is absent, whatever is checked later. -/
theorem firstFail_outletChecks_absent {o : Nat} (ho : o < 4) (hd : declared s o = false) (l : List (Bool × Nat)) :
    firstFail (outletChecks s o ++ l) = stsAbsent :=
  firstFail_cons_true (by simp [ho, hd])

/-- An outlet above 3 is out of range, whatever is checked later. -/
theorem firstFail_outletChecks_above {o : Nat} (ho : 3 < o) (l : List (Bool × Nat)) :
    firstFail (outletChecks s o ++ l) = stsLengthRange := by
  have hr : (decide (o < 4) && !declared s o) = false := by simp [show ¬ o < 4 by omega]
  exact (firstFail_cons_false hr).trans (firstFail_cons_true (decide_eq_true ho))

/-- The commands of the rings to one outlet check the outlet first: what that check decides is all they post. -/
theorem outletCommands_post {r : Req} {o k sts : Nat} (h : ∀ l, firstFail (outletChecks s o ++ l) = sts)
    (hs : sts ≠ stsOk) :
    exec (.vlkStart r o) s = .next (postSts r sts s) ∧ exec (.vlkStop r o k) s = .next (postSts r sts s)
      ∧ exec (.vlkUnlock r o) s = .next (postSts r sts s) ∧ exec (.owlTripClear r o) s = .next (postSts r sts s)
      ∧ exec (.weldClear r o) s = .next (postSts r sts s) :=
  ⟨congrArg Host.Outcome.next (guarded_posts (h _) hs), congrArg Host.Outcome.next (guarded_posts (h _) hs),
    congrArg Host.Outcome.next (guarded_posts (h _) hs), congrArg Host.Outcome.next (guarded_posts (h _) hs),
    congrArg Host.Outcome.next (guarded_posts (h _) hs)⟩

/-- PWR_CLEAR of a channel that does not exist posts STS_ABSENT alone. -/
theorem exec_pwrClear_absent {r : Req} {k x : Nat} (hk : k < 12) (hd : chDeclared s k = false) :
    exec (.pwrClear r k x) s = .next (postSts r stsAbsent s) :=
  congrArg Host.Outcome.next (guarded_posts (firstFail_cons_true (by simp [hk, hd])) (by decide))

/-- PWR_CLEAR of a channel above 11 posts STS_LENGTH_RANGE alone. -/
theorem exec_pwrClear_above {r : Req} {k x : Nat} (hk : 11 < k) :
    exec (.pwrClear r k x) s = .next (postSts r stsLengthRange s) := by
  have hr : (decide (k < 12) && !chDeclared s k) = false := by simp [show ¬ k < 12 by omega]
  exact congrArg Host.Outcome.next
    (guarded_posts ((firstFail_cons_false hr).trans (firstFail_cons_true (by simp [hk]))) (by decide))

/-- Badger takes no command while it is down. -/
theorem badgerCmd_down {r : Req} {f : State → State} (h : s.sys.badgerDown = true) :
    badgerCmd r f s = postSts r stsTimeout s := if_pos h

/-- Posting writes the ring and the result record alone. -/
theorem onlyIn_post (r : Req) (sts detail : Nat) (bytes : Bytes) :
    OnlyIn [.hsi, .result] s (post r sts detail bytes s) :=
  onlyIn_of_sameO (sameO_next (same_post r sts detail bytes rfl (same_refl _ s))) rfl

/-- Settles O9: each command checks its outlet or channel first, and Badger's commands are decided by
`badgerDown` before any check. -/
theorem absentAndUnservedCommandsPostOnlyAStatus : Obligations.AbsentAndUnservedCommandsPostOnlyAStatus := by
  unfold Obligations.AbsentAndUnservedCommandsPostOnlyAStatus
  refine ⟨?absent, ?above, ?channel, ?badger, ?frame⟩
  case absent =>
    intro s r o k ho hd
    exact outletCommands_post (firstFail_outletChecks_absent ho hd) (by decide)
  case above =>
    intro s r o k ho
    exact outletCommands_post (firstFail_outletChecks_above ho) (by decide)
  case channel =>
    intro s r k x
    exact ⟨exec_pwrClear_absent, exec_pwrClear_above⟩
  case badger =>
    intro s r k x b h
    have down (f : State → State) : Host.Outcome.next (φ := Fault) (ρ := Refusal) (badgerCmd r f s)
        = .next (postSts r stsTimeout s) := congrArg _ (badgerCmd_down h)
    exact ⟨down _, down _, down _, down _, down _, down _, down _, down _, down _, down _, down _, down _, down _⟩
  case frame =>
    intro s r sts detail bytes
    exact onlyIn_post r sts detail bytes

/-! ## Time settings (R16, R272) -/

/-- A timestamp before 2564 fits 64 bits: its seconds fit 34 bits and its nanoseconds 30. -/
theorem tsOfNs_lt {ns : Nat} (h : ns / 1000000000 < lastSecond) : tsOfNs ns < 2 ^ 64 := by
  unfold tsOfNs
  unfold lastSecond at h
  omega

/-- From the first second of 2564 on, a second is out of range. -/
theorem secInRange_eq_false {sec : Nat} (h : lastSecond ≤ sec) : secInRange sec = false :=
  decide_eq_false (Nat.not_lt.mpr h)

/-- TIM_SET to a second outside R16 posts STS_LENGTH_RANGE alone. -/
theorem exec_timSet_late {r : Req} {d ts : Nat} (h : lastSecond ≤ ts / 2 ^ 30) :
    exec (.timSet r d ts) s = .next (postSts r stsLengthRange s) := by
  refine congrArg Host.Outcome.next (guarded_posts (firstFail_cons_true ?_) (by decide))
  simp only [secInRange_eq_false h, Bool.not_false, Bool.or_true]

/-- TIM_OFFSET to a result outside R16 posts STS_LENGTH_RANGE alone. -/
theorem exec_timOffset_outside {r : Req} {d : Nat} {x : Int}
    (h : (domOf s d).t + (x * 2 ^ 28 + (domOf s d).slew) < 0
      ∨ lastSecond ≤ ((domOf s d).t + (x * 2 ^ 28 + (domOf s d).slew)).toNat / 2 ^ 28 / 1000000000) :
    exec (.timOffset r d x) s = .next (postSts r stsLengthRange s) := by
  refine congrArg Host.Outcome.next (guarded_posts (firstFail_cons_true ?_) (by decide))
  rcases h with h | h
  · simp only [decide_eq_true h, Bool.or_true, Bool.true_or]
  · simp only [secInRange_eq_false h, Bool.not_false, Bool.or_true]

/-- TIM_SET of a domain to a time within R16 corrects the domain and posts STS_OK. -/
theorem exec_timSet_inside {r : Req} {d ts : Nat} (hd : d < 2) (hn : ts % 2 ^ 30 < 1000000000)
    (hs : ts / 2 ^ 30 < lastSecond) :
    exec (.timSet r d ts) s
      = .next (postSts r stsOk (correct d (((nsOfTs ts * 2 ^ 28 : Nat) : Int) - (domOf s d).t) s)) := by
  have hc : (decide (1 < d) || decide (1000000000 ≤ ts % 2 ^ 30) || !secInRange (ts / 2 ^ 30)) = false := by
    simp only [secInRange, decide_eq_true hs, decide_eq_false (show ¬ 1 < d by omega),
      decide_eq_false (Nat.not_le.mpr hn), Bool.or_false, Bool.not_true]
  exact congrArg Host.Outcome.next (guarded_ok (firstFail_cons_false hc))

/-- Settles O25: `lastSecond` bounds the seconds field, and the first check of TIM_SET and of TIM_OFFSET compares with it. -/
theorem timeSettingsAreBounded : Obligations.TimeSettingsAreBounded := by
  unfold Obligations.TimeSettingsAreBounded
  refine ⟨fun n h => tsOfNs_lt h, by decide, ?late, ?offset, ?inside⟩
  case late =>
    intro s r d x h
    exact ⟨_, exec_timSet_late h, rfl, postSts_tim⟩
  case offset =>
    intro s r d x h
    exact ⟨_, exec_timOffset_outside h, rfl, postSts_tim⟩
  case inside =>
    intro s r d x hd hn hs
    exact ⟨_, exec_timSet_inside hd hn hs, rfl⟩

/-! ## Register writes (R12, R387, R389, R403) -/

/-- A burst within the limits of R387 in a served view is its first word, then the rest four bytes on. -/
theorem exec_registerWrite_cons {v : Side} {a : Nat} {w : Word} {l : List Word} (hv : sideReady s v = true)
    (ha : a % 4 = 0) (hl : l.length < 1024) (he : a + 4 * (l.length + 1) ≤ 0x1000000) :
    exec (.registerWrite v a (w :: l)) s = .next (regWrites v (a + 4) l (regWrite v a w.toNat s)) := by
  have hc : ¬ (a % 4 ≠ 0 ∨ w :: l = [] ∨ 1024 < (w :: l).length ∨ 0x1000000 < a + 4 * (w :: l).length) := by
    simp only [List.length_cons, reduceCtorEq, false_or]
    omega
  show Host.Outcome.next (if _ then s else regWrites v a (w :: l) s) = _
  rw [if_neg hc, regWrites, if_pos hv]

/-- One aligned word of the register space in a served view. -/
theorem exec_registerWrite_word {v : Side} {a : Nat} {w : Word} (hv : sideReady s v = true) (ha : a % 4 = 0)
    (he : a + 4 ≤ 0x1000000) : exec (.registerWrite v a [w]) s = .next (regWrite v a w.toNat s) :=
  exec_registerWrite_cons hv ha (by decide) he

/-- A write that is not aligned changes nothing. -/
theorem exec_registerWrite_unaligned {v : Side} {a : Nat} {l : List Word} (ha : a % 4 ≠ 0) :
    exec (.registerWrite v a l) s = .next s :=
  congrArg Host.Outcome.next (if_pos (.inl ha))

/-- A word that no served register takes changes nothing, whether the transaction is within its limits or not. -/
theorem exec_registerWrite_ignored {v : Side} {a : Nat} {w : Word}
    (h : sideReady s v = true → regWrite v a w.toNat s = s) : exec (.registerWrite v a [w]) s = .next s := by
  refine congrArg Host.Outcome.next ?_
  split
  · rfl
  · show (if sideReady s v = true then regWrite v a w.toNat s else s) = s
    split
    next hv => exact h hv
    next => rfl

/-! ### The block of an offset (R403) -/

section Blocks

variable {v : Side} {a w : Nat}

theorem regWrite_sys (h : a < 0x010000) : regWrite v a w s = sysRegWrite a w s := if_pos h

theorem regWrite_met (h : 0x040000 ≤ a) (h' : a < 0x060000) : regWrite v a w s = metRegWrite (a - 0x040000) w s := by
  simp (disch := omega) only [regWrite, if_neg, if_pos]

theorem regWrite_pwr (h : 0x080000 ≤ a) (h' : a < 0x090000) : regWrite v a w s = pwrRegWrite (a - 0x080000) w s := by
  simp (disch := omega) only [regWrite, if_neg, if_pos]

theorem regWrite_vlk (h : 0x0C0000 ≤ a) (h' : a < 0x0E0000) : regWrite v a w s = vlkRegWrite (a - 0x0C0000) w s := by
  simp (disch := omega) only [regWrite, if_neg, if_pos]

theorem regWrite_tim (h : 0x0F0000 ≤ a) (h' : a < 0x100000) : regWrite v a w s = timRegWrite (a - 0x0F0000) w s := by
  simp (disch := omega) only [regWrite, if_neg, if_pos]

theorem regWrite_upd (h : 0x130000 ≤ a) (h' : a < 0x140000) : regWrite v a w s = updRegWrite (a - 0x130000) w s := by
  simp (disch := omega) only [regWrite, if_neg, if_pos]

theorem regWrite_hsi (h : 0x150000 ≤ a) (h' : a < 0x158000) : regWrite v a w s = hsiRegWrite v (a - 0x150000) w s := by
  simp (disch := omega) only [regWrite, if_neg, if_pos]

/-- Beyond the last block no register takes a word. -/
theorem regWrite_beyond (h : 0x160000 ≤ a) : regWrite v a w s = s := by
  simp (disch := omega) only [regWrite, if_neg]

end Blocks

/-! ### The register of an offset within its block -/

/-- WARN_MV within its range (R427). -/
theorem sysRegWrite_warnMv {w : Nat} :
    (sysRegWrite 0x0C w s).sys.warnMv = if inRange 5000 24000 (field w 14 0) then field w 14 0 else s.sys.warnMv := by
  show (if _ then onSys _ s else s).sys.warnMv = _
  split
  · rfl
  · rfl

/-- UPD_CFG takes a key slot from 3 on (R362). -/
theorem updRegWrite_keySlot {w : Nat} :
    (updRegWrite 0x10 w s).upd.keySlot = if 3 ≤ field w 4 0 then field w 4 0 else s.upd.keySlot := by
  unfold updRegWrite
  by_cases h : 3 ≤ field w 4 0
  · rw [if_pos ⟨rfl, h⟩, if_pos h]; rfl
  · rw [if_neg fun hc => h hc.2, if_neg h]

/-- TIM_ALARM_LO replaces the low word of the alarm's seconds (R273). -/
theorem timRegWrite_alarmLo {w : Nat} :
    timRegWrite 0x28 w s = onTim (fun b => { b with alarmS := b.alarmS / 2 ^ 32 * 2 ^ 32 + w }) s := rfl

/-- MET_HARMSEL takes the outlet, and the order where it is not 0 (R119). -/
theorem metRegWrite_harmSel {w : Nat} :
    metRegWrite 0x10 w s = onMet (fun b => { b with
      harmOutlet := field w 9 8, harmOrder := if field w 5 0 = 0 then b.harmOrder else field w 5 0 }) s := rfl

/-- The control word of a declared channel sets its firmware demand, and the channel follows (R156, R180). -/
theorem pwrRegWrite_control {k w : Nat} (hk : k < 12) (hd : chDeclared s k = true) :
    pwrRegWrite (0x100 + 0x20 * k) w s = settleCh k (onCh k (fun c => { c with ctlOn := bitAt w 0 }) s) := by
  have hn : (0x100 + 0x20 * k - 0x100) / 0x20 = k := by omega
  simp only [pwrRegWrite, hn]
  exact if_pos ⟨by omega, by omega, by omega, hd⟩

/-- The configuration word of a link that exists (R240). -/
theorem vlkRegWrite_cfg {o w : Nat} (hl : linked s o = true) :
    vlkRegWrite (0x4 + 0x4000 * o) w s = vlkCfgWrite o w s := by
  have ho : (0x4 + 0x4000 * o) / 0x4000 = o := by omega
  have hr : (0x4 + 0x4000 * o) % 0x4000 = 0x4 := by omega
  simp only [vlkRegWrite, ho, hr]
  rw [if_neg (by simp [hl]), if_pos trivial]

/-- The host's descriptors and the offsets up to them have no register in the cluster's view (R393). -/
theorem hsiRegWrite_cluster_host {a w : Nat} (h : 0x1000 ≤ a) (h' : a < 0x2000) : hsiRegWrite .cluster a w s = s := by
  simp (disch := omega) only [hsiRegWrite, if_neg]

/-! ### The firmware demand of a channel while the channel settles -/

/-- An update of a channel that keeps the firmware demand keeps that of every channel. -/
theorem chOf_onCh_ctlOn {n m : Nat} {f : Channel → Channel} (hf : ∀ c, (f c).ctlOn = c.ctlOn) :
    (chOf (onCh n f s) m).ctlOn = (chOf s m).ctlOn := by
  by_cases hm : m = n
  · subst hm
    by_cases hl : m < s.pwr.ch.length
    · rw [chOf_onCh_self hl, hf]
    · simp [chOf, onCh, upd, List.getD_eq_getElem?_getD, hl]
  · rw [chOf_onCh_ne hm]

/-- A lost cable lock leaves every channel as it is. -/
theorem lockLost_ch {o ch code : Nat} : (lockLost o ch code s).pwr.ch = s.pwr.ch := by
  have h : (lockLost o ch code s).pwr = (onLock o (fun l => { l with state := .lockLost }) s).pwr :=
    ((same_slacCheck o rfl (same_refl [.vlk] _)).part (q := .pwr) rfl).trans logEv_pwr
  rw [h]
  rfl

/-- The watch of a cable lock leaves every channel as it is. -/
theorem lockWatch_ch {ch : Nat} : (lockWatch ch s).pwr.ch = s.pwr.ch := by
  unfold lockWatch
  split
  · split
    · exact lockLost_ch
    · rfl
  · rfl

theorem setCh_ctlOn {n m : Nat} {st : ChState} : (chOf (setCh n st s) m).ctlOn = (chOf s m).ctlOn := by
  unfold setCh chOf
  rw [lockWatch_ch]
  exact chOf_onCh_ctlOn fun _ => rfl

/-- A channel that follows its demand keeps the firmware demand of every channel. -/
theorem settleCh_ctlOn {n m : Nat} : (chOf (settleCh n s) m).ctlOn = (chOf s m).ctlOn := by
  have keep {c : Prop} [Decidable c] {st : ChState} : (chOf (if c then s else setCh n st s) m).ctlOn = (chOf s m).ctlOn := by
    split
    · rfl
    · exact setCh_ctlOn
  unfold settleCh
  cases (chOf s n).state with
  | inrush => exact keep
  | on => exact keep
  | retryWait => exact keep
  | off =>
    dsimp only
    split
    · exact setCh_ctlOn
    · rfl
  | absent | uvOff | latched | fault => rfl

/-- A configuration word in IDLE or CONNECTED reaches the link's fields; DISC is taken within 1–20 dB (R240). -/
theorem linkOf_vlkCfgWrite {o w : Nat} (ho : o < s.vlk.length)
    (hs : (linkOf s o).sup = .idle ∨ (linkOf s o).sup = .connected) :
    (linkOf (vlkCfgWrite o w s) o).ppMode = field w 1 0 ∧ (linkOf (vlkCfgWrite o w s) o).ventOk = bitAt w 3
      ∧ (linkOf (vlkCfgWrite o w s) o).fallback = bitAt w 4
      ∧ (linkOf (vlkCfgWrite o w s) o).disc
          = if inRange 1 20 (field w 12 8) then field w 12 8 else (linkOf s o).disc := by
  unfold vlkCfgWrite
  rw [if_pos hs, linkOf_onLink_self ho]
  exact ⟨rfl, rfl, rfl, rfl⟩

/-- Settles O41: a burst is peeled word by word, an offset is resolved to its block and its register, and the register's
own equation gives the field. -/
theorem registerWritesReachTheirFields : Obligations.RegisterWritesReachTheirFields := by
  unfold Obligations.RegisterWritesReachTheirFields
  refine ⟨?burst, ?warnMv, ?keySlot, ?alarm, ?harmSel, ?channel, ?link, ?beyond, ?otherView, ?unaligned, ?unserved⟩
  case burst =>
    intro s v a w l hv ha hl he
    exact exec_registerWrite_cons hv ha hl he
  case warnMv =>
    intro s v w hv
    refine ⟨_, exec_registerWrite_word hv (by decide) (by decide), ?_⟩
    rw [regWrite_sys (by decide)]
    exact ⟨sysRegWrite_warnMv, onlyIn_of_sameO (sameO_next (same_sysRegWrite _ _ rfl (same_refl _ s))) rfl⟩
  case keySlot =>
    intro s v w hv
    refine ⟨_, exec_registerWrite_word hv (by decide) (by decide), ?_⟩
    rw [regWrite_upd (by decide) (by decide)]
    exact ⟨updRegWrite_keySlot, onlyIn_of_sameO (sameO_next (same_updRegWrite _ _ rfl (same_refl _ s))) rfl⟩
  case alarm =>
    intro s v w hv
    refine ⟨_, exec_registerWrite_word hv (by decide) (by decide), ?_⟩
    rw [regWrite_tim (by decide) (by decide), timRegWrite_alarmLo]
    exact ⟨rfl, onlyIn_of_sameO (sameO_next (same_onTim rfl (same_refl _ s))) rfl⟩
  case harmSel =>
    intro s v w hv
    refine ⟨_, exec_registerWrite_word hv (by decide) (by decide), ?_⟩
    rw [regWrite_met (by decide) (by decide), metRegWrite_harmSel]
    exact ⟨rfl, rfl, onlyIn_of_sameO (sameO_next (same_onMet rfl (same_refl _ s))) rfl⟩
  case channel =>
    intro s v k w hi hv hk hd
    have hlen : k < s.pwr.ch.length := by
      obtain ⟨-, -, -, hp, -⟩ := hi
      simp only [PwrBlock.shape, List.cons.injEq] at hp
      omega
    have ha : 0x080100 + 0x20 * k - 0x080000 = 0x100 + 0x20 * k := by omega
    refine ⟨_, exec_registerWrite_word hv (by omega) (by omega), ?_⟩
    rw [regWrite_pwr (by omega) (by omega), ha, pwrRegWrite_control hk hd]
    exact settleCh_ctlOn.trans (congrArg Channel.ctlOn (chOf_onCh_self hlen))
  case link =>
    intro s v o w hi hv ho hl hs
    have hlen : o < s.vlk.length := by
      obtain ⟨-, -, -, -, -, -, hvlk, -⟩ := hi
      omega
    have ha : 0x0C0004 + 0x4000 * o - 0x0C0000 = 0x4 + 0x4000 * o := by omega
    refine ⟨_, exec_registerWrite_word hv (by omega) (by omega), ?_⟩
    rw [regWrite_vlk (by omega) (by omega), ha, vlkRegWrite_cfg hl]
    exact linkOf_vlkCfgWrite hlen hs
  case beyond =>
    intro s v a w ha
    exact exec_registerWrite_ignored fun _ => regWrite_beyond ha
  case otherView =>
    intro s a w ha ha'
    refine exec_registerWrite_ignored fun _ => ?_
    rw [regWrite_hsi (by omega) (by omega)]
    exact hsiRegWrite_cluster_host (by omega) (by omega)
  case unaligned =>
    intro s v a l ha
    exact exec_registerWrite_unaligned ha
  case unserved =>
    intro s v a w hv
    exact exec_registerWrite_ignored fun h => absurd h (by simp [hv])

end Sys2Proof.Machine
end

section
/-! PROOFS. The statements of 01_warren_structure_image.md: what a boot ends in (R38, R417, R420, R422, R427), how an
activation completes (R43), and what the commands of keys, updates and Warren write (R41-R43, R101, R337-R361). -/

namespace Sys2Proof.Machine

-- One proof after the other, as in Sys2Proof/Tests/Slice0.lean: in parallel, their stacks pass the check's memory limit.
set_option Elab.async false

variable {s : State}

/-! ## What the steps of a boot keep -/

/-- What Dormouse shows of a reset: the one that runs, the boot flag, SYS_RSTCAUSE and the mode. -/
abbrev ResetView := Option ResetHold × Bool × Nat × Mode

def resetView (b : SysBlock) : ResetView := (b.reset, b.booted, b.rstCause, b.mode)

/-- A state in the course of a boot: the outputs are safe, Owl has not run since the reset (so no channel may switch on,
R417), application SRAM is wiped, and Dormouse shows `v`. -/
structure Quiet (v : ResetView) (s : State) : Prop where
  released : s.owl.released = List.replicate 4 false
  ran : s.owl.ran = false
  off : s.pwr.ch.all (fun c => !c.state.conducts) = true
  sram : s.sram = []
  view : resetView s.sys = v

variable {v : ResetView} {a : State} {w : List Part}

/-- A frame without Dormouse's part keeps what it shows; the retention buffer, a part of its own, may change. -/
theorem same_resetView (h : Same w a s) (hw : w.contains .sys = false) : resetView s.sys = resetView a.sys := by
  have hs : { s.sys with retLog := [], retLost := false } = { a.sys with retLog := [], retLost := false } := h.part hw
  have hv := congrArg resetView hs
  exact hv

theorem Quiet.same (q : Quiet v a) (h : Same w a s)
    (hw : ([.owl, .pwr, .sram, .sys] : List Part).all (fun p => !w.contains p) = true) : Quiet v s := by
  simp only [List.all_cons, List.all_nil, Bool.and_true, Bool.and_eq_true, Bool.not_eq_true'] at hw
  obtain ⟨ho, hp, hm, hs⟩ := hw
  have owl : s.owl = a.owl := h.part ho
  have pwr : s.pwr = a.pwr := h.part hp
  have sram : s.sram = a.sram := h.part hm
  exact ⟨owl ▸ q.released, owl ▸ q.ran, pwr ▸ q.off, sram ▸ q.sram, (same_resetView h hs).trans q.view⟩

/-- An operation whose law lists none of Owl's, the power path's, the SRAM's and Dormouse's parts. -/
theorem Quiet.law {t : State} (q : Quiet v s) (w : List Part) (f : listed w w = true → Same w s s → Same w s t)
    (hw : ([.owl, .pwr, .sram, .sys] : List Part).all (fun p => !w.contains p) = true := by rfl) : Quiet v t :=
  q.same (f (listed_self w) (same_refl w s)) hw

/-! ### Branches, loops and updates of one block -/

theorem quiet_ite {c : Prop} [Decidable c] {x y : State} (hx : Quiet v x) (hy : Quiet v y) :
    Quiet v (if c then x else y) := by
  split
  · exact hx
  · exact hy

theorem quiet_foldl {α : Type} {f : State → α → State} {l : List α} (q : Quiet v s)
    (hf : ∀ s x, Quiet v s → Quiet v (f s x)) : Quiet v (l.foldl f s) := by
  induction l generalizing s with
  | nil => exact q
  | cons x l ih => exact ih (hf s x q)

theorem quiet_onOwl {f : OwlBlock → OwlBlock} (q : Quiet v s) (hr : (f s.owl).released = s.owl.released)
    (hn : (f s.owl).ran = s.owl.ran) : Quiet v (onOwl f s) :=
  ⟨hr.trans q.released, hn.trans q.ran, q.off, q.sram, q.view⟩

theorem quiet_onCfg {f : OwlCfg → OwlCfg} (q : Quiet v s) : Quiet v (onCfg f s) := quiet_onOwl q rfl rfl

/-- An update of Dormouse's block that changes what it shows by `g`. -/
theorem quiet_onSys {f : SysBlock → SysBlock} (q : Quiet v s) (g : ResetView → ResetView)
    (hg : resetView (f s.sys) = g (resetView s.sys)) : Quiet (g v) (onSys f s) :=
  ⟨q.released, q.ran, q.off, q.sram, hg.trans (congrArg g q.view)⟩

theorem quiet_onKey {f : KeyBlock → KeyBlock} (q : Quiet v s) : Quiet v (onKey f s) :=
  q.law [.key] fun hw h => same_onKey hw h
theorem quiet_onUpd {f : UpdBlock → UpdBlock} (q : Quiet v s) : Quiet v (onUpd f s) :=
  q.law [.upd] fun hw h => same_onUpd hw h
theorem quiet_onGlk {f : GlkBlock → GlkBlock} (q : Quiet v s) : Quiet v (onGlk f s) :=
  q.law [.glk] fun hw h => same_onGlk hw h
theorem quiet_onHsi {f : HsiBlock → HsiBlock} (q : Quiet v s) : Quiet v (onHsi f s) :=
  q.law [.hsi] fun hw h => same_onHsi hw h
theorem quiet_onStr {f : StrBlock → StrBlock} (q : Quiet v s) : Quiet v (onStr f s) :=
  q.law [.str] fun hw h => same_onStr hw h
theorem quiet_onMet {f : MetBlock → MetBlock} (q : Quiet v s) : Quiet v (onMet f s) :=
  q.law [.met] fun hw h => same_onMet hw h
theorem quiet_onEpd {f : EpdBlock → EpdBlock} (q : Quiet v s) : Quiet v (onEpd f s) :=
  q.law [.epd] fun hw h => same_onEpd hw h
theorem quiet_onTag {f : TagBlock → TagBlock} (q : Quiet v s) : Quiet v (onTag f s) :=
  q.law [.tag] fun hw h => same_onTag hw h

theorem quiet_logEv {c : EvClass} {b i k : Nat} {d : List (Nat × Nat)} (q : Quiet v s) : Quiet v (logEv c b i k d s) :=
  q.law [.log] (same_logEv c b i k d)

/-! ### The grid modem's gate and the images' starts: an empty SRAM holds no descriptor -/

/-- In wiped SRAM no descriptor is owned by the device. -/
theorem txOwned_of_wiped {p : Port} (h : s.sram = []) : txOwned s p = false := by
  have hb : ownAt s (txDesc s p) = false := by
    unfold ownAt sramAt
    rw [h]
    show bitAt (leNat [0]) 0 = false
    decide
  simp only [txOwned, hb, Bool.and_false]

/-- So no transmit ring moves. -/
theorem pump_of_wiped {p : Port} (h : s.sram = []) : pump p s = s := by
  show (if served s p && txOwned s p then _ else s) = s
  rw [txOwned_of_wiped h, Bool.and_false]
  rfl

theorem quiet_abandonMsdu (q : Quiet v s) : Quiet v (abandonMsdu s) := by
  have h : Quiet v (onGlk (fun b => { b with msdu := none }) s) := quiet_onGlk q
  unfold abandonMsdu
  rw [pump_of_wiped h.sram]
  exact h

theorem quiet_leaveMember {m : Assoc} (q : Quiet v s) : Quiet v (abandonMsdu (dropMember m s)) :=
  quiet_abandonMsdu (q.law [.glk] (same_dropMember m))

theorem quiet_glkGate (q : Quiet v s) : Quiet v (glkGate s) := by
  have asked := q.law [.key, .log] (same_askKey s.glk.nmkSlot 1 7 12)
  unfold glkGate
  refine quiet_ite q (quiet_ite (quiet_ite q (quiet_leaveMember q)) ?_)
  exact quiet_ite (quiet_ite asked (quiet_leaveMember asked)) (quiet_ite (quiet_onGlk asked) asked)

theorem quiet_slotsChanged (q : Quiet v s) : Quiet v (slotsChanged s) :=
  (quiet_glkGate q).law [.tag] same_ctRefresh

theorem quiet_glkAfterWatch (q : Quiet v s) : Quiet v (glkAfterWatch s) := by
  unfold glkAfterWatch
  exact quiet_ite q (quiet_ite (quiet_ite (quiet_onGlk q) (quiet_leaveMember q)) q)

theorem quiet_startCluster (q : Quiet v s) : Quiet v (startCluster s) :=
  ⟨q.released, q.ran, q.off, rfl, q.view⟩

theorem quiet_stopBadger (q : Quiet v s) : Quiet v (stopBadger s) :=
  ⟨q.released, q.ran, q.off, q.sram, q.view⟩

/-- Starting or restarting an image of any kind (R354). -/
theorem quiet_startKind {k : Nat} (q : Quiet v s) : Quiet v (startKind k s) := by
  unfold startKind
  split
  · exact quiet_startCluster q
  · exact quiet_stopBadger q
  · exact quiet_foldl q fun s o q =>
      (q.law [.vlk] (same_slacOff o)).law [.vlk] (same_slacCheck o)
  · exact quiet_ite q (quiet_ite (quiet_glkAfterWatch q) (quiet_leaveMember q))
  · exact q

/-! ### Trials, tamper detections and the life cycle -/

theorem quiet_failTrial {c : Nat} (q : Quiet v s) : Quiet v (failTrial c s) := by
  unfold failTrial
  split
  · exact q
  next t _ =>
    have ended := (quiet_onUpd (f := fun b => { b with trial := none, lastRc := freeNat s % 12 }) q).law [.freeCtr] same_bump
    have back := ended.law [.tag, .upd, .log] (same_rollbackPart c t.kind)
    exact quiet_ite (quiet_onUpd ended) (quiet_ite back (quiet_startKind back))

theorem quiet_trialStart {cold follows : Bool} (q : Quiet v s) : Quiet v (trialStart cold follows s) := by
  have counted : Quiet v (countStart s) := by
    unfold countStart
    split
    · exact q
    · exact quiet_ite (quiet_failTrial (quiet_onUpd q)) (quiet_onUpd q)
  unfold trialStart
  exact quiet_ite q (quiet_ite (quiet_failTrial q) (quiet_ite q counted))

theorem quiet_tamperAct {d : Nat} (q : Quiet v s) : Quiet v (tamperAct d s) := by
  have logged {c : EvClass} {b i k : Nat} {l : List (Nat × Nat)} {f : KeyBlock → KeyBlock} {s : State} (q : Quiet v s) :
      Quiet v (logEv c b i k l (onKey f s)) := quiet_logEv (quiet_onKey q)
  unfold tamperAct
  exact quiet_ite (quiet_slotsChanged (logged (logged q))) (logged q)

theorem quiet_actLatched (q : Quiet v s) : Quiet v (actLatched s) :=
  quiet_foldl (quiet_onKey q) fun _ _ q => quiet_ite (quiet_tamperAct q) q

theorem quiet_changeEntry {k src old new : Nat} {d d' : Bytes} (q : Quiet v s) :
    Quiet v (changeEntry k src old new d d' s) :=
  quiet_logEv (quiet_onOwl q rfl rfl)

theorem quiet_wipeClass {r : Bool} (q : Quiet v s) : Quiet v (wipeClass r s) := by
  unfold wipeClass
  refine quiet_ite (quiet_changeEntry ?wiped) ?wiped
  refine quiet_onOwl (quiet_onCfg (Quiet.law ?cleared [.tag] same_wipeCache)) rfl rfl
  exact quiet_onUpd (quiet_onKey (quiet_ite (quiet_onKey q) (q.law [.key, .freeCtr] same_freshSeed)))

theorem quiet_decideLc (q : Quiet v s) : Quiet v (decideLc s) := by
  unfold decideLc
  refine quiet_ite (quiet_onKey q) (quiet_ite (quiet_logEv (quiet_onKey q)) (quiet_ite ?_ (quiet_onKey q)))
  exact quiet_logEv (quiet_onKey (quiet_ite (quiet_onKey q) (quiet_wipeClass (quiet_onKey q))))

/-- A change of the life cycle asks for a reset, and asserts none. -/
theorem quiet_transition {new : Lc} {o r : Bytes} {op c : Nat} (q : Quiet v s) : Quiet v (transition new o r op c s) := by
  have written {s : State} {o r : Bytes} {b : Bool} (q : Quiet v s) : Quiet v (writeLc new o r b s) :=
    q.law [.key] (same_writeLc new o r b)
  unfold transition
  refine quiet_onSys (quiet_logEv (quiet_onOwl ?owl rfl rfl)) id rfl
  refine quiet_onKey (quiet_ite (quiet_onKey ?record) ?record)
  refine written (quiet_ite (quiet_wipeClass (written ?saved)) (written ?saved))
  exact quiet_ite (q.law [.met] (same_capture 1 (outletMask s) 0 (nowTs s) [] none)) q

theorem quiet_returnIfDue (q : Quiet v s) : Quiet v (returnIfDue s) :=
  quiet_ite (quiet_ite (quiet_transition q) q) q

/-! ### The structure coming into force -/

/-- A channel of a new structure goes on as it was, is off, or is absent: a boot has none that conducts. -/
theorem quiet_startChannels {b b' : Struct} (q : Quiet v s) : Quiet v (startChannels b b' s) := by
  refine ⟨q.released, q.ran, ?_, q.sram, q.view⟩
  have off := q.off
  simp only [List.all_eq_true] at off ⊢
  intro c hc
  simp only [startChannels, onPwr_pwr, List.mem_mapIdx] at hc
  obtain ⟨n, hn, rfl⟩ := hc
  split
  · split
    · exact off _ (List.getElem_mem hn)
    · split <;> rfl
  · rfl

theorem quiet_startOutlets {b b' : Struct} (q : Quiet v s) : Quiet v (startOutlets b b' s) := by
  unfold startOutlets
  refine quiet_onOwl (Quiet.law ?bil [.flt] fun hw h => same_onFlt hw h) rfl rfl
  exact (quiet_onMet q).law [.bil] fun hw h => same_onBil hw h

theorem quiet_startBlocks {b b' : Struct} (q : Quiet v s) : Quiet v (startBlocks b b' s) := by
  unfold startBlocks
  refine quiet_onOwl ?gate rfl rfl
  refine quiet_glkGate (quiet_ite ?leds (Quiet.law ?leds [.glk] same_reestimateAll))
  refine quiet_ite (quiet_onEpd ?panel) ?panel
  refine quiet_ite (Quiet.law ?reader [.epd, .log, .freeCtr] same_startEpd) (quiet_ite (quiet_onEpd ?reader) ?reader)
  refine quiet_ite (quiet_onTag ?can) (quiet_ite (quiet_onTag ?can) ?can)
  refine quiet_foldl ?mac fun s c q => quiet_ite (q.law [.can] fun hw h => same_onCan hw h) q
  refine quiet_ite (Quiet.law ?modem [.eth] fun hw h => same_onEth hw h) ?modem
  exact quiet_ite (quiet_onGlk (q.law [.glk] (same_dropMember .off))) q

theorem quiet_installStruct {c : Nat} {b : Struct} (q : Quiet v s) : Quiet v (installStruct c b s) := by
  have running := quiet_startOutlets (b := s.str.cur) (b' := b)
    ((quiet_onStr (f := fun x => { x with cur := b, copyInUse := c + 1, noStruct := false, locked := true }) q).law [.lane]
      (same_startLanes s.str.cur b))
  have linked := (quiet_startChannels (b := s.str.cur) (b' := b) running).law [.vlk] (same_startLinks s.str.cur b)
  exact (quiet_startBlocks linked).law [.glk] same_zcCheck

/-- Whichever copy is chosen, or none (R38). -/
theorem quiet_bootStructure {adopted : Bool} (q : Quiet v s) : Quiet v (bootStructure adopted s) := by
  have settled := q.law [.str] (same_settleTrials adopted)
  have examined := settled.law [.str, .log] (same_examine (bootOrder (settleTrials adopted s)))
  unfold bootStructure
  dsimp only
  split
  next t c h =>
    rw [h] at examined
    exact ((quiet_onStr (quiet_installStruct examined)).law [.str, .lane, .met, .log] (same_judgeSwaps true)).law [.log]
      same_limpIgnored
  next t h =>
    rw [h] at examined
    exact quiet_logEv (quiet_onStr examined)

/-! ### Owl's configuration and its failed diagnostic -/

/-- A channel's change to an output that is off; the watch of the cable locks touches no channel. -/
theorem quiet_setCh_off {n : Nat} (q : Quiet v s) : Quiet v (setCh n .off s) := by
  have same : Same [.pwr, .vlk, .log] s (setCh n .off s) := same_setCh n .off rfl (same_refl _ s)
  have owl : (setCh n .off s).owl = s.owl := same.part (q := .owl) rfl
  have sram : (setCh n .off s).sram = s.sram := same.part (q := .sram) rfl
  refine ⟨owl ▸ q.released, owl ▸ q.ran, ?_, sram ▸ q.sram, (same_resetView same rfl).trans q.view⟩
  have off := q.off
  simp only [List.all_eq_true] at off ⊢
  intro c hc
  unfold setCh at hc
  rw [lockWatch_ch] at hc
  obtain ⟨k, hk, rfl⟩ := List.mem_iff_getElem.mp hc
  simp only [onCh, onPwr_pwr, upd, List.getElem_modify]
  split
  · rfl
  · exact off _ (List.getElem_mem _)

/-- No channel switches on before Owl's first RUN (R417). -/
theorem quiet_settleCh {n : Nat} (q : Quiet v s) : Quiet v (settleCh n s) := by
  unfold settleCh
  have on (st : ChState) : Quiet v (if (demand s n && s.owl.ran) = true then setCh n st s else s) := by
    rw [q.ran, Bool.and_false]
    exact q
  dsimp only
  split
  · exact quiet_ite q (quiet_setCh_off q)
  · exact quiet_ite q (quiet_setCh_off q)
  · exact quiet_ite q (quiet_setCh_off q)
  · exact on .inrush
  · exact q

theorem quiet_assertLine (q : Quiet v s) : Quiet v (assertLine s) :=
  quiet_foldl (quiet_onOwl (f := fun b => { b with released := List.replicate 4 false }) q q.released.symm rfl)
    fun _ _ q => quiet_settleCh q

/-- With no outlet released, the line withdraws none and ends no session. -/
theorem quiet_lineDrop (q : Quiet v s) : Quiet v (lineDrop s) := by
  have withheld : Quiet v (refreshWithhold s) := by
    unfold refreshWithhold
    exact quiet_onOwl q rfl rfl
  have dropped := quiet_foldl (l := outletList (refreshWithhold s))
    (f := fun s o => if flag s.owl.released o then withdraw o s else s) withheld fun s o q => by
      rw [if_neg fun h => flag_none (q.released ▸ h)]
      exact q
  exact (quiet_assertLine (quiet_onOwl dropped rfl rfl)).law [.vlk] same_slacChecks

theorem quiet_cfgCheck {x y : Bool} (q : Quiet v s) : Quiet v (cfgCheck x y s) :=
  quiet_ite (quiet_changeEntry (quiet_logEv (quiet_onOwl q rfl rfl)))
    (quiet_ite (quiet_logEv (quiet_onOwl q (by split <;> rfl) (by split <;> rfl))) q)

theorem quiet_diagFail {d x : Nat} (q : Quiet v s) : Quiet v (diagFail d x s) := by
  unfold diagFail
  extract_lets old again s1 s2
  have q2 : Quiet v s2 := quiet_onOwl (quiet_logEv q) rfl rfl
  exact quiet_lineDrop (quiet_ite (quiet_logEv q2) q2)

theorem quiet_owlLoad {d : Nat} (q : Quiet v s) : Quiet v (owlLoad d s) :=
  quiet_ite (quiet_ite (quiet_diagFail (quiet_cfgCheck q)) (quiet_cfgCheck q)) (quiet_cfgCheck q)

/-! ### The cores, the services and the mode (R422) -/

/-- The wipe leaves no reset, no release, no conducting channel and no byte of SRAM (R420). -/
theorem quiet_wipe {cold : Bool} {c : Nat} {i : BootInput} : Quiet (none, false, 0, .dormant) (wipe cold c i s) := by
  refine ⟨rfl, rfl, ?_, rfl, rfl⟩
  simp only [wipe, keepPwr, List.all_map, List.all_eq_true]
  intro x _
  show (!(if cold then Channel.fresh else _).state.conducts) = true
  split
  · rfl
  · rfl

/-- From the wipe to the saves of the new structure, the cores start without an output becoming active. -/
theorem quiet_bootCores {h : ResetHold} {i : BootInput} : Quiet (none, false, 0, .dormant) (bootCores h i s) := by
  unfold bootCores
  extract_lets was follows s1 s2 s3 s4 s5
  have q2 : Quiet _ s2 := quiet_ite (quiet_wipe.law [.log] (same_logOwlState .halt .start 8)) quiet_wipe
  have q3 : Quiet _ s3 := quiet_decideLc q2
  have q4 : Quiet _ s4 := quiet_ite ((quiet_onKey q3).law [.log] same_logRng) q3
  have q5 : Quiet _ s5 := quiet_actLatched (q4.law [.key] same_deriveSlots)
  have resolved := (quiet_trialStart (cold := h.cold) (follows := follows) q5).law [.str, .met, .tag, .upd, .log, .freeCtr]
    same_resolveRecord
  generalize resolveRecord (trialStart h.cold follows s5) = x at resolved ⊢
  obtain ⟨s6, adopted⟩ := x
  dsimp -zeta only at resolved ⊢
  extract_lets seals s7 s8 s9 s10
  have q7 : Quiet _ s7 := quiet_bootStructure resolved
  clear_value s7
  have q8 : Quiet _ s8 := quiet_onOwl q7 rfl rfl
  have q9 : Quiet _ s9 := quiet_owlLoad q8
  have q10 : Quiet _ s10 := (quiet_ite (q9.law [.met, .bil] same_metStart) q9).law [.bil] same_rebuildReplay
  exact quiet_ite (q10.law [.met] (same_capture 6 (outletMask s10) 0 (nowTs s10) [] none)) q10

theorem quiet_setMode {r : Option ResetHold} {b : Bool} {c row : Nat} {m m' : Mode} (q : Quiet (r, b, c, m) s) :
    Quiet (r, b, c, m') (setMode row m' s) :=
  (quiet_logEv (quiet_onSys q (fun x => (x.1, x.2.1, x.2.2.1, m')) rfl)).law [.mgt] (same_notice 1 m'.code)

/-- Rows 9 and 10 of R374 leave a mode that is neither READY nor SESSION. -/
theorem evalMode_eq_self (h : s.sys.mode ≠ .ready) (h' : s.sys.mode ≠ .session) : evalMode s = s := by
  unfold evalMode
  simp only [h, h', false_and, if_false, ite_self]

/-- READY stays, or gives way to SESSION. -/
theorem quiet_evalMode_ready {r : Option ResetHold} {b : Bool} {c : Nat} (q : Quiet (r, b, c, .ready) s) :
    ∃ m, (m = .ready ∨ m = .session) ∧ Quiet (r, b, c, m) (evalMode s) := by
  unfold evalMode
  split
  · exact ⟨.ready, .inl rfl, q⟩
  · split
    · exact ⟨.session, .inr rfl, quiet_setMode q⟩
    · split
      · exact ⟨.ready, .inl rfl, quiet_setMode q⟩
      · exact ⟨.ready, .inl rfl, q⟩

/-- The mode that the structure allows: MAINTENANCE without one, else READY or SESSION. -/
def BootMode (noStruct : Bool) (m : Mode) : Prop := if noStruct then m = .maintenance else m = .ready ∨ m = .session

theorem quiet_bootMode {r : Option ResetHold} {b : Bool} {c : Nat} {m₀ : Mode} (q : Quiet (r, b, c, m₀) s) :
    ∃ m, BootMode s.str.noStruct m ∧ Quiet (r, b, c, m) (bootMode s) := by
  unfold BootMode bootMode
  cases s.str.noStruct with
  | true =>
    have q' : Quiet (r, b, c, .maintenance) (setMode 11 .maintenance s) := quiet_setMode q
    have hm : (setMode 11 .maintenance s).sys.mode = .maintenance := congrArg (fun v : ResetView => v.2.2.2) q'.view
    refine ⟨.maintenance, rfl, ?_⟩
    rw [if_pos rfl, evalMode_eq_self (by simp [hm]) (by simp [hm])]
    exact q'
  | false => exact quiet_evalMode_ready (quiet_setMode q)

/-- SYS_RSTCAUSE as the boot writes it (R427): the causes of the reset, what the boot found, and its kind. -/
def bootCause (old : SysBlock) (h : ResetHold) (unsaved : Option Nat) : Nat :=
  Nat.lor h.causes (flagAt old.afterHoldup causeHoldup + flagAt unsaved.isSome 14 + flagAt old.seqErr.isSome 15
    + (if h.cold then 1 else 2))

theorem bitAt_eq_testBit {w n : Nat} : bitAt w n = w.testBit n := by
  rw [Nat.testBit_eq_decide_div_mod_eq]
  rfl

/-- The kind of the reset stands in bit 0 or bit 1. -/
theorem bitAt_bootCause {old : SysBlock} {h : ResetHold} {unsaved : Option Nat} :
    bitAt (bootCause old h unsaved) (if h.cold then 0 else 1) = true := by
  have kind : ∀ a b c d : Bool, (flagAt a causeHoldup + flagAt b 14 + flagAt c 15 + (if d then 1 else 2)).testBit
      (if d then 0 else 1) = true := by decide
  rw [bitAt_eq_testBit, bootCause]
  show (h.causes ||| _).testBit _ = true
  rw [Nat.testBit_or, kind, Bool.or_true]

/-- The services end the boot: SYS_RSTCAUSE, the boot flag and the mode, the outputs as they were. -/
theorem quiet_bootServices {old : SysBlock} {h : ResetHold} {u : Option Nat} {i : BootInput}
    (q : Quiet (none, false, 0, .dormant) s) : ∃ m, BootMode s.str.noStruct m
      ∧ Quiet (none, true, bootCause old h u, m) (bootServices old h u i s) := by
  unfold bootServices
  extract_lets cause s1 s2 s3 s4 s5 s6 bad
  have q1 : Quiet (none, false, cause, .dormant) s1 := quiet_onSys q (fun x => (x.1, x.2.1, cause, x.2.2.2)) rfl
  have q2 : Quiet _ s2 := quiet_onHsi q1
  have q3 : Quiet _ s3 := q2.law [.met, .log] (same_bootEvents old u (bitAt h.causes causeVbatPor))
  have q4 : Quiet _ s4 := q3.law [.key, .log] same_loadSlots
  have booted := quiet_onSys (f := fun b => { b with booted := true }) q4 (fun x => (x.1, true, x.2.2.1, x.2.2.2)) rfl
  have q5 : Quiet (none, true, cause, .dormant) s5 := booted.law [.log] same_drainRetention
  have same : Same [.sys, .key, .met, .log] s2 s5 := same_drainRetention rfl
    (same_onSys rfl (same_loadSlots rfl (same_bootEvents old u _ rfl (same_refl _ s2))) fun _ => ⟨rfl, rfl⟩)
  have str : s5.str = s.str := same.part (q := .str) rfl
  clear_value s5
  rw [← str]
  obtain ⟨m, hm, q⟩ := quiet_bootMode q5
  have q6 : Quiet (none, true, cause, m) s6 := quiet_slotsChanged (q.law [.bil, .log] same_flushProfile)
  exact ⟨m, hm, quiet_returnIfDue (quiet_ite (quiet_failTrial q6) q6)⟩

/-- The services change no structure. -/
theorem bootServices_str {old : SysBlock} {h : ResetHold} {u : Option Nat} {i : BootInput} :
    (bootServices old h u i s).str = s.str :=
  (same_bootServices old h u i (listed_self _) (same_refl _ s)).part (q := .str) rfl

/-! ## BOOT -/

/-- A reset that nothing prolongs ends in the cores' start and the services' (R416, R422). -/
theorem exec_boot_released {b : BootInput} {h : ResetHold} (hr : s.sys.reset = some h) (hpin : h.pin = false)
    (hheld : s.sys.held = false) (hup : s.sys.holdup = false) :
    exec (.boot b) s = .next (bootServices s.sys h (unsavedSeconds h s) b (bootCores h b s)) := by
  show execBoot b s = _
  simp only [execBoot, hr, hpin, hheld, hup, Bool.false_eq_true, or_self, if_false]

/-- Without a reset, or while the supplies or the hold-up prolong it, BOOT does nothing. -/
theorem exec_boot_prolonged {b : BootInput} (h : s.sys.reset = none ∨ s.sys.held = true ∨ s.sys.holdup = true) :
    exec (.boot b) s = .next s := by
  show execBoot b s = _
  unfold execBoot
  split
  · rfl
  next r hr =>
    have hp : s.sys.held = true ∨ r.pin = true ∨ s.sys.holdup = true := by
      rcases h with h | h | h
      · simp [hr] at h
      · exact .inl h
      · exact .inr (.inr h)
    rw [if_pos hp]

/-- Settles O8: the wipe makes the state quiet, every later step of the boot keeps it so, and `bootMode` takes the mode from
NOSTRUCT. -/
theorem bootComesUpSafe : Obligations.BootComesUpSafe := by
  unfold Obligations.BootComesUpSafe
  refine ⟨?released, fun s b h => exec_boot_prolonged h⟩
  intro s b h _ hr hpin hheld hup
  obtain ⟨m, hm, q⟩ := quiet_bootServices (old := s.sys) (h := h) (u := unsavedSeconds h s) (i := b)
    (quiet_bootCores (s := s) (h := h) (i := b))
  refine ⟨_, exec_boot_released hr hpin hheld hup, ?_⟩
  rw [← bootServices_str (old := s.sys) (h := h) (u := unsavedSeconds h s) (i := b)] at hm
  generalize bootServices s.sys h (unsavedSeconds h s) b (bootCores h b s) = t at hm q ⊢
  obtain ⟨released, -, off, sram, view⟩ := q
  simp only [resetView, Prod.mk.injEq] at view
  obtain ⟨hreset, hbooted, hcause, hmode⟩ := view
  refine ⟨hreset, hbooted, ⟨released, off⟩, sram, hcause ▸ bitAt_bootCause, fun hn => ?_, fun hn => ?_⟩
  · rw [hmode]
    simpa [BootMode, hn] using hm
  · rw [hmode]
    simpa [BootMode, hn] using hm

/-! ## The completion of an activation (R43) -/

/-- A command of the host. -/
def hostReq : Req := { side := .host, tag := 0 }

/-- An activation of copy A that it began. -/
def hostActivation : Activation := { req := some hostReq, copy := 0, side := .host }

/-- A device in this activation whose Warren flash partition holds no copy: `State.Inv` counts lanes, outlets and channels,
and not the copies. -/
def copylessActivation : State :=
  { State.reset with str := { StrBlock.fresh with copies := [], act := some hostActivation } }

/-- The activation's completion writes a selector only where a copy is, and adds none. -/
theorem copyless_after_completion {t : State} (ht : exec .warrenActivationComplete copylessActivation = .next t) :
    t.str.copies = [] := by
  have h := Host.Outcome.next.inj ht
  rw [← h]
  decide +kernel

/-- Refutes O37: the invariant leaves open how many copies the Warren partition holds. With none, the completion commits no
selector: copy A reads EMPTY after it, and not COMMITTED. -/
theorem not_warrenActivationEffect : ¬ Obligations.WarrenActivationEffect := by
  unfold Obligations.WarrenActivationEffect
  rintro ⟨-, -, completes⟩
  have inv : copylessActivation.Inv := by decide +kernel
  obtain ⟨t, ht, -, -, -, -, -, -, sel⟩ := completes copylessActivation hostActivation hostReq inv (by decide) rfl rfl
  have empty : (copyOf t 0).sel = .empty := by
    unfold copyOf
    rw [copyless_after_completion ht]
    rfl
  exact absurd (empty.symm.trans sel) (by decide)

/-! ## Frames of keys, updates and Warren -/

/-- Where the lemma of a command's meaning gives its frame from the state itself on, its next state keeps that frame. -/
theorem onlyIn_next {w : List Part} {o : Host.Outcome State Fault Refusal} {t : State}
    (f : listed w w = true → Same w s s → SameO w s o) (h : o = .next t) : OnlyIn w s t :=
  onlyIn_of_sameO (f (listed_self w) (same_refl w s)) h

/-- Settles O50: each command is its meaning, and the lemma of that meaning (Laws/Frame*) names the parts it writes. -/
theorem keyUpdateAndWarrenFrames : Obligations.KeyUpdateAndWarrenFrames := by
  unfold Obligations.KeyUpdateAndWarrenFrames
  intro s t
  exact ⟨fun r => onlyIn_next (same_execWarrenActivate r),
    fun o i => onlyIn_next (same_execIntervalClose o i),
    fun r m => onlyIn_next (same_execKeyUpdate r m),
    fun r n => onlyIn_next (same_execKeyAttest r n),
    fun r => onlyIn_next (same_execKeyCertRead r),
    fun r => onlyIn_next (same_execKeyChallenge r),
    fun r b => onlyIn_next (same_execKeyMaintProve r b),
    fun r m => onlyIn_next (same_execKeyZeroise r m),
    onlyIn_next same_execMaintGrantExpiry,
    fun v c => onlyIn_next (same_execMaintAuthorityExpiry v c),
    fun v => onlyIn_next (same_execKeyCntLoRead v),
    fun v => onlyIn_next (same_execKeyStatusRead v),
    fun r h => onlyIn_next (same_execUpdBegin r h),
    fun r k b => onlyIn_next (same_execUpdData r k b),
    fun r => onlyIn_next (same_execUpdConfirm r),
    fun r => onlyIn_next (same_execUpdEnd r),
    fun r => onlyIn_next (same_execUpdAbort r),
    onlyIn_next same_execUpdTransferTimeout,
    fun r k => onlyIn_next (same_execUpdActivate r k),
    onlyIn_next same_execTrialPass,
    fun k => onlyIn_next (same_execTrialFail k),
    onlyIn_next same_execWarrenActivationComplete⟩

end Sys2Proof.Machine
end

section
/-! PROOFS. The statements of 02_measurement_lanes.md: what every step keeps of the invariant, the frames of the lane commands,
one lane apart from the others, and the effect of each command of the lanes, their chain and their spares (R48–R78). -/

namespace Sys2Proof.Machine

variable {s t : State}

/-! ## The invariant at reset and over every step -/

/-- Settles O4: the state after reset is closed, so its counts, bounds and outputs are evaluated; its queue is empty as it
stands. -/
theorem resetMeetsTheInvariant : Obligations.ResetMeetsTheInvariant := by
  unfold Obligations.ResetMeetsTheInvariant
  exact ⟨by decide +kernel, by decide +kernel, rfl⟩

/-- Every command keeps the queue, the identity and the invariant, by the lemma of its meaning (Laws/Kept*). -/
theorem kept_exec {b : Prop} {p : List Instr} {i : Ident} (c : Instr) (h : Kept b p i s) : KeptO b p i (exec c s) :=
  match c with
  | .supplyGood x => kept_execSupplyGood x h
  | .boot x => kept_execBoot x h
  | .cacheLoaded => kept_execCacheLoaded h
  | .warrenActivate x => kept_execWarrenActivate x h
  | .laneSampleWord x y => kept_execLaneSampleWord x y h
  | .laneStuck x y => kept_execLaneStuck x y h
  | .laneClkerr x => kept_execLaneClkerr x h
  | .resamplerCycle x y => kept_execResamplerCycle x y h
  | .detectorUpdate x y z => kept_execDetectorUpdate x y z h
  | .firdataWrite x y => kept_execFirdataWrite x y h
  | .firSwap x => kept_execFirSwap x h
  | .laneTrialWrite x y => kept_execLaneTrialWrite x y h
  | .laneCalWrite x y z => kept_execLaneCalWrite x y z h
  | .laneSuspect x => kept_execLaneSuspect x h
  | .warmupDecision x y z => kept_execWarmupDecision x y z h
  | .laneSwap x => kept_execLaneSwap x h
  | .spareFailed x y => kept_execSpareFailed x y h
  | .laneFailed x y => kept_execLaneFailed x y h
  | .strikeExpiry x => kept_execStrikeExpiry x h
  | .laneRestore x y => kept_execLaneRestore x y h
  | .intervalClose x y => kept_execIntervalClose x y h
  | .saveComplete => kept_execSaveComplete h
  | .snapshotSigned => kept_execSnapshotSigned h
  | .sramScrub x => kept_execSramScrub x h
  | .metCoreReload => kept_execMetCoreReload h
  | .pulseTimer x => kept_execPulseTimer x h
  | .snapctlTake x => kept_execSnapctlTake x h
  | .calctlStart x => kept_execCalctlStart x h
  | .calctlStop => kept_execCalctlStop h
  | .energyLoRead x y z => kept_execEnergyLoRead x y z h
  | .harmLoRead x => kept_execHarmLoRead x h
  | .calAccLoRead x y z => kept_execCalAccLoRead x y z h
  | .legalEventConfirm x => kept_execLegalEventConfirm x h
  | .bilLoRead x y => kept_execBilLoRead x y h
  | .calLoad x y => kept_execCalLoad x y h
  | .tokenEnter x y => kept_execTokenEnter x y h
  | .billSnapRead x y => kept_execBillSnapRead x y h
  | .billReset x => kept_execBillReset x h
  | .loadProfileRecord => kept_execLoadProfileRecord h
  | .tokenMirrorConfirm x => kept_execTokenMirrorConfirm x h
  | .lsDemandChange x => kept_execLsDemandChange x h
  | .lsOverload x y => kept_execLsOverload x y h
  | .lsInrushEnd x y => kept_execLsInrushEnd x y h
  | .lsRetryTimer x => kept_execLsRetryTimer x h
  | .lsRetryReset x => kept_execLsRetryReset x h
  | .lsThermalLatch x y => kept_execLsThermalLatch x y h
  | .lsLatchAutoclear x y => kept_execLsLatchAutoclear x y h
  | .lsUndervoltage x y => kept_execLsUndervoltage x y h
  | .lsUvRecover x y => kept_execLsUvRecover x y h
  | .lsOpenloadOn x y => kept_execLsOpenloadOn x y h
  | .lsOpenloadDiag x y => kept_execLsOpenloadDiag x y h
  | .pwrClear x y z => kept_execPwrClear x y z h
  | .weldClear x y => kept_execWeldClear x y h
  | .limpInputChange x y => kept_execLimpInputChange x y h
  | .fastTrip x y => kept_execFastTrip x y h
  | .supervisedDelayExpiry x y => kept_execSupervisedDelayExpiry x y h
  | .rcEvaluate x y => kept_execRcEvaluate x y h
  | .rcTrip x y => kept_execRcTrip x y h
  | .isoStateSwitch x y => kept_execIsoStateSwitch x y h
  | .isoUnknown x y => kept_execIsoUnknown x y h
  | .preCloseResult x y => kept_execPreCloseResult x y h
  | .postOpenResult x y => kept_execPostOpenResult x y h
  | .lockFeedback x y => kept_execLockFeedback x y h
  | .lockTimeout x => kept_execLockTimeout x h
  | .lockRetry x => kept_execLockRetry x h
  | .owlStartComplete => kept_execOwlStartComplete h
  | .owlDiagFail x y => kept_execOwlDiagFail x y h
  | .owlPeriodicDiag x y z => kept_execOwlPeriodicDiag x y z h
  | .owlSafeTimeout => kept_execOwlSafeTimeout h
  | .owlWatchdogExpiry => kept_execOwlWatchdogExpiry h
  | .owlCycle => kept_execOwlCycle h
  | .meterOkTimeout x => kept_execMeterOkTimeout x h
  | .guardInputChange x y => kept_execGuardInputChange x y h
  | .guardDisagree x y => kept_execGuardDisagree x y h
  | .tripAutoclear x y => kept_execTripAutoclear x y h
  | .autoclrExpiry x => kept_execAutoclrExpiry x h
  | .owlPwProve x y => kept_execOwlPwProve x y h
  | .owlPwSet x y z => kept_execOwlPwSet x y z h
  | .owlPwEnd x => kept_execOwlPwEnd x h
  | .owlTripClear x y => kept_execOwlTripClear x y h
  | .owlEfdomSet x y => kept_execOwlEfdomSet x y h
  | .owlLogRead x y => kept_execOwlLogRead x y h
  | .safetySessionExpiry => kept_execSafetySessionExpiry h
  | .pwLockoutEnd => kept_execPwLockoutEnd h
  | .efdomTransmit x => kept_execEfdomTransmit x h
  | .efdomFrameReceive x y => kept_execEfdomFrameReceive x y h
  | .efdomWatchdogExpiry x => kept_execEfdomWatchdogExpiry x h
  | .pilotStateAccepted x y z => kept_execPilotStateAccepted x y z h
  | .pilotFaultHold x y => kept_execPilotFaultHold x y h
  | .pilotModeTransitionEnd x => kept_execPilotModeTransitionEnd x h
  | .vlkPilotWrite x y => kept_execVlkPilotWrite x y h
  | .proximityCode x y => kept_execProximityCode x y h
  | .vlkStart x y => kept_execVlkStart x y h
  | .vlkStop x y z => kept_execVlkStop x y z h
  | .vlkUnlock x y => kept_execVlkUnlock x y h
  | .releaseRetry x => kept_execReleaseRetry x h
  | .precloseRetry x => kept_execPrecloseRetry x h
  | .dcContactorOpen x => kept_execDcContactorOpen x h
  | .overdraw x y z => kept_execOverdraw x y z h
  | .cmSlacParmReq x y => kept_execCmSlacParmReq x y h
  | .cmStartAttenCharInd x y => kept_execCmStartAttenCharInd x y h
  | .cmMnbcSoundInd x y z => kept_execCmMnbcSoundInd x y z h
  | .soundingWindowEnd x => kept_execSoundingWindowEnd x h
  | .cmAttenCharRsp x y => kept_execCmAttenCharRsp x y h
  | .attenCharResend x => kept_execAttenCharResend x h
  | .cmValidateReq x y z => kept_execCmValidateReq x y z h
  | .validationWindowEnd x y => kept_execValidationWindowEnd x y h
  | .cmSlacMatchReq x y => kept_execCmSlacMatchReq x y h
  | .slacJoined x => kept_execSlacJoined x h
  | .slacTimeout x y => kept_execSlacTimeout x y h
  | .slacLinkLost x => kept_execSlacLinkLost x h
  | .frameTxTailWrite x y => kept_execFrameTxTailWrite x y h
  | .frameRxTailWrite x y => kept_execFrameRxTailWrite x y h
  | .frameTransmitted x y => kept_execFrameTransmitted x y h
  | .frameTxTimeout x => kept_execFrameTxTimeout x h
  | .frameReceived x y => kept_execFrameReceived x y h
  | .glkBeacon x => kept_execGlkBeacon x h
  | .ccAssocCnf x y => kept_execCcAssocCnf x y h
  | .nekReceived x => kept_execNekReceived x h
  | .glkAssocTimeout => kept_execGlkAssocTimeout h
  | .glkBackoffExpiry => kept_execGlkBackoffExpiry h
  | .glkBeaconLoss => kept_execGlkBeaconLoss h
  | .glkLeaseRenew => kept_execGlkLeaseRenew h
  | .glkCfgWrite x => kept_execGlkCfgWrite x h
  | .neighbourExpiry x => kept_execNeighbourExpiry x h
  | .toneMapReceived x y => kept_execToneMapReceived x y h
  | .toneMapTimeout x y => kept_execToneMapTimeout x y h
  | .toneMapReestimate x => kept_execToneMapReestimate x h
  | .sackReceived x => kept_execSackReceived x h
  | .msduLifetimeExpiry => kept_execMsduLifetimeExpiry h
  | .reassemblyTimeout x => kept_execReassemblyTimeout x h
  | .glkZcIndSend => kept_execGlkZcIndSend h
  | .glkZcInd x y => kept_execGlkZcInd x y h
  | .glkWakeInd x => kept_execGlkWakeInd x h
  | .wakeInhibitEnd => kept_execWakeInhibitEnd h
  | .ethLinkPoll x y z => kept_execEthLinkPoll x y z h
  | .backhaulFailover => kept_execBackhaulFailover h
  | .ethMdioGo x => kept_execEthMdioGo x h
  | .ethMdioDone x => kept_execEthMdioDone x h
  | .secondBoundary => kept_execSecondBoundary h
  | .domainHoldoverExpiry x => kept_execDomainHoldoverExpiry x h
  | .slewComplete x y => kept_execSlewComplete x y h
  | .rtcCalibration x => kept_execRtcCalibration x h
  | .alarmFire => kept_execAlarmFire h
  | .timSet x y z => kept_execTimSet x y z h
  | .timOffset x y z => kept_execTimOffset x y z h
  | .timSelect x y => kept_execTimSelect x y h
  | .timIncWrite x y => kept_execTimIncWrite x y h
  | .timAlarmHiWrite x => kept_execTimAlarmHiWrite x h
  | .timPtpfPop => kept_execTimPtpfPop h
  | .timNowLoRead x => kept_execTimNowLoRead x h
  | .timDomTsLoRead x y => kept_execTimDomTsLoRead x y h
  | .timBcnTsLoRead x => kept_execTimBcnTsLoRead x h
  | .timStatusRead x => kept_execTimStatusRead x h
  | .fieldDetection => kept_execFieldDetection h
  | .fullPoll x => kept_execFullPoll x h
  | .tagHoldExpiry => kept_execTagHoldExpiry h
  | .limpHitExpiry => kept_execLimpHitExpiry h
  | .tagXfer x y z => kept_execTagXfer x y z h
  | .tagRelease x => kept_execTagRelease x h
  | .tagCachePut x y => kept_execTagCachePut x y h
  | .tagCacheDel x y => kept_execTagCacheDel x y h
  | .tagCacheGet x y => kept_execTagCacheGet x y h
  | .tagCacheClear x => kept_execTagCacheClear x h
  | .cacheMirror => kept_execCacheMirror h
  | .tagCtSecure x => kept_execTagCtSecure x h
  | .tagCtOpen x => kept_execTagCtOpen x h
  | .tagCtPublish x y => kept_execTagCtPublish x y h
  | .tagCtAdopt x => kept_execTagCtAdopt x h
  | .tagRptPop => kept_execTagRptPop h
  | .tagStatusRead x => kept_execTagStatusRead x h
  | .ctReadBlock x y => kept_execCtReadBlock x y h
  | .ctWriteSingleBlock x y z u => kept_execCtWriteSingleBlock x y z u h
  | .ctGetChallenge => kept_execCtGetChallenge h
  | .ctAuthWrite x y z u v => kept_execCtAuthWrite x y z u v h
  | .ctFieldChange x y z => kept_execCtFieldChange x y z h
  | .epdUpdate x y z u => kept_execEpdUpdate x y z u h
  | .epdFrame => kept_execEpdFrame h
  | .legalDwell => kept_execLegalDwell h
  | .epdTempWrite x => kept_execEpdTempWrite x h
  | .epdStop => kept_execEpdStop h
  | .crackLoopMeasure x y => kept_execCrackLoopMeasure x y h
  | .ledStep x => kept_execLedStep x h
  | .ledOpen x y => kept_execLedOpen x y h
  | .keyUpdate x y => kept_execKeyUpdate x y h
  | .keyAttest x y => kept_execKeyAttest x y h
  | .keyCertRead x => kept_execKeyCertRead x h
  | .keyChallenge x => kept_execKeyChallenge x h
  | .keyMaintProve x y => kept_execKeyMaintProve x y h
  | .keyZeroise x y => kept_execKeyZeroise x y h
  | .maintGrantExpiry => kept_execMaintGrantExpiry h
  | .maintAuthorityExpiry x y => kept_execMaintAuthorityExpiry x y h
  | .tamperDetect x => kept_execTamperDetect x h
  | .keyCntLoRead x => kept_execKeyCntLoRead x h
  | .keyStatusRead x => kept_execKeyStatusRead x h
  | .updBegin x y => kept_execUpdBegin x y h
  | .updData x y z => kept_execUpdData x y z h
  | .updEnd x => kept_execUpdEnd x h
  | .updAbort x => kept_execUpdAbort x h
  | .updTransferTimeout => kept_execUpdTransferTimeout h
  | .updActivate x y => kept_execUpdActivate x y h
  | .updConfirm x => kept_execUpdConfirm x h
  | .trialPass => kept_execTrialPass h
  | .trialFail x => kept_execTrialFail x h
  | .badgerWatchdogExpiry => kept_execBadgerWatchdogExpiry h
  | .appHeartbeatTimeout x => kept_execAppHeartbeatTimeout x h
  | .mgtAmbHbWrite x => kept_execMgtAmbHbWrite x h
  | .mailboxDoorbell x => kept_execMailboxDoorbell x h
  | .monitorEvaluate x => kept_execMonitorEvaluate x h
  | .clockFail x => kept_execClockFail x h
  | .logArchiveFlush x => kept_execLogArchiveFlush x h
  | .mgtLogRead x y z => kept_execMgtLogRead x y z h
  | .mgtLogAck x y => kept_execMgtLogAck x y h
  | .mgtRestart x => kept_execMgtRestart x h
  | .sleep x y => kept_execSleep x y h
  | .sleepVoteTimeout x => kept_execSleepVoteTimeout x h
  | .sleepCommit => kept_execSleepCommit h
  | .sleepArm => kept_execSleepArm h
  | .sleepEnter => kept_execSleepEnter h
  | .wakeEvent x y => kept_execWakeEvent x y h
  | .modeSet x y => kept_execModeSet x y h
  | .limpExit => kept_execLimpExit h
  | .sysWakeWrite x => kept_execSysWakeWrite x h
  | .sysWakesrcRead x => kept_execSysWakesrcRead x h
  | .registerWrite x y z => kept_execRegisterWrite x y z h
  | .bufferWrite x y z => kept_execBufferWrite x y z h
  | .hsiTransactionError x => kept_execHsiTransactionError x h
  | .hsiFrameTimeout => kept_execHsiFrameTimeout h
  | .ctailWrite x y => kept_execCtailWrite x y h
  | .hsiReleaseWrite x y => kept_execHsiReleaseWrite x y h
  | .resultSlotRead x y => kept_execResultSlotRead x y h
  | .badgerCommandTimeout x => kept_execBadgerCommandTimeout x h
  | .hsiNop x y => kept_execHsiNop x y h
  | .canStuck x y => kept_execCanStuck x y h
  | .canBusoffRecovery x y => kept_execCanBusoffRecovery x y h
  | .canErrorStateChange x y z => kept_execCanErrorStateChange x y z h
  | .powerFailWarning x y z => kept_execPowerFailWarning x y z h
  | .holdupComplete x => kept_execHoldupComplete x h
  | .rstNAssert x => kept_execRstNAssert x h
  | .brownout x => kept_execBrownout x h
  | .vbatPor => kept_execVbatPor h
  | .sysRstreqWrite x => kept_execSysRstreqWrite x h
  | .requestedReset => kept_execRequestedReset h
  | .warrenActivationComplete => kept_execWarrenActivationComplete h
  | .metFirmwareReloaded => kept_execMetFirmwareReloaded h
  | .badgerReady => kept_execBadgerReady h
  | .ledOvertemp x y => kept_execLedOvertemp x y h
  | .fastTapWord x y => kept_execFastTapWord x y h
  | .reducedFieldMeasurement x => kept_execReducedFieldMeasurement x h
  | .modulatorClockReturn x => kept_execModulatorClockReturn x h

/-- A step keeps the identity and the invariant: it is a tick, or the front command on the queue's rest. -/
theorem keptO_step {b : Prop} (h : b → s.Inv) : KeptO b s.pending.tail s.ident (step s) := by
  unfold step
  split
  next empty =>
    rw [empty]
    exact keptO_next (kept_tick ⟨empty, rfl, h⟩)
  next c rest front =>
    rw [front]
    exact kept_exec c ⟨rfl, rfl, h⟩

/-- Settles O5: the invariant is part of what the tick and every command keep. -/
theorem everyStepKeepsTheInvariant : Obligations.EveryStepKeepsTheInvariant := by
  unfold Obligations.EveryStepKeepsTheInvariant
  intro s t inv h
  obtain ⟨-, -, kept⟩ := keptO_step (fun _ : True => inv) t h
  exact kept trivial

/-! ## Frames of the lane commands -/

/-- Settles O42: each command is its meaning, and the lemma of that meaning (Laws/FrameLanes, Laws/FrameChain) names the parts
it writes. -/
theorem laneFrames : Obligations.LaneFrames := by
  unfold Obligations.LaneFrames
  intro s t
  exact ⟨fun n i => onlyIn_next (same_execLaneSampleWord n i),
    fun n h => onlyIn_next (same_execLaneStuck n h),
    fun n => onlyIn_next (same_execLaneSuspect n),
    fun m k => onlyIn_next (same_execSpareFailed m k),
    fun n k => onlyIn_next (same_execLaneFailed n k),
    fun n => onlyIn_next (same_execLaneClkerr n),
    fun n w => onlyIn_next (same_execFirdataWrite n w),
    fun n => onlyIn_next (same_execFirSwap n),
    fun n b => onlyIn_next (same_execLaneTrialWrite n b),
    fun n d w => onlyIn_next (same_execLaneCalWrite n d w),
    fun n => onlyIn_next (same_execStrikeExpiry n),
    fun n => onlyIn_next (same_execModulatorClockReturn n),
    fun o a => onlyIn_next (same_execResamplerCycle o a),
    fun n w m => onlyIn_next (same_execDetectorUpdate n w m),
    fun m u l => onlyIn_next (same_execWarmupDecision m u l),
    fun m => onlyIn_next (same_execLaneSwap m),
    fun r n => onlyIn_next (same_execLaneRestore r n)⟩

/-! ## One lane apart from the others -/

/-- Every lane but `n`, the queue of suspects and the resamplers are as they were. -/
def OthersKept (n : Nat) (a s : State) : Prop :=
  (∀ m, m ≠ n → laneOf s m = laneOf a m) ∧ s.lane.queue = a.lane.queue ∧ s.lane.rs = a.lane.rs

section Others
variable {n : Nat} {a : State}

theorem othersKept_refl : OthersKept n a a := ⟨fun _ _ => rfl, rfl, rfl⟩

theorem othersKept_ite {c : Prop} [Decidable c] {x y : State} (hx : OthersKept n a x) (hy : OthersKept n a y) :
    OthersKept n a (if c then x else y) := by
  split
  · exact hx
  · exact hy

/-- An operation that leaves the block of the lanes. -/
theorem othersKept_of_lane_eq {t : State} (ht : t.lane = s.lane) (h : OthersKept n a s) : OthersKept n a t := by
  unfold OthersKept laneOf
  rw [ht]
  exact h

theorem othersKept_logEv {c : EvClass} {b i k : Nat} {d : List (Nat × Nat)} (h : OthersKept n a s) :
    OthersKept n a (logEv c b i k d s) := othersKept_of_lane_eq logEv_lane h

theorem othersKept_onLane {f : Lane → Lane} (h : OthersKept n a s) : OthersKept n a (onLane n f s) :=
  ⟨fun m hm => (laneOf_onLane_ne hm).trans (h.1 m hm), h.2⟩

/-- A trigger is raised on its own lane, and in the warm-ups. -/
theorem othersKept_raiseTrigger {k : Trigger} (h : OthersKept n a s) : OthersKept n a (raiseTrigger n k s) :=
  othersKept_onLane (f := fun l => if l.trig.isNone then { l with trig := some k } else l) h

theorem othersKept_checkFail {stage : Nat} (h : OthersKept n a s) : OthersKept n a (checkFail n stage s) :=
  othersKept_raiseTrigger (othersKept_onLane h)

theorem othersKept_overloadChange {on : Bool} (h : OthersKept n a s) : OthersKept n a (overloadChange n on s) := by
  unfold overloadChange
  exact othersKept_ite (othersKept_onLane h) (othersKept_logEv (othersKept_onLane (othersKept_onLane h)))

/-- `OthersKept` of what an outcome goes on to. -/
def OthersKeptO (n : Nat) (a : State) (o : Host.Outcome State Fault Refusal) : Prop := ∀ t, o = .next t → OthersKept n a t

theorem othersKeptO_next (h : OthersKept n a s) : OthersKeptO n a (.next s) := by
  rintro t ⟨⟩
  exact h

theorem othersKept_execLaneStuck {h : Bool} : OthersKeptO n s (execLaneStuck n h s) :=
  othersKeptO_next (othersKept_ite
    (othersKept_raiseTrigger (othersKept_onLane (othersKept_ite othersKept_refl (othersKept_overloadChange othersKept_refl))))
    othersKept_refl)

theorem othersKept_execLaneClkerr : OthersKeptO n s (execLaneClkerr n s) :=
  othersKeptO_next (othersKept_ite (othersKept_raiseTrigger (othersKept_onLane othersKept_refl)) othersKept_refl)

theorem othersKept_execModulatorClockReturn : OthersKeptO n s (execModulatorClockReturn n s) :=
  othersKeptO_next (othersKept_onLane othersKept_refl)

theorem othersKept_execDetectorUpdate {w ms : Bool} : OthersKeptO n s (execDetectorUpdate n w ms s) :=
  othersKeptO_next (othersKept_ite (othersKept_onLane (othersKept_of_lane_eq rfl othersKept_refl)) othersKept_refl)

theorem othersKept_execFirdataWrite {w : Word} : OthersKeptO n s (execFirdataWrite n w s) :=
  othersKeptO_next (othersKept_ite (othersKept_onLane othersKept_refl) othersKept_refl)

theorem othersKept_execFirSwap : OthersKeptO n s (execFirSwap n s) :=
  othersKeptO_next (othersKept_ite (othersKept_onLane othersKept_refl) othersKept_refl)

theorem othersKept_execLaneTrialWrite {set : Bool} : OthersKeptO n s (execLaneTrialWrite n set s) :=
  othersKeptO_next (othersKept_ite
    (othersKept_ite (othersKept_ite (othersKept_onLane othersKept_refl) othersKept_refl) (othersKept_onLane othersKept_refl))
    othersKept_refl)

theorem othersKept_execLaneCalWrite {delay : Bool} {w : Word} : OthersKeptO n s (execLaneCalWrite n delay w s) :=
  othersKeptO_next (othersKept_ite (othersKept_onLane othersKept_refl) othersKept_refl)

theorem othersKept_execSpareFailed {k : Nat} : OthersKeptO n s (execSpareFailed n k s) :=
  othersKeptO_next (othersKept_ite (othersKept_logEv (othersKept_onLane othersKept_refl)) othersKept_refl)

theorem othersKept_execLaneFailed {k : Nat} : OthersKeptO n s (execLaneFailed n k s) :=
  othersKeptO_next (othersKept_ite (othersKept_logEv (othersKept_onLane othersKept_refl)) othersKept_refl)

theorem othersKept_execStrikeExpiry : OthersKeptO n s (execStrikeExpiry n s) :=
  othersKeptO_next (othersKept_onLane othersKept_refl)

/-! ### The stages of a lane's own word -/

theorem othersKept_stage2 {i : LaneInput} (h : OthersKept n a s) : OthersKept n a (stage2 n i s) := by
  unfold stage2
  extract_lets l count s1 ov s2
  have h2 : OthersKept n a s2 := othersKept_ite (othersKept_overloadChange (othersKept_onLane h)) (othersKept_onLane h)
  exact othersKept_onLane (othersKept_of_lane_eq rfl h2)

theorem othersKept_stages34 {i : LaneInput} (h : OthersKept n a s) : OthersKept n a (stages34 n i s) := by
  unfold stages34
  extract_lets l f m3 s1 s2 g gw dly used y m4 s3 s4
  have h1 : OthersKept n a s1 := othersKept_of_lane_eq rfl h
  have h2 : OthersKept n a s2 := othersKept_ite (othersKept_checkFail h1) h1
  have h3 : OthersKept n a s3 := othersKept_of_lane_eq rfl h2
  have h4 : OthersKept n a s4 := othersKept_ite (othersKept_checkFail h3) h3
  exact othersKept_onLane h4

end Others

/-! ### The grids that a word clocks, and the warm-ups -/

/-- A lane but for what a failed check of the resampler leaves on it: the trigger, the check count and STAGE (R68, R69). -/
def ButForCheck (l l' : Lane) : Prop := l' = { l with trig := l'.trig, chkErr := l'.chkErr, stage := l'.stage }

theorem butForCheck_trans {x y z : Lane} (h : ButForCheck x y) (h' : ButForCheck y z) : ButForCheck x z := by
  unfold ButForCheck at *
  rw [h', h]

/-- Every lane is as it was but for what a failed check leaves, and the queue of suspects is as it was. -/
def ChecksOnly (a s : State) : Prop := (∀ m, ButForCheck (laneOf a m) (laneOf s m)) ∧ s.lane.queue = a.lane.queue

section Checks
variable {a : State}

theorem checksOnly_refl : ChecksOnly a a := ⟨fun _ => rfl, rfl⟩

theorem checksOnly_ite {c : Prop} [Decidable c] {x y : State} (hx : ChecksOnly a x) (hy : ChecksOnly a y) :
    ChecksOnly a (if c then x else y) := by
  split
  · exact hx
  · exact hy

/-- The block of the lanes may change in its resamplers and warm-ups. -/
theorem checksOnly_onLaneBlk {f : LaneBlock → LaneBlock} (h : ChecksOnly a s) (hl : (f s.lane).lanes = s.lane.lanes)
    (hq : (f s.lane).queue = s.lane.queue) : ChecksOnly a (onLaneBlk f s) := by
  unfold ChecksOnly laneOf
  rw [onLaneBlk_lane, hl, hq]
  exact h

/-- A change of lane `n` that every lane bears, or, where there is no lane `n`, no change. -/
theorem laneOf_onLane_rel {R : Lane → Lane → Prop} {n : Nat} {f : Lane → Lane} (hr : ∀ l, R l l) (hf : ∀ l, R l (f l))
    (m : Nat) : R (laneOf s m) (laneOf (onLane n f s) m) := by
  by_cases hm : m = n
  · subst hm
    by_cases hn : m < s.lane.lanes.length
    · rw [laneOf_onLane_self hn]
      exact hf _
    · have outside : upd s.lane.lanes m f = s.lane.lanes := List.modify_eq_self (not_lt.mp hn)
      show R _ ((upd s.lane.lanes m f).getD m Lane.fresh)
      rw [outside]
      exact hr _
  · rw [laneOf_onLane_ne hm]
    exact hr _

theorem checksOnly_onLane {n : Nat} {f : Lane → Lane} (h : ChecksOnly a s) (hf : ∀ l, ButForCheck l (f l)) :
    ChecksOnly a (onLane n f s) :=
  ⟨fun m => butForCheck_trans (h.1 m) (laneOf_onLane_rel (R := ButForCheck) (fun _ => rfl) hf m), h.2⟩

theorem checksOnly_checkFail {n stage : Nat} (h : ChecksOnly a s) : ChecksOnly a (checkFail n stage s) :=
  checksOnly_onLaneBlk (checksOnly_onLane (checksOnly_onLane h fun _ => rfl) fun _ => by split <;> rfl) rfl rfl

theorem checksOnly_formWord {o idx k at' : Nat} (h : ChecksOnly a s) : ChecksOnly a (formWord o idx at' k s) := by
  unfold formWord
  have formed {f : LaneBlock → LaneBlock} (hl : (f s.lane).lanes = s.lane.lanes) (hq : (f s.lane).queue = s.lane.queue) :
      ChecksOnly a (onLaneBlk f s) := checksOnly_onLaneBlk h hl hq
  exact checksOnly_ite (checksOnly_checkFail (formed rfl rfl)) (formed rfl rfl)

theorem checksOnly_formDue {o : Nat} (h : ChecksOnly a s) : ChecksOnly a (formDue o s) := by
  unfold formDue
  dsimp only
  split
  · exact h
  · exact checksOnly_onLaneBlk (List.foldlRecOn (motive := ChecksOnly a) _ _ h fun _ h _ _ => checksOnly_formWord h) rfl rfl

theorem checksOnly_gridStep {o : Nat} {x : Int} (h : ChecksOnly a s) : ChecksOnly a (gridStep o x s) :=
  checksOnly_onLaneBlk (s := bump (formDue o s)) (checksOnly_formDue h) rfl rfl

/-- The grids that lane `n` clocks with its word `x`, and the warm-ups it takes part in. -/
theorem checksOnly_clocked {n : Nat} {x : Int} (h : ChecksOnly a s) :
    ChecksOnly a (compareWarm n ((List.range 4).foldl (fun s o => if clocks s n o then gridStep o x s else s) s)) :=
  have grids := List.foldlRecOn (motive := ChecksOnly a) (List.range 4)
    (fun s o => if clocks s n o then gridStep o x s else s) h fun _ h _ _ => checksOnly_ite (checksOnly_gridStep h) h
  checksOnly_onLaneBlk grids rfl rfl

end Checks

/-- A word of a lane on which TRIAL does not end: its own stages touch that lane alone, and its grids only count checks. -/
theorem sampleLane_others {n : Nat} {i : LaneInput} (h : (laneOf s n).trialEnd = false) :
    (sampleLane n i s).lane.queue = s.lane.queue
      ∧ ∀ m, m ≠ n → ButForCheck (laneOf s m) (laneOf (sampleLane n i s) m) := by
  have own : OthersKept n s (stages34 n i (stage2 n i (onLane n firSwap s))) :=
    othersKept_stages34 (othersKept_stage2 (othersKept_onLane othersKept_refl))
  obtain ⟨lanes, queue, -⟩ := own
  unfold sampleLane
  simp only [h, Bool.false_eq_true, if_false]
  obtain ⟨checks, queue'⟩ := checksOnly_clocked (n := n)
    (x := (laneOf (stages34 n i (stage2 n i (onLane n firSwap s))) n).sample.val) checksOnly_refl
  exact ⟨queue'.trans queue, fun m hm => lanes m hm ▸ checks m⟩

/-- A sample word, delivered or not, on a lane on which TRIAL does not end. -/
theorem execLaneSampleWord_others {n : Nat} {i : LaneInput} (h : (laneOf s n).trialEnd = false)
    (ht : execLaneSampleWord n i s = .next t) :
    t.lane.queue = s.lane.queue ∧ ∀ m, m ≠ n → ButForCheck (laneOf s m) (laneOf t m) := by
  obtain rfl := Host.Outcome.next.inj ht
  split
  · exact sampleLane_others h
  · exact ⟨rfl, fun _ _ => rfl⟩

/-- Settles O53: a command of lane `n` updates lane `n` alone; a sample word's grids count checks on their carriers. -/
theorem oneLaneCommandsLeaveTheOtherLanes : Obligations.OneLaneCommandsLeaveTheOtherLanes := by
  unfold Obligations.OneLaneCommandsLeaveTheOtherLanes
  intro s t n
  exact ⟨fun _ => othersKept_execLaneStuck t,
    othersKept_execLaneClkerr t,
    othersKept_execModulatorClockReturn t,
    fun _ _ => othersKept_execDetectorUpdate t,
    fun _ => othersKept_execFirdataWrite t,
    othersKept_execFirSwap t,
    fun _ => othersKept_execLaneTrialWrite t,
    fun _ _ => othersKept_execLaneCalWrite t,
    fun _ => othersKept_execSpareFailed t,
    fun _ => othersKept_execLaneFailed t,
    othersKept_execStrikeExpiry t,
    fun _ => execLaneSampleWord_others⟩

/-! ## Lanes and their updates -/

section Lanes
variable {n m : Nat}

/-- The invariant counts 40 lanes. -/
theorem lanes_length (inv : s.Inv) : s.lane.lanes.length = 40 := by
  obtain ⟨shape, -⟩ := inv
  exact (List.cons.inj shape).1

/-- An update of a lane that the device has. -/
theorem laneOf_onLane {f : Lane → Lane} (inv : s.Inv) (hn : n < 40) : laneOf (onLane n f s) n = f (laneOf s n) :=
  laneOf_onLane_self (by simpa [lanes_length inv])

@[simp] theorem laneOf_logEv {c : EvClass} {b i k : Nat} {d : List (Nat × Nat)} : laneOf (logEv c b i k d s) n = laneOf s n :=
  congrArg (fun x : LaneBlock => x.lanes.getD n Lane.fresh) logEv_lane

/-- What a change of lane `n` leaves of each lane, it leaves of lane `m`. -/
theorem laneOf_onLane_eq {α : Type} {g : Lane → α} {f : Lane → Lane} (hf : ∀ l, g (f l) = g l) :
    g (laneOf (onLane n f s) m) = g (laneOf s m) :=
  laneOf_onLane_rel (R := fun l l' => g l' = g l) (fun _ => rfl) hf m

/-! ## Spares -/

theorem idleSpare_idle (h : idleSpare s = some m) : (laneOf s m).health = .idle :=
  eq_of_beq (List.find?_some (p := fun n => (laneOf s n).health == .idle) h)

/-- A warm-up changes its spare, and of the suspect its partner. -/
theorem startWarmup_keeps {α : Type} {g : Lane → α} {k : Nat} (hg : ∀ l p, g { l with partner := p } = g l) (h : n ≠ m) :
    g (laneOf (startWarmup m k s) n) = g (laneOf s n) := by
  unfold startWarmup
  extract_lets l s1 s2 s3
  have spare : laneOf s2 n = laneOf s n := (laneOf_onLane_ne h).trans (laneOf_onLane_ne h)
  exact (laneOf_onLane_eq fun l => hg l _).trans (congrArg g spare)

/-- Serving the queue takes an idle spare; of another lane it changes at most the partner. -/
theorem serveQueue_keeps {α : Type} {g : Lane → α} (hg : ∀ l p, g { l with partner := p } = g l)
    (h : (laneOf s n).health ≠ .idle) : g (laneOf (serveQueue s) n) = g (laneOf s n) := by
  unfold serveQueue
  split
  next k m _ spare =>
    have ne : n ≠ m := by
      rintro rfl
      exact h (idleSpare_idle spare)
    split
    · exact startWarmup_keeps (s := onLaneBlk (fun b => { b with queue := b.queue.erase k }) s) hg ne
    · rfl
  · rfl

theorem serveQueue_health (h : (laneOf s n).health ≠ .idle) : (laneOf (serveQueue s) n).health = (laneOf s n).health :=
  serveQueue_keeps (fun _ _ => rfl) h

theorem serveQueue_nil (h : s.lane.queue = []) : serveQueue s = s := by
  unfold serveQueue
  rw [h]
  rfl

@[simp] theorem serveQueue_str : (serveQueue s).str = s.str :=
  (same_serveQueue (listed_self _) (same_refl _ s)).part (q := .str) rfl

@[simp] theorem carrier_logEv {c : EvClass} {b i k : Nat} {d : List (Nat × Nat)} :
    carrier (logEv c b i k d s) n = carrier s n :=
  congrArg (fun x : StrBlock => x.subst.getD n n) logEv_str

/-! ### Suspicion and decision (R71–R74) -/

theorem laneSuspect_enters {k : Trigger} (inv : s.Inv) (hn : n < 40) (ht : (laneOf s n).trig = some k)
    (hs : serves s n = true) :
    Answers (.laneSuspect n) s fun t => (laneOf t n).health = .suspect ∧ (laneOf t n).trig = none := by
  refine ⟨_, rfl, ?_⟩
  simp only [ht, hs, if_true, laneOf_logEv]
  generalize hx : onLaneBlk _ (onLane n _ s) = x
  have entered : (laneOf x n).health = .suspect ∧ (laneOf x n).trig = none := by
    have self := laneOf_onLane (f := fun l => { l with health := .suspect, trig := none }) inv hn
    exact hx ▸ ⟨congrArg Lane.health self, congrArg Lane.trig self⟩
  have busy : (laneOf x n).health ≠ .idle := by simp [entered]
  rw [serveQueue_health busy, serveQueue_keeps (g := Lane.trig) (fun _ _ => rfl) busy]
  exact entered

/-- A warm-up ends in the suspect's return: no trigger, strikes left and no mismatch (R74). -/
theorem warmupDecision_returns {u e : Bool} {w : Warmup} (inv : s.Inv) (hn : w.suspect < 40)
    (hw : s.lane.warm.find? (fun w => w.spare == m && w.decided.isNone) = some w) (hspare : w.spareTrig = none)
    (hsus : w.suspectTrig = false) (own : w.suspect = w.lane) (ne : w.suspect ≠ m)
    (hstr : (laneOf s w.suspect).strikes < 2) (hmis : mismatch e w = false) :
    Answers (.warmupDecision m u e) s fun t =>
      (laneOf t w.suspect).health = .good ∧ (laneOf t w.suspect).strikes = (laneOf s w.suspect).strikes + 1 := by
  refine ⟨_, rfl, ?_⟩
  simp only [hw, hspare, hsus, not_le.mpr hstr, hmis, beq_iff_eq.mpr own, Bool.false_eq_true, if_false, if_true]
  generalize hx : releaseSpare m _ = x
  have returned : (laneOf x w.suspect).health = .good ∧ (laneOf x w.suspect).strikes = (laneOf s w.suspect).strikes + 1 := by
    rw [← hx, releaseSpare, laneOf_onLane_ne ne, laneOf_onLane_self (by simpa [lanes_length inv])]
    exact ⟨rfl, min_eq_right hstr⟩
  have busy : (laneOf (logEv .service 0x14 w.suspect 0x0202
      [(1, w.suspect), (1, m), (4, meanDiff u e w), (1, (laneOf x w.suspect).strikes)] x) w.suspect).health ≠ .idle := by
    simp [returned]
  rw [serveQueue_health busy, serveQueue_keeps (g := Lane.strikes) (fun _ _ => rfl) busy, laneOf_logEv]
  exact returned

/-- A warm-up ends in a mismatch: the swap is decided, with reason 3 and the mean difference, and its record written. -/
theorem warmupDecision_swaps {u e : Bool} {w : Warmup}
    (hw : s.lane.warm.find? (fun w => w.spare == m && w.decided.isNone) = some w) (hspare : w.spareTrig = none)
    (hsus : w.suspectTrig = false) (hstr : (laneOf s w.suspect).strikes < 2) (hmis : mismatch e w = true) :
    Answers (.warmupDecision m u e) s fun t =>
      (∃ x ∈ t.lane.warm, x.spare = m ∧ x.decided = some (3, meanDiff u e w))
        ∧ (∃ x ∈ t.met.subst, x.lane = w.lane ∧ x.spare = m ∧ x.ok = true) := by
  refine ⟨_, rfl, ?_⟩
  simp only [hw, hspare, hsus, not_le.mpr hstr, hmis, Bool.false_eq_true, if_false, if_true]
  have of_m : w.spare = m := by
    have := List.find?_some hw
    simp only [Bool.and_eq_true, beq_iff_eq] at this
    exact this.1
  constructor
  · exact ⟨_, List.mem_map_of_mem (List.mem_of_find?_eq_some hw), by simp [of_m], by simp [of_m]⟩
  · exact ⟨_, List.mem_append_right _ (List.mem_singleton_self _), rfl, rfl, rfl⟩

/-! ### The swap and the failures (R70, R72, R74, R76) -/

/-- The spare carries the function: SUBST names it, and its health is SERVING (R72 step 8). -/
theorem laneSwap_serves {reason mean : Nat} {w : Warmup} (inv : s.Inv) (hm : m < 40) (hl : w.lane < s.str.subst.length)
    (hw : s.lane.warm.find? (fun w => w.spare == m) = some w) (hd : w.decided = some (reason, mean)) (hlane : w.lane ≠ m)
    (hsus : w.suspect ≠ m) :
    Answers (.laneSwap m) s fun t => carrier t w.lane = m ∧ (laneOf t m).health = .serving := by
  refine ⟨_, rfl, ?_⟩
  simp only [hw, hd, carrier_logEv, laneOf_logEv]
  generalize hx : onLane m _ (onStr _ (onLaneBlk _ s)) = x
  have serving : carrier x w.lane = m ∧ (laneOf x m).health = .serving := by
    have self := laneOf_onLane (f := fun l => { l with health := .serving, partner := w.lane, trig := none }) inv hm
    exact hx ▸ ⟨put_getD_self hl, congrArg Lane.health self⟩
  split
  · rw [laneOf_onLane_ne hlane.symm]
    exact serving
  · rw [laneOf_onLane_ne hlane.symm, laneOf_onLane_ne hsus.symm]
    exact serving

/-- Badger up, the ring's newest record is the event just raised. -/
theorem newest_logEv {c : EvClass} {b i k : Nat} {d : List (Nat × Nat)} (up : badgerUp s = true) :
    Newest (logEv c b i k d s) c k d := by
  unfold Newest logEv sendEvent
  rw [if_pos up]
  simp [enterLog, List.getLast?_drop]

theorem exec_spareFailed_idle {k : Nat} (idle : (laneOf s m).health = .idle) :
    exec (.spareFailed m k) s = .next (logEv .service 0x14 m 0x0204 [(1, m), (1, k)]
      (onLane m (fun l => { l with health := .failed, trig := none }) s)) :=
  congrArg _ (if_pos idle)

theorem spareFailed_fails {k : Nat} (inv : s.Inv) (hm : m < 40) (idle : (laneOf s m).health = .idle) :
    Answers (.spareFailed m k) s fun t => (laneOf t m).health = .failed
      ∧ (badgerUp s = true → Newest t .service 0x0204 [(1, m), (1, k)]) :=
  ⟨_, exec_spareFailed_idle idle, by rw [laneOf_logEv, laneOf_onLane inv hm], fun up => newest_logEv up⟩

theorem laneFailed_fails {k : Nat} (inv : s.Inv) (hn : n < 40) (sus : (laneOf s n).health = .suspect) :
    Answers (.laneFailed n k) s fun t => laneOf t n = { laneOf s n with health := .failed } := by
  refine ⟨_, rfl, ?_⟩
  simp only [if_pos sus, laneOf_logEv, laneOf_onLane inv hn]

theorem strikeExpiry_takes (inv : s.Inv) (hn : n < 40) :
    Answers (.strikeExpiry n) s fun t => laneOf t n = { laneOf s n with strikes := (laneOf s n).strikes - 1 } :=
  ⟨_, rfl, laneOf_onLane inv hn⟩

/-! ### Restoration (R78) -/

theorem posted_postSts {r : Req} {sts : Nat} : Posted (postSts r sts s) r sts [] := rfl

@[simp] theorem laneOf_postSts {r : Req} {sts : Nat} : laneOf (postSts r sts s) n = laneOf s n := rfl
@[simp] theorem carrier_postSts {r : Req} {sts : Nat} : carrier (postSts r sts s) n = carrier s n := rfl
@[simp] theorem carrier_serveQueue : carrier (serveQueue s) n = carrier s n :=
  congrArg (fun x : StrBlock => x.subst.getD n n) serveQueue_str

/-- LANE_RESTORE of a FAILED lane passes its checks in MAINTENANCE mode without a session. -/
theorem exec_laneRestore_failed {r : Req} (hn : n < 40) (hin : laneIn s.str.cur n = true) (up : s.sys.badgerDown = false)
    (mode : s.sys.mode = .maintenance) (free : homeSession s n = false) (failed : (laneOf s n).health = .failed) :
    exec (.laneRestore r n) s = .next (postSts r stsOk (serveQueue (restoreLane n s))) := by
  show Host.Outcome.next (badgerCmd r _ s) = _
  have inRange : ¬ 39 < n := by omega
  simp [badgerCmd, guarded, firstFail, up, hin, inRange, mode, free, failed]

/-- A lane that takes its function back is GOOD and its own carrier. -/
theorem takeBack_restores (inv : s.Inv) (hn : n < 40) (hs : n < s.str.subst.length) :
    (laneOf (takeBack n s) n).health = .good ∧ carrier (takeBack n s) n = n := by
  refine ⟨?_, put_getD_self hs⟩
  unfold takeBack
  extract_lets m s1 s2 s3
  have inv3 : s3.Inv := inv
  rw [laneOf_onLane inv3 hn]
  dsimp only
  split
  · rfl
  · rfl

/-- A measuring lane is restored by taking its function back, whatever spare serves or warms for it. -/
theorem restoreLane_measure (inv : s.Inv) (hn : n < 40) (hr : laneRole s n = 1) (hs : n < s.str.subst.length) :
    (laneOf (restoreLane n s) n).health = .good ∧ carrier (restoreLane n s) n = n := by
  unfold restoreLane
  extract_lets k s1 m sp s2
  have start := kept_start (s := s) fun _ : True => inv
  obtain ⟨-, -, inv2⟩ : Kept True s.pending s.ident s2 := kept_dropWarm n (kept_ite (kept_releaseSpare m start) start)
  have same : Same [.lane] s s2 := same_dropWarm n rfl (same_ite (same_releaseSpare m rfl (same_refl _ s)) (same_refl _ s))
  have str : s2.str = s.str := same.part (q := .str) rfl
  rw [if_neg (by simp [hr]), laneOf_logEv, carrier_logEv]
  exact takeBack_restores (inv2 trivial) hn (str ▸ hs)

/-- A measuring lane restored is GOOD and carries its own function. -/
theorem laneRestore_measure {r : Req} (inv : s.Inv) (hn : n < 40) (hin : laneIn s.str.cur n = true)
    (hr : laneRole s n = 1) (hs : n < s.str.subst.length) (up : s.sys.badgerDown = false)
    (mode : s.sys.mode = .maintenance) (free : homeSession s n = false) (failed : (laneOf s n).health = .failed) :
    Answers (.laneRestore r n) s fun t => Posted t r stsOk [] ∧ (laneOf t n).health = .good ∧ carrier t n = n := by
  refine ⟨_, exec_laneRestore_failed hn hin up mode free failed, posted_postSts, ?_⟩
  obtain ⟨good, own⟩ := restoreLane_measure inv hn hr hs
  rw [laneOf_postSts, carrier_postSts, carrier_serveQueue, serveQueue_health (by simp [good])]
  exact ⟨good, own⟩

/-- A FAILED spare without a function is restored to IDLE; with no lane waiting it stays so. -/
theorem laneRestore_spare {r : Req} (inv : s.Inv) (hn : n < 40) (hin : laneIn s.str.cur n = true)
    (hr : laneRole s n = 2) (up : s.sys.badgerDown = false) (mode : s.sys.mode = .maintenance)
    (free : homeSession s n = false) (failed : (laneOf s n).health = .failed) (own : functionOf s n = n)
    (none : s.lane.queue = []) :
    Answers (.laneRestore r n) s fun t => Posted t r stsOk [] ∧ (laneOf t n).health = .idle := by
  refine ⟨_, exec_laneRestore_failed hn hin up mode free failed, posted_postSts, ?_⟩
  have idle : (laneOf (restoreLane n s) n).health = .idle ∧ (restoreLane n s).lane.queue = [] := by
    simp only [restoreLane, hr, own, if_true, laneOf_logEv, logEv_lane, releaseSpare]
    have inv' : (onLaneBlk (fun b => { b with queue := b.queue.erase n }) s).Inv := inv
    rw [laneOf_onLane inv' hn]
    exact ⟨rfl, by simp [onLane, none]⟩
  rw [laneOf_postSts, serveQueue_nil idle.2]
  exact idle.1

end Lanes

/-- Settles O11: each command's decision is read off its row, and serving the queue afterwards touches no lane that is not
idle but for its partner. -/
theorem laneSpareCommandsEffect : Obligations.LaneSpareCommandsEffect := by
  unfold Obligations.LaneSpareCommandsEffect
  refine ⟨?_, ?_, ?_, ?_, ?_, ?_, ?_, ?_, ?_⟩
  · exact fun s n k => laneSuspect_enters
  · exact fun s m u e w => warmupDecision_returns
  · exact fun s m u e w _ => warmupDecision_swaps
  · exact fun s m reason mean w => laneSwap_serves
  · exact fun s m k => spareFailed_fails
  · exact fun s n k => laneFailed_fails
  · exact fun s n => strikeExpiry_takes
  · exact fun s r n => laneRestore_measure
  · exact fun s r n => laneRestore_spare

/-! ## The chain of a lane -/

section Chain
variable {n m o : Nat}

theorem satFs_natAbs (x : Int) : (satFs x).natAbs ≤ 0x7FFFFF := by
  unfold satFs clamp laneFs
  omega

/-! ### A delivered word (R48, R57, R67) -/

/-- What the swap of banks writes: the active bank, SWAP and CRCERR (R57). -/
def banks (l : Lane) : Bool × Bool × Bool := (l.bankB, l.swap, l.crcErr)

/-- A lane's sequence number and its banks. -/
def seqBanks (l : Lane) : Nat × Bool × Bool × Bool := (l.seq, banks l)

/-- The sample register holds a word within full scale, with the CRC-8 of its lane, its sequence number and its value (R67). -/
def SampleOk (n : Nat) (l : Lane) : Prop :=
  l.sample.val.natAbs ≤ 0x7FFFFF ∧ l.sample.crc = laneCrc n l.seq l.sample.val

theorem firSwap_seq {l : Lane} : (firSwap l).seq = l.seq := by
  unfold firSwap
  split
  · rfl
  · split <;> rfl

/-- A swap asked for is done or refused by the CRC of the bank that is to become active (R57). -/
theorem firSwap_acts {l : Lane} (h : l.swap = true) : (firSwap l).swap = false
    ∧ (tapsCrc (inactiveTaps l) = l.firCrc → (firSwap l).bankB = !l.bankB)
    ∧ (tapsCrc (inactiveTaps l) ≠ l.firCrc → (firSwap l).bankB = l.bankB ∧ (firSwap l).crcErr = true) := by
  unfold firSwap
  rw [if_neg (by simp [h])]
  split
  next same => exact ⟨rfl, fun _ => rfl, fun other => absurd same other⟩
  next other => exact ⟨rfl, fun same => absurd same other, fun _ => ⟨rfl, rfl⟩⟩

theorem overloadChange_keeps {α : Type} {g : Lane → α} {on : Bool}
    (hg : ∀ l b k t, g { l with overload := b, ovld := k, ovldLogged := t } = g l) :
    g (laneOf (overloadChange n on s) m) = g (laneOf s m) := by
  unfold overloadChange
  extract_lets l s1
  have h1 : g (laneOf s1 m) = g (laneOf s m) := laneOf_onLane_eq fun l => hg l _ _ l.ovldLogged
  split
  · exact h1
  · rw [laneOf_logEv]
    exact (laneOf_onLane_eq fun l => hg l l.overload l.ovld _).trans h1

theorem checkFail_keeps {α : Type} {g : Lane → α} {stage : Nat}
    (hg : ∀ l t c k, g { l with trig := t, chkErr := c, stage := k } = g l) :
    g (laneOf (checkFail n stage s) m) = g (laneOf s m) := by
  have check : ButForCheck (laneOf s m) (laneOf (checkFail n stage s) m) := (checksOnly_checkFail checksOnly_refl).1 m
  rw [show laneOf (checkFail n stage s) m = _ from check]
  exact hg _ _ _ _

/-- Stage 2 advances the sequence number. -/
theorem stage2_seqBanks {i : LaneInput} (inv : s.Inv) (hn : n < 40) :
    seqBanks (laneOf (stage2 n i s) n) = (((laneOf s n).seq + 1) % 4, banks (laneOf s n)) := by
  unfold stage2
  extract_lets l count s1 ov s2 l2 ints forced seq
  have start := kept_start (s := s) fun _ : True => inv
  have kept1 : Kept True s.pending s.ident s1 := kept_onLane _ _ start
  obtain ⟨-, -, inv2⟩ : Kept True s.pending s.ident s2 := kept_ite (kept_overloadChange n ov kept1) kept1
  have view1 : seqBanks (laneOf s1 n) = seqBanks (laneOf s n) := laneOf_onLane_eq fun _ => rfl
  have view2 : seqBanks (laneOf s2 n) = seqBanks (laneOf s n) := by
    simp only [s2]
    split
    · exact (overloadChange_keeps fun _ _ _ _ => rfl).trans view1
    · exact view1
  obtain ⟨seq2, banks2⟩ := Prod.mk.inj view2
  have inv3 : (bump s2).Inv := inv2 trivial
  rw [← seq2, ← banks2]
  clear_value s2
  split
  extract_lets c w
  clear_value c
  rw [laneOf_onLane inv3 hn]
  exact Prod.ext (Eq.refl seq) (Eq.refl (banks (laneOf s2 n)))

/-- Stages 3 and 4 fill the sample register and leave the sequence number and the banks. -/
theorem stages34_sample {i : LaneInput} (inv : s.Inv) (hn : n < 40) :
    SampleOk n (laneOf (stages34 n i s) n) ∧ seqBanks (laneOf (stages34 n i s) n) = seqBanks (laneOf s n) := by
  unfold stages34
  extract_lets l f m3 s1 s2 g gw dly used y m4 s3 s4 sat v forced w
  have start := kept_start (s := s1) fun _ : True => inv
  have kept2 : Kept True s.pending s.ident s2 := kept_ite (kept_checkFail n 1 start) start
  have kept3 : Kept True s.pending s.ident s3 := kept2
  obtain ⟨-, -, inv4⟩ : Kept True s.pending s.ident s4 := kept_ite (kept_checkFail n 2 kept3) kept3
  have view2 : seqBanks (laneOf s2 n) = seqBanks l := by
    simp only [s2]
    split
    · exact checkFail_keeps fun _ _ _ _ => rfl
    · rfl
  have view4 : seqBanks (laneOf s4 n) = seqBanks l := by
    simp only [s4]
    split
    · exact (checkFail_keeps fun _ _ _ _ => rfl).trans view2
    · exact view2
  have bound : v.natAbs ≤ 0x7FFFFF := by
    simp only [v, laneFs]
    split
    · decide
    · split
      · split <;> decide
      · exact satFs_natAbs _
  have seq4 : l.seq = (laneOf s4 n).seq := (congrArg Prod.fst view4).symm
  rw [laneOf_onLane (inv4 trivial) hn]
  exact ⟨⟨bound, congrArg (laneCrc n · v) seq4⟩, view4⟩

/-- What a lane's word leaves in its own registers, from the state at the sample boundary: the grids it clocks and the
warm-ups leave all but the marks of a failed check. -/
theorem sampleLane_word {i : LaneInput} (inv : s.Inv) (hn : n < 40) :
    SampleOk n (laneOf (sampleLane n i s) n) ∧ ((laneOf s n).trialEnd = false →
      seqBanks (laneOf (sampleLane n i s) n) = (((laneOf s n).seq + 1) % 4, banks (firSwap (laneOf s n)))) := by
  unfold sampleLane
  extract_lets s0 s1 x
  have start := kept_start (s := s) fun _ : True => inv
  have kept0 : Kept True s.pending s.ident s0 := kept_ite (kept_endTrial n start) start
  have same0 : (laneOf s n).trialEnd = false → s0 = s := fun going => if_neg (by simp [going])
  clear_value s0
  obtain ⟨-, -, inv0⟩ := kept0
  have at0 : laneOf (onLane n firSwap s0) n = firSwap (laneOf s0 n) := laneOf_onLane (inv0 trivial) hn
  obtain ⟨-, -, inv1⟩ := kept_onLane n firSwap (kept_start inv0)
  obtain ⟨-, -, inv2⟩ := kept_stage2 n i (kept_start inv1)
  have own : SampleOk n (laneOf s1 n) ∧ seqBanks (laneOf s1 n) = _ := stages34_sample (inv2 trivial) hn
  rw [stage2_seqBanks (inv1 trivial) hn, at0, firSwap_seq] at own
  obtain ⟨check, -⟩ := checksOnly_clocked (n := n) (x := x) (checksOnly_refl (a := s1))
  clear_value s1
  generalize compareWarm n _ = t at check ⊢
  rw [check n]
  exact ⟨own.1, fun going => same0 going ▸ own.2⟩

theorem laneSampleWord_word {i : LaneInput} (inv : s.Inv) (hn : n < 40) :
    Answers (.laneSampleWord n i) s fun t =>
      (delivers s n = false → t = s)
        ∧ (delivers s n = true → (laneOf t n).sample.val.natAbs ≤ 0x7FFFFF
            ∧ (laneOf t n).sample.crc = laneCrc n (laneOf t n).seq (laneOf t n).sample.val
            ∧ ((laneOf s n).trialEnd = false → (laneOf t n).seq = ((laneOf s n).seq + 1) % 4
                ∧ ((laneOf s n).swap = true → (laneOf t n).swap = false
                    ∧ (tapsCrc (inactiveTaps (laneOf s n)) = (laneOf s n).firCrc → (laneOf t n).bankB = !(laneOf s n).bankB)
                    ∧ (tapsCrc (inactiveTaps (laneOf s n)) ≠ (laneOf s n).firCrc →
                        (laneOf t n).bankB = (laneOf s n).bankB ∧ (laneOf t n).crcErr = true)))) := by
  refine ⟨_, rfl, fun h => by rw [h]; rfl, fun h => ?_⟩
  rw [if_pos h]
  obtain ⟨⟨bound, crc⟩, going⟩ := sampleLane_word (i := i) inv hn
  refine ⟨bound, crc, fun h => ?_⟩
  simp only [seqBanks, banks, Prod.mk.injEq] at going
  obtain ⟨seq, bankB, swap, crcErr⟩ := going h
  rw [seq, bankB, swap, crcErr]
  exact ⟨rfl, firSwap_acts⟩

/-! ### Triggers of the bitstream (R54, R69) -/

theorem raiseTrigger_keeps {α : Type} {g : Lane → α} {k : Trigger} (hg : ∀ l t, g { l with trig := t } = g l) :
    g (laneOf (raiseTrigger n k s) m) = g (laneOf s m) :=
  laneOf_onLane_eq (f := fun l => if l.trig.isNone then { l with trig := some k } else l) fun l => by
    split
    · exact hg l _
    · rfl

/-- The lane's first trigger stays; without one, the new one stands. -/
theorem raiseTrigger_trig {k : Trigger} (inv : s.Inv) (hn : n < 40) : (laneOf (raiseTrigger n k s) n).trig.isSome = true := by
  show (laneOf (onLane n _ s) n).trig.isSome = true
  rw [laneOf_onLane inv hn]
  split
  · rfl
  next has => simpa [Option.isSome_iff_ne_none] using has

theorem overloadChange_overload {on : Bool} (inv : s.Inv) (hn : n < 40) :
    (laneOf (overloadChange n on s) n).overload = on := by
  unfold overloadChange
  extract_lets l s1
  have h1 : (laneOf s1 n).overload = on := congrArg Lane.overload (laneOf_onLane inv hn)
  split
  · exact h1
  · rw [laneOf_logEv]
    exact (laneOf_onLane_eq (g := Lane.overload) (by intro; rfl)).trans h1

theorem laneStuck_sets {h : Bool} (inv : s.Inv) (hn : n < 40) (hd : delivers s n = true) :
    Answers (.laneStuck n h) s fun t => (laneOf t n).stuck = true ∧ (laneOf t n).high = h
      ∧ (laneOf t n).overload = true ∧ (laneOf t n).trig.isSome = true := by
  refine ⟨_, congrArg Host.Outcome.next (if_pos hd), ?_⟩
  extract_lets s1
  have start := kept_start (s := s) fun _ : True => inv
  obtain ⟨-, -, inv1⟩ : Kept True s.pending s.ident s1 := kept_ite start (kept_overloadChange n true start)
  have overloads : (laneOf s1 n).overload = true := by
    simp only [s1]
    split
    · assumption
    · exact overloadChange_overload inv hn
  clear_value s1
  obtain ⟨-, -, inv2⟩ := kept_onLane n (fun l => { l with stuck := true, high := h }) (kept_start inv1)
  have self := laneOf_onLane (f := fun l => { l with stuck := true, high := h }) (inv1 trivial) hn
  refine ⟨?_, ?_, ?_, raiseTrigger_trig (inv2 trivial) hn⟩
  · exact (raiseTrigger_keeps fun _ _ => rfl).trans (congrArg Lane.stuck self)
  · exact (raiseTrigger_keeps fun _ _ => rfl).trans (congrArg Lane.high self)
  · exact (raiseTrigger_keeps fun _ _ => rfl).trans ((congrArg Lane.overload self).trans overloads)

theorem laneClkerr_sets (inv : s.Inv) (hn : n < 40) (hd : delivers s n = true) :
    Answers (.laneClkerr n) s fun t => (laneOf t n).clkerr = true ∧ (laneOf t n).trig.isSome = true := by
  refine ⟨_, congrArg Host.Outcome.next (if_pos hd), ?_⟩
  obtain ⟨-, -, inv1⟩ := kept_onLane n (fun l => { l with clkerr := true }) (kept_start fun _ : True => inv)
  have self := laneOf_onLane (f := fun l => { l with clkerr := true }) inv hn
  exact ⟨(raiseTrigger_keeps fun _ _ => rfl).trans (congrArg Lane.clkerr self), raiseTrigger_trig (inv1 trivial) hn⟩

theorem modulatorClockReturn_clears (inv : s.Inv) (hn : n < 40) :
    Answers (.modulatorClockReturn n) s fun t => laneOf t n = { laneOf s n with clkerr := false } :=
  ⟨_, rfl, laneOf_onLane inv hn⟩

/-! ### A grid cycle (R62, R63) -/

@[simp] theorem zcCheck_lane : (zcCheck s).lane = s.lane := by
  unfold zcCheck
  split <;> rfl

theorem rsCycle_nofund {nominal : Nat} {c : CycleShow} {r : Resampler} (h : c.low = true ∨ c.noCross = true) :
    (rsCycle nominal c r).state = .nofund ∧ (rsCycle nominal c r).freq = nominal := by
  unfold rsCycle
  extract_lets f out outOf inRg r'
  rw [if_pos (by simpa using h)]
  exact ⟨rfl, rfl⟩

theorem rsCycle_locked {nominal : Nat} {c : CycleShow} {r : Resampler} (low : c.low = false) (cross : c.noCross = false)
    (locked : r.state = .locked) (above : 40000 ≤ r.measured) (below : r.measured ≤ 70000) :
    (rsCycle nominal c r).state = .locked
      ∧ (rsCycle nominal c r).freq = towards r.freq r.measured (5000000 / max 1 r.freq) := by
  unfold rsCycle
  have inside : (decide (r.measured < 40000) || decide (70000 < r.measured)) = false := by
    simp [not_lt.mpr above, not_lt.mpr below]
  simp [low, cross, inside, locked]

/-- What the cycle that ends shows of outlet `o`'s reference. -/
def shownCycle (s : State) (o : Nat) (r : OutletRec) : CycleShow :=
  let k := (refFunction s.str.cur o).getD 0
  let home := (((laneRec s k).bind fun l => outletRec s l.outlet).map (·.nomMv)).getD r.nomMv
  showCycle r.nomMv home (gridLine s o k) (s.lane.rs.getD o Resampler.fresh)

/-- On the outlet that owns its grid, the rows of R63 decide state and rate, whatever the phase adjustment. -/
theorem resamplerCycle_owner {a : Nat} {r : OutletRec} (inv : s.Inv) (ho : o < 4) (hr : outletRec s o = some r)
    (ac : r.kind = 1) (own : gridOwner s.str.cur o = o) :
    Answers (.resamplerCycle o a) s fun t =>
      ∃ adj, t.lane.rs.getD o Resampler.fresh
        = { rsCycle r.nomMHz (shownCycle s o r) (s.lane.rs.getD o Resampler.fresh) with adj := adj } := by
  have four : s.lane.rs.length = 4 := by
    obtain ⟨shape, -⟩ := inv
    simpa [LaneBlock.shape] using (List.cons.inj shape).2
  refine ⟨_, rfl, phaseAdj a (rsCycle r.nomMHz (shownCycle s o r) (s.lane.rs.getD o Resampler.fresh)), ?_⟩
  simp only [hr, ac, own, if_true, beq_self_eq_true]
  split
  · exact upd_getD_self (four ▸ ho)
  · rw [zcCheck_lane, logEv_lane]
    exact upd_getD_self (four ▸ ho)

theorem resamplerCycle_rows {a : Nat} {r : OutletRec} (inv : s.Inv) (ho : o < 4) (hr : outletRec s o = some r)
    (ac : r.kind = 1) (own : gridOwner s.str.cur o = o) :
    Answers (.resamplerCycle o a) s fun t =>
      let x := s.lane.rs.getD o Resampler.fresh
      let y := t.lane.rs.getD o Resampler.fresh
      let c := shownCycle s o r
      (c.low = true ∨ c.noCross = true → y.state = .nofund ∧ y.freq = r.nomMHz)
        ∧ (c.low = false → c.noCross = false → x.state = .locked → 40000 ≤ x.measured → x.measured ≤ 70000 →
            y.state = .locked ∧ y.freq = towards x.freq x.measured (5000000 / max 1 x.freq)) := by
  obtain ⟨t, ht, adj, rows⟩ := resamplerCycle_owner (a := a) inv ho hr ac own
  refine ⟨t, ht, ?_⟩
  dsimp only
  rw [rows]
  exact ⟨fun gone => rsCycle_nofund gone, fun low cross => rsCycle_locked low cross⟩

/-! ### Detectors (R65, R66) -/

theorem detectorUpdate_takes {w ms : Bool} (inv : s.Inv) (hn : n < 40) (hin : laneIn s.str.cur n = true) :
    Answers (.detectorUpdate n w ms) s fun t =>
      (laneOf t n).detGen = ((laneOf s n).detGen + 1) % 2 ^ 16
        ∧ (laneOf t n).env = (if ms then (laneOf s n).envAcc else (laneOf s n).env)
        ∧ (w = true → (laneOf t n).peak = (laneOf s n).peakAcc
            ∧ ∀ o, homeOutlet s n = some o → (laneOf t n).rms
                = min (windowRms (freeBit s) (isDc s o) (gridLine s o (functionOf s n))) 0x7FFFFF)
        ∧ (w = false → (laneOf t n).peak = (laneOf s n).peak ∧ (laneOf t n).rms = (laneOf s n).rms) := by
  refine ⟨_, congrArg Host.Outcome.next (if_pos hin), ?_⟩
  have inv' : (bump s).Inv := inv
  beta_reduce
  rw [laneOf_onLane inv' hn, show laneOf (bump s) n = laneOf s n from rfl]
  refine ⟨?_, ?_, ?_, ?_⟩
  · cases w <;> cases ms <;> rfl
  · cases w <;> cases ms <;> rfl
  · rintro rfl
    refine ⟨by cases ms <;> rfl, fun o home => ?_⟩
    rw [home]
    cases ms <;> rfl
  · rintro rfl
    cases ms <;> exact ⟨rfl, rfl⟩

/-! ### Coefficients, trial and calibration (R57, R58) -/

theorem taps64_length (l : List Int) : (taps64 l).length = 64 := by
  simp only [taps64, List.length_append, List.length_take, List.length_replicate]
  omega

/-- In trial the tap at INDEX of the inactive bank is written; while SWAP stands, and out of trial, none is. -/
theorem firdataWrite_writes {w : Word} (inv : s.Inv) (hn : n < 40) (hin : laneIn s.str.cur n = true)
    (hi : (laneOf s n).firIndex < 64) :
    Answers (.firdataWrite n w) s fun t =>
      ((laneOf s n).trial = true → (laneOf s n).swap = false → (laneOf t n).firIndex = ((laneOf s n).firIndex + 1) % 64
          ∧ activeTaps (laneOf t n) = activeTaps (laneOf s n)
          ∧ (inactiveTaps (laneOf t n)).getD (laneOf s n).firIndex 0 = signedOf 32 w.toNat)
        ∧ ((laneOf s n).trial = false ∨ (laneOf s n).swap = true → laneOf t n = laneOf s n) := by
  refine ⟨_, congrArg Host.Outcome.next (if_pos hin), ?_⟩
  beta_reduce
  rw [firdataWrite, laneOf_onLane inv hn]
  generalize laneOf s n = l at hi ⊢
  constructor
  · intro trial swap
    have room : l.firIndex < (taps64 (inactiveTaps l)).length := by rwa [taps64_length]
    rw [if_pos (by simp [trial, swap])]
    cases bank : l.bankB
    · simp only [bank, activeTaps, inactiveTaps, Bool.false_eq_true, if_false] at room ⊢
      exact ⟨trivial, trivial, put_getD_self room⟩
    · simp only [bank, activeTaps, inactiveTaps, if_true] at room ⊢
      exact ⟨trivial, trivial, put_getD_self room⟩
  · intro out
    rw [if_neg (by rcases out with h | h <;> simp [h])]

theorem firSwap_sets (inv : s.Inv) (hn : n < 40) (hin : laneIn s.str.cur n = true) :
    Answers (.firSwap n) s fun t => laneOf t n = { laneOf s n with swap := true } :=
  ⟨_, congrArg Host.Outcome.next (if_pos hin), laneOf_onLane inv hn⟩

theorem laneTrialWrite_sets (inv : s.Inv) (hn : n < 40) (hin : laneIn s.str.cur n = true)
    (free : homeSession s n = false) (mode : s.sys.mode = .maintenance) (cold : beingWarmed s n = false) :
    Answers (.laneTrialWrite n true) s fun t => laneOf t n = { laneOf s n with trial := true, trialEnd := false } :=
  ⟨_, congrArg Host.Outcome.next ((if_pos hin).trans ((if_pos rfl).trans (if_pos ⟨mode, free, cold⟩))), laneOf_onLane inv hn⟩

theorem laneTrialWrite_ends (inv : s.Inv) (hn : n < 40) (hin : laneIn s.str.cur n = true)
    (trial : (laneOf s n).trial = true) :
    Answers (.laneTrialWrite n false) s fun t => laneOf t n = { laneOf s n with trialEnd := true } :=
  ⟨_, congrArg Host.Outcome.next (if_pos hin), (laneOf_onLane inv hn).trans (if_pos trial)⟩

theorem laneCalWrite_gain {w : Word} (inv : s.Inv) (hn : n < 40) (hin : laneIn s.str.cur n = true)
    (trial : (laneOf s n).trial = true) (low : 0x200000 ≤ w.toNat % 2 ^ 24) (high : w.toNat % 2 ^ 24 ≤ 0x7FFFFF) :
    Answers (.laneCalWrite n false w) s fun t => laneOf t n = { laneOf s n with gain := w.toNat % 2 ^ 24 } := by
  refine ⟨_, congrArg Host.Outcome.next (if_pos hin), ?_⟩
  have within : inRange 0x200000 0x7FFFFF (w.toNat % 2 ^ 24) = true := by
    unfold inRange
    simp only [low, high, decide_true, Bool.and_self]
  beta_reduce
  rw [laneCalWrite, laneOf_onLane inv hn, if_pos trial, if_neg Bool.false_ne_true, if_pos within]

theorem laneCalWrite_delay {w : Word} (inv : s.Inv) (hn : n < 40) (hin : laneIn s.str.cur n = true)
    (trial : (laneOf s n).trial = true) (high : w.toNat % 2 ^ 13 ≤ 4096) :
    Answers (.laneCalWrite n true w) s fun t => laneOf t n = { laneOf s n with delay := w.toNat % 2 ^ 13 } := by
  refine ⟨_, congrArg Host.Outcome.next (if_pos hin), ?_⟩
  beta_reduce
  rw [laneCalWrite, laneOf_onLane inv hn, if_pos trial, if_pos rfl, if_pos high]

/-- A GAIN below its range is ignored, in trial and out of it. -/
theorem laneCalWrite_ignored {w : Word} (inv : s.Inv) (hn : n < 40) (hin : laneIn s.str.cur n = true)
    (low : w.toNat % 2 ^ 24 < 0x200000) : Answers (.laneCalWrite n false w) s fun t => laneOf t n = laneOf s n := by
  refine ⟨_, congrArg Host.Outcome.next (if_pos hin), ?_⟩
  have outside : ¬ inRange 0x200000 0x7FFFFF (w.toNat % 2 ^ 24) = true := by
    unfold inRange
    simp only [not_le.mpr low, decide_false, Bool.false_and, Bool.false_eq_true, not_false_eq_true]
  beta_reduce
  rw [laneCalWrite, laneOf_onLane inv hn, if_neg Bool.false_ne_true, if_neg outside, ite_self]

end Chain

/-- Settles O10: a sample word goes through the swap, stage 2 and stages 3 and 4, and what follows marks failed checks alone;
every other command is one update of its lane or its resampler. -/
theorem laneChainCommandsEffect : Obligations.LaneChainCommandsEffect := by
  unfold Obligations.LaneChainCommandsEffect
  refine ⟨?_, ?_, ?_, ?_, ?_, ?_, ?_, ?_, ?_, ?_, ?_, ?_, ?_⟩
  · exact fun s n i => laneSampleWord_word
  · exact fun s n h => laneStuck_sets
  · exact fun s n => laneClkerr_sets
  · exact fun s n => modulatorClockReturn_clears
  · exact fun s o a r => resamplerCycle_rows
  · exact fun s n w m => detectorUpdate_takes
  · exact fun s n w => firdataWrite_writes
  · exact fun s n => firSwap_sets
  · exact fun s n => laneTrialWrite_sets
  · exact fun s n => laneTrialWrite_ends
  · exact fun s n w => laneCalWrite_gain
  · exact fun s n w => laneCalWrite_delay
  · exact fun s n w => laneCalWrite_ignored

end Sys2Proof.Machine
end

section
/-! PROOFS. The statements of 03_energy_engine.md: what the commands of metrology, billing and Owl write, and the effect of each
command of the metrology core (R83-R121). -/

namespace Sys2Proof.Machine

variable {s t : State}

/-! ## Frames of metrology, billing and Owl -/

/-- Settles O43: each command is its meaning, and the lemma of that meaning (Laws/FrameMetstore, Laws/FrameBilling,
Laws/FrameEnergy) names the parts it writes. -/
theorem metrologyAndBillingFrames : Obligations.MetrologyAndBillingFrames := by
  unfold Obligations.MetrologyAndBillingFrames
  intro s t
  exact ⟨onlyIn_next same_execSaveComplete,
    fun p => onlyIn_next (same_execPulseTimer p),
    fun w => onlyIn_next (same_execSnapctlTake w),
    fun w => onlyIn_next (same_execCalctlStart w),
    onlyIn_next same_execCalctlStop,
    onlyIn_next same_execSnapshotSigned,
    fun n => onlyIn_next (same_execSramScrub n),
    onlyIn_next same_execMetCoreReload,
    fun v o q => onlyIn_next (same_execEnergyLoRead v o q),
    fun v => onlyIn_next (same_execHarmLoRead v),
    fun v o b => onlyIn_next (same_execCalAccLoRead v o b),
    fun n => onlyIn_next (same_execLegalEventConfirm n),
    fun v g => onlyIn_next (same_execBilLoRead v g),
    fun r b => onlyIn_next (same_execCalLoad r b),
    fun r d => onlyIn_next (same_execTokenEnter r d),
    fun r i => onlyIn_next (same_execBillSnapRead r i),
    fun r => onlyIn_next (same_execBillReset r),
    onlyIn_next same_execLoadProfileRecord,
    fun k => onlyIn_next (same_execTokenMirrorConfirm k),
    onlyIn_next same_execMetFirmwareReloaded⟩

/-- Settles O45: each command is its meaning, and the lemma of that meaning (Laws/FrameOwl, Laws/FrameEfdom) names the parts it
writes. -/
theorem owlFrames : Obligations.OwlFrames := by
  unfold Obligations.OwlFrames
  intro s t
  exact ⟨fun k n => onlyIn_next (same_execSupervisedDelayExpiry k n),
    onlyIn_next same_execOwlStartComplete,
    fun d x => onlyIn_next (same_execOwlDiagFail d x),
    fun d b x => onlyIn_next (same_execOwlPeriodicDiag d b x),
    onlyIn_next same_execOwlWatchdogExpiry,
    onlyIn_next same_execOwlCycle,
    fun g b => onlyIn_next (same_execGuardInputChange g b),
    fun g l => onlyIn_next (same_execGuardDisagree g l),
    onlyIn_next same_execOwlSafeTimeout,
    fun o => onlyIn_next (same_execMeterOkTimeout o),
    fun o => onlyIn_next (same_execAutoclrExpiry o),
    onlyIn_next same_execSafetySessionExpiry,
    onlyIn_next same_execPwLockoutEnd,
    fun o c => onlyIn_next (same_execTripAutoclear o c),
    fun r b => onlyIn_next (same_execOwlPwProve r b),
    fun r b => onlyIn_next (same_execOwlEfdomSet r b),
    fun r p n => onlyIn_next (same_execOwlPwSet r p n),
    fun r => onlyIn_next (same_execOwlPwEnd r),
    fun r o => onlyIn_next (same_execOwlTripClear r o),
    fun r i => onlyIn_next (same_execOwlLogRead r i),
    fun c => onlyIn_next (same_execEfdomTransmit c),
    fun c b => onlyIn_next (same_execEfdomFrameReceive c b),
    fun c => onlyIn_next (same_execEfdomWatchdogExpiry c)⟩

/-! ## Loops and updates that keep a view -/

/-- What each round of a loop keeps, the loop keeps. -/
theorem foldl_keeps {α β : Type} {g : State → β} {f : State → α → State} {l : List α} (hf : ∀ s x, g (f s x) = g s) :
    g (l.foldl f s) = g s := by
  induction l generalizing s with
  | nil => rfl
  | cons x l ih => exact ih.trans (hf s x)

/-- An update of one element keeps the images of all under a view that it keeps. -/
theorem map_upd_of_keeps {α β : Type} {l : List α} {i : Nat} {f : α → α} {g : α → β} (hf : ∀ x, g (f x) = g x) :
    (upd l i f).map g = l.map g := by
  refine List.ext_getElem (by simp [upd]) fun n h h' => ?_
  simp only [upd, List.getElem_map, List.getElem_modify]
  split
  · exact hf _
  · rfl

/-- A view of the outlets that an update keeps, of the updated outlet and of the others. -/
theorem metOutOf_onMetOut_keeps {α : Type} {g : MetOutlet → α} {f : MetOutlet → MetOutlet} {o n : Nat}
    (hf : ∀ m, g (f m) = g m) : g (metOutOf (onMetOut o f s) n) = g (metOutOf s n) := by
  have images : ((upd s.met.outs o f).map g).getD n (g MetOutlet.fresh) = (s.met.outs.map g).getD n (g MetOutlet.fresh) := by
    rw [map_upd_of_keeps hf]
  rwa [List.getD_map, List.getD_map] at images

/-! ## The accumulators of the outlets (R93) -/

/-- The accumulators and harmonic accumulators of every outlet. -/
def accumulators (b : MetBlock) : List (List Nat × List Int) := b.outs.map fun m => (m.acc, m.harm)

/-- `s` has the accumulators of `a`. -/
def AccKept (a s : State) : Prop := accumulators s.met = accumulators a.met

section AccKept
variable {a : State} {o : Nat}

theorem accKept_refl : AccKept a a := rfl

theorem accumulators_getD {o : Nat} : (accumulators s.met).getD o (MetOutlet.fresh.acc, MetOutlet.fresh.harm)
    = ((metOutOf s o).acc, (metOutOf s o).harm) := List.getD_map _ _ _

theorem AccKept.outlet (h : AccKept a s) :
    ((metOutOf s o).acc, (metOutOf s o).harm) = ((metOutOf a o).acc, (metOutOf a o).harm) := by
  rw [← accumulators_getD, ← accumulators_getD, h]

theorem AccKept.acc (h : AccKept a s) : (metOutOf s o).acc = (metOutOf a o).acc := congrArg Prod.fst h.outlet
theorem AccKept.harm (h : AccKept a s) : (metOutOf s o).harm = (metOutOf a o).harm := congrArg Prod.snd h.outlet

/-- An operation that leaves the metrology block. -/
theorem AccKept.law (h : AccKept a s) (w : List Part) (f : listed w w = true → Same w s s → Same w s t)
    (hw : w.contains .met = false := by rfl) : AccKept a t := by
  have met : t.met = s.met := (f (listed_self w) (same_refl w s)).part hw
  exact (congrArg accumulators met).trans h

theorem accKept_ite {c : Prop} [Decidable c] {x y : State} (hx : AccKept a x) (hy : AccKept a y) :
    AccKept a (if c then x else y) := by
  split
  · exact hx
  · exact hy

theorem accKept_foldl {α : Type} {f : State → α → State} {l : List α} (h : AccKept a s)
    (hf : ∀ s x, AccKept s (f s x)) : AccKept a (l.foldl f s) :=
  (foldl_keeps (g := fun s => accumulators s.met) hf).trans h

theorem accKept_onMet {f : MetBlock → MetBlock} (h : AccKept a s) (hf : (f s.met).outs = s.met.outs) :
    AccKept a (onMet f s) := by
  have same : accumulators (f s.met) = accumulators s.met := congrArg (List.map fun m : MetOutlet => (m.acc, m.harm)) hf
  exact same.trans h

theorem accKept_onMetOut {f : MetOutlet → MetOutlet} (h : AccKept a s) (hf : ∀ m, (f m).acc = m.acc ∧ (f m).harm = m.harm) :
    AccKept a (onMetOut o f s) :=
  (map_upd_of_keeps fun m => Prod.ext (hf m).1 (hf m).2).trans h

theorem accKept_onBil {f : BilBlock → BilBlock} (h : AccKept a s) : AccKept a (onBil f s) := h
theorem accKept_onOwl {f : OwlBlock → OwlBlock} (h : AccKept a s) : AccKept a (onOwl f s) := h
theorem accKept_onLink {f : Link → Link} (h : AccKept a s) : AccKept a (onLink o f s) := h
theorem accKept_onSys {f : SysBlock → SysBlock} (h : AccKept a s) : AccKept a (onSys f s) := h
theorem accKept_onCounters {f : LegalCounters → LegalCounters} (h : AccKept a s) : AccKept a (onCounters f s) :=
  accKept_onMet h rfl
theorem accKept_legalEv {b i k : Nat} {d : List (Nat × Nat)} (h : AccKept a s) : AccKept a (legalEv b i k d s) :=
  accKept_onMet h rfl

/-! ### Snapshots (R102-R107) -/

theorem accKept_captureAs {gen type outlets cause ts : Nat} {ext : Bytes} {slot : Option Nat} (h : AccKept a s) :
    AccKept a (captureAs gen type outlets cause ts ext slot s) := by
  refine Eq.trans ?_ h
  refine List.ext_getElem (by simp [accumulators, captureAs]) fun n _ _ => ?_
  simp only [accumulators, captureAs, onMet_met, List.getElem_map, List.getElem_mapIdx]
  split
  · rfl
  · rfl

theorem accKept_capture {type outlets cause ts : Nat} {ext : Bytes} {slot : Option Nat} (h : AccKept a s) :
    AccKept a (capture type outlets cause ts ext slot s) := accKept_captureAs (accKept_onCounters h)

theorem accKept_captureEarly {req : Bool} {gen ts : Nat} (h : AccKept a s) : AccKept a (captureEarly req gen o ts s) := by
  unfold captureEarly
  extract_lets g s1 n starts s2
  have h1 : AccKept a s1 := accKept_ite (accKept_captureAs (accKept_onMet h rfl)) (accKept_ite (accKept_onMet h rfl) h)
  have h2 : AccKept a s2 := by
    exact accKept_ite (accKept_captureAs (accKept_onLink (accKept_onMetOut h1 fun _ => ⟨rfl, rfl⟩))) h1
  split
  · exact accKept_captureAs (accKept_onMetOut h2 fun _ => ⟨rfl, rfl⟩)
  · exact h2

theorem accKept_restartSnapshot {ts : Nat} (h : AccKept a s) : AccKept a (restartSnapshot ts s) := by
  unfold restartSnapshot
  split
  · exact accKept_ite h (accKept_onMet (accKept_capture h) rfl)
  · exact h

/-! ### Boundary events (R134-R140) -/

theorem accKept_billingBoundary {ts cause : Nat} (h : AccKept a s) : AccKept a (billingBoundary ts cause s) :=
  accKept_legalEv (accKept_onBil (accKept_capture h))

theorem accKept_activateCalendar {ts : Nat} (h : AccKept a s) : AccKept a (activateCalendar ts s) := by
  unfold activateCalendar
  split
  · exact accKept_legalEv (accKept_onBil (accKept_onBil h))
  · exact h

theorem accKept_noteStep {st : TimeStep} (h : AccKept a s) : AccKept a (noteStep st s) :=
  accKept_legalEv (accKept_onBil (accKept_onCounters h))

theorem accKept_applyStep {st : TimeStep} (h : AccKept a s) : AccKept a (applyStep st s) := by
  unfold applyStep
  extract_lets crossed s1 s2 act s3 s4
  have h2 : AccKept a s2 := accKept_foldl (accKept_noteStep h) fun s o =>
    (accKept_refl.law [.bil] (same_closeDemand o st.new true)).law [.bil] (same_restartDemand o st.new true false)
  have h3 : AccKept a s3 := accKept_ite h2 (accKept_billingBoundary h2)
  have h4 : AccKept a s4 := by
    dsimp only [s4]
    clear_value act
    split
    · exact accKept_foldl (accKept_activateCalendar h3) fun s o =>
        accKept_refl.law [.bil] (same_restartDemand o st.new true false)
    · exact h3
  exact accKept_foldl h4 fun s o => accKept_refl.law [.bil] (same_switchTariff st.new o)

theorem accKept_boundaryEvents {ts : Nat} (h : AccKept a s) : AccKept a (boundaryEvents o ts s) := by
  unfold boundaryEvents
  refine accKept_ite ?_ h
  extract_lets s1 due reset act s2 s3 s4 s5
  have h1 : AccKept a s1 := by
    dsimp only [s1]
    split
    · exact accKept_applyStep h
    · exact h
  have h2 : AccKept a s2 := accKept_ite (h1.law [.bil] (same_closeDue ts o))
    (accKept_foldl h1 fun s o => accKept_refl.law [.bil] (same_closeDue ts o))
  have h3 : AccKept a s3 := accKept_foldl h2 fun s u => accKept_billingBoundary accKept_refl
  have h4 : AccKept a s4 := accKept_ite (accKept_onBil (accKept_billingBoundary h3)) h3
  have h5 : AccKept a s5 := by
    dsimp only [s5]
    clear_value act
    split
    · exact accKept_activateCalendar h4
    · exact h4
  exact accKept_onBil (h5.law [.bil] (same_switchTariff ts o))

/-! ### The close of an interval after its accrual (R101) -/

theorem accKept_accountPulses {e : Nat} (h : AccKept a s) : AccKept a (accountPulses o e s) := by
  unfold accountPulses
  split
  · exact accKept_ite (AccKept.law (accKept_onMet h rfl) [.log] (same_logEv _ _ _ _ _)) (accKept_onMet h rfl)
  · exact h

theorem accKept_calGate (h : AccKept a s) : AccKept a (calGate o s) :=
  accKept_ite h (accKept_ite (accKept_onMet h rfl) (accKept_ite (accKept_onMet h rfl) (accKept_onMet h rfl)))

theorem accKept_countSeconds {ns : Nat} (h : AccKept a s) : AccKept a (countSeconds o ns s) := by
  have counted {f : MetOutlet → MetOutlet} := accKept_onMetOut (o := o) (f := f) h
  exact accKept_ite (counted fun _ => ⟨rfl, rfl⟩) (accKept_onCounters (counted fun _ => ⟨rfl, rfl⟩))

theorem accKept_setNometer {row : Nat} {n : Bool} (h : AccKept a s) : AccKept a (setNometer o row n s) :=
  accKept_ite h (accKept_legalEv (accKept_onMetOut h fun _ => ⟨rfl, rfl⟩))

theorem accKept_meterStatus (h : AccKept a s) : AccKept a (meterStatus o s) := by
  unfold meterStatus
  refine accKept_onOwl ?_
  split
  · exact accKept_setNometer h
  · exact h

theorem accKept_boundarySteps {ts : Nat} (h : AccKept a s) : AccKept a (boundarySteps o ts s) :=
  accKept_restartSnapshot (accKept_captureEarly (accKept_boundaryEvents (accKept_onCounters h)))

/-- Steps 5 to 8 of an interval's close change no accumulator. -/
theorem accKept_closeInterval {r : OutletRec} {i : IntervalInput} :
    AccKept (closeSteps r i s) (closeInterval r i s) := by
  unfold closeInterval
  extract_lets s1 s2 asked s3 s4
  have h2 : AccKept s1 s2 := accKept_boundarySteps accKept_refl
  have h3 : AccKept s1 s3 := accKept_ite (accKept_onMet h2 rfl) h2
  exact accKept_meterStatus (accKept_ite (accKept_onSys h3) h3)

theorem accKept_accrueTariff {imp exp : Nat} (h : AccKept a s) : AccKept a (accrueTariff o imp exp s) := 
  accKept_ite (accKept_legalEv (accKept_onBil (accKept_onBil h))) (accKept_onBil (accKept_onBil h))

end AccKept

/-! ## Pulses and the calibration gate (R108, R110) -/

/-- The invariant counts four outlets and four pulse outputs. -/
theorem met_lengths (inv : s.Inv) : s.met.outs.length = 4 ∧ s.met.pulses.length = 4 := by
  obtain ⟨-, shape, -⟩ := inv
  simpa [MetBlock.shape] using shape

theorem nextPulse_idle {run : Bool} {x : Pulse} (h : x.backlog = 0 ∨ run = false) : (nextPulse run x).phase = .idle :=
  congrArg Pulse.phase (if_pos h)

theorem nextPulse_starts {run : Bool} {x : Pulse} (h : 0 < x.backlog) (hr : run = true) :
    (nextPulse run x).phase = .high ∧ (nextPulse run x).backlog + 1 = x.backlog := by
  have waits : ¬ (x.backlog = 0 ∨ run = false) := by simp [h.ne', hr]
  unfold nextPulse
  rw [if_neg waits]
  exact ⟨rfl, Nat.sub_add_cancel h⟩

theorem pulseTimer_ends {p : Nat} (inv : s.Inv) (hp : p < 4) :
    Answers (.pulseTimer p) s fun t =>
      ((s.met.pulses.getD p Pulse.fresh).phase = .high → (t.met.pulses.getD p Pulse.fresh).phase = .low
          ∧ (t.met.pulses.getD p Pulse.fresh).backlog = (s.met.pulses.getD p Pulse.fresh).backlog)
        ∧ ((s.met.pulses.getD p Pulse.fresh).phase = .low → (s.met.pulses.getD p Pulse.fresh).backlog = 0 ∨ pulseRuns s p = false →
            (t.met.pulses.getD p Pulse.fresh).phase = .idle)
        ∧ ((s.met.pulses.getD p Pulse.fresh).phase = .low → 0 < (s.met.pulses.getD p Pulse.fresh).backlog →
            pulseRuns s p = true →
            (t.met.pulses.getD p Pulse.fresh).phase = .high
              ∧ (t.met.pulses.getD p Pulse.fresh).backlog + 1 = (s.met.pulses.getD p Pulse.fresh).backlog) := by
  refine ⟨_, rfl, ?_⟩
  dsimp only [onMet_met]
  rw [upd_getD_self (by simpa [met_lengths inv])]
  generalize s.met.pulses.getD p Pulse.fresh = x
  refine ⟨fun high => ?_, fun low stops => ?_, fun low waits runs => ?_⟩
  · rw [high]
    exact ⟨rfl, rfl⟩
  · rw [low]
    exact nextPulse_idle stops
  · rw [low]
    exact nextPulse_starts waits runs

/-- The fields of CALCTL that a START takes. -/
def takeGate (w : Nat) : State → State := onMet fun b => { b with calCycles := field w 23 8, calOutlet := field w 3 2 }

theorem calStart_trial {w : Nat} (length : field w 23 8 ≠ 0) (trial : outletTrial s (field w 3 2) = true) :
    calStart w s = onMetOut (field w 3 2) (fun m => { m with calP := 0, calQ := 0 })
      (onMet (fun b => { b with calRc := stsOk, calStart := true, calRun := false, calDoneFlag := false, calDone := 0 })
        (takeGate w s)) := by
  have trial' : ¬ outletTrial (takeGate w s) (field w 3 2) = false := by
    rw [Bool.not_eq_false]
    exact trial
  exact (if_neg length).trans (if_neg trial')

theorem calStart_refused {w : Nat} (length : field w 23 8 ≠ 0) (trial : outletTrial s (field w 3 2) = false) :
    calStart w s = onMet (fun b => { b with calRc := stsState }) (takeGate w s) :=
  (if_neg length).trans (if_pos trial)

theorem calctlStart_opens {w : Word} (inv : s.Inv) (length : field w.toNat 23 8 ≠ 0) :
    Answers (.calctlStart w) s fun t =>
      t.met.calCycles = field w.toNat 23 8 ∧ t.met.calOutlet = field w.toNat 3 2
        ∧ (outletTrial s (field w.toNat 3 2) = true → t.met.calRc = stsOk ∧ t.met.calStart = true ∧ t.met.calDone = 0
            ∧ (field w.toNat 3 2 < 4 → (metOutOf t (field w.toNat 3 2)).calP = 0 ∧ (metOutOf t (field w.toNat 3 2)).calQ = 0))
        ∧ (outletTrial s (field w.toNat 3 2) = false → t.met.calRc = stsState ∧ t.met.calStart = s.met.calStart) := by
  refine ⟨calStart w.toNat s, rfl, ?_⟩
  cases trial : outletTrial s (field w.toNat 3 2) with
  | true =>
    rw [calStart_trial length trial]
    refine ⟨rfl, rfl, fun _ => ⟨rfl, rfl, rfl, fun ho => ?_⟩, nofun⟩
    rw [metOutOf_onMetOut_self (by simpa [takeGate, met_lengths inv])]
    exact ⟨rfl, rfl⟩
  | false =>
    rw [calStart_refused length trial]
    exact ⟨rfl, rfl, nofun, fun _ => ⟨rfl, rfl⟩⟩

/-! ## Scrubbing and reload (R83) -/

/-- NOMETER and its event change one outlet's status and the staging area, so a view without them is kept. -/
theorem setNometer_keeps {α : Type} {g : MetBlock → α} {o row : Nat} {n : Bool}
    (hs : ∀ b l, g { b with staging := l } = g b)
    (ho : ∀ b, g { b with outs := upd b.outs o fun m => { m with nometer := n } } = g b) :
    g (setNometer o row n s).met = g s.met := by
  unfold setNometer
  split
  · rfl
  · exact (hs _ _).trans (ho _)

theorem wipeOutlet_fresh {l : List MetOutlet} {o : Nat} :
    ((l.map wipeOutlet).getD o MetOutlet.fresh).acc = MetOutlet.fresh.acc
      ∧ ((l.map wipeOutlet).getD o MetOutlet.fresh).harm = MetOutlet.fresh.harm := by
  have wiped : (l.map wipeOutlet).getD o (wipeOutlet MetOutlet.fresh) = wipeOutlet (l.getD o MetOutlet.fresh) :=
    List.getD_map _ _ _
  have acc := congrArg MetOutlet.acc wiped
  have harm := congrArg MetOutlet.harm wiped
  exact ⟨acc, harm⟩

/-- The core stopped, its SRAM wiped and the domain reset counted, as MET_CORE_RELOAD does before every outlet is NOMETER. -/
def wipeCore (s : State) : State :=
  onSys (fun b => { b with domMet := satInc 8 b.domMet })
    (onBil (fun b => { b with outs := b.outs.map fun x => { x with demand := Demand.fresh } })
      (onMet (fun b => { b with run := false, outs := b.outs.map wipeOutlet, saving := none, snapQueue := [], snapWait := [],
                                pulses := b.pulses.map fun p => { Pulse.fresh with ovf := p.ovf } }) s))

/-- Every declared outlet is NOMETER by row 1 of R97. -/
def stopMetering (s : State) : State := (outletList s).foldl (fun s o => setNometer o 1 true s) s

theorem exec_metCoreReload (run : s.met.run = true) : exec .metCoreReload s = .next (stopMetering (wipeCore s)) :=
  congrArg Host.Outcome.next (if_pos run)

theorem stopMetering_sys : (stopMetering s).sys = s.sys :=
  foldl_keeps (g := State.sys) fun x o => same_sys_eq (same_setNometer o 1 true rfl (same_refl [.met] x)) rfl rfl

theorem stopMetering_keeps {α : Type} {g : MetBlock → α} (hs : ∀ b l, g { b with staging := l } = g b)
    (ho : ∀ b l, g { b with outs := l } = g b) : g (stopMetering s).met = g s.met :=
  foldl_keeps (g := fun s => g s.met) fun _ _ => setNometer_keeps hs fun b => ho b _

theorem accKept_stopMetering : AccKept s (stopMetering s) :=
  accKept_foldl accKept_refl fun _ _ => accKept_setNometer accKept_refl

/-- The wipe decides; the NOMETER events that follow change neither the accumulators nor the stopped work. -/
theorem metCoreReload_wipes (run : s.met.run = true) :
    Answers .metCoreReload s fun t => t.met.run = false ∧ t.sys.domMet = satInc 8 s.sys.domMet ∧ t.met.saving = none
      ∧ t.met.snapQueue = [] ∧ t.met.snapWait = []
      ∧ ∀ o, (metOutOf t o).acc = MetOutlet.fresh.acc ∧ (metOutOf t o).harm = MetOutlet.fresh.harm := by
  refine ⟨_, exec_metCoreReload run, stopMetering_keeps (g := MetBlock.run) (fun _ _ => rfl) fun _ _ => rfl,
    congrArg SysBlock.domMet stopMetering_sys, stopMetering_keeps (g := MetBlock.saving) (fun _ _ => rfl) fun _ _ => rfl,
    stopMetering_keeps (g := MetBlock.snapQueue) (fun _ _ => rfl) fun _ _ => rfl,
    stopMetering_keeps (g := MetBlock.snapWait) (fun _ _ => rfl) fun _ _ => rfl, fun o => ?_⟩
  obtain ⟨acc, harm⟩ := wipeOutlet_fresh (l := s.met.outs) (o := o)
  exact ⟨accKept_stopMetering.acc.trans acc, accKept_stopMetering.harm.trans harm⟩

/-! ## Restoration of the firmware (R83, R100) -/

theorem accRestore_run {o : Nat} : (accRestore o s).met.run = s.met.run := by
  unfold accRestore
  split
  · rfl
  · rfl

theorem restoreDemands_run {r : SaveRec} {l : List Nat} : (l.foldl (fun s o => restoreDemand r o s) s).met.run = s.met.run :=
  foldl_keeps (g := fun s => s.met.run) fun _ _ => rfl

/-- The restoration from a save keeps the core running. -/
theorem metFirmwareReloaded_runs (down : s.met.run = false) :
    Answers .metFirmwareReloaded s fun t => t.met.run = true := by
  refine ⟨_, congrArg Host.Outcome.next (if_neg (by simp [down])), ?_⟩
  extract_lets w s1 s2
  have run : s2.met.run = s1.met.run := by
    dsimp only [s2]
    split
    next r _ => exact restoreDemands_run
    · rfl
  exact (foldl_keeps (g := fun s => s.met.run) fun _ _ => accRestore_run).trans run

/-! ## Records and snapshots (R107, R121) -/

/-- Marks that bind the record number alone. -/
def seqMark (n : Nat) : Marks :=
  { seq := n, counter := 0, retired := false, left := false, floors := fun _ => 0, released := fun _ => True }

theorem marked_seqMark {n : Nat} : Marked (seqMark n) s ↔ n ≤ s.mgt.seq :=
  ⟨fun h => h.1, fun h => ⟨h, ⟨Nat.zero_le _, nofun, nofun⟩, ⟨fun _ => Nat.zero_le _⟩, ⟨fun _ _ => trivial⟩⟩⟩

/-- A staged record takes the next SEQ and enters the LEGAL ring. -/
def numberRecord (s : State) (e : Staged) : State :=
  let q := s.mgt.seq + 1
  archiveLegal { seq := q, ev := e.ev } (onMgt (fun b => { b with seq := q }) s)

theorem numberRecord_met {e : Staged} : (numberRecord s e).met = s.met :=
  (same_archiveLegal _ rfl (same_refl [.mgt, .log] (onMgt _ s))).part (q := .met) rfl

theorem numberRecord_seq {e : Staged} : s.mgt.seq + 1 ≤ (numberRecord s e).mgt.seq :=
  marked_seqMark.mp (marked_archiveLegal _ ((marked_seqMark (s := onMgt _ s)).mpr le_rfl))

theorem numberRecords_seq {l : List Staged} : s.mgt.seq + l.length ≤ (l.foldl numberRecord s).mgt.seq := by
  induction l generalizing s with
  | nil => exact le_rfl
  | cons e l ih =>
    have first := numberRecord_seq (s := s) (e := e)
    have rest := ih (s := numberRecord s e)
    simp only [List.length_cons, List.foldl_cons]
    omega

/-- The oldest `n` staged records numbered, and their places freed. -/
def confirmRecords (n : Nat) (s : State) : State :=
  onMet (fun b => { b with staging := b.staging.drop n }) ((s.met.staging.take n).foldl numberRecord s)

theorem confirmRecords_staging {n : Nat} : (confirmRecords n s).met.staging = s.met.staging.drop n :=
  congrArg (fun b : MetBlock => b.staging.drop n) (foldl_keeps (g := State.met) fun _ _ => numberRecord_met)

theorem confirmRecords_seq {n : Nat} : s.mgt.seq + min n s.met.staging.length ≤ (confirmRecords n s).mgt.seq := by
  have numbered := numberRecords_seq (s := s) (l := s.met.staging.take n)
  rwa [List.length_take] at numbered

theorem legalEventConfirm_numbers {n : Nat} (up : badgerUp s = true) :
    Answers (.legalEventConfirm n) s fun t =>
      t.met.staging = s.met.staging.drop n ∧ s.mgt.seq + min n s.met.staging.length ≤ t.mgt.seq := by
  refine ⟨checkWatermark (confirmRecords n s), congrArg Host.Outcome.next (if_pos up), ?_, ?_⟩
  · have met : (checkWatermark (confirmRecords n s)).met = (confirmRecords n s).met :=
      (same_checkWatermark rfl (same_refl [.mgt] _)).part (q := .met) rfl
    rw [met, confirmRecords_staging]
  · exact confirmRecords_seq.trans (marked_seqMark.mp (marked_checkWatermark (marked_seqMark.mpr le_rfl)))

theorem snapshotSigned_signs {x : Snapshot} {l : List Snapshot} {k : Bytes} (queue : s.met.snapQueue = x :: l)
    (key : meterKey s = some k) :
    Answers .snapshotSigned s fun t =>
      t.met.snapQueue = l ++ s.met.snapWait.take 1 ∧ t.met.snapWait = s.met.snapWait.drop 1 ∧ t.met.snapGen = x.gen
        ∧ t.mgt.snapArchive = signBody k x.body s.freeCtr :: s.mgt.snapArchive
        ∧ t.met.snapWin = fit 4096 (signBody k x.body s.freeCtr) := by
  refine ⟨_, rfl, ?_⟩
  simp only [queue, key]
  cases x.slot with
  | none => exact ⟨rfl, rfl, rfl, rfl, rfl⟩
  | some j => exact ⟨rfl, rfl, rfl, rfl, rfl⟩

theorem saveComplete_stores {k : Nat} {r : SaveRec} (saving : s.met.saving = some (k, r)) :
    exec .saveComplete s = .next { s with met := { s.met with saving := none, slots := put s.met.slots k (some r) } } := by
  show execSaveComplete s = _
  simp only [execSaveComplete, saving]
  rfl

/-! ## INTERVAL_CLOSE (R88, R93, R98, R101) -/

theorem outletRec_outlet {o : Nat} {r : OutletRec} (h : outletRec s o = some r) : r.outlet = o :=
  eq_of_beq (List.find?_some (p := fun r : OutletRec => r.outlet == o) h)

theorem exec_intervalClose {o : Nat} {i : IntervalInput} {r : OutletRec} (run : s.met.run = true)
    (stopped : s.met.stopped = false) (known : outletRec s o = some r) :
    exec (.intervalClose o i) s = .next (afterCapture o (closeInterval r i s)) := by
  have runs : metRuns s = true := by simp [metRuns, run, stopped]
  show execIntervalClose o i s = _
  simp only [execIntervalClose, runs, known]

/-! ### METER_OK and the new interval -/

theorem afterCapture_meter {o : Nat} :
    (afterCapture o s).owl.meterOk = s.owl.meterOk ∧ (afterCapture o s).owl.meterLost = s.owl.meterLost := by
  unfold afterCapture
  split
  · unfold requestRelease
    extract_lets go x
    split
    · exact ⟨rfl, rfl⟩
    · exact ⟨rfl, rfl⟩
  · exact ⟨rfl, rfl⟩

theorem afterCapture_met {o : Nat} : (afterCapture o s).met = s.met :=
  (same_afterCapture o rfl (same_refl [.owl, .vlk] s)).part (q := .met) rfl

theorem meterStatus_sends {o : Nat} (ok : o < s.owl.meterOk.length) (lost : o < s.owl.meterLost.length) :
    flag (meterStatus o s).owl.meterOk o = !(metOutOf (meterStatus o s) o).nometer
      ∧ flag (meterStatus o s).owl.meterLost o = false := by
  unfold meterStatus
  extract_lets x y
  have owl : x.owl = s.owl := by
    dsimp only [x]
    split
    next row n _ => exact (same_setNometer o row n rfl (same_refl [.met] s)).part (q := .owl) rfl
    · rfl
  exact ⟨put_getD_self (owl ▸ ok), put_getD_self (owl ▸ lost)⟩

/-- The outlets of the metrology core, and the grids of the resamplers. -/
def outletsAndGrids (s : State) : List MetOutlet × List Resampler := (s.met.outs, s.lane.rs)

theorem checkFail_outletsAndGrids {n stage : Nat} : outletsAndGrids (checkFail n stage s) = outletsAndGrids s := by
  obtain ⟨-, -, rs⟩ := othersKept_checkFail (stage := stage) (othersKept_refl (n := n) (a := s))
  exact Prod.ext rfl rs

/-- The events of a group's run of estimates touch staging, and its failed checks touch lanes. -/
theorem holdLastEvents_outletsAndGrids {o : Nat} {x : GroupClose} :
    outletsAndGrids (holdLastEvents o x s) = outletsAndGrids s := by
  unfold holdLastEvents
  split
  next u _ =>
    extract_lets y
    have logged : outletsAndGrids y = outletsAndGrids s := by
      dsimp only [y]
      split
      · rfl
      · rfl
    split
    · exact logged
    · exact checkFail_outletsAndGrids.trans (checkFail_outletsAndGrids.trans logged)
  · split
    · rfl
    · rfl

theorem holdLasts_outletsAndGrids {o : Nat} {gs : List GroupClose} :
    outletsAndGrids (gs.foldl (fun s x => holdLastEvents o x s) s) = outletsAndGrids s :=
  foldl_keeps fun _ _ => holdLastEvents_outletsAndGrids

theorem fill_upd {l : List Resampler} {o : Nat} :
    ((upd l o fun r => { r with fill := 0 }).getD o Resampler.fresh).fill = 0 := by
  by_cases h : o < l.length
  · rw [upd_getD_self h]
  · rw [List.getD_eq_default _ _ (by simpa [upd] using h)]
    rfl

/-- The close of an interval begins the next one on the outlet's grid, whatever is accrued. -/
theorem closeSteps_fill {r : OutletRec} {i : IntervalInput} :
    ((closeSteps r i s).lane.rs.getD r.outlet Resampler.fresh).fill = 0 := by
  unfold closeSteps
  extract_lets o dc rs ns checked gs drawn begun est held m noted profiled added shown
  have before : Same [.met, .bil, .log] held profiled := same_onBilOut _ _ rfl (same_onMetOut _ _ rfl (same_refl _ held))
  have accrual : Same [.met, .bil, .log] held added := same_ite before (same_accrueInterval o dc _ est gs rfl before)
  have close : Same [.met, .bil, .log] held (calGate o (countSeconds o ns shown)) :=
    same_calGate o rfl (same_countSeconds o ns rfl (same_onMetOut _ _ rfl accrual))
  have lane : (calGate o (countSeconds o ns shown)).lane = held.lane := close.part (q := .lane) rfl
  have grids : held.lane.rs = begun.lane.rs := congrArg Prod.snd holdLasts_outletsAndGrids
  rw [lane, grids]
  exact fill_upd

/-- Steps 5 to 7 of an interval's close write neither the lanes nor Owl. -/
theorem closeInterval_ends {r : OutletRec} {i : IntervalInput} :
    ∃ x, closeInterval r i s = meterStatus r.outlet x ∧ Same [.met, .bil, .vlk, .sys] (closeSteps r i s) x := by
  unfold closeInterval
  extract_lets s1 s2 asked s3 s4
  have h2 : Same [.met, .bil, .vlk, .sys] s1 s2 := same_boundarySteps r.outlet (nowTs s1) rfl (same_refl _ s1)
  have h3 : Same [.met, .bil, .vlk, .sys] s1 s3 := same_ite (same_beginSave 1 rfl h2) h2
  exact ⟨s4, rfl, same_ite (same_onSys rfl h3 fun _ => ⟨rfl, rfl⟩) h3⟩

/-- METER_OK goes out with the status last, and the grid's new interval has no word. -/
theorem intervalClose_reports {o : Nat} {i : IntervalInput} (ok : o < s.owl.meterOk.length)
    (lost : o < s.owl.meterLost.length) (run : s.met.run = true) (stopped : s.met.stopped = false)
    (decl : declared s o = true) :
    Answers (.intervalClose o i) s fun t =>
      flag t.owl.meterOk o = !(metOutOf t o).nometer ∧ flag t.owl.meterLost o = false
        ∧ (t.lane.rs.getD o Resampler.fresh).fill = 0 := by
  obtain ⟨r, known⟩ := Option.isSome_iff_exists.mp decl
  obtain rfl := outletRec_outlet known
  refine ⟨_, exec_intervalClose run stopped known, ?_⟩
  obtain ⟨x, closed, same⟩ := closeInterval_ends (r := r) (i := i) (s := s)
  have steps : Same [.lane, .met, .bil, .log, .freeCtr] s (closeSteps r i s) := same_closeSteps r i rfl (same_refl _ s)
  have owl : x.owl = s.owl := (same.part (q := .owl) rfl).trans (steps.part (q := .owl) rfl)
  have after : Same [.met, .owl, .vlk] x (afterCapture r.outlet (meterStatus r.outlet x)) :=
    same_afterCapture r.outlet rfl (same_meterStatus r.outlet rfl (same_refl _ x))
  have lane : (afterCapture r.outlet (meterStatus r.outlet x)).lane = (closeSteps r i s).lane :=
    (after.part (q := .lane) rfl).trans (same.part (q := .lane) rfl)
  obtain ⟨hok, hlost⟩ := afterCapture_meter (s := meterStatus r.outlet x) (o := r.outlet)
  obtain ⟨sent, cleared⟩ := meterStatus_sends (s := x) (owl ▸ ok) (owl ▸ lost)
  rw [closed, hok, hlost, metOutOf, afterCapture_met, lane]
  exact ⟨sent, cleared, closeSteps_fill⟩

/-! ### The accrual of a METERING outlet -/

/-- Accumulators after an interval's increments, modulo 2^80 (R93). -/
def accrued (old inc : List Nat) : List Nat := (List.range 10).map fun q => (at0 old q + at0 inc q) % 2 ^ 80

theorem accrue_acc {o : Nat} {inc : List Nat} {harm : List Int} (ho : o < s.met.outs.length) :
    (metOutOf (accrue o inc harm s) o).acc = accrued (metOutOf s o).acc inc := by
  unfold accrue
  extract_lets old new int s1 s2 s3
  have h2 : AccKept s1 s2 := accKept_accrueTariff accKept_refl
  have added : (metOutOf s1 o).acc = accrued (metOutOf s o).acc inc := by
    dsimp only [s1]
    rw [metOutOf_onMetOut_self ho]
    rfl
  exact (AccKept.acc (accKept_ite (accKept_legalEv (accKept_onCounters h2)) h2)).trans added

/-- The increments of R88 and R92 of an outlet's totals, by its kind and the resistance of its cable. -/
def incrementsOf (s : State) (o : Nat) (dc : Bool) (c : Contribution) : List Nat :=
  increments dc (((meterRec s o).map (·.cableUohm)).getD 0) c.p c.q c.s c.loss

/-- An outlet out of trial accrues the increments of the interval's totals. -/
theorem accrueInterval_acc {o : Nat} {dc locked est : Bool} {gs : List GroupClose} (ho : o < s.met.outs.length)
    (trial : (metOutOf s o).inTrial = false) :
    (metOutOf (accrueInterval o dc locked est gs s) o).acc =
      accrued (metOutOf s o).acc (incrementsOf s o dc (totals gs)) := by
  unfold accrueInterval
  extract_lets c res inc counted added
  have outs : counted.met.outs = s.met.outs := by
    dsimp only [counted]
    split
    · rfl
    · rfl
  have same : metOutOf counted o = metOutOf s o := congrArg (List.getD · o MetOutlet.fresh) outs
  have kept : AccKept (accrue o inc (if locked then c.harm else List.replicate 63 0) counted) added := by
    have legal : ¬ (metOutOf counted o).inTrial = true := by simp [same, trial]
    dsimp only [added]
    rw [if_neg legal]
    exact accKept_accountPulses accKept_refl
  refine (metOutOf_onMetOut_keeps (g := MetOutlet.acc) ?_).trans ?_
  · exact fun _ => rfl
  · rw [kept.acc, accrue_acc (outs ▸ ho), same]
    rfl

theorem accCheck_nil {o : Nat} : accCheck o [] s = s := by
  have kept : upd s.met.outs o (fun m => m) = s.met.outs := List.modify_id o s.met.outs
  exact congrArg (fun l => { s with met := { s.met with outs := l } }) kept

theorem trialChange_same {o : Nat} (h : outletTrial s o = (metOutOf s o).inTrial) : trialChange o s = s := if_pos h

/-- The state that a METERING outlet's interval is accrued on has the outlet and the structure as they were. -/
theorem closeSteps_acc {r : OutletRec} {i : IntervalInput} (ho : r.outlet < s.met.outs.length) (whole : i.accs = [])
    (metering : (metOutOf s r.outlet).nometer = false) (billed : (metOutOf s r.outlet).inTrial = false)
    (trial : outletTrial s r.outlet = false) :
    (metOutOf (closeSteps r i s) r.outlet).acc =
      accrued (metOutOf s r.outlet).acc (incrementsOf s r.outlet (r.kind == 2) (totals (groupResults s r i))) := by
  unfold closeSteps
  extract_lets o dc rs ns checked gs drawn begun est held m noted profiled added shown
  have start : checked = s := by
    dsimp only [checked]
    rw [whole, accCheck_nil, trialChange_same (trial.trans billed.symm)]
  clear_value checked
  subst start
  have outs : held.met.outs = checked.met.outs := congrArg Prod.fst (holdLasts_outletsAndGrids (s := begun))
  have out : metOutOf held o = metOutOf checked o := congrArg (List.getD · o MetOutlet.fresh) outs
  have str : held.str = checked.str :=
    foldl_keeps (g := State.str) fun x y => (same_holdLastEvents o y rfl (same_refl [.lane, .met] x)).part (q := .str) rfl
  have present : o < profiled.met.outs.length := by
    show o < (upd held.met.outs o _).length
    rw [upd, List.length_modify, outs]
    exact ho
  have legal : (metOutOf profiled o).inTrial = (metOutOf held o).inTrial := metOutOf_onMetOut_keeps fun _ => rfl
  have acc : (metOutOf profiled o).acc = (metOutOf held o).acc := metOutOf_onMetOut_keeps fun _ => rfl
  have inc : incrementsOf profiled o = incrementsOf checked o := by
    unfold incrementsOf meterRec
    rw [show profiled.str = checked.str from str]
  have accrual : added = accrueInterval o dc (rs.state == .locked) est gs profiled := by
    refine if_neg ?_
    rw [Bool.not_eq_true]
    exact (congrArg MetOutlet.nometer out).trans metering
  have after : AccKept added (calGate o (countSeconds o ns shown)) :=
    accKept_calGate (accKept_countSeconds (accKept_onMetOut accKept_refl fun _ => ⟨rfl, rfl⟩))
  rw [after.acc, accrual, accrueInterval_acc present (legal.trans ((congrArg MetOutlet.inTrial out).trans billed)), acc, out, inc]

/-- A METERING outlet out of trial accrues once in the close of its interval. -/
theorem intervalClose_accrues {o : Nat} {i : IntervalInput} {r : OutletRec} (inv : s.Inv) (run : s.met.run = true)
    (stopped : s.met.stopped = false) (known : outletRec s o = some r) (ho : o < 4) (whole : i.accs = [])
    (metering : (metOutOf s o).nometer = false) (billed : (metOutOf s o).inTrial = false) (trial : outletTrial s o = false) :
    Answers (.intervalClose o i) s fun t =>
      (metOutOf t o).acc = accrued (metOutOf s o).acc (incrementsOf s o (r.kind == 2) (totals (groupResults s r i))) := by
  obtain rfl := outletRec_outlet known
  refine ⟨_, exec_intervalClose run stopped known, ?_⟩
  have kept : AccKept (closeSteps r i s) (afterCapture r.outlet (closeInterval r i s)) :=
    accKept_closeInterval.law [.owl, .vlk] (same_afterCapture r.outlet)
  exact kept.acc.trans (closeSteps_acc (by simpa [met_lengths inv]) whole metering billed trial)

/-- Settles O12: a pulse, the gate, a save, a snapshot and the reads are one update each; a reload's NOMETER events, a
confirmation's numbering and the restoration keep what is claimed; and an interval's close is read off at its accrual, its
METER_OK and its grid, which no later step touches. -/
theorem meteringCommandsEffect : Obligations.MeteringCommandsEffect := by
  unfold Obligations.MeteringCommandsEffect
  refine ⟨?_, ?_, ?_, ?_, ?_, ?_, ?_, ?_, ?_, ?_, ?_, ?_, ?_, ?_, ?_⟩
  · exact fun s p => pulseTimer_ends
  · exact fun s w => calctlStart_opens
  · exact fun s => rfl
  · exact fun s n run => congrArg Host.Outcome.next (if_pos run)
  · exact fun s _ => metCoreReload_wipes
  · exact fun s => metFirmwareReloaded_runs
  · exact fun s n => legalEventConfirm_numbers
  · exact fun s x l k => snapshotSigned_signs
  · exact fun s w => rfl
  · exact fun s k r => saveComplete_stores
  · exact fun s v o q x value => value ▸ rfl
  · exact fun s v x value => value ▸ rfl
  · exact fun s v o x b value => value ▸ rfl
  · exact fun s o i _ => intervalClose_reports
  · intro s o i r c inv run stopped known ho whole metering billed trial total
    rw [total]
    exact intervalClose_accrues inv run stopped known ho whole metering billed trial

end Sys2Proof.Machine
end

section
/-! PROOFS. The statements of 04_billing_tariffs_tokens.md: the effect of each billing command (R122-R153). -/

namespace Sys2Proof.Machine

variable {s t : State}

/-! ## Two-copy records (R129) -/

/-- What is written to the copy not in force is in force: it is valid, and its sequence number is the higher one. -/
@[simp] theorem get_write {α : Type} {v : α} {w : Twin α} : (w.write v).get = v := by
  unfold Twin.write
  extract_lets n
  split
  next first => simp [Twin.get, Twin.cur, n, first]
  next second => simp [Twin.get, Twin.cur, n, second]

@[simp] theorem get_change {α : Type} {f : α → α} {w : Twin α} : (w.change f).get = f w.get := get_write

@[simp] theorem billCtl_onCtl {f : BillCtl → BillCtl} : billCtl (onCtl f s) = f (billCtl s) := get_change

/-! ## A list that gives up its oldest entries -/

/-- A journal that drops old entries before its newest one ends with the newest. -/
theorem getLast?_drop_concat {α : Type} {l : List α} {x : α} {k : Nat} (h : k ≤ l.length) :
    ((l ++ [x]).drop k).getLast? = some x := by
  rw [List.drop_append_of_le_length h, List.getLast?_concat]

/-! ## CAL_LOAD (R127, R130) -/

/-- A refusal writes the reason and the status alone, whether or not it is logged. -/
theorem calRefuse_bil {r : Req} {b : Bytes} {reason sts : Nat} {cls : Option EvClass} :
    (calRefuse r b reason sts cls s).bil = { s.bil with calReason := reason, calRc := sts } := by
  unfold calRefuse
  rw [postSts_bil]
  split
  · exact logEv_bil
  · rfl

theorem calLoad_refuses {r : Req} {b : Bytes} {row : Nat × Bool × Nat × Option EvClass}
    (first : (calRows s b).find? (·.2.1) = some row) :
    Answers (.calLoad r b) s fun t => Posted t r row.2.2.1 [] ∧ t.bil.cals = s.bil.cals ∧ t.bil.ctl = s.bil.ctl := by
  refine ⟨calRefuse r b row.1 row.2.2.1 row.2.2.2 s, ?_, rfl, ?_, ?_⟩
  · show execCalLoad r b s = _
    simp only [execCalLoad, first]
  · rw [calRefuse_bil]
  · rw [calRefuse_bil]

/-- The control record after an accepted calendar: the slot that is not active holds it, and its number is the highest. -/
theorem billCtl_storeCalendar {c : Calendar} {b : Bytes} :
    billCtl (storeCalendar c b s) =
      { billCtl s with passiveSlot := some (if (billCtl s).activeSlot = some 0 then 1 else 0), passiveSeq := c.seq,
                       passiveAct := c.activation, highestSeq := c.seq } := by
  unfold storeCalendar
  extract_lets k s1 s2
  have cleared : billCtl s2 = { billCtl s with passiveSlot := none } := billCtl_onCtl (s := s)
  rw [billCtl_onCtl, cleared]

theorem passiveCal_storeCalendar {c : Calendar} {b : Bytes} (active : (billCtl s).activeSlot ≠ some 0)
    (present : 0 < s.bil.cals.length) : passiveCal (storeCalendar c b s) = some c := by
  have stored : (storeCalendar c b s).bil.cals = put s.bil.cals 0 (some { cal := c, bytes := b, ok := true }) := by
    unfold storeCalendar
    rw [if_neg active]
    rfl
  simp only [passiveCal, calSlot, billCtl_storeCalendar, if_neg active, Option.bind_some, stored, put_getD_self present, if_true]

/-- The calendar in its slot, and BIL_CALRC without a reason, before the event and the result. -/
def calendarStored (b : Bytes) (s : State) : State :=
  storeCalendar (calendarOf b) b (onBil (fun x => { x with calReason := 0, calRc := stsOk }) s)

theorem exec_calLoad_accepts {r : Req} {b : Bytes} (passes : (calRows s b).find? (·.2.1) = none) :
    exec (.calLoad r b) s = .next (postSts r stsOk (legalEv 0x06 0xFF 0x0601
      [(4, (calendarOf b).seq), (4, secOfTs (calendarOf b).activation)] (calendarStored b s))) := by
  show execCalLoad r b s = _
  simp only [execCalLoad, passes, calendarStored]

theorem calLoad_accepts {r : Req} {b : Bytes} (passes : (calRows s b).find? (·.2.1) = none) :
    Answers (.calLoad r b) s fun t => Posted t r stsOk [] ∧ (billCtl t).highestSeq = (calendarOf b).seq
      ∧ ((billCtl s).activeSlot ≠ some 0 → 0 < s.bil.cals.length → passiveCal t = some (calendarOf b)) := by
  refine ⟨_, exec_calLoad_accepts passes, postSts_result, ?_, fun active present => ?_⟩
  · rw [billCtl, postSts_bil, legalEv_bil]
    exact congrArg BillCtl.highestSeq billCtl_storeCalendar
  · rw [passiveCal, calSlot, billCtl, postSts_bil, legalEv_bil]
    exact passiveCal_storeCalendar active present

/-! ## TOKEN_ENTER (R145-R149) -/

theorem setCredit_bil {c : Int} : (setCredit c s).bil = { s.bil with credit := c, exhausted := decide (c ≤ 0) } := by
  unfold setCredit
  extract_lets ex onset s1
  split
  · exact legalEv_bil
  · rfl

theorem tokenEnd_bil {r : Req} {reason sts : Nat} {log : Option (EvClass × Nat × Nat)} :
    (tokenEnd r reason sts log s).bil = { s.bil with tokRc := sts, tokReason := reason } := by
  unfold tokenEnd
  rw [postSts_bil]
  split
  · exact logEv_bil
  · rfl

theorem tokenEnd_posts {r : Req} {reason sts : Nat} {log : Option (EvClass × Nat × Nat)} :
    Posted (tokenEnd r reason sts log s) r sts [] := rfl

/-- A table that takes an entry, in its free place or in that of its lowest TID, holds it last. -/
theorem replayAdd_getLast? {e : ReplayEntry} {x : List ReplayEntry × Nat} : (replayAdd e x).1.getLast? = some e := by
  unfold replayAdd
  split
  · exact List.getLast?_concat
  · exact List.getLast?_concat

/-- The journal entry of an accepted token. -/
def tokenEntry (cls sub tid amount : Nat) (s : State) : TokenEntry :=
  { seq := s.bil.tokenNext, cls := cls, sub := sub, tid := tid, amount := if cls = 0 then amount else 0, time := nowTs s,
    ok := true }

/-- The replay table and TID_FLOOR after an accepted token. -/
def replayAfter (cls sub tid : Nat) (s : State) : List ReplayEntry × Nat :=
  replayAdd { tid := tid, sub := sub, cls := cls } (s.bil.replay, (billCtl s).tidFloor)

/-- Everything that an accepted token writes of billing. -/
theorem acceptToken_bil {r : Req} {cls sub tid amount : Nat} :
    (acceptToken r cls sub tid amount s).bil =
      { s.bil with
        tokens := (s.bil.tokens ++ [tokenEntry cls sub tid amount s]).drop (s.bil.tokens.length + 1 - 64)
        tokenNext := s.bil.tokenNext + 1
        replay := (replayAfter cls sub tid s).1
        lastTokenS := nowSec s
        ctl := s.bil.ctl.change fun c => { c with tidFloor := (replayAfter cls sub tid s).2 }
        credit := creditAfter cls amount s.bil.credit
        exhausted := decide (creditAfter cls amount s.bil.credit ≤ 0)
        tokRc := stsOk
        tokReason := 0 } := by
  unfold acceptToken
  extract_lets seq e
  rw [tokenEnd_bil, legalEv_bil, setCredit_bil]
  rfl

theorem acceptToken_journals {r : Req} {cls sub tid amount : Nat} :
    (acceptToken r cls sub tid amount s).bil.tokens.getLast? = some (tokenEntry cls sub tid amount s) := by
  rw [acceptToken_bil]
  exact getLast?_drop_concat (by omega)

theorem acceptToken_replays {r : Req} {cls sub tid amount : Nat} :
    (acceptToken r cls sub tid amount s).bil.replay.getLast? = some { tid := tid, sub := sub, cls := cls } := by
  rw [acceptToken_bil]
  exact replayAdd_getLast?

theorem acceptToken_posts {r : Req} {cls sub tid amount : Nat} : Posted (acceptToken r cls sub tid amount s) r stsOk [] := by
  unfold acceptToken
  exact tokenEnd_posts

/-- An accepted token is posted, credited, journalled and held against replay. -/
theorem acceptToken_enters {r : Req} {cls sub tid amount : Nat} (accepted : t = acceptToken r cls sub tid amount s) :
    Posted t r stsOk [] ∧ t.bil.tokRc = stsOk ∧ t.bil.tokReason = 0 ∧ t.bil.credit = creditAfter cls amount s.bil.credit
      ∧ t.bil.tokenNext = s.bil.tokenNext + 1
      ∧ (∃ e, t.bil.tokens.getLast? = some e ∧ e.seq = s.bil.tokenNext ∧ e.cls = cls ∧ e.sub = sub ∧ e.tid = tid
          ∧ e.ok = true)
      ∧ t.bil.replay.getLast? = some { tid := tid, sub := sub, cls := cls } ∧ t.bil.lastTokenS = nowSec s := by
  subst accepted
  have bil := acceptToken_bil (s := s) (r := r) (cls := cls) (sub := sub) (tid := tid) (amount := amount)
  exact ⟨acceptToken_posts, congrArg BilBlock.tokRc bil, congrArg BilBlock.tokReason bil, congrArg BilBlock.credit bil,
    congrArg BilBlock.tokenNext bil, ⟨_, acceptToken_journals, rfl, rfl, rfl, rfl, rfl⟩, acceptToken_replays,
    congrArg BilBlock.lastTokenS bil⟩

/-- What TOKEN_ENTER comes to: a refusal, or an accepted token. -/
inductive TokenEnds (r : Req) (s : State) : State → Prop
  | refused {reason sts : Nat} {log : Option (EvClass × Nat × Nat)} (bad : sts ≠ stsOk) :
      TokenEnds r s (tokenEnd r reason sts log s)
  | accepted {cls sub tid amount : Nat} : TokenEnds r s (acceptToken r cls sub tid amount s)

/-- A row that refuses, before rows that end so. -/
theorem TokenEnds.row {r : Req} {c : Prop} [Decidable c] {reason sts : Nat} {log : Option (EvClass × Nat × Nat)}
    (bad : sts ≠ stsOk) (rest : TokenEnds r s t) : TokenEnds r s (if c then tokenEnd r reason sts log s else t) := by
  split
  · exact .refused bad
  · exact rest

theorem tokenRows_ends {r : Req} {b2014 : Bool} {cls sub tid amount : Nat} :
    TokenEnds r s (tokenRows r b2014 cls sub tid amount s) :=
  .row (by decide) (.row (by decide) (.row (by decide) (.row (by decide) (.row (by decide) (.row (by decide)
    (.row (by decide) .accepted))))))

/-- Every row of R146, before and after decryption, ends in a refusal or in an accepted token. -/
theorem tokenEnter_ends {r : Req} {d : Bytes} : Answers (.tokenEnter r d) s (TokenEnds r s) := by
  refine ⟨_, rfl, ?_⟩
  split
  · exact .refused (by decide)
  next n _ =>
    refine .row (by decide) (.row (by decide) ?_)
    split
    · exact .refused (by decide)
    · split
      · exact .refused (by decide)
      · exact tokenRows_ends

/-- The status left in BIL_TOKSTAT tells a refusal from an accepted token. -/
theorem TokenEnds.effect {r : Req} (h : TokenEnds r s t) :
    Posted t r t.bil.tokRc []
      ∧ (t.bil.tokRc = stsOk → t.bil.tokenNext = s.bil.tokenNext + 1
          ∧ ∃ e, t.bil.tokens.getLast? = some e ∧ e.seq = s.bil.tokenNext)
      ∧ (t.bil.tokRc ≠ stsOk → t.bil.tokens = s.bil.tokens ∧ t.bil.tokenNext = s.bil.tokenNext
          ∧ t.bil.replay = s.bil.replay ∧ t.bil.credit = s.bil.credit) := by
  cases h with
  | refused bad =>
    rw [tokenEnd_bil]
    exact ⟨tokenEnd_posts, fun ok => absurd ok bad, fun _ => ⟨rfl, rfl, rfl, rfl⟩⟩
  | accepted =>
    obtain ⟨posted, rc, -, -, next, ⟨e, newest, seq, -⟩, -⟩ := acceptToken_enters (s := s) (r := r) rfl
    rw [rc]
    exact ⟨posted, fun _ => ⟨next, e, newest, seq⟩, fun bad => absurd rfl bad⟩

/-- A token that the decoder key opens is decided by the rows after decryption. -/
theorem exec_tokenEnter_opens {r : Req} {d : Bytes} {n cls sub tid amount : Nat} {k : KeySlot} (digits : tokenNumber d = some n)
    (range : n < 2 ^ 66) (lc : s.key.lc ≠ .retired) (key : decoderKey s = some k)
    (opens : Config.tokenOpen k.material k.param n = some (cls, sub, tid, amount)) :
    exec (.tokenEnter r d) s = .next (tokenRows r (Config.base2014 k.param) cls sub (tid % 2 ^ 24) amount s) := by
  show execTokenEnter r d s = _
  simp only [execTokenEnter, digits, if_neg (Nat.not_le.mpr range), if_neg lc, key, opens]

theorem tokenRows_accepts {r : Req} {b2014 : Bool} {cls sub tid amount : Nat}
    (kind : (cls = 0 ∧ sub = 0) ∨ (cls = 2 ∧ sub = 1))
    (prepaid : prepayMask s ≠ 0) (room : (unconfirmed s).length < 64) (unused : s.bil.replay.any (·.tid == tid) = false)
    (floor : (billCtl s).tidFloor < tid) (old : s.bil.replay.length < 16384 ∨ oldestTid s ≤ tid)
    (future : timeValid s = false ∨ tid ≤ minutesSince s b2014 + 1440)
    (limit : creditAfter cls amount s.bil.credit ≤ 1000000000000) :
    tokenRows r b2014 cls sub tid amount s = acceptToken r cls sub tid amount s := by
  have known : ¬ (!((cls == 0 && sub == 0) || (cls == 2 && sub == 1))) = true := by
    rcases kind with ⟨rfl, rfl⟩ | ⟨rfl, rfl⟩
    · decide
    · decide
  have recent : ¬ (tid ≤ (billCtl s).tidFloor ∨ (16384 ≤ s.bil.replay.length ∧ tid < oldestTid s)) := by omega
  have timely : ¬ (timeValid s = true ∧ minutesSince s b2014 + 1440 < tid) := by
    rintro ⟨valid, late⟩
    rcases future with free | soon
    · exact absurd valid (by simp [free])
    · omega
  unfold tokenRows
  extract_lets reject
  rw [if_neg known, if_neg prepaid, if_neg (by omega), if_neg (by simp [unused]), if_neg recent, if_neg timely,
    if_neg (by omega)]

/-! ## LOAD_PROFILE_RECORD (R141, R142) -/

/-- What a quarter hour does to an outlet: its flags start anew, and while Badger is down its queue takes a record. -/
def Profiled (o : Nat) (s t : State) : Prop :=
  (bilOutOf t o).profFlags = 0
    ∧ (badgerUp s = false → (bilOutOf t o).profQueue.length = min 96 ((bilOutOf s o).profQueue.length + 1))

/-- The records of a list of outlets, in order, at the quarter hour that ended last. -/
def profileAll (l : List Nat) (s : State) : State :=
  l.foldl (fun s o => profileOf (tsOfSec (nowSec s / 900 * 900)) o s) s

theorem badgerUp_profileOf {ts o : Nat} : badgerUp (profileOf ts o s) = badgerUp s :=
  congrArg (fun b : SysBlock => b.booted && !b.badgerDown && !b.holdup && b.mode != .watch && b.mode != .dormant)
    (same_sys_eq (same_profileOf ts o rfl (same_refl [.bil] s)) rfl rfl)

theorem toSquirrel_outs {l : List Bytes} : (toSquirrel l s).bil.outs = s.bil.outs := by
  rw [toSquirrel, onBil_bil]

theorem bilOutOf_toSquirrel {l : List Bytes} {o : Nat} : bilOutOf (toSquirrel l s) o = bilOutOf s o :=
  congrArg (List.getD · o BilOutlet.fresh) toSquirrel_outs

theorem outs_length_profileOf {ts o : Nat} : (profileOf ts o s).bil.outs.length = s.bil.outs.length := by
  unfold profileOf
  extract_lets r s1
  have first : s1.bil.outs.length = s.bil.outs.length := upd_length _ _ _
  split
  · rw [toSquirrel_outs, first]
  · exact (upd_length _ _ _).trans first

theorem bilOutOf_profileOf_ne {ts o n : Nat} (h : n ≠ o) : bilOutOf (profileOf ts o s) n = bilOutOf s n := by
  unfold profileOf
  extract_lets r s1
  have first : bilOutOf s1 n = bilOutOf s n := bilOutOf_onBilOut_ne h
  split
  · rw [bilOutOf_toSquirrel, first]
  · exact (bilOutOf_onBilOut_ne h).trans first

theorem profileOf_profiles {ts o : Nat} (ho : o < s.bil.outs.length) : Profiled o s (profileOf ts o s) := by
  unfold profileOf
  extract_lets r s1
  have first : bilOutOf s1 o = { bilOutOf s o with profBase := profileNow s o, profFlags := 0 } := bilOutOf_onBilOut_self ho
  have present : o < s1.bil.outs.length := by simpa [s1, onBilOut] using ho
  split
  next up =>
    unfold Profiled
    rw [bilOutOf_toSquirrel, first]
    have taken : badgerUp s = true := up
    exact ⟨rfl, fun down => absurd taken (by simp [down])⟩
  next down =>
    unfold Profiled
    rw [bilOutOf_onBilOut_self present, first]
    refine ⟨rfl, fun _ => ?_⟩
    simp only [List.length_drop, List.length_append, List.length_singleton]
    omega

theorem bilOutOf_profileAll_ne {o : Nat} {l : List Nat} (h : o ∉ l) : bilOutOf (profileAll l s) o = bilOutOf s o := by
  induction l generalizing s with
  | nil => rfl
  | cons x l ih =>
    exact (ih (List.not_mem_of_not_mem_cons h)).trans (bilOutOf_profileOf_ne (List.ne_of_not_mem_cons h))

/-- Each outlet of the list is recorded at its own turn, and at no other. -/
theorem profileAll_profiles {o : Nat} {l : List Nat} (once : l.Nodup) (mem : o ∈ l) (ho : o < s.bil.outs.length) :
    Profiled o s (profileAll l s) := by
  induction l generalizing s with
  | nil => exact absurd mem List.not_mem_nil
  | cons x l ih =>
    obtain ⟨hx, hl⟩ := List.nodup_cons.mp once
    by_cases turn : o = x
    · subst turn
      have rest : bilOutOf (profileAll (o :: l) s) o = bilOutOf (profileOf _ o s) o := bilOutOf_profileAll_ne hx
      unfold Profiled
      rw [rest]
      exact profileOf_profiles ho
    · have later : Profiled o (profileOf _ x s) (profileAll (x :: l) s) :=
        ih hl (List.mem_of_ne_of_mem turn mem) (outs_length_profileOf.symm ▸ ho)
      unfold Profiled at later
      rwa [badgerUp_profileOf, bilOutOf_profileOf_ne turn] at later

theorem exec_loadProfileRecord :
    exec .loadProfileRecord s = .next (profileAll (outletList s) s) := by
  show execLoadProfileRecord s = _
  rw [execLoadProfileRecord, profileAll]

theorem loadProfileRecord_profiles {o : Nat} (inv : s.Inv) (ho : o < 4) (decl : declared s o = true) :
    Answers .loadProfileRecord s (Profiled o s) := by
  obtain ⟨-, -, shape, -⟩ := inv
  have outs : s.bil.outs.length = 4 := by simpa [BilBlock.shape] using shape
  have mem : o ∈ outletList s := List.mem_filter.mpr ⟨List.mem_range.mpr ho, decl⟩
  exact ⟨_, exec_loadProfileRecord, profileAll_profiles (List.nodup_range.filter _) mem (outs ▸ ho)⟩

/-! ## Snapshots, BILL_RESET and the mirror (R136, R149, R151) -/

theorem billSnapRead_reads {r : Req} {i : Nat} {x : RingSlot} (index : i < (billCtl s).snapCount) (signed : x.state = .signed)
    (slot : s.bil.ring[((billCtl s).snapNext + 23 - i) % 24]? = some x) :
    Answers (.billSnapRead r i) s fun t => Posted t r stsOk x.bytes ∧ t.bil = s.bil := by
  have read : snapAt s i = x := by
    unfold snapAt
    rw [List.getD_eq_getElem?_getD, slot, Option.getD_some]
  have found : (decide ((billCtl s).snapCount ≤ i) || (snapAt s i).state != .signed) = false := by
    simp [read, signed, Nat.not_le.mpr index]
  refine ⟨_, congrArg Host.Outcome.next (guarded_ok (firstFail_cons_false found)), ?_, post_bil⟩
  rw [read]
  exact post_result

theorem billReset_waits {r : Req} (mode : s.sys.mode = .maintenance) (later : (billCtl s).lastBoundary < nowTs s) :
    Answers (.billReset r) s fun t => Posted t r stsOk [] ∧ t.bil = { s.bil with resetDue := true } := by
  have allowed : (s.sys.mode != .maintenance || decide (nowTs s ≤ (billCtl s).lastBoundary)) = false := by
    simp [mode, Nat.not_le.mpr later]
  exact ⟨_, congrArg Host.Outcome.next (guarded_ok (firstFail_cons_false allowed)), postSts_result, postSts_bil⟩

theorem tokenMirrorConfirm_mirrors {k : Nat} (later : (billCtl s).mirroredSeq < k) (given : k < s.bil.tokenNext) :
    Answers (.tokenMirrorConfirm k) s fun t =>
      (billCtl t).mirroredSeq = k
        ∧ t.bil.mirror = s.bil.mirror.write (s.bil.replay.filter fun e =>
            !((s.bil.tokens.filter fun x => decide (k < x.seq)).map (·.tid)).contains e.tid) :=
  ⟨_, congrArg Host.Outcome.next (if_pos ⟨later, given⟩), congrArg BillCtl.mirroredSeq billCtl_onCtl, rfl⟩

/-- Settles O13: the first row that holds refuses a calendar or a token, and with none it is stored or entered; a quarter hour
records each declared outlet at its own turn; and the other commands are one update each. -/
theorem billingCommandsEffect : Obligations.BillingCommandsEffect := by
  unfold Obligations.BillingCommandsEffect
  refine ⟨?_, ?_, ?_, ?_, ?_, ?_, ?_, ?_⟩
  · intro s r b
    cases first : (calRows s b).find? (·.2.1) with
    | none => exact calLoad_accepts first
    | some row => exact calLoad_refuses first
  · intro s r d
    obtain ⟨t, answers, ends⟩ := tokenEnter_ends (s := s) (r := r) (d := d)
    exact ⟨t, answers, ends.effect⟩
  · intro s r d n cls sub tid amount k digits range lc key opens bits kind prepaid room unused floor old future limit
    have accepted := exec_tokenEnter_opens (r := r) digits range lc key opens
    rw [Nat.mod_eq_of_lt bits, tokenRows_accepts kind prepaid room unused floor old future limit] at accepted
    exact ⟨_, accepted, acceptToken_enters rfl⟩
  · exact fun s r i x => billSnapRead_reads
  · exact fun s r => billReset_waits
  · exact fun s o => loadProfileRecord_profiles
  · exact fun s k => tokenMirrorConfirm_mirrors
  · exact fun s v g => rfl

end Sys2Proof.Machine
end

section
/-! PROOFS. The statements of 05_power_path_protection.md: load-switch channels and their supply groups (R154-R164), fast taps,
residual current and isolation (R165-R175), weld checks and cable locks (R176-R179), and what their commands leave unchanged. -/

namespace Sys2Proof.Machine

variable {s t : State}

/-! ## Frames of the power path -/

/-- Settles O44: each command is its meaning, and the lemma of that meaning (Laws/FramePower) names the parts it writes. -/
theorem powerFrames : Obligations.PowerFrames := by
  unfold Obligations.PowerFrames
  intro s t
  exact ⟨fun k => onlyIn_next (same_execLsDemandChange k),
    fun k i => onlyIn_next (same_execLsOverload k i),
    fun k i => onlyIn_next (same_execLsInrushEnd k i),
    fun k => onlyIn_next (same_execLsRetryTimer k),
    fun k x => onlyIn_next (same_execLsThermalLatch k x),
    fun k x => onlyIn_next (same_execLsLatchAutoclear k x),
    fun b m => onlyIn_next (same_execLimpInputChange b m),
    fun o => onlyIn_next (same_execLockTimeout o),
    fun o => onlyIn_next (same_execLockRetry o),
    fun k => onlyIn_next (same_execLsRetryReset k),
    fun g v => onlyIn_next (same_execLsUndervoltage g v),
    fun g v => onlyIn_next (same_execLsUvRecover g v),
    fun k i => onlyIn_next (same_execLsOpenloadOn k i),
    fun k v => onlyIn_next (same_execLsOpenloadDiag k v),
    fun r k x => onlyIn_next (same_execPwrClear r k x),
    fun r o => onlyIn_next (same_execWeldClear r o),
    fun n k => onlyIn_next (same_execFastTrip n k),
    fun o k => onlyIn_next (same_execRcTrip o k),
    fun o l => onlyIn_next (same_execRcEvaluate o l),
    fun o i => onlyIn_next (same_execIsoStateSwitch o i),
    fun o u => onlyIn_next (same_execIsoUnknown o u),
    fun o i => onlyIn_next (same_execPreCloseResult o i),
    fun o i => onlyIn_next (same_execPostOpenResult o i),
    fun o b => onlyIn_next (same_execLockFeedback o b),
    fun o => onlyIn_next (same_execPrecloseRetry o),
    fun n i => onlyIn_next (same_execFastTapWord n i)⟩

/-! ## Channels and what a change of one leaves (R157, R178) -/

section Channels
variable {n m : Nat} {st : ChState}

/-- 12 channels and 4 cable locks. -/
theorem pwr_lengths (inv : s.Inv) : s.pwr.ch.length = 12 ∧ s.pwr.locks.length = 4 := by
  obtain ⟨-, -, -, shape, -⟩ := inv
  simpa [PwrBlock.shape] using shape

@[simp] theorem chOf_logEv {c : EvClass} {b i k : Nat} {d : List (Nat × Nat)} : chOf (logEv c b i k d s) m = chOf s m := by
  simp only [chOf, logEv_pwr]

@[simp] theorem chOf_logThermal {k : Nat} {x : Int} {c : Nat} : chOf (logThermal n k x c s) m = chOf s m := chOf_logEv

@[simp] theorem chOf_logOpenload {k : Nat} : chOf (logOpenload n k s) m = chOf s m := chOf_logEv

@[simp] theorem chOf_postSts {r : Req} {sts : Nat} : chOf (postSts r sts s) m = chOf s m := rfl

@[simp] theorem chOf_lockWatch : chOf (lockWatch n s) m = chOf s m := by
  simp only [chOf, lockWatch_ch]

theorem chOf_setCh_ne (h : m ≠ n) : chOf (setCh n st s) m = chOf s m := chOf_lockWatch.trans (chOf_onCh_ne h)

/-- A channel that takes a state: with its output off it carries no current. -/
theorem chOf_setCh (h : n < s.pwr.ch.length) :
    chOf (setCh n st s) n = { chOf s n with state := st, cur := if st.conducts then (chOf s n).cur else 0 } :=
  chOf_lockWatch.trans (chOf_onCh_self h)

/-- What a channel does at a change of its demand or of Owl's first RUN: it stays, or takes another state. -/
theorem settleCh_eq_or : settleCh n s = s ∨ ∃ st, settleCh n s = setCh n st s := by
  unfold settleCh
  cases (chOf s n).state with
  | inrush | on | retryWait =>
    dsimp only
    split
    · exact .inl rfl
    · exact .inr ⟨.off, rfl⟩
  | off =>
    dsimp only
    split
    · exact .inr ⟨.inrush, rfl⟩
    · exact .inl rfl
  | absent | uvOff | latched | fault => exact .inl rfl

theorem chOf_settleCh_ne (h : m ≠ n) : chOf (settleCh n s) m = chOf s m := by
  obtain stays | ⟨st, takes⟩ := settleCh_eq_or (n := n) (s := s)
  · rw [stays]
  · rw [takes, chOf_setCh_ne h]

theorem chOf_unlatch_ne (h : m ≠ n) : chOf (unlatch n s) m = chOf s m := by
  unfold unlatch
  split
  · rw [chOf_onCh_ne h, chOf_setCh_ne h]
  · split
    · rw [chOf_setCh_ne h]
    · rw [chOf_settleCh_ne h, chOf_setCh_ne h]

/-! ## One channel apart from the others -/

/-- Every channel but `n` is in `s` as it was in `a`. -/
def OtherChannelsKept (n : Nat) (a s : State) : Prop := ∀ m, m ≠ n → chOf s m = chOf a m

/-- The same of what an outcome goes on to. -/
def OtherChannelsKeptO (n : Nat) (a : State) (o : Host.Outcome State Fault Refusal) : Prop :=
  ∀ t, o = .next t → OtherChannelsKept n a t

theorem otherChannelsKept_ite {a x y : State} {c : Prop} [Decidable c] (hx : OtherChannelsKept n a x)
    (hy : OtherChannelsKept n a y) : OtherChannelsKept n a (if c then x else y) := by
  split
  · exact hx
  · exact hy

theorem otherChannelsKeptO_next {a : State} (h : OtherChannelsKept n a s) : OtherChannelsKeptO n a (.next s) := by
  intro t ht
  cases ht
  exact h

theorem otherChannelsKept_execLsDemandChange : OtherChannelsKeptO n s (execLsDemandChange n s) :=
  otherChannelsKeptO_next fun _ h => chOf_settleCh_ne h

theorem otherChannelsKept_execLsOverload {x : Int} : OtherChannelsKeptO n s (execLsOverload n x s) :=
  otherChannelsKeptO_next (otherChannelsKept_ite
    (otherChannelsKept_ite (fun m h => by rw [chOf_setCh_ne h, chOf_logEv, chOf_logEv, chOf_onCh_ne h])
      fun m h => by rw [chOf_setCh_ne h, chOf_logEv, chOf_onCh_ne h])
    fun _ _ => rfl)

theorem otherChannelsKept_execLsInrushEnd {x : Int} : OtherChannelsKeptO n s (execLsInrushEnd n x s) :=
  otherChannelsKeptO_next (otherChannelsKept_ite
    (otherChannelsKept_ite (fun m h => by rw [chOf_setCh_ne h, chOf_onCh_ne h]) fun _ h => chOf_setCh_ne h)
    fun _ _ => rfl)

theorem otherChannelsKept_execLsRetryTimer : OtherChannelsKeptO n s (execLsRetryTimer n s) :=
  otherChannelsKeptO_next (otherChannelsKept_ite (fun _ h => chOf_setCh_ne h) fun _ _ => rfl)

theorem otherChannelsKept_execLsRetryReset : OtherChannelsKeptO n s (execLsRetryReset n s) :=
  otherChannelsKeptO_next (otherChannelsKept_ite (fun _ h => chOf_onCh_ne h) fun _ _ => rfl)

theorem otherChannelsKept_execLsThermalLatch {x : Int} : OtherChannelsKeptO n s (execLsThermalLatch n x s) :=
  otherChannelsKeptO_next (otherChannelsKept_ite
    (fun m h => by rw [chOf_setCh_ne h, chOf_logThermal, chOf_onCh_ne h]) fun _ _ => rfl)

theorem otherChannelsKept_execLsLatchAutoclear {x : Int} : OtherChannelsKeptO n s (execLsLatchAutoclear n x s) :=
  otherChannelsKeptO_next (otherChannelsKept_ite
    (fun m h => by rw [chOf_unlatch_ne h, chOf_logThermal, chOf_onCh_ne h]) fun _ h => chOf_onCh_ne h)

theorem otherChannelsKept_execLsOpenloadOn {x : Int} : OtherChannelsKeptO n s (execLsOpenloadOn n x s) :=
  have taken (m : Nat) (h : m ≠ n) : chOf (onCh n (fun c => { c with cur := limited n x }) s) m = chOf s m := chOf_onCh_ne h
  otherChannelsKeptO_next (otherChannelsKept_ite
    (otherChannelsKept_ite
      (otherChannelsKept_ite taken fun m h => by rw [chOf_logOpenload, chOf_onCh_ne h, taken m h])
      (otherChannelsKept_ite (fun m h => by rw [chOf_onCh_ne h, taken m h]) taken))
    fun _ _ => rfl)

theorem otherChannelsKept_execLsOpenloadDiag {mv : Nat} : OtherChannelsKeptO n s (execLsOpenloadDiag n mv s) :=
  otherChannelsKeptO_next (otherChannelsKept_ite
    (otherChannelsKept_ite
      (otherChannelsKept_ite (fun _ _ => rfl) fun m h => by rw [chOf_logOpenload, chOf_onCh_ne h])
      (otherChannelsKept_ite (fun _ h => chOf_onCh_ne h) fun _ _ => rfl))
    fun _ _ => rfl)

/-- What PWR_CLEAR does once its checks hold: the latch ends (kind 1), or the fault with its retries (R160, R179). -/
def clearCh (n kind : Nat) (s : State) : State :=
  let logged := logEv .service 0x08 n 0x0806 [(1, n), (1, kind)] s
  if kind = 1 then unlatch n (logThermal n 0 (chOf s n).temp 2 logged)
  else settleCh n (setCh n .off (onCh n (fun c => { c with retries := 0, exceeded := false }) logged))

theorem otherChannelsKept_clearCh {kind : Nat} : OtherChannelsKept n s (clearCh n kind s) :=
  otherChannelsKept_ite (fun m h => by rw [chOf_unlatch_ne h, chOf_logThermal, chOf_logEv])
    fun m h => by rw [chOf_settleCh_ne h, chOf_setCh_ne h, chOf_onCh_ne h, chOf_logEv]

theorem otherChannelsKept_execPwrClear {r : Req} {kind : Nat} : OtherChannelsKeptO n s (execPwrClear r n kind s) :=
  otherChannelsKeptO_next (otherChannelsKept_ite (x := postSts r stsOk (clearCh n kind s)) otherChannelsKept_clearCh fun _ _ => rfl)

end Channels

/-- Settles O54: each command writes its own channel, the watch of a cable lock writes no channel, and neither does the log. -/
theorem oneChannelCommandsLeaveTheOtherChannels : Obligations.OneChannelCommandsLeaveTheOtherChannels := by
  unfold Obligations.OneChannelCommandsLeaveTheOtherChannels
  intro s t n
  exact ⟨otherChannelsKept_execLsDemandChange t, fun _ => otherChannelsKept_execLsOverload t,
    fun _ => otherChannelsKept_execLsInrushEnd t, otherChannelsKept_execLsRetryTimer t,
    otherChannelsKept_execLsRetryReset t, fun _ => otherChannelsKept_execLsThermalLatch t,
    fun _ => otherChannelsKept_execLsLatchAutoclear t, fun _ => otherChannelsKept_execLsOpenloadOn t,
    fun _ => otherChannelsKept_execLsOpenloadDiag t, fun _ _ => otherChannelsKept_execPwrClear t⟩

/-! ## Demand and what it depends on (R156, R163) -/

section Demand
variable {n m : Nat} {st : ChState}

/-- The part that a law names nothing of stands in the next state as before. -/
theorem part_of_law {w : List Part} (q : Part) (f : listed w w = true → Same w s s → Same w s t)
    (hq : w.contains q = false) : samePart q s t :=
  (f (listed_self w) (same_refl w s)).part hq

/-- A view of the channels that an update keeps, of the updated channel and of the others. -/
theorem chOf_onCh_keeps {α : Type} {g : Channel → α} {f : Channel → Channel} (hf : ∀ c, g (f c) = g c) :
    g (chOf (onCh n f s) m) = g (chOf s m) := by
  have images : ((upd s.pwr.ch n f).map g).getD m (g Channel.fresh) = (s.pwr.ch.map g).getD m (g Channel.fresh) := by
    rw [map_upd_of_keeps hf]
  rwa [List.getD_map, List.getD_map] at images

/-- What the demand of channel `m` is read from. -/
def demandInputs (s : State) (m : Nat) :=
  (s.str.cur, s.owl.hold, s.owl.released, s.sys.mode, s.pwr.limpLow, s.pwr.lhIn, (chOf s m).supDemand, (chOf s m).ctlOn)

theorem demand_congr (h : demandInputs t m = demandInputs s m) : demand t m = demand s m := by
  simp only [demandInputs, Prod.mk.injEq] at h
  obtain ⟨str, hold, released, mode, low, lh, sup, ctl⟩ := h
  have exists' : chDeclared t m = chDeclared s m := by simp only [chDeclared, switchRec, contactorOutlet, str]
  have outlet : contactorOutlet t m = contactorOutlet s m := by simp only [contactorOutlet, str]
  have lock : lockOutlet t m = lockOutlet s m := by simp only [lockOutlet, switchRec, str]
  have latch : tripLatch t = tripLatch s := by simp only [tripLatch, hold]
  have active : mapActive t = mapActive s := by simp only [mapActive, mode, low]
  have entries : limpEntries t m = limpEntries s m := by simp only [limpEntries, lock, str, lh]
  unfold demand
  rw [exists', latch, outlet, released, sup, mode, lock, active, entries, ctl]

theorem demandInputs_onCh {f : Channel → Channel} (hf : ∀ c, ((f c).supDemand, (f c).ctlOn) = (c.supDemand, c.ctlOn)) :
    demandInputs (onCh n f s) m = demandInputs s m := by
  have own := chOf_onCh_keeps (s := s) (n := n) (m := m) (g := fun c => (c.supDemand, c.ctlOn)) hf
  simp only [Prod.mk.injEq] at own
  simp only [demandInputs, own.1, own.2]
  rfl

theorem demand_onCh {f : Channel → Channel} (hf : ∀ c, ((f c).supDemand, (f c).ctlOn) = (c.supDemand, c.ctlOn)) :
    demand (onCh n f s) m = demand s m := demand_congr (demandInputs_onCh hf)

@[simp] theorem demandInputs_logEv {c : EvClass} {b i k : Nat} {d : List (Nat × Nat)} :
    demandInputs (logEv c b i k d s) m = demandInputs s m := by
  simp only [demandInputs, logEv_str, logEv_owl, logEv_sys_mode, logEv_pwr, chOf_logEv]

/-- A lost cable lock writes no register of the power path but the locks'. -/
theorem lockLost_pwr {o ch code : Nat} :
    (lockLost o ch code s).pwr = { s.pwr with locks := (lockLost o ch code s).pwr.locks } := by
  have h : (lockLost o ch code s).pwr = (onLock o (fun l => { l with state := .lockLost }) s).pwr :=
    (part_of_law .pwr (same_slacCheck o) rfl).trans logEv_pwr
  rw [h]
  rfl

theorem lockWatch_pwr : (lockWatch n s).pwr = { s.pwr with locks := (lockWatch n s).pwr.locks } := by
  unfold lockWatch
  split
  · split
    · exact lockLost_pwr
    · rfl
  · rfl

@[simp] theorem demandInputs_lockWatch : demandInputs (lockWatch n s) m = demandInputs s m := by
  have str : (lockWatch n s).str = s.str := part_of_law .str (same_lockWatch n) rfl
  have owl : (lockWatch n s).owl = s.owl := part_of_law .owl (same_lockWatch n) rfl
  have mode : (lockWatch n s).sys.mode = s.sys.mode :=
    congrArg (·.2.2.2) (same_resetView (same_lockWatch n rfl (same_refl [.pwr, .vlk, .log] s)) rfl)
  simp only [demandInputs, str, owl, mode, chOf_lockWatch]
  rw [lockWatch_pwr]

@[simp] theorem demandInputs_setCh : demandInputs (setCh n st s) m = demandInputs s m :=
  demandInputs_lockWatch.trans (demandInputs_onCh fun _ => rfl)

@[simp] theorem demandInputs_settleCh : demandInputs (settleCh n s) m = demandInputs s m := by
  obtain stays | ⟨st, takes⟩ := settleCh_eq_or (n := n) (s := s)
  · rw [stays]
  · rw [takes, demandInputs_setCh]

/-! ## A channel that follows its demand (R157 rows 4, 6, 7) -/

/-- The state that follows from a demand and from Owl's having run (R417). -/
def followed (d ran : Bool) : ChState → ChState
  | .inrush => if d then .inrush else .off
  | .on => if d then .on else .off
  | .retryWait => if d then .retryWait else .off
  | .off => if d && ran then .inrush else .off
  | st => st

@[simp] theorem owl_setCh : (setCh n st s).owl = s.owl := part_of_law .owl (same_setCh n st) rfl

@[simp] theorem owl_settleCh : (settleCh n s).owl = s.owl := part_of_law .owl (same_settleCh n) rfl

theorem chOf_settleCh_state (h : n < s.pwr.ch.length) :
    (chOf (settleCh n s) n).state = followed (demand s n) s.owl.ran (chOf s n).state := by
  have takes (x : ChState) : (chOf (setCh n x s) n).state = x := by rw [chOf_setCh h]
  unfold settleCh
  cases at' : (chOf s n).state with
  | inrush | on | retryWait =>
    dsimp only [followed]
    split
    · exact at'
    · exact takes .off
  | off =>
    dsimp only [followed]
    split
    · exact takes .inrush
    · exact at'
  | absent | uvOff | latched | fault => exact at'

/-- In UV_OFF, LATCHED or FAULT a channel does not follow its demand. -/
theorem settleCh_held (h : (chOf s n).state = .uvOff ∨ (chOf s n).state = .latched ∨ (chOf s n).state = .fault) :
    settleCh n s = s := by
  unfold settleCh
  obtain h | h | h := h <;> rw [h]

@[simp] theorem ch_length_onCh {f : Channel → Channel} : (onCh n f s).pwr.ch.length = s.pwr.ch.length :=
  List.length_modify ..

@[simp] theorem ch_length_setCh : (setCh n st s).pwr.ch.length = s.pwr.ch.length := by
  unfold setCh
  rw [lockWatch_ch, ch_length_onCh]

/-- A channel sent to OFF and left to its demand there. -/
theorem settleCh_setCh_off (h : n < s.pwr.ch.length) :
    (chOf (settleCh n (setCh n .off s)) n).state = if demand s n && s.owl.ran then .inrush else .off := by
  rw [chOf_settleCh_state (by rwa [ch_length_setCh]), demand_congr demandInputs_setCh, owl_setCh, chOf_setCh h]
  rfl

/-- What a settled channel keeps beside its state. -/
theorem chOf_settleCh_keeps {α : Type} {g : Channel → α} (hg : ∀ c x i, g { c with state := x, cur := i } = g c)  :
    g (chOf (settleCh n s) m) = g (chOf s m) := by
  obtain stays | ⟨st, takes⟩ := settleCh_eq_or (n := n) (s := s)
  · rw [stays]
  · rw [takes, setCh, chOf_lockWatch]
    exact chOf_onCh_keeps fun _ => hg _ _ _

/-- Where a cleared latch takes a channel (R157 row 10). -/
def unlatched (s : State) (n : Nat) : ChState :=
  if underGroup s n then .uvOff else if (chOf s n).exceeded then .fault
  else if demand s n && s.owl.ran then .inrush else .off

theorem chOf_unlatch_state (h : n < s.pwr.ch.length) : (chOf (unlatch n s) n).state = unlatched s n := by
  unfold unlatch unlatched
  split
  · rw [chOf_onCh_self (by rwa [ch_length_setCh]), chOf_setCh h]
  · split
    · rw [chOf_setCh h]
    · exact settleCh_setCh_off h

/-- The end of a latch is decided by what the channel's temperature and the log leave. -/
theorem unlatched_congr (owl : t.owl.ran = s.owl.ran) (grp : t.pwr.grpUv = s.pwr.grpUv)
    (own : (chOf t n).exceeded = (chOf s n).exceeded) (dem : demandInputs t n = demandInputs s n) :
    unlatched t n = unlatched s n := by
  unfold unlatched underGroup
  rw [grp, own, demand_congr dem, owl]

end Demand

/-! ## The commands of a channel (R157-R160) -/

section ChannelCommands
variable {k : Nat}

theorem lsDemandChange_follows (inv : s.Inv) (hk : k < 12) :
    Answers (.lsDemandChange k) s fun t =>
      ((chOf s k).state = .off → (chOf t k).state = if demand s k && s.owl.ran then .inrush else .off)
        ∧ ((chOf s k).state.conducts = true ∨ (chOf s k).state = .retryWait →
            (chOf t k).state = if demand s k then (chOf s k).state else .off)
        ∧ ((chOf s k).state = .uvOff ∨ (chOf s k).state = .latched ∨ (chOf s k).state = .fault → t = s) := by
  have follows := chOf_settleCh_state (s := s) (n := k) ((pwr_lengths inv).1 ▸ hk)
  refine ⟨_, rfl, fun off => ?_, fun active => ?_, settleCh_held⟩
  · rw [follows, off]
    rfl
  · rw [follows]
    cases st : (chOf s k).state with
    | inrush | on | retryWait => rfl
    | absent | off | uvOff | latched | fault => simp [st, ChState.conducts] at active

theorem lsOverload_retries {x : Int} (inv : s.Inv) (hk : k < 12) (on : (chOf s k).state.conducts = true) :
    Answers (.lsOverload k x) s fun t =>
      (chOf t k).state = (if chRetries s k < (chOf s k).retries + 1 then .fault else .retryWait)
        ∧ (chOf t k).retries = min 15 ((chOf s k).retries + 1) ∧ (chOf t k).cur = 0
        ∧ (chOf t k).overloads = satInc 16 (chOf s k).overloads := by
  have len : k < s.pwr.ch.length := (pwr_lengths inv).1 ▸ hk
  refine ⟨_, congrArg Host.Outcome.next (if_pos on), ?_⟩
  dsimp only
  by_cases spent : chRetries s k < (chOf s k).retries + 1
  · rw [if_pos (decide_eq_true spent), if_pos spent, chOf_setCh (by simpa using len), chOf_logEv, chOf_logEv, chOf_onCh_self len]
    exact ⟨rfl, rfl, rfl, rfl⟩
  · rw [if_neg (by simpa using spent), if_neg spent, chOf_setCh (by simpa using len), chOf_logEv, chOf_onCh_self len]
    exact ⟨rfl, rfl, rfl, rfl⟩

theorem lsInrushEnd_decides {x : Int} (inv : s.Inv) (hk : k < 12) (inrush : (chOf s k).state = .inrush) :
    Answers (.lsInrushEnd k x) s fun t =>
      (10 * x ≤ 13 * chRated k → ((chOf t k).state = if demand s k then .on else .off)
            ∧ (demand s k = true → (chOf t k).cur = limited k x))
        ∧ (13 * chRated k < 10 * x → t = s) := by
  have len : k < s.pwr.ch.length := (pwr_lengths inv).1 ▸ hk
  refine ⟨_, rfl, fun low => ?_, fun high => if_neg fun h => absurd h.2 (by omega)⟩
  rw [if_pos ⟨inrush, low⟩]
  cases demand s k with
  | true =>
    rw [if_pos rfl, chOf_setCh (by simpa using len), chOf_onCh_self len]
    exact ⟨rfl, fun _ => rfl⟩
  | false =>
    rw [if_neg Bool.false_ne_true, chOf_setCh len]
    exact ⟨rfl, nofun⟩

theorem lsRetryTimer_ends (inv : s.Inv) (hk : k < 12) (waits : (chOf s k).state = .retryWait) :
    Answers (.lsRetryTimer k) s fun t => (chOf t k).state = if demand s k then .inrush else .off :=
  ⟨_, congrArg Host.Outcome.next (if_pos waits), congrArg Channel.state (chOf_setCh ((pwr_lengths inv).1 ▸ hk))⟩

theorem lsRetryReset_clears (inv : s.Inv) (hk : k < 12) (on : (chOf s k).state = .on) :
    Answers (.lsRetryReset k) s fun t => chOf t k = { chOf s k with retries := 0, exceeded := false } :=
  ⟨_, congrArg Host.Outcome.next (if_pos on), chOf_onCh_self ((pwr_lengths inv).1 ▸ hk)⟩

theorem lsThermalLatch_latches {x : Int} (inv : s.Inv) (hk : k < 12) (decl : chDeclared s k = true)
    (free : (chOf s k).state ≠ .latched) (hot : 1700 ≤ x) :
    Answers (.lsThermalLatch k x) s fun t =>
      chOf t k = { chOf s k with state := .latched, cur := 0, temp := satSigned 16 x,
                                 thermal := satInc 8 (chOf s k).thermal } := by
  have len : k < s.pwr.ch.length := (pwr_lengths inv).1 ▸ hk
  refine ⟨_, congrArg Host.Outcome.next (if_pos ⟨decl, free, hot⟩), ?_⟩
  dsimp only
  rw [chOf_setCh (by simpa [logThermal] using len), chOf_logThermal, chOf_onCh_self len]
  rfl

theorem lsLatchAutoclear_clears {x : Int} (inv : s.Inv) (hk : k < 12) (latched : (chOf s k).state = .latched)
    (auto : (switchRec s k).any (·.thermAutoclr) = true) :
    Answers (.lsLatchAutoclear k x) s fun t =>
      (x < 1500 → (chOf t k).state = unlatched s k)
        ∧ (1500 ≤ x → (chOf t k).state = .latched ∧ (chOf t k).temp = satSigned 16 x) := by
  have len : k < s.pwr.ch.length := (pwr_lengths inv).1 ▸ hk
  refine ⟨_, rfl, fun cool => ?_, fun warm => ?_⟩
  · dsimp only
    rw [if_pos ⟨latched, cool, auto⟩, chOf_unlatch_state (by simpa [logThermal] using len)]
    refine unlatched_congr (by simp [logThermal]) (by simp [logThermal, onCh]) ?_ ?_
    · rw [chOf_logThermal, chOf_onCh_self len]
    · exact demandInputs_logEv.trans (demandInputs_onCh fun _ => rfl)
  · dsimp only
    rw [if_neg fun h => absurd h.2.1 (by omega), chOf_onCh_self len]
    exact ⟨latched, rfl⟩

theorem lsOpenloadOn_marks {x : Int} (inv : s.Inv) (hk : k < 12) (check : openloadOn s k true = true)
    (on : (chOf s k).state = .on) :
    Answers (.lsOpenloadOn k x) s fun t =>
      (chOf t k).openOn = if x < (if k < 8 then 10 else 30) then true
        else if 2 * (if k < 8 then 10 else 30) < x then false else (chOf s k).openOn := by
  have len : k < s.pwr.ch.length := (pwr_lengths inv).1 ▸ hk
  refine ⟨_, congrArg Host.Outcome.next (if_pos ⟨check, on⟩), ?_⟩
  generalize (if k < 8 then 10 else 30 : Int) = level
  dsimp only
  split
  · cases marked : (chOf s k).openOn with
    | true => rw [if_pos rfl, chOf_onCh_self len, marked]
    | false => rw [if_neg Bool.false_ne_true, chOf_logOpenload, chOf_onCh_self (by simpa using len)]
  · split
    · rw [chOf_onCh_self (by simpa using len)]
    · rw [chOf_onCh_self len]

theorem lsOpenloadDiag_marks {mv : Nat} (inv : s.Inv) (hk : k < 12) (check : openloadOn s k false = true)
    (driven : diagDriven (chOf s k).state = true) (awake : s.sys.mode ≠ .dormant) :
    Answers (.lsOpenloadDiag k mv) s fun t =>
      (chOf t k).openOff = if 3000 < mv then true else if mv < 3000 then false else (chOf s k).openOff := by
  have len : k < s.pwr.ch.length := (pwr_lengths inv).1 ▸ hk
  refine ⟨_, congrArg Host.Outcome.next (if_pos ⟨check, driven, awake⟩), ?_⟩
  split
  · cases marked : (chOf s k).openOff with
    | true => rw [if_pos rfl, marked]
    | false => rw [if_neg Bool.false_ne_true, chOf_logOpenload, chOf_onCh_self len]
  · split
    · rw [chOf_onCh_self len]
    · rfl

/-- PWR_CLEAR of a declared channel in the state its kind clears. -/
theorem exec_pwrClear_runs {r : Req} {kind : Nat} (hk : k < 12) (decl : chDeclared s k = true) (kinds : inRange 1 2 kind = true)
    (clears : (if kind = 1 then (chOf s k).state != .latched || decide (1500 ≤ (chOf s k).temp)
      else (chOf s k).state != .fault) = false) :
    exec (.pwrClear r k kind) s = .next (postSts r stsOk (clearCh k kind s)) := by
  refine congrArg Host.Outcome.next (guarded_ok ?_)
  rw [firstFail_cons_false (by simp [decl]), firstFail_cons_false (by simp [kinds, Nat.not_lt.mpr (Nat.le_of_lt_succ hk)]),
    firstFail_cons_false clears]
  rfl

theorem pwrClear_latch {r : Req} (inv : s.Inv) (hk : k < 12) (decl : chDeclared s k = true)
    (latched : (chOf s k).state = .latched) (cool : (chOf s k).temp < 1500) :
    Answers (.pwrClear r k 1) s fun t => Posted t r stsOk [] ∧ (chOf t k).state = unlatched s k := by
  have len : k < s.pwr.ch.length := (pwr_lengths inv).1 ▸ hk
  refine ⟨_, exec_pwrClear_runs hk decl rfl (by simp [latched, Int.not_le.mpr cool]), posted_postSts, ?_⟩
  rw [chOf_postSts, clearCh, if_pos rfl, chOf_unlatch_state (by simpa [logThermal] using len)]
  exact unlatched_congr (by simp [logThermal]) (by simp [logThermal]) (by simp) (by simp [logThermal])

theorem pwrClear_fault {r : Req} (inv : s.Inv) (hk : k < 12) (decl : chDeclared s k = true)
    (fault : (chOf s k).state = .fault) :
    Answers (.pwrClear r k 2) s fun t => Posted t r stsOk [] ∧ (chOf t k).retries = 0 ∧ (chOf t k).exceeded = false
      ∧ (chOf t k).state = if demand s k && s.owl.ran then .inrush else .off := by
  have len : k < s.pwr.ch.length := (pwr_lengths inv).1 ▸ hk
  have cleared : ((chOf (clearCh k 2 s) k).retries, (chOf (clearCh k 2 s) k).exceeded) = (0, false) := by
    rw [clearCh, if_neg (by decide)]
    refine (chOf_settleCh_keeps (g := fun c => (c.retries, c.exceeded)) fun _ _ _ => rfl).trans ?_
    rw [chOf_setCh (by simpa using len), chOf_onCh_self (by simpa using len)]
  obtain ⟨retries, exceeded⟩ := Prod.mk.inj cleared
  refine ⟨_, exec_pwrClear_runs hk decl rfl (by simp [fault]), posted_postSts, ?_⟩
  rw [chOf_postSts]
  refine ⟨retries, exceeded, ?_⟩
  rw [clearCh, if_neg (by decide), settleCh_setCh_off (by simpa using len),
    demand_onCh, demand_congr demandInputs_logEv, onCh_owl, logEv_owl]
  exact fun _ => rfl

end ChannelCommands

/-- Settles O14: a channel takes one state at a time, and what follows it reads the demand, which no change of a channel's state
and no logged event writes. -/
theorem loadSwitchCommandsEffect : Obligations.LoadSwitchCommandsEffect := by
  unfold Obligations.LoadSwitchCommandsEffect
  exact ⟨fun s k => lsDemandChange_follows, fun s k x => lsOverload_retries, fun s k x => lsInrushEnd_decides,
    fun s k => lsRetryTimer_ends, fun s k => lsRetryReset_clears, fun s k x => lsThermalLatch_latches,
    fun s k x => lsLatchAutoclear_clears, fun s k x => lsOpenloadOn_marks, fun s k mv => lsOpenloadDiag_marks,
    fun s r k => pwrClear_latch, fun s r k => pwrClear_fault⟩

/-! ## Loops over instances -/

/-- A loop reaches `Q` where the round of one of its members makes `Q` and no round ends it, under what every round keeps. -/
theorem foldl_reaches {α : Type} {f : State → α → State} {l : List α} {x : α} {I Q : State → Prop} (mem : x ∈ l) (start : I s)
    (keep : ∀ s y, y ∈ l → I s → I (f s y)) (hit : ∀ s, I s → Q (f s x)) (stay : ∀ s y, y ∈ l → I s → Q s → Q (f s y)) :
    Q (l.foldl f s) := by
  have stays (l' : List α) (sub : ∀ y ∈ l', y ∈ l) (s : State) (i : I s) (q : Q s) : Q (l'.foldl f s) := by
    induction l' generalizing s with
    | nil => exact q
    | cons y l' ih =>
      have mem : y ∈ l := sub y List.mem_cons_self
      exact ih (fun z hz => sub z (List.mem_cons_of_mem y hz)) _ (keep s y mem i) (stay s y mem i q)
  obtain ⟨l₁, l₂, rfl⟩ := List.append_of_mem mem
  rw [List.foldl_append, List.foldl_cons]
  have before (l' : List α) (sub : ∀ y ∈ l', y ∈ l₁ ++ x :: l₂) (s : State) (i : I s) : I (l'.foldl f s) := by
    induction l' generalizing s with
    | nil => exact i
    | cons y l' ih => exact ih (fun z hz => sub z (List.mem_cons_of_mem y hz)) _ (keep s y (sub y List.mem_cons_self) i)
  have at' : I (l₁.foldl f s) := before l₁ (fun y hy => List.mem_append_left _ hy) s start
  exact stays l₂ (fun y hy => List.mem_append_right _ (List.mem_cons_of_mem x hy)) _ (keep _ x mem at') (hit _ at')

/-! ## The onset of an undervoltage (R157 row 2, R161) -/

section Undervoltage
variable {a : State} {n m : Nat} {st : ChState}

/-- Between `a` and `s` no channel left UV_OFF and none was latched, under the same structure and supply groups. -/
structure UvKept (a s : State) : Prop where
  str : s.str = a.str
  grp : s.pwr.grpUv = a.pwr.grpUv
  len : s.pwr.ch.length = a.pwr.ch.length
  uv : ∀ m, (chOf a m).state = .uvOff → (chOf s m).state = .uvOff
  latched : ∀ m, (chOf s m).state = .latched → (chOf a m).state = .latched

theorem uvKept_refl : UvKept s s := ⟨rfl, rfl, rfl, fun _ h => h, fun _ h => h⟩

theorem UvKept.trans (h : UvKept a s) (h' : UvKept s t) : UvKept a t :=
  ⟨h'.str.trans h.str, h'.grp.trans h.grp, h'.len.trans h.len, fun m x => h'.uv m (h.uv m x),
    fun m x => h.latched m (h'.latched m x)⟩

theorem uvKept_ite {c : Prop} [Decidable c] {x y : State} (hx : UvKept a x) (hy : UvKept a y) :
    UvKept a (if c then x else y) := by
  split
  · exact hx
  · exact hy

theorem uvKept_foldl {α : Type} {f : State → α → State} {l : List α} (hf : ∀ s x, UvKept s (f s x)) :
    UvKept s (l.foldl f s) := by
  induction l generalizing s with
  | nil => exact uvKept_refl
  | cons x l ih => exact (hf s x).trans ih

/-- An operation that leaves structure and channels. -/
theorem uvKept_of_eq (str : t.str = s.str) (pwr : t.pwr = s.pwr) : UvKept s t := by
  refine ⟨str, by rw [pwr], by rw [pwr], fun m h => ?_, fun m h => ?_⟩
  · rwa [chOf, pwr]
  · rwa [chOf, pwr] at h

/-- A relation of channels that an update of one keeps holds of every channel. -/
theorem chOf_onCh_rel {R : Channel → Channel → Prop} {f : Channel → Channel} (refl : ∀ c, R c c)
    (hf : R (chOf s n) (f (chOf s n))) : R (chOf s m) (chOf (onCh n f s) m) := by
  by_cases hm : m = n
  · subst hm
    by_cases hl : m < s.pwr.ch.length
    · rwa [chOf_onCh_self hl]
    · have same : chOf (onCh m f s) m = chOf s m := by simp [chOf, onCh, upd, List.getD_eq_getElem?_getD, hl]
      rw [same]
      exact refl _
  · rw [chOf_onCh_ne hm]
    exact refl _

/-- An update that takes its channel neither out of UV_OFF nor into a latch. -/
theorem uvKept_onCh {f : Channel → Channel} (uv : (chOf s n).state = .uvOff → (f (chOf s n)).state = .uvOff)
    (latched : (f (chOf s n)).state = .latched → (chOf s n).state = .latched) : UvKept s (onCh n f s) :=
  ⟨rfl, rfl, ch_length_onCh,
    fun _ => chOf_onCh_rel (R := fun c c' => c.state = .uvOff → c'.state = .uvOff) (fun _ h => h) uv,
    fun _ => chOf_onCh_rel (R := fun c c' => c'.state = .latched → c.state = .latched) (fun _ h => h) latched⟩

theorem uvKept_lockWatch : UvKept s (lockWatch n s) := by
  have str : (lockWatch n s).str = s.str := part_of_law .str (same_lockWatch n) rfl
  refine ⟨str, by rw [lockWatch_pwr], by rw [lockWatch_ch], fun m h => ?_, fun m h => ?_⟩
  · rwa [chOf_lockWatch]
  · rwa [chOf_lockWatch] at h

theorem uvKept_setCh (uv : (chOf s n).state = .uvOff → st = .uvOff) (latched : st ≠ .latched) : UvKept s (setCh n st s) :=
  (uvKept_onCh uv fun h => absurd h latched).trans uvKept_lockWatch

theorem uvKept_settleCh : UvKept s (settleCh n s) := by
  unfold settleCh
  cases at' : (chOf s n).state with
  | inrush | on | retryWait => exact uvKept_ite uvKept_refl (uvKept_setCh (by simp [at']) (by decide))
  | off => exact uvKept_ite (uvKept_setCh (by simp [at']) (by decide)) uvKept_refl
  | absent | uvOff | latched | fault => exact uvKept_refl

theorem uvKept_onOwl {f : OwlBlock → OwlBlock} : UvKept s (onOwl f s) := uvKept_of_eq rfl rfl
theorem uvKept_onLink {o : Nat} {f : Link → Link} : UvKept s (onLink o f s) := uvKept_of_eq rfl rfl

theorem uvKept_contactorDemand {o : Nat} {on : Bool} : UvKept s (contactorDemand o on s) :=
  (uvKept_foldl fun _ _ => uvKept_onCh (fun h => h) fun h => h).trans (uvKept_foldl fun _ _ => uvKept_settleCh)

theorem uvKept_pauseSession {o : Nat} : UvKept s (pauseSession o s) := by
  have released : UvKept s (dropRelease o s) := uvKept_onOwl.trans (uvKept_onLink.trans uvKept_contactorDemand)
  exact uvKept_ite (released.trans uvKept_onLink) uvKept_refl

theorem uvKept_supplyPause {o : Nat} : UvKept s (supplyPause o s) :=
  uvKept_contactorDemand.trans (uvKept_ite (uvKept_onLink.trans uvKept_pauseSession) uvKept_refl)

/-- A channel at the onset, before the pause of its outlet. -/
def enterUv (n : Nat) (s : State) : State :=
  setCh n .uvOff (onCh n (fun c => { c with uvCount := satInc 8 c.uvCount }) s)

/-- The channel of a group in undervoltage enters UV_OFF, and its outlet pauses. -/
theorem channelUv_enters (decl : chDeclared s n = true) (free : (chOf s n).state ≠ .latched) (on : (chOf s n).state ≠ .uvOff) :
    UvKept (enterUv n s) (channelUv s n) := by
  unfold channelUv
  rw [if_pos ⟨decl, free, on⟩]
  dsimp only
  split
  · exact uvKept_supplyPause
  · exact uvKept_refl

theorem uvKept_channelUv : UvKept s (channelUv s n) := by
  by_cases h : chDeclared s n = true ∧ (chOf s n).state ≠ .latched ∧ (chOf s n).state ≠ .uvOff
  · obtain ⟨decl, free, on⟩ := h
    have counted : UvKept s (onCh n (fun c => { c with uvCount := satInc 8 c.uvCount }) s) := uvKept_onCh (fun h => h) fun h => h
    have enters : UvKept s (enterUv n s) := counted.trans (uvKept_setCh (fun _ => rfl) (by decide))
    exact enters.trans (channelUv_enters decl free on)
  · unfold channelUv
    rw [if_neg h]
    exact uvKept_refl

theorem channelUv_state (hn : n < s.pwr.ch.length) (decl : chDeclared s n = true) (free : (chOf s n).state ≠ .latched) :
    (chOf (channelUv s n) n).state = .uvOff := by
  by_cases on : (chOf s n).state = .uvOff
  · exact uvKept_channelUv.uv n on
  · refine (channelUv_enters decl free on).uv n ?_
    rw [enterUv, chOf_setCh (by simpa using hn)]

/-- The group's mark with its measured voltage, logged (R157 row 2). -/
def groupLogged (g mv : Nat) (under : Bool) (s : State) : State :=
  logEv .power 0x08 0xFF 0x0804 [(1, g), (1, if under then 0 else 1), (2, mv)]
    (onPwr (fun b => { b with grpUv := put b.grpUv g under }) (onPwr (fun b => { b with grpMv := put b.grpMv g mv }) s))

@[simp] theorem chOf_groupLogged {g mv : Nat} {under : Bool} : chOf (groupLogged g mv under s) m = chOf s m := chOf_logEv

theorem groupLogged_grpUv {g mv : Nat} {under : Bool} : (groupLogged g mv under s).pwr.grpUv = put s.pwr.grpUv g under := by
  rw [groupLogged, logEv_pwr]
  rfl

theorem groupLogged_ch {g mv : Nat} {under : Bool} : (groupLogged g mv under s).pwr.ch = s.pwr.ch := by
  rw [groupLogged, logEv_pwr]
  rfl

theorem groupLogged_str {g mv : Nat} {under : Bool} : (groupLogged g mv under s).str = s.str := logEv_str

theorem mem_groupChannels {g k : Nat} (h : k / 4 = g) : k ∈ groupChannels g := by
  have cases : k = 4 * g ∨ k = 4 * g + 1 ∨ k = 4 * g + 2 ∨ k = 4 * g + 3 := by omega
  simpa [groupChannels] using cases

theorem chDeclared_congr (str : t.str = s.str) : chDeclared t m = chDeclared s m := by
  simp only [chDeclared, switchRec, contactorOutlet, str]

theorem lsUndervoltage_turnsOff {g mv : Nat} (inv : s.Inv) (hg : g < 3) (len : g < s.pwr.grpUv.length)
    (fine : flag s.pwr.grpUv g = false) (low : mv < 8000) :
    Answers (.lsUndervoltage g mv) s fun t => flag t.pwr.grpUv g = true ∧
      ∀ k, k < 12 → k / 4 = g → chDeclared s k = true → (chOf s k).state ≠ .latched → (chOf t k).state = .uvOff := by
  refine ⟨(groupChannels g).foldl channelUv (groupLogged g mv true s), congrArg Host.Outcome.next (if_pos ⟨hg, fine, low⟩), ?_, ?_⟩
  · rw [(uvKept_foldl fun _ _ => uvKept_channelUv).grp, groupLogged_grpUv]
    exact put_getD_self len
  · intro k hk group decl free
    refine foldl_reaches (I := UvKept (groupLogged g mv true s)) (Q := fun t => (chOf t k).state = .uvOff)
      (mem_groupChannels group) uvKept_refl (fun _ _ _ i => i.trans uvKept_channelUv) (fun t i => ?_)
      fun _ _ _ _ q => uvKept_channelUv.uv k q
    refine channelUv_state ?_ ?_ fun latched => free ?_
    · rw [i.len, groupLogged_ch, (pwr_lengths inv).1]
      exact hk
    · rw [chDeclared_congr (i.str.trans groupLogged_str), decl]
    · have before := i.latched k latched
      rwa [chOf_groupLogged] at before

/-! ## The recovery of a supply group (R157 row 9, R161) -/

theorem chOf_channelRecover_ne (h : m ≠ n) : chOf (channelRecover s n) m = chOf s m := by
  unfold channelRecover
  split
  · exact chOf_setCh_ne h
  · rfl

theorem channelRecover_state (h : n < s.pwr.ch.length) : (chOf (channelRecover s n) n).state ≠ .uvOff := by
  unfold channelRecover
  split
  · rw [chOf_setCh h]
    dsimp only
    split <;> decide
  · assumption

theorem channelRecover_length : (channelRecover s n).pwr.ch.length = s.pwr.ch.length := by
  unfold channelRecover
  split
  · exact ch_length_setCh
  · rfl

theorem channelRecover_grpUv : (channelRecover s n).pwr.grpUv = s.pwr.grpUv := by
  unfold channelRecover
  split
  · rw [setCh, lockWatch_pwr]
    rfl
  · rfl

theorem tryResume_pwr {o : Nat} : (tryResume o s).pwr = s.pwr := part_of_law .pwr (same_tryResume o) rfl

theorem flag_put_self_false {l : List Bool} : flag (put l n false) n = false := by
  by_cases h : n < l.length
  · exact put_getD_self h
  · simp [flag, put, List.getD_eq_getElem?_getD, h]

theorem lsUvRecover_ends {g mv : Nat} (inv : s.Inv) (under : flag s.pwr.grpUv g = true) (high : 8500 ≤ mv) :
    Answers (.lsUvRecover g mv) s fun t => flag t.pwr.grpUv g = false ∧
      ∀ k, k < 12 → k / 4 = g → (chOf t k).state ≠ .uvOff := by
  refine ⟨(outletList ((groupChannels g).foldl channelRecover (groupLogged g mv false s))).foldl (fun s o => tryResume o s)
    ((groupChannels g).foldl channelRecover (groupLogged g mv false s)), congrArg Host.Outcome.next (if_pos ⟨under, high⟩), ?_⟩
  simp only [chOf, foldl_keeps (g := State.pwr) fun _ _ => tryResume_pwr]
  constructor
  · rw [foldl_keeps (g := fun s => s.pwr.grpUv) fun _ _ => channelRecover_grpUv, groupLogged_grpUv]
    exact flag_put_self_false
  · intro k hk group
    refine foldl_reaches (I := fun t => k < t.pwr.ch.length) (Q := fun t => (chOf t k).state ≠ .uvOff)
      (mem_groupChannels group) ?_ (fun _ _ _ i => ?_) (fun _ => channelRecover_state) fun t y _ i q => ?_
    · rw [groupLogged_ch, (pwr_lengths inv).1]
      exact hk
    · rwa [channelRecover_length]
    · by_cases own : k = y
      · exact own ▸ channelRecover_state i
      · rwa [chOf_channelRecover_ne own]

/-! ## The limp-home inputs (R163) -/

/-- Channel `n` follows its demand: it conducts on demand alone, and is OFF without demand or before Owl's first RUN. -/
def Settled (n : Nat) (s : State) : Prop :=
  ((chOf s n).state.conducts = true → demand s n = true)
    ∧ ((chOf s n).state = .off → demand s n = false ∨ s.owl.ran = false)

theorem followed_settled {d ran : Bool} : ((followed d ran st).conducts = true → d = true)
    ∧ (followed d ran st = .off → d = false ∨ ran = false) := by
  cases d <;> cases ran <;> cases st <;> decide

theorem settled_settleCh (h : n < s.pwr.ch.length) : Settled n (settleCh n s) := by
  unfold Settled
  rw [demand_congr demandInputs_settleCh, owl_settleCh, chOf_settleCh_state h]
  exact followed_settled

theorem settleCh_ch_length : (settleCh n s).pwr.ch.length = s.pwr.ch.length := uvKept_settleCh.len

theorem settled_settleCh_of (h : n < s.pwr.ch.length) (q : Settled m s) : Settled m (settleCh n s) := by
  by_cases own : m = n
  · subst own
    exact settled_settleCh h
  · unfold Settled
    rw [demand_congr demandInputs_settleCh, owl_settleCh, chOf_settleCh_ne own]
    exact q

theorem settled_settleAll (len : s.pwr.ch.length = 12) (h : n < 12) : Settled n (settleAll s) :=
  foldl_reaches (I := fun t => t.pwr.ch.length = 12) (List.mem_range.mpr h) len
    (fun _ _ _ i => settleCh_ch_length.trans i) (fun _ i => settled_settleCh (i ▸ h))
    fun _ _ mem i => settled_settleCh_of (i ▸ List.mem_range.mp mem)

/-- What the demand of any channel is read from stands in every round. -/
theorem demandInputs_settleAll : demandInputs (settleAll s) m = demandInputs s m :=
  foldl_keeps (g := fun s => demandInputs s m) fun _ _ => demandInputs_settleCh

theorem limpInputs_settleAll : (settleAll s).pwr.limpLow = s.pwr.limpLow ∧ (settleAll s).pwr.lhIn = s.pwr.lhIn := by
  have inputs := demandInputs_settleAll (s := s) (m := 0)
  simp only [demandInputs, Prod.mk.injEq] at inputs
  obtain ⟨-, -, -, -, low, lh, -⟩ := inputs
  exact ⟨low, lh⟩

theorem limpInputChange_settles {low : Bool} {lh : Nat} (inv : s.Inv) :
    Answers (.limpInputChange low lh) s fun t => t.pwr.limpLow = low ∧ t.pwr.lhIn = lh % 16 ∧ ∀ k, k < 12 → Settled k t := by
  obtain ⟨taken, inputs⟩ := limpInputs_settleAll (s := onPwr (fun b => { b with limpLow := low, lhIn := lh % 16 }) s)
  exact ⟨_, rfl, taken, inputs, fun k hk => settled_settleAll (pwr_lengths inv).1 hk⟩

end Undervoltage

/-- Settles O15: no round over a supply group takes a channel out of UV_OFF or latches one, none at its recovery takes one in, and
every channel is settled at its own round by a demand that no other round writes. -/
theorem supplyGroupAndLimpInputEffect : Obligations.SupplyGroupAndLimpInputEffect := by
  unfold Obligations.SupplyGroupAndLimpInputEffect
  exact ⟨fun s g mv => lsUndervoltage_turnsOff, fun s g mv inv _ => lsUvRecover_ends inv, fun s low lh => limpInputChange_settles⟩

/-! ## Trips (R168, R195) -/

section Trips
variable {a : State} {c o n f mask : Nat}

theorem bitAt_lor {x y : Nat} : bitAt (Nat.lor x y) c = (bitAt x c || bitAt y c) := by
  simp only [bitAt_eq_testBit]
  exact Nat.testBit_or x y c

theorem bitAt_two_pow : bitAt (2 ^ c) c = true := by
  rw [bitAt_eq_testBit]
  exact Nat.testBit_two_pow_self

/-- A relation that an update of one instance keeps holds of every instance. -/
theorem upd_getD_rel {α : Type} {R : α → α → Prop} {l : List α} {n m : Nat} {f : α → α} {d : α} (refl : ∀ x, R x x)
    (hf : ∀ x, R x (f x)) : R (l.getD m d) ((upd l n f).getD m d) := by
  by_cases hm : m = n
  · subst hm
    by_cases hl : m < l.length
    · rw [upd_getD_self hl]
      exact hf _
    · have same : (upd l m f).getD m d = l.getD m d := by simp [upd, List.getD_eq_getElem?_getD, hl]
      rw [same]
      exact refl _
  · rw [upd_getD_ne hm]
    exact refl _

/-- Between `a` and `s` no cause was cleared. -/
structure CausesKept (a s : State) : Prop where
  len : s.owl.causes.length = a.owl.causes.length
  bits : ∀ o c, bitAt (at0 a.owl.causes o) c = true → bitAt (at0 s.owl.causes o) c = true

theorem causesKept_refl : CausesKept s s := ⟨rfl, fun _ _ h => h⟩

theorem CausesKept.trans (h : CausesKept a s) (h' : CausesKept s t) : CausesKept a t :=
  ⟨h'.len.trans h.len, fun o c x => h'.bits o c (h.bits o c x)⟩

theorem causesKept_of_eq (h : t.owl.causes = s.owl.causes) : CausesKept s t := ⟨by rw [h], fun o c x => by rwa [h]⟩

theorem causesKept_onFlt {f : FltBlock → FltBlock} : CausesKept s (onFlt f s) := ⟨rfl, fun _ _ h => h⟩

theorem causesKept_foldl {α : Type} {f : State → α → State} {l : List α} (hf : ∀ s x, CausesKept s (f s x)) :
    CausesKept s (l.foldl f s) := by
  induction l generalizing s with
  | nil => exact causesKept_refl
  | cons x l ih => exact (hf s x).trans ih

/-- One outlet of a trip in state `a`: with an output that the mask names, its cause is set and holds those latch bits. -/
def latchOutlet (c mask : Nat) (a s : State) (o : Nat) : State :=
  if declared s o && Nat.land mask (outputsOf a o) != 0 then
    onOwl (fun b => { b with
      causes := upd b.causes o (fun x => Nat.lor x (2 ^ c)),
      hold := upd b.hold o (fun l => upd l c (fun x => Nat.lor x (Nat.land mask (outputsOf a o)))),
      lastTrue := putAt b.lastTrue o c (some s.ticks), cfgDirty := true }) s
  else s

/-- The causes of every outlet latched: the state before the proof record and the channels follow. -/
def latchOutlets (c mask : Nat) (s : State) : State := (List.range 4).foldl (latchOutlet c mask s) s

theorem latchOutlet_str : (latchOutlet c mask a s o).str = s.str := by
  unfold latchOutlet
  split <;> rfl

theorem causesKept_latchOutlet : CausesKept s (latchOutlet c mask a s o) := by
  unfold latchOutlet
  split
  · refine ⟨List.length_modify .., fun o' c' => ?_⟩
    refine upd_getD_rel (R := fun x y => bitAt x c' = true → bitAt y c' = true) (fun _ h => h) fun x h => ?_
    rw [bitAt_lor, h, Bool.true_or]
  · exact causesKept_refl

theorem latchOutlet_sets (ho : o < s.owl.causes.length) (decl : declared s o = true) (hit : Nat.land mask (outputsOf a o) ≠ 0) :
    bitAt (at0 (latchOutlet c mask a s o).owl.causes o) c = true := by
  unfold latchOutlet
  rw [if_pos (by rw [decl, Bool.true_and]; exact bne_iff_ne.mpr hit), onOwl_owl, at0, upd_getD_self ho, bitAt_lor, bitAt_two_pow,
    Bool.or_true]

theorem declared_congr (str : t.str = s.str) : declared t o = declared s o := by simp only [declared, outletRec, str]

theorem outputsOf_congr (str : t.str = s.str) : outputsOf t o = outputsOf s o := by simp only [outputsOf, str]

theorem owl_settleAll : (settleAll s).owl = s.owl := foldl_keeps (g := State.owl) fun _ _ => owl_settleCh

theorem causes_latchTrip : (latchTrip c mask s).owl.causes = (latchOutlets c mask s).owl.causes := by
  unfold latchTrip
  rw [owl_settleAll]
  rfl

theorem causesKept_latchTrip : CausesKept s (latchTrip c mask s) :=
  CausesKept.trans (causesKept_foldl fun _ _ => causesKept_latchOutlet) (causesKept_of_eq causes_latchTrip)

theorem latchTrip_sets (ho : o < 4) (len : o < s.owl.causes.length) (decl : declared s o = true)
    (hit : Nat.land mask (outputsOf s o) ≠ 0) : bitAt (at0 (latchTrip c mask s).owl.causes o) c = true := by
  rw [causes_latchTrip]
  exact foldl_reaches (I := fun t => t.str = s.str ∧ t.owl.causes.length = s.owl.causes.length)
    (Q := fun t => bitAt (at0 t.owl.causes o) c = true) (List.mem_range.mpr ho) ⟨rfl, rfl⟩
    (fun t _ _ i => ⟨latchOutlet_str.trans i.1, causesKept_latchOutlet.len.trans i.2⟩)
    (fun t i => latchOutlet_sets (i.2 ▸ len) ((declared_congr i.1).trans decl) hit)
    fun t _ _ _ q => causesKept_latchOutlet.bits o c q

@[simp] theorem flt_latchTrip : (latchTrip c mask s).flt = s.flt := part_of_law .flt (same_latchTrip c mask) rfl

@[simp] theorem str_recordSrc {k i l : Nat} : (recordSrc k i l s).str = s.str := part_of_law .str (same_recordSrc k i l) rfl
@[simp] theorem owl_recordSrc {k i l : Nat} : (recordSrc k i l s).owl = s.owl := part_of_law .owl (same_recordSrc k i l) rfl

/-- The source register takes no other field of FLT. -/
theorem flt_recordSrc {k i l : Nat} : (recordSrc k i l s).flt = { s.flt with src := (recordSrc k i l s).flt.src } := by
  unfold recordSrc
  split <;> rfl

/-! ## A word against a level (R165-R169) -/

variable {l l' : Level} {k : Nat} {word : Int} {onset own : Bool}

theorem levelRelations_congr (str : t.str = s.str) : levelRelations t l = levelRelations s l := by
  simp only [levelRelations, str]

theorem levelCode_congr (str : t.str = s.str) : levelCode t l = levelCode s l := by
  simp only [levelCode, laneScale, laneRec, outletRec, str]

/-- Two levels that share a relation are one source's, with one threshold and one delay. -/
theorem level_of_relation {i : Nat} (h : i ∈ levelRelations s l) (h' : i ∈ levelRelations s l') :
    l'.fast = l.fast ∧ levelCode s l' = levelCode s l := by
  have matched {l : Level} (h : i ∈ levelRelations s l) :
      ∃ p, s.str.cur.trips[i]? = some p ∧ p.kind = l.kind ∧ p.inst = l.inst ∧ p.threshold = l.threshold ∧ p.delay = l.delay := by
    obtain ⟨⟨p, j⟩, mem, rfl⟩ := List.mem_map.mp h
    obtain ⟨at', same⟩ := List.mem_filter.mp mem
    simp only [Bool.and_eq_true, beq_iff_eq, and_assoc] at same
    exact ⟨p, List.mem_zipIdx_iff_getElem?.mp at', same⟩
  obtain ⟨p, at', kind, inst, threshold, delay⟩ := matched h
  obtain ⟨q, at'', kind', inst', threshold', delay'⟩ := matched h'
  obtain rfl : p = q := Option.some.inj (at'.symm.trans at'')
  constructor
  · rw [Level.fast, Level.fast, ← delay, ← delay']
  · simp only [levelCode, ← kind, ← inst, ← threshold, ← kind', ← inst', ← threshold']

theorem causesKept_levelTrue : CausesKept s (levelTrue l k word onset s) := by
  unfold levelTrue
  have recorded : CausesKept s (recordSrc l.kind l.inst k s) := causesKept_of_eq (by rw [owl_recordSrc])
  have latched := recorded.trans (causesKept_latchTrip (c := kindCause l.kind) (mask := l.mask))
  split
  · dsimp only
    split
    · exact latched.trans (causesKept_of_eq (by rw [logEv_owl]))
    · exact latched
  · exact causesKept_of_eq rfl

theorem causesKept_levelFalse : CausesKept s (levelFalse l own s) := by
  unfold levelFalse
  split
  · exact causesKept_onFlt
  · exact causesKept_refl

theorem levelTrue_fast_sets (fast : l.fast = true) (ho : o < 4) (len : o < s.owl.causes.length) (decl : declared s o = true)
    (hit : Nat.land l.mask (outputsOf s o) ≠ 0) :
    bitAt (at0 (levelTrue l k word onset s).owl.causes o) (kindCause l.kind) = true := by
  have sets : bitAt (at0 (latchTrip (kindCause l.kind) l.mask (recordSrc l.kind l.inst k s)).owl.causes o) (kindCause l.kind)
      = true := by
    refine latchTrip_sets ho (by rwa [owl_recordSrc]) ((declared_congr str_recordSrc).trans decl) ?_
    rwa [outputsOf_congr str_recordSrc]
  unfold levelTrue
  rw [if_pos fast]
  dsimp only
  split
  · rwa [logEv_owl]
  · exact sets

theorem supTrue_levelTrue : (levelTrue l k word onset s).flt.supTrue = if l.fast then s.flt.supTrue
    else s.flt.supTrue ++ (levelRelations s l).filter fun i => !s.flt.supTrue.contains i := by
  have recorded : (recordSrc l.kind l.inst k s).flt.supTrue = s.flt.supTrue := by rw [flt_recordSrc]
  unfold levelTrue
  split
  · dsimp only
    split
    · rw [logEv_flt, flt_latchTrip, recorded]
    · rw [flt_latchTrip, recorded]
  · rfl

theorem supTrue_levelFalse : (levelFalse l own s).flt.supTrue =
    if own && !l.fast then s.flt.supTrue.filter fun i => !(levelRelations s l).contains i else s.flt.supTrue := by
  unfold levelFalse
  split <;> rfl

theorem str_tapLevel : (tapLevel n f s l k).str = s.str := part_of_law .str (same_tapLevel n f l k) rfl
theorem lane_tapLevel : (tapLevel n f s l k).lane = s.lane := part_of_law .lane (same_tapLevel n f l k) rfl

theorem causesKept_tapLevel : CausesKept s (tapLevel n f s l k) := by
  unfold tapLevel
  dsimp only
  split
  · exact causesKept_onFlt.trans causesKept_levelTrue
  · exact causesKept_onFlt.trans causesKept_levelFalse

theorem tapLevel_fast_sets (fast : l.fast = true) (above : levelCode s l ≤ (laneOf s n).tap.natAbs) (ho : o < 4)
    (len : o < s.owl.causes.length) (decl : declared s o = true) (hit : Nat.land l.mask (outputsOf s o) ≠ 0) :
    bitAt (at0 (tapLevel n f s l k).owl.causes o) (kindCause l.kind) = true := by
  unfold tapLevel
  dsimp only
  rw [if_pos above]
  exact levelTrue_fast_sets fast ho len decl hit

/-- What a word of lane `n` does to the true relations, level by level. -/
theorem supTrue_tapLevel : (tapLevel n f s l k).flt.supTrue =
    if levelCode s l ≤ (laneOf s n).tap.natAbs then
      (if l.fast then s.flt.supTrue
        else s.flt.supTrue ++ (levelRelations s l).filter fun i => !s.flt.supTrue.contains i)
    else if n == carrier s f && !l.fast then s.flt.supTrue.filter fun i => !(levelRelations s l).contains i
    else s.flt.supTrue := by
  unfold tapLevel
  dsimp only
  split
  · exact supTrue_levelTrue
  · exact supTrue_levelFalse

/-! ## A word against the levels of its function -/

variable {sel : Level → Nat → Bool} {r : LaneRec}

/-- The levels of a measuring lane's function that `sel` picks, in order. -/
def pickedLevels (sel : Level → Nat → Bool) (s : State) (f : Nat) : List (Level × Nat) :=
  (laneLevels s f).zipIdx.filter fun x => sel x.1 x.2

theorem compareTap_measure (func : tapFunction s n = some f) (rec : laneRec s f = some r) (role : r.role = 1) (qty : r.qty ≠ 3) :
    compareTap sel n s = (pickedLevels sel s f).foldl (fun s x => tapLevel n f s x.1 x.2) s := by
  unfold compareTap
  simp only [func, rec, role, ne_eq, not_true_eq_false, if_false, qty]
  rfl

theorem mem_pickedLevels (mem : (laneLevels s f)[k]? = some l) (picked : sel l k = true) : (l, k) ∈ pickedLevels sel s f :=
  List.mem_filter.mpr ⟨List.mem_zipIdx_iff_getElem?.mpr mem, picked⟩

theorem compareTap_fast_sets (func : tapFunction s n = some f) (rec : laneRec s f = some r) (role : r.role = 1) (qty : r.qty ≠ 3)
    (mem : (laneLevels s f)[k]? = some l) (picked : sel l k = true) (fast : l.fast = true)
    (above : levelCode s l ≤ (laneOf s n).tap.natAbs) (ho : o < 4) (len : o < s.owl.causes.length) (decl : declared s o = true)
    (hit : Nat.land l.mask (outputsOf s o) ≠ 0) :
    bitAt (at0 (compareTap sel n s).owl.causes o) (kindCause l.kind) = true := by
  rw [compareTap_measure func rec role qty]
  refine foldl_reaches (I := fun t => t.str = s.str ∧ t.lane = s.lane ∧ t.owl.causes.length = s.owl.causes.length)
    (Q := fun t => bitAt (at0 t.owl.causes o) (kindCause l.kind) = true) (mem_pickedLevels mem picked) ⟨rfl, rfl, rfl⟩
    (fun t x _ i => ⟨str_tapLevel.trans i.1, lane_tapLevel.trans i.2.1, causesKept_tapLevel.len.trans i.2.2⟩) ?_
    fun t _ _ _ q => causesKept_tapLevel.bits o _ q
  rintro t ⟨str, lane, causes⟩
  refine tapLevel_fast_sets fast ?_ ho (causes ▸ len) ((declared_congr str).trans decl) ?_
  · rwa [levelCode_congr str, laneOf, lane]
  · rwa [outputsOf_congr str]

theorem compareTap_relation_true {i : Nat} (func : tapFunction s n = some f) (rec : laneRec s f = some r) (role : r.role = 1)
    (qty : r.qty ≠ 3) (mem : (laneLevels s f)[k]? = some l) (picked : sel l k = true) (slow : l.fast = false)
    (rel : i ∈ levelRelations s l) (above : levelCode s l ≤ (laneOf s n).tap.natAbs) :
    i ∈ (compareTap sel n s).flt.supTrue := by
  rw [compareTap_measure func rec role qty]
  have same {t : State} (i : t.str = s.str ∧ t.lane = s.lane) (l : Level) :
      (levelCode t l ≤ (laneOf t n).tap.natAbs) = (levelCode s l ≤ (laneOf s n).tap.natAbs) := by
    rw [levelCode_congr i.1, laneOf, laneOf, i.2]
  refine foldl_reaches (I := fun t => t.str = s.str ∧ t.lane = s.lane) (Q := fun t => i ∈ t.flt.supTrue)
    (mem_pickedLevels mem picked) ⟨rfl, rfl⟩ (fun t x _ i => ⟨str_tapLevel.trans i.1, lane_tapLevel.trans i.2⟩)
    (fun t j => ?_) fun t x _ j q => ?_
  · rw [supTrue_tapLevel, if_pos ((same j l).mpr above), slow, if_neg Bool.false_ne_true, levelRelations_congr j.1]
    by_cases q : i ∈ t.flt.supTrue
    · exact List.mem_append_left _ q
    · exact List.mem_append_right _ (List.mem_filter.mpr ⟨rel, by simpa using q⟩)
  · rw [supTrue_tapLevel]
    split
    · split
      · exact q
      · exact List.mem_append_left _ q
    · next below =>
      split
      · refine List.mem_filter.mpr ⟨q, ?_⟩
        rw [levelRelations_congr j.1]
        by_contra shared
        have shared : i ∈ levelRelations s x.1 := by simpa using shared
        exact below ((same j x.1).mpr ((level_of_relation rel shared).2 ▸ above))
      · exact q

theorem compareTap_relation_false {i : Nat} (func : tapFunction s n = some f) (rec : laneRec s f = some r) (role : r.role = 1)
    (qty : r.qty ≠ 3) (mem : (laneLevels s f)[k]? = some l) (picked : sel l k = true) (slow : l.fast = false)
    (rel : i ∈ levelRelations s l) (below : (laneOf s n).tap.natAbs < levelCode s l) (own : n = carrier s f) :
    i ∉ (compareTap sel n s).flt.supTrue := by
  rw [compareTap_measure func rec role qty]
  have same {t : State} (i : t.str = s.str ∧ t.lane = s.lane) (l : Level) :
      (levelCode t l ≤ (laneOf t n).tap.natAbs) = (levelCode s l ≤ (laneOf s n).tap.natAbs) := by
    rw [levelCode_congr i.1, laneOf, laneOf, i.2]
  refine foldl_reaches (I := fun t => t.str = s.str ∧ t.lane = s.lane) (Q := fun t => i ∉ t.flt.supTrue)
    (mem_pickedLevels mem picked) ⟨rfl, rfl⟩ (fun t x _ i => ⟨str_tapLevel.trans i.1, lane_tapLevel.trans i.2⟩)
    (fun t j => ?_) fun t x _ j q => ?_
  · have carried : (n == carrier t f && !l.fast) = true := by
      rw [show carrier t f = carrier s f by simp only [carrier, j.1], ← own, slow]
      simp
    rw [supTrue_tapLevel, if_neg (mt (same j l).mp (Nat.not_le.mpr below)), if_pos carried, levelRelations_congr j.1]
    intro h
    have := (List.mem_filter.mp h).2
    simp [rel] at this
  · rw [supTrue_tapLevel, levelRelations_congr j.1]
    split
    · next above =>
      split
      · exact q
      · intro h
        obtain h | h := List.mem_append.mp h
        · exact q h
        · have shared := (List.mem_filter.mp h).1
          rw [same j, (level_of_relation rel shared).2] at above
          exact absurd above (Nat.not_le.mpr below)
    · split
      · exact fun h => q (List.mem_filter.mp h).1
      · exact q

end Trips

/-! ## Fast taps (R61, R167-R169) -/

section FastTaps
variable {n f o k bits : Nat} {l : Level} {r : LaneRec}

theorem fastTrip_latches (deliv : delivers s n = true) (func : tapFunction s n = some f) (rec : laneRec s f = some r)
    (role : r.role = 1) (qty : r.qty ≠ 3) (mem : (laneLevels s f)[k]? = some l) (fast : l.fast = true)
    (above : levelCode s l ≤ (laneOf s n).tap.natAbs) (ho : o < 4) (len : o < s.owl.causes.length) (decl : declared s o = true)
    (hit : Nat.land l.mask (outputsOf s o) ≠ 0) :
    Answers (.fastTrip n k) s fun t => bitAt (at0 t.owl.causes o) (kindCause l.kind) = true :=
  ⟨_, congrArg Host.Outcome.next (if_pos deliv),
    compareTap_fast_sets func rec role qty mem (by simp [fast]) fast above ho len decl hit⟩

theorem natAbs_clamp_le {x : Int} {b : Nat} : (clamp (-b) b x).natAbs ≤ b := by
  unfold clamp
  split
  · omega
  · split <;> omega

/-- The word that eight bits form (R54, R61). -/
structure TapFormed (before after : Lane) : Prop where
  bound : after.tap.natAbs ≤ 0x7FFF
  clkerr : before.clkerr = true → after.tap = 0x7FFF
  clamped : before.clkerr = false → before.overload = true ∨ before.stuck = true →
    after.tap = if before.high then 0x7FFF else -0x7FFF

theorem formTap_forms (inv : s.Inv) (hn : n < 40) : TapFormed (laneOf s n) (laneOf (formTap n bits s) n) := by
  have len : n < (bump s).lane.lanes.length := (lanes_length inv).symm ▸ hn
  unfold formTap
  dsimp only
  rw [laneOf_onLane_self len]
  refine ⟨?_, fun clkerr => if_pos clkerr, fun clocked faulty => ?_⟩
  · dsimp only
    split
    · decide
    · split
      · split <;> decide
      · exact natAbs_clamp_le (b := 0x7FFF)
  · dsimp only
    rw [if_neg (by simp [clocked]), if_pos (by simpa using faulty)]

/-- The state in which a delivered word of lane `n` is compared: it is formed, and its RESIDUAL low-pass takes it. -/
def tapState (n bits : Nat) (s : State) : State :=
  stepBase n (functionOf (formTap n bits s) n) (laneOf (formTap n bits s) n).tap (formTap n bits s)

theorem exec_fastTapWord (deliv : delivers s n = true) :
    exec (.fastTapWord n { bits := bits, parityBad := false }) s = .next (compareTap (fun _ _ => true) n (tapState n bits s)) :=
  congrArg Host.Outcome.next (if_pos deliv)

theorem tapState_lane : (tapState n bits s).lane = (formTap n bits s).lane := part_of_law .lane (same_stepBase n _ _) rfl

theorem tapState_str : (tapState n bits s).str = s.str :=
  (part_of_law .str (same_stepBase n _ _) rfl : _ = (formTap n bits s).str).trans (part_of_law .str (same_formTap n bits) rfl)

theorem tapState_owl : (tapState n bits s).owl = s.owl :=
  (part_of_law .owl (same_stepBase n _ _) rfl : _ = (formTap n bits s).owl).trans (part_of_law .owl (same_formTap n bits) rfl)

theorem tapFunction_tapState : tapFunction (tapState n bits s) n = tapFunction s n := by
  have warm : (tapState n bits s).lane.warm = s.lane.warm := by
    rw [tapState_lane]
    rfl
  have carried (f : Nat) : carrier (tapState n bits s) f = carrier s f := by simp only [carrier, tapState_str]
  have func : functionOf (tapState n bits s) n = functionOf s n := by simp only [functionOf, carried]
  unfold tapFunction
  rw [warm, func, carried]

theorem laneRec_congr (str : t.str = s.str) : laneRec t n = laneRec s n := by simp only [laneRec, str]

theorem laneLevels_congr (str : t.str = s.str) : laneLevels t n = laneLevels s n := by simp only [laneLevels, str]

theorem compareTap_lane {sel : Level → Nat → Bool} : (compareTap sel n s).lane = s.lane :=
  part_of_law .lane (same_compareTap sel n) rfl

/-- The lane after the comparison is the lane as the word formed it. -/
theorem laneOf_compared {sel : Level → Nat → Bool} :
    laneOf (compareTap sel n (tapState n bits s)) n = laneOf (formTap n bits s) n := by
  rw [laneOf, compareTap_lane, tapState_lane, laneOf]

theorem fastTapWord_trips (inv : s.Inv) (hn : n < 40) (deliv : delivers s n = true) (func : tapFunction s n = some f)
    (rec : laneRec s f = some r) (role : r.role = 1) (qty : r.qty ≠ 3) (mem : l ∈ laneLevels s f) (fast : l.fast = true)
    (ho : o < 4) (len : o < s.owl.causes.length) (decl : declared s o = true) (hit : Nat.land l.mask (outputsOf s o) ≠ 0) :
    Answers (.fastTapWord n { bits := bits, parityBad := false }) s fun t => (laneOf t n).tap.natAbs ≤ 0x7FFF
      ∧ ((laneOf s n).clkerr = true → (laneOf t n).tap = 0x7FFF)
      ∧ ((laneOf s n).clkerr = false → (laneOf s n).overload = true ∨ (laneOf s n).stuck = true →
          (laneOf t n).tap = if (laneOf s n).high then 0x7FFF else -0x7FFF)
      ∧ (levelCode s l ≤ (laneOf t n).tap.natAbs → bitAt (at0 t.owl.causes o) (kindCause l.kind) = true) := by
  obtain ⟨k, place⟩ := List.getElem?_of_mem mem
  obtain ⟨bound, clkerr, clamped⟩ := formTap_forms (bits := bits) inv hn
  refine ⟨_, exec_fastTapWord deliv, ?_⟩
  dsimp only
  rw [laneOf_compared]
  refine ⟨bound, clkerr, clamped, fun above => ?_⟩
  refine compareTap_fast_sets (tapFunction_tapState.trans func) ((laneRec_congr tapState_str).trans rec) role qty
    (by rwa [laneLevels_congr tapState_str]) rfl fast ?_ ho (by rwa [tapState_owl])
    ((declared_congr tapState_str).trans decl) (by rwa [outputsOf_congr tapState_str])
  rwa [levelCode_congr tapState_str, laneOf, tapState_lane]

theorem fastTapWord_relations {i : Nat} (deliv : delivers s n = true) (func : tapFunction s n = some f)
    (rec : laneRec s f = some r) (role : r.role = 1) (qty : r.qty ≠ 3) (mem : l ∈ laneLevels s f) (slow : l.fast = false)
    (rel : i ∈ levelRelations s l) :
    Answers (.fastTapWord n { bits := bits, parityBad := false }) s fun t =>
      (levelCode s l ≤ (laneOf t n).tap.natAbs → i ∈ t.flt.supTrue)
        ∧ ((laneOf t n).tap.natAbs < levelCode s l → n = carrier s f → i ∉ t.flt.supTrue) := by
  obtain ⟨k, place⟩ := List.getElem?_of_mem mem
  have func' : tapFunction (tapState n bits s) n = some f := tapFunction_tapState.trans func
  have rec' : laneRec (tapState n bits s) f = some r := (laneRec_congr tapState_str).trans rec
  have place' : (laneLevels (tapState n bits s) f)[k]? = some l := by rwa [laneLevels_congr tapState_str]
  have rel' : i ∈ levelRelations (tapState n bits s) l := by rwa [levelRelations_congr tapState_str]
  have tap : (laneOf (tapState n bits s) n).tap = (laneOf (formTap n bits s) n).tap := by rw [laneOf, tapState_lane, laneOf]
  refine ⟨_, exec_fastTapWord deliv, ?_⟩
  dsimp only
  rw [laneOf_compared, ← tap, ← levelCode_congr (tapState_str (n := n) (bits := bits))]
  refine ⟨compareTap_relation_true func' rec' role qty place' rfl slow rel', fun below own => ?_⟩
  exact compareTap_relation_false func' rec' role qty place' rfl slow rel' below
    (by simpa only [carrier, tapState_str] using own)

end FastTaps

/-! ## Residual current (R170, R171) -/

section ResidualAndIsolation
variable {o k : Nat}

/-- Residual, isolation and weld monitors of 4 outlets. -/
theorem flt_lengths (inv : s.Inv) : s.flt.rc.length = 4 ∧ s.flt.iso.length = 4 ∧ s.flt.weld.length = 4 := by
  obtain ⟨-, -, -, -, shape, -⟩ := inv
  simpa [FltBlock.shape] using shape

theorem rcEvaluate_holds {ws : List Int} (inv : s.Inv) (ho : o < 4) (ac : isAc s o = true) (words : ws ≠ []) :
    Answers (.rcEvaluate o ws) s fun t => ∀ x ∈ rcLevels.zipIdx,
      at0 (t.flt.rc.getD o Residual.fresh).held x.2 =
        if x.1.1 ≤ (if x.2 < 3 then (t.flt.rc.getD o Residual.fresh).idc.natAbs else (t.flt.rc.getD o Residual.fresh).iac)
        then at0 (s.flt.rc.getD o Residual.fresh).held x.2 + 1 else 0 := by
  have len : o < s.flt.rc.length := (flt_lengths inv).1 ▸ ho
  refine ⟨_, congrArg Host.Outcome.next (if_pos ⟨ac, words⟩), fun x mem => ?_⟩
  dsimp only
  rw [onFlt_flt]
  dsimp only
  rw [upd_getD_self (show o < (bump (bump s)).flt.rc.length from len)]
  have place : rcLevels.zipIdx[x.2]? = some x := by
    have at' := List.mem_zipIdx_iff_getElem?.mp mem
    rw [List.getElem?_zipIdx, at']
    simp
  simp only [at0, List.getD_eq_getElem?_getD, List.getElem?_map, place, Option.map_some, Option.getD_some]
  rfl

theorem isAc_declared (ac : isAc s o = true) : declared s o = true := by
  unfold isAc at ac
  unfold declared
  cases rec : outletRec s o with
  | none => simp [rec] at ac
  | some r => rfl

/-- A residual-current trip before its event: the row's trip bit (DC for the first three, AC for the others), the source
register and the cause of the outlet with all its outputs (R171). -/
def rcLatch (o k : Nat) (s : State) : State :=
  let marked := onFlt (fun b => { b with rc := upd b.rc o fun r =>
    if (decide (k < 3) : Bool) then { r with dcTrip := true } else { r with acTrip := true } }) s
  latchTrip (if (decide (k < 3) : Bool) then 3 else 4) (outputsOf marked o) (recordSrc (if (decide (k < 3) : Bool) then 4 else 5) o (k % 3) marked)

theorem rcLatch_rc : (rcLatch o k s).flt.rc = upd s.flt.rc o fun r =>
    if (decide (k < 3) : Bool) then { r with dcTrip := true } else { r with acTrip := true } := by
  unfold rcLatch
  dsimp only
  rw [flt_latchTrip, flt_recordSrc]
  rfl

theorem rcLatch_sets (ho : o < 4) (len : o < s.owl.causes.length) (decl : declared s o = true) (outs : outputsOf s o ≠ 0) :
    bitAt (at0 (rcLatch o k s).owl.causes o) (if k < 3 then 3 else 4) = true := by
  unfold rcLatch
  dsimp only
  simp only [decide_eq_true_eq]
  refine latchTrip_sets ho (by rwa [owl_recordSrc]) ((declared_congr str_recordSrc).trans decl) ?_
  rw [outputsOf_congr str_recordSrc]
  exact fun h => outs ((Nat.and_self _).symm.trans h)

theorem owl_ite_logEv {p : Prop} [Decidable p] {c : EvClass} {b i k : Nat} {d : List (Nat × Nat)} :
    (if p then logEv c b i k d s else s).owl = s.owl := by
  split
  · exact logEv_owl
  · rfl

theorem flt_ite_logEv {p : Prop} [Decidable p] {c : EvClass} {b i k : Nat} {d : List (Nat × Nat)} :
    (if p then logEv c b i k d s else s).flt = s.flt := by
  split
  · exact logEv_flt
  · rfl

/-- RC_TRIP after the hold time: the trip, and its event at the onset. -/
theorem exec_rcTrip (ac : isAc s o = true)
    (passed : (rcLevels[k]?.map (·.2)).getD (2 ^ 32) ≤ at0 (s.flt.rc.getD o Residual.fresh).held k) :
    ∃ t, exec (.rcTrip o k) s = .next t ∧ t.owl = (rcLatch o k s).owl ∧ t.flt = (rcLatch o k s).flt := by
  exact ⟨_, congrArg Host.Outcome.next (if_pos ⟨ac, passed⟩), owl_ite_logEv, flt_ite_logEv⟩

theorem rcTrip_trips {c h : Nat} (inv : s.Inv) (ho : o < 4) (len : o < s.owl.causes.length) (ac : isAc s o = true)
    (level : rcLevels[k]? = some (c, h)) (held : h ≤ at0 (s.flt.rc.getD o Residual.fresh).held k) (outs : outputsOf s o ≠ 0) :
    Answers (.rcTrip o k) s fun t =>
      bitAt (at0 t.owl.causes o) (if k < 3 then 3 else 4) = true
        ∧ (if k < 3 then (t.flt.rc.getD o Residual.fresh).dcTrip else (t.flt.rc.getD o Residual.fresh).acTrip) = true := by
  have rcLen : o < s.flt.rc.length := (flt_lengths inv).1 ▸ ho
  have passed : (rcLevels[k]?.map (·.2)).getD (2 ^ 32) ≤ at0 (s.flt.rc.getD o Residual.fresh).held k := by rwa [level]
  have cause : bitAt (at0 (rcLatch o k s).owl.causes o) (if k < 3 then 3 else 4) = true :=
    rcLatch_sets ho len (isAc_declared ac) outs
  have trip : (if k < 3 then ((rcLatch o k s).flt.rc.getD o Residual.fresh).dcTrip
      else ((rcLatch o k s).flt.rc.getD o Residual.fresh).acTrip) = true := by
    rw [rcLatch_rc, upd_getD_self rcLen]
    by_cases dc : k < 3 <;> simp [dc]
  obtain ⟨t, answer, owl, flt⟩ := exec_rcTrip ac passed
  refine ⟨t, answer, ?_⟩
  dsimp only
  rw [owl, flt]
  exact ⟨cause, trip⟩

theorem isoStateSwitch_switches {i : IsoInput} (inv : s.Inv) (ho : o < 4) (dc : isDc s o = true) :
    Answers (.isoStateSwitch o i) s fun t =>
      (t.flt.iso.getD o Iso.fresh).injN = !(s.flt.iso.getD o Iso.fresh).injN
        ∧ ((i.vp - i.vn).natAbs < 50000 → (t.flt.iso.getD o Iso.fresh).state = .novolt
            ∧ (t.flt.iso.getD o Iso.fresh).riso = 0) := by
  have len : o < s.flt.iso.length := (flt_lengths inv).2.1 ▸ ho
  refine ⟨_, congrArg Host.Outcome.next (if_pos dc), ?_⟩
  have own : (bump (onFlt (fun b => { b with iso := upd b.iso o (isoSwitch s i) }) s)).flt.iso.getD o Iso.fresh
      = isoSwitch s i (s.flt.iso.getD o Iso.fresh) := upd_getD_self len
  dsimp only
  rw [own]
  constructor
  · unfold isoSwitch
    dsimp only
    split <;> rfl
  · intro low
    unfold isoSwitch
    rw [if_pos low]
    exact ⟨rfl, rfl⟩

theorem isoUnknown_logs {u : Int} (inv : s.Inv) (ho : o < 4) (dc : isDc s o = true) (volts : 50000 ≤ u.natAbs)
    (onset : (s.flt.iso.getD o Iso.fresh).state ≠ .unknown) :
    Answers (.isoUnknown o u) s fun t => (t.flt.iso.getD o Iso.fresh).state = .unknown
      ∧ (badgerUp s = true → Newest t .safety 0x080A [(1, o), (4, unsignedOf 32 u)]) := by
  have len : o < s.flt.iso.length := (flt_lengths inv).2.1 ▸ ho
  refine ⟨_, congrArg Host.Outcome.next (if_pos ⟨dc, volts, onset⟩), ?_, fun up => newest_logEv up⟩
  rw [logEv_flt, onFlt_flt]
  dsimp only
  rw [upd_getD_self len]

end ResidualAndIsolation

/-- Settles O16: a FAST level latches at its own turn what no later level clears; relations that a word shares belong to levels
of one code, so no other level undoes what one does to them; a residual-current row and an isolation state are one update each. -/
theorem protectionCommandsEffect : Obligations.ProtectionCommandsEffect := by
  unfold Obligations.ProtectionCommandsEffect
  exact ⟨fun s n f k r l o _ => fastTrip_latches, fun s n f b r l o => fastTapWord_trips,
    fun s n f b r l i _ => fastTapWord_relations, fun s o ws => rcEvaluate_holds, fun s o k c h => rcTrip_trips,
    fun s o i => isoStateSwitch_switches, fun s o u => isoUnknown_logs⟩

/-! ## What a supervisor leaves of Owl (R187, R225-R227) -/

section Supervisor
variable {a : State} {o : Nat}

/-- Owl's block but for releases and requests, which are all that a supervisor's step may write of it. -/
def beyondRelease (b : OwlBlock) : OwlBlock := { b with released := [], requested := [] }

/-- Between `a` and `s` Owl's block changed at most in its releases and requests. -/
def OwlKept (a s : State) : Prop := beyondRelease s.owl = beyondRelease a.owl

theorem owlKept_refl : OwlKept a a := rfl

theorem OwlKept.cfg (h : OwlKept a s) : s.owl.cfg = a.owl.cfg := by
  have cfg : (beyondRelease s.owl).cfg = (beyondRelease a.owl).cfg := congrArg OwlBlock.cfg h
  exact cfg
theorem OwlKept.weldSeen (h : OwlKept a s) : s.owl.weldSeen = a.owl.weldSeen := by
  have seen : (beyondRelease s.owl).weldSeen = (beyondRelease a.owl).weldSeen := congrArg OwlBlock.weldSeen h
  exact seen

/-- An operation whose law does not list Owl's part. -/
theorem OwlKept.law (h : OwlKept a s) (w : List Part) (f : listed w w = true → Same w s s → Same w s t)
    (hw : w.contains .owl = false := by rfl) : OwlKept a t := by
  have owl : t.owl = s.owl := (f (listed_self w) (same_refl w s)).part hw
  exact (congrArg beyondRelease owl).trans h

theorem owlKept_ite {c : Prop} [Decidable c] {x y : State} (hx : OwlKept a x) (hy : OwlKept a y) :
    OwlKept a (if c then x else y) := by
  split
  · exact hx
  · exact hy

theorem owlKept_onLink {f : Link → Link} (h : OwlKept a s) : OwlKept a (onLink o f s) := h

theorem owlKept_setSup {x : Sup} (h : OwlKept a s) : OwlKept a (setSup o x s) := h.law _ (same_setSup o x)

theorem owlKept_dropRelease (h : OwlKept a s) : OwlKept a (dropRelease o s) := by
  have dropped : OwlKept a (onOwl (fun b => { b with
    requested := put b.requested o false, released := put b.released o false }) s) := h
  exact (owlKept_onLink dropped).law _ (same_contactorDemand o false)

theorem owlKept_requestRelease (h : OwlKept a s) : OwlKept a (requestRelease o s) := owlKept_ite h h

theorem owlKept_advance (h : OwlKept a s) : OwlKept a (advance o s) := by
  unfold advance
  dsimp only
  split
  · exact h
  · split
    · exact h
    · exact owlKept_ite h (owlKept_requestRelease h)
    · exact h

theorem owlKept_lockReached (h : OwlKept a s) : OwlKept a (lockReached o s) :=
  owlKept_ite (owlKept_advance (owlKept_onLink (owlKept_setSup h))) h

theorem owlKept_runStart (h : OwlKept a s) : OwlKept a (runStart o s) := by
  have locks : OwlKept a (requestLock o (setSup o .locking (onLink o (fun l => { l with
      startHeld := false, phase := .none, relTries := 0, preTries := 0, endCause := 0, ventSeen := false, session := 0,
      meterOpen := false, limpHit := false, uvPause := false, sessCap := cableCapacity l.ppCode }) s))) :=
    (owlKept_setSup (owlKept_onLink h)).law _ (same_requestLock o)
  exact owlKept_ite locks (owlKept_lockReached locks)

theorem owlKept_startSession (h : OwlKept a s) : OwlKept a (startSession o s) := owlKept_ite h (owlKept_runStart h)

theorem owlKept_limpStart (h : OwlKept a s) : OwlKept a (limpStart o s) :=
  owlKept_ite (owlKept_ite h (owlKept_startSession h)) h

theorem owlKept_finishSession (h : OwlKept a s) : OwlKept a (finishSession o s) := by
  have closed : OwlKept a (closeSession o s) := h.law _ (same_closeSession o)
  exact owlKept_ite (owlKept_limpStart (closed.law _ (same_limpPilot o))) closed

theorem owlKept_endSession {cause : Nat} (h : OwlKept a s) : OwlKept a (endSession o cause s) := by
  unfold endSession
  dsimp only
  split
  · exact h
  · split
    · exact owlKept_ite h (owlKept_onLink (owlKept_dropRelease (owlKept_onLink h)))
    · exact h
    · exact h
    · exact owlKept_finishSession (owlKept_dropRelease (owlKept_onLink h))

theorem owlKept_tryResume (h : OwlKept a s) : OwlKept a (tryResume o s) := owlKept_ite (owlKept_requestRelease h) h

theorem owlKept_afterPostOpen (h : OwlKept a s) : OwlKept a (afterPostOpen o s) := by
  unfold afterPostOpen
  dsimp only
  split
  · exact h
  · split
    · exact h
    · exact owlKept_tryResume (owlKept_setSup (owlKept_onLink h))
    · exact owlKept_finishSession h

end Supervisor

/-! ## Weld checks (R176, R177, R179) -/

section Welds
variable {o : Nat} {x : WeldResult × Nat × Nat × Nat} {post : Bool}

/-- What FLT shows of an outlet's weld checks. -/
def weldOf (s : State) (o : Nat) : Weld := s.flt.weld.getD o Weld.fresh

@[simp] theorem onCfg_flt {f : OwlCfg → OwlCfg} : (onCfg f s).flt = s.flt := rfl

@[simp] theorem get_onCfg {f : OwlCfg → OwlCfg} : (onCfg f s).owl.cfg.get = f s.owl.cfg.get := get_change

theorem recordWeld_shows (ho : o < s.flt.weld.length) :
    (weldOf (recordWeld o post x s) o).result = x.1 ∧ (weldOf (recordWeld o post x s) o).postOpen = post
      ∧ (post = false → ((weldOf (recordWeld o post x s) o).preOpen = true ↔ x.1 = .isOpen)) := by
  have shown : weldOf (recordWeld o post x s) o = { weldOf s o with
      result := x.1, postOpen := post, preOpen := if post then (weldOf s o).preOpen else x.1 == .isOpen,
      inconc := if post then (if x.1 = .inconclusive then min 3 ((weldOf s o).inconc + 1) else 0)
        else (weldOf s o).inconc } := by
    unfold recordWeld weldOf
    dsimp only
    split
    · rw [logEv_flt, onCfg_flt, onFlt_flt]
      exact upd_getD_self ho
    · exact upd_getD_self ho
  rw [shown]
  refine ⟨rfl, rfl, fun pre => ?_⟩
  simp [pre]

theorem recordWeld_holds (ho : o < s.owl.cfg.get.held.length) (welded : x.1 = .welded) :
    held (recordWeld o post x s) o = true := by
  unfold recordWeld held
  dsimp only
  rw [if_pos welded, logEv_owl, get_onCfg]
  exact put_getD_self ho

/-- Owl's weld history stands while FLT records a result. -/
theorem recordWeld_weldSeen : (recordWeld o post x s).owl.weldSeen = s.owl.weldSeen := by
  unfold recordWeld
  dsimp only
  split
  · rw [logEv_owl]
    rfl
  · rfl

/-- What the supervisor does with the result of a PRE_CLOSE. -/
def afterPreClose (o : Nat) (r : WeldResult) (s : State) : State :=
  if (linkOf s o).phase ≠ .preClose then s
  else match r with
    | .isOpen =>
      if (linkOf s o).window.isSome then onLink o (fun l => { l with phase := .preCloseWait }) s
      else closeContactors o s
    | .inconclusive =>
      let n := (linkOf s o).preTries + 1
      let s := onLink o (fun l => { l with preTries := n, phase := .preCloseWait }) s
      if 3 ≤ n then endSession o 6 (logEv .service 0x0C o 0x0C09 [(1, o), (1, 3)] s) else s
    | _ => endSession o 6 s

theorem exec_preCloseResult {i : WeldInput} (result : weldResult s o false i = some x) :
    exec (.preCloseResult o i) s = .next (afterPreClose o x.1 (recordWeld o false x s)) := by
  change execPreCloseResult o i s = _
  unfold execPreCloseResult
  rw [result]
  rfl

theorem same_afterPreClose {w : List Part} {a : State} {r : WeldResult}
    (hw : listed [.met, .pwr, .owl, .vlk, .sys, .mgt, .log] w = true) (h : Same w a s) : Same w a (afterPreClose o r s) := by
  unfold afterPreClose
  refine same_ite h ?_
  have waits {f : Link → Link} : Same w a (onLink o f s) := same_onLink (listed_trans hw rfl) h
  cases r with
  | isOpen => exact same_ite waits (same_closeContactors o (listed_trans hw rfl) h)
  | inconclusive => exact same_ite (same_endSession o 6 hw (same_logEv _ _ _ _ _ (listed_trans hw rfl) waits)) waits
  | none | welded => exact same_endSession o 6 hw h

theorem owlKept_afterPreClose {r : WeldResult} : OwlKept s (afterPreClose o r s) := by
  unfold afterPreClose
  refine owlKept_ite owlKept_refl ?_
  cases r with
  | isOpen => exact owlKept_ite owlKept_refl (owlKept_refl.law _ (same_closeContactors o))
  | inconclusive =>
    exact owlKept_ite (owlKept_endSession (OwlKept.law (owlKept_onLink owlKept_refl) _ (same_logEv _ _ _ _ _))) owlKept_refl
  | none | welded => exact owlKept_endSession owlKept_refl

theorem held_congr (cfg : t.owl.cfg = s.owl.cfg) : held t o = held s o := by rw [held, held, cfg]

theorem weldOf_congr (flt : t.flt = s.flt) : weldOf t o = weldOf s o := by rw [weldOf, weldOf, flt]

theorem preCloseResult_records {i : WeldInput} (inv : s.Inv) (ho : o < 4) (len : o < s.owl.cfg.get.held.length)
    (result : weldResult s o false i = some x) :
    Answers (.preCloseResult o i) s fun t =>
      (weldOf t o).result = x.1 ∧ (weldOf t o).postOpen = false
        ∧ ((weldOf t o).preOpen = true ↔ x.1 = .isOpen) ∧ (x.1 = .welded → held t o = true) := by
  have flt : (afterPreClose o x.1 (recordWeld o false x s)).flt = (recordWeld o false x s).flt :=
    part_of_law .flt (same_afterPreClose (r := x.1)) rfl
  obtain ⟨shown, kind, preOpen⟩ := recordWeld_shows (x := x) (post := false) (show o < s.flt.weld.length from (flt_lengths inv).2.2 ▸ ho)
  refine ⟨_, exec_preCloseResult result, ?_⟩
  dsimp only
  rw [weldOf_congr flt, held_congr owlKept_afterPreClose.cfg]
  exact ⟨shown, kind, preOpen rfl, recordWeld_holds len⟩

theorem precloseRetry_checks (inv : s.Inv) (ho : o < 4) (waits : (linkOf s o).phase = .preCloseWait) :
    Answers (.precloseRetry o) s fun t => (linkOf t o).phase = .preClose := by
  obtain ⟨-, -, -, -, -, -, links, -⟩ := inv
  refine ⟨_, congrArg Host.Outcome.next (if_pos waits), ?_⟩
  dsimp only
  rw [linkOf_onLink_self (links.symm ▸ ho)]

/-- POST_OPEN's result in FLT and in Owl's weld history, with the event of the third inconclusive one, before the supervisor
goes on. -/
def recordPostOpen (o : Nat) (x : WeldResult × Nat × Nat × Nat) (s : State) : State :=
  let recorded := recordWeld o true x s
  let logged := if x.1 = .inconclusive ∧ (weldOf s o).inconc = 2 then logEv .safety 0x09 o 0x080C [(1, o)] recorded else recorded
  if x.1 = .welded then logged else onOwl (fun b => { b with weldSeen := put b.weldSeen o true }) logged

theorem exec_postOpenResult {i : WeldInput} (result : weldResult s o true i = some x) :
    exec (.postOpenResult o i) s = .next (afterPostOpen o (recordPostOpen o x s)) := by
  change execPostOpenResult o i s = _
  unfold execPostOpenResult
  rw [result]
  rfl

theorem recordPostOpen_flt : (recordPostOpen o x s).flt = (recordWeld o true x s).flt := by
  unfold recordPostOpen
  dsimp only
  split
  · exact flt_ite_logEv
  · exact flt_ite_logEv

theorem recordPostOpen_cfg : (recordPostOpen o x s).owl.cfg = (recordWeld o true x s).owl.cfg := by
  unfold recordPostOpen
  dsimp only
  split
  · rw [owl_ite_logEv]
  · rw [onOwl_owl, owl_ite_logEv]

theorem recordPostOpen_weldSeen (ho : o < s.owl.weldSeen.length) (free : x.1 ≠ .welded) :
    flag (recordPostOpen o x s).owl.weldSeen o = true := by
  unfold recordPostOpen
  dsimp only
  rw [if_neg free, onOwl_owl, owl_ite_logEv, recordWeld_weldSeen]
  exact put_getD_self ho

theorem postOpenResult_records {i : WeldInput} (inv : s.Inv) (ho : o < 4) (len : o < s.owl.cfg.get.held.length)
    (seen : o < s.owl.weldSeen.length) (result : weldResult s o true i = some x) :
    Answers (.postOpenResult o i) s fun t =>
      (weldOf t o).result = x.1 ∧ (weldOf t o).postOpen = true
        ∧ (x.1 = .welded → held t o = true) ∧ (x.1 ≠ .welded → flag t.owl.weldSeen o = true) := by
  have flt : (afterPostOpen o (recordPostOpen o x s)).flt = (recordWeld o true x s).flt :=
    (part_of_law .flt (same_afterPostOpen o) rfl).trans recordPostOpen_flt
  have owl : OwlKept (recordPostOpen o x s) (afterPostOpen o (recordPostOpen o x s)) := owlKept_afterPostOpen owlKept_refl
  obtain ⟨shown, kind, -⟩ := recordWeld_shows (x := x) (post := true) (show o < s.flt.weld.length from (flt_lengths inv).2.2 ▸ ho)
  refine ⟨_, exec_postOpenResult result, ?_⟩
  dsimp only
  rw [weldOf_congr flt, held_congr (owl.cfg.trans recordPostOpen_cfg), owl.weldSeen]
  exact ⟨shown, kind, recordWeld_holds len, recordPostOpen_weldSeen seen⟩

theorem weldClear_ends {r : Req} (ho : o < 4) (decl : declared s o = true) (mode : s.sys.mode = .maintenance)
    (kept : held s o = true) (preOpen : (weldOf s o).preOpen = true) :
    Answers (.weldClear r o) s fun t => Posted t r stsOk [] ∧ held t o = false := by
  have allowed : firstFail (outletChecks s o ++ [(s.sys.mode != .maintenance || !held s o || !(weldOf s o).preOpen, stsState)])
      = stsOk := by
    simp [outletChecks, firstFail, decl, mode, kept, preOpen, Nat.not_lt.mpr (Nat.le_of_lt_succ ho)]
  refine ⟨_, congrArg Host.Outcome.next (guarded_ok allowed), posted_postSts, ?_⟩
  rw [held_congr (s := onCfg (fun c => { c with held := put c.held o false }) s), held, get_onCfg]
  · exact flag_put_self_false
  · rw [postSts_owl, changeEntry, logEv_owl]
    rfl

end Welds

/-! ## A cable lock that rests while Owl evaluates (R178, R186) -/

/-- What of a vehicle link decides whether Owl's evaluation starts a session on its outlet. -/
structure LinkStart where
  startHeld : Bool
  phase : Phase
  why : OpenReason
  endCause : Nat

def Link.start (l : Link) : LinkStart := ⟨l.startHeld, l.phase, l.why, l.endCause⟩

/-- No start is held back. -/
def Unheld (v : LinkStart) : Prop := v.startHeld = false

/-- No start is held back, and no session is ending. -/
def Steady (v : LinkStart) : Prop := Unheld v ∧ ((v.phase == .gateOff || v.phase == .postOpen) && v.why == .finish) = false

/-- No start is held back, and a session that ends is not followed by another (R230). -/
def Final (v : LinkStart) : Prop := Unheld v ∧ v.endCause ≠ causeLimp

/-- Outlet `o`'s lock is in state `x` with feedback `b`, and its link's start satisfies `P`. -/
structure LockRests (o : Nat) (P : LinkStart → Prop) (x : LockState) (b : Bool) (s : State) : Prop where
  len : o < s.vlk.length
  state : (lockOf s o).state = x
  fb : (lockOf s o).fb = b
  link : P (linkOf s o).start

section Lock
variable {o p n : Nat} {P Q : LinkStart → Prop} {x : LockState} {b : Bool}

theorem LockRests.mono (h : LockRests o P x b s) (hl : P (linkOf s o).start → Q (linkOf s o).start) : LockRests o Q x b s :=
  ⟨h.len, h.state, h.fb, hl h.link⟩

theorem LockRests.of_eq (h : LockRests o P x b s) (vlk : t.vlk = s.vlk) (locks : t.pwr.locks = s.pwr.locks) :
    LockRests o P x b t := by
  obtain ⟨len, state, fb, link⟩ := h
  refine ⟨by rwa [vlk], ?_, ?_, ?_⟩
  · rwa [lockOf, locks]
  · rwa [lockOf, locks]
  · rwa [linkOf, vlk]

/-- An operation whose law lists neither the locks' part nor the links'. -/
theorem LockRests.law (h : LockRests o P x b s) (w : List Part) (f : listed w w = true → Same w s s → Same w s t)
    (hw : w.contains .vlk = false := by rfl) (hp : w.contains .pwr = false := by rfl) : LockRests o P x b t := by
  have vlk : t.vlk = s.vlk := part_of_law .vlk f hw
  have pwr : t.pwr = s.pwr := part_of_law .pwr f hp
  exact h.of_eq vlk (congrArg PwrBlock.locks pwr)

theorem lockRests_ite {c : Prop} [Decidable c] {y z : State} (hy : LockRests o P x b y) (hz : LockRests o P x b z) :
    LockRests o P x b (if c then y else z) := by
  split
  · exact hy
  · exact hz

theorem lockRests_foldl {α : Type} {f : State → α → State} {l : List α} (h : LockRests o P x b s)
    (hf : ∀ s y, y ∈ l → LockRests o P x b s → LockRests o P x b (f s y)) : LockRests o P x b (l.foldl f s) := by
  induction l generalizing s with
  | nil => exact h
  | cons y l ih => exact ih (hf s y List.mem_cons_self h) fun s z hz => hf s z (List.mem_cons_of_mem y hz)

theorem lockRests_logEv {c : EvClass} {k i e : Nat} {d : List (Nat × Nat)} (h : LockRests o P x b s) :
    LockRests o P x b (logEv c k i e d s) := h.law _ (same_logEv _ _ _ _ _)

theorem lockRests_onOwl {f : OwlBlock → OwlBlock} (h : LockRests o P x b s) : LockRests o P x b (onOwl f s) := h.of_eq rfl rfl

theorem lockRests_onCh {f : Channel → Channel} (h : LockRests o P x b s) : LockRests o P x b (onCh n f s) := h.of_eq rfl rfl

theorem lockRests_onMetOut {f : MetOutlet → MetOutlet} (h : LockRests o P x b s) : LockRests o P x b (onMetOut p f s) :=
  h.of_eq rfl rfl

theorem lockRests_onLink {f : Link → Link} (h : LockRests o P x b s) (hf : p = o → ∀ l, P l.start → P (f l).start) :
    LockRests o P x b (onLink p f s) := by
  refine ⟨(List.length_modify ..).symm ▸ h.len, h.state, h.fb, ?_⟩
  by_cases own : o = p
  · subst own
    rw [linkOf_onLink_self h.len]
    exact hf rfl _ h.link
  · rw [linkOf_onLink_ne own]
    exact h.link

/-- An update of a link that leaves what decides its start. -/
theorem lockRests_onLink_start {f : Link → Link} (h : LockRests o P x b s) (hf : ∀ l, (f l).start = l.start) :
    LockRests o P x b (onLink p f s) := lockRests_onLink h fun _ l hl => (hf l).symm ▸ hl

theorem lockRests_onLink_ne {f : Link → Link} (h : LockRests o P x b s) (hp : p ≠ o) : LockRests o P x b (onLink p f s) :=
  lockRests_onLink h fun own => absurd own hp

/-- An update of a lock that leaves state `x` and the feedback. -/
theorem lockRests_onLock {f : Lock → Lock} (h : LockRests o P x b s)
    (hf : p = o → ∀ l, l.state = x → (f l).state = x ∧ (f l).fb = l.fb) : LockRests o P x b (onLock p f s) := by
  by_cases own : p = o
  · subst own
    have rel : (lockOf s p).state = x → (lockOf (onLock p f s) p).state = x ∧ (lockOf (onLock p f s) p).fb = (lockOf s p).fb := by
      by_cases hl : p < s.pwr.locks.length
      · rw [lockOf_onLock_self hl]
        exact hf rfl _
      · have same : lockOf (onLock p f s) p = lockOf s p := by simp [lockOf, onLock, upd, List.getD_eq_getElem?_getD, hl]
        rw [same]
        exact fun h => ⟨h, rfl⟩
    obtain ⟨state, fb⟩ := rel h.state
    exact ⟨h.len, state, fb.trans h.fb, h.link⟩
  · have other : lockOf (onLock p f s) o = lockOf s o := lockOf_onLock_ne (Ne.symm own)
    exact ⟨h.len, other ▸ h.state, other ▸ h.fb, h.link⟩

theorem lockRests_onLock_ne {f : Lock → Lock} (h : LockRests o P x b s) (hp : p ≠ o) : LockRests o P x b (onLock p f s) :=
  lockRests_onLock h fun own => absurd own hp

/-! ### Channels, pilots and modes: what touches no lock that is not LOCKED -/

theorem lockRests_slacCheck (h : LockRests o P x b s) : LockRests o P x b (slacCheck p s) :=
  lockRests_ite (lockRests_ite (lockRests_onLink_start h fun _ => rfl) h)
    (lockRests_ite h (lockRests_onLink_start h fun _ => rfl))

theorem lockRests_setSup {y : Sup} (h : LockRests o P x b s) : LockRests o P x b (setSup p y s) := by
  have checked : LockRests o P x b (slacCheck p (onLink p (fun l => { l with sup := y }) s)) :=
    lockRests_slacCheck (lockRests_onLink_start h fun _ => rfl)
  exact checked.law [.sys, .mgt, .log] same_evalMode

theorem lockRests_beginPostOpen_ne {y : OpenReason} (h : LockRests o P x b s) (hp : p ≠ o) :
    LockRests o P x b (beginPostOpen p y s) := lockRests_onLink_ne h hp

theorem lockRests_requestRelease (h : LockRests o P x b s) (hp : p ≠ o) : LockRests o P x b (requestRelease p s) :=
  lockRests_ite (lockRests_onOwl (lockRests_onLink_ne h hp)) (lockRests_onLink_ne h hp)

theorem lockRests_limpPilot (h : LockRests o P x b s) (hp : p ≠ o) : LockRests o P x b (limpPilot p s) :=
  lockRests_ite (lockRests_onLink_ne (lockRests_onLink_ne h hp) hp) h

theorem lockRests_advance (h : LockRests o P x b s) (hp : p ≠ o) : LockRests o P x b (advance p s) := by
  unfold advance
  dsimp only
  split
  · exact h
  · split
    · exact lockRests_onMetOut (lockRests_onLink_ne h hp)
    · exact lockRests_ite h (lockRests_requestRelease h hp)
    · exact h

theorem lockRests_lockReached (h : LockRests o P x b s) (hp : p ≠ o) : LockRests o P x b (lockReached p s) :=
  lockRests_ite (lockRests_advance (lockRests_onLink_ne (lockRests_setSup h) hp) hp) h

section Free
variable (free : x ≠ .locked)
include free

/-- The watch takes LOCKED locks alone. -/
theorem lockRests_lockWatch (h : LockRests o P x b s) : LockRests o P x b (lockWatch n s) := by
  unfold lockWatch
  split
  · next p _ =>
    split
    · next lost =>
      have other : p ≠ o := by
        rintro rfl
        exact free (h.state.symm.trans lost.1)
      exact lockRests_slacCheck (lockRests_logEv (lockRests_onLock_ne h other))
    · exact h
  · exact h

theorem lockRests_setCh {st : ChState} (h : LockRests o P x b s) : LockRests o P x b (setCh n st s) :=
  lockRests_lockWatch free (lockRests_onCh h)

theorem lockRests_settleCh (h : LockRests o P x b s) : LockRests o P x b (settleCh n s) := by
  obtain stays | ⟨st, takes⟩ := settleCh_eq_or (n := n) (s := s)
  · rwa [stays]
  · rw [takes]
    exact lockRests_setCh free h

theorem lockRests_settleAll (h : LockRests o P x b s) : LockRests o P x b (settleAll s) :=
  lockRests_foldl h fun _ _ _ h => lockRests_settleCh free h

theorem lockRests_settleContactors (h : LockRests o P x b s) : LockRests o P x b (settleContactors p s) :=
  lockRests_foldl h fun _ _ _ h => lockRests_settleCh free h

theorem lockRests_contactorDemand {on : Bool} (h : LockRests o P x b s) : LockRests o P x b (contactorDemand p on s) :=
  lockRests_settleContactors free (lockRests_foldl h fun _ _ _ h => lockRests_onCh h)

theorem lockRests_dropRelease (h : LockRests o P x b s) : LockRests o P x b (dropRelease p s) :=
  lockRests_contactorDemand free (lockRests_onLink_start (lockRests_onOwl h) fun _ => rfl)

theorem lockRests_lockDemand {on : Bool} (h : LockRests o P x b s) : LockRests o P x b (lockDemand p on s) := by
  unfold lockDemand
  split
  · exact lockRests_settleCh free (lockRests_onCh h)
  · exact h

/-! ### The supervisor of another outlet -/

theorem lockRests_requestLock (h : LockRests o P x b s) (hp : p ≠ o) : LockRests o P x b (requestLock p s) := by
  unfold requestLock
  split
  · exact h
  · have asked := lockRests_lockDemand free (p := p) (on := true)
      (lockRests_onLock_ne (f := fun l => { l with state := .locking, second := false, pause := false }) h hp)
    exact lockRests_ite h (lockRests_ite (lockRests_lockWatch free (lockRests_onLock_ne asked hp)) asked)

theorem lockRests_runStart (h : LockRests o P x b s) (hp : p ≠ o) : LockRests o P x b (runStart p s) := by
  have locks : LockRests o P x b (requestLock p (setSup p .locking (onLink p (fun l => { l with
      startHeld := false, phase := .none, relTries := 0, preTries := 0, endCause := 0, ventSeen := false, session := 0,
      meterOpen := false, limpHit := false, uvPause := false, sessCap := cableCapacity l.ppCode }) s))) :=
    lockRests_requestLock free (lockRests_setSup (lockRests_onLink_ne h hp)) hp
  exact lockRests_ite locks (lockRests_lockReached locks hp)

theorem lockRests_startSession (h : LockRests o P x b s) (hp : p ≠ o) : LockRests o P x b (startSession p s) :=
  lockRests_ite (lockRests_onLink_ne h hp) (lockRests_runStart free h hp)

theorem lockRests_limpStart (h : LockRests o P x b s) (hp : p ≠ o) : LockRests o P x b (limpStart p s) :=
  lockRests_ite (lockRests_ite (lockRests_onLink_ne h hp) (lockRests_startSession free h hp)) h

/-! ### The end of a session -/

variable (still : x ≠ .locking)
include still

/-- An unlock request moves LOCKED and LOCKING locks alone. -/
theorem lockRests_requestUnlock (h : LockRests o P x b s) : LockRests o P x b (requestUnlock p s) := by
  refine lockRests_ite h (lockRests_slacCheck (lockRests_lockDemand free (lockRests_onLock h fun _ l hl => ?_)))
  subst hl
  dsimp only
  split
  · next at' => exact absurd at' free
  · next at' => exact absurd at' still
  · exact ⟨rfl, rfl⟩

theorem lockRests_restState (h : LockRests o P x b s) : LockRests o P x b (restState p s) :=
  lockRests_ite (lockRests_setSup h)
    (lockRests_ite (lockRests_requestUnlock free still (lockRests_setSup h)) (lockRests_setSup h))

/-- A closed session leaves its link without a phase. -/
theorem lockRests_closeSession (h : LockRests o P x b s) (hl : p = o → ∀ v, P v → P { v with phase := .none }) :
    LockRests o P x b (closeSession p s) :=
  have closed := lockRests_ite (c := (linkOf s p).meterOpen = true) (lockRests_onMetOut
    (f := fun m => { m with endDue := some (linkOf s p).session }) h) h
  lockRests_restState free still (lockRests_onLink (lockRests_logEv closed) fun own l => hl own l.start)

theorem lockRests_finishSession_ne (h : LockRests o P x b s) (hp : p ≠ o) : LockRests o P x b (finishSession p s) := by
  have closed : LockRests o P x b (closeSession p s) := lockRests_closeSession free still h fun own => absurd own hp
  exact lockRests_ite (lockRests_limpStart free (lockRests_limpPilot closed hp) hp) closed

theorem lockRests_endSession_ne {cause : Nat} (h : LockRests o P x b s) (hp : p ≠ o) :
    LockRests o P x b (endSession p cause s) := by
  have named {f : Link → Link} : LockRests o P x b (onLink p f s) := lockRests_onLink_ne h hp
  unfold endSession
  dsimp only
  split
  · exact named
  · split
    · exact lockRests_ite (lockRests_onLink_ne named hp) (lockRests_beginPostOpen_ne (lockRests_dropRelease free named) hp)
    · exact lockRests_onLink_ne named hp
    · exact lockRests_onLink_ne named hp
    · exact lockRests_finishSession_ne free still (lockRests_dropRelease free named) hp

/-- The outlet's own session is over: with a cause other than LIMP entry none follows it. -/
theorem lockRests_finishSession (h : LockRests o Final x b s) : LockRests o Unheld x b (finishSession o s) := by
  have closed : LockRests o Final x b (closeSession o s) := lockRests_closeSession free still h fun _ _ hv => hv
  have others : (linkOf s o).endCause ≠ causeLimp := h.link.2
  unfold finishSession
  dsimp only
  rw [if_neg fun limp => others limp.1]
  exact closed.mono And.left

/-- The end of the outlet's own session, for a cause other than LIMP entry and with none ending yet. -/
theorem lockRests_endSession {cause : Nat} (h : LockRests o Steady x b s) (hc : cause ≠ causeLimp) :
    LockRests o Unheld x b (endSession o cause s) := by
  have going : (linkOf s o).ending = false := h.link.2
  have named : LockRests o Final x b (onLink o (fun l => { l with
      endCause := if l.ending then l.endCause else cause, startHeld := false }) s) := by
    refine ⟨(List.length_modify ..).symm ▸ h.len, h.state, h.fb, ?_⟩
    rw [linkOf_onLink_self h.len]
    refine ⟨rfl, ?_⟩
    simpa [Link.start, going] using hc
  have idle := named.mono And.left
  unfold endSession
  dsimp only
  split
  · exact lockRests_onLink (h.mono And.left) fun _ _ _ => rfl
  · split
    · exact lockRests_ite (lockRests_onLink idle fun _ _ hl => hl)
        (lockRests_onLink (lockRests_dropRelease free idle) fun _ _ hl => hl)
    · exact lockRests_onLink idle fun _ _ hl => hl
    · exact lockRests_onLink idle fun _ _ hl => hl
    · exact lockRests_finishSession free still (lockRests_dropRelease free named)

/-! ### Owl's evaluation (R186, R187) -/

theorem lockRests_withdraw_ne (h : LockRests o P x b s) (hp : p ≠ o) : LockRests o P x b (withdraw p s) :=
  lockRests_endSession_ne free still (lockRests_settleContactors free (lockRests_onOwl (lockRests_logEv h))) hp

theorem lockRests_decideRelease_ne (h : LockRests o P x b s) (hp : p ≠ o) : LockRests o P x b (decideRelease p s) := by
  unfold decideRelease
  dsimp only
  refine lockRests_ite (lockRests_ite h (lockRests_withdraw_ne free still h hp)) (lockRests_ite ?_ h)
  exact lockRests_ite (lockRests_ite (lockRests_onLink_ne (lockRests_onOwl h) hp) (lockRests_onOwl h)) (lockRests_onOwl h)

theorem lockRests_decideRelease (h : LockRests o Steady x b s) : LockRests o Unheld x b (decideRelease o s) := by
  have idle := h.mono And.left
  have withdrawn : LockRests o Unheld x b (withdraw o s) :=
    lockRests_endSession free still (lockRests_settleContactors free (lockRests_onOwl (lockRests_logEv h))) (by decide)
  unfold decideRelease
  dsimp only
  refine lockRests_ite (lockRests_ite idle withdrawn) (lockRests_ite (lockRests_ite (lockRests_ite ?_ ?_) ?_) idle)
  · exact lockRests_onLink (lockRests_onOwl idle) fun _ _ hl => hl
  · exact lockRests_onOwl idle
  · exact lockRests_onOwl idle

/-- Each outlet is decided once: up to its own decision its link is open, after it no start is held back. -/
theorem lockRests_decideReleases {l : List Nat} (once : l.Nodup) (h : LockRests o Steady x b s) :
    LockRests o Unheld x b (l.foldl (fun s p => decideRelease p s) s) := by
  induction l generalizing s with
  | nil => exact h.mono And.left
  | cons p l ih =>
    obtain ⟨new, once⟩ := List.nodup_cons.mp once
    by_cases own : p = o
    · subst own
      rw [List.foldl_cons]
      exact lockRests_foldl (lockRests_decideRelease free still h) fun _ q mem h =>
        lockRests_decideRelease_ne free still h (ne_of_mem_of_not_mem mem new)
    · exact ih once (lockRests_decideRelease_ne free still h own)

omit still in
theorem lockRests_releaseHeld (h : LockRests o Unheld x b s) : LockRests o Unheld x b (releaseHeld p s) := by
  by_cases own : p = o
  · subst own
    have idle : (linkOf s p).startHeld = false := h.link
    unfold releaseHeld
    dsimp only
    rwa [if_neg (by simp [idle])]
  · exact lockRests_ite (lockRests_ite (lockRests_onLink_ne h own) (lockRests_runStart free h own)) h

omit still in
theorem lockRests_supTrip {r : TripRec} {v : Int} (h : LockRests o P x b s) : LockRests o P x b (supTrip r v s) := by
  have latched {c m : Nat} {s : State} (h : LockRests o P x b s) : LockRests o P x b (latchTrip c m s) :=
    lockRests_settleAll free (lockRests_onOwl (lockRests_foldl h fun _ _ _ h => lockRests_ite (lockRests_onOwl h) h))
  exact latched (lockRests_onOwl (lockRests_logEv (lockRests_ite (lockRests_onOwl h) h)))

omit still in
theorem lockRests_immediateTrips (h : LockRests o P x b s) : LockRests o P x b (immediateTrips s) :=
  lockRests_foldl h fun _ _ _ h => lockRests_ite (lockRests_supTrip free h) h

theorem lockRests_owlEvaluate (h : LockRests o Steady x b s) : LockRests o Unheld x b (owlEvaluate s) := by
  have tripped : LockRests o Steady x b (immediateTrips (seeGuards s)) := lockRests_immediateTrips free (h.law _ same_seeGuards)
  have judged : LockRests o Steady x b (refreshWithhold (prove (immediateTrips (seeGuards s)))) :=
    (tripped.law _ same_prove).law _ same_refreshWithhold
  have decided := lockRests_decideReleases free still (l := outletList (refreshWithhold (prove (immediateTrips (seeGuards s)))))
    (List.nodup_range.filter _) judged
  exact lockRests_foldl ((decided.law _ same_writeCauses).law _ same_refreshWithhold) fun _ _ _ h => lockRests_releaseHeld free h

/-- The permission table evaluated leaves a lock that rests. -/
theorem lockRests_owlReact (h : LockRests o (fun v => s.owl.state = .run → Steady v) x b s) :
    LockRests o (fun _ => True) x b (owlReact s) := by
  unfold owlReact
  split
  · next run => exact (lockRests_owlEvaluate free still (h.mono fun hl => hl run)).mono fun _ => trivial
  · exact (h.mono fun _ => trivial).law _ same_refreshWithhold

end Free

end Lock

/-! ## The commands of a cable lock (R178) -/

section LockCommands
variable {o k : Nat} {b : Bool} {x : LockState}

/-- The reading itself, before its row of R178. -/
def readLock (o : Nat) (b : Bool) (s : State) : State := onLock o (fun l => { l with fb := b, seen := true }) s

theorem lockOf_readLock (ho : o < s.pwr.locks.length) :
    lockOf (readLock o b s) o = { lockOf s o with fb := b, seen := true } := lockOf_onLock_self ho

theorem readLock_state (ho : o < s.pwr.locks.length) : (lockOf (readLock o b s) o).state = (lockOf s o).state := by
  rw [lockOf_readLock ho]

theorem lockReading_none (ho : o < s.pwr.locks.length) (at' : (lockOf s o).state = .none) :
    lockReading o k b s
      = onLock o (fun l => { l with state := if b then .unlocking else .unlocked }) (readLock o b s) := by
  have read : (lockOf (onLock o (fun l => { l with fb := b, seen := true }) s) o).state = .none := (readLock_state ho).trans at'
  unfold lockReading
  dsimp only
  rw [read]
  rfl

theorem lockReading_locked (ho : o < s.pwr.locks.length) (at' : (lockOf s o).state = .locked) :
    lockReading o k false s = lockLost o k (chOf (readLock o false s) k).state.code (readLock o false s) := by
  have read : (lockOf (onLock o (fun l => { l with fb := false, seen := true }) s) o).state = .locked := (readLock_state ho).trans at'
  unfold lockReading
  dsimp only
  rw [read]
  rfl

theorem lockReading_unlocking (ho : o < s.pwr.locks.length) (at' : (lockOf s o).state = .unlocking) :
    lockReading o k false s = onLock o (fun l => { l with state := .unlocked }) (readLock o false s) := by
  have read : (lockOf (onLock o (fun l => { l with fb := false, seen := true }) s) o).state = .unlocking := (readLock_state ho).trans at'
  unfold lockReading
  dsimp only
  rw [read]
  rfl

theorem lockOf_logEv {c : EvClass} {m i e : Nat} {d : List (Nat × Nat)} : lockOf (logEv c m i e d s) o = lockOf s o := by
  rw [lockOf, logEv_pwr, lockOf]

/-- The instance counts that a lock's commands need. -/
theorem lock_in_range (inv : s.Inv) (ho : o < 4) : o < s.pwr.locks.length ∧ o < s.vlk.length := by
  have locks := (pwr_lengths inv).2
  obtain ⟨-, -, -, -, -, -, links, -⟩ := inv
  exact ⟨locks.symm ▸ ho, links.symm ▸ ho⟩

/-- What the statement of a reading asks of the outlet's session while Owl runs. -/
def SteadyInRun (s : State) (o : Nat) : Prop := s.owl.state = .run → (linkOf s o).startHeld = false ∧ (linkOf s o).ending = false

/-- A lock that a reading has put into state `y`. -/
theorem lockRests_read {y : LockState} (locks : o < s.pwr.locks.length) (links : o < s.vlk.length) (steady : SteadyInRun s o) :
    LockRests o (fun v => s.owl.state = .run → Steady v) y b
      (onLock o (fun l => { l with state := y }) (readLock o b s)) := by
  have len : o < (readLock o b s).pwr.locks.length := (List.length_modify ..).symm ▸ locks
  refine ⟨links, ?_, ?_, fun run => steady run⟩
  · rw [lockOf_onLock_self len]
  · rw [lockOf_onLock_self len, lockOf_readLock locks]

/-- LOCK_FEEDBACK whose reading leaves the lock in a state that Owl's evaluation does not move. -/
theorem lockFeedback_rests (ch : lockChannel s o = some k) (owl : (lockReading o k b s).owl = s.owl) (free : x ≠ .locked)
    (still : x ≠ .locking) (h : LockRests o (fun v => s.owl.state = .run → Steady v) x b (lockReading o k b s)) :
    Answers (.lockFeedback o b) s fun t => (lockOf t o).fb = b ∧ (lockOf t o).state = x := by
  have answers : exec (.lockFeedback o b) s = .next (owlReact (lockReading o k b s)) := by
    change execLockFeedback o b s = _
    unfold execLockFeedback
    rw [ch]
  have rests := lockRests_owlReact free still (s := lockReading o k b s) (by rwa [owl])
  exact ⟨_, answers, rests.fb, rests.state⟩

theorem lockFeedback_first (inv : s.Inv) (ho : o < 4) (ch : lockChannel s o = some k) (at' : (lockOf s o).state = .none)
    (steady : SteadyInRun s o) :
    Answers (.lockFeedback o b) s fun t => (lockOf t o).fb = b ∧ (lockOf t o).state = if b then .unlocking else .unlocked := by
  obtain ⟨locks, links⟩ := lock_in_range inv ho
  have reading := lockReading_none (k := k) (b := b) locks at'
  refine lockFeedback_rests ch (by rw [reading]; rfl) ?_ ?_ (reading ▸ lockRests_read locks links steady)
  · split <;> decide
  · split <;> decide

/-- A lock that is lost, with its event logged and the link's SLAC checked. -/
theorem lockRests_lockLost {c : Nat} {P : LinkStart → Prop}
    (h : LockRests o P .lockLost b (onLock o (fun l => { l with state := .lockLost }) s)) :
    LockRests o P .lockLost b (lockLost o k c s) := by
  unfold lockLost
  exact lockRests_slacCheck (lockRests_logEv h)

theorem lockLost_owl {c : Nat} : (lockLost o k c s).owl = s.owl := part_of_law .owl (same_lockLost o k c) rfl

theorem lockFeedback_lost (inv : s.Inv) (ho : o < 4) (ch : lockChannel s o = some k) (at' : (lockOf s o).state = .locked)
    (steady : SteadyInRun s o) :
    Answers (.lockFeedback o false) s fun t => (lockOf t o).fb = false ∧ (lockOf t o).state = .lockLost := by
  obtain ⟨locks, links⟩ := lock_in_range inv ho
  have reading := lockReading_locked (k := k) locks at'
  refine lockFeedback_rests ch ?_ (by decide) (by decide) ?_
  · rw [reading]
    exact lockLost_owl
  · rw [reading]
    exact lockRests_lockLost (lockRests_read locks links steady)

theorem lockFeedback_unlocked (inv : s.Inv) (ho : o < 4) (ch : lockChannel s o = some k) (at' : (lockOf s o).state = .unlocking)
    (steady : SteadyInRun s o) :
    Answers (.lockFeedback o false) s fun t => (lockOf t o).fb = false ∧ (lockOf t o).state = .unlocked := by
  obtain ⟨locks, links⟩ := lock_in_range inv ho
  have reading := lockReading_unlocking (k := k) locks at'
  exact lockFeedback_rests ch (by rw [reading]; rfl) (by decide) (by decide) (reading ▸ lockRests_read locks links steady)

/-- The watch of a channel writes no lock that is not LOCKED. -/
theorem lockOf_lockWatch {n : Nat} (free : (lockOf s o).state ≠ .locked) : lockOf (lockWatch n s) o = lockOf s o := by
  unfold lockWatch
  split
  · next p _ =>
    split
    · next lost =>
      have other : o ≠ p := by
        rintro rfl
        exact free lost.1
      have pwr : (lockLost p n (chOf s n).state.code s).pwr = (onLock p (fun l => { l with state := .lockLost }) s).pwr :=
        (part_of_law .pwr (same_slacCheck p) rfl).trans logEv_pwr
      rw [lockOf, pwr]
      exact lockOf_onLock_ne other
    · rfl
  · rfl

/-- The demand of a lock's channel writes no lock that is not LOCKED. -/
theorem lockOf_lockDemand {on : Bool} (free : (lockOf s o).state ≠ .locked) : lockOf (lockDemand o on s) o = lockOf s o := by
  have settled {n : Nat} {s : State} (free : (lockOf s o).state ≠ .locked) : lockOf (settleCh n s) o = lockOf s o := by
    obtain stays | ⟨st, takes⟩ := settleCh_eq_or (n := n) (s := s)
    · rw [stays]
    · rw [takes]
      exact lockOf_lockWatch free
  unfold lockDemand
  split
  · exact settled free
  · rfl

theorem lockTimeout_locking (inv : s.Inv) (ho : o < 4) (ch : lockChannel s o = some k) (at' : (lockOf s o).state = .locking)
    (runs : (lockOf s o).pause = false) :
    Answers (.lockTimeout o) s fun t =>
      ((lockOf s o).second = true → (lockOf t o).state = .lockFail)
        ∧ ((lockOf s o).second = false → (lockOf t o).state = .locking ∧ (lockOf t o).pause = true) := by
  obtain ⟨-, -, inv'⟩ := kept_lockDemand o false (kept_start fun _ : True => inv)
  have len : o < (lockDemand o false s).pwr.locks.length := (lock_in_range (inv' trivial) ho).1
  have kept : (lockOf (lockDemand o false s) o).state = .locking := by rw [lockOf_lockDemand (by simp [at']), at']
  refine ⟨_, rfl, ?_⟩
  rw [ch]
  dsimp only
  rw [at']
  dsimp only
  rw [if_neg (by simp [runs])]
  constructor
  · intro second
    rw [if_pos second, lockOf_logEv, lockOf_onLock_self len]
  · intro first
    rw [if_neg (by simp [first]), lockOf_onLock_self len]
    exact ⟨kept, rfl⟩

theorem lockTimeout_unlocking (inv : s.Inv) (ho : o < 4) (ch : lockChannel s o = some k)
    (at' : (lockOf s o).state = .unlocking) :
    Answers (.lockTimeout o) s fun t => (lockOf t o).state = .lockStuck := by
  refine ⟨_, rfl, ?_⟩
  rw [ch]
  dsimp only
  rw [at']
  dsimp only
  rw [lockOf_logEv, lockOf_onLock_self (lock_in_range inv ho).1]

theorem lockRetry_begins (inv : s.Inv) (ho : o < 4) (at' : (lockOf s o).state = .locking) (pause : (lockOf s o).pause = true) :
    Answers (.lockRetry o) s fun t =>
      (lockOf t o).state = .locking ∧ (lockOf t o).second = true ∧ (lockOf t o).pause = false := by
  have begun : lockOf (onLock o (fun l => { l with second := true, pause := false }) s) o
      = { lockOf s o with second := true, pause := false } := lockOf_onLock_self (lock_in_range inv ho).1
  refine ⟨_, congrArg Host.Outcome.next (if_pos ⟨at', pause⟩), ?_⟩
  dsimp only
  rw [lockOf_lockDemand (by rw [begun, at']; decide), begun]
  exact ⟨at', rfl, rfl⟩

end LockCommands

/-- Settles O17: FLT and Owl record a weld result before the supervisor goes on, which writes neither; a lock that a reading
leaves neither LOCKED nor LOCKING stays there through Owl's evaluation, as no session starts on its outlet. -/
theorem weldAndLockCommandsEffect : Obligations.WeldAndLockCommandsEffect := by
  unfold Obligations.WeldAndLockCommandsEffect
  exact ⟨fun s o i x => preCloseResult_records, fun s o => precloseRetry_checks, fun s o i x => postOpenResult_records,
    fun s r o _ => weldClear_ends, fun s o k b => lockFeedback_first, fun s o k => lockFeedback_lost,
    fun s o k => lockFeedback_unlocked, fun s o k => lockTimeout_locking, fun s o k => lockTimeout_unlocking,
    fun s o => lockRetry_begins⟩

end Sys2Proof.Machine
end

section
/-! PROOFS. The statements of 06_owl_safety.md: who releases an outlet (R186-R188, R225), Owl's cycle, trips, guards, diagnostics
and states (R184-R196), the safety password and its log (R199-R203), and Efdom frames and connections (R204-R210). -/

namespace Sys2Proof.Machine

variable {s t : State}

/-! ## Releases (R186, R187) -/

/-- The commands that evaluate the permission table: Owl's cycle and a change of a hardwired input (R186). -/
def evaluatesTable : Instr → Bool
  | .owlCycle => true
  | .lockFeedback _ _ => true
  | .guardInputChange _ _ => true
  | .guardDisagree _ _ => true
  | _ => false

/-- No command takes a mark back or, where it does not evaluate the permission table, releases an outlet beyond the marks: by
the lemma of its meaning (Laws/Marked*). -/
theorem marked_exec {m : Marks} (c : Instr) (free : evaluatesTable c = true → ∀ o, m.released o) (h : Marked m s) :
    MarkedO m (exec c s) :=
  match c, free with
  | .supplyGood x, _ => marked_execSupplyGood x h
  | .boot x, _ => marked_execBoot x h
  | .cacheLoaded, _ => marked_execCacheLoaded h
  | .warrenActivate x, _ => marked_execWarrenActivate x h
  | .laneSampleWord x y, _ => marked_execLaneSampleWord x y h
  | .laneStuck x y, _ => marked_execLaneStuck x y h
  | .laneClkerr x, _ => marked_execLaneClkerr x h
  | .resamplerCycle x y, _ => marked_execResamplerCycle x y h
  | .detectorUpdate x y z, _ => marked_execDetectorUpdate x y z h
  | .firdataWrite x y, _ => marked_execFirdataWrite x y h
  | .firSwap x, _ => marked_execFirSwap x h
  | .laneTrialWrite x y, _ => marked_execLaneTrialWrite x y h
  | .laneCalWrite x y z, _ => marked_execLaneCalWrite x y z h
  | .laneSuspect x, _ => marked_execLaneSuspect x h
  | .warmupDecision x y z, _ => marked_execWarmupDecision x y z h
  | .laneSwap x, _ => marked_execLaneSwap x h
  | .spareFailed x y, _ => marked_execSpareFailed x y h
  | .laneFailed x y, _ => marked_execLaneFailed x y h
  | .strikeExpiry x, _ => marked_execStrikeExpiry x h
  | .laneRestore x y, _ => marked_execLaneRestore x y h
  | .intervalClose x y, _ => marked_execIntervalClose x y h
  | .saveComplete, _ => marked_execSaveComplete h
  | .snapshotSigned, _ => marked_execSnapshotSigned h
  | .sramScrub x, _ => marked_execSramScrub x h
  | .metCoreReload, _ => marked_execMetCoreReload h
  | .pulseTimer x, _ => marked_execPulseTimer x h
  | .snapctlTake x, _ => marked_execSnapctlTake x h
  | .calctlStart x, _ => marked_execCalctlStart x h
  | .calctlStop, _ => marked_execCalctlStop h
  | .energyLoRead x y z, _ => marked_execEnergyLoRead x y z h
  | .harmLoRead x, _ => marked_execHarmLoRead x h
  | .calAccLoRead x y z, _ => marked_execCalAccLoRead x y z h
  | .legalEventConfirm x, _ => marked_execLegalEventConfirm x h
  | .bilLoRead x y, _ => marked_execBilLoRead x y h
  | .calLoad x y, _ => marked_execCalLoad x y h
  | .tokenEnter x y, _ => marked_execTokenEnter x y h
  | .billSnapRead x y, _ => marked_execBillSnapRead x y h
  | .billReset x, _ => marked_execBillReset x h
  | .loadProfileRecord, _ => marked_execLoadProfileRecord h
  | .tokenMirrorConfirm x, _ => marked_execTokenMirrorConfirm x h
  | .lsDemandChange x, _ => marked_execLsDemandChange x h
  | .lsOverload x y, _ => marked_execLsOverload x y h
  | .lsInrushEnd x y, _ => marked_execLsInrushEnd x y h
  | .lsRetryTimer x, _ => marked_execLsRetryTimer x h
  | .lsRetryReset x, _ => marked_execLsRetryReset x h
  | .lsThermalLatch x y, _ => marked_execLsThermalLatch x y h
  | .lsLatchAutoclear x y, _ => marked_execLsLatchAutoclear x y h
  | .lsUndervoltage x y, _ => marked_execLsUndervoltage x y h
  | .lsUvRecover x y, _ => marked_execLsUvRecover x y h
  | .lsOpenloadOn x y, _ => marked_execLsOpenloadOn x y h
  | .lsOpenloadDiag x y, _ => marked_execLsOpenloadDiag x y h
  | .pwrClear x y z, _ => marked_execPwrClear x y z h
  | .weldClear x y, _ => marked_execWeldClear x y h
  | .limpInputChange x y, _ => marked_execLimpInputChange x y h
  | .fastTrip x y, _ => marked_execFastTrip x y h
  | .supervisedDelayExpiry x y, _ => marked_execSupervisedDelayExpiry x y h
  | .rcEvaluate x y, _ => marked_execRcEvaluate x y h
  | .rcTrip x y, _ => marked_execRcTrip x y h
  | .isoStateSwitch x y, _ => marked_execIsoStateSwitch x y h
  | .isoUnknown x y, _ => marked_execIsoUnknown x y h
  | .preCloseResult x y, _ => marked_execPreCloseResult x y h
  | .postOpenResult x y, _ => marked_execPostOpenResult x y h
  | .lockFeedback x y, free => marked_execLockFeedback x y (free rfl) h
  | .lockTimeout x, _ => marked_execLockTimeout x h
  | .lockRetry x, _ => marked_execLockRetry x h
  | .owlStartComplete, _ => marked_execOwlStartComplete h
  | .owlDiagFail x y, _ => marked_execOwlDiagFail x y h
  | .owlPeriodicDiag x y z, _ => marked_execOwlPeriodicDiag x y z h
  | .owlSafeTimeout, _ => marked_execOwlSafeTimeout h
  | .owlWatchdogExpiry, _ => marked_execOwlWatchdogExpiry h
  | .owlCycle, free => marked_execOwlCycle (free rfl) h
  | .meterOkTimeout x, _ => marked_execMeterOkTimeout x h
  | .guardInputChange x y, free => marked_execGuardInputChange x y (free rfl) h
  | .guardDisagree x y, free => marked_execGuardDisagree x y (free rfl) h
  | .tripAutoclear x y, _ => marked_execTripAutoclear x y h
  | .autoclrExpiry x, _ => marked_execAutoclrExpiry x h
  | .owlPwProve x y, _ => marked_execOwlPwProve x y h
  | .owlPwSet x y z, _ => marked_execOwlPwSet x y z h
  | .owlPwEnd x, _ => marked_execOwlPwEnd x h
  | .owlTripClear x y, _ => marked_execOwlTripClear x y h
  | .owlEfdomSet x y, _ => marked_execOwlEfdomSet x y h
  | .owlLogRead x y, _ => marked_execOwlLogRead x y h
  | .safetySessionExpiry, _ => marked_execSafetySessionExpiry h
  | .pwLockoutEnd, _ => marked_execPwLockoutEnd h
  | .efdomTransmit x, _ => marked_execEfdomTransmit x h
  | .efdomFrameReceive x y, _ => marked_execEfdomFrameReceive x y h
  | .efdomWatchdogExpiry x, _ => marked_execEfdomWatchdogExpiry x h
  | .pilotStateAccepted x y z, _ => marked_execPilotStateAccepted x y z h
  | .pilotFaultHold x y, _ => marked_execPilotFaultHold x y h
  | .pilotModeTransitionEnd x, _ => marked_execPilotModeTransitionEnd x h
  | .vlkPilotWrite x y, _ => marked_execVlkPilotWrite x y h
  | .proximityCode x y, _ => marked_execProximityCode x y h
  | .vlkStart x y, _ => marked_execVlkStart x y h
  | .vlkStop x y z, _ => marked_execVlkStop x y z h
  | .vlkUnlock x y, _ => marked_execVlkUnlock x y h
  | .releaseRetry x, _ => marked_execReleaseRetry x h
  | .precloseRetry x, _ => marked_execPrecloseRetry x h
  | .dcContactorOpen x, _ => marked_execDcContactorOpen x h
  | .overdraw x y z, _ => marked_execOverdraw x y z h
  | .cmSlacParmReq x y, _ => marked_execCmSlacParmReq x y h
  | .cmStartAttenCharInd x y, _ => marked_execCmStartAttenCharInd x y h
  | .cmMnbcSoundInd x y z, _ => marked_execCmMnbcSoundInd x y z h
  | .soundingWindowEnd x, _ => marked_execSoundingWindowEnd x h
  | .cmAttenCharRsp x y, _ => marked_execCmAttenCharRsp x y h
  | .attenCharResend x, _ => marked_execAttenCharResend x h
  | .cmValidateReq x y z, _ => marked_execCmValidateReq x y z h
  | .validationWindowEnd x y, _ => marked_execValidationWindowEnd x y h
  | .cmSlacMatchReq x y, _ => marked_execCmSlacMatchReq x y h
  | .slacJoined x, _ => marked_execSlacJoined x h
  | .slacTimeout x y, _ => marked_execSlacTimeout x y h
  | .slacLinkLost x, _ => marked_execSlacLinkLost x h
  | .frameTxTailWrite x y, _ => marked_execFrameTxTailWrite x y h
  | .frameRxTailWrite x y, _ => marked_execFrameRxTailWrite x y h
  | .frameTransmitted x y, _ => marked_execFrameTransmitted x y h
  | .frameTxTimeout x, _ => marked_execFrameTxTimeout x h
  | .frameReceived x y, _ => marked_execFrameReceived x y h
  | .glkBeacon x, _ => marked_execGlkBeacon x h
  | .ccAssocCnf x y, _ => marked_execCcAssocCnf x y h
  | .nekReceived x, _ => marked_execNekReceived x h
  | .glkAssocTimeout, _ => marked_execGlkAssocTimeout h
  | .glkBackoffExpiry, _ => marked_execGlkBackoffExpiry h
  | .glkBeaconLoss, _ => marked_execGlkBeaconLoss h
  | .glkLeaseRenew, _ => marked_execGlkLeaseRenew h
  | .glkCfgWrite x, _ => marked_execGlkCfgWrite x h
  | .neighbourExpiry x, _ => marked_execNeighbourExpiry x h
  | .toneMapReceived x y, _ => marked_execToneMapReceived x y h
  | .toneMapTimeout x y, _ => marked_execToneMapTimeout x y h
  | .toneMapReestimate x, _ => marked_execToneMapReestimate x h
  | .sackReceived x, _ => marked_execSackReceived x h
  | .msduLifetimeExpiry, _ => marked_execMsduLifetimeExpiry h
  | .reassemblyTimeout x, _ => marked_execReassemblyTimeout x h
  | .glkZcIndSend, _ => marked_execGlkZcIndSend h
  | .glkZcInd x y, _ => marked_execGlkZcInd x y h
  | .glkWakeInd x, _ => marked_execGlkWakeInd x h
  | .wakeInhibitEnd, _ => marked_execWakeInhibitEnd h
  | .ethLinkPoll x y z, _ => marked_execEthLinkPoll x y z h
  | .backhaulFailover, _ => marked_execBackhaulFailover h
  | .ethMdioGo x, _ => marked_execEthMdioGo x h
  | .ethMdioDone x, _ => marked_execEthMdioDone x h
  | .secondBoundary, _ => marked_execSecondBoundary h
  | .domainHoldoverExpiry x, _ => marked_execDomainHoldoverExpiry x h
  | .slewComplete x y, _ => marked_execSlewComplete x y h
  | .rtcCalibration x, _ => marked_execRtcCalibration x h
  | .alarmFire, _ => marked_execAlarmFire h
  | .timSet x y z, _ => marked_execTimSet x y z h
  | .timOffset x y z, _ => marked_execTimOffset x y z h
  | .timSelect x y, _ => marked_execTimSelect x y h
  | .timIncWrite x y, _ => marked_execTimIncWrite x y h
  | .timAlarmHiWrite x, _ => marked_execTimAlarmHiWrite x h
  | .timPtpfPop, _ => marked_execTimPtpfPop h
  | .timNowLoRead x, _ => marked_execTimNowLoRead x h
  | .timDomTsLoRead x y, _ => marked_execTimDomTsLoRead x y h
  | .timBcnTsLoRead x, _ => marked_execTimBcnTsLoRead x h
  | .timStatusRead x, _ => marked_execTimStatusRead x h
  | .fieldDetection, _ => marked_execFieldDetection h
  | .fullPoll x, _ => marked_execFullPoll x h
  | .tagHoldExpiry, _ => marked_execTagHoldExpiry h
  | .limpHitExpiry, _ => marked_execLimpHitExpiry h
  | .tagXfer x y z, _ => marked_execTagXfer x y z h
  | .tagRelease x, _ => marked_execTagRelease x h
  | .tagCachePut x y, _ => marked_execTagCachePut x y h
  | .tagCacheDel x y, _ => marked_execTagCacheDel x y h
  | .tagCacheGet x y, _ => marked_execTagCacheGet x y h
  | .tagCacheClear x, _ => marked_execTagCacheClear x h
  | .cacheMirror, _ => marked_execCacheMirror h
  | .tagCtSecure x, _ => marked_execTagCtSecure x h
  | .tagCtOpen x, _ => marked_execTagCtOpen x h
  | .tagCtPublish x y, _ => marked_execTagCtPublish x y h
  | .tagCtAdopt x, _ => marked_execTagCtAdopt x h
  | .tagRptPop, _ => marked_execTagRptPop h
  | .tagStatusRead x, _ => marked_execTagStatusRead x h
  | .ctReadBlock x y, _ => marked_execCtReadBlock x y h
  | .ctWriteSingleBlock x y z u, _ => marked_execCtWriteSingleBlock x y z u h
  | .ctGetChallenge, _ => marked_execCtGetChallenge h
  | .ctAuthWrite x y z u v, _ => marked_execCtAuthWrite x y z u v h
  | .ctFieldChange x y z, _ => marked_execCtFieldChange x y z h
  | .epdUpdate x y z u, _ => marked_execEpdUpdate x y z u h
  | .epdFrame, _ => marked_execEpdFrame h
  | .legalDwell, _ => marked_execLegalDwell h
  | .epdTempWrite x, _ => marked_execEpdTempWrite x h
  | .epdStop, _ => marked_execEpdStop h
  | .crackLoopMeasure x y, _ => marked_execCrackLoopMeasure x y h
  | .ledStep x, _ => marked_execLedStep x h
  | .ledOpen x y, _ => marked_execLedOpen x y h
  | .keyUpdate x y, _ => marked_execKeyUpdate x y h
  | .keyAttest x y, _ => marked_execKeyAttest x y h
  | .keyCertRead x, _ => marked_execKeyCertRead x h
  | .keyChallenge x, _ => marked_execKeyChallenge x h
  | .keyMaintProve x y, _ => marked_execKeyMaintProve x y h
  | .keyZeroise x y, _ => marked_execKeyZeroise x y h
  | .maintGrantExpiry, _ => marked_execMaintGrantExpiry h
  | .maintAuthorityExpiry x y, _ => marked_execMaintAuthorityExpiry x y h
  | .tamperDetect x, _ => marked_execTamperDetect x h
  | .keyCntLoRead x, _ => marked_execKeyCntLoRead x h
  | .keyStatusRead x, _ => marked_execKeyStatusRead x h
  | .updBegin x y, _ => marked_execUpdBegin x y h
  | .updData x y z, _ => marked_execUpdData x y z h
  | .updEnd x, _ => marked_execUpdEnd x h
  | .updAbort x, _ => marked_execUpdAbort x h
  | .updTransferTimeout, _ => marked_execUpdTransferTimeout h
  | .updActivate x y, _ => marked_execUpdActivate x y h
  | .updConfirm x, _ => marked_execUpdConfirm x h
  | .trialPass, _ => marked_execTrialPass h
  | .trialFail x, _ => marked_execTrialFail x h
  | .badgerWatchdogExpiry, _ => marked_execBadgerWatchdogExpiry h
  | .appHeartbeatTimeout x, _ => marked_execAppHeartbeatTimeout x h
  | .mgtAmbHbWrite x, _ => marked_execMgtAmbHbWrite x h
  | .mailboxDoorbell x, _ => marked_execMailboxDoorbell x h
  | .monitorEvaluate x, _ => marked_execMonitorEvaluate x h
  | .clockFail x, _ => marked_execClockFail x h
  | .logArchiveFlush x, _ => marked_execLogArchiveFlush x h
  | .mgtLogRead x y z, _ => marked_execMgtLogRead x y z h
  | .mgtLogAck x y, _ => marked_execMgtLogAck x y h
  | .mgtRestart x, _ => marked_execMgtRestart x h
  | .sleep x y, _ => marked_execSleep x y h
  | .sleepVoteTimeout x, _ => marked_execSleepVoteTimeout x h
  | .sleepCommit, _ => marked_execSleepCommit h
  | .sleepArm, _ => marked_execSleepArm h
  | .sleepEnter, _ => marked_execSleepEnter h
  | .wakeEvent x y, _ => marked_execWakeEvent x y h
  | .modeSet x y, _ => marked_execModeSet x y h
  | .limpExit, _ => marked_execLimpExit h
  | .sysWakeWrite x, _ => marked_execSysWakeWrite x h
  | .sysWakesrcRead x, _ => marked_execSysWakesrcRead x h
  | .registerWrite x y z, _ => marked_execRegisterWrite x y z h
  | .bufferWrite x y z, _ => marked_execBufferWrite x y z h
  | .hsiTransactionError x, _ => marked_execHsiTransactionError x h
  | .hsiFrameTimeout, _ => marked_execHsiFrameTimeout h
  | .ctailWrite x y, _ => marked_execCtailWrite x y h
  | .hsiReleaseWrite x y, _ => marked_execHsiReleaseWrite x y h
  | .resultSlotRead x y, _ => marked_execResultSlotRead x y h
  | .badgerCommandTimeout x, _ => marked_execBadgerCommandTimeout x h
  | .hsiNop x y, _ => marked_execHsiNop x y h
  | .canStuck x y, _ => marked_execCanStuck x y h
  | .canBusoffRecovery x y, _ => marked_execCanBusoffRecovery x y h
  | .canErrorStateChange x y z, _ => marked_execCanErrorStateChange x y z h
  | .powerFailWarning x y z, _ => marked_execPowerFailWarning x y z h
  | .holdupComplete x, _ => marked_execHoldupComplete x h
  | .rstNAssert x, _ => marked_execRstNAssert x h
  | .brownout x, _ => marked_execBrownout x h
  | .vbatPor, _ => marked_execVbatPor h
  | .sysRstreqWrite x, _ => marked_execSysRstreqWrite x h
  | .requestedReset, _ => marked_execRequestedReset h
  | .warrenActivationComplete, _ => marked_execWarrenActivationComplete h
  | .metFirmwareReloaded, _ => marked_execMetFirmwareReloaded h
  | .badgerReady, _ => marked_execBadgerReady h
  | .ledOvertemp x y, _ => marked_execLedOvertemp x y h
  | .fastTapWord x y, _ => marked_execFastTapWord x y h
  | .reducedFieldMeasurement x, _ => marked_execReducedFieldMeasurement x h
  | .modulatorClockReturn x, _ => marked_execModulatorClockReturn x h

/-- The marks that a state itself shows, beside which a command is held. -/
def marksShown (s : State) : Marks :=
  { seq := s.mgt.seq, counter := s.key.counter, retired := s.key.retiredFuse, left := s.key.leftBlank,
    floors := floorOf s.upd, released := fun o => flag s.owl.released o = true }

theorem marked_marksShown : Marked (marksShown s) s :=
  ⟨le_rfl, ⟨le_rfl, id, id⟩, ⟨fun _ => le_rfl⟩, ⟨fun _ => id⟩⟩

/-- Settles O6: the releases of a state are marks that every command without the permission table keeps; a tick writes the time
base alone. -/
theorem onlyOwlsCycleReleasesAnOutlet : Obligations.OnlyOwlsCycleReleasesAnOutlet := by
  unfold Obligations.OnlyOwlsCycleReleasesAnOutlet
  refine ⟨?command, ?tick⟩
  case command =>
    intro c s t cycle lock guard disagree ends o
    have silent : evaluatesTable c = false := by
      unfold evaluatesTable
      split
      · exact absurd rfl cycle
      · exact absurd rfl (lock _ _)
      · exact absurd rfl (guard _ _)
      · exact absurd rfl (disagree _ _)
      · rfl
    obtain ⟨-, -, -, owl⟩ := marked_exec c (fun evaluates => absurd (silent.symm.trans evaluates) nofun) marked_marksShown t ends
    exact owl.released o
  case tick =>
    intro s t empty ends
    unfold step at ends
    rw [empty] at ends
    cases ends
    exact congrArg OwlBlock.released (part_of_law .owl same_tick rfl)

/-! ## Owl's counts, configuration and change log (R199, R203, R211) -/

/-- Releases and requests of 4 outlets, and 8 Efdom connections. -/
theorem owl_lengths (inv : s.Inv) : s.owl.released.length = 4 ∧ s.owl.requested.length = 4 ∧ s.owl.efd.length = 8 := by
  obtain ⟨-, -, -, -, -, shape, -⟩ := inv
  simpa [OwlBlock.shape] using shape

@[simp] theorem owlCfg_onCfg {f : OwlCfg → OwlCfg} : owlCfg (onCfg f s) = f (owlCfg s) := get_onCfg

/-- What leaves Owl's block leaves its configuration. -/
theorem owlCfg_congr (owl : t.owl = s.owl) : owlCfg t = owlCfg s := by rw [owlCfg, owlCfg, owl]

@[simp] theorem owlCfg_logEv {c : EvClass} {b i k : Nat} {d : List (Nat × Nat)} : owlCfg (logEv c b i k d s) = owlCfg s :=
  owlCfg_congr logEv_owl

@[simp] theorem owlCfg_postSts {r : Req} {sts : Nat} : owlCfg (postSts r sts s) = owlCfg s := owlCfg_congr postSts_owl

/-- A change-log entry writes the log and its number, and nothing else of Owl. -/
theorem owl_changeEntry {k src old new : Nat} {d d' : Bytes} :
    (changeEntry k src old new d d' s).owl = { s.owl with
      logSeq := s.owl.logSeq + 1, log := (changeEntry k src old new d d' s).owl.log } := by
  unfold changeEntry
  rw [logEv_owl]
  rfl

@[simp] theorem owlCfg_changeEntry {k src old new : Nat} {d d' : Bytes} :
    owlCfg (changeEntry k src old new d d' s) = owlCfg s := by rw [owlCfg, owl_changeEntry, owlCfg]

/-! ## The safety password (R201, R202, R210) -/

section Password
variable {r : Req} {pw old new : Bytes}

theorem not_retired (h : s.key.lc ≠ .retired) : retired s = false := beq_false_of_ne h

/-- A counted failure is counted in the configuration, whose verifier stands. -/
theorem owlCfg_pwFail : (owlCfg (pwFail r s)).fails = satInc 8 (owlCfg s).fails
    ∧ (owlCfg (pwFail r s)).verifier = (owlCfg s).verifier := by
  unfold pwFail
  extract_lets n failed len
  split
  · simp [failed, n]
  · simp [failed, n]

theorem session_pwFail : (pwFail r s).owl.session = s.owl.session := by
  unfold pwFail
  extract_lets n failed len
  have counted : failed.owl.session = s.owl.session := by
    dsimp only [failed]
    rw [logEv_owl]
    rfl
  split
  · rw [logEv_owl]
    exact counted
  · exact counted

/-- The stored verifier is a hash of the new password under a fresh salt of 16 bytes. -/
theorem setVerifier_stores : ∃ salt : Bytes, salt.length = 16
    ∧ (owlCfg (setVerifier new s)).verifier = some { salt := salt, hash := Config.pbkdf2 salt new } := by
  refine ⟨freeBytes s 16, ?_, ?_⟩
  · simp only [freeBytes, fit, zeros, List.length_append, List.length_take, List.length_replicate]
    omega
  · exact congrArg OwlCfg.verifier owlCfg_onCfg

/-- OWL_PW_PROVE past its checks compares the password. -/
theorem exec_owlPwProve_allowed (low : 8 ≤ pw.length) (high : pw.length ≤ 64) (live : s.key.lc ≠ .retired)
    (stored : (owlCfg s).verifier.isSome = true) (free : lockedOut s = false) :
    exec (.owlPwProve r pw) s = .next (if pwMatches s pw then
        postSts r stsOk (onOwl (fun b => { b with session := some { side := r.side, endTick := s.ticks + msTicks 600000 } })
          (pwSuccess s))
      else postSts r stsAuthFail (pwFail r s)) := by
  have kept : (owlCfg s).verifier.isNone = false := by rw [← Option.not_isSome, stored, Bool.not_true]
  refine congrArg Host.Outcome.next (guarded_ok ?_)
  simp [firstFail, inRange, low, high, not_retired live, kept, free]

theorem owlPwProve_proves (low : 8 ≤ pw.length) (high : pw.length ≤ 64) (live : s.key.lc ≠ .retired)
    (stored : (owlCfg s).verifier.isSome = true) (free : lockedOut s = false) :
    Answers (.owlPwProve r pw) s fun t =>
      (pwMatches s pw = true → Posted t r stsOk [] ∧ (owlCfg t).fails = 0 ∧
        t.owl.session = some { side := r.side, endTick := s.ticks + msTicks 600000 })
      ∧ (pwMatches s pw = false → Posted t r stsAuthFail [] ∧ t.owl.session = s.owl.session
        ∧ (owlCfg t).fails = satInc 8 (owlCfg s).fails) := by
  refine ⟨_, exec_owlPwProve_allowed low high live stored free, fun right => ?right, fun wrong => ?wrong⟩
  case right =>
    rw [if_pos right]
    have cleared : (owlCfg (pwSuccess s)).fails = 0 := congrArg OwlCfg.fails owlCfg_onCfg
    exact ⟨posted_postSts, by rw [owlCfg_postSts]; exact cleared, by rw [postSts_owl]; rfl⟩
  case wrong =>
    rw [if_neg (by simp [wrong])]
    exact ⟨posted_postSts, by rw [postSts_owl, session_pwFail], by rw [owlCfg_postSts, owlCfg_pwFail.1]⟩

/-- OWL_PW_SET past its checks asks for the old password where one is set. -/
theorem exec_owlPwSet_allowed (short : old.length ≤ 64) (low : 8 ≤ new.length) (high : new.length ≤ 64)
    (live : s.key.lc ≠ .retired) (free : lockedOut s = false) :
    exec (.owlPwSet r old new) s = .next (if (owlCfg s).verifier.isSome ∧ pwMatches s old = false then
        postSts r stsAuthFail (pwFail r s)
      else postSts r stsOk (changeEntry (if (owlCfg s).verifier.isSome then 3 else 2) (sideCode r.side) 0 0 [] []
        (setVerifier new (pwSuccess s)))) := by
  refine congrArg Host.Outcome.next (guarded_ok ?_)
  simp [firstFail, inRange, short, low, high, not_retired live, free]

/-- Where the old password is not missed, the new one is stored. -/
theorem owlPwSet_stores (short : old.length ≤ 64) (low : 8 ≤ new.length) (high : new.length ≤ 64)
    (live : s.key.lc ≠ .retired) (free : lockedOut s = false)
    (right : ¬ ((owlCfg s).verifier.isSome = true ∧ pwMatches s old = false)) :
    Answers (.owlPwSet r old new) s fun t => Posted t r stsOk [] ∧
      ∃ salt : Bytes, salt.length = 16 ∧ (owlCfg t).verifier = some { salt := salt, hash := Config.pbkdf2 salt new } := by
  refine ⟨_, exec_owlPwSet_allowed short low high live free, ?_⟩
  rw [if_neg right]
  refine ⟨posted_postSts, ?_⟩
  rw [owlCfg_postSts, owlCfg_changeEntry]
  exact setVerifier_stores

theorem owlPwSet_refuses (short : old.length ≤ 64) (low : 8 ≤ new.length) (high : new.length ≤ 64)
    (live : s.key.lc ≠ .retired) (free : lockedOut s = false)
    (wrong : (owlCfg s).verifier.isSome = true ∧ pwMatches s old = false) :
    Answers (.owlPwSet r old new) s fun t => Posted t r stsAuthFail [] ∧ (owlCfg t).verifier = (owlCfg s).verifier := by
  refine ⟨_, exec_owlPwSet_allowed short low high live free, ?_⟩
  rw [if_pos wrong]
  exact ⟨posted_postSts, by rw [owlCfg_postSts, owlCfg_pwFail.2]⟩

theorem owlPwEnd_ends (live : s.key.lc ≠ .retired) (mine : hasSession s r.side = true) :
    Answers (.owlPwEnd r) s fun t => Posted t r stsOk [] ∧ t.owl.session = none := by
  have allowed : firstFail [(retired s, stsLifecycle), (!hasSession s r.side, stsState)] = stsOk := by
    simp [firstFail, not_retired live, mine]
  exact ⟨_, congrArg Host.Outcome.next (guarded_ok allowed), posted_postSts, by rw [postSts_owl]; rfl⟩

theorem owlLogRead_posts {i : Nat} {e : Bytes} (entry : s.owl.log[i]? = some e) (crc : leAt 60 4 e = crc32c (e.take 60)) :
    Answers (.owlLogRead r i) s fun t => Posted t r stsOk e ∧ t.owl = s.owl := by
  have read : s.owl.log.getD i [] = e := by rw [List.getD_eq_getElem?_getD, entry, Option.getD_some]
  obtain ⟨stored, -⟩ := List.getElem?_eq_some_iff.mp entry
  have allowed : firstFail [(decide (s.owl.log.length ≤ i), stsLengthRange),
      (leAt 60 4 (s.owl.log.getD i []) != crc32c ((s.owl.log.getD i []).take 60), stsIntegrity)] = stsOk := by
    rw [read]
    simp [firstFail, crc, stored]
  refine ⟨_, congrArg Host.Outcome.next (guarded_ok allowed), ?_, post_owl⟩
  rw [read]
  exact post_result

end Password

/-- Settles O19: past its checks each command is one comparison with the stored verifier; a failure writes the count and the
lockout alone, a success stores what the command names. -/
theorem safetyPasswordCommandsEffect : Obligations.SafetyPasswordCommandsEffect := by
  unfold Obligations.SafetyPasswordCommandsEffect
  refine ⟨fun s r pw => owlPwProve_proves, ?first, ?change, fun s r => owlPwEnd_ends, fun s => rfl,
    fun s => ⟨_, rfl, owlCfg_onCfg⟩, fun s r i e => owlLogRead_posts⟩
  case first =>
    intro s r old new short low high live unset free
    exact owlPwSet_stores short low high live free (by simp [unset])
  case change =>
    intro s r old new short low high live stored free
    cases right : pwMatches s old with
    | true =>
      obtain ⟨t, ends, posted, salt, -, verifier⟩ := owlPwSet_stores (r := r) short low high live free (by simp [right])
      exact ⟨t, ends, fun _ => ⟨posted, salt, verifier⟩, nofun⟩
    | false =>
      obtain ⟨t, ends, posted, verifier⟩ := owlPwSet_refuses (r := r) short low high live free ⟨stored, right⟩
      exact ⟨t, ends, nofun, fun _ => ⟨posted, verifier⟩⟩

/-! ## Efdom connections -/

section Efdom
variable {c k n : Nat} {f : EfdomConn → EfdomConn} {p : Bytes}

theorem connOf_onConn_self (h : c < s.owl.efd.length) : connOf (onConn c f s) c = f (connOf s c) := upd_getD_self h

/-- A view of the connections that an update keeps. -/
theorem connOf_onConn_keeps {α : Type} {v : EfdomConn → α} (hf : ∀ x, v (f x) = v x) :
    v (connOf (onConn k f s) c) = v (connOf s c) :=
  upd_getD_rel (R := fun x y => v y = v x) (fun _ => rfl) hf

theorem efd_length_onConn : (onConn c f s).owl.efd.length = s.owl.efd.length := List.length_modify ..

theorem connOf_congr (owl : t.owl = s.owl) : connOf t c = connOf s c := by rw [connOf, connOf, owl]

theorem connOf_setConn_self {st : EfdomState} (h : c < s.owl.efd.length) :
    connOf (setConn c st k s) c = { connOf s c with state := st } :=
  (connOf_congr logEv_owl).trans (connOf_onConn_self h)

/-! ### Receiving (R208, R209) -/

/-- What a frame of its peer moves of a connection: its state, its number and its safe word. -/
def frameView (x : EfdomConn) : EfdomState × Nat × Nat := (x.state, x.lastSeq, x.safeWord)

/-- A frame that names no connection moves none: it is counted at one of the transport's. -/
theorem frameView_countAnon (hf : ∀ x, frameView (f x) = frameView x) :
    frameView (connOf (countAnon k f s) c) = frameView (connOf s c) := by
  unfold countAnon
  split
  · rfl
  · exact connOf_onConn_keeps hf

/-- Row 3: the frame check. -/
theorem efdomReceive_wrongFcrc (run : s.owl.state = .run) (sized : efdomSized p = true) (format : efdomFormat p = true)
    (wrong : beNat (slice (0x1C + byteAt 3 p) 4 p) ≠ fcrc (p.take (0x1C + byteAt 3 p))) :
    efdomReceive k p s = countAnon k (fun x => { x with crc := satInc 8 x.crc }) s := by
  unfold efdomReceive
  dsimp only
  rw [if_neg (by simp [run]), if_neg (by simp [sized]), if_neg (by simp [format]), if_pos wrong]

theorem efdomFrameReceive_wrongFcrc (run : s.owl.state = .run) (sized : efdomSized p = true) (format : efdomFormat p = true)
    (wrong : beNat (slice (0x1C + byteAt 3 p) 4 p) ≠ fcrc (p.take (0x1C + byteAt 3 p))) :
    Answers (.efdomFrameReceive k p) s fun t => ∀ c, (connOf t c).state = (connOf s c).state
      ∧ (connOf t c).lastSeq = (connOf s c).lastSeq ∧ (connOf t c).safeWord = (connOf s c).safeWord := by
  refine ⟨_, congrArg Host.Outcome.next (efdomReceive_wrongFcrc run sized format wrong), fun c => ?_⟩
  have view := frameView_countAnon (s := s) (c := c) (k := k) (f := fun x => { x with crc := satInc 8 x.crc }) fun _ => rfl
  simp only [frameView, Prod.mk.injEq] at view
  exact view

/-- Rows 1-5 passed: the frame goes to the connection of its peer. -/
theorem efdomReceive_known (run : s.owl.state = .run) (sized : efdomSized p = true) (format : efdomFormat p = true)
    (sound : beNat (slice (0x1C + byteAt 3 p) 4 p) = fcrc (p.take (0x1C + byteAt 3 p)))
    (mine : leAt 0x10 8 p = s.ident.deviceId)
    (peer : (receivers s k).find? (fun c => (connRec s c).peer == leAt 8 8 p) = some c) :
    efdomReceive k p s = receiveOn c p s := by
  unfold efdomReceive
  dsimp only
  rw [if_neg (by simp [run]), if_neg (by simp [sized]), if_neg (by simp [format]), if_neg (by simp [sound]),
    if_neg (by simp [mine]), peer]

/-- A receive connection is one of eight. -/
theorem receiver_lt (peer : (receivers s k).find? (fun c => (connRec s c).peer == leAt 8 8 p) = some c) : c < 8 :=
  List.mem_range.mp (List.mem_of_mem_filter (List.mem_of_find?_eq_some peer))

/-- Row 8: a START frame of a connection that waits. -/
theorem receiveOn_start (expect : inRange 10 1000 (leAt 0x18 2 p) = true) (waits : (connOf s c).state = .wait)
    (start : byteAt 2 p = 1) : receiveOn c p s = setConn c .sync 8
      (onConn c (fun x => { x with inRow := 1 }) (acceptFrame c (leAt 4 4 p) (leAt 0x1C 4 p) (leAt 0x18 2 p) s)) := by
  unfold receiveOn
  dsimp only
  rw [if_neg (by simp [expect]), if_neg (by simp [start]), if_pos waits]

theorem leNat_lt (bs : Bytes) : leNat bs < 256 ^ bs.length := by
  induction bs with
  | nil => exact Nat.one_pos
  | cons b bs ih =>
    have byte : b.toNat < 256 := b.isLt
    rw [leNat, List.length_cons, pow_succ]
    omega

theorem leAt_lt (o n : Nat) (bs : Bytes) : leAt o n bs < 256 ^ n :=
  (leNat_lt _).trans_le (Nat.pow_le_pow_right (by decide) (List.length_take_le ..))

/-- Row 13: the next number in sequence, for a connection in SYNC with one frame in a row. -/
theorem receiveOn_next (expect : inRange 10 1000 (leAt 0x18 2 p) = true) (sync : (connOf s c).state = .sync)
    (row : (connOf s c).inRow = 1) (next : (connOf s c).lastSeq + 1 = leAt 4 4 p) :
    receiveOn c p s = setConn c .valid 13
      (onConn c (fun x => { x with inRow := x.inRow + 1 })
        (acceptFrame c (leAt 4 4 p) (leAt 0x1C 4 p) (leAt 0x18 2 p) s)) := by
  have small : leAt 4 4 p < 2 ^ 32 := leAt_lt 4 4 p
  have one : (leAt 4 4 p + (2 ^ 32 - 1) - (connOf s c).lastSeq % (2 ^ 32 - 1)) % (2 ^ 32 - 1) = 1 := by omega
  unfold receiveOn
  dsimp only
  rw [one, if_neg (by simp [expect]), if_neg (by simp [sync]), if_neg (by simp [sync]), if_neg (by decide), if_neg (by decide),
    if_neg (by decide), if_neg (by decide), if_pos ⟨sync, by simp [row]⟩]

/-- A frame accepted and its connection in state `st`: it shows the frame's number and safe word. -/
theorem frameView_accepted {st : EfdomState} {g : EfdomConn → EfdomConn} {m seq safe expect : Nat} (h : c < s.owl.efd.length)
    (hg : ∀ x, frameView (g x) = frameView x) :
    frameView (connOf (setConn c st m (onConn c g (acceptFrame c seq safe expect s))) c) = (st, seq, safe) := by
  have len : c < (acceptFrame c seq safe expect s).owl.efd.length := efd_length_onConn.symm ▸ h
  have taken : frameView (connOf (onConn c g (acceptFrame c seq safe expect s)) c) = ((connOf s c).state, seq, safe) := by
    rw [connOf_onConn_self len, hg, acceptFrame, connOf_onConn_self h]
    rfl
  rw [connOf_setConn_self (efd_length_onConn.symm ▸ len)]
  simp only [frameView, Prod.mk.injEq] at taken ⊢
  exact ⟨trivial, taken.2⟩

theorem efdomFrameReceive_accepts (inv : s.Inv) (run : s.owl.state = .run) (sized : efdomSized p = true)
    (format : efdomFormat p = true) (sound : beNat (slice (0x1C + byteAt 3 p) 4 p) = fcrc (p.take (0x1C + byteAt 3 p)))
    (mine : leAt 0x10 8 p = s.ident.deviceId)
    (peer : (receivers s k).find? (fun c => (connRec s c).peer == leAt 8 8 p) = some c)
    (expect : inRange 10 1000 (leAt 0x18 2 p) = true) :
    Answers (.efdomFrameReceive k p) s fun t =>
      ((connOf s c).state = .wait → byteAt 2 p = 1 →
        (connOf t c).state = .sync ∧ (connOf t c).lastSeq = leAt 4 4 p ∧ (connOf t c).safeWord = leAt 0x1C 4 p)
      ∧ ((connOf s c).state = .sync → (connOf s c).inRow = 1 → (connOf s c).lastSeq + 1 = leAt 4 4 p →
        (connOf t c).state = .valid ∧ (connOf t c).lastSeq = leAt 4 4 p ∧ (connOf t c).safeWord = leAt 0x1C 4 p) := by
  have len : c < s.owl.efd.length := (owl_lengths inv).2.2 ▸ receiver_lt peer
  refine ⟨_, congrArg Host.Outcome.next (efdomReceive_known run sized format sound mine peer), fun waits start => ?start,
    fun sync row next => ?next⟩
  case start =>
    have view := frameView_accepted (st := .sync) (g := fun x => { x with inRow := 1 }) (m := 8) (seq := leAt 4 4 p)
      (safe := leAt 0x1C 4 p) (expect := leAt 0x18 2 p) len fun _ => rfl
    simp only [frameView, Prod.mk.injEq] at view
    rw [receiveOn_start expect waits start]
    exact view
  case next =>
    have view := frameView_accepted (st := .valid) (g := fun x => { x with inRow := x.inRow + 1 }) (m := 13)
      (seq := leAt 4 4 p) (safe := leAt 0x1C 4 p) (expect := leAt 0x18 2 p) len fun _ => rfl
    simp only [frameView, Prod.mk.injEq] at view
    rw [receiveOn_next expect sync row next]
    exact view

theorem efdomWatchdogExpiry_waits (inv : s.Inv) (hc : c < 8)
    (synced : (connOf s c).state = .sync ∨ (connOf s c).state = .valid) :
    Answers (.efdomWatchdogExpiry c) s fun t => (connOf t c).state = .wait
      ∧ (connOf t c).timeouts = satInc 8 (connOf s c).timeouts := by
  have len : c < s.owl.efd.length := (owl_lengths inv).2.2 ▸ hc
  refine ⟨_, congrArg Host.Outcome.next (if_pos synced), ?_⟩
  dsimp only
  rw [connOf_setConn_self (efd_length_onConn.symm ▸ len), connOf_onConn_self len]
  exact ⟨rfl, rfl⟩

/-! ### Transmitting (R207) -/

/-- A transport takes a frame without a change of Owl. -/
theorem owl_handOver {rec : EfdomRec} {b : Bytes} : (handOver rec b s).owl = s.owl := by
  unfold handOver
  split <;> rfl

theorem efdomTransmit_sends (inv : s.Inv) (hc : c < 8) (run : s.owl.state = .run) (tx : (connOf s c).state = .tx) :
    Answers (.efdomTransmit c) s fun t => 1 ≤ (connOf t c).lastSeq ∧ (connOf t c).lastSeq ≤ 2 ^ 32 - 1
      ∧ ((connOf s c).sent ≠ 0 → (connOf t c).lastSeq = (connOf s c).lastSeq % (2 ^ 32 - 1) + 1)
      ∧ (connOf t c).sent = (connOf s c).sent + 1 ∧ (connOf t c).safeWord = safeWordOf s := by
  have len : c < (bump s).owl.efd.length := (owl_lengths inv).2.2 ▸ hc
  refine ⟨_, congrArg Host.Outcome.next (if_pos ⟨run, tx⟩), ?_⟩
  extract_lets x seq u b word
  beta_reduce
  rw [connOf_congr owl_handOver, connOf_onConn_self len]
  have range : seq ≤ 2 ^ 32 - 1 := Nat.mod_lt _ (by decide)
  refine ⟨Nat.succ_pos _, range, fun later => ?_, rfl, rfl⟩
  show (if (connOf s c).sent = 0 then freeNat s else (connOf s c).lastSeq) % (2 ^ 32 - 1) + 1 = _
  rw [if_neg later]

/-! ### Connection records (R204, R210) -/

theorem connRec_congr (cfg : owlCfg t = owlCfg s) : connRec t c = connRec s c := by rw [connRec, connRec, cfg]

theorem owlCfg_onConn : owlCfg (onConn c f s) = owlCfg s := rfl

/-- A connection record written to the configuration. -/
theorem connRec_written {rec : EfdomRec} (h : c < (owlCfg s).efdom.length) :
    connRec (onCfg (fun g => { g with efdom := put g.efdom c rec }) s) c = rec := by
  rw [connRec, owlCfg_onCfg]
  exact put_getD_self h

theorem owlEfdomSet_stores {r : Req} {b : Bytes} (ok : efdomRecOk b = true) (known : byteAt 0 b < (owlCfg s).efdom.length)
    (there : byteAt 1 b ≠ 0 → transportThere s (byteAt 2 b) = true) (live : s.key.lc ≠ .retired)
    (mine : hasSession s r.side = true)
    (free : ∀ o, o < 4 → bitAt (Nat.lor (connRec s (byteAt 0 b)).mask (byteAt 3 b)) o = true →
      flag s.owl.released o = false) :
    Answers (.owlEfdomSet r b) s fun t => Posted t r stsOk [] ∧ connRec t (byteAt 0 b) = efdomRecOf b := by
  have absent : (b.length == 24 && (efdomRecOf b).dir != 0 && inRange 1 4 (efdomRecOf b).transport
      && !transportThere s (efdomRecOf b).transport) = false := by
    by_cases off : byteAt 1 b = 0
    · simp [efdomRecOf, off]
    · simp [efdomRecOf, there off]
  have held : ((List.range 4).any fun o => bitAt (Nat.lor (connRec s (byteAt 0 b)).mask (efdomRecOf b).mask) o
      && flag s.owl.released o) = false := by
    simp only [List.any_eq_false, List.mem_range, Bool.and_eq_true, not_and, Bool.not_eq_true]
    exact free
  have allowed : firstFail [(b.length == 24 && (efdomRecOf b).dir != 0 && inRange 1 4 (efdomRecOf b).transport
        && !transportThere s (efdomRecOf b).transport, stsAbsent), (!efdomRecOk b, stsLengthRange), (retired s, stsLifecycle),
      (!hasSession s r.side, stsAuthFail), ((List.range 4).any fun o =>
        bitAt (Nat.lor (connRec s (byteAt 0 b)).mask (efdomRecOf b).mask) o && flag s.owl.released o, stsState)] = stsOk := by
    rw [absent, held, ok, not_retired live, mine]
    rfl
  refine ⟨_, congrArg Host.Outcome.next (guarded_ok allowed), posted_postSts, ?_⟩
  rw [connRec_congr owlCfg_postSts, connRec_congr owlCfg_changeEntry, connRec_congr owlCfg_onConn]
  exact connRec_written known

end Efdom

/-- Settles O20: each row of R209 that the statement names is one update of one connection, and no later write of the command
touches it. -/
theorem efdomCommandsEffect : Obligations.EfdomCommandsEffect := by
  unfold Obligations.EfdomCommandsEffect
  exact ⟨fun s k p _ => efdomFrameReceive_wrongFcrc, fun s k c p => efdomFrameReceive_accepts,
    fun s c => efdomWatchdogExpiry_waits, fun s c => efdomTransmit_sends, fun s r b _ => owlEfdomSet_stores⟩

/-! ## Bits of causes and guards -/

section Bits
variable {c o : Nat}

/-- What is left of `x` without the bits it shares with `m`. -/
theorem testBit_sub_and {x m : Nat} : (x - (x &&& m)).testBit c = (x.testBit c && !m.testBit c) := by
  have low := Nat.and_mod_two_eq_one (a := x) (b := m)
  have high : (x &&& m) / 2 ≤ x / 2 := Nat.div_le_div_right Nat.and_le_left
  induction c generalizing x m with
  | zero =>
    simp only [Nat.testBit_zero, ← decide_not, ← Bool.decide_and, decide_eq_decide]
    omega
  | succ c ih =>
    have halved : (x - (x &&& m)) / 2 = x / 2 - (x / 2 &&& m / 2) := by
      rw [← Nat.and_div_two]
      omega
    simp only [Nat.testBit_add_one, halved]
    exact ih Nat.and_mod_two_eq_one (Nat.div_le_div_right Nat.and_le_left)

theorem bitAt_sub_land {x m : Nat} : bitAt (x - Nat.land x m) c = (bitAt x c && !bitAt m c) := by
  simp only [bitAt_eq_testBit]
  exact testBit_sub_and

/-- A bit that is not set is added. -/
theorem add_two_pow_eq_lor {x : Nat} (free : x.testBit c = false) : x + 2 ^ c = Nat.lor x (2 ^ c) := by
  have own : Nat.lor x (2 ^ c) &&& 2 ^ c = 2 ^ c := by
    rw [Nat.and_two_pow, show (Nat.lor x (2 ^ c)).testBit c = true from (Nat.testBit_or ..).trans (by simp)]
    simp
  have rest : Nat.lor x (2 ^ c) - (Nat.lor x (2 ^ c) &&& 2 ^ c) = x := by
    refine Nat.eq_of_testBit_eq fun i => ?_
    have either : (Nat.lor x (2 ^ c)).testBit i = (x.testBit i || (2 ^ c).testBit i) := Nat.testBit_or ..
    rw [testBit_sub_and, either, Nat.testBit_two_pow]
    by_cases same : c = i
    · subst same
      simp [free]
    · simp [same]
  have le : Nat.lor x (2 ^ c) &&& 2 ^ c ≤ Nat.lor x (2 ^ c) := Nat.and_le_left
  rw [own] at rest le
  omega

/-- A sum of powers of two, one for each chosen member of a list, adds just those bits. -/
theorem bitAt_sum_two_pow {q : Nat → Bool} {l : List Nat} {m : Nat} (once : l.Nodup) (free : ∀ i ∈ l, bitAt m i = false) :
    bitAt (l.foldl (fun m i => if q i then m + 2 ^ i else m) m) c = (bitAt m c || decide (c ∈ l) && q c) := by
  induction l generalizing m with
  | nil => simp
  | cons i l ih =>
    obtain ⟨new, once⟩ := List.nodup_cons.mp once
    have later (j : Nat) (mem : j ∈ l) : bitAt m j = false := free j (List.mem_cons_of_mem i mem)
    have own : m + 2 ^ i = Nat.lor m (2 ^ i) := add_two_pow_eq_lor (bitAt_eq_testBit ▸ free i List.mem_cons_self)
    have bits (j : Nat) : bitAt (m + 2 ^ i) j = (bitAt m j || decide (i = j)) := by
      rw [own, bitAt_lor, bitAt_eq_testBit (w := 2 ^ i), Nat.testBit_two_pow]
    rw [List.foldl_cons]
    split
    next chosen =>
      rw [ih once fun j mem => by simp [bits, later j mem, (ne_of_mem_of_not_mem mem new).symm], bits]
      by_cases same : i = c
      · simp [← same, chosen]
      · simp [same, Ne.symm same]
    next left =>
      rw [ih once later]
      by_cases same : c = i
      · simp [same, left]
      · simp [same]

@[simp] theorem bitAt_zero : bitAt 0 c = false := by simp [bitAt]

/-- The causes of an outlet among a list are those of the list that it has. -/
theorem bitAt_causesAmong {l : List Nat} (once : l.Nodup) :
    bitAt (causesAmong s o l) c = (decide (c ∈ l) && bitAt (at0 s.owl.causes o) c) := by
  rw [causesAmong, bitAt_sum_two_pow once fun i _ => bitAt_zero, bitAt_zero, Bool.false_or]

end Bits

/-! ## Causes cleared (R194) -/

section Clearing
variable {c o row m : Nat}

/-- What leaves no outlet's place is read past the end of a list as well. -/
theorem upd_getD_default {α : Type} {l : List α} {n : Nat} {f : α → α} {d : α} (hf : f d = d) :
    (upd l n f).getD n d = f (l.getD n d) := by
  by_cases h : n < l.length
  · exact upd_getD_self h
  · simp [upd, List.getD_eq_getElem?_getD, h, hf]

theorem causes_clearCauses : (clearCauses o m s).owl.causes = upd s.owl.causes o (fun x => x - Nat.land x m) := by
  have flt {p : Prop} [Decidable p] {f : FltBlock → FltBlock} {s : State} :
      (if p then onFlt f s else s).owl = s.owl := by split <;> rfl
  have src {p : Prop} [Decidable p] {x : SupSrc} {s : State} :
      (if p then onOwl (fun b => { b with src := x }) s else s).owl.causes = s.owl.causes := by split <;> rfl
  unfold clearCauses
  dsimp only
  rw [owl_settleAll, src, flt, flt, flt]
  rfl

/-- A clearing by a row takes the causes it names from its outlet. -/
theorem bitAt_clearByRow : bitAt (at0 (clearByRow o m row s).owl.causes o) c
    = (bitAt (at0 s.owl.causes o) c && !bitAt m c) := by
  unfold clearByRow
  split
  next empty => simp [empty]
  next =>
    rw [logEv_owl, causes_clearCauses, at0, upd_getD_default (f := fun x => x - Nat.land x m) (Nat.zero_sub _), bitAt_sub_land]
    rfl

theorem causes_countClear : (countClear o s).owl.causes = s.owl.causes := rfl

/-- A clearing of the set causes of a list takes all of them, also where one is counted first and where none is set. -/
theorem bitAt_clearByRow_among {l : List Nat} (once : l.Nodup) (causes : t.owl.causes = s.owl.causes) :
    bitAt (at0 (clearByRow o (causesAmong s o l) row t).owl.causes o) c
      = (bitAt (at0 s.owl.causes o) c && !decide (c ∈ l)) := by
  rw [bitAt_clearByRow, bitAt_causesAmong once, causes]
  cases bitAt (at0 s.owl.causes o) c <;> simp

/-- With none of a list's causes set there is none to take. -/
theorem bitAt_of_none_among {l : List Nat} (once : l.Nodup) (empty : causesAmong s o l = 0) :
    bitAt (at0 s.owl.causes o) c = (bitAt (at0 s.owl.causes o) c && !decide (c ∈ l)) := by
  have bits := bitAt_causesAmong (s := s) (o := o) (c := c) once
  rw [empty, bitAt_zero] at bits
  cases set : bitAt (at0 s.owl.causes o) c
  · rfl
  · simpa [set] using bits

/-- No clearable cause of a list is left by a row that clears them. -/
theorem cleared_of_clearable {bits : List Nat} (once : bits.Nodup) (mem : c ∈ bits) (past : causeTrue s o c = false) {x y : State}
    (cleared : clearable s o bits ≠ 0 → x = clearByRow o (clearable s o bits) row y) (causes : y.owl.causes = s.owl.causes)
    (stays : clearable s o bits = 0 → x = s) : bitAt (at0 x.owl.causes o) c = false := by
  have once : (bits.filter fun c => !causeTrue s o c).Nodup := once.filter _
  have named : c ∈ bits.filter fun c => !causeTrue s o c := by simp [mem, past]
  by_cases empty : clearable s o bits = 0
  · rw [stays empty, bitAt_of_none_among once empty, decide_eq_true named, Bool.not_true, Bool.and_false]
  · rw [cleared empty, clearable, bitAt_clearByRow_among once causes, decide_eq_true named, Bool.not_true, Bool.and_false]

/-- TRIP_AUTOCLEAR in RUN, with the outlet's contactors off. -/
theorem exec_tripAutoclear (run : s.owl.state = .run) (decl : declared s o = true) (off : contactorsOff s o = true) :
    exec (.tripAutoclear o row) s = .next (if row = 2 then clearByRow o (clearable s o [6, 7]) 2 s
      else if row = 3 ∧ linked s o ∧ (linkOf s o).cp = .a ∧ autoclr s o < 3 then
        if clearable s o [0, 1, 2, 3, 4, 5] = 0 then s
        else clearByRow o (clearable s o [0, 1, 2, 3, 4, 5]) 3 (countClear o s)
      else s) :=
  congrArg Host.Outcome.next (if_pos ⟨run, decl, off⟩)

theorem tripAutoclear_row2 (run : s.owl.state = .run) (decl : declared s o = true) (off : contactorsOff s o = true) :
    Answers (.tripAutoclear o 2) s fun t => ∀ c, c = 6 ∨ c = 7 → causeTrue s o c = false →
      bitAt (at0 t.owl.causes o) c = false := by
  refine ⟨_, exec_tripAutoclear run decl off, fun c guard past => ?_⟩
  rw [if_pos rfl]
  refine cleared_of_clearable (bits := [6, 7]) (by decide) (by simpa using guard) past (fun _ => rfl) rfl fun empty => ?_
  rw [empty]
  exact if_pos rfl

theorem tripAutoclear_row3 (run : s.owl.state = .run) (decl : declared s o = true) (off : contactorsOff s o = true)
    (link : linked s o = true) (pilot : (linkOf s o).cp = .a) (few : autoclr s o < 3) :
    Answers (.tripAutoclear o 3) s fun t => ∀ c, c < 6 → causeTrue s o c = false → bitAt (at0 t.owl.causes o) c = false := by
  refine ⟨_, exec_tripAutoclear run decl off, fun c level past => ?_⟩
  rw [if_neg (by decide), if_pos ⟨rfl, link, pilot, few⟩]
  refine cleared_of_clearable (bits := [0, 1, 2, 3, 4, 5]) (by decide) ?_ past (fun full => if_neg full) causes_countClear
    fun empty => if_pos empty
  exact (by decide : ∀ c < 6, c ∈ [0, 1, 2, 3, 4, 5]) c level

theorem autoclrExpiry_takes : Answers (.autoclrExpiry o) s fun t => autoclr t o = autoclr s o - 1 := by
  refine ⟨_, rfl, ?_⟩
  beta_reduce
  rw [autoclr, owlCfg_onCfg]
  exact upd_getD_default rfl

/-- The causes of an outlet after the clearings of OWL_TRIP_CLEAR: row by row its causes go. -/
theorem clearAll_clears {r : Req} (known : c < 9) : bitAt (at0 (clearAll r o s).owl.causes o) c = false := by
  have change {p : Prop} [Decidable p] {k src old new : Nat} {d d' : Bytes} {s : State} :
      (if p then changeEntry k src old new d d' s else s).owl.causes = s.owl.causes := by
    split
    · rw [owl_changeEntry]
    · rfl
  have counted {p : Prop} [Decidable p] {s : State} : (if p then s else countClear o s).owl.causes = s.owl.causes := by
    split <;> rfl
  unfold clearAll
  extract_lets mine row4 stop guards k rest
  have levels : bitAt (at0 rest.owl.causes o) c = (bitAt (at0 guards.owl.causes o) c && !decide (c ∈ [0, 1, 2, 3, 4, 5])) := by
    dsimp only [rest]
    split
    next empty => exact bitAt_of_none_among (by decide) empty
    next =>
      split
      · exact bitAt_clearByRow_among (by decide) rfl
      · exact bitAt_clearByRow_among (by decide) counted
  rw [change, levels, show bitAt (at0 guards.owl.causes o) c = _ from bitAt_clearByRow_among (by decide) rfl,
    show bitAt (at0 stop.owl.causes o) c = _ from bitAt_clearByRow_among (by decide) rfl]
  have listed : c ∈ [8] ∨ c ∈ [6, 7] ∨ c ∈ [0, 1, 2, 3, 4, 5] :=
    (by decide : ∀ c < 9, c ∈ [8] ∨ c ∈ [6, 7] ∨ c ∈ [0, 1, 2, 3, 4, 5]) c known
  obtain row1 | row2 | row3 := listed
  · simp only [decide_eq_true row1, Bool.not_true, Bool.and_false, Bool.false_and]
  · simp only [decide_eq_true row2, Bool.not_true, Bool.and_false, Bool.false_and]
  · simp only [decide_eq_true row3, Bool.not_true, Bool.and_false]

theorem owlTripClear_clears {r : Req} (ho : o < 4) (decl : declared s o = true) (live : s.key.lc ≠ .retired)
    (few : autoclr s o < 3) (caused : at0 s.owl.causes o ≠ 0) (past : ∀ c, c < 9 → causeTrue s o c = false)
    (off : contactorsOff s o = true) :
    Answers (.owlTripClear r o) s fun t => Posted t r stsOk [] ∧ ∀ c, c < 9 → bitAt (at0 t.owl.causes o) c = false := by
  have gone : ((List.range 9).any fun c => bitAt (at0 s.owl.causes o) c && causeTrue s o c) = false := by
    simp only [List.any_eq_false, List.mem_range, Bool.and_eq_true, not_and, Bool.not_eq_true]
    exact fun c hc _ => past c hc
  have allowed : firstFail (outletChecks s o ++ [(s.key.lc == .retired, stsLifecycle),
      (causesAmong s o [0, 1, 2, 3, 4, 5] != 0 && decide (3 ≤ autoclr s o) && !hasSession s r.side, stsAuthFail),
      (at0 s.owl.causes o == 0 || (List.range 9).any (fun c => bitAt (at0 s.owl.causes o) c && causeTrue s o c)
        || !contactorsOff s o, stsState)]) = stsOk := by
    rw [gone, off, beq_false_of_ne caused]
    simp [outletChecks, firstFail, decl, live, few, Nat.not_lt.mpr (Nat.le_of_lt_succ ho)]
  refine ⟨_, congrArg Host.Outcome.next (guarded_ok allowed), posted_postSts, fun c known => ?_⟩
  rw [postSts_owl]
  exact clearAll_clears known

end Clearing

/-! ## What a supervisor asks of Owl (R187, R225-R227) -/

section Releases
variable {p o : Nat} {I : OwlBlock → Prop}

/-- A property of Owl's block that a request for outlet `p`, made or cleared, keeps. -/
def Asks (p : Nat) (I : OwlBlock → Prop) : Prop := ∀ b x, I b → I { b with requested := put b.requested p x }

/-- A property of Owl's block that giving up outlet `p`'s request and release keeps. -/
def Drops (p : Nat) (I : OwlBlock → Prop) : Prop :=
  ∀ b, I b → I { b with requested := put b.requested p false, released := put b.released p false }

theorem owlKeeps_ite {c : Prop} [Decidable c] {x y : State} (hx : I x.owl) (hy : I y.owl) : I (if c then x else y).owl := by
  split
  · exact hx
  · exact hy

theorem owlKeeps_foldl {f : State → Nat → State} {l : List Nat} (hf : ∀ s o, I s.owl → I (f s o).owl) (h : I s.owl) :
    I (l.foldl f s).owl := by
  induction l generalizing s with
  | nil => exact h
  | cons o l ih => exact ih (hf s o h)

/-- An operation whose law does not list Owl's part. -/
theorem owlKeeps_law (h : I s.owl) (w : List Part) (f : listed w w = true → Same w s s → Same w s t)
    (hw : w.contains .owl = false := by rfl) : I t.owl := by
  have owl : t.owl = s.owl := part_of_law .owl f hw
  exact owl ▸ h

theorem setSup_keeps {x : Sup} (h : I s.owl) : I (setSup p x s).owl := owlKeeps_law h _ (same_setSup p x)

section Ask
variable (ask : Asks p I)
include ask

theorem requestRelease_keeps (h : I s.owl) : I (requestRelease p s).owl := owlKeeps_ite (ask _ _ h) h

theorem advance_keeps (h : I s.owl) : I (advance p s).owl := by
  unfold advance
  dsimp only
  split
  · exact h
  · split
    · exact h
    · exact owlKeeps_ite h (requestRelease_keeps ask h)
    · exact h

theorem tryResume_keeps (h : I s.owl) : I (tryResume p s).owl := owlKeeps_ite (requestRelease_keeps ask h) h

theorem offerChanged_keeps (h : I s.owl) : I (offerChanged p s).owl :=
  tryResume_keeps ask (advance_keeps ask (owlKeeps_law h _ (same_slacCheck p)))

theorem lockReached_keeps (h : I s.owl) : I (lockReached p s).owl :=
  owlKeeps_ite (advance_keeps ask (s := onLink p _ _) (setSup_keeps h)) h

theorem runStart_keeps (h : I s.owl) : I (runStart p s).owl := by
  unfold runStart
  extract_lets opened locking
  have locks : I locking.owl := owlKeeps_law (setSup_keeps (s := opened) h) _ (same_requestLock p)
  exact owlKeeps_ite locks (lockReached_keeps ask locks)

theorem limpStart_keeps (h : I s.owl) : I (limpStart p s).owl :=
  owlKeeps_ite (owlKeeps_ite h (owlKeeps_ite h (runStart_keeps ask h))) h

theorem releaseHeld_keeps (h : I s.owl) : I (releaseHeld p s).owl := owlKeeps_ite (owlKeeps_ite h (runStart_keeps ask h)) h

theorem finishSession_keeps (h : I s.owl) : I (finishSession p s).owl := by
  have closed : I (closeSession p s).owl := owlKeeps_law h _ (same_closeSession p)
  exact owlKeeps_ite (limpStart_keeps ask (owlKeeps_law closed _ (same_limpPilot p))) closed

variable (drop : Drops p I)
include drop

omit ask in
theorem dropRelease_keeps (h : I s.owl) : I (dropRelease p s).owl := by
  unfold dropRelease
  extract_lets dropped
  have left : I dropped.owl := drop _ h
  exact owlKeeps_law (s := onLink p _ dropped) left _ (same_contactorDemand p false)

theorem endSession_keeps {cause : Nat} (h : I s.owl) : I (endSession p cause s).owl := by
  unfold endSession
  dsimp only
  split
  · exact h
  · split
    · exact owlKeeps_ite h (dropRelease_keeps drop (s := onLink p _ s) h)
    · exact h
    · exact h
    · exact finishSession_keeps ask (dropRelease_keeps drop (s := onLink p _ s) h)

theorem withdraw_keeps (h : I s.owl) : I (withdraw p s).owl := by
  unfold withdraw
  extract_lets logged dropped
  have left : I logged.owl := owlKeeps_law h _ (same_logEv _ _ _ _ _)
  exact endSession_keeps ask drop (owlKeeps_law (s := dropped) (drop _ left) _ (same_settleContactors p))

/-- The decision on one outlet: the release is withdrawn, granted where nothing withholds it and it is requested, or refused. -/
theorem decideRelease_keeps
    (grant : at0 s.owl.withhold p = 0 → flag s.owl.requested p = true → I { s.owl with released := put s.owl.released p true })
    (h : I s.owl) : I (decideRelease p s).owl := by
  unfold decideRelease
  dsimp only
  split
  · exact owlKeeps_ite h (withdraw_keeps ask drop h)
  · split
    next asked =>
      split
      next free =>
        have granted : I (onOwl (fun b => { b with released := put b.released p true }) s).owl := grant free asked
        exact owlKeeps_law granted _ (same_onGrant p)
      next => exact ask _ _ h
    next => exact h

end Ask

/-- A withdrawn outlet is not released. -/
theorem withdraw_drops : flag (withdraw p s).owl.released p = false := by
  unfold withdraw
  extract_lets logged dropped
  have dropAll : Drops p fun b => flag b.released p = false := fun _ _ => flag_put_self_false
  refine endSession_keeps (I := fun b => flag b.released p = false) (fun _ _ => id) dropAll ?_
  exact owlKeeps_law (I := fun b => flag b.released p = false) (s := dropped) flag_put_self_false _ (same_settleContactors p)

/-- What is withheld is not released after the decision. -/
theorem decideRelease_withheld (withheld : at0 s.owl.withhold p ≠ 0) : flag (decideRelease p s).owl.released p = false := by
  unfold decideRelease
  dsimp only
  rw [if_neg withheld, if_neg withheld]
  split
  next => exact withdraw_drops
  next off =>
    have off : flag s.owl.released p = false := by simpa using off
    exact owlKeeps_ite (I := fun b => flag b.released p = false) off off

end Releases

/-! ## What the cycle leaves (R186, R189, R191) -/

section Cycle
variable {p o g : Nat} {R : Nat → Prop} {l : List Nat}

/-- Owl's block but for what a trip latch writes. -/
def beyondLatch (b : OwlBlock) : OwlBlock :=
  { b with causes := [], hold := [], lastTrue := [], cfgDirty := false, proof := { b.proof with causes := [] } }

theorem beyondLatch_proof {b : OwlBlock} {l : List Nat} :
    beyondLatch { b with proof := { b.proof with causes := l } } = beyondLatch b := rfl

theorem tripped_beyondLatch {b : OwlBlock} : (beyondLatch b).tripped = b.tripped := rfl

theorem latchTrip_eq {c m : Nat} : latchTrip c m s = settleAll (onOwl (fun b => { b with
    proof := { b.proof with causes := List.zipWith Nat.lor b.proof.causes b.causes } }) (latchOutlets c m s)) := rfl

theorem beyondLatch_latchTrip {c m : Nat} : beyondLatch (latchTrip c m s).owl = beyondLatch s.owl := by
  rw [latchTrip_eq, owl_settleAll, onOwl_owl, beyondLatch_proof]
  refine foldl_keeps (g := fun s : State => beyondLatch s.owl) fun s o => ?_
  unfold latchOutlet
  split <;> rfl

theorem tripped_latchTrip {c m : Nat} : (latchTrip c m s).owl.tripped = s.owl.tripped := by
  rw [← tripped_beyondLatch, beyondLatch_latchTrip, tripped_beyondLatch]

/-- A trip before its latch: the source register, the event and the relation's mark (R189). -/
def noteTrip (r : TripRec) (v : Int) (s : State) : State :=
  let s := if s.owl.src.kind = 0 then onOwl (fun b => { b with src := { kind := r.kind, inst := r.inst, mask := r.mask } }) s else s
  let s := logEv .safety 0x0A 0xFF 0x0A03 [(1, r.kind), (1, r.inst), (1, r.mask), (4, unsignedOf 32 v)] s
  onOwl (fun b => { b with tripped := b.tripped ++ [r] }) s

/-- What Owl shows of its guards: open, disagreeing, and seen open. -/
def guardView (b : OwlBlock) : Nat × Nat × Nat := (b.guardOpen, b.guardDis, b.proof.seen)

/-- What of Owl's block a trip and the table itself leave: the guards, the releases and the requests. -/
def cycleView (b : OwlBlock) : (Nat × Nat × Nat) × List Bool × List Bool := (guardView b, b.released, b.requested)

theorem noteTrip_owl {r : TripRec} {v : Int} :
    (noteTrip r v s).owl = { s.owl with src := (noteTrip r v s).owl.src, tripped := s.owl.tripped ++ [r] } := by
  unfold noteTrip
  dsimp only
  rw [onOwl_owl, logEv_owl]
  split <;> rfl

theorem noteTrip_str {r : TripRec} {v : Int} : (noteTrip r v s).str = s.str := by
  unfold noteTrip
  dsimp only
  rw [onOwl_str, logEv_str]
  split <;> rfl

theorem relationCause_congr {r : TripRec} (str : t.str = s.str) : relationCause t r = relationCause s r := by
  simp only [relationCause, guardRec, str]

theorem supTrip_eq {r : TripRec} {v : Int} : supTrip r v s = latchTrip (relationCause s r) r.mask (noteTrip r v s) := by
  rw [← relationCause_congr (noteTrip_str (r := r) (v := v))]
  rfl

theorem cycleView_beyondLatch {b : OwlBlock} : cycleView (beyondLatch b) = cycleView b := rfl

theorem cycleView_supTrip {r : TripRec} {v : Int} : cycleView (supTrip r v s).owl = cycleView s.owl := by
  rw [supTrip_eq, ← cycleView_beyondLatch, beyondLatch_latchTrip, cycleView_beyondLatch, noteTrip_owl]
  rfl

theorem cycleView_immediateTrips : cycleView (immediateTrips s).owl = cycleView s.owl := by
  refine foldl_keeps (g := fun s : State => cycleView s.owl) fun s x => ?_
  split
  · exact cycleView_supTrip
  · rfl

theorem cycleView_prove : cycleView (prove s).owl = cycleView s.owl := by
  refine foldl_keeps (g := fun s : State => cycleView s.owl) fun s o => ?_
  split
  · rw [logEv_owl]
    rfl
  · rfl

theorem cycleView_refreshWithhold : cycleView (refreshWithhold s).owl = cycleView s.owl := rfl

theorem cycleView_writeCauses : cycleView (writeCauses s).owl = cycleView s.owl := by
  unfold writeCauses
  split <;> rfl

/-- The state that the decisions of a cycle find: open guards are seen, due trips latched, proofs and WITHHOLD current. -/
def beforeDecisions (s : State) : State := refreshWithhold (prove (immediateTrips (seeGuards s)))

theorem cycleView_beforeDecisions : cycleView (beforeDecisions s).owl = cycleView (seeGuards s).owl := by
  rw [beforeDecisions, cycleView_refreshWithhold, cycleView_prove, cycleView_immediateTrips]

/-- The decisions of a cycle, outlet by outlet. -/
def decisions (s : State) : State :=
  (outletList (beforeDecisions s)).foldl (fun s o => decideRelease o s) (beforeDecisions s)

/-- The state after the decisions, with the causes written and WITHHOLD current. -/
def afterDecisions (s : State) : State := refreshWithhold (writeCauses (decisions s))

/-- What requests of any outlet keep, the starts held back keep. -/
theorem owlEvaluate_keeps {I : OwlBlock → Prop} (ask : ∀ p, Asks p I) (h : I (afterDecisions s).owl) :
    I (owlEvaluate s).owl :=
  owlKeeps_foldl (fun _ p => releaseHeld_keeps (ask p)) h

/-- Decisions and starts leave the guards. -/
theorem guardView_decideRelease : guardView (decideRelease p s).owl = guardView s.owl :=
  decideRelease_keeps (I := fun b => guardView b = guardView s.owl) (fun _ _ => id) (fun _ => id) (fun _ _ => rfl) rfl

theorem guardView_owlEvaluate : guardView (owlEvaluate s).owl = guardView (seeGuards s).owl := by
  refine owlEvaluate_keeps (I := fun b => guardView b = guardView (seeGuards s).owl) (fun _ _ _ => id) ?_
  calc guardView (afterDecisions s).owl
      = guardView (decisions s).owl := congrArg Prod.fst (cycleView_writeCauses (s := decisions s))
    _ = guardView (beforeDecisions s).owl := foldl_keeps (g := fun s : State => guardView s.owl) fun _ _ => guardView_decideRelease
    _ = guardView (seeGuards s).owl := congrArg Prod.fst cycleView_beforeDecisions

/-- The permission table leaves the guards as they read, and in RUN notes the open ones as seen. -/
theorem guardView_owlReact : guardView (owlReact s).owl = (s.owl.guardOpen, s.owl.guardDis,
    if s.owl.state = .run then Nat.lor s.owl.proof.seen s.owl.guardOpen else s.owl.proof.seen) := by
  unfold owlReact
  split
  · exact guardView_owlEvaluate
  · rfl

/-! ### Grants -/

/-- Releases stay within `R`, and so do the requests of the outlets still to be decided. -/
def Bounded (R : Nat → Prop) (l : List Nat) (b : OwlBlock) : Prop :=
  (∀ o, flag b.released o = true → R o) ∧ ∀ o ∈ l, flag b.requested o = true → R o

theorem flag_put_true {l : List Bool} (h : flag (put l p true) o = true) : o = p ∨ flag l o = true := by
  by_cases same : o = p
  · exact .inl same
  · exact .inr ((put_getD_ne same).symm.trans h)

theorem asks_bounded (new : p ∉ l) : Asks p (Bounded R l) := fun _ _ h =>
  ⟨h.1, fun o mem asked => h.2 o mem ((put_getD_ne (ne_of_mem_of_not_mem mem new)).symm.trans asked)⟩

theorem drops_bounded : Drops p (Bounded R l) := fun _ h =>
  ⟨fun o on => h.1 o (flag_put_false on), fun o mem asked => h.2 o mem (flag_put_false asked)⟩

theorem decideRelease_bounded (new : p ∉ l) (h : Bounded R (p :: l) s.owl) : Bounded R l (decideRelease p s).owl := by
  have rest : Bounded R l s.owl := ⟨h.1, fun o mem => h.2 o (List.mem_cons_of_mem p mem)⟩
  refine decideRelease_keeps (asks_bounded new) drops_bounded (fun _ asked => ⟨fun o on => ?_, rest.2⟩) rest
  obtain rfl | before := flag_put_true on
  · exact h.2 o List.mem_cons_self asked
  · exact h.1 o before

/-- Each outlet is decided once, so what an ending session asks for anew waits for the next cycle. -/
theorem decideReleases_bounded (once : l.Nodup) (h : Bounded R l s.owl) :
    Bounded R [] (l.foldl (fun s o => decideRelease o s) s).owl := by
  induction l generalizing s with
  | nil => exact h
  | cons p l ih =>
    obtain ⟨new, once⟩ := List.nodup_cons.mp once
    exact ih once (decideRelease_bounded new h)

theorem outletList_nodup : (outletList s).Nodup := List.nodup_range.filter _

/-- A cycle releases what was released or requested, and nothing else. -/
theorem owlEvaluate_releases (on : flag (owlEvaluate s).owl.released o = true) :
    flag s.owl.released o = true ∨ flag s.owl.requested o = true := by
  let R (o : Nat) : Prop := flag s.owl.released o = true ∨ flag s.owl.requested o = true
  have released : (beforeDecisions s).owl.released = s.owl.released := congrArg (·.2.1) (cycleView_beforeDecisions (s := s))
  have requested : (beforeDecisions s).owl.requested = s.owl.requested := congrArg (·.2.2) (cycleView_beforeDecisions (s := s))
  have start : Bounded R (outletList (beforeDecisions s)) (beforeDecisions s).owl := by
    rw [Bounded, released, requested]
    exact ⟨fun _ => .inl, fun _ _ => .inr⟩
  have decided : Bounded R [] (decisions s).owl := decideReleases_bounded outletList_nodup start
  have written : (afterDecisions s).owl.released = (decisions s).owl.released :=
    congrArg (·.2.1) (cycleView_writeCauses (s := decisions s))
  have after : Bounded R [] (afterDecisions s).owl := ⟨written ▸ decided.1, nofun⟩
  exact (owlEvaluate_keeps (fun _ => asks_bounded List.not_mem_nil) after).1 o on

/-! ### A power failure withholds every outlet -/

theorem withholdOf_of_pfail (pfail : s.sys.pfail = true) : withholdOf s o ≠ 0 := by
  have line : flagAt (safeLine s) 0 = 1 := by simp [safeLine, pfail, flagAt]
  unfold withholdOf
  dsimp only
  omega

theorem refreshWithhold_shows (ho : o < 4) (decl : declared s o = true) :
    at0 (refreshWithhold s).owl.withhold o = withholdOf s o := by
  simp [refreshWithhold, at0, List.getD_eq_getElem?_getD, ho, decl]

theorem withhold_decideRelease : (decideRelease p s).owl.withhold = s.owl.withhold :=
  decideRelease_keeps (I := fun b => b.withhold = s.owl.withhold) (fun _ _ => id) (fun _ => id) (fun _ _ => rfl) rfl

/-- A decision that withholds releases no other outlet. -/
theorem decideRelease_leaves (withheld : at0 s.owl.withhold p ≠ 0) (off : flag s.owl.released o = false) :
    flag (decideRelease p s).owl.released o = false := by
  have drops : Drops p fun b => flag b.released o = false := fun b off => by
    cases on : flag (put b.released p false) o
    · exact on
    · exact absurd (off.symm.trans (flag_put_false on)) nofun
  exact decideRelease_keeps (I := fun b => flag b.released o = false) (fun _ _ => id) drops (fun free => absurd free withheld) off

/-- What is withheld of every outlet of the list is released for none of them after the decisions. -/
theorem decideReleases_withheld (mem : o ∈ l) (withheld : ∀ p ∈ l, at0 s.owl.withhold p ≠ 0) :
    flag (l.foldl (fun s o => decideRelease o s) s).owl.released o = false :=
  foldl_reaches (I := fun t => ∀ p ∈ l, at0 t.owl.withhold p ≠ 0) (Q := fun t => flag t.owl.released o = false) mem withheld
    (fun _ _ _ i q named => (congrArg (at0 · q) withhold_decideRelease).trans_ne (i q named))
    (fun _ i => decideRelease_withheld (i o mem))
    fun _ _ named i => decideRelease_leaves (i _ named)

theorem same_beforeTable {w : List Part} {a : State} (hw : listed [.pwr, .owl, .vlk, .log] w = true) (h : Same w a s) :
    Same w a (prove (immediateTrips (seeGuards s))) :=
  same_prove (listed_trans hw rfl) (same_immediateTrips hw (same_seeGuards (listed_trans hw rfl) h))

theorem owlEvaluate_pfail (pfail : s.sys.pfail = true) (ho : o < 4) (decl : declared s o = true) :
    flag (owlEvaluate s).owl.released o = false := by
  let u := prove (immediateTrips (seeGuards s))
  have sys : samePart .sys s u := part_of_law .sys same_beforeTable rfl
  have str : u.str = s.str := part_of_law .str same_beforeTable rfl
  have failing : u.sys.pfail = true := (congrArg SysBlock.pfail sys).trans pfail
  have named (p : Nat) : p ∈ outletList (beforeDecisions s) ↔ p < 4 ∧ declared u p = true := by
    rw [outletList, List.mem_filter, List.mem_range]
    rfl
  have decided : flag (decisions s).owl.released o = false := by
    refine decideReleases_withheld ((named o).mpr ⟨ho, (declared_congr str).trans decl⟩) fun p mem => ?_
    obtain ⟨hp, decl⟩ := (named p).mp mem
    rw [beforeDecisions, refreshWithhold_shows hp decl]
    exact withholdOf_of_pfail failing
  have written : (afterDecisions s).owl.released = (decisions s).owl.released :=
    congrArg (·.2.1) (cycleView_writeCauses (s := decisions s))
  exact owlEvaluate_keeps (I := fun b => flag b.released o = false) (fun _ _ _ => id) (by rw [written]; exact decided)

/-- Past the four outlets the release register has no flag. -/
theorem released_beyond (inv : t.Inv) (ho : ¬ o < 4) : flag t.owl.released o = false := by
  simp [flag, List.getD_eq_getElem?_getD, (owl_lengths inv).1, ho]

theorem owlCycle_decides (inv : s.Inv) :
    Answers .owlCycle s fun t =>
      (s.owl.state = .run →
        (∀ g, bitAt s.owl.guardOpen g = true → bitAt t.owl.proof.seen g = true)
          ∧ (∀ o, flag t.owl.released o = true → flag s.owl.released o = true ∨ flag s.owl.requested o = true)
          ∧ (s.sys.pfail = true → ∀ o, declared s o = true → flag t.owl.released o = false))
        ∧ (s.owl.state ≠ .run → t.owl.released = s.owl.released) := by
  refine ⟨owlReact s, rfl, fun run => ⟨fun g isOpen => ?seen, fun o on => ?grant, fun pfail o decl => ?fail⟩,
    fun stopped => ?stopped⟩
  case seen =>
    have view := guardView_owlReact (s := s)
    simp only [guardView, if_pos run, Prod.mk.injEq] at view
    obtain ⟨-, -, seen⟩ := view
    rw [seen, bitAt_lor, isOpen, Bool.or_true]
  case grant =>
    rw [owlReact, if_pos run] at on
    exact owlEvaluate_releases on
  case fail =>
    by_cases ho : o < 4
    · rw [owlReact, if_pos run]
      exact owlEvaluate_pfail pfail ho decl
    · obtain ⟨-, -, kept⟩ := kept_exec .owlCycle (kept_start fun _ : True => inv) _ rfl
      exact released_beyond (kept trivial) ho
  case stopped =>
    rw [owlReact, if_neg stopped]
    rfl

/-! ### Guard inputs (R191, R192) -/

theorem bitAt_minus {x m c : Nat} : bitAt (minus x m) c = (bitAt x c && !bitAt m c) := bitAt_sub_land

theorem guardInputChange_reads {b : Bool} (known : (guardRec s g).isSome = true) :
    Answers (.guardInputChange g b) s fun t => bitAt t.owl.guardOpen g = b
      ∧ (b = false → bitAt t.owl.guardDis g = false)
      ∧ (b = true → s.owl.state = .run → bitAt t.owl.proof.seen g = true) := by
  refine ⟨_, congrArg Host.Outcome.next (if_pos known), ?_⟩
  cases b with
  | true =>
    have view := guardView_owlReact (s := onOwl (fun b => { b with guardOpen := Nat.lor b.guardOpen (2 ^ g) }) s)
    simp only [guardView, Prod.mk.injEq] at view
    obtain ⟨isOpen, -, seen⟩ := view
    refine ⟨?_, nofun, fun _ run => ?_⟩
    · exact (congrArg (bitAt · g) isOpen).trans (by rw [onOwl_owl, bitAt_lor, bitAt_two_pow, Bool.or_true])
    · refine (congrArg (bitAt · g) seen).trans ?_
      rw [onOwl_owl, if_pos run]
      dsimp only
      rw [bitAt_lor, bitAt_lor, bitAt_two_pow, Bool.or_true, Bool.or_true]
  | false =>
    have view := guardView_owlReact (s := onOwl (fun b => { b with
      guardOpen := minus b.guardOpen (2 ^ g), guardDis := minus b.guardDis (2 ^ g) }) s)
    simp only [guardView, Prod.mk.injEq] at view
    obtain ⟨isOpen, dis, -⟩ := view
    have gone {x : Nat} : bitAt (minus x (2 ^ g)) g = false := by rw [bitAt_minus, bitAt_two_pow, Bool.not_true, Bool.and_false]
    exact ⟨(congrArg (bitAt · g) isOpen).trans gone, fun _ => (congrArg (bitAt · g) dis).trans gone, nofun⟩

theorem guardDisagree_opens {k : Nat} (known : (guardRec s g).isSome = true) (onset : bitAt s.owl.guardDis g = false) :
    Answers (.guardDisagree g k) s fun t => bitAt t.owl.guardOpen g = true ∧ bitAt t.owl.guardDis g = true := by
  refine ⟨_, congrArg Host.Outcome.next (if_pos ⟨known, onset⟩), ?_⟩
  extract_lets opened
  have view := guardView_owlReact (s := logEv .safety 0x0A 0xFF 0x0A07 [(1, g), (1, k)] opened)
  simp only [guardView, logEv_owl, Prod.mk.injEq] at view
  obtain ⟨isOpen, dis, -⟩ := view
  have set {x : Nat} : bitAt (Nat.lor x (2 ^ g)) g = true := by rw [bitAt_lor, bitAt_two_pow, Bool.or_true]
  exact ⟨(congrArg (bitAt · g) isOpen).trans set, (congrArg (bitAt · g) dis).trans set⟩

/-! ### Supervised trips (R189) -/

theorem supervisedDelayExpiry_latches {k n : Nat} {r : TripRec} (place : s.str.cur.trips[k]? = some r) (run : s.owl.state = .run)
    (delay : r.delay ≠ 0) (holds : relationTrue s k r = true) (new : latched s r = false) (ho : o < 4)
    (len : o < s.owl.causes.length) (decl : declared s o = true) (hit : Nat.land r.mask (outputsOf s o) ≠ 0) :
    Answers (.supervisedDelayExpiry k n) s fun t =>
      bitAt (at0 t.owl.causes o) (relationCause s r) = true ∧ latched t r = true := by
  have answers : exec (.supervisedDelayExpiry k n) s = .next (supTrip r (relationValue (freeBit s) s n r) (bump s)) := by
    change execSupervisedDelayExpiry k n s = _
    unfold execSupervisedDelayExpiry
    rw [place]
    exact congrArg Host.Outcome.next (if_pos ⟨run, delay, holds, new⟩)
  refine ⟨_, answers, ?_⟩
  beta_reduce
  rw [supTrip_eq]
  have str {v : Int} : (noteTrip r v (bump s)).str = s.str := noteTrip_str
  refine ⟨latchTrip_sets ho ?_ ((declared_congr str).trans decl) ((outputsOf_congr str).symm ▸ hit), ?_⟩
  · rw [noteTrip_owl]
    exact len
  · rw [latched, tripped_latchTrip, noteTrip_owl]
    simp

theorem meterOkTimeout_marks (len : o < s.owl.meterLost.length) :
    Answers (.meterOkTimeout o) s fun t => flag t.owl.meterLost o = true := ⟨_, rfl, put_getD_self len⟩

end Cycle

/-! ## Diagnostics and states (R184, R185, R195, R196) -/

section States
variable {d x : Nat}

/-- Owl's block but for what the safe-state line drops. -/
def beyondLine (b : OwlBlock) : OwlBlock := { b with released := [], requested := [], withhold := [] }

theorem beyondLine_withdraw {o : Nat} : beyondLine (withdraw o s).owl = beyondLine s.owl :=
  withdraw_keeps (I := fun b => beyondLine b = beyondLine s.owl) (fun _ _ => id) (fun _ => id) rfl

/-- The withdrawals of the line (R187). -/
def lineWithdrawals (s : State) : State :=
  (outletList (refreshWithhold s)).foldl (fun s o => if flag s.owl.released o then withdraw o s else s) (refreshWithhold s)

theorem beyondLine_lineWithdrawals : beyondLine (lineWithdrawals s).owl = beyondLine s.owl :=
  foldl_keeps (s := refreshWithhold s) (g := fun s : State => beyondLine s.owl) fun _ _ => by
    split
    · exact beyondLine_withdraw
    · rfl

/-- The line ends with every release and request of Owl given up. -/
theorem owl_lineDrop : (lineDrop s).owl = { (lineWithdrawals s).owl with
    requested := List.replicate 4 false, released := List.replicate 4 false } := by
  have slac {s : State} : (slacChecks s).owl = s.owl := part_of_law .owl same_slacChecks rfl
  unfold lineDrop
  dsimp only
  rw [slac, assertLine, owl_settleAll]
  rfl

theorem released_lineDrop {o : Nat} : flag (lineDrop s).owl.released o = false := by
  rw [owl_lineDrop]
  exact Bool.eq_false_iff.mpr flag_none

theorem beyondLine_lineDrop : beyondLine (lineDrop s).owl = beyondLine s.owl := by
  rw [owl_lineDrop, ← beyondLine_lineWithdrawals]
  rfl

/-- What Owl shows of a failed diagnostic: its state, the failed diagnostics, its watchdog and its configuration. -/
def diagView (b : OwlBlock) : OwlState × Nat × Bool × Twin OwlCfg := (b.state, b.diag, b.watchdogBad, b.cfg)

theorem diagView_beyondLine {b : OwlBlock} : diagView (beyondLine b) = diagView b := rfl

theorem diagView_lineDrop : diagView (lineDrop s).owl = diagView s.owl := by
  rw [← diagView_beyondLine, beyondLine_lineDrop, diagView_beyondLine]

/-- A failed diagnostic stops Owl, in HALT where it failed again and in SAFE else, and is marked. -/
theorem diagView_diagFail : ∃ again : Bool, diagView (diagFail d x s).owl
    = (if again then .halt else .safe, Nat.lor s.owl.diag (2 ^ d), s.owl.watchdogBad, s.owl.cfg) := by
  unfold diagFail
  extract_lets old again logged failed
  refine ⟨again, ?_⟩
  have owl : (if again = true then logOwlState old .halt 5 failed else failed).owl = failed.owl := by
    split
    · exact logEv_owl
    · rfl
  rw [diagView_lineDrop, owl, onOwl_owl, logEv_owl]
  rfl

/-- Owl is stopped: in SAFE or HALT, diagnostic `d` marked, and no outlet released. -/
structure Stopped (d : Nat) (t : State) : Prop where
  state : t.owl.state = .safe ∨ t.owl.state = .halt
  diag : bitAt t.owl.diag d = true
  released : ∀ o, flag t.owl.released o = false

theorem diagFail_stops : Stopped d (diagFail d x s) ∧ (diagFail d x s).owl.watchdogBad = s.owl.watchdogBad
    ∧ (diagFail d x s).owl.cfg = s.owl.cfg := by
  obtain ⟨again, view⟩ := diagView_diagFail (d := d) (x := x) (s := s)
  simp only [diagView, Prod.mk.injEq] at view
  obtain ⟨state, diag, watchdog, cfg⟩ := view
  refine ⟨⟨?_, ?_, fun o => released_lineDrop⟩, watchdog, cfg⟩
  · rw [state]
    cases again <;> simp
  · rw [diag, bitAt_lor, bitAt_two_pow, Bool.or_true]

/-- With both copies of the configuration lost every outlet is held and no password stands (R200). -/
theorem cfgCheck_lost : owlCfg (cfgCheck true true s) = { OwlCfg.fresh with held := List.replicate 4 true } := by
  unfold cfgCheck
  dsimp only
  rw [if_pos ⟨rfl, rfl⟩, owlCfg_changeEntry, owlCfg_logEv]
  rfl

theorem cfgDiag_lost : cfgDiag true true x s = diagFail 11 x (cfgCheck true true s) := rfl

theorem owlDiagFail_stops (active : s.owl.state = .start ∨ s.owl.state = .run) (hd : d < 12) :
    Answers (.owlDiagFail d x) s fun t => (t.owl.state = .safe ∨ t.owl.state = .halt) ∧ bitAt t.owl.diag d = true
      ∧ ∀ o, flag t.owl.released o = false := by
  have stopped : Stopped d (if d = 11 then cfgDiag true true x s else diagFail d x s) := by
    split
    next last =>
      rw [last, cfgDiag_lost]
      exact diagFail_stops.1
    next => exact diagFail_stops.1
  exact ⟨_, congrArg Host.Outcome.next (if_pos ⟨active, hd⟩), stopped.state, stopped.diag, stopped.released⟩

/-- OWL_PERIODIC_DIAG in RUN, of a diagnostic that exists. -/
theorem exec_owlPeriodicDiag {pass : Bool} (run : s.owl.state = .run) (hd : d < 12) :
    exec (.owlPeriodicDiag d pass x) s = .next (if pass then
        onOwl (fun b => { b with oscBad := b.oscBad && decide (d ≠ 4), supplyBad := b.supplyBad && decide (d ≠ 5) }) s
      else if d = 11 then cfgDiag (bitAt x 0) (bitAt x 1) x s
      else diagFail d x s) :=
  congrArg Host.Outcome.next (if_pos ⟨run, hd⟩)

theorem owlPeriodicDiag_passes (run : s.owl.state = .run) (hd : d < 12) :
    Answers (.owlPeriodicDiag d true x) s fun t => t.owl.state = .run ∧ t.owl.released = s.owl.released
      ∧ t.owl.oscBad = (s.owl.oscBad && decide (d ≠ 4)) ∧ t.owl.supplyBad = (s.owl.supplyBad && decide (d ≠ 5)) :=
  ⟨_, (exec_owlPeriodicDiag run hd).trans (congrArg _ (if_pos rfl)), run, rfl, rfl, rfl⟩

theorem owlPeriodicDiag_fails (run : s.owl.state = .run) (hd : d < 12) (other : d ≠ 11) :
    Answers (.owlPeriodicDiag d false x) s fun t => (t.owl.state = .safe ∨ t.owl.state = .halt) ∧ bitAt t.owl.diag d = true
      ∧ ∀ o, flag t.owl.released o = false := by
  refine ⟨_, exec_owlPeriodicDiag run hd, ?_⟩
  rw [if_neg nofun, if_neg other]
  obtain ⟨stopped, -⟩ := diagFail_stops (d := d) (x := x) (s := s)
  exact ⟨stopped.state, stopped.diag, stopped.released⟩

theorem owlPeriodicDiag_loses (run : s.owl.state = .run) (lostA : bitAt x 0 = true) (lostB : bitAt x 1 = true) :
    Answers (.owlPeriodicDiag 11 false x) s fun t =>
      (t.owl.state = .safe ∨ t.owl.state = .halt) ∧ bitAt t.owl.diag 11 = true ∧ (∀ o, flag t.owl.released o = false)
        ∧ (∀ o, o < 4 → held t o = true) ∧ (owlCfg t).verifier = none := by
  refine ⟨_, exec_owlPeriodicDiag run (by decide), ?_⟩
  rw [if_neg nofun, if_pos rfl, lostA, lostB, cfgDiag_lost]
  obtain ⟨stopped, -, cfg⟩ := diagFail_stops (d := 11) (x := x) (s := cfgCheck true true s)
  have lost : (diagFail 11 x (cfgCheck true true s)).owl.cfg.get = { OwlCfg.fresh with held := List.replicate 4 true } :=
    (congrArg Twin.get cfg).trans cfgCheck_lost
  refine ⟨stopped.state, stopped.diag, stopped.released, fun o ho => ?_, congrArg OwlCfg.verifier lost⟩
  rw [held, lost]
  exact (by decide : ∀ o < 4, flag (List.replicate 4 true) o = true) o ho

theorem owlWatchdogExpiry_stops (active : s.owl.state = .start ∨ s.owl.state = .run) :
    Answers .owlWatchdogExpiry s fun t => (t.owl.state = .safe ∨ t.owl.state = .halt) ∧ t.owl.watchdogBad = true
      ∧ bitAt t.owl.diag 3 = true ∧ ∀ o, flag t.owl.released o = false := by
  obtain ⟨stopped, watchdog, -⟩ := diagFail_stops (d := 3) (x := 0) (s := onOwl (fun b => { b with watchdogBad := true }) s)
  exact ⟨_, congrArg Host.Outcome.next (if_pos active), stopped.state, watchdog, stopped.diag, stopped.released⟩

theorem owlSafeTimeout_restarts (safe : s.owl.state = .safe) :
    Answers .owlSafeTimeout s fun t => t.owl.state = .start ∧ t.sys.domOwl = satInc 8 s.sys.domOwl
      ∧ t.owl.session = none ∧ ∀ o, flag t.owl.released o = false := by
  have restarted {u : State} : (logOwlState .safe .start 7 u).owl = u.owl := logEv_owl
  have counted {u : State} : (logOwlState .safe .start 7 u).sys.domOwl = u.sys.domOwl := by
    have sys : samePart .sys u (logOwlState .safe .start 7 u) := part_of_law .sys (same_logOwlState .safe .start 7) rfl
    have count := congrArg SysBlock.domOwl sys
    exact count
  refine ⟨_, congrArg Host.Outcome.next (if_pos safe), ?_⟩
  extract_lets counting
  beta_reduce
  rw [restarted, counted]
  exact ⟨rfl, rfl, rfl, fun o => Bool.eq_false_iff.mpr flag_none⟩

/-- Owl's block as it enters RUN (R184 row 3). -/
def enterRun (s : State) : State :=
  let s := owlRestore s
  onOwl (fun b => { b with
    state := .run, ran := true, oscBad := false, supplyBad := false, watchdogBad := false,
    efd := b.efd.mapIdx fun c x => startConn s (b.cfg.get.efdom.getD c default) x }) s

/-- What follows on the outlets: their checks and locks, their channels, and the sessions that wait for an offer. -/
def outletsEnterRun (s : State) : State :=
  let s := logOwlState .start .run 3 s
  let s := (outletList s).foldl (fun s o => startOutlet o s) s
  let s := settleAll s
  refreshWithhold ((outletList s).foldl (fun s o => offerChanged o s) s)

theorem exec_owlStartComplete (start : s.owl.state = .start) :
    exec .owlStartComplete s = .next (outletsEnterRun (enterRun s)) := congrArg Host.Outcome.next (if_pos start)

/-- Owl runs, with the releases `l`. -/
def RunsWith (l : List Bool) (b : OwlBlock) : Prop := b.state = .run ∧ b.ran = true ∧ b.released = l

section RunsWith
variable {l : List Bool}

theorem asks_runsWith {o : Nat} : Asks o (RunsWith l) := fun _ _ h => h

theorem runsWith_refreshWithhold (h : RunsWith l s.owl) : RunsWith l (refreshWithhold s).owl := h

theorem runsWith_startOutlets (h : RunsWith l s.owl) :
    RunsWith l ((outletList s).foldl (fun s o => startOutlet o s) s).owl :=
  owlKeeps_foldl (fun _ o h => owlKeeps_law h _ (same_startOutlet o)) h

theorem runsWith_offers (h : RunsWith l s.owl) :
    RunsWith l ((outletList s).foldl (fun s o => offerChanged o s) s).owl :=
  owlKeeps_foldl (fun _ _ h => offerChanged_keeps asks_runsWith h) h

theorem runsWith_outletsEnterRun (h : RunsWith l s.owl) : RunsWith l (outletsEnterRun s).owl := by
  have logged : RunsWith l (logOwlState .start .run 3 s).owl := owlKeeps_law h _ (same_logOwlState .start .run 3)
  have settled := owlKeeps_law (runsWith_startOutlets logged) _ same_settleAll
  exact runsWith_refreshWithhold (runsWith_offers settled)

end RunsWith

theorem owlStartComplete_runs (start : s.owl.state = .start) :
    Answers .owlStartComplete s fun t => t.owl.state = .run ∧ t.owl.ran = true ∧ t.owl.released = s.owl.released := by
  have entered : RunsWith s.owl.released (enterRun s).owl := ⟨rfl, rfl, rfl⟩
  exact ⟨_, exec_owlStartComplete start, runsWith_outletsEnterRun entered⟩

end States

/-- Settles O18: causes and guards are bits that no later step of a command writes; a cycle decides each outlet once on the
WITHHOLD it computed first; the line gives up every release last. -/
theorem owlSafetyCommandsEffect : Obligations.OwlSafetyCommandsEffect := by
  unfold Obligations.OwlSafetyCommandsEffect
  refine ⟨fun s k n o r _ => supervisedDelayExpiry_latches, fun s => owlCycle_decides, fun s o => meterOkTimeout_marks,
    fun s g b _ => guardInputChange_reads, fun s g l _ => guardDisagree_opens, ?autoclear, fun s o _ => autoclrExpiry_takes,
    fun s r o _ => owlTripClear_clears, fun s d x _ => owlDiagFail_stops, ?periodic, fun s _ => owlWatchdogExpiry_stops,
    fun s _ => owlSafeTimeout_restarts, fun s _ => owlStartComplete_runs⟩
  case autoclear =>
    intro s o _ run decl off
    exact ⟨tripAutoclear_row2 run decl off, tripAutoclear_row3 run decl off⟩
  case periodic =>
    intro s d x _ run hd
    exact ⟨owlPeriodicDiag_passes run hd, owlPeriodicDiag_fails run hd, owlPeriodicDiag_loses run⟩

end Sys2Proof.Machine
end

section
/-! PROOFS. The statements of 07_vehicle_links.md: what the commands of vehicle links, of the ports' rings, of Badger and of the
modes write, and which links, controllers and time domains a command leaves alone (R218, R232-R234, R262, R272, R409). -/

namespace Sys2Proof.Machine

variable {s t : State}

/-! ## Frames of vehicle links, ports, Badger and modes -/

/-- Settles O46: each command is its meaning, and the lemma of that meaning (Laws/FrameVehicle, Laws/FrameSlac) names the parts
it writes. -/
theorem vehicleFrames : Obligations.VehicleFrames := by
  unfold Obligations.VehicleFrames
  intro s t
  exact ⟨fun o x => onlyIn_next (same_execPilotFaultHold o x),
    fun o => onlyIn_next (same_execPilotModeTransitionEnd o),
    fun o w => onlyIn_next (same_execVlkPilotWrite o w),
    fun o x => onlyIn_next (same_execValidationWindowEnd o x),
    fun o x => onlyIn_next (same_execProximityCode o x),
    fun r o => onlyIn_next (same_execVlkStart r o),
    fun r o k => onlyIn_next (same_execVlkStop r o k),
    fun r o => onlyIn_next (same_execVlkUnlock r o),
    fun o => onlyIn_next (same_execReleaseRetry o),
    fun o g c => onlyIn_next (same_execOverdraw o g c),
    fun o => onlyIn_next (same_execDcContactorOpen o),
    fun o r => onlyIn_next (same_execCmSlacParmReq o r),
    fun o => onlyIn_next (same_execAttenCharResend o),
    fun o r => onlyIn_next (same_execCmSlacMatchReq o r),
    fun o r => onlyIn_next (same_execCmStartAttenCharInd o r),
    fun o r l => onlyIn_next (same_execCmMnbcSoundInd o r l),
    fun o r => onlyIn_next (same_execCmAttenCharRsp o r),
    fun o r n => onlyIn_next (same_execCmValidateReq o r n),
    fun o => onlyIn_next (same_execSoundingWindowEnd o),
    fun o => onlyIn_next (same_execSlacJoined o),
    fun o w => onlyIn_next (same_execSlacTimeout o w),
    fun o => onlyIn_next (same_execSlacLinkLost o)⟩

/-- Settles O48: each command is its meaning, and the lemma of that meaning (Laws/FrameFrames, Laws/FrameGrid, Laws/FrameCan)
names the parts it writes. -/
theorem portFrames : Obligations.PortFrames := by
  unfold Obligations.PortFrames
  intro s t
  exact ⟨fun p w => onlyIn_next (same_execFrameTxTailWrite p w),
    fun p => onlyIn_next (same_execFrameTxTimeout p),
    fun p w => onlyIn_next (same_execFrameRxTailWrite p w),
    fun p x => onlyIn_next (same_execFrameTransmitted p x),
    fun p f => onlyIn_next (same_execFrameReceived p f),
    fun b => onlyIn_next (same_execGlkBeacon b),
    fun x n => onlyIn_next (same_execCcAssocCnf x n),
    onlyIn_next same_execGlkAssocTimeout,
    onlyIn_next same_execGlkLeaseRenew,
    fun n => onlyIn_next (same_execNeighbourExpiry n),
    fun n m => onlyIn_next (same_execToneMapReceived n m),
    fun n w => onlyIn_next (same_execToneMapTimeout n w),
    fun n => onlyIn_next (same_execToneMapReestimate n),
    onlyIn_next same_execWakeInhibitEnd,
    fun b => onlyIn_next (same_execNekReceived b),
    onlyIn_next same_execGlkBackoffExpiry,
    onlyIn_next same_execGlkBeaconLoss,
    fun w => onlyIn_next (same_execGlkCfgWrite w),
    fun x => onlyIn_next (same_execSackReceived x),
    onlyIn_next same_execMsduLifetimeExpiry,
    fun n => onlyIn_next (same_execReassemblyTimeout n),
    onlyIn_next same_execGlkZcIndSend,
    fun n m => onlyIn_next (same_execGlkZcInd n m),
    fun x y z => onlyIn_next (same_execEthLinkPoll x y z),
    onlyIn_next same_execBackhaulFailover,
    fun w => onlyIn_next (same_execEthMdioGo w),
    fun n => onlyIn_next (same_execEthMdioDone n),
    fun c x => onlyIn_next (same_execCanStuck c x),
    fun c x => onlyIn_next (same_execCanBusoffRecovery c x),
    fun c x y => onlyIn_next (same_execCanErrorStateChange c x y)⟩

/-- Settles O51: each command is its meaning, and the lemma of that meaning (Laws/FrameBadger, Laws/FrameWake, Laws/FrameTime and
the files of the commands that wake) names the parts it writes. -/
theorem badgerAndModeFrames : Obligations.BadgerAndModeFrames := by
  unfold Obligations.BadgerAndModeFrames
  intro s t
  exact ⟨fun o x y => onlyIn_next (same_execPilotStateAccepted o x y),
    fun i => onlyIn_next (same_execFullPoll i),
    fun b => onlyIn_next (same_execGlkWakeInd b),
    onlyIn_next same_execFieldDetection,
    fun d => onlyIn_next (same_execTamperDetect d),
    fun n x => onlyIn_next (same_execWakeEvent n x),
    fun w => onlyIn_next (same_execSysWakeWrite w),
    onlyIn_next same_execSecondBoundary,
    onlyIn_next same_execAlarmFire,
    fun n x => onlyIn_next (same_execCrackLoopMeasure n x),
    onlyIn_next same_execBadgerWatchdogExpiry,
    fun k => onlyIn_next (same_execAppHeartbeatTimeout k),
    fun w => onlyIn_next (same_execMgtAmbHbWrite w),
    fun v => onlyIn_next (same_execMailboxDoorbell v),
    fun i => onlyIn_next (same_execMonitorEvaluate i),
    fun x => onlyIn_next (same_execClockFail x),
    fun x => onlyIn_next (same_execLogArchiveFlush x),
    fun r n k => onlyIn_next (same_execMgtLogRead r n k),
    fun r n => onlyIn_next (same_execMgtLogAck r n),
    fun r => onlyIn_next (same_execMgtRestart r),
    fun r n => onlyIn_next (same_execSleep r n),
    fun n => onlyIn_next (same_execSleepVoteTimeout n),
    onlyIn_next same_execSleepCommit,
    onlyIn_next same_execSleepArm,
    onlyIn_next same_execSleepEnter,
    fun r n => onlyIn_next (same_execModeSet r n),
    onlyIn_next same_execLimpExit,
    fun v => onlyIn_next (same_execSysWakesrcRead v),
    onlyIn_next same_execBadgerReady⟩

/-! ## One instance apart from the others -/

/-- What `g` reads of every instance but `n` is in `s` as in `a`. -/
def OthersRead {α : Type} (g : State → Nat → α) (n : Nat) (a s : State) : Prop := ∀ m, m ≠ n → g s m = g a m

/-- The same of what an outcome goes on to. -/
def OthersReadO {α : Type} (g : State → Nat → α) (n : Nat) (a : State) (o : Host.Outcome State Fault Refusal) : Prop :=
  ∀ t, o = .next t → OthersRead g n a t

section Others
variable {α : Type} {g : State → Nat → α} {a : State} {n : Nat}

theorem othersReadO_next (h : OthersRead g n a s) : OthersReadO g n a (.next s) := by
  intro t ht
  cases ht
  exact h

theorem othersRead_refl : OthersRead g n a a := fun _ _ => rfl

theorem othersRead_ite {c : Prop} [Decidable c] {x y : State} (hx : OthersRead g n a x) (hy : OthersRead g n a y) :
    OthersRead g n a (if c then x else y) := by
  split
  · exact hx
  · exact hy

/-- An operation that changes nothing of what `g` reads. -/
theorem OthersRead.eq (h : OthersRead g n a s) (same : ∀ m, g t m = g s m) : OthersRead g n a t :=
  fun m hm => (same m).trans (h m hm)

/-! ### Links: SLAC and the pilot (R218, R232-R234) -/

section Links
variable {f : Link → Link}

theorem linkOf_congr {m : Nat} (vlk : t.vlk = s.vlk) : linkOf t m = linkOf s m := by rw [linkOf, linkOf, vlk]

theorem otherLinks_onLink (h : OthersRead linkOf n a s) : OthersRead linkOf n a (onLink n f s) :=
  fun m hm => (linkOf_onLink_ne hm).trans (h m hm)

theorem otherLinks_slacCheck (h : OthersRead linkOf n a s) : OthersRead linkOf n a (slacCheck n s) :=
  othersRead_ite (othersRead_ite (otherLinks_onLink h) h) (othersRead_ite h (otherLinks_onLink h))

theorem otherLinks_requestRelease (h : OthersRead linkOf n a s) : OthersRead linkOf n a (requestRelease n s) :=
  othersRead_ite (otherLinks_onLink h) (otherLinks_onLink h)

theorem otherLinks_advance (h : OthersRead linkOf n a s) : OthersRead linkOf n a (advance n s) := by
  unfold advance
  dsimp only
  split
  · exact h
  · split
    · exact otherLinks_onLink h
    · exact othersRead_ite h (otherLinks_requestRelease h)
    · exact h

theorem otherLinks_offerChanged (h : OthersRead linkOf n a s) : OthersRead linkOf n a (offerChanged n s) := by
  have advanced : OthersRead linkOf n a (advance n (slacCheck n s)) := otherLinks_advance (otherLinks_slacCheck h)
  exact othersRead_ite (otherLinks_requestRelease advanced) advanced

theorem otherLinks_logSlac (h : OthersRead linkOf n a s) : OthersRead linkOf n a (logSlac n s) :=
  h.eq fun _ => linkOf_congr logEv_vlk

theorem otherLinks_slacFail {x : Slac} (h : OthersRead linkOf n a s) : OthersRead linkOf n a (slacFail n x s) :=
  otherLinks_onLink (otherLinks_logSlac (otherLinks_onLink h))

theorem otherLinks_fallBack (h : OthersRead linkOf n a s) : OthersRead linkOf n a (fallBack n s) :=
  othersRead_ite (otherLinks_slacCheck (otherLinks_onLink h)) h

theorem otherLinks_pilotWrite {w : Nat} (h : OthersRead linkOf n a s) : OthersRead linkOf n a (pilotWrite n w s) :=
  othersRead_ite h (otherLinks_offerChanged (otherLinks_onLink (otherLinks_onLink h)))

theorem otherLinks_endValidation {x : Bool} (h : OthersRead linkOf n a s) : OthersRead linkOf n a (endValidation n x s) := by
  unfold endValidation
  dsimp only
  split
  · exact otherLinks_offerChanged (otherLinks_onLink h)
  · exact h

theorem otherLinks_execCmSlacParmReq {k : Nat} : OthersReadO linkOf n s (execCmSlacParmReq n k s) :=
  othersReadO_next (othersRead_ite
    (othersRead_ite (otherLinks_onLink othersRead_refl) (otherLinks_onLink othersRead_refl))
    (othersRead_ite othersRead_refl (otherLinks_onLink othersRead_refl)))

theorem otherLinks_execCmStartAttenCharInd {k : Nat} : OthersReadO linkOf n s (execCmStartAttenCharInd n k s) :=
  othersReadO_next (othersRead_ite (otherLinks_onLink othersRead_refl)
    (othersRead_ite (otherLinks_onLink othersRead_refl) othersRead_refl))

theorem otherLinks_execCmMnbcSoundInd {k : Nat} {l : List Nat} : OthersReadO linkOf n s (execCmMnbcSoundInd n k l s) :=
  othersReadO_next (othersRead_ite
    (othersRead_ite (otherLinks_onLink (otherLinks_onLink othersRead_refl)) (otherLinks_onLink (otherLinks_onLink othersRead_refl)))
    othersRead_refl)

theorem otherLinks_execSoundingWindowEnd : OthersReadO linkOf n s (execSoundingWindowEnd n s) := by
  unfold execSoundingWindowEnd
  dsimp only
  refine othersReadO_next ?_
  have measured (own other : Nat) :
      OthersRead linkOf n s (bump (onLink n (fun l => { l with own := own, other := other }) s)) :=
    otherLinks_onLink othersRead_refl
  split
  · exact othersRead_ite
      (otherLinks_onLink (OthersRead.eq (otherLinks_onLink (measured _ _)) fun _ => linkOf_congr logEv_vlk))
      (otherLinks_onLink (measured _ _))
  · exact othersRead_refl

theorem otherLinks_execCmAttenCharRsp {k : Nat} : OthersReadO linkOf n s (execCmAttenCharRsp n k s) :=
  othersReadO_next (othersRead_ite (otherLinks_onLink othersRead_refl) (otherLinks_onLink othersRead_refl))

theorem otherLinks_execAttenCharResend : OthersReadO linkOf n s (execAttenCharResend n s) :=
  othersReadO_next (othersRead_ite othersRead_refl
    (othersRead_ite (otherLinks_onLink othersRead_refl) (otherLinks_onLink othersRead_refl)))

theorem otherLinks_execCmValidateReq {k c : Nat} : OthersReadO linkOf n s (execCmValidateReq n k c s) :=
  othersReadO_next (othersRead_ite (otherLinks_onLink othersRead_refl) (othersRead_ite othersRead_refl
    (othersRead_ite (otherLinks_onLink othersRead_refl) (otherLinks_onLink othersRead_refl))))

theorem otherLinks_execCmSlacMatchReq {k : Nat} : OthersReadO linkOf n s (execCmSlacMatchReq n k s) :=
  othersReadO_next (othersRead_ite (otherLinks_onLink othersRead_refl)
    (othersRead_ite (otherLinks_onLink othersRead_refl) othersRead_refl))

theorem otherLinks_execSlacJoined : OthersReadO linkOf n s (execSlacJoined n s) :=
  othersReadO_next (othersRead_ite (otherLinks_logSlac (otherLinks_onLink othersRead_refl)) othersRead_refl)

theorem otherLinks_execSlacTimeout {x : SlacTimeout} : OthersReadO linkOf n s (execSlacTimeout n x s) := by
  have fails : OthersRead linkOf n s (fallBack n (slacFail n .failed s)) :=
    otherLinks_fallBack (otherLinks_slacFail othersRead_refl)
  have waits : OthersRead linkOf n s (toWaitParm n s) := otherLinks_onLink othersRead_refl
  refine othersReadO_next ?_
  cases x with
  | waitParm | noJoin => exact othersRead_ite fails othersRead_refl
  | noStart | noMatch => exact othersRead_ite waits othersRead_refl

theorem otherLinks_execSlacLinkLost : OthersReadO linkOf n s (execSlacLinkLost n s) :=
  othersReadO_next (othersRead_ite (otherLinks_slacFail (otherLinks_onLink othersRead_refl)) othersRead_refl)

theorem otherLinks_execPilotModeTransitionEnd : OthersReadO linkOf n s (execPilotModeTransitionEnd n s) :=
  othersReadO_next (othersRead_ite (otherLinks_offerChanged (otherLinks_onLink othersRead_refl)) othersRead_refl)

end Links

/-! ### CAN controllers (R409) -/

section Cans
variable {f : Can → Can}

theorem canOf_congr {m : Nat} (can : t.can = s.can) : canOf t m = canOf s m := by rw [canOf, canOf, can]

theorem otherCans_onCan (h : OthersRead canOf n a s) : OthersRead canOf n a (onCan n f s) :=
  fun m hm => (canOf_onCan_ne hm).trans (h m hm)

theorem otherCans_pumpTx {k : Nat} (h : OthersRead canOf n a s) : OthersRead canOf n a (pumpTx (.can n) k s) := by
  induction k generalizing s with
  | zero => exact h
  | succ k ih =>
    unfold pumpTx
    split
    · split
      · exact ih (otherCans_onCan h)
      · exact h
    · exact h

theorem otherCans_setCan {st : CanState} (h : OthersRead canOf n a s) : OthersRead canOf n a (setCan n st s) :=
  othersRead_ite h (otherCans_pumpTx (OthersRead.eq (otherCans_onCan h) fun _ => canOf_congr logEv_can))

theorem otherCans_execCanStuck {x : Bool} : OthersReadO canOf n s (execCanStuck n x s) :=
  othersReadO_next (othersRead_ite othersRead_refl (othersRead_ite
    (othersRead_ite (otherCans_setCan othersRead_refl) othersRead_refl)
    (othersRead_ite (otherCans_setCan othersRead_refl) othersRead_refl)))

theorem otherCans_execCanBusoffRecovery {x : Bool} : OthersReadO canOf n s (execCanBusoffRecovery n x s) :=
  othersReadO_next (othersRead_ite (otherCans_setCan (otherCans_onCan othersRead_refl)) othersRead_refl)

theorem otherCans_execCanErrorStateChange {j k : Nat} : OthersReadO canOf n s (execCanErrorStateChange n j k s) :=
  othersReadO_next (othersRead_ite othersRead_refl
    (othersRead_ite (otherCans_onCan othersRead_refl) (otherCans_setCan (otherCans_onCan othersRead_refl))))

end Cans

/-! ### Time domains (R262, R272) -/

section Domains
variable {f : Domain → Domain}

theorem domOf_congr {m : Nat} (tim : t.tim = s.tim) : domOf t m = domOf s m := by rw [domOf, domOf, tim]

theorem otherDoms_onDom (h : OthersRead domOf n a s) : OthersRead domOf n a (onDom n f s) :=
  fun m hm => (domOf_onDom_ne hm).trans (h m hm)

theorem otherDoms_setDomState {st : DomState} (h : OthersRead domOf n a s) : OthersRead domOf n a (setDomState n st s) :=
  othersRead_ite (otherDoms_onDom h) (OthersRead.eq (otherDoms_onDom h) fun _ => domOf_congr logEv_tim)

/-- A step of NOW writes no domain. -/
theorem otherDoms_stepNow {new : Nat} {valid : Bool} (h : OthersRead domOf n a s) : OthersRead domOf n a (stepNow new valid s) :=
  othersRead_ite h h

theorem otherDoms_stepDomain {x : Int} (h : OthersRead domOf n a s) : OthersRead domOf n a (stepDomain n x s) :=
  othersRead_ite (otherDoms_stepNow (otherDoms_onDom h)) (otherDoms_onDom h)

theorem otherDoms_correct {x : Int} (h : OthersRead domOf n a s) : OthersRead domOf n a (correct n x s) :=
  otherDoms_setDomState (othersRead_ite (otherDoms_stepDomain h) (otherDoms_onDom h))

theorem otherDoms_execDomainHoldoverExpiry : OthersReadO domOf n s (execDomainHoldoverExpiry n s) :=
  othersReadO_next (othersRead_ite (otherDoms_setDomState othersRead_refl) othersRead_refl)

/-- A command under checks: posting its result writes no domain. -/
theorem otherDoms_guarded {r : Req} {l : List (Bool × Nat)} {x : State → Int} :
    OthersRead domOf n s (guarded r l (fun s => postSts r stsOk (correct n (x s) s)) s) :=
  othersRead_ite (OthersRead.eq (otherDoms_correct othersRead_refl) fun _ => domOf_congr postSts_tim)
    (OthersRead.eq othersRead_refl fun _ => domOf_congr postSts_tim)

theorem otherDoms_execTimSet {r : Req} {k : Nat} : OthersReadO domOf n s (execTimSet r n k s) :=
  othersReadO_next (otherDoms_guarded (x := fun s => ((nsOfTs k * 2 ^ 28 : Nat) : Int) - (domOf s n).t))

theorem otherDoms_execTimOffset {r : Req} {k : Int} : OthersReadO domOf n s (execTimOffset r n k s) :=
  othersReadO_next (otherDoms_guarded (x := fun _ => k * 2 ^ 28 + (domOf s n).slew))

end Domains

end Others

/-- Settles O55: a command of one link, controller or domain writes that one alone, and neither the log nor Owl's block, a
posted result or the rings in SRAM hold another one. -/
theorem oneLinkCommandsLeaveTheOtherLinks : Obligations.OneLinkCommandsLeaveTheOtherLinks := by
  unfold Obligations.OneLinkCommandsLeaveTheOtherLinks
  intro s t n
  exact ⟨fun _ => otherLinks_execCmSlacParmReq t, fun _ => otherLinks_execCmStartAttenCharInd t,
    fun _ _ => otherLinks_execCmMnbcSoundInd t, otherLinks_execSoundingWindowEnd t, fun _ => otherLinks_execCmAttenCharRsp t,
    otherLinks_execAttenCharResend t, fun _ _ => otherLinks_execCmValidateReq t,
    fun _ => othersReadO_next (otherLinks_endValidation othersRead_refl) t, fun _ => otherLinks_execCmSlacMatchReq t,
    otherLinks_execSlacJoined t, fun _ => otherLinks_execSlacTimeout t, otherLinks_execSlacLinkLost t,
    otherLinks_execPilotModeTransitionEnd t, fun _ => othersReadO_next (otherLinks_pilotWrite othersRead_refl) t,
    fun _ => otherCans_execCanStuck t, fun _ => otherCans_execCanBusoffRecovery t,
    fun _ _ => otherCans_execCanErrorStateChange t, otherDoms_execDomainHoldoverExpiry t,
    fun _ _ => otherDoms_execTimSet t, fun _ _ => otherDoms_execTimOffset t⟩

end Sys2Proof.Machine
end

section
/-! PROOFS. The statements of 07_vehicle_links.md: the effect of each SLAC message, window and timeout (R231-R234). -/

namespace Sys2Proof.Machine

variable {s t : State} {o p m : Nat}

/-! ## Links and what an update of one leaves -/

section Links
variable {α : Type} {v : Link → α} {f : Link → Link}

theorem link_in_range (inv : s.Inv) (ho : o < 4) : o < s.vlk.length := (lock_in_range inv ho).2

@[simp] theorem vlk_length_onLink : (onLink p f s).vlk.length = s.vlk.length := List.length_modify ..

/-- A view of the links that an update keeps, of the updated link and of the others. -/
theorem linkOf_onLink_keeps (hf : ∀ l, v (f l) = v l) : v (linkOf (onLink p f s) m) = v (linkOf s m) :=
  upd_getD_rel (R := fun x y => v y = v x) (fun _ => rfl) hf

/-- What an update leaves true of a link holds of the updated link and of the others. -/
theorem linkOf_onLink_holds {P : Link → Prop} (hf : ∀ l, P l → P (f l)) (h : P (linkOf s m)) : P (linkOf (onLink p f s) m) :=
  upd_getD_rel (R := fun x y => P x → P y) (fun _ h => h) hf h

@[simp] theorem linkOf_logEv {c : EvClass} {b i k : Nat} {d : List (Nat × Nat)} : linkOf (logEv c b i k d s) m = linkOf s m :=
  linkOf_congr logEv_vlk

@[simp] theorem linkOf_bump : linkOf (bump s) m = linkOf s m := rfl

/-! ### SLAC switched on and off (R232) -/

/-- Row 1 of R232 and the return to OFF: nothing, WAIT_PARM out of OFF, or OFF. -/
theorem slacCheck_eq_or : slacCheck p s = s
    ∨ (linkOf s p).slac = .off ∧ slacCheck p s = onLink p (fun l => { l with slac := .waitParm }) s
    ∨ slacCheck p s = slacOff p s := by
  unfold slacCheck
  split
  · split
    next begins => exact .inr (.inl ⟨begins.1, rfl⟩)
    next => exact .inl rfl
  · split
    · exact .inl rfl
    · exact .inr (.inr rfl)

/-- `l` with what `slacCheck` writes of a link as `m` has it. -/
def withSlac (m l : Link) : Link :=
  { l with slac := m.slac, nmk := m.nmk, runId := m.runId, attenRun := m.attenRun, attenSent := m.attenSent, window := m.window }

/-- A view of a link that no SLAC check changes. -/
def SlacFree (v : Link → α) : Prop := ∀ m l, v (withSlac m l) = v l

theorem slacCheck_keeps_link (free : SlacFree v) : v (linkOf (slacCheck p s) m) = v (linkOf s m) := by
  obtain same | ⟨-, begins⟩ | ends := slacCheck_eq_or (s := s) (p := p)
  · rw [same]
  · rw [begins]
    exact linkOf_onLink_keeps fun l => free { l with slac := .waitParm } l
  · rw [ends]
    exact linkOf_onLink_keeps fun l => free Link.fresh l

/-- What holds of every link and is left true by WAIT_PARM and by OFF stays true. -/
theorem slacCheck_holds {P : Link → Prop} (begins : ∀ l, P l → P { l with slac := .waitParm })
    (ends : ∀ l, P l → P (withSlac Link.fresh l)) (h : P (linkOf s m)) : P (linkOf (slacCheck p s) m) := by
  obtain same | ⟨-, taken⟩ | taken := slacCheck_eq_or (s := s) (p := p)
  · rwa [same]
  · rw [taken]
    exact linkOf_onLink_holds begins h
  · rw [taken]
    exact linkOf_onLink_holds ends h

/-- SLAC that runs where it may goes on. -/
theorem slacCheck_allowed (allowed : slacAllowed s p = true) (on : (linkOf s p).slac ≠ .off) : slacCheck p s = s := by
  unfold slacCheck
  rw [if_pos allowed, if_neg fun begins => on begins.1]

/-- What the waveform and the offer read of a link (R217, R218). -/
def pilotInputs (l : Link) := (l.cp, l.sup, l.trans, l.mode, l.reqCur, l.ppMode, l.sessCap, l.ppCode)

theorem slacAllowed_onLink (hf : ∀ l, pilotInputs (f l) = pilotInputs l) : slacAllowed (onLink p f s) m = slacAllowed s m := by
  have own := linkOf_onLink_keeps (s := s) (p := p) (m := m) hf
  simp only [pilotInputs, Prod.mk.injEq] at own
  obtain ⟨cp, sup, trans, mode, cur, pp, cap, code⟩ := own
  unfold slacAllowed waveform offerOf capacityNow
  simp only [cp, sup, trans, mode, cur, pp, cap, code]
  rfl

/-! ### The steps of the sequence that a change of the offer may take (R225, R226) -/

/-- `l` with what a step of the sequence writes of a link as `m` has it. -/
def withStep (m l : Link) : Link :=
  { l with phase := m.phase, relTries := m.relTries, uvPause := m.uvPause, meterOpen := m.meterOpen }

/-- A view of a link that no step of the sequence changes. -/
def StepFree (v : Link → α) : Prop := ∀ m l, v (withStep m l) = v l

section Steps
variable (free : StepFree v)
include free

theorem requestRelease_keeps_link : v (linkOf (requestRelease p s) m) = v (linkOf s m) := by
  unfold requestRelease
  extract_lets go u
  have asked : v (linkOf u m) = v (linkOf s m) :=
    linkOf_onLink_keeps fun l => free { l with phase := .release, relTries := if go then 1 else 0, uvPause := l.uvPause && !go } l
  split
  · exact asked
  · exact asked

theorem advance_keeps_link : v (linkOf (advance p s) m) = v (linkOf s m) := by
  unfold advance
  dsimp only
  split
  · rfl
  · split
    · exact linkOf_onLink_keeps fun l => free { l with phase := .waitStart, meterOpen := true } l
    · split
      · rfl
      · exact requestRelease_keeps_link free
    · rfl

theorem tryResume_keeps_link : v (linkOf (tryResume p s) m) = v (linkOf s m) := by
  unfold tryResume
  dsimp only
  split
  · exact requestRelease_keeps_link free
  · rfl

/-- A changed offer: what is left of a link is what SLAC's check leaves. -/
theorem offerChanged_link : v (linkOf (offerChanged p s) m) = v (linkOf (slacCheck p s) m) :=
  (tryResume_keeps_link free).trans (advance_keeps_link free)

theorem offerChanged_keeps_link (slac : SlacFree v) : v (linkOf (offerChanged p s) m) = v (linkOf s m) :=
  (offerChanged_link free).trans (slacCheck_keeps_link slac)

end Steps

end Links

/-! ## SLAC (R231-R234) -/

section Slac
variable {r : Nat}

theorem fit_length {n : Nat} {l : Bytes} : (fit n l).length = n := by
  simp only [fit, zeros, List.length_append, List.length_take, List.length_replicate]
  omega

/-! ### Sounding (R232 rows 2 and 3, R233) -/

theorem cmSlacParmReq_takes (ho : o < s.vlk.length) (allowed : slacAllowed s o = true) (on : modemOn s o = true)
    (waits : (linkOf s o).slac = .waitParm) (new : (linkOf s o).oldRuns.contains r = false) :
    Answers (.cmSlacParmReq o r) s fun t => (linkOf t o).slac = .waitParm ∧ (linkOf t o).runId = some r
      ∧ ∃ c : Bytes, c.length = 16 ∧ (linkOf t o).sent = some { kind := 1, runId := r, count := 0, data := c } := by
  refine ⟨_, congrArg Host.Outcome.next ((if_pos ⟨allowed, on, .inl waits⟩).trans (if_neg (by simp only [new]; decide))), ?_⟩
  dsimp only
  rw [linkOf_bump, linkOf_onLink_self ho]
  exact ⟨rfl, rfl, _, fit_length, rfl⟩

theorem cmStartAttenCharInd_sounds (ho : o < s.vlk.length) (run : (linkOf s o).runId = some r)
    (waits : (linkOf s o).slac = .waitParm) :
    Answers (.cmStartAttenCharInd o r) s fun t => (linkOf t o).slac = .sounding ∧ (linkOf t o).sounds = 0 := by
  refine ⟨_, congrArg Host.Outcome.next ((if_neg (not_not.mpr run)).trans (if_pos waits)), ?_⟩
  dsimp only
  rw [linkOf_onLink_self ho]
  exact ⟨rfl, rfl⟩

theorem cmMnbcSoundInd_counts {l : List Nat} (ho : o < s.vlk.length) (on : modemOn s o = true)
    (run : (linkOf s o).runId = some r) (sounding : (linkOf s o).slac = .sounding) :
    Answers (.cmMnbcSoundInd o r l) s fun t => (linkOf t o).sounds = satInc 8 (linkOf s o).sounds
      ∧ (linkOf t o).heard = addSound s.ticks r l (linkOf s o).heard := by
  have heard : linkOf (onLink o (fun x => { x with heard := addSound s.ticks r l x.heard }) s) o
      = { linkOf s o with heard := addSound s.ticks r l (linkOf s o).heard } := linkOf_onLink_self ho
  refine ⟨_, congrArg Host.Outcome.next ((if_pos on).trans (if_neg (not_not.mpr ?_))), ?_⟩
  · rw [heard]
    exact run
  · dsimp only
    rw [linkOf_onLink_self (by rwa [vlk_length_onLink]), heard, if_pos sounding]
    exact ⟨rfl, rfl⟩

theorem linkOf_toWaitParm (ho : o < s.vlk.length) : linkOf (toWaitParm o s) o
    = { linkOf s o with slac := .waitParm, runId := none, attenRun := none, attenSent := 0, window := none } :=
  linkOf_onLink_self ho

/-- An update of a link on what was measured of it with a draw. -/
theorem linkOf_onLink_measured {f g : Link → Link} (ho : o < s.vlk.length) :
    linkOf (onLink o f (bump (onLink o g s))) o = f (g (linkOf s o)) := by
  have inner : linkOf (bump (onLink o g s)) o = g (linkOf s o) := linkOf_onLink_self ho
  have len : (bump (onLink o g s)).vlk.length = s.vlk.length := vlk_length_onLink
  rw [linkOf_onLink_self (len ▸ ho), inner]

/-- The profile of a window is that of the sounds heard since it began. -/
theorem attenInd_congr {up : Bool} (heard : (linkOf t o).heard = (linkOf s o).heard)
    (since : (linkOf t o).soundTick = (linkOf s o).soundTick) : attenInd up t o r = attenInd up s o r := by
  simp only [attenInd, soundsOf, heard, since]

theorem soundingWindowEnd_decides (ho : o < s.vlk.length) (run : (linkOf s o).runId = some r)
    (sounding : (linkOf s o).slac = .sounding) :
    Answers (.soundingWindowEnd o) s fun t =>
      ((linkOf t o).slac = .waitParm ∧ (linkOf t o).runId = none ∧ (linkOf t o).suppressed = true
          ∧ r ∈ (linkOf t o).oldRuns)
        ∨ ((linkOf t o).slac = .sounding ∧ (linkOf t o).attenRun = some r ∧ (linkOf t o).attenSent = 1
          ∧ (linkOf t o).sent = some (attenInd (freeBit s) s o r)) := by
  show ∃ t, execSoundingWindowEnd o s = .next t ∧ _
  unfold execSoundingWindowEnd
  simp only [sounding, run]
  refine ⟨_, rfl, ?_⟩
  split
  next higher =>
    left
    rw [linkOf_toWaitParm (by simpa [bump] using ho), linkOf_logEv, linkOf_onLink_measured ho]
    exact ⟨rfl, rfl, rfl, List.mem_cons_self⟩
  next =>
    right
    rw [linkOf_onLink_measured ho, attenInd_congr (s := s)]
    · exact ⟨sounding, rfl, rfl, rfl⟩
    · exact linkOf_onLink_keeps (v := Link.heard) fun _ => rfl
    · exact linkOf_onLink_keeps (v := Link.soundTick) fun _ => rfl

/-! ### The profile and its repeats (R232 row 4) -/

theorem cmAttenCharRsp_ends (ho : o < s.vlk.length) (run : (linkOf s o).attenRun = some r) :
    Answers (.cmAttenCharRsp o r) s fun t => linkOf t o = { linkOf s o with attenSent := 0 } :=
  ⟨_, congrArg Host.Outcome.next (if_pos run), linkOf_onLink_self ho⟩

theorem attenCharResend_repeats (ho : o < s.vlk.length) (sounding : (linkOf s o).slac = .sounding)
    (waits : (linkOf s o).attenSent ≠ 0) :
    Answers (.attenCharResend o) s fun t =>
      ((linkOf s o).attenSent < 3 → (linkOf t o).attenSent = (linkOf s o).attenSent + 1 ∧ (linkOf t o).slac = .sounding)
        ∧ (3 ≤ (linkOf s o).attenSent → (linkOf t o).slac = .waitParm ∧ (linkOf t o).runId = none) := by
  have goes : ¬ ((linkOf s o).slac ≠ .sounding ∨ (linkOf s o).attenSent = 0) := by simp [sounding, waits]
  rcases Nat.lt_or_ge (linkOf s o).attenSent 3 with few | all
  · refine ⟨_, congrArg Host.Outcome.next ((if_neg goes).trans (if_pos few)), ?_⟩
    dsimp only
    rw [linkOf_bump, linkOf_onLink_self ho]
    exact ⟨fun _ => ⟨rfl, sounding⟩, fun all => absurd few (Nat.not_lt.mpr all)⟩
  · refine ⟨_, congrArg Host.Outcome.next ((if_neg goes).trans (if_neg (Nat.not_lt.mpr all))), ?_⟩
    dsimp only
    rw [linkOf_toWaitParm ho]
    exact ⟨fun few => absurd few (Nat.not_lt.mpr all), fun _ => ⟨rfl, rfl⟩⟩

/-! ### Validation (R234) -/

theorem cmValidateReq_opens {n : Nat} (ho : o < s.vlk.length) (run : (linkOf s o).attenRun = some r)
    (sounding : (linkOf s o).slac = .sounding) :
    Answers (.cmValidateReq o r n) s fun t =>
      ((linkOf s o).ambig = true → (linkOf t o).slac = .validating ∧ (linkOf t o).window = some { want := n, count := 0, mark := none }
          ∧ (linkOf t o).sent = some { kind := 4, runId := r, count := 0, data := [] })
        ∧ ((linkOf s o).ambig = false →
            linkOf t o = { linkOf s o with sent := some { kind := 3, runId := r, count := 0, data := [] } }) := by
  have mine : ¬ (linkOf s o).attenRun ≠ some r := not_not.mpr run
  have goes : ¬ ((linkOf s o).slac ≠ .sounding ∧ (linkOf s o).slac ≠ .validating) := fun h => h.1 sounding
  cases ambig : (linkOf s o).ambig with
  | true =>
    refine ⟨_, congrArg Host.Outcome.next ((if_neg mine).trans ((if_neg goes).trans (if_pos ambig))), ?_⟩
    dsimp only
    rw [linkOf_onLink_self ho]
    exact ⟨fun _ => ⟨rfl, rfl, rfl⟩, nofun⟩
  | false =>
    refine ⟨_, congrArg Host.Outcome.next ((if_neg mine).trans ((if_neg goes).trans (if_neg (by simp [ambig])))), ?_⟩
    exact ⟨nofun, fun _ => linkOf_onLink_self ho⟩

/-- What the end of a validation window writes of a link. -/
def reported (failed : Bool) (r : Nat) (w : ValWindow) (l : Link) : Link :=
  { l with slac := .sounding, window := none, validated := !failed && w.count == w.want,
           sent := some { kind := if failed then 6 else 5, runId := r, count := w.count, data := [] } }

theorem exec_validationWindowEnd {d : Bool} {w : ValWindow} (run : (linkOf s o).attenRun = some r)
    (window : (linkOf s o).window = some w) :
    exec (.validationWindowEnd o d) s = .next (offerChanged o (onLink o (reported d r w) s)) := by
  show Host.Outcome.next (endValidation o d s) = _
  unfold endValidation
  simp only [window, run]
  rfl

theorem validationWindowEnd_reports {d : Bool} {w : ValWindow} (ho : o < s.vlk.length) (run : (linkOf s o).attenRun = some r)
    (window : (linkOf s o).window = some w) :
    Answers (.validationWindowEnd o d) s fun t => (slacAllowed s o = true → (linkOf t o).slac = .sounding)
      ∧ (linkOf t o).window = none ∧ ((linkOf t o).validated = true ↔ d = false ∧ w.count = w.want)
      ∧ (linkOf t o).sent = some { kind := if d then 6 else 5, runId := r, count := w.count, data := [] } := by
  refine ⟨_, exec_validationWindowEnd run window, ?_⟩
  have link : linkOf (onLink o (reported d r w) s) o = reported d r w (linkOf s o) := linkOf_onLink_self ho
  have shown : (linkOf (offerChanged o (onLink o (reported d r w) s)) o).validated = (reported d r w (linkOf s o)).validated
      ∧ (linkOf (offerChanged o (onLink o (reported d r w) s)) o).sent = (reported d r w (linkOf s o)).sent := by
    rw [← link]
    exact ⟨offerChanged_keeps_link (v := Link.validated) (fun _ _ => rfl) fun _ _ => rfl,
      offerChanged_keeps_link (v := Link.sent) (fun _ _ => rfl) fun _ _ => rfl⟩
  refine ⟨fun allowed => ?_, ?_, ?_, shown.2⟩
  · have goes : slacAllowed (onLink o (reported d r w) s) o = true := (slacAllowed_onLink (f := reported d r w) fun _ => rfl).trans allowed
    rw [offerChanged_link (v := Link.slac) fun _ _ => rfl, slacCheck_allowed goes, link]
    · rfl
    · rw [link]
      exact nofun
  · rw [offerChanged_link (v := Link.window) fun _ _ => rfl]
    exact slacCheck_holds (P := fun l => l.window = none) (fun _ h => h) (fun _ _ => rfl) (congrArg Link.window link)
  · rw [shown.1]
    simp [reported]

/-! ### Joining, timeouts and a lost link (R232 rows 7-9) -/

theorem cmSlacMatchReq_joins (ho : o < s.vlk.length) (run : (linkOf s o).attenRun = some r)
    (at' : (linkOf s o).slac = .sounding ∨ (linkOf s o).slac = .validating) :
    Answers (.cmSlacMatchReq o r) s fun t => (linkOf t o).slac = .joining
      ∧ (∃ k : Bytes, k.length = 16 ∧ (linkOf t o).nmk = some k)
      ∧ (linkOf t o).sent = some { kind := 7, runId := r, count := 0, data := [] } := by
  refine ⟨_, congrArg Host.Outcome.next ((if_neg (not_not.mpr run)).trans (if_pos at')), ?_⟩
  dsimp only
  rw [linkOf_bump, linkOf_onLink_self ho]
  exact ⟨rfl, ⟨_, fit_length, rfl⟩, rfl⟩

theorem slacJoined_matches (ho : o < s.vlk.length) (joins : (linkOf s o).slac = .joining) :
    Answers (.slacJoined o) s fun t => (linkOf t o).slac = .matched := by
  refine ⟨_, congrArg Host.Outcome.next (if_pos joins), ?_⟩
  dsimp only
  rw [logSlac, linkOf_logEv, linkOf_onLink_self ho]

theorem linkOf_slacFail {x : Slac} (ho : o < s.vlk.length) : linkOf (slacFail o x s) o = { linkOf s o with
    slac := x, slacFail := satInc 8 (linkOf s o).slacFail, window := none, runId := none, attenRun := none, attenSent := 0 } := by
  unfold slacFail logSlac
  extract_lets failed u
  have logged : linkOf u o = _ := linkOf_logEv.trans (linkOf_onLink_self ho)
  rw [linkOf_onLink_self (by simpa [u, failed] using ho), logged]

/-- A FAILED link may go on to MODE 1, whose waveform ends SLAC; it does not join again by that, and its count stands. -/
theorem fallBack_keeps_link (idle : (linkOf s o).slac ≠ .joining) (ended : (linkOf s o).runId = none) :
    (linkOf (fallBack o s) o).slac ≠ .joining ∧ (linkOf (fallBack o s) o).runId = none
      ∧ (linkOf (fallBack o s) o).slacFail = (linkOf s o).slacFail := by
  unfold fallBack
  split
  · refine ⟨slacCheck_holds (P := fun l => l.slac ≠ .joining) (fun _ _ => nofun) (fun _ _ => nofun) ?_,
      slacCheck_holds (P := fun l => l.runId = none) (fun _ h => h) (fun _ _ => rfl) ?_, ?_⟩
    · exact linkOf_onLink_holds (P := fun l => l.slac ≠ .joining) (fun _ h => h) idle
    · exact linkOf_onLink_holds (P := fun l => l.runId = none) (fun _ h => h) ended
    · rw [slacCheck_keeps_link (v := Link.slacFail) fun _ _ => rfl]
      exact linkOf_onLink_keeps (v := Link.slacFail) fun _ => rfl
  · exact ⟨idle, ended, rfl⟩

/-- A failure of matching is counted, and the run is over. -/
theorem slacTimeout_fails (ho : o < s.vlk.length) :
    (linkOf (fallBack o (slacFail o .failed s)) o).slac ≠ .joining ∧ (linkOf (fallBack o (slacFail o .failed s)) o).runId = none
      ∧ (linkOf (fallBack o (slacFail o .failed s)) o).slacFail = satInc 8 (linkOf s o).slacFail := by
  have failed := linkOf_slacFail (x := .failed) ho
  obtain ⟨idle, ended, count⟩ := fallBack_keeps_link (s := slacFail o .failed s) (o := o) (by rw [failed]; nofun) (by rw [failed])
  exact ⟨idle, ended, count.trans (congrArg Link.slacFail failed)⟩

theorem slacTimeout_noJoin (ho : o < s.vlk.length) (joins : (linkOf s o).slac = .joining) :
    Answers (.slacTimeout o .noJoin) s fun t => (linkOf t o).slac ≠ .joining
      ∧ (linkOf t o).slacFail = satInc 8 (linkOf s o).slacFail := by
  obtain ⟨idle, -, count⟩ := slacTimeout_fails ho
  exact ⟨_, congrArg Host.Outcome.next (if_pos joins), idle, count⟩

theorem slacTimeout_waitParm (ho : o < s.vlk.length) (waits : (linkOf s o).slac = .waitParm) :
    (Answers (.slacTimeout o .waitParm) s fun t => (linkOf t o).runId = none
        ∧ (linkOf t o).slacFail = satInc 8 (linkOf s o).slacFail)
      ∧ Answers (.slacTimeout o .noStart) s fun t => (linkOf t o).slac = .waitParm ∧ (linkOf t o).runId = none := by
  obtain ⟨-, ended, count⟩ := slacTimeout_fails ho
  refine ⟨⟨_, congrArg Host.Outcome.next (if_pos waits), ended, count⟩, _, congrArg Host.Outcome.next (if_pos waits), ?_⟩
  dsimp only
  rw [linkOf_toWaitParm ho]
  exact ⟨rfl, rfl⟩

theorem slacLinkLost_erases (ho : o < s.vlk.length) (joined : (linkOf s o).slac = .matched) :
    Answers (.slacLinkLost o) s fun t => (linkOf t o).slac = .linkLost ∧ (linkOf t o).nmk = none := by
  refine ⟨_, congrArg Host.Outcome.next (if_pos joined), ?_⟩
  dsimp only
  rw [linkOf_slacFail (by simpa using ho), linkOf_onLink_self ho]
  exact ⟨rfl, rfl⟩

end Slac

/-- Settles O22: every message of a current run is one update of its link; a window that ends and a link that falls back
change the offer too, whose consequences leave what the row writes. -/
theorem slacCommandsEffect : Obligations.SlacCommandsEffect := by
  unfold Obligations.SlacCommandsEffect
  refine ⟨?_, ?_, ?_, ?_, ?_, ?_, ?_, ?_, ?_, ?_, ?_, ?_⟩
  · exact fun s o r inv ho => cmSlacParmReq_takes (link_in_range inv ho)
  · exact fun s o r inv ho => cmStartAttenCharInd_sounds (link_in_range inv ho)
  · exact fun s o r l inv ho => cmMnbcSoundInd_counts (link_in_range inv ho)
  · exact fun s o r inv ho => soundingWindowEnd_decides (link_in_range inv ho)
  · exact fun s o r inv ho => cmAttenCharRsp_ends (link_in_range inv ho)
  · exact fun s o inv ho => attenCharResend_repeats (link_in_range inv ho)
  · exact fun s o r n inv ho => cmValidateReq_opens (link_in_range inv ho)
  · exact fun s o r d w inv ho => validationWindowEnd_reports (link_in_range inv ho)
  · exact fun s o r inv ho => cmSlacMatchReq_joins (link_in_range inv ho)
  · exact fun s o inv ho joins =>
      ⟨slacJoined_matches (link_in_range inv ho) joins, slacTimeout_noJoin (link_in_range inv ho) joins⟩
  · exact fun s o inv ho => slacTimeout_waitParm (link_in_range inv ho)
  · exact fun s o inv ho => slacLinkLost_erases (link_in_range inv ho)

end Sys2Proof.Machine
end

section
/-! PROOFS. The statements of 07_vehicle_links.md: the effect of each command of a vehicle link's pilot, proximity and session
(R217-R227, R239). -/

namespace Sys2Proof.Machine

variable {s t : State} {o p m : Nat}

section Supervisor
variable {α : Type} {v : Link → α} {f : Link → Link}

/-! ## What the operations of a supervisor leave of the links -/

/-! ### Channels, locks and modes: SLAC's check alone writes a link (R178, R232, R374) -/

section Checks
variable {n : Nat} {on : Bool} (free : SlacFree v)
include free

theorem lockWatch_keeps_link : v (linkOf (lockWatch n s) m) = v (linkOf s m) := by
  unfold lockWatch
  split
  · split
    · exact (slacCheck_keeps_link free).trans (congrArg v linkOf_logEv)
    · rfl
  · rfl

theorem settleCh_keeps_link : v (linkOf (settleCh n s) m) = v (linkOf s m) := by
  obtain stays | ⟨st, takes⟩ := settleCh_eq_or (n := n) (s := s)
  · rw [stays]
  · rw [takes]
    exact lockWatch_keeps_link free

theorem contactorDemand_keeps_link : v (linkOf (contactorDemand p on s) m) = v (linkOf s m) :=
  (foldl_keeps (g := fun u => v (linkOf u m)) fun _ _ => settleCh_keeps_link free).trans
    (foldl_keeps (g := fun u => v (linkOf u m)) fun _ _ => rfl)

theorem lockDemand_keeps_link : v (linkOf (lockDemand p on s) m) = v (linkOf s m) := by
  unfold lockDemand
  split
  · exact settleCh_keeps_link free
  · rfl

theorem requestLock_keeps_link : v (linkOf (requestLock p s) m) = v (linkOf s m) := by
  unfold requestLock
  split
  · rfl
  next ch _ =>
    split
    · rfl
    · extract_lets u
      have asked : v (linkOf u m) = v (linkOf s m) := lockDemand_keeps_link free
      split
      · exact (lockWatch_keeps_link free).trans asked
      · exact asked

theorem requestUnlock_keeps_link : v (linkOf (requestUnlock p s) m) = v (linkOf s m) := by
  unfold requestUnlock
  split
  · rfl
  · exact (slacCheck_keeps_link free).trans (lockDemand_keeps_link free)

end Checks

theorem linkOf_evalMode : linkOf (evalMode s) m = linkOf s m := linkOf_congr (part_of_law .vlk same_evalMode rfl)

theorem setSup_keeps_link {x : Sup} (free : SlacFree v) (sup : ∀ l, v { l with sup := x } = v l) :
    v (linkOf (setSup p x s) m) = v (linkOf s m) :=
  (congrArg v linkOf_evalMode).trans ((slacCheck_keeps_link free).trans (linkOf_onLink_keeps sup))

theorem setSup_sup {x : Sup} (ho : o < s.vlk.length) : (linkOf (setSup o x s) o).sup = x :=
  (congrArg Link.sup linkOf_evalMode).trans
    ((slacCheck_keeps_link (v := Link.sup) fun _ _ => rfl).trans (congrArg Link.sup (linkOf_onLink_self ho)))

/-- A link that reads otherwise than one that is not there is one of the links. -/
theorem link_of_ne (v : Link → α) (there : v (linkOf s o) ≠ v Link.fresh) : o < s.vlk.length := by
  by_contra beyond
  exact there (congrArg v (List.getD_eq_default _ _ (Nat.not_lt.mp beyond)))

theorem dropRelease_keeps_link (free : SlacFree v) (gate : ∀ l, v { l with gate := false } = v l) :
    v (linkOf (dropRelease p s) m) = v (linkOf s m) :=
  (contactorDemand_keeps_link free).trans (linkOf_onLink_keeps gate)

/-! ### The end of a session (R227) -/

/-- `l` with what the end of a session writes of a link as `m` has it, but for the cause. -/
def withClose (m l : Link) : Link :=
  { withSlac m l with sup := m.sup, phase := m.phase, relTries := m.relTries, preTries := m.preTries,
                      meterOpen := m.meterOpen, session := m.session, gate := m.gate, sessCap := m.sessCap }

/-- A view of a link that the end of a session does not change. -/
def CloseFree (v : Link → α) : Prop := ∀ m l, v (withClose m l) = v l

section Close
variable (free : CloseFree v)
include free

theorem CloseFree.slac : SlacFree v := fun m l => free (withSlac m l) l

theorem CloseFree.sup {x : Sup} (l : Link) : v { l with sup := x } = v l := free { l with sup := x } l

theorem restState_keeps_link : v (linkOf (restState p s) m) = v (linkOf s m) := by
  unfold restState
  dsimp only
  split
  · exact setSup_keeps_link free.slac free.sup
  · split
    · exact (requestUnlock_keeps_link free.slac).trans (setSup_keeps_link free.slac free.sup)
    · exact setSup_keeps_link free.slac free.sup

theorem closeSession_keeps_link : v (linkOf (closeSession p s) m) = v (linkOf s m) := by
  unfold closeSession
  extract_lets metered logged closed
  have logs : linkOf logged m = linkOf s m := by
    refine linkOf_logEv.trans ?_
    show linkOf (if _ then _ else _) m = _
    split
    · rfl
    · rfl
  refine (restState_keeps_link free).trans ((linkOf_onLink_keeps fun l => ?_).trans (congrArg v logs))
  exact free { l with phase := .none, meterOpen := false, session := 0, relTries := 0, preTries := 0, gate := false, sessCap := none } l

end Close

/-- A session that LIMP did not end is only closed. -/
theorem finishSession_closes (cause : (linkOf s o).endCause ≠ causeLimp) : finishSession o s = closeSession o s := by
  unfold finishSession
  dsimp only
  rw [if_neg fun again => cause again.1]

/-- The cause of a session's end, and a start that is held back. -/
def endView (l : Link) : Nat × Bool := (l.endCause, l.startHeld)

theorem endSession_cause {cause : Nat} (ho : o < s.vlk.length) (active : (linkOf s o).sup.active = true)
    (first : (linkOf s o).ending = false) (other : cause ≠ causeLimp) :
    endView (linkOf (endSession o cause s) o) = (cause, false) := by
  have noted (f : Link → Link) : endView (linkOf (onLink o f s) o) = endView (f (linkOf s o)) :=
    congrArg endView (linkOf_onLink_self ho)
  unfold endSession
  extract_lets l u
  have ended : endView (linkOf u o) = (cause, false) := by
    rw [noted]
    simp only [endView, first]
    rfl
  have dropped : endView (linkOf (dropRelease o u) o) = (cause, false) := (dropRelease_keeps_link (fun _ _ => rfl) fun _ => rfl).trans ended
  rw [if_neg (by simp [l, active])]
  have holds {f : Link → Link} {u : State} (hf : ∀ l, endView (f l) = endView l) (h : endView (linkOf u o) = (cause, false)) :
      endView (linkOf (onLink o f u) o) = (cause, false) := (linkOf_onLink_keeps hf).trans h
  split
  · split
    · exact holds (fun _ => rfl) ended
    · exact holds (fun _ => rfl) dropped
  · exact holds (fun _ => rfl) ended
  · exact holds (fun _ => rfl) ended
  · rw [finishSession_closes ((congrArg Prod.fst dropped).trans_ne other)]
    exact (closeSession_keeps_link fun _ _ => rfl).trans dropped

/-- A session that is ending already keeps its cause. -/
theorem endSession_ending {cause : Nat} (ho : o < s.vlk.length) (closed : (linkOf s o).sup = .closed)
    (ends : (linkOf s o).ending = true) : (linkOf (endSession o cause s) o).endCause = (linkOf s o).endCause := by
  have noted (f : Link → Link) : linkOf (onLink o f s) o = f (linkOf s o) := linkOf_onLink_self ho
  have phases : (linkOf s o).phase = .gateOff ∨ (linkOf s o).phase = .postOpen := by
    simp only [Link.ending, Bool.and_eq_true, Bool.or_eq_true, beq_iff_eq] at ends
    exact ends.1
  have holds {f : Link → Link} {u : State} (hf : ∀ l, (f l).endCause = l.endCause)
      (h : (linkOf u o).endCause = (linkOf s o).endCause) :
      (linkOf (onLink o f u) o).endCause = (linkOf s o).endCause := (linkOf_onLink_keeps hf).trans h
  unfold endSession
  extract_lets l u
  have kept : (linkOf u o).endCause = (linkOf s o).endCause := by
    rw [noted]
    exact if_pos ends
  rw [if_neg (by simp [l, closed, Sup.active])]
  obtain phase | phase := phases
  · simp only [l, closed, phase]
    exact holds (fun _ => rfl) kept
  · simp only [l, closed, phase]
    exact holds (fun _ => rfl) kept

/-! ### The start of a session (R225, R230) -/

/-- `l` with what the start of a session writes of a link as `m` has it. -/
def withStart (m l : Link) : Link :=
  { withClose m l with endCause := m.endCause, startHeld := m.startHeld, ventSeen := m.ventSeen, limpHit := m.limpHit,
                       uvPause := m.uvPause, mode := m.mode, trans := m.trans, reqMode := m.reqMode, reqCur := m.reqCur }

/-- A view of a link that the start of a session does not change. -/
def StartFree (v : Link → α) : Prop := ∀ m l, v (withStart m l) = v l

section Start
variable (free : StartFree v)
include free

theorem StartFree.close : CloseFree v := fun m l => free (withClose m l) l

theorem StartFree.step : StepFree v := fun m l => free (withStep m l) l

theorem lockReached_keeps_link : v (linkOf (lockReached p s) m) = v (linkOf s m) := by
  unfold lockReached
  split
  · refine (advance_keeps_link free.step).trans
      ((linkOf_onLink_keeps fun l => ?_).trans (setSup_keeps_link free.close.slac free.close.sup))
    exact free { l with phase := .waitVehicle } l
  · rfl

theorem runStart_keeps_link : v (linkOf (runStart p s) m) = v (linkOf s m) := by
  unfold runStart
  extract_lets cleared asked
  have asks : v (linkOf asked m) = v (linkOf s m) := by
    refine (requestLock_keeps_link free.close.slac).trans
      ((setSup_keeps_link free.close.slac free.close.sup).trans (linkOf_onLink_keeps fun l => ?_))
    exact free { l with
      startHeld := false, phase := .none, relTries := 0, preTries := 0, endCause := 0, ventSeen := false, session := 0,
      meterOpen := false, limpHit := false, uvPause := false, sessCap := cableCapacity l.ppCode } l
  split
  · exact asks
  · exact (lockReached_keeps_link free).trans asks

theorem startHeld_keeps_link {x : Bool} : v (linkOf (onLink p (fun l => { l with startHeld := x }) s) m) = v (linkOf s m) :=
  linkOf_onLink_keeps fun l => free { l with startHeld := x } l

theorem limpStart_keeps_link : v (linkOf (limpStart p s) m) = v (linkOf s m) := by
  unfold limpStart startSession
  dsimp only
  split
  · split
    · exact startHeld_keeps_link free
    · split
      · exact startHeld_keeps_link free
      · exact runStart_keeps_link free
  · rfl

theorem limpPilot_keeps_link : v (linkOf (limpPilot p s) m) = v (linkOf s m) := by
  unfold limpPilot enterMode
  split
  · refine (linkOf_onLink_keeps fun l => ?_).trans (linkOf_onLink_keeps fun l => ?_)
    · exact free { l with mode := 1, trans := _ } l
    · exact free { l with reqMode := 1, reqCur := limpCurrent s p } l
  · rfl

theorem takeHit_keeps_link : v (linkOf (takeHit p s) m) = v (linkOf s m) := by
  unfold takeHit
  split
  · split
    · exact linkOf_onLink_keeps fun l => free { l with limpHit := true } l
    · rfl
  · rfl

theorem connect_keeps_link : v (linkOf (connect p s) m) = v (linkOf s m) :=
  (limpStart_keeps_link free).trans ((takeHit_keeps_link free).trans
    ((limpPilot_keeps_link free).trans (setSup_keeps_link free.close.slac free.close.sup)))

end Start

/-- The start leads to the lock, or past it to the vehicle. -/
theorem runStart_sup (ho : o < s.vlk.length) :
    (linkOf (runStart o s) o).sup = .locking ∨ (linkOf (runStart o s) o).sup = .preparing := by
  have len {f : Link → Link} : o < (onLink o f s).vlk.length := by rwa [vlk_length_onLink]
  unfold runStart
  extract_lets cleared asked
  have locking : (linkOf asked o).sup = .locking :=
    (requestLock_keeps_link (v := Link.sup) fun _ _ => rfl).trans (setSup_sup len)
  split
  · exact .inl locking
  · right
    unfold lockReached
    rw [if_pos locking]
    refine (advance_keeps_link (v := Link.sup) fun _ _ => rfl).trans ?_
    exact linkOf_onLink_holds (P := fun l => l.sup = .preparing) (fun _ h => h) (setSup_sup (link_of_ne Link.sup (locking.trans_ne nofun)))

end Supervisor

/-! ## Pilot and proximity (R217, R218, R223, R224) -/

section Pilot

theorem linkOf_illegal {cls : EvClass} {old new : Cp} {row : Nat} (ho : o < s.vlk.length) :
    linkOf (illegal o cls old new row s) o = { linkOf s o with illegal := satInc 8 (linkOf s o).illegal } :=
  linkOf_logEv.trans (linkOf_onLink_self ho)

theorem vlk_length_illegal {cls : EvClass} {old new : Cp} {row : Nat} :
    (illegal o cls old new row s).vlk.length = s.vlk.length := by simp [illegal]

/-- The fault hold alone, or with it FAULTED outside a session. -/
theorem pilotFaultHold_holds (ho : o < s.vlk.length) (link : linked s o = true)
    (cp : (linkOf s o).cp = .e ∨ (linkOf s o).cp = .invalid) (free : (linkOf s o).faultHold = false) :
    Answers (.pilotFaultHold o true) s fun t => (linkOf t o).faultHold = true
      ∧ ((linkOf s o).sup.active = false → (linkOf t o).sup = .faulted) := by
  refine ⟨_, congrArg Host.Outcome.next ((if_neg (by simp [link])).trans ((if_pos rfl).trans (if_pos ⟨cp, free⟩))), ?_⟩
  extract_lets held
  have len : o < (onLink o (fun l => { l with faultHold := true }) s).vlk.length := by rwa [vlk_length_onLink]
  have marked : (linkOf held o).faultHold = true :=
    congrArg Link.faultHold ((linkOf_illegal len).trans (by rw [linkOf_onLink_self ho]))
  split
  next active => exact ⟨marked, fun idle => absurd (idle.symm.trans active) nofun⟩
  next =>
    exact ⟨(setSup_keeps_link (v := Link.faultHold) (fun _ _ => rfl) fun _ => rfl).trans marked,
      fun _ => setSup_sup (len.trans_eq vlk_length_illegal.symm)⟩

theorem pilotFaultHold_ends (ho : o < s.vlk.length) (link : linked s o = true)
    (cp : (linkOf s o).cp = .a ∨ (linkOf s o).cp = .b) (held : (linkOf s o).faultHold = true) :
    Answers (.pilotFaultHold o false) s fun t => (linkOf t o).faultHold = false := by
  refine ⟨_, congrArg Host.Outcome.next ((if_neg (by simp [link])).trans ((if_neg nofun).trans (if_pos ⟨held, cp⟩))), ?_⟩
  extract_lets freed
  have clear : (linkOf freed o).faultHold = false := congrArg Link.faultHold (linkOf_onLink_self ho)
  split
  · exact clear
  · split
    · exact ((requestUnlock_keeps_link (v := Link.faultHold) fun _ _ => rfl).trans
        (setSup_keeps_link (v := Link.faultHold) (fun _ _ => rfl) fun _ => rfl)).trans clear
    · split
      · exact clear
      · exact (connect_keeps_link (v := Link.faultHold) fun _ _ => rfl).trans clear

theorem pilotModeTransitionEnd_ends (ho : o < s.vlk.length) (link : linked s o = true) :
    Answers (.pilotModeTransitionEnd o) s fun t => (linkOf t o).trans = false :=
  ⟨_, congrArg Host.Outcome.next (if_pos link),
    (offerChanged_keeps_link (v := Link.trans) (fun _ _ => rfl) fun _ _ => rfl).trans
      (congrArg Link.trans (linkOf_onLink_self ho))⟩

/-- What VLKo_PILOT shows of a link, and the mode in force. -/
def pilotView (l : Link) : Nat × Nat × Nat := (l.reqMode, l.reqCur, l.mode)

theorem pilotView_enterMode {x i : Nat} (ho : o < s.vlk.length) :
    pilotView (linkOf (enterMode o x (onLink o (fun l => { l with reqMode := x, reqCur := i }) s)) o) = (x, i, x) := by
  unfold enterMode
  rw [linkOf_onLink_self (by rwa [vlk_length_onLink]), linkOf_onLink_self ho]
  rfl

theorem vlkPilotWrite_takes {w : Word} (ho : o < s.vlk.length) (link : linked s o = true) (mode : s.sys.mode ≠ .limp)
    (current : field w.toNat 31 30 ≠ 1 ∨ inRange 6000 80000 (field w.toNat 16 0) = true) :
    Answers (.vlkPilotWrite o w) s fun t => (linkOf t o).reqMode = field w.toNat 31 30
      ∧ (linkOf t o).reqCur = field w.toNat 16 0 ∧ (linkOf t o).mode = field w.toNat 31 30 := by
  have taken : ¬ (linked s o = false ∨ s.sys.mode = .limp
      ∨ (field w.toNat 31 30 = 1 ∧ inRange 6000 80000 (field w.toNat 16 0) = false)) := by
    rintro (h | h | ⟨h, h'⟩)
    · exact absurd (h.symm.trans link) nofun
    · exact mode h
    · exact current.elim (fun c => c h) fun c => absurd (h'.symm.trans c) nofun
  have shown {x i : Nat} : pilotView (linkOf (offerChanged o
      (enterMode o x (onLink o (fun l => { l with reqMode := x, reqCur := i }) s))) o) = (x, i, x) :=
    (offerChanged_keeps_link (v := pilotView) (fun _ _ => rfl) fun _ _ => rfl).trans (pilotView_enterMode ho)
  exact ⟨_, congrArg Host.Outcome.next (if_neg taken), congrArg Prod.fst shown, congrArg (fun x => x.2.1) shown,
    congrArg (fun x => x.2.2) shown⟩

theorem proximityCode_takes {x : Nat} (ho : o < s.vlk.length) (link : linked s o = true) (socket : (linkOf s o).ppMode = 1)
    (awake : s.sys.mode ≠ .watch) (awake' : s.sys.mode ≠ .dormant) (idle : (linkOf s o).sup.active = false) :
    Answers (.proximityCode o x) s fun t => linkOf t o = { linkOf s o with
      ppCode := if 3300 ≤ x then 1 else ppCodeOf (1000 * x) (3300 - x),
      ppOhms := ppOhmsOf (freeBit s) (1000 * x) (3300 - x) } := by
  refine ⟨_, congrArg Host.Outcome.next ((if_pos ⟨link, socket, awake, awake'⟩).trans (if_pos (.inr idle))), ?_⟩
  exact linkOf_bump.trans (linkOf_onLink_self ho)

end Pilot

/-! ## Commands of a session (R225, R227, R239) -/

section Session
variable {r : Req} {k : Nat}

/-- The checks of an outlet that is there. -/
theorem firstFail_outletChecks_declared (ho : o < 4) (decl : declared s o = true) (l : List (Bool × Nat)) :
    firstFail (outletChecks s o ++ l) = firstFail l :=
  (firstFail_cons_false (by simp [decl])).trans (firstFail_cons_false (decide_eq_false (by omega)))

theorem posted_of_law {w : List Part} {b : Bytes} {sts : Nat} (posted : Posted s r sts b)
    (f : listed w w = true → Same w s s → Same w s t) (hq : w.contains .result = false := by rfl) : Posted t r sts b := by
  have kept : t.result = s.result := part_of_law .result f hq
  exact kept.trans posted

/-- The conditions of VLK_START on a linked outlet. -/
theorem exec_vlkStart (ho : o < 4) (decl : declared s o = true) (mode : s.sys.mode ≠ .limp)
    (pilot : linked s o = true →
      ((linkOf s o).sup = .connected ∨ (linkOf s o).sup = .ended)
        ∧ ((linkOf s o).cp = .b ∨ (linkOf s o).cp = .c ∨ (linkOf s o).cp = .d)
        ∧ (isDc s o = true → (linkOf s o).mode = 2 ∧ (linkOf s o).slac = .matched)
        ∧ (isAc s o = true → (linkOf s o).mode = 2 → (linkOf s o).slac = .matched))
    (alone : linked s o = false → (linkOf s o).sup.active = false) :
    exec (.vlkStart r o) s = .next (startSession o (postSts r stsOk s)) := by
  refine congrArg Host.Outcome.next (guarded_ok ((firstFail_outletChecks_declared ho decl _).trans (firstFail_cons_false ?_)))
  have mode : (s.sys.mode == .limp) = false := beq_false_of_ne mode
  rw [mode, Bool.false_or]
  split
  next link =>
    obtain ⟨sup, cp, dc, ac⟩ := pilot link
    have sup : ((linkOf s o).sup == .connected || (linkOf s o).sup == .ended) = true := by simpa using sup
    have cp : ((linkOf s o).cp == .b || (linkOf s o).cp == .c || (linkOf s o).cp == .d) = true := by
      simpa [or_assoc] using cp
    have dc : (isDc s o && !((linkOf s o).mode == 2 && (linkOf s o).slac == .matched)) = false := by
      cases kind : isDc s o with
      | false => rfl
      | true => simp [dc kind]
    have ac : (isAc s o && (linkOf s o).mode == 2 && (linkOf s o).slac != .matched) = false := by
      cases kind : isAc s o with
      | false => rfl
      | true => simpa using ac kind
    rw [sup, cp, dc, ac]
    rfl
  next off => exact alone (by simpa using off)

theorem startSession_starts (ho : o < s.vlk.length) :
    (activating s = true → (linkOf (startSession o s) o).startHeld = true ∧ (linkOf (startSession o s) o).sup = (linkOf s o).sup)
      ∧ (activating s = false → (linkOf (startSession o s) o).sup = .locking ∨ (linkOf (startSession o s) o).sup = .preparing) := by
  unfold startSession
  cases activating s with
  | true =>
    refine ⟨fun _ => ?_, nofun⟩
    rw [if_pos rfl, linkOf_onLink_self ho]
    exact ⟨rfl, rfl⟩
  | false => exact ⟨nofun, fun _ => runStart_sup ho⟩

theorem exec_vlkStop (ho : o < 4) (decl : declared s o = true) (active : (linkOf s o).sup.active = true) :
    exec (.vlkStop r o k) s = .next (endSession o (k % 256) (postSts r stsOk s)) :=
  congrArg Host.Outcome.next
    (guarded_ok ((firstFail_outletChecks_declared ho decl _).trans (firstFail_cons_false (by simp [active]))))

theorem vlkStop_ends (inv : s.Inv) (ho : o < 4) (decl : declared s o = true) (active : (linkOf s o).sup.active = true) :
    Answers (.vlkStop r o k) s fun t => Posted t r stsOk []
      ∧ ((linkOf s o).ending = false → (linkOf t o).endCause = k % 256 ∧ (linkOf t o).startHeld = false)
      ∧ ((linkOf s o).ending = true → (linkOf s o).sup = .closed → (linkOf t o).endCause = (linkOf s o).endCause) := by
  have len : o < (postSts r stsOk s).vlk.length := (link_in_range inv ho : o < s.vlk.length)
  refine ⟨_, exec_vlkStop ho decl active, posted_of_law posted_postSts (same_endSession o (k % 256)), fun first => ?_,
    fun ends closed => endSession_ending len closed ends⟩
  have ended : endView _ = (k % 256, false) := endSession_cause len active first (by simp only [causeLimp]; omega)
  exact ⟨congrArg Prod.fst ended, congrArg Prod.snd ended⟩

theorem requestUnlock_unlocks (ho : o < s.pwr.locks.length) (free : unlockRefused s o = false)
    (ch : (lockChannel s o).isSome = true) (at' : (lockOf s o).state = .locked) (fb : (lockOf s o).fb = true) :
    (lockOf (requestUnlock o s) o).state = .unlocking := by
  have asked : ¬ ((unlockRefused s o || (lockChannel s o).isNone) = true) := by simp [free, Option.isNone_eq_false_iff.mpr ch]
  unfold requestUnlock
  rw [if_neg asked]
  extract_lets u
  have unlocking : (lockOf u o).state = .unlocking := by
    rw [lockOf_onLock_self ho]
    simp only [at', fb, if_true]
  have pwr : (slacCheck o (lockDemand o false u)).pwr = (lockDemand o false u).pwr := part_of_law .pwr (same_slacCheck o) rfl
  rw [lockOf, pwr]
  exact (congrArg Lock.state (lockOf_lockDemand (by rw [unlocking]; nofun))).trans unlocking

theorem lockOf_setSup {x : Sup} : lockOf (setSup p x s) o = lockOf s o := by
  have pwr : (setSup p x s).pwr = s.pwr := part_of_law .pwr (same_setSup p x) rfl
  rw [lockOf, lockOf, pwr]

/-- The state of the supervisor after an accepted unlock (R227). -/
def unlockedState (o : Nat) (l : Link) (s : State) : State :=
  if l.sup ≠ .ended then s else if linked s o = false then setSup o .idle s
  else if l.cp = .b then setSup o .connected s else s

theorem unlockedState_eq_or {l : Link} : unlockedState o l s = s ∨ ∃ x, unlockedState o l s = setSup o x s := by
  unfold unlockedState
  split
  · exact .inl rfl
  · split
    · exact .inr ⟨_, rfl⟩
    · split
      · exact .inr ⟨_, rfl⟩
      · exact .inl rfl

theorem exec_vlkUnlock (ho : o < 4) (decl : declared s o = true)
    (rest : (linkOf s o).sup = .ended ∨ (linkOf s o).sup = .connected) (free : unlockRefused s o = false) :
    exec (.vlkUnlock r o) s = .next (unlockedState o (linkOf s o) (requestUnlock o (postSts r stsOk s))) := by
  refine congrArg Host.Outcome.next (guarded_ok ((firstFail_outletChecks_declared ho decl _).trans (firstFail_cons_false ?_)))
  have rest : ((linkOf s o).sup == .ended || (linkOf s o).sup == .connected) = true := by simpa using rest
  rw [rest, free]
  rfl

theorem vlkUnlock_unlocks (inv : s.Inv) (ho : o < 4) (decl : declared s o = true)
    (rest : (linkOf s o).sup = .ended ∨ (linkOf s o).sup = .connected) (free : unlockRefused s o = false)
    (ch : (lockChannel s o).isSome = true) (at' : (lockOf s o).state = .locked) (fb : (lockOf s o).fb = true) :
    Answers (.vlkUnlock r o) s fun t => Posted t r stsOk [] ∧ (lockOf t o).state = .unlocking := by
  have len : o < (postSts r stsOk s).pwr.locks.length := ((lock_in_range inv ho).1 : o < s.pwr.locks.length)
  have posted : Posted (requestUnlock o (postSts r stsOk s)) r stsOk [] := posted_of_law posted_postSts (same_requestUnlock o)
  have unlocking := requestUnlock_unlocks len free ch at' fb
  refine ⟨_, exec_vlkUnlock ho decl rest free, ?_⟩
  obtain stays | ⟨x, takes⟩ := unlockedState_eq_or (o := o) (l := linkOf s o) (s := requestUnlock o (postSts r stsOk s))
  · rw [stays]
    exact ⟨posted, unlocking⟩
  · rw [takes, lockOf_setSup]
    exact ⟨posted_of_law posted (same_setSup o x), unlocking⟩

/-! ## The release and the opening of a contactor (R226, R227) -/

theorem releaseRetry_asks (inv : s.Inv) (ho : o < 4) (phase : (linkOf s o).phase = .release)
    (refused : flag s.owl.requested o = false) (tried : (linkOf s o).relTries ≠ 0) (pilot : ready s o = true) :
    Answers (.releaseRetry o) s fun t =>
      ((linkOf s o).relTries < 30 → flag t.owl.requested o = true ∧ (linkOf t o).relTries = (linkOf s o).relTries + 1)
        ∧ (30 ≤ (linkOf s o).relTries → (linkOf s o).sup.active = true → (linkOf t o).endCause = 6) := by
  have len := link_in_range inv ho
  rcases Nat.lt_or_ge (linkOf s o).relTries 30 with few | all
  · refine ⟨_, congrArg Host.Outcome.next ((if_pos ⟨phase, refused, tried, pilot⟩).trans (if_neg (Nat.not_le.mpr few))), ?_⟩
    refine ⟨fun _ => ⟨?_, congrArg Link.relTries (linkOf_onLink_self len)⟩, fun all => absurd few (Nat.not_lt.mpr all)⟩
    exact put_getD_self (ho.trans_eq (owl_lengths inv).2.1.symm)
  · refine ⟨_, congrArg Host.Outcome.next ((if_pos ⟨phase, refused, tried, pilot⟩).trans (if_pos all)), ?_⟩
    refine ⟨fun few => absurd few (Nat.not_lt.mpr all), fun _ active => ?_⟩
    have first : (linkOf s o).ending = false := by simp [Link.ending, phase]
    have ended : endView _ = (6, false) := endSession_cause
      (s := logEv .service 0x0C o 0x0C08 [(1, o), (2, at0 s.owl.withhold o)] s) (by simpa using len) (by rwa [linkOf_logEv])
      (by rwa [linkOf_logEv]) (by decide)
    exact congrArg Prod.fst ended

theorem owl_contactorDemand {on : Bool} : (contactorDemand p on s).owl = s.owl :=
  part_of_law .owl (same_contactorDemand p on) rfl

theorem dropRelease_released : flag (dropRelease o s).owl.released o = false := by
  unfold dropRelease
  rw [owl_contactorDemand]
  exact flag_put_self_false

theorem dropRelease_gate (ho : o < s.vlk.length) : (linkOf (dropRelease o s) o).gate = false :=
  (contactorDemand_keeps_link (v := Link.gate) fun _ _ => rfl).trans (congrArg Link.gate (linkOf_onLink_self ho))

theorem dcContactorOpen_opens (phase : (linkOf s o).phase = .gateOff) :
    Answers (.dcContactorOpen o) s fun t => (linkOf t o).phase = .postOpen ∧ (linkOf t o).gate = false
      ∧ flag t.owl.released o = false := by
  have kept : (linkOf (dropRelease o s) o).phase = .gateOff :=
    (dropRelease_keeps_link (v := Link.phase) (fun _ _ => rfl) fun _ => rfl).trans phase
  have len := link_of_ne Link.phase (kept.trans_ne nofun)
  refine ⟨_, congrArg Host.Outcome.next (if_pos phase), congrArg Link.phase (linkOf_onLink_self len), ?_, dropRelease_released⟩
  exact linkOf_onLink_holds (P := fun l => l.gate = false) (fun _ h => h)
    (dropRelease_gate (link_of_ne Link.phase (phase.trans_ne nofun)))

/-- An outlet that is not a DC one opens at once. -/
theorem endSession_opens {cause : Nat} (closed : (linkOf s o).sup = .closed) (phase : (linkOf s o).phase = .none)
    (kind : isDc s o = false) : ∃ u, endSession o cause s = beginPostOpen o .finish (dropRelease o u)
      ∧ ∀ {α : Type} {v : Link → α}, (∀ l x, v { l with endCause := x, startHeld := false } = v l) →
        v (linkOf u o) = v (linkOf s o) := by
  unfold endSession
  extract_lets l u
  refine ⟨u, ?_, fun hv => linkOf_onLink_keeps fun l => hv l _⟩
  have dc : ¬ (isDc u o = true ∧ flag u.owl.released o = true) := fun h => absurd (kind.symm.trans h.1) nofun
  rw [if_neg (by simp [l, closed, Sup.active])]
  simp only [l, closed, phase]
  exact if_neg dc

theorem isDc_of_isAc (ac : isAc s o = true) : isDc s o = false := by
  unfold isAc at ac
  unfold isDc
  cases rec : outletRec s o with
  | none => rfl
  | some x =>
    simp only [rec, Option.any_some, beq_iff_eq] at ac
    simp [ac]

theorem isDc_congr {t : State} (str : t.str = s.str) : isDc t o = isDc s o := by
  simp only [isDc, outletRec, str]

/-- A closed session of an outlet that is not a DC one, ended: the release goes and the check of the contactor begins. -/
theorem endSession_opens_at {cause : Nat} (ho : o < s.vlk.length) (closed : (linkOf s o).sup = .closed)
    (phase : (linkOf s o).phase = .none) (kind : isDc s o = false) (other : cause ≠ causeLimp) :
    (linkOf (endSession o cause s) o).overdraw = (linkOf s o).overdraw
      ∧ (linkOf (endSession o cause s) o).endCause = cause ∧ (linkOf (endSession o cause s) o).phase = .postOpen
      ∧ flag (endSession o cause s).owl.released o = false := by
  have first : (linkOf s o).ending = false := by simp [Link.ending, phase]
  have ended := endSession_cause ho (by rw [closed]; rfl) first other
  obtain ⟨u, opens, kept⟩ := endSession_opens (cause := cause) closed phase kind
  have sup : (linkOf (dropRelease o u) o).sup = .closed :=
    (dropRelease_keeps_link (v := Link.sup) (fun _ _ => rfl) fun _ => rfl).trans ((kept (v := Link.sup) fun _ _ => rfl).trans closed)
  have draws : (linkOf (dropRelease o u) o).overdraw = (linkOf s o).overdraw :=
    (dropRelease_keeps_link (v := Link.overdraw) (fun _ _ => rfl) fun _ => rfl).trans (kept (v := Link.overdraw) fun _ _ => rfl)
  have at' : linkOf (endSession o cause s) o = { linkOf (dropRelease o u) o with phase := .postOpen, why := .finish } :=
    (congrArg (linkOf · o) opens).trans (linkOf_onLink_self (link_of_ne Link.sup (sup.trans_ne nofun)))
  refine ⟨(congrArg Link.overdraw at').trans draws, congrArg Prod.fst ended, congrArg Link.phase at', ?_⟩
  exact (congrArg (fun t : State => flag t.owl.released o) opens).trans dropRelease_released

theorem overdraw_ends {g c : Nat} (ho : o < s.vlk.length) (link : linked s o = true) (ac : isAc s o = true)
    (closed : (linkOf s o).sup = .closed) (phase : (linkOf s o).phase = .none)
    (above : 11 * (offerOf s o).1 + 10000 < 10 * c) :
    Answers (.overdraw o g c) s fun t => (linkOf t o).overdraw = satInc 8 (linkOf s o).overdraw
      ∧ (linkOf t o).endCause = 7 ∧ (linkOf t o).phase = .postOpen ∧ flag t.owl.released o = false := by
  refine ⟨_, congrArg Host.Outcome.next (if_pos ⟨link, ac, closed, phase, above⟩), ?_⟩
  extract_lets counted
  have seen : linkOf (logEv .service 0x0C o 0x0C07 [(1, o), (1, g), (4, c), (4, (offerOf s o).1)] counted) o
      = { linkOf s o with overdraw := satInc 8 (linkOf s o).overdraw } := linkOf_logEv.trans (linkOf_onLink_self ho)
  have str : (logEv .service 0x0C o 0x0C07 [(1, o), (1, g), (4, c), (4, (offerOf s o).1)] counted).str = s.str := logEv_str
  generalize logEv .service 0x0C o 0x0C07 [(1, o), (1, g), (4, c), (4, (offerOf s o).1)] counted = u at seen str ⊢
  have at' : (linkOf u o).sup = .closed := (congrArg Link.sup seen).trans closed
  obtain ⟨draws, ended⟩ := endSession_opens_at (cause := 7) (link_of_ne Link.sup (at'.trans_ne nofun)) at'
    ((congrArg Link.phase seen).trans phase) ((isDc_congr str).trans (isDc_of_isAc ac)) (by decide)
  exact ⟨draws.trans (congrArg Link.overdraw seen), ended⟩

theorem vlkStart_starts (inv : s.Inv) (ho : o < 4) (decl : declared s o = true) (mode : s.sys.mode ≠ .limp)
    (pilot : linked s o = true →
      ((linkOf s o).sup = .connected ∨ (linkOf s o).sup = .ended)
        ∧ ((linkOf s o).cp = .b ∨ (linkOf s o).cp = .c ∨ (linkOf s o).cp = .d)
        ∧ (isDc s o = true → (linkOf s o).mode = 2 ∧ (linkOf s o).slac = .matched)
        ∧ (isAc s o = true → (linkOf s o).mode = 2 → (linkOf s o).slac = .matched))
    (alone : linked s o = false → (linkOf s o).sup.active = false) :
    Answers (.vlkStart r o) s fun t => Posted t r stsOk []
      ∧ (activating s = true → (linkOf t o).startHeld = true ∧ (linkOf t o).sup = (linkOf s o).sup)
      ∧ (activating s = false → (linkOf t o).sup = .locking ∨ (linkOf t o).sup = .preparing) :=
  ⟨_, exec_vlkStart ho decl mode pilot alone, posted_of_law posted_postSts (same_startSession o),
    startSession_starts (s := postSts r stsOk s) (link_in_range inv ho : o < s.vlk.length)⟩

end Session

/-- Settles O21: the fault hold and the pilot's writes are one change of the link, which no later step of the command
touches; the start and the end of a session pass through the shared steps of R223 to R227, whose views
(`StartFree`, `CloseFree`) say what they leave. -/
theorem vehicleLinkCommandsEffect : Obligations.VehicleLinkCommandsEffect :=
  ⟨fun _ _ inv ho link => ⟨pilotFaultHold_holds (link_in_range inv ho) link, pilotFaultHold_ends (link_in_range inv ho) link⟩,
    fun _ _ inv ho link => pilotModeTransitionEnd_ends (link_in_range inv ho) link,
    fun _ _ _ inv ho link => vlkPilotWrite_takes (link_in_range inv ho) link,
    fun _ _ _ inv ho link => proximityCode_takes (link_in_range inv ho) link,
    fun _ _ _ inv ho => vlkStart_starts inv ho,
    fun _ _ _ _ inv ho => vlkStop_ends inv ho,
    fun _ _ _ inv ho => vlkUnlock_unlocks inv ho,
    fun _ _ inv ho => releaseRetry_asks inv ho,
    fun _ _ _ _ => dcContactorOpen_opens,
    fun _ _ _ _ inv ho => overdraw_ends (link_in_range inv ho)⟩

end Sys2Proof.Machine
end

section
/-! PROOFS. The statements of 07_vehicle_links.md: the descriptors, the bytes and the indices of the frame rings (R235, R236, R253,
R254, R407, R408). -/

namespace Sys2Proof.Machine

variable {s t u : State} {p : Port} {f : RxFrame}

/-! ## The memory that a string of writes leaves -/

/-- `m'` is canonical and reads as `m` at the addresses of a region. -/
structure MemKeeps (region : Nat → Prop) (m m' : List Host.Cell) : Prop where
  wf : memWf m' = true
  reads : ∀ a, region a → memRead m' a = memRead m a

section Memory
variable {region : Nat → Prop} {m m' : List Host.Cell} {a n : Nat} {bs : Bytes}

theorem MemKeeps.rfl (wf : memWf m = true) : MemKeeps region m m := ⟨wf, fun _ _ => .refl _⟩

theorem MemKeeps.put (keeps : MemKeeps region m m') (apart : ∀ x, region x → x < a ∨ a + bs.length ≤ x) :
    MemKeeps region m (memWriteN m' a bs) :=
  ⟨memWf_writeN keeps.wf a bs, fun x at' => (memRead_writeN_other keeps.wf bs (apart x at')).trans (keeps.reads x at')⟩

theorem memReadN_writeN_same (wf : memWf m = true) : memReadN (memWriteN m a bs) a bs.length = bs := by
  refine List.ext_getElem (by simp [memReadN]) fun i hi hb => ?_
  simp only [memReadN, List.getElem_map, List.getElem_range]
  rw [memRead_writeN_same wf a bs i hb]
  exact List.getD_eq_getElem bs 0 hb

theorem memReadN_congr (reads : ∀ x, a ≤ x → x < a + n → memRead m' x = memRead m x) : memReadN m' a n = memReadN m a n :=
  List.map_congr_left fun i hi => reads _ (Nat.le_add_right a i) (Nat.add_lt_add_left (List.mem_range.mp hi) a)

theorem memRead_writeN_byte {b : Byte} (wf : memWf m = true) : memRead (memWriteN m a [b]) a = b :=
  memRead_writeN_same wf a [b] 0 Nat.one_pos

/-- OWN is clear in an even byte of flags. -/
theorem ownAt_of_even (flags : memRead s.sram (a + 6) = BitVec.ofNat 8 n) (even : n % 2 = 0) : ownAt s a = false := by
  have byte : leNat (sramAt s (a + 6) 1) = (memRead s.sram (a + 6)).toNat := by simp [sramAt, memReadN, leNat, List.range_succ]
  rw [ownAt, byte, flags, bitAt, BitVec.toNat_ofNat]
  simp only [beq_eq_false_iff_ne, Nat.pow_zero, Nat.div_one]
  omega

end Memory

/-! ## Ports and the update of their rings -/

/-- The port is one of the model's arrays. -/
def PortIn (s : State) : Port → Prop
  | .vlk o => o < s.vlk.length
  | .glk => True
  | .eth => True
  | .can c => c < s.can.length

theorem portIn_of_portOk (inv : s.Inv) (ok : portOk p = true) : PortIn s p := by
  obtain ⟨-, -, -, -, -, -, links, -, -, -, -, -, cans, -⟩ := inv
  cases p with
  | vlk o => exact (of_decide_eq_true ok).trans_eq links.symm
  | can c => exact (of_decide_eq_true ok).trans_eq cans.symm
  | glk => trivial
  | eth => trivial

theorem memWf_of_inv (inv : s.Inv) : memWf s.sram = true := by
  obtain ⟨-, -, -, -, -, -, -, -, -, -, -, -, -, wf, -⟩ := inv
  exact wf

theorem ringsOf_congr (same : samePart (portPart p) s t) : ringsOf t p = ringsOf s p := by
  cases p with
  | vlk o => exact congrArg Link.rings (linkOf_congr same)
  | glk => exact congrArg GlkBlock.rings same
  | eth => exact congrArg EthBlock.rings same
  | can c => exact congrArg Can.rings (canOf_congr same)

theorem portIn_congr (same : samePart (portPart p) s t) : PortIn t p ↔ PortIn s p := by
  cases p with
  | vlk o => exact Eq.to_iff (congrArg (fun l => o < List.length l) same)
  | can c => exact Eq.to_iff (congrArg (fun l => c < List.length l) same)
  | glk => exact Iff.rfl
  | eth => exact Iff.rfl

theorem canOf_onCan_keeps {α : Type} {v : Can → α} {g : Can → Can} {c n : Nat} (kept : ∀ x, v (g x) = v x) :
    v (canOf (onCan c g s) n) = v (canOf s n) :=
  upd_getD_rel (R := fun x y => v y = v x) (fun _ => rfl) kept

section Rings
variable {α : Type} {v : Rings → α} {g : Rings → Rings}

theorem ringsOf_onRings (room : PortIn s p) : ringsOf (onRings p g s) p = g (ringsOf s p) := by
  cases p with
  | vlk o => exact congrArg Link.rings (linkOf_onLink_self room)
  | can c => exact congrArg Can.rings (canOf_onCan_self room)
  | glk => rfl
  | eth => rfl

theorem ringsOf_onRings_keeps (kept : ∀ r, v (g r) = v r) : v (ringsOf (onRings p g s) p) = v (ringsOf s p) := by
  cases p with
  | vlk o => exact linkOf_onLink_keeps (v := fun l => v l.rings) fun l => kept l.rings
  | can c => exact canOf_onCan_keeps (v := fun x => v x.rings) fun x => kept x.rings
  | glk => exact kept _
  | eth => exact kept _

theorem portIn_onRings : PortIn (onRings p g s) p ↔ PortIn s p := by
  cases p with
  | vlk o => exact Eq.to_iff (congrArg (o < ·) vlk_length_onLink)
  | can c => exact Eq.to_iff (congrArg (c < ·) (List.length_modify ..))
  | glk => exact Iff.rfl
  | eth => exact Iff.rfl

@[simp] theorem ringsOf_sramPut {a : Nat} {bs : Bytes} : ringsOf (sramPut a bs s) p = ringsOf s p := by cases p <;> rfl

theorem portIn_sramPut {a : Nat} {bs : Bytes} : PortIn (sramPut a bs s) p ↔ PortIn s p := by cases p <;> exact Iff.rfl

@[simp] theorem sram_onRings : (onRings p g s).sram = s.sram := by cases p <;> rfl

end Rings

/-! ## Taking frames from a transmit ring -/

theorem txOwned_of_empty (empty : (ringsOf s p).txTail = (ringsOf s p).txHead) : txOwned s p = false := by
  simp [txOwned, empty]

/-- A ring whose head descriptor is not the device's stands. -/
theorem pump_of_not_owned (free : txOwned s p = false) : pump p s = s := by
  show (if served s p && txOwned s p then _ else s) = s
  rw [free, Bool.and_false]
  rfl

/-- A frame that may be sent stays at the head; on the grid it may ask for a tone map. -/
theorem pump_of_sendable (serves : served s p = true) (owned : txOwned s p = true) (sendable : txRefusal s p = none) :
    pump p s = queueHead p s := by
  show (if served s p && txOwned s p then match txRefusal s p with | some _ => _ | none => _ else s) = _
  rw [serves, owned, sendable]
  rfl

/-- A tone map asked for is a change of the neighbours and of what is sent. -/
theorem wantMap_eq (tei : Nat) : ∃ nbs sent, wantMap tei s = onGlk (fun b => { b with nbs := nbs, sent := sent }) s := by
  unfold wantMap
  split
  · split
    · exact ⟨_, _, rfl⟩
    · exact ⟨_, _, rfl⟩
  · exact ⟨_, _, rfl⟩

theorem queueHead_of_group (group : p = .glk → isGroup (sramAt s (descBuf s (txDesc s .glk)) 6) = true) : queueHead p s = s := by
  cases p with
  | glk => exact if_pos (group rfl)
  | _ => rfl

theorem queueHead_keeps_rings {q : Port} : ringsOf (queueHead p s) q = ringsOf s q := by
  cases p with
  | glk =>
    unfold queueHead
    dsimp only
    split
    · rfl
    · obtain ⟨nbs, sent, asks⟩ := wantMap_eq (s := s) (teiOfMac s (beNat (sramAt s (descBuf s (txDesc s .glk)) 6)))
      rw [asks]
      cases q <;> rfl
  | _ => rfl

theorem txDone_keeps {α : Type} {v : Rings → α} {sts : Nat} (kept : ∀ r n, v { r with txHead := n } = v r) :
    v (ringsOf (txDone p sts s) p) = v (ringsOf s p) := by
  unfold txDone
  dsimp only
  rw [ringsOf_onRings_keeps (v := v) fun r => kept r _, ringsOf_sramPut, ringsOf_sramPut]

theorem txDone_txHead {sts : Nat} (room : PortIn s p) :
    (ringsOf (txDone p sts s) p).txHead = ((ringsOf s p).txHead + 1) % 128 := by
  unfold txDone
  dsimp only
  rw [ringsOf_onRings (portIn_sramPut.mpr (portIn_sramPut.mpr room)), ringsOf_sramPut, ringsOf_sramPut]

theorem pumpTx_keeps_txTail {n : Nat} : (ringsOf (pumpTx p n s) p).txTail = (ringsOf s p).txTail := by
  induction n generalizing s with
  | zero => rfl
  | succ n ih =>
    unfold pumpTx
    split
    · split
      · exact ih.trans (txDone_keeps (v := Rings.txTail) fun _ _ => rfl)
      · rw [queueHead_keeps_rings]
    · rfl

/-! ## The tails (R236, R407) -/

theorem frameTxTailWrite_takes {w : Word} (room : PortIn s p) (there : portThere s p = true) :
    Answers (.frameTxTailWrite p w) s fun t => (ringsOf t p).txTail = w.toNat % 128 :=
  ⟨_, congrArg Host.Outcome.next (if_pos there),
    pumpTx_keeps_txTail.trans (congrArg Rings.txTail (ringsOf_onRings room))⟩

theorem frameRxTailWrite_takes {w : Word} (room : PortIn s p) (there : portThere s p = true) :
    Answers (.frameRxTailWrite p w) s fun t => (ringsOf t p).rxTail = w.toNat % 128 ∧ t.sram = s.sram :=
  ⟨_, congrArg Host.Outcome.next (if_pos there), congrArg Rings.rxTail (ringsOf_onRings room), sram_onRings⟩

/-! ## A frame that goes out -/

/-- The bytes that sending the frame at the head of a ring does not touch: all but STS, flags and TS of its descriptor. -/
def BesideTx (s : State) (p : Port) (a : Nat) : Prop := a < txDesc s p + 6 ∨ txDesc s p + 12 ≤ a

/-- The frame at the head is on its way: at most its time stamp and what the medium carries have changed in the ring. -/
structure TxBegun (s : State) (p : Port) (u : State) : Prop where
  room : PortIn u p
  mem : MemKeeps (BesideTx s p) s.sram u.sram
  base : (ringsOf u p).txBase = (ringsOf s p).txBase
  head : (ringsOf u p).txHead = (ringsOf s p).txHead
  tail : (ringsOf u p).txTail = (ringsOf s p).txTail

/-- The descriptor at the head has gone back with a status, and the head has moved on. -/
structure SentBack (s : State) (p : Port) (sts : Byte) (t : State) : Prop where
  head : (ringsOf t p).txHead = ((ringsOf s p).txHead + 1) % 128
  own : ownAt t (txDesc s p) = false
  status : memRead t.sram (txDesc s p + 7) = sts
  outside : ∀ a, BesideTx s p a → memRead t.sram a = memRead s.sram a

/-- A PTP capture belongs to the time base. -/
theorem port_ptpCapture {tx : Bool} {b : Bytes} : samePart (portPart p) s (ptpCapture p tx b s) :=
  part_of_law _ (same_ptpCapture p tx b) (by cases p <;> rfl)

theorem rings_captureIf {x : Bool} {b : Bytes} : ringsOf (if x then ptpCapture p true b s else s) p = ringsOf s p := by
  split
  · exact ringsOf_congr port_ptpCapture
  · rfl

section Begun
variable (begun : TxBegun s p u)
include begun

theorem TxBegun.desc : txDesc u p = txDesc s p := by rw [txDesc, txDesc, begun.base, begun.head]

/-- What changes neither the port's rings nor the memory. -/
theorem TxBegun.same (sram : t.sram = u.sram) (room : PortIn t p ↔ PortIn u p) (rings : ringsOf t p = ringsOf u p) :
    TxBegun s p t := by
  refine ⟨room.mpr begun.room, ?_, ?_, ?_, ?_⟩
  · rw [sram]
    exact begun.mem
  all_goals rw [rings]
  · exact begun.base
  · exact begun.head
  · exact begun.tail

theorem TxBegun.stamp {ts : Nat} : TxBegun s p (txStamp p ts u) := by
  unfold txStamp
  dsimp only
  refine ⟨portIn_sramPut.mpr begun.room, ?_, ?_, ?_, ?_⟩
  · refine begun.mem.put fun x beside => ?_
    rw [begun.desc]
    exact beside.imp (fun h => by omega) fun h => h
  all_goals rw [ringsOf_sramPut]
  · exact begun.base
  · exact begun.head
  · exact begun.tail

theorem TxBegun.wire {b : Bytes} : TxBegun s p (onWire p b u) := by
  refine ⟨portIn_onRings.mpr begun.room, ?_, ?_, ?_, ?_⟩
  · rw [onWire, sram_onRings]
    exact begun.mem
  all_goals rw [onWire, ringsOf_onRings begun.room]
  · exact begun.base
  · exact begun.head
  · exact begun.tail

theorem TxBegun.done {sts : Nat} : SentBack s p (BitVec.ofNat 8 sts) (txDone p sts u) := by
  have sram : (txDone p sts u).sram = memWriteN (memWriteN u.sram (txDesc u p + 7) [BitVec.ofNat 8 sts]) (txDesc u p + 6)
      [BitVec.ofNat 8 (descFlags u (txDesc u p) / 2 * 2)] := sram_onRings
  rw [begun.desc] at sram
  have first : memWf (memWriteN u.sram (txDesc s p + 7) [BitVec.ofNat 8 sts]) = true := memWf_writeN begun.mem.wf ..
  refine ⟨?_, ?_, ?_, fun a beside => ?_⟩
  · rw [txDone_txHead begun.room, begun.head]
  · refine ownAt_of_even ?_ (Nat.mul_mod_left (descFlags u (txDesc s p) / 2) 2)
    rw [sram]
    exact memRead_writeN_byte first
  · rw [sram, memRead_writeN_other (x := txDesc s p + 7) first _ (.inr (Nat.le_refl _))]
    exact memRead_writeN_byte begun.mem.wf
  · rw [sram]
    refine ((begun.mem.put fun x beside => ?_).put fun x beside => ?_).reads a beside
    · exact beside.imp (fun h => by omega) fun h => by simp only [List.length_singleton]; omega
    · exact beside.imp (fun h => by omega) fun h => by simp only [List.length_singleton]; omega

theorem TxBegun.captureIf (x : Bool) (b : Bytes) : TxBegun s p (if x then ptpCapture p true b u else u) := by
  split
  · exact begun.same (part_of_law .sram (same_ptpCapture p true b) rfl) (portIn_congr port_ptpCapture)
      (ringsOf_congr port_ptpCapture)
  · exact begun

theorem TxBegun.timeout : TxBegun s p (countTimeout p u) := by
  cases p with
  | vlk o =>
    exact begun.same rfl (Eq.to_iff (congrArg (o < ·) vlk_length_onLink)) (linkOf_onLink_keeps (v := Link.rings) fun _ => rfl)
  | can c =>
    exact begun.same rfl (Eq.to_iff (congrArg (c < ·) (List.length_modify ..)))
      (canOf_onCan_keeps (v := Can.rings) fun _ => rfl)
  | glk => exact begun.same rfl Iff.rfl rfl
  | eth => exact begun.same rfl Iff.rfl rfl

/-- A ring that held one frame is empty when it has gone back. -/
theorem TxBegun.pump_done {sts : Nat} (one : (ringsOf s p).txTail = ((ringsOf s p).txHead + 1) % 128) :
    pump p (txDone p sts u) = txDone p sts u := by
  refine pump_of_not_owned (txOwned_of_empty ?_)
  rw [txDone_keeps (v := Rings.txTail) fun _ _ => rfl, txDone_txHead begun.room, begun.tail, begun.head, one]

end Begun

theorem TxBegun.refl (room : PortIn s p) (wf : memWf s.sram = true) : TxBegun s p s := ⟨room, .rfl wf, rfl, rfl, rfl⟩

theorem SentBack.same {sts : Byte} (back : SentBack s p sts t) (sram : u.sram = t.sram) (rings : ringsOf u p = ringsOf t p) :
    SentBack s p sts u := by
  refine ⟨?_, ?_, ?_, ?_⟩
  · rw [rings]
    exact back.head
  · rw [ownAt, sramAt, sram]
    exact back.own
  all_goals rw [sram]
  · exact back.status
  · exact back.outside

theorem there_of_served (serves : served s p = true) :
    ¬ (portThere s p = false ∨ s.sys.mode = .watch ∨ s.sys.mode = .dormant) := by
  simp only [served, Bool.and_eq_true, bne_iff_ne] at serves
  obtain ⟨⟨⟨⟨there, -⟩, watch⟩, dormant⟩, -⟩ := serves
  simp [there, watch, dormant]

/-- The frame of the transmit descriptor at the head of a ring. -/
def txFrame (s : State) (p : Port) : Bytes := sramAt s (descBuf s (txDesc s p)) (descLen s (txDesc s p))

/-- The group frame at the head of the grid link's ring has gone out once. -/
def goesAgain (s : State) : Port → Bool
  | .glk => s.glk.msdu.isSome
  | _ => false

/-- The frame at the head on the medium, with its time stamp but for a group frame that goes out again (R249, R267). -/
def toMedium (p : Port) (ts : Nat) (s : State) : State := onWire p (txFrame s p) (if goesAgain s p then s else txStamp p ts s)

/-- What follows the frame on the medium (R236, R249, R267, R410). -/
def sendHead (p : Port) (ts : Nat) (s : State) : State :=
  let v := toMedium p ts s
  match p with
  | .glk =>
    if isGroup (txFrame s .glk) then groupSent v
    else mpduSent (descLen v (txDesc s .glk)) (teiOfMac v (beNat ((txFrame s .glk).take 6))) v
  | .can c =>
    let w := pump (.can c) (txDone (.can c) stsOk v)
    if bitAt (canOf w c).dbt 7 then bump (onCan c (fun x => { x with tdcv := freeNat w % 128 }) w) else w
  | _ => pump p (txDone p stsOk (if bitAt (descFlags s (txDesc s p)) 1 then ptpCapture p true (txFrame s p) v else v))

theorem sendHead_of_single {x : Nat} (single : ¬ isGroup (txFrame s .glk) = true) :
    sendHead .glk x s = mpduSent (descLen (toMedium .glk x s) (txDesc s .glk))
      (teiOfMac (toMedium .glk x s) (beNat ((txFrame s .glk).take 6))) (toMedium .glk x s) := if_neg single

theorem sendHead_of_group {x : Nat} (group : isGroup (txFrame s .glk) = true) :
    sendHead .glk x s = groupSent (toMedium .glk x s) := if_pos group

theorem msdu_toMedium {x : Nat} : (toMedium .glk x s).glk.msdu = s.glk.msdu := by
  show (if goesAgain s .glk then _ else _ : State).glk.msdu = _
  split <;> rfl

theorem groupSent_first (first : t.glk.msdu = none) :
    groupSent t = onGlk (fun b => { b with msdu := some { tei := 0xFF, pbs := [(1, false)] } }) t := if_neg (by simp [first])

theorem groupSent_again (again : t.glk.msdu.isSome = true) :
    groupSent t = pump .glk (txDone .glk stsOk (onGlk (fun b => { b with msdu := none }) t)) := if_pos again

theorem exec_frameTransmitted {x : Nat} (serves : served s p = true) (alone : efdomQueued s p = false)
    (ready : served (pump p s) p && txOwned (pump p s) p) :
    exec (.frameTransmitted p x) s = .next (sendHead p x (pump p s)) := by
  refine congrArg Host.Outcome.next ((if_neg (there_of_served serves)).trans ((if_neg (by simp [alone])).trans ((if_pos ready).trans ?_)))
  cases p <;> rfl

/-- A controller's transmitter delay is none of its rings. -/
theorem rings_measured {c n : Nat} : ringsOf (bump (onCan c (fun x => { x with tdcv := n }) s)) (.can c) = ringsOf s (.can c) :=
  canOf_onCan_keeps (v := Can.rings) fun _ => rfl

theorem toMedium_begun {x : Nat} (room : PortIn s p) (wf : memWf s.sram = true) : TxBegun s p (toMedium p x s) := by
  refine TxBegun.wire ?_
  split
  · exact .refl room wf
  · exact (TxBegun.refl room wf).stamp

theorem toMedium_wire {x : Nat} (room : PortIn s p) : (ringsOf (toMedium p x s) p).wire = padded p (txFrame s p) := by
  have stamped : PortIn (txStamp p x s) p := portIn_sramPut.mpr room
  refine congrArg Rings.wire (ringsOf_onRings ?_)
  split
  · exact room
  · exact stamped

section Send
variable {x : Nat} (room : PortIn s p) (wf : memWf s.sram = true)
  (one : (ringsOf s p).txTail = ((ringsOf s p).txHead + 1) % 128)
include room wf one

/-- But on the grid a frame goes back when it has been sent. -/
theorem sendHead_sends (other : p ≠ .glk) :
    SentBack s p 0 (sendHead p x s) ∧ (ringsOf (sendHead p x s) p).wire = padded p (txFrame s p) := by
  have sent {v : State} (begun : TxBegun s p v) (wire : (ringsOf v p).wire = padded p (txFrame s p)) :
      SentBack s p 0 (pump p (txDone p stsOk v)) ∧ (ringsOf (pump p (txDone p stsOk v)) p).wire = padded p (txFrame s p) := by
    rw [begun.pump_done one]
    exact ⟨begun.done, (txDone_keeps (v := Rings.wire) fun _ _ => rfl).trans wire⟩
  have begun := toMedium_begun (x := x) room wf
  have wire := toMedium_wire (x := x) room
  have captured (b : Bool) := sent (begun.captureIf b (txFrame s p)) ((congrArg Rings.wire rings_captureIf).trans wire)
  cases p with
  | glk => exact absurd rfl other
  | vlk o => exact captured _
  | eth => exact captured _
  | can c =>
    obtain ⟨back, wire⟩ := sent begun wire
    unfold sendHead
    dsimp only
    generalize pump (.can c) (txDone (.can c) stsOk (toMedium (.can c) x s)) = w at back wire ⊢
    split
    · exact ⟨back.same rfl rings_measured, (congrArg Rings.wire rings_measured).trans wire⟩
    · exact ⟨back, wire⟩

/-- But on the grid a ring whose head may be sent stands until it is. -/
theorem frameTransmitted_sends (other : p ≠ .glk) (serves : served s p = true) (owned : txOwned s p = true)
    (sendable : txRefusal s p = none) (alone : efdomQueued s p = false) :
    Answers (.frameTransmitted p x) s fun t => SentBack s p 0 t ∧ (ringsOf t p).wire = padded p (txFrame s p) := by
  have stands : pump p s = s :=
    (pump_of_sendable serves owned sendable).trans (queueHead_of_group fun grid => absurd grid other)
  refine ⟨_, exec_frameTransmitted serves alone (by rw [stands, serves, owned]; rfl), ?_⟩
  rw [stands]
  exact sendHead_sends room wf one other

theorem frameTxTimeout_gives_back (other : p ≠ .glk) (serves : served s p = true) (owned : txOwned s p = true)
    (sendable : txRefusal s p = none) : Answers (.frameTxTimeout p) s (SentBack s p 0x0A) := by
  have stands : pump p s = s :=
    (pump_of_sendable serves owned sendable).trans (queueHead_of_group fun grid => absurd grid other)
  have begun := ((TxBegun.refl room wf).stamp (ts := 0)).timeout
  have back := begun.pump_done (sts := stsTimeout) one ▸ begun.done (sts := stsTimeout)
  refine ⟨pump p (txDone p stsTimeout (countTimeout p (txStamp p 0 s))), congrArg Host.Outcome.next ?_, back⟩
  rw [stands]
  refine if_pos ?_
  rw [serves, owned]
  cases p with
  | glk => exact absurd rfl other
  | _ => rfl

end Send

/-! ## The grid link (R249) -/

theorem txFrame_congr (sram : t.sram = s.sram) (rings : ringsOf t p = ringsOf s p) : txFrame t p = txFrame s p := by
  simp only [txFrame, txDesc, descBuf, descLen, sramAt, sram, rings]

theorem txOwned_congr (sram : t.sram = s.sram) (rings : ringsOf t p = ringsOf s p) : txOwned t p = txOwned s p := by
  simp only [txOwned, txDesc, ownAt, sramAt, sram, rings]

theorem served_onGlk {g : GlkBlock → GlkBlock} : served (onGlk g s) .glk = served s .glk := rfl

theorem mpduSent_msdu {len tei : Nat} : (mpduSent len tei t).glk.msdu.isSome = true := rfl

theorem rings_mpduSent {len tei : Nat} : ringsOf (mpduSent len tei t) .glk = ringsOf t .glk := rfl

section Grid
variable {x : Nat} (wf : memWf s.sram = true) (serves : served s .glk = true) (owned : txOwned s .glk = true)
  (sendable : txRefusal s .glk = none) (alone : efdomQueued s .glk = false)
include wf serves owned sendable alone

/-- A frame to one station stays at the head as the data unit in flight. -/
theorem frameTransmitted_flies (single : isGroup (txFrame s .glk) = false) :
    Answers (.frameTransmitted .glk x) s fun t =>
      t.glk.msdu.isSome = true ∧ (ringsOf t .glk).txHead = (ringsOf s .glk).txHead := by
  have queued := pump_of_sendable serves owned sendable
  obtain ⟨nbs, sent, asks⟩ : ∃ nbs sent, queueHead .glk s = onGlk (fun b => { b with nbs := nbs, sent := sent }) s := by
    unfold queueHead
    dsimp only
    split
    · exact ⟨_, _, rfl⟩
    · exact wantMap_eq _
  have stands := queued.trans asks
  generalize asked : onGlk (fun b => { b with nbs := nbs, sent := sent }) s = u at stands
  have sram : u.sram = s.sram := by rw [← asked]; rfl
  have rings : ringsOf u .glk = ringsOf s .glk := by rw [← asked]; rfl
  have serves' : served u .glk = true := by rw [← asked, served_onGlk, serves]
  refine ⟨_, exec_frameTransmitted serves alone (by rw [stands, serves', txOwned_congr sram rings, owned]; rfl), ?_⟩
  have unicast : ¬ isGroup (txFrame u .glk) = true := by rw [txFrame_congr sram rings, single]; nofun
  rw [stands, sendHead_of_single unicast]
  refine ⟨mpduSent_msdu, ?_⟩
  rw [rings_mpduSent, (toMedium_begun (p := .glk) trivial (sram ▸ wf)).head, rings]

/-- A group frame goes out twice, and then its descriptor goes back. -/
theorem frameTransmitted_repeats (group : isGroup (txFrame s .glk) = true)
    (group' : isGroup (sramAt s (descBuf s (txDesc s .glk)) 6) = true)
    (one : (ringsOf s .glk).txTail = ((ringsOf s .glk).txHead + 1) % 128) :
    Answers (.frameTransmitted .glk x) s fun t =>
      (s.glk.msdu = none → t.glk.msdu.isSome = true ∧ (ringsOf t .glk).txHead = (ringsOf s .glk).txHead)
        ∧ (s.glk.msdu.isSome = true → t.glk.msdu = none
            ∧ (ringsOf t .glk).txHead = ((ringsOf s .glk).txHead + 1) % 128) := by
  have stands : pump .glk s = s := (pump_of_sendable serves owned sendable).trans (queueHead_of_group fun _ => group')
  refine ⟨_, exec_frameTransmitted serves alone (by rw [stands]; exact Bool.and_eq_true_iff.mpr ⟨serves, owned⟩), ?_⟩
  rw [stands, sendHead_of_group group]
  have begun := toMedium_begun (p := .glk) (x := x) trivial wf
  have flight : (toMedium .glk x s).glk.msdu = s.glk.msdu := msdu_toMedium
  refine ⟨fun first => ?_, fun again => ?_⟩
  · rw [groupSent_first (flight.trans first)]
    exact ⟨rfl, begun.head⟩
  · have cleared : TxBegun s .glk (onGlk (fun b => { b with msdu := none }) (toMedium .glk x s)) := begun.same rfl Iff.rfl rfl
    rw [groupSent_again (flight ▸ again), cleared.pump_done one]
    exact ⟨rfl, (cleared.done (sts := stsOk)).head⟩

end Grid

/-! ## A frame that comes in -/

/-- A frame that has passed the checks of its port: no ring and no byte has changed yet. -/
structure RxReady (s : State) (p : Port) (u : State) : Prop where
  sram : u.sram = s.sram
  rings : ringsOf u p = ringsOf s p
  room : PortIn u p

/-- What the end of the way to the receive ring depends on: rings, association and keys of the grid link. -/
def glkView (b : GlkBlock) : Rings × Assoc × Option Bytes × Option (Bytes × Nat) := (b.rings, b.assoc, b.nek, b.oldNek)

theorem glkView_hear {tei : Nat} {mac : Option Nat} {cco : Bool} : glkView (hear tei mac cco s).glk = glkView s.glk := by
  show glkView (enter tei (mac.getD 0) cco s).glk = glkView s.glk
  unfold enter
  dsimp only
  split
  · rfl
  · split
    · rfl
    · split
      · rfl
      · split
        · rfl
        · rw [logEv_glk]
          rfl

theorem vlkReceive_passes {o : Nat} (room : PortIn s (.vlk o)) (serves : served s (.vlk o) = true) (passes : Passes s f (.vlk o)) :
    ∃ u, RxReady s (.vlk o) u ∧ vlkReceive o f s = receiveRing (.vlk o) f false u := by
  obtain ⟨known, key, good⟩ := passes
  refine ⟨if f.mme then onLink o (fun l => { l with fmt := satInc 8 l.fmt }) s else s, ?_, ?_⟩
  · split
    · exact ⟨rfl, linkOf_onLink_keeps (v := Link.rings) fun _ => rfl, (Eq.to_iff (congrArg (o < ·) vlk_length_onLink)).mpr room⟩
    · exact ⟨rfl, rfl, room⟩
  · unfold vlkReceive
    dsimp only
    rw [if_neg (by simp [serves]), if_neg fun h => (known h.1).1 h.2, if_neg fun h => Bool.false_ne_true ((known h.1).2.symm.trans h.2),
      good, key, Bool.or_false]

theorem nekFails_congr (view : glkView u.glk = glkView s.glk) (ticks : u.ticks = s.ticks) : nekFails u f = nekFails s f := by
  have nek : u.glk.nek = s.glk.nek := congrArg (·.2.2.1) view
  have old : u.glk.oldNek = s.glk.oldNek := congrArg (·.2.2.2) view
  unfold nekFails within
  rw [nek, old, ticks]

theorem glkDeliver_passes (serves : served s .glk = true) (passes : Passes s f .glk) :
    glkDeliver f s = receiveRing .glk f false s := by
  obtain ⟨member, -, -, key, good, ether, known⟩ := passes
  unfold glkDeliver
  dsimp only
  rw [good, key, member, if_neg fun h => ether h.1, if_neg (by simp [serves]), if_neg fun h => ?_]
  · simp
  · exact h.2.2.elim (known h.1).1 (known h.1).2

/-- The station of the frame is heard first: neighbours and maps, and perhaps an event. -/
theorem glkReceive_passes (serves : served s .glk = true) (passes : Passes s f .glk) :
    ∃ u, RxReady s .glk u ∧ glkReceive f s = receiveRing .glk f false u := by
  have ⟨member, whole, single, key, good, ether, known⟩ := passes
  have view : glkView (useRxMap f.src (hear f.src (macOf f) false s)).glk = glkView s.glk := glkView_hear
  have parts (q : Part) (other : [Part.glk, .log].contains q = false) : samePart q s (useRxMap f.src (hear f.src (macOf f) false s)) :=
    part_of_law (w := [.glk, .log]) q (fun hw h => same_useRxMap _ (listed_trans hw rfl) (same_hear _ _ _ hw h)) other
  have received : glkReceive f s = glkDeliver f (useRxMap f.src (hear f.src (macOf f) false s)) := by
    unfold glkReceive
    dsimp only
    rw [if_neg (by simp [member]), whole, single]
    rfl
  rw [received]
  generalize useRxMap f.src (hear f.src (macOf f) false s) = u at view parts
  have rings : ringsOf u .glk = ringsOf s .glk := congrArg Prod.fst view
  have mode : u.sys.mode = s.sys.mode := by
    have sys : { u.sys with retLog := [], retLost := false } = { s.sys with retLog := [], retLost := false } := parts .sys rfl
    have modes := congrArg SysBlock.mode sys
    exact modes
  have str : u.str = s.str := parts .str rfl
  have serves' : served u .glk = true := by
    rw [← serves]
    simp only [served, portThere, blockBit, str, mode]
  refine ⟨u, ⟨parts .sram rfl, rings, trivial⟩, glkDeliver_passes serves' ⟨?_, whole, single, ?_, good, ether, known⟩⟩
  · exact (congrArg (·.2.1) view).trans member
  · exact (nekFails_congr view (parts .ticks rfl)).trans key

theorem ethReceive_passes (serves : served s .eth = true) (passes : Passes s f .eth) :
    ∃ u, RxReady s .eth u ∧ ethReceive f s = receiveRing .eth f false u := by
  obtain ⟨on, good, ether, runt⟩ := passes
  refine ⟨ptpCapture .eth false f.bytes s, ⟨part_of_law .sram (same_ptpCapture _ _ _) rfl, ringsOf_congr port_ptpCapture, trivial⟩, ?_⟩
  unfold ethReceive
  rw [if_neg (by simp [on]), if_neg (Nat.not_lt.mpr runt), if_neg fun h => ether h.1, if_neg (by simp [serves]), good]
  rfl

theorem canReceive_passes {c : Nat} (room : PortIn s (.can c)) (serves : served s (.can c) = true) (passes : Passes s f (.can c)) :
    ∃ u, RxReady s (.can c) u ∧ canReceive c f s = receiveRing (.can c) f false u := by
  obtain ⟨on, other, filtered⟩ := passes
  refine ⟨s, ⟨rfl, rfl, room⟩, ?_⟩
  unfold canReceive
  dsimp only
  rw [if_neg (by simp [on]), if_neg (by simp [other]), if_pos (by simp [serves, filtered])]

/-- A frame at its port. -/
def portReceive (p : Port) (f : RxFrame) (s : State) : State :=
  match p with
  | .vlk o => vlkReceive o f s
  | .glk => glkReceive f s
  | .eth => ethReceive f s
  | .can c => canReceive c f s

theorem portReceive_passes (room : PortIn s p) (serves : served s p = true) (passes : Passes s f p) :
    ∃ u, RxReady s p u ∧ portReceive p f s = receiveRing p f false u := by
  cases p with
  | vlk o => exact vlkReceive_passes room serves passes
  | glk => exact glkReceive_passes serves passes
  | eth => exact ethReceive_passes serves passes
  | can c => exact canReceive_passes room serves passes

theorem exec_frameReceived (serves : served s p = true) : exec (.frameReceived p f) s = .next (portReceive p f s) :=
  congrArg Host.Outcome.next (if_neg (there_of_served serves))

theorem receiveRing_delivers (owned : rxOwned s p = true) (short : f.bytes.length ≤ 1518)
    (fits : f.bytes.length ≤ descLen s (rxDesc s p)) : receiveRing p f false s = deliver p f s := by
  unfold receiveRing
  dsimp only
  rw [if_neg (by simp [Nat.not_lt.mpr short, Nat.not_lt.mpr fits]), if_neg nofun, if_neg (by simp [owned])]

theorem receiveRing_discards (free : rxOwned s p = false) (short : f.bytes.length ≤ 1518) :
    ∃ row, receiveRing p f false s = rxDiscard p row s := by
  unfold receiveRing
  dsimp only
  rw [if_neg (by simp [Nat.not_lt.mpr short, free]), if_neg nofun, if_pos free]
  exact ⟨_, rfl⟩

/-! ### Discarding -/

theorem rings_logEv {c : EvClass} {b i k : Nat} {d : List (Nat × Nat)} : ringsOf (logEv c b i k d s) p = ringsOf s p := by
  cases p with
  | vlk o => exact congrArg Link.rings linkOf_logEv
  | glk => exact congrArg GlkBlock.rings logEv_glk
  | eth => exact congrArg EthBlock.rings logEv_eth
  | can c => exact congrArg Can.rings (canOf_congr logEv_can)

theorem rxHead_onRings_drop {g : Rings → Rings} (kept : ∀ r, (g r).rxHead = r.rxHead) (counted : ringsOf t p = ringsOf s p) :
    (ringsOf (onRings p g t) p).rxHead = (ringsOf s p).rxHead :=
  (ringsOf_onRings_keeps (v := Rings.rxHead) kept).trans (congrArg Rings.rxHead counted)

theorem rxDiscard_keeps_rxHead {row : Nat} : (ringsOf (rxDiscard p row s) p).rxHead = (ringsOf s p).rxHead := by
  unfold rxDiscard
  extract_lets pick counted n recent noted
  have same : ringsOf counted p = ringsOf s p := by
    cases p with
    | vlk o => exact linkOf_onLink_keeps (v := Link.rings) fun _ => rfl
    | can c => exact canOf_onCan_keeps (v := Can.rings) fun _ => rfl
    | glk => rfl
    | eth => rfl
  have kept : (ringsOf noted p).rxHead = (ringsOf s p).rxHead := rxHead_onRings_drop (fun _ => rfl) same
  clear_value counted noted
  split
  · exact rxHead_onRings_drop (fun _ => rfl) same
  · split
    all_goals rw [rings_logEv, kept]

theorem sram_rxDiscard {row : Nat} : (rxDiscard p row s).sram = s.sram := by
  cases p with
  | vlk o => exact part_of_law .sram (same_rxDiscard (.vlk o) row) rfl
  | glk => exact part_of_law .sram (same_rxDiscard .glk row) rfl
  | eth => exact part_of_law .sram (same_rxDiscard .eth row) rfl
  | can c => exact part_of_law .sram (same_rxDiscard (.can c) row) rfl

/-! ### Delivering -/

/-- The bytes that a frame into the descriptor at the head does not touch, but for its buffer. -/
def BesideRx (s : State) (p : Port) (a : Nat) : Prop := a < rxDesc s p + 4 ∨ rxDesc s p + 14 ≤ a

/-- The memory after a frame: the buffer, then the length, STS, TS and CAP, and the flags with OWN clear last. -/
theorem sram_deliver : ∃ ts cap fl, fl % 2 = 0 ∧ (deliver p f s).sram =
    memWriteN (memWriteN (memWriteN (memWriteN (memWriteN (memWriteN s.sram (descBuf s (rxDesc s p)) f.bytes)
      (rxDesc s p + 4) (leBytes 2 f.bytes.length)) (rxDesc s p + 7) (leBytes 1 stsOk)) (rxDesc s p + 8) (leBytes 4 ts))
      (rxDesc s p + 12) (leBytes 2 cap)) (rxDesc s p + 6) (leBytes 1 fl) := by
  have even (b : Bool) (n : Nat) : 2 ∣ flagAt b (n + 1) := by
    unfold flagAt
    split
    · exact ⟨2 ^ n, Nat.pow_succ'⟩
    · exact Nat.dvd_zero 2
  exact ⟨_, _, _, Nat.mod_eq_zero_of_dvd (Nat.dvd_add (Nat.dvd_add (even _ 0) (even _ 1)) (even _ 2)), sram_onRings⟩

@[simp] theorem leBytes_length (n w : Nat) : (leBytes n w).length = n := by
  induction n generalizing w with
  | zero => rfl
  | succ n ih => exact congrArg Nat.succ (ih _)

theorem rxHead_deliver (room : PortIn s p) : (ringsOf (deliver p f s) p).rxHead = ((ringsOf s p).rxHead + 1) % 128 := by
  unfold deliver
  dsimp only
  rw [ringsOf_onRings (by simpa only [portIn_sramPut] using room)]
  simp only [ringsOf_sramPut]

/-- The parts of a frame that arrives in memory. -/
structure Delivered (s : State) (p : Port) (f : RxFrame) (t : State) : Prop where
  bytes : sramAt t (descBuf s (rxDesc s p)) f.bytes.length = f.bytes
  own : ownAt t (rxDesc s p) = false
  head : (ringsOf t p).rxHead = ((ringsOf s p).rxHead + 1) % 128
  outside : ∀ a, BesideRx s p a → (a < descBuf s (rxDesc s p) ∨ descBuf s (rxDesc s p) + f.bytes.length ≤ a) →
    memRead t.sram a = memRead s.sram a

theorem deliver_delivers (room : PortIn s p) (wf : memWf s.sram = true)
    (apart : descBuf s (rxDesc s p) + f.bytes.length ≤ rxDesc s p + 4 ∨ rxDesc s p + 14 ≤ descBuf s (rxDesc s p)) :
    Delivered s p f (deliver p f s) := by
  obtain ⟨ts, cap, fl, clear, sram⟩ := sram_deliver (s := s) (p := p) (f := f)
  have wrote {region : Nat → Prop} {m : List Host.Cell} (wf : MemKeeps region m (memWriteN s.sram (descBuf s (rxDesc s p)) f.bytes))
      (beside : ∀ a, region a → a < rxDesc s p + 4 ∨ rxDesc s p + 14 ≤ a) : MemKeeps region m (deliver p f s).sram := by
    rw [sram]
    refine (((((wf.put ?_).put ?_).put ?_).put ?_).put ?_)
    all_goals
      intro a at'
      have := beside a at'
      rw [leBytes_length]
      omega
  have buffer := memWf_writeN wf (descBuf s (rxDesc s p)) f.bytes
  refine ⟨?_, ?_, rxHead_deliver room, fun a beside outside => ?_⟩
  · have kept := wrote (region := fun a => descBuf s (rxDesc s p) ≤ a ∧ a < descBuf s (rxDesc s p) + f.bytes.length) (.rfl buffer)
      fun a at' => by omega
    exact (memReadN_congr fun a ge lt => kept.reads a ⟨ge, lt⟩).trans (memReadN_writeN_same wf)
  · refine ownAt_of_even ?_ clear
    rw [sram]
    exact memRead_writeN_byte (memWf_writeN (memWf_writeN (memWf_writeN (memWf_writeN buffer ..) ..) ..) ..)
  · have kept := wrote (region := fun a => BesideRx s p a
        ∧ (a < descBuf s (rxDesc s p) ∨ descBuf s (rxDesc s p) + f.bytes.length ≤ a)) ((MemKeeps.rfl wf).put fun _ at' => at'.2)
      fun _ at' => at'.1
    exact kept.reads a ⟨beside, outside⟩

section Receive
variable (room : PortIn s p) (serves : served s p = true) (passes : Passes s f p) (short : f.bytes.length ≤ 1518)
include room serves passes short

theorem frameReceived_delivers (wf : memWf s.sram = true) (owned : rxOwned s p = true)
    (fits : f.bytes.length ≤ descLen s (rxDesc s p))
    (apart : descBuf s (rxDesc s p) + f.bytes.length ≤ rxDesc s p + 4 ∨ rxDesc s p + 14 ≤ descBuf s (rxDesc s p)) :
    Answers (.frameReceived p f) s (Delivered s p f) := by
  obtain ⟨u, ready, received⟩ := portReceive_passes room serves passes
  have desc : rxDesc u p = rxDesc s p := by rw [rxDesc, rxDesc, ready.rings]
  have buf : descBuf u (rxDesc u p) = descBuf s (rxDesc s p) := by rw [desc, descBuf, descBuf, sramAt, sramAt, ready.sram]
  have owned' : rxOwned u p = true := by
    rw [← owned]
    simp only [rxOwned, desc, ready.rings, ownAt, sramAt, ready.sram]
  have fits' : f.bytes.length ≤ descLen u (rxDesc u p) := by rwa [desc, descLen, sramAt, ready.sram]
  have delivered := deliver_delivers (f := f) ready.room (ready.sram ▸ wf) (by rwa [buf, desc])
  refine ⟨deliver p f u, (exec_frameReceived serves).trans ?_, ⟨?_, ?_, ?_, fun a beside outside => ?_⟩⟩
  · rw [received, receiveRing_delivers owned' short fits']
  · exact buf ▸ delivered.bytes
  · exact desc ▸ delivered.own
  · exact ready.rings ▸ delivered.head
  · exact (delivered.outside a (by rwa [BesideRx, desc]) (by rwa [buf])).trans (by rw [ready.sram])

theorem frameReceived_discards (free : rxOwned s p = false) :
    Answers (.frameReceived p f) s fun t => t.sram = s.sram ∧ (ringsOf t p).rxHead = (ringsOf s p).rxHead := by
  obtain ⟨u, ready, received⟩ := portReceive_passes room serves passes
  have free' : rxOwned u p = false := by
    rw [← free]
    simp only [rxOwned, rxDesc, ready.rings, ownAt, sramAt, ready.sram]
  obtain ⟨row, discarded⟩ := receiveRing_discards free' short
  refine ⟨rxDiscard p row u, (exec_frameReceived serves).trans ?_, sram_rxDiscard.trans ready.sram, ?_⟩
  · rw [received, discarded]
  · rw [rxDiscard_keeps_rxHead, ready.rings]

end Receive

/-- Settles O28: what a command writes into SRAM is a string of writes inside the descriptor and the buffer at the head of
its ring (`TxBegun`, `SentBack`, `Delivered`), and a ring whose one frame has gone back is pumped no further. -/
theorem frameRingCommandsEffect : Obligations.FrameRingCommandsEffect := by
  refine ⟨fun _ _ _ inv ok there => ⟨frameTxTailWrite_takes (portIn_of_portOk inv ok) there,
      frameRxTailWrite_takes (portIn_of_portOk inv ok) there⟩,
    fun s p x inv ok other serves owned sendable one => ⟨fun alone => ?_, ?_⟩,
    fun _ _ inv serves owned sendable alone => frameTransmitted_flies (memWf_of_inv inv) serves owned sendable alone,
    fun _ _ inv serves owned sendable alone => frameTransmitted_repeats (memWf_of_inv inv) serves owned sendable alone,
    fun s p f inv ok serves passes owned short fits apart => ?_,
    fun _ _ _ inv ok serves passes free short => frameReceived_discards (portIn_of_portOk inv ok) serves passes short free⟩
  · obtain ⟨t, runs, back, wire⟩ := frameTransmitted_sends (x := x) (portIn_of_portOk inv ok) (memWf_of_inv inv) one other serves
      owned sendable alone
    exact ⟨t, runs, back.head, back.own, back.status, wire, back.outside⟩
  · obtain ⟨t, runs, back⟩ := frameTxTimeout_gives_back (portIn_of_portOk inv ok) (memWf_of_inv inv) one other serves owned
      sendable
    exact ⟨t, runs, back.head, back.own, back.status, back.outside⟩
  · obtain ⟨t, runs, delivered⟩ := frameReceived_delivers (portIn_of_portOk inv ok) serves passes short (memWf_of_inv inv) owned
      fits apart
    exact ⟨t, runs, delivered.bytes, delivered.own, delivered.head, delivered.outside⟩

end Sys2Proof.Machine
end

section
/-! PROOFS. The statements of 08_grid_link.md: membership, neighbours, tone maps, selective resending and phases of the grid link
(R243, R246–R252), and the Ethernet link, MDIO and the backhaul (R254–R256). -/

namespace Sys2Proof.Machine

variable {s t u : State} {α : Type}

/-! ## What pumping a ring leaves of its block -/

/-- What giving a frame back and queueing one for a tone map keep, pumping keeps. -/
theorem pump_keeps {g : State → α} {p : Port} (done : ∀ u sts, g (txDone p sts u) = g u)
    (queue : ∀ u, g (queueHead p u) = g u) : g (pump p s) = g s := by
  have rounds (n : Nat) : ∀ u, g (pumpTx p n u) = g u := by
    induction n with
    | zero => exact fun _ => rfl
    | succ n ih =>
      intro u
      unfold pumpTx
      split
      · split
        · exact (ih _).trans (done u _)
        · exact queue u
      · rfl
  exact rounds 128 s

/-- A view of the grid link that its transmit ring, its neighbours and the messages it sends do not change. -/
def QueueFree (v : GlkBlock → α) : Prop := ∀ b r l x, v { b with rings := r, nbs := l, sent := x } = v b

section Queue
variable {v : GlkBlock → α} (free : QueueFree v) {e : Nat}
include free

theorem wantMap_keeps_glk : v (wantMap e s).glk = v s.glk := by
  obtain ⟨nbs, sent, asks⟩ := wantMap_eq (s := s) e
  rw [asks]
  exact free s.glk s.glk.rings nbs sent

theorem pump_keeps_glk : v (pump .glk s).glk = v s.glk := by
  refine pump_keeps (g := fun u => v u.glk) (fun u sts => free u.glk _ u.glk.nbs u.glk.sent) fun u => ?_
  unfold queueHead
  dsimp only
  split
  · rfl
  · exact wantMap_keeps_glk free

/-- A data unit that is abandoned leaves the ring, and nothing else of the membership changes. -/
theorem abandonMsdu_keeps_glk (msdu : ∀ b m, v { b with msdu := m } = v b) : v (abandonMsdu s).glk = v s.glk :=
  (pump_keeps_glk free).trans (msdu s.glk none)

end Queue

theorem endMsdu_ends {sts : Nat} : (endMsdu sts s).glk.msdu = none := by
  unfold endMsdu
  dsimp only
  split
  · exact pump_keeps_glk (v := GlkBlock.msdu) fun _ _ _ _ => rfl
  · rfl

/-! ## Membership (R246) -/

@[simp] theorem logAssoc_glk {a b : Assoc} {row : Nat} : (logAssoc a b row s).glk = s.glk := logEv_glk

theorem glkView_enter {tei mac : Nat} {cco : Bool} : glkView (enter tei mac cco s).glk = glkView s.glk :=
  glkView_hear (mac := some mac)

theorem takeCrossing_keeps_glk {v : GlkBlock → α} (free : ∀ b o l, v { b with offsets := o, nbs := l } = v b) {c : Option Nat} :
    v (takeCrossing c s).glk = v s.glk := by
  unfold takeCrossing
  split
  · split
    · exact free s.glk _ s.glk.nbs
    · exact free s.glk _ _
  · exact free s.glk _ _

/-- A beacon of the own network before the modem acts on it (R247, R248, R250): its stations are entered, its period stands, the
new tone maps are in force, and its crossing is taken. -/
def beaconTaken (b : Beacon) (s : State) : State :=
  takeCrossing b.crossing (applyMaps (onGlk (fun x => { x with sync := true, period := b.period })
    (b.discover.foldl (fun s d => enter d.1 d.2 false s) (hear b.tei (some b.mac) true s))))

theorem beaconTaken_assoc {b : Beacon} : (beaconTaken b s).glk.assoc = s.glk.assoc := by
  have entered : glkView (b.discover.foldl (fun s d => enter d.1 d.2 false s) (hear b.tei (some b.mac) true s)).glk
      = glkView s.glk := (foldl_keeps (g := fun u => glkView u.glk) fun _ _ => glkView_enter).trans glkView_hear
  exact (takeCrossing_keeps_glk (v := GlkBlock.assoc) fun _ _ _ => rfl).trans (congrArg (·.2.1) entered)

theorem beaconTaken_sync {b : Beacon} : (beaconTaken b s).glk.sync = true :=
  takeCrossing_keeps_glk (v := GlkBlock.sync) fun _ _ _ => rfl

theorem beaconTaken_period {b : Beacon} : (beaconTaken b s).glk.period = b.period :=
  takeCrossing_keeps_glk (v := GlkBlock.period) fun _ _ _ => rfl

theorem glkBeacon_asks_to_associate {b : Beacon} (on : glkOn s = true) (nmk : hasNmk s = true) (own : b.nid = ownNid s)
    (search : s.glk.assoc = .search) :
    Answers (.glkBeacon b) s fun t => t.glk.assoc = .assoc ∧ t.glk.ccoTei = b.tei ∧ t.glk.sync = true ∧ t.glk.period = b.period
      ∧ t.glk.requests = 1 := by
  have passes : ¬ (glkOn s = false ∨ hasNmk s = false ∨ b.nid ≠ ownNid s ∨ s.glk.assoc = .off ∨ s.glk.assoc = .noNmk) := by
    simp [on, nmk, own, search]
  refine ⟨requestAssoc (onGlk (fun x => { x with assoc := .assoc, ccoTei := b.tei, requests := 0 }) (beaconTaken b s)),
    congrArg Host.Outcome.next ((if_neg passes).trans ?_), rfl, rfl, beaconTaken_sync, beaconTaken_period, rfl⟩
  have searches : (beaconTaken b s).glk.assoc = .search := beaconTaken_assoc.trans search
  unfold beaconTaken at searches ⊢
  dsimp only
  rw [searches]

theorem ccAssocCnf_authenticates {tei : Nat} (asked : s.glk.assoc = .assoc) (ready : s.glk.backingOff = false) :
    Answers (.ccAssocCnf true tei) s fun t => t.glk.assoc = .auth ∧ t.glk.tei = tei
      ∧ t.glk.leaseEnd = some (s.ticks + msTicks 900000) := by
  refine ⟨requestNek (onGlk (fun b => { b with
    assoc := .auth, tei := tei, requests := 0, leaseEnd := some (s.ticks + leaseTicks) }) s), ?_, rfl, rfl, rfl⟩
  show execCcAssocCnf true tei s = _
  simp [execCcAssocCnf, asked, ready]

theorem ccAssocCnf_backs_off {tei : Nat} (asked : s.glk.assoc = .assoc) (ready : s.glk.backingOff = false) :
    Answers (.ccAssocCnf false tei) s fun t => t.glk = { s.glk with backingOff := true } := by
  refine ⟨onGlk (fun b => { b with backingOff := true }) s, ?_, rfl⟩
  show execCcAssocCnf false tei s = _
  simp [execCcAssocCnf, asked, ready]

theorem takeNek_nek {nek : Bytes} : (takeNek nek s).glk.nek = some nek := by
  unfold takeNek
  split
  next same => exact same
  · rfl

theorem nekReceived_makes_member {nek : Bytes} (auth : s.glk.assoc = .auth) (ready : s.glk.backingOff = false) :
    Answers (.nekReceived nek) s fun t => t.glk.assoc = .member ∧ t.glk.nek = some nek ∧ t.glk.backoff = 1 := by
  refine ⟨logAssoc .auth .member 6 (onGlk (fun b => { b with assoc := .member, backoff := 1, requests := 0 }) (takeNek nek s)),
    ?_, ?_⟩
  · show execNekReceived nek s = _
    simp [execNekReceived, auth, ready]
  · exact ⟨congrArg GlkBlock.assoc logAssoc_glk, (congrArg GlkBlock.nek logAssoc_glk).trans takeNek_nek,
      congrArg GlkBlock.backoff logAssoc_glk⟩

theorem glkAssocTimeout_repeats (asked : s.glk.assoc = .assoc) (ready : s.glk.backingOff = false) :
    Answers .glkAssocTimeout s fun t =>
      if s.glk.requests < 3 then t.glk.requests = s.glk.requests + 1 else t.glk.backingOff = true := by
  refine ⟨if s.glk.requests < 3 then requestAssoc s else onGlk (fun b => { b with backingOff := true }) s, ?_, ?_⟩
  · show execGlkAssocTimeout s = _
    simp [execGlkAssocTimeout, asked, ready]
  · split
    · rfl
    · rfl

theorem glkBackoffExpiry_searches (waits : s.glk.backingOff = true) :
    Answers .glkBackoffExpiry s fun t => t.glk.assoc = .search ∧ t.glk.backingOff = false
      ∧ t.glk.backoff = min 64 (2 * s.glk.backoff) := by
  refine ⟨_, congrArg Host.Outcome.next (if_pos waits), rfl, rfl, ?_⟩
  show min 64 (2 * (logAssoc _ _ _ s).glk.backoff) = _
  rw [logAssoc_glk]

theorem glkBeaconLoss_loses (member : s.glk.assoc = .member) :
    Answers .glkBeaconLoss s fun t => t.glk.assoc = .search ∧ t.glk.nek = none ∧ t.glk.lostCnt = satInc 8 s.glk.lostCnt := by
  refine ⟨_, congrArg Host.Outcome.next (if_pos member), ?_, ?_, ?_⟩
  · exact abandonMsdu_keeps_glk (v := GlkBlock.assoc) (fun _ _ _ _ => rfl) fun _ _ => rfl
  · exact abandonMsdu_keeps_glk (v := GlkBlock.nek) (fun _ _ _ _ => rfl) fun _ _ => rfl
  · exact (abandonMsdu_keeps_glk (v := GlkBlock.lostCnt) (fun _ _ _ _ => rfl) fun _ _ => rfl).trans
      (congrArg GlkBlock.lostCnt logAssoc_glk)

theorem glkLeaseRenew_asks (member : s.glk.assoc = .member) :
    Answers .glkLeaseRenew s fun t => t.glk.sent.head? = some (s.glk.ccoTei, [1]) :=
  ⟨_, congrArg Host.Outcome.next (if_pos member), rfl⟩

/-! ## Configuration (R256) -/

/-- The fields of GLK_CFG that are not checked against the lanes. -/
def glkCfg (b : GlkBlock) : Bool × Nat × Nat × Nat := (b.en, b.nmkSlot, b.lifetime, b.backhaul)

theorem glkCfg_abandonMsdu : glkCfg (abandonMsdu s).glk = glkCfg s.glk :=
  abandonMsdu_keeps_glk (fun _ _ _ _ => rfl) fun _ _ => rfl

theorem askKey_glk {n ktype op requester : Nat} : (askKey n ktype op requester s).glk = s.glk :=
  part_of_law .glk (same_askKey n ktype op requester) rfl

/-- A membership that is given up or begun anew leaves the configuration. -/
theorem glkCfg_glkGate : glkCfg (glkGate s).glk = glkCfg s.glk := by
  unfold glkGate
  split
  · rfl
  · split
    · split
      · rfl
      · exact glkCfg_abandonMsdu
    · extract_lets asked
      have asks : glkCfg asked.glk = glkCfg s.glk := congrArg glkCfg askKey_glk
      split
      · split
        · exact asks
        · exact glkCfg_abandonMsdu.trans asks
      · split
        · exact asks
        · exact asks

theorem logBackhaul_glk {old cause : Nat} : (logBackhaul old cause s).glk = s.glk :=
  part_of_law .glk (same_logBackhaul old cause) rfl

theorem logBackhaul_eth {old cause : Nat} : (logBackhaul old cause s).eth = s.eth :=
  part_of_law .eth (same_logBackhaul old cause) rfl

theorem glkCfg_glkCfgWrite {w : Nat} (there : blockBit s 4 = true) :
    glkCfg (glkCfgWrite w s).glk = (bitAt w 0, field w 12 8,
      if inRange 100 4000 (field w 31 20) then field w 31 20 else s.glk.lifetime,
      if field w 5 4 = 3 then s.glk.backhaul else field w 5 4) := by
  unfold glkCfgWrite
  rw [if_neg (by simp [there])]
  extract_lets old life zc zcOk bh moved written served
  have takes : glkCfg served.glk = (bitAt w 0, field w 12 8,
      if inRange 100 4000 life then life else s.glk.lifetime, if bh = 3 then s.glk.backhaul else bh) := by
    simp only [served, written, glkCfg, onEth_glk, onGlk_glk, inRange, Bool.and_eq_true, decide_eq_true_eq]
  rw [logBackhaul_glk, glkCfg_glkGate]
  split
  · exact takes
  · exact takes

theorem glkCfgWrite_takes {w : Word} (there : blockBit s 4 = true) :
    Answers (.glkCfgWrite w) s fun t => t.glk.en = bitAt w.toNat 0 ∧ t.glk.nmkSlot = field w.toNat 12 8
      ∧ t.glk.lifetime = (if inRange 100 4000 (field w.toNat 31 20) then field w.toNat 31 20 else s.glk.lifetime)
      ∧ t.glk.backhaul = if field w.toNat 5 4 = 3 then s.glk.backhaul else field w.toNat 5 4 := by
  have takes := glkCfg_glkCfgWrite (w := w.toNat) there
  simp only [glkCfg, Prod.mk.injEq] at takes
  exact ⟨_, rfl, takes⟩

/-! ## Neighbours (R247) -/

theorem nbOf_tei {e : Nat} {n : Neighbour} (entry : nbOf s e = some n) : n.tei = e :=
  beq_iff_eq.mp (List.find?_some (p := fun x : Neighbour => x.tei == e) entry)

/-- An update of one entry is seen in that entry alone. -/
theorem nbOf_onNb {e v : Nat} {f : Neighbour → Neighbour} (tei : ∀ n, (f n).tei = n.tei) :
    nbOf (onNb v f s) e = (nbOf s e).map fun n => if n.tei = v then f n else n := by
  have sees : ((fun n : Neighbour => n.tei == e) ∘ fun n => if n.tei = v then f n else n) = fun n => n.tei == e := by
    funext n
    simp only [Function.comp_apply]
    split
    · rw [tei]
    · rfl
  show (s.glk.nbs.map _).find? _ = _
  rw [List.find?_map, sees]
  rfl

theorem nbOf_onNb_self {e : Nat} {n : Neighbour} {f : Neighbour → Neighbour} (entry : nbOf s e = some n)
    (tei : ∀ n, (f n).tei = n.tei) : nbOf (onNb e f s) e = some (f n) := by
  rw [nbOf_onNb tei, entry, Option.map_some, if_pos (nbOf_tei entry)]

theorem nbOf_onNb_other {e v : Nat} {f : Neighbour → Neighbour} (other : v ≠ e) (tei : ∀ n, (f n).tei = n.tei) :
    nbOf (onNb v f s) e = nbOf s e := by
  rw [nbOf_onNb tei]
  cases entry : nbOf s e with
  | none => rfl
  | some n => rw [Option.map_some, if_neg fun same => other (same.symm.trans (nbOf_tei entry))]

theorem nbOf_congr {e : Nat} (glk : t.glk = s.glk) : nbOf t e = nbOf s e := congrArg (fun b => b.nbs.find? (·.tei == e)) glk

theorem neighbourExpiry_drops (n : Nat) : exec (.neighbourExpiry n) s = .next { s with glk := { s.glk with
    nbs := s.glk.nbs.filter (·.tei != n), rxMaps := s.glk.rxMaps.filter (·.tei != n) } } := rfl

theorem wakeInhibitEnd_ends : exec .wakeInhibitEnd s = .next { s with glk := { s.glk with wakeInhibit := false } } := rfl

/-! ## Tone maps (R248) -/

theorem leastUsed_mem {l : List Neighbour} {v : Neighbour} (least : leastUsed l = some v) : v ∈ l := by
  refine List.mem_of_mem_filter (p := (·.tm == .active)) ?_
  refine List.foldlRecOn (motive := fun best => ∀ v, best = some v → v ∈ l.filter (·.tm == .active)) _ _
    (fun v none => absurd none (Option.some_ne_none v).symm) (fun best among n mem v next => ?_) v least
  cases best with
  | none => exact Option.some.inj next ▸ mem
  | some b =>
    dsimp only at next
    split at next
    · exact Option.some.inj next ▸ mem
    · exact among v next

/-- The slot that is freed is another neighbour's. -/
theorem nbOf_freeMapSlot {e : Nat} : nbOf (freeMapSlot e s) e = nbOf s e := by
  unfold freeMapSlot
  extract_lets others
  split
  · rfl
  · split
    next v least =>
      have other := List.of_mem_filter (leastUsed_mem least)
      exact nbOf_onNb_other (bne_iff_ne.mp other) fun _ => rfl
    · rfl

theorem nbOf_requestMap {e : Nat} {n : Neighbour} (entry : nbOf s e = some n) :
    nbOf (requestMap e s) e = some { n with requests := n.requests + 1 } :=
  nbOf_onNb_self (f := fun n => { n with requests := n.requests + 1 }) entry fun _ => rfl

theorem toneMapReceived_activates {e : Nat} {x : ToneMap} {n : Neighbour} (entry : nbOf s e = some n) (asked : n.tm = .estimating) :
    Answers (.toneMapReceived e x) s fun t => ∃ m, nbOf t e = some m ∧ m.tm = .active
      ∧ m.newMap = some { rate := min x.rate 1744, maps := x.maps.take 6 } ∧ m.reest = false := by
  refine ⟨onNb e (fun n => { n with
      tm := .active, newMap := some { rate := min x.rate 1744, maps := x.maps.take 6 }, requests := 0, reest := false,
      madeTick := s.ticks, useTick := s.ticks }) (freeMapSlot e s), ?_,
    _, nbOf_onNb_self (nbOf_freeMapSlot.trans entry) fun _ => rfl, rfl, rfl, rfl⟩
  show execToneMapReceived e x s = _
  simp [execToneMapReceived, entry, asked]

theorem toneMapTimeout_repeats {e : Nat} {n : Neighbour} (entry : nbOf s e = some n) (asked : n.tm = .estimating) :
    Answers (.toneMapTimeout e .request) s fun t => ∃ m, nbOf t e = some m
      ∧ if n.requests < 3 then m.requests = n.requests + 1 else m.tm = .robo ∧ m.rate = 0 := by
  have runs : exec (.toneMapTimeout e .request) s =
      .next (if n.requests < 3 then requestMap e s else onNb e (toRobo (some s.ticks)) s) := by
    show execToneMapTimeout e .request s = _
    simp [execToneMapTimeout, entry, asked]
  refine ⟨_, runs, ?_⟩
  split
  · exact ⟨_, nbOf_requestMap entry, rfl⟩
  · exact ⟨_, nbOf_onNb_self entry fun _ => rfl, rfl, rfl⟩

theorem toneMapReestimate_asks {e : Nat} {n : Neighbour} (entry : nbOf s e = some n) (active : n.tm = .active)
    (rests : n.reest = false) :
    Answers (.toneMapReestimate e) s fun t => ∃ m, nbOf t e = some m ∧ m.reest = true ∧ m.requests = 1 := by
  have asks : reestimate e s = requestMap e (onNb e (fun n => { n with reest := true, requests := 0 }) s) := by
    simp [reestimate, entry, active, rests]
  exact ⟨_, congrArg Host.Outcome.next asks, _, nbOf_requestMap (nbOf_onNb_self entry fun _ => rfl), rfl, rfl⟩

/-! ## Selective resending (R249) -/

/-- The blocks are counted for the neighbour, which may fall to ROBO, and marked in the data unit. -/
def sackTaken (k : Sack) (m : Msdu) (s : State) : State :=
  onGlk (fun b => { b with msdu := some { m with pbs := markPbs m.pbs k.ok } })
    (fallRobo k (onNb k.tei (countPbs s.glk.beacons k
      (((m.pbs.filter fun x => !x.2).map fun x => decide (1 < x.1)).take k.ok.length)) s))

theorem exec_sackReceived {k : Sack} {m : Msdu} (flight : s.glk.msdu = some m) (same : m.tei = k.tei) :
    exec (.sackReceived k) s = .next (if (markPbs m.pbs k.ok).all (·.2) then endMsdu stsOk (sackTaken k m s)
      else if (markPbs m.pbs k.ok).any (fun x => !x.2 && decide (8 ≤ x.1)) then endMsdu stsTimeout (sackTaken k m s)
      else sackTaken k m s) := by
  show execSackReceived k s = _
  simp only [execSackReceived, flight]
  rw [if_neg fun other => other.1 same]
  rfl

/-- No block is left that has been sent eight times without success. -/
theorem not_any_sent_out {pbs : List (Nat × Bool)} (left : pbs.all (fun x => x.2 || decide (x.1 < 8)) = true) :
    pbs.any (fun x => !x.2 && decide (8 ≤ x.1)) = false := by
  rw [List.any_eq_false]
  intro x mem
  have fine := List.all_eq_true.mp left x mem
  simp only [Bool.or_eq_true, decide_eq_true_eq] at fine
  simp only [Bool.and_eq_true, Bool.not_eq_true', decide_eq_true_eq, not_and, Nat.not_le]
  exact fun missing => fine.resolve_left (by simp [missing])

theorem sackReceived_marks {k : Sack} {m : Msdu} (flight : s.glk.msdu = some m) (same : m.tei = k.tei) :
    Answers (.sackReceived k) s fun t =>
      ((markPbs m.pbs k.ok).all (·.2) = true → t.glk.msdu = none)
        ∧ ((markPbs m.pbs k.ok).all (fun x => x.2 || decide (x.1 < 8)) = true → (markPbs m.pbs k.ok).all (·.2) = false →
            t.glk.msdu = some { m with pbs := markPbs m.pbs k.ok }) := by
  refine ⟨_, exec_sackReceived flight same, fun whole => ?_, fun left part => ?_⟩
  · rw [if_pos whole]
    exact endMsdu_ends
  · rw [if_neg (by simp [part]), if_neg (by simp [not_any_sent_out left])]
    rfl

theorem msduLifetimeExpiry_ends (flight : s.glk.msdu.isSome = true) :
    Answers .msduLifetimeExpiry s fun t => t.glk.msdu = none := ⟨_, if_pos flight, endMsdu_ends⟩

/-! ## Reassembly (R249) -/

/-- The data units being put together, and the messages sent. -/
def assembly (b : GlkBlock) : List Reasm × List (Nat × Bytes) := (b.reasm, b.sent)

section Reassembly
variable {f : RxFrame} {r : Reasm} {tei prio : Nat}

theorem assembly_rxDiscard {row : Nat} : assembly (rxDiscard .glk row s).glk = assembly s.glk := by
  unfold rxDiscard
  extract_lets pick counted n recent noted
  split
  · rfl
  · show assembly (logEv _ _ _ _ _ noted).glk = _
    rw [logEv_glk]
    rfl

theorem assembly_deliver : assembly (deliver .glk f s).glk = assembly s.glk := by
  unfold deliver
  dsimp only [onRings, onGlk, sramPut, assembly]

theorem assembly_receiveRing {bad : Bool} : assembly (receiveRing .glk f bad s).glk = assembly s.glk := by
  unfold receiveRing
  dsimp only
  split
  · exact assembly_rxDiscard
  · split
    · exact assembly_rxDiscard
    · split
      · exact assembly_rxDiscard
      · exact assembly_deliver

theorem assembly_glkDeliver : assembly (glkDeliver f s).glk = assembly s.glk := by
  unfold glkDeliver
  dsimp only
  split
  · exact congrArg assembly (part_of_law .glk (same_efdomReceive 4 (etherPayload f.bytes)) rfl)
  · split
    · rfl
    · split
      · rfl
      · exact assembly_receiveRing

theorem assembly_deliverMsdu : assembly (deliverMsdu s r).glk = assembly s.glk := assembly_glkDeliver

theorem assembly_releaseMsdus :
    assembly (releaseMsdus tei prio s).glk = ((inOrder tei prio s.glk.reasm).2, s.glk.sent) :=
  foldl_keeps (g := fun u => assembly u.glk) fun _ _ => assembly_deliverMsdu

theorem reasm_releaseMsdus : (releaseMsdus tei prio s).glk.reasm = (inOrder tei prio s.glk.reasm).2 :=
  congrArg Prod.fst assembly_releaseMsdus

theorem sent_releaseMsdus : (releaseMsdus tei prio s).glk.sent = s.glk.sent := congrArg Prod.snd assembly_releaseMsdus

theorem inOrder_sublist {l : List Reasm} : (inOrder tei prio l).2.Sublist l := by
  induction l with
  | nil => exact .slnil
  | cons r rest ih =>
    unfold inOrder
    split
    · split
      · exact ih.cons r
      · exact .refl _
    · exact ih.cons_cons r

theorem reassemblyTimeout_of_none (none : s.glk.reasm.find? (·.frame.src == tei) = none) :
    exec (.reassemblyTimeout tei) s = .next s := by
  show execReassemblyTimeout tei s = _
  simp only [execReassemblyTimeout, none]

theorem reassemblyTimeout_drops (oldest : s.glk.reasm.find? (·.frame.src == tei) = some r) :
    Answers (.reassemblyTimeout tei) s fun t => ∀ x, x ∈ t.glk.reasm → x ∈ s.glk.reasm.erase r := by
  refine ⟨releaseMsdus tei r.prio (onGlk (fun b => { b with reasm := b.reasm.erase r }) s), ?_, fun x mem => ?_⟩
  · show execReassemblyTimeout tei s = _
    simp only [execReassemblyTimeout, oldest]
  · rw [reasm_releaseMsdus] at mem
    exact inOrder_sublist.subset mem

/-- What follows the acknowledgement of an MPDU sends no message. -/
theorem takeMpdu_acknowledges {m : RxMpdu} (single : m.group = false) :
    (takeMpdu f m s).glk.sent.head? = some (f.src, 4 :: m.pbs.map fun p => BitVec.ofNat 8 (flagAt p.ok 0)) := by
  have dups {β : Type} (l : List β) (u : State) : (l.foldl (fun s _ => countDup s) u).glk.sent = u.glk.sent :=
    foldl_keeps (g := fun u => u.glk.sent) fun _ _ => rfl
  unfold takeMpdu
  rw [single]
  extract_lets prio acked same old x r counted
  have acks : acked.glk.sent.head? = some (f.src, 4 :: m.pbs.map fun p => BitVec.ofNat 8 (flagAt p.ok 0)) := rfl
  have counts : counted.glk.sent = acked.glk.sent := dups (List.range x.2) acked
  clear_value acked counted
  split
  · rw [if_neg Bool.false_ne_true, dups, acks]
  · rw [sent_releaseMsdus, onGlk_glk, counts, acks]

theorem frameReceived_acknowledges {m : RxMpdu} (there : portThere s .glk = true) (watch : s.sys.mode ≠ .watch)
    (dormant : s.sys.mode ≠ .dormant) (member : s.glk.assoc = .member) (data : f.sound = false) (mpdu : f.mpdu = some m)
    (single : m.group = false) :
    Answers (.frameReceived .glk f) s fun t =>
      t.glk.sent.head? = some (f.src, 4 :: m.pbs.map fun p => BitVec.ofNat 8 (flagAt p.ok 0)) := by
  have heard : (useRxMap f.src (hear f.src (macOf f) false s)).glk.assoc = .member :=
    (congrArg (·.2.1) (glkView_hear (s := s))).trans member
  have received : glkReceive f s = takeMpdu f m (useRxMap f.src (hear f.src (macOf f) false s)) := by
    unfold glkReceive
    dsimp only
    rw [if_neg (by simp [member]), data, mpdu]
    exact if_pos heard
  refine ⟨glkReceive f s, congrArg Host.Outcome.next (if_neg (by simp [there, watch, dormant])), ?_⟩
  rw [received]
  exact takeMpdu_acknowledges single

end Reassembly

/-! ## Phases (R250, R251) -/

theorem glkZcIndSend_sends (member : s.glk.assoc = .member) :
    Answers .glkZcIndSend s fun t => ∃ b, t.glk.sent.head? = some (0xFF, b) ∧ b.length = 20 :=
  ⟨_, congrArg Host.Outcome.next (if_pos member), _, rfl, by simp [zeros]⟩

section Phase
variable {e a : Nat} {b : Bytes} {n : Neighbour}

/-- An entered station that is heard only moves in its own entry. -/
theorem hear_of_known {mac : Option Nat} {cco : Bool} (entry : nbOf s e = some n) :
    hear e mac cco s = onNb e (fun n => { n with heard := s.ticks, mac := mac.getD n.mac, cco := cco || n.cco }) s := by
  have known : s.glk.nbs.any (·.tei == e) = true :=
    List.any_eq_true.mpr ⟨n, List.mem_of_find?_eq_some entry, List.find?_some (p := fun x : Neighbour => x.tei == e) entry⟩
  unfold hear enter
  rw [if_pos known]

theorem nbOf_heard (entry : nbOf s e = some n) : nbOf (hear e (some a) false s) e = some { n with heard := s.ticks, mac := a } := by
  rw [hear_of_known entry]
  exact nbOf_onNb_self entry fun _ => rfl

theorem ownOffset_heard (entry : nbOf s e = some n) : ownOffset (hear e (some a) false s) = ownOffset s := by
  rw [hear_of_known entry]
  rfl

theorem period_heard (entry : nbOf s e = some n) : (hear e (some a) false s).glk.period = s.glk.period := by
  rw [hear_of_known entry]
  rfl

/-- A neighbour with the reports and the phase given. -/
def withPhase (l : List Nat) (ph : NbPhase) (n : Neighbour) : Neighbour := { n with reports := l, phase := ph }

/-- Twice the difference of a report from the own offset (R250). -/
def reportDiff (s : State) (own : Nat) (b : Bytes) : Nat :=
  ((2 * ((leAt 8 4 b : Nat) : Int) - 2 * (own : Int)) % (s.glk.period : Int)).toNat

/-- The reports of a neighbour after one more. -/
def reportsAfter (s : State) (own : Nat) (b : Bytes) (n : Neighbour) : List Nat :=
  (phaseClass (reportDiff s own b) s.glk.period :: n.reports).take 16

/-- EV_GLK_PHASE, when the decided phase is a new one. -/
def logPhase (e d2 : Nat) (old new : NbPhase) (s : State) : State :=
  if new = old then s else logEv .service 0x0E 0xFF 0x0E03 [(1, e), (1, old.code), (1, new.code), (4, d2 / 2)] s

theorem logPhase_glk {d2 : Nat} {old new : NbPhase} : (logPhase e d2 old new s).glk = s.glk := by
  unfold logPhase
  split
  · rfl
  · exact logEv_glk

section Reported
variable (on : glkOn s = true) (member : s.glk.assoc = .member) (sized : b.length = 20) (entry : nbOf s e = some n)
include on member sized entry

theorem exec_glkZcInd_without_offset (own : ownOffset s = none) :
    exec (.glkZcInd e { mac := a, payload := b }) s = .next (onNb e (withPhase [] .unknown) (hear e (some a) false s)) := by
  refine congrArg Host.Outcome.next ((if_neg (by simp [on, member])).trans ((if_neg (by simp [sized])).trans ?_))
  dsimp only
  rw [nbOf_heard entry, ownOffset_heard entry, own]
  rfl

theorem exec_glkZcInd_with_offset {own : Nat} (own' : ownOffset s = some own) :
    exec (.glkZcInd e { mac := a, payload := b }) s =
      .next (if bitAt (byteAt 16 b) 0 = false ∨ s.glk.period = 0 then
          bump (onNb e (withPhase [] .unknown) (hear e (some a) false s))
        else logPhase e (reportDiff s own b) n.phase (decidePhase n.phase (reportsAfter s own b n))
          (bump (onNb e (withPhase (reportsAfter s own b n) (decidePhase n.phase (reportsAfter s own b n)))
            (hear e (some a) false s)))) := by
  refine congrArg Host.Outcome.next ((if_neg (by simp [on, member])).trans ((if_neg (by simp [sized])).trans ?_))
  dsimp only
  rw [nbOf_heard entry, ownOffset_heard entry, own', period_heard entry]
  rfl

/-- The entry of the sender, heard now, forgets its phase, or takes the report and decides anew. -/
theorem glkZcInd_decides :
    Answers (.glkZcInd e { mac := a, payload := b }) s fun t => ∃ m, nbOf t e = some m ∧ m.heard = s.ticks
      ∧ (bitAt (byteAt 16 b) 0 = false → m.phase = .unknown ∧ m.reports = [])
      ∧ (bitAt (byteAt 16 b) 0 = true → s.glk.period ≠ 0 → (ownOffset s).isSome = true →
          m.phase = decidePhase n.phase m.reports ∧ m.reports.length = min 16 (n.reports.length + 1)) := by
  have takes (l : List Nat) (ph : NbPhase) : nbOf (onNb e (withPhase l ph) (hear e (some a) false s)) e
      = some (withPhase l ph { n with heard := s.ticks, mac := a }) := nbOf_onNb_self (nbOf_heard entry) fun _ => rfl
  cases own : ownOffset s with
  | none =>
    exact ⟨_, exec_glkZcInd_without_offset on member sized entry own, _, takes _ _, rfl, fun _ => ⟨rfl, rfl⟩, fun _ _ => nofun⟩
  | some x =>
    refine ⟨_, exec_glkZcInd_with_offset on member sized entry own, ?_⟩
    split
    next invalid =>
      exact ⟨_, takes _ _, rfl, fun _ => ⟨rfl, rfl⟩, fun valid period => (invalid.elim (by simp [valid]) period).elim⟩
    next valid =>
      exact ⟨_, (nbOf_congr logPhase_glk).trans (takes _ _), rfl, fun invalid => absurd (.inl invalid) valid,
        fun _ _ _ => ⟨rfl, List.length_take⟩⟩

end Reported

end Phase

/-- Settles O30: each row of R246, R248 and R249 is one update of the modem's block or of one neighbour's entry, and what the
command does afterwards (serving the ring, delivering what is complete, logging) keeps what the row wrote. -/
theorem gridLinkCommandsEffect : Obligations.GridLinkCommandsEffect :=
  ⟨fun _ _ on nmk own search => glkBeacon_asks_to_associate on nmk own search,
    fun _ _ asked ready => ⟨ccAssocCnf_authenticates asked ready, ccAssocCnf_backs_off asked ready⟩,
    fun _ _ auth ready => nekReceived_makes_member auth ready,
    fun _ asked ready => glkAssocTimeout_repeats asked ready,
    fun _ waits => glkBackoffExpiry_searches waits,
    fun _ member => glkBeaconLoss_loses member,
    fun _ member => glkLeaseRenew_asks member,
    fun _ _ there => glkCfgWrite_takes there,
    fun _ n => ⟨neighbourExpiry_drops n, reassemblyTimeout_of_none, fun _ oldest => reassemblyTimeout_drops oldest,
      wakeInhibitEnd_ends⟩,
    fun _ _ _ _ entry asked => ⟨toneMapReceived_activates entry asked, toneMapTimeout_repeats entry asked⟩,
    fun _ _ _ entry active rests => toneMapReestimate_asks entry active rests,
    fun _ _ _ flight same => sackReceived_marks flight same,
    fun _ flight => msduLifetimeExpiry_ends flight,
    fun _ member => glkZcIndSend_sends member,
    fun _ _ _ _ _ on member sized entry => glkZcInd_decides on member sized entry,
    fun _ _ _ there watch dormant member data mpdu single =>
      frameReceived_acknowledges there watch dormant member data mpdu single⟩

/-! ## Ethernet and the backhaul (R254–R256) -/

/-- Serving the MAC's transmit ring keeps what of its block is not its rings. -/
theorem pump_keeps_eth {v : EthBlock → α} (free : ∀ b r, v { b with rings := r } = v b) : v (pump .eth s).eth = v s.eth :=
  pump_keeps (g := fun u => v u.eth) (fun u _ => free u.eth _) fun _ => rfl

theorem ethLinkPoll_takes {up fast full : Bool} (there : blockBit s 5 = true) (on : s.eth.en = true) (watch : s.sys.mode ≠ .watch)
    (dormant : s.sys.mode ≠ .dormant) :
    Answers (.ethLinkPoll up fast full) s fun t => t.eth.link = up ∧ t.eth.speed = fast ∧ t.eth.duplex = full := by
  refine ⟨_, congrArg Host.Outcome.next (if_neg (by simp [there, on, watch, dormant])), ?_⟩
  extract_lets changed polled
  have keeps {v : EthBlock → Bool} (free : ∀ b r, v { b with rings := r } = v b) :
      v (if changed then pump .eth polled else polled).eth = v polled.eth := by
    split
    · exact pump_keeps_eth free
    · rfl
  exact ⟨keeps (v := EthBlock.link) fun _ _ => rfl, keeps (v := EthBlock.speed) fun _ _ => rfl,
    keeps (v := EthBlock.duplex) fun _ _ => rfl⟩

theorem ethMdioGo_takes {w : Word} (there : blockBit s 5 = true) (idle : s.eth.go = false) :
    exec (.ethMdioGo w) s = .next (onEth (fun b => { b with
      go := bitAt w.toNat 31, wr := bitAt w.toNat 30, addr := field w.toNat 25 21, reg := field w.toNat 20 16,
      data := field w.toNat 15 0 }) s) :=
  congrArg Host.Outcome.next (if_neg (by simp [there, idle]))

theorem ethMdioDone_ends {x : Nat} (busy : s.eth.go = true) :
    Answers (.ethMdioDone x) s fun t => t.eth.go = false ∧ t.eth.data = if s.eth.wr then s.eth.data else x % 65536 :=
  ⟨_, congrArg Host.Outcome.next (if_pos busy), rfl, rfl⟩

theorem backhaulFailover_fails_over (auto : s.glk.backhaul = 2) (direct : s.eth.failover = false) (down : s.eth.link = false) :
    Answers .backhaulFailover s fun t => t.eth.failover = true :=
  ⟨_, congrArg Host.Outcome.next ((if_neg (by simp [auto])).trans (if_pos ⟨direct, down⟩)),
    congrArg EthBlock.failover logBackhaul_eth⟩

theorem backhaulFailover_returns (auto : s.glk.backhaul = 2) (onGrid : s.eth.failover = true) (up : s.eth.link = true) :
    Answers .backhaulFailover s fun t => t.eth.failover = false :=
  ⟨_, congrArg Host.Outcome.next ((if_neg (by simp [auto])).trans ((if_neg (by simp [onGrid])).trans (if_pos ⟨onGrid, up⟩))),
    congrArg EthBlock.failover logBackhaul_eth⟩

/-- Settles O31: each command is one update of the MAC's block, which neither serving its ring nor the event takes back. -/
theorem ethernetAndBackhaulCommandsEffect : Obligations.EthernetAndBackhaulCommandsEffect :=
  ⟨fun _ _ _ _ there on watch dormant => ethLinkPoll_takes there on watch dormant,
    fun _ _ there idle => ethMdioGo_takes there idle,
    fun _ _ busy => ethMdioDone_ends busy,
    fun _ auto => ⟨backhaulFailover_fails_over auto, backhaulFailover_returns auto⟩⟩

end Sys2Proof.Machine
end

section
/-! PROOFS. The statements of 09_time_base.md: one tick (R259–R261), the increments and their range (R260), the effect of each
command and read of the time base (R262–R273), and the frames of time base, supply and reset. -/

namespace Sys2Proof.Machine

variable {s t : State} {d : Nat} {α : Type}

/-! ## One tick (R259, R261, R263; log 4) -/

theorem slewPart_of_no_slew {x : Domain} (still : x.slew = 0) : slewPart x = 0 := by
  unfold slewPart
  dsimp only
  rw [still, if_neg (by omega), if_neg (by omega)]

theorem tickDomain_of_no_slew {x : Domain} (still : x.slew = 0) : tickDomain x = { x with t := x.t + x.inc } := by
  have advance : ((x.t : Int) + x.inc + 0).toNat = x.t + x.inc := by omega
  simp only [tickDomain, slewPart_of_no_slew still, advance, Int.sub_zero]

/-- A tick writes the tick count and the time base. -/
theorem tick_eq : ∃ b, tick s = { s with ticks := s.ticks + 1, tim := b } := by
  unfold tick
  dsimp only
  split
  · exact ⟨s.tim, rfl⟩
  · exact ⟨tickTim s.tim, rfl⟩

theorem tick_of_still (still : s.sys.mode = .dormant ∨ s.sys.reset.isSome = true) : tick s = { s with ticks := s.ticks + 1 } :=
  if_pos still

section Runs
variable (mode : s.sys.mode ≠ .dormant) (reset : s.sys.reset = none)
include mode reset

theorem tick_of_running : tick s = { s with ticks := s.ticks + 1, tim := tickTim s.tim } :=
  if_neg (by simp [mode, reset])

theorem domOf_tick (hd : d < s.tim.dom.length) : domOf (tick s) d = tickDomain (domOf s d) := by
  rw [tick_of_running mode reset]
  simp [domOf, tickTim, List.getD_eq_getElem?_getD, hd]

end Runs

theorem step_of_idle (idle : s.pending = []) : step s = .next (tick s) := by
  simp only [step, idle]

/-- Settles O2: an idle step is `tick`, which maps every domain by `tickDomain`. -/
theorem anIdleStepIsOneTick : Obligations.AnIdleStepIsOneTick := by
  unfold Obligations.AnIdleStepIsOneTick
  intro s idle
  have frame : OnlyIn [.tim, .ticks] s (tick s) :=
    onlyIn_next (o := .next (tick s)) (fun hw h => sameO_next (same_tick hw h)) rfl
  obtain ⟨b, eq⟩ := tick_eq (s := s)
  have pending : (tick s).pending = s.pending := by rw [eq]
  refine ⟨tick s, step_of_idle idle, by rw [eq], frame, pending.trans idle, by rw [eq],
    fun still => by rw [tick_of_still still], ?_⟩
  intro mode reset d hd still
  rw [domOf_tick mode reset hd, tickDomain_of_no_slew still]

/-! ## The domains and what writes them (R262–R265) -/

/-- The invariant counts two domains. -/
theorem dom_length (inv : s.Inv) : s.tim.dom.length = 2 := by
  obtain ⟨-, -, -, -, -, -, -, shape, -⟩ := inv
  simpa [TimBlock.shape] using shape

theorem lt_dom_length (inv : s.Inv) (hd : d < 2) : d < s.tim.dom.length := by rwa [dom_length inv]

/-- A domain of a state whose domains are those of `s` with one updated. -/
theorem domOf_of_upd {f : Domain → Domain} (dom : t.tim.dom = upd s.tim.dom d f) (hd : d < s.tim.dom.length) :
    domOf t d = f (domOf s d) := by
  rw [domOf, dom, upd_getD_self hd]
  rfl

theorem upd_upd {l : List α} {n : Nat} {f g : α → α} : upd (upd l n f) n g = upd l n (g ∘ f) :=
  List.modify_modify_eq f g n l

theorem setDomState_dom {st : DomState} :
    (setDomState d st s).tim.dom = upd s.tim.dom d fun x => { x with state := st } := by
  unfold setDomState
  dsimp only
  split
  · rfl
  · rw [logEv_tim]
    rfl

theorem stepNow_dom {new : Nat} {valid : Bool} : (stepNow new valid s).tim.dom = s.tim.dom := by
  unfold stepNow alarmAfterStep
  dsimp only
  split
  · rfl
  · rfl

/-- A domain after a step by `x` from the time of `old` (R265). -/
def steppedBy (x : Int) (old y : Domain) : Domain :=
  { y with t := ((old.t : Int) + x).toNat, slew := 0, steps := satInc 8 y.steps }

theorem stepDomain_dom {x : Int} : (stepDomain d x s).tim.dom = upd s.tim.dom d (steppedBy x (domOf s d)) := by
  unfold stepDomain
  dsimp only
  split
  · exact stepNow_dom
  · rfl

theorem correct_dom_of_step {x : Int} (steps : (domOf s d).state = .free ∨ stepLimit ≤ x.natAbs) :
    (correct d x s).tim.dom = upd s.tim.dom d fun y => { steppedBy x (domOf s d) y with state := .sync } := by
  unfold correct
  rw [if_pos steps, setDomState_dom, stepDomain_dom, upd_upd]
  rfl

theorem correct_dom_of_slew {x : Int} (disciplined : (domOf s d).state ≠ .free) (small : x.natAbs < stepLimit) :
    (correct d x s).tim.dom = upd s.tim.dom d fun y => { y with slew := x, state := .sync } := by
  unfold correct
  rw [if_neg (by simp [disciplined, small]), setDomState_dom]
  exact upd_upd

/-! ## Increments (R260) -/

theorem exec_timIncWrite_outside {w : Word} (outside : w.toNat < 2182348800 ∨ 2186717866 < w.toNat) :
    exec (.timIncWrite d w) s = .next s := congrArg Host.Outcome.next (if_neg (by omega))

/-- An increment in range is taken; the domain's state may leave HOLDOVER with it (R262). -/
theorem domOf_timIncWrite_inside {w : Nat} (low : 2182348800 ≤ w) (high : w ≤ 2186717866) (hd : d < s.tim.dom.length) :
    ∃ st, domOf (timIncWrite d w s) d = { domOf s d with inc := w, state := st } := by
  unfold timIncWrite
  rw [if_pos ⟨low, high⟩]
  extract_lets written
  have dom : (setDomState d .sync written).tim.dom = upd s.tim.dom d fun x => { x with inc := w, state := .sync } :=
    setDomState_dom.trans upd_upd
  split
  · exact ⟨.sync, domOf_of_upd dom hd⟩
  · exact ⟨(domOf s d).state, domOf_onDom_self hd⟩

theorem timIncWrite_takes {w : Word} (inv : s.Inv) (hd : d < 2) (low : 2182348800 ≤ w.toNat) (high : w.toNat ≤ 2186717866) :
    Answers (.timIncWrite d w) s fun t => (domOf t d).inc = w.toNat ∧ (domOf t d).t = (domOf s d).t ∧
      (s.sys.mode ≠ .dormant → s.sys.reset = none →
        (domOf (tick t) d).t = (((domOf s d).t : Int) + w.toNat + slewPart (domOf t d)).toNat) := by
  obtain ⟨st, dom⟩ := domOf_timIncWrite_inside low high (lt_dom_length inv hd)
  obtain ⟨-, -, kept⟩ := kept_timIncWrite d w.toNat (kept_start fun _ : True => inv)
  have view : resetView (timIncWrite d w.toNat s).sys = resetView s.sys :=
    same_resetView (same_timIncWrite d w.toNat (listed_self _) (same_refl _ s)) rfl
  have inc : (domOf (timIncWrite d w.toNat s) d).inc = w.toNat := by rw [dom]
  have time : (domOf (timIncWrite d w.toNat s) d).t = (domOf s d).t := by rw [dom]
  refine ⟨_, rfl, inc, time, fun mode reset => ?_⟩
  rw [domOf_tick ((congrArg (·.2.2.2) view).trans_ne mode) ((congrArg (·.1) view).trans reset) (lt_dom_length (kept trivial) hd)]
  show (((domOf (timIncWrite d w.toNat s) d).t : Int) + (domOf (timIncWrite d w.toNat s) d).inc + _).toNat = _
  rw [inc, time]

/-! ### After a reset -/

/-- A reset restores a domain with the nominal increment, valid or not. -/
theorem restoreDomain_inc {now : Nat} {x : Int} {valid : Bool} : (restoreDomain now x valid).inc = 0x82355555 := by
  cases valid with
  | true => rfl
  | false => rfl

theorem loadRtc_inc {rtc : Nat} {b : TimBlock} (hd : d < 2) : ((loadRtc rtc b).dom.getD d Domain.fresh).inc = 0x82355555 := by
  match d, hd with
  | 0, _ => exact restoreDomain_inc
  | 1, _ => exact restoreDomain_inc

/-- An operation whose law does not list the time base. -/
theorem tim_of_law {b : TimBlock} (w : List Part) (h : s.tim = b) (f : listed w w = true → Same w s s → Same w s t)
    (hw : w.contains .tim = false := by rfl) : t.tim = b :=
  (part_of_law .tim f hw).trans h

theorem tim_ite {b : TimBlock} {c : Prop} [Decidable c] (hs : s.tim = b) (ht : t.tim = b) : (if c then s else t).tim = b := by
  split
  · exact hs
  · exact ht

/-- Of the cores' start, the wipe alone writes the time base. -/
theorem bootCores_tim {h : ResetHold} {i : BootInput} :
    (bootCores h i s).tim = keepTim h.cold (bitAt h.causes causeVbatPor) i s.tim := by
  have closed : (damageStore i.damage (closeTransfer s)).tim = s.tim :=
    tim_of_law [.met, .bil] (tim_of_law [.str, .upd] rfl same_closeTransfer) (same_damageStore i.damage)
  generalize hb : keepTim h.cold (bitAt h.causes causeVbatPor) i s.tim = b
  unfold bootCores
  extract_lets was follows s1 s2 s3 s4 s5
  have h1 : s1.tim = b := (congrArg (keepTim h.cold (bitAt h.causes causeVbatPor) i) closed).trans hb
  clear_value s1
  have h2 : s2.tim = b := tim_ite (tim_of_law [.log] h1 (same_logOwlState .halt .start 8)) h1
  have h3 : s3.tim = b := tim_of_law [.owl, .tag, .key, .upd, .log, .freeCtr] h2 same_decideLc
  have h4 : s4.tim = b := tim_ite (tim_of_law (s := onKey _ s3) [.log] h3 same_logRng) h3
  have h5 : s5.tim = b := tim_of_law [.glk, .tag, .key, .log, .sram] (tim_of_law [.key] h4 same_deriveSlots) same_actLatched
  have resolved := tim_of_law [.str, .met, .tag, .upd, .log, .freeCtr]
    (tim_of_law [.vlk, .glk, .tag, .upd, .sys, .mgt, .log, .sram, .freeCtr] h5 (same_trialStart h.cold follows)) same_resolveRecord
  generalize resolveRecord (trialStart h.cold follows s5) = x at resolved ⊢
  obtain ⟨s6, adopted⟩ := x
  dsimp -zeta only at resolved ⊢
  extract_lets seals s7 s8 s9 s10
  have h7 : s7.tim = b := tim_of_law [.str, .lane, .met, .bil, .pwr, .flt, .owl, .vlk, .glk, .eth, .tag, .epd, .key, .log, .can,
    .sram, .freeCtr] resolved (same_bootStructure _)
  clear_value s7
  have h9 : s9.tim = b := tim_of_law (s := s8) [.met, .pwr, .owl, .vlk, .sys, .mgt, .log] h7 (same_owlLoad i.cfgDamage)
  have h10 : s10.tim = b := tim_of_law [.bil] (tim_ite (tim_of_law [.met, .bil] h9 same_metStart) h9) same_rebuildReplay
  exact tim_ite (tim_of_law [.met] h10 (same_capture 6 (outletMask s10) 0 (nowTs s10) [] none)) h10

theorem boot_restores_increments {b : BootInput} {h : ResetHold} (hd : d < 2) (hr : s.sys.reset = some h) (pin : h.pin = false)
    (held : s.sys.held = false) (up : s.sys.holdup = false) :
    Answers (.boot b) s fun t => (domOf t d).inc = 0x82355555 := by
  have tim : (bootServices s.sys h (unsavedSeconds h s) b (bootCores h b s)).tim
      = keepTim h.cold (bitAt h.causes causeVbatPor) b s.tim :=
    (part_of_law .tim (same_bootServices s.sys h (unsavedSeconds h s) b) rfl).trans bootCores_tim
  refine ⟨_, exec_boot_released hr pin held up, ?_⟩
  show ((bootServices s.sys h (unsavedSeconds h s) b (bootCores h b s)).tim.dom.getD d Domain.fresh).inc = _
  rw [tim]
  exact loadRtc_inc hd

/-- Settles O24: `timIncWrite` compares with the range and writes `inc` alone of what a tick reads, and a boot restores each
domain from `Domain.fresh`. -/
theorem tickIncrementsAreBounded : Obligations.TickIncrementsAreBounded := by
  unfold Obligations.TickIncrementsAreBounded
  refine ⟨by norm_num, by norm_num, by norm_num, ?write, ?boot⟩
  case write =>
    intro s d w inv hd
    exact ⟨timIncWrite_takes inv hd, exec_timIncWrite_outside⟩
  case boot =>
    intro s b h d _ hd hr pin held up
    exact boot_restores_increments hd hr pin held up

/-! ## Corrections of a domain (R264, R265, R272) -/

theorem timSet_takes {r : Req} {x : Nat} (inv : s.Inv) (hd : d < 2) (ns : x % 2 ^ 30 < 1000000000)
    (sec : secInRange (x / 2 ^ 30) = true) :
    Answers (.timSet r d x) s fun t => Posted t r stsOk [] ∧ (domOf t d).state = .sync
      ∧ ((domOf s d).state = .free → (domOf t d).t = nsOfTs x * 2 ^ 28 ∧ (domOf t d).slew = 0)
      ∧ ((domOf s d).state ≠ .free → (((nsOfTs x * 2 ^ 28 : Nat) : Int) - (domOf s d).t).natAbs < stepLimit →
          (domOf t d).t = (domOf s d).t ∧ (domOf t d).slew = ((nsOfTs x * 2 ^ 28 : Nat) : Int) - (domOf s d).t) := by
  refine ⟨_, exec_timSet_inside hd ns (of_decide_eq_true sec), posted_postSts, ?_⟩
  generalize hx : ((nsOfTs x * 2 ^ 28 : Nat) : Int) - (domOf s d).t = ofs
  rw [domOf_congr postSts_tim]
  have target : (((domOf s d).t : Int) + ofs).toNat = nsOfTs x * 2 ^ 28 := by omega
  have len := lt_dom_length inv hd
  refine ⟨?_, fun free => ?_, fun disciplined small => ?_⟩
  · by_cases steps : (domOf s d).state = .free ∨ stepLimit ≤ ofs.natAbs
    · rw [domOf_of_upd (correct_dom_of_step steps) len]
    · rw [not_or, Nat.not_le] at steps
      rw [domOf_of_upd (correct_dom_of_slew steps.1 steps.2) len]
  · rw [domOf_of_upd (correct_dom_of_step (.inl free)) len]
    exact ⟨target, rfl⟩
  · rw [domOf_of_upd (correct_dom_of_slew disciplined small) len]
    exact ⟨rfl, rfl⟩

theorem timOffset_takes {r : Req} {x : Int} (inv : s.Inv) (hd : d < 2) (disciplined : (domOf s d).state ≠ .free)
    (past : 0 ≤ (domOf s d).t + (x * 2 ^ 28 + (domOf s d).slew))
    (sec : secInRange (((domOf s d).t + (x * 2 ^ 28 + (domOf s d).slew)).toNat / 2 ^ 28 / 1000000000) = true)
    (small : (x * 2 ^ 28 + (domOf s d).slew).natAbs < stepLimit) :
    Answers (.timOffset r d x) s fun t => Posted t r stsOk [] ∧ (domOf t d).state = .sync
      ∧ (domOf t d).t = (domOf s d).t ∧ (domOf t d).slew = x * 2 ^ 28 + (domOf s d).slew := by
  refine ⟨_, congrArg Host.Outcome.next (guarded_ok ((firstFail_cons_false ?_).trans (firstFail_cons_false ?_))),
    posted_postSts, ?_⟩
  · simp only [decide_eq_false (show ¬ 1 < d by omega), decide_eq_false (Int.not_lt.mpr past), sec, Bool.or_false, Bool.not_true]
  · exact decide_eq_false disciplined
  · rw [domOf_congr postSts_tim, domOf_of_upd (correct_dom_of_slew disciplined small) (lt_dom_length inv hd)]
    exact ⟨rfl, rfl, rfl⟩

theorem timSelect_pends {r : Req} (hd : d < 2) (other : d ≠ s.tim.sel) (idle : s.tim.selPend = none) :
    Answers (.timSelect r d) s fun t => Posted t r stsPending [] ∧ t.tim = { s.tim with selPend := some (r, d) } := by
  refine ⟨_, congrArg Host.Outcome.next (guarded_ok ((firstFail_cons_false ?_).trans (firstFail_cons_false ?_))), rfl, rfl⟩
  · exact decide_eq_false (by omega)
  · simp [other, idle]

theorem domainHoldoverExpiry_holds_over (inv : s.Inv) (hd : d < 2) (sync : (domOf s d).state = .sync) :
    Answers (.domainHoldoverExpiry d) s fun t => domOf t d = { domOf s d with state := .holdover } :=
  ⟨_, congrArg Host.Outcome.next (if_pos sync), domOf_of_upd setDomState_dom (lt_dom_length inv hd)⟩

/-- The domain ends its slew; NOW, which may go with it, is no part of it (R263, R264). -/
theorem slewComplete_applies_rest (inv : s.Inv) (hd : d < 2) :
    Answers (.slewComplete d false) s fun t => (domOf t d).slew = 0
      ∧ (domOf t d).t = (((domOf s d).t : Int) + (domOf s d).slew).toNat := by
  have applied : ∃ t, exec (.slewComplete d false) s = .next t
      ∧ t.tim.dom = upd s.tim.dom d fun x => { x with t := ((x.t : Int) + (domOf s d).slew).toNat, slew := 0 } := by
    refine ⟨_, rfl, ?_⟩
    split
    · rfl
    · rfl
  obtain ⟨t, runs, dom⟩ := applied
  have ended := domOf_of_upd dom (lt_dom_length inv hd)
  exact ⟨t, runs, congrArg Domain.slew ended, congrArg Domain.t ended⟩

theorem slewComplete_reaches_domain (converging : s.tim.converging = true) :
    Answers (.slewComplete d true) s fun t => t.tim.converging = false ∧ t.tim.now = (domOf s s.tim.sel).t := by
  refine ⟨_, congrArg Host.Outcome.next (if_pos converging), rfl, ?_⟩
  show ((s.tim.now : Int) + ((domOf s s.tim.sel).t - s.tim.now)).toNat = _
  omega

/-! ## The alarm and the second boundary (R266, R271) -/

/-- An alarm that fires may wake the device, which leaves the time base. -/
theorem alarmFire_fires_once (armed : s.tim.alarmEn = true) :
    Answers .alarmFire s fun t => t.tim.alarm = true ∧ t.tim.alarmEn = false := by
  have tim : (wakeBy srcAlarm false (fireAlarm s)).tim = (fireAlarm s).tim := part_of_law .tim (same_wakeBy srcAlarm false) rfl
  exact ⟨_, congrArg Host.Outcome.next (if_pos armed), congrArg TimBlock.alarm tim, congrArg TimBlock.alarmEn tim⟩

/-- A device that is awake and enters no sleep has nothing to wake from. -/
theorem wakeBy_of_awake {k : Nat} (reset : s.sys.reset = none) (entry : s.sys.entry = none) (dormant : s.sys.mode ≠ .dormant)
    (watch : s.sys.mode ≠ .watch) : wakeBy k false s = s := by
  unfold wakeBy
  rw [entry]
  dsimp only
  rw [if_neg (by simp [reset])]
  split
  next mode => exact absurd mode watch
  next mode => exact absurd mode dormant
  next => rfl

theorem countdown_of_awake (reset : s.sys.reset = none) (dormant : s.sys.mode ≠ .dormant) (watch : s.sys.mode ≠ .watch) :
    countdown s = onUpd (fun b => { b with trial := b.trial.map fun x => { x with seconds := x.seconds - 1 } })
      (onKey (fun k => { k with grant := k.grant.map fun g => { g with seconds := g.seconds - 1 } }) s) :=
  (if_neg (by simp [reset, dormant])).trans (if_neg watch)

/-- The second boundary may log events, and writes nothing else of Dormouse. -/
theorem secondBoundary_keeps_sys {v : SysBlock → α} (free : ∀ b l x, v { b with retLog := l, retLost := x } = v b) :
    v (secondBoundary s).sys = v s.sys := by
  have sys : { (secondBoundary s).sys with retLog := [], retLost := false } = { s.sys with retLog := [], retLost := false } :=
    part_of_law .sys same_secondBoundary rfl
  exact (free _ [] false).symm.trans ((congrArg v sys).trans (free _ [] false))

/-- The offsets are taken from NOW as the rows of R266 leave it, and an alarm that fires changes neither. -/
theorem secondBoundary_takes_offsets (inv : s.Inv) (hd : d < 2) : (domOf (secondBoundary s) d).ofs
    = satSigned 32 (((domOf (secondBoundary s) d).t - (secondBoundary s).tim.now) / 2 ^ 28) := by
  obtain ⟨-, -, kept⟩ := kept_switchRows (kept_start fun _ : True => inv)
  have len := lt_dom_length (kept trivial) hd
  unfold secondBoundary
  extract_lets switched taken
  have dom : domOf taken d
      = { domOf switched d with ofs := satSigned 32 (((domOf switched d).t - switched.tim.now) / 2 ^ 28) } := by
    show (switched.tim.dom.map _).getD d Domain.fresh = _
    simp [domOf, List.getD_eq_getElem?_getD, switched, len]
  have offset : (domOf taken d).ofs = satSigned 32 (((domOf taken d).t - taken.tim.now) / 2 ^ 28) := by rw [dom]; rfl
  split
  · exact offset
  · exact offset

theorem secondBoundary_counts (inv : s.Inv) (reset : s.sys.reset = none) (entry : s.sys.entry = none)
    (dormant : s.sys.mode ≠ .dormant) (watch : s.sys.mode ≠ .watch) :
    Answers .secondBoundary s fun t =>
      t.key.grant = s.key.grant.map (fun g => { g with seconds := g.seconds - 1 })
        ∧ t.upd.trial = s.upd.trial.map (fun x => { x with seconds := x.seconds - 1 })
        ∧ ∀ d, d < 2 → (domOf t d).ofs = satSigned 32 (((domOf t d).t - t.tim.now) / 2 ^ 28) := by
  have mode' : (secondBoundary s).sys.mode = s.sys.mode := secondBoundary_keeps_sys fun _ _ _ => rfl
  have reset' : (secondBoundary s).sys.reset = s.sys.reset := secondBoundary_keeps_sys fun _ _ _ => rfl
  have entry' : (secondBoundary s).sys.entry = s.sys.entry := secondBoundary_keeps_sys fun _ _ _ => rfl
  rw [← mode'] at dormant watch
  rw [← reset'] at reset
  rw [← entry'] at entry
  have key : (secondBoundary s).key = s.key := part_of_law .key same_secondBoundary rfl
  have upd : (secondBoundary s).upd = s.upd := part_of_law .upd same_secondBoundary rfl
  have counted := countdown_of_awake reset dormant watch
  have awake : wakeBy srcAlarm false (countdown (secondBoundary s)) = countdown (secondBoundary s) := by
    rw [counted]
    exact wakeBy_of_awake reset entry dormant watch
  refine ⟨countdown (secondBoundary s), congrArg Host.Outcome.next ?_, ?_⟩
  · rw [awake, ite_self]
  · rw [counted, ← key, ← upd]
    exact ⟨rfl, rfl, fun _ hd => secondBoundary_takes_offsets inv hd⟩

/-- Settles O23: a correction is one update of its domain, which neither NOW's step, the event nor the posted result takes
back; the reads and register writes are their own updates of the block. -/
theorem timeBaseCommandsEffect : Obligations.TimeBaseCommandsEffect :=
  ⟨fun _ _ _ _ inv hd ns sec => timSet_takes inv hd ns sec,
    fun _ _ _ _ inv hd disciplined past sec small => timOffset_takes inv hd disciplined past sec small,
    fun _ _ _ hd other idle => timSelect_pends hd other idle,
    fun _ _ inv hd sync => domainHoldoverExpiry_holds_over inv hd sync,
    fun _ _ inv hd => slewComplete_applies_rest inv hd,
    fun _ _ converging => slewComplete_reaches_domain converging,
    fun _ _ => rfl,
    fun _ _ => rfl,
    fun _ => rfl,
    fun _ _ => ⟨_, rfl, rfl⟩,
    fun _ _ _ => ⟨_, rfl, rfl⟩,
    fun _ _ => ⟨_, rfl, rfl⟩,
    fun _ _ => rfl,
    fun _ _ armed => alarmFire_fires_once armed,
    fun _ inv reset entry dormant watch => secondBoundary_counts inv reset entry dormant watch⟩

/-! ## Frames of time base, supply and reset -/

/-- Settles O47: each command is its meaning, and the lemma of that meaning (Laws/FrameTime, Laws/FrameSupply, Laws/FrameBoot)
names the parts it writes. -/
theorem timeSupplyAndResetFrames : Obligations.TimeSupplyAndResetFrames := by
  unfold Obligations.TimeSupplyAndResetFrames
  intro s t
  exact ⟨fun x => onlyIn_next (same_execSupplyGood x),
    fun w => onlyIn_next (same_execSysRstreqWrite w),
    fun b => onlyIn_next (same_execBoot b),
    fun d => onlyIn_next (same_execDomainHoldoverExpiry d),
    fun d w => onlyIn_next (same_execTimIncWrite d w),
    fun d x => onlyIn_next (same_execSlewComplete d x),
    fun x => onlyIn_next (same_execRtcCalibration x),
    fun w => onlyIn_next (same_execTimAlarmHiWrite w),
    onlyIn_next same_execTimPtpfPop,
    fun r d x => onlyIn_next (same_execTimSet r d x),
    fun r d x => onlyIn_next (same_execTimOffset r d x),
    fun r d => onlyIn_next (same_execTimSelect r d),
    fun v => onlyIn_next (same_execTimNowLoRead v),
    fun v d => onlyIn_next (same_execTimDomTsLoRead v d),
    fun v => onlyIn_next (same_execTimBcnTsLoRead v),
    fun v => onlyIn_next (same_execTimStatusRead v),
    fun x mv l => onlyIn_next (same_execPowerFailWarning x mv l),
    fun n => onlyIn_next (same_execHoldupComplete n),
    fun x => onlyIn_next (same_execRstNAssert x),
    fun n => onlyIn_next (same_execBrownout n),
    onlyIn_next same_execRequestedReset,
    onlyIn_next same_execVbatPor⟩

end Sys2Proof.Machine
end

section
/-! PROOFS. The statements of 10_tags_authorisation.md: detection and the full poll (R276–R278, R287), the held tag (R288), the
authorisation cache (R282, R286), the commissioning tag (R290–R298), and the frames of reader, tag, display and LEDs. -/

namespace Sys2Proof.Machine

variable {s : State} {r : Req} {α : Type}

/-! ## What the tag's own writes and a wake leave of its block -/

/-- A view of the block that a write of the commissioning tag's array does not change. -/
def ArrayFree (v : TagBlock → α) : Prop := ∀ b l, v { b with ct := l } = v b

theorem ctPublishInfo_keeps_tag {v : TagBlock → α} (free : ArrayFree v) : v (ctPublishInfo s).tag = v s.tag :=
  foldl_keeps (g := fun u => v u.tag) fun u _ => free u.tag _

/-- A view of the block that no refresh of the commissioning tag changes (R292): it sees neither the array nor the tag's
state. -/
def RefreshFree (v : TagBlock → α) : Prop := ∀ b l x k, v { b with ct := l, ctState := x, ctSecured := k } = v b

theorem RefreshFree.array {v : TagBlock → α} (free : RefreshFree v) : ArrayFree v := fun b l => free b l b.ctState b.ctSecured

section Wake
variable {v : TagBlock → α} (free : RefreshFree v)
include free

theorem ctRefresh_keeps_tag : v (ctRefresh s).tag = v s.tag :=
  (ctPublishInfo_keeps_tag free.array).trans (free s.tag s.tag.ct _ _)

theorem slotsChanged_keeps_tag : v (slotsChanged s).tag = v s.tag := by
  have gate : (glkGate s).tag = s.tag := part_of_law .tag same_glkGate rfl
  exact (ctRefresh_keeps_tag free).trans (congrArg v gate)

theorem tamperAct_keeps_tag {d : Nat} : v (tamperAct d s).tag = v s.tag := by
  unfold tamperAct
  extract_lets counted logged
  have tag : logged.tag = s.tag := logEv_tag
  split
  · exact (slotsChanged_keeps_tag free).trans (congrArg v (logEv_tag.trans tag))
  · exact congrArg v tag

theorem actLatched_keeps_tag : v (actLatched s).tag = v s.tag := by
  refine foldl_keeps (g := fun u => v u.tag) fun u d => ?_
  split
  · exact tamperAct_keeps_tag free
  · rfl

theorem wakeFromWatch_keeps_tag {k : Nat} : v (wakeFromWatch k s).tag = v s.tag := by
  unfold wakeFromWatch
  extract_lets sourced resumed drained acted changed served active
  have loads : (loadSlots (deriveSlots drained)).tag = s.tag :=
    (same_loadSlots rfl (same_deriveSlots rfl (same_drainRetention rfl (same_setMode 6 .ready rfl
      (same_refl [.key, .sys, .mgt, .log] resumed))))).part (q := .tag) rfl
  have resumes : (glkAfterWatch acted).tag = acted.tag := part_of_law .tag same_glkAfterWatch rfl
  have serves : (evalMode (slacChecks active)).tag = changed.tag :=
    (same_evalMode rfl (same_slacChecks rfl (same_onCans rfl (same_flushProfile rfl (same_checkWake rfl (same_hsiWake rfl
      (same_refl [.bil, .vlk, .glk, .sys, .mgt, .log, .hsi, .can] changed))))))).part (q := .tag) rfl
  calc v (evalMode (slacChecks active)).tag = v changed.tag := congrArg v serves
    _ = v (glkAfterWatch acted).tag := slotsChanged_keeps_tag free
    _ = v acted.tag := congrArg v resumes
    _ = v (loadSlots (deriveSlots drained)).tag := actLatched_keeps_tag free
    _ = v s.tag := congrArg v loads

/-- A wake writes the tag only where it acts on a latched tamper detection, and then the tag's state alone (R340, R292). -/
theorem wakeBy_keeps_tag {k : Nat} {c : Bool} : v (wakeBy k c s).tag = v s.tag := by
  unfold wakeBy
  split
  next e _ =>
    have abandoned : (abandonSleep e k s).tag = s.tag := part_of_law .tag (same_abandonSleep e k) rfl
    split
    · exact congrArg v abandoned
    · rfl
  next =>
    split
    · rfl
    · split
      next =>
        split
        · rfl
        · exact wakeFromWatch_keeps_tag free
      next =>
        extract_lets sources
        split
        · rfl
        · split
          · rfl
          · rfl
      next => rfl

end Wake

/-! ## Detection (R277) -/

theorem reducedFieldMeasurement_measures {x : Nat} (on : readerOn s = true) (empty : s.tag.held = none)
    (reader : s.tag.reader ≠ .yielding) :
    exec (.reducedFieldMeasurement x) s = .next (onTag (fun b => { b with
      last := x % 65536, base := trackBase b.base (x % 65536), offBase := offCount b x }) s) :=
  congrArg Host.Outcome.next (if_pos ⟨on, empty, .inl reader⟩)

theorem fieldDetection_detects (on : readerOn s = true) (three : s.tag.offBase = 3) :
    Answers .fieldDetection s fun t => t.tag.detect = true ∧ t.tag.offBase = 0 := by
  have found : detected s = true := by simp [detected, on, three]
  exact ⟨_, congrArg Host.Outcome.next (if_pos found), wakeBy_keeps_tag (v := TagBlock.detect) fun _ _ _ _ => rfl,
    wakeBy_keeps_tag (v := TagBlock.offBase) fun _ _ _ _ => rfl⟩

/-! ## The full poll (R276, R278, R287) -/

/-- The wake that may follow a poll takes nothing back. -/
theorem fullPoll_answers {v : TagBlock → α} {p : PollInput} (free : RefreshFree v) :
    Answers (.fullPoll p) s fun t => v t.tag = v (fullPoll p s).tag := by
  refine ⟨_, rfl, ?_⟩
  split
  · rfl
  · exact wakeBy_keeps_tag free

theorem fullPoll_yields {p : PollInput} (polls : readerPolls s = true) (foreign : p.foreign = true) :
    Answers (.fullPoll p) s fun t => t.tag.extField = true := by
  have yields : (fullPoll p s).tag.extField = true := by
    unfold fullPoll
    rw [if_neg (by simp [polls]), if_pos foreign]
    rfl
  obtain ⟨t, runs, kept⟩ := fullPoll_answers (v := TagBlock.extField) (s := s) (p := p) fun _ _ _ _ => rfl
  exact ⟨t, runs, kept.trans yields⟩

/-! ### Anticollision with one tag in the field (R280) -/

theorem resolveBits_nil {fuel pos n : Nat} : resolveBits fuel pos [] n = ([], n) := by
  cases fuel with
  | zero => rfl
  | succ fuel => rfl

theorem resolveBits_single {fuel pos n : Nat} {x : List Bool × TagFound} : resolveBits fuel pos [x] n = ([x.2], n) := by
  cases fuel with
  | zero => rfl
  | succ fuel => rfl

/-- One slot of an ISO/IEC 15693 INVENTORY. -/
def slotRound (l : List TagFound) (acc : List TagFound × Nat) (k : Nat) : List TagFound × Nat :=
  let x := resolveBits 64 4 ((l.filter fun t => byteAt 0 t.uid % 16 == k).map fun t => (lsbBits t.uid, t)) acc.2
  (acc.1 ++ x.1, x.2)

theorem typeVTags_eq_rounds {l : List TagFound} {n : Nat} : typeVTags l n = (List.range 16).foldl (slotRound l) ([], n) := rfl

theorem typeVTags_nil {n : Nat} : typeVTags [] n = ([], n) := by
  have round (acc : List TagFound × Nat) (k : Nat) : slotRound [] acc k = acc := by
    simp [slotRound, resolveBits_nil]
  rw [typeVTags_eq_rounds]
  exact List.foldl_fixed' (round _) _

/-- A tag alone is completed in the slot of the low four bits of its UID, and no other slot adds anything. -/
theorem typeVTags_single {g : TagFound} {n : Nat} : typeVTags [g] n = ([g], n) := by
  have rounds : slotRound [g] = fun acc k => if k == byteAt 0 g.uid % 16 then (acc.1 ++ [g], acc.2) else acc := by
    funext acc k
    by_cases slot : k = byteAt 0 g.uid % 16
    · simp [slotRound, slot, resolveBits_single]
    · simp [slotRound, slot, Ne.symm slot, resolveBits_nil]
  have once : (List.range 16).count (byteAt 0 g.uid % 16) = 1 :=
    List.count_eq_one_of_mem List.nodup_range (List.mem_range.mpr (Nat.mod_lt _ (by decide)))
  rw [typeVTags_eq_rounds, rounds, ← List.foldl_filter, List.filter_beq, once]
  rfl

theorem techOn_cases {k : Nat} (on : techOn s k = true) : k = 1 ∨ k = 2 ∨ k = 3 := by
  simp only [techOn, Bool.or_eq_true, Bool.and_eq_true, beq_iff_eq] at on
  omega

theorem anticollide_single {g : TagFound} (on : techOn s g.tech = true) : anticollide s [g] = ([g], false) := by
  have filtered (k : Nat) : [g].filter (fun t => t.tech == k && techOn s k) = if g.tech = k then [g] else [] := by
    by_cases tech : g.tech = k
    · simp [tech, tech ▸ on]
    · simp [tech]
  unfold anticollide
  simp only [filtered]
  rcases techOn_cases on with tech | tech | tech
  · simp [tech, resolveBits_single, typeVTags_nil, typeBTags]
  · simp [tech, resolveBits_nil, typeVTags_nil, typeBTags]
  · simp [tech, resolveBits_nil, typeVTags_single, typeBTags]

/-! ### A new tag's report -/

theorem mendEntry_reports {k : Nat} : (mendEntry k s).tag.reports = s.tag.reports := by
  unfold mendEntry
  split
  · split
    · rfl
    · split
      · split
        · rfl
        · exact (congrArg TagBlock.reports logEv_tag).trans rfl
      · exact (congrArg TagBlock.reports logEv_tag).trans rfl
  · rfl

theorem pushReport_reports {b : Bytes} (room : s.tag.reports.length < 16) :
    (pushReport b s).tag.reports = s.tag.reports ++ [b] :=
  congrArg (fun u : State => u.tag.reports) (if_pos room)

theorem limpHit_reports {e : CacheEntry} : (limpHit e s).tag.reports = s.tag.reports := by
  unfold limpHit
  split
  · rfl
  · split
    next o _ =>
      have started (u : State) : (limpStart o u).tag = u.tag := part_of_law .tag (same_limpStart o) rfl
      exact congrArg TagBlock.reports (started _)
    · rfl

theorem serveTag_reports {g : TagFound} (new : stillThere s g = false) (room : s.tag.reports.length < 16) :
    (serveTag s g).tag.reports.length = s.tag.reports.length + 1 := by
  unfold serveTag
  rw [if_neg (by simp [new])]
  extract_lets met keep uid sig key mended result logged pushed kept
  have mends : mended.tag.reports = s.tag.reports := by
    simp only [mended]
    split
    · rfl
    · exact mendEntry_reports
  have logs : logged.tag.reports = s.tag.reports := by
    simp only [logged]
    split
    · exact (congrArg TagBlock.reports logEv_tag).trans mends
    · exact mends
  have pushes : pushed.tag.reports.length = s.tag.reports.length + 1 := by
    rw [pushReport_reports (logs ▸ room), logs, List.length_append, List.length_singleton]
  have keeps : kept.tag.reports = pushed.tag.reports := by
    simp only [kept]
    split
    · rfl
    · rfl
  rw [← pushes, ← keeps]
  clear_value result
  split
  · exact congrArg List.length limpHit_reports
  · rfl

theorem fullPoll_reports_new_tag {p : PollInput} {g : TagFound} (polls : readerPolls s = true) (foreign : p.foreign = false)
    (single : p.tags = [g]) (on : techOn s g.tech = true) (new : stillThere s g = false) (room : s.tag.reports.length < 16) :
    Answers (.fullPoll p) s fun t => t.tag.reports.length = s.tag.reports.length + 1 := by
  have reports : (fullPoll p s).tag.reports.length = s.tag.reports.length + 1 := by
    unfold fullPoll
    rw [if_neg (by simp [polls]), if_neg (by simp [foreign]), single]
    extract_lets reduced
    have completed : anticollide reduced [g] = ([g], false) := anticollide_single on
    rw [completed]
    have served : (serveTag reduced g).tag.reports.length = s.tag.reports.length + 1 := serveTag_reports new room
    dsimp -zeta only [List.foldl_cons, List.foldl_nil]
    generalize serveTag reduced g = reported at served ⊢
    extract_lets all counted
    split
    · exact served
    · exact served
  obtain ⟨t, runs, kept⟩ := fullPoll_answers (v := fun b => b.reports.length) (s := s) (p := p) fun _ _ _ _ => rfl
  exact ⟨t, runs, kept.trans reports⟩

/-! ## The held tag (R288) -/

theorem tagHoldExpiry_releases (held : s.tag.held.isSome = true) : exec .tagHoldExpiry s = .next (releaseTag s) :=
  congrArg Host.Outcome.next (if_pos held)

theorem tagRelease_releases (there : readerThere s = true) (held : s.tag.held.isSome = true) :
    Answers (.tagRelease r) s fun t => Posted t r stsOk [] ∧ t.tag.held = none :=
  ⟨_, congrArg Host.Outcome.next (guarded_ok (by simp [firstFail, there, Option.isSome_iff_ne_none.mp held])), posted_postSts,
    congrArg TagBlock.held postSts_tag⟩

/-- A frame with an error is counted (R288). -/
def countBad : State → State := onTag fun b => { b with rxErr := satInc 8 b.rxErr }
/-- A transmission that nothing answers is counted (R288). -/
def countSilence : State → State := onTag fun b => { b with timeouts := satInc 8 b.timeouts }

section Exchange
variable {n : Nat} {l : List XferTry}

theorem exchange_answer {b : Bytes} (short : b.length ≤ 256) (left : 0 < n) :
    exchange r n (.answer b :: l) s = post r stsOk 0 b s := by
  rw [exchange, if_pos ⟨short, left⟩]

theorem exchange_bad (left : 1 < n) : exchange r n (.bad :: l) s = exchange r (n - 1) l (countBad s) := by
  rw [exchange, if_neg (by omega), countBad]

theorem exchange_bad_last : exchange r 1 (.bad :: l) s = postSts r stsIntegrity (releaseTag (countBad s)) := by
  rw [exchange, if_pos le_rfl, countBad]

theorem exchange_silent (left : 1 < n) : exchange r n (.silent :: l) s = exchange r (n - 1) l (countSilence s) := by
  rw [exchange, if_neg (by omega), countSilence]

theorem exchange_silent_last : exchange r 1 (.silent :: l) s = postSts r stsTimeout (releaseTag (countSilence s)) := by
  rw [exchange, if_pos le_rfl, countSilence]

end Exchange

section Xfer
variable {a b : Bytes} {l : List XferTry} (there : readerThere s = true) (low : 1 ≤ a.length) (high : a.length ≤ 256)
  (held : s.tag.held.isSome = true)
include there low high held

theorem exec_tagXfer_runs : exec (.tagXfer r a l) s = .next (exchange r 3 l s) :=
  congrArg Host.Outcome.next (guarded_ok (by simp [firstFail, inRange, there, low, high, Option.isSome_iff_ne_none.mp held]))

theorem tagXfer_answers (short : b.length ≤ 256) :
    Answers (.tagXfer r a (.answer b :: l)) s fun t => Posted t r stsOk b ∧ t.tag = s.tag := by
  refine ⟨_, exec_tagXfer_runs there low high held, ?_⟩
  rw [exchange_answer short (by decide)]
  exact ⟨rfl, post_tag⟩

theorem tagXfer_answers_repeat (short : b.length ≤ 256) :
    Answers (.tagXfer r a (.silent :: .bad :: .answer b :: l)) s fun t => Posted t r stsOk b
      ∧ t.tag = { s.tag with timeouts := satInc 8 s.tag.timeouts, rxErr := satInc 8 s.tag.rxErr } := by
  refine ⟨_, exec_tagXfer_runs there low high held, ?_⟩
  rw [exchange_silent (by decide), exchange_bad (by decide), exchange_answer short (by decide)]
  exact ⟨rfl, post_tag⟩

theorem tagXfer_silent_thrice :
    Answers (.tagXfer r a (.silent :: .silent :: .silent :: l)) s fun t => Posted t r stsTimeout [] ∧ t.tag.held = none
      ∧ t.tag.timeouts = satInc 8 (satInc 8 (satInc 8 s.tag.timeouts)) := by
  refine ⟨_, exec_tagXfer_runs there low high held, ?_⟩
  rw [exchange_silent (by decide), exchange_silent (by decide), exchange_silent_last]
  exact ⟨posted_postSts, congrArg TagBlock.held postSts_tag, congrArg TagBlock.timeouts postSts_tag⟩

theorem tagXfer_bad_thrice :
    Answers (.tagXfer r a (.bad :: .bad :: .bad :: l)) s fun t => Posted t r stsIntegrity [] ∧ t.tag.held = none
      ∧ t.tag.rxErr = satInc 8 (satInc 8 (satInc 8 s.tag.rxErr)) := by
  refine ⟨_, exec_tagXfer_runs there low high held, ?_⟩
  rw [exchange_bad (by decide), exchange_bad (by decide), exchange_bad_last]
  exact ⟨posted_postSts, congrArg TagBlock.held postSts_tag, congrArg TagBlock.rxErr postSts_tag⟩

end Xfer

/-! ## The authorisation cache (R282, R286) -/

theorem cacheLocked_of_cluster (side : r.side = .cluster) (mode : s.sys.mode ≠ .limp) : cacheLocked s r = false := by
  simp [cacheLocked, side, mode]

theorem tagCacheGet_posts {k : Nat} (there : readerThere s = true) :
    Answers (.tagCacheGet r k) s fun t => t.tag = s.tag ∧
      ((∀ p e, findEntry k s.tag.cache = some (p, e) → Posted t r stsOk (entryBytes e))
        ∧ (findEntry k s.tag.cache = none → Posted t r stsOk (zeros 16))) := by
  refine ⟨_, congrArg Host.Outcome.next (guarded_ok (by simp [firstFail, there])), post_tag, fun p e found => ?_,
    fun missing => ?_⟩
  · rw [found]
    rfl
  · rw [missing]
    rfl

theorem cacheMirror_mirrors (up : badgerUp s = true) (waits : s.tag.mirrorPend = true) :
    exec .cacheMirror s = .next (onTag (fun b => { b with mirror := b.mirror.write b.cache, mirrorPend := false }) s) :=
  congrArg Host.Outcome.next (if_pos ⟨up, waits⟩)

theorem cacheLoaded_loads (there : readerThere s = true) (empty : s.tag.loaded = false) (reset : s.sys.reset = none) :
    exec .cacheLoaded s = .next (onTag (fun b => { b with cache := b.mirror.get, loaded := true }) s) :=
  congrArg Host.Outcome.next (if_pos ⟨there, empty, reset⟩)

section Changes
variable (there : readerThere s = true) (side : r.side = .cluster) (mode : s.sys.mode ≠ .limp)
include there side mode

theorem exec_tagCachePut_single {b : Bytes} (sized : b.length = 14) :
    exec (.tagCachePut r [b]) s = .next (post r (if (putEntries [b] 0 s).2.2 then stsOk else stsRefused) 0
      (leBytes 4 (putEntries [b] 0 s).2.1) (putEntries [b] 0 s).1) :=
  congrArg Host.Outcome.next (guarded_ok (by simp [firstFail, there, sized, cacheLocked_of_cluster side mode]))

theorem tagCachePut_places {b : Bytes} {l : List (Nat × CacheEntry)} (sized : b.length = 14)
    (placed : insertEntry s.freeCtr (entryOf b) s.tag.cache = some l) :
    Answers (.tagCachePut r [b]) s fun t =>
      t.tag.cache = l ∧ t.tag.mirrorPend = true ∧ Posted t r stsOk (leBytes 4 1) := by
  refine ⟨_, exec_tagCachePut_single there side mode sized, ?_⟩
  simp only [putEntries, placed]
  exact ⟨congrArg TagBlock.cache post_tag, congrArg TagBlock.mirrorPend post_tag, rfl⟩

theorem tagCachePut_refuses {b : Bytes} (sized : b.length = 14)
    (full : insertEntry s.freeCtr (entryOf b) s.tag.cache = none) :
    Answers (.tagCachePut r [b]) s fun t => t.tag = s.tag ∧ Posted t r stsRefused (leBytes 4 0) := by
  refine ⟨_, exec_tagCachePut_single there side mode sized, ?_⟩
  simp only [putEntries, full]
  exact ⟨post_tag, rfl⟩

theorem tagCacheDel_drops {k : Nat} :
    Answers (.tagCacheDel r k) s fun t => Posted t r stsOk [] ∧
      ∀ p e, findEntry k s.tag.cache = some (p, e) → t.tag.cache = dropEntry p s.tag.cache := by
  refine ⟨_, congrArg Host.Outcome.next (guarded_ok (by simp [firstFail, there, cacheLocked_of_cluster side mode])),
    posted_postSts, fun p e found => ?_⟩
  rw [found]
  exact congrArg TagBlock.cache postSts_tag

theorem tagCacheClear_clears :
    Answers (.tagCacheClear r) s fun t => Posted t r stsOk [] ∧ t.tag.cache = [] :=
  ⟨_, congrArg Host.Outcome.next (guarded_ok (by simp [firstFail, there, cacheLocked_of_cluster side mode])),
    posted_postSts, congrArg TagBlock.cache postSts_tag⟩

end Changes

/-- Settles O32: a lone tag passes anticollision, and only its own report enters the FIFO; an exchange counts one failure after
the other; the rest are single updates of the block, and the wake that may follow an event keeps them. -/
theorem readerAndCacheCommandsEffect : Obligations.ReaderAndCacheCommandsEffect := by
  unfold Obligations.ReaderAndCacheCommandsEffect
  refine ⟨fun _ _ on empty reader => ⟨_, reducedFieldMeasurement_measures on empty reader, rfl, rfl, rfl⟩,
    fun _ on three => fieldDetection_detects on three,
    fun _ _ polls foreign => fullPoll_yields polls foreign,
    fun _ _ _ polls foreign single on new room => fullPoll_reports_new_tag polls foreign single on new room,
    fun _ held => ⟨_, tagHoldExpiry_releases held, rfl, rfl⟩,
    fun _ => rfl,
    fun _ _ _ _ there low high held short => ⟨fun _ => tagXfer_answers there low high held short,
      fun _ => tagXfer_answers_repeat there low high held short, fun _ => tagXfer_silent_thrice there low high held,
      fun _ => tagXfer_bad_thrice there low high held⟩,
    fun _ _ there held => tagRelease_releases there held,
    fun s r b there side mode sized => ?put,
    fun _ _ _ there side mode => ⟨tagCacheDel_drops there side mode, tagCacheClear_clears there side mode⟩,
    fun _ _ _ there => tagCacheGet_posts there,
    fun _ up waits => ⟨_, cacheMirror_mirrors up waits, get_write, rfl⟩,
    fun _ there empty reset => ⟨_, cacheLoaded_loads there empty reset, rfl⟩,
    fun _ => rfl,
    fun _ _ => ⟨_, rfl, rfl, rfl⟩⟩
  case put =>
    cases placed : insertEntry s.freeCtr (entryOf b) s.tag.cache with
    | some l => exact tagCachePut_places there side mode sized placed
    | none => exact tagCachePut_refuses there side mode sized placed

/-! ## The commissioning tag: its state and its array (R290–R292) -/

/-- The invariant counts 256 blocks. -/
theorem ct_length (inv : s.Inv) : s.tag.ct.length = 256 := by
  obtain ⟨-, -, -, -, -, -, -, -, shape, -⟩ := inv
  simpa [TagBlock.shape] using shape

theorem ctRefresh_secures (key : (accessSlot s).isSome = true) (lc : s.key.lc ≠ .retired) (asked : s.tag.ctSecured = true) :
    (ctRefresh s).tag.ctState = .secured := by
  unfold ctRefresh
  extract_lets loaded state
  refine (ctPublishInfo_keeps_tag (v := TagBlock.ctState) fun _ _ => rfl).trans (show state = .secured from ?_)
  simp only [state, loaded, key, asked]
  cases now : s.key.lc with
  | retired => exact absurd now lc
  | blank => rfl
  | provisioned => rfl
  | service => rfl
  | maintenance => rfl
  | recovery => rfl

theorem ctRefresh_opens (service : s.key.lc ≠ .service) (retired : s.key.lc ≠ .retired) (asked : s.tag.ctSecured = false) :
    (ctRefresh s).tag.ctState = .isOpen := by
  unfold ctRefresh
  extract_lets loaded state
  refine (ctPublishInfo_keeps_tag (v := TagBlock.ctState) fun _ _ => rfl).trans (show state = .isOpen from ?_)
  simp only [state, asked, Bool.and_false]
  cases now : s.key.lc with
  | retired => exact absurd now retired
  | service => exact absurd now service
  | blank => rfl
  | provisioned => rfl
  | maintenance => rfl
  | recovery => rfl

theorem tagCtSecure_secures (lc : s.key.lc ≠ .retired) (key : (accessSlot s).isSome = true)
    (state : s.tag.ctState ≠ .secured) :
    Answers (.tagCtSecure r) s fun t => Posted t r stsOk [] ∧ t.tag.ctState = .secured := by
  have checks : ((accessSlot s).isNone || s.tag.ctState == .secured) = false := by simp [state, key]
  exact ⟨_, congrArg Host.Outcome.next (guarded_ok (by simp [firstFail, lc, checks])), posted_postSts,
    (congrArg TagBlock.ctState postSts_tag).trans (ctRefresh_secures key lc rfl)⟩

theorem tagCtOpen_opens (service : s.key.lc ≠ .service) (retired : s.key.lc ≠ .retired) :
    Answers (.tagCtOpen r) s fun t => Posted t r stsOk [] ∧ t.tag.ctState = .isOpen :=
  ⟨_, congrArg Host.Outcome.next (guarded_ok (by simp [firstFail, ctMayOpen, service, retired])), posted_postSts,
    (congrArg TagBlock.ctState postSts_tag).trans (ctRefresh_opens service retired rfl)⟩

/-! ### Blocks -/

section Blocks
variable {n m : Nat} {d : Bytes} {x : Bool}

theorem ctBlock_putBlock_self (h : n < s.tag.ct.length) : ctBlock (putBlock n d x s) n = { data := fit 32 d, ok := x } :=
  put_getD_self h

theorem ctBlock_putBlock_ne (h : m ≠ n) : ctBlock (putBlock n d x s) m = ctBlock s m := put_getD_ne h

@[simp] theorem putBlock_ct_length : (putBlock n d x s).tag.ct.length = s.tag.ct.length := List.length_set

theorem ctBlock_postSts {sts : Nat} : ctBlock (postSts r sts s) n = ctBlock s n :=
  congrArg (fun b : TagBlock => b.ct.getD n { data := zeros 32, ok := false }) postSts_tag

end Blocks

/-- The blocks `b` up to `b + n`, written one after the other with their checks. -/
def putBlocks (b : Nat) (d : Nat → Bytes) (n : Nat) (s : State) : State :=
  (List.range n).foldl (fun x i => putBlock (b + i) (d i) true x) s

section PutBlocks
variable {b n m i : Nat} {d : Nat → Bytes}

theorem putBlocks_succ : putBlocks b d (n + 1) s = putBlock (b + n) (d n) true (putBlocks b d n s) := by
  simp [putBlocks, List.range_succ]

theorem putBlocks_ct_length : (putBlocks b d n s).tag.ct.length = s.tag.ct.length :=
  foldl_keeps (g := fun u => u.tag.ct.length) fun _ _ => putBlock_ct_length

theorem ctBlock_putBlocks_inside (hi : i < n) (len : b + n ≤ s.tag.ct.length) :
    ctBlock (putBlocks b d n s) (b + i) = { data := fit 32 (d i), ok := true } := by
  induction n with
  | zero => exact absurd hi (Nat.not_lt_zero i)
  | succ n ih =>
    rw [putBlocks_succ]
    by_cases last : i = n
    · subst last
      exact ctBlock_putBlock_self (by rw [putBlocks_ct_length]; omega)
    · rw [ctBlock_putBlock_ne (by omega)]
      exact ih (by omega) (by omega)

theorem ctBlock_putBlocks_outside (out : m < b ∨ b + n ≤ m) : ctBlock (putBlocks b d n s) m = ctBlock s m := by
  induction n with
  | zero => rfl
  | succ n ih =>
    rw [putBlocks_succ, ctBlock_putBlock_ne (by omega)]
    exact ih (by omega)

end PutBlocks

theorem exec_tagCtPublish_runs {b : Bytes} (short : b.length ≤ 128) (field : s.tag.field = false) :
    exec (.tagCtPublish r b) s = .next (postSts r stsOk (putBlocks 4 (fun i => slice (32 * i) 32 b) 4 s)) :=
  congrArg Host.Outcome.next (guarded_ok (by simp [firstFail, short, field]))

theorem tagCtPublish_publishes {b : Bytes} (inv : s.Inv) (short : b.length ≤ 128) (field : s.tag.field = false) :
    Answers (.tagCtPublish r b) s fun t => Posted t r stsOk [] ∧
      (∀ i, i < 4 → ctBlock t (4 + i) = { data := fit 32 (slice (32 * i) 32 b), ok := true })
        ∧ ∀ n, n < 4 ∨ 8 ≤ n → ctBlock t n = ctBlock s n := by
  refine ⟨_, exec_tagCtPublish_runs short field, posted_postSts, fun i hi => ?_, fun n out => ?_⟩
  · exact ctBlock_postSts.trans (ctBlock_putBlocks_inside hi (by rw [ct_length inv]; decide))
  · exact ctBlock_postSts.trans (ctBlock_putBlocks_outside out)

/-! ### Adoption (R297) -/

section Adopt
variable (field : s.tag.field = false) (magic : leAt 0 4 (ctBlock s 8).data = 0x41524541) (low : 1 ≤ areaLen s)
  (high : areaLen s ≤ 247) (header : (ctBlock s 8).ok = true) (blocks : ∀ n ∈ areaBlocks s, (ctBlock s n).ok = true)
  (crc : crc32c (areaBytes s) = leAt 12 4 (ctBlock s 8).data) (newer : s.tag.adoptSeq < areaSeq s)
include field magic low high header blocks crc newer

theorem exec_tagCtAdopt_adopts : exec (.tagCtAdopt r) s = .next (postSts r stsOk
    (logEv .service 0x10 0xFF 0x1004 [(4, areaSeq s), (1, areaLen s)] (ctPublishInfo (onTag (fun b => { b with
      adoptWin := fit 8192 (areaBytes s), adopted := true, adoptSeq := areaSeq s }) s)))) := by
  have sound : (areaBlocks s).find? (fun n => !(ctBlock s n).ok) = none :=
    List.find?_eq_none.mpr fun n mem => by simp [blocks n mem]
  show execTagCtAdopt r s = _
  simp [execTagCtAdopt, field, magic, inRange, low, high, header, sound, crc, newer]

theorem tagCtAdopt_adopts :
    Answers (.tagCtAdopt r) s fun t => Posted t r stsOk [] ∧ t.tag.adopted = true ∧ t.tag.adoptSeq = areaSeq s
      ∧ t.tag.adoptWin = fit 8192 (areaBytes s) := by
  refine ⟨_, exec_tagCtAdopt_adopts field magic low high header blocks crc newer, posted_postSts, ?_⟩
  rw [postSts_tag, logEv_tag]
  exact ⟨ctPublishInfo_keeps_tag (v := TagBlock.adopted) fun _ _ => rfl,
    ctPublishInfo_keeps_tag (v := TagBlock.adoptSeq) fun _ _ => rfl,
    ctPublishInfo_keeps_tag (v := TagBlock.adoptWin) fun _ _ => rfl⟩

end Adopt

/-! ## The commissioning tag: over the air (R291–R296) -/

theorem exec_ctReadBlock_answers {a n : Nat} (field : s.tag.field = true) (nonempty : n ≠ 0) (inside : a + n ≤ 256)
    (sound : ∀ k, a ≤ k → k < a + n → (ctBlock s k).ok = true) :
    exec (.ctReadBlock a n) s =
      .next (ctAnswer (((List.range n).map (a + ·)).flatMap fun k => (ctBlock s k).data) s) := by
  have passes : ¬ ((List.range n).map (a + ·)).any (fun k => !(ctBlock s k).ok) = true := by
    simp only [List.any_map, List.any_eq_true, List.mem_range, not_exists, not_and]
    intro i hi
    simp [sound (a + i) (by omega) (by omega)]
  exact congrArg Host.Outcome.next ((if_neg (by simp [field])).trans ((if_neg (by omega)).trans (if_neg passes)))

section Writes
variable {a : Nat} {d : Bytes} (field : s.tag.field = true) (sized : d.length = 32) (low : 8 ≤ a) (high : a ≤ 255)

/-- A block written to the end, and the array around it (R296). -/
theorem ctWrite_completes (len : a < s.tag.ct.length) :
    ctBlock (ctWrite a d true .complete s) a = { data := fit 32 d, ok := true }
      ∧ (ctWrite a d true .complete s).tag.answer = some (0, [])
      ∧ (ctWrite a d true .complete s).tag.ctWrites = satInc 8 s.tag.ctWrites
      ∧ ∀ n, n ≠ a → ctBlock (ctWrite a d true .complete s) n = ctBlock s n :=
  ⟨ctBlock_putBlock_self len, rfl, rfl, fun _ other => ctBlock_putBlock_ne other⟩

/-- A block whose field is cut in the erase keeps what was left of it, without a check (R296). -/
theorem ctWrite_tears {l : Bytes} (len : a < s.tag.ct.length) :
    ctBlock (ctWrite a d true (.duringErase l) s) a = { data := fit 32 l, ok := false }
      ∧ (ctWrite a d true (.duringErase l) s).tag.field = false
      ∧ ∀ n, n ≠ a → ctBlock (ctWrite a d true (.duringErase l) s) n = ctBlock s n :=
  ⟨ctBlock_putBlock_self len, rfl, fun _ other => ctBlock_putBlock_ne other⟩

include field sized high

theorem exec_ctWriteSingleBlock_secured (state : s.tag.ctState = .secured) :
    exec (.ctWriteSingleBlock a d true .complete) s = .next (ctError 0xA5 s) := by
  show execCtWriteSingleBlock a d true .complete s = _
  simp [execCtWriteSingleBlock, field, sized, show ¬ 255 < a by omega, state]

include low

theorem exec_ctWriteSingleBlock_open {cut : WriteCut} (state : s.tag.ctState = .isOpen) :
    exec (.ctWriteSingleBlock a d true cut) s = .next (ctWrite a d true cut s) := by
  show execCtWriteSingleBlock a d true cut s = _
  simp [execCtWriteSingleBlock, field, sized, show ¬ 255 < a by omega, show ¬ a < 8 by omega, state]

variable {mac c k : Bytes} {t0 : Nat} (eight : mac.length = 8) (state : s.tag.ctState = .secured)
  (given : s.tag.challenge = some (c, t0)) (key : accessKey s = some k) (fresh : s.ticks - t0 ≤ msTicks 1000)
include eight state given key fresh

theorem exec_ctAuthWrite_decides : exec (.ctAuthWrite a d mac true .complete) s = .next
    (if (Config.cmac k (c ++ ctUid s ++ leBytes 1 a ++ d)).take 8 = mac then ctWrite a d true .complete s
      else ctMacFail s) := by
  show execCtAuthWrite a d mac true .complete s = _
  simp [execCtAuthWrite, field, sized, eight, state, given, key, show ¬ msTicks 1000 < s.ticks - t0 by omega,
    show ¬ 255 < a by omega, show ¬ a < 8 by omega]

theorem ctAuthWrite_decides (inv : s.Inv) : Answers (.ctAuthWrite a d mac true .complete) s fun t =>
    if (Config.cmac k (c ++ ctUid s ++ leBytes 1 a ++ d)).take 8 = mac then
      ctBlock t a = { data := fit 32 d, ok := true } ∧ t.tag.answer = some (0, [])
    else t.tag.ct = s.tag.ct ∧ t.tag.answer = some (0xA2, []) ∧ t.tag.fails = satInc 8 s.tag.fails := by
  refine ⟨_, exec_ctAuthWrite_decides field sized low high eight state given key fresh, ?_⟩
  split
  · obtain ⟨block, answer, -, -⟩ := ctWrite_completes (d := d) (show a < s.tag.ct.length by rw [ct_length inv]; omega)
    exact ⟨block, answer⟩
  · exact ⟨rfl, rfl, rfl⟩

end Writes

theorem ctWriteSingleBlock_writes {a : Nat} {d l : Bytes} (inv : s.Inv) (field : s.tag.field = true) (sized : d.length = 32)
    (low : 8 ≤ a) (high : a ≤ 255) (state : s.tag.ctState = .isOpen) :
    (Answers (.ctWriteSingleBlock a d true .complete) s fun t => ctBlock t a = { data := fit 32 d, ok := true }
        ∧ t.tag.answer = some (0, []) ∧ t.tag.ctWrites = satInc 8 s.tag.ctWrites ∧ ∀ n, n ≠ a → ctBlock t n = ctBlock s n)
      ∧ (Answers (.ctWriteSingleBlock a d true (.duringErase l)) s fun t => ctBlock t a = { data := fit 32 l, ok := false }
        ∧ t.tag.field = false ∧ ∀ n, n ≠ a → ctBlock t n = ctBlock s n) := by
  have len : a < s.tag.ct.length := by rw [ct_length inv]; omega
  exact ⟨⟨_, exec_ctWriteSingleBlock_open field sized low high state, ctWrite_completes len⟩,
    ⟨_, exec_ctWriteSingleBlock_open field sized low high state, ctWrite_tears len⟩⟩

theorem ctGetChallenge_challenges (field : s.tag.field = true) (unlocked : s.tag.challengeLock = false) :
    Answers .ctGetChallenge s fun t => ∃ c : Bytes, c.length = 8 ∧ t.tag.challenge = some (c, s.ticks)
      ∧ t.tag.answer = some (0, c) :=
  ⟨_, congrArg Host.Outcome.next ((if_neg (by simp [field])).trans (if_neg (by simp [unlocked]))), freeBytes s 8, fit_length,
    rfl, rfl⟩

/-- Settles O33: the tag's state follows from life cycle, key and command; a write changes one block of the array, and what the
tag answers over the air is the last update of the command. -/
theorem commissioningTagCommandsEffect : Obligations.CommissioningTagCommandsEffect :=
  ⟨fun _ _ _ lc key state => tagCtSecure_secures lc key state,
    fun _ _ _ service retired => tagCtOpen_opens service retired,
    fun _ _ _ inv short field => tagCtPublish_publishes inv short field,
    fun _ _ _ field magic low high header blocks crc newer =>
      tagCtAdopt_adopts field magic low high header blocks crc newer,
    fun _ _ _ field nonempty inside sound => ⟨_, exec_ctReadBlock_answers field nonempty inside sound, rfl, rfl⟩,
    fun _ _ _ _ inv field sized low high => ⟨fun state => ctWriteSingleBlock_writes inv field sized low high state,
      fun state => ⟨_, exec_ctWriteSingleBlock_secured field sized high state, rfl, rfl⟩⟩,
    fun _ field unlocked => ctGetChallenge_challenges field unlocked,
    fun _ _ _ _ _ _ _ inv field sized eight low high state given key fresh =>
      ctAuthWrite_decides field sized low high eight state given key fresh inv,
    fun _ _ _ => ⟨⟨_, rfl, rfl, rfl⟩, ⟨_, rfl, rfl, rfl⟩⟩⟩

/-! ## Frames of reader, cache, tag, display and LEDs -/

/-- Settles O49: each command is its meaning, and the lemma of that meaning (Laws/FrameTags, Laws/FrameDisplay) names the parts
it writes. -/
theorem readerAndDisplayFrames : Obligations.ReaderAndDisplayFrames := by
  unfold Obligations.ReaderAndDisplayFrames
  intro s t
  exact ⟨onlyIn_next same_execCacheLoaded,
    onlyIn_next same_execTagHoldExpiry,
    onlyIn_next same_execLimpHitExpiry,
    onlyIn_next same_execCacheMirror,
    onlyIn_next same_execTagRptPop,
    fun a n => onlyIn_next (same_execCtReadBlock a n),
    fun a d x cut => onlyIn_next (same_execCtWriteSingleBlock a d x cut),
    fun a d mac x cut => onlyIn_next (same_execCtAuthWrite a d mac x cut),
    fun x y z => onlyIn_next (same_execCtFieldChange x y z),
    fun x => onlyIn_next (same_execReducedFieldMeasurement x),
    fun r b l => onlyIn_next (same_execTagXfer r b l),
    fun r => onlyIn_next (same_execTagRelease r),
    fun r k => onlyIn_next (same_execTagCacheDel r k),
    fun r => onlyIn_next (same_execTagCacheClear r),
    fun r => onlyIn_next (same_execTagCtSecure r),
    fun r => onlyIn_next (same_execTagCtOpen r),
    fun r b => onlyIn_next (same_execTagCtPublish r b),
    fun r l => onlyIn_next (same_execTagCachePut r l),
    fun r k => onlyIn_next (same_execTagCacheGet r k),
    fun r => onlyIn_next (same_execTagCtAdopt r),
    fun v => onlyIn_next (same_execTagStatusRead v),
    onlyIn_next same_execCtGetChallenge,
    fun r n x b => onlyIn_next (same_execEpdUpdate r n x b),
    onlyIn_next same_execEpdFrame,
    onlyIn_next same_execLegalDwell,
    fun w => onlyIn_next (same_execEpdTempWrite w),
    onlyIn_next same_execEpdStop,
    fun n => onlyIn_next (same_execLedStep n),
    fun n x => onlyIn_next (same_execLedOvertemp n x),
    fun n x => onlyIn_next (same_execLedOpen n x)⟩

end Sys2Proof.Machine
end

section
/-! PROOFS. The statements of 95_what_each_step_holds.md about steps (R325, R337, R355, R371), and the frames of host interface
and registers (R389–R400). -/

namespace Sys2Proof.Machine

variable {s t : State}

/-! ## Steps -/

/-- Settles O1: `step` looks at the queue alone. -/
theorem stepRunsTheFrontCommand : Obligations.StepRunsTheFrontCommand := by
  unfold Obligations.StepRunsTheFrontCommand
  intro c l s front
  unfold step
  rw [front]

/-- The meaning of a command is a next state by its form, but of two that choose between meanings. -/
theorem exec_answers (c : Instr) : ∃ t, exec c s = .next t := by
  cases c with
  | msduLifetimeExpiry =>
    show ∃ t, (if s.glk.msdu.isSome then .next (endMsdu stsTimeout s) else execFrameTxTimeout .glk s) = .next t
    split
    · exact ⟨_, rfl⟩
    · exact ⟨_, rfl⟩
  | slewComplete d now =>
    cases now with
    | true => exact ⟨_, rfl⟩
    | false => exact ⟨_, rfl⟩
  | _ => exact ⟨_, rfl⟩

/-- Settles O3: every command answers, and keeps the queue and the identity whatever it does (`kept_exec`). -/
theorem everyCommandAnswersANextState : Obligations.EveryCommandAnswersANextState := by
  unfold Obligations.EveryCommandAnswersANextState
  intro c s
  obtain ⟨t, runs⟩ := exec_answers (s := s) c
  obtain ⟨queue, identity, -⟩ := kept_exec c (kept_start (b := False) (s := s) nofun) t runs
  exact ⟨t, runs, queue, identity⟩

/-! ## Marks that no step takes back (R325, R337, R355, R371) -/

/-- The marks that a state shows, with every release allowed. -/
def securityMarks (s : State) : Marks := { marksShown s with released := fun _ => True }

theorem marked_securityMarks : Marked (securityMarks s) s := ⟨le_rfl, ⟨le_rfl, id, id⟩, ⟨fun _ => le_rfl⟩, ⟨fun _ _ => trivial⟩⟩

/-- A step takes no mark back: it is a tick, or the front command on the queue's rest. -/
theorem marked_step {m : Marks} (free : ∀ o, m.released o) (h : Marked m s) : MarkedO m (step s) := by
  unfold step
  split
  · exact markedO_next (marked_tick h)
  next c rest _ => exact marked_exec (s := { s with pending := rest }) c (fun _ => free) h

/-- Settles O7: the marks a state shows are kept by the tick and by every command (`marked_exec`). -/
theorem securityMarksNeverFall : Obligations.SecurityMarksNeverFall := by
  unfold Obligations.SecurityMarksNeverFall
  intro s t ends
  obtain ⟨seq, ⟨counter, retired, left⟩, upd, -⟩ := marked_step (fun _ => trivial) (marked_securityMarks (s := s)) t ends
  exact ⟨seq, counter, retired, left, upd.floors⟩

/-! ## Frames of host interface and registers -/

/-- Settles O52: each command is its meaning, and the lemma of that meaning (Laws/FrameHost, Laws/FrameRegs) names the parts it
writes. -/
theorem hostFrames : Obligations.HostFrames := by
  unfold Obligations.HostFrames
  intro s t
  exact ⟨fun v a l => onlyIn_next (same_execRegisterWrite v a l),
    fun v a b => onlyIn_next (same_execBufferWrite v a b),
    fun f => onlyIn_next (same_execHsiTransactionError f),
    onlyIn_next same_execHsiFrameTimeout,
    fun v w => onlyIn_next (same_execHsiReleaseWrite v w),
    fun v w => onlyIn_next (same_execCtailWrite v w),
    fun v k => onlyIn_next (same_execResultSlotRead v k),
    fun r => onlyIn_next (same_execBadgerCommandTimeout r),
    fun r b => onlyIn_next (same_execHsiNop r b)⟩

end Sys2Proof.Machine
end

section
/-! PROOFS. The statements of 15_host_and_buses.md: the error states of the CAN FD controllers (R406–R410), and what a posted
result writes (R393–R400). -/

namespace Sys2Proof.Machine

variable {s t : State} {c n : Nat}

/-! ## CAN error confinement (R409) -/

/-- What a controller shows of its fault confinement: its state and its two error counters. -/
def confinement (x : Can) : CanState × Nat × Nat := (x.state, x.tec, x.recCtr)

theorem confinement_pump : confinement (canOf (pump (.can c) s) n) = confinement (canOf s n) :=
  pump_keeps (g := fun u => confinement (canOf u n)) (fun u _ => canOf_onCan_keeps (s := sramPut _ _ (sramPut _ _ u)) fun _ => rfl)
    fun _ => rfl

/-- A controller takes a state and keeps its counters, whatever its ring then sends. -/
theorem confinement_setCan {st : CanState} (hc : c < s.can.length) :
    confinement (canOf (setCan c st s) c) = (st, (canOf s c).tec, (canOf s c).recCtr) := by
  unfold setCan
  dsimp only
  split
  next same => rw [← same]; rfl
  · rw [confinement_pump, canOf_congr logEv_can, canOf_onCan_self hc]
    rfl

theorem state_of_confinement {x : Can} {v : CanState × Nat × Nat} (h : confinement x = v) : x.state = v.1 := congrArg Prod.fst h

theorem can_in_range (inv : s.Inv) (there : portThere s (.can c) = true) : c < s.can.length := by
  obtain ⟨-, -, -, -, -, -, -, -, -, -, -, -, two, -⟩ := inv
  simp only [portThere, Bool.and_eq_true, decide_eq_true_eq] at there
  exact two ▸ there.1

section Confinement
variable (inv : s.Inv) (there : portThere s (.can c) = true)
include inv there

theorem canStuck_sticks (on : canOn (canOf s c) = true) :
    Answers (.canStuck c true) s fun t => (canOf t c).state = .stuck := by
  refine ⟨setCan c .stuck s, ?_, state_of_confinement (confinement_setCan (can_in_range inv there))⟩
  show execCanStuck c true s = _
  simp [execCanStuck, there, on]

theorem canStuck_ends (stuck : (canOf s c).state = .stuck) :
    Answers (.canStuck c false) s fun t => (canOf t c).state = confined (canOf s c).tec (canOf s c).recCtr := by
  refine ⟨setCan c (confined (canOf s c).tec (canOf s c).recCtr) s, ?_,
    state_of_confinement (confinement_setCan (can_in_range inv there))⟩
  show execCanStuck c false s = _
  simp [execCanStuck, there, stuck]

theorem canBusoffRecovery_recovers {b : Bool} (off : (canOf s c).state = .busOff) (may : b = true ∨ (canOf s c).autorec = true) :
    Answers (.canBusoffRecovery c b) s fun t =>
      (canOf t c).state = .active ∧ (canOf t c).tec = 0 ∧ (canOf t c).recCtr = 0 := by
  have range := can_in_range inv there
  refine ⟨_, congrArg Host.Outcome.next (if_pos ⟨there, off, may⟩), ?_⟩
  have taken := confinement_setCan (c := c) (st := .active) (s := onCan c (fun x => { x with tec := 0, recCtr := 0 }) s)
    (range.trans_eq (upd_length _ _ _).symm)
  rw [canOf_onCan_self range] at taken
  simpa [confinement] using taken

theorem canErrorStateChange_takes {x y : Nat} (on : canOn (canOf s c) = true) :
    Answers (.canErrorStateChange c x y) s fun t =>
      (canOf t c).state = confined x y ∧ (canOf t c).tec = min 255 x ∧ (canOf t c).recCtr = min 255 y := by
  have range := can_in_range inv there
  have live : (canOf s c).state = .active ∨ (canOf s c).state = .passive := by simpa [canOn] using on
  refine ⟨setCan c (confined x y) (onCan c (fun z => { z with tec := min 255 x, recCtr := min 255 y }) s), ?_, ?_⟩
  · show execCanErrorStateChange c x y s = _
    rcases live with live | live
    · simp [execCanErrorStateChange, there, live]
    · simp [execCanErrorStateChange, there, live]
  · have taken := confinement_setCan (c := c) (st := confined x y)
      (s := onCan c (fun z => { z with tec := min 255 x, recCtr := min 255 y }) s) (range.trans_eq (upd_length _ _ _).symm)
    rw [canOf_onCan_self range] at taken
    simpa [confinement] using taken

end Confinement

/-- Settles O29: each event takes a state by `setCan`, and what the ring then sends leaves state and counters. -/
theorem canControllerCommandsEffect : Obligations.CanControllerCommandsEffect := by
  unfold Obligations.CanControllerCommandsEffect
  exact ⟨fun _ _ inv there => ⟨canStuck_sticks inv there, canStuck_ends inv there⟩,
    fun _ _ _ inv there => canBusoffRecovery_recovers inv there,
    fun _ _ _ _ inv there => canErrorStateChange_takes inv there⟩

/-! ## A posted result (R393, R394, R399, R400) -/

section Rings
variable {v w : Side} {f : Ring → Ring}

@[simp] theorem ringOf_onRing_self : ringOf (onRing v f s) v = f (ringOf s v) := by
  cases v with
  | host => rfl
  | cluster => rfl

theorem ringOf_onRing_ne (other : w ≠ v) : ringOf (onRing v f s) w = ringOf s w := by
  cases v with
  | host => cases w with
    | host => exact absurd rfl other
    | cluster => rfl
  | cluster => cases w with
    | host => rfl
    | cluster => exact absurd rfl other

theorem ringOf_congr (hsi : t.hsi = s.hsi) : ringOf t v = ringOf s v := by rw [ringOf.eq_def, hsi, ringOf.eq_def]

theorem ring_ok (inv : s.Inv) (v : Side) : (ringOf s v).Ok := by
  obtain ⟨-, -, -, -, -, -, -, -, -, -, -, -, -, -, ⟨host, cluster, -⟩, -⟩ := inv
  cases v with
  | host => exact host
  | cluster => exact cluster

theorem Ring.Ok.slots {g : Ring} (ok : g.Ok) : g.slots.length = 128 := by
  obtain ⟨shape, -⟩ := ok
  simp only [Ring.shape, List.cons.injEq] at shape
  exact shape.1

end Rings

section Complete
variable {g : Ring} {tag sts detail ts : Nat} {bs : Bytes} {sl : Slot}

/-- A finished slot as the completion of a command leaves it (R399). -/
def finished (sts detail ts : Nat) (bs : Bytes) (sl : Slot) : Slot :=
  { sl with sts := sts, ready := true, running := false, readCount := 0, rlen := (bs.take sl.rcap).length, detail := detail, ts := ts }

/-- A RUNNING slot is finished, its bytes are written, and its command is in flight no more; DONE may be marked. -/
theorem completeSlot_of_running (at' : g.slots.getD tag Slot.fresh = sl) (running : sl.running = true) :
    ∃ done, completeSlot tag sts detail ts bs g = { g with
      slots := put g.slots tag (finished sts detail ts bs sl), mem := memWriteN g.mem sl.roff (bs.take sl.rcap),
      flight := g.flight.filter (·.tag != tag), done := done } := by
  unfold completeSlot
  dsimp only
  rw [at', if_pos running]
  split
  · exact ⟨_, rfl⟩
  · exact ⟨_, rfl⟩

theorem completeSlot_of_idle (idle : (g.slots.getD tag Slot.fresh).running = false) : completeSlot tag sts detail ts bs g = g :=
  if_neg (Bool.not_eq_true _ ▸ idle)

end Complete

theorem ringOf_post {r : Req} {sts detail : Nat} {bs : Bytes} :
    ringOf (post r sts detail bs s) r.side = completeSlot r.tag sts detail (nowTs s) bs (ringOf s r.side) :=
  ringOf_onRing_self

theorem ringOf_post_ne {r : Req} {sts detail : Nat} {bs : Bytes} {v : Side} (other : v ≠ r.side) :
    ringOf (post r sts detail bs s) v = ringOf s v := ringOf_onRing_ne other

/-- An update that changes neither ring changes no HSI register. -/
theorem onRing_hsi_of_eq {v : Side} {f : Ring → Ring} (same : f (ringOf s v) = ringOf s v) : (onRing v f s).hsi = s.hsi := by
  cases v with
  | host => exact congrArg (fun g => { s.hsi with h := g }) same
  | cluster => exact congrArg (fun g => { s.hsi with c := g }) same

/-- Settles O56: `completeSlot` writes the slot of the tag, the bytes at its offset, and the commands in flight. -/
theorem postingAResultWritesOnlyItsSlotAndBuffer : Obligations.PostingAResultWritesOnlyItsSlotAndBuffer := by
  unfold Obligations.PostingAResultWritesOnlyItsSlotAndBuffer
  refine ⟨?running, fun s r sts detail bs idle => onRing_hsi_of_eq (completeSlot_of_idle idle)⟩
  intro s r sts detail bs inv tag running
  extract_lets g u sl n
  obtain ⟨shape, head, tail, wf⟩ := ring_ok inv r.side
  have slots : g.slots.length = 128 := (ring_ok inv r.side).slots
  have returned : (bs.take sl.rcap).length = n := by simp [n, Nat.min_comm]
  obtain ⟨done, eq⟩ := completeSlot_of_running (sts := sts) (detail := detail) (ts := nowTs s) (bs := bs) (g := g) (sl := sl) rfl running
  have posted : u = _ := ringOf_post.trans eq
  rw [posted]
  refine ⟨?slot, fun k other => put_getD_ne other, ?bytes, ?others, rfl, rfl, rfl, ?flight, fun v => ringOf_post_ne⟩
  case slot =>
    rw [← returned]
    exact put_getD_self (by omega)
  case bytes =>
    intro i hi
    have inside : i < (bs.take sl.rcap).length := by omega
    refine (memRead_writeN_same wf sl.roff (bs.take sl.rcap) i inside).trans ?_
    rw [List.getD_eq_getElem _ 0 inside, List.getElem_take, List.getD_eq_getElem]
  case others =>
    intro a outside
    exact memRead_writeN_other wf (bs.take sl.rcap) (by omega)
  case flight =>
    intro f mem
    simpa using (List.mem_filter.mp mem).2

end Sys2Proof.Machine
end

section
/-! PROOFS. The statements of 15_host_and_buses.md: the effect of each command of the host interface (R389–R404). -/

namespace Sys2Proof.Machine

variable {s t : State} {v w : Side} {g : Ring}

/-! ## Faulty transactions (R390, R391) -/

/-- HSI after a faulty transaction of a row (R391): the row's counter, and LINKERR. -/
def faultNoted (row : Nat) (b : HsiBlock) : HsiBlock :=
  let c := if row = 4 then { b with crcErr := satInc 8 b.crcErr }
    else if row = 2 ∨ row = 3 then { b with lenErr := satInc 8 b.lenErr }
    else { b with abort := satInc 8 b.abort }
  { c with h := { c.h with irqLink := true } }

/-- What the limit on EV_HSI_LINK does not change shows the fault noted. -/
theorem linkFault_hsi {α : Type} {g : HsiBlock → α} {row : Nat} (free : ∀ b x, g { b with linkTick := x } = g b) :
    g (linkFault row s).hsi = g (faultNoted row s.hsi) := by
  unfold linkFault
  extract_lets counted raised
  split
  · rfl
  · exact (congrArg g logEv_hsi).trans (free (faultNoted row s.hsi) _)

theorem linkFault_raises {row : Nat} : (linkFault row s).hsi.h.irqLink = true :=
  linkFault_hsi (g := fun b => b.h.irqLink) fun _ _ => rfl

theorem linkFault_counts_crc : (linkFault 4 s).hsi.crcErr = satInc 8 s.hsi.crcErr :=
  linkFault_hsi (g := HsiBlock.crcErr) fun _ _ => rfl

theorem linkFault_counts_length {row : Nat} (length : row = 2 ∨ row = 3) :
    (linkFault row s).hsi.lenErr = satInc 8 s.hsi.lenErr := by
  refine (linkFault_hsi (g := HsiBlock.lenErr) fun _ _ => rfl).trans ?_
  simp [faultNoted, length, show row ≠ 4 by omega]

theorem linkFault_counts_abort {row : Nat} (abort : row ≠ 2 ∧ row ≠ 3 ∧ row ≠ 4) :
    (linkFault row s).hsi.abort = satInc 8 s.hsi.abort := by
  refine (linkFault_hsi (g := HsiBlock.abort) fun _ _ => rfl).trans ?_
  simp [faultNoted, abort]

section Faults
variable (ready : s.hsi.hReady = true) {f : HsiFrame}
include ready

theorem exec_hsiTransactionError_faulty {row : Nat} (at' : hsiRow f = row) (fault : row ≠ 0) :
    exec (.hsiTransactionError f) s = .next (linkFault row s) := by
  subst at'
  exact congrArg Host.Outcome.next ((if_neg (by simp [ready])).trans (if_pos fault))

theorem exec_hsiTransactionError_late (row : hsiRow f = 0) (late : f.late = true) (read : hsiWrites f = false) :
    exec (.hsiTransactionError f) s = .next (onHsi (fun b => { b with waitErr := satInc 8 b.waitErr }) s) :=
  congrArg Host.Outcome.next ((if_neg (by simp [ready])).trans ((if_neg (by simp [row])).trans (if_pos ⟨late, read⟩)))

theorem exec_hsiTransactionError_sound (row : hsiRow f = 0) (fine : f.late = false ∨ hsiWrites f = true) :
    exec (.hsiTransactionError f) s = .next s := by
  refine congrArg Host.Outcome.next ((if_neg (by simp [ready])).trans ((if_neg (by simp [row])).trans (if_neg ?_)))
  rintro ⟨late, read⟩
  rcases fine with fine | fine
  · simp [late] at fine
  · simp [read] at fine

theorem hsiFrameTimeout_counts :
    Answers .hsiFrameTimeout s fun t => t.hsi.abort = satInc 8 s.hsi.abort ∧ t.hsi.h.irqLink = true :=
  ⟨_, congrArg Host.Outcome.next (if_pos ready), linkFault_counts_abort (by decide), linkFault_raises⟩

end Faults

/-! ## Ring errors (R395) -/

/-- A ring with an error in HSI_x_RERR. -/
def withError (cause tag code : Nat) (g : Ring) : Ring :=
  { g with errCount := satInc 6 g.errCount, errCause := cause, errTag := tag % 128, errCode := code, irqRerr := true }

/-- What the limit on EV_HSI_RING does not change shows the error. -/
theorem ringError_ring {α : Type} {g : Ring → α} {cause tag code : Nat} (free : ∀ x tick, g { x with errTick := tick } = g x) :
    g (ringOf (ringError v cause tag code s) v) = g (withError cause tag code (ringOf s v)) := by
  have noted {u : State} : ringOf (onRing v (fun g => { g with
    errCount := satInc 6 g.errCount, errCause := cause, errTag := tag % 128, errCode := code, irqRerr := true }) u) v
      = withError cause tag code (ringOf u v) := ringOf_onRing_self
  unfold ringError
  dsimp only
  split
  · rw [noted]
  · rw [ringOf_congr logEv_hsi, ringOf_onRing_self, noted]
    exact free _ _

theorem sideReady_true {β : Sort _} {a b : β} (ready : sideReady s v = true) : (if sideReady s v = false then a else b) = b :=
  if_neg (by simp [ready])

/-! ## Releasing a slot (R400) -/

section Ready
variable (ready : sideReady s v = true)
include ready

theorem exec_hsiReleaseWrite_idle {x : Word} (idle : ((ringOf s v).slots.getD (x.toNat % 128) Slot.fresh).running = false) :
    exec (.hsiReleaseWrite v x) s = .next (onRing v (fun g => { g with
      slots := put g.slots (x.toNat % 128) { Slot.fresh with gen := ((ringOf s v).slots.getD (x.toNat % 128) Slot.fresh).gen } }) s) :=
  congrArg Host.Outcome.next ((sideReady_true ready).trans (if_neg (ne_true_of_eq_false idle)))

theorem exec_hsiReleaseWrite_running {x : Word} (runs : ((ringOf s v).slots.getD (x.toNat % 128) Slot.fresh).running = true) :
    exec (.hsiReleaseWrite v x) s
      = .next (ringError v 3 (x.toNat % 128) ((ringOf s v).slots.getD (x.toNat % 128) Slot.fresh).code s) :=
  congrArg Host.Outcome.next ((sideReady_true ready).trans (if_pos runs))

theorem hsiReleaseWrite_releases {x : Word} (inv : s.Inv) :
    Answers (.hsiReleaseWrite v x) s fun t =>
      (((ringOf s v).slots.getD (x.toNat % 128) Slot.fresh).running = false →
        (ringOf t v).slots.getD (x.toNat % 128) Slot.fresh
          = { Slot.fresh with gen := ((ringOf s v).slots.getD (x.toNat % 128) Slot.fresh).gen })
      ∧ (((ringOf s v).slots.getD (x.toNat % 128) Slot.fresh).running = true → (ringOf t v).errCause = 3
          ∧ (ringOf t v).slots = (ringOf s v).slots) := by
  have slots := (ring_ok inv v).slots
  cases runs : ((ringOf s v).slots.getD (x.toNat % 128) Slot.fresh).running with
  | false =>
    refine ⟨_, exec_hsiReleaseWrite_idle ready runs, fun _ => ?_, nofun⟩
    rw [ringOf_onRing_self]
    exact put_getD_self (by omega)
  | true =>
    exact ⟨_, exec_hsiReleaseWrite_running ready runs, nofun, fun _ =>
      ⟨ringError_ring (g := Ring.errCause) fun _ _ => rfl, ringError_ring (g := Ring.slots) fun _ _ => rfl⟩⟩

/-! ## Reading a slot (R390, R399, R400) -/

theorem resultSlotRead_returns {k : Nat} (inv : s.Inv) (hk : k ≤ 127) :
    Answers (.resultSlotRead v k) s fun t =>
      t.rdata = leNat (slotHeader k ((ringOf s v).slots.getD k Slot.fresh))
        ∧ (((ringOf s v).slots.getD k Slot.fresh).ready = true → ((ringOf t v).slots.getD k Slot.fresh).readCount
            = satInc 4 ((ringOf s v).slots.getD k Slot.fresh).readCount) := by
  have slots := (ring_ok inv v).slots
  refine ⟨_, congrArg Host.Outcome.next (if_neg ?_), rfl, fun ended => ?_⟩
  · simp [ready, hk]
  · rw [if_pos ended]
    have kept {x : Nat} {u : State} : ringOf (returns x u) v = ringOf u v := ringOf_congr rfl
    rw [kept, ringOf_onRing_self, put_getD_self (by omega)]

end Ready

/-! ## Exchange memory (R389, R400) -/

section Buffer
variable {off n : Nat} {bs : Bytes}

/-- One word of a buffer write. -/
def bufferWord (g : Ring) (off : Nat) (bs : Bytes) : Ring :=
  if overlapsClaim g 128 off 4 then g else { g with mem := memWriteN g.mem off bs }

theorem bufferWords_succ : bufferWords g off (n + 1) bs = bufferWords (bufferWord g off (bs.take 4)) (off + 4) n (bs.drop 4) := rfl

theorem bufferWord_slots : (bufferWord g off bs).slots = g.slots := by
  unfold bufferWord
  split
  · rfl
  · rfl

/-- Claims are read off the slots alone. -/
theorem overlapsClaim_congr {g' : Ring} {tag a k : Nat} (slots : g'.slots = g.slots) :
    overlapsClaim g' tag a k = overlapsClaim g tag a k := by rw [overlapsClaim, overlapsClaim, slots]

/-- A word writes its four bytes at most. -/
theorem bufferWord_keeps (wf : memWf g.mem = true) (word : bs.length ≤ 4) :
    MemKeeps (fun x => x < off ∨ off + 4 ≤ x) g.mem (bufferWord g off bs).mem := by
  unfold bufferWord
  split
  · exact MemKeeps.rfl wf
  · exact (MemKeeps.rfl wf).put fun x outside => by omega

/-- The words of a buffer write lie in its range. -/
theorem bufferWords_keeps (wf : memWf g.mem = true) :
    MemKeeps (fun x => x < off ∨ off + 4 * n ≤ x) g.mem (bufferWords g off n bs).mem := by
  induction n generalizing g off bs with
  | zero => exact MemKeeps.rfl wf
  | succ n ih =>
    have first := bufferWord_keeps (off := off) wf (List.length_take_le 4 bs)
    have rest := ih (off := off + 4) (bs := bs.drop 4) first.wf
    exact ⟨rest.wf, fun x outside => (rest.reads x (by omega)).trans (first.reads x (by omega))⟩

/-- Each word is written where no claim overlaps it, and stays where one does. -/
theorem bufferWords_word (wf : memWf g.mem = true) (whole : bs.length = 4 * n) {i : Nat} (hi : i < n) :
    memReadN (bufferWords g off n bs).mem (off + 4 * i) 4
      = if overlapsClaim g 128 (off + 4 * i) 4 then memReadN g.mem (off + 4 * i) 4 else (bs.drop (4 * i)).take 4 := by
  induction n generalizing g off bs i with
  | zero => omega
  | succ n ih =>
    have first := bufferWord_keeps (off := off) wf (List.length_take_le 4 bs)
    rw [bufferWords_succ]
    cases i with
    | zero =>
      have later := bufferWords_keeps (off := off + 4) (n := n) (bs := bs.drop 4) first.wf
      have word : (bs.take 4).length = 4 := by simp; omega
      refine (memReadN_congr fun x _ below => later.reads x (by omega)).trans ?_
      unfold bufferWord
      simp only [Nat.mul_zero, Nat.add_zero, List.drop_zero]
      split
      · rfl
      · have same := memReadN_writeN_same (a := off) (bs := bs.take 4) wf
        rwa [word] at same
    | succ i =>
      have shift : off + 4 * (i + 1) = off + 4 + 4 * i := by omega
      rw [shift, ih first.wf (by simp; omega) (by omega), overlapsClaim_congr bufferWord_slots, List.drop_drop,
        show 4 + 4 * i = 4 * (i + 1) by omega, memReadN_congr fun x above _ => first.reads x (by omega)]

theorem bufferWrite_writes {a : Nat} {b : Bytes} (inv : s.Inv) (ready : sideReady s v = true) (start : a % 4 = 0)
    (whole : b.length % 4 = 0) (some' : b ≠ []) (most : b.length ≤ 4096) (inside : a + b.length ≤ halfSize) :
    Answers (.bufferWrite v a b) s fun t =>
      (∀ i, 4 * i < b.length → overlapsClaim (ringOf s v) 128 (a + 4 * i) 4 = false →
        memReadN (ringOf t v).mem (a + 4 * i) 4 = (b.drop (4 * i)).take 4)
      ∧ (∀ i, 4 * i < b.length → overlapsClaim (ringOf s v) 128 (a + 4 * i) 4 = true →
        memReadN (ringOf t v).mem (a + 4 * i) 4 = memReadN (ringOf s v).mem (a + 4 * i) 4)
      ∧ (∀ x, x < a ∨ a + b.length ≤ x → memRead (ringOf t v).mem x = memRead (ringOf s v).mem x) := by
  obtain ⟨-, -, -, wf⟩ := ring_ok inv v
  have words : b.length = 4 * (b.length / 4) := by omega
  have count : b.length ≠ 0 := fun none => some' (List.eq_nil_of_length_eq_zero none)
  have ring : ringOf (onRing v (fun g => bufferWords g a (b.length / 4) b) s) v = bufferWords (ringOf s v) a (b.length / 4) b :=
    ringOf_onRing_self
  refine ⟨_, congrArg Host.Outcome.next (if_neg ?_), ?_⟩
  · simp only [ready, Bool.true_eq_false, false_or]
    omega
  · dsimp only
    rw [ring]
    refine ⟨fun i hi free => ?_, fun i hi claimed => ?_, fun x outside => ?_⟩
    · exact (bufferWords_word wf words (by omega)).trans (if_neg (by simp [free]))
    · exact (bufferWords_word wf words (by omega)).trans (if_pos claimed)
    · exact (bufferWords_keeps wf).reads x (by omega)

end Buffer

/-! ## Consuming descriptors (R395, R396, R398) -/

/-- The free-running indices of a ring (R395). -/
def indices (g : Ring) : Nat × Nat := (g.head, g.tail)

theorem indices_completeSlot {tag sts detail ts : Nat} {bs : Bytes} : indices (completeSlot tag sts detail ts bs g) = indices g := by
  unfold completeSlot
  dsimp only
  split
  · split
    · rfl
    · rfl
  · rfl

theorem indices_post {r : Req} {sts detail : Nat} {bs : Bytes} :
    indices (ringOf (post r sts detail bs s) v) = indices (ringOf s v) := by
  by_cases own : v = r.side
  · rw [own, ringOf_post, indices_completeSlot]
  · rw [ringOf_post_ne own]

/-- A new command ends a sleep entry and wakes nothing else (R377). -/
theorem wakeBy_command : wakeBy 0 true s = match s.sys.entry with
    | some e => abandonSleep e 0 s
    | none => s := by
  unfold wakeBy
  cases s.sys.entry with
  | some e => rfl
  | none =>
    dsimp only
    split
    · rfl
    · split
      · exact if_pos (Nat.zero_and _)
      · exact if_pos (Nat.zero_and _)
      · rfl

theorem indices_abandonSleep {e : SleepEntry} {k : Nat} : indices (ringOf (abandonSleep e k s) v) = indices (ringOf s v) := by
  unfold abandonSleep endEntry
  rw [indices_post, ringOf_congr logEv_hsi]
  rfl

theorem indices_wakeBy_command : indices (ringOf (wakeBy 0 true s) v) = indices (ringOf s v) := by
  rw [wakeBy_command]
  split
  · exact indices_abandonSleep
  · rfl

/-- The descriptor at the head, whatever becomes of it, moves the head on by one. -/
theorem indices_consumeDesc :
    indices (ringOf (consumeDesc v s) v) = (((ringOf s v).head + 1) % 256, (ringOf s v).tail) := by
  have moved {u : State} : indices (ringOf (onRing v (fun g => { g with head := (g.head + 1) % 256 }) u) v)
      = (((ringOf u v).head + 1) % 256, (ringOf u v).tail) := by rw [ringOf_onRing_self]; rfl
  have accepted {d : Desc} {ok : Bool} {bs : Bytes} {u : State} :
      indices (ringOf (onRing v (acceptSlot d ok bs) u) v) = indices (ringOf u v) := by rw [ringOf_onRing_self]; rfl
  unfold consumeDesc
  extract_lets g d next sts bs
  split
  · exact moved
  · split
    · exact (ringError_ring (g := indices) fun _ _ => rfl).trans moved
    · split
      · exact indices_wakeBy_command.trans (accepted.trans moved)
      · rw [ringOf_onRing_self, indices_completeSlot]
        exact accepted.trans moved

theorem indices_consumeDescs {n : Nat} (head : (ringOf s v).head < 256) :
    indices (ringOf (consumeDescs n v s) v) = (((ringOf s v).head + n) % 256, (ringOf s v).tail) := by
  induction n generalizing s with
  | zero =>
    rw [Nat.add_zero, Nat.mod_eq_of_lt head]
    rfl
  | succ n ih =>
    obtain ⟨head', tail'⟩ := Prod.mk.inj (indices_consumeDesc (s := s) (v := v))
    have rest := ih (s := consumeDesc v s) (by omega)
    rw [head', tail'] at rest
    refine rest.trans (congrArg (·, (ringOf s v).tail) ?_)
    omega

theorem indices_noteSpace : indices (noteSpace g) = indices g := by
  unfold noteSpace
  split
  · rfl
  · rfl

/-- A new tail, of a ring that `n` more descriptors fill or not. -/
def withTail (tail n : Nat) (g : Ring) : Ring := { g with tail := tail, wasFull := g.wasFull || n == 128 }

/-- The new descriptors of a write of HSI_x_CTAIL. -/
def newDescs (s : State) (v : Side) (x : Word) : Nat := (x.toNat % 256 + 256 - (ringOf s v).head) % 256

section Tail
variable {x : Word} (ready : sideReady s v = true)
include ready

theorem exec_ctailWrite_within (most : newDescs s v x ≤ 128) :
    exec (.ctailWrite v x) s = .next (onRing v noteSpace
      (consumeDescs (newDescs s v x) v (onRing v (withTail (x.toNat % 256) (newDescs s v x)) s))) :=
  congrArg Host.Outcome.next ((sideReady_true ready).trans (if_neg (Nat.not_lt.mpr most)))

theorem exec_ctailWrite_beyond (more : 128 < newDescs s v x) : exec (.ctailWrite v x) s = .next (ringError v 1 0 0 s) :=
  congrArg Host.Outcome.next ((sideReady_true ready).trans (if_pos more))

theorem ctailWrite_consumes (inv : s.Inv) :
    Answers (.ctailWrite v x) s fun t =>
      ((x.toNat % 256 + 256 - (ringOf s v).head) % 256 ≤ 128 →
        (ringOf t v).tail = x.toNat % 256 ∧ (ringOf t v).head = x.toNat % 256)
      ∧ (128 < (x.toNat % 256 + 256 - (ringOf s v).head) % 256 →
        (ringOf t v).errCause = 1 ∧ (ringOf t v).irqRerr = true ∧ (ringOf t v).head = (ringOf s v).head) := by
  obtain ⟨-, head, -, -⟩ := ring_ok inv v
  rcases Nat.lt_or_ge 128 (newDescs s v x) with more | most
  · exact ⟨_, exec_ctailWrite_beyond ready more, fun within => absurd more (Nat.not_lt.mpr within), fun _ =>
      ⟨ringError_ring (g := Ring.errCause) fun _ _ => rfl, ringError_ring (g := Ring.irqRerr) fun _ _ => rfl,
        ringError_ring (g := Ring.head) fun _ _ => rfl⟩⟩
  · refine ⟨_, exec_ctailWrite_within ready most, fun _ => ?_, fun beyond => absurd beyond (Nat.not_lt.mpr most)⟩
    have taken : ringOf (onRing v (withTail (x.toNat % 256) (newDescs s v x)) s) v = withTail (x.toNat % 256) (newDescs s v x) (ringOf s v) :=
      ringOf_onRing_self
    have consumed := indices_consumeDescs (n := newDescs s v x)
      (s := onRing v (withTail (x.toNat % 256) (newDescs s v x)) s) (v := v) (taken ▸ head)
    rw [taken] at consumed
    rw [ringOf_onRing_self]
    obtain ⟨head', tail'⟩ := Prod.mk.inj (indices_noteSpace.trans consumed)
    refine ⟨tail', head'.trans ?_⟩
    show ((ringOf s v).head + newDescs s v x) % 256 = _
    unfold newDescs
    omega

end Tail

/-! ### One descriptor that is accepted (R396, R400) -/

/-- The parameter bytes of a command (R394). -/
def descParams (g : Ring) (d : Desc) : Bytes := if d.plen = 0 then d.arg.take d.ilen else memReadN g.mem d.poff d.plen

/-- A descriptor that passes the checks of R398, for an idle tag: its slot runs and it is in flight. -/
theorem consumeDesc_accepts {d : Desc} (at' : d = readDesc ((ringOf s v).desc.getD ((ringOf s v).head % 128) []))
    (tag : d.tag ≤ 127) (idle : ((ringOf s v).slots.getD d.tag Slot.fresh).running = false)
    (passes : descStatus s (ringOf s v) d = stsOk) (entry : s.sys.entry = none) : ∃ y : Slot,
      (ringOf (consumeDesc v s) v).slots = put (ringOf s v).slots d.tag y ∧ y.running = true ∧ y.code = d.code
        ∧ y.gen = (((ringOf s v).slots.getD d.tag Slot.fresh).gen + 1) % 65536
        ∧ (ringOf (consumeDesc v s) v).flight
          = (ringOf s v).flight ++ [{ tag := d.tag, code := d.code, params := descParams (ringOf s v) d }] := by
  have checked {f : Ring → Ring} : descStatus (onRing v f s) (ringOf s v) d = stsOk := passes
  have runs : consumeDesc v s = onRing v (acceptSlot d true (descParams (ringOf s v) d))
      (onRing v (fun g => { g with head := (g.head + 1) % 256 }) s) := by
    have awake {f g : Ring → Ring} : (onRing v f (onRing v g s)).sys.entry = none := entry
    unfold consumeDesc
    dsimp only
    rw [← at', if_neg (Nat.not_lt.mpr tag), if_neg (ne_true_of_eq_false idle), checked, if_pos rfl, wakeBy_command, awake]
    rfl
  rw [runs, ringOf_onRing_self, ringOf_onRing_self]
  exact ⟨_, rfl, rfl, rfl, rfl, rfl⟩

/-- The space note touches neither slots nor commands. -/
theorem noteSpace_work : (noteSpace g).slots = g.slots ∧ (noteSpace g).flight = g.flight := by
  unfold noteSpace
  split
  · exact ⟨rfl, rfl⟩
  · exact ⟨rfl, rfl⟩

theorem ctailWrite_accepts {x : Word} {d : Desc} (inv : s.Inv) (ready : sideReady s v = true) (entry : s.sys.entry = none)
    (one : x.toNat % 256 = ((ringOf s v).head + 1) % 256)
    (at' : d = readDesc ((ringOf s v).desc.getD ((ringOf s v).head % 128) [])) (tag : d.tag ≤ 127)
    (idle : ((ringOf s v).slots.getD d.tag Slot.fresh).running = false) (passes : descStatus s (ringOf s v) d = stsOk) :
    Answers (.ctailWrite v x) s fun t =>
      ((ringOf t v).slots.getD d.tag Slot.fresh).running = true ∧ ((ringOf t v).slots.getD d.tag Slot.fresh).code = d.code
        ∧ ((ringOf t v).slots.getD d.tag Slot.fresh).gen = (((ringOf s v).slots.getD d.tag Slot.fresh).gen + 1) % 65536
        ∧ ∃ f ∈ (ringOf t v).flight, f.tag = d.tag ∧ f.code = d.code := by
  have slots := (ring_ok inv v).slots
  obtain ⟨-, head, -, -⟩ := ring_ok inv v
  have single : newDescs s v x = 1 := by unfold newDescs; omega
  have taken : ringOf (onRing v (withTail (x.toNat % 256) 1) s) v = withTail (x.toNat % 256) 1 (ringOf s v) := ringOf_onRing_self
  obtain ⟨y, written, running, code, gen, flight⟩ := consumeDesc_accepts (v := v) (s := onRing v (withTail (x.toNat % 256) 1) s)
    (by rw [taken]; exact at') tag (by rw [taken]; exact idle) (by rw [taken]; exact passes) entry
  rw [taken] at written gen flight
  have once {u : State} : consumeDescs 1 v u = consumeDesc v u := rfl
  obtain ⟨slots', flight'⟩ := noteSpace_work (g := ringOf (consumeDesc v (onRing v (withTail (x.toNat % 256) 1) s)) v)
  have slot : (put (ringOf s v).slots d.tag y).getD d.tag Slot.fresh = y := put_getD_self (by omega)
  refine ⟨_, exec_ctailWrite_within ready (by omega), ?_⟩
  dsimp only
  rw [single, once, ringOf_onRing_self, slots', flight', written, flight]
  show ((put (ringOf s v).slots d.tag y).getD d.tag Slot.fresh).running = true
    ∧ ((put (ringOf s v).slots d.tag y).getD d.tag Slot.fresh).code = d.code
    ∧ ((put (ringOf s v).slots d.tag y).getD d.tag Slot.fresh).gen = _ ∧ _
  rw [slot]
  exact ⟨running, code, gen, _, List.mem_append_right _ (List.mem_singleton_self _), rfl, rfl⟩

/-! ## Commands of the dispatcher (R396, R397) -/

theorem badgerCommandTimeout_posts {r : Req} (waits : ((ringOf s r.side).flight.any fun f =>
      f.tag == r.tag && (cmdRow f.code).any fun row => row.who == .badger) = true) :
    Answers (.badgerCommandTimeout r) s fun t => Posted t r stsTimeout [] :=
  ⟨_, congrArg Host.Outcome.next (if_pos waits), rfl⟩

theorem hsiNop_posts {r : Req} {b : Bytes} (most : b.length ≤ 8192) :
    Answers (.hsiNop r b) s fun t => Posted t r stsOk b := by
  have sized : firstFail [(decide (8192 < b.length), stsLengthRange)] = stsOk :=
    firstFail_cons_false (decide_eq_false (Nat.not_lt.mpr most))
  exact ⟨_, congrArg Host.Outcome.next (guarded_ok sized), rfl⟩

/-- Settles O40: each command is one update of a ring, of its slots or of its half of exchange memory; the descriptors of a tail
are consumed one by one, each moving the head. -/
theorem hostInterfaceCommandsEffect : Obligations.HostInterfaceCommandsEffect := by
  unfold Obligations.HostInterfaceCommandsEffect
  exact ⟨fun _ _ _ inv ready => ctailWrite_consumes ready inv,
    fun _ _ _ _ inv ready entry one at' tag idle passes => ctailWrite_accepts inv ready entry one at' tag idle passes,
    fun _ _ _ inv ready => hsiReleaseWrite_releases ready inv,
    fun _ _ _ inv ready hk => resultSlotRead_returns ready inv hk,
    fun _ _ _ _ inv ready start whole some' most inside => bufferWrite_writes inv ready start whole some' most inside,
    fun _ ready => ⟨fun _ row late read => ⟨_, exec_hsiTransactionError_late ready row late read, rfl⟩,
      fun _ => exec_hsiTransactionError_sound ready,
      fun _ row => ⟨_, exec_hsiTransactionError_faulty ready rfl (by omega), linkFault_counts_length row, linkFault_raises⟩,
      fun _ row => ⟨_, exec_hsiTransactionError_faulty ready row (by decide), linkFault_counts_crc, linkFault_raises⟩,
      fun _ row => ⟨_, exec_hsiTransactionError_faulty ready rfl (by omega), linkFault_counts_abort (by omega), linkFault_raises⟩,
      hsiFrameTimeout_counts ready⟩,
    fun _ _ waits => badgerCommandTimeout_posts waits,
    fun _ _ _ most => hsiNop_posts most⟩

end Sys2Proof.Machine
end

section
/-! PROOFS. The statement of 16_supplies_reset_holdup.md on requested resets: what a refused request leaves, the kind of a
reset asserted, and the retention contents after the boot of a cold one (R419, R420, R429). -/

namespace Sys2Proof.Machine

-- One proof after the other, as in Sys2Proof/Tests/Slice0.lean: in parallel, their stacks pass the check's memory limit.
set_option Elab.async false

variable {s t : State}

/-! ## Requests and assertions -/

/-- A request with KIND 2 is taken in MAINTENANCE alone. -/
theorem rstreqWrite_cold_refused {w : Nat} (kind : field w 1 0 = 2) (mode : s.sys.mode ≠ .maintenance) :
    rstreqWrite w s = s := by
  unfold rstreqWrite
  rw [if_neg (c := field w 1 0 = 1) (by omega), if_neg (c := _ ∧ _) fun h => mode h.2, ite_self]

/-- A reset asserted as cold is held as cold, whatever reset it joins. -/
theorem assertReset_cold {c : Nat} {pin : Bool} : ∃ h, (assertReset true c pin s).sys.reset = some h ∧ h.cold = true := by
  refine ⟨_, rfl, ?_⟩
  cases s.sys.reset with
  | some h => exact Bool.or_true h.cold
  | none => rfl

/-! ## What a cold boot does not find -/

/-- Retention holds no guard proof, and no lane counts a strike. -/
structure Forgotten (s : State) : Prop where
  proof : s.owl.proof.ok = false
  strikes : ∀ l ∈ s.lane.lanes, l.strikes = 0

/-- An operation whose law lists neither Owl's part nor the lanes'. -/
theorem Forgotten.law (q : Forgotten s) (w : List Part) (f : listed w w = true → Same w s s → Same w s t)
    (hw : (!w.contains .owl && !w.contains .lane) = true := by rfl) : Forgotten t := by
  simp only [Bool.and_eq_true, Bool.not_eq_true'] at hw
  obtain ⟨ho, hl⟩ := hw
  have owl : t.owl = s.owl := part_of_law .owl f ho
  have lane : t.lane = s.lane := part_of_law .lane f hl
  exact ⟨owl ▸ q.proof, lane ▸ q.strikes⟩

theorem forgotten_ite {c : Prop} [Decidable c] {x y : State} (hx : Forgotten x) (hy : Forgotten y) :
    Forgotten (if c then x else y) := by
  split
  · exact hx
  · exact hy

theorem forgotten_foldl {α : Type} {f : State → α → State} {l : List α} (q : Forgotten s)
    (hf : ∀ s x, Forgotten s → Forgotten (f s x)) : Forgotten (l.foldl f s) := by
  induction l generalizing s with
  | nil => exact q
  | cons x l ih => exact ih (hf s x q)

theorem forgotten_onOwl {f : OwlBlock → OwlBlock} (q : Forgotten s) (hf : (f s.owl).proof = s.owl.proof) :
    Forgotten (onOwl f s) := ⟨hf ▸ q.proof, q.strikes⟩

theorem forgotten_logEv {c : EvClass} {b i k : Nat} {d : List (Nat × Nat)} (q : Forgotten s) : Forgotten (logEv c b i k d s) :=
  q.law [.log] (same_logEv c b i k d)

theorem forgotten_onKey {f : KeyBlock → KeyBlock} (q : Forgotten s) : Forgotten (onKey f s) := ⟨q.proof, q.strikes⟩
theorem forgotten_onSys {f : SysBlock → SysBlock} (q : Forgotten s) : Forgotten (onSys f s) := ⟨q.proof, q.strikes⟩
theorem forgotten_onStr {f : StrBlock → StrBlock} (q : Forgotten s) : Forgotten (onStr f s) := ⟨q.proof, q.strikes⟩

/-! ### The lanes of the structure -/

theorem forgotten_onLaneBlk {f : LaneBlock → LaneBlock} (q : Forgotten s) (hf : (f s.lane).lanes = s.lane.lanes) :
    Forgotten (onLaneBlk f s) := ⟨q.proof, hf ▸ q.strikes⟩

/-- An update of one lane that leaves its strikes. -/
theorem forgotten_onLane {n : Nat} {f : Lane → Lane} (q : Forgotten s) (hf : ∀ l, (f l).strikes = l.strikes) :
    Forgotten (onLane n f s) := by
  refine ⟨q.proof, fun l hl => ?_⟩
  have kept : (onLane n f s).lane.lanes.map (·.strikes) = s.lane.lanes.map (·.strikes) := map_upd_of_keeps hf
  have counted := List.mem_map_of_mem (f := fun l : Lane => l.strikes) hl
  rw [kept] at counted
  obtain ⟨l', hl', same⟩ := List.mem_map.mp counted
  exact same ▸ q.strikes l' hl'

/-- A structure starts a lane with the strikes it had (R420). -/
theorem strikes_startLane {small : Bool} {b : Struct} {n : Nat} {l : Lane} : (startLane small b n l).strikes = l.strikes := by
  unfold startLane
  dsimp only
  split
  · rfl
  · split
    · rfl
    · split <;> rfl

theorem forgotten_releaseSpare {m : Nat} (q : Forgotten s) : Forgotten (releaseSpare m s) := forgotten_onLane q fun _ => rfl

theorem forgotten_cutWarm {a b : Struct} {x : Warmup} (q : Forgotten s) : Forgotten (cutWarm a b x s) := by
  have cut {f : LaneBlock → LaneBlock} (hf : (f s.lane).lanes = s.lane.lanes) :
      Forgotten (if laneChanged a b x.spare then onLaneBlk f s else releaseSpare x.spare (onLaneBlk f s)) :=
    forgotten_ite (forgotten_onLaneBlk q hf) (forgotten_releaseSpare (forgotten_onLaneBlk q hf))
  exact forgotten_ite (forgotten_ite (cut rfl) (forgotten_onLaneBlk (cut rfl) rfl)) q

theorem forgotten_startLanes {a b : Struct} (q : Forgotten s) : Forgotten (startLanes a b s) := by
  have cut := forgotten_foldl (l := s.lane.warm) (f := fun s x => cutWarm a b x s) q fun _ _ => forgotten_cutWarm
  refine ⟨cut.proof, fun l hl => ?_⟩
  simp only [startLanes, onLaneBlk_lane, List.mem_mapIdx] at hl
  obtain ⟨n, hn, rfl⟩ := hl
  have old := cut.strikes _ (List.getElem_mem hn)
  split
  · exact strikes_startLane.trans old
  · exact old

theorem forgotten_startWarmup {m n : Nat} (q : Forgotten s) : Forgotten (startWarmup m n s) := by
  unfold startWarmup
  refine forgotten_onLaneBlk (forgotten_onLane (forgotten_onLane (forgotten_onLane q ?_) ?_) ?_) rfl
  all_goals exact fun _ => rfl

theorem forgotten_serveQueue (q : Forgotten s) : Forgotten (serveQueue s) := by
  unfold serveQueue
  split
  · exact forgotten_ite (forgotten_startWarmup (forgotten_onLaneBlk q rfl)) q
  · exact q

theorem forgotten_connectSpare {r : SubstRec} (q : Forgotten s) : Forgotten (connectSpare r s) :=
  forgotten_onLane (forgotten_onLane (forgotten_onStr q) fun _ => rfl) fun _ => rfl

theorem forgotten_restartLane {n : Nat} (q : Forgotten s) : Forgotten (restartLane n s) :=
  forgotten_onLane q fun _ => strikes_startLane

theorem forgotten_discardSubst {r : SubstRec} {c : Nat} (q : Forgotten s) : Forgotten (discardSubst r c s) := by
  have dropped : Forgotten (dropWarm r.lane s) := by
    unfold dropWarm
    split
    · exact forgotten_releaseSpare q
    · exact q
  unfold discardSubst
  refine forgotten_logEv (Forgotten.law ?restarted [.met] fun hw h => same_onMet hw h)
  exact forgotten_restartLane (forgotten_restartLane (forgotten_onLaneBlk (forgotten_onStr dropped) rfl))

theorem forgotten_judgeSwaps {boot : Bool} (q : Forgotten s) : Forgotten (judgeSwaps boot s) :=
  forgotten_serveQueue (forgotten_foldl q fun _ _ q =>
    forgotten_ite (forgotten_ite (forgotten_connectSpare q) q) (forgotten_discardSubst q))

/-! ### The life cycle's wipes -/

theorem forgotten_changeEntry {k src old new : Nat} {d d' : Bytes} (q : Forgotten s) :
    Forgotten (changeEntry k src old new d d' s) := forgotten_logEv (forgotten_onOwl q rfl)

theorem forgotten_wipeClass {r : Bool} (q : Forgotten s) : Forgotten (wipeClass r s) := by
  unfold wipeClass
  refine forgotten_ite (forgotten_changeEntry ?wiped) ?wiped
  refine forgotten_onOwl (forgotten_onOwl (Forgotten.law ?cleared [.tag] same_wipeCache) rfl) rfl
  refine Forgotten.law (forgotten_onKey ?seed) [.upd] fun hw h => same_onUpd hw h
  exact forgotten_ite (forgotten_onKey q) (q.law [.key, .freeCtr] same_freshSeed)

theorem forgotten_decideLc (q : Forgotten s) : Forgotten (decideLc s) := by
  unfold decideLc
  refine forgotten_ite (forgotten_onKey q) (forgotten_ite (forgotten_logEv (forgotten_onKey q))
    (forgotten_ite (forgotten_logEv (forgotten_onKey ?_)) (forgotten_onKey q)))
  exact forgotten_ite (forgotten_onKey q) (forgotten_wipeClass (forgotten_onKey q))

theorem forgotten_transition {new : Lc} {o r : Bytes} {op c : Nat} (q : Forgotten s) : Forgotten (transition new o r op c s) := by
  unfold transition
  refine forgotten_onSys (forgotten_logEv (forgotten_onOwl (forgotten_onKey ?ended) rfl))
  refine forgotten_ite (forgotten_onKey ?record) ?record
  refine forgotten_onKey (forgotten_ite (forgotten_wipeClass (forgotten_onKey ?saved)) (forgotten_onKey ?saved))
  exact forgotten_ite (q.law [.met] (same_capture 1 (outletMask s) 0 (nowTs s) [] none)) q

theorem forgotten_returnIfDue (q : Forgotten s) : Forgotten (returnIfDue s) :=
  forgotten_ite (forgotten_ite (forgotten_transition q) q) q

/-! ### The structure and Owl -/

theorem forgotten_startBlocks {a b : Struct} (q : Forgotten s) : Forgotten (startBlocks a b s) := by
  unfold startBlocks
  refine forgotten_onOwl (Forgotten.law ?notch [.glk, .key, .log, .sram] same_glkGate) rfl
  refine forgotten_ite ?leds (Forgotten.law ?leds [.glk] same_reestimateAll)
  refine forgotten_ite (Forgotten.law ?panel [.epd] fun hw h => same_onEpd hw h) ?panel
  refine forgotten_ite (Forgotten.law ?reader [.epd, .log, .freeCtr] same_startEpd)
    (forgotten_ite (Forgotten.law ?reader [.epd] fun hw h => same_onEpd hw h) ?reader)
  refine forgotten_ite (Forgotten.law ?can [.tag] fun hw h => same_onTag hw h)
    (forgotten_ite (Forgotten.law ?can [.tag] fun hw h => same_onTag hw h) ?can)
  refine forgotten_foldl ?mac fun s c q => forgotten_ite (q.law [.can] fun hw h => same_onCan hw h) q
  refine forgotten_ite (Forgotten.law ?modem [.eth] fun hw h => same_onEth hw h) ?modem
  exact forgotten_ite ((q.law [.glk] (same_dropMember .off)).law [.glk] fun hw h => same_onGlk hw h) q

theorem forgotten_startOutlets {a b : Struct} (q : Forgotten s) : Forgotten (startOutlets a b s) := ⟨q.proof, q.strikes⟩

theorem forgotten_installStruct {c : Nat} {b : Struct} (q : Forgotten s) : Forgotten (installStruct c b s) := by
  have running := forgotten_startOutlets (a := s.str.cur) (b := b) (forgotten_startLanes (a := s.str.cur) (b := b)
    (forgotten_onStr (f := fun x => { x with cur := b, copyInUse := c + 1, noStruct := false, locked := true }) q))
  have linked := (running.law [.pwr] (same_startChannels s.str.cur b)).law [.vlk] (same_startLinks s.str.cur b)
  exact (forgotten_startBlocks linked).law [.glk] same_zcCheck

theorem forgotten_bootStructure {adopted : Bool} (q : Forgotten s) : Forgotten (bootStructure adopted s) := by
  have settled := q.law [.str] (same_settleTrials adopted)
  have examined := settled.law [.str, .log] (same_examine (bootOrder (settleTrials adopted s)))
  unfold bootStructure
  dsimp only
  split
  next t c h =>
    rw [h] at examined
    exact (forgotten_judgeSwaps (forgotten_onStr (forgotten_installStruct examined))).law [.log] same_limpIgnored
  next t h =>
    rw [h] at examined
    exact forgotten_logEv (forgotten_onStr examined)

theorem forgotten_cfgCheck {x y : Bool} (q : Forgotten s) : Forgotten (cfgCheck x y s) :=
  forgotten_ite (forgotten_changeEntry (forgotten_logEv (forgotten_onOwl q rfl)))
    (forgotten_ite (forgotten_logEv (forgotten_onOwl q rfl)) q)

/-- The safe-state line gives up releases and requests, and keeps the proof. -/
theorem forgotten_lineDrop (q : Forgotten s) : Forgotten (lineDrop s) := by
  have lane : (lineDrop s).lane = s.lane := part_of_law .lane same_lineDrop rfl
  have beyond : beyondLine (lineDrop s).owl = beyondLine s.owl := beyondLine_lineDrop
  have proof : (lineDrop s).owl.proof = s.owl.proof := by injection beyond
  exact ⟨proof ▸ q.proof, lane ▸ q.strikes⟩

theorem forgotten_diagFail {d x : Nat} (q : Forgotten s) : Forgotten (diagFail d x s) := by
  have failed {f : OwlBlock → OwlBlock} (hf : ∀ b, (f b).proof = b.proof) :
      Forgotten (onOwl f (logEv .safety 0x0A 0xFF 0x0A02 [(1, d), (1, x)] s)) := forgotten_onOwl (forgotten_logEv q) (hf _)
  exact forgotten_lineDrop (forgotten_ite (forgotten_logEv (failed fun _ => rfl)) (failed fun _ => rfl))

theorem forgotten_owlLoad {d : Nat} (q : Forgotten s) : Forgotten (owlLoad d s) :=
  forgotten_ite (forgotten_ite (forgotten_diagFail (forgotten_cfgCheck q)) (forgotten_cfgCheck q)) (forgotten_cfgCheck q)

/-! ### The boot of a cold reset -/

theorem Forgotten.laneOf (q : Forgotten s) (n : Nat) : (laneOf s n).strikes = 0 := by
  by_cases h : n < s.lane.lanes.length
  · rw [Machine.laneOf, List.getD_eq_getElem _ _ h]
    exact q.strikes _ (List.getElem_mem h)
  · rw [Machine.laneOf, List.getD_eq_default _ _ (Nat.le_of_not_lt h)]
    rfl

/-- The wipe of a cold reset clears Owl's part of retention and every lane (R420). -/
theorem forgotten_wipe {c : Nat} {i : BootInput} : Forgotten (wipe true c i s) := by
  refine ⟨rfl, fun l hl => ?_⟩
  simp only [wipe, keepLanes, List.mem_mapIdx] at hl
  obtain ⟨n, hn, rfl⟩ := hl
  rfl

theorem forgotten_bootCores {h : ResetHold} {i : BootInput} (cold : h.cold = true) : Forgotten (bootCores h i s) := by
  unfold bootCores
  extract_lets was follows s1 s2 s3 s4 s5
  have q1 : Forgotten s1 := by
    unfold s1
    rw [cold]
    exact forgotten_wipe
  have q2 : Forgotten s2 := forgotten_ite (q1.law [.log] (same_logOwlState .halt .start 8)) q1
  have q3 : Forgotten s3 := forgotten_decideLc q2
  have q4 : Forgotten s4 := forgotten_ite ((forgotten_onKey q3).law [.log] same_logRng) q3
  have q5 : Forgotten s5 := (q4.law [.key] same_deriveSlots).law [.glk, .tag, .key, .log, .sram] same_actLatched
  have resolved := (q5.law _ (same_trialStart h.cold follows)).law [.str, .met, .tag, .upd, .log, .freeCtr] same_resolveRecord
  generalize resolveRecord (trialStart h.cold follows s5) = x at resolved ⊢
  obtain ⟨s6, adopted⟩ := x
  dsimp -zeta only at resolved ⊢
  extract_lets seals s7 s8 s9 s10
  have q9 : Forgotten s9 := forgotten_owlLoad (forgotten_onOwl (forgotten_bootStructure resolved) rfl)
  have q10 : Forgotten s10 := (forgotten_ite (q9.law [.met, .bil] same_metStart) q9).law [.bil] same_rebuildReplay
  exact forgotten_ite (q10.law [.met] (same_capture 6 (outletMask s10) 0 (nowTs s10) [] none)) q10

theorem forgotten_bootServices {old : SysBlock} {h : ResetHold} {u : Option Nat} {i : BootInput} (q : Forgotten s) :
    Forgotten (bootServices old h u i s) := by
  unfold bootServices
  extract_lets cause s1 s2 s3 s4 s5 s6 bad
  have q3 : Forgotten s3 := Forgotten.law (s := s2) ⟨q.proof, q.strikes⟩ [.met, .log]
    (same_bootEvents old u (bitAt h.causes causeVbatPor))
  have q5 : Forgotten s5 := (forgotten_onSys (q3.law [.key, .log] same_loadSlots)).law [.log] same_drainRetention
  have q6 : Forgotten s6 := ((q5.law [.sys, .mgt, .log] same_bootMode).law [.bil, .log] same_flushProfile).law _ same_slotsChanged
  exact forgotten_returnIfDue (forgotten_ite (q6.law _ (same_failTrial 1)) q6)

/-- Settles O27: a refused write leaves the state by the branches of `rstreqWrite`, an assertion keeps its kind, and the steps
of a boot write neither the proof nor the strikes that the cold wipe cleared. -/
theorem requestedColdResetIsConfined : Obligations.RequestedColdResetIsConfined := by
  unfold Obligations.RequestedColdResetIsConfined
  refine ⟨?kind, ?key, ?requested, ?pin, ?boot⟩
  case kind => exact fun s w kind mode => congrArg Host.Outcome.next (rstreqWrite_cold_refused kind mode)
  case key => exact fun s w key => congrArg Host.Outcome.next (if_pos (.inl key))
  case requested =>
    intro s k _ asked ready
    obtain ⟨h, held, cold⟩ := assertReset_cold (s := s) (c := k) (pin := false)
    refine ⟨_, ?_, h, held, cold⟩
    show execRequestedReset s = _
    simp only [execRequestedReset, asked, ready, if_true]
  case pin =>
    intro s _
    obtain ⟨h, held, cold⟩ := assertReset_cold (s := s) (c := 2 ^ causeRstnLong) (pin := true)
    refine ⟨_, rfl, ?_⟩
    simp only [if_true, onSys_sys, held]
    exact ⟨_, rfl, cold⟩
  case boot =>
    intro s b h _ reset cold pin held up
    have q : Forgotten (bootServices s.sys h (unsavedSeconds h s) b (bootCores h b s)) :=
      forgotten_bootServices (forgotten_bootCores cold)
    refine ⟨_, exec_boot_released reset pin held up, q.proof, fun n => q.laneOf n⟩

end Sys2Proof.Machine
end

section
/-! PROOFS. The statement of 11_display_lights.md: what each command of the display engine and of the status lights completes
with (R303, R306-R311, R314-R317). -/

namespace Sys2Proof.Machine

-- One proof after the other, as in Sys2Proof/Tests/Slice0.lean: in parallel, their stacks pass the check's memory limit.
set_option Elab.async false

variable {s : State}

/-! ## The temperature band (R306) -/

/-- An evaluation writes the band and TEMP_RANGE of the display. -/
theorem evalBand_epd {α : Type} {g : EpdBlock → α} (free : ∀ b k r, g { b with band := k, tempRange := r } = g b) :
    g (evalBand s).epd = g s.epd := by
  unfold evalBand
  split
  · rfl
  · split
    · exact free _ _ _
    · split
      · rfl
      · show g (logEv _ _ _ _ _ _).epd = _
        rw [logEv_epd]
        exact free _ _ _

theorem evalBand_without_table (h : s.epd.table = none) : evalBand s = s := by simp only [evalBand, h]

/-- A temperature within a band of the table. -/
theorem evalBand_banded {tbl : Bytes} {k : Nat} (table : s.epd.table = some tbl)
    (band : bandOf tbl (if s.epd.tempRange then none else some s.epd.band) (temp6 s) = some k) :
    evalBand s = onEpd (fun b => { b with band := k, tempRange := false }) s := by
  simp only [evalBand, table, band]

/-- So the engine refuses no request. -/
theorem epdRefuses_evalBand_banded {tbl : Bytes} {k : Nat} (table : s.epd.table = some tbl)
    (band : bandOf tbl (if s.epd.tempRange then none else some s.epd.band) (temp6 s) = some k) :
    epdRefuses (evalBand s) = false := by
  rw [evalBand_banded table band]
  simp [epdRefuses, table]

/-! ## Segments and requests (R307-R309) -/

/-- The display's block but for its segments and the requests they serve. -/
def beyondDrives (b : EpdBlock) : EpdBlock := { b with segs := [], reqs := [], superseded := 0 }

theorem of_beyondDrives {α : Type} {g : EpdBlock → α} {b b' : EpdBlock} (free : ∀ b, g (beyondDrives b) = g b)
    (h : beyondDrives b = beyondDrives b') : g b = g b' := by
  rw [← free b, h, free]

/-- A request that completes writes no segment. -/
theorem settleReq_epd {α : Type} {g : EpdBlock → α} {id : Option Nat} {x : Bool}
    (free : ∀ b l n, g { b with reqs := l, superseded := n } = g b) : g (settleReq id x s).epd = g s.epd := by
  unfold settleReq
  split
  · rfl
  · dsimp only
    split
    · split
      · rw [post_epd]
        exact free s.epd _ _
      · exact free s.epd _ _
    · exact free s.epd _ _

theorem segOf_settleReq {id : Option Nat} {x : Bool} {i : Nat} : segOf (settleReq id x s) i = segOf s i :=
  settleReq_epd (g := fun b => b.segs.getD i Segment.fresh) fun _ _ _ => rfl

theorem segs_settleReq {id : Option Nat} {x : Bool} : (settleReq id x s).epd.segs.length = s.epd.segs.length :=
  settleReq_epd (g := fun b => b.segs.length) fun _ _ _ => rfl

theorem beyondDrives_settleReq {id : Option Nat} {x : Bool} : beyondDrives (settleReq id x s).epd = beyondDrives s.epd :=
  settleReq_epd fun _ _ _ => rfl

theorem segOf_onSeg_self {i : Nat} {f : Segment → Segment} (h : i < s.epd.segs.length) :
    segOf (onSeg i f s) i = f (segOf s i) := upd_getD_self h

theorem segOf_onSeg_ne {i j : Nat} {f : Segment → Segment} (h : j ≠ i) : segOf (onSeg i f s) j = segOf s j := upd_getD_ne h

theorem segs_onSeg {i : Nat} {f : Segment → Segment} : (onSeg i f s).epd.segs.length = s.epd.segs.length := upd_length _ _ _

/-- A segment's waiting target given up, and counted as replaced in its request. -/
def dropTarget (i : Nat) (s : State) : State := match (segOf s i).pend with
  | some old => settleReq (some old.2.2) true (onSeg i (fun g => { g with pend := none }) s)
  | none => s

/-- A new target takes the waiting one's place, or is there already. -/
theorem aim_eq {full : Bool} {id : Nat} {p : Nat × Nat} : aim full id s p =
    if (segOf s p.1).flying = false ∧ full = false ∧ (segOf s p.1).state = some p.2
    then settleReq (some id) false (dropTarget p.1 s)
    else onSeg p.1 (fun g => { g with pend := some (p.2, full, id) }) (dropTarget p.1 s) := rfl

theorem segs_dropTarget {i : Nat} : (dropTarget i s).epd.segs.length = s.epd.segs.length := by
  unfold dropTarget
  split
  · rw [segs_settleReq, segs_onSeg]
  · rfl

theorem segOf_dropTarget_ne {i j : Nat} (h : j ≠ i) : segOf (dropTarget i s) j = segOf s j := by
  unfold dropTarget
  split
  · rw [segOf_settleReq, segOf_onSeg_ne h]
  · rfl

theorem state_dropTarget {i : Nat} (h : i < s.epd.segs.length) : (segOf (dropTarget i s) i).state = (segOf s i).state := by
  unfold dropTarget
  split
  · rw [segOf_settleReq, segOf_onSeg_self h]
  · rfl

theorem beyondDrives_dropTarget {i : Nat} : beyondDrives (dropTarget i s).epd = beyondDrives s.epd := by
  unfold dropTarget
  split
  · exact beyondDrives_settleReq
  · rfl

variable {full : Bool} {id : Nat} {p : Nat × Nat}

theorem beyondDrives_aim : beyondDrives (aim full id s p).epd = beyondDrives s.epd := by
  rw [aim_eq]
  split
  · exact beyondDrives_settleReq.trans beyondDrives_dropTarget
  · exact beyondDrives_dropTarget

theorem segs_aim : (aim full id s p).epd.segs.length = s.epd.segs.length := by
  rw [aim_eq]
  split
  · rw [segs_settleReq, segs_dropTarget]
  · rw [segs_onSeg, segs_dropTarget]

theorem segOf_aim_ne {i : Nat} (h : i ≠ p.1) : segOf (aim full id s p) i = segOf s i := by
  rw [aim_eq]
  split
  · rw [segOf_settleReq, segOf_dropTarget_ne h]
  · rw [segOf_onSeg_ne h, segOf_dropTarget_ne h]

/-- A segment that has its target, or shows it. -/
def Aimed (s : State) (p : Nat × Nat) : Prop :=
  (segOf s p.1).pend.map (·.1) = some p.2 ∨ (segOf s p.1).state = some p.2

theorem aimed_aim (h : p.1 < s.epd.segs.length) : Aimed (aim full id s p) p := by
  rw [aim_eq, Aimed]
  split
  next shown =>
    refine .inr ?_
    rw [segOf_settleReq, state_dropTarget h]
    exact shown.2.2
  next =>
    refine .inl ?_
    rw [segOf_onSeg_self (by rw [segs_dropTarget]; exact h)]
    rfl

theorem segOf_aims {l : List (Nat × Nat)} {i : Nat} (h : i ∉ l.map (·.1)) : segOf (l.foldl (aim full id) s) i = segOf s i := by
  induction l generalizing s with
  | nil => rfl
  | cons p l ih =>
    simp only [List.map_cons, List.mem_cons, not_or] at h
    exact (ih h.2).trans (segOf_aim_ne h.1)

/-- A list of targets for different segments reaches each of them. -/
theorem aimed_aims {l : List (Nat × Nat)} (distinct : (l.map (·.1)).Nodup) (there : ∀ p ∈ l, p.1 < s.epd.segs.length) :
    ∀ p ∈ l, Aimed (l.foldl (aim full id) s) p := by
  induction l generalizing s with
  | nil => simp
  | cons p l ih =>
    simp only [List.map_cons, List.nodup_cons] at distinct
    obtain ⟨other, distinct⟩ := distinct
    simp only [List.mem_cons, forall_eq_or_imp] at there ⊢
    refine ⟨?_, ih distinct fun q hq => by rw [segs_aim]; exact there.2 q hq⟩
    have aimed := aimed_aim (full := full) (id := id) there.1
    unfold Aimed at aimed ⊢
    rw [List.foldl_cons, segOf_aims other]
    exact aimed

/-- An accepted request leaves the display but for its drives and the next request's number. -/
theorem acceptUpdate_epd {α : Type} {g : EpdBlock → α} {req : Option Req} {segs targets : List Nat}
    (free : ∀ b n, g { beyondDrives b with nextReq := n } = g b) (drives : ∀ b, g (beyondDrives b) = g b) :
    g (acceptUpdate req segs full targets s).epd = g s.epd := by
  refine Eq.trans ?_ (free s.epd (s.epd.nextReq + 1))
  refine of_beyondDrives drives (beyondDrives_settleReq.trans ?_)
  exact foldl_keeps (g := fun s : State => beyondDrives s.epd) fun _ _ => beyondDrives_aim

/-! ## Requests from rings (R308) -/

section Update
variable {r : Req} {g fl : Nat} {b : Bytes} {x : RegionRec}

/-- An evaluation of the band changes no structure. -/
theorem evalBand_structure : (evalBand s).str = s.str := part_of_law .str same_evalBand rfl

theorem evalBand_mode : (evalBand s).sys.mode = s.sys.mode := by
  have same : Same [.epd, .log, .freeCtr] s (evalBand s) := same_evalBand rfl (same_refl _ s)
  have view := congrArg (fun v : ResetView => v.2.2.2) (same_resetView same rfl)
  exact view

/-- A request for a declared region, of its length, with targets that the table has. -/
theorem exec_epdUpdate (there : epdThere s = true) (region : regionRec s g = some x) (length : b.length = 4 * ((x.segs.length + 15) / 16))
    (targets : ∀ tbl, s.epd.table = some tbl → ∀ y ∈ targetsOf x.segs.length b, y < tblStates tbl) :
    exec (.epdUpdate r g fl b) s = .next (guarded r [(g == 15 || (s.sys.mode == .limp && r.side == .cluster), stsState)]
      (fun s => if epdRefuses s then postSts r stsState (onEpd (fun b => { b with tempRef := satInc 8 b.tempRef }) s)
        else acceptUpdate (some r) x.segs (bitAt fl 0) (targetsOf x.segs.length b) (pend r s)) (evalBand s)) := by
  show execEpdUpdate r g fl b s = _
  have region' : regionRec (evalBand s) g = some x := by rw [regionRec, evalBand_structure]; exact region
  have there' : epdThere (evalBand s) = true := by rw [epdThere, blockBit, evalBand_structure]; exact there
  have table : (evalBand s).epd.table = s.epd.table := evalBand_epd (g := fun b => b.table) fun _ _ _ => rfl
  have known : (s.epd.table.any fun t => (targetsOf x.segs.length b).any fun y => decide (tblStates t ≤ y)) = false := by
    cases h : s.epd.table with
    | none => rfl
    | some tbl => simpa using targets tbl h
  unfold execEpdUpdate guarded
  simp only [there, if_true, there', region', table, Option.map_some, Option.getD_some, known, length, evalBand_mode, firstFail,
    Option.isNone_some, Bool.not_true, Bool.or_false, ne_eq, not_true_eq_false, decide_false, Bool.false_eq_true, if_false]
  rfl

theorem firstFail_served (legal : g ≠ 15) (served : s.sys.mode ≠ .limp ∨ r.side ≠ .cluster) :
    firstFail [(g == 15 || (s.sys.mode == .limp && r.side == .cluster), stsState)] = stsOk := by
  refine firstFail_cons_false ?_
  rcases served with h | h
  · simp [legal, h]
  · simp [legal, h]

theorem epdUpdate_aims {tbl : Bytes} {k : Nat} (inv : s.Inv) (there : epdThere s = true) (region : regionRec s g = some x)
    (legal : g ≠ 15) (length : b.length = 4 * ((x.segs.length + 15) / 16)) (table : s.epd.table = some tbl)
    (targets : ∀ y ∈ targetsOf x.segs.length b, y < tblStates tbl) (served : s.sys.mode ≠ .limp ∨ r.side ≠ .cluster)
    (band : bandOf tbl (if s.epd.tempRange then none else some s.epd.band) (temp6 s) = some k) (distinct : x.segs.Nodup)
    (segs : ∀ i ∈ x.segs, i < 160) :
    Answers (.epdUpdate r g fl b) s fun t => ∀ p ∈ x.segs.zip (targetsOf x.segs.length b), Aimed t p := by
  refine ⟨_, (exec_epdUpdate there region length fun t ht => ?_).trans (congrArg Host.Outcome.next
    ((guarded_ok (firstFail_served legal served)).trans
      (if_neg (ne_true_of_eq_false (epdRefuses_evalBand_banded table band))))), fun p hp => ?_⟩
  · cases table.symm.trans ht
    exact targets
  have long : (evalBand s).epd.segs.length = 160 := by
    obtain ⟨-, -, -, -, -, -, -, -, -, shape, -⟩ := inv
    simp only [EpdBlock.shape, List.cons.injEq] at shape
    exact (evalBand_epd (g := fun b => b.segs.length) fun _ _ _ => rfl).trans shape.1
  have firsts : (x.segs.zip (targetsOf x.segs.length b)).map (·.1) = x.segs :=
    List.map_fst_zip (by simp [targetsOf])
  unfold acceptUpdate Aimed
  dsimp only
  rw [segOf_settleReq]
  refine aimed_aims (by rw [firsts]; exact distinct) (fun q hq => ?_) p hp
  show q.1 < (evalBand s).epd.segs.length
  rw [long]
  exact segs q.1 (List.of_mem_zip hq).1

theorem epdUpdate_without_table (there : epdThere s = true) (region : regionRec s g = some x)
    (legal : g ≠ 15) (length : b.length = 4 * ((x.segs.length + 15) / 16)) (table : s.epd.table = none) :
    ((s.sys.mode ≠ .limp ∨ r.side ≠ .cluster) → Answers (.epdUpdate r g fl b) s fun t =>
      Posted t r stsState [] ∧ t.epd.tempRef = satInc 8 s.epd.tempRef)
    ∧ (s.sys.mode = .limp → r.side = .cluster → Answers (.epdUpdate r g fl b) s fun t =>
      Posted t r stsState [] ∧ t.epd = s.epd) := by
  have run := exec_epdUpdate (r := r) (fl := fl) there region length fun t ht => by simp [table] at ht
  rw [evalBand_without_table table] at run
  refine ⟨fun served => ?_, fun limp cluster => ?_⟩
  · refine ⟨_, run.trans (congrArg Host.Outcome.next ((guarded_ok (firstFail_served legal served)).trans (if_pos ?_))), rfl, rfl⟩
    simp [epdRefuses, table]
  · refine ⟨_, run.trans (congrArg Host.Outcome.next (guarded_posts (firstFail_cons_true ?_) (by decide))), rfl, rfl⟩
    simp [limp, cluster]

end Update

/-! ## Frames (R303, R305, R309, R312) -/

section Frames
variable {t : Bytes} {i j : Nat}

theorem beyondDrives_frameDone : beyondDrives (frameDone t s i).epd = beyondDrives s.epd := by
  unfold frameDone
  dsimp only
  split
  · split
    · rfl
    · split
      · exact beyondDrives_settleReq
      · rfl
  · rfl
  · rfl

/-- A segment at rest stays so: a frame completes waveforms that run. -/
theorem rest_frameDone (rest : (segOf s i).run = none) : (segOf (frameDone t s j) i).run = none := by
  by_cases h : i = j
  · subst h
    simp only [frameDone, rest]
  · unfold frameDone
    dsimp only
    split
    · split
      · rw [segOf_onSeg_ne h]
        exact rest
      · split
        · rw [segOf_settleReq, segOf_onSeg_ne h]
          exact rest
        · rw [segOf_onSeg_ne h]
          exact rest
    · rw [segOf_onSeg_ne h]
      exact rest
    · exact rest

theorem beyondDrives_framesDone :
    beyondDrives (framesDone t s).epd = beyondDrives { s.epd with frames := (s.epd.frames + 1) % 2 ^ 32 } :=
  foldl_keeps (g := fun s : State => beyondDrives s.epd) fun _ _ => beyondDrives_frameDone

theorem frames_framesDone : (framesDone t s).epd.frames = (s.epd.frames + 1) % 2 ^ 32 :=
  of_beyondDrives (g := fun b => b.frames) (fun _ => rfl) beyondDrives_framesDone

theorem rest_framesDone (rest : (segOf s i).run = none) : (segOf (framesDone t s) i).run = none := by
  unfold framesDone
  generalize List.range 160 = l
  have rest' : (segOf (onEpd (fun b => { b with frames := (b.frames + 1) % 2 ^ 32 }) s) i).run = none := rest
  generalize onEpd _ s = s' at rest' ⊢
  induction l generalizing s' with
  | nil => exact rest'
  | cons k l ih => exact ih _ (rest_frameDone rest')

theorem keepJournal_epd {α : Type} {g : EpdBlock → α} {c : Bool} (free : ∀ b j, g { b with journal := j } = g b) :
    g (keepJournal t c s).epd = g s.epd := free _ _

theorem takeTable_epd {α : Type} {g : EpdBlock → α} (free : ∀ b x y, g { b with table := x, tablePend := y } = g b) :
    g (takeTable s).epd = g s.epd := by
  unfold takeTable
  split
  · rfl
  · show g (match s.epd.tablePend with | some n => _ | none => _) = _
    split
    · exact free _ _ _
    · rfl

theorem beyondDrives_startWave {old new : Nat} {l : List Nat} {q : Option Nat} :
    beyondDrives (startWave t i old new l q s).epd = beyondDrives s.epd := by
  unfold startWave
  split
  · dsimp only
    split
    · exact beyondDrives_settleReq
    · rfl
  · rfl

theorem beyondDrives_startSeg : beyondDrives (startSeg t s i).epd = beyondDrives s.epd := by
  unfold startSeg
  dsimp only
  split
  · rfl
  · split
    · exact beyondDrives_startWave
    · split
      · exact beyondDrives_startWave
      · split
        · exact beyondDrives_settleReq
        · exact beyondDrives_startWave
    · rfl

/-- A frame boundary before any waveform starts: the frames done, the band evaluated, a waiting table taken. -/
def frameEnds (t : Bytes) (s : State) : State := takeTable (evalBand (framesDone t (onEpd (fun b => { b with run := true }) s)))

/-- What a boundary starts: nothing out of every band or while a table waits. -/
def frameStarts (t : Bytes) (s : State) : State :=
  if s.epd.tempRange ∨ s.epd.tablePend.isSome then s
  else (List.range 160).foldl (startSeg t) (onEpd (fun b => { b with recBand := some (b.recBand.getD b.band) }) s)

theorem exec_epdFrame (table : s.epd.table = some t) (runs : framesRun s = true) (power : s.sys.pfail = false) :
    exec .epdFrame s = .next (keepJournal ((frameEnds t s).epd.table.getD t) false
      (onEpd (fun b => { b with recovery := b.recovery && b.segs.any fun g => g.flying && g.req.isNone })
        (frameStarts ((frameEnds t s).epd.table.getD t) (frameEnds t s)))) := by
  show execEpdFrame s = _
  unfold execEpdFrame frameEnds frameStarts
  rw [table]
  exact congrArg Host.Outcome.next (if_neg (by simp [runs, power]))

theorem frameEnds_epd {α : Type} {g : EpdBlock → α} (band : ∀ b k r, g { b with band := k, tempRange := r } = g b)
    (table : ∀ b x y, g { b with table := x, tablePend := y } = g b) :
    g (frameEnds t s).epd = g (framesDone t (onEpd (fun b => { b with run := true }) s)).epd := by
  unfold frameEnds
  rw [takeTable_epd table, evalBand_epd band]

theorem frames_frameEnds : (frameEnds t s).epd.frames = (s.epd.frames + 1) % 2 ^ 32 :=
  (frameEnds_epd (g := fun b => b.frames) (fun _ _ _ => rfl) fun _ _ _ => rfl).trans frames_framesDone

theorem rest_frameEnds (rest : (segOf s i).run = none) : (segOf (frameEnds t s) i).run = none := by
  have segs : (frameEnds t s).epd.segs = (framesDone t (onEpd (fun b => { b with run := true }) s)).epd.segs :=
    frameEnds_epd (g := fun b => b.segs) (fun _ _ _ => rfl) fun _ _ _ => rfl
  rw [segOf, segs]
  exact rest_framesDone rest

theorem frameStarts_epd {α : Type} {g : EpdBlock → α} (drives : ∀ b, g (beyondDrives b) = g b)
    (free : ∀ b x, g { b with recBand := x } = g b) : g (frameStarts t s).epd = g s.epd := by
  unfold frameStarts
  split
  · rfl
  · refine (of_beyondDrives drives ?_).trans (free s.epd (some (s.epd.recBand.getD s.epd.band)))
    exact foldl_keeps (g := fun s : State => beyondDrives s.epd) fun _ _ => beyondDrives_startSeg

theorem frameStarts_of_waiting (waits : s.epd.tablePend.isSome = true) : frameStarts t s = s := if_pos (.inr waits)

theorem epdFrame_counts (runs : framesRun s = true) (power : s.sys.pfail = false) :
    Answers .epdFrame s fun t => t.epd.frames = (s.epd.frames + 1) % 2 ^ 32
      ∧ (∃ j, t.epd.journal = some j ∧ j.ok = true ∧ j.clean = false ∧ j.frames = t.epd.frames)
      ∧ (t.epd.tablePend.isSome = true → ∀ i, (segOf s i).run = none → (segOf t i).run = none) := by
  obtain ⟨tbl, table⟩ : ∃ tbl, s.epd.table = some tbl := by
    simp only [framesRun, Bool.and_eq_true] at runs
    obtain ⟨⟨⟨⟨-, table⟩, -⟩, -⟩, -⟩ := runs
    exact Option.isSome_iff_exists.mp table
  have frames {t2 : Bytes} : (frameStarts t2 (frameEnds tbl s)).epd.frames = (s.epd.frames + 1) % 2 ^ 32 :=
    (frameStarts_epd (g := fun b => b.frames) (fun _ => rfl) fun _ _ => rfl).trans frames_frameEnds
  have waiting {t2 : Bytes} : (frameStarts t2 (frameEnds tbl s)).epd.tablePend = (frameEnds tbl s).epd.tablePend :=
    frameStarts_epd (g := fun b => b.tablePend) (fun _ => rfl) fun _ _ => rfl
  refine ⟨_, exec_epdFrame table runs power, ?_⟩
  generalize ends : frameEnds tbl s = s2 at frames waiting ⊢
  have starts : s2.epd.tablePend.isSome = true → frameStarts (s2.epd.table.getD tbl) s2 = s2 := frameStarts_of_waiting
  have frames := frames (t2 := s2.epd.table.getD tbl)
  have waiting := waiting (t2 := s2.epd.table.getD tbl)
  generalize frameStarts (s2.epd.table.getD tbl) s2 = s3 at frames waiting starts ⊢
  refine ⟨frames, ⟨_, rfl, rfl, rfl, rfl⟩, fun waits i rest => ?_⟩
  have waits : s3.epd.tablePend.isSome = true := waits
  show (segOf s3 i).run = none
  rw [starts (waiting ▸ waits), ← ends]
  exact rest_frameEnds rest

/-- A stop at a power failure (R311). -/
theorem epdStop_stops (runs : framesRun s = true) (power : s.sys.pfail = true) :
    Answers .epdStop s fun t => t.epd.stopped = true ∧ t.epd.run = false ∧ t.epd.stops = satInc 8 s.epd.stops
      ∧ bitAt t.sys.holdLast.done 3 = true ∧ ∃ j, t.epd.journal = some j ∧ j.clean = true := by
  have engine : (epdThere s && s.epd.on && !s.epd.stopped && s.sys.mode != .watch && s.sys.mode != .dormant) = true := by
    simp only [framesRun, Bool.and_eq_true] at runs ⊢
    tauto
  refine ⟨_, congrArg Host.Outcome.next (if_neg (by simp [engine, power])), ?_⟩
  extract_lets tbl s1 n s2
  have epd : s2.epd = s1.epd := logEv_epd
  have stops : s1.epd.stops = s.epd.stops := by
    unfold s1
    rw [if_pos runs]
    refine (keepJournal_epd (g := fun b => b.stops) fun _ _ => rfl).trans ?_
    exact of_beyondDrives (g := fun b => b.stops) (b' := { s.epd with frames := (s.epd.frames + 1) % 2 ^ 32 }) (fun _ => rfl)
      beyondDrives_framesDone
  refine ⟨rfl, rfl, ?_, ?_, _, congrArg EpdBlock.journal epd, rfl⟩
  · show satInc 8 s2.epd.stops = _
    rw [epd, stops]
  · show bitAt (Nat.lor _ (2 ^ 3)) 3 = true
    rw [bitAt_lor, bitAt_two_pow, Bool.or_true]

end Frames

/-! ## The legal region (R310) -/

theorem legalDwell_goes_on {g : RegionRec} {tbl : Bytes} {k : Nat} (region : regionRec s 15 = some g) (there : epdThere s = true)
    (core : s.met.run = true) (watch : s.sys.mode ≠ .watch) (dormant : s.sys.mode ≠ .dormant) (stopped : s.epd.stopped = false)
    (table : s.epd.table = some tbl)
    (band : bandOf tbl (if s.epd.tempRange then none else some s.epd.band) (temp6 s) = some k) :
    Answers .legalDwell s fun t =>
      t.epd.legalItem = if (outletList s).length ≤ s.epd.legalItem then 0 else s.epd.legalItem + 1 := by
  have run : exec .legalDwell s = .next (onEpd (fun b => { b with
      legalItem := if (outletList s).length ≤ b.legalItem then 0 else b.legalItem + 1 })
        (acceptUpdate none g.segs false (legalTargets (evalBand s)) (evalBand s))) := by
    have outlets : outletList (evalBand s) = outletList s := by rw [evalBand_banded table band]; rfl
    show execLegalDwell s = _
    unfold execLegalDwell
    simp only [region, there, core, watch, dormant, stopped, epdRefuses_evalBand_banded table band, outlets, Bool.true_eq_false,
      Bool.false_eq_true, or_self, if_false]
  refine ⟨_, run, ?_⟩
  have item : (acceptUpdate none g.segs false (legalTargets (evalBand s)) (evalBand s)).epd.legalItem = s.epd.legalItem :=
    (acceptUpdate_epd (g := fun b => b.legalItem) (fun _ _ => rfl) fun _ => rfl).trans
      (evalBand_epd (g := fun b => b.legalItem) fun _ _ _ => rfl)
  show (if _ ≤ (acceptUpdate none g.segs false _ _).epd.legalItem then 0 else _ + 1) = _
  rw [item]

/-! ## The crack loop and the status lights (R314-R317) -/

/-- Without a display no loop is measured. -/
theorem exec_crackLoopMeasure_absent {x : Nat} {f : Bool} (h : epdThere s = false) : exec (.crackLoopMeasure x f) s = .next s := by
  have absent : crackMeasure x f s = s := if_pos h
  show execCrackLoopMeasure x f s = _
  simp only [execCrackLoopMeasure, absent, and_self, if_true]

/-- A crack is a tamper detection too, which leaves the display. -/
theorem crackLoopMeasure_epd {x : Nat} {f : Bool} : Answers (.crackLoopMeasure x f) s fun t => t.epd = (crackMeasure x f s).epd := by
  refine ⟨_, rfl, ?_⟩
  dsimp only
  split
  · rfl
  · exact part_of_law .epd (same_tamperDetect 3) rfl

/-- The third bad measurement in a row sets the flag of its kind. -/
theorem crackMeasure_marks {x : Nat} {f : Bool} (there : epdThere s = true) :
    (crackMeasure x f s).epd.crackOhms = min 0xFFFF x
      ∧ (f = true → x ≤ 2000 → (crackMeasure x f s).epd.crackBad = 0)
      ∧ (f = false ∨ 2000 < x → 2 ≤ s.epd.crackBad → s.epd.crackShort = false → s.epd.crackOpen = false →
          (crackMeasure x f s).epd.crack = true ∧ (crackMeasure x f s).epd.crackShort = (!f)
            ∧ (crackMeasure x f s).epd.crackOpen = f) := by
  unfold crackMeasure
  rw [if_neg (by simp [there])]
  extract_lets bad s1
  have ohms : s1.epd.crackOhms = min 0xFFFF x := rfl
  have count : s1.epd.crackBad = if bad then min 3 (s.epd.crackBad + 1) else 0 := rfl
  refine ⟨?_, fun follows low => ?_, fun isBad second short opened => ?_⟩
  · split
    · exact ohms
    · split
      · exact ohms
      · rw [logEv_epd]
        exact ohms
  · have good : bad = false := by simp [bad, follows, low]
    rw [good] at count
    have zero : s1.epd.crackBad = 0 := count.trans (if_neg Bool.false_ne_true)
    rw [if_pos (by rw [zero]; decide)]
    exact zero
  · have isBad : bad = true := by simpa [bad] using isBad
    rw [isBad, if_pos rfl] at count
    rw [if_neg (by omega), if_neg (by simp [s1, short, opened]), logEv_epd]
    refine ⟨rfl, ?_, ?_⟩
    · show (s.epd.crackShort || !f) = _
      rw [short, Bool.false_or]
    · show (s.epd.crackOpen || f) = _
      rw [opened, Bool.false_or]

theorem ledOf_onLed_self {n : Nat} {f : Led → Led} (inv : s.Inv) (hn : n < 12) : ledOf (onLed n f s) n = f (ledOf s n) := by
  obtain ⟨-, -, -, -, -, -, -, -, -, shape, -⟩ := inv
  simp only [EpdBlock.shape, List.cons.injEq] at shape
  exact upd_getD_self (shape.2.1 ▸ hn)

theorem ledOpen_takes {n : Nat} {x : Bool} (inv : s.Inv) (hn : n < 12) (led : (ledRec s n).isSome = true) :
    Answers (.ledOpen n x) s fun t => (ledOf t n).isOpen = x := by
  obtain ⟨l, led⟩ := Option.isSome_iff_exists.mp led
  refine ⟨_, show execLedOpen n x s = _ by unfold execLedOpen; rw [led], ?_⟩
  have taken : (ledOf (onLed n (fun l => { l with isOpen := x }) s) n).isOpen = x := congrArg Led.isOpen (ledOf_onLed_self inv hn)
  dsimp only
  split
  · rw [ledOf, logEv_epd]
    exact taken
  · exact taken

/-- Settles O34: each clause by the equation of its command; a request reaches its segments one after the other, and a frame
leaves the segments at rest alone while a table waits. -/
theorem displayAndLedCommandsEffect : Obligations.DisplayAndLedCommandsEffect := by
  unfold Obligations.DisplayAndLedCommandsEffect
  refine ⟨?temp, ?update, ?refused, ?frame, ?dwell, ?stop, ?step, ?led, ?absent, ?crack⟩
  case temp =>
    intro s w there
    refine ⟨_, congrArg Host.Outcome.next (if_pos there), ?_, ?_⟩
    · exact evalBand_epd (g := fun b => b.temp) fun _ _ _ => rfl
    · exact evalBand_epd (g := fun b => b.tempTick) fun _ _ _ => rfl
  case update =>
    intro s r g fl b tbl x k inv there region legal length table targets served band distinct segs
    exact epdUpdate_aims inv there region legal length table targets served band distinct segs
  case refused =>
    intro s r g fl b x there region legal length table
    exact epdUpdate_without_table there region legal length table
  case frame => exact fun s => epdFrame_counts
  case dwell =>
    intro s g tbl k region there core watch dormant stopped table band
    exact legalDwell_goes_on region there core watch dormant stopped table band
  case stop => exact fun s => epdStop_stops
  case step => exact fun s k on hk there => ⟨_, congrArg Host.Outcome.next (if_pos ⟨on, hk⟩), put_getD_self there⟩
  case led =>
    intro s n x inv hn led
    exact ⟨ledOpen_takes inv hn led, _, congrArg Host.Outcome.next (if_pos led), ledOf_onLed_self inv hn⟩
  case absent => exact fun s x f h => exec_crackLoopMeasure_absent h
  case crack =>
    intro s x f _ there
    obtain ⟨t, run, epd⟩ := crackLoopMeasure_epd (s := s) (x := x) (f := f)
    refine ⟨t, run, ?_⟩
    dsimp only
    rw [epd]
    exact crackMeasure_marks there

end Sys2Proof.Machine
end

section
/-! PROOFS. The statement of 12_keys_lifecycle.md: what each key command completes with (R327, R331, R335, R337, R341-R345). -/

namespace Sys2Proof.Machine

-- One proof after the other, as in Sys2Proof/Tests/Slice0.lean: in parallel, their stacks pass the check's memory limit.
set_option Elab.async false

variable {s : State} {α : Type}

/-! ## What the users of the slots write of the key engine (R331) -/

/-- A view of the key engine that an entry of EV_KEY_MISUSE leaves. -/
def MisuseFree (v : KeyBlock → α) : Prop := ∀ b l, v { b with misuse := l } = v b

section Misuse
variable {v : KeyBlock → α} (free : MisuseFree v)
include free

theorem askKey_keeps_key {n ktype op q : Nat} : v (askKey n ktype op q s).key = v s.key := by
  unfold askKey keyMisuse
  split
  · split
    · rfl
    · rw [logEv_key]
      exact free s.key _
  · rfl

/-- The grid modem asks for its NMK; the rest of its gate leaves the key engine. -/
theorem glkGate_keeps_key : v (glkGate s).key = v s.key := by
  have asked := askKey_keeps_key free (s := s) (n := s.glk.nmkSlot) (ktype := 1) (op := 7) (q := 12)
  have left (m : Assoc) (s : State) : (abandonMsdu (dropMember m s)).key = s.key :=
    (part_of_law .key same_abandonMsdu rfl).trans (part_of_law .key (same_dropMember m) rfl)
  unfold glkGate
  split
  · rfl
  · split
    · split
      · rfl
      · rw [left]
    · dsimp only
      split
      · split
        · exact asked
        · rw [left]
          exact asked
      · split
        · exact asked
        · exact asked

theorem slotsChanged_keeps_key : v (slotsChanged s).key = v s.key := by
  have refreshed : (slotsChanged s).key = (glkGate s).key := part_of_law .key same_ctRefresh rfl
  rw [refreshed]
  exact glkGate_keeps_key free

end Misuse

@[simp] theorem slotOf_slotsChanged {n : Nat} : slotOf (slotsChanged s) n = slotOf s n :=
  slotsChanged_keeps_key (v := fun b => b.slots.getD n KeySlot.fresh) fun _ _ => rfl

/-! ## Keys installed and erased (R335, R341) -/

section Slots
variable {n c : Nat} {x : KeySlot}

theorem slotOf_installKey (there : n < s.key.slots.length) : slotOf (installKey n x c s) n = x := by
  unfold installKey
  dsimp only
  split
  · exact put_getD_self there
  · exact put_getD_self there

/-- A key installed leaves the counter. -/
theorem counter_installKey : (installKey n x c s).key.counter = s.key.counter := by
  unfold installKey
  dsimp only
  split <;> rfl

/-- A slot without a key, and without blobs to load one from. -/
structure Erased (n : Nat) (k : KeyBlock) : Prop where
  slot : k.slots.getD n KeySlot.fresh = KeySlot.fresh
  blobA : k.blobA.getD n none = none
  blobB : k.blobB.getD n none = none

/-- The default of a list stands at a place that was set to it, whether the list reaches it or not. -/
theorem put_default {l : List α} {d : α} : (put l n d).getD n d = d := by
  by_cases h : n < l.length
  · exact put_getD_self h
  · rw [List.getD_eq_default _ _ (by simpa using h)]

theorem erased_eraseKey : Erased n (eraseKey n s).key := ⟨put_default, put_default, put_default⟩

/-- Erasing a key leaves an erased slot erased. -/
theorem Erased.eraseKey {m : Nat} (h : Erased n s.key) : Erased n (eraseKey m s).key := by
  by_cases same : n = m
  · subst same
    exact erased_eraseKey
  · exact ⟨(put_getD_ne same).trans h.slot, (put_getD_ne same).trans h.blobA, (put_getD_ne same).trans h.blobB⟩

theorem Erased.slotsChanged (h : Erased n s.key) : Erased n (slotsChanged s).key := by
  refine ⟨?_, ?_, ?_⟩
  · exact (slotsChanged_keeps_key (v := fun b => b.slots.getD n KeySlot.fresh) fun _ _ => rfl).trans h.slot
  · exact (slotsChanged_keeps_key (v := fun b => b.blobA.getD n none) fun _ _ => rfl).trans h.blobA
  · exact (slotsChanged_keeps_key (v := fun b => b.blobB.getD n none) fun _ _ => rfl).trans h.blobB

/-- The slots of a mask are erased one after the other. -/
def eraseMask (m : Nat) (l : List Nat) (s : State) : State := l.foldl (fun s n => if bitAt m n then eraseKey n s else s) s

theorem erased_eraseMask {m : Nat} {l : List Nat} (listed : n ∈ l) (masked : bitAt m n = true) : Erased n (eraseMask m l s).key := by
  unfold eraseMask
  have stays {l : List Nat} {s : State} (h : Erased n s.key) :
      Erased n (l.foldl (fun s n => if bitAt m n then eraseKey n s else s) s).key := by
    induction l generalizing s with
    | nil => exact h
    | cons k l ih =>
      refine ih ?_
      dsimp only
      split
      · exact h.eraseKey
      · exact h
  induction l generalizing s with
  | nil => simp at listed
  | cons k l ih =>
    rcases List.mem_cons.mp listed with same | later
    · subst same
      rw [List.foldl_cons, if_pos masked]
      exact stays erased_eraseKey
    · exact ih later

/-- After a zeroisation no slot is loaded and the seed is gone (R342). -/
theorem zeroise_clears {cause : Nat} : (zeroise cause s).key.seed = none ∧ (zeroise cause s).key.zeroised = true
    ∧ ∀ n, (slotOf (zeroise cause s) n).loaded = false := by
  unfold zeroise
  dsimp only
  refine ⟨?_, ?_, fun n => ?_⟩
  · rw [slotsChanged_keeps_key (v := fun b => b.seed) fun _ _ => rfl, logEv_key]
    rfl
  · rw [slotsChanged_keeps_key (v := fun b => b.zeroised) fun _ _ => rfl, logEv_key]
    rfl
  · rw [slotOf_slotsChanged, slotOf, logEv_key]
    show ((List.replicate 32 KeySlot.fresh).getD n KeySlot.fresh).loaded = false
    rw [List.getD_eq_getElem?_getD, List.getElem?_replicate]
    split <;> rfl

/-- What a zeroisation does not clear. -/
theorem zeroise_keeps_key {v : KeyBlock → α} {cause : Nat} (misuse : MisuseFree v)
    (free : ∀ k l x y, v { k with slots := l, seed := x, zeroised := y } = v k) : v (zeroise cause s).key = v s.key := by
  unfold zeroise
  dsimp only
  rw [slotsChanged_keeps_key misuse, logEv_key]
  exact free s.key _ _ _

end Slots

/-! ## Life-cycle transitions (R325, R338, R339) -/

/-- The key engine but for what a wipe of the root class clears. -/
def beyondClass (k : KeyBlock) : KeyBlock := { k with seed := none, blobA := [], blobB := [], orig := [], slots := [] }

theorem of_beyondClass {g : KeyBlock → α} {k k' : KeyBlock} (free : ∀ k, g (beyondClass k) = g k)
    (h : beyondClass k = beyondClass k') : g k = g k' := by
  rw [← free k, h, free]

/-- The part of a wipe that is the key engine's. -/
theorem wipeClass_key {retire : Bool} : beyondClass (wipeClass retire s).key = beyondClass s.key
    ∧ (retire = true → (wipeClass retire s).key.seed = none) := by
  unfold wipeClass
  extract_lets s1 s2 s3 had s4
  have entered : (if had = true then changeEntry 4 3 0 0 [] [] s4 else s4).key = s4.key := by
    split
    · exact part_of_law .key (same_changeEntry 4 3 0 0 [] []) rfl
    · rfl
  have cleared : s4.key = s2.key := part_of_law (s := s3) (t := wipeCache s3) .key same_wipeCache rfl
  rw [entered, cleared]
  refine ⟨?_, fun retired => ?_⟩
  · show beyondClass s1.key = _
    unfold s1
    split
    · rfl
    · rfl
  · show s1.key.seed = none
    unfold s1
    rw [if_pos retired]
    rfl

/-- The life-cycle record and the fuses as a transition writes them. -/
def wroteLc (new : Lc) (o r : Bytes) (p : Bool) (k : KeyBlock) : KeyBlock :=
  { k with lcRec := k.lcRec.write { state := new, wipePending := p, owner := o, recovery := r },
           leftBlank := k.leftBlank || new != .blank, retiredFuse := k.retiredFuse || new == .retired }

/-- The grant and the authority end with MAINTENANCE. -/
def leftMaintenance (old : Lc) (k : KeyBlock) : KeyBlock :=
  if old = .maintenance then { k with grant := none, authority := none, returnDue := false } else k

section Transition
variable {new : Lc} {o r : Bytes} {op c : Nat}

/-- A transition writes the record, wipes at a change of class, writes the record again, and keeps the engine busy. -/
theorem transition_key : ∃ (k : KeyBlock) (o' r' : Bytes), beyondClass k = beyondClass (wroteLc new o' r' true s.key)
    ∧ (new = .retired → s.key.lc.cls ≠ new.cls → k.seed = none)
    ∧ (transition new o r op c s).key = { leftMaintenance s.key.lc (wroteLc new o' r' false k) with busy := true } := by
  unfold transition
  extract_lets old s1 o' r' s2 s3 s4 s5 s6
  have captured : s1.key = s.key := by
    unfold s1
    split
    · exact part_of_law .key (same_capture 1 (outletMask s) 0 (nowTs s) [] none) rfl
    · rfl
  have wrote : s2.key = wroteLc new o' r' true s.key := congrArg (wroteLc new o' r' true) captured
  refine ⟨s3.key, o', r', ?_, fun retired changes => ?_, ?_⟩
  · rw [← wrote]
    unfold s3
    split
    · exact wipeClass_key.1
    · rfl
  · unfold s3
    rw [if_pos (by simp [old, changes])]
    exact wipeClass_key.2 (by simp [retired])
  · have ended : s5.key = leftMaintenance s.key.lc s4.key := by
      unfold s5 leftMaintenance
      split <;> rfl
    show (logLc old new op c s6).key = _
    have logged : (logLc old new op c s6).key = s6.key := logEv_key
    rw [logged]
    show { s5.key with busy := true } = _
    rw [ended]
    rfl

theorem transition_asks_reset : (transition new o r op c s).sys.reqReset.isSome = true := rfl

theorem transition_busy : (transition new o r op c s).key.busy = true := by
  obtain ⟨k, o', r', -, -, key⟩ := transition_key (s := s) (new := new) (o := o) (r := r) (op := op) (c := c)
  rw [key]

theorem transition_state : (transition new o r op c s).key.lcRec.get.state = new := by
  obtain ⟨k, o', r', -, -, key⟩ := transition_key (s := s) (new := new) (o := o) (r := r) (op := op) (c := c)
  rw [key]
  show (leftMaintenance s.key.lc (wroteLc new o' r' false k)).lcRec.get.state = new
  unfold leftMaintenance
  split
  · exact congrArg LcRec.state get_write
  · exact congrArg LcRec.state get_write

/-- What neither the record, nor the wipes, nor the end of MAINTENANCE write. -/
theorem transition_keeps {g : KeyBlock → α} (wiped : ∀ k, g (beyondClass k) = g k)
    (wrote : ∀ k l x y, g { k with lcRec := l, leftBlank := x, retiredFuse := y } = g k)
    (ended : ∀ k x y z, g { k with grant := x, authority := y, returnDue := z } = g k)
    (busy : ∀ k x, g { k with busy := x } = g k) : g (transition new o r op c s).key = g s.key := by
  obtain ⟨k, o', r', beyond, -, key⟩ := transition_key (s := s) (new := new) (o := o) (r := r) (op := op) (c := c)
  rw [key, busy]
  have left : g (leftMaintenance s.key.lc (wroteLc new o' r' false k)) = g (wroteLc new o' r' false k) := by
    unfold leftMaintenance
    split
    · exact ended _ _ _ _
    · rfl
  rw [left]
  exact (wrote _ _ _ _).trans ((of_beyondClass wiped beyond).trans (wrote _ _ _ _))

/-- A grant lasts through a transition out of another state. -/
theorem transition_grant (old : s.key.lc ≠ .maintenance) : (transition new o r op c s).key.grant = s.key.grant := by
  obtain ⟨k, o', r', beyond, -, key⟩ := transition_key (s := s) (new := new) (o := o) (r := r) (op := op) (c := c)
  rw [key, leftMaintenance, if_neg old]
  exact of_beyondClass (g := fun k => k.grant) (k := k) (k' := wroteLc new o' r' true s.key) (fun _ => rfl) beyond

theorem transition_ends_maintenance (old : s.key.lc = .maintenance) :
    (transition new o r op c s).key.grant = none ∧ (transition new o r op c s).key.authority = none := by
  obtain ⟨k, o', r', beyond, -, key⟩ := transition_key (s := s) (new := new) (o := o) (r := r) (op := op) (c := c)
  rw [key, leftMaintenance, if_pos old]
  exact ⟨rfl, rfl⟩

theorem transition_retires (live : s.key.lc ≠ .retired) :
    (transition .retired o r op c s).key.retiredFuse = true ∧ (transition .retired o r op c s).key.seed = none := by
  obtain ⟨k, o', r', beyond, seed, key⟩ := transition_key (s := s) (new := .retired) (o := o) (r := r) (op := op) (c := c)
  have seed := seed rfl (by cases h : s.key.lc <;> simp_all [Lc.cls])
  rw [key]
  unfold leftMaintenance
  split
  · exact ⟨Bool.or_true _, seed⟩
  · exact ⟨Bool.or_true _, seed⟩

end Transition

theorem endMaintenance_of_maintenance {op c : Nat} (lc : s.key.lc = .maintenance) :
    endMaintenance op c s = transition .service (ownerRoot s) (recoveryRoot s) op c s := if_pos lc

/-! ## Key-update messages (R335, R337) -/

section Update
variable {r : Req} {m p : Bytes} {k : KeyMsg}

/-- An accepted message: the counter first, then the effect, the event and the result. -/
def acceptKey (r : Req) (k : KeyMsg) (p : Bytes) (s : State) : State :=
  let e := keyEffect k p (onKey (fun b => { b with counter := k.counter }) s)
  post r stsOk 0 e.2 (logEv .security 0x12 0xFF 0x1202 [(1, k.op), (1, k.slot), (1, k.ktype), (4, k.counter)] e.1)

theorem exec_keyUpdate_accepted (hk : k = keyMsgOf m) (range : msgRangeOk m s = true) (allowed : opAllowed s.key.lc k.op = true)
    (signed : msgSigned m s = true) (format : k.format = 1) (fits : msgStateBad k s = false) (busy : s.key.busy = false)
    (newer : s.key.counter < k.counter) (opens : openPayload m k s = some p) (random : needsRandom s k = false) :
    exec (.keyUpdate r m) s = .next (acceptKey r k p s) := by
  subst hk
  show execKeyUpdate r m s = _
  simp only [execKeyUpdate, range, allowed, signed, format, fits, busy, Nat.not_le.mpr newer, opens, random, Bool.true_eq_false,
    Bool.false_eq_true, ne_eq, not_true_eq_false, if_false]
  rfl

/-- A refusal: another status, and the key store as it was. -/
def Refuses (r : Req) (s t : State) : Prop := (∃ e, e ≠ stsOk ∧ Posted t r e []) ∧ t.key = s.key

theorem refuses_postSts {e : Nat} (bad : e ≠ stsOk) : Refuses r s (postSts r e s) := ⟨⟨e, bad, rfl⟩, rfl⟩

theorem refuses_keyReject {row e : Nat} {c : EvClass} (bad : e ≠ stsOk) : Refuses r s (keyReject r row e c k s) := by
  refine ⟨⟨e, bad, rfl⟩, ?_⟩
  unfold keyReject
  rw [postSts_key, logEv_key]

theorem refuses_logRng {e : Nat} (bad : e ≠ stsOk) : Refuses r s (postSts r e (logRng s)) := by
  refine ⟨⟨e, bad, rfl⟩, ?_⟩
  rw [postSts_key]
  exact logEv_key

/-- An acceptance: a counter above the last, and a payload that opens. -/
def Accepts (r : Req) (m : Bytes) (s t : State) : Prop :=
  msgRangeOk m s = true ∧ s.key.counter < (keyMsgOf m).counter ∧ ∃ p, t = acceptKey r (keyMsgOf m) p s

/-- A row that holds refuses; one that does not leaves the decision to the later ones. -/
theorem refuses_row {c : Prop} [Decidable c] {x y : State} (refused : Refuses r s x)
    (later : ¬c → Refuses r s y ∨ Accepts r m s y) :
    Refuses r s (if c then x else y) ∨ Accepts r m s (if c then x else y) := by
  split
  next => exact .inl refused
  next h => exact later h

/-- A message is refused by a row of R337, or accepted. -/
theorem exec_keyUpdate_rows : Answers (.keyUpdate r m) s fun t => Refuses r s t ∨ Accepts r m s t := by
  refine ⟨_, rfl, ?_⟩
  refine refuses_row (refuses_postSts (by decide)) fun range => ?_
  refine refuses_row (refuses_keyReject (by decide)) fun _ => refuses_row (refuses_keyReject (by decide)) fun _ => ?_
  refine refuses_row (refuses_keyReject (by decide)) fun _ => refuses_row (refuses_postSts (by decide)) fun _ => ?_
  refine refuses_row (refuses_postSts (by decide)) fun _ => refuses_row (refuses_keyReject (by decide)) fun newer => ?_
  split
  next => exact .inl (refuses_keyReject (by decide))
  next p _ =>
    refine refuses_row (refuses_logRng (by decide)) fun _ => ?_
    exact .inr ⟨eq_true_of_ne_false range, Nat.lt_of_not_le newer, p, rfl⟩

theorem acceptKey_key : (acceptKey r k p s).key = (keyEffect k p (onKey (fun b => { b with counter := k.counter }) s)).1.key := by
  unfold acceptKey
  rw [post_key, logEv_key]

theorem acceptKey_reqReset : (acceptKey r k p s).sys.reqReset
    = (keyEffect k p (onKey (fun b => { b with counter := k.counter }) s)).1.sys.reqReset := by
  unfold acceptKey
  rw [post_sys, logEv_sys_reqReset]

theorem newBaseDate_key : (newBaseDate k s).key = s.key := part_of_law .key (same_newBaseDate k) rfl

theorem counter_transition {new : Lc} {o q : Bytes} {op c : Nat} :
    (transition new o q op c s).key.counter = s.key.counter :=
  transition_keeps (g := fun k => k.counter) (fun _ => rfl) (fun _ _ _ _ => rfl) (fun _ _ _ _ => rfl) fun _ _ => rfl

/-- No effect of a message moves the counter. -/
theorem counter_keyEffect : (keyEffect k p s).1.key.counter = s.key.counter := by
  have changed {s : State} : (slotsChanged s).key.counter = s.key.counter :=
    slotsChanged_keeps_key (v := fun b => b.counter) fun _ _ => rfl
  unfold keyEffect
  dsimp only
  split
  · rw [changed, counter_installKey, newBaseDate_key]
  · rw [changed, counter_installKey]
    rfl
  · rw [changed]
    rfl
  · rfl
  · rfl
  · rfl
  · rw [counter_transition]
    rfl
  · unfold endMaintenance
    split
    · exact counter_transition
    · rfl
  · exact counter_transition
  · exact counter_transition
  · exact counter_transition
  · exact counter_transition
  · rfl
  · rfl

/-- The key that INSTALL gives its slot. -/
def installedSlot (k : KeyMsg) (cls : Nat) (material : Bytes) : KeySlot :=
  { ktype := k.ktype, usage := k.usage, param := k.param, cls := cls, derived := false, loaded := true, material := material }

theorem keyEffect_install (op : k.op = 1) (there : k.slot < s.key.slots.length) :
    slotOf (keyEffect k p s).1 k.slot = installedSlot k s.key.lc.cls (p.take (materialLen k.ktype)) := by
  simp only [keyEffect, op, slotOf_slotsChanged]
  exact slotOf_installKey (by rw [newBaseDate_key]; exact there)

theorem keyEffect_generate (op : k.op = 2) (there : k.slot < s.key.slots.length) :
    ∃ x, slotOf (keyEffect k p s).1 k.slot = installedSlot k s.key.lc.cls x := by
  simp only [keyEffect, op, slotOf_slotsChanged]
  exact ⟨_, slotOf_installKey there⟩

theorem keyEffect_erase (op : k.op = 3) : Erased k.slot (keyEffect k p s).1.key := by
  simp only [keyEffect, op]
  exact erased_eraseKey.slotsChanged

/-- A life-cycle operation ends in a transition. -/
theorem keyEffect_transition (life : isLcOp k.op = true) (allowed : opAllowed s.key.lc k.op = true) :
    ∃ new o q op c s', (keyEffect k p s).1 = transition new o q op c s' := by
  have ops : k.op = 7 ∨ k.op = 8 ∨ k.op = 9 ∨ k.op = 10 ∨ k.op = 11 ∨ k.op = 12 := by
    simp only [isLcOp, inRange, Bool.and_eq_true, decide_eq_true_eq] at life
    omega
  rcases ops with op | op | op | op | op | op
  all_goals simp only [keyEffect, op]
  case inr.inl =>
    simp only [op, opAllowed, Bool.and_eq_true, beq_iff_eq] at allowed
    exact ⟨_, _, _, _, _, _, endMaintenance_of_maintenance allowed.2⟩
  all_goals exact ⟨_, _, _, _, _, _, rfl⟩

/-- A message in range names one of the slots. -/
theorem slot_of_msgRangeOk (range : msgRangeOk m s = true) (op : (keyMsgOf m).op ≤ 3) : (keyMsgOf m).slot < 32 := by
  simp only [msgRangeOk, Bool.and_eq_true, if_pos op] at range
  obtain ⟨⟨⟨⟨⟨-, slot⟩, -⟩, -⟩, -⟩, -⟩ := range
  simp only [inRange, Bool.and_eq_true, decide_eq_true_eq] at slot
  omega

theorem slots_length (inv : s.Inv) : s.key.slots.length = 32 := by
  obtain ⟨-, -, -, -, -, -, -, -, -, -, shape, -⟩ := inv
  simpa [KeyBlock.shape] using shape

/-- What an accepted message does to its slot (R335 operations 1 to 3). -/
theorem acceptKey_slots (inv : s.Inv) (hk : k = keyMsgOf m) (range : msgRangeOk m s = true) :
    (k.op = 1 → slotOf (acceptKey r k p s) k.slot = installedSlot k s.key.lc.cls (p.take (materialLen k.ktype)))
      ∧ (k.op = 2 → ∃ x, slotOf (acceptKey r k p s) k.slot = installedSlot k s.key.lc.cls x)
      ∧ (k.op = 3 → Erased k.slot (acceptKey r k p s).key) := by
  have there (op : k.op ≤ 3) : k.slot < s.key.slots.length := by
    subst hk
    rw [slots_length inv]
    exact slot_of_msgRangeOk range op
  simp only [slotOf, acceptKey_key]
  exact ⟨fun op => keyEffect_install op (there (by omega)), fun op => keyEffect_generate op (there (by omega)), keyEffect_erase⟩

theorem acceptKey_counter : (acceptKey r k p s).key.counter = k.counter := by
  rw [acceptKey_key, counter_keyEffect]
  rfl

theorem keyUpdate_answers (inv : s.Inv) : Answers (.keyUpdate r m) s fun t =>
    ((∃ b, Posted t r stsOk b) ∧ s.key.counter < (keyMsgOf m).counter ∧ t.key.counter = (keyMsgOf m).counter
      ∧ ((keyMsgOf m).op = 1 → (slotOf t (keyMsgOf m).slot).loaded = true
          ∧ (slotOf t (keyMsgOf m).slot).ktype = (keyMsgOf m).ktype ∧ (slotOf t (keyMsgOf m).slot).usage = (keyMsgOf m).usage)
      ∧ ((keyMsgOf m).op = 3 → (slotOf t (keyMsgOf m).slot).loaded = false))
    ∨ Refuses r s t := by
  obtain ⟨t, run, refused | ⟨range, newer, p, accepted⟩⟩ := exec_keyUpdate_rows (s := s) (r := r) (m := m)
  · exact ⟨t, run, .inr refused⟩
  · subst accepted
    obtain ⟨install, -, erase⟩ := acceptKey_slots (r := r) (p := p) inv rfl range
    refine ⟨_, run, .inl ⟨⟨_, rfl⟩, newer, acceptKey_counter, fun op => ?_, fun op => ?_⟩⟩
    · rw [install op]
      exact ⟨rfl, rfl, rfl⟩
    · exact congrArg KeySlot.loaded (erase op).slot

end Update

/-- The effect of an accepted message, by its operation (R335). -/
theorem keyUpdate_accepts {r : Req} {m p : Bytes} {k : KeyMsg} (inv : s.Inv) (hk : k = keyMsgOf m) (range : msgRangeOk m s = true)
    (allowed : opAllowed s.key.lc k.op = true) (signed : msgSigned m s = true) (format : k.format = 1)
    (fits : msgStateBad k s = false) (busy : s.key.busy = false) (newer : s.key.counter < k.counter)
    (opens : openPayload m k s = some p) (random : needsRandom s k = false) :
    Answers (.keyUpdate r m) s fun t => (∃ b, Posted t r stsOk b) ∧ t.key.counter = k.counter
      ∧ (k.op = 1 → slotOf t k.slot = installedSlot k s.key.lc.cls (p.take (materialLen k.ktype)))
      ∧ (k.op = 2 → (slotOf t k.slot).loaded = true ∧ (slotOf t k.slot).ktype = k.ktype)
      ∧ (k.op = 3 → slotOf t k.slot = KeySlot.fresh ∧ t.key.blobA.getD k.slot none = none ∧ t.key.blobB.getD k.slot none = none)
      ∧ (k.op = 4 → t.key.orig = put s.key.orig (byteAt 0 p) (some (origOf p)))
      ∧ (k.op = 5 → t.key.lcRec.get.owner = slice 0 97 p) ∧ (k.op = 6 → t.key.lcRec.get.recovery = slice 0 97 p)
      ∧ (k.op = 7 → t.key.lcRec.get.state = .maintenance ∧ t.key.grant = some { key := slice 0 65 p, seconds := leAt 68 4 p })
      ∧ (k.op = 8 → t.key.lcRec.get.state = .service ∧ t.key.grant = none ∧ t.key.authority = none)
      ∧ (k.op = 9 → t.key.lcRec.get.state = .provisioned) ∧ (k.op = 10 → t.key.lcRec.get.state = .service)
      ∧ (k.op = 11 → t.key.lcRec.get.state = .recovery)
      ∧ (k.op = 12 → t.key.lcRec.get.state = .retired ∧ t.key.retiredFuse = true ∧ t.key.seed = none)
      ∧ (isLcOp k.op = true → t.key.busy = true ∧ t.sys.reqReset.isSome = true)
      ∧ (k.op = 13 → t.key.metro = some (slice 0 97 p)) := by
  obtain ⟨install, generate, erase⟩ := acceptKey_slots (r := r) (p := p) inv hk range
  refine ⟨_, exec_keyUpdate_accepted hk range allowed signed format fits busy newer opens random, ⟨_, rfl⟩, acceptKey_counter,
    install, fun op => ?generated, fun op => ?erased, ?effects⟩
  case generated =>
    obtain ⟨x, slot⟩ := generate op
    rw [slot]
    exact ⟨rfl, rfl⟩
  case erased =>
    obtain ⟨slot, blobA, blobB⟩ := erase op
    exact ⟨slot, blobA, blobB⟩
  case effects =>
    rw [acceptKey_key, acceptKey_reqReset]
    have live : s.key.lc ≠ .retired := by
      intro retired
      simp [opAllowed, retired] at allowed
    refine ⟨fun op => ?orig, fun op => ?owner, fun op => ?recovery, fun op => ?grant, fun op => ?ended, fun op => ?provisioned,
      fun op => ?service, fun op => ?recover, fun op => ?retire, fun life => ?busy, fun op => ?metro⟩
    case orig => simp only [keyEffect, op, onKey_key]
    case owner => simp only [keyEffect, op, onKey_key, get_change]
    case recovery => simp only [keyEffect, op, onKey_key, get_change]
    case grant =>
      simp only [keyEffect, op]
      refine ⟨transition_state, transition_grant fun lc => ?_⟩
      have lc : s.key.lc = .maintenance := lc
      simp [opAllowed, op, lc] at allowed
    case ended =>
      simp only [op, opAllowed, Bool.and_eq_true, beq_iff_eq] at allowed
      simp only [keyEffect, op]
      rw [endMaintenance_of_maintenance (s := onKey (fun b => { b with counter := k.counter }) s) allowed.2]
      exact ⟨transition_state, transition_ends_maintenance allowed.2⟩
    case provisioned =>
      simp only [keyEffect, op]
      exact transition_state
    case service =>
      simp only [keyEffect, op]
      exact transition_state
    case recover =>
      simp only [keyEffect, op]
      exact transition_state
    case retire =>
      simp only [keyEffect, op]
      exact ⟨transition_state, transition_retires live⟩
    case busy =>
      obtain ⟨new, o, q, op, c, s', effect⟩ := keyEffect_transition (p := p) (k := k)
        (s := onKey (fun b => { b with counter := k.counter }) s) life allowed
      rw [effect]
      exact ⟨transition_busy, transition_asks_reset⟩
    case metro => simp only [keyEffect, op, onKey_key]

/-! ## Maintenance authority, zeroisation, attestation (R327, R341, R343, R344) -/

section Commands
variable {r : Req} {b : Bytes}

theorem keyChallenge_posts (lc : s.key.lc = .maintenance) (random : s.key.rngFail = false) (sides : s.key.challenges.length = 2) :
    Answers (.keyChallenge r) s fun t => ∃ c : Bytes, c.length = 32 ∧ Posted t r stsOk c
      ∧ t.key.challenges.getD (sideIx r.side) none = some (c, s.ticks + msTicks 60000) := by
  refine ⟨_, congrArg Host.Outcome.next ((guarded_ok (firstFail_cons_false (by simp [lc]))).trans
    (if_neg (ne_true_of_eq_false random))), freeBytes s 32, fit_length, rfl, put_getD_self ?_⟩
  rw [sides]
  cases r.side <;> decide

/-- The outcome of a proof: the maintenance key's signature over a running challenge of the side. -/
def provesMaint (s : State) (r : Req) (sig : Bytes) : Bool :=
  match s.key.challenges.getD (sideIx r.side) none, s.key.grant with
  | some (ch, e), some g => decide (s.ticks < e) && Config.verify g.key (ch ++ leBytes 8 s.ident.deviceId) sig
  | _, _ => false

/-- The side's challenge used up. -/
def spendChallenge (r : Req) : State → State := onKey fun k => { k with challenges := put k.challenges (sideIx r.side) none }

theorem exec_keyMaintProve (length : b.length = 64) (lc : s.key.lc ≠ .retired) :
    exec (.keyMaintProve r b) s = .next (if provesMaint s r b
      then postSts r stsOk (onKey (fun k => { k with authority := some (r.side, s.ticks + msTicks 600000) }) (spendChallenge r s))
      else postSts r stsAuthFail (spendChallenge r s)) :=
  congrArg Host.Outcome.next (guarded_ok ((firstFail_cons_false (by simp [length])).trans (firstFail_cons_false (by simp [lc]))))

theorem challenges_spendChallenge : (spendChallenge r s).key.challenges.getD (sideIx r.side) none = none := put_default

theorem keyMaintProve_answers (length : b.length = 64) (lc : s.key.lc ≠ .retired) :
    Answers (.keyMaintProve r b) s fun t => t.key.challenges.getD (sideIx r.side) none = none
      ∧ ((Posted t r stsOk [] ∧ t.key.authority = some (r.side, s.ticks + msTicks 600000))
        ∨ (Posted t r stsAuthFail [] ∧ t.key.authority = s.key.authority))
      ∧ (s.key.challenges.getD (sideIx r.side) none = none ∨ s.key.grant = none → Posted t r stsAuthFail []) := by
  refine ⟨_, exec_keyMaintProve length lc, ?_⟩
  dsimp only
  split
  next proved =>
    refine ⟨challenges_spendChallenge, .inl ⟨rfl, rfl⟩, fun without => ?_⟩
    unfold provesMaint at proved
    split at proved
    next challenge grant =>
      rw [challenge, grant] at without
      simp at without
    next => cases proved
  next => exact ⟨challenges_spendChallenge, .inr ⟨rfl, rfl⟩, fun _ => rfl⟩

theorem keyMaintProve_opens {ch : Bytes} {e : Nat} {g : Grant} (length : b.length = 64) (lc : s.key.lc ≠ .retired)
    (challenge : s.key.challenges.getD (sideIx r.side) none = some (ch, e)) (runs : s.ticks < e) (grant : s.key.grant = some g)
    (signed : Config.verify g.key (ch ++ leBytes 8 s.ident.deviceId) b = true) :
    Answers (.keyMaintProve r b) s fun t => Posted t r stsOk [] ∧ t.key.challenges.getD (sideIx r.side) none = none
      ∧ t.key.authority = some (r.side, s.ticks + msTicks 600000) := by
  refine ⟨_, (exec_keyMaintProve length lc).trans (congrArg Host.Outcome.next (if_pos ?_)), rfl, challenges_spendChallenge, rfl⟩
  rw [provesMaint, challenge, grant]
  simp [runs, signed]

/-- All slots of a device in PROVISIONED or SERVICE: Hedgehog's line. -/
theorem keyZeroise_all (lc : s.key.lc = .provisioned ∨ s.key.lc = .service) :
    Answers (.keyZeroise r 0xFFFFFFF8) s fun t => Posted t r stsOk [] ∧ t.key.seed = none ∧ t.key.zeroised = true
      ∧ ∀ n, (slotOf t n).loaded = false := by
  have range : (field 0xFFFFFFF8 2 0 != 0 || decide (2 ^ 32 ≤ 0xFFFFFFF8)) = false := by decide
  have run : exec (.keyZeroise r 0xFFFFFFF8) s = .next (postSts r stsOk (zeroise 7 s)) := by
    refine congrArg Host.Outcome.next ((guarded_ok ((firstFail_cons_false range).trans ?_)).trans (if_pos ?_))
    · rcases lc with lc | lc <;> simp [firstFail, lc]
    · rcases lc with lc | lc <;> simp [lc]
  refine ⟨_, run, rfl, ?_⟩
  simp only [slotOf, postSts_key]
  exact zeroise_clears

theorem keyZeroise_masked {m n : Nat} (lc : s.key.lc = .maintenance) (auth : hasAuthority s r.side = true)
    (random : s.key.rngFail = false) (hm : m < 2 ^ 32) (derived : field m 2 0 = 0) (hn : n < 32) (masked : bitAt m n = true) :
    Answers (.keyZeroise r m) s fun t => Posted t r stsOk [] ∧ Erased n t.key := by
  have run : exec (.keyZeroise r m) s = .next (postSts r stsOk (slotsChanged (eraseMask m (List.range 32) s))) := by
    refine congrArg Host.Outcome.next ((guarded_ok ?_).trans ((if_neg (by simp [lc])).trans (if_neg (ne_true_of_eq_false random))))
    refine (firstFail_cons_false ?_).trans ((firstFail_cons_false ?_).trans (firstFail_cons_false ?_))
    · simp only [derived, bne_self_eq_false, Bool.false_or, decide_eq_false_iff_not]
      omega
    · simp [lc]
    · simp [auth]
  refine ⟨_, run, rfl, ?_⟩
  rw [postSts_key]
  exact (erased_eraseMask (List.mem_range.mpr hn) masked).slotsChanged

theorem keyAttest_posts (length : b.length = 32) (signs : s.key.lc = .retired ∨ (slotOf s 1).loaded = true) :
    Answers (.keyAttest r b) s fun t => t.key.tamperSince = false
      ∧ ∃ x : Bytes, x.length = 96 ∧ Posted t r stsOk (statement s b ++ x) := by
  refine ⟨_, congrArg Host.Outcome.next (guarded_ok ((firstFail_cons_false (by simp [length])).trans
    (firstFail_cons_false ?_))), rfl, _, fit_length, rfl⟩
  rcases signs with h | h <;> simp [h]

theorem keyCertRead_posts (cert : s.key.certBad = false) :
    Answers (.keyCertRead r) s fun t => Posted t r stsOk (Config.certificate.take 1024) ∧ t.key = s.key :=
  ⟨_, congrArg Host.Outcome.next (guarded_ok (firstFail_cons_false cert)), rfl, rfl⟩

end Commands

/-! ## The ends of grants, and detections (R327, R341) -/

/-- A grant run out, whose return is due. -/
def grantExpired : State → State :=
  onKey fun k => { k with returnDue := true, grant := k.grant.map fun g => { g with seconds := 0 } }

theorem maintGrantExpiry_ends (lc : s.key.lc = .maintenance) (grant : s.key.grant.isSome = true) :
    Answers .maintGrantExpiry s fun t =>
      (s.str.act = none → t.key.grant = none ∧ t.key.lcRec.get.state = .service ∧ t.sys.reqReset.isSome = true)
        ∧ (s.str.act.isSome = true → t.key.returnDue = true ∧ t.key.grant = s.key.grant.map (fun g => { g with seconds := 0 })) := by
  have run : exec .maintGrantExpiry s = .next (returnIfDue (grantExpired s)) := congrArg Host.Outcome.next (if_pos ⟨lc, grant⟩)
  have lc' : (grantExpired s).key.lc = .maintenance := lc
  refine ⟨_, run, fun idle => ?_, fun runs => ?_⟩
  · have idle : (grantExpired s).str.act.isNone = true := by rw [show (grantExpired s).str.act = none from idle]; rfl
    rw [returnIfDue, if_pos ⟨rfl, idle⟩, endMaintenance_of_maintenance lc']
    exact ⟨(transition_ends_maintenance lc').1, transition_state, transition_asks_reset⟩
  · have runs : ¬ ((grantExpired s).key.returnDue = true ∧ (grantExpired s).str.act.isNone = true) := by
      have runs : (grantExpired s).str.act.isSome = true := runs
      simp [Option.isSome_iff_ne_none.mp runs]
    rw [returnIfDue, if_neg runs]
    exact ⟨rfl, rfl⟩

/-- A wake of a device that is awake abandons a sleep entry at most, which leaves the key engine. -/
theorem wakeBy_keeps_key {k : Nat} (reset : s.sys.reset = none) (dormant : s.sys.mode ≠ .dormant) (watch : s.sys.mode ≠ .watch) :
    (wakeBy k false s).key = s.key := by
  cases entry : s.sys.entry with
  | none => rw [wakeBy_of_awake reset entry dormant watch]
  | some e =>
    simp only [wakeBy, entry]
    split
    · exact part_of_law .key (same_abandonSleep e k) rfl
    · rfl

theorem tamperAct_counts {d : Nat} : (tamperAct d s).key.tampCnt = satInc 32 s.key.tampCnt
    ∧ (tamperAct d s).key.active = s.key.active ∧ bitAt (tamperAct d s).key.latched d = true
    ∧ (s.key.lc = .provisioned ∨ s.key.lc = .service →
        (tamperAct d s).key.seed = none ∧ ∀ n, (slotOf (tamperAct d s) n).loaded = false) := by
  unfold tamperAct
  extract_lets s1 s2
  have key : s2.key = s1.key := logEv_key
  have latched : bitAt s1.key.latched d = true := by
    show bitAt (Nat.lor _ (2 ^ d)) d = true
    rw [bitAt_lor, bitAt_two_pow, Bool.or_true]
  split
  next h =>
    obtain ⟨seed, -, slots⟩ := zeroise_clears (s := s2) (cause := d)
    refine ⟨?_, ?_, ?_, fun _ => ⟨seed, slots⟩⟩
    · rw [zeroise_keeps_key (v := fun k => k.tampCnt) (fun _ _ => rfl) fun _ _ _ _ => rfl, key]
      rfl
    · rw [zeroise_keeps_key (v := fun k => k.active) (fun _ _ => rfl) fun _ _ _ _ => rfl, key]
      rfl
    · rw [zeroise_keeps_key (v := fun k => k.latched) (fun _ _ => rfl) fun _ _ _ _ => rfl, key]
      exact latched
  next h =>
    rw [key]
    refine ⟨rfl, rfl, latched, fun lc => absurd ?_ h⟩
    rw [key]
    exact lc

theorem mode_tamperAct {d : Nat} : (tamperAct d s).sys.mode = s.sys.mode ∧ (tamperAct d s).sys.reset = s.sys.reset := by
  have same : Same [.glk, .tag, .key, .log, .sram] s (tamperAct d s) := same_tamperAct d rfl (same_refl _ s)
  have view := same_resetView same rfl
  simp only [resetView, Prod.mk.injEq] at view
  exact ⟨view.2.2.2, view.1⟩

theorem tamperDetect_acts {d : Nat} (hd : d < 7) (reset : s.sys.reset = none) (dormant : s.sys.mode ≠ .dormant)
    (watch : s.sys.mode ≠ .watch) :
    Answers (.tamperDetect d) s fun t => t.key.tampCnt = satInc 32 s.key.tampCnt ∧ bitAt t.key.active d = true
      ∧ bitAt t.key.latched d = true
      ∧ (s.key.lc = .provisioned ∨ s.key.lc = .service → t.key.seed = none ∧ ∀ n, (slotOf t n).loaded = false) := by
  let seen := onKey (fun k => { k with active := Nat.lor k.active (2 ^ d) }) s
  have run : exec (.tamperDetect d) s = .next (wakeBy srcTamper false (tamperAct d seen)) := by
    refine congrArg Host.Outcome.next ((if_pos hd).trans (if_neg ?_))
    simp [reset, dormant, watch]
  obtain ⟨mode, held⟩ := mode_tamperAct (s := seen) (d := d)
  have key : (wakeBy srcTamper false (tamperAct d seen)).key = (tamperAct d seen).key :=
    wakeBy_keeps_key (held.trans reset) (mode ▸ dormant) (mode ▸ watch)
  obtain ⟨count, active, latched, zeroises⟩ := tamperAct_counts (s := seen) (d := d)
  refine ⟨_, run, ?_⟩
  simp only [slotOf, key]
  refine ⟨count, ?_, latched, zeroises⟩
  rw [active]
  show bitAt (Nat.lor _ (2 ^ d)) d = true
  rw [bitAt_lor, bitAt_two_pow, Bool.or_true]

/-- Settles O35: R337's rows decide a message, and the effect of an accepted one is that of its operation, where the users of
the slots write no more than their misuse entries. -/
theorem keyCommandsEffect : Obligations.KeyCommandsEffect := by
  unfold Obligations.KeyCommandsEffect
  refine ⟨?update, ?accepted, ?challenge, ?prove, ?opens, ?all, ?masked, ?attest, ?cert, ?count, ?status, ?grant, ?authority,
    ?tamper⟩
  case update => exact fun s r m inv => keyUpdate_answers inv
  case accepted =>
    intro s r m p k inv hk range allowed signed format fits busy newer opens random
    exact keyUpdate_accepts inv hk range allowed signed format fits busy newer opens random
  case challenge => exact fun s r lc random sides => keyChallenge_posts lc random sides
  case prove => exact fun s r b length lc => keyMaintProve_answers length lc
  case opens =>
    intro s r b ch e g length lc challenge runs grant signed
    exact keyMaintProve_opens length lc challenge runs grant signed
  case all => exact fun s r lc => keyZeroise_all lc
  case masked =>
    intro s r m n _ lc auth random hm derived hn masked
    obtain ⟨t, run, posted, slot, blobA, blobB⟩ := keyZeroise_masked (r := r) lc auth random hm derived hn masked
    exact ⟨t, run, posted, slot, blobA, blobB⟩
  case attest => exact fun s r b length signs => keyAttest_posts length signs
  case cert => exact fun s r cert => keyCertRead_posts cert
  case count =>
    intro s v
    refine ⟨_, rfl, rfl, fun views => put_getD_self ?_⟩
    rw [views]
    cases v <;> decide
  case status => exact fun s v => ⟨_, rfl, rfl, rfl⟩
  case grant => exact fun s lc grant => maintGrantExpiry_ends lc grant
  case authority => exact fun s v => ⟨⟨_, rfl, put_default⟩, fun held => ⟨_, congrArg Host.Outcome.next (if_pos held), rfl⟩⟩
  case tamper => exact fun s d _ hd reset dormant watch => tamperDetect_acts hd reset dormant watch

end Sys2Proof.Machine
end

section
/-! PROOFS. The statement of 13_firmware_update.md: what each update command completes with (R351, R352, R354-R359, R362). -/

namespace Sys2Proof.Machine

-- One proof after the other, as in Sys2Proof/Tests/Slice0.lean: in parallel, their stacks pass the check's memory limit.
set_option Elab.async false

variable {s : State} {α : Type} {k : Nat}

/-! ## Kinds and banks (R350) -/

theorem kindOf_onKind_self {f : Kind → Kind} (there : k - 1 < s.upd.kinds.length) : kindOf (onKind k f s) k = f (kindOf s k) :=
  upd_getD_self there

/-- A view of the kinds that an update of one of them keeps. -/
theorem kindOf_onKind_keeps {g : Kind → α} {f : Kind → Kind} {j : Nat} (hf : ∀ d, g (f d) = g d) :
    g (kindOf (onKind k f s) j) = g (kindOf s j) := by
  have images : ((upd s.upd.kinds (k - 1) f).map g).getD (j - 1) (g Kind.fresh) = (s.upd.kinds.map g).getD (j - 1) (g Kind.fresh) := by
    rw [map_upd_of_keeps hf]
  rwa [List.getD_map, List.getD_map] at images

theorem kindOf_congr {t : State} (kinds : t.upd.kinds = s.upd.kinds) : kindOf t k = kindOf s k := by rw [kindOf, kinds, kindOf]

theorem kind_there (inv : s.Inv) (high : k ≤ 10) : k - 1 < s.upd.kinds.length := by
  obtain ⟨-, -, -, -, -, -, -, -, -, -, -, shape, -⟩ := inv
  have length : s.upd.kinds.length = 10 := by simpa [UpdBlock.shape] using shape
  omega

/-- The end of a migration writes the settings alone. -/
theorem endMigration_upd {g : UpdBlock → α} {keep : Bool} (free : ∀ b l, g { b with settings := l } = g b) :
    g (endMigration k keep s).upd = g s.upd := by
  unfold endMigration
  split
  · split
    · show g (logEv _ _ _ _ _ _).upd = _
      rw [logEv_upd]
      exact free s.upd _
    · rfl
  · rfl

theorem kinds_endMigration {keep : Bool} : (endMigration k keep s).upd.kinds = s.upd.kinds :=
  endMigration_upd (g := fun b => b.kinds) fun _ _ => rfl

/-! ## Transfers (R351, R352) -/

section Transfers
variable {r : Req} {b h : Bytes} {x : Transfer}

theorem eraseOther_upd {g : UpdBlock → α} (free : ∀ b l, g { b with kinds := l } = g b) : g (eraseOther k s).upd = g s.upd := by
  unfold eraseOther
  dsimp only
  split
  · exact free s.upd _
  · exact free s.upd _

theorem logUpdReject_upd {c : EvClass} {row : Nat} : (logUpdReject c row h s).upd = s.upd := logEv_upd

/-- A refusal of UPD_BEGIN keeps the transfer and notes its row; the row of the update key may also note a misuse. -/
theorem updBegin_refuses {row sts : Nat} {c : Bool} {cls : Option EvClass}
    (found : (beginRows s h).find? (·.2.1) = some (row, c, sts, cls)) :
    Posted (updBegin r h s) r sts [] ∧ (updBegin r h s).upd.xfer = s.upd.xfer ∧ (updBegin r h s).upd.rejectRow = row := by
  let noted := keepReject row sts s
  have asked : (if row = 6 then askKey noted.upd.keySlot 2 3 9 noted else noted).upd = noted.upd := by
    split
    · exact part_of_law .upd (same_askKey noted.upd.keySlot 2 3 9) rfl
    · rfl
  unfold updBegin
  rw [found]
  refine ⟨rfl, ?_⟩
  rw [postSts_upd]
  cases cls with
  | some c =>
    dsimp only
    rw [logUpdReject_upd, asked]
    exact ⟨rfl, rfl⟩
  | none =>
    dsimp only
    rw [asked]
    exact ⟨rfl, rfl⟩

theorem updBegin_opens (passes : (beginRows s h).find? (·.2.1) = none) :
    Posted (updBegin r h s) r stsOk [] ∧ ∃ x, (updBegin r h s).upd.xfer = some x ∧ x.kind = byteAt 8 h ∧ x.data = [] := by
  unfold updBegin
  rw [passes]
  exact ⟨rfl, _, rfl, rfl, rfl⟩

theorem exec_updData (up : s.sys.badgerDown = false) (xfer : s.upd.xfer = some x) (data : b ≠ []) (most : b.length ≤ 4096)
    (fits : x.data.length + b.length ≤ leAt 0x14 4 x.header + 16) (mode : s.sys.mode ≠ .limp) :
    exec (.updData r x.data.length b) s = .next (postSts r stsOk (onUpd (fun u => { u with
      xfer := some { x with data := x.data ++ b, tick := s.ticks } }) s)) := by
  refine congrArg Host.Outcome.next ((badgerCmd_up up).trans ?_)
  unfold updData
  rw [if_neg (Nat.not_lt.mpr most), if_neg mode, if_neg (by simpa using data), xfer]
  dsimp only
  rw [if_neg (Nat.not_lt.mpr fits), if_neg (not_not_intro rfl)]

theorem xfer_closeTransfer : (closeTransfer s).upd.xfer = none := by
  unfold closeTransfer
  split
  · rfl
  next none => exact none

/-- A complete transfer whose image does not open is closed. -/
theorem updEnd_fails (xfer : s.upd.xfer = some x) (whole : leAt 0x14 4 x.header + 16 ≤ x.data.length) (mode : s.sys.mode ≠ .limp)
    (tag : plaintext x = none) : Posted (updEnd r s) r stsIntegrity [] ∧ (updEnd r s).upd.xfer = none := by
  have run : updEnd r s = postSts r stsIntegrity (logUpdReject .security 0 x.header (keepReject 0 stsIntegrity (closeTransfer s))) := by
    simp only [updEnd, xfer, Nat.not_lt.mpr whole, mode, tag, if_false]
  rw [run, postSts_upd]
  refine ⟨rfl, ?_⟩
  have upd : (logUpdReject .security 0 x.header (keepReject 0 stsIntegrity (closeTransfer s))).upd
      = (keepReject 0 stsIntegrity (closeTransfer s)).upd := logEv_upd
  rw [upd]
  exact xfer_closeTransfer

/-- The bank that a transfer went into, STAGED with its bytes. -/
def stagedBank (x : Transfer) (p : Bytes) (s : State) : Bank :=
  { otherBank s x.kind with state := .staged, payload := p, cek := x.cek }

/-- One that opens is staged with its bytes. -/
theorem updEnd_stages {p : Bytes} (there : x.kind - 1 < s.upd.kinds.length) (manifest : x.kind ≠ 10) (xfer : s.upd.xfer = some x)
    (whole : leAt 0x14 4 x.header + 16 ≤ x.data.length) (mode : s.sys.mode ≠ .limp) (opens : plaintext x = some p) :
    Posted (updEnd r s) r stsOk [] ∧ (updEnd r s).upd.xfer = none
      ∧ (if otherIsB s x.kind then (kindOf (updEnd r s) x.kind).b else (kindOf (updEnd r s) x.kind).a) = stagedBank x p s := by
  have run : (updEnd r s).upd.xfer = none
      ∧ (updEnd r s).upd.kinds = (setBank x.kind (otherIsB s x.kind) (stagedBank x p s) s).upd.kinds
      ∧ Posted (updEnd r s) r stsOk [] := by
    simp only [updEnd, xfer, Nat.not_lt.mpr whole, mode, opens, manifest, false_and, if_false]
    rw [postSts_upd, logEv_upd]
    refine ⟨rfl, ?_, rfl⟩
    split
    · rfl
    · rfl
  obtain ⟨closed, kinds, posted⟩ := run
  refine ⟨posted, closed, ?_⟩
  rw [kindOf_congr kinds, setBank, kindOf_onKind_self there]
  split
  · rfl
  · rfl

end Transfers

/-! ## Activation of one kind (R354) -/

section Activation
variable {r : Req}

/-- Past every row, the staged bank of a kind 5 to 8 comes into use and its trial begins. -/
def beginTrial (k : Nat) (s : State) : State :=
  startKind k (onUpd (fun b => { b with
    trial := some { kind := k, parts := [k], seconds := 600, starts := 0, confirmed := false, sealChange := false } }) s)

theorem exec_updActivate (up : s.sys.badgerDown = false) (low : 5 ≤ k) (high : k ≤ 8) (lc : s.key.lc ≠ .retired)
    (staged : (otherBank s k).state = .staged) (fits : fitsRunning s [] k (otherBank s k) = true)
    (settings : settingsFit s k (otherBank s k) = true) (mode : s.sys.mode = .ready ∨ s.sys.mode = .maintenance)
    (session : anySession s = false) (trial : s.upd.trial = none) (xfer : s.upd.xfer = none) (act : anyActivation s = false) :
    exec (.updActivate r k) s = .next (beginTrial k (migrate k (otherBank s k) (takeBank k
      (onUpd (fun b => { b with lastRc := stsOk })
        (postSts r stsOk (logActivate k (activeBank s k).version (otherBank s k).version s)))))) := by
  have limp : s.sys.mode ≠ .limp := by rcases mode with m | m <;> simp [m]
  have powered : ¬ (s.sys.mode ≠ .ready ∧ s.sys.mode ≠ .maintenance) := fun h => mode.elim h.1 h.2
  refine congrArg Host.Outcome.next ((badgerCmd_up up).trans ?_)
  unfold updActivate
  rw [if_neg (by omega), if_neg limp, if_neg (by omega)]
  unfold activateOne
  dsimp only
  rw [if_neg (by omega), if_neg lc, if_neg (by simp [fits, settings]), if_neg ?row4, if_neg (by simp [trial, xfer, act]),
    if_neg (by omega)]
  · rfl
  case row4 =>
    have nine : k ≠ 9 := by omega
    simp [staged, powered, session, nine]

theorem migrate_upd {g : UpdBlock → α} {x : Bank} (free : ∀ b l, g { b with settings := l } = g b) :
    g (migrate k x s).upd = g s.upd := by
  unfold migrate
  split
  · split
    · exact free s.upd _
    · rfl
  · rfl

/-- The bank taken is the one that was not in use. -/
theorem activeB_takeBank (there : k - 1 < s.upd.kinds.length) : (kindOf (takeBank k s) k).activeB = otherIsB s k := by
  have kinds : (takeBank k s).upd = (onKind k (fun d => { d with activeB := otherIsB s k }) (markBank k (otherIsB s k) .trial
      (if running (activeBank s k) then markBank k (!otherIsB s k) .previous s else s))).upd := part_of_law .upd same_ctPublishInfo rfl
  rw [kindOf_congr (congrArg UpdBlock.kinds kinds), kindOf_onKind_self]
  show k - 1 < (upd _ _ _).length
  rw [upd_length]
  split
  · exact (upd_length _ _ _).symm ▸ there
  · exact there

theorem beginTrial_begins : ∃ x, (beginTrial k s).upd.trial = some x ∧ x.kind = k ∧ x.parts = [k] ∧ x.seconds = 600 ∧ x.starts = 0 := by
  have upd : (beginTrial k s).upd = _ := part_of_law .upd (same_startKind k) rfl
  exact ⟨_, congrArg UpdBlock.trial upd, rfl, rfl, rfl, rfl⟩

theorem kinds_beginTrial : (beginTrial k s).upd.kinds = s.upd.kinds := by
  have upd : (beginTrial k s).upd = _ := part_of_law .upd (same_startKind k) rfl
  rw [upd]
  rfl

theorem updActivate_begins (inv : s.Inv) (up : s.sys.badgerDown = false) (low : 5 ≤ k) (high : k ≤ 8) (lc : s.key.lc ≠ .retired)
    (staged : (otherBank s k).state = .staged) (fits : fitsRunning s [] k (otherBank s k) = true)
    (settings : settingsFit s k (otherBank s k) = true) (mode : s.sys.mode = .ready ∨ s.sys.mode = .maintenance)
    (session : anySession s = false) (trial : s.upd.trial = none) (xfer : s.upd.xfer = none) (act : anyActivation s = false) :
    Answers (.updActivate r k) s fun t => Posted t r stsOk [] ∧ (kindOf t k).activeB = otherIsB s k
      ∧ ∃ x, t.upd.trial = some x ∧ x.kind = k ∧ x.parts = [k] ∧ x.seconds = 600 ∧ x.starts = 0 := by
  let noted := onUpd (fun b => { b with lastRc := stsOk })
    (postSts r stsOk (logActivate k (activeBank s k).version (otherBank s k).version s))
  have run : exec (.updActivate r k) s = .next (beginTrial k (migrate k (otherBank s k) (takeBank k noted))) :=
    exec_updActivate up low high lc staged fits settings mode session trial xfer act
  have kinds : noted.upd.kinds = s.upd.kinds := by
    show (postSts r stsOk (logActivate _ _ _ s)).upd.kinds = _
    rw [postSts_upd]
    exact congrArg UpdBlock.kinds logEv_upd
  refine ⟨_, run, ?_, ?_, beginTrial_begins⟩
  · have posted : Posted noted r stsOk [] := rfl
    have taken := posted_of_law posted (same_takeBank (s := noted) k)
    have migrated := posted_of_law taken (same_migrate (s := takeBank k noted) k (otherBank s k))
    exact posted_of_law (s := onUpd _ (migrate k (otherBank s k) (takeBank k noted))) migrated (same_startKind k)
  · have other : otherIsB noted k = otherIsB s k := by
      unfold otherIsB
      rw [if_neg (by omega), if_neg (by omega), kindOf_congr kinds]
    have begun : (beginTrial k (migrate k (otherBank s k) (takeBank k noted))).upd.kinds = (takeBank k noted).upd.kinds :=
      kinds_beginTrial.trans (migrate_upd (g := fun b => b.kinds) fun _ _ => rfl)
    rw [kindOf_congr begun, activeB_takeBank (kinds ▸ kind_there inv (by omega)), other]

end Activation

/-! ## Trials (R355-R358) -/

section Trials
variable {j : Nat}

/-- The security version of the image in use. -/
def secOf (s : State) (j : Nat) : Nat := (activeBank s j).secVersion

theorem secOf_markBank {x : Bool} {st : BankState} : secOf (markBank k x st s) j = secOf s j :=
  kindOf_onKind_keeps (g := fun d => (if d.activeB then d.b else d.a).secVersion) fun d => by cases x <;> cases d.activeB <;> rfl

theorem secOf_congr {t : State} (kinds : t.upd.kinds = s.upd.kinds) : secOf t j = secOf s j := by
  rw [secOf, activeBank, kinds, secOf, activeBank]

/-- The floor of a commit is raised on the kinds as marked; the migration and the event leave them. -/
theorem kinds_commitPart : (commitPart k s).upd.kinds
    = (onKind k (fun d => { d with floor := max d.floor (secOf s k) }) (markBank k (kindOf s k).activeB .active s)).upd.kinds := by
  unfold commitPart
  dsimp only
  rw [logEv_upd, kinds_endMigration]
  rfl

theorem secOf_commitPart : secOf (commitPart k s) j = secOf s j := by
  rw [secOf_congr kinds_commitPart]
  refine Eq.trans ?_ (secOf_markBank (k := k) (x := (kindOf s k).activeB) (st := .active))
  exact kindOf_onKind_keeps (g := fun d => (if d.activeB then d.b else d.a).secVersion) fun d => rfl

theorem kindsLength_commitPart : (commitPart k s).upd.kinds.length = s.upd.kinds.length := by
  rw [kinds_commitPart]
  exact (upd_length _ _ _).trans (upd_length _ _ _)

/-- A part committed has the floor of its image. -/
theorem floor_commitPart (there : k - 1 < s.upd.kinds.length) : secOf s k ≤ (kindOf (commitPart k s) k).floor := by
  rw [kindOf_congr kinds_commitPart, kindOf_onKind_self ((upd_length _ _ _).symm ▸ there)]
  exact le_max_right _ _

/-- What no operation takes back holds of a floor. -/
theorem floor_of_marked {t : State} (h : Marked (securityMarks s) t) (j : Nat) : (kindOf s j).floor ≤ (kindOf t j).floor := by
  obtain ⟨-, -, upd, -⟩ := h
  exact upd.floors (j - 1)

/-- After the commits of its parts no floor of a trial lies below its image. -/
theorem floor_commitParts {l : List Nat} (part : j ∈ l) (there : j - 1 < s.upd.kinds.length) :
    secOf s j ≤ (kindOf (l.foldl (fun s k => commitPart k s) s) j).floor := by
  induction l generalizing s with
  | nil => simp at part
  | cons k l ih =>
    rcases List.mem_cons.mp part with same | later
    · subst same
      rw [List.foldl_cons]
      refine (floor_commitPart there).trans (floor_of_marked (s := commitPart j s) ?_ j)
      exact marked_foldl marked_securityMarks fun s k h => marked_commitPart k h
    · rw [← secOf_commitPart (k := k)]
      exact ih later (by rw [kindsLength_commitPart]; exact there)

theorem trialPass_commits {x : Trial} (inv : s.Inv) (trial : s.upd.trial = some x) (held : x.kind ≠ 5 ∨ x.confirmed = true) :
    Answers .trialPass s fun t => t.upd.trial = none ∧ t.upd.lastRc = stsOk
      ∧ ∀ k ∈ x.parts, 1 ≤ k → k ≤ 10 → (activeBank s k).secVersion ≤ (kindOf t k).floor := by
  have run : exec .trialPass s = .next (commitTrial x s) := by
    show execTrialPass s = _
    simp only [execTrialPass, trial]
    refine congrArg Host.Outcome.next (if_neg fun h => ?_)
    rcases held with kind | confirmed
    · exact kind h.1
    · simp [confirmed] at h
  refine ⟨_, run, rfl, rfl, fun k part _ high => ?_⟩
  refine (floor_commitParts part (kind_there inv high)).trans (floor_of_marked ?_ k)
  unfold commitTrial
  refine marked_onUpd ?_ fun _ h => ⟨h.floors⟩
  refine marked_ite (marked_mirrorCopy ?_) ?_
  all_goals exact marked_ite (marked_commitPart 10 marked_securityMarks) marked_securityMarks

theorem trial_rollbackPart {c : Nat} : (rollbackPart c k s).upd.trial = s.upd.trial := by
  unfold rollbackPart
  extract_lets d failed back s1 s2 s3
  have published : s3.upd = (endMigration k false s2).upd := part_of_law .upd same_ctPublishInfo rfl
  rw [logEv_upd, published, endMigration_upd (g := fun b => b.trial) fun _ _ => rfl]
  unfold s2
  split
  · rfl
  · rfl

/-- A part rolled back returns to its previous bank. -/
theorem activeB_rollbackPart {c : Nat} (there : k - 1 < s.upd.kinds.length)
    (previous : (if (kindOf s k).activeB then (kindOf s k).a else (kindOf s k).b).state = .previous) :
    (kindOf (rollbackPart c k s) k).activeB = !(kindOf s k).activeB := by
  unfold rollbackPart
  extract_lets d failed back s1 s2 s3
  have kinds : s3.upd.kinds = s2.upd.kinds := by
    have published : s3.upd = (endMigration k false s2).upd := part_of_law .upd same_ctPublishInfo rfl
    rw [published, kinds_endMigration]
  rw [kindOf_congr (congrArg UpdBlock.kinds logEv_upd), kindOf_congr kinds]
  unfold s2
  rw [if_pos previous, kindOf_onKind_self (by simpa [s1, markBank, onKind] using there)]
  have marked {x : Bool} {st : BankState} {s : State} : (kindOf (markBank k x st s) k).activeB = (kindOf s k).activeB :=
    kindOf_onKind_keeps (g := fun d => d.activeB) fun d => by cases x <;> rfl
  rw [marked, marked]

/-- A trial that fails leaves its rest to the rollback of its kind, or to the next reset for a manifest. -/
theorem trialFail_ends {c : Nat} {x : Trial} (inv : s.Inv) (trial : s.upd.trial = some x) (high : x.kind ≤ 10) :
    Answers (.trialFail c) s fun t => t.upd.trial = none
      ∧ (x.kind = 10 → t.upd.actBusy = true ∧ t.upd.act.rollback = true)
      ∧ (x.kind ≠ 10 →
          (if (kindOf s x.kind).activeB then (kindOf s x.kind).a else (kindOf s x.kind).b).state = .previous →
          (kindOf t x.kind).activeB = !(kindOf s x.kind).activeB) := by
  let ended := bump (onUpd (fun b => { b with trial := none, lastRc := freeNat s % 12 }) s)
  have run : exec (.trialFail c) s = .next (failTrial c s) := rfl
  by_cases manifest : x.kind = 10
  · refine ⟨_, run, ?_⟩
    simp only [failTrial, trial, manifest, if_true]
    exact ⟨rfl, fun _ => ⟨rfl, rfl⟩, fun other => absurd rfl other⟩
  · have upd : (failTrial c s).upd = (rollbackPart c x.kind ended).upd := by
      simp only [failTrial, trial, manifest, if_false]
      split
      · rfl
      · exact part_of_law .upd (same_startKind x.kind) rfl
    refine ⟨_, run, ?_, fun is => absurd is manifest, fun _ previous => ?_⟩
    · rw [upd]
      exact trial_rollbackPart
    · rw [kindOf_congr (congrArg UpdBlock.kinds upd)]
      exact activeB_rollbackPart (s := ended) (kind_there inv high) previous

end Trials

/-- Settles O36: each clause by the equation of its command; past the rows, what an image's start does leaves the banks. -/
theorem updateCommandsEffect : Obligations.UpdateCommandsEffect := by
  unfold Obligations.UpdateCommandsEffect
  refine ⟨?start, ?data, ?finish, ?close, ?activate, ?confirm, ?pass, ?fail⟩
  case start =>
    intro s r h _ up
    refine ⟨_, congrArg Host.Outcome.next (badgerCmd_up up), ?_⟩
    dsimp only
    split
    next row found => exact updBegin_refuses found
    next found => exact updBegin_opens found
  case data =>
    intro s r b x up xfer data most fits mode
    exact ⟨_, exec_updData up xfer data most fits mode, rfl, rfl⟩
  case finish =>
    intro s r x inv up xfer low high whole mode
    refine ⟨_, congrArg Host.Outcome.next (badgerCmd_up up), ?_⟩
    dsimp only
    cases opens : plaintext x with
    | none =>
      obtain ⟨posted, closed⟩ := updEnd_fails (r := r) xfer whole mode opens
      exact ⟨closed, posted⟩
    | some p =>
      obtain ⟨posted, closed, bank⟩ := updEnd_stages (r := r) (kind_there inv (by omega)) (by omega) xfer whole mode opens
      dsimp only
      rw [bank]
      exact ⟨closed, posted, rfl, rfl⟩
  case close =>
    intro s r up xfer
    refine ⟨⟨_, congrArg Host.Outcome.next ((badgerCmd_up up).trans (guarded_ok (firstFail_cons_false ?_))), rfl, ?_⟩, _, rfl,
      xfer_closeTransfer⟩
    · rw [Option.isNone_eq_false_iff]
      exact xfer
    · rw [postSts_upd]
      exact xfer_closeTransfer
  case activate =>
    intro s r k inv up low high lc staged fits settings mode session trial xfer act
    exact updActivate_begins inv up low high lc staged fits settings mode session trial xfer act
  case confirm =>
    intro s r x up trial kind side
    refine ⟨_, congrArg Host.Outcome.next ((badgerCmd_up up).trans (guarded_ok (firstFail_cons_false ?_))), rfl, ?_⟩
    · simp [trial, kind, side]
    · exact congrArg (Option.map _) trial
  case pass => exact fun s x inv trial held => trialPass_commits inv trial held
  case fail => exact fun s c x inv trial _ high => trialFail_ends inv trial high

end Sys2Proof.Machine
end

section
/-! PROOFS. The statement of 14_badger_modes.md on Badger: what its watchdogs, mailboxes, monitors and log complete with (R365-R368,
R370, R371, R373, R374, R383). -/

namespace Sys2Proof.Machine

-- One proof after the other, as in Sys2Proof/Tests/Slice0.lean: in parallel, their stacks pass the check's memory limit.
set_option Elab.async false

variable {s t a : State} {α : Type}

/-! ## Views of Dormouse's and Badger's blocks -/

/-- A view of Dormouse's block that its retention buffer leaves. -/
def RetentionFree (g : SysBlock → α) : Prop := ∀ b l x, g { b with retLog := l, retLost := x } = g b

/-- A view of Badger's block that a record of its log leaves. -/
def RecordFree (g : MgtBlock → α) : Prop := ∀ b n l w d, g { b with seq := n, ring := l, waiting := w, dropped := d } = g b

/-- A view of Badger's block that the records and the mailboxes leave: a NOTICE is no part of it. -/
structure NoticeFree (g : MgtBlock → α) : Prop where
  record : RecordFree g
  mailbox : ∀ b x y n, g { b with hmb := x, amb := y, mbxOvf := n } = g b

/-- One that the cluster's heartbeat leaves too. -/
structure ClusterFree (g : MgtBlock → α) : Prop where
  notice : NoticeFree g
  beat : ∀ b x y, g { b with hbTick := x, hbSince := y } = g b

theorem sys_of_part {g : SysBlock → α} (free : RetentionFree g) (h : samePart .sys a s) : g s.sys = g a.sys := by
  have h : { s.sys with retLog := [], retLost := false } = { a.sys with retLog := [], retLost := false } := h
  rw [← free s.sys [] false, h, free]

theorem mgt_of_part {g : MgtBlock → α} (free : RecordFree g) (h : samePart .mgt a s) : g s.mgt = g a.mgt := by
  have h : { s.mgt with seq := 0, ring := [], waiting := 0, dropped := 0 }
    = { a.mgt with seq := 0, ring := [], waiting := 0, dropped := 0 } := h
  rw [← free s.mgt 0 [] 0 0, h, free]

theorem logEv_keeps_sys {g : SysBlock → α} {c : EvClass} {b i k : Nat} {d : List (Nat × Nat)} (free : RetentionFree g) :
    g (logEv c b i k d s).sys = g s.sys := sys_of_part free (part_of_law .sys (same_logEv c b i k d) rfl)

theorem logEv_keeps_mgt {g : MgtBlock → α} {c : EvClass} {b i k : Nat} {d : List (Nat × Nat)} (free : RecordFree g) :
    g (logEv c b i k d s).mgt = g s.mgt := mgt_of_part free (part_of_law .mgt (same_logEv c b i k d) rfl)

section Notices
variable {g : MgtBlock → α} (free : NoticeFree g) {c d : Nat}
include free

theorem noticeTo_keeps_mgt {host : Bool} : g (noticeTo host c d s).mgt = g s.mgt := by
  unfold noticeTo
  extract_lets m m'
  split
  · exact free.mailbox s.mgt s.mgt.hmb s.mgt.amb _
  · cases host with
    | true => exact free.mailbox s.mgt _ s.mgt.amb s.mgt.mbxOvf
    | false => exact free.mailbox s.mgt s.mgt.hmb _ s.mgt.mbxOvf

theorem notice_keeps_mgt : g (notice c d s).mgt = g s.mgt := by
  unfold notice
  split
  · rfl
  · rw [noticeTo_keeps_mgt free, noticeTo_keeps_mgt free]

theorem setMode_keeps_mgt {row : Nat} {m : Mode} : g (setMode row m s).mgt = g s.mgt := by
  unfold setMode
  rw [notice_keeps_mgt free, logEv_keeps_mgt free.record]
  rfl

end Notices

theorem setMode_sys {g : SysBlock → α} (free : RetentionFree g) {row : Nat} {m : Mode} :
    g (setMode row m s).sys = g { s.sys with mode := m } := by
  unfold setMode
  rw [notice_sys, logEv_keeps_sys free]
  rfl

/-! ## The supervisors in a mode that is neither READY nor SESSION (R230, R374) -/

/-- Dormouse's and Badger's blocks as in `a`, but for records. -/
structure Unmoved (a s : State) : Prop where
  sys : samePart .sys a s
  mgt : samePart .mgt a s

theorem unmoved_refl : Unmoved s s := ⟨rfl, rfl⟩

/-- An operation whose law lists neither block. -/
theorem Unmoved.law (q : Unmoved a s) (w : List Part) (f : listed w w = true → Same w s s → Same w s t)
    (hw : (!w.contains .sys && !w.contains .mgt) = true := by rfl) : Unmoved a t := by
  simp only [Bool.and_eq_true, Bool.not_eq_true'] at hw
  obtain ⟨hs, hm⟩ := hw
  exact ⟨(part_of_law .sys f hs : samePart .sys s t).trans q.sys, (part_of_law .mgt f hm : samePart .mgt s t).trans q.mgt⟩

theorem unmoved_ite {c : Prop} [Decidable c] {x y : State} (hx : Unmoved a x) (hy : Unmoved a y) : Unmoved a (if c then x else y) := by
  split
  · exact hx
  · exact hy

theorem unmoved_onLink {o : Nat} {f : Link → Link} (q : Unmoved a s) : Unmoved a (onLink o f s) :=
  q.law [.vlk] fun hw h => same_onLink hw h

theorem Unmoved.mode (q : Unmoved a s) : s.sys.mode = a.sys.mode :=
  sys_of_part (g := fun b => b.mode) (fun _ _ _ => rfl) q.sys

/-- A mode that no session changes. -/
def Mode.still (m : Mode) : Prop := m ≠ .ready ∧ m ≠ .session

section Sessions
variable (still : a.sys.mode.still) {o : Nat}
include still

theorem unmoved_setSup {x : Sup} (q : Unmoved a s) : Unmoved a (setSup o x s) := by
  have checked : Unmoved a (slacCheck o (onLink o (fun l => { l with sup := x }) s)) :=
    (unmoved_onLink q).law [.vlk] (same_slacCheck o)
  unfold setSup
  rw [evalMode_eq_self (by rw [checked.mode]; exact still.1) (by rw [checked.mode]; exact still.2)]
  exact checked

theorem unmoved_lockReached (q : Unmoved a s) : Unmoved a (lockReached o s) :=
  unmoved_ite ((unmoved_onLink (unmoved_setSup still q)).law [.met, .owl, .vlk] (same_advance o)) q

theorem unmoved_startSession (q : Unmoved a s) : Unmoved a (startSession o s) := by
  refine unmoved_ite (unmoved_onLink q) ?_
  unfold runStart
  have locked := (unmoved_setSup still (o := o) (x := .locking) (unmoved_onLink (o := o) (f := fun l => { l with
    startHeld := false, phase := .none, relTries := 0, preTries := 0, endCause := 0, ventSeen := false, session := 0,
    meterOpen := false, limpHit := false, uvPause := false, sessCap := cableCapacity l.ppCode }) q)).law [.pwr, .vlk, .log]
      (same_requestLock o)
  exact unmoved_ite locked (unmoved_lockReached still locked)

theorem unmoved_restState (q : Unmoved a s) : Unmoved a (restState o s) :=
  unmoved_ite (unmoved_setSup still q)
    (unmoved_ite ((unmoved_setSup still q).law [.pwr, .vlk, .log] (same_requestUnlock o)) (unmoved_setSup still q))

theorem unmoved_closeSession (q : Unmoved a s) : Unmoved a (closeSession o s) := by
  unfold closeSession
  refine unmoved_restState still (unmoved_onLink (Unmoved.law ?_ [.log] (same_logSession o 1 _)))
  exact unmoved_ite (q.law [.met] (same_onMetOut o _)) q

theorem unmoved_limpStart (q : Unmoved a s) : Unmoved a (limpStart o s) :=
  unmoved_ite (unmoved_ite (unmoved_onLink q) (unmoved_startSession still q)) q

theorem unmoved_finishSession (q : Unmoved a s) : Unmoved a (finishSession o s) := by
  have closed := unmoved_closeSession still (o := o) q
  exact unmoved_ite (unmoved_limpStart still (closed.law [.vlk] (same_limpPilot o))) closed

theorem unmoved_endSession {c : Nat} (q : Unmoved a s) : Unmoved a (endSession o c s) := by
  unfold endSession
  extract_lets l s1
  have q1 : Unmoved a s1 := unmoved_onLink q
  have dropped : Unmoved a (dropRelease o s1) := q1.law [.pwr, .owl, .vlk, .log] (same_dropRelease o)
  refine unmoved_ite (unmoved_onLink q) ?_
  split
  · exact unmoved_ite (unmoved_onLink q1) (unmoved_onLink dropped)
  · exact unmoved_onLink q1
  · exact unmoved_onLink q1
  · exact unmoved_finishSession still dropped

theorem unmoved_acceptB (q : Unmoved a s) : Unmoved a (acceptB o s) :=
  unmoved_limpStart still ((q.law [.vlk] (same_limpPilot o)).law [.vlk, .tag] (same_takeHit o))

theorem unmoved_limpEnter (q : Unmoved a s) : Unmoved a (limpEnter o s) := by
  have off : Unmoved a (slacOff o s) := q.law [.vlk] (same_slacOff o)
  unfold limpEnter
  refine unmoved_ite q (unmoved_ite (unmoved_endSession still q) (unmoved_ite (unmoved_onLink (unmoved_endSession still off)) ?_))
  refine unmoved_ite (unmoved_onLink off) (unmoved_ite (unmoved_acceptB still ?_) ?_)
  · exact unmoved_endSession still off
  · exact unmoved_endSession still off

theorem unmoved_limpEnterAll (q : Unmoved a s) : Unmoved a (limpEnterAll s) := by
  unfold limpEnterAll
  generalize List.range 4 = l
  induction l generalizing s with
  | nil => exact q
  | cons o l ih => exact ih (unmoved_limpEnter still q)

end Sessions

/-- LIMP entry, once the mode is LIMP, leaves Dormouse and Badger as they are. -/
theorem unmoved_enterLimp {row : Nat} : Unmoved (setMode row .limp s) (enterLimp row s) := by
  have limp : (setMode row .limp s).sys.mode.still := by
    rw [setMode_sys (g := fun b => b.mode) fun _ _ _ => rfl]
    exact ⟨nofun, nofun⟩
  exact (unmoved_limpEnterAll limp unmoved_refl).law [.vlk, .glk, .eth, .can, .sram] same_flushRings

theorem enterLimp_sys {g : SysBlock → α} (free : RetentionFree g) {row : Nat} :
    g (enterLimp row s).sys = g { s.sys with mode := .limp } :=
  (sys_of_part free unmoved_enterLimp.sys).trans (setMode_sys free)

theorem enterLimp_keeps_mgt {g : MgtBlock → α} (free : NoticeFree g) {row : Nat} : g (enterLimp row s).mgt = g s.mgt :=
  (mgt_of_part free.record unmoved_enterLimp.mgt).trans (setMode_keeps_mgt free)

theorem clusterGone_keeps_mgt {g : MgtBlock → α} (free : NoticeFree g) : g (clusterGone s).mgt = g s.mgt := by
  unfold clusterGone
  split
  · exact enterLimp_keeps_mgt free
  · rfl

/-- What row 4 of R374 leaves of Dormouse: all but the mode. -/
theorem clusterGone_sys {g : SysBlock → α} (free : RetentionFree g) (mode : ∀ b m, g { b with mode := m } = g b) :
    g (clusterGone s).sys = g s.sys := by
  unfold clusterGone
  split
  · exact (enterLimp_sys free).trans (mode _ _)
  · rfl

theorem clusterGone_limp (mode : s.sys.mode = .ready ∨ s.sys.mode = .session) : (clusterGone s).sys.mode = .limp := by
  rw [clusterGone, if_pos mode]
  exact enterLimp_sys (g := fun b => b.mode) fun _ _ _ => rfl

/-! ## Watchdogs (R365, R366) -/

/-- Badger stopped by its watchdog: what it had under way has ended. -/
def watchdogStops (s : State) : State :=
  let l := s.ticks :: lastHour s s.mgt.wdtTicks
  let s := onSys (fun b => { b with domBadger := satInc 8 b.domBadger, entry := none, armed := 0 }) (stopBadger (closeTransfer s))
  let s := onMgt (fun b => { b with wdtTicks := l, badgerHeld := decide (3 ≤ l.length) }) (onMet (fun b => { b with stopped := false }) s)
  logEv .service 0x1E 0xFF 0x1403 [(1, min 3 l.length)] s

/-- The watchdog's view of Dormouse. -/
def stopView (b : SysBlock) : Bool × Nat × Mode := (b.badgerDown, b.domBadger, b.mode)

theorem watchdogStops_view : stopView (watchdogStops s).sys = (true, satInc 8 s.sys.domBadger, s.sys.mode) := by
  have closed : (closeTransfer s).sys = s.sys :=
    same_sys_eq (same_closeTransfer (w := [.str, .upd]) rfl (same_refl _ s)) rfl rfl
  unfold watchdogStops
  extract_lets l s1 s2
  rw [logEv_keeps_sys (g := stopView) fun _ _ _ => rfl]
  show (true, satInc 8 (closeTransfer s).sys.domBadger, (closeTransfer s).sys.mode) = _
  rw [closed]

theorem watchdogStops_xfer : (watchdogStops s).upd.xfer = none := by
  unfold watchdogStops
  extract_lets l s1 s2
  rw [logEv_upd]
  show (closeTransfer s).upd.xfer = none
  exact xfer_closeTransfer

theorem exec_badgerWatchdogExpiry (booted : s.sys.booted = true) (up : s.sys.badgerDown = false) (watch : s.sys.mode ≠ .watch)
    (dormant : s.sys.mode ≠ .dormant) : exec .badgerWatchdogExpiry s = .next
      (if (watchdogStops s).sys.mode = .ready ∨ (watchdogStops s).sys.mode = .session ∨ (watchdogStops s).sys.mode = .maintenance
        then enterLimp 3 (watchdogStops s) else watchdogStops s) :=
  congrArg Host.Outcome.next (if_neg (by simp [booted, up, watch, dormant]))

theorem badgerWatchdogExpiry_stops (booted : s.sys.booted = true) (up : s.sys.badgerDown = false) (watch : s.sys.mode ≠ .watch)
    (dormant : s.sys.mode ≠ .dormant) :
    Answers .badgerWatchdogExpiry s fun t => t.sys.badgerDown = true ∧ t.sys.domBadger = satInc 8 s.sys.domBadger
      ∧ t.upd.xfer = none
      ∧ (s.sys.mode = .ready ∨ s.sys.mode = .session ∨ s.sys.mode = .maintenance → t.sys.mode = .limp) := by
  have view := watchdogStops_view (s := s)
  simp only [stopView, Prod.mk.injEq] at view
  obtain ⟨down, count, mode⟩ := view
  have xfer := watchdogStops_xfer (s := s)
  refine ⟨_, exec_badgerWatchdogExpiry booted up watch dormant, ?_⟩
  generalize watchdogStops s = u at down count mode xfer ⊢
  split
  next =>
    have limp := enterLimp_sys (s := u) (g := stopView) (fun _ _ _ => rfl) (row := 3)
    simp only [stopView, Prod.mk.injEq] at limp
    obtain ⟨down', count', mode'⟩ := limp
    refine ⟨down'.trans down, count'.trans count, ?_, fun _ => mode'⟩
    have upd : (enterLimp 3 u).upd = u.upd := part_of_law .upd (same_enterLimp 3) rfl
    rw [upd]
    exact xfer
  next other => exact ⟨down, count, xfer, fun h => absurd (mode ▸ h) other⟩

/-! ### The cluster (R366) -/

theorem startCluster_keeps_mgt {g : MgtBlock → α} (free : ∀ b x y, g { b with hbTick := x, hbSince := y } = g b) :
    g (startCluster s).mgt = g s.mgt := free s.mgt none none

/-- An image of any kind but Badger's starts without a change of Dormouse. -/
theorem startKind_sys {k : Nat} (other : k ≠ 6) : samePart .sys s (startKind k s) := by
  unfold startKind
  split
  · rfl
  · exact absurd rfl other
  · have slac : ∀ l : List Nat, (l.foldl (fun s o => slacCheck o (slacOff o s)) s).sys = s.sys := fun l =>
      foldl_keeps (g := fun s : State => s.sys) fun s o =>
        (same_sys_eq (same_slacCheck (w := [.vlk]) o rfl (same_slacOff o rfl (same_refl _ s))) rfl rfl)
    exact congrArg (fun b : SysBlock => { b with retLog := [], retLost := false }) (slac (List.range 4))
  · split
    · rfl
    · split
      · exact part_of_law .sys same_glkAfterWatch rfl
      · exact (part_of_law .sys same_abandonMsdu rfl : samePart .sys (dropMember .search s) _).trans
          (part_of_law .sys (same_dropMember .search) rfl)
  · rfl

theorem failTrial_sys {c : Nat} : samePart .sys s (failTrial c s) := by
  unfold failTrial
  split
  · rfl
  next x _ =>
    extract_lets rc s1 s2
    have back : samePart .sys s s2 := part_of_law (s := s1) .sys (same_rollbackPart c x.kind) rfl
    split
    · rfl
    · split
      · exact back
      next other => exact (startKind_sys other).trans back

theorem countStart_sys : samePart .sys s (countStart s) := by
  unfold countStart
  split
  · rfl
  · dsimp only
    split
    · exact failTrial_sys
    · rfl

/-- Badger resets the cluster, or holds it where it has restarted three times in the hour. -/
def restartCluster (c : Nat) (l : List Nat) (s : State) : State :=
  let s := startCluster (onSys (fun b => { b with appDown := true }) s)
  if 3 ≤ l.length then onMgt (fun b => { b with appHeld := true }) s
  else
    let s := onSys (fun b => { b with domApp := satInc 8 b.domApp }) (onMgt (fun b => { b with appTicks := s.ticks :: l }) s)
    countStart (notice 5 (l.length + 1) (logEv .service 0x14 0xFF 0x1404 [(1, c), (1, min 3 (l.length + 1))] s))

/-- The heartbeat's view of Dormouse. -/
def heartView (b : SysBlock) : Bool × Nat × Mode := (b.appDown, b.domApp, b.mode)

theorem restartCluster_view {c : Nat} {l : List Nat} : heartView (restartCluster c l s).sys
    = (true, if 3 ≤ l.length then s.sys.domApp else satInc 8 s.sys.domApp, s.sys.mode) := by
  unfold restartCluster
  extract_lets s1 s2
  split
  · rfl
  · rw [sys_of_part (g := heartView) (fun _ _ _ => rfl) countStart_sys, notice_sys,
      logEv_keeps_sys (g := heartView) fun _ _ _ => rfl]
    rfl

theorem exec_appHeartbeatTimeout {c : Nat} (up : badgerUp s = true) (held : s.mgt.appHeld = false) (cool : s.mgt.therm ≠ 4) :
    exec (.appHeartbeatTimeout c) s = .next (clusterGone (restartCluster c (lastHour s s.mgt.appTicks) s)) :=
  congrArg Host.Outcome.next (if_neg (by simp [up, held, cool]))

theorem appHeartbeatTimeout_restarts {c : Nat} (up : badgerUp s = true) (held : s.mgt.appHeld = false) (cool : s.mgt.therm ≠ 4) :
    Answers (.appHeartbeatTimeout c) s fun t => t.sys.appDown = true
      ∧ ((lastHour s s.mgt.appTicks).length < 3 → t.sys.domApp = satInc 8 s.sys.domApp)
      ∧ (3 ≤ (lastHour s s.mgt.appTicks).length → t.mgt.appHeld = true)
      ∧ (s.sys.mode = .ready ∨ s.sys.mode = .session → t.sys.mode = .limp) := by
  refine ⟨_, exec_appHeartbeatTimeout up held cool, ?_⟩
  generalize lastHour s s.mgt.appTicks = l
  have view := restartCluster_view (s := s) (c := c) (l := l)
  simp only [heartView, Prod.mk.injEq] at view
  obtain ⟨down, count, mode⟩ := view
  refine ⟨?_, fun few => ?_, fun many => ?_, fun serving => clusterGone_limp (mode ▸ serving)⟩
  · rw [clusterGone_sys (g := fun b => b.appDown) (fun _ _ _ => rfl) fun _ _ => rfl]
    exact down
  · rw [clusterGone_sys (g := fun b => b.domApp) (fun _ _ _ => rfl) fun _ _ => rfl, count, if_neg (Nat.not_le.mpr few)]
  · rw [clusterGone_keeps_mgt (g := fun b => b.appHeld) ⟨fun _ _ _ _ _ => rfl, fun _ _ _ _ => rfl⟩, restartCluster, if_pos many]
    rfl

theorem mgtRestart_restarts {r : Req} (up : s.sys.badgerDown = false) (host : r.side = .host) :
    Answers (.mgtRestart r) s fun t => Posted t r stsOk [] ∧ t.sram = [] ∧ t.mgt.appHeld = false := by
  refine ⟨_, congrArg Host.Outcome.next ((badgerCmd_up up).trans (guarded_ok (firstFail_cons_false ?_))), rfl, rfl, rfl⟩
  rw [host]
  rfl

/-! ## Mailboxes and Badger's return (R365, R367) -/

/-- The mailbox of a side. -/
def mailbox (v : Side) (b : MgtBlock) : Mailbox := if v = .host then b.hmb else b.amb

theorem heartbeat_keeps_mgt {g : MgtBlock → α} (free : ∀ b x y, g { b with hbTick := x, hbSince := y } = g b) :
    g (heartbeat s).mgt = g s.mgt := by
  unfold heartbeat
  split
  · rfl
  · exact free s.mgt _ _

theorem heartbeat_keeps_sys {g : SysBlock → α} (free : ∀ b x, g { b with appDown := x } = g b) : g (heartbeat s).sys = g s.sys := by
  unfold heartbeat
  split
  · rfl
  · exact free s.sys _

/-- A NOTICE rings the outgoing bell and leaves the incoming one. -/
theorem noticeTo_keeps_inBell {v : Side} {host : Bool} {c d : Nat} :
    (mailbox v (noticeTo host c d s).mgt).inBell = (mailbox v s.mgt).inBell := by
  unfold noticeTo
  extract_lets m m'
  split
  · cases v <;> rfl
  · cases host <;> cases v <;> rfl

/-- The incoming bell of a side, as written. -/
def setInBell (v : Side) (x : Bool) : State → State := onMgt fun b => match v with
  | .host => { b with hmb := { b.hmb with inBell := x } }
  | .cluster => { b with amb := { b.amb with inBell := x } }

theorem inBell_setInBell {v : Side} {x : Bool} : (mailbox v (setInBell v x s).mgt).inBell = x := by cases v <;> rfl

/-- What a message does beside its doorbell: an answer, or a heartbeat. -/
def actOnMessage (v : Side) (m : Mailbox) (s : State) : State :=
  if (decide (byteAt 1 m.inWin ≤ 60) && leAt 2 2 m.inWin == 0) = false then s
  else match v, byteAt 0 m.inWin with
    | .host, 2 => noticeTo true 0 0 s
    | .cluster, 3 => heartbeat s
    | _, _ => s

theorem takeMessage_eq {v : Side} : takeMessage v s = actOnMessage v (mailbox v s.mgt) (setInBell v false s) := rfl

theorem actOnMessage_keeps_inBell {v : Side} {m : Mailbox} :
    (mailbox v (actOnMessage v m s).mgt).inBell = (mailbox v s.mgt).inBell := by
  unfold actOnMessage
  split
  · rfl
  · split
    · exact noticeTo_keeps_inBell
    · exact heartbeat_keeps_mgt (g := fun b => (mailbox .cluster b).inBell) fun _ _ _ => rfl
    · rfl

theorem actOnMessage_keeps_sys {g : SysBlock → α} {v : Side} {m : Mailbox} (free : ∀ b x, g { b with appDown := x } = g b) :
    g (actOnMessage v m s).sys = g s.sys := by
  unfold actOnMessage
  split
  · rfl
  · split
    · exact congrArg g (same_sys_eq (same_noticeTo (w := [.mgt]) true 0 0 rfl (same_refl _ s)) rfl rfl)
    · exact heartbeat_keeps_sys free
    · rfl

/-- A message taken leaves its doorbell clear. -/
theorem takeMessage_clears {v : Side} : (mailbox v (takeMessage v s).mgt).inBell = false := by
  rw [takeMessage_eq, actOnMessage_keeps_inBell, inBell_setInBell]

theorem takeMessage_keeps_sys {g : SysBlock → α} {v : Side} (free : ∀ b x, g { b with appDown := x } = g b) :
    g (takeMessage v s).sys = g s.sys := by
  rw [takeMessage_eq, actOnMessage_keeps_sys free]
  rfl

theorem doorbell_rings {v : Side} : ((mailbox v s.mgt).inBell = true → (doorbell v s).mgt.mbxOvf = satInc 8 s.mgt.mbxOvf)
    ∧ ((mailbox v s.mgt).inBell = false → (mailbox v (doorbell v s).mgt).inBell = !badgerUp s) := by
  refine ⟨fun set => ?_, fun clear => ?_⟩
  · have counted : doorbell v s = onMgt (fun b => { b with mbxOvf := satInc 8 b.mbxOvf }) s := if_pos set
    rw [counted]
    rfl
  · have rung : doorbell v s = if badgerUp (setInBell v true s) then takeMessage v (setInBell v true s) else setInBell v true s :=
      if_neg (ne_true_of_eq_false clear)
    have up : badgerUp (setInBell v true s) = badgerUp s := rfl
    rw [rung, up]
    cases badgerUp s with
    | true => exact takeMessage_clears
    | false => exact inBell_setInBell

theorem badgerReady_returns (down : s.sys.badgerDown = true) (held : s.mgt.badgerHeld = false) :
    Answers .badgerReady s fun t => t.sys.badgerDown = false := by
  refine ⟨_, congrArg Host.Outcome.next (if_neg (by simp [down, held])), ?_⟩
  extract_lets s1 s2 s3
  have taken (v : Side) (s : State) : (takeMessage v s).sys.badgerDown = s.sys.badgerDown :=
    takeMessage_keeps_sys (g := fun b => b.badgerDown) fun _ _ => rfl
  have back : s2.sys.badgerDown = false := by
    have same : Same [.bil, .log] s1 s2 := same_flushProfile rfl (same_drainRetention rfl (same_refl _ s1))
    exact sys_of_part (g := fun b => b.badgerDown) (fun _ _ _ => rfl) (same.part (q := .sys) rfl)
  have first : s3.sys.badgerDown = false := by
    unfold s3
    split
    · rw [taken, back]
    · exact back
  split
  · exact (taken .cluster s3).trans first
  · exact first

/-! ## The clock (R368, R419) -/

theorem channelOff_conducts {c : Channel} : (channelOff c).state.conducts = false := by
  unfold channelOff
  dsimp only
  cases c.state <;> rfl

theorem outputsSafe_safe : (outputsSafe s).OutputsSafe := by
  refine ⟨rfl, ?_⟩
  show ((s.pwr.ch.map channelOff).all fun c => !c.state.conducts) = true
  rw [List.all_map, List.all_eq_true]
  intro c _
  exact congrArg not channelOff_conducts

theorem assertReset_fresh {cold pin : Bool} {c : Nat} (reset : s.sys.reset = none) :
    (assertReset cold c pin s).sys.reset = some { cold := cold, causes := c, pin := pin } := by
  unfold assertReset
  rw [reset]
  rfl

theorem clockFail_resets {b : Bool} (reset : s.sys.reset = none) (dormant : s.sys.mode ≠ .dormant) :
    Answers (.clockFail b) s fun t => t.OutputsSafe
      ∧ t.sys.reset = some { cold := false, causes := 2 ^ causeClockFail, pin := false } := by
  refine ⟨_, congrArg Host.Outcome.next (if_neg (by simp [reset, dormant])), ?_, ?_⟩
  · rw [State.OutputsSafe, logEv_owl, logEv_pwr]
    exact outputsSafe_safe
  · rw [logEv_sys_reset]
    exact assertReset_fresh reset

/-! ## Monitors (R368) -/

/-- What an evaluation shows: temperatures, supplies, the low-frequency clock, the level. -/
def monitorView (b : MgtBlock) : List Int × List Nat × Bool × Nat := (b.temps, b.sups, b.lfRc, b.therm)

theorem monitorView_record : RecordFree monitorView := fun _ _ _ _ _ => rfl

theorem monitorView_notice : NoticeFree monitorView := ⟨monitorView_record, fun _ _ _ _ => rfl⟩

theorem hotChange_view {off : Bool} : monitorView (hotChange off s).mgt = monitorView s.mgt := by
  unfold hotChange
  extract_lets s1
  split
  · rw [clusterGone_keeps_mgt monitorView_notice, mgt_of_part monitorView_record (part_of_law .mgt same_glkGate rfl)]
    have off : monitorView ((List.range 4).foldl (fun s o => slacOff o s) s1).mgt = monitorView s1.mgt :=
      foldl_keeps (g := fun s : State => monitorView s.mgt) fun s o =>
        mgt_of_part monitorView_record (part_of_law .mgt (same_slacOff o) rfl)
    exact off.trans (startCluster_keeps_mgt fun _ _ _ => rfl)
  · rw [mgt_of_part monitorView_record (part_of_law .mgt same_slacChecks rfl)]
    exact mgt_of_part monitorView_record (part_of_law .mgt same_glkGate rfl)

/-- Evaluations in a row at 145 °C or more, with one at `t`. -/
def hotRunAt (t : Int) (s : State) : Nat := if t ≥ 1450 then s.mgt.hotRun + 1 else 0
/-- Evaluations in a row below 125 °C, with one at `t`. -/
def coolRunAt (t : Int) (s : State) : Nat := if t < 1250 then s.mgt.coolRun + 1 else 0
/-- The level that an evaluation at `t` gives. -/
def levelAt (t : Int) (s : State) : Nat :=
  if 100 ≤ hotRunAt t s then 4 else if s.mgt.therm = 4 ∧ coolRunAt t s < 6000 then 4 else thermAt (min 3 s.mgt.therm) t

/-- A change of the level: its record, its NOTICE, and what it switches. -/
def levelChanged (sensor : Nat) (t : Int) (old new : Nat) (s : State) : State :=
  if new = old then s
  else
    let s := notice 3 new (logEv .power 0x14 0xFF 0x1405 [(1, sensor), (2, unsignedOf 16 t), (1, old), (1, new)] s)
    if new = 4 then hotChange true s else if old = 4 then hotChange false s else s

theorem evalTemps_eq {l : List Int} : evalTemps l s = levelChanged (hottest l).1 (hottest l).2 s.mgt.therm (levelAt (hottest l).2 s)
    (onMgt (fun b => { b with temps := l.map (satSigned 16), hotRun := hotRunAt (hottest l).2 s, coolRun := coolRunAt (hottest l).2 s,
                              therm := levelAt (hottest l).2 s }) s) := rfl

theorem levelChanged_view {sensor old new : Nat} {t : Int} : monitorView (levelChanged sensor t old new s).mgt = monitorView s.mgt := by
  unfold levelChanged
  extract_lets s1
  have logged : monitorView s1.mgt = monitorView s.mgt :=
    (notice_keeps_mgt monitorView_notice).trans (logEv_keeps_mgt monitorView_record)
  split
  · rfl
  · split
    · exact hotChange_view.trans logged
    · split
      · exact hotChange_view.trans logged
      · exact logged

theorem levelAt_boils {t : Int} (hot : 1450 ≤ t) (run : 99 ≤ s.mgt.hotRun) : levelAt t s = 4 := by
  refine if_pos ?_
  rw [hotRunAt, if_pos hot]
  omega

theorem evalTemps_view {l : List Int} :
    monitorView (evalTemps l s).mgt = (l.map (satSigned 16), s.mgt.sups, s.mgt.lfRc, levelAt (hottest l).2 s) := by
  rw [evalTemps_eq, levelChanged_view]
  rfl

theorem logSupply_view {v f n : Nat} : monitorView (logSupply v f n s).mgt = monitorView s.mgt :=
  logEv_keeps_mgt monitorView_record

theorem evalSupply_view {m : MonitorInput} {v : Nat} : monitorView (evalSupply m s v).mgt = monitorView s.mgt := by
  unfold evalSupply
  dsimp only
  split
  · rw [notice_keeps_mgt monitorView_notice, logSupply_view]
    rfl
  · split
    · rw [logSupply_view]
      rfl
    · rfl

theorem evalVbat_view {n : Nat} : monitorView (evalVbat n s).mgt = monitorView s.mgt := by
  unfold evalVbat
  split
  · rw [notice_keeps_mgt monitorView_notice, logSupply_view]
    rfl
  · split
    · rw [logSupply_view]
      rfl
    · rfl

theorem monitor_view {m : MonitorInput} (up : badgerUp s = true) : monitorView (monitor m s).mgt
    = (m.temps.map (satSigned 16), m.supplies, m.lfMissing, levelAt (hottest m.temps).2 s) := by
  unfold monitor
  rw [if_neg (by rw [up]; decide)]
  extract_lets s1 s2 s3 s4
  have supplies : monitorView s2.mgt = (m.temps.map (satSigned 16), m.supplies, s.mgt.lfRc, levelAt (hottest m.temps).2 s) := by
    have set : monitorView (onMgt (fun b => { b with sups := m.supplies }) s1).mgt
        = (m.temps.map (satSigned 16), m.supplies, s.mgt.lfRc, levelAt (hottest m.temps).2 s) :=
      congrArg (fun v : List Int × List Nat × Bool × Nat => (v.1, m.supplies, v.2.2)) evalTemps_view
    exact (foldl_keeps (g := fun s : State => monitorView s.mgt) fun s v => evalSupply_view).trans set
  have clock : monitorView s4.mgt = monitorView s2.mgt := by
    refine Eq.trans ?_ (evalVbat_view (n := m.supplies.getD 5 0))
    show monitorView s4.mgt = monitorView s3.mgt
    unfold s4
    split
    · exact logEv_keeps_mgt monitorView_record
    · rfl
  exact congrArg (fun v : List Int × List Nat × Bool × Nat => (v.1, v.2.1, m.lfMissing, v.2.2.2)) (clock.trans supplies)

theorem endEntry_keeps_mgt {g : MgtBlock → α} (free : RecordFree g) {e : SleepEntry} {row mask point sts src : Nat} {wake : Bool} :
    g (endEntry e row mask point sts wake src s).mgt = g s.mgt := by
  unfold endEntry
  rw [post_mgt, logEv_keeps_mgt free]
  rfl

theorem abandonSleep_keeps_mgt {g : MgtBlock → α} (free : RecordFree g) {e : SleepEntry} {src : Nat} :
    g (abandonSleep e src s).mgt = g { s.mgt with abandoned := satInc 8 s.mgt.abandoned } :=
  endEntry_keeps_mgt free

theorem monitorEvaluate_shows {m : MonitorInput} (up : badgerUp s = true) :
    Answers (.monitorEvaluate m) s fun t => t.mgt.temps = m.temps.map (satSigned 16) ∧ t.mgt.sups = m.supplies
      ∧ t.mgt.lfRc = m.lfMissing ∧ (1450 ≤ (hottest m.temps).2 → 99 ≤ s.mgt.hotRun → t.mgt.therm = 4) := by
  refine ⟨_, rfl, ?_⟩
  have view := monitor_view (m := m) up
  generalize monitor m s = u at view ⊢
  suffices shown : monitorView _ = (m.temps.map (satSigned 16), m.supplies, m.lfMissing, levelAt (hottest m.temps).2 s) by
    simp only [monitorView, Prod.mk.injEq] at shown
    obtain ⟨temps, sups, clock, therm⟩ := shown
    exact ⟨temps, sups, clock, fun hot run => therm.trans (levelAt_boils hot run)⟩
  split
  · exact view
  · split
    · exact (abandonSleep_keeps_mgt monitorView_record).trans view
    · exact view

/-! ## The event log (R371, R373) -/

theorem mgtAmbHbWrite_beats {w : Word} (held : s.mgt.appHeld = false) (up : s.sys.badgerDown = false) (cool : s.mgt.therm ≠ 4) :
    Answers (.mgtAmbHbWrite w) s fun t => t.mgt.hbTick = some s.ticks ∧ t.sys.appDown = false :=
  ⟨_, congrArg Host.Outcome.next (if_neg (by simp [held, up, cool])), rfl, rfl⟩

theorem checkWatermark_keeps_mgt {g : MgtBlock → α} (free : NoticeFree g) (mark : ∀ b x, g { b with watermark := x } = g b) :
    g (checkWatermark s).mgt = g s.mgt := by
  unfold checkWatermark
  dsimp only
  split
  · exact (notice_keeps_mgt free).trans (mark _ _)
  · exact mark _ _

/-- A view of Badger's block that a record taken to its archive ring leaves. -/
structure ArchiveFree (g : MgtBlock → α) : Prop where
  record : RecordFree g
  rings : ∀ b l k n x, g { b with legal := l, general := k, legalLost := n, overOn := x } = g b

theorem archiveLegal_keeps_mgt {g : MgtBlock → α} (free : ArchiveFree g) {r : LogRec} : g (archiveLegal r s).mgt = g s.mgt := by
  unfold archiveLegal
  split
  · exact free.rings s.mgt _ s.mgt.general s.mgt.legalLost s.mgt.overOn
  · extract_lets oldest lost s'
    have taken : g s'.mgt = g s.mgt := free.rings s.mgt _ s.mgt.general _ _
    split
    · exact (logEv_keeps_mgt free.record).trans taken
    · exact taken

theorem archive_keeps_mgt {g : MgtBlock → α} (free : ArchiveFree g) {r : LogRec} : g (archive s r).mgt = g s.mgt := by
  unfold archive
  split
  · exact archiveLegal_keeps_mgt free
  · rw [onMgt_mgt]
    exact free.rings s.mgt s.mgt.legal _ s.mgt.legalLost s.mgt.overOn

theorem archive_general {r : LogRec} (cls : r.ev.cls ≠ .legal) :
    (archive s r).mgt.general = (s.mgt.general ++ [r]).drop (s.mgt.general.length + 1 - 458752) := by
  rw [archive, if_neg cls, onMgt_mgt]

theorem flushLog_flushFailed {b : Bool} : (flushLog b s).mgt.flushFailed = !b := by
  cases b with
  | false => rfl
  | true =>
    show (checkWatermark _).mgt.flushFailed = false
    rw [checkWatermark_keeps_mgt (g := fun b => b.flushFailed) ⟨fun _ _ _ _ _ => rfl, fun _ _ _ _ => rfl⟩ fun _ _ => rfl]
    exact foldl_keeps (g := fun s : State => s.mgt.flushFailed) fun s r =>
      archive_keeps_mgt (g := fun b => b.flushFailed) ⟨fun _ _ _ _ _ => rfl, fun _ _ _ _ _ => rfl⟩

/-- The one waiting record is the newest of the RAM ring, and the archive takes it last. -/
theorem flushLog_archives {x : LogRec} (waiting : s.mgt.waiting = 1) (last : s.mgt.ring.getLast? = some x) (cls : x.ev.cls ≠ .legal) :
    (flushLog true s).mgt.general.getLast? = some x := by
  have one : s.mgt.ring.drop (s.mgt.ring.length - s.mgt.waiting) = [x] := by
    rw [waiting]
    obtain ⟨l, ring⟩ := List.getLast?_eq_some_iff.mp last
    rw [ring, List.length_append, List.length_singleton, Nat.add_sub_cancel, List.drop_left]
  show (checkWatermark (List.foldl archive _ (s.mgt.ring.drop _))).mgt.general.getLast? = some x
  rw [checkWatermark_keeps_mgt (g := fun b => b.general) ⟨fun _ _ _ _ _ => rfl, fun _ _ _ _ => rfl⟩ fun _ _ => rfl, one]
  rw [List.foldl_cons, List.foldl_nil, archive_general cls, List.getLast?_drop, if_neg (by rw [List.length_append, List.length_singleton]; omega), List.getLast?_concat]

theorem logArchiveFlush_archives {b : Bool} (up : badgerUp s = true) :
    Answers (.logArchiveFlush b) s fun t => t.mgt.flushFailed = !b
      ∧ ∀ x, b = true → s.mgt.waiting = 1 → s.mgt.ring.getLast? = some x → x.ev.cls ≠ .legal →
          t.mgt.general.getLast? = some x := by
  refine ⟨_, congrArg Host.Outcome.next (if_pos up), flushLog_flushFailed, ?_⟩
  rintro x rfl waiting last cls
  exact flushLog_archives waiting last cls

theorem length_mergeRecs {n : Nat} {l m : List LogRec} : (mergeRecs n l m).length ≤ n := by
  fun_induction mergeRecs n l m <;> simp [*]

theorem mem_mergeRecs {x : LogRec} {n : Nat} {l m : List LogRec} (h : x ∈ mergeRecs n l m) : x ∈ l ∨ x ∈ m := by
  fun_induction mergeRecs n l m <;> grind

theorem length_recordsOn {a n : Nat} : (recordsOn s a n).length ≤ n := length_mergeRecs

theorem start_le_of_mem_recordsOn {a n : Nat} {x : LogRec} (h : x ∈ recordsOn s a n) : a ≤ x.seq := by
  have kept {l : List LogRec} (h : x ∈ l.filter fun r => decide (a ≤ r.seq)) : a ≤ x.seq := of_decide_eq_true (List.mem_filter.mp h).2
  rcases mem_mergeRecs h with archived | ram
  · rcases mem_mergeRecs archived with legal | general
    · exact kept legal
    · exact kept general
  · exact kept ram

theorem mgtLogRead_posts {r : Req} {a n : Nat} (up : s.sys.badgerDown = false) (low : 1 ≤ n) (high : n ≤ 32) :
    Answers (.mgtLogRead r a n) s fun t => t.mgt = s.mgt ∧
      ∃ (f : Nat) (l : List LogRec), l.length ≤ n ∧ (∀ x ∈ l, a ≤ x.seq)
        ∧ Posted t r stsOk (leBytes 4 f ++ leBytes 4 l.length ++ l.flatMap recordBytes) :=
  ⟨_, congrArg Host.Outcome.next ((badgerCmd_up up).trans (guarded_ok (firstFail_cons_false (by simp [inRange, low, high])))),
    post_mgt, _, recordsOn s a n, length_recordsOn, fun _ => start_le_of_mem_recordsOn, rfl⟩

theorem mgtLogAck_raises {r : Req} {n : Nat} (up : s.sys.badgerDown = false) (given : n ≤ s.mgt.seq) :
    Answers (.mgtLogAck r n) s fun t => Posted t r stsOk [] ∧ t.mgt.ack = max s.mgt.ack n := by
  refine ⟨_, congrArg Host.Outcome.next ((badgerCmd_up up).trans (guarded_ok (firstFail_cons_false (decide_eq_false (Nat.not_lt.mpr given))))),
    rfl, ?_⟩
  rw [postSts_mgt, checkWatermark_keeps_mgt (g := fun b => b.ack) ⟨fun _ _ _ _ _ => rfl, fun _ _ _ _ => rfl⟩ fun _ _ => rfl]
  rfl

/-- Settles O38: each command of Badger shows its effect on the blocks of Dormouse and Badger, which LIMP entry, records and
notices leave but for the mode. -/
theorem badgerCommandsEffect : Obligations.BadgerCommandsEffect :=
  ⟨fun _ _ booted up watch dormant => badgerWatchdogExpiry_stops booted up watch dormant,
    fun _ _ held up cool => mgtAmbHbWrite_beats held up cool,
    fun _ _ _ up held cool => appHeartbeatTimeout_restarts up held cool,
    fun _ _ up host => mgtRestart_restarts up host,
    fun _ _ => ⟨_, rfl, doorbell_rings⟩,
    fun _ down held => badgerReady_returns down held,
    fun _ _ _ reset dormant => clockFail_resets reset dormant,
    fun _ _ _ up => monitorEvaluate_shows up,
    fun _ _ up => logArchiveFlush_archives up,
    fun _ _ _ _ up low high => mgtLogRead_posts up low high,
    fun _ _ _ up given => mgtLogAck_raises up given⟩

end Sys2Proof.Machine
end

section
/-! PROOFS. The statement of 14_badger_modes.md on sleep, wakes and modes: the transition that each command completes with (R374-R380),
and what an accepted pilot reading leaves of the link (R221, R42). -/

namespace Sys2Proof.Machine

-- One proof after the other, as in Sys2Proof/Tests/Slice0.lean: in parallel, their stacks pass the check's memory limit.
set_option Elab.async false

variable {s t : State} {o : Nat} {α : Type}

/-! ## The pilot reading of a link, through the action on an accepted state (R221-R223) -/

/-- The high level of the pilot and its state. -/
def Link.reading (l : Link) : Int × Cp := (l.cpHi, l.cp)

/-- The reading of link `o`. -/
def readingAt (o : Nat) (s : State) : Int × Cp := (linkOf s o).reading

section Readings

/-- What both branches keep. -/
theorem ite_keeps {g : State → α} {c : Prop} [Decidable c] {x y : State} {z : α} (hx : g x = z) (hy : g y = z) :
    g (if c then x else y) = z := by
  split
  · exact hx
  · exact hy

theorem startFree_reading : StartFree Link.reading := fun _ _ => rfl

theorem readingAt_onLink {f : Link → Link} (hf : ∀ l, (f l).reading = l.reading) : readingAt o (onLink o f s) = readingAt o s :=
  linkOf_onLink_keeps hf

/-- An update that keeps the reading, after a step that keeps it. -/
theorem readingAt_onLink_after {x : Int × Cp} {f : Link → Link} (h : readingAt o s = x) (hf : ∀ l, (f l).reading = l.reading) :
    readingAt o (onLink o f s) = x := (readingAt_onLink hf).trans h

theorem readingAt_logEv {c : EvClass} {b i k : Nat} {d : List (Nat × Nat)} : readingAt o (logEv c b i k d s) = readingAt o s :=
  congrArg Link.reading linkOf_logEv

theorem readingAt_setSup {x : Sup} : readingAt o (setSup o x s) = readingAt o s :=
  setSup_keeps_link startFree_reading.close.slac startFree_reading.close.sup

theorem readingAt_slacCheck : readingAt o (slacCheck o s) = readingAt o s := slacCheck_keeps_link startFree_reading.close.slac

theorem readingAt_requestUnlock : readingAt o (requestUnlock o s) = readingAt o s :=
  requestUnlock_keeps_link startFree_reading.close.slac

theorem readingAt_dropRelease : readingAt o (dropRelease o s) = readingAt o s :=
  dropRelease_keeps_link startFree_reading.close.slac fun _ => rfl

theorem readingAt_limpPilot : readingAt o (limpPilot o s) = readingAt o s := limpPilot_keeps_link startFree_reading

theorem readingAt_limpStart : readingAt o (limpStart o s) = readingAt o s := limpStart_keeps_link startFree_reading

theorem readingAt_connect : readingAt o (connect o (limpPilot o s)) = readingAt o s :=
  (connect_keeps_link startFree_reading).trans readingAt_limpPilot

theorem readingAt_acceptB : readingAt o (acceptB o s) = readingAt o s :=
  readingAt_limpStart.trans ((takeHit_keeps_link startFree_reading).trans readingAt_limpPilot)

theorem readingAt_illegal {c : EvClass} {old new : Cp} {row : Nat} : readingAt o (illegal o c old new row s) = readingAt o s :=
  readingAt_logEv.trans (readingAt_onLink fun _ => rfl)

/-! ### Pauses and the end of a session -/

theorem readingAt_pauseSession : readingAt o (pauseSession o s) = readingAt o s := by
  unfold pauseSession
  split
  · exact readingAt_onLink_after readingAt_dropRelease fun _ => rfl
  · rfl

theorem readingAt_pauseOrdered : readingAt o (pauseOrdered o s) = readingAt o s := by
  unfold pauseOrdered
  split
  · exact readingAt_onLink fun _ => rfl
  · exact readingAt_pauseSession

theorem readingAt_withdrawRequest : readingAt o (withdrawRequest o s) = readingAt o s := by
  unfold withdrawRequest
  extract_lets dropped
  refine Eq.trans ?_ (readingAt_dropRelease : readingAt o dropped = readingAt o s)
  split
  · exact readingAt_onLink fun _ => rfl
  · exact readingAt_onLink fun _ => rfl
  · exact readingAt_onLink fun _ => rfl
  · rfl

theorem readingAt_finishSession : readingAt o (finishSession o s) = readingAt o s := by
  have closed : readingAt o (closeSession o s) = readingAt o s := closeSession_keeps_link startFree_reading.close
  unfold finishSession
  dsimp only
  split
  · exact readingAt_limpStart.trans (readingAt_limpPilot.trans closed)
  · exact closed

theorem readingAt_endSession {cause : Nat} : readingAt o (endSession o cause s) = readingAt o s := by
  unfold endSession
  extract_lets l ended
  have noted : readingAt o ended = readingAt o s := readingAt_onLink fun _ => rfl
  have dropped : readingAt o (dropRelease o ended) = readingAt o s := readingAt_dropRelease.trans noted
  split
  · exact readingAt_onLink fun _ => rfl
  · split
    · split
      · exact readingAt_onLink_after noted fun _ => rfl
      · exact readingAt_onLink_after dropped fun _ => rfl
    · exact readingAt_onLink_after noted fun _ => rfl
    · exact readingAt_onLink_after noted fun _ => rfl
    · exact readingAt_finishSession.trans dropped

/-! ### The action of each state -/

theorem readingAt_pilotA : readingAt o (pilotA o s) = readingAt o s := by
  unfold pilotA
  extract_lets cleared
  refine Eq.trans ?_ (readingAt_onLink fun _ => rfl : readingAt o cleared = readingAt o s)
  split
  · exact readingAt_endSession
  · split
    · rfl
    · exact readingAt_requestUnlock.trans readingAt_setSup

theorem readingAt_pilotB {bit10 : Bool} : readingAt o (pilotB o bit10 s) = readingAt o s := by
  unfold pilotB
  dsimp only
  split
  · exact readingAt_connect
  · split
    · rfl
    · exact readingAt_connect
  · split
    · exact readingAt_pauseSession
    · exact readingAt_pauseOrdered
  · exact readingAt_withdrawRequest
  · exact readingAt_withdrawRequest
  · exact readingAt_acceptB

theorem readingAt_pilotC : readingAt o (pilotC o s) = readingAt o s := by
  unfold pilotC
  extract_lets connected
  have connects : readingAt o connected = readingAt o s := by
    unfold connected
    split
    · exact readingAt_setSup
    · rfl
  exact (tryResume_keeps_link startFree_reading.step).trans ((advance_keeps_link startFree_reading.step).trans connects)

theorem readingAt_pilotD : readingAt o (pilotD o s) = readingAt o s := by
  unfold pilotD
  extract_lets l seen
  split
  · exact readingAt_pilotC
  · refine readingAt_pilotB.trans ?_
    unfold seen
    split
    · rfl
    · exact readingAt_logEv.trans (readingAt_onLink fun _ => rfl)

theorem readingAt_pilotFault : readingAt o (pilotFault o s) = readingAt o s := by
  unfold pilotFault
  extract_lets held
  refine Eq.trans ?_ (readingAt_onLink fun _ => rfl : readingAt o held = readingAt o s)
  split
  · exact readingAt_endSession
  · exact readingAt_setSup

theorem readingAt_clearRequest : readingAt o (clearRequest o s) = readingAt o s := by
  unfold clearRequest
  extract_lets dropped
  refine Eq.trans ?_ (readingAt_dropRelease : readingAt o dropped = readingAt o s)
  split
  · exact readingAt_onLink fun _ => rfl
  · rfl

theorem readingAt_actOn {new : Cp} {lo : Int} : readingAt o (actOn o new lo s) = readingAt o s := by
  unfold actOn
  extract_lets cleared logged
  have clears : readingAt o cleared = readingAt o s := by
    unfold cleared
    split
    · exact readingAt_clearRequest
    · rfl
  refine Eq.trans ?_ clears
  split
  · exact readingAt_pilotA
  · exact readingAt_pilotB
  · exact readingAt_pilotC
  · exact readingAt_pilotD
  · split
    · exact readingAt_endSession
    · rfl
  · refine readingAt_pilotFault.trans ?_
    unfold logged
    split
    · exact readingAt_logEv
    · rfl

theorem readingAt_endValidation {failed : Bool} : readingAt o (endValidation o failed s) = readingAt o s := by
  unfold endValidation
  dsimp only
  split
  · exact (offerChanged_keeps_link startFree_reading.step startFree_reading.close.slac).trans (readingAt_onLink fun _ => rfl)
  · rfl

theorem readingAt_countToggle {old new : Cp} : readingAt o (countToggle o old new s) = readingAt o s := by
  unfold countToggle
  split
  · split
    · rfl
    · split
      · exact readingAt_onLink fun _ => rfl
      · exact readingAt_endValidation
  · rfl

theorem readingAt_row1 {old new : Cp} : readingAt o (row1 o old new s) = readingAt o s := by
  unfold row1
  split
  · exact readingAt_illegal
  · rfl

/-- Row 4 takes the state through B, and the level stays. -/
theorem rows34_level {wave : Nat} {old new : Cp} : (readingAt o (rows34 o wave old new s)).1 = (readingAt o s).1 := by
  unfold rows34
  split
  · split
    · exact congrArg Prod.fst (readingAt_onLink fun _ => rfl)
    · exact congrArg Prod.fst (readingAt_illegal.trans (readingAt_onLink fun _ => rfl))
  · split
    · refine (congrArg Prod.fst (readingAt_slacCheck.trans readingAt_pilotB)).trans ?_
      have level {u : State} : (readingAt o (onLink o (fun l => { l with cp := .b, prev := .a }) u)).1 = (readingAt o u).1 :=
        linkOf_onLink_keeps (v := fun l => l.cpHi) fun _ => rfl
      exact level.trans (congrArg Prod.fst readingAt_illegal)
    · rfl

/-- Row 5 of R223 with its changes of the last 10 s counted. -/
def rapidChanges (o : Nat) (ticks : List Nat) (s : State) : State :=
  if 10 < ticks.length then
    let s := logEv .service 0x0C o 0x0C03 [(1, o), (1, ticks.length)]
      (onLink o (fun l => { l with bcTicks := [], faultUntilA := true, illegal := satInc 8 l.illegal }) s)
    if (linkOf s o).sup.active then endSession o 3 s else setSup o .faulted s
  else onLink o (fun l => { l with bcTicks := ticks }) s

theorem readingAt_rapidChanges {ticks : List Nat} : readingAt o (rapidChanges o ticks s) = readingAt o s := by
  unfold rapidChanges
  extract_lets logged
  split
  · have marks : readingAt o logged = readingAt o s := readingAt_logEv.trans (readingAt_onLink fun _ => rfl)
    split
    · exact readingAt_endSession.trans marks
    · exact readingAt_setSup.trans marks
  · exact readingAt_onLink fun _ => rfl

theorem readingAt_row5 {old new : Cp} : readingAt o (row5 o old new s) = readingAt o s :=
  ite_keeps (g := readingAt o) readingAt_rapidChanges rfl

/-- The state that a pilot reading is classified as (R220). -/
def classified (s : State) (o : Nat) (hi lo : Int) : Cp :=
  if diodeFault (waveform s o) lo then .invalid else classifyHigh (linkOf s o).cp (waveform s o == 3) hi

/-- What an accepted change of the state leads to, once the reading is taken. -/
def acceptChange (o wave : Nat) (old new : Cp) (lo : Int) (s : State) : State :=
  let s := rows34 o wave old new (row1 o old new s)
  let old := (linkOf s o).cp
  let s := onLink o (fun x => { x with prev := x.cp, cp := new }) s
  let window := (linkOf s o).window.isSome
  let s := actOn o new lo (countToggle o old new s)
  slacCheck o (if window then s else row5 o old new s)

/-- The reading as the link takes it. -/
def takeReading (o : Nat) (hi lo : Int) (s : State) : State :=
  onLink o (fun l => { l with cpHi := satSigned 16 hi, cpLo := if waveform s o = 0 then 0 else satSigned 16 lo,
                              diode := diodeFault (waveform s o) lo }) s

theorem acceptState_eq {hi lo : Int} : acceptState o hi lo s = if classified s o hi lo = (linkOf s o).cp then takeReading o hi lo s
    else acceptChange o (waveform s o) (linkOf s o).cp (classified s o hi lo) lo (takeReading o hi lo s) := rfl

theorem readingAt_setCp {new : Cp} (there : o < s.vlk.length) :
    readingAt o (onLink o (fun x => { x with prev := x.cp, cp := new }) s) = ((readingAt o s).1, new) :=
  congrArg Link.reading (linkOf_onLink_self there)

theorem readingAt_acceptChange {wave : Nat} {old new : Cp} {lo : Int} (inv : s.Inv) (ho : o < 4) :
    readingAt o (acceptChange o wave old new lo s) = ((readingAt o s).1, new) := by
  unfold acceptChange
  extract_lets ruled before taken window acted
  have level : (readingAt o ruled).1 = (readingAt o s).1 := rows34_level.trans (congrArg Prod.fst readingAt_row1)
  have there : o < ruled.vlk.length := by
    have kept : Kept True s.pending s.ident ruled := kept_rows34 _ _ _ _ (kept_row1 _ _ _ (kept_start fun _ => inv))
    obtain ⟨-, -, holds⟩ := kept
    exact link_in_range (holds trivial) ho
  have take : readingAt o taken = ((readingAt o s).1, new) := level ▸ readingAt_setCp there
  have act : readingAt o acted = ((readingAt o s).1, new) := readingAt_actOn.trans (readingAt_countToggle.trans take)
  refine readingAt_slacCheck.trans ?_
  split
  · exact act
  · exact readingAt_row5.trans act

/-- An accepted reading stands in the link, whatever its state leads to. -/
theorem readingAt_acceptState {hi lo : Int} (inv : s.Inv) (ho : o < 4) :
    readingAt o (acceptState o hi lo s) = (satSigned 16 hi, classified s o hi lo) := by
  have take : readingAt o (takeReading o hi lo s) = (satSigned 16 hi, (linkOf s o).cp) :=
    congrArg Link.reading (linkOf_onLink_self (link_in_range inv ho))
  have kept : Kept True s.pending s.ident (takeReading o hi lo s) := kept_onLink (kept_start fun _ => inv)
  obtain ⟨-, -, holds⟩ := kept
  rw [acceptState_eq]
  split
  next same => rw [take, same]
  next => rw [readingAt_acceptChange (holds trivial) ho, take]

end Readings

/-! ## Sleep entry (R375-R377) -/

section Entry
variable {e : SleepEntry} {g : SysBlock → α}

theorem endEntry_sys (free : RetentionFree g) {row mask point sts src : Nat} {wake : Bool} :
    g (endEntry e row mask point sts wake src s).sys = g { s.sys with
      entry := none, armed := 0, sleep := { mask := mask, wake := wake, target := e.target, point := point, rc := sts } } := by
  unfold endEntry
  rw [post_sys, logEv_keeps_sys free]
  rfl

theorem flushLog_keeps_sys (free : RetentionFree g) {ok : Bool} : g (flushLog ok s).sys = g s.sys :=
  sys_of_part free (part_of_law .sys (same_flushLog ok) rfl)

theorem sleep_begins {r : Req} {k : Nat} (up : s.sys.badgerDown = false) (target : k = 1 ∨ k = 2) (mode : s.sys.mode = .ready)
    (entry : s.sys.entry = none) (outlets : k = 1 → outletMask s ≠ 0) :
    Answers (.sleep r k) s fun t => Posted t r stsPending []
      ∧ t.sys = { s.sys with entry := some { req := r, target := k, point := .prepare } } := by
  have named : (k != 1 && k != 2) = false := by
    obtain rfl | rfl := target <;> rfl
  have room : (k == 1 && outletMask s == 0) = false := by
    obtain rfl | rfl := target
    · simpa using outlets rfl
    · rfl
  have free : (s.sys.mode != .ready || s.sys.entry.isSome || (k == 1 && outletMask s == 0)) = false := by
    rw [mode, entry, room]
    rfl
  exact ⟨_, congrArg Host.Outcome.next ((badgerCmd_up up).trans
    (guarded_ok ((firstFail_cons_false named).trans (firstFail_cons_false free)))), rfl, rfl⟩

/-- The vote refused. -/
def voteRefused (e : SleepEntry) (m : Nat) (s : State) : State :=
  endEntry e 1 m 1 stsRefused false 0 (onMgt (fun b => { b with refused := satInc 8 b.refused }) s)

theorem exec_sleepVoteTimeout {late : Nat} (entry : s.sys.entry = some e) (point : e.point = .prepare) :
    exec (.sleepVoteTimeout late) s = .next (if refusers late s = 0 then onSys (fun b => { b with entry := some { e with point := .a1 } }) s
      else voteRefused e (refusers late s) s) := by
  refine congrArg Host.Outcome.next ?_
  rw [entry]
  exact if_neg (not_not_intro point)

theorem sleepVoteTimeout_decides {late : Nat} (entry : s.sys.entry = some e) (point : e.point = .prepare) :
    Answers (.sleepVoteTimeout late) s fun t =>
      (refusers late s = 0 → t.sys.entry = some { e with point := .a1 })
        ∧ (refusers late s ≠ 0 → t.sys.entry = none ∧ t.mgt.refused = satInc 8 s.mgt.refused
            ∧ t.result = some { req := e.req, sts := stsRefused, detail := refusers late s, bytes := [] }) := by
  refine ⟨_, exec_sleepVoteTimeout entry point, fun none => ?_, fun some => ?_⟩
  · rw [if_pos none]
    rfl
  · rw [if_neg some]
    exact ⟨endEntry_sys (g := fun b => b.entry) fun _ _ _ => rfl,
      endEntry_keeps_mgt (g := fun b => b.refused) fun _ _ _ _ _ => rfl, rfl⟩

/-- What the voters save (R377 row 3). -/
def votersSave (e : SleepEntry) (s : State) : State :=
  flushLog true (renewLease (saveRtc (onSys (fun b => { b with entry := some { e with point := .saving } }) s)))

theorem votersSave_entry : (votersSave e s).sys.entry = some { e with point := .saving } := by
  unfold votersSave
  rw [flushLog_keeps_sys (g := fun b => b.entry) fun _ _ _ => rfl]
  exact sys_of_part (g := fun b => b.entry) (fun _ _ _ => rfl) (part_of_law .sys same_renewLease rfl)

theorem sleepCommit_saves (entry : s.sys.entry = some e) (point : e.point = .a1) :
    Answers .sleepCommit s fun t => t.sys.entry = some { e with point := .saving } ∧ (e.target = 2 → t.met.stopped = true) := by
  have run : exec .sleepCommit s = .next (if e.target = 2 then onMet (fun b => { b with stopped := true })
      (if (votersSave e s).met.run then saveAtOnce 4 (votersSave e s) else votersSave e s) else votersSave e s) := by
    refine congrArg Host.Outcome.next ?_
    rw [entry]
    exact if_neg (not_not_intro point)
  refine ⟨_, run, ?_, fun dormant => ?_⟩
  · refine Eq.trans ?_ (votersSave_entry : (votersSave e s).sys.entry = _)
    split
    · rw [onMet_sys]
      split
      · rfl
      · rfl
    · rfl
  · rw [if_pos dormant]
    rfl

theorem sleepArm_arms (entry : s.sys.entry = some e) (point : e.point = .saving) :
    Answers .sleepArm s fun t => t.sys.entry = some { e with point := .armed } ∧ Nat.land t.sys.armed 0x3F = 0x3F := by
  have run : exec .sleepArm s = .next (onGlk (fun b => { b with wakeArmed := e.target == 1 && blockBit s 4 && s.glk.assoc == .member })
      (onSys (fun b => { b with entry := some { e with point := .armed },
                                armed := 0x3F + flagAt (e.target == 1 && blockBit s 4 && s.glk.assoc == .member) 6 }) s)) := by
    refine congrArg Host.Outcome.next ?_
    rw [entry]
    exact if_neg (not_not_intro point)
  have sources : ∀ grid, Nat.land (0x3F + flagAt grid 6) 0x3F = 0x3F := by decide
  exact ⟨_, run, rfl, sources _⟩

/-! ### The target mode (R377 row 7) -/

theorem powerOff_keeps_entered : (powerOff s).mgt.entered = s.mgt.entered := by
  have off (s : State) (o : Nat) : (slacOff o s).mgt.entered = s.mgt.entered :=
    mgt_of_part (g := fun b => b.entered) (fun _ _ _ _ _ => rfl) (part_of_law .mgt (same_slacOff o) rfl)
  unfold powerOff
  exact foldl_keeps (g := fun s : State => s.mgt.entered) off

theorem powerOff_keeps_sys (free : RetentionFree g) : g (powerOff s).sys = g s.sys := sys_of_part free (part_of_law .sys same_powerOff rfl)

/-- The entry has passed its last abort point. -/
def passEntry (e : SleepEntry) (s : State) : State :=
  onMgt (fun b => { b with entered := satInc 8 b.entered }) (onSys (fun b => { b with
    entry := none, sleep := { mask := 0, wake := false, target := e.target, point := 3, rc := stsOk } }) (flushLog true s))

/-- WATCH and DORMANT as they begin. -/
def beginWatch (s : State) : State := powerOff (setMode 7 .watch s)
def beginDormant (s : State) : State :=
  onSys (fun b => { b with booted := false, afterHoldup := false })
    (onMet (fun b => { b with run := false, pulses := b.pulses.map fun p => { p with phase := .idle } })
      (onOwl (fun b => { b with state := .off }) (outputsSafe (glkGate (powerOff (setMode 7 .dormant s))))))

theorem exec_sleepEnter (entry : s.sys.entry = some e) (point : e.point = .armed) :
    exec .sleepEnter s = .next (if e.target = 1 then beginWatch (passEntry e s) else beginDormant (passEntry e s)) := by
  refine congrArg Host.Outcome.next ?_
  rw [entry]
  exact if_neg (not_not_intro point)

/-- What an entry shows once it is over. -/
def entryView (b : SysBlock) : Option SleepEntry × Nat × Mode := (b.entry, b.sleep.rc, b.mode)

theorem beginWatch_sys : entryView (beginWatch s).sys = (s.sys.entry, s.sys.sleep.rc, .watch) :=
  (powerOff_keeps_sys (g := entryView) fun _ _ _ => rfl).trans (setMode_sys (g := entryView) fun _ _ _ => rfl)

theorem beginDormant_sys : entryView (beginDormant s).sys = (s.sys.entry, s.sys.sleep.rc, .dormant) := by
  have free (b : SysBlock) : entryView { b with booted := false, afterHoldup := false } = entryView b := rfl
  have safe (u : State) : (outputsSafe u).sys = u.sys := rfl
  rw [beginDormant, onSys_sys, free, onMet_sys, onOwl_sys, safe, sys_of_part (g := entryView) (fun _ _ _ => rfl) (part_of_law .sys same_glkGate rfl),
    powerOff_keeps_sys (g := entryView) fun _ _ _ => rfl, setMode_sys (g := entryView) fun _ _ _ => rfl]
  rfl

theorem setMode_entered {row : Nat} {m : Mode} : (setMode row m s).mgt.entered = s.mgt.entered :=
  setMode_keeps_mgt (g := fun b => b.entered) ⟨fun _ _ _ _ _ => rfl, fun _ _ _ _ => rfl⟩

theorem beginWatch_entered : (beginWatch s).mgt.entered = s.mgt.entered := powerOff_keeps_entered.trans setMode_entered

theorem beginDormant_entered : (beginDormant s).mgt.entered = s.mgt.entered := by
  have gated {u : State} : (glkGate u).mgt.entered = u.mgt.entered :=
    mgt_of_part (g := fun b => b.entered) (fun _ _ _ _ _ => rfl) (part_of_law .mgt same_glkGate rfl)
  show (glkGate (powerOff (setMode 7 .dormant s))).mgt.entered = _
  rw [gated, powerOff_keeps_entered, setMode_entered]

theorem outputsSafe_beginDormant : (beginDormant s).OutputsSafe := outputsSafe_safe

theorem passEntry_shows : (passEntry e s).sys.entry = none ∧ (passEntry e s).sys.sleep.rc = stsOk
    ∧ (passEntry e s).mgt.entered = satInc 8 s.mgt.entered := by
  have kept : (flushLog true s).mgt.entered = s.mgt.entered := by
    unfold flushLog
    rw [if_neg (by decide)]
    extract_lets l
    rw [checkWatermark_keeps_mgt (g := fun b => b.entered) ⟨fun _ _ _ _ _ => rfl, fun _ _ _ _ => rfl⟩ fun _ _ => rfl]
    exact foldl_keeps (g := fun s : State => s.mgt.entered) fun s r =>
      archive_keeps_mgt (g := fun b => b.entered) ⟨fun _ _ _ _ _ => rfl, fun _ _ _ _ _ => rfl⟩
  exact ⟨rfl, rfl, congrArg (satInc 8) kept⟩

theorem sleepEnter_enters (entry : s.sys.entry = some e) (point : e.point = .armed) :
    Answers .sleepEnter s fun t => t.sys.entry = none ∧ t.sys.sleep.rc = stsOk ∧ t.mgt.entered = satInc 8 s.mgt.entered
      ∧ (e.target = 1 → t.sys.mode = .watch) ∧ (e.target ≠ 1 → t.sys.mode = .dormant ∧ t.sys.booted = false ∧ t.OutputsSafe) := by
  refine ⟨_, exec_sleepEnter entry point, ?_⟩
  obtain ⟨none, ok, count⟩ := passEntry_shows (s := s) (e := e)
  generalize passEntry e s = u at none ok count
  split
  next watch =>
    have view := beginWatch_sys (s := u)
    simp only [entryView, Prod.mk.injEq] at view
    obtain ⟨ended, rc, mode⟩ := view
    exact ⟨ended.trans none, rc.trans ok, beginWatch_entered.trans count, fun _ => mode, fun other => absurd watch other⟩
  next dormant =>
    have view := beginDormant_sys (s := u)
    simp only [entryView, Prod.mk.injEq] at view
    obtain ⟨ended, rc, mode⟩ := view
    exact ⟨ended.trans none, rc.trans ok, beginDormant_entered.trans count, fun watch => absurd watch dormant,
      fun _ => ⟨mode, rfl, outputsSafe_beginDormant⟩⟩

end Entry

/-! ## Wakes (R374 rows 2 and 6, R377, R379) -/

theorem wakeEvent_abandons {e : SleepEntry} {w : Nat} (entry : s.sys.entry = some e) (source : w ≠ 0) :
    Answers (.wakeEvent w false) s fun t => t.sys.entry = none ∧ t.mgt.abandoned = satInc 8 s.mgt.abandoned
      ∧ Posted t e.req stsRefused [] := by
  have run : exec (.wakeEvent w false) s = .next (abandonSleep e w s) := by
    refine congrArg Host.Outcome.next ?_
    unfold wakeBy
    rw [entry]
    exact if_pos (.inl source)
  exact ⟨_, run, endEntry_sys (g := fun b => b.entry) fun _ _ _ => rfl,
    abandonSleep_keeps_mgt (g := fun b => b.abandoned) fun _ _ _ _ _ => rfl, rfl⟩

/-- Rows 9 and 10 of R374 out of READY: READY stays, or gives way to SESSION. -/
theorem evalMode_ready (ready : s.sys.mode = .ready) : (evalMode s).sys.mode = .ready ∨ (evalMode s).sys.mode = .session := by
  have set (row : Nat) (m : Mode) : (setMode row m s).sys.mode = m := setMode_sys (g := fun b => b.mode) fun _ _ _ => rfl
  unfold evalMode
  split
  · exact .inl ready
  · split
    · exact .inr (set 9 .session)
    · split
      · exact .inl (set 10 .ready)
      · exact .inl ready

theorem evalMode_keeps_sys {g : SysBlock → α} (free : RetentionFree g) (mode : ∀ b m, g { b with mode := m } = g b) :
    g (evalMode s).sys = g s.sys := by
  have set (row : Nat) (m : Mode) : g (setMode row m s).sys = g s.sys := (setMode_sys free).trans (mode s.sys m)
  unfold evalMode
  split
  · rfl
  · split
    · exact set 9 .session
    · split
      · exact set 10 .ready
      · rfl

section Watch
variable {w : Nat}

/-- A wake from WATCH as far as READY: the detections latched are acted on. -/
def wokenReady (w : Nat) (s : State) : State :=
  actLatched (loadSlots (deriveSlots (drainRetention (setMode 6 .ready
    (onGlk (fun b => { b with wakeArmed := false, wakeTick := some s.ticks }) (onSys (fun b => { b with wakeSrc := w, armed := 0 }) s))))))

/-- What is served again. -/
def wokenServed (s : State) : State :=
  slacChecks (onCans (fun x => if x.en then { x with state := .active } else x)
    (flushProfile (checkWake (hsiWake (slotsChanged (glkAfterWatch s))))))

theorem wakeFromWatch_eq : wakeFromWatch w s = evalMode (wokenServed (wokenReady w s)) := rfl

/-- The mode and the sources of a wake. -/
def wakeView (b : SysBlock) : Mode × Nat := (b.mode, b.wakeSrc)

theorem wokenServed_sys : samePart .sys s (wokenServed s) :=
  (same_slacChecks rfl (same_onCans rfl (same_flushProfile rfl (same_checkWake rfl (same_hsiWake rfl (same_slotsChanged rfl
    (same_glkAfterWatch rfl (same_refl [.bil, .vlk, .glk, .tag, .key, .log, .hsi, .can, .sram] s)))))))).part (q := .sys) rfl

theorem wokenReady_view : wakeView (wokenReady w s).sys = (.ready, w) := by
  unfold wokenReady
  generalize ready : setMode 6 .ready _ = u
  have set : wakeView u.sys = (.ready, w) := ready ▸ setMode_sys (g := wakeView) fun _ _ _ => rfl
  have woken : Same [.glk, .tag, .key, .log, .sram] u (actLatched (loadSlots (deriveSlots (drainRetention u)))) :=
    same_actLatched rfl (same_loadSlots rfl (same_deriveSlots rfl (same_drainRetention rfl (same_refl _ u))))
  exact (sys_of_part (g := wakeView) (fun _ _ _ => rfl) (woken.part (q := .sys) rfl)).trans set

theorem wakeFromWatch_wakes : ((wakeFromWatch w s).sys.mode = .ready ∨ (wakeFromWatch w s).sys.mode = .session)
    ∧ (wakeFromWatch w s).sys.wakeSrc = w := by
  rw [wakeFromWatch_eq]
  have view : wakeView (wokenServed (wokenReady w s)).sys = (.ready, w) :=
    (sys_of_part (g := wakeView) (fun _ _ _ => rfl) wokenServed_sys).trans wokenReady_view
  simp only [wakeView, Prod.mk.injEq] at view
  obtain ⟨mode, source⟩ := view
  exact ⟨evalMode_ready mode, (evalMode_keeps_sys (g := fun b => b.wakeSrc) (fun _ _ _ => rfl) fun _ _ => rfl).trans source⟩

theorem wakeBy_watch {command : Bool} (entry : s.sys.entry = none) (reset : s.sys.reset = none) (mode : s.sys.mode = .watch)
    (armed : Nat.land w s.sys.armed ≠ 0) : wakeBy w command s = wakeFromWatch (Nat.land w s.sys.armed) s := by
  unfold wakeBy
  rw [entry]
  dsimp only
  rw [if_neg (by simp [reset]), mode]
  exact if_neg armed

theorem wakeEvent_wakes {b : Bool} (entry : s.sys.entry = none) (reset : s.sys.reset = none) (mode : s.sys.mode = .watch)
    (armed : Nat.land w s.sys.armed ≠ 0) :
    Answers (.wakeEvent w b) s fun t => (t.sys.mode = .ready ∨ t.sys.mode = .session)
      ∧ t.sys.wakeSrc = Nat.land w s.sys.armed :=
  ⟨_, congrArg Host.Outcome.next (wakeBy_watch entry reset mode armed), wakeFromWatch_wakes⟩

theorem sysWakeWrite_wakes {x : Word} (entry : s.sys.entry = none) (reset : s.sys.reset = none) (mode : s.sys.mode = .watch)
    (armed : Nat.land srcHsi s.sys.armed ≠ 0) :
    Answers (.sysWakeWrite x) s fun t => t.sys.mode = .ready ∨ t.sys.mode = .session :=
  ⟨_, congrArg Host.Outcome.next (wakeBy_watch entry reset mode armed), wakeFromWatch_wakes.1⟩

theorem wakeEvent_boots {b : Bool} (entry : s.sys.entry = none) (reset : s.sys.reset = none) (mode : s.sys.mode = .dormant)
    (source : Nat.land w 0x3F ≠ 0) (good : railsGood s = true) :
    Answers (.wakeEvent w b) s fun t => t.sys.wakeSrc = Nat.land w 0x3F
      ∧ t.sys.reset = some { cold := false, causes := 2 ^ causeWake, pin := false } := by
  have run : exec (.wakeEvent w b) s = .next (onSys (fun b => { b with
      wakeSrc := Nat.land w 0x3F, reset := some { cold := false, causes := 2 ^ causeWake, pin := false } }) s) := by
    refine congrArg Host.Outcome.next ?_
    unfold wakeBy
    rw [entry]
    dsimp only
    rw [if_neg (by simp [reset]), mode]
    exact (if_neg source).trans (if_pos good)
  exact ⟨_, run, rfl, rfl⟩

/-! ### The wake detector (R252) -/

theorem abandonMsdu_wakeArmed : (abandonMsdu s).glk.wakeArmed = s.glk.wakeArmed :=
  abandonMsdu_keeps_glk (v := fun b => b.wakeArmed) (fun _ _ _ _ => rfl) fun _ _ => rfl

theorem glkGate_wakeArmed : (glkGate s).glk.wakeArmed = s.glk.wakeArmed := by
  unfold glkGate
  split
  · rfl
  · split
    · split
      · rfl
      · exact abandonMsdu_wakeArmed
    · extract_lets asked
      have asks : asked.glk.wakeArmed = s.glk.wakeArmed := congrArg GlkBlock.wakeArmed askKey_glk
      split
      · split
        · exact asks
        · exact abandonMsdu_wakeArmed.trans asks
      · split
        · exact asks
        · exact asks

theorem slotsChanged_wakeArmed : (slotsChanged s).glk.wakeArmed = s.glk.wakeArmed := by
  have refreshed : (slotsChanged s).glk = (glkGate s).glk := part_of_law .glk same_ctRefresh rfl
  rw [refreshed, glkGate_wakeArmed]

theorem tamperAct_wakeArmed {d : Nat} : (tamperAct d s).glk.wakeArmed = s.glk.wakeArmed := by
  unfold tamperAct
  extract_lets counted logged
  have logs : logged.glk.wakeArmed = s.glk.wakeArmed := congrArg GlkBlock.wakeArmed logEv_glk
  split
  · refine Eq.trans ?_ logs
    exact slotsChanged_wakeArmed.trans (congrArg GlkBlock.wakeArmed logEv_glk)
  · exact logs

theorem actLatched_wakeArmed : (actLatched s).glk.wakeArmed = s.glk.wakeArmed := by
  refine foldl_keeps (g := fun u : State => u.glk.wakeArmed) fun u d => ?_
  split
  · exact tamperAct_wakeArmed
  · rfl

theorem wokenReady_wakeArmed : (wokenReady w s).glk.wakeArmed = false := by
  unfold wokenReady
  generalize resumed : onGlk _ _ = u
  have off : u.glk.wakeArmed = false := resumed ▸ rfl
  have kept : (loadSlots (deriveSlots (drainRetention (setMode 6 .ready u)))).glk = u.glk :=
    (same_loadSlots rfl (same_deriveSlots rfl (same_drainRetention rfl (same_setMode 6 .ready rfl
      (same_refl [.key, .sys, .mgt, .log] u))))).part (q := .glk) rfl
  rw [actLatched_wakeArmed, kept, off]

theorem glkAfterWatch_wakeArmed : (glkAfterWatch s).glk.wakeArmed = s.glk.wakeArmed := by
  unfold glkAfterWatch
  split
  · rfl
  · split
    · split
      · rfl
      · exact abandonMsdu_wakeArmed
    · rfl

/-- Badger's replay check takes the frame that woke the device, and leaves the detector. -/
theorem checkWake_takes : (checkWake s).glk.wakePend = none ∧ (checkWake s).glk.wakeArmed = s.glk.wakeArmed := by
  unfold checkWake
  split
  next none => exact ⟨none, rfl⟩
  next =>
    extract_lets taken replays inhibit held rejected
    split
    · rw [logEv_glk]
      exact ⟨rfl, rfl⟩
    · rw [logEv_glk]
      exact ⟨rfl, rfl⟩

theorem wokenServed_glk : (wokenServed s).glk.wakePend = none ∧ (wokenServed s).glk.wakeArmed = s.glk.wakeArmed := by
  have resumed (u : State) : (hsiWake u).glk = u.glk := rfl
  have rest (u : State) : (slacChecks (onCans (fun x => if x.en then { x with state := .active } else x) (flushProfile u))).glk = u.glk :=
    (same_slacChecks rfl (same_onCans rfl (same_flushProfile rfl (same_refl [.bil, .vlk, .log, .can] u)))).part (q := .glk) rfl
  obtain ⟨taken, armed⟩ := checkWake_takes (s := hsiWake (slotsChanged (glkAfterWatch s)))
  rw [wokenServed, rest]
  refine ⟨taken, armed.trans ?_⟩
  rw [resumed, slotsChanged_wakeArmed, glkAfterWatch_wakeArmed]

theorem wakeFromWatch_glk : (wakeFromWatch w s).glk.wakeArmed = false ∧ (wakeFromWatch w s).glk.wakePend = none := by
  have mode (u : State) : (evalMode u).glk = u.glk := part_of_law .glk same_evalMode rfl
  obtain ⟨taken, armed⟩ := wokenServed_glk (s := wokenReady w s)
  rw [wakeFromWatch_eq, mode]
  exact ⟨armed.trans wokenReady_wakeArmed, taken⟩

theorem glkWakeInd_wakes {b : Bytes} (there : blockBit s 4 = true) (length : b.length = 16)
    (dev : leAt 0 8 b = 0 ∨ leAt 0 8 b = s.ident.deviceId) (mode : s.sys.mode = .watch) (entry : s.sys.entry = none)
    (reset : s.sys.reset = none) (detector : s.glk.wakeArmed = true) (free : s.glk.wakeInhibit = false)
    (rested : s.glk.wakeTick = none) (armed : Nat.land srcGrid s.sys.armed ≠ 0) :
    Answers (.glkWakeInd b) s fun t => (t.sys.mode = .ready ∨ t.sys.mode = .session) ∧ t.glk.wakeArmed = false
      ∧ t.glk.wakePend = none := by
  have own : ¬ (leAt 0 8 b ≠ 0 ∧ leAt 0 8 b ≠ s.ident.deviceId) := fun other => dev.elim other.1 other.2
  have late : within s s.glk.wakeTick 10000 = false := by
    rw [rested]
    rfl
  have run : exec (.glkWakeInd b) s = .next (wakeFromWatch (Nat.land srcGrid s.sys.armed)
      (onGlk (fun g => { g with wakePend := some (leAt 8 4 b, byteAt 12 b) }) s)) := by
    refine congrArg Host.Outcome.next ((if_neg (by simp [there])).trans ((if_neg (not_not_intro length)).trans ((if_neg own).trans
      ((if_pos mode).trans ((if_pos ⟨detector, free, late⟩).trans ?_)))))
    exact wakeBy_watch entry reset mode armed
  exact ⟨_, run, wakeFromWatch_wakes.1, wakeFromWatch_glk⟩

end Watch

/-! ## Modes (R374, R380) -/

theorem modeSet_maintains {r : Req} (up : s.sys.badgerDown = false) (mode : s.sys.mode = .ready ∨ s.sys.mode = .session)
    (idle : anySession s = false) (lc : s.key.lc = .blank ∨ s.key.lc = .provisioned ∨ s.key.lc = .recovery
      ∨ (s.key.lc = .maintenance ∧ hasAuthority s r.side = true)) :
    Answers (.modeSet r 5) s fun t => Posted t r stsOk [] ∧ t.sys.mode = .maintenance := by
  have allowed : (s.key.lc == .service || s.key.lc == .retired || (s.key.lc == .maintenance && !hasAuthority s r.side)) = false := by
    obtain lc | lc | lc | ⟨lc, authority⟩ := lc
    · rw [lc]; rfl
    · rw [lc]; rfl
    · rw [lc]; rfl
    · rw [lc, authority]; rfl
  have awake : ((s.sys.mode != .ready && s.sys.mode != .session) || anySession s) = false := by
    rw [idle]
    obtain mode | mode := mode
    · rw [mode]; rfl
    · rw [mode]; rfl
  refine ⟨_, congrArg Host.Outcome.next ((badgerCmd_up up).trans (guarded_ok ((firstFail_cons_false rfl).trans
    ((firstFail_cons_false allowed).trans (firstFail_cons_false ?_))))), rfl, ?_⟩
  · rw [awake]
    rfl
  · exact setMode_sys (g := fun b => b.mode) fun _ _ _ => rfl

theorem modeSet_returns {r : Req} (up : s.sys.badgerDown = false) (mode : s.sys.mode = .maintenance) (struct : s.str.noStruct = false) :
    Answers (.modeSet r 2) s fun t => Posted t r stsOk [] ∧ (t.sys.mode = .ready ∨ t.sys.mode = .session) := by
  refine ⟨_, congrArg Host.Outcome.next ((badgerCmd_up up).trans (guarded_ok ((firstFail_cons_false rfl).trans
    ((firstFail_cons_false rfl).trans (firstFail_cons_false ?_))))), rfl, ?_⟩
  · rw [mode, struct]
    rfl
  · exact evalMode_ready (setMode_sys (g := fun b => b.mode) fun _ _ _ => rfl)

theorem limpExit_leaves {k : Nat} (mode : s.sys.mode = .limp) (up : s.sys.badgerDown = false) (app : s.sys.appDown = false)
    (cool : s.mgt.therm ≠ 4) (since : s.mgt.hbSince = some k) (long : k + msTicks 10000 ≤ s.ticks) :
    Answers .limpExit s fun t => t.sys.mode = .ready ∨ t.sys.mode = .session := by
  have beats : s.mgt.hbSince.any (fun t => decide (t + msTicks 10000 ≤ s.ticks)) = true := by
    rw [since, Option.any_some]
    exact decide_eq_true long
  refine ⟨_, congrArg Host.Outcome.next (if_pos ⟨mode, up, app, cool, beats⟩), ?_⟩
  have rest (u : State) : (slacChecks (resumeRings u)).sys.mode = u.sys.mode :=
    sys_of_part (g := fun b => b.mode) (fun _ _ _ => rfl) ((same_slacChecks rfl (same_resumeRings rfl
      (same_refl [.vlk, .glk, .eth, .can, .sram] u))).part (q := .sys) rfl)
  have ready : (setMode 5 .ready s).sys.mode = .ready := setMode_sys (g := fun b => b.mode) fun _ _ _ => rfl
  beta_reduce
  rw [rest]
  exact evalMode_ready ready

/-! ## Accepted pilot states (R221, R42) -/

theorem readingAt_slacChecks : readingAt o (slacChecks s) = readingAt o s :=
  foldl_keeps (g := readingAt o) fun _ _ => slacCheck_keeps_link startFree_reading.close.slac

theorem readingAt_wokenServed : readingAt o (wokenServed s) = readingAt o s := by
  unfold wokenServed
  generalize served : onCans _ _ = u
  have woken : Same [.bil, .glk, .tag, .key, .log, .hsi, .can, .sram] s u :=
    served ▸ same_onCans rfl (same_flushProfile rfl (same_checkWake rfl (same_hsiWake rfl (same_slotsChanged rfl
      (same_glkAfterWatch rfl (same_refl _ s))))))
  exact readingAt_slacChecks.trans (congrArg Link.reading (linkOf_congr (woken.part (q := .vlk) rfl)))

theorem wokenReady_vlk {w : Nat} : (wokenReady w s).vlk = s.vlk := by
  unfold wokenReady
  generalize resumed : onGlk _ _ = u
  have same : u.vlk = s.vlk := resumed ▸ rfl
  have woken : Same [.glk, .tag, .key, .sys, .mgt, .log, .sram] u (actLatched (loadSlots (deriveSlots (drainRetention (setMode 6 .ready u))))) :=
    same_actLatched rfl (same_loadSlots rfl (same_deriveSlots rfl (same_drainRetention rfl (same_setMode 6 .ready rfl (same_refl _ u)))))
  exact Eq.trans (woken.part (q := .vlk) rfl) same

/-- A wake leaves the pilot readings. -/
theorem readingAt_wakeBy {w : Nat} {c : Bool} : readingAt o (wakeBy w c s) = readingAt o s := by
  have of_vlk {t u : State} (h : u.vlk = t.vlk) : readingAt o u = readingAt o t := congrArg Link.reading (linkOf_congr h)
  have watch {w : Nat} : readingAt o (wakeFromWatch w s) = readingAt o s := by
    rw [wakeFromWatch_eq]
    exact (congrArg Link.reading linkOf_evalMode).trans (readingAt_wokenServed.trans (of_vlk wokenReady_vlk))
  unfold wakeBy
  split
  next e _ =>
    split
    · exact of_vlk (part_of_law .vlk (same_abandonSleep e w) rfl)
    · rfl
  next =>
    split
    · rfl
    · split
      · split
        · rfl
        · exact watch
      · extract_lets sources
        split
        · rfl
        · split
          · rfl
          · rfl
      · rfl

theorem pilotStateAccepted_takes {hi lo : Int} (inv : s.Inv) (ho : o < 4) (reset : s.sys.reset = none)
    (dormant : s.sys.mode ≠ .dormant) (link : linked s o = true) :
    Answers (.pilotStateAccepted o hi lo) s fun t =>
      (s.str.act.isSome = true → (linkOf t o).pilotHeld = some (hi, lo))
        ∧ (s.str.act = none → (linkOf t o).cpHi = satSigned 16 hi ∧ (linkOf t o).cp = classified s o hi lo) := by
  refine ⟨_, congrArg Host.Outcome.next ((if_neg (by simp [reset])).trans (if_neg dormant)), fun runs => ?_, fun idle => ?_⟩
  · have held : pilotAccepted o hi lo s = onLink o (fun l => { l with pilotHeld := some (hi, lo) }) s :=
      (if_neg (by simp [link])).trans (if_pos runs)
    have own : linkOf (pilotAccepted o hi lo s) o = { linkOf s o with pilotHeld := some (hi, lo) } :=
      held ▸ linkOf_onLink_self (link_in_range inv ho)
    rw [if_pos (congrArg Link.cp own), own]
  · have accepted : pilotAccepted o hi lo s = acceptState o hi lo s := (if_neg (by simp [link])).trans (if_neg (by simp [idle]))
    rw [accepted]
    have taken := readingAt_acceptState (hi := hi) (lo := lo) inv ho
    generalize acceptState o hi lo s = u at taken ⊢
    suffices reads : readingAt o _ = (satSigned 16 hi, classified s o hi lo) from
      ⟨congrArg Prod.fst reads, congrArg Prod.snd reads⟩
    dsimp only
    split
    · exact taken
    · exact readingAt_slacCheck.trans (readingAt_wakeBy.trans taken)

/-- Settles O39: each command shows the transition of its row; what a wake or an entry runs through leaves the mode, the entry
and the pilot readings as the row set them. -/
theorem sleepAndModeCommandsEffect : Obligations.SleepAndModeCommandsEffect :=
  ⟨fun _ _ _ up target mode entry outlets => sleep_begins up target mode entry outlets,
    fun _ _ _ entry point => sleepVoteTimeout_decides entry point,
    fun _ _ _ entry point => sleepCommit_saves entry point,
    fun _ _ entry point => sleepArm_arms entry point,
    fun _ _ _ entry point => sleepEnter_enters entry point,
    fun _ _ _ entry source => wakeEvent_abandons entry source,
    fun _ _ _ _ entry reset mode armed => wakeEvent_wakes entry reset mode armed,
    fun _ _ _ entry reset mode source good => wakeEvent_boots entry reset mode source good,
    fun _ _ _ entry reset mode armed => sysWakeWrite_wakes entry reset mode armed,
    fun _ _ => rfl,
    fun _ _ _ there length dev mode entry reset detector free rested armed =>
      glkWakeInd_wakes there length dev mode entry reset detector free rested armed,
    fun _ _ up mode idle lc => modeSet_maintains up mode idle lc,
    fun _ _ up mode struct => modeSet_returns up mode struct,
    fun _ _ _ mode up app cool since long => limpExit_leaves mode up app cool since long,
    fun _ _ _ _ inv ho reset dormant link => pilotStateAccepted_takes inv ho reset dormant link⟩

end Sys2Proof.Machine
end
